-- ==== Sys2Proof/Word.lean ====
section
/-! DEFINITION. The words of the KF-384: bytes and byte strings (R8). -/

namespace Sys2Proof

/-- A byte (R8). -/
abbrev Byte := BitVec 8
/-- A byte string, lowest address first. -/
abbrev Bytes := List Byte

end Sys2Proof
end

