-- ==== Sys2Proof/Machine/Types.lean ====
section
/-! DEFINITION. The data the blocks hold, first part: plans, schedulers, queues, signals, pages, streams, records. -/

namespace Sys2Proof.Machine

/-- The order number (Table 0-1). -/
inductive Variant where
  | l768
  | l384
  deriving DecidableEq, Repr

/-! ### Plan images (03_plans.md) -/

/-- A resource request (Table 3-4). -/
structure Request where
  (kind subkind absId amount dieMask clusterMask near rate : Nat)
  (pinned share migrate : Bool)
  deriving DecidableEq, Repr

/-- A stage descriptor (Table 3-7). -/
structure Stage where
  (engine side op srcTier inOff inLen outOff outLen param max : Nat)
  deriving DecidableEq, Repr, Inhabited

/-- A ligature header (Table 3-6) with its stages. -/
structure Ligature where
  (maxRows winSize winBase groups core nibs level sigDone sigWait : Nat)
  (ruled : Bool)
  (stages : List Stage)
  deriving DecidableEq, Repr

/-- A table or tensor reference (Table 3-9). -/
structure Ref where
  (size addr desc hbm absId padOff place kind : Nat)
  (pad : Bool)
  deriving DecidableEq, Repr

/-- A certificate entry (Table 3-8). -/
structure Cert where
  (bytes tEnd tStart claim release unit index unitKind kind : Nat)
  deriving DecidableEq, Repr

/-- A dependency entry (Table 3-10). -/
structure Dep where
  (consumer producer : Nat)
  deriving DecidableEq, Repr

/-- A stream descriptor (Table 9-4). -/
structure StreamDesc where
  (src dst : Nat)
  (s3 s2 s1 : Int)
  (n3 n2 n1 d0 slotBytes param srcAbs dstAbs sigSlot rot outstanding ring tileDims elem layout : Nat)
  (persist priv weights write : Bool)
  (kind srcKind dstKind : Nat)
  (cache : Bool)
  (codec cmpAbs : Nat)
  deriving DecidableEq, Repr

/-- A section 0x0007 or 0x0008 entry kept as its bytes, decoded by its home functions. -/
abbrev RawEntry := Bytes

/-- A plan image (R85 to R88) as the load took it in. -/
structure Image where
  (id seed length marginLevel : Nat)
  (ruled exchange dip : Bool)
  (requests : List Request)
  (ligatures : List Ligature)
  (streams : List StreamDesc)
  (refs : List Ref)
  (deps : List Dep)
  (certs : List Cert)
  (layouts loads : List RawEntry)
  (blob digest : Bytes)
  deriving DecidableEq, Repr

/-- One abstract id bound to a physical unit or region (R90): `base` is a DVA or a first entry number, `size` its bytes or
entries, `unit` the unit id that holds it, `index` the physical number within its kind. -/
structure Bound where
  (kind subkind absId unit index base size : Nat)
  deriving DecidableEq, Repr

/-- The states of Table 3-11. -/
inductive PlanState where
  | loaded
  | active
  | retiring
  deriving DecidableEq, Repr

/-- A pending rebind (R105 to R110): the places left and the places they move to, in one order, the Reservoir parts among them that are
dropped, whether the copies are complete, and whether UNIT_EXCLUDE started it. -/
structure Rebind where
  (olds news drops : List Bound)
  (copied exclusion : Bool)
  deriving DecidableEq, Repr

/-- What a boundary action does (Table 2-6). -/
inductive Action where
  | tableSwap (slot live standby t : Nat)
  | cutover (slot ref row : Nat) (entries : Nat)
  | dipChange (slot ref row : Nat)
  | rebindCommit (slot : Nat)
  | activation (slot : Nat)
  | retirement (slot : Nat) (reset : Bool)
  | periodChange (period : Nat)
  deriving DecidableEq, Repr

/-- A boundary action in request order, with whether a guard band has admitted it (R68) and whether it has been carried out, to be in force
from the closing edge. -/
structure Pending where
  (act : Action)
  (admitted : Bool)
  (done : Bool := false)
  deriving DecidableEq, Repr

/-- A region still to be zeroed (R92): the byte ranges, and the resources that wait with it. -/
structure Zeroing where
  (ranges : List (Nat × Nat))
  (held : List Bound)
  (session : Bool)
  deriving DecidableEq, Repr

/-! ### Schedulers and the Scribe (02_ruling.md) -/

/-- A task in a ready list, parked, waiting or running; `release` is the release cycle of a ruled task, `begun` the cycle of its first
grant, `ran` the cycles it ran before its last suspension, `lateUnit` the unit named when it passed its deadline, `missed` that its unit missed
the edge of the tick (RUL_EDGE_MISS), `noted` that its wait for a reserved entry has been recorded. -/
structure Task where
  (id slot lig level ready release deadline core : Nat)
  (ruled overrun : Bool)
  (suspended : Option Nat)
  (begun : Option Nat := none)
  (ran : Nat := 0)
  (lateUnit : BitVec 16 := 0)
  (missed noted : Bool := false)
  deriving DecidableEq, Repr

/-- A granted task: its engines, the cycle of its first grant, whether it started late, and the cycle of its last grant. -/
structure Running where
  (task : Task)
  (engines started : Nat)
  (late : Bool)
  (since : Nat := 0)
  deriving DecidableEq, Repr

/-- A margin event held back under R80: its source number and its task. -/
structure Held where
  (source : Nat)
  (task : Task)
  deriving DecidableEq, Repr

/-- A cluster's Scribe ring (R82, R83); records newest first. No ring is set while `bytes` is 0. -/
structure Scribe where
  (bytes : Nat)
  (stop : Bool)
  (recs : List (BitVec 256))
  (seq unwritten : BitVec 32)
  deriving DecidableEq, Repr

/-- A cluster's task scheduler with its Scribe; `nextIns` is the first cycle in which an insertion can be taken (R77), `nextGrant` the first in
which the dispatch side can grant, `tickAt` the cycle that the insertion side gives to the TICK record of this guard band (R82). -/
structure Cluster where
  (ready : List Task)
  (releaseWait : List Task)
  (running : List Running)
  (held : List Held)
  (idle : List Nat)
  (scribe : Scribe)
  (off : Bool)
  (nextIns nextGrant : Nat := 0)
  (tickAt : Option Nat := none)
  deriving DecidableEq, Repr

/-! ### Inkwell queues (11_queues_signals.md) -/

/-- A packet held by a queue: its bytes, its cells, its tag and its position since binding. -/
structure Packet where
  (bytes : Bytes)
  (cells : List Nat)
  (tag pos : Nat)
  deriving DecidableEq, Repr

/-- Who holds a queue. -/
inductive QueueOwner where
  | device
  | plan (slot : Nat)
  deriving DecidableEq, Repr

/-- An Inkwell queue (Table 11-3): the packets from the release point on, with the read position and the mark as
(packet, cell) positions in that list, and where the list is broken the packet it is broken at. -/
structure Queue where
  (owner : QueueOwner)
  (pkts : List Packet)
  (read : Nat × Nat)
  (mark : Option (Nat × Nat))
  (tail markCell : BitVec 16)
  (committed : Nat)
  (limit reserve : Nat)
  (corr : BitVec 8)
  (noticeTgt : BitVec 16)
  (noticeKind pdom cdom : BitVec 2)
  (autorel broken : Bool)
  (kind : BitVec 4)
  (wdog : BitVec 32)
  (brokenAt : Nat)
  deriving DecidableEq, Repr

/-! ### Signal cells and waits (11_queues_signals.md) -/

/-- What a released wait starts again: a task, a stream, the packet that a producer holds in unlinked cells with its tag, or a unit that takes a
cell. -/
inductive WaitFor where
  | task (t : Task)
  | stream (slot index : Nat)
  | commit (tag : Nat) (packet : Bytes)
  | unit
  deriving DecidableEq, Repr

/-- A queued wait: the waiting unit, its decrement and the cycle of its registration (R376, R378). On a queue a decrement of 0 waits for a
cell, and one of n + 1 for the room of a packet of n bytes (R362, R365). -/
structure Waiter where
  (unit : BitVec 16)
  (dec since : Nat)
  (what : WaitFor)
  deriving DecidableEq, Repr

/-- A signal cell (Table 11-7). -/
structure SigCell where
  (value max min : BitVec 32)
  (adds : BitVec 64)
  (wdog : BitVec 32)
  (plan : BitVec 8)
  (toHost underflow overflow : Bool)
  (session bound : Bool)
  (waiters : List Waiter)
  deriving DecidableEq, Repr

/-- A parked waiter (R378): `queue` tells a queue from a cell, `num` is its number. -/
structure Parked where
  (waiter : Waiter)
  (queue : Bool)
  (num : Nat)
  deriving DecidableEq, Repr

/-- A remote signal held until its data have committed (R382, R383). -/
structure RemoteSignal where
  (cell : Nat)
  (n : BitVec 32)
  (source : Nat)
  (ext : Bool)
  (stream pos : Nat)
  (die : Nat)
  (since : Nat)
  (reported : Bool)
  deriving DecidableEq, Repr

/-- A coalesced host signal waiting to be sent (R381). -/
structure HostSignal where
  (queue : Bool)
  (num : Nat)
  (net value : BitVec 32)
  (count : Nat)
  deriving DecidableEq, Repr

/-! ### Pages, allocations and streams (09_streams_memory.md) -/

/-- A page entry (Table 9-2), with the die on which the page was first mapped. -/
structure Page where
  (frame : BitVec 26)
  (dirty faulted : Bool)
  (state : BitVec 2)
  (die : Nat)
  deriving DecidableEq, Repr

/-- A range of the paged space held by the session (MEM_ALLOC). -/
structure Alloc where
  (base pages : Nat)
  deriving DecidableEq, Repr

/-- The states of Table 9-6. -/
inductive StrState where
  | idle
  | running
  | halted
  | done
  | aborted
  | cancelled
  deriving DecidableEq, Repr

/-- The states of Table 9-5. -/
inductive SlotState where
  | free
  | filling
  | ready
  | truncated
  | draining
  deriving DecidableEq, Repr

/-- A ring slot: its slot word, the tile it holds plus 1 (0 for none), how far its transfers have been issued and committed, and the byte
ranges of the tile that were out of range or lost. -/
structure Slot where
  (state : SlotState)
  (bytes tile issued committed : Nat)
  (badRanges : List (Nat × Nat))
  deriving DecidableEq, Repr

/-- A transfer in flight (R310): its tag number, slot, byte range within the tile, the address on the walk's side, and the cycle it was
issued; `drop` once a cancel has taken its slot away. -/
structure Transfer where
  (tag slot off len dva issuedAt : Nat)
  (drop : Bool)
  deriving DecidableEq, Repr

/-- A stream's fault record (Table 9-9). -/
structure FaultRec where
  (dva i3 i2 i1 i0 committed tile slot cause : Nat)
  deriving DecidableEq, Repr

/-! ### Clock, ruling and PTP time (02_ruling.md, 12_ports.md) -/

/-- The core clock and the tick in progress: `cycle` counts CCLK cycles from power-on, `scrBase` is its value when SCR_CYCLE
restarted, `edge` its value at the last tick edge and `len` the length of the tick in progress. -/
structure Clock where
  (cycle scrBase edge len : Nat)
  (guard : Bool)
  deriving DecidableEq, Repr

/-- A SHARED_TASK of a compression engine, media unit, update combiner or serve stream released and not completed (R53): its plan slot and stream,
its unit with the unit's kind, its task id, its release cycle and its deadline, and the task id of its record once it has passed the deadline
(R72). -/
structure SharedRun where
  (slot stream kind : Nat)
  (unit : BitVec 16)
  (id release deadline : Nat)
  (overrun : Option Nat)
  deriving DecidableEq, Repr

/-- The ruling generator: its registers (Tables 2-1, 2-2), the step of R50 still to be made and whether its edge has come, the edge and
aligned time that the following edges count from, the consecutive ticks within 10 ns, the units named in overrun records since the
last acknowledgement, a period waiting for the next edge (R47), the ticks since the last survey interval closed (R249), the
SHARED_TASKs in progress on units that run no streams and those of serve streams (R53), and how many period changes have been asked for. -/
structure Ruling where
  (cfg : BitVec 64)
  (status : BitVec 32)
  (tick : BitVec 64)
  (stepPend : Bool)
  (anchor : Option (Nat × Nat))
  (aligned : Nat)
  (overrunUnits : List (BitVec 16))
  (nextPeriod : Option Nat)
  (stepDue : Bool := false)
  (surveyTicks : Nat := 0)
  (shared : List SharedRun := [])
  (asked : Nat := 0)
  deriving DecidableEq, Repr

/-! ### Records and self-test (15_errors.md) -/

/-- An event of a code raised once per tick (R515), merged by class, code, unit and `key`. -/
structure TickEvent where
  (cls code unit plan key pos count : Nat)
  deriving DecidableEq, Repr

/-- The Blotter ring writer (R470 to R473): records written since power-on, the store newest first, the ring with the number of
its first record, the notice cell, and the blot records of this tick by plan. -/
structure Blotter where
  (written : Nat)
  (store : List (BitVec 256))
  (ring : Option (Nat × Nat × Nat))
  (notice : Option Nat)
  (blots : List (Nat × Nat))
  deriving DecidableEq, Repr

/-- A self-test under way (R474 to R480): the index of the first record it answers, how many, the segments done, the failing
parts found, its first cycle, whether the host ran it, and the records that wait for a new test. -/
structure SelfTest where
  (unit : BitVec 16)
  (first answered done failing since : Nat)
  (deferred host : Bool)
  (nextFirst nextCount : Nat)
  deriving DecidableEq, Repr

/-! ### Mailboxes (13_mailboxes.md) -/

/-- The effect a pending command waits for (the P form of R419). -/
inductive PendKind where
  | activate (slot : Nat)
  | retire (slot : Nat)
  | rebind (slot : Nat)
  | bringIn (page source state : Nat)
  | pageSet (first pages action : Nat)
  | replace (slot live t : Nat)
  | stats (slot ref tick : Nat)
  | ruling (asked : Nat)
  | keyslot (slot : Nat)
  | rekey
  | selftest (unit : BitVec 16)
  | exclude (units : List (BitVec 16))
  | power (target : Nat) (mask : Nat)
  | reset (kind target : Nat)
  deriving DecidableEq, Repr

/-- A request still kept under R427: its tag, its CRC-32C, its opcode and its last response. -/
structure Kept where
  (tag crc : BitVec 32)
  (op : Nat)
  (resp : Bytes)
  deriving DecidableEq, Repr

/-- A pending command: what is kept of it and the effect it waits for. -/
structure PendCmd where
  (kept : Kept)
  (kind : PendKind)
  deriving DecidableEq, Repr

/-- A mailbox (R416, R417, R427): its counters (Table 13-1), pending commands, the 16 most recently completed ones newest
first, and the responses that wait for room in its response queue. -/
structure Mailbox where
  (doorbells spurious : BitVec 16)
  (discarded : BitVec 8)
  (pend : List PendCmd)
  (done : List Kept)
  (outbox : List Bytes)
  deriving DecidableEq, Repr

/-! ### Plans resident -/

/-- A resident plan (R102, R103); `filterbanks` holds what the audio front ends loaded at activation, by reference (R352). -/
structure Plan where
  (image : Image)
  (state : PlanState)
  (bound : List Bound)
  (avoid : List (BitVec 16))
  (changed : Nat)
  (retireBands : Nat)
  (resetting : Bool)
  (padCopies replicas : List (Nat × Nat))
  (imageFrames : List Nat)
  (filterbanks : List (Nat × Bytes))
  (rebind : Option Rebind)
  deriving DecidableEq, Repr

/-! ### Power, supplies and start-up (16_power_module.md) -/

/-- The power states of Table 16-7, with the module shut down and the module held in MOD_RESET_N. -/
inductive PowerState where
  | run
  | dormant
  | standby
  | shutdown
  | held
  deriving DecidableEq, Repr

/-- The power controller and the module's sensors: supply readings in mV, powers in mW, temperatures in 0.1 °C, the two
fractions of R505 with whether a temperature holds F at 0 (R508), the records in force (R510) by code and sensor, and whether a warm reset
has been answered and not yet begun (R430). -/
structure Power where
  (state : PowerState)
  (cap : BitVec 32)
  (f f2 : Nat)
  (moduleMw hbmMw computeMw : BitVec 32)
  (volts : List (Nat × Nat))
  (temps : List (Nat × Int))
  (overSince underSince : Option Nat)
  (unheld thermHold : Bool)
  (inForce : List (Nat × Nat))
  (pwrGood warm : Bool)
  (cause : BitVec 16)
  deriving DecidableEq, Repr

/-- The start-up state (Table 16-4, Table 16-5). -/
structure Boot where
  (stage : BitVec 4)
  (altLoader altMain : Bool)
  (bringup : BitVec 2)
  (fail : BitVec 4)
  (debug : Bool)
  deriving DecidableEq, Repr

end Sys2Proof.Machine
end

