-- ==== Sys2Proof/Machine/Types2.lean ====
section
/-! DEFINITION. The data the blocks hold, second part: ports, transport, Dip, PTP and security. -/

namespace Sys2Proof.Machine

/-! ### Ports and transport (12_ports.md) -/

/-- Where a frame goes: MAC address, IP address (16 bytes), UDP port. -/
structure Addr where
  (mac : BitVec 48)
  (ip : Bytes)
  (udp : BitVec 16)
  deriving DecidableEq, Repr

/-- The traffic classes of R389, in the order of that rule. -/
inductive OutClass where
  | pfcPtp
  | dip
  | ruledExch
  | control
  | mailbox
  | margin
  deriving DecidableEq, Repr

/-- A KIT header (Table 12-3), its reserved bits gathered in `rsv`. -/
structure KitHeader where
  (ver kind : BitVec 4)
  (extSrc extDst doorbell first last : Bool)
  (srcDev dstDev : BitVec 10)
  (keyId endpoint len : BitVec 16)
  (pos : BitVec 48)
  (tick : BitVec 32)
  (seq : BitVec 64)
  (rsv : BitVec 31)
  deriving DecidableEq, Repr

/-- A frame waiting at a logical port: a KIT packet not yet sealed, or a PTP message or PFC frame as its bytes. -/
inductive OutBody where
  | kit (h : KitHeader) (payload : Bytes)
  | ptp (payload : Bytes)
  | pfc (priority : Nat) (xoff : Bool)
  deriving DecidableEq, Repr

/-- A frame waiting at a logical port with its class, its address and its priority. -/
structure OutFrame where
  (cls : OutClass)
  (pcp : Nat)
  (dst : Addr)
  (body : OutBody)
  deriving DecidableEq, Repr

/-- A frame that has left a port, whole from its destination address to its check sequence, with the UDP payload of its KIT packet or
PTP message, or its PFC priority and state. -/
structure SentFrame where
  (port : Nat)
  (dst : Addr)
  (pcp : Nat)
  (pfc : Option (Nat × Bool))
  (bytes : Bytes)
  (frame : Bytes)
  deriving DecidableEq, Repr

/-- A logical port (R33, Table 12-2): `live` is the configuration in force, `cfg` the one last written (R388). The Dip bucket is
in eightieths of a byte, as filled up to cycle `bucketAt` (R389). -/
structure Port where
  (cfg : BitVec 64)
  (live : BitVec 64)
  (ip : Bytes)
  (linkUp : Bool)
  (retraining : Bool)
  (drops : List (BitVec 64))
  (paused : List (Nat × Nat))
  (xoff : List Nat)
  (bucket bucketAt : Nat)
  (replyAt idAt : Option Nat)
  (out : List OutFrame)
  deriving DecidableEq, Repr

/-- An entry of the neighbour table (R387). -/
structure Neighbour where
  (mac : BitVec 48)
  (ip : Bytes)
  (port : BitVec 8)
  deriving DecidableEq, Repr

/-- A transmit stream (R398). -/
structure TxStream where
  (queue dest stream port : Nat)
  (ruled : Bool)
  (key : Nat)
  (pos : BitVec 48)
  deriving DecidableEq, Repr

/-- A receive stream's destination (R399). -/
inductive RxDest where
  | queue (q : Nat)
  | window (dva bytes : Nat)
  deriving DecidableEq, Repr

/-- A DATA packet of a receive stream to a queue whose Inkwell packet is not whole yet: its KIT_POS, its flags, its port and payload. -/
structure RxPart where
  (pos : BitVec 48)
  (first last : Bool)
  (port : Nat)
  (bytes : Bytes)
  deriving DecidableEq, Repr

/-- A receive stream (R399, R400): the committed count, the ranges committed past it as (distance from it, length), and the parts of packets
that are not whole yet. -/
structure RxStream where
  (source : Nat)
  (ext : Bool)
  (stream : Nat)
  (dest : RxDest)
  (committed : BitVec 48)
  (later : List (Nat × Nat))
  (parts : List RxPart)
  deriving DecidableEq, Repr

/-- The sequence numbers seen on a key slot from one sending port (R397): the highest and a bitmap of the 1,024 below it. -/
structure SeqWindow where
  (slot port highest seen : Nat)
  deriving DecidableEq, Repr

/-- The sending counter of a key slot and a logical port (R397): the next number, and whether it is exhausted. -/
structure SeqCounter where
  (slot port next : Nat)
  (exhausted : Bool)
  deriving DecidableEq, Repr

/-- A mailbox request in assembly, and where the most recent request of a mailbox came from (R402). -/
structure MailboxLink where
  (parts : Option Bytes)
  (source : Addr)
  (client : BitVec 10)
  (ext : Bool)
  (port : Nat)
  deriving DecidableEq, Repr

/-- The PTP time receiver and the time base (R391, R392): `offset` is the time base less the free-running time, in ns; `masters` holds the rank
of every time transmitter heard and `heard` the cycle of its last Announce. -/
structure Ptp where
  (port : Nat)
  (transport : BitVec 8)
  (domain : BitVec 8)
  (asymmetry : BitVec 32)
  (isSet : Bool)
  (offset : Int)
  (master : Option (Nat × Nat))
  (masters : List (Nat × Nat))
  (heard : List (Nat × Nat) := [])
  (lastSeq : Option (BitVec 16))
  (waiting : Option (BitVec 16 × Int))
  (t1t2 : Int × Int)
  (delayReq : Option (BitVec 16 × Int))
  (delayResp : Option (Int × Nat))
  (lastUpdate : Nat)
  (lastOffset : BitVec 64)
  (pps : BitVec 64 × BitVec 32)
  deriving DecidableEq, Repr

/-! ### Security (14_security.md) -/

/-- The fuses (Table 14-2). -/
structure Fuses where
  (dus : BitVec 256)
  (vkh : List Bytes)
  (revoke : BitVec 4)
  (minSvn : BitVec 64)
  (serial : BitVec 64)
  (macBase : BitVec 48)
  (debugDisable : Bool)
  deriving DecidableEq, Repr

/-- The keys of a slot for both directions (Table 14-8). -/
structure Keys where
  (txKey txSalt rxKey rxSalt : Bytes)
  deriving DecidableEq, Repr

/-- A loaded key slot (R396): the peer it belongs to, its keys, the value kept for the next rekey, and a rekey's candidate keys with
the cycle they were derived at (R456). -/
structure KeySlot where
  (num : Nat)
  (client : Bool)
  (peer : Nat)
  (keys : Keys)
  (rPrev : Bytes)
  (next : Option (Keys × Bytes × Nat))
  deriving DecidableEq, Repr

/-- A pending open (R452 to R454). -/
structure OpenSlot where
  (num : Nat)
  (client : Bool)
  (peer : Nat)
  (material ticket : Bytes)
  (initiator : Bool)
  (since : Nat)
  (mailbox : Nat)
  (tag : BitVec 32)
  deriving DecidableEq, Repr

/-- A handshake in progress (R448, R449): this device's side of it. -/
structure Handshake where
  (id : BitVec 64)
  (slot : Nat)
  (initiator : Bool)
  (client : Bool)
  (peer : Nat)
  (port : Nat)
  (addr : Addr)
  (ext : Bool)
  (hello reply : Bytes)
  (priv : Bytes)
  (prk thr : Bytes)
  (finish : Bytes)
  (since : Nat)
  (state : Nat)
  deriving DecidableEq, Repr

/-- A handshake message in reassembly (R446). -/
structure HsParts where
  (id : BitVec 64)
  (type frags len slot : Nat)
  (got : List (Nat × Bytes))
  (since : Nat)
  deriving DecidableEq, Repr

/-- The Seal (14_security.md). -/
structure Seal where
  (fuses : Fuses)
  (mr : List Bytes)
  (mr3Events : Nat)
  (mr3Log : List (BitVec 32 × Bytes))
  (arCounter keyEpoch : BitVec 64)
  (debugNonce : BitVec 64)
  (alternate latched : Bool)
  (scope : BitVec 16)
  (scrub : Option Nat)
  (trngOk : Bool)
  (hbmKeys : List Bytes)
  (slots : List KeySlot)
  (opens : List OpenSlot)
  (handshakes : List Handshake)
  (parts : List HsParts)
  deriving DecidableEq, Repr

/-- What the booted images' headers say (Table 14-3): version numbers, security version, and the two requests of R440. -/
structure Booted where
  (major minor patch : BitVec 16)
  (svn : BitVec 32)
  (keyIndex : BitVec 8)
  (commitSvn revokeBelow alternate : Bool)
  deriving DecidableEq, Repr

end Sys2Proof.Machine
end

