-- ==== Sys2Proof/Syntax.lean ====
section
/-! DEFINITION. The commands of the KF-384: one constructor per row of spec/opcode_table.json, in the table's order. -/

namespace Sys2Proof

open Sys2Proof.Machine (KitHeader Addr)

/-- What the message header of a request carries beside the command (Table 13-2): the mailbox it came to, MSG_TAG, the CRC-32C of
the whole message, MSG_LENGTH, the payload bytes the packet holds, and the byte offset of the first byte of the message that is
reserved or fixed and not as R418 has it. -/
structure Req where
  mailbox : BitVec 4
  tag : BitVec 32
  crc : BitVec 32
  length : BitVec 16
  present : BitVec 16
  bad : Option (BitVec 16)
  deriving DecidableEq, Repr

/-- One moved id of a REBIND request (Table 13-7). -/
structure RebindItem where
  absId : BitVec 16
  kind : Byte
  action : Byte
  deriving DecidableEq, Repr

/-- One entry of NEIGHBOUR_SET (Table 13-14). -/
structure NeighbourEntry where
  mac : BitVec 64
  ip : Bytes
  port : Byte
  deriving DecidableEq, Repr

/-- An entry of a match region that fails its parity check at a compare (R289): the row whose search compares it, for an automaton the
search of the row, counted from 0, and the entry's index in the region. -/
structure ParityFail where
  row : BitVec 32
  search : BitVec 32
  entry : BitVec 14
  deriving DecidableEq, Repr

/-- The stage of a running ligature an engine carries out: plan slot, ligature index, stage number and group of the release, and
the subunit (Table 1-3) at which the engine's residue or parity check fails on the group, 0 where it cannot be placed in one block; none
where it holds (ENGINE_CHECK, R26, Table 15-4). -/
structure StageRef where
  slot : BitVec 6
  lig : BitVec 16
  stage : BitVec 3
  group : BitVec 16
  check : Option (BitVec 4)
  deriving DecidableEq, Repr

/-- A stream: a plan slot with a descriptor index, or 0xFF with a host stream number (Table 13-8). -/
structure StreamRef where
  slot : Byte
  stream : BitVec 16
  deriving DecidableEq, Repr

/-- A take from a queue: the queue, and what the pool's check finds in the packet it takes from: the place of a word that cannot be corrected,
and how many words it corrected (R371, R372). -/
structure QueueTake where
  queue : BitVec 16
  badWord : Option (BitVec 17)
  corrected : Byte
  deriving DecidableEq, Repr

/-- A stream's next transfer, with what the pool's check finds where it takes a packet of a queue. -/
structure StreamTake where
  st : StreamRef
  badWord : Option (BitVec 17)
  corrected : Byte
  deriving DecidableEq, Repr

/-- A received KIT packet: the logical port, its source addresses, the UDP length, the header, the sealed payload and the tag. -/
structure KitPacket where
  port : BitVec 2
  source : Addr
  udpLen : BitVec 16
  header : KitHeader
  payload : Bytes
  tag : Bytes
  deriving DecidableEq, Repr

/-- A received PTP message: the port, how it came (0 UDP on IPv4, 1 UDP on IPv6, 2 IEEE 802.3), the source addresses of the frame, its domain,
sender, sequence number, the timestamp it carries in ns and the flag of a two-step sender. -/
structure PtpMessage where
  port : BitVec 2
  transport : Byte
  source : Addr
  domain : Byte
  sender : BitVec 64
  seq : BitVec 16
  stamp : BitVec 64
  twoStep : Bool
  deriving DecidableEq, Repr

/-- The data set that an Announce message carries (IEEE 1588-2019): the grandmaster's priority 1, clock class, accuracy, variance, priority 2 and
identity, and the steps removed. -/
structure PtpDataSet where
  priority1 : Byte
  clockClass : Byte
  accuracy : Byte
  variance : BitVec 16
  priority2 : Byte
  identity : BitVec 64
  steps : BitVec 16
  deriving DecidableEq, Repr

/-- A boot image copy as the verifier finds it (R438, R439): the header bytes 0 to 2,079, the two signatures (64 and 3,309 bytes), the
SHA-384 of the body, and whether the flash could be read. -/
structure ImageCopy where
  header : Bytes
  edSig : Bytes
  mldsaSig : Bytes
  bodyDigest : Bytes
  readable : Bool
  deriving DecidableEq, Repr

/-- A corrected event of the tick that R515 reports at its edge: `kind` 0 MEM_CORRECTED, 1 LINK_RETRY; the unit, and how many. -/
structure TickReport where
  kind : Bool
  unit : BitVec 16
  count : BitVec 32
  deriving DecidableEq, Repr

/-- The commands: the rows of the opcode table. -/
inductive Instr where
  -- Table 13-6
  | identify (r : Req)
  | inventory (r : Req) (first : BitVec 32)
  | mailboxRead (r : Req)
  | unknownOpcode (r : Req) (opcode : BitVec 16)
  -- Table 13-7
  | planLoad (r : Req) (image : BitVec 64) (length : BitVec 32) (stream : BitVec 16) (count : BitVec 64) (avoid : List (BitVec 16))
  | planUnload (r : Req) (slot : Byte)
  | planActivate (r : Req) (slot : Byte)
  | planRetire (r : Req) (slot : Byte)
  | rebind (r : Req) (slot : Byte) (flags : Byte) (moves : List RebindItem) (avoid : List (BitVec 16))
  | rebindCancel (r : Req) (slot : Byte)
  | fitReportRead (r : Req) (offset : BitVec 32)
  | planRead (r : Req) (slot : Byte)
  | bindingRead (r : Req) (slot : Byte) (kind : Byte) (first : BitVec 16)
  -- Table 13-8
  | memAlloc (r : Req) (bytes : BitVec 64) (mask : Byte) (state : Byte)
  | memFree (r : Req) (base : BitVec 64)
  | pageBringIn (r : Req) (page : BitVec 64) (source : BitVec 64) (state : Byte)
  | pageBringInComplete (page : BitVec 32)
  | pageSet (r : Req) (first : BitVec 64) (pages : BitVec 32) (action : Byte)
  | pageSetComplete (first : BitVec 32)
  | pageRead (r : Req) (first : BitVec 64) (n : BitVec 32)
  | streamStart (r : Req) (dva : BitVec 64) (count : BitVec 32)
  | streamRead (r : Req) (st : StreamRef)
  | streamRearm (r : Req) (st : StreamRef) (src : BitVec 64) (dst : BitVec 64)
  | streamFaultRead (r : Req) (st : StreamRef)
  | streamResume (r : Req) (st : StreamRef)
  | streamAbort (r : Req) (st : StreamRef)
  | streamCancel (r : Req) (st : StreamRef)
  | queueRead (r : Req) (queue : BitVec 16)
  | queueSet (r : Req) (queue : BitVec 16) (desc : BitVec 256)
  | queueOp (r : Req) (take : QueueTake) (op : Byte) (cells : Byte)
  | queueReset (r : Req) (queue : BitVec 16)
  | signalAlloc (r : Req) (n : BitVec 16) (die : Byte)
  | signalSet (r : Req) (cell : BitVec 16) (value min max : BitVec 32) (wdog : BitVec 32) (toHost : Byte)
  | signalAdd (r : Req) (cell : BitVec 16) (n : BitVec 32)
  | signalRead (r : Req) (cell : BitVec 16)
  | remoteDiscard (r : Req) (source : BitVec 16) (ext : Byte) (stream : BitVec 16) (pos : BitVec 64)
  -- Table 13-9
  | ownerMap (r : Req) (slot : Byte) (ref : BitVec 16) (first : BitVec 32) (words : List (BitVec 64))
  | ownerRead (r : Req) (slot : Byte) (ref : BitVec 16) (first : BitVec 32) (n : BitVec 16)
  | tableReplace (r : Req) (slot : Byte) (live standby : BitVec 16) (t : BitVec 64)
  | statsSet (r : Req) (slot : Byte) (ref : BitVec 16) (action : Byte) (first : BitVec 16) (columns : List Bytes)
  | statsRead (r : Req) (slot : Byte) (ref : BitVec 16) (copy : Byte) (first n : BitVec 16)
  | tableCounters (r : Req) (slot : Byte) (ref : BitVec 16)
  -- Table 13-10
  | rulingRead (r : Req)
  | rulingSet (r : Req) (cfg : BitVec 64)
  | rulingAck (r : Req) (value : BitVec 32)
  | taskSubmit (r : Req) (slot : Byte) (level : Byte) (ligs : List (BitVec 32))
  | taskCancel (r : Req) (task : BitVec 32)
  | traceSet (r : Req) (die cluster mode rearm : Byte) (bytes : BitVec 32)
  | traceRead (r : Req) (die cluster : Byte) (first : BitVec 32)
  -- Table 13-11
  | attest (r : Req) (nonce : Bytes)
  | measurementsRead (r : Req)
  | keyslotOpen (r : Req) (slot : BitVec 16) (kind : Byte) (peer : BitVec 16) (material : Bytes)
  | keyslotOpenTimeout (slot : BitVec 16)
  | keyslotClose (r : Req) (slot : BitVec 16)
  | sessionRekey (r : Req) (material : Bytes)
  | rekeyTimeout
  | sessionEnd (r : Req)
  | scrubComplete
  | debugUnlock (r : Req) (token : Bytes)
  -- Table 13-12
  | blotterSet (r : Req) (dva : BitVec 64) (bytes : BitVec 32) (cell : BitVec 16)
  | blotterRead (r : Req) (first : BitVec 32)
  | selftestRun (r : Req) (unit : BitVec 16)
  | unitExclude (r : Req) (units : List (BitVec 16))
  | unitInclude (r : Req) (units : List (BitVec 16))
  | waitResume (r : Req) (unit : BitVec 16) (object : Byte) (num : BitVec 16)
  | waitAbort (r : Req) (unit : BitVec 16) (object : Byte) (num : BitVec 16)
  -- Table 13-13
  | powerRead (r : Req)
  | powerCapSet (r : Req) (cap : BitVec 32)
  | powerStateSet (r : Req) (target : Byte) (mask : BitVec 64)
  | reset (r : Req) (kind : Byte) (target : BitVec 16)
  | warmReset
  | planResetCommit (slot : BitVec 6)
  -- Table 13-14
  | portSet (r : Req) (port : Byte) (cfg : BitVec 64) (ip : Bytes)
  | portRead (r : Req) (port : Byte)
  | deviceNumberSet (r : Req) (number : BitVec 16)
  | neighbourSet (r : Req) (first : BitVec 16) (entries : List NeighbourEntry)
  | txStreamSet (r : Req) (queue dest stream : BitVec 16) (port cls : Byte) (key : BitVec 16)
  | rxStreamSet (r : Req) (source : BitVec 16) (ext dest : Byte) (stream queue : BitVec 16) (dva bytes : BitVec 64)
  | rxStreamRead (r : Req) (source : BitVec 16) (ext : Byte) (stream : BitVec 16)
  | ptpSet (r : Req) (port transport domain : Byte) (asymmetry : BitVec 32)
  | ptpRead (r : Req)
  -- Table 13-15
  | matchWrite (r : Req) (slot : Byte) (region first : BitVec 16) (images : List (BitVec 320))
  | matchTags (r : Req) (slot : Byte) (region first : BitVec 16) (tags : List Byte)
  | matchRead (r : Req) (slot : Byte) (region first n : BitVec 16)
  -- the ruling
  | tickEdge (events : List TickReport)
  | guardBandOpen
  | tableSwap (slot : BitVec 6) (live : BitVec 16)
  | hotRowCutover (slot : BitVec 6) (ref : BitVec 16) (row : BitVec 64)
  | dipPlacementChange (slot : BitVec 6) (ref : BitVec 16) (row : BitVec 64)
  | rebindCommit (slot : BitVec 6)
  | planActivation (slot : BitVec 6)
  | planRetirement (slot : BitVec 6)
  | periodChange
  | rulTickStep
  | rulLockLocked
  | ptpHoldover
  | rulEdgeMiss (unit : BitVec 16)
  | ruledRelease (slot : BitVec 6) (cert : BitVec 16)
  | dispatch (cluster : BitVec 6) (core : BitVec 3)
  | heldEventOffered (cluster : BitVec 6)
  | ligatureComplete (task : BitVec 32)
  | rulOverrun (task : BitVec 32) (unit : BitVec 16)
  -- stages
  | feedRead (st : StageRef)
  | feedWrite (st : StageRef)
  | filter (st : StageRef)
  | filterCompact (st : StageRef)
  | hash (st : StageRef)
  | joinBuild (st : StageRef)
  | joinProbe (st : StageRef)
  | groupPartial (st : StageRef)
  | groupMerge (st : StageRef)
  | shape (st : StageRef)
  | stats (st : StageRef)
  | spectral (st : StageRef)
  | layers (st : StageRef)
  | topk (st : StageRef)
  | merge (st : StageRef)
  | argmax (st : StageRef)
  | match_ (st : StageRef) (parity : List ParityFail)
  | automaton (st : StageRef) (parity : List ParityFail)
  | lookup (st : StageRef)
  | pool (st : StageRef)
  | poolDirect (st : StageRef)
  | update (st : StageRef)
  -- embeddings
  | serveTask (slot : BitVec 6) (stream : BitVec 16)
  | combinerWindow (die : BitVec 2) (slot : BitVec 6)
  | combinerDrain (die : BitVec 2)
  | surveyInterval
  | migrationCopyComplete (slot : BitVec 6) (ref : BitVec 16) (row : BitVec 64)
  | rebindCopyComplete (slot : BitVec 6)
  | zeroingComplete
  | replicaCopyComplete (slot : BitVec 6) (ref : BitVec 16) (die : BitVec 2)
  | padCopyComplete (slot : BitVec 6) (ref : BitVec 16) (core : BitVec 9)
  | epochBoundary (slot : BitVec 6)
  | statsMerge (slot : BitVec 6) (ref : BitVec 16)
  | statsFlip (slot : BitVec 6) (ref : BitVec 16)
  -- streams
  | tileBegin (st : StreamRef)
  | transferIssue (st : StreamTake)
  | transferComplete (st : StreamRef) (tag : BitVec 11) (lost : Bool) (tagFail : Bool)
  | strTagLate (st : StreamRef) (tag : BitVec 11)
  | slotDrain (st : StreamRef)
  | batchClose (slot : BitVec 6) (layout : BitVec 8)
  | ingestUnitDecode (st : StreamRef)
  | frameDecode (st : StreamRef) (historyLost : Bool)
  | blockVerify (st : StreamRef) (block : Bytes) (historyLost : Bool)
  | rasterItem (slot : BitVec 6) (stream : BitVec 16)
  | pcmItem (slot : BitVec 6) (stream : BitVec 16)
  -- queues and signals
  | packetCommit (queue : BitVec 16) (unit : BitVec 16) (packet : Bytes)
  | takeWait (queue : BitVec 16) (unit : BitVec 16) (badWord : Option (BitVec 17)) (corrected : Byte)
  | takePoll (take : QueueTake)
  | mark (queue : BitVec 16)
  | rewind (queue : BitVec 16)
  | release (queue : BitVec 16)
  | addApplied (cell : BitVec 14) (n : BitVec 32) (unit : BitVec 16)
  | waitTimeout (queue : Bool) (num : BitVec 16) (unit : BitVec 16)
  | remoteSignalApplied (source : BitVec 10) (ext : Bool) (stream : BitVec 16) (pos : BitVec 48)
  | sigRemoteHeld (source : BitVec 10) (ext : Bool) (stream : BitVec 16) (pos : BitVec 48)
  -- received packets
  | data (p : KitPacket)
  | signal (p : KitPacket)
  | mbxReq (p : KitPacket)
  | exReq (p : KitPacket)
  | exUpd (p : KitPacket)
  | exRows (p : KitPacket)
  | exLate (p : KitPacket)
  | dipReq (p : KitPacket) (late : Bool)
  | idReq (p : KitPacket)
  | hello (p : KitPacket)
  | finish (p : KitPacket)
  | reply (p : KitPacket)
  | confirm (p : KitPacket)
  | abort (p : KitPacket)
  | handshakeFragmentTimeout (id : BitVec 64) (type : Byte)
  | handshakeTimeout (slot : BitVec 12)
  | helloRepeat (slot : BitVec 12)
  | notForPort (port : BitVec 2) (frame : Bytes)
  | pfcFrame (port : BitVec 2) (times : List (BitVec 3 × BitVec 16))
  | pauseFrame (port : BitVec 2)
  | sync (m : PtpMessage)
  | followUp (m : PtpMessage)
  | delayResp (m : PtpMessage)
  | announce (m : PtpMessage) (d : PtpDataSet)
  | frameBoundary (port : BitVec 2)
  | transmitStreamPacket (take : QueueTake)
  -- links, pins and module
  | portLinkDown (port : BitVec 2)
  | linkUp (port : BitVec 2)
  | uncorrectedCodeword (port : BitVec 2)
  | linkLaneDown (die peer : BitVec 2) (group : BitVec 4)
  | linkDown (die peer : BitVec 2)
  | ptpPpsIn (ago : BitVec 64) (width : BitVec 32)
  | ptpPpsOut
  | selftestSegment (unit : BitVec 16) (failing : BitVec 32)
  | selftestDeferred (unit : BitVec 16)
  | unitExcluded (unit : BitVec 16)
  | quillLockstep
  | secTrngHealth (ok : Bool)
  | powerOn (fresh : Bool)
  | pwrGood
  | loaderAccepted (primary alternate : ImageCopy)
  | goustReady (primary alternate : ImageCopy) (bringup : Bytes)
  | modResetN
  | modResetRelease
  | standby
  | supplyWarningBand (supply : BitVec 2) (mv : BitVec 32)
  | thermalWarn (sensor : Byte) (temp : BitVec 16)
  | protection (sensor : Byte) (reading : BitVec 32)
  | shutdown (sensor : Byte)
  | powerComparison (moduleMw hbmMw computeMw : BitVec 32)
  | capUnheld
  | telemetryWrite (address : Byte) (data : List Byte)
  | idcode
  | bypass (bit : Bool)
  | imageIncomplete
  | pauseTimeExpired (port : BitVec 2) (priority : BitVec 3)
  | readingReturnedToRange (sensor : Byte) (reading : BitVec 32)
  deriving DecidableEq, Repr

end Sys2Proof
end

