-- ==== Sys2Proof/Decode.lean ====
section
/-! DEFINITION. The commands that a word spells by the opcode table's bits: the table of this block gives no bits to any row. -/

namespace Sys2Proof

/-- The command that `nbits` bits of a word spell by the opcode table: no row of the table has bits, so none does. -/
def decodeTableWord (_nbits _w : Nat) : Option Instr := none

end Sys2Proof
end

