-- ==== Sys2Proof/Machine/Bits.lean ====
section
/-! DEFINITION. Bit fields, byte orders and byte-string helpers (R7 to R11). -/

namespace Sys2Proof.Machine

/-- Bits [hi:lo] of `v`, both ends included (R7). -/
def fld (hi lo v : Nat) : Nat := (v >>> lo) % 2 ^ (hi + 1 - lo)

/-- Bit `k` of `v`. -/
def bitAt (v k : Nat) : Bool := (v >>> k) % 2 == 1

/-- 1 for true, 0 for false. -/
def b2n (b : Bool) : Nat := if b then 1 else 0

/-- The quotient rounded up; 0 for a divisor of 0. -/
def ceilDiv (a b : Nat) : Nat := if b = 0 then 0 else (a + b - 1) / b

/-- The least multiple of `k` that is not below `n`. -/
def alignUp (n k : Nat) : Nat := ceilDiv n k * k

/-- The low `n` bytes of `v`, least significant first (R9). -/
def le : Nat → Nat → Bytes
  | 0, _ => []
  | n + 1, v => BitVec.ofNat 8 v :: le n (v / 256)

/-- The low `n` bytes of `v`, most significant first (R10). -/
def be (n v : Nat) : Bytes := (le n v).reverse

/-- The number a little-endian byte string spells. -/
def ofLe : Bytes → Nat
  | [] => 0
  | b :: bs => b.toNat + 256 * ofLe bs

/-- The number a big-endian byte string spells. -/
def ofBe (bs : Bytes) : Nat := ofLe bs.reverse

/-- `n` zero bytes. -/
def zeros (n : Nat) : Bytes := List.replicate n 0

/-- The `n` bytes at `off`, short where the string ends. -/
def slice (bs : Bytes) (off n : Nat) : Bytes := (bs.drop off).take n

/-- The little-endian number of `n` bytes at `off`. -/
def leAt (bs : Bytes) (off n : Nat) : Nat := ofLe (slice bs off n)

/-- The big-endian number of `n` bytes at `off`. -/
def beAt (bs : Bytes) (off n : Nat) : Nat := ofBe (slice bs off n)

/-- The byte at `off`, 0 past the end. -/
def byteAt (bs : Bytes) (off : Nat) : Nat := ((bs.drop off).headD 0).toNat

/-- `bs` cut or zero-filled to `n` bytes. -/
def fit (n : Nat) (bs : Bytes) : Bytes := bs.take n ++ zeros (n - bs.length)

/-- `bs` with zero bytes up to a multiple of `k`. -/
def padTo (k : Nat) (bs : Bytes) : Bytes := bs ++ zeros (alignUp bs.length k - bs.length)

/-- A record of fields (width, value), least significant first, as one number; each value is cut to its width. -/
def pack : List (Nat × Nat) → Nat
  | [] => 0
  | (w, v) :: r => v % 2 ^ w + 2 ^ w * pack r

/-- `bs` cut into pieces of `k` bytes, the last one short where the string ends; fuel bounds the pieces. -/
def piecesAux (k : Nat) : Nat → Bytes → List Bytes
  | 0, _ => []
  | _ + 1, [] => []
  | f + 1, bs => bs.take k :: piecesAux k f (bs.drop k)

/-- `bs` cut into pieces of `k` bytes. -/
def pieces (k : Nat) (bs : Bytes) : List Bytes := piecesAux k bs.length bs

/-- The two's complement value of the low `w` bits of `v`. -/
def toInt (w v : Nat) : Int :=
  let u := v % 2 ^ w
  if w ≠ 0 ∧ 2 ^ (w - 1) ≤ u then (u : Int) - (2 ^ w : Nat) else (u : Int)

/-- The low `w` bits of an integer in two's complement. -/
def ofInt (w : Nat) (i : Int) : Nat := (i % ((2 ^ w : Nat) : Int)).toNat

/-- The bytes of a little-endian string read as bits, bit 0 of byte 0 first. -/
def bitsOf (bs : Bytes) : List Bool :=
  bs.flatMap fun b => (List.range 8).map fun k => b.getLsbD k

/-- Bit `k` of a bitmap, bit 0 of byte 0 first. -/
def bitmapAt (bs : Bytes) (k : Nat) : Bool := bitAt (byteAt bs (k / 8)) (k % 8)

/-- Bits laid out as a bitmap, bit 0 of byte 0 first, the last byte filled with zeros. -/
def bitmap (l : List Bool) : Bytes :=
  le (ceilDiv l.length 8) (l.foldr (fun b a => b2n b + 2 * a) 0)

/-- The element at index `i` of a list, or `d` past its end. -/
def nth {α : Type} (l : List α) (i : Nat) (d : α) : α := l.getD i d

/-- `l` with element `i` replaced by `f` of it; unchanged where `i` is past the end. -/
def modifyAt {α : Type} (f : α → α) : Nat → List α → List α
  | _, [] => []
  | 0, x :: xs => f x :: xs
  | i + 1, x :: xs => x :: modifyAt f i xs

/-- A list with no repeats, the first occurrence kept. -/
def dedup {α : Type} [BEq α] (l : List α) : List α :=
  (l.foldl (fun a x => if a.contains x then a else x :: a) []).reverse

/-- Insertion into a list sorted by `lt`, after equal elements. -/
def insertBy {α : Type} (lt : α → α → Bool) (x : α) : List α → List α
  | [] => [x]
  | y :: ys => if lt x y then x :: y :: ys else y :: insertBy lt x ys

/-- Stable insertion sort by `lt`. -/
def sortBy {α : Type} (lt : α → α → Bool) (l : List α) : List α :=
  l.foldl (fun a x => insertBy lt x a) []

/-- The entry of a keyed list. -/
def look {κ α : Type} [BEq κ] (k : κ) (l : List (κ × α)) : Option α :=
  (l.find? fun e => e.1 == k).map (·.2)

/-- A keyed list with the entry of `k` replaced, or added at the end. -/
def put {κ α : Type} [BEq κ] (k : κ) (v : α) : List (κ × α) → List (κ × α)
  | [] => [(k, v)]
  | e :: r => if e.1 == k then (k, v) :: r else e :: put k v r

/-- A keyed list without the entry of `k`. -/
def del {κ α : Type} [BEq κ] (k : κ) (l : List (κ × α)) : List (κ × α) := l.filter fun e => !(e.1 == k)

/-- A number cut to `w` bits' largest value (a saturating counter). -/
def satTo (w n : Nat) : Nat := min n (2 ^ w - 1)

/-- 16-bit saturating or exact conversion of a number to a bit vector of `w` bits, saturating. -/
def satBv (w n : Nat) : BitVec w := BitVec.ofNat w (satTo w n)

end Sys2Proof.Machine
end

