-- ==== Sys2Proof/Machine/Crypto.lean ====
section
/-! DEFINITION. The standard functions the Seal and the ports use: SHA-384, HMAC, HKDF, AES-256-GCM and the CRCs. -/

namespace Sys2Proof.Machine

/-- `x` cut to `w` bits and rotated left by `r`. -/
def rotl (w x r : Nat) : Nat :=
  let x := x % 2 ^ w
  ((x <<< (r % w)) % 2 ^ w) ||| (x >>> (w - r % w))

/-- `x` cut to 64 bits and rotated right by `r`. -/
def rotr64 (x r : Nat) : Nat := rotl 64 x (64 - r)

/-- The eight initial words of SHA-384. -/
def sha384Init : List Nat :=
  [0xcbbb9d5dc1059ed8, 0x629a292a367cd507, 0x9159015a3070dd17, 0x152fecd8f70e5939, 0x67332667ffc00b31, 0x8eb44a8768581511, 0xdb0c2e0d64f98fa7, 0x47b5481dbefa4fa4]

/-- The eighty round constants of SHA-384. -/
def sha384K : List Nat :=
  [0x428a2f98d728ae22, 0x7137449123ef65cd, 0xb5c0fbcfec4d3b2f, 0xe9b5dba58189dbbc, 0x3956c25bf348b538, 0x59f111f1b605d019, 0x923f82a4af194f9b, 0xab1c5ed5da6d8118, 0xd807aa98a3030242, 0x12835b0145706fbe] ++
  [0x243185be4ee4b28c, 0x550c7dc3d5ffb4e2, 0x72be5d74f27b896f, 0x80deb1fe3b1696b1, 0x9bdc06a725c71235, 0xc19bf174cf692694, 0xe49b69c19ef14ad2, 0xefbe4786384f25e3, 0xfc19dc68b8cd5b5, 0x240ca1cc77ac9c65] ++
  [0x2de92c6f592b0275, 0x4a7484aa6ea6e483, 0x5cb0a9dcbd41fbd4, 0x76f988da831153b5, 0x983e5152ee66dfab, 0xa831c66d2db43210, 0xb00327c898fb213f, 0xbf597fc7beef0ee4, 0xc6e00bf33da88fc2, 0xd5a79147930aa725] ++
  [0x6ca6351e003826f, 0x142929670a0e6e70, 0x27b70a8546d22ffc, 0x2e1b21385c26c926, 0x4d2c6dfc5ac42aed, 0x53380d139d95b3df, 0x650a73548baf63de, 0x766a0abb3c77b2a8, 0x81c2c92e47edaee6, 0x92722c851482353b] ++
  [0xa2bfe8a14cf10364, 0xa81a664bbc423001, 0xc24b8b70d0f89791, 0xc76c51a30654be30, 0xd192e819d6ef5218, 0xd69906245565a910, 0xf40e35855771202a, 0x106aa07032bbd1b8, 0x19a4c116b8d2d0c8, 0x1e376c085141ab53] ++
  [0x2748774cdf8eeb99, 0x34b0bcb5e19b48a8, 0x391c0cb3c5c95a63, 0x4ed8aa4ae3418acb, 0x5b9cca4f7763e373, 0x682e6ff3d6b2b8a3, 0x748f82ee5defb2fc, 0x78a5636f43172f60, 0x84c87814a1f0ab72, 0x8cc702081a6439ec] ++
  [0x90befffa23631e28, 0xa4506cebde82bde9, 0xbef9a3f7b2c67915, 0xc67178f2e372532b, 0xca273eceea26619c, 0xd186b8c721c0c207, 0xeada7dd6cde0eb1e, 0xf57d4f7fee6ed178, 0x6f067aa72176fba, 0xa637dc5a2c898a6] ++
  [0x113f9804bef90dae, 0x1b710b35131c471b, 0x28db77f523047d84, 0x32caab7b40c72493, 0x3c9ebe0a15c9bebc, 0x431d67c49c100d4c, 0x4cc5d4becb3e42b6, 0x597f299cfc657e2a, 0x5fcb6fab3ad6faec, 0x6c44198c4a475817]

/-- The message schedule, newest word first, extended by `n` words. -/
def sha384Extend : Nat → List Nat → List Nat
  | 0, ws => ws
  | n + 1, ws =>
    let w2 := nth ws 1 0
    let w7 := nth ws 6 0
    let w15 := nth ws 14 0
    let w16 := nth ws 15 0
    let s0 := rotr64 w15 1 ^^^ rotr64 w15 8 ^^^ (w15 >>> 7)
    let s1 := rotr64 w2 19 ^^^ rotr64 w2 61 ^^^ (w2 >>> 6)
    sha384Extend n (((w16 + s0 + w7 + s1) % 2 ^ 64) :: ws)

/-- The eight working words of SHA-384. -/
structure ShaRegs where
  (a b c d e f g h : Nat)
  deriving DecidableEq, Repr

/-- One round over the working words with the sum of its constant and schedule word. -/
def sha384Round (r : ShaRegs) (kw : Nat) : ShaRegs :=
  let s1 := rotr64 r.e 14 ^^^ rotr64 r.e 18 ^^^ rotr64 r.e 41
  let ch := (r.e &&& r.f) ^^^ ((2 ^ 64 - 1 - r.e) &&& r.g)
  let t1 := (r.h + s1 + ch + kw) % 2 ^ 64
  let s0 := rotr64 r.a 28 ^^^ rotr64 r.a 34 ^^^ rotr64 r.a 39
  let mj := (r.a &&& r.b) ^^^ (r.a &&& r.c) ^^^ (r.b &&& r.c)
  ⟨(t1 + s0 + mj) % 2 ^ 64, r.a, r.b, r.c, (r.d + t1) % 2 ^ 64, r.e, r.f, r.g⟩

/-- One 128-byte block folded into the eight chaining words. -/
def sha384Block (h : List Nat) (blk : Bytes) : List Nat :=
  let w0 := ((pieces 8 blk).map ofBe).reverse
  let ws := (sha384Extend 64 w0).reverse
  let r0 : ShaRegs := ⟨nth h 0 0, nth h 1 0, nth h 2 0, nth h 3 0, nth h 4 0, nth h 5 0, nth h 6 0, nth h 7 0⟩
  let r := (sha384K.zip ws).foldl (fun r kw => sha384Round r (kw.1 + kw.2)) r0
  (h.zip [r.a, r.b, r.c, r.d, r.e, r.f, r.g, r.h]).map fun p => (p.1 + p.2) % 2 ^ 64

/-- SHA-384 (FIPS 180-4), 48 bytes. -/
def sha384 (m : Bytes) : Bytes :=
  let z := (239 - m.length % 128) % 128
  let p := m ++ [0x80] ++ zeros z ++ be 16 (8 * m.length)
  (((pieces 128 p).foldl sha384Block sha384Init).flatMap (be 8)).take 48

/-- HMAC with SHA-384. -/
def hmac384 (key m : Bytes) : Bytes :=
  let k := fit 128 (if key.length > 128 then sha384 key else key)
  sha384 (k.map (· ^^^ 0x5c) ++ sha384 (k.map (· ^^^ 0x36) ++ m))

/-- HKDF-Extract. -/
def hkdfExtract (salt ikm : Bytes) : Bytes := hmac384 salt ikm

/-- The blocks of HKDF-Expand from counter `i`. -/
def hkdfBlocks (prk info : Bytes) : Nat → Nat → Bytes → Bytes
  | 0, _, _ => []
  | n + 1, i, t =>
    let t' := hmac384 prk (t ++ info ++ [BitVec.ofNat 8 i])
    t' ++ hkdfBlocks prk info n (i + 1) t'

/-- HKDF-Expand to `n` bytes. -/
def hkdfExpand (prk info : Bytes) (n : Nat) : Bytes := (hkdfBlocks prk info (ceilDiv n 48) 1 []).take n

/-- The AES S-box, entry 0 in the least significant byte. -/
def aesSboxTable : Nat :=
  0x16bb54b00f2d99416842e6bf0d89a18cdf2855cee9871e9b948ed9691198f8e19e1dc186b95735610ef6034866b53e708a8bbd4b1f74dde8c6b4a61c2e2578ba08ae7a65eaf4566ca94ed58d6d37c8e779e4959162acd3c25c2406490a3a32e0db0b5ede14b8ee4688902a22dc4f816073195d643d7ea7c41744975fec130ccdd2f3ff1021dab6bcf5389d928f40a351a89f3c507f02f94585334d43fbaaefd0cf584c4a39becb6a5bb1fc20ed00d153842fe329b3d63b52a05a6e1b1a2c830975b227ebe28012079a059618c323c7041531d871f1e5a534ccf73f362693fdb7c072a49cafa2d4adf04759fa7dc982ca76abd7fe2b670130c56f6bf27b777c63

/-- The AES S-box. -/
def aesSbox (b : Nat) : Nat := (aesSboxTable >>> (8 * b)) % 256

/-- Multiplication by x in the AES field. -/
def aesXtime (b : Nat) : Nat := if b < 128 then 2 * b else (2 * b) % 256 ^^^ 0x1b

/-- The AES-256 key words, newest first, extended by `n` words; the list holds `i` words. -/
def aesExpand : Nat → Nat → Nat → List (List Nat) → List (List Nat)
  | 0, _, _, ws => ws
  | n + 1, i, rcon, ws =>
    let prev := nth ws 0 []
    let w8 := nth ws 7 []
    let t := if i % 8 = 0 then
        match prev.map aesSbox with
        | [a, b, c, d] => [b ^^^ rcon, c, d, a]
        | l => l
      else if i % 8 = 4 then prev.map aesSbox else prev
    aesExpand n (i + 1) (if i % 8 = 0 then aesXtime rcon else rcon) (((w8.zip t).map fun p => p.1 ^^^ p.2) :: ws)

/-- The fifteen round keys of AES-256, 16 bytes each. -/
def aesRoundKeys (key : Bytes) : List (List Nat) :=
  let w0 := ((pieces 4 (fit 32 key)).map fun p => p.map BitVec.toNat).reverse
  let ws := ((aesExpand 52 8 1 w0).reverse).flatMap id
  (List.range 15).map fun r => (ws.drop (16 * r)).take 16

/-- Two byte lists added. -/
def xorN (a b : List Nat) : List Nat := (a.zip b).map fun p => p.1 ^^^ p.2

/-- SubBytes then ShiftRows. -/
def aesSubShift (s : List Nat) : List Nat :=
  let t := s.map aesSbox
  (List.range 16).map fun i => nth t ((i + 4 * (i % 4)) % 16) 0

/-- MixColumns on one column. -/
def aesMixColumn (a b c d : Nat) : List Nat :=
  let m (x y z w : Nat) := aesXtime x ^^^ (aesXtime y ^^^ y) ^^^ z ^^^ w
  [m a b c d, m b c d a, m c d a b, m d a b c]

/-- MixColumns. -/
def aesMix : List Nat → List Nat
  | a :: b :: c :: d :: r => aesMixColumn a b c d ++ aesMix r
  | _ => []

/-- The AES-256 encryption of one 16-byte block under expanded keys. -/
def aesBlock (rks : List (List Nat)) (blk : List Nat) : List Nat :=
  let s0 := xorN blk (nth rks 0 [])
  let s := ((rks.drop 1).take 13).foldl (fun s k => xorN (aesMix (aesSubShift s)) k) s0
  xorN (aesSubShift s) (nth rks 14 [])

/-- One step of the GHASH product: the accumulator, the shifted operand and the bit position. -/
def ghashStep (x : Nat) (zv : Nat × Nat) (i : Nat) : Nat × Nat :=
  (if bitAt x (127 - i) then zv.1 ^^^ zv.2 else zv.1,
   if zv.2 % 2 = 1 then (zv.2 >>> 1) ^^^ (0xe1 <<< 120) else zv.2 >>> 1)

/-- The GHASH product of two 128-bit values. -/
def ghashMul (x y : Nat) : Nat := ((List.range 128).foldl (ghashStep x) (0, y)).1

/-- GHASH of a byte string of whole blocks. -/
def ghash (h : Nat) (bs : Bytes) : Nat := (pieces 16 bs).foldl (fun a b => ghashMul (a ^^^ ofBe b) h) 0

/-- The AES-GCM key stream from counter block `ctr` (a 128-bit number), `n` blocks. -/
def gcmStream (rks : List (List Nat)) : Nat → Nat → Bytes
  | 0, _ => []
  | n + 1, ctr =>
    (aesBlock rks ((be 16 ctr).map BitVec.toNat)).map (BitVec.ofNat 8) ++
      gcmStream rks n (ctr / 2 ^ 32 * 2 ^ 32 + (ctr + 1) % 2 ^ 32)

/-- The byte-by-byte sum of two strings. -/
def xorB (a b : Bytes) : Bytes := (a.zip b).map fun p => p.1 ^^^ p.2

/-- The 16-byte GCM tag of a ciphertext. -/
def gcmTag (rks : List (List Nat)) (iv aad ct : Bytes) : Bytes :=
  let h := ofBe ((aesBlock rks (List.replicate 16 0)).map (BitVec.ofNat 8))
  let s := ghash h (padTo 16 aad ++ padTo 16 ct ++ be 8 (8 * aad.length) ++ be 8 (8 * ct.length))
  xorB (be 16 s) (gcmStream rks 1 (ofBe (fit 12 iv) * 2 ^ 32 + 1))

/-- AES-256-GCM encryption with a 96-bit nonce: the ciphertext and the 16-byte tag. -/
def gcmSeal (key iv aad pt : Bytes) : Bytes × Bytes :=
  let rks := aesRoundKeys key
  let ct := xorB pt (gcmStream rks (ceilDiv pt.length 16) (ofBe (fit 12 iv) * 2 ^ 32 + 2))
  (ct, gcmTag rks iv aad ct)

/-- AES-256-GCM decryption: the plaintext where the tag holds. -/
def gcmOpen (key iv aad ct tag : Bytes) : Option Bytes :=
  let rks := aesRoundKeys key
  if gcmTag rks iv aad ct = tag then
    some (xorB ct (gcmStream rks (ceilDiv ct.length 16) (ofBe (fit 12 iv) * 2 ^ 32 + 2)))
  else none

/-- One bit of a reflected CRC. -/
def crcBit (poly c : Nat) : Nat := if c % 2 = 1 then (c >>> 1) ^^^ poly else c >>> 1

/-- One byte of a reflected CRC. -/
def crcByte (poly c : Nat) (b : Byte) : Nat :=
  let c := c ^^^ b.toNat
  crcBit poly (crcBit poly (crcBit poly (crcBit poly (crcBit poly (crcBit poly (crcBit poly (crcBit poly c)))))))

/-- CRC-32C (Castagnoli), as Folio, the hashes and the mailboxes use it. -/
def crc32c (bs : Bytes) : Nat := bs.foldl (crcByte 0x82f63b78) 0xffffffff ^^^ 0xffffffff

/-- CRC-32 of ISO 3309, as gzip and Parquet pages use it. -/
def crc32 (bs : Bytes) : Nat := bs.foldl (crcByte 0xedb88320) 0xffffffff ^^^ 0xffffffff

end Sys2Proof.Machine
end

