-- ==== Sys2Proof/Config.lean ====
section
/-! DEFINITION. What the spec leaves open: free values with no body, and the functions of the Seal whose arithmetic the spec takes
from other standards. Nothing in Lean can evaluate them or prove a value of them (assumption log 3 and 4). -/

namespace Sys2Proof

namespace Config

/-- The first page number the firmware chooses for a range (R292 says it is not specified). -/
opaque pageRun : Nat → Nat
/-- A choice among the free 2 MiB frames of a die. -/
opaque frame : Nat → Nat
/-- A choice among the free cells of an Inkwell pool, and the pointer fields of a queue descriptor that point at no cell. -/
opaque cell : Nat → Nat
/-- A value the Seal's random number generator draws. -/
opaque random : (bytes : Nat) → (n : Nat) → Bytes
/-- The low 24 bits of the task id of a SHARED_TASK, by plan slot and certificate entry: the spec gives it none. -/
opaque sharedTask : (slot entry : Nat) → Nat
/-- A number the spec states no value for. -/
opaque value : (width : Nat) → (n : Nat) → Nat
/-- The X25519 public value of a private one (RFC 7748). -/
opaque x25519Public : (priv : Bytes) → Bytes
/-- The X25519 shared secret (RFC 7748). -/
opaque x25519 : (priv pub : Bytes) → Bytes
/-- The input check of FIPS 203 on an ML-KEM-768 encapsulation key. -/
opaque mlkemCheck : (ek : Bytes) → Bool
/-- The ML-KEM-768 ciphertext of an encapsulation with given randomness. -/
opaque mlkemCipher : (ek rnd : Bytes) → Bytes
/-- The ML-KEM-768 shared secret of an encapsulation with given randomness. -/
opaque mlkemSecret : (ek rnd : Bytes) → Bytes
/-- The ML-KEM-768 encapsulation key of a seed. -/
opaque mlkemPublic : (seed : Bytes) → Bytes
/-- ML-KEM-768 decapsulation under the key of a seed. -/
opaque mlkemDecap : (seed ct : Bytes) → Bytes
/-- The Ed25519 public key of a secret key (RFC 8032). -/
opaque ed25519Public : (sk : Bytes) → Bytes
/-- The Ed25519 signature of a message (RFC 8032). -/
opaque ed25519Sign : (sk msg : Bytes) → Bytes
/-- Ed25519 verification (RFC 8032). -/
opaque ed25519Verify : (pk msg sig : Bytes) → Bool
/-- The ML-DSA-65 public key of a seed (FIPS 204). -/
opaque mldsaPublic : (seed : Bytes) → Bytes
/-- An ML-DSA-65 signature under a context string (FIPS 204). -/
opaque mldsaSign : (seed context msg : Bytes) → (n : Nat) → Bytes
/-- ML-DSA-65 verification under a context string (FIPS 204). -/
opaque mldsaVerify : (pk context msg sig : Bytes) → Bool
/-- Whether device public keys are well formed (R454). -/
opaque keysWellFormed : (ed mldsa : Bytes) → Bool
/-- The vendor's endorsement of the identity keys (R444), the Ed25519 and the ML-DSA-65 signature, and the key index. -/
opaque endorsement : Bytes × Bytes × BitVec 8
/-- The debug key pairs carried in the signed body of the booted main image (R462): Ed25519 and ML-DSA-65 public keys. -/
opaque debugKeys : (index : Nat) → Bytes × Bytes
/-- A candidate for a function whose result the spec only bounds: a number of 1/2⁶⁴ parts of the bound, by function and operand. -/
opaque nudge : (function operand : Nat) → Int

end Config

end Sys2Proof
end

