-- ==== Sys2Proof/Machine/Float.lean ====
section
/-! DEFINITION. Number formats, rounding, conversions and floating-point arithmetic (R184 to R189), and the functions the spec bounds. -/

namespace Sys2Proof.Machine

/-! ### Formats (Table 6-1, Table 4-5) -/

/-- A binary floating-point format: exponent bits, fraction bits, bias, and whether it is E4M3, which has no infinity. -/
structure Fmt where
  (eb fb bias : Nat)
  (e4m3 : Bool)
  deriving DecidableEq, Repr

/-- The floating-point format of a value type of Table 4-5. -/
def fmtOf (code : Nat) : Option Fmt :=
  match code with
  | 9 => some ⟨5, 10, 15, false⟩
  | 0xa => some ⟨8, 7, 127, false⟩
  | 0xb => some ⟨8, 23, 127, false⟩
  | 0xc => some ⟨4, 3, 7, true⟩
  | 0xd => some ⟨5, 2, 15, false⟩
  | _ => none

/-- FP32. -/
def fp32 : Fmt := ⟨8, 23, 127, false⟩
/-- FP64, in which statistics are gathered (R197). -/
def fp64 : Fmt := ⟨11, 52, 1023, false⟩

/-- The bytes of a value type of Table 4-5. -/
def typeBytes (code : Nat) : Nat :=
  match code with
  | 1 => 1 | 2 => 2 | 3 => 4 | 4 => 8 | 5 => 1 | 6 => 2 | 7 => 4 | 8 => 8 | 9 => 2 | 0xa => 2 | 0xb => 4 | 0xc => 1 | 0xd => 1
  | 0xe => 16 | _ => 0

/-- A signed integer type. -/
def isSignedType (code : Nat) : Bool := decide (1 ≤ code) && decide (code ≤ 4)
/-- An integer type. -/
def isIntType (code : Nat) : Bool := decide (1 ≤ code) && decide (code ≤ 8)
/-- A floating-point type. -/
def isFloatType (code : Nat) : Bool := decide (9 ≤ code) && decide (code ≤ 13)

/-- The bits of the exponent field all ones. -/
def Fmt.top (f : Fmt) : Nat := 2 ^ f.eb - 1
/-- The sign bit as a number. -/
def Fmt.signBit (f : Fmt) : Nat := 2 ^ (f.eb + f.fb)
/-- The largest finite magnitude. -/
def Fmt.maxMag (f : Fmt) : Nat := if f.e4m3 then f.top * 2 ^ f.fb + 6 else f.top * 2 ^ f.fb - 1
/-- The canonical quiet NaN (Table 6-1). -/
def Fmt.qnan (f : Fmt) : Nat := if f.e4m3 then 0x7f else f.top * 2 ^ f.fb + 2 ^ (f.fb - 1)
/-- The magnitude of an infinity. -/
def Fmt.infMag (f : Fmt) : Nat := f.top * 2 ^ f.fb

/-- An exact value: a NaN, an infinity, or ± m × 2^e. -/
inductive FV where
  | nan
  | inf (neg : Bool)
  | fin (neg : Bool) (m : Nat) (e : Int)
  deriving DecidableEq, Repr

/-- The sign bit of an encoding. -/
def Fmt.neg (f : Fmt) (x : Nat) : Bool := bitAt x (f.eb + f.fb)

/-- An encoding is a NaN. -/
def Fmt.isNan (f : Fmt) (x : Nat) : Bool :=
  let mag := x % f.signBit
  if f.e4m3 then mag == 0x7f else decide (f.infMag < mag)

/-- An encoding is an infinity. -/
def Fmt.isInf (f : Fmt) (x : Nat) : Bool := !f.e4m3 && x % f.signBit == f.infMag

/-- An encoding is ±0. -/
def Fmt.isZero (f : Fmt) (x : Nat) : Bool := x % f.signBit == 0

/-- The value of an encoding (R184). -/
def Fmt.dec (f : Fmt) (x : Nat) : FV :=
  let mag := x % f.signBit
  let e := mag / 2 ^ f.fb
  let fr := mag % 2 ^ f.fb
  if f.isNan x then .nan
  else if f.isInf x then .inf (f.neg x)
  else if e = 0 then .fin (f.neg x) fr (1 - (f.bias : Int) - f.fb)
  else .fin (f.neg x) (2 ^ f.fb + fr) ((e : Int) - f.bias - f.fb)

/-- A magnitude with its sign. -/
def Fmt.signed (f : Fmt) (neg : Bool) (mag : Nat) : Nat := if neg then f.signBit + mag else mag

/-! ### Rounding (R187) -/

/-- The result is b and not a, for a remainder `rem` of `2^s` above an `a` whose last bit is `odd` (Table 6-2). -/
def takeB (mode draw rem s : Nat) (odd : Bool) : Bool :=
  if rem = 0 then false
  else match mode with
  | 0 => decide (2 * rem > 2 ^ s) || (2 * rem == 2 ^ s && odd)
  | 2 => decide (draw < rem * 65536 / 2 ^ s)
  | _ => false

/-- m × 2^e rounded to an integer. -/
def roundInt (mode draw m : Nat) (e : Int) : Nat :=
  if 0 ≤ e then m * 2 ^ e.toNat
  else
    let s := (-e).toNat
    let a := m / 2 ^ s
    if takeB mode draw (m % 2 ^ s) s (a % 2 == 1) then a + 1 else a

/-- The magnitude of m × 2^e on the format's grid without an upper limit to the exponent. -/
def Fmt.grid (f : Fmt) (mode draw m : Nat) (e : Int) : Nat :=
  if m = 0 then 0
  else
    let emin : Int := 1 - (f.bias : Int)
    let q := max ((Nat.log2 m : Int) + e) emin - f.fb
    roundInt mode draw m (e - q) + ((q - (emin - f.fb)).toNat) * 2 ^ f.fb

/-- An overflow (Table 6-3). -/
def Fmt.overflow (f : Fmt) (sat neg : Bool) : Nat :=
  if sat then f.signed neg f.maxMag else if f.e4m3 then f.qnan else f.signed neg f.infMag

/-- An exact value narrowed to a format (R187, Table 6-3); truncation never overflows from a finite value (assumption log 60). -/
def Fmt.enc (f : Fmt) (mode : Nat) (sat : Bool) (draw : Nat) : FV → Nat
  | .nan => f.qnan
  | .inf neg => f.overflow sat neg
  | .fin neg m e =>
    let g := f.grid mode draw m e
    if f.maxMag < g then f.overflow (sat || mode == 1) neg else f.signed neg g

/-- Rounding to nearest even in an arithmetic step; an infinity stays one. -/
def Fmt.rne (f : Fmt) (v : FV) : Nat :=
  match v with
  | .inf neg => f.signed neg f.infMag
  | v => f.enc 0 false 0 v

/-! ### Exact arithmetic -/

/-- The negation. -/
def FV.negate : FV → FV
  | .nan => .nan
  | .inf n => .inf (!n)
  | .fin n m e => .fin (!n) m e

/-- The value with a given sign of an integer mantissa. -/
def FV.ofInt (i : Int) (e : Int) (zeroNeg : Bool) : FV :=
  if i = 0 then .fin zeroNeg 0 0 else .fin (decide (i < 0)) i.natAbs e

/-- A mantissa with its sign, scaled to a smaller exponent. -/
def scaled (neg : Bool) (m : Nat) (e dest : Int) : Int :=
  let v : Int := (m * 2 ^ (e - dest).toNat : Nat)
  if neg then -v else v

/-- The exact sum; a sum that cancels is +0 (round to nearest). -/
def FV.add : FV → FV → FV
  | .nan, _ => .nan
  | _, .nan => .nan
  | .inf a, .inf b => if a == b then .inf a else .nan
  | .inf a, _ => .inf a
  | _, .inf b => .inf b
  | .fin na ma ea, .fin nb mb eb =>
    let e := min ea eb
    FV.ofInt (scaled na ma ea e + scaled nb mb eb e) e (na && nb && ma == 0 && mb == 0)

/-- The exact product. -/
def FV.mul : FV → FV → FV
  | .nan, _ => .nan
  | _, .nan => .nan
  | .inf a, .inf b => .inf (a != b)
  | .inf a, .fin n m _ => if m = 0 then .nan else .inf (a != n)
  | .fin n m _, .inf a => if m = 0 then .nan else .inf (a != n)
  | .fin na ma ea, .fin nb mb eb => .fin (na != nb) (ma * mb) (ea + eb)

/-- The quotient to more bits than any format holds, its last bit set where it is inexact. -/
def FV.div : FV → FV → FV
  | .nan, _ => .nan
  | _, .nan => .nan
  | .inf _, .inf _ => .nan
  | .inf a, .fin n _ _ => .inf (a != n)
  | .fin n _ _, .inf a => .fin (n != a) 0 0
  | .fin na ma ea, .fin nb mb eb =>
    if mb = 0 then (if ma = 0 then .nan else .inf (na != nb))
    else
      let k := 80 + Nat.log2 mb
      let q := ma * 2 ^ k / mb
      .fin (na != nb) (2 * q + (if ma * 2 ^ k % mb = 0 then 0 else 1)) (ea - eb - k - 1)

/-- The integer square root, by bits from 2^(n−1) down. -/
def isqrtAux (v : Nat) : Nat → Nat → Nat
  | 0, r => r
  | n + 1, r => let t := r + 2 ^ n; isqrtAux v n (if t * t ≤ v then t else r)

/-- The integer square root. -/
def isqrt (v : Nat) : Nat := isqrtAux v (Nat.log2 v / 2 + 1) 0

/-- The square root to more bits than any format holds, its last bit set where it is inexact. -/
def FV.sqrt : FV → FV
  | .nan => .nan
  | .inf neg => if neg then .nan else .inf false
  | .fin neg m e =>
    if m = 0 then .fin neg 0 0
    else if neg then .nan
    else
      let e2 := e - 160 - (e % 2)
      let v := m * 2 ^ (e - e2).toNat
      let r := isqrt v
      .fin false (2 * r + (if r * r = v then 0 else 1)) (e2 / 2 - 1)

/-- One operation of a format, rounded to nearest even. -/
def Fmt.add (f : Fmt) (a b : Nat) : Nat := f.rne ((f.dec a).add (f.dec b))
/-- Subtraction. -/
def Fmt.sub (f : Fmt) (a b : Nat) : Nat := f.rne ((f.dec a).add (f.dec b).negate)
/-- Multiplication. -/
def Fmt.mul (f : Fmt) (a b : Nat) : Nat := f.rne ((f.dec a).mul (f.dec b))
/-- Division. -/
def Fmt.div (f : Fmt) (a b : Nat) : Nat := f.rne ((f.dec a).div (f.dec b))
/-- a × b + c with one rounding. -/
def Fmt.fma (f : Fmt) (a b c : Nat) : Nat := f.rne (((f.dec a).mul (f.dec b)).add (f.dec c))
/-- The square root, correctly rounded. -/
def Fmt.sqrt (f : Fmt) (a : Nat) : Nat := f.rne (f.dec a).sqrt
/-- The negation. -/
def Fmt.negate (f : Fmt) (a : Nat) : Nat := if f.isNan a then f.qnan else if f.neg a then a - f.signBit else a + f.signBit

/-- The order of two finite or infinite values: a < b; false with a NaN. -/
def FV.lt : FV → FV → Bool
  | .nan, _ => false
  | _, .nan => false
  | .inf a, .inf b => a && !b
  | .inf a, .fin _ _ _ => a
  | .fin _ _ _, .inf b => !b
  | .fin na ma ea, .fin nb mb eb =>
    let e := min ea eb
    decide (scaled na ma ea e < scaled nb mb eb e)

/-- Values that compare equal; −0 equals +0, and a NaN equals nothing. -/
def FV.eq : FV → FV → Bool
  | .nan, _ => false
  | _, .nan => false
  | .inf a, .inf b => a == b
  | .inf _, .fin _ _ _ => false
  | .fin _ _ _, .inf _ => false
  | .fin na ma ea, .fin nb mb eb =>
    let e := min ea eb
    scaled na ma ea e == scaled nb mb eb e

/-! ### Conversions (R189) -/

/-- A converted value with its counts of saturations and of NaNs turned into integer 0 (R194). -/
structure Conv where
  (bits sats nans : Nat)
  deriving DecidableEq, Repr

/-- The range of an integer type. -/
def intRange (code : Nat) : Int × Int :=
  let w := 8 * typeBytes code
  if isSignedType code then (-((2 ^ (w - 1) : Nat) : Int), ((2 ^ (w - 1) : Nat) : Int) - 1) else (0, ((2 ^ w : Nat) : Int) - 1)

/-- An integer saturated to a type. -/
def satInt (code : Nat) (i : Int) : Conv :=
  let r := intRange code
  let w := 8 * typeBytes code
  if i < r.1 then ⟨ofInt w r.1, 1, 0⟩ else if r.2 < i then ⟨ofInt w r.2, 1, 0⟩ else ⟨ofInt w i, 0, 0⟩

/-- The integer an encoding of an integer type stands for. -/
def intOf (code bits : Nat) : Int :=
  let w := 8 * typeBytes code
  if isSignedType code then toInt w bits else ((bits % 2 ^ w : Nat) : Int)

/-- The exact value of a number of any type. -/
def valueOf (code bits : Nat) : FV :=
  match fmtOf code with
  | some f => f.dec bits
  | none => FV.ofInt (intOf code bits) 0 false

/-- An infinity converted to a floating-point format: ±∞, or for E4M3 the largest finite value or the NaN (Table 6-3). -/
def convertFloat (f : Fmt) (mode : Nat) (sat : Bool) (draw : Nat) (v : FV) : Nat :=
  match v with
  | .inf neg => if f.e4m3 then f.overflow sat neg else f.signed neg f.infMag
  | v => f.enc mode sat draw v

/-- A number converted from one type to another (Table 6-3); BYTES16 only to itself, another pairing having no stated result (R185, assumption
log 171). -/
def convert (src dst mode : Nat) (sat : Bool) (draw bits : Nat) : Conv :=
  if src = 0xe || dst = 0xe then ⟨if src = dst then bits else Config.value (8 * typeBytes dst) bits % 2 ^ (8 * typeBytes dst), 0, 0⟩
  else match fmtOf dst with
  | some f => ⟨convertFloat f mode sat draw (valueOf src bits), 0, 0⟩
  | none =>
    if isIntType dst then
      match fmtOf src with
      | some f =>
        match f.dec bits with
        | .nan => ⟨0, 0, 1⟩
        | .inf neg => satInt dst (if neg then (intRange dst).1 - 1 else (intRange dst).2 + 1)
        | .fin neg m e =>
          let n : Int := roundInt mode draw m e
          satInt dst (if neg then -n else n)
      | none =>
        let i := intOf src bits
        if sat && decide (typeBytes dst ≤ typeBytes src) then satInt dst i else ⟨ofInt (8 * typeBytes dst) i, 0, 0⟩
    else ⟨bits, 0, 0⟩

/-- A number converted to FP32 by RNE without saturation (R193). -/
def toFp32 (src bits : Nat) : Nat := (convert src 0xb 0 false 0 bits).bits

/-- An FP32 number as FP64, exactly. -/
def fp32to64 (x : Nat) : Nat := fp64.rne (fp32.dec x)
/-- An FP64 number as FP32, by RNE. -/
def fp64to32 (x : Nat) : Nat := fp32.rne (fp64.dec x)

/-! ### Fixed-point functions, 320 bits after the point -/

/-- One. -/
def fxOne : Int := ((2 ^ 320 : Nat) : Int)
/-- The product. -/
def fxMul (a b : Int) : Int := a * b / fxOne
/-- The quotient. -/
def fxDiv (a b : Int) : Int := if b = 0 then 0 else a * fxOne / b

/-- Sum of z^(2k+1) × s^k ÷ (2k + 1): atanh for s = 1, arctan for s = −1. -/
def fxAtan (s : Int) (z z2 : Int) : Nat → Nat → Int
  | 0, _ => 0
  | n + 1, k => z / (2 * k + 1 : Nat) + fxAtan s (fxMul z z2 * s) z2 n (k + 1)

/-- ln 2. -/
def fxLn2 : Int := 2 * fxAtan 1 (fxOne / 3) (fxOne / 9) 110 0
/-- π, by Machin's formula. -/
def fxPi : Int := 16 * fxAtan (-1) (fxOne / 5) (fxOne / 25) 80 0 - 4 * fxAtan (-1) (fxOne / 239) (fxOne / 57121) 30 0

/-- ln of m × 2^e, m not 0. -/
def fxLn (m : Nat) (e : Int) : Int :=
  let l := Nat.log2 m
  let x := fxDiv (m : Int) ((2 ^ l : Nat) : Int)
  let z := fxDiv (x - fxOne) (x + fxOne)
  (e + l) * fxLn2 + 2 * fxAtan 1 z (fxMul z z) 110 0

/-- Sum of x^k ÷ k!. -/
def fxExpSum (x : Int) : Nat → Nat → Int → Int
  | 0, _, _ => 0
  | n + 1, k, t => t + fxExpSum x n (k + 1) (fxMul t x / (k + 1 : Nat))

/-- e^x for a fixed-point x not above 1,000 in magnitude; far below it is 0. -/
def fxExp (x : Int) : Int :=
  let k := x / fxLn2
  let v := fxExpSum (x - k * fxLn2) 70 0 fxOne
  if 0 ≤ k then v * ((2 ^ k.toNat : Nat) : Int) else v / ((2 ^ (-k).toNat : Nat) : Int)

/-- Sum of (−1)^k x^(2k+p) ÷ (2k+p)!. -/
def fxTrigSum (x2 : Int) : Nat → Nat → Int → Int
  | 0, _, _ => 0
  | n + 1, k, t => t + fxTrigSum x2 n (k + 2) (-(fxMul t x2) / ((k + 1) * (k + 2) : Nat))

/-- cos(2πk ÷ n) for n a power of two from 4, exact at the quarters. -/
def fxCos (k n : Nat) : Int :=
  let k := k % n
  if k * 4 = n ∨ k * 4 = 3 * n then 0
  else if k = 0 then fxOne
  else if k * 2 = n then -fxOne
  else
    let j := if k * 2 > n then n - k else k
    let x := 2 * fxPi * j / n
    fxTrigSum (fxMul x x) 60 0 fxOne

/-- sin(2πk ÷ n). -/
def fxSin (k n : Nat) : Int := fxCos (k + n - n / 4) n

/-- A fixed-point number as an exact value. -/
def fxVal (x : Int) : FV := FV.ofInt x (-320) false

/-- A value as a fixed-point number; what lies below 2^−320 is cut. -/
def fxOf (neg : Bool) (m : Nat) (e : Int) : Int :=
  let v : Int := if -320 ≤ e then (m * 2 ^ (e + 320).toNat : Nat) else (m / 2 ^ (-(e + 320)).toNat : Nat)
  if neg then -v else v

/-- A value of FP32 within a bound of an exact result y (fixed point): the one of the grid around y that the free choice names, where
`ok` admits it, else the nearest. The bound is `ulps` steps of FP32 at y, or 2^−40 where `abs` is set and that is more. -/
def within (function operand ulps : Nat) (abs : Bool) (ok : Nat → Bool) (y : Int) : Nat :=
  let near := fp32.rne (fxVal y)
  let l : Int := (Nat.log2 (max y.natAbs 1) : Int) - 320
  let ulp : Int := ((2 ^ (max (l - 23) (-149) + 320).toNat : Nat) : Int)
  let bound := if abs then max (ulps * ulp) ((2 ^ 280 : Nat) : Int) else ulps * ulp
  let t := Config.nudge function operand % fxOne
  let cand := fp32.rne (fxVal (y + (2 * t - fxOne) * bound / fxOne))
  match fp32.dec cand with
  | .fin neg m e => if (fxOf neg m e - y).natAbs ≤ bound.natAbs ∧ ok cand = true then cand else near
  | _ => near

end Sys2Proof.Machine
end

