-- ==== Sys2Proof/Machine/Hashes.lean ====
section
/-! DEFINITION. Hash functions and the Stipple generator (R165 to R168, R188, R339). -/

namespace Sys2Proof.Machine

/-- Addition modulo 2^64. -/
def add64 (a b : Nat) : Nat := (a + b) % 2 ^ 64
/-- Multiplication modulo 2^64. -/
def mul64 (a b : Nat) : Nat := a * b % 2 ^ 64

/-! ### The Kelys finaliser and Stipple -/

/-- The multiply-xorshift finaliser (R165). -/
def mxs64 (key seed : Nat) : Nat :=
  let x := key % 2 ^ 64 ^^^ seed % 2 ^ 64
  let x := x ^^^ (x >>> 33)
  let x := mul64 x 0x8f3d52c16e970b2b
  x ^^^ (x >>> 33)

/-- The Stipple key of a plan seed, an epoch, a sample index and an operation index (R339). -/
def stippleKey (seed epoch sample op : Nat) : Nat :=
  mxs64 op (mxs64 sample (mxs64 epoch (seed ^^^ 0x5a3c96e10f2db487)))

/-- The Stipple block of a key and a counter: lo in bits [63:0], hi in bits [127:64] (R339). -/
def stippleBlock (key ctr : Nat) : Nat :=
  let x := add64 key (ctr * 0xb7e151639a2c4f1d)
  let lo := mxs64 x 0x3d4fc2a961b807e5
  lo + mxs64 (2 ^ 64 - 1 - x) lo * 2 ^ 64

/-- The 16-bit draw of element `e` under a key (R188). -/
def stippleDraw (key e : Nat) : Nat := fld (16 * (e % 8) + 15) (16 * (e % 8)) (stippleBlock key (e / 8))

/-! ### XXH64 and XXH32 -/

def xxP1 : Nat := 0x9e3779b185ebca87
def xxP2 : Nat := 0xc2b2ae3d27d4eb4f
def xxP3 : Nat := 0x165667b19e3779f9
def xxP4 : Nat := 0x85ebca77c2b2ae63
def xxP5 : Nat := 0x27d4eb2f165667c5

/-- One lane round of XXH64. -/
def xxRound (acc lane : Nat) : Nat := mul64 (rotl 64 (add64 acc (mul64 lane xxP2)) 31) xxP1

/-- A lane merged into the converged accumulator. -/
def xxMerge (acc v : Nat) : Nat := add64 (mul64 (acc ^^^ xxRound 0 v) xxP1) xxP4

/-- One 32-byte stripe. -/
def xxStripe (vs : List Nat) (bs : Bytes) : List Nat :=
  (vs.zip (List.range 4)).map fun e => xxRound e.1 (leAt bs (8 * e.2) 8)

/-- The bytes past the last stripe; fuel bounds the pieces. -/
def xxTail : Nat → Nat → Bytes → Nat
  | 0, h, _ => h
  | f + 1, h, bs =>
    if bs.isEmpty then h
    else if 8 ≤ bs.length then
      xxTail f (add64 (mul64 (rotl 64 (h ^^^ xxRound 0 (leAt bs 0 8)) 27) xxP1) xxP4) (bs.drop 8)
    else if 4 ≤ bs.length then
      xxTail f (add64 (mul64 (rotl 64 (h ^^^ mul64 (leAt bs 0 4) xxP1) 23) xxP2) xxP3) (bs.drop 4)
    else xxTail f (mul64 (rotl 64 (h ^^^ mul64 (byteAt bs 0) xxP5) 11) xxP1) (bs.drop 1)

/-- XXH64 of a byte string. -/
def xxh64 (seed : Nat) (bs : Bytes) : Nat :=
  let n := bs.length
  let full := n / 32 * 32
  let h :=
    if n < 32 then add64 seed xxP5
    else
      let init := [add64 (add64 seed xxP1) xxP2, add64 seed xxP2, seed, add64 seed (2 ^ 64 - xxP1)]
      let vs := (pieces 32 (bs.take full)).foldl xxStripe init
      let h := (vs.zip [1, 7, 12, 18]).foldl (fun a e => add64 a (rotl 64 e.1 e.2)) 0
      vs.foldl xxMerge h
  let h := xxTail n (add64 h n) (bs.drop full)
  let h := mul64 (h ^^^ (h >>> 33)) xxP2
  let h := mul64 (h ^^^ (h >>> 29)) xxP3
  h ^^^ (h >>> 32)

/-- Multiplication modulo 2^32. -/
def mul32 (a b : Nat) : Nat := a * b % 2 ^ 32
/-- Addition modulo 2^32. -/
def add32 (a b : Nat) : Nat := (a + b) % 2 ^ 32

def xx32P1 : Nat := 0x9e3779b1
def xx32P2 : Nat := 0x85ebca77
def xx32P3 : Nat := 0xc2b2ae3d
def xx32P4 : Nat := 0x27d4eb2f
def xx32P5 : Nat := 0x165667b1

/-- One 16-byte stripe of XXH32. -/
def xx32Stripe (vs : List Nat) (bs : Bytes) : List Nat :=
  (vs.zip (List.range 4)).map fun e => mul32 (rotl 32 (add32 e.1 (mul32 (leAt bs (4 * e.2) 4) xx32P2)) 13) xx32P1

/-- The bytes past the last stripe of XXH32. -/
def xx32Tail : Nat → Nat → Bytes → Nat
  | 0, h, _ => h
  | f + 1, h, bs =>
    if bs.isEmpty then h
    else if 4 ≤ bs.length then
      xx32Tail f (mul32 (rotl 32 (add32 h (mul32 (leAt bs 0 4) xx32P3)) 17) xx32P4) (bs.drop 4)
    else xx32Tail f (mul32 (rotl 32 (add32 h (mul32 (byteAt bs 0) xx32P5)) 11) xx32P1) (bs.drop 1)

/-- XXH32 of a byte string. -/
def xxh32 (seed : Nat) (bs : Bytes) : Nat :=
  let n := bs.length
  let full := n / 16 * 16
  let h :=
    if n < 16 then add32 seed xx32P5
    else
      let init := [add32 (add32 seed xx32P1) xx32P2, add32 seed xx32P2, seed, add32 seed (2 ^ 32 - xx32P1)]
      let vs := (pieces 16 (bs.take full)).foldl xx32Stripe init
      (vs.zip [1, 7, 12, 18]).foldl (fun a e => add32 a (rotl 32 e.1 e.2)) 0
  let h := xx32Tail n (add32 h n) (bs.drop full)
  let h := mul32 (h ^^^ (h >>> 15)) xx32P2
  let h := mul32 (h ^^^ (h >>> 13)) xx32P3
  h ^^^ (h >>> 16)

/-! ### MurmurHash3 x64_128 -/

def mmC1 : Nat := 0x87c37b91114253d5
def mmC2 : Nat := 0x4cf5ad432745937f

/-- The mix of the first word of a block. -/
def mmK1 (k : Nat) : Nat := mul64 (rotl 64 (mul64 k mmC1) 31) mmC2
/-- The mix of the second word of a block. -/
def mmK2 (k : Nat) : Nat := mul64 (rotl 64 (mul64 k mmC2) 33) mmC1

/-- One 16-byte block. -/
def mmBlock (h : Nat × Nat) (bs : Bytes) : Nat × Nat :=
  let h1 := add64 (rotl 64 (h.1 ^^^ mmK1 (leAt bs 0 8)) 27) h.2
  let h1 := add64 (mul64 h1 5) 0x52dce729
  let h2 := add64 (rotl 64 (h.2 ^^^ mmK2 (leAt bs 8 8)) 31) h1
  (h1, add64 (mul64 h2 5) 0x38495ab5)

/-- The finaliser of a half. -/
def mmMix (k : Nat) : Nat :=
  let k := mul64 (k ^^^ (k >>> 33)) 0xff51afd7ed558ccd
  let k := mul64 (k ^^^ (k >>> 33)) 0xc4ceb9fe1a85ec53
  k ^^^ (k >>> 33)

/-- MurmurHash3 x64_128: h1 and h2. -/
def murmur3 (seed : Nat) (bs : Bytes) : Nat × Nat :=
  let n := bs.length
  let full := n / 16 * 16
  let h := (pieces 16 (bs.take full)).foldl mmBlock (seed, seed)
  let tail := bs.drop full
  let h2 := if 8 < tail.length then h.2 ^^^ mmK2 (ofLe (tail.drop 8)) else h.2
  let h1 := if tail.isEmpty then h.1 else h.1 ^^^ mmK1 (ofLe (tail.take 8))
  let h1 := h1 ^^^ n
  let h2 := h2 ^^^ n
  let h1 := add64 h1 h2
  let h2 := add64 h2 h1
  let h1 := mmMix h1
  let h2 := mmMix h2
  let h1 := add64 h1 h2
  (h1, add64 h2 h1)

end Sys2Proof.Machine
end

