-- ==== Sys2Proof/Machine/Types3.lean ====
section
/-! DEFINITION. The data the blocks hold, third part: record groups, ingest, streams, tables, joins, statistics, batches, caches, match
units and the Dip service. -/

namespace Sys2Proof.Machine

/-! ### Record groups (R22, R115) -/

/-- An element of a value: its bits at the column's width, with its presence and blot bit (R115, R128). -/
structure Elem where
  (bits : Nat)
  (present blot : Bool)
  deriving DecidableEq, Repr, Inhabited

/-- One row of a column: its presence and blot bit, its bytes for a variable binary value or a media item, its elements else. -/
structure Val where
  (present blot : Bool)
  (bytes : Bytes)
  (elems : List Elem)
  deriving DecidableEq, Repr, Inhabited

/-- A column of a record group: its field kind (Table 4-4), its value type (Table 4-5, 0xF for variable binary), the values per row
of a fixed column, and its rows. -/
structure Column where
  (kind fmt lanes : Nat)
  (rows : List Val)
  deriving DecidableEq, Repr, Inhabited

/-- The record group a nib holds (R22, R96, R327): the work it belongs to (plan slot, ligature, start cycle of the task, group of the
release, next stage), its rows, its source, the record index of each row, its record validity bits, its sample, and its columns. -/
structure Group where
  (slot lig started num next : Nat)
  (rows source : Nat)
  (recs : List Nat)
  (valid : List Bool)
  (sampled : Bool)
  (epoch sample counter layout : Nat)
  (cols : List Column)
  (outBytes : Nat)
  (tick : Option Nat := none)
  (fields : List Nat := [])
  deriving DecidableEq, Repr

/-! ### Ingest (04_ingest.md) -/

/-- A frame that waits for its compression engine (R135): its codec (Table 4-1; 5 an LZ4 block), its bytes, the cap of its output, the
size its carrier claims, and whether a content checksum is required. -/
structure FrameJob where
  (codec : Nat)
  (bytes : Bytes)
  (cap : Nat)
  (claim : Option Nat)
  (needSum : Bool)
  deriving DecidableEq, Repr

/-- What a frame's decode gave: its output, or the blot reason (Table 4-16). -/
inductive FrameOut where
  | bytes (b : Bytes)
  | bad (reason : Nat)
  deriving DecidableEq, Repr

/-- One field of a source as its header, footer or schema describes it: a Folio field, a Parquet column chunk (R124) or an Arrow field.
`field` is its place in the source, `bad` the reason it cannot be decoded, 0 for none. -/
structure Chunk where
  (field off len values codec phys typeLen logical maxRep maxDef optDef : Nat)
  (firstRow rows : Nat)
  (bad : Nat)
  deriving DecidableEq, Repr, Inhabited

/-- The decoded values of one field not yet taken by the consumer, and for a Parquet field the walk of its chunks: the chunk in
progress, the byte offset of its next page, the row that page begins with, the values seen in the chunk, and the chunk's dictionary or
the reason it failed. -/
structure FieldQueue where
  (col : Column)
  (chunk pos row seen : Nat)
  (dict : Option (List Val))
  (dictBad : Nat)
  deriving DecidableEq, Repr, Inhabited

/-- The format walker and column decoder of an ingest stream (R113 to R148): whether its walk has begun and ended, whether the footer
index is in use, the byte offset, the record index and the number of the next unit, what the source's header, footer or schema said,
the frames of the unit in progress and what their decodes gave, the decoded columns, the runs of records blotted whole, the record index
of the first record not yet taken, where the items of media fields came from as (field position, first record, byte offset), the arm
generation, and the statistics of R125 and R134. -/
structure Ingest where
  (open_ ended useIndex : Bool)
  (cursor record unit : Nat)
  (chunks : List Chunk)
  (jobs : List FrameJob)
  (outs : List FrameOut)
  (fields : List FieldQueue)
  (bad : List (Nat × Nat))
  (base : Nat)
  (marks : List (Nat × Nat × Nat))
  (gen : Nat)
  (noChecksum skipped : Nat)
  deriving DecidableEq, Repr

/-- The compressor of a write stream (R138 to R140): the input of the drained slot not yet in a released block, the frame's bytes so far
with the bits past its last whole byte (gzip only), all input of the frame, how much output has been written to the destination, and the
output of the slot in progress where the destination is a queue. -/
structure Compressor where
  (input : Bytes)
  (frame : Bytes)
  (bits : List Bool)
  (total : Bytes)
  (written : Nat)
  (packet : Bytes)
  deriving DecidableEq, Repr

/-- A stream in use: its descriptor, the unit that runs it, its ring and walk positions. `tailOff` is how far its consumer has read into the
tail slot, `walkBase` the tile number at which the present walk began, `rearmChunks` what Goust read of the source of a pending re-arm
(R124, R130), `owed` the releases of a ruled stream whose walks have not ended, `overrun` the task id and the deadline of the walk in
progress once it has passed it (R72), `tiles` the tiles completed since it started (STR_TILES, Table 9-6), `skipPages` the ABSENT pages counted in `skipped` (R320). -/
structure Stream where
  (desc : StreamDesc)
  (unit : BitVec 16)
  (ruled : Bool)
  (state : StrState)
  (slots : List Slot)
  (head tail tailOff : Nat)
  (nextTile walkBase taken done : Nat)
  (transfers : List Transfer)
  (fault : Option FaultRec)
  (rearm : Option (Nat × Nat))
  (rearmChunks : List Chunk)
  (closed : Bool)
  (skipped owed : Nat)
  (overrun : Option (Nat × Nat))
  (ingest : Ingest)
  (comp : Compressor)
  (tiles : Nat := 0)
  (skipPages : List Nat := [])
  deriving DecidableEq, Repr

/-! ### Embedding tables (07_embeddings.md) -/

/-- An owner table entry (Table 7-3): its home pool address and whether it is set, the rows served to each die in this survey
interval, its hot slot and its state. -/
structure Owner where
  (isSet : Bool)
  (home : Nat)
  (reads : List Nat)
  (die slot state : Nat)
  deriving DecidableEq, Repr, Inhabited

/-- A block in COPYING or RETURNING (R251): the copy cursor, the dirty log, and whether its cutover is requested. -/
structure Migration where
  (block cursor : Nat)
  (log : List Nat)
  (requested : Bool)
  deriving DecidableEq, Repr

/-- A slot of a landing buffer in use (R233, R234): the requesting die, the buffer, the slot, its row, its owner (the device number, with
the owner die for this device), its landed bit and the row landed; `late` when a late notice or a missing release accounts for it
(R241). -/
structure LandSlot where
  (die buf slot row device ownDie tick : Nat)
  (landed late : Bool)
  (bytes : Bytes)
  deriving DecidableEq, Repr

/-- A request list (R233, R235, R403): the other device (the requester of a list received or local, the owner of a list to be sent), the
requesting die, the owner die, the die that OWN_READS counts it for, the tick it was made in, its generation, its entries as (row, slot),
its parts and those that have arrived, whether it is sealed, and whether it came from or goes to another device. -/
structure ReqList where
  (device die ownDie via tick gen : Nat)
  (rows : List (Nat × Nat))
  (parts : Nat)
  (got : List Nat)
  (sealed received toSend : Bool)
  deriving DecidableEq, Repr

/-- An update list for or from another device (R243): row and addends; `received` tells which. -/
structure UpdList where
  (device die ownDie tick gen : Nat)
  (upds : List (Nat × List Nat))
  (parts : Nat)
  (got : List Nat)
  (sealed received : Bool)
  deriving DecidableEq, Repr

/-- A table in use by a plan: its generation, the reference whose region holds its rows (its own until a replacement), its owner entries
from block 0, its migrations, its landing slots, its lists, the tick from which Dip answers pause, its counters, the bags blotted for rows
not landed in this tick as (owner device, bags, first record), and the peers found missing as (device + 1,024, tick), the peers whose
request lists have come whole as (device, tick) and whose update lists as (device + 2,048, tick). -/
structure Table where
  (gen data : Nat)
  (owners : List Owner)
  (migrations : List Migration)
  (landing : List LandSlot)
  (reqs : List ReqList)
  (upds : List UpdList)
  (pause : Option Nat)
  (served dipHits dipMisses dipBusy outOfRange aborted : Nat)
  (missing : List (Nat × Nat × Nat))
  (peers : List (Nat × Nat))
  (skipPages : List Nat)
  (pieces : List (List Nat × Bytes) := [])
  deriving DecidableEq, Repr

/-- An entry of an update combiner (R246): the row of a table and the generation of its updates, with their sums. -/
structure CombEntry where
  (slot ref row gen : Nat)
  (sums : List Nat)
  deriving DecidableEq, Repr

/-- An update combiner (R246 to R248): its entries, the plan whose window is open with the cycle it opened, the updates spilled, and the
tick of each plan's last window. -/
structure Combiner where
  (entries : List CombEntry)
  (window : Option (Nat × Nat))
  (spilled : Nat)
  (opened : List (Nat × Nat))
  deriving DecidableEq, Repr

/-! ### Joins and groups (05_relational.md) -/

/-- A row of a hash table (R170): its build row index, its canonical key, its payload. -/
structure JoinRow where
  (row : Nat)
  (key payload : Bytes)
  deriving DecidableEq, Repr

/-- A running aggregate (R180, Table 5-12): how many present inputs, the exact sum or the FP32 sum, the extreme or first value,
whether only NaNs were seen. -/
structure Agg where
  (count : Nat)
  (sum : Int)
  (fsum : Nat)
  (val : Option Nat)
  (nan : Bool)
  (blot : Bool)
  deriving DecidableEq, Repr, Inhabited

/-- A group (R177): its canonical key, the original key values, its aggregates. -/
structure AggGroup where
  (key : Bytes)
  (orig : List Val)
  (aggs : List Agg)
  deriving DecidableEq, Repr

/-- A row of a GROUP_PARTIAL (R177, R180): its canonical key, its key values and the values of its aggregates' columns. -/
structure PartRow where
  (key : Bytes)
  (orig vals : List Val)
  deriving DecidableEq, Repr

/-- The table of a join or group operation (R171 to R178): the rows held, the builder or source ligatures that have completed their
release, whether it is FULL, the partial lists and the rows excluded by source, the types of the key columns (kind, value type,
values per row) and of the aggregates' columns, the payload bytes of an entry, the groups each ligature has taken in (ligature, release,
groups) and a source's rows by group, from which its partial list is built in input order. -/
structure Join where
  (rows : List JoinRow)
  (done : List Nat)
  (full : Bool)
  (partials : List (Nat × List AggGroup))
  (excluded : List (Nat × Nat))
  (keyTypes : List (Nat × Nat × Nat))
  (aggTypes : List Nat)
  (payload : Nat := 0)
  (taken : List (Nat × Nat × Nat) := [])
  (inputs : List (Nat × List (Nat × List PartRow)) := [])
  deriving DecidableEq, Repr

/-! ### Statistics (06_shaping.md) -/

/-- A column partial of one core and epoch (R197, R199): count, FP64 mean and M2, the FP32 extremes, the tallies, and the DVA of its
sketch counts in the core pad (R203). -/
structure Partial where
  (core epoch col : Nat)
  (count mean m2 : Nat)
  (min max absent nonfinite : Nat)
  (sketchAt : Option Nat)
  deriving DecidableEq, Repr

/-- The gathering state of a statistics reference (R199 to R202): the partials, the epoch each core gathers for, the epoch whose copy is
published and waits to become active (with its copy), the host's flips that wait for the tick edge (the tick they were accepted in, and
the records one writes), the epoch each copy summarises, the activations (the cycle from which, and the copy they replaced) newest first,
the copy each release reads (task, release, copy), the epoch into which the last boundary led, the cycle of the last publication, and the
fractions each release has read into the table store (task, release, column) (R207). -/
structure StatObj where
  (partials : List Partial)
  (cores : List (Nat × Nat))
  (published : Option (Nat × Nat))
  (flips : List (Nat × Option (Nat × List Bytes)) := [])
  (epochs : List (Nat × Nat) := [])
  (history : List (Nat × Nat) := [])
  (pins : List (Nat × Nat × Nat) := [])
  (boundary : Nat := 0)
  (publishedAt : Nat := 0)
  (fracs : List ((Nat × Nat × Nat) × Bytes) := [])
  deriving DecidableEq, Repr

/-! ### Select and match (08_selection_match.md) -/

/-- A list under way across the groups of a release (R267): the release's start cycle, its valid entries as (value bits, source index),
the skipped count, the entries presented and the groups taken in. -/
structure SelList where
  (started : Nat)
  (entries : List (Nat × Nat))
  (skipped presented : Nat)
  (groups : Nat := 0)
  deriving DecidableEq, Repr

/-- A match unit (R276): the entries that differ from the reset image, and the row tags that are not 0. -/
structure MatchUnit where
  (entries : List (Nat × BitVec 320))
  (tags : List (Nat × Byte))
  deriving DecidableEq, Repr

/-! ### Batches and media (10_samples.md) -/

/-- A batch in a buffer (R334 to R337): its global number, the tick its first record was delivered in, and the arrivals as (slot, slice,
valid). -/
structure OpenBatch where
  (g : Nat)
  (tick : Nat)
  (got : List (Nat × Nat × Bool))
  (ready : Bool)
  deriving DecidableEq, Repr

/-- A batch layout in use (R326 to R337): its sample counter and the records of the sample under way, the batch each buffer holds, the
numbers of the completed batches, the first deliveries of batches as (number, tick), and those of epochs as (epoch, the cycle of the edge that
opened their tick, the cycle of the delivery) (R328). -/
structure Batch where
  (counter partial_ : Nat)
  (buffers : List (Nat × OpenBatch))
  (completed : List Nat)
  (begun : List (Nat × Nat))
  (epochs : List (Nat × Nat × Nat) := [])
  deriving DecidableEq, Repr

/-- A layout of which nothing has been delivered. -/
def Batch.empty : Batch := ⟨0, 0, [], [], [], []⟩

/-- A way of a decoded-sample cache (R349, R350): its set and way, its key and its item. -/
structure CacheWay where
  (set way : Nat)
  (key : Nat × Nat × Nat × Nat)
  (uses : Nat)
  (item : Bytes)
  deriving DecidableEq, Repr

/-- A decoded-sample cache part (R350). -/
structure SampleCache where
  (ways : List CacheWay)
  deriving DecidableEq, Repr

/-! ### The Dip service (12_ports.md) -/

/-- A placed row (R408, R409): plan slot and reference of its table, its generation, the row, its bytes, its hits in this interval,
whether it answers yet, and the row whose copy is to replace it. -/
structure DipRow where
  (slot ref gen row : Nat)
  (bytes : Bytes)
  (hits : Nat)
  (live : Bool)
  (doomed : Option Nat)
  deriving DecidableEq, Repr

/-- The Dip state of a port die: the placed rows it answers from, and its miss log as (slot, reference, row, misses). -/
structure DipPart where
  (rows : List DipRow)
  (misses : List ((Nat × Nat × Nat) × Nat))
  deriving DecidableEq, Repr

end Sys2Proof.Machine
end

