-- ==== Sys2Proof/Machine/State.lean ====
section
/-! DEFINITION. The machine's state, its reset, and the reasons a step can stop. -/

namespace Sys2Proof.Machine

/-- The reasons a step faults. Every command of the KF-384 has an effect, so no meaning raises one. -/
inductive Fault where
  /-- Raised by nobody: no rule of the spec stops the device on a command. Safe. -/
  | none
  deriving DecidableEq, Repr

/-- The reasons a step refuses. -/
inductive Refusal where
  /-- Raised by an arm of exec whose command has no meaning yet. Safe: the machine stops. -/
  | notModelled (mnemonic : String)
  deriving DecidableEq, Repr

/-- The state of the KF-384. A keyed list holds what differs from the reset value of its kind. -/
structure State where
  /-- The order number (Table 0-1). -/
  variant : Variant
  /-- The core clock and the tick in progress (R42, R43). -/
  clk : Clock
  /-- The ruling registers (R45). -/
  rul : Ruling
  /-- The PTP time base (R391). -/
  ptp : Ptp
  /-- The power controller, the power state and the sensors (R500 to R510). -/
  pwr : Power
  /-- Start-up (R494). -/
  boot : Boot
  /-- The header fields of the booted images (Table 14-3). -/
  booted : Booted
  /-- The Seal (14_security.md). -/
  sec : Seal
  /-- The Quill is halted (QUILL_LOCKSTEP, R439). -/
  halted : Bool
  /-- The Blotter ring writer (R470). -/
  blot : Blotter
  /-- The events of this tick that R515 reports at its edge. -/
  tickEvents : List TickEvent
  /-- The self-tests under way (R474). -/
  tests : List SelfTest
  /-- The units the host has excluded (R482). -/
  excluded : List (BitVec 16)
  /-- Exclusions accepted and waiting for a tick edge: the unit ids, and whether a final response waits (R483). -/
  exclusions : List (List (BitVec 16))
  /-- The mailboxes (R416). -/
  mboxes : List (Nat × Mailbox)
  /-- The requests in assembly and the sources of the mailboxes (R402). -/
  links : List (Nat × MailboxLink)
  /-- The messages Goust has taken and not started, oldest first: mailbox, message and the cycle of its doorbell (R417, R424). -/
  taken : List (Nat × Bytes × Nat)
  /-- PLAN_LOAD commands that wait for zeroing or for their image (R90, R432), with the cycle they started at and the number of zeroings
  they still wait for. -/
  heldLoads : List (Instr × Nat × Nat)
  /-- The resident plans by slot (R102). -/
  plans : List (Nat × Plan)
  /-- The boundary actions requested and not yet carried out, in request order (R68). -/
  actions : List Pending
  /-- The regions being zeroed (R92). -/
  zeroing : List Zeroing
  /-- The last fit report (R111). -/
  fitReport : Option Bytes
  /-- Memory: HBM frames and the three SRAM tiers, by DVA (Table 9-1), in canonical form. -/
  mem : List Host.Cell
  /-- The page map (R295), by page number. -/
  pages : List (Nat × Page)
  /-- The ranges the session holds (R433). -/
  allocs : List Alloc
  /-- The task schedulers (R76), by die × 12 + cluster. -/
  sched : List (Nat × Cluster)
  /-- The Inkwell queues (R357), by bits [15:0] of their DVA. -/
  queues : List (Nat × Queue)
  /-- The signal cells (R374), by device-wide number. -/
  cells : List (Nat × SigCell)
  /-- Waits held for want of a waiter entry (R376), oldest first, by cell. -/
  regHeld : List (Nat × Waiter)
  /-- The parked waiters (R378). -/
  parked : List Parked
  /-- Units that wait on a queue: an empty one to take from or a full one to commit to (R378). -/
  queueWaits : List (Nat × Waiter)
  /-- The remote signals held (R383). -/
  remote : List RemoteSignal
  /-- The host signals waiting (R381). -/
  hostSigs : List HostSignal
  /-- The streams, by plan slot (0xFF host) and descriptor index. -/
  streams : List ((Nat × Nat) × Stream)
  /-- The tables of the plans in use: owner entries, landing buffers, exchange lists. -/
  tables : List ((Nat × Nat) × Table)
  /-- The update combiners, by die (R243). -/
  combiners : List (Nat × Combiner)
  /-- The hash tables of joins and group-bys, by plan slot and reference. -/
  joins : List ((Nat × Nat) × Join)
  /-- Statistics, sketches and boundary tables in their working copies, by plan slot and reference. -/
  stats : List ((Nat × Nat) × StatObj)
  /-- The record groups of the nibs, newest first, by global core number × 8 + nib (R22). -/
  nibs : List (Nat × List Group)
  /-- The lists a Select engine keeps across a release, by plan slot, ligature and stage. -/
  lists : List ((Nat × Nat × Nat) × SelList)
  /-- The match units, by die × 12 + cluster (R276). -/
  matchUnits : List (Nat × MatchUnit)
  /-- The batch buffers, by plan slot and layout (R333). -/
  batches : List ((Nat × Nat) × Batch)
  /-- The decoded-sample caches, by plan slot and Reservoir part. -/
  caches : List ((Nat × Nat) × SampleCache)
  /-- The Dip partitions, by die (R408). -/
  dips : List (Nat × DipPart)
  /-- The logical ports (R33). -/
  ports : List (Nat × Port)
  /-- The device number (R388). -/
  deviceNumber : BitVec 10
  /-- The neighbour table, with entry 1,024 for the host return (R387). -/
  neighbours : List (Nat × Neighbour)
  /-- The transmit streams (R398). -/
  tx : List TxStream
  /-- The receive streams (R399). -/
  rx : List RxStream
  /-- The replay windows (R397). -/
  windows : List SeqWindow
  /-- The sending counters (R397). -/
  counters : List SeqCounter
  /-- The frames that have left the ports, newest first. -/
  sent : List SentFrame
  /-- The JTAG bypass register. -/
  jtagBypass : Bool
  /-- What the telemetry target answered last: true where it acknowledged. -/
  tlmAck : Bool
  /-- The value the test access port shifted out last. -/
  jtagOut : BitVec 32
  /-- The pulse output is high until this cycle (R492). -/
  ppsOut : Nat
  /-- The die link lane groups that have lost training, by unit id (R485). -/
  lanesDown : List (BitVec 16)
  /-- The die links of which every lane group is down, by number (R485). -/
  linksDown : List Nat
  /-- The lines of 256 bytes in the shared caches, by die × 12 + cluster, most recently used first (R314). -/
  lines : List (Nat × List Nat)
  /-- The corrected words of each Inkwell pool, its own count (R371), by bits [15:10] of its queues' DVA. -/
  poolCorr : List (Nat × Nat)
  /-- How many free values have been drawn: the model's own field. -/
  freeCtr : Nat
  /-- The commands that wait, first in, first out: the model's own field. -/
  pending : List Instr
  deriving DecidableEq, Repr

/-- A mailbox at its reset values (Table 13-1). -/
def Mailbox.reset : Mailbox := ⟨0, 0, 0, [], [], []⟩

/-- A logical port at its reset values (Table 12-2): PORT_CFG 0xAABF_0000_FAC6_8000, no address, no link. -/
def Port.reset : Port :=
  { cfg := 0xaabf0000fac68000#64, live := 0, ip := List.replicate 16 0, linkUp := false,
    retraining := false, drops := List.replicate 17 0, paused := [], xoff := [], bucket := 0, bucketAt := 0,
    replyAt := none, idAt := none, out := [] }

/-- A signal cell at its binding values (Table 11-7). -/
def SigCell.reset : SigCell :=
  { value := 0, max := 0x7fffffff#32, min := 0, adds := 0, wdog := 0, plan := 0xff#8, toHost := false, underflow := false,
    overflow := false, session := false, bound := false, waiters := [] }

/-- A cluster's scheduler at power-on. -/
def Cluster.reset : Cluster :=
  { ready := [], releaseWait := [], running := [], held := [], idle := [],
    scribe := { bytes := 0, stop := false, recs := [], seq := 0, unwritten := 0 }, off := false }

/-- A queue at its binding values (Table 11-3) with `reserve` cells. -/
def Queue.bind (owner : QueueOwner) (reserve : Nat) (kind pdom cdom : Nat) : Queue :=
  { owner := owner, pkts := [], read := (0, 0), mark := none, tail := 0, markCell := 0, committed := 0, limit := reserve,
    reserve := reserve, corr := 0, noticeTgt := 0xffff#16, noticeKind := 0, pdom := BitVec.ofNat 2 pdom,
    cdom := BitVec.ofNat 2 cdom, autorel := true, broken := false, kind := BitVec.ofNat 4 kind, wdog := 0, brokenAt := 0 }

/-- The device-owned queues (Table 11-1), by bits [15:0] of their DVA. -/
def deviceQueues : List (Nat × Queue) :=
  let mq : Nat → List (Nat × Queue) := fun m =>
    [(11 * 1024 + 992 + 2 * m, Queue.bind .device 64 2 1 2), (11 * 1024 + 993 + 2 * m, Queue.bind .device 64 2 2 1)]
  [(1022, Queue.bind .device 1024 3 1 0), (1023, Queue.bind .device 1024 3 0 1)] ++ (List.range 16).flatMap mq ++
    [(2 * 16384 + 1022, Queue.bind .device 1024 3 1 0), (2 * 16384 + 1023, Queue.bind .device 1024 3 0 1)]

/-- The fuses as the model takes them: the spec gives no values (assumption log 5). -/
def Fuses.reset : Fuses :=
  { dus := 0, vkh := List.replicate 4 (List.replicate 48 0), revoke := 0, minSvn := 0, serial := 0, macBase := 0,
    debugDisable := false }

/-- The state after reset: 3.3 V standby only, nothing else yet in range (R488), the start-up sequence not begun. -/
def State.reset : State :=
  { variant := .l768
    clk := { cycle := 0, scrBase := 0, edge := 0, len := 475000, guard := false }
    rul := { cfg := 475000#64, status := 0, tick := 0, stepPend := false, anchor := none, aligned := 0, overrunUnits := [],
             nextPeriod := none }
    ptp := { port := 0, transport := 0, domain := 0, asymmetry := 0, isSet := false, offset := 0, master := none, masters := [],
             lastSeq := none, waiting := none, t1t2 := (0, 0), delayReq := none, delayResp := none, lastUpdate := 0,
             lastOffset := 0, pps := (0, 0) }
    pwr := { state := .run, cap := 2400000#32, f := 256, f2 := 256, moduleMw := 0, hbmMw := 0, computeMw := 0, volts := [],
             temps := [], overSince := none, underSince := none, unheld := false, thermHold := false, inForce := [], pwrGood := false, warm := false, cause := 0 }
    boot := { stage := 0, altLoader := false, altMain := false, bringup := 0, fail := 0, debug := false }
    booted := { major := 3, minor := 0, patch := 0, svn := 0, keyIndex := 0, commitSvn := false, revokeBelow := false,
                alternate := false }
    sec := { fuses := Fuses.reset, mr := List.replicate 4 (List.replicate 48 0), mr3Events := 0, mr3Log := [], arCounter := 0,
              keyEpoch := 0, debugNonce := 0, alternate := false, latched := false, scope := 0, scrub := none, trngOk := true,
              hbmKeys := List.replicate 4 (List.replicate 64 0), slots := [], opens := [], handshakes := [], parts := [] }
    halted := false, blot := { written := 0, store := [], ring := none, notice := none, blots := [] }, tickEvents := [],
    tests := [], excluded := [], exclusions := [], mboxes := [], links := [], taken := [], heldLoads := [], plans := [],
    actions := [], zeroing := [], fitReport := none, mem := [], pages := [], allocs := [], sched := [], queues := deviceQueues,
    cells := [], regHeld := [], parked := [], queueWaits := [], remote := [], hostSigs := [], streams := [], tables := [],
    combiners := [], joins := [], stats := [], nibs := [], lists := [], matchUnits := [], batches := [], caches := [], dips := [],
    ports := [], deviceNumber := 0, neighbours := [], tx := [], rx := [], windows := [], counters := [], sent := [],
    jtagBypass := false, tlmAck := false, jtagOut := 0, ppsOut := 0, lanesDown := [], linksDown := [], lines := [], poolCorr := [], freeCtr := 0, pending := [] }

end Sys2Proof.Machine
end

