-- ==== Sys2Proof/Machine/Ops.lean ====
section
/-! DEFINITION. The named operations over memory, the clock and the free values. -/

namespace Sys2Proof.Machine

/-! ### The address space (R290 to R295) -/

/-- 2 MiB, the page and the granule of HBM. -/
def pageBytes : Nat := 2097152
/-- The size of a core pad (R36). -/
def padBytes : Nat := 16777216
/-- The size of a cluster store (R36). -/
def storeBytes : Nat := 67108864
/-- The size of a Reservoir (R36), 5.25 GiB. -/
def reservoirBytes : Nat := 5637144576
/-- HBM per die (Table 0-1). -/
def dieHbm (v : Variant) : Nat := match v with | .l768 => 206158430208 | .l384 => 103079215104
/-- HBM of the device (Table 0-1). -/
def hbmBytes (v : Variant) : Nat := 4 * dieHbm v
/-- 2 MiB frames of one die. -/
def dieFrames (v : Variant) : Nat := dieHbm v / pageBytes

/-- The DVA of a space with an offset (Table 9-1). -/
def dvaOf (space off : Nat) : Nat := space * 2 ^ 53 + off
/-- The DVA of a pool offset (R291). -/
def hbmDva (off : Nat) : Nat := dvaOf 1 off
/-- The DVA of a Reservoir offset. -/
def reservoirDva (die off : Nat) : Nat := dvaOf 2 (die * 2 ^ 33 + off)
/-- The DVA of a cluster store offset; `k` is die × 12 + cluster. -/
def storeDva (k off : Nat) : Nat := dvaOf 3 ((k / 12) * 2 ^ 32 + (k % 12) * 2 ^ 28 + off)
/-- The DVA of a core pad offset. -/
def padDva (core off : Nat) : Nat := dvaOf 4 (core * 2 ^ 24 + off)
/-- The DVA of an Inkwell queue named by its bits [15:0]. -/
def queueDva (q : Nat) : Nat := dvaOf 5 q

/-- The memory cell a DVA names when every bit the table does not name is zero and the offset lies in its space's extent
(R290, R293); a paged address goes through the page map, and an ABSENT page names no cell. -/
def translate (s : State) (dva : Nat) : Option Nat :=
  let o := dva % 2 ^ 53
  match dva / 2 ^ 53 with
  | 0 =>
    match look (o / pageBytes) s.pages with
    | some p => if p.state = 0 then none else some (hbmDva (p.frame.toNat * pageBytes + o % pageBytes))
    | none => none
  | 1 => if o < hbmBytes s.variant then some dva else none
  | 2 => if o < 2 ^ 35 ∧ o % 2 ^ 33 < reservoirBytes then some dva else none
  | 3 => if o < 2 ^ 34 ∧ (o / 2 ^ 28) % 16 < 12 ∧ o % 2 ^ 28 < storeBytes then some dva else none
  | 4 => if o < 384 * 2 ^ 24 then some dva else none
  | _ => none

/-! ### Memory -/

/-- What a byte that nothing has written reads as: zero (Table 16-8 for the SRAM tiers; assumption log 2 for HBM). -/
def blankByte : Byte := 0

/-- The byte at a memory cell. -/
def readByte (m : List Host.Cell) (a : Nat) : Byte :=
  match m with
  | [] => blankByte
  | c :: r => if c.1 = a then c.2 else readByte r a

/-- `n` bytes from cell `a`. -/
def readCells (m : List Host.Cell) : Nat → Nat → Bytes
  | 0, _ => []
  | n + 1, a => readByte m a :: readCells m n (a + 1)

/-- The cells that hold a byte string from `a`, without those that hold the blank byte. -/
def cellsOf : Nat → Bytes → List Host.Cell
  | _, [] => []
  | a, b :: bs => if b = blankByte then cellsOf (a + 1) bs else (a, b) :: cellsOf (a + 1) bs

/-- A byte string written from cell `a`. -/
def writeCells (m : List Host.Cell) (a : Nat) (bs : Bytes) : List Host.Cell :=
  (m.filter fun c => c.1 < a) ++ cellsOf a bs ++ m.filter fun c => a + bs.length ≤ c.1

/-- The cells of a range made blank. -/
def clearCells (m : List Host.Cell) (a n : Nat) : List Host.Cell :=
  m.filter fun c => c.1 < a || a + n ≤ c.1

/-- The cells of a range of `n` bytes at `src` copied to `dst`. -/
def copyCells (m : List Host.Cell) (src n dst : Nat) : List Host.Cell :=
  (m.filter fun c => c.1 < dst) ++
    ((m.filter fun c => src ≤ c.1 && c.1 < src + n).map fun c => (c.1 - src + dst, c.2)) ++ m.filter fun c => dst + n ≤ c.1

/-- Every address above `lo`, rising, and no cell holds the blank byte. -/
def memOrdered : Nat → List Host.Cell → Bool
  | _, [] => true
  | lo, c :: r => decide (lo ≤ c.1) && decide (c.2 ≠ blankByte) && memOrdered (c.1 + 1) r

/-- Memory is in canonical form: addresses strictly rising and no entry equal to what an unlisted address reads as. -/
def Memory.wf (m : List Host.Cell) : Bool := memOrdered 0 m

/-- `n` bytes at a DVA; bytes that no cell backs read as zero (R293). -/
def readDva (s : State) (dva n : Nat) : Bytes :=
  if dva / 2 ^ 53 = 0 then
    (List.range n).map fun i => match translate s (dva + i) with | some a => readByte s.mem a | none => 0
  else match translate s dva, translate s (dva + n - 1) with
    | some a, some _ => readCells s.mem n a
    | _, _ => (List.range n).map fun i => match translate s (dva + i) with | some a => readByte s.mem a | none => 0

/-- A page marked written (PG_DIRTY). -/
def dirtyPage (p : Nat) (s : State) : State :=
  match look p s.pages with
  | some e => if e.dirty then s else { s with pages := put p { e with dirty := true } s.pages }
  | none => s

/-- The pieces of a byte string at a DVA that lie in one 2 MiB page each. -/
def pageSplit : Nat → Nat → Bytes → List (Nat × Bytes)
  | 0, _, _ => []
  | f + 1, dva, bs =>
    if bs.isEmpty then [] else
      let n := pageBytes - dva % pageBytes
      (dva, bs.take n) :: pageSplit f (dva + n) (bs.drop n)

/-- One piece inside one page written at a DVA; a byte that no cell backs is not stored (R293). -/
def writePiece (s : State) (p : Nat × Bytes) : State :=
  match translate s p.1 with
  | some a =>
    let s := { s with mem := writeCells s.mem a p.2 }
    if p.1 / 2 ^ 53 = 0 then dirtyPage (p.1 / pageBytes) s else s
  | none => s

/-- A byte string written at a DVA. -/
def writeDva (s : State) (dva : Nat) (bs : Bytes) : State :=
  (pageSplit (bs.length / pageBytes + 2) dva bs).foldl writePiece s

/-! ### The clock -/

/-- CCLK cycles in ns, at 1.9 GHz (R13), rounded down. -/
def cyclesToNs (c : Nat) : Nat := c * 10 / 19

/-- The free-running time since power-on, in ns. -/
def freeNs (s : State) : Nat := cyclesToNs s.clk.cycle

/-- The PTP time base in ns (R391, R467). -/
def ptpNs (s : State) : Nat := ((freeNs s : Int) + s.ptp.offset).toNat

/-- The PTP time base in ns at a cycle near the present one. -/
def ptpAt (s : State) (c : Nat) : Nat := ((cyclesToNs c : Int) + s.ptp.offset).toNat

/-- SCR_CYCLE at a cycle (Table 2-8). -/
def scrCycle (s : State) (c : Nat) : Nat := c - s.clk.scrBase

/-- The number of the tick in progress: RUL_TICK has already advanced once the guard band has opened (Table 2-5). -/
def nowTick (s : State) : Nat := (s.rul.tick - if s.clk.guard then 1 else 0).toNat

/-- The tick period P (Table 2-1). -/
def period (s : State) : Nat := fld 26 0 s.rul.cfg.toNat

/-- Discipline is on (Table 2-1). -/
def disciplined (s : State) : Bool := bitAt s.rul.cfg.toNat 63

/-- The phase in ns (Table 2-1). -/
def phaseNs (s : State) : Nat := fld 56 27 s.rul.cfg.toNat

/-- D of R51 for a period. -/
def ditherOf (p : Nat) : Nat := ceilDiv p 16384

/-- The ruled window W of R71 for a period. -/
def windowOf (p : Nat) : Nat := p - 3800 - ditherOf p

/-- The clock moved on to a cycle that is not earlier. -/
def advanceTo (c : Nat) (s : State) : State := { s with clk := { s.clk with cycle := max s.clk.cycle c } }

/-! ### Free values -/

/-- A state after one more free value has been drawn. -/
def drawn (s : State) : State := { s with freeCtr := s.freeCtr + 1 }

/-- Random bytes from the Seal's generator, cut or filled to their length. -/
def randomBytes (n : Nat) (s : State) : Bytes := fit n (Config.random n s.freeCtr)

/-- A free number of `w` bits. -/
def freeNumber (w : Nat) (s : State) : Nat := Config.value w s.freeCtr % 2 ^ w

end Sys2Proof.Machine
end

