-- ==== Sys2Proof/Machine/Units.lean ====
section
/-! DEFINITION. Unit ids (R25 to R29), exclusion granularity (Table 15-5) and the numbering of dies, clusters and cores. -/

namespace Sys2Proof.Machine

/-- UID_DIE. -/
def uidDie (u : BitVec 16) : Nat := fld 15 14 u.toNat
/-- UID_CLUSTER. -/
def uidCluster (u : BitVec 16) : Nat := fld 13 10 u.toNat
/-- UID_CORE. -/
def uidCore (u : BitVec 16) : Nat := fld 9 7 u.toNat
/-- UID_ENGINE. -/
def uidEngine (u : BitVec 16) : Nat := fld 6 4 u.toNat
/-- UID_SUB. -/
def uidSub (u : BitVec 16) : Nat := fld 3 0 u.toNat

/-- The unit id of five fields (Table 1-2). -/
def uid (die cluster core engine sub : Nat) : BitVec 16 :=
  BitVec.ofNat 16 (pack [(4, sub), (3, engine), (3, core), (4, cluster), (2, die)])

/-- The unit id of an engine of a global core number. -/
def coreUid (core engine : Nat) : BitVec 16 := uid (core / 96) (core / 8 % 12) (core % 8) engine 0
/-- The unit id of a core's pad (Table 1-3). -/
def padUid (core : Nat) : BitVec 16 := uid (core / 96) (core / 8 % 12) (core % 8) 7 2
/-- The unit id of a cluster resource (Table 1-5); `k` is die × 12 + cluster. -/
def clusterUid (k sub : Nat) : BitVec 16 := uid (k / 12) (k % 12) 0 7 sub
/-- The global core number of a core's unit id (R20). -/
def uidCoreNumber (u : BitVec 16) : Nat := uidDie u * 96 + uidCluster u * 8 + uidCore u
/-- Die × 12 + cluster of a unit id below cluster value 12. -/
def uidClusterIndex (u : BitVec 16) : Nat := uidDie u * 12 + uidCluster u

/-- The highest subunit of engines 0 to 6 (Table 1-3). -/
def maxSub (engine : Nat) : Nat :=
  match engine with | 0 => 10 | 1 => 10 | 2 => 10 | 3 => 2 | 4 => 4 | 5 => 10 | 6 => 3 | _ => 0

/-- A unit id matches a row of Tables 1-3 to 1-5 and obeys R27 and R28 (R29). -/
def unitOk (u : BitVec 16) : Bool :=
  let e := uidEngine u
  let sub := uidSub u
  let b := uidCore u
  if uidCluster u < 12 then
    if e < 7 then sub ≤ maxSub e
    else sub ≤ 2 || (8 ≤ sub && sub ≤ 13 && b == 0)
  else match uidCluster u with
  | 12 =>
    match b with
    | 0 => true
    | 1 => e ≤ 3
    | 2 => sub == 0
    | 3 => e ≤ 1 && sub ≤ 2
    | 4 => sub == 0
    | 5 => e == 0 && sub == 0
    | 6 => e == 0 && sub == 0
    | _ => false
  | 13 =>
    match b with
    | 0 => e ≤ 3 && e != uidDie u
    | 1 => (uidDie u == 0 || uidDie u == 2) &&
        (match e with | 0 => sub ≤ 7 | 1 => sub ≤ 1 | 2 => sub == 0 | 3 => sub == 0 | 4 => sub == 0 | _ => false)
    | _ => false
  | 14 =>
    uidDie u == 0 && e == 0 && b ≤ 5 && (if b ≤ 1 then sub ≤ 3 else sub == 0)
  | _ => false

/-- A device-level unit (cluster value 0xE). -/
def deviceLevel (u : BitVec 16) : Bool := uidCluster u == 14

/-- The row of Table 15-5 a unit falls in. -/
inductive UnitClass where
  | core (n : Nat)
  | cluster (k : Nat)
  | matchUnit (k : Nat)
  | sharedCache (k : Nat)
  | scribe (k : Nat)
  | bankGroup (die group : Nat)
  | controller (die n : Nat)
  | compression (die n : Nat)
  | media (die n part : Nat)
  | streamEngine (die n : Nat)
  | combiner (die : Nat)
  | signals (die : Nat)
  | link (a b : Nat)
  | port (die block lane : Nat)
  | device
  deriving DecidableEq, Repr

/-- The row of Table 15-5 of a valid unit id. -/
def unitClass (u : BitVec 16) : UnitClass :=
  let d := uidDie u
  let e := uidEngine u
  if uidCluster u < 12 then
    if e = 7 ∧ 8 ≤ uidSub u then
      match uidSub u with
      | 9 => .matchUnit (uidClusterIndex u)
      | 12 => .sharedCache (uidClusterIndex u)
      | 13 => .scribe (uidClusterIndex u)
      | _ => .cluster (uidClusterIndex u)
    else .core (uidCoreNumber u)
  else if uidCluster u = 12 then
    match uidCore u with
    | 0 => .bankGroup d e
    | 1 => .controller d e
    | 2 => .compression d e
    | 3 => .media d e (uidSub u)
    | 4 => .streamEngine d e
    | 5 => .combiner d
    | _ => .signals d
  else if uidCluster u = 13 then
    if uidCore u = 0 then .link (min d e) (max d e) else .port d e (uidSub u)
  else .device

/-- A unit id names a part of what an excluded or avoided unit id names (R482, R91); a single Reservoir bank stays itself. -/
def covers (avoid u : BitVec 16) : Bool :=
  match unitClass avoid, unitClass u with
  | .cluster k, .core n => n / 8 == k
  | .cluster k, .matchUnit j => k == j
  | .cluster k, .sharedCache j => k == j
  | .cluster k, .scribe j => k == j
  | .bankGroup d g, .bankGroup d' g' => d == d' && g == g' && uidSub avoid == uidSub u
  | a, b => a == b

/-- A unit is excluded (R482). -/
def isExcluded (s : State) (u : BitVec 16) : Bool := s.excluded.any fun x => covers x u

/-- The die link between two dies (Table 1-6). -/
def linkNumber (a b : Nat) : Nat :=
  match min a b, max a b with
  | 0, 1 => 0 | 0, 2 => 1 | 0, 3 => 2 | 1, 2 => 3 | 1, 3 => 4 | _, _ => 5

/-- The unit id of a die's end of the link to a peer. -/
def linkUid (die peer : Nat) : BitVec 16 := uid die 13 0 peer 0

/-- A die link is out of service: the host has excluded it (R32). -/
def linkOut (s : State) (a b : Nat) : Bool := isExcluded s (linkUid a b)

/-- Every lane group of a die link is down (LINK_DOWN, Table 15-4). -/
def linkLost (s : State) (a b : Nat) : Bool := s.linksDown.contains (linkNumber a b)

/-- The intermediate die that relays the traffic of a pair of dies whose link the host has excluded: the lowest whose two links to the pair
are both in service (R32). -/
def relayDie (s : State) (a b : Nat) : Option Nat :=
  (List.range 4).find? fun m => m != a && m != b && !linkOut s a m && !linkOut s m b && !linkLost s a m && !linkLost s m b

/-- The links that traffic between two dies takes (R31, R32); with no relay in service, the direct link, which then carries nothing. -/
def linksOf (s : State) (a b : Nat) : List (BitVec 16) :=
  if a = b then []
  else if !linkOut s a b then [linkUid a b]
  else match relayDie s a b with
    | some m => [linkUid a m, linkUid m b]
    | none => [linkUid a b]

/-- Traffic between two dies passes: over the link between them while it is neither excluded nor down, or through the relay of an excluded
one; nothing is relayed for a link that is only down (R30 to R32, Table 15-4). -/
def reaches (s : State) (a b : Nat) : Bool :=
  a == b || (if linkOut s a b then (relayDie s a b).isSome else !linkLost s a b)

/-- The die on which the byte of a DVA lies: that of its frame, its SRAM or its queue's pool. -/
def dvaDie (s : State) (dva : Nat) : Option Nat :=
  if dva / 2 ^ 53 = 5 then some (dva % 2 ^ 16 / 16384)
  else (translate s dva).map fun a =>
    let o := a % 2 ^ 53
    match a / 2 ^ 53 with
    | 1 => o / dieHbm s.variant
    | 2 => o / 2 ^ 33
    | 3 => o / 2 ^ 32
    | _ => o / 2 ^ 24 / 96

/-- A unit reaches the memory behind a DVA. -/
def unitReaches (s : State) (u : BitVec 16) (dva : Nat) : Bool := (dvaDie s dva).all fun d => reaches s (uidDie u) d

/-- The die of a port: logical ports 0 and 1 on die 0, 2 and 3 on die 2 (R33). -/
def portDie (p : Nat) : Nat := if p < 2 then 0 else 2

/-- The unit id of a block of a logical port's physical port (Table 1-4): the MAC by its logical half, the other blocks whole. -/
def portUid (p block : Nat) : BitVec 16 := uid (portDie p) 13 1 block (if block = 1 then p % 2 else 0)

/-- The unit id of the engine, or the Feed side, that runs a stage on a core (R59, Table 1-3). -/
def stageUid (core : Nat) (engine side : Nat) : BitVec 16 :=
  uid (core / 96) (core / 8 % 12) (core % 8) engine (if engine = 6 then side + 1 else 0)

/-- The Quill pair, the Seal, the ruling generator, the Blotter writer. -/
def quillUid : BitVec 16 := uid 0 14 0 0 0
def sealUid : BitVec 16 := uid 0 14 1 0 0
def rulingUid : BitVec 16 := uid 0 14 2 0 0
def blotterUid : BitVec 16 := uid 0 14 4 0 0

/-- The HBM4 controller of a 2 MiB frame of its die: the frames of a die take its four stacks in turn (assumption log 164). -/
def frameController (frame : Nat) : Nat := frame % 4

/-- The unit id of a queue's pool; the queue is named by bits [15:0] of its DVA. -/
def poolUid (q : Nat) : BitVec 16 := clusterUid (q / 16384 * 12 + q / 1024 % 16) 11

/-- The unit id of a die's signal cells. -/
def signalsUid (die : Nat) : BitVec 16 := uid die 12 6 0 0

/-- A unit lies in a cluster: any unit id below cluster value 12 (R429). -/
def onCluster (u : BitVec 16) (k : Nat) : Bool := uidCluster u < 12 && uidClusterIndex u == k

end Sys2Proof.Machine
end

