-- ==== Sys2Proof/Machine/Sched.lean ====
section
/-! DEFINITION. Plans by slot, the ready lists and the Scribe (R76 to R83). -/

namespace Sys2Proof.Machine

/-! ### Plans -/

/-- The plan in a slot. -/
def plan? (s : State) (slot : Nat) : Option Plan := look slot s.plans

/-- A slot's plan replaced. -/
def setPlan (slot : Nat) (p : Plan) (s : State) : State := { s with plans := put slot p s.plans }

/-! ### Logical ports and the Dip token bucket (R33, R389) -/

/-- Logical port `p`. -/
def port (s : State) (p : Nat) : Port := (look p s.ports).getD Port.reset

/-- A logical port replaced. -/
def setPort (p : Nat) (x : Port) (s : State) : State := { s with ports := put p x s.ports }

/-- PORT_SPLIT in force on the physical port of a logical port. -/
def portSplit (s : State) (p : Nat) : Bool := bitAt (port s (p / 2 * 2)).live.toNat 1

/-- The RQ_RATE of every egress share bound on a logical port, summed (R389). -/
def egressRate (s : State) (p : Nat) : Nat :=
  (s.plans.flatMap fun e => e.2.bound.filter fun b => b.kind == 0xa && b.subkind == 0 && b.index == p).foldl
    (fun t b => t + b.size) 0

/-- The fill rate of the Dip token bucket per cycle, in eightieths of a byte: peak less S (R389). -/
def bucketRate (s : State) (p : Nat) : Nat := (if portSplit s p then 2104 else 4208) - 5 * egressRate s p

/-- The level of the Dip token bucket now (R389). -/
def bucketNow (s : State) (p : Nat) : Nat :=
  let x := port s p
  min (3084 * 80) (x.bucket + (s.clk.cycle - x.bucketAt) * bucketRate s p)

/-- Every port's bucket filled up to now: what a change of the bound egress shares does first, so that the new rate counts from there. -/
def settleBuckets (s : State) : State :=
  (List.range 4).foldl (fun s p => setPort p { port s p with bucket := bucketNow s p, bucketAt := s.clk.cycle } s) s

/-! ### Bound resources -/

/-- Where an abstract id of a kind is bound. -/
def boundOf (p : Plan) (kind absId : Nat) : Option Bound := p.bound.find? fun b => b.kind == kind && b.absId == absId

/-- The global core number of an abstract core id. -/
def coreOf (p : Plan) (absCore : Nat) : Option Nat := (boundOf p 1 absCore).map (·.index)

/-- The die of a bound resource. -/
def boundDie (b : Bound) : Nat := uidDie (BitVec.ofNat 16 b.unit)

/-- A SHARED_TASK's id, by its certificate entry: the spec gives it none beyond its plan slot (R93, assumption log 71). -/
def sharedId (slot entry : Nat) : Nat := slot * 2 ^ 24 + Config.sharedTask slot entry % 2 ^ 24

/-- The ranges of the core pads that hold copies of plans' weights: no stream, stage or command writes them (R101). -/
def padHeld (s : State) : List (Nat × Nat) :=
  s.plans.flatMap fun e => e.2.padCopies.filterMap fun c =>
    (e.2.image.refs.find? fun r => r.absId == c.1).map fun r => (padDva c.2 r.padOff, alignUp r.size 256)

/-- A byte string written at a DVA by a stream, a stage or a packet: the pad copies stay as they are (R101). -/
def writeFree (s : State) (dva : Nat) (bs : Bytes) : State :=
  let hs := (padHeld s).filter fun h => decide (h.1 < dva + bs.length) && decide (dva < h.1 + h.2)
  if hs.isEmpty then writeDva s dva bs
  else ((List.range bs.length).zip bs).foldl (fun s e =>
    if hs.any fun h => decide (h.1 ≤ dva + e.1) && decide (dva + e.1 < h.1 + h.2) then s else writeDva s (dva + e.1) [e.2]) s

/-- A ligature of a plan. -/
def ligOf (p : Plan) (i : Nat) : Option Ligature := p.image.ligatures[i]?

/-- The task id of a ligature (R93). -/
def taskId (slot lig : Nat) : Nat := slot * 2 ^ 24 + lig

/-- The exclusive units of a core that a stage holds, as a bit: engines 0 to 5, then the Feed's read and write side (R59). -/
def stageUnit (st : Stage) : Nat := if st.engine = 6 then 6 + st.side else st.engine

/-- The exclusive units a ligature holds, as a mask. -/
def ligUnits (l : Ligature) : Nat := l.stages.foldl (fun m st => m ||| 2 ^ stageUnit st) 0

/-- SCR_ENGINES of a mask of exclusive units (Table 2-8). -/
def scrEngines (m : Nat) : Nat := m % 64 + 64 * b2n (m / 64 != 0)

/-- The level of a margin ligature (Table 3-6). -/
def ligLevel (p : Plan) (l : Ligature) : Nat := if l.level = 0 then p.image.marginLevel else l.level

/-- The nibs of a ligature in ascending order (R96). -/
def nibsOf (l : Ligature) : List Nat := (List.range 8).filter fun n => bitAt l.nibs n

/-- Any bound plan has ruled work. -/
def anyRuled (s : State) : Bool := s.plans.any fun e => e.2.image.ruled

/-- RUL_RULED_BOUND kept as the bound plans have it (Table 2-2). -/
def refreshBound (s : State) : State :=
  { s with rul := { s.rul with status := (s.rul.status &&& ~~~(8#32)) ||| (if anyRuled s then 8#32 else 0) } }

/-! ### Clusters and the Scribe -/

/-- The scheduler of cluster `k` (die × 12 + cluster). -/
def cluster (s : State) (k : Nat) : Cluster := (look k s.sched).getD Cluster.reset

/-- A cluster's scheduler replaced. -/
def setCluster (k : Nat) (c : Cluster) (s : State) : State := { s with sched := put k c s.sched }

/-- What a Scribe record says beside its time and its sequence number (Table 2-8). -/
structure ScrRec where
  (arg engines nib plan level reason : Nat)
  (ruled late : Bool)
  (unit : BitVec 16)
  (task : Nat)
  deriving DecidableEq, Repr

/-- The Scribe record of Table 2-8; an argument of more than 32 bits reads as the largest (assumption log 182). -/
def scrPack (tickLo cycle seq : Nat) (r : ScrRec) : BitVec 256 :=
  BitVec.ofNat 256 (pack [(64, cycle), (32, seq), (32, r.task), (16, r.unit.toNat), (8, r.reason), (3, 0), (3, r.level),
    (1, b2n r.late), (1, b2n r.ruled), (8, r.plan), (8, r.nib), (8, r.engines), (8, 0), (32, satTo 32 r.arg), (32, tickLo)])

/-- SCR_CYCLE of a record. -/
def recCycle (x : BitVec 256) : Nat := x.toNat % 2 ^ 64

/-- SCR_SEQ of a record. -/
def recSeq (x : BitVec 256) : Nat := x.toNat / 2 ^ 64 % 2 ^ 32

/-- A record with the next sequence number. -/
def seqUp (x : BitVec 256) : BitVec 256 :=
  BitVec.ofNat 256 (x.toNat - recSeq x * 2 ^ 64 + (recSeq x + 1) % 2 ^ 32 * 2 ^ 64)

/-- The records a ring of so many bytes holds. -/
def scrCapacity (bytes : Nat) : Nat := bytes / 32

/-- A record put among those of a ring, newest first: behind the records of earlier and equal cycles, the later ones moving up one sequence
number, so that the ring holds the records in the order of their cycles (R82, assumption log 192). -/
def scrInsert (tickLo cycle seq : Nat) (r : ScrRec) (xs : List (BitVec 256)) : List (BitVec 256) :=
  let later := xs.takeWhile fun x => decide (cycle < recCycle x)
  later.map seqUp ++ scrPack tickLo cycle ((seq + 2 ^ 32 - later.length) % 2 ^ 32) r :: xs.drop later.length

/-- One record produced by a Scribe (R82, R83): written in WRAP mode over the oldest, in STOP mode only while the ring has room;
SCR_SEQ rises either way. An excluded trace writer writes nothing (Table 15-5). -/
def scrWrite (tickLo cycle : Nat) (writes : Bool) (r : ScrRec) (b : Scribe) : Scribe :=
  let n := scrCapacity b.bytes
  let b' := { b with seq := b.seq + 1 }
  if !writes || n = 0 then b'
  else
    let recs := scrInsert tickLo cycle b.seq.toNat r b.recs
    if b.stop && decide (n < recs.length) then
      { b' with recs := if b.unwritten = 0 then recs.drop (recs.length - n) else b.recs,
                unwritten := if b.unwritten = 0xffffffff#32 then b.unwritten else b.unwritten + 1 }
    else { b' with recs := recs.take n }

/-- A Scribe record of cluster `k` of an event at cycle `at'`. -/
def scribeAt (k at' : Nat) (r : ScrRec) (s : State) : State :=
  let c := cluster s k
  let w := !isExcluded s (clusterUid k 13)
  setCluster k { c with scribe := scrWrite (s.rul.tick.toNat % 2 ^ 32) (scrCycle s at') w r c.scribe } s

/-- A Scribe record of cluster `k` at the present cycle. -/
def scribe (k : Nat) (r : ScrRec) (s : State) : State := scribeAt k s.clk.cycle r s

/-- The record of a task: its level, plan, nib and engines taken from its plan; the engines and the nib are those of its ligature also before
it holds them (assumption log 181). -/
def taskRec (s : State) (t : Task) (unit : BitVec 16) (reason arg : Nat) (late : Bool) : ScrRec :=
  let lig := (plan? s t.slot).bind fun p => ligOf p t.lig
  { arg := arg, engines := (lig.map fun l => scrEngines (ligUnits l)).getD 0,
    nib := (lig.bind fun l => (nibsOf l).head?).getD 0xff, plan := t.slot, level := t.level, reason := reason,
    ruled := t.ruled, late := late, unit := unit, task := t.id }

/-- The first cycle from `at'` on that the insertion side of a scheduler has free (R77, R82). -/
def insertSlot (c : Cluster) (at' : Nat) : Nat :=
  let n := max at' c.nextIns
  if c.tickAt = some n then n + 1 else n

/-- A list event of the scheduler (unit 0x8 of the cluster): the insertion side gives it a cycle of its own (R82). -/
def listEvent (k : Nat) (t : Task) (reason arg : Nat) (s : State) : State :=
  let c := cluster s k
  let now := insertSlot c s.clk.cycle
  scribeAt k now (taskRec s t (clusterUid k 8) reason arg false) (setCluster k { c with nextIns := now + 1 } s)

/-- The CANCEL record of a task taken off a ready list: of the cycle of its READY where that is this one or still to come (R81), else of the
insertion side's next. -/
def cancelEvent (k : Nat) (t : Task) (s : State) : State :=
  if t.suspended.isNone && decide (s.clk.cycle ≤ t.ready) then
    scribeAt k t.ready (taskRec s t (clusterUid k 8) 3 0 false) s
  else listEvent k t 3 (b2n t.suspended.isSome) s

/-- A record of the task's core control block. -/
def coreEvent (t : Task) (reason arg : Nat) (late : Bool) (s : State) : State :=
  scribe (t.core / 8) (taskRec s t (coreUid t.core 7) reason arg late) s

/-- Margin entries in use (R76). -/
def marginUsed (c : Cluster) : Nat := (c.ready.filter fun t => !t.ruled).length

/-- Reserved entries in use (R76). -/
def ruledUsed (c : Cluster) : Nat := (c.ready.filter (·.ruled)).length

/-- A task put on its cluster's ready list in the first cycle that takes an insertion, with a READY record of that cycle (R77). -/
def makeReady (t : Task) (s : State) : State :=
  let k := t.core / 8
  let c := cluster s k
  let now := insertSlot c s.clk.cycle
  let s := setCluster k { c with ready := c.ready ++ [{ t with ready := now }], nextIns := now + 1 } s
  scribeAt k now (taskRec s t (clusterUid k 8) 1 (c.ready.length + 1) false) s

/-- A margin event held back with a BACKPRESSURE record (R80). -/
def holdBack (source : Nat) (t : Task) (s : State) : State :=
  let k := t.core / 8
  let c := cluster s k
  listEvent k t 8 source (setCluster k { c with held := c.held ++ [{ source := source, task := t }] } s)

/-- A margin task offered by a source of R77: on the list while the 3,584 margin entries have room, else held back (R80). -/
def offerMargin (source : Nat) (t : Task) (s : State) : State :=
  if marginUsed (cluster s (t.core / 8)) < 3584 then makeReady t s else holdBack source t s

/-- A suspended margin task put back with its original ready cycle and no new READY record (R79, assumption log 151); with the margin entries
full its core waits for one (R80). -/
def relist (t : Task) (s : State) : State :=
  let k := t.core / 8
  let c := cluster s k
  if marginUsed c < 3584 then setCluster k { c with ready := c.ready ++ [t] } s else holdBack (1 + t.core % 8) t s

/-- A released ruled task put on the list, or waiting for one of the 512 reserved entries (R76, R80). -/
def admitRuled (t : Task) (s : State) : State :=
  let k := t.core / 8
  let c := cluster s k
  if ruledUsed c < 512 && c.releaseWait.isEmpty then makeReady t s
  else setCluster k { c with releaseWait := c.releaseWait ++ [t] } s

/-- The releases that wait for reserved entries of a cluster take those that are free, oldest first (R80); fuel bounds them. -/
def admitWaiting (k : Nat) : Nat → State → State
  | 0, s => s
  | f + 1, s =>
    let c := cluster s k
    match c.releaseWait with
    | [] => s
    | t :: ts => if ruledUsed c < 512 then admitWaiting k f (makeReady t (setCluster k { c with releaseWait := ts } s)) else s

/-- The margin or ruled task of a ligature of a plan, not yet on a list. -/
def ligTask (s : State) (slot lig : Nat) (level : Option Nat) : Option Task :=
  match plan? s slot with
  | none => none
  | some p =>
    match ligOf p lig with
    | none => none
    | some l =>
      match coreOf p l.core with
      | none => none
      | some c => some { id := taskId slot lig, slot := slot, lig := lig, level := if l.ruled then 0 else level.getD (ligLevel p l),
                         ready := s.clk.cycle, release := s.clk.cycle, deadline := 0, core := c, ruled := l.ruled,
                         overrun := false, suspended := none }

/-- The wait a task makes before it starts (LIG_SIG_WAIT), as an abstract cell (Table 3-6). -/
def taskWait (s : State) (t : Task) : Option Nat :=
  match plan? s t.slot with
  | none => none
  | some p => match ligOf p t.lig with
    | none => none
    | some l => if l.sigWait = 0xffff then none else (boundOf p 8 l.sigWait).map (·.index)

end Sys2Proof.Machine
end

