-- ==== Sys2Proof/Machine/Signals.lean ====
section
/-! DEFINITION. Signal cells: adds, waits and host signals (R374 to R381), without the records that overflow and underflow raise. -/

namespace Sys2Proof.Machine

/-- A signal cell by its device-wide number. -/
def cell (s : State) (n : Nat) : SigCell := (look n s.cells).getD SigCell.reset

/-- A signal cell replaced. -/
def setCell (n : Nat) (c : SigCell) (s : State) : State := { s with cells := put n c s.cells }

/-- A cell is held by a bound plan or by the session (R472). -/
def cellHeld (s : State) (n : Nat) : Bool := (cell s n).bound || (cell s n).session

/-- A wait of d can be satisfied (R376). -/
def satisfiable (c : SigCell) (d : Nat) : Bool := c.min.toInt ≤ c.value.toInt - (d : Int)

/-- The oldest READY buffer of the layout that a batch write stream fills is free again (R334). -/
def freeBuffer (k : Nat × Nat) (s : State) : State :=
  match look k s.streams with
  | none => s
  | some x =>
    let key := (k.1, x.desc.param % 65536)
    match look key s.batches with
    | none => s
    | some b => match sortBy (fun x y => decide (x.2.g < y.2.g)) (b.buffers.filter fun e => e.2.ready) with
      | [] => s
      | (i, _) :: _ => { s with batches := put key { b with buffers := del i b.buffers } s.batches }

/-- A released wait starts again what waited (R377); the wait of a batch write stream is for a count of BL_SIG_FREE (R334). -/
def wake (w : Waiter) (s : State) : State :=
  match w.what with
  | .task t => if t.ruled then admitRuled t s else offerMargin 9 t s
  | .stream slot i => freeBuffer (slot, i) s
  | .commit _ _ => s
  | .unit => s

/-- The waiter entries of a die in use (R376). -/
def waiterEntries (s : State) (die : Nat) : Nat :=
  (s.cells.filter fun e => e.1 / 4096 == die).foldl (fun a e => a + e.2.waiters.length) 0

/-- A new wait on a cell (R376 step 3): satisfied at once where no waiter is queued and it can be, else queued, or held while the
die's table of 4,096 entries is full. -/
def registerWait (n : Nat) (w : Waiter) (s : State) : State :=
  let c := cell s n
  if c.waiters.isEmpty && satisfiable c w.dec then
    wake w (setCell n { c with value := c.value - BitVec.ofNat 32 w.dec } s)
  else if waiterEntries s (n / 4096) < 4096 then setCell n { c with waiters := c.waiters ++ [w] } s
  else { s with regHeld := s.regHeld ++ [(n, w)] }

/-- The held registrations of a die that find a free entry register now, oldest first, their watchdogs from this cycle on (R376, R378); fuel
bounds them. -/
def admitSome (die : Nat) : Nat → State → State
  | 0, s => s
  | f + 1, s =>
    if waiterEntries s die < 4096 then
      match s.regHeld.find? fun e => e.1 / 4096 == die with
      | some e => admitSome die f (registerWait e.1 { e.2 with since := s.clk.cycle } { s with regHeld := s.regHeld.erase e })
      | none => s
    else s

/-- The held registrations of a die take the entries that are free (R376). -/
def admitHeld (die : Nat) (s : State) : State := admitSome die s.regHeld.length s

/-- Waiters released from the front while the front one is satisfiable (R376 step 2); fuel bounds the releases. -/
def releaseWaiters (n : Nat) : Nat → State → State
  | 0, s => s
  | f + 1, s =>
    let c := cell s n
    match c.waiters with
    | [] => s
    | w :: ws =>
      if satisfiable c w.dec then
        releaseWaiters n f (admitHeld (n / 4096) (wake w
          (setCell n { c with waiters := ws, value := c.value - BitVec.ofNat 32 w.dec } s)))
      else s

/-- All waiters that can go are released. -/
def releaseAll (n : Nat) (s : State) : State := releaseWaiters n ((cell s n).waiters.length + s.regHeld.length) s

/-- A host signal merged into the one that waits for its cell or queue (R381). -/
def mergeHostSignal (queue : Bool) (num : Nat) (net value : BitVec 32) (count : Nat) (s : State) : State :=
  match s.hostSigs.find? fun h => h.queue == queue && h.num == num with
  | some h => { s with hostSigs := s.hostSigs.map fun x =>
      if x.queue == queue && x.num == num then { x with net := h.net + net, value := value, count := h.count + count } else x }
  | none => { s with hostSigs := s.hostSigs ++ [{ queue := queue, num := num, net := net, value := value, count := count }] }

/-- The value an add of `n` leaves (R375). -/
def addedValue (c : SigCell) (n : Int) : Int := max c.min.toInt (min c.max.toInt (c.value.toInt + n))

/-- How far an add passes SC_MAX (positive) or SC_MIN (negative); 0 when it stays within (R375). -/
def addExcess (c : SigCell) (n : Int) : Int :=
  let v := c.value.toInt + n
  if v > c.max.toInt then v - c.max.toInt else if v < c.min.toInt then v - c.min.toInt else 0

/-- An add applied to a cell, before its waiters (R375, R376 step 1). -/
def addCell (c : SigCell) (n : Int) : SigCell :=
  { c with value := BitVec.ofInt 32 (addedValue c n), adds := c.adds + 1,
           overflow := c.overflow || decide (addExcess c n > 0), underflow := c.underflow || decide (addExcess c n < 0) }

/-- An add applied to cell `n`, its host signal, and the waiters it releases (R376, R381). -/
def addRaw (n : Nat) (d : Int) (s : State) : State :=
  let c := cell s n
  let c' := addCell c d
  let s := setCell n c' s
  let s := if c.toHost then mergeHostSignal false n (c'.value - c.value) c'.value 0 s else s
  releaseAll n s

end Sys2Proof.Machine
end

