-- ==== Sys2Proof/Machine/Records.lean ====
section
/-! DEFINITION. Error and blot records, the Blotter ring writer, the start of self-tests (R465 to R480), and adds with their records. -/

namespace Sys2Proof.Machine

/-- An error record to be written (Table 15-2): `named` where the code's Effect names R56, `test` where it says that a self-test
follows. -/
structure ErrRec where
  (cls code : Nat)
  (unit : BitVec 16)
  (pos count plan : Nat)
  (named test : Bool)
  deriving DecidableEq, Repr

/-- A blot record to be written (Table 15-3). -/
structure BlotRec where
  (reason plan source field offset record count : Nat)
  deriving DecidableEq, Repr

/-- The resource that a SHARED_TASK or TRANSFER entry names. -/
def certBound (p : Plan) (c : Cert) : Option Bound := p.bound.find? fun b => b.kind % 16 == c.unitKind && b.absId == c.unit

/-- The die that a task entry runs on: that of its core or of its shared unit (R64). -/
def taskDie (p : Plan) (c : Cert) : Option Nat :=
  if c.kind = 1 then ((ligOf p c.index).bind fun l => coreOf p l.core).map (· / 96) else (certBound p c).map boundDie

/-- The TRANSFER entries with the die of the task entry each follows (R97); `d` is the die of the entry before the list. -/
def transferDies (p : Plan) : Option Nat → List Cert → List (Nat × Cert)
  | _, [] => []
  | d, c :: cs =>
    if c.kind = 3 then (d.map fun n => (n, c)).toList ++ transferDies p d cs else transferDies p (taskDie p c) cs

/-- A unit id names an engine that a stage holds: the whole engine, one of its blocks, or for a Feed its own side (R59, Table 1-3). -/
def holdsUnit (st : Stage) (u : BitVec 16) : Bool :=
  st.engine == uidEngine u && (st.engine != 6 || uidSub u == 0 || uidSub u == 3 || uidSub u == st.side + 1)

/-- The pages of an HBM region that a controller of its die holds (R30). -/
def pagesOn (s : State) (b : Bound) (c : Nat) : Nat :=
  ((List.range (b.size / pageBytes)).filter fun i =>
    (look (b.base / pageBytes + i) s.pages).any fun p => p.state != 0 && frameController p.frame.toNat == c).length

/-- A unit id names a bandwidth unit of a bound resource, or a part of it: of an HBM region a controller that holds pages of it (Table 2-4). -/
def bandUnit (s : State) (b : Bound) (u : BitVec 16) : Bool :=
  if b.kind = 1 then unitClass u == .core b.index && uidEngine u == 7 && (uidSub u == 0 || uidSub u == 2)
  else if b.kind = 4 then (match unitClass u with | .bankGroup d _ => d == boundDie b | _ => false)
  else if b.kind = 5 then (match unitClass u with | .controller d c => d == boundDie b && pagesOn s b c != 0 | _ => false)
  else unitClass u == unitClass (BitVec.ofNat 16 b.unit)

/-- A ruled task of a plan uses a unit: the core of a ruled ligature with its engines and, for a MATCH or AUTOMATON stage, its cluster's match unit, the unit of a SHARED_TASK, or a resource or die link
whose bandwidth unit a TRANSFER entry charges (R56, R59, R98). -/
def planRuledUses (s : State) (p : Plan) (u : BitVec 16) : Bool :=
  (p.image.certs.any fun c =>
    if c.kind = 1 then
      ((ligOf p c.index).any fun l => (coreOf p l.core).any fun n =>
        (unitClass u == .core n && (uidEngine u == 7 || l.stages.any fun st => holdsUnit st u)) ||
          (unitClass u == .matchUnit (n / 8) && l.stages.any fun st => st.engine == 3 && (st.op == 4 || st.op == 5)))
    else (certBound p c).any fun b => if c.kind = 2 then unitClass u == unitClass (BitVec.ofNat 16 b.unit) else bandUnit s b u) ||
  (transferDies p none p.image.certs).any fun e =>
    (certBound p e.2).any fun b => (linksOf s e.1 (boundDie b)).any fun l => unitClass l == unitClass u

/-- A ruled task of a bound plan uses the unit (ER_FAULT of Table 15-2). -/
def ruledUses (s : State) (u : BitVec 16) : Bool :=
  s.plans.any fun e => e.2.image.ruled && planRuledUses s e.2 u

/-- The error record of Table 15-2. -/
def errPack (time pos count unit plan verdict : Nat) (fault : Bool) (cls code : Nat) : BitVec 256 :=
  BitVec.ofNat 256 (pack [(8, code), (8, cls), (12, 0), (1, b2n fault), (1, b2n (count ≥ 2 ^ 32)), (2, verdict), (40, 0),
    (8, plan), (16, unit), (32, satTo 32 count), (64, pos), (64, time)])

/-- The blot record of Table 15-3. -/
def blotPack (time : Nat) (b : BlotRec) : BitVec 256 :=
  BitVec.ofNat 256 (pack [(8, b.reason), (8, 0x0b), (8, b.plan), (24, b.count), (16, b.field), (16, b.source), (48, b.offset),
    (64, b.record), (64, time)])

/-- One record written: into the ring the host set, else into the store of 4,096, the newest over the oldest (R470, R471). -/
def writeRec (r : BitVec 256) (s : State) : State :=
  match s.blot.ring with
  | some (dva, bytes, _) =>
    let s' := writeDva s (dva + 32 * (s.blot.written % (bytes / 32))) (le 32 r.toNat)
    { s' with blot := { s'.blot with written := s'.blot.written + 1 } }
  | none => { s with blot := { s.blot with written := s.blot.written + 1, store := (r :: s.blot.store).take 4096 } }

/-- One add on the notice cell for an error record, unless it would take the cell past SC_MAX (R472). -/
def noticeAdd (s : State) : State :=
  match s.blot.notice with
  | some n => if (cell s n).value.toInt + 1 ≤ (cell s n).max.toInt then addRaw n 1 s else s
  | none => s

/-- The segments of a unit's self-test (Table 15-4a); 0 for a unit that is never tested. -/
def testSegments (u : BitVec 16) : Nat :=
  match unitClass u with
  | .core _ =>
    if uidEngine u = 7 then (if uidSub u = 2 then 16 else 64)
    else if uidEngine u = 6 then 32 else 64
  | .cluster _ => if uidSub u = 8 then 32 else 16
  | .matchUnit _ => 1
  | .sharedCache _ => 32
  | .scribe _ => 32
  | .bankGroup _ _ => 16
  | .controller _ _ => 8
  | .compression _ _ => 32
  | .media _ _ _ => 32
  | .streamEngine _ _ => 32
  | .combiner _ => 32
  | .signals _ => 16
  | .link _ _ => 8
  | .port _ _ _ => 1
  | .device => 0

/-- A record with ER_VERDICT PENDING taken up by the unit's self-test: a test is started, or answers it when its last segment has
not begun, or a new one follows (R474). -/
def noteTest (index : Nat) (u : BitVec 16) (s : State) : State :=
  match s.tests.find? fun t => t.unit == u with
  | none =>
    let t : SelfTest := { unit := u, first := index, answered := 1, done := 0, failing := 0, since := s.clk.cycle,
                          deferred := false, host := false, nextFirst := 0, nextCount := 0 }
    { s with tests := s.tests ++ [t] }
  | some t =>
    let t' : SelfTest :=
      if t.done + 1 < testSegments u then { t with first := if t.answered = 0 then index else t.first, answered := t.answered + 1 }
      else { t with nextFirst := if t.nextCount = 0 then index else t.nextFirst, nextCount := t.nextCount + 1 }
    { s with tests := s.tests.map fun x => if x.unit == u then t' else x }

/-- A self-test follows a record that names the unit: its code says so, the unit is tested in service, and it is not excluded
(R474, R484, Table 15-4a). -/
def testFollows (s : State) (test : Bool) (u : BitVec 16) : Bool := test && testSegments u != 0 && !isExcluded s u

/-- One error record written (R465 to R467), with its notice (R472) and its self-test (R474). -/
def emitOne (e : ErrRec) (s : State) : State :=
  let t := testFollows s e.test e.unit
  let r := errPack (ptpNs s % 2 ^ 64) e.pos e.count e.unit.toNat e.plan (b2n t) (e.named || ruledUses s e.unit) e.cls e.code
  let index := s.blot.written % 2 ^ 32
  let s := noticeAdd (writeRec r s)
  if t then noteTest index e.unit s else s

/-- The first release that waits for a reserved entry and has no RUL_RESERVE_FULL record yet, with its cluster. -/
def unnoted (s : State) : Option (Nat × Task) :=
  s.sched.findSome? fun e => (e.2.releaseWait.find? fun t => !t.noted).map fun t => (e.1, t)

/-- A RUL_RESERVE_FULL record for each release that newly waits for a reserved entry (Table 2-10); fuel bounds them. It names the cluster's task
scheduler (DESIGN CHOICE, assumption log 183). -/
def noteReserve : Nat → State → State
  | 0, s => s
  | f + 1, s =>
    match unnoted s with
    | none => s
    | some (k, t) =>
      let c := cluster s k
      let s := setCluster k { c with releaseWait := c.releaseWait.map fun x => if x = t then { x with noted := true } else x } s
      noteReserve f (emitOne { cls := 1, code := 4, unit := clusterUid k 8, pos := t.id, count := 0, plan := t.slot, named := false,
                               test := false } s)

/-- The records of the releases that newly wait for a reserved entry; a notice's add can release as many more as its cell has waiters. -/
def noteReserves (s : State) : State :=
  if (unnoted s).isNone then s
  else noteReserve (s.sched.foldl (fun a e => a + e.2.releaseWait.length) 0 + s.cells.foldl (fun a e => a + e.2.waiters.length) 0) s

/-- An error record written, and what its notice's add gives rise to. -/
def emitErr (e : ErrRec) (s : State) : State := noteReserves (emitOne e s)

/-- One blot record written, or discarded and counted past 4,096 of its plan in the tick (R473). -/
def emitBlotPart (b : BlotRec) (s : State) : State :=
  let n := (look b.plan s.blot.blots).getD 0
  let s' := { s with blot := { s.blot with blots := put b.plan (n + 1) s.blot.blots } }
  if n < 4096 then writeRec (blotPack (ptpNs s % 2 ^ 64) b) s' else s'

/-- The parts of a run of more than 16,777,215 records (R468). -/
def blotParts : Nat → BlotRec → List BlotRec
  | 0, b => [b]
  | f + 1, b =>
    if b.count ≤ 16777215 then [b]
    else { b with count := 16777215 } :: blotParts f { b with count := b.count - 16777215, record := b.record + 16777215 }

/-- A blot report (R148, R468). -/
def emitBlot (b : BlotRec) (s : State) : State :=
  (blotParts (b.count / 16777215) b).foldl (fun s b => emitBlotPart b s) s

/-- An event of a code raised once per tick added to those of this tick (R515): the counts add up, the lateness of RUL_LATE_START is
the largest, and the first event's position stays. KIT_AUTH_FAIL counts per key slot, whichever port its packets came in on (Table 12-13). -/
def tickEvent (e : TickEvent) (s : State) : State :=
  let same : TickEvent → Bool := fun x => x.cls == e.cls && x.code == e.code && x.key == e.key && (x.unit == e.unit || (e.cls == 6 && e.code == 3))
  if s.tickEvents.any same then
    { s with tickEvents := s.tickEvents.map fun x =>
        if same x then { x with count := if e.cls = 1 ∧ e.code = 3 then max x.count e.count else x.count + e.count } else x }
  else { s with tickEvents := s.tickEvents ++ [e] }

/-- An add applied to a cell with the record of an overflow or underflow (R375, Table 11-9). -/
def signalAdd (n : Nat) (d : Int) (s : State) : State :=
  let c := cell s n
  let x := addExcess c d
  let s := noteReserves (addRaw n d s)
  if x = 0 then s
  else emitErr { cls := 5, code := if x > 0 then 5 else 6, unit := signalsUid (n / 4096), pos := 0, count := x.natAbs,
                 plan := c.plan.toNat, named := false, test := false } s

/-- The add of 1 to the cell an abstract id of a plan names, where it names one (R375). -/
def planAdd (slot absCell : Nat) (s : State) : State :=
  match (plan? s slot).bind fun p => boundOf p 8 absCell with
  | some b => signalAdd b.index 1 s
  | none => s

end Sys2Proof.Machine
end

