-- ==== Sys2Proof/Machine/Queues.lean ====
section
/-! DEFINITION. Inkwell queues: commit, take, mark, rewind, release, notices and word protection (R357 to R373). -/

namespace Sys2Proof.Machine

/-- A queue by bits [15:0] of its DVA. -/
def queue? (s : State) (q : Nat) : Option Queue := look q s.queues

/-- A queue replaced. -/
def setQueue (q : Nat) (x : Queue) (s : State) : State := { s with queues := put q x s.queues }

/-- The cells a packet of `n` bytes takes (R360). -/
def cellsFor (n : Nat) : Nat := max 1 (ceilDiv n 56)

/-- The cells of a queue's committed packets. -/
def heldCells (x : Queue) : Nat := x.pkts.foldl (fun a p => a + p.cells.length) 0

/-- The queues of a pool with their numbers; pools are numbered as bits [15:10] of a queue's DVA. -/
def poolQueues (s : State) (pool : Nat) : List (Nat × Queue) := s.queues.filter fun e => e.1 / 1024 == pool

/-- The request and response queues of mailbox `m` (Table 11-1), by bits [15:0] of their DVA. -/
def requestQueue (m : Nat) : Nat := 11 * 1024 + 992 + 2 * m
def responseQueue (m : Nat) : Nat := 11 * 1024 + 993 + 2 * m

/-- The bytes of packets not yet committed that a receive stream or a mailbox's requests have written for a queue (R361). -/
def asmBytes (s : State) (q : Nat) : List Nat :=
  (s.rx.filterMap fun e => if e.dest = .queue q then some (e.parts.foldl (fun n p => n + p.bytes.length) 0) else none) ++
    s.links.filterMap fun e => if requestQueue e.1 = q then e.2.parts.map (·.length) else none

/-- A neighbour table entry. -/
def neighbour (s : State) (n : Nat) : Neighbour := (look n s.neighbours).getD ⟨0, List.replicate 16 0, 0⟩

/-- The entry of the host return. -/
def hostReturn : Nat := 1024

/-- The messages that wait in a port die's transport control egress queue, by their bytes: host signals, and control packets on their way out
(R381, Table 11-1, assumption log 211). -/
def controlEgress (s : State) (q : Nat) : List Nat :=
  if q % 16384 ≠ 1023 then []
  else
    (if portDie (neighbour s hostReturn).port.toNat * 16384 + 1023 = q then s.hostSigs.map fun _ => 64 else []) ++
      (List.range 4).flatMap fun p => if portDie p * 16384 + 1023 ≠ q then [] else (port s p).out.filterMap fun f => match f.cls, f.body with
        | .control, .kit _ bs => some (32 + bs.length)
        | _, _ => none

/-- QD_HELD: the cells of a queue, those of packets not yet committed among them (Table 11-3). -/
def allCells (s : State) (q : Nat) (x : Queue) : Nat :=
  heldCells x + (asmBytes s q).foldl (fun n b => n + if b = 0 then 0 else cellsFor b) 0 +
    min x.limit ((controlEgress s q).foldl (fun n b => n + cellsFor b) 0)

/-- The cells of a pool in use. -/
def poolUsed (s : State) (pool : Nat) : List Nat := (poolQueues s pool).flatMap fun e => e.2.pkts.flatMap (·.cells)

/-- The common cells of a pool that are free (R359). -/
def commonFree (s : State) (pool : Nat) : Nat :=
  65536 - (poolQueues s pool).foldl (fun a e => a + max e.2.reserve (allCells s e.1 e.2)) 0

/-- A queue can take a packet of `n` bytes now: it is not broken, stays within its limit, and what passes its reservation is free in
the common cells (R359, R362, R373). -/
def queueRoom (s : State) (q n : Nat) : Bool :=
  match queue? s q with
  | none => false
  | some x =>
    let need := cellsFor n
    let h := allCells s q x
    !x.broken && h + need ≤ x.limit && (h + need - max h x.reserve ≤ commonFree s (q / 1024))

/-- The cells of a queue that are free to it (R390). -/
def freeTo (s : State) (q : Nat) : Nat :=
  match queue? s q with
  | none => 0
  | some x =>
    let h := allCells s q x
    min (x.limit - h) ((x.reserve - h) + commonFree s (q / 1024))

/-- A free cell of a pool: the device's choice where it is free, else the lowest free one. -/
def pickCell (used : List Nat) (choice : Nat) : Nat :=
  if choice < 65536 ∧ !used.contains choice then choice
  else ((List.range (used.length + 1)).find? fun c => !used.contains c).getD 0

/-- `n` free cells of a pool. -/
def pickCells : Nat → List Nat → Nat → List Nat
  | 0, _, _ => []
  | n + 1, used, ctr =>
    let c := pickCell used (Config.cell ctr)
    c :: pickCells n (c :: used) (ctr + 1)

/-- The plan slot that owns a queue, 0xFF for the device. -/
def queuePlan (x : Queue) : Nat := match x.owner with | .device => 0xff | .plan n => n

/-- The notice of one committed packet (R367); a margin ligature with a LIG_SIG_WAIT waits for its signal first (R377). -/
def notice (q : Nat) (x : Queue) (s : State) : State :=
  match x.noticeKind.toNat, x.owner with
  | 1, .plan slot =>
    match (plan? s slot).bind fun p => boundOf p 8 x.noticeTgt.toNat with
    | some b => signalAdd b.index 1 s
    | none => s
  | 2, .plan slot =>
    match ligTask s slot x.noticeTgt.toNat none with
    | some t =>
      if t.ruled then s
      else match taskWait s t with
      | some n => registerWait n { unit := coreUid t.core 7, dec := 1, since := s.clk.cycle, what := .task t } s
      | none => offerMargin 10 t s
    | none => s
  | 3, _ => mergeHostSignal true q 0 0 1 s
  | _, _ => s

/-- A packet that has room linked to the tail (R361). -/
def enqueue (q : Nat) (x : Queue) (tag : Nat) (bs : Bytes) (s : State) : State :=
  let cs := pickCells (cellsFor bs.length) (poolUsed s (q / 1024)) s.freeCtr
  let x' := { x with pkts := x.pkts ++ [{ bytes := bs, cells := cs, tag := tag, pos := x.committed }],
                     committed := x.committed + 1, tail := BitVec.ofNat 16 (cs.getLast?.getD 0) }
  setQueue q x' { s with freeCtr := s.freeCtr + cs.length }

/-- A packet that needs more cells than its queue may hold is discarded with INK_PKT_TOO_LONG (R362). -/
def tooLong (q : Nat) (x : Queue) (n : Nat) (s : State) : State :=
  emitErr { cls := 5, code := 4, unit := poolUid q, pos := 0, count := n, plan := queuePlan x, named := false, test := false } s

/-- A packet linked to the tail, then its notice (R361, R367). -/
def linkPacket (q : Nat) (x : Queue) (tag : Nat) (bs : Bytes) (s : State) : State := notice q x (enqueue q x tag bs s)

/-- The 64 bytes of cell `i` of a packet (R360); `next` is CELL_NEXT. -/
def cellBytes (kind : Nat) (p : Packet) (i next : Nat) : Bytes :=
  let body := slice p.bytes (56 * i) 56
  le 8 (pack [(4, kind), (4, 0), (8, p.tag), (1, b2n (i == 0)), (1, b2n (i + 1 == p.cells.length)), (6, body.length),
    (24, if i = 0 then p.bytes.length else 0), (16, next)]) ++ fit 56 body

/-- The blank cell (R363). -/
def blankCell : Bytes := zeros 64

/-- The number of the cell after cell `i` of packet `k`; a free value at the tail, where it is not meaningful. -/
def nextCell (s : State) (x : Queue) (k i : Nat) : Nat :=
  match (x.pkts[k]?).bind fun p => p.cells[i + 1]? with
  | some c => c
  | none => match (x.pkts[k + 1]?).bind fun p => p.cells[0]? with
    | some c => c
    | none => Config.cell s.freeCtr % 65536

/-- The first `n` packets freed; positions move with the list. -/
def freePackets (n : Nat) (x : Queue) : Queue :=
  { x with pkts := x.pkts.drop n, read := (x.read.1 - n, x.read.2), mark := x.mark.map fun m => (m.1 - n, m.2),
           brokenAt := x.brokenAt - n }

/-- A committed cell is at QD_READ that a consumer may take: of a broken queue only packets before the broken one (R373). -/
def takeable (x : Queue) : Bool := decide (x.read.1 < if x.broken then min x.brokenAt x.pkts.length else x.pkts.length)

/-- The cell at QD_READ taken from its queue, with the automatic release (R365, R366). -/
def takeFrom (q : Nat) (x : Queue) (s : State) : Option (Bytes × State) :=
  if !takeable x then none
  else match x.pkts[x.read.1]? with
  | none => none
  | some p =>
    let c := cellBytes x.kind.toNat p x.read.2 (nextCell s x x.read.1 x.read.2)
    if x.read.2 + 1 < p.cells.length then some (c, setQueue q { x with read := (x.read.1, x.read.2 + 1) } s)
    else
      let x' := { x with read := (x.read.1 + 1, 0) }
      some (c, setQueue q (if x.autorel && x.mark.isNone then freePackets x'.read.1 x' else x') s)

/-! ### Waits on queues (R362, R365, R370, R378) -/

/-- A wait on a queue can end: a committed cell for a consumer; for a producer the room of its packet, or that it can never have it. -/
def waitReady (s : State) (e : Nat × Waiter) : Bool :=
  match queue? s e.1 with
  | none => false
  | some x => if e.2.dec = 0 then takeable x else decide (x.limit < cellsFor (e.2.dec - 1)) || queueRoom s e.1 (e.2.dec - 1)

/-- A wait ended: a unit takes its cell, a producer's packet is linked or discarded; a stream goes on by itself. -/
def endWait (e : Nat × Waiter) (s : State) : State :=
  match queue? s e.1, e.2.what with
  | some x, .unit => ((takeFrom e.1 x s).map (·.2)).getD s
  | some x, .commit tag bs => if x.limit < cellsFor bs.length then tooLong e.1 x bs.length s else linkPacket e.1 x tag bs s
  | _, _ => s

/-- The waits on the queues of a pool that can end do, oldest first; fuel bounds them. -/
def endWaits (pool : Nat) : Nat → State → State
  | 0, s => s
  | f + 1, s =>
    match s.queueWaits.find? fun e => e.1 / 1024 == pool && waitReady s e with
    | none => s
    | some e => endWaits pool f (endWait e { s with queueWaits := s.queueWaits.erase e })

/-- What a commit to a queue or a release of its cells wakes in its pool (R359, R370). -/
def wakeQueue (q : Nat) (s : State) : State := endWaits (q / 1024) s.queueWaits.length s

/-- A wait on a queue registered, with its watchdog from this cycle on (R362, R378); a unit waits once. -/
def queueWait (q : Nat) (w : Waiter) (s : State) : State :=
  if s.queueWaits.any fun e => e.1 == q && e.2.unit == w.unit && e.2.what == w.what then s
  else { s with queueWaits := s.queueWaits ++ [(q, { w with since := s.clk.cycle })] }

/-- A packet offered to a queue by a producer (R361, R362): discarded with INK_PKT_TOO_LONG where it can never fit, linked where it
fits, else the producer waits with it. -/
def commitPacket (q : Nat) (unit : BitVec 16) (tag : Nat) (bs : Bytes) (s : State) : State :=
  match queue? s q with
  | none => s
  | some x =>
    if cellsFor bs.length > x.limit then tooLong q x bs.length s
    else if queueRoom s q bs.length then wakeQueue q (linkPacket q x tag bs s)
    else queueWait q ⟨unit, bs.length + 1, 0, .commit tag bs⟩ s

/-! ### Takes (R365, R371 to R373) -/

/-- One cell taken at QD_READ, where a committed one is there, and what its release wakes (R365, R366). -/
def takeCell (q : Nat) (x : Queue) (s : State) : Option (Bytes × State) := (takeFrom q x s).map fun r => (r.1, wakeQueue q r.2)

/-- A position for INK_UNCORRECTABLE and INK_BROKEN (R372). -/
def inkPos (q pos : Nat) : Nat := q * 2 ^ 48 + pos % 2 ^ 48

/-- The packet at QD_READ discarded unseen for an uncorrectable payload word (R372). -/
def dropPacket (q : Nat) (x : Queue) (p : Packet) (s : State) : State :=
  let x' := { x with pkts := x.pkts.eraseIdx x.read.1, read := (x.read.1, 0), brokenAt := if x.read.1 < x.brokenAt then x.brokenAt - 1 else x.brokenAt }
  emitErr { cls := 5, code := 2, unit := poolUid q, pos := inkPos q p.pos, count := 0, plan := queuePlan x, named := false,
            test := true } (wakeQueue q (setQueue q x' s))

/-- The list broken at the packet at QD_READ (R373): it and all later ones are lost, their cells freed only by the queue reset. -/
def breakQueue (q : Nat) (x : Queue) (p : Packet) (s : State) : State :=
  emitErr { cls := 5, code := 3, unit := poolUid q, pos := inkPos q p.pos, count := 0, plan := queuePlan x, named := false,
            test := true } (setQueue q { x with broken := true, brokenAt := x.read.1 } s)

/-- The whole packet at QD_READ taken by a consumer that takes packets. -/
def takePacket (q : Nat) (s : State) : Option (Bytes × State) :=
  match queue? s q with
  | none => none
  | some x =>
    if !takeable x then none
    else match x.pkts[x.read.1]? with
    | none => none
    | some p =>
      let x' := { x with read := (x.read.1 + 1, 0) }
      let x' := if x.autorel && x.mark.isNone then freePackets x'.read.1 x' else x'
      some (p.bytes, wakeQueue q (setQueue q x' s))

/-- Corrected words of a queue counted, by the queue and by its pool (R371, assumption log 203). -/
def corrected (q : Nat) (n : Nat) (s : State) : State :=
  match queue? s q with
  | none => s
  | some x =>
    if n = 0 then s
    else tickEvent { cls := 5, code := 1, unit := (poolUid q).toNat, plan := queuePlan x, key := q, pos := 0, count := n }
      (setQueue q { x with corr := satBv 8 (x.corr.toNat + n) }
        { s with poolCorr := put (q / 1024) ((look (q / 1024) s.poolCorr).getD 0 + n) s.poolCorr })

/-- The pool's check of a packet before its first cell is presented (R371 to R373): its corrected words are counted, and an uncorrectable word,
by its place among the packet's words, drops the packet or breaks the list. -/
def checkHead (q : Nat) (badWord : Option (BitVec 17)) (words : Nat) (s : State) : State :=
  match queue? s q with
  | none => s
  | some x =>
    if !takeable x || x.read.2 != 0 then s
    else
      let s := corrected q words s
      match queue? s q, x.pkts[x.read.1]?, badWord with
      | some x, some p, some w =>
        if 8 * p.cells.length ≤ w.toNat then s else if w.toNat % 8 = 0 then breakQueue q x p s else dropPacket q x p s
      | _, _, _ => s

/-- The cell at QD_READ taken, after the check of its packet. -/
def takeChecked (q : Nat) (badWord : Option (BitVec 17)) (words : Nat) (s : State) : Option (Bytes × State) × State :=
  let s := checkHead q badWord words s
  (((queue? s q).bind fun x => takeCell q x s), s)

/-- TAKE_WAIT by a unit (Table 11-4). -/
def takeWaitOp (q : Nat) (unit : BitVec 16) (badWord : Option (BitVec 17)) (words : Nat) (s : State) : State :=
  match takeChecked q badWord words s with
  | (some (_, s'), _) => s'
  | (none, s') => queueWait q ⟨unit, 0, 0, .unit⟩ s'

/-- TAKE_POLL (Table 11-4): the cell, or the blank cell at once. -/
def takePollOp (q : Nat) (badWord : Option (BitVec 17)) (words : Nat) (s : State) : Bytes × State :=
  match takeChecked q badWord words s with
  | (some (c, s'), _) => (c, s')
  | (none, s') => (blankCell, s')

/-- The cell number at a position, or a free value where there is none. -/
def cellAt (s : State) (x : Queue) (pos : Nat × Nat) : Nat :=
  match (x.pkts[pos.1]?).bind fun p => p.cells[pos.2]? with
  | some c => c
  | none => Config.cell s.freeCtr % 65536

/-- MARK (Table 11-4). -/
def markOp (q : Nat) (s : State) : State :=
  match queue? s q with
  | none => s
  | some x => setQueue q { x with mark := some x.read, markCell := BitVec.ofNat 16 (cellAt s x x.read) } s

/-- REWIND (Table 11-4): none where no mark is held. -/
def rewindOp (q : Nat) (s : State) : Option State :=
  match queue? s q with
  | none => none
  | some x => match x.mark with
    | none => none
    | some m => some (setQueue q { x with read := m } s)

/-- RELEASE (Table 11-4). -/
def releaseOp (q : Nat) (s : State) : State :=
  match queue? s q with
  | none => s
  | some x => wakeQueue q (setQueue q { freePackets x.read.1 x with mark := none } s)

/-- A pointer field of the descriptor: its reset value 0 until a packet has been committed. -/
def queuePtr (s : State) (x : Queue) (pos : Nat × Nat) : Nat := if x.committed = 0 then 0 else cellAt s x pos

/-- QD_PDOM: TCLK while a receive stream delivers to the queue, else the domain it was bound with (R364, Table 11-5). -/
def producerDomain (s : State) (q : Nat) (x : Queue) : BitVec 2 :=
  if s.rx.any fun e => e.dest == .queue q then 1 else x.pdom

/-- QD_CDOM: TCLK while a transmit stream takes from the queue, else the domain it was bound with or QUEUE_OP has left (R364, Table
11-5). -/
def consumerDomain (s : State) (q : Nat) (x : Queue) : BitVec 2 :=
  if s.tx.any fun t => t.queue == q then 1 else x.cdom

/-- The queue descriptor of Table 11-3. -/
def queueDesc (s : State) (q : Nat) (x : Queue) : BitVec 256 :=
  BitVec.ofNat 256 (pack [(56, 0), (32, x.wdog.toNat), (4, x.kind.toNat), (1, b2n x.broken), (1, b2n x.autorel),
    (1, b2n x.mark.isSome), (2, (consumerDomain s q x).toNat), (2, (producerDomain s q x).toNat), (2, x.noticeKind.toNat), (16, x.noticeTgt.toNat),
    (8, x.corr.toNat), (16, satTo 16 (x.pkts.length - x.read.1 + (controlEgress s q).length)), (17, x.reserve), (17, x.limit), (17, allCells s q x),
    (16, queuePtr s x (0, 0)), (16, x.markCell.toNat), (16, queuePtr s x x.read), (16, x.tail.toNat)])

/-- A queue emptied, as its reset leaves it (R373): cells freed, counters zeroed, QD_BROKEN cleared. -/
def emptyQueue (x : Queue) : Queue :=
  { x with pkts := [], read := (0, 0), mark := none, tail := 0, markCell := 0, committed := 0, corr := 0, broken := false,
           brokenAt := 0 }

end Sys2Proof.Machine
end

