-- ==== Sys2Proof/Machine/Mailbox.lean ====
section
/-! DEFINITION. Messages, status codes, and how Goust starts, answers and keeps a command (R416 to R430). -/

namespace Sys2Proof.Machine

/-! ### Payload layout (R420) -/

/-- A field of a payload: a number of 1, 2, 4 or 8 bytes, a byte array, or an array of elements. -/
inductive Fld where
  | num (size value : Nat)
  | arr (bs : Bytes)
  | elems (es : List Bytes)
  deriving DecidableEq, Repr

/-- The offset at which a field starts (R420). -/
def fldStart (off : Nat) : Fld → Nat
  | .num k _ => alignUp off k
  | .arr bs => if 8 ≤ bs.length then alignUp off 8 else off
  | .elems _ => alignUp off 8

/-- The bytes of a field. -/
def fldBytes : Fld → Bytes
  | .num k v => le k v
  | .arr bs => bs
  | .elems es => es.flatMap id

/-- Fields placed one after another from an offset, skipped bytes zero. -/
def layFrom : Nat → List Fld → Bytes
  | _, [] => []
  | off, f :: fs =>
    let start := fldStart off f
    let bs := fldBytes f
    zeros (start - off) ++ bs ++ layFrom (start + bs.length) fs

/-- An element {…}: its size is the offset just past its last field. -/
def element (fs : List Fld) : Bytes := layFrom 0 fs

/-- A payload: its fields and the reserved bytes up to a multiple of 8. -/
def payload (fs : List Fld) : Bytes := padTo 8 (layFrom 0 fs)

/-! ### Status codes (Tables 13-3 and 13-4) -/

def St.ok : Nat := 0x0000
def St.malformed : Nat := 0x0001
def St.unknownOpcode : Nat := 0x0002
def St.length : Nat := 0x0003
def St.invalidUnit : Nat := 0x0004
def St.pendingFull : Nat := 0x0005
def St.tagConflict : Nat := 0x0006
def St.powerState : Nat := 0x0007
def St.abandoned : Nat := 0x0008
def St.planFormat : Nat := 0x0201
def St.fit : Nat := 0x0202
def St.planState : Nat := 0x0203
def St.notReady : Nat := 0x0204
def St.rebindPending : Nat := 0x0205
def St.imageIncomplete : Nat := 0x0206
def St.noReport : Nat := 0x0207
def St.memoryRefused : Nat := 0x0301
def St.rearmRefused : Nat := 0x0302
def St.noMemory : Nat := 0x0303
def St.streamState : Nat := 0x0304
def St.sourceRefused : Nat := 0x0305
def St.noStream : Nat := 0x0306
def St.queueRefused : Nat := 0x0307
def St.cellRefused : Nat := 0x0308
def St.notHeld : Nat := 0x0309
def St.replaceFailed : Nat := 0x0401
def St.replaceRefused : Nat := 0x0402
def St.notTable : Nat := 0x0403
def St.statsMode : Nat := 0x0404
def St.readyListFull : Nat := 0x0501
def St.discRefused : Nat := 0x0502
def St.taskState : Nat := 0x0503
def St.keySlot : Nat := 0x0601
def St.tokenInvalid : Nat := 0x0602
def St.selftestBusy : Nat := 0x0701
def St.waitState : Nat := 0x0702
def St.stateRefused : Nat := 0x0801
def St.capRange : Nat := 0x0802
def St.portRefused : Nat := 0x0901
def St.keyAbsent : Nat := 0x0902
def St.noStreamSlot : Nat := 0x0903
def St.region : Nat := 0x0A01

/-! ### Messages (Table 13-2) -/

/-- A response message. -/
def message (op status tag detail : Nat) (done replay : Bool) (body : Bytes) : Bytes :=
  le 32 (pack [(16, op), (16, status), (1, 1), (1, b2n done), (1, b2n replay), (13, 0), (16, 0), (16, body.length), (16, 0),
    (32, tag), (64, detail), (64, 0)]) ++ body

/-- A stored response with MSG_REPLAY set (R427). -/
def withReplay (m : Bytes) : Bytes := le 32 (leAt m 0 32 ||| 2 ^ 34) ++ m.drop 32

/-- Mailbox `m`. -/
def mbox (s : State) (m : Nat) : Mailbox := (look m s.mboxes).getD Mailbox.reset

/-- A mailbox replaced. -/
def setMbox (m : Nat) (b : Mailbox) (s : State) : State := { s with mboxes := put m b s.mboxes }

/-- A response put on its mailbox's response queue, whose notice kind the device leaves at none, or behind the ones that wait for room
there (R364, R423). -/
def sendMessage (m : Nat) (msg : Bytes) (s : State) : State :=
  let b := mbox s m
  match queue? s (responseQueue m) with
  | some q =>
    if b.outbox.isEmpty && queueRoom s (responseQueue m) msg.length then enqueue (responseQueue m) q m msg s
    else setMbox m { b with outbox := b.outbox ++ [msg] } s
  | none => setMbox m { b with outbox := b.outbox ++ [msg] } s

/-- Goust runs: the start-up has reached it, nothing has halted the Quill, and the 12 V supply holds (R494, R501, Table 15-4). -/
def goustUp (s : State) : Bool :=
  !s.halted && s.boot.stage == 5#4 && (s.pwr.state == .run || s.pwr.state == .dormant)

/-! ### Starting and answering a command -/

/-- What a command's body comes to: done at once, accepted with its first response, held until later, refused with nothing changed,
or refused with what its own rule changes all the same. -/
inductive CmdRes where
  | ok (s : State) (body : Bytes)
  | accept (s : State) (kind : PendKind) (body : Bytes)
  | hold (s : State)
  | fail (status detail : Nat)
  | failWith (s : State) (status detail : Nat)

/-- A command as Goust sees it: its opcode, its Done form, the payload bytes its fields imply, its fields with whether each lies outside
its allowed set, by payload offset, the unit ids it carries, by payload offset, and its body. -/
structure Cmd where
  op : Nat
  pending : Bool
  len : Nat
  bad : List (Nat × Bool)
  units : List (Nat × BitVec 16)
  body : State → CmdRes

/-- A completed command kept among the 16 most recent ones (R427). -/
def keepDone (m : Nat) (k : Kept) (s : State) : State :=
  let b := mbox s m
  setMbox m { b with done := (k :: b.done).take 16 } s

/-- The final response of a command, sent and kept. -/
def answer (r : Req) (op status detail : Nat) (body : Bytes) (s : State) : State :=
  let msg := message op status r.tag.toNat detail true false body
  keepDone r.mailbox.toNat { tag := r.tag, crc := r.crc, op := op, resp := msg } (sendMessage r.mailbox.toNat msg s)

/-- The first response of an accepted command, which is then pending. -/
def acceptCmd (r : Req) (op : Nat) (kind : PendKind) (body : Bytes) (s : State) : State :=
  let m := r.mailbox.toNat
  let msg := message op St.ok r.tag.toNat 0 false false body
  let s := sendMessage m msg s
  let b := mbox s m
  setMbox m { b with pend := b.pend ++ [{ kept := { tag := r.tag, crc := r.crc, op := op, resp := msg }, kind := kind }] } s

/-- A pending command may still have its final response: once a warm reset has been accepted, only that reset's own (R430). -/
def mayAnswer (s : State) (k : PendKind) : Bool :=
  !s.pwr.warm || match k with | .reset n _ => n == 1 | _ => false

/-- The final response of the pending commands of one kind (R419, R430); with the Quill halted the mailboxes stop (Table 15-4). -/
def finalAnswer (kind : PendKind → Bool) (status detail : Nat) (body : Bytes) (s : State) : State :=
  if s.halted then s
  else s.mboxes.foldl (fun s e =>
    e.2.pend.foldl (fun s c =>
      if kind c.kind && mayAnswer s c.kind then
        let msg := message c.kept.op status c.kept.tag.toNat detail true false body
        let s := keepDone e.1 { c.kept with resp := msg } (sendMessage e.1 msg s)
        let b := mbox s e.1
        setMbox e.1 { b with pend := b.pend.filter fun x => !(kind x.kind && mayAnswer s x.kind) } s
      else s) s) s

/-- The tag, mailbox and CRC of a command that is still executing. -/
def heldReq : Instr → Option Req
  | .planLoad r _ _ _ _ _ => some r
  | _ => none

/-- What a request's tag matches among those kept (R427): nothing, a command still executing, or one answered, with its CRC and the
response to resend. -/
inductive TagMatch where
  | fresh
  | executing (crc : BitVec 32)
  | answered (crc : BitVec 32) (resp : Bytes)
  deriving DecidableEq, Repr

/-- The match of a tag on its mailbox (R427). -/
def tagMatch (s : State) (r : Req) : TagMatch :=
  let b := mbox s r.mailbox.toNat
  match (b.pend.map (·.kept) ++ b.done).find? fun k => k.tag == r.tag with
  | some k => .answered k.crc k.resp
  | none =>
    match s.heldLoads.findSome? fun e => match heldReq e.1 with
      | some q => if q.mailbox == r.mailbox && q.tag == r.tag then some q.crc else none
      | none => none with
    | some c => .executing c
    | none => .fresh

/-- The payload offsets of a message's fields count from the start of the message (Table 13-3). -/
def badOffset (r : Req) (c : Cmd) : Option Nat :=
  let fields := (c.bad.filter (·.2)).map fun e => e.1 + 32
  match r.bad, fields with
  | some b, f :: fs => some ((f :: fs).foldl min b.toNat)
  | some b, [] => some b.toNat
  | none, f :: fs => some (fs.foldl min f)
  | none, [] => none

/-- The command is allowed in the present power state, and names no cluster that is off (R429). -/
def powerAllows (s : State) (c : Cmd) : Bool :=
  (s.pwr.state != .dormant || c.op / 256 == 1 || c.op / 256 == 6 || c.op / 256 == 8 || c.op == 0x0702) &&
    c.units.all fun u => !(uidCluster u.2 < 12 && (cluster s (uidClusterIndex u.2)).off)

/-- What stops a command before its body runs, as status and detail, in the order length, fields, unit ids, power state, pending
commands (Table 13-3; assumption log 11). -/
def refusal (s : State) (r : Req) (c : Cmd) : Option (Nat × Nat) :=
  if r.length.toNat ≠ r.present.toNat ∨ r.length.toNat ≠ c.len then some (St.length, c.len)
  else match badOffset r c with
  | some o => some (St.malformed, o)
  | none =>
    match c.units.find? fun u => !unitOk u.2 with
    | some u => some (St.invalidUnit, u.1 + 32)
    | none =>
      if !powerAllows s c then some (St.powerState, 0)
      else if c.pending && 16 ≤ (mbox s r.mailbox.toNat).pend.length then some (St.pendingFull, 0)
      else none

/-- A command's body carried out and answered (R419, R422): a refusal changes nothing but the answer. -/
def runCmd (r : Req) (c : Cmd) (s : State) : State :=
  match c.body s with
  | .ok s' body => answer r c.op St.ok 0 body s'
  | .accept s' kind body => acceptCmd r c.op kind body s'
  | .hold s' => s'
  | .fail status detail => answer r c.op status detail [] s
  | .failWith s' status detail => answer r c.op status detail [] s'

/-- Goust carries a request out: it runs, the tag is new and nothing refuses the command. -/
def starts (s : State) (r : Req) (c : Cmd) : Bool := goustUp s && tagMatch s r == .fresh && (refusal s r c).isNone

/-- A request of an opcode by its tag (R427): a duplicate is discarded or answered again, a new one goes on to `fresh`. -/
def byTag (r : Req) (op : Nat) (fresh : State → State) (s : State) : State :=
  if !goustUp s then s
  else match tagMatch s r with
  | .executing crc =>
    if crc = r.crc then s
    else sendMessage r.mailbox.toNat (message op St.tagConflict r.tag.toNat 0 true false []) s
  | .answered crc resp =>
    if crc = r.crc then sendMessage r.mailbox.toNat (withReplay resp) s
    else sendMessage r.mailbox.toNat (message op St.tagConflict r.tag.toNat 0 true false []) s
  | .fresh => fresh s

/-- A request as Goust handles it (R417, R421, R427). -/
def goust (r : Req) (c : Cmd) (s : State) : State :=
  byTag r c.op (fun s => match refusal s r c with
    | some e => answer r c.op e.1 e.2 [] s
    | none => runCmd r c s) s

/-- A pending command whose effect is whole at once: its final response follows the first (R419). -/
def goustNow (r : Req) (c : Cmd) (kind : PendKind → Bool) (s : State) : State :=
  if starts s r c then finalAnswer kind St.ok 0 [] (goust r c s) else goust r c s

/-- A command without unit ids whose response is immediate. -/
def icmd (op len : Nat) (bad : List (Nat × Bool)) (body : State → CmdRes) : Cmd :=
  { op := op, pending := false, len := len, bad := bad, units := [], body := body }

/-- A command without unit ids that stays pending. -/
def pcmd (op len : Nat) (bad : List (Nat × Bool)) (body : State → CmdRes) : Cmd :=
  { op := op, pending := true, len := len, bad := bad, units := [], body := body }

end Sys2Proof.Machine
end

