-- ==== Sys2Proof/Machine/Ruling.lean ====
section
/-! DEFINITION. The tick, PTP discipline, ruled releases, dispatch and overrun (R42 to R84). -/

namespace Sys2Proof.Machine

/-! ### The registers -/

/-- A field of RUL_STATUS written. -/
def setStatus (hi lo v : Nat) (s : State) : State :=
  let old := s.rul.status.toNat
  { s with rul := { s.rul with status := BitVec.ofNat 32 (old - fld hi lo old * 2 ^ lo + v * 2 ^ lo) } }

/-- RUL_LOCK (Table 2-2). -/
def lockOf (s : State) : Nat := fld 5 4 s.rul.status.toNat

/-- RUL_LOCK written. -/
def setLock (v : Nat) (s : State) : State := setStatus 5 4 v s

/-- RUL_OVERRUN_PEND. -/
def overrunPend (s : State) : Bool := bitAt s.rul.status.toNat 7

/-- Any plan has ruled work bound (RUL_RULED_BOUND). -/
def ruledBound (s : State) : Bool := bitAt s.rul.status.toNat 3

/-- The response of RULING_READ (Table 13-10). -/
def rulingBody (s : State) : Bytes :=
  payload [.num 8 s.rul.cfg.toNat, .num 4 s.rul.status.toNat, .num 8 s.rul.tick.toNat, .num 8 (ptpNs s / 10 ^ 9),
    .num 4 (ptpNs s % 10 ^ 9)]

/-- RULING_READ (R45). -/
def execRulingRead (r : Req) (s : State) : Host.Outcome State Fault Refusal :=
  .next (goust r (icmd 0x0501 0 [] fun s => .ok s (rulingBody s)) s)

/-- A write of 1 to W1C bits of RUL_STATUS (Table 2-2); clearing RUL_OVERRUN_PEND clears RUL_OVERRUN_CNT and the units R75 spares. -/
def ackStatus (value : BitVec 32) (s : State) : State :=
  let s := if bitAt value.toNat 7 then
      { setStatus 31 16 0 (setStatus 7 7 0 s) with rul := { (setStatus 31 16 0 (setStatus 7 7 0 s)).rul with overrunUnits := [] } }
    else s
  if bitAt value.toNat 6 then setStatus 6 6 0 s else s

/-- RULING_ACK (R17, Table 2-2): reserved bits are [15:9] and [2:0]. -/
def execRulingAck (r : Req) (value : BitVec 32) (s : State) : Host.Outcome State Fault Refusal :=
  .next (goust r (icmd 0x0503 8 [(0, fld 2 0 value.toNat != 0), (1, fld 15 9 value.toNat != 0)] fun s => .ok (ackStatus value s) []) s)

/-! ### Edges and discipline -/

/-- The period in ns, for a period that R48 admits. -/
def periodNs (s : State) : Nat := period s * 10 / 19

/-- The tick number of the aligned time nearest to `t`, and that time (R49, R50); midway between two the later one (assumption log 152). -/
def nearestAligned (s : State) (t : Nat) : Nat × Nat :=
  let T := periodNs s
  let d := (t : Int) - phaseNs s
  let k := if T = 0 then 0 else ((2 * d + T) / (2 * T)).toNat
  (k, k * T + phaseNs s)

/-- How late the last edge was against its aligned time, in ns (R50, R52). -/
def edgeError (s : State) : Int :=
  let t : Int := (cyclesToNs s.clk.edge : Int) + s.ptp.offset
  match s.rul.anchor with
  | some (k, t0) => t - ((t0 : Int) + ((nowTick s : Int) - k) * periodNs s)
  | none => t - (nearestAligned s t.toNat).2

/-- The length of the next tick: P, corrected by at most D towards the aligned time under discipline (R51); the last length within D of P
in holdover (R51, R52). -/
def nextLength (s : State) (step : Bool) : Nat :=
  let p := period s
  let d : Int := ditherOf p
  if !disciplined s then p
  else if lockOf s = 3 then (max (p - d) (min (p + d) (s.clk.len : Int))).toNat
  else
    let e := edgeError s * 19 / 10
    if step then ((p : Int) - e).toNat else ((p : Int) - max (-d) (min d e)).toNat

/-- How a code of R515 is raised at the edge: its R56 and its self-test (Tables 2-10, 11-9, 12-13, 14-11, 15-4). -/
def edgeRecord (e : TickEvent) : ErrRec :=
  let test := match e.cls, e.code with
    | 2, 13 => true
    | 3, 3 => 16 ≤ e.count
    | 5, 1 => true
    | 6, 2 => true
    | _, _ => false
  { cls := e.cls, code := e.code, unit := BitVec.ofNat 16 e.unit, pos := e.pos, count := e.count, plan := e.plan,
    named := e.cls == 2 && e.code == 13, test := test }

/-- The events of the tick raised at its closing edge (R515), then BLOT_SUPPRESSED for each plan past 4,096 blot records (R473). -/
def edgeRecords (s : State) : State :=
  let s := s.tickEvents.foldl (fun s e => emitErr (edgeRecord e) s) { s with tickEvents := [] }
  let s := s.blot.blots.foldl (fun s b =>
    if b.2 ≤ 4096 then s
    else emitErr { cls := 10, code := 3, unit := blotterUid, pos := 0, count := b.2 - 4096, plan := b.1, named := false,
                   test := false } s) s
  { s with blot := { s.blot with blots := [] } }

/-- A reported event of the tick as R515 merges it. -/
def tickReport (e : TickReport) : TickEvent :=
  { cls := if e.kind then 8 else 3, code := if e.kind then 1 else 3, unit := e.unit.toNat, plan := 0xff,
    key := 0, pos := 0, count := e.count.toNat }

/-- A period that waits for this edge is in force from it (R47); the tick's correction stays (R51). Under discipline the edges aim from here at
the aligned times of the new period, the first nearest to the time this edge was aimed at (R49, assumption log 13). -/
def applyPeriod (s : State) : State :=
  match s.rul.nextPeriod with
  | none => s
  | some p =>
    let c := s.rul.cfg.toNat
    let aim := s.rul.anchor.map fun a => a.2 + (nowTick s - a.1) * periodNs s
    let s' := { s with clk := { s.clk with len := s.clk.len + p - period s },
                       rul := { s.rul with cfg := BitVec.ofNat 64 (c - fld 26 0 c + p), nextPeriod := none } }
    { s' with rul := { s'.rul with anchor := aim.map fun t => (nowTick s, (nearestAligned s' t).2) } }

/-- The consecutive ticks whose phase error stays within 10 ns (R52). -/
def countAligned (s : State) : State :=
  if disciplined s && !s.rul.stepPend then
    { s with rul := { s.rul with aligned := if (edgeError s).natAbs ≤ 10 then s.rul.aligned + 1 else 0 } }
  else { s with rul := { s.rul with aligned := 0 } }

/-- The period changes asked for and not yet in force. -/
def periodsWaiting (s : State) : Nat :=
  b2n s.rul.nextPeriod.isSome + (s.actions.filter fun a => match a.act with | .periodChange _ => true | _ => false).length

/-- No period change is still to come. -/
def periodSettled (s : State) : Bool := periodsWaiting s == 0

/-- RUL_TICK as the next edge carries it: it has advanced once the guard band has opened (R44, Table 2-5). -/
def advanceTick (s : State) : State := { s with rul := { s.rul with tick := s.rul.tick + 1 } }

/-- The answer of each RULING_SET with the tick now in progress, once its own period change and its discipline are in force (R46, R50, R434). -/
def answerRuling (s : State) : State :=
  if s.rul.stepPend then s
  else finalAnswer (fun k => match k with | .ruling n => decide (n + periodsWaiting s ≤ s.rul.asked) | _ => false) St.ok 0
    (payload [.num 8 (nowTick s)]) s

/-- The edge that opens the next tick: its number, its length, and what waits for it (R42, R44, R46, R47, R51). -/
def tickEdge (events : List TickReport) (s : State) : State :=
  let s := advanceTo (s.clk.edge + s.clk.len) s
  let s := events.foldl (fun s e => tickEvent (tickReport e) s) s
  let s := edgeRecords s
  let s := if s.clk.guard then s else advanceTick s
  let s := { s with clk := { s.clk with edge := s.clk.cycle, guard := false }, rul := { s.rul with stepDue := s.rul.stepPend, surveyTicks := s.rul.surveyTicks + 1 } }
  let s := countAligned (applyPeriod s)
  let s := if periodSettled s then setStatus 8 8 0 s else s
  { s with clk := { s.clk with len := nextLength s false } }

/-- RUL_LOCK_LOCKED: the phase error has stayed within ±19 cycles for 16 consecutive ticks (R52). -/
def execRulLockLocked (s : State) : Host.Outcome State Fault Refusal :=
  .next (if disciplined s && lockOf s == 1 && 16 ≤ s.rul.aligned then setLock 2 s else s)

/-- PTP_HOLDOVER: no valid servo update for 2 s under discipline (R52). -/
def execPtpHoldover (s : State) : Host.Outcome State Fault Refusal :=
  if disciplined s && lockOf s != 3 && lockOf s != 0 then
    .next (emitErr { cls := 1, code := 6, unit := rulingUid, pos := 0, count := 0, plan := 0xff, named := false, test := false }
      (setLock 3 (advanceTo (s.ptp.lastUpdate + 3800000000) s)))
  else .next s

/-! ### Releases -/

/-- The ruled task of a certificate entry of a plan, released now. -/
def ruledTask (s : State) (slot : Nat) (c : Cert) : Option Task :=
  (ligTask s slot c.index none).map fun t =>
    { t with release := s.clk.edge + c.release, deadline := s.clk.edge + c.release + c.claim }

/-- The margin tasks running on a core that hold one of some units. -/
def holders (s : State) (core units : Nat) : List Running :=
  (cluster s (core / 8)).running.filter fun r => !r.task.ruled && r.task.core == core && r.engines &&& units != 0

/-- A margin task suspended: off its engines and back on the ready list at its level with its original ready cycle (R79). -/
def suspendRun (s : State) (r : Running) : State :=
  let k := r.task.core / 8
  let c := cluster s k
  relist { r.task with suspended := some s.clk.cycle, ran := r.task.ran + (s.clk.cycle - r.since) }
    (setCluster k { c with running := c.running.erase r } s)

/-- A margin task suspended for a ruled release, with its PREEMPT record. -/
def preempt (release : Nat) (s : State) (r : Running) : State :=
  coreEvent r.task 4 (s.clk.cycle - release) false (suspendRun s r)

/-- A released ruled ligature put on the list, or waiting for one of the 512 reserved entries with RUL_RESERVE_FULL (R76, R80). -/
def listRuled (t : Task) (s : State) : State := noteReserves (admitRuled t s)

/-- A wait registered, with the records of releases it leaves without a reserved entry (R80, R376). -/
def waitOn (n : Nat) (w : Waiter) (s : State) : State := noteReserves (registerWait n w s)

/-- A released ligature of a plan: its wait registered or the task listed, and its margin holders suspended (R53, R79, R82, R377). -/
def releaseLig (t : Task) (units : Nat) (s : State) : State :=
  let hs := holders s t.core units
  let s := match taskWait s t with
    | some n => waitOn n { unit := coreUid t.core 7, dec := 1, since := s.clk.cycle, what := .task t } s
    | none => listRuled t s
  hs.foldl (preempt t.release) s

/-- A margin task from a source of R77: its wait registered, or the task offered to the list. -/
def startMargin (source : Nat) (t : Task) (s : State) : State :=
  match taskWait s t with
  | some n => waitOn n { unit := coreUid t.core 7, dec := 1, since := s.clk.cycle, what := .task t } s
  | none => offerMargin source t s

/-- A task that waits, where a wait is one of a ruled task. -/
def ruledWaiter (w : Waiter) : Option Task := match w.what with | .task t => if t.ruled then some t else none | _ => none

/-- The waits registered, held for want of an entry, and parked. -/
def allWaiters (s : State) : List Waiter :=
  (s.cells.flatMap fun e => e.2.waiters) ++ s.regHeld.map (·.2) ++ s.parked.map (·.waiter)

/-- The ruled tasks released and not completed. -/
def ruledOpen (s : State) : List Task :=
  (s.sched.flatMap fun e => (e.2.ready ++ e.2.releaseWait ++ e.2.running.map (·.task)).filter (·.ruled)) ++
    (allWaiters s).filterMap ruledWaiter

/-- The exclusive units of a task's ligature, as a mask. -/
def taskUnits (s : State) (t : Task) : Nat := (((plan? s t.slot).bind fun p => ligOf p t.lig).map ligUnits).getD 0

/-- The interval of a certificate entry is open in this tick, with the headroom of its claim (R65). -/
def intervalOpen (s : State) (c : Cert) : Bool :=
  decide (s.clk.edge + c.release ≤ s.clk.cycle) && decide (s.clk.cycle < s.clk.edge + c.release + c.claim)

/-- The ruled ligatures of a core whose interval of this tick is open now, from the release to its claim's end, with their plans' slots (R60,
R65). -/
def openIntervals (s : State) (core : Nat) : List (Nat × Ligature) :=
  s.plans.flatMap fun e =>
    if e.2.state == .loaded || e.2.retireBands != 0 then []
    else e.2.image.certs.filterMap fun c =>
      if c.kind == 1 && intervalOpen s c then
        (ligOf e.2 c.index).bind fun l => if coreOf e.2 l.core == some core then some (e.1, l) else none
      else none

/-- The exclusive units of a core that no margin task may start on: those inside their ruled intervals, with the headroom of the claims,
and those of ruled tasks released and not completed (R57, R60, R65, assumption log 154). -/
def ruledHolds (s : State) (core : Nat) : Nat :=
  ((openIntervals s core).map (fun e => ligUnits e.2) ++ ((ruledOpen s).filter fun t => t.core == core).map (taskUnits s)).foldl (· ||| ·) 0

/-- A side of a core's Feed is inside a ruled interval, or kept by a late ruled task, of a ligature that does not name the stream itself
(R57, R65). -/
def feedHeld (s : State) (core side : Nat) (k : Nat × Nat) : Bool :=
  let late := ((ruledOpen s).filter fun t => t.core == core).filterMap fun t => ((plan? s t.slot).bind fun p => ligOf p t.lig).map fun l => (t.slot, l)
  (openIntervals s core ++ late).any fun e => e.2.stages.any fun st => st.engine == 6 && st.side == side && (e.1, st.param) != k

/-- A unit is inside a ruled interval of a SHARED_TASK, or kept by a late one (R57, R65). -/
def sharedHeld (s : State) (unit : BitVec 16) : Bool :=
  (s.plans.any fun e => e.2.state != .loaded && e.2.image.certs.any fun c => c.kind == 2 && intervalOpen s c &&
    (certBound e.2 c).any fun b => BitVec.ofNat 16 b.unit == unit) ||
    s.rul.shared.any (·.unit == unit) || s.streams.any fun e => e.2.ruled && e.2.owed != 0 && e.2.unit == unit

/-- Ruled work keeps the margin stream `k` off the stream engine or Feed side that runs it (R57, R65). -/
def unitHeld (s : State) (k : Nat × Nat) (unit : BitVec 16) : Bool :=
  if uidCluster unit < 12 then feedHeld s (uidCoreNumber unit) (uidSub unit - 1) k else sharedHeld s unit

/-- The cores whose units an admitted boundary action names; no margin task starts there in the guard band (R67). -/
def actionCores (s : State) : List Nat :=
  s.actions.flatMap fun a =>
    match a.act with
    | .rebindCommit n =>
      if a.admitted && s.clk.guard then
        (((plan? s n).bind (·.rebind)).map fun r => ((r.olds ++ r.news).filter fun b => b.kind == 1).map (·.index)).getD []
      else []
    | _ => []

/-- A ready task can start on its core now: its units are free there (R78); a margin task also needs the fraction of R505, units that ruled
work leaves to it (R57), and a core that no admitted action names (R67). -/
def eligible (s : State) (c : Cluster) (core : Nat) (t : Task) : Bool :=
  t.core == core &&
    (match (plan? s t.slot).bind fun p => ligOf p t.lig with
     | none => false
     | some l => (c.running.all fun r => r.task.core != core || r.engines &&& ligUnits l == 0) &&
         (t.ruled || (s.pwr.f != 0 && ruledHolds s core &&& ligUnits l == 0 && !(actionCores s).contains core)))

/-- The order in which eligible tasks are picked (R78): level, ready cycle, task id. -/
def before (a b : Task) : Bool :=
  a.level < b.level || (a.level == b.level && (a.ready < b.ready || (a.ready == b.ready && a.id < b.id)))

/-- The first of a list of tasks in the order of R78. -/
def pickTask : List Task → Option Task
  | [] => none
  | t :: ts => match pickTask ts with
    | none => some t
    | some u => if before u t then some u else some t

/-- A ruled task starts late when it is granted more than the 32 cycles of R60 after its release, or its unit missed the edge (R73, Table
2-10). -/
def startsLate (s : State) (t : Task) : Bool := t.ruled && (t.missed || decide (t.release + 32 < s.clk.cycle))

/-- The unit a task starts on: that of its first stage (assumption log 155). -/
def firstUnit (s : State) (t : Task) : BitVec 16 :=
  match ((plan? s t.slot).bind fun p => ligOf p t.lig).bind fun l => l.stages.head? with
  | some st => stageUid t.core st.engine st.side
  | none => coreUid t.core 7

/-- The record of a late start on a unit, with RUL_LATE_PEND at the first (R73, R515). -/
def lateStart (unit : BitVec 16) (slot id lateness : Nat) (s : State) : State :=
  tickEvent { cls := 1, code := 3, unit := unit.toNat, plan := slot, key := 0, pos := id, count := lateness } (setStatus 6 6 1 s)

/-- The record of a task's late start: the largest lateness of its unit in the tick (R73). -/
def noteLate (t : Task) (s : State) : State :=
  if startsLate s t then lateStart (firstUnit s t) t.slot t.id (s.clk.cycle - t.release) s else s

/-- A grant (R78): DISPATCH, or RESUME for a suspended task (R79), by the core's control block (assumption log 156); a reserved entry freed
by it goes to a release that waits (R80). -/
def grant (k : Nat) (t : Task) (s : State) : State :=
  let c := cluster s k
  let late := startsLate s t
  let begun := t.begun.getD s.clk.cycle
  let run : Running := { task := { t with suspended := none, begun := some begun }, engines := taskUnits s t, started := begun,
                         late := late, since := s.clk.cycle }
  let s := setCluster k { c with ready := c.ready.erase t, idle := c.idle.filter (· != t.core), running := c.running ++ [run],
                                 nextGrant := s.clk.cycle + 1 } s
  let s := match t.suspended with
    | some at' => scribe k (taskRec s t (coreUid t.core 7) 5 (s.clk.cycle - at') late) s
    | none => scribe k (taskRec s t (coreUid t.core 7) 2 (s.clk.cycle - if t.ruled then t.release else t.ready) late) s
  let s := noteLate t s
  if t.ruled then admitWaiting k (cluster s k).releaseWait.length s else s

/-- A core with no eligible task clock-gates its idle engines, with an IDLE record (R78, Table 2-9). -/
def goIdle (k core : Nat) (s : State) : State :=
  let c := cluster s k
  if c.idle.contains core then s
  else scribe k { arg := 0, engines := 0, nib := 0xff, plan := 0xff, level := 0, reason := 9, ruled := false, late := false,
                  unit := coreUid core 7, task := 0 } (setCluster k { c with idle := core :: c.idle } s)

/-- The task of a core that is granted now, among those whose insertion has been taken (R77, R78). -/
def nextTask (s : State) (c : Cluster) (core : Nat) : Option Task :=
  pickTask (c.ready.filter fun t => eligible s c core t && decide (t.ready ≤ s.clk.cycle))

/-- The first cycle in which an insertion of a task that a core could run is taken. -/
def nextInsertion (s : State) (c : Cluster) (core : Nat) : Option Nat :=
  (c.ready.filter (eligible s c core)).foldl (fun m t => some (match m with | some x => min x t.ready | none => t.ready)) none

/-- DISPATCH: a core of a cluster asks for work, and is granted it once there is some (R78). -/
def execDispatch (k : BitVec 6) (core : BitVec 3) (s : State) : Host.Outcome State Fault Refusal :=
  let c := cluster s k.toNat
  let n := k.toNat * 8 + core.toNat
  if 48 ≤ k.toNat ∨ c.off then .next s
  else match nextInsertion s c n with
  | none => .next (goIdle k.toNat n s)
  | some at' =>
    let s := advanceTo (max at' c.nextGrant) s
    match nextTask s c n with
    | some t => .next (grant k.toNat t s)
    | none => .next (goIdle k.toNat n s)

/-- The held event that is taken first: the lowest source number, oldest first (R80). -/
def pickHeld : List Held → Option Held
  | [] => none
  | h :: hs => match pickHeld hs with
    | none => some h
    | some g => if g.source < h.source then some g else some h

/-- HELD_EVENT_OFFERED: a margin entry is free and a held event is offered again (R80); a suspended task goes back as it was. -/
def execHeldEventOffered (k : BitVec 6) (s : State) : Host.Outcome State Fault Refusal :=
  let c := cluster s k.toNat
  if marginUsed c < 3584 then
    match pickHeld c.held with
    | some h =>
      let s := setCluster k.toNat { c with held := c.held.erase h } s
      .next (if h.task.suspended.isSome then relist h.task s else makeReady h.task s)
    | none => .next s
  else .next s

/-- The running task of an id, with its cluster. -/
def findRunning (s : State) (id : Nat) : Option (Nat × Running) :=
  s.sched.findSome? fun e => (e.2.running.find? fun r => r.task.id == id).map fun r => (e.1, r)

/-- The record of a late task's end, on the unit named when it passed its deadline (R72). -/
def overrunEnd (t : Task) (s : State) : State :=
  if t.overrun then emitErr { cls := 1, code := 2, unit := t.lateUnit, pos := t.id, count := s.clk.cycle - t.deadline, plan := t.slot,
                              named := false, test := false } s
  else s

/-- The groups of a nib, newest first. -/
def nibGroups (s : State) (n : Nat) : List Group := (look n s.nibs).getD []

/-- The last stage has finished the last group that each nib of a ligature holds (R96). -/
def ligatureDone (s : State) (l : Ligature) (r : Running) : Bool :=
  let ns := nibsOf l
  let n := min ns.length l.groups
  (List.range n).all fun i =>
    let g := l.groups - n + i
    match ns[g % ns.length]? with
    | none => false
    | some nib => (nibGroups s (r.task.core * 8 + nib)).any fun x =>
        x.slot == r.task.slot && x.lig == r.task.lig && x.started == r.started && x.num == g && x.next == l.stages.length

/-- LIGATURE_COMPLETE: the last stage has finished the last group (R96): COMPLETE, RUL_OVERRUN_END, and the add of LIG_SIG_DONE. -/
def execLigatureComplete (task : BitVec 32) (s : State) : Host.Outcome State Fault Refusal :=
  match findRunning s task.toNat with
  | none => .next s
  | some (k, r) =>
    match (plan? s r.task.slot).bind fun p => ligOf p r.task.lig with
    | none => .next s
    | some l =>
      if !ligatureDone s l r then .next s
      else
        let c := cluster s k
        let s := setCluster k { c with running := c.running.erase r } s
        let s := coreEvent r.task 6 (r.task.ran + (s.clk.cycle - r.since)) (r.late || r.task.overrun) s
        .next (planAdd r.task.slot l.sigDone (overrunEnd r.task s))

/-- A change of every task, wherever it stands. -/
def mapTasks (f : Task → Task) (s : State) : State :=
  let mw : Waiter → Waiter := fun w => match w.what with | .task t => { w with what := .task (f t) } | _ => w
  { s with sched := s.sched.map fun e => (e.1, { e.2 with ready := e.2.ready.map f, releaseWait := e.2.releaseWait.map f,
                                                          running := e.2.running.map fun r => { r with task := f r.task } }),
           cells := s.cells.map fun e => (e.1, { e.2 with waiters := e.2.waiters.map mw }),
           regHeld := s.regHeld.map fun e => (e.1, mw e.2), parked := s.parked.map fun p => { p with waiter := mw p.waiter } }

/-- A ruled task marked in overrun, with the unit whose stage is still running. -/
def markOverrun (id : Nat) (unit : BitVec 16) (s : State) : State :=
  mapTasks (fun t => if t.id == id && t.ruled then { t with overrun := true, lateUnit := unit } else t) s

/-- RUL_OVERRUN_PEND set and counted, the unit kept for R75, and the RUL_OVERRUN record (R72). -/
def noteOverrun (unit : BitVec 16) (task slot : Nat) (s : State) : State :=
  let n := fld 31 16 s.rul.status.toNat
  let s := setStatus 31 16 (satTo 16 (n + 1)) (setStatus 7 7 1 s)
  let s := { s with rul := { s.rul with overrunUnits := s.rul.overrunUnits ++ [unit] } }
  emitErr { cls := 1, code := 1, unit := unit, pos := task, count := 0, plan := slot, named := false, test := false } s

/-- A ruled stream of a unit whose walk is not over, by its task id: its key, and its deadline in this tick. -/
def lateStream (s : State) (unit : BitVec 16) (task : Nat) : Option ((Nat × Nat) × Stream × Nat) :=
  s.streams.findSome? fun e =>
    if e.2.ruled && e.2.owed != 0 && e.2.overrun.isNone && e.2.unit == unit then
      (plan? s e.1.1).bind fun p => (((List.range p.image.certs.length).zip p.image.certs).find? fun c =>
        c.2.kind == 2 && c.2.unitKind == 7 && c.2.index == e.1.2 && sharedId e.1.1 c.1 == task).map fun c =>
          (e.1, e.2, s.clk.edge + c.2.release + c.2.claim)
    else none

/-- A SHARED_TASK in progress on a unit that runs no walk for it, by its task id, and not yet in overrun. -/
def lateShared (s : State) (unit : BitVec 16) (task : Nat) : Option SharedRun :=
  s.rul.shared.find? fun x => x.overrun.isNone && x.unit == unit && x.id == task

/-- The late start of a SHARED_TASK that waited for its unit (R73). -/
def sharedLate (x : SharedRun) (s : State) : State :=
  if x.release + 32 < s.clk.cycle then lateStart x.unit x.slot x.id (s.clk.cycle - x.release) s else s

/-- The end of a SHARED_TASK on a unit that runs no streams, with RUL_OVERRUN_END where it was late (R72). -/
def endShared (x : SharedRun) (s : State) : State :=
  let s := { s with rul := { s.rul with shared := s.rul.shared.erase x } }
  match x.overrun with
  | some id => emitErr { cls := 1, code := 2, unit := x.unit, pos := id, count := s.clk.cycle - x.deadline, plan := x.slot, named := false,
                         test := false } s
  | none => s

/-- The SHARED_TASK that waits for a unit. -/
def nextShared (s : State) (unit : BitVec 16) : Option SharedRun := s.rul.shared.find? fun x => x.unit == unit

/-- The SHARED_TASKs of compression engines and media units that are over end, and one that waited for such a unit starts, late (R72, R73). -/
def endShareds (xs : List SharedRun) (s : State) : State :=
  xs.foldl (fun s x =>
    let s := endShared x s
    match nextShared s x.unit with
    | some y => if xs.contains y then s else sharedLate y s
    | none => s) s

/-- RUL_OVERRUN: a ruled task has not completed at its deadline; the row names the unit whose stage is still running (R72). A SHARED_TASK
is found by its unit and its task id. The Scribe's OVERRUN record has SCR_LATE 1 (assumption log 180). -/
def execRulOverrun (task : BitVec 32) (unit : BitVec 16) (s : State) : Host.Outcome State Fault Refusal :=
  match (ruledOpen s).find? fun t => t.id == task.toNat with
  | some t =>
    if t.overrun then .next s
    else
      let s := markOverrun t.id unit (advanceTo t.deadline s)
      let s := coreEvent t 7 (t.deadline - t.release) true s
      .next (noteOverrun unit t.id t.slot s)
  | none =>
    match lateStream s unit task.toNat, lateShared s unit task.toNat with
    | some (k, x, due), _ =>
      let s := advanceTo due { s with streams := put k { x with overrun := some (task.toNat, due) } s.streams }
      .next (noteOverrun unit task.toNat k.1 s)
    | none, some x =>
      let s := advanceTo x.deadline { s with rul := { s.rul with shared := s.rul.shared.map fun y =>
        if y = x then { y with overrun := some task.toNat } else y } }
      .next (noteOverrun unit task.toNat x.slot s)
    | none, none => .next s

end Sys2Proof.Machine
end

