-- ==== Sys2Proof/Machine/Groups.lean ====
section
/-! DEFINITION. Record groups in nibs and the stages that work on them (R94 to R96, R115, R152, R512). -/

namespace Sys2Proof.Machine

/-! ### Columns -/

/-- A present element. -/
def Elem.of (bits : Nat) : Elem := ⟨bits, true, false⟩
/-- The value of one row of a fixed column with one value per row. -/
def Val.one (bits : Nat) : Val := ⟨true, false, [], [Elem.of bits]⟩
/-- A present variable binary value. -/
def Val.str (b : Bytes) : Val := ⟨true, false, b, []⟩
/-- A null (R115): zero bytes. -/
def Val.null : Val := ⟨false, false, [], []⟩
/-- A blotted row with a fill (R115). -/
def Val.blotted (fill : Bytes) (elems : List Elem) : Val := ⟨false, true, fill, elems⟩

/-- The bits of the first element. -/
def Val.bits (v : Val) : Nat := (v.elems.head?.map (·.bits)).getD 0

/-- The bytes of one row of a fixed column at its width; an absent row without elements is zero. -/
def rowBytes (fmt lanes : Nat) (v : Val) : Bytes :=
  fit (lanes * typeBytes fmt) (v.elems.flatMap fun e => le (typeBytes fmt) e.bits)

/-- A bitmap with one bit per row, on 8-byte boundaries (R152). -/
def rowBitmap (l : List Bool) : Bytes := padTo 8 (bitmap l)

/-- The bitmap pair of truth values: TRUE, then UNKNOWN (R152). -/
def bitmapPair (l : List (Bool × Bool)) : Bytes := rowBitmap (l.map (·.1)) ++ rowBitmap (l.map (·.2))

/-- The offsets array of items and their data (R161). -/
def offsetsOf (lens : List Nat) : Bytes := ((lens.foldl (fun a n => (a.1 ++ [a.2 + n], a.2 + n)) ([0], 0)).1).flatMap (le 4)

/-- The bytes of a byte-string element (R128): its number holds them below a marker byte. -/
def elemBytes (e : Elem) : Bytes := le (Nat.log2 e.bits / 8) e.bits

/-- The values of a list column: the rows' offsets, the elements, for byte strings behind offsets of their own, and one presence bit per
element (R128, R161). -/
def listColumnBytes (c : Column) : Bytes :=
  let es := c.rows.flatMap (·.elems)
  let data :=
    if c.fmt = 0xf then
      let bs := es.map elemBytes
      padTo 8 (offsetsOf (bs.map (·.length))) ++ padTo 8 bs.flatten
    else padTo 8 (es.flatMap fun e => le (typeBytes c.fmt) e.bits)
  padTo 8 (offsetsOf (c.rows.map (·.elems.length))) ++ data ++ rowBitmap (es.map (·.present))

/-- The values of a column as its producer lays them out, each part on an 8-byte boundary (R161, R194). -/
def valueBytes (c : Column) : Bytes :=
  match c.kind with
  | 1 => padTo 8 (c.rows.flatMap (rowBytes c.fmt c.lanes))
  | 3 => listColumnBytes c
  | 4 => []
  | _ => padTo 8 (offsetsOf (c.rows.map (·.bytes.length))) ++ padTo 8 (c.rows.flatMap (·.bytes))

/-- A column's values, presence bitmap and blot bitmap (R115). -/
def columnBytes (c : Column) : Bytes :=
  valueBytes c ++ rowBitmap (c.rows.map (·.present)) ++ rowBitmap (c.rows.map (·.blot))

/-- The rows of a column at some places. -/
def pickRows (c : Column) (is : List Nat) : Column := { c with rows := is.filterMap fun i => c.rows[i]? }

/-! ### The nibs -/

/-- The tasks of a ligature that have been released to its core and have not completed. -/
def openTasks (s : State) (id : Nat) : List Task :=
  (s.sched.flatMap fun e => e.2.running.map (·.task) ++ e.2.ready ++ e.2.releaseWait).filter fun t => t.id == id

/-- A group's release has not completed: its task runs, or is suspended. -/
def groupOpen (s : State) (g : Group) : Bool := (openTasks s (taskId g.slot g.lig)).any fun t => t.begun == some g.started

/-- A group stored: in place of the one with the same work, else in front of the seven newest others and those whose release has not
completed. -/
def putGroup (n : Nat) (g : Group) (s : State) : State :=
  let same : Group → Bool := fun x => x.slot == g.slot && x.lig == g.lig && x.started == g.started && x.num == g.num
  let old := nibGroups s n
  let kept := old.take 7 ++ (old.drop 7).filter (groupOpen s)
  { s with nibs := put n (if old.any same then old.map fun x => if same x then g else x else g :: kept) s.nibs }

/-- The record index of a group's first row. -/
def Group.first (g : Group) : Nat := g.recs.head?.getD 0

/-- The record index of a row. -/
def Group.rec_ (g : Group) (i : Nat) : Nat := (g.recs[i]?).getD 0

/-- The field of the source's list that a column holds (R148): its own number until FILTER_COMPACT renumbers the columns. -/
def Group.fieldOf (g : Group) (i : Nat) : Nat := (g.fields[i]?).getD i

/-- What a stage works with: its plan, ligature and stage descriptor, where they stand, its core, nib and running task, and the group. -/
structure StageCtx where
  (plan : Plan)
  (lig : Ligature)
  (st : Stage)
  (slot ligIx k core nib task : Nat)
  (run : Running)
  (grp : Group)
  (last : Bool)

/-- The core pad offset of a nib's window (R94). -/
def winOff (l : Ligature) (nib : Nat) : Nat := l.winBase + nib * l.winSize

/-- The DVA of a window offset. -/
def StageCtx.dva (c : StageCtx) (off : Nat) : Nat := padDva c.core (winOff c.lig c.nib + off)

/-- The input range of a stage: its own for stage 0, else the output range of the stage before it (R95). -/
def StageCtx.input (c : StageCtx) : Nat × Nat :=
  if c.k = 0 then (c.st.inOff, c.st.inLen)
  else match c.lig.stages[c.k - 1]? with
    | some p => (p.outOff, p.outLen)
    | none => (0, 0)

/-- The input bytes of a stage. -/
def StageCtx.inputBytes (c : StageCtx) (s : State) : Bytes := readDva s (c.dva c.input.1) c.input.2

/-- The blob bytes of a plan image from an offset. -/
def StageCtx.param (c : StageCtx) (n : Nat) : Bytes := slice c.plan.image.blob c.st.param n

/-- A column by its index in the group (R152); one the group does not hold reads as absent rows. -/
def StageCtx.col (c : StageCtx) (i : Nat) : Column :=
  (c.grp.cols[i]?).getD ⟨1, 0, 1, List.replicate c.grp.rows Val.null⟩

/-- The epoch of the last record a layout's source has delivered, 0 before the first (R326, R328). -/
def reachedEpoch (samples : Nat) (b : Batch) : Nat := (if b.partial_ = 0 then b.counter - 1 else b.counter) / max 1 samples

/-- The epoch a plan's sample sources have reached, 0 for a plan without epochs (R188, R326). -/
def planEpoch (s : State) (slot : Nat) (p : Plan) : Nat :=
  ((List.range p.image.layouts.length).zip p.image.layouts).foldl (fun m e =>
    match look (slot, e.1) s.batches with
    | some b => max m (reachedEpoch (leAt e.2 56 8) b)
    | none => m) 0

/-- The boundary into the epoch a plan has reached: the edge that opened the tick of the epoch's first record, or, without ruled work, the
moment of that delivery (R328). -/
def epochStart (s : State) (slot : Nat) (p : Plan) : Option (Nat × Nat) :=
  let now := planEpoch s slot p
  ((List.range p.image.layouts.length).filterMap fun i => ((look (slot, i) s.batches).bind fun b => look now b.epochs)).foldl
    (fun m x => let c := if p.image.ruled then x.1 else x.2
      match m with | some y => some (now, min y.2 c) | none => some (now, c)) none

/-- The group a new release's stage 0 begins with: the record group the nib holds from an earlier ligature, renamed, with its
sample's epoch or, where it is no sample, in the plan's (R188, R327); or an empty one of LIG_MAX_ROWS rows. -/
def freshGroup (s : State) (p : Plan) (nib slot lig started num rows : Nat) : Group :=
  let e : Group := { slot := slot, lig := lig, started := started, num := num, next := 0, rows := rows, source := 0,
                     recs := List.range rows,
                     valid := List.replicate rows true, sampled := false, epoch := planEpoch s slot p, sample := 0, counter := 0, layout := 0,
                     cols := [], outBytes := 0 }
  match (nibGroups s nib).find? fun g => g.slot == slot && (g.started != started || g.lig != lig) with
  | some g => { g with slot := slot, lig := lig, started := started, num := num, next := 0, tick := none,
                       epoch := if g.sampled then g.epoch else planEpoch s slot p }
  | none => e

/-- A nib holds an unfinished group of a task that is running (R22); that of a suspended one leaves the nib to the work that suspended it
(assumption log 158). -/
def nibBusy (s : State) (id : Nat) : Bool :=
  (nibGroups s id).any fun x =>
    match findRunning s (taskId x.slot x.lig), (plan? s x.slot).bind fun p => ligOf p x.lig with
    | some (_, r), some l => r.started == x.started && decide (x.next < l.stages.length)
    | _, _ => false

/-- A stage's work found and its start conditions met (R96): the ligature is running, the stage is the one named, stage k − 1 has
finished the group, and the group the same nib held before is finished, since a nib holds one group (R22, assumption log 158). -/
def stageCtx (r : StageRef) (s : State) : Option StageCtx :=
  let slot := r.slot.toNat
  let li := r.lig.toNat
  let k := r.stage.toNat
  let g := r.group.toNat
  match plan? s slot, findRunning s (taskId slot li) with
  | some p, some (_, run) =>
    match ligOf p li with
    | none => none
    | some l =>
      let ns := nibsOf l
      match l.stages[k]?, ns[g % ns.length]? with
      | some st, some nib =>
        let id := run.task.core * 8 + nib
        let mine := (nibGroups s id).filter fun x => x.slot == slot && x.lig == li && x.started == run.started
        let before := g < ns.length || mine.any fun x => x.num + ns.length == g && decide (l.stages.length ≤ x.next)
        let grp := match mine.find? fun x => x.num == g with
          | some x => if x.next = k then some x else none
          | none => if k = 0 && !nibBusy s id then some (freshGroup s p id slot li run.started g l.maxRows) else none
        match grp with
        | some x =>
          if g < l.groups && before then
            some { plan := p, lig := l, st := st, slot := slot, ligIx := li, k := k, core := run.task.core, nib := nib,
                   task := taskId slot li, run := run, grp := x, last := g + 1 == l.groups }
          else none
        | none => none
      | _, _ => none
  | _, _ => none

/-- What a stage leaves: the group it hands on, the bytes it writes at STG_OUT_OFF, and the rest of its effect. -/
structure StageOut where
  (grp : Group)
  (out : Bytes)
  (st : State)

/-- Every row of a group blotted (R485). -/
def blotGroup (g : Group) : Group :=
  { g with valid := g.valid.map fun _ => false,
           cols := g.cols.map fun c => { c with rows := c.rows.map fun v => { v with present := false, blot := true } } }

/-- A group in which an engine's check failed at a subunit (ENGINE_CHECK, R26, blot reason 0x02). -/
def engineCheck (c : StageCtx) (sub : BitVec 4) (s : State) : State :=
  let u := uid (c.core / 96) (c.core / 8 % 12) (c.core % 8) c.st.engine sub.toNat
  let s := tickEvent { cls := 2, code := 13, unit := u.toNat, plan := c.slot, key := 0, pos := c.task, count := 1 } s
  emitBlot { reason := 2, plan := c.slot, source := c.ligIx, field := 0xffff, offset := 0, record := c.grp.first, count := 1 } s

/-- ROWS_EXCEEDANCE of a ruled ligature's group, at the stage that first leaves more rows than a declared LIG_MAX_ROWS (R512). -/
def rowsCheck (c : StageCtx) (g : Group) (s : State) : State :=
  let n := c.lig.maxRows
  if c.lig.ruled && n != 0 && decide (n < g.rows) && (c.k == 0 || decide (c.grp.rows ≤ n)) then
    emitErr { cls := 2, code := 14, unit := coreUid c.core c.st.engine, pos := c.task, count := g.rows - n, plan := c.slot,
              named := true, test := false } s
  else s

/-- A stage finished on its group: its output written within STG_OUT_LEN, the group handed on (R96). -/
def endStage (c : StageCtx) (check : Option (BitVec 4)) (o : StageOut) : State :=
  let s := writeFree o.st (c.dva c.st.outOff) (o.out.take c.st.outLen)
  let g := { o.grp with next := c.k + 1, outBytes := min o.out.length c.st.outLen }
  let s := rowsCheck c g s
  match check with
  | some sub => putGroup (c.core * 8 + c.nib) (blotGroup g) (engineCheck c sub s)
  | none => putGroup (c.core * 8 + c.nib) g s

/-- A stage row: nothing where its conditions do not hold or the body must wait. -/
def stage (r : StageRef) (engine side op : Nat) (body : StageCtx → State → Option StageOut) (s : State) : State :=
  match stageCtx r s with
  | none => s
  | some c =>
    if c.st.engine == engine && c.st.side == side && c.st.op == op then
      match body c s with
      | some o => endStage c r.check o
      | none => s
    else s

/-- A stage body that needs no more than the group: the group and output it leaves. -/
def pureStage (f : StageCtx → State → Group × Bytes) : StageCtx → State → Option StageOut := fun c s =>
  let r := f c s
  some ⟨r.1, r.2, s⟩

/-- A blot report of a plan (R148). -/
def blotOf (c : StageCtx) (reason source field offset record count : Nat) (s : State) : State :=
  emitBlot { reason := reason, plan := c.slot, source := source, field := field, offset := offset, record := record, count := count } s

/-- A fault of R56 raised by a stage of a ruled ligature: the task's data exceed a maximum, so it lies in no block of the engine (R26). -/
def exceedance (c : StageCtx) (code count : Nat) (s : State) : State :=
  emitErr { cls := 2, code := code, unit := coreUid c.core c.st.engine, pos := c.task, count := count, plan := c.slot, named := true,
            test := false } s

/-- The Stipple key of a group and an operation index (R188). -/
def StageCtx.stipple (c : StageCtx) (op : Nat) : Nat :=
  stippleKey c.plan.image.seed c.grp.epoch (if c.grp.sampled then c.grp.sample else c.grp.first) op

end Sys2Proof.Machine
end

