-- ==== Sys2Proof/Machine/Refs.lean ====
section
/-! DEFINITION. Where the objects of table and tensor references lie (R100, Table 3-9, Table 7-2). -/

namespace Sys2Proof.Machine

/-- The reference of an abstract id. -/
def refOf (p : Plan) (absId : Nat) : Option Ref := p.image.refs.find? fun r => r.absId == absId

/-- A reference takes room in its REF_HBM region beside others: it is allocated there, and its rows are not placed by owner words or
by shard arithmetic. -/
def refAllocated (r : Ref) : Bool := r.addr == 0 && r.hbm != 0xffff && !(r.kind == 1 && (r.place == 0 || r.place == 2))

/-- The offset of a reference in its REF_HBM region: references of one region follow one another in image order, each from the next
multiple of 256 (assumption log). -/
def refOffset (refs : List Ref) (r : Ref) : Nat :=
  ((refs.takeWhile fun x => x.absId != r.absId).filter fun x => refAllocated x && x.hbm == r.hbm).foldl
    (fun a x => a + alignUp x.size 256) 0

/-- The base DVA of a reference's object: an existing object's place in the frame space, or its place in the REF_HBM region. -/
def refDva (p : Plan) (r : Ref) : Option Nat :=
  if r.addr ≠ 0 then some (hbmDva (r.addr % 2 ^ 47))
  else (boundOf p 5 r.hbm).map fun b => b.base + (if refAllocated r then refOffset p.image.refs r else 0)

/-- Bytes of an object. -/
def refBytes (s : State) (p : Plan) (absId off n : Nat) : Bytes :=
  match (refOf p absId).bind (refDva p) with
  | some a => readDva s (a + off) n
  | none => zeros n

/-- Bytes written into an object. -/
def refWrite (p : Plan) (absId off : Nat) (bs : Bytes) (s : State) : State :=
  match (refOf p absId).bind (refDva p) with
  | some a => writeDva s (a + off) bs
  | none => s

/-- The descriptor of a reference: `n` bytes of the blob at REF_DESC. -/
def refDesc (p : Plan) (r : Ref) (n : Nat) : Bytes := slice p.image.blob r.desc n

end Sys2Proof.Machine
end

