-- ==== Sys2Proof/Machine/IngestBlock.lean ====
section
/-! DEFINITION. The parameter blocks of an ingest stream: Table 4-1 and the media blocks of Table 10-4;
and the batch layouts of Tables 10-1 and 10-2. -/

namespace Sys2Proof.Machine

/-- An ingest block (Table 4-1). -/
structure IngestBlock where
  (format codec fillOff dictAbs fields fieldList unitCap recordCap first records : Nat)
  (blotRecord needSum : Bool)
  deriving DecidableEq, Repr

/-- The ingest block at an offset of the blob. -/
def ingestAt (b : Bytes) (o : Nat) : IngestBlock :=
  { format := byteAt b o % 16, codec := byteAt b o / 16, blotRecord := bitAt (byteAt b (o + 1)) 1, needSum := bitAt (byteAt b (o + 1)) 2,
    records := leAt b (o + 12) 4, first := leAt b (o + 16) 8, recordCap := leAt b (o + 24) 4, unitCap := leAt b (o + 28) 4,
    fieldList := leAt b (o + 32) 4, fields := leAt b (o + 36) 2, dictAbs := leAt b (o + 38) 2, fillOff := leAt b (o + 40) 4 }

/-- The field numbers an ingest stream reads, in list order. -/
def fieldNumbers (b : Bytes) (g : IngestBlock) : List Nat := (List.range g.fields).map fun i => leAt b (g.fieldList + 2 * i) 2

/-- The fill value of the field at a position of the list, 16 bytes. -/
def fillBytes (b : Bytes) (g : IngestBlock) (i : Nat) : Bytes := slice b (g.fillOff + 16 * i) 16

/-- A media block (Table 10-4): `kind` 1 raster, 2 PCM; the fields of the other kind read as they lie. -/
structure MediaBlock where
  (kind outC cropMode filter flipH flipV rot opi field dec rsz cache preW preH cropX cropY cropW cropH outW outH : Nat)
  (log2N mix outFmt mel rate hop frames floor : Nat)
  deriving DecidableEq, Repr

/-- The media block at an offset of the blob. -/
def mediaAt (b : Bytes) (o : Nat) : MediaBlock :=
  let w := leAt b o 4
  { kind := byteAt b o, outC := fld 13 12 w, cropMode := fld 15 14 w, filter := fld 16 16 w, flipH := fld 18 17 w, flipV := fld 20 19 w,
    rot := fld 23 21 w, opi := byteAt b (o + 7), field := leAt b (o + 32) 2, dec := leAt b (o + 34) 2, rsz := leAt b (o + 36) 2,
    cache := leAt b (o + 38) 2, preW := leAt b (o + 40) 2, preH := leAt b (o + 42) 2, cropX := leAt b (o + 44) 2, cropY := leAt b (o + 46) 2,
    cropW := leAt b (o + 48) 2, cropH := leAt b (o + 50) 2, outW := leAt b (o + 52) 2, outH := leAt b (o + 54) 2,
    log2N := fld 17 14 w, mix := fld 19 18 w, outFmt := fld 23 20 w, mel := leAt b (o + 36) 2, rate := leAt b (o + 50) 2,
    hop := leAt b (o + 52) 2, frames := leAt b (o + 54) 2, floor := leAt b (o + 60) 4 }

/-- A block that reads as a media block: kind 1 or 2 (R341). -/
def isMedia (b : Bytes) (o : Nat) : Bool := byteAt b o == 1 || byteAt b o == 2

/-- The media blocks of an ingest stream: they follow its block while each names a later position of the field list (R341). -/
def mediaFrom (b : Bytes) (g : IngestBlock) : Nat → Nat → Nat → List MediaBlock
  | 0, _, _ => []
  | n + 1, o, low =>
    let m := mediaAt b o
    if isMedia b o && decide (low ≤ m.field) && decide (m.field < g.fields) then m :: mediaFrom b g n (o + 64) (m.field + 1) else []

/-- The media blocks of the ingest stream whose block lies at an offset. -/
def mediaBlocks (b : Bytes) (o : Nat) : List MediaBlock :=
  let g := ingestAt b o
  if g.format = 1 then mediaFrom b g (min g.fields 1024) (o + 64) 0 else []

/-! ### Batch layouts -/

/-- A batch layout (Table 10-1). -/
structure Layout where
  (epochs dstOff closeLag sigFree sigReady perSample src buffers dstKind dstAbs sliceOff slices slots stride samples : Nat)
  deriving DecidableEq, Repr

/-- The layout of an entry's bytes. -/
def layoutAt (b : Bytes) : Layout :=
  let w := leAt b 32 10
  { epochs := leAt b 16 8, dstOff := leAt b 24 8, closeLag := byteAt b 32, sigFree := fld 23 8 w, sigReady := fld 39 24 w, perSample := fld 55 40 w,
    src := fld 71 56 w, buffers := fld 75 72 w, dstKind := fld 79 76 w, dstAbs := leAt b 42 2, sliceOff := leAt b 44 4, slices := leAt b 48 2,
    slots := leAt b 50 2, stride := leAt b 52 4, samples := leAt b 56 8 }

/-- A slice (Table 10-2). -/
structure SliceDesc where
  (fill validOff validLen padOff padLen : Nat)
  deriving DecidableEq, Repr

/-- A slice at a blob offset. -/
def sliceAt (b : Bytes) (o : Nat) : SliceDesc :=
  { fill := byteAt b (o + 1), validOff := leAt b (o + 4) 3, validLen := leAt b (o + 7) 3, padOff := leAt b (o + 10) 3, padLen := leAt b (o + 13) 3 }

/-- The slices of a layout. -/
def slicesOf (blob : Bytes) (l : Layout) : List SliceDesc := (List.range (min 64 l.slices)).map fun i => sliceAt blob (l.sliceOff + 16 * i)

end Sys2Proof.Machine
end

