-- ==== Sys2Proof/Machine/Inflate.lean ====
section
/-! DEFINITION. DEFLATE (RFC 1951) and gzip (RFC 1952) as the compression engines decode them (R133, R143). -/

namespace Sys2Proof.Machine

/-- A decode: what it gives, or the blot reason of the check that fails (Table 4-16); reason 0 tells that the input ran out. -/
abbrev Dec (α : Type) := Except Nat α

/-- Bits still to be read, the next one first. -/
abbrev Bits := List Bool

/-- CODEC_STREAM. -/
def badStream : Nat := 0x2a

/-- A check that fails with a reason. -/
def need (ok : Bool) (reason : Nat) : Dec Unit := if ok then .ok () else .error reason

/-- The next `n` bits as a number, the first one least significant. -/
def getBits : Nat → Bits → Dec (Nat × Bits)
  | 0, b => .ok (0, b)
  | _ + 1, [] => .error 0
  | n + 1, x :: xs => do
    let r ← getBits n xs
    .ok (b2n x + 2 * r.1, r.2)

/-- One byte appended to an output that may not pass its cap (R143). -/
def putByte (cap : Nat) (b : Byte) (out : Array Byte) : Dec (Array Byte) := if out.size < cap then .ok (out.push b) else .error 0x39

/-- Bytes appended to an output. -/
def putBytes (cap : Nat) (bs : Bytes) (out : Array Byte) : Dec (Array Byte) := bs.foldlM (fun o b => putByte cap b o) out

/-- `n` bytes copied from `d` bytes back. -/
def copyBack (cap d : Nat) : Nat → Array Byte → Dec (Array Byte)
  | 0, out => .ok out
  | n + 1, out => do
    let o ← putByte cap (out.getD (out.size - d) 0) out
    copyBack cap d n o

/-! ### Huffman codes -/

/-- A canonical code: how many codes of each length 0 to 15, and the symbols in code order. -/
structure Huff where
  counts : List Nat
  syms : Array Nat

/-- The codes of each length. -/
def lengthCounts (lens : List Nat) : List Nat := (List.range 16).map fun n => (lens.filter (· == n)).length

/-- The codes left unused by a set of lengths: none where the set is over-subscribed. -/
def codesLeft (counts : List Nat) : Option Nat :=
  (counts.drop 1).foldl (fun left n => left.bind fun l => if 2 * l < n then none else some (2 * l - n)) (some 1)

/-- The canonical code of a list of lengths. -/
def huffOf (lens : List Nat) : Huff :=
  { counts := lengthCounts lens,
    syms := ((List.range 15).flatMap fun n => (List.range lens.length).filter fun i => lens[i]? == some (n + 1)).toArray }

/-- A code that decodes every input, or a single code of one bit. -/
def huffOk (h : Huff) : Bool :=
  match codesLeft h.counts with
  | none => false
  | some 0 => true
  | some _ => h.syms.size == 1 && nth h.counts 1 0 == 1

/-- One symbol decoded, walking the lengths. -/
def huffSym (h : Huff) : List Nat → Nat → Nat → Nat → Bits → Dec (Nat × Bits)
  | [], _, _, _, _ => .error badStream
  | _ :: _, _, _, _, [] => .error 0
  | n :: ns, code, first, index, x :: xs =>
    let code := code + b2n x
    if code < first + n then .ok (h.syms.getD (index + (code - first)) 0, xs)
    else huffSym h ns (2 * code) (2 * (first + n)) (index + n) xs

/-- The next symbol of a code. -/
def nextSym (h : Huff) (b : Bits) : Dec (Nat × Bits) := huffSym h (h.counts.drop 1) 0 0 0 b

/-! ### Blocks -/

/-- Base and extra bits of a length code from 257. -/
def lengthCode (c : Nat) : Nat × Nat :=
  if c < 8 then (c + 3, 0)
  else if c = 28 then (258, 0)
  else
    let e := (c - 4) / 4
    ((4 + c % 4) * 2 ^ e + 3, e)

/-- Base and extra bits of a distance code. -/
def distCode (c : Nat) : Nat × Nat :=
  if c < 4 then (c + 1, 0)
  else
    let e := (c - 2) / 2
    ((2 + c % 2) * 2 ^ e + 1, e)

/-- The symbols of a block up to its end. -/
def inflateSyms (cap : Nat) (lit dist : Huff) : Nat → Bits → Array Byte → Dec (Bits × Array Byte)
  | 0, _, _ => .error badStream
  | f + 1, b, out => do
    let (s, b) ← nextSym lit b
    if s < 256 then
      let out ← putByte cap (BitVec.ofNat 8 s) out
      inflateSyms cap lit dist f b out
    else if s = 256 then .ok (b, out)
    else
      need (decide (s < 286)) badStream
      let lc := lengthCode (s - 257)
      let (x, b) ← getBits lc.2 b
      let (ds, b) ← nextSym dist b
      need (decide (ds < 30)) badStream
      let dc := distCode ds
      let (y, b) ← getBits dc.2 b
      let d := dc.1 + y
      need (decide (d ≤ out.size)) badStream
      let out ← copyBack cap d (lc.1 + x) out
      inflateSyms cap lit dist f b out

/-- The order of the code length codes. -/
def clOrder : List Nat := [16, 17, 18, 0, 8, 7, 9, 6, 10, 5, 11, 4, 12, 3, 13, 2, 14, 1, 15]

/-- `n` numbers of `w` bits. -/
def getMany (w : Nat) : Nat → Bits → Dec (List Nat × Bits)
  | 0, b => .ok ([], b)
  | n + 1, b => do
    let (x, b) ← getBits w b
    let r ← getMany w n b
    .ok (x :: r.1, r.2)

/-- The code lengths of a dynamic block; `acc` holds them newest first. -/
def codeLengths (cl : Huff) (total : Nat) : Nat → Bits → List Nat → Dec (List Nat × Bits)
  | 0, _, _ => .error badStream
  | f + 1, b, acc =>
    if total ≤ acc.length then do
      need (acc.length == total) badStream
      .ok (acc.reverse, b)
    else do
      let (s, b) ← nextSym cl b
      if s < 16 then codeLengths cl total f b (s :: acc)
      else if s = 16 then
        need (!acc.isEmpty) badStream
        let (n, b) ← getBits 2 b
        codeLengths cl total f b (List.replicate (n + 3) (acc.headD 0) ++ acc)
      else if s = 17 then
        let (n, b) ← getBits 3 b
        codeLengths cl total f b (List.replicate (n + 3) 0 ++ acc)
      else
        let (n, b) ← getBits 7 b
        codeLengths cl total f b (List.replicate (n + 11) 0 ++ acc)

/-- The two codes of a dynamic block. -/
def dynamicCodes (b : Bits) : Dec (Huff × Huff × Bits) := do
  let (hlit, b) ← getBits 5 b
  let (hdist, b) ← getBits 5 b
  let (hclen, b) ← getBits 4 b
  need (decide (hlit ≤ 29) && decide (hdist ≤ 29)) badStream
  let (cls, b) ← getMany 3 (hclen + 4) b
  let lens := (List.range 19).map fun i => ((clOrder.zip cls).find? fun e => e.1 == i).elim 0 (·.2)
  let cl := huffOf lens
  need (codesLeft cl.counts == some 0) badStream
  let (ls, b) ← codeLengths cl (hlit + 257 + hdist + 1) (hlit + hdist + 300) b []
  let lit := huffOf (ls.take (hlit + 257))
  let dist := huffOf (ls.drop (hlit + 257))
  need (nth ls 256 0 != 0 && huffOk lit && (huffOk dist || dist.syms.size == 0)) badStream
  .ok (lit, dist, b)

/-- The fixed codes. -/
def fixedLit : Huff := huffOf (List.replicate 144 8 ++ List.replicate 112 9 ++ List.replicate 24 7 ++ List.replicate 8 8)
def fixedDist : Huff := huffOf (List.replicate 30 5)

/-- `n` whole bytes of the bit stream. -/
def getBytes : Nat → Bits → Dec (Bytes × Bits)
  | 0, b => .ok ([], b)
  | n + 1, b => do
    let (x, b) ← getBits 8 b
    let r ← getBytes n b
    .ok (BitVec.ofNat 8 x :: r.1, r.2)

/-- Bits up to the next byte boundary dropped. -/
def alignBits (b : Bits) : Bits := b.drop (b.length % 8)

/-- The blocks of a DEFLATE stream, with the bits after it. -/
def inflateBlocks (cap : Nat) : Nat → Bits → Array Byte → Dec (Bits × Array Byte)
  | 0, _, _ => .error badStream
  | f + 1, b, out => do
    let (last, b) ← getBits 1 b
    let (type, b) ← getBits 2 b
    let (b, out) ← match type with
      | 0 => do
        let b := alignBits b
        let (n, b) ← getBits 16 b
        let (m, b) ← getBits 16 b
        need (n + m == 65535) badStream
        let (bs, b) ← getBytes n b
        let out ← putBytes cap bs out
        .ok (b, out)
      | 1 => inflateSyms cap fixedLit fixedDist (b.length + 1) b out
      | 2 => do
        let (lit, dist, b) ← dynamicCodes b
        inflateSyms cap lit dist (b.length + 1) b out
      | _ => .error badStream
    if last = 1 then .ok (b, out) else inflateBlocks cap f b out

/-- A raw DEFLATE stream: its output and the bytes it takes. -/
def inflate (cap : Nat) (bs : Bytes) : Dec (Bytes × Nat) := do
  let (b, out) ← inflateBlocks cap (8 * bs.length + 1) (bitsOf bs) #[]
  .ok (out.toList, bs.length - b.length / 8)

/-! ### gzip members -/

/-- The bytes of a zero-terminated name with its zero, from an offset. -/
def nameEnd (bs : Bytes) (o : Nat) : Dec Nat :=
  match (bs.drop o).findIdx? (· == 0) with
  | some i => .ok (o + i + 1)
  | none => .error 0

/-- The bytes of a gzip member's header: RFC 1952 with the checks of Table 4-13. -/
def gzipHeader (bs : Bytes) : Dec Nat := do
  need (decide (10 ≤ bs.length)) 0
  need (leAt bs 0 2 == 0x8b1f) badStream
  let flg := byteAt bs 3
  need (byteAt bs 2 == 8 && decide (flg < 32)) 0x31
  let o ← if bitAt flg 2 then do
      need (decide (12 ≤ bs.length)) 0
      pure (12 + leAt bs 10 2)
    else pure 10
  let o ← if bitAt flg 3 then nameEnd bs o else pure o
  let o ← if bitAt flg 4 then nameEnd bs o else pure o
  if bitAt flg 1 then do
    need (decide (o + 2 ≤ bs.length)) 0
    need (leAt bs o 2 == crc32 (bs.take o) % 65536) badStream
    .ok (o + 2)
  else do
    need (decide (o ≤ bs.length)) 0
    .ok o

/-- One gzip member: its output and the bytes it takes. -/
def gzipMember (cap : Nat) (bs : Bytes) : Dec (Bytes × Nat) := do
  let h ← gzipHeader bs
  let (out, n) ← inflate cap (bs.drop h)
  let t := h + n
  need (decide (t + 8 ≤ bs.length)) 0
  need (leAt bs t 4 == crc32 out) 0x28
  need (leAt bs (t + 4) 4 == out.length % 2 ^ 32) 0x29
  .ok (out, t + 8)

end Sys2Proof.Machine
end

