-- ==== Sys2Proof/Machine/Lz4.lean ====
section
/-! DEFINITION. LZ4 blocks and LZ4 frames as the compression engines decode them (Table 4-13). -/

namespace Sys2Proof.Machine

/-- The bytes that lengthen a length of 15 or more: each adds its value, and the first below 255 ends them. -/
def lz4More : Nat → Bytes → Dec (Nat × Bytes)
  | _, [] => .error 0
  | 0, _ => .error badStream
  | f + 1, b :: bs =>
    if b.toNat < 255 then .ok (b.toNat, bs)
    else do
      let r ← lz4More f bs
      .ok (255 + r.1, r.2)

/-- A length from its nibble. -/
def lz4Len (n : Nat) (bs : Bytes) : Dec (Nat × Bytes) :=
  if n < 15 then .ok (n, bs)
  else do
    let r ← lz4More bs.length bs
    .ok (15 + r.1, r.2)

/-- `n` bytes and what follows them. -/
def takeBytes (n : Nat) (bs : Bytes) : Dec (Bytes × Bytes) := if bs.length < n then .error 0 else .ok (bs.take n, bs.drop n)

/-- The sequences of an LZ4 block; a match reaches back no further than the output from `low` on. -/
def lz4Seqs (cap low : Nat) : Nat → Bytes → Array Byte → Dec (Array Byte)
  | 0, _, _ => .error badStream
  | _, [], _ => .error 0
  | f + 1, t :: bs, out => do
    let (lit, bs) ← lz4Len (t.toNat / 16) bs
    let (ls, bs) ← takeBytes lit bs
    let out ← putBytes cap ls out
    if bs.isEmpty then .ok out
    else
      let (ob, bs) ← takeBytes 2 bs
      let d := ofLe ob
      let (ml, bs) ← lz4Len (t.toNat % 16) bs
      need (d != 0 && decide (d ≤ out.size - low)) badStream
      let out ← copyBack cap d (ml + 4) out
      lz4Seqs cap low f bs out

/-- An LZ4 block appended to an output. -/
def lz4Block (cap low : Nat) (bs : Bytes) (out : Array Byte) : Dec (Array Byte) :=
  match lz4Seqs cap low (bs.length + 1) bs out with
  | .error 0 => .error badStream
  | r => r

/-- A frame's header as the walker reads it: its bytes, the size it claims, its window (0 where the format has none), whether it has a
content checksum, its block maximum, whether it has block checksums, whether its blocks are independent. -/
structure FrameHead where
  (size : Nat)
  (claim : Option Nat)
  (window : Nat)
  (sum : Bool)
  (blockMax : Nat)
  (blockSums independent : Bool)

/-- The skippable frames of Zstandard and of LZ4 at the front of the bytes dropped, with the bytes dropped. -/
def dropSkippable : Nat → Nat → Bytes → Dec (Nat × Bytes)
  | 0, n, bs => .ok (n, bs)
  | f + 1, n, bs =>
    if decide (8 ≤ bs.length) && (leAt bs 0 4) / 16 == 0x184d2a5 then
      let k := 8 + leAt bs 4 4
      if bs.length < k then .error 0 else dropSkippable f (n + k) (bs.drop k)
    else .ok (n, bs)

/-- The header of an LZ4 frame as it lies, with whether it names a dictionary. -/
def lz4Parse (bs : Bytes) : Dec (FrameHead × Bool) := do
  need (decide (4 ≤ bs.length)) 0
  need (leAt bs 0 4 != 0x184c2102) 0x31
  need (leAt bs 0 4 == 0x184d2204) badStream
  need (decide (7 ≤ bs.length)) 0
  let flg := byteAt bs 4
  let bd := byteAt bs 5
  need (flg / 64 == 1 && !bitAt flg 1 && bd / 128 == 0 && bd % 16 == 0 && decide (4 ≤ bd / 16)) badStream
  let n := 6 + (if bitAt flg 3 then 8 else 0) + (if bitAt flg 0 then 4 else 0)
  need (decide (n + 1 ≤ bs.length)) 0
  need (byteAt bs n == xxh32 0 (slice bs 4 (n - 4)) / 256 % 256) badStream
  .ok ({ size := n + 1, claim := if bitAt flg 3 then some (leAt bs 6 8) else none, window := 0, sum := bitAt flg 2,
         blockMax := 2 ^ (8 + 2 * (bd / 16)), blockSums := bitAt flg 4, independent := bitAt flg 5 }, bitAt flg 0)

/-- The header of an LZ4 frame with the checks of Table 4-13. -/
def lz4Head (bs : Bytes) : Dec FrameHead := do
  let (h, dict) ← lz4Parse bs
  need (!dict) 0x31
  .ok h

/-- The bytes of an LZ4 frame, from its block sizes; `o` is where the next block stands. -/
def lz4Extent (h : FrameHead) : Nat → Nat → Bytes → Dec Nat
  | 0, _, _ => .error badStream
  | f + 1, o, bs => do
    need (decide (4 ≤ bs.length)) 0
    let w := leAt bs 0 4
    let n := 4 + (if w = 0 then (if h.sum then 4 else 0) else w % 2 ^ 31 + (if h.blockSums then 4 else 0))
    need (decide (n ≤ bs.length)) 0
    if w = 0 then .ok (o + n) else lz4Extent h f (o + n) (bs.drop n)

/-- The blocks of an LZ4 frame. -/
def lz4Blocks (h : FrameHead) (cap : Nat) : Nat → Bytes → Array Byte → Dec (Bytes × Array Byte)
  | 0, _, _ => .error badStream
  | f + 1, bs, out => do
    need (decide (4 ≤ bs.length)) 0
    let w := leAt bs 0 4
    let bs := bs.drop 4
    if w = 0 then .ok (bs, out)
    else
      let n := w % 2 ^ 31
      need (decide (n ≤ h.blockMax)) badStream
      let (blk, bs) ← takeBytes n bs
      let bs ← if h.blockSums then do
          let (c, bs) ← takeBytes 4 bs
          need (ofLe c == xxh32 0 blk) 0x28
          pure bs
        else pure bs
      let low := if h.independent then out.size else 0
      let o ← if w < 2 ^ 31 then lz4Block cap low blk out else putBytes cap blk out
      need (decide (o.size - out.size ≤ h.blockMax)) badStream
      lz4Blocks h cap f bs o

/-- One LZ4 frame: its output and the bytes it takes. -/
def lz4Frame (cap : Nat) (bs : Bytes) : Dec (Bytes × Nat) := do
  let h ← lz4Head bs
  let (rest, out) ← lz4Blocks h cap (bs.length + 1) (bs.drop h.size) #[]
  let o := out.toList
  need (h.claim.all fun c => c == o.length) 0x29
  if h.sum then do
    let (c, rest) ← takeBytes 4 rest
    need (ofLe c == xxh32 0 o) 0x28
    .ok (o, bs.length - rest.length)
  else .ok (o, bs.length - rest.length)

end Sys2Proof.Machine
end

