-- ==== Sys2Proof/Machine/Zstd.lean ====
section
/-! DEFINITION. Zstandard frames (RFC 8878) as the compression engines decode them (Table 4-13). -/

namespace Sys2Proof.Machine

/-! ### Backward bit streams -/

/-- The bits of a backward bit stream in reading order, the end mark dropped. -/
def backBits (bs : Bytes) : Dec Bits :=
  let b := (bitsOf bs).reverse
  match (b.take 8).findIdx? id with
  | some k => .ok (b.drop (k + 1))
  | none => .error badStream

/-- The next `n` bits, the first one most significant, with zeros past the end: the value, the bits left and how many were missing. -/
def backPeek : Nat → Bits → Nat → Nat
  | 0, _, v => v
  | n + 1, [], v => backPeek n [] (2 * v)
  | n + 1, x :: xs, v => backPeek n xs (2 * v + b2n x)

/-- `n` bits read backward. -/
def backGet (n : Nat) (b : Bits) : Dec (Nat × Bits) := if b.length < n then .error badStream else .ok (backPeek n b 0, b.drop n)

/-! ### FSE tables -/

/-- An FSE decoding table: its accuracy, and symbol, bits and base of each state. -/
structure Fse where
  (log : Nat)
  (cells : Array (Nat × Nat × Nat))

/-- The repeat flags after a zero probability. -/
def fseRepeats : Nat → Bits → List Int → Dec (List Int × Bits)
  | 0, _, _ => .error badStream
  | f + 1, b, acc => do
    let (r, b) ← getBits 2 b
    let acc := List.replicate r (0 : Int) ++ acc
    if r = 3 then fseRepeats f b acc else .ok (acc, b)

/-- The probabilities of a table description, newest first; `left` is what they still have to sum to. -/
def fseProbs : Nat → Nat → Bits → List Int → Dec (List Int × Bits)
  | 0, _, _, _ => .error badStream
  | f + 1, left, b, acc =>
    if left = 0 then .ok (acc, b)
    else do
      let n := (left + 1).log2 + 1
      let (v, _) ← getBits n (b ++ List.replicate n false)
      let low := v % 2 ^ (n - 1)
      let lim := 2 ^ n - 1 - (left + 1)
      let small := decide (low < lim)
      let (_, b) ← getBits (if small then n - 1 else n) b
      let x := if small then low else if 2 ^ (n - 1) ≤ v then v - lim else v
      let used := if x = 0 then 1 else x - 1
      need (decide (used ≤ left)) badStream
      let acc := ((x : Int) - 1) :: acc
      if x = 1 then do
        let (acc, b) ← fseRepeats 256 b acc
        fseProbs f (left - used) b acc
      else fseProbs f (left - used) b acc

/-- The positions the symbols of positive probability are spread over. -/
def fseSpread (size high step : Nat) : Nat → Nat → List Nat
  | 0, _ => []
  | f + 1, pos => if pos < high then pos :: fseSpread size high step f ((pos + step) % size) else fseSpread size high step f ((pos + step) % size)

/-- The states in order: a symbol's count goes up at each state it holds. -/
def fseCells (log : Nat) : List Nat → Array Nat → List (Nat × Nat × Nat)
  | [], _ => []
  | s :: ss, next =>
    let n := next.getD s 0
    let bits := log - n.log2
    (s, bits, n * 2 ^ bits - 2 ^ log) :: fseCells log ss (next.setIfInBounds s (n + 1))

/-- The decoding table of a list of probabilities, by symbol. -/
def fseTable (log : Nat) (probs : List Int) : Fse :=
  let size := 2 ^ log
  let syms := (List.range probs.length).zip probs
  let rare := (syms.filter fun e => e.2 == -1).map (·.1)
  let high := size - rare.length
  let spread := fseSpread size high (size / 2 + size / 8 + 3) size 0
  let order := syms.flatMap fun e => List.replicate e.2.toNat e.1
  let base : Array Nat := Array.replicate size 0
  let a := (spread.zip order).foldl (fun a e => a.setIfInBounds e.1 e.2) base
  let a := ((List.range rare.length).zip rare).foldl (fun a e => a.setIfInBounds (size - 1 - e.1) e.2) a
  let next := (probs.map fun p => if p = -1 then 1 else p.toNat).toArray
  { log := log, cells := (fseCells log a.toList next).toArray }

/-- A table that always gives one symbol. -/
def fseRle (s : Nat) : Fse := { log := 0, cells := #[(s, 0, 0)] }

/-- A table description: the table and the bytes it takes. -/
def fseRead (maxLog maxSyms : Nat) (bs : Bytes) : Dec (Fse × Bytes) := do
  let b := bitsOf bs
  let (l, b) ← getBits 4 b
  let log := l + 5
  need (decide (log ≤ maxLog)) badStream
  let (ps, b) ← fseProbs 300 (2 ^ log) b []
  need (decide (ps.length ≤ maxSyms)) badStream
  .ok (fseTable log ps.reverse, bs.drop (bs.length - b.length / 8))

/-- The symbol of a state. -/
def fseSym (t : Fse) (st : Nat) : Nat := (t.cells.getD st (0, 0, 0)).1

/-- The next state. -/
def fseNext (t : Fse) (st : Nat) (b : Bits) : Dec (Nat × Bits) := do
  let c := t.cells.getD st (0, 0, 0)
  let (v, b) ← backGet c.2.1 b
  .ok (c.2.2 + v, b)

/-! ### Huffman tables -/

/-- A Huffman decoding table: symbol and bits of each value of `log` bits. -/
structure ZHuff where
  (log : Nat)
  (cells : Array (Nat × Nat))

/-- Weights decoded by two states in turn, newest first, until an update lacks bits. -/
def huffWeights (t : Fse) : Nat → Nat → Nat → Bits → List Nat → Dec (List Nat)
  | 0, _, _, _, _ => .error badStream
  | f + 1, s1, s2, b, acc =>
    let acc := fseSym t s1 :: acc
    let c := t.cells.getD s1 (0, 0, 0)
    if b.length < c.2.1 then .ok (fseSym t s2 :: acc)
    else huffWeights t f s2 (c.2.2 + backPeek c.2.1 b 0) (b.drop c.2.1) acc

/-- The table of a list of weights without the last one. -/
def huffTable (ws : List Nat) : Dec ZHuff := do
  let sum := (ws.map fun w => if w = 0 then 0 else 2 ^ (w - 1)).sum
  need (sum != 0 && ws.all fun w => decide (w ≤ 11)) badStream
  let log := sum.log2 + 1
  let left := 2 ^ log - sum
  need (decide (log ≤ 11) && 2 ^ left.log2 == left) badStream
  let all := ws ++ [left.log2 + 1]
  let cells := (List.range log).flatMap fun k =>
    ((List.range all.length).filter fun i => nth all i 0 == k + 1).flatMap fun i => List.replicate (2 ^ k) (i, log - k)
  .ok { log := log, cells := cells.toArray }

/-- A Huffman tree description: the table and the bytes after it. -/
def huffRead (bs : Bytes) : Dec (ZHuff × Bytes) := do
  let (h, bs) ← takeBytes 1 bs
  let n := byteAt h 0
  if 128 ≤ n then do
    let k := n - 127
    let (d, bs) ← takeBytes ((k + 1) / 2) bs
    let ws := (d.flatMap fun x => [x.toNat / 16, x.toNat % 16]).take k
    let t ← huffTable ws
    .ok (t, bs)
  else do
    let (d, bs) ← takeBytes n bs
    let (fse, d) ← fseRead 6 256 d
    let b ← backBits d
    let (s1, b) ← backGet fse.log b
    let (s2, b) ← backGet fse.log b
    let ws ← huffWeights fse 256 s1 s2 b []
    need (decide (ws.length ≤ 255)) badStream
    let t ← huffTable ws.reverse
    .ok (t, bs)

/-- `n` literals of one stream, which they use up exactly. -/
def huffLiterals (t : ZHuff) : Nat → Bits → Array Byte → Dec (Array Byte)
  | 0, b, out => do
    need b.isEmpty badStream
    .ok out
  | n + 1, b, out => do
    let c := t.cells.getD (backPeek t.log b 0) (0, 0)
    need (decide (c.2 ≤ b.length)) badStream
    huffLiterals t n (b.drop c.2) (out.push (BitVec.ofNat 8 c.1))

/-- One Huffman stream of literals. -/
def huffStream (t : ZHuff) (n : Nat) (bs : Bytes) (out : Array Byte) : Dec (Array Byte) := do
  let b ← backBits bs
  huffLiterals t n b out

/-! ### Blocks -/

/-- What a block leaves for the next one: the Huffman table, the three FSE tables, the repeat offsets. -/
structure ZState where
  (huff : Option ZHuff)
  (ll off ml : Option Fse)
  (reps : Nat × Nat × Nat)

/-- The Huffman-coded literals of a block: one stream or four. -/
def zLiterals4 (t : ZHuff) (four : Bool) (n : Nat) (d : Bytes) : Dec (Array Byte) :=
  if !four then huffStream t n d #[]
  else do
    let (j, d) ← takeBytes 6 d
    let q := (n + 3) / 4
    need (decide (3 * q ≤ n)) badStream
    let (d1, d) ← takeBytes (leAt j 0 2) d
    let (d2, d) ← takeBytes (leAt j 2 2) d
    let (d3, d) ← takeBytes (leAt j 4 2) d
    let o ← huffStream t q d1 #[]
    let o ← huffStream t q d2 o
    let o ← huffStream t q d3 o
    huffStream t (n - 3 * q) d o

/-- The literals section: the literals, the Huffman table in force after it, and the bytes after it. -/
def zLiterals (blockMax : Nat) (huff : Option ZHuff) (bs : Bytes) : Dec (Array Byte × Option ZHuff × Bytes) := do
  need (decide (1 ≤ bs.length)) badStream
  let b0 := byteAt bs 0
  let type := b0 % 4
  let sf := b0 / 4 % 4
  if type < 2 then do
    let k := if sf % 2 = 0 then 1 else if sf = 1 then 2 else 3
    let (h, bs) ← takeBytes k bs
    let n := if sf % 2 = 0 then ofLe h / 8 else ofLe h / 16
    need (decide (n ≤ blockMax)) badStream
    let (d, bs) ← takeBytes (if type = 0 then n else 1) bs
    .ok ((if type = 0 then d else List.replicate n (d.headD 0)).toArray, huff, bs)
  else do
    let (k, w) := if sf < 2 then (3, 10) else if sf = 2 then (4, 14) else (5, 18)
    let (h, bs) ← takeBytes k bs
    let v := ofLe h / 16
    let n := v % 2 ^ w
    need (decide (n ≤ blockMax)) badStream
    let (d, bs) ← takeBytes (v / 2 ^ w) bs
    let (t, d) ← if type = 2 then huffRead d else match huff with
      | some t => pure (t, d)
      | none => .error badStream
    let o ← zLiterals4 t (sf != 0) n d
    .ok (o, some t, bs)

/-- Base and extra bits of a literals length code. -/
def llCode (c : Nat) : Nat × Nat :=
  if c < 16 then (c, 0)
  else nth [(16, 1), (18, 1), (20, 1), (22, 1), (24, 2), (28, 2), (32, 3), (40, 3), (48, 4), (64, 6), (128, 7), (256, 8), (512, 9),
    (1024, 10), (2048, 11), (4096, 12), (8192, 13), (16384, 14), (32768, 15), (65536, 16)] (c - 16) (0, 0)

/-- Base and extra bits of a match length code. -/
def mlCode (c : Nat) : Nat × Nat :=
  if c < 32 then (c + 3, 0)
  else nth [(35, 1), (37, 1), (39, 1), (41, 1), (43, 2), (47, 2), (51, 3), (59, 3), (67, 4), (83, 4), (99, 5), (131, 7), (259, 8), (515, 9),
    (1027, 10), (2051, 11), (4099, 12), (8195, 13), (16387, 14), (32771, 15), (65539, 16)] (c - 32) (0, 0)

/-- The predefined tables. -/
def llDefault : Fse := fseTable 6 [4, 3, 2, 2, 2, 2, 2, 2, 2, 2, 2, 2, 2, 1, 1, 1, 2, 2, 2, 2, 2, 2, 2, 2, 2, 3, 2, 1, 1, 1, 1, 1, -1, -1, -1, -1]
def mlDefault : Fse :=
  fseTable 6 ([1, 4, 3, 2, 2, 2, 2, 2, 2] ++ List.replicate 37 1 ++ List.replicate 7 (-1))
def ofDefault : Fse := fseTable 5 ([1, 1, 1, 1, 1, 1, 2, 2, 2] ++ List.replicate 15 1 ++ List.replicate 5 (-1))

/-- The table of one of the three codes under its mode. -/
def zTable (mode maxLog maxCode : Nat) (dflt : Fse) (old : Option Fse) (bs : Bytes) : Dec (Fse × Bytes) :=
  match mode with
  | 0 => .ok (dflt, bs)
  | 1 => do
    let (d, bs) ← takeBytes 1 bs
    need (decide (byteAt d 0 ≤ maxCode)) badStream
    .ok (fseRle (byteAt d 0), bs)
  | 2 => fseRead maxLog (maxCode + 1) bs
  | _ => match old with
    | some t => .ok (t, bs)
    | none => .error badStream

/-- The offset of a sequence and the repeat offsets after it. -/
def zOffset (v ll : Nat) (r : Nat × Nat × Nat) : Nat × (Nat × Nat × Nat) :=
  if 3 < v then (v - 3, (v - 3, r.1, r.2.1))
  else
    match v - 1 + (if ll = 0 then 1 else 0) with
    | 0 => (r.1, r)
    | 1 => (r.2.1, (r.2.1, r.1, r.2.2))
    | 2 => (r.2.2, (r.2.2, r.1, r.2.1))
    | _ => (r.1 - 1, (r.1 - 1, r.1, r.2.1))

/-- The sequences carried out: the states of the three codes, the literals from a position on, the output. -/
def zSeqs (cap window : Nat) (ll off ml : Fse) (lits : Array Byte) :
    Nat → Nat × Nat × Nat → Bits → Nat → Nat × Nat × Nat → Array Byte → Dec (Nat × (Nat × Nat × Nat) × Array Byte)
  | 0, _, b, at_, reps, out => do
    need b.isEmpty badStream
    .ok (at_, reps, out)
  | n + 1, (sl, so, sm), b, at_, reps, out => do
    let oc := fseSym off so
    let lc := llCode (fseSym ll sl)
    let mc := mlCode (fseSym ml sm)
    let (ox, b) ← backGet oc b
    let (mx, b) ← backGet mc.2 b
    let (lx, b) ← backGet lc.2 b
    let lit := lc.1 + lx
    let (d, reps) := zOffset (2 ^ oc + ox) lit reps
    need (decide (at_ + lit ≤ lits.size)) badStream
    let out ← putBytes cap (lits.extract at_ (at_ + lit)).toList out
    need (d != 0 && decide (d ≤ out.size) && decide (d ≤ window)) badStream
    let out ← copyBack cap d (mc.1 + mx) out
    if n = 0 then zSeqs cap window ll off ml lits n (sl, so, sm) b (at_ + lit) reps out
    else
      let (sl, b) ← fseNext ll sl b
      let (sm, b) ← fseNext ml sm b
      let (so, b) ← fseNext off so b
      zSeqs cap window ll off ml lits n (sl, so, sm) b (at_ + lit) reps out

/-- The number of sequences and the bytes after it. -/
def zCount (bs : Bytes) : Dec (Nat × Bytes) := do
  let (h, r) ← takeBytes 1 bs
  let n := byteAt h 0
  if n < 128 then .ok (n, r)
  else if n < 255 then do
    let (x, r) ← takeBytes 1 r
    .ok ((n - 128) * 256 + byteAt x 0, r)
  else do
    let (x, r) ← takeBytes 2 r
    .ok (ofLe x + 0x7f00, r)

/-- A compressed block appended to the output. -/
def zBlock (cap window blockMax : Nat) (st : ZState) (bs : Bytes) (out : Array Byte) : Dec (ZState × Array Byte) := do
  let (lits, huff, bs) ← zLiterals blockMax st.huff bs
  let (n, bs) ← zCount bs
  if n = 0 then do
    need bs.isEmpty badStream
    let out ← putBytes cap lits.toList out
    .ok ({ st with huff := huff }, out)
  else do
    let (m, bs) ← takeBytes 1 bs
    let mode := byteAt m 0
    need (mode % 4 == 0) badStream
    let (ll, bs) ← zTable (mode / 64) 9 35 llDefault st.ll bs
    let (off, bs) ← zTable (mode / 16 % 4) 8 31 ofDefault st.off bs
    let (ml, bs) ← zTable (mode / 4 % 4) 9 52 mlDefault st.ml bs
    let b ← backBits bs
    let (sl, b) ← backGet ll.log b
    let (so, b) ← backGet off.log b
    let (sm, b) ← backGet ml.log b
    let (at_, reps, o) ← zSeqs cap window ll off ml lits n (sl, so, sm) b 0 st.reps out
    let o ← putBytes cap (lits.extract at_ lits.size).toList o
    need (decide (o.size - out.size ≤ blockMax)) badStream
    .ok ({ huff := huff, ll := some ll, off := some off, ml := some ml, reps := reps }, o)

/-! ### Frames -/

/-- The header of a Zstandard frame as it lies, with whether it names a dictionary. -/
def zParse (bs : Bytes) : Dec (FrameHead × Bool) := do
  need (decide (4 ≤ bs.length)) 0
  let magic := leAt bs 0 4
  need (!([0xfd2fb51e, 0xfd2fb522, 0xfd2fb523, 0xfd2fb524, 0xfd2fb525, 0xfd2fb526, 0xfd2fb527].contains magic)) 0x31
  need (magic == 0xfd2fb528) badStream
  need (decide (5 ≤ bs.length)) 0
  let d := byteAt bs 4
  need (!bitAt d 3) badStream
  let single := bitAt d 5
  let o := if single then 5 else 6
  let dn := nth [0, 1, 2, 4] (d % 4) 0
  let fn := if d / 64 = 0 then (if single then 1 else 0) else 2 ^ (d / 64)
  need (decide (o + dn + fn ≤ bs.length)) 0
  let fcs := leAt bs (o + dn) fn + (if fn = 2 then 256 else 0)
  let w := byteAt bs 5
  let base := 2 ^ (10 + w / 8)
  let window := if single then fcs else base + base / 8 * (w % 8)
  .ok ({ size := o + dn + fn, claim := if fn = 0 then none else some fcs, window := window, sum := bitAt d 2,
         blockMax := min window 131072, blockSums := false, independent := false }, leAt bs o dn != 0)

/-- The header of a Zstandard frame with the checks of Table 4-13. -/
def zHead (bs : Bytes) : Dec FrameHead := do
  let (h, dict) ← zParse bs
  need (!dict && decide (h.window ≤ 8388608)) 0x31
  .ok h

/-- The bytes of a Zstandard frame, from its block headers. -/
def zExtent (h : FrameHead) : Nat → Nat → Bytes → Dec Nat
  | 0, _, _ => .error badStream
  | f + 1, o, bs => do
    need (decide (3 ≤ bs.length)) 0
    let w := leAt bs 0 3
    let n := 3 + (if w / 2 % 4 = 1 then 1 else w / 8) + (if w % 2 = 1 && h.sum then 4 else 0)
    need (decide (n ≤ bs.length)) 0
    if w % 2 = 1 then .ok (o + n) else zExtent h f (o + n) (bs.drop n)

/-- An error inside a block is one of the block's structure. -/
def inBlock {α : Type} : Dec α → Dec α
  | .error 0 => .error badStream
  | r => r

/-- The blocks of a Zstandard frame. -/
def zBlocks (h : FrameHead) (cap : Nat) : Nat → ZState → Bytes → Array Byte → Dec (Bytes × Array Byte)
  | 0, _, _, _ => .error badStream
  | f + 1, st, bs, out => do
    need (decide (3 ≤ bs.length)) 0
    let w := leAt bs 0 3
    let type := w / 2 % 4
    let n := w / 8
    need (decide (n ≤ h.blockMax) && type != 3) badStream
    let (d, bs) ← takeBytes (if type = 1 then 1 else n) (bs.drop 3)
    let (st, out) ← match type with
      | 0 => do
        let o ← putBytes cap d out
        pure (st, o)
      | 1 => do
        let o ← putBytes cap (List.replicate n (d.headD 0)) out
        pure (st, o)
      | _ => inBlock (zBlock cap h.window h.blockMax st d out)
    if w % 2 = 1 then .ok (bs, out) else zBlocks h cap f st bs out

/-- One Zstandard frame: its output and the bytes it takes. -/
def zFrame (cap : Nat) (bs : Bytes) : Dec (Bytes × Nat) := do
  let h ← zHead bs
  let (rest, out) ← zBlocks h cap (bs.length + 1) { huff := none, ll := none, off := none, ml := none, reps := (1, 4, 8) } (bs.drop h.size) #[]
  let o := out.toList
  need (h.claim.all fun c => c == o.length) 0x29
  if h.sum then do
    let (c, rest) ← takeBytes 4 rest
    need (ofLe c == xxh64 0 o % 2 ^ 32) 0x28
    .ok (o, bs.length - rest.length)
  else .ok (o, bs.length - rest.length)

end Sys2Proof.Machine
end

