-- ==== Sys2Proof/Machine/Codecs.lean ====
section
/-! DEFINITION. Frames as a compression engine takes them (R133 to R136, R141, R143, R144), and what the format walkers share: requested
ranges, blots and their reports (R145, R146, R148). -/

namespace Sys2Proof.Machine

/-! ### Frames -/

/-- The header of a frame by codec; a gzip member, a raw DEFLATE stream and an LZ4 block claim nothing themselves. -/
def frameHead (codec : Nat) (bs : Bytes) : Dec FrameHead :=
  match codec with
  | 1 => zHead bs
  | 2 => lz4Head bs
  | _ => .ok { size := 0, claim := none, window := 0, sum := true, blockMax := 0, blockSums := false, independent := false }

/-- The length of the frame at the front of some bytes, found without its checks where its format allows. -/
def frameExtent (codec : Nat) (bs : Bytes) : Dec Nat :=
  match codec with
  | 1 => do
    let (h, _) ← zParse bs
    zExtent h (bs.length + 1) h.size (bs.drop h.size)
  | 2 => do
    let (h, _) ← lz4Parse bs
    lz4Extent h (bs.length + 1) h.size (bs.drop h.size)
  | 3 => do
    let h ← gzipHeader bs
    let r ← inflate (2 ^ 63) (bs.drop h)
    need (decide (h + r.2 + 8 ≤ bs.length)) 0
    .ok (h + r.2 + 8)
  | 4 => do
    let r ← inflate (2 ^ 63) bs
    .ok r.2
  | _ => .ok bs.length

/-- The skippable frames before the next frame. -/
def skipFrames (codec : Nat) (bs : Bytes) : Dec (Nat × Bytes) := if codec = 1 || codec = 2 then dropSkippable (bs.length + 1) 0 bs else .ok (0, bs)

/-- The concatenated gzip members at the front of some bytes, together; fuel bounds them. -/
def gzipMembers : Nat → Nat → Bytes → Dec Bytes
  | 0, _, _ => .ok []
  | f + 1, cap, bs => do
    let (out, n) ← gzipMember cap bs
    let rest := bs.drop n
    if rest.take 2 == [0x1f, 0x8b] then do
      let more ← gzipMembers f (cap - out.length) rest
      .ok (out ++ more)
    else .ok out

/-- A frame decoded with every check of its format (Table 4-13). -/
def runCodec (codec cap : Nat) (bs : Bytes) : Dec Bytes :=
  match codec with
  | 1 => (zFrame cap bs).map (·.1)
  | 2 => (lz4Frame cap bs).map (·.1)
  | 3 => gzipMembers (bs.length + 1) cap bs
  | 4 => (inflate cap bs).map (·.1)
  | 5 => (lz4Block cap 0 bs #[]).map (·.toList)
  | _ => .ok bs

/-- A dimension claim of Table 4-15: within its cap and within 4,096 times the compressed bytes. -/
def claimOk (claim cap compressed : Nat) : Bool := decide (claim ≤ cap) && decide (claim ≤ 4096 * compressed)

/-- The claim a frame's own header makes, checked (R141, R142). -/
def frameClaimOk (codec cap : Nat) (bs : Bytes) : Bool :=
  match frameHead codec bs with
  | .ok h => h.claim.all fun c => claimOk c cap (match frameExtent codec bs with | .ok n => n | .error _ => bs.length)
  | .error _ => true

/-- The reason of an error: input that ran out inside a frame is malformed data. -/
def codecReason (e : Nat) : Nat := if e = 0 then badStream else e

/-- A frame has no content checksum where its format could carry one (R134). -/
def lacksSum (codec : Nat) (bs : Bytes) : Bool :=
  match frameHead codec bs with
  | .ok h => !h.sum
  | .error _ => false

/-- The frame of a job, after the skippable ones before it (R133). -/
def jobFrame (j : FrameJob) : Bytes := match skipFrames j.codec j.bytes with | .ok r => r.2 | .error _ => j.bytes

/-- A frame's decode: no byte of it is released unless every check passes (R135). -/
def decodeFrame (j : FrameJob) : FrameOut :=
  let bs := jobFrame j
  match frameHead j.codec bs with
  | .error e => .bad (codecReason e)
  | .ok h =>
    if !frameClaimOk j.codec j.cap bs then .bad 0x38
    else if j.needSum && !h.sum then .bad 0x2b
    else match runCodec j.codec (h.claim.getD (if j.codec = 5 then j.claim.getD j.cap else j.cap)) bs with
      | .error e => .bad (if e = 0x39 && (h.claim.isSome || j.codec == 5) then 0x29 else codecReason e)
      | .ok o => if j.claim.all fun c => c == o.length then .bytes o else .bad 0x29

/-! ### What the walkers share -/

/-- A report of R148 before it is written: its reason, the index under ING_FIELD_LIST, the byte offset, the first record, the count. -/
structure Report where
  (reason field offset record count : Nat)
  deriving DecidableEq, Repr

/-- What a walker works with: its block, the field numbers it reads, their fill values, the bytes of the region that holds Parquet
dictionaries, the media blocks' field positions, and the source's bytes. -/
structure WalkCtx where
  (ing : IngestBlock)
  (nums : List Nat)
  (fills : List Bytes)
  (dictBytes : Nat)
  (src : Bytes)

/-- What one unit's decode leaves: the walker, and the reports. -/
structure UnitOut where
  (g : Ingest)
  (reports : List Report)

/-- The whole record is blotted: no field of the list. -/
def wholeRecord : Nat := 0xffff

/-- The first requested record, and the first one past them. -/
def WalkCtx.first (c : WalkCtx) : Nat := c.ing.first
def WalkCtx.last (c : WalkCtx) : Nat := c.ing.first + c.ing.records

/-- The part of a run of records within the requested range: its first record and count. -/
def WalkCtx.clip (c : WalkCtx) (a n : Nat) : Nat × Nat :=
  let lo := max a c.first
  (lo, min (a + n) c.last - lo)

/-- A blotted value of a column (R145): the field's fill value, an empty item for the variable kinds. -/
def blotVal (kind fmt lanes : Nat) (fill : Bytes) : Val :=
  if kind = 1 then Val.blotted [] (List.replicate lanes ⟨ofLe (fill.take (typeBytes fmt)), false, true⟩) else Val.blotted [] []

/-- The fill value of a field position. -/
def WalkCtx.fill (c : WalkCtx) (i : Nat) : Bytes := nth c.fills i []

/-- A blotted value of the field at a position. -/
def WalkCtx.blot (c : WalkCtx) (g : Ingest) (i : Nat) : Val :=
  let q := nth g.fields i default
  blotVal q.col.kind q.col.fmt q.col.lanes (c.fill i)

/-- Rows appended to a field. -/
def FieldQueue.add (q : FieldQueue) (vs : List Val) : FieldQueue := { q with col := { q.col with rows := q.col.rows ++ vs } }

/-- Rows appended to the field at a position. -/
def Ingest.addRows (g : Ingest) (i : Nat) (vs : List Val) : Ingest := { g with fields := modifyAt (fun q => q.add vs) i g.fields }

/-- A report, and with ING_BLOT_RECORD the records concerned blotted whole (R146); nothing outside the requested range. -/
def WalkCtx.fieldBlot (c : WalkCtx) (g : Ingest) (reason i offset a n : Nat) : UnitOut :=
  let r := c.clip a n
  if r.2 = 0 then ⟨g, []⟩
  else if c.ing.blotRecord then ⟨{ g with bad := g.bad ++ [r] }, [⟨reason, wholeRecord, offset, r.1, r.2⟩]⟩
  else ⟨g, [⟨reason, i, offset, r.1, r.2⟩]⟩

/-- The records of a record unit blotted whole: every field gets its blots, and the records are not valid (R146). -/
def WalkCtx.recordBlot (c : WalkCtx) (g : Ingest) (reason offset a n : Nat) : UnitOut :=
  let r := c.clip a n
  if r.2 = 0 then ⟨g, []⟩
  else
    let g := (List.range c.nums.length).foldl (fun g i => g.addRows i (List.replicate r.2 (c.blot g i))) g
    ⟨{ g with bad := g.bad ++ [r] }, [⟨reason, wholeRecord, offset, r.1, r.2⟩]⟩

/-- Every record from the walk's position to the end of the requested range blotted; the walk ends. -/
def WalkCtx.restBlot (c : WalkCtx) (g : Ingest) (reason offset : Nat) : UnitOut :=
  let a := max g.record c.first
  let o := c.recordBlot g reason offset a (c.last - a)
  { o with g := { o.g with ended := true, jobs := [], outs := [] } }

/-- The rows of a unit that begins with record `a` that lie in the requested range. -/
def WalkCtx.wanted {α : Type} (c : WalkCtx) (a : Nat) (vs : List α) : List α :=
  (vs.drop (c.first - a)).take (c.last - max a c.first)

/-- The frames a unit still waits for: none once their decodes are there. -/
def Ingest.need_ (g : Ingest) (js : List FrameJob) : Option Ingest :=
  if js.isEmpty || g.outs.length == js.length then none else some { g with jobs := js, outs := [] }

/-- Runs of consecutive true places of a list, as (first, count) (R148). -/
def blotRuns (l : List Bool) : List (Nat × Nat) :=
  let r := l.foldl (fun (a : List (Nat × Nat) × Nat) b =>
    (if b then match a.1 with
      | (f, n) :: rest => if f + n = a.2 then (f, n + 1) :: rest else (a.2, 1) :: a.1
      | [] => [(a.2, 1)]
    else a.1, a.2 + 1)) ([], 0)
  r.1.reverse

/-- Blots of single records of one field reported by runs (R148): `bad` tells which of the rows from record `a` on are blotted. -/
def WalkCtx.runBlots (c : WalkCtx) (g : Ingest) (reason i offset a : Nat) (bad : List Bool) : UnitOut :=
  (blotRuns bad).foldl (fun o r =>
    let x := c.fieldBlot o.g reason i offset (a + r.1) r.2
    ⟨x.g, o.reports ++ x.reports⟩) ⟨g, []⟩

end Sys2Proof.Machine
end

