-- ==== Sys2Proof/Machine/Folio.lean ====
section
/-! DEFINITION. Folio sources: header, schema, index, groups and fields (R116 to R123). -/

namespace Sys2Proof.Machine

/-! ### Header and schema -/

/-- The field descriptor at a place of the schema (Table 4-3): `phys` its kind, `logical` its value type, `typeLen` its parent, `maxDef`
whether it may hold nulls, `codec` the codec of packed groups. -/
def folioChunk (src : Bytes) (i : Nat) : Chunk :=
  let o := 64 + 32 * i
  { (default : Chunk) with field := i, off := o, codec := byteAt src 36 % 16, phys := byteAt src o, logical := byteAt src (o + 8),
                           typeLen := leAt src (o + 10) 2, maxDef := byteAt src (o + 1) % 2 }

/-- The schema of a source. -/
def folioSchema (src : Bytes) : List Chunk := (List.range (leAt src 8 4)).map (folioChunk src)

/-- Value types of Table 4-5. -/
def isValueType (t : Nat) : Bool := decide (1 ≤ t) && decide (t ≤ 0xe)

/-- R117. -/
def schemaOk (fs : List Chunk) : Bool :=
  fs.all fun f =>
    (f.typeLen == 0xffff || (decide (f.typeLen < f.field) && (fs[f.typeLen]?).any fun p => p.phys == 4)) &&
    !(decide (4 ≤ f.phys) && f.typeLen != 0xffff) && decide (1 ≤ f.phys) && decide (f.phys ≤ 6) &&
    (f.phys != 4 || fs.any fun c => c.typeLen == f.field) &&
    (if f.phys = 1 || f.phys = 3 then isValueType f.logical else f.logical == 0)

/-- The reason the header or schema of a source fails (SOURCE_HEADER, SOURCE_TRUNCATED), 0 for none. -/
def folioHeadBad (src : Bytes) : Nat :=
  let n := leAt src 8 4
  if src.length < 64 then 0x11
  else if leAt src 0 4 != 0x4c4f464b || byteAt src 4 != 1 || byteAt src 5 != 0 || leAt src 6 2 != 64 || n = 0 || 1024 < n || leAt src 12 4 != 32 * n ||
      leAt src 32 4 = 0 || leAt src 24 8 % 64 != 0 || 3 < byteAt src 36 % 16 then 0x10
  else if src.length < 64 + 32 * n then 0x11
  else if leAt src 40 4 != crc32c (src.take 40 ++ zeros 4 ++ slice src 44 (20 + 32 * n)) || !schemaOk (folioSchema src) then 0x10
  else 0

/-- The footer index and the tail agree with the header (R122): the offset a failure is reported at, none where they are sound. -/
def folioIndexBad (src : Bytes) : Option Nat :=
  let len := leAt src 16 8
  let f := leAt src 24 8
  let n := leAt src 32 4
  if src.length < len || leAt src (len - 16) 8 != f || leAt src (len - 8) 4 != 0x4c4f464b then some (len - 16)
  else if len < f + 16 + 16 * n || leAt src f 4 != 0x5844494b || leAt src (f + 4) 4 != n || leAt src (f + 8) 4 != crc32c (slice src (f + 16) (16 * n)) then some f
  else none

/-- The column a field decodes to. -/
def folioColumn (f : Chunk) : Column :=
  match f.phys with
  | 1 => ⟨1, f.logical, 1, []⟩
  | 2 => ⟨2, 0xf, 1, []⟩
  | 3 => ⟨3, f.logical, 1, []⟩
  | k => ⟨k, 0, 1, []⟩

/-- A queue of decoded values for a column. -/
def FieldQueue.of (col : Column) : FieldQueue := ⟨col, 0, 0, 0, 0, none, 0⟩

/-- The walk of a Folio source begun: its header, schema and index read. -/
def folioOpen (c : WalkCtx) (g : Ingest) : UnitOut :=
  let fs := folioSchema c.src
  let bad := folioHeadBad c.src
  let missing := c.nums.any fun i => decide (fs.length ≤ i)
  let cols := c.nums.map fun i => FieldQueue.of (folioColumn (nth fs i default))
  let g := { g with open_ := true, fields := cols, base := c.first }
  if bad ≠ 0 then c.restBlot g bad 0
  else if missing then c.restBlot g 0x10 0
  else
    let g := { g with chunks := fs, cursor := alignUp (64 + 32 * fs.length) 64 }
    match folioIndexBad c.src with
    | none => ⟨{ g with useIndex := true }, []⟩
    | some o => ⟨g, [⟨0x12, wholeRecord, o, 2 ^ 64 - 1, 0⟩]⟩

/-! ### Fields of a group (R119 to R121) -/

/-- A decoded body as a field's decoder sees it: the body, the records of the group, its directory entries as (offsets, data offset, data
length, bitmap), and all areas in use. -/
structure FolioBody where
  (body : Bytes)
  (rows : Nat)
  (fields : List Chunk)
  (dir : List (Nat × Nat × Nat × Nat))
  (areas : List (Nat × Nat))

/-- None where an entry says so. -/
def noArea : Nat := 0xffffffff

/-- The areas a directory entry points to, as (offset, length). -/
def entryAreas (rows : Nat) (f : Chunk) (e : Nat × Nat × Nat × Nat) : List (Nat × Nat) :=
  (if e.2.2.2 = noArea then [] else [(e.2.2.2, (rows + 7) / 8)]) ++ (if f.phys = 4 then [] else [(e.2.1, e.2.2.1)]) ++
    (if e.1 = noArea then [] else [(e.1, 4 * (rows + 1))])

/-- A body read with its directory; none where the body does not hold the directory. -/
def folioBody (fields : List Chunk) (rows : Nat) (body : Bytes) : Option FolioBody :=
  if body.length < 16 * fields.length then none
  else
    let dir := (List.range fields.length).map fun i => (leAt body (16 * i) 4, leAt body (16 * i + 4) 4, leAt body (16 * i + 8) 4, leAt body (16 * i + 12) 4)
    some { body := body, rows := rows, fields := fields, dir := dir,
           areas := (0, 16 * fields.length) :: (fields.zip dir).flatMap fun x => entryAreas rows x.1 x.2 }

/-- An area lies inside the body on an 8-byte boundary and overlaps no other. -/
def FolioBody.areaOk (b : FolioBody) (a : Nat × Nat) : Bool :=
  a.1 % 8 == 0 && decide (a.1 + a.2 ≤ b.body.length) &&
    decide ((b.areas.filter fun x => decide (0 < x.2) && decide (0 < a.2) && decide (x.1 < a.1 + a.2) && decide (a.1 < x.1 + x.2)).length ≤ 1)

/-- The bitmap of an entry: none where it breaks R119 or R120. -/
def FolioBody.validity (b : FolioBody) (i : Nat) : Option (List Bool) :=
  let f := nth b.fields i default
  let o := (nth b.dir i default).2.2.2
  if o = noArea then some (List.replicate b.rows true)
  else if f.maxDef = 0 || !b.areaOk (o, (b.rows + 7) / 8) then none
  else
    let bits := bitsOf (slice b.body o ((b.rows + 7) / 8))
    if (bits.drop b.rows).any id then none else some (bits.take b.rows)

/-- The presence of a field's records: its bit and its parent's (R120). -/
def FolioBody.presence (b : FolioBody) (i : Nat) : Option (List Bool) :=
  let f := nth b.fields i default
  match b.validity i, (if f.typeLen = 0xffff then some (List.replicate b.rows true) else b.validity f.typeLen) with
  | some x, some y => some ((x.zip y).map fun e => e.1 && e.2)
  | _, _ => none

/-- The words of an offsets array never decrease. -/
def rising : List Nat → Bool
  | a :: b :: r => decide (a ≤ b) && rising (b :: r)
  | _ => true

/-- The numbers of some bytes at a width. -/
def numbersOf (w : Nat) (bs : Bytes) : List Nat := (pieces (max 1 w) bs).map ofLe

/-- The reason a raster or PCM item fails its header (R121) or its claim (Table 4-15), 0 for none. -/
def itemBad (kind recordCap : Nat) (b : Bytes) : Nat :=
  if b.length < 16 then 0x15
  else if kind = 5 then
    let n := leAt b 0 2 * leAt b 2 2 * byteAt b 4
    let jpeg := byteAt b 5 == 1
    if n = 0 || !([1, 3, 4].contains (byteAt b 4)) || 1 < byteAt b 5 then 0x15
    else if recordCap < n || (jpeg && decide (4096 * (b.length - 16) < n)) then 0x38
    else if !jpeg && b.length != 16 + n then 0x15 else 0
  else
    let n := leAt b 0 4 * byteAt b 4 * (byteAt b 5 + 2)
    if byteAt b 4 = 0 || 2 < byteAt b 4 || 2 < byteAt b 5 || leAt b 6 4 < 16000 || 48000 < leAt b 6 4 then 0x15
    else if recordCap < n then 0x38
    else if b.length != 16 + n then 0x15 else 0

/-- The values of a field, record by record: a value, or the reason it is blotted; or the reason the field or (RECORD_COUNT) the group
fails. A child whose own bit is set under a null parent and whose item is not empty is blotted (DESIGN CHOICE, assumption log 189). -/
def FolioBody.values (b : FolioBody) (recordCap i : Nat) : Except Nat (List (Except Nat Val)) := do
  let f := nth b.fields i default
  let e := nth b.dir i default
  let n := e.2.2.1
  let fine := (entryAreas b.rows f e).all b.areaOk
  match b.presence i with
  | none => .error 0x15
  | some ps =>
    if !fine then .error 0x15
    else if f.phys = 4 then
      if n != 0 || e.2.1 != 0 || e.1 != noArea then .error 0x15 else .ok (ps.map fun p => .ok ⟨p, false, [], []⟩)
    else
      let data := slice b.body e.2.1 n
      let w := typeBytes f.logical
      if f.phys = 1 then
        if n != b.rows * w || e.1 != noArea then .error 0x15
        else .ok ((ps.zip (numbersOf w data)).map fun x => .ok (if x.1 then Val.one x.2 else Val.null))
      else
        let ws := numbersOf 4 (slice b.body e.1 (4 * (b.rows + 1)))
        let unit := if f.phys = 3 then w else 1
        if e.1 = noArea || ws.head? != some 0 || !rising ws || n % unit != 0 then .error 0x15
        else if ws.getLast? != some (n / unit) then .error 0x3a
        else .ok ((ps.zip (ws.zip (ws.drop 1))).map fun x =>
          let item := slice data (unit * x.2.1) (unit * (x.2.2 - x.2.1))
          if !x.1 then (if x.2.1 = x.2.2 then .ok Val.null else .error 0x15)
          else if f.phys = 3 then .ok ⟨true, false, [], (numbersOf w item).map Elem.of⟩
          else if f.phys = 2 then .ok (Val.str item)
          else
            let r := itemBad f.phys recordCap item
            if r = 0 then .ok (Val.str item) else .error r)

/-- The rows of a field added, with its reports; row by row where only some are damaged. -/
def addField (c : WalkCtx) (i offset start rows : Nat) (r : Except Nat (List (Except Nat Val))) (g : Ingest) : UnitOut :=
  match r with
  | .error e =>
    let g := g.addRows i (c.wanted start (List.replicate rows (c.blot g i)))
    c.fieldBlot g e i offset start rows
  | .ok vs =>
    let bad := c.blot g i
    let g := g.addRows i (c.wanted start (vs.map fun v => match v with | .ok v => v | .error _ => bad))
    let why := vs.map fun v => match v with | .ok _ => 0 | .error e => e
    (dedup (why.filter (· != 0))).foldl (fun o e =>
      let x := c.runBlots o.g e i offset start (why.map (· == e))
      ⟨x.g, o.reports ++ x.reports⟩) ⟨g, []⟩

/-! ### Groups (R118, R123) -/

/-- A group's header (Table 4-6) as it stands at an offset is sound and begins with record `start`. -/
def groupHeadOk (src : Bytes) (o start : Nat) : Bool :=
  let n := leAt src (o + 4) 4
  let r := leAt src (o + 8) 4
  leAt src o 4 == 0x5052474b && decide (64 ≤ n) && decide (n ≤ 4194304) && n % 64 == 0 && decide (1 ≤ r) && decide (r ≤ 65535) &&
    leAt src (o + 16) 8 == start

/-- A group whose header is sound decoded: claims, CRC, codec, fields (R147). The walker has been moved past it. -/
def folioGroup (c : WalkCtx) (g : Ingest) (o start : Nat) (next : Ingest → Ingest) : UnitOut :=
  let n := leAt c.src (o + 4) 4
  let rows := leAt c.src (o + 8) 4
  let bodyLen := leAt c.src (o + 24) 4
  let packed := byteAt c.src (o + 28) % 2 == 1
  let codec := (nth g.chunks 0 default).codec
  let stored := slice c.src (o + 32) (n - 32)
  let fail : Ingest → Nat → Nat → UnitOut := fun g e at_ => c.recordBlot (next { g with outs := [], jobs := [] }) e at_ start rows
  if packed && codec == 0 || (!packed && decide (n - 32 < bodyLen)) then fail g 0x14 o
  else if packed && (!claimOk bodyLen c.ing.unitCap (n - 32) || !frameClaimOk codec c.ing.unitCap stored) then fail g 0x38 o
  else if crc32c stored != leAt c.src (o + 12) 4 then fail g 0x13 o
  else if !packed && (stored.drop bodyLen).any (· != 0) then fail g 0x14 o
  else
    let jobs : List FrameJob := if packed then [⟨codec, stored, c.ing.unitCap, some bodyLen, c.ing.needSum⟩] else []
    match g.need_ jobs with
    | some g => ⟨g, []⟩
    | none =>
      let dec : FrameOut := if packed then nth g.outs 0 (.bad badStream) else .bytes (stored.take bodyLen)
      let pad := packed && match frameExtent codec stored with
        | .ok k => (stored.drop k).any (· != 0)
        | .error _ => false
      match dec with
      | .bad e => fail g e (o + 32)
      | .bytes body =>
        if pad then fail g badStream (o + 32)
        else match folioBody g.chunks rows body with
        | none =>
          (List.range c.nums.length).foldl (fun u i =>
            let x := addField c i (o + 32) start rows (.error 0x15) u.g
            ⟨x.g, u.reports ++ x.reports⟩) ⟨next { g with outs := [], jobs := [] }, []⟩
        | some b =>
          let vs := c.nums.map fun f => (f, b.values c.ing.recordCap f)
          if vs.any fun v => match v.2 with | .error e => e == 0x3a | .ok _ => false then fail g 0x3a (o + 32)
          else ((List.range vs.length).zip vs).foldl (fun u v =>
            let at_ := if packed then o + 32 else o + 32 + (nth b.dir v.2.1 default).2.1
            let g := if 5 ≤ (nth b.fields v.2.1 default).phys then { u.g with marks := u.g.marks ++ [(v.1, start, at_)] } else u.g
            let x := addField c v.1 at_ start rows v.2.2 g
            ⟨x.g, u.reports ++ x.reports⟩) ⟨next { g with outs := [], jobs := [] }, []⟩

/-- The next unit of a Folio source: through the index the next group with requested records, else the next group header. A footer entry that
points past the source's end blots the rest of the range (DESIGN CHOICE, assumption log 190). -/
def folioIndexed (c : WalkCtx) (g : Ingest) : Nat → UnitOut
  | 0 => ⟨{ g with ended := true }, []⟩
  | f + 1 =>
    let e := leAt c.src 24 8 + 16 + 16 * g.unit
    let o := leAt c.src e 8
    let rows := leAt c.src (e + 12) 4
    let next : Ingest → Ingest := fun g' => { g' with unit := g.unit + 1, record := g.record + rows }
    if leAt c.src 32 4 ≤ g.unit || c.last ≤ g.record then ⟨{ g with ended := true }, []⟩
    else if g.record + rows ≤ c.first then folioIndexed c (next g) f
    else if c.src.length < o + 32 then c.restBlot g 0x11 o
    else if !groupHeadOk c.src o g.record || leAt c.src (o + 4) 4 != leAt c.src (e + 8) 4 || leAt c.src (o + 8) 4 != rows then
      c.recordBlot (next g) 0x14 o g.record rows
    else if c.src.length < o + leAt c.src (o + 4) 4 then c.restBlot g 0x11 o
    else folioGroup c g o g.record next

/-- The next group by its header. -/
def folioWalked (c : WalkCtx) (g : Ingest) : Nat → UnitOut
  | 0 => ⟨{ g with ended := true }, []⟩
  | f + 1 =>
    let o := g.cursor
    let n := leAt c.src (o + 4) 4
    let rows := leAt c.src (o + 8) 4
    let next : Ingest → Ingest := fun g' => { g' with unit := g.unit + 1, record := g.record + rows, cursor := o + n }
    if leAt c.src 32 4 ≤ g.unit || c.last ≤ g.record then ⟨{ g with ended := true }, []⟩
    else if c.src.length < o + 32 then c.restBlot g 0x11 o
    else if !groupHeadOk c.src o g.record then c.restBlot g 0x14 o
    else if c.src.length < o + n then c.restBlot g 0x11 o
    else if g.record + rows ≤ c.first then folioWalked c (next g) f
    else folioGroup c g o g.record next

/-- One structure unit of a Folio source. -/
def folioUnit (c : WalkCtx) (g : Ingest) : UnitOut :=
  if !g.open_ then folioOpen c g
  else if g.useIndex then folioIndexed c g (leAt c.src 32 4 + 1 - g.unit)
  else folioWalked c g (leAt c.src 32 4 + 1 - g.unit)

end Sys2Proof.Machine
end

