-- ==== Sys2Proof/Machine/RawSource.lean ====
section
/-! DEFINITION. Raw sources: each compressed frame or gzip member is one record (R114, R143). -/

namespace Sys2Proof.Machine

/-- One record of a raw source given to every field the stream reads. -/
def rawRecord (c : WalkCtx) (v : Bytes) (g : Ingest) : Ingest :=
  (List.range c.nums.length).foldl (fun g i => g.addRows i [Val.str v]) g

/-- The next frame of a raw source with a codec. -/
def rawFrame (c : WalkCtx) (g : Ingest) : Nat → UnitOut
  | 0 => ⟨{ g with ended := true }, []⟩
  | f + 1 =>
    match skipFrames c.ing.codec (c.src.drop g.cursor) with
    | .error _ => c.restBlot g 0x11 g.cursor
    | .ok (k, rest) =>
      let o := g.cursor + k
      if rest.isEmpty || c.last ≤ g.record then ⟨{ g with ended := true }, []⟩
      else match frameExtent c.ing.codec rest with
      | .error 0 => c.restBlot g 0x11 o
      | .error e => c.restBlot g e o
      | .ok n =>
        let bytes := rest.take n
        let next : Ingest → Ingest := fun g' => { g' with cursor := o + n, record := g.record + 1, unit := g.unit + 1, jobs := [], outs := [] }
        if g.record < c.first then rawFrame c (next g) f
        else if !frameClaimOk c.ing.codec c.ing.recordCap bytes then c.recordBlot (next g) 0x38 o g.record 1
        else match g.need_ [⟨c.ing.codec, bytes, c.ing.recordCap, none, c.ing.needSum⟩] with
        | some g => ⟨g, []⟩
        | none => match nth g.outs 0 (.bad badStream) with
          | .bad e => c.recordBlot (next g) e o g.record 1
          | .bytes b => ⟨next (rawRecord c b g), []⟩

/-- One structure unit of a raw source. -/
def rawUnit (c : WalkCtx) (g : Ingest) : UnitOut :=
  if !g.open_ then ⟨{ g with open_ := true, base := c.first, fields := c.nums.map fun _ => FieldQueue.of ⟨2, 0xf, 1, []⟩ }, []⟩
  else if c.ing.codec = 0 then
    if 0 < c.first then ⟨{ g with ended := true }, []⟩
    else if c.ing.recordCap < c.src.length then
      let o := c.recordBlot g 0x39 0 0 1
      { o with g := { o.g with ended := true } }
    else ⟨{ rawRecord c c.src g with ended := true }, []⟩
  else rawFrame c g (c.src.length + 1)

end Sys2Proof.Machine
end

