-- ==== Sys2Proof/Machine/Thrift.lean ====
section
/-! DEFINITION. The Thrift compact protocol as Parquet footers and page headers use it (R124). -/

namespace Sys2Proof.Machine

/-- A Thrift value: a number (booleans are 0 and 1), bytes, a list, or a structure by field id. -/
inductive TVal where
  | num (n : Int)
  | bin (b : Bytes)
  | list (l : List TVal)
  | struct_ (fs : List (Nat × TVal))
  deriving Inhabited

/-- A varint of at most ten bytes. -/
def tVarint : Nat → Bytes → Dec (Nat × Bytes)
  | _, [] => .error 0
  | 0, _ => .error badStream
  | f + 1, b :: bs =>
    if b.toNat < 128 then .ok (b.toNat, bs)
    else do
      let r ← tVarint f bs
      .ok (b.toNat % 128 + 128 * r.1, r.2)

/-- A varint. -/
def varint (bs : Bytes) : Dec (Nat × Bytes) := tVarint 10 bs

/-- The number of a zigzag form. -/
def unzig (n : Nat) : Int := if n % 2 = 0 then (n / 2 : Nat) else -(((n + 1) / 2 : Nat) : Int)

/-- A zigzag varint. -/
def zigzag (bs : Bytes) : Dec (Int × Bytes) := do
  let (n, bs) ← varint bs
  .ok (unzig n, bs)

/-- The size and element type of a list or set. -/
def tListHead (bs : Bytes) : Dec (Nat × Nat × Bytes) := do
  let (h, bs) ← takeBytes 1 bs
  let b := byteAt h 0
  if b / 16 < 15 then .ok (b / 16, b % 16, bs)
  else do
    let (n, bs) ← varint bs
    .ok (n, b % 16, bs)

mutual

/-- A value of a type; a boolean in a list is one byte. -/
def tValue : Nat → Nat → Bytes → Dec (TVal × Bytes)
  | 0, _, _ => .error badStream
  | f + 1, type, bs =>
    match type with
    | 1 => do
      let (b, bs) ← takeBytes 1 bs
      .ok (.num (if byteAt b 0 = 1 then 1 else 0), bs)
    | 2 => do
      let (b, bs) ← takeBytes 1 bs
      .ok (.num (if byteAt b 0 = 1 then 1 else 0), bs)
    | 3 => do
      let (b, bs) ← takeBytes 1 bs
      .ok (.num (toInt 8 (byteAt b 0)), bs)
    | 4 => do
      let (n, bs) ← zigzag bs
      .ok (.num n, bs)
    | 5 => do
      let (n, bs) ← zigzag bs
      .ok (.num n, bs)
    | 6 => do
      let (n, bs) ← zigzag bs
      .ok (.num n, bs)
    | 7 => do
      let (b, bs) ← takeBytes 8 bs
      .ok (.bin b, bs)
    | 8 => do
      let (n, bs) ← varint bs
      let (b, bs) ← takeBytes n bs
      .ok (.bin b, bs)
    | 9 => do
      let (n, t, bs) ← tListHead bs
      tList f n t bs []
    | 10 => do
      let (n, t, bs) ← tListHead bs
      tList f n t bs []
    | 11 => do
      let (n, bs) ← varint bs
      if n = 0 then .ok (.list [], bs)
      else do
        let (h, bs) ← takeBytes 1 bs
        tMap f n (byteAt h 0 / 16) (byteAt h 0 % 16) bs []
    | 12 => tStruct f 0 bs []
    | _ => .error badStream

/-- The elements of a list; `acc` holds them newest first. -/
def tList : Nat → Nat → Nat → Bytes → List TVal → Dec (TVal × Bytes)
  | 0, _, _, _, _ => .error badStream
  | f + 1, n, t, bs, acc =>
    match n with
    | 0 => .ok (.list acc.reverse, bs)
    | n + 1 => do
      let (v, bs) ← tValue f t bs
      tList f n t bs (v :: acc)

/-- The entries of a map, keys and values in turn. -/
def tMap : Nat → Nat → Nat → Nat → Bytes → List TVal → Dec (TVal × Bytes)
  | 0, _, _, _, _, _ => .error badStream
  | f + 1, n, k, t, bs, acc =>
    match n with
    | 0 => .ok (.list acc.reverse, bs)
    | n + 1 => do
      let (x, bs) ← tValue f k bs
      let (y, bs) ← tValue f t bs
      tMap f n k t bs (y :: x :: acc)

/-- The fields of a structure up to its stop byte; `last` is the id of the field before. -/
def tStruct : Nat → Nat → Bytes → List (Nat × TVal) → Dec (TVal × Bytes)
  | 0, _, _, _ => .error badStream
  | f + 1, last, bs, acc => do
    let (h, bs) ← takeBytes 1 bs
    let b := byteAt h 0
    if b = 0 then .ok (.struct_ acc.reverse, bs)
    else do
      let (id, bs) ← if b / 16 = 0 then (do
          let (n, bs) ← zigzag bs
          pure (n.toNat, bs)) else pure (last + b / 16, bs)
      if b % 16 = 1 || b % 16 = 2 then tStruct f id bs ((id, .num (if b % 16 = 1 then 1 else 0)) :: acc)
      else do
        let (v, bs) ← tValue f (b % 16) bs
        tStruct f id bs ((id, v) :: acc)

end

/-- A structure at the front of some bytes: its value and the bytes it takes. -/
def thrift (bs : Bytes) : Dec (TVal × Nat) := do
  let (v, r) ← tStruct (2 * bs.length + 2) 0 bs []
  .ok (v, bs.length - r.length)

/-- A field of a structure. -/
def TVal.get (v : TVal) (id : Nat) : Option TVal :=
  match v with
  | .struct_ fs => (fs.find? fun f => f.1 == id).map (·.2)
  | _ => none

/-- A number field. -/
def TVal.num? (v : TVal) (id : Nat) : Option Int :=
  match v.get id with
  | some (.num n) => some n
  | _ => none

/-- A number field that is not negative, or a default. -/
def TVal.nat (v : TVal) (id dflt : Nat) : Nat := ((v.num? id).map Int.toNat).getD dflt

/-- A list field. -/
def TVal.list? (v : TVal) (id : Nat) : Option (List TVal) :=
  match v.get id with
  | some (.list l) => some l
  | _ => none

/-- A number field is there and not negative. -/
def TVal.hasNat (v : TVal) (id : Nat) : Bool := (v.num? id).any fun n => decide (0 ≤ n)

end Sys2Proof.Machine
end

