-- ==== Sys2Proof/Machine/Parquet.lean ====
section
/-! DEFINITION. Parquet sources: footer, chunks, pages and their encodings (R124 to R128, Table 4-10). -/

namespace Sys2Proof.Machine

/-! ### The footer (R124) -/

/-- A leaf column of a schema: its type, type length, the id of its logical type in the LogicalType union, its maximum repetition and
definition levels, and the definition level of its repeated node. -/
structure Leaf where
  (type typeLen logical maxRep maxDef repDef : Nat)
  deriving Inhabited

/-- The leaves of the elements after the root; the stack holds for each open group the children left and its levels. -/
def leavesOf : List TVal → List (Nat × Nat × Nat × Nat) → List Leaf → List Leaf
  | [], _, acc => acc.reverse
  | e :: es, stack, acc =>
    match stack.dropWhile fun g => g.1 == 0 with
    | [] => acc.reverse
    | (n, r, d, rd) :: up =>
      let rep := e.nat 3 0
      let r' := r + (if rep = 2 then 1 else 0)
      let d' := d + (if rep = 0 then 0 else 1)
      let rd' := if rep = 2 then d' else rd
      let up := (n - 1, r, d, rd) :: up
      let kids := e.nat 5 0
      if 0 < kids then leavesOf es ((kids, r', d', rd') :: up) acc
      else
        let logical := match e.get 10 with
          | some (.struct_ ((id, _) :: _)) => id
          | _ => 0
        leavesOf es up (⟨e.nat 1 99, e.nat 2 0, logical, r', d', rd'⟩ :: acc)

/-- The codec of a column chunk as the engines number it: none where Table 4-10 does not support it. -/
def parquetCodec (c : Nat) : Option Nat :=
  match c with
  | 0 => some 0 | 6 => some 1 | 2 => some 3 | 7 => some 5 | _ => none

/-- One descriptor per column chunk: field position `i` in the row group that begins with row `row`. -/
def chunkOf (leaves : List Leaf) (group : TVal) (row i leaf : Nat) : Chunk :=
  let cols := (group.list? 1).getD []
  let base : Chunk := { (default : Chunk) with field := i, firstRow := row, rows := group.nat 3 0 }
  match leaves[leaf]?, cols[leaf]? with
  | some l, some c =>
    let m := (c.get 3).getD (.struct_ [])
    let secret := (c.get 8).isSome || (c.get 3).isNone
    let data := m.nat 9 0
    let dict := m.nat 11 0
    let codec := parquetCodec (m.nat 4 99)
    { base with
      off := if 0 < dict && decide (dict < data) then dict else data, len := m.nat 7 0, values := m.nat 5 0, codec := codec.getD 0, phys := l.type,
      typeLen := l.typeLen, logical := l.logical, maxRep := l.maxRep, maxDef := l.maxDef, optDef := l.repDef,
      bad := if codec.isNone && !secret then 0x31 else if l.type = 3 || 7 < l.type then 0x32
        else if 1 < l.maxRep || 3 < l.maxDef || secret then 0x33 else 0 }
  | _, _ => { base with bad := 0x33 }

/-- The descriptors of all row groups. -/
def chunksOf (leaves : List Leaf) (nums : List Nat) : List TVal → Nat → List Chunk
  | [], _ => []
  | g :: gs, row => ((List.range nums.length).zip nums).map (fun e => chunkOf leaves g row e.1 e.2) ++ chunksOf leaves nums gs (row + g.nat 3 0)

/-- Goust arms a stream onto a Parquet file: the chunk descriptors, or the offset the failure is reported at. -/
def armParquet (nums : List Nat) (src : Bytes) : Except Nat (List Chunk) :=
  let n := src.length
  let len := leAt src (n - 8) 4
  let at_ := n - 8 - len
  if n < 12 || leAt src 0 4 != 0x31524150 then .error 0
  else if leAt src (n - 4) 4 != 0x31524150 then .error (n - 4)
  else if 16777216 < len || n < 12 + len then .error (n - 8)
  else match thrift (slice src at_ len) with
    | .error _ => .error at_
    | .ok (v, _) =>
      match v.list? 2, v.list? 4 with
      | some (root :: es), some groups =>
        let leaves := leavesOf es [(root.nat 5 0, 0, 0, 0)] []
        if leaves.isEmpty || 4096 < leaves.length || 65536 < groups.length then .error at_ else .ok (chunksOf leaves nums groups 0)
      | _, _ => .error at_

/-! ### Values -/

/-- The column a leaf decodes to (Table 4-10). -/
def parquetColumn (c : Chunk) : Column :=
  let fmt := match c.phys with
    | 0 => 5 | 1 => 3 | 2 => 4 | 4 => 0xb | 5 => 0xb
    | 7 => if c.typeLen = 2 && c.logical == 15 then 9 else if c.typeLen = 16 then 0xe else 0xf
    | _ => 0xf
  ⟨if 0 < c.maxRep then 3 else if fmt = 0xf then 2 else 1, fmt, 1, []⟩

/-- A byte string as an element of a list: a 1 above its bits marks its length. -/
def strElem (b : Bytes) : Elem := Elem.of (ofLe (b ++ [1]))

/-- A leaf value from its bytes. -/
def leafVal (c : Chunk) (b : Bytes) : Val :=
  let col := parquetColumn c
  if col.fmt = 0xf then ⟨true, false, b, [strElem b]⟩
  else if c.phys = 5 then Val.one (fp64to32 (ofLe b))
  else Val.one (ofLe b)

/-- Bytes of a fixed-width leaf; 0 for the others. -/
def leafWidth (c : Chunk) : Nat :=
  match c.phys with
  | 1 => 4 | 2 => 8 | 4 => 4 | 5 => 8 | 7 => c.typeLen | _ => 0

/-- `n` PLAIN byte arrays. -/
def plainStrings : Nat → Bytes → Dec (List Bytes)
  | 0, _ => .ok []
  | n + 1, bs => do
    let (h, bs) ← takeBytes 4 bs
    let (b, bs) ← takeBytes (ofLe h) bs
    let r ← plainStrings n bs
    .ok (b :: r)

/-- `n` PLAIN values. -/
def plainVals (c : Chunk) (n : Nat) (bs : Bytes) : Dec (List Val) :=
  if c.phys = 0 then do
    let (d, _) ← takeBytes ((n + 7) / 8) bs
    .ok (((bitsOf d).take n).map fun b => Val.one (b2n b))
  else if c.phys = 6 then (plainStrings n bs).map fun l => l.map (leafVal c)
  else do
    let w := leafWidth c
    let (d, _) ← takeBytes (n * w) bs
    .ok ((List.range n).map fun i => leafVal c (slice d (i * w) w))

/-- `n` values of an RLE/bit-packed hybrid of width `w`, with the bytes after them; a run past the last value is an overrun. -/
def hybrid (w : Nat) : Nat → Nat → Bytes → Dec (List Nat × Bytes)
  | 0, _, _ => .error badStream
  | f + 1, n, bs =>
    if n = 0 then .ok ([], bs)
    else do
      let (h, bs) ← varint bs
      if h % 2 = 1 then do
        let k := h / 2
        let (d, bs) ← takeBytes (k * w) bs
        need (decide (0 < k) && decide (8 * k < n + 8)) badStream
        let (vs, _) ← getMany w (min n (8 * k)) (bitsOf d)
        let r ← hybrid w f (n - vs.length) bs
        .ok (vs ++ r.1, r.2)
      else do
        let k := h / 2
        let (d, bs) ← takeBytes ((w + 7) / 8) bs
        need (decide (0 < k) && decide (k ≤ n)) badStream
        let r ← hybrid w f (n - k) bs
        .ok (List.replicate k (ofLe d) ++ r.1, r.2)

/-- The numbers of one block of miniblocks: their widths, `m` values each, each number the one before plus the block's least difference
plus what is stored; at most `n` are left. -/
def deltaMinis (bits m : Nat) (least : Int) : List Nat → Nat → Int → Bytes → Dec (List Int × Bytes)
  | [], _, _, bs => .ok ([], bs)
  | w :: ws, n, prev, bs =>
    if n = 0 then .ok ([], bs)
    else do
      need (decide (w ≤ 64)) badStream
      let (d, bs) ← takeBytes (m * w / 8) bs
      let (xs, _) ← getMany w m (bitsOf d)
      let k := min n m
      let step := (xs.take k).foldl (fun (a : List Int × Int) (x : Nat) => ((a.2 + least + (x : Int)) :: a.1, a.2 + least + (x : Int))) ([], prev)
      let r ← deltaMinis bits m least ws (n - k) step.2 bs
      .ok (step.1.reverse ++ r.1, r.2)

/-- The blocks of a DELTA_BINARY_PACKED page after its first value. -/
def deltaBlocks (bits block minis : Nat) : Nat → Nat → Int → Bytes → Dec (List Int)
  | 0, _, _, _ => .error badStream
  | f + 1, n, prev, bs =>
    if n = 0 then .ok []
    else do
      let (least, bs) ← zigzag bs
      let (ws, bs) ← takeBytes minis bs
      let (xs, bs) ← deltaMinis bits (block / minis) least (ws.map (·.toNat)) n prev bs
      let r ← deltaBlocks bits block minis f (n - xs.length) (xs.getLastD prev) bs
      .ok (xs ++ r)

/-- `n` values of a DELTA_BINARY_PACKED page. -/
def deltaVals (bits n : Nat) (bs : Bytes) : Dec (List Val) := do
  let (block, bs) ← varint bs
  let (minis, bs) ← varint bs
  let (total, bs) ← varint bs
  let (first, bs) ← zigzag bs
  need (decide (0 < minis) && decide (0 < block) && block % (8 * minis) == 0 && total == n) badStream
  if n = 0 then .ok []
  else do
    let xs ← deltaBlocks bits block minis (n + 1) (n - 1) first bs
    .ok ((first :: xs).map fun x => Val.one (ofInt bits x))

/-- The encoding of a data page is one its type supports (Table 4-10). -/
def encodingOk (c : Chunk) (e : Nat) : Bool := e == 0 || e == 8 || (e == 3 && c.phys == 0) || (e == 5 && (c.phys == 1 || c.phys == 2))

/-- The leaf values of a page: a value or the reason its row is blotted; or the reason the page is. -/
def pageVals (c : Chunk) (q : FieldQueue) (enc n : Nat) (bs : Bytes) : Except Nat (List (Except Nat Val)) :=
  let page : Dec (List Val) → Except Nat (List (Except Nat Val)) := fun r =>
    match r with
    | .ok vs => .ok (vs.map .ok)
    | .error _ => .error 0x1c
  match enc with
  | 0 => page (plainVals c n bs)
  | 3 => page (do
      let (h, bs) ← takeBytes 4 bs
      let (d, _) ← takeBytes (ofLe h) bs
      let (vs, _) ← hybrid 1 (n + 1) n d
      .ok (vs.map Val.one))
  | 5 => page (deltaVals (8 * leafWidth c) n bs)
  | _ =>
    if q.dictBad ≠ 0 then .error q.dictBad
    else match q.dict with
      | none => .error 0x1b
      | some dict =>
        let r : Dec (List Nat) := do
          if n = 0 then .ok []
          else do
            let (w, bs) ← takeBytes 1 bs
            need (decide (byteAt w 0 ≤ 32)) badStream
            let (vs, _) ← hybrid (byteAt w 0) (n + 1) n bs
            .ok vs
        match r with
        | .error _ => .error 0x1c
        | .ok is =>
          let a := dict.toArray
          match is.mapM fun i => a[i]? with
          | some vs => .ok (vs.map .ok)
          | none => .error 0x1b

/-! ### Levels and rows (R127, R128) -/

/-- Bits of a level whose maximum is `m`. -/
def levelBits (m : Nat) : Nat := if m = 0 then 0 else m.log2 + 1

/-- Levels as far as they decode: those read, cut at the first one above the maximum or where they run out. -/
def levelsOf (max_ n : Nat) (bs : Bytes) : List Nat :=
  if max_ = 0 then List.replicate n 0
  else
    let rec go : Nat → Nat → Bytes → List Nat → List Nat
      | 0, _, _, acc => acc
      | f + 1, n, bs, acc =>
        if n = 0 then acc
        else
          let w := levelBits max_
          match varint bs with
          | .error _ => acc
          | .ok (h, bs) =>
            if h = 0 || h = 1 then acc
            else if h % 2 = 1 then
              let k := h / 2
              match getMany w (min n (8 * k)) (bitsOf (bs.take (k * w))) with
              | .error _ => acc
              | .ok (vs, _) => if n + 8 ≤ 8 * k then acc else go f (n - vs.length) (bs.drop (k * w)) (acc ++ vs)
            else
              let k := h / 2
              if bs.length < (w + 7) / 8 || n < k then acc
              else go f (n - k) (bs.drop ((w + 7) / 8)) (acc ++ List.replicate k (ofLe (bs.take ((w + 7) / 8))))
    (go (n + 1) n bs []).takeWhile fun l => decide (l ≤ max_)

/-- One row of a repeated column from the definition levels of its entries and the leaf values it takes (R128). -/
def listRow (c : Chunk) (defs : List Nat) (vs : List (Except Nat Val)) : Except Nat Val :=
  let d := defs.headD 0
  if d + 1 < c.optDef then .ok Val.null
  else if d < c.optDef then .ok ⟨true, false, [], []⟩
  else
    let r := defs.foldl (fun (a : List Elem × List (Except Nat Val) × Nat) d =>
      if d = c.maxDef then
        match a.2.1 with
        | .ok v :: rest => (nth v.elems 0 default :: a.1, rest, a.2.2)
        | .error e :: rest => (⟨0, false, true⟩ :: a.1, rest, e)
        | [] => a
      else (⟨0, false, false⟩ :: a.1, a.2.1, a.2.2)) ([], vs, 0)
    if r.2.2 ≠ 0 then .error r.2.2 else .ok ⟨true, false, [], r.1.reverse⟩

/-- The rows of a page from its levels and leaf values. -/
def rowsOf (c : Chunk) : Nat → List (Nat × Nat) → List (Except Nat Val) → List (Except Nat Val)
  | 0, _, _ => []
  | _, [], _ => []
  | f + 1, (_, d) :: ls, vs =>
    if c.maxRep = 0 then
      if d = c.maxDef then
        (match nth vs 0 (.error 0x1a) with
          | .ok v => .ok (if (parquetColumn c).fmt = 0xf then Val.str v.bytes else v)
          | .error e => .error e) :: rowsOf c f ls (vs.drop 1)
      else .ok Val.null :: rowsOf c f ls vs
    else
      let more := ls.takeWhile fun l => l.1 != 0
      let defs := d :: more.map (·.2)
      let k := (defs.filter (· == c.maxDef)).length
      listRow c defs vs :: rowsOf c f (ls.drop more.length) (vs.drop k)

/-! ### Pages (R126, R127) -/

/-- A page header: page type, uncompressed and compressed sizes, its checksum, values, rows where it says, encoding, the encodings of v1
levels, the level bytes of v2 and whether its values are compressed, and the header's own bytes. -/
structure PageHead where
  (type raw stored : Nat)
  (crc : Option Nat)
  (values : Nat)
  (rows : Option Nat)
  (enc defEnc repEnc defLen repLen : Nat)
  (packed : Bool)
  (size : Nat)

/-- A page header at the front of some bytes; none where it does not parse. -/
def pageHead (bs : Bytes) : Dec PageHead := do
  let (v, n) ← thrift bs
  need (v.hasNat 1 && v.hasNat 2 && v.hasNat 3) badStream
  let type := v.nat 1 0
  let sub := (v.get (match type with | 0 => 5 | 2 => 7 | _ => 8)).getD (.struct_ [])
  let ok := match type with
    | 0 => sub.hasNat 1 && sub.hasNat 2 && sub.hasNat 3 && sub.hasNat 4
    | 2 => sub.hasNat 1 && sub.hasNat 2
    | 3 => sub.hasNat 1 && sub.hasNat 2 && sub.hasNat 3 && sub.hasNat 4 && sub.hasNat 5 && sub.hasNat 6 && decide (sub.nat 5 0 + sub.nat 6 0 ≤ min (v.nat 2 0) (v.nat 3 0))
    | _ => true
  need ok badStream
  .ok { type := type, raw := v.nat 2 0, stored := v.nat 3 0, crc := (v.num? 4).map (ofInt 32), values := sub.nat 1 0,
        rows := if type = 3 then some (sub.nat 3 0) else none, enc := if type = 3 then sub.nat 4 0 else sub.nat 2 0, defEnc := sub.nat 3 3,
        repEnc := sub.nat 4 3, defLen := if type = 3 then sub.nat 5 0 else 0, repLen := if type = 3 then sub.nat 6 0 else 0,
        packed := type != 3 || sub.nat 7 1 == 1, size := n }

/-- The field queue at a position. -/
def Ingest.queue (g : Ingest) (i : Nat) : FieldQueue := nth g.fields i default

/-- The field queue at a position changed. -/
def Ingest.setQueue (g : Ingest) (i : Nat) (f : FieldQueue → FieldQueue) : Ingest := { g with fields := modifyAt f i g.fields }

/-- The chunks of a field position. -/
def Ingest.fieldChunks (g : Ingest) (i : Nat) : List Chunk := g.chunks.filter fun c => c.field == i

/-- A field moved to a chunk. -/
def startChunk (k : Nat) (c : Chunk) (q : FieldQueue) : FieldQueue :=
  { q with chunk := k, pos := c.off, row := c.firstRow, seen := 0, dict := none, dictBad := 0 }

/-- A field moved on past its chunk. -/
def nextChunk (g : Ingest) (i : Nat) (q : FieldQueue) : FieldQueue :=
  match (g.fieldChunks i)[q.chunk + 1]? with
  | some c => startChunk (q.chunk + 1) c q
  | none => { q with chunk := q.chunk + 1 }

/-- The rows from the field's position to the end of its chunk blotted in one report, and the walk resumed at the next chunk (R127). -/
def restOfChunk (c : WalkCtx) (ch : Chunk) (i reason offset : Nat) (g : Ingest) : UnitOut :=
  let q := g.queue i
  let n := ch.firstRow + ch.rows - q.row
  let g := { g with jobs := [], outs := [] }
  let g := g.addRows i (c.wanted q.row (List.replicate n (c.blot g i)))
  c.fieldBlot (g.setQueue i (nextChunk g i)) reason i offset q.row n

/-- A page's rows blotted under one reason, and the walk moved past the page. -/
def blotPage (c : WalkCtx) (i reason offset rows : Nat) (past : FieldQueue → FieldQueue) (g : Ingest) : UnitOut :=
  let q := g.queue i
  let g := { g with jobs := [], outs := [] }
  let g := g.addRows i (c.wanted q.row (List.replicate rows (c.blot g i)))
  c.fieldBlot (g.setQueue i fun x => { past x with row := q.row + rows }) reason i offset q.row rows

/-- A dictionary page (R126, Table 4-15). -/
def dictPage (c : WalkCtx) (ch : Chunk) (i : Nat) (h : PageHead) (body : Bytes) (past : FieldQueue → FieldQueue) (g : Ingest) : UnitOut :=
  let q := g.queue i
  let done : (FieldQueue → FieldQueue) → UnitOut := fun f => ⟨({ g with jobs := [], outs := [] } : Ingest).setQueue i fun x => f (past x), []⟩
  let bad : Nat → UnitOut := fun e => done fun x => { x with dict := none, dictBad := e }
  let w := leafWidth ch
  if q.pos != ch.off then bad 0x1b
  else if h.enc != 0 then bad 0x30
  else if !claimOk h.raw c.ing.unitCap h.stored || !claimOk (if w = 0 then h.raw else h.values * w) c.dictBytes h.stored ||
      !frameClaimOk ch.codec c.ing.unitCap body then bad 0x38
  else if h.crc.any fun x => x != crc32 body then bad 0x19
  else
    let jobs : List FrameJob := if ch.codec = 0 then [] else [⟨ch.codec, body, c.ing.unitCap, some h.raw, c.ing.needSum⟩]
    match g.need_ jobs with
    | some g => ⟨g, []⟩
    | none =>
      let dec : FrameOut := if ch.codec = 0 then (if h.raw = body.length then .bytes body else .bad 0x29) else nth g.outs 0 (.bad badStream)
      match dec with
      | .bad e => bad e
      | .bytes b => match plainVals ch h.values b with
        | .ok vs => done fun x => { x with dict := some vs }
        | .error _ => bad 0x1c

/-- The levels and the values' bytes of a decoded data page: v1 levels carry their lengths; none where those run past the page. -/
def splitLevels (ch : Chunk) (h : PageHead) (levels body : Bytes) : Option (Bytes × Bytes × Bytes) :=
  if h.type = 3 then some (levels.take h.repLen, levels.drop h.repLen, body)
  else
    let cut : Nat → Bytes → Option (Bytes × Bytes) := fun m bs =>
      if m = 0 then some ([], bs)
      else match takeBytes 4 bs with
        | .ok (n, bs) => match takeBytes (ofLe n) bs with
          | .ok r => some r
          | .error _ => none
        | .error _ => none
    match cut ch.maxRep body with
    | none => none
    | some (r, rest) => (cut ch.maxDef rest).map fun x => (r, x.1, x.2)

/-- The rows of a repeated v1 page from its repetition levels; none where those cannot be counted (R127). -/
def countedRows (ch : Chunk) (h : PageHead) (body : Bytes) : Option Nat :=
  match takeBytes 4 body with
  | .error _ => none
  | .ok (n, rest) => match takeBytes (ofLe n) rest with
    | .error _ => none
    | .ok (levels, _) =>
      let reps := levelsOf ch.maxRep h.values levels
      if reps.length == h.values && !reps.head?.any (· != 0) then some (reps.filter (· == 0)).length else none

/-- A data page (R126 to R128, R147): its rows are known from the header, or counted once its levels are decoded, which an unsupported
encoding of its values does not hinder. -/
def dataPage (c : WalkCtx) (ch : Chunk) (i : Nat) (h : PageHead) (stored : Bytes) (past : FieldQueue → FieldQueue) (g : Ingest) : UnitOut :=
  let q := g.queue i
  let known : Option Nat := if h.type = 3 then h.rows else if ch.maxRep = 0 then some h.values else none
  let left := ch.firstRow + ch.rows - q.row
  let past : FieldQueue → FieldQueue := fun x => { past x with seen := x.seen + h.values }
  let levelsOk := h.type == 3 || ((ch.maxRep = 0 || h.repEnc == 3) && (ch.maxDef = 0 || h.defEnc == 3))
  let odd := !encodingOk ch h.enc || !levelsOk
  let count := odd && known.isNone && h.repEnc == 3
  let bad : Nat → Nat → UnitOut := fun e o =>
    let r := if count then (0x30, q.pos) else (e, o)
    match known with
    | some n => blotPage c i r.1 r.2 (min n left) past g
    | none => restOfChunk c ch i r.1 r.2 g
  let lv := h.defLen + h.repLen
  let body := stored.drop lv
  let packed := ch.codec != 0 && h.packed && !(h.type == 3 && body.isEmpty && h.raw == lv)
  if odd && !count then bad 0x30 q.pos
  else if !claimOk h.raw c.ing.unitCap h.stored || (packed && !frameClaimOk ch.codec c.ing.unitCap body) then bad 0x38 q.pos
  else if h.crc.any fun x => x != crc32 stored then bad 0x19 q.pos
  else
    let jobs : List FrameJob := if packed then [⟨ch.codec, body, c.ing.unitCap, some (h.raw - lv), c.ing.needSum⟩] else []
    match g.need_ jobs with
    | some g => ⟨g, []⟩
    | none =>
      let dec : FrameOut := if packed then nth g.outs 0 (.bad badStream) else if body.length = h.raw - lv then .bytes body else .bad 0x29
      match dec with
      | .bad e => bad e (q.pos + h.size + lv)
      | .bytes b => match (if known.isSome then known else countedRows ch h b) with
        | none => bad 0x1a q.pos
        | some rows =>
          let page : Nat → UnitOut := fun e => blotPage c i e q.pos (min rows left) past g
          if count then page 0x30
          else match splitLevels ch h (stored.take lv) b with
            | none => page 0x1a
            | some (rb, db, vb) =>
              let reps := levelsOf ch.maxRep h.values rb
              let ls := reps.zip (levelsOf ch.maxDef h.values db)
              let whole := ls.length == h.values
              if ch.maxRep != 0 && reps.head?.any (· != 0) then page 0x1a
              else if left < rows || (whole && (reps.filter (· == 0)).length != rows) then bad 0x3a q.pos
              else match pageVals ch q h.enc (ls.filter fun l => l.2 == ch.maxDef).length vb with
                | .error e => page (if whole then e else 0x1a)
                | .ok vs =>
                  let good := rowsOf ch (ls.length + 1) ls vs
                  let cutRow := ((reps.take ls.length).filter (· == 0)).length - 1
                  let full := if whole then good else good.take (if ch.maxRep = 0 then ls.length else cutRow)
                  let rowsNow := full ++ List.replicate (rows - full.length) (.error 0x1a)
                  let g := { g with jobs := [], outs := [] }
                  let g := g.setQueue i fun x => { past x with row := q.row + rows }
                  addField c i q.pos q.row rows (.ok rowsNow) g

/-- The next page of a field's chunk. -/
def parquetPage (c : WalkCtx) (ch : Chunk) (i : Nat) (g : Ingest) : UnitOut :=
  let q := g.queue i
  let fin := min c.src.length (ch.off + ch.len)
  if ch.bad ≠ 0 then restOfChunk c ch i ch.bad ch.off g
  else if ch.values ≤ q.seen || ch.off + ch.len ≤ q.pos then
    if q.row < ch.firstRow + ch.rows then restOfChunk c ch i 0x3a ch.off g else ⟨g.setQueue i (nextChunk g i), []⟩
  else if c.src.length ≤ q.pos then restOfChunk c ch i 0x11 q.pos g
  else match pageHead (slice c.src q.pos (fin - q.pos)) with
    | .error e => restOfChunk c ch i (if e = 0 && decide (c.src.length < ch.off + ch.len) then 0x11 else 0x18) q.pos g
    | .ok h =>
      let body := q.pos + h.size
      let past : FieldQueue → FieldQueue := fun x => { x with pos := body + h.stored }
      if ch.off + ch.len < body + h.stored then restOfChunk c ch i 0x18 q.pos g
      else if c.src.length < body + h.stored then restOfChunk c ch i 0x11 q.pos g
      else match h.type with
        | 0 => dataPage c ch i h (slice c.src body h.stored) past g
        | 1 => ⟨{ g.setQueue i past with skipped := g.skipped + 1 }, []⟩
        | 2 => dictPage c ch i h (slice c.src body h.stored) past g
        | 3 => dataPage c ch i h (slice c.src body h.stored) past g
        | _ => restOfChunk c ch i 0x33 q.pos g

/-- The walk of a Parquet source begun. -/
def parquetOpen (c : WalkCtx) (g : Ingest) : Ingest :=
  let g := { g with open_ := true, base := c.first }
  { g with fields := (List.range c.nums.length).map fun i =>
      match (g.fieldChunks i)[0]? with
      | some ch => startChunk 0 ch (FieldQueue.of (parquetColumn ch))
      | none => FieldQueue.of ⟨2, 0xf, 1, []⟩ }

/-- A field's chunks outside the requested range passed over. -/
def skipChunks (c : WalkCtx) (i : Nat) (g : Ingest) : Nat → Ingest
  | 0 => g
  | f + 1 =>
    let q := g.queue i
    match (g.fieldChunks i)[q.chunk]? with
    | none => g
    | some ch =>
      if ch.firstRow + ch.rows ≤ c.first || c.last ≤ q.row then skipChunks c i (g.setQueue i (nextChunk g i)) f else g

/-- One structure unit of a Parquet source: a page of the field that has come least far. -/
def parquetUnit (c : WalkCtx) (g : Ingest) : UnitOut :=
  if !g.open_ then ⟨parquetOpen c g, []⟩
  else
    let g := (List.range c.nums.length).foldl (fun g i => skipChunks c i g ((g.fieldChunks i).length + 1)) g
    let open' := (List.range c.nums.length).filter fun i => ((g.fieldChunks i)[(g.queue i).chunk]?).isSome
    match sortBy (fun a b => decide ((g.queue a).row < (g.queue b).row)) open' with
    | [] => ⟨{ g with ended := true }, []⟩
    | i :: _ => match (g.fieldChunks i)[(g.queue i).chunk]? with
      | some ch => parquetPage c ch i g
      | none => ⟨g, []⟩

end Sys2Proof.Machine
end

