-- ==== Sys2Proof/Machine/Arrow.lean ====
section
/-! DEFINITION. Arrow IPC streams: messages, schema, record batches (R129 to R131, Table 4-11). -/

namespace Sys2Proof.Machine

/-! ### Flatbuffers -/

/-- `n` bytes of a buffer as a number; none where the buffer does not hold them. -/
def fbNat (b : Bytes) (o n : Nat) : Option Nat := if o + n ≤ b.length then some (leAt b o n) else none

/-- The place of a field of the table at `t`: 0 where it is absent. -/
def fbField (b : Bytes) (t i : Nat) : Option Nat := do
  let so ← fbNat b t 4
  let vt : Int := (t : Int) - toInt 32 so
  if vt < 0 then none
  else do
    let v := vt.toNat
    let size ← fbNat b v 2
    if size < 4 + 2 * i + 2 then some 0
    else do
      let o ← fbNat b (v + 4 + 2 * i) 2
      some (if o = 0 then 0 else t + o)

/-- A number field of `n` bytes with its default. -/
def fbNum (b : Bytes) (t i n dflt : Nat) : Option Nat := do
  let o ← fbField b t i
  if o = 0 then some dflt else fbNat b o n

/-- The place an offset field points to; 0 where it is absent. -/
def fbRef (b : Bytes) (t i : Nat) : Option Nat := do
  let o ← fbField b t i
  if o = 0 then some 0
  else do
    let d ← fbNat b o 4
    if o + d < b.length then some (o + d) else none

/-- A vector field: the place of its first element and its length. -/
def fbVec (b : Bytes) (t i width : Nat) : Option (Nat × Nat) := do
  let v ← fbRef b t i
  if v = 0 then some (0, 0)
  else do
    let n ← fbNat b v 4
    if v + 4 + n * width ≤ b.length then some (v + 4, n) else none

/-- The tables a vector of offsets points to. -/
def fbTables (b : Bytes) (t i : Nat) : Option (List Nat) := do
  let (o, n) ← fbVec b t i 4
  (List.range n).mapM fun k => do
    let d ← fbNat b (o + 4 * k) 4
    if o + 4 * k + d < b.length then some (o + 4 * k + d) else none

/-! ### The schema (R130) -/

/-- How a field's type is stored: `phys` 1 fixed width, 2 bits, 3 FP64, 4 variable binary, 0 not supported; bytes of a value; the value
type it decodes to. -/
def arrowType (b : Bytes) (type t : Nat) : Option (Nat × Nat × Nat) :=
  match type with
  | 2 => do
    let w ← fbNum b t 0 4 0
    let sg ← fbNum b t 1 1 0
    some (match w with
      | 8 => (1, 1, if sg = 0 then 5 else 1)
      | 16 => (1, 2, if sg = 0 then 6 else 2)
      | 32 => (1, 4, if sg = 0 then 7 else 3)
      | 64 => (1, 8, if sg = 0 then 8 else 4)
      | _ => (0, 0, 0))
  | 3 => do
    let p ← fbNum b t 0 2 0
    some (match p with | 0 => (1, 2, 9) | 1 => (1, 4, 0xb) | 2 => (3, 8, 0xb) | _ => (0, 0, 0))
  | 4 => some (4, 0, 0xf)
  | 5 => some (4, 0, 0xf)
  | 6 => some (2, 0, 5)
  | 8 => do
    let u ← fbNum b t 0 2 1
    some (if u = 0 then (1, 4, 3) else (1, 8, 4))
  | 9 => do
    let w ← fbNum b t 1 4 32
    some (if w = 32 then (1, 4, 3) else (1, 8, 4))
  | 10 => some (1, 8, 4)
  | 18 => some (1, 8, 4)
  | _ => some (0, 0, 0)

/-- Buffers of a field's own by type; dictionary-encoded fields hold indices. -/
def ownBuffers (type mode : Nat) : Nat :=
  match type with
  | 1 => 0 | 4 => 3 | 5 => 3 | 12 => 2 | 13 => 1 | 14 => if mode = 0 then 1 else 2 | 16 => 1 | 17 => 2 | 19 => 3 | 20 => 3 | 21 => 2
  | 22 => 0 | 25 => 3 | 26 => 3 | _ => 2

/-- Nodes, buffers and view fields of a field with its children, `depth` levels deep. -/
def fieldExtent (b : Bytes) : Nat → Nat → Option (Nat × Nat × Nat)
  | 0, _ => none
  | depth + 1, f => do
    let type ← fbNum b f 2 1 0
    let t ← fbRef b f 3
    let dict ← fbRef b f 4
    if dict ≠ 0 then some (1, 2, 0)
    else do
      let mode ← if type = 14 then fbNum b t 0 2 0 else some 0
      let kids ← fbTables b f 5
      let parts ← kids.mapM (fieldExtent b depth)
      let view := if type = 23 || type = 24 then 1 else 0
      some (parts.foldl (fun a p => (a.1 + p.1, a.2.1 + p.2.1, a.2.2 + p.2.2)) (1, ownBuffers type mode, view))

/-- The descriptor of a field: `values` and `len` its first node and buffer, `firstRow` the view fields before it, `maxRep` 1 for a
list, `phys`, `typeLen` and `logical` how its values or elements are stored. -/
def arrowField (b : Bytes) (f i node buf view : Nat) : Option Chunk := do
  let type ← fbNum b f 2 1 0
  let t ← fbRef b f 3
  let dict ← fbRef b f 4
  let base : Chunk := { (default : Chunk) with field := i, values := node, len := buf, firstRow := view, bad := 0x32 }
  if dict ≠ 0 then some base
  else if type = 12 then do
    let kids ← fbTables b f 5
    match kids with
    | [k] => do
      let kt ← fbNum b k 2 1 0
      let ktab ← fbRef b k 3
      let kd ← fbRef b k 4
      let r ← arrowType b kt ktab
      some (if kd ≠ 0 || r.1 = 0 then base else { base with maxRep := 1, phys := r.1, typeLen := r.2.1, logical := r.2.2, bad := 0 })
    | _ => none
  else do
    let r ← arrowType b type t
    some (if r.1 = 0 then base else { base with phys := r.1, typeLen := r.2.1, logical := r.2.2, bad := 0 })

/-- The leaf columns of a field (R124): the fields under it that have no children of their own. -/
def leafColumns (b : Bytes) : Nat → Nat → Option Nat
  | 0, _ => none
  | depth + 1, f => do
    let kids ← fbTables b f 5
    if kids.isEmpty then some 1 else (kids.mapM (leafColumns b depth)).map List.sum

/-- The message at an offset: its metadata and the offset of its body; `error 0` where the source ends. -/
def arrowMessage (src : Bytes) (o : Nat) : Dec (Bytes × Nat) := do
  need (decide (o + 8 ≤ src.length)) 0
  need (leAt src o 4 == 0xffffffff) 0x20
  let n := leAt src (o + 4) 4
  need (n % 8 == 0 && decide (n < 2 ^ 31)) 0x20
  need (decide (o + 8 + n ≤ src.length)) 0
  .ok (slice src (o + 8) n, o + 8 + n)

/-- The root table, version, header kind, header table and body length of a message. -/
def messageHead (b : Bytes) : Option (Nat × Nat × Nat × Nat) := do
  let t ← fbNat b 0 4
  let v ← fbNum b t 0 2 0
  let k ← fbNum b t 1 1 0
  let h ← fbRef b t 2
  let n ← fbNum b t 3 8 0
  if h = 0 || 2 ^ 63 ≤ n then none else some (v, k, h, n)

/-- The fields of a schema with the nodes, buffers and views before each, and the totals. -/
def schemaFields (b : Bytes) : List Nat → Nat × Nat × Nat → Option (List (Nat × Nat × Nat × Nat) × (Nat × Nat × Nat))
  | [], n => some ([], n)
  | f :: fs, n => do
    let e ← fieldExtent b 64 f
    let r ← schemaFields b fs (n.1 + e.1, n.2.1 + e.2.1, n.2.2 + e.2.2)
    some ((f, n) :: r.1, r.2)

/-- The descriptors of the requested fields of a schema; each carries the totals of nodes and buffers in `rows` and `optDef`, the number
of fields in `maxDef`, and the offset of the first message after the schema. -/
def arrowSchema (b : Bytes) (h : Nat) (nums : List Nat) (body : Nat) : Option (List Chunk) := do
  let fs ← fbTables b h 1
  let (places, total) ← schemaFields b fs (0, 0, 0)
  let leaves ← fs.mapM (leafColumns b 64)
  if 4096 < leaves.sum then none
  else ((List.range nums.length).zip nums).mapM fun e => do
    let c : Chunk ← match places[e.2]? with
      | some p => arrowField b p.1 e.1 p.2.1 p.2.2.1 p.2.2.2
      | none => some { (default : Chunk) with field := e.1, bad := 0x32 }
    some { c with rows := total.1, optDef := total.2.1, off := body }

/-- Goust arms a stream onto an Arrow stream: the field descriptors, or the offset the failure is reported at (R129, R130). -/
def armArrow (nums : List Nat) (src : Bytes) : Except Nat (List Chunk) :=
  match arrowMessage src 0 with
  | .error _ => .error 0
  | .ok (b, body) =>
    if b.isEmpty || 16777216 < b.length then .error 0
    else match messageHead b with
      | none => .error 8
      | some (v, k, h, n) =>
        if v != 4 || k != 1 then .error 8
        else match fbNum b h 0 2 0 with
          | some 0 => match arrowSchema b h nums (body + n) with
            | some cs => .ok cs
            | none => .error 8
          | _ => .error 8

/-! ### Record batches -/

/-- A record batch's header: rows, nodes (length each), buffers (offset, length), its codec (none, or as Table 4-1 numbers it, 0xFF
unsupported), the buffers of view fields. -/
structure BatchHead where
  (rows : Nat)
  (nodes : List Nat)
  (bufs : List (Nat × Nat))
  (codec : Option Nat)
  (views : List Nat)

/-- The number of rows a batch header claims. -/
def batchRows (b : Bytes) (h : Nat) : Option Nat := (fbNum b h 0 8 0).bind fun n => if 2 ^ 63 ≤ n then none else some n

/-- A batch header read. -/
def batchHead (b : Bytes) (h : Nat) : Option BatchHead := do
  let rows ← batchRows b h
  let (no, nn) ← fbVec b h 1 16
  let (bo, bn) ← fbVec b h 2 16
  let (vo, vn) ← fbVec b h 4 8
  let z ← fbRef b h 3
  let codec ← if z = 0 then some none else (do
    let c ← fbNum b z 0 1 0
    let m ← fbNum b z 1 1 0
    some (some (if m ≠ 0 then 0xff else if c = 0 then 2 else if c = 1 then 1 else 0xff)))
  some { rows := rows, nodes := (List.range nn).map fun i => leAt b (no + 16 * i) 8,
         bufs := (List.range bn).map fun i => (leAt b (bo + 16 * i) 8, leAt b (bo + 16 * i + 8) 8), codec := codec,
         views := (List.range vn).map fun i => leAt b (vo + 8 * i) 8 }

/-- The buffers a supported field needs, from its first: validity with offsets and values, and a list's with its child's. -/
def bufferCount (c : Chunk) : Nat := (if c.maxRep = 1 then 2 else 0) + (if c.phys = 4 then 3 else 2)

/-- The numbers of the buffers of a field. -/
def fieldBuffers (h : BatchHead) (c : Chunk) : List Nat :=
  let k := c.len + (h.views.take c.firstRow).sum
  (List.range (bufferCount c)).map (k + ·)

/-- A buffer before its decode: stored bytes, a frame for an engine, or the reason it fails with the offset of the failure. -/
inductive Buf where
  | raw (b : Bytes)
  | frame (j : FrameJob) (at_ : Nat)
  | bad (reason at_ : Nat)

/-- A buffer of a batch (R131). -/
def batchBuffer (c : WalkCtx) (h : BatchHead) (body k : Nat) : Buf :=
  let e := nth h.bufs k (0, 0)
  let b := slice c.src (body + e.1) e.2
  match h.codec with
  | none => .raw b
  | some codec =>
    if b.isEmpty then .raw b
    else if b.length < 8 then .bad 0x21 (body + e.1)
    else if leAt b 0 8 = 2 ^ 64 - 1 then .raw (b.drop 8)
    else
      let n := leAt b 0 8
      if !claimOk n c.ing.unitCap (b.length - 8) || !frameClaimOk codec c.ing.unitCap (b.drop 8) then .bad 0x38 (body + e.1)
      else .frame ⟨codec, b.drop 8, c.ing.unitCap, some n, c.ing.needSum⟩ (body + e.1 + 8)

/-- The buffers of all fields with their decodes put in, frames first to last: bytes, or a reason with its offset. -/
def settle : List Buf → List FrameOut → List (Except (Nat × Nat) Bytes)
  | [], _ => []
  | .raw b :: r, os => .ok b :: settle r os
  | .bad e o :: r, os => .error (e, o) :: settle r os
  | .frame _ _ :: r, .bytes b :: os => .ok b :: settle r os
  | .frame _ o :: r, .bad e :: os => .error (e, o) :: settle r os
  | .frame _ o :: r, [] => .error (badStream, o) :: settle r []

/-- Presence bits of `n` rows; none where the bitmap is too short. -/
def arrowValid (n : Nat) (b : Bytes) : Option (List Bool) :=
  if b.isEmpty then some (List.replicate n true) else if b.length < (n + 7) / 8 then none else some ((bitsOf (b.take ((n + 7) / 8))).take n)

/-- The offsets of `n` rows; none where they run past the buffer, decrease, or reach past `limit`. -/
def arrowOffsets (n : Nat) (b : Bytes) : Option (List Nat) :=
  if n = 0 then some [0]
  else if b.length < 4 * (n + 1) then none
  else
    let ws := numbersOf 4 (b.take (4 * (n + 1)))
    if rising ws && ws.all fun w => decide (w < 2 ^ 31) then some ws else none

/-- `n` leaf values from a field's value buffers; none where a buffer is too short. -/
def arrowLeaves (c : Chunk) (n : Nat) (bufs : List Bytes) : Option (List Val) :=
  match arrowValid n (nth bufs 0 []) with
  | none => none
  | some ps =>
    let d := nth bufs 1 []
    let vals : Option (List Val) := match c.phys with
      | 2 => if d.length < (n + 7) / 8 then none else some (((bitsOf (d.take ((n + 7) / 8))).take n).map fun x => Val.one (b2n x))
      | 4 => (arrowOffsets n d).bind fun ws =>
          let data := nth bufs 2 []
          if data.length < ws.getLastD 0 then none
          else some ((ws.zip (ws.drop 1)).map fun x =>
            let b := slice data x.1 (x.2 - x.1)
            ⟨true, false, b, [strElem b]⟩)
      | _ => if d.length < n * c.typeLen then none
          else some ((numbersOf c.typeLen (d.take (n * c.typeLen))).map fun x => Val.one (if c.phys = 3 then fp64to32 x else x))
    vals.map fun vs => (ps.zip vs).map fun x => if x.1 then x.2 else Val.null

/-- The rows of a field from its buffers: 0x21 for a damaged layout, 0x3A where a child's count disagrees. -/
def arrowRows (c : Chunk) (h : BatchHead) (bufs : List Bytes) : Except Nat (List Val) :=
  if nth h.nodes c.values 0 != h.rows then .error 0x3a
  else if c.maxRep = 0 then
    match arrowLeaves c h.rows bufs with
    | some vs => .ok (vs.map fun v => if c.phys = 4 then { v with elems := [] } else v)
    | none => .error 0x21
  else match arrowValid h.rows (nth bufs 0 []), arrowOffsets h.rows (nth bufs 1 []) with
    | some ps, some ws =>
      let n := nth h.nodes (c.values + 1) 0
      if n < ws.getLastD 0 then .error 0x3a
      else match arrowLeaves c n (bufs.drop 2) with
        | none => .error 0x21
        | some vs =>
          let es := vs.map fun v => if v.present then nth v.elems 0 default else ⟨0, false, false⟩
          .ok ((ps.zip (ws.zip (ws.drop 1))).map fun x =>
            if x.1 then ⟨true, false, [], (es.drop x.2.1).take (x.2.2 - x.2.1)⟩ else Val.null)
    | _, _ => .error 0x21

/-- The column an Arrow field decodes to. -/
def arrowColumn (c : Chunk) : Column := ⟨if c.maxRep = 1 then 3 else if c.phys = 4 then 2 else 1, c.logical, 1, []⟩

/-- The number of buffers a chunk list expects in each batch, its view fields apart. -/
def layoutOk (g : Ingest) (h : BatchHead) (bodyLen : Nat) : Bool :=
  let c := nth g.chunks 0 default
  h.nodes.length == c.rows && h.bufs.length == c.optDef + h.views.sum && h.bufs.all fun e => e.1 % 8 == 0 && decide (e.1 + e.2 ≤ bodyLen)

/-- A record batch with a sound header decoded (R146, R147). -/
def arrowBatch (c : WalkCtx) (g : Ingest) (h : BatchHead) (body : Nat) (next : Ingest → Ingest) : UnitOut :=
  let start := g.record
  let clean : Ingest → Ingest := fun g => next { g with jobs := [], outs := [] }
  let parts := g.chunks.map fun ch => if ch.bad ≠ 0 then [] else (fieldBuffers h ch).map (batchBuffer c h body)
  let all := parts.flatten
  let short := all.any fun b => match b with | .bad e _ => e == 0x21 | _ => false
  if short then c.recordBlot (clean g) 0x21 g.cursor start h.rows
  else match g.need_ (all.filterMap fun b => match b with | .frame j _ => some j | _ => none) with
  | some g => ⟨g, []⟩
  | none =>
    let settled := settle all g.outs
    let cols := (g.chunks.foldl (fun (a : List (Chunk × Except (Nat × Nat) (List Val)) × List (Except (Nat × Nat) Bytes)) ch =>
      if ch.bad ≠ 0 then (a.1 ++ [(ch, .error (ch.bad, g.cursor))], a.2)
      else
        let k := bufferCount ch
        let mine := a.2.take k
        let r : Except (Nat × Nat) (List Val) := match mine.mapM (fun x => x) with
          | .error e => .error e
          | .ok bs => match arrowRows ch h bs with
            | .ok vs => .ok vs
            | .error e => .error (e, 2 ^ 48 - 1)
        (a.1 ++ [(ch, r)], a.2.drop k)) ([], settled)).1
    let whole := cols.findSome? fun x => match x.2 with
      | .error (e, _) => if e = 0x21 || e = 0x3a then some e else none
      | .ok _ => none
    match whole with
    | some e => c.recordBlot (clean g) e g.cursor start h.rows
    | none => cols.foldl (fun u x =>
        let r : Except Nat (List (Except Nat Val)) := match x.2 with | .ok vs => .ok (vs.map .ok) | .error (e, _) => .error e
        let at_ := match x.2 with | .ok _ => g.cursor | .error (_, o) => o
        let y := addField c x.1.field at_ start h.rows r u.g
        ⟨y.g, u.reports ++ y.reports⟩) ⟨clean g, []⟩

/-- The next message of an Arrow stream. -/
def arrowNext (c : WalkCtx) (g : Ingest) : Nat → UnitOut
  | 0 => ⟨{ g with ended := true }, []⟩
  | f + 1 =>
    let o := g.cursor
    if c.last ≤ g.record then ⟨{ g with ended := true }, []⟩
    else match arrowMessage c.src o with
    | .error 0 => c.restBlot g 0x11 o
    | .error e => c.restBlot g e o
    | .ok (b, body) =>
      if b.isEmpty then ⟨{ g with ended := true }, []⟩
      else match messageHead b with
      | none => c.restBlot g 0x20 o
      | some (v, k, h, n) =>
        let skip : Nat → Ingest → Ingest := fun rows g' => { g' with cursor := body + n, record := g.record + rows, unit := g.unit + 1 }
        if k ≠ 3 then ⟨skip 0 g, [⟨0x33, wholeRecord, o, g.record, 0⟩]⟩
        else match batchRows b h with
        | none => c.restBlot g 0x20 o
        | some rows =>
          if c.src.length < body + n then c.restBlot g 0x11 o
          else if g.record + rows ≤ c.first then arrowNext c (skip rows g) f
          else match batchHead b h with
          | none => c.recordBlot (skip rows g) 0x20 o g.record rows
          | some bh =>
            if v ≠ 4 then c.recordBlot (skip rows g) 0x20 o g.record rows
            else if !layoutOk g bh n then c.recordBlot (skip rows g) 0x21 o g.record rows
            else if bh.codec == some 0xff then c.recordBlot (skip rows g) 0x31 o g.record rows
            else arrowBatch c g bh body (skip rows)

/-- One structure unit of an Arrow stream. -/
def arrowUnit (c : WalkCtx) (g : Ingest) : UnitOut :=
  if !g.open_ then
    ⟨{ g with open_ := true, base := c.first, cursor := (nth g.chunks 0 default).off,
              fields := g.chunks.map fun ch => FieldQueue.of (arrowColumn ch) }, []⟩
  else arrowNext c g (c.src.length + 1)

end Sys2Proof.Machine
end

