-- ==== Sys2Proof/Machine/Image.lean ====
section
/-! DEFINITION. The plan image: its parse, and steps 1 to 4 of R87 with the structure checks that belong to no engine (R85 to R99). -/

namespace Sys2Proof.Machine

/-- A number of `n` bytes at an offset of an image. -/
abbrev at' (b : Bytes) (off n : Nat) : Nat := leAt b off n

/-- Checks in order: the offset of the first that fails. -/
def firstBad (cs : List (Nat × Bool)) : Option Nat := (cs.find? (·.2)).map (·.1)

/-- A section directory entry (Table 3-2). -/
structure Section where
  (type count offset length : Nat)
  deriving DecidableEq, Repr

/-- Directory entry `i`. -/
def sectionAt (b : Bytes) (i : Nat) : Section :=
  let o := 64 + 16 * i
  ⟨at' b o 2, at' b (o + 4) 4, at' b (o + 8) 4, at' b (o + 12) 4⟩

/-- The directory entries. -/
def directory (b : Bytes) : List Section := (List.range (min 16 (at' b 36 2))).map (sectionAt b)

/-- The section of a type. -/
def sectionOf (b : Bytes) (type : Nat) : Option Section := (directory b).find? fun e => e.type == type

/-- The entry size and the limits of a section type (Table 3-3); the ligature section's entries vary. -/
def sectionRule (type : Nat) : Option (Nat × Nat × Nat) :=
  match type with
  | 1 => some (32, 1, 4096)
  | 2 => some (0, 1, 65536)
  | 3 => some (64, 0, 65536)
  | 4 => some (32, 0, 4096)
  | 5 => some (8, 0, 65536)
  | 6 => some (32, 1, 24576)
  | 7 => some (64, 0, 256)
  | 8 => some (32, 0, 4096)
  | 9 => some (1, 0, 16777216)
  | _ => none

/-- The offsets of the ligature entries of a section, each a header and its stages. -/
def ligOffsets (b : Bytes) : Nat → Nat → List Nat
  | 0, _ => []
  | n + 1, o => o :: ligOffsets b n (o + 32 + 32 * fld 7 4 (byteAt b (o + 10)))

/-- The bytes of a ligature section. -/
def ligBytes (b : Bytes) (offs : List Nat) : Nat :=
  offs.foldl (fun a o => a + 32 + 32 * fld 7 4 (byteAt b (o + 10))) 0

/-- Two byte ranges share a byte. -/
def overlap (a alen b blen : Nat) : Bool := a < b + blen && b < a + alen

/-- Steps 1 to 3 of R87 on an image of `len` bytes. -/
def headerChecks (b : Bytes) (len : Nat) : List (Nat × Bool) :=
  [(0, at' b 0 4 != 0x4e4c504b), (4, byteAt b 4 != 0), (5, byteAt b 5 != 1),
   (8, at' b 8 4 != len || len % 64 != 0 || 67108864 < len), (6, at' b 6 2 != 64),
   (12, at' b 12 4 != crc32c (b.take 12 ++ zeros 4 ++ b.drop 16))]

/-- The placement checks of one directory entry (R85, R86). -/
def sectionChecks (b : Bytes) (len n i : Nat) : List (Nat × Bool) :=
  let e := sectionAt b i
  let o := 64 + 16 * i
  let earlier := (List.range i).map (sectionAt b)
  let rule := sectionRule e.type
  let size := match rule with
    | some (k, _, _) => if e.type = 2 then ligBytes b (ligOffsets b (min e.count 65536) e.offset) else k * e.count
    | none => 0
  [(o, rule.isNone || earlier.any fun x => x.type == e.type),
   (o + 4, match rule with | some (_, lo, hi) => e.count < lo || hi < e.count | none => true),
   (o + 8, e.offset % 64 != 0 || e.offset < 64 + 16 * n || len < e.offset + e.length ||
      earlier.any fun x => overlap x.offset x.length e.offset e.length),
   (o + 12, e.length != size)]

/-- Step 3 of R87. -/
def directoryChecks (b : Bytes) (len : Nat) : List (Nat × Bool) :=
  let n := at' b 36 2
  let types := (directory b).map (·.type)
  let ruled := bitAt (byteAt b 32) 0
  [(36, n < 2 || 16 < n || len < 64 + 16 * n)] ++ (List.range (min 16 n)).flatMap (sectionChecks b len n) ++
    [(36, !types.contains 1 || !types.contains 2), (32, ruled != types.contains 6)]

/-- The reserved fields of a structure of 32-byte or 64-byte entries, as (lowest bit, width). -/
abbrev RsvFields := List (Nat × Nat)

/-- The reserved-field checks of a structure at an offset: each fails at the byte of its lowest bit. -/
def rsvChecks (b : Bytes) (off : Nat) (fs : RsvFields) : List (Nat × Bool) :=
  fs.map fun f => (off + f.1 / 8, fld (f.1 % 8 + f.2 - 1) (f.1 % 8) (at' b (off + f.1 / 8) ((f.1 % 8 + f.2 + 7) / 8)) != 0)

/-- Reserved fields of the header (Table 3-1). -/
def headerRsv : RsvFields := [(259, 29), (304, 16), (328, 184)]
/-- Reserved fields of a request (Table 3-4). -/
def requestRsv : RsvFields := [(35, 29), (128, 8), (140, 4), (156, 4), (176, 16), (224, 32)]
/-- Reserved fields of a ligature header (Table 3-6). -/
def ligatureRsv : RsvFields := [(32, 48), (224, 32)]
/-- Reserved fields of a stage (Table 3-7). -/
def stageRsv : RsvFields := [(4, 12), (36, 28)]
/-- Reserved fields of a stream descriptor (Table 9-4). -/
def streamRsv : RsvFields := [(0, 40)]
/-- Reserved fields of a reference (Table 3-9). -/
def refRsv : RsvFields := [(9, 1), (12, 20), (56, 8)]
/-- Reserved fields of a certificate entry (Table 3-8). -/
def certRsv : RsvFields := [(8, 56)]
/-- Reserved fields of a dependency (Table 3-10). -/
def depRsv : RsvFields := [(32, 32)]

/-- The offset of entry `i` of a fixed-size section. -/
def entryOff (b : Bytes) (type size i : Nat) : Nat := ((sectionOf b type).map fun e => e.offset + size * i).getD 0

/-- The entries of a section. -/
def entryCount (b : Bytes) (type : Nat) : Nat := ((sectionOf b type).map (·.count)).getD 0

/-- The offsets of the ligature entries of an image. -/
def ligatureOffsets (b : Bytes) : List Nat :=
  match sectionOf b 2 with
  | some e => ligOffsets b e.count e.offset
  | none => []

/-- Reserved-field checks of every entry of a fixed-size section. -/
def entriesRsv (b : Bytes) (type size : Nat) (fs : RsvFields) : List (Nat × Bool) :=
  (List.range (entryCount b type)).flatMap fun i => rsvChecks b (entryOff b type size i) fs

/-- Step 4 of R87; the reserved fields of sections 0x0007 and 0x0008 come from their home chapters. -/
def reservedChecks (b : Bytes) (layoutRsv loadRsv : RsvFields) : List (Nat × Bool) :=
  rsvChecks b 0 headerRsv ++ ((List.range (at' b 36 2)).flatMap fun i => rsvChecks b (64 + 16 * i) [(16, 16)]) ++
    entriesRsv b 1 32 requestRsv ++
    ((ligatureOffsets b).flatMap fun o => rsvChecks b o ligatureRsv ++
      (List.range (fld 7 4 (byteAt b (o + 10)))).flatMap fun k => rsvChecks b (o + 32 + 32 * k) stageRsv) ++
    entriesRsv b 3 64 streamRsv ++ entriesRsv b 4 32 refRsv ++ entriesRsv b 5 8 depRsv ++ entriesRsv b 6 32 certRsv ++
    entriesRsv b 7 64 layoutRsv ++ entriesRsv b 8 32 loadRsv

/-! ### The parse -/

/-- A number's bits, as a field of a structure at an offset. -/
def bitsAt (b : Bytes) (off hi lo : Nat) : Nat := fld (hi - lo / 8 * 8) (lo % 8) (at' b (off + lo / 8) (hi / 8 + 1 - lo / 8))

/-- Request at an offset (Table 3-4). -/
def requestAt (b : Bytes) (o : Nat) : Request :=
  { kind := byteAt b o, subkind := byteAt b (o + 1), absId := at' b (o + 2) 2, amount := at' b (o + 8) 8,
    dieMask := bitsAt b o 139 136, clusterMask := bitsAt b o 155 144, near := at' b (o + 20) 2, rate := at' b (o + 24) 4,
    pinned := bitsAt b o 34 34 == 1, share := bitsAt b o 33 33 == 1, migrate := bitsAt b o 32 32 == 1 }

/-- Stage at an offset (Table 3-7). -/
def stageAt (b : Bytes) (o : Nat) : Stage :=
  { engine := bitsAt b o 2 0, side := bitsAt b o 3 3, op := at' b (o + 2) 2, srcTier := bitsAt b o 35 32, inOff := at' b (o + 8) 4,
    inLen := at' b (o + 12) 4, outOff := at' b (o + 16) 4, outLen := at' b (o + 20) 4, param := at' b (o + 24) 4,
    max := at' b (o + 28) 4 }

/-- Ligature at an offset (Table 3-6). -/
def ligatureAt (b : Bytes) (o : Nat) : Ligature :=
  { sigWait := at' b o 2, sigDone := at' b (o + 2) 2, level := bitsAt b o 82 80, ruled := bitsAt b o 83 83 == 1,
    nibs := byteAt b (o + 11), core := at' b (o + 12) 2, groups := at' b (o + 14) 2, winBase := at' b (o + 16) 4,
    winSize := at' b (o + 20) 4, maxRows := at' b (o + 24) 4,
    stages := (List.range (bitsAt b o 87 84)).map fun k => stageAt b (o + 32 + 32 * k) }

/-- Stream descriptor at an offset (Table 9-4). -/
def streamAt (b : Bytes) (o : Nat) : StreamDesc :=
  { srcKind := bitsAt b o 67 64, dstKind := bitsAt b o 63 60, cache := bitsAt b o 59 59 == 1, codec := bitsAt b o 58 56,
    cmpAbs := bitsAt b o 55 40, kind := bitsAt b o 71 68, write := bitsAt b o 72 72 == 1, weights := bitsAt b o 73 73 == 1,
    priv := bitsAt b o 74 74 == 1, persist := bitsAt b o 75 75 == 1, layout := bitsAt b o 78 76, elem := bitsAt b o 81 79,
    tileDims := bitsAt b o 83 82, ring := bitsAt b o 87 84, outstanding := byteAt b (o + 11), rot := at' b (o + 12) 2,
    sigSlot := at' b (o + 14) 2, dstAbs := at' b (o + 16) 2, srcAbs := at' b (o + 18) 2, param := at' b (o + 20) 4,
    slotBytes := at' b (o + 24) 3, d0 := at' b (o + 27) 3, n1 := at' b (o + 30) 2, n2 := at' b (o + 32) 2, n3 := at' b (o + 34) 2,
    s1 := toInt 32 (at' b (o + 36) 4), s2 := toInt 32 (at' b (o + 40) 4), s3 := toInt 32 (at' b (o + 44) 4),
    dst := at' b (o + 48) 8, src := at' b (o + 56) 8 }

/-- Reference at an offset (Table 3-9). -/
def refAt (b : Bytes) (o : Nat) : Ref :=
  { kind := byteAt b o, pad := bitsAt b o 8 8 == 1, place := bitsAt b o 11 10, padOff := bitsAt b o 55 32, absId := at' b (o + 8) 2,
    hbm := at' b (o + 10) 2, desc := at' b (o + 12) 4, addr := at' b (o + 16) 8, size := at' b (o + 24) 8 }

/-- Certificate entry at an offset (Table 3-8). -/
def certAt (b : Bytes) (o : Nat) : Cert :=
  { kind := bitsAt b o 3 0, unitKind := bitsAt b o 7 4, index := at' b (o + 8) 2, unit := at' b (o + 10) 2, release := at' b (o + 12) 4,
    claim := at' b (o + 16) 4, tStart := at' b (o + 20) 4, tEnd := at' b (o + 24) 4, bytes := at' b (o + 28) 4 }

/-- Dependency at an offset (Table 3-10). -/
def depAt (b : Bytes) (o : Nat) : Dep := { producer := at' b o 2, consumer := at' b (o + 2) 2 }

/-- The entries of a fixed-size section, read by a function of their offset. -/
def entriesOf {α : Type} (b : Bytes) (type size : Nat) (f : Bytes → Nat → α) : List α :=
  (List.range (entryCount b type)).map fun i => f b (entryOff b type size i)

/-- An image parsed, once its placement has passed step 3. -/
def parseImage (b digest : Bytes) : Image :=
  { id := at' b 16 8, seed := at' b 24 8, length := at' b 8 4, marginLevel := byteAt b 40, ruled := bitAt (byteAt b 32) 0,
    exchange := bitAt (byteAt b 32) 1, dip := bitAt (byteAt b 32) 2, requests := entriesOf b 1 32 requestAt,
    ligatures := (ligatureOffsets b).map (ligatureAt b), streams := entriesOf b 3 64 streamAt, refs := entriesOf b 4 32 refAt,
    deps := entriesOf b 5 8 depAt, certs := entriesOf b 6 32 certAt, layouts := entriesOf b 7 64 fun b o => slice b o 64,
    loads := entriesOf b 8 32 fun b o => slice b o 32,
    blob := match sectionOf b 9 with | some e => slice b e.offset e.length | none => [], digest := digest }

/-! ### Structure of the entries that belong to no engine (step 5) and what they name (step 6) -/

/-- A kind is counted (Table 3-5). -/
def countedKind (k : Nat) : Bool := [1, 6, 7, 8, 0xb, 0xc].contains k

/-- The granule of a sized kind (Table 3-5). -/
def granule (k : Nat) : Nat := match k with | 2 => 4096 | 3 => 4194304 | 4 => 65536 | 5 => 2097152 | 9 => 64 | _ => 1

/-- The abstract ids a request defines (R89). -/
def requestIds (r : Request) : Nat := if countedKind r.kind then r.amount else 1

/-- Step 5 on one request (R89, Table 3-4, Table 3-5). An amount of 0 is refused but for a shared cache or a port share (DESIGN CHOICE,
assumption log 187). -/
def requestChecks (o : Nat) (earlier : List Request) (r : Request) : List (Nat × Bool) :=
  [(o, r.kind == 0 || 0xd < r.kind),
   (o + 1, match r.kind with | 4 => 3 < r.subkind | 0xa => 1 < r.subkind | 0xc => 2 < r.subkind | _ => r.subkind != 0),
   (o + 2, 0xffff ≤ r.absId || 0xffff < r.absId + requestIds r ||
      earlier.any fun x => x.kind == r.kind && overlap x.absId (requestIds x) r.absId (requestIds r)),
   (o + 8, (r.amount == 0 && r.kind != 3 && r.kind != 0xa) || r.amount % granule r.kind != 0 || (r.kind == 3 && 33554432 < r.amount)),
   (o + 20, r.kind == 2 && r.near == 0xffff),
   (o + 24, r.kind != 6 && r.kind != 0xa && r.rate != 0)]

/-- Step 5 on every request, in image order. -/
def requestsChecks (b : Bytes) (rs : List Request) : List (Nat × Bool) :=
  (List.range rs.length).flatMap fun i => match rs[i]? with
    | some r => requestChecks (entryOff b 1 32 i) (rs.take i) r
    | none => []

/-- An abstract id of a kind is defined by some request. -/
def defined (m : Image) (kind absId : Nat) : Bool :=
  m.requests.any fun r => r.kind == kind && r.absId ≤ absId && absId < r.absId + requestIds r

/-- An abstract id resolves where it is named; 0xFFFF names none. -/
def resolves (m : Image) (kind absId : Nat) : Bool := absId == 0xffff || defined m kind absId

/-- Step 6 on the requests: RQ_NEAR names a core. -/
def requestNames (b : Bytes) (m : Image) : List (Nat × Bool) :=
  (List.range m.requests.length).map fun i => match m.requests[i]? with
    | some r => (entryOff b 1 32 i + 20, !resolves m 1 r.near)
    | none => (0, false)

/-- Step 5 on a stage's placement in its window and chain (R94, R95). -/
def stageChecks (o : Nat) (l : Ligature) (k : Nat) (earlier : List Stage) (st : Stage) : List (Nat × Bool) :=
  [(o, 6 < st.engine || (st.side == 1 && st.engine != 6) || earlier.any fun x => stageUnit x == stageUnit st),
   (o + 2, st.engine == 6 && st.op != 0),
   (o + 4, 5 < st.srcTier || (k != 0 && st.srcTier != 0)),
   (o + 8, if k = 0 then decide (l.winSize < st.inOff + st.inLen) else st.inOff != 0),
   (o + 12, k != 0 && st.inLen != 0),
   (o + 16, l.winSize < st.outOff + st.outLen)]

/-- Step 5 on a ligature and its stages (Table 3-6, R94). -/
def ligatureChecks (o : Nat) (l : Ligature) : List (Nat × Bool) :=
  let nibs := (List.range 8).filter fun n => bitAt l.nibs n
  [(o + 10, (if l.ruled then l.level != 0 else false) || l.stages.isEmpty || 8 < l.stages.length),
   (o + 11, l.nibs == 0), (o + 14, l.groups == 0),
   (o + 16, l.winBase % 256 != 0 || nibs.any fun n => padBytes < l.winBase + (n + 1) * l.winSize),
   (o + 20, l.winSize % 256 != 0)] ++
    (List.range l.stages.length).flatMap fun k => match l.stages[k]? with
      | some st => stageChecks (o + 32 + 32 * k) l k (l.stages.take k) st
      | none => []

/-- Step 5 on every ligature. -/
def ligaturesChecks (b : Bytes) (m : Image) : List (Nat × Bool) :=
  ((ligatureOffsets b).zip m.ligatures).flatMap fun e => ligatureChecks e.1 e.2

/-- Step 6 on the ligatures: cores, cells, stream indices and blob offsets resolve. -/
def ligatureNames (b : Bytes) (m : Image) : List (Nat × Bool) :=
  ((ligatureOffsets b).zip m.ligatures).flatMap fun e =>
    [(e.1, !resolves m 8 e.2.sigWait), (e.1 + 2, !resolves m 8 e.2.sigDone), (e.1 + 12, !defined m 1 e.2.core)] ++
      (List.range e.2.stages.length).map fun k => match e.2.stages[k]? with
        | some st => (e.1 + 32 + 32 * k + 24,
            if st.engine = 6 then decide (m.streams.length ≤ st.param)
            else st.param == 0xffffffff || decide (m.blob.length ≤ st.param))
        | none => (0, false)

/-- Step 5 on one certificate entry at an offset (R97, Table 3-8). A LIGATURE entry with CRT_UNIT_KIND and a TRANSFER entry before any task
entry are refused (DESIGN CHOICE, assumption log 188). -/
def certEntryChecks (o : Nat) (m : Image) (earlier : List Cert) (c : Cert) : List (Nat × Bool) :=
  let task : Bool := c.kind == 1 || c.kind == 2
  let twice : Bool := earlier.any fun x => x.kind == 1 && x.index == c.index
  let margin : Bool := (m.ligatures[c.index]?).any fun l => !l.ruled
  [(o, c.kind == 0 || decide (3 < c.kind) || (c.kind == 3 && !(earlier.any fun x => x.kind != 3)) || (c.kind == 1 && c.unitKind != 0)),
   (o + 8, (c.kind == 3 && c.index != 0) || (c.kind == 1 && (twice || margin))),
   (o + 10, c.kind == 1 && c.unit != 0), (o + 12, !task && c.release != 0), (o + 16, !task && c.claim != 0),
   (o + 20, task && c.tStart != 0), (o + 24, if task then c.tEnd != 0 else decide (c.tEnd ≤ c.tStart)), (o + 28, task && c.bytes != 0)]

/-- Every ruled ligature has its LIGATURE entry (R97). -/
def ruledListed (b : Bytes) (m : Image) : List (Nat × Bool) :=
  (((ligatureOffsets b).zip m.ligatures).zip (List.range m.ligatures.length)).map fun e =>
    let listed : Bool := m.certs.any fun c => c.kind == 1 && c.index == e.2
    (e.1.1 + 10, e.1.2.ruled && !listed)

/-- Step 5 on the certificate (R97). -/
def certChecks (b : Bytes) (m : Image) : List (Nat × Bool) :=
  ((List.range m.certs.length).flatMap fun i => match m.certs[i]? with
    | none => []
    | some c => certEntryChecks (entryOff b 6 32 i) m (m.certs.take i) c) ++ ruledListed b m

/-- Step 6 on the certificate: indices and units resolve. -/
def certNames (b : Bytes) (m : Image) : List (Nat × Bool) :=
  (List.range m.certs.length).flatMap fun i => match m.certs[i]? with
    | none => []
    | some c =>
      let o := entryOff b 6 32 i
      [(o + 8, (c.kind == 1 && m.ligatures.length ≤ c.index) || (c.kind == 2 && m.streams.length ≤ c.index)),
       (o + 10, c.kind != 1 && !m.requests.any fun r =>
          r.kind % 16 == c.unitKind && r.absId ≤ c.unit && c.unit < r.absId + requestIds r)]

/-- Step 6 on the dependencies: both name task entries (R99). -/
def depNames (b : Bytes) (m : Image) : List (Nat × Bool) :=
  (List.range m.deps.length).flatMap fun i => match m.deps[i]? with
    | none => []
    | some d =>
      let o := entryOff b 5 8 i
      let task : Nat → Bool := fun k => (m.certs[k]?).any fun c => c.kind == 1 || c.kind == 2
      [(o, !task d.producer), (o + 2, !task d.consumer)]

end Sys2Proof.Machine
end

