-- ==== Sys2Proof/Machine/Frames.lean ====
section
/-! DEFINITION. The Ethernet frames a logical port sends (R387) and the frames it takes (R385, R386): tag, IP header, UDP header, frame check
sequence. -/

namespace Sys2Proof.Machine

/-- What a logical port puts into every frame: its MAC address, its VID, its IP address, PORT_UDP, and a free number for the fields
the spec states no value of. -/
structure Sender where
  (mac : BitVec 48)
  (vid : Nat)
  (ip : Bytes)
  (udp : Nat)
  (open' : Nat)

/-- The end of a frame: padded to 60 bytes, with the frame check sequence after it. -/
def withFcs (bs : Bytes) : Bytes :=
  let bs := bs ++ zeros (60 - bs.length)
  bs ++ le 4 (crc32 bs)

/-- A MAC frame: addresses, the C-tag unless PORT_VID is 0, the EtherType and what it carries (R387). -/
def macFrame (a : Sender) (dst : BitVec 48) (pcp etherType : Nat) (body : Bytes) : Bytes :=
  withFcs (be 6 dst.toNat ++ be 6 a.mac.toNat ++ (if a.vid = 0 then [] else be 2 0x8100 ++ be 2 (pcp * 2 ^ 13 + a.vid)) ++
    be 2 etherType ++ body)

/-- The one's complement sum of 16-bit words, complemented. -/
def checksum (bs : Bytes) : Nat :=
  let n := ((pieces 2 bs).map fun c => beAt (c ++ zeros 1) 0 2).sum
  0xffff - (if n = 0 then 0 else (n - 1) % 0xffff + 1)

/-- A UDP datagram over the addresses of its IP header; its checksum is always computed (R387). -/
def udpDatagram (src dst : Bytes) (sport dport : Nat) (payload : Bytes) : Bytes :=
  let n := 8 + payload.length
  let c := checksum (src ++ dst ++ be 4 17 ++ be 4 n ++ be 2 sport ++ be 2 dport ++ be 2 n ++ zeros 2 ++ payload)
  be 2 sport ++ be 2 dport ++ be 2 n ++ be 2 (if c = 0 then 0xffff else c) ++ payload

/-- An IPv4 packet: IHL 5, DSCP PCP × 8, ECN 0, TTL 64 (R387); identification and DF are free. -/
def ipv4Packet (a : Sender) (pcp : Nat) (dst udp : Bytes) : Bytes :=
  let head := fun c => be 1 0x45 ++ be 1 (pcp * 32) ++ be 2 (20 + udp.length) ++ be 2 (a.open' % 2 ^ 16) ++
    be 2 (a.open' / 2 ^ 16 % 2 * 2 ^ 14) ++ be 1 64 ++ be 1 17 ++ be 2 c ++ a.ip.take 4 ++ dst.take 4
  head (checksum (head 0)) ++ udp

/-- An IPv6 packet: DSCP PCP × 8, ECN 0, hop limit 64 (R387); the flow label is free. -/
def ipv6Packet (a : Sender) (pcp : Nat) (dst udp : Bytes) : Bytes :=
  be 4 (pack [(20, a.open'), (8, pcp * 32), (4, 6)]) ++ be 2 udp.length ++ be 1 17 ++ be 1 64 ++ a.ip ++ dst ++ udp

/-- A frame that carries a UDP datagram to an address. -/
def udpFrame (a : Sender) (v6 : Bool) (pcp : Nat) (dst : Addr) (payload : Bytes) : Bytes :=
  if v6 then macFrame a dst.mac pcp 0x86dd (ipv6Packet a pcp dst.ip (udpDatagram a.ip dst.ip a.udp dst.udp.toNat payload))
  else macFrame a dst.mac pcp 0x0800 (ipv4Packet a pcp dst.ip (udpDatagram (a.ip.take 4) (dst.ip.take 4) a.udp dst.udp.toNat payload))

/-- A PFC frame for one priority (IEEE 802.1Qbb): XOFF with a time the spec states no value of, XON with 0. -/
def pfcFrame (a : Sender) (pcp : Nat) (dst : BitVec 48) (priority : Nat) (xoff : Bool) : Bytes :=
  macFrame a dst pcp 0x8808 (be 2 0x0101 ++ be 2 (2 ^ priority) ++
    (List.range 8).flatMap fun i => be 2 (if i = priority && xoff then a.open' % 0xffff + 1 else 0))

/-! ### Frames received (Table 12-1, R386) -/

/-- What a logical port accepts: its MAC and IP address, its IP version and PORT_UDP. -/
structure Accepts where
  (mac : Nat)
  (ip : Bytes)
  (v6 : Bool)
  (udp : Nat)

/-- The PTP multicast MAC addresses (IEEE 1588; assumption log 213). -/
def ptpMacs : List Nat := [0x011b19000000, 0x0180c200000e, 0x01005e000181, 0x01005e00006b, 0x333300000181, 0x33330000006b]

/-- A PTP multicast IP address (IEEE 1588; assumption log 213). -/
def ptpIp (v6 : Bool) (ip : Bytes) : Bool :=
  if v6 then byteAt ip 0 == 0xff && (ip.drop 2 == zeros 12 ++ [0x01, 0x81] || ip == 0xff :: 0x02 :: zeros 12 ++ [0, 0x6b])
  else ip == [224, 0, 1, 129] || ip == [224, 0, 0, 107]

/-- The IPv6 next headers that are extension headers (RFC 8200). -/
def ipv6Extensions : List Nat := [0, 43, 44, 50, 51, 60, 135, 139, 140, 253, 254]

/-- The drop reason of a UDP datagram to an address, if it has one: the address, the UDP port and the MAC address of R386, then the checksum. -/
def udpReason (a : Accepts) (mac : Nat) (v6 : Bool) (src dst udp : Bytes) : Option Nat :=
  let port := beAt udp 2 2
  let ptp := port == 319 || port == 320
  let mine := a.v6 == v6 && dst == a.ip.take (if v6 then 16 else 4)
  if !(mine || (ptp && ptpIp v6 dst)) || !(ptp || port == a.udp) || !(mac == a.mac || (ptp && ptpMacs.contains mac)) then some 4
  else if beAt udp 6 2 ≠ 0 ∧ checksum (src ++ dst ++ be 4 17 ++ be 4 udp.length ++ udp) ≠ 0 then some 5
  else none

/-- The drop reason of an IPv4 packet, if it has one. -/
def ipv4Reason (a : Accepts) (mac : Nat) (ip : Bytes) : Option Nat :=
  let head := ip.take 20
  if byteAt ip 0 / 16 ≠ 4 then some 4
  else if byteAt ip 0 % 16 ≠ 5 ∨ beAt ip 6 2 % 2 ^ 14 ≠ 0 then some 3
  else if byteAt ip 9 ≠ 17 then some 4
  else
    let udp := (ip.drop 20).take (beAt ip 2 2 - 20)
    match udpReason a mac false (slice head 12 4) (slice head 16 4) udp with
    | some 4 => some 4
    | r => if checksum head = 0 then r else some 5

/-- The drop reason of an IPv6 packet, if it has one. -/
def ipv6Reason (a : Accepts) (mac : Nat) (ip : Bytes) : Option Nat :=
  if byteAt ip 0 / 16 ≠ 6 then some 4
  else if ipv6Extensions.contains (byteAt ip 6) then some 3
  else if byteAt ip 6 ≠ 17 then some 4
  else udpReason a mac true (slice ip 8 16) (slice ip 24 16) ((ip.drop 40).take (beAt ip 4 2))

/-- The drop reason of what a frame carries behind its tag. -/
def bodyReason (a : Accepts) (mac etherType : Nat) (body : Bytes) : Option Nat :=
  if etherType = 0x8100 ∨ etherType = 0x88a8 then some 3
  else if etherType = 0x0800 then ipv4Reason a mac body
  else if etherType = 0x86dd then ipv6Reason a mac body
  else if etherType = 0x88f7 then (if mac = a.mac ∨ ptpMacs.contains mac then none else some 4)
  else if etherType = 0x8808 then none
  else some 4

/-- The reason of Table 12-12 under which a received frame is dropped, or none where the port takes it; the checks are made in the order of the
reasons (R385, R386, assumption log 213). MAC control frames are no packets: PFC_FRAME and PAUSE_FRAME take them. -/
def frameReason (a : Accepts) (bs : Bytes) : Option Nat :=
  let n := bs.length
  let mac := beAt bs 0 6
  let type := beAt bs 12 2
  let body := fun o => (bs.drop o).take (n - 4 - o)
  if n < 64 ∨ leAt bs (n - 4) 4 ≠ crc32 (bs.take (n - 4)) then some 1
  else if 1522 < n then some 2
  else if type = 0x8100 then bodyReason a mac (beAt bs 16 2) (body 18)
  else bodyReason a mac type (body 14)

end Sys2Proof.Machine
end

