-- ==== Sys2Proof/Machine/Transport.lean ====
section
/-! DEFINITION. Logical ports and the Kelys Ink Transport: headers, sealing, checks, drops and what a port sends (R385 to R402). -/

namespace Sys2Proof.Machine

/-! ### Logical ports (R33, Table 12-2) -/

/-- A logical port exists: ports 1 and 3 only while their physical port is split (R33). -/
def portExists (s : State) (p : Nat) : Bool := p < 4 && (p % 2 == 0 || portSplit s p)

/-- A logical port runs: it exists, PORT_EN is in force, and the package is powered, out of reset and past start-up. -/
def portUp (s : State) (p : Nat) : Bool :=
  portExists s p && bitAt (port s p).live.toNat 0 && s.boot.stage == 5#4 && (s.pwr.state == .run || s.pwr.state == .dormant)

/-- A logical port carries frames: it runs and its link is up. -/
def portCarries (s : State) (p : Nat) : Bool := portUp s p && (port s p).linkUp

/-- PORT_UDP. -/
def portUdp (x : Port) : Nat := fld 63 48 x.cfg.toNat
/-- PORT_VID. -/
def portVid (x : Port) : Nat := fld 47 36 x.cfg.toNat
/-- PORT_IPV6. -/
def portIpv6 (x : Port) : Bool := bitAt x.cfg.toNat 33
/-- PORT_PFC_EN. -/
def portPfc (x : Port) : Bool := bitAt x.cfg.toNat 32

/-- The PCP of a traffic class (Table 12-2); `exch` tells the exchange class from ruled data. -/
def pcpOf (x : Port) (c : OutClass) (exch : Bool) : Nat :=
  let v := x.cfg.toNat
  match c with
  | .pfcPtp => fld 31 29 v
  | .dip => fld 28 26 v
  | .ruledExch => if exch then fld 25 23 v else fld 22 20 v
  | .control => fld 19 17 v
  | .mailbox => fld 16 14 v
  | .margin => fld 13 11 v

/-- The MAC address of a logical port (R386). -/
def portMac (s : State) (p : Nat) : BitVec 48 := s.sec.fuses.macBase + BitVec.ofNat 48 p

/-- The unit id of a logical port's first lane. -/
def laneUid (s : State) (p : Nat) : BitVec 16 := uid (portDie p) 13 1 0 (if portSplit s p then 4 * (p % 2) else 0)

/-- A logical port uses a block or lane of its physical port: its lanes, its half of the MAC, and every other block (Tables 1-4 and 15-5); an
unsplit port uses them all (assumption log 166). -/
def portUses (s : State) (p : Nat) (u : BitVec 16) : Bool :=
  match unitClass u with
  | .port d 0 l => d == portDie p && (!portSplit s p || l / 4 == p % 2)
  | .port d 1 h => d == portDie p && (!portSplit s p || h == p % 2)
  | .port d _ _ => d == portDie p
  | _ => false

/-- A drop counted under a reason of Table 12-12. -/
def drop (p reason : Nat) (s : State) : State :=
  let x := port s p
  setPort p { x with drops := modifyAt (· + 1) reason x.drops } s

/-- The rate of a logical port's ruled charge in sixteenths of a byte per cycle (Table 2-4). -/
def portCharge (s : State) (p : Nat) : Nat := if portSplit s p then 400 else 800

/-- The wire bytes of a UDP datagram of `n` payload bytes sent on a port, with preamble and gap. -/
def wireBytes (x : Port) (n : Nat) : Nat :=
  max 64 (14 + (if portVid x = 0 then 0 else 4) + (if portIpv6 x then 40 else 20) + 8 + n + 4) + 20

/-! ### Addresses -/

/-- The address of a neighbour as a port sends to it. -/
def neighbourAddr (s : State) (n p : Nat) : Addr :=
  let e := neighbour s n
  ⟨e.mac, e.ip, BitVec.ofNat 16 (portUdp (port s p))⟩

/-! ### Headers (Table 12-3) -/

/-- The 32 header bytes of a KIT packet as sent, most significant bit first. -/
def kitHeaderBytes (h : KitHeader) : Bytes :=
  let r := h.rsv.toNat
  be 32 (pack [(64, h.seq.toNat), (32, h.tick.toNat), (16, r), (48, h.pos.toNat), (16, h.len.toNat), (16, h.endpoint.toNat),
    (16, h.keyId.toNat), (12, r / 2 ^ 16), (10, h.dstDev.toNat), (10, h.srcDev.toNat), (3, r / 2 ^ 28), (1, b2n h.last),
    (1, b2n h.first), (1, b2n h.doorbell), (1, b2n h.extDst), (1, b2n h.extSrc), (4, h.kind.toNat), (4, h.ver.toNat)])

/-- A header of 32 bytes read back. -/
def kitHeaderOf (bs : Bytes) : KitHeader :=
  let v := beAt bs 0 32
  { ver := BitVec.ofNat 4 (fld 255 252 v), kind := BitVec.ofNat 4 (fld 251 248 v), extSrc := bitAt v 247, extDst := bitAt v 246,
    doorbell := bitAt v 245, first := bitAt v 244, last := bitAt v 243, srcDev := BitVec.ofNat 10 (fld 239 230 v),
    dstDev := BitVec.ofNat 10 (fld 229 220 v), keyId := BitVec.ofNat 16 (fld 207 192 v),
    endpoint := BitVec.ofNat 16 (fld 191 176 v), len := BitVec.ofNat 16 (fld 175 160 v), pos := BitVec.ofNat 48 (fld 159 112 v),
    tick := BitVec.ofNat 32 (fld 95 64 v), seq := BitVec.ofNat 64 (fld 63 0 v),
    rsv := BitVec.ofNat 31 (fld 111 96 v + 2 ^ 16 * fld 219 208 v + 2 ^ 28 * fld 242 240 v) }

/-- A header of this device to a destination, to be numbered and sealed when it leaves. -/
def kitHeader (s : State) (kind : Nat) (key : Nat) (dst : Nat) (ext : Bool) (endpoint len pos : Nat) : KitHeader :=
  { ver := 1, kind := BitVec.ofNat 4 kind, extSrc := false, extDst := ext, doorbell := false, first := true, last := true,
    srcDev := s.deviceNumber, dstDev := BitVec.ofNat 10 dst, keyId := BitVec.ofNat 16 key, endpoint := BitVec.ofNat 16 endpoint,
    len := BitVec.ofNat 16 len, pos := BitVec.ofNat 48 pos, tick := BitVec.ofNat 32 s.rul.tick.toNat, seq := 0, rsv := 0 }

/-! ### Key slots and sequence numbers (R396, R397) -/

/-- A loaded key slot. -/
def keySlot (s : State) (n : Nat) : Option KeySlot := s.sec.slots.find? fun k => k.num == n

/-- The session holds slot 0. -/
def sessionOpen (s : State) : Bool := (keySlot s 0).isSome

/-- The session's client number. -/
def sessionClient (s : State) : Nat := ((keySlot s 0).map (·.peer)).getD 0

/-- The kinds a key slot may carry (Table 12-4): 0 the session, a client, or a peer. -/
def kindAllowed (k : KeySlot) (kind : Nat) : Bool :=
  let peer := k.num != 0 && !k.client
  match kind with
  | 1 => k.num == 0 || peer
  | 2 => k.num == 0 || peer
  | 3 => k.num == 0
  | 4 => k.num == 0
  | 5 => k.num == 0
  | 6 => peer
  | 7 => peer
  | 8 => peer
  | 9 => peer
  | 10 => true
  | 11 => true
  | _ => false

/-- A sequence number is new on its slot and sending port (R397). -/
def seqFresh (s : State) (slot seq : Nat) : Bool :=
  let c := seq % 2 ^ 62
  match s.windows.find? fun w => w.slot == slot && w.port == seq / 2 ^ 62 with
  | none => 0 < c
  | some w => w.highest < c || (c < w.highest && w.highest - c ≤ 1024 && !bitAt w.seen (w.highest - c - 1))

/-- A sequence number entered in its window (R397). -/
def seqAccept (slot seq : Nat) (s : State) : State :=
  let c := seq % 2 ^ 62
  let isIt : SeqWindow → Bool := fun w => w.slot == slot && w.port == seq / 2 ^ 62
  match s.windows.find? isIt with
  | none => { s with windows := s.windows ++ [⟨slot, seq / 2 ^ 62, c, 0⟩] }
  | some w =>
    let w' : SeqWindow :=
      if w.highest + 1024 < c then { w with highest := c, seen := 0 }
      else if w.highest < c then { w with highest := c, seen := ((2 * w.seen + 1) * 2 ^ (c - w.highest - 1)) % 2 ^ 1024 }
      else { w with seen := w.seen ||| 2 ^ (w.highest - c - 1) }
    { s with windows := s.windows.map fun x => if isIt x then w' else x }

/-- A payload opened under a slot's keys, its new keys first (R396, R456); true where the new keys opened it. -/
def openKit (k : KeySlot) (h : KitHeader) (ct tag : Bytes) : Option (Bytes × Bool) :=
  let try' : Keys → Option Bytes := fun ks => gcmOpen ks.rxKey (ks.rxSalt ++ be 8 h.seq.toNat) (kitHeaderBytes h) ct tag
  match k.next.bind fun n => try' n.1 with
  | some pt => some (pt, true)
  | none => (try' k.keys).map fun pt => (pt, false)

/-! ### Receiving (R395) -/

/-- The payload bytes a kind may carry: least and most. -/
def kindLimits (kind : Nat) : Nat × Nat :=
  match kind with
  | 2 => (32, 32)
  | 3 => (32, 32)
  | 6 => (32, 1400)
  | 7 => (32, 1400)
  | 8 => (32, 1400)
  | 9 => (32, 1400)
  | 10 => (32, 32)
  | 11 => (32, 1400)
  | 12 => (16, 1400)
  | _ => (0, 1400)

/-- Steps 1 and 2 of R395 for a kind. -/
def kitFormOk (p : KitPacket) (kind : Nat) : Bool :=
  let n := p.header.len.toNat
  let l := kindLimits kind
  1 ≤ kind && kind ≤ 12 && p.udpLen.toNat == (if kind = 12 then 40 else 56) + n && p.payload.length == n && p.header.ver == 1#4 && p.header.rsv == 0#31 &&
    l.1 ≤ n && n ≤ l.2 && (kind == 1 || kind == 4 || kind == 5 || (p.header.first && p.header.last))

/-- The two counts and the pending rekey after a packet has opened: under new keys they replace the old ones (R456 step 4). -/
def takeNewKeys (s : State) : State :=
  let sec := { s.sec with slots := s.sec.slots.map fun k => match k.num, k.next with
    | 0, some (ks, r, _) => { k with keys := ks, rPrev := r, next := none }
    | _, _ => k }
  { s with sec := sec, counters := s.counters.filter fun c => c.slot != 0, windows := s.windows.filter fun w => w.slot != 0 }

/-- The kinds that a row of the command table receives (Table 12-4). -/
def rowKinds : List Nat := [1, 2, 4, 6, 7, 8, 9, 10, 12]

/-- The kind whose checks a packet meets at a row: its own, where that is the row's or no row's; a packet of another row's kind is not this
row's to check. -/
def checkedKind (p : KitPacket) (kind : Nat) : Option Nat :=
  let k := p.header.kind.toNat
  if k = kind ∨ !rowKinds.contains k then some k else none

/-- A packet's kind checked past the key slot's list: a device-to-host kind is addressed to no receiver here and is dropped as not allowed
(Table 12-4, assumption log 212). -/
def kindForRow (k : KeySlot) (own kind : Nat) : Bool := own == kind && kindAllowed k own

/-- A packet checked and opened (R395): none where it is dropped, with the state its drop leaves. The final response of SESSION_REKEY
follows the first packet under the new keys. -/
def receiveKit (p : KitPacket) (kind : Nat) (s : State) : Option Bytes × State :=
  let pt := p.port.toNat
  let h := p.header
  match (if portCarries s pt then checkedKind p kind else none) with
  | none => (none, s)
  | some own =>
  if !kitFormOk p own then (none, drop pt 6 s)
  else if h.dstDev ≠ s.deviceNumber ∨ h.extDst then (none, drop pt 7 s)
  else match keySlot s h.keyId.toNat with
  | none => (none, drop pt 9 s)
  | some k =>
    if !kindForRow k own kind then (none, drop pt 0xb s)
    else match openKit k h p.payload p.tag with
    | none =>
      (none, tickEvent { cls := 6, code := 3, unit := (portUid pt 2).toNat, plan := 0xff, key := k.num, pos := k.num, count := 1 }
        (drop pt 0xa s))
    | some (bs, fresh) =>
      if fresh then
        let s := seqAccept k.num h.seq.toNat (takeNewKeys s)
        (some bs, finalAnswer (fun x => x == .rekey) St.ok 0 [] s)
      else if !seqFresh s k.num h.seq.toNat then (none, drop pt 0xc s)
      else (some bs, seqAccept k.num h.seq.toNat s)

/-! ### What waits at a port -/

/-- A KIT packet put in its class's queue at a port. -/
def enqueueKit (p : Nat) (c : OutClass) (exch : Bool) (dst : Addr) (h : KitHeader) (payload : Bytes) (s : State) : State :=
  let x := port s p
  setPort p { x with out := x.out ++ [{ cls := c, pcp := pcpOf x c exch, dst := dst, body := .kit h payload }] } s

/-- A packet to a device through its neighbour entry, on that entry's logical port (R387). -/
def sendToDevice (dev : Nat) (c : OutClass) (exch : Bool) (kind key endpoint pos : Nat) (payload : Bytes) (s : State) : State :=
  let p := (neighbour s dev).port.toNat
  enqueueKit p c exch (neighbourAddr s dev p) (kitHeader s kind key dev false endpoint payload.length pos) payload s

/-- A PFC frame at the head class of a port. -/
def enqueuePfc (p priority : Nat) (xoff : Bool) (s : State) : State :=
  let x := port s p
  setPort p { x with out := x.out ++ [{ cls := .pfcPtp, pcp := pcpOf x .pfcPtp false, dst := ⟨0x0180c2000001#48, [], 0⟩,
                                         body := .pfc priority xoff }] } s

/-! ### Flow control of the ingress queues (R390) -/

/-- The transport control ingress queue of a port's die. -/
def controlIngress (p : Nat) : Nat := portDie p * 16384 + 1022

/-- A plan's queue takes ruled data: its certificate lists a stream on it. -/
def ruledQueue (s : State) (q : Nat) : Bool :=
  s.plans.any fun e => (e.2.bound.find? fun b => b.kind == 6 && b.index == q).any fun b =>
    e.2.image.certs.any fun c => c.kind == 2 && (e.2.image.streams[c.index]?).any fun d =>
      (d.srcKind == 6 && d.srcAbs == b.absId) || (d.dstKind == 6 && d.dstAbs == b.absId)

/-- The ingress queues of a port with the priority their class is mapped to: the transport control ingress queue, the queues of the receive
streams, and the mailboxes' request queues (R390, Table 11-1). -/
def ingressQueues (s : State) (p : Nat) : List (Nat × Nat) :=
  let x := port s p
  let data := s.rx.filterMap fun e => match e.dest with
    | .queue q => some (q, pcpOf x (if ruledQueue s q then .ruledExch else .margin) false)
    | .window _ _ => none
  ((controlIngress p, pcpOf x .control false) :: data ++ (List.range 16).map fun m => (requestQueue m, pcpOf x .mailbox false)).filter
    fun e => (queue? s e.1).isSome

/-- XOFF or XON for one priority of a port (R390). -/
def flowOne (p : Nat) (s : State) (pr : Nat) : State :=
  let x := port s p
  let qs := ((ingressQueues s p).filter fun e => e.2 == pr).map fun e => freeTo s e.1
  if !x.xoff.contains pr && qs.any (· < 512) then
    enqueuePfc p pr true (setPort p { x with xoff := x.xoff ++ [pr] } s)
  else if x.xoff.contains pr && qs.all (1024 ≤ ·) then
    enqueuePfc p pr false (setPort p { x with xoff := x.xoff.filter (· != pr) } s)
  else s

/-- The flow control of every port that carries frames with PFC on. -/
def flowControl (s : State) : State :=
  (List.range 4).foldl (fun s p =>
    if portCarries s p && portPfc (port s p) then (List.range 8).foldl (flowOne p) s else s) s

/-! ### Sending (R389) -/

/-- The counter of a slot and port. -/
def seqCounter (s : State) (slot p : Nat) : SeqCounter :=
  (s.counters.find? fun c => c.slot == slot && c.port == p).getD ⟨slot, p, 1, false⟩

/-- A counter replaced. -/
def setCounter (c : SeqCounter) (s : State) : State :=
  { s with counters := c :: s.counters.filter fun x => !(x.slot == c.slot && x.port == c.port) }

/-- What a logical port puts into its frames (R386, R387). -/
def senderOf (s : State) (p : Nat) : Sender :=
  let x := port s p
  { mac := portMac s p, vid := portVid x, ip := x.ip, udp := portUdp x, open' := freeNumber 20 s }

/-- A datagram sent on a port as a frame. -/
def sendUdp (p : Nat) (f : OutFrame) (v6 : Bool) (bs : Bytes) (s : State) : State :=
  drawn { s with sent := { port := p, dst := f.dst, pcp := f.pcp, pfc := none, bytes := bs,
                           frame := udpFrame (senderOf s p) v6 f.pcp f.dst bs } :: s.sent }

/-- A PTP message sent over UDP, or directly over IEEE 802.3 (R391). -/
def sendPtp (p : Nat) (f : OutFrame) (bs : Bytes) (s : State) : State :=
  if s.ptp.transport = 2 then
    drawn { s with sent := { port := p, dst := f.dst, pcp := f.pcp, pfc := none, bytes := bs,
                             frame := macFrame (senderOf s p) f.dst.mac f.pcp 0x88f7 bs } :: s.sent }
  else sendUdp p f (s.ptp.transport == 1) bs s

/-- A PFC frame sent. -/
def sendPfc (p : Nat) (f : OutFrame) (priority : Nat) (xoff : Bool) (s : State) : State :=
  drawn { s with sent := { port := p, dst := f.dst, pcp := f.pcp, pfc := some (priority, xoff), bytes := [],
                           frame := pfcFrame (senderOf s p) f.pcp f.dst.mac priority xoff } :: s.sent }

/-- A frame sealed and gone (R396, R397): a sealed packet takes the next number of its slot and port; a packet whose slot is not
loaded is discarded (R457); past the last number nothing is sent and KIT_SEQ_EXHAUSTED is raised. -/
def emitFrame (p : Nat) (f : OutFrame) (s : State) : State :=
  match f.body with
  | .pfc pr xoff => sendPfc p f pr xoff s
  | .ptp bs => sendPtp p f bs s
  | .kit h pl =>
    let v6 := portIpv6 (port s p)
    if h.keyId = 0xffff#16 then sendUdp p f v6 (kitHeaderBytes h ++ pl) s
    else match keySlot s h.keyId.toNat with
    | none => s
    | some k =>
      let c := seqCounter s k.num p
      if 2 ^ 62 ≤ c.next then s
      else
        let h := { h with seq := BitVec.ofNat 64 (p * 2 ^ 62 + c.next) }
        let hb := kitHeaderBytes h
        let ct := gcmSeal k.keys.txKey (k.keys.txSalt ++ be 8 h.seq.toNat) hb pl
        sendUdp p f v6 (hb ++ ct.1 ++ ct.2) (setCounter { c with next := c.next + 1 } s)

/-- A frame whose slot and port have used up their numbers (R397). -/
def frameExhausted (s : State) (p : Nat) (f : OutFrame) : Bool :=
  match f.body with
  | .kit h _ => h.keyId != 0xffff#16 && (keySlot s h.keyId.toNat).isSome && 2 ^ 62 ≤ (seqCounter s h.keyId.toNat p).next
  | _ => false

/-- KIT_SEQ_EXHAUSTED raised once for the slot of a frame (R397, Table 12-13). -/
def noteExhausted (p : Nat) (f : OutFrame) (s : State) : State :=
  match f.body with
  | .kit h _ =>
    let c := seqCounter s h.keyId.toNat p
    if c.exhausted then s
    else emitErr { cls := 6, code := 4, unit := portUid p 2, pos := h.keyId.toNat, count := 0, plan := 0xff, named := false,
                   test := false } (setCounter { c with exhausted := true } s)
  | _ => s

/-- A priority of a port is paused now (R390). -/
def isPaused (s : State) (p pr : Nat) : Bool :=
  portPfc (port s p) && (port s p).paused.any fun e => e.1 == pr && s.clk.cycle < e.2

/-- The UDP payload bytes of a frame. -/
def frameBytes (f : OutFrame) : Nat :=
  match f.body with
  | .kit h pl => 32 + pl.length + (if h.keyId = 0xffff#16 then 0 else 16)
  | .ptp bs => bs.length
  | .pfc _ _ => 0

/-- The HOST_SIGNAL payload of a host signal (Table 12-5). -/
def hostSignalPayload (h : HostSignal) : Bytes :=
  le 32 (pack [(144, 0), (1, b2n h.queue), (1, 0), (14, if h.queue then 0 else h.num), (32, if h.queue then h.count else h.net.toNat),
    (16, if h.queue then h.num else 0), (16, 0), (32, if h.queue then 0 else h.value.toNat)])

/-- The first waiting host signal made a frame on the port of the host return entry (R381, R387). -/
def offerHostSignal (p : Nat) (s : State) : State :=
  match s.hostSigs with
  | [] => s
  | h :: hs =>
    if (neighbour s hostReturn).port.toNat == p && sessionOpen s && (port s p).out.all fun f => f.cls != .control then
      enqueueKit p .control false (neighbourAddr s hostReturn p) (kitHeader s 3 0 (sessionClient s) true 0 32 0) (hostSignalPayload h)
        { s with hostSigs := hs }
    else s

/-- A message in parts of at most 1,400 bytes, at least one. -/
def kitParts (bs : Bytes) : List Bytes := if bs.isEmpty then [[]] else pieces 1400 bs

/-- The parts with their place: (first, last, bytes before, part). -/
def numberedParts (bs : Bytes) : List (Bool × Bool × Nat × Bytes) :=
  let ps := kitParts bs
  (List.range ps.length).zip ps |>.map fun e => (e.1 == 0, e.1 + 1 == ps.length, 1400 * e.1, e.2)

/-- The next response that waits for room goes on its queue (R423). -/
def refillResponses (m : Nat) (s : State) : State :=
  let b := mbox s m
  match b.outbox, queue? s (responseQueue m) with
  | msg :: rest, some q =>
    if queueRoom s (responseQueue m) msg.length then
      enqueue (responseQueue m) q m msg (setMbox m { b with outbox := rest } s)
    else s
  | _, _ => s

/-- The first response of a mailbox whose requests came on port `p`, as MBX_RSP packets to the source of its latest request (R402). -/
def offerResponse (p : Nat) (s : State) (m : Nat) : State :=
  match look m s.links, queue? s (responseQueue m) with
  | some l, some q =>
    if l.port == p && (port s p).out.all fun f => f.cls != .mailbox then
      match q.pkts with
      | [] => s
      | x :: _ =>
        let s := setQueue (responseQueue m) (freePackets 1 { q with read := (1, 0) }) s
        let s := refillResponses m s
        (numberedParts x.bytes).foldl (fun s e =>
          let h := kitHeader s 5 0 l.client.toNat l.ext m e.2.2.2.length 0
          enqueueKit p .mailbox false l.source { h with first := e.1, last := e.2.1 } e.2.2.2 s) s
    else s
  | _, _ => s

/-- A frame may go now: its class is not paused, its numbers are not used up, and a Dip answer fits in the bucket. -/
def mayGo (s : State) (p : Nat) (f : OutFrame) : Bool :=
  !isPaused s p f.pcp && !frameExhausted s p f && (f.cls != .dip || 80 * wireBytes (port s p) (frameBytes f) ≤ bucketNow s p)

/-- The first frame in the order of R389 that may go. -/
def pickFrame (s : State) (p : Nat) : Option OutFrame :=
  [OutClass.pfcPtp, .dip, .ruledExch, .control, .mailbox, .margin].findSome? fun c =>
    match ((port s p).out.filter fun f => f.cls == c).find? fun f => !frameExhausted s p f && !isPaused s p f.pcp with
    | some f => if mayGo s p f then some f else none
    | none => none

/-- FRAME_BOUNDARY: the transmitter of a logical port picks and sends its next frame (R389); a host signal leaves its queue, and stops taking
further adds, only when it is picked (R381). -/
def execFrameBoundary (pt : BitVec 2) (s : State) : Host.Outcome State Fault Refusal :=
  let p := pt.toNat
  if !portCarries s p then .next s
  else
    let s := (List.range 16).foldl (offerResponse p) s
    let s := ((port s p).out.filter (frameExhausted s p)).foldl (fun s f => noteExhausted p f s) s
    match pickFrame (offerHostSignal p s) p with
    | none => .next s
    | some f =>
      let s := if (port s p).out.contains f then s else offerHostSignal p s
      let left := bucketNow s p - (if f.cls = .dip then 80 * wireBytes (port s p) (frameBytes f) else 0)
      let x := port s p
      let s := setPort p { x with out := x.out.erase f, bucket := left, bucketAt := s.clk.cycle } s
      let s := match f.body with
        | .ptp bs => { s with ptp := { s.ptp with delayReq := some (BitVec.ofNat 16 (beAt bs 30 2), (ptpNs s : Int)) } }
        | _ => s
      .next (emitFrame p f s)

end Sys2Proof.Machine
end

