-- ==== Sys2Proof/Machine/QueueCmds.lean ====
section
/-! DEFINITION. The queue commands (Table 13-8, R433) and the queue events. -/

namespace Sys2Proof.Machine

/-- A queue number names a cluster that exists (R357). -/
def queueNumberOk (q : Nat) : Bool := q / 1024 % 16 < 12

/-- The Inkwell cell pool that a queue number names (R357). -/
def queuePool (q : Nat) : BitVec 16 := clusterUid (q / 16384 * 12 + q / 1024 % 16) 11

/-- A command on queue `q`: it names the queue's cluster, so one that is off gets POWER_STATE (R429). -/
def qcmd (op len q : Nat) (bad : List (Nat × Bool)) (body : State → CmdRes) : Cmd :=
  { icmd op len bad body with units := [(0, queuePool q)] }

/-- The streams of a plan that are ruled: those its certificate lists as SHARED_TASK. -/
def ruledStreams (p : Plan) : List Nat := (p.image.certs.filter fun c => c.kind == 2 && c.unitKind != 0xd).map (·.index)

/-- A stream descriptor moves packets of an abstract queue. -/
def streamUsesQueue (d : StreamDesc) (absQ : Nat) : Bool :=
  (d.srcKind == 6 && d.srcAbs == absQ) || (d.dstKind == 6 && d.dstAbs == absQ)

/-- A ruled unit is attached to a plan's queue (R359, R373). -/
def queueRuled (p : Plan) (absQ : Nat) : Bool :=
  (ruledStreams p).any fun i => match p.image.streams[i]? with | some d => streamUsesQueue d absQ | none => false

/-- The plan that owns a queue and the queue's abstract id. -/
def queueOwner (s : State) (q : Nat) : Option (Nat × Plan × Nat) :=
  match queue? s q with
  | some x => match x.owner with
    | .device => none
    | .plan slot => match plan? s slot with
      | some p => (p.bound.find? fun b => b.kind == 6 && b.index == q).map fun b => (slot, p, b.absId)
      | none => none
  | none => none

/-- QUEUE_READ (Table 13-8); a queue that nothing holds has no stated descriptor, so a free one is read. -/
def execQueueRead (r : Req) (queue : BitVec 16) (s : State) : Host.Outcome State Fault Refusal :=
  .next (goust r (qcmd 0x030d 8 queue.toNat [(0, !queueNumberOk queue.toNat)] fun s =>
    match queue? s queue.toNat with
    | some x => .ok (drawn s) (le 32 (queueDesc s queue.toNat x).toNat)
    | none => .ok (drawn s) (le 32 (freeNumber 256 s))) s)

/-- The read-only and reserved fields of a queue descriptor as (lowest bit, width) (Table 11-3). -/
def queueRoFields : List (Nat × Nat) :=
  [(0, 56), (92, 1), (94, 1), (95, 2), (97, 2), (117, 8), (125, 16), (141, 17), (175, 17), (192, 16), (208, 16), (224, 16),
    (240, 16)]

/-- The fields of a QUEUE_SET image outside their sets, by payload offset (R364). -/
def queueSetBad (s : State) (q : Nat) (desc : Nat) : List (Nat × Bool) :=
  let limit := fld 174 158 desc
  let ro := queueRoFields.map fun f => (8 + f.1 / 8, fld (f.1 + f.2 - 1) f.1 desc != 0)
  let kind := fld 91 88 desc
  let bad := match queue? s q, queueOwner s q with
    | some x, some (_, p, a) => limit < x.reserve || 65536 < limit || limit == 0 || (queueRuled p a && limit != x.reserve)
    | _, _ => false
  [(0, !queueNumberOk q)] ++ ro ++ [(8 + 88 / 8, kind == 0 || 3 < kind), (8 + 158 / 8, bad)]

/-- QUEUE_SET (R364). -/
def execQueueSet (r : Req) (queue : BitVec 16) (desc : BitVec 256) (s : State) : Host.Outcome State Fault Refusal :=
  let d := desc.toNat
  .next (goust r (qcmd 0x030e 40 queue.toNat (queueSetBad s queue.toNat d) fun s =>
    match queueOwner s queue.toNat, queue? s queue.toNat with
    | some (_, p, _), some x =>
      if p.state ≠ .loaded then .fail St.planState 0
      else .ok (setQueue queue.toNat { x with limit := fld 174 158 d, noticeTgt := BitVec.ofNat 16 (fld 116 101 d),
                                              noticeKind := BitVec.ofNat 2 (fld 100 99 d), autorel := bitAt d 93,
                                              kind := BitVec.ofNat 4 (fld 91 88 d), wdog := BitVec.ofNat 32 (fld 87 56 d) } s) []
    | _, _ => .fail St.planState 0) s)

/-- A queue is attached to the host by RX_STREAM_SET (R433). -/
def hostAttached (s : State) (q : Nat) : Bool :=
  s.rx.any fun e => match e.dest with | .queue n => n == q | .window _ _ => false

/-- Up to `n` cells taken by TAKE_POLL, stopping at a blank one (R433); what the pool's check finds is of the first packet whose first cell
is taken. -/
def pollCells (q : Nat) : Nat → Option (BitVec 17) × Nat → State → List Bytes × State
  | 0, _, s => ([], s)
  | n + 1, found, s =>
    let head := (queue? s q).any fun x => takeable x && x.read.2 == 0
    match takeChecked q found.1 found.2 s with
    | (some (c, s'), _) => let r := pollCells q n (if head then (none, 0) else found) s'; (c :: r.1, r.2)
    | (none, s') => ([], s')

/-- A stream of the plan reads from its queue. -/
def queueConsumed (p : Plan) (absQ : Nat) : Bool := p.image.streams.any fun d => d.srcKind == 6 && d.srcAbs == absQ

/-- A plan's queue that no unit of the plan consumes is taken from by the mailbox block, in QCLK (R364). -/
def hostConsumes (q : Nat) (s : State) : State :=
  match queue? s q, queueOwner s q with
  | some x, some (_, p, a) => if queueConsumed p a then s else setQueue q { x with cdom := 2 } s
  | _, _ => s

/-- The response of QUEUE_OP: u8 n, then the cells. -/
def queueOpBody (cs : List Bytes) : Bytes := payload [.num 1 cs.length, .elems cs]

/-- QUEUE_OP (R433, R365), with what the pool's check finds in the packet it takes (assumption log 204). -/
def execQueueOp (r : Req) (t : QueueTake) (op cells : Byte) (s : State) : Host.Outcome State Fault Refusal :=
  let q := t.queue.toNat
  .next (goust r (qcmd 0x030f 8 q [(0, !queueNumberOk q), (2, op.toNat == 0 || 4 < op.toNat), (3, cells.toNat == 0 || 55 < cells.toNat)]
    fun s =>
      if !hostAttached s q || (queue? s q).isNone then .fail St.queueRefused 0
      else match op.toNat with
      | 1 => let t := pollCells q cells.toNat (t.badWord, t.corrected.toNat) (hostConsumes q s); .ok (flowControl t.2) (queueOpBody t.1)
      | 2 => .ok (markOp q s) (queueOpBody [])
      | 3 => match rewindOp q s with
        | some s' => .ok s' (queueOpBody [])
        | none => .fail St.queueRefused 0
      | _ => .ok (flowControl (releaseOp q s)) (queueOpBody [])) s)

/-- QUEUE_RESET (R373). -/
def execQueueReset (r : Req) (queue : BitVec 16) (s : State) : Host.Outcome State Fault Refusal :=
  let q := queue.toNat
  .next (goust r (qcmd 0x0310 8 q [(0, !queueNumberOk q)] fun s =>
    match queue? s q with
    | none => .ok s []
    | some x =>
      let held : Bool := match queueOwner s q with
        | some (_, p, a) => p.state == .active && queueRuled p a
        | none => false
      if held then .fail St.queueRefused 0 else .ok (flowControl (wakeQueue q (setQueue q (emptyQueue x) s))) []) s)

/-- PACKET_COMMIT: a producer's packet is complete (R361). -/
def execPacketCommit (queue unit : BitVec 16) (packet : Bytes) (s : State) : Host.Outcome State Fault Refusal :=
  .next (flowControl (commitPacket queue.toNat unit 0 packet s))

/-- TAKE_WAIT (R365); the row says which word of the packet at QD_READ cannot be corrected, and how many were corrected. -/
def execTakeWait (queue unit : BitVec 16) (badWord : Option (BitVec 17)) (words : Byte) (s : State) :
    Host.Outcome State Fault Refusal :=
  .next (flowControl (takeWaitOp queue.toNat unit badWord words.toNat s))

/-- TAKE_POLL (R365), with what the pool's check finds as for TAKE_WAIT. -/
def execTakePoll (t : QueueTake) (s : State) : Host.Outcome State Fault Refusal :=
  .next (flowControl (takePollOp t.queue.toNat t.badWord t.corrected.toNat s).2)

/-- MARK (R365). -/
def execMark (queue : BitVec 16) (s : State) : Host.Outcome State Fault Refusal := .next (markOp queue.toNat s)

/-- REWIND (R365): no effect where no mark is held. -/
def execRewind (queue : BitVec 16) (s : State) : Host.Outcome State Fault Refusal :=
  .next ((rewindOp queue.toNat s).getD s)

/-- RELEASE (R366). -/
def execRelease (queue : BitVec 16) (s : State) : Host.Outcome State Fault Refusal := .next (flowControl (releaseOp queue.toNat s))

end Sys2Proof.Machine
end

