-- ==== Sys2Proof/Machine/Binding.lean ====
section
/-! DEFINITION. Binding: the lowest-numbered free units and regions for a plan's requests (R89 to R92, R292, R514). -/

namespace Sys2Proof.Machine

/-- A fit report entry (Table 3-13). -/
structure FitEntry where
  (short avail task unit absId plan measure code : Nat)
  deriving DecidableEq, Repr

/-- A fit report entry as bytes. -/
def fitEntryBytes (e : FitEntry) : Bytes :=
  le 32 (pack [(16, e.code), (32, 0), (8, e.measure), (8, e.plan), (16, e.absId), (16, e.unit), (32, e.task), (64, e.avail),
    (64, e.short)])

/-- A fit report: the 32-byte header and at most 4,096 entries (R111). -/
def fitReport (planId p : Nat) (es : List FitEntry) : Bytes :=
  le 32 (pack [(32, es.length), (32, min 4096 es.length), (64, planId), (32, p), (32, windowOf p), (64, 0)]) ++
    (es.take 4096).flatMap fitEntryBytes

/-! ### What is free -/

/-- What a binding works against: the resources other plans and pending zeroing hold, the units to avoid, the cores and HBM regions
that must share a die (R513), as abstract ids, and the HBM regions bound on every die (R225). -/
structure Avail where
  held : List Bound
  avoid : List (BitVec 16)
  together : List (Nat × Nat) := []
  copies : List Nat := []

/-- The resources held in the device beside those of one slot (R90, R92). -/
def heldBounds (s : State) (slot : Nat) : List Bound :=
  (s.plans.filter fun e => e.1 != slot).flatMap (·.2.bound) ++ s.zeroing.flatMap (·.held) ++
    s.plans.flatMap fun e => match e.2.rebind with
      | some r => r.news
      | none => []

/-- The units that nothing of a plan may be bound on: excluded, about to be, or avoided (R91, R482). -/
def barredUnits (s : State) (a : Avail) : List (BitVec 16) := s.excluded ++ s.exclusions.flatten ++ a.avoid

/-- A unit may not be bound: it is barred or lies on a barred unit (R91, R482). -/
def barred (s : State) (a : Avail) (u : BitVec 16) : Bool := (barredUnits s a).any fun x => covers x u

/-- A cluster may not be bound: avoided, excluded or off. -/
def clusterBarred (s : State) (a : Avail) (k : Nat) : Bool := (cluster s k).off || barred s a (clusterUid k 8)

/-- The masks and RQ_NEAR of a request admit a cluster (Table 3-4). -/
def clusterOk (r : Request) (near : Option Nat) (k : Nat) : Bool :=
  (r.dieMask == 0 || bitAt r.dieMask (k / 12)) && (r.clusterMask == 0 || bitAt r.clusterMask (k % 12)) &&
    (match near with | some c => c / 8 == k | none => true)

/-- The masks and RQ_NEAR of a request admit a die. -/
def dieOk (r : Request) (near : Option Nat) (d : Nat) : Bool :=
  (r.dieMask == 0 || bitAt r.dieMask d) && (match near with | some c => c / 96 == d | none => true)

/-- Cores a plan may take (R90): not held, or with RQ_SHARE held only with RQ_SHARE. A shared core's holding is marked by `base` 1. -/
def coreFree (s : State) (a : Avail) (taken : List Bound) (share : Bool) (n : Nat) : Bool :=
  !clusterBarred s a (n / 8) && !barred s a (coreUid n 7) &&
    ((a.held ++ taken).all fun b => b.kind != 1 || b.index != n || (share && b.base == 1)) &&
    (taken.all fun b => b.kind != 1 || b.index != n)

/-- The sizes of some bounds, summed. -/
def heldSizeOf (bs : List Bound) : Nat := bs.foldl (fun t b => t + b.size) 0

/-- Bytes or entries of a kind held in a place. -/
def heldSize (bs : List Bound) (kind index : Nat) : Nat :=
  heldSizeOf (bs.filter fun b => b.kind == kind && b.index == index)

/-- The largest shared cache asked for on a cluster (Table 3-5). -/
def cacheSize (bs : List Bound) (k : Nat) : Nat :=
  (bs.filter fun b => b.kind == 3 && b.index == k).foldl (fun t b => max t b.size) 0

/-- Bytes left in a cluster store beside the Inkwell pool, the shared cache, the Scribe ring and the parts held (R37, R83). -/
def storeLeft (s : State) (bs : List Bound) (k : Nat) : Int :=
  (storeBytes : Int) - 4194304 - cacheSize bs k - (cluster s k).scribe.bytes - heldSize bs 2 k

/-- The Reservoir bytes of a die in service: 42 MiB less for each excluded bank (Table 15-5). -/
def reservoirSize (s : State) (a : Avail) (d : Nat) : Nat :=
  let banks := (dedup (barredUnits s a)).filter fun u => match unitClass u with | .bankGroup d' _ => d' == d | _ => false
  reservoirBytes - 44040192 * banks.length

/-- The lowest gap of `n` bytes among ranges, in a space of `cap` bytes. Where no gap is long enough although enough is free in all, the
shortfall reads 0 (DESIGN CHOICE, assumption log 186). -/
def lowestGap (cap n : Nat) (ranges : List (Nat × Nat)) : Option Nat :=
  let cands := 0 :: ranges.map fun r => r.1 + r.2
  (cands.filter fun c => c + n ≤ cap && ranges.all fun r => !overlap r.1 r.2 c n).foldl
    (fun m c => match m with | none => some c | some x => some (min x c)) none

/-- The offsets taken in a tier's place: kind 2 in a cluster store, kind 4 in a Reservoir. -/
def takenRanges (bs : List Bound) (kind index : Nat) : List (Nat × Nat) :=
  (bs.filter fun b => b.kind == kind && b.index == index).map fun b =>
    ((if kind = 2 then b.base % 2 ^ 28 - 4194304 else b.base % 2 ^ 33), b.size)

/-! ### HBM frames (R514) -/

/-- Frames of a die that the firmware regions occupy, with their tag areas (R514, Table 14-10). -/
def firmwareFrames (die : Nat) : Nat := if die = 0 then 144 + 5 + 1 + 36 else 36

/-- Frames in use: mapped pages, regions being zeroed, and image copies. -/
def usedFrames (s : State) : List Nat :=
  ((s.pages.filter fun e => e.2.state != 0).map fun e => e.2.frame.toNat) ++
    (s.zeroing.flatMap fun z => z.ranges.flatMap fun r =>
      if r.1 / 2 ^ 53 = 1 then (List.range (ceilDiv r.2 pageBytes)).map fun i => r.1 % 2 ^ 53 / pageBytes + i else []) ++
    s.plans.flatMap fun e => e.2.imageFrames

/-- The frames of a die that binding and MEM_ALLOC may take (R514, R482). -/
def openFrames (s : State) (a : Avail) (die : Nat) : List Nat :=
  let used := usedFrames s
  let n := dieFrames s.variant
  ((List.range (n - firmwareFrames die)).map fun i => die * n + i).filter fun f =>
    !used.contains f && !barred s a (uid die 12 1 (frameController f) 0)

/-- The free run of page numbers a range of `n` pages is mapped at: the firmware's choice where it is free, else the first fit
(R292). -/
def pageRun (s : State) (n : Nat) : Nat :=
  let free : Nat → Bool := fun p => p + n ≤ 1048576 && s.pages.all fun e => !(p ≤ e.1 && e.1 < p + n)
  let c := Config.pageRun s.freeCtr % 1048576
  if free c then c
  else ((0 :: s.pages.map fun e => e.1 + 1).filter free).foldl min 1048576

/-- Pages mapped at a run of page numbers over frames (R295). -/
def mapPages (first : Nat) (frames : List Nat) (pinned : Bool) (s : State) : State :=
  ((List.range frames.length).zip frames).foldl (fun s e =>
    let p : Page := { frame := BitVec.ofNat 26 e.2, dirty := false, faulted := false, state := if pinned then 2 else 1,
                      die := e.2 / dieFrames s.variant }
    { s with pages := put (first + e.1) p s.pages }) (drawn s)

/-! ### One request -/

/-- What binding has so far: the state with its mapped pages and queues, the bound ids, and the shortfalls in request order. -/
structure Binding where
  s : State
  taken : List Bound
  short : List FitEntry

/-- Shortfalls added to a binding. -/
def addShort (b : Binding) (es : List FitEntry) : Binding := { b with short := b.short ++ es }

/-- Bound ids added to a binding. -/
def addTaken (b : Binding) (bs : List Bound) : Binding := { b with taken := b.taken ++ bs }

/-- A shortfall entry for a request. -/
def shortfall (slot code measure avail need : Nat) (unit absId : Nat) : FitEntry :=
  { short := need - avail, avail := avail, task := 0xffffffff, unit := unit, absId := absId, plan := slot, measure := measure,
    code := code }

/-- The core an RQ_NEAR names, among those bound so far; a core not bound yet is never met. -/
def nearCore (taken : List Bound) (near : Nat) : Option (Option Nat) :=
  if near = 0xffff then some none
  else match taken.find? fun b => b.kind == 1 && b.absId == near with
    | some b => some (some b.index)
    | none => none

/-- Units taken one after another for a counted request: the lowest-numbered candidate that is free each time. -/
def takeUnits (cands : List Nat) (mk : Nat → Nat → Bound) (free : Nat → List Bound → Nat → Bool) :
    Nat → Nat → List Bound → List Bound
  | 0, _, acc => acc
  | n + 1, absId, acc =>
    match cands.find? (free absId acc) with
    | some u => takeUnits cands mk free n (absId + 1) (acc ++ [mk absId u])
    | none => acc

/-- A counted request of single units bound, with its shortfall (R90): a core shortfall names the first core id left unplaced, another the
request (Table 3-14). -/
def bindCounted (slot code : Nat) (r : Request) (cands : List Nat) (mk : Nat → Nat → Bound) (free : Nat → List Bound → Nat → Bool)
    (b : Binding) : Binding :=
  let got := takeUnits cands mk (fun i acc u => free i (b.taken ++ acc) u) r.amount r.absId []
  if got.length = r.amount then addTaken b (got)
  else addShort b ([shortfall slot code 3 got.length r.amount 0xffff (if code = 1 then r.absId + got.length else r.absId)])

/-- The dies of the places already bound that something must share (R513). -/
def togetherDies (bs : List Bound) (kind : Nat) (ids : List Nat) : List Nat :=
  (bs.filter fun b => b.kind == kind && ids.contains b.absId).map fun b => if kind = 1 then b.index / 96 else b.index

/-- A core lies on the die of each LOCAL region that its POOL_DIRECT stages read and that is bound already (R513). -/
def coreDieOk (a : Avail) (bs : List Bound) (absId n : Nat) : Bool :=
  (togetherDies bs 5 ((a.together.filter fun e => e.1 == absId).map (·.2))).all fun d => n / 96 == d

/-- A die is that of each core bound already whose POOL_DIRECT stages read the region (R513). -/
def regionDieOk (a : Avail) (bs : List Bound) (absId d : Nat) : Bool :=
  (togetherDies bs 1 ((a.together.filter fun e => e.2 == absId).map (·.1))).all fun x => d == x

/-- Cores (kind 0x01). -/
def bindCores (slot : Nat) (a : Avail) (near : Option Nat) (r : Request) (b : Binding) : Binding :=
  bindCounted slot 1 r ((List.range 384).filter fun n => clusterOk r near (n / 8))
    (fun i n => ⟨1, 0, i, (coreUid n 7).toNat, n, b2n r.share, padBytes⟩)
    (fun i bs n => coreFree b.s a bs r.share n && coreDieOk a bs i n) b

/-- The places of a die or cluster shortfall: one entry per admitted place, and one that names none where no place is admitted. -/
def perPlace (slot code measure need absId : Nat) (places : List Nat) (avail : Nat → Nat) (unit : Nat → BitVec 16) : List FitEntry :=
  if places.isEmpty then [shortfall slot code measure 0 need 0xffff absId]
  else places.map fun p => shortfall slot code measure (avail p) need (unit p).toNat absId

/-- A cluster store part (kind 0x02). -/
def bindStore (slot : Nat) (a : Avail) (near : Option Nat) (r : Request) (b : Binding) : Binding :=
  let bs := a.held ++ b.taken
  let ks := (List.range 48).filter fun k => clusterOk r near k && !clusterBarred b.s a k
  let cap : Nat → Nat := fun k => storeBytes - 4194304 - cacheSize bs k - (cluster b.s k).scribe.bytes
  match ks.findSome? fun k => (lowestGap (cap k) r.amount (takenRanges bs 2 k)).map fun o => (k, o) with
  | some (k, o) => addTaken b ([⟨2, 0, r.absId, (clusterUid k 10).toNat, k, storeDva k (4194304 + o), r.amount⟩])
  | none => addShort b (perPlace slot 3 1 r.amount r.absId ks (fun k => (storeLeft b.s bs k).toNat) fun k => clusterUid k 10)

/-- A shared cache (kind 0x03): on the cluster of RQ_NEAR, or on every admitted cluster where the plan holds a core (R37, assumption log
167). -/
def bindCache (slot : Nat) (a : Avail) (near : Option Nat) (r : Request) (b : Binding) : Binding :=
  let ks := (match near with
    | some c => [c / 8]
    | none => dedup ((b.taken.filter fun (x : Bound) => x.kind == 1).map fun (x : Bound) => x.index / 8)).filter fun k =>
      clusterOk r near k && !clusterBarred b.s a k
  let one : List Bound → Nat → Int := fun bs k => storeLeft b.s bs k
  let add := ks.map fun k => (⟨3, 0, r.absId, (clusterUid k 12).toNat, k, 0, if barred b.s a (clusterUid k 12) then 0 else r.amount⟩ : Bound)
  let bs := a.held ++ b.taken
  let bad := ks.filter fun k => one (bs ++ add) k < 0
  if bad.isEmpty && !ks.isEmpty then addTaken b (add)
  else addShort b (perPlace slot 3 1 r.amount r.absId bad (fun k => (one bs k + cacheSize bs k).toNat) fun k => clusterUid k 12)

/-- The Dip bytes held on a die. -/
def dipHeld (bs : List Bound) (d : Nat) : Nat :=
  (bs.filter fun x => x.kind == 4 && x.subkind == 2 && x.index == d).foldl (fun t x => t + x.size) 0

/-- The place of a Reservoir part on a die: the lowest gap, a Dip part within 2 GiB. -/
def reservoirPlace (a : Avail) (r : Request) (b : Binding) (d : Nat) : Option Bound :=
  let bs := a.held ++ b.taken
  if r.subkind == 2 && decide (2147483648 < dipHeld bs d + r.amount) then none
  else (lowestGap (reservoirSize b.s a d) r.amount (takenRanges bs 4 d)).map fun o =>
    ⟨4, r.subkind, r.absId, (uid d 12 0 0 0).toNat, d, reservoirDva d o, r.amount⟩

/-- What a Reservoir part lacks on a die. -/
def reservoirShort (slot : Nat) (a : Avail) (r : Request) (b : Binding) (d : Nat) : FitEntry :=
  let bs := a.held ++ b.taken
  if r.subkind == 2 && decide (2147483648 < dipHeld bs d + r.amount) then
    shortfall slot 5 1 (2147483648 - dipHeld bs d) r.amount (uid d 12 0 0 0).toNat r.absId
  else shortfall slot 4 1 (reservoirSize b.s a d - heldSize bs 4 d) r.amount (uid d 12 0 0 0).toNat r.absId

/-- A Reservoir part (kind 0x04): a hot embedding tier or a Dip partition on every admitted die, another part on the lowest that has room
(assumption log 162). -/
def bindReservoir (slot : Nat) (a : Avail) (near : Option Nat) (r : Request) (b : Binding) : Binding :=
  let ds := (List.range 4).filter (dieOk r near)
  let got := ds.filterMap (reservoirPlace a r b)
  let each := r.subkind == 1 || r.subkind == 2
  if ds.isEmpty then addShort b (perPlace slot 4 1 r.amount r.absId [] (fun _ => 0) fun _ => 0)
  else if each && got.length < ds.length then
    addShort b ((ds.filter fun d => (reservoirPlace a r b d).isNone).map (reservoirShort slot a r b))
  else if got.isEmpty then addShort b (ds.map (reservoirShort slot a r b))
  else addTaken b (if each then got else got.take 1)

/-- A region of frames of one die mapped as one range, where the page map has a free run of page numbers for it (R292, R295). -/
def placeRegion (slot : Nat) (a : Avail) (r : Request) (b : Binding) (d : Nat) : Binding :=
  let n := r.amount / pageBytes
  let first := pageRun b.s n
  if 1048576 < first + n then
    addShort b [shortfall slot 6 1 ((1048576 - (b.s.pages.filter fun e => e.1 < 1048576).length) * pageBytes) r.amount 0xffff r.absId]
  else
    let s := mapPages first ((openFrames b.s a d).take n) r.pinned b.s
    { b with s := s, taken := b.taken ++ [⟨5, 0, r.absId, (uid d 12 1 0 0).toNat, d, first * pageBytes, r.amount⟩] }

/-- An HBM region (kind 0x05): frames of the lowest admitted die that has them; the region of a REPLICATE reference once on every die,
its own first (R225). -/
def bindHbm (slot : Nat) (a : Avail) (near : Option Nat) (r : Request) (b : Binding) : Binding :=
  let n := r.amount / pageBytes
  let has : Nat → Bool := fun d => n ≤ (openFrames b.s a d).length
  let ds := (List.range 4).filter fun d => dieOk r near d && regionDieOk a b.taken r.absId d
  let need := if a.copies.contains r.absId then (List.range 4).all has else true
  match ds.find? has, need with
  | some d, true =>
    let b := placeRegion slot a r b d
    if a.copies.contains r.absId then ((List.range 4).filter (· != d)).foldl (placeRegion slot a r) b else b
  | _, _ =>
    let dies := if a.copies.contains r.absId then (List.range 4).filter fun d => !has d else ds
    let avail := (dies.map fun d => (openFrames b.s a d).length * pageBytes).foldl max 0
    addShort b ([shortfall slot 6 1 avail r.amount 0xffff r.absId])

/-- The QD_KIND, domains and reservation of a plan's queue at binding (Table 11-3). -/
def planQueue (slot cells : Nat) : Queue := Queue.bind (.plan slot) cells 1 0 0

/-- The common cells of a pool that a new queue may reserve: those free, less the cells still to be zeroed (R92, R359). -/
def cellsLeft (s : State) (pool : Nat) : Nat :=
  commonFree s pool - heldSizeOf ((s.zeroing.flatMap (·.held)).filter fun b => b.kind == 6 && b.index / 1024 == pool)

/-- Queues (kind 0x06): each takes the lowest free number of the lowest admitted cluster with the cells to reserve (R359). Missing cells are
reported in bytes, 64 a cell (DESIGN CHOICE, assumption log 185). -/
def bindQueues (slot : Nat) (a : Avail) (near : Option Nat) (r : Request) : Nat → Nat → Binding → Binding
  | 0, _, b => b
  | n + 1, absId, b =>
    let ks := (List.range 48).filter fun k => clusterOk r near k && !clusterBarred b.s a k
    let pool : Nat → Nat := fun k => k / 12 * 16 + k % 12
    let zeroed : Nat → Bool := fun q => b.s.zeroing.any fun z => z.held.any fun x => x.kind == 6 && x.index == q
    let free : Nat → Option Nat := fun k => (List.range 1024).find? fun q =>
      (queue? b.s (pool k * 1024 + q)).isNone && !zeroed (pool k * 1024 + q)
    match ks.findSome? fun k => match free k with
        | some q => if r.rate ≤ cellsLeft b.s (pool k) then some (k, pool k * 1024 + q) else none
        | none => none with
    | some (k, q) =>
      bindQueues slot a near r n (absId + 1) { b with
        s := setQueue q (planQueue slot r.rate) b.s,
        taken := b.taken ++ [⟨6, 0, absId, (clusterUid k 11).toNat, q, queueDva q, r.rate⟩] }
    | none =>
      let full : Bool := ks.all fun k => (free k).isNone
      let avail := (ks.map fun k => cellsLeft b.s (pool k)).foldl max 0
      addShort b ([if full then shortfall slot 8 3 0 (n + 1) 0xffff absId
                                    else shortfall slot 8 1 (64 * avail) (64 * r.rate) 0xffff absId])

/-- Signal cells (kind 0x08): the lowest free cells of the admitted dies. -/
def bindCells (slot : Nat) (a : Avail) (near : Option Nat) (r : Request) (b : Binding) : Binding :=
  let ds := (List.range 4).filter fun d => dieOk r near d && !barred b.s a (signalsUid d)
  let free : List Bound → Nat → Bool := fun bs n =>
    !cellHeld b.s n && (a.held ++ bs).all fun x => x.kind != 8 || x.index != n
  let cands := ds.flatMap fun d => (List.range 4096).map fun c => d * 4096 + c
  let got := takeUnits cands (fun i n => ⟨8, 0, i, (signalsUid (n / 4096)).toNat, n, 0, 1⟩) (fun _ acc u => free (b.taken ++ acc) u) r.amount r.absId []
  if got.length = r.amount then addTaken b (got)
  else addShort b (perPlace slot 9 3 r.amount r.absId ds
    (fun d => ((List.range 4096).filter fun c => free b.taken (d * 4096 + c)).length) signalsUid)

/-- Match entries (kind 0x09): rows of 64 from the lowest gap of the lowest admitted cluster. -/
def bindMatch (slot : Nat) (a : Avail) (near : Option Nat) (r : Request) (b : Binding) : Binding :=
  let bs := a.held ++ b.taken
  let ks := (List.range 48).filter fun k => clusterOk r near k && !clusterBarred b.s a k && !barred b.s a (clusterUid k 9)
  let ranges : Nat → List (Nat × Nat) := fun k => (bs.filter fun x => x.kind == 9 && x.index == k).map fun x => (x.base, x.size)
  match ks.findSome? fun k => (lowestGap 16384 r.amount (ranges k)).map fun o => (k, o) with
  | some (k, o) => addTaken b ([⟨9, 0, r.absId, (clusterUid k 9).toNat, k, o, r.amount⟩])
  | none => addShort b (perPlace slot 7 3 r.amount r.absId ks (fun k => 16384 - heldSize bs 9 k) fun k => clusterUid k 9)

/-- A share of a logical port in one direction (kind 0x0A). -/
def bindPort (slot : Nat) (a : Avail) (near : Option Nat) (r : Request) (b : Binding) : Binding :=
  let bs := a.held ++ b.taken
  let ps := (List.range 4).filter fun p => portExists b.s p && dieOk r near (portDie p) && !(barredUnits b.s a).any (portUses b.s p)
  let used : Nat → Nat := fun p =>
    (bs.filter fun x => x.kind == 0xa && x.index == p && x.subkind == r.subkind).foldl (fun t x => t + x.size) 0
  match ps.find? fun p => used p + r.rate ≤ portCharge b.s p with
  | some p => addTaken b ([⟨0xa, r.subkind, r.absId, (portUid p 1).toNat, p, 0, r.rate⟩])
  | none => addShort b (perPlace slot 0xb 4 r.rate r.absId ps (fun p => portCharge b.s p - used p) fun p => portUid p 1)

/-- Update combiner entries (kind 0x0D). -/
def bindCombiner (slot : Nat) (a : Avail) (near : Option Nat) (r : Request) (b : Binding) : Binding :=
  let bs := a.held ++ b.taken
  let ds := (List.range 4).filter fun d => dieOk r near d && !barred b.s a (uid d 12 5 0 0)
  match ds.find? fun d => heldSize bs 0xd d + r.amount ≤ 4096 with
  | some d => addTaken b ([⟨0xd, 0, r.absId, (uid d 12 5 0 0).toNat, d, 0, r.amount⟩])
  | none => addShort b (perPlace slot 0xc 3 r.amount r.absId ds (fun d => 4096 - heldSize bs 0xd d) fun d => uid d 12 5 0 0)

/-- Eight or two units of a kind per die (kinds 0x07, 0x0B, 0x0C). -/
def bindShared (slot : Nat) (a : Avail) (near : Option Nat) (r : Request) (perDie sel : Nat) (b : Binding) : Binding :=
  let u : Nat → BitVec 16 := fun n => uid (n / perDie) 12 sel (n % perDie) (if sel = 3 then r.subkind else 0)
  bindCounted slot 0xa r ((List.range (4 * perDie)).filter fun n => dieOk r near (n / perDie))
    (fun i n => ⟨r.kind, r.subkind, i, (u n).toNat, n, 0, 1⟩)
    (fun _ bs n => !barred b.s a (u n) &&
      (a.held ++ bs).all fun x => x.kind != r.kind || x.subkind != r.subkind || x.index != n) b

/-- The fit code and measure of a request whose RQ_NEAR core has no place (Tables 3-13 and 3-14). -/
def nearCode : Nat → Nat × Nat
  | 1 => (1, 3) | 2 => (3, 1) | 3 => (3, 1) | 4 => (4, 1) | 5 => (6, 1) | 6 => (8, 3) | 8 => (9, 3) | 9 => (7, 3) | 0xa => (0xb, 4)
  | 0xd => (0xc, 3) | _ => (0xa, 3)

/-- Cores whose RQ_NEAR names one of themselves: that core first, then the others in its cluster in order of id (assumption log 168). -/
def bindOwnNear (slot : Nat) (a : Avail) (r : Request) (b : Binding) : Binding :=
  let one : Nat → Option Nat → Binding → Binding := fun i near b => bindCores slot a near { r with absId := i, amount := 1 } b
  let b' := one r.near none b
  match b'.taken.find? fun x => x.kind == 1 && x.absId == r.near with
  | none => addShort b ([shortfall slot 1 3 0 r.amount 0xffff r.near])
  | some c => (((List.range r.amount).map fun i => r.absId + i).filter (· != r.near)).foldl (fun b i => one i (some c.index) b) b'

/-- One request bound in its turn (R90). -/
def bindOne (slot : Nat) (a : Avail) (b : Binding) (r : Request) : Binding :=
  match nearCore b.taken r.near, r.kind with
  | none, k =>
    if k = 1 ∧ r.absId ≤ r.near ∧ r.near < r.absId + r.amount then bindOwnNear slot a r b
    else addShort b ([shortfall slot (nearCode k).1 (nearCode k).2 0 (if k = 0xa then r.rate else r.amount) 0xffff r.absId])
  | some near, 1 => bindCores slot a near r b
  | some near, 2 => bindStore slot a near r b
  | some near, 3 => bindCache slot a near r b
  | some near, 4 => bindReservoir slot a near r b
  | some near, 5 => bindHbm slot a near r b
  | some near, 6 => bindQueues slot a near r r.amount r.absId b
  | some near, 7 => bindShared slot a near r 8 4 b
  | some near, 8 => bindCells slot a near r b
  | some near, 9 => bindMatch slot a near r b
  | some near, 0xa => bindPort slot a near r b
  | some near, 0xb => bindShared slot a near r 8 2 b
  | some near, 0xc => bindShared slot a near r 2 3 b
  | some near, _ => bindCombiner slot a near r b

/-- The requests of a plan bound in image order (R90). -/
def bindAll (s : State) (slot : Nat) (a : Avail) (rs : List Request) : Binding :=
  rs.foldl (bindOne slot a) { s := s, taken := [], short := [] }

/-- The cores and LOCAL regions that R513 keeps on one die, by the POOL_DIRECT stages of an image. -/
def togetherOf (m : Image) : List (Nat × Nat) :=
  m.ligatures.flatMap fun l => (l.stages.filter fun st => st.engine == 4 && st.op == 3).filterMap fun st =>
    (m.refs.find? fun r => r.absId == leAt m.blob (st.param + 22) 2 && r.place == 3).map fun r => (l.core, r.hbm)

/-- The HBM regions of an image's REPLICATE references (R225). -/
def copiesOf (m : Image) : List Nat := (m.refs.filter fun r => r.place == 1 && r.hbm != 0xffff).map (·.hbm)

/-- The cores of MATCH and AUTOMATON stages that are not bound in their region's cluster (R276). -/
def matchShorts (slot : Nat) (m : Image) (bs : List Bound) : List FitEntry :=
  m.ligatures.flatMap fun l => (l.stages.filter fun st => st.engine == 3 && (st.op == 4 || st.op == 5)).filterMap fun st =>
    match bs.find? (fun b => b.kind == 9 && b.absId == leAt m.blob (st.param + if st.op = 4 then 14 else 6) 2), bs.find? (fun b => b.kind == 1 && b.absId == l.core) with
    | some g, some c => if c.index / 8 = g.index then none else some (shortfall slot 1 3 0 1 (coreUid c.index 7).toNat l.core)
    | _, _ => none

/-- Owner table entries that a plan's POOL references take (R222). -/
def ownerEntries (m : Image) : Nat :=
  (m.refs.filter fun r => r.kind == 1 && r.place == 0).foldl (fun t r => t + ceilDiv r.size pageBytes) 0

/-- The POOL reference at which the owner table's 4,194,304 entries run short (R222). -/
def ownerShorts (slot : Nat) (used : Nat) : List Ref → List FitEntry
  | [] => []
  | r :: rs =>
    let n := ceilDiv r.size pageBytes
    if 4194304 < used + n then [shortfall slot 6 3 (4194304 - used) n 0xffff r.absId] else ownerShorts slot (used + n) rs

/-- The landing buffers that do not fit a die's instance of their Reservoir part, one entry per die (R234). -/
def landingShorts (slot : Nat) (m : Image) (bs : List Bound) : List FitEntry :=
  let tables := m.refs.filter fun r => r.kind == 1 && (r.place == 0 || r.place == 2 || r.place == 3)
  let part : Ref → Nat := fun r => leAt m.blob (r.desc + 13) 2
  bs.filterMap fun b =>
    if b.kind = 4 then
      let need := (tables.filter fun r => part r == b.absId).foldl (fun n r =>
        n + 3 * leAt m.blob (r.desc + 19) 4 * leAt m.blob (r.desc + 4) 2) 0
      if b.size < need then some (shortfall slot 4 1 b.size need b.unit b.absId) else none
    else none

/-- A reference's objects that run past their REF_HBM region (Table 3-9). -/
def refShorts (slot : Nat) (m : Image) (bs : List Bound) : List FitEntry :=
  (dedup (m.refs.map (·.hbm))).filterMap fun h =>
    match bs.find? fun b => b.kind == 5 && b.absId == h with
    | none => none
    | some b =>
      let rs := m.refs.filter fun r => r.hbm == h && r.addr == 0 && !(r.kind == 1 && (r.place == 0 || r.place == 2))
      let need := rs.foldl (fun t r => t + alignUp r.size 256) 0
      if b.size < need then (rs.getLast?).map fun r => shortfall slot 6 1 b.size need 0xffff r.absId else none

/-- A whole image bound, with the capacity shortfalls that belong to no single request after those of the requests (R111). -/
def bindImage (s : State) (slot : Nat) (avoid : List (BitVec 16)) (m : Image) : Binding :=
  let b := bindAll s slot { held := heldBounds s slot, avoid := avoid, together := togetherOf m, copies := copiesOf m } m.requests
  let used := s.plans.foldl (fun t e => if e.1 = slot then t else t + ownerEntries e.2.image) 0
  addShort b (matchShorts slot m b.taken ++ ownerShorts slot used (m.refs.filter fun r => r.kind == 1 && r.place == 0) ++
    landingShorts slot m b.taken ++ refShorts slot m b.taken)

end Sys2Proof.Machine
end

