-- ==== Sys2Proof/Machine/Tables.lean ====
section
/-! DEFINITION. Embedding tables: where rows live, how a row is read, written and added to (R219 to R225, R244, R245, R251, R410). -/

namespace Sys2Proof.Machine

/-- A table descriptor (Table 7-1). -/
structure TableDesc where
  (rows id landRows maxServe resPart shards shardBase hotThresh dim stride fmt frac lag : Nat)
  (update dip hot wrap : Bool)
  deriving DecidableEq, Repr

/-- The descriptor at an offset of the blob. -/
def tableDescAt (b : Bytes) (o : Nat) : TableDesc :=
  let w := leAt b o 4
  let v := leAt b (o + 8) 5
  { rows := leAt b (o + 27) 5, id := leAt b (o + 23) 4, landRows := leAt b (o + 19) 4, maxServe := leAt b (o + 15) 4,
    resPart := leAt b (o + 13) 2, shards := fld 39 29 v, shardBase := fld 28 19 v, hotThresh := fld 18 7 v, dim := leAt b (o + 6) 2,
    stride := leAt b (o + 4) 2, fmt := fld 23 20 w, frac := fld 19 15 w, lag := fld 14 13 w, update := bitAt w 12, dip := bitAt w 11,
    hot := bitAt w 10, wrap := bitAt w 9 }

/-- The descriptor of a reference. -/
def tableDesc (p : Plan) (r : Ref) : TableDesc := tableDescAt p.image.blob r.desc

/-- A table at the start of its use. -/
def Table.fresh (ref : Nat) (owners : List Owner) : Table :=
  { gen := 0, data := ref, owners := owners, migrations := [], landing := [], reqs := [], upds := [], pause := none,
    served := 0, dipHits := 0, dipMisses := 0, dipBusy := 0, outOfRange := 0, aborted := 0, missing := [], peers := [], skipPages := [] }

/-- The table of a plan's reference. -/
def tableOf (s : State) (slot ref : Nat) : Table := (look (slot, ref) s.tables).getD (Table.fresh ref [])

/-- A table replaced. -/
def setTable (slot ref : Nat) (t : Table) (s : State) : State := { s with tables := put (slot, ref) t s.tables }

/-- A table as a stage or task meets it. -/
structure TableCtx where
  (plan : Plan)
  (slot ref : Nat)
  (r : Ref)
  (d : TableDesc)

/-- The table a reference id names. -/
def tableCtx (s : State) (slot ref : Nat) : Option TableCtx :=
  match plan? s slot with
  | none => none
  | some p => match refOf p ref with
    | some r => if r.kind = 1 then some ⟨p, slot, ref, r, tableDesc p r⟩ else none
    | none => none

/-- The tables of a plan, in reference order. -/
def planTables (s : State) (slot : Nat) : List TableCtx :=
  match plan? s slot with
  | none => []
  | some p => (p.image.refs.filter fun r => r.kind == 1).map fun r => ⟨p, slot, r.absId, r, tableDesc p r⟩

/-- The bytes of a row that hold its elements. -/
def TableCtx.rowBytes (c : TableCtx) : Nat := c.d.dim * typeBytes c.d.fmt

/-- Rows of one 2 MiB block. -/
def TableCtx.perBlock (c : TableCtx) : Nat := pageBytes / max 1 c.d.stride

/-- The block of a row (R221). -/
def TableCtx.block (c : TableCtx) (row : Nat) : Nat := row * c.d.stride / pageBytes

/-- Where a row is at home: on this device with its die and DVA, or on another device. -/
inductive Home where
  | here (die dva : Nat)
  | remote (device die : Nat)
  | unset
  deriving DecidableEq, Repr

/-- The home at a pool address (R221); the die of another device is taken as this device's layout gives it. -/
def homeAt (s : State) (pool : Nat) : Home :=
  let off := pool % 2 ^ 47
  if pool / 2 ^ 47 = s.deviceNumber.toNat then .here (off / dieHbm s.variant) (hbmDva off)
  else .remote (pool / 2 ^ 47) (min 3 (off / dieHbm s.variant))

/-- The bound region of a reference, on one die where it has a copy there (R225). -/
def regionOf (p : Plan) (r : Ref) (die : Option Nat) : Option Bound :=
  match die.bind fun d => p.bound.find? fun b => b.kind == 5 && b.absId == r.hbm && b.index == d with
  | some b => some b
  | none => boundOf p 5 r.hbm

/-- A byte of a reference's object: its die and DVA. -/
def objectAt (s : State) (p : Plan) (r : Ref) (die : Option Nat) (off : Nat) : Home :=
  if r.addr ≠ 0 then homeAt s (r.addr % 2 ^ 57 + off)
  else match regionOf p r die with
    | some b => .here b.index (b.base + (if refAllocated r then refOffset p.image.refs r else 0) + off)
    | none => .unset

/-- The home of a row (R221 to R225); `die` names the copy of a REPLICATE table. -/
def rowHome (s : State) (c : TableCtx) (die : Option Nat) (row : Nat) : Home :=
  let t := tableOf s c.slot c.ref
  let src := (refOf c.plan t.data).getD c.r
  match c.r.place with
  | 0 =>
    match t.owners[c.block row]? with
    | some o => if o.isSet then homeAt s (o.home + row * c.d.stride % pageBytes) else .unset
    | none => .unset
  | 2 =>
    let q := ceilDiv c.d.rows c.d.shards
    let dev := c.d.shardBase + row / max 1 q
    if dev = s.deviceNumber.toNat then objectAt s c.plan src none (row % max 1 q * c.d.stride) else .remote dev 0
  | 1 => objectAt s c.plan src die (row * c.d.stride)
  | _ => objectAt s c.plan src none (row * c.d.stride)

/-- The instance of a Reservoir part on a die. -/
def partOn (p : Plan) (part die : Nat) : Option Bound := p.bound.find? fun b => b.kind == 4 && b.absId == part && b.index == die

/-- The tables of a plan that share a table's Reservoir part, in reference order. -/
def partTables (c : TableCtx) : List TableCtx :=
  ((c.plan.image.refs.filter fun r => r.kind == 1).map fun r => ({ c with ref := r.absId, r := r, d := tableDesc c.plan r } : TableCtx)).filter
    fun x => x.d.resPart == c.d.resPart && x.r.place != 1

/-- The bytes of a table's three landing buffers (R234). -/
def TableCtx.landBytes (c : TableCtx) : Nat := 3 * c.d.landRows * c.d.stride

/-- Where a table's landing buffers begin in its part: after those of the tables before it (R234, assumption log 159). -/
def landBase (c : TableCtx) : Nat := ((partTables c).takeWhile fun x => x.ref != c.ref).foldl (fun n x => n + x.landBytes) 0

/-- Where the hot slots of a part begin: after the landing buffers (R250). -/
def hotBase (c : TableCtx) : Nat := (partTables c).foldl (fun n x => n + x.landBytes) 0

/-- The DVA of a row in a hot slot of a die: the 2 MiB units of the TD_RES_PART instance after the landing buffers (R250). -/
def hotDva (c : TableCtx) (die slot row : Nat) : Option Nat :=
  (partOn c.plan c.d.resPart die).map fun b => b.base + hotBase c + slot * pageBytes + row * c.d.stride % pageBytes

/-- Where a row is read and updated now: its hot slot in MOVED and RETURNING, else its home (R236, Table 7-8). -/
def rowPlace (s : State) (c : TableCtx) (die : Option Nat) (row : Nat) : Home :=
  match (tableOf s c.slot c.ref).owners[c.block row]? with
  | some o =>
    if o.isSet && (o.state == 2 || o.state == 3) then
      match hotDva c o.die o.slot row with
      | some a => .here o.die a
      | none => rowHome s c die row
    else rowHome s c die row
  | none => rowHome s c die row

/-- A die reaches the place of a row: no link that is down lies between them (Table 15-4). -/
def rowReach (s : State) (c : TableCtx) (die row : Nat) : Bool :=
  match rowPlace s c (some die) row with
  | .here d _ => reaches s die d
  | _ => true

/-- The elements of a row's bytes. -/
def rowElems (d : TableDesc) (bs : Bytes) : List Nat :=
  (List.range d.dim).map fun i => leAt bs (i * typeBytes d.fmt) (typeBytes d.fmt)

/-- A row's bytes at its place; none where the row is not on this device. -/
def readRow (s : State) (c : TableCtx) (die : Option Nat) (row : Nat) : Option Bytes :=
  match rowPlace s c die row with
  | .here _ a => some (readDva s a c.rowBytes)
  | _ => none

/-- A row element as FP32 (R229). -/
def elemFp32 (d : TableDesc) (x : Nat) : Nat :=
  if d.fmt = 3 then fp32.rne (FV.ofInt (intOf 3 x) (-(d.frac : Int)) false) else toFp32 d.fmt x

/-- One element with its addend (R244): RNE in the table's format, or modulo 2³². -/
def addElem (d : TableDesc) (x a : Nat) : Nat :=
  if d.fmt = 3 then (x + a) % 2 ^ 32
  else if d.fmt = 0xb then fp32.add x a
  else (convert 0xb d.fmt 0 false 0 (fp32.add (toFp32 d.fmt x) a)).bits

/-- A row's bytes with addends applied. -/
def addRow (d : TableDesc) (bs : Bytes) (adds : List Nat) : Bytes :=
  ((rowElems d bs).zip adds).flatMap fun e => le (typeBytes d.fmt) (addElem d e.1 e.2)

/-! ### Migration and the dirty log (R251) -/

/-- EMB_MIGRATE_ABORT, on the Reservoir of the block's hot slot (Table 7-11). -/
def migrateAbort (c : TableCtx) (block : Nat) (s : State) : State :=
  let die := (((tableOf s c.slot c.ref).owners[block]?).map (·.die)).getD 0
  emitErr { cls := 2, code := 5, unit := uid die 12 0 0 0, pos := c.d.id, count := 1, plan := c.slot, named := false, test := false } s

/-- An owner entry changed. -/
def setOwner (c : TableCtx) (block : Nat) (f : Owner → Owner) (s : State) : State :=
  let t := tableOf s c.slot c.ref
  setTable c.slot c.ref { t with owners := modifyAt f block t.owners } s

/-- A COPYING block back at HOME, its slot freed, and its cutover withdrawn (R251, R254). -/
def abortCopy (c : TableCtx) (block : Nat) (s : State) : State :=
  let s := setOwner c block (fun o => { o with state := 0, die := 0, slot := 0 }) s
  let t := tableOf s c.slot c.ref
  let s := setTable c.slot c.ref { t with migrations := t.migrations.filter fun m => m.block != block } s
  { s with actions := s.actions.filter fun a => match a.act with
      | .cutover sl r row _ => !(sl == c.slot && r == c.ref && c.block row == block)
      | _ => true }

/-- A RETURNING block's copy begun again from row 0 (R251). -/
def restartReturn (c : TableCtx) (block : Nat) (s : State) : State :=
  let t := tableOf s c.slot c.ref
  let s := setTable c.slot c.ref { t with migrations := t.migrations.map fun m =>
    if m.block = block then { m with cursor := 0, log := [], requested := false } else m } s
  { s with actions := s.actions.filter fun a => match a.act with
      | .cutover sl r row _ => !(sl == c.slot && r == c.ref && c.block row == block)
      | _ => true }

/-- The rows of a block, as the first row and how many. -/
def blockRows (c : TableCtx) (block : Nat) : Nat × Nat := (block * c.perBlock, min c.perBlock (c.d.rows - block * c.perBlock))

/-- A block's DVAs: its home and its hot slot. -/
def blockPlaces (s : State) (c : TableCtx) (block : Nat) : Option (Nat × Nat) :=
  match (tableOf s c.slot c.ref).owners[block]? with
  | none => none
  | some o => match homeAt s o.home, hotDva c o.die o.slot 0 with
    | .here _ a, some h => some (a, h)
    | _, _ => none

/-- Rows of a migrating block copied from its source to its destination, `n` of them from row `k` of the block (R251). -/
def copyRows (c : TableCtx) (block k n : Nat) (s : State) : State :=
  match blockPlaces s c block, (tableOf s c.slot c.ref).owners[block]? with
  | some (home, hot), some o =>
    let a := k * c.d.stride
    if o.state = 1 then writeDva s (hot + a) (readDva s (home + a) (n * c.d.stride))
    else writeDva s (home + a) (readDva s (hot + a) (n * c.d.stride))
  | _, _ => s

/-- No link that is down lies between a home and a die (Table 15-4). -/
def homeReach (s : State) (home die : Nat) : Bool :=
  match homeAt s home with
  | .here hd _ => reaches s hd die
  | _ => true

/-- A migrating block's home and hot slot reach each other. -/
def blockReach (s : State) (c : TableCtx) (block : Nat) : Bool :=
  ((tableOf s c.slot c.ref).owners[block]?).all fun o => homeReach s o.home o.die

/-- The copy of a migrating block goes on by some rows, how many the spec leaves open (R251, assumption log 68). -/
def advanceCopy (c : TableCtx) (block : Nat) (s : State) : State :=
  match (tableOf s c.slot c.ref).migrations.find? fun m => m.block == block && !m.requested && blockReach s c block with
  | none => s
  | some m =>
    let n := freeNumber 32 s % ((blockRows c block).2 + 1 - m.cursor)
    let s := copyRows c block m.cursor n (drawn s)
    let t := tableOf s c.slot c.ref
    setTable c.slot c.ref { t with migrations := t.migrations.map fun x => if x.block = block then { x with cursor := m.cursor + n } else x } s

/-- An update to a row of a migrating block entered in the dirty log; the 241st distinct row ends the migration (R251). -/
def logUpdate (c : TableCtx) (row : Nat) (s : State) : State :=
  let t := tableOf s c.slot c.ref
  let block := c.block row
  match t.migrations.find? fun m => m.block == block with
  | none => s
  | some m =>
    if row % c.perBlock < m.cursor && !m.log.contains row then
      if m.log.length < 240 then
        setTable c.slot c.ref { t with migrations := t.migrations.map fun x => if x.block = block then { x with log := x.log ++ [row] } else x } s
      else if ((t.owners[block]?).map (·.state)).getD 0 = 1 then
        let s := setTable c.slot c.ref { t with aborted := t.aborted + 1 } s
        abortCopy c block (migrateAbort c block s)
      else restartReturn c block (migrateAbort c block s)
    else s

/-- The add carried into each Dip copy of the row (R410). -/
def addDip (c : TableCtx) (row : Nat) (adds : List Nat) (s : State) : State :=
  let gen := (tableOf s c.slot c.ref).gen
  { s with dips := s.dips.map fun e => (e.1, { e.2 with rows := e.2.rows.map fun r =>
      if r.slot = c.slot ∧ r.ref = c.ref ∧ r.row = row ∧ r.gen = gen then { r with bytes := addRow c.d r.bytes adds } else r }) }

/-- Updates of a generation that a replacement has superseded (R257). -/
def staleGen (s : State) (c : TableCtx) (gen : Nat) : Bool :=
  let d := ((tableOf s c.slot c.ref).gen + 65536 - gen) % 65536
  d != 0 && decide (d < 32768)

/-- Updates of a replaced generation dropped, with the report of reason 0x4C (R257). -/
def dropStale (c : TableCtx) (n : Nat) (s : State) : State :=
  if n = 0 then s
  else emitBlot { reason := 0x4c, plan := c.slot, source := c.ref, field := 0xffff, offset := 0, record := 0, count := n } s

/-- One update applied at memory, whole, with the dirty log and the Dip copies (R244, R245, R251, R410). -/
def applyUpdate (c : TableCtx) (row : Nat) (adds : List Nat) (s : State) : State :=
  match rowPlace s c none row with
  | .here _ a => 
    let s := advanceCopy c (c.block row) s
    logUpdate c row (addDip c row adds (writeDva s a (addRow c.d (readDva s a c.rowBytes) adds)))
  | _ => s

/-! ### The update combiner (R246 to R248) -/

/-- The combiner of a die. -/
def combiner (s : State) (die : Nat) : Combiner := (look die s.combiners).getD ⟨[], none, 0, []⟩

/-- A combiner replaced. -/
def setCombiner (die : Nat) (x : Combiner) (s : State) : State := { s with combiners := put die x s.combiners }

/-- The entries a row of a table takes (R246). -/
def TableCtx.combEntries (c : TableCtx) : Nat := ceilDiv c.d.dim 256

/-- The entries of a combiner a plan has in use. -/
def combUsed (s : State) (x : Combiner) (slot : Nat) : Nat :=
  (x.entries.filter fun e => e.slot == slot).foldl (fun a e => a + ((tableCtx s slot e.ref).map (·.combEntries)).getD 1) 0

/-- Two sums of a row merged in the combiner: FP32 with RNE, or modulo 2³² (R246). -/
def mergeSums (d : TableDesc) (a b : List Nat) : List Nat :=
  (a.zip b).map fun e => if d.fmt = 3 then (e.1 + e.2) % 2 ^ 32 else fp32.add e.1 e.2

/-- An update of a generation taken in by a die's combiner: merged, entered, or spilled to the row's place where the plan's entries are all in
use. -/
def combine (die : Nat) (c : TableCtx) (gen row : Nat) (adds : List Nat) (s : State) : State :=
  let x := combiner s die
  let isIt : CombEntry → Bool := fun e => e.slot == c.slot && e.ref == c.ref && e.row == row && e.gen == gen
  let cap := heldSize' c.plan die
  if x.entries.any isIt then
    setCombiner die { x with entries := x.entries.map fun e => if isIt e then { e with sums := mergeSums c.d e.sums adds } else e } s
  else if combUsed s x c.slot + c.combEntries ≤ cap then
    setCombiner die { x with entries := x.entries ++ [⟨c.slot, c.ref, row, gen, adds⟩] } s
  else applyUpdate c row adds (setCombiner die { x with spilled := x.spilled + 1 } s)
where
  /-- The combiner entries a plan has reserved on a die. -/
  heldSize' (p : Plan) (die : Nat) : Nat :=
    (p.bound.filter fun b => b.kind == 0xd && b.index == die).foldl (fun a b => a + b.size) 0

end Sys2Proof.Machine
end

