-- ==== Sys2Proof/Machine/Gather.lean ====
section
/-! DEFINITION. The Gather engine: LOOKUP, POOL, POOL_DIRECT and UPDATE (R226 to R233, R239, R241 to R243). -/

namespace Sys2Proof.Machine

/-- A Gather block (Table 7-5). -/
structure GatherBlock where
  (mode outFmt grad wt idx table handleBytes handleOff : Nat)
  (sat : Bool)
  deriving DecidableEq, Repr

/-- The block at an offset of the blob. -/
def gatherAt (b : Bytes) (o : Nat) : GatherBlock :=
  { mode := byteAt b o % 4, sat := bitAt (byteAt b (o + 1)) 0, outFmt := byteAt b (o + 1) / 16, grad := leAt b (o + 16) 2,
    wt := leAt b (o + 18) 2, idx := leAt b (o + 20) 2, table := leAt b (o + 22) 2, handleBytes := leAt b (o + 24) 4,
    handleOff := leAt b (o + 28) 4 }

/-! ### Bags (R227, R228) -/

/-- What an index element comes to: skipped, out of range, or a row. -/
inductive Entry where
  | skip
  | out
  | row (n : Nat)
  deriving DecidableEq, Repr

/-- What a bag comes to: absent, blotted (under reason 0x49 for a field, where it has one), or its entries with FP32 weights. -/
inductive Bag where
  | absent
  | blotted (field : Option Nat)
  | entries (es : List (Entry × Nat))
  deriving DecidableEq, Repr

/-- The row an index names (R228). -/
def resolveIndex (d : TableDesc) (fmt bits : Nat) : Entry :=
  let i := intOf fmt bits
  if 0 ≤ i then (if i < (d.rows : Int) then .row i.toNat else .out)
  else if d.wrap && -(d.rows : Int) ≤ i then .row ((d.rows : Int) + i).toNat
  else .out

/-- One element of a bag with its weight. -/
def bagEntry (d : TableDesc) (fmt wfmt : Nat) (e : Elem × Option Elem) : Entry × Nat :=
  if !e.1.present then (.skip, 0)
  else match e.2 with
    | none => (resolveIndex d fmt e.1.bits, 0x3f800000)
    | some w => if w.present then (resolveIndex d fmt e.1.bits, toFp32 wfmt w.bits) else (.skip, 0)

/-- The bag of one row of the index column (R227). -/
def bagOf (c : StageCtx) (g : GatherBlock) (d : TableDesc) (i : Nat) : Bag :=
  let col := c.col g.idx
  let v := (col.rows[i]?).getD Val.null
  if v.blot || v.elems.any (·.blot) then .blotted none
  else if !v.present then .absent
  else
    let wcol := if g.wt = 0xffff then none else some (c.col g.wt)
    let w := wcol.map fun x => (x.rows[i]?).getD Val.null
    match w with
    | some x =>
      if x.blot || x.elems.any (·.blot) then .blotted none
      else if !x.present || x.elems.length != v.elems.length then .blotted (some g.wt)
      else if g.mode == 2 && 2 ≤ v.elems.length then .blotted (some g.idx)
      else .entries ((v.elems.zip (x.elems.map some)).map (bagEntry d col.fmt ((wcol.map (·.fmt)).getD 0xb)))
    | none =>
      if g.mode == 2 && 2 ≤ v.elems.length then .blotted (some g.idx)
      else .entries (v.elems.map fun e => bagEntry d col.fmt 0xb (e, none))

/-- The bags of a group. -/
def bagsOf (c : StageCtx) (g : GatherBlock) (d : TableDesc) : List Bag := (List.range c.grp.rows).map (bagOf c g d)

/-- Runs of consecutive bags blotted under 0x49 for one field: (first, field, bags). -/
def shapeRuns : Nat → List Bag → List (Nat × Nat × Nat)
  | _, [] => []
  | i, b :: bs =>
    let rest := shapeRuns (i + 1) bs
    match b with
    | .blotted (some f) =>
      match rest with
      | (j, f', n) :: r => if j = i + 1 ∧ f' = f then (i, f, n + 1) :: r else (i, f, 1) :: rest
      | [] => [(i, f, 1)]
    | _ => rest

/-- The reports of reason 0x49 (R227). -/
def shapeReports (c : StageCtx) (g : GatherBlock) (bags : List Bag) (s : State) : State :=
  (shapeRuns 0 bags).foldl (fun s r => blotOf c 0x49 g.table r.2.1 0 (c.grp.rec_ r.1) r.2.2 s) s

/-- The out-of-range elements of a bag and the place of the first. -/
def outOf (es : List (Entry × Nat)) : Option (Nat × Nat) :=
  match es.findIdx? fun e => e.1 == .out with
  | some k => some (k, (es.filter fun e => e.1 == .out).length)
  | none => none

/-- The reports of out-of-range indices, one per bag (R228, R242), counted for TABLE_COUNTERS. -/
def rangeReports (c : StageCtx) (g : GatherBlock) (reason : Nat) (bags : List Bag) (s : State) : State :=
  ((List.range bags.length).zip bags).foldl (fun s e =>
    match e.2 with
    | .entries es => match outOf es with
      | some (k, n) =>
        let s := blotOf c reason g.table g.idx k (c.grp.rec_ e.1) n s
        let t := tableOf s c.slot g.table
        setTable c.slot g.table { t with outOfRange := t.outOfRange + n } s
      | none => s
    | _ => s) s

/-- The indices of a group against STG_MAX (R226, Table 7-11). -/
def indexLimit (c : StageCtx) (n : Nat) (s : State) : State :=
  if c.lig.ruled && decide (c.st.max < n) then exceedance c 3 (n - c.st.max) s else s

/-- The index elements of a group. -/
def indexCount (c : StageCtx) (g : GatherBlock) : Nat := (c.col g.idx).rows.foldl (fun a v => a + v.elems.length) 0

/-! ### LOOKUP (R230, R231, R233) -/

/-- The landing slots a die has assigned in this tick. -/
def landedThis (t : Table) (die tick : Nat) : List LandSlot := t.landing.filter fun l => l.die == die && l.tick == tick

/-- A row appended to its request list (R233): one list per owner die here and per owner die of each other device. -/
def appendReq (t : Table) (device die ownDie tick row slot : Nat) (own : Nat) : Table :=
  let isIt : ReqList → Bool := fun q => q.device == device && q.die == die && q.ownDie == ownDie && q.tick == tick && !q.sealed && !q.received
  if t.reqs.any isIt then { t with reqs := t.reqs.map fun q => if isIt q then { q with rows := q.rows ++ [(row, slot)] } else q }
  else { t with reqs := t.reqs ++ [{ device := device, die := die, ownDie := ownDie, via := die, tick := tick, gen := t.gen,
                                     rows := [(row, slot)], parts := 1, got := [0], sealed := false, received := false,
                                     toSend := device != own }] }

/-- A slot for a row in this tick's landing buffer of the core's die: the one it has, or the next while there is room (R233, R234). A
margin LOOKUP on an absent page skips the row (R241). -/
def assignSlot (s : State) (tc : TableCtx) (die tick : Nat) (ruled : Bool) (row : Nat) (t : Table) : Option (Nat × Table) :=
  let mine := landedThis t die tick
  match mine.find? fun l => l.row == row with
  | some l => some (l.slot, t)
  | none =>
    if tc.d.landRows ≤ mine.length then none
    else
      let slot := mine.length
      let mk : Nat → Nat → Bool → LandSlot := fun dev own late => ⟨die, tick % 3, slot, row, dev, own, tick, false, late, []⟩
      let me := s.deviceNumber.toNat
      match rowHome s tc none row with
      | .here od dva =>
        if !ruled && (translate s dva).isNone then
          let n := dva / pageBytes
          some (slot, { t with landing := t.landing ++ [mk me od true],
                               skipPages := if t.skipPages.contains n || dva / 2 ^ 53 != 0 || (look n s.pages).isNone then t.skipPages else t.skipPages ++ [n] })
        else some (slot, appendReq { t with landing := t.landing ++ [mk me od false] } me die od tick row slot me)
      | .remote dev od => some (slot, appendReq { t with landing := t.landing ++ [mk dev od false] } dev die od tick row slot me)
      | .unset => some (slot, { t with landing := t.landing ++ [mk me 0 true] })

/-- A bag's handles: the 8-byte entries of R231, or none where a slot is short; the slots assigned before that stay assigned (R233). -/
def bagHandles (s : State) (tc : TableCtx) (die tick : Nat) (ruled : Bool) : List (Entry × Nat) → Table → Option (List Nat) × Table
  | [], t => (some [], t)
  | (e, w) :: es, t =>
    let one := match e with
      | .skip => some (0xffffffff, t)
      | .out => some (0xfffffffe, t)
      | .row r => assignSlot s tc die tick ruled r t
    match one with
    | none => (none, t)
    | some (slot, t) =>
      let rest := bagHandles s tc die tick ruled es t
      (rest.1.map fun l => (slot + 2 ^ 32 * (if e = .out then 0 else w)) :: l, rest.2)

/-- The handle area under way: the entries so far and the bag records, and the first bag that did not fit. -/
structure Handles where
  (t : Table)
  (bags entries : List Nat)
  (full : Option Nat)

/-- A bag record (R231). -/
def bagRecord (first count : Nat) (absent blotted : Bool) : Nat :=
  pack [(32, first), (16, count), (1, b2n absent), (1, b2n blotted), (1, 1), (13, 0)]

/-- The 8-byte bag records and entries that a handle area holds (R231). -/
def areaWords (bytes : Nat) : Nat := (bytes - 16) / 8

/-- One bag entered in the handle area (R231, R233); every bag from the first that does not fit is blotted. -/
def putBag (s : State) (tc : TableCtx) (g : GatherBlock) (die tick bagTotal : Nat) (ruled : Bool) (h : Handles) (b : Nat × Bag) : Handles :=
  let n := h.entries.length
  let blotted : Handles := { h with bags := h.bags ++ [bagRecord n 0 false true] }
  if h.full.isSome then blotted
  else if areaWords g.handleBytes < h.bags.length + 1 + n then { blotted with full := some b.1 }
  else match b.2 with
  | .absent => { h with bags := h.bags ++ [bagRecord n 0 true false] }
  | .blotted _ => blotted
  | .entries es =>
    if !es.isEmpty && decide (areaWords g.handleBytes < bagTotal + n + es.length) then { blotted with full := some b.1 }
    else match bagHandles s tc die tick ruled es h.t with
    | (some l, t) => { t := t, bags := h.bags ++ [bagRecord n es.length false false], entries := h.entries ++ l, full := none }
    | (none, t) => { blotted with t := t, full := some b.1 }

/-- The handle area of a tick (R231). -/
def areaDva (c : StageCtx) (g : GatherBlock) (tick : Nat) : Nat := padDva c.core (g.handleOff + tick % 3 * g.handleBytes)

/-- The bag records and entries of a handle area of so many bytes; a bag whose record found no room reads as blotted. -/
def readArea (s : State) (dva bytes : Nat) : List Nat × List Nat :=
  let h := readDva s dva 16
  let cap := areaWords bytes
  let ne := min (leAt h 4 4) cap
  let nb := min (leAt h 0 4) (cap - ne)
  let bs := readDva s (dva + 16) (8 * (nb + ne))
  ((List.range nb).map (fun i => leAt bs (8 * i) 8) ++ List.replicate (min (leAt h 0 4) 65536 - nb) (bagRecord ne 0 false true),
   (List.range ne).map fun i => leAt bs (8 * (nb + i)) 8)

/-- The bytes of a handle area: its header, as many bag records as fit beside the entries, the entries (R231). -/
def areaBytes (bytes : Nat) (bags entries : List Nat) : Bytes :=
  le 4 bags.length ++ le 4 entries.length ++ zeros 8 ++
    (bags.take (areaWords bytes - entries.length) ++ entries).flatMap (le 8)

/-- The distinct rows a list of bags needs that hold no slot yet. -/
def rowsWanting (t : Table) (die tick : Nat) (bags : List Bag) : Nat :=
  let rows := dedup (bags.flatMap fun b => match b with
    | .entries es => es.filterMap fun e => match e.1 with | .row r => some r | _ => none
    | _ => [])
  (rows.filter fun r => (landedThis t die tick).all fun l => l.row != r).length

/-- The report of bags without a place (reason 0x4D), and the exceedance of a ruled plan where slots ran out (R231, R233). -/
def landFull (c : StageCtx) (g : GatherBlock) (d : TableDesc) (tick : Nat) (bags : List Bag) (h : Handles) (s : State) : State :=
  match h.full with
  | none => s
  | some k =>
    let s := blotOf c 0x4d g.table g.idx 0 (c.grp.rec_ k) (bags.length - k) s
    let wanted := (landedThis h.t (c.core / 96) tick).length + rowsWanting h.t (c.core / 96) tick (bags.drop k)
    if c.plan.image.ruled && decide (d.landRows < wanted) then exceedance c 3 (wanted - d.landRows) s else s

/-- LOOKUP's work on a group. -/
def lookupStage (c : StageCtx) (s : State) : Option StageOut :=
  let g := gatherAt c.plan.image.blob c.st.param
  match tableCtx s c.slot g.table with
  | none => some ⟨c.grp, [], s⟩
  | some tc =>
    let tick := nowTick s
    let die := c.core / 96
    let bags := bagsOf c g tc.d
    let s := indexLimit c (indexCount c g) (rangeReports c g 0x48 bags (shapeReports c g bags s))
    let t := tableOf s c.slot g.table
    let t := { t with landing := t.landing.filter fun l => !(l.die == die && l.buf == tick % 3 && l.tick != tick) }
    let old : List Nat × List Nat := if c.grp.num = 0 then ([], []) else readArea s (areaDva c g tick) g.handleBytes
    let h := ((List.range bags.length).zip bags).foldl
      (putBag s tc g die tick (old.1.length + bags.length) c.plan.image.ruled) ⟨t, old.1, old.2, none⟩
    let s := setTable c.slot g.table h.t s
    let s := writeFree s (areaDva c g tick) ((areaBytes g.handleBytes h.bags h.entries).take g.handleBytes)
    some ⟨c.grp, [], landFull c g tc.d tick bags h s⟩

/-- LOOKUP (R226, R233). -/
def execLookup (r : StageRef) (s : State) : Host.Outcome State Fault Refusal := .next (stage r 4 0 1 lookupStage s)

/-! ### Pooling (R229, R232) -/

/-- A pooled vector of rows with their weights (R229). -/
def poolVector (d : TableDesc) (g : GatherBlock) (rows : List (Nat × List Nat)) : List Nat :=
  (List.range d.dim).map fun e =>
    if g.mode = 2 then
      match rows with
      | (_, r) :: _ => (convert 0xb g.outFmt 0 g.sat 0 (elemFp32 d ((r[e]?).getD 0))).bits
      | [] => 0
    else
      let acc := rows.foldl (fun a x => (fp32.fma x.1 (elemFp32 d ((x.2[e]?).getD 0)) a.1, fp32.add a.2 x.1)) (0, 0)
      let v := if g.mode = 1 then (if fp32.isZero acc.2 then 0 else fp32.div acc.1 acc.2) else acc.1
      (convert 0xb g.outFmt 0 g.sat 0 v).bits

/-- A bag's row of the output column: absent, blotted with zeros, or its vector. -/
def pooledVal (dim : Nat) : Option (Option (List Nat)) → Val
  | none => ⟨false, false, [], []⟩
  | some none => ⟨false, true, [], (List.replicate dim 0).map Elem.of⟩
  | some (some v) => ⟨true, false, [], v.map Elem.of⟩

/-- The output column of R232, and the group that holds it. -/
def poolOut (c : StageCtx) (d : TableDesc) (g : GatherBlock) (vals : List (Option (Option (List Nat)))) (s : State) : StageOut :=
  let col : Column := ⟨1, g.outFmt, d.dim, vals.map (pooledVal d.dim)⟩
  let n := vals.length
  let grp := if c.grp.rows = n then { c.grp with cols := [col], tick := none, fields := [] } else
    { c.grp with tick := none, fields := [], rows := n, recs := List.range n, valid := List.replicate n true, cols := [col] }
  ⟨grp, columnBytes col, s⟩

/-- A bag's handles read back: its record and its entries as (slot, weight). -/
def areaBags (s : State) (dva bytes : Nat) : List (Nat × List (Nat × Nat)) :=
  let a := readArea s dva bytes
  a.1.map fun r => (r, ((a.2.drop (fld 31 0 r)).take (fld 47 32 r)).map fun e => (e % 2 ^ 32, e / 2 ^ 32))

/-- The landing slot an entry names; 0xFFFF_FFFE and 0xFFFF_FFFF name none. -/
def slotAt (t : Table) (die tick n : Nat) : Option LandSlot := (landedThis t die tick).find? fun l => l.slot == n

/-- An entry names a slot that has not landed; for a margin stage that still waits, one that nothing accounts for (R241). -/
def entryMissing (t : Table) (die tick : Nat) (e : Nat × Nat) : Bool :=
  e.1 < 0xfffffffe && match slotAt t die tick e.1 with | some l => !l.landed | none => true

/-- A margin POOL must wait: some slot has neither landed nor been accounted for (R241). -/
def poolWaits (t : Table) (die tick : Nat) (bags : List (Nat × List (Nat × Nat))) : Bool :=
  bags.any fun b => b.2.any fun e => e.1 < 0xfffffffe && match slotAt t die tick e.1 with
    | some l => !l.landed && !l.late
    | none => false

/-- The owner device of the first missing row of a bag. -/
def missingOwner (s : State) (t : Table) (die tick : Nat) (b : Nat × List (Nat × Nat)) : Option Nat :=
  (b.2.find? (entryMissing t die tick)).map fun e => ((slotAt t die tick e.1).map (·.device)).getD s.deviceNumber.toNat

/-- Bags blotted for rows not landed, gathered for the one report per table, owner and tick (R239). -/
def noteMissing (t : Table) (owner record : Nat) : Table :=
  if t.missing.any fun m => m.1 == owner then
    { t with missing := t.missing.map fun m => if m.1 = owner then (m.1, m.2.1 + 1, m.2.2) else m }
  else { t with missing := t.missing ++ [(owner, 1, record)] }

/-- The group that a margin plan's POOL is to work on marked with the tick of its first try, which a POOL that waits keeps (R241). -/
def noteTry (r : StageRef) (s : State) : State :=
  match stageCtx r s with
  | some c => if c.plan.image.ruled || c.grp.tick.isSome || !(c.st.engine == 4 && c.st.side == 0 && c.st.op == 2) then s else putGroup (c.core * 8 + c.nib) { c.grp with tick := some (nowTick s) } s
  | none => s

/-- POOL's work on a group (R229, R231, R239, R241); a release of several groups takes LIG_MAX_ROWS bags in each. -/
def poolStage (c : StageCtx) (s : State) : Option StageOut :=
  let g := gatherAt c.plan.image.blob c.st.param
  match tableCtx s c.slot g.table with
  | none => some ⟨c.grp, [], s⟩
  | some tc =>
    let tick := c.grp.tick.getD (nowTick s) - tc.d.lag
    let die := c.core / 96
    let all := areaBags s (areaDva c g tick) g.handleBytes
    let bags := if c.lig.groups = 1 then all else (all.drop (c.grp.num * c.lig.maxRows)).take c.lig.maxRows
    let t := tableOf s c.slot g.table
    if !c.plan.image.ruled && poolWaits t die tick bags then none
    else
      let one : Nat × List (Nat × Nat) → Option (Option (List Nat)) := fun b =>
        if bitAt b.1 48 then none
        else if bitAt b.1 49 || b.2.any (entryMissing t die tick) then some none
        else some (some (poolVector tc.d g (b.2.filterMap fun e =>
          if e.1 < 0xfffffffe then (slotAt t die tick e.1).map fun l => (e.2, rowElems tc.d l.bytes) else none)))
      let t := ((List.range bags.length).zip bags).foldl (fun t b =>
        match missingOwner s t die tick b.2 with
        | some o => if bitAt b.2.1 48 || bitAt b.2.1 49 then t else noteMissing t o (c.grp.rec_ b.1)
        | none => t) t
      let s := indexLimit c (bags.foldl (fun a b => a + b.2.length) 0) (setTable c.slot g.table t s)
      some (poolOut c tc.d g (bags.map one) s)

/-- POOL (R229, R241). -/
def execPool (r : StageRef) (s : State) : Host.Outcome State Fault Refusal := .next (stage r 4 0 2 poolStage (noteTry r s))

/-- POOL_DIRECT's work on a group (R227 to R229); a margin stage waits on an absent page, and
any stage on a row beyond a link that is down (Table 15-4). -/
def directStage (c : StageCtx) (s : State) : Option StageOut :=
  let g := gatherAt c.plan.image.blob c.st.param
  match tableCtx s c.slot g.table with
  | none => some ⟨c.grp, [], s⟩
  | some tc =>
    let die := some (c.core / 96)
    let bags := bagsOf c g tc.d
    let absent := bags.any fun b => match b with
      | .entries es => es.any fun e => match e.1 with
        | .row r => (match rowPlace s tc die r with | .here d a => (translate s a).isNone || !reaches s (c.core / 96) d | _ => false)
        | _ => false
      | _ => false
    if absent then none
    else
      let one : Bag → Option (Option (List Nat)) := fun b => match b with
        | .absent => none
        | .blotted _ => some none
        | .entries es => some (some (poolVector tc.d g (es.filterMap fun e => match e.1 with
          | .row r => (readRow s tc die r).map fun bs => (e.2, rowElems tc.d bs)
          | _ => none)))
      let s' := indexLimit c (indexCount c g) (rangeReports c g 0x48 bags (shapeReports c g bags s))
      some (poolOut c tc.d g (bags.map one) s')

/-- POOL_DIRECT (R226). -/
def execPoolDirect (r : StageRef) (s : State) : Host.Outcome State Fault Refusal := .next (stage r 4 0 3 directStage s)

/-! ### UPDATE (R242, R243) -/

/-- An update for another device entered in its list of this tick (R243). -/
def appendUpd (t : Table) (device die ownDie tick row : Nat) (adds : List Nat) : Table :=
  let isIt : UpdList → Bool := fun q => q.device == device && q.die == die && q.ownDie == ownDie && q.tick == tick && !q.sealed && !q.received
  if t.upds.any isIt then { t with upds := t.upds.map fun q => if isIt q then { q with upds := q.upds ++ [(row, adds)] } else q }
  else { t with upds := t.upds ++ [{ device := device, die := die, ownDie := ownDie, tick := tick, gen := t.gen, upds := [(row, adds)],
                                     parts := 1, got := [0], sealed := false, received := false }] }

/-- One update routed to its row's owner (R243). -/
def routeUpdate (tc : TableCtx) (die : Nat) (row : Nat) (adds : List Nat) (s : State) : State :=
  match rowHome s tc none row with
  | .here od _ => combine od tc (tableOf s tc.slot tc.ref).gen row adds s
  | .remote dev od =>
    setTable tc.slot tc.ref (appendUpd (tableOf s tc.slot tc.ref) dev die od (nowTick s) row adds) s
  | .unset => s

/-- The addends of one element (R242): w × g with one rounding, or g itself for an INT32 table. -/
def addends (d : TableDesc) (gfmt w : Nat) (grad : List Elem) : List Nat :=
  grad.map fun e => if d.fmt = 3 then e.bits else fp32.mul w (toFp32 gfmt e.bits)

/-- UPDATE's work on a group: a bag whose gradient row is absent or blotted adds nothing and reports nothing (R242). -/
def updateStage (c : StageCtx) (s : State) : Option StageOut :=
  let g := gatherAt c.plan.image.blob c.st.param
  match tableCtx s c.slot g.table with
  | none => some ⟨c.grp, [], s⟩
  | some tc =>
    let gcol := c.col g.grad
    let usable : Nat → Bool := fun i => let gv := (gcol.rows[i]?).getD Val.null; gv.present && !gv.blot
    let all := bagsOf c g tc.d
    let bags := ((List.range all.length).zip all).map fun b => if usable b.1 then b.2 else .absent
    let s := indexLimit c (indexCount c g) (rangeReports c g 0x4b bags (shapeReports c g bags s))
    let s := ((List.range bags.length).zip bags).foldl (fun s b =>
      let gv := (gcol.rows[b.1]?).getD Val.null
      match b.2 with
      | .entries es =>
        es.foldl (fun s e => match e.1 with
          | .row r => routeUpdate tc (c.core / 96) r (addends tc.d gcol.fmt e.2 gv.elems) s
          | _ => s) s
      | _ => s) s
    some ⟨c.grp, [], s⟩

/-- UPDATE (R242). -/
def execUpdate (r : StageRef) (s : State) : Host.Outcome State Fault Refusal := .next (stage r 4 0 4 updateStage s)

end Sys2Proof.Machine
end

