-- ==== Sys2Proof/Machine/Scan.lean ====
section
/-! DEFINITION. The Scan engine: predicates, FILTER and FILTER_COMPACT (R153 to R161). -/

namespace Sys2Proof.Machine

/-- A truth value as its TRUE and UNKNOWN bits (Table 5-2). -/
abbrev Truth := Bool × Bool

/-- TRUE, FALSE and UNKNOWN. -/
def tFalse : Truth := (false, false)
def tUnknown : Truth := (false, true)

/-- A Boolean as a truth value. -/
def tOf (b : Bool) : Truth := (b, false)

/-- NOT (R154). -/
def tNot (x : Truth) : Truth := (!x.1 && !x.2, x.2)
/-- AND (R154). -/
def tAnd (l : List Truth) : Truth := (l.all (·.1), l.any (·.2) && l.all fun x => x.1 || x.2)
/-- OR (R154). -/
def tOr (l : List Truth) : Truth := let t := l.any (·.1); (t, l.any (·.2) && !t)

/-- A predicate node (Table 5-5). -/
structure PredNode where
  (kind cmp fmt children col col2 const : Nat)
  deriving DecidableEq, Repr

/-- A predicate block (Table 5-4). -/
structure PredBlock where
  (keepUnknown : Bool)
  (nodes leaves cols colList : Nat)
  (tree : List PredNode)
  deriving DecidableEq, Repr

/-- The node at an offset of the blob. -/
def predNodeAt (b : Bytes) (o : Nat) : PredNode :=
  { kind := byteAt b o, cmp := byteAt b (o + 1) % 8, fmt := byteAt b (o + 2) % 16, children := byteAt b (o + 3), col := leAt b (o + 4) 2,
    col2 := leAt b (o + 6) 2, const := leAt b (o + 8) 8 }

/-- The block at an offset of the blob. -/
def predAt (b : Bytes) (o : Nat) : PredBlock :=
  let n := byteAt b (o + 1)
  { keepUnknown := bitAt (byteAt b o) 0, nodes := n, leaves := byteAt b (o + 2), cols := leAt b (o + 10) 2, colList := leAt b (o + 12) 4,
    tree := (List.range n).map fun i => predNodeAt b (o + 16 + 16 * i) }

/-- Lexicographic order of byte strings as unsigned bytes: a < b; a proper prefix is less (R156). -/
def bytesLt : Bytes → Bytes → Bool
  | _, [] => false
  | [], _ :: _ => true
  | a :: as, b :: bs => if a = b then bytesLt as bs else decide (a < b)

/-- The bytes of a BYTES16 or variable binary value. -/
def valString (fmt : Nat) (v : Val) : Bytes := if fmt = 0xe then le 16 v.bits else v.bytes

/-- The outcome of a comparison code on "less" and "equal" (Table 5-5). -/
def cmpCode (code : Nat) (lt eq : Bool) : Bool :=
  match code with
  | 0 => eq | 1 => !eq | 2 => lt | 3 => lt || eq | 4 => !lt && !eq | _ => !lt

/-- Two present numbers compared: a NaN is unordered, so only NE holds (Table 5-3, R156). -/
def compareNumbers (code fmt a b : Nat) : Bool :=
  let x := valueOf fmt a
  let y := valueOf fmt b
  if x == .nan || y == .nan then code == 1 else cmpCode code (x.lt y) (x.eq y)

/-- COMPARE of two present values. -/
def compareVals (code fmt : Nat) (a b : Val) : Bool :=
  if fmt = 0xe ∨ fmt = 0xf then
    cmpCode code (bytesLt (valString fmt a) (valString fmt b)) (valString fmt a == valString fmt b)
  else compareNumbers code fmt a.bits b.bits

/-- The constant of a COMPARE leaf as a value. -/
def constVal (blob : Bytes) (n : PredNode) : Val :=
  if n.fmt = 0xe ∨ n.fmt = 0xf then
    let bs := slice blob (n.const % 2 ^ 32) (fld 47 32 n.const)
    if n.fmt = 0xe then Val.one (ofLe bs) else Val.str bs
  else Val.one n.const

/-- A constant compared with a value: a BYTES16 or string constant may be shorter than the value. -/
def compareConst (blob : Bytes) (n : PredNode) (v : Val) : Bool :=
  if n.fmt = 0xe ∨ n.fmt = 0xf then
    let k := slice blob (n.const % 2 ^ 32) (fld 47 32 n.const)
    cmpCode n.cmp (bytesLt (valString n.fmt v) k) (valString n.fmt v == k)
  else compareVals n.cmp n.fmt v (constVal blob n)

/-- A leaf's truth values for the rows of a group (Table 5-3, R157, R158). -/
def leafTruth (c : StageCtx) (s : State) (n : PredNode) : List Truth :=
  let rows := (List.range c.grp.rows).map fun i => ((c.col n.col).rows[i]?).getD Val.null
  match n.kind with
  | 1 =>
    if n.col2 = 0xffff then
      rows.map fun v => if v.present then tOf (compareConst c.plan.image.blob n v) else tUnknown
    else
      let other := (List.range c.grp.rows).map fun i => ((c.col n.col2).rows[i]?).getD Val.null
      (rows.zip other).map fun p => if p.1.present && p.2.present then tOf (compareVals n.cmp n.fmt p.1 p.2) else tUnknown
  | 2 =>
    let k := slice c.plan.image.blob (n.const % 2 ^ 32) (fld 47 32 n.const)
    rows.map fun v => if v.present then tOf ((valString 0xf v).take k.length == k) else tUnknown
  | 3 => rows.map fun v => tOf (!v.present)
  | 4 => rows.map fun v => tOf v.blot
  | _ =>
    let len := alignUp (ceilDiv c.grp.rows 8) 8
    let bs := readDva s (c.dva (n.const % 2 ^ 32)) (2 * len)
    (List.range c.grp.rows).map fun i =>
      let t := bitmapAt bs i
      (t, bitmapAt (bs.drop len) i && !t)

/-- The stack after one node of the postorder (R159). -/
def predStep (c : StageCtx) (s : State) (stack : List (List Truth)) (n : PredNode) : List (List Truth) :=
  let pop := (stack.take n.children).reverse
  let rest := stack.drop n.children
  let rowOf : Nat → List Truth := fun i => pop.map fun l => (l[i]?).getD tFalse
  let all : (List Truth → Truth) → List Truth := fun f => (List.range c.grp.rows).map fun i => f (rowOf i)
  match n.kind with
  | 0x10 => all tAnd :: rest
  | 0x11 => all tOr :: rest
  | 0x12 => all (fun l => tNot (l.head?.getD tFalse)) :: rest
  | _ => leafTruth c s n :: stack

/-- The root's truth values (R159). -/
def predEval (c : StageCtx) (s : State) (p : PredBlock) : List Truth := (p.tree.foldl (predStep c s) []).head?.getD []

/-- The rows FILTER_COMPACT keeps (R161). -/
def keptRows (keepUnknown : Bool) (l : List Truth) : List Nat :=
  (List.range l.length).filter fun i => match l[i]? with | some t => t.1 || (keepUnknown && t.2) | none => false

/-- The output of FILTER_COMPACT (R161). -/
def compactBytes (kept : List Nat) (cols : List Column) : Bytes :=
  padTo 8 (le 4 kept.length) ++ padTo 8 (kept.flatMap (le 4)) ++ cols.flatMap columnBytes

/-- FILTER (R160). -/
def execFilter (r : StageRef) (s : State) : Host.Outcome State Fault Refusal :=
  .next (stage r 0 0 1 (pureStage fun c s => (c.grp, bitmapPair (predEval c s (predAt c.plan.image.blob c.st.param)))) s)

/-- FILTER_COMPACT (R161): the kept rows become the group. -/
def execFilterCompact (r : StageRef) (s : State) : Host.Outcome State Fault Refusal :=
  .next (stage r 0 0 2 (pureStage fun c s =>
    let p := predAt c.plan.image.blob c.st.param
    let kept := keptRows p.keepUnknown (predEval c s p)
    let cols := (List.range p.cols).map fun i => pickRows (c.col (leAt c.plan.image.blob (p.colList + 2 * i) 2)) kept
    ({ c.grp with rows := kept.length, cols := cols,
                   fields := (List.range p.cols).map fun i => c.grp.fieldOf (leAt c.plan.image.blob (p.colList + 2 * i) 2),
                   recs := kept.map c.grp.rec_,
                   valid := kept.map fun i => (c.grp.valid[i]?).getD true },
     compactBytes kept cols)) s)

end Sys2Proof.Machine
end

