-- ==== Sys2Proof/Machine/HashEngine.lean ====
section
/-! DEFINITION. The Hash engine: hashes, buckets, joins and group-bys (R162 to R183). -/

namespace Sys2Proof.Machine

/-! ### Keys -/

/-- A floating-point value canonicalised (R163). -/
def canonBits (fmt bits : Nat) : Nat :=
  match fmtOf fmt with
  | some f => if f.isNan bits then f.qnan else if f.isZero bits then 0 else bits
  | none => bits

/-- The key bytes of one column's value (R162); `many` where the key has several columns. -/
def keyPart (many canon : Bool) (c : Column) (v : Val) : Bytes :=
  if c.kind = 1 then rowBytes c.fmt c.lanes { v with elems := v.elems.map fun e => if canon then { e with bits := canonBits c.fmt e.bits } else e }
  else (if many then le 4 v.bytes.length else []) ++ v.bytes

/-- The values of the key columns in a row. -/
def keyVals (cols : List Column) (i : Nat) : List (Column × Val) := cols.map fun c => (c, (c.rows[i]?).getD Val.null)

/-- The key bytes of a row (R162). -/
def keyBytes (canon : Bool) (kv : List (Column × Val)) : Bytes := kv.flatMap fun e => keyPart (1 < kv.length) canon e.1 e.2

/-- A key has an absent column. -/
def keyAbsent (kv : List (Column × Val)) : Bool := kv.any fun e => !e.2.present
/-- A key has a blotted column. -/
def keyBlot (kv : List (Column × Val)) : Bool := kv.any fun e => e.2.blot

/-! ### HASH -/

/-- A hash block (Table 5-9). -/
structure HashBlock where
  (func reduce out ncols table n seed : Nat)
  (canon : Bool)
  (cols : List Nat)
  deriving DecidableEq, Repr

/-- The hash block at an offset of the blob. -/
def hashAt (b : Bytes) (o : Nat) : HashBlock :=
  let k := byteAt b (o + 4)
  { func := byteAt b o, reduce := byteAt b (o + 2), out := k % 4, ncols := k / 16, canon := bitAt k 3,
    cols := (List.range (min 4 (k / 16))).map fun i => leAt b (o + 8 + 2 * i) 2, table := leAt b (o + 16) 2,
    n := leAt b (o + 20) 4, seed := leAt b (o + 24) 8 }

/-- The width of a hash in bits (Table 5-6). -/
def hashBits (func out : Nat) : Nat := if func = 1 then 32 else if func = 3 ∧ out = 2 then 128 else 64

/-- A hash of key bytes; for identity and mxs64 the bytes are one integer, zero-extended (Table 5-6). -/
def hashOf (func out seed : Nat) (bs : Bytes) : Nat :=
  match func with
  | 1 => crc32c bs
  | 2 => xxh64 seed bs
  | 3 =>
    let h := murmur3 (seed % 2 ^ 32) bs
    if out = 0 then h.1 else if out = 1 then h.2 else h.1 + h.2 * 2 ^ 64
  | 4 => mxs64 (ofLe bs) seed
  | _ => ofLe bs

/-- The running hash of a cross (R168). -/
def crossHash (seed : Nat) (vs : List Nat) : Nat := vs.foldl (fun h v => mxs64 v h) seed

/-- The boundaries of a boundary table object (R167): their format and bits. -/
def boundaries (bs : Bytes) : Nat × List Nat :=
  let fmt := byteAt bs 2 % 16
  (fmt, (List.range (leAt bs 0 2)).map fun i => leAt bs (8 + i * typeBytes fmt) (typeBytes fmt))

/-- The bucket of a value in a boundary table (Table 5-8). -/
def boundaryBucket (t : Nat × List Nat) (bits : Nat) : Nat :=
  let v := valueOf t.1 bits
  if v = .nan then t.2.length + 1 else (t.2.filter fun b => !(v.lt (valueOf t.1 b))).length

/-- The number of buckets: 0 means 2^32 (R166). -/
def bucketCount (n : Nat) : Nat := if n = 0 then 2 ^ 32 else n

/-- The value of a HASH row (R164 to R168). -/
def hashRow (h : HashBlock) (table : Nat × List Nat) (kv : List (Column × Val)) : Nat :=
  let n := bucketCount h.n
  match h.reduce with
  | 3 => boundaryBucket table ((kv.head?.map (·.2.bits)).getD 0)
  | 4 => crossHash h.seed (kv.map fun e => ofLe (keyPart false false e.1 e.2)) * n / 2 ^ 64
  | red =>
    let x := hashOf h.func h.out h.seed (keyBytes h.canon kv)
    if red = 1 then x * n / 2 ^ hashBits h.func h.out else if red = 2 then x % n else x

/-- The value type of a HASH output column. -/
def hashFmt (h : HashBlock) : Nat :=
  if h.reduce ≠ 0 then 7 else if h.func = 1 then 7 else if h.func = 3 ∧ h.out = 2 then 0xe else 8

/-- The output column of HASH. -/
def hashColumn (h : HashBlock) (table : Nat × List Nat) (cols : List Column) (rows : Nat) : Column :=
  ⟨1, hashFmt h, 1, (List.range rows).map fun i =>
    let kv := keyVals cols i
    if keyAbsent kv then ⟨false, keyBlot kv, [], []⟩ else { Val.one (hashRow h table kv) with blot := keyBlot kv }⟩

/-- The boundary table a hash block names. -/
def hashTable (s : State) (p : Plan) (h : HashBlock) : Nat × List Nat :=
  if h.reduce ≠ 3 then (0, [])
  else match refOf p h.table with
    | some r => boundaries (refBytes s p h.table 0 r.size)
    | none => (0, [])

/-- HASH (R165, R166). -/
def execHash (r : StageRef) (s : State) : Host.Outcome State Fault Refusal :=
  .next (stage r 1 0 1 (pureStage fun c s =>
    let h := hashAt c.plan.image.blob c.st.param
    let col := hashColumn h (hashTable s c.plan h) (h.cols.map c.col) c.grp.rows
    ({ c.grp with cols := [col], fields := [] }, columnBytes col)) s)

/-! ### Joins -/

/-- A join block (Table 5-10). -/
structure JoinBlock where
  (hash kind nkeys items table list ownerCount ownerBase hbm spill padBytes padOff maxRows : Nat)
  deriving DecidableEq, Repr

/-- The join block at an offset of the blob. -/
def joinAt (b : Bytes) (o : Nat) : JoinBlock :=
  { hash := byteAt b o, kind := byteAt b (o + 3) % 16, nkeys := byteAt b (o + 3) / 16, items := byteAt b (o + 4),
    table := leAt b (o + 6) 2, list := leAt b (o + 8) 4, ownerCount := leAt b (o + 12) 2, ownerBase := leAt b (o + 14) 2,
    hbm := leAt b (o + 16) 2, spill := leAt b (o + 18) 2, padBytes := leAt b (o + 20) 4, padOff := leAt b (o + 24) 4,
    maxRows := leAt b (o + 28) 4 }

/-- The key columns of a join block. -/
def joinKeys (b : Bytes) (j : JoinBlock) : List Nat := (List.range (min 4 j.nkeys)).map fun i => leAt b (j.list + 2 * i) 2

/-- The item words of a join block: column and aggregate code. -/
def joinItems (b : Bytes) (j : JoinBlock) : List (Nat × Nat) :=
  (List.range (min 16 j.items)).map fun i =>
    let o := j.list + alignUp (2 * j.nkeys) 4 + 4 * i
    (leAt b o 2, byteAt b (o + 2))

/-- The partition of a key (R169): its hash under JG_HASH, seed 0; of MurmurHash3, h1. -/
def partitionOf (j : JoinBlock) (key : Bytes) : Nat := hashOf j.hash 0 0 key % 2 ^ 32 * j.ownerCount / 2 ^ 32

/-- The bytes of a table entry (R170). -/
def entryBytes (r : JoinRow) : Nat := 16 + alignUp r.key.length 8 + alignUp r.payload.length 8

/-- The table of a join or group operation. -/
def joinOf (s : State) (slot table : Nat) : Join :=
  (look (slot, table) s.joins).getD { rows := [], done := [], full := false, partials := [], excluded := [], keyTypes := [], aggTypes := [] }

/-- A table replaced. -/
def setJoin (slot table : Nat) (j : Join) (s : State) : State := { s with joins := put (slot, table) j s.joins }

/-- The ligatures of a plan with a stage of a Hash operation on a table. -/
def tableUsers (p : Plan) (op table : Nat) : List Nat :=
  (List.range p.image.ligatures.length).filter fun i => (ligOf p i).any fun l =>
    l.stages.any fun st => st.engine == 1 && st.op == op && (joinAt p.image.blob st.param).table == table

/-- A table is sealed: every builder has completed its release (R172). -/
def tableSealed (p : Plan) (op table : Nat) (j : Join) : Bool := (tableUsers p op table).all j.done.contains

/-- The releases of a table's builders that its present rows do not take in: those listed, and those that run and have not inserted (R172). -/
def newBuilders (s : State) (c : StageCtx) (table : Nat) (j : Join) : List Task :=
  (tableUsers c.plan 2 table).flatMap fun i =>
    (openTasks s (taskId c.slot i)).filter fun t => match findRunning s t.id, look i j.taken with
      | some (_, r), some x => !(r.task == t && r.started == x.1)
      | _, _ => true

/-- A builder begins a new release of its table: it has inserted into the present rows in another release (R172). -/
def newRelease (c : StageCtx) (j : Join) : Bool := (look c.ligIx j.taken).any fun x => x.1 != c.run.started

/-- A probe of a release before a builder's has not completed (R172): one released earlier than the builder (assumption log 207). -/
def probing (s : State) (c : StageCtx) (table : Nat) : Bool :=
  (tableUsers c.plan 3 table).any fun i => (openTasks s (taskId c.slot i)).any fun t => decide (t.release < c.run.task.release)

/-- A probe's table stands: every builder has completed its release, and no builder released at or before the probe has yet to insert (R172,
assumption log 207). -/
def probeReady (s : State) (c : StageCtx) (table : Nat) (j : Join) : Bool :=
  tableSealed c.plan 2 table j && (newBuilders s c table j).all fun t => decide (c.run.task.release < t.release)

/-- The groups of this release a table has taken in from this ligature, the present one among them. -/
def groupsTaken (c : StageCtx) (j : Join) : Nat :=
  (match look c.ligIx j.taken with
    | some x => if x.1 = c.run.started then x.2 else 0
    | none => 0) + 1

/-- A group counted: with its last one the ligature's release on the table is complete (R172). -/
def countGroup (c : StageCtx) (j : Join) : Join :=
  let n := groupsTaken c j
  { j with taken := put c.ligIx (c.run.started, n) j.taken,
           done := if n = c.lig.groups then (if j.done.contains c.ligIx then j.done else c.ligIx :: j.done) else j.done }

/-- The size of a resource of the plan, 0 where none is named. -/
def sizeOf' (p : Plan) (kind absId : Nat) : Nat := ((boundOf p kind absId).map (·.size)).getD 0

/-- The bytes of a table's chain heads (R170). -/
def headBytes (j : JoinBlock) : Nat := 4 * 2 ^ (if j.maxRows ≤ 1 then 0 else Nat.log2 (j.maxRows - 1) + 1)

/-- The bytes a table of some rows takes past one pad area (R173). -/
def pastPad (j : JoinBlock) (rows : List JoinRow) : Nat := headBytes j + rows.foldl (fun t r => t + entryBytes r) 0 - j.padBytes

/-- The bytes each owner's table takes past its pad area (R173). -/
def spilledBytes (j : JoinBlock) (rows : List JoinRow) : Nat :=
  (List.range j.ownerCount).foldl (fun a i => a + pastPad j (rows.filter fun r => partitionOf j r.key == i)) 0

/-- The most rows any owner holds. -/
def ownerMost (j : JoinBlock) (keys : List Bytes) : Nat :=
  (List.range j.ownerCount).foldl (fun a i => max a (keys.filter fun k => partitionOf j k == i).length) 0

/-- Runs of consecutive row numbers, as (first, count). -/
def runsOf : List Nat → List (Nat × Nat)
  | [] => []
  | i :: is => match runsOf is with
    | (a, n) :: r => if i + 1 = a then (i, n + 1) :: r else (i, 1) :: (a, n) :: r
    | [] => [(i, 1)]

/-- KEY_WIDTH reports for rows whose key runs past 64 bytes, by runs of consecutive records (R148, R170). -/
def keyWidth (c : StageCtx) (field : Nat) (rows : List Nat) (s : State) : State :=
  (runsOf (rows.map c.grp.rec_)).foldl (fun s r => blotOf c 0x40 c.grp.source (c.grp.fieldOf field) 0 r.1 r.2 s) s

/-- A table outgrown: REL_EXCEEDANCE of a ruled stage that holds more than JG_MAX_ROWS, REL_SPILL_FULL of any whose bytes past its pad areas
run past the spill part and the HBM region (R173, R183). -/
def tableLimits (c : StageCtx) (jb : JoinBlock) (most spill : Nat) (j : Join) (s : State) : Join × State :=
  let s := if c.lig.ruled && decide (jb.maxRows < most) then exceedance c 1 (most - jb.maxRows) s else s
  let cap := sizeOf' c.plan 4 jb.spill + sizeOf' c.plan 5 jb.hbm
  if spill ≤ cap || j.full then (j, s)
  else ({ j with full := true },
    emitErr { cls := 2, code := 2, unit := coreUid c.core 1, pos := c.task, count := spill - cap, plan := c.slot, named := false,
              test := false } s)

/-- The payload of a build row: at most 64 bytes; what an entry holds of a wider one is not stated (R170, assumption log 169). -/
def payloadOf (items : List Column) (i : Nat) : Bytes :=
  let bs := items.flatMap fun x => rowBytes x.fmt x.lanes ((x.rows[i]?).getD Val.null)
  if bs.length ≤ 64 then bs else le 64 (Config.value 512 (ofLe bs))

/-- The payload bytes of an entry over some columns. -/
def payloadWidth (items : List Column) : Nat := min 64 (items.foldl (fun a x => a + x.lanes * typeBytes x.fmt) 0)

/-- The payload columns of a join block. -/
def payloadColumns (c : StageCtx) (jb : JoinBlock) : List Column := (joinItems c.plan.image.blob jb).map fun e => c.col e.1

/-- The rows a builder inserts (R170, R171), and those whose key is too wide. -/
def buildRows (c : StageCtx) (jb : JoinBlock) : List JoinRow × List Nat :=
  let keys := (joinKeys c.plan.image.blob jb).map c.col
  let items := payloadColumns c jb
  let live := (List.range c.grp.rows).filter fun i => !keyAbsent (keyVals keys i)
  let wide := live.filter fun i => decide (64 < (keyBytes true (keyVals keys i)).length)
  ((live.filter fun i => !wide.contains i).map fun i => ⟨c.grp.rec_ i, keyBytes true (keyVals keys i), payloadOf items i⟩, wide)

/-- Rows kept in ascending build row index (R171). -/
def insertRows (rows new : List JoinRow) : List JoinRow := new.foldl (fun l r => insertBy (fun a b => a.row < b.row) r l) rows

/-- JOIN_BUILD on one group: a new release empties the table first, once every probe of the release before has completed (R172). -/
def joinBuild (c : StageCtx) (s : State) : Option StageOut :=
  let jb := joinAt c.plan.image.blob c.st.param
  let j := joinOf s c.slot jb.table
  let again := newRelease c j
  if again && probing s c jb.table then none
  else
    let j := if again then { j with rows := [], done := [], taken := [], full := false } else j
    let b := buildRows c jb
    let j := countGroup c { j with rows := insertRows j.rows b.1, payload := max j.payload (payloadWidth (payloadColumns c jb)) }
    let s := keyWidth c ((joinKeys c.plan.image.blob jb).head?.getD 0xffff) b.2 s
    let r := tableLimits c jb (ownerMost jb (j.rows.map (·.key))) (spilledBytes jb j.rows) j s
    some ⟨c.grp, [], setJoin c.slot jb.table r.1 r.2⟩

/-- JOIN_BUILD (R171 to R173). -/
def execJoinBuild (r : StageRef) (s : State) : Host.Outcome State Fault Refusal := .next (stage r 1 0 2 joinBuild s)

/-- What a probe row finds: absent key, blotted key, or its matches. -/
inductive Probe where
  | null
  | blot
  | rows (m : List JoinRow)
  deriving DecidableEq, Repr

/-- The look-up of one probe row (R174); a key past 64 bytes counts as blotted. -/
def probeRow (keys : List Column) (j : Join) (i : Nat) : Probe :=
  let kv := keyVals keys i
  if keyBlot kv then .blot
  else if keyAbsent kv then .null
  else
    let k := keyBytes true kv
    if 64 < k.length then .blot else .rows (j.rows.filter fun r => r.key == k)

/-- A match record (R175). -/
def matchRecord (payload : Nat) (row : Option JoinRow) (probe : Nat) (blot : Bool) : Bytes :=
  padTo 8 (le 8 ((row.map (·.row)).getD (2 ^ 64 - 1)) ++ le 4 probe ++ le 4 (b2n row.isSome + 2 * b2n blot) ++
    fit payload ((row.map (·.payload)).getD []))

/-- The records of one probe row (Table 5-11). -/
def probeRecords (kind payload i : Nat) : Probe → List Bytes
  | .rows [] => if kind = 1 then [matchRecord payload none i false] else []
  | .rows m => m.map fun r => matchRecord payload (some r) i false
  | .null => if kind = 1 then [matchRecord payload none i false] else []
  | .blot => if kind = 1 then [matchRecord payload none i true] else []

/-- The probe rows written whole within STG_OUT_LEN (R176): their records, and how many rows completed. -/
def takeRecords (room : Nat) : List (List Bytes) → List Bytes × Nat
  | [] => ([], 0)
  | r :: rs =>
    let n := r.foldl (fun a b => a + b.length) 0
    if n ≤ room then let t := takeRecords (room - n) rs; (r ++ t.1, t.2 + 1) else ([], 0)

/-- The truth value of a semi or anti row (Table 5-11). -/
def semiTruth (anti : Bool) : Probe → Truth
  | .rows m => tOf (m.isEmpty == anti)
  | .null => tOf anti
  | .blot => tUnknown

/-- JOIN_PROBE on one group (R174 to R176); of a table that is FULL the stage answers nothing (R173, assumption log 170). -/
def joinProbe (c : StageCtx) (s : State) : Option StageOut :=
  let jb := joinAt c.plan.image.blob c.st.param
  let j := joinOf s c.slot jb.table
  if !probeReady s c jb.table j then none
  else if j.full then some ⟨c.grp, [], s⟩
  else
    let keys := (joinKeys c.plan.image.blob jb).map c.col
    let probes := (List.range c.grp.rows).map (probeRow keys j)
    let wide := (List.range c.grp.rows).filter fun i =>
      let kv := keyVals keys i
      !keyAbsent kv && decide (64 < (keyBytes true kv).length)
    let s := keyWidth c ((joinKeys c.plan.image.blob jb).head?.getD 0xffff) wide s
    let chain := probes.foldl (fun a p => match p with | .rows m => max a m.length | _ => a) 0
    let s := if c.lig.ruled && decide (c.st.max < chain) then exceedance c 1 (chain - c.st.max) s else s
    if jb.kind = 2 ∨ jb.kind = 3 then some ⟨c.grp, bitmapPair (probes.map (semiTruth (jb.kind == 3))), s⟩
    else
      let recs := (probes.zip (List.range c.grp.rows)).map fun e => probeRecords jb.kind j.payload e.2 e.1
      let t := takeRecords (c.st.outLen - 16) recs
      let s := if t.2 < c.grp.rows then blotOf c 0x41 c.grp.source 0xffff 0 (c.grp.rec_ t.2) (c.grp.rows - t.2) s else s
      some ⟨c.grp, le 4 t.1.length ++ le 4 t.2 ++ zeros 8 ++ t.1.flatMap id, s⟩

/-- JOIN_PROBE. -/
def execJoinProbe (r : StageRef) (s : State) : Host.Outcome State Fault Refusal := .next (stage r 1 0 3 joinProbe s)

/-! ### Distinct and group-by -/

/-- A value is inside the result type of an integer SUM (Table 5-12). -/
def sumInRange (fmt : Nat) (i : Int) : Bool :=
  if isSignedType fmt then decide (-(2 ^ 63 : Int) ≤ i) && decide (i < 2 ^ 63) else decide (0 ≤ i) && decide (i < 2 ^ 64)

/-- A better extreme: the first kept on a tie (R180). -/
def extreme (mx : Bool) (fmt : Nat) (old : Option Nat) (x : Nat) : Option Nat :=
  match old with
  | none => some x
  | some o =>
    let a := valueOf fmt o
    let b := valueOf fmt x
    if (if mx then a.lt b else b.lt a) then some x else some o

/-- One input taken into an aggregate at its source (Table 5-12). -/
def aggAdd (code fmt : Nat) (v : Val) (a : Agg) : Agg :=
  if code = 0 then { a with count := a.count + 1 }
  else if !v.present then a
  else match code with
  | 1 => { a with count := a.count + 1 }
  | 2 =>
    if isFloatType fmt then { a with count := a.count + 1, fsum := fp32.add a.fsum (toFp32 fmt v.bits) }
    else let t := a.sum + intOf fmt v.bits
      { a with count := a.count + 1, sum := t, blot := a.blot || !sumInRange fmt t }
  | 5 => { a with count := a.count + 1, val := if a.val.isSome then a.val else some v.bits }
  | k =>
    if (fmtOf fmt).any fun f => f.isNan v.bits then { a with nan := true }
    else { a with count := a.count + 1, val := extreme (k == 4) fmt a.val v.bits }

/-- An entry's aggregate combined into the group's (R178, R180). -/
def aggMerge (code fmt : Nat) (a b : Agg) : Agg :=
  let sum := a.sum + b.sum
  { count := a.count + b.count, sum := sum, fsum := if b.count = 0 then a.fsum else if a.count = 0 then b.fsum else fp32.add a.fsum b.fsum,
    val := match b.val with
      | none => a.val
      | some x => if code = 5 then (if a.val.isSome then a.val else some x) else extreme (code == 4) fmt a.val x,
    nan := a.nan || b.nan, blot := a.blot || b.blot || (code == 2 && isIntType fmt && !sumInRange fmt sum) }

/-- The canonical key of a group-by row: a presence byte per column, then its bytes, a null as zero bytes (R177). -/
def groupKey (kv : List (Column × Val)) : Bytes :=
  let z : Column × Val → Column × Val := fun e => if e.2.present then e else (e.1, { e.2 with bytes := [], elems := [] })
  (kv.map fun e => if e.2.present then (1 : Byte) else 0) ++ keyBytes true (kv.map z)

/-- The bytes a group key is hashed over: those after its presence bytes. -/
def groupHashKey (j : JoinBlock) (k : Bytes) : Bytes := k.drop j.nkeys

/-- One row taken into a partial list (R177). -/
def groupRow (aggs : List (Nat × Nat)) (l : List AggGroup) (r : PartRow) : List AggGroup :=
  let upd : List Agg → List Agg := fun as => ((as.zip aggs).zip r.vals).map fun e => aggAdd e.1.2.1 e.1.2.2 e.2 e.1.1
  if l.any fun g => g.key == r.key then l.map fun g => if g.key == r.key then { g with aggs := upd g.aggs } else g
  else l ++ [⟨r.key, r.orig, upd (aggs.map fun _ => default)⟩]

/-- A partial list over a source's rows, group by group and row by row (R177). -/
def partialList (aggs : List (Nat × Nat)) (input : List (Nat × List PartRow)) : List AggGroup :=
  ((sortBy (fun a b => a.1 < b.1) input).flatMap (·.2)).foldl (groupRow aggs) []

/-- The rows of a group as a source takes them in. -/
def partRows (keys : List Column) (aggs : List (Nat × Column)) (rows : List Nat) : List PartRow :=
  rows.map fun i => let kv := keyVals keys i; ⟨groupKey kv, kv.map (·.2), aggs.map fun e => (e.2.rows[i]?).getD Val.null⟩

/-- A source of a group operation: its core and its ligature, in ascending core order. -/
def sourceKey (c : StageCtx) : Nat := c.core * 65536 + c.ligIx

/-- The aggregates of a join block with their columns. -/
def aggColumns (c : StageCtx) (jb : JoinBlock) : List (Nat × Column) :=
  (joinItems c.plan.image.blob jb).map fun e => (e.2, c.col e.1)

/-- SUM_OVERFLOW reports for sums newly out of range (Table 5-14). -/
def sumReports (c : StageCtx) (jb : JoinBlock) (old new : List AggGroup) (s : State) : State :=
  let items := joinItems c.plan.image.blob jb
  new.foldl (fun s g =>
    let before := (List.range g.aggs.length).map fun i => old.any fun x => x.key == g.key && (x.aggs[i]?).any (·.blot)
    ((g.aggs.zip before).zip items).foldl (fun s e =>
      if e.1.1.blot && !e.1.2 then blotOf c 0x42 c.grp.source (c.grp.fieldOf e.2.1) 0 c.grp.first 1 s else s) s) s

/-- The table entries of some groups. -/
def groupTable (jb : JoinBlock) (l : List AggGroup) : List JoinRow := l.map fun g => ⟨0, groupHashKey jb g.key, []⟩

/-- The bytes that the partial lists of a table's sources together hold past their pad areas (R173). -/
def partialSpill (jb : JoinBlock) (j : Join) : Nat := j.partials.foldl (fun a e => a + pastPad jb (groupTable jb e.2)) 0

/-- GROUP_PARTIAL on one group of a source: the first group of a new release empties the lists of the release before (R177). -/
def groupPartial (c : StageCtx) (s : State) : Option StageOut :=
  let jb := joinAt c.plan.image.blob c.st.param
  let j := joinOf s c.slot jb.table
  let j := if newRelease c j then { j with partials := [], excluded := [], inputs := [], taken := [], done := [], full := false }
    else j
  let k := sourceKey c
  let first := groupsTaken c j = 1
  let keys := (joinKeys c.plan.image.blob jb).map c.col
  let aggs := aggColumns c jb
  let rows := List.range c.grp.rows
  let blots := rows.filter fun i => keyBlot (keyVals keys i)
  let wide := rows.filter fun i => !keyBlot (keyVals keys i) && decide (64 < (groupHashKey jb (groupKey (keyVals keys i))).length)
  let input := (c.grp.num, partRows keys aggs (rows.filter fun i => !blots.contains i && !wide.contains i)) ::
    (if first then [] else (look k j.inputs).getD [])
  let old := if first then [] else (look k j.partials).getD []
  let new := partialList (aggs.map fun e => (e.1, e.2.fmt)) input
  let j := countGroup c { j with
    inputs := put k input j.inputs, partials := put k new j.partials,
    excluded := put k ((if first then 0 else (look k j.excluded).getD 0) + blots.length) j.excluded,
    keyTypes := keys.map fun (x : Column) => (x.kind, x.fmt, x.lanes), aggTypes := aggs.map fun (e : Nat × Column) => e.2.fmt }
  let s := sumReports c jb old new (keyWidth c ((joinKeys c.plan.image.blob jb).head?.getD 0xffff) wide s)
  let r := tableLimits c jb new.length (partialSpill jb j) j s
  some ⟨c.grp, [], setJoin c.slot jb.table r.1 r.2⟩

/-- GROUP_PARTIAL (R177). -/
def execGroupPartial (r : StageRef) (s : State) : Host.Outcome State Fault Refusal := .next (stage r 1 0 4 groupPartial s)

/-- The owners of an operation in ascending global core number (R169). -/
def ownerCores (p : Plan) (jb : JoinBlock) : List Nat :=
  sortBy (fun a b => a < b) ((List.range jb.ownerCount).filterMap fun i => coreOf p (jb.ownerBase + i))

/-- The entries of an owner's partition merged in order (R178, R179). -/
def mergeGroups (jb : JoinBlock) (codes : List (Nat × Nat)) (part : Nat) (lists : List (Nat × List AggGroup)) : List AggGroup :=
  let es := (sortBy (fun a b => a.1 < b.1) lists).flatMap (·.2)
  (es.filter fun g => partitionOf jb (groupHashKey jb g.key) == part).foldl (fun l g =>
    if l.any fun x => x.key == g.key then
      l.map fun x => if x.key == g.key then { x with aggs := ((x.aggs.zip g.aggs).zip codes).map fun e => aggMerge e.2.1 e.2.2 e.1.1 e.1.2 } else x
    else l ++ [g]) []

/-- The result of an aggregate: present, blot, bytes (Table 5-12). -/
def aggResult (code fmt : Nat) (a : Agg) : Bool × Bool × Bytes :=
  match code with
  | 0 => (true, false, le 8 a.count)
  | 1 => (true, false, le 8 a.count)
  | 2 =>
    if isFloatType fmt then (a.count != 0, false, if a.count = 0 then zeros 4 else le 4 a.fsum)
    else if a.blot then (false, true, zeros 8)
    else (a.count != 0, false, if a.count = 0 then zeros 8 else le 8 (ofInt 64 a.sum))
  | 5 => (a.val.isSome, false, le (typeBytes fmt) (a.val.getD 0))
  | _ => match a.val with
    | some x => (true, false, le (typeBytes fmt) x)
    | none => if a.nan then (true, false, le (typeBytes fmt) (((fmtOf fmt).map (·.qnan)).getD 0)) else (false, false, zeros (typeBytes fmt))

/-- A group's output record: key bytes, presence bits and blot bits of keys and aggregates, the aggregates
(R180, assumption log 191). -/
def groupRecord (keys : List Column) (codes : List (Nat × Nat)) (g : AggGroup) : Bytes :=
  let key := (keys.zip g.orig).flatMap fun e => keyPart true false e.1 (if e.2.present then e.2 else { e.2 with bytes := [], elems := [] })
  let rs := (g.aggs.zip codes).map fun e => aggResult e.2.1 e.2.2 e.1
  padTo 8 (key ++ bitmap (g.orig.map (·.present) ++ rs.map (·.1)) ++ bitmap (g.orig.map (·.blot) ++ rs.map (·.2.1)) ++ rs.flatMap (·.2.2))

/-- GROUP_MERGE on an owner (R178): the concatenation's part of this core; of a table that is FULL it answers nothing (R173, assumption log
170). -/
def groupMerge (c : StageCtx) (s : State) : Option StageOut :=
  let jb := joinAt c.plan.image.blob c.st.param
  let j := joinOf s c.slot jb.table
  if !tableSealed c.plan 4 jb.table j then none
  else if j.full then some ⟨c.grp, [], s⟩
  else
    let codes := ((joinItems c.plan.image.blob jb).map (·.2)).zip j.aggTypes
    let part := ((ownerCores c.plan jb).takeWhile (· != c.core)).length
    let gs := mergeGroups jb codes part j.partials
    let ex := if part = 0 then j.excluded.foldl (fun a e => a + e.2) 0 else 0
    let keys := j.keyTypes.map fun x => (⟨x.1, x.2.1, x.2.2, []⟩ : Column)
    let s := sumReports c jb (j.partials.flatMap (·.2)) gs s
    let spill := (List.range jb.ownerCount).foldl (fun a i => a + pastPad jb (groupTable jb (mergeGroups jb codes i j.partials))) 0
    let r := tableLimits c jb gs.length spill j s
    let s := setJoin c.slot jb.table r.1 r.2
    if r.1.full then some ⟨c.grp, [], s⟩
    else some ⟨c.grp, le 4 gs.length ++ le 4 ex ++ zeros 8 ++ gs.flatMap (groupRecord keys codes), s⟩

/-- GROUP_MERGE. -/
def execGroupMerge (r : StageRef) (s : State) : Host.Outcome State Fault Refusal := .next (stage r 1 0 5 groupMerge s)

end Sys2Proof.Machine
end

