-- ==== Sys2Proof/Machine/Shape.lean ====
section
/-! DEFINITION. The Shape engine: SHAPE, STATS, SPECTRAL, and statistics with their sketches (R190 to R207, R353). -/

namespace Sys2Proof.Machine

/-! ### Statistics objects (Tables 6-8 and 6-9) -/

/-- The offset of a column record in a statistics object. -/
def recordOff (cols copy j : Nat) : Nat := 32 + 64 * cols * copy + 64 * j

/-- A statistics reference's gathering state. -/
def statObj (s : State) (slot ref : Nat) : StatObj := (look (slot, ref) s.stats).getD { partials := [], cores := [], published := none }

/-- The gathering state replaced. -/
def setStat (slot ref : Nat) (x : StatObj) (s : State) : State := { s with stats := put (slot, ref) x s.stats }

/-- STD_ACTIVE of an object. -/
def statActive (s : State) (p : Plan) (ref : Nat) : Nat := byteAt (refBytes s p ref 6 1) 0 % 2

/-- The cycle a running task was released in. -/
def releasedAt (r : Running) : Nat := if r.task.ruled then r.task.release else r.task.ready

/-- STD_MODE of an object: automatic refresh. -/
def statAuto (s : State) (p : Plan) (ref : Nat) : Bool := bitAt (byteAt (refBytes s p ref 2 1) 0) 0

/-- The copy that was active in a cycle. -/
def copyAt (s : State) (p : Plan) (slot ref at' : Nat) : Nat :=
  match ((statObj s slot ref).history.filter fun x => decide (at' < x.1)).getLast? with
  | some x => x.2
  | none => statActive s p ref

/-- The copy a release reads, the same for all its groups (R202). -/
def copyFor (s : State) (p : Plan) (slot ref : Nat) (r : Running) : Nat :=
  match look r.task.id (statObj s slot ref).pins with
  | some x => if x.1 = r.started then x.2 else copyAt s p slot ref (releasedAt r)
  | none => copyAt s p slot ref (releasedAt r)

/-- The copy a release has read noted for its later groups. -/
def pinCopy (p : Plan) (slot : Nat) (r : Running) (s : State) (ref : Nat) : State :=
  let o := statObj s slot ref
  setStat slot ref { o with pins := put r.task.id (r.started, copyFor s p slot ref r) o.pins } s

/-- A column record of a copy. -/
def statRecord (s : State) (p : Plan) (ref copy j : Nat) : Bytes :=
  refBytes s p ref (recordOff (leAt (refBytes s p ref 0 2) 0 2) copy j) 64

/-- FP64 of a count. -/
def fp64OfNat (n : Nat) : Nat := fp64.rne (FV.ofInt n 0 false)

/-- The derived fields of a column record (R196). -/
def deriveRecord (r : Bytes) : Bytes :=
  let eps := leAt r 0 4
  let mn := leAt r 16 4
  let mx := leAt r 20 4
  let count := leAt r 40 8
  let mean := leAt r 48 8
  let m2 := leAt r 56 8
  let var := fp64.add (fp64.div m2 (fp64OfNat count)) (fp32to64 eps)
  let one := fp64OfNat 1
  let scale := if count = 0 then 0x3f800000 else if fp64.isZero var then 0 else fp64to32 (fp64.div one (fp64.sqrt var))
  let fin : Nat → Bool := fun x => !(fp32.isNan x) && !(fp32.isInf x)
  let rcp := if !fin mn || !fin mx || !(fp32.dec mn).lt (fp32.dec mx) then 0
    else fp64to32 (fp64.div one (fp64.sub (fp32to64 mx) (fp32to64 mn)))
  r.take 4 ++ le 4 (if count = 0 then 0 else fp64to32 mean) ++ le 4 rcp ++ le 4 scale ++ r.drop 16

/-! ### The sketch (R203 to R207) -/

/-- The sketch of a statistics reference: its reference, its columns and its QS_EMIN. -/
def sketchOf (s : State) (p : Plan) (ref : Nat) : Option (Nat × Nat × Int) :=
  let q := leAt (refBytes s p ref 4 2) 0 2
  if q = 0xffff then none
  else
    let h := refBytes s p q 0 3
    some (q, leAt h 0 2, toInt 8 (byteAt h 2))

/-- The offset of a count array in a sketch object. -/
def countOff (cols copy j : Nat) : Nat := 16 + copy * cols * 24624 + j * 16416
/-- The offset of a fraction array in a sketch object. -/
def fracOff (cols copy j : Nat) : Nat := 16 + copy * cols * 24624 + cols * 16416 + j * 8208

/-- The position p of a finite magnitude inside the window (R204). -/
def sketchPos (emin : Int) (m : Nat) (e : Int) : Nat :=
  let l := Nat.log2 m
  let g := m * 32 / 2 ^ l - 32
  (((l : Int) + e - emin).toNat) * 32 + g

/-- The bin of an FP32 value (Table 6-10). -/
def sketchBin (emin : Int) (x : Nat) : Nat :=
  match fp32.dec x with
  | .nan => 2051
  | .inf neg => if neg then 0 else 2050
  | .fin neg m e =>
    if m = 0 ∨ (Nat.log2 m : Int) + e < emin then 1025
    else if emin + 32 ≤ (Nat.log2 m : Int) + e then (if neg then 0 else 2050)
    else let p := sketchPos emin m e; if neg then 1024 - p else 1026 + p

/-- The lower edge Lp and the width of position p: mantissa and exponent, with the exponent of the width. -/
def sketchEdge (emin : Int) (p : Nat) : FV × FV :=
  let e := emin + (p / 32 : Nat) - 5
  (.fin false (32 + p % 32) e, .fin false 1 e)

/-- The edges L and U of a bin that has both (Table 6-10). -/
def binEdges (emin : Int) (b : Nat) : FV × FV :=
  if b = 1025 then (.fin true 1 emin, .fin false 1 emin)
  else if 1026 ≤ b then let e := sketchEdge emin (b - 1026); (e.1, e.1.add e.2)
  else let e := sketchEdge emin (1024 - b); ((e.1.add e.2).negate, e.1.negate)

/-- QUANTILE of a value with the fractions of its column (R207). -/
def quantile (emin : Int) (frac : Nat → Nat) (x : Nat) : Nat :=
  if fp32.isNan x then fp32.qnan
  else
    let b := sketchBin emin x
    let t :=
      if fp32.isInf x then (if fp32.neg x then 0 else 0x3f800000)
      else if b = 0 ∨ b = 2050 then 0x3f000000
      else
        let e := binEdges emin b
        fp32.div (fp32.rne ((fp32.dec x).add e.1.negate)) (fp32.rne (e.2.add e.1.negate))
    let y := fp32.add (frac b) (fp32.mul t (fp32.sub (frac (b + 1)) (frac b)))
    let one := 0x3f800000
    if (fp32.dec y).lt (fp32.dec 0) then 0 else if (fp32.dec one).lt (fp32.dec y) then one else y

/-! ### SHAPE -/

/-- A shape entry (Table 6-6). -/
structure ShapeEntry where
  (kind fn rnd outFmt opi col lanes statCol ref a b : Nat)
  (sat : Bool)
  deriving DecidableEq, Repr

/-- A shape block (Table 6-5). -/
structure ShapeBlock where
  (packed : Bool)
  (stride padOff : Nat)
  (entries : List ShapeEntry)
  deriving DecidableEq, Repr

/-- The entry at an offset of the blob. -/
def shapeEntryAt (b : Bytes) (o : Nat) : ShapeEntry :=
  { kind := byteAt b o, sat := bitAt (byteAt b (o + 1)) 0, rnd := byteAt b (o + 1) / 16 % 4, outFmt := byteAt b (o + 2) / 16,
    fn := byteAt b (o + 4), opi := byteAt b (o + 5), col := leAt b (o + 16) 2, lanes := leAt b (o + 18) 2, statCol := leAt b (o + 20) 2,
    ref := leAt b (o + 22) 2, a := leAt b (o + 24) 4, b := leAt b (o + 28) 4 }

/-- The block at an offset of the blob. -/
def shapeAt (b : Bytes) (o : Nat) : ShapeBlock :=
  { packed := bitAt (byteAt b o) 0, stride := leAt b (o + 8) 4, padOff := leAt b (o + 28) 4,
    entries := (List.range (min 256 (leAt b (o + 6) 2))).map fun i => shapeEntryAt b (o + 32 + 32 * i) }

/-- LOG1P of a finite non-zero value: the exact result in fixed point, with the sign of x (Table 6-7). -/
def log1pExact (neg : Bool) (m : Nat) (e : Int) : Int :=
  let x := fxOf false m e
  let y := if x < 2 ^ 240 then x - fxMul x x / 2 + fxMul (fxMul x x) x / 3 else fxLn (x + fxOne).natAbs (-320)
  if neg then -y else y

/-- LOG1P: ±0 and ±∞ as they are, else within 2 ulp of the exact result (Table 6-7). -/
def log1p (x : Nat) : Nat :=
  match fp32.dec x with
  | .nan => fp32.qnan
  | .inf _ => x
  | .fin neg m e => if m = 0 then x else within 1 x 2 false (fun _ => true) (log1pExact neg m e)

/-- What a SHAPE function reads of the statistics: the column record, and the fractions of its sketch. -/
structure StatView where
  (rec_ : Bytes)
  (emin : Int)
  (fracs : Bytes)

/-- The FP32 functions of Table 6-7. -/
def shapeFn (v : StatView) (kind fn a b x : Nat) : Nat :=
  let q := if fp32.isNan x then fp32.qnan else x
  let X := fp32.dec x
  match kind, fn with
  | 2, 0 => fp32.add x a
  | 2, 1 => fp32.mul x a
  | 2, 2 => fp32.fma x a b
  | 2, 3 => if fp32.isNan x then q else x % fp32.signBit
  | 2, 4 => fp32.negate x
  | 2, 5 => if fp32.isNan x then q else if (fp32.dec a).lt X then a else x
  | 2, 6 => if fp32.isNan x then q else if X.lt (fp32.dec a) then a else x
  | 3, 0 => fp32.mul (fp32.sub x (leAt v.rec_ 4 4)) (leAt v.rec_ 12 4)
  | 3, 1 => if leAt v.rec_ 8 4 = 0 then 0 else fp32.mul (fp32.sub x (leAt v.rec_ 16 4)) (leAt v.rec_ 8 4)
  | 3, 2 => log1p x
  | 3, 3 => if X.lt (fp32.dec a) then a else if (fp32.dec b).lt X then b else q
  | 3, 4 => quantile v.emin (fun k => leAt v.fracs (4 * k) 4) x
  | _, _ => q

/-- One value of an entry (R193). -/
def shapeValue (v : StatView) (en : ShapeEntry) (srcFmt draw bits : Nat) : Conv :=
  if en.kind = 1 then convert srcFmt en.outFmt en.rnd en.sat draw bits
  else convert 0xb en.outFmt en.rnd en.sat draw (shapeFn v en.kind en.fn en.a en.b (toFp32 srcFmt bits))

/-- The statistics an entry reads for this release (R202); the fractions are those of its first read (R207). -/
def statView (c : StageCtx) (s : State) (en : ShapeEntry) : StatView :=
  if en.ref = 0xffff then ⟨[], 0, []⟩
  else
    let copy := copyFor s c.plan c.slot en.ref c.run
    match (if en.fn = 4 then sketchOf s c.plan en.ref else none) with
    | some (q, cols, emin) =>
      let read := refBytes s c.plan q (fracOff cols copy en.statCol) 8208
      ⟨statRecord s c.plan en.ref copy en.statCol, emin, (look (c.run.task.id, c.run.started, en.statCol) (statObj s c.slot en.ref).fracs).getD read⟩
    | none => ⟨statRecord s c.plan en.ref copy en.statCol, 0, []⟩

/-- The fractions that a QUANTILE entry reads kept in the table store for the release's later groups (R207). -/
def storeFracs (c : StageCtx) (s : State) (en : ShapeEntry) : State :=
  if en.kind = 3 ∧ en.fn = 4 then
    let o := statObj s c.slot en.ref
    let others := o.fracs.filter fun x => x.1.1 != c.run.task.id || x.1.2.1 == c.run.started
    setStat c.slot en.ref { o with fracs := put (c.run.task.id, c.run.started, en.statCol) (statView c s en).fracs others } s
  else s

/-- The output column of an entry, with its saturations and NaNs counted. -/
def shapeColumn (c : StageCtx) (s : State) (en : ShapeEntry) : Column × Nat × Nat :=
  let src := c.col en.col
  let v := statView c s en
  let key := c.stipple en.opi
  let row : Nat → Val → Val × Nat × Nat := fun i x =>
    if !x.present || x.blot then (⟨x.present, x.blot, [], []⟩, 0, 0)
    else
      let cs := ((List.range x.elems.length).zip x.elems).map fun e => shapeValue v en src.fmt (stippleDraw key (i * en.lanes + e.1)) e.2.bits
      (⟨true, false, [], cs.map fun k => Elem.of k.bits⟩, cs.foldl (fun a k => a + k.sats) 0, cs.foldl (fun a k => a + k.nans) 0)
  let rows := (List.range c.grp.rows).map fun i => row i ((src.rows[i]?).getD Val.null)
  (⟨1, en.outFmt, en.lanes, rows.map (·.1)⟩, rows.foldl (fun a r => a + r.2.1) 0, rows.foldl (fun a r => a + r.2.2) 0)

/-- One packed row: the entries' values, each aligned to its width (R194). -/
def packedRow (cols : List Column) (stride i : Nat) : Bytes :=
  fit stride (cols.foldl (fun a c => a ++ zeros (alignUp a.length (typeBytes c.fmt) - a.length) ++
    rowBytes c.fmt c.lanes ((c.rows[i]?).getD Val.null)) [])

/-- The header of a SHAPE output and the bytes up to the 64-byte boundary (R194). -/
def shapeHeader (rows sats nans : Nat) : Bytes := le 4 rows ++ le 4 sats ++ le 4 nans ++ zeros 52

/-- The output of SHAPE after its header (R194). -/
def shapeBytes (b : ShapeBlock) (g : Group) (cols : List Column) : Bytes :=
  if b.packed then
    padTo 8 ((List.range g.rows).flatMap (packedRow cols b.stride)) ++ rowBitmap g.valid ++
      cols.flatMap fun c => rowBitmap (c.rows.map (·.present)) ++ rowBitmap (c.rows.map (·.blot))
  else cols.flatMap columnBytes

/-- SHAPE (R193, R194). -/
def execShape (r : StageRef) (s : State) : Host.Outcome State Fault Refusal :=
  .next (stage r 2 0 1 (fun c s =>
    let b := shapeAt c.plan.image.blob c.st.param
    let cs := b.entries.map (shapeColumn c s)
    let cols := cs.map (·.1)
    let s := ((b.entries.map (·.ref)).filter (· != 0xffff)).foldl (pinCopy c.plan c.slot c.run) (b.entries.foldl (storeFracs c) s)
    some ⟨{ c.grp with cols := cols, fields := [] },
      shapeHeader c.grp.rows (cs.foldl (fun a x => a + x.2.1) 0) (cs.foldl (fun a x => a + x.2.2) 0) ++ shapeBytes b c.grp cols, s⟩) s)

/-! ### SPECTRAL (R353) -/

/-- The window of R351 step 4. -/
def hann (n k : Nat) : Nat := fp32.rne (fxVal (fxOne / 2 - fxCos k n / 2))

/-- An index with its low `l` bits reversed. -/
def bitRev : Nat → Nat → Nat
  | 0, _ => 0
  | l + 1, i => (i % 2) * 2 ^ l + bitRev l (i / 2)

/-- A complex FP32 number. -/
abbrev Cx := Nat × Nat

/-- A radix-2 decimation-in-time FFT on input in bit-reversed order, by halves (R351 step 5); the twiddle table is that of `n` points. -/
def fft (tw : Nat → Cx) : Nat → List Cx → List Cx
  | 0, xs => xs
  | l + 1, xs =>
    let half := 2 ^ l
    let a := fft (fun k => tw (2 * k)) l (xs.take half)
    let b := fft (fun k => tw (2 * k)) l (xs.drop half)
    let ps := ((a.zip b).zip (List.range half)).map fun e =>
      let w := tw e.2
      let t : Cx := (fp32.add (fp32.mul e.1.2.1 w.1) (fp32.mul e.1.2.2 w.2), fp32.sub (fp32.mul e.1.2.2 w.1) (fp32.mul e.1.2.1 w.2))
      ((fp32.add e.1.1.1 t.1, fp32.add e.1.1.2 t.2), (fp32.sub e.1.1.1 t.1, fp32.sub e.1.1.2 t.2))
    ps.map (·.1) ++ ps.map (·.2)

/-- The twiddles of n points. -/
def twiddle (n k : Nat) : Cx := (fp32.rne (fxVal (fxCos k n)), fp32.rne (fxVal (fxSin k n)))

/-- The magnitudes of bins 0 to N ÷ 2 of a frame (R351 steps 4 to 6). -/
def magnitudes (l : Nat) (window : Bool) (frame : List Nat) : List Nat :=
  let n := 2 ^ l
  let xs := (List.range n).map fun i => let x := (frame[i]?).getD 0; if window then fp32.mul x (hann n i) else x
  let rev := (List.range n).map fun i => ((xs[bitRev l i]?).getD 0, 0)
  ((fft (twiddle n) l rev).take (n / 2 + 1)).map fun z => fp32.sqrt (fp32.add (fp32.mul z.1 z.1) (fp32.mul z.2 z.2))

/-- SPECTRAL (R353). -/
def execSpectral (r : StageRef) (s : State) : Host.Outcome State Fault Refusal :=
  .next (stage r 2 0 3 (pureStage fun c _ =>
    let b := c.param 4
    let l := byteAt b 2 % 16
    let src := c.col (leAt b 0 2)
    let out : Val → Val := fun v =>
      if v.present && !v.blot then ⟨true, false, [], (magnitudes l (bitAt (byteAt b 2) 4) (v.elems.map (·.bits))).map Elem.of⟩
      else ⟨v.present, v.blot, [], []⟩
    let col : Column := ⟨1, 0xb, 2 ^ l / 2 + 1, src.rows.map out⟩
    ({ c.grp with cols := [col], fields := [] }, shapeHeader c.grp.rows 0 0 ++ columnBytes col)) s)

/-! ### Gathering (R197 to R202) -/

/-- An empty partial. -/
def Partial.empty (core epoch col : Nat) (at' : Option Nat) : Partial :=
  ⟨core, epoch, col, 0, 0, 0, fp32.signed false fp32.infMag, fp32.signed true fp32.infMag, 0, 0, at'⟩

/-- The smaller of two FP32 values, the first on a tie. -/
def minFirst (a b : Nat) : Nat := if (fp32.dec b).lt (fp32.dec a) then b else a
/-- The larger of two FP32 values, the first on a tie. -/
def maxFirst (a b : Nat) : Nat := if (fp32.dec a).lt (fp32.dec b) then b else a

/-- One value folded into a partial (R197): the value in FP32, none where it is absent or blotted. -/
def foldValue (p : Partial) (x : Option Nat) : Partial :=
  match x with
  | none => { p with absent := p.absent + 1 }
  | some x =>
    if fp32.isNan x then { p with nonfinite := p.nonfinite + 1 }
    else
      let p := { p with min := minFirst p.min x, max := maxFirst p.max x }
      if fp32.isInf x then { p with nonfinite := p.nonfinite + 1 }
      else
        let c := p.count + 1
        let v := fp32to64 x
        let d := fp64.sub v p.mean
        let mu := fp64.add p.mean (fp64.div d (fp64OfNat c))
        { p with count := c, mean := mu, m2 := fp64.add p.m2 (fp64.mul d (fp64.sub v mu)) }

/-- A count added to a bin of a sketch partial in the core pad. -/
def bumpBin (dva bin : Nat) (s : State) : State :=
  writeFree s (dva + 8 * bin) (le 8 (leAt (readDva s (dva + 8 * bin) 8) 0 8 + 1))

/-- The core pad place of an entry's sketch counts for an epoch (R199, R203): two sets per column, in entry order. -/
def sketchPlace (c : StageCtx) (s : State) (b : ShapeBlock) (i : Nat) (en : ShapeEntry) : Option Nat :=
  match sketchOf s c.plan en.ref with
  | some (_, cols, _) =>
    if en.statCol < cols then
      let earlier := ((b.entries.take i).filter fun x => match sketchOf s c.plan x.ref with
        | some (_, k, _) => decide (x.statCol < k) | none => false).length
      some (padDva c.core (b.padOff + (2 * earlier + c.grp.epoch % 2) * 16416))
    else none
  | none => none

/-- A STATS entry on one group (R197): the column's partial of the group's epoch, and its sketch. -/
def statsEntry (c : StageCtx) (b : ShapeBlock) (s : State) (e : Nat × ShapeEntry) : State :=
  let en := e.2
  let col := c.col en.col
  let o := statObj s c.slot en.ref
  let mine : Partial → Bool := fun p => p.core == c.core && p.epoch == c.grp.epoch && p.col == en.statCol
  let place := sketchPlace c s b e.1 en
  let p := (o.partials.find? mine).getD (Partial.empty c.core c.grp.epoch en.statCol place)
  let xs := col.rows.map fun v => if v.present && !v.blot then some (toFp32 col.fmt v.bits) else none
  let p' := xs.foldl foldValue p
  let o' := { o with partials := (o.partials.filter fun q => !mine q) ++ [p'], cores := put c.core c.grp.epoch o.cores }
  let s := setStat c.slot en.ref o' s
  match place, sketchOf s c.plan en.ref with
  | some a, some (_, _, emin) => (xs.filterMap id).foldl (fun s x => bumpBin a (sketchBin emin x) s) s
  | _, _ => s

/-- Every earlier group of the release has finished the stage: its nib holds it past the stage, or a later group. -/
def earlierDone (c : StageCtx) (s : State) : Bool :=
  let ns := nibsOf c.lig
  (List.range c.grp.num).all fun n => (nibGroups s (c.core * 8 + (ns[n % max 1 ns.length]?).getD 0)).any fun x =>
    x.slot == c.slot && x.lig == c.ligIx && x.started == c.run.started && ((x.num == n && decide (c.k < x.next)) || decide (n < x.num))

/-- STATS (R197, R199): groups are folded in release order, and a core's first release of an epoch closes its set of the epoch before. -/
def execStats (r : StageRef) (s : State) : Host.Outcome State Fault Refusal :=
  .next (stage r 2 0 2 (fun c s =>
    let b := shapeAt c.plan.image.blob c.st.param
    if !earlierDone c s then none else
    some ⟨c.grp, [], ((List.range b.entries.length).zip b.entries).foldl (statsEntry c b) s⟩) s)

/-- The merge step of two partials (R198). -/
def mergePartial (a b : Partial) : Partial :=
  let t := { a with absent := a.absent + b.absent, nonfinite := a.nonfinite + b.nonfinite, min := minFirst a.min b.min,
                    max := maxFirst a.max b.max }
  if b.count = 0 then t
  else if a.count = 0 then { t with count := b.count, mean := b.mean, m2 := b.m2 }
  else
    let c := fp64OfNat (a.count + b.count)
    let ca := fp64OfNat a.count
    let cb := fp64OfNat b.count
    let d := fp64.sub b.mean a.mean
    { t with count := a.count + b.count, mean := fp64.add a.mean (fp64.div (fp64.mul d cb) c),
             m2 := fp64.add (fp64.add a.m2 b.m2) (fp64.div (fp64.mul (fp64.mul (fp64.mul d d) ca) cb) c) }

/-- The cores that run STATS stages of a plan. -/
def statsCores (p : Plan) : List Nat :=
  dedup ((p.image.ligatures.filter fun l => l.stages.any fun st => st.engine == 2 && st.op == 2).filterMap fun l => coreOf p l.core)

/-- The statistics references of a plan. -/
def statRefs (p : Plan) : List Nat := (p.image.refs.filter fun r => r.kind == 6).map (·.absId)

/-- A core has closed its set of an epoch: it has run a STATS release of a later one (R199). -/
def setClosed (s : State) (p : Plan) (slot epoch core : Nat) : Bool :=
  (statRefs p).any fun ref => (look core (statObj s slot ref).cores).any fun x => decide (epoch < x)

/-- A merged column record with STS_EPS kept (R199). -/
def mergedRecord (eps : Nat) (p : Partial) : Bytes :=
  deriveRecord (le 4 eps ++ zeros 12 ++ le 4 p.min ++ le 4 p.max ++ le 8 p.nonfinite ++ le 8 p.absent ++ le 8 p.count ++ le 8 p.mean ++
    le 8 p.m2)

/-- c ÷ n rounded once to FP32. -/
def divRound (c n : Nat) : Nat := fp32.rne ((FV.ofInt c 0 false).div (FV.ofInt n 0 false))

/-- The fractions of a count array (R205, R206). -/
def fractions (counts : List Nat) : List Nat :=
  let n := (counts.take 2051).foldl (· + ·) 0
  let cs := (counts.foldl (fun a c => (a.1 ++ [a.2], a.2 + c)) (([] : List Nat), 0)).1
  cs.map fun c => if n = 0 then 0 else divRound c n

/-- The sketch of one column merged, its fractions written and its partial counts zeroed (R199, R206). -/
def mergeSketch (p : Plan) (q cols copy j : Nat) (ps : List Partial) (s : State) : State :=
  let sets := ps.filterMap (·.sketchAt)
  let get : Nat → List Nat := fun a => let b := readDva s a 16416; (List.range 2052).map fun k => leAt b (8 * k) 8
  let counts := sets.foldl (fun acc a => (acc.zip (get a)).map fun e => e.1 + e.2) (List.replicate 2052 0)
  let s := refWrite p q (countOff cols copy j) (counts.flatMap (le 8)) s
  let s := refWrite p q (fracOff cols copy j) ((fractions counts).flatMap (le 4)) s
  sets.foldl (fun s a => writeFree s a (zeros 16416)) s

/-- A publication of epoch `e` into the inactive copy, with the derived fields of every column (R196, R199). -/
def publish (slot ref e : Nat) (p : Plan) (s : State) : State :=
  let o := statObj s slot ref
  let copy := 1 - statActive s p ref
  let cols := leAt (refBytes s p ref 0 2) 0 2
  let closed := o.partials.filter fun x => x.epoch == e
  let column : State → Nat → State := fun s j =>
    let ps := sortBy (fun a b => a.core < b.core) (closed.filter fun x => x.col == j)
    match ps with
    | [] => let at' := recordOff cols copy j; refWrite p ref at' (deriveRecord (refBytes s p ref at' 64)) s
    | x :: xs =>
      let eps := leAt (refBytes s p ref (recordOff cols (1 - copy) j) 4) 0 4
      let s := refWrite p ref (recordOff cols copy j) (mergedRecord eps (xs.foldl mergePartial x)) s
      match sketchOf s p ref with
      | some (q, k, _) => if j < k then mergeSketch p q k copy j ps s else s
      | none => s
  let s := (List.range cols).foldl column s
  let late := if o.published.isSome && statAuto s p ref then 1 else 0
  let s := refWrite p ref 16 (le 4 (leAt (refBytes s p ref 16 4) 0 4 + late)) s
  let open' := o.partials.filter fun x => x.epoch != e
  setStat slot ref { o with partials := open', published := some (copy, e), publishedAt := s.clk.cycle, epochs := put copy e o.epochs } s

/-- STATS_MERGE (R198, R199): once every core that runs the plan's STATS stages has closed its set of the oldest epoch gathered. -/
def execStatsMerge (slot : BitVec 6) (ref : BitVec 16) (s : State) : Host.Outcome State Fault Refusal :=
  match plan? s slot.toNat with
  | none => .next s
  | some p =>
    let o := statObj s slot.toNat ref.toNat
    match o.partials.map (·.epoch) with
    | [] => .next s
    | e :: es =>
      let oldest := es.foldl min e
      if (statsCores p).all (setClosed s p slot.toNat oldest) then .next (publish slot.toNat ref.toNat oldest p s) else .next s

/-- A copy made active from a cycle on: STD_ACTIVE, and STD_EPOCH of what it summarises, all ones for what the host supplied (R200, R201). -/
def activateCopy (slot ref copy from' : Nat) (p : Plan) (s : State) : State :=
  let o := statObj s slot ref
  let old := statActive s p ref
  let s := refWrite p ref 6 [BitVec.ofNat 8 copy] s
  let s := refWrite p ref 8 (le 8 ((look copy o.epochs).getD (2 ^ 64 - 1))) s
  setStat slot ref { o with published := none, history := (from', old) :: o.history } s

/-- The boundary into epoch `now`, which came at a cycle: a copy published by then under automatic refresh becomes active (R200). -/
def refreshAt (slot now at' : Nat) (p : Plan) (s : State) (ref : Nat) : State :=
  let o := statObj s slot ref
  if now ≤ o.boundary then s
  else
    let s := setStat slot ref { o with boundary := now } s
    match o.published with
    | some (copy, e) =>
      if statAuto s p ref && decide (o.publishedAt ≤ at') then
        let late := if e + 1 < now then 1 else 0
        let s := refWrite p ref 16 (le 4 (leAt (refBytes s p ref 16 4) 0 4 + late)) s
        activateCopy slot ref copy at' p s
      else s
    | none => s

/-- EPOCH_BOUNDARY: the boundary into the epoch of which the sample source has delivered the first record, as of the edge that opened that tick
or, without ruled work, of the delivery (R200, R328). -/
def execEpochBoundary (slot : BitVec 6) (s : State) : Host.Outcome State Fault Refusal :=
  match plan? s slot.toNat with
  | none => .next s
  | some p => match epochStart s slot.toNat p with
    | none => .next s
    | some (now, at') => .next ((statRefs p).foldl (refreshAt slot.toNat now at' p) s)

/-- The host's records written into the inactive copy with their derived fields (R196, Table 13-9). -/
def writeRecords (p : Plan) (ref copy first : Nat) (rs : List Bytes) (s : State) : State :=
  let cols := leAt (refBytes s p ref 0 2) 0 2
  ((List.range rs.length).zip rs).foldl (fun s e => refWrite p ref (recordOff cols copy (first + e.1)) (deriveRecord e.2) s) s

/-- One of the host's flips, with the records it writes into the copy first (R201). -/
def flipOnce (slot ref : Nat) (p : Plan) (s : State) (e : Nat × Option (Nat × List Bytes)) : State :=
  let copy := 1 - statActive s p ref
  let s := match e.2 with
    | some (first, rs) =>
      let o := statObj s slot ref
      setStat slot ref { o with epochs := put copy (2 ^ 64 - 1) o.epochs } (writeRecords p ref copy first rs s)
    | none => s
  activateCopy slot ref copy s.clk.edge p s

/-- A pending STATS_SET of a reference, accepted before a tick. -/
def statsDue (slot ref now : Nat) : PendKind → Bool
  | .stats a b t => a == slot && b == ref && decide (t < now)
  | _ => false

/-- STATS_FLIP: the host's flips accepted before this tick's edge take effect in order, and their final responses are sent (R201,
Table 13-9). -/
def execStatsFlip (slot : BitVec 6) (ref : BitVec 16) (s : State) : Host.Outcome State Fault Refusal :=
  match plan? s slot.toNat with
  | none => .next s
  | some p =>
    let o := statObj s slot.toNat ref.toNat
    let due := o.flips.filter fun e => decide (e.1 < nowTick s)
    if due.isEmpty then .next s
    else
      let s := due.foldl (flipOnce slot.toNat ref.toNat p) s
      let s := setStat slot.toNat ref.toNat { statObj s slot.toNat ref.toNat with flips := o.flips.filter fun e => !decide (e.1 < nowTick s) } s
      .next (finalAnswer (statsDue slot.toNat ref.toNat (nowTick s)) St.ok 0 (payload [.num 8 (nowTick s)]) s)

end Sys2Proof.Machine
end

