-- ==== Sys2Proof/Machine/Matrix.lean ====
section
/-! DEFINITION. The Matrix engine: dense layers, activations and feature interaction (R208 to R217). -/

namespace Sys2Proof.Machine

/-- A layer entry (Table 6-12). -/
structure Layer where
  (kind act rnd inFmt wFmt outFmt opi n k ref scaleOff biasOff wOff : Nat)
  (keep sat prefetch : Bool)
  deriving DecidableEq, Repr

/-- A matrix block (Table 6-11). -/
structure MatrixBlock where
  (rows inStride outStride : Nat)
  (layers : List Layer)
  deriving DecidableEq, Repr

/-- The layer entry at an offset of the blob. -/
def layerAt (b : Bytes) (o : Nat) : Layer :=
  let f := byteAt b (o + 6)
  { kind := byteAt b o, keep := bitAt (byteAt b (o + 1)) 0, act := byteAt b (o + 4), prefetch := bitAt f 0, sat := bitAt f 1,
    rnd := f / 4 % 4, inFmt := f / 16, wFmt := byteAt b (o + 7) % 16, outFmt := byteAt b (o + 7) / 16, opi := byteAt b (o + 13),
    n := leAt b (o + 14) 2, k := leAt b (o + 16) 2, ref := leAt b (o + 18) 2, scaleOff := leAt b (o + 20) 4,
    biasOff := leAt b (o + 24) 4, wOff := leAt b (o + 28) 4 }

/-- The block at an offset of the blob. -/
def matrixAt (b : Bytes) (o : Nat) : MatrixBlock :=
  { rows := leAt b (o + 10) 2, inStride := leAt b (o + 12) 4, outStride := leAt b (o + 16) 4,
    layers := (List.range (min 16 (byteAt b (o + 9)))).map fun i => layerAt b (o + 32 + 32 * i) }

/-! ### Activations (R212) -/

/-- The place of a value on a format's grid: neighbours differ by 1. -/
def gridPlace (f : Fmt) (v : FV) : Int :=
  match v with
  | .fin neg m e => let g : Int := f.grid 0 0 m e; if neg then -g else g
  | .inf neg => if neg then -(f.infMag : Int) else f.infMag
  | .nan => 0

/-- A candidate for GELU or SiLU keeps the last sentences of R212: never positive for a negative argument, and in BF16 and FP16 the
correctly rounded value or a neighbour of it. -/
def actOk (neg : Bool) (y : Int) (cand : Nat) : Bool :=
  let near : Fmt → Bool := fun f => decide ((gridPlace f (fp32.dec cand) - gridPlace f (fxVal y)).natAbs ≤ 1)
  (!neg || fp32.neg cand || fp32.isZero cand) && near ⟨8, 7, 127, false⟩ && near ⟨5, 10, 15, false⟩

/-- x ÷ (1 + e^(−u)) in fixed point; past |u| of 400 the exponential is out of reach of the bounds. -/
def sigmoidMul (x u : Int) : Int :=
  if u > 400 * fxOne then x else if u < -(400 * fxOne) then 0 else fxDiv x (fxOne + fxExp (-u))

/-- The exponent of GELU's sigmoid form: 2 √(2 ÷ π) (x + 0.044715 x³). -/
def geluArg (x : Int) : Int :=
  let k : Int := (isqrt ((fxDiv (2 * fxOne) fxPi * fxOne).natAbs) : Nat)
  2 * fxMul k (x + fxMul (fxMul x x) x * 44715 / 1000000)

/-- GELU and SiLU of a finite value. -/
def smooth (act x : Nat) (neg : Bool) (m : Nat) (e : Int) : Nat :=
  if m = 0 then x
  else
    let v := fxOf neg m e
    let big := decide ((60 : Int) < (Nat.log2 m : Int) + e)
    let u := if big then (if neg then -(500 * fxOne) else 500 * fxOne) else if act = 2 then geluArg v else v
    let y := sigmoidMul v u
    let z := within act x (if act = 2 then 4 else 3) true (actOk neg y) y
    if neg && fp32.isZero z then fp32.signBit else z

/-- The activation unit (Table 6-14). -/
def activate (act x : Nat) : Nat :=
  match act, fp32.dec x with
  | 0, _ => x
  | _, .nan => fp32.qnan
  | 1, _ => if fp32.neg x then 0 else x
  | _, .inf neg => if neg then fp32.signBit else x
  | a, .fin neg m e => smooth a x neg m e

/-! ### Layers -/

/-- The weights' bytes as a stage on a core reads them: its pad copy where the reference has one (R215). -/
def weightBytes (s : State) (c : StageCtx) (ref off n : Nat) : Bytes :=
  match refOf c.plan ref with
  | some r => if r.pad then readDva s (padDva c.core (r.padOff + off)) n else refBytes s c.plan ref off n
  | none => zeros n

/-- The elements of a row of bytes. -/
def elemsOf (fmt n : Nat) (bs : Bytes) : List Nat := (List.range n).map fun i => leAt bs (i * typeBytes fmt) (typeBytes fmt)

/-- A dot product in the fixed ascending order of R210: FP32 with one rounding per step. -/
def dotFp (inFmt wFmt : Nat) (a w : List Nat) : Nat :=
  (a.zip w).foldl (fun acc e => fp32.rne (((valueOf inFmt e.1).mul (valueOf wFmt e.2)).add (fp32.dec acc))) 0

/-- A dot product of INT8 values, exact. -/
def dotInt (a w : List Nat) : Int := (a.zip w).foldl (fun acc e => acc + intOf 1 e.1 * intOf 1 e.2) 0

/-- What a layer reads beside its input rows: weights by output, scales and biases. -/
structure LayerData where
  (w : List (List Nat))
  (scale bias : Option (List Nat))

/-- The weights, scales and biases of a dense layer (R210). -/
def layerData (s : State) (c : StageCtx) (l : Layer) : LayerData :=
  let wb := typeBytes l.wFmt
  let bs := weightBytes s c l.ref l.wOff (l.k * l.n * wb)
  let vec : Nat → Option (List Nat) := fun off => if off = 0xffffffff then none else some (elemsOf 0xb l.n (weightBytes s c l.ref off (4 * l.n)))
  { w := (List.range l.n).map fun n => (List.range l.k).map fun k => leAt bs ((k * l.n + n) * wb) wb,
    scale := vec l.scaleOff, bias := vec l.biasOff }

/-- One output of a dense layer (R210). -/
def denseOut (l : Layer) (d : LayerData) (key e n : Nat) (row w : List Nat) : Nat :=
  if l.inFmt = 1 ∧ l.outFmt = 3 then ofInt 32 (dotInt row w)
  else
    let v := if l.inFmt = 1 then fp32.rne (FV.ofInt (dotInt row w) 0 false) else dotFp l.inFmt l.wFmt row w
    let v := match d.scale with | some x => fp32.mul v ((x[n]?).getD 0) | none => v
    let v := match d.bias with | some x => fp32.add v ((x[n]?).getD 0) | none => v
    (convert 0xb l.outFmt l.rnd l.sat (stippleDraw key e) (activate l.act v)).bits

/-- The inputs of a dense layer: its row, and past the end of a shorter one values the spec does not state (R210, assumption log 172). -/
def denseInput (l : Layer) (row : List Nat) : List Nat :=
  row.take l.k ++ (List.range (l.k - row.length)).map fun k => Config.value (8 * typeBytes l.inFmt) k % 2 ^ (8 * typeBytes l.inFmt)

/-- One row through a dense layer; `i` is its place in the group. -/
def denseRow (l : Layer) (d : LayerData) (key i : Nat) (row : List Nat) : List Nat :=
  ((List.range l.n).zip d.w).map fun e => denseOut l d key (i * l.n + e.1) e.1 (denseInput l row) e.2

/-- The vectors of an interaction: the previous output, then the extra ones of the input row (R213). -/
def interactVecs (l : Layer) (prev input : List Nat) : List (List Nat) :=
  ((List.range (prev.length / max 1 l.k)).map fun v => (prev.drop (v * l.k)).take l.k) ++
    (List.range l.n).map fun v => (input.drop (l.wOff + v * l.k)).take l.k

/-- One row through an interaction (R213). -/
def interactRow (l : Layer) (key i : Nat) (prev input : List Nat) : List Nat :=
  let vs := interactVecs l prev input
  let pairs := (List.range vs.length).flatMap fun a => (List.range a).map fun b => (a, b)
  let keep := if l.keep then prev.length else 0
  let len := keep + pairs.length
  let ps := ((List.range pairs.length).zip pairs).map fun e =>
    let x := (vs[e.2.1]?).getD []
    let y := (vs[e.2.2]?).getD []
    let v := if l.inFmt = 1 then fp32.rne (FV.ofInt (dotInt x y) 0 false) else dotFp l.inFmt l.inFmt x y
    (convert 0xb l.outFmt l.rnd l.sat (stippleDraw key (i * len + keep + e.1)) v).bits
  (if l.keep then prev else []) ++ ps

/-- One row through the whole stack: the last layer's output and its format. -/
def runRow (c : StageCtx) (ls : List (Layer × LayerData)) (input : Bytes) (i : Nat) : List Nat × Nat :=
  ls.foldl (fun acc l =>
    let key := c.stipple l.1.opi
    if l.1.kind = 1 then
      let row := if acc.2 = 0 then elemsOf l.1.inFmt l.1.k input else acc.1
      (denseRow l.1 l.2 key i row, l.1.outFmt)
    else (interactRow l.1 key i acc.1 (elemsOf l.1.inFmt (input.length / max 1 (typeBytes l.1.inFmt)) input), l.1.outFmt)) ([], 0)

/-- LAYERS (R210 to R216). -/
def execLayers (r : StageRef) (s : State) : Host.Outcome State Fault Refusal :=
  .next (stage r 5 0 1 (pureStage fun c s =>
    let b := matrixAt c.plan.image.blob c.st.param
    let inp := c.inputBytes s
    let inp := if c.k = 0 then inp else
      match c.lig.stages[c.k - 1]? with
      | some p => if p.engine = 2 ∧ p.op = 1 then inp.drop 64 else inp
      | none => inp
    let ls := b.layers.map fun l => (l, if l.kind = 1 then layerData s c l else ⟨[], none, none⟩)
    let rows := (List.range b.rows).map fun i => runRow c ls (slice inp (i * b.inStride) b.inStride) i
    let out := rows.flatMap fun x => fit b.outStride (x.1.flatMap (le (typeBytes x.2)))
    let fmt := (rows.head?.map (·.2)).getD 0
    let n := (rows.head?.map (·.1.length)).getD 0
    let g := { c.grp with fields := [], cols := [⟨1, fmt, n, (rows.zip (List.range b.rows)).map fun e => ⟨true, false, [], e.1.1.map Elem.of⟩⟩] }
    (g, padTo 8 out ++ rowBitmap ((List.range b.rows).map fun i => (c.grp.valid[i]?).getD false))) s)

end Sys2Proof.Machine
end

