-- ==== Sys2Proof/Machine/ColumnTypes.lean ====
section
/-! DEFINITION. The types of a group's columns as far as a plan image fixes them: those an earlier stage of the ligature writes. A column
that an ingest stream produces takes its type from its source (assumption log 171). -/

namespace Sys2Proof.Machine

/-- The vectors V of an INTERACT layer over a previous output of length `lp` (R213). -/
def interactVectors (l : Layer) (lp : Nat) : Nat := (if l.k = 0 then 0 else lp / l.k) + l.n

/-- The length of a layer's output row (R213). -/
def layerWidth (l : Layer) (lp : Nat) : Nat :=
  if l.kind = 1 then l.n
  else
    let v := interactVectors l lp
    v * (v - 1) / 2 + if l.keep then lp else 0

/-- The layers with the length of the row each one reads. -/
def layersFrom : Nat → List Layer → List (Layer × Nat)
  | _, [] => []
  | lp, l :: ls => (l, lp) :: layersFrom (layerWidth l lp) ls

/-- Column types by index: value type and values per row; none where the image does not fix it. -/
abbrev ColTypes := Nat → Option (Nat × Nat)

/-- One column of a type. -/
def oneType (t : Nat × Nat) : ColTypes := fun i => if i = 0 then some t else none

/-- The column types a stage hands on. -/
def typesAfter (m : Image) (ts : ColTypes) (st : Stage) : ColTypes :=
  match st.engine, st.op with
  | 0, 2 => let p := predAt m.blob st.param; fun i => if i < p.cols then ts (leAt m.blob (p.colList + 2 * i) 2) else none
  | 1, 1 => oneType (hashFmt (hashAt m.blob st.param), 1)
  | 2, 1 => fun i => ((shapeAt m.blob st.param).entries[i]?).map fun e => (e.outFmt, e.lanes)
  | 2, 3 => oneType (0xb, 2 ^ (byteAt m.blob (st.param + 2) % 16) / 2 + 1)
  | 4, 2 => pooled
  | 4, 3 => pooled
  | 5, _ => match (layersFrom 0 (matrixAt m.blob st.param).layers).getLast? with
    | some e => oneType (e.1.outFmt, layerWidth e.1 e.2)
    | none => fun _ => none
  | 6, _ => if st.side = 0 then fun _ => none else ts
  | _, _ => ts
where
  pooled : ColTypes :=
    let g := gatherAt m.blob st.param
    match m.refs.find? fun r => r.absId == g.table with
    | some r => oneType (g.outFmt, (tableDescAt m.blob r.desc).dim)
    | none => fun _ => none

/-- The column types before a stage, after the stages in front of it. -/
def typesBefore (m : Image) (before : List Stage) : ColTypes := before.foldl (typesAfter m) fun _ => none

/-- The bytes of a row over some columns; none where the image does not fix a type or one is not fixed-width. -/
def fixedWidth (ts : ColTypes) (cols : List Nat) : Option Nat :=
  cols.foldl (fun a i => match a, ts i with
    | some n, some t => if typeBytes t.1 = 0 then none else some (n + typeBytes t.1 * t.2)
    | _, _ => none) (some 0)

end Sys2Proof.Machine
end

