-- ==== Sys2Proof/Machine/Select.lean ====
section
/-! DEFINITION. The Select engine: the order of values, top-k, merges and argmax (R261 to R275). -/

namespace Sys2Proof.Machine

/-- The rank of a value (R261); none for a NaN that takes no part (R262). -/
def rankOf (fmt : Nat) (nanHigh : Bool) (x : Nat) : Option Nat :=
  let w := 8 * typeBytes fmt
  match fmtOf fmt with
  | none => if isSignedType fmt then some (x ^^^ 2 ^ (w - 1)) else some x
  | some f =>
    if f.isNan x then (if nanHigh then some (2 ^ w) else none)
    else
      let x := if f.isZero x then 0 else x
      if f.neg x then some (2 ^ w - 1 - x) else some (x + 2 ^ (w - 1))

/-- A select block (Table 8-3). -/
structure SelBlock where
  (smallest nanHigh release : Bool)
  (fmt k lists col idxCol outOff : Nat)
  deriving DecidableEq, Repr

/-- The block at an offset of the blob. -/
def selAt (b : Bytes) (o : Nat) : SelBlock :=
  let f := byteAt b o
  { smallest := bitAt f 1, nanHigh := bitAt f 2, release := bitAt f 3, fmt := byteAt b (o + 2) % 16, k := leAt b (o + 16) 2,
    lists := leAt b (o + 18) 2, col := leAt b (o + 20) 2, idxCol := leAt b (o + 22) 2, outOff := leAt b (o + 24) 4 }

/-- The rank of an entry; 0 for one that is never inserted. -/
def entryRank (b : SelBlock) (x : Nat) : Nat := (rankOf b.fmt b.nanHigh x).getD 0

/-- The strict order of R263 on entries (bits, source index): the first is better. -/
def better (b : SelBlock) (x y : Nat × Nat) : Bool :=
  let rx := entryRank b x.1
  let ry := entryRank b y.1
  if rx ≠ ry then (if b.smallest then decide (rx < ry) else decide (ry < rx))
  else if x.2 ≠ y.2 then decide (x.2 < y.2) else decide (x.1 < y.1)

/-- Entries in the order of R263. -/
def selSort (b : SelBlock) (l : List (Nat × Nat)) : List (Nat × Nat) := sortBy (better b) l

/-- An entry offered to a list: its bits, its index (none: absent), and whether its value and index can be valid at all. -/
structure Offer where
  (bits : Nat)
  (index : Option Nat)
  (ok : Bool)
  deriving DecidableEq, Repr

/-- An offer is skipped and counted (R266). -/
def offerSkipped (b : SelBlock) (o : Offer) : Bool :=
  o.ok && ((rankOf b.fmt b.nanHigh o.bits).isNone || o.index == some 0xffffffff || o.index.isNone)

/-- The valid entries of offers (R266). -/
def validEntries (b : SelBlock) (os : List Offer) : List (Nat × Nat) :=
  (os.filter fun o => o.ok && !offerSkipped b o).filterMap fun o => o.index.map fun i => (o.bits, i)

/-- The fill value of empty places (R271). -/
def fillValue (b : SelBlock) : Nat :=
  let w := 8 * typeBytes b.fmt
  match fmtOf b.fmt with
  | some f =>
    let big := if f.e4m3 then f.maxMag else f.infMag
    if b.smallest then big else f.signBit + big
  | none =>
    if isSignedType b.fmt then (if b.smallest then 2 ^ (w - 1) - 1 else 2 ^ (w - 1)) else if b.smallest then 2 ^ w - 1 else 0

/-- The list of Table 8-4 from its held entries, tie count and skipped count. -/
def listBytes (b : SelBlock) (held : List (Nat × Nat)) (ties skipped : Nat) : Bytes :=
  let n := held.length
  let pad := b.k - n
  let wb := typeBytes b.fmt
  le 16 (pack [(16, n), (16, b.k), (32, satTo 32 ties), (32, satTo 32 skipped), (1, b2n (decide (n < b.k))), (1, b2n (n == 0)),
    (1, b2n (decide (2 ^ 32 ≤ ties))), (29, 0)]) ++
    padTo 8 ((held.map Prod.fst ++ List.replicate pad (fillValue b)).flatMap (le wb)) ++
    padTo 8 ((held.map Prod.snd ++ List.replicate pad 0xffffffff).flatMap (le 4))

/-- The length L of a list (R269). -/
def listLen (b : SelBlock) : Nat := 16 + alignUp (b.k * typeBytes b.fmt) 8 + alignUp (4 * b.k) 8

/-- The entries kept of all, and the ties left out (R268, R270). -/
def selectBest (b : SelBlock) (es : List (Nat × Nat)) : List (Nat × Nat) × Nat :=
  let sorted := selSort b es
  let held := sorted.take b.k
  match held[b.k - 1]? with
  | some lastE => (held, ((sorted.drop b.k).filter fun (e : Nat × Nat) => entryRank b e.1 == entryRank b lastE.1).length)
  | none => (held, 0)

/-- The offers of one row: its elements with their places as source indices (R267). -/
def rowOffers (valid : Bool) (v : Val) : List Offer :=
  ((List.range v.elems.length).zip v.elems).map fun e => ⟨e.2.bits, some e.1, valid && v.present && !v.blot && e.2.present && !e.2.blot⟩

/-- One list of a row. -/
def rowList (b : SelBlock) (os : List Offer) : Bytes :=
  let r := selectBest b (validEntries b os)
  listBytes b r.1 r.2 (os.filter (offerSkipped b)).length

/-- SEL_EXCEEDANCE of a ruled stage for a list presented with `n` entries (R272). -/
def selLimit (c : StageCtx) (n : Nat) (s : State) : State :=
  if c.lig.ruled && decide (c.st.max < n) then exceedance c 8 (n - c.st.max) s else s

/-- A row of a column as its list is presented: every row of a fixed column has its SH_LANES values, those of an absent or blotted row among
them (R272). -/
def presented (c : Column) (v : Val) : Val :=
  if c.kind = 1 then { v with elems := v.elems ++ List.replicate (c.lanes - v.elems.length) ⟨0, false, false⟩ } else v

/-- The offers of every row of the value column. -/
def groupOffers (c : StageCtx) (b : SelBlock) : List (List Offer) :=
  (List.range c.grp.rows).map fun i =>
    rowOffers ((c.grp.valid[i]?).getD true) (presented (c.col b.col) (((c.col b.col).rows[i]?).getD Val.null))

/-- The presence and blot bits of the value column's rows. -/
def rowBits (c : StageCtx) (i : Nat) : List Bool × List Bool :=
  let rows := (List.range c.grp.rows).map fun k => ((c.col i).rows[k]?).getD Val.null
  (rows.map (·.present), rows.map (·.blot))

/-- TOPK per row (R267 to R269). -/
def topkRows (c : StageCtx) (b : SelBlock) (s : State) : StageOut :=
  let os := groupOffers c b
  let s := os.foldl (fun s o => selLimit c o.length s) s
  let bits := rowBits c b.col
  ⟨c.grp, padTo 8 (os.flatMap (rowList b)) ++ rowBitmap bits.1 ++ rowBitmap bits.2, s⟩

/-- The offer of a row in release scope (R266, R267). -/
def releaseOffer (c : StageCtx) (b : SelBlock) (i : Nat) : Offer :=
  let v := ((c.col b.col).rows[i]?).getD Val.null
  let ok := (c.grp.valid[i]?).getD true && v.present && !v.blot
  if b.idxCol = 0xffff then ⟨v.bits, some (c.grp.rec_ i % 2 ^ 32), ok⟩
  else
    let x := ((c.col b.idxCol).rows[i]?).getD Val.null
    ⟨v.bits, if x.present then some x.bits else none, ok && !x.blot⟩

/-- TOPK over a release: one list on the core, written at SL_OUT_OFF once every group of the release has been inserted (R267, R268). -/
def topkRelease (c : StageCtx) (b : SelBlock) (s : State) : StageOut :=
  let key := (c.slot, c.ligIx, c.k)
  let old := match look key s.lists with
    | some l => if l.started = c.run.started then l else ⟨c.run.started, [], 0, 0, 0⟩
    | none => ⟨c.run.started, [], 0, 0, 0⟩
  let os := (List.range c.grp.rows).map (releaseOffer c b)
  let l : SelList := { old with entries := old.entries ++ validEntries b os, skipped := old.skipped + (os.filter (offerSkipped b)).length,
                                presented := old.presented + os.length, groups := old.groups + 1 }
  if l.groups = c.lig.groups then
    let r := selectBest b l.entries
    let s := selLimit c l.presented s
    ⟨c.grp, [], writeFree { s with lists := del key s.lists } (padDva c.core b.outOff) (listBytes b r.1 r.2 l.skipped)⟩
  else ⟨c.grp, [], { s with lists := put key l s.lists }⟩

/-- TOPK. -/
def execTopk (r : StageRef) (s : State) : Host.Outcome State Fault Refusal :=
  .next (stage r 3 0 1 (fun c s =>
    let b := selAt c.plan.image.blob c.st.param
    some (if b.release then topkRelease c b s else topkRows c b s)) s)

/-- A list read back: its held entries, tie count, skipped count, and whether its SLH_K is the block's. -/
structure InList where
  (held : List (Nat × Nat))
  (ties skipped : Nat)
  (matches_ : Bool)
  deriving DecidableEq, Repr

/-- A list at an offset of the input; a tie count that has saturated (SLH_TIE_SAT) stands for one past its field (R274). -/
def inListAt (b : SelBlock) (bs : Bytes) (o : Nat) : InList :=
  if leAt bs (o + 2) 2 ≠ b.k then ⟨[], 0, 0, false⟩
  else
    let wb := typeBytes b.fmt
    let idx := o + 16 + alignUp (b.k * wb) 8
    ⟨(List.range (min (leAt bs o 2) b.k)).map fun i => (leAt bs (o + 16 + i * wb) wb, leAt bs (idx + 4 * i) 4),
      if bitAt (byteAt bs (o + 12)) 2 then 2 ^ 32 else leAt bs (o + 4) 4, leAt bs (o + 8) 4, true⟩

/-- The tie count of a merge (R273). -/
def mergeTies (b : SelBlock) (held : List (Nat × Nat)) (all : List (Nat × Nat)) (ls : List InList) : Nat :=
  match held[b.k - 1]? with
  | none => 0
  | some e =>
    let rank := entryRank b e.1
    (((selSort b all).drop b.k).filter fun x => entryRank b x.1 == rank).length +
      ls.foldl (fun a l => match l.held[b.k - 1]? with
        | some x => if entryRank b x.1 = rank then a + l.ties else a
        | none => a) 0

/-- MERGE (R273). -/
def execMerge (r : StageRef) (s : State) : Host.Outcome State Fault Refusal :=
  .next (stage r 3 0 2 (fun c s =>
    let b := selAt c.plan.image.blob c.st.param
    let bs := c.inputBytes s
    let ls := (List.range b.lists).map fun i => inListAt b bs (i * listLen b)
    let s := ((List.range b.lists).zip ls).foldl (fun s e =>
      if e.2.matches_ then s
      else emitErr { cls := 2, code := 9, unit := coreUid c.core 3, pos := c.task, count := e.1, plan := c.slot, named := false,
                     test := false } s) s
    let all := ls.flatMap (·.held)
    let held := (selSort b all).take b.k
    some ⟨c.grp, listBytes b held (mergeTies b held all ls) (ls.foldl (fun a l => a + l.skipped) 0), s⟩) s)

/-- ARGMAX (R275). -/
def execArgmax (r : StageRef) (s : State) : Host.Outcome State Fault Refusal :=
  .next (stage r 3 0 3 (fun c s =>
    let b := selAt c.plan.image.blob c.st.param
    let os := groupOffers c b
    let s := os.foldl (fun s o => selLimit c o.length s) s
    let best := os.map fun o => (selSort b (validEntries b o)).head?.map (·.2)
    let bits := rowBits c b.col
    some ⟨c.grp, padTo 8 (best.flatMap fun x => le 4 (x.getD 0xffffffff)) ++ rowBitmap (best.map (·.isNone)) ++ rowBitmap bits.1 ++
      rowBitmap bits.2, s⟩) s)

end Sys2Proof.Machine
end

