-- ==== Sys2Proof/Machine/MatchUnits.lean ====
section
/-! DEFINITION. Match units: searches, automata, entry and tag writes, and their commands (R276 to R287). -/

namespace Sys2Proof.Machine

/-- A match unit by die × 12 + cluster. -/
def matchUnit (s : State) (k : Nat) : MatchUnit := (look k s.matchUnits).getD ⟨[], []⟩

/-- The image of an entry of a unit. -/
def matchEntry (u : MatchUnit) (i : Nat) : BitVec 320 := (look i u.entries).getD 0

/-- The tag of a row of a unit. -/
def matchTag (u : MatchUnit) (i : Nat) : Nat := ((look i u.tags).getD 0).toNat

/-- An entry as a search sees it (Table 8-5): its index in the region, key, mask and result. -/
structure LiveEntry where
  (index key mask result : Nat)
  deriving DecidableEq, Repr

/-- The number of set bits of the low 128 bits. -/
def ones (v : Nat) : Nat := ((List.range 128).filter (bitAt v)).length

/-- The valid entries of a region in enabled rows, without those whose parity check fails (R277, R278, R289); `bad` names entries
of the region. -/
def liveEntries (u : MatchUnit) (base size : Nat) (prefilter : Option Nat) (bad : List Nat) : List LiveEntry :=
  (u.entries.filter fun e => base ≤ e.1 && e.1 < base + size && bitAt e.2.toNat 288 && !bad.contains (e.1 - base) &&
      (match prefilter with | some t => matchTag u (e.1 / 64) == t | none => true)).map fun e =>
    ⟨e.1 - base, fld 127 0 e.2.toNat, fld 255 128 e.2.toNat, fld 287 256 e.2.toNat⟩

/-- The matching entries of a key under a global mask (R277). -/
def matching (es : List LiveEntry) (key g : Nat) : List LiveEntry :=
  es.filter fun e => (key ^^^ e.key) &&& e.mask &&& g == 0

/-- The winner: highest priority, then lowest index (R277). -/
def winner (g : Nat) : List LiveEntry → Option LiveEntry
  | [] => none
  | e :: es => match winner g es with
    | none => some e
    | some w =>
      let pe := ones (e.mask &&& g)
      let pw := ones (w.mask &&& g)
      if pw < pe ∨ (pw = pe ∧ e.index < w.index) then some e else some w

/-- A match block (Table 8-7). -/
structure MatchBlock where
  (gmask region col prefilter miss : Nat)
  (pfEn bitmap : Bool)
  deriving DecidableEq, Repr

/-- The match block at an offset of the blob. -/
def matchAt (b : Bytes) (o : Nat) : MatchBlock :=
  let f := byteAt b (o + 10)
  { miss := leAt b (o + 4) 4, bitmap := bitAt f 6, pfEn := bitAt f 7, prefilter := byteAt b (o + 11), col := leAt b (o + 12) 2,
    region := leAt b (o + 14) 2, gmask := leAt b (o + 16) 16 }

/-- The search output record (Table 8-6). -/
def matchRecordBytes (miss : Nat) (error : Bool) (ms : List LiveEntry) (w : Option LiveEntry) : Bytes :=
  le 8 (pack [(32, (w.map (·.result)).getD miss), (14, (w.map (·.index)).getD 0), (1, b2n w.isSome), (1, b2n error), (15, ms.length), (1, 0)])

/-- The entries that fail their parity check at the compare of one search and are enabled (R289). -/
def parityBad (u : MatchUnit) (base size : Nat) (prefilter : Option Nat) (parity : List ParityFail) (row search : Nat) : List Nat :=
  (dedup ((parity.filter fun f => f.row.toNat == row && f.search.toNat == search).map (·.entry.toNat))).filter fun i => i < size &&
    (match prefilter with | some t => matchTag u ((base + i) / 64) == t | none => true)

/-- MATCH_PARITY records, one for each failing compare (R465, Table 8-13). -/
def parityErrs (c : StageCtx) (cluster : Nat) (bad : List Nat) (s : State) : State :=
  bad.foldl (fun s i => emitErr { cls := 2, code := 7, unit := clusterUid cluster 9, pos := i, count := 0, plan := c.slot, named := false,
                                  test := true } s) s

/-- What one search finds: the matches, the winner and the entries that failed their check at it. -/
structure Found where
  (hits : List LiveEntry)
  (best : Option LiveEntry)
  (bad : List Nat)

/-- The search of a row (R277, R289); an absent key is not searched. -/
def searchRow (u : MatchUnit) (reg : Bound) (b : MatchBlock) (parity : List ParityFail) (row : Nat) (v : Val) : Found :=
  let pf := if b.pfEn then some b.prefilter else none
  let bad := parityBad u reg.base reg.size pf parity row 0
  let ms := matching (liveEntries u reg.base reg.size pf bad) (v.bits % 2 ^ 128) b.gmask
  if v.present then ⟨ms, winner b.gmask ms, bad⟩ else ⟨[], none, []⟩

/-- MATCH (R277 to R279): one search a row. -/
def execMatch (r : StageRef) (parity : List ParityFail) (s : State) : Host.Outcome State Fault Refusal :=
  .next (stage r 3 0 4 (fun c s =>
    let b := matchAt c.plan.image.blob c.st.param
    (boundOf c.plan 9 b.region).map fun reg =>
      let found := (List.range c.grp.rows).map fun i =>
        searchRow (matchUnit s reg.index) reg b parity i (((c.col b.col).rows[i]?).getD Val.null)
      let maps := if b.bitmap then found.flatMap fun f =>
          bitmap ((List.range reg.size).map fun i => f.hits.any fun e => e.index == i) else []
      let bits := rowBits c b.col
      ⟨c.grp, (found.flatMap fun f => matchRecordBytes b.miss (!f.bad.isEmpty) f.hits f.best) ++ rowBitmap bits.1 ++ rowBitmap bits.2 ++ maps,
        parityErrs c reg.index (found.flatMap (·.bad)) s⟩) s)

/-! ### Automata (R285 to R287) -/

/-- The search key of an automaton step. -/
def autoKey (state byte : Nat) (fin : Bool) : Nat := state + byte * 2 ^ 16 + b2n fin * 2 ^ 24

/-- The result of one automaton search. -/
def autoStep (live : List LiveEntry) (state byte : Nat) (fin : Bool) : Option Nat :=
  (winner (2 ^ 25 - 1) (matching live (autoKey state byte fin) (2 ^ 25 - 1))).map (·.result)

/-- The end step: reached only after the last byte (R286). -/
def autoEnd (live : List LiveEntry) (state len : Nat) (acc : Nat × Nat) : Nat × Nat :=
  match autoStep live state 0 true with
  | some r => if bitAt r 16 then (len, fld 31 24 r) else acc
  | none => acc

/-- The walk from byte `i` (R286): acc_end and acc_id, and the searches made; `live` gives the entries of each search. -/
def autoWalk (live : Nat → List LiveEntry) (first : Bool) : Bytes → Nat → Nat → Nat × Nat → (Nat × Nat) × Nat
  | [], i, state, acc => (autoEnd (live i) state i acc, i + 1)
  | x :: xs, i, state, acc =>
    match autoStep (live i) state x.toNat false with
    | none => (acc, i + 1)
    | some r =>
      let acc := if bitAt r 16 then (i + 1, fld 31 24 r) else acc
      if bitAt r 16 && first then (acc, i + 1) else autoWalk live first xs (i + 1) (r % 2 ^ 16) acc

/-- The result of one row's string, and the entries that failed their check in its searches (R286, R289). -/
def autoRow (u : MatchUnit) (reg : Bound) (first : Bool) (start : Nat) (parity : List ParityFail) (row : Nat) (v : Val) : (Nat × Nat) × List Nat :=
  let bad : Nat → List Nat := parityBad u reg.base reg.size none parity row
  let w := autoWalk (fun k => liveEntries u reg.base reg.size none (bad k)) first v.bytes 0 start (0xffffffff, 0)
  if v.present then (w.1, (List.range w.2).flatMap bad) else ((0xffffffff, 0), [])

/-- The record of one row of AUTOMATON (R287). -/
def autoRecord (r : (Nat × Nat) × List Nat) : Bytes :=
  le 8 (pack [(32, r.1.1), (8, r.1.2), (1, b2n (r.1.1 != 0xffffffff)), (1, b2n (!r.2.isEmpty)), (22, 0)])

/-- AUTOMATON (R286, R287). -/
def execAutomaton (r : StageRef) (parity : List ParityFail) (s : State) : Host.Outcome State Fault Refusal :=
  .next (stage r 3 0 5 (fun c s =>
    let p := c.param 8
    let colIx := leAt p 4 2
    (boundOf c.plan 9 (leAt p 6 2)).map fun reg =>
      let rows := (List.range c.grp.rows).map fun i => ((c.col colIx).rows[i]?).getD Val.null
      let found := ((List.range rows.length).zip rows).map fun e =>
        autoRow (matchUnit s reg.index) reg (bitAt (byteAt p 0) 0) (leAt p 2 2) parity e.1 e.2
      let s := rows.foldl (fun s v => if v.present then selLimit c v.bytes.length s else s) s
      let bits := rowBits c colIx
      ⟨c.grp, found.flatMap autoRecord ++ rowBitmap bits.1 ++ rowBitmap bits.2, parityErrs c reg.index (found.flatMap (·.2)) s⟩) s)

/-! ### Writes (R281 to R284) and their commands (Table 13-15) -/

/-- An entry written: invalidated, written, validated; the reset image leaves the list (R281). -/
def writeEntry (i : Nat) (img : BitVec 320) (u : MatchUnit) : MatchUnit :=
  { u with entries := if img = 0 then del i u.entries else put i img u.entries }

/-- A row tag written (R283). -/
def writeTag (i : Nat) (t : Byte) (u : MatchUnit) : MatchUnit := { u with tags := if t = 0 then del i u.tags else put i t u.tags }

/-- Entries written one after another into a region (R282). -/
def writeEntries (reg : Bound) (first : Nat) (imgs : List (BitVec 320)) (s : State) : State :=
  let u := ((List.range imgs.length).zip imgs).foldl (fun u e => writeEntry (reg.base + first + e.1) e.2 u) (matchUnit s reg.index)
  { s with matchUnits := put reg.index u s.matchUnits }

/-- Row tags written into a region. -/
def writeTags (reg : Bound) (first : Nat) (ts : List Byte) (s : State) : State :=
  let u := ((List.range ts.length).zip ts).foldl (fun u e => writeTag (reg.base / 64 + first + e.1) e.2 u) (matchUnit s reg.index)
  { s with matchUnits := put reg.index u s.matchUnits }

/-- The fields of an entry image at byte `o` that lie outside their sets: a key with a bit under a clear mask bit, and the reserved bits
(Table 8-5, Table 13-3). -/
def badImage (o : Nat) (img : BitVec 320) : List (Nat × Bool) :=
  [(o, fld 127 0 img.toNat &&& (2 ^ 128 - 1 - fld 255 128 img.toNat) != 0), (o + 36, fld 319 289 img.toNat != 0)]

/-- The region of a plan that a match command names, and `n` entries of it from `first`; REGION where there is none. -/
def matchRegion (s : State) (slot region first n : Nat) : Option Bound :=
  match (plan? s slot).bind fun p => boundOf p 9 region with
  | some b => if first + n ≤ b.size then some b else none
  | none => none

/-- A plan is in a state in which MATCH_WRITE and MATCH_TAGS are allowed. -/
def matchState (s : State) (slot : Nat) : Bool :=
  match plan? s slot with | some p => p.state != .retiring | none => false

/-- MATCH_WRITE (R281, R282). -/
def execMatchWrite (r : Req) (slot : Byte) (region first : BitVec 16) (images : List (BitVec 320)) (s : State) :
    Host.Outcome State Fault Refusal :=
  .next (goust r (icmd 0x0A01 (8 + 40 * images.length)
    ([(0, decide (63 < slot.toNat)), (6, decide (88 < images.length))] ++
      ((List.range images.length).zip images).flatMap fun e => badImage (8 + 40 * e.1) e.2) fun s =>
    if !matchState s slot.toNat then .fail St.planState 0
    else match matchRegion s slot.toNat region.toNat first.toNat images.length with
      | none => .fail St.region 0
      | some b => .ok (writeEntries b first.toNat images s) []) s)

/-- MATCH_TAGS (R283). -/
def execMatchTags (r : Req) (slot : Byte) (region first : BitVec 16) (tags : List Byte) (s : State) :
    Host.Outcome State Fault Refusal :=
  .next (goust r (icmd 0x0A02 (alignUp (8 + tags.length) 8) [(0, decide (63 < slot.toNat))] fun s =>
    if !matchState s slot.toNat then .fail St.planState 0
    else match matchRegion s slot.toNat region.toNat (64 * first.toNat) (64 * tags.length) with
      | none => .fail St.region 0
      | some b => .ok (writeTags b first.toNat tags s) []) s)

/-- MATCH_READ. -/
def execMatchRead (r : Req) (slot : Byte) (region first n : BitVec 16) (s : State) : Host.Outcome State Fault Refusal :=
  .next (goust r (icmd 0x0A03 8 [(0, decide (63 < slot.toNat)), (6, decide (88 < n.toNat))] fun s =>
    match matchRegion s slot.toNat region.toNat first.toNat n.toNat with
    | none => .fail St.region 0
    | some b => .ok s ((List.range n.toNat).flatMap fun i =>
        le 40 (matchEntry (matchUnit s b.index) (b.base + first.toNat + i)).toNat)) s)

end Sys2Proof.Machine
end

