-- ==== Sys2Proof/Machine/Exchange.lean ====
section
/-! DEFINITION. The exchange between dies and devices, serve tasks and the update combiners (R233 to R248, R403, R404). -/

namespace Sys2Proof.Machine

/-- The stream engine that the streams of a plan fall to: the first it holds, or stream engine 0 of die 0. -/
def engineUnit (p : Plan) : BitVec 16 := ((p.bound.find? fun b => b.kind == 7).map fun b => BitVec.ofNat 16 b.unit).getD (uid 0 12 4 0 0)

/-- The unit that runs a plan's stream: the shared unit of its certificate entry; else the Feed side of the stage that names it; else
the first stream engine the plan holds, or stream engine 0 of die 0. -/
def streamUnit (p : Plan) (i : Nat) : BitVec 16 :=
  match p.image.certs.find? fun c => c.kind == 2 && c.unitKind == 7 && c.index == i with
  | some c => ((p.bound.find? fun b => b.kind % 16 == c.unitKind && b.absId == c.unit).map fun b => BitVec.ofNat 16 b.unit).getD (uid 0 12 4 0 0)
  | none =>
    let feed := p.image.ligatures.findSome? fun l => (l.stages.find? fun st => st.engine == 6 && st.param == i).bind fun st =>
      (coreOf p l.core).map fun n => coreUid n 6 + BitVec.ofNat 16 (1 + st.side)
    match feed with
    | some u => u
    | none => engineUnit p

/-! ### Packets (R403) -/

/-- An exchange header (Table 12-6). -/
structure ExHeader where
  (tick table part parts count gen reqDie ownDie : Nat)
  deriving DecidableEq, Repr

/-- The header's bytes. -/
def exBytes (h : ExHeader) : Bytes :=
  le 32 (pack [(2, h.ownDie), (2, h.reqDie), (92, 0), (16, h.gen), (16, h.count), (16, h.parts), (16, h.part), (32, h.table), (64, h.tick)])

/-- The header of a payload. -/
def exHeader (b : Bytes) : ExHeader :=
  { ownDie := byteAt b 0 % 4, reqDie := byteAt b 0 / 4 % 4, gen := leAt b 12 2, count := leAt b 14 2, parts := leAt b 16 2,
    part := leAt b 18 2, table := leAt b 20 4, tick := leAt b 24 8 }

/-- The key slot this device holds for a peer. -/
def peerSlot (s : State) (dev : Nat) : Option Nat :=
  (s.sec.slots.find? fun k => k.num != 0 && !k.client && k.peer == dev).map (·.num)

/-- The payload bytes an exchange packet has for entries: 1,400 less the exchange header (R393, R403). -/
def entryRoom : Nat := 1368

/-- A list of entries of one size cut into packets, each with the entries it counts and its bytes (R403): as many whole entries as a packet
holds; an entry longer than that in pieces, counted in the packet that holds its first (assumption log 206). -/
def listParts (size : Nat) (es : List Bytes) : List (Nat × Bytes) :=
  if es.isEmpty then [(0, [])]
  else if size ≤ entryRoom then
    let per := entryRoom / max 1 size
    (List.range (ceilDiv es.length per)).map fun i => let p := (es.drop (i * per)).take per; (p.length, p.flatten)
  else es.flatMap fun e => (List.range (ceilDiv size entryRoom)).map fun i => (b2n (i == 0), (e.drop (entryRoom * i)).take entryRoom)

/-- A list in packets to a peer (R393, R403); nothing leaves without a peer key. -/
def sendList (dev kind size : Nat) (h : ExHeader) (es : List Bytes) (s : State) : State :=
  match peerSlot s dev with
  | none => s
  | some key =>
    let parts := listParts size es
    ((List.range parts.length).zip parts).foldl (fun s p =>
      let h := { h with part := p.1, parts := parts.length, count := p.2.1 }
      sendToDevice dev .ruledExch true kind key 0 0 (exBytes h ++ p.2.2) s) s

/-- The devices a table's rows are homed on beside this one: the peers of its exchange. -/
def tablePeers (s : State) (c : TableCtx) : List Nat :=
  let me := s.deviceNumber.toNat
  match c.r.place with
  | 0 => dedup ((tableOf s c.slot c.ref).owners.filterMap fun o =>
      if o.isSet && o.home / 2 ^ 47 != me then some (o.home / 2 ^ 47) else none)
  | 2 => ((List.range c.d.shards).map (c.d.shardBase + ·)).filter (· != me)
  | _ => []

/-- The exchange release of a plan (R235): every request and update list built in this tick is sealed; a peer without a list gets an
empty one (of updates too where the table takes them, assumption log 161), and lists two ticks old are dropped. -/
def sealExchange (slot : Nat) (s : State) : State :=
  let tick := nowTick s
  (planTables s slot).foldl (fun s c =>
    let t := tableOf s slot c.ref
    let reqs := (t.reqs.filter fun q => tick ≤ q.tick + 1).map fun q => if q.received then q else { q with sealed := true }
    let mine := reqs.filter fun q => q.toSend && q.tick == tick
    let empty := ((tablePeers s c).filter fun d => mine.all fun q => q.device != d).map fun d =>
      ({ device := d, die := 0, ownDie := 0, via := 0, tick := tick, gen := t.gen, rows := [], parts := 1, got := [0], sealed := true,
         received := false, toSend := true } : ReqList)
    let upds := t.upds.map fun q => if q.received then q else { q with sealed := true }
    let none' := if c.d.update then ((tablePeers s c).filter fun d => t.upds.all fun q => q.received || q.device != d || q.tick != tick).map fun d =>
        ({ device := d, die := 0, ownDie := 0, tick := tick, gen := t.gen, upds := [], parts := 1, got := [0], sealed := true,
           received := false } : UpdList)
      else []
    setTable slot c.ref { t with reqs := reqs ++ empty, upds := upds ++ none' } s) s

/-- The sealed lists for other devices sent at the start of the next tick (R403, Table 7-6). -/
def sendLists (s : State) : State :=
  s.tables.foldl (fun s e =>
    match tableCtx s e.1.1 e.1.2 with
    | none => s
    | some c =>
      let t := tableOf s c.slot c.ref
      let hdr : Nat → Nat → Nat → Nat → ExHeader := fun tick gen die own => ⟨tick, c.d.id, 0, 0, 0, gen, die, own⟩
      let s := (t.reqs.filter fun q => q.toSend && q.sealed).foldl (fun s q =>
        sendList q.device 6 16 (hdr q.tick q.gen q.die q.ownDie) (q.rows.map fun r => le 8 r.1 ++ le 4 r.2 ++ zeros 4) s) s
      let s := (t.upds.filter fun q => q.sealed && !q.received).foldl (fun s q =>
        sendList q.device 7 (8 + 4 * c.d.dim) (hdr q.tick q.gen q.die q.ownDie)
          (q.upds.map fun u => le 8 u.1 ++ u.2.flatMap (le 4)) s) s
      setTable c.slot c.ref { t with reqs := t.reqs.filter (fun q => !(q.toSend && q.sealed)),
                                     upds := t.upds.filter fun q => !(q.sealed && !q.received) } s) s

/-- The reports of rows not landed in the tick that ends, one per table and owner (R239). -/
def reportMissing (s : State) : State :=
  s.tables.foldl (fun s e =>
    let s := e.2.missing.foldl (fun s m =>
      emitBlot { reason := 0x4a, plan := e.1.1, source := e.1.2, field := 0xffff, offset := m.1, record := m.2.2, count := m.2.1 } s) s
    setTable e.1.1 e.1.2 { tableOf s e.1.1 e.1.2 with missing := [] } s) s

/-! ### Landing (R234, R404) -/

/-- A row written into its landing slot, and the landed bit set; its bytes lie in the part's instance on the requesting die. -/
def landRow (c : TableCtx) (die buf slot : Nat) (bs : Bytes) (s : State) : State :=
  let t := tableOf s c.slot c.ref
  let s := setTable c.slot c.ref { t with landing := t.landing.map fun l =>
    if l.die = die ∧ l.buf = buf ∧ l.slot = slot then { l with landed := true, bytes := bs } else l } s
  match partOn c.plan c.d.resPart die with
  | some b => writeDva s (b.base + landBase c + (buf * c.d.landRows + slot) * c.d.stride) bs
  | none => s

/-- The table of a plan in use with a table id. -/
def tableById (s : State) (id : Nat) : Option TableCtx :=
  s.plans.findSome? fun e => if e.2.state = .loaded then none else (planTables s e.1).find? fun c => c.d.id == id

/-! ### Serve tasks (R236, R238, R240) -/

/-- The SHARED_TASK of a ruled stream: its task id and its release cycle in this tick. -/
def sharedEntry (s : State) (slot stream : Nat) : Option (Nat × Nat) :=
  (plan? s slot).bind fun p =>
    (((List.range p.image.certs.length).zip p.image.certs).find? fun e => e.2.kind == 2 && e.2.unitKind == 7 && e.2.index == stream).map fun e =>
      (sharedId slot e.1, s.clk.edge + e.2.release)

/-- The release cycle of a stream's SHARED_TASK in the present tick. -/
def streamRelease (s : State) (p : Plan) (i : Nat) : Option Nat :=
  (p.image.certs.find? fun c => c.kind == 2 && c.unitKind == 7 && c.index == i).map fun c => s.clk.edge + c.release

/-- A list has wholly arrived and stands to be served: a ruled task released in a tick takes those of the tick before, a margin task any that
is sealed. -/
def toServe (tick : Option Nat) (q : ReqList) : Bool :=
  !q.toSend && q.sealed && q.got.length == q.parts && tick.all fun t => q.tick + 1 == t

/-- A row served counts for the requesting die in OWN_READS (R249). -/
def countRead (c : TableCtx) (row via : Nat) (s : State) : State :=
  setOwner c (c.block row) (fun o => { o with reads := modifyAt (· + 1) via o.reads }) s

/-- The rows of a list that a die owns, served: read at their present place, landed here or sent to the requester (R236); none reaches a die over a
link that is down (Table 15-4). -/
def serveList (c : TableCtx) (die : Nat) (q : ReqList) (s : State) : State × Nat :=
  let mine := q.rows.filter fun r => match rowHome s c none r.1 with | .here d _ => d == die | _ => false
  let got := mine.filterMap fun r => (readRow s c none r.1).map fun bs => (r.1, r.2, bs)
  let s := mine.foldl (fun s r => countRead c r.1 q.via s) s
  let s := if q.received then
      if got.isEmpty then s
      else sendList q.device 8 (8 + alignUp c.rowBytes 8) ⟨q.tick, c.d.id, 0, 0, 0, q.gen, q.die, q.ownDie⟩
        (got.map fun r => le 4 r.2.1 ++ zeros 4 ++ padTo 8 r.2.2) s
    else if reaches s die q.die then got.foldl (fun s r => landRow c q.die (q.tick % 3) r.2.1 r.2.2 s) s
    else s
  let t := tableOf s c.slot c.ref
  let reqs := t.reqs.map fun x => if x = q then { x with rows := x.rows.filter fun r => !mine.contains r } else x
  (setTable c.slot c.ref { t with served := t.served + mine.length, reqs := reqs.filter fun x => !(x.rows.isEmpty && toServe none x) } s,
   mine.length)

/-- The peers whose request or update lists of a tick have not arrived whole (R240, assumption log 161). -/
def peersMissing (s : State) (c : TableCtx) (tick : Nat) : List Nat :=
  let t := tableOf s c.slot c.ref
  (tablePeers s c).filter fun d =>
    !t.peers.contains (d, tick) || (c.d.update && !t.peers.contains (2048 + d, tick)) ||
    (t.reqs.any fun q => q.received && q.device == d && q.tick == tick && q.got.length != q.parts) ||
    t.upds.any fun q => q.received && q.device == d && q.tick == tick && q.got.length != q.parts

/-- EMB_PEER_MISSING once for a peer and tick, for all tables together (R240); the rows asked of it count as accounted for (R241). -/
def notePeer (c : TableCtx) (unit : BitVec 16) (tick : Nat) (s : State) (d : Nat) : State :=
  let told := s.tables.any fun e => e.2.peers.contains (1024 + d, tick)
  let t := tableOf s c.slot c.ref
  let landing := t.landing.map fun l => if l.device = d ∧ l.tick = tick then { l with late := true } else l
  let s := setTable c.slot c.ref { t with peers := t.peers ++ [(1024 + d, tick)], landing := landing } s
  if told then s
  else emitErr { cls := 2, code := 6, unit := unit, pos := 0, count := d, plan := c.slot, named := false, test := false } s

/-- EMB_PEER_MISSING for the peers whose lists of the tick before have not come by a serve task's release (R240). -/
def missPeers (c : TableCtx) (unit : BitVec 16) (s : State) : State :=
  let s := (peersMissing s c (nowTick s - 1)).foldl (notePeer c unit (nowTick s - 1)) s
  let t := tableOf s c.slot c.ref
  setTable c.slot c.ref { t with peers := t.peers.filter fun e => nowTick s ≤ e.2 + 2 } s

/-- The table that a serve stream of a plan in use serves. -/
def serveTable (s : State) (slot stream : Nat) : Option TableCtx :=
  match plan? s slot with
  | none => none
  | some p => match p.image.streams[stream]? with
    | none => none
    | some d => if d.kind ≠ 2 ∨ p.state = .loaded then none else tableCtx s slot d.srcAbs

/-- The sealed lists of a tick served for the rows homed on a die, and how many rows that were. -/
def serveLists (c : TableCtx) (die : Nat) (tick : Option Nat) (s : State) : State × Nat :=
  ((tableOf s c.slot c.ref).reqs.filter (toServe tick)).foldl (fun (a : State × Nat) q => let x := serveList c die q a.1; (x.1, a.2 + x.2)) (s, 0)

/-- The released task of a ruled serve stream. -/
def serveRun (s : State) (slot stream : Nat) : Option SharedRun := s.rul.shared.find? fun x => x.kind == 7 && x.slot == slot && x.stream == stream

/-- A released serve task can run: its unit has no earlier task to finish, a late stream's among them (R73). -/
def serveFree (s : State) (x : SharedRun) : Bool :=
  nextShared s x.unit == some x && !(s.streams.any fun e => e.2.ruled && e.2.owed != 0 && e.2.overrun.isSome && e.2.unit == x.unit)

/-- A ruled serve task's work, once it is released and its unit is free: the lists of the tick before its release (R236, EMB_EXCEEDANCE). -/
def serveRuled (c : TableCtx) (x : SharedRun) (s : State) : State :=
  let r := serveLists c (uidDie x.unit) (some (if s.clk.edge ≤ x.release then nowTick s else nowTick s - 1)) s
  let s := if c.d.maxServe < r.2 then
      emitErr { cls := 2, code := 3, unit := x.unit, pos := x.id, count := r.2 - c.d.maxServe, plan := x.slot, named := true, test := false } r.1
    else r.1
  endShareds [x] s

/-- SERVE_TASK (R236): the sealed lists for the rows homed on the task's die, by the released task of a ruled plan, or as margin work (R241). -/
def execServeTask (slot : BitVec 6) (stream : BitVec 16) (s : State) : Host.Outcome State Fault Refusal :=
  match serveTable s slot.toNat stream.toNat with
  | none => .next s
  | some c =>
    if (streamRelease s c.plan stream.toNat).isSome then
      match serveRun s slot.toNat stream.toNat with
      | some x => .next (if serveFree s x then serveRuled c x s else s)
      | none => .next s
    else
      let unit := streamUnit c.plan stream.toNat
      .next (missPeers c unit (serveLists c (uidDie unit) none s).1)

/-! ### Lists from other devices (R238, R243, R257, R403, R404) -/

/-- A part of a list gathered with those already here. -/
def gatherReq (t : Table) (dev via : Nat) (h : ExHeader) (rows : List (Nat × Nat)) : Table :=
  let isIt : ReqList → Bool := fun q => q.received && q.device == dev && q.die == h.reqDie && q.ownDie == h.ownDie && q.tick == h.tick
  if t.reqs.any isIt then
    { t with reqs := t.reqs.map fun q =>
        if isIt q && !q.got.contains h.part then { q with rows := q.rows ++ rows, got := q.got ++ [h.part] } else q }
  else { t with reqs := t.reqs ++ [{ device := dev, die := h.reqDie, ownDie := h.ownDie, via := via, tick := h.tick, gen := h.gen,
                                     rows := rows, parts := h.parts, got := [h.part], sealed := true, received := true, toSend := false }] }

/-- The serve task of a table on a die has been released for the lists of a tick. -/
def serveReleased (s : State) (c : TableCtx) (die tick : Nat) : Bool :=
  tick + 1 < nowTick s || (tick + 1 == nowTick s &&
    (List.range c.plan.image.streams.length).any fun i => (c.plan.image.streams[i]?).any fun d =>
      d.kind == 2 && d.srcAbs == c.ref && uidDie (streamUnit c.plan i) == die &&
        (streamRelease s c.plan i).any fun t => decide (t ≤ s.clk.cycle))

/-- Rows of a list that came after its serve release: none is served, and the requester gets a late notice (R238). -/
def lateRows (c : TableCtx) (dev : Nat) (h : ExHeader) (s : State) : State :=
  let t := tableOf s c.slot c.ref
  let isIt : ReqList → Bool := fun q => q.received && q.device == dev && q.die == h.reqDie && q.ownDie == h.ownDie && q.tick == h.tick
  match t.reqs.find? isIt with
  | none => s
  | some q =>
    if q.got.length != q.parts then s
    else
      let late := q.rows.filter fun r => match rowHome s c none r.1 with | .here d _ => serveReleased s c d h.tick | _ => true
      if late.isEmpty then s
      else
        let s := setTable c.slot c.ref { t with reqs := t.reqs.map fun x => if isIt x then { x with rows := x.rows.filter fun r => !late.contains r } else x } s
        match peerSlot s dev with
        | none => s
        | some key => sendToDevice dev .control false 9 key 0 0
            (exBytes { h with part := 0, parts := 1, count := min late.length 0xffff, gen := (tableOf s c.slot c.ref).gen }) s

/-- An exchange packet received and opened, with its header and table; an entry list that does not fit its payload is malformed. -/
def receiveEx (p : KitPacket) (kind : Nat) (s : State) (body : TableCtx → ExHeader → Bytes → State → State) : State :=
  match receiveKit p kind s with
  | (none, s) => s
  | (some bs, s) =>
    let h := exHeader bs
    match tableById s h.table with
    | none => drop p.port.toNat 0xd s
    | some c => body c h (bs.drop 32) s

/-- EX_REQ (R238, R403). -/
def execExReq (p : KitPacket) (s : State) : Host.Outcome State Fault Refusal :=
  .next (receiveEx p 6 s fun c h es s =>
    if h.part < h.parts ∧ es.length = 16 * h.count then
      let dev := p.header.srcDev.toNat
      let rows := (List.range h.count).map fun i => (leAt es (16 * i) 8, leAt es (16 * i + 8) 4)
      let t := tableOf s c.slot c.ref
      let t := gatherReq t dev (portDie p.port.toNat) h rows
      let whole := t.reqs.any fun q => q.received && q.device == dev && q.tick == h.tick && q.got.length == q.parts
      let t := if whole && !t.peers.contains (dev, h.tick) then { t with peers := t.peers ++ [(dev, h.tick)] } else t
      lateRows c dev h (setTable c.slot c.ref t s)
    else drop p.port.toNat 6 s)

/-- A piece of an entry longer than a packet kept with those already here; the whole entry once the last has come (assumption log 206). -/
def takePiece (t : Table) (kind dev : Nat) (h : ExHeader) (size : Nat) (bs : Bytes) : Table × List Bytes :=
  let k := ceilDiv size entryRoom
  let key : Nat → List Nat := fun i => [h.tick, kind, dev, h.reqDie, h.ownDie, h.part / k, i]
  let all := put (key (h.part % k)) bs (t.pieces.filter fun e => decide (h.tick ≤ e.1.headD 0 + 2))
  match (List.range k).mapM fun i => look (key i) all with
  | some ps => ({ t with pieces := all.filter fun e => !((List.range k).any fun i => e.1 == key i) }, [ps.flatten])
  | none => ({ t with pieces := all }, [])

/-- The entries of one size that an exchange packet brings (R403): those it holds, or the one whose last piece it is; none where its bytes do not
agree with its header. -/
def exEntries (t : Table) (kind dev : Nat) (h : ExHeader) (size : Nat) (es : Bytes) : Option (Table × List Bytes) :=
  if size ≤ entryRoom then
    if es.length = size * h.count then some (t, (List.range h.count).map fun i => slice es (size * i) size) else none
  else if es.length = min entryRoom (size - entryRoom * (h.part % ceilDiv size entryRoom)) then some (takePiece t kind dev h size es)
  else none

/-- EX_ROWS (R404): rows written into their landing slots. -/
def execExRows (p : KitPacket) (s : State) : Host.Outcome State Fault Refusal :=
  .next (receiveEx p 8 s fun c h es s =>
    match exEntries (tableOf s c.slot c.ref) 8 p.header.srcDev.toNat h (8 + alignUp c.rowBytes 8) es with
    | none => drop p.port.toNat 6 s
    | some (t, rows) => rows.foldl (fun s e =>
      let slot := leAt e 0 4
      if h.tick + 1 < nowTick s ∨ (h.tick + 1 = nowTick s ∧ s.clk.guard) then drop p.port.toNat 0xf s
      else if c.d.landRows ≤ slot ∨ nowTick s < h.tick then drop p.port.toNat 0x10 s
      else landRow c h.reqDie (h.tick % 3) slot (slice e 8 c.rowBytes) s) (setTable c.slot c.ref t s))

/-- EX_LATE (R238, R241): the rows asked of that owner in that tick are accounted for. -/
def execExLate (p : KitPacket) (s : State) : Host.Outcome State Fault Refusal :=
  .next (receiveEx p 9 s fun c h _ s =>
    let t := tableOf s c.slot c.ref
    setTable c.slot c.ref { t with landing := t.landing.map fun l =>
      if l.device = p.header.srcDev.toNat ∧ l.die = h.reqDie ∧ l.ownDie = h.ownDie ∧ l.tick = h.tick ∧ !l.landed then { l with late := true }
      else l } s)

/-- The updates of a list fed to the combiners of their rows' dies (R243). -/
def feedUpdates (c : TableCtx) (gen : Nat) (upds : List (Nat × List Nat)) (s : State) : State :=
  upds.foldl (fun s u => match rowHome s c none u.1 with | .here d _ => combine d c gen u.1 u.2 s | _ => s) s

/-- The updates of a list for one die. -/
def updatesOn (s : State) (c : TableCtx) (die : Nat) (upds : List (Nat × List Nat)) : List (Nat × List Nat) :=
  upds.filter fun u => match rowHome s c none u.1 with | .here d _ => d == die | _ => false

/-- A part of an update list gathered. -/
def gatherUpd (t : Table) (dev : Nat) (h : ExHeader) (us : List (Nat × List Nat)) : Table :=
  let isIt : UpdList → Bool := fun q => q.received && q.device == dev && q.die == h.reqDie && q.ownDie == h.ownDie && q.tick == h.tick
  if t.upds.any isIt then
    { t with upds := t.upds.map fun q =>
        if isIt q && !q.got.contains h.part then { q with upds := q.upds ++ us, got := q.got ++ [h.part] } else q }
  else { t with upds := t.upds ++ [{ device := dev, die := h.reqDie, ownDie := h.ownDie, tick := h.tick, gen := h.gen, upds := us,
                                     parts := h.parts, got := [h.part], sealed := true, received := true }] }

/-- A plan has a combiner window on a die in each tick: its certificate lists the combiner. -/
def hasWindow (p : Plan) (die : Nat) : Bool :=
  p.image.certs.any fun c => c.kind == 2 && c.unitKind == 0xd && (p.bound.any fun b => b.kind == 0xd && b.absId == c.unit && b.index == die)

/-- The window of a plan on a die that takes the lists of a tick has been released. -/
def windowReleased (s : State) (c : TableCtx) (die tick : Nat) : Bool :=
  !hasWindow c.plan die || tick + 1 < nowTick s || ((look c.slot (combiner s die).opened).any fun t => decide (tick + 1 ≤ t))

/-- A list that came after the window it belongs to, or for a plan without windows: applied on arrival as margin work (R243). -/
def lateUpdates (c : TableCtx) (dev : Nat) (h : ExHeader) (s : State) : State :=
  let t := tableOf s c.slot c.ref
  let isIt : UpdList → Bool := fun q => q.received && q.device == dev && q.die == h.reqDie && q.ownDie == h.ownDie && q.tick == h.tick
  match t.upds.find? isIt with
  | none => s
  | some q =>
    if q.got.length != q.parts then s
    else if staleGen s c q.gen then dropStale c q.upds.length (setTable c.slot c.ref { t with upds := t.upds.filter fun x => !isIt x } s)
    else
      let isLate : Nat × List Nat → Bool := fun u => match rowHome s c none u.1 with | .here d _ => windowReleased s c d h.tick | _ => true
      let late := q.upds.filter isLate
      if late.isEmpty then s
      else
        let rest := q.upds.filter fun u => !isLate u
        let s := setTable c.slot c.ref { t with upds := if rest.isEmpty then t.upds.filter fun x => !isIt x
                                                        else t.upds.map fun x => if isIt x then { x with upds := rest } else x } s
        let missed := late.any fun u => match rowHome s c none u.1 with | .here d _ => hasWindow c.plan d | _ => false
        let s := late.foldl (fun s u => applyUpdate c u.1 u.2 s) s
        if missed then emitErr { cls := 2, code := 4, unit := uid h.ownDie 12 5 0 0, pos := c.d.id, count := late.length, plan := c.slot,
                                 named := false, test := false } s
        else s

/-- EX_UPD (R243, R257): a list of a replaced generation counts as arrived (R240), and is dropped and reported under reason 0x4C. -/
def execExUpd (p : KitPacket) (s : State) : Host.Outcome State Fault Refusal :=
  .next (receiveEx p 7 s fun c h es s =>
    let dev := p.header.srcDev.toNat
    match exEntries (tableOf s c.slot c.ref) 7 dev h (8 + 4 * c.d.dim) es, decide (h.parts ≤ h.part) with
    | some (t, l), false =>
      let t := gatherUpd t dev h (l.map fun e => (leAt e 0 8, (List.range c.d.dim).map fun k => leAt e (8 + 4 * k) 4))
      let whole := t.upds.any fun q => q.received && q.device == dev && q.tick == h.tick && q.got.length == q.parts
      let t := if whole && !t.peers.contains (2048 + dev, h.tick) then { t with peers := t.peers ++ [(2048 + dev, h.tick)] } else t
      lateUpdates c dev h (setTable c.slot c.ref t s)
    | _, _ => drop p.port.toNat 6 s)

/-! ### Combiner windows (R246 to R248) -/

/-- A die's update combiner. -/
def combinerUid (die : Nat) : BitVec 16 := uid die 12 5 0 0

/-- The update lists of the tick before fed into the window of a plan on a die; those of a replaced generation are dropped (R243, R246,
R257). -/
def feedWindow (die slot : Nat) (s : State) : State :=
  (planTables s slot).foldl (fun s c =>
    let t := tableOf s c.slot c.ref
    let ready := t.upds.filter fun q => q.received && q.got.length == q.parts
    let live := ready.filter fun q => !staleGen s c q.gen
    let gone := (ready.filter fun q => staleGen s c q.gen).foldl (fun n q => n + (updatesOn s c die q.upds).length) 0
    let upds := t.upds.map fun q =>
      if q.received && q.got.length == q.parts then { q with upds := q.upds.filter fun u => !(updatesOn s c die q.upds).contains u } else q
    let s' := setTable c.slot c.ref { t with upds := upds.filter fun q => !(q.received && q.got.length == q.parts && q.upds.isEmpty) } s
    live.foldl (fun s' q => feedUpdates c q.gen (updatesOn s c die q.upds) s') (dropStale c gone s')) s

/-- A plan's window opens on a die. -/
def openWindow (die slot : Nat) (s : State) : State :=
  let x := combiner s die
  feedWindow die slot (setCombiner die { x with window := some (slot, s.clk.cycle), spilled := 0 } s)

/-- The SHARED_TASK of a plan's window on a die, as its certificate gives it for this tick, with its entry number. -/
def windowTask (s : State) (p : Plan) (slot die : Nat) : Option SharedRun :=
  (((List.range p.image.certs.length).zip p.image.certs).find? fun e =>
    e.2.kind == 2 && e.2.unitKind == 0xd && ((certBound p e.2).any fun b => b.index == die)).map fun e =>
      { slot := slot, stream := e.2.index, kind := 0xd, unit := combinerUid die, id := sharedId slot e.1, release := s.clk.edge + e.2.release,
        deadline := s.clk.edge + e.2.release + e.2.claim, overrun := none }

/-- A plan's window on a die released: it opens once the window before it has drained (R53, R73, R243). -/
def releaseWindow (slot die : Nat) (p : Plan) (s : State) : State :=
  let x := combiner s die
  let s := setCombiner die { x with opened := put slot (nowTick s) x.opened } s
  let s := match windowTask s p slot die with
    | some r => { s with rul := { s.rul with shared := s.rul.shared ++ [r] } }
    | none => s
  if x.window.isNone then openWindow die slot s else s

/-- COMBINER_WINDOW: a plan's window on a die is released, where RULED_RELEASE has not done so in this tick (R243, R246, assumption log 136). -/
def execCombinerWindow (die : BitVec 2) (slot : BitVec 6) (s : State) : Host.Outcome State Fault Refusal :=
  match plan? s slot.toNat with
  | none => .next s
  | some p =>
    if p.state = .loaded ∨ look slot.toNat (combiner s die.toNat).opened = some (nowTick s) then .next s
    else .next (releaseWindow slot.toNat die.toNat p s)

/-- The end of a window's task, and the opening of one that waited for the combiner (R72, R73). -/
def closeWindow (die slot : Nat) (s : State) : State :=
  let s := match s.rul.shared.find? fun x => x.unit == combinerUid die && x.slot == slot with
    | some x => endShared x s
    | none => s
  match nextShared s (combinerUid die) with
  | some y => openWindow die y.slot (sharedLate y s)
  | none => s

/-- The updates that a ruled window spilled reported as it ends (R248). -/
def reportSpill (die slot spilled : Nat) (s : State) : State :=
  match (plan? s slot).bind fun p => windowTask s p slot die with
  | some r =>
    if spilled = 0 then s
    else emitErr { cls := 2, code := 3, unit := combinerUid die, pos := r.id, count := spilled, plan := slot, named := true, test := false } s
  | none => s

/-- COMBINER_DRAIN: the window's feeds end; each entry is applied to its row's present place and freed, and spilled updates of a ruled
window are reported (R246, R248); the entries of rows beyond a link that is down stay, and the window with them (Table 15-4). -/
def execCombinerDrain (die : BitVec 2) (s : State) : Host.Outcome State Fault Refusal :=
  let x := combiner s die.toNat
  let keep := x.entries.filter fun e => (tableCtx s e.slot e.ref).any fun c => !rowReach s c die.toNat e.row
  let window := if keep.isEmpty then none else x.window
  let s := setCombiner die.toNat { x with entries := keep, window := window, spilled := if window.isNone then 0 else x.spilled } s
  let s := (x.entries.filter fun e => !keep.contains e).foldl (fun s e => match tableCtx s e.slot e.ref with
    | some c => if staleGen s c e.gen then dropStale c 1 s else applyUpdate c e.row e.sums s
    | none => s) s
  match x.window, window with
  | some (slot, _), none => .next (closeWindow die.toNat slot (reportSpill die.toNat slot x.spilled s))
  | _, _ => .next s

end Sys2Proof.Machine
end

