-- ==== Sys2Proof/Machine/Pages.lean ====
section
/-! DEFINITION. Session memory and the page commands (R292 to R297, R433). -/

namespace Sys2Proof.Machine

/-- A DVA lies in a region of a bound plan: its HBM regions, its parts of the SRAM tiers, its core pads and queues (R293). -/
def planHolds (s : State) (dva : Nat) : Bool :=
  s.plans.any fun e => e.2.bound.any fun b =>
    match b.kind with
    | 1 => decide (padDva b.index 0 ≤ dva) && decide (dva < padDva b.index 0 + padBytes)
    | 2 => decide (b.base ≤ dva) && decide (dva < b.base + b.size)
    | 4 => decide (b.base ≤ dva) && decide (dva < b.base + b.size)
    | 5 => decide (b.base ≤ dva) && decide (dva < b.base + b.size)
    | 6 => dva == b.base
    | _ => false

/-- A DVA lies in a range of the session. -/
def sessionHolds (s : State) (dva : Nat) : Bool :=
  s.allocs.any fun a => decide (a.base ≤ dva) && decide (dva < a.base + a.pages * pageBytes)

/-- A byte of HBM at its frame-space DVA is held: its frame backs a page, and the byte of that page lies in a held range. -/
def frameHeld (s : State) (dva : Nat) : Bool :=
  s.pages.any fun e => e.2.state != 0 && e.2.frame.toNat == dva % 2 ^ 53 / pageBytes &&
    (planHolds s (e.1 * pageBytes + dva % pageBytes) || sessionHolds s (e.1 * pageBytes + dva % pageBytes))

/-- The pages a plan's HBM regions of a bound plan with ruled work name (R297). -/
def ruledPage (s : State) (page : Nat) : Bool :=
  s.plans.any fun e => e.2.image.ruled && e.2.bound.any fun b =>
    b.kind == 5 && decide (b.base ≤ page * pageBytes) && decide (page * pageBytes < b.base + b.size)

/-- A transfer in flight reaches a page: by its paged DVA, or by the DVA of the frame that backs it (R297). -/
def pageBusy (s : State) (page : Nat) : Bool :=
  let frame := (look page s.pages).bind fun p => if p.state = 0 then none else some p.frame.toNat
  s.streams.any fun e => e.2.transfers.any fun t =>
    (t.dva / pageBytes == page && t.dva / 2 ^ 53 == 0) || (t.dva / 2 ^ 53 == 1 && frame == some (t.dva % 2 ^ 53 / pageBytes))

/-- Frames given back, to be zeroed before anything reuses them (R92, R297). -/
def releaseFrames (frames : List Nat) (s : State) : State :=
  if frames.isEmpty then s
  else { s with zeroing := s.zeroing ++ [⟨frames.map fun f => (hbmDva (f * pageBytes), pageBytes), [], false⟩] }

/-- Ranges made blank. -/
def zeroRanges (rs : List (Nat × Nat)) (s : State) : State :=
  { s with mem := rs.foldl (fun m r => match translate s r.1 with | some a => clearCells m a r.2 | none => m) s.mem }

/-- Nothing held back, nothing avoided. -/
def sessionAvail (s : State) : Avail := { held := heldBounds s 64, avoid := [] }

/-- MEM_ALLOC (R292, R433): free frames of the lowest-numbered allowed dies, zeroed and mapped as one range. -/
def execMemAlloc (r : Req) (bytes : BitVec 64) (mask : Byte) (state : Byte) (s : State) : Host.Outcome State Fault Refusal :=
  .next (goust r (icmd 0x0301 16
    [(0, bytes.toNat == 0 || bytes.toNat % pageBytes != 0), (8, decide (15 < mask.toNat)), (9, state.toNat != 1 && state.toNat != 2)] fun s =>
    let dies := (List.range 4).filter fun d => mask == 0 || bitAt mask.toNat d
    let free := dies.flatMap fun d => openFrames s (sessionAvail s) d
    let n := bytes.toNat / pageBytes
    let first := pageRun s n
    if free.length < n ∨ 1048576 < first + n then .fail St.noMemory free.length
    else
      let fs := free.take n
      let s := mapPages first fs (state.toNat == 2) s
      let s := zeroRanges (fs.map fun f => (hbmDva (f * pageBytes), pageBytes)) s
      .ok { s with allocs := s.allocs ++ [⟨first * pageBytes, n⟩] } (payload [.num 8 (first * pageBytes)])) s)

/-- The mapped pages of a run, with their entries. -/
def runPages (s : State) (first n : Nat) : List (Nat × Page) := s.pages.filter fun e => first ≤ e.1 && e.1 < first + n

/-- A run of pages unmapped; their frames are zeroed before reuse. -/
def unmapRun (first n : Nat) (s : State) : State :=
  let ps := runPages s first n
  releaseFrames ((ps.filter fun e => e.2.state != 0).map fun e => e.2.frame.toNat)
    { s with pages := s.pages.filter fun e => !(first ≤ e.1 && e.1 < first + n) }

/-- MEM_FREE: a range of the session given back; one that a transfer in flight still reaches, or that holds the Blotter ring, is refused. -/
def execMemFree (r : Req) (base : BitVec 64) (s : State) : Host.Outcome State Fault Refusal :=
  .next (goust r (icmd 0x0302 8 [] fun s =>
    match s.allocs.find? fun a => a.base == base.toNat with
    | none => .fail St.memoryRefused base.toNat
    | some a =>
      let ring := s.blot.ring.any fun b => decide (a.base ≤ b.1) && decide (b.1 < a.base + a.pages * pageBytes)
      if ring || (List.range a.pages).any fun i => pageBusy s (a.base / pageBytes + i) then .fail St.memoryRefused base.toNat
      else .ok (unmapRun (a.base / pageBytes) a.pages { s with allocs := s.allocs.erase a }) []) s)

/-- The free frames of a page's die. -/
def pageFrames (s : State) (p : Page) : List Nat := openFrames s (sessionAvail s) p.die

/-- PAGE_BRING_IN (R297): an ABSENT page of a held range, from a held page or from zeros. -/
def execPageBringIn (r : Req) (page source : BitVec 64) (state : Byte) (s : State) : Host.Outcome State Fault Refusal :=
  .next (goust r (pcmd 0x0303 24
    [(0, page.toNat % pageBytes != 0), (8, source.toNat != 2 ^ 64 - 1 && source.toNat % pageBytes != 0),
     (16, state.toNat != 1 && state.toNat != 2)] fun s =>
    let src := source.toNat
    match look (page.toNat / pageBytes) s.pages with
    | none => .fail St.memoryRefused page.toNat
    | some p =>
      if page.toNat / 2 ^ 53 ≠ 0 ∨ p.state ≠ 0 then .fail St.memoryRefused page.toNat
      else if src ≠ 2 ^ 64 - 1 ∧ !((planHolds s src || sessionHolds s src) && (translate s src).isSome) then .fail St.memoryRefused src
      else if (pageFrames s p).isEmpty then .fail St.noMemory 0
      else .accept s (.bringIn (page.toNat / pageBytes) src state.toNat) []) s)

/-- The pending bring-ins of a page. -/
def pendingBringIns (s : State) (page : Nat) : List PendKind :=
  s.mboxes.flatMap fun e => e.2.pend.filterMap fun c => match c.kind with
    | .bringIn p _ _ => if p = page then some c.kind else none
    | _ => none

/-- PAGE_BRING_IN_COMPLETE (R297): the page backed by a free frame of its die, filled, and RESIDENT or PINNED. -/
def execPageBringInComplete (page : BitVec 32) (s : State) : Host.Outcome State Fault Refusal :=
  match pendingBringIns s page.toNat, look page.toNat s.pages with
  | k :: _, some p =>
    match k, pageFrames s p with
    | .bringIn _ src st, f :: fs =>
      if p.state ≠ 0 then .next (finalAnswer (fun x => x == k) St.memoryRefused (page.toNat * pageBytes) [] s)
      else
        let fr := (f :: fs).getD (Config.frame s.freeCtr % (fs.length + 1)) f
        let bytes := if src = 2 ^ 64 - 1 then [] else readDva s src pageBytes
        let s := drawn { s with pages := put page.toNat { p with frame := BitVec.ofNat 26 fr, state := BitVec.ofNat 2 st, dirty := false } s.pages }
        let a := hbmDva (fr * pageBytes)
        let s := { s with mem := writeCells (clearCells s.mem a pageBytes) a bytes, lines := s.lines.map fun e => (e.1, e.2.filter fun l => l / (pageBytes / 256) != a / pageBytes) }
        .next (finalAnswer (fun x => x == k) St.ok 0 [] s)
    | _, _ => .next (finalAnswer (fun x => x == k) St.noMemory 0 [] s)
  | _, _ => .next s

/-- The state an action of PAGE_SET needs a page in (Table 9-3, R297): 1 pin, 2 unpin, 3 evict, 4 unmap. -/
def pageActionOk (s : State) (action page : Nat) : Bool :=
  match look page s.pages with
  | none => false
  | some p => match action with
    | 1 => p.state == 1
    | 2 => p.state == 2 && !ruledPage s page
    | 3 => p.state == 1
    | _ => p.state == 0 || p.state == 1

/-- PAGE_SET (R296, R297). -/
def execPageSet (r : Req) (first : BitVec 64) (pages : BitVec 32) (action : Byte) (s : State) : Host.Outcome State Fault Refusal :=
  .next (goust r (pcmd 0x0304 16 [(0, first.toNat % pageBytes != 0), (12, action == 0 || decide (4 < action.toNat))] fun s =>
    let n0 := first.toNat / pageBytes
    match if first.toNat / 2 ^ 53 = 0 then firstOf n0 (min pages.toNat 1048577) (pageActionOk s action.toNat) else some n0 with
    | some p => .fail St.memoryRefused (p * pageBytes)
    | none => .accept s (.pageSet n0 pages.toNat action.toNat) []) s)
where
  /-- The first of a run of pages that fails a test. -/
  firstOf (p : Nat) : Nat → (Nat → Bool) → Option Nat
    | 0, _ => none
    | n + 1, ok => if ok p then firstOf (p + 1) n ok else some p

/-- An action carried out on one page (R297). -/
def setPage (action page : Nat) (s : State) : State :=
  match look page s.pages with
  | none => s
  | some p =>
    match action with
    | 1 => { s with pages := put page { p with state := 2, dirty := false } s.pages }
    | 2 => { s with pages := put page { p with state := 1, dirty := false } s.pages }
    | 3 => releaseFrames [p.frame.toNat] { s with pages := put page { p with state := 0, frame := 0, dirty := false } s.pages }
    | _ => unmapRun page 1 s

/-- PAGE_SET_COMPLETE (R297): an evict or unmap waits for the transfers in flight to its pages. -/
def execPageSetComplete (first : BitVec 32) (s : State) : Host.Outcome State Fault Refusal :=
  let ks := s.mboxes.flatMap fun e => e.2.pend.filterMap fun c => match c.kind with
    | .pageSet f n a => if f = first.toNat then some (f, n, a) else none
    | _ => none
  match ks with
  | [] => .next s
  | (f, n, a) :: _ =>
    if 3 ≤ a ∧ (List.range n).any fun i => pageBusy s (f + i) then .next s
    else
      let kind : PendKind := .pageSet f n a
      match (List.range n).find? fun i => !pageActionOk s a (f + i) with
      | some i => .next (finalAnswer (fun x => x == kind) St.memoryRefused ((f + i) * pageBytes) [] s)
      | none =>
        let s := (List.range n).foldl (fun s i => setPage a (f + i) s) s
        .next (finalAnswer (fun x => x == kind) St.ok 0 [] s)

/-- A page entry (Table 9-2). -/
def pageEntry (p : Page) : Bytes :=
  le 8 (pack [(2, p.state.toNat), (1, b2n p.faulted), (1, b2n p.dirty), (18, 0), (26, p.frame.toNat), (16, 0)])

/-- PAGE_READ: entries of unmapped pages read as zero. -/
def execPageRead (r : Req) (first : BitVec 64) (n : BitVec 32) (s : State) : Host.Outcome State Fault Refusal :=
  .next (goust r (icmd 0x0305 16 [(0, first.toNat % pageBytes != 0), (8, decide (440 < n.toNat))] fun s =>
    .ok s ((List.range n.toNat).flatMap fun i => match look (first.toNat / pageBytes + i) s.pages with
      | some p => pageEntry p
      | none => zeros 8)) s)

/-- The oldest zeroing ended: its ranges are blank and what it held is free (R92). -/
def zeroingDone (s : State) : State :=
  match s.zeroing with
  | [] => s
  | z :: zs => zeroRanges z.ranges { s with zeroing := zs }

end Sys2Proof.Machine
end

