-- ==== Sys2Proof/Machine/Streams.lean ====
section
/-! DEFINITION. Streams: walks, tiles, rings, transfers and faults (R298 to R322). -/

namespace Sys2Proof.Machine

/-! ### Walks (R300) -/

/-- Rows (dimension-0 runs) of one tile. -/
def tileRows (d : StreamDesc) : Nat :=
  (if 1 ≤ d.tileDims then max 1 d.n1 else 1) * (if 2 ≤ d.tileDims then max 1 d.n2 else 1) * (if 3 ≤ d.tileDims then max 1 d.n3 else 1)

/-- Bytes of one tile. -/
def tileBytes (d : StreamDesc) : Nat := d.d0 * tileRows d

/-- Tiles of a walk. -/
def tileCount (d : StreamDesc) : Nat :=
  (if d.tileDims < 1 then max 1 d.n1 else 1) * (if d.tileDims < 2 then max 1 d.n2 else 1) * (if d.tileDims < 3 then max 1 d.n3 else 1)

/-- The indices (i3, i2, i1, i0) of byte `b` of a tile. -/
def walkIndex (d : StreamDesc) (tile b : Nat) : Nat × Nat × Nat × Nat :=
  let g := tile * tileRows d + b / max 1 d.d0
  (g / max 1 d.n1 / max 1 d.n2 % max 1 d.n3, g / max 1 d.n1 % max 1 d.n2, g % max 1 d.n1, b % max 1 d.d0)

/-- The DVA of byte `b` of a tile; an address below zero names no space. -/
def walkDva (base : Nat) (d : StreamDesc) (tile b : Nat) : Nat :=
  let i := walkIndex d tile b
  let a : Int := (base : Int) + i.2.2.1 * d.s1 + i.2.1 * d.s2 + i.1 * d.s3 + i.2.2.2
  if a < 0 then 2 ^ 57 else a.toNat

/-- The byte of a tile that a stream reads as the `b`-th: TRANSPOSE reads element by element down dimension 1 first, the others in walk order
(R321). -/
def readOf (d : StreamDesc) (b : Nat) : Nat :=
  if d.layout = 3 then
    let w := 2 ^ d.elem
    let n := max 1 d.n1
    let block := n * max 1 d.d0
    let q := b % block / w
    b / block * block + q % n * d.d0 + q / n * w + b % w
  else b

/-- The base DVA of one side of a stream: a DVA, or an offset within an abstract resource (Table 9-4). -/
def sideBase (p : Option Plan) (kind abs off : Nat) : Option Nat :=
  if abs = 0xffff then some off
  else match p with
    | none => none
    | some p =>
      if kind = 0xf then ((refOf p abs).bind (refDva p)).map (· + off)
      else (boundOf p kind abs).map fun b => (if kind = 1 then padDva b.index 0 else b.base) + off

/-- The walked side's base. -/
def walkBaseDva (p : Option Plan) (d : StreamDesc) : Option Nat :=
  if d.write then sideBase p d.dstKind d.dstAbs d.dst else sideBase p d.srcKind d.srcAbs d.src

/-- The ring's base. -/
def ringBase (p : Option Plan) (d : StreamDesc) : Option Nat :=
  if d.write then sideBase p d.srcKind d.srcAbs d.src else sideBase p d.dstKind d.dstAbs d.dst

/-- The low 53 bits of a queue's DVA. -/
def queueOf (a : Option Nat) : Option Nat := a.bind fun a => if a / 2 ^ 53 = 5 then some (a % 2 ^ 53) else none

/-- The queue that a stream moves packets of, by the low 53 bits of its DVA (R304): one on the walked side, or one that stands where the ring
would lie, the slots then lying on the other side (assumption log 195). -/
def walkQueue (p : Option Plan) (d : StreamDesc) : Option Nat :=
  (queueOf (walkBaseDva p d)).or (queueOf (ringBase p d))

/-- The base of a stream's slots: its ring's, or the other side's where a queue stands in for the ring. -/
def slotBase (p : Option Plan) (d : StreamDesc) : Option Nat :=
  if (queueOf (ringBase p d)).isSome then walkBaseDva p d else ringBase p d

/-- A descriptor names a queue on one side. -/
def queueSide (d : StreamDesc) : Bool :=
  d.srcKind == 6 || d.dstKind == 6 || (d.srcAbs == 0xffff && d.src / 2 ^ 53 == 5) || (d.dstAbs == 0xffff && d.dst / 2 ^ 53 == 5)

/-- A queue stream without a limit of packets (SD_N1 0): its walk has no end (R304). -/
def endless (d : StreamDesc) : Bool := queueSide d && d.n1 == 0

/-- A queue that a stream may reach (R290, R293): no bit set that must be zero, and a queue of a bound plan. -/
def queueHeld (s : State) (q : Nat) : Bool := planHolds s (dvaOf 5 q)

/-- Tiles a stream looks ahead (R302). -/
def lookAhead (d : StreamDesc) : Nat := if d.weights then 1 else min 4 d.ring

/-! ### Access (R293, R296) -/

/-- How an access of at most 256 bytes in one block fares. -/
inductive Access where
  | ok
  | absent (page : Nat)
  | out
  deriving DecidableEq, Repr

/-- The check of R293 on both ends of the access, and the page state of R296. -/
def access (s : State) (dva n : Nat) : Access :=
  match dva / 2 ^ 53 with
  | 0 =>
    match look (dva / pageBytes) s.pages with
    | none => .out
    | some p =>
      if !((planHolds s dva || sessionHolds s dva) && (planHolds s (dva + n - 1) || sessionHolds s (dva + n - 1))) then .out else if p.state = 0 then .absent (dva / pageBytes) else .ok
  | 1 => if (translate s (dva + n - 1)).isSome && frameHeld s dva && frameHeld s (dva + n - 1) then .ok else .out
  | _ =>
    if (translate s dva).isSome && (translate s (dva + n - 1)).isSome && planHolds s dva && planHolds s (dva + n - 1) then .ok else .out

/-- A range of bytes cut at the 256-byte blocks: the DVA and the length of each part. -/
def spans (dva n : Nat) : List (Nat × Nat) :=
  (List.range ((dva % 256 + n + 255) / 256)).map fun i =>
    let lo := max dva (dva - dva % 256 + 256 * i)
    (lo, min (dva + n) (dva - dva % 256 + 256 * (i + 1)) - lo)

/-- Some byte of a range is out of range (R293). -/
def rangeOut (s : State) (dva n : Nat) : Bool := (spans dva n).any fun e => access s e.1 e.2 == .out

/-- The first place of a range that lies on an ABSENT page. -/
def rangeAbsent (s : State) (dva n : Nat) : Option Nat :=
  (spans dva n).findSome? fun e => match access s e.1 e.2 with | .absent _ => some e.1 | _ => none

/-- A range read under R293: what is not held delivers zeros. -/
def readHeld (s : State) (dva n : Nat) : Bytes :=
  (spans dva n).flatMap fun e => if access s e.1 e.2 = .ok then readDva s e.1 e.2 else zeros e.2

/-- Bytes written under R293: what is not held stores nothing. -/
def writeHeld (s : State) (dva : Nat) (bs : Bytes) : State :=
  (spans dva bs.length).foldl (fun s e => if access s e.1 e.2 = .ok then writeFree s e.1 (slice bs (e.1 - dva) e.2) else s) s

/-! ### Streams by number -/

/-- A free slot. -/
def Slot.free : Slot := ⟨.free, 0, 0, 0, 0, []⟩

/-- An ingest walker at the beginning of its walk, with what Goust read of the source when it was armed. -/
def Ingest.fresh (gen : Nat) (chunks : List Chunk) : Ingest :=
  { open_ := false, ended := false, useIndex := false, cursor := 0, record := 0, unit := 0, chunks := chunks, jobs := [], outs := [],
    fields := [], bad := [], base := 0, marks := [], gen := gen, noChecksum := 0, skipped := 0 }

/-- A stream before it starts. -/
def Stream.fresh (d : StreamDesc) (unit : BitVec 16) (ruled : Bool) : Stream :=
  { desc := d, unit := unit, ruled := ruled, state := .idle, slots := List.replicate (d.ring + 1) Slot.free, head := 0, tail := 0,
    tailOff := 0, nextTile := 0, walkBase := 0, taken := 0, done := 0, transfers := [], fault := none, rearm := none, rearmChunks := [], closed := false,
    skipped := 0, owed := 0, overrun := none, ingest := Ingest.fresh 0 [], comp := ⟨[], [], [], [], 0, []⟩ }

/-- A stream by plan slot (0xFF for a host stream) and index. -/
def stream? (s : State) (k : Nat × Nat) : Option Stream := look k s.streams

/-- A stream replaced. -/
def setStream (k : Nat × Nat) (x : Stream) (s : State) : State := { s with streams := put k x s.streams }

/-- The key a reference names. -/
def refKey (r : StreamRef) : Nat × Nat := (r.slot.toNat, r.stream.toNat)

/-- The plan of a stream. -/
def streamPlan (s : State) (k : Nat × Nat) : Option Plan := if k.1 = 255 then none else plan? s k.1

/-- A slot of a stream changed. -/
def Stream.slotMod (x : Stream) (i : Nat) (f : Slot → Slot) : Stream := { x with slots := modifyAt f i x.slots }

/-- The slot at an index. -/
def Stream.slot (x : Stream) (i : Nat) : Slot := (x.slots[i]?).getD Slot.free

/-- Tiles the present walk still may begin; a queue on the walked side gives at most SD_N1 a release, or any number (R304). -/
def tilesLeft (p : Option Plan) (x : Stream) : Bool :=
  if (walkQueue p x.desc).isSome then x.desc.n1 == 0 || (x.ruled && x.desc.write) || decide (x.nextTile - x.walkBase < x.desc.n1)
  else decide (x.nextTile - x.walkBase < tileCount x.desc)

/-- A pending re-arm put in force and the walk begun again (R306). -/
def restart (x : Stream) : Stream :=
  let old := x.ingest
  let x := match x.rearm with
    | some (src, dst) => { x with desc := { x.desc with src := src, dst := dst }, rearm := none, rearmChunks := [],
                                  ingest := Ingest.fresh (x.ingest.gen + 1) x.rearmChunks }
    | none => { x with ingest := Ingest.fresh x.ingest.gen x.ingest.chunks }
  { x with walkBase := x.nextTile, closed := false,
           ingest := { x.ingest with noChecksum := old.noChecksum, skipped := old.skipped } }

/-- The walk has ended: every tile of it is done. -/
def walkEnded (x : Stream) : Bool := x.done == x.nextTile && x.nextTile - x.walkBase == tileCount x.desc && !endless x.desc

/-- A margin persistent stream whose walk has ended restarts (R306). -/
def restartMargin (p : Option Plan) (x : Stream) : Stream :=
  if x.desc.persist && !x.ruled && (walkQueue p x.desc).isNone && walkEnded x then restart x else x

/-- The tile of a slot completed: one more of STR_TILES (R305). -/
def Stream.tileDone (x : Stream) : Stream := { x with done := x.done + 1, tiles := x.tiles + 1 }

/-- A write stream with nothing left to drain is DONE, where it runs and its walk does not begin again: the producer closes it with the last
tile of the walk (R305, assumption log 196). -/
def Stream.settleWrite (x : Stream) : Stream :=
  if x.state == .running && !x.desc.persist && !x.ruled && walkEnded x then { x with state := .done } else x

/-- A slot the consumer has finished with (R302); the stream is DONE with its last tile (R305). -/
def freeSlot (x : Stream) (i : Nat) : Stream :=
  let x := { (x.slotMod i fun _ => Slot.free) with tail := (i + 1) % (x.desc.ring + 1), tailOff := 0, taken := x.taken + 1 }
  if x.state == .running && !x.desc.persist && !x.ruled && x.taken == x.nextTile && x.nextTile - x.walkBase == tileCount x.desc && !endless x.desc then { x with state := .done }
  else x

/-- The consumer of a host stream is the host: it takes the slot at the tail where that is READY or TRUNCATED (R302; assumption log 118). -/
def hostTake (x : Stream) : Stream :=
  if (x.slot x.tail).state == .ready || (x.slot x.tail).state == .truncated then freeSlot x x.tail else x

/-- The producer of a host write stream is the host: it fills the slot at the head, where that is FREE, with what stands in it, one tile or
one packet of the greatest length (R303; assumption log 118). -/
def hostFill (p : Option Plan) (x : Stream) : Stream :=
  let n := x.desc.ring + 1
  let i := x.nextTile % n
  if x.slot i != Slot.free || !tilesLeft p x then x
  else
    let len := if (walkQueue p x.desc).isSome then min x.desc.d0 x.desc.slotBytes else tileBytes x.desc
    { (x.slotMod i fun _ => ⟨.ready, len, x.nextTile + 1, 0, 0, []⟩) with nextTile := x.nextTile + 1, head := (i + 1) % n }

/-- Records decoded of every field and not yet taken. -/
def Ingest.avail (g : Ingest) : Nat :=
  match g.fields.map fun q => q.col.rows.length with
  | [] => 0
  | n :: ns => ns.foldl min n

/-- An ingest walk has ended and its records are taken. -/
def ingestOver (x : Stream) : Bool := x.ingest.ended && x.ingest.avail == 0

/-! ### The walks of ruled streams (R298, R304, R306) -/

/-- A ruled stream's walk begun again at a release: it takes no re-arm. The packets a queue ring moves are counted from here. -/
def rewalk (p : Option Plan) (x : Stream) : Stream :=
  let y := restart { x with rearm := none, rearmChunks := [] }
  { y with rearm := x.rearm, rearmChunks := x.rearmChunks,
           walkBase := if (walkQueue p x.desc).isSome && x.desc.write then x.done else y.walkBase }

/-- The walk of a ruled stream's release has ended: every tile is done; a queue ring has moved SD_N1 packets or has none to move. -/
def walkOver (s : State) (p : Option Plan) (x : Stream) : Bool :=
  match walkQueue p x.desc with
  | some q =>
    if x.desc.write then x.done == x.nextTile || decide (x.desc.n1 ≤ x.done - x.walkBase)
    else x.done == x.nextTile && (decide (x.desc.n1 ≤ x.nextTile - x.walkBase) ||
      (match queue? s q with | some y => !takeable y | none => true))
  | none => if x.desc.kind = 1 then ingestOver x else walkEnded x

/-- An ingest stream holds media items that no media unit has treated (FLD_KIND 5 and 6). -/
def mediaLeft (x : Stream) : Bool :=
  x.ingest.fields.any fun q => (q.col.kind == 5 || q.col.kind == 6) && q.col.rows.any fun v => v.present && v.elems.isEmpty

/-- The compression engine or media unit of a stream has nothing left to do in this release (assumption log 136). -/
def sharedOver (x : Stream) (kind : Nat) : Bool :=
  if x.desc.write then x.owed == 0 && x.comp.input.isEmpty
  else (x.owed == 0 || x.ingest.ended) && (if kind = 0xb then x.ingest.jobs.isEmpty else !mediaLeft x)

/-- The SHARED_TASKs of some streams that their compression engines and media units have finished end (R53, R72). -/
def settleShared (mine : Nat × Nat → Bool) (s : State) : State :=
  endShareds (s.rul.shared.filter fun x => x.kind != 0xd && x.kind != 7 && mine (x.slot, x.stream) &&
    (match stream? s (x.slot, x.stream) with | some y => sharedOver y x.kind | none => true)) s

/-- The end of a ruled stream's walk: RUL_OVERRUN_END where it was late (R72), and the walk of a release that waits begins, late, or a
serve task that waited for the unit (R73). -/
def walkEnd (k : Nat × Nat) (s : State) : State :=
  match stream? s k with
  | none => s
  | some x =>
    let p := streamPlan s k
    if !x.ruled || x.owed == 0 || !walkOver s p x then s
    else
      let s := match x.overrun with
        | some (id, due) => emitErr { cls := 1, code := 2, unit := x.unit, pos := id, count := s.clk.cycle - due, plan := k.1, named := false,
                                      test := false } s
        | none => s
      let y := { x with owed := x.owed - 1, overrun := none }
      if y.owed = 0 then
        let s := setStream k y s
        if x.overrun.isSome then (match nextShared s x.unit with | some z => sharedLate z s | none => s) else s
      else
        let s := setStream k (rewalk p y) s
        match sharedEntry s k.1 k.2 with
        | some (id, t) => if t + 32 < s.clk.cycle then lateStart x.unit k.1 id (s.clk.cycle - t) s else s
        | none => s

/-- What ends with a step of a stream: its walk, and the work of its compression engine and media units. -/
def shareEnd (k : Nat × Nat) (s : State) : State := settleShared (fun j => j == k) (walkEnd k s)

/-- A stream's descriptor stands in its engine's cache: a plan's always, a host stream's while fewer than two earlier bursts of 16 consecutive
descriptors of host streams that have not ended stand there (R308, assumption log 197). -/
def descCached (s : State) (k : Nat × Nat) (x : Stream) : Bool :=
  k.1 != 255 || decide ((dedup ((s.streams.filter fun e => e.1.1 == 255 && e.2.unit == x.unit && decide (e.1.2 / 16 < k.2 / 16) &&
    (e.2.state == .running || e.2.state == .halted)).map fun e => e.1.2 / 16)).length < 2)

/-- A ruled stream may move data: a release of it is in progress, and a queue ring has packets left of it. -/
def ruledMay (p : Option Plan) (x : Stream) : Bool :=
  !x.ruled || (x.owed != 0 && (!((walkQueue p x.desc).isSome && x.desc.write) || decide (x.done - x.walkBase < x.desc.n1)))

/-- A wait is a stream's. -/
def streamWaits (k : Nat × Nat) (w : Waiter) : Bool := w.what == .stream k.1 k.2

/-- A stream may work now: a ruled one in a release, a margin one while ruled work leaves it the unit, its descriptor in the cache, and no
wait of it parked (R57, R308, R378). -/
def mayWork (s : State) (k : Nat × Nat) (x : Stream) : Bool :=
  ruledMay (streamPlan s k) x && (x.ruled || !unitHeld s k x.unit) && descCached s k x && !s.parked.any fun p => streamWaits k p.waiter

/-- The waits of a stream that has ended dropped. -/
def dropStreamWaits (k : Nat × Nat) (s : State) : State :=
  { s with cells := s.cells.map fun e => (e.1, { e.2 with waiters := e.2.waiters.filter fun w => !streamWaits k w }),
           regHeld := s.regHeld.filter fun e => !streamWaits k e.2, parked := s.parked.filter fun p => !streamWaits k p.waiter,
           queueWaits := s.queueWaits.filter fun e => !streamWaits k e.2 }

/-- Whether two streams draw on one pool of tags: the privileged one of a die, the one of a stream engine or of a core's Feed (R310). -/
def samePool (a b : Stream) : Bool :=
  a.desc.priv == b.desc.priv &&
    (if a.desc.priv then uidDie a.unit == uidDie b.unit
     else if uidCluster a.unit < 12 then uidCluster b.unit < 12 && uidCoreNumber a.unit == uidCoreNumber b.unit else a.unit == b.unit)

/-- The tags of a stream's pool. -/
def poolTags (x : Stream) : Nat := if x.desc.priv then 1024 else if uidCluster x.unit < 12 then 64 else 2048

/-- The lowest free tag of a stream's pool. -/
def freeTag (s : State) (x : Stream) : Option Nat :=
  let used := (s.streams.filter fun e => samePool e.2 x).flatMap fun e => e.2.transfers.map (·.tag)
  (List.range (poolTags x)).find? fun t => !used.contains t

/-- The DVA of a ring slot. -/
def slotDva (p : Option Plan) (d : StreamDesc) (i : Nat) : Nat := ((slotBase p d).getD (2 ^ 57)) + i * d.slotBytes

/-- The unit of a stream reaches both its slots and an address (R30, R32). -/
def pathUp (s : State) (k : Nat × Nat) (x : Stream) (dva : Nat) : Bool :=
  unitReaches s x.unit dva && (x.desc.kind == 3 || unitReaches s x.unit (slotDva (streamPlan s k) x.desc 0))

/-- A stream may move data whole within a row: it may work, a tag is free for it, and its unit reaches what it walks (R310). -/
def mayTransfer (s : State) (k : Nat × Nat) (x : Stream) : Bool :=
  mayWork s k x && (freeTag s x).isSome &&
    pathUp s k x (match walkQueue (streamPlan s k) x.desc with
      | some q => dvaOf 5 q
      | none => (walkBaseDva (streamPlan s k) x.desc).getD (2 ^ 57))

/-- A report of a stream (R148): the abstract id of the walked resource, 0xFFFF for a DVA. -/
def streamBlot (k : Nat × Nat) (x : Stream) (reason offset tile count : Nat) (s : State) : State :=
  emitBlot { reason := reason, plan := k.1, source := if x.desc.write then x.desc.dstAbs else x.desc.srcAbs, field := 0xffff,
             offset := offset, record := tile, count := count } s

/-- The add of SD_SIG_SLOT when a slot becomes READY (R302). -/
def slotSignal (k : Nat × Nat) (x : Stream) (s : State) : State := if k.1 = 255 then s else planAdd k.1 x.desc.sigSlot s

/-! ### The shared caches (R314, R315) -/

/-- The lines of a cluster's shared cache: as many as the largest cache that a bound plan holds there. -/
def lineLimit (s : State) (c : Nat) : Nat :=
  (s.plans.foldl (fun m e => e.2.bound.foldl (fun m b => if b.kind == 3 && b.index == c then max m b.size else m) m) 0) / 256

/-- The lines a cluster's shared cache holds, the most recently used first. -/
def linesOf (s : State) (c : Nat) : List Nat := (look c s.lines).getD []

/-- The line of 256 bytes an address lies in. -/
def lineOf (s : State) (dva : Nat) : Option Nat := (translate s dva).map (· / 256)

/-- The cluster of a stream's consumer: that of the pad or store that holds its slots, or of the store a PREFETCH names (R299). -/
def consumerCluster (p : Option Plan) (d : StreamDesc) : Option Nat :=
  (if d.kind = 3 then sideBase p d.dstKind d.dstAbs 0 else slotBase p d).bind fun a =>
    let o := a % 2 ^ 53
    match a / 2 ^ 53 with
    | 3 => some (o / 2 ^ 32 * 12 + o / 2 ^ 28 % 16)
    | 4 => some (o / 2 ^ 24 / 8)
    | _ => none

/-- Lines read into a cluster's shared cache, the least recently used leaving it (R314). -/
def fillLines (c : Option Nat) (ls : List Nat) (s : State) : State :=
  match c with
  | none => s
  | some c =>
    let ls := dedup ls
    let new := (ls ++ (linesOf s c).filter fun l => !ls.contains l).take (lineLimit s c)
    { s with lines := if new.isEmpty then del c s.lines else put c new s.lines }

/-- The lines of a range written by the host leave every cluster's cache (R315). -/
def dropLines (dva n : Nat) (s : State) : State :=
  let gone := ((spans dva n).filterMap fun e => lineOf s e.1)
  { s with lines := s.lines.map fun e => (e.1, e.2.filter fun l => !gone.contains l) }

/-- A read with SD_CACHE finds its line in the cache of the consumer's cluster (R314). -/
def lineHit (s : State) (k : Nat × Nat) (x : Stream) (dva : Nat) : Bool :=
  x.desc.cache && (consumerCluster (streamPlan s k) x.desc).any fun c => (lineOf s dva).any fun l => (linesOf s c).contains l

/-- Another reader of the same cluster has fetched the line and waits for it (R314). -/
def lineComing (s : State) (k : Nat × Nat) (x : Stream) (dva : Nat) : Bool :=
  let c := consumerCluster (streamPlan s k) x.desc
  x.desc.cache && c.any (fun c => lineLimit s c != 0) && s.streams.any fun e =>
    e.2.desc.cache && consumerCluster (streamPlan s e.1) e.2.desc == c && e.2.transfers.any fun t => lineOf s t.dva == lineOf s dva

/-! ### TILE_BEGIN (R302) -/

/-- The distinct ABSENT pages under a walk's tile (R320). -/
def absentPages (s : State) (base : Nat) (d : StreamDesc) (tile : Nat) : List Nat :=
  let rows := (List.range (tileRows d)).flatMap fun r =>
    (List.range (d.d0 / pageBytes + 2)).map fun i => walkDva base d tile (r * d.d0 + min (d.d0 - 1) (i * pageBytes))
  dedup (rows.filterMap fun a => match access s a 1 with | .absent p => some p | _ => none)

/-- The tiles that the consumer has taken, the one it is reading among them (R302). -/
def takenTiles (x : Stream) : Nat := x.taken + b2n (x.tailOff != 0)

/-- A read stream may begin its next tile: the consumer has taken the one that lies its look-ahead behind, and the slot is FREE (R302). -/
def mayBegin (x : Stream) : Bool :=
  decide (x.nextTile < takenTiles x + lookAhead x.desc) && x.slot (x.nextTile % (x.desc.ring + 1)) == Slot.free

/-- TILE_BEGIN: a read stream begins its next tile; the tile of a PREFETCH stream is read at once into the shared cache (R299, R320). Where
the host is the consumer and what it must have taken is still there, it takes the slot at the tail (assumption log 118). -/
def execTileBegin (r : StreamRef) (s : State) : Host.Outcome State Fault Refusal :=
  let k := (refKey r)
  match stream? s k with
  | none => .next s
  | some x =>
    let p := streamPlan s k
    let x := restartMargin p x
    let n := x.desc.ring + 1
    let host : Bool := k.1 == 255
    if x.desc.write || !mayWork s k x || x.desc.kind == 1 || x.desc.kind == 2 then .next s
    else if x.desc.kind = 3 then
      match walkBaseDva p x.desc with
      | none => .next s
      | some b =>
        if x.state != .running || !tilesLeft p x || !mayTransfer s k x then .next s
        else
          let tile := x.nextTile - x.walkBase
          let skip := (absentPages s b x.desc tile).filter fun n => !x.skipPages.contains n
          let x := { x.tileDone with nextTile := x.nextTile + 1, taken := x.taken + 1, skipped := x.skipped + skip.length,
                                     skipPages := x.skipPages ++ skip }
          let s := fillLines (consumerCluster p x.desc) ((List.range (tileBytes x.desc / 256 + 2)).flatMap fun i =>
            (lineOf s (walkDva b x.desc tile (min (tileBytes x.desc - 1) (i * 256)))).toList) s
          .next (setStream k (if !x.desc.persist && walkEnded x then { x with state := .done } else x) s)
    else
      let open' : Bool := x.state == .running && tilesLeft p x
      let y := if host && !(open' && mayBegin x) then hostTake x else x
      if !open' || !mayBegin y then .next (if host then setStream k y s else s)
      else
        let y := (y.slotMod (y.nextTile % n) fun _ => { Slot.free with tile := y.nextTile + 1 })
        .next (setStream k { y with nextTile := y.nextTile + 1, head := (y.nextTile + 1) % n } s)

/-! ### TRANSFER_ISSUE (R310, R313, R316) -/

/-- The slot whose bytes are issued next: the lowest tile begun in a read stream, the one DRAINING in a write stream. -/
def issueSlot (x : Stream) : Option Nat :=
  let size : Slot → Nat := fun sl => if x.desc.write then sl.bytes else tileBytes x.desc
  let open' : Slot → Bool := fun sl => sl.tile != 0 && decide (sl.issued < size sl) &&
    (if x.desc.write then sl.state == .draining else sl.state == .free || sl.state == .filling)
  (List.range x.slots.length).foldl (fun m i =>
    if open' (x.slot i) then
      match m with
      | some j => if (x.slot i).tile < (x.slot j).tile then some i else m
      | none => some i
    else m) none

/-- The address of the next transfer of a stream on its walk. -/
def nextDva (s : State) (k : Nat × Nat) (x : Stream) : Option Nat :=
  match issueSlot x, walkBaseDva (streamPlan s k) x.desc with
  | some i, some base => some (walkDva base x.desc ((x.slot i).tile - 1 - x.walkBase) (readOf x.desc (x.slot i).issued))
  | _, _ => none

/-- A stream has something to issue now: a transfer within its tags and its SD_OUTSTANDING, over links that carry it (R30, R310, R314); slices
and compressed bytes leave their slots by drains (R138, R332). -/
def canIssue (s : State) (k : Nat × Nat) (x : Stream) : Bool :=
  x.state == .running && x.desc.kind == 0 && !(x.desc.write && (x.desc.codec != 0 || (x.desc.param != 0xffffffff && k.1 != 255))) && decide (x.transfers.length ≤ x.desc.outstanding) && (freeTag s x).isSome && mayWork s k x &&
    (nextDva s k x).any fun a => pathUp s k x a && !lineComing s k x a

/-- A bandwidth unit an address lies in, by a number of its own: a controller, a Reservoir, a cluster store or a pad direction (Table 2-4). -/
def bandAt (s : State) (out : Bool) (dva : Nat) : Nat :=
  match translate s dva with
  | none => 0
  | some a =>
    let o := a % 2 ^ 53
    match a / 2 ^ 53 with
    | 1 => 1000 + o / dieHbm s.variant * 4 + frameController (o / pageBytes)
    | 2 => 2000 + o / 2 ^ 33
    | 3 => 3000 + o / 2 ^ 32 * 12 + o / 2 ^ 28 % 16
    | _ => 4000 + 2 * (o / 2 ^ 24) + b2n out

/-- The bandwidth units that the next transfer of a stream draws on: those of its walk and its slots, and the links between them and its unit
(R313). -/
def bandsOf (s : State) (k : Nat × Nat) (x : Stream) : List Nat :=
  let ends := [((nextDva s k x).getD (2 ^ 57), !x.desc.write), (slotDva (streamPlan s k) x.desc ((issueSlot x).getD 0), x.desc.write)]
  ends.flatMap fun e =>
    let d := (dvaDie s e.1).getD (uidDie x.unit)
    bandAt s e.2 e.1 :: (if d = uidDie x.unit then [] else [5000 + if e.2 then d * 4 + uidDie x.unit else uidDie x.unit * 4 + d])

/-- Two streams compete for one issue: at a stream engine or Feed side, or at a bandwidth unit (R313). -/
def competes (s : State) (a b : (Nat × Nat) × Stream) : Bool :=
  a.2.unit == b.2.unit || (bandsOf s a.1 a.2).any fun u => u != 0 && (bandsOf s b.1 b.2).contains u

/-- How far a stream's buffer is from running dry (R313). -/
def dryness (x : Stream) : Nat :=
  if x.desc.write then x.desc.slotBytes * (x.slots.filter fun sl => sl.state == .free).length
  else (x.slots.foldl (fun a sl => a + (if sl.state == .ready || sl.state == .truncated then sl.bytes else 0)) 0) - x.tailOff +
    x.transfers.foldl (fun a t => a + t.len) 0

/-- The release offset of a ruled stream. -/
def streamOffset (s : State) (k : Nat × Nat) : Nat :=
  ((streamPlan s k).bind fun p => (p.image.certs.find? fun c => c.kind == 2 && c.unitKind == 7 && c.index == k.2).map (·.release)).getD 0

/-- The order of R313 among streams that compete. -/
def issuesBefore (s : State) (a b : (Nat × Nat) × Stream) : Bool :=
  let key : (Nat × Nat) × Stream → List Nat := fun e => [b2n (!e.2.ruled), dryness e.2, streamOffset s e.1, e.1.1, e.1.2]
  decide (key a < key b)

/-- A stream is the next to issue at its unit and at the bandwidth units of its transfer. -/
def issuesNext (s : State) (k : Nat × Nat) (x : Stream) : Bool :=
  canIssue s k x && s.streams.all fun e => e.1 == k || !competes s e (k, x) || !canIssue s e.1 e.2 || !issuesBefore s e (k, x)

/-- The bytes of the next transfer: within one aligned 256-byte block and one dimension-0 row; one element for TRANSPOSE (R310, R321). -/
def spanOf (d : StreamDesc) (b dva limit : Nat) : Nat :=
  let n := min (256 - dva % 256) (limit - b)
  if d.layout = 3 then min n (2 ^ d.elem - b % 2 ^ d.elem) else min n (d.d0 - b % max 1 d.d0)

/-- PG_FAULTED of a page kept as the halted streams have it (R316, R318). -/
def refreshFaulted (page : Nat) (s : State) : State :=
  match look page s.pages with
  | none => s
  | some p =>
    let waits := s.streams.any fun e => e.2.state == .halted && e.2.fault.any fun f => f.dva / pageBytes == page
    { s with pages := put page { p with faulted := waits } s.pages }

/-- A margin stream halted before a transfer on an ABSENT page (R316). -/
def haltStream (k : Nat × Nat) (x : Stream) (i dva : Nat) (s : State) : State :=
  let sl := x.slot i
  let tile := sl.tile - 1
  let w := walkIndex x.desc (tile - x.walkBase) (readOf x.desc sl.issued)
  let f : FaultRec := ⟨dva, w.1, w.2.1, w.2.2.1, w.2.2.2, sl.issued, tile, i, if x.desc.write then 2 else 1⟩
  let s := refreshFaulted (dva / pageBytes) (setStream k { x with state := .halted, fault := some f } s)
  emitErr { cls := 3, code := 1, unit := x.unit, pos := dva, count := 0, plan := k.1, named := false, test := false } s

/-- The place in its slot of the byte of a tile that is read as the `b`-th (R321): TRANSPOSE fills the slot in order. -/
def placeOf (d : StreamDesc) (b : Nat) : Nat :=
  let w := 2 ^ d.elem
  let e0 := max 1 (d.d0 / w)
  let r := b / max 1 d.d0
  let e := b % max 1 d.d0 / w
  let rest := b % w
  match d.layout with
  | 1 => r * d.d0 + (e0 - 1 - e) * w + rest
  | 2 => r * d.d0 + (e + e0 - d.rot % e0) % e0 * w + rest
  | _ => b

/-- The ranges of a slot that bytes of a tile take. -/
def placeRanges (d : StreamDesc) (off n : Nat) : List (Nat × Nat) :=
  if d.layout = 1 || d.layout = 2 then (List.range n).map fun i => (placeOf d (off + i), 1) else [(off, n)]

/-- Bytes of a tile from offset `off` placed in a ring slot. -/
def placeBytes (d : StreamDesc) (slotDva off : Nat) (bs : Bytes) (s : State) : State :=
  if d.layout = 0 then writeHeld s (slotDva + off) bs
  else ((List.range bs.length).zip bs).foldl (fun s e => writeHeld s (slotDva + placeOf d (off + e.1)) [e.2]) s

/-- A slot's committed bytes grown by a finished piece; a read slot with all its bytes is READY (R302), a drained write slot FREE
(R303). -/
def commitPiece (k : Nat × Nat) (i len : Nat) (s : State) : State :=
  match stream? s k with
  | none => s
  | some x =>
    let sl := { x.slot i with committed := (x.slot i).committed + len }
    let n := x.desc.ring + 1
    if x.desc.write then
      if sl.committed < sl.bytes then setStream k (x.slotMod i fun _ => sl) s
      else
        let y := if x.state == .cancelled || x.state == .aborted then { x with done := x.done + b2n (x.state == .aborted) } else x.tileDone
        let y := y.slotMod i fun _ => Slot.free
        let y := if x.state == .cancelled then y else { y with tail := (i + 1) % n, taken := x.taken + 1 }
        setStream k y.settleWrite s
    else if sl.state == .truncated then setStream k (x.slotMod i fun _ => { sl with bytes := sl.committed }) s
    else if sl.committed < tileBytes x.desc then setStream k (x.slotMod i fun _ => sl) s
    else
      let x := (x.slotMod i fun _ => { sl with state := .ready, bytes := tileBytes x.desc }).tileDone
      slotSignal k x (setStream k x s)

/-- One transfer issued, or its piece handled at once where it is out of range (R293). -/
def issueAt (k : Nat × Nat) (x : Stream) (i : Nat) (s : State) : State :=
  let p := streamPlan s k
  let sl := x.slot i
  match walkBaseDva p x.desc, freeTag s x with
  | some base, some tag =>
    let tile := sl.tile - 1 - x.walkBase
    let dva := walkDva base x.desc tile (readOf x.desc sl.issued)
    let n := spanOf x.desc sl.issued dva (if x.desc.write then sl.bytes else tileBytes x.desc)
    let st := if x.desc.write then SlotState.draining else .filling
    match access s dva n with
    | .absent _ => if x.ruled then s else haltStream k x i dva s
    | .out =>
      let first := sl.badRanges.isEmpty
      let x := x.slotMod i fun sl => { sl with state := st, issued := sl.issued + n,
                                                   badRanges := sl.badRanges ++ placeRanges x.desc sl.issued n }
      let s := setStream k x s
      let s := if x.desc.write then s else placeBytes x.desc (slotDva p x.desc i) sl.issued (zeros n) s
      let s := if first then streamBlot k x (if x.desc.write then 0x72 else 0x71) sl.issued (sl.tile - 1) 1 s else s
      commitPiece k i n s
    | .ok =>
      let x := x.slotMod i fun sl => { sl with state := st, issued := sl.issued + n }
      if lineHit s k x dva then
        let s := fillLines (consumerCluster p x.desc) (lineOf s dva).toList (placeBytes x.desc (slotDva p x.desc i) sl.issued (readDva s dva n) (setStream k x s))
        commitPiece k i n s
      else
      setStream k { x with transfers := x.transfers ++ [⟨tag, i, sl.issued, n, dva, s.clk.cycle, false⟩] } s
  | _, _ => s

/-- The report of a slot whose `n` bytes lie out of range (R293): under 0x71 where they are read, under 0x72 where they are written. -/
def slotReport (k : Nat × Nat) (x : Stream) (i n reason : Nat) (s : State) : State :=
  if rangeOut s (slotDva (streamPlan s k) x.desc i) n then streamBlot k x reason 0 ((x.slot i).tile - 1) 1 s else s

/-- The ring's part of a slot out of range: bytes read from it are zeros, bytes put there are lost, and the tile's first transfer reports
it (R293). -/
def ringReport (k : Nat × Nat) (x : Stream) (i : Nat) (s : State) : State :=
  if (x.slot i).issued ≠ 0 then s
  else if x.desc.write then slotReport k x i (x.slot i).bytes 0x71 s else slotReport k x i (tileBytes x.desc) 0x72 s

/-- One packet of a queue taken into a slot (R304), with the automatic release and the waiters of the queue as for every consumer of packets
(R365, R366), put in order as SD_LAYOUT says over its own bytes. A queue that the stream may not reach gives zero bytes (R293, assumption
log 198). -/
def packetTile (k : Nat × Nat) (x : Stream) (i q : Nat) (s : State) : State :=
  let place : Bytes → State → State := fun bs s =>
    placeBytes { x.desc with d0 := bs.length } (slotDva (streamPlan s k) x.desc i) 0 bs (slotReport k x i bs.length 0x72 s)
  let tile := (x.slot i).tile - 1
  if !queueHeld s q then
    let len := min x.desc.d0 x.desc.slotBytes
    let y := (x.slotMod i fun sl => { sl with state := .ready, bytes := len, badRanges := [(0, len)] }).tileDone
    slotSignal k y (streamBlot k y 0x71 0 tile 1 (setStream k y (place (zeros len) s)))
  else match takePacket q s with
  | none => queueWait q ⟨x.unit, 0, 0, .stream k.1 k.2⟩ s
  | some (bytes, s) =>
    let s := place (bytes.take x.desc.slotBytes) s
    let long := decide (x.desc.slotBytes < bytes.length)
    let sl := { x.slot i with state := if long then .truncated else .ready, bytes := min bytes.length x.desc.slotBytes }
    let x := (x.slotMod i fun _ => sl).tileDone
    let s := setStream k x s
    if long then streamBlot k x 0x73 0 tile 1 s else slotSignal k x s

/-- TRANSFER_ISSUE: the stream issues its next transfer if it is its turn at its unit; a stream fed by a queue takes its next packet, in
which it is told what the pool's check finds (assumption log 204). -/
def execTransferIssue (t : StreamTake) (s : State) : Host.Outcome State Fault Refusal :=
  let k := (refKey t.st)
  match stream? s k with
  | none => .next s
  | some x =>
    match issueSlot x with
    | none => .next s
    | some i =>
      if x.state != .running || x.desc.kind != 0 then .next s
      else match walkQueue (streamPlan s k) x.desc with
      | some q => .next (if x.desc.write || !mayTransfer s k x then s else shareEnd k (packetTile k x i q (checkHead q t.badWord t.corrected.toNat s)))
      | none => .next (if issuesNext s k x then shareEnd k (issueAt k x i (ringReport k x i s)) else s)

/-! ### TRANSFER_COMPLETE (R294, R310, R461) -/

/-- A word of the transfer lost (Table 15-4): its bytes deliver zero and the groups they touch are blotted under reason 0x01. -/
def loseWord (k : Nat × Nat) (x : Stream) (t : Transfer) (tagFail : Bool) (s : State) : State :=
  let hbm := match translate s t.dva with | some a => decide (a / 2 ^ 53 = 1) | none => false
  let unit := match translate s t.dva with
    | some a => if a / 2 ^ 53 = 1 then uid (a % 2 ^ 53 / dieHbm s.variant) 12 1 (frameController (a % 2 ^ 53 / pageBytes)) 0 else x.unit
    | none => x.unit
  let s := if tagFail && hbm then
      emitErr { cls := 7, code := 1, unit := sealUid, pos := ((translate s t.dva).getD 0) % 2 ^ 53, count := 0, plan := k.1, named := false, test := false } s
    else s
  let s := emitErr { cls := 3, code := 4, unit := unit, pos := t.dva, count := 0, plan := k.1, named := false, test := true } s
  if x.desc.write then s
  else emitBlot { reason := 1, plan := k.1, source := k.2, field := 0xffff, offset := t.off, record := (x.slot t.slot).tile - 1, count := 1 }
    (setStream k (x.slotMod t.slot fun sl => { sl with badRanges := sl.badRanges ++ placeRanges x.desc t.off t.len }) s)

/-- TRANSFER_COMPLETE: a transfer's bytes are committed and its tag returns. `lost` tells that a word could not be corrected, `tagFail`
that an integrity tag failed. -/
def execTransferComplete (r : StreamRef) (tag : BitVec 11) (lost tagFail : Bool) (s : State) : Host.Outcome State Fault Refusal :=
  let k := (refKey r)
  match stream? s k with
  | none => .next s
  | some x =>
    match x.transfers.find? fun t => t.tag == tag.toNat with
    | none => .next s
    | some t =>
      let x := { x with transfers := x.transfers.erase t }
      let s := setStream k x s
      if t.drop then .next s
      else
        let p := streamPlan s k
        let bad := lost || tagFail
        let s := if bad then loseWord k x t tagFail s else s
        let ring := slotDva p x.desc t.slot
        let s := if x.desc.write then (if bad then s else
              let s := writeFree s t.dva (readHeld s (ring + t.off) t.len)
              if k.1 = 255 then dropLines t.dva t.len s else s)
          else placeBytes x.desc ring t.off (if bad then zeros t.len else readDva s t.dva t.len) s
        let s := if x.desc.cache && !bad then fillLines (consumerCluster p x.desc) (lineOf s t.dva).toList s else s
        .next (shareEnd k (commitPiece k t.slot t.len s))

/-- The latency of Table 2-4 from a die to the tier an address lies in. -/
def tierLatency (s : State) (die dva : Nat) : Nat :=
  match translate s dva with
  | none => 600
  | some a =>
    let o := a % 2 ^ 53
    match a / 2 ^ 53 with
    | 1 => if o / dieHbm s.variant = die then 600 else 800
    | 2 => if o / 2 ^ 33 = die then 160 else 320
    | 3 => 40
    | _ => 12

/-- STR_TAG_LATE: a ruled transfer passes its bound (R311): 2,280 cycles, or the latency of the farthest tier on its path. -/
def execStrTagLate (r : StreamRef) (tag : BitVec 11) (s : State) : Host.Outcome State Fault Refusal :=
  let k := (refKey r)
  match stream? s k with
  | none => .next s
  | some x =>
    match x.transfers.find? fun t => t.tag == tag.toNat with
    | none => .next s
    | some t =>
      if !x.ruled then .next s
      else
        let die := uidDie x.unit
        let bound := if x.desc.priv then 2280
          else max (tierLatency s die t.dva) (tierLatency s die (slotDva (streamPlan s k) x.desc t.slot))
        let s := advanceTo (t.issuedAt + bound + 1) s
        .next (emitErr { cls := 3, code := 2, unit := x.unit, pos := 0, count := s.clk.cycle - (t.issuedAt + bound), plan := k.1, named := true,
                         test := true } s)

/-! ### Ending a stream (R318, R319) -/

/-- A stream aborted (R318). -/
def abortStream (k : Nat × Nat) (s : State) : State :=
  match stream? s k with
  | none => s
  | some x =>
    let part : Slot → Slot := fun sl =>
      if x.desc.write then
        if sl.state == .draining then { sl with bytes := sl.issued } else sl
      else if sl.state == .free && sl.tile != 0 then Slot.free
      else if sl.state == .filling then { sl with state := .truncated, bytes := sl.committed }
      else sl
    let begun := if x.desc.write then 0 else (x.slots.filter fun sl => sl.state == .free && sl.tile != 0).length
    let slots := x.slots.map part
    let slots := slots.map fun sl => if x.desc.write && sl.state == .draining && sl.committed == sl.bytes then Slot.free else sl
    let s := setStream k { x with slots := slots, state := .aborted, nextTile := x.nextTile - begun,
                                  head := (x.nextTile - begun) % (x.desc.ring + 1) } (dropStreamWaits k s)
    match x.fault with
    | some f => refreshFaulted (f.dva / pageBytes) s
    | none => s

/-- A stream's work cancelled (R319): reads in flight drop their data, writes in flight complete. -/
def cancelStream (k : Nat × Nat) (s : State) : State :=
  match stream? s k with
  | none => s
  | some x =>
    let busy : Nat → Bool := fun i => x.desc.write && x.transfers.any fun t => t.slot == i
    let slots := ((List.range x.slots.length).zip x.slots).map fun e => if busy e.1 then { e.2 with bytes := e.2.issued } else Slot.free
    let ts := x.transfers.map fun t => { t with drop := !x.desc.write }
    let i := x.nextTile % x.slots.length
    let x := { x with slots := slots, transfers := ts, taken := x.nextTile, done := x.nextTile, tailOff := 0, head := i, tail := i }
    let s := setStream k { x with state := .cancelled, owed := 0, overrun := none } (dropStreamWaits k s)
    match x.fault with
    | some f => refreshFaulted (f.dva / pageBytes) s
    | none => s

/-! ### Commands (Table 13-8) -/

/-- STR_STATE (Table 9-6). -/
def strState : StrState → Nat
  | .idle => 0 | .running => 1 | .halted => 2 | .done => 3 | .aborted => 4 | .cancelled => 5

/-- SLOT_STATE (Table 9-5). -/
def slotState : SlotState → Nat
  | .free => 0 | .filling => 1 | .ready => 2 | .truncated => 3 | .draining => 4

/-- STR_STATUS (Table 9-6). -/
def strStatus (x : Stream) : Nat :=
  let ready := (x.slots.filter fun sl => sl.state == .ready || sl.state == .truncated).length
  pack [(7, 0), (5, ready), (4, x.tail), (4, x.head), (3, strState x.state), (9, x.transfers.length), (32, x.tiles)]

/-- The fields of a command that names a stream: the slot, and a stream there. -/
def streamBad (s : State) (r : StreamRef) : List (Nat × Bool) :=
  [(0, decide (63 < r.slot.toNat) && r.slot != 0xff), (2, (stream? s (refKey r)).isNone)]

/-- STREAM_READ (R305). -/
def execStreamRead (q : Req) (r : StreamRef) (s : State) : Host.Outcome State Fault Refusal :=
  .next (goust q (icmd 0x0307 8 (streamBad s r) fun s =>
    match stream? s (refKey r) with
    | none => .fail St.malformed 34
    | some x => .ok s (le 8 (strStatus x) ++ (List.range 16).flatMap fun i =>
        let sl := x.slot i
        le 4 (pack [(24, sl.bytes), (3, slotState sl.state), (5, 0)]))) s)

/-- A fault record's bytes (Table 9-9). -/
def faultBytes (k : Nat × Nat) (x : Stream) (f : FaultRec) : Bytes :=
  le 32 (pack [(16, x.unit.toNat), (18, 0), (2, f.cause), (4, f.slot), (8, k.1), (16, k.2), (32, f.tile), (24, f.committed), (24, f.i0),
    (16, f.i1), (16, f.i2), (16, f.i3), (7, 0), (57, f.dva)])

/-- STREAM_FAULT_READ (R317). -/
def execStreamFaultRead (q : Req) (r : StreamRef) (s : State) : Host.Outcome State Fault Refusal :=
  .next (goust q (icmd 0x0309 8 (streamBad s r) fun s =>
    match stream? s (refKey r) with
    | none => .fail St.malformed 34
    | some x => match x.state, x.fault with
      | .halted, some f => .ok s (faultBytes (refKey r) x f)
      | st, _ => .fail St.streamState (strState st)) s)

/-- STREAM_RESUME (R317): the saved position is translated again. -/
def execStreamResume (q : Req) (r : StreamRef) (s : State) : Host.Outcome State Fault Refusal :=
  .next (goust q (icmd 0x030A 8 (streamBad s r) fun s =>
    match stream? s (refKey r) with
    | none => .fail St.malformed 34
    | some x => match x.state, x.fault with
      | .halted, some f =>
        match access s f.dva 1 with
        | .absent _ => .ok (emitErr { cls := 3, code := 1, unit := x.unit, pos := f.dva, count := 0, plan := (refKey r).1, named := false,
                                      test := false } s) []
        | _ => .ok (refreshFaulted (f.dva / pageBytes) (setStream (refKey r) { x with state := .running, fault := none } s)) []
      | st, _ => .fail St.streamState (strState st)) s)

/-- STREAM_ABORT (R318). -/
def execStreamAbort (q : Req) (r : StreamRef) (s : State) : Host.Outcome State Fault Refusal :=
  .next (goust q (icmd 0x030B 8 (streamBad s r) fun s =>
    match stream? s (refKey r) with
    | none => .fail St.malformed 34
    | some x => if x.state == .running || x.state == .halted then .ok (abortStream (refKey r) s) [] else .fail St.streamState (strState x.state)) s)

/-- STREAM_CANCEL (R319). -/
def execStreamCancel (q : Req) (r : StreamRef) (s : State) : Host.Outcome State Fault Refusal :=
  .next (goust q (icmd 0x030C 8 (streamBad s r) fun s =>
    match stream? s (refKey r) with
    | none => .fail St.malformed 34
    | some x =>
      if x.state == .running || x.state == .halted || x.state == .idle then .ok (cancelStream (refKey r) s) []
      else .fail St.streamState (strState x.state)) s)

end Sys2Proof.Machine
end

