-- ==== Sys2Proof/Machine/Costs.lean ====
section
/-! DEFINITION. The worst-case costs of ruled work (R60 to R62, Table 2-3, and the figures of the home chapters). -/

namespace Sys2Proof.Machine

/-- A tier's latency in CCLK cycles by STG_SRC_TIER (Tables 2-4 and 3-7). -/
def tierCycles : Nat → Nat
  | 0 => 12 | 1 => 40 | 2 => 160 | 3 => 320 | 4 => 600 | _ => 800

/-- The sum of a list. -/
def total (l : List Nat) : Nat := l.foldl (· + ·) 0

/-- The tier a bound resource lies in, as seen from a die (R61, Table 2-4). -/
def boundTier (die : Nat) (b : Bound) : Nat :=
  match b.kind with
  | 1 => 0
  | 4 => if b.index = die then 2 else 3
  | 5 => if b.index = die then 4 else 5
  | _ => 1

/-- The resource of an abstract id under a stream's kind code: a reference stands for its region (Table 9-4). -/
def sideBound (p : Plan) (kind abs : Nat) : Option Bound :=
  if kind = 0xf then (refOf p abs).bind fun r => boundOf p 5 r.hbm else boundOf p kind abs

/-- The tier of a side of a stream, as seen from a die. -/
def sideTier (p : Plan) (die kind abs : Nat) : Nat := ((sideBound p kind abs).map (boundTier die)).getD 0

/-- The ring's side of a stream. -/
def ringSide (d : StreamDesc) : Nat × Nat := if d.write then (d.srcKind, d.srcAbs) else (d.dstKind, d.dstAbs)

/-- The side of a stream that its slots lie on. -/
def slotSide (d : StreamDesc) : Nat × Nat :=
  if (ringSide d).1 = 6 then (if d.write then (d.dstKind, d.dstAbs) else (d.srcKind, d.srcAbs)) else ringSide d

/-- The walked side of a stream. -/
def walkSide (d : StreamDesc) : Nat × Nat := if d.write then (d.dstKind, d.dstAbs) else (d.srcKind, d.srcAbs)

/-- The tier of a ligature's first read: STG_SRC_TIER gives the memory, and binding the die on which the stage's resource lies in it, the nearest
where it lies on several (R61). -/
def firstTier (p : Plan) (die : Nat) (st : Stage) : Nat :=
  let bs : List Bound :=
    if st.engine = 6 then
      match p.image.streams[st.param]? with
      | some d => (sideBound p (slotSide d).1 (slotSide d).2).toList
      | none => []
    else if st.engine = 4 then
      (refOf p (gatherAt p.image.blob st.param).table).toList.flatMap fun r =>
        p.bound.filter fun b => (b.kind == 5 && b.absId == r.hbm) || (b.kind == 4 && b.absId == (tableDesc p r).resPart)
    else []
  let ts := (bs.map (boundTier die)).filter fun t => 2 ≤ t && t / 2 == st.srcTier / 2
  if ts.isEmpty then st.srcTier else ts.foldl min 5

/-! ### Stages (Table 2-3) -/

/-- A stage as the fit check meets it: its plan, its ligature, its place in the chain, its input bytes per group. -/
structure CostCtx where
  p : Plan
  lig : Ligature
  k : Nat
  st : Stage
  inLen : Nat
  die : Nat

/-- The column types a stage reads. -/
def CostCtx.types (c : CostCtx) : ColTypes := typesBefore c.p.image (c.lig.stages.take c.k)

/-- The bytes per row of a column that a predicate's leaves read: by a leaf's own format (R156), 0 for variable binary, or, for a column that
only IS_NULL and IS_BLOT leaves name, as the image fixes its type; none where nothing does. -/
def leafColumn (c : CostCtx) (given : List (Nat × Nat)) (col : Nat) : Option Nat :=
  match given.find? fun e => e.1 == col with
  | some e => some (typeBytes e.2)
  | none => (c.types col).map fun t => typeBytes t.1 * t.2

/-- The bytes per group of the columns a predicate's leaves read (R151): a column whose width nothing gives counts as the stage's input range,
and a variable binary one adds 4 bytes of offset a row (assumption log 73). -/
def leafBytes (c : CostCtx) (b : PredBlock) : Nat :=
  let given : List (Nat × Nat) := b.tree.flatMap fun n =>
    if n.kind = 1 then (n.col, n.fmt) :: (if n.col2 = 0xffff then [] else [(n.col2, n.fmt)])
    else if n.kind = 2 then [(n.col, 0xf)] else []
  let bare := (b.tree.filter fun n => n.kind == 3 || n.kind == 4).map (·.col)
  let ws := (dedup (given.map (·.1) ++ bare)).map (leafColumn c given)
  if c.lig.maxRows != 0 && ws.all (fun w => w.any (· != 0)) then c.lig.maxRows * total (ws.map (·.getD 0))
  else c.inLen + 4 * c.lig.maxRows * (ws.filter (· == some 0)).length

/-- The Fill of a stage (Table 2-3). -/
def fillOf (engine : Nat) : Nat := match engine with | 0 => 40 | 1 => 48 | 2 => 40 | 3 => 32 | 4 => 48 | 5 => 96 | _ => 40

/-- The key bytes of a HASH stage for one group (R151, R162): 8 bytes a row for identity; else the key columns' bytes where the image fixes
their types, and the input range where it does not (assumption log 73). -/
def hashKeyBytes (c : CostCtx) (h : HashBlock) : Nat :=
  if h.func = 0 then 8 * c.lig.maxRows
  else match fixedWidth c.types h.cols with
    | some w => w * c.lig.maxRows
    | none => c.inLen

/-- The HASH row of Table 2-3 with its bucket row (R151). -/
def hashCost (c : CostCtx) (h : HashBlock) : Nat :=
  let n := hashKeyBytes c h * c.lig.groups
  let v := c.lig.maxRows * h.ncols * c.lig.groups
  let row := if h.func = 3 then 2 * ceilDiv n 64 else ceilDiv n 64
  let bnd := match refOf c.p h.table with | some r => leAt (refDesc c.p r 2) 0 2 | none => 0
  match h.reduce with
  | 0 => row
  | 3 => row + ceilDiv v 8 * (Nat.log2 bnd + 1)
  | 4 => ceilDiv v 8
  | _ => row + ceilDiv v 8

/-- The source cores of a group operation. -/
def partialCores (p : Plan) (table : Nat) : Nat :=
  (dedup ((tableUsers p 4 table).filterMap fun i => (ligOf p i).map (·.core))).length

/-- The key count of a join or group stage over a release (R151, R512). -/
def joinCount (c : CostCtx) (j : JoinBlock) : Nat :=
  if c.st.op = 5 then j.maxRows * partialCores c.p j.table else c.lig.maxRows * c.lig.groups

/-- The Hash engine's cost. -/
def hashEngineCost (c : CostCtx) : Nat :=
  let j := joinAt c.p.image.blob c.st.param
  let k := joinCount c j
  match c.st.op with
  | 1 => hashCost c (hashAt c.p.image.blob c.st.param)
  | 2 => 6 * k
  | 3 => k * (4 + 2 * c.st.max)
  | _ => k * (4 + 2 * c.st.max) + 6 * k

/-- The bytes per group of a SHAPE or STATS stage's input columns, the stage's input range where the image does not fix them, and of its
output columns (R190, assumption log 73). -/
def shapeSizes (c : CostCtx) (es : List ShapeEntry) : Nat × Nat :=
  let one : ShapeEntry → Option Nat := fun e => (c.types e.col).map fun t => e.lanes * typeBytes t.1
  let rows := c.lig.maxRows
  let ins := es.map one
  (if rows = 0 || ins.any Option.isNone then c.inLen else rows * total (ins.map (·.getD 0)),
   if rows = 0 then c.st.outLen else rows * total (es.map fun e => e.lanes * typeBytes e.outFmt))

/-- The Shape engine's cost (Table 6-4): QUANTILE adds 8,208 bytes an entry. -/
def shapeCost (c : CostCtx) : Nat :=
  let b := c.p.image.blob
  if c.st.op = 3 then
    let f := 2 ^ (leAt b (c.st.param + 2) 2 % 16)
    c.lig.groups * c.lig.maxRows * (f / 2 * Nat.log2 f / 8 + ceilDiv (4 * f) 64)
  else
    let es := (shapeAt b c.st.param).entries
    let q := (es.filter fun e => e.kind == 3 && e.fn == 4).length
    let z := shapeSizes c es
    let n := z.1 * c.lig.groups + 8208 * q
    if c.st.op = 2 then 2 * ceilDiv n 64 else ceilDiv (max n (z.2 * c.lig.groups)) 64

/-- The dense-layer row for batch rows, outputs and inputs, in the FP8 or INT8 form for those inputs. -/
def denseCost (fmt rows n k : Nat) : Nat :=
  ceilDiv rows 16 * ceilDiv n 32 * (if fmt = 0xa || fmt = 0x9 then k else ceilDiv k 2) + 64

/-- A reference held in the pads (R101). -/
def inPad (p : Plan) (ref : Nat) : Bool := (refOf p ref).any fun r => r.kind == 2 && r.place == 3 && r.pad

/-- The weight bytes of a DENSE layer (R215). -/
def layerWeights (l : Layer) : Nat := l.n * l.k * typeBytes l.wFmt

/-- The Matrix engine's cost for one group (R208, R214, R215). -/
def matrixCost (c : CostCtx) : Nat :=
  let m := matrixAt c.p.image.blob c.st.param
  total ((layersFrom 0 m.layers).map fun e =>
    let l := e.1
    let v := interactVectors l e.2
    if l.kind = 1 then
      denseCost l.inFmt m.rows l.n l.k + (if l.prefetch || inPad c.p l.ref then 0 else ceilDiv (layerWeights l) 256)
    else denseCost l.inFmt (ceilDiv (m.rows * (v * (v - 1) / 2)) 32) 32 l.k)

/-- The Select engine's cost over a release (Tables 8-2 and 8-9). -/
def selectCost (c : CostCtx) : Nat :=
  let b := c.p.image.blob
  let rows := c.lig.maxRows
  let g := c.lig.groups
  let s := selAt b c.st.param
  match c.st.op with
  | 1 => if s.release then c.st.max + 16 else (c.st.max + 16) * rows * g
  | 2 => g * ((s.lists - 1) * (2 * s.k))
  | 3 => (c.st.max + 16) * rows * g
  | 4 =>
    let m := matchAt b c.st.param
    let e := ((boundOf c.p 9 m.region).map (·.size)).getD 0
    g * (8 * rows + 12 + if m.bitmap then rows * ceilDiv e 512 else 0)
  | _ =>
    let steps := rows * c.st.max + rows
    g * (16 * steps + if rows = 1 then 3 * steps else 0)

/-- The Gather engine's cost over a release (Table 7-4). -/
def gatherCost (c : CostCtx) : Nat :=
  let g := gatherAt c.p.image.blob c.st.param
  let d := (refOf c.p g.table).map (tableDesc c.p)
  let stride := (d.map (·.stride)).getD 0
  let per := match c.st.op with
    | 1 => 2
    | 2 => ceilDiv stride 32
    | 3 => ceilDiv stride 16
    | _ => ceilDiv (4 * (d.map (·.dim)).getD 0) 64
  c.st.max * c.lig.groups * per

/-- The Feed row: the larger of the bytes in and out, and the tier: the first read's for stage 0, the ring's after it (R61). -/
def feedCost (c : CostCtx) : Nat :=
  let n := max c.inLen c.st.outLen * c.lig.groups
  let tier := if c.k = 0 then firstTier c.p c.die c.st
    else match c.p.image.streams[c.st.param]? with
      | some d => sideTier c.p c.die (slotSide d).1 (slotSide d).2
      | none => 0
  ceilDiv n 256 + tierCycles tier

/-- A stage's Worst-case cost over a release (R61). -/
def stageCost (c : CostCtx) : Nat :=
  match c.st.engine with
  | 0 =>
    let b := predAt c.p.image.blob c.st.param
    ceilDiv (leafBytes c b * c.lig.groups) 64 * ceilDiv b.leaves 16 + if c.st.op = 2 then ceilDiv (c.st.outLen * c.lig.groups) 64 else 0
  | 1 => hashEngineCost c
  | 2 => shapeCost c
  | 3 => selectCost c
  | 4 => gatherCost c
  | 5 => c.lig.groups * matrixCost c
  | _ => feedCost c

/-- The stages of a ligature with their input lengths. -/
def costStages (p : Plan) (l : Ligature) (die : Nat) : List CostCtx :=
  (List.range l.stages.length).filterMap fun k => (l.stages[k]?).map fun st =>
    ⟨p, l, k, st, if k = 0 then st.inLen else ((l.stages[k - 1]?).map (·.outLen)).getD 0, die⟩

/-- The budget of a ligature (R60). -/
def ligatureBudget (p : Plan) (l : Ligature) : Nat :=
  let die := ((coreOf p l.core).getD 0) / 96
  let cs := costStages p l die
  24 * l.stages.length + total (cs.map fun c => fillOf c.st.engine) + tierCycles ((l.stages.head?.map (firstTier p die)).getD 0) +
    (cs.map stageCost).foldl max 0 + 32

/-! ### Shared tasks -/

/-- The bytes of a stream's walk. -/
def walkBytes (d : StreamDesc) : Nat := tileBytes d * tileCount d

/-- A queue stands in for a side of the stream (R304). -/
def hasQueueSide (d : StreamDesc) : Bool := d.srcKind == 6 || d.dstKind == 6

/-- The column decoder's occupancy for a ruled ingest stream (R132): every row of Table 4-12 that its format allows, over the declared
maxima of its block; repetition levels, definition levels and indices are each a pass of the hybrid row, and a list's elements take a byte
of decoded output each at least (assumption log 74). -/
def decoderCost (p : Plan) (d : StreamDesc) : Nat :=
  let g := ingestAt p.image.blob d.param
  let t := tileCount d
  let m := g.unitCap * t
  let v := g.records * g.fields + m
  let fixed := ceilDiv (m + ceilDiv v 4) 512
  let double := ceilDiv (8 * v) 512
  40 + match g.format with
    | 0 => ceilDiv m 512
    | 1 => 96 * t + fixed + ceilDiv v 64
    | 2 =>
      let byteArray := ceilDiv m 256 + ceilDiv v 8
      let hybrid := 3 * (ceilDiv v 128 + v)
      let lookUp := ceilDiv m 256 + ceilDiv m 128 + ceilDiv v 4
      let delta := ceilDiv v 32 + 4 * ceilDiv v 32
      96 * (t * g.fields) + fixed + byteArray + hybrid + lookUp + delta + double
    | _ => 96 * t + fixed + ceilDiv v 64 + double

/-- The stream engine's Worst-case cost of a stream (Table 9-7), as seen from the engine's die. -/
def streamCost (p : Plan) (die : Nat) (d : StreamDesc) : Nat :=
  if d.kind = 2 then
    match (refOf p d.srcAbs).map (tableDesc p) with
    | some t => t.maxServe * ceilDiv t.stride 256 + ceilDiv t.maxServe 16
    | none => 0
  else
    let w := walkSide d
    let tile := if d.layout = 3 then
        let e := tileBytes d / 2 ^ d.elem
        (if 3 ≤ sideTier p die w.1 w.2 then 4 * e else e) + 16
      else ceilDiv (tileBytes d) 512 + 16
    (if hasQueueSide d then d.n1 * (ceilDiv d.d0 512 + 32) else tile * tileCount d) + if d.kind = 1 then decoderCost p d else 0

/-- The latency of the farthest tier on a stream's path (Table 2-4). -/
def farthest (p : Plan) (die : Nat) (d : StreamDesc) : Nat :=
  max (tierCycles (sideTier p die d.srcKind d.srcAbs)) (tierCycles (sideTier p die d.dstKind d.dstAbs))

/-- The compression engine's Worst-case cost of a stream (Table 4-14): an egress stream's encode, an ingest stream's decode. Each tile ends its
last block with a flush (R140; assumption log 74). -/
def codecCost (p : Plan) (d : StreamDesc) : Nat :=
  let m := walkBytes d
  if d.write then
    let k := ceilDiv (tileBytes d) 65536 * tileCount d
    match d.codec with
    | 1 => ceilDiv m 4 + 600 * k
    | 2 => ceilDiv m 8 + 200 * k
    | _ => ceilDiv m 4 + 300 * k
  else
    let g := ingestAt p.image.blob d.param
    let out := g.unitCap * tileCount d
    let k := ceilDiv out 65536
    let zstd := ceilDiv out 8 + ceilDiv m 16 + 400 * k
    let lz4 := ceilDiv out 16 + ceilDiv m 32 + 120 * k
    let gzip := ceilDiv out 4 + ceilDiv m 8 + 200 * k
    match g.format, g.codec with
    | 0, 0 => 0
    | 0, 1 => zstd
    | 0, 2 => lz4
    | 0, _ => gzip
    | 3, _ => max zstd lz4
    | _, _ => max zstd (max lz4 gzip)

/-- The Worst-case cost of a resize of `pi` input pixels to `w` × `h` (Table 10-5). -/
def resizeCost (area : Bool) (pi w h : Nat) : Nat :=
  if area then ceilDiv pi 4 + ceilDiv (w * h) 2 + 64 else ceilDiv (w * h) 2 + 2 * h + 64

/-- The Worst-case cost of a raster item on a resizer: the rows of the steps it takes (R343, R354). A block that names no JPEG decoder takes raw
rasters, which need channel conversion; an item whose size nothing gives has at most a pixel for each byte of its record (assumption log 210). -/
def rasterCost (m : MediaBlock) (cap : Nat) : Nat :=
  let pre := decide (m.preW ≠ 0) && decide (m.preH ≠ 0)
  let base : Option (Nat × Nat) := if pre then some (m.preW, m.preH) else none
  let crop := if m.cropMode = 0 then base else some (m.cropW, m.cropH)
  (if m.dec = 0xffff then ceilDiv cap 8 else 0) + (if pre then resizeCost (m.filter == 1) cap m.preW m.preH else 0) +
    (if crop = some (m.outW, m.outH) then 0 else resizeCost (m.filter == 1) ((crop.map fun c => c.1 * c.2).getD cap) m.outW m.outH) +
    if m.rot = 0 || m.rot = 2 then 0 else ceilDiv (m.outW * m.outH) 4

/-- A media part's Worst-case cost over a release (Table 10-5): `sub` 0 JPEG decoder, 1 resizer, 2 audio front end. -/
def mediaCost (p : Plan) (d : StreamDesc) (sub abs : Nat) : Nat :=
  let g := ingestAt p.image.blob d.param
  total ((mediaBlocks p.image.blob d.param).map fun m =>
    g.records *
      if m.kind = 1 && sub == 0 && m.dec == abs then 2 * g.recordCap + 48 * ceilDiv g.recordCap 64 + 200
      else if m.kind = 1 && sub == 1 && m.rsz == abs then rasterCost m g.recordCap
      else if m.kind = 2 && sub == 2 && m.dec == abs then
        let n := 2 ^ m.log2N
        let mels := ((refOf p m.mel).map fun r => r.size / (4 * (n / 2 + 1))).getD 0
        m.frames * (n / 2 * m.log2N / 4 + ceilDiv ((n / 2 + 1) * mels) 32 + n / 8 + 64)
      else 0)

/-- The combiner window's Worst-case cost (R247): the updates its plan's ruled UPDATE stages declare, into the entries of the request. -/
def combinerCost (p : Plan) (entries : Nat) : Nat :=
  let ups := (p.image.ligatures.filter (·.ruled)).flatMap fun l => (l.stages.filter fun st => st.engine == 4 && st.op == 4).map fun st => (l, st)
  let desc : Stage → Option TableDesc := fun st => (refOf p (gatherAt p.image.blob st.param).table).map (tableDesc p)
  let u := total (ups.map fun e => e.2.max * e.1.groups * ceilDiv (4 * ((desc e.2).map (·.dim)).getD 0) 256)
  let r := (ups.map fun e => ((desc e.2).map (·.stride)).getD 0).foldl max 0
  u + entries * ceilDiv r 16 + 600

/-- The firmware's figure for a SHARED_TASK on its bound unit (R137, R247, R309, R341). -/
def sharedBudget (p : Plan) (c : Cert) (b : Bound) : Nat :=
  match c.unitKind, p.image.streams[c.index]? with
  | 0xd, _ => combinerCost p b.size + 64 + 32
  | 7, some d => streamCost p (b.index / 8) d + farthest p (b.index / 8) d + 64 + 32
  | 0xb, some d => codecCost p d + 64 + 32
  | 0xc, some d => mediaCost p d b.subkind b.absId + 64 + 32
  | _, _ => 0

end Sys2Proof.Machine
end

