-- ==== Sys2Proof/Machine/BlockChecks.lean ====
section
/-! DEFINITION. Step 5 of R87 on the parameter blocks of stages, and what they name (step 6): the rules of the engines' chapters. -/

namespace Sys2Proof.Machine

/-- The image as its block checks meet it: its bytes, its parse, where the blob section starts, the HBM bytes of a die of this device, and the
images of the bound plans. -/
structure ImgCtx where
  b : Bytes
  m : Image
  blob : Nat
  die : Nat
  others : List Image

/-- A check at a byte of the blob. -/
abbrev Check := Nat × Bool

/-- A structure of `n` bytes at a blob offset lies inside the blob. -/
def ImgCtx.inside (x : ImgCtx) (off n : Nat) : Bool := off + n ≤ x.m.blob.length

/-- Reserved bits of a blob structure. -/
def ImgCtx.rsv (x : ImgCtx) (off : Nat) (fs : RsvFields) : List Check := rsvChecks x.b (x.blob + off) fs

/-- A reference of some kind resolves. -/
def refKindIs (m : Image) (absId kind : Nat) : Bool := m.refs.any fun r => r.absId == absId && r.kind == kind

/-- The reference of an abstract id in an image. -/
def imgRef (m : Image) (absId : Nat) : Option Ref := m.refs.find? fun r => r.absId == absId

/-! ### Predicates (R159) -/

/-- The depth of the evaluation stack before each node, and where it runs short. -/
def stackRun : List PredNode → Nat → Nat × List Bool
  | [], d => (d, [])
  | n :: ns, d =>
    let leaf : Bool := decide (n.kind < 0x10)
    let short := !leaf && decide (d < n.children)
    let r := stackRun ns (if leaf then d + 1 else d - n.children + 1)
    (r.1, short :: r.2)

/-- A column's type is fixed by the image and is another. -/
def typeDiffers (ts : ColTypes) (col fmt : Nat) : Bool := (ts col).any fun t => t.1 != fmt

/-- A node (Table 5-5); a leaf's column has the leaf's format (R156). -/
def predNodeChecks (x : ImgCtx) (ts : ColTypes) (o : Nat) (n : PredNode) : List Check :=
  let leaf : Bool := decide (n.kind < 0x10)
  let str : Bool := (n.kind == 1 && decide (0xe ≤ n.fmt) && n.col2 == 0xffff) || n.kind == 2
  let zero : Bool := n.kind == 3 || n.kind == 4 || decide (0x10 ≤ n.kind) || (n.kind == 1 && n.col2 != 0xffff)
  x.rsv o [(11, 5), (20, 4)] ++
    [(x.blob + o, !([1, 2, 3, 4, 5, 0x10, 0x11, 0x12].contains n.kind)),
     (x.blob + o + 1, if n.kind = 1 then decide (5 < n.cmp) else n.cmp != 0),
     (x.blob + o + 2, (if n.kind = 1 then n.fmt == 0 else if n.kind = 2 then n.fmt != 0xf else n.fmt != 0) ||
        ((n.kind == 1 || n.kind == 2) && (typeDiffers ts n.col n.fmt || (n.col2 != 0xffff && typeDiffers ts n.col2 n.fmt)))),
     (x.blob + o + 3, if leaf then n.children != 0 else if n.kind = 0x12 then n.children != 1 else decide (n.children < 2) || decide (64 < n.children)),
     (x.blob + o + 4, if leaf && n.kind != 5 then n.col == 0xffff else n.col != 0xffff),
     (x.blob + o + 8, (zero && n.const != 0) || (str && (decide (64 < fld 47 32 n.const) || decide (2 ^ 48 ≤ n.const))) ||
        (n.kind == 1 && !str && n.col2 == 0xffff && decide (2 ^ (8 * typeBytes n.fmt) ≤ n.const)) || (n.kind == 5 && decide (2 ^ 32 ≤ n.const)))]

/-- A predicate block (Tables 5-4 and 5-5). -/
def predChecks (x : ImgCtx) (ts : ColTypes) (op o : Nat) : List Check :=
  let p := predAt x.m.blob o
  let run := stackRun p.tree 0
  x.rsv o [(1, 7), (24, 56)] ++
    [(x.blob + o + 1, p.nodes == 0 || decide (127 < p.nodes)),
     (x.blob + o + 2, p.leaves == 0 || decide (64 < p.leaves) || (p.tree.filter fun n => decide (n.kind < 0x10)).length != p.leaves),
     (x.blob + o + 10, decide (1024 < p.cols) || (op == 1 && p.cols != 0))] ++
    ((List.range p.tree.length).flatMap fun i => match p.tree[i]? with
      | some n => predNodeChecks x ts (o + 16 + 16 * i) n ++ [(x.blob + o + 16 + 16 * i + 3, (run.2[i]?).getD false)]
      | none => []) ++ [(x.blob + o + 1, run.1 != 1)]

/-- Offsets a predicate block names. -/
def predNames (x : ImgCtx) (o : Nat) : List Check :=
  let p := predAt x.m.blob o
  [(x.blob + o + 12, p.cols != 0 && !x.inside p.colList (2 * p.cols))] ++
    (List.range p.tree.length).map fun i => match p.tree[i]? with
      | some n => (x.blob + o + 16 + 16 * i + 8, (n.kind == 2 || (n.kind == 1 && decide (0xe ≤ n.fmt) && n.col2 == 0xffff)) &&
          !x.inside (n.const % 2 ^ 32) (fld 47 32 n.const))
      | none => (0, false)

/-! ### Hashes and joins -/

/-- A hash block (Table 5-9, R165 to R168); a boundary table has the format of its column (R167). -/
def hashChecks (x : ImgCtx) (ts : ColTypes) (o : Nat) : List Check :=
  let h := hashAt x.m.blob o
  let desc := if h.reduce = 3 then (imgRef x.m h.table).map (·.desc) else none
  let a := x.blob + o
  x.rsv o [(8, 8), (24, 8), (34, 1), (40, 24), (144, 16)] ++
    [(a, decide (4 < h.func) || (decide (3 ≤ h.reduce) && h.func != 0)),
     (a + 2, decide (4 < h.reduce) || (h.func == 3 && h.out == 2 && h.reduce != 0)),
     (a + 4, (if h.func = 3 then h.out == 3 else h.out != 0) || h.ncols == 0 || decide (4 < h.ncols) ||
        ((h.func == 0 || h.func == 4) && h.reduce != 4 && h.ncols != 1))] ++
    ((List.range 4).map fun i => (a + 8 + 2 * i, (decide (h.ncols ≤ i)) != (leAt x.m.blob (o + 8 + 2 * i) 2 == 0xffff))) ++
    [(x.blob + desc.getD 0 + 2, desc.any fun d => typeDiffers ts (h.cols.headD 0xffff) (byteAt x.m.blob (d + 2) % 16)),
     (a + 16, h.reduce != 3 && h.table != 0xffff),
     (a + 24, ((h.func == 0 && h.reduce != 4) || h.func == 1) && h.seed != 0), (a + 28, h.func == 3 && decide (2 ^ 32 ≤ h.seed))]

/-- What a hash block names (R167). -/
def hashNames (x : ImgCtx) (o : Nat) : List Check :=
  let h := hashAt x.m.blob o
  [(x.blob + o + 16, h.reduce == 3 && !refKindIs x.m h.table 4)]

/-- A join block (Table 5-10) with its list; a payload that the image fixes is at most 64 bytes (R170). -/
def joinChecks (x : ImgCtx) (ts : ColTypes) (op o : Nat) : List Check :=
  let j := joinAt x.m.blob o
  let a := x.blob + o
  let join : Bool := op == 2 || op == 3
  let items := j.list + alignUp (2 * j.nkeys) 4
  x.rsv o [(8, 16), (40, 8)] ++
    [(a, j.hash == 0 || decide (4 < j.hash) || (j.hash == 4 && j.nkeys != 1)),
     (a + 3, (if join then decide (3 < j.kind) else j.kind != 8 && j.kind != 9) || j.nkeys == 0 || decide (4 < j.nkeys)),
     (a + 4, decide (16 < j.items) || (op == 2 && (fixedWidth ts ((joinItems x.m.blob j).map (·.1))).any fun w => decide (64 < w))), (a + 12, j.ownerCount == 0 || decide (384 < j.ownerCount)), (a + 20, j.padBytes % 256 != 0),
     (a + 24, j.padOff % 256 != 0)] ++
    if x.inside j.list (alignUp (2 * j.nkeys) 4 + 4 * j.items) then
      (List.range (min 16 j.items)).map fun i =>
        let w := leAt x.m.blob (items + 4 * i) 4
        (x.blob + items + 4 * i, if join then decide (2 ^ 16 ≤ w)
          else decide (2 ^ 24 ≤ w) || decide (5 < fld 23 16 w) || ((fld 23 16 w == 0) != (w % 2 ^ 16 == 0xffff)))
    else []

/-- What a join block names. -/
def joinNames (x : ImgCtx) (o : Nat) : List Check :=
  let j := joinAt x.m.blob o
  let a := x.blob + o
  [(a + 8, !x.inside j.list (alignUp (2 * j.nkeys) 4 + 4 * j.items)),
   (a + 14, (List.range (min 384 j.ownerCount)).any fun i => !defined x.m 1 (j.ownerBase + i)), (a + 16, !resolves x.m 5 j.hbm),
   (a + 18, j.spill != 0xffff && !x.m.requests.any fun r => r.kind == 4 && r.absId == j.spill && r.subkind == 3)]

/-! ### Shape -/

/-- The functions of a kind (Table 6-7). -/
def shapeFnOk (kind fn : Nat) : Bool := match kind with | 1 => fn == 0 | 2 => decide (fn ≤ 6) | 3 => decide (fn ≤ 4) | _ => fn == 0

/-- The entry reads statistics. -/
def readsStats (e : ShapeEntry) : Bool := e.kind == 4 || (e.kind == 3 && (e.fn == 0 || e.fn == 1 || e.fn == 4))

/-- The entry uses SH_A, and SH_B (Table 6-7). -/
def usesA (e : ShapeEntry) : Bool := (e.kind == 2 && (decide (e.fn ≤ 2) || e.fn == 5 || e.fn == 6)) || (e.kind == 3 && e.fn == 3)
def usesB (e : ShapeEntry) : Bool := (e.kind == 2 && e.fn == 2) || (e.kind == 3 && e.fn == 3)

/-- FP32 bits of a NaN. -/
def isNan32 (x : Nat) : Bool := fld 30 23 x == 255 && fld 22 0 x != 0

/-- An entry (Table 6-6); BYTES16 only from and to itself by CONVERT (R185). -/
def shapeEntryChecks (x : ImgCtx) (ts : ColTypes) (op o : Nat) (e : ShapeEntry) : List Check :=
  let a := x.blob + o
  x.rsv o [(9, 3), (14, 6), (24, 8), (48, 80)] ++
    [(a + 16, op == 2 && (ts e.col).any fun t => t.1 == 0xe), (a, if op = 2 then e.kind != 4 else e.kind == 0 || decide (3 < e.kind)), (a + 1, decide (3 ≤ e.rnd)),
     (a + 2, if op = 2 then e.outFmt != 0 else e.outFmt == 0 || e.outFmt == 0xf || (e.outFmt == 0xe && (e.kind != 1 || typeDiffers ts e.col 0xe)) ||
        (e.outFmt != 0xe && (ts e.col).any fun t => t.1 == 0xe)), (a + 4, !shapeFnOk e.kind e.fn),
     (a + 18, if op = 2 then e.lanes != 1 else e.lanes == 0 || decide (1024 < e.lanes)),
     (a + 22, (e.ref == 0xffff) == readsStats e), (a + 24, (!usesA e && e.a != 0) || isNan32 e.a),
     (a + 28, (!usesB e && e.b != 0) || isNan32 e.b || (e.kind == 3 && e.fn == 3 && (fp32.dec e.b).lt (fp32.dec e.a)))]

/-- The bytes of a packed row (R194). -/
def packedLen (es : List ShapeEntry) : Nat :=
  es.foldl (fun o e => alignUp o (typeBytes e.outFmt) + e.lanes * typeBytes e.outFmt) 0

/-- A shape block (Tables 6-5 and 6-6). -/
def shapeChecks (x : ImgCtx) (ts : ColTypes) (op o : Nat) : List Check :=
  let s := shapeAt x.m.blob o
  let n := leAt x.m.blob (o + 6) 2
  let a := x.blob + o
  x.rsv o [(1, 47), (96, 128)] ++
    [(a, op == 2 && s.packed), (a + 6, n == 0 || decide ((if op = 2 then 64 else 256) < n)),
     (a + 8, if op = 1 && s.packed then s.stride == 0 || s.stride % 64 != 0 || decide (s.stride < packedLen s.entries) else s.stride != 0),
     (a + 28, if op = 2 then s.padOff % 256 != 0 else s.padOff != 0)] ++
    ((List.range s.entries.length).flatMap fun i => match s.entries[i]? with
      | some e => shapeEntryChecks x ts op (o + 32 + 32 * i) e
      | none => []) ++
    [(a + 6, decide (8192 < total (s.entries.map (·.lanes))) || decide (4 < (s.entries.filter fun e => e.kind == 3 && e.fn == 4).length))]

/-- What a shape block names: statistics with the column record, and for QUANTILE with a sketch. -/
def shapeNames (x : ImgCtx) (o : Nat) : List Check :=
  let s := shapeAt x.m.blob o
  (List.range s.entries.length).flatMap fun i => match s.entries[i]? with
    | some e =>
      let a := x.blob + o + 32 + 32 * i
      let d := ((imgRef x.m e.ref).map (·.desc)).getD 0
      if readsStats e then
        [(a + 20, refKindIs x.m e.ref 6 && decide (leAt x.m.blob d 2 ≤ e.statCol)),
         (a + 22, !refKindIs x.m e.ref 6 || (e.kind == 3 && e.fn == 4 && !refKindIs x.m (leAt x.m.blob (d + 4) 2) 7))]
      else []
    | none => []

/-- A SPECTRAL block (R353): its column is FP32 with a frame of N values per row, as far as the image fixes it. -/
def spectralChecks (x : ImgCtx) (ts : ColTypes) (o : Nat) : List Check :=
  let k := leAt x.m.blob (o + 2) 1 % 16
  x.rsv o [(21, 107)] ++ [(x.blob + o, (ts (leAt x.m.blob o 2)).any fun t => t != (0xb, 2 ^ k)), (x.blob + o + 2, decide (k < 8) || decide (12 < k))]

/-! ### Matrix -/

/-- A pairing of Table 6-13. -/
def pairOk (inFmt wFmt : Nat) : Bool :=
  (inFmt == wFmt && (inFmt == 0xa || inFmt == 9 || inFmt == 1)) || ((inFmt == 0xc || inFmt == 0xd) && (wFmt == 0xc || wFmt == 0xd))

/-- A layer entry after a previous layer (Table 6-12, R213); `lp` is the length of the row it reads. -/
def layerChecks (x : ImgCtx) (o : Nat) (prev : Option Layer) (last : Bool) (lp : Nat) (l : Layer) : List Check :=
  let a := x.blob + o
  let dense : Bool := l.kind == 1
  let v := interactVectors l lp
  x.rsv o [(9, 23), (40, 8), (64, 40)] ++
    [(a, (l.kind != 1 && l.kind != 2) || (l.kind == 2 && prev.isNone)),
     (a + 1, !dense && l.keep && l.outFmt != l.inFmt),
     (a + 4, if dense then decide (3 < l.act) else l.act != 0),
     (a + 6, l.rnd == 3 || (prev.any fun p => p.outFmt != l.inFmt) || (if dense then !pairOk l.inFmt l.wFmt else !([0xa, 9, 1, 0xc, 0xd].contains l.inFmt))),
     (a + 7, (!dense && l.wFmt != 0) ||
        (if l.outFmt = 3 then !dense || l.inFmt != 1 || l.scaleOff != 0xffffffff || l.biasOff != 0xffffffff || !last
         else !([1, 0xb, 0xa, 9, 0xc, 0xd].contains l.outFmt))),
     (a + 14, if dense then l.n == 0 || decide (8192 < l.n) else decide (63 < l.n) || decide (v < 2) || decide (64 < v)),
     (a + 16, l.k == 0 || (if dense then decide (8192 < l.k) else decide (1024 < l.k) || lp % l.k != 0)),
     (a + 18, !dense && l.ref != 0xffff), (a + 20, !dense && l.scaleOff != 0xffffffff), (a + 24, !dense && l.biasOff != 0xffffffff)]

/-- A matrix block (Tables 6-11 and 6-12); `stride` is SH_ROW_STRIDE of a packed SHAPE before it. -/
def matrixChecks (x : ImgCtx) (o : Nat) (stride : Option Nat) : List Check :=
  let m := matrixAt x.m.blob o
  let n := byteAt x.m.blob (o + 9)
  let a := x.blob + o
  let ls := layersFrom 0 m.layers
  x.rsv o [(0, 72), (160, 96)] ++
    [(a + 9, n == 0 || decide (16 < n)), (a + 10, m.rows == 0 || decide (4096 < m.rows)), (a + 12, stride.any fun w => w != m.inStride),
     (a + 16, m.outStride % 64 != 0)] ++
    ((List.range ls.length).flatMap fun i => match ls[i]? with
      | some e => layerChecks x (o + 32 + 32 * i) (if i = 0 then none else m.layers[i - 1]?) (i + 1 == ls.length) e.2 e.1 ++
          [(a + 32 + 32 * i + 13, (m.layers.take i).any fun l => l.opi == e.1.opi)]
      | none => [])

/-- What a matrix block names. -/
def matrixNames (x : ImgCtx) (o : Nat) : List Check :=
  let m := matrixAt x.m.blob o
  (List.range m.layers.length).map fun i => match m.layers[i]? with
    | some l => (x.blob + o + 32 + 32 * i + 18, l.kind == 1 && !refKindIs x.m l.ref 2)
    | none => (0, false)

/-! ### Select, match and Gather -/

/-- A select block (Table 8-3). -/
def selChecks (x : ImgCtx) (ts : ColTypes) (op o : Nat) : List Check :=
  let s := selAt x.m.blob o
  let a := x.blob + o
  x.rsv o [(0, 1), (4, 12), (20, 108), (224, 32)] ++
    [(a, s.release && op != 1), (a + 2, s.fmt == 0 || decide (0xd < s.fmt) || (op != 2 && typeDiffers ts s.col s.fmt)),
     (a + 16, s.k == 0 || decide (1024 < s.k) || (op == 3 && s.k != 1)),
     (a + 18, if op = 2 then decide (s.lists < 2) || decide (384 < s.lists) else s.lists != 0), (a + 20, op == 2 && s.col != 0xffff),
     (a + 22, !s.release && s.idxCol != 0xffff), (a + 24, if s.release then s.outOff % 256 != 0 else s.outOff != 0)]

/-- A match block (Table 8-7), or an automaton block (Table 8-11). -/
def matchChecks (x : ImgCtx) (op o : Nat) : List Check :=
  if op = 4 then x.rsv o [(0, 32), (64, 22)] else x.rsv o [(1, 15), (64, 192)]

/-- What a match or automaton block names. -/
def matchNames (x : ImgCtx) (op o : Nat) : List Check :=
  let at'' := if op = 4 then o + 14 else o + 6
  [(x.blob + at'', !defined x.m 9 (leAt x.m.blob at'' 2))]

/-- A column's type is fixed by the image and is none of some. -/
def typeOutside (ts : ColTypes) (col : Nat) (fmts : List Nat) : Bool := (ts col).any fun t => !fmts.contains t.1

/-- A Gather block (Table 7-5); UPDATE takes the columns its table's format asks for (R242). -/
def gatherChecks (x : ImgCtx) (ts : ColTypes) (op o : Nat) : List Check :=
  let g := gatherAt x.m.blob o
  let d := (imgRef x.m g.table).bind fun r => if r.kind = 1 then some (tableDescAt x.m.blob r.desc) else none
  let ints : Bool := d.any fun d => d.fmt == 3
  let a := x.blob + o
  let pooled : Bool := op == 2 || op == 3
  let area : Bool := op == 1 || op == 2
  x.rsv o [(2, 6), (9, 3), (16, 112)] ++
    [(a, decide (2 < g.mode) || (op == 4 && g.mode != 0)),
     (a + 1, if pooled then !([0xb, 0xa, 9, 0xc, 0xd].contains g.outFmt) else g.outFmt != 0),
     (a + 16, (g.grad == 0xffff) == (op == 4) ||
        (op == 4 && (typeOutside ts g.grad (if ints then [3] else [0xb, 0xa]) || d.any fun d => (ts g.grad).any fun t => t.2 != d.dim))),
     (a + 18, (op == 4 && ints && g.wt != 0xffff) || typeOutside ts g.wt [0xb, 0xa, 9]), (a + 24, g.handleBytes % 256 != 0),
     (a + 28, if area then g.handleOff % 256 != 0 else g.handleOff != 0)]

/-- What a Gather block names: an embedding table that its operation may read (Tables 7-2 and 7-4). -/
def gatherNames (x : ImgCtx) (op o : Nat) : List Check :=
  let g := gatherAt x.m.blob o
  let ok : Ref → Bool := fun r => r.kind == 1 &&
    match op with
    | 3 => r.place == 1 || r.place == 3
    | 4 => (tableDescAt x.m.blob r.desc).update
    | _ => r.place != 1
  [(x.blob + o + 22, !(imgRef x.m g.table).any ok)]

/-! ### A stage's block -/

/-- The bytes of a block's fixed part; 0 where the operation takes none. -/
def blockBytes (engine op : Nat) : Nat := match engine, op with | 0, _ => 16 | 2, 3 => 16 | 6, _ => 0 | _, _ => 32

/-- The whole length of a block with its entries. -/
def blockLen (m : Image) (engine op o : Nat) : Nat :=
  match engine, op with
  | 0, _ => 16 + 16 * byteAt m.blob (o + 1)
  | 2, 3 => 16
  | 2, _ => 32 + 32 * leAt m.blob (o + 6) 2
  | 5, _ => 32 + 32 * byteAt m.blob (o + 9)
  | _, _ => 32

/-- The operations an engine has. -/
def opOk (engine op : Nat) : Bool :=
  match engine with
  | 0 => op == 1 || op == 2 | 1 => decide (1 ≤ op) && decide (op ≤ 5) | 2 => decide (1 ≤ op) && decide (op ≤ 3)
  | 3 => decide (1 ≤ op) && decide (op ≤ 5) | 4 => decide (1 ≤ op) && decide (op ≤ 4) | 5 => op == 1 | _ => op == 0

/-- A stage's block lies inside the blob. -/
def hasBlock (x : ImgCtx) (st : Stage) : Bool :=
  x.inside st.param (blockBytes st.engine st.op) && x.inside st.param (blockLen x.m st.engine st.op st.param)

/-- The stride that a Matrix stage's input must have: SH_ROW_STRIDE of a packed SHAPE just before it (Table 6-11). -/
def strideBefore (x : ImgCtx) (prev : Option Stage) : Option Nat :=
  match prev with
  | some p => if p.engine = 2 && p.op == 1 && hasBlock x p then
      let s := shapeAt x.m.blob p.param
      if s.packed then some s.stride else none
    else none
  | none => none

/-- Step 5 on a stage's operation and block. -/
def blockChecks (x : ImgCtx) (ruled : Bool) (o : Nat) (before : List Stage) (st : Stage) : List Check :=
  let prev := before.getLast?
  let ts := typesBefore x.m before
  [(o + 2, !opOk st.engine st.op || (ruled && st.engine == 2 && st.op == 2)),
   (o + 28, st.engine == 3 && (st.op == 2 || st.op == 4) && st.max != 0)] ++
    if st.engine = 6 || !hasBlock x st then []
    else match st.engine, st.op with
    | 0, op => predChecks x ts op st.param
    | 1, 1 => hashChecks x ts st.param
    | 1, op => joinChecks x ts op st.param
    | 2, 3 => spectralChecks x ts st.param
    | 2, op => shapeChecks x ts op st.param
    | 3, 4 => matchChecks x 4 st.param
    | 3, 5 => matchChecks x 5 st.param
    | 3, op => selChecks x ts op st.param ++
        [(o + 12, op == 2 && ((prev.map (·.outLen)).getD st.inLen) != (selAt x.m.blob st.param).lists * listLen (selAt x.m.blob st.param))]
    | 4, op => gatherChecks x ts op st.param
    | _, _ => matrixChecks x st.param (strideBefore x prev)

/-- Step 6 on a stage's block: it lies inside the blob, and what it names resolves. -/
def blockNames (x : ImgCtx) (o : Nat) (st : Stage) : List Check :=
  if st.engine = 6 then
    [(o + 24, !(x.m.streams[st.param]?).any fun d => d.write == (st.side == 1))]
  else if !hasBlock x st then [(o + 24, true)]
  else match st.engine, st.op with
    | 0, _ => predNames x st.param
    | 1, 1 => hashNames x st.param
    | 1, _ => joinNames x st.param
    | 2, 3 => []
    | 2, _ => shapeNames x st.param
    | 3, 4 => matchNames x 4 st.param
    | 3, 5 => matchNames x 5 st.param
    | 3, _ => []
    | 4, op => gatherNames x op st.param
    | _, _ => matrixNames x st.param

end Sys2Proof.Machine
end

