-- ==== Sys2Proof/Machine/Migrate.lean ====
section
/-! DEFINITION. Hot rows, table replacement, Dip placement and the table commands (R249 to R258, R405 to R411, Table 13-9). -/

namespace Sys2Proof.Machine

/-! ### Migration (R249 to R254) -/

/-- The pending replacements: plan slot, live reference, standby reference, target tick. -/
def replacements (s : State) : List (Nat × Nat × Nat × Nat) :=
  s.actions.filterMap fun a => match a.act with | .tableSwap slot live standby t => some (slot, live, standby, t) | _ => none

/-- A replacement of the table is pending. -/
def replacing (s : State) (slot ref : Nat) : Bool := (replacements s).any fun r => r.1 == slot && r.2.1 == ref

/-- The blocks of a die in COPYING or RETURNING, over every table (R250). -/
def migrationsOn (s : State) (die : Nat) : Nat :=
  s.tables.foldl (fun n e => n + (e.2.owners.filter fun o => o.isSet && (o.state == 1 || o.state == 3) && o.die == die).length) 0

/-- The hot slots of a table's Reservoir part on a die (R250, Table 7-3). -/
def hotSlots (c : TableCtx) (die : Nat) : Nat :=
  match partOn c.plan c.d.resPart die with
  | some b => min 2688 ((b.size - hotBase c) / pageBytes)
  | none => 0

/-- The lowest hot slot of a table's part on a die that no block of a table of the part holds. -/
def freeHotSlot (s : State) (c : TableCtx) (die : Nat) : Option Nat :=
  let used := (partTables c).flatMap fun x =>
    ((tableOf s x.slot x.ref).owners.filter fun o => o.isSet && o.state != 0 && o.die == die).map (·.slot)
  (List.range (hotSlots c die)).find? fun k => !used.contains k

/-- The sum of a block's four counters (R249). -/
def readsSum (o : Owner) : Nat := o.reads.foldl (fun a n => a + min 4095 (n / 16)) 0

/-- A migration of a block begun. -/
def addMigration (c : TableCtx) (block : Nat) (s : State) : State :=
  let t := tableOf s c.slot c.ref
  setTable c.slot c.ref { t with migrations := t.migrations ++ [⟨block, 0, [], false⟩] } s

/-- A block enters COPYING into a slot. -/
def startCopy (c : TableCtx) (block slot die : Nat) (s : State) : State :=
  addMigration c block (setOwner c block (fun o => { o with state := 1, slot := slot, die := die }) s)

/-- A MOVED block enters RETURNING. -/
def startReturn (c : TableCtx) (block : Nat) (s : State) : State :=
  addMigration c block (setOwner c block (fun o => { o with state := 3 }) s)

/-- An overrun record not yet acknowledged names a unit with some property (R75). -/
def overrunNames (s : State) (f : UnitClass → Bool) : Bool := overrunPend s && s.rul.overrunUnits.any fun u => f (unitClass u)

/-- The overrun records name a die's Reservoir. -/
def reservoirHeld (s : State) (die : Nat) : Bool := overrunNames s fun u => match u with | .bankGroup d _ => d == die | _ => false

/-- The overrun records name a unit of a move between a home and the Reservoir of a die: the controller of the home, that Reservoir, or a link
between them (R75, R254). -/
def moveHeld (s : State) (home die : Nat) : Bool :=
  match homeAt s home with
  | .here hd a => reservoirHeld s die || overrunNames s fun u =>
      u == .controller hd (frameController (a % 2 ^ 53 / pageBytes)) || (linksOf s hd die).any fun l => unitClass l == u
  | _ => false

/-- A pending rebind of the plan moves the table's Reservoir part (R106, R254). -/
def partMoves (c : TableCtx) : Bool :=
  match c.plan.rebind with
  | some r => r.olds.any fun b => b.kind == 4 && b.absId == c.d.resPart
  | none => false

/-- A block of a table may begin to move to or from a die, a replacement apart (R254). -/
def mayMove (s : State) (c : TableCtx) (home die : Nat) : Bool :=
  c.plan.state != .retiring && !c.plan.resetting && !partMoves c && !moveHeld s home die && homeReach s home die

/-- A hot block of a survey: its table, its block, its sum, its target die. -/
structure Hot where
  (c : TableCtx)
  (block sum die : Nat)

/-- The target die of a block: of those where the part is bound the one with the largest counter, the lower on a tie (R249). -/
def targetDie (c : TableCtx) (o : Owner) : Option Nat :=
  let f : Nat → Nat := fun d => min 4095 ((o.reads[d]?).getD 0 / 16)
  ((List.range 4).filter fun d => (partOn c.plan c.d.resPart d).isSome).foldl
    (fun m d => match m with | some x => if f x < f d then some d else m | none => some d) none

/-- The hot blocks of a table, in owner order: homed here, HOME, and at least at the threshold (R249, R254). -/
def hotBlocks (s : State) (c : TableCtx) : List Hot :=
  if c.r.place != 0 || !c.d.hot || c.plan.state != .active || replacing s c.slot c.ref then []
  else
    let os := (tableOf s c.slot c.ref).owners
    ((List.range os.length).zip os).filterMap fun e =>
      if e.2.isSet && e.2.state == 0 && e.2.home / 2 ^ 47 == s.deviceNumber.toNat && decide (c.d.hotThresh ≤ readsSum e.2) then
        (targetDie c e.2).bind fun d => if mayMove s c e.2.home d then some ⟨c, e.1, readsSum e.2, d⟩ else none
      else none

/-- Every table of every plan. -/
def allTables (s : State) : List TableCtx := s.plans.flatMap fun e => planTables s e.1

/-- The blocks of a table that are MOVED to a die and may return, with their sums. -/
def movedOn (s : State) (die : Nat) (c : TableCtx) : List (TableCtx × Nat × Nat) :=
  let os := (tableOf s c.slot c.ref).owners
  ((List.range os.length).zip os).filterMap fun e =>
    if e.2.isSet && e.2.state == 2 && e.2.die == die && mayMove s c e.2.home die then some (c, e.1, readsSum e.2) else none

/-- The MOVED block on a die with the smallest sum, over every table without a replacement pending (R250, R254). -/
def coldest (s : State) (die : Nat) : Option (TableCtx × Nat × Nat) :=
  (((allTables s).filter fun c => !replacing s c.slot c.ref).flatMap (movedOn s die)).foldl
    (fun m e => match m with
      | some x => if e.2.2 < x.2.2 then some e else m
      | none => some e) none

/-- One hot block dealt with (R250): COPYING into a free slot, or the coldest MOVED block of its die returned when its sum is less than
half; at most four blocks of a die migrate at a time. -/
def dealHot (s : State) (h : Hot) : State :=
  if 4 ≤ migrationsOn s h.die then s
  else match freeHotSlot s h.c h.die with
  | some k => startCopy h.c h.block k h.die s
  | none => match coldest s h.die with
    | some (c, b, n) => if 2 * n < h.sum then startReturn c b s else s
    | none => s

/-- The MOVED blocks of a table under replacement returned, four of a die at a time, in ascending owner entry (R254, R255). -/
def returnHot (c : TableCtx) (s : State) : State :=
  (List.range (tableOf s c.slot c.ref).owners.length).foldl (fun s b =>
    match (tableOf s c.slot c.ref).owners[b]? with
    | some o => if o.isSet && o.state == 2 && decide (migrationsOn s o.die < 4) && mayMove s c o.home o.die then startReturn c b s else s
    | none => s) s

/-- The returns of every table under replacement, which go before other migrations (R255). -/
def returnAll (s : State) : State :=
  ((allTables s).filter fun c => replacing s c.slot c.ref).foldl (fun s c => returnHot c s) s

/-! ### Dip placement (R408, R409) -/

/-- The Dip state of a die. -/
def dipPart (s : State) (die : Nat) : DipPart := (look die s.dips).getD ⟨[], []⟩

/-- A die's Dip state replaced. -/
def setDip (die : Nat) (x : DipPart) (s : State) : State := { s with dips := put die x s.dips }

/-- A plan's Dip partition on a die. -/
def dipBound (p : Plan) (die : Nat) : Option Bound := p.bound.find? fun b => b.kind == 4 && b.subkind == 2 && b.index == die

/-- A plan has a Dip partition. -/
def hasDip (p : Plan) : Bool := p.bound.any fun b => b.kind == 4 && b.subkind == 2

/-- A table is served by Dip (R407). -/
def dipServed (c : TableCtx) : Bool :=
  c.d.dip && c.plan.state == .active && c.plan.image.dip && hasDip c.plan && decide (c.rowBytes ≤ 1024)

/-- The die within a half that holds a row (R408). -/
def dipDie (c : TableCtx) (half row : Nat) : Nat := 2 * half + mxs64 row c.d.id % 2

/-- The entries of one bucket of a table (R408). -/
def bucketEntries (c : TableCtx) : Nat := 4096 / (16 + alignUp c.rowBytes 16)

/-- The bytes of the block directory in a plan's Dip partition on a die: 8 for each 2 MiB block of its POOL tables served by Dip, on the port
dies alone, in whole buckets (R408, assumption log 208). -/
def dipDirectory (s : State) (slot die : Nat) : Nat :=
  if die % 2 = 0 then alignUp (((planTables s slot).filter fun x => x.d.dip && x.r.place == 0).foldl
    (fun n x => n + 8 * (tableOf s slot x.ref).owners.length) 0) 4096
  else 0

/-- A row's bucket within its table's range on a die: the partition's buckets past the directory are shared evenly among the plan's Dip tables
(R408, assumption log 208). -/
def dipBucket (s : State) (c : TableCtx) (die row : Nat) : Option Nat :=
  (dipBound c.plan die).map fun b =>
    let ts := (planTables s c.slot).filter fun x => x.d.dip
    let range := (b.size - dipDirectory s c.slot die) / 4096 / max 1 ts.length
    mxs64 row c.d.id * range / 2 ^ 64

/-- The entries of a row's bucket on a die that are not about to leave it. -/
def bucketRows (s : State) (c : TableCtx) (die row : Nat) : List DipRow :=
  (dipPart s die).rows.filter fun r => r.slot == c.slot && r.ref == c.ref && r.doomed.isNone && dipBucket s c die r.row == dipBucket s c die row

/-- The entry a row's copy takes on a die: a free one, or that of the answering entry with the fewest hits, if they are fewer than the row's
misses; none where it can have neither (R409). -/
def dipEntry (s : State) (c : TableCtx) (die row misses : Nat) : Option (Option DipRow) :=
  if (dipBucket s c die row).isNone || reservoirHeld s die then none
  else
    let b := bucketRows s c die row
    if b.length < bucketEntries c then some none
    else match (b.filter (·.live)).foldl
        (fun (m : Option DipRow) r => match m with | some y => if r.hits < y.hits then some r else m | none => some r) none with
      | some y => if y.hits < misses then some (some y) else none
      | none => none

/-- A pending copy entered on a die, with the entry it will replace. -/
def enterCopy (new : DipRow) (s : State) (e : Nat × Option DipRow) : State :=
  let x := dipPart s e.1
  setDip e.1 { x with rows := (x.rows.map fun r => if some r = e.2 then { r with doomed := some new.row } else r) ++ [new] } s

/-- A row's placement requested: one pending copy in each half, read from the row's place; they answer from the class-3 placement change on
(R408, R409). A row that one half has no entry for is not placed. -/
def placeRow (c : TableCtx) (row misses : Nat) (s : State) : State :=
  match readRow s c none row with
  | none => s
  | some bs =>
    let gen := (tableOf s c.slot c.ref).gen
    let dies := [dipDie c 0 row, dipDie c 1 row]
    let placed := dies.any fun d => (dipPart s d).rows.any fun r => r.slot == c.slot && r.ref == c.ref && r.row == row && r.doomed.isNone && r.gen == gen
    match dies.mapM fun d => (dipEntry s c d row misses).map fun v => (d, v) with
    | some es =>
      if placed then s
      else
        let s := es.foldl (enterCopy ⟨c.slot, c.ref, gen, row, bs, 0, false, none⟩) s
        { s with actions := s.actions ++ [⟨.dipChange c.slot c.ref row, false, false⟩] }
    | none => s

/-- The Dip placements of a survey interval: the rows of the port dies' miss logs in descending order of misses (R408, R409). -/
def placeMissed (s : State) : State :=
  let s := (sortBy (fun a b => b.2 < a.2) ((dipPart s 0).misses ++ (dipPart s 2).misses)).foldl (fun s m =>
    match tableCtx s m.1.1 m.1.2.1 with
    | some c => if dipServed c then placeRow c m.1.2.2 m.2 s else s
    | none => s) s
  { s with dips := s.dips.map fun e => (e.1, { rows := e.2.rows.map fun r => { r with hits := 0 }, misses := [] }) }

/-- The survey of the hot rows (R249, R250): the pending returns, then the hot blocks in descending order of sum, then the counters cleared. -/
def surveyHot (s : State) : State :=
  let s := returnAll s
  let hot := sortBy (fun a b => decide (b.sum < a.sum)) ((allTables s).flatMap (hotBlocks s))
  let s := hot.foldl dealHot s
  { s with tables := s.tables.map fun e => (e.1, { e.2 with owners := e.2.owners.map fun o => { o with reads := [0, 0, 0, 0] } }) }

/-- SURVEY_INTERVAL (R249, R409): once 64 ticks have passed since the last one, the hot rows and the Dip placements. -/
def execSurveyInterval (s : State) : Host.Outcome State Fault Refusal :=
  if s.rul.surveyTicks < 64 then .next s
  else .next (placeMissed (surveyHot { s with rul := { s.rul with surveyTicks := 0 } }))

/-- MIGRATION_COPY_COMPLETE: the rest of the block of a row is copied, and its cutover is requested (R251, R252);
it waits while a link that is down lies between its places (Table 15-4). -/
def execMigrationCopyComplete (slot : BitVec 6) (ref : BitVec 16) (row : BitVec 64) (s : State) : Host.Outcome State Fault Refusal :=
  match tableCtx s slot.toNat ref.toNat with
  | none => .next s
  | some c =>
    let block := c.block row.toNat
    let t := tableOf s c.slot c.ref
    match t.migrations.find? fun m => m.block == block && !m.requested, blockPlaces s c block with
    | some m, some _ =>
      if !blockReach s c block then .next s else
      let n := (blockRows c block).2
      let s := copyRows c block m.cursor (n - m.cursor) s
      let s := setTable c.slot c.ref { t with migrations := t.migrations.map fun m =>
        if m.block = block then { m with cursor := n, requested := true } else m } s
      .next { s with actions := s.actions ++ [⟨.cutover c.slot c.ref row.toNat 0, false, false⟩] }
    | _, _ => .next s

/-- The admitted action that an action row carries out, in the guard band it was admitted in. -/
def admitted (s : State) (f : Action → Bool) : Option Pending :=
  if s.clk.guard then s.actions.find? fun a => a.admitted && !a.done && f a.act else none

/-- An action carried out leaves the list. -/
def doneAction (a : Pending) (s : State) : State := { s with actions := s.actions.erase a }

/-- An action carried out in the guard band, to be in force from the closing edge (assumption log 160). -/
def markDone (a : Pending) (s : State) : State :=
  { s with actions := s.actions.map fun x => if x = a then { x with done := true } else x }

/-- The cutover of the block of a row. -/
def isCutover (c : TableCtx) (block : Nat) (a : Action) : Bool :=
  match a with
  | .cutover sl r w _ => sl == c.slot && r == c.ref && c.block w == block
  | _ => false

/-- The logged rows of a migrating block copied to the destination, whole, and taken off the log (R252). -/
def replayLog (c : TableCtx) (block : Nat) (s : State) : State :=
  let t := tableOf s c.slot c.ref
  match t.migrations.find? fun m => m.block == block with
  | none => s
  | some m =>
    let s := m.log.foldl (fun s r => copyRows c block (r % c.perBlock) 1 s) s
    setTable c.slot c.ref { t with migrations := t.migrations.map fun x => if x.block = block then { x with log := [] } else x } s

/-- HOT_ROW_CUTOVER (R252): the logged rows are copied to the destination; the new place is in force from the closing edge. -/
def execHotRowCutover (slot : BitVec 6) (ref : BitVec 16) (row : BitVec 64) (s : State) : Host.Outcome State Fault Refusal :=
  match tableCtx s slot.toNat ref.toNat with
  | none => .next s
  | some c =>
    match admitted s (isCutover c (c.block row.toNat)) with
    | some a => .next (markDone a (replayLog c (c.block row.toNat) s))
    | none => .next s

/-- A cutover in force: rows logged since are copied too, and OWN_STATE takes its new value (R252). -/
def applyCutover (slot ref row : Nat) (s : State) : State :=
  match tableCtx s slot ref with
  | none => s
  | some c =>
    let block := c.block row
    let s := setOwner c block (fun o => if o.state = 1 then { o with state := 2 } else { o with state := 0, die := 0, slot := 0 })
      (replayLog c block s)
    let t := tableOf s c.slot c.ref
    setTable c.slot c.ref { t with migrations := t.migrations.filter fun m => m.block != block } s

/-! ### Replacing a table (R255 to R258) -/

/-- The row number, one that no table has, of the class-3 change that ends a replacement's pause (Table 7-9). -/
def pauseEnd : Nat := 2 ^ 64 - 1

/-- TABLE_SWAP (R255): the swap is carried out in the guard band closing tick T − 1 and is in force from the edge that opens tick T. -/
def execTableSwap (slot : BitVec 6) (live : BitVec 16) (s : State) : Host.Outcome State Fault Refusal :=
  match admitted s fun a => match a with
    | .tableSwap sl l _ t => sl == slot.toNat && l == live.toNat && t == nowTick s + 1
    | _ => false with
  | some a => .next (markDone a s)
  | none => .next s

/-- The owner pointers of two references exchanged, with the generation, and the Dip answers paused from a tick (R255, R258). -/
def swapTables (slot live standby t : Nat) (s : State) : State :=
  let x := tableOf s slot live
  let y := tableOf s slot standby
  setTable slot standby { y with owners := x.owners, data := x.data, migrations := x.migrations }
    (setTable slot live { x with owners := y.owners, data := y.data, migrations := y.migrations, gen := (x.gen + 1) % 65536, pause := some t } s)

/-- A swap in force (Table 7-9): the table's Dip entries are invalidated, the rows they held are placed again from the new table, the end
of the pause is requested, and the command is answered. -/
def applySwap (slot live standby t : Nat) (s : State) : State :=
  match tableCtx s slot live with
  | none => s
  | some c =>
    let s := swapTables slot live standby t s
    let mine : DipRow → Bool := fun r => r.slot == slot && r.ref == live
    let old := dedup ((List.range 4).flatMap fun d => ((dipPart s d).rows.filter fun r => mine r && r.live).map (·.row))
    let s := { s with dips := s.dips.map fun e => (e.1, { e.2 with rows := e.2.rows.filter fun r => !mine r }) }
    let s := old.foldl (fun s row => placeRow c row (2 ^ 64) s) s
    let s := { s with actions := s.actions ++ [⟨.dipChange slot live pauseEnd, false, false⟩] }
    finalAnswer (fun k => k == .replace slot live t) St.ok 0 (payload [.num 8 t]) s

/-- DIP_PLACEMENT_CHANGE (R409, Table 7-9): carried out in the guard band and in force from the closing edge. -/
def execDipPlacementChange (slot : BitVec 6) (ref : BitVec 16) (row : BitVec 64) (s : State) : Host.Outcome State Fault Refusal :=
  match admitted s fun a => a == .dipChange slot.toNat ref.toNat row.toNat with
  | some a => .next (markDone a s)
  | none => .next s

/-- The pause of a table is over: the edge that closes tick T + 1 has come (R258). -/
def pauseOver (s : State) (t : Table) : Bool := t.pause.all fun p => decide (p + 2 ≤ nowTick s)

/-- A placement change in force (R409): the pending copies of a row answer and the entries they replace stop; the one that ends a pause lets
every copy placed meanwhile answer. -/
def applyDip (slot ref row : Nat) (s : State) : State :=
  match tableCtx s slot ref with
  | none => s
  | some c =>
    let t := tableOf s slot ref
    let ends := row == pauseEnd && pauseOver s t
    let mine : DipRow → Bool := fun r => r.slot == slot && r.ref == ref
    let step : DipPart → DipPart := fun x =>
      let gone : DipRow → Bool := fun r => mine r && (r.doomed == some row || (ends && r.doomed.isSome))
      { x with rows := (x.rows.filter fun r => !gone r).map fun r =>
          if mine r && r.gen == t.gen && (ends || r.row == row) then { r with live := true } else r }
    let s := { s with dips := s.dips.map fun e => (e.1, step e.2) }
    if ends then setTable slot ref { t with pause := none } s else s

/-! ### The Dip service (R405 to R412) -/

/-- A Dip answer (Table 12-10). -/
def dipAnswer (tag table index status rowBytes gen hint : Nat) (row : Bytes) : Bytes :=
  le 32 (pack [(32, tag), (32, table), (64, index), (8, status), (24, 0), (16, rowBytes), (16, gen), (7, 0), (57, hint)]) ++ row

/-- The table that Dip serves under a table id. -/
def dipTable (s : State) (id : Nat) : Option TableCtx := (allTables s).find? fun c => c.d.id == id && dipServed c

/-- The row a Dip index names: INT64, under R228. -/
def dipRow (d : TableDesc) (bits : Nat) : Entry := resolveIndex d 4 bits

/-- DA_HINT: the home pool address of a row (R411). -/
def dipHint (s : State) (c : TableCtx) (row : Nat) : Nat :=
  if c.r.place = 0 then
    match (tableOf s c.slot c.ref).owners[c.block row]? with
    | some o => o.home + row * c.d.stride % pageBytes
    | none => 0
  else match rowHome s c none row with
    | .here _ a => s.deviceNumber.toNat * 2 ^ 47 + ((translate s a).map (· % 2 ^ 53)).getD 0
    | _ => 0

/-- Dip answers for a table are paused: from the edge that opens T to the edge that closes T + 1 (R258). -/
def dipPaused (s : State) (t : Table) : Bool := t.pause.any fun p => decide (p ≤ nowTick s) && decide (nowTick s ≤ p + 1)

/-- The copy a half answers from. -/
def dipCopy (s : State) (c : TableCtx) (half row : Nat) : Option DipRow :=
  let t := tableOf s c.slot c.ref
  (dipPart s (dipDie c half row)).rows.find? fun r => r.slot == c.slot && r.ref == c.ref && r.row == row && r.live && r.gen == t.gen

/-- One hit, miss or refused answer counted for a table. -/
def countDip (c : TableCtx) (f : Table → Table) (s : State) : State := setTable c.slot c.ref (f (tableOf s c.slot c.ref)) s

/-- A miss entered in the port die's log of 65,536 entries (R409). -/
def logMiss (c : TableCtx) (port row : Nat) (s : State) : State :=
  let x := dipPart s port
  let k := (c.slot, c.ref, row)
  match look k x.misses with
  | some n => setDip port { x with misses := put k (n + 1) x.misses } s
  | none => if x.misses.length < 65536 then setDip port { x with misses := x.misses ++ [(k, 1)] } s else s

/-- The answer to a Dip request with the state its probe leaves: BUSY-RETRY to any in the pause (R258, R405, R411). -/
def dipProbe (port : Nat) (q : Bytes) (s : State) : Bytes × State :=
  let tag := leAt q 0 4
  let id := leAt q 4 4
  let ix := leAt q 8 8
  match dipTable s id with
  | none => (dipAnswer tag id ix 4 0 0 0 [], s)
  | some c =>
    let t := tableOf s c.slot c.ref
    if dipPaused s t then (dipAnswer tag id ix 2 0 t.gen 0 [], countDip c (fun t => { t with dipBusy := t.dipBusy + 1 }) s)
    else match dipRow c.d ix with
      | .row row =>
        let half := portDie port / 2
        match dipCopy s c half row with
        | some r =>
          let die := dipDie c half row
          let x := dipPart s die
          let s := setDip die { x with rows := x.rows.map fun y => if y = r then { y with hits := y.hits + 1 } else y } s
          (dipAnswer tag id ix 0 c.rowBytes r.gen 0 (fit c.rowBytes r.bytes), countDip c (fun t => { t with dipHits := t.dipHits + 1 }) s)
        | none => (dipAnswer tag id ix 1 0 t.gen (dipHint s c row) [],
            countDip c (fun t => { t with dipMisses := t.dipMisses + 1 }) (logMiss c (portDie port) row s))
      | _ => (dipAnswer tag id ix 3 0 t.gen 0 [], s)

/-- DIP_REQ (R405, R406, R411, R412): the answer leaves on the request's port for its source, under its key slot; `late` tells that it
missed the bound of R412. -/
def execDipReq (p : KitPacket) (late : Bool) (s : State) : Host.Outcome State Fault Refusal :=
  let pt := p.port.toNat
  match receiveKit p 10 s with
  | (none, s) => .next s
  | (some bs, s) =>
    let r := dipProbe pt bs s
    let h := kitHeader s 11 p.header.keyId.toNat p.header.srcDev.toNat p.header.extSrc p.header.endpoint.toNat r.1.length 0
    let s := enqueueKit pt .dip false p.source h r.1 r.2
    .next (if late then tickEvent { cls := 6, code := 5, unit := (portUid pt 3).toNat, plan := 0xff, key := pt, pos := 0, count := 1 } s else s)

/-! ### Commands (Table 13-9) -/

/-- An owner word as an entry (R223): none where the word is not of one of its forms. -/
def ownerWord (s : State) (p : Plan) (r : Ref) (w : Nat) : Option Owner :=
  let blank : Owner := ⟨false, 0, [0, 0, 0, 0], 0, 0, 0⟩
  if w = 2 ^ 64 - 1 then some blank
  else if 2 ^ 63 ≤ w then
    let off := w % 2 ^ 47
    match boundOf p 5 r.hbm with
    | some b =>
      if w / 2 ^ 47 % 2 ^ 16 = 0 ∧ off % pageBytes = 0 ∧ off + pageBytes ≤ b.size then
        some { blank with isSet := true, home := s.deviceNumber.toNat * 2 ^ 47 + ((translate s (b.base + off)).map (· % 2 ^ 53)).getD 0 }
      else none
    | none => none
  else if w / 2 ^ 57 = 0 ∧ w % pageBytes = 0 ∧ w / 2 ^ 47 ≠ s.deviceNumber.toNat then some { blank with isSet := true, home := w }
  else none

/-- The first word of a list that is in no form of R223. -/
def badOwner (s : State) (slot ref : Nat) (words : List (BitVec 64)) : List (Nat × Bool) :=
  match tableCtx s slot ref with
  | none => []
  | some c => ((List.range words.length).zip words).map fun e => (16 + 8 * e.1, (ownerWord s c.plan c.r e.2.toNat).isNone)

/-- OWNER_MAP (R223, R237). -/
def execOwnerMap (r : Req) (slot : Byte) (ref : BitVec 16) (first : BitVec 32) (words : List (BitVec 64)) (s : State) :
    Host.Outcome State Fault Refusal :=
  .next (goust r (icmd 0x0401 (16 + 8 * words.length)
    ([(0, decide (63 < slot.toNat)), (8, decide (440 < words.length))] ++ badOwner s slot.toNat ref.toNat words) fun s =>
    match plan? s slot.toNat with
    | none => .fail St.planState 0
    | some p =>
      if p.state ≠ .loaded then .fail St.planState 0
      else match tableCtx s slot.toNat ref.toNat with
      | none => .fail St.notTable 1
      | some c =>
        let t := tableOf s c.slot c.ref
        let os := words.filterMap fun w => ownerWord s c.plan c.r w.toNat
        if c.r.place ≠ 0 ∨ t.owners.length < first.toNat + words.length then .fail St.notTable 1
        else if c.d.lag = 1 ∧ os.any fun o => o.isSet && o.home / 2 ^ 47 != s.deviceNumber.toNat then .fail St.notTable 2
        else
          let new := t.owners.take first.toNat ++ os ++ t.owners.drop (first.toNat + words.length)
          .ok (setTable c.slot c.ref { t with owners := new } s) []) s)

/-- An owner entry (Table 7-3); the fields below OWN_HOME are kept on the home device only (R222). -/
def ownerBytes (s : State) (o : Owner) : Bytes :=
  let here := o.isSet && o.home / 2 ^ 47 == s.deviceNumber.toNat
  let f : Nat → Nat := fun i => min 4095 (((o.reads[i]?).getD 0) / 16)
  le 16 (if here then pack [(2, o.state), (12, o.slot), (2, o.die), (12, f 0), (12, f 1), (12, f 2), (12, f 3), (57, o.home)]
         else pack [(64, 0), (57, if o.isSet then o.home else 0)])

/-- OWNER_READ (R222). -/
def execOwnerRead (r : Req) (slot : Byte) (ref : BitVec 16) (first : BitVec 32) (n : BitVec 16) (s : State) :
    Host.Outcome State Fault Refusal :=
  .next (goust r (icmd 0x0402 16 [(0, decide (63 < slot.toNat)), (8, decide (220 < n.toNat))] fun s =>
    match tableCtx s slot.toNat ref.toNat with
    | none => .fail St.notTable 1
    | some c =>
      let os := (tableOf s c.slot c.ref).owners
      if os.length < first.toNat + n.toNat then .fail St.notTable 1
      else .ok s (((os.drop first.toNat).take n.toNat).flatMap (ownerBytes s))) s)

/-- A replacement may be accepted (R255). -/
def replaceOk (s : State) (c x : TableCtx) (t : Nat) : Bool :=
  c.ref != x.ref && c.plan.state != .retiring && c.d.rows == x.d.rows && c.d.dim == x.d.dim && c.d.stride == x.d.stride &&
    c.d.fmt == x.d.fmt && c.r.place == x.r.place && (tableOf s x.slot x.ref).owners.all (·.isSet) && decide (nowTick s + 1 < t) &&
    decide (((replacements s).filter fun e => e.2.2.2 == t).length < 16)

/-- TABLE_REPLACE (R255): the COPYING blocks of the live table go back to HOME and its MOVED blocks begin to return. -/
def execTableReplace (r : Req) (slot : Byte) (live standby : BitVec 16) (t : BitVec 64) (s : State) : Host.Outcome State Fault Refusal :=
  .next (goust r (pcmd 0x0403 16 [(0, decide (63 < slot.toNat))] fun s =>
    match tableCtx s slot.toNat live.toNat, tableCtx s slot.toNat standby.toNat with
    | some c, some x =>
      if replaceOk s c x t.toNat then
        let s := { s with actions := s.actions ++ [⟨.tableSwap c.slot c.ref x.ref t.toNat, false, false⟩] }
        let os := (tableOf s c.slot c.ref).owners
        let s := (((List.range os.length).zip os).filter fun e => e.2.state == 1).foldl (fun s e => abortCopy c e.1 s) s
        .accept (returnAll s) (.replace c.slot c.ref t.toNat) []
      else .fail St.replaceRefused 0
    | _, _ => .fail St.replaceRefused 0) s)

/-- TABLE_COUNTERS (Table 13-9). -/
def execTableCounters (r : Req) (slot : Byte) (ref : BitVec 16) (s : State) : Host.Outcome State Fault Refusal :=
  .next (goust r (icmd 0x0406 8 [(0, decide (63 < slot.toNat))] fun s =>
    match tableCtx s slot.toNat ref.toNat with
    | none => .fail St.notTable 1
    | some c =>
      let t := tableOf s c.slot c.ref
      .ok s (payload [.num 8 t.served, .num 8 t.dipHits, .num 8 t.dipMisses, .num 8 t.dipBusy, .num 8 t.outOfRange,
        .num 8 (t.owners.filter fun o => o.isSet && o.state == 2).length, .num 8 t.aborted])) s)

end Sys2Proof.Machine
end

