-- ==== Sys2Proof/Machine/EntryChecks.lean ====
section
/-! DEFINITION. Step 5 of R87 on references, streams, batch layouts and match loads with their descriptors and blocks, and what they name
(step 6). -/

namespace Sys2Proof.Machine

/-! ### References (Table 3-9) and their descriptors -/

/-- The descriptor bytes of a reference's kind that step 5 reads. -/
def descBytes (m : Image) (r : Ref) : Nat :=
  match r.kind with
  | 1 => 32 + if r.place = 0 then 8 * ceilDiv r.size pageBytes else 0
  | 4 => 8 + leAt m.blob r.desc 2 * typeBytes (byteAt m.blob (r.desc + 2) % 16)
  | 5 => 16
  | 6 => 32 + 64 * leAt m.blob r.desc 2
  | 7 => 16
  | _ => 0

/-- A power of two from 16 to 16,384. -/
def strideOk (n : Nat) : Bool := [16, 32, 64, 128, 256, 512, 1024, 2048, 4096, 8192, 16384].contains n

/-- A step-5 check of the form of an owner word (R223). -/
def wordForm (w : Nat) : Bool :=
  w == 2 ^ 64 - 1 || (decide (2 ^ 63 ≤ w) && w / 2 ^ 47 % 2 ^ 16 == 0 && w % pageBytes == 0) ||
    (w / 2 ^ 57 == 0 && w % pageBytes == 0)

/-- The owner words of a POOL reference. -/
def wordsOf (m : Image) (r : Ref) : List Nat :=
  if r.kind = 1 && r.place == 0 then (List.range (ceilDiv r.size pageBytes)).map fun i => leAt m.blob (r.desc + 32 + 8 * i) 8 else []

/-- The table has a row homed on another device (R237). -/
def homedAway (m : Image) (device : Nat) (r : Ref) : Bool :=
  let d := tableDescAt m.blob r.desc
  match r.place with
  | 0 => (wordsOf m r).any fun w => decide (w < 2 ^ 63) && w / 2 ^ 47 != device
  | 2 => d.shards != 1 || d.shardBase != device
  | _ => false

/-- The certificate entries of the serve tasks of a table. -/
def serveEntries (m : Image) (r : Ref) : List Nat :=
  (List.range m.certs.length).filter fun j => (m.certs[j]?).any fun t =>
    t.kind == 2 && t.unitKind == 7 && (m.streams[t.index]?).any fun d => d.kind == 2 && d.srcAbs == r.absId

/-- The certificate entries of the ruled ligatures that POOL from a table. -/
def poolEntries (m : Image) (r : Ref) : List Nat :=
  (List.range m.certs.length).filter fun i => (m.certs[i]?).any fun c =>
    c.kind == 1 && (m.ligatures[c.index]?).any fun l =>
      l.stages.any fun st => st.engine == 4 && st.op == 2 && (gatherAt m.blob st.param).table == r.absId

/-- The owner dies of a table of this device, as far as its owner words name them; one at least. -/
def ownerDies (x : ImgCtx) (r : Ref) : Nat :=
  max 1 (dedup (((wordsOf x.m r).filter fun w => decide (w < 2 ^ 63)).map fun w => w % 2 ^ 47 / max 1 x.die)).length

/-- A ruled POOL and the serve tasks of its table break R237: with TD_LAG 1 each owner die has a serve task and the POOL depends on every one of
them; with TD_LAG 2 it depends on none. -/
def poolUndeclared (x : ImgCtx) (r : Ref) (lag : Nat) : Bool :=
  let serves := serveEntries x.m r
  let dep : Nat → Nat → Bool := fun j i => x.m.deps.any fun d => d.producer == j && d.consumer == i
  (poolEntries x.m r).any fun i =>
    if lag = 1 then decide (serves.length < ownerDies x r) || !serves.all (dep · i) else serves.any (dep · i)

/-- The bytes asked for a reference's REF_HBM region; none where no such region is asked for. -/
def regionBytes (m : Image) (r : Ref) : Option Nat := (m.requests.find? fun q => q.kind == 5 && q.absId == r.hbm).map (·.amount)

/-- A device holds a shard of a SHARD table (R224). -/
def holdsShard (device : Nat) (d : TableDesc) : Bool := decide (d.shardBase ≤ device) && decide (device < d.shardBase + d.shards)

/-- An embedding table's descriptor and the rules of its chapter (Table 7-1, R219 to R224, R237, R407). -/
def tableChecks (x : ImgCtx) (device o : Nat) (r : Ref) : List Check :=
  let d := tableDescAt x.m.blob r.desc
  let region := regionBytes x.m r
  let a := x.blob + r.desc
  let shard : Bool := r.place == 2
  x.rsv r.desc [(0, 9), (24, 8), (64, 7)] ++
    [(a + 1, d.lag == 0 || d.lag == 3 || (d.lag == 1 && homedAway x.m device r) || poolUndeclared x r d.lag || (d.update && r.place == 1) ||
        (shard && (d.hot || d.dip)) || (d.dip && decide (1024 < d.dim * typeBytes d.fmt)) || (d.fmt != 3 && d.frac != 0)),
     (a + 2, !([3, 9, 0xa, 0xb, 0xc, 0xd].contains d.fmt)),
     (a + 4, !strideOk d.stride || decide (d.stride < d.dim * typeBytes d.fmt)), (a + 6, d.dim == 0 || decide (4096 < d.dim)),
     (a + 10, if shard then decide (1023 < d.shardBase + d.shards - 1) else d.shardBase != 0),
     (a + 11, if shard then d.shards == 0 || decide (1024 < d.shards) else d.shards != 0),
     (a + 27, d.rows == 0),
     (o + 10, shard && if holdsShard device d then
        (r.addr == 0 && r.hbm == 0xffff) || region.any fun n => decide (n < ceilDiv d.rows d.shards * d.stride) else r.hbm != 0xffff),
     (o + 24, r.size != d.rows * d.stride)] ++
    (List.range (wordsOf x.m r).length).map fun i => match (wordsOf x.m r)[i]? with
      | some w => (a + 32 + 8 * i, !wordForm w || (decide (w < 2 ^ 63) && w / 2 ^ 47 == device) ||
          (decide (2 ^ 63 ≤ w) && w != 2 ^ 64 - 1 && region.any fun n => decide (n < w % 2 ^ 47 + pageBytes)))
      | none => (0, false)

/-- The boundaries rise strictly; none is a NaN. -/
def rises (fmt : Nat) : List Nat → Bool
  | a :: b :: rest => (valueOf fmt a).lt (valueOf fmt b) && rises fmt (b :: rest)
  | _ => true

/-- A boundary table (R167). -/
def boundaryChecks (x : ImgCtx) (o : Nat) (r : Ref) : List Check :=
  let n := leAt x.m.blob r.desc 2
  let fmt := byteAt x.m.blob (r.desc + 2) % 16
  let vs := (boundaries (slice x.m.blob r.desc (8 + n * typeBytes fmt))).2
  let a := x.blob + r.desc
  x.rsv r.desc [(20, 44)] ++
    [(a, n == 0), (a + 2, fmt == 0 || decide (0xd < fmt)), (a + 8, !rises fmt vs || vs.any fun v => valueOf fmt v == FV.nan),
     (o + 24, r.size != 8 + n * typeBytes fmt)]

/-- Statistics, a sketch, a filterbank (R195, R203, R352). -/
def objectChecks (x : ImgCtx) (o : Nat) (r : Ref) : List Check :=
  let b := x.m.blob
  let a := x.blob + r.desc
  match r.kind with
  | 5 =>
    let n := leAt b r.desc 2
    x.rsv r.desc [(20, 108)] ++ [(a, n == 0 || decide (256 < n)), (a + 2, decide (byteAt b (r.desc + 2) % 16 < 8) || decide (12 < byteAt b (r.desc + 2) % 16))]
  | 6 =>
    let n := leAt b r.desc 2
    let sketch := leAt b (r.desc + 4) 2
    x.rsv r.desc [(17, 15), (49, 15), (160, 96)] ++ [(a, n == 0 || decide (1024 < n)), (a + 4, sketch != 0xffff && !refKindIs x.m sketch 7),
      (o + 24, decide (r.size < 32 + 128 * n))]
  | _ =>
    let n := leAt b r.desc 2
    let e := toInt 8 (byteAt b (r.desc + 2))
    x.rsv r.desc [(24, 104)] ++ [(a, n == 0 || decide (64 < n)), (a + 2, decide (e < -126) || decide (96 < e))]

/-- Step 5 on one reference (Table 3-9, R101). -/
def refChecks (x : ImgCtx) (device o : Nat) (earlier : List Ref) (r : Ref) : List Check :=
  [(o, r.kind == 0 || decide (7 < r.kind)), (o + 1, r.pad && (r.kind != 2 || r.place != 3)),
   (o + 4, if r.pad then r.padOff % 256 != 0 else r.padOff != 0), (o + 8, r.absId == 0xffff || earlier.any fun y => y.absId == r.absId)] ++
    if !x.inside r.desc (descBytes x.m r) then []
    else match r.kind with
    | 1 => tableChecks x device o r
    | 4 => boundaryChecks x o r
    | 5 => objectChecks x o r
    | 6 => objectChecks x o r
    | 7 => objectChecks x o r
    | _ => []

/-- Step 6 on one reference (R100, R195, R223). -/
def refNames (x : ImgCtx) (device o : Nat) (r : Ref) : List Check :=
  let d := tableDescAt x.m.blob r.desc
  let here : Bool := (wordsOf x.m r).any fun w => decide (2 ^ 63 ≤ w) && w != 2 ^ 64 - 1
  let needs : Bool := r.addr == 0 && !(r.kind == 1 && r.place == 2) && !(r.kind == 1 && r.place == 0 && !here)
  [(o + 10, !resolves x.m 5 r.hbm || (needs && r.hbm == 0xffff)),
   (o + 12, descBytes x.m r != 0 && !x.inside r.desc (descBytes x.m r)),
   (o + 16, r.addr != 0 && (decide (2 ^ 57 ≤ r.addr) || ((r.kind == 4 || r.kind == 6 || r.kind == 7) && r.addr / 2 ^ 47 != device)))] ++
    if r.kind = 1 then
      [(x.blob + r.desc + 13, d.resPart != 0xffff && !x.m.requests.any fun q => q.kind == 4 && q.absId == d.resPart && q.subkind == 1)]
    else []

/-! ### Streams (Table 9-4, R298 to R304) -/

/-- The stream is listed as a SHARED_TASK of a stream engine. -/
def ruledStream (m : Image) (i : Nat) : Bool := m.certs.any fun c => c.kind == 2 && c.unitKind == 7 && c.index == i

/-- A kind code of a stream's side. -/
def sideKindOk (kind abs : Nat) : Bool := if abs = 0xffff then kind == 0 else [1, 2, 4, 5, 6, 0xf].contains kind

/-- The rules of the streams chapter on a descriptor at an offset of its bytes; `host` for a host descriptor, `ruled` for a SHARED_TASK. -/
def descChecks (o : Nat) (host ruled : Bool) (d : StreamDesc) : List Check :=
  let walkZero : Bool := d.kind == 2
  let queue := hasQueueSide d || (host && queueSide d)
  let ring := ringSide d
  let walk := walkSide d
  let ringSpace := (if d.write then d.src else d.dst) / 2 ^ 53
  let walkSpace := (if d.write then d.dst else d.src) / 2 ^ 53
  let n (v : Nat) : Bool := if walkZero || queue then v != 0 else v == 0
  [(o + 5, d.codec != 0 && d.cmpAbs == 0xffff),
   (o + 7, decide (3 < d.codec) || (!d.write && d.codec != 0) || !sideKindOk d.dstKind d.dstAbs),
   (o + 8, !sideKindOk d.srcKind d.srcAbs || decide (3 < d.kind) || (d.kind != 0 && d.write) || (d.kind == 2 && (d.srcKind != 0xf || (!ruled && !host))) ||
      (d.kind == 3 && d.dstKind != 2) || (host && (d.kind == 1 || d.kind == 2))),
   (o + 9, decide (3 < d.layout) || (d.layout != 0 && d.write) || (d.priv && !ruled) || (d.weights && d.write) || decide (4 < d.elem)),
   (o + 10, d.layout == 3 && d.tileDims == 0), (o + 12, d.layout == 2 && decide (d.d0 / 2 ^ d.elem ≤ d.rot)),
   (o + 27, d.layout != 0 && d.d0 % 2 ^ d.elem != 0),
   (o + 10, decide (d.ring < 2) && d.kind != 3 && d.kind != 2 || (queue && d.tileDims != 0)),
   (o + 12, d.layout != 2 && d.rot != 0),
   (o + 16, !host && d.dstAbs == 0xffff && d.kind != 2), (o + 18, !host && d.srcAbs == 0xffff),
   (o + (if d.write then 18 else 16), d.kind != 3 && d.kind != 2 && !(if host then [2, 3, 4].contains ringSpace || (ringSpace == 5 && [2, 3, 4].contains walkSpace)
       else [1, 2, 4].contains ring.1 || (ring.1 == 6 && [1, 2, 4].contains walk.1))),
   (o + 20, d.kind != 1 && !d.write && d.param != 0xffffffff),
   (o + 24, (d.slotBytes == 0 || d.slotBytes % 256 != 0 || (!queue && decide (d.slotBytes < tileBytes d))) &&
      d.kind != 3 && d.kind != 2),
   (o + 27, if walkZero then d.d0 != 0 else d.d0 == 0),
   (o + 30, if walkZero then d.n1 != 0 else if queue then ruled && d.n1 == 0 else d.n1 == 0), (o + 32, n d.n2), (o + 34, n d.n3),
   (o + 36, (walkZero || queue) && d.s1 != 0), (o + 40, (walkZero || queue) && d.s2 != 0), (o + 44, (walkZero || queue) && d.s3 != 0)]

/-- An ingest block (Table 4-1). -/
def ingestChecks (x : ImgCtx) (o : Nat) : List Check :=
  let g := ingestAt x.m.blob o
  let a := x.blob + o
  [(a, o % 64 != 0 || decide (3 < g.format) || (if g.format = 0 then decide (4 < g.codec) else g.codec != 0))] ++
    x.rsv o [(8, 1), (11, 85), (352, 160)] ++
    [(a + 12, g.records == 0), (a + 24, decide (g.recordCap < 64) || decide (16777216 < g.recordCap)),
     (a + 28, decide (g.unitCap < 4096) || decide (16777216 < g.unitCap)), (a + 36, g.fields == 0 || decide (1024 < g.fields))]

/-- A media block (Table 10-4, R342). -/
def mediaChecks (x : ImgCtx) (o : Nat) (m : MediaBlock) : List Check :=
  let a := x.blob + o
  let raster : Bool := m.kind == 1
  x.rsv o (if raster then [(8, 4), (24, 32), (64, 192), (448, 64)] else [(8, 6), (24, 40), (64, 192), (320, 80), (448, 32)]) ++
    if raster then
      [(a + 1, (m.outC != 1 && m.outC != 3) || m.cropMode == 3),
       (a + 2, m.flipH == 3 || m.flipV == 3 || decide (4 < m.rot) || ((m.rot == 1 || m.rot == 3 || m.rot == 4) && m.outW != m.outH)),
       (a + 38, m.cache != 0xffff && (m.preW == 0 || m.preH == 0)), (a + 48, m.cropMode != 0 && m.cropW == 0), (a + 50, m.cropMode != 0 && m.cropH == 0),
       (a + 52, m.outW == 0 || decide (4096 < m.outW)), (a + 54, m.outH == 0 || decide (4096 < m.outH))]
    else
      [(a + 1, decide (m.log2N < 8) || decide (12 < m.log2N)), (a + 2, m.mix == 3 || !([0xb, 0xa, 9].contains m.outFmt)),
       (a + 50, decide (m.rate < 16000) || decide (48000 < m.rate)), (a + 52, m.hop == 0 || decide (2 ^ m.log2N < m.hop)), (a + 54, m.frames == 0),
       (a + 60, bitAt m.floor 31 || fld 30 23 m.floor == 255 || m.floor == 0)]

/-- The operation indices of an image's SHAPE entries and Matrix layers (R340). -/
def opIndices (x : ImgCtx) : List Nat :=
  x.m.ligatures.flatMap fun l => l.stages.flatMap fun st =>
    if !hasBlock x st then []
    else if st.engine = 2 && st.op == 1 then (shapeAt x.m.blob st.param).entries.map (·.opi)
    else if st.engine = 5 then (matrixAt x.m.blob st.param).layers.map (·.opi) else []

/-- A media block that draws from the Stipple (R340, R348). -/
def augments (m : MediaBlock) : Bool := m.kind == 1 && (m.cropMode == 2 || m.flipH == 2 || m.flipV == 2 || m.rot == 4)

/-- The media blocks of an image with their blob offsets. -/
def mediaPlaces (m : Image) : List (Nat × MediaBlock) :=
  m.streams.flatMap fun d => if d.kind = 1 then
      let bs := mediaBlocks m.blob d.param
      (List.range bs.length).filterMap fun i => (bs[i]?).map fun b => (d.param + 64 + 64 * i, b)
    else []

/-- Step 5 on the media blocks together: the operation indices of R340, the filterbank, the coefficient store of R352. -/
def mediaTogether (x : ImgCtx) : List Check :=
  let ms := mediaPlaces x.m
  let used := opIndices x
  (List.range ms.length).flatMap fun i => match ms[i]? with
    | none => []
    | some (o, m) =>
      let earlier := ms.take i
      let mel := imgRef x.m m.mel
      let weights : MediaBlock → Nat := fun y => ((imgRef x.m y.mel).map fun r => r.size / 4).getD 0
      let sum := total ((earlier.filter fun e => e.2.kind == 2 && e.2.dec == m.dec).map fun e => weights e.2) + weights m
      [(x.blob + o + 7, augments m && (used.contains m.opi || (earlier.any fun e => augments e.2 && e.2.opi == m.opi) ||
          ms.any fun e => e.2.kind == 1 && !augments e.2 && e.2.opi == m.opi)),
       (x.blob + o + 1, m.kind == 2 && mel.any fun r => byteAt x.m.blob (r.desc + 2) % 16 != m.log2N),
       (x.blob + o + 36, m.kind == 2 && decide (262144 < sum))]

/-- The row stride a write stage gives its rows: that of the packed SHAPE or the LAYERS before it. -/
def rowStride (x : ImgCtx) (prev : Stage) : Option Nat :=
  if !hasBlock x prev then none
  else if prev.engine = 2 && prev.op == 1 then some (shapeAt x.m.blob prev.param).stride
  else if prev.engine = 5 then some (matrixAt x.m.blob prev.param).outStride else none

/-! ### Batch layouts (Tables 10-1 and 10-2) -/

/-- The media parts a block uses, with the offset that names each (Table 10-4). -/
def mediaParts (m : MediaBlock) : List (Nat × Nat) :=
  if m.kind = 1 then (if m.dec = 0xffff then [] else [(34, m.dec)]) ++ [(36, m.rsz)] else [(34, m.dec)]

/-- Step 5 on a ruled stream's media parts: one SHARED_TASK for each (R341). -/
def mediaTasks (x : ImgCtx) (i : Nat) (d : StreamDesc) : List Check :=
  if ruledStream x.m i then
    let bs := mediaBlocks x.m.blob d.param
    (List.range bs.length).flatMap fun j => ((bs[j]?).toList.flatMap mediaParts).map fun e =>
      (x.blob + d.param + 64 + 64 * j + e.1,
        (x.m.certs.filter fun c => c.kind == 2 && c.unitKind == 0xc && c.unit == e.2 && c.index == i).length != 1)
  else []

/-- The write streams of an image into a layout. -/
def writersOf (m : Image) (layout : Nat) : List Nat :=
  (List.range m.streams.length).filter fun i => (m.streams[i]?).any fun d => d.write && d.param != 0xffffffff && d.param % 2 ^ 16 == layout

/-- The write stream is ruled: it is listed as a SHARED_TASK (R298, R330). -/
def ruledWriter (m : Image) (i : Nat) : Bool := ruledStream m i

/-- Step 5 on a layout (R323, R330). -/
def layoutChecks (x : ImgCtx) (i o : Nat) (l : Layout) : List Check :=
  let ss := slicesOf x.m.blob l
  let ruled := (writersOf x.m i).any (ruledWriter x.m)
  [(o + 24, l.dstOff % 64 != 0), (o + 32, if ruled then l.closeLag == 0 || decide (8 < l.closeLag) else l.closeLag != 0), (o + 37, l.perSample == 0),
   (o + 41, l.buffers == 0 || !([2, 4, 5].contains l.dstKind)), (o + 48, l.slices == 0 || decide (64 < l.slices)), (o + 50, l.slots == 0),
   (o + 52, l.stride % 64 != 0), (o + 56, l.samples == 0 || decide (2 ^ 48 < l.samples))] ++
    if !x.inside l.sliceOff (16 * l.slices) then []
    else (List.range ss.length).flatMap fun j => match ss[j]? with
      | none => []
      | some s =>
        let a := x.blob + l.sliceOff + 16 * j
        x.rsv (l.sliceOff + 16 * j) [(0, 8), (16, 16)] ++
          [(a + 4, (ss.take j).any fun t => overlap t.validOff t.validLen s.validOff s.validLen), (a + 7, s.validLen == 0),
           (a + 10, decide (s.validOff < s.padOff) || decide (s.padOff + s.padLen < s.validOff + s.validLen)),
           (a + 13, decide (l.stride < s.padOff + s.padLen))]

/-- Step 6 on a layout. -/
def layoutNames (x : ImgCtx) (o : Nat) (l : Layout) : List Check :=
  [(o + 33, !resolves x.m 8 l.sigFree), (o + 35, !resolves x.m 8 l.sigReady), (o + 39, !(x.m.streams[l.src]?).any fun d => d.kind == 1),
   (o + 42, !defined x.m l.dstKind l.dstAbs), (o + 44, !x.inside l.sliceOff (16 * l.slices))]

/-- Step 5 on a stream of an image: its descriptor, its ingest block with media blocks, its layout slice and the row stride of its rows
(R332). -/
def streamChecks (x : ImgCtx) (i o : Nat) (d : StreamDesc) : List Check :=
  descChecks o false (ruledStream x.m i) d ++
    (if d.kind = 1 && x.inside d.param 64 then
      ingestChecks x d.param ++ ((mediaPlaces { x.m with streams := [d] }).flatMap fun e => mediaChecks x e.1 e.2) ++ mediaTasks x i d
    else []) ++
    if d.write && d.param != 0xffffffff then
      match x.m.layouts[d.param % 2 ^ 16]? with
      | none => []
      | some lb =>
        let len := (((slicesOf x.m.blob (layoutAt lb))[d.param / 2 ^ 16]?).map (·.validLen)).getD 0
        let strides := x.m.ligatures.flatMap fun l => (List.range l.stages.length).filterMap fun k => match l.stages[k]?, l.stages[k - 1]? with
          | some st, some pv => if k != 0 && st.engine == 6 && st.side == 1 && st.param == i then rowStride x pv else none
          | _, _ => none
        [(o + 20, strides.any fun n => decide (n < len))]
    else []

/-- A range of an abstract resource or of an existing object: its space (R315), its first byte and the byte past it. -/
abbrev ImgRange := (Nat × Nat) × Nat × Nat

/-- A range of a side: within a reference's region at the reference's place, or in the existing object that it names (Table 3-9). -/
def sideRange (m : Image) (kind abs lo hi : Nat) : ImgRange :=
  if kind = 0xf then
    match imgRef m abs with
    | none => ((kind, abs), lo, hi)
    | some r => if r.addr ≠ 0 then ((16, r.addr), lo, hi)
        else if refAllocated r then ((5, r.hbm), refOffset m.refs r + lo, refOffset m.refs r + hi) else ((5, r.hbm), 0, 2 ^ 57)
  else ((kind, abs), lo, hi)

/-- The range a walk covers from an offset on. -/
def walkRange (d : StreamDesc) (off : Nat) : Nat × Nat :=
  let ends : List Int := [(max 1 d.n1 - 1 : Nat) * d.s1, (max 1 d.n2 - 1 : Nat) * d.s2, (max 1 d.n3 - 1 : Nat) * d.s3]
  let lo : Int := ends.foldl (fun a e => a + min 0 e) off
  let hi : Int := ends.foldl (fun a e => a + max 0 e) off
  (lo.toNat, (hi + d.d0).toNat)

/-- The ranges that a write stream writes: its walk, or the buffers of its layout. -/
def writeRange (m : Image) (d : StreamDesc) : ImgRange :=
  match if d.param = 0xffffffff then none else (m.layouts[d.param % 65536]?).map layoutAt with
  | some l => sideRange m l.dstKind l.dstAbs l.dstOff (l.dstOff + (l.buffers + 1) * (64 + 2 * (ceilDiv l.slots 512 * 64) + l.slots * l.stride))
  | none => let w := walkRange d d.dst; sideRange m d.dstKind d.dstAbs w.1 w.2

/-- The ranges that a stream, an UPDATE or a combiner drain of an image writes (R315). -/
def writtenRanges (m : Image) : List ImgRange :=
  (m.streams.filter (·.write)).map (writeRange m) ++
    m.ligatures.flatMap fun l => (l.stages.filter fun st => st.engine == 4 && st.op == 4).map fun st =>
      let t := (gatherAt m.blob st.param).table
      sideRange m 0xf t 0 (((imgRef m t).map (·.size)).getD 0)

/-- The ranges that an image reads with SD_CACHE set. -/
def cachedRanges (m : Image) : List ImgRange :=
  (m.streams.filter fun d => d.cache && !d.write).map fun d => let w := walkRange d d.src; sideRange m d.srcKind d.srcAbs w.1 w.2

/-- Two ranges meet. -/
def rangesMeet (a b : ImgRange) : Bool := a.1 == b.1 && decide (a.2.1 < b.2.2) && decide (b.2.1 < a.2.2)

/-- A cached read meets a write of its own plan, or in an existing object that of a bound plan (R315). -/
def cacheClash (x : ImgCtx) (d : StreamDesc) : Bool :=
  d.cache && !d.write && (cachedRanges { x.m with streams := [d] }).any fun r =>
    (writtenRanges x.m).any (rangesMeet r) || (r.1.1 == 16 && x.others.any fun m => (writtenRanges m).any (rangesMeet r))

/-- A reference names an existing object that the image writes where a bound plan reads it with SD_CACHE set (R315). -/
def cacheBroken (x : ImgCtx) (r : Ref) : Bool :=
  r.addr != 0 && (writtenRanges x.m).any fun w => w.1 == (16, r.addr) && x.others.any fun m => (cachedRanges m).any (rangesMeet w)

/-- Step 6 on a stream: what it names resolves (R292, R299, R315). -/
def streamNames (x : ImgCtx) (o : Nat) (d : StreamDesc) : List Check :=
  let side : Nat → Nat → Bool := fun k a => a == 0xffff || if k = 0xf then x.m.refs.any fun r => r.absId == a else defined x.m k a
  let g := ingestAt x.m.blob d.param
  [(o + 5, !resolves x.m 0xb d.cmpAbs), (o + 7, cacheClash x d),
   (o + 14, !resolves x.m 8 d.sigSlot), (o + 16, !side d.dstKind d.dstAbs),
   (o + 18, !side d.srcKind d.srcAbs || (d.kind == 2 && !refKindIs x.m d.srcAbs 1)),
   (o + 20, if d.kind = 1 then !x.inside d.param 64
      else d.write && d.param != 0xffffffff && !(x.m.layouts[d.param % 2 ^ 16]?).any fun l => decide (d.param / 2 ^ 16 < (layoutAt l).slices))] ++
    if d.kind = 1 && x.inside d.param 64 then
      let a := x.blob + d.param
      [(a + 32, !x.inside g.fieldList (2 * g.fields)), (a + 38, !resolves x.m 2 g.dictAbs), (a + 40, !x.inside g.fillOff (16 * g.fields))] ++
        (mediaPlaces { x.m with streams := [d] }).flatMap fun e =>
          let b := x.blob + e.1
          let part : Nat → Nat → Bool := fun id sub => x.m.requests.any fun r => r.kind == 0xc && r.subkind == sub && decide (r.absId ≤ id) && decide (id < r.absId + r.amount)
          [(b + 34, if e.2.kind = 1 then e.2.dec != 0xffff && !part e.2.dec 0 else !part e.2.dec 2),
           (b + 36, if e.2.kind = 1 then !part e.2.rsz 1 else !refKindIs x.m e.2.mel 5),
           (b + 38, e.2.cache != 0xffff && !x.m.requests.any fun r => r.kind == 4 && r.subkind == 0 && r.absId == e.2.cache)]
    else []

/-! ### Match loads (Table 8-10) -/

/-- A match load entry. -/
structure MatchLoad where
  (kind region first count blob : Nat)
  deriving DecidableEq, Repr

/-- The load of an entry's bytes. -/
def loadAt (b : Bytes) : MatchLoad :=
  { kind := byteAt b 0, region := leAt b 22 2, first := leAt b 24 2, count := leAt b 26 2, blob := leAt b 28 4 }

/-- Step 5 on a load: its images obey Table 8-5. -/
def loadChecks (x : ImgCtx) (o : Nat) (l : MatchLoad) : List Check :=
  [(o, decide (1 < l.kind)), (o + 26, l.count == 0 || decide (16384 < l.count))] ++
    if l.kind = 0 && x.inside l.blob (40 * l.count) then
      (List.range l.count).flatMap fun i =>
        let img := BitVec.ofNat 320 (leAt x.m.blob (l.blob + 40 * i) 40)
        x.rsv (l.blob + 40 * i) [(289, 31)] ++ [(x.blob + l.blob + 40 * i, (badImage 0 img).any (·.2))]
    else []

/-- Step 6 on a load (R284). -/
def loadNames (x : ImgCtx) (o : Nat) (l : MatchLoad) : List Check :=
  let cap := ((x.m.requests.find? fun r => r.kind == 9 && r.absId == l.region).map (·.amount)).getD 0
  [(o + 22, !defined x.m 9 l.region), (o + 24, decide ((if l.kind = 0 then cap else cap / 64) < l.first + l.count)),
   (o + 28, !x.inside l.blob (if l.kind = 0 then 40 * l.count else l.count))]

/-! ### The six steps -/

/-- Entries of a fixed-size section with their offsets. -/
def placed {α : Type} (b : Bytes) (type size : Nat) (es : List α) : List (Nat × Nat × α) :=
  (List.range es.length).filterMap fun i => (es[i]?).map fun e => (i, entryOff b type size i, e)

/-- The ligatures with the offsets of their entries. -/
def placedLigs (b : Bytes) (m : Image) : List (Nat × Ligature) := (ligatureOffsets b).zip m.ligatures

/-- Step 5 on the stages' blocks, and the operation indices of R217. -/
def stagesChecks (x : ImgCtx) : List Check :=
  (placedLigs x.b x.m).flatMap fun e =>
    ((List.range e.2.stages.length).flatMap fun k => match e.2.stages[k]? with
      | some st => blockChecks x e.2.ruled (e.1 + 32 + 32 * k) (e.2.stages.take k) st
      | none => []) ++
    let shapes := (e.2.stages.filter fun st => st.engine == 2 && st.op == 1 && hasBlock x st).flatMap fun st =>
      (shapeAt x.m.blob st.param).entries.map (·.opi)
    (e.2.stages.filter fun st => st.engine == 5 && hasBlock x st).flatMap fun st =>
      let ls := (matrixAt x.m.blob st.param).layers
      (List.range ls.length).map fun i => (x.blob + st.param + 32 + 32 * i + 13, (ls[i]?).any fun l => shapes.contains l.opi)

/-- Step 5 of R87, section by section. -/
def structureChecks (x : ImgCtx) (device : Nat) : List Check :=
  [(40, x.m.marginLevel == 0 || decide (7 < x.m.marginLevel))] ++ requestsChecks x.b x.m.requests ++
    ((placed x.b 1 32 x.m.requests).map fun e => (e.2.1 + 20, e.2.2.kind == 9 && e.2.2.near == 0xffff)) ++
    ligaturesChecks x.b x.m ++ stagesChecks x ++
    ((placed x.b 3 64 x.m.streams).flatMap fun e => streamChecks x e.1 e.2.1 e.2.2) ++ mediaTogether x ++
    ((placed x.b 4 32 x.m.refs).flatMap fun e => refChecks x device e.2.1 (x.m.refs.take e.1) e.2.2) ++ certChecks x.b x.m ++
    ((placed x.b 7 64 x.m.layouts).flatMap fun e => layoutChecks x e.1 e.2.1 (layoutAt e.2.2)) ++
    (placed x.b 8 32 x.m.loads).flatMap fun e => loadChecks x e.2.1 (loadAt e.2.2)

/-- Step 6 of R87. -/
def nameChecks (x : ImgCtx) (device : Nat) : List Check :=
  requestNames x.b x.m ++ ligatureNames x.b x.m ++
    ((placedLigs x.b x.m).flatMap fun e => (List.range e.2.stages.length).flatMap fun k => match e.2.stages[k]? with
      | some st => blockNames x (e.1 + 32 + 32 * k) st
      | none => []) ++
    ((placed x.b 3 64 x.m.streams).flatMap fun e => streamNames x e.2.1 e.2.2) ++
    ((placed x.b 4 32 x.m.refs).flatMap fun e => refNames x device e.2.1 e.2.2 ++ [(e.2.1 + 16, cacheBroken x e.2.2)]) ++ depNames x.b x.m ++ certNames x.b x.m ++
    ((placed x.b 7 64 x.m.layouts).flatMap fun e => layoutNames x e.2.1 (layoutAt e.2.2)) ++
    (placed x.b 8 32 x.m.loads).flatMap fun e => loadNames x e.2.1 (loadAt e.2.2)

/-- The six steps of R87 on an image of `len` bytes, on a device whose dies have `die` bytes of HBM and that has the plans of some images bound: the
offset of the first failure, or the image. -/
def validate (b : Bytes) (len device die : Nat) (others : List Image) : Nat ⊕ Image :=
  match firstBad (headerChecks b len) with
  | some o => .inl o
  | none => match firstBad (directoryChecks b len) with
    | some o => .inl o
    | none => match firstBad (reservedChecks b [(0, 128)] [(8, 168)]) with
      | some o => .inl o
      | none =>
        let m := parseImage b (sha384 b)
        let x : ImgCtx := ⟨b, m, ((sectionOf b 9).map (·.offset)).getD 0, die, others⟩
        match firstBad (structureChecks x device) with
        | some o => .inl o
        | none => match firstBad (nameChecks x device) with
          | some o => .inl o
          | none => .inr m

end Sys2Proof.Machine
end

