-- ==== Sys2Proof/Machine/Jpeg.lean ====
section
/-! DEFINITION. The baseline JPEG decoder of the media units (R344, R345). -/

namespace Sys2Proof.Machine

/-- JPEG_UNSUPPORTED, JPEG_STREAM, RASTER_SHAPE, DIMENSION_CLAIM. -/
def jpegUnsupported : Nat := 0x60
def jpegStream : Nat := 0x61
def rasterShape : Nat := 0x62

/-! ### Images -/

/-- An image of interleaved 8-bit samples, row-major. -/
structure Img where
  (w h c : Nat)
  (px : Array Nat)

/-- A sample. -/
def Img.at_ (m : Img) (x y k : Nat) : Nat := m.px.getD ((y * m.w + x) * m.c + k) 0

/-- An image from its samples. -/
def Img.make (w h c : Nat) (f : Nat → Nat → Nat → Nat) : Img :=
  ⟨w, h, c, ((List.range (w * h * c)).map fun i => f (i / c % w) (i / c / w) (i % c)).toArray⟩

/-! ### The transform (R345) -/

/-- 4,096 × cos(kπ ÷ 16), rounded. -/
def jpegCos (k : Nat) : Int :=
  let t : Nat → Int := fun k => nth [4096, 4017, 3784, 3406, 2896, 2276, 1567, 799, 0] k 0
  let k := k % 32
  let k := if 16 < k then 32 - k else k
  if 8 < k then -(t (16 - k)) else t k

/-- K[u][x]. -/
def jpegK (u x : Nat) : Int := if u = 0 then 2896 else jpegCos ((2 * x + 1) * u)

/-- A number clamped to 0 to 255. -/
def clamp8 (n : Int) : Nat := if n < 0 then 0 else if 255 < n then 255 else n.toNat

/-- The samples of a block from its dequantised coefficients, F[u][v] at 8v + u. -/
def jpegIdct (f : Array Int) : Array Nat :=
  let rows : Array Int := ((List.range 64).map fun i =>
    (List.range 8).foldl (fun a u => a + jpegK u (i % 8) * f.getD (8 * (i / 8) + u) 0) 0).toArray
  ((List.range 64).map fun i =>
    let sum := (List.range 8).foldl (fun a v => a + jpegK v (i / 8) * rows.getD (8 * v + i % 8) 0) 0
    clamp8 ((toInt 64 (ofInt 64 sum) + 33554432) / 67108864 + 128)).toArray

/-- The natural place of a zigzag place. -/
def zigzagPlace : Array Nat :=
  #[0, 1, 8, 16, 9, 2, 3, 10, 17, 24, 32, 25, 18, 11, 4, 5, 12, 19, 26, 33, 40, 48, 41, 34, 27, 20, 13, 6, 7, 14, 21, 28, 35, 42, 49, 56,
    57, 50, 43, 36, 29, 22, 15, 23, 30, 37, 44, 51, 58, 59, 52, 45, 38, 31, 39, 46, 53, 60, 61, 54, 47, 55, 62, 63]

/-! ### Entropy decoding -/

/-- The bits of entropy-coded bytes, most significant first. -/
def msbBits (bs : Bytes) : Bits := bs.flatMap fun b => (bitsOf [b]).reverse

/-- The next `n` bits, the first one most significant. -/
def msbGet : Nat → Bits → Nat → Dec (Nat × Bits)
  | 0, b, v => .ok (v, b)
  | _ + 1, [], _ => .error jpegStream
  | n + 1, x :: xs, v => msbGet n xs (2 * v + b2n x)

/-- A signed coefficient of a category (the EXTEND of T.81). -/
def msbExtend (n : Nat) (b : Bits) : Dec (Int × Bits) := do
  let (v, b) ← msbGet n b 0
  .ok (if n = 0 then 0 else if v < 2 ^ (n - 1) then (v : Int) - (2 ^ n : Nat) + 1 else v, b)

/-- The next symbol of a Huffman table; input that runs out or names no code is malformed. -/
def jpegSym (h : Huff) (b : Bits) : Dec (Nat × Bits) :=
  match huffSym h h.counts 0 0 0 b with
  | .ok r => .ok r
  | .error _ => .error jpegStream

/-- The AC coefficients of a block from zigzag place `k`. -/
def jpegAc (h : Huff) (q : Array Nat) : Nat → Nat → Bits → Array Int → Dec (Bits × Array Int)
  | 0, _, _, _ => .error jpegStream
  | f + 1, k, b, out =>
    if 63 < k then .ok (b, out)
    else do
      let (rs, b) ← jpegSym h b
      let r := rs / 16
      let n := rs % 16
      if n = 0 then
        if r = 15 then do
          need (decide (k + 15 ≤ 63)) jpegStream
          jpegAc h q f (k + 16) b out
        else do
          need (r == 0) jpegStream
          .ok (b, out)
      else do
        need (decide (n ≤ 10) && decide (k + r ≤ 63)) jpegStream
        let (v, b) ← msbExtend n b
        jpegAc h q f (k + r + 1) b (out.setIfInBounds (zigzagPlace.getD (k + r) 0) (v * q.getD (k + r) 0))

/-- One block: its samples and the new DC prediction. -/
def jpegBlock (dc ac : Huff) (q : Array Nat) (pred : Int) (b : Bits) : Dec (Bits × Int × Array Nat) := do
  let (n, b) ← jpegSym dc b
  need (decide (n ≤ 11)) jpegStream
  let (d, b) ← msbExtend n b
  let p := pred + d
  let (b, f) ← jpegAc ac q 65 1 b ((Array.replicate 64 (0 : Int)).setIfInBounds 0 (p * q.getD 0 0))
  .ok (b, p, jpegIdct f)

/-- The entropy-coded data of a scan by restart intervals, and the bytes from the marker that ends it. -/
def jpegIntervals : Nat → Nat → Bytes → Bytes → Dec (List Bytes × Bytes)
  | 0, _, _, _ => .error jpegStream
  | _, _, [], _ => .error jpegStream
  | _, _, [_], _ => .error jpegStream
  | f + 1, k, x :: m :: r, acc =>
    if x != 0xff then jpegIntervals f k (m :: r) (x :: acc)
    else if m = 0 then jpegIntervals f k r (0xff :: acc)
    else if m = 0xff then jpegIntervals f k (m :: r) acc
    else if 0xd0 ≤ m.toNat && m.toNat ≤ 0xd7 then do
      need (m.toNat - 0xd0 == k % 8) jpegStream
      let (is, rest) ← jpegIntervals f (k + 1) r []
      .ok (acc.reverse :: is, rest)
    else .ok ([acc.reverse], x :: m :: r)

/-! ### Frames and scans -/

/-- A component of a frame: its id, sampling factors and quantisation table, the blocks per row and in all of its padded plane, the
samples of its blocks, and whether a scan has given them. -/
structure JComp where
  (id h v tq bw bh : Nat)
  (blocks : Array (Array Nat))
  (given : Bool)

/-- The decoder: its frame, its tables, the restart interval. -/
structure Jpeg where
  (x y : Nat)
  (comps : List JComp)
  (q : List (Nat × Array Nat))
  (dc ac : List (Nat × Huff))
  (ri : Nat)

/-- The largest sampling factors. -/
def Jpeg.hMax (j : Jpeg) : Nat := j.comps.foldl (fun a c => max a c.h) 1
def Jpeg.vMax (j : Jpeg) : Nat := j.comps.foldl (fun a c => max a c.v) 1

/-- The blocks of MCU `m` of a scan over some components, as (component, block place) (T.81). -/
def Jpeg.mcu (j : Jpeg) (cs : List Nat) (m : Nat) : List (Nat × Nat) :=
  match cs with
  | [k] => match j.comps[k]? with
    | some c =>
      let w := ceilDiv (ceilDiv (j.x * c.h) j.hMax) 8
      [(k, m / w * c.bw + m % w)]
    | none => []
  | _ =>
    let w := ceilDiv j.x (8 * j.hMax)
    cs.flatMap fun k => match j.comps[k]? with
      | some c => (List.range (c.h * c.v)).map fun i => (k, (m / w * c.v + i / c.h) * c.bw + m % w * c.h + i % c.h)
      | none => []

/-- The MCUs of a scan. -/
def Jpeg.mcus (j : Jpeg) (cs : List Nat) : Nat :=
  match cs with
  | [k] => match j.comps[k]? with
    | some c => ceilDiv (ceilDiv (j.x * c.h) j.hMax) 8 * ceilDiv (ceilDiv (j.y * c.v) j.vMax) 8
    | none => 0
  | _ => ceilDiv j.x (8 * j.hMax) * ceilDiv j.y (8 * j.vMax)

/-- A scan's tables by component: the component and its DC and AC tables. -/
abbrev ScanTables := List (Nat × Huff × Huff × Array Nat)

/-- The blocks of a restart interval decoded in order; `preds` holds the DC predictions by component. -/
def jpegBlocks (ts : ScanTables) : List (Nat × Nat) → List (Nat × Int) → Bits → Jpeg → Dec (Bits × Jpeg)
  | [], _, b, j => .ok (b, j)
  | (k, at_) :: rest, preds, b, j => do
    let (dc, ac, q) ← match look k ts with
      | some t => pure t
      | none => .error jpegStream
    let (b, p, px) ← jpegBlock dc ac q ((look k preds).getD 0) b
    let j := { j with comps := modifyAt (fun c => { c with blocks := c.blocks.setIfInBounds at_ px }) k j.comps }
    jpegBlocks ts rest (put k p preds) b j

/-- The restart intervals of a scan. -/
def jpegScan (ts : ScanTables) (per : Nat) : Nat → List Bytes → Nat → Jpeg → Dec Jpeg
  | _, [], left, j => do
    need (left == 0) jpegStream
    .ok j
  | m, d :: ds, left, j => do
    let n := min per left
    need (decide (0 < n)) jpegStream
    let (b, j) ← jpegBlocks ts ((List.range n).flatMap fun i => j.mcu (ts.map (·.1)) (m + i)) [] (msbBits d) j
    need (decide (b.length < 8)) jpegStream
    jpegScan ts per (m + n) ds (left - n) j

/-- Tables of a DQT segment. -/
def jpegDqt : Nat → Bytes → Jpeg → Dec Jpeg
  | 0, _, _ => .error jpegStream
  | _, [], j => .ok j
  | f + 1, t :: bs, j => do
    need (decide (t.toNat < 4) && decide (64 ≤ bs.length)) jpegStream
    jpegDqt f (bs.drop 64) { j with q := put t.toNat (((bs.take 64).map (·.toNat)).toArray) j.q }

/-- Tables of a DHT segment. -/
def jpegDht : Nat → Bytes → Jpeg → Dec Jpeg
  | 0, _, _ => .error jpegStream
  | _, [], j => .ok j
  | f + 1, t :: bs, j => do
    let counts := (bs.take 16).map (·.toNat)
    let n := counts.sum
    need (decide (t.toNat % 16 < 2) && decide (t.toNat / 16 < 2) && decide (16 + n ≤ bs.length) && decide (n ≤ 256)) jpegStream
    need ((codesLeft (0 :: counts)).any fun l => decide (0 < l)) jpegStream
    let h : Huff := { counts := counts, syms := (((bs.drop 16).take n).map (·.toNat)).toArray }
    jpegDht f (bs.drop (16 + n)) (if t.toNat / 16 = 0 then { j with dc := put (t.toNat % 16) h j.dc } else { j with ac := put (t.toNat % 16) h j.ac })

/-- The frame header: the claim, then what R344 does not accept, then the shape of the item header. -/
def jpegSof (marker cap length w h ch : Nat) (bs : Bytes) (j : Jpeg) : Dec Jpeg := do
  need (decide (6 ≤ bs.length)) jpegStream
  let y := beAt bs 1 2
  let x := beAt bs 3 2
  let n := byteAt bs 5
  need (decide (x * y * n ≤ cap) && decide (x * y * n ≤ 4096 * length)) 0x38
  need (marker == 0xc0 && byteAt bs 0 == 8 && j.comps.isEmpty) jpegUnsupported
  need (n != 0 && bs.length == 6 + 3 * n) jpegStream
  need (n == 1 || n == 3) jpegUnsupported
  let cs := (List.range n).map fun i => (byteAt bs (6 + 3 * i), byteAt bs (7 + 3 * i) / 16, byteAt bs (7 + 3 * i) % 16, byteAt bs (8 + 3 * i))
  need (cs.all fun c => decide (1 ≤ c.2.1) && decide (c.2.1 ≤ 4) && decide (1 ≤ c.2.2.1) && decide (c.2.2.1 ≤ 4) && decide (c.2.2.2 < 4)) jpegStream
  let luma := (cs.map fun c => (c.2.1, c.2.2.1)).headD (1, 1)
  need (n == 1 || ([(1, 1), (2, 1), (2, 2)].contains luma && (cs.drop 1).all fun c => c.2.1 == 1 && c.2.2.1 == 1)) jpegUnsupported
  need (x == w && y == h && n == ch && x != 0 && y != 0) rasterShape
  let j : Jpeg := { j with x := x, y := y, comps := cs.map fun (c : Nat × Nat × Nat × Nat) => ⟨c.1, c.2.1, c.2.2.1, c.2.2.2, 0, 0, #[], false⟩ }
  .ok { j with comps := j.comps.map fun (c : JComp) =>
    let bw := ceilDiv x (8 * j.hMax) * c.h
    let bh := ceilDiv y (8 * j.vMax) * c.v
    { c with bw := bw, bh := bh, blocks := Array.replicate (bw * bh) #[] } }

/-- A scan header with the data after it; the bytes from the marker that ends the scan. -/
def jpegSos (head rest : Bytes) (j : Jpeg) : Dec (Jpeg × Bytes) := do
  let n := byteAt head 0
  need (decide (1 ≤ n) && head.length == 4 + 2 * n && byteAt head (1 + 2 * n) == 0 && byteAt head (2 + 2 * n) == 63 && byteAt head (3 + 2 * n) == 0 &&
    !j.comps.isEmpty) jpegStream
  let ts ← (List.range n).mapM fun i =>
    match j.comps.findIdx? fun c => c.id == byteAt head (1 + 2 * i) && !c.given with
    | none => .error jpegStream
    | some k =>
      let t := byteAt head (2 + 2 * i)
      match look (t / 16) j.dc, look (t % 16) j.ac, (j.comps[k]?).bind fun c => look c.tq j.q with
      | some dc, some ac, some q => .ok (k, dc, ac, q)
      | _, _, _ => .error jpegStream
  need ((dedup (ts.map fun t => t.1)).length == n) jpegStream
  let (is, rest) ← jpegIntervals (rest.length + 1) 0 rest []
  let total := j.mcus (ts.map fun t => t.1)
  let j ← jpegScan ts (if j.ri = 0 then total else j.ri) 0 is total j
  .ok ({ j with comps := ((List.range j.comps.length).zip j.comps).map fun e => if ts.any fun t => t.1 == e.1 then { e.2 with given := true } else e.2 }, rest)

/-- The segments of a stream from a marker on, up to EOI. -/
def jpegSegments (cap length w h ch : Nat) : Nat → Bytes → Jpeg → Dec Jpeg
  | 0, _, _ => .error jpegStream
  | f + 1, bs, j => do
    need (decide (2 ≤ bs.length) && byteAt bs 0 == 0xff) jpegStream
    let m := byteAt bs 1
    if m = 0xff then jpegSegments cap length w h ch f (bs.drop 1) j
    else if m = 0xd9 then do
      need (!j.comps.isEmpty && j.comps.all fun c => c.given) jpegStream
      .ok j
    else do
      need (decide (0xc0 ≤ m) && !(decide (0xd0 ≤ m) && decide (m ≤ 0xd8)) && !(decide (0xf0 ≤ m) && m != 0xfe)) jpegStream
      let n := beAt bs 2 2
      need (decide (2 ≤ n) && decide (2 + n ≤ bs.length)) jpegStream
      let seg := slice bs 4 (n - 2)
      let rest := bs.drop (2 + n)
      if m = 0xc4 then do
        let j ← jpegDht (seg.length + 1) seg j
        jpegSegments cap length w h ch f rest j
      else if m = 0xdb then do
        let j ← jpegDqt (seg.length + 1) seg j
        jpegSegments cap length w h ch f rest j
      else if m = 0xdd then do
        need (seg.length == 2) jpegStream
        jpegSegments cap length w h ch f rest { j with ri := beAt seg 0 2 }
      else if m = 0xda then do
        let (j, rest) ← jpegSos seg rest j
        jpegSegments cap length w h ch f rest j
      else if (0xe0 ≤ m && m ≤ 0xef) || m = 0xfe then jpegSegments cap length w h ch f rest j
      else if m = 0xc8 || m = 0xcc || 0xdc ≤ m then .error jpegUnsupported
      else do
        let j ← jpegSof m cap length w h ch seg j
        jpegSegments cap length w h ch f rest j

/-- A component's sample at a place of the image, replicated where it is subsampled. -/
def Jpeg.sample (j : Jpeg) (k x y : Nat) : Nat :=
  match j.comps[k]? with
  | none => 0
  | some c =>
    let x := x * c.h / j.hMax
    let y := y * c.v / j.vMax
    (c.blocks.getD (y / 8 * c.bw + x / 8) #[]).getD (y % 8 * 8 + x % 8) 0

/-- R, G, B of a sample (R345). -/
def ycc (y cb cr k : Nat) : Nat :=
  let y : Int := y
  let b : Int := (cb : Int) - 128
  let r : Int := (cr : Int) - 128
  clamp8 (match k with
    | 0 => y + (91881 * r + 32768) / 65536
    | 1 => y + (-22554 * b - 46802 * r + 32768) / 65536
    | _ => y + (116130 * b + 32768) / 65536)

/-- A JPEG raster decoded: 1 or 3 channels of YCbCr as they lie, with the reason it fails. `w`, `h`, `ch` are those of the item header. -/
def jpegDecode (cap w h ch : Nat) (bs : Bytes) : Dec Jpeg := do
  need (leAt bs 0 2 == 0xd8ff) jpegStream
  jpegSegments cap bs.length w h ch (bs.length + 1) (bs.drop 2) ⟨0, 0, [], [], [], [], 0⟩

end Sys2Proof.Machine
end

