-- ==== Sys2Proof/Machine/Media.lean ====
section
/-! DEFINITION. The media units: raster items, the decoded-sample cache, the audio front end (R343 to R352). -/

namespace Sys2Proof.Machine

/-! ### Raster operations (R346 to R348) -/

/-- The luma of a raw raster (R346). -/
def lumaOf (r g b : Nat) : Nat := (19595 * r + 38470 * g + 7471 * b + 32768) / 65536

/-- A raster item decoded and brought to MD_OUT_C channels (R343 steps 1 and 2). -/
def rasterDecode (outC cap : Nat) (b : Bytes) : Dec Img :=
  let w := leAt b 0 2
  let h := leAt b 2 2
  let ch := byteAt b 4
  if byteAt b 5 = 0 then
    let px := ((b.drop 16).map (·.toNat)).toArray
    let m : Img := ⟨w, h, ch, px⟩
    .ok (Img.make w h outC fun x y k =>
      if ch = 1 then m.at_ x y 0
      else if outC = 1 then lumaOf (m.at_ x y 0) (m.at_ x y 1) (m.at_ x y 2)
      else m.at_ x y k)
  else do
    let j ← jpegDecode cap w h ch (b.drop 16)
    .ok (Img.make w h outC fun x y k =>
      if ch = 1 || outC = 1 then j.sample 0 x y else ycc (j.sample 0 x y) (j.sample 1 x y) (j.sample 2 x y) k)

/-- The bilinear source position of an output place: the two input places and the weight of the second. -/
def bilinearAt (i wi wo : Nat) : Nat × Nat × Nat :=
  let p : Int := (((2 * i + 1) * wi : Nat) - (wo : Int)) * 65536 / ((2 * wo : Nat) : Int)
  let p := if p < 0 then 0 else min p.toNat ((wi - 1) * 65536)
  (p / 65536, min (p / 65536 + 1) (wi - 1), p / 256 % 256)

/-- The input places an output place covers with their overlaps, in units of 1 ÷ (input × output). -/
def areaAt (i wi wo : Nat) : List (Nat × Nat) :=
  (List.range ((i + 1) * wi / max 1 wo + 1 - i * wi / max 1 wo)).filterMap fun d =>
    let k := i * wi / max 1 wo + d
    let n := min ((k + 1) * wo) ((i + 1) * wi) - max (k * wo) (i * wi)
    if n = 0 then none else some (k, n)

/-- Resizing (R347). -/
def resize (area : Bool) (wo ho : Nat) (m : Img) : Img :=
  Img.make wo ho m.c fun x y k =>
    if area then
      let sum := (areaAt y m.h ho).foldl (fun a r => (areaAt x m.w wo).foldl (fun a c => a + m.at_ c.1 r.1 k * c.2 * r.2) a) 0
      (sum + m.w * m.h / 2) / max 1 (m.w * m.h)
    else
      let sx := bilinearAt x m.w wo
      let sy := bilinearAt y m.h ho
      let row : Nat → Nat := fun r => m.at_ sx.1 r k * (256 - sx.2.2) + m.at_ sx.2.1 r k * sx.2.2
      (row sy.1 * (256 - sy.2.2) + row sy.2.1 * sy.2.2 + 32768) / 65536

/-- Steps 1 to 3 of R343. -/
def rasterBase (m : MediaBlock) (cap : Nat) (b : Bytes) : Dec Img := do
  let i ← rasterDecode m.outC cap b
  .ok (if m.preW = 0 || m.preH = 0 then i else resize (m.filter == 1) m.preW m.preH i)

/-- The crop of a block lies wholly inside an image, wherever the draw puts it (R348). -/
def cropFits (m : MediaBlock) (i : Img) : Bool :=
  match m.cropMode with
  | 0 => true
  | 1 => decide (m.cropX + m.cropW ≤ i.w) && decide (m.cropY + m.cropH ≤ i.h)
  | _ => decide (m.cropW ≤ i.w) && decide (m.cropH ≤ i.h)

/-- Steps 4 to 7 of R343 with a Stipple draw, on an image that its crop fits (R348). -/
def rasterFinish (m : MediaBlock) (draw : Nat) (i : Img) : Img :=
  let cw := if m.cropMode = 0 then i.w else m.cropW
  let ch := if m.cropMode = 0 then i.h else m.cropH
  let x0 := if m.cropMode = 1 then m.cropX else if m.cropMode = 2 then (draw % 2 ^ 32) * (i.w + 1 - cw) / 2 ^ 32 else 0
  let y0 := if m.cropMode = 1 then m.cropY else if m.cropMode = 2 then (draw / 2 ^ 32 % 2 ^ 32) * (i.h + 1 - ch) / 2 ^ 32 else 0
  let c := Img.make cw ch i.c fun x y k => i.at_ (x0 + x) (y0 + y) k
  let c := if cw = m.outW && ch == m.outH then c else resize (m.filter == 1) m.outW m.outH c
  let fh := m.flipH == 1 || (m.flipH == 2 && bitAt draw 64)
  let fv := m.flipV == 1 || (m.flipV == 2 && bitAt draw 65)
  let f := Img.make c.w c.h c.c fun x y k => c.at_ (if fh then c.w - 1 - x else x) (if fv then c.h - 1 - y else y) k
  let turns := if m.rot < 4 then m.rot else fld 67 66 draw
  match turns with
    | 1 => Img.make f.h f.w f.c fun x y k => f.at_ y (f.h - 1 - x) k
    | 2 => Img.make f.w f.h f.c fun x y k => f.at_ (f.w - 1 - x) (f.h - 1 - y) k
    | 3 => Img.make f.h f.w f.c fun x y k => f.at_ (f.w - 1 - y) x k
    | _ => f

/-! ### The audio front end (R351) -/

/-- The FP32 samples of a channel of a PCM item. -/
def pcmSample (fmt : Nat) (b : Bytes) : Nat :=
  match fmt with
  | 0 => fp32.rne (FV.ofInt (toInt 16 (ofLe b)) (-15) false)
  | 1 => fp32.rne (FV.ofInt (toInt 24 (ofLe b)) (-23) false)
  | _ => ofLe b

/-- The mixed samples of a PCM item (R351 steps 1 and 2). -/
def pcmMix (mix : Nat) (b : Bytes) : List Nat :=
  let fmt := byteAt b 5
  let w := fmt + 2
  let ch := byteAt b 4
  (pieces (w * ch) (b.drop 16)).map fun f =>
    let a := pcmSample fmt (f.take w)
    if ch = 1 then a
    else
      let c := pcmSample fmt (slice f w w)
      match mix with
      | 1 => a
      | 2 => c
      | _ => fp32.mul (fp32.add a c) 0x3f000000

/-- The natural logarithm of a positive FP32 value, within 2 ulp. -/
def logOf (x : Nat) : Nat :=
  match fp32.dec x with
  | .fin _ m e => if m = 0 then fp32.signed true fp32.infMag else within 0x100 x 2 false (fun _ => true) (fxLn m e)
  | .inf _ => x
  | .nan => fp32.qnan

/-- A PCM item's log-mel values, frame-major, in AF_OUT_FMT; or the reason it is blotted. -/
def pcmItem (m : MediaBlock) (filters : Nat) (weights : Bytes) (b : Bytes) : Dec (List Nat) := do
  let fmt := byteAt b 5
  let raw := numbersOf' (fmt + 2) (b.drop 16)
  need (leAt b 6 4 == m.rate && !(fmt == 2 && raw.any fun x => fp32.isNan x || fp32.isInf x)) 0x63
  let xs := (pcmMix m.mix b).toArray
  let n := 2 ^ m.log2N
  let bins := n / 2 + 1
  let ws := (numbersOf' 4 weights).toArray
  .ok ((List.range m.frames).flatMap fun t =>
    let mag := magnitudes m.log2N true ((List.range n).map fun i => xs.getD (t * m.hop + i) 0)
    (List.range filters).map fun f =>
      let acc := ((List.range bins).zip mag).foldl (fun a e => fp32.fma (ws.getD (f * bins + e.1) 0) e.2 a) 0
      let v := if fp32.isNan acc then fp32.qnan else if (fp32.dec acc).lt (fp32.dec m.floor) then m.floor else acc
      (convert 0xb m.outFmt 0 true 0 (logOf v)).bits)
where
  /-- The numbers of some bytes at a width. -/
  numbersOf' (w : Nat) (bs : Bytes) : List Nat := (pieces (max 1 w) bs).map ofLe

/-! ### The decoded-sample cache (R349, R350) -/

/-- The bits of a media block the decode-parameter hash keeps. -/
def cacheMask (kind : Nat) : Nat :=
  let bits : Nat → Nat → Nat := fun hi lo => (2 ^ (hi + 1 - lo) - 1) * 2 ^ lo
  if kind = 1 then bits 7 0 + bits 13 12 + bits 16 16 + bits 351 320
  else bits 23 14 + bits 447 400 + bits 511 480

/-- The decode-parameter hash of a media block; for PCM the hash of the filterbank's contents follows the block. -/
def paramHash (block : Bytes) (bank : Bytes) : Nat :=
  let kind := byteAt block 0
  let b := le 64 (ofLe (fit 64 block) &&& cacheMask kind)
  xxh64 0 (if kind = 1 then b else b ++ le 8 (xxh64 0 bank))

/-- The sets of a part of `size` bytes for items of `item` bytes. -/
def cacheSets (size item : Nat) : Nat := size / (alignUp item 64 + 16) / 16

/-- A look-up: the item, with the hit counted. -/
def cacheHit (c : SampleCache) (set : Nat) (key : Nat × Nat × Nat × Nat) : Option (Bytes × SampleCache) :=
  (c.ways.find? fun w => w.set == set && w.key == key).map fun w =>
    (w.item, ⟨c.ways.map fun x => if x.set == set && x.key == key then { x with uses := min 3 (x.uses + 1) } else x⟩)

/-- A miss: the item put into the lowest invalid way, or in place of the lowest way whose count comes to 0. -/
def cacheFill (c : SampleCache) (set : Nat) (key : Nat × Nat × Nat × Nat) (item : Bytes) : SampleCache :=
  let mine := c.ways.filter fun w => w.set == set
  if mine.any fun w => w.key == key then c
  else match (List.range 16).find? fun i => !mine.any fun w => w.way == i with
  | some i => ⟨⟨set, i, key, 0, item⟩ :: c.ways⟩
  | none =>
    let ways := c.ways.map fun w => if w.set == set then { w with uses := w.uses - 1 } else w
    match (List.range 16).find? fun i => ways.any fun w => w.set == set && w.way == i && w.uses == 0 with
    | some i => ⟨⟨set, i, key, 0, item⟩ :: ways.filter fun w => !(w.set == set && w.way == i)⟩
    | none => ⟨ways⟩

end Sys2Proof.Machine
end

