-- ==== Sys2Proof/Machine/Ingest.lean ====
section
/-! DEFINITION. Ingest streams: arming, the format walker's units, the compression engines' frames, media items, and what the consumer
takes (R113 to R150, R326, R341 to R351). -/

namespace Sys2Proof.Machine

/-! ### Sources -/

/-- The bytes of a stream's walk in walk order; what is not held delivers zeros (R293). -/
def sourceBytes (s : State) (p : Option Plan) (d : StreamDesc) : Bytes :=
  match walkBaseDva p d with
  | none => []
  | some base => (List.range (tileCount d * tileRows d)).flatMap fun r => readHeld s (walkDva base d 0 (r * d.d0)) d.d0

/-- The blob of a stream's plan. -/
def blobOf (p : Option Plan) : Bytes := (p.map fun p => p.image.blob).getD []

/-- Bytes of the cluster-store region that holds Parquet dictionaries. -/
def dictRegion (p : Option Plan) (absId : Nat) : Nat := ((p.bind fun p => boundOf p 2 absId).map (·.size)).getD 0

/-- The bytes of a stream's walk with every byte on an ABSENT page read as `v`. -/
def sourceAs (v : Byte) (s : State) (p : Option Plan) (d : StreamDesc) : Bytes :=
  match walkBaseDva p d with
  | none => []
  | some base => (List.range (tileCount d * tileRows d)).flatMap fun r => (spans (walkDva base d 0 (r * d.d0)) d.d0).flatMap fun e =>
      match access s e.1 e.2 with
      | .ok => readDva s e.1 e.2
      | .absent _ => List.replicate e.2 v
      | .out => zeros e.2

/-- What the walker of a stream works with. -/
def walkCtx (s : State) (p : Option Plan) (d : StreamDesc) : WalkCtx :=
  let blob := blobOf p
  let g := ingestAt blob d.param
  { ing := g, nums := fieldNumbers blob g, fills := (List.range g.fields).map (fillBytes blob g), dictBytes := dictRegion p g.dictAbs,
    src := sourceBytes s p d }

/-- Goust arms a stream onto its source (R124, R130): what it read of it, or the offset the failure is reported at. -/
def armSource (s : State) (p : Option Plan) (d : StreamDesc) : Except Nat (List Chunk) :=
  let c := walkCtx s p d
  match c.ing.format with
  | 2 => armParquet c.nums c.src
  | 3 => armArrow c.nums c.src
  | _ => .ok []

/-- The first place of `n` bytes that lies on an ABSENT page. -/
def absentByte (s : State) (dva n : Nat) : Option Nat :=
  (List.range (n / pageBytes + 2)).findSome? fun i =>
    let a := max dva ((dva / pageBytes + i) * pageBytes)
    if a < dva + n then (match access s a 1 with | .absent _ => some a | _ => none) else none

/-- The first place of a source from byte `from'` on that lies on an ABSENT page: its offset and DVA. -/
def absentAt (s : State) (p : Option Plan) (d : StreamDesc) (from' : Nat) : Option (Nat × Nat) :=
  match walkBaseDva p d with
  | none => none
  | some base => (List.range (tileCount d * tileRows d)).findSome? fun r =>
      let skip := min d.d0 (from' - r * d.d0)
      let a := walkDva base d 0 (r * d.d0)
      (absentByte s (a + skip) (d.d0 - skip)).map fun x => (r * d.d0 + (x - a), x)

/-- Part of a tile of the source lies outside what the stream may read (R293). -/
def tileOut (s : State) (p : Option Plan) (d : StreamDesc) (tile : Nat) : Bool :=
  match walkBaseDva p d with
  | none => false
  | some base => (List.range (tileRows d)).any fun r => rangeOut s (walkDva base d tile (r * d.d0)) d.d0

/-- Part of the source lies outside what the stream may read (R293). -/
def sourceOut (s : State) (p : Option Plan) (d : StreamDesc) : Bool := (List.range (tileCount d)).any (tileOut s p d)

/-! ### INGEST_UNIT_DECODE -/

/-- The reports of a unit written (R148). -/
def reportUnit (k : Nat × Nat) (rs : List Report) (s : State) : State :=
  rs.foldl (fun s r => emitBlot { reason := r.reason, plan := k.1, source := k.2, field := r.field, offset := r.offset, record := r.record,
                                  count := r.count } s) s

/-- One structure unit by format. -/
def ingestUnit (c : WalkCtx) (g : Ingest) : UnitOut :=
  match c.ing.format with
  | 1 => folioUnit c g
  | 2 => parquetUnit c g
  | 3 => arrowUnit c g
  | _ => rawUnit c g

/-- A source's entries cleared from its plan's decoded-sample caches (R349). -/
def clearSource (k : Nat × Nat) (s : State) : State :=
  { s with caches := s.caches.map fun e => if e.1.1 == k.1 then (e.1, ⟨e.2.ways.filter fun w => w.key.1 != k.2⟩) else e }

/-- An ingest stream's walk begun again; where the arm generation wraps the device clears the source's entries (R349). -/
def restartIngest (k : Nat × Nat) (x : Stream) (s : State) : State :=
  let moved := x.rearm.any fun r => r.1 != x.desc.src
  let y := restart x
  let gen := if moved then (x.ingest.gen + 1) % 65536 else x.ingest.gen
  let s := if moved && gen == 0 then clearSource k s else s
  setStream k { y with ingest := { y.ingest with gen := gen } } s

/-- A margin ingest stream halted at an ABSENT page (R316). -/
def haltIngest (k : Nat × Nat) (x : Stream) (off dva : Nat) (s : State) : State :=
  let w := walkIndex x.desc 0 off
  let tile := off / max 1 (tileBytes x.desc)
  let f : FaultRec := ⟨dva, w.1, w.2.1, w.2.2.1, w.2.2.2, off % max 1 (tileBytes x.desc), x.walkBase + tile, (x.walkBase + tile) % (x.desc.ring + 1), 1⟩
  let s := refreshFaulted (dva / pageBytes) (setStream k { x with state := .halted, fault := some f } s)
  emitErr { cls := 3, code := 1, unit := x.unit, pos := dva, count := 0, plan := k.1, named := false, test := false } s

/-- An ingest stream that has nothing more to give is DONE unless it is persistent (R305, R306). -/
def settleIngest (k : Nat × Nat) (s : State) : State :=
  match stream? s k with
  | none => s
  | some x => if x.state == .running && ingestOver x && !x.desc.persist && !x.ruled then setStream k { x with state := .done } s
    else shareEnd k s

/-- Tiles of the present walk that the walker has done with: those behind its cursor, all of them once it has ended. -/
def tilesPassed (x : Stream) : Nat :=
  if x.ingest.ended then tileCount x.desc else min (tileCount x.desc) (x.ingest.cursor / max 1 (tileBytes x.desc))

/-- The tiles of an ingest stream that its walker has passed go through the ring: begun, filled, signalled, taken and freed within the unit
(R301, R302; assumption log 174), each with one report where part of it is out of range (R293). -/
def passTiles (k : Nat × Nat) (s : State) : State :=
  match stream? s k with
  | none => s
  | some x =>
    (List.range (tilesPassed x - (x.nextTile - x.walkBase))).foldl (fun s _ =>
      match stream? s k with
      | none => s
      | some x =>
        let t := x.nextTile
        let i := (t + 1) % (x.desc.ring + 1)
        let y := { x.tileDone with nextTile := t + 1, taken := x.taken + 1, head := i, tail := i }
        let s := slotSignal k y (setStream k y s)
        if tileOut s (streamPlan s k) x.desc (t - x.walkBase) then streamBlot k y 0x71 0 t 1 s else s) s

/-- The records a unit gave blotted: bytes that their groups touch were out of range (R293). -/
def blotUnit (before : Nat) (g : Ingest) : Ingest :=
  if before < g.avail then { g with bad := g.bad ++ [(g.base + before, g.avail - before)] } else g

/-- Bytes a unit took from the source lie out of range: in the part the cursor passed, in any part of a source read by its footer. -/
def unitOut (s : State) (p : Option Plan) (x : Stream) (c : WalkCtx) (g : Ingest) : Bool :=
  if c.ing.format = 2 then sourceOut s p x.desc
  else
    let t := max 1 (tileBytes x.desc)
    (List.range (g.cursor / t + 1 - x.ingest.cursor / t)).any fun i =>
      decide (x.ingest.cursor / t + i < tileCount x.desc) && tileOut s p x.desc (x.ingest.cursor / t + i)

/-- The first byte on an ABSENT page that a margin stream's next unit needs: one the walker's cursor passes in the unit, or one that what the unit
gives depends on (R316, assumption log 205). -/
def neededAbsent (s : State) (p : Option Plan) (x : Stream) (c : WalkCtx) (o : UnitOut) : Option (Nat × Nat) :=
  if x.ruled then none
  else
    let o' := ingestUnit { c with src := sourceAs 0xff s p x.desc } x.ingest
    let same : Bool := o'.g == o.g && (o'.reports.map fun r => (r.reason, r.field, r.offset, r.record, r.count)) ==
      o.reports.map fun r => (r.reason, r.field, r.offset, r.record, r.count)
    match (absentAt s p x.desc x.ingest.cursor).or (if same then none else absentAt s p x.desc 0) with
    | none => none
    | some e => if !same || decide (e.1 < o.g.cursor) then some e else none

/-- One unit of a running ingest stream. -/
def decodeUnit (k : Nat × Nat) (x : Stream) (s : State) : State :=
  let p := streamPlan s k
  let c := walkCtx s p x.desc
  let o := ingestUnit c x.ingest
  match neededAbsent s p x c o with
  | some (o, a) => haltIngest k x o a s
  | none =>
    let g := if unitOut s p x c o.g then blotUnit x.ingest.avail o.g else o.g
    settleIngest k (passTiles k (reportUnit k o.reports (setStream k { x with ingest := g } s)))

/-- INGEST_UNIT_DECODE: the walker takes the next structure unit of the source. It waits while the frames of its unit are with the
compression engines; a margin persistent stream whose walk is over begins it again. -/
def execIngestUnitDecode (r : StreamRef) (s : State) : Host.Outcome State Fault Refusal :=
  let k := refKey r
  match stream? s k with
  | none => .next s
  | some x =>
    if x.desc.kind != 1 || x.state != .running || !x.ingest.jobs.isEmpty || !mayTransfer s k x then .next s
    else if x.ingest.ended then
      .next (if ingestOver x && x.desc.persist && !x.ruled then restartIngest k x s else s)
    else .next (decodeUnit k x s)

/-! ### FRAME_DECODE -/

/-- The compression engine of a stream: the one it names, else a free choice among those of its die. -/
def engineOf (p : Option Plan) (x : Stream) (s : State) : BitVec 16 :=
  match p.bind fun p => boundOf p 0xb x.desc.cmpAbs with
  | some b => BitVec.ofNat 16 b.unit
  | none => uid (uidDie x.unit) 12 2 (freeNumber 3 s) 0

/-- The largest window a ruled stream may meet (R136). -/
def ruledWindow : Nat := 65536

/-- FRAME_DECODE: a compression engine decodes the frame at the head of a stream's frames. `historyLost` tells that its history store
reported an uncorrectable word (CMP_HISTORY). The code of the exceedance report of R136 is free: Table 4-17 names none. -/
def execFrameDecode (r : StreamRef) (historyLost : Bool) (s : State) : Host.Outcome State Fault Refusal :=
  let k := refKey r
  match stream? s k with
  | none => .next s
  | some x =>
    match x.ingest.jobs with
    | [] => .next s
    | j :: js =>
      let unit := engineOf (streamPlan s k) x s
      let out : FrameOut := if historyLost then .bad badStream else decodeFrame j
      let counted := lacksSum j.codec (jobFrame j) && !j.needSum && !historyLost
      let window := match frameHead j.codec (jobFrame j) with | .ok h => if j.codec = 1 then h.window else 0 | .error _ => 0
      let g := { x.ingest with jobs := js, outs := x.ingest.outs ++ [out], noChecksum := x.ingest.noChecksum + b2n counted }
      let s := shareEnd k (setStream k { x with ingest := g } (drawn s))
      let s := if historyLost then
          emitErr { cls := 4, code := 2, unit := unit, pos := 0, count := 0, plan := k.1, named := x.ruled, test := true } s
        else s
      .next (if x.ruled && decide (ruledWindow < window) then
        emitErr { cls := 4, code := freeNumber 8 s, unit := unit, pos := 0, count := window - ruledWindow, plan := k.1, named := true, test := false } (drawn s)
      else s)

/-! ### Media items (R343, R351) -/

/-- The layouts of a plan with their numbers. -/
def planLayouts (p : Plan) : List (Nat × Layout) := (List.range p.image.layouts.length).zip (p.image.layouts.map layoutAt)

/-- The epoch and the sample index of a record that a stream delivers into a nib (R326, R327): the sample source sets them; any other stream
finds what the nib holds, and the record index where that is no sample (R188, assumption log 209). -/
def sampleOf (s : State) (k : Nat × Nat) (x : Stream) (grp : Group) (rec_ : Nat) : Nat × Nat :=
  match (streamPlan s k).bind fun p => (planLayouts p).find? fun l => l.2.src == k.2 with
  | none => (grp.epoch, if grp.sampled then grp.sample else rec_)
  | some (i, l) =>
    let b := (look (k.1, i) s.batches).getD Batch.empty
    let c := b.counter + (b.partial_ + (rec_ - x.ingest.base)) / max 1 l.perSample
    (c / max 1 l.samples, c % max 1 l.samples)

/-- The media blocks of a stream with the blob offset of each. -/
def streamMedia (p : Option Plan) (d : StreamDesc) : List (Nat × MediaBlock) :=
  let ms := mediaBlocks (blobOf p) d.param
  ((List.range ms.length).map fun i => d.param + 64 + 64 * i).zip ms

/-- A row of a media field that no media unit has treated yet. -/
def untreated (v : Val) : Bool := v.present && v.elems.isEmpty

/-- The next item of a kind: the row, the block's offset and the block. -/
def nextItem (kind : Nat) (media : List (Nat × MediaBlock)) (g : Ingest) : Option (Nat × Nat × MediaBlock) :=
  (media.filter fun e => e.2.kind == kind).foldl (fun best e =>
    match (g.queue e.2.field).col.rows.findIdx? untreated with
    | none => best
    | some r => match best with
      | some (r0, _, _) => if r < r0 then some (r, e.1, e.2) else best
      | none => some (r, e.1, e.2)) none

/-- A raster item after step 3 of R343 as its row holds it until a nib receives it: its width, height and channels, then its samples. -/
def baseVal (i : Img) : Val := ⟨true, false, le 2 i.w ++ le 2 i.h ++ le 1 i.c ++ (i.px.toList.map (BitVec.ofNat 8)), [Elem.of 0]⟩

/-- The image of such a row. -/
def baseImg (v : Val) : Img := ⟨leAt v.bytes 0 2, leAt v.bytes 2 2, byteAt v.bytes 4, ((v.bytes.drop 5).map (·.toNat)).toArray⟩

/-- The bytes of a filterbank's weights and its filters, as loaded at activation (R352). -/
def filterbank (p : Plan) (ref : Nat) : Nat × Bytes :=
  match refOf p ref with
  | some r => (leAt p.image.blob r.desc 2, (look ref p.filterbanks).getD [])
  | none => (0, [])

/-- An item's row once a media unit has treated it: a raster's image after step 3, a PCM item's values, with the cache look-up of its block
(R343, R349, R350); or the reason it is blotted, which is never cached. -/
def treatItem (s : State) (k : Nat × Nat) (p : Plan) (x : Stream) (cap row off : Nat) (m : MediaBlock) (item : Bytes) : Dec Val × State :=
  let rec_ := x.ingest.base + row
  let block := slice p.image.blob off 64
  let bank := filterbank p m.mel
  let size := if m.kind = 1 then m.preW * m.preH * m.outC else m.frames * bank.1 * typeBytes m.outFmt
  let ck := (k.1, m.cache)
  let part := if m.cache = 0xffff then none else boundOf p 4 m.cache
  let sets := (part.map fun b => cacheSets b.size size).getD 0
  let key := (k.2, x.ingest.gen, rec_, paramHash block bank.2)
  let cache := (look ck s.caches).getD ⟨[]⟩
  let set := rec_ % max 1 sets
  let hit := if sets = 0 then none else cacheHit cache set key
  let put' : Bytes → State := fun b => if sets = 0 then s else { s with caches := put ck (cacheFill cache set key b) s.caches }
  let base : Img → Dec Val := fun i => if cropFits m i then .ok (baseVal i) else .error rasterShape
  let w := typeBytes m.outFmt
  match hit with
  | some (b, c) =>
    let s := { s with caches := put ck c s.caches }
    if m.kind = 1 then (base ⟨m.preW, m.preH, m.outC, (b.map (·.toNat)).toArray⟩, s)
    else (.ok ⟨true, false, [], (numbersOf w b).map Elem.of⟩, s)
  | none =>
    if m.kind = 1 then
      match rasterBase m cap item with
      | .error e => (.error e, s)
      | .ok i => (base i, if m.cache = 0xffff || !cropFits m i then s else put' (i.px.toList.map (BitVec.ofNat 8)))
    else match pcmItem m bank.1 bank.2 item with
      | .error e => (.error e, s)
      | .ok vs => (.ok ⟨true, false, [], vs.map Elem.of⟩, if m.cache = 0xffff then s else put' (vs.flatMap (le w)))

/-- The byte offset an item's report carries. -/
def markOf (g : Ingest) (field rec_ : Nat) : Nat :=
  ((g.marks.filter fun m => m.1 == field && decide (m.2.1 ≤ rec_)).getLast?.map fun m => m.2.2).getD 0

/-- The next item of a stream treated by a media unit. -/
def mediaItem (kind : Nat) (k : Nat × Nat) (s : State) : State :=
  match stream? s k, streamPlan s k with
  | some x, some p =>
    if x.desc.kind != 1 || x.state != .running then s
    else match nextItem kind (streamMedia (some p) x.desc) x.ingest with
    | none => s
    | some (row, off, m) =>
      let g := x.ingest
      let c := walkCtx s (some p) x.desc
      let item := (nth (g.queue m.field).col.rows row Val.null).bytes
      let r := treatItem s k p x c.ing.recordCap row off m item
      let setRow : Val → Ingest → Ingest := fun v g => g.setQueue m.field fun q => { q with col := { q.col with rows := modifyAt (fun _ => v) row q.col.rows } }
      match r.1 with
      | .ok v => setStream k { x with ingest := setRow v g } r.2
      | .error e =>
        let o := c.fieldBlot (setRow (Val.blotted [] []) g) (codecReason' e) m.field (markOf g m.field (g.base + row)) (g.base + row) 1
        reportUnit k o.reports (setStream k { x with ingest := o.g } r.2)
  | _, _ => s
where
  /-- Input that ran out inside an item is a malformed stream. -/
  codecReason' (e : Nat) : Nat := if e = 0 then jpegStream else e

/-- RASTER_ITEM (R343). -/
def execRasterItem (slot : BitVec 6) (stream : BitVec 16) (s : State) : Host.Outcome State Fault Refusal :=
  .next (shareEnd (slot.toNat, stream.toNat) (mediaItem 1 (slot.toNat, stream.toNat) s))

/-- PCM_ITEM (R351). -/
def execPcmItem (slot : BitVec 6) (stream : BitVec 16) (s : State) : Host.Outcome State Fault Refusal :=
  .next (shareEnd (slot.toNat, stream.toNat) (mediaItem 2 (slot.toNat, stream.toNat) s))

/-! ### What the consumer takes (R115) -/

/-- The column a media field delivers and the value of a blotted item (R342, R348, R351). -/
def mediaColumn (p : Plan) (m : MediaBlock) (fill : Bytes) : (Nat × Nat) × Nat :=
  if m.kind = 1 then ((5, m.outW * m.outH * m.outC), byteAt fill 0)
  else ((m.outFmt, m.frames * (filterbank p m.mel).1), (convert 0xb m.outFmt 0 true 0 (leAt fill 0 4)).bits)

/-- A raster row finished with the draw of its record's sample (R343 steps 4 to 7, R348). -/
def finishVal (seed : Nat) (m : MediaBlock) (smp : Nat × Nat) (v : Val) : Val :=
  let draw := stippleBlock (stippleKey seed smp.1 smp.2 m.opi) 0
  if m.kind = 1 && v.present then ⟨true, false, [], (rasterFinish m draw (baseImg v)).px.toList.map Elem.of⟩ else v

/-- A field's first `n` rows as the consumer sees them; the records blotted whole have every field blotted;
`smp` gives the epoch and sample index of a record in the nib that receives it. -/
def takeColumn (p : Plan) (smp : Nat → Nat × Nat) (c : WalkCtx) (media : List (Nat × MediaBlock)) (g : Ingest) (n i : Nat) : Column :=
  let q := g.queue i
  let bad : Nat → Bool := fun r => g.bad.any fun b => decide (b.1 ≤ r) && decide (r < b.1 + b.2)
  let rows := (List.range n).zip (q.col.rows.take n)
  match (media.find? fun e => e.2.field == i) with
  | some (_, m) =>
    let k := mediaColumn p m (c.fill i)
    ⟨1, k.1.1, k.1.2, rows.map fun e =>
      if e.2.blot || bad (g.base + e.1) then Val.blotted [] (List.replicate k.1.2 ⟨k.2, false, true⟩)
      else finishVal p.image.seed m (smp (g.base + e.1)) e.2⟩
  | none => { q.col with rows := rows.map fun e => if bad (g.base + e.1) then c.blot g i else e.2 }

/-- The first `n` records of an ingest stream taken: their indices, their validity, the columns, and the walker after. -/
def takeIngest (p : Plan) (smp : Nat → Nat × Nat) (c : WalkCtx) (media : List (Nat × MediaBlock)) (n : Nat) (g : Ingest) : List Nat × List Bool × List Column × Ingest :=
  let recs := (List.range n).map (g.base + ·)
  let valid := recs.map fun r => !g.bad.any fun b => decide (b.1 ≤ r) && decide (r < b.1 + b.2)
  let cols := (List.range g.fields.length).map (takeColumn p smp c media g n)
  (recs, valid, cols, { g with base := g.base + n, fields := g.fields.map fun q => { q with col := { q.col with rows := q.col.rows.drop n } } })

/-- Every media item among the first `n` records has been treated. -/
def itemsReady (media : List (Nat × MediaBlock)) (n : Nat) (g : Ingest) : Bool :=
  media.all fun e => !(((g.queue e.2.field).col.rows.take n).any untreated)

end Sys2Proof.Machine
end

