-- ==== Sys2Proof/Machine/Batches.lean ====
section
/-! DEFINITION. Samples and batches: counters, slots, buffers, completion (R326 to R337, R322). -/

namespace Sys2Proof.Machine

/-- The state of a layout in use. -/
def batchOf (s : State) (k : Nat × Nat) : Batch := (look k s.batches).getD Batch.empty

/-- The state of a layout replaced. -/
def setBatch (k : Nat × Nat) (b : Batch) (s : State) : State := { s with batches := put k b s.batches }

/-- Batches per epoch (R329). -/
def Layout.perEpoch (l : Layout) : Nat := ceilDiv l.samples l.slots

/-- The global batch number and the slot of a sample counter (R329). -/
def Layout.place (l : Layout) (c : Nat) : Nat × Nat :=
  let i := c % max 1 l.samples
  (c / max 1 l.samples * l.perEpoch + i / max 1 l.slots, i % max 1 l.slots)

/-- The slots of a batch that hold samples; the others are pad slots (R329). -/
def Layout.filled (l : Layout) (g : Nat) : Nat := min l.slots (l.samples - g % max 1 l.perEpoch * l.slots)

/-- Bytes of one bitmap of a buffer (R331). -/
def Layout.bitmapBytes (l : Layout) : Nat := ceilDiv l.slots 512 * 64

/-- The offset of a buffer in the destination (R331). -/
def Layout.bufferOff (l : Layout) (k : Nat) : Nat := l.dstOff + k * (64 + 2 * l.bitmapBytes + l.slots * l.stride)

/-- The buffer of a batch (R331). -/
def Layout.bufferOf (l : Layout) (g : Nat) : Nat := g % (l.buffers + 1)

/-- The DVA of a byte of a slot of a batch. -/
def slotByte (base : Nat) (l : Layout) (g slot off : Nat) : Nat := base + l.bufferOff (l.bufferOf g) + 64 + 2 * l.bitmapBytes + slot * l.stride + off

/-! ### Delivery (R326 to R328) -/

/-- Records the sample source may still deliver before BL_EPOCHS ends it. -/
def recordsLeft (l : Layout) (b : Batch) (n : Nat) : Nat :=
  if l.epochs = 0 then n else min n ((l.epochs * l.samples - b.counter) * l.perSample - b.partial_)

/-- The records of a sample source counted: the new counter, and the first deliveries of batches in this tick. -/
def countRecords (l : Layout) (tick n : Nat) (b : Batch) : Batch :=
  let r := max 1 l.perSample
  let total := b.partial_ + n
  let firsts := (List.range ((total + r - 1) / r)).filterMap fun d => if d = 0 && b.partial_ != 0 then none else some (b.counter + d)
  let begun := firsts.foldl (fun bs c =>
    let g := (l.place c).1
    if bs.any fun e => e.1 == g then bs else bs ++ [(g, tick)]) b.begun
  { b with counter := b.counter + total / r, partial_ := total % r, begun := begun }

/-- The first delivery of an epoch noted, with the edge that opened its tick; the two latest stand (R328). -/
def noteEpoch (l : Layout) (edge cycle : Nat) (old new : Batch) : Batch :=
  let e := reachedEpoch l.samples new
  if e = reachedEpoch l.samples old && !(old.counter == 0 && old.partial_ == 0) then new
  else { new with epochs := (e, edge, cycle) :: old.epochs.take 1 }

/-- The sample a nib's context takes when a source's records come in (R327). -/
def nibSample (l : Layout) (b : Batch) (n : Nat) : Option Nat :=
  if b.partial_ = 0 then some b.counter else if l.perSample < b.partial_ + n then some (b.counter + 1) else none

/-! ### Placing rows (R322, R332 to R335) -/

/-- Bytes written at an offset of a slot below the address `lim`, but for those in the valid region of another slice (R322). -/
def writeKeeping (slices : List SliceDesc) (mine lim base off : Nat) (bs : Bytes) (s : State) : State :=
  ((List.range bs.length).zip bs).foldl (fun s e =>
    let o := off + e.1
    let other := ((List.range slices.length).zip slices).any fun x => x.1 != mine && decide (x.2.validOff ≤ o) && decide (o < x.2.validOff + x.2.validLen)
    if other || decide (lim ≤ base + o) then s else writeHeld s (base + o) [e.2]) s

/-- A slice's padded extent written below the address `lim`: its valid bytes, zero around them (R322, R333). -/
def writeSlice (slices : List SliceDesc) (i lim base : Nat) (valid : Bytes) (s : State) : State :=
  match slices[i]? with
  | none => s
  | some x =>
    let s := writeKeeping slices i lim base x.padOff (zeros (x.validOff - x.padOff)) s
    let s := writeKeeping slices i lim base x.validOff (fit x.validLen valid) s
    writeKeeping slices i lim base (x.validOff + x.validLen) (zeros (x.padOff + x.padLen - (x.validOff + x.validLen))) s

/-- A bound above every address: nothing keeps a write back. -/
def noLimit : Nat := 2 ^ 58

/-- Every slice of a slot has arrived. -/
def slotFull (l : Layout) (b : OpenBatch) (slot : Nat) : Bool := (List.range l.slices).all fun i => b.got.any fun g => g.1 == slot && g.2.1 == i

/-- A slot of an open batch is a blot: a slice came without its validity bit, or is missing at a close. -/
def slotBlot (l : Layout) (b : OpenBatch) (slot : Nat) : Bool := !slotFull l b slot || b.got.any fun g => g.1 == slot && !g.2.2

/-- A batch completed (R336): fill, bitmaps, header, READY. -/
def completeBatch (key : Nat × Nat) (base : Nat) (l : Layout) (slices : List SliceDesc) (b : OpenBatch) (closed : Bool) (s : State) : State :=
  let n := l.filled b.g
  let real := List.range n
  let blots := real.filter (slotBlot l b)
  let s := (List.range l.slots).foldl (fun s slot =>
    if n ≤ slot || blots.contains slot then
      (List.range l.slices).foldl (fun s i =>
        writeSlice slices i noLimit (slotByte base l b.g slot 0) (List.replicate ((slices[i]?).elim 0 (·.validLen)) (BitVec.ofNat 8 ((slices[i]?).elim 0 (·.fill)))) s) s
    else s) s
  let at_ := base + l.bufferOff (l.bufferOf b.g)
  let bits : (Nat → Bool) → Bytes := fun f => fit l.bitmapBytes (bitmap ((List.range l.slots).map f))
  let s := writeHeld s (at_ + 64) (bits fun i => decide (i < n) && !blots.contains i)
  let s := writeHeld s (at_ + 64 + l.bitmapBytes) (bits fun i => blots.contains i)
  let e := b.g / max 1 l.perEpoch
  let s := writeHeld s at_ (le 8 e ++ le 8 (b.g % max 1 l.perEpoch) ++ le 4 (n - blots.length) ++ le 4 blots.length ++ le 4 (l.slots - n) ++ le 4 l.slots ++
    le 8 b.g ++ le 8 (b2n closed) ++ zeros 16)
  let x := batchOf s key
  let s := setBatch key { x with buffers := put (l.bufferOf b.g) { b with ready := true } x.buffers, completed := x.completed ++ [b.g], begun := x.begun.filter (fun y => y.1 != b.g) } s
  planAdd key.1 l.sigReady s

/-- What places the rows of a slice packet: the layout's key and its stream, the destination's base, the unit that batch errors name, whether
the stream is ruled, the layout with its slices, and the slice. -/
structure RowDrain where
  (key stream : Nat × Nat)
  (base : Nat)
  (unit : BitVec 16)
  (ruled : Bool)
  (l : Layout)
  (slices : List SliceDesc)
  (slice : Nat)
  deriving DecidableEq, Repr

/-- A wait for a count of BL_SIG_FREE of a layout is registered or parked (R377, assumption log 201). -/
def bufferWaits (key : Nat × Nat) (s : State) : Bool :=
  (allWaits s).any fun w => match w.what with
    | .stream slot i => slot == key.1 && (look (slot, i) s.streams).any fun x => x.desc.write && x.desc.param % 65536 == key.2
    | _ => false
where
  allWaits (s : State) : List Waiter := (s.cells.flatMap fun e => e.2.waiters) ++ s.regHeld.map (·.2) ++ s.parked.map (·.waiter)

/-- Another batch stands in the buffer of batch `g` (R334). -/
def bufferTaken (key : Nat × Nat) (l : Layout) (g : Nat) (s : State) : Bool := (look (l.bufferOf g) (batchOf s key).buffers).any fun x => x.g != g

/-- The stream waits for counts of BL_SIG_FREE while another batch stands in the buffer of batch `g` and a READY buffer is there to be
released: a count that has come is taken at once, and one wait of a layout registers (R334, R377, assumption log 201). -/
def freeFor (r : RowDrain) (g : Nat) : Nat → State → State
  | 0, s => s
  | f + 1, s =>
    match (plan? s r.key.1).bind fun p => boundOf p 8 r.l.sigFree with
    | none => s
    | some c =>
      let n := (batchOf s r.key).buffers.length
      if !bufferTaken r.key r.l g s || !((batchOf s r.key).buffers.any fun e => e.2.ready) || bufferWaits r.key s then s
      else
        let s := registerWait c.index { unit := r.unit, dec := 1, since := s.clk.cycle, what := .stream r.stream.1 r.stream.2 } s
        if (batchOf s r.key).buffers.length < n then freeFor r g f s else s

/-- The open batch of a number in its buffer: opened where the buffer is free and the batch that had it before has been completed and
released; none where another batch holds or is to have it (R334). -/
def openBatch (key : Nat × Nat) (l : Layout) (g : Nat) (s : State) : Option OpenBatch :=
  let b := batchOf s key
  match look (l.bufferOf g) b.buffers with
  | some x => if x.g = g && !x.ready then some x else none
  | none => if g < l.buffers + 1 || b.completed.contains (g - (l.buffers + 1)) then some ⟨g, (look g b.begun).getD (nowTick s), [], false⟩ else none

/-- What becomes of one row (R333 to R335, R296): held by its buffer, halted before a write to an ABSENT page at an offset of the slice's
extent, or done. -/
inductive Placed where
  | held (s : State)
  | absent (dva off : Nat) (s : State)
  | done (s : State)

/-- A batch error: the global batch number as its position, the stream engine of the write stream (R356). -/
def batchErr (key : Nat × Nat) (unit : BitVec 16) (code g count : Nat) (s : State) : State :=
  emitErr { cls := 2, code := code, unit := unit, pos := g, count := count, plan := key.1, named := code == 12, test := false } s

/-- What completing a batch writes, as (address, length): its pad and blot slots, its bitmaps, its header (R336). -/
def completionRanges (base : Nat) (l : Layout) (slices : List SliceDesc) (b : OpenBatch) : List (Nat × Nat) :=
  let at_ := base + l.bufferOff (l.bufferOf b.g)
  (((List.range l.slots).filter fun i => decide (l.filled b.g ≤ i) || slotBlot l b i).flatMap fun i =>
    slices.map fun x => (slotByte base l b.g i x.padOff, x.padLen)) ++ [(at_ + 64, 2 * l.bitmapBytes), (at_, 64)]

/-- The first place that completing a batch would write on an ABSENT page. -/
def completionAbsent (s : State) (base : Nat) (l : Layout) (slices : List SliceDesc) (b : OpenBatch) : Option Nat :=
  (completionRanges base l slices b).findSome? fun e => rangeAbsent s e.1 e.2

/-- A row written: what is out of range is not, with one report a row (R293). -/
def writeRow (r : RowDrain) (c g slot lim : Nat) (row : Bytes) (s : State) : State :=
  let at_ := slotByte r.base r.l g slot ((r.slices[r.slice]?).elim 0 (·.padOff))
  let s' := writeSlice r.slices r.slice lim (slotByte r.base r.l g slot 0) row s
  if rangeOut s at_ ((r.slices[r.slice]?).elim 0 (·.padLen)) && lim == noLimit then
    emitBlot { reason := 0x72, plan := r.key.1, source := r.l.dstAbs, field := 0xffff, offset := 0, record := c, count := 1 } s'
  else s'

/-- One row of a slice packet placed. A margin stream halts before the first byte on an ABSENT page, with the bytes before it written, and
begins the row again when it goes on; so it does before what completes the batch (R296, R316, assumption log 199). -/
def placeSliceRow (r : RowDrain) (c : Nat) (row : Bytes) (valid : Bool) (s : State) : Placed :=
  let (g, slot) := r.l.place c
  if (batchOf s r.key).completed.contains g then .done (batchErr r.key r.unit 11 g slot s)
  else
  let s := freeFor r g 17 s
  match openBatch r.key r.l g s with
  | none => .held s
  | some b =>
    if r.l.filled g ≤ slot || b.got.any fun x => x.1 == slot && x.2.1 == r.slice then .done (batchErr r.key r.unit 10 g slot s)
    else
      let at_ := slotByte r.base r.l g slot ((r.slices[r.slice]?).elim 0 (·.padOff))
      let len := (r.slices[r.slice]?).elim 0 (·.padLen)
      let b := { b with got := b.got ++ [(slot, r.slice, valid)] }
      let whole := (List.range (r.l.filled g)).all (slotFull r.l b)
      match if r.ruled then none else rangeAbsent s at_ len with
      | some a => .absent a (a - at_) (writeRow r c g slot a row s)
      | none =>
        let s := writeRow r c g slot noLimit row s
        match if r.ruled || !whole then none else completionAbsent s r.base r.l r.slices b with
        | some a => .absent a len s
        | none =>
          let x := batchOf s r.key
          let s := setBatch r.key { x with buffers := put (r.l.bufferOf g) b x.buffers } s
          .done (if whole then completeBatch r.key r.base r.l r.slices b false s else s)

/-- The rows of a packet from row `i` on: the rows placed, the state, whether the next one is held (R334), and the place it halts before with
its offset in the row (R296). -/
def placeSliceRows (r : RowDrain) (pkt : Bytes) : Nat → Nat → State → Nat × State × Bool × Option (Nat × Nat)
  | 0, i, s => (i, s, false, none)
  | f + 1, i, s =>
    let stride := leAt pkt 8 3
    let rows := leAt pkt 11 2
    let vo := alignUp (16 + rows * stride) 8
    match placeSliceRow r (leAt pkt 0 8 + i) (slice pkt (16 + i * stride) stride) (bitmapAt (pkt.drop vo) i) s with
    | .held s => (i, s, true, none)
    | .absent a o s => (i, s, false, some (a, o))
    | .done s => placeSliceRows r pkt f (i + 1) s

/-! ### BATCH_CLOSE (R337) -/

/-- The stream engine that batch errors of a write stream name (R356): its own, else the one the plan's streams fall to (assumption log 202). -/
def batchUnit (p : Plan) (i : Nat) : BitVec 16 :=
  let u := streamUnit p i
  if uidCluster u < 12 then engineUnit p else u

/-- The tick a batch closes at the opening edge of. -/
def closeTick (l : Layout) (tick : Nat) : Nat := tick + l.closeLag + 1

/-- The drain a close of a layout stands for: that of the layout's first write stream. -/
def closeDrain (p : Plan) (key : Nat × Nat) (base : Nat) (l : Layout) : RowDrain :=
  let i := (p.image.streams.findIdx? fun d => d.write && d.param != 0xffffffff && d.param % 65536 == key.2).getD 0
  ⟨key, (key.1, i), base, batchUnit p i, p.image.ruled, l, slicesOf p.image.blob l, 0⟩

/-- BATCH_CLOSE: the oldest batch of a layout whose close has come is completed with its missing slots blotted; it waits while another
batch holds its buffer, and while a page that completing it writes is ABSENT (assumption log 173). -/
def execBatchClose (slot : BitVec 6) (layout : BitVec 8) (s : State) : Host.Outcome State Fault Refusal :=
  let key := (slot.toNat, layout.toNat)
  match plan? s slot.toNat with
  | none => .next s
  | some p =>
    match (p.image.layouts[layout.toNat]?).map layoutAt with
    | none => .next s
    | some l =>
      let x := batchOf s key
      let due := x.begun.filter fun e => decide (0 < l.closeLag) && decide (closeTick l e.2 ≤ nowTick s) && !x.completed.contains e.1
      match due, sideBase (some p) l.dstKind l.dstAbs 0 with
      | (g, _) :: _, some base =>
        let r := closeDrain p key base l
        let s := freeFor r g 17 s
        match openBatch key l g s with
        | none => .next s
        | some b =>
          if !p.image.ruled && (completionAbsent s base l r.slices b).isSome then .next s
          else
          let missing := ((List.range (l.filled g)).filter fun i => !slotFull l b i).length
          let s := emitBlot { reason := 0x68, plan := key.1, source := key.2, field := 0xffff, offset := 0, record := g, count := missing } s
          .next (completeBatch key base l r.slices b true s)
      | _, _ => .next s

end Sys2Proof.Machine
end

