-- ==== Sys2Proof/Machine/Ports.lean ====
section
/-! DEFINITION. The port commands (Table 13-14), transmit streams, PTP, flow control frames and link events (R385 to R398, R415). -/

namespace Sys2Proof.Machine

/-! ### Port commands -/

/-- The fields of a PORT_SET request outside their sets, by payload offset (Table 12-2, Table 13-14). -/
def portSetBad (p v : Nat) (ip : Bytes) : List (Nat × Bool) :=
  [(0, decide (3 < p)), (8, fld 10 2 v != 0 || (p % 2 == 1 && bitAt v 1)), (12, fld 35 34 v != 0 || fld 47 36 v == 4095),
   (16, ip.length != 16 || (!bitAt v 33 && (ip.drop 4).any (· != 0)))]

/-- A bound plan holds a port share on the physical port of `p` (Table 12-2). -/
def portHeld (s : State) (p : Nat) : Bool :=
  s.plans.any fun e => e.2.bound.any fun b => b.kind == 0xa && b.index / 2 == p / 2

/-- PORT_SET would refuse a configuration in the present state: the port does not exist, or PORT_SPLIT or PORT_EN would change while a
bound plan holds a share (Table 12-2). -/
def portRefuses (s : State) (p v : Nat) : Bool :=
  let live := (port s p).live.toNat
  !portExists s p || ((bitAt v 0 != bitAt live 0 || bitAt v 1 != bitAt live 1) && portHeld s p)

/-- A port's configuration and address written; PORT_SPLIT and PORT_EN wait for the next port reset (Table 12-2). -/
def writePort (p : Nat) (cfg : BitVec 64) (ip : Bytes) (s : State) : State := setPort p { port s p with cfg := cfg, ip := ip } s

/-- PORT_SET (R386, R388, Table 12-2). -/
def execPortSet (r : Req) (p : Byte) (cfg : BitVec 64) (ip : Bytes) (s : State) : Host.Outcome State Fault Refusal :=
  .next (goust r (icmd 0x0901 32 (portSetBad p.toNat cfg.toNat ip) fun s =>
    if portRefuses s p.toNat cfg.toNat then .fail St.portRefused 0 else .ok (flowControl (writePort p.toNat cfg ip s)) []) s)

/-- PORT_READ (R414). -/
def execPortRead (r : Req) (p : Byte) (s : State) : Host.Outcome State Fault Refusal :=
  .next (goust r (icmd 0x0902 8 [(0, decide (3 < p.toNat))] fun s =>
    let x := port s p.toNat
    .ok s (payload [.num 8 x.cfg.toNat, .num 1 (b2n (portCarries s p.toNat)), .elems (x.drops.map fun d => le 8 d.toNat)])) s)

/-- DEVICE_NUMBER_SET (R388). -/
def execDeviceNumberSet (r : Req) (number : BitVec 16) (s : State) : Host.Outcome State Fault Refusal :=
  .next (goust r (icmd 0x0903 8 [(0, decide (1023 < number.toNat))] fun s =>
    if !s.plans.isEmpty then .fail St.portRefused 0 else .ok { s with deviceNumber := BitVec.ofNat 10 number.toNat } []) s)

/-- The fields of a NEIGHBOUR_SET request outside their sets. -/
def neighbourBad (first : Nat) (es : List NeighbourEntry) : List (Nat × Bool) :=
  [(0, decide (1025 < first + es.length)), (2, decide (110 < es.length))] ++
    ((List.range es.length).zip es).flatMap fun e =>
      [(8 + 32 * e.1, decide (2 ^ 48 ≤ e.2.mac.toNat)), (8 + 32 * e.1 + 24, decide (3 < e.2.port.toNat))]

/-- Entries written one after another (R387). -/
def writeNeighbours (first : Nat) (es : List NeighbourEntry) (s : State) : State :=
  ((List.range es.length).zip es).foldl (fun s e =>
    let n : Neighbour := { mac := BitVec.ofNat 48 e.2.mac.toNat, ip := fit 16 e.2.ip, port := e.2.port }
    { s with neighbours := put (first + e.1) n s.neighbours }) s

/-- NEIGHBOUR_SET (R387). -/
def execNeighbourSet (r : Req) (first : BitVec 16) (es : List NeighbourEntry) (s : State) : Host.Outcome State Fault Refusal :=
  .next (goust r (icmd 0x0904 (8 + 32 * es.length) (neighbourBad first.toNat es) fun s =>
    .ok (writeNeighbours first.toNat es s) []) s)

/-- A queue belongs to a bound plan. -/
def planQueue? (s : State) (q : Nat) : Bool := (queue? s q).any fun x => x.owner != .device

/-- TX_STREAM_SET (R398): a queue attached again to the same stream keeps its count. -/
def execTxStreamSet (r : Req) (queue dest stream : BitVec 16) (p cls : Byte) (key : BitVec 16) (s : State) :
    Host.Outcome State Fault Refusal :=
  .next (goust r (qcmd 0x0905 16 queue.toNat [(0, !planQueue? s queue.toNat), (2, decide (1023 < dest.toNat) && dest != 0xffff#16),
      (6, decide (3 < p.toNat)), (7, decide (1 < cls.toNat)), (8, decide (4095 < key.toNat))] fun s =>
    if !portExists s p.toNat then .fail St.portRefused 0
    else if (keySlot s key.toNat).isNone then .fail St.keyAbsent 0
    else
      let old := s.tx.find? fun t => t.queue == queue.toNat && t.dest == dest.toNat && t.stream == stream.toNat
      let t : TxStream := { queue := queue.toNat, dest := dest.toNat, stream := stream.toNat, port := p.toNat, ruled := cls.toNat == 1,
                            key := key.toNat, pos := (old.map (·.pos)).getD 0 }
      .ok { s with tx := (s.tx.filter fun x => x.queue != queue.toNat) ++ [t] } []) s)

/-- Every byte of a range lies in memory the session holds (MEM_ALLOC) or in a region of a bound plan. -/
def windowHeld (s : State) (dva n : Nat) : Bool :=
  0 < n && (s.allocs.any (fun a => a.base ≤ dva && dva + n ≤ a.base + a.pages * pageBytes) ||
    s.plans.any fun e => e.2.bound.any fun b => (([2, 4, 5].contains b.kind && b.base ≤ dva && dva + n ≤ b.base + b.size) ||
      (b.kind == 1 && padDva b.index 0 ≤ dva && dva + n ≤ padDva b.index 0 + padBytes)))

/-- A receive stream by its key. -/
def rxIs (source : Nat) (ext : Bool) (stream : Nat) (e : RxStream) : Bool := e.source == source && e.ext == ext && e.stream == stream

/-- RX_STREAM_SET (R399): a stream set again keeps its committed count; a queue names its cluster (R429). -/
def execRxStreamSet (r : Req) (source : BitVec 16) (ext dest : Byte) (stream queue : BitVec 16) (dva bytes : BitVec 64) (s : State) :
    Host.Outcome State Fault Refusal :=
  let isIt := rxIs source.toNat (ext.toNat == 1) stream.toNat
  .next (goust r { icmd 0x0906 24 [(0, decide (1023 < source.toNat)), (2, decide (1 < ext.toNat)), (3, decide (2 < dest.toNat)),
      (6, dest.toNat == 0 && !planQueue? s queue.toNat)] (fun s =>
    if dest.toNat = 2 then .ok { s with rx := s.rx.filter fun e => !isIt e } []
    else if dest.toNat = 1 ∧ !windowHeld s dva.toNat bytes.toNat then .fail St.memoryRefused dva.toNat
    else
      let d : RxDest := if dest.toNat = 0 then .queue queue.toNat else .window dva.toNat bytes.toNat
      match s.rx.find? isIt with
      | some e => .ok { s with rx := s.rx.map fun x => if isIt x then { e with dest := d, parts := [] } else x } []
      | none =>
        if 4096 ≤ s.rx.length then .fail St.noStreamSlot 0
        else .ok { s with rx := s.rx ++ [{ source := source.toNat, ext := ext.toNat == 1, stream := stream.toNat, dest := d,
                                           committed := 0, later := [], parts := [] }] } [])
      with units := if dest.toNat = 0 then [(6, queuePool queue.toNat)] else [] } s)

/-! ### Positions of a receive stream (R400) -/

/-- A range put among disjoint ranges in ascending order, merged with those it touches. -/
def addRange (r : Nat × Nat) : List (Nat × Nat) → List (Nat × Nat)
  | [] => [r]
  | e :: rest =>
    if r.1 + r.2 < e.1 then r :: e :: rest
    else if e.1 + e.2 < r.1 then e :: addRange r rest
    else addRange (min r.1 e.1, max (r.1 + r.2) (e.1 + e.2) - min r.1 e.1) rest

/-- How a payload lies against the committed count, by serial arithmetic: its distance after it, or none where all of it lies below. -/
def rxPlace (e : RxStream) (pos : BitVec 48) (len : Nat) : Option Nat :=
  let d := (pos - e.committed).toNat
  if d < 2 ^ 47 then some d else if len ≤ 2 ^ 48 - d then none else some 0

/-- The part of a payload that lies at or past the committed count, as (distance from it, bytes). -/
def rxSpan (e : RxStream) (pos : BitVec 48) (len : Nat) : Nat × Nat :=
  let d := (pos - e.committed).toNat
  if d < 2 ^ 47 then (d, len) else (0, len - (2 ^ 48 - d))

/-- The committed count moved on, and the ranges committed past it with it. -/
def rxShift (n : Nat) (e : RxStream) : RxStream :=
  { e with committed := e.committed + BitVec.ofNat 48 n,
           later := e.later.filterMap fun r => if r.1 + r.2 ≤ n then none else some (r.1 - n, r.1 + r.2 - max n r.1) }

/-- Bytes of a receive stream committed: the count moves over them where nothing before them is missing (R400). -/
def rxCount (pos : BitVec 48) (len : Nat) (e : RxStream) : RxStream :=
  let r := rxSpan e pos len
  let rs := if r.2 = 0 then e.later else addRange r e.later
  let front := match rs with | r :: _ => if r.1 = 0 then r.2 else 0 | [] => 0
  rxShift front { e with later := rs }

/-- What has arrived at or past the committed count: the committed ranges and the parts that wait for their packet. -/
def rxRanges (e : RxStream) : List (Nat × Nat) :=
  ((e.parts.map fun p => rxSpan e p.pos p.bytes.length).filter fun r => r.2 != 0).foldl (fun rs r => addRange r rs) e.later

/-- The gaps of a receive stream: each range that has arrived stands behind one, but for one at the committed count itself (R400). -/
def rxGaps (e : RxStream) : Nat := ((rxRanges e).filter fun r => r.1 != 0).length

/-- RX_STREAM_READ (R400); a stream that is not set reads as nothing committed. -/
def execRxStreamRead (r : Req) (source : BitVec 16) (ext : Byte) (stream : BitVec 16) (s : State) : Host.Outcome State Fault Refusal :=
  .next (goust r (icmd 0x0907 8 [(0, decide (1023 < source.toNat)), (2, decide (1 < ext.toNat))] fun s =>
    match s.rx.find? (rxIs source.toNat (ext.toNat == 1) stream.toNat) with
    | some e => .ok s (payload [.num 8 e.committed.toNat, .num 1 (rxGaps e)])
    | none => .ok s (payload [.num 8 0, .num 1 0])) s)

/-! ### Transmit streams (R398) -/

/-- TRANSMIT_STREAM_PACKET: a committed packet of an egress queue becomes DATA packets on its logical port (R398); what the
pool's check finds in it is told (assumption log 204). -/
def execTransmitStreamPacket (k : QueueTake) (s : State) : Host.Outcome State Fault Refusal :=
  match s.tx.find? fun t => t.queue == k.queue.toNat with
  | none => .next s
  | some t =>
    let s := checkHead k.queue.toNat k.badWord k.corrected.toNat s
    match takePacket k.queue.toNat s with
  | some (bs, s') =>
    let host : Bool := t.dest == 0xffff
    let addr := neighbourAddr s (if host then hostReturn else t.dest) t.port
    let s := (numberedParts bs).foldl (fun s e =>
      let h := kitHeader s 1 t.key (if host then sessionClient s else t.dest) host t.stream e.2.2.2.length
        ((t.pos.toNat + e.2.2.1) % 2 ^ 48)
      enqueueKit t.port (if t.ruled then .ruledExch else .margin) false addr { h with first := e.1, last := e.2.1 } e.2.2.2 s) s'
    .next { s with tx := s.tx.map fun x => if x.queue == t.queue then { x with pos := x.pos + BitVec.ofNat 48 bs.length } else x }
  | none => .next s

/-! ### PTP (R391, R392) -/

/-- PTP_SET (R391). -/
def execPtpSet (r : Req) (p transport domain : Byte) (asymmetry : BitVec 32) (s : State) : Host.Outcome State Fault Refusal :=
  .next (goust r (icmd 0x0908 8 [(0, decide (3 < p.toNat)), (1, decide (2 < transport.toNat)), (2, decide (127 < domain.toNat))]
    fun s =>
      if !portExists s p.toNat then .fail St.portRefused 0
      else .ok { s with ptp := { s.ptp with port := p.toNat, transport := transport, domain := domain, asymmetry := asymmetry,
                                            isSet := true, master := none, masters := [], heard := [], lastSeq := none, waiting := none,
                                            delayReq := none, delayResp := none } } []) s)

/-- The time transmitter is valid: one is chosen, and an update has come within 2 s (R52). -/
def ptpValid (s : State) : Bool := s.ptp.master.isSome && 0 < s.ptp.lastUpdate && s.clk.cycle < s.ptp.lastUpdate + 3800000000

/-- The mean path delay last measured, in ns. -/
def pathDelay (s : State) : Int := (s.ptp.delayResp.map (·.1)).getD 0

/-- PTP_READ (R492). -/
def execPtpRead (r : Req) (s : State) : Host.Outcome State Fault Refusal :=
  .next (goust r (icmd 0x0909 0 [] fun s =>
    .ok s (payload [.num 1 (b2n (ptpValid s)), .num 8 s.ptp.lastOffset.toNat, .num 8 (pathDelay s).toNat, .num 8 s.ptp.pps.1.toNat,
      .num 4 s.ptp.pps.2.toNat])) s)

/-- A PTP message reaches the receiver: its port carries frames, PTP has been set on it, and its transport and domain are the configured ones
(R391). -/
def ptpHeard (m : PtpMessage) (s : State) : Bool :=
  portCarries s m.port.toNat && s.ptp.isSet && s.ptp.port == m.port.toNat && s.ptp.transport == m.transport && s.ptp.domain == m.domain

/-- The best of the time transmitters heard: the lowest rank of the best master clock algorithm. -/
def bestMaster : List (Nat × Nat) → Option (Nat × Nat)
  | [] => none
  | a :: r => match bestMaster r with
    | none => some a
    | some b => if b.2 < a.2 then some b else some a

/-- The cycles for which a time transmitter counts after an Announce: 3 announce intervals of 2 s, the defaults of the profile (IEEE 1588-2019;
assumption log 214). -/
def announceTimeout : Nat := 11400000000

/-- The time transmitters whose last Announce has not timed out. -/
def liveMasters (s : State) : List (Nat × Nat) :=
  s.ptp.masters.filter fun e => (look e.1 s.ptp.heard).any fun t => decide (s.clk.cycle < t + announceTimeout)

/-- The time transmitter chosen anew among those still announced (R391); on another one the servo starts over. -/
def chooseMaster (s : State) : State :=
  let best := bestMaster (liveMasters s)
  if best.map (·.1) = s.ptp.master.map (·.1) then { s with ptp := { s.ptp with master := best } }
  else { s with ptp := { s.ptp with master := best, lastSeq := none, waiting := none, delayResp := none } }

/-- A message of the chosen time transmitter. -/
def ptpFromMaster (m : PtpMessage) (s : State) : Bool := ptpHeard m s && (chooseMaster s).ptp.master.any fun e => e.1 == m.sender.toNat

/-- A Delay_Req message (IEEE 1588-2019: 44 bytes, message type 1, version 2), with the number of the Sync it follows. -/
def delayReqBytes (s : State) (seq : Nat) : Bytes :=
  [1, 2] ++ be 2 44 ++ [s.ptp.domain, 0] ++ zeros 14 ++ be 8 (s.sec.fuses.macBase.toNat) ++ be 2 1 ++ be 2 seq ++ [1, 0x7f] ++ zeros 10

/-- A Delay_Req queued to the source addresses of a Sync, at UDP port 319 (R387, R391). -/
def sendDelayReq (m : PtpMessage) (s : State) : State :=
  let p := m.port.toNat
  let x := port s p
  setPort p { x with out := x.out ++ [{ cls := .pfcPtp, pcp := pcpOf x .pfcPtp false, dst := { m.source with udp := 319 },
                                         body := .ptp (delayReqBytes s m.seq.toNat) }] } s

/-- The offset of a Sync with timestamps t1 and t2: t2 less t1, the mean path delay and the asymmetry. -/
def syncOffset (s : State) (t1 t2 : Int) : Int := t2 - t1 - pathDelay s - s.ptp.asymmetry.toInt

/-- How far a servo update of at most 1 ms steers the time base: a free part of the offset (R392 gives no amount). -/
def steer (s : State) (off : Int) : Int := off * ((Config.value 16 s.freeCtr % 65537 : Nat) : Int) / 65536

/-- RUL_LOCK reads ACQUIRE when updates return after a holdover (R52). -/
def endHoldover (s : State) : State := if disciplined s && lockOf s == 3 then setLock 1 s else s

/-- A Sync complete with its timestamp (R392): a valid servo update steers the time base, or steps it beyond 1 ms. -/
def syncDone (seq : BitVec 16) (t1 t2 : Int) (s : State) : State :=
  let ok : Bool := s.ptp.lastSeq.any (fun n => n + 1 == seq) && s.ptp.delayResp.any fun d =>
    0 ≤ d.1 && d.1 ≤ 100000 && s.clk.cycle ≤ d.2 + 30400000000
  let s := { s with ptp := { s.ptp with lastSeq := some seq, waiting := none, t1t2 := (t1, t2) } }
  if !ok then s
  else
    let off := syncOffset s t1 t2
    let by' := if 1000000 < off.natAbs then off else steer s off
    endHoldover (drawn { s with ptp := { s.ptp with offset := s.ptp.offset - by', lastOffset := BitVec.ofInt 64 off,
                                                    lastUpdate := s.clk.cycle } })

/-- SYNC: a one-step Sync is complete; a two-step one waits for its Follow_Up (R391, R392). Its timestamp is the time base when it arrives. -/
def execSync (m : PtpMessage) (s : State) : Host.Outcome State Fault Refusal :=
  if !ptpFromMaster m s then .next s
  else
    let t2 : Int := ptpNs s
    let s := sendDelayReq m (chooseMaster s)
    .next (if m.twoStep then { s with ptp := { s.ptp with waiting := some (m.seq, t2) } }
           else syncDone m.seq (m.stamp.toNat : Int) t2 s)

/-- FOLLOW_UP: completes the two-step Sync of its number (R391). -/
def execFollowUp (m : PtpMessage) (s : State) : Host.Outcome State Fault Refusal :=
  if !ptpFromMaster m s then .next s
  else
  let s := chooseMaster s
  match s.ptp.waiting with
  | some (seq, t2) => .next (if seq = m.seq then syncDone seq (m.stamp.toNat : Int) t2 s else s)
  | none => .next s

/-- DELAY_RESP: the mean path delay from the last Sync and the Delay_Req of its number (R392). -/
def execDelayResp (m : PtpMessage) (s : State) : Host.Outcome State Fault Refusal :=
  if !ptpFromMaster m s then .next s
  else
  let s := chooseMaster s
  match s.ptp.delayReq with
  | some (seq, t3) =>
    if seq = m.seq then
      let d := ((s.ptp.t1t2.2 - s.ptp.t1t2.1) + ((m.stamp.toNat : Int) - t3)) / 2
      .next { s with ptp := { s.ptp with delayResp := some (d, s.clk.cycle), delayReq := none } }
    else .next s
  | none => .next s

/-- The rank of a time transmitter's data set under the default best master clock algorithm (IEEE 1588-2019; assumption log 214): priority 1,
class, accuracy, variance, priority 2, grandmaster, steps removed, sender. -/
def announceRank (m : PtpMessage) (d : PtpDataSet) : Nat :=
  pack [(8, d.priority1.toNat), (8, d.clockClass.toNat), (8, d.accuracy.toNat), (16, d.variance.toNat), (8, d.priority2.toNat),
    (64, d.identity.toNat), (16, d.steps.toNat), (64, m.sender.toNat)]

/-- A sender's Announce is its second within 4 announce intervals of 2 s, so that it counts as a time transmitter (IEEE 1588-2019; assumption
log 214). -/
def announcedBefore (m : PtpMessage) (s : State) : Bool :=
  (look m.sender.toNat s.ptp.heard).any fun t => decide (s.clk.cycle ≤ t + 15200000000)

/-- ANNOUNCE: a time transmitter's data set feeds the best master clock algorithm (R391). -/
def execAnnounce (m : PtpMessage) (d : PtpDataSet) (s : State) : Host.Outcome State Fault Refusal :=
  if !ptpHeard m s then .next s
  else .next (chooseMaster { s with ptp := { s.ptp with masters := if announcedBefore m s then
                                                          put m.sender.toNat (announceRank m d) s.ptp.masters else del m.sender.toNat s.ptp.masters,
                                                        heard := put m.sender.toNat s.clk.cycle s.ptp.heard } })

/-- PTP_PPS_IN: a rising edge timestamped in the time base, `ago` ns before the pulse is known to be one; a pulse shorter than 100 ns is ignored
(R492). -/
def execPtpPpsIn (ago : BitVec 64) (width : BitVec 32) (s : State) : Host.Outcome State Fault Refusal :=
  let ns := ptpNs s - ago.toNat
  if width.toNat < 100 then .next s
  else .next { s with ptp := { s.ptp with pps := (BitVec.ofNat 64 (ns / 10 ^ 9), BitVec.ofNat 32 (ns % 10 ^ 9)) } }

/-- PTP_PPS_OUT: the output rises at the next whole second of the time base and stays high for 100 ms (R492). -/
def execPtpPpsOut (s : State) : Host.Outcome State Fault Refusal :=
  let t : Nat := (ptpNs s / 10 ^ 9 + 1) * 10 ^ 9
  let s := advanceTo (ceilDiv (((t : Int) - s.ptp.offset).toNat * 19) 10) s
  .next { s with ppsOut := s.clk.cycle + 190000000 }

/-! ### Frames that carry no packet -/

/-- What a logical port accepts (R386). -/
def acceptsOf (s : State) (p : Nat) : Accepts :=
  let x := port s p
  { mac := (portMac s p).toNat, ip := x.ip, v6 := portIpv6 x, udp := portUdp x }

/-- NOT_FOR_PORT: a frame that fails the Ethernet, IP or UDP checks is dropped under its reason, 0x01 to 0x05 (R385, R386); one that passes
them is another row's to receive. -/
def execNotForPort (p : BitVec 2) (frame : Bytes) (s : State) : Host.Outcome State Fault Refusal :=
  match (if portCarries s p.toNat then frameReason (acceptsOf s p.toNat) frame else none) with
  | some reason => .next (drop p.toNat reason s)
  | none => .next s

/-- A pause time in cycles: quanta of 512 bit times of the port. -/
def pauseCycles (s : State) (p quanta : Nat) : Nat := ceilDiv (quanta * 152 * (if portSplit s p then 2 else 1)) 125

/-- PFC_FRAME: the priorities it names are paused for the times it gives; a time of 0 ends a pause (R390). -/
def execPfcFrame (p : BitVec 2) (times : List (BitVec 3 × BitVec 16)) (s : State) : Host.Outcome State Fault Refusal :=
  let n := p.toNat
  if !portCarries s n || !portPfc (port s n) then .next s
  else
    let x := port s n
    let ps := times.foldl (fun l e =>
      let l := del e.1.toNat l
      if e.2 = 0 then l else l ++ [(e.1.toNat, s.clk.cycle + pauseCycles s n e.2.toNat)]) x.paused
    .next (setPort n { x with paused := ps } s)

/-- PAUSE_FRAME: discarded without effect (Table 12-1). -/
def execPauseFrame (_p : BitVec 2) (s : State) : Host.Outcome State Fault Refusal := .next s

/-- PAUSE_TIME_EXPIRED: the pause of a priority has run out (R390). -/
def execPauseTimeExpired (p : BitVec 2) (pr : BitVec 3) (s : State) : Host.Outcome State Fault Refusal :=
  let x := port s p.toNat
  match look pr.toNat x.paused with
  | none => .next s
  | some t => .next (setPort p.toNat { x with paused := del pr.toNat x.paused } (advanceTo t s))

/-! ### Links -/

/-- PORT_LINK_DOWN: frames stop and the self-test follows (R415). -/
def execPortLinkDown (p : BitVec 2) (s : State) : Host.Outcome State Fault Refusal :=
  let n := p.toNat
  if !portCarries s n then .next s
  else .next (emitErr { cls := 6, code := 1, unit := laneUid s n, pos := 0, count := 0, plan := 0xff, named := false, test := true }
    (setPort n { port s n with linkUp := false, retraining := true } s))

/-- A self-test of a port's lanes is under way, and the link's retraining waits for it (Table 15-4a). -/
def portUnderTest (s : State) (p : Nat) : Bool := s.tests.any fun t => match unitClass t.unit, unitClass (laneUid s p) with
  | .port d 0 l, .port d' 0 l' => d == d' && (!portSplit s p || l / 4 == l' / 4)
  | .port d 1 _, .port d' _ _ => d == d'
  | _, _ => false

/-- LINK_UP: a logical port's link comes up with its partner after training (R494). -/
def execLinkUp (p : BitVec 2) (s : State) : Host.Outcome State Fault Refusal :=
  let n := p.toNat
  if !portUp s n || portUnderTest s n then .next s
  else .next (setPort n { port s n with linkUp := true, retraining := false } s)

/-- UNCORRECTED_CODEWORD: its frames are dropped under 0x01, a number the spec does not give, and the tick's record counts it
(Table 12-13). -/
def execUncorrectedCodeword (p : BitVec 2) (s : State) : Host.Outcome State Fault Refusal :=
  let n := p.toNat
  if !portCarries s n then .next s
  else
    let x := port s n
    let x := { x with drops := modifyAt (· + BitVec.ofNat 64 (freeNumber 4 s)) 1 x.drops }
    .next (tickEvent { cls := 6, code := 2, unit := (laneUid s n).toNat, plan := 0xff, key := n, pos := 0, count := 1 }
      (drawn (setPort n x s)))

/-- LINK_LANE_DOWN: a lane group of a die link loses training (Table 15-4). -/
def execLinkLaneDown (die peer : BitVec 2) (group : BitVec 4) (s : State) : Host.Outcome State Fault Refusal :=
  let u := uid die.toNat 13 0 peer.toNat group.toNat
  if die = peer ∨ s.lanesDown.contains u then .next s
  else .next (emitErr { cls := 8, code := 2, unit := u, pos := 0, count := 0, plan := 0xff, named := true, test := true }
    { s with lanesDown := s.lanesDown ++ [u] })

/-- LINK_DOWN: every lane group of a die link is down; nothing crosses it until the host excludes the link (Table 15-4). -/
def execLinkDown (die peer : BitVec 2) (s : State) : Host.Outcome State Fault Refusal :=
  let n := linkNumber die.toNat peer.toNat
  if die = peer ∨ s.linksDown.contains n then .next s
  else .next (emitErr { cls := 8, code := 3, unit := linkUid die.toNat peer.toNat, pos := 0, count := 0, plan := 0xff, named := true,
                        test := false } { s with linksDown := s.linksDown ++ [n] })

end Sys2Proof.Machine
end

