-- ==== Sys2Proof/Machine/Identity.lean ====
section
/-! DEFINITION. Identity and inventory (Table 13-6). -/

namespace Sys2Proof.Machine

/-- The variant code of Table 0-1. -/
def variantCode (v : Variant) : Nat := match v with | .l768 => 0x01 | .l384 => 0x02

/-- The stepping (R1). -/
def stepping : Nat := 0xb0

/-- The response of IDENTIFY (Table 13-6). -/
def identifyBody (s : State) : Bytes :=
  payload [.num 1 (variantCode s.variant), .num 1 stepping, .num 2 s.booted.major.toNat, .num 2 s.booted.minor.toNat,
    .num 2 s.booted.patch.toNat, .num 2 s.deviceNumber.toNat, .num 8 s.sec.fuses.serial.toNat,
    .num 8 s.sec.fuses.macBase.toNat]

/-- IDENTIFY (R431). -/
def execIdentify (r : Req) (s : State) : Host.Outcome State Fault Refusal :=
  .next (goust r (icmd 0x0101 0 [] fun s => .ok s (identifyBody s)) s)

/-- The response of INVENTORY (Table 13-6, R484). -/
def inventoryBody (first : Nat) (s : State) : Bytes :=
  let us := (s.excluded.drop first).take 1024
  payload [.num 4 s.excluded.length, .num 4 us.length, .elems (us.map fun u => le 2 u.toNat)]

/-- INVENTORY (R431). -/
def execInventory (r : Req) (first : BitVec 32) (s : State) : Host.Outcome State Fault Refusal :=
  .next (goust r (icmd 0x0102 8 [] fun s => .ok s (inventoryBody first.toNat s)) s)

/-- MBX_STATE of mailbox `m` (Table 13-1), read by a command of mailbox `reader`. -/
def mbxState (s : State) (reader m : Nat) : Nat :=
  let b := mbox s m
  let busy := reader == m || s.heldLoads.any fun e => match heldReq e.1 with | some q => q.mailbox.toNat == m | none => false
  pack [(1, b2n busy), (7, 0), (8, b.discarded.toNat), (16, b.spurious.toNat), (16, b.doorbells.toNat), (16, b.pend.length)]

/-- MAILBOX_READ (R417). -/
def execMailboxRead (r : Req) (s : State) : Host.Outcome State Fault Refusal :=
  .next (goust r (icmd 0x0103 0 [] fun s =>
    .ok s (payload [.elems ((List.range 16).map fun m => le 8 (mbxState s r.mailbox.toNat m))])) s)

/-- A request whose opcode this firmware does not define: nothing else about it is looked at (R431). -/
def execUnknownOpcode (r : Req) (opcode : BitVec 16) (s : State) : Host.Outcome State Fault Refusal :=
  .next (byTag r opcode.toNat (answer r opcode.toNat St.unknownOpcode 0 []) s)

end Sys2Proof.Machine
end

