-- ==== Sys2Proof/Machine/Security.lean ====
section
/-! DEFINITION. The Seal: measurements, attestation, handshakes and key slots (R441 to R457). -/

namespace Sys2Proof.Machine

/-- ASCII text as bytes. -/
def ascii (t : String) : Bytes := t.toList.map fun c => BitVec.ofNat 8 c.toNat

/-- Bits set in a number of `w` bits. -/
def popcount (w v : Nat) : Nat := ((List.range w).filter (bitAt v)).length

/-! ### Measurement registers (R441, R442) -/

/-- Register MR`k`. -/
def mrOf (s : State) (k : Nat) : Bytes := nth s.sec.mr k (zeros 48)

/-- The value of a register after an event. -/
def mrNext (old : Bytes) (type : Nat) (data : Bytes) : Bytes := sha384 (old ++ le 4 type ++ sha384 data)

/-- A register extended by an event; the events of MR3 are logged (R442). -/
def extendMr (k type : Nat) (data : Bytes) (s : State) : State :=
  let mr := modifyAt (fun m => mrNext m type data) k s.sec.mr
  if k = 3 then
    { s with sec := { s.sec with mr := mr, mr3Events := s.sec.mr3Events + 1,
                                 mr3Log := s.sec.mr3Log ++ [(BitVec.ofNat 32 type, sha384 data)] } }
  else { s with sec := { s.sec with mr := mr } }

/-- MR3 and its log zeroed. -/
def zeroMr3 (s : State) : State :=
  { s with sec := { s.sec with mr := modifyAt (fun _ => zeros 48) 3 s.sec.mr, mr3Events := 0, mr3Log := [] } }

/-- The measurement digest (R441). -/
def mrDigest (s : State) : Bytes := sha384 (mrOf s 0 ++ mrOf s 1 ++ mrOf s 2 ++ mrOf s 3)

/-- The response of MEASUREMENTS_READ (R442). -/
def measurementsBody (s : State) : Bytes :=
  let log := s.sec.mr3Log.drop (s.sec.mr3Log.length - 59)
  payload [.arr (mrOf s 0), .arr (mrOf s 1), .arr (mrOf s 2), .arr (mrOf s 3), .num 4 s.sec.mr3Events, .num 4 log.length,
    .elems (log.map fun e => le 4 e.1.toNat ++ zeros 4 ++ e.2)]

/-- MEASUREMENTS_READ (R442). -/
def execMeasurementsRead (r : Req) (s : State) : Host.Outcome State Fault Refusal :=
  .next (goust r (icmd 0x0602 0 [] fun s => .ok s (measurementsBody s)) s)

/-! ### Identity and attestation (R443 to R445) -/

/-- PRK of the device identity (R443). -/
def identityPrk (s : State) : Bytes := hkdfExtract (ascii "KF384 identity v1") (le 32 s.sec.fuses.dus.toNat)

/-- The Ed25519 secret key of the identity. -/
def identityEd (s : State) : Bytes := hkdfExpand (identityPrk s) (ascii "ed25519") 32

/-- The ML-DSA-65 seed of the identity. -/
def identityMldsa (s : State) : Bytes := hkdfExpand (identityPrk s) (ascii "ml-dsa-65") 32

/-- The two public keys of the identity: 32 and 1,952 bytes. -/
def identityPublic (s : State) : Bytes :=
  fit 32 (Config.ed25519Public (identityEd s)) ++ fit 1952 (Config.mldsaPublic (identityMldsa s))

/-- The fused minimum security version (Table 14-2). -/
def fusedSvn (s : State) : Nat := popcount 64 s.sec.fuses.minSvn.toNat

/-- The body of an attestation report (Table 14-5), its counter already counting it. -/
def reportBody (kind slot : Nat) (binding : Bytes) (s : State) : Bytes :=
  le 176 (pack [(32, 0x5254414b), (16, 1), (8, variantCode s.variant), (8, stepping), (64, s.sec.fuses.serial.toNat),
    (16, s.booted.major.toNat), (16, s.booted.minor.toNat), (16, s.booted.patch.toNat), (8, kind), (1, b2n (sessionOpen s)),
    (1, b2n s.sec.alternate), (6, 0), (32, fusedSvn s), (16, s.deviceNumber.toNat), (16, slot), (64, s.sec.arCounter.toNat),
    (384, ofLe (mrDigest s)), (384, ofLe binding), (64, s.rul.tick.toNat), (64, s.sec.keyEpoch.toNat),
    (64, s.sec.debugNonce.toNat), (128, 0)])

/-- A report signed under the identity keys (R445): 3,549 bytes, and the counter advanced. -/
def signReport (kind slot : Nat) (binding : Bytes) (s : State) : Bytes × State :=
  let s := { s with sec := { s.sec with arCounter := s.sec.arCounter + 1 } }
  let body := reportBody kind slot binding s
  (body ++ fit 64 (Config.ed25519Sign (identityEd s) body) ++
    fit 3309 (Config.mldsaSign (identityMldsa s) (ascii "KF384-attest") body s.freeCtr), drawn s)

/-- ATTEST (R445); once the identity latch is closed no report is signed (R463), and the command is refused. -/
def execAttest (r : Req) (nonce : Bytes) (s : State) : Host.Outcome State Fault Refusal :=
  .next (goust r (icmd 0x0601 32 [] fun s =>
    if s.sec.latched then .fail St.powerState 0
    else
      let e := signReport 0 0 (fit 32 nonce ++ zeros 16) s
      .ok e.2 (payload [.arr e.1])) s)

/-! ### Handshake fragments (R446) -/

/-- A handshake fragment (Table 14-6). -/
structure HsFragment where
  id : BitVec 64
  (slot frags frag len type : Nat)
  body : Bytes
  deriving DecidableEq, Repr

/-- The body bytes of one fragment. -/
def hsChunk : Nat := 1384

/-- A fragment parsed from a payload; none where a reserved field is not zero or its numbers do not fit together. -/
def fragmentOf (pl : Bytes) : Option HsFragment :=
  let f : HsFragment := { type := leAt pl 0 1, len := leAt pl 2 2, frag := leAt pl 4 1, frags := leAt pl 5 1, slot := leAt pl 6 2,
                          id := BitVec.ofNat 64 (leAt pl 8 8), body := pl.drop 16 }
  if leAt pl 1 1 == 0 && 1 ≤ f.frags && f.frags ≤ 8 && f.frag < f.frags && f.slot ≤ 4095 &&
      f.frags == max 1 (ceilDiv f.len hsChunk) && f.body.length == min hsChunk (f.len - f.frag * hsChunk) then some f
  else none

/-- A HANDSHAKE packet checked (R395, R396) and parsed, of the message type its row names; a halted Quill takes none. -/
def receiveHs (p : KitPacket) (type : Nat) (s : State) : Option HsFragment × State :=
  let pt := p.port.toNat
  let h := p.header
  if !portCarries s pt || h.kind ≠ 12#4 then (none, s)
  else if !kitFormOk p 12 then (none, drop pt 6 s)
  else if h.dstDev ≠ s.deviceNumber ∨ h.extDst then (none, drop pt 7 s)
  else if h.keyId ≠ 0xffff#16 then (none, drop pt 9 s)
  else match fragmentOf p.payload with
  | none => (none, drop pt 6 s)
  | some f => if f.type = type ∧ !s.halted then (some f, s) else (none, s)

/-- A fragment added to its message: the whole body once every fragment is there. -/
def reassemble (f : HsFragment) (s : State) : Option Bytes × State :=
  let isIt : HsParts → Bool := fun x => x.id == f.id && x.type == f.type
  let e : HsParts := (s.sec.parts.find? isIt).getD
    { id := f.id, type := f.type, frags := f.frags, len := f.len, slot := f.slot, got := [], since := s.clk.cycle }
  let got := if (look f.frag e.got).isSome then e.got else e.got ++ [(f.frag, f.body)]
  let rest := s.sec.parts.filter fun x => !isIt x
  if got.length = e.frags then
    (some ((List.range e.frags).flatMap fun i => (look i got).getD []), { s with sec := { s.sec with parts := rest } })
  else (none, { s with sec := { s.sec with parts := rest ++ [{ e with got := got }] } })

/-- Where a handshake message goes: the logical port, the addresses, and the other side's number with KIT_EXT_DST. -/
structure HsTo where
  (port : Nat)
  (addr : Addr)
  (num : Nat)
  (ext : Bool)

/-- A handshake message sent in fragments of 1,384 body bytes. -/
def sendHs (dest : HsTo) (id : BitVec 64) (slot type : Nat) (body : Bytes) (s : State) : State :=
  let ps := if body.isEmpty then [[]] else pieces hsChunk body
  ((List.range ps.length).zip ps).foldl (fun s e =>
    let pl := le 16 (pack [(8, type), (8, 0), (16, body.length), (8, e.1), (8, ps.length), (16, slot), (64, id.toNat)]) ++ e.2
    enqueueKit dest.port .control false dest.addr (kitHeader s 12 0xffff dest.num dest.ext 0 pl.length 0) pl s) s

/-- The sender of a packet, to be answered. -/
def answerTo (p : KitPacket) : HsTo := ⟨p.port.toNat, p.source, p.header.srcDev.toNat, p.header.extSrc⟩

/-- The other side of a handshake. -/
def hsTo (h : Handshake) : HsTo := ⟨h.port, h.addr, h.peer, h.ext⟩

/-- An ABORT with BAD_MESSAGE, VERIFY or TIMEOUT sent or received (Table 14-11). -/
def noteAbort (reason slot : Nat) (s : State) : State :=
  if reason = 4 ∨ reason = 5 ∨ reason = 6 then
    tickEvent { cls := 7, code := 3, unit := sealUid.toNat, plan := 0xff, key := 0, pos := slot, count := 1 } s
  else s

/-- An ABORT sent (Table 14-7). -/
def sendAbort (dest : HsTo) (id : BitVec 64) (slot reason : Nat) (s : State) : State :=
  noteAbort reason slot (sendHs dest id slot 7 (le 2 reason) s)

/-- HANDSHAKE_FRAGMENT_TIMEOUT: a message still incomplete 100 ms after its first fragment is dropped (R446). -/
def execHandshakeFragmentTimeout (id : BitVec 64) (type : Byte) (s : State) : Host.Outcome State Fault Refusal :=
  let isIt : HsParts → Bool := fun x => x.id == id && x.type == type.toNat
  match s.sec.parts.find? isIt with
  | none => .next s
  | some e => .next (advanceTo (e.since + 190000000) { s with sec := { s.sec with parts := s.sec.parts.filter fun x => !isIt x } })

/-! ### Transcripts and keys (R447, R455) -/

/-- enc of a message (R447). -/
def hsEnc (type : Nat) (body : Bytes) : Bytes := le 1 type ++ le 2 body.length ++ body

/-- THb, THr, THf and THc. -/
def thB (hello reply : Bytes) : Bytes := sha384 (hsEnc 3 hello ++ reply.take 1152)
def thR (hello reply : Bytes) : Bytes := sha384 (hsEnc 3 hello ++ hsEnc 4 reply)
def thF (hello reply finish : Bytes) : Bytes := sha384 (hsEnc 3 hello ++ hsEnc 4 reply ++ finish.drop 48)
def thC (hello reply finish : Bytes) : Bytes := sha384 (hsEnc 3 hello ++ hsEnc 4 reply ++ hsEnc 5 finish)

/-- A key of Table 14-8. -/
def slotKey (prk : Bytes) (label : String) (th : Bytes) (n : Nat) : Bytes := hkdfExpand prk (ascii label ++ th) n

/-- The keys of a slot as the initiator or the responder holds them (R455). -/
def slotKeys (prk th : Bytes) (initiator : Bool) : Keys :=
  let i2rKey := slotKey prk "KIT v1 i2r key" th 32
  let i2rSalt := slotKey prk "KIT v1 i2r salt" th 4
  let r2iKey := slotKey prk "KIT v1 r2i key" th 32
  let r2iSalt := slotKey prk "KIT v1 r2i salt" th 4
  if initiator then ⟨i2rKey, i2rSalt, r2iKey, r2iSalt⟩ else ⟨r2iKey, r2iSalt, i2rKey, i2rSalt⟩

/-- The FINISH and CONFIRM MACs. -/
def finishMac (h : Handshake) (finish : Bytes) : Bytes :=
  hmac384 (slotKey h.prk "KIT v1 i finish" h.thr 48) (thF h.hello h.reply finish)
def confirmMac (h : Handshake) (finish : Bytes) : Bytes :=
  hmac384 (slotKey h.prk "KIT v1 r finish" h.thr 48) (thC h.hello h.reply finish)

/-- A key slot loaded after a handshake: new sequence counters and windows (R397, R448). -/
def loadSlot (h : Handshake) (s : State) : State :=
  let k : KeySlot := { num := h.slot, client := h.client, peer := h.peer, keys := slotKeys h.prk h.thr h.initiator,
                       rPrev := slotKey h.prk "KIT v1 rekey" h.thr 48, next := none }
  { s with sec := { s.sec with slots := (s.sec.slots.filter fun x => x.num != h.slot) ++ [k],
                               handshakes := s.sec.handshakes.filter fun x => x.id != h.id,
                               opens := s.sec.opens.filter fun o => o.num != h.slot },
           counters := s.counters.filter fun c => c.slot != h.slot, windows := s.windows.filter fun w => w.slot != h.slot }

/-- The open of a slot. -/
def openOf (s : State) (slot : Nat) : Option OpenSlot := s.sec.opens.find? fun o => o.num == slot

/-- A handshake ended, its ephemeral values erased (R450). -/
def dropHandshake (id : BitVec 64) (s : State) : State :=
  { s with sec := { s.sec with handshakes := s.sec.handshakes.filter fun h => h.id != id } }

/-- An open that has failed: its final response is KEY_SLOT with a detail (R454). -/
def failOpen (slot detail : Nat) (s : State) : State :=
  finalAnswer (fun k => k == .keyslot slot) St.keySlot detail []
    { s with sec := { s.sec with opens := s.sec.opens.filter fun o => o.num != slot } }

/-- A handshake ended by an ABORT this device sends, with the failed open's detail (R454). -/
def abortHandshake (h : Handshake) (reason detail : Nat) (s : State) : State :=
  failOpen h.slot detail (dropHandshake h.id (sendAbort (hsTo h) h.id h.slot reason s))

/-! ### HELLO (R448 to R453) -/

/-- The fields of a HELLO body. -/
def helloSlot (b : Bytes) : Nat := leAt b 2 2
def helloKind (b : Bytes) : Nat := leAt b 4 1
def helloNum (b : Bytes) : Nat := leAt b 6 2
def helloNt (b : Bytes) : Bytes := slice b 40 32

/-- Why a HELLO is not admitted (R449 to R453, R463): the ABORT reason. -/
def helloRefused (s : State) (p : KitPacket) (f : HsFragment) (b : Bytes) : Option Nat :=
  let slot := helloSlot b
  if s.sec.latched then some 7
  else if !s.sec.trngOk then some 8
  else if b.length ≠ 1288 ∨ leAt b 0 2 ≠ 1 ∨ slot ≠ f.slot ∨ 1 < helloKind b then some 4
  else if slot = 0 then
    if s.sec.scrub.isSome then some 3
    else if sessionOpen s then some 1
    else if helloKind b ≠ 1 ∨ helloNt b ≠ zeros 32 then some 4
    else none
  else match openOf s slot with
  | none => some 2
  | some o =>
    if o.initiator || o.client != (helloKind b == 1) then some 2
    else if o.client then
      if p.header.extSrc && helloNum b == o.peer && helloNt b == o.ticket then none else some 2
    else if p.header.srcDev.toNat == o.peer && !p.header.extSrc then none else some 2

/-- No REPLY can leave a port within 2 ms (R449). -/
def replyLate (s : State) (p : Nat) : Bool := (port s p).replyAt.any fun t => decide (s.clk.cycle + 3800000 < t)

/-- A REPLY sent, the next one of its port 100 µs later at the earliest (R449). -/
def sendReply (dest : HsTo) (id : BitVec 64) (slot : Nat) (reply : Bytes) (s : State) : State :=
  let x := port s dest.port
  sendHs dest id slot 4 reply (setPort dest.port { x with replyAt := some (max s.clk.cycle (x.replyAt.getD 0) + 190000) } s)

/-- A HELLO past admission finds no place: 64 handshakes, one on its slot, or no REPLY can leave within 2 ms (R449). -/
def helloBusy (s : State) (p : KitPacket) (slot : Nat) : Bool :=
  64 ≤ s.sec.handshakes.length || s.sec.handshakes.any (fun h => h.slot == slot) || replyLate s p.port.toNat

/-- A REPLY built and sent (R448 steps 2 to 4); a bad key share is answered ABORT BAD_MESSAGE, which ends the open. -/
def answerHello (p : KitPacket) (f : HsFragment) (b : Bytes) (s : State) : State :=
  let slot := helloSlot b
  let dest := answerTo p
  let ek := slice b 104 1184
  let ns := randomBytes 32 s
  let priv := randomBytes 32 (drawn s)
  let rnd := randomBytes 32 (drawn (drawn s))
  let s := drawn (drawn (drawn s))
  let ssx := fit 32 (Config.x25519 priv (slice b 72 32))
  if !Config.mlkemCheck ek || ssx == zeros 32 then
    let s := sendAbort dest f.id slot 4 s
    if slot = 0 then s else failOpen slot 3 s
  else
    let head := ns ++ fit 32 (Config.x25519Public priv) ++ fit 1088 (Config.mlkemCipher ek rnd)
    let e := signReport 1 slot (thB b head) s
    let reply := head ++ e.1
    let s := e.2
    let client : Bool := helloKind b == 1
    let z := match openOf s slot with
      | some o => if o.client then fit 32 o.material else zeros 32
      | none => zeros 32
    let prk := hkdfExtract (slice b 8 32 ++ ns) (fit 32 (Config.mlkemSecret ek rnd) ++ ssx ++ z)
    let h : Handshake := { id := f.id, slot := slot, initiator := false, client := client, peer := helloNum b, port := dest.port,
                           addr := dest.addr, ext := dest.ext, hello := b, reply := reply, priv := [], prk := prk,
                           thr := thR b reply, finish := [], since := s.clk.cycle, state := 1 }
    sendReply dest f.id slot reply { s with sec := { s.sec with handshakes := s.sec.handshakes ++ [h] } }

/-- HELLO (R448). -/
def execHello (p : KitPacket) (s : State) : Host.Outcome State Fault Refusal :=
  match receiveHs p 3 s with
  | (none, s) => .next s
  | (some f, s) => match reassemble f s with
    | (none, s) => .next s
    | (some b, s) =>
      match s.sec.handshakes.find? fun h => h.id == f.id && !h.initiator with
      | some h => .next (if replyLate s h.port then sendAbort (hsTo h) h.id h.slot 1 s else sendReply (hsTo h) h.id h.slot h.reply s)
      | none => match helloRefused s p f b with
        | some reason => .next (sendAbort (answerTo p) f.id f.slot reason s)
        | none =>
          if helloBusy s p (helloSlot b) then .next (sendAbort (answerTo p) f.id f.slot 1 s)
          else .next (answerHello p f b s)

/-- ID_REQ: answered with ID at most once per millisecond per logical port (R449). -/
def execIdReq (p : KitPacket) (s : State) : Host.Outcome State Fault Refusal :=
  match receiveHs p 1 s with
  | (none, s) => .next s
  | (some f, s) =>
    let pt := p.port.toNat
    let x := port s pt
    if x.idAt.any fun t => s.clk.cycle < t + 1900000 then .next s
    else
      let e := Config.endorsement
      let body := le 8 s.sec.fuses.serial.toNat ++ le 1 (variantCode s.variant) ++ [e.2.2] ++ zeros 6 ++
        identityPublic s ++ fit 64 e.1 ++ fit 3309 e.2.1
      .next (sendHs (answerTo p) f.id f.slot 2 body (setPort pt { x with idAt := some s.clk.cycle } s))

/-! ### FINISH, REPLY, CONFIRM, ABORT -/

/-- A report of 3,549 bytes passes the checks of R453 against the material of an open. -/
def reportOk (o : OpenSlot) (report binding : Bytes) : Bool :=
  let body := report.take 176
  let digest := slice o.material 1984 48
  report.length == 3549 && Config.ed25519Verify (o.material.take 32) body (slice report 176 64) &&
    Config.mldsaVerify (slice o.material 32 1952) (ascii "KF384-attest") body (slice report 240 3309) &&
    slice body 88 48 == binding && leAt body 28 2 == o.peer && (digest == zeros 48 || slice body 40 48 == digest)

/-- FINISH (R448): the MAC and a device initiator's report checked, the keys loaded, CONFIRM sent. -/
def execFinish (p : KitPacket) (s : State) : Host.Outcome State Fault Refusal :=
  match receiveHs p 5 s with
  | (none, s) => .next s
  | (some f, s) => match reassemble f s with
    | (none, s) => .next s
    | (some b, s) =>
      match s.sec.handshakes.find? fun h => h.id == f.id && !h.initiator with
      | none => .next s
      | some h =>
        let device := !h.client
        if b.length ≠ (if device then 3597 else 48) then .next (abortHandshake h 4 3 s)
        else if b.take 48 ≠ finishMac h b then .next (abortHandshake h 5 2 s)
        else if device && !(openOf s h.slot).any fun o => reportOk o (b.drop 48) h.thr then .next (abortHandshake h 5 2 s)
        else
          let s := sendHs (hsTo h) h.id h.slot 6 (confirmMac h b) (loadSlot h s)
          .next (finalAnswer (fun k => k == .keyslot h.slot) St.ok 0 [] s)

/-- The private values of an initiator: the X25519 private value and the ML-KEM seed. -/
def helloPriv (s : State) : Bytes := randomBytes 32 s ++ randomBytes 64 (drawn s)

/-- A HELLO of this device for an open peer slot, sent through the peer's neighbour entry (R453); it waits while 64 handshakes are in
progress (R449). -/
def startHello (o : OpenSlot) (s : State) : State :=
  if !s.sec.trngOk || decide (64 ≤ s.sec.handshakes.length) then s
  else
    let priv := helloPriv s
    let nc := randomBytes 32 (drawn (drawn s))
    let id := BitVec.ofNat 64 (ofLe (randomBytes 8 (drawn (drawn (drawn s)))))
    let s := drawn (drawn (drawn (drawn s)))
    let hello := le 2 1 ++ le 2 o.num ++ [0, 0] ++ le 2 s.deviceNumber.toNat ++ nc ++ zeros 32 ++
      fit 32 (Config.x25519Public (priv.take 32)) ++ fit 1184 (Config.mlkemPublic (priv.drop 32))
    let pt := (neighbour s o.peer).port.toNat
    let h : Handshake := { id := id, slot := o.num, initiator := true, client := false, peer := o.peer, port := pt,
                           addr := neighbourAddr s o.peer pt, ext := false, hello := hello, reply := [], priv := priv, prk := [],
                           thr := [], finish := [], since := s.clk.cycle, state := 0 }
    sendHs (hsTo h) id o.num 3 hello { s with sec := { s.sec with handshakes := s.sec.handshakes ++ [h] } }

/-- HELLO_REPEAT: a peer initiator repeats HELLO every 100 ms until REPLY (R453). -/
def execHelloRepeat (slot : BitVec 12) (s : State) : Host.Outcome State Fault Refusal :=
  match s.sec.handshakes.find? fun h => h.slot == slot.toNat && h.initiator with
  | some h =>
    if h.state ≠ 0 then .next s
    else
      let s := advanceTo (h.since + 190000000) s
      .next (sendHs (hsTo h) h.id h.slot 3 h.hello
        { s with sec := { s.sec with handshakes := s.sec.handshakes.map fun x => if x.id = h.id then { x with since := s.clk.cycle } else x } })
  | none => match openOf s slot.toNat with
    | some o => .next (if o.initiator then startHello o s else s)
    | none => .next s

/-- REPLY at an initiator (R453): the peer's report checked, the keys derived, FINISH sent. -/
def execReply (p : KitPacket) (s : State) : Host.Outcome State Fault Refusal :=
  match receiveHs p 4 s with
  | (none, s) => .next s
  | (some f, s) => match reassemble f s with
    | (none, s) => .next s
    | (some b, s) =>
      match s.sec.handshakes.find? fun h => h.id == f.id && h.initiator && h.state == 0 with
      | none => .next s
      | some h =>
        if b.length ≠ 4701 then .next (abortHandshake h 4 3 s)
        else if !(openOf s h.slot).any fun o => reportOk o (b.drop 1152) (thB h.hello b) then .next (abortHandshake h 5 2 s)
        else
          let ssx := fit 32 (Config.x25519 (h.priv.take 32) (slice b 32 32))
          if ssx = zeros 32 then .next (abortHandshake h 4 3 s)
          else
            let ssk := fit 32 (Config.mlkemDecap (h.priv.drop 32) (slice b 64 1088))
            let prk := hkdfExtract (slice h.hello 8 32 ++ b.take 32) (ssk ++ ssx ++ zeros 32)
            let thr := thR h.hello b
            let e := signReport 2 h.slot thr s
            let h' := { h with reply := b, prk := prk, thr := thr, priv := [], state := 1 }
            let finish := finishMac h' (zeros 48 ++ e.1) ++ e.1
            let h' := { h' with finish := finish }
            .next (sendHs (hsTo h) h.id h.slot 5 finish
              { e.2 with sec := { e.2.sec with handshakes := e.2.sec.handshakes.map fun x => if x.id = h.id then h' else x } })

/-- CONFIRM at an initiator: the MAC checked and the peer slot loaded (R448). -/
def execConfirm (p : KitPacket) (s : State) : Host.Outcome State Fault Refusal :=
  match receiveHs p 6 s with
  | (none, s) => .next s
  | (some f, s) => match reassemble f s with
    | (none, s) => .next s
    | (some b, s) =>
      match s.sec.handshakes.find? fun h => h.id == f.id && h.initiator && h.state == 1 with
      | none => .next s
      | some h =>
        if b ≠ confirmMac h h.finish then .next (abortHandshake h 5 2 s)
        else .next (finalAnswer (fun k => k == .keyslot h.slot) St.ok 0 [] (loadSlot h s))

/-- ABORT: ends the handshake of its id, and the open fails (R454). -/
def execAbort (p : KitPacket) (s : State) : Host.Outcome State Fault Refusal :=
  match receiveHs p 7 s with
  | (none, s) => .next s
  | (some f, s) => match reassemble f s with
    | (none, s) => .next s
    | (some b, s) =>
      match s.sec.handshakes.find? fun h => h.id == f.id with
      | none => .next s
      | some h => .next (failOpen h.slot 3 (dropHandshake h.id (noteAbort (leAt b 0 2) h.slot s)))

/-- HANDSHAKE_TIMEOUT: no FINISH 1 s after the REPLY; the slot is free again (R449). -/
def execHandshakeTimeout (slot : BitVec 12) (s : State) : Host.Outcome State Fault Refusal :=
  match s.sec.handshakes.find? fun h => h.slot == slot.toNat && !h.initiator with
  | none => .next s
  | some h => .next (abortHandshake h 6 1 (advanceTo (h.since + 1900000000) s))

/-! ### Key slot commands (R454, R456, R457) -/

/-- KEYSLOT_OPEN (R454). -/
def execKeyslotOpen (r : Req) (slot : BitVec 16) (kind : Byte) (peer : BitVec 16) (material : Bytes) (s : State) :
    Host.Outcome State Fault Refusal :=
  .next (goust r (pcmd 0x0603 (if kind.toNat = 0 then 2040 else 40) [(2, decide (1 < kind.toNat)), (4, decide (1023 < peer.toNat))]
    fun s =>
      let device : Bool := kind.toNat == 0
      if slot.toNat = 0 ∨ 4095 < slot.toNat ∨ (keySlot s slot.toNat).isSome ∨ (openOf s slot.toNat).isSome then .fail St.keySlot 0
      else if device && peer.toNat == s.deviceNumber.toNat then .fail St.keySlot 0
      else if device && !Config.keysWellFormed (material.take 32) (slice material 32 1952) then .fail St.keySlot 0
      else
        let ticket := if device then zeros 32 else randomBytes 32 s
        let initiator : Bool := device && s.deviceNumber.toNat < peer.toNat
        let o : OpenSlot := { num := slot.toNat, client := !device, peer := peer.toNat, material := material, ticket := ticket,
                              initiator := initiator, since := s.clk.cycle, mailbox := r.mailbox.toNat, tag := r.tag }
        let s := drawn { s with sec := { s.sec with opens := s.sec.opens ++ [o] } }
        let s := if initiator then startHello o s else s
        .accept s (.keyslot slot.toNat) (payload [.arr ticket, .num 1 (b2n (!initiator))])) s)

/-- KEYSLOT_OPEN_TIMEOUT: the handshake has not completed within 10 s of acceptance (R454). -/
def execKeyslotOpenTimeout (slot : BitVec 16) (s : State) : Host.Outcome State Fault Refusal :=
  match openOf s slot.toNat with
  | none => .next s
  | some o =>
    let s := advanceTo (o.since + 19000000000) s
    .next (failOpen slot.toNat 1
      { s with sec := { s.sec with handshakes := s.sec.handshakes.filter fun h => h.slot != slot.toNat } })

/-- The outbound packets of a slot that wait at the ports are discarded (R457). -/
def discardOutbound (slot : Nat) (s : State) : State :=
  { s with ports := s.ports.map fun e => (e.1, { e.2 with out := e.2.out.filter fun f => match f.body with
      | .kit h _ => h.keyId.toNat != slot
      | _ => true }) }

/-- A slot's keys wiped with its counters and windows. -/
def wipeSlot (slot : Nat) (s : State) : State :=
  discardOutbound slot
    { s with sec := { s.sec with slots := s.sec.slots.filter fun k => k.num != slot },
             counters := s.counters.filter fun c => c.slot != slot, windows := s.windows.filter fun w => w.slot != slot }

/-- A pending open closed: its handshake ends with ABORT TIMEOUT and its final response is ABANDONED (R457). -/
def closeOpen (slot : Nat) (s : State) : State :=
  let s := match s.sec.handshakes.find? fun h => h.slot == slot with
    | some h => dropHandshake h.id (sendAbort (hsTo h) h.id slot 6 s)
    | none => s
  finalAnswer (fun k => k == .keyslot slot) St.abandoned 0 []
    { s with sec := { s.sec with opens := s.sec.opens.filter fun o => o.num != slot } }

/-- KEYSLOT_CLOSE (R457). -/
def execKeyslotClose (r : Req) (slot : BitVec 16) (s : State) : Host.Outcome State Fault Refusal :=
  let n := slot.toNat
  .next (goust r (icmd 0x0604 8 [] fun s =>
    if n = 0 ∨ 4095 < n then .fail St.keySlot 0
    else if (openOf s n).isSome then .ok (closeOpen n s) []
    else if (keySlot s n).isSome then .ok (wipeSlot n s) []
    else .fail St.keySlot 0) s)

/-- SESSION_REKEY (R456): the new keys stand beside the old ones until a packet verifies under them. -/
def execSessionRekey (r : Req) (material : Bytes) (s : State) : Host.Outcome State Fault Refusal :=
  .next (goust r (pcmd 0x0605 1248 [] fun s =>
    match keySlot s 0 with
    | none => .fail St.keySlot 0
    | some k =>
      let ek := slice material 64 1184
      let ns := randomBytes 32 s
      let priv := randomBytes 32 (drawn s)
      let rnd := randomBytes 32 (drawn (drawn s))
      let ssx := fit 32 (Config.x25519 priv (slice material 32 32))
      if k.next.isSome || !s.sec.trngOk || !Config.mlkemCheck ek || ssx == zeros 32 then .fail St.keySlot 0
      else
        let body := payload [.arr ns, .arr (fit 32 (Config.x25519Public priv)), .arr (fit 1088 (Config.mlkemCipher ek rnd))]
        let prk := hkdfExtract (material.take 32 ++ ns) (fit 32 (Config.mlkemSecret ek rnd) ++ ssx ++ k.rPrev)
        let th := sha384 (material ++ body)
        let k' := { k with next := some (slotKeys prk th false, slotKey prk "KIT v1 rekey" th 48, s.clk.cycle) }
        let s := drawn (drawn (drawn s))
        .accept { s with sec := { s.sec with slots := s.sec.slots.map fun x => if x.num = 0 then k' else x } } .rekey body) s)

/-- REKEY_TIMEOUT: no packet has verified under the new keys within 10 s (R456 step 5). -/
def execRekeyTimeout (s : State) : Host.Outcome State Fault Refusal :=
  match (keySlot s 0).bind (·.next) with
  | none => .next s
  | some n =>
    let s := advanceTo (n.2.2 + 19000000000) s
    .next (finalAnswer (fun k => k == .rekey) St.keySlot 1 []
      { s with sec := { s.sec with slots := s.sec.slots.map fun x => if x.num = 0 then { x with next := none } else x } })

/-- SEC_TRNG_HEALTH: the random number generator fails a health test, or passes it again (R464). -/
def execSecTrngHealth (ok : Bool) (s : State) : Host.Outcome State Fault Refusal :=
  if ok then .next { s with sec := { s.sec with trngOk := true } }
  else if !s.sec.trngOk then .next s
  else .next (emitErr { cls := 7, code := 4, unit := sealUid, pos := 0, count := 0, plan := 0xff, named := false, test := false }
    { s with sec := { s.sec with trngOk := false } })

end Sys2Proof.Machine
end

