-- ==== Sys2Proof/Machine/Power.lean ====
section
/-! DEFINITION. Supplies, start-up, telemetry, the test access port, the power cap and thermal limits (R438 to R440, R486 to R510). -/

namespace Sys2Proof.Machine

/-! ### Power-on -/

/-- What a power-on leaves (Table 16-8): everything at its reset value but the order number, the fuses, what the pins last showed, and
the model's own fields. -/
def blank (s : State) : State :=
  { State.reset with
    variant := s.variant, sent := s.sent, freeCtr := s.freeCtr, pending := s.pending, tlmAck := s.tlmAck, jtagOut := s.jtagOut,
    sec := { State.reset.sec with fuses := s.sec.fuses },
    pwr := { State.reset.pwr with volts := s.pwr.volts } }

/-- MR0 measured: the fuse policy (Table 14-4). -/
def measureFuses (s : State) : State :=
  let f := s.sec.fuses
  extendMr 0 1 (le 1 f.revoke.toNat ++ le 1 (fusedSvn s) ++ le 1 (b2n f.debugDisable) ++ le 8 f.serial.toNat) s

/-- The Seal's draws at power-on: the HBM keys of every die and the debug nonce (R445, R460). -/
def drawSealKeys (s : State) : State :=
  let ks := (List.range 4).map fun i => fit 64 (Config.random 64 (s.freeCtr + i))
  { s with sec := { s.sec with hbmKeys := ks, debugNonce := BitVec.ofNat 64 (ofLe (fit 8 (Config.random 8 (s.freeCtr + 4)))) },
           freeCtr := s.freeCtr + 5 }

/-- The boot ROM starts on the Quill: the fuse policy is measured and the Seal draws its keys (R494). -/
def startRom (s : State) : State :=
  drawSealKeys (measureFuses { s with pwr := { s.pwr with state := .run, pwrGood := true }, boot := { s.boot with stage := 2 } })

/-- POWER_ON: all three supplies are in range and the internal sequence starts (R488). `fresh` says that the supplies had been cycled,
which alone, beside MOD_RESET_N, restarts a module that has shut down (R509). -/
def execPowerOn (fresh : Bool) (s : State) : Host.Outcome State Fault Refusal :=
  let starts : Bool := fresh || s.pwr.state == .standby || (s.boot.stage == 0#4 && s.pwr.state == .run)
  if starts then
    let s := blank s
    .next { s with boot := { s.boot with stage := 1 } }
  else .next s

/-- PWR_GOOD: the internal rails reach regulation, PWR_GOOD is released and the boot ROM starts (R494). -/
def execPwrGood (s : State) : Host.Outcome State Fault Refusal := .next (if s.boot.stage = 1 then startRom s else s)

/-! ### The boot chain (R438 to R440) -/

/-- Header fields of an image (Table 14-3). -/
def imgKeyIndex (h : Bytes) : Nat := byteAt h 5
def imgSvn (h : Bytes) : Nat := leAt h 8 4
def imgDigest (h : Bytes) : Bytes := slice h 24 48

/-- The first check of R439 that a copy fails, as BOOT_FAIL numbers it; 0 where it is accepted. -/
def imageFail (s : State) (c : ImageCopy) (type : Nat) : Nat :=
  let h := c.header
  let f := s.sec.fuses
  if !c.readable then 8
  else if h.length ≠ 2080 ∨ leAt h 0 4 ≠ 0x4d49474b ∨ byteAt h 4 ≠ type then 1
  else if bitAt f.revoke.toNat (imgKeyIndex h) then 2
  else if 3 < imgKeyIndex h ∨ f.vkh[imgKeyIndex h]? ≠ some (sha384 (slice h 96 1984)) then 3
  else if !Config.ed25519Verify (slice h 96 32) h c.edSig then 4
  else if !Config.mldsaVerify (slice h 128 1952) (ascii "KF384-image") h c.mldsaSig then 5
  else if imgSvn h < fusedSvn s then 6
  else if c.bodyDigest ≠ imgDigest h then 7
  else 0

/-- A stage's image chosen (R439): the primary, else the alternate with SEC_BOOT_ALTERNATE; none where both fail, and the Quill halts. -/
def bootStage (type : Nat) (primary alternate : ImageCopy) (s : State) : Option (ImageCopy × Bool) × State :=
  let f1 := imageFail s primary type
  if f1 = 0 then (some (primary, false), s)
  else
    let f2 := imageFail s alternate type
    if f2 = 0 then
      let s := { s with boot := { s.boot with fail := BitVec.ofNat 4 f1 }, sec := { s.sec with alternate := true } }
      (some (alternate, true), emitErr { cls := 7, code := 2, unit := sealUid, pos := 0, count := type, plan := 0xff, named := false,
                                         test := false } s)
    else (none, { s with boot := { s.boot with fail := BitVec.ofNat 4 f2, stage := 6 }, halted := true })

/-- LOADER_ACCEPTED: the boot verifier tries the loader copies; HBM is trained and the loader runs, or the Quill halts (R439). -/
def execLoaderAccepted (primary alternate : ImageCopy) (s : State) : Host.Outcome State Fault Refusal :=
  if s.boot.stage ≠ 2 then .next s
  else match bootStage 1 primary alternate s with
  | (none, s) => .next s
  | (some (c, alt), s) => .next (extendMr 1 0x10 c.header { s with boot := { s.boot with stage := 3, altLoader := alt } })

/-- The fuses blown as a main image's header asks (R440): none after an alternate copy has booted. -/
def commitFuses (h : Bytes) (s : State) : State :=
  if s.sec.alternate then s
  else
    let f := s.sec.fuses
    let svn := if bitAt (byteAt h 6) 0 then BitVec.ofNat 64 (2 ^ min 64 (imgSvn h) - 1) ||| f.minSvn else f.minSvn
    let rev := if bitAt (byteAt h 6) 1 then BitVec.ofNat 4 (2 ^ imgKeyIndex h - 1) ||| f.revoke else f.revoke
    { s with sec := { s.sec with fuses := { f with minSvn := svn, revoke := rev } } }

/-- A PORT_CFG and address that PORT_SET would refuse (R388, Table 12-2). -/
def bringupPortBad (s : State) (p cfg : Nat) (ip : Bytes) : Bool :=
  fld 10 2 cfg != 0 || fld 35 34 cfg != 0 || fld 47 36 cfg == 4095 || (!bitAt cfg 33 && (ip.drop 4).any (· != 0)) || !portExists s p

/-- A bring-up record is valid (R493). -/
def bringupOk (s : State) (b : Bytes) : Bool :=
  b.length == 64 && leAt b 0 4 == 0x5055424b && leAt b 60 4 == crc32c (b.take 60) && slice b 4 4 == zeros 4 && slice b 56 4 == zeros 4 &&
    !bringupPortBad s 0 (leAt b 8 8) (slice b 16 16) && !bringupPortBad s 2 (leAt b 32 8) (slice b 40 16)

/-- The bring-up record applied, or both ports left disabled (R493). -/
def applyBringup (b : Bytes) (s : State) : State :=
  if bringupOk s b then
    let one : Nat → Nat → State → State := fun p o s =>
      let cfg := BitVec.ofNat 64 (leAt b o 8)
      setPort p { port s p with cfg := cfg, live := cfg, ip := slice b (o + 8) 16 } s
    let s := one 2 32 (one 0 8 s)
    { s with boot := { s.boot with bringup := 1 } }
  else { s with boot := { s.boot with bringup := 2 } }

/-- GOUST_READY: the main image is accepted, MR2 measured, fuses committed and the bring-up record applied, or the Quill halts (R439,
R440, R493). -/
def execGoustReady (primary alternate : ImageCopy) (bringup : Bytes) (s : State) : Host.Outcome State Fault Refusal :=
  if s.boot.stage ≠ 3 then .next s
  else match bootStage 2 primary alternate s with
  | (none, s) => .next s
  | (some (c, alt), s) =>
    let h := c.header
    let b : Booted := { major := BitVec.ofNat 16 (leAt h 16 2), minor := BitVec.ofNat 16 (leAt h 18 2),
                        patch := BitVec.ofNat 16 (leAt h 20 2), svn := BitVec.ofNat 32 (imgSvn h),
                        keyIndex := BitVec.ofNat 8 (imgKeyIndex h), commitSvn := bitAt (byteAt h 6) 0,
                        revokeBelow := bitAt (byteAt h 6) 1, alternate := alt }
    let s := extendMr 2 0x20 h { s with boot := { s.boot with stage := 5, altMain := alt }, booted := b }
    .next (applyBringup bringup (commitFuses h s))

/-! ### MOD_RESET_N, Standby, shutdown -/

/-- MOD_RESET_N held low for at least 10 µs: nothing runs and the ports are down; PWR_GOOD stays as it was (R495). -/
def execModResetN (s : State) : Host.Outcome State Fault Refusal :=
  if s.boot.stage = 0 then .next s else .next { s with pwr := { s.pwr with state := .held } }

/-- MOD_RESET_N rises: a power-on that resumes at the boot ROM (R495), or at the sequencing of the rails where they were off (R509). -/
def execModResetRelease (s : State) : Host.Outcome State Fault Refusal :=
  if s.pwr.state ≠ .held then .next s
  else if s.pwr.pwrGood then .next (startRom (blank s))
  else
    let s := blank s
    .next { s with boot := { s.boot with stage := 1 } }

/-- STANDBY: 54 V or 12 V leaves range while 3.3 V stays (R500); the cause of a shutdown stays until power-on (Table 16-3). -/
def execStandby (s : State) : Host.Outcome State Fault Refusal :=
  let b := blank s
  .next { b with pwr := { b.pwr with state := .standby, cause := s.pwr.cause } }

/-- A sensor code of Table 16-9. -/
def sensorOk (c : Nat) : Bool := [1, 2, 3, 0x10, 0x11, 0x12, 0x13, 0x20, 0x21, 0x22, 0x23, 0x30].contains c

/-- SHUTDOWN: a supply trips or a shutdown temperature is reached; power is removed, with no record (R509). -/
def execShutdown (sensor : Byte) (s : State) : Host.Outcome State Fault Refusal :=
  if !sensorOk sensor.toNat || sensor.toNat == 0x30 || s.pwr.state == .shutdown then .next s
  else
    let b := blank s
    .next { b with pwr := { b.pwr with state := .shutdown, cause := BitVec.ofNat 16 sensor.toNat }, boot := { b.boot with stage := 7 } }

/-! ### Sensors and their records (R508, R510) -/

/-- Warning and protection limits of a temperature sensor, in 0.1 °C; the coolant inlet has a warning only. -/
def tempLimits (sensor : Nat) : Option (Int × Option Int) :=
  if 0x10 ≤ sensor ∧ sensor ≤ 0x13 then some (950, some 1050)
  else if 0x20 ≤ sensor ∧ sensor ≤ 0x23 then some (900, some 1000)
  else if sensor = 0x30 then some (450, none)
  else none

/-- The trip limits and the operating range of a supply with a warning band, in mV (Table 16-1, R486). -/
def supplyLimits (code : Nat) : Option (Nat × Nat × Nat × Nat) :=
  match code with
  | 1 => some (44000, 48000, 60000, 63000)
  | 2 => some (10800, 11400, 12600, 13200)
  | _ => none

/-- A supply reading lies in its warning band: outside the operating range and within the trip limits (R486). -/
def inWarningBand (code mv : Nat) : Bool :=
  match supplyLimits code with
  | some (t0, r0, r1, t1) => (t0 ≤ mv && mv < r0) || (r1 < mv && mv ≤ t1)
  | none => false

/-- A power code is in force for a sensor. -/
def codeInForce (s : State) (code sensor : Nat) : Bool := s.pwr.inForce.contains (code, sensor)

/-- A power record, once until its reading has returned to range (R510). -/
def powerRecord (code sensor count : Nat) (s : State) : State :=
  if codeInForce s code sensor then s
  else emitErr { cls := 9, code := code, unit := quillUid, pos := sensor, count := count, plan := 0xff, named := code == 3, test := false }
    { s with pwr := { s.pwr with inForce := s.pwr.inForce ++ [(code, sensor)] } }

/-- The module's records run: powered and not shut down. -/
def powered (s : State) : Bool := s.pwr.state == .run || s.pwr.state == .dormant

/-- SUPPLY_WARNING_BAND: a supply enters its warning band, and PROTECTION is raised (R488). -/
def execSupplyWarningBand (supply : BitVec 2) (mv : BitVec 32) (s : State) : Host.Outcome State Fault Refusal :=
  if powered s && inWarningBand supply.toNat mv.toNat then
    .next (powerRecord 3 supply.toNat mv.toNat { s with pwr := { s.pwr with volts := put supply.toNat mv.toNat s.pwr.volts } })
  else .next s

/-- A temperature reading taken. -/
def setTemp (sensor : Nat) (t : Int) (s : State) : State := { s with pwr := { s.pwr with temps := put sensor t s.pwr.temps } }

/-- Margin work held by a temperature: F stays 0 (R508). -/
def holdMargin (s : State) : State := { s with pwr := { s.pwr with thermHold := true, f := 0 } }

/-- THERMAL_WARN: a die or stack passes its warning temperature, or the coolant inlet 45 °C (R508, Table 16-9). -/
def execThermalWarn (sensor : Byte) (temp : BitVec 16) (s : State) : Host.Outcome State Fault Refusal :=
  let c := sensor.toNat
  match tempLimits c with
  | some (warn, prot) =>
    if powered s && warn < temp.toInt then
      let s := powerRecord 2 c temp.toInt.toNat (setTemp c temp.toInt s)
      .next (if prot.isSome then holdMargin s else s)
    else .next s
  | none => .next s

/-- PROTECTION: a die or stack reaches its protection temperature; a fault under R56, and margin work is held (R508). -/
def execProtection (sensor : Byte) (reading : BitVec 32) (s : State) : Host.Outcome State Fault Refusal :=
  let c := sensor.toNat
  match tempLimits c with
  | some (_, some prot) =>
    if powered s && prot ≤ reading.toInt then .next (holdMargin (powerRecord 3 c reading.toInt.toNat (setTemp c reading.toInt s)))
    else .next s
  | _ => .next s

/-- Every die and stack is 5 °C below its warning limit (R508). -/
def allCool (s : State) : Bool :=
  s.pwr.temps.all fun e => match tempLimits e.1 with
    | some (warn, some _) => e.2 ≤ warn - 50
    | _ => true

/-- READING_RETURNED_TO_RANGE: the codes of a sensor that its reading no longer calls for end (R510). -/
def execReadingReturnedToRange (sensor : Byte) (reading : BitVec 32) (s : State) : Host.Outcome State Fault Refusal :=
  let c := sensor.toNat
  match tempLimits c, supplyLimits c with
  | some (warn, prot), _ =>
    let t := reading.toInt
    let s := setTemp c t s
    let keeps : Nat × Nat → Bool := fun e =>
      !(e.2 == c && ((e.1 == 2 && t ≤ warn) || (e.1 == 3 && prot.any fun p => t < p)))
    let s := { s with pwr := { s.pwr with inForce := s.pwr.inForce.filter keeps } }
    .next (if allCool s then { s with pwr := { s.pwr with thermHold := false } } else s)
  | none, some (_, r0, r1, _) =>
    let mv := reading.toNat
    let s := { s with pwr := { s.pwr with volts := put c mv s.pwr.volts } }
    .next (if r0 ≤ mv ∧ mv ≤ r1 then { s with pwr := { s.pwr with inForce := s.pwr.inForce.filter fun e => e.2 != c } } else s)
  | none, none => .next s

/-! ### The power cap (R504 to R506) -/

/-- POWER_READ's hottest die, in 0.1 °C; 0x8000 while there is no reading (Table 16-3). -/
def hottestDie (s : State) : Int :=
  (s.pwr.temps.filter fun e => 0x10 ≤ e.1 && e.1 ≤ 0x13).foldl (fun m e => max m e.2) (-32768)

/-- The code of a power state (Table 16-3). -/
def powerCode (p : PowerState) : Nat := match p with | .run => 0 | .dormant => 1 | .standby => 2 | .shutdown => 3 | .held => 0

/-- Margin throttled as POWER_READ reports it (R505). -/
def throttled (f : Nat) : Nat := min 255 (256 - f)

/-- POWER_READ (R505). -/
def execPowerRead (r : Req) (s : State) : Host.Outcome State Fault Refusal :=
  .next (goust r (icmd 0x0801 0 [] fun s =>
    .ok s (payload [.num 4 s.pwr.moduleMw.toNat, .num 4 s.pwr.hbmMw.toNat, .num 4 s.pwr.computeMw.toNat, .num 4 s.pwr.cap.toNat,
      .num 2 (ofInt 16 (hottestDie s)), .num 1 (powerCode s.pwr.state), .num 1 (throttled s.pwr.f)])) s)

/-- POWER_CAP_SET (R504). -/
def execPowerCapSet (r : Req) (cap : BitVec 32) (s : State) : Host.Outcome State Fault Refusal :=
  .next (goust r (icmd 0x0802 8 [] fun s =>
    if 1000000 ≤ cap.toNat ∧ cap.toNat ≤ 2400000 then .ok { s with pwr := { s.pwr with cap := cap } } [] else .fail St.capRange 0) s)

/-- One step of a fraction (R505): down 16 above the cap, up 4 below 97 % of it. -/
def stepFraction (f mw cap : Nat) : Nat := if cap < mw then f - 16 else if 100 * mw < 97 * cap then min 256 (f + 4) else f

/-- The fractions after a comparison: the second starts to fall only once F is 0, and a temperature holds F at 0 (R505, R508). -/
def compareStep (p : Power) (mw : Nat) (now : Nat) : Power :=
  let cap := p.cap.toNat
  let f := if p.thermHold then 0 else stepFraction p.f mw cap
  let f2 := if cap < mw then (if p.f = 0 then p.f2 - 16 else p.f2) else stepFraction p.f2 mw cap
  let above := if f = 0 ∧ f2 = 0 ∧ cap < mw then some (p.overSince.getD now) else none
  let under := if mw < cap then some (p.underSince.getD now) else none
  { p with f := f, f2 := f2, overSince := above, underSince := under,
           unheld := p.unheld && !under.any fun t => t + 19000000 ≤ now }

/-- POWER_COMPARISON: the controller compares the module's power with the cap, every 100 µs (R504, R505). -/
def execPowerComparison (m h c : BitVec 32) (s : State) : Host.Outcome State Fault Refusal :=
  if !powered s then .next s
  else
    let s := advanceTo ((s.clk.cycle / 190000 + 1) * 190000) s
    .next { s with pwr := compareStep { s.pwr with moduleMw := m, hbmMw := h, computeMw := c } m.toNat s.clk.cycle }

/-- CAP_UNHELD: power has stayed above the cap for 10 ms with both fractions at 0; raised once (R506). -/
def execCapUnheld (s : State) : Host.Outcome State Fault Refusal :=
  match s.pwr.overSince with
  | none => .next s
  | some t =>
    if s.pwr.unheld || !powered s then .next s
    else
      let s := advanceTo (t + 19000000) s
      .next (emitErr { cls := 9, code := 1, unit := quillUid, pos := 0, count := (s.pwr.moduleMw.toNat - s.pwr.cap.toNat) / 1000, plan := 0xff,
                       named := false, test := false } { s with pwr := { s.pwr with unheld := true } })

/-! ### Telemetry and the test access port (R490, R491) -/

/-- TLM_ALERT (Table 16-3). -/
def tlmAlert (s : State) : Nat :=
  pack [(1, b2n (s.pwr.inForce.any fun e => e.1 == 3 && e.2 ≤ 3)), (1, b2n (s.pwr.inForce.any fun e => e.1 == 2)),
    (1, b2n (s.pwr.inForce.any fun e => e.1 == 3)), (1, b2n s.pwr.unheld)]

/-- TLM_BOOT_STATUS (Table 16-4). -/
def tlmBootStatus (s : State) : Nat :=
  pack [(3, 0), (1, b2n s.boot.debug), (4, s.boot.fail.toNat), (2, s.boot.bringup.toNat), (1, b2n s.boot.altMain),
    (1, b2n s.boot.altLoader), (4, s.boot.stage.toNat)]

/-- A temperature register: 0x8000 while there is no reading. -/
def tlmTemp (s : State) (sensor : Nat) : Nat := match look sensor s.pwr.temps with | some t => ofInt 16 t | none => 0x8000

/-- A telemetry register (Table 16-3); the voltages and coolant temperatures without a reading have no stated value. -/
def telemetry (s : State) (a : Nat) : Nat :=
  let volt : Nat → Nat := fun c => match look c s.pwr.volts with | some v => v / 10 % 65536 | none => freeNumber 16 s
  if a = 0 then 0x4b46
  else if a = 1 then tlmBootStatus s
  else if a = 2 then powerCode s.pwr.state + 4 * b2n s.pwr.pwrGood
  else if a = 3 then s.pwr.cause.toNat
  else if a = 4 then tlmAlert s
  else if 0x10 ≤ a ∧ a ≤ 0x12 then volt (a - 0x0f)
  else if a = 0x13 then s.pwr.moduleMw.toNat / 1000
  else if 0x20 ≤ a ∧ a ≤ 0x23 then tlmTemp s (a - 0x10)
  else if 0x24 ≤ a ∧ a ≤ 0x27 then tlmTemp s (a - 4)
  else if a = 0x28 then (match look 0x30 s.pwr.temps with | some t => ofInt 16 t | none => freeNumber 16 s)
  else if a = 0x29 then freeNumber 16 s
  else if 0x30 ≤ a ∧ a ≤ 0x33 then fld (16 * (a - 0x30) + 15) (16 * (a - 0x30)) s.sec.fuses.serial.toNat
  else 0

/-- TELEMETRY_WRITE: the address byte is taken, every data byte after it is not acknowledged, and nothing changes (R490). -/
def execTelemetryWrite (_address : Byte) (data : List Byte) (s : State) : Host.Outcome State Fault Refusal :=
  .next { s with tlmAck := data.isEmpty }

/-- IDCODE: the test access port answers 0x0384_6A3F (R491). -/
def execIdcode (s : State) : Host.Outcome State Fault Refusal := .next { s with jtagOut := 0x03846a3f#32 }

/-- BYPASS: the one-bit register shifts (R491). -/
def execBypass (bit : Bool) (s : State) : Host.Outcome State Fault Refusal :=
  .next { s with jtagOut := BitVec.ofNat 32 (b2n s.jtagBypass), jtagBypass := bit }

/-- QUILL_LOCKSTEP: the Quill's processors disagree; the Quill halts and mailboxes stop (Table 15-4). -/
def execQuillLockstep (s : State) : Host.Outcome State Fault Refusal :=
  if s.halted then .next s
  else .next (emitErr { cls := 10, code := 4, unit := quillUid, pos := 0, count := 0, plan := 0xff, named := false, test := false }
    { s with halted := true })

end Sys2Proof.Machine
end

