-- ==== Sys2Proof/Machine/Compress.lean ====
section
/-! DEFINITION. The compressor of a write stream: frames, the verifier, stored blocks, flush and close (R138 to R140). -/

namespace Sys2Proof.Machine

/-- The largest block the compressor makes. -/
def compBlock : Nat := 65536

/-- The header of a frame the compressor writes (R138): 64 KiB window, content checksum, no declared size. -/
def frameStart (codec : Nat) : Bytes :=
  match codec with
  | 1 => le 4 0xfd2fb528 ++ [0x04, 0x30]
  | 2 => le 4 0x184d2204 ++ [0x64, 0x40] ++ [BitVec.ofNat 8 (xxh32 0 [0x64, 0x40] / 256)]
  | _ => [0x1f, 0x8b, 8, 0, 0, 0, 0, 0, 0, 0xff]

/-- Bits appended to a frame: the whole bytes they make up, the rest kept. -/
def appendBits (c : Compressor) (more : List Bool) : Compressor :=
  let b := c.bits ++ more
  let n := b.length / 8 * 8
  { c with frame := c.frame ++ bitmap (b.take n), bits := b.drop n }

/-- Bits up to the next byte boundary. -/
def padBits (c : Compressor) (more : List Bool) : Compressor :=
  let n := (c.bits ++ more).length
  appendBits c (more ++ List.replicate (alignUp n 8 - n) false)

/-- An input as stored blocks (R139). -/
def storedBlocks (codec : Nat) (inp : Bytes) (c : Compressor) : Compressor :=
  match codec with
  | 1 => { c with frame := c.frame ++ le 3 (8 * inp.length) ++ inp }
  | 2 => { c with frame := c.frame ++ le 4 (inp.length + 2 ^ 31) ++ inp }
  | _ => (pieces 65535 inp).foldl (fun c p =>
      let c := padBits c [false, false, false]
      { c with frame := c.frame ++ le 2 p.length ++ le 2 (65535 - p.length) ++ p }) c

/-- The bits of a DEFLATE block as the command carries it: those below the highest bit set of its last byte. -/
def blockBits (b : Bytes) : List Bool := ((bitsOf b).reverse.dropWhile fun x => !x).drop 1 |>.reverse

/-- A produced block put into the frame, where the verifier's decode of it matches the input (R139). -/
def verifyBlock (codec : Nat) (inp block : Bytes) (c : Compressor) : Option Compressor :=
  let want := c.total ++ inp
  match codec with
  | 1 =>
    let w := leAt block 0 3
    let frame := c.frame ++ block
    let ok := w % 2 == 0 && block.length == 3 + (if w / 2 % 4 = 1 then 1 else w / 8)
    match zHead frame with
    | .error _ => none
    | .ok h =>
      match zBlocks h (2 ^ 63) (frame.length + 1) { huff := none, ll := none, off := none, ml := none, reps := (1, 4, 8) } (frame.drop h.size ++ [1, 0, 0]) #[] with
      | .ok (_, out) => if ok && out.toList == want then some { c with frame := frame } else none
      | .error _ => none
  | 2 =>
    let w := leAt block 0 4
    let ok := w != 0 && block.length == 4 + w % 2 ^ 31
    match lz4Head c.frame with
    | .error _ => none
    | .ok h =>
      match lz4Blocks h (2 ^ 63) 2 (block ++ zeros 4) #[] with
      | .ok (_, out) => if ok && out.toList == inp then some { c with frame := c.frame ++ block } else none
      | .error _ => none
  | _ =>
    let bits := blockBits block
    let all := bitsOf (c.frame.drop 10) ++ c.bits ++ bits ++ [true, true, false] ++ List.replicate 7 false
    match inflateBlocks (2 ^ 63) (all.length + 1) all #[] with
    | .ok (rest, out) => if bits.head? == some false && rest.isEmpty && out.toList == want then some (appendBits c bits) else none
    | .error _ => none

/-- A flush (R140): in gzip an empty stored block that brings the output to a byte boundary. -/
def flushFrame (codec : Nat) (c : Compressor) : Compressor :=
  if codec = 3 then
    let c := padBits c [false, false, false]
    { c with frame := c.frame ++ [0, 0, 0xff, 0xff] }
  else c

/-- The end of a frame: its last block, empty after a flush, and its trailer. -/
def closeFrame (codec : Nat) (c : Compressor) : Compressor :=
  match codec with
  | 1 => { c with frame := c.frame ++ [1, 0, 0] ++ le 4 (xxh64 0 c.total) }
  | 2 => { c with frame := c.frame ++ zeros 4 ++ le 4 (xxh32 0 c.total) }
  | _ =>
    let c := padBits c [true, false, false]
    { c with frame := c.frame ++ [0, 0, 0xff, 0xff] ++ le 4 (crc32 c.total) ++ le 4 c.total.length }

/-- A compressor with nothing in it. -/
def Compressor.empty : Compressor := ⟨[], [], [], [], 0, []⟩

end Sys2Proof.Machine
end

