-- ==== Sys2Proof/Machine/Feed.lean ====
section
/-! DEFINITION. What streams give and take: the Feed stages and the drains of write streams (R302 to R304, R318, R332, R138 to R140). -/

namespace Sys2Proof.Machine

/-- The stream a Feed stage names. -/
def feedStream (c : StageCtx) : Nat × Nat := (c.slot, c.st.param)

/-! ### FEED_READ (R302, R318, R327) -/

/-- The layouts of which a stream is the sample source. -/
def sourceLayouts (p : Plan) (stream : Nat) : List (Nat × Layout) := (planLayouts p).filter fun l => l.2.src == stream

/-- A group's epoch, sample index and counter set by the sample source (R327). -/
def groupSample (s : State) (k : Nat × Nat) (p : Plan) (n : Nat) (g : Group) : Group :=
  match sourceLayouts p k.2 with
  | [] => g
  | (i, l) :: _ => match nibSample l (batchOf s (k.1, i)) n with
    | none => g
    | some c => { g with sampled := true, epoch := c / max 1 l.samples, sample := c % max 1 l.samples, counter := c, layout := i }

/-- A sample source has delivered the last record of its last epoch (R328). -/
def epochsOver (s : State) (k : Nat × Nat) (p : Plan) : Bool :=
  (sourceLayouts p k.2).any fun l => l.2.epochs != 0 && decide (l.2.epochs * l.2.samples ≤ (batchOf s (k.1, l.1)).counter)

/-- A group of records taken from an ingest stream. -/
def feedIngest (c : StageCtx) (k : Nat × Nat) (x : Stream) (s : State) : Option StageOut :=
  let p := c.plan
  let media := streamMedia (some p) x.desc
  let want := if c.lig.maxRows = 0 then x.ingest.avail else min c.lig.maxRows x.ingest.avail
  let n := (sourceLayouts p k.2).foldl (fun n l => recordsLeft l.2 (batchOf s (k.1, l.1)) n) want
  if n = 0 then
    if x.state = .aborted then
      let g := { c.grp with rows := 0, recs := [], valid := [], cols := [] }
      some ⟨g, [], if x.closed then s else streamBlot k { x with closed := true } 0x70 0 x.nextTile (tileCount x.desc - (x.nextTile - x.walkBase)) (setStream k { x with closed := true } s)⟩
    else none
  else if !itemsReady media n x.ingest || x.state == .cancelled then none
  else
    let r := takeIngest p (sampleOf s k x c.grp) (walkCtx s (some p) x.desc) media n x.ingest
    let g := groupSample s k p n { c.grp with rows := n, source := k.2, recs := r.1, valid := r.2.1, cols := r.2.2.1, fields := [] }
    let s := setStream k { x with ingest := r.2.2.2 } s
    let s := (sourceLayouts p k.2).foldl (fun s l => let b := batchOf s (k.1, l.1)
      setBatch (k.1, l.1) (noteEpoch l.2 s.clk.edge s.clk.cycle b (countRecords l.2 (nowTick s) n b)) s) s
    let s := if epochsOver s k p then
        match stream? s k with
        | some x => setStream k { x with state := .done } s
        | none => s
      else settleIngest k s
    some ⟨g, r.2.2.1.flatMap columnBytes, s⟩

/-- A group of bytes taken from the slot at the ring's tail. -/
def feedCopy (c : StageCtx) (k : Nat × Nat) (x : Stream) (s : State) : Option StageOut :=
  let i := x.tail
  let sl := x.slot i
  let p := some c.plan
  match sl.state with
  | .free =>
    if x.state = .aborted then
      let g := { c.grp with rows := 0, recs := [], valid := [], cols := [] }
      let never := tileCount x.desc - (x.nextTile - x.walkBase)
      some ⟨g, [], if x.closed then s else streamBlot k x 0x70 0 x.nextTile never (setStream k { x with closed := true } s)⟩
    else none
  | .filling => none
  | .draining => none
  | _ =>
    let cut := sl.state == .truncated && x.state == .aborted
    let all := if cut then tileBytes x.desc else sl.bytes
    let len := if c.st.outLen = 0 then all - x.tailOff else min c.st.outLen (all - x.tailOff)
    let off := x.tailOff
    let short := decide (sl.bytes < off + len)
    let bad := short || sl.badRanges.any fun r => decide (r.1 < off + len) && decide (off < r.1 + r.2)
    let have_ := sl.bytes - off
    let out := rangeOut s (slotDva p x.desc i + off) (min len have_)
    let bytes := readHeld s (slotDva p x.desc i + off) (min len have_) ++ zeros (len - have_)
    let g := { c.grp with source := k.2 }
    let s := if off = 0 then slotReport k x i sl.bytes 0x71 s else s
    let s := if short && (off = 0 || decide (off ≤ sl.bytes)) then
        streamBlot k x 0x70 off (sl.tile - 1) (ceilDiv (all - off) (max 1 len)) s
      else s
    let x := if off + len < all then { x with tailOff := off + len } else freeSlot x i
    some ⟨if bad || out then blotGroup g else g, bytes, setStream k x s⟩

/-- A Feed read side takes its next group. -/
def feedRead (c : StageCtx) (s : State) : Option StageOut :=
  let k := feedStream c
  match stream? s k with
  | none => none
  | some x =>
    if x.desc.write then none
    else match x.desc.kind with
      | 0 => feedCopy c k x s
      | 1 => feedIngest c k x s
      | _ => none

/-- FEED_READ (R302). -/
def execFeedRead (r : StageRef) (s : State) : Host.Outcome State Fault Refusal := .next (stage r 6 0 0 feedRead s)

/-! ### FEED_WRITE (R303, R332) -/

/-- The slice packet of a group (R332): the rows as the stage before laid them out. -/
def slicePacket (c : StageCtx) (s : State) : Bytes :=
  let inp := c.inputBytes s
  let rows := c.grp.rows
  let blob := c.plan.image.blob
  let (off, stride) : Nat × Nat := match c.k, c.lig.stages[c.k - 1]? with
    | 0, _ => (0, inp.length / max 1 rows)
    | _, some p => if p.engine = 2 && p.op == 1 then (64, (shapeAt blob p.param).stride) else if p.engine = 5 then (0, (matrixAt blob p.param).outStride)
        else (0, inp.length / max 1 rows)
    | _, none => (0, 0)
  padTo 8 (le 8 c.grp.counter ++ le 3 stride ++ le 2 rows ++ zeros 3 ++ fit (rows * stride) (inp.drop off)) ++ rowBitmap c.grp.valid

/-- A group's bytes put in the head slot of the write stream, which becomes READY; a head slot that is not FREE holds the stage back. -/
def feedWrite (c : StageCtx) (s : State) : Option StageOut :=
  let k := feedStream c
  match stream? s k with
  | none => none
  | some x =>
    let p := some c.plan
    let x := restartMargin p x
    let n := x.desc.ring + 1
    let i := x.nextTile % n
    if !x.desc.write || x.state != .running || x.slot i != Slot.free || !tilesLeft p x then none
    else
      let bytes := if x.desc.param = 0xffffffff then c.inputBytes s else slicePacket c s
      let len := if (walkQueue p x.desc).isSome then min bytes.length x.desc.d0 else bytes.length
      let len := min len x.desc.slotBytes
      let s := slotReport k x i len 0x72 (writeHeld s (slotDva p x.desc i) (bytes.take len))
      let x := { (x.slotMod i fun _ => ⟨.ready, len, x.nextTile + 1, 0, 0, []⟩) with nextTile := x.nextTile + 1, head := (i + 1) % n }
      some ⟨c.grp, [], slotSignal k x (setStream k x s)⟩

/-- FEED_WRITE (R303). -/
def execFeedWrite (r : StageRef) (s : State) : Host.Outcome State Fault Refusal := .next (stage r 6 1 0 feedWrite s)

/-! ### Drains (R303, R304) -/

/-- A write slot drained: FREE, its tile counted, and the stream DONE where it was the last of a walk that does not begin again. -/
def drained (x : Stream) (i : Nat) : Stream :=
  { (x.slotMod i fun _ => Slot.free).tileDone with tail := (i + 1) % (x.desc.ring + 1), taken := x.taken + 1 }.settleWrite

/-- The last tile of a stream's walk. -/
def lastTile (p : Option Plan) (x : Stream) (tile : Nat) : Bool :=
  if (walkQueue p x.desc).isSome then x.desc.n1 != 0 && tile - x.walkBase == x.desc.n1 - 1 else tile - x.walkBase == tileCount x.desc - 1

/-- The first place of `n` bytes of a walk from byte `from'` on that lies on an ABSENT page. -/
def absentWrite (s : State) (base : Nat) (d : StreamDesc) (from' n : Nat) : Option (Nat × Nat) :=
  (List.range n).findSome? fun i =>
    let a := walkDva base d 0 (from' + i)
    match access s a 1 with
    | .absent _ => some (from' + i, a)
    | _ => none

/-- A write of a walk from byte `from'` on passes what the stream may write (R293). -/
def walkOut (s : State) (x : Stream) (base from' n : Nat) : Bool :=
  (List.range (min n (tileCount x.desc * tileBytes x.desc - from'))).any fun i => access s (walkDva base x.desc 0 (from' + i)) 1 == .out

/-- Compressed bytes written to the destination from byte `from'` of its walk on; what passes the walk's end is not written, nor what is
out of range. -/
def writeWalk (x : Stream) (base from' : Nat) (bs : Bytes) (s : State) : State :=
  let bs := bs.take (tileCount x.desc * tileBytes x.desc - from')
  ((List.range bs.length).zip bs).foldl (fun s e =>
    let a := walkDva base x.desc 0 (from' + e.1)
    if access s a 1 = .ok then writeFree s a [e.2] else s) s

/-- A stream halted before a write to an ABSENT page (R316): the indices of the position (i3, i2, i1, i0) and the slot's bytes issued before
it. -/
def haltWrite (k : Nat × Nat) (x : Stream) (w : Nat × Nat × Nat × Nat) (issued dva : Nat) (s : State) : State :=
  let f : FaultRec := ⟨dva, w.1, w.2.1, w.2.2.1, w.2.2.2, issued, (x.slot x.tail).tile - 1, x.tail, 2⟩
  let s := refreshFaulted (dva / pageBytes) (setStream k { x with state := .halted, fault := some f } s)
  emitErr { cls := 3, code := 1, unit := x.unit, pos := dva, count := 0, plan := k.1, named := false, test := false } s

/-- A drained packet offered to its queue (R293, R304, R362): none while it waits for room; a queue the stream may not reach stores nothing. -/
def packetOut (k : Nat × Nat) (x : Stream) (q : Nat) (bs : Bytes) (s : State) : Option State :=
  if !queueHeld s q then some (streamBlot k x 0x72 0 ((x.slot x.tail).tile - 1) 1 s)
  else match queue? s q with
  | none => none
  | some y => if y.limit < cellsFor bs.length || queueRoom s q bs.length then some (commitPacket q x.unit 0 bs s) else none

/-- The slot at the tail drained with its packet, or the stream waiting for room (R303, R378). -/
def drainPacket (k : Nat × Nat) (x : Stream) (q : Nat) (bs : Bytes) (s : State) : State :=
  match packetOut k x q bs s with
  | some s => setStream k (drained x x.tail) s
  | none => queueWait q ⟨x.unit, bs.length + 1, 0, .stream k.1 k.2⟩ (setStream k x s)

/-- The compressed output of a stream not yet written moved on, to its walk up to the first ABSENT page, or to the packet of its queue; the
slot at the tail counts what it gave. -/
def releaseOutput (k : Nat × Nat) (x : Stream) (s : State) : State :=
  let new := x.comp.frame.drop x.comp.written
  match walkQueue (streamPlan s k) x.desc, walkBaseDva (streamPlan s k) x.desc with
  | some _, _ => setStream k { x with comp := { x.comp with written := x.comp.frame.length, packet := x.comp.packet ++ new } } s
  | none, some base =>
    let stop := if x.ruled then none else
      absentWrite s base x.desc x.comp.written (min new.length (tileCount x.desc * tileBytes x.desc - x.comp.written))
    let n := (stop.map fun e => e.1 - x.comp.written).getD new.length
    let out := walkOut s x base x.comp.written n
    let first := out && (x.slot x.tail).badRanges.isEmpty
    let y := x.slotMod x.tail fun sl =>
      { sl with issued := sl.issued + n, badRanges := if first then [(x.comp.written, n)] else sl.badRanges }
    let y := { y with comp := { x.comp with written := x.comp.written + n } }
    let s := setStream k y (writeWalk x base x.comp.written (new.take n) s)
    let s := if first then streamBlot k y 0x72 x.comp.written ((y.slot y.tail).tile - 1) 1 s else s
    match stop with
    | some (o, a) => haltWrite k y (walkIndex y.desc 0 o) (y.slot y.tail).issued a s
    | none => s
  | none, none => setStream k { x with comp := { x.comp with written := x.comp.frame.length } } s

/-- The compressed slot at the tail goes on, once all its input is in blocks: its output is released, and it is FREE once that has gone where
it is to go. -/
def moveOutput (k : Nat × Nat) (x : Stream) (s : State) : State :=
  let s := releaseOutput k x s
  match stream? s k with
  | none => s
  | some x =>
    let p := streamPlan s k
    let last := lastTile p x ((x.slot x.tail).tile - 1)
    let y := { x with comp := if last then Compressor.empty else { x.comp with packet := [] } }
    if x.state != .running || x.comp.written != x.comp.frame.length then s
    else match (if x.comp.packet.isEmpty then none else walkQueue p x.desc) with
    | none => setStream k (drained y y.tail) s
    | some q => match packetOut k x q x.comp.packet s with
      | some s => setStream k (drained y y.tail) s
      | none => queueWait q ⟨x.unit, x.comp.packet.length + 1, 0, .stream k.1 k.2⟩ s

/-- The slot in the compressor ended: a flush, and the frame's end after the last tile (R140). -/
def endSlot (k : Nat × Nat) (codec : Nat) (x : Stream) (s : State) : State :=
  let last := lastTile (streamPlan s k) x ((x.slot x.tail).tile - 1)
  let c := if (x.slot x.tail).bytes = 0 then x.comp else flushFrame codec x.comp
  moveOutput k { x with comp := if last then closeFrame codec c else c } s

/-- The rows of a slice packet in the slot at the tail put into their layout (R332 to R335); a held row of a ruled stream whose buffer is not
released raises BATCH_BUFFER_BUSY once. -/
def drainSlice (k : Nat × Nat) (p : Plan) (x : Stream) (i : Nat) (s : State) : State :=
  let li := x.desc.param % 65536
  match (p.image.layouts[li]?).map layoutAt with
  | none => s
  | some l =>
    match sideBase (some p) l.dstKind l.dstAbs 0 with
    | none => s
    | some base =>
      let r : RowDrain := ⟨(k.1, li), k, base, batchUnit p k.2, x.ruled, l, slicesOf p.image.blob l, x.desc.param / 65536⟩
      let sl := x.slot i
      let s := if sl.state = .ready then slotReport k x i sl.bytes 0x71 s else s
      let pkt := readHeld s (slotDva (some p) x.desc i) sl.bytes
      let rows := leAt pkt 11 2
      let o := placeSliceRows r pkt (rows - sl.issued) sl.issued s
      let len := (r.slices[r.slice]?).elim 0 (·.padLen)
      if let some (a, off) := o.2.2.2 then
        haltWrite k (x.slotMod i fun sl => { sl with state := .draining, issued := o.1 }) (0, 0, o.1, off) (o.1 * len + off) a o.2.1
      else if o.2.2.1 then
        let g := (l.place (leAt pkt 0 8 + o.1)).1
        let busy := x.ruled && sl.committed != o.1 + 1 && bufferTaken r.key l g o.2.1
        let s := if busy then batchErr r.key r.unit 12 g 0 o.2.1 else o.2.1
        setStream k (x.slotMod i fun sl => { sl with state := .draining, issued := o.1, committed := if busy then o.1 + 1 else sl.committed }) s
      else setStream k (drained x i) o.2.1

/-- The next slot of a write stream drained: to its layout, its compressor, its queue, or in transfers to its walk. -/
def slotDrain (k : Nat × Nat) (x : Stream) (s : State) : State :=
  let i := x.tail
  let sl := x.slot i
  let p := streamPlan s k
  let bytes := fun (_ : Unit) => readHeld s (slotDva p x.desc i) sl.bytes
  match (if x.desc.param = 0xffffffff then none else p) with
  | some pl => drainSlice k pl x i s
  | none =>
    if sl.state != .ready then (if x.desc.codec = 0 then s else moveOutput k x s)
    else if x.desc.codec ≠ 0 then
      let c := if x.comp.frame.isEmpty then { x.comp with frame := frameStart x.desc.codec } else x.comp
      let s := slotReport k x i sl.bytes 0x71 s
      let x := { (x.slotMod i fun sl => { sl with state := .draining }) with comp := { c with input := bytes () } }
      if sl.bytes = 0 then endSlot k x.desc.codec x s else setStream k x s
    else match walkQueue p x.desc with
      | some q => drainPacket k x q (bytes ()) (slotReport k x i sl.bytes 0x71 s)
      | none =>
        if sl.bytes = 0 then setStream k (drained x i) s
        else setStream k (x.slotMod i fun sl => { sl with state := .draining }) s

/-- SLOT_DRAIN (R303, R304): in order, and only while the slot at the tail is READY, or what it holds back can go on: rows of a slice packet,
the output of a compressed slot. Of a host stream the host fills a slot first where none is READY (assumption log 118). -/
def execSlotDrain (r : StreamRef) (s : State) : Host.Outcome State Fault Refusal :=
  let k := refKey r
  match stream? s k with
  | none => .next s
  | some x =>
    let x := if k.1 = 255 && x.desc.write && x.state == .running && (x.slot x.tail).state == .free then
        hostFill none (restartMargin none x)
      else x
    let sl := x.slot x.tail
    let held := sl.state == .draining && (x.desc.param != 0xffffffff || (x.desc.codec != 0 && x.comp.input.isEmpty))
    if !x.desc.write || x.state != .running || !(sl.state == .ready || held) || !mayTransfer s k x then .next s
    else .next (shareEnd k (slotDrain k x s))

/-! ### BLOCK_VERIFY (R139) -/

/-- The record of a block that does not leave the compressor as it was produced (R139, Table 4-17). -/
def blockErr (unit : BitVec 16) (code : Nat) (k : Nat × Nat) (ruled : Bool) (s : State) : State :=
  emitErr { cls := 4, code := code, unit := unit, pos := 0, count := 0, plan := k.1, named := ruled, test := true } (drawn s)

/-- BLOCK_VERIFY: the compressor decodes the block it produced and releases it where it matches; else the same input goes out stored and
CMP_VERIFY is raised. `historyLost` tells that the history store reported an uncorrectable word during the decode. -/
def execBlockVerify (r : StreamRef) (block : Bytes) (historyLost : Bool) (s : State) : Host.Outcome State Fault Refusal :=
  let k := refKey r
  match stream? s k with
  | none => .next s
  | some x =>
    let codec := x.desc.codec
    if codec = 0 || x.comp.input.isEmpty || x.state != .running || !mayTransfer s k x then .next s
    else
      let inp := x.comp.input.take compBlock
      let good := if historyLost then none else verifyBlock codec inp block x.comp
      let c := good.getD (storedBlocks codec inp x.comp)
      let unit := engineOf (streamPlan s k) x s
      let s := if historyLost then blockErr unit 2 k x.ruled s else if good.isNone then blockErr unit 1 k x.ruled s else s
      let c := { c with total := c.total ++ inp, input := c.input.drop compBlock }
      let x := { x with comp := c }
      .next (if c.input.isEmpty then shareEnd k (endSlot k codec x s) else releaseOutput k x s)

end Sys2Proof.Machine
end

