-- ==== Sys2Proof/Machine/FitCheck.lean ====
section
/-! DEFINITION. The fit check of R70 and R71 with the restrictions of R54, R308 and R312. -/

namespace Sys2Proof.Machine

/-! ### Exact rates -/

/-- A rate in bytes per cycle: a quotient with a positive divisor. -/
abbrev Rate := Nat × Nat

/-- The sum of two rates. -/
def rateAdd (a b : Rate) : Rate := if a.2 = b.2 then (a.1 + b.1, a.2) else (a.1 * b.2 + b.1 * a.2, a.2 * b.2)

/-- a < b. -/
def rateLt (a b : Rate) : Bool := decide (a.1 * b.2 < b.1 * a.2)

/-- What a rate has above a charge rate, in sixteenths of a byte per cycle, rounded up. -/
def rateOver (r : Rate) (sixteenths : Nat) : Nat := ceilDiv (r.1 * 16) r.2 - sixteenths

/-! ### Bandwidth units (Table 2-4, R98) -/

/-- A bandwidth unit: a kind code of its own (1 pad, 2 store, 4 Reservoir, 5 controller, 10 port, 13 link), its direction where it has two (0 out
of a pad, 1 into it; RQ_SUBKIND of a port) and its unit id; a link's is that of the end that sends. -/
structure BwUnit where
  (kind dir : Nat)
  (unit : BitVec 16)
  deriving DecidableEq, Repr

/-- The ruled charge rate of a unit in sixteenths of a byte per cycle; an excluded link carries nothing (R32). -/
def chargeRate (s : State) (u : BwUnit) (port : Nat) : Nat :=
  match u.kind with
  | 1 => 16 * 256 | 2 => 16 * 768 | 4 => 16 * 3072 | 5 => 16 * 768 | 13 => if isExcluded s u.unit then 0 else 16 * 1536 | _ => portCharge s port

/-- A transfer charged on a unit: its interval and its bytes. -/
structure Charge where
  (bw : BwUnit)
  (port start stop bytes : Nat)
  deriving DecidableEq, Repr

/-- The controllers that hold the pages of some HBM regions, each with its number of pages; all four of the die where no page is present
(R30). -/
def regionPages (s : State) (die : Nat) (bs : List Bound) : List (BitVec 16 × Nat) :=
  let at1 : Nat → Nat := fun c => total (bs.map fun b => pagesOn s b c)
  let held := ((List.range 4).map fun c => (uid die 12 1 c 0, at1 c)).filter fun e => e.2 != 0
  if held.isEmpty then (List.range 4).map fun c => (uid die 12 1 c 0, 1) else held

/-- Bytes spread over the controllers of some HBM regions in proportion to their pages. -/
def spread (s : State) (die : Nat) (bs : List Bound) (bytes : Nat) : List (BwUnit × Nat) :=
  let ps := regionPages s die bs
  ps.map fun e => (⟨5, 0, e.1⟩, ceilDiv (bytes * e.2) (total (ps.map (·.2))))

/-- The bandwidth units that bytes moved at a bound resource charge, in the directions given (0 out of it, 1 into it); kinds without a row in
Table 2-4 charge none. -/
def bwOf (s : State) (dirs : List Nat) (b : Bound) (bytes : Nat) : List (BwUnit × Nat) :=
  match b.kind with
  | 1 => dirs.map fun d => (⟨1, d, padUid b.index⟩, bytes)
  | 2 => [(⟨2, 0, clusterUid b.index 10⟩, bytes)]
  | 6 => [(⟨2, 0, uid (b.index / 16384) (b.index / 1024 % 16) 0 7 10⟩, bytes)]
  | 4 => [(⟨4, 0, uid b.index 12 0 0 0⟩, bytes)]
  | 5 => spread s b.index [b] bytes
  | 0xa => [(⟨10, b.subkind, portUid b.index 1⟩, bytes)]
  | _ => []

/-- The links that data cross between a task's die and a resource's, in the directions given (0 from the resource, 1 to it). -/
def linksIn (s : State) (dirs : List Nat) (die other : Nat) : List BwUnit :=
  dirs.flatMap fun d => (if d = 0 then linksOf s other die else linksOf s die other).map fun l => ⟨13, 0, l⟩

/-- The bound resources that a stage reads (true) and writes (false): a Feed's ring with its core's pad the other way, the table of a Gather
stage and its Reservoir part. -/
def stageMoves (p : Plan) (core : Nat) (st : Stage) (reads : Bool) : List Bound :=
  if st.engine = 6 then
    let ring := match p.image.streams[st.param]? with
      | some d => (sideBound p (slotSide d).1 (slotSide d).2).toList
      | none => []
    if (st.side == 0) == reads then ring else (boundOf p 1 core).toList
  else if st.engine = 4 then
    let g := gatherAt p.image.blob st.param
    if (st.op != 4) == reads then
      (sideBound p 0xf g.table).toList ++ ((refOf p g.table).toList.flatMap fun r => p.bound.filter fun b => b.kind == 4 && b.absId == (tableDesc p r).resPart)
    else []
  else []

/-- The bound resources that a ruled task is known to read (true) or write (false). -/
def taskMoves (p : Plan) (t : Cert) (reads : Bool) : List Bound :=
  if t.kind = 1 then (ligOf p t.index).toList.flatMap fun l => l.stages.flatMap fun st => stageMoves p l.core st reads
  else match t.unitKind, p.image.streams[t.index]? with
    | 0xd, _ => []
    | _, some d => (if reads then sideBound p d.srcKind d.srcAbs else sideBound p d.dstKind d.dstAbs).toList
    | _, none => []

/-- The directions in which a ruled task's data move at a bound resource: 0 from it, 1 to it; both where the image does not tell (assumption
log 76). -/
def moves (p : Plan) (t : Cert) (b : Bound) : List Nat :=
  let r := (taskMoves p t true).contains b
  let w := (taskMoves p t false).contains b
  if r == w then [0, 1] else if r then [0] else [1]

/-- The bytes of one access of a task: a row of its stream's walk or slice, of the table it serves, gathers or updates; 0 where the image gives none. -/
def accessBytes (p : Plan) (t : Cert) : Nat :=
  let stride : Nat → Nat := fun ref => ((refOf p ref).map fun r => (tableDesc p r).stride).getD 0
  if t.kind = 1 then
    (((ligOf p t.index).bind fun l => l.stages.find? fun st => st.engine == 4).map fun st => stride (gatherAt p.image.blob st.param).table).getD 0
  else ((p.image.streams[t.index]?).map fun d => if d.kind = 2 then stride d.srcAbs
      else match (if d.write && d.param != 0xffffffff then p.image.layouts[d.param % 2 ^ 16]? else none) with
        | some lb => ((slicesOf p.image.blob (layoutAt lb))[d.param / 2 ^ 16]?).elim 0 (·.padLen)
        | none => d.d0).getD 0

/-- Bytes moved in accesses of a size, each rounded up to a multiple of 256 (R62). -/
def rounded (bytes access : Nat) : Nat :=
  if access = 0 then alignUp bytes 256 else bytes / access * alignUp access 256 + alignUp (bytes % access) 256

/-- The bytes that a TRANSFER entry of a task is charged on a bound resource, and on the links to it: for the walked side of a TRANSPOSE
stream 64 bytes, in HBM 256, for each element (R321); else its bytes, in HBM rounded up by access (R62). -/
def chargedBytes (p : Plan) (t : Cert) (b : Bound) (bytes : Nat) : Nat × Nat :=
  let walked := if t.kind = 2 && t.unitKind == 7 then (p.image.streams[t.index]?).filter fun d =>
      d.layout == 3 && sideBound p (walkSide d).1 (walkSide d).2 == some b
    else none
  match walked with
  | some d =>
    let n := ceilDiv bytes (2 ^ d.elem) * if b.kind = 5 then 256 else 64
    (n, n)
  | none => (if b.kind = 5 then rounded bytes (accessBytes p t) else bytes, bytes)

/-- The charges of a TRANSFER entry `c` of the task `t` on a die (R62, R98). -/
def chargesOf (s : State) (p : Plan) (t : Cert) (die : Nat) (c : Cert) : List Charge :=
  match certBound p c with
  | none => []
  | some b =>
    let dirs := moves p t b
    let n := chargedBytes p t b c.bytes
    ((bwOf s dirs b n.1).map fun e => ⟨e.1, b.index, c.tStart, c.tEnd, e.2⟩) ++
      (linksIn s dirs die (boundDie b)).map fun l => ⟨l, 0, c.tStart, c.tEnd, n.2⟩

/-! ### The update combiner's HBM charge (R247) -/

/-- The UPDATE stages of a plan's ruled ligatures with their tables' references. -/
def updatedRefs (p : Plan) : List Ref :=
  ((p.image.ligatures.filter (·.ruled)).flatMap fun l => l.stages.filter fun st => st.engine == 4 && st.op == 4).filterMap fun st =>
    refOf p (gatherAt p.image.blob st.param).table

/-- The layout that a write stream writes into. -/
def streamLayout (p : Plan) (d : StreamDesc) : Option Layout :=
  if d.write && d.param != 0xffffffff then (p.image.layouts[d.param % 2 ^ 16]?).map layoutAt else none

/-- What the completion of one whole batch charges a ruled write stream into a layout beside its declared transfers, over its interval: 64 + 2V
bytes and B × the sum of SLC_PAD_LEN, in HBM rounded up by access (R62, R338). -/
def completionCharges (s : State) (p : Plan) (t : Cert) (die : Nat) : List Charge :=
  match (p.image.streams[t.index]?).bind (streamLayout p) with
  | none => []
  | some l => match sideBound p l.dstKind l.dstAbs with
    | none => []
    | some b =>
      let up : Nat → Nat := fun n => if b.kind = 5 then alignUp n 256 else n
      let v := ceilDiv l.slots 512 * 64
      let slots := l.slots * total ((slicesOf p.image.blob l).map fun x => up x.padLen)
      let n := up 64 + up (2 * v) + slots
      let stop := t.release + t.claim
      ((bwOf s [1] b n).map fun e => ⟨e.1, b.index, t.release, stop, e.2⟩) ++
        (linksIn s [1] die (boundDie b)).map fun l => ⟨l, 0, t.release, stop, n⟩

/-- What a combiner window's HBM charge of 2 × e × r bytes exceeds its TRANSFER entries by, charged over the window (R247; assumption log
76). -/
def windowCharges (s : State) (p : Plan) (t : Cert) (b : Bound) (ts : List Cert) : List Charge :=
  let rs := updatedRefs p
  let row := (rs.map fun r => (tableDesc p r).stride).foldl max 0
  let declared := total ((ts.filter fun c => c.unitKind == 5).map (·.bytes))
  let rest := 2 * b.size * alignUp row 256 - declared
  if rest = 0 then []
  else (spread s b.index (p.bound.filter fun x => x.kind == 5 && x.index == b.index && rs.any fun r => r.hbm == x.absId) rest).map fun e =>
    ⟨e.1, 0, t.release, t.release + t.claim, e.2⟩

/-! ### Tasks -/

/-- A ruled task as the fit check meets it. `cluster` is 48 for a task that no ready list holds. -/
structure FitTask where
  (slot entry id release claim fw die cluster : Nat)
  (units : List (BitVec 16))
  (charges : List Charge)
  (restricted : Bool)

/-- The unit ids of the exclusive units of a ligature on its core (R59, Table 1-3). -/
def unitIds (core : Nat) (l : Ligature) : List (BitVec 16) :=
  l.stages.map fun st => uid (core / 96) (core / 8 % 12) (core % 8) st.engine (if st.engine = 6 then 1 + st.side else 0)

/-- The TRANSFER entries that follow a task entry (R97). -/
def transfersOf (cs : List Cert) (i : Nat) : List Cert := (cs.drop (i + 1)).takeWhile fun c => c.kind == 3

/-- An HBM region of the plan is requested unpinned. -/
def unpinned (p : Plan) (kind abs : Nat) : Bool :=
  (sideBound p kind abs).any fun b => b.kind == 5 && p.image.requests.any fun r => r.kind == 5 && r.absId == b.absId && !r.pinned

/-- The references a stage's block names. -/
def stageRefs (p : Plan) (st : Stage) : List Nat :=
  let b := p.image.blob
  match st.engine with
  | 1 => if st.op = 1 then [(hashAt b st.param).table] else []
  | 2 => if st.op = 3 then [] else (shapeAt b st.param).entries.map (·.ref)
  | 4 => [(gatherAt b st.param).table]
  | 5 => (matrixAt b st.param).layers.map (·.ref)
  | _ => []

/-- A stage's quantity needs LIG_MAX_ROWS (R512). -/
def needsRows (p : Plan) (st : Stage) : Bool :=
  match st.engine, st.op with
  | 1, 5 => false
  | 1, _ => true
  | 2, 3 => true
  | 3, 1 => !(selAt p.image.blob st.param).release
  | 3, 2 => false
  | 3, _ => true
  | _, _ => false

/-- A stage's quantity needs STG_MAX (R54, Tables 5-1, 7-4 and 8-2). -/
def needsMax (st : Stage) : Bool :=
  match st.engine, st.op with
  | 1, 3 => true | 1, 4 => true | 1, 5 => true | 3, 1 => true | 3, 3 => true | 3, 5 => true | 4, _ => true | _, _ => false

/-- The smallest power of two not below a number. -/
def pow2Up (n : Nat) : Nat := if n ≤ 1 then 1 else 2 ^ (Nat.log2 (n - 1) + 1)

/-- A ruled table does not fit its pad area (R170, R173): by its columns' widths where the image fixes them, else by the widest key or
payload an entry takes (assumption log 75). -/
def tableTooBig (p : Plan) (before : List Stage) (st : Stage) : Bool :=
  if st.engine = 1 && (st.op == 2 || st.op == 4) then
    let j := joinAt p.image.blob st.param
    let ts := typesBefore p.image before
    let key := (fixedWidth ts (joinKeys p.image.blob j)).getD 64
    let payload := if st.op = 2 && j.items != 0 then (fixedWidth ts ((joinItems p.image.blob j).map (·.1))).getD 64 else 0
    decide (j.padBytes < 4 * pow2Up j.maxRows + j.maxRows * (16 + alignUp key 8 + alignUp payload 8))
  else false

/-- A ligature waits on a cell to which something adds that is no declared ruled producer of it, or to which nothing in the plan adds (R54). -/
def waitsOutside (m : Image) (entry : Nat) (l : Ligature) : Bool :=
  let declared : Nat → Nat → Bool := fun kind index => m.deps.any fun d => d.consumer == entry && (m.certs[d.producer]?).any fun c =>
    c.kind == kind && c.index == index && (kind == 1 || c.unitKind == 7)
  let ligs := (List.range m.ligatures.length).filter fun i => (m.ligatures[i]?).any fun x => x.sigDone == l.sigWait
  let streams := (List.range m.streams.length).filter fun i => (m.streams[i]?).any fun x => x.sigSlot == l.sigWait ||
    (x.write && x.param != 0xffffffff && (m.layouts[x.param % 2 ^ 16]?).any fun y => leAt y 35 2 == l.sigWait)
  l.sigWait != 0xffff && ((ligs.isEmpty && streams.isEmpty) || !ligs.all (declared 1) || !streams.all (declared 2))

/-- A ruled task's stream, of a stream engine, compression engine or media unit, walks or fills an HBM region that is not pinned (R54). -/
def walksUnpinned (p : Plan) (d : StreamDesc) : Bool := unpinned p d.srcKind d.srcAbs || unpinned p d.dstKind d.dstAbs

/-- A Feed stage's stream touches an HBM region that is not pinned (R54). -/
def feedUnpinned (p : Plan) (st : Stage) : Bool :=
  st.engine == 6 && (p.image.streams[st.param]?).any (walksUnpinned p)

/-- A Matrix stage has weights fetched by next-layer prefetch whose transfers the certificate does not declare (R215). -/
def prefetchUndeclared (p : Plan) (entry : Nat) (st : Stage) : Bool :=
  st.engine == 5 && (matrixAt p.image.blob st.param).layers.any fun l =>
    l.kind == 1 && l.prefetch && !inPad p l.ref && !(transfersOf p.image.certs entry).any fun t =>
      t.unitKind == 5 && (refOf p l.ref).any fun r => r.hbm == t.unit

/-- A ruled ligature breaks R54. -/
def ligRestricted (p : Plan) (entry : Nat) (l : Ligature) : Bool :=
  waitsOutside p.image entry l || l.stages.any (prefetchUndeclared p entry) ||
    (List.range l.stages.length).any fun k => (l.stages[k]?).any fun st =>
      (needsRows p st && l.maxRows == 0) || (needsMax st && st.max == 0) || tableTooBig p (l.stages.take k) st || feedUnpinned p st ||
        (stageRefs p st).any fun r => r != 0xffff && unpinned p 0xf r

/-- The largest rate a task's TRANSFER entries declare (R312). -/
def peakRate (ts : List Cert) : Rate :=
  ts.foldl (fun m c => let r : Rate := (c.bytes, max 1 (c.tEnd - c.tStart)); if rateLt m r then r else m) (0, 1)

/-- ⌈ρ × L ÷ 256⌉. -/
def tagsFor (r : Rate) (bound : Nat) : Nat := ceilDiv (r.1 * bound) (r.2 * 256)

/-- The task declares a transfer charged to a logical port share. -/
def onPort (ts : List Cert) : Bool := ts.any fun c => c.unitKind == 0xa

/-- A ruled stream breaks R54 or the first two rules of R312. -/
def streamRestricted (p : Plan) (die : Nat) (d : StreamDesc) (ts : List Cert) : Bool :=
  let bound := if d.priv then 2280 else farthest p die d
  walksUnpinned p d || decide (d.outstanding + 1 < tagsFor (peakRate ts) bound) ||
    d.priv != onPort ts

/-- The number of ruled streams of a plan on one bound unit (R308). -/
def streamsOn (p : Plan) (unit : Nat) : Nat := (p.image.certs.filter fun c => c.kind == 2 && c.unitKind == 7 && c.unit == unit).length

/-- The ruled task of a certificate entry of a plan. -/
def fitTask (s : State) (slot : Nat) (p : Plan) (i : Nat) (c : Cert) : Option FitTask :=
  let ts := transfersOf p.image.certs i
  if c.kind = 1 then
    match ligOf p c.index with
    | none => none
    | some l => match coreOf p l.core with
      | none => none
      | some n => some
          { slot := slot, entry := i, id := taskId slot c.index, release := c.release, claim := c.claim,
            fw := ligatureBudget p l, die := n / 96, cluster := n / 8, units := unitIds n l,
            charges := ts.flatMap (chargesOf s p c (n / 96)), restricted := ligRestricted p i l }
  else if c.kind = 2 then
    match certBound p c with
    | none => none
    | some b =>
      let die := boundDie b
      let stream := if c.unitKind = 7 then p.image.streams[c.index]? else none
      let work := if c.unitKind = 0xb || c.unitKind = 0xc then p.image.streams[c.index]? else none
      some { slot := slot, entry := i, id := sharedId slot i, release := c.release, claim := c.claim, fw := sharedBudget p c b, die := die,
             cluster := 48, units := [BitVec.ofNat 16 b.unit],
             charges := ts.flatMap (chargesOf s p c die) ++ (if c.unitKind = 0xd then windowCharges s p c b ts else []) ++
               if c.unitKind = 7 then completionCharges s p c die else [],
             restricted := (stream.any fun d => streamRestricted p die d ts) || (work.any (walksUnpinned p)) || decide (32 < streamsOn p c.unit && c.unitKind = 7) }
  else none

/-- The ruled tasks of a plan. -/
def fitTasks (s : State) (slot : Nat) (p : Plan) : List FitTask :=
  (List.range p.image.certs.length).filterMap fun i => (p.image.certs[i]?).bind (fitTask s slot p i)

/-! ### The check -/

/-- A report entry that names a task. -/
def taskShort (t : FitTask) (code measure avail short : Nat) : FitEntry :=
  { short := short, avail := avail, task := t.id, unit := 0xffff, absId := 0xffff, plan := t.slot, measure := measure, code := code }

/-- What one task falls short of (R71, items 1 and 2). -/
def taskShorts (w : Nat) (t : FitTask) : List FitEntry :=
  (if t.restricted then [taskShort t 0x10 3 0 0] else []) ++
    (if t.claim < t.fw then [taskShort t 0x11 2 t.claim (t.fw - t.claim)] else []) ++
    if w < t.release + t.claim then [taskShort t 0x12 2 (w - t.release) (t.release + t.claim - w)] else []

/-- The dependencies of a plan that are too early (R64, R99). -/
def depShorts (p : Plan) (ts : List FitTask) : List FitEntry :=
  p.image.deps.flatMap fun d =>
    match ts.find? (fun t => t.entry == d.producer), ts.find? (fun t => t.entry == d.consumer) with
    | some a, some b =>
      let need := a.release + a.claim + if a.die = b.die then 120 else 400
      if b.release < need then [taskShort b 0x15 2 b.release (need - b.release)] else []
    | _, _ => []

/-- The cycles two intervals share. -/
def shared (a b : FitTask) : Nat := min (a.release + a.claim) (b.release + b.claim) - max a.release b.release

/-- The pairs of a list, in order. -/
def pairsOf {α : Type} : List α → List (α × α)
  | [] => []
  | x :: xs => (xs.map fun y => (x, y)) ++ pairsOf xs

/-- The overlaps on one exclusive unit (R71, item 3). -/
def overlapsOn (ts : List FitTask) (u : BitVec 16) : List FitEntry :=
  (pairsOf (ts.filter fun t => t.units.contains u)).filterMap fun e =>
    if shared e.1 e.2 = 0 then none else some { taskShort e.2 0x13 2 0 (shared e.1 e.2) with unit := u.toNat }

/-- The largest sum of the rates of charges open at one cycle (R63). -/
def peakOf (cs : List Charge) : Rate :=
  cs.foldl (fun m c =>
    let r := (cs.filter fun x => decide (x.start ≤ c.start) && decide (c.start < x.stop)).foldl
      (fun (a : Rate) (x : Charge) => rateAdd a (x.bytes, max 1 (x.stop - x.start))) (0, 1)
    if rateLt m r then r else m) (0, 1)

/-- The bandwidth units over their charge rate (R71, item 4). -/
def bandShorts (s : State) (cs : List Charge) : List FitEntry :=
  (dedup (cs.map fun c => (c.bw, c.port))).filterMap fun u =>
    let rate := chargeRate s u.1 u.2
    let peak := peakOf (cs.filter fun c => c.bw == u.1)
    if rateLt (rate, 16) peak then
      some { short := rateOver peak rate, avail := rate, task := 0xffffffff, unit := u.1.unit.toNat, absId := 0xffff, plan := 0xff, measure := 4,
             code := 0x14 }
    else none

/-- The privileged tags the ruled streams of a plan need on each die (R312). -/
def privTags (p : Plan) : List (Nat × Nat) :=
  (List.range p.image.certs.length).filterMap fun i => (p.image.certs[i]?).bind fun c =>
    if c.kind = 2 && c.unitKind == 7 then
      match p.image.streams[c.index]?, boundOf p 7 c.unit with
      | some d, some b => if d.priv then some (boundDie b, tagsFor (peakRate (transfersOf p.image.certs i)) 2280) else none
      | _, _ => none
    else none

/-- The dies over 1,024 privileged tags (R312). -/
def tagShorts (ps : List (Nat × Plan)) : List FitEntry :=
  let all := ps.flatMap fun e => privTags e.2
  (List.range 4).filterMap fun d =>
    let n := total ((all.filter fun t => t.1 == d).map (·.2))
    if 1024 < n then some { short := n - 1024, avail := 1024, task := 0xffffffff, unit := (uid d 12 4 0 0).toNat, absId := 0xffff, plan := 0xff,
                            measure := 3, code := 0x14 }
    else none

/-- The clusters with more than 512 ruled releases per tick (R66). -/
def reserveShorts (ts : List FitTask) : List FitEntry :=
  (List.range 48).filterMap fun k =>
    let n := (ts.filter fun t => t.cluster == k).length
    if 512 < n then some { short := n - 512, avail := 512, task := 0xffffffff, unit := (clusterUid k 8).toNat, absId := 0xffff, plan := 0xff,
                           measure := 3, code := 0x16 }
    else none

/-- The pad copies that do not fit a physical core (R101, fit code CORE_PAD). -/
def padShorts (ps : List (Nat × Plan)) : List FitEntry :=
  let ranges : Nat → List (Nat × Nat) := fun n => ps.flatMap fun e => e.2.image.ligatures.flatMap fun l =>
    if coreOf e.2 l.core = some n then (nibsOf l).map fun nib => (winOff l nib, l.winSize) else []
  ps.flatMap fun e => (e.2.image.refs.filter (·.pad)).flatMap fun r =>
    let cores := dedup ((e.2.image.ligatures.filter fun l => l.stages.any fun st => (stageRefs e.2 st).contains r.absId).filterMap fun l => coreOf e.2 l.core)
    cores.filterMap fun n =>
      let size := alignUp r.size 256
      let past := (r.padOff + size) - padBytes
      if past = 0 && (ranges n).all (fun x => !overlap x.1 x.2 r.padOff size) then none
      else some { short := if past = 0 then size else past, avail := if past = 0 then 0 else padBytes - r.padOff, task := 0xffffffff, unit := (padUid n).toNat,
                  absId := r.absId, plan := e.1, measure := 1, code := 2 }

/-- The fit check of R71 over the plans that would be bound, at a period. -/
def fitCheckAt (s : State) (p : Nat) (ps : List (Nat × Plan)) : List FitEntry :=
  let per := ps.map fun e => (e.2, fitTasks s e.1 e.2)
  let ts := per.flatMap (·.2)
  let units := dedup (ts.flatMap (·.units))
  padShorts ps ++ (per.flatMap fun e => e.2.flatMap (taskShorts (windowOf p)) ++ depShorts e.1 e.2) ++ units.flatMap (overlapsOn ts) ++
    bandShorts s (ts.flatMap (·.charges)) ++ tagShorts ps ++ reserveShorts ts

/-- The periods a change is checked at: the one in force, and one that waits (R47, R69). -/
def checkPeriods (s : State) : List Nat :=
  period s :: s.rul.nextPeriod.toList ++ s.actions.filterMap fun a => match a.act with | .periodChange p => some p | _ => none

/-- A plan as it stands once every accepted change still pending is done (R105). -/
def settled (p : Plan) : Plan :=
  match p.rebind with
  | none => p
  | some r => { p with bound := (p.bound.filter fun b => !r.olds.contains b) ++ r.news }

/-- The plans that would be bound after a change, the changed ones replaced, by slot (R70). -/
def boundAfter (s : State) (changed : List (Nat × Plan)) : List (Nat × Plan) :=
  sortBy (fun a b => decide (a.1 < b.1))
    (changed ++ (s.plans.filter fun e => changed.all fun c => c.1 != e.1).map fun e => (e.1, settled e.2))

/-- The fit check of a change: the shortfalls of the first period that has any, with that period. -/
def fitCheck (s : State) (changed : List (Nat × Plan)) (periods : List Nat) : Option (Nat × List FitEntry) :=
  periods.findSome? fun p =>
    match fitCheckAt s p (boundAfter s changed) with
    | [] => none
    | es => some (p, es)

/-- A bound resource lies on a removed unit (Table 15-5); a die's hot tier, landing buffers and Dip partition are parts of its Reservoir. -/
def onUnit (s : State) (units : List (BitVec 16)) (b : Bound) : Bool :=
  let at1 : BitVec 16 → Bool := fun u => units.any fun x => covers x u
  match b.kind with
  | 1 => at1 (coreUid b.index 7)
  | 2 => at1 (clusterUid b.index 10)
  | 3 => at1 (clusterUid b.index 12)
  | 4 => (units.any fun x => match unitClass x with | .bankGroup d _ => d == b.index | _ => false) &&
      decide (reservoirSize { s with exclusions := [] } { held := [], avoid := units, together := [], copies := [] } b.index < b.base % 2 ^ 33 + b.size)
  | 5 => (List.range (b.size / pageBytes)).any fun i => match look (b.base / pageBytes + i) s.pages with
      | some p => p.state != 0 && at1 (uid b.index 12 1 (frameController p.frame.toNat) 0)
      | none => false
  | 6 => at1 (poolUid b.index)
  | 8 => at1 (signalsUid (b.index / 4096))
  | 9 => at1 (clusterUid b.index 9)
  | 0xa => units.any (portUses s b.index)
  | _ => at1 (BitVec.ofNat 16 b.unit)

/-- A fit report kept for FIT_REPORT_READ, and the FIT detail (Table 13-4). -/
def keepReport (planId p : Nat) (es : List FitEntry) (s : State) : State × Nat :=
  ({ s with fitReport := some (fitReport planId p es) }, es.length + min 4096 es.length * 2 ^ 32)

end Sys2Proof.Machine
end

