-- ==== Sys2Proof/Machine/Errors.lean ====
section
/-! DEFINITION. The Blotter commands and self-tests (R470 to R480). -/

namespace Sys2Proof.Machine

/-- The session holds every page of a range, and each is in the state given (2 PINNED); state 0 asks for none. -/
def sessionRange (s : State) (dva n : Nat) (state : Nat) : Bool :=
  0 < n && s.allocs.any (fun a => a.base ≤ dva && dva + n ≤ a.base + a.pages * pageBytes) &&
    (state == 0 || (List.range ((dva + n - 1) / pageBytes + 1 - dva / pageBytes)).all fun i =>
      (look (dva / pageBytes + i) s.pages).any fun p => p.state.toNat == state)

/-- A ring's size is a power of two from 64 KiB to 64 MiB (R470). -/
def ringSizeOk (n : Nat) : Bool := 65536 ≤ n && n ≤ 67108864 && n == 2 ^ Nat.log2 n

/-- The records of the store copied into a ring, oldest first, each at the slot of its index (R470, R471). -/
def copyStore (dva bytes : Nat) (s : State) : State :=
  let recs := s.blot.store.reverse
  let first := s.blot.written - recs.length
  ((List.range recs.length).zip recs).foldl (fun s e =>
    writeDva s (dva + 32 * ((first + e.1) % (bytes / 32))) (le 32 e.2.toNat)) s

/-- BLOTTER_SET (R470, R472). -/
def execBlotterSet (r : Req) (dva : BitVec 64) (bytes : BitVec 32) (c : BitVec 16) (s : State) : Host.Outcome State Fault Refusal :=
  .next (goust r (icmd 0x0701 16 [(12, c != 0xffff#16 && decide (16384 ≤ c.toNat))] fun s =>
    if !ringSizeOk bytes.toNat || !sessionRange s dva.toNat bytes.toNat 2 then .fail St.memoryRefused dva.toNat
    else if c ≠ 0xffff#16 ∧ !cellHeld s c.toNat then .fail St.cellRefused 0
    else
      let first := s.blot.written - s.blot.store.length
      let s := copyStore dva.toNat bytes.toNat s
      .ok { s with blot := { s.blot with store := [], ring := some (dva.toNat, bytes.toNat, first),
                                         notice := if c = 0xffff#16 then none else some c.toNat } } []) s)

/-- The index of the oldest record held (R471). -/
def oldestRecord (s : State) : Nat :=
  match s.blot.ring with
  | some (_, bytes, first) => max first (s.blot.written - bytes / 32)
  | none => s.blot.written - s.blot.store.length

/-- The record of an index that is held. -/
def recordAt (s : State) (i : Nat) : Bytes :=
  match s.blot.ring with
  | some (dva, bytes, _) => readDva s (dva + 32 * (i % (bytes / 32))) 32
  | none => le 32 (nth s.blot.store (s.blot.written - 1 - i) 0).toNat

/-- The index BLOTTER_READ starts at: the one asked for, or the oldest held where that has been overwritten (R471). -/
def readStart (s : State) (first : Nat) : Nat :=
  let d := (s.blot.written + 2 ^ 32 - first % 2 ^ 32) % 2 ^ 32
  if 2 ^ 31 ≤ d then s.blot.written else max (oldestRecord s) (s.blot.written - d)

/-- BLOTTER_READ (R471). -/
def execBlotterRead (r : Req) (first : BitVec 32) (s : State) : Host.Outcome State Fault Refusal :=
  .next (goust r (icmd 0x0702 8 [] fun s =>
    let start := readStart s first.toNat
    let n := min 110 (s.blot.written - start)
    .ok s (payload [.num 4 (start + n), .num 4 n, .elems ((List.range n).map fun i => recordAt s (start + i))])) s)

/-! ### Self-test -/

/-- A self-test that the host starts (R480). -/
def hostTest (unit : BitVec 16) (s : State) : CmdRes :=
  if s.tests.any fun t => t.unit == unit then .fail St.selftestBusy 0
  else
    let t : SelfTest := { unit := unit, first := 0, answered := 0, done := 0, failing := 0, since := s.clk.cycle, deferred := false,
                          host := true, nextFirst := 0, nextCount := 0 }
    .accept { s with tests := s.tests ++ [t] } (.selftest unit) []

/-- SELFTEST_RUN (R480). -/
def execSelftestRun (r : Req) (unit : BitVec 16) (s : State) : Host.Outcome State Fault Refusal :=
  .next (goust r { op := 0x0703, pending := true, len := 8, bad := [(0, unitOk unit && deviceLevel unit)], units := [(0, unit)],
                   body := hostTest unit } s)

/-- The cycles of a segment (Table 15-4a). -/
def segmentCycles (u : BitVec 16) : Nat :=
  match unitClass u with
  | .core _ => if uidEngine u = 7 then (if uidSub u = 2 then 1024 else 2048) else if uidEngine u = 6 then 4096 else 2048
  | .cluster _ => if uidSub u = 8 then 4096 else 1024
  | .matchUnit _ => 512
  | .sharedCache _ => 4096
  | .scribe _ => 4096
  | .bankGroup _ _ => 1024
  | .controller _ _ => 2048
  | .link _ _ => 2048
  | .port _ _ _ => 3800000
  | .signals _ => 1024
  | .device => 0
  | _ => 4096

/-- A plan binds something of a cluster. -/
def clusterBound (s : State) (k : Nat) : Bool :=
  s.plans.any fun e => e.2.bound.any fun b => onCluster (BitVec.ofNat 16 b.unit) k

/-- A unit id names what a ruled task holds over its interval: its engine or its side of the Feed, any engine of the core for the core's control
block, the match unit of a MATCH or AUTOMATON stage, its shared unit (R58, R59, Table 15-4a). -/
def heldBy (p : Plan) (t : FitTask) (u : BitVec 16) : Bool :=
  match unitClass u with
  | .core n => t.units.any fun x => unitClass x == .core n &&
      (uidEngine u == 7 || (uidEngine x == uidEngine u && (uidEngine u != 6 || uidSub u == 0 || uidSub u == 3 || uidSub u == uidSub x)))
  | .matchUnit k => t.cluster == k && ((p.image.certs[t.entry]?).bind fun c => ligOf p c.index).any fun l =>
      l.stages.any fun st => st.engine == 3 && (st.op == 4 || st.op == 5)
  | c => t.units.any fun x => unitClass x == c

/-- The ruled tasks of a plan that releases them. -/
def releasedTasks (s : State) (slot : Nat) (p : Plan) : List FitTask :=
  if p.state == .loaded || p.retireBands != 0 then [] else fitTasks s slot p

/-- The ruled intervals of every tick on a unit, in cycles from its edge: those of the tasks that hold it, and those of the transfers that a
controller or a die link is charged with (R58, R63, R477). -/
def ruledIntervals (s : State) (u : BitVec 16) : List (Nat × Nat) :=
  s.plans.flatMap fun e => (releasedTasks s e.1 e.2).flatMap fun t =>
    (if heldBy e.2 t u then [(t.release, t.release + t.claim)] else []) ++
      (t.charges.filter fun c => (c.bw.kind == 5 || c.bw.kind == 13) && unitClass c.bw.unit == unitClass u).map fun c => (c.start, c.stop)

/-- A ruled task that has been released and has not completed holds a unit. -/
def ruledOn (s : State) (u : BitVec 16) : Bool :=
  ((ruledOpen s).any fun t => (plan? s t.slot).any fun p => (fitTasks s t.slot p).any fun x => x.id == t.id && heldBy p x u) ||
    (s.rul.shared.any fun r => unitClass r.unit == unitClass u) ||
    s.streams.any fun e => e.2.ruled && e.2.owed != 0 && unitClass e.2.unit == unitClass u

/-- A margin window of a unit is open with at least so many cycles and 32 more left of it, taken across the tick edge (R58). -/
def windowHolds (s : State) (u : BitVec 16) (n : Nat) : Bool :=
  let now := s.clk.cycle - s.clk.edge
  !ruledOn s u && (ruledIntervals s u).all fun i =>
    (decide (now < i.1) && decide (now + n + 32 ≤ i.1)) || (decide (i.2 ≤ now) && decide (now + n + 32 ≤ i.1 + s.clk.len))

/-- A segment of a test may run now (Table 15-4a, R58, R477, R480, R505): most kinds need a margin window of the unit that holds it, with margin
work admitted; a memory block is tested at any time; a port's loopback needs its link down or SELFTEST_RUN; the scheduler, Scribe and shared
cache tags need SELFTEST_RUN with no plan on the cluster. An excluded unit's test has no window rule. -/
def segmentMayRun (s : State) (t : SelfTest) : Bool :=
  let margin := s.pwr.f != 0 && windowHolds s t.unit (segmentCycles t.unit)
  if isExcluded s t.unit then t.host
  else match unitClass t.unit with
  | .port _ _ _ => t.host || (List.range 4).all fun p => !portUses s p t.unit || !(port s p).linkUp
  | .cluster k => if uidSub t.unit = 8 then t.host && !clusterBound s k else true
  | .sharedCache k => t.host && !clusterBound s k
  | .scribe k => t.host && !clusterBound s k
  | .bankGroup _ _ => true
  | .signals _ => true
  | .core _ => (uidEngine t.unit == 7 && uidSub t.unit == 2) || margin
  | _ => margin

/-- A SELFTEST_VERDICT record (R479). -/
def emitVerdict (t : SelfTest) (s : State) : State :=
  let lasting : Bool := 0 < t.failing
  let pos := if t.answered = 0 then 0 else t.first + 2 ^ 32 * t.answered
  noteReserves (noticeAdd
    (writeRec (errPack (ptpNs s % 2 ^ 64) pos t.failing t.unit.toNat 0xff (if lasting then 3 else 2) (ruledUses s t.unit) 10 1) s))

/-- A test ended: its verdict, the final response of SELFTEST_RUN, and the new test that waiting records call for (R474, R480). -/
def endTest (t : SelfTest) (s : State) : State :=
  let rest := s.tests.filter fun x => x.unit != t.unit
  let again : SelfTest := { unit := t.unit, first := t.nextFirst, answered := t.nextCount, done := 0, failing := 0,
                            since := s.clk.cycle, deferred := false, host := false, nextFirst := 0, nextCount := 0 }
  let s := emitVerdict t { s with tests := if t.nextCount = 0 then rest else rest ++ [again] }
  if t.host then finalAnswer (fun k => k == .selftest t.unit) St.ok 0 (payload [.num 1 (b2n (decide (0 < t.failing)))]) s else s

/-- SELFTEST_SEGMENT: a segment of the unit's test runs in a window that holds it, and finds `failing` faults (R475 to R479). -/
def execSelftestSegment (unit : BitVec 16) (failing : BitVec 32) (s : State) : Host.Outcome State Fault Refusal :=
  match s.tests.find? fun t => t.unit == unit with
  | none => .next s
  | some t =>
    if !segmentMayRun s t then .next s
    else
      let s := advanceTo (s.clk.cycle + segmentCycles unit) s
      let t' := { t with done := t.done + 1, failing := t.failing + failing.toNat }
      if testSegments unit ≤ t'.done then .next (endTest t' s)
      else .next { s with tests := s.tests.map fun x => if x.unit == unit then t' else x }

/-- SELFTEST_DEFERRED: a test not complete 1 s after its first record, once (R478). -/
def execSelftestDeferred (unit : BitVec 16) (s : State) : Host.Outcome State Fault Refusal :=
  match s.tests.find? fun t => t.unit == unit with
  | none => .next s
  | some t =>
    if t.deferred then .next s
    else
      let s := advanceTo (t.since + 1900000000) s
      .next (emitErr { cls := 10, code := 2, unit := unit, pos := 0, count := t.done, plan := 0xff, named := false, test := false }
        { s with tests := s.tests.map fun x => if x.unit == unit then { t with deferred := true } else x })

end Sys2Proof.Machine
end

