-- ==== Sys2Proof/Machine/SignalCmds.lean ====
section
/-! DEFINITION. The signal commands (Table 13-8, R433) and the signal events (R376 to R383). -/

namespace Sys2Proof.Machine

/-- A run of `n` free cells of a die from its lowest number (Table 13-8). -/
def freeRun (s : State) (die n : Nat) : Option Nat :=
  (List.range (4097 - n)).findSome? fun i =>
    if (List.range n).all fun k => !cellHeld s (die * 4096 + i + k) then some (die * 4096 + i) else none

/-- A cell as the session gets it. -/
def sessionCell : SigCell := { SigCell.reset with session := true }

/-- SIGNAL_ALLOC (Table 13-8). -/
def execSignalAlloc (r : Req) (n : BitVec 16) (die : Byte) (s : State) : Host.Outcome State Fault Refusal :=
  .next (goust r (icmd 0x0311 8 [(2, 3 < die.toNat)] fun s =>
    if isExcluded s (signalsUid die.toNat) then .fail St.cellRefused 0
    else match (if n.toNat ≤ 4096 then freeRun s die.toNat n.toNat else none) with
    | none => .fail St.cellRefused 0
    | some f => .ok ((List.range n.toNat).foldl (fun s k => setCell (f + k) sessionCell s) s) (payload [.num 2 f])) s)

/-- The plan that holds a cell. -/
def cellPlan (s : State) (n : Nat) : Option Plan := if (cell s n).bound then plan? s (cell s n).plan.toNat else none

/-- SIGNAL_SET (R374). -/
def execSignalSet (r : Req) (c : BitVec 16) (value min max wdog : BitVec 32) (toHost : Byte) (s : State) :
    Host.Outcome State Fault Refusal :=
  .next (goust r (icmd 0x0312 24 [(0, 16384 ≤ c.toNat), (4, !(min.sle value && value.sle max)), (20, 1 < toHost.toNat)] fun s =>
    if !cellHeld s c.toNat then .fail St.cellRefused 0
    else if (cellPlan s c.toNat).any fun p => p.state != .loaded then .fail St.planState 0
    else
      let x := cell s c.toNat
      let x := { x with value := value, min := min, max := max, wdog := wdog, toHost := toHost.toNat == 1 }
      .ok (noteReserves (releaseAll c.toNat (setCell c.toNat x s))) []) s)

/-- SIGNAL_ADD (R380, R433). -/
def execSignalAdd (r : Req) (c : BitVec 16) (n : BitVec 32) (s : State) : Host.Outcome State Fault Refusal :=
  .next (goust r (icmd 0x0313 8 [(0, 16384 ≤ c.toNat)] fun s =>
    if !cellHeld s c.toNat then .fail St.cellRefused 0 else .ok (signalAdd c.toNat n.toInt s) []) s)

/-- The signal cell of Table 11-7. -/
def cellImage (c : SigCell) : BitVec 256 :=
  BitVec.ofNat 256 (pack [(9, 0), (1, b2n c.overflow), (1, b2n c.underflow), (1, b2n c.toHost), (28, 0), (8, c.plan.toNat),
    (16, c.waiters.length), (32, c.min.toNat), (32, c.max.toNat), (32, c.value.toNat), (32, c.wdog.toNat), (64, c.adds.toNat)])

/-- SIGNAL_READ (Table 13-8). -/
def execSignalRead (r : Req) (c : BitVec 16) (s : State) : Host.Outcome State Fault Refusal :=
  .next (goust r (icmd 0x0314 8 [(0, 16384 ≤ c.toNat)] fun s => .ok s (le 32 (cellImage (cell s c.toNat)).toNat)) s)

/-- A held remote signal by its source, stream and position. -/
def remoteIs (source : Nat) (ext : Bool) (stream pos : Nat) (x : RemoteSignal) : Bool :=
  x.source == source && x.ext == ext && x.stream == stream && x.pos == pos

/-- The remote signal that a SIGNAL packet carries, on the die of its port (R382, Table 12-5). -/
def remoteOf (die : Nat) (h : KitHeader) (payload : Bytes) (s : State) : RemoteSignal :=
  let w := leAt payload 0 32
  { cell := fld 159 146 w, n := BitVec.ofNat 32 (fld 191 160 w), source := h.srcDev.toNat, ext := h.extSrc, stream := fld 207 192 w,
    pos := fld 255 208 w, die := die, since := s.clk.cycle, reported := false }

/-- The remote signals a die's store holds. -/
def remoteHeld (s : State) (die : Nat) : Nat := (s.remote.filter fun x => x.die == die).length

/-- The oldest SIGNAL of a die's transport control ingress queue taken into the store where there is room (R383); one whose cell has
been freed meanwhile is gone. -/
def admitRemote (die : Nat) (s : State) : State :=
  let q := die * 16384 + 1022
  match queue? s q with
  | some x =>
    match x.pkts with
    | p :: _ =>
      if remoteHeld s die < 1024 then
        let r := remoteOf die (kitHeaderOf (p.bytes.take 32)) (p.bytes.drop 32) s
        let s := wakeQueue q (setQueue q (freePackets 1 { x with read := (1, 0) }) s)
        if cellHeld s r.cell then { s with remote := s.remote ++ [r] } else s
      else s
    | [] => s
  | none => s

/-- The SIGNALs of both port dies taken into their stores while there is room. -/
def admitRemotes (s : State) : State :=
  [0, 2].foldl (fun s die =>
    let n := ((queue? s (die * 16384 + 1022)).map (·.pkts.length)).getD 0
    (List.range n).foldl (fun s _ => admitRemote die s) s) s

/-- REMOTE_DISCARD (R383). -/
def execRemoteDiscard (r : Req) (source : BitVec 16) (ext : Byte) (stream : BitVec 16) (pos : BitVec 64) (s : State) :
    Host.Outcome State Fault Refusal :=
  .next (goust r (icmd 0x0315 16 [(0, 1024 ≤ source.toNat), (2, 1 < ext.toNat), (8, 2 ^ 48 ≤ pos.toNat)] fun s =>
    match s.remote.find? (remoteIs source.toNat (ext.toNat == 1) stream.toNat pos.toNat) with
    | none => .fail St.notHeld 0
    | some x => .ok (admitRemotes { s with remote := s.remote.erase x }) []) s)

/-- ADD_APPLIED: an add of a unit reaches its cell (R376). -/
def execAddApplied (c : BitVec 14) (n : BitVec 32) (_unit : BitVec 16) (s : State) : Host.Outcome State Fault Refusal :=
  .next (signalAdd c.toNat n.toInt s)

/-- The watchdog of a wait in cycles (R378): none where it never expires. -/
def watchdog (w : BitVec 32) : Option Nat :=
  if w = 0xffffffff#32 then none else if w = 0 then some 19000000 else some w.toNat

/-- ER_POS of WAIT_TIMEOUT (R378). -/
def waitPos (w : Waiter) : Nat := match w.what with | .task t => 2 ^ 32 + t.id | _ => 0

/-- The plan of a waiter. -/
def waiterPlan (w : Waiter) : Nat := match w.what with | .task t => t.slot | .stream slot _ => slot | _ => 0xff

/-- A waiter parked with its WAIT_TIMEOUT record (R378). -/
def park (queue : Bool) (num : Nat) (w : Waiter) (s : State) : State :=
  emitErr { cls := 5, code := 7, unit := w.unit, pos := waitPos w, count := b2n queue * 65536 + num, plan := waiterPlan w,
            named := false, test := false } { s with parked := s.parked ++ [{ waiter := w, queue := queue, num := num }] }

/-- WAIT_TIMEOUT: the watchdog of a unit's wait on a cell or queue expires (R378). -/
def execWaitTimeout (queue : Bool) (num unit : BitVec 16) (s : State) : Host.Outcome State Fault Refusal :=
  let n := num.toNat
  if queue then
    match s.queueWaits.find? fun e => e.1 == n && e.2.unit == unit, (queue? s n).bind fun x => watchdog x.wdog with
    | some e, some d => .next (park true n e.2 (advanceTo (e.2.since + d) { s with queueWaits := s.queueWaits.erase e }))
    | _, _ => .next s
  else
    let c := cell s n
    match c.waiters.find? fun w => w.unit == unit, watchdog c.wdog with
    | some w, some d =>
      .next (noteReserves (releaseAll n (park false n w (advanceTo (w.since + d)
        (admitHeld (n / 4096) (setCell n { c with waiters := c.waiters.erase w } s))))))
    | _, _ => .next s

/-- A committed count has reached a position, modulo 2⁴⁸ by serial arithmetic (R382). -/
def serialReached (count pos : BitVec 48) : Bool := (count - pos).toNat < 2 ^ 47

/-- The committed count of a source's stream (R400); 0 for a stream that is not set. -/
def committedOf (s : State) (source : Nat) (ext : Bool) (stream : Nat) : BitVec 48 :=
  ((s.rx.find? fun e => e.source == source && e.ext == ext && e.stream == stream).map (·.committed)).getD 0

/-- A held remote signal may be applied (R382). -/
def remoteDue (s : State) (x : RemoteSignal) : Bool :=
  serialReached (committedOf s x.source x.ext x.stream) (BitVec.ofNat 48 x.pos)

/-- REMOTE_SIGNAL_APPLIED: a held remote signal whose data have committed is applied (R382). -/
def execRemoteSignalApplied (source : BitVec 10) (ext : Bool) (stream : BitVec 16) (pos : BitVec 48) (s : State) :
    Host.Outcome State Fault Refusal :=
  match s.remote.find? (remoteIs source.toNat ext stream.toNat pos.toNat) with
  | none => .next s
  | some x =>
    if remoteDue s x then .next (signalAdd x.cell x.n.toInt (admitRemotes { s with remote := s.remote.erase x })) else .next s

/-- SIG_REMOTE_HELD: a signal has been held for more than 1,900,000 cycles (R383); its source is the number with its flag (R382, assumption
log 14). -/
def execSigRemoteHeld (source : BitVec 10) (ext : Bool) (stream : BitVec 16) (pos : BitVec 48) (s : State) :
    Host.Outcome State Fault Refusal :=
  match s.remote.find? fun x => remoteIs source.toNat ext stream.toNat pos.toNat x && !x.reported with
  | none => .next s
  | some x =>
    .next (emitErr { cls := 5, code := 8, unit := signalsUid x.die, pos := (b2n ext * 1024 + source.toNat) * 65536 + stream.toNat, count := 0,
                     plan := (cell s x.cell).plan.toNat, named := false, test := false }
      (advanceTo (x.since + 1900001)
        { s with remote := s.remote.map fun y => if y = x then { x with reported := true } else y }))

end Sys2Proof.Machine
end

