-- ==== Sys2Proof/Machine/Release.lean ====
section
/-! DEFINITION. Resources given back by an unload, a retirement, a rebind or a reset, and their zeroing (R92, R472, R497, R498). -/

namespace Sys2Proof.Machine

/-- Another plan holds the core of a bound (RQ_SHARE). -/
def coreShared (s : State) (slot : Nat) (b : Bound) : Bool :=
  s.plans.any fun e => e.1 != slot && e.2.bound.any fun x => x.kind == 1 && x.index == b.index

/-- The frames behind a bound region of HBM. -/
def regionFrames (s : State) (b : Bound) : List Nat :=
  ((runPages s (b.base / pageBytes) (b.size / pageBytes)).filter fun e => e.2.state != 0).map fun e => e.2.frame.toNat

/-- The byte ranges to zero when a bound resource is given back. -/
def boundRanges (s : State) (slot : Nat) (b : Bound) : List (Nat × Nat) :=
  match b.kind with
  | 1 => if coreShared s slot b then [] else [(padDva b.index 0, padBytes)]
  | 2 => [(b.base, b.size)]
  | 4 => [(b.base, b.size)]
  | 5 => (regionFrames s b).map fun f => (hbmDva (f * pageBytes), pageBytes)
  | _ => []

/-- A bound that stays held while it is zeroed: a core nothing else holds, a store or Reservoir part, a shared cache that no plan needs as
large, a queue with the cells it holds, match entries (R37, R92). -/
def zeroHeld (s : State) (slot : Nat) (b : Bound) : Option Bound :=
  match b.kind with
  | 1 => if coreShared s slot b then none else some { b with base := 0 }
  | 2 => some b
  | 3 => if s.plans.any fun e => e.1 != slot && e.2.bound.any fun x => x.kind == 3 && x.index == b.index && decide (b.size ≤ x.size) then none
      else some b
  | 4 => some b
  | 6 => some { b with size := max b.size (((queue? s b.index).map heldCells).getD 0) }
  | 9 => some b
  | _ => none

/-- The queues of some bounds removed, with the waits on them. -/
def dropQueues (qs : List Nat) (s : State) : State :=
  { s with queues := s.queues.filter fun e => !qs.contains e.1, queueWaits := s.queueWaits.filter fun e => !qs.contains e.1,
           parked := s.parked.filter fun p => !(p.queue && qs.contains p.num),
           tx := s.tx.filter fun t => !qs.contains t.queue,
           rx := s.rx.filter fun r => match r.dest with | .queue q => !qs.contains q | .window _ _ => true }

/-- Signal cells freed, with the waits on them; the Blotter's notice setting reverts where it names one (R472). -/
def dropCells (cs : List Nat) (s : State) : State :=
  admitRemotes { s with cells := s.cells.filter fun e => !cs.contains e.1, regHeld := s.regHeld.filter fun e => !cs.contains e.1,
                        parked := s.parked.filter fun p => p.queue || !cs.contains p.num, remote := s.remote.filter fun r => !cs.contains r.cell,
                        blot := { s.blot with notice := s.blot.notice.filter fun n => !cs.contains n } }

/-- Receive streams to a window in a region removed. -/
def dropWindows (bs : List Bound) (s : State) : State :=
  { s with rx := s.rx.filter fun r => match r.dest with
      | .queue _ => true
      | .window d _ => bs.all fun b => b.kind == 6 || b.size == 0 || d < b.base || b.base + b.size ≤ d }

/-- The pages of the HBM regions of some bounds unmapped. -/
def unmapBounds (bs : List Bound) (s : State) : State :=
  bs.foldl (fun s b =>
    if b.kind = 5 then
      { s with pages := s.pages.filter fun e => !(b.base / pageBytes ≤ e.1 && e.1 < b.base / pageBytes + b.size / pageBytes) }
    else s) s

/-- Bound resources of a plan given back, and their memory to be zeroed before anything binds it again (R92). -/
def releaseBounds (slot : Nat) (bs : List Bound) (frames : List Nat) (s : State) : State :=
  let ranges := bs.flatMap (boundRanges s slot) ++ frames.map fun f => (hbmDva (f * pageBytes), pageBytes)
  let held := bs.filterMap (zeroHeld s slot)
  let s := dropWindows (bs.filter fun b => [1, 2, 4, 5].contains b.kind) (unmapBounds bs s)
  let s := dropQueues ((bs.filter fun b => b.kind == 6).map (·.index)) s
  let s := dropCells ((bs.filter fun b => b.kind == 8).map (·.index)) s
  if ranges.isEmpty && held.isEmpty then s else { s with zeroing := s.zeroing ++ [⟨ranges, held, false⟩] }

/-- The contents a plan keeps outside its regions, dropped. -/
def dropContents (slot : Nat) (s : State) : State :=
  { s with
    streams := s.streams.filter fun e => e.1.1 != slot
    tables := s.tables.filter fun e => e.1.1 != slot
    joins := s.joins.filter fun e => e.1.1 != slot
    stats := s.stats.filter fun e => e.1.1 != slot
    lists := s.lists.filter fun e => e.1.1 != slot
    batches := s.batches.filter fun e => e.1.1 != slot
    caches := s.caches.filter fun e => e.1.1 != slot
    nibs := s.nibs.map fun e => (e.1, e.2.filter fun g => g.slot != slot)
    dips := s.dips.map fun e => (e.1, { rows := e.2.rows.filter fun r => r.slot != slot, misses := e.2.misses.filter fun m => m.1.1 != slot })
    combiners := s.combiners.map fun e => (e.1, { e.2 with entries := e.2.entries.filter fun x => x.slot != slot,
                                                           window := e.2.window.filter fun w => w.1 != slot,
                                                           opened := e.2.opened.filter fun w => w.1 != slot }) }

/-- The places of a pending rebind given back (R110). -/
def dropRebind (slot : Nat) (s : State) : State :=
  match plan? s slot with
  | none => s
  | some p => match p.rebind with
    | none => s
    | some r =>
      let s := setPlan slot { p with rebind := none } s
      let s := { s with actions := s.actions.filter fun a => a.act != .rebindCommit slot }
      releaseBounds slot r.news [] s

/-- The plan an action names. -/
def actionSlot : Action → Option Nat
  | .tableSwap n _ _ _ => some n
  | .cutover n _ _ _ => some n
  | .dipChange n _ _ => some n
  | .rebindCommit n => some n
  | .activation n => some n
  | .retirement n _ => some n
  | .periodChange _ => none

/-- A plan unloaded: its slot is EMPTY and its resources are zeroed (R92, R103). -/
def unloadPlan (slot : Nat) (s : State) : State :=
  match plan? s slot with
  | none => s
  | some p =>
    let s := dropRebind slot s
    let s := dropContents slot s
    let s := { s with actions := s.actions.filter fun a => actionSlot a.act != some slot }
    let s := releaseBounds slot p.bound p.imageFrames s
    refreshBound { settleBuckets s with plans := del slot s.plans }

/-- The match entries of a region invalid and their row tags 0. -/
def clearMatch (b : Bound) (s : State) : State :=
  { s with matchUnits := s.matchUnits.map fun e =>
      if e.1 = b.index then
        (e.1, { entries := e.2.entries.filter fun x => x.1 < b.base || b.base + b.size ≤ x.1,
                tags := e.2.tags.filter fun x => x.1 < b.base / 64 || (b.base + b.size) / 64 ≤ x.1 })
      else e }

/-- The oldest zeroing ends: its bytes are blank, its match entries invalid, and what it held is free (R92). -/
def zeroingEnd (s : State) : State :=
  match s.zeroing with
  | [] => s
  | z :: _ =>
    let s := (z.held.filter fun b => b.kind == 9).foldl (fun s b => clearMatch b s) (zeroingDone s)
    { s with heldLoads := s.heldLoads.map fun h => (h.1, h.2.1, h.2.2 - 1) }

end Sys2Proof.Machine
end

