-- ==== Sys2Proof/Machine/Load.lean ====
section
/-! DEFINITION. PLAN_LOAD: validation, binding, the fit check, and the plan LOADED (R87 to R92, R100 to R102, R111, R112, R284, R432). -/

namespace Sys2Proof.Machine

/-! ### What binding fills (R100, R167, R195, R203, R223, R284, Table 11-7) -/

/-- The signal cells of a plan at their binding values. -/
def bindCellValues (slot : Nat) (bs : List Bound) (s : State) : State :=
  (bs.filter fun b => b.kind == 8).foldl (fun s b => setCell b.index { SigCell.reset with bound := true, plan := BitVec.ofNat 8 slot } s) s

/-- The statistics object of a descriptor: the RO fields at their reset values, copy 0 with its derived fields, copy 1 zero (R195). -/
def statImage (b : Bytes) (off : Nat) : Bytes :=
  let n := leAt b off 2
  slice b off 6 ++ zeros 2 ++ le 8 (2 ^ 64 - 1) ++ zeros 16 ++
    ((List.range n).flatMap fun i => deriveRecord (slice b (off + 32 + 64 * i) 64)) ++ zeros (64 * n)

/-- The sketch object of a descriptor: its header and both copies zero (R203). -/
def sketchImage (b : Bytes) (off : Nat) : Bytes := slice b off 16 ++ zeros (2 * leAt b off 2 * (16416 + 8208))

/-- The working copy of a reference that keeps its load-time content in its descriptor (R100). -/
def fillRef (p : Plan) (s : State) (r : Ref) : State :=
  match r.kind with
  | 4 => refWrite p r.absId 0 (slice p.image.blob r.desc r.size) s
  | 6 => refWrite p r.absId 0 (statImage p.image.blob r.desc) s
  | 7 => refWrite p r.absId 0 (sketchImage p.image.blob r.desc) s
  | _ => s

/-- The owner entries of a POOL reference as its owner list gives them (R223). -/
def startOwners (s : State) (p : Plan) (r : Ref) : List Owner :=
  (wordsOf p.image r).map fun w => (ownerWord s p r w).getD ⟨false, 0, [0, 0, 0, 0], 0, 0, 0⟩

/-- The tables of a plan at the start of their use. -/
def startTables (slot : Nat) (p : Plan) (s : State) : State :=
  (p.image.refs.filter fun r => r.kind == 1).foldl (fun s r => setTable slot r.absId (Table.fresh r.absId (startOwners s p r)) s) s

/-- One match load applied (R284). -/
def applyLoad (p : Plan) (s : State) (e : RawEntry) : State :=
  let l := loadAt e
  match boundOf p 9 l.region with
  | none => s
  | some b =>
    if l.kind = 0 then
      writeEntries b l.first ((List.range l.count).map fun i => BitVec.ofNat 320 (leAt p.image.blob (l.blob + 40 * i) 40)) s
    else writeTags b l.first (slice p.image.blob l.blob l.count) s

/-- The match loads of a plan applied in image order. -/
def applyLoads (p : Plan) (s : State) : State := p.image.loads.foldl (applyLoad p) s

/-- The streams of a plan before they start. -/
def startStreams (slot : Nat) (p : Plan) (s : State) : State :=
  ((List.range p.image.streams.length).zip p.image.streams).foldl (fun s e =>
    setStream (slot, e.1) (Stream.fresh e.2 (streamUnit p e.1) (ruledStream p.image e.1)) s) s

/-! ### The plan region (R88, R514) -/

/-- The frames that the plan region copy of an image takes, with its tag area of 8 bytes per 64-byte unit (R461, R514). -/
def planFrames (len : Nat) : Nat := ceilDiv (len + len / 64 * 8) pageBytes

/-- The die on which the lowest-numbered core of a binding lies. -/
def coreDie (bs : List Bound) : Nat :=
  ((bs.filter fun b => b.kind == 1).map (·.index)).foldl min 383 / 96

/-! ### PLAN_LOAD -/

/-- A plan just bound. -/
def newPlan (m : Image) (bs : List Bound) (avoid : List (BitVec 16)) (frames : List Nat) (tick : Nat) : Plan :=
  { image := m, state := .loaded, bound := bs, avoid := avoid, changed := tick, retireBands := 0, resetting := false, padCopies := [],
    replicas := [], imageFrames := frames, filterbanks := [], rebind := none }

/-- A change refused with a fit report: nothing is held for it (R111, R112). -/
def refuseFit (planId p : Nat) (es : List FitEntry) (s : State) : CmdRes :=
  let k := keepReport planId p es s
  .failWith k.1 St.fit k.2

/-- An accepted image in its slot: the plan LOADED with all that binding fills. -/
def placePlan (slot : Nat) (p : Plan) (s : State) : State :=
  let s := setPlan slot p (settleBuckets s)
  let s := bindCellValues slot p.bound s
  let s := p.image.refs.foldl (fillRef p) s
  refreshBound (startStreams slot p (applyLoads p (startTables slot p s)))

/-- An image that has passed the six steps, bound and checked (R90, R102, R70). -/
def bindPlan (m : Image) (avoid : List (BitVec 16)) (s : State) : CmdRes :=
  match (List.range 64).find? fun n => (plan? s n).isNone with
  | none => refuseFit m.id (period s) [shortfall 0xff 0xd 3 0 1 0xffff 0xffff] s
  | some slot =>
    let b := bindImage s slot avoid m
    let free := openFrames b.s { held := [], avoid := avoid } (coreDie b.taken)
    let need := planFrames m.length
    let p := newPlan m b.taken avoid (free.take need) (nowTick s)
    let short := b.short ++
      if need ≤ free.length then [] else [shortfall slot 6 1 (free.length * pageBytes) (need * pageBytes) 0xffff 0xffff]
    match short, fitCheck b.s [(slot, p)] (checkPeriods s) with
    | [], none => .ok (placePlan slot p b.s) (payload [.num 1 slot, .arr m.digest])
    | es, none => refuseFit m.id (period s) es s
    | es, some (per, fs) => refuseFit m.id per (es ++ fs) s

/-- An image read, validated and bound (R87, R88). -/
def loadImage (image length : Nat) (avoid : List (BitVec 16)) (s : State) : CmdRes :=
  match validate (readDva s image (min length 67108864)) length s.deviceNumber.toNat (dieHbm s.variant) (s.plans.map fun e => e.2.image) with
  | .inl o => .fail St.planFormat o
  | .inr m => bindPlan m avoid s

/-- The committed count of the receive stream a load names: one of the client that sent the request (R432). -/
def loadCommitted (s : State) (r : Req) (stream : Nat) : Nat :=
  match look r.mailbox.toNat s.links with
  | none => 0
  | some l => (committedOf s l.client.toNat l.ext stream).toNat

/-- The image of a load is present (R432). -/
def imagePresent (s : State) (r : Req) (stream count : Nat) : Bool := stream == 0xffff || decide (count ≤ loadCommitted s r stream)

/-- The command of a PLAN_LOAD request with a body. -/
def loadCmd (avoid : List (BitVec 16)) (body : State → CmdRes) : Cmd :=
  { op := 0x0201, pending := false, len := alignUp (24 + 2 * avoid.length) 8, bad := [(14, decide (64 < avoid.length))],
    units := ((List.range avoid.length).zip avoid).map fun e => (24 + 2 * e.1, e.2), body := body }

/-- What a load that need not wait does: the image must lie in session memory. -/
def loadBody (image length : Nat) (avoid : List (BitVec 16)) (s : State) : CmdRes :=
  if sessionRange s image length 0 then loadImage image length avoid s else .fail St.malformed 32

/-- PLAN_LOAD (R90, R432): it waits for its image and for every zeroing pending when it starts, then validates, binds and checks. -/
def execPlanLoad (r : Req) (image : BitVec 64) (length : BitVec 32) (stream : BitVec 16) (count : BitVec 64) (avoid : List (BitVec 16))
    (s : State) : Host.Outcome State Fault Refusal :=
  .next (goust r (loadCmd avoid fun s =>
    if !sessionRange s image.toNat length.toNat 0 then .fail St.malformed 32
    else if imagePresent s r stream.toNat count.toNat && s.zeroing.isEmpty then loadBody image.toNat length.toNat avoid s
    else .hold { s with heldLoads := s.heldLoads ++ [(.planLoad r image length stream count avoid, s.clk.cycle, s.zeroing.length)] }) s)

/-- A held load that waits no longer is carried out. -/
def retryLoad (s : State) (h : Instr × Nat × Nat) : State :=
  match h.1 with
  | .planLoad r image length stream count avoid =>
    if h.2.2 = 0 && imagePresent s r stream.toNat count.toNat then
      runCmd r (loadCmd avoid (loadBody image.toNat length.toNat avoid)) { s with heldLoads := s.heldLoads.erase h }
    else s
  | _ => s

/-- The held loads looked at again, oldest first. -/
def retryLoads (s : State) : State := s.heldLoads.foldl retryLoad s

/-- ZEROING_COMPLETE (R92): the oldest zeroing ends, and loads that waited for it may go on. -/
def execZeroingComplete (s : State) : Host.Outcome State Fault Refusal := .next (retryLoads (zeroingEnd s))

/-- A held load still waits for its image. -/
def waitsImage (s : State) (h : Instr × Nat × Nat) : Bool :=
  match h.1 with
  | .planLoad r _ _ stream count _ => !imagePresent s r stream.toNat count.toNat
  | _ => false

/-- IMAGE_INCOMPLETE: the oldest load that waits for its image has waited 100 ms (R432). -/
def execImageIncomplete (s : State) : Host.Outcome State Fault Refusal :=
  match s.heldLoads.find? (waitsImage s) with
  | none => .next s
  | some h => match h.1 with
    | .planLoad r _ _ stream _ _ =>
      let s := advanceTo (h.2.1 + 190000000) { s with heldLoads := s.heldLoads.erase h }
      .next (answer r 0x0201 St.imageIncomplete (loadCommitted s r stream.toNat) [] s)
    | _ => .next s

/-! ### Reading back (Table 13-7) -/

/-- FIT_REPORT_READ (R111): up to 3,520 bytes of the last fit report from an offset. -/
def execFitReportRead (r : Req) (offset : BitVec 32) (s : State) : Host.Outcome State Fault Refusal :=
  .next (goust r (icmd 0x0207 8 [] fun s =>
    match s.fitReport with
    | none => .fail St.noReport 0
    | some b => if b.length < offset.toNat then .fail St.noReport 0 else .ok s (padTo 8 (slice b offset.toNat 3520))) s)

/-- A plan's state as PLAN_READ gives it. -/
def planStateCode : PlanState → Nat
  | .loaded => 1
  | .active => 2
  | .retiring => 3

/-- PLAN_READ: an EMPTY slot reads as zero. -/
def execPlanRead (r : Req) (slot : Byte) (s : State) : Host.Outcome State Fault Refusal :=
  .next (goust r (icmd 0x0208 8 [(0, decide (63 < slot.toNat))] fun s =>
    match plan? s slot.toNat with
    | none => .ok s (payload [.num 1 0, .num 1 0, .num 8 0, .num 8 0, .arr (zeros 48)])
    | some p => .ok s (payload [.num 1 (planStateCode p.state), .num 1 (b2n p.rebind.isSome), .num 8 p.image.id, .num 8 p.changed,
        .arr p.image.digest])) s)

/-- The base DVA of a bound id, or 0. -/
def bindingBase (b : Bound) : Nat := if [2, 4, 5, 6].contains b.kind then b.base else if b.kind = 1 then padDva b.index 0 else 0

/-- BINDING_READ: the bindings of one kind in ascending order of abstract id, at most 220. -/
def execBindingRead (r : Req) (slot kind : Byte) (first : BitVec 16) (s : State) : Host.Outcome State Fault Refusal :=
  .next (goust r (icmd 0x0209 8 [(0, decide (63 < slot.toNat)), (1, kind == 0 || decide (13 < kind.toNat))] fun s =>
    match plan? s slot.toNat with
    | none => .fail St.planState 0
    | some p =>
      let bs := sortBy (fun a b => decide (a.absId < b.absId)) (p.bound.filter fun b => b.kind == kind.toNat && decide (first.toNat ≤ b.absId))
      let bs := bs.take 220
      .ok s (payload [.num 2 bs.length, .elems (bs.map fun b => element [.num 2 b.absId, .num 2 b.unit, .num 4 0, .num 8 (bindingBase b)])])) s)

end Sys2Proof.Machine
end

