-- ==== Sys2Proof/Machine/PlanCmds.lean ====
section
/-! DEFINITION. Unloading, activating and retiring a plan, and the copies that activation waits for (R101, R103, R104, R110, R225). -/

namespace Sys2Proof.Machine

/-- A pending command acts on a plan slot. -/
def slotPending (slot : Nat) : PendKind → Bool
  | .activate n => n == slot
  | .retire n => n == slot
  | .rebind n => n == slot
  | .replace n _ _ => n == slot
  | .stats n _ _ => n == slot
  | .reset k n => k == 2 && n == slot
  | _ => false

/-- A plan slot named in a payload byte at offset 0. -/
def slotBad (slot : Byte) : List (Nat × Bool) := [(0, decide (63 < slot.toNat))]

/-- An action of a kind is requested for a plan and not yet carried out. -/
def requested (s : State) (a : Action) : Bool := s.actions.any fun x => x.act == a

/-- PLAN_UNLOAD (R103): a LOADED plan gives everything back; an activation still requested is dropped, and its pending commands end ABANDONED. -/
def execPlanUnload (r : Req) (slot : Byte) (s : State) : Host.Outcome State Fault Refusal :=
  .next (goust r (icmd 0x0202 8 (slotBad slot) fun s =>
    match plan? s slot.toNat with
    | none => .fail St.planState 0
    | some p =>
      if p.state ≠ .loaded then .fail St.planState 0
      else .ok (finalAnswer (slotPending slot.toNat) St.abandoned 0 [] (unloadPlan slot.toNat s)) []) s)

/-! ### The copies before activation (R101, R225) -/

/-- The references of a plan whose region holds a copy on every die (R225). -/
def replicaRefs (p : Plan) : List Ref := p.image.refs.filter fun r => r.place == 1 && r.hbm != 0xffff && r.addr == 0

/-- The die that the host loads a replicated reference on: that of its first copy. -/
def homeDie (p : Plan) (r : Ref) : Nat := ((boundOf p 5 r.hbm).map (·.index)).getD 0

/-- A copy of a replicated reference is still to come. -/
def replicasMissing (p : Plan) : Bool :=
  (replicaRefs p).any fun r => (List.range 4).any fun d => d != homeDie p r && !p.replicas.contains (r.absId, d)

/-- The cores on which a pad copy of a reference lies (R101). -/
def padCores (p : Plan) (absId : Nat) : List Nat :=
  dedup ((p.image.ligatures.filter fun l => l.stages.any fun st => (stageRefs p st).contains absId).filterMap fun l => coreOf p l.core)

/-- A pad copy is still to come. -/
def padsMissing (p : Plan) : Bool :=
  (p.image.refs.filter (·.pad)).any fun r => (padCores p r.absId).any fun n => !p.padCopies.contains (r.absId, n)

/-- An owner entry of a plan's POOL references is unset (R223). -/
def ownersUnset (s : State) (slot : Nat) (p : Plan) : Bool :=
  (p.image.refs.filter fun r => r.kind == 1 && r.place == 0).any fun r => (tableOf s slot r.absId).owners.any fun o => !o.isSet

/-- What keeps a plan from activation, as the NOT_READY detail. -/
def notReady (s : State) (slot : Nat) (p : Plan) : Option Nat :=
  if ownersUnset s slot p then some 1 else if replicasMissing p then some 2 else if padsMissing p then some 3 else none

/-- REPLICA_COPY_COMPLETE (R225): a die's copy of a replicated reference holds what the host's copy holds. -/
def execReplicaCopyComplete (slot : BitVec 6) (ref : BitVec 16) (die : BitVec 2) (s : State) : Host.Outcome State Fault Refusal :=
  match plan? s slot.toNat with
  | none => .next s
  | some p =>
    match (replicaRefs p).find? fun r => r.absId == ref.toNat with
    | none => .next s
    | some r =>
      match boundOf p 5 r.hbm, p.bound.find? fun b => b.kind == 5 && b.absId == r.hbm && b.index == die.toNat with
      | some a, some b =>
        if homeDie p r = die.toNat || p.state != .loaded then .next s
        else
          let off := refOffset p.image.refs r
          let s := writeDva s (b.base + off) (readDva s (a.base + off) r.size)
          .next (setPlan slot.toNat { p with replicas := if p.replicas.contains (r.absId, die.toNat) then p.replicas
            else p.replicas ++ [(r.absId, die.toNat)] } s)
      | _, _ => .next s

/-- PAD_COPY_COMPLETE (R101): a core's pad copy of a reference holds what its HBM copy holds. -/
def execPadCopyComplete (slot : BitVec 6) (ref : BitVec 16) (core : BitVec 9) (s : State) : Host.Outcome State Fault Refusal :=
  match plan? s slot.toNat with
  | none => .next s
  | some p =>
    match p.image.refs.find? fun r => r.absId == ref.toNat && r.pad with
    | none => .next s
    | some r =>
      if !(padCores p r.absId).contains core.toNat then .next s
      else
        let s := writeDva s (padDva core.toNat r.padOff) (fit (alignUp r.size 256) (refBytes s p r.absId 0 r.size))
        .next (setPlan slot.toNat { p with padCopies := if p.padCopies.contains (r.absId, core.toNat) then p.padCopies
          else p.padCopies ++ [(r.absId, core.toNat)] } s)

/-! ### Activation and retirement requested (R104) -/

/-- An action requested, behind those requested before it (R68). -/
def request (a : Action) (s : State) : State := { s with actions := s.actions ++ [⟨a, false, false⟩] }

/-- PLAN_ACTIVATE (R103, R104): a second one while the first is pending waits for the same activation (assumption log 193). -/
def execPlanActivate (r : Req) (slot : Byte) (s : State) : Host.Outcome State Fault Refusal :=
  .next (goust r (pcmd 0x0203 8 (slotBad slot) fun s =>
    match plan? s slot.toNat with
    | none => .fail St.planState 0
    | some p =>
      if p.state ≠ .loaded then .fail St.planState 0
      else match notReady s slot.toNat p with
      | some d => .fail St.notReady d
      | none => .accept (if requested s (.activation slot.toNat) then s else request (.activation slot.toNat) s) (.activate slot.toNat) []) s)

/-- PLAN_RETIRE (R103, R104): the plan is RETIRING until its retirement commits. -/
def execPlanRetire (r : Req) (slot : Byte) (s : State) : Host.Outcome State Fault Refusal :=
  .next (goust r (pcmd 0x0204 8 (slotBad slot) fun s =>
    match plan? s slot.toNat with
    | none => .fail St.planState 0
    | some p =>
      if p.state ≠ .active then .fail St.planState 0
      else
        let s := setPlan slot.toNat { p with state := .retiring, changed := nowTick s } s
        .accept (request (.retirement slot.toNat false) s) (.retire slot.toNat) []) s)

/-- The pending exclusions that a plan's resources still stand in the way of. -/
def blockedExclusions (s : State) (slot : Nat) : List (List (BitVec 16)) :=
  match plan? s slot with
  | some p => s.exclusions.filter fun us => p.bound.any (onUnit s us)
  | none => []

/-- A pending rebind cancelled (R110); the exclusion that started it is dropped with it (assumption log 112). -/
def cancelRebind (slot : Nat) (s : State) : State :=
  let gone := if ((plan? s slot).bind (·.rebind)).any (·.exclusion) then blockedExclusions s slot else []
  let s := dropRebind slot { s with exclusions := s.exclusions.filter fun us => !gone.contains us }
  finalAnswer (fun k => match k with | .exclude us => gone.contains us | .rebind n => n == slot | _ => false) St.abandoned 0 [] s

/-- REBIND_CANCEL (R110): a pending rebind whose commit has not been admitted is dropped, and the REBIND ends ABANDONED. -/
def execRebindCancel (r : Req) (slot : Byte) (s : State) : Host.Outcome State Fault Refusal :=
  .next (goust r (icmd 0x0206 8 (slotBad slot) fun s =>
    match plan? s slot.toNat with
    | none => .fail St.planState 0
    | some p =>
      if p.rebind.isNone || s.actions.any fun a => a.act == .rebindCommit slot.toNat && a.admitted then .fail St.planState 0
      else .ok (cancelRebind slot.toNat s) []) s)

end Sys2Proof.Machine
end

