-- ==== Sys2Proof/Machine/Rebind.lean ====
section
/-! DEFINITION. Rebinding: the request, its copies and its commit (R105 to R110, R254, R315, R319, R483). -/

namespace Sys2Proof.Machine

/-! ### The new places (R105) -/

/-- The request of an image that defines an abstract id of a kind. -/
def requestOf (m : Image) (kind absId : Nat) : Option Request :=
  m.requests.find? fun r => r.kind == kind && decide (r.absId ≤ absId) && decide (absId < r.absId + requestIds r)

/-- The listed ids in the order in which the image's requests bind them: within cores that name one of themselves, that one first. -/
def inImageOrder (m : Image) (ids : List (Nat × Nat)) : List (Nat × Nat) :=
  m.requests.flatMap fun r =>
    let rank : Nat × Nat → Nat := fun e => if r.kind = 1 ∧ e.2 = r.near then 0 else e.2 + 1
    sortBy (fun a b => decide (rank a < rank b)) (dedup (ids.filter fun e => e.1 == r.kind && decide (r.absId ≤ e.2) && decide (e.2 < r.absId + requestIds r)))

/-- The places that some ids leave. -/
def leaving (p : Plan) (ids : List (Nat × Nat)) : List Bound :=
  ids.flatMap fun e => p.bound.filter fun b => b.kind == e.1 && b.absId == e.2

/-- The listed ids bound again with the plan's other resources fixed (R90, R105); the places they leave stay taken. -/
def moveIds (s : State) (slot : Nat) (p : Plan) (ids : List (Nat × Nat)) (avoid : List (BitVec 16)) : Binding :=
  let olds := leaving p ids
  let fixed := p.bound.filter fun b => !olds.contains b
  let a : Avail := { held := heldBounds s slot ++ olds.map fun b => if b.kind = 1 then { b with base := 0 } else b, avoid := avoid,
                     together := togetherOf p.image, copies := copiesOf p.image }
  let rs := ids.filterMap fun e => (requestOf p.image e.1 e.2).map fun r =>
    { r with absId := e.2, amount := if countedKind r.kind then 1 else r.amount }
  let b := rs.foldl (bindOne slot a) { s := s, taken := fixed, short := [] }
  addShort b (matchShorts slot p.image b.taken ++ landingShorts slot p.image b.taken)

/-- The places a binding adds to those that stay. -/
def newPlaces (p : Plan) (ids : List (Nat × Nat)) (b : Binding) : List Bound :=
  b.taken.drop (p.bound.filter fun x => !(leaving p ids).contains x).length

/-- A plan as a rebind would leave it. -/
def reboundPlan (p : Plan) (b : Binding) : Plan := { p with bound := b.taken, rebind := none }

/-! ### Migrate or drop (R105, R106) -/

/-- A Reservoir part is dropped: as the request says, or else as its RQ_MIGRATE does. -/
def isDropped (p : Plan) (action : Nat → Nat) (b : Bound) : Bool :=
  b.kind == 4 && (action b.absId == 2 || (action b.absId == 0 && !(requestOf p.image 4 b.absId).any (·.migrate)))

/-- A join or group operation has a build open that may spill into a part (R106). -/
def spillOpen (s : State) (slot : Nat) (p : Plan) (part : Nat) : Bool :=
  p.image.ligatures.any fun l => l.stages.any fun st =>
    st.engine == 1 && decide (2 ≤ st.op) && decide (st.op ≤ 5) &&
      (let j := joinAt p.image.blob st.param
       j.spill == part && ((look (slot, j.table) s.joins).any fun x => !x.rows.isEmpty || !x.partials.isEmpty))

/-- The dropped join spill parts with an open build. -/
def spillShorts (s : State) (slot : Nat) (p : Plan) (drops : List Bound) : List FitEntry :=
  (drops.filter fun b => b.subkind == 3 && spillOpen s slot p b.absId).map fun b => shortfall slot 0xf 3 0 0 b.unit b.absId

/-! ### Mirrored writes (R106) -/

/-- The places of some references' rows: their regions and their Reservoir parts. -/
def rowPlaces (p : Plan) (rs : List Ref) : List Bound :=
  p.bound.filter fun b => rs.any fun r => (b.kind == 5 && b.absId == r.hbm) || (b.kind == 4 && b.absId == (tableDesc p r).resPart)

/-- The bound resources that a ruled task of a plan writes: a stream's destination, the landing buffers of a serve task, the rows that a combiner
window drains into; for a ligature its core, the rings of its write Feeds, and the spill parts of its joins and groupings. -/
def writtenBounds (p : Plan) (c : Cert) : List Bound :=
  if c.kind = 2 then
    match c.unitKind, p.image.streams[c.index]? with
    | 0xd, _ => rowPlaces p (updatedRefs p)
    | _, some d =>
      if d.kind = 2 then (rowPlaces p (refOf p d.srcAbs).toList).filter fun b => b.kind == 4 else (sideBound p d.dstKind d.dstAbs).toList
    | _, none => []
  else
    (ligOf p c.index).toList.flatMap fun l =>
      (boundOf p 1 l.core).toList ++ l.stages.flatMap fun st =>
        stageMoves p l.core st false ++
          if st.engine = 1 && decide (2 ≤ st.op) && decide (st.op ≤ 5) then (boundOf p 4 (joinAt p.image.blob st.param).spill).toList else []

/-- The die of a ruled task. -/
def certDie (p : Plan) (c : Cert) : Nat := (taskDie p c).getD 0

/-- The charges of the writes of a plan's ruled tasks to moved places, against the new places (R106). -/
def mirrorCharges (s : State) (p new : Plan) (olds : List Bound) : List Charge :=
  (List.range p.image.certs.length).flatMap fun i => match p.image.certs[i]? with
    | none => []
    | some c =>
      if c.kind = 3 then []
      else
        let ws := (writtenBounds p c).filter olds.contains
        (transfersOf p.image.certs i).flatMap fun t =>
          if ws.any fun b => b.kind % 16 == t.unitKind && b.absId == t.unit then
            (certBound new t).toList.flatMap fun b =>
              ((bwOf s [1] b (chargedBytes new c b t.bytes).1).map fun e =>
                (⟨e.1, b.index, t.tStart, t.tEnd, e.2⟩ : Charge)) ++
                (linksIn s [1] (certDie new c) (boundDie b)).map fun l => ⟨l, 0, t.tStart, t.tEnd, (chargedBytes new c b t.bytes).2⟩
          else []

/-- Every ruled charge of the bound plans. -/
def boundCharges (s : State) (changed : List (Nat × Plan)) : List Charge :=
  (boundAfter s changed).flatMap fun e => (fitTasks s e.1 e.2).flatMap (·.charges)

/-! ### The copy time (R107) -/

/-- The peak of a bandwidth unit in tenths of a byte per cycle (Table 2-4), a Reservoir's less what is held for Dip (R107). -/
def copyPeak (u : BwUnit) : Nat :=
  match u.kind with
  | 1 => 2560 | 2 => 10240 | 4 => 30720 | 5 => 10779 | _ => 16842

/-- The cycles that `bytes` take over a unit with what its ruled charges leave; none where they leave nothing, or the host has excluded it. -/
def unitCycles (s : State) (cs : List Charge) (bytes : Nat) (u : BwUnit) : Option Nat :=
  let r := peakOf (cs.filter fun c => c.bw == u)
  let num := copyPeak u * r.2 - 10 * r.1
  if num = 0 || (u.kind == 13 && isExcluded s u.unit) then none else some (ceilDiv (bytes * 10 * r.2) num)

/-- The bytes to copy between places, by the bandwidth units on their path; an HBM region's page by page. -/
def copyPaths (s : State) (pairs : List (Bound × Bound)) : List (List BwUnit × Nat) :=
  pairs.flatMap fun e =>
    let links := (linksOf s (boundDie e.1) (boundDie e.2)).map fun l => (⟨13, 0, l⟩ : BwUnit)
    let unit : Bound → Nat → List BwUnit := fun b i => (regionPages s b.index [{ b with base := b.base + i * pageBytes, size := pageBytes }]).head?.toList.map
      fun c => ⟨5, 0, c.1⟩
    if e.1.kind = 5 then
      (List.range (e.1.size / pageBytes)).map fun i => (unit e.1 i ++ unit e.2 i ++ links, pageBytes)
    else
      [((bwOf s [0] e.1 0).map (·.1) ++ (bwOf s [1] e.2 0).map (·.1) ++ links, if e.1.kind = 1 then padBytes else e.1.size)]

/-- The MOVED and RETURNING blocks of a hot tier's instance: table and block. -/
def hotHeld (s : State) (slot : Nat) (part : Bound) : List (TableCtx × Nat) :=
  ((planTables s slot).filter fun c => c.d.resPart == part.absId).flatMap fun c =>
    ((List.range (tableOf s slot c.ref).owners.length).filter fun i =>
      ((tableOf s slot c.ref).owners[i]?).any fun o => (o.state == 2 || o.state == 3) && o.die == part.index).map fun i => (c, i)

/-- The bytes of a block. -/
def hotBlockBytes (c : TableCtx) (block : Nat) : Nat := (blockRows c block).2 * c.d.stride

/-- The write-backs of dropped hot tiers by path. -/
def writeBackPaths (s : State) (slot : Nat) (drops : List Bound) : List (List BwUnit × Nat) :=
  drops.flatMap fun part => (hotHeld s slot part).filterMap fun e =>
    match blockPlaces s e.1 e.2 with
    | some (home, _) =>
      let die := home % 2 ^ 53 / dieHbm s.variant
      let u : BwUnit := ⟨5, 0, uid die 12 1 (frameController (home % 2 ^ 53 / pageBytes)) 0⟩
      some ([⟨4, 0, uid part.index 12 0 0 0⟩, u] ++ (linksOf s part.index die).map (fun l => (⟨13, 0, l⟩ : BwUnit)), hotBlockBytes e.1 e.2)
    | none => none

/-- The bytes of each path together. -/
def pathTotals (ps : List (List BwUnit × Nat)) : List (List BwUnit × Nat) :=
  (dedup (ps.map (·.1))).map fun u => (u, total ((ps.filter fun e => e.1 == u).map (·.2)))

/-- C of R107; the largest number of its field where the ruled charges leave nothing of a unit. -/
def copyCycles (s : State) (cs : List Charge) (ps : List (List BwUnit × Nat)) : Nat :=
  (pathTotals ps).foldl (fun m e => e.1.foldl (fun m u => max m ((unitCycles s cs e.2 u).getD (2 ^ 63))) m) 0

/-- The places copied: every region that moves but the dropped parts. -/
def copiedPairs (olds news drops : List Bound) : List (Bound × Bound) :=
  (((olds.filter fun b => b.kind != 3).zip (news.filter fun b => b.kind != 3)).filter fun e =>
    [1, 2, 4, 5].contains e.1.kind && !drops.contains e.1)

/-! ### REBIND -/

/-- A rebind worked out: the binding, the places, the drops, C, and the shortfalls with the period they were found at. -/
structure RebindPlan where
  b : Binding
  olds : List Bound
  news : List Bound
  drops : List Bound
  c : Nat
  per : Nat
  short : List FitEntry

/-- The rebinds of other plans whose commits come first (R108). -/
def rebindsAhead (s : State) (slot : Nat) : Nat := (s.plans.filter fun e => e.1 != slot && e.2.rebind.isSome).length

/-- A rebind of some ids of a plan worked out (R105 to R107); where a place is short, the fit check over the places found follows it in the
report (R111). -/
def rebindPlan (s : State) (slot : Nat) (p : Plan) (ids : List (Nat × Nat)) (action : Nat → Nat) (avoid : List (BitVec 16)) : RebindPlan :=
  let ids := inImageOrder p.image ids
  let b := moveIds s slot p ids avoid
  let olds := leaving p ids
  let news := newPlaces p ids b
  let drops := olds.filter (isDropped p action)
  let new := reboundPlan p b
  let (per, es) := (fitCheck b.s [(slot, new)] (checkPeriods s)).getD (period s, [])
  if !b.short.isEmpty then ⟨b, olds, news, drops, 0, per, b.short ++ es ++ spillShorts s slot p drops⟩
  else
    let cs := boundCharges b.s []
    let mirror := mirrorCharges b.s p new olds
    let extra := spillShorts s slot p drops ++ if mirror.isEmpty then [] else bandShorts b.s (cs ++ mirror)
    let c := copyCycles b.s cs (copyPaths b.s (copiedPairs olds news drops) ++ writeBackPaths b.s slot (drops.filter fun x => x.subkind == 1))
    ⟨b, olds, news, drops, c, per, es ++ extra⟩

/-- The COPYING migrations inside moved Reservoir parts back at HOME (R106). -/
def haltMigrations (slot : Nat) (olds : List Bound) (s : State) : State :=
  (planTables s slot).foldl (fun s c =>
    if olds.any fun b => b.kind == 4 && b.absId == c.d.resPart then
      ((tableOf s slot c.ref).migrations.filter fun m => ((tableOf s slot c.ref).owners[m.block]?).any fun o => o.state == 1).foldl
        (fun s m => abortCopy c m.block s) s
    else s) s

/-- A rebind accepted: its new places held, its copies begun (R106). -/
def acceptRebind (slot : Nat) (x : RebindPlan) (exclusion : Bool) (s : State) : State :=
  match plan? s slot with
  | none => s
  | some p => haltMigrations slot x.olds (setPlan slot { p with rebind := some ⟨x.olds, x.news, x.drops, false, exclusion⟩ } s)

/-- The tick in progress `cycles` from now, at the present period. -/
def tickAfter (s : State) (cycles : Nat) : Nat := nowTick s + (s.clk.cycle + cycles - s.clk.edge) / max 1 (period s)

/-- REBIND's fields outside their sets, by payload offset. -/
def rebindBad (s : State) (slot flags : Byte) (moves : List RebindItem) (avoid : List (BitVec 16)) : List (Nat × Bool) :=
  [(0, decide (63 < slot.toNat)), (1, decide (1 < flags.toNat)), (4, decide (64 < avoid.length))] ++
    ((List.range moves.length).zip moves).flatMap fun e =>
      let o := 8 + 4 * e.1
      let known := match plan? s slot.toNat with
        | some p => defined p.image e.2.kind.toNat e.2.absId.toNat
        | none => true
      [(o, !known), (o + 2, e.2.kind == 0 || decide (13 < e.2.kind.toNat)), (o + 3, decide (2 < e.2.action.toNat))]

/-- REBIND (R105 to R109). -/
def execRebind (r : Req) (slot flags : Byte) (moves : List RebindItem) (avoid : List (BitVec 16)) (s : State) :
    Host.Outcome State Fault Refusal :=
  let at0 := alignUp (8 + 4 * moves.length) 8
  .next (goust r
    { op := 0x0205, pending := true, len := alignUp (at0 + 2 * avoid.length) 8, bad := rebindBad s slot flags moves avoid,
      units := ((List.range avoid.length).zip avoid).map fun e => (at0 + 2 * e.1, e.2),
      body := fun s =>
        match plan? s slot.toNat with
        | none => .fail St.planState 0
        | some p =>
          if p.state == .retiring then .fail St.planState 0
          else if p.rebind.isSome then .fail St.rebindPending 0
          else
            let action : Nat → Nat := fun id => ((moves.find? fun m => m.kind == 4 && m.absId.toNat == id).map (·.action.toNat)).getD 0
            let x := rebindPlan s slot.toNat p (moves.map fun m => (m.kind.toNat, m.absId.toNat)) action avoid
            let latest := x.c + (rebindsAhead s slot.toNat + 1) * period s
            let late := if flags.toNat % 2 = 1 || decide (latest ≤ 9500000) || !x.b.short.isEmpty then []
              else [{ shortfall slot.toNat 0xe 2 9500000 latest 0xffff 0xffff with task := 0xffffffff }]
            match x.short ++ late with
            | [] => .accept (acceptRebind slot.toNat x false x.b.s) (.rebind slot.toNat)
                (payload [.num 8 x.c, .num 8 (tickAfter s latest)])
            | es => refuseFit p.image.id x.per es s } s)

/-- A block of a hot tier written back to its home, which it is again (R106, R498). -/
def writeBack (s : State) (e : TableCtx × Nat) : State :=
  let c := e.1
  match blockPlaces s c e.2 with
  | some (home, hot) =>
    let s := { s with mem := copyCells s.mem hot (hotBlockBytes c e.2) home }
    let t := tableOf s c.slot c.ref
    setTable c.slot c.ref { t with migrations := t.migrations.filter fun m => m.block != e.2,
                                   owners := modifyAt (fun o => { o with state := 0, die := 0, slot := 0 }) e.2 t.owners }
      { s with actions := s.actions.filter fun a => match a.act with
          | .cutover sl r row _ => !(sl == c.slot && r == c.ref && c.block row == e.2)
          | _ => true }
  | none => s

/-- REBIND_COPY_COMPLETE (R106, R108): the write-backs are done and the commit is requested. -/
def execRebindCopyComplete (slot : BitVec 6) (s : State) : Host.Outcome State Fault Refusal :=
  match plan? s slot.toNat with
  | none => .next s
  | some p => match p.rebind with
    | none => .next s
    | some r =>
      if r.copied then .next s
      else
        let s := setPlan slot.toNat { p with rebind := some { r with copied := true } } s
        let s := ((r.drops.filter fun b => b.subkind == 1).flatMap (hotHeld s slot.toNat)).foldl writeBack s
        .next (request (.rebindCommit slot.toNat) s)

/-! ### REBIND_COMMIT (R108) -/

/-- What moves at a commit. -/
structure Moving where
  (slot : Nat)
  (pairs : List (Bound × Bound))

/-- Where a DVA of a moved region goes. -/
def Moving.dva (x : Moving) (a : Nat) : Nat :=
  match x.pairs.find? fun e => [1, 2, 4, 5].contains e.1.kind &&
      (let o := if e.1.kind = 1 then padDva e.1.index 0 else e.1.base
       decide (o ≤ a) && decide (a < o + e.1.size)) with
  | some (b, d) => if b.kind = 1 then a - padDva b.index 0 + padDva d.index 0 else a - b.base + d.base
  | none => a

/-- The bytes of a moved region copied to its new place. -/
def copyRegion (s : State) (e : Bound × Bound) : State :=
  match e.1.kind with
  | 1 => { s with mem := copyCells s.mem (padDva e.1.index 0) padBytes (padDva e.2.index 0) }
  | 2 => { s with mem := copyCells s.mem e.1.base e.1.size e.2.base }
  | 4 => { s with mem := copyCells s.mem e.1.base e.1.size e.2.base }
  | 5 => (List.range (e.1.size / pageBytes)).foldl (fun s i =>
      match translate s (e.1.base + i * pageBytes), translate s (e.2.base + i * pageBytes) with
      | some a, some b => { s with mem := copyCells s.mem a pageBytes b }
      | _, _ => s) s
  | _ => s

/-- The packets of a moved queue hold cells of its new pool. -/
def recell (s : State) (from' to' : Nat) (y : Queue) : Queue :=
  if from' / 1024 = to' / 1024 then y
  else
    let r := y.pkts.foldl (fun (a : List Nat × List Packet) p =>
      let cs := pickCells p.cells.length a.1 (Config.cell s.freeCtr)
      (a.1 ++ cs, a.2 ++ [{ p with cells := cs }])) (poolUsed s (to' / 1024), [])
    { y with pkts := r.2 }

/-- A queue moved with its packets, its waits and the transport streams that name it. -/
def moveQueue (s : State) (e : Bound × Bound) : State :=
  let mv : Nat → Nat := fun q => if q = e.1.index then e.2.index else q
  match queue? s e.1.index with
  | none => s
  | some y =>
    let y := recell s e.1.index e.2.index y
    { s with
      queues := put e.2.index y (del e.1.index s.queues)
      queueWaits := s.queueWaits.map fun w => (mv w.1, w.2)
      hostSigs := s.hostSigs.map fun h => if h.queue then { h with num := mv h.num } else h
      parked := s.parked.map fun p => if p.queue then { p with num := mv p.num } else p
      tx := s.tx.map fun t => { t with queue := mv t.queue }
      rx := s.rx.map fun r => match r.dest with | .queue q => { r with dest := .queue (mv q) } | .window _ _ => r }

/-- A signal cell moved with its waits. -/
def moveCell (s : State) (e : Bound × Bound) : State :=
  let mv : Nat → Nat := fun n => if n = e.1.index then e.2.index else n
  { s with
    cells := put e.2.index (cell s e.1.index) (del e.1.index s.cells)
    regHeld := s.regHeld.map fun w => (mv w.1, w.2)
    parked := s.parked.map fun p => if p.queue then p else { p with num := mv p.num }
    remote := s.remote.map fun r => { r with cell := mv r.cell }
    hostSigs := s.hostSigs.map fun h => if h.queue then h else { h with num := mv h.num }
    blot := { s.blot with notice := s.blot.notice.filter fun n => n != e.1.index } }

/-- Match entries and row tags moved. -/
def moveMatch (s : State) (e : Bound × Bound) : State :=
  let u := matchUnit s e.1.index
  let es := (u.entries.filter fun x => decide (e.1.base ≤ x.1) && decide (x.1 < e.1.base + e.1.size)).map fun x => (x.1 - e.1.base + e.2.base, x.2)
  let ts := (u.tags.filter fun x => decide (e.1.base / 64 ≤ x.1) && decide (x.1 < (e.1.base + e.1.size) / 64)).map fun x =>
    (x.1 - e.1.base / 64 + e.2.base / 64, x.2)
  let v := matchUnit s e.2.index
  { s with matchUnits := put e.2.index { entries := v.entries ++ es, tags := v.tags ++ ts } s.matchUnits }

/-- A waiter's task on its new core. -/
def moveWaiter (mv : Nat → Nat) (w : Waiter) : Waiter :=
  match w.what with
  | .task t => { w with unit := coreUid (mv t.core) 7, what := .task { t with core := mv t.core } }
  | _ => w

/-- The ruled releases of a plan that a move of their core removes, waiting ones among them, and the plan's margin tasks off the old core's
list: CANCEL records for the first (R81); the others on the list of the new core, with READY records where that is another cluster's (R82,
assumption log 194). -/
def moveTasks (slot old new : Nat) (s : State) : State :=
  let mine : Task → Bool := fun t => t.slot == slot && t.core == old
  let waits : Waiter → Option Task := fun w => match w.what with | .task t => if mine t && t.ruled then some t else none | _ => none
  let mt : Task → Task := fun t => { t with core := new }
  let c := cluster s (old / 8)
  let listed := c.ready.filter fun t => mine t && !t.ruled
  let run := (c.running.filter fun r => mine r.task && !r.task.ruled).map fun r => { mt r.task with suspended := some s.clk.cycle,
                                                                                                    ran := r.task.ran + (s.clk.cycle - r.since) }
  let held := (c.held.filter fun h => mine h.task).map fun h => { h with task := mt h.task }
  let gone := (c.ready ++ c.releaseWait).filter (fun t => mine t && t.ruled) ++ (allWaiters s).filterMap waits
  let s := setCluster (old / 8) { c with ready := c.ready.filter fun t => !mine t, running := c.running.filter fun r => !mine r.task,
                                         releaseWait := c.releaseWait.filter fun t => !mine t, held := c.held.filter fun h => !mine h.task } s
  let s := { s with cells := s.cells.map fun e => (e.1, { e.2 with waiters := e.2.waiters.filter fun w => (waits w).isNone }),
                    regHeld := s.regHeld.filter fun e => (waits e.2).isNone, parked := s.parked.filter fun p => (waits p.waiter).isNone }
  let s := gone.foldl (fun s t => listEvent (old / 8) t 3 0 s) s
  let s := if old / 8 = new / 8 then setCluster (old / 8) { cluster s (old / 8) with ready := (cluster s (old / 8)).ready ++ listed.map mt } s
    else listed.foldl (fun s t => if t.suspended.isSome then relist (mt t) s else offerMargin 11 (mt t) s) s
  let s := run.foldl (fun s t => relist t s) s
  let s := setCluster (new / 8) { cluster s (new / 8) with held := (cluster s (new / 8)).held ++ held } s
  noteReserves (admitWaiting (old / 8) (cluster s (old / 8)).releaseWait.length s)

/-- A core moved: its tasks, the record groups in its nibs, the waits registered for its tasks, and its partials. -/
def moveCore (slot : Nat) (s : State) (e : Bound × Bound) : State :=
  let old := e.1.index
  let new := e.2.index
  let mv : Nat → Nat := fun n => if n = old then new else n
  let s := moveTasks slot old new s
  let mw : Waiter → Waiter := fun w => match w.what with
    | .task t => if t.slot == slot && t.core == old then moveWaiter mv w else w
    | _ => w
  let gs := (List.range 8).flatMap fun n => ((look (old * 8 + n) s.nibs).getD []).filter fun g => g.slot == slot
  { s with
    nibs := if gs.isEmpty then s.nibs else (List.range 8).foldl (fun l n =>
      let a := (look (old * 8 + n) s.nibs).getD []
      let mineG := a.filter fun g => g.slot == slot
      if mineG.isEmpty then l
      else put (new * 8 + n) (((look (new * 8 + n) l).getD []) ++ mineG) (put (old * 8 + n) (a.filter fun g => g.slot != slot) l)) s.nibs
    cells := s.cells.map fun x => (x.1, { x.2 with waiters := x.2.waiters.map mw })
    regHeld := s.regHeld.map fun x => (x.1, mw x.2)
    parked := s.parked.map fun x => { x with waiter := mw x.waiter }
    joins := s.joins.map fun x => if x.1.1 = slot then
        let source : Nat → Nat := fun k => mv (k / 65536) * 65536 + k % 65536
        (x.1, { x.2 with partials := x.2.partials.map fun y => (source y.1, y.2), excluded := x.2.excluded.map fun y => (source y.1, y.2),
                         inputs := x.2.inputs.map fun y => (source y.1, y.2) })
      else x
    stats := s.stats.map fun x => if x.1.1 = slot then
        (x.1, { x.2 with partials := x.2.partials.map fun y => { y with core := mv y.core },
                         cores := x.2.cores.map fun y => (mv y.1, y.2) })
      else x }

/-- The streams of a plan after its resources have moved: those whose ring moved are cancelled (R319), the others go on at the moved
addresses. -/
def moveStreams (x : Moving) (new : Plan) (s : State) : State :=
  let old := plan? s x.slot
  let ringMoved : Stream → Bool := fun st => match old.bind fun p => ringBase p st.desc, ringBase (some new) st.desc with
    | some a, some b => a != b
    | _, _ => false
  let s := ((s.streams.filter fun e => e.1.1 == x.slot && ringMoved e.2).map (·.1)).foldl (fun s k =>
    match stream? s k with
    | some st => if st.state == .running || st.state == .halted then cancelStream k s else s
    | none => s) s
  { s with streams := s.streams.map fun e =>
      if e.1.1 = x.slot then
        (e.1, { e.2 with unit := streamUnit new e.1.2, transfers := e.2.transfers.map fun t => { t with dva := x.dva t.dva },
                         fault := e.2.fault.map fun f => { f with dva := x.dva f.dva } })
      else e }

/-- The owner entries of a plan's tables after its regions have moved: homes in moved frames (R223), hot slots on their new die. -/
def moveOwners (x : Moving) (frames : List (Nat × Nat)) (s : State) : State :=
  let home : Nat → Nat := fun h =>
    if h / 2 ^ 47 = s.deviceNumber.toNat then
      match look (h % 2 ^ 47 / pageBytes) frames with
      | some f => h / 2 ^ 47 * 2 ^ 47 + f * pageBytes + h % pageBytes
      | none => h
    else h
  (planTables s x.slot).foldl (fun s c =>
    let t := tableOf s x.slot c.ref
    let die : Nat → Nat := fun d =>
      ((x.pairs.find? fun e => e.1.kind == 4 && e.1.absId == c.d.resPart && e.1.index == d).map (·.2.index)).getD d
    setTable x.slot c.ref { t with owners := t.owners.map fun o =>
      { o with home := if o.isSet then home o.home else o.home, die := if o.state = 0 then o.die else die o.die } } s) s

/-- A Reservoir part's contents outside memory: Dip rows go with a migrated partition and are gone with a dropped one, and a dropped
cache is empty (R106). -/
def movePart (slot : Nat) (drops : List Bound) (s : State) (e : Bound × Bound) : State :=
  if e.1.kind ≠ 4 then s
  else if drops.contains e.1 then
    match e.1.subkind with
    | 0 => { s with caches := del (slot, e.1.absId) s.caches }
    | 2 => { s with dips := s.dips.map fun d => if d.1 = e.1.index then (d.1, { d.2 with rows := d.2.rows.filter fun r => r.slot != slot }) else d }
    | _ => s
  else if e.1.subkind = 2 && e.1.index != e.2.index then
    let a := dipPart s e.1.index
    let s := setDip e.1.index { a with rows := a.rows.filter fun r => r.slot != slot } s
    let b := dipPart s e.2.index
    setDip e.2.index { b with rows := b.rows ++ a.rows.filter fun r => r.slot == slot } s
  else s

/-- The frames behind moved regions, old to new. -/
def movedFrames (s : State) (pairs : List (Bound × Bound)) : List (Nat × Nat) :=
  pairs.flatMap fun e =>
    if e.1.kind = 5 then
      (List.range (e.1.size / pageBytes)).filterMap fun i =>
        match look (e.1.base / pageBytes + i) s.pages, look (e.2.base / pageBytes + i) s.pages with
        | some a, some b => some (a.frame.toNat, b.frame.toNat)
        | _, _ => none
    else []

/-- A region of the new place as the old one's pages stand: an ABSENT page stays so. -/
def moveAbsent (s : State) (e : Bound × Bound) : State :=
  if e.1.kind ≠ 5 then s
  else (List.range (e.1.size / pageBytes)).foldl (fun s i =>
    match look (e.1.base / pageBytes + i) s.pages, look (e.2.base / pageBytes + i) s.pages with
    | some a, some b =>
      if a.state = 0 then
        releaseFrames [b.frame.toNat] { s with pages := put (e.2.base / pageBytes + i) { b with state := 0, frame := 0 } s.pages }
      else { s with pages := put (e.2.base / pageBytes + i) { b with state := a.state, dirty := a.dirty } s.pages }
    | _, _ => s) s

/-- The cluster that a bound core, cluster store, shared cache or match region lies in. -/
def clusterOf (b : Bound) : Option Nat :=
  match b.kind with
  | 1 => some (b.index / 8)
  | 2 => some b.index
  | 3 => some b.index
  | 9 => some b.index
  | _ => none

/-- A plan on its new binding from the closing edge; its old resources are free and zeroed (R92, R108). -/
def commitRebind (slot : Nat) (p : Plan) (r : Rebind) (s : State) : State :=
  let new : Plan := { p with bound := (p.bound.filter fun b => !r.olds.contains b) ++ r.news, rebind := none }
  let pairs := (r.olds.filter fun b => b.kind != 3).zip (r.news.filter fun b => b.kind != 3)
  let x : Moving := ⟨slot, pairs⟩
  let frames := movedFrames s pairs
  let s := (pairs.filter fun e => !r.drops.contains e.1).foldl copyRegion s
  let s := moveStreams x new s
  let s := moveOwners x frames s
  let s := pairs.foldl (movePart slot r.drops) s
  let s := (pairs.filter fun e => e.1.kind == 6).foldl moveQueue s
  let s := (pairs.filter fun e => e.1.kind == 8).foldl moveCell s
  let s := (pairs.filter fun e => e.1.kind == 9).foldl moveMatch s
  let s := (pairs.filter fun e => e.1.kind == 1).foldl (moveCore slot) s
  let s := pairs.foldl moveAbsent s
  let s := { s with rx := s.rx.map fun (y : RxStream) => match y.dest with | .window d n => { y with dest := .window (x.dva d) n } | .queue _ => y }
  let whole : Ref → Bool := fun q => (List.range 4).all fun d => d == homeDie p q || p.replicas.contains (q.absId, d)
  let new := { new with
    padCopies := new.padCopies.filter fun e => !(pairs.any fun q => q.1.kind == 1 && q.1.index == e.2)
    replicas := (replicaRefs p).flatMap fun q =>
      if pairs.any fun e => e.1.kind == 5 && e.1.absId == q.hbm then (if whole q then (List.range 4).map fun d => (q.absId, d) else [])
      else p.replicas.filter fun e => e.1 == q.absId }
  let touched := (r.olds ++ r.news).filterMap clusterOf
  releaseBounds slot r.olds [] (setPlan slot new { settleBuckets s with lines := s.lines.filter fun e => !touched.contains e.1 })

/-- A rebind's commit in force. -/
def applyRebind (slot : Nat) (s : State) : State :=
  match plan? s slot with
  | none => s
  | some p => match p.rebind with
    | some r => commitRebind slot p r s
    | none => s

/-- REBIND_COMMIT (R108): the class-4 action in the guard band that admitted it; in force from the closing edge. -/
def execRebindCommit (slot : BitVec 6) (s : State) : Host.Outcome State Fault Refusal :=
  match admitted s fun a => a == .rebindCommit slot.toNat with
  | some a => .next (markDone a s)
  | none => .next s

end Sys2Proof.Machine
end

