-- ==== Sys2Proof/Machine/Guard.lean ====
section
/-! DEFINITION. The guard band and its boundary actions, ruled releases and the tick edge (R46, R53, R66 to R75, R82, R104). -/

namespace Sys2Proof.Machine

/-! ### What a late ruled task holds back (R74, R75) -/

/-- A plan has a ruled task running, a SHARED_TASK among them. -/
def ruledRunning (s : State) (slot : Nat) : Bool :=
  (s.sched.any fun e => e.2.running.any fun r => r.task.ruled && r.task.slot == slot) ||
    (s.streams.any fun e => e.1.1 == slot && e.2.ruled && e.2.owed != 0) || s.rul.shared.any fun x => x.slot == slot

/-- The units of the ruled tasks running. -/
def ruledUnits (s : State) : List (BitVec 16) :=
  (s.sched.flatMap fun e => (e.2.running.filter fun r => r.task.ruled).map fun r => coreUid r.task.core 7) ++
    ((s.streams.filter fun e => e.2.ruled && e.2.owed != 0).map fun e => e.2.unit) ++ s.rul.shared.map (·.unit)

/-- The units a boundary action names: those whose resources a rebind moves. -/
def actionUnits (s : State) : Action → List (BitVec 16)
  | .rebindCommit n =>
    match (plan? s n).bind (·.rebind) with
    | some r => (r.olds ++ r.news).map fun b => if b.kind = 1 then coreUid b.index 7 else BitVec.ofNat 16 b.unit
    | none => []
  | _ => []

/-- R74 defers an action. -/
def deferred (s : State) (a : Action) : Bool :=
  (actionSlot a).any (ruledRunning s) || (ruledUnits s).any fun u => (actionUnits s a).any fun v => covers v u

/-! ### Admission (R46, R68, R75) -/

/-- The class of a boundary action (Table 2-6). -/
def actionClass : Action → Nat
  | .tableSwap _ _ _ _ => 1
  | .cutover _ _ _ _ => 2
  | .dipChange _ _ _ => 3
  | .rebindCommit _ => 4
  | .activation _ => 5
  | .retirement _ _ => 5
  | .periodChange _ => 6

/-- The delta entries of a migration whose cutover is requested. -/
def loggedRows (s : State) (slot ref row : Nat) : Nat :=
  match tableCtx s slot ref with
  | none => 0
  | some c => (((tableOf s slot ref).migrations.find? fun m => m.block == c.block row).map (·.log.length)).getD 0

/-- The cost of a boundary action in the guard band (Table 2-6). -/
def actionCost (s : State) : Action → Nat
  | .tableSwap _ _ _ _ => 48
  | .cutover slot ref row _ => 64 + 4 * loggedRows s slot ref row
  | .dipChange _ _ _ => 96
  | .rebindCommit _ => 640
  | .activation _ => 160
  | .retirement _ _ => 160
  | .periodChange _ => 32

/-- The limit per guard band of a class (Table 2-6); a number no guard band reaches where there is none. -/
def classLimit (c : Nat) : Nat := match c with | 1 => 16 | 4 => 1 | 6 => 1 | _ => 3800

/-- The aligned time of the edge that closes this tick, in ns (R49, R50). -/
def closingTime (s : State) : Nat :=
  match s.rul.anchor with
  | some (k, t) => t + (nowTick s + 1 - k) * periodNs s
  | none => (nearestAligned s ((cyclesToNs (s.clk.edge + s.clk.len) : Int) + s.ptp.offset).toNat).2

/-- A Dip placement change would start on a Reservoir that an overrun record not yet acknowledged names (R75). -/
def dipStartBarred (s : State) (slot ref row : Nat) : Bool :=
  s.dips.any fun d => reservoirHeld s d.1 && d.2.rows.any fun r => r.slot == slot && r.ref == ref && r.row == row && !r.live

/-- An exclusion's rebind of a lower plan slot commits first (R483). -/
def exclusionFirst (s : State) (slot : Nat) : Bool :=
  ((plan? s slot).bind (·.rebind)).any (·.exclusion) &&
    s.plans.any fun e => decide (e.1 < slot) && e.2.rebind.any (·.exclusion)

/-- An action may be admitted in this guard band, its cost apart. -/
def actionReady (s : State) (a : Action) : Bool :=
  match a with
  | .tableSwap _ _ _ t => t == nowTick s + 1
  | .dipChange slot ref row =>
    !deferred s a && !dipStartBarred s slot ref row &&
      (row != pauseEnd || (tableOf s slot ref).pause.any fun p => decide (p + 1 ≤ nowTick s))
  | .rebindCommit slot => !deferred s a && !exclusionFirst s slot
  | .cutover slot ref row _ => !deferred s a && (tableCtx s slot ref).all fun c => blockReach s c (c.block row)
  | .periodChange _ => !disciplined s || (closingTime s - phaseNs s) % 10 ^ 9 == 0
  | .activation _ => s.pwr.state == .run && !deferred s a
  | _ => !deferred s a

/-- The actions of one class admitted, by their place in the request order, with the cycles that remain: one that does not fit, and a
period change that waits for its second, hold back those behind it. -/
def admitClass (s : State) : Nat → Nat → List (Nat × Action) → Nat × List Nat
  | avail, _, [] => (avail, [])
  | avail, lim, e :: r =>
    if !actionReady s e.2 then (if actionClass e.2 = 6 then (avail, []) else admitClass s avail lim r)
    else if lim = 0 || decide (avail < actionCost s e.2) then (avail, [])
    else
      let x := admitClass s (avail - actionCost s e.2) (lim - 1) r
      (x.1, e.1 :: x.2)

/-- A table swap that cannot be admitted at its one guard band fails its replacement (R256). -/
def failSwap (s : State) (a : Pending) : State :=
  match a.act with
  | .tableSwap slot live _ t =>
    if t != nowTick s + 1 then s
    else
      let hot := (tableOf s slot live).owners.any fun o => o.state != 0
      if hot || deferred s a.act then
        finalAnswer (fun k => k == .replace slot live t) St.replaceFailed (if hot then 1 else 2) [] { s with actions := s.actions.erase a }
      else s
  | _ => s

/-- The cycles from guard band open to the settle (Table 2-5). -/
def settleAt : Nat := 3762

/-- The plans that exchange embeddings, in plan slot order. -/
def exchanging (s : State) : List Nat :=
  sortBy (fun a b => decide (a < b)) ((s.plans.filter fun e => e.2.image.exchange && e.2.state != .loaded).map (·.1))

/-- The boundary actions of a guard band admitted in class order and within a class in request order (R68); a halted Quill admits
none. -/
def admitActions (s : State) : State :=
  if s.halted then s
  else
    let s := s.actions.foldl failSwap s
    let all := (List.range s.actions.length).zip (s.actions.map (·.act))
    let r := [1, 2, 3, 4, 5, 6].foldl (fun (x : Nat × List Nat) c =>
      let y := admitClass s x.1 (classLimit c) (all.filter fun e => actionClass e.2 == c)
      (y.1, x.2 ++ y.2)) (settleAt - (158 + 40 * (exchanging s).length), [])
    { s with actions := ((List.range s.actions.length).zip s.actions).map fun e => { e.2 with admitted := r.2.contains e.1 } }

/-! ### GUARD_BAND_OPEN (R67) -/

/-- The TICK record of every Scribe (Table 2-9), each at a cycle of the housekeeping that the spec leaves open (Table 2-5, assumption log 163);
`g` is the cycle the guard band opened in. -/
def tickRecords (g : Nat) (s : State) : State :=
  if s.pwr.state != .run then s
  else (List.range 48).foldl (fun s k =>
    if (cluster s k).off then s
    else
      let c := max (g + 38 + freeNumber 7 s % 121) (cluster s k).nextIns
      scribeAt k c { arg := ptpAt s c % 10 ^ 9, engines := 0, nib := 0xff, plan := 0xff, level := 0, reason := 10, ruled := false,
                     late := false, unit := clusterUid k 8, task := ptpAt s c / 10 ^ 9 % 2 ^ 32 } (setCluster k { cluster s k with tickAt := some c } (drawn s))) s

/-- The ring swap of a persistent ruled stream whose walk has ended: a pending re-arm is put in force and the walk restarts (R306). -/
def ringSwap (s : State) (e : (Nat × Nat) × Stream) : State :=
  let x := e.2
  if !x.ruled || !x.desc.persist || x.state != .running || x.owed != 0 then s
  else if x.desc.kind = 1 then (if ingestOver x || !x.ingest.open_ then restartIngest e.1 x s else s)
  else if walkEnded x || x.nextTile == x.walkBase || (walkQueue (streamPlan s e.1) x.desc).isSome then setStream e.1 (restart x) s
  else s

/-- The margin tasks on units that an admitted action names suspended (R67, assumption log 160). -/
def suspendForActions (s : State) : State :=
  let cores := actionCores s
  ((s.sched.flatMap fun e => e.2.running).filter fun r => !r.task.ruled && cores.contains r.task.core).foldl suspendRun s

/-- The exchange releases of a guard band that R74 and R104 do not hold back, in plan slot order (R67). -/
def exchangeReleases (s : State) : List Nat :=
  (exchanging s).filter fun n => !ruledRunning s n && (plan? s n).any fun p => p.retireBands == 0

/-- The guard band open: the SHARED_TASKs that are over have ended, and RUL_TICK has the number of the edge to come (Table 2-5). -/
def openBand (s : State) : State :=
  let s := advanceTo (s.clk.edge + s.clk.len - 3800) s
  advanceTick (settleShared (fun _ => true) { s with clk := { s.clk with guard := true } })

/-- GUARD_BAND_OPEN: the admission of boundary actions, housekeeping, and the exchange releases (Table 2-5). -/
def execGuardBandOpen (s : State) : Host.Outcome State Fault Refusal :=
  if s.clk.guard then .next s
  else
    let s := openBand s
    let releases := exchangeReleases s
    let s := suspendForActions (admitActions s)
    let s := tickRecords s.clk.cycle (s.streams.foldl ringSwap s)
    .next (releases.foldl (fun s n => sealExchange n s) s)

/-! ### PLAN_ACTIVATION (R104) -/

/-- A stream of a plan at its activation: an ingest stream is armed onto its source, and one that cannot be armed stays IDLE
(R124); where its arm generation wraps the device clears the source's entries (R349). -/
def startStream (slot : Nat) (p : Plan) (s : State) (i : Nat) : State :=
  match p.image.streams[i]? with
  | none => s
  | some d =>
    let k := (slot, i)
    let x := { Stream.fresh d (streamUnit p i) (ruledStream p.image i) with state := .running }
    let x := match stream? s k with
      | some o => { x with rearm := o.rearm, rearmChunks := o.rearmChunks,
                           ingest := Ingest.fresh (if o.desc.src = d.src then o.ingest.gen else (o.ingest.gen + 1) % 65536) [] }
      | none => x
    let s := if x.ingest.gen = 0 && ((stream? s k).any fun o => o.desc.src != d.src) then clearSource k s else s
    if d.kind ≠ 1 then setStream k x s
    else match armSource s (some p) d with
      | .ok chunks => setStream k { x with ingest := Ingest.fresh x.ingest.gen chunks } s
      | .error _ => setStream k { x with state := .idle } s

/-- The filterbank references that a plan's audio blocks name. -/
def filterbankRefs (p : Plan) : List Ref := p.image.refs.filter fun r => r.kind == 5

/-- The bytes of a filterbank's weights as its reference holds them (R352). -/
def bankBytes (s : State) (p : Plan) (r : Ref) : Nat × Bytes := (r.absId, refBytes s p r.absId 0 r.size)

/-- PLAN_ACTIVATION: carried out in the guard band and in force from the closing edge (R104). -/
def execPlanActivation (slot : BitVec 6) (s : State) : Host.Outcome State Fault Refusal :=
  match admitted s fun a => a == .activation slot.toNat with
  | some a => .next (markDone a s)
  | none => .next s

/-- An activation in force: the plan's ruled releases and margin work begin with this tick (R104, R298, R352). -/
def activatePlan (slot : Nat) (s : State) : State :=
  match plan? s slot with
  | none => s
  | some p =>
    let p := { p with state := .active, changed := nowTick s, retireBands := 0, filterbanks := (filterbankRefs p).map (bankBytes s p) }
    let s := (List.range p.image.layouts.length).foldl (fun s l => setBatch (slot, l) Batch.empty s) (setPlan slot p s)
    (List.range p.image.streams.length).foldl (startStream slot p) s

/-! ### PLAN_RETIREMENT (R81, R104, R319) -/

/-- The tasks of a plan taken off a cluster, with their CANCEL records (R81); a suspended one among the waiting carries argument 1 (assumption
log 165), and releases of other plans take the reserved entries that come free (R80). -/
def cancelOn (slot : Nat) (s : State) (k : Nat) : State :=
  let c := cluster s k
  let mine : Task → Bool := fun t => t.slot == slot
  let waiting := (c.releaseWait ++ c.held.map (·.task)).filter mine
  let running := c.running.filter fun r => mine r.task
  let s := setCluster k { c with ready := c.ready.filter fun t => !mine t, releaseWait := c.releaseWait.filter fun t => !mine t,
                                 held := c.held.filter fun h => !mine h.task, running := c.running.filter fun r => !mine r.task } s
  let s := (c.ready.filter mine).foldl (fun s t => cancelEvent k t s) s
  let s := waiting.foldl (fun s t => listEvent k t 3 (b2n t.suspended.isSome) s) s
  let s := running.foldl (fun s r => coreEvent r.task 3 1 false s) s
  noteReserves (admitWaiting k (cluster s k).releaseWait.length s)

/-- A wait belongs to a plan's task or stream. -/
def waitsFor (slot : Nat) (w : Waiter) : Bool :=
  match w.what with
  | .task t => t.slot == slot
  | .stream n _ => n == slot
  | _ => false

/-- The waits of a plan's tasks and streams dropped, with the CANCEL records of the tasks that waited. -/
def cancelWaits (slot : Nat) (s : State) : State :=
  let tasks := (s.cells.flatMap fun e => e.2.waiters) ++ s.regHeld.map (·.2) ++ s.parked.map (·.waiter) ++ s.queueWaits.map (·.2)
  let gone := tasks.filterMap fun w => match w.what with | .task t => if t.slot = slot then some t else none | _ => none
  let s := { s with cells := s.cells.map fun e => (e.1, { e.2 with waiters := e.2.waiters.filter fun w => !waitsFor slot w }),
                    regHeld := s.regHeld.filter fun e => !waitsFor slot e.2, parked := s.parked.filter fun p => !waitsFor slot p.waiter,
                    queueWaits := s.queueWaits.filter fun e => !waitsFor slot e.2 }
  gone.foldl (fun s t => listEvent (t.core / 8) t 3 0 s) s

/-- What a plan's stopped work leaves dropped: its groups, its SHARED_TASKs, and the Blotter's notice setting off its cells (R472). -/
def dropWork (slot : Nat) (s : State) : State :=
  let cells : List Nat := match plan? s slot with
    | some p => (p.bound.filter fun b => b.kind == 8).map (·.index)
    | none => []
  { s with nibs := s.nibs.map fun e => (e.1, e.2.filter fun g => g.slot != slot),
           rul := { s.rul with shared := s.rul.shared.filter fun x => x.slot != slot },
           blot := { s.blot with notice := s.blot.notice.filter fun n => !cells.contains n } }

/-- The work of a plan stopped: its tasks and its streams cancelled, and what they leave dropped (R81, R319). -/
def stopWork (slot : Nat) (s : State) : State :=
  let s := cancelWaits slot ((s.sched.map (·.1)).foldl (cancelOn slot) s)
  dropWork slot (((s.streams.filter fun e => e.1.1 == slot && (e.2.state == .running || e.2.state == .halted)).map (·.1)).foldl
    (fun s k => cancelStream k s) s)

/-- One guard band of a retirement: with PLN_EXCHANGE the first only stops the ligature releases (R104). -/
def retireBand (slot : Nat) (a : Pending) (p : Plan) (finish : State → State) (s : State) : State :=
  if p.image.exchange && p.state != .loaded && p.retireBands == 0 then
    { setPlan slot { p with retireBands := 1 } s with actions := s.actions.map fun x => if x = a then { x with admitted := false } else x }
  else finish (stopWork slot s)

/-- A retirement in force: the plan is LOADED again. -/
def backToLoaded (slot : Nat) (s : State) : State :=
  match plan? s slot with
  | some p => setPlan slot { p with state := .loaded, changed := nowTick s, retireBands := 0 } s
  | none => s

/-- PLAN_RETIREMENT: the plan's work stops in the guard band, and the retirement is in force from the closing edge (R104). -/
def execPlanRetirement (slot : BitVec 6) (s : State) : Host.Outcome State Fault Refusal :=
  match admitted s fun a => a == .retirement slot.toNat false, plan? s slot.toNat with
  | some a, some p => .next (retireBand slot.toNat a p (markDone a) s)
  | _, _ => .next s

/-! ### PERIOD_CHANGE (R46) -/

/-- PERIOD_CHANGE: the period is in force from the closing edge. -/
def execPeriodChange (s : State) : Host.Outcome State Fault Refusal :=
  match admitted s fun a => actionClass a == 6 with
  | some a =>
    match a.act with
    | .periodChange p => .next (doneAction a { s with rul := { s.rul with nextPeriod := some p } })
    | _ => .next s
  | none => .next s

/-! ### RULED_RELEASE (R53, R66) -/

/-- A release of a ruled stream: its walk begins, or waits for the walk in progress (R73, R298, R304). -/
def releaseStream (k : Nat × Nat) (s : State) : State :=
  match stream? s k with
  | none => s
  | some x =>
    if !x.ruled || x.state != .running then s
    else
      let p := streamPlan s k
      let begun := x.nextTile != x.walkBase || x.ingest.open_ || (walkQueue p x.desc).isSome
      let x := if x.owed = 0 && begun then rewalk p x else x
      shareEnd k (setStream k { x with owed := x.owed + 1 } s)

/-- The stream of a SHARED_TASK entry serves an embedding table (SD_KIND 2). -/
def servesTable (p : Plan) (c : Cert) : Bool := (p.image.streams[c.index]?).any fun d => d.kind == 2

/-- A SHARED_TASK released to a unit that runs no walk for it: a combiner window, the work of a compression engine or media unit, or a
serve task, which finds then which peers' lists are missing (R53, R66, R240). -/
def releaseUnit (slot cert : Nat) (p : Plan) (c : Cert) (s : State) : State :=
  match certBound p c with
  | none => s
  | some b =>
    if c.unitKind = 0xd then releaseWindow slot (boundDie b) p s
    else
      let at' := s.clk.edge + c.release
      let x : SharedRun := { slot := slot, stream := c.index, kind := c.unitKind, unit := BitVec.ofNat 16 b.unit, id := sharedId slot cert,
                             release := at', deadline := at' + c.claim, overrun := none }
      let s := { s with rul := { s.rul with shared := s.rul.shared ++ [x] } }
      match c.unitKind, serveTable s slot c.index with
      | 7, some t => missPeers t x.unit s
      | _, _ => s

/-- RULED_RELEASE: a certificate entry's task is released at its offset, a ligature into the ready list of its core's cluster, a
SHARED_TASK to its unit (R53, assumption log 136). -/
def execRuledRelease (slot : BitVec 6) (cert : BitVec 16) (s : State) : Host.Outcome State Fault Refusal :=
  match plan? s slot.toNat with
  | none => .next s
  | some p =>
    match p.image.certs[cert.toNat]? with
    | none => .next s
    | some c =>
      if p.state = .loaded || c.kind == 3 then .next s
      else if c.kind = 2 then
        let s := advanceTo (s.clk.edge + c.release) s
        .next (if c.unitKind = 7 && !servesTable p c then releaseStream (slot.toNat, c.index) s else releaseUnit slot.toNat cert.toNat p c s)
      else if p.retireBands ≠ 0 then .next s
      else match ruledTask s slot.toNat c, ligOf p c.index with
        | some t, some l => .next (releaseLig t (ligUnits l) (advanceTo t.release s))
        | _, _ => .next s

/-! ### RUL_EDGE_MISS (Table 2-10) -/

/-- A ruled task runs on a unit that a unit id names or holds. -/
def tasksUnit (unit : BitVec 16) (t : Task) : Bool := t.ruled && covers unit (coreUid t.core 7)

/-- The SHARED_TASKs of a unit that are under way, by unit, plan slot, task id and release cycle. -/
def sharedUnder (s : State) (unit : BitVec 16) : List (BitVec 16 × Nat × Nat × Nat) :=
  ((s.rul.shared.filter fun x => covers unit x.unit).map fun x => (x.unit, x.slot, x.id, x.release)) ++
    (s.streams.filter fun e => e.2.ruled && e.2.owed != 0 && covers unit e.2.unit).filterMap fun e =>
      (sharedEntry s e.1.1 e.1.2).map fun x => (e.2.unit, e.1.1, x.1, x.2)

/-- The ruled tasks of a unit that are under way flagged late, with their records (Table 2-10). -/
def flagRunning (unit : BitVec 16) (s : State) : State :=
  let runs := (s.sched.flatMap fun e => e.2.running).filter fun r => tasksUnit unit r.task
  let s := { s with sched := s.sched.map fun e =>
    (e.1, { e.2 with running := e.2.running.map fun r => if tasksUnit unit r.task then { r with late := true } else r }) }
  let s := runs.foldl (fun s r => lateStart (firstUnit s r.task) r.task.slot r.task.id (r.started - r.task.release) s) s
  (sharedUnder s unit).foldl (fun s x => lateStart x.1 x.2.1 x.2.2.1 (s.clk.cycle - x.2.2.2) s) s

/-- RUL_EDGE_MISS: a unit sees an edge whose number is not one more than its last: it takes the number of that edge, its ruled tasks of the
missed tick are flagged and start late, and the record is raised (Table 2-10, assumption log 157). -/
def execRulEdgeMiss (unit : BitVec 16) (s : State) : Host.Outcome State Fault Refusal :=
  if unitOk unit then
    let s := mapTasks (fun t => if tasksUnit unit t then { t with missed := true } else t) (flagRunning unit s)
    .next (emitErr { cls := 1, code := 5, unit := rulingUid, pos := 0, count := 0, plan := 0xff, named := true, test := true } s)
  else .next s

/-! ### Exclusions (R483) -/

/-- The exclusions of which every unit is out are answered with this tick (R483), once the tick has its number (R50). -/
def finishExclusions (s : State) : State :=
  if s.rul.stepDue then s else
  let done := s.exclusions.filter fun us => us.all fun u => s.excluded.contains u
  finalAnswer (fun k => match k with | .exclude us => done.contains us | _ => false) St.ok 0 (payload [.num 8 (nowTick s)])
    { s with exclusions := s.exclusions.filter fun us => !done.contains us }

end Sys2Proof.Machine
end

