-- ==== Sys2Proof/Machine/Tasks.lean ====
section
/-! DEFINITION. RULING_SET, the task, trace, exclusion and wait commands (R46 to R48, R80 to R83, R378, R434, R482 to R484). -/

namespace Sys2Proof.Machine

/-! ### RULING_SET (R46 to R50, R52) -/

/-- RUL_PHASE_NS of a configuration is not less than its period in ns. -/
def phaseTooLong (c : Nat) : Bool := decide (10 * fld 26 0 c ≤ 19 * fld 56 27 c)

/-- The fields of RUL_CFG outside their sets, by payload offset (Table 2-1); a phase under discipline is R48's matter. -/
def rulingBad (c : Nat) : List (Nat × Bool) :=
  [(0, decide (fld 26 0 c < 19000) || decide (95000000 < fld 26 0 c)), (3, !bitAt c 63 && phaseTooLong c), (7, fld 62 57 c != 0)]

/-- R48 refuses discipline at a configuration. -/
def discRefused (s : State) (c : Nat) : Bool :=
  let p := fld 26 0 c
  bitAt c 63 && (p % 19 != 0 || 10 ^ 9 % (p * 10 / 19) != 0 || phaseTooLong c ||
    (!disciplined s && s.plans.any fun e => e.2.state != .loaded))

/-- The period last asked for. -/
def askedPeriod (s : State) : Nat :=
  match (s.actions.filterMap fun a => match a.act with | .periodChange p => some p | _ => none).getLast? with
  | some p => p
  | none => s.rul.nextPeriod.getD (period s)

/-- Discipline and phase in force at once; the period stays (R434). The aligned times move with the phase. -/
def writeDiscipline (c : Nat) (s : State) : State :=
  let old := s.rul.cfg.toNat
  let on := bitAt c 63
  let shift : Nat → Nat := fun t => t + fld 56 27 c - fld 56 27 old
  let rul := { s.rul with cfg := BitVec.ofNat 64 (c - fld 26 0 c + fld 26 0 old) }
  if on && !disciplined s then setLock 1 { s with rul := { rul with stepPend := true, anchor := none, aligned := 0 } }
  else if !on then setLock 0 { s with rul := { rul with stepPend := false, anchor := none, aligned := 0 } }
  else { s with rul := { rul with anchor := rul.anchor.map fun a => (a.1, shift a.2) } }

/-- A period asked for: the class-6 action while ruled work is bound, else in force at the next edge (R46, R47), where it takes the place of
one that waits for that edge. -/
def askPeriod (p : Nat) (s : State) : State :=
  if p = askedPeriod s then s
  else
    let s := { s with rul := { s.rul with asked := s.rul.asked + b2n (ruledBound s || s.rul.nextPeriod.isNone) } }
    setStatus 8 8 1 (if ruledBound s then request (.periodChange p) s else { s with rul := { s.rul with nextPeriod := some p } })

/-- The PLN_ID of a report that no one plan is behind: that of the first entry's plan (assumption log 113). -/
def reportPlan (s : State) (es : List FitEntry) : Nat := ((es.head?.bind fun e => plan? s e.plan).map (·.image.id)).getD 0

/-- RULING_SET. -/
def execRulingSet (r : Req) (cfg : BitVec 64) (s : State) : Host.Outcome State Fault Refusal :=
  let c := cfg.toNat
  .next (goust r (pcmd 0x0502 8 (rulingBad c) fun s =>
    let p := fld 26 0 c
    if discRefused s c then .fail St.discRefused 0
    else match (if p ≠ askedPeriod s ∧ ruledBound s then fitCheck s [] [p] else none) with
    | some (per, es) => refuseFit (reportPlan s es) per es s
    | none =>
      let s := askPeriod p (writeDiscipline c s)
      .accept s (.ruling s.rul.asked) []) s)

/-! ### Tasks (R80, R81, R434) -/

/-- The margin entries a list of tasks asks of a cluster. -/
def entriesFor (ts : List Task) (k : Nat) : Nat := (ts.filter fun t => t.core / 8 == k).length

/-- TASK_SUBMIT: all of the tasks, or none. -/
def execTaskSubmit (r : Req) (slot level : Byte) (ligs : List (BitVec 32)) (s : State) : Host.Outcome State Fault Refusal :=
  .next (goust r (icmd 0x0504 (alignUp (8 + 4 * ligs.length) 8)
    [(0, decide (63 < slot.toNat)), (1, decide (7 < level.toNat)), (2, decide (880 < ligs.length))] fun s =>
    match plan? s slot.toNat with
    | none => .fail St.planState 0
    | some p =>
      if p.state != .active || p.resetting then .fail St.planState 0
      else match ((List.range ligs.length).zip ligs).find? fun e => (ligOf p e.2.toNat).isNone with
      | some e => .fail St.malformed (40 + 4 * e.1)
      | none =>
        if ligs.any fun l => (ligOf p l.toNat).any (·.ruled) then .fail St.taskState 0
        else
          let lv := if level = 0 then p.image.marginLevel else level.toNat
          let ts := ligs.filterMap fun l => ligTask s slot.toNat l.toNat (some lv)
          match (List.range 48).find? fun k => decide (3584 < marginUsed (cluster s k) + entriesFor ts k) && entriesFor ts k != 0 with
          | some k => .fail St.readyListFull (clusterUid k 8).toNat
          | none => .ok (ts.foldl (fun s t => startMargin 11 t s) s) []) s)

/-- The cluster on whose list, or among whose held events, a margin task of an id stands. -/
def findWaiting (s : State) (id : Nat) : Option (Nat × Task) :=
  s.sched.findSome? fun e =>
    ((e.2.ready ++ e.2.held.map (·.task)).find? fun t => t.id == id && !t.ruled).map fun t => (e.1, t)

/-- The cell a margin task of an id waits on, or is to wait on. -/
def findCellWait (s : State) (id : Nat) : Option (Waiter × Task) :=
  ((s.cells.flatMap fun e => e.2.waiters) ++ s.regHeld.map (·.2) ++ s.parked.map (·.waiter)).findSome? fun w =>
    match w.what with | .task t => if t.id == id && !t.ruled then some (w, t) else none | _ => none

/-- The streams of a cancelled margin task: the margin ones that its Feed stages name (R319). -/
def cancelStreams (t : Task) (s : State) : State :=
  match (plan? s t.slot).bind fun p => ligOf p t.lig with
  | none => s
  | some l => (l.stages.filter fun st => st.engine == 6).foldl (fun s st =>
      match stream? s (t.slot, st.param) with
      | some x => if !x.ruled && (x.state == .running || x.state == .halted) then cancelStream (t.slot, st.param) s else s
      | none => s) s

/-- A margin task's wait dropped with its CANCEL record. -/
def dropWait (w : Waiter) (t : Task) (s : State) : State :=
  listEvent (t.core / 8) t 3 0
    { s with cells := s.cells.map fun e => (e.1, { e.2 with waiters := e.2.waiters.filter fun x => x != w }),
             regHeld := s.regHeld.filter fun e => e.2 != w, parked := s.parked.filter fun p => p.waiter != w }

/-- A margin task on a list removed with its CANCEL record (R81). -/
def cancelListed (k : Nat) (t : Task) (s : State) : State :=
  let c := cluster s k
  if c.ready.contains t then cancelEvent k t (setCluster k { c with ready := c.ready.erase t } s)
  else listEvent k t 3 (b2n t.suspended.isSome) (setCluster k { c with held := c.held.filter fun h => h.task != t } s)

/-- A running margin task stopped with its CANCEL record; the group it holds is gone. -/
def cancelRunning (k : Nat) (r : Running) (s : State) : State :=
  let c := cluster s k
  let s := setCluster k { c with running := c.running.erase r } s
  coreEvent r.task 3 1 false { s with nibs := s.nibs.map fun e =>
    (e.1, e.2.filter fun g => !(g.slot == r.task.slot && g.lig == r.task.lig && g.started == r.started)) }

/-- A task id names a margin ligature of a bound plan (R93). -/
def knownMargin (s : State) (id : Nat) : Bool :=
  (plan? s (id / 2 ^ 24)).any fun p => (ligOf p (id % 2 ^ 24)).any fun l => !l.ruled

/-- TASK_CANCEL (R81): ruled tasks are never cancelled. -/
def execTaskCancel (r : Req) (task : BitVec 32) (s : State) : Host.Outcome State Fault Refusal :=
  let id := task.toNat
  .next (goust r (icmd 0x0505 8 [] fun s =>
    match findWaiting s id, findCellWait s id, findRunning s id with
    | some (k, t), _, _ => .ok (cancelStreams t (cancelListed k t s)) (payload [.num 1 (b2n t.suspended.isSome)])
    | none, some (w, t), _ => .ok (cancelStreams t (dropWait w t s)) (payload [.num 1 0])
    | none, none, some (k, x) =>
      if x.task.ruled then .fail St.taskState 0 else .ok (cancelStreams x.task (cancelRunning k x s)) (payload [.num 1 1])
    | none, none, none => if knownMargin s id then .ok s (payload [.num 1 2]) else .fail St.taskState 0) s)

/-! ### The trace (R82, R83) -/

/-- The cluster a die and a cluster number name. -/
def clusterIndex (die cluster : Byte) : Nat := die.toNat * 12 + cluster.toNat

/-- The fields that name a cluster outside their sets. -/
def clusterBad (die cluster : Byte) : List (Nat × Bool) := [(0, decide (3 < die.toNat)), (1, decide (11 < cluster.toNat))]

/-- The sizes a Scribe ring may have (R83). -/
def ringSizes : List Nat := (List.range 7).map fun i => 65536 * 2 ^ i

/-- A cluster's ring set; a re-arm empties it and reports what STOP mode did not write, in a SCRIBE_LOSS record that names the cluster's Scribe
writer (DESIGN CHOICE, assumption log 184). -/
def setRing (k bytes : Nat) (stop rearm : Bool) (s : State) : State :=
  let c := cluster s k
  let b := { c.scribe with bytes := bytes, stop := stop, recs := c.scribe.recs.take (scrCapacity bytes) }
  if rearm then
    let t := setCluster k { c with scribe := { b with recs := [], unwritten := 0 } } s
    if b.unwritten == 0 then t
    else emitErr { cls := 1, code := 7, unit := clusterUid k 13, pos := 0, count := b.unwritten.toNat, plan := 0xff, named := false,
                   test := false } t
  else setCluster k { c with scribe := b } s

/-- TRACE_SET (R83): the ring counts against the plan-addressable part of the store. -/
def execTraceSet (r : Req) (die cl mode rearm : Byte) (bytes : BitVec 32) (s : State) : Host.Outcome State Fault Refusal :=
  let k := clusterIndex die cl
  .next (goust r
    { op := 0x0506, pending := false, len := 8,
      bad := clusterBad die cl ++ [(2, decide (1 < mode.toNat)), (3, decide (1 < rearm.toNat)), (4, !ringSizes.contains bytes.toNat)],
      units := [(0, clusterUid k 13)],
      body := fun s =>
        let left := storeLeft s (heldBounds s 0xff) k + (cluster s k).scribe.bytes
        if left < bytes.toNat then refuseFit 0 (period s) [shortfall 0xff 3 1 left.toNat bytes.toNat (clusterUid k 10).toNat 0xffff] s
        else .ok (setRing k bytes.toNat (mode.toNat == 1) (rearm.toNat == 1) s) [] } s)

/-- The records of a ring whose events have taken place by a cycle, oldest first. -/
def ringNow (b : Scribe) (now : Nat) : List (BitVec 256) := b.recs.reverse.filter fun x => decide (recCycle x ≤ now)

/-- The records of a ring up to a cycle from a sequence number on, oldest first, by serial comparison. -/
def ringFrom (b : Scribe) (now first : Nat) : List (BitVec 256) :=
  (ringNow b now).filter fun x => decide ((recSeq x + 2 ^ 32 - first) % 2 ^ 32 < 2 ^ 31)

/-- TRACE_READ (R83). -/
def execTraceRead (r : Req) (die cl : Byte) (first : BitVec 32) (s : State) : Host.Outcome State Fault Refusal :=
  let k := clusterIndex die cl
  .next (goust r
    { op := 0x0507, pending := false, len := 8, bad := clusterBad die cl, units := [(0, clusterUid k 13)],
      body := fun s =>
        let b := (cluster s k).scribe
        let xs := (ringFrom b (scrCycle s s.clk.cycle) first.toNat).take 110
        let next := match xs.getLast? with
          | some x => (recSeq x + 1) % 2 ^ 32
          | none => (b.seq.toNat + 2 ^ 32 - (b.recs.length - (ringNow b (scrCycle s s.clk.cycle)).length)) % 2 ^ 32
        .ok s (payload [.num 4 next, .num 4 xs.length, .elems (xs.map fun x => le 32 x.toNat)]) } s)

/-! ### Exclusion (R482 to R484) -/

/-- The unit ids of a command by payload offset. -/
def unitList (us : List (BitVec 16)) : List (Nat × BitVec 16) := ((List.range us.length).zip us).map fun e => (8 + 2 * e.1, e.2)

/-- UNIT_EXCLUDE's and UNIT_INCLUDE's fields outside their sets: device-level units cannot be excluded (Table 15-5). -/
def unitsBad (us : List (BitVec 16)) : List (Nat × Bool) :=
  (0, decide (64 < us.length)) :: (unitList us).map fun e => (e.1, unitOk e.2 && deviceLevel e.2)

/-- The abstract ids of a plan that removed resources carry. -/
def removedIds (s : State) (units : List (BitVec 16)) (p : Plan) : List (Nat × Nat) :=
  dedup ((p.bound.filter (onUnit s units)).map fun b => (b.kind, b.absId))

/-- One plan rebound off some units, or the shortfalls that stand in the way, after those found before; a plan that cannot be rebound now
counts as one whose resources find no place (assumption log 114). -/
def excludeFrom (units : List (BitVec 16)) (x : State × List FitEntry × Nat) (slot : Nat) : State × List FitEntry × Nat :=
  match plan? x.1 slot with
  | none => x
  | some p =>
    match removedIds x.1 units p with
    | [] => x
    | ids =>
      if p.state == .retiring || p.rebind.isSome then
        (x.1, x.2.1 ++ (leaving p ids).map fun b => shortfall slot (if b.kind = 1 then 1 else 10) 3 0 1 b.unit b.absId, x.2.2)
      else
        let y := rebindPlan x.1 slot p ids (fun _ => 0) units
        if y.short.isEmpty then (acceptRebind slot y true y.b.s, x.2.1, x.2.2) else (x.1, x.2.1 ++ y.short, if x.2.1.isEmpty then y.per else x.2.2)

/-- UNIT_EXCLUDE (R483). -/
def execUnitExclude (r : Req) (us : List (BitVec 16)) (s : State) : Host.Outcome State Fault Refusal :=
  .next (goust r
    { op := 0x0704, pending := true, len := alignUp (8 + 2 * us.length) 8, bad := unitsBad us, units := unitList us,
      body := fun s =>
        let x := (sortBy (fun a b => decide (a < b)) (s.plans.map (·.1))).foldl (excludeFrom us) (s, [], period s)
        let es := if !x.2.1.isEmpty then x.2.1
          else match fitCheck { x.1 with excluded := x.1.excluded ++ us } [] (checkPeriods s) with | some e => e.2 | none => []
        if es.isEmpty then .accept { x.1 with exclusions := x.1.exclusions ++ [us] } (.exclude us) []
        else refuseFit (reportPlan s es) x.2.2 es s } s)

/-- UNIT_EXCLUDED: at a tick edge a unit that no plan holds is out, with its record; no self-test of the device's own goes on on it
(R483, R484). -/
def execUnitExcluded (unit : BitVec 16) (s : State) : Host.Outcome State Fault Refusal :=
  if s.clk.cycle != s.clk.edge || s.rul.stepDue || !s.exclusions.any (·.contains unit) || s.excluded.contains unit then .next s
  else if s.plans.any fun e => e.2.bound.any (onUnit s [unit]) then .next s
  else
    let s := { s with excluded := s.excluded ++ [unit], tests := s.tests.filter fun t => t.host || !covers unit t.unit }
    .next (finishExclusions (emitErr { cls := 10, code := 5, unit := unit, pos := nowTick s, count := 0, plan := 0xff, named := false,
                                       test := false } s))

/-- UNIT_INCLUDE (R484): whole rows of Table 15-5 return to binding. -/
def execUnitInclude (r : Req) (us : List (BitVec 16)) (s : State) : Host.Outcome State Fault Refusal :=
  .next (goust r
    { op := 0x0705, pending := false, len := alignUp (8 + 2 * us.length) 8, bad := unitsBad us, units := unitList us,
      body := fun s => .ok { s with excluded := s.excluded.filter fun x => us.all fun u => !(covers x u || covers u x) } [] } s)

/-! ### Parked waits (R378) -/

/-- WAIT_RESUME's and WAIT_ABORT's request: the unit, the object and its number. -/
def waitCmd (op : Nat) (unit : BitVec 16) (object : Byte) (num : BitVec 16) (body : Parked → State → State) : Cmd :=
  { op := op, pending := false, len := 8, bad := [(2, decide (1 < object.toNat)), (4, object == 0 && decide (16384 ≤ num.toNat))],
    units := [(0, unit)],
    body := fun s =>
      match s.parked.find? fun p => p.waiter.unit == unit && p.queue == (object.toNat == 1) && p.num == num.toNat with
      | none => .fail St.waitState 0
      | some p => .ok (body p { s with parked := s.parked.erase p }) [] }

/-- A parked wait registered again, at the back of its queue with a new watchdog; one that can end does so at once (R376, R378). -/
def resumeWait (p : Parked) (s : State) : State :=
  let w := { p.waiter with since := s.clk.cycle }
  if p.queue then wakeQueue p.num (queueWait p.num w s) else waitOn p.num w s

/-- WAIT_RESUME (R378). -/
def execWaitResume (r : Req) (unit : BitVec 16) (object : Byte) (num : BitVec 16) (s : State) : Host.Outcome State Fault Refusal :=
  .next (goust r (waitCmd 0x0706 unit object num resumeWait) s)

/-- The stream of a unit that waits on a queue, or else any stream of the unit. -/
def waitingStream (s : State) (p : Parked) : Option (Nat × Nat) :=
  match p.waiter.what with
  | .stream slot i => some (slot, i)
  | _ =>
    let mine := s.streams.filter fun e => e.2.unit == p.waiter.unit && (e.2.state == .running || e.2.state == .halted)
    match mine.find? fun e => p.queue && walkQueue (streamPlan s e.1) e.2.desc == some p.num with
    | some e => some e.1
    | none => mine.head?.map (·.1)

/-- A parked wait ended: a task leaves with a CANCEL record, a ruled one's release abandoned, which completes never (R72, R81, R82), a unit's stream is cancelled. -/
def abortWait (p : Parked) (s : State) : State :=
  match p.waiter.what with
  | .task t => (if t.ruled then id else cancelStreams t) (listEvent (t.core / 8) t 3 0 s)
  | _ => match waitingStream s p with
    | some k => cancelStream k s
    | none => s

/-- WAIT_ABORT (R378). -/
def execWaitAbort (r : Req) (unit : BitVec 16) (object : Byte) (num : BitVec 16) (s : State) : Host.Outcome State Fault Refusal :=
  .next (goust r (waitCmd 0x0707 unit object num abortWait) s)

end Sys2Proof.Machine
end

