-- ==== Sys2Proof/Machine/Resets.lean ====
section
/-! DEFINITION. Session end, debug unlock, the resets and the power states (R430, R458, R462, R463, R496 to R503). -/

namespace Sys2Proof.Machine

/-! ### Responses that leave before an effect (R430, R458, R463) -/

/-- The mailbox packets waiting at a port sent; they are lost where the port carries nothing. -/
def emitMailbox (p : Nat) (s : State) : State :=
  let x := port s p
  let fs := x.out.filter fun f => f.cls == .mailbox
  let s := setPort p { x with out := x.out.filter fun f => f.cls != .mailbox } s
  if portCarries s p then fs.foldl (fun s f => emitFrame p f s) s else s

/-- One response of a mailbox sent. -/
def flushOne (m : Nat) (s : State) : State :=
  match look m s.links with
  | some l => emitMailbox l.port (offerResponse l.port (emitMailbox l.port s) m)
  | none => s

/-- The responses of a mailbox have left the device. -/
def flushResponses (s : State) (m : Nat) : State :=
  let waiting := ((queue? s (responseQueue m)).map (·.pkts.length)).getD 0 + (mbox s m).outbox.length
  (List.range waiting).foldl (fun s _ => flushOne m s) s

/-- The mailboxes with nothing pending and nothing to send; what they keep of completed commands stays (R427, R430). -/
def idleMailboxes (s : State) : State :=
  { s with mboxes := s.mboxes.map fun e => (e.1, { e.2 with pend := [], outbox := [] }), heldLoads := [], taken := [] }

/-! ### What the engines hold -/

/-- Every plan unloaded (R92). -/
def unloadAll (s : State) : State := (s.plans.map (·.1)).foldl (fun s n => unloadPlan n s) s

/-- The bytes of HBM alone; every SRAM tier reads as zero. -/
def zeroSram (s : State) : State := { s with mem := s.mem.filter fun c => c.1 / 2 ^ 53 == 1 }

/-- The clusters at their power-on state; one that is off stays off (Table 16-8). -/
def clearClusters (s : State) : State := { s with sched := s.sched.map fun e => (e.1, { Cluster.reset with off := e.2.off }) }

/-- The working state of every engine gone: what it held lay in SRAM. -/
def clearEngines (s : State) : State :=
  { clearClusters (zeroSram s) with
    streams := [], tables := [], combiners := [], joins := [], stats := [], nibs := [], lists := [], matchUnits := [], batches := [],
    caches := [], dips := [], regHeld := [], parked := [], queueWaits := [], queues := deviceQueues, lines := [], poolCorr := [] }

/-! ### Session end (R458) -/

/-- The memory of the session given back. -/
def freeSession (s : State) : State :=
  let s := s.allocs.foldl (fun s a => unmapRun (a.base / pageBytes) a.pages s) s
  { s with allocs := [], blot := { s.blot with ring := none, notice := none } }

/-- The packets that wait to be sealed are discarded with the keys (R457). -/
def discardSealed (s : State) : State :=
  { s with ports := s.ports.map fun e => (e.1, { e.2 with out := e.2.out.filter fun f => match f.body with
      | .kit h _ => h.keyId == 0xffff#16
      | _ => true }) }

/-- New memory keys of every die; nothing written under the old ones can be read back. -/
def redrawHbmKeys (s : State) : State :=
  let ks := (List.range 4).map fun i => fit 64 (Config.random 64 (s.freeCtr + i))
  { s with sec := { s.sec with hbmKeys := ks }, freeCtr := s.freeCtr + 4, mem := [] }

/-- The effects of session end (Table 14-9). -/
def endSession (s : State) : State :=
  let s := redrawHbmKeys (discardSealed (clearEngines (freeSession (unloadAll (idleMailboxes s)))))
  let sec := { s.sec with slots := [], opens := [], handshakes := [], parts := [], keyEpoch := s.sec.keyEpoch + 1,
                          scrub := some s.clk.cycle }
  zeroMr3 { s with sec := sec, cells := [], hostSigs := [], remote := [], tx := [], rx := [], links := [], windows := [], counters := [],
                   deviceNumber := 0, neighbours := [], exclusions := [],
                   actions := s.actions.filter fun a => actionClass a.act == 6 }

/-- SESSION_END (R430, R458): answered under the old keys, then carried out. -/
def execSessionEnd (r : Req) (s : State) : Host.Outcome State Fault Refusal :=
  let open' : Bool := starts s r (icmd 0x0606 0 [] fun s => .ok s [])
  let s := goust r (icmd 0x0606 0 [] fun s => .ok s []) s
  .next (if open' then endSession (flushResponses s r.mailbox.toNat) else s)

/-- SCRUB_COMPLETE: the scrub ends and slot 0 HELLOs are admitted again (R458). -/
def execScrubComplete (s : State) : Host.Outcome State Fault Refusal := .next { s with sec := { s.sec with scrub := none } }

/-! ### Debug unlock (R462, R463) -/

/-- The token is accepted (R462). -/
def tokenOk (s : State) (t : Bytes) : Bool :=
  let fixed := t.take 64
  let k := Config.debugKeys (byteAt t 5)
  t.length == 3437 && leAt t 0 4 == 0x4742444b && byteAt t 4 == 1 && decide (byteAt t 5 ≤ 1) && decide (leAt t 6 2 < 8) &&
    slice t 24 40 == zeros 40 && leAt t 8 8 == s.sec.fuses.serial.toNat && leAt t 16 8 == s.sec.debugNonce.toNat &&
    !s.sec.fuses.debugDisable && Config.ed25519Verify k.1 fixed (slice t 64 64) &&
    Config.mldsaVerify k.2 (ascii "KF384-debug") fixed (slice t 128 3309)

/-- The debug nonce renewed. -/
def renewNonce (s : State) : State :=
  { drawn s with sec := { s.sec with debugNonce := BitVec.ofNat 64 (ofLe (randomBytes 8 s)) } }

/-- What follows the response to an accepted token (R463). -/
def unlockDebug (t : Bytes) (s : State) : State :=
  let s := extendMr 3 0x31 t (endSession s)
  { s with sec := { s.sec with latched := true, scope := BitVec.ofNat 16 (leAt t 6 2) }, boot := { s.boot with debug := true } }

/-- The DEBUG_UNLOCK command up to its response. -/
def debugCmd (t : Bytes) : Cmd :=
  icmd 0x0607 3440 [] fun s => if tokenOk s t then .ok (renewNonce s) [] else .failWith (renewNonce s) St.tokenInvalid 0

/-- DEBUG_UNLOCK (R462, R463). -/
def execDebugUnlock (r : Req) (token : Bytes) (s : State) : Host.Outcome State Fault Refusal :=
  let taken : Bool := starts s r (debugCmd token) && tokenOk s token
  let s := goust r (debugCmd token) s
  .next (if taken then unlockDebug token (flushResponses s r.mailbox.toNat) else s)

/-! ### Warm reset (R430, R497) -/

/-- RUL_TICK and SCR_CYCLE restart (R44, Table 2-8); RUL_CFG stays, and a disciplined ruling acquires again. -/
def restartRuling (s : State) : State :=
  let s := { s with clk := { s.clk with scrBase := s.clk.cycle, edge := s.clk.cycle, len := period s, guard := false },
                    rul := { s.rul with tick := 0, stepPend := disciplined s, stepDue := false, anchor := none, aligned := 0, nextPeriod := none } }
  if disciplined s then setLock 1 s else s

/-- What a warm reset does (R497, Table 16-8). -/
def warmReset (s : State) : State :=
  let session : RxStream → Bool := fun r => match r.dest with | .queue _ => false | .window _ _ => true
  let s := unloadAll (idleMailboxes s)
  let s := clearEngines { s with rx := s.rx.filter session, tx := [], hostSigs := [] }
  refreshBound (restartRuling
    { s with cells := (s.cells.filter fun e => e.2.session).map fun e => (e.1, { e.2 with waiters := [] }),
             actions := [], exclusions := [], tests := [], tickEvents := [], blot := { s.blot with blots := [] },
             pwr := { s.pwr with warm := false } })

/-- WARM_RESET: at least 10 µs after its response has left, the warm reset that RESET asked for (R430, R497). -/
def execWarmReset (s : State) : Host.Outcome State Fault Refusal :=
  if !s.pwr.warm then .next s
  else
    let s := (List.range 16).foldl flushResponses s
    .next (warmReset (advanceTo (s.clk.cycle + 19000) s))

/-! ### Plan reset (R430, R498) -/

/-- The COPYING blocks of a plan back at HOME, and its MOVED and RETURNING blocks written back (R498 step 2). -/
def homeBlocks (slot : Nat) (s : State) : State :=
  (planTables s slot).foldl (fun s c =>
    (List.range (tableOf s slot c.ref).owners.length).foldl (fun s b =>
      match (tableOf s slot c.ref).owners[b]? with
      | some o => if o.state = 1 then abortCopy c b s else if o.state = 2 || o.state = 3 then writeBack s (c, b) else s
      | none => s) s) s

/-- An action that only the plan's going on would need. -/
def endsWithReset (slot : Nat) : Action → Bool
  | .tableSwap n _ _ _ => n == slot
  | .cutover n _ _ _ => n == slot
  | .dipChange n _ _ => n == slot
  | .activation n => n == slot
  | .rebindCommit n => n == slot
  | .retirement _ _ => false
  | .periodChange _ => false

/-- A plan reset accepted: steps 1 and 2 of R498, and its commit requested. -/
def beginPlanReset (slot : Nat) (p : Plan) (s : State) : State :=
  let s := cancelRebind slot (finalAnswer (slotPending slot) St.abandoned 0 [] s)
  let s := homeBlocks slot s
  let s := { s with actions := s.actions.filter fun a => !endsWithReset slot a.act,
                    stats := s.stats.map fun e => if e.1.1 = slot then (e.1, { e.2 with flips := [] }) else e }
  let again : Bool := p.resetting
  let s := setPlan slot { (plan? s slot).getD p with resetting := true } s
  if again then s else request (.retirement slot true) s

/-- A table after a plan reset: its owner entries kept with every block HOME (Table 16-8). -/
def homeTable (t : Table) : Table :=
  { t with owners := t.owners.map fun o => { o with die := 0, slot := 0, state := 0 }, migrations := [], landing := [], reqs := [],
           upds := [], pause := none, missing := [], peers := [] }

/-- Step 4 of R498: the plan's SRAM regions zero, its Reservoir parts and queues empty, its cells at their binding values, its match
loads applied again; its transmit and receive streams are gone. -/
def resetContents (slot : Nat) (p : Plan) (s : State) : State :=
  let streams := s.streams
  let tables := s.tables.map fun e => if e.1.1 = slot then (e.1, homeTable e.2) else e
  let s := { dropContents slot s with streams := streams, tables := tables }
  let s := zeroRanges ((p.bound.filter fun b => b.kind != 5).flatMap (boundRanges s slot)) s
  let s := dropWindows (p.bound.filter fun b => [1, 2, 4, 5].contains b.kind) s
  let qs := p.bound.filter fun b => b.kind == 6
  let s := qs.foldl (fun s b => setQueue b.index (planQueue slot b.size) s) (dropQueues (qs.map (·.index)) s)
  let cells := (p.bound.filter fun b => b.kind == 8).map (·.index)
  let s := bindCellValues slot p.bound { s with regHeld := s.regHeld.filter fun e => !cells.contains e.1,
                                                parked := s.parked.filter fun w => w.queue || !cells.contains w.num }
  let s := (p.bound.filter fun b => b.kind == 9).foldl (fun s b => clearMatch b s) s
  applyLoads p s

/-- A plan reset in force: the plan is LOADED with its binding and its HBM regions unchanged. -/
def finishPlanReset (slot : Nat) (s : State) : State :=
  match plan? s slot with
  | some p => resetContents slot p (setPlan slot { p with state := .loaded, changed := nowTick s, retireBands := 0, resetting := false,
                                                          padCopies := [], filterbanks := [] } s)
  | none => s

/-- PLAN_RESET_COMMIT: a plan reset commits as a class-5 action, in force from the closing edge (R498 steps 3 and 4). -/
def execPlanResetCommit (slot : BitVec 6) (s : State) : Host.Outcome State Fault Refusal :=
  match admitted s fun a => a == .retirement slot.toNat true, plan? s slot.toNat with
  | some a, some p => .next (retireBand slot.toNat a p (markDone a) s)
  | _, _ => .next s

/-! ### Cluster and port reset (R499) -/

/-- A bound plan holds a core, store part, cache share, match entry or queue of a cluster. -/
def clusterHeld (s : State) (k : Nat) : Bool :=
  s.plans.any fun e => e.2.bound.any fun b => [1, 2, 3, 6, 9].contains b.kind && onUnit s [clusterUid k 8] b

/-- The SRAM of a cluster zeroed: its store and its core pads. -/
def zeroCluster (k : Nat) (s : State) : State :=
  zeroRanges ((storeDva k 0, storeBytes) :: (List.range 8).map fun c => (padDva (8 * k + c) 0, padBytes)) s

/-- A cluster at its power-on state, its device-owned queues apart (R499). -/
def resetCluster (k : Nat) (s : State) : State :=
  let s := setCluster k { Cluster.reset with off := (cluster s k).off } (zeroCluster k s)
  { s with matchUnits := del k s.matchUnits, nibs := s.nibs.filter (fun e => e.1 / 64 != k), lines := del k s.lines,
           poolCorr := del (k / 12 * 16 + k % 12) s.poolCorr }

/-- Both halves of a physical port reset: pending configuration in force, drop counts zero, the link to be trained again (R499). -/
def resetPort (p : Nat) (s : State) : State :=
  [p / 2 * 2, p / 2 * 2 + 1].foldl (fun s h =>
    let x := port s h
    setPort h { x with live := x.cfg, linkUp := false, retraining := true, drops := List.replicate 17 0 } s) (settleBuckets s)

/-! ### RESET (R496) -/

/-- RESET's fields outside their sets, by payload offset (Table 16-6). -/
def resetBad (kind target : Nat) : List (Nat × Bool) :=
  let u := BitVec.ofNat 16 target
  [(0, kind == 0 || decide (4 < kind)),
   (2, (kind == 1 && target != 0) || (kind == 2 && decide (63 < target)) || (kind == 4 && decide (3 < target)) ||
       (kind == 3 && unitOk u && !(decide (uidCluster u < 12) && uidEngine u == 7 && uidSub u == 8)))]

/-- What a RESET comes to (Table 16-6). -/
def resetBody (kind target : Nat) (s : State) : CmdRes :=
  let k := uidClusterIndex (BitVec.ofNat 16 target)
  if kind = 1 then .accept { s with pwr := { s.pwr with warm := true } } (.reset 1 0) []
  else if kind = 2 then
    match plan? s target with
    | none => .fail St.stateRefused 0
    | some p => if p.state == .retiring then .fail St.stateRefused 0 else .accept (beginPlanReset target p s) (.reset 2 target) []
  else if kind = 3 then
    if clusterHeld s k then .fail St.stateRefused 0 else .accept (resetCluster k s) (.reset 3 target) []
  else if portHeld s target then .fail St.stateRefused 0
  else .accept (resetPort target s) (.reset 4 target) []

/-- RESET (R496): the kinds but the plan reset have their final response with their effect. -/
def execReset (r : Req) (kind : Byte) (target : BitVec 16) (s : State) : Host.Outcome State Fault Refusal :=
  .next (goustNow r
    { op := 0x0804, pending := true, len := 8, bad := resetBad kind.toNat target.toNat,
      units := if kind = 3 then [(2, target)] else [], body := resetBody kind.toNat target.toNat }
    (fun k => match k with | .reset n _ => n != 2 | _ => false) s)

/-! ### Power states (R500 to R502) -/

/-- The clusters of a mask. -/
def maskClusters (mask : Nat) : List Nat := (List.range 48).filter fun k => bitAt mask k

/-- Dormant is refused while a plan is ACTIVE or RETIRING or a rebind is pending (Table 16-7). -/
def dormantRefused (s : State) : Bool := s.plans.any fun e => e.2.state != .loaded || e.2.rebind.isSome

/-- A cluster that may not be switched off (Table 16-7). -/
def keepsOn (s : State) (k : Nat) : Bool := [11, 0, 24].contains k || clusterHeld s k

/-- A LOADED plan's queues and cells at their binding values and its match loads applied again (R502). -/
def restorePlan (s : State) (e : Nat × Plan) : State :=
  let p := e.2
  let s := (p.bound.filter fun b => b.kind == 6).foldl (fun s b => setQueue b.index (planQueue e.1 b.size) s) s
  setPlan e.1 { p with padCopies := [] } (applyLoads p (bindCellValues e.1 p.bound s))

/-- The exit from Dormant (R502): every SRAM but the device-owned queues zero, the LOADED plans restored. -/
def leaveDormant (s : State) : State :=
  let dev := s.queues.filter fun e => e.2.owner == .device
  let s := { clearClusters (zeroSram s) with
    matchUnits := [], nibs := [], lists := [], dips := [], combiners := [], caches := [], joins := [], lines := [],
    queues := s.queues, queueWaits := s.queueWaits.filter fun e => dev.any fun d => d.1 == e.1,
    regHeld := [], parked := [], cells := (s.cells.filter fun (e : Nat × SigCell) => e.2.session).map fun (e : Nat × SigCell) => (e.1, sessionCell),
    pwr := { s.pwr with state := .run } }
  s.plans.foldl restorePlan s

/-- A cluster switched off: its scheduler and Scribe ring clear (Table 16-8). -/
def clusterOff (s : State) (k : Nat) : State := setCluster k { Cluster.reset with off := true } (resetCluster k s)

/-- A cluster switched on again, its store and pads zero (Table 16-8). -/
def clusterOn (s : State) (k : Nat) : State :=
  if (cluster s k).off then zeroCluster k (setCluster k { cluster s k with off := false } s) else s

/-- What POWER_STATE_SET comes to (Table 16-7). -/
def powerBody (target mask : Nat) (s : State) : CmdRes :=
  if target = 0 then .accept (if s.pwr.state == .dormant then leaveDormant s else s) (.power target mask) []
  else if target = 1 then
    if dormantRefused s then .fail St.stateRefused 0 else .accept { s with pwr := { s.pwr with state := .dormant } } (.power target mask) []
  else if target = 2 then
    if (maskClusters mask).any (keepsOn s) then .fail St.stateRefused 0
    else .accept ((maskClusters mask).foldl clusterOff s) (.power target mask) []
  else .accept ((maskClusters mask).foldl clusterOn s) (.power target mask) []

/-- POWER_STATE_SET (R500). -/
def execPowerStateSet (r : Req) (target : Byte) (mask : BitVec 64) (s : State) : Host.Outcome State Fault Refusal :=
  .next (goustNow r
    (pcmd 0x0803 16 [(0, decide (3 < target.toNat)), (8, decide (2 ≤ target.toNat) && decide (2 ^ 48 ≤ mask.toNat))]
      (powerBody target.toNat mask.toNat))
    (fun k => match k with | .power _ _ => true | _ => false) s)

end Sys2Proof.Machine
end

