-- ==== Sys2Proof/Machine/Edges.lean ====
section
/-! DEFINITION. The tick edge: what it carries, and the boundary actions in force from it (R42, R104, R108, R252, R255, R428). -/

namespace Sys2Proof.Machine

/-- A boundary action in force. -/
def commitAction (s : State) (a : Action) : State :=
  match a with
  | .tableSwap slot live standby t => applySwap slot live standby t s
  | .cutover slot ref row _ => applyCutover slot ref row s
  | .dipChange slot ref row => applyDip slot ref row s
  | .rebindCommit slot => applyRebind slot s
  | .activation slot => activatePlan slot s
  | .retirement slot false => backToLoaded slot s
  | .retirement slot true => finishPlanReset slot s
  | .periodChange _ => s

/-- The actions carried out in the guard band put in force, in class order and within a class in request order (R68), and the returns that
a cutover has made room for begun (R255). -/
def commitActions (s : State) : State :=
  let done := (s.actions.filter (·.done)).map (·.act)
  let s := { s with actions := s.actions.filter fun a => !a.done }
  returnAll (([1, 2, 3, 4, 5, 6].flatMap fun c => done.filter fun a => actionClass a == c).foldl commitAction s)

/-- A command's effect is in force with the edge just made. -/
def edgeDone (s : State) : PendKind → Bool
  | .activate n => ((plan? s n).any fun p => p.state == .active) && !requested s (.activation n)
  | .retire n => ((plan? s n).any fun p => p.state == .loaded) && !requested s (.retirement n false)
  | .rebind n => (plan? s n).any fun p => p.rebind.isNone
  | _ => false

/-- A plan reset has committed. -/
def resetDone (s : State) : PendKind → Bool
  | .reset k n => k == 2 && (plan? s n).any fun p => !p.resetting
  | _ => false

/-- The commands whose effect an edge gives answered with the number of the tick it opens (R46, R428, R434, R483). -/
def answerEdge (s : State) : State :=
  let s := finalAnswer (edgeDone s) St.ok 0 (payload [.num 8 (nowTick s)]) (answerRuling s)
  finishExclusions (finalAnswer (resetDone s) St.ok 0 [] s)

/-- TICK_EDGE (R42): the boundary actions of the guard band are in force, the lists sealed there go to the transport, and the commands whose
effect the edge gives are answered, at the edge of a step once RUL_TICK has stepped (R50). -/
def execTickEdge (events : List TickReport) (s : State) : Host.Outcome State Fault Refusal :=
  let s := sendLists (commitActions (tickEdge events (reportMissing s)))
  .next (if s.rul.stepDue then s else answerEdge s)

/-- RUL_TICK stepped to a number: the plans whose state changed at this edge have changed in the tick of that number. -/
def renumber (n : Nat) (s : State) : State :=
  let old := nowTick s
  let s := { s with rul := { s.rul with tick := BitVec.ofNat 64 (n + b2n s.clk.guard), stepPend := false, stepDue := false } }
  { s with plans := s.plans.map fun e => (e.1, if e.2.changed = old then { e.2 with changed := n } else e.2) }

/-- RUL_TICK_STEP: at the first edge after discipline is turned on, RUL_TICK takes the number of the nearest aligned time (R50), and
with no ruled work bound the generator steps to the target phase in the tick that this edge opens (R52, assumption log 153). What the edge
answers carries that number. -/
def execRulTickStep (s : State) : Host.Outcome State Fault Refusal :=
  if !(s.rul.stepPend && s.rul.stepDue) then .next s
  else
    let a := nearestAligned s ((cyclesToNs s.clk.edge : Int) + s.ptp.offset).toNat
    let s := renumber a.1 s
    let s := { s with rul := { s.rul with anchor := some a } }
    .next (answerEdge { s with clk := { s.clk with len := nextLength s (!ruledBound s) } })

end Sys2Proof.Machine
end

