-- ==== Sys2Proof/Machine/HostStreams.lean ====
section
/-! DEFINITION. Host streams started and streams re-armed (R293, R306, R308, Table 13-8). -/

namespace Sys2Proof.Machine

/-! ### STREAM_START (R308) -/

/-- A descriptor of a host batch is as the streams chapter has it: no reserved bit, both sides by DVA, no abstract id. -/
def hostDescOk (b : Bytes) : Bool :=
  let d := streamAt b 0
  (b.take 5).all (· == 0) && d.srcAbs == 0xffff && d.dstAbs == 0xffff && d.sigSlot == 0xffff && d.cmpAbs == 0xffff && d.codec == 0 &&
    d.param == 0xffffffff && (descChecks 0 true false d).all fun c => !c.2

/-- The bytes of a range are all held and readable (R293). -/
def rangeHeld (s : State) (dva n : Nat) : Bool :=
  (List.range (n / pageBytes + 2)).all fun i => access s (min (dva + i * pageBytes) (dva + n - 1)) 1 == .ok

/-- A host stream number that a new stream may take: none has it, or the one that has it has ended (assumption log 116). -/
def hostNumberFree (s : State) (n : Nat) : Bool :=
  match stream? s (255, n) with
  | none => true
  | some x => (x.state == .done || x.state == .aborted || x.state == .cancelled) && x.transfers.isEmpty

/-- The lowest run of free host stream numbers. -/
def hostRun (s : State) (count : Nat) : Option Nat :=
  (List.range (65537 - count)).find? fun n => (List.range count).all fun i => hostNumberFree s (n + i)

/-- The stream engine of a host stream: a free choice among those not excluded (assumption log 117). -/
def hostEngine (s : State) : BitVec 16 :=
  let all := ((List.range 4).flatMap fun d => (List.range 8).map fun e => uid d 12 4 e 0).filter fun u => !isExcluded s u
  (all[freeNumber 8 s % max 1 all.length]?).getD (uid 0 12 4 0 0)

/-- STREAM_START: the streams of a batch start in batch order. -/
def execStreamStart (r : Req) (dva : BitVec 64) (count : BitVec 32) (s : State) : Host.Outcome State Fault Refusal :=
  let n := count.toNat
  .next (goust r (icmd 0x0306 16 [(8, decide (n = 0) || decide (65536 < n))] fun s =>
    let all := readDva s dva.toNat (64 * n)
    if !rangeHeld s dva.toNat (64 * n) || !(List.range n).all fun i => hostDescOk (slice all (64 * i) 64) then .fail St.malformed 32
    else match hostRun s n with
    | none => .fail St.noStream 0
    | some first =>
      .ok ((List.range n).foldl (fun s i =>
        drawn (setStream (255, first + i) { Stream.fresh (streamAt all (64 * i)) (hostEngine s) false with state := .running } s)) s)
        (payload [.num 2 first])) s)

/-! ### STREAM_REARM (R306) -/

/-- The first bytes of every row of a walk and the last ones, by DVA. -/
def walkEnds (base : Nat) (d : StreamDesc) : List Nat :=
  (List.range (tileCount d * tileRows d)).flatMap fun r =>
    (List.range (d.d0 / pageBytes + 2)).map fun i => walkDva base d 0 (r * d.d0 + min (d.d0 - 1) (i * pageBytes))

/-- An access of a re-armed walk is refused: it is out of range, or a ruled stream's that is not PINNED. -/
def walkRefused (s : State) (ruled : Bool) (a : Nat) : Bool :=
  match access s a 1 with
  | .out => true
  | .absent _ => ruled
  | .ok => ruled && (match look (a % 2 ^ 53 / pageBytes) s.pages with
    | some p => a / 2 ^ 53 == 0 && p.state != 2
    | none => false)

/-- An address lies in the abstract resource that a plan's stream names on one side. -/
def inResource (p : Option Plan) (w : Nat × Nat) (a : Nat) : Bool :=
  match p.bind fun p => sideBound p w.1 w.2 with
  | some b =>
    let base := if b.kind = 1 then padDva b.index 0 else b.base
    decide (base ≤ a) && decide (a < base + if b.kind = 1 then padBytes else b.size)
  | none => false

/-- The ring of a stream lies in held memory, a ruled stream's within the same abstract resource (R306). -/
def ringOk (s : State) (p : Option Plan) (ruled : Bool) (d : StreamDesc) : Bool :=
  match slotBase p d with
  | some b =>
    let n := d.slotBytes * (d.ring + 1)
    d.kind == 3 || ((spans b n).all (fun e => access s e.1 e.2 == .ok) &&
      (!ruled || (inResource p (slotSide d) b && inResource p (slotSide d) (b + n - 1))))
  | none => d.kind == 3 || d.kind == 2

/-- A re-arm passes R293's check, and a ruled stream's stays within the same abstract resource. -/
def rearmOk (s : State) (p : Option Plan) (ruled : Bool) (d : StreamDesc) : Bool :=
  ringOk s p ruled d && (match walkQueue p d, walkBaseDva p d with
    | some q, _ => queueHeld s q && (!ruled || (p.any fun p => p.bound.any fun b => b.kind == 6 && b.base == dvaOf 5 q))
    | none, some b => (walkEnds b d).all fun a => !walkRefused s ruled a && (!ruled || inResource p (walkSide d) a)
    | none, none => false)

/-- STREAM_REARM: a new source and destination for the next restart; an ingest stream is armed onto its new source (R124, R130). -/
def execStreamRearm (q : Req) (r : StreamRef) (src dst : BitVec 64) (s : State) : Host.Outcome State Fault Refusal :=
  .next (goust q (icmd 0x0308 24 (streamBad s r) fun s =>
    match stream? s (refKey r) with
    | none => .fail St.malformed 34
    | some x =>
      let p := streamPlan s (refKey r)
      let d := { x.desc with src := src.toNat, dst := dst.toNat }
      if !x.desc.persist || !rearmOk s p x.ruled d then .fail St.rearmRefused 0
      else if d.kind = 1 && src.toNat != x.desc.src then
        match armSource s p d with
        | .ok chunks => .ok (setStream (refKey r) { x with rearm := some (src.toNat, dst.toNat), rearmChunks := chunks } s) []
        | .error o => .fail St.sourceRefused o
      else .ok (setStream (refKey r) { x with rearm := some (src.toNat, dst.toNat), rearmChunks := x.ingest.chunks } s) []) s)

end Sys2Proof.Machine
end

