-- ==== Sys2Proof/Machine/Receive.lean ====
section
/-! DEFINITION. Received DATA, SIGNAL and MBX_REQ packets (R380, R382, R383, R399, R400, R402, R417). -/

namespace Sys2Proof.Machine

/-! ### Receive streams -/

/-- A receive stream replaced. -/
def setRx (e : RxStream) (s : State) : State :=
  { s with rx := s.rx.map fun x => if rxIs e.source e.ext e.stream x then e else x }

/-! ### DATA to a window (R399) -/

/-- A payload written into a window, its bytes counted; one wholly below the count, past the window's end, or that opens a ninth gap is
dropped. -/
def dataWindow (pt : Nat) (e : RxStream) (base size : Nat) (pos : BitVec 48) (bs : Bytes) (s : State) : State :=
  let o := pos.toNat % max 1 size
  let e' := rxCount pos bs.length e
  if (rxPlace e pos bs.length).isNone ∨ size < o + bs.length ∨ 8 < rxGaps e' then drop pt 0xe s
  else setRx e' (writeFree s (base + o) bs)

/-! ### DATA to a queue (R399) -/

/-- The parts that carry a packet on from `pos` up to its LAST one, where all of them are there. -/
def rxRest : Nat → List RxPart → BitVec 48 → Option (List RxPart)
  | 0, _, _ => none
  | n + 1, ps, pos =>
    match ps.find? fun p => !p.first && p.pos == pos with
    | none => none
    | some p =>
      if p.last then some [p]
      else (rxRest n (ps.erase p) (p.pos + BitVec.ofNat 48 p.bytes.length)).map (p :: ·)

/-- The parts of the first packet that is there from FIRST to LAST. -/
def rxWhole (ps : List RxPart) : Option (List RxPart) :=
  ps.findSome? fun p =>
    if !p.first then none
    else if p.last then some [p]
    else (rxRest ps.length (ps.erase p) (p.pos + BitVec.ofNat 48 p.bytes.length)).map (p :: ·)

/-- An assembled packet offered to its queue, tagged with the logical port (R399): committed, and then its bytes count; discarded where it can
never fit (R362); or dropped under 0x08 where it finds no room (R390). -/
def rxCommit (q : Nat) (run : List RxPart) (e : RxStream) (s : State) : RxStream × State :=
  let bs := run.flatMap (·.bytes)
  let pt := (run.getLast?.map (·.port)).getD 0
  let pos := (run.head?.map (·.pos)).getD 0
  match queue? s q with
  | none => (e, s)
  | some x =>
    if x.limit < cellsFor bs.length then (e, commitPacket q (portUid pt 2) pt bs s)
    else if queueRoom s q bs.length then (rxCount pos bs.length e, commitPacket q (portUid pt 2) pt bs s)
    else (e, drop pt 8 s)

/-- Every packet that is whole taken from the parts that wait. -/
def rxDrain (q : Nat) : Nat → RxStream → State → RxStream × State
  | 0, e, s => (e, s)
  | n + 1, e, s =>
    match rxWhole e.parts with
    | none => (e, s)
    | some run =>
      let e := { e with parts := run.foldl (fun ps p => ps.erase p) e.parts }
      let r := rxCommit q run e (setRx e s)
      rxDrain q n r.1 r.2

/-- A part has arrived before: it waits already, or its bytes have been committed past the count. -/
def rxSeen (e : RxStream) (part : RxPart) : Bool :=
  e.parts.any (fun x => x.pos == part.pos && x.bytes.length == part.bytes.length) ||
    (part.bytes != [] && e.later.any fun r =>
      let t := rxSpan e part.pos part.bytes.length
      r.1 ≤ t.1 && t.1 + t.2 ≤ r.1 + r.2)

/-- A part taken for a queue: dropped where all of it lies below the count, where it opens a ninth gap, or where the queue has no room for
what its stream holds uncommitted. -/
def dataQueue (pt : Nat) (e : RxStream) (q : Nat) (p : KitPacket) (bs : Bytes) (s : State) : State :=
  let part : RxPart := ⟨p.header.pos, p.header.first, p.header.last, pt, bs⟩
  let all := { e with parts := e.parts ++ [part] }
  let held := (all.parts.map (·.bytes.length)).foldl (· + ·) 0
  let tooLong : Bool := (queue? s q).any fun x => decide (x.limit < cellsFor held)
  if (rxPlace e part.pos bs.length).isNone then drop pt 0xe s
  else if rxSeen e part then s
  else if rxGaps e < rxGaps all ∧ 8 < rxGaps all then drop pt 0xe s
  else if !tooLong && !queueRoom (setRx { e with parts := [] } s) q held then drop pt 8 s
  else
    let r := rxDrain q all.parts.length all s
    setRx r.1 r.2

/-- DATA: a packet checked, opened and taken for its receive stream (R395, R399, R400); loads that waited for it may go on (R432). -/
def execData (p : KitPacket) (s : State) : Host.Outcome State Fault Refusal :=
  let pt := p.port.toNat
  match receiveKit p 1 s with
  | (none, s) => .next s
  | (some bs, s) =>
    match s.rx.find? (rxIs p.header.srcDev.toNat p.header.extSrc p.header.endpoint.toNat) with
    | none => .next (drop pt 0xd s)
    | some e =>
      match e.dest with
      | .window base size => .next (retryLoads (dataWindow pt e base size p.header.pos bs s))
      | .queue q => .next (retryLoads (flowControl (dataQueue pt e q p bs s)))

/-! ### SIGNAL (R380, R382, R383) -/

/-- SIGNAL: applied on arrival, or held as a remote signal; behind a full store it waits in the die's transport control ingress queue. -/
def execSignal (p : KitPacket) (s : State) : Host.Outcome State Fault Refusal :=
  let pt := p.port.toNat
  match receiveKit p 2 s with
  | (none, s) => .next s
  | (some bs, s) =>
    let die := portDie pt
    let r := remoteOf die p.header bs s
    if !cellHeld s r.cell then .next (drop pt 0xd s)
    else if !bitAt (leAt bs 0 32) 145 then .next (signalAdd r.cell r.n.toInt s)
    else if !queueRoom s (controlIngress pt) 64 then .next (drop pt 8 s)
    else .next (flowControl (admitRemotes (commitPacket (controlIngress pt) (portUid pt 2) pt (kitHeaderBytes p.header ++ bs) s)))

/-! ### MBX_REQ (R402, R417) -/

/-- A mailbox's link, as it stands before its first request. -/
def mailboxLink (s : State) (m : Nat) : MailboxLink := (look m s.links).getD ⟨none, ⟨0, [], 0⟩, 0, false, 0⟩

/-- A mailbox's link replaced. -/
def setLink (m : Nat) (l : MailboxLink) (s : State) : State := { s with links := put m l s.links }

/-- A message repeats the command its mailbox is still executing: the tag and the CRC-32C are the same (R427). -/
def repeatsHeld (s : State) (m : Nat) (msg : Bytes) : Bool :=
  s.heldLoads.any fun h => (heldReq h.1).any fun q =>
    q.mailbox.toNat == m && q.tag.toNat == leAt msg 12 4 && q.crc.toNat == crc32c msg

/-- Messages of a mailbox put among those taken: after all of earlier cycles and, of this cycle, after those of lower mailboxes (R424). -/
def takeIn (m : Nat) (msgs : List Bytes) (s : State) : State :=
  let after : Nat × Bytes × Nat → Bool := fun e => e.2.2 == s.clk.cycle && m < e.1
  { s with taken := s.taken.filter (fun e => !after e) ++ (msgs.map fun b => (m, b, s.clk.cycle)) ++ s.taken.filter after }

/-- The doorbell of a mailbox: Goust takes every packet committed to its request queue, in commit order (R417); a repeat of the command that
is still executing is discarded (R427). -/
def doorbell (m : Nat) (s : State) : State :=
  let b := mbox s m
  let s := setMbox m { b with doorbells := b.doorbells + 1 } s
  match queue? s (requestQueue m) with
  | none => s
  | some x =>
    if !goustUp s then s
    else if x.pkts.isEmpty then setMbox m { mbox s m with spurious := satBv 16 (b.spurious.toNat + 1) } s
    else
      let s := wakeQueue (requestQueue m) (setQueue (requestQueue m) (freePackets x.pkts.length { x with read := (x.pkts.length, 0) }) s)
      takeIn m ((x.pkts.map (·.bytes)).filter fun bs => !repeatsHeld s m bs) s

/-- A whole request, its cells tagged with the mailbox's number: on its queue with its doorbell, or discarded as too long (R360, R362, R402). -/
def requestIn (m : Nat) (p : KitPacket) (bs : Bytes) (s : State) : State :=
  let s := setLink m ⟨none, p.source, p.header.srcDev, p.header.extSrc, p.port.toNat⟩ s
  if 64 < cellsFor bs.length then
    let b := mbox s m
    setMbox m { b with discarded := satBv 8 (b.discarded.toNat + 1) } (commitPacket (requestQueue m) (portUid p.port.toNat 2) m bs s)
  else
    let s := commitPacket (requestQueue m) (portUid p.port.toNat 2) m bs s
    if p.header.doorbell then doorbell m s else s

/-- MBX_REQ: the parts of a request assembled in arrival order; a part that no FIRST has opened is dropped (R402). What it takes of the request
queue counts for flow control (R390). -/
def execMbxReq (p : KitPacket) (s : State) : Host.Outcome State Fault Refusal :=
  let pt := p.port.toNat
  match receiveKit p 4 s with
  | (none, s) => .next s
  | (some bs, s) =>
    let m := p.header.endpoint.toNat
    if 15 < m then .next (drop pt 0xd s)
    else
      let l := mailboxLink s m
      match (if p.header.first then some [] else l.parts) with
      | none => .next s
      | some a =>
        let a := a ++ bs
        let clear := setLink m { l with parts := none } s
        if cellsFor a.length ≤ 64 ∧ !queueRoom clear (requestQueue m) a.length then .next (drop pt 8 clear)
        else if p.header.last then .next (flowControl (requestIn m p a clear))
        else .next (flowControl (setLink m { l with parts := some a } s))

end Sys2Proof.Machine
end

