-- ==== Sys2Proof/Machine/StatCmds.lean ====
section
/-! DEFINITION. STATS_SET and STATS_READ (R201, Table 13-9). -/

namespace Sys2Proof.Machine

/-- A statistics reference of a plan, with its columns. -/
def statRef (s : State) (slot ref : Nat) : Option (Plan × Nat) :=
  match plan? s slot with
  | none => none
  | some p => match refOf p ref with
    | some r => if r.kind = 6 then some (p, leAt (refBytes s p ref 0 2) 0 2) else none
    | none => none

/-- STATS_SET (R201): the flip, with the records where action 2 writes some, waits for the next tick edge; a reference under automatic
refresh refuses it. -/
def execStatsSet (r : Req) (slot : Byte) (ref : BitVec 16) (action : Byte) (first : BitVec 16) (columns : List Bytes) (s : State) :
    Host.Outcome State Fault Refusal :=
  .next (goust r (pcmd 0x0404 (16 + 64 * columns.length)
    [(0, decide (63 < slot.toNat)), (4, action.toNat != 1 && action.toNat != 2), (8, decide (55 < columns.length))] fun s =>
    match statRef s slot.toNat ref.toNat with
    | none => .fail St.notTable 1
    | some (p, cols) =>
      if cols < first.toNat + columns.length then .fail St.notTable 1
      else if statAuto s p ref.toNat then .fail St.statsMode 0
      else
        let o := statObj s slot.toNat ref.toNat
        let w := if action.toNat = 2 then some (first.toNat, columns.map (fit 64)) else none
        .accept (setStat slot.toNat ref.toNat { o with flips := o.flips ++ [(nowTick s, w)] } s) (.stats slot.toNat ref.toNat (nowTick s)) []) s)

/-- STATS_READ: the header and records of the active or the inactive copy. -/
def execStatsRead (r : Req) (slot : Byte) (ref : BitVec 16) (copy : Byte) (first n : BitVec 16) (s : State) :
    Host.Outcome State Fault Refusal :=
  .next (goust r (icmd 0x0405 16 [(0, decide (63 < slot.toNat)), (4, decide (1 < copy.toNat)), (8, decide (55 < n.toNat))] fun s =>
    match statRef s slot.toNat ref.toNat with
    | none => .fail St.notTable 1
    | some (p, cols) =>
      if cols < first.toNat + n.toNat then .fail St.notTable 1
      else
        let a := statActive s p ref.toNat
        let k := if copy = 0 then a else 1 - a
        .ok s (refBytes s p ref.toNat 0 32 ++ refBytes s p ref.toNat (recordOff cols k first.toNat) (64 * n.toNat))) s)

end Sys2Proof.Machine
end

