-- ==== Sys2Proof/Machine/Dispatch.lean ====
section
/-! DEFINITION. One arm per command: the direct call of its meaning. -/

namespace Sys2Proof.Machine

/-- The effect of a command on everything but the queue of waiting commands. -/
def exec (i : Instr) (s : State) : Host.Outcome State Fault Refusal :=
  match i with
  | .identify r => Sys2Proof.Machine.execIdentify r s
  | .inventory r first => Sys2Proof.Machine.execInventory r first s
  | .mailboxRead r => Sys2Proof.Machine.execMailboxRead r s
  | .unknownOpcode r opcode => Sys2Proof.Machine.execUnknownOpcode r opcode s
  | .planLoad r image length stream count avoid => Sys2Proof.Machine.execPlanLoad r image length stream count avoid s
  | .planUnload r slot => Sys2Proof.Machine.execPlanUnload r slot s
  | .planActivate r slot => Sys2Proof.Machine.execPlanActivate r slot s
  | .planRetire r slot => Sys2Proof.Machine.execPlanRetire r slot s
  | .rebind r slot flags moves avoid => Sys2Proof.Machine.execRebind r slot flags moves avoid s
  | .rebindCancel r slot => Sys2Proof.Machine.execRebindCancel r slot s
  | .fitReportRead r offset => Sys2Proof.Machine.execFitReportRead r offset s
  | .planRead r slot => Sys2Proof.Machine.execPlanRead r slot s
  | .bindingRead r slot kind first => Sys2Proof.Machine.execBindingRead r slot kind first s
  | .memAlloc r bytes mask state => Sys2Proof.Machine.execMemAlloc r bytes mask state s
  | .memFree r base => Sys2Proof.Machine.execMemFree r base s
  | .pageBringIn r page source state => Sys2Proof.Machine.execPageBringIn r page source state s
  | .pageBringInComplete page => Sys2Proof.Machine.execPageBringInComplete page s
  | .pageSet r first pages action => Sys2Proof.Machine.execPageSet r first pages action s
  | .pageSetComplete first => Sys2Proof.Machine.execPageSetComplete first s
  | .pageRead r first n => Sys2Proof.Machine.execPageRead r first n s
  | .streamStart r dva count => Sys2Proof.Machine.execStreamStart r dva count s
  | .streamRead r st => Sys2Proof.Machine.execStreamRead r st s
  | .streamRearm r st src dst => Sys2Proof.Machine.execStreamRearm r st src dst s
  | .streamFaultRead r st => Sys2Proof.Machine.execStreamFaultRead r st s
  | .streamResume r st => Sys2Proof.Machine.execStreamResume r st s
  | .streamAbort r st => Sys2Proof.Machine.execStreamAbort r st s
  | .streamCancel r st => Sys2Proof.Machine.execStreamCancel r st s
  | .queueRead r queue => Sys2Proof.Machine.execQueueRead r queue s
  | .queueSet r queue desc => Sys2Proof.Machine.execQueueSet r queue desc s
  | .queueOp r take op cells => Sys2Proof.Machine.execQueueOp r take op cells s
  | .queueReset r queue => Sys2Proof.Machine.execQueueReset r queue s
  | .signalAlloc r n die => Sys2Proof.Machine.execSignalAlloc r n die s
  | .signalSet r cell value min max wdog toHost => Sys2Proof.Machine.execSignalSet r cell value min max wdog toHost s
  | .signalAdd r cell n => Sys2Proof.Machine.execSignalAdd r cell n s
  | .signalRead r cell => Sys2Proof.Machine.execSignalRead r cell s
  | .remoteDiscard r source ext stream pos => Sys2Proof.Machine.execRemoteDiscard r source ext stream pos s
  | .ownerMap r slot ref first words => Sys2Proof.Machine.execOwnerMap r slot ref first words s
  | .ownerRead r slot ref first n => Sys2Proof.Machine.execOwnerRead r slot ref first n s
  | .tableReplace r slot live standby t => Sys2Proof.Machine.execTableReplace r slot live standby t s
  | .statsSet r slot ref action first columns => Sys2Proof.Machine.execStatsSet r slot ref action first columns s
  | .statsRead r slot ref copy first n => Sys2Proof.Machine.execStatsRead r slot ref copy first n s
  | .tableCounters r slot ref => Sys2Proof.Machine.execTableCounters r slot ref s
  | .rulingRead r => Sys2Proof.Machine.execRulingRead r s
  | .rulingSet r cfg => Sys2Proof.Machine.execRulingSet r cfg s
  | .rulingAck r value => Sys2Proof.Machine.execRulingAck r value s
  | .taskSubmit r slot level ligs => Sys2Proof.Machine.execTaskSubmit r slot level ligs s
  | .taskCancel r task => Sys2Proof.Machine.execTaskCancel r task s
  | .traceSet r die cluster mode rearm bytes => Sys2Proof.Machine.execTraceSet r die cluster mode rearm bytes s
  | .traceRead r die cluster first => Sys2Proof.Machine.execTraceRead r die cluster first s
  | .attest r nonce => Sys2Proof.Machine.execAttest r nonce s
  | .measurementsRead r => Sys2Proof.Machine.execMeasurementsRead r s
  | .keyslotOpen r slot kind peer material => Sys2Proof.Machine.execKeyslotOpen r slot kind peer material s
  | .keyslotOpenTimeout slot => Sys2Proof.Machine.execKeyslotOpenTimeout slot s
  | .keyslotClose r slot => Sys2Proof.Machine.execKeyslotClose r slot s
  | .sessionRekey r material => Sys2Proof.Machine.execSessionRekey r material s
  | .rekeyTimeout => Sys2Proof.Machine.execRekeyTimeout s
  | .sessionEnd r => Sys2Proof.Machine.execSessionEnd r s
  | .scrubComplete => Sys2Proof.Machine.execScrubComplete s
  | .debugUnlock r token => Sys2Proof.Machine.execDebugUnlock r token s
  | .blotterSet r dva bytes cell => Sys2Proof.Machine.execBlotterSet r dva bytes cell s
  | .blotterRead r first => Sys2Proof.Machine.execBlotterRead r first s
  | .selftestRun r unit => Sys2Proof.Machine.execSelftestRun r unit s
  | .unitExclude r units => Sys2Proof.Machine.execUnitExclude r units s
  | .unitInclude r units => Sys2Proof.Machine.execUnitInclude r units s
  | .waitResume r unit object num => Sys2Proof.Machine.execWaitResume r unit object num s
  | .waitAbort r unit object num => Sys2Proof.Machine.execWaitAbort r unit object num s
  | .powerRead r => Sys2Proof.Machine.execPowerRead r s
  | .powerCapSet r cap => Sys2Proof.Machine.execPowerCapSet r cap s
  | .powerStateSet r target mask => Sys2Proof.Machine.execPowerStateSet r target mask s
  | .reset r kind target => Sys2Proof.Machine.execReset r kind target s
  | .warmReset => Sys2Proof.Machine.execWarmReset s
  | .planResetCommit slot => Sys2Proof.Machine.execPlanResetCommit slot s
  | .portSet r port cfg ip => Sys2Proof.Machine.execPortSet r port cfg ip s
  | .portRead r port => Sys2Proof.Machine.execPortRead r port s
  | .deviceNumberSet r number => Sys2Proof.Machine.execDeviceNumberSet r number s
  | .neighbourSet r first entries => Sys2Proof.Machine.execNeighbourSet r first entries s
  | .txStreamSet r queue dest stream port cls key => Sys2Proof.Machine.execTxStreamSet r queue dest stream port cls key s
  | .rxStreamSet r source ext dest stream queue dva bytes => Sys2Proof.Machine.execRxStreamSet r source ext dest stream queue dva bytes s
  | .rxStreamRead r source ext stream => Sys2Proof.Machine.execRxStreamRead r source ext stream s
  | .ptpSet r port transport domain asymmetry => Sys2Proof.Machine.execPtpSet r port transport domain asymmetry s
  | .ptpRead r => Sys2Proof.Machine.execPtpRead r s
  | .matchWrite r slot region first images => Sys2Proof.Machine.execMatchWrite r slot region first images s
  | .matchTags r slot region first tags => Sys2Proof.Machine.execMatchTags r slot region first tags s
  | .matchRead r slot region first n => Sys2Proof.Machine.execMatchRead r slot region first n s
  | .tickEdge events => Sys2Proof.Machine.execTickEdge events s
  | .guardBandOpen => Sys2Proof.Machine.execGuardBandOpen s
  | .tableSwap slot live => Sys2Proof.Machine.execTableSwap slot live s
  | .hotRowCutover slot ref row => Sys2Proof.Machine.execHotRowCutover slot ref row s
  | .dipPlacementChange slot ref row => Sys2Proof.Machine.execDipPlacementChange slot ref row s
  | .rebindCommit slot => Sys2Proof.Machine.execRebindCommit slot s
  | .planActivation slot => Sys2Proof.Machine.execPlanActivation slot s
  | .planRetirement slot => Sys2Proof.Machine.execPlanRetirement slot s
  | .periodChange => Sys2Proof.Machine.execPeriodChange s
  | .rulTickStep => Sys2Proof.Machine.execRulTickStep s
  | .rulLockLocked => Sys2Proof.Machine.execRulLockLocked s
  | .ptpHoldover => Sys2Proof.Machine.execPtpHoldover s
  | .rulEdgeMiss unit => Sys2Proof.Machine.execRulEdgeMiss unit s
  | .ruledRelease slot cert => Sys2Proof.Machine.execRuledRelease slot cert s
  | .dispatch cluster core => Sys2Proof.Machine.execDispatch cluster core s
  | .heldEventOffered cluster => Sys2Proof.Machine.execHeldEventOffered cluster s
  | .ligatureComplete task => Sys2Proof.Machine.execLigatureComplete task s
  | .rulOverrun task unit => Sys2Proof.Machine.execRulOverrun task unit s
  | .feedRead st => Sys2Proof.Machine.execFeedRead st s
  | .feedWrite st => Sys2Proof.Machine.execFeedWrite st s
  | .filter st => Sys2Proof.Machine.execFilter st s
  | .filterCompact st => Sys2Proof.Machine.execFilterCompact st s
  | .hash st => Sys2Proof.Machine.execHash st s
  | .joinBuild st => Sys2Proof.Machine.execJoinBuild st s
  | .joinProbe st => Sys2Proof.Machine.execJoinProbe st s
  | .groupPartial st => Sys2Proof.Machine.execGroupPartial st s
  | .groupMerge st => Sys2Proof.Machine.execGroupMerge st s
  | .shape st => Sys2Proof.Machine.execShape st s
  | .stats st => Sys2Proof.Machine.execStats st s
  | .spectral st => Sys2Proof.Machine.execSpectral st s
  | .layers st => Sys2Proof.Machine.execLayers st s
  | .topk st => Sys2Proof.Machine.execTopk st s
  | .merge st => Sys2Proof.Machine.execMerge st s
  | .argmax st => Sys2Proof.Machine.execArgmax st s
  | .match_ st parity => Sys2Proof.Machine.execMatch st parity s
  | .automaton st parity => Sys2Proof.Machine.execAutomaton st parity s
  | .lookup st => Sys2Proof.Machine.execLookup st s
  | .pool st => Sys2Proof.Machine.execPool st s
  | .poolDirect st => Sys2Proof.Machine.execPoolDirect st s
  | .update st => Sys2Proof.Machine.execUpdate st s
  | .serveTask slot stream => Sys2Proof.Machine.execServeTask slot stream s
  | .combinerWindow die slot => Sys2Proof.Machine.execCombinerWindow die slot s
  | .combinerDrain die => Sys2Proof.Machine.execCombinerDrain die s
  | .surveyInterval => Sys2Proof.Machine.execSurveyInterval s
  | .migrationCopyComplete slot ref row => Sys2Proof.Machine.execMigrationCopyComplete slot ref row s
  | .rebindCopyComplete slot => Sys2Proof.Machine.execRebindCopyComplete slot s
  | .zeroingComplete => Sys2Proof.Machine.execZeroingComplete s
  | .replicaCopyComplete slot ref die => Sys2Proof.Machine.execReplicaCopyComplete slot ref die s
  | .padCopyComplete slot ref core => Sys2Proof.Machine.execPadCopyComplete slot ref core s
  | .epochBoundary slot => Sys2Proof.Machine.execEpochBoundary slot s
  | .statsMerge slot ref => Sys2Proof.Machine.execStatsMerge slot ref s
  | .statsFlip slot ref => Sys2Proof.Machine.execStatsFlip slot ref s
  | .tileBegin st => Sys2Proof.Machine.execTileBegin st s
  | .transferIssue st => Sys2Proof.Machine.execTransferIssue st s
  | .transferComplete st tag lost tagFail => Sys2Proof.Machine.execTransferComplete st tag lost tagFail s
  | .strTagLate st tag => Sys2Proof.Machine.execStrTagLate st tag s
  | .slotDrain st => Sys2Proof.Machine.execSlotDrain st s
  | .batchClose slot layout => Sys2Proof.Machine.execBatchClose slot layout s
  | .ingestUnitDecode st => Sys2Proof.Machine.execIngestUnitDecode st s
  | .frameDecode st historyLost => Sys2Proof.Machine.execFrameDecode st historyLost s
  | .blockVerify st block historyLost => Sys2Proof.Machine.execBlockVerify st block historyLost s
  | .rasterItem slot stream => Sys2Proof.Machine.execRasterItem slot stream s
  | .pcmItem slot stream => Sys2Proof.Machine.execPcmItem slot stream s
  | .packetCommit queue unit packet => Sys2Proof.Machine.execPacketCommit queue unit packet s
  | .takeWait queue unit badWord corrected => Sys2Proof.Machine.execTakeWait queue unit badWord corrected s
  | .takePoll take => Sys2Proof.Machine.execTakePoll take s
  | .mark queue => Sys2Proof.Machine.execMark queue s
  | .rewind queue => Sys2Proof.Machine.execRewind queue s
  | .release queue => Sys2Proof.Machine.execRelease queue s
  | .addApplied cell n unit => Sys2Proof.Machine.execAddApplied cell n unit s
  | .waitTimeout queue num unit => Sys2Proof.Machine.execWaitTimeout queue num unit s
  | .remoteSignalApplied source ext stream pos => Sys2Proof.Machine.execRemoteSignalApplied source ext stream pos s
  | .sigRemoteHeld source ext stream pos => Sys2Proof.Machine.execSigRemoteHeld source ext stream pos s
  | .data p => Sys2Proof.Machine.execData p s
  | .signal p => Sys2Proof.Machine.execSignal p s
  | .mbxReq p => Sys2Proof.Machine.execMbxReq p s
  | .exReq p => Sys2Proof.Machine.execExReq p s
  | .exUpd p => Sys2Proof.Machine.execExUpd p s
  | .exRows p => Sys2Proof.Machine.execExRows p s
  | .exLate p => Sys2Proof.Machine.execExLate p s
  | .dipReq p late => Sys2Proof.Machine.execDipReq p late s
  | .idReq p => Sys2Proof.Machine.execIdReq p s
  | .hello p => Sys2Proof.Machine.execHello p s
  | .finish p => Sys2Proof.Machine.execFinish p s
  | .reply p => Sys2Proof.Machine.execReply p s
  | .confirm p => Sys2Proof.Machine.execConfirm p s
  | .abort p => Sys2Proof.Machine.execAbort p s
  | .handshakeFragmentTimeout id type => Sys2Proof.Machine.execHandshakeFragmentTimeout id type s
  | .handshakeTimeout slot => Sys2Proof.Machine.execHandshakeTimeout slot s
  | .helloRepeat slot => Sys2Proof.Machine.execHelloRepeat slot s
  | .notForPort port frame => Sys2Proof.Machine.execNotForPort port frame s
  | .pfcFrame port times => Sys2Proof.Machine.execPfcFrame port times s
  | .pauseFrame port => Sys2Proof.Machine.execPauseFrame port s
  | .sync m => Sys2Proof.Machine.execSync m s
  | .followUp m => Sys2Proof.Machine.execFollowUp m s
  | .delayResp m => Sys2Proof.Machine.execDelayResp m s
  | .announce m d => Sys2Proof.Machine.execAnnounce m d s
  | .frameBoundary port => Sys2Proof.Machine.execFrameBoundary port s
  | .transmitStreamPacket take => Sys2Proof.Machine.execTransmitStreamPacket take s
  | .portLinkDown port => Sys2Proof.Machine.execPortLinkDown port s
  | .linkUp port => Sys2Proof.Machine.execLinkUp port s
  | .uncorrectedCodeword port => Sys2Proof.Machine.execUncorrectedCodeword port s
  | .linkLaneDown die peer group => Sys2Proof.Machine.execLinkLaneDown die peer group s
  | .linkDown die peer => Sys2Proof.Machine.execLinkDown die peer s
  | .ptpPpsIn ago width => Sys2Proof.Machine.execPtpPpsIn ago width s
  | .ptpPpsOut => Sys2Proof.Machine.execPtpPpsOut s
  | .selftestSegment unit failing => Sys2Proof.Machine.execSelftestSegment unit failing s
  | .selftestDeferred unit => Sys2Proof.Machine.execSelftestDeferred unit s
  | .unitExcluded unit => Sys2Proof.Machine.execUnitExcluded unit s
  | .quillLockstep => Sys2Proof.Machine.execQuillLockstep s
  | .secTrngHealth ok => Sys2Proof.Machine.execSecTrngHealth ok s
  | .powerOn fresh => Sys2Proof.Machine.execPowerOn fresh s
  | .pwrGood => Sys2Proof.Machine.execPwrGood s
  | .loaderAccepted primary alternate => Sys2Proof.Machine.execLoaderAccepted primary alternate s
  | .goustReady primary alternate bringup => Sys2Proof.Machine.execGoustReady primary alternate bringup s
  | .modResetN => Sys2Proof.Machine.execModResetN s
  | .modResetRelease => Sys2Proof.Machine.execModResetRelease s
  | .standby => Sys2Proof.Machine.execStandby s
  | .supplyWarningBand supply mv => Sys2Proof.Machine.execSupplyWarningBand supply mv s
  | .thermalWarn sensor temp => Sys2Proof.Machine.execThermalWarn sensor temp s
  | .protection sensor reading => Sys2Proof.Machine.execProtection sensor reading s
  | .shutdown sensor => Sys2Proof.Machine.execShutdown sensor s
  | .powerComparison moduleMw hbmMw computeMw => Sys2Proof.Machine.execPowerComparison moduleMw hbmMw computeMw s
  | .capUnheld => Sys2Proof.Machine.execCapUnheld s
  | .telemetryWrite address data => Sys2Proof.Machine.execTelemetryWrite address data s
  | .idcode => Sys2Proof.Machine.execIdcode s
  | .bypass bit => Sys2Proof.Machine.execBypass bit s
  | .imageIncomplete => Sys2Proof.Machine.execImageIncomplete s
  | .pauseTimeExpired port priority => Sys2Proof.Machine.execPauseTimeExpired port priority s
  | .readingReturnedToRange sensor reading => Sys2Proof.Machine.execReadingReturnedToRange sensor reading s

end Sys2Proof.Machine
end

