-- ==== Sys2Proof/Machine/Requests.lean ====
section
/-! DEFINITION. Mailbox requests read from their bytes (Table 13-2, R418, R420, Tables 13-6 to 13-15), and the next one Goust starts
(R417, R423 to R425). -/

namespace Sys2Proof.Machine

/-! ### Placement of the fields (R420) -/

/-- The bytes and the arrays of a request: the sizes of its single fields in order (8 or more is a byte array), and its element arrays
as (field that counts them, bytes of an element, first reserved byte of an element). -/
structure ReqShape where
  (sizes : List Nat)
  (arrays : List (Nat × Nat × Nat))
  deriving Repr

/-- The offsets of single fields from an offset on, and the offset past the last. -/
def reqOffsets : Nat → List Nat → List Nat × Nat
  | cur, [] => ([], cur)
  | cur, n :: r =>
    let o := alignUp cur (min 8 n)
    let x := reqOffsets (o + n) r
    (o :: x.1, x.2)

/-- A request's payload read by its shape: the field offsets and sizes, and each array's offset, count and element size. -/
structure ReqLayout where
  (offs : List (Nat × Nat))
  (arrs : List (Nat × Nat × Nat × Nat))
  (size : Nat)
  deriving Repr

/-- The arrays placed after the single fields, in order. -/
def placeArrays (body : Bytes) (offs : List (Nat × Nat)) : Nat → List (Nat × Nat × Nat) → List (Nat × Nat × Nat × Nat) × Nat
  | cur, [] => ([], cur)
  | cur, (k, size, rsv) :: r =>
    let o := alignUp cur 8
    let n := match offs[k]? with | some f => leAt body f.1 f.2 | none => 0
    let x := placeArrays body offs (o + n * size) r
    ((o, n, size, rsv) :: x.1, x.2)

/-- The layout of a payload. -/
def reqLayout (sh : ReqShape) (body : Bytes) : ReqLayout :=
  let f := reqOffsets 0 sh.sizes
  let offs := f.1.zip sh.sizes
  let a := placeArrays body offs f.2 sh.arrays
  ⟨offs, a.1, alignUp a.2 8⟩

/-- The reserved runs of a payload as (offset, bytes), in ascending order. -/
def reservedRuns (l : ReqLayout) : List (Nat × Nat) :=
  let used := l.offs ++ l.arrs.map fun a => (a.1, a.2.1 * a.2.2.1)
  let step : Nat × List (Nat × Nat) → Nat × Nat → Nat × List (Nat × Nat) := fun x u =>
    (u.1 + u.2, if x.1 < u.1 then x.2 ++ [(x.1, u.1 - x.1)] else x.2)
  let r := (used ++ [(l.size, 0)]).foldl step (0, [])
  let inner := l.arrs.flatMap fun a => if a.2.2.2 < a.2.2.1 then
      (List.range a.2.1).map fun i => (a.1 + i * a.2.2.1 + a.2.2.2, a.2.2.1 - a.2.2.2) else []
  sortBy (fun a b => decide (a.1 < b.1)) (r.2 ++ inner)

/-- Field `k` of a payload as a number. -/
def reqNum (l : ReqLayout) (body : Bytes) (k : Nat) : Nat := match l.offs[k]? with | some f => leAt body f.1 f.2 | none => 0

/-- Field `k` of a payload as its bytes. -/
def reqBytes (l : ReqLayout) (body : Bytes) (k : Nat) : Bytes := match l.offs[k]? with | some f => fit f.2 (body.drop f.1) | none => []

/-- The elements of array `k`. -/
def arrayItems (l : ReqLayout) (body : Bytes) (k : Nat) : List Bytes :=
  match l.arrs[k]? with
  | some a => (List.range a.2.1).map fun i => fit a.2.2.1 (body.drop (a.1 + i * a.2.2.1))
  | none => []

/-- The shape of each command's request (Tables 13-6 to 13-15); none for an opcode not defined. -/
def reqShape (op : Nat) : Option ReqShape :=
  match op with
  | 0x0101 => some ⟨[], []⟩
  | 0x0102 => some ⟨[4], []⟩
  | 0x0103 => some ⟨[], []⟩
  | 0x0201 => some ⟨[8, 4, 2, 2, 8], [(3, 2, 2)]⟩
  | 0x0202 => some ⟨[1], []⟩
  | 0x0203 => some ⟨[1], []⟩
  | 0x0204 => some ⟨[1], []⟩
  | 0x0205 => some ⟨[1, 1, 2, 2], [(2, 4, 4), (3, 2, 2)]⟩
  | 0x0206 => some ⟨[1], []⟩
  | 0x0207 => some ⟨[4], []⟩
  | 0x0208 => some ⟨[1], []⟩
  | 0x0209 => some ⟨[1, 1, 2], []⟩
  | 0x0301 => some ⟨[8, 1, 1], []⟩
  | 0x0302 => some ⟨[8], []⟩
  | 0x0303 => some ⟨[8, 8, 1], []⟩
  | 0x0304 => some ⟨[8, 4, 1], []⟩
  | 0x0305 => some ⟨[8, 4], []⟩
  | 0x0306 => some ⟨[8, 4], []⟩
  | 0x0307 => some ⟨[1, 2], []⟩
  | 0x0308 => some ⟨[1, 2, 8, 8], []⟩
  | 0x0309 => some ⟨[1, 2], []⟩
  | 0x030a => some ⟨[1, 2], []⟩
  | 0x030b => some ⟨[1, 2], []⟩
  | 0x030c => some ⟨[1, 2], []⟩
  | 0x030d => some ⟨[2], []⟩
  | 0x030e => some ⟨[2, 32], []⟩
  | 0x030f => some ⟨[2, 1, 1], []⟩
  | 0x0310 => some ⟨[2], []⟩
  | 0x0311 => some ⟨[2, 1], []⟩
  | 0x0312 => some ⟨[2, 4, 4, 4, 4, 1], []⟩
  | 0x0313 => some ⟨[2, 4], []⟩
  | 0x0314 => some ⟨[2], []⟩
  | 0x0315 => some ⟨[2, 1, 2, 8], []⟩
  | 0x0401 => some ⟨[1, 2, 4, 2], [(3, 8, 8)]⟩
  | 0x0402 => some ⟨[1, 2, 4, 2], []⟩
  | 0x0403 => some ⟨[1, 2, 2, 8], []⟩
  | 0x0404 => some ⟨[1, 2, 1, 2, 2], [(4, 64, 64)]⟩
  | 0x0405 => some ⟨[1, 2, 1, 2, 2], []⟩
  | 0x0406 => some ⟨[1, 2], []⟩
  | 0x0501 => some ⟨[], []⟩
  | 0x0502 => some ⟨[8], []⟩
  | 0x0503 => some ⟨[4], []⟩
  | 0x0504 => some ⟨[1, 1, 2], [(2, 4, 4)]⟩
  | 0x0505 => some ⟨[4], []⟩
  | 0x0506 => some ⟨[1, 1, 1, 1, 4], []⟩
  | 0x0507 => some ⟨[1, 1, 4], []⟩
  | 0x0601 => some ⟨[32], []⟩
  | 0x0602 => some ⟨[], []⟩
  | 0x0603 => some ⟨[2, 1, 2], []⟩
  | 0x0604 => some ⟨[2], []⟩
  | 0x0605 => some ⟨[1248], []⟩
  | 0x0606 => some ⟨[], []⟩
  | 0x0607 => some ⟨[3437], []⟩
  | 0x0701 => some ⟨[8, 4, 2], []⟩
  | 0x0702 => some ⟨[4], []⟩
  | 0x0703 => some ⟨[2], []⟩
  | 0x0704 => some ⟨[2], [(0, 2, 2)]⟩
  | 0x0705 => some ⟨[2], [(0, 2, 2)]⟩
  | 0x0706 => some ⟨[2, 1, 2], []⟩
  | 0x0707 => some ⟨[2, 1, 2], []⟩
  | 0x0801 => some ⟨[], []⟩
  | 0x0802 => some ⟨[4], []⟩
  | 0x0803 => some ⟨[1, 8], []⟩
  | 0x0804 => some ⟨[1, 2], []⟩
  | 0x0901 => some ⟨[1, 8, 16], []⟩
  | 0x0902 => some ⟨[1], []⟩
  | 0x0903 => some ⟨[2], []⟩
  | 0x0904 => some ⟨[2, 2], [(1, 32, 25)]⟩
  | 0x0905 => some ⟨[2, 2, 2, 1, 1, 2], []⟩
  | 0x0906 => some ⟨[2, 1, 1, 2, 2, 8, 8], []⟩
  | 0x0907 => some ⟨[2, 1, 2], []⟩
  | 0x0908 => some ⟨[1, 1, 1, 4], []⟩
  | 0x0909 => some ⟨[], []⟩
  | 0x0a01 => some ⟨[1, 2, 2, 2], [(3, 40, 40)]⟩
  | 0x0a02 => some ⟨[1, 2, 2, 2], [(3, 1, 1)]⟩
  | 0x0a03 => some ⟨[1, 2, 2, 2], []⟩
  | _ => none

/-- The fields of a payload as the operands of a command take them. -/
structure Fields where
  (l : ReqLayout)
  (body : Bytes)

/-- Field `k` at a width. -/
def Fields.n (f : Fields) (k : Nat) {w : Nat} : BitVec w := BitVec.ofNat w (reqNum f.l f.body k)
/-- Field `k` as bytes. -/
def Fields.b (f : Fields) (k : Nat) : Bytes := reqBytes f.l f.body k
/-- Array `k` as its elements' bytes. -/
def Fields.items (f : Fields) (k : Nat) : List Bytes := arrayItems f.l f.body k
/-- Array `k` as numbers at a width. -/
def Fields.nums (f : Fields) (k : Nat) {w : Nat} : List (BitVec w) := (f.items k).map fun e => BitVec.ofNat w (ofLe e)
/-- The stream that fields 0 and 1 name. -/
def Fields.stream (f : Fields) : StreamRef := ⟨f.n 0, f.n 1⟩

/-- The commands of Tables 13-6 to 13-8. -/
def commandLow (r : Req) (op : Nat) (f : Fields) : Option Instr :=
  match op with
  | 0x0101 => some (.identify r)
  | 0x0102 => some (.inventory r (f.n 0))
  | 0x0103 => some (.mailboxRead r)
  | 0x0201 => some (.planLoad r (f.n 0) (f.n 1) (f.n 2) (f.n 4) (f.nums 0))
  | 0x0202 => some (.planUnload r (f.n 0))
  | 0x0203 => some (.planActivate r (f.n 0))
  | 0x0204 => some (.planRetire r (f.n 0))
  | 0x0205 => some (.rebind r (f.n 0) (f.n 1)
      ((f.items 0).map fun e => ⟨BitVec.ofNat 16 (leAt e 0 2), BitVec.ofNat 8 (byteAt e 2), BitVec.ofNat 8 (byteAt e 3)⟩) (f.nums 1))
  | 0x0206 => some (.rebindCancel r (f.n 0))
  | 0x0207 => some (.fitReportRead r (f.n 0))
  | 0x0208 => some (.planRead r (f.n 0))
  | 0x0209 => some (.bindingRead r (f.n 0) (f.n 1) (f.n 2))
  | 0x0301 => some (.memAlloc r (f.n 0) (f.n 1) (f.n 2))
  | 0x0302 => some (.memFree r (f.n 0))
  | 0x0303 => some (.pageBringIn r (f.n 0) (f.n 1) (f.n 2))
  | 0x0304 => some (.pageSet r (f.n 0) (f.n 1) (f.n 2))
  | 0x0305 => some (.pageRead r (f.n 0) (f.n 1))
  | 0x0306 => some (.streamStart r (f.n 0) (f.n 1))
  | 0x0307 => some (.streamRead r f.stream)
  | 0x0308 => some (.streamRearm r f.stream (f.n 2) (f.n 3))
  | 0x0309 => some (.streamFaultRead r f.stream)
  | 0x030a => some (.streamResume r f.stream)
  | 0x030b => some (.streamAbort r f.stream)
  | 0x030c => some (.streamCancel r f.stream)
  | 0x030d => some (.queueRead r (f.n 0))
  | 0x030e => some (.queueSet r (f.n 0) (BitVec.ofNat 256 (ofLe (f.b 1))))
  | 0x030f => some (.queueOp r ⟨f.n 0, none, 0⟩ (f.n 1) (f.n 2))
  | 0x0310 => some (.queueReset r (f.n 0))
  | 0x0311 => some (.signalAlloc r (f.n 0) (f.n 1))
  | 0x0312 => some (.signalSet r (f.n 0) (f.n 1) (f.n 2) (f.n 3) (f.n 4) (f.n 5))
  | 0x0313 => some (.signalAdd r (f.n 0) (f.n 1))
  | 0x0314 => some (.signalRead r (f.n 0))
  | 0x0315 => some (.remoteDiscard r (f.n 0) (f.n 1) (f.n 2) (f.n 3))
  | _ => none

/-- The commands of Tables 13-9 to 13-15. -/
def commandHigh (r : Req) (op : Nat) (f : Fields) : Option Instr :=
  match op with
  | 0x0401 => some (.ownerMap r (f.n 0) (f.n 1) (f.n 2) (f.nums 0))
  | 0x0402 => some (.ownerRead r (f.n 0) (f.n 1) (f.n 2) (f.n 3))
  | 0x0403 => some (.tableReplace r (f.n 0) (f.n 1) (f.n 2) (f.n 3))
  | 0x0404 => some (.statsSet r (f.n 0) (f.n 1) (f.n 2) (f.n 3) (f.items 0))
  | 0x0405 => some (.statsRead r (f.n 0) (f.n 1) (f.n 2) (f.n 3) (f.n 4))
  | 0x0406 => some (.tableCounters r (f.n 0) (f.n 1))
  | 0x0501 => some (.rulingRead r)
  | 0x0502 => some (.rulingSet r (f.n 0))
  | 0x0503 => some (.rulingAck r (f.n 0))
  | 0x0504 => some (.taskSubmit r (f.n 0) (f.n 1) (f.nums 0))
  | 0x0505 => some (.taskCancel r (f.n 0))
  | 0x0506 => some (.traceSet r (f.n 0) (f.n 1) (f.n 2) (f.n 3) (f.n 4))
  | 0x0507 => some (.traceRead r (f.n 0) (f.n 1) (f.n 2))
  | 0x0601 => some (.attest r (f.b 0))
  | 0x0602 => some (.measurementsRead r)
  | 0x0603 => some (.keyslotOpen r (f.n 0) (f.n 1) (f.n 2) (f.body.drop 8))
  | 0x0604 => some (.keyslotClose r (f.n 0))
  | 0x0605 => some (.sessionRekey r (f.b 0))
  | 0x0606 => some (.sessionEnd r)
  | 0x0607 => some (.debugUnlock r (f.b 0))
  | 0x0701 => some (.blotterSet r (f.n 0) (f.n 1) (f.n 2))
  | 0x0702 => some (.blotterRead r (f.n 0))
  | 0x0703 => some (.selftestRun r (f.n 0))
  | 0x0704 => some (.unitExclude r (f.nums 0))
  | 0x0705 => some (.unitInclude r (f.nums 0))
  | 0x0706 => some (.waitResume r (f.n 0) (f.n 1) (f.n 2))
  | 0x0707 => some (.waitAbort r (f.n 0) (f.n 1) (f.n 2))
  | 0x0801 => some (.powerRead r)
  | 0x0802 => some (.powerCapSet r (f.n 0))
  | 0x0803 => some (.powerStateSet r (f.n 0) (f.n 1))
  | 0x0804 => some (.reset r (f.n 0) (f.n 1))
  | 0x0901 => some (.portSet r (f.n 0) (f.n 1) (f.b 2))
  | 0x0902 => some (.portRead r (f.n 0))
  | 0x0903 => some (.deviceNumberSet r (f.n 0))
  | 0x0904 => some (.neighbourSet r (f.n 0) ((f.items 0).map fun e =>
      ⟨BitVec.ofNat 64 (leAt e 0 8), slice e 8 16, BitVec.ofNat 8 (byteAt e 24)⟩))
  | 0x0905 => some (.txStreamSet r (f.n 0) (f.n 1) (f.n 2) (f.n 3) (f.n 4) (f.n 5))
  | 0x0906 => some (.rxStreamSet r (f.n 0) (f.n 1) (f.n 2) (f.n 3) (f.n 4) (f.n 5) (f.n 6))
  | 0x0907 => some (.rxStreamRead r (f.n 0) (f.n 1) (f.n 2))
  | 0x0908 => some (.ptpSet r (f.n 0) (f.n 1) (f.n 2) (f.n 3))
  | 0x0909 => some (.ptpRead r)
  | 0x0a01 => some (.matchWrite r (f.n 0) (f.n 1) (f.n 2) (f.nums 0))
  | 0x0a02 => some (.matchTags r (f.n 0) (f.n 1) (f.n 2) (f.nums 0))
  | 0x0a03 => some (.matchRead r (f.n 0) (f.n 1) (f.n 2) (f.n 3))
  | _ => none

/-! ### A message (Table 13-2) -/

/-- The header fields of a request that hold a fixed value, as (offset, bytes): status, the response flags, reserved bytes and the detail
(Table 13-2). -/
def headerZeros : List (Nat × Nat) := [(2, 2), (4, 2), (6, 2), (10, 2), (16, 8), (24, 8)]

/-- The first field of a message that is reserved or fixed and not zero, by its byte offset (Table 13-3). -/
def firstBadField (msg : Bytes) (l : ReqLayout) : Option (BitVec 16) :=
  let runs := headerZeros ++ (reservedRuns l).map fun e => (e.1 + 32, e.2)
  (runs.find? fun e => leAt msg e.1 e.2 != 0).map fun e => BitVec.ofNat 16 e.1

/-- What the header of a request says; a packet too short to hold a header disagrees with its length. -/
def reqOf (m : Nat) (msg : Bytes) (l : ReqLayout) : Req :=
  let n := leAt msg 8 2
  { mailbox := BitVec.ofNat 4 m, tag := BitVec.ofNat 32 (leAt msg 12 4), crc := BitVec.ofNat 32 (crc32c msg), length := BitVec.ofNat 16 n,
    present := BitVec.ofNat 16 (if msg.length < 32 then n + 1 else msg.length - 32), bad := firstBadField msg l }

/-- The command that a request's bytes spell: an opcode not defined is one too (R431). -/
def commandOf (m : Nat) (msg : Bytes) : Instr :=
  let op := leAt msg 0 2
  let body := msg.drop 32
  let l := match reqShape op with | some sh => reqLayout sh body | none => ⟨[], [], body.length⟩
  let r := reqOf m msg l
  match (commandLow r op ⟨l, body⟩).or (commandHigh r op ⟨l, body⟩) with
  | some c => c
  | none => .unknownOpcode r (BitVec.ofNat 16 op)

/-! ### What Goust starts next (R423 to R425) -/

/-- A command that acts on the device as a whole (R425). -/
def wholeDevice (op : Nat) : Bool :=
  [0x0903, 0x0502, 0x0803, 0x0804, 0x0606, 0x0605, 0x0607, 0x0704, 0x0705].contains op

/-- The mailboxes whose present command has not answered yet. -/
def busyMailboxes (s : State) : List Nat := s.heldLoads.filterMap fun h => (heldReq h.1).map fun r => r.mailbox.toNat

/-- The objects a command names that a load can hold (R424): ranges of memory, and receive streams as (source, KIT_EXT_SRC, number); `none`
for the source is the client of the command's own mailbox. -/
def namedObjects (s : State) : Instr → List (Nat × Nat) × List (Nat × Bool × Nat)
  | .planLoad r image length stream _ _ =>
    let l := look r.mailbox.toNat s.links
    ([(image.toNat, length.toNat)], if stream = 0xffff#16 then [] else
      [((l.map (·.client.toNat)).getD 0, (l.map (·.ext)).getD true, stream.toNat)])
  | .memFree _ base => ((s.allocs.filter fun a => a.base == base.toNat).map fun a => (a.base, a.pages * pageBytes), [])
  | .pageBringIn _ page source _ => ([(page.toNat, pageBytes), (source.toNat, pageBytes)], [])
  | .pageSet _ first pages _ => ([(first.toNat, pages.toNat * pageBytes)], [])
  | .pageRead _ first n => ([(first.toNat, n.toNat * pageBytes)], [])
  | .rxStreamSet _ source ext _ stream _ _ _ => ([], [(source.toNat, ext.toNat == 1, stream.toNat)])
  | .rxStreamRead _ source ext stream => ([], [(source.toNat, ext.toNat == 1, stream.toNat)])
  | _ => ([], [])

/-- Two commands name one object. -/
def sameObject (s : State) (a b : Instr) : Bool :=
  let x := namedObjects s a
  let y := namedObjects s b
  (x.1.any fun p => y.1.any fun q => decide (p.1 < q.1 + q.2) && decide (q.1 < p.1 + p.2)) || x.2.any fun p => y.2.contains p

/-- The first message that may start: its mailbox is free, no command before it in acceptance order that still waits or holds (`ahead`) names
one of its objects, and nothing before it acts on the whole device and still waits (R423 to R425). -/
def pickTaken (s : State) (ahead : List Instr) (busy : List Nat) : List (Nat × Bytes × Nat) → Option (Nat × Bytes × Nat)
  | [] => none
  | e :: r =>
    let c := commandOf e.1 e.2.1
    if wholeDevice (leAt e.2.1 0 2) then (if busy.isEmpty then some e else none)
    else if busy.contains e.1 || ahead.any fun a => sameObject s a c then pickTaken s (c :: ahead) (e.1 :: busy) r
    else some e

/-- The next request that Goust starts, with the state it starts in. -/
def nextRequest (s : State) : Option (Instr × State) :=
  if !goustUp s then none
  else (pickTaken s (s.heldLoads.map (·.1)) (busyMailboxes s) s.taken).map fun e => (commandOf e.1 e.2.1, { s with taken := s.taken.erase e })

end Sys2Proof.Machine
end

