-- ==== Sys2Proof/Machine/Idle.lean ====
section
/-! DEFINITION. What the device does while no command waits. -/

namespace Sys2Proof.Machine

/-- With no command waiting, Goust starts the oldest message it has taken and may start (R417, R423 to R425); with none, the device idles
(assumption log 1). -/
def idleStep (s : State) : Host.Outcome State Fault Refusal :=
  match nextRequest s with
  | some (c, s') => exec c s'
  | none => .next s

end Sys2Proof.Machine
end

