-- ==== Sys2Proof/Safety.lean ====
section
/-! DEFINITION. The words that claims use: what holds of every state a step leaves, when a request is heard, how it is answered. -/

namespace Sys2Proof

open Sys2Proof.Machine

/-- Memory keeps its canonical form: addresses strictly rising, no listed byte equal to what an unlisted one reads as. -/
def memInv (s : State) : Prop := Memory.wf s.mem = true

/-- The power state admits the commands of an opcode (R429). -/
def powerFits (s : State) (op : Nat) : Bool :=
  s.pwr.state != .dormant || op / 256 == 1 || op / 256 == 6 || op / 256 == 8 || op == 0x0702

/-- Goust hears a request: it runs, the tag is new on its mailbox (R427), and the message is framed as its command asks (R418): no
reserved field damaged, MSG_LENGTH equal to the bytes present and to the command's payload of `len` bytes, the power state admitting
it (R429). -/
def heard (s : State) (r : Req) (op len : Nat) : Bool :=
  goustUp s && tagMatch s r == .fresh && r.bad.isNone && r.length == r.present && r.length.toNat == len && powerFits s op

/-- A request heard whose mailbox has fewer than 16 pending commands, as a pending command needs (R423). -/
def heardP (s : State) (r : Req) (op len : Nat) : Bool := heard s r op len && decide ((mbox s r.mailbox.toNat).pend.length < 16)

/-- The newest command kept as completed on a request's mailbox is that request, with its final response. -/
def answered (t : State) (r : Req) (op status detail : Nat) (body : Bytes) : Prop :=
  (mbox t r.mailbox.toNat).done.head? =
    some { tag := r.tag, crc := r.crc, op := op, resp := message op status r.tag.toNat detail true false body }

/-- A state differs from another at most in what an answer on mailbox `m` touches: the mailbox and its response queue, the waits on
that queue, and the count of free values. -/
def onlyAnswered (s t : State) (m : Nat) : Prop :=
  t = { s with mboxes := t.mboxes, queues := t.queues, queueWaits := t.queueWaits, freeCtr := t.freeCtr } ∧
    (∀ k, k ≠ m → mbox t k = mbox s k) ∧ (∀ q, q ≠ responseQueue m → queue? t q = queue? s q)

/-- The request and the opcode of a host command (Tables 13-6 to 13-15); none for an event. -/
def hostCmd : Instr → Option (Req × Nat)
  | .identify r => some (r, 0x0101)
  | .inventory r _ => some (r, 0x0102)
  | .mailboxRead r => some (r, 0x0103)
  | .unknownOpcode r opcode => some (r, opcode.toNat)
  | .planLoad r _ _ _ _ _ => some (r, 0x0201)
  | .planUnload r _ => some (r, 0x0202)
  | .planActivate r _ => some (r, 0x0203)
  | .planRetire r _ => some (r, 0x0204)
  | .rebind r _ _ _ _ => some (r, 0x0205)
  | .rebindCancel r _ => some (r, 0x0206)
  | .fitReportRead r _ => some (r, 0x0207)
  | .planRead r _ => some (r, 0x0208)
  | .bindingRead r _ _ _ => some (r, 0x0209)
  | .memAlloc r _ _ _ => some (r, 0x0301)
  | .memFree r _ => some (r, 0x0302)
  | .pageBringIn r _ _ _ => some (r, 0x0303)
  | .pageSet r _ _ _ => some (r, 0x0304)
  | .pageRead r _ _ => some (r, 0x0305)
  | .streamStart r _ _ => some (r, 0x0306)
  | .streamRead r _ => some (r, 0x0307)
  | .streamRearm r _ _ _ => some (r, 0x0308)
  | .streamFaultRead r _ => some (r, 0x0309)
  | .streamResume r _ => some (r, 0x030A)
  | .streamAbort r _ => some (r, 0x030B)
  | .streamCancel r _ => some (r, 0x030C)
  | .queueRead r _ => some (r, 0x030D)
  | .queueSet r _ _ => some (r, 0x030E)
  | .queueOp r _ _ _ => some (r, 0x030F)
  | .queueReset r _ => some (r, 0x0310)
  | .signalAlloc r _ _ => some (r, 0x0311)
  | .signalSet r _ _ _ _ _ _ => some (r, 0x0312)
  | .signalAdd r _ _ => some (r, 0x0313)
  | .signalRead r _ => some (r, 0x0314)
  | .remoteDiscard r _ _ _ _ => some (r, 0x0315)
  | .ownerMap r _ _ _ _ => some (r, 0x0401)
  | .ownerRead r _ _ _ _ => some (r, 0x0402)
  | .tableReplace r _ _ _ _ => some (r, 0x0403)
  | .statsSet r _ _ _ _ _ => some (r, 0x0404)
  | .statsRead r _ _ _ _ _ => some (r, 0x0405)
  | .tableCounters r _ _ => some (r, 0x0406)
  | .rulingRead r => some (r, 0x0501)
  | .rulingSet r _ => some (r, 0x0502)
  | .rulingAck r _ => some (r, 0x0503)
  | .taskSubmit r _ _ _ => some (r, 0x0504)
  | .taskCancel r _ => some (r, 0x0505)
  | .traceSet r _ _ _ _ _ => some (r, 0x0506)
  | .traceRead r _ _ _ => some (r, 0x0507)
  | .attest r _ => some (r, 0x0601)
  | .measurementsRead r => some (r, 0x0602)
  | .keyslotOpen r _ _ _ _ => some (r, 0x0603)
  | .keyslotClose r _ => some (r, 0x0604)
  | .sessionRekey r _ => some (r, 0x0605)
  | .sessionEnd r => some (r, 0x0606)
  | .debugUnlock r _ => some (r, 0x0607)
  | .blotterSet r _ _ _ => some (r, 0x0701)
  | .blotterRead r _ => some (r, 0x0702)
  | .selftestRun r _ => some (r, 0x0703)
  | .unitExclude r _ => some (r, 0x0704)
  | .unitInclude r _ => some (r, 0x0705)
  | .waitResume r _ _ _ => some (r, 0x0706)
  | .waitAbort r _ _ _ => some (r, 0x0707)
  | .powerRead r => some (r, 0x0801)
  | .powerCapSet r _ => some (r, 0x0802)
  | .powerStateSet r _ _ => some (r, 0x0803)
  | .reset r _ _ => some (r, 0x0804)
  | .portSet r _ _ _ => some (r, 0x0901)
  | .portRead r _ => some (r, 0x0902)
  | .deviceNumberSet r _ => some (r, 0x0903)
  | .neighbourSet r _ _ => some (r, 0x0904)
  | .txStreamSet r _ _ _ _ _ _ => some (r, 0x0905)
  | .rxStreamSet r _ _ _ _ _ _ _ => some (r, 0x0906)
  | .rxStreamRead r _ _ _ => some (r, 0x0907)
  | .ptpSet r _ _ _ _ => some (r, 0x0908)
  | .ptpRead r => some (r, 0x0909)
  | .matchWrite r _ _ _ _ => some (r, 0x0A01)
  | .matchTags r _ _ _ _ => some (r, 0x0A02)
  | .matchRead r _ _ _ _ => some (r, 0x0A03)
  | _ => none

/-- The host commands of the P form (Tables 13-6 to 13-15). -/
def pends : Instr → Bool
  | .planActivate _ _ => true
  | .planRetire _ _ => true
  | .rebind _ _ _ _ _ => true
  | .pageBringIn _ _ _ _ => true
  | .pageSet _ _ _ _ => true
  | .tableReplace _ _ _ _ _ => true
  | .statsSet _ _ _ _ _ _ => true
  | .rulingSet _ _ => true
  | .keyslotOpen _ _ _ _ _ => true
  | .sessionRekey _ _ => true
  | .selftestRun _ _ => true
  | .unitExclude _ _ => true
  | .powerStateSet _ _ _ => true
  | .reset _ _ _ => true
  | _ => false

/-- The stage commands, with the engine, the side and the operation of the stage each carries out (R94, Tables 5-1, 6-4, 7-4, 8-2). -/
def stageOf : Instr → Option (StageRef × Nat × Nat × Nat)
  | .filter r => some (r, 0, 0, 1)
  | .filterCompact r => some (r, 0, 0, 2)
  | .hash r => some (r, 1, 0, 1)
  | .joinBuild r => some (r, 1, 0, 2)
  | .joinProbe r => some (r, 1, 0, 3)
  | .groupPartial r => some (r, 1, 0, 4)
  | .groupMerge r => some (r, 1, 0, 5)
  | .shape r => some (r, 2, 0, 1)
  | .stats r => some (r, 2, 0, 2)
  | .spectral r => some (r, 2, 0, 3)
  | .topk r => some (r, 3, 0, 1)
  | .merge r => some (r, 3, 0, 2)
  | .argmax r => some (r, 3, 0, 3)
  | .match_ r _ => some (r, 3, 0, 4)
  | .automaton r _ => some (r, 3, 0, 5)
  | .lookup r => some (r, 4, 0, 1)
  | .pool r => some (r, 4, 0, 2)
  | .poolDirect r => some (r, 4, 0, 3)
  | .update r => some (r, 4, 0, 4)
  | .layers r => some (r, 5, 0, 1)
  | .feedRead r => some (r, 6, 0, 0)
  | .feedWrite r => some (r, 6, 1, 0)
  | _ => none

/-- A stage of this engine, side and operation may start on the group named (R96), and works with `c`. -/
def stageReady (r : StageRef) (engine side op : Nat) (c : StageCtx) (s : State) : Prop :=
  stageCtx r s = some c ∧ c.st.engine = engine ∧ c.st.side = side ∧ c.st.op = op

/-- A stage has finished its group in its nib, and every other nib, the clock, the ruling, the plans and the streams stand as they did (R96). -/
def stageDone (c : StageCtx) (s t : State) : Prop :=
  (∃ g ∈ nibGroups t (c.core * 8 + c.nib), g.slot = c.slot ∧ g.lig = c.ligIx ∧ g.started = c.run.started ∧ g.num = c.grp.num ∧ g.next = c.k + 1) ∧
  (∀ n, n ≠ c.core * 8 + c.nib → nibGroups t n = nibGroups s n) ∧ t.clk = s.clk ∧ t.rul = s.rul ∧ t.plans = s.plans ∧ t.streams = s.streams

/-- The value of a column's row in a group, a null where the group does not hold it. -/
def rowOf (c : StageCtx) (col i : Nat) : Val := ((c.col col).rows[i]?).getD Val.null

/-- The cluster of a queue is on, as a command on the queue needs (R429). -/
def queueOn (s : State) (q : Nat) : Bool := !(uidCluster (queuePool q) < 12 && (cluster s (uidClusterIndex (queuePool q))).off)

/-- No unit waits on the queues of a pool. -/
def poolQuiet (s : State) (q : Nat) : Prop := ∀ e ∈ s.queueWaits, e.1 / 1024 ≠ q / 1024

/-- No SHARED_TASK on a compression engine or media unit is in progress for a stream (R53). -/
def noShared (s : State) (k : Nat × Nat) : Prop := ∀ e ∈ s.rul.shared, (e.slot, e.stream) ≠ k

/-- A run of `k` steps from `s` ends in `t`. -/
def reaches (s t : State) (k : Nat) : Prop := Host.Core.run
    { State := State, Fault := Fault, Refusal := Refusal, step := step, reset := State.reset } k s = .next t

end Sys2Proof
end

