-- ==== Sys2Proof/Certificates/Slice0/Obligations.lean ====
section
/-! DEFINITION. The statements for the provers. -/

open Sys2Proof Sys2Proof.Machine

/-- A step carries out the command at the front of the queue with the rest of the queue (00_scope.md, 13_mailboxes.md).
-/
def Obligations.StepRunsTheFrontCommand : Prop :=
  ∀ (c : Instr) (cs : List Instr) (s : State), step { s with pending := c :: cs } = exec c { s with pending := cs }

/-- With an empty queue Goust starts the oldest message it may start, and with none the device idles (the model's
choice, assumption 1) (13_mailboxes.md R417, 13_mailboxes.md R423). -/
def Obligations.EmptyQueueStep : Prop :=
  ∀ s : State, s.pending = [] →
    (nextRequest s = none → step s = .next s) ∧
    (∀ c u, nextRequest s = some (c, u) → step s = exec c u) ∧
    (goustUp s = false → step s = .next s) ∧
    (s.taken = [] → step s = .next s)

/-- Every step keeps memory in its canonical form (09_streams_memory.md, 16_power_module.md Table 16-8). -/
def Obligations.MemoryStaysCanonical : Prop :=
  ∀ s t : State, memInv s → step s = .next t → memInv t

/-- At reset memory is canonical and empty, the queue is empty, and the stated reset values hold (02_ruling.md Table
2-1, 11_queues_signals.md Table 11-1, 11_queues_signals.md Table 11-7, 12_ports.md Table 12-2, 13_mailboxes.md Table
13-1, 16_power_module.md). -/
def Obligations.ResetState : Prop :=
  memInv State.reset ∧ State.reset.mem = [] ∧ State.reset.pending = [] ∧
  period State.reset = 475000 ∧ disciplined State.reset = false ∧ phaseNs State.reset = 0 ∧
  State.reset.rul.status = 0 ∧ State.reset.rul.tick = 0 ∧
  State.reset.pwr.cap.toNat = 2400000 ∧ State.reset.pwr.f = 256 ∧ State.reset.pwr.f2 = 256 ∧
  State.reset.deviceNumber = 0 ∧
  (∀ p, (port State.reset p).cfg = 0xaabf0000fac68000#64 ∧ (port State.reset p).linkUp = false) ∧
  (∀ m reader, m ≠ reader → mbxState State.reset reader m = 0) ∧
  (∀ c, (cell State.reset c).value = 0 ∧ (cell State.reset c).min = 0 ∧ (cell State.reset c).max = 0x7fffffff#32 ∧
    (cell State.reset c).wdog = 0 ∧ (cell State.reset c).toHost = false) ∧
  State.reset.queues.map (·.1) =
    [1022, 1023] ++ (List.range 32).map (11 * 1024 + 992 + ·) ++ [2 * 16384 + 1022, 2 * 16384 + 1023] ∧
  State.reset.queues.all (fun e => e.2.pkts.isEmpty && e.2.owner == .device && e.2.limit == e.2.reserve) = true

/-- No command touches the queue of waiting commands (00_scope.md). -/
def Obligations.QueueIsUntouched : Prop :=
  ∀ (c : Instr) (s t : State), exec c s = .next t → t.pending = s.pending

/-- Every step keeps the fuses, but for the revocation bits and the minimum security version, which only rise
(14_security.md Table 14-2, 16_power_module.md Table 16-8). -/
def Obligations.FusesOnlyRise : Prop :=
  ∀ s t : State, step s = .next t →
    t.sec.fuses.dus = s.sec.fuses.dus ∧ t.sec.fuses.vkh = s.sec.fuses.vkh ∧ t.sec.fuses.serial = s.sec.fuses.serial ∧
    t.sec.fuses.macBase = s.sec.fuses.macBase ∧ t.sec.fuses.debugDisable = s.sec.fuses.debugDisable ∧
    t.sec.fuses.revoke ||| s.sec.fuses.revoke = t.sec.fuses.revoke ∧
    t.sec.fuses.minSvn ||| s.sec.fuses.minSvn = t.sec.fuses.minSvn

/-- Answering or accepting a command changes only its mailbox, its response queue and the waits on it, and keeps the
answer (13_mailboxes.md R419, 13_mailboxes.md R423, 13_mailboxes.md R427, 13_mailboxes.md Table 13-2). -/
def Obligations.AnswersKeepTheRest : Prop :=
  (∀ (r : Req) (op status detail : Nat) (body : Bytes) (s : State),
    answered (answer r op status detail body s) r op status detail body ∧
    onlyAnswered s (answer r op status detail body s) r.mailbox.toNat ∧
    (mbox (answer r op status detail body s) r.mailbox.toNat).pend = (mbox s r.mailbox.toNat).pend ∧
    ((mbox (answer r op status detail body s) r.mailbox.toNat).outbox.getLast? =
        some (message op status r.tag.toNat detail true false body) ∨
      ∃ x p, queue? (answer r op status detail body s) (responseQueue r.mailbox.toNat) = some x ∧ x.pkts.getLast? = some p ∧
        p.bytes = message op status r.tag.toNat detail true false body)) ∧
  (∀ (r : Req) (op : Nat) (kind : PendKind) (body : Bytes) (s : State),
    onlyAnswered s (acceptCmd r op kind body s) r.mailbox.toNat ∧
    (mbox (acceptCmd r op kind body s) r.mailbox.toNat).done = (mbox s r.mailbox.toNat).done ∧
    (mbox (acceptCmd r op kind body s) r.mailbox.toNat).pend = (mbox s r.mailbox.toNat).pend ++
      [{ kept := { tag := r.tag, crc := r.crc, op := op, resp := message op St.ok r.tag.toNat 0 false false body }, kind := kind }])

/-- A request whose tag is kept is answered again or refused, and never executed twice (R427). -/
def Obligations.DuplicateRequests : Prop :=
  ∀ (c : Instr) (r : Req) (op : Nat) (s : State), hostCmd c = some (r, op) → goustUp s = true →
    (∀ resp, tagMatch s r = .answered r.crc resp → exec c s = .next (sendMessage r.mailbox.toNat (withReplay resp) s)) ∧
    (tagMatch s r = .executing r.crc → exec c s = .next s) ∧
    (∀ crc resp, crc ≠ r.crc → tagMatch s r = .answered crc resp →
      exec c s = .next (sendMessage r.mailbox.toNat (message op St.tagConflict r.tag.toNat 0 true false []) s)) ∧
    (∀ crc, crc ≠ r.crc → tagMatch s r = .executing crc →
      exec c s = .next (sendMessage r.mailbox.toNat (message op St.tagConflict r.tag.toNat 0 true false []) s)) ∧
    (∀ k ∈ (mbox s r.mailbox.toNat).pend.map (·.kept) ++ (mbox s r.mailbox.toNat).done, k.tag = r.tag → tagMatch s r ≠ .fresh) ∧
    (∀ crc resp, tagMatch s r = .answered crc resp →
      ∃ k ∈ (mbox s r.mailbox.toNat).pend.map (·.kept) ++ (mbox s r.mailbox.toNat).done, k.tag = r.tag ∧ k.crc = crc ∧ k.resp = resp) ∧
    (∀ status detail body, (mbox (answer r op status detail body s) r.mailbox.toNat).done =
      ({ tag := r.tag, crc := r.crc, op := op, resp := message op status r.tag.toNat detail true false body } ::
        (mbox s r.mailbox.toNat).done).take 16)

/-- A badly framed host command, or one the power state or the pending limit refuses, changes nothing but its answer
(13_mailboxes.md Table 13-3, 13_mailboxes.md R422, 13_mailboxes.md R423, 13_mailboxes.md R429). -/
def Obligations.RefusalsChangeNothing : Prop :=
  ∀ (c : Instr) (r : Req) (op : Nat) (s : State), hostCmd c = some (r, op) →
    (goustUp s = false → exec c s = .next s) ∧
    (goustUp s = true → tagMatch s r = .fresh →
      ((∀ r' o, c ≠ .unknownOpcode r' o) → r.length ≠ r.present → ∃ n, exec c s = .next (answer r op St.length n [] s)) ∧
      (∀ o, (∀ r' o', c ≠ .unknownOpcode r' o') → r.bad = some o → ∃ st d, (st = St.length ∨ st = St.malformed ∧ d ≤ o.toNat) ∧
        exec c s = .next (answer r op st d [] s)) ∧
      ((∀ r' o, c ≠ .unknownOpcode r' o) → powerFits s op = false → ∃ st d, [St.length, St.malformed, St.invalidUnit, St.powerState].contains st = true ∧
        exec c s = .next (answer r op st d [] s)) ∧
      (pends c = true → 16 ≤ (mbox s r.mailbox.toNat).pend.length → ∃ st d,
        [St.length, St.malformed, St.invalidUnit, St.powerState, St.pendingFull].contains st = true ∧
        exec c s = .next (answer r op st d [] s)))

/-- The identity, power, PTP, ruling and measurement commands answer with the registers they name (13_mailboxes.md Table
13-6, 13_mailboxes.md Table 13-1, 13_mailboxes.md Table 13-10, 13_mailboxes.md Table 13-11, 13_mailboxes.md Table 13-13,
13_mailboxes.md Table 13-14). -/
def Obligations.IdentityAndRegisterReads : Prop :=
  (∀ s r, heard s r 0x0101 0 = true → exec (.identify r) s = .next (answer r 0x0101 St.ok 0
    (payload [.num 1 (match s.variant with | .l768 => 0x01 | .l384 => 0x02), .num 1 0xb0, .num 2 s.booted.major.toNat,
      .num 2 s.booted.minor.toNat, .num 2 s.booted.patch.toNat, .num 2 s.deviceNumber.toNat, .num 8 s.sec.fuses.serial.toNat,
      .num 8 s.sec.fuses.macBase.toNat]) s)) ∧
  (∀ s r first, heard s r 0x0102 8 = true → exec (.inventory r first) s = .next (answer r 0x0102 St.ok 0
    (payload [.num 4 s.excluded.length, .num 4 ((s.excluded.drop first.toNat).take 1024).length,
      .elems (((s.excluded.drop first.toNat).take 1024).map fun u => le 2 u.toNat)]) s)) ∧
  (∀ s r, heard s r 0x0103 0 = true → ∃ words : Nat → Nat, (∀ m, m < 16 →
      fld 63 48 (words m) = (mbox s m).pend.length % 2 ^ 16 ∧ fld 47 32 (words m) = (mbox s m).doorbells.toNat ∧
      fld 31 16 (words m) = (mbox s m).spurious.toNat ∧ fld 15 8 (words m) = (mbox s m).discarded.toNat ∧ fld 7 1 (words m) = 0 ∧
      (m = r.mailbox.toNat → bitAt (words m) 0 = true)) ∧
    exec (.mailboxRead r) s =
      .next (answer r 0x0103 St.ok 0 (payload [.elems ((List.range 16).map fun m => le 8 (words m))]) s)) ∧
  (∀ s r op, goustUp s = true → tagMatch s r = .fresh →
    exec (.unknownOpcode r op) s = .next (answer r op.toNat St.unknownOpcode 0 [] s)) ∧
  (∀ s r, heard s r 0x0501 0 = true → exec (.rulingRead r) s = .next (answer r 0x0501 St.ok 0
    (payload [.num 8 s.rul.cfg.toNat, .num 4 s.rul.status.toNat, .num 8 s.rul.tick.toNat, .num 8 (ptpNs s / 10 ^ 9),
      .num 4 (ptpNs s % 10 ^ 9)]) s)) ∧
  (∀ s r, heard s r 0x0602 0 = true → ∃ log, log = s.sec.mr3Log.drop (s.sec.mr3Log.length - 59) ∧
    exec (.measurementsRead r) s = .next (answer r 0x0602 St.ok 0
      (payload [.arr (mrOf s 0), .arr (mrOf s 1), .arr (mrOf s 2), .arr (mrOf s 3), .num 4 s.sec.mr3Events, .num 4 log.length,
        .elems (log.map fun e => le 4 e.1.toNat ++ zeros 4 ++ e.2)]) s)) ∧
  (∀ s r, heard s r 0x0801 0 = true → exec (.powerRead r) s = .next (answer r 0x0801 St.ok 0
    (payload [.num 4 s.pwr.moduleMw.toNat, .num 4 s.pwr.hbmMw.toNat, .num 4 s.pwr.computeMw.toNat, .num 4 s.pwr.cap.toNat,
      .num 2 (ofInt 16 (hottestDie s)), .num 1 (if s.pwr.state = .dormant then 1 else 0), .num 1 (min 255 (256 - s.pwr.f))]) s)) ∧
  (∀ s r, heard s r 0x0909 0 = true → exec (.ptpRead r) s = .next (answer r 0x0909 St.ok 0
    (payload [.num 1 (b2n (ptpValid s)), .num 8 s.ptp.lastOffset.toNat, .num 8 (pathDelay s).toNat, .num 8 s.ptp.pps.1.toNat,
      .num 4 s.ptp.pps.2.toNat]) s))

/-- FIT_REPORT_READ, PLAN_READ and BINDING_READ answer from the last fit report and the plan in the slot
(13_mailboxes.md Table 13-7, 03_plans.md R111, 03_plans.md Table 3-11). -/
def Obligations.PlanReads : Prop :=
  (∀ s r offset b, heard s r 0x0207 8 = true → s.fitReport = some b → offset.toNat ≤ b.length →
    exec (.fitReportRead r offset) s = .next (answer r 0x0207 St.ok 0 (padTo 8 (slice b offset.toNat 3520)) s)) ∧
  (∀ s r offset, heard s r 0x0207 8 = true → (∀ b, s.fitReport = some b → b.length < offset.toNat) →
    exec (.fitReportRead r offset) s = .next (answer r 0x0207 St.noReport 0 [] s)) ∧
  (∀ s r slot p, heard s r 0x0208 8 = true → slot.toNat < 64 → plan? s slot.toNat = some p →
    exec (.planRead r slot) s = .next (answer r 0x0208 St.ok 0
      (payload [.num 1 (match p.state with | .loaded => 1 | .active => 2 | .retiring => 3), .num 1 (b2n p.rebind.isSome),
        .num 8 p.image.id, .num 8 p.changed, .arr p.image.digest]) s)) ∧
  (∀ s r slot, heard s r 0x0208 8 = true → slot.toNat < 64 → plan? s slot.toNat = none →
    exec (.planRead r slot) s = .next (answer r 0x0208 St.ok 0
      (payload [.num 1 0, .num 1 0, .num 8 0, .num 8 0, .arr (zeros 48)]) s)) ∧
  (∀ s r slot kind first p, heard s r 0x0209 8 = true → slot.toNat < 64 → 1 ≤ kind.toNat → kind.toNat ≤ 13 →
    plan? s slot.toNat = some p → ∃ bs : List Bound,
      bs = (sortBy (fun a b => decide (a.absId < b.absId))
        (p.bound.filter fun b => b.kind == kind.toNat && decide (first.toNat ≤ b.absId))).take 220 ∧
      exec (.bindingRead r slot kind first) s = .next (answer r 0x0209 St.ok 0
        (payload [.num 2 bs.length, .elems (bs.map fun b => element [.num 2 b.absId, .num 2 b.unit, .num 4 0,
          .num 8 (if [2, 4, 5, 6].contains b.kind then b.base else if b.kind = 1 then padDva b.index 0 else 0)])]) s)) ∧
  (∀ s r slot kind first, heard s r 0x0209 8 = true → slot.toNat < 64 → 1 ≤ kind.toNat → kind.toNat ≤ 13 →
    plan? s slot.toNat = none → exec (.bindingRead r slot kind first) s = .next (answer r 0x0209 St.planState 0 [] s))

/-- PLAN_LOAD places a valid image in the lowest free slot as LOADED, waits for zeroing, and ZEROING_COMPLETE clears the
oldest region (03_plans.md R87, 03_plans.md R88, 03_plans.md R90, 03_plans.md R92, 03_plans.md R102, 13_mailboxes.md
Table 13-7, 13_mailboxes.md R432). -/
def Obligations.PlanLoading : Prop :=
  (∀ s r image length stream count avoid m slot,
    heard s r 0x0201 (alignUp (24 + 2 * avoid.length) 8) = true → avoid.length ≤ 64 →
    (∀ u ∈ avoid, unitOk u = true ∧ (uidCluster u < 12 && (cluster s (uidClusterIndex u)).off) = false) →
    sessionRange s image.toNat length.toNat 0 = true → imagePresent s r stream.toNat count.toNat = true → s.zeroing = [] →
    validate (readDva s image.toNat (min length.toNat 67108864)) length.toNat s.deviceNumber.toNat (dieHbm s.variant) (s.plans.map fun e => e.2.image) = .inr m →
    ((List.range 64).find? fun n => (plan? s n).isNone) = some slot → (bindImage s slot avoid m).short = [] →
    planFrames m.length ≤ (openFrames (bindImage s slot avoid m).s { held := [], avoid := avoid }
      (coreDie (bindImage s slot avoid m).taken)).length →
    fitCheck (bindImage s slot avoid m).s [(slot, newPlan m (bindImage s slot avoid m).taken avoid
      ((openFrames (bindImage s slot avoid m).s { held := [], avoid := avoid } (coreDie (bindImage s slot avoid m).taken)).take
        (planFrames m.length)) (nowTick s))] (checkPeriods s) = none →
    ∃ u p, exec (.planLoad r image length stream count avoid) s =
        .next (answer r 0x0201 St.ok 0 (payload [.num 1 slot, .arr m.digest]) u) ∧
      plan? u slot = some p ∧ p.image = m ∧ p.state = .loaded ∧ p.avoid = avoid ∧ p.rebind = none ∧ p.changed = nowTick s ∧
      p.bound = (bindImage s slot avoid m).taken ∧ (∀ n, n ≠ slot → plan? u n = plan? s n)) ∧
  (∀ s r image length stream count avoid o,
    heard s r 0x0201 (alignUp (24 + 2 * avoid.length) 8) = true → avoid.length ≤ 64 →
    (∀ u ∈ avoid, unitOk u = true ∧ (uidCluster u < 12 && (cluster s (uidClusterIndex u)).off) = false) →
    sessionRange s image.toNat length.toNat 0 = true → imagePresent s r stream.toNat count.toNat = true → s.zeroing = [] →
    validate (readDva s image.toNat (min length.toNat 67108864)) length.toNat s.deviceNumber.toNat (dieHbm s.variant) (s.plans.map fun e => e.2.image) = .inl o →
    exec (.planLoad r image length stream count avoid) s = .next (answer r 0x0201 St.planFormat o [] s)) ∧
  (∀ s r image length stream count avoid,
    heard s r 0x0201 (alignUp (24 + 2 * avoid.length) 8) = true → avoid.length ≤ 64 →
    (∀ u ∈ avoid, unitOk u = true ∧ (uidCluster u < 12 && (cluster s (uidClusterIndex u)).off) = false) →
    sessionRange s image.toNat length.toNat 0 = true → (imagePresent s r stream.toNat count.toNat = false ∨ s.zeroing ≠ []) →
    exec (.planLoad r image length stream count avoid) s = .next { s with heldLoads :=
      s.heldLoads ++ [(.planLoad r image length stream count avoid, s.clk.cycle, s.zeroing.length)] }) ∧
  (∀ s z zs, s.zeroing = z :: zs → s.heldLoads = [] → ∃ t, exec .zeroingComplete s = .next t ∧ t.zeroing = zs ∧ t.plans = s.plans ∧
    (∀ a, readByte t.mem a = if z.ranges.any (fun g => (translate s g.1).any fun b => decide (b ≤ a) && decide (a < b + g.2)) then blankByte
      else readByte s.mem a)) ∧
  (∀ s h r image length stream count avoid, s.heldLoads.find? (waitsImage s) = some h →
    h.1 = .planLoad r image length stream count avoid → ∃ u, exec .imageIncomplete s =
        .next (answer r 0x0201 St.imageIncomplete (loadCommitted s r stream.toNat) [] u) ∧
      u = { s with heldLoads := s.heldLoads.erase h, clk := u.clk } ∧ u.clk.cycle = max s.clk.cycle (h.2.1 + 190000000))

/-- PLAN_UNLOAD, PLAN_ACTIVATE, PLAN_RETIRE, REBIND and REBIND_CANCEL do what the plan state allows and refuse the rest
(03_plans.md Table 3-11, 03_plans.md R104, 03_plans.md R105, 03_plans.md R109, 03_plans.md R110, 13_mailboxes.md Table
13-7). -/
def Obligations.PlanStateCommands : Prop :=
  (∀ s r slot p, heard s r 0x0202 8 = true → slot.toNat < 64 → plan? s slot.toNat = some p → p.state = .loaded →
    ∃ u, exec (.planUnload r slot) s = .next (answer r 0x0202 St.ok 0 [] u) ∧
      plan? u slot.toNat = none ∧ (∀ n, n ≠ slot.toNat → plan? u n = plan? s n) ∧ (∀ e ∈ u.streams, e.1.1 ≠ slot.toNat) ∧
      (∀ a ∈ u.actions, actionSlot a.act ≠ some slot.toNat)) ∧
  (∀ s r slot p, heardP s r 0x0203 8 = true → slot.toNat < 64 → plan? s slot.toNat = some p → p.state = .loaded →
    notReady s slot.toNat p = none →
    (requested s (.activation slot.toNat) = false → exec (.planActivate r slot) s = .next (acceptCmd r 0x0203 (.activate slot.toNat) []
      { s with actions := s.actions ++ [⟨.activation slot.toNat, false, false⟩] })) ∧
    (requested s (.activation slot.toNat) = true → exec (.planActivate r slot) s =
      .next (acceptCmd r 0x0203 (.activate slot.toNat) [] s))) ∧
  (∀ s r slot p d, heardP s r 0x0203 8 = true → slot.toNat < 64 → plan? s slot.toNat = some p → p.state = .loaded →
    notReady s slot.toNat p = some d →
    exec (.planActivate r slot) s = .next (answer r 0x0203 St.notReady d [] s)) ∧
  (∀ s r slot p, heardP s r 0x0204 8 = true → slot.toNat < 64 → plan? s slot.toNat = some p → p.state = .active →
    exec (.planRetire r slot) s = .next (acceptCmd r 0x0204 (.retire slot.toNat) []
      { setPlan slot.toNat { p with state := .retiring, changed := nowTick s } s with
        actions := s.actions ++ [⟨.retirement slot.toNat false, false, false⟩] })) ∧
  (∀ s r slot flags moves avoid p x,
    heardP s r 0x0205 (alignUp (alignUp (8 + 4 * moves.length) 8 + 2 * avoid.length) 8) = true →
    (∀ e ∈ rebindBad s slot flags moves avoid, e.2 = false) →
    (∀ u ∈ avoid, unitOk u = true ∧ (uidCluster u < 12 && (cluster s (uidClusterIndex u)).off) = false) →
    plan? s slot.toNat = some p → p.state ≠ .retiring → p.rebind = none →
    x = rebindPlan s slot.toNat p (moves.map fun m => (m.kind.toNat, m.absId.toNat))
      (fun id => ((moves.find? fun m => m.kind == 4 && m.absId.toNat == id).map (·.action.toNat)).getD 0) avoid →
    x.short = [] → x.b.short = [] → (flags.toNat % 2 = 1 ∨ x.c + (rebindsAhead s slot.toNat + 1) * period s ≤ 9500000) →
    ∃ u, exec (.rebind r slot flags moves avoid) s = .next (acceptCmd r 0x0205 (.rebind slot.toNat)
        (payload [.num 8 x.c, .num 8 (tickAfter s (x.c + (rebindsAhead s slot.toNat + 1) * period s))]) u) ∧
      plan? u slot.toNat = some { p with rebind := some ⟨x.olds, x.news, x.drops, false, false⟩ } ∧
      (∀ n, n ≠ slot.toNat → plan? u n = plan? s n)) ∧
  (∀ s r slot p, heard s r 0x0206 8 = true → slot.toNat < 64 → plan? s slot.toNat = some p → p.rebind.isSome = true →
    (s.actions.any fun a => a.act == .rebindCommit slot.toNat && a.admitted) = false →
    ∃ u, exec (.rebindCancel r slot) s = .next (answer r 0x0206 St.ok 0 [] u) ∧ plan? u slot.toNat = some { p with rebind := none } ∧
      (∀ n, n ≠ slot.toNat → plan? u n = plan? s n)) ∧
  (∀ s r slot p, slot.toNat < 64 → plan? s slot.toNat = some p →
    (heard s r 0x0202 8 = true → p.state ≠ .loaded →
      exec (.planUnload r slot) s = .next (answer r 0x0202 St.planState 0 [] s)) ∧
    (heardP s r 0x0203 8 = true → p.state ≠ .loaded →
      exec (.planActivate r slot) s = .next (answer r 0x0203 St.planState 0 [] s)) ∧
    (heardP s r 0x0204 8 = true → p.state ≠ .active →
      exec (.planRetire r slot) s = .next (answer r 0x0204 St.planState 0 [] s)) ∧
    (heard s r 0x0206 8 = true → (p.rebind = none ∨ (s.actions.any fun a => a.act == .rebindCommit slot.toNat && a.admitted) = true) →
      exec (.rebindCancel r slot) s = .next (answer r 0x0206 St.planState 0 [] s))) ∧
  (∀ s r slot flags moves avoid p,
    heardP s r 0x0205 (alignUp (alignUp (8 + 4 * moves.length) 8 + 2 * avoid.length) 8) = true →
    (∀ e ∈ rebindBad s slot flags moves avoid, e.2 = false) →
    (∀ u ∈ avoid, unitOk u = true ∧ (uidCluster u < 12 && (cluster s (uidClusterIndex u)).off) = false) →
    plan? s slot.toNat = some p →
    (p.state = .retiring →
      exec (.rebind r slot flags moves avoid) s = .next (answer r 0x0205 St.planState 0 [] s)) ∧
    (p.state ≠ .retiring → p.rebind ≠ none →
      exec (.rebind r slot flags moves avoid) s = .next (answer r 0x0205 St.rebindPending 0 [] s))) ∧
  (∀ s r slot, slot.toNat < 64 → plan? s slot.toNat = none →
    (heard s r 0x0202 8 = true → exec (.planUnload r slot) s = .next (answer r 0x0202 St.planState 0 [] s)) ∧
    (heardP s r 0x0203 8 = true → exec (.planActivate r slot) s = .next (answer r 0x0203 St.planState 0 [] s)) ∧
    (heardP s r 0x0204 8 = true → exec (.planRetire r slot) s = .next (answer r 0x0204 St.planState 0 [] s)) ∧
    (heard s r 0x0206 8 = true → exec (.rebindCancel r slot) s = .next (answer r 0x0206 St.planState 0 [] s)))

/-- Activation, retirement, plan reset and rebind take effect as the boundary actions admitted, and copies fill replicas
and pads (03_plans.md R101, 03_plans.md R104, 03_plans.md R106, 03_plans.md R108, 07_embeddings.md R225,
16_power_module.md R498). -/
def Obligations.PlanBoundaryActions : Prop :=
  (∀ s slot a p, admitted s (fun x => x == .activation slot.toNat) = some a → plan? s slot.toNat = some p →
    exec (.planActivation slot) s =
      .next { s with actions := s.actions.map fun x => if x = a then { x with done := true } else x }) ∧
  (∀ s slot a p, admitted s (fun x => x == .rebindCommit slot.toNat) = some a → plan? s slot.toNat = some p →
    exec (.rebindCommit slot) s =
      .next { s with actions := s.actions.map fun x => if x = a then { x with done := true } else x }) ∧
  (∀ s slot a p, admitted s (fun x => x == .retirement slot.toNat false) = some a → plan? s slot.toNat = some p →
    p.image.exchange = true → p.state ≠ .loaded → p.retireBands = 0 →
    exec (.planRetirement slot) s = .next { setPlan slot.toNat { p with retireBands := 1 } s with
      actions := s.actions.map fun x => if x = a then { x with admitted := false } else x }) ∧
  (∀ s slot a p, admitted s (fun x => x == .retirement slot.toNat false) = some a → plan? s slot.toNat = some p →
    (p.image.exchange && p.state != .loaded && p.retireBands == 0) = false →
    ∃ t, exec (.planRetirement slot) s = .next t ∧ t.plans = s.plans ∧
      t.actions = s.actions.map (fun x => if x = a then { x with done := true } else x) ∧
      ∀ e ∈ t.nibs, ∀ g ∈ e.2, g.slot ≠ slot.toNat) ∧
  (∀ s slot a p, admitted s (fun x => x == .retirement slot.toNat true) = some a → plan? s slot.toNat = some p →
    (p.image.exchange && p.state != .loaded && p.retireBands == 0) = false →
    ∃ t, exec (.planResetCommit slot) s = .next t ∧ t.plans = s.plans ∧
      t.actions = s.actions.map (fun x => if x = a then { x with done := true } else x) ∧
      ∀ e ∈ t.nibs, ∀ g ∈ e.2, g.slot ≠ slot.toNat) ∧
  (∀ s slot p, plan? s slot = some p → ∃ q, plan? (commitAction s (.activation slot)) slot = some q ∧
    q.state = .active ∧ q.changed = nowTick s ∧ q.image = p.image ∧ q.bound = p.bound ∧
    (commitAction s (.activation slot)).mem = s.mem ∧
    ∀ n, n ≠ slot → plan? (commitAction s (.activation slot)) n = plan? s n) ∧
  (∀ s slot p, plan? s slot = some p → commitAction s (.retirement slot false) =
    setPlan slot { p with state := .loaded, changed := nowTick s, retireBands := 0 } s) ∧
  (∀ s slot p, plan? s slot = some p → ∃ q, plan? (commitAction s (.retirement slot true)) slot = some q ∧ q.state = .loaded ∧
    q.resetting = false ∧ q.changed = nowTick s ∧ q.bound = p.bound ∧ q.image = p.image ∧
    ∀ n, n ≠ slot → plan? (commitAction s (.retirement slot true)) n = plan? s n) ∧
  (∀ s slot p r, plan? s slot = some p → p.rebind = some r → ∃ q, plan? (commitAction s (.rebindCommit slot)) slot = some q ∧
    q.rebind = none ∧ q.bound = (p.bound.filter fun b => !r.olds.contains b) ++ r.news ∧ q.image = p.image ∧ q.state = p.state) ∧
  (∀ s events n p, s.actions = [⟨.activation n, true, true⟩] → plan? s n = some p →
    ∃ t, exec (.tickEdge events) s = .next t ∧ (plan? t n).any (fun q => q.state == .active) = true ∧
      ∀ x ∈ t.actions, x.act ≠ .activation n) ∧
  (∀ s slot p r, plan? s slot.toNat = some p → p.rebind = some r → r.copied = false → r.drops = [] →
    exec (.rebindCopyComplete slot) s = .next { setPlan slot.toNat { p with rebind := some { r with copied := true } } s with
      actions := s.actions ++ [⟨.rebindCommit slot.toNat, false, false⟩] }) ∧
  (∀ s slot ref die p r a b, plan? s slot.toNat = some p → ((replicaRefs p).find? fun x => x.absId == ref.toNat) = some r →
    boundOf p 5 r.hbm = some a → (p.bound.find? fun x => x.kind == 5 && x.absId == r.hbm && x.index == die.toNat) = some b →
    homeDie p r ≠ die.toNat → p.state = .loaded → ∃ t, exec (.replicaCopyComplete slot ref die) s = .next t ∧
      t = { s with mem := t.mem, pages := t.pages, plans := t.plans } ∧
      t.mem = (writeDva s (b.base + refOffset p.image.refs r) (readDva s (a.base + refOffset p.image.refs r) r.size)).mem ∧
      (plan? t slot.toNat).any (fun q => q.replicas.contains (r.absId, die.toNat)) = true) ∧
  (∀ s slot ref core p r, plan? s slot.toNat = some p → (p.image.refs.find? fun x => x.absId == ref.toNat && x.pad) = some r →
    (padCores p r.absId).contains core.toNat = true → ∃ t, exec (.padCopyComplete slot ref core) s = .next t ∧
      t = { s with mem := t.mem, pages := t.pages, plans := t.plans } ∧
      t.mem = (writeDva s (padDva core.toNat r.padOff) (fit (alignUp r.size 256) (refBytes s p r.absId 0 r.size))).mem ∧
      (plan? t slot.toNat).any (fun q => q.padCopies.contains (r.absId, core.toNat)) = true) ∧
  (∀ s slot, s.clk.guard = false → exec (.planActivation slot) s = .next s ∧ exec (.planRetirement slot) s = .next s ∧
    exec (.planResetCommit slot) s = .next s ∧ exec (.rebindCommit slot) s = .next s)

/-- MEM_ALLOC maps zeroed frames as one new range, MEM_FREE gives a range back, PAGE_READ lists entries
(09_streams_memory.md R297, 09_streams_memory.md Table 9-2, 13_mailboxes.md Table 13-8, 13_mailboxes.md R433). -/
def Obligations.SessionMemoryCommands : Prop :=
  (∀ s r bytes mask state free n, heard s r 0x0301 16 = true → bytes.toNat ≠ 0 → bytes.toNat % pageBytes = 0 → mask.toNat ≤ 15 →
    (state.toNat = 1 ∨ state.toNat = 2) → n = bytes.toNat / pageBytes →
    free = ((List.range 4).filter fun d => mask == 0 || bitAt mask.toNat d).flatMap (fun d => openFrames s (sessionAvail s) d) →
    n ≤ free.length → pageRun s n + n ≤ 1048576 →
    ∃ u, exec (.memAlloc r bytes mask state) s =
        .next (answer r 0x0301 St.ok 0 (payload [.num 8 (pageRun s n * pageBytes)]) u) ∧
      u.allocs = s.allocs ++ [⟨pageRun s n * pageBytes, n⟩] ∧
      (∀ i f, i < n → free[i]? = some f → look (pageRun s n + i) u.pages =
        some { frame := BitVec.ofNat 26 f, dirty := false, faulted := false, state := BitVec.ofNat 2 state.toNat,
               die := f / dieFrames s.variant } ∧
        ∀ o, o < pageBytes → readByte u.mem (hbmDva (f * pageBytes) + o) = blankByte) ∧
      (∀ p, (p < pageRun s n ∨ pageRun s n + n ≤ p) → look p u.pages = look p s.pages) ∧ u.plans = s.plans) ∧
  (∀ s r bytes mask state free, heard s r 0x0301 16 = true → bytes.toNat ≠ 0 → bytes.toNat % pageBytes = 0 → mask.toNat ≤ 15 →
    (state.toNat = 1 ∨ state.toNat = 2) →
    free = ((List.range 4).filter fun d => mask == 0 || bitAt mask.toNat d).flatMap (fun d => openFrames s (sessionAvail s) d) →
    free.length < bytes.toNat / pageBytes →
    exec (.memAlloc r bytes mask state) s = .next (answer r 0x0301 St.noMemory free.length [] s)) ∧
  (∀ s r base a, heard s r 0x0302 8 = true → (s.allocs.find? fun x => x.base == base.toNat) = some a →
    (s.blot.ring.any fun b => decide (a.base ≤ b.1) && decide (b.1 < a.base + a.pages * pageBytes)) = false →
    (∀ i, i < a.pages → pageBusy s (a.base / pageBytes + i) = false) →
    ∃ u, exec (.memFree r base) s = .next (answer r 0x0302 St.ok 0 [] u) ∧ u.allocs = s.allocs.erase a ∧ u.mem = s.mem ∧
      ∀ p, look p u.pages = if a.base / pageBytes ≤ p ∧ p < a.base / pageBytes + a.pages then none else look p s.pages) ∧
  (∀ s r base, heard s r 0x0302 8 = true → (∀ a ∈ s.allocs, a.base ≠ base.toNat) →
    exec (.memFree r base) s = .next (answer r 0x0302 St.memoryRefused base.toNat [] s)) ∧
  (∀ s r first n, heard s r 0x0305 16 = true → first.toNat % pageBytes = 0 → n.toNat ≤ 440 →
    exec (.pageRead r first n) s = .next (answer r 0x0305 St.ok 0 ((List.range n.toNat).flatMap fun i =>
      match look (first.toNat / pageBytes + i) s.pages with
      | some p => le 8 (pack [(2, p.state.toNat), (1, b2n p.faulted), (1, b2n p.dirty), (18, 0), (26, p.frame.toNat), (16, 0)])
      | none => zeros 8) s))

/-- Page commands stay pending and take effect when they complete: bring-in, pin, unpin, evict and unmap
(09_streams_memory.md R296, 09_streams_memory.md R297, 09_streams_memory.md Table 9-3, 13_mailboxes.md Table 13-8). -/
def Obligations.PageStateCommands : Prop :=
  (∀ s r page source state p, heardP s r 0x0303 24 = true → page.toNat % pageBytes = 0 → page.toNat / 2 ^ 53 = 0 →
    (state.toNat = 1 ∨ state.toNat = 2) → look (page.toNat / pageBytes) s.pages = some p → p.state = 0 →
    (source.toNat = 2 ^ 64 - 1 ∨ (source.toNat % pageBytes = 0 ∧
      (planHolds s source.toNat = true ∨ sessionHolds s source.toNat = true) ∧ (translate s source.toNat).isSome = true)) →
    pageFrames s p ≠ [] → exec (.pageBringIn r page source state) s =
      .next (acceptCmd r 0x0303 (.bringIn (page.toNat / pageBytes) source.toNat state.toNat) [] s)) ∧
  (∀ s r first pages action, heardP s r 0x0304 16 = true → first.toNat % pageBytes = 0 → first.toNat / 2 ^ 53 = 0 →
    1 ≤ action.toNat → action.toNat ≤ 4 → pages.toNat ≤ 1048576 →
    (∀ i, i < pages.toNat → pageActionOk s action.toNat (first.toNat / pageBytes + i) = true) →
    exec (.pageSet r first pages action) s =
      .next (acceptCmd r 0x0304 (.pageSet (first.toNat / pageBytes) pages.toNat action.toNat) [] s)) ∧
  (∀ s page src st ks p f fs, pendingBringIns s page.toNat = .bringIn page.toNat src st :: ks →
    look page.toNat s.pages = some p → p.state = 0 → pageFrames s p = f :: fs →
    ∃ u fr, fr ∈ pageFrames s p ∧ exec (.pageBringInComplete page) s =
        .next (finalAnswer (fun x => x == .bringIn page.toNat src st) St.ok 0 [] u) ∧
      look page.toNat u.pages = some { p with frame := BitVec.ofNat 26 fr, state := BitVec.ofNat 2 st, dirty := false } ∧
      (∀ n, n ≠ page.toNat → look n u.pages = look n s.pages) ∧
      (src = 2 ^ 64 - 1 → ∀ o, o < pageBytes → readByte u.mem (hbmDva (fr * pageBytes) + o) = blankByte) ∧
      (src ≠ 2 ^ 64 - 1 → ∀ o, o < pageBytes →
        readByte u.mem (hbmDva (fr * pageBytes) + o) = (readDva s src pageBytes).getD o blankByte)) ∧
  (∀ s first n a rest, (s.mboxes.flatMap fun e => e.2.pend.filterMap fun c => match c.kind with
      | .pageSet f n a => if f = first.toNat then some (f, n, a) else none
      | _ => none) = (first.toNat, n, a) :: rest →
    (3 ≤ a → ∀ i, i < n → pageBusy s (first.toNat + i) = false) → 1 ≤ a → a ≤ 4 →
    (∀ i, i < n → pageActionOk s a (first.toNat + i) = true) →
    ∃ u, exec (.pageSetComplete first) s = .next (finalAnswer (fun x => x == .pageSet first.toNat n a) St.ok 0 [] u) ∧ u.mem = s.mem ∧
      (∀ i, i < n → (look (first.toNat + i) u.pages).map (·.state) =
        if a = 1 then some 2 else if a = 2 then some 1 else if a = 3 then some 0 else none) ∧
      (∀ p, (p < first.toNat ∨ first.toNat + n ≤ p) → look p u.pages = look p s.pages))

/-- STREAM_START starts a batch on new numbers, STREAM_READ and STREAM_FAULT_READ report a stream, STREAM_REARM stores
the new addresses (09_streams_memory.md R305, 09_streams_memory.md R306, 09_streams_memory.md R308, 09_streams_memory.md
R317, 09_streams_memory.md Table 9-6, 09_streams_memory.md Table 9-9, 13_mailboxes.md Table 13-8). -/
def Obligations.HostStreamCommands : Prop :=
  (∀ s q r x, heard s q 0x0307 8 = true → (r.slot.toNat < 64 ∨ r.slot = 0xff) → stream? s (refKey r) = some x →
    exec (.streamRead q r) s = .next (answer q 0x0307 St.ok 0
      (le 8 (pack [(7, 0), (5, (x.slots.filter fun sl => sl.state == .ready || sl.state == .truncated).length), (4, x.tail), (4, x.head),
          (3, match x.state with | .idle => 0 | .running => 1 | .halted => 2 | .done => 3 | .aborted => 4 | .cancelled => 5),
          (9, x.transfers.length), (32, x.tiles)]) ++
        (List.range 16).flatMap fun i => le 4 (pack [(24, (x.slot i).bytes),
          (3, match (x.slot i).state with | .free => 0 | .filling => 1 | .ready => 2 | .truncated => 3 | .draining => 4), (5, 0)])) s)) ∧
  (∀ s q r x f, heard s q 0x0309 8 = true → (r.slot.toNat < 64 ∨ r.slot = 0xff) → stream? s (refKey r) = some x →
    x.state = .halted → x.fault = some f → exec (.streamFaultRead q r) s = .next (answer q 0x0309 St.ok 0
      (le 32 (pack [(16, x.unit.toNat), (18, 0), (2, f.cause), (4, f.slot), (8, r.slot.toNat), (16, r.stream.toNat), (32, f.tile),
        (24, f.committed), (24, f.i0), (16, f.i1), (16, f.i2), (16, f.i3), (7, 0), (57, f.dva)])) s)) ∧
  (∀ s q r x, heard s q 0x0309 8 = true → (r.slot.toNat < 64 ∨ r.slot = 0xff) → stream? s (refKey r) = some x → x.state ≠ .halted →
    exec (.streamFaultRead q r) s = .next (answer q 0x0309 St.streamState (strState x.state) [] s)) ∧
  (∀ s q r src dst x, heard s q 0x0308 24 = true → (r.slot.toNat < 64 ∨ r.slot = 0xff) → stream? s (refKey r) = some x →
    x.desc.persist = true → rearmOk s (streamPlan s (refKey r)) x.ruled { x.desc with src := src.toNat, dst := dst.toNat } = true →
    (x.desc.kind ≠ 1 ∨ src.toNat = x.desc.src) → exec (.streamRearm q r src dst) s = .next (answer q 0x0308 St.ok 0 []
      (setStream (refKey r) { x with rearm := some (src.toNat, dst.toNat), rearmChunks := x.ingest.chunks } s))) ∧
  (∀ s q r src dst x, heard s q 0x0308 24 = true → (r.slot.toNat < 64 ∨ r.slot = 0xff) → stream? s (refKey r) = some x →
    x.desc.persist = true → rearmOk s (streamPlan s (refKey r)) x.ruled { x.desc with src := src.toNat, dst := dst.toNat } = true →
    x.desc.kind = 1 → src.toNat ≠ x.desc.src →
    (∀ chunks, armSource s (streamPlan s (refKey r)) { x.desc with src := src.toNat, dst := dst.toNat } = .ok chunks →
      exec (.streamRearm q r src dst) s = .next (answer q 0x0308 St.ok 0 []
        (setStream (refKey r) { x with rearm := some (src.toNat, dst.toNat), rearmChunks := chunks } s))) ∧
    (∀ o, armSource s (streamPlan s (refKey r)) { x.desc with src := src.toNat, dst := dst.toNat } = .error o →
      exec (.streamRearm q r src dst) s = .next (answer q 0x0308 St.sourceRefused o [] s))) ∧
  (∀ s q r src dst x, heard s q 0x0308 24 = true → (r.slot.toNat < 64 ∨ r.slot = 0xff) → stream? s (refKey r) = some x →
    (x.desc.persist = false ∨
      rearmOk s (streamPlan s (refKey r)) x.ruled { x.desc with src := src.toNat, dst := dst.toNat } = false) →
    exec (.streamRearm q r src dst) s = .next (answer q 0x0308 St.rearmRefused 0 [] s)) ∧
  (∀ s r dva count n first, heard s r 0x0306 16 = true → n = count.toNat → 1 ≤ n → n ≤ 65536 →
    rangeHeld s dva.toNat (64 * n) = true →
    (∀ i, i < n → hostDescOk (slice (readDva s dva.toNat (64 * n)) (64 * i) 64) = true) → hostRun s n = some first →
    ∃ u, exec (.streamStart r dva count) s = .next (answer r 0x0306 St.ok 0 (payload [.num 2 first]) u) ∧
      u = { s with streams := u.streams, freeCtr := u.freeCtr } ∧
      (∀ i, i < n → ∃ x, stream? u (255, first + i) = some x ∧ x.state = .running ∧ x.ruled = false ∧
        x.desc = streamAt (readDva s dva.toNat (64 * n)) (64 * i)) ∧
      (∀ k, (∀ i, i < n → k ≠ (255, first + i)) → stream? u k = stream? s k))

/-- STREAM_RESUME, STREAM_ABORT and STREAM_CANCEL change one stream and its fault flag (09_streams_memory.md R317,
09_streams_memory.md R318, 09_streams_memory.md R319, 13_mailboxes.md Table 13-8). -/
def Obligations.StreamControl : Prop :=
  (∀ s q r x f, heard s q 0x030A 8 = true → (r.slot.toNat < 64 ∨ r.slot = 0xff) → stream? s (refKey r) = some x →
    x.state = .halted → x.fault = some f → (∀ p, access s f.dva 1 ≠ .absent p) →
    ∃ u, exec (.streamResume q r) s = .next (answer q 0x030A St.ok 0 [] u) ∧
      stream? u (refKey r) = some { x with state := .running, fault := none } ∧
      (∀ k, k ≠ refKey r → stream? u k = stream? s k) ∧ u = { s with streams := u.streams, pages := u.pages }) ∧
  (∀ s q r x f p, heard s q 0x030A 8 = true → (r.slot.toNat < 64 ∨ r.slot = 0xff) → stream? s (refKey r) = some x →
    x.state = .halted → x.fault = some f → access s f.dva 1 = .absent p →
    exec (.streamResume q r) s = .next (answer q 0x030A St.ok 0 []
      (emitErr { cls := 3, code := 1, unit := x.unit, pos := f.dva, count := 0, plan := r.slot.toNat, named := false, test := false } s))) ∧
  (∀ s q r x, heard s q 0x030B 8 = true → (r.slot.toNat < 64 ∨ r.slot = 0xff) → stream? s (refKey r) = some x →
    (x.state = .running ∨ x.state = .halted) → ∃ u y, exec (.streamAbort q r) s = .next (answer q 0x030B St.ok 0 [] u) ∧
      stream? u (refKey r) = some y ∧ y.state = .aborted ∧ y.desc = x.desc ∧ y.transfers = x.transfers ∧ y.tiles = x.tiles ∧
      (∀ k, k ≠ refKey r → stream? u k = stream? s k) ∧ u = { s with streams := u.streams, pages := u.pages, cells := u.cells, regHeld := s.regHeld.filter (fun e => !streamWaits (refKey r) e.2), parked := s.parked.filter (fun w => !streamWaits (refKey r) w.waiter), queueWaits := s.queueWaits.filter fun e => !streamWaits (refKey r) e.2 } ∧
      (∀ c, cell u c = { cell s c with waiters := (cell s c).waiters.filter fun w => !streamWaits (refKey r) w }) ∧
      (∀ n, (look n u.pages).map (fun p => (p.frame, p.state, p.dirty)) = (look n s.pages).map fun p => (p.frame, p.state, p.dirty))) ∧
  (∀ s q r x, heard s q 0x030C 8 = true → (r.slot.toNat < 64 ∨ r.slot = 0xff) → stream? s (refKey r) = some x →
    (x.state = .running ∨ x.state = .halted ∨ x.state = .idle) →
    ∃ u y, exec (.streamCancel q r) s = .next (answer q 0x030C St.ok 0 [] u) ∧
      stream? u (refKey r) = some y ∧ y.state = .cancelled ∧ y.owed = 0 ∧ y.tiles = x.tiles ∧
      (x.desc.write = false → (∀ sl ∈ y.slots, sl = Slot.free) ∧ ∀ t ∈ y.transfers, t.drop = true) ∧
      (∀ k, k ≠ refKey r → stream? u k = stream? s k) ∧ u = { s with streams := u.streams, pages := u.pages, cells := u.cells, regHeld := s.regHeld.filter (fun e => !streamWaits (refKey r) e.2), parked := s.parked.filter (fun w => !streamWaits (refKey r) w.waiter), queueWaits := s.queueWaits.filter fun e => !streamWaits (refKey r) e.2 } ∧
      (∀ c, cell u c = { cell s c with waiters := (cell s c).waiters.filter fun w => !streamWaits (refKey r) w }) ∧
      (∀ n, (look n u.pages).map (fun p => (p.frame, p.state, p.dirty)) = (look n s.pages).map fun p => (p.frame, p.state, p.dirty))) ∧
  (∀ s q r x, (r.slot.toNat < 64 ∨ r.slot = 0xff) → stream? s (refKey r) = some x →
    (heard s q 0x030A 8 = true → x.state ≠ .halted →
      exec (.streamResume q r) s = .next (answer q 0x030A St.streamState (strState x.state) [] s)) ∧
    (heard s q 0x030B 8 = true → x.state ≠ .running → x.state ≠ .halted →
      exec (.streamAbort q r) s = .next (answer q 0x030B St.streamState (strState x.state) [] s)) ∧
    (heard s q 0x030C 8 = true → x.state ≠ .running → x.state ≠ .halted → x.state ≠ .idle →
      exec (.streamCancel q r) s = .next (answer q 0x030C St.streamState (strState x.state) [] s)))

/-- Every error record goes to the ring at its index or to the store of 4,096, and blot records stop at 4,096 a plan and
tick (15_errors.md R465, 15_errors.md R468, 15_errors.md R470, 15_errors.md R473, 15_errors.md Table 15-2, 15_errors.md
Table 15-3). -/
def Obligations.RecordsAreWritten : Prop :=
  (∀ e s, (emitOne e s).blot.written = s.blot.written + 1 ∧ (emitErr e s).plans = s.plans ∧ (emitErr e s).streams = s.streams) ∧
  (∀ e s, s.blot.ring = none → s.blot.notice = none →
    (emitOne e s).blot.store = (errPack (ptpNs s % 2 ^ 64) e.pos e.count e.unit.toNat e.plan (b2n (testFollows s e.test e.unit))
      (e.named || ruledUses s e.unit) e.cls e.code :: s.blot.store).take 4096 ∧
    emitOne e s = { s with blot := (emitOne e s).blot, tests := (emitOne e s).tests } ∧
    (testFollows s e.test e.unit = false → (emitOne e s).tests = s.tests) ∧
    (unnoted s = none → emitErr e s = emitOne e s)) ∧
  (∀ b s, s.blot.ring = none → b.count ≤ 16777215 → (look b.plan s.blot.blots).getD 0 < 4096 →
    emitBlot b s = { s with blot :=
      { s.blot with
        written := s.blot.written + 1
        store := (blotPack (ptpNs s % 2 ^ 64) b :: s.blot.store).take 4096
        blots := put b.plan ((look b.plan s.blot.blots).getD 0 + 1) s.blot.blots } }) ∧
  (∀ b s, b.count ≤ 16777215 → 4096 ≤ (look b.plan s.blot.blots).getD 0 →
    emitBlot b s = { s with blot := { s.blot with blots := put b.plan ((look b.plan s.blot.blots).getD 0 + 1) s.blot.blots } })

/-- QUEUE_READ reports the descriptor, QUEUE_SET writes its RW fields while the plan is LOADED, QUEUE_RESET empties the
queue (11_queues_signals.md Table 11-3, 11_queues_signals.md R364, 11_queues_signals.md R373, 13_mailboxes.md Table
13-8). -/
def Obligations.QueueCommands : Prop :=
  (∀ s r queue x, heard s r 0x030d 8 = true → queueNumberOk queue.toNat = true → queueOn s queue.toNat = true → queue? s queue.toNat = some x →
    ∃ d, exec (.queueRead r queue) s = .next (answer r 0x030d St.ok 0 (le 32 d) { s with freeCtr := s.freeCtr + 1 }) ∧
      fld 87 56 d = x.wdog.toNat ∧ fld 91 88 d = x.kind.toNat ∧ fld 92 92 d = b2n x.broken ∧ fld 93 93 d = b2n x.autorel ∧
      fld 94 94 d = b2n x.mark.isSome ∧ fld 100 99 d = x.noticeKind.toNat ∧ fld 116 101 d = x.noticeTgt.toNat ∧
      fld 124 117 d = x.corr.toNat ∧ fld 140 125 d = min (x.pkts.length - x.read.1 + (controlEgress s queue.toNat).length) 65535 ∧ fld 157 141 d = x.reserve % 2 ^ 17 ∧
      fld 174 158 d = x.limit % 2 ^ 17 ∧ fld 191 175 d = allCells s queue.toNat x % 2 ^ 17 ∧
      ((∃ e ∈ s.rx, e.dest = .queue queue.toNat) → fld 98 97 d = 1) ∧
      ((∀ e ∈ s.rx, e.dest ≠ .queue queue.toNat) → fld 98 97 d = x.pdom.toNat) ∧
      ((∃ t ∈ s.tx, t.queue = queue.toNat) → fld 96 95 d = 1) ∧
      ((∀ t ∈ s.tx, t.queue ≠ queue.toNat) → fld 96 95 d = x.cdom.toNat)) ∧
  (∀ s r queue desc slot p a x, heard s r 0x030e 40 = true → queueOn s queue.toNat = true → (∀ e ∈ queueSetBad s queue.toNat desc.toNat, e.2 = false) →
    queueOwner s queue.toNat = some (slot, p, a) → queue? s queue.toNat = some x → p.state = .loaded →
    ∃ u y, exec (.queueSet r queue desc) s = .next (answer r 0x030e St.ok 0 [] u) ∧ queue? u queue.toNat = some y ∧
      y.limit = fld 174 158 desc.toNat ∧ y.noticeTgt.toNat = fld 116 101 desc.toNat ∧ y.noticeKind.toNat = fld 100 99 desc.toNat ∧
      y.autorel = bitAt desc.toNat 93 ∧ y.kind.toNat = fld 91 88 desc.toNat ∧ y.wdog.toNat = fld 87 56 desc.toNat ∧
      y.pkts = x.pkts ∧ y.read = x.read ∧ y.mark = x.mark ∧ y.reserve = x.reserve ∧ y.owner = x.owner ∧ y.broken = x.broken ∧
      (∀ q, q ≠ queue.toNat → queue? u q = queue? s q) ∧ u = { s with queues := u.queues }) ∧
  (∀ s r queue desc, heard s r 0x030e 40 = true → queueOn s queue.toNat = true → (∀ e ∈ queueSetBad s queue.toNat desc.toNat, e.2 = false) →
    (∀ slot p a, queueOwner s queue.toNat = some (slot, p, a) → p.state ≠ .loaded) →
    exec (.queueSet r queue desc) s = .next (answer r 0x030e St.planState 0 [] s)) ∧
  (∀ s r queue x, heard s r 0x0310 8 = true → queueNumberOk queue.toNat = true → queueOn s queue.toNat = true → queue? s queue.toNat = some x →
    (∀ slot p a, queueOwner s queue.toNat = some (slot, p, a) → p.state ≠ .active ∨ queueRuled p a = false) →
    ∃ u y, exec (.queueReset r queue) s = .next (answer r 0x0310 St.ok 0 [] (flowControl (wakeQueue queue.toNat u))) ∧ queue? u queue.toNat = some y ∧
      y.pkts = [] ∧ y.read = (0, 0) ∧ y.mark = none ∧ y.broken = false ∧ y.committed = 0 ∧ y.corr = 0 ∧ y.limit = x.limit ∧
      y.reserve = x.reserve ∧ y.kind = x.kind ∧ y.owner = x.owner ∧ (∀ q, q ≠ queue.toNat → queue? u q = queue? s q) ∧
      u = { s with queues := u.queues } ∧ (poolQuiet s queue.toNat → wakeQueue queue.toNat u = u)) ∧
  (∀ s r queue x slot p a, heard s r 0x0310 8 = true → queueNumberOk queue.toNat = true → queueOn s queue.toNat = true → queue? s queue.toNat = some x →
    queueOwner s queue.toNat = some (slot, p, a) → p.state = .active → queueRuled p a = true →
    exec (.queueReset r queue) s = .next (answer r 0x0310 St.queueRefused 0 [] s)) ∧
  (∀ s r queue, queueNumberOk queue.toNat = true → queueOn s queue.toNat = false →
    (heard s r 0x030d 8 = true → exec (.queueRead r queue) s = .next (answer r 0x030d St.powerState 0 [] s)) ∧
    (heard s r 0x0310 8 = true → exec (.queueReset r queue) s = .next (answer r 0x0310 St.powerState 0 [] s)))

/-- MARK, REWIND, RELEASE, TAKE_POLL, TAKE_WAIT and PACKET_COMMIT move a queue as Table 11-4 and R359 to R373 say
(11_queues_signals.md R359, 11_queues_signals.md R360, 11_queues_signals.md R361, 11_queues_signals.md R362,
11_queues_signals.md R363, 11_queues_signals.md Table 11-4, 11_queues_signals.md R366, 13_mailboxes.md R433). -/
def Obligations.QueueOperations : Prop :=
  (∀ (s : State) (q : BitVec 16) (x : Queue), queue? s q.toNat = some x → ∃ t m, exec (.mark q) s = .next t ∧
      queue? t q.toNat = some { x with mark := some x.read, markCell := m } ∧
      t = { s with queues := t.queues } ∧ ∀ k, k ≠ q.toNat → queue? t k = queue? s k) ∧
  (∀ (s : State) (q : BitVec 16) (x : Queue) m, queue? s q.toNat = some x → x.mark = some m → ∃ t, exec (.rewind q) s = .next t ∧
      queue? t q.toNat = some { x with read := m } ∧ t = { s with queues := t.queues } ∧ ∀ k, k ≠ q.toNat → queue? t k = queue? s k) ∧
  (∀ (s : State) (q : BitVec 16) (x : Queue), queue? s q.toNat = some x → x.mark = none → exec (.rewind q) s = .next s) ∧
  (∀ (s : State) (q : BitVec 16) (x : Queue), queue? s q.toNat = some x → ∃ u y, exec (.release q) s = .next (flowControl (wakeQueue q.toNat u)) ∧
      queue? u q.toNat = some y ∧ y.pkts = x.pkts.drop x.read.1 ∧ y.read = (0, x.read.2) ∧ y.mark = none ∧ y.committed = x.committed ∧
      u = { s with queues := u.queues } ∧ (poolQuiet s q.toNat → wakeQueue q.toNat u = u) ∧ ∀ k, k ≠ q.toNat → queue? u k = queue? s k) ∧
  (∀ (s : State) (q : BitVec 16) (x : Queue) p unit, queue? s q.toNat = some x → x.broken = false → x.pkts[x.read.1]? = some p → p.cells.length = 1 →
      x.read.2 = 0 → x.mark = none → x.autorel = true → ∃ u, exec (.takePoll ⟨q, none, 0⟩) s = .next (flowControl (wakeQueue q.toNat u)) ∧
      exec (.takeWait q unit none 0) s = .next (flowControl (wakeQueue q.toNat u)) ∧ (poolQuiet s q.toNat → wakeQueue q.toNat u = u) ∧
      u = { s with queues := u.queues } ∧ (∃ y, queue? u q.toNat = some y ∧ y.pkts = x.pkts.drop (x.read.1 + 1) ∧
        y.read = (0, 0) ∧ y.committed = x.committed) ∧ ∀ k, k ≠ q.toNat → queue? u k = queue? s k) ∧
  (∀ (s : State) (q : BitVec 16) (x : Queue) unit, queue? s q.toNat = some x → x.pkts.length ≤ x.read.1 →
      exec (.takePoll ⟨q, none, 0⟩) s = .next (flowControl s) ∧ ∃ u, exec (.takeWait q unit none 0) s = .next (flowControl u) ∧
        (∃ e ∈ u.queueWaits, e.1 = q.toNat ∧ e.2.unit = unit) ∧ u = { s with queueWaits := u.queueWaits }) ∧
  (∀ (s : State) (q : BitVec 16) (x : Queue) unit (bs : Bytes), queue? s q.toNat = some x → x.broken = false → cellsFor bs.length ≤ x.limit →
      queueRoom s q.toNat bs.length = true → ∃ u cs pos, exec (.packetCommit q unit bs) s = .next (flowControl (wakeQueue q.toNat (notice q.toNat x u))) ∧
      cs.length = max 1 ((bs.length + 55) / 56) ∧ (∃ y, queue? u q.toNat = some y ∧
        y.pkts = x.pkts ++ [{ bytes := bs, cells := cs, tag := 0, pos := pos }] ∧ y.read = x.read ∧
        y.committed = x.committed + 1) ∧ ∀ k, k ≠ q.toNat → queue? u k = queue? s k) ∧
  (∀ (s : State) (q : BitVec 16) (x : Queue) unit (bs : Bytes), queue? s q.toNat = some x → cellsFor bs.length ≤ x.limit →
      queueRoom s q.toNat bs.length = false → ∃ u, exec (.packetCommit q unit bs) s = .next (flowControl u) ∧
      (∃ e ∈ u.queueWaits, e.1 = q.toNat ∧ e.2.unit = unit ∧ e.2.what = .commit 0 bs) ∧ u = { s with queueWaits := u.queueWaits }) ∧
  (∀ (s : State) (q : BitVec 16) (x : Queue) unit (bs : Bytes), queue? s q.toNat = some x → x.limit < cellsFor bs.length →
      exec (.packetCommit q unit bs) s = .next
        (flowControl (emitErr ⟨5, 4, poolUid q.toNat, 0, bs.length, queuePlan x, false, false⟩ s))) ∧
  (∀ s r (q : BitVec 16) (op cells : Byte) x, heard s r 0x030f 8 = true → queueNumberOk q.toNat = true → queueOn s q.toNat = true → 1 ≤ op.toNat → op.toNat ≤ 4 → 1 ≤ cells.toNat →
      cells.toNat ≤ 55 → hostAttached s q.toNat = true → queue? s q.toNat = some x →
      (op = 2 → exec (.queueOp r ⟨q, none, 0⟩ op cells) s = .next (answer r 0x030f St.ok 0 (payload [.num 1 0, .elems []]) (markOp q.toNat s))) ∧
      (op = 3 → x.mark = none → exec (.queueOp r ⟨q, none, 0⟩ op cells) s = .next (answer r 0x030f St.queueRefused 0 [] s)) ∧
      (op = 4 → exec (.queueOp r ⟨q, none, 0⟩ op cells) s =
        .next (answer r 0x030f St.ok 0 (payload [.num 1 0, .elems []]) (flowControl (releaseOp q.toNat s)))) ∧
      (op = 1 → poolQuiet s q.toNat → ∃ cs u, exec (.queueOp r ⟨q, none, 0⟩ op cells) s =
          .next (answer r 0x030f St.ok 0 (payload [.num 1 cs.length, .elems cs]) (flowControl u)) ∧ cs.length ≤ cells.toNat ∧
        (∀ k, k ≠ q.toNat → queue? u k = queue? s k) ∧ (x.pkts.length ≤ x.read.1 → cs = []) ∧
        (∀ p, x.broken = false → x.pkts[x.read.1]? = some p → x.read.2 = 0 → cs ≠ [] ∧
          ∀ c, cs.head? = some c → c.drop 8 = fit 56 (p.bytes.take 56)))) ∧
  (∀ s r (q : BitVec 16) (op cells : Byte), heard s r 0x030f 8 = true → queueNumberOk q.toNat = true → queueOn s q.toNat = true → 1 ≤ op.toNat → op.toNat ≤ 4 → 1 ≤ cells.toNat →
      cells.toNat ≤ 55 → hostAttached s q.toNat = false →
      exec (.queueOp r ⟨q, none, 0⟩ op cells) s = .next (answer r 0x030f St.queueRefused 0 [] s))

/-- SIGNAL_ALLOC, SET, ADD and READ act on cells that are held, and REMOTE_DISCARD drops a held remote signal
(11_queues_signals.md R374, 11_queues_signals.md R380, 11_queues_signals.md R383, 11_queues_signals.md Table 11-7,
13_mailboxes.md Table 13-8, 13_mailboxes.md R433). -/
def Obligations.SignalCommands : Prop :=
  (∀ s r (n : BitVec 16) (die : Byte) f, heard s r 0x0311 8 = true → die.toNat ≤ 3 → isExcluded s (signalsUid die.toNat) = false → n.toNat ≤ 4096 →
    freeRun s die.toNat n.toNat = some f → ∃ u, exec (.signalAlloc r n die) s = .next (answer r 0x0311 St.ok 0 (payload [.num 2 f]) u) ∧
      (∀ k, k < n.toNat → cellHeld s (f + k) = false ∧ cell u (f + k) = { SigCell.reset with session := true }) ∧
      (∀ c, (c < f ∨ f + n.toNat ≤ c) → cell u c = cell s c) ∧ die.toNat * 4096 ≤ f ∧ f + n.toNat ≤ (die.toNat + 1) * 4096 ∧
      u = { s with cells := u.cells }) ∧
  (∀ s r (c : BitVec 16) value min max wdog (toHost : Byte), heard s r 0x0312 24 = true → c.toNat < 16384 → min.sle value = true → value.sle max = true →
    toHost.toNat ≤ 1 → cellHeld s c.toNat = true → (∀ p, cellPlan s c.toNat = some p → p.state = .loaded) →
    ∃ u, exec (.signalSet r c value min max wdog toHost) s = .next (answer r 0x0312 St.ok 0 [] (noteReserves (releaseAll c.toNat u))) ∧
      cell u c.toNat = { cell s c.toNat with value := value, min := min, max := max, wdog := wdog, toHost := toHost == 1 } ∧
      (∀ k, k ≠ c.toNat → cell u k = cell s k) ∧ u = { s with cells := u.cells }) ∧
  (∀ s r (c : BitVec 16) value min max wdog (toHost : Byte) p, heard s r 0x0312 24 = true → c.toNat < 16384 → min.sle value = true → value.sle max = true →
    toHost.toNat ≤ 1 → cellHeld s c.toNat = true → cellPlan s c.toNat = some p → p.state ≠ .loaded →
    exec (.signalSet r c value min max wdog toHost) s = .next (answer r 0x0312 St.planState 0 [] s)) ∧
  (∀ s r (c : BitVec 16) n, heard s r 0x0313 8 = true → c.toNat < 16384 → cellHeld s c.toNat = true →
    exec (.signalAdd r c n) s = .next (answer r 0x0313 St.ok 0 [] (signalAdd c.toNat n.toInt s))) ∧
  (∀ s r (c : BitVec 16) n, heard s r 0x0313 8 = true → c.toNat < 16384 → cellHeld s c.toNat = false →
    exec (.signalAdd r c n) s = .next (answer r 0x0313 St.cellRefused 0 [] s)) ∧
  (∀ s r (c : BitVec 16), heard s r 0x0314 8 = true → c.toNat < 16384 → ∃ d, exec (.signalRead r c) s = .next (answer r 0x0314 St.ok 0 (le 32 d) s) ∧
      fld 9 9 d = b2n (cell s c.toNat).overflow ∧ fld 10 10 d = b2n (cell s c.toNat).underflow ∧ fld 11 11 d = b2n (cell s c.toNat).toHost ∧
      fld 47 40 d = (cell s c.toNat).plan.toNat ∧ fld 63 48 d = (cell s c.toNat).waiters.length % 65536 ∧
      fld 95 64 d = (cell s c.toNat).min.toNat ∧ fld 127 96 d = (cell s c.toNat).max.toNat ∧ fld 159 128 d = (cell s c.toNat).value.toNat ∧
      fld 191 160 d = (cell s c.toNat).wdog.toNat ∧ fld 255 192 d = (cell s c.toNat).adds.toNat) ∧
  (∀ s r (source : BitVec 16) (ext : Byte) stream (pos : BitVec 64) x, heard s r 0x0315 16 = true → source.toNat < 1024 → ext.toNat ≤ 1 → pos.toNat < 2 ^ 48 →
    s.remote.find? (remoteIs source.toNat (ext == 1) stream.toNat pos.toNat) = some x →
    exec (.remoteDiscard r source ext stream pos) s = .next (answer r 0x0315 St.ok 0 [] (admitRemotes { s with remote := s.remote.erase x }))) ∧
  (∀ s r (source : BitVec 16) (ext : Byte) stream (pos : BitVec 64), heard s r 0x0315 16 = true → source.toNat < 1024 → ext.toNat ≤ 1 → pos.toNat < 2 ^ 48 →
    s.remote.find? (remoteIs source.toNat (ext == 1) stream.toNat pos.toNat) = none →
    exec (.remoteDiscard r source ext stream pos) s = .next (answer r 0x0315 St.notHeld 0 [] s))

/-- An add saturates and sets its flags, a due remote signal is applied, and a wait that runs out is parked with
WAIT_TIMEOUT (11_queues_signals.md R375, 11_queues_signals.md R376, 11_queues_signals.md R378, 11_queues_signals.md
R382, 11_queues_signals.md R383). -/
def Obligations.SignalEvents : Prop :=
  (∀ (s : State) (c : BitVec 14) (n : BitVec 32) unit, (cell s c.toNat).waiters = [] → (cell s c.toNat).min.sle (cell s c.toNat).value = true →
    (cell s c.toNat).value.sle (cell s c.toNat).max = true →
    ∃ t, exec (.addApplied c n unit) s = .next t ∧
      (s.blot.notice = none →
        (cell t c.toNat).value.toInt = max (cell s c.toNat).min.toInt (min (cell s c.toNat).max.toInt ((cell s c.toNat).value.toInt + n.toInt)) ∧
        (cell t c.toNat).adds = (cell s c.toNat).adds + 1 ∧ (cell t c.toNat).min = (cell s c.toNat).min ∧
        (cell t c.toNat).max = (cell s c.toNat).max ∧
        ((cell t c.toNat).overflow = true ↔ (cell s c.toNat).overflow = true ∨ (cell s c.toNat).max.toInt < (cell s c.toNat).value.toInt + n.toInt) ∧
        ((cell t c.toNat).underflow = true ↔ (cell s c.toNat).underflow = true ∨ (cell s c.toNat).value.toInt + n.toInt < (cell s c.toNat).min.toInt)) ∧
      (addExcess (cell s c.toNat) n.toInt = 0 → (cell s c.toNat).toHost = false →
        ∃ u, t = noteReserves u ∧ u = { s with cells := u.cells } ∧ ∀ k, k ≠ c.toNat → cell u k = cell s k)) ∧
  (∀ (s : State) (source : BitVec 10) ext (stream : BitVec 16) (pos : BitVec 48) x,
    s.remote.find? (remoteIs source.toNat ext stream.toNat pos.toNat) = some x →
    (committedOf s source.toNat ext stream.toNat - pos).toNat < 2 ^ 47 →
    exec (.remoteSignalApplied source ext stream pos) s =
      .next (signalAdd x.cell x.n.toInt (admitRemotes { s with remote := s.remote.erase x }))) ∧
  (∀ (s : State) (source : BitVec 10) ext (stream : BitVec 16) (pos : BitVec 48),
    2 ^ 47 ≤ (committedOf s source.toNat ext stream.toNat - pos).toNat → exec (.remoteSignalApplied source ext stream pos) s = .next s) ∧
  (∀ (s : State) (source : BitVec 10) ext (stream : BitVec 16) (pos : BitVec 48) x,
    s.remote.find? (fun x => remoteIs source.toNat ext stream.toNat pos.toNat x && !x.reported) = some x →
    ∃ u, exec (.sigRemoteHeld source ext stream pos) s = .next (emitErr ⟨5, 8, signalsUid x.die, (b2n ext * 1024 + source.toNat) * 65536 + stream.toNat, 0,
        (cell s x.cell).plan.toNat, false, false⟩ u) ∧
      u.clk.cycle = max s.clk.cycle (x.since + 1900001) ∧ u.cells = s.cells ∧ u.remote.length = s.remote.length ∧
      { x with reported := true } ∈ u.remote) ∧
  (∀ (s : State) (num unit : BitVec 16) e x, s.queueWaits.find? (fun e => e.1 == num.toNat && e.2.unit == unit) = some e →
    queue? s num.toNat = some x → x.wdog ≠ 0xffffffff#32 →
    ∃ u, exec (.waitTimeout true num unit) s = .next (emitErr ⟨5, 7, e.2.unit, (match e.2.what with | .task t => 2 ^ 32 + t.id | _ => 0),
        65536 + num.toNat, (match e.2.what with | .task t => t.slot | .stream slot _ => slot | _ => 0xff), false, false⟩ u) ∧
      u = { s with queueWaits := s.queueWaits.erase e, parked := s.parked ++ [{ waiter := e.2, queue := true, num := num.toNat }], clk := u.clk } ∧
      u.clk.cycle = max s.clk.cycle (e.2.since + (if x.wdog = 0 then 19000000 else x.wdog.toNat))) ∧
  (∀ (s : State) (num unit : BitVec 16) w, (cell s num.toNat).waiters = [w] → w.unit = unit → (cell s num.toNat).wdog ≠ 0xffffffff#32 →
    s.regHeld = [] → ∃ t, exec (.waitTimeout false num unit) s = .next t ∧
      { waiter := w, queue := false, num := num.toNat } ∈ t.parked ∧ (unnoted s = none → s.blot.notice = none →
        t.blot.written = s.blot.written + 1) ∧
      (s.blot.notice = none → (cell t num.toNat).waiters = [] ∧ (cell t num.toNat).value = (cell s num.toNat).value))

/-- OWNER_MAP writes owner entries of a LOADED plan's table, OWNER_READ and TABLE_COUNTERS report, TABLE_REPLACE is
accepted under R255 (07_embeddings.md R222, 07_embeddings.md R223, 07_embeddings.md R255, 07_embeddings.md Table 7-3,
13_mailboxes.md Table 13-9). -/
def Obligations.TableCommands : Prop :=
  (∀ s r (slot : Byte) (ref : BitVec 16) (first : BitVec 32) (words : List (BitVec 64)) c (os : List Owner),
    heard s r 0x0401 (16 + 8 * words.length) = true → slot.toNat < 64 → words.length ≤ 440 → tableCtx s slot.toNat ref.toNat = some c →
    c.plan.state = .loaded → c.r.place = 0 → words.map (fun w => ownerWord s c.plan c.r w.toNat) = os.map some →
    first.toNat + words.length ≤ (tableOf s slot.toNat ref.toNat).owners.length →
    (c.d.lag = 1 → ∀ o ∈ os, o.isSet = true → o.home / 2 ^ 47 = s.deviceNumber.toNat) →
    ∃ u, exec (.ownerMap r slot ref first words) s = .next (answer r 0x0401 St.ok 0 [] u) ∧
      (∀ i, ((tableOf u slot.toNat ref.toNat).owners)[i]? =
        if first.toNat ≤ i ∧ i < first.toNat + os.length then os[i - first.toNat]? else ((tableOf s slot.toNat ref.toNat).owners)[i]?) ∧
      tableOf u slot.toNat ref.toNat = { tableOf s slot.toNat ref.toNat with owners := (tableOf u slot.toNat ref.toNat).owners } ∧
      u = { s with tables := u.tables } ∧ ∀ a b, (a, b) ≠ (slot.toNat, ref.toNat) → tableOf u a b = tableOf s a b) ∧
  (∀ s r (slot : Byte) (ref : BitVec 16) (first : BitVec 32) (words : List (BitVec 64)) c p,
    heard s r 0x0401 (16 + 8 * words.length) = true → slot.toNat < 64 → words.length ≤ 440 → tableCtx s slot.toNat ref.toNat = some c →
    (∀ w ∈ words, (ownerWord s c.plan c.r w.toNat).isSome = true) → plan? s slot.toNat = some p →
    (p.state ≠ .loaded → exec (.ownerMap r slot ref first words) s = .next (answer r 0x0401 St.planState 0 [] s)) ∧
    (p.state = .loaded → (c.r.place ≠ 0 ∨ (tableOf s slot.toNat ref.toNat).owners.length < first.toNat + words.length) →
      exec (.ownerMap r slot ref first words) s = .next (answer r 0x0401 St.notTable 1 [] s)) ∧
    (p.state = .loaded → c.r.place = 0 → first.toNat + words.length ≤ (tableOf s slot.toNat ref.toNat).owners.length → c.d.lag = 1 →
      (∃ w ∈ words, ∃ o, ownerWord s c.plan c.r w.toNat = some o ∧ o.isSet = true ∧ o.home / 2 ^ 47 ≠ s.deviceNumber.toNat) →
      exec (.ownerMap r slot ref first words) s = .next (answer r 0x0401 St.notTable 2 [] s))) ∧
  (∀ s r (slot : Byte) (ref : BitVec 16) (first : BitVec 32) (n : BitVec 16) c, heard s r 0x0402 16 = true → slot.toNat < 64 → n.toNat ≤ 220 →
    tableCtx s slot.toNat ref.toNat = some c → first.toNat + n.toNat ≤ (tableOf s slot.toNat ref.toNat).owners.length →
    ∃ es : List Bytes, exec (.ownerRead r slot ref first n) s = .next (answer r 0x0402 St.ok 0 es.flatten s) ∧ es.length = n.toNat ∧
      ∀ i o, i < n.toNat → (tableOf s slot.toNat ref.toNat).owners[first.toNat + i]? = some o → ∃ w, es[i]? = some (le 16 w) ∧
        fld 120 64 w = (if o.isSet then o.home % 2 ^ 57 else 0) ∧
        (o.isSet = true → o.home / 2 ^ 47 = s.deviceNumber.toNat → fld 1 0 w = o.state % 4 ∧ fld 13 2 w = o.slot % 2 ^ 12 ∧ fld 15 14 w = o.die % 4) ∧
        ((o.isSet = false ∨ o.home / 2 ^ 47 ≠ s.deviceNumber.toNat) → fld 63 0 w = 0)) ∧
  (∀ s r (slot : Byte) (ref : BitVec 16) c, heard s r 0x0406 8 = true → slot.toNat < 64 → tableCtx s slot.toNat ref.toNat = some c →
    exec (.tableCounters r slot ref) s = .next (answer r 0x0406 St.ok 0 (payload [.num 8 (tableOf s slot.toNat ref.toNat).served,
      .num 8 (tableOf s slot.toNat ref.toNat).dipHits, .num 8 (tableOf s slot.toNat ref.toNat).dipMisses,
      .num 8 (tableOf s slot.toNat ref.toNat).dipBusy, .num 8 (tableOf s slot.toNat ref.toNat).outOfRange,
      .num 8 ((tableOf s slot.toNat ref.toNat).owners.filter fun o => o.isSet && o.state == 2).length,
      .num 8 (tableOf s slot.toNat ref.toNat).aborted]) s)) ∧
  (∀ s r (slot : Byte) (ref : BitVec 16), slot.toNat < 64 → tableCtx s slot.toNat ref.toNat = none →
    (heard s r 0x0406 8 = true → exec (.tableCounters r slot ref) s = .next (answer r 0x0406 St.notTable 1 [] s)) ∧
    (∀ (first : BitVec 32) (n : BitVec 16), n.toNat ≤ 220 → heard s r 0x0402 16 = true →
      exec (.ownerRead r slot ref first n) s = .next (answer r 0x0402 St.notTable 1 [] s)) ∧
    (∀ (first : BitVec 32) (words : List (BitVec 64)), words.length ≤ 440 → heard s r 0x0401 (16 + 8 * words.length) = true →
      exec (.ownerMap r slot ref first words) s = .next (answer r 0x0401
        (if (plan? s slot.toNat).any (fun p => p.state == .loaded) then St.notTable else St.planState)
        (if (plan? s slot.toNat).any (fun p => p.state == .loaded) then 1 else 0) [] s))) ∧
  (∀ s r (slot : Byte) (ref : BitVec 16) (first : BitVec 32) (n : BitVec 16) c, heard s r 0x0402 16 = true → slot.toNat < 64 → n.toNat ≤ 220 →
    tableCtx s slot.toNat ref.toNat = some c → (tableOf s slot.toNat ref.toNat).owners.length < first.toNat + n.toNat →
    exec (.ownerRead r slot ref first n) s = .next (answer r 0x0402 St.notTable 1 [] s)) ∧
  (∀ s r (slot : Byte) (live standby : BitVec 16) (T : BitVec 64) c x, heardP s r 0x0403 16 = true → slot.toNat < 64 →
    tableCtx s slot.toNat live.toNat = some c → tableCtx s slot.toNat standby.toNat = some x → replaceOk s c x T.toNat = true →
    ∃ u, exec (.tableReplace r slot live standby T) s = .next (acceptCmd r 0x0403 (.replace slot.toNat live.toNat T.toNat) [] u) ∧
      ⟨.tableSwap slot.toNat live.toNat standby.toNat T.toNat, false, false⟩ ∈ u.actions ∧
      (∀ o ∈ (tableOf u slot.toNat live.toNat).owners, o.state ≠ 1) ∧ u = { s with actions := u.actions, tables := u.tables } ∧
      ∀ a b, (a, b) ≠ (slot.toNat, live.toNat) → replacing s a b = false → tableOf u a b = tableOf s a b) ∧
  (∀ s r (slot : Byte) (live standby : BitVec 16) (T : BitVec 64) c x, heardP s r 0x0403 16 = true → slot.toNat < 64 →
    tableCtx s slot.toNat live.toNat = some c → tableCtx s slot.toNat standby.toNat = some x →
    (c.ref = x.ref ∨ c.d.rows ≠ x.d.rows ∨ c.d.dim ≠ x.d.dim ∨ c.d.stride ≠ x.d.stride ∨ c.d.fmt ≠ x.d.fmt ∨ c.r.place ≠ x.r.place ∨
      (∃ o ∈ (tableOf s slot.toNat standby.toNat).owners, o.isSet = false) ∨ c.plan.state = .retiring ∨ T.toNat ≤ nowTick s + 1 ∨
      16 ≤ ((replacements s).filter fun e => e.2.2.2 == T.toNat).length) →
    exec (.tableReplace r slot live standby T) s = .next (answer r 0x0403 St.replaceRefused 0 [] s)) ∧
  (∀ s r (slot : Byte) (live standby : BitVec 16) (T : BitVec 64), heardP s r 0x0403 16 = true → slot.toNat < 64 →
    (tableCtx s slot.toNat live.toNat = none ∨ tableCtx s slot.toNat standby.toNat = none) →
    exec (.tableReplace r slot live standby T) s = .next (answer r 0x0403 St.replaceRefused 0 [] s))

/-- A block's copy requests its cutover; a cutover, a swap and a placement change done in the guard band are in force from the closing
edge: the block moves, the owners and the generation are exchanged, the copies answer (07_embeddings.md R249, 07_embeddings.md
R251, 07_embeddings.md R252, 07_embeddings.md R255, 07_embeddings.md R258, 12_ports.md R409; that an action row marks its action done and
the edge puts it in force is the model's choice, assumption 160). -/
def Obligations.TableEvents : Prop :=
  (∀ (s : State) (slot : BitVec 6) (ref : BitVec 16) (row : BitVec 64) c m pl, tableCtx s slot.toNat ref.toNat = some c →
    (tableOf s slot.toNat ref.toNat).migrations.find? (fun m => m.block == c.block row.toNat && !m.requested) = some m →
    blockPlaces s c (c.block row.toNat) = some pl → blockReach s c (c.block row.toNat) = true →
    ∃ t, exec (.migrationCopyComplete slot ref row) s = .next t ∧
      t.actions = s.actions ++ [⟨.cutover slot.toNat ref.toNat row.toNat 0, false, false⟩] ∧
      (∀ m ∈ (tableOf t slot.toNat ref.toNat).migrations, m.block = c.block row.toNat → m.requested = true) ∧
      (tableOf t slot.toNat ref.toNat).owners = (tableOf s slot.toNat ref.toNat).owners ∧
      t.mem = (copyRows c (c.block row.toNat) m.cursor ((blockRows c (c.block row.toNat)).2 - m.cursor) s).mem ∧
      (∀ a b, (a, b) ≠ (slot.toNat, ref.toNat) → tableOf t a b = tableOf s a b) ∧ t.plans = s.plans) ∧
  (∀ (s : State) (slot : BitVec 6) (ref : BitVec 16) (row : BitVec 64) c a, tableCtx s slot.toNat ref.toNat = some c →
    admitted s (isCutover c (c.block row.toNat)) = some a →
    ∃ t, exec (.hotRowCutover slot ref row) s = .next t ∧
      t.actions = s.actions.map (fun x => if x = a then { x with done := true } else x) ∧
      (tableOf t slot.toNat ref.toNat).owners = (tableOf s slot.toNat ref.toNat).owners ∧
      (∀ m, (tableOf t slot.toNat ref.toNat).migrations.find? (fun m => m.block == c.block row.toNat) = some m → m.log = []) ∧
      ((∀ m, (tableOf s slot.toNat ref.toNat).migrations.find? (fun m => m.block == c.block row.toNat) = some m → m.log = []) →
        t.mem = s.mem) ∧ t.plans = s.plans) ∧
  (∀ (s : State) slot ref row c o, tableCtx s slot ref = some c → (tableOf s slot ref).owners[c.block row]? = some o →
    (tableOf (commitAction s (.cutover slot ref row 0)) slot ref).owners[c.block row]? =
      some (if o.state = 1 then { o with state := 2 } else { o with state := 0, die := 0, slot := 0 }) ∧
    (∀ i, i ≠ c.block row → (tableOf (commitAction s (.cutover slot ref row 0)) slot ref).owners[i]? = (tableOf s slot ref).owners[i]?) ∧
    (∀ m ∈ (tableOf (commitAction s (.cutover slot ref row 0)) slot ref).migrations, m.block ≠ c.block row) ∧
    (commitAction s (.cutover slot ref row 0)).plans = s.plans) ∧
  (∀ (s : State) (slot : BitVec 6) (live : BitVec 16) a,
    admitted s (fun a => match a with
      | .tableSwap sl l _ t => sl == slot.toNat && l == live.toNat && t == nowTick s + 1
      | _ => false) = some a →
    exec (.tableSwap slot live) s = .next { s with actions := s.actions.map fun x => if x = a then { x with done := true } else x }) ∧
  (∀ (s : State) slot live standby T c, tableCtx s slot live = some c → standby ≠ live →
    ∃ u, commitAction s (.tableSwap slot live standby T) = finalAnswer (fun k => k == .replace slot live T) St.ok 0 (payload [.num 8 T]) u ∧
      (tableOf u slot live).owners = (tableOf s slot standby).owners ∧ (tableOf u slot standby).owners = (tableOf s slot live).owners ∧
      (tableOf u slot live).gen = ((tableOf s slot live).gen + 1) % 65536 ∧ (tableOf u slot live).pause = some T ∧
      ⟨.dipChange slot live pauseEnd, false, false⟩ ∈ u.actions ∧ u.mem = s.mem ∧ u.plans = s.plans) ∧
  (∀ (s : State) (slot : BitVec 6) (ref : BitVec 16) (row : BitVec 64) a,
    admitted s (fun a => a == .dipChange slot.toNat ref.toNat row.toNat) = some a →
    exec (.dipPlacementChange slot ref row) s =
      .next { s with actions := s.actions.map fun x => if x = a then { x with done := true } else x }) ∧
  (∀ (s : State) slot ref row c, tableCtx s slot ref = some c → row ≠ pauseEnd →
    commitAction s (.dipChange slot ref row) = { s with dips := (commitAction s (.dipChange slot ref row)).dips } ∧
    (∀ d x r, (d, x) ∈ (commitAction s (.dipChange slot ref row)).dips → r ∈ x.rows → r.slot = slot → r.ref = ref → r.row = row →
      r.gen = (tableOf s slot ref).gen → r.live = true)) ∧
  (∀ (s : State) slot ref c p, tableCtx s slot ref = some c → (tableOf s slot ref).pause = some p →
    (tableOf (commitAction s (.dipChange slot ref pauseEnd)) slot ref).pause = if p + 2 ≤ nowTick s then none else some p) ∧
  (∀ (s : State) (slot : BitVec 6) (ref : BitVec 16) (row : BitVec 64), s.clk.guard = false →
    exec (.hotRowCutover slot ref row) s = .next s ∧ exec (.tableSwap slot ref) s = .next s ∧ exec (.dipPlacementChange slot ref row) s = .next s) ∧
  (∀ s : State, s.rul.surveyTicks < 64 → exec .surveyInterval s = .next s) ∧
  (∀ s : State, 64 ≤ s.rul.surveyTicks → ∃ t, exec .surveyInterval s = .next t ∧ t.rul.surveyTicks = 0 ∧
    (∀ e ∈ t.tables, ∀ o ∈ e.2.owners, o.reads = [0, 0, 0, 0]) ∧ (∀ d ∈ t.dips, d.2.misses = []) ∧ t.mem = s.mem ∧ t.plans = s.plans)

/-- STATS_SET, STATS_READ, STATS_FLIP, STATS_MERGE and EPOCH_BOUNDARY keep, read, flip, merge and activate the copies of a statistics
reference (06_shaping.md R199, 06_shaping.md R200, 06_shaping.md R201,
13_mailboxes.md Table 13-9). -/
def Obligations.StatisticsCommands : Prop :=
  (∀ s r (slot : Byte) (ref : BitVec 16) (action : Byte) (first : BitVec 16) (columns : List Bytes) p cols,
    heardP s r 0x0404 (16 + 64 * columns.length) = true → slot.toNat < 64 → (action = 1 ∨ action = 2) → columns.length ≤ 55 →
    statRef s slot.toNat ref.toNat = some (p, cols) → first.toNat + columns.length ≤ cols →
    (statAuto s p ref.toNat = false → ∃ u,
      exec (.statsSet r slot ref action first columns) s = .next (acceptCmd r 0x0404 (.stats slot.toNat ref.toNat (nowTick s)) [] u) ∧
      statObj u slot.toNat ref.toNat = { statObj s slot.toNat ref.toNat with flips := (statObj s slot.toNat ref.toNat).flips ++
        [(nowTick s, if action = 2 then some (first.toNat, columns.map (fit 64)) else none)] } ∧
      (∀ k, k ≠ (slot.toNat, ref.toNat) → statObj u k.1 k.2 = statObj s k.1 k.2) ∧ u = { s with stats := u.stats }) ∧
    (statAuto s p ref.toNat = true →
      exec (.statsSet r slot ref action first columns) s = .next (answer r 0x0404 St.statsMode 0 [] s))) ∧
  (∀ s r (slot : Byte) (ref : BitVec 16) (copy : Byte) (first n : BitVec 16) p cols k, heard s r 0x0405 16 = true → slot.toNat < 64 → copy.toNat ≤ 1 →
    n.toNat ≤ 55 → statRef s slot.toNat ref.toNat = some (p, cols) → first.toNat + n.toNat ≤ cols →
    k = (statActive s p ref.toNat + copy.toNat) % 2 →
    exec (.statsRead r slot ref copy first n) s = .next (answer r 0x0405 St.ok 0
      (refBytes s p ref.toNat 0 32 ++ refBytes s p ref.toNat (32 + 64 * cols * k + 64 * first.toNat) (64 * n.toNat)) s)) ∧
  (∀ s r (slot : Byte) (ref : BitVec 16) (first n : BitVec 16), slot.toNat < 64 → n.toNat ≤ 55 →
    (∀ p cols, statRef s slot.toNat ref.toNat = some (p, cols) → cols < first.toNat + n.toNat) →
    (∀ copy : Byte, copy.toNat ≤ 1 → heard s r 0x0405 16 = true →
      exec (.statsRead r slot ref copy first n) s = .next (answer r 0x0405 St.notTable 1 [] s)) ∧
    (∀ (action : Byte) (columns : List Bytes), (action = 1 ∨ action = 2) → columns.length = n.toNat →
      heardP s r 0x0404 (16 + 64 * columns.length) = true →
      exec (.statsSet r slot ref action first columns) s = .next (answer r 0x0404 St.notTable 1 [] s))) ∧
  (∀ (s : State) (slot : BitVec 6) (ref : BitVec 16) p, plan? s slot.toNat = some p →
    (∃ e ∈ (statObj s slot.toNat ref.toNat).flips, e.1 < nowTick s) →
    ∃ u, exec (.statsFlip slot ref) s =
        .next (finalAnswer (statsDue slot.toNat ref.toNat (nowTick s)) St.ok 0 (payload [.num 8 (nowTick s)]) u) ∧
      (statObj u slot.toNat ref.toNat).flips = (statObj s slot.toNat ref.toNat).flips.filter (fun e => decide (nowTick s ≤ e.1)) ∧
      (statObj u slot.toNat ref.toNat).published = none ∧
      (statObj u slot.toNat ref.toNat).history.length = (statObj s slot.toNat ref.toNat).history.length +
        ((statObj s slot.toNat ref.toNat).flips.filter fun e => decide (e.1 < nowTick s)).length ∧
      ((statObj u slot.toNat ref.toNat).history.head?).map (·.1) = some s.clk.edge ∧
      (statObj u slot.toNat ref.toNat).partials = (statObj s slot.toNat ref.toNat).partials ∧
      u.streams = s.streams ∧ u.tables = s.tables ∧ u.plans = s.plans ∧
      (∀ k, k ≠ (slot.toNat, ref.toNat) → statObj u k.1 k.2 = statObj s k.1 k.2)) ∧
  (∀ (s : State) (slot : BitVec 6) (ref : BitVec 16), (∀ e ∈ (statObj s slot.toNat ref.toNat).flips, nowTick s ≤ e.1) →
    exec (.statsFlip slot ref) s = .next s) ∧
  (∀ (s : State) (slot : BitVec 6) (ref : BitVec 16) p e es, plan? s slot.toNat = some p →
    (statObj s slot.toNat ref.toNat).partials.map (·.epoch) = e :: es →
    (∀ k ∈ statsCores p, ∃ f ∈ statRefs p, ∃ x, look k (statObj s slot.toNat f).cores = some x ∧ es.foldl min e < x) →
    ∃ t, exec (.statsMerge slot ref) s = .next t ∧
      (statObj t slot.toNat ref.toNat).published = some (1 - statActive s p ref.toNat, es.foldl min e) ∧
      (∀ x ∈ (statObj t slot.toNat ref.toNat).partials, x.epoch ≠ es.foldl min e) ∧ t.plans = s.plans ∧ t.streams = s.streams) ∧
  (∀ (s : State) (slot : BitVec 6) (ref : BitVec 16) p e es k, plan? s slot.toNat = some p →
    (statObj s slot.toNat ref.toNat).partials.map (·.epoch) = e :: es → k ∈ statsCores p →
    (∀ f ∈ statRefs p, ∀ x, look k (statObj s slot.toNat f).cores = some x → x ≤ es.foldl min e) → exec (.statsMerge slot ref) s = .next s) ∧
  (∀ (s : State) (slot : BitVec 6) p, plan? s slot.toNat = some p →
    ((∀ ref ∈ statRefs p, planEpoch s slot.toNat p ≤ (statObj s slot.toNat ref).boundary) → exec (.epochBoundary slot) s = .next s) ∧
    (epochStart s slot.toNat p = none → exec (.epochBoundary slot) s = .next s) ∧
    (∀ ref e c, statRefs p = [ref] → epochStart s slot.toNat p = some (e, c) → (statObj s slot.toNat ref).boundary < e →
      ((statObj s slot.toNat ref).published = none ∨ statAuto s p ref = false ∨ c < (statObj s slot.toNat ref).publishedAt) →
      e = planEpoch s slot.toNat p ∧ exec (.epochBoundary slot) s =
        .next (setStat slot.toNat ref { statObj s slot.toNat ref with boundary := e } s)) ∧
    (∀ ref x e c, statRefs p = [ref] → epochStart s slot.toNat p = some (e, c) → (statObj s slot.toNat ref).boundary < e →
      (statObj s slot.toNat ref).published = some x → statAuto s p ref = true → (statObj s slot.toNat ref).publishedAt ≤ c →
      ∃ t, exec (.epochBoundary slot) s = .next t ∧ (statObj t slot.toNat ref).published = none ∧
        (statObj t slot.toNat ref).boundary = e ∧
        ((statObj t slot.toNat ref).history.head?).map (·.1) = some c ∧ t.plans = s.plans ∧ t.streams = s.streams))

/-- RULING_SET accepts discipline only under the four conditions of R48, and otherwise refuses it and changes no
register (R48). -/
def Obligations.DisciplineIsChecked : Prop :=
  (∀ s r (cfg : BitVec 64), heardP s r 0x0502 8 = true → 19000 ≤ fld 26 0 cfg.toNat → fld 26 0 cfg.toNat ≤ 95000000 → fld 62 57 cfg.toNat = 0 →
    bitAt cfg.toNat 63 = true →
    (fld 26 0 cfg.toNat % 19 ≠ 0 ∨ 1000000000 % (fld 26 0 cfg.toNat * 10 / 19) ≠ 0 ∨
      fld 26 0 cfg.toNat * 10 / 19 ≤ fld 56 27 cfg.toNat ∨
      disciplined s = false ∧ ∃ e ∈ s.plans, e.2.state ≠ .loaded) →
    exec (.rulingSet r cfg) s = .next (answer r 0x0502 St.discRefused 0 [] s)) ∧
  (∀ s r (cfg : BitVec 64), heardP s r 0x0502 8 = true → 19000 ≤ fld 26 0 cfg.toNat → fld 26 0 cfg.toNat ≤ 95000000 → fld 62 57 cfg.toNat = 0 →
    bitAt cfg.toNat 63 = true → fld 26 0 cfg.toNat % 19 = 0 → 1000000000 % (fld 26 0 cfg.toNat * 10 / 19) = 0 →
    fld 56 27 cfg.toNat < fld 26 0 cfg.toNat * 10 / 19 → (disciplined s = true ∨ ∀ e ∈ s.plans, e.2.state = .loaded) →
    fld 26 0 cfg.toNat = askedPeriod s →
    ∃ u, exec (.rulingSet r cfg) s = .next (acceptCmd r 0x0502 (.ruling u.rul.asked) [] u) ∧ disciplined u = true ∧
      phaseNs u = fld 56 27 cfg.toNat ∧ period u = period s ∧ u = { s with rul := u.rul }) ∧
  (∀ r op status detail body s, (answer r op status detail body s).rul = s.rul)

/-- RULING_SET and RULING_ACK, and the ruling's own events, change the ruling registers as R44 to R52 and Table 2-2 say
(02_ruling.md R46, 02_ruling.md R47, 02_ruling.md R50, 02_ruling.md R52, 02_ruling.md Table 2-2, 02_ruling.md Table
2-10, 13_mailboxes.md Table 13-10). -/
def Obligations.RulingEvents : Prop :=
  (∀ s r (cfg : BitVec 64), heardP s r 0x0502 8 = true → 19000 ≤ fld 26 0 cfg.toNat → fld 26 0 cfg.toNat ≤ 95000000 → fld 62 57 cfg.toNat = 0 →
    bitAt cfg.toNat 63 = false → 19 * fld 56 27 cfg.toNat < 10 * fld 26 0 cfg.toNat → fld 26 0 cfg.toNat ≠ askedPeriod s →
    (ruledBound s = false → ∃ u, exec (.rulingSet r cfg) s = .next (acceptCmd r 0x0502 (.ruling u.rul.asked) [] u) ∧
      u.rul.asked = s.rul.asked + (if s.rul.nextPeriod.isNone then 1 else 0) ∧
      u.rul.nextPeriod = some (fld 26 0 cfg.toNat) ∧ period u = period s ∧ disciplined u = false ∧ phaseNs u = fld 56 27 cfg.toNat ∧
      fld 8 8 u.rul.status.toNat = 1 ∧ fld 5 4 u.rul.status.toNat = 0 ∧ u = { s with rul := u.rul }) ∧
    (ruledBound s = true → fitCheck s [] [fld 26 0 cfg.toNat] = none → ∃ u, exec (.rulingSet r cfg) s = .next (acceptCmd r 0x0502 (.ruling (s.rul.asked + 1)) [] u) ∧
      ⟨.periodChange (fld 26 0 cfg.toNat), false, false⟩ ∈ u.actions ∧ period u = period s ∧ u = { s with rul := u.rul, actions := u.actions })) ∧
  (∀ s r (v : BitVec 32), heard s r 0x0503 8 = true → fld 2 0 v.toNat = 0 → fld 15 9 v.toNat = 0 →
    ∃ u, exec (.rulingAck r v) s = .next (answer r 0x0503 St.ok 0 [] u) ∧
      (bitAt v.toNat 7 = true → bitAt u.rul.status.toNat 7 = false ∧ fld 31 16 u.rul.status.toNat = 0 ∧ u.rul.overrunUnits = []) ∧
      (bitAt v.toNat 7 = false → bitAt u.rul.status.toNat 7 = bitAt s.rul.status.toNat 7 ∧
        fld 31 16 u.rul.status.toNat = fld 31 16 s.rul.status.toNat ∧ u.rul.overrunUnits = s.rul.overrunUnits) ∧
      (bitAt v.toNat 6 = true → bitAt u.rul.status.toNat 6 = false) ∧
      (bitAt v.toNat 6 = false → bitAt u.rul.status.toNat 6 = bitAt s.rul.status.toNat 6) ∧
      fld 5 3 u.rul.status.toNat = fld 5 3 s.rul.status.toNat ∧ fld 8 8 u.rul.status.toNat = fld 8 8 s.rul.status.toNat ∧
      u.rul.cfg = s.rul.cfg ∧ u.rul.tick = s.rul.tick ∧ u = { s with rul := u.rul }) ∧
  (∀ (s : State) a p, admitted s (fun a => actionClass a == 6) = some a → a.act = .periodChange p →
    exec .periodChange s = .next { s with rul := { s.rul with nextPeriod := some p }, actions := s.actions.erase a }) ∧
  (∀ s : State, s.clk.guard = false → exec .periodChange s = .next s) ∧
  (∀ s : State, s.rul.stepPend = true → s.rul.stepDue = true → ∃ t k, exec .rulTickStep s = .next (answerEdge t) ∧ t.rul.stepPend = false ∧
    t.rul.stepDue = false ∧ t.rul.tick = BitVec.ofNat 64 (k + b2n s.clk.guard) ∧
    t.rul.anchor = some (k, k * (period s * 10 / 19) + phaseNs s) ∧ t = { s with rul := t.rul, clk := t.clk, plans := t.plans } ∧
    (∀ n, plan? t n = (plan? s n).map fun p => if p.changed = nowTick s then { p with changed := k } else p) ∧ t.clk.cycle = s.clk.cycle ∧
    t.clk.edge = s.clk.edge ∧ t.rul.cfg = s.rul.cfg ∧ t.rul.status = s.rul.status) ∧
  (∀ s : State, (s.rul.stepPend = false ∨ s.rul.stepDue = false) → exec .rulTickStep s = .next s) ∧
  (∀ s : State, disciplined s = true → lockOf s = 1 → 16 ≤ s.rul.aligned → ∃ t, exec .rulLockLocked s = .next t ∧ lockOf t = 2 ∧
    t = { s with rul := { s.rul with status := t.rul.status } } ∧ ∀ k, k ≠ 4 → k ≠ 5 → bitAt t.rul.status.toNat k = bitAt s.rul.status.toNat k) ∧
  (∀ s : State, (disciplined s = false ∨ lockOf s ≠ 1 ∨ s.rul.aligned < 16) → exec .rulLockLocked s = .next s) ∧
  (∀ s : State, disciplined s = true → (lockOf s = 1 ∨ lockOf s = 2) → ∃ u, exec .ptpHoldover s =
      .next (emitErr ⟨1, 6, rulingUid, 0, 0, 0xff, false, false⟩ u) ∧ lockOf u = 3 ∧
      u.clk.cycle = max s.clk.cycle (s.ptp.lastUpdate + 3800000000) ∧ u = { s with rul := u.rul, clk := u.clk }) ∧
  (∀ (s : State) unit, unitOk unit = true → ∃ u, exec (.rulEdgeMiss unit) s = .next (emitErr ⟨1, 5, rulingUid, 0, 0, 0xff, true, true⟩ u) ∧
    (∀ e ∈ u.sched, ∀ r ∈ e.2.running, tasksUnit unit r.task = true → r.late = true ∧ r.task.missed = true) ∧
    (∀ e ∈ u.sched, ∀ t ∈ e.2.ready, tasksUnit unit t = true → t.missed = true) ∧
    u = { s with rul := u.rul, tickEvents := u.tickEvents, sched := u.sched, cells := u.cells, regHeld := u.regHeld, parked := u.parked }) ∧
  (∀ (s : State) unit, unitOk unit = false → exec (.rulEdgeMiss unit) s = .next s)

/-- A tick edge numbers and opens the next tick; a guard band opens 3,800 cycles before its closing edge and admits
actions within the limits of Table 2-6 (02_ruling.md). -/
def Obligations.TickEdgeAndGuardBand : Prop :=
  (∀ (s : State) ev, ∃ t, exec (.tickEdge ev) s = .next t ∧ t.rul.tick = (if s.clk.guard then s.rul.tick else s.rul.tick + 1) ∧ t.clk.guard = false ∧
    t.clk.edge = max s.clk.cycle (s.clk.edge + s.clk.len) ∧ t.clk.cycle = t.clk.edge ∧ t.rul.nextPeriod = none ∧
    t.rul.surveyTicks = s.rul.surveyTicks + 1 ∧ t.rul.stepDue = s.rul.stepPend ∧
    (∀ p, s.rul.nextPeriod = some p → p < 2 ^ 27 → period t = p) ∧ (s.rul.nextPeriod = none → t.rul.cfg = s.rul.cfg) ∧
    (disciplined t = false → t.clk.len = period t) ∧ t.tickEvents = [] ∧ (∀ a ∈ t.actions, a.done = false) ∧
    ((∀ a ∈ s.actions, a.done = false) → t.blot.blots = [] ∧ t.actions = s.actions ∧ t.streams = s.streams ∧ t.plans = s.plans)) ∧
  (∀ s : State, s.clk.guard = false → ∃ t, exec .guardBandOpen s = .next t ∧ t.clk.guard = true ∧
    t.clk.cycle = max s.clk.cycle (s.clk.edge + s.clk.len - 3800) ∧ t.clk.edge = s.clk.edge ∧ t.clk.len = s.clk.len ∧
    t.rul.tick = s.rul.tick + 1 ∧ nowTick t = s.rul.tick.toNat ∧ t.plans = s.plans ∧
    (s.halted = true → t.actions = s.actions) ∧
    (s.halted = false →
      (∀ a ∈ t.actions, ∃ b ∈ s.actions, b.act = a.act) ∧
      (t.actions.filter fun a => a.admitted && actionClass a.act == 6).length ≤ 1 ∧
      (t.actions.filter fun a => a.admitted && actionClass a.act == 4).length ≤ 1 ∧
      (t.actions.filter fun a => a.admitted && actionClass a.act == 1).length ≤ 16)) ∧
  (∀ s : State, s.clk.guard = true → exec .guardBandOpen s = .next s)

/-- TASK_SUBMIT offers margin tasks of an ACTIVE plan, all or none, and TASK_CANCEL takes a margin task off, never a
ruled one (02_ruling.md R77, 02_ruling.md R80, 02_ruling.md R81, 13_mailboxes.md R434, 13_mailboxes.md Table 13-10). -/
def Obligations.TaskCommands : Prop :=
  (∀ s r (slot level : Byte) (ligs : List (BitVec 32)) p, heard s r 0x0504 (alignUp (8 + 4 * ligs.length) 8) = true → slot.toNat < 64 → level.toNat ≤ 7 →
    ligs.length ≤ 880 → plan? s slot.toNat = some p → p.state = .active → p.resetting = false →
    (∀ l ∈ ligs, ∃ x, ligOf p l.toNat = some x ∧ x.ruled = false) →
    (∀ k, k < 48 → marginUsed (cluster s k) + entriesFor (ligs.filterMap fun l => ligTask s slot.toNat l.toNat
      (some (if level = 0 then p.image.marginLevel else level.toNat))) k ≤ 3584) →
    exec (.taskSubmit r slot level ligs) s = .next (answer r 0x0504 St.ok 0 []
      ((ligs.filterMap fun l => ligTask s slot.toNat l.toNat (some (if level = 0 then p.image.marginLevel else level.toNat))).foldl
        (fun s t => startMargin 11 t s) s))) ∧
  (∀ s r (slot level : Byte) (ligs : List (BitVec 32)), heard s r 0x0504 (alignUp (8 + 4 * ligs.length) 8) = true → slot.toNat < 64 → level.toNat ≤ 7 →
    ligs.length ≤ 880 → (∀ p, plan? s slot.toNat = some p → p.state ≠ .active ∨ p.resetting = true) →
    exec (.taskSubmit r slot level ligs) s = .next (answer r 0x0504 St.planState 0 [] s)) ∧
  (∀ s r (slot level : Byte) (ligs : List (BitVec 32)) p l x, heard s r 0x0504 (alignUp (8 + 4 * ligs.length) 8) = true → slot.toNat < 64 →
    level.toNat ≤ 7 → ligs.length ≤ 880 → plan? s slot.toNat = some p → p.state = .active → p.resetting = false →
    (∀ l ∈ ligs, (ligOf p l.toNat).isSome = true) → l ∈ ligs → ligOf p l.toNat = some x → x.ruled = true →
    exec (.taskSubmit r slot level ligs) s = .next (answer r 0x0504 St.taskState 0 [] s)) ∧
  (∀ s r (task : BitVec 32) k t, heard s r 0x0505 8 = true → findWaiting s task.toNat = some (k, t) →
    ∃ u, exec (.taskCancel r task) s = .next (answer r 0x0505 St.ok 0 (payload [.num 1 (if t.suspended.isSome then 1 else 0)]) (cancelStreams t u)) ∧
      t.ruled = false ∧ u = { s with sched := u.sched } ∧ (∀ j, j ≠ k → cluster u j = cluster s j) ∧
      (cluster u k).running = (cluster s k).running ∧ (cluster u k).scribe.seq = (cluster s k).scribe.seq + 1 ∧
      (t ∈ (cluster s k).ready → (cluster u k).ready = (cluster s k).ready.erase t)) ∧
  (∀ s r (task : BitVec 32) w t, heard s r 0x0505 8 = true → findWaiting s task.toNat = none → findCellWait s task.toNat = some (w, t) →
    ∃ u, exec (.taskCancel r task) s = .next (answer r 0x0505 St.ok 0 (payload [.num 1 0]) (cancelStreams t u)) ∧ t.ruled = false ∧
      (∀ e ∈ u.cells, w ∉ e.2.waiters) ∧ (∀ e ∈ u.regHeld, e.2 ≠ w) ∧ (∀ p ∈ u.parked, p.waiter ≠ w)) ∧
  (∀ s r (task : BitVec 32) k x, heard s r 0x0505 8 = true → findWaiting s task.toNat = none → findCellWait s task.toNat = none →
    findRunning s task.toNat = some (k, x) →
    (x.task.ruled = true → exec (.taskCancel r task) s = .next (answer r 0x0505 St.taskState 0 [] s)) ∧
    (x.task.ruled = false → ∃ u, exec (.taskCancel r task) s = .next (answer r 0x0505 St.ok 0 (payload [.num 1 1]) (cancelStreams x.task u)) ∧
      u = { s with sched := u.sched, nibs := u.nibs } ∧
      (x.task.core / 8 = k → (cluster u k).running = (cluster s k).running.erase x))) ∧
  (∀ s r (task : BitVec 32), heard s r 0x0505 8 = true → findWaiting s task.toNat = none → findCellWait s task.toNat = none →
    findRunning s task.toNat = none →
    exec (.taskCancel r task) s = .next (if knownMargin s task.toNat then answer r 0x0505 St.ok 0 (payload [.num 1 2]) s
      else answer r 0x0505 St.taskState 0 [] s)) ∧
  (∀ s (t : Task) p l st x, plan? s t.slot = some p → ligOf p t.lig = some l → st ∈ l.stages → st.engine = 6 →
    stream? s (t.slot, st.param) = some x → x.ruled = false → (x.state = .running ∨ x.state = .halted) →
    ∃ y, stream? (cancelStreams t s) (t.slot, st.param) = some y ∧ y.state = .cancelled)

/-- A ruled task is released at its offset, dispatched before lower levels, completed with its signal, and reported when
late but never stopped (02_ruling.md R53, 02_ruling.md R72, 02_ruling.md R76, 02_ruling.md R78, 02_ruling.md R80,
03_plans.md R96). -/
def Obligations.Scheduling : Prop :=
  (∀ (s : State) (slot : BitVec 6) (cert : BitVec 16) p c t l, plan? s slot.toNat = some p → p.image.certs[cert.toNat]? = some c → p.state ≠ .loaded → c.kind = 1 →
    p.retireBands = 0 → ruledTask s slot.toNat c = some t → ligOf p c.index = some l → l.ruled = true → taskWait s t = none →
    holders (advanceTo t.release s) t.core (ligUnits l) = [] → ruledUsed (cluster s (t.core / 8)) < 512 → (cluster s (t.core / 8)).releaseWait = [] →
    ∃ u x, exec (.ruledRelease slot cert) s = .next (noteReserves u) ∧
      (cluster u (t.core / 8)).ready = (cluster s (t.core / 8)).ready ++ [x] ∧
      x.id = slot.toNat * 2 ^ 24 + c.index ∧ x.ruled = true ∧ x.level = 0 ∧ x.release = s.clk.edge + c.release ∧ x.deadline = s.clk.edge + c.release + c.claim ∧
      x.ready = insertSlot (cluster s (t.core / 8)) u.clk.cycle ∧ u.clk.cycle = max s.clk.cycle (s.clk.edge + c.release) ∧
      u = { s with sched := u.sched, clk := u.clk } ∧ (∀ j, j ≠ t.core / 8 → cluster u j = cluster s j)) ∧
  (∀ (s : State) (slot : BitVec 6) (cert : BitVec 16) p c t l, plan? s slot.toNat = some p → p.image.certs[cert.toNat]? = some c → p.state ≠ .loaded → c.kind = 1 →
    p.retireBands = 0 → ruledTask s slot.toNat c = some t → ligOf p c.index = some l → l.ruled = true → taskWait s t = none →
    holders (advanceTo t.release s) t.core (ligUnits l) = [] →
    (512 ≤ ruledUsed (cluster s (t.core / 8)) ∨ (cluster s (t.core / 8)).releaseWait ≠ []) →
    ∃ u, exec (.ruledRelease slot cert) s = .next (noteReserves u) ∧ (cluster u (t.core / 8)).ready = (cluster s (t.core / 8)).ready ∧
      (cluster u (t.core / 8)).releaseWait = (cluster s (t.core / 8)).releaseWait ++ [t] ∧ u = { s with sched := u.sched, clk := u.clk }) ∧
  (∀ (s : State) (slot : BitVec 6) (cert : BitVec 16), (∀ p c, plan? s slot.toNat = some p → p.image.certs[cert.toNat]? = some c →
      p.state = .loaded ∨ c.kind = 3 ∨ c.kind ≠ 2 ∧ p.retireBands ≠ 0) → exec (.ruledRelease slot cert) s = .next s) ∧
  (∀ (s : State) (k : BitVec 6) (core : BitVec 3) t, k.toNat < 48 → (cluster s k.toNat).off = false → (cluster s k.toNat).releaseWait = [] →
    t ∈ (cluster s k.toNat).ready → eligible s (cluster s k.toNat) (k.toNat * 8 + core.toNat) t = true → t.ready ≤ s.clk.cycle → (cluster s k.toNat).nextGrant ≤ s.clk.cycle →
    ∃ u x g, exec (.dispatch k core) s = .next u ∧ x ∈ (cluster s k.toNat).ready ∧
      eligible s (cluster s k.toNat) (k.toNat * 8 + core.toNat) x = true ∧ x.ready ≤ s.clk.cycle ∧ before t x = false ∧
      (cluster u k.toNat).ready = (cluster s k.toNat).ready.erase x ∧ (cluster u k.toNat).running = (cluster s k.toNat).running ++ [g] ∧
      g.task = { x with suspended := none, begun := some (x.begun.getD s.clk.cycle) } ∧ g.started = x.begun.getD s.clk.cycle ∧
      g.since = s.clk.cycle ∧ g.engines = taskUnits s x ∧ (cluster u k.toNat).nextGrant = s.clk.cycle + 1 ∧
      (∀ j, j ≠ k.toNat → cluster u j = cluster s j) ∧ u.mem = s.mem ∧ u.cells = s.cells ∧ u.clk = s.clk) ∧
  (∀ (s : State) (k : BitVec 6) (core : BitVec 3), k.toNat < 48 → (cluster s k.toNat).off = false →
    (∃ t ∈ (cluster s k.toNat).ready, eligible s (cluster s k.toNat) (k.toNat * 8 + core.toNat) t = true) →
    (∀ t ∈ (cluster s k.toNat).ready, eligible s (cluster s k.toNat) (k.toNat * 8 + core.toNat) t = true → s.clk.cycle < t.ready) →
    ∃ u t, exec (.dispatch k core) s = .next u ∧ t ∈ (cluster s k.toNat).ready ∧
      eligible s (cluster s k.toNat) (k.toNat * 8 + core.toNat) t = true ∧ u.clk.cycle = max t.ready (cluster s k.toNat).nextGrant ∧
      ∀ x ∈ (cluster s k.toNat).ready, eligible s (cluster s k.toNat) (k.toNat * 8 + core.toNat) x = true → t.ready ≤ x.ready) ∧
  (∀ (s : State) (k : BitVec 6) (core : BitVec 3), k.toNat < 48 → (cluster s k.toNat).off = false →
    (∀ t ∈ (cluster s k.toNat).ready, eligible s (cluster s k.toNat) (k.toNat * 8 + core.toNat) t = false) →
    ∃ u, exec (.dispatch k core) s = .next u ∧ (k.toNat * 8 + core.toNat) ∈ (cluster u k.toNat).idle ∧ (cluster u k.toNat).ready = (cluster s k.toNat).ready ∧
      (cluster u k.toNat).running = (cluster s k.toNat).running ∧ u = { s with sched := u.sched }) ∧
  (∀ (s : State) (k : BitVec 6) h, marginUsed (cluster s k.toNat) < 3584 → h ∈ (cluster s k.toNat).held → (∀ g ∈ (cluster s k.toNat).held, g.task.core / 8 = k.toNat) →
    ∃ u g x, exec (.heldEventOffered k) s = .next u ∧ g ∈ (cluster s k.toNat).held ∧ (∀ f ∈ (cluster s k.toNat).held, g.source ≤ f.source) ∧
      (cluster u k.toNat).held = (cluster s k.toNat).held.erase g ∧ (cluster u k.toNat).ready = (cluster s k.toNat).ready ++ [x] ∧
      x = (if g.task.suspended.isSome then g.task else { g.task with ready := insertSlot (cluster s k.toNat) s.clk.cycle }) ∧
      u = { s with sched := u.sched }) ∧
  (∀ (s : State) (k : BitVec 6), (3584 ≤ marginUsed (cluster s k.toNat) ∨ (cluster s k.toNat).held = []) →
    exec (.heldEventOffered k) s = .next s) ∧
  (∀ (s : State) (task : BitVec 32) k g p l, findRunning s task.toNat = some (k, g) → g.task.core / 8 = k → plan? s g.task.slot = some p → ligOf p g.task.lig = some l →
    (ligatureDone s l g = true → ∃ u, exec (.ligatureComplete task) s = .next (planAdd g.task.slot l.sigDone (overrunEnd g.task u)) ∧
      (cluster u k).running = (cluster s k).running.erase g ∧ (cluster u k).ready = (cluster s k).ready ∧ u = { s with sched := u.sched } ∧
      (g.task.overrun = false → overrunEnd g.task u = u) ∧
      (g.task.overrun = true → overrunEnd g.task u =
        emitErr ⟨1, 2, g.task.lateUnit, g.task.id, s.clk.cycle - g.task.deadline, g.task.slot, false, false⟩ u)) ∧
    (ligatureDone s l g = false → exec (.ligatureComplete task) s = .next s)) ∧
  (∀ (s : State) (task : BitVec 32), findRunning s task.toNat = none → exec (.ligatureComplete task) s = .next s) ∧
  (∀ (s : State) (task : BitVec 32) unit t, (ruledOpen s).find? (fun t => t.id == task.toNat) = some t →
    (t.overrun = false → ∃ u, exec (.rulOverrun task unit) s = .next (emitErr ⟨1, 1, unit, t.id, 0, t.slot, false, false⟩ u) ∧
      bitAt u.rul.status.toNat 7 = true ∧ fld 31 16 u.rul.status.toNat = min (fld 31 16 s.rul.status.toNat + 1) 65535 ∧
      u.rul.overrunUnits = s.rul.overrunUnits ++ [unit] ∧ u.clk.cycle = max s.clk.cycle t.deadline ∧
      (∀ x ∈ ruledOpen u, x.id = t.id → x.overrun = true ∧ x.lateUnit = unit) ∧
      (∀ j, (cluster u j).ready.map (·.id) = (cluster s j).ready.map (·.id) ∧
        (cluster u j).running.map (·.task.id) = (cluster s j).running.map (·.task.id)) ∧ u.mem = s.mem ∧ u.plans = s.plans ∧ u.streams = s.streams) ∧
    (t.overrun = true → exec (.rulOverrun task unit) s = .next s)) ∧
  (∀ (s : State) (task : BitVec 32) unit k x due, (ruledOpen s).find? (fun t => t.id == task.toNat) = none → lateStream s unit task.toNat = some (k, x, due) →
    ∃ u, exec (.rulOverrun task unit) s = .next (emitErr ⟨1, 1, unit, task.toNat, 0, k.1, false, false⟩ u) ∧
      stream? u k = some { x with overrun := some (task.toNat, due) } ∧ (∀ j, j ≠ k → stream? u j = stream? s j) ∧
      bitAt u.rul.status.toNat 7 = true ∧ u.rul.overrunUnits = s.rul.overrunUnits ++ [unit] ∧ u.clk.cycle = max s.clk.cycle due ∧
      u = { s with clk := u.clk, rul := u.rul, streams := u.streams }) ∧
  (∀ (s : State) (task : BitVec 32) unit x, (ruledOpen s).find? (fun t => t.id == task.toNat) = none → lateStream s unit task.toNat = none →
    lateShared s unit task.toNat = some x → ∃ u, exec (.rulOverrun task unit) s = .next (emitErr ⟨1, 1, unit, task.toNat, 0, x.slot, false, false⟩ u) ∧
      { x with overrun := some task.toNat } ∈ u.rul.shared ∧ u.rul.shared.length = s.rul.shared.length ∧
      bitAt u.rul.status.toNat 7 = true ∧ u.rul.overrunUnits = s.rul.overrunUnits ++ [unit] ∧ u.clk.cycle = max s.clk.cycle x.deadline ∧
      u = { s with clk := u.clk, rul := u.rul }) ∧
  (∀ (s : State) (task : BitVec 32) unit, (ruledOpen s).find? (fun t => t.id == task.toNat) = none → lateStream s unit task.toNat = none →
    lateShared s unit task.toNat = none → exec (.rulOverrun task unit) s = .next s)

/-- TRACE_SET sets a cluster's ring where its store has room and is refused FIT where not; TRACE_READ answers the records
from a sequence number on (02_ruling.md, 13_mailboxes.md). -/
def Obligations.TraceCommands : Prop :=
  (∀ s r (die cl mode : Byte) (bytes : BitVec 32) k b, heard s r 0x0506 8 = true → die.toNat ≤ 3 → cl.toNat ≤ 11 → mode.toNat ≤ 1 →
    k = die.toNat * 12 + cl.toNat → (cluster s k).off = false → bytes.toNat ∈ [65536, 131072, 262144, 524288, 1048576, 2097152, 4194304] →
    (bytes.toNat : Int) ≤ storeLeft s (heldBounds s 0xff) k + (cluster s k).scribe.bytes →
    b = { (cluster s k).scribe with bytes := bytes.toNat, stop := mode.toNat == 1 } →
    exec (.traceSet r die cl mode 0 bytes) s = .next (answer r 0x0506 St.ok 0 []
      (setCluster k { cluster s k with scribe := { b with recs := b.recs.take (bytes.toNat / 32) } } s)) ∧
    (b.unwritten = 0 → exec (.traceSet r die cl mode 1 bytes) s = .next (answer r 0x0506 St.ok 0 []
      (setCluster k { cluster s k with scribe := { b with recs := [], unwritten := 0 } } s))) ∧
    (b.unwritten ≠ 0 → exec (.traceSet r die cl mode 1 bytes) s = .next (answer r 0x0506 St.ok 0 []
      (emitErr { cls := 1, code := 7, unit := clusterUid k 13, pos := 0, count := b.unwritten.toNat, plan := 0xff, named := false, test := false }
        (setCluster k { cluster s k with scribe := { b with recs := [], unwritten := 0 } } s))))) ∧
  (∀ s r (die cl mode rearm : Byte) (bytes : BitVec 32) k left, heard s r 0x0506 8 = true → die.toNat ≤ 3 → cl.toNat ≤ 11 → mode.toNat ≤ 1 → rearm.toNat ≤ 1 →
    k = die.toNat * 12 + cl.toNat → (cluster s k).off = false → bytes.toNat ∈ [65536, 131072, 262144, 524288, 1048576, 2097152, 4194304] →
    left = storeLeft s (heldBounds s 0xff) k + (cluster s k).scribe.bytes → left < (bytes.toNat : Int) →
    exec (.traceSet r die cl mode rearm bytes) s = .next (answer r 0x0506 St.fit (1 + 2 ^ 32) []
      { s with fitReport := some (fitReport 0 (period s) [shortfall 0xff 3 1 left.toNat bytes.toNat (clusterUid k 10).toNat 0xffff]) })) ∧
  (∀ (s : State) k (c : Cluster), cluster (setCluster k c s) k = c ∧ (∀ j, j ≠ k → cluster (setCluster k c s) j = cluster s j) ∧
    setCluster k c s = { s with sched := (setCluster k c s).sched }) ∧
  (∀ s r (die cl : Byte) (first : BitVec 32) k b now, heard s r 0x0507 8 = true → die.toNat ≤ 3 → cl.toNat ≤ 11 → k = die.toNat * 12 + cl.toNat →
    (cluster s k).off = false → b = (cluster s k).scribe → now = b.recs.reverse.filter (fun x => decide (x.toNat % 2 ^ 64 ≤ s.clk.cycle - s.clk.scrBase)) →
    ∃ (next : Nat) (xs : List (BitVec 256)),
      xs = (now.filter fun x => decide ((x.toNat / 2 ^ 64 % 2 ^ 32 + 2 ^ 32 - first.toNat) % 2 ^ 32 < 2 ^ 31)).take 110 ∧
      (xs = [] → next = (b.seq.toNat + 2 ^ 32 - (b.recs.length - now.length)) % 2 ^ 32) ∧
      (∀ x, xs.getLast? = some x → next = (x.toNat / 2 ^ 64 % 2 ^ 32 + 1) % 2 ^ 32) ∧
      exec (.traceRead r die cl first) s = .next (answer r 0x0507 St.ok 0 (payload [.num 4 next, .num 4 xs.length, .elems (xs.map fun x => le 32 x.toNat)]) s))

/-- Units are excluded at the tick edge after every plan has left them, included again at once, and parked waits resume
or end (11_queues_signals.md R378, 15_errors.md R482, 15_errors.md R483, 15_errors.md R484, 13_mailboxes.md Table
13-12). -/
def Obligations.UnitAndWaitCommands : Prop :=
  (∀ s r (us : List (BitVec 16)), heardP s r 0x0704 (alignUp (8 + 2 * us.length) 8) = true → us.length ≤ 64 →
    (∀ u ∈ us, unitOk u = true ∧ deviceLevel u = false ∧ (uidCluster u < 12 && (cluster s (uidClusterIndex u)).off) = false) →
    (∀ e ∈ s.plans, ∀ p, plan? s e.1 = some p → removedIds s us p = []) → fitCheck { s with excluded := s.excluded ++ us } [] (checkPeriods s) = none →
    exec (.unitExclude r us) s = .next (acceptCmd r 0x0704 (.exclude us) [] { s with exclusions := s.exclusions ++ [us] })) ∧
  (∀ (s : State) unit us, s.clk.cycle = s.clk.edge → s.rul.stepDue = false → us ∈ s.exclusions → unit ∈ us → unit ∉ s.excluded →
    (∀ e ∈ s.plans, ∀ b ∈ e.2.bound, onUnit s [unit] b = false) →
    ∃ u, exec (.unitExcluded unit) s = .next (finishExclusions (emitErr ⟨10, 5, unit, nowTick s, 0, 0xff, false, false⟩ u)) ∧
      u.excluded = s.excluded ++ [unit] ∧ u = { s with excluded := u.excluded, tests := u.tests } ∧
      (∀ t ∈ u.tests, t ∈ s.tests ∧ (t.host = true ∨ covers unit t.unit = false))) ∧
  (∀ (s : State) unit, (s.clk.cycle ≠ s.clk.edge ∨ s.rul.stepDue = true ∨ (∀ us ∈ s.exclusions, unit ∉ us) ∨ unit ∈ s.excluded ∨
    ∃ e ∈ s.plans, ∃ b ∈ e.2.bound, onUnit s [unit] b = true) → exec (.unitExcluded unit) s = .next s) ∧
  (∀ s r (us : List (BitVec 16)), heard s r 0x0705 (alignUp (8 + 2 * us.length) 8) = true → us.length ≤ 64 →
    (∀ u ∈ us, unitOk u = true ∧ deviceLevel u = false ∧ (uidCluster u < 12 && (cluster s (uidClusterIndex u)).off) = false) →
    ∃ u, exec (.unitInclude r us) s = .next (answer r 0x0705 St.ok 0 [] u) ∧ u = { s with excluded := u.excluded } ∧
      ∀ x, x ∈ u.excluded ↔ x ∈ s.excluded ∧ ∀ y ∈ us, covers x y = false ∧ covers y x = false) ∧
  (∀ s r unit (object : Byte) num p, object.toNat ≤ 1 → (object = 0 → num.toNat < 16384) → unitOk unit = true →
    (uidCluster unit < 12 && (cluster s (uidClusterIndex unit)).off) = false →
    s.parked.find? (fun p => p.waiter.unit == unit && p.queue == (object.toNat == 1) && p.num == num.toNat) = some p →
    (heard s r 0x0706 8 = true → p.queue = true → ∃ u, exec (.waitResume r unit object num) s =
        .next (answer r 0x0706 St.ok 0 [] (wakeQueue num.toNat u)) ∧ u = { s with parked := s.parked.erase p, queueWaits := u.queueWaits } ∧
      (∃ e ∈ u.queueWaits, e.1 = num.toNat ∧ e.2.unit = unit ∧ e.2.what = p.waiter.what) ∧
      ((∀ e ∈ s.queueWaits, e.1 ≠ num.toNat) → u.queueWaits = s.queueWaits ++ [(num.toNat, { p.waiter with since := s.clk.cycle })])) ∧
    (heard s r 0x0706 8 = true → p.queue = false → exec (.waitResume r unit object num) s = .next (answer r 0x0706 St.ok 0 []
      (waitOn num.toNat { p.waiter with since := s.clk.cycle } { s with parked := s.parked.erase p }))) ∧
    (heard s r 0x0707 8 = true → ∀ t, p.waiter.what = .task t → ∃ u, (t.ruled = true → exec (.waitAbort r unit object num) s =
        .next (answer r 0x0707 St.ok 0 [] u)) ∧ (t.ruled = false → exec (.waitAbort r unit object num) s =
        .next (answer r 0x0707 St.ok 0 [] (cancelStreams t u))) ∧ u = { s with parked := s.parked.erase p, sched := u.sched } ∧
      (cluster u (t.core / 8)).scribe.seq = (cluster s (t.core / 8)).scribe.seq + 1 ∧
      (cluster u (t.core / 8)).ready = (cluster s (t.core / 8)).ready) ∧
    (heard s r 0x0707 8 = true → ∀ slot i, p.waiter.what = .stream slot i → ∃ u, exec (.waitAbort r unit object num) s =
        .next (answer r 0x0707 St.ok 0 [] u) ∧ (∀ w ∈ u.parked, w ∈ s.parked.erase p) ∧ u.plans = s.plans ∧ u.mem = s.mem ∧
      ∀ x, stream? s (slot, i) = some x → ∃ y, stream? u (slot, i) = some y ∧ y.state = .cancelled)) ∧
  (∀ s r unit (object : Byte) num, object.toNat ≤ 1 → (object = 0 → num.toNat < 16384) → unitOk unit = true →
    (uidCluster unit < 12 && (cluster s (uidClusterIndex unit)).off) = false →
    s.parked.find? (fun p => p.waiter.unit == unit && p.queue == (object.toNat == 1) && p.num == num.toNat) = none →
    (heard s r 0x0706 8 = true → exec (.waitResume r unit object num) s = .next (answer r 0x0706 St.waitState 0 [] s)) ∧
    (heard s r 0x0707 8 = true → exec (.waitAbort r unit object num) s = .next (answer r 0x0707 St.waitState 0 [] s)))

/-- ATTEST signs a report, KEYSLOT_OPEN keeps an open pending, SESSION_REKEY stands new keys beside the old, and each
ends in its time (14_security.md R445, 14_security.md R454, 14_security.md R456, 14_security.md R463, 14_security.md
Table 14-5, 13_mailboxes.md Table 13-11). -/
def Obligations.KeySlotCommands : Prop :=
  (∀ s r (nonce : Bytes), heard s r 0x0601 32 = true → s.sec.latched = false → nonce.length = 32 → ∃ w ed ml,
    exec (.attest r nonce) s = .next (answer r 0x0601 St.ok 0 (payload [.arr (le 176 w ++ ed ++ ml)])
      { s with sec := { s.sec with arCounter := s.sec.arCounter + 1 }, freeCtr := s.freeCtr + 1 }) ∧
    fld 31 0 w = 0x5254414b ∧ fld 127 64 w = s.sec.fuses.serial.toNat ∧ fld 319 256 w = (s.sec.arCounter + 1).toNat ∧
    fld 703 320 w = ofLe (mrDigest s) % 2 ^ 384 ∧ fld 1087 704 w = ofLe (nonce ++ zeros 16) % 2 ^ 384 ∧ ed.length = 64 ∧ List.length ml = 3309) ∧
  (∀ s r (nonce : Bytes), heard s r 0x0601 32 = true → s.sec.latched = true → exec (.attest r nonce) s = .next (answer r 0x0601 St.powerState 0 [] s)) ∧
  (∀ s r (slot : BitVec 16) (kind : Byte) (peer : BitVec 16) material, heardP s r 0x0603 (if kind.toNat = 0 then 2040 else 40) = true → kind.toNat ≤ 1 →
    peer.toNat ≤ 1023 → 1 ≤ slot.toNat → slot.toNat ≤ 4095 → keySlot s slot.toNat = none → openOf s slot.toNat = none →
    (kind = 0 → peer.toNat ≠ s.deviceNumber.toNat ∧ Config.keysWellFormed (material.take 32) (slice material 32 1952) = true) →
    ∃ u o ticket, exec (.keyslotOpen r slot kind peer material) s = .next (acceptCmd r 0x0603 (.keyslot slot.toNat)
        (payload [.arr ticket, .num 1 (if kind = 0 ∧ s.deviceNumber.toNat < peer.toNat then 0 else 1)]) u) ∧
      u.sec.opens = s.sec.opens ++ [o] ∧ o.num = slot.toNat ∧ o.client = (kind != 0) ∧ o.peer = peer.toNat ∧ o.ticket = ticket ∧
      o.since = s.clk.cycle ∧ ticket.length = 32 ∧ (kind = 0 → ticket = zeros 32) ∧ u.sec.slots = s.sec.slots ∧
      (kind = 0 ∧ s.deviceNumber.toNat < peer.toNat ∧ s.sec.trngOk = true ∧ s.sec.handshakes.length < 64 →
        ∃ h, u.sec.handshakes = s.sec.handshakes ++ [h] ∧ h.slot = slot.toNat ∧ h.initiator = true ∧ h.peer = peer.toNat ∧ h.state = 0) ∧
      (kind = 1 ∨ peer.toNat < s.deviceNumber.toNat ∨ s.sec.trngOk = false ∨ 64 ≤ s.sec.handshakes.length → u.sec.handshakes = s.sec.handshakes ∧ u.ports = s.ports)) ∧
  (∀ s r (slot : BitVec 16) (kind : Byte) (peer : BitVec 16) material, heardP s r 0x0603 (if kind.toNat = 0 then 2040 else 40) = true → kind.toNat ≤ 1 →
    peer.toNat ≤ 1023 → (slot = 0 ∨ 4095 < slot.toNat ∨ (keySlot s slot.toNat).isSome = true ∨ (openOf s slot.toNat).isSome = true) →
    exec (.keyslotOpen r slot kind peer material) s = .next (answer r 0x0603 St.keySlot 0 [] s)) ∧
  (∀ s r (material : Bytes) k, heardP s r 0x0605 1248 = true → keySlot s 0 = some k → k.next = none → s.sec.trngOk = true →
    Config.mlkemCheck (slice material 64 1184) = true → (∀ priv, fit 32 (Config.x25519 priv (slice material 32 32)) ≠ zeros 32) →
    ∃ u body n, exec (.sessionRekey r material) s = .next (acceptCmd r 0x0605 .rekey body u) ∧ keySlot u 0 = some { k with next := some n } ∧
      n.2.2 = s.clk.cycle ∧ (∀ j, j ≠ 0 → keySlot u j = keySlot s j) ∧ u = { s with sec := { s.sec with slots := u.sec.slots }, freeCtr := s.freeCtr + 3 }) ∧
  (∀ s r (material : Bytes), heardP s r 0x0605 1248 = true → keySlot s 0 = none →
    exec (.sessionRekey r material) s = .next (answer r 0x0605 St.keySlot 0 [] s)) ∧
  (∀ (s : State) (slot : BitVec 16) o, openOf s slot.toNat = some o → ∃ u, exec (.keyslotOpenTimeout slot) s =
      .next (finalAnswer (fun k => k == .keyslot slot.toNat) St.keySlot 1 [] u) ∧ openOf u slot.toNat = none ∧
      (∀ h ∈ u.sec.handshakes, h.slot ≠ slot.toNat) ∧ u.clk.cycle = max s.clk.cycle (o.since + 19000000000) ∧ u.sec.slots = s.sec.slots) ∧
  (∀ (s : State) k n, keySlot s 0 = some k → k.next = some n → ∃ u, exec .rekeyTimeout s =
      .next (finalAnswer (fun k => k == .rekey) St.keySlot 1 [] u) ∧ keySlot u 0 = some { k with next := none } ∧
      u.clk.cycle = max s.clk.cycle (n.2.2 + 19000000000)) ∧
  (∀ s : State, (keySlot s 0).bind (·.next) = none → exec .rekeyTimeout s = .next s)

/-- KEYSLOT_CLOSE wipes a slot; SESSION_END and an accepted debug token answer first and leave no plan, key slot, stream
or memory (14_security.md R457, 12_ports.md R396, 12_ports.md Table 12-12, 13_mailboxes.md Table 13-11, 14_security.md
R458, 14_security.md R462, 14_security.md R463, 14_security.md R464, 14_security.md Table 14-9, 13_mailboxes.md R430).
-/
def Obligations.KeySlotsAndSessionEnd : Prop :=
  (∀ s r (slot : BitVec 16), heard s r 0x0604 8 = true → (slot = 0 ∨ 4095 < slot.toNat) → exec (.keyslotClose r slot) s = .next (answer r 0x0604 St.keySlot 0 [] s)) ∧
  (∀ s r (slot : BitVec 16) k, heard s r 0x0604 8 = true → 1 ≤ slot.toNat → slot.toNat ≤ 4095 → openOf s slot.toNat = none → keySlot s slot.toNat = some k →
    ∃ u, exec (.keyslotClose r slot) s = .next (answer r 0x0604 St.ok 0 [] u) ∧ keySlot u slot.toNat = none ∧
      (∀ j, j ≠ slot.toNat → keySlot u j = keySlot s j) ∧ (∀ c ∈ u.counters, c.slot ≠ slot.toNat) ∧ (∀ w ∈ u.windows, w.slot ≠ slot.toNat) ∧
      (∀ e ∈ u.ports, ∀ f ∈ e.2.out, ∀ h pl, f.body = .kit h pl → h.keyId.toNat ≠ slot.toNat) ∧
      u = { s with sec := { s.sec with slots := u.sec.slots }, counters := u.counters, windows := u.windows, ports := u.ports }) ∧
  (∀ s r (slot : BitVec 16) o, heard s r 0x0604 8 = true → 1 ≤ slot.toNat → slot.toNat ≤ 4095 → openOf s slot.toNat = some o →
    ∃ u, exec (.keyslotClose r slot) s = .next (answer r 0x0604 St.ok 0 [] (finalAnswer (fun k => k == .keyslot slot.toNat) St.abandoned 0 [] u)) ∧
      openOf u slot.toNat = none ∧ u.sec.slots = s.sec.slots ∧
      (∀ h, s.sec.handshakes.find? (fun h => h.slot == slot.toNat) = some h → u.sec.handshakes = s.sec.handshakes.filter fun x => x.id != h.id)) ∧
  (∀ (s : State) p kind, portCarries s p.port.toNat = true → p.header.kind.toNat = kind → kitFormOk p kind = true → p.header.dstDev = s.deviceNumber →
    p.header.extDst = false → keySlot s p.header.keyId.toNat = none → receiveKit p kind s = (none, drop p.port.toNat 9 s)) ∧
  (∀ (s : State) p f h pl, f.body = .kit h pl → h.keyId ≠ 0xffff#16 → keySlot s h.keyId.toNat = none → emitFrame p f s = s) ∧
  (∀ s r, heard s r 0x0606 0 = true → ∃ t, exec (.sessionEnd r) s = .next t ∧ t.plans = [] ∧ t.sec.slots = [] ∧ t.sec.opens = [] ∧
    t.sec.handshakes = [] ∧ t.allocs = [] ∧ t.streams = [] ∧ t.tx = [] ∧ t.rx = [] ∧ t.neighbours = [] ∧ t.deviceNumber = 0 ∧ t.cells = [] ∧
    t.sec.keyEpoch = s.sec.keyEpoch + 1 ∧ t.sec.mr3Events = 0 ∧ t.sec.mr3Log = [] ∧ t.sec.scrub.isSome = true ∧ t.mem = [] ∧
    t.blot.ring = none ∧ t.blot.notice = none ∧ t.sec.latched = s.sec.latched ∧ t.sec.fuses = s.sec.fuses ∧
    (∀ e ∈ t.mboxes, e.2.pend = [] ∧ e.2.outbox = [])) ∧
  (∀ s r (token : Bytes), heard s r 0x0607 3440 = true → tokenOk s token = true → ∃ t, exec (.debugUnlock r token) s = .next t ∧ t.plans = [] ∧
    t.sec.slots = [] ∧ t.sec.opens = [] ∧ t.allocs = [] ∧ t.streams = [] ∧ t.sec.keyEpoch = s.sec.keyEpoch + 1 ∧ t.sec.latched = true ∧
    t.sec.scope = BitVec.ofNat 16 (leAt token 6 2) ∧ t.sec.mr3Events = 1 ∧ t.sec.mr3Log = [(0x31#32, sha384 token)] ∧ t.boot.debug = true ∧
    t.sec.debugNonce = BitVec.ofNat 64 (ofLe (randomBytes 8 s))) ∧
  (∀ s r (token : Bytes), heard s r 0x0607 3440 = true → tokenOk s token = false → ∃ u, exec (.debugUnlock r token) s =
      .next (answer r 0x0607 St.tokenInvalid 0 [] u) ∧ u.sec.debugNonce = BitVec.ofNat 64 (ofLe (randomBytes 8 s)) ∧
      u = { s with sec := { s.sec with debugNonce := u.sec.debugNonce }, freeCtr := s.freeCtr + 1 }) ∧
  (∀ s : State, exec .scrubComplete s = .next { s with sec := { s.sec with scrub := none } }) ∧
  (∀ s : State, exec (.secTrngHealth true) s = .next { s with sec := { s.sec with trngOk := true } } ∧
    (s.sec.trngOk = false → exec (.secTrngHealth false) s = .next s) ∧
    (s.sec.trngOk = true → exec (.secTrngHealth false) s = .next
      (emitErr ⟨7, 4, sealUid, 0, 0, 0xff, false, false⟩ { s with sec := { s.sec with trngOk := false } })))

/-- ID_REQ is answered once a millisecond, HELLO by REPLY or ABORT, a good FINISH by CONFIRM with the keys loaded, a bad
one by ABORT (14_security.md R446, 14_security.md R448, 14_security.md R449, 14_security.md R452, 14_security.md R454,
14_security.md R455, 14_security.md Table 14-8). -/
def Obligations.HandshakeAnswers : Prop :=
  (∀ (s u : State) p f, receiveHs p 1 s = (some f, u) → (∀ t, (port u p.port.toNat).idAt = some t → t + 1900000 ≤ u.clk.cycle) →
    ∃ t, exec (.idReq p) s = .next t ∧ (port t p.port.toNat).idAt = some u.clk.cycle ∧
      (port u p.port.toNat).out.length < (port t p.port.toNat).out.length ∧ t = { u with ports := t.ports }) ∧
  (∀ (s u : State) p f t, receiveHs p 1 s = (some f, u) → (port u p.port.toNat).idAt = some t → u.clk.cycle < t + 1900000 → exec (.idReq p) s = .next u) ∧
  (∀ (s u v : State) p f b h, receiveHs p 3 s = (some f, u) → reassemble f u = (some b, v) →
    v.sec.handshakes.find? (fun h => h.id == f.id && !h.initiator) = some h → ∃ t, exec (.hello p) s = .next t ∧
      t = { v with ports := t.ports } ∧ (port v h.port).out.length < (port t h.port).out.length) ∧
  (∀ (s u v : State) p f b reason, receiveHs p 3 s = (some f, u) → reassemble f u = (some b, v) →
    v.sec.handshakes.find? (fun h => h.id == f.id && !h.initiator) = none → helloRefused v p f b = some reason → ∃ t, exec (.hello p) s = .next t ∧
      t = { v with ports := t.ports, tickEvents := t.tickEvents } ∧ (port v p.port.toNat).out.length < (port t p.port.toNat).out.length) ∧
  (∀ (s u v : State) p f b, receiveHs p 3 s = (some f, u) → reassemble f u = (some b, v) →
    v.sec.handshakes.find? (fun h => h.id == f.id && !h.initiator) = none → helloRefused v p f b = none → helloBusy v p (helloSlot b) = false →
    Config.mlkemCheck (slice b 104 1184) = true → (∀ priv, fit 32 (Config.x25519 priv (slice b 72 32)) ≠ zeros 32) →
    ∃ t h, exec (.hello p) s = .next t ∧ t.sec.handshakes = v.sec.handshakes ++ [h] ∧ h.id = f.id ∧ h.slot = helloSlot b ∧ h.initiator = false ∧
      h.hello = b ∧ h.thr = thR b h.reply ∧ h.state = 1 ∧ h.since = v.clk.cycle ∧ t.sec.slots = v.sec.slots ∧ t.sec.arCounter = v.sec.arCounter + 1) ∧
  (∀ (s u v : State) p f b h, receiveHs p 5 s = (some f, u) → reassemble f u = (some b, v) →
    v.sec.handshakes.find? (fun h => h.id == f.id && !h.initiator) = some h → b.length = (if h.client then 48 else 3597) → b.take 48 = finishMac h b →
    (h.client = false → ∃ o, openOf v h.slot = some o ∧ reportOk o (b.drop 48) h.thr = true) →
    ∃ w k, exec (.finish p) s = .next (finalAnswer (fun k => k == .keyslot h.slot) St.ok 0 [] w) ∧ keySlot w h.slot = some k ∧ k.client = h.client ∧
      k.peer = h.peer ∧ k.next = none ∧ k.keys.rxKey = slotKey h.prk "KIT v1 i2r key" h.thr 32 ∧ k.keys.txKey = slotKey h.prk "KIT v1 r2i key" h.thr 32 ∧
      openOf w h.slot = none ∧ (∀ x ∈ w.sec.handshakes, x.id ≠ h.id) ∧ (∀ c ∈ w.counters, c.slot ≠ h.slot) ∧ (∀ x ∈ w.windows, x.slot ≠ h.slot) ∧
      (∀ j, j ≠ h.slot → keySlot w j = keySlot v j)) ∧
  (∀ (s u v : State) p f b h, receiveHs p 5 s = (some f, u) → reassemble f u = (some b, v) →
    v.sec.handshakes.find? (fun h => h.id == f.id && !h.initiator) = some h → b.length = (if h.client then 48 else 3597) → b.take 48 ≠ finishMac h b →
    ∃ w, exec (.finish p) s = .next (finalAnswer (fun k => k == .keyslot h.slot) St.keySlot 2 [] w) ∧ w.sec.slots = v.sec.slots ∧
      openOf w h.slot = none ∧ ∀ x ∈ w.sec.handshakes, x.id ≠ h.id)

/-- REPLY is answered by FINISH, CONFIRM loads the peer slot, ABORT and the timeouts end a handshake, and HELLO repeats
every 100 ms (14_security.md R446, 14_security.md R448, 14_security.md R449, 14_security.md R453, 14_security.md R454,
14_security.md R455). -/
def Obligations.HandshakeInitiator : Prop :=
  (∀ (s u v : State) p f b h o, receiveHs p 4 s = (some f, u) → reassemble f u = (some b, v) →
    v.sec.handshakes.find? (fun h => h.id == f.id && h.initiator && h.state == 0) = some h → b.length = 4701 → openOf v h.slot = some o →
    reportOk o (b.drop 1152) (thB h.hello b) = true → fit 32 (Config.x25519 (h.priv.take 32) (slice b 32 32)) ≠ zeros 32 →
    ∃ t x, exec (.reply p) s = .next t ∧ x ∈ t.sec.handshakes ∧ x.id = h.id ∧ x.state = 1 ∧ x.reply = b ∧ x.thr = thR h.hello b ∧ x.priv = [] ∧
      x.finish.take 48 = finishMac x (zeros 48 ++ x.finish.drop 48) ∧ t.sec.handshakes.length = v.sec.handshakes.length ∧ t.sec.slots = v.sec.slots ∧
      (port v h.port).out.length < (port t h.port).out.length) ∧
  (∀ (s u v : State) p f b h, receiveHs p 6 s = (some f, u) → reassemble f u = (some b, v) →
    v.sec.handshakes.find? (fun h => h.id == f.id && h.initiator && h.state == 1) = some h →
    (b = confirmMac h h.finish → ∃ w k, exec (.confirm p) s = .next (finalAnswer (fun k => k == .keyslot h.slot) St.ok 0 [] w) ∧ keySlot w h.slot = some k ∧
      k.peer = h.peer ∧ k.keys.txKey = slotKey h.prk "KIT v1 i2r key" h.thr 32 ∧ k.keys.rxKey = slotKey h.prk "KIT v1 r2i key" h.thr 32 ∧
      openOf w h.slot = none ∧ ∀ x ∈ w.sec.handshakes, x.id ≠ h.id) ∧
    (b ≠ confirmMac h h.finish → ∃ w, exec (.confirm p) s = .next (finalAnswer (fun k => k == .keyslot h.slot) St.keySlot 2 [] w) ∧
      w.sec.slots = v.sec.slots ∧ openOf w h.slot = none)) ∧
  (∀ (s u v : State) p f b h, receiveHs p 7 s = (some f, u) → reassemble f u = (some b, v) → v.sec.handshakes.find? (fun h => h.id == f.id) = some h →
    ∃ w, exec (.abort p) s = .next (finalAnswer (fun k => k == .keyslot h.slot) St.keySlot 3 [] w) ∧ openOf w h.slot = none ∧
      (∀ x ∈ w.sec.handshakes, x.id ≠ h.id) ∧ w.sec.slots = v.sec.slots) ∧
  (∀ (s : State) id (type : Byte) e, s.sec.parts.find? (fun x => x.id == id && x.type == type.toNat) = some e →
    ∃ t, exec (.handshakeFragmentTimeout id type) s = .next t ∧ (∀ x ∈ t.sec.parts, ¬ (x.id = id ∧ x.type = type.toNat)) ∧
      (∀ x ∈ s.sec.parts, ¬ (x.id = id ∧ x.type = type.toNat) → x ∈ t.sec.parts) ∧ t.clk.cycle = max s.clk.cycle (e.since + 190000000) ∧
      t = { s with sec := { s.sec with parts := t.sec.parts }, clk := t.clk }) ∧
  (∀ (s : State) (slot : BitVec 12) h, s.sec.handshakes.find? (fun h => h.slot == slot.toNat && !h.initiator) = some h →
    ∃ w, exec (.handshakeTimeout slot) s = .next (finalAnswer (fun k => k == .keyslot slot.toNat) St.keySlot 1 [] w) ∧
      (∀ x ∈ w.sec.handshakes, x.id ≠ h.id) ∧ openOf w slot.toNat = none ∧ w.clk.cycle = max s.clk.cycle (h.since + 1900000000)) ∧
  (∀ (s : State) (slot : BitVec 12) h, s.sec.handshakes.find? (fun h => h.slot == slot.toNat && h.initiator) = some h → h.state = 0 →
    ∃ t, exec (.helloRepeat slot) s = .next t ∧ t.clk.cycle = max s.clk.cycle (h.since + 190000000) ∧
      (port s h.port).out.length < (port t h.port).out.length ∧ t.sec.handshakes.map (·.id) = s.sec.handshakes.map (·.id) ∧
      t = { s with clk := t.clk, ports := t.ports, sec := { s.sec with handshakes := t.sec.handshakes } }) ∧
  (∀ (s : State) (slot : BitVec 12) h, s.sec.handshakes.find? (fun h => h.slot == slot.toNat && h.initiator) = some h → h.state ≠ 0 →
    exec (.helloRepeat slot) s = .next s)

/-- A DATA packet lands in order and counts, a SIGNAL adds or is held, and a whole MBX_REQ reaches its request queue
(12_ports.md R395, 12_ports.md R399, 12_ports.md R400, 12_ports.md R402, 11_queues_signals.md R380, 11_queues_signals.md
R383, 13_mailboxes.md R417). -/
def Obligations.PacketsTaken : Prop :=
  (∀ (s u : State) p, (receiveKit p 1 s = (none, u) → exec (.data p) s = .next u) ∧ (receiveKit p 2 s = (none, u) → exec (.signal p) s = .next u) ∧
    (receiveKit p 4 s = (none, u) → exec (.mbxReq p) s = .next u)) ∧
  (∀ (s u : State) p bs, receiveKit p 1 s = (some bs, u) → u.rx.find? (rxIs p.header.srcDev.toNat p.header.extSrc p.header.endpoint.toNat) = none →
    exec (.data p) s = .next (drop p.port.toNat 0xd u)) ∧
  (∀ (s u : State) p bs e base size, receiveKit p 1 s = (some bs, u) →
    u.rx.find? (rxIs p.header.srcDev.toNat p.header.extSrc p.header.endpoint.toNat) = some e → e.dest = .window base size → p.header.pos = e.committed →
    e.later = [] → e.parts = [] → bs ≠ [] → e.committed.toNat % size + bs.length ≤ size →
    exec (.data p) s = .next (retryLoads (setRx { e with committed := e.committed + BitVec.ofNat 48 bs.length }
      (writeFree u (base + e.committed.toNat % size) bs)))) ∧
  (∀ (s u : State) p bs e q x, receiveKit p 1 s = (some bs, u) →
    u.rx.find? (rxIs p.header.srcDev.toNat p.header.extSrc p.header.endpoint.toNat) = some e → e.dest = .queue q → p.header.pos = e.committed →
    e.later = [] → e.parts = [] → p.header.first = true → p.header.last = true → queue? u q = some x → cellsFor bs.length ≤ x.limit →
    queueRoom (setRx e u) q bs.length = true →
    exec (.data p) s = .next (retryLoads (flowControl (setRx { e with committed := e.committed + BitVec.ofNat 48 bs.length }
      (commitPacket q (portUid p.port.toNat 2) p.port.toNat bs (setRx e u)))))) ∧
  (∀ (s u : State) p bs, receiveKit p 2 s = (some bs, u) →
    (cellHeld u (fld 159 146 (leAt bs 0 32)) = false → exec (.signal p) s = .next (drop p.port.toNat 0xd u)) ∧
    (cellHeld u (fld 159 146 (leAt bs 0 32)) = true → bitAt (leAt bs 0 32) 145 = false →
      exec (.signal p) s = .next (signalAdd (fld 159 146 (leAt bs 0 32)) (BitVec.ofNat 32 (fld 191 160 (leAt bs 0 32))).toInt u)) ∧
    (cellHeld u (fld 159 146 (leAt bs 0 32)) = true → bitAt (leAt bs 0 32) 145 = true → queueRoom u (controlIngress p.port.toNat) 64 = true →
      exec (.signal p) s = .next (flowControl (admitRemotes
        (commitPacket (controlIngress p.port.toNat) (portUid p.port.toNat 2) p.port.toNat (kitHeaderBytes p.header ++ bs) u))))) ∧
  (∀ (s u v : State) p bs m, receiveKit p 4 s = (some bs, u) → m = p.header.endpoint.toNat → m ≤ 15 → p.header.first = true → p.header.last = true →
    v = setLink m { mailboxLink u m with parts := none } u → cellsFor bs.length ≤ 64 →
    (queueRoom v (requestQueue m) bs.length = true → p.header.doorbell = true →
      exec (.mbxReq p) s = .next (flowControl (doorbell m (commitPacket (requestQueue m) (portUid p.port.toNat 2) m bs
        (setLink m ⟨none, p.source, p.header.srcDev, p.header.extSrc, p.port.toNat⟩ v))))) ∧
    (queueRoom v (requestQueue m) bs.length = false → exec (.mbxReq p) s = .next (drop p.port.toNat 8 v))) ∧
  (∀ (s : State) m x, goustUp s = true → queue? s (requestQueue m) = some x → x.pkts ≠ [] → poolQuiet s (requestQueue m) →
    (doorbell m s).taken = s.taken.filter (fun e => !(e.2.2 == s.clk.cycle && decide (m < e.1))) ++
      ((x.pkts.map (·.bytes)).filter fun b => !repeatsHeld s m b).map (fun b => (m, b, s.clk.cycle)) ++
      s.taken.filter (fun e => e.2.2 == s.clk.cycle && decide (m < e.1)) ∧
    (∃ y, queue? (doorbell m s) (requestQueue m) = some y ∧ y.pkts = []) ∧ (mbox (doorbell m s) m).doorbells = (mbox s m).doorbells + 1 ∧
    (mbox (doorbell m s) m).spurious = (mbox s m).spurious ∧ ∀ j, j ≠ m → mbox (doorbell m s) j = mbox s j)

/-- EX_REQ gathers a list, EX_ROWS lands rows in time, EX_LATE accounts for rows that will not come, EX_UPD gathers
updates of the live generation (07_embeddings.md R236, 07_embeddings.md R238, 07_embeddings.md R241, 07_embeddings.md
R243, 07_embeddings.md R257, 12_ports.md R403, 12_ports.md R404, 12_ports.md Table 12-6). -/
def Obligations.ExchangePackets : Prop :=
  (∀ (s u : State) p bs, tableById u (leAt bs 20 4) = none →
    (receiveKit p 6 s = (some bs, u) → exec (.exReq p) s = .next (drop p.port.toNat 0xd u)) ∧
    (receiveKit p 7 s = (some bs, u) → exec (.exUpd p) s = .next (drop p.port.toNat 0xd u)) ∧
    (receiveKit p 8 s = (some bs, u) → exec (.exRows p) s = .next (drop p.port.toNat 0xd u)) ∧
    (receiveKit p 9 s = (some bs, u) → exec (.exLate p) s = .next (drop p.port.toNat 0xd u))) ∧
  (∀ (s u : State) p bs c h, receiveKit p 6 s = (some bs, u) → h = exHeader bs → tableById u h.table = some c → h.part < h.parts →
    (bs.drop 32).length = 16 * h.count →
    (∀ q ∈ (tableOf u c.slot c.ref).reqs, ¬ (q.received = true ∧ q.device = p.header.srcDev.toNat ∧ q.die = h.reqDie ∧ q.ownDie = h.ownDie ∧ q.tick = h.tick)) →
    (1 < h.parts ∨ ∀ i, i < h.count → ∃ d a, rowHome u c none (leAt bs (32 + 16 * i) 8) = .here d a ∧ serveReleased u c d h.tick = false) →
    ∃ t q, exec (.exReq p) s = .next t ∧ (tableOf t c.slot c.ref).reqs = (tableOf u c.slot c.ref).reqs ++ [q] ∧ q.device = p.header.srcDev.toNat ∧
      q.die = h.reqDie ∧ q.ownDie = h.ownDie ∧ q.tick = h.tick ∧ q.parts = h.parts ∧ q.got = [h.part] ∧ q.received = true ∧ q.toSend = false ∧
      q.rows = ((List.range h.count).map fun i => (leAt bs (32 + 16 * i) 8, leAt bs (32 + 16 * i + 8) 4)) ∧
      (tableOf t c.slot c.ref).owners = (tableOf u c.slot c.ref).owners ∧ t = { u with tables := t.tables }) ∧
  (∀ (s u : State) p bs c h, receiveKit p 8 s = (some bs, u) → h = exHeader bs → tableById u h.table = some c → h.count = 1 →
    (bs.drop 32).length = 8 + alignUp c.rowBytes 8 → 8 + alignUp c.rowBytes 8 ≤ 1368 →
    (nowTick u = h.tick ∨ nowTick u = h.tick + 1 ∧ u.clk.guard = false → leAt bs 32 4 < c.d.landRows →
      ∃ t, exec (.exRows p) s = .next t ∧ (∀ l ∈ (tableOf t c.slot c.ref).landing, l.die = h.reqDie → l.buf = h.tick % 3 → l.slot = leAt bs 32 4 →
        l.landed = true ∧ l.bytes = slice bs 40 c.rowBytes) ∧
        (tableOf t c.slot c.ref).landing.length = (tableOf u c.slot c.ref).landing.length ∧ t.plans = u.plans ∧ t.streams = u.streams) ∧
    (h.tick + 1 < nowTick u ∨ nowTick u = h.tick + 1 ∧ u.clk.guard = true → exec (.exRows p) s =
      .next (drop p.port.toNat 0xf (setTable c.slot c.ref (tableOf u c.slot c.ref) u))) ∧
    (nowTick u < h.tick ∨ (nowTick u = h.tick ∨ nowTick u = h.tick + 1 ∧ u.clk.guard = false) ∧ c.d.landRows ≤ leAt bs 32 4 → exec (.exRows p) s =
      .next (drop p.port.toNat 0x10 (setTable c.slot c.ref (tableOf u c.slot c.ref) u)))) ∧
  (∀ (s u : State) p bs c h, receiveKit p 9 s = (some bs, u) → h = exHeader bs → tableById u h.table = some c →
    ∃ t, exec (.exLate p) s = .next t ∧ t = { u with tables := t.tables } ∧
      (tableOf t c.slot c.ref) = { tableOf u c.slot c.ref with landing := (tableOf t c.slot c.ref).landing } ∧
      ∀ (i : Nat) (l : LandSlot), (tableOf u c.slot c.ref).landing[i]? = some l → (tableOf t c.slot c.ref).landing[i]? = some (if l.device = p.header.srcDev.toNat ∧
        l.die = h.reqDie ∧ l.ownDie = h.ownDie ∧ l.tick = h.tick ∧ l.landed = false then { l with late := true } else l)) ∧
  (∀ (s u : State) p bs c h, receiveKit p 7 s = (some bs, u) → h = exHeader bs → tableById u h.table = some c → h.part < h.parts →
    (bs.drop 32).length = (8 + 4 * c.d.dim) * h.count → 8 + 4 * c.d.dim ≤ 1368 →
    (∀ q ∈ (tableOf u c.slot c.ref).upds, ¬ (q.received = true ∧ q.device = p.header.srcDev.toNat ∧ q.die = h.reqDie ∧ q.ownDie = h.ownDie ∧ q.tick = h.tick)) →
    (1 ≤ ((tableOf u c.slot c.ref).gen + 65536 - h.gen) % 65536 → ((tableOf u c.slot c.ref).gen + 65536 - h.gen) % 65536 < 32768 → h.parts = 1 →
      1 ≤ h.count → ∃ v, exec (.exUpd p) s = .next (emitBlot ⟨0x4c, c.slot, c.ref, 0xffff, 0, 0, h.count⟩ v) ∧ v = { u with tables := v.tables } ∧
        (tableOf v c.slot c.ref).upds = (tableOf u c.slot c.ref).upds ∧ (2048 + p.header.srcDev.toNat, h.tick) ∈ (tableOf v c.slot c.ref).peers) ∧
    (1 < h.parts →
      ∃ t q, exec (.exUpd p) s = .next t ∧ (tableOf t c.slot c.ref).upds = (tableOf u c.slot c.ref).upds ++ [q] ∧ q.tick = h.tick ∧
        q.device = p.header.srcDev.toNat ∧ q.got = [h.part] ∧ q.upds.length = h.count ∧ t = { u with tables := t.tables }))

/-- A Dip request is answered on its port under its key slot with the status of R411, and hits and misses are counted
(12_ports.md R405, 12_ports.md R408, 12_ports.md R411, 12_ports.md R412, 12_ports.md Table 12-10). -/
def Obligations.DipService : Prop :=
  (∀ (s u : State) p bs, receiveKit p 10 s = (some bs, u) → ∃ a v h, (a, v) = dipProbe p.port.toNat bs u ∧ h.kind = 11#4 ∧ h.dstDev.toNat = p.header.srcDev.toNat ∧
    h.extDst = p.header.extSrc ∧ h.keyId = p.header.keyId ∧ h.endpoint = p.header.endpoint ∧ h.len.toNat = a.length % 65536 ∧
    exec (.dipReq p false) s = .next (enqueueKit p.port.toNat .dip false p.source h a v) ∧
    exec (.dipReq p true) s = .next (tickEvent ⟨6, 5, (portUid p.port.toNat 3).toNat, 0xff, p.port.toNat, 0, 1⟩
      (enqueueKit p.port.toNat .dip false p.source h a v))) ∧
  (∀ (u : State) pt q, dipTable u (leAt q 4 4) = none → ∃ a, dipProbe pt q u = (a, u) ∧ leAt a 0 4 = leAt q 0 4 ∧ leAt a 16 1 = 4 ∧ a.length = 32) ∧
  (∀ (u : State) pt q c, dipTable u (leAt q 4 4) = some c → dipPaused u (tableOf u c.slot c.ref) = false → (∀ row, dipRow c.d (leAt q 8 8) ≠ .row row) →
    ∃ a, dipProbe pt q u = (a, u) ∧ leAt a 16 1 = 3 ∧ a.length = 32) ∧
  (∀ (u : State) pt q c, dipTable u (leAt q 4 4) = some c → dipPaused u (tableOf u c.slot c.ref) = true →
    ∃ a v, dipProbe pt q u = (a, v) ∧ leAt a 16 1 = 2 ∧ (tableOf v c.slot c.ref).dipBusy = (tableOf u c.slot c.ref).dipBusy + 1 ∧ v = { u with tables := v.tables }) ∧
  (∀ (u : State) pt q c row r, dipTable u (leAt q 4 4) = some c → dipRow c.d (leAt q 8 8) = .row row → dipPaused u (tableOf u c.slot c.ref) = false →
    dipCopy u c (portDie pt / 2) row = some r → r.bytes.length = c.rowBytes →
    ∃ a v, dipProbe pt q u = (a, v) ∧ leAt a 16 1 = 0 ∧ a.drop 32 = r.bytes ∧ leAt a 20 2 = c.rowBytes % 65536 ∧
      (tableOf v c.slot c.ref).dipHits = (tableOf u c.slot c.ref).dipHits + 1 ∧ (tableOf v c.slot c.ref).dipMisses = (tableOf u c.slot c.ref).dipMisses ∧
      v = { u with tables := v.tables, dips := v.dips }) ∧
  (∀ (u : State) pt q c row, dipTable u (leAt q 4 4) = some c → dipRow c.d (leAt q 8 8) = .row row → dipPaused u (tableOf u c.slot c.ref) = false →
    dipCopy u c (portDie pt / 2) row = none → ∃ a v, dipProbe pt q u = (a, v) ∧ leAt a 16 1 = 1 ∧ a.length = 32 ∧
      (tableOf v c.slot c.ref).dipMisses = (tableOf u c.slot c.ref).dipMisses + 1 ∧ (tableOf v c.slot c.ref).dipHits = (tableOf u c.slot c.ref).dipHits ∧
      v = { u with tables := v.tables, dips := v.dips })

/-- A serve task serves the lists that stand to be served, a combiner window opens for its plan, and a drain frees every
entry whose row it reaches (07_embeddings.md R236, 07_embeddings.md R240, 07_embeddings.md R243, 07_embeddings.md R246, 07_embeddings.md
R248). -/
def Obligations.ExchangeTasks : Prop :=
  (∀ (s : State) (slot : BitVec 6) (stream : BitVec 16) c, serveTable s slot.toNat stream.toNat = some c → streamRelease s c.plan stream.toNat = none →
    (∀ q ∈ (tableOf s c.slot c.ref).reqs, toServe none q = false) → tablePeers s c = [] →
    exec (.serveTask slot stream) s = .next (setTable c.slot c.ref { tableOf s c.slot c.ref with
      peers := (tableOf s c.slot c.ref).peers.filter fun e => nowTick s ≤ e.2 + 2 } s)) ∧
  (∀ (s : State) (slot : BitVec 6) (stream : BitVec 16) c q row ls a, serveTable s slot.toNat stream.toNat = some c →
    streamRelease s c.plan stream.toNat = none → (tableOf s c.slot c.ref).reqs = [q] → toServe none q = true → q.received = false →
    q.rows = [(row, ls)] → tablePeers s c = [] → rowHome s c none row = .here (uidDie (streamUnit c.plan stream.toNat)) a →
    rowPlace s c none row = .here (uidDie (streamUnit c.plan stream.toNat)) a → Machine.reaches s (uidDie (streamUnit c.plan stream.toNat)) q.die = true →
    ∃ t, exec (.serveTask slot stream) s = .next t ∧ (tableOf t c.slot c.ref).served = (tableOf s c.slot c.ref).served + 1 ∧
      (tableOf t c.slot c.ref).reqs = [] ∧
      ∀ l ∈ (tableOf t c.slot c.ref).landing, l.die = q.die → l.buf = q.tick % 3 → l.slot = ls → l.landed = true ∧ l.bytes = readDva s a c.rowBytes) ∧
  (∀ (s : State) (slot : BitVec 6) (stream : BitVec 16) c, serveTable s slot.toNat stream.toNat = some c →
    streamRelease s c.plan stream.toNat ≠ none → (∀ x, serveRun s slot.toNat stream.toNat = some x → serveFree s x = false) →
    exec (.serveTask slot stream) s = .next s) ∧
  (∀ (s : State) (slot : BitVec 6) (stream : BitVec 16) c x, serveTable s slot.toNat stream.toNat = some c →
    streamRelease s c.plan stream.toNat ≠ none → s.rul.shared = [x] → serveRun s slot.toNat stream.toNat = some x → serveFree s x = true →
    x.overrun = none → (∀ q ∈ (tableOf s c.slot c.ref).reqs, ∀ n, toServe (some n) q = false) →
    exec (.serveTask slot stream) s = .next { s with rul := { s.rul with shared := [] } }) ∧
  (∀ (s : State) (die : BitVec 2) (slot : BitVec 6) p, plan? s slot.toNat = some p → p.state ≠ .loaded →
    look slot.toNat (combiner s die.toNat).opened ≠ some (nowTick s) →
    ∃ t, exec (.combinerWindow die slot) s = .next t ∧ look slot.toNat (combiner t die.toNat).opened = some (nowTick s) ∧
    ((combiner s die.toNat).window ≠ none → (combiner t die.toNat).window = (combiner s die.toNat).window ∧
      (combiner t die.toNat).entries = (combiner s die.toNat).entries ∧ t = { s with combiners := t.combiners, rul := t.rul }) ∧
    ((combiner s die.toNat).window = none → (∀ c ∈ planTables s slot.toNat, (tableOf s c.slot c.ref).upds = []) →
      (combiner t die.toNat).window = some (slot.toNat, s.clk.cycle) ∧ (combiner t die.toNat).spilled = 0 ∧
      (combiner t die.toNat).entries = (combiner s die.toNat).entries ∧ t = { s with combiners := t.combiners, tables := t.tables, rul := t.rul } ∧
      (∀ k, k ≠ die.toNat → combiner t k = combiner s k) ∧
      ∀ c ∈ planTables s slot.toNat, (tableOf t c.slot c.ref).owners = (tableOf s c.slot c.ref).owners ∧ (tableOf t c.slot c.ref).upds = [])) ∧
  (∀ (s : State) (die : BitVec 2) (slot : BitVec 6), ((∀ p, plan? s slot.toNat = some p → p.state = .loaded) ∨
      look slot.toNat (combiner s die.toNat).opened = some (nowTick s)) → exec (.combinerWindow die slot) s = .next s) ∧
  (∀ (s : State) (die : BitVec 2), (combiner s die.toNat).window = none →
    (∀ e ∈ (combiner s die.toNat).entries, ∀ c, tableCtx s e.slot e.ref = some c → rowReach s c die.toNat e.row = true) →
    ∃ t, exec (.combinerDrain die) s = .next t ∧
    (combiner t die.toNat).entries = [] ∧ (combiner t die.toNat).window = none ∧ (combiner t die.toNat).spilled = 0 ∧
    t.rul = s.rul ∧ t.plans = s.plans ∧ ((combiner s die.toNat).entries = [] → t = { s with combiners := t.combiners })) ∧
  (∀ (s : State) (die : BitVec 2) slot n, (combiner s die.toNat).window = some (slot, n) →
    (∀ e ∈ (combiner s die.toNat).entries, ∀ c, tableCtx s e.slot e.ref = some c → rowReach s c die.toNat e.row = true) →
    (∀ x ∈ s.rul.shared, x.unit = combinerUid die.toNat → x.slot = slot ∧ x.overrun = none ∧ s.rul.shared = [x]) →
    ∃ t, exec (.combinerDrain die) s = .next t ∧ (combiner t die.toNat).entries = [] ∧ (combiner t die.toNat).window = none ∧
      (combiner t die.toNat).spilled = 0 ∧ (∀ x ∈ t.rul.shared, x.unit ≠ combinerUid die.toNat) ∧
      ((combiner s die.toNat).entries = [] → (combiner s die.toNat).spilled = 0 → t = { s with combiners := t.combiners, rul := t.rul }) ∧
      (∀ p r, (combiner s die.toNat).entries = [] → plan? s slot = some p → (combiner s die.toNat).spilled ≠ 0 →
        windowTask s p slot die.toNat = some r → s.rul.shared = [] →
        t = emitErr ⟨2, 3, combinerUid die.toNat, r.id, (combiner s die.toNat).spilled, slot, true, false⟩
          (setCombiner die.toNat { combiner s die.toNat with entries := [], window := none, spilled := 0 } s)))

/-- PORT_SET writes a port's configuration, PORT_READ reads it, DEVICE_NUMBER_SET and NEIGHBOUR_SET write what the
device addresses with (12_ports.md R386, 12_ports.md R387, 12_ports.md R388, 12_ports.md R414, 12_ports.md Table 12-2,
13_mailboxes.md Table 13-14). -/
def Obligations.PortCommands : Prop :=
  (∀ s r (p : Byte) (cfg : BitVec 64) (ip : Bytes), heard s r 0x0901 32 = true → p.toNat ≤ 3 → fld 10 2 cfg.toNat = 0 → fld 35 34 cfg.toNat = 0 →
    fld 47 36 cfg.toNat ≠ 4095 → (p.toNat % 2 = 1 → bitAt cfg.toNat 1 = false) → ip.length = 16 → (bitAt cfg.toNat 33 = true ∨ ∀ b ∈ ip.drop 4, b = 0) →
    (portExists s p.toNat = true → (portHeld s p.toNat = false ∨ (bitAt cfg.toNat 0 = bitAt (port s p.toNat).live.toNat 0 ∧
        bitAt cfg.toNat 1 = bitAt (port s p.toNat).live.toNat 1)) →
      exec (.portSet r p cfg ip) s = .next (answer r 0x0901 St.ok 0 [] (flowControl (setPort p.toNat { port s p.toNat with cfg := cfg, ip := ip } s)))) ∧
    ((portExists s p.toNat = false ∨ (portHeld s p.toNat = true ∧ (bitAt cfg.toNat 0 ≠ bitAt (port s p.toNat).live.toNat 0 ∨
        bitAt cfg.toNat 1 ≠ bitAt (port s p.toNat).live.toNat 1))) →
      exec (.portSet r p cfg ip) s = .next (answer r 0x0901 St.portRefused 0 [] s))) ∧
  (∀ s r (p : Byte), heard s r 0x0902 8 = true → p.toNat ≤ 3 → exec (.portRead r p) s = .next (answer r 0x0902 St.ok 0
    (payload [.num 8 (port s p.toNat).cfg.toNat, .num 1 (b2n (portCarries s p.toNat)), .elems ((port s p.toNat).drops.map fun d => le 8 d.toNat)]) s)) ∧
  (∀ s r (n : BitVec 16), heard s r 0x0903 8 = true → n.toNat ≤ 1023 →
    (s.plans = [] → exec (.deviceNumberSet r n) s = .next (answer r 0x0903 St.ok 0 [] { s with deviceNumber := BitVec.ofNat 10 n.toNat })) ∧
    (s.plans ≠ [] → exec (.deviceNumberSet r n) s = .next (answer r 0x0903 St.portRefused 0 [] s))) ∧
  (∀ s r (first : BitVec 16) (es : List NeighbourEntry), heard s r 0x0904 (8 + 32 * es.length) = true → first.toNat + es.length ≤ 1025 → es.length ≤ 110 →
    (∀ e ∈ es, e.mac.toNat < 2 ^ 48 ∧ e.port.toNat ≤ 3) → ∃ u, exec (.neighbourSet r first es) s = .next (answer r 0x0904 St.ok 0 [] u) ∧
      u = { s with neighbours := u.neighbours } ∧ (∀ (i : Nat) (e : NeighbourEntry), es[i]? = some e →
        neighbour u (first.toNat + i) = ⟨BitVec.ofNat 48 e.mac.toNat, fit 16 e.ip, e.port⟩) ∧
      ∀ n, (n < first.toNat ∨ first.toNat + es.length ≤ n) → neighbour u n = neighbour s n)

/-- TX_STREAM_SET and RX_STREAM_SET bind streams, RX_STREAM_READ reads one, and a packet of a transmit stream leaves as
numbered DATA parts (12_ports.md R398, 12_ports.md R399, 12_ports.md R400, 12_ports.md R414, 13_mailboxes.md Table
13-14). -/
def Obligations.TransportStreams : Prop :=
  (∀ s r (q dest stream : BitVec 16) (p cls : Byte) (key : BitVec 16), heard s r 0x0905 16 = true → planQueue? s q.toNat = true → queueNumberOk q.toNat = true → queueOn s q.toNat = true →
    (dest.toNat ≤ 1023 ∨ dest = 0xffff#16) → p.toNat ≤ 3 → cls.toNat ≤ 1 → key.toNat ≤ 4095 →
    (portExists s p.toNat = true → (keySlot s key.toNat).isSome = true →
      ∃ t, exec (.txStreamSet r q dest stream p cls key) s = .next (answer r 0x0905 St.ok 0 [] { s with tx := (s.tx.filter fun x => x.queue != q.toNat) ++ [t] }) ∧
        t.queue = q.toNat ∧ t.dest = dest.toNat ∧ t.stream = stream.toNat ∧ t.port = p.toNat ∧ t.ruled = (cls.toNat == 1) ∧ t.key = key.toNat ∧
        (∀ o, s.tx.find? (fun t => t.queue == q.toNat && t.dest == dest.toNat && t.stream == stream.toNat) = some o → t.pos = o.pos) ∧
        ((∀ o ∈ s.tx, ¬ (o.queue = q.toNat ∧ o.dest = dest.toNat ∧ o.stream = stream.toNat)) → t.pos = 0)) ∧
    (portExists s p.toNat = false → exec (.txStreamSet r q dest stream p cls key) s = .next (answer r 0x0905 St.portRefused 0 [] s)) ∧
    (portExists s p.toNat = true → keySlot s key.toNat = none → exec (.txStreamSet r q dest stream p cls key) s = .next (answer r 0x0905 St.keyAbsent 0 [] s))) ∧
  (∀ s r (src : BitVec 16) (ext dest : Byte) (stream q : BitVec 16) (dva n : BitVec 64), heard s r 0x0906 24 = true → src.toNat ≤ 1023 → ext.toNat ≤ 1 →
    dest.toNat ≤ 2 → (dest = 0 → planQueue? s q.toNat = true ∧ queueNumberOk q.toNat = true ∧ queueOn s q.toNat = true) →
    (dest = 2 → exec (.rxStreamSet r src ext dest stream q dva n) s =
      .next (answer r 0x0906 St.ok 0 [] { s with rx := s.rx.filter fun e => !rxIs src.toNat (ext.toNat == 1) stream.toNat e })) ∧
    (dest = 1 → windowHeld s dva.toNat n.toNat = false →
      exec (.rxStreamSet r src ext dest stream q dva n) s = .next (answer r 0x0906 St.memoryRefused dva.toNat [] s)) ∧
    (∀ d, (dest = 0 ∧ d = RxDest.queue q.toNat ∨ dest = 1 ∧ windowHeld s dva.toNat n.toNat = true ∧ d = RxDest.window dva.toNat n.toNat) →
      (∀ e, s.rx.find? (rxIs src.toNat (ext.toNat == 1) stream.toNat) = some e → ∃ u, exec (.rxStreamSet r src ext dest stream q dva n) s =
          .next (answer r 0x0906 St.ok 0 [] u) ∧ u = { s with rx := u.rx } ∧ u.rx.find? (rxIs src.toNat (ext.toNat == 1) stream.toNat) =
            some { e with dest := d, parts := [] } ∧ u.rx.length = s.rx.length) ∧
      (s.rx.find? (rxIs src.toNat (ext.toNat == 1) stream.toNat) = none → s.rx.length < 4096 → exec (.rxStreamSet r src ext dest stream q dva n) s =
        .next (answer r 0x0906 St.ok 0 [] { s with rx := s.rx ++ [⟨src.toNat, ext.toNat == 1, stream.toNat, d, 0, [], []⟩] })) ∧
      (s.rx.find? (rxIs src.toNat (ext.toNat == 1) stream.toNat) = none → 4096 ≤ s.rx.length →
        exec (.rxStreamSet r src ext dest stream q dva n) s = .next (answer r 0x0906 St.noStreamSlot 0 [] s)))) ∧
  (∀ s r (src : BitVec 16) (ext : Byte) (stream : BitVec 16), heard s r 0x0907 8 = true → src.toNat ≤ 1023 → ext.toNat ≤ 1 →
    (∀ e, s.rx.find? (rxIs src.toNat (ext.toNat == 1) stream.toNat) = some e → exec (.rxStreamRead r src ext stream) s =
      .next (answer r 0x0907 St.ok 0 (payload [.num 8 e.committed.toNat, .num 1 (rxGaps e)]) s)) ∧
    (s.rx.find? (rxIs src.toNat (ext.toNat == 1) stream.toNat) = none → exec (.rxStreamRead r src ext stream) s =
      .next (answer r 0x0907 St.ok 0 (payload [.num 8 0, .num 1 0]) s))) ∧
  (∀ (s : State) (q : BitVec 16), (s.tx.find? (fun t => t.queue == q.toNat) = none ∨ takePacket q.toNat s = none) →
    exec (.transmitStreamPacket ⟨q, none, 0⟩) s = .next s) ∧
  (∀ (s u : State) (q : BitVec 16) t (bs : Bytes), s.tx.find? (fun t => t.queue == q.toNat) = some t → takePacket q.toNat s = some (bs, u) →
    ∃ v fs, exec (.transmitStreamPacket ⟨q, none, 0⟩) s = .next v ∧ (port v t.port).out = (port u t.port).out ++ fs ∧ fs.length = max 1 ((bs.length + 1399) / 1400) ∧
      (∀ (i : Nat) (f : OutFrame), fs[i]? = some f → ∃ h pl, f.body = .kit h pl ∧ pl = (bs.drop (1400 * i)).take 1400 ∧ h.kind = 1#4 ∧ h.endpoint.toNat = t.stream % 2 ^ 16 ∧
        h.keyId.toNat = t.key % 2 ^ 16 ∧ h.len.toNat = pl.length ∧ h.pos.toNat = (t.pos.toNat + 1400 * i) % 2 ^ 48 ∧ h.srcDev = s.deviceNumber ∧
        (h.first = true ↔ i = 0) ∧ (h.last = true ↔ i + 1 = fs.length) ∧ f.cls = (if t.ruled then .ruledExch else .margin)) ∧
      v.tx = u.tx.map (fun x => if x.queue = q.toNat then { x with pos := x.pos + BitVec.ofNat 48 bs.length } else x) ∧
      (∀ k, k ≠ t.port → port v k = port u k) ∧ v = { u with ports := v.ports, tx := v.tx })

/-- PTP_SET configures the receiver, its messages build the servo of R392, which steps beyond 1 ms, and the pulses
follow the time base (12_ports.md R391, 12_ports.md R392, 16_power_module.md R492, 02_ruling.md R52, 13_mailboxes.md
Table 13-14). -/
def Obligations.PtpTimeBase : Prop :=
  (∀ s r (p transport domain : Byte) (a : BitVec 32), heard s r 0x0908 8 = true → p.toNat ≤ 3 → transport.toNat ≤ 2 → domain.toNat ≤ 127 →
    (portExists s p.toNat = true → ∃ u, exec (.ptpSet r p transport domain a) s = .next (answer r 0x0908 St.ok 0 [] u) ∧ u = { s with ptp := u.ptp } ∧
      u.ptp.port = p.toNat ∧ u.ptp.transport = transport ∧ u.ptp.domain = domain ∧ u.ptp.asymmetry = a ∧ u.ptp.isSet = true ∧ u.ptp.master = none ∧ u.ptp.masters = [] ∧ u.ptp.heard = [] ∧
      u.ptp.delayResp = none ∧ u.ptp.lastSeq = none ∧ u.ptp.offset = s.ptp.offset ∧ u.ptp.lastUpdate = s.ptp.lastUpdate ∧ u.ptp.pps = s.ptp.pps) ∧
    (portExists s p.toNat = false → exec (.ptpSet r p transport domain a) s = .next (answer r 0x0908 St.portRefused 0 [] s))) ∧
  (∀ (s : State) m, ptpFromMaster m s = false → exec (.sync m) s = .next s ∧ exec (.followUp m) s = .next s ∧ exec (.delayResp m) s = .next s) ∧
  (∀ (s : State) m, ptpFromMaster m s = true → ∃ u f, (port u m.port.toNat).out = (port s m.port.toNat).out ++ [f] ∧ f.cls = .pfcPtp ∧ f.dst = { m.source with udp := 319 } ∧
    (∃ bs, f.body = .ptp bs ∧ beAt bs 30 2 = m.seq.toNat) ∧ u = { s with ports := u.ports, ptp := (chooseMaster s).ptp } ∧ (∀ k, k ≠ m.port.toNat → port u k = port s k) ∧
    exec (.sync m) s = .next (if m.twoStep then { u with ptp := { u.ptp with waiting := some (m.seq, (ptpNs s : Int)) } }
      else syncDone m.seq m.stamp.toNat (ptpNs s) u)) ∧
  (∀ (s : State) m t2, ptpFromMaster m s = true → (chooseMaster s).ptp.waiting = some (m.seq, t2) →
    exec (.followUp m) s = .next (syncDone m.seq m.stamp.toNat t2 (chooseMaster s))) ∧
  (∀ (s : State) m, ptpFromMaster m s = true → (∀ t2, (chooseMaster s).ptp.waiting ≠ some (m.seq, t2)) →
    exec (.followUp m) s = .next (chooseMaster s)) ∧
  (∀ s : State, chooseMaster s = { s with ptp := (chooseMaster s).ptp } ∧ (chooseMaster s).ptp.masters = s.ptp.masters ∧
    (∀ b, (chooseMaster s).ptp.master = some b → b ∈ liveMasters s ∧ ∀ e ∈ liveMasters s, b.2 ≤ e.2) ∧
    (liveMasters s = [] → (chooseMaster s).ptp.master = none) ∧
    ((chooseMaster s).ptp.master.map (·.1) = s.ptp.master.map (·.1) → (chooseMaster s).ptp = { s.ptp with master := (chooseMaster s).ptp.master }) ∧
    ((chooseMaster s).ptp.master.map (·.1) ≠ s.ptp.master.map (·.1) → (chooseMaster s).ptp.lastSeq = none ∧ (chooseMaster s).ptp.waiting = none ∧
      (chooseMaster s).ptp.delayResp = none)) ∧
  (∀ (s : State) (seq : BitVec 16) (t1 t2 : Int) d n, s.ptp.delayResp = some d → 0 ≤ d.1 → d.1 ≤ 100000 → s.clk.cycle ≤ d.2 + 30400000000 →
    s.ptp.lastSeq = some n → n + 1 = seq → ∃ t off, t = syncDone seq t1 t2 s ∧ off = t2 - t1 - d.1 - s.ptp.asymmetry.toInt ∧
      t.ptp.lastOffset = BitVec.ofInt 64 off ∧ t.ptp.lastUpdate = s.clk.cycle ∧ t.ptp.lastSeq = some seq ∧ t.ptp.waiting = none ∧ t.ptp.t1t2 = (t1, t2) ∧
      ((1000000 < off ∨ off < -1000000) → t.ptp.offset = s.ptp.offset - off) ∧
      (-1000000 ≤ off → off ≤ 1000000 → ∃ k : Nat, k ≤ 65536 ∧ t.ptp.offset = s.ptp.offset - off * (k : Int) / 65536) ∧
      (disciplined s = true → lockOf s = 3 → lockOf t = 1) ∧ (¬ (disciplined s = true ∧ lockOf s = 3) → t.rul = s.rul) ∧
      t = { s with ptp := t.ptp, rul := { s.rul with status := t.rul.status }, freeCtr := s.freeCtr + 1 }) ∧
  (∀ (s : State) (seq : BitVec 16) (t1 t2 : Int), (s.ptp.delayResp = none ∨ s.ptp.lastSeq = none ∨ (∃ n, s.ptp.lastSeq = some n ∧ n + 1 ≠ seq) ∨
    ∃ d, s.ptp.delayResp = some d ∧ (d.1 < 0 ∨ 100000 < d.1 ∨ d.2 + 30400000000 < s.clk.cycle)) →
    syncDone seq t1 t2 s = { s with ptp := { s.ptp with lastSeq := some seq, waiting := none, t1t2 := (t1, t2) } }) ∧
  (∀ (s : State) m t3, ptpFromMaster m s = true → s.ptp.delayReq = some (m.seq, t3) → exec (.delayResp m) s = .next { s with ptp := { (chooseMaster s).ptp with
    delayResp := some (((s.ptp.t1t2.2 - s.ptp.t1t2.1) + ((m.stamp.toNat : Int) - t3)) / 2, s.clk.cycle), delayReq := none } }) ∧
  (∀ (s : State) m, ptpFromMaster m s = true → (∀ t3, s.ptp.delayReq ≠ some (m.seq, t3)) → exec (.delayResp m) s = .next (chooseMaster s)) ∧
  (∀ (s : State) m d, ptpHeard m s = false → exec (.announce m d) s = .next s) ∧
  (∀ (s : State) m d, ptpHeard m s = true → ∃ t, exec (.announce m d) s = .next t ∧ look m.sender.toNat t.ptp.heard = some s.clk.cycle ∧
    (∀ c, look m.sender.toNat s.ptp.heard = some c → s.clk.cycle ≤ c + 15200000000 → look m.sender.toNat t.ptp.masters = some (announceRank m d) ∧
      ∃ b, t.ptp.master = some b) ∧
    ((look m.sender.toNat s.ptp.heard = none ∨ ∃ c, look m.sender.toNat s.ptp.heard = some c ∧ c + 15200000000 < s.clk.cycle) →
      look m.sender.toNat t.ptp.masters = none) ∧
    (∀ j, j ≠ m.sender.toNat → look j t.ptp.masters = look j s.ptp.masters) ∧
    (∀ b, t.ptp.master = some b → b ∈ liveMasters t ∧ ∀ e ∈ liveMasters t, b.2 ≤ e.2) ∧
    (t.ptp.master.map (·.1) = s.ptp.master.map (·.1) → t.ptp.delayResp = s.ptp.delayResp ∧ t.ptp.lastSeq = s.ptp.lastSeq) ∧ t = { s with ptp := t.ptp } ∧
    t.ptp.offset = s.ptp.offset) ∧
  (∀ (s : State) (ago : BitVec 64) (w : BitVec 32), (w.toNat < 100 → exec (.ptpPpsIn ago w) s = .next s) ∧ (100 ≤ w.toNat → exec (.ptpPpsIn ago w) s =
    .next { s with ptp := { s.ptp with pps := (BitVec.ofNat 64 ((ptpNs s - ago.toNat) / 1000000000), BitVec.ofNat 32 ((ptpNs s - ago.toNat) % 1000000000)) } })) ∧
  (∀ s : State, ∃ t, exec .ptpPpsOut s = .next t ∧ ptpNs t = (ptpNs s / 1000000000 + 1) * 1000000000 ∧ t.ppsOut = t.clk.cycle + 190000000 ∧
    t = { s with clk := { s.clk with cycle := t.clk.cycle }, ppsOut := t.ppsOut })

/-- A frame boundary sends the next frame in the order of R389 under the next sequence number, and PFC and PAUSE frames
do what R390 says (12_ports.md R385, 12_ports.md R389, 12_ports.md R390, 12_ports.md R396, 12_ports.md R397,
14_security.md R457, 12_ports.md Table 12-1, 12_ports.md Table 12-12). -/
def Obligations.FramesOfAPort : Prop :=
  (∀ (s : State) (p : BitVec 2), portCarries s p.toNat = false → exec (.frameBoundary p) s = .next s) ∧
  (∀ (s : State) (p : BitVec 2), portCarries s p.toNat = true → s.hostSigs = [] → s.links = [] →
    (∀ f ∈ (port s p.toNat).out, frameExhausted s p.toNat f = false) →
    (pickFrame s p.toNat = none → exec (.frameBoundary p) s = .next s) ∧
    (∀ f, pickFrame s p.toNat = some f → ∃ t, exec (.frameBoundary p) s = .next t ∧ (port t p.toNat).out = (port s p.toNat).out.erase f ∧
      (∀ k, k ≠ p.toNat → port t k = port s k) ∧ t = { s with ports := t.ports, ptp := t.ptp, counters := t.counters, sent := t.sent, freeCtr := t.freeCtr } ∧
      ((∀ h pl, f.body = .kit h pl → h.keyId = 0xffff#16 ∨ (keySlot s h.keyId.toNat).isSome = true) →
        ∃ e, t.sent = e :: s.sent ∧ e.port = p.toNat ∧ e.dst = f.dst ∧ e.pcp = f.pcp ∧
          (∀ h pl k h', f.body = .kit h pl → h.keyId ≠ 0xffff#16 → keySlot s h.keyId.toNat = some k →
            h' = { h with seq := BitVec.ofNat 64 (p.toNat * 2 ^ 62 + (seqCounter s h.keyId.toNat p.toNat).next) } →
            e.bytes = kitHeaderBytes h' ++ (gcmSeal k.keys.txKey (k.keys.txSalt ++ be 8 h'.seq.toNat) (kitHeaderBytes h') pl).1 ++
                (gcmSeal k.keys.txKey (k.keys.txSalt ++ be 8 h'.seq.toNat) (kitHeaderBytes h') pl).2 ∧
              (seqCounter t h.keyId.toNat p.toNat).next = (seqCounter s h.keyId.toNat p.toNat).next + 1)) ∧
      (∀ h pl, f.body = .kit h pl → h.keyId ≠ 0xffff#16 → keySlot s h.keyId.toNat = none → t.sent = s.sent))) ∧
  (∀ (s : State) p f, pickFrame s p = some f → f ∈ (port s p).out ∧ isPaused s p f.pcp = false ∧ frameExhausted s p f = false ∧
    (f.cls = .dip → 80 * wireBytes (port s p) (frameBytes f) ≤ bucketNow s p) ∧
    (∀ g ∈ (port s p).out, isPaused s p g.pcp = false → frameExhausted s p g = false → g.cls ≠ .dip →
      [OutClass.pfcPtp, .dip, .ruledExch, .control, .mailbox, .margin].idxOf f.cls ≤ [OutClass.pfcPtp, .dip, .ruledExch, .control, .mailbox, .margin].idxOf g.cls) ∧
    ∃ a b, (port s p).out = a ++ f :: b ∧ ∀ g ∈ a, g.cls = f.cls → isPaused s p g.pcp = true ∨ frameExhausted s p g = true) ∧
  (∀ (s : State) h hs p, s.hostSigs = h :: hs → (neighbour s hostReturn).port.toNat = p → sessionOpen s = true →
    (∀ f ∈ (port s p).out, f.cls ≠ .control) → ∃ f, offerHostSignal p s = setPort p { port s p with out := (port s p).out ++ [f] } { s with hostSigs := hs } ∧
      f.cls = .control ∧ ∃ k, f.body = .kit k (hostSignalPayload h) ∧ k.kind = 3#4 ∧ k.keyId = 0 ∧ k.extDst = true) ∧
  (∀ (s : State) (p : BitVec 2) frame, (portCarries s p.toNat = false ∨ frameReason (acceptsOf s p.toNat) frame = none) →
    exec (.notForPort p frame) s = .next s) ∧
  (∀ a frame, (frameReason a frame = none ∨ ∃ r, frameReason a frame = some r ∧ 1 ≤ r ∧ r ≤ 5) ∧
    (frame.length < 64 → frameReason a frame = some 1) ∧ (64 ≤ frame.length →
      (leAt frame (frame.length - 4) 4 ≠ crc32 (frame.take (frame.length - 4)) → frameReason a frame = some 1) ∧
      (leAt frame (frame.length - 4) 4 = crc32 (frame.take (frame.length - 4)) → 1522 < frame.length → frameReason a frame = some 2))) ∧
  (∀ (s : State) (p : BitVec 2) frame reason, portCarries s p.toNat = true → frameReason (acceptsOf s p.toNat) frame = some reason →
    ∃ t, exec (.notForPort p frame) s = .next t ∧ t = { s with ports := t.ports } ∧ (∀ k, k ≠ p.toNat → port t k = port s k) ∧
      port t p.toNat = { port s p.toNat with drops := (port t p.toNat).drops } ∧ ∀ (i : Nat) (n : BitVec 64), (port s p.toNat).drops[i]? = some n →
        (port t p.toNat).drops[i]? = some (if i = reason then n + 1 else n)) ∧
  (∀ (s : State) (p : BitVec 2) times, portCarries s p.toNat = false ∨ portPfc (port s p.toNat) = false → exec (.pfcFrame p times) s = .next s) ∧
  (∀ (s : State) (p : BitVec 2) (times : List (BitVec 3 × BitVec 16)), portCarries s p.toNat = true → portPfc (port s p.toNat) = true →
    (times.map (·.1)).Nodup → ∃ ps, exec (.pfcFrame p times) s = .next (setPort p.toNat { port s p.toNat with paused := ps } s) ∧
      (∀ e ∈ times, look e.1.toNat ps = if e.2 = 0 then none else some (s.clk.cycle + pauseCycles s p.toNat e.2.toNat)) ∧
      ∀ k : Nat, (∀ e ∈ times, e.1.toNat ≠ k) → look k ps = look k (port s p.toNat).paused) ∧
  (∀ (s : State) (p : BitVec 2), exec (.pauseFrame p) s = .next s) ∧
  (∀ (s : State) (p : BitVec 2) (pr : BitVec 3), (look pr.toNat (port s p.toNat).paused = none → exec (.pauseTimeExpired p pr) s = .next s) ∧
    ∀ n, look pr.toNat (port s p.toNat).paused = some n → exec (.pauseTimeExpired p pr) s =
      .next (setPort p.toNat { port s p.toNat with paused := del pr.toNat (port s p.toNat).paused }
        { s with clk := { s.clk with cycle := max s.clk.cycle n } }))

/-- Link losses take a port, a lane group or a die link out and raise their error, and LINK_UP brings a port back
(12_ports.md R415, 12_ports.md Table 12-13, 15_errors.md R485, 15_errors.md Table 15-4). -/
def Obligations.LinksAndCodewords : Prop :=
  (∀ (s : State) (p : BitVec 2), (portCarries s p.toNat = false → exec (.portLinkDown p) s = .next s ∧ exec (.uncorrectedCodeword p) s = .next s) ∧
    (portCarries s p.toNat = true → exec (.portLinkDown p) s = .next (emitErr ⟨6, 1, laneUid s p.toNat, 0, 0, 0xff, false, true⟩
        (setPort p.toNat { port s p.toNat with linkUp := false, retraining := true } s)) ∧
      portCarries (setPort p.toNat { port s p.toNat with linkUp := false, retraining := true } s) p.toNat = false ∧
      ∃ n, exec (.uncorrectedCodeword p) s = .next (tickEvent ⟨6, 2, (laneUid s p.toNat).toNat, 0xff, p.toNat, 0, 1⟩
        { setPort p.toNat { port s p.toNat with drops := modifyAt (fun d => d + BitVec.ofNat 64 n) 1 (port s p.toNat).drops } s with freeCtr := s.freeCtr + 1 })) ∧
    (portUp s p.toNat = true → portUnderTest s p.toNat = false →
      exec (.linkUp p) s = .next (setPort p.toNat { port s p.toNat with linkUp := true, retraining := false } s) ∧
      portCarries (setPort p.toNat { port s p.toNat with linkUp := true, retraining := false } s) p.toNat = true) ∧
    ((portUp s p.toNat = false ∨ portUnderTest s p.toNat = true) → exec (.linkUp p) s = .next s)) ∧
  (∀ (s : State) (die peer : BitVec 2) (g : BitVec 4) u, u = uid die.toNat 13 0 peer.toNat g.toNat →
    (die ≠ peer → u ∉ s.lanesDown → exec (.linkLaneDown die peer g) s = .next (emitErr ⟨8, 2, u, 0, 0, 0xff, true, true⟩ { s with lanesDown := s.lanesDown ++ [u] })) ∧
    ((die = peer ∨ u ∈ s.lanesDown) → exec (.linkLaneDown die peer g) s = .next s)) ∧
  (∀ (s : State) (die peer : BitVec 2) n, n = linkNumber die.toNat peer.toNat →
    (die ≠ peer → n ∉ s.linksDown → exec (.linkDown die peer) s = .next (emitErr ⟨8, 3, linkUid die.toNat peer.toNat, 0, 0, 0xff, true, false⟩
      { s with linksDown := s.linksDown ++ [n] })) ∧
    ((die = peer ∨ n ∈ s.linksDown) → exec (.linkDown die peer) s = .next s))

/-- BLOTTER_SET gives the ring and BLOTTER_READ reads records, SELFTEST_RUN and its segments end in a verdict, a
lockstep error halts the Quill (15_errors.md R470, 15_errors.md R471, 15_errors.md R472, 15_errors.md R474, 15_errors.md
R478, 15_errors.md R479, 15_errors.md R480, 15_errors.md Table 15-4, 13_mailboxes.md Table 13-12). -/
def Obligations.BlotterAndSelfTests : Prop :=
  (∀ s r (dva : BitVec 64) (n : BitVec 32) (c : BitVec 16), heard s r 0x0701 16 = true → (c = 0xffff#16 ∨ c.toNat < 16384) →
    (ringSizeOk n.toNat = true → sessionRange s dva.toNat n.toNat 2 = true → (c = 0xffff#16 ∨ cellHeld s c.toNat = true) →
      ∃ u, exec (.blotterSet r dva n c) s = .next (answer r 0x0701 St.ok 0 [] u) ∧ 
        u.blot = { s.blot with store := [], ring := some (dva.toNat, n.toNat, s.blot.written - s.blot.store.length), notice := if c = 0xffff#16 then none else some c.toNat } ∧
        u.mem = (copyStore dva.toNat n.toNat s).mem ∧ (s.blot.store = [] → u.mem = s.mem) ∧ u = { s with blot := u.blot, mem := u.mem, pages := u.pages }) ∧
    ((ringSizeOk n.toNat = false ∨ sessionRange s dva.toNat n.toNat 2 = false) →
      exec (.blotterSet r dva n c) s = .next (answer r 0x0701 St.memoryRefused dva.toNat [] s)) ∧
    (ringSizeOk n.toNat = true → sessionRange s dva.toNat n.toNat 2 = true → c ≠ 0xffff#16 → cellHeld s c.toNat = false →
      exec (.blotterSet r dva n c) s = .next (answer r 0x0701 St.cellRefused 0 [] s))) ∧
  (∀ s r (first : BitVec 32), heard s r 0x0702 8 = true → ∃ start n, n = min 110 (s.blot.written - start) ∧
    exec (.blotterRead r first) s = .next (answer r 0x0702 St.ok 0 (payload [.num 4 (start + n), .num 4 n,
      .elems ((List.range n).map fun i => recordAt s (start + i))]) s) ∧
    (s.blot.written < 2 ^ 31 → first.toNat < s.blot.written → oldestRecord s ≤ first.toNat → start = first.toNat) ∧
    (s.blot.written < 2 ^ 31 → first.toNat < oldestRecord s → oldestRecord s ≤ s.blot.written → start = oldestRecord s)) ∧
  (∀ s r (u : BitVec 16), heardP s r 0x0703 8 = true → unitOk u = true → deviceLevel u = false →
    (uidCluster u < 12 → (cluster s (uidClusterIndex u)).off = false) →
    ((∀ t ∈ s.tests, t.unit ≠ u) → ∃ t, exec (.selftestRun r u) s = .next (acceptCmd r 0x0703 (.selftest u) [] { s with tests := s.tests ++ [t] }) ∧
      t.unit = u ∧ t.host = true ∧ t.done = 0 ∧ t.failing = 0 ∧ t.answered = 0) ∧
    ((∃ t ∈ s.tests, t.unit = u) → exec (.selftestRun r u) s = .next (answer r 0x0703 St.selftestBusy 0 [] s))) ∧
  (∀ (s : State) (u : BitVec 16) (n : BitVec 32), (∀ t ∈ s.tests, t.unit ≠ u) → exec (.selftestSegment u n) s = .next s ∧ exec (.selftestDeferred u) s = .next s) ∧
  (∀ (s : State) (u : BitVec 16) (n : BitVec 32) t, s.tests.find? (fun t => t.unit == u) = some t →
    (segmentMayRun s t = false → exec (.selftestSegment u n) s = .next s) ∧
    (segmentMayRun s t = true → t.done + 1 < testSegments u → ∃ v, exec (.selftestSegment u n) s = .next v ∧
      v = { s with tests := v.tests, clk := { s.clk with cycle := s.clk.cycle + segmentCycles u } } ∧
      v.tests.find? (fun t => t.unit == u) = some { t with done := t.done + 1, failing := t.failing + n.toNat }) ∧
    (segmentMayRun s t = true → testSegments u ≤ t.done + 1 → ∃ v again, (∀ x ∈ again, x.unit = u ∧ x.host = false ∧ x.answered = t.nextCount) ∧
      again.length = (if t.nextCount = 0 then 0 else 1) ∧
      v = noteReserves (noticeAdd (writeRec (errPack (ptpNs v % 2 ^ 64) (if t.answered = 0 then 0 else t.first + 2 ^ 32 * t.answered)
          (t.failing + n.toNat) u.toNat 0xff (if 0 < t.failing + n.toNat then 3 else 2) (ruledUses s u) 10 1)
        { s with tests := (s.tests.filter fun x => x.unit != u) ++ again, clk := { s.clk with cycle := s.clk.cycle + segmentCycles u } })) ∧
      exec (.selftestSegment u n) s = .next (if t.host then finalAnswer (fun k => k == .selftest u) St.ok 0
        (payload [.num 1 (b2n (decide (0 < t.failing + n.toNat)))]) v else v)) ∧
    (t.deferred = true → exec (.selftestDeferred u) s = .next s) ∧
    (t.deferred = false → exec (.selftestDeferred u) s = .next (emitErr ⟨10, 2, u, 0, t.done, 0xff, false, false⟩
      { s with tests := s.tests.map (fun x => if x.unit == u then { t with deferred := true } else x),
               clk := { s.clk with cycle := max s.clk.cycle (t.since + 1900000000) } }))) ∧
  (∀ s : State, (s.halted = true → exec .quillLockstep s = .next s) ∧ (s.halted = false →
    exec .quillLockstep s = .next (emitErr ⟨10, 4, quillUid, 0, 0, 0xff, false, false⟩ { s with halted := true }) ∧
    goustUp (emitErr ⟨10, 4, quillUid, 0, 0, 0xff, false, false⟩ { s with halted := true }) = false))

/-- MATCH_WRITE and MATCH_TAGS write entries and row tags of a plan's region and no other, MATCH_READ reads entries back
(08_selection_match.md R281, 08_selection_match.md R282, 08_selection_match.md R283, 08_selection_match.md Table 8-5,
13_mailboxes.md Table 13-15). -/
def Obligations.MatchCommands : Prop :=
  (∀ s r (slot : Byte) (region first : BitVec 16) (imgs : List (BitVec 320)), heard s r 0x0A01 (8 + 40 * imgs.length) = true → slot.toNat ≤ 63 →
    imgs.length ≤ 88 → (∀ i ∈ imgs, ∀ e ∈ badImage 0 i, e.2 = false) →
    (matchState s slot.toNat = false → exec (.matchWrite r slot region first imgs) s = .next (answer r 0x0A01 St.planState 0 [] s)) ∧
    (matchState s slot.toNat = true → matchRegion s slot.toNat region.toNat first.toNat imgs.length = none →
      exec (.matchWrite r slot region first imgs) s = .next (answer r 0x0A01 St.region 0 [] s)) ∧
    (∀ b, matchState s slot.toNat = true → matchRegion s slot.toNat region.toNat first.toNat imgs.length = some b →
      ∃ u, exec (.matchWrite r slot region first imgs) s = .next (answer r 0x0A01 St.ok 0 [] u) ∧ u = { s with matchUnits := u.matchUnits } ∧
        (∀ (i : Nat) (x : BitVec 320), imgs[i]? = some x → matchEntry (matchUnit u b.index) (b.base + first.toNat + i) = x) ∧
        (∀ j, (j < b.base + first.toNat ∨ b.base + first.toNat + imgs.length ≤ j) →
          matchEntry (matchUnit u b.index) j = matchEntry (matchUnit s b.index) j) ∧
        (matchUnit u b.index).tags = (matchUnit s b.index).tags ∧ ∀ k, k ≠ b.index → matchUnit u k = matchUnit s k)) ∧
  (∀ s r (slot : Byte) (region first : BitVec 16) (ts : List Byte), heard s r 0x0A02 (alignUp (8 + ts.length) 8) = true → slot.toNat ≤ 63 →
    (matchState s slot.toNat = false → exec (.matchTags r slot region first ts) s = .next (answer r 0x0A02 St.planState 0 [] s)) ∧
    (matchState s slot.toNat = true → matchRegion s slot.toNat region.toNat (64 * first.toNat) (64 * ts.length) = none →
      exec (.matchTags r slot region first ts) s = .next (answer r 0x0A02 St.region 0 [] s)) ∧
    (∀ b, matchState s slot.toNat = true → matchRegion s slot.toNat region.toNat (64 * first.toNat) (64 * ts.length) = some b →
      ∃ u, exec (.matchTags r slot region first ts) s = .next (answer r 0x0A02 St.ok 0 [] u) ∧ u = { s with matchUnits := u.matchUnits } ∧
        (∀ (i : Nat) (x : Byte), ts[i]? = some x → matchTag (matchUnit u b.index) (b.base / 64 + first.toNat + i) = x.toNat) ∧
        (∀ j, (j < b.base / 64 + first.toNat ∨ b.base / 64 + first.toNat + ts.length ≤ j) →
          matchTag (matchUnit u b.index) j = matchTag (matchUnit s b.index) j) ∧
        (matchUnit u b.index).entries = (matchUnit s b.index).entries ∧ ∀ k, k ≠ b.index → matchUnit u k = matchUnit s k)) ∧
  (∀ s r (slot : Byte) (region first n : BitVec 16), heard s r 0x0A03 8 = true → slot.toNat ≤ 63 → n.toNat ≤ 88 →
    (matchRegion s slot.toNat region.toNat first.toNat n.toNat = none →
      exec (.matchRead r slot region first n) s = .next (answer r 0x0A03 St.region 0 [] s)) ∧
    (∀ b, matchRegion s slot.toNat region.toNat first.toNat n.toNat = some b → exec (.matchRead r slot region first n) s =
      .next (answer r 0x0A03 St.ok 0 ((List.range n.toNat).flatMap fun i =>
        le 40 (matchEntry (matchUnit s b.index) (b.base + first.toNat + i)).toNat) s)))

/-- POWER_CAP_SET accepts 1,000,000 to 2,400,000 mW and nothing else, and the controller compares every 100 µs
(16_power_module.md R504). -/
def Obligations.PowerCap : Prop :=
  (∀ s r (cap : BitVec 32), heard s r 0x0802 8 = true → 1000000 ≤ cap.toNat → cap.toNat ≤ 2400000 →
    exec (.powerCapSet r cap) s = .next (answer r 0x0802 St.ok 0 [] { s with pwr := { s.pwr with cap := cap } })) ∧
  (∀ s r (cap : BitVec 32), heard s r 0x0802 8 = true → (cap.toNat < 1000000 ∨ 2400000 < cap.toNat) →
    exec (.powerCapSet r cap) s = .next (answer r 0x0802 St.capRange 0 [] s)) ∧
  (∀ (s : State) (m h c : BitVec 32), powered s = true → ∃ t, exec (.powerComparison m h c) s = .next t ∧ t.clk.cycle % 190000 = 0 ∧
    s.clk.cycle < t.clk.cycle ∧ t.clk.cycle ≤ s.clk.cycle + 190000 ∧ t.pwr.moduleMw = m ∧ t.pwr.cap = s.pwr.cap ∧
    (s.pwr.cap.toNat < m.toNat → t.pwr.f = s.pwr.f - 16 ∨ t.pwr.f = 0 ∧ s.pwr.thermHold = true))

/-- POWER_STATE_SET and RESET do what Tables 16-6 and 16-7 say or are refused, a warm reset unloads every plan and keeps
the session (16_power_module.md R496, 16_power_module.md R497, 16_power_module.md R498, 16_power_module.md R499,
16_power_module.md R500, 16_power_module.md R502, 16_power_module.md Table 16-6, 16_power_module.md Table 16-7,
16_power_module.md Table 16-8, 13_mailboxes.md R430). -/
def Obligations.PowerStatesAndResets : Prop :=
  (∀ s r (target : Byte) (mask : BitVec 64), heardP s r 0x0803 16 = true → target.toNat ≤ 3 → (2 ≤ target.toNat → mask.toNat < 2 ^ 48) →
    ∃ K, (∀ k, K k = true ↔ ∃ a b, k = PendKind.power a b) ∧
    (target = 0 → ∃ u, exec (.powerStateSet r target mask) s = .next (finalAnswer K St.ok 0 [] (acceptCmd r 0x0803 (.power 0 mask.toNat) [] u)) ∧
      (s.pwr.state ≠ .dormant → u = s) ∧ (s.pwr.state = .dormant → u.pwr.state = .run ∧ u.plans.length = s.plans.length ∧ u.ports = s.ports ∧
        u.sec = s.sec ∧ u.allocs = s.allocs ∧ ∀ c ∈ u.mem, c.1 / 2 ^ 53 = 1)) ∧
    (target = 1 → (∀ e ∈ s.plans, e.2.state = .loaded ∧ e.2.rebind = none) → exec (.powerStateSet r target mask) s =
      .next (finalAnswer K St.ok 0 [] (acceptCmd r 0x0803 (.power 1 mask.toNat) [] { s with pwr := { s.pwr with state := .dormant } }))) ∧
    (target = 1 → (∃ e ∈ s.plans, e.2.state ≠ .loaded ∨ e.2.rebind.isSome = true) → exec (.powerStateSet r target mask) s =
      .next (finalAnswer K St.ok 0 [] (answer r 0x0803 St.stateRefused 0 [] s))) ∧
    (target = 2 → (∀ k, k < 48 → bitAt mask.toNat k = true → k ≠ 11 ∧ k ≠ 0 ∧ k ≠ 24 ∧ clusterHeld s k = false) →
      ∃ u, exec (.powerStateSet r target mask) s = .next (finalAnswer K St.ok 0 [] (acceptCmd r 0x0803 (.power 2 mask.toNat) [] u)) ∧
        (∀ k, k < 48 → bitAt mask.toNat k = true → cluster u k = { Cluster.reset with off := true } ∧ matchUnit u k = ⟨[], []⟩) ∧
        (∀ k, (48 ≤ k ∨ bitAt mask.toNat k = false) → cluster u k = cluster s k ∧ matchUnit u k = matchUnit s k) ∧
        u = { s with mem := u.mem, sched := u.sched, matchUnits := u.matchUnits, nibs := u.nibs, lines := u.lines, poolCorr := u.poolCorr }) ∧
    (target = 2 → (∃ k, k < 48 ∧ bitAt mask.toNat k = true ∧ (k = 11 ∨ k = 0 ∨ k = 24 ∨ clusterHeld s k = true)) →
      exec (.powerStateSet r target mask) s = .next (finalAnswer K St.ok 0 [] (answer r 0x0803 St.stateRefused 0 [] s))) ∧
    (target = 3 → ∃ u, exec (.powerStateSet r target mask) s = .next (finalAnswer K St.ok 0 [] (acceptCmd r 0x0803 (.power 3 mask.toNat) [] u)) ∧
      (∀ k, k < 48 → bitAt mask.toNat k = true → cluster u k = { cluster s k with off := false }) ∧
      (∀ k, (48 ≤ k ∨ bitAt mask.toNat k = false) → cluster u k = cluster s k) ∧ u = { s with mem := u.mem, sched := u.sched })) ∧
  (∀ s r (kind : Byte) (target : BitVec 16), heardP s r 0x0804 8 = true → ∃ K, (∀ k, K k = true ↔ ∃ a b, k = PendKind.reset a b ∧ a ≠ 2) ∧
    (kind = 1 → target = 0 → exec (.reset r kind target) s =
      .next (finalAnswer K St.ok 0 [] (acceptCmd r 0x0804 (.reset 1 0) [] { s with pwr := { s.pwr with warm := true } }))) ∧
    (kind = 2 → target.toNat ≤ 63 → (plan? s target.toNat = none ∨ ∃ p, plan? s target.toNat = some p ∧ p.state = .retiring) →
      exec (.reset r kind target) s = .next (finalAnswer K St.ok 0 [] (answer r 0x0804 St.stateRefused 0 [] s))) ∧
    (∀ p, kind = 2 → target.toNat ≤ 63 → plan? s target.toNat = some p → p.state ≠ .retiring → p.resetting = false → ∃ u q,
      exec (.reset r kind target) s = .next (finalAnswer K St.ok 0 [] (acceptCmd r 0x0804 (.reset 2 target.toNat) [] u)) ∧
      plan? u target.toNat = some q ∧ q.resetting = true ∧ q.state = p.state ∧ q.rebind = none ∧ q.image = p.image ∧
      ∃ a ∈ u.actions, a.act = .retirement target.toNat true) ∧
    (∀ k, kind = 3 → unitOk target = true → uidCluster target < 12 → uidEngine target = 7 → uidSub target = 8 → k = uidClusterIndex target →
      (cluster s k).off = false →
      (clusterHeld s k = false → ∃ u, exec (.reset r kind target) s = .next (finalAnswer K St.ok 0 [] (acceptCmd r 0x0804 (.reset 3 target.toNat) [] u)) ∧
        cluster u k = Cluster.reset ∧ matchUnit u k = ⟨[], []⟩ ∧ (∀ j, j ≠ k → cluster u j = cluster s j ∧ matchUnit u j = matchUnit s j) ∧
        u = { s with mem := u.mem, sched := u.sched, matchUnits := u.matchUnits, nibs := u.nibs, lines := u.lines, poolCorr := u.poolCorr }) ∧
      (clusterHeld s k = true → exec (.reset r kind target) s = .next (finalAnswer K St.ok 0 [] (answer r 0x0804 St.stateRefused 0 [] s)))) ∧
    (kind = 4 → target.toNat ≤ 3 →
      (portHeld s target.toNat = false → ∃ u, exec (.reset r kind target) s = .next (finalAnswer K St.ok 0 [] (acceptCmd r 0x0804 (.reset 4 target.toNat) [] u)) ∧
        (∀ h, h / 2 = target.toNat / 2 → (port u h).live = (port s h).cfg ∧ (port u h).cfg = (port s h).cfg ∧ (port u h).linkUp = false ∧
          (port u h).drops = List.replicate 17 0) ∧ (∀ h, h / 2 ≠ target.toNat / 2 → port u h = { port s h with bucket := (port u h).bucket, bucketAt := (port u h).bucketAt }) ∧ u = { s with ports := u.ports }) ∧
      (portHeld s target.toNat = true → exec (.reset r kind target) s = .next (finalAnswer K St.ok 0 [] (answer r 0x0804 St.stateRefused 0 [] s))))) ∧
  (∀ s : State, s.pwr.warm = false → exec .warmReset s = .next s) ∧
  (∀ s : State, s.pwr.warm = true → ∃ t, exec .warmReset s = .next t ∧ t.plans = [] ∧ t.streams = [] ∧ t.tables = [] ∧ t.tx = [] ∧ t.matchUnits = [] ∧
    t.rul.tick = 0 ∧ t.rul.cfg = s.rul.cfg ∧ t.clk.scrBase = t.clk.cycle ∧ s.clk.cycle + 19000 ≤ t.clk.cycle ∧ t.pwr.warm = false ∧
    t.allocs = s.allocs ∧ t.sec = s.sec ∧ t.neighbours = s.neighbours ∧ t.deviceNumber = s.deviceNumber ∧ t.excluded = s.excluded ∧
    (∀ c ∈ t.mem, c.1 / 2 ^ 53 = 1) ∧ (∀ e ∈ t.rx, ∃ d n, e.dest = .window d n) ∧ (∀ e ∈ t.mboxes, e.2.pend = [] ∧ e.2.outbox = []) ∧
    ∀ k, (cluster t k).off = (cluster s k).off ∧ (cluster t k).ready = [] ∧ (cluster t k).running = [])

/-- The comparison moves the fractions, CAP_UNHELD is raised once, and sensors raise, hold, end and shut down as R506 to
R510 say (16_power_module.md R486, 16_power_module.md R490, 16_power_module.md R491, 16_power_module.md R505,
16_power_module.md R506, 16_power_module.md R508, 16_power_module.md R509, 16_power_module.md R510, 16_power_module.md
Table 16-9). -/
def Obligations.PowerAndSensors : Prop :=
  (∀ (s : State) (m h c : BitVec 32), powered s = false → exec (.powerComparison m h c) s = .next s) ∧
  (∀ (s : State) (m h c : BitVec 32), powered s = true → ∃ t, exec (.powerComparison m h c) s = .next t ∧
    t = { s with clk := { s.clk with cycle := t.clk.cycle }, pwr := t.pwr } ∧ t.pwr.hbmMw = h ∧ t.pwr.computeMw = c ∧
    (s.pwr.thermHold = true → t.pwr.f = 0) ∧ (s.pwr.thermHold = false → s.pwr.cap.toNat < m.toNat → t.pwr.f = s.pwr.f - 16) ∧
    (s.pwr.thermHold = false → m.toNat ≤ s.pwr.cap.toNat → t.pwr.f = if 100 * m.toNat < 97 * s.pwr.cap.toNat then min 256 (s.pwr.f + 4) else s.pwr.f) ∧
    (s.pwr.cap.toNat < m.toNat → t.pwr.f2 = if s.pwr.f = 0 then s.pwr.f2 - 16 else s.pwr.f2) ∧
    (m.toNat ≤ s.pwr.cap.toNat → t.pwr.f2 = if 100 * m.toNat < 97 * s.pwr.cap.toNat then min 256 (s.pwr.f2 + 4) else s.pwr.f2) ∧
    (t.pwr.overSince.isSome = true ↔ t.pwr.f = 0 ∧ t.pwr.f2 = 0 ∧ s.pwr.cap.toNat < m.toNat) ∧ t.pwr.state = s.pwr.state ∧ t.pwr.inForce = s.pwr.inForce) ∧
  (∀ s : State, (s.pwr.overSince = none ∨ s.pwr.unheld = true ∨ powered s = false) → exec .capUnheld s = .next s) ∧
  (∀ (s : State) n, s.pwr.overSince = some n → s.pwr.unheld = false → powered s = true → exec .capUnheld s = .next (emitErr ⟨9, 1, quillUid, 0,
    (s.pwr.moduleMw.toNat - s.pwr.cap.toNat) / 1000, 0xff, false, false⟩
      { s with pwr := { s.pwr with unheld := true }, clk := { s.clk with cycle := max s.clk.cycle (n + 19000000) } })) ∧
  (∀ (s : State) code sensor n, (codeInForce s code sensor = true → powerRecord code sensor n s = s) ∧
    (codeInForce s code sensor = false → powerRecord code sensor n s = emitErr ⟨9, code, quillUid, sensor, n, 0xff, code == 3, false⟩
      { s with pwr := { s.pwr with inForce := s.pwr.inForce ++ [(code, sensor)] } } ∧ codeInForce (powerRecord code sensor n s) code sensor = true)) ∧
  (∀ (s : State) (c : BitVec 2) (mv : BitVec 32), (powered s = true → inWarningBand c.toNat mv.toNat = true → exec (.supplyWarningBand c mv) s =
      .next (powerRecord 3 c.toNat mv.toNat { s with pwr := { s.pwr with volts := put c.toNat mv.toNat s.pwr.volts } })) ∧
    ((powered s = false ∨ inWarningBand c.toNat mv.toNat = false) → exec (.supplyWarningBand c mv) s = .next s)) ∧
  (∀ (s : State) (c : Byte) (t : BitVec 16) (w : Int) (p : Option Int), tempLimits c.toNat = some (w, p) →
    (powered s = true → w < t.toInt → ∃ u, exec (.thermalWarn c t) s = .next u ∧ look c.toNat u.pwr.temps = some t.toInt ∧ codeInForce u 2 c.toNat = true ∧
      (p.isSome = true → u.pwr.thermHold = true ∧ u.pwr.f = 0 ∧ u = holdMargin (powerRecord 2 c.toNat t.toInt.toNat (setTemp c.toNat t.toInt s))) ∧
      (p = none → u = powerRecord 2 c.toNat t.toInt.toNat (setTemp c.toNat t.toInt s))) ∧
    ((powered s = false ∨ t.toInt ≤ w) → exec (.thermalWarn c t) s = .next s)) ∧
  (∀ (s : State) (c : Byte) (t : BitVec 32) (w p : Int), tempLimits c.toNat = some (w, some p) →
    (powered s = true → p ≤ t.toInt → ∃ u, exec (.protection c t) s = .next u ∧ u.pwr.thermHold = true ∧ u.pwr.f = 0 ∧ codeInForce u 3 c.toNat = true ∧
      u = holdMargin (powerRecord 3 c.toNat t.toInt.toNat (setTemp c.toNat t.toInt s))) ∧
    ((powered s = false ∨ t.toInt < p) → exec (.protection c t) s = .next s)) ∧
  (∀ (s : State) (c : Byte) (t : BitVec 32) (w : Int) (p : Option Int), tempLimits c.toNat = some (w, p) → ∃ u, exec (.readingReturnedToRange c t) s = .next u ∧
    u = { s with pwr := u.pwr } ∧ look c.toNat u.pwr.temps = some t.toInt ∧ (t.toInt ≤ w → codeInForce u 2 c.toNat = false) ∧
    (∀ q, p = some q → t.toInt < q → codeInForce u 3 c.toNat = false) ∧ (∀ e ∈ s.pwr.inForce, e.2 ≠ c.toNat → e ∈ u.pwr.inForce) ∧
    (allCool u = true → u.pwr.thermHold = false) ∧ (allCool u = false → u.pwr.thermHold = s.pwr.thermHold)) ∧
  (∀ (s : State) (c : Byte) (v : BitVec 32) t0 r0 r1 t1, tempLimits c.toNat = none → supplyLimits c.toNat = some (t0, r0, r1, t1) →
    ∃ u, exec (.readingReturnedToRange c v) s = .next u ∧ u = { s with pwr := u.pwr } ∧ look c.toNat u.pwr.volts = some v.toNat ∧
      (r0 ≤ v.toNat → v.toNat ≤ r1 → ∀ e ∈ u.pwr.inForce, e.2 ≠ c.toNat) ∧ ((v.toNat < r0 ∨ r1 < v.toNat) → u.pwr.inForce = s.pwr.inForce)) ∧
  (∀ (s : State) (c : Byte), sensorOk c.toNat = true → c ≠ 0x30#8 → s.pwr.state ≠ .shutdown → ∃ t, exec (.shutdown c) s = .next t ∧ t.pwr.state = .shutdown ∧
    t.boot.stage = 7#4 ∧ t.pwr.cause.toNat = c.toNat ∧ t.pwr.pwrGood = false ∧ t.blot.written = 0 ∧ t.plans = [] ∧ t.mem = [] ∧ t.sec.fuses = s.sec.fuses ∧
    goustUp t = false ∧ ∀ p, portUp t p = false) ∧
  (∀ (s : State) (a : Byte) (data : List Byte), exec (.telemetryWrite a data) s = .next { s with tlmAck := data.isEmpty }) ∧
  (∀ s : State, exec .idcode s = .next { s with jtagOut := 0x03846a3f#32 }) ∧
  (∀ (s : State) (b : Bool), exec (.bypass b) s = .next { s with jtagOut := if s.jtagBypass then 1 else 0, jtagBypass := b })

/-- From power-on the device starts by PWR_GOOD, an accepted loader and an accepted main image, and a stage with no good
copy halts it (14_security.md R438, 14_security.md R439, 14_security.md R440, 14_security.md R441, 16_power_module.md
R488, 16_power_module.md R493, 16_power_module.md R494, 16_power_module.md R495, 16_power_module.md R500,
16_power_module.md Table 16-8). -/
def Obligations.StartUp : Prop :=
  (∀ (s : State) fresh, (fresh = true ∨ s.pwr.state = .standby ∨ (s.boot.stage = 0 ∧ s.pwr.state = .run)) → ∃ t, exec (.powerOn fresh) s = .next t ∧
    t.boot.stage = 1 ∧ t.pwr.state = .run ∧ t.pwr.pwrGood = false ∧ t.sec.fuses = s.sec.fuses ∧ t.variant = s.variant ∧ t.plans = [] ∧ t.mem = [] ∧
    t.queues = deviceQueues ∧ t.rul = State.reset.rul ∧ t.mboxes = [] ∧ t.ports = [] ∧ t.blot = State.reset.blot ∧ t.freeCtr = s.freeCtr) ∧
  (∀ s : State, ¬ (s.pwr.state = .standby ∨ (s.boot.stage = 0 ∧ s.pwr.state = .run)) → exec (.powerOn false) s = .next s) ∧
  (∀ s : State, s.boot.stage ≠ 1 → exec .pwrGood s = .next s) ∧
  (∀ s : State, s.boot.stage = 1 → ∃ t, exec .pwrGood s = .next t ∧ t.boot.stage = 2 ∧ t.pwr.pwrGood = true ∧ t.pwr.state = .run ∧
    t.sec.fuses = s.sec.fuses ∧ (0 < s.sec.mr.length → mrOf t 0 = sha384 (mrOf s 0 ++ le 4 1 ++ sha384 (le 1 s.sec.fuses.revoke.toNat ++ le 1 (fusedSvn s) ++
      le 1 (b2n s.sec.fuses.debugDisable) ++ le 8 s.sec.fuses.serial.toNat))) ∧ t.sec.hbmKeys.length = 4 ∧ (∀ k ∈ t.sec.hbmKeys, k.length = 64) ∧
    t = { s with sec := t.sec, boot := t.boot, pwr := t.pwr, freeCtr := s.freeCtr + 5 }) ∧
  (∀ (s : State) p a, s.boot.stage ≠ 2 → exec (.loaderAccepted p a) s = .next s) ∧
  (∀ (s : State) p a (b : Bytes), s.boot.stage ≠ 3 → exec (.goustReady p a b) s = .next s) ∧
  (∀ (s : State) p a, s.boot.stage = 2 → imageFail s p 1 = 0 → ∃ t, exec (.loaderAccepted p a) s = .next t ∧ t.boot.stage = 3 ∧ t.boot.altLoader = false ∧
    t.sec.alternate = s.sec.alternate ∧ (1 < s.sec.mr.length → mrOf t 1 = sha384 (mrOf s 1 ++ le 4 0x10 ++ sha384 p.header)) ∧
    t = { s with sec := t.sec, boot := t.boot }) ∧
  (∀ (s : State) p a, s.boot.stage = 2 → imageFail s p 1 ≠ 0 → imageFail s a 1 = 0 → ∃ t, exec (.loaderAccepted p a) s = .next t ∧ t.boot.stage = 3 ∧
    t.boot.altLoader = true ∧ t.sec.alternate = true ∧ t.boot.fail.toNat = imageFail s p 1 ∧
    (unnoted s = none → s.blot.notice = none → t.blot.written = s.blot.written + 1)) ∧
  (∀ (s : State) p a, s.boot.stage = 2 → imageFail s p 1 ≠ 0 → imageFail s a 1 ≠ 0 → ∃ t, exec (.loaderAccepted p a) s = .next t ∧ t.halted = true ∧
    t.boot.stage = 6 ∧ t.boot.fail.toNat = imageFail s a 1 ∧ goustUp t = false) ∧
  (∀ (s : State) p a (b : Bytes), s.boot.stage = 3 → imageFail s p 2 ≠ 0 → imageFail s a 2 ≠ 0 → ∃ t, exec (.goustReady p a b) s = .next t ∧
    t.halted = true ∧ t.boot.stage = 6 ∧ t.boot.fail.toNat = imageFail s a 2 ∧ t.ports = s.ports) ∧
  (∀ (s : State) p a (b : Bytes), s.boot.stage = 3 → imageFail s p 2 = 0 → ∃ t, exec (.goustReady p a b) s = .next t ∧ t.boot.stage = 5 ∧ t.boot.altMain = false ∧
    t.booted.major.toNat = leAt p.header 16 2 ∧ t.booted.minor.toNat = leAt p.header 18 2 ∧ t.booted.patch.toNat = leAt p.header 20 2 ∧
    (2 < s.sec.mr.length → mrOf t 2 = sha384 (mrOf s 2 ++ le 4 0x20 ++ sha384 p.header)) ∧ (s.halted = false → s.pwr.state = .run → goustUp t = true) ∧
    (s.sec.alternate = true → t.sec.fuses = s.sec.fuses) ∧
    (bringupOk s b = true → t.boot.bringup = 1 ∧ (port t 0).cfg.toNat = leAt b 8 8 ∧ (port t 0).live = (port t 0).cfg ∧ (port t 0).ip = slice b 16 16 ∧
      (port t 2).cfg.toNat = leAt b 32 8 ∧ (port t 2).live = (port t 2).cfg ∧ (port t 2).ip = slice b 40 16) ∧
    (bringupOk s b = false → t.boot.bringup = 2 ∧ t.ports = s.ports)) ∧
  (∀ (s : State) p a (b : Bytes), s.boot.stage = 3 → imageFail s p 2 ≠ 0 → imageFail s a 2 = 0 → ∃ t, exec (.goustReady p a b) s = .next t ∧ t.boot.stage = 5 ∧
    t.boot.altMain = true ∧ t.sec.alternate = true ∧ t.sec.fuses = s.sec.fuses ∧ t.boot.fail.toNat = imageFail s p 2) ∧
  (∀ s : State, s.boot.stage = 0 → exec .modResetN s = .next s) ∧
  (∀ s : State, s.boot.stage ≠ 0 → exec .modResetN s = .next { s with pwr := { s.pwr with state := .held } } ∧
    ∀ p, portUp { s with pwr := { s.pwr with state := .held } } p = false) ∧
  (∀ s : State, s.pwr.state ≠ .held → exec .modResetRelease s = .next s) ∧
  (∀ s : State, s.pwr.state = .held → ∃ t, exec .modResetRelease s = .next t ∧ t.boot.stage = (if s.pwr.pwrGood then 2 else 1) ∧ t.pwr.state = .run ∧
    t.pwr.pwrGood = s.pwr.pwrGood ∧ t.sec.fuses = s.sec.fuses ∧ t.plans = [] ∧ t.sec.slots = [] ∧ t.mem = [] ∧ t.deviceNumber = 0) ∧
  (∀ s : State, ∃ t, exec .standby s = .next t ∧ t.pwr.state = .standby ∧ t.pwr.cause = s.pwr.cause ∧ t.boot.stage = 0 ∧ t.sec.fuses = s.sec.fuses ∧ t.plans = [] ∧
    t.sec.slots = [] ∧ t.mem = [] ∧ goustUp t = false)

/-- A stage begins on a group only under R96; each of the 20 stage commands that may begin, and need not wait, ends its
stage on the group and hands it on (03_plans.md, 05_relational.md, 07_embeddings.md). -/
def Obligations.StagesEnd : Prop :=
  (∀ i r e sd op (s : State), stageOf i = some (r, e, sd, op) → (∀ c, ¬ stageReady r e sd op c s) → exec i s = .next s) ∧
  (∀ (r : StageRef) (s : State) c, stageCtx r s = some c → plan? s r.slot.toNat = some c.plan ∧ ligOf c.plan r.lig.toNat = some c.lig ∧
    c.lig.stages[r.stage.toNat]? = some c.st ∧ c.k = r.stage.toNat ∧ c.slot = r.slot.toNat ∧ (∃ k, findRunning s c.task = some (k, c.run)) ∧
    r.group.toNat < c.lig.groups ∧ c.grp.num = r.group.toNat ∧ c.grp.next = c.k ∧ (nibsOf c.lig)[r.group.toNat % (nibsOf c.lig).length]? = some c.nib ∧
    (r.group.toNat < (nibsOf c.lig).length ∨ ∃ x ∈ nibGroups s (c.core * 8 + c.nib), x.started = c.run.started ∧
      x.num + (nibsOf c.lig).length = r.group.toNat ∧ c.lig.stages.length ≤ x.next)) ∧
  (∀ c o, (c.lig.ruled = false ∨ c.lig.maxRows = 0 ∨ o.grp.rows ≤ c.lig.maxRows ∨ c.k ≠ 0 ∧ c.lig.maxRows < c.grp.rows) →
    endStage c none o = putGroup (c.core * 8 + c.nib) { o.grp with next := c.k + 1, outBytes := min o.out.length c.st.outLen }
      (writeFree o.st (padDva c.core (winOff c.lig c.nib + c.st.outOff)) (o.out.take c.st.outLen))) ∧
  (∀ c o, c.lig.ruled = true → c.lig.maxRows ≠ 0 → c.lig.maxRows < o.grp.rows → (c.k = 0 ∨ c.grp.rows ≤ c.lig.maxRows) →
    endStage c none o = putGroup (c.core * 8 + c.nib) { o.grp with next := c.k + 1, outBytes := min o.out.length c.st.outLen }
      (emitErr ⟨2, 14, coreUid c.core c.st.engine, c.task, o.grp.rows - c.lig.maxRows, c.slot, true, false⟩
        (writeFree o.st (padDva c.core (winOff c.lig c.nib + c.st.outOff)) (o.out.take c.st.outLen)))) ∧
  (∀ c o sub, ∃ g, g ∈ nibGroups (endStage c (some sub) o) (c.core * 8 + c.nib) ∧ g.next = c.k + 1 ∧ (∀ b ∈ g.valid, b = false) ∧
    ∀ x ∈ g.cols, ∀ v ∈ x.rows, v.present = false ∧ v.blot = true) ∧
  (∀ (s : State) r c, stageReady r 0 0 1 c s → ∃ o, exec (.filter r) s = .next (endStage c r.check o) ∧ stageDone c s (endStage c r.check o)) ∧
  (∀ (s : State) r c, stageReady r 0 0 2 c s → ∃ o, exec (.filterCompact r) s = .next (endStage c r.check o) ∧ stageDone c s (endStage c r.check o)) ∧
  (∀ (s : State) r c, stageReady r 1 0 1 c s → ∃ o, exec (.hash r) s = .next (endStage c r.check o) ∧ stageDone c s (endStage c r.check o)) ∧
  (∀ (s : State) r c, stageReady r 1 0 2 c s → (newRelease c (joinOf s c.slot (joinAt c.plan.image.blob c.st.param).table) = false ∨ probing s c (joinAt c.plan.image.blob c.st.param).table = false) →
    ∃ o, exec (.joinBuild r) s = .next (endStage c r.check o) ∧ stageDone c s (endStage c r.check o)) ∧
  (∀ (s : State) r c, stageReady r 1 0 3 c s → probeReady s c (joinAt c.plan.image.blob c.st.param).table (joinOf s c.slot (joinAt c.plan.image.blob c.st.param).table) = true →
    ∃ o, exec (.joinProbe r) s = .next (endStage c r.check o) ∧ stageDone c s (endStage c r.check o)) ∧
  (∀ (s : State) r c, stageReady r 1 0 4 c s → ∃ o, exec (.groupPartial r) s = .next (endStage c r.check o) ∧ stageDone c s (endStage c r.check o)) ∧
  (∀ (s : State) r c, stageReady r 1 0 5 c s → tableSealed c.plan 4 (joinAt c.plan.image.blob c.st.param).table (joinOf s c.slot (joinAt c.plan.image.blob c.st.param).table) = true →
    ∃ o, exec (.groupMerge r) s = .next (endStage c r.check o) ∧ stageDone c s (endStage c r.check o)) ∧
  (∀ (s : State) r c, stageReady r 2 0 1 c s → ∃ o, exec (.shape r) s = .next (endStage c r.check o) ∧ stageDone c s (endStage c r.check o)) ∧
  (∀ (s : State) r c, stageReady r 2 0 2 c s → earlierDone c s = true → ∃ o, exec (.stats r) s = .next (endStage c r.check o) ∧ stageDone c s (endStage c r.check o)) ∧
  (∀ (s : State) r c, stageReady r 2 0 3 c s → ∃ o, exec (.spectral r) s = .next (endStage c r.check o) ∧ stageDone c s (endStage c r.check o)) ∧
  (∀ (s : State) r c, stageReady r 5 0 1 c s → ∃ o, exec (.layers r) s = .next (endStage c r.check o) ∧ stageDone c s (endStage c r.check o)) ∧
  (∀ (s : State) r c, stageReady r 3 0 1 c s → ∃ o, exec (.topk r) s = .next (endStage c r.check o) ∧ stageDone c s (endStage c r.check o)) ∧
  (∀ (s : State) r c, stageReady r 3 0 2 c s → ∃ o, exec (.merge r) s = .next (endStage c r.check o) ∧ stageDone c s (endStage c r.check o)) ∧
  (∀ (s : State) r c, stageReady r 3 0 3 c s → ∃ o, exec (.argmax r) s = .next (endStage c r.check o) ∧ stageDone c s (endStage c r.check o)) ∧
  (∀ (s : State) r c par, stageReady r 3 0 4 c s → boundOf c.plan 9 (matchAt c.plan.image.blob c.st.param).region ≠ none →
    ∃ o, exec (.match_ r par) s = .next (endStage c r.check o) ∧ stageDone c s (endStage c r.check o)) ∧
  (∀ (s : State) r c par, stageReady r 3 0 5 c s → boundOf c.plan 9 (leAt (slice c.plan.image.blob c.st.param 8) 6 2) ≠ none →
    ∃ o, exec (.automaton r par) s = .next (endStage c r.check o) ∧ stageDone c s (endStage c r.check o)) ∧
  (∀ (s : State) r c, stageReady r 4 0 1 c s → ∃ o, exec (.lookup r) s = .next (endStage c r.check o) ∧ stageDone c s (endStage c r.check o)) ∧
  (∀ (s : State) r c, stageReady r 4 0 2 c (noteTry r s) → (c.plan.image.ruled = true ∨ ∀ tc, tableCtx (noteTry r s) c.slot (gatherAt c.plan.image.blob c.st.param).table = some tc →
      c.lig.groups = 1 ∧ poolWaits (tableOf (noteTry r s) c.slot (gatherAt c.plan.image.blob c.st.param).table) (c.core / 96)
        (c.grp.tick.getD (nowTick (noteTry r s)) - tc.d.lag) (areaBags (noteTry r s) (areaDva c (gatherAt c.plan.image.blob c.st.param)
          (c.grp.tick.getD (nowTick (noteTry r s)) - tc.d.lag)) (gatherAt c.plan.image.blob c.st.param).handleBytes) = false) →
    ∃ o, exec (.pool r) s = .next (endStage c r.check o) ∧ stageDone c s (endStage c r.check o)) ∧
  (∀ (s : State) r c, stageReady r 4 0 3 c s → (∀ tc es, tableCtx s c.slot (gatherAt c.plan.image.blob c.st.param).table = some tc →
      Bag.entries es ∈ bagsOf c (gatherAt c.plan.image.blob c.st.param) tc.d → ∀ n w a od, (Entry.row n, w) ∈ es →
        rowPlace s tc (some (c.core / 96)) n = .here od a → (translate s a).isSome = true ∧ Machine.reaches s (c.core / 96) od = true) →
    ∃ o, exec (.poolDirect r) s = .next (endStage c r.check o) ∧ stageDone c s (endStage c r.check o)) ∧
  (∀ (s : State) r c, stageReady r 4 0 4 c s → ∃ o, exec (.update r) s = .next (endStage c r.check o) ∧ stageDone c s (endStage c r.check o))

/-- FILTER writes its predicate's bitmaps, FILTER_COMPACT keeps rows, HASH gives one column, the JOIN and GROUP stages keep
and read a table (05_relational.md). -/
def Obligations.RelationalStages : Prop :=
  (∀ (s : State) r c p, stageReady r 0 0 1 c s → p = predAt c.plan.image.blob c.st.param →
    exec (.filter r) s = .next (endStage c r.check ⟨c.grp, bitmapPair (predEval c s p), s⟩)) ∧
  (∀ (s : State) c p n, p.tree = [n] → (n.kind = 1 → n.col2 = 0xffff → predEval c s p = (List.range c.grp.rows).map fun i =>
      if (rowOf c n.col i).present then (compareConst c.plan.image.blob n (rowOf c n.col i), false) else (false, true)) ∧
    (n.kind = 1 → n.col2 ≠ 0xffff → predEval c s p = (List.range c.grp.rows).map fun i => if (rowOf c n.col i).present && (rowOf c n.col2 i).present then
      (compareVals n.cmp n.fmt (rowOf c n.col i) (rowOf c n.col2 i), false) else (false, true)) ∧
    (n.kind = 3 → predEval c s p = (List.range c.grp.rows).map fun i => (!(rowOf c n.col i).present, false)) ∧
    (n.kind = 4 → predEval c s p = (List.range c.grp.rows).map fun i => ((rowOf c n.col i).blot, false))) ∧
  (∀ (s : State) c p a b n, p.tree = [a, b, n] → a.kind < 16 → b.kind < 16 → n.children = 2 →
    (leafTruth c s a).length = c.grp.rows → (leafTruth c s b).length = c.grp.rows →
    (n.kind = 0x10 → predEval c s p = ((leafTruth c s a).zip (leafTruth c s b)).map fun x => (x.1.1 && x.2.1, (x.1.2 || x.2.2) && (x.1.1 || x.1.2) && (x.2.1 || x.2.2))) ∧
    (n.kind = 0x11 → predEval c s p = ((leafTruth c s a).zip (leafTruth c s b)).map fun x => (x.1.1 || x.2.1, (x.1.2 || x.2.2) && !(x.1.1 || x.2.1)))) ∧
  (∀ (s : State) r c p ts kept, stageReady r 0 0 2 c s → p = predAt c.plan.image.blob c.st.param → ts = predEval c s p →
    kept = (List.range ts.length).filter (fun i => (ts[i]?).any fun t => t.1 || (p.keepUnknown && t.2)) →
    ∃ g, exec (.filterCompact r) s = .next (endStage c r.check ⟨g, padTo 8 (le 4 kept.length) ++ padTo 8 (kept.flatMap (le 4)) ++ g.cols.flatMap columnBytes, s⟩) ∧
      g.rows = kept.length ∧ g.recs = kept.map (fun i => (c.grp.recs[i]?).getD 0) ∧ g.valid.length = kept.length ∧ g.cols.length = p.cols ∧
      (∀ j, j < p.cols → ∃ x, g.cols[j]? = some x ∧ x.fmt = (c.col (leAt c.plan.image.blob (p.colList + 2 * j) 2)).fmt ∧
        x.rows = kept.filterMap fun i => (c.col (leAt c.plan.image.blob (p.colList + 2 * j) 2)).rows[i]?) ∧ g.num = c.grp.num ∧ g.source = c.grp.source) ∧
  (∀ (s : State) r c h, stageReady r 1 0 1 c s → h = hashAt c.plan.image.blob c.st.param → ∃ x g, x = hashColumn h (hashTable s c.plan h) (h.cols.map c.col) c.grp.rows ∧
    exec (.hash r) s = .next (endStage c r.check ⟨g, columnBytes x, s⟩) ∧ g = { c.grp with cols := [x], fields := [] } ∧ x.rows.length = c.grp.rows ∧
    (∀ i, i < c.grp.rows → ∃ v, x.rows[i]? = some v ∧
      ((∃ y ∈ h.cols, (rowOf c y i).present = false) → v.present = false ∧ v.elems = []) ∧
      ((∀ y ∈ h.cols, (rowOf c y i).present = true) → v.present = true ∧ (v.blot = true ↔ ∃ y ∈ h.cols, (rowOf c y i).blot = true) ∧
        (h.func = 1 → h.reduce = 0 → v.bits = crc32c (keyBytes h.canon (h.cols.map fun y => (c.col y, rowOf c y i)))) ∧
        (h.func = 2 → h.reduce = 2 → v.bits = xxh64 h.seed (keyBytes h.canon (h.cols.map fun y => (c.col y, rowOf c y i))) % bucketCount h.n)))) ∧
  (∀ (s : State) r c jb, stageReady r 1 0 2 c s → jb = joinAt c.plan.image.blob c.st.param →
    (newRelease c (joinOf s c.slot jb.table) = true → probing s c jb.table = true → exec (.joinBuild r) s = .next s) ∧
    (newRelease c (joinOf s c.slot jb.table) = false ∨ probing s c jb.table = false → ∃ u, exec (.joinBuild r) s = .next (endStage c r.check ⟨c.grp, [], u⟩) ∧
      (joinOf u c.slot jb.table).rows = insertRows (if newRelease c (joinOf s c.slot jb.table) then [] else (joinOf s c.slot jb.table).rows) (buildRows c jb).1 ∧
      (groupsTaken c { joinOf s c.slot jb.table with
          taken := if newRelease c (joinOf s c.slot jb.table) then [] else (joinOf s c.slot jb.table).taken } = c.lig.groups →
        c.ligIx ∈ (joinOf u c.slot jb.table).done) ∧ (∀ k, k ≠ (c.slot, jb.table) → look k u.joins = look k s.joins))) ∧
  (∀ rows new : List JoinRow, rows.Pairwise (fun a b => a.row ≤ b.row) → (insertRows rows new).Pairwise (fun a b => a.row ≤ b.row) ∧
    (insertRows rows new).Perm (rows ++ new)) ∧
  (∀ (s : State) r c jb, stageReady r 1 0 3 c s → jb = joinAt c.plan.image.blob c.st.param →
    (probeReady s c jb.table (joinOf s c.slot jb.table) = false → exec (.joinProbe r) s = .next s) ∧
    (probeReady s c jb.table (joinOf s c.slot jb.table) = true → (joinOf s c.slot jb.table).full = true →
      exec (.joinProbe r) s = .next (endStage c r.check ⟨c.grp, [], s⟩)) ∧
    (probeReady s c jb.table (joinOf s c.slot jb.table) = true → (joinOf s c.slot jb.table).full = false →
      ∃ u ps, ps = (List.range c.grp.rows).map (probeRow ((joinKeys c.plan.image.blob jb).map c.col) (joinOf s c.slot jb.table)) ∧ u.joins = s.joins ∧
        u.nibs = s.nibs ∧
        ((jb.kind = 2 ∨ jb.kind = 3) → exec (.joinProbe r) s = .next (endStage c r.check ⟨c.grp, bitmapPair (ps.map (semiTruth (jb.kind == 3))), u⟩)) ∧
        (jb.kind ≠ 2 → jb.kind ≠ 3 → ∃ recs n, exec (.joinProbe r) s =
            .next (endStage c r.check ⟨c.grp, le 4 (List.length recs) ++ le 4 n ++ zeros 8 ++ recs.flatMap id, u⟩) ∧ n ≤ c.grp.rows ∧
          recs = (((ps.zip (List.range c.grp.rows)).take n).flatMap fun e => probeRecords jb.kind (joinOf s c.slot jb.table).payload e.2 e.1) ∧
          (recs.flatMap id).length ≤ c.st.outLen - 16))) ∧
  (∀ (kind n i : Nat) m, probeRecords kind n i (.rows m) = (if m = [] then (if kind = 1 then [matchRecord n none i false] else []) else
      m.map fun r => matchRecord n (some r) i false) ∧
    probeRecords kind n i .null = (if kind = 1 then [matchRecord n none i false] else []) ∧
    probeRecords kind n i .blot = (if kind = 1 then [matchRecord n none i true] else [])) ∧
  (∀ (s : State) r c jb j keys aggs, stageReady r 1 0 4 c s → jb = joinAt c.plan.image.blob c.st.param →
    j = (if newRelease c (joinOf s c.slot jb.table) then
        { joinOf s c.slot jb.table with partials := [], excluded := [], inputs := [], taken := [], done := [], full := false }
      else joinOf s c.slot jb.table) → keys = (joinKeys c.plan.image.blob jb).map c.col → aggs = aggColumns c jb →
    ∃ t, exec (.groupPartial r) s = .next (endStage c r.check ⟨c.grp, [], t⟩) ∧
      look (sourceKey c) (joinOf t c.slot jb.table).partials = some (partialList (aggs.map fun e => (e.1, e.2.fmt))
        ((c.grp.num, partRows keys aggs ((List.range c.grp.rows).filter fun i => !keyBlot (keyVals keys i) &&
            !(!keyBlot (keyVals keys i) && decide (64 < (groupHashKey jb (groupKey (keyVals keys i))).length)))) ::
          (if groupsTaken c j = 1 then [] else (look (sourceKey c) j.inputs).getD []))) ∧
      (∀ k, k ≠ sourceKey c → look k (joinOf t c.slot jb.table).partials = look k j.partials) ∧
      look (sourceKey c) (joinOf t c.slot jb.table).excluded = some ((if groupsTaken c j = 1 then 0 else (look (sourceKey c) j.excluded).getD 0) +
        ((List.range c.grp.rows).filter fun i => keyBlot (keyVals keys i)).length) ∧
      (groupsTaken c j = c.lig.groups → c.ligIx ∈ (joinOf t c.slot jb.table).done)) ∧
  (∀ (s : State) r c jb, stageReady r 1 0 5 c s → jb = joinAt c.plan.image.blob c.st.param →
    (tableSealed c.plan 4 jb.table (joinOf s c.slot jb.table) = false → exec (.groupMerge r) s = .next s) ∧
    (tableSealed c.plan 4 jb.table (joinOf s c.slot jb.table) = true → (joinOf s c.slot jb.table).full = true →
      exec (.groupMerge r) s = .next (endStage c r.check ⟨c.grp, [], s⟩)) ∧
    (∀ codes keys part gs ex spill, tableSealed c.plan 4 jb.table (joinOf s c.slot jb.table) = true → (joinOf s c.slot jb.table).full = false →
      codes = ((joinItems c.plan.image.blob jb).map (·.2)).zip (joinOf s c.slot jb.table).aggTypes →
      keys = (joinOf s c.slot jb.table).keyTypes.map (fun x => (⟨x.1, x.2.1, x.2.2, []⟩ : Column)) →
      part = ((ownerCores c.plan jb).takeWhile (· != c.core)).length → gs = mergeGroups jb codes part (joinOf s c.slot jb.table).partials →
      ex = (if part = 0 then ((joinOf s c.slot jb.table).excluded.map (·.2)).sum else 0) →
      spill = ((List.range jb.ownerCount).map fun i => pastPad jb (groupTable jb (mergeGroups jb codes i (joinOf s c.slot jb.table).partials))).sum →
      (∀ g ∈ gs, partitionOf jb (groupHashKey jb g.key) = part) ∧ (gs.map fun (g : AggGroup) => g.key).Nodup ∧
      ∃ u, (joinOf u c.slot jb.table).partials = (joinOf s c.slot jb.table).partials ∧
        (∀ k, k ≠ (c.slot, jb.table) → look k u.joins = look k s.joins) ∧
        (spill ≤ sizeOf' c.plan 4 jb.spill + sizeOf' c.plan 5 jb.hbm → exec (.groupMerge r) s = .next (endStage c r.check
          ⟨c.grp, le 4 gs.length ++ le 4 ex ++ zeros 8 ++ gs.flatMap (groupRecord keys codes), u⟩)) ∧
        (sizeOf' c.plan 4 jb.spill + sizeOf' c.plan 5 jb.hbm < spill → (joinOf u c.slot jb.table).full = true ∧
          exec (.groupMerge r) s = .next (endStage c r.check ⟨c.grp, [], u⟩))))

/-- SHAPE converts columns through its functions, STATS folds a column into a partial, SPECTRAL gives magnitudes, LAYERS
runs rows through layers (06_shaping.md, 10_samples.md). -/
def Obligations.ShapeAndMatrixStages : Prop :=
  (∀ (s : State) r c b, stageReady r 2 0 1 c s → b = shapeAt c.plan.image.blob c.st.param → ∃ g sats nans u,
    exec (.shape r) s = .next (endStage c r.check ⟨g, le 4 c.grp.rows ++ le 4 sats ++ le 4 nans ++ zeros 52 ++ shapeBytes b c.grp g.cols, u⟩) ∧
    u = { s with stats := u.stats } ∧ ((∀ en ∈ b.entries, en.ref = 0xffff ∧ en.kind ≠ 3) → u = s) ∧
    (∀ en ∈ b.entries, en.ref ≠ 0xffff → (statObj u c.slot en.ref).partials = (statObj s c.slot en.ref).partials ∧
      ∃ copy, look c.run.task.id (statObj u c.slot en.ref).pins = some (c.run.started, copy)) ∧
    g = { c.grp with cols := g.cols, fields := [] } ∧ g.cols.length = b.entries.length ∧
    ∀ (j : Nat) (en : ShapeEntry), b.entries[j]? = some en → ∃ x, g.cols[j]? = some x ∧ x.fmt = en.outFmt ∧ x.lanes = en.lanes ∧ x.rows.length = c.grp.rows ∧
      ∀ i, i < c.grp.rows → ∃ v, x.rows[i]? = some v ∧ v.present = (rowOf c en.col i).present ∧ v.blot = (rowOf c en.col i).blot ∧
        ((rowOf c en.col i).present = true → (rowOf c en.col i).blot = false → v.elems.map (·.bits) =
          ((List.range (rowOf c en.col i).elems.length).zip (rowOf c en.col i).elems).map fun e => (shapeValue (statView c s en) en (c.col en.col).fmt
            (stippleDraw (c.stipple en.opi) (i * en.lanes + e.1)) e.2.bits).bits)) ∧
  (∀ (v : StatView) (en : ShapeEntry) (f d x : Nat), (en.kind = 1 → shapeValue v en f d x = convert f en.outFmt en.rnd en.sat d x) ∧
    (en.kind = 2 → en.fn = 2 → shapeValue v en f d x = convert 0xb en.outFmt en.rnd en.sat d (fp32.fma (toFp32 f x) en.a en.b)) ∧
    (en.kind = 3 → en.fn = 0 → shapeValue v en f d x = convert 0xb en.outFmt en.rnd en.sat d
      (fp32.mul (fp32.sub (toFp32 f x) (leAt v.rec_ 4 4)) (leAt v.rec_ 12 4)))) ∧
  (∀ (s : State) r c b en p, stageReady r 2 0 2 c s → earlierDone c s = true → b = shapeAt c.plan.image.blob c.st.param → b.entries = [en] → sketchOf s c.plan en.ref = none →
    p = (((statObj s c.slot en.ref).partials.find? fun x => x.core == c.core && x.epoch == c.grp.epoch && x.col == en.statCol).getD
      (Partial.empty c.core c.grp.epoch en.statCol none)) →
    ∃ t, exec (.stats r) s = .next (endStage c r.check ⟨c.grp, [], t⟩) ∧ (∀ x, x ∈ (statObj t c.slot en.ref).partials ↔
        x = (((c.col en.col).rows.map fun v => if v.present && !v.blot then some (toFp32 (c.col en.col).fmt v.bits) else none).foldl foldValue p) ∨
        (x ∈ (statObj s c.slot en.ref).partials ∧ ¬ (x.core = c.core ∧ x.epoch = c.grp.epoch ∧ x.col = en.statCol))) ∧
      look c.core (statObj t c.slot en.ref).cores = some c.grp.epoch ∧ ∀ k, k ≠ (c.slot, en.ref) → look k t.stats = look k s.stats) ∧
  (∀ (s : State) r c, stageReady r 2 0 2 c s → earlierDone c s = false → exec (.stats r) s = .next s) ∧
  (∀ p, foldValue p none = { p with absent := p.absent + 1 } ∧ ∀ x, fp32.isNan x = true → foldValue p (some x) = { p with nonfinite := p.nonfinite + 1 }) ∧
  (∀ (s : State) r c, stageReady r 2 0 3 c s → ∃ g x l, exec (.spectral r) s = .next (endStage c r.check
      ⟨g, le 4 c.grp.rows ++ zeros 60 ++ columnBytes x, s⟩) ∧ g = { c.grp with cols := [x], fields := [] } ∧ x.fmt = 0xb ∧ x.lanes = 2 ^ l / 2 + 1 ∧
    l = byteAt (slice c.plan.image.blob c.st.param 4) 2 % 16 ∧
    x.rows.length = (c.col (leAt (slice c.plan.image.blob c.st.param 4) 0 2)).rows.length ∧
    ∀ (i : Nat) (v : Val), (c.col (leAt (slice c.plan.image.blob c.st.param 4) 0 2)).rows[i]? = some v → ∃ y, x.rows[i]? = some y ∧ y.present = v.present ∧
      y.blot = v.blot ∧ (v.present = true → v.blot = false → y.elems.map (·.bits) =
        magnitudes l (bitAt (byteAt (slice c.plan.image.blob c.st.param 4) 2) 4) (v.elems.map (·.bits)) ∧ y.elems.length = 2 ^ l / 2 + 1)) ∧
  (∀ (s : State) r c b l, stageReady r 5 0 1 c s → b = matrixAt c.plan.image.blob c.st.param → b.layers = [l] → l.kind = 1 → c.k = 0 →
    ∃ (g : Group) (out : List Bytes), exec (.layers r) s = .next (endStage c r.check ⟨g, padTo 8 (out.flatMap (fit b.outStride)) ++
        rowBitmap ((List.range b.rows).map fun i => (c.grp.valid[i]?).getD false), s⟩) ∧ out.length = b.rows ∧
      (∃ x, g = { c.grp with cols := [x], fields := [] } ∧ (b.rows ≠ 0 → x.fmt = l.outFmt) ∧ x.rows.length = b.rows ∧
        ∀ i, i < b.rows → ∃ y, x.rows[i]? = some y ∧ out[i]? = some ((y.elems.map (·.bits)).flatMap (le (typeBytes l.outFmt))) ∧ y.elems.map (·.bits) =
          denseRow l (layerData s c l) (c.stipple l.opi) i (elemsOf l.inFmt l.k (slice (c.inputBytes s) (i * b.inStride) b.inStride)))) ∧
  (∀ (l : Layer) (d : LayerData) (key i : Nat) (row : List Nat), d.w.length = l.n → (denseRow l d key i row).length = l.n ∧
    ∀ (n : Nat) (w : List Nat), l.k ≤ row.length → d.w[n]? = some w → (l.inFmt = 1 → l.outFmt = 3 → (denseRow l d key i row)[n]? =
      some (ofInt 32 (((row.take l.k).zip w).foldl (fun a e => a + intOf 1 e.1 * intOf 1 e.2) 0))) ∧
      (l.inFmt ≠ 1 → d.scale = none → d.bias = none → (denseRow l d key i row)[n]? = some (convert 0xb l.outFmt l.rnd l.sat
        (stippleDraw key (i * l.n + n)) (activate l.act (dotFp l.inFmt l.wFmt (row.take l.k) w))).bits))

/-- TOPK, MERGE and ARGMAX keep the best entries, MATCH and AUTOMATON search a region, LOOKUP, POOL, POOL_DIRECT and
UPDATE serve bags of rows (07_embeddings.md, 08_selection_match.md). -/
def Obligations.SelectMatchAndGatherStages : Prop :=
  (∀ (b : SelBlock) (es : List (Nat × Nat)), (selectBest b es).1.length = min b.k es.length ∧ (∀ x ∈ (selectBest b es).1, x ∈ es) ∧
    (selectBest b es).1.Pairwise (fun x y => better b y x = false) ∧ ∀ y ∈ es, y ∉ (selectBest b es).1 → ∀ x ∈ (selectBest b es).1, better b y x = false) ∧
  (∀ (s : State) r c b, stageReady r 3 0 1 c s → b = selAt c.plan.image.blob c.st.param → b.release = false → ∃ u, exec (.topk r) s = .next (endStage c r.check
      ⟨c.grp, padTo 8 ((groupOffers c b).flatMap fun os => listBytes b (selectBest b (validEntries b os)).1 (selectBest b (validEntries b os)).2
        (os.filter (offerSkipped b)).length) ++ rowBitmap ((List.range c.grp.rows).map fun i => (rowOf c b.col i).present) ++
        rowBitmap ((List.range c.grp.rows).map fun i => (rowOf c b.col i).blot), u⟩) ∧ u.nibs = s.nibs ∧ u.lists = s.lists ∧ (c.lig.ruled = false → u = s)) ∧
  (∀ (s : State) r c b es₀ k₀ g₀ es k, stageReady r 3 0 1 c s → b = selAt c.plan.image.blob c.st.param → b.release = true → c.lig.ruled = false →
    ((∃ l, look (c.slot, c.ligIx, c.k) s.lists = some l ∧ l.started = c.run.started ∧ es₀ = l.entries ∧ k₀ = l.skipped ∧ g₀ = l.groups) ∨
      (∀ l, look (c.slot, c.ligIx, c.k) s.lists = some l → l.started ≠ c.run.started) ∧ es₀ = [] ∧ k₀ = 0 ∧ g₀ = 0) →
    es = es₀ ++ validEntries b ((List.range c.grp.rows).map (releaseOffer c b)) →
    k = k₀ + (((List.range c.grp.rows).map (releaseOffer c b)).filter (offerSkipped b)).length →
    (g₀ + 1 = c.lig.groups → exec (.topk r) s = .next (endStage c r.check ⟨c.grp, [], writeFree { s with lists := del (c.slot, c.ligIx, c.k) s.lists }
      (padDva c.core b.outOff) (listBytes b (selectBest b es).1 (selectBest b es).2 k)⟩)) ∧
    (g₀ + 1 ≠ c.lig.groups → ∃ l', exec (.topk r) s = .next (endStage c r.check ⟨c.grp, [], { s with lists := put (c.slot, c.ligIx, c.k) l' s.lists }⟩) ∧
      l'.entries = es ∧ l'.skipped = k ∧ l'.groups = g₀ + 1 ∧ l'.started = c.run.started)) ∧
  (∀ (s : State) r c b ls, stageReady r 3 0 2 c s → b = selAt c.plan.image.blob c.st.param →
    ls = ((List.range b.lists).map fun i => inListAt b (c.inputBytes s) (i * listLen b)) → (∀ l ∈ ls, l.matches_ = true) →
    ∃ ties, exec (.merge r) s = .next (endStage c r.check ⟨c.grp, listBytes b (selectBest b (ls.flatMap fun (l : InList) => l.held)).1 ties
      (ls.map fun (l : InList) => l.skipped).sum, s⟩)) ∧
  (∀ (s : State) r c b, stageReady r 3 0 3 c s → b = selAt c.plan.image.blob c.st.param → ∃ (u : State) (best : List (Option Nat)), (c.lig.ruled = false → u = s) ∧ u.nibs = s.nibs ∧
    exec (.argmax r) s = .next (endStage c r.check ⟨c.grp, padTo 8 (best.flatMap fun (x : Option Nat) => le 4 (x.getD 0xffffffff)) ++
      rowBitmap (best.map (·.isNone)) ++ rowBitmap ((List.range c.grp.rows).map fun i => (rowOf c b.col i).present) ++
      rowBitmap ((List.range c.grp.rows).map fun i => (rowOf c b.col i).blot), u⟩) ∧ best.length = c.grp.rows ∧
    ∀ (i : Nat) (os : List Offer), (groupOffers c b)[i]? = some os → (validEntries b os = [] → best[i]? = some none) ∧
      (validEntries b os ≠ [] → ∃ e ∈ validEntries b os, best[i]? = some (some e.2) ∧ ∀ x ∈ validEntries b os, better b x e = false)) ∧
  (∀ (g : Nat) (es : List LiveEntry), (winner g es = none ↔ es = []) ∧ ∀ w, winner g es = some w → w ∈ es ∧ ∀ e ∈ es, ones (e.mask &&& g) < ones (w.mask &&& g) ∨
    (ones (e.mask &&& g) = ones (w.mask &&& g) ∧ w.index ≤ e.index)) ∧
  (∀ (s : State) r c b par, stageReady r 3 0 4 c s → b = matchAt c.plan.image.blob c.st.param →
    (boundOf c.plan 9 b.region = none → exec (.match_ r par) s = .next s) ∧
    (∀ reg, boundOf c.plan 9 b.region = some reg → b.bitmap = false → ∃ live, live = liveEntries (matchUnit s reg.index) reg.base reg.size
        (if b.pfEn then some b.prefilter else none) [] ∧
      exec (.match_ r []) s = .next (endStage c r.check ⟨c.grp, ((List.range c.grp.rows).flatMap fun i => if (rowOf c b.col i).present then
          matchRecordBytes b.miss false (matching live ((rowOf c b.col i).bits % 2 ^ 128) b.gmask) (winner b.gmask (matching live ((rowOf c b.col i).bits % 2 ^ 128) b.gmask))
          else matchRecordBytes b.miss false [] none) ++ rowBitmap ((List.range c.grp.rows).map fun i => (rowOf c b.col i).present) ++
          rowBitmap ((List.range c.grp.rows).map fun i => (rowOf c b.col i).blot), s⟩) ∧
      ∃ out u, exec (.match_ r par) s = .next (endStage c r.check ⟨c.grp, out, u⟩) ∧ u.nibs = s.nibs ∧ u.matchUnits = s.matchUnits)) ∧
  (∀ (s : State) r c par reg, stageReady r 3 0 5 c s → boundOf c.plan 9 (leAt (slice c.plan.image.blob c.st.param 8) 6 2) = some reg → ∃ u out,
    exec (.automaton r par) s = .next (endStage c r.check ⟨c.grp, out, u⟩) ∧ u.nibs = s.nibs ∧ u.matchUnits = s.matchUnits ∧
    (par = [] → c.lig.ruled = false → u = s ∧ ∀ i, i < c.grp.rows → ∃ v e, v = rowOf c (leAt (slice c.plan.image.blob c.st.param 8) 4 2) i ∧
      e = (if v.present then (autoWalk (fun _ => liveEntries (matchUnit s reg.index) reg.base reg.size none [])
        (bitAt (byteAt (slice c.plan.image.blob c.st.param 8) 0) 0) v.bytes 0 (leAt (slice c.plan.image.blob c.st.param 8) 2 2) (0xffffffff, 0)).1
        else (0xffffffff, 0)) ∧
      slice out (8 * i) 8 = le 8 (pack [(32, e.1), (8, e.2), (1, if e.1 = 0xffffffff then 0 else 1)]))) ∧
  (∀ (s : State) r c par, stageReady r 3 0 5 c s → boundOf c.plan 9 (leAt (slice c.plan.image.blob c.st.param 8) 6 2) = none → exec (.automaton r par) s = .next s) ∧
  (∀ (s : State) r c g, g = gatherAt c.plan.image.blob c.st.param → tableCtx s c.slot g.table = none →
    (stageReady r 4 0 1 c s → exec (.lookup r) s = .next (endStage c r.check ⟨c.grp, [], s⟩)) ∧
    (stageReady r 4 0 2 c s → exec (.pool r) s = .next (endStage c r.check ⟨c.grp, [], s⟩)) ∧
    (stageReady r 4 0 3 c s → exec (.poolDirect r) s = .next (endStage c r.check ⟨c.grp, [], s⟩)) ∧
    (stageReady r 4 0 4 c s → exec (.update r) s = .next (endStage c r.check ⟨c.grp, [], s⟩))) ∧
  (∀ (s : State) r c g tc n w od a, stageReady r 4 0 1 c s → g = gatherAt c.plan.image.blob c.st.param → tableCtx s c.slot g.table = some tc →
    bagsOf c g tc.d = [.entries [(.row n, w)]] → c.grp.num = 0 → (c.lig.ruled = false ∨ indexCount c g ≤ c.st.max) → (tableOf s c.slot g.table).landing = [] → (tableOf s c.slot g.table).reqs = [] →
    0 < tc.d.landRows → 32 ≤ g.handleBytes → rowHome s tc none n = .here od a → (translate s a).isSome = true → ∃ u l q,
      exec (.lookup r) s = .next (endStage c r.check ⟨c.grp, [], writeFree u (padDva c.core (g.handleOff + nowTick s % 3 * g.handleBytes))
        (le 4 1 ++ le 4 1 ++ zeros 8 ++ le 8 (pack [(32, 0), (16, 1), (1, 0), (1, 0), (1, 1)]) ++ le 8 (2 ^ 32 * w))⟩) ∧
      u = { s with tables := u.tables } ∧ (tableOf u c.slot g.table).landing = [l] ∧ l.die = c.core / 96 ∧ l.slot = 0 ∧ l.buf = nowTick s % 3 ∧ l.row = n ∧
      l.ownDie = od ∧ l.landed = false ∧ (tableOf u c.slot g.table).reqs = [q] ∧ q.rows = [(n, 0)] ∧ q.die = c.core / 96 ∧ q.ownDie = od ∧ q.tick = nowTick s) ∧
  (∀ (s : State) r c, stageReady r 4 0 2 c s → (c.plan.image.ruled = true ∨ c.grp.tick ≠ none → noteTry r s = s) ∧
    (c.plan.image.ruled = false → c.grp.tick = none → noteTry r s = { s with nibs := (noteTry r s).nibs } ∧
      stageReady r 4 0 2 { c with grp := { c.grp with tick := some (nowTick s) } } (noteTry r s))) ∧
  (∀ (s v : State) r c g tc bags n, v = noteTry r s → stageReady r 4 0 2 c v → g = gatherAt c.plan.image.blob c.st.param → tableCtx v c.slot g.table = some tc →
    c.lig.groups = 1 → n = c.grp.tick.getD (nowTick v) - tc.d.lag → bags = areaBags v (areaDva c g n) g.handleBytes →
    (c.plan.image.ruled = false → poolWaits (tableOf v c.slot g.table) (c.core / 96) n bags = true → exec (.pool r) s = .next v) ∧
    ((c.plan.image.ruled = true ∨ poolWaits (tableOf v c.slot g.table) (c.core / 96) n bags = false) → ∃ u vals,
      exec (.pool r) s = .next (endStage c r.check (poolOut c tc.d g vals u)) ∧ vals.length = bags.length ∧ u.nibs = v.nibs ∧
      (c.lig.ruled = false ∨ (bags.map fun b => b.2.length).sum ≤ c.st.max → u = { v with tables := u.tables }) ∧
      ∀ (i : Nat) (b : Nat × List (Nat × Nat)), bags[i]? = some b → (bitAt b.1 48 = true → vals[i]? = some none) ∧
        (bitAt b.1 48 = false → (bitAt b.1 49 = true ∨ ∃ e ∈ b.2, entryMissing (tableOf v c.slot g.table) (c.core / 96) n e = true) →
          vals[i]? = some (some none)) ∧
        (bitAt b.1 48 = false → bitAt b.1 49 = false → (∀ e ∈ b.2, entryMissing (tableOf v c.slot g.table) (c.core / 96) n e = false) →
          ∃ rows, vals[i]? = some (some (some (poolVector tc.d g rows))) ∧ rows.length = (b.2.filter fun e => e.1 < 0xfffffffe).length))) ∧
  (∀ (s : State) r c g tc bs, stageReady r 4 0 3 c s → g = gatherAt c.plan.image.blob c.st.param → tableCtx s c.slot g.table = some tc → bs = bagsOf c g tc.d →
    ((∃ es e n a od, Bag.entries es ∈ bs ∧ (Entry.row n, e) ∈ es ∧ rowPlace s tc (some (c.core / 96)) n = .here od a ∧
        (translate s a = none ∨ Machine.reaches s (c.core / 96) od = false)) → exec (.poolDirect r) s = .next s) ∧
    ((∀ es, Bag.entries es ∈ bs → ∀ n e a od, (Entry.row n, e) ∈ es → rowPlace s tc (some (c.core / 96)) n = .here od a →
        (translate s a).isSome = true ∧ Machine.reaches s (c.core / 96) od = true) →
      ∃ u vals, exec (.poolDirect r) s = .next (endStage c r.check (poolOut c tc.d g vals u)) ∧ u.nibs = s.nibs ∧ vals.length = bs.length ∧
        ∀ (i : Nat) (b : Bag), bs[i]? = some b → (b = .absent → vals[i]? = some none) ∧ (∀ f, b = .blotted f → vals[i]? = some (some none)) ∧
          (∀ es, b = .entries es → ∃ rows, vals[i]? = some (some (some (poolVector tc.d g rows)))))) ∧
  (∀ (s : State) r c g tc n w gv, stageReady r 4 0 4 c s → g = gatherAt c.plan.image.blob c.st.param → tableCtx s c.slot g.table = some tc →
    bagsOf c g tc.d = [.entries [(.row n, w)]] → (c.lig.ruled = false ∨ indexCount c g ≤ c.st.max) → gv = rowOf c g.grad 0 → gv.present = true → gv.blot = false →
    (∀ od a, rowHome s tc none n = .here od a → exec (.update r) s = .next (endStage c r.check
      ⟨c.grp, [], combine od tc (tableOf s tc.slot tc.ref).gen n (addends tc.d (c.col g.grad).fmt w gv.elems) s⟩)) ∧
    (∀ dev od, rowHome s tc none n = .remote dev od → ∃ u, exec (.update r) s = .next (endStage c r.check ⟨c.grp, [], u⟩) ∧ u = { s with tables := u.tables } ∧
      ∃ q ∈ (tableOf u tc.slot tc.ref).upds, q.device = dev ∧ q.ownDie = od ∧ q.tick = nowTick s ∧ (n, addends tc.d (c.col g.grad).fmt w gv.elems) ∈ q.upds))

/-- Tiles begin in order, transfers are issued with the lowest free tag and commit their bytes, and a late tag is
recorded (09_streams_memory.md). -/
def Obligations.StreamTransfers : Prop :=
  (∀ (s : State) r, (stream? s (refKey r) = none ∨ ∃ x, stream? s (refKey r) = some x ∧ (x.desc.write = true ∨ (x.state ≠ .running ∧ r.slot ≠ 0xff) ∨ x.desc.kind = 1 ∨
      x.desc.kind = 2)) → exec (.tileBegin r) s = .next s) ∧
  (∀ (s : State) r (x y : Stream) (n : Nat), stream? s (refKey r) = some x → y = restartMargin (streamPlan s (refKey r)) x → n = y.desc.ring + 1 → y.slots.length = n →
    y.desc.write = false → y.state = .running → y.desc.kind = 0 →
    (r.slot ≠ 0xff → (tilesLeft (streamPlan s (refKey r)) y = false ∨ mayWork s (refKey r) y = false ∨ takenTiles y + lookAhead y.desc ≤ y.nextTile ∨
      y.slot (y.nextTile % n) ≠ Slot.free) → exec (.tileBegin r) s = .next s) ∧
    (tilesLeft (streamPlan s (refKey r)) y = true → mayWork s (refKey r) y = true → y.nextTile < takenTiles y + lookAhead y.desc →
      y.slot (y.nextTile % n) = Slot.free → ∃ (z : Stream), exec (.tileBegin r) s = .next (setStream (refKey r) z s) ∧
        z.slot (y.nextTile % n) = { Slot.free with tile := y.nextTile + 1 } ∧ (∀ j, j ≠ y.nextTile % n → z.slot j = y.slot j) ∧
        z.nextTile = y.nextTile + 1 ∧ z.head = (y.nextTile + 1) % n ∧ z.state = .running ∧ z.tail = y.tail ∧ z.taken = y.taken ∧ z.transfers = y.transfers)) ∧
  (∀ (s : State) r (x y : Stream), r.slot = 0xff → stream? s (refKey r) = some x → y = restartMargin none x → y.desc.write = false → y.desc.kind = 0 → y.ruled = false →
    mayWork s (refKey r) y = true →
    (((y.slot y.tail).state = .ready ∨ (y.slot y.tail).state = .truncated) → (y.state ≠ .running ∨ tilesLeft none y = false) →
      exec (.tileBegin r) s = .next (setStream (refKey r) (freeSlot y y.tail) s)) ∧
    ((y.slot y.tail).state ≠ .ready → (y.slot y.tail).state ≠ .truncated → (y.state ≠ .running ∨ tilesLeft none y = false ∨ mayBegin y = false) →
      exec (.tileBegin r) s = .next (setStream (refKey r) y s)) ∧
    (((y.slot y.tail).state = .ready ∨ (y.slot y.tail).state = .truncated) → y.state = .running → tilesLeft none y = true → mayBegin y = false →
      mayBegin (freeSlot y y.tail) = true → ∃ (z : Stream), exec (.tileBegin r) s = .next (setStream (refKey r) z s) ∧ z.taken = y.taken + 1 ∧
        z.nextTile = y.nextTile + 1 ∧ z.tail = (y.tail + 1) % (y.desc.ring + 1))) ∧
  (∀ (s : State) r (x y : Stream) base, stream? s (refKey r) = some x → y = restartMargin (streamPlan s (refKey r)) x → y.desc.write = false → y.state = .running →
    y.desc.kind = 3 → tilesLeft (streamPlan s (refKey r)) y = true → mayTransfer s (refKey r) y = true → walkBaseDva (streamPlan s (refKey r)) y.desc = some base →
    ∃ (z : Stream) (u : State), exec (.tileBegin r) s = .next (setStream (refKey r) z u) ∧ u = { s with lines := u.lines } ∧ z.nextTile = y.nextTile + 1 ∧ z.done = y.done + 1 ∧ z.tiles = y.tiles + 1 ∧ z.taken = y.taken + 1 ∧
      z.skipped = y.skipped + ((absentPages s base y.desc (y.nextTile - y.walkBase)).filter fun n => !y.skipPages.contains n).length ∧ z.slots = y.slots ∧
      (z.state = .done ↔ y.desc.persist = false ∧ y.done = y.nextTile ∧ y.nextTile + 1 - y.walkBase = tileCount y.desc ∧ endless y.desc = false)) ∧
  (∀ (s : State) r b w, (stream? s (refKey r) = none ∨ ∃ x, stream? s (refKey r) = some x ∧ (issueSlot x = none ∨ x.state ≠ .running ∨ x.desc.kind ≠ 0 ∨
      (∃ q, walkQueue (streamPlan s (refKey r)) x.desc = some q ∧ (x.desc.write = true ∨ mayTransfer s (refKey r) x = false)) ∨
      (walkQueue (streamPlan s (refKey r)) x.desc = none ∧ issuesNext s (refKey r) x = false))) → exec (.transferIssue ⟨r, b, w⟩) s = .next s) ∧
  (∀ (s : State) k (x : Stream) i, (x.slot i).issued ≠ 0 ∨ rangeOut s (slotDva (streamPlan s k) x.desc i) (if x.desc.write then (x.slot i).bytes else tileBytes x.desc) = false →
    ringReport k x i s = s) ∧
  (∀ (s u : State) r bw w (x y : Stream) i base tag (dva n : Nat), stream? s (refKey r) = some x → x.state = .running → x.desc.kind = 0 → issueSlot x = some i →
    walkQueue (streamPlan s (refKey r)) x.desc = none → issuesNext s (refKey r) x = true → walkBaseDva (streamPlan s (refKey r)) x.desc = some base →
    freeTag s x = some tag → noShared s (refKey r) ∨ x.ruled = true → u = ringReport (refKey r) x i s →
    dva = walkDva base x.desc ((x.slot i).tile - 1 - x.walkBase) (readOf x.desc (x.slot i).issued) →
    n = spanOf x.desc (x.slot i).issued dva (if x.desc.write then (x.slot i).bytes else tileBytes x.desc) →
    y = x.slotMod i (fun sl => { sl with state := if x.desc.write then .draining else .filling, issued := sl.issued + n }) →
    (dva % 256 + n ≤ 256 ∧ tag < poolTags x ∧ ∀ e ∈ s.streams, samePool e.2 x = true → ∀ t ∈ e.2.transfers, t.tag ≠ tag) ∧
    (access u dva n = .ok → lineHit u (refKey r) x dva = false → ∃ (z : Stream), z = { y with transfers := x.transfers ++ [⟨tag, i, (x.slot i).issued, n, dva, s.clk.cycle, false⟩] } ∧
      exec (.transferIssue ⟨r, bw, w⟩) s = .next (shareEnd (refKey r) (setStream (refKey r) z u)) ∧
      (x.ruled = false → exec (.transferIssue ⟨r, bw, w⟩) s = .next (setStream (refKey r) z u))) ∧
    (access u dva n = .ok → lineHit u (refKey r) x dva = true → exec (.transferIssue ⟨r, bw, w⟩) s = .next (shareEnd (refKey r) (commitPiece (refKey r) i n
      (fillLines (consumerCluster (streamPlan s (refKey r)) x.desc) (lineOf u dva).toList
        (placeBytes x.desc (slotDva (streamPlan s (refKey r)) x.desc i) (x.slot i).issued (readDva u dva n) (setStream (refKey r) y u)))))) ∧
    (∀ page, access u dva n = .absent page → x.ruled = false → ∃ (t : State) (z : Stream) (f : FaultRec), exec (.transferIssue ⟨r, bw, w⟩) s = .next t ∧
      stream? t (refKey r) = some z ∧ z = { x with state := .halted, fault := some f } ∧ f.dva = dva ∧ f.committed = (x.slot i).issued ∧
      f.tile = (x.slot i).tile - 1 ∧ f.slot = i ∧ f.cause = (if x.desc.write then 2 else 1) ∧ ∀ k, k ≠ refKey r → stream? t k = stream? s k) ∧
    (access u dva n = .out → x.ruled = false → x.desc.write = false → (x.slot i).committed + n < tileBytes x.desc → ∃ (t : State) (z : Stream),
      exec (.transferIssue ⟨r, bw, w⟩) s = .next t ∧ stream? t (refKey r) = some z ∧ z.transfers = x.transfers ∧
      z.slot i = { x.slot i with state := .filling, issued := (x.slot i).issued + n, committed := (x.slot i).committed + n,
                                 badRanges := (x.slot i).badRanges ++ placeRanges x.desc (x.slot i).issued n })) ∧
  (∀ (s : State) r (x : Stream) i q, stream? s (refKey r) = some x → x.state = .running → x.desc.kind = 0 → x.desc.write = false → x.ruled = false →
    noShared s (refKey r) → issueSlot x = some i → walkQueue (streamPlan s (refKey r)) x.desc = some q → mayTransfer s (refKey r) x = true →
    (queueHeld s q = false → ∃ (t : State) (z : Stream), exec (.transferIssue ⟨r, none, 0⟩) s = .next t ∧ stream? t (refKey r) = some z ∧
      (z.slot i).state = .ready ∧ (z.slot i).badRanges = [(0, min x.desc.d0 x.desc.slotBytes)] ∧ z.done = x.done + 1) ∧
    (∀ (y : Queue) pkt, queueHeld s q = true → queue? s q = some y → y.pkts[y.read.1]? = some pkt →
      (takeable y = false → exec (.transferIssue ⟨r, none, 0⟩) s = .next (queueWait q ⟨x.unit, 0, 0, .stream (refKey r).1 (refKey r).2⟩ s)) ∧
      (takeable y = true → ∃ (t : State) (z : Stream), exec (.transferIssue ⟨r, none, 0⟩) s = .next t ∧ stream? t (refKey r) = some z ∧ z.done = x.done + 1 ∧
        z.tiles = x.tiles + 1 ∧ (z.slot i).bytes = min pkt.bytes.length x.desc.slotBytes ∧
        (z.slot i).state = (if x.desc.slotBytes < pkt.bytes.length then .truncated else .ready)))) ∧
  (∀ (s : State) r tag lost tf, (stream? s (refKey r) = none ∨ ∃ x, stream? s (refKey r) = some x ∧ ∀ t ∈ x.transfers, t.tag ≠ tag.toNat) →
    exec (.transferComplete r tag lost tf) s = .next s) ∧
  (∀ (s : State) r tag lost tf (x x' : Stream) (t : Transfer) (u : State) (bad : Bool) (ring : Nat) (read : State → State), stream? s (refKey r) = some x →
    (x.transfers.find? fun t => t.tag == tag.toNat) = some t → x' = { x with transfers := x.transfers.erase t } → u = setStream (refKey r) x' s →
    bad = (lost || tf) → ring = slotDva (streamPlan s (refKey r)) x.desc t.slot →
    read = (fun v => if x.desc.cache then fillLines (consumerCluster (streamPlan s (refKey r)) x.desc) (lineOf v t.dva).toList v else v) →
    (t.drop = true → exec (.transferComplete r tag lost tf) s = .next u) ∧
    (t.drop = false → bad = false → x.desc.write = false → exec (.transferComplete r tag lost tf) s =
      .next (shareEnd (refKey r) (commitPiece (refKey r) t.slot t.len (read (placeBytes x.desc ring t.off (readDva u t.dva t.len) u))))) ∧
    (t.drop = false → bad = false → x.desc.write = true → r.slot ≠ 0xff → exec (.transferComplete r tag lost tf) s =
      .next (shareEnd (refKey r) (commitPiece (refKey r) t.slot t.len (read (writeFree u t.dva (readHeld u (ring + t.off) t.len)))))) ∧
    (t.drop = false → bad = false → x.desc.write = true → r.slot = 0xff → exec (.transferComplete r tag lost tf) s =
      .next (shareEnd (refKey r) (commitPiece (refKey r) t.slot t.len (read (dropLines t.dva t.len (writeFree u t.dva (readHeld u (ring + t.off) t.len))))))) ∧
    (t.drop = false → bad = true → x.desc.write = false → exec (.transferComplete r tag lost tf) s =
      .next (shareEnd (refKey r) (commitPiece (refKey r) t.slot t.len (placeBytes x.desc ring t.off (zeros t.len) (loseWord (refKey r) x' t tf u))))) ∧
    (t.drop = false → bad = true → x.desc.write = true → exec (.transferComplete r tag lost tf) s =
      .next (shareEnd (refKey r) (commitPiece (refKey r) t.slot t.len (loseWord (refKey r) x' t tf u))))) ∧
  (∀ (s : State) k (x : Stream), stream? s k = some x → x.ruled = false → noShared s k → shareEnd k s = s) ∧
  (∀ (s : State) k (x : Stream) i len, stream? s k = some x → i < x.slots.length → ∃ (z : Stream), stream? (commitPiece k i len s) k = some z ∧ z.transfers = x.transfers ∧
    (x.desc.write = false → (x.slot i).state ≠ .truncated → tileBytes x.desc ≤ (x.slot i).committed + len → (z.slot i).state = .ready ∧ (z.slot i).bytes = tileBytes x.desc ∧
      z.done = x.done + 1 ∧ z.tiles = x.tiles + 1) ∧
    (x.desc.write = false → (x.slot i).committed + len < tileBytes x.desc → (z.slot i).state = (x.slot i).state ∧ (z.slot i).committed = (x.slot i).committed + len ∧ z.done = x.done) ∧
    (x.desc.write = true → (x.slot i).bytes ≤ (x.slot i).committed + len → z.slot i = Slot.free ∧ z.tiles = x.tiles + b2n (x.state ≠ .cancelled && x.state ≠ .aborted) ∧
      (x.state ≠ .cancelled → z.done = x.done + 1 ∧ z.tail = (i + 1) % (x.desc.ring + 1)) ∧ (x.state = .cancelled → z.done = x.done ∧ z.tail = x.tail ∧ z.state = .cancelled))) ∧
  (∀ (s : State) r tag, (stream? s (refKey r) = none ∨ ∃ x, stream? s (refKey r) = some x ∧ (x.ruled = false ∨ ∀ t ∈ x.transfers, t.tag ≠ tag.toNat)) →
    exec (.strTagLate r tag) s = .next s) ∧
  (∀ (s : State) r tag (x : Stream) (t : Transfer) (b : Nat), stream? s (refKey r) = some x → x.ruled = true → (x.transfers.find? fun t => t.tag == tag.toNat) = some t →
    b = (if x.desc.priv then 2280 else max (tierLatency s (uidDie x.unit) t.dva) (tierLatency s (uidDie x.unit) (slotDva (streamPlan s (refKey r)) x.desc t.slot))) →
    exec (.strTagLate r tag) s = .next (emitErr ⟨3, 2, x.unit, 0, max s.clk.cycle (t.issuedAt + b + 1) - (t.issuedAt + b), (refKey r).1, true, true⟩
      (advanceTo (t.issuedAt + b + 1) s)))

/-- The Feed stages take and give groups of a stream's slots in order, and a write slot drains to its walk, queue or
compressor (09_streams_memory.md, 04_ingest.md). -/
def Obligations.FeedAndDrains : Prop :=
  (∀ (s : State) r, (stream? s (refKey r) = none ∨ ∃ x, stream? s (refKey r) = some x ∧ (x.desc.write = false ∨ x.state ≠ .running ∨
      (r.slot ≠ 0xff ∧ mayTransfer s (refKey r) x = false) ∨ ((r.slot ≠ 0xff ∨ (x.slot x.tail).state ≠ .free) ∧ (x.slot x.tail).state ≠ .ready ∧
        ¬ ((x.slot x.tail).state = .draining ∧ (x.desc.param ≠ 0xffffffff ∨ (x.desc.codec ≠ 0 ∧ x.comp.input = [])))))) →
    exec (.slotDrain r) s = .next s) ∧
  (∀ (s u : State) r (x : Stream) (p : Option Plan) (sl : Slot) (bs : Bytes), stream? s (refKey r) = some x → x.desc.write = true → x.state = .running →
    mayTransfer s (refKey r) x = true → sl = x.slot x.tail → p = streamPlan s (refKey r) → bs = readHeld s (slotDva p x.desc x.tail) sl.bytes →
    u = slotReport (refKey r) x x.tail sl.bytes 0x71 s →
    (∀ pl, p = some pl → x.desc.param ≠ 0xffffffff → (sl.state = .ready ∨ sl.state = .draining) → exec (.slotDrain r) s = .next (shareEnd (refKey r) (drainSlice (refKey r) pl x x.tail s))) ∧
    (x.desc.param = 0xffffffff ∨ p = none → sl.state = .ready → x.desc.codec = 0 → walkQueue p x.desc = none → sl.bytes ≠ 0 →
      exec (.slotDrain r) s = .next (shareEnd (refKey r) (setStream (refKey r) (x.slotMod x.tail fun sl => { sl with state := .draining }) s))) ∧
    (x.desc.param = 0xffffffff ∨ p = none → sl.state = .ready → x.desc.codec = 0 → walkQueue p x.desc = none → sl.bytes = 0 →
      exec (.slotDrain r) s = .next (shareEnd (refKey r) (setStream (refKey r) (drained x x.tail) s))) ∧
    (∀ q, x.desc.param = 0xffffffff ∨ p = none → sl.state = .ready → x.desc.codec = 0 → walkQueue p x.desc = some q →
      (∀ v, packetOut (refKey r) x q bs u = some v → exec (.slotDrain r) s = .next (shareEnd (refKey r) (setStream (refKey r) (drained x x.tail) v))) ∧
      (packetOut (refKey r) x q bs u = none → exec (.slotDrain r) s = .next (shareEnd (refKey r)
        (queueWait q ⟨x.unit, bs.length + 1, 0, .stream (refKey r).1 (refKey r).2⟩ (setStream (refKey r) x u))))) ∧
    (x.desc.param = 0xffffffff ∨ p = none → sl.state = .ready → x.desc.codec ≠ 0 → sl.bytes ≠ 0 → x.tail < x.slots.length → ∃ (z : Stream),
      exec (.slotDrain r) s = .next (shareEnd (refKey r) (setStream (refKey r) z u)) ∧ z.comp.input = bs ∧ (z.slot x.tail).state = .draining ∧
      z.comp.frame = (if x.comp.frame.isEmpty then frameStart x.desc.codec else x.comp.frame)) ∧
    (x.desc.param = 0xffffffff ∨ p = none → sl.state = .draining → x.desc.codec ≠ 0 → x.comp.input = [] →
      exec (.slotDrain r) s = .next (shareEnd (refKey r) (moveOutput (refKey r) x s)))) ∧
  (∀ (s : State) k (x : Stream) q (bs : Bytes) (y : Queue), queue? s q = some y →
    (queueHeld s q = true → (y.limit < cellsFor bs.length ∨ queueRoom s q bs.length = true) → packetOut k x q bs s = some (commitPacket q x.unit 0 bs s)) ∧
    (queueHeld s q = true → cellsFor bs.length ≤ y.limit → queueRoom s q bs.length = false → packetOut k x q bs s = none) ∧
    (queueHeld s q = false → packetOut k x q bs s = some (streamBlot k x 0x72 0 ((x.slot x.tail).tile - 1) 1 s))) ∧
  (∀ (s : State) r (x y : Stream) (n : Nat), r.slot = 0xff → stream? s (refKey r) = some x → x.desc.write = true → x.state = .running → x.ruled = false →
    (x.slot x.tail).state = .free → y = restartMargin none x → n = y.desc.ring + 1 → y.slots.length = n → y.tail = y.nextTile % n →
    (tilesLeft none y = false → exec (.slotDrain r) s = .next s) ∧
    (tilesLeft none y = true → y.slot y.tail = Slot.free → y.desc.codec = 0 → walkQueue none y.desc = none → tileBytes y.desc ≠ 0 →
      mayTransfer s (refKey r) (hostFill none y) = true → ∃ (z : Stream),
      exec (.slotDrain r) s = .next (shareEnd (refKey r) (setStream (refKey r) z s)) ∧ z.slot y.tail = ⟨.draining, tileBytes y.desc, y.nextTile + 1, 0, 0, []⟩ ∧
      z.nextTile = y.nextTile + 1 ∧ z.tail = y.tail ∧ z.done = y.done)) ∧
  (∀ (x : Stream) i, (drained x i).slot i = Slot.free ∧ (drained x i).done = x.done + 1 ∧ (drained x i).tail = (i + 1) % (x.desc.ring + 1) ∧
    (freeSlot x i).slot i = Slot.free ∧ (freeSlot x i).taken = x.taken + 1 ∧ (freeSlot x i).tail = (i + 1) % (x.desc.ring + 1) ∧ (freeSlot x i).tailOff = 0 ∧
    ∀ j, j ≠ i → (drained x i).slot j = x.slot j ∧ (freeSlot x i).slot j = x.slot j) ∧
  (∀ (s : State) r c, stageReady r 6 0 0 c s → (stream? s (feedStream c) = none ∨ ∃ x, stream? s (feedStream c) = some x ∧ (x.desc.write = true ∨ 2 ≤ x.desc.kind ∨
      (x.desc.kind = 0 ∧ ((x.slot x.tail).state = .filling ∨ (x.slot x.tail).state = .draining ∨ ((x.slot x.tail).state = .free ∧ x.state ≠ .aborted))))) →
    exec (.feedRead r) s = .next s) ∧
  (∀ (s : State) r c (x : Stream) (sl : Slot) (len : Nat) (bad : Bool), stageReady r 6 0 0 c s → stream? s (feedStream c) = some x → x.desc.write = false → x.desc.kind = 0 →
    sl = x.slot x.tail → sl.state = .ready → x.tailOff ≤ sl.bytes → len = (if c.st.outLen = 0 then sl.bytes - x.tailOff else min c.st.outLen (sl.bytes - x.tailOff)) →
    bad = ((sl.badRanges.any fun r => decide (r.1 < x.tailOff + len) && decide (x.tailOff < r.1 + r.2)) || rangeOut s (slotDva (some c.plan) x.desc x.tail + x.tailOff) len) →
    exec (.feedRead r) s = .next (endStage c r.check ⟨if bad then blotGroup { c.grp with source := (feedStream c).2 } else { c.grp with source := (feedStream c).2 },
      readHeld s (slotDva (some c.plan) x.desc x.tail + x.tailOff) len,
      setStream (feedStream c) (if x.tailOff + len < sl.bytes then { x with tailOff := x.tailOff + len } else freeSlot x x.tail)
        (if x.tailOff = 0 then slotReport (feedStream c) x x.tail sl.bytes 0x71 s else s)⟩)) ∧
  (∀ (s : State) r c (x : Stream), stageReady r 6 0 0 c s → stream? s (feedStream c) = some x → x.desc.write = false → x.desc.kind = 0 → (x.slot x.tail).state = .free →
    x.state = .aborted → ∃ (u : State) (g : Group), exec (.feedRead r) s = .next (endStage c r.check ⟨g, [], u⟩) ∧ g.rows = 0 ∧ g.recs = [] ∧ g.cols = [] ∧ u.nibs = s.nibs) ∧
  (∀ (s : State) r c (x : Stream) (n : Nat), stageReady r 6 0 0 c s → stream? s (feedStream c) = some x → x.desc.write = false → x.desc.kind = 1 →
    sourceLayouts c.plan c.st.param = [] → n = (if c.lig.maxRows = 0 then x.ingest.avail else min c.lig.maxRows x.ingest.avail) →
    (n = 0 → x.state ≠ .aborted → exec (.feedRead r) s = .next s) ∧
    (n ≠ 0 → (itemsReady (streamMedia (some c.plan) x.desc) n x.ingest = false ∨ x.state = .cancelled) → exec (.feedRead r) s = .next s) ∧
    (n ≠ 0 → itemsReady (streamMedia (some c.plan) x.desc) n x.ingest = true → x.state ≠ .cancelled → ∃ (g : Group) (u : State),
      exec (.feedRead r) s = .next (endStage c r.check ⟨g, g.cols.flatMap columnBytes, u⟩) ∧ u.nibs = s.nibs ∧ g.rows = n ∧ g.source = c.st.param ∧
      g.recs = (List.range n).map (fun i => x.ingest.base + i) ∧ g.cols.length = x.ingest.fields.length ∧
      g.valid = g.recs.map (fun e => !x.ingest.bad.any fun b => decide (b.1 ≤ e) && decide (e < b.1 + b.2)) ∧
      (x.ruled = false → noShared s (feedStream c) → ∃ (z : Stream), stream? u (feedStream c) = some z ∧ u = { s with streams := u.streams } ∧ z.ingest.base = x.ingest.base + n))) ∧
  (∀ (s : State) r c, stageReady r 6 1 0 c s → (stream? s (feedStream c) = none ∨ ∃ x y, stream? s (feedStream c) = some x ∧ y = restartMargin (some c.plan) x ∧
      (y.desc.write = false ∨ y.state ≠ .running ∨ y.slot (y.nextTile % (y.desc.ring + 1)) ≠ Slot.free ∨ tilesLeft (some c.plan) y = false)) →
    exec (.feedWrite r) s = .next s) ∧
  (∀ (s : State) r c (x y : Stream) (n len : Nat) (bytes : Bytes), stageReady r 6 1 0 c s → stream? s (feedStream c) = some x → y = restartMargin (some c.plan) x → n = y.desc.ring + 1 →
    y.slots.length = n → y.desc.write = true → y.state = .running → y.slot (y.nextTile % n) = Slot.free → tilesLeft (some c.plan) y = true →
    bytes = (if y.desc.param = 0xffffffff then c.inputBytes s else slicePacket c s) →
    len = min (if (walkQueue (some c.plan) y.desc).isSome then min bytes.length y.desc.d0 else bytes.length) y.desc.slotBytes →
    ∃ (z : Stream), exec (.feedWrite r) s = .next (endStage c r.check ⟨c.grp, [], slotSignal (feedStream c) z (setStream (feedStream c) z
        (slotReport (feedStream c) y (y.nextTile % n) len 0x72 (writeHeld s (slotDva (some c.plan) y.desc (y.nextTile % n)) (bytes.take len))))⟩) ∧
      z.slot (y.nextTile % n) = ⟨.ready, len, y.nextTile + 1, 0, 0, []⟩ ∧ z.nextTile = y.nextTile + 1 ∧ z.head = (y.nextTile % n + 1) % n ∧
      (∀ j, j ≠ y.nextTile % n → z.slot j = y.slot j) ∧ z.tail = y.tail ∧ z.state = .running ∧ z.desc = y.desc)

/-- Ingest units, frames and media items are taken one at a time, each with its reports (04_ingest.md,
09_streams_memory.md, 10_samples.md). -/
def Obligations.IngestAndMedia : Prop :=
  (∀ (s : State) r, (stream? s (refKey r) = none ∨ ∃ x, stream? s (refKey r) = some x ∧ (x.desc.kind ≠ 1 ∨ x.state ≠ .running ∨ x.ingest.jobs ≠ [] ∨
      mayTransfer s (refKey r) x = false ∨ (x.ingest.ended = true ∧ (ingestOver x = false ∨ x.desc.persist = false ∨ x.ruled = true)))) →
    exec (.ingestUnitDecode r) s = .next s) ∧
  (∀ (s : State) r (x : Stream), stream? s (refKey r) = some x → x.desc.kind = 1 → x.state = .running → x.ingest.jobs = [] → x.ruled = false → x.ingest.ended = true →
    mayTransfer s (refKey r) x = true → ingestOver x = true → x.desc.persist = true → ∃ (t : State) (z : Stream), exec (.ingestUnitDecode r) s = .next t ∧ stream? t (refKey r) = some z ∧ z.walkBase = x.nextTile ∧
      z.ingest.ended = false ∧ z.ingest.open_ = false ∧ z.rearm = none ∧ z.ingest.noChecksum = x.ingest.noChecksum ∧
      (∀ a b, x.rearm = some (a, b) → z.desc.src = a ∧ z.desc.dst = b) ∧ (x.rearm = none → z.desc = x.desc ∧ z.ingest.gen = x.ingest.gen)) ∧
  (∀ (s : State) r (x : Stream) c o a, stream? s (refKey r) = some x → x.desc.kind = 1 → x.state = .running → x.ingest.jobs = [] → mayTransfer s (refKey r) x = true →
    x.ingest.ended = false → c = walkCtx s (streamPlan s (refKey r)) x.desc → neededAbsent s (streamPlan s (refKey r)) x c (ingestUnit c x.ingest) = some (o, a) →
    ∃ (t : State) (f : FaultRec), exec (.ingestUnitDecode r) s = .next t ∧
      stream? t (refKey r) = some { x with state := .halted, fault := some f } ∧ f.dva = a ∧ f.cause = 1) ∧
  (∀ (s : State) p (x : Stream) c o, (x.ruled = true ∨ (absentAt s p x.desc x.ingest.cursor = none ∧ absentAt s p x.desc 0 = none)) → neededAbsent s p x c o = none) ∧
  (∀ (s : State) r (x : Stream) c (o : UnitOut) (g : Ingest), stream? s (refKey r) = some x → x.desc.kind = 1 → x.state = .running → x.ingest.jobs = [] →
    mayTransfer s (refKey r) x = true → x.ingest.ended = false → c = walkCtx s (streamPlan s (refKey r)) x.desc → o = ingestUnit c x.ingest →
    neededAbsent s (streamPlan s (refKey r)) x c o = none →
    (g = o.g ∨ (g = { o.g with bad := o.g.bad ++ [(o.g.base + x.ingest.avail, o.g.avail - x.ingest.avail)] } ∧
      unitOut s (streamPlan s (refKey r)) x c o.g = true ∧ x.ingest.avail < o.g.avail)) →
    (g = o.g → (unitOut s (streamPlan s (refKey r)) x c o.g = false ∨ o.g.avail ≤ x.ingest.avail)) → exec (.ingestUnitDecode r) s =
      .next (settleIngest (refKey r) (passTiles (refKey r) (reportUnit (refKey r) o.reports (setStream (refKey r) { x with ingest := g } s))))) ∧
  (∀ (s : State) k (x : Stream), stream? s k = some x → ∃ (z : Stream), stream? (passTiles k s) k = some z ∧
    z.nextTile = x.nextTile + (tilesPassed x - (x.nextTile - x.walkBase)) ∧ z.tiles = x.tiles + (tilesPassed x - (x.nextTile - x.walkBase)) ∧
    z.done = x.done + (tilesPassed x - (x.nextTile - x.walkBase)) ∧ z.ingest = x.ingest ∧ z.state = x.state ∧ z.slots = x.slots) ∧
  (∀ (s : State) k (x : Stream), stream? s k = some x → x.ruled = false → noShared s k → (∃ (z : Stream), stream? (settleIngest k s) k = some z ∧
    (x.state = .running → (z.state = .done ↔ ingestOver x = true ∧ x.desc.persist = false)) ∧ z.ingest = x.ingest)) ∧
  (∀ (c : WalkCtx) (g : Ingest), c.ing.format ≠ 1 → c.ing.format ≠ 2 → c.ing.format ≠ 3 →
    (g.open_ = false → (ingestUnit c g).g.open_ = true ∧ (ingestUnit c g).g.base = c.ing.first ∧ (ingestUnit c g).reports = []) ∧
    (g.open_ = true → c.ing.codec = 0 → (ingestUnit c g).g.ended = true ∧
      (c.ing.first = 0 → 0 < c.ing.records → c.ing.recordCap < c.src.length → (ingestUnit c g).reports = [⟨0x39, wholeRecord, 0, 0, 1⟩]))) ∧
  (∀ (c : WalkCtx) (g : Ingest) reason offset, (c.restBlot g reason offset).g.ended = true ∧ (c.restBlot g reason offset).g.jobs = [] ∧
    (max g.record c.ing.first < c.ing.first + c.ing.records → (c.restBlot g reason offset).reports =
      [⟨reason, wholeRecord, offset, max g.record c.ing.first, c.ing.first + c.ing.records - max g.record c.ing.first⟩]) ∧
    (c.ing.first + c.ing.records ≤ max g.record c.ing.first → (c.restBlot g reason offset).reports = [])) ∧
  (∀ (s : State) r lost, (stream? s (refKey r) = none ∨ ∃ x, stream? s (refKey r) = some x ∧ x.ingest.jobs = []) → exec (.frameDecode r lost) s = .next s) ∧
  (∀ (s : State) r lost (x : Stream) j js, stream? s (refKey r) = some x → x.ingest.jobs = j :: js → ∃ (t : State) (z : Stream),
    exec (.frameDecode r lost) s = .next t ∧ stream? t (refKey r) = some z ∧ z.ingest.jobs = js ∧
    z.ingest.outs = x.ingest.outs ++ [if lost then .bad badStream else decodeFrame j] ∧
    z.ingest.noChecksum = x.ingest.noChecksum + (if lacksSum j.codec (jobFrame j) = true ∧ j.needSum = false ∧ lost = false then 1 else 0) ∧
    (x.ruled = false → noShared s (refKey r) → lost = false → t = setStream (refKey r) z (drawn s)) ∧
    (x.ruled = false → noShared s (refKey r) → lost = true → t = emitErr ⟨4, 2, engineOf (streamPlan s (refKey r)) x s, 0, 0, (refKey r).1, false, true⟩ (setStream (refKey r) z (drawn s)))) ∧
  (∀ (j : FrameJob) h, frameHead j.codec (jobFrame j) = .ok h → (frameClaimOk j.codec j.cap (jobFrame j) = false → decodeFrame j = .bad 0x38) ∧
    (frameClaimOk j.codec j.cap (jobFrame j) = true → j.needSum = true → h.sum = false → decodeFrame j = .bad 0x2b)) ∧
  (∀ (j : FrameJob) o, decodeFrame j = .bytes o → ∃ h cap, frameHead j.codec (jobFrame j) = .ok h ∧ frameClaimOk j.codec j.cap (jobFrame j) = true ∧ (j.needSum = true → h.sum = true) ∧
    runCodec j.codec cap (jobFrame j) = .ok o ∧ ∀ n, j.claim = some n → o.length = n) ∧
  (∀ (claim cap compressed : Nat), claimOk claim cap compressed = true ↔ claim ≤ cap ∧ claim ≤ 4096 * compressed) ∧
  (∀ (s : State) (slot : BitVec 6) (st : BitVec 16), (stream? s (slot.toNat, st.toNat) = none ∨ plan? s slot.toNat = none ∨ ∃ x, stream? s (slot.toNat, st.toNat) = some x ∧
      (x.desc.kind ≠ 1 ∨ x.state ≠ .running)) → exec (.rasterItem slot st) s = .next (shareEnd (slot.toNat, st.toNat) s) ∧
      exec (.pcmItem slot st) s = .next (shareEnd (slot.toNat, st.toNat) s)) ∧
  (∀ (s : State) (slot : BitVec 6) (st : BitVec 16) (x : Stream) (p : Plan) (kind : Nat) (i : Instr), stream? s (slot.toNat, st.toNat) = some x → plan? s slot.toNat = some p →
    x.desc.kind = 1 → x.state = .running → x.ruled = false → noShared s (slot.toNat, st.toNat) → ((kind = 1 ∧ i = .rasterItem slot st) ∨ (kind = 2 ∧ i = .pcmItem slot st)) →
    (nextItem kind (streamMedia (some p) x.desc) x.ingest = none → exec i s = .next s) ∧
    (∀ row off m item tr, nextItem kind (streamMedia (some p) x.desc) x.ingest = some (row, off, m) → item = (((x.ingest.queue m.field).col.rows[row]?).getD Val.null).bytes →
      tr = treatItem s (slot.toNat, st.toNat) p x (ingestAt p.image.blob x.desc.param).recordCap row off m item →
      m.kind = kind ∧ (∃ (t : State) (z : Stream), exec i s = .next t ∧ stream? t (slot.toNat, st.toNat) = some z ∧ z.ingest.base = x.ingest.base ∧ z.ingest.jobs = x.ingest.jobs ∧
        (∀ v, tr.1 = .ok v → t = setStream (slot.toNat, st.toNat) z tr.2 ∧ (z.ingest.queue m.field).col.rows[row]? = some v ∧ z.ingest.bad = x.ingest.bad) ∧
        (∀ e, tr.1 = .error e → (z.ingest.queue m.field).col.rows[row]? = some (Val.blotted [] []) ∧ t.caches = tr.2.caches) ∧
        ∀ j, j ≠ row → (z.ingest.queue m.field).col.rows[j]? = (x.ingest.queue m.field).col.rows[j]?)))

/-- A compressed block goes out only where it decodes to its input, and a batch closes with its missing slots reported
(04_ingest.md, 09_streams_memory.md, 10_samples.md). -/
def Obligations.BlocksAndBatches : Prop :=
  (∀ (s : State) r b lost, (stream? s (refKey r) = none ∨ ∃ x, stream? s (refKey r) = some x ∧ (x.desc.codec = 0 ∨ x.comp.input = [] ∨ x.state ≠ .running ∨
      mayTransfer s (refKey r) x = false)) → exec (.blockVerify r b lost) s = .next s) ∧
  (∀ (s : State) r b lost (x : Stream) (good : Option Compressor) (c c' : Compressor) (u : State), stream? s (refKey r) = some x → x.desc.codec ≠ 0 → x.comp.input ≠ [] →
    x.state = .running → mayTransfer s (refKey r) x = true →
    good = (if lost then none else verifyBlock x.desc.codec (x.comp.input.take compBlock) b x.comp) →
    c = good.getD (storedBlocks x.desc.codec (x.comp.input.take compBlock) x.comp) → c' = { c with total := c.total ++ x.comp.input.take compBlock, input := c.input.drop compBlock } →
    u = (if lost then emitErr ⟨4, 2, engineOf (streamPlan s (refKey r)) x s, 0, 0, (refKey r).1, x.ruled, true⟩ (drawn s)
      else if good.isNone then emitErr ⟨4, 1, engineOf (streamPlan s (refKey r)) x s, 0, 0, (refKey r).1, x.ruled, true⟩ (drawn s) else s) →
    (c'.input ≠ [] → exec (.blockVerify r b lost) s = .next (releaseOutput (refKey r) { x with comp := c' } u)) ∧
    (c'.input = [] → exec (.blockVerify r b lost) s = .next (shareEnd (refKey r) (endSlot (refKey r) x.desc.codec { x with comp := c' } u)))) ∧
  (∀ (inp : Bytes) (c : Compressor), (storedBlocks 1 inp c).frame = c.frame ++ le 3 (8 * inp.length) ++ inp ∧
    (storedBlocks 2 inp c).frame = c.frame ++ le 4 (inp.length + 2 ^ 31) ++ inp) ∧
  (∀ (s : State) (slot : BitVec 6) (ly : BitVec 8), (plan? s slot.toNat = none ∨ ∃ p, plan? s slot.toNat = some p ∧ (p.image.layouts[ly.toNat]? = none ∨
      ∃ d, p.image.layouts[ly.toNat]? = some d ∧ ((layoutAt d).closeLag = 0 ∨ ∀ e ∈ (batchOf s (slot.toNat, ly.toNat)).begun,
        nowTick s < e.2 + (layoutAt d).closeLag + 1 ∨ e.1 ∈ (batchOf s (slot.toNat, ly.toNat)).completed))) → exec (.batchClose slot ly) s = .next s) ∧
  (∀ (s : State) (slot : BitVec 6) (ly : BitVec 8) (p : Plan) d (l : Layout) base (g tick : Nat) (es : List (Nat × Nat)) (key : Nat × Nat) (u : State), key = (slot.toNat, ly.toNat) →
    plan? s slot.toNat = some p → p.image.layouts[ly.toNat]? = some d → l = layoutAt d → sideBase (some p) l.dstKind l.dstAbs 0 = some base →
    ((batchOf s key).begun.filter fun e => decide (0 < l.closeLag) && decide (e.2 + l.closeLag + 1 ≤ nowTick s) && !(batchOf s key).completed.contains e.1) = (g, tick) :: es →
    u = freeFor (closeDrain p key base l) g 17 s → (openBatch key l g u = none → exec (.batchClose slot ly) s = .next u) ∧
    (∀ b, openBatch key l g u = some b → b.g = g ∧
      (p.image.ruled = false → completionAbsent u base l (slicesOf p.image.blob l) b ≠ none → exec (.batchClose slot ly) s = .next u) ∧
      (p.image.ruled = true ∨ completionAbsent u base l (slicesOf p.image.blob l) b = none → exec (.batchClose slot ly) s =
        .next (completeBatch key base l (slicesOf p.image.blob l) b true (emitBlot ⟨0x68, slot.toNat, ly.toNat, 0xffff, 0, g,
          ((List.range (l.filled g)).filter fun i => !slotFull l b i).length⟩ u))))) ∧
  (∀ (key : Nat × Nat) base (l : Layout) slices (b : OpenBatch) closed (s : State), ∃ v : State, completeBatch key base l slices b closed s = planAdd key.1 l.sigReady v ∧
    (batchOf v key).completed = (batchOf s key).completed ++ [b.g] ∧ look (l.bufferOf b.g) (batchOf v key).buffers = some { b with ready := true } ∧
    (∀ e ∈ (batchOf v key).begun, e.1 ≠ b.g) ∧ ∀ k, k ≠ key → batchOf v k = batchOf s k) ∧
  (∀ (r : RowDrain) (g f : Nat) (s : State), bufferTaken r.key r.l g s = false → freeFor r g f s = s) ∧
  (∀ (key : Nat × Nat) (l : Layout) (g : Nat) (s : State), (∀ x, look (l.bufferOf g) (batchOf s key).buffers = some x → (x.g ≠ g ∨ x.ready = true) → openBatch key l g s = none) ∧
    (l.buffers < g → (g - (l.buffers + 1)) ∉ (batchOf s key).completed → look (l.bufferOf g) (batchOf s key).buffers = none → openBatch key l g s = none) ∧
    (g ≤ l.buffers → look (l.bufferOf g) (batchOf s key).buffers = none → ∃ b, openBatch key l g s = some b ∧ b.g = g ∧ b.got = [] ∧ b.ready = false)) ∧
  (∀ (r : RowDrain) c row valid (s u v : State) (g slot len a : Nat), (g, slot) = r.l.place c → len = (r.slices[r.slice]?).elim 0 (·.padLen) →
    a = slotByte r.base r.l g slot ((r.slices[r.slice]?).elim 0 (·.padOff)) → u = freeFor r g 17 s → v = writeRow r c g slot noLimit row u →
    (g ∈ (batchOf s r.key).completed → placeSliceRow r c row valid s = .done (emitErr ⟨2, 11, r.unit, g, slot, r.key.1, false, false⟩ s)) ∧
    (g ∉ (batchOf s r.key).completed → openBatch r.key r.l g u = none → placeSliceRow r c row valid s = .held u) ∧
    (∀ b, g ∉ (batchOf s r.key).completed → openBatch r.key r.l g u = some b → (r.l.filled g ≤ slot ∨ ∃ e ∈ b.got, e.1 = slot ∧ e.2.1 = r.slice) →
      placeSliceRow r c row valid s = .done (emitErr ⟨2, 10, r.unit, g, slot, r.key.1, false, false⟩ u)) ∧
    (∀ b b' t, g ∉ (batchOf s r.key).completed → openBatch r.key r.l g u = some b → slot < r.l.filled g → (∀ e ∈ b.got, ¬ (e.1 = slot ∧ e.2.1 = r.slice)) →
      b' = { b with got := b.got ++ [(slot, r.slice, valid)] } → t = setBatch r.key { batchOf v r.key with buffers := put (r.l.bufferOf g) b' (batchOf v r.key).buffers } v →
      (∀ n, r.ruled = false → rangeAbsent u a len = some n → placeSliceRow r c row valid s = .absent n (n - a) (writeRow r c g slot n row u)) ∧
      (r.ruled = true ∨ rangeAbsent u a len = none →
        ((∃ i, i < r.l.filled g ∧ slotFull r.l b' i = false) → placeSliceRow r c row valid s = .done t) ∧
        ((∀ i, i < r.l.filled g → slotFull r.l b' i = true) → (r.ruled = true ∨ completionAbsent v r.base r.l r.slices b' = none) →
          placeSliceRow r c row valid s = .done (completeBatch r.key r.base r.l r.slices b' false t)) ∧
        (∀ n, (∀ i, i < r.l.filled g → slotFull r.l b' i = true) → r.ruled = false → completionAbsent v r.base r.l r.slices b' = some n →
          placeSliceRow r c row valid s = .absent n len v))))
end

