-- ==== Sys2Proof/Laws/Keyed.lean ====
section
/-! SUPPORT. Keyed lists: what reading a list gives after an entry has been put or deleted. -/

namespace Sys2Proof.Machine

section
variable {κ α : Type} [BEq κ] [LawfulBEq κ]

/-- The entry just put is the one read. -/
@[simp] theorem look_put_same (k : κ) (v : α) (l : List (κ × α)) : look k (put k v l) = some v := by
  induction l with
  | nil => simp [look, put]
  | cons e r ih =>
    by_cases h : (e.1 == k) = true
    · simp [look, put, h]
    · simp only [Bool.not_eq_true] at h
      simpa [look, put, h] using ih

/-- Another entry reads as before. -/
@[simp] theorem look_put_other (j k : κ) (v : α) (l : List (κ × α)) (h : j ≠ k) : look j (put k v l) = look j l := by
  induction l with
  | nil => simp [look, put, h.symm]
  | cons e r ih =>
    by_cases he : e.1 = k
    · subst he; simp [look, put, h.symm]
    · have hb : (e.1 == k) = false := by simpa using he
      simp only [look, put, hb, Bool.false_eq_true, if_false, List.find?_cons]
      cases e.1 == j with
      | true => rfl
      | false => simpa [look] using ih

/-- A deleted entry is gone. -/
@[simp] theorem look_del_same (k : κ) (l : List (κ × α)) : look k (del k l) = none := by
  simp [look, del]

/-- Deleting leaves the other entries. -/
@[simp] theorem look_del_other (j k : κ) (l : List (κ × α)) (h : j ≠ k) : look j (del k l) = look j l := by
  induction l with
  | nil => rfl
  | cons e r ih =>
    simp only [look, del] at ih ⊢
    by_cases he : e.1 = k
    · subst he; simpa [h.symm] using ih
    · have hb : (e.1 == k) = false := by simpa using he
      simp only [List.filter_cons, hb, Bool.not_false, if_true, List.find?_cons]
      cases e.1 == j with
      | true => rfl
      | false => simpa using ih

end

end Sys2Proof.Machine
end

