-- ==== Sys2Proof/Laws/Answers.lean ====
section
/-! SUPPORT. What hearing, answering and accepting a command do. -/

namespace Sys2Proof.Machine

@[simp] theorem mbox_setMbox_same (m : Nat) (b : Mailbox) (s : State) : mbox (setMbox m b s) m = b := by simp [mbox, setMbox]

@[simp] theorem mbox_setMbox_other (j m : Nat) (b : Mailbox) (s : State) (h : j ≠ m) : mbox (setMbox m b s) j = mbox s j := by
  simp [mbox, setMbox, h]

@[simp] theorem queue?_setQueue_same (q : Nat) (x : Queue) (s : State) : queue? (setQueue q x s) q = some x := by
  simp [queue?, setQueue]

@[simp] theorem queue?_setQueue_other (j q : Nat) (x : Queue) (s : State) (h : j ≠ q) :
    queue? (setQueue q x s) j = queue? s j := by simp [queue?, setQueue, h]

/-- A heard request of a command without unit ids is carried out. -/
theorem goust_icmd {s : State} {r : Req} {op len : Nat} {bad : List (Nat × Bool)} {body : State → CmdRes}
    (h : heard s r op len = true) (hb : ∀ e ∈ bad, e.2 = false) :
    goust r (icmd op len bad body) s = runCmd r (icmd op len bad body) s := by
  simp only [heard, Bool.and_eq_true, beq_iff_eq, Option.isNone_iff_eq_none] at h
  obtain ⟨⟨⟨⟨⟨hup, hf⟩, hn⟩, hl⟩, hlen⟩, hp⟩ := h
  have hbad : bad.filter (·.2) = [] := by
    rw [List.filter_eq_nil_iff]; intro e he; simp [hb e he]
  have hoff : badOffset r (icmd op len bad body) = none := by
    unfold badOffset; simp only [icmd, hbad, hn, List.map_nil]
  have hl' : r.present.toNat = len := hl ▸ hlen
  have href : refusal s r (icmd op len bad body) = none := by
    unfold refusal
    rw [hoff]
    have hpa : powerAllows s (icmd op len bad body) = true := by
      unfold powerAllows; simp only [icmd, List.all_nil, Bool.and_true]; exact hp
    simp only [icmd] at hpa ⊢
    simp [hlen, hl', hpa]
  unfold goust byTag
  simp [hup, hf, href]

/-- A heard request of a pending command without unit ids is carried out while fewer than 16 are pending. -/
theorem goust_pcmd {s : State} {r : Req} {op len : Nat} {bad : List (Nat × Bool)} {body : State → CmdRes}
    (h : heardP s r op len = true) (hb : ∀ e ∈ bad, e.2 = false) :
    goust r (pcmd op len bad body) s = runCmd r (pcmd op len bad body) s := by
  simp only [heardP, heard, Bool.and_eq_true, beq_iff_eq, Option.isNone_iff_eq_none, decide_eq_true_eq] at h
  obtain ⟨⟨⟨⟨⟨⟨hup, hf⟩, hn⟩, hl⟩, hlen⟩, hp⟩, h16⟩ := h
  have hbad : bad.filter (·.2) = [] := by
    rw [List.filter_eq_nil_iff]; intro e he; simp [hb e he]
  have hoff : badOffset r (pcmd op len bad body) = none := by
    unfold badOffset; simp only [pcmd, hbad, hn, List.map_nil]
  have hl' : r.present.toNat = len := hl ▸ hlen
  have href : refusal s r (pcmd op len bad body) = none := by
    unfold refusal
    rw [hoff]
    have hpa : powerAllows s (pcmd op len bad body) = true := by
      unfold powerAllows; simp only [pcmd, List.all_nil, Bool.and_true]; exact hp
    simp only [pcmd] at hpa ⊢
    have h16' : ¬ 16 ≤ (mbox s r.mailbox.toNat).pend.length := by omega
    simp [hlen, hl', hpa, h16']
  unfold goust byTag
  simp [hup, hf, href]

/-- A heard request with unit ids that exist and are powered is carried out. -/
theorem goust_units {s : State} {r : Req} {c : Cmd} (h : heardP s r c.op c.len = true) (hb : ∀ e ∈ c.bad, e.2 = false)
    (hu : ∀ u ∈ c.units, unitOk u.2 = true ∧ (uidCluster u.2 < 12 && (cluster s (uidClusterIndex u.2)).off) = false) :
    goust r c s = runCmd r c s := by
  simp only [heardP, heard, Bool.and_eq_true, beq_iff_eq, Option.isNone_iff_eq_none, decide_eq_true_eq] at h
  obtain ⟨⟨⟨⟨⟨⟨hup, hf⟩, hn⟩, hl⟩, hlen⟩, hp⟩, h16⟩ := h
  have hbad : c.bad.filter (·.2) = [] := by
    rw [List.filter_eq_nil_iff]; intro e he; simp [hb e he]
  have hoff : badOffset r c = none := by
    unfold badOffset; simp only [hbad, hn, List.map_nil]
  have hl' : r.present.toNat = c.len := hl ▸ hlen
  have hfind : c.units.find? (fun u => !unitOk u.2) = none := by
    rw [List.find?_eq_none]; intro u hu'; simp [(hu u hu').1]
  have hall : (c.units.all fun u => !(uidCluster u.2 < 12 && (cluster s (uidClusterIndex u.2)).off)) = true := by
    rw [List.all_eq_true]; intro u hu'; simp [(hu u hu').2]
  have href : refusal s r c = none := by
    unfold refusal
    rw [hoff, hfind]
    have hpa : powerAllows s c = true := by unfold powerAllows; rw [hall, Bool.and_true]; exact hp
    have h16' : ¬ 16 ≤ (mbox s r.mailbox.toNat).pend.length := by omega
    simp [hlen, hl', hpa, h16']
  unfold goust byTag
  simp [hup, hf, href]

end Sys2Proof.Machine
end

