-- ==== Sys2Proof/Laws/Memory.lean ====
section
/-! SUPPORT. Memory: every operation keeps its canonical form, and what a byte reads as after each. -/

namespace Sys2Proof.Machine

/-! ### The canonical form -/

theorem memOrdered_mono {lo hi : Nat} {m : List Host.Cell} (h : memOrdered hi m = true) (hl : lo ≤ hi) : memOrdered lo m = true := by
  cases m with
  | nil => rfl
  | cons c r =>
    simp only [memOrdered, Bool.and_eq_true, decide_eq_true_eq] at h ⊢
    exact ⟨⟨by omega, h.1.2⟩, h.2⟩

/-- Keeping some of the cells keeps the form. -/
theorem memOrdered_filter {lo : Nat} {m : List Host.Cell} (p : Host.Cell → Bool) (h : memOrdered lo m = true) :
    memOrdered lo (m.filter p) = true := by
  induction m generalizing lo with
  | nil => rfl
  | cons c r ih =>
    simp only [memOrdered, Bool.and_eq_true, decide_eq_true_eq] at h
    by_cases hp : p c = true
    · simp only [List.filter_cons_of_pos hp, memOrdered, Bool.and_eq_true, decide_eq_true_eq]
      exact ⟨h.1, ih h.2⟩
    · rw [List.filter_cons_of_neg hp]
      exact memOrdered_mono (ih h.2) (by omega)

/-- A part below an address and an ordered part from it on. -/
theorem memOrdered_append {lo mid : Nat} {a b : List Host.Cell} (ha : memOrdered lo a = true) (hb : memOrdered mid b = true)
    (hlo : lo ≤ mid) (hm : ∀ c ∈ a, c.1 < mid) : memOrdered lo (a ++ b) = true := by
  induction a generalizing lo with
  | nil => exact memOrdered_mono hb hlo
  | cons c r ih =>
    simp only [memOrdered, Bool.and_eq_true, decide_eq_true_eq, List.cons_append] at ha ⊢
    exact ⟨ha.1, ih ha.2 (hm c (by simp)) fun x hx => hm x (by simp [hx])⟩

/-- The cells from an address on. -/
theorem memOrdered_from {lo mid : Nat} {m : List Host.Cell} (h : memOrdered lo m = true) :
    memOrdered mid (m.filter fun c => mid ≤ c.1) = true := by
  induction m generalizing lo with
  | nil => rfl
  | cons c r ih =>
    simp only [memOrdered, Bool.and_eq_true, decide_eq_true_eq] at h
    by_cases hp : mid ≤ c.1
    · have hr : r.filter (fun c => decide (mid ≤ c.1)) = r.filter fun _ => true := by
        apply List.filter_congr
        intro x hx
        have := memOrdered_lt h.2 x hx
        simp only [decide_eq_true_eq]; omega
      rw [List.filter_cons_of_pos (by simpa using hp)]
      simp only [memOrdered, Bool.and_eq_true, decide_eq_true_eq]
      exact ⟨⟨hp, h.1.2⟩, hr ▸ memOrdered_filter _ h.2⟩
    · rw [List.filter_cons_of_neg (by simpa using hp)]
      exact ih h.2
where
  memOrdered_lt {lo : Nat} {m : List Host.Cell} (h : memOrdered lo m = true) : ∀ c ∈ m, lo ≤ c.1 := by
    induction m generalizing lo with
    | nil => simp
    | cons c r ih =>
      simp only [memOrdered, Bool.and_eq_true, decide_eq_true_eq] at h
      intro x hx
      cases hx with
      | head => exact h.1.1
      | tail _ hx => have := ih h.2 x hx; omega

theorem cellsOf_ordered (a : Nat) (bs : Bytes) : memOrdered a (cellsOf a bs) = true ∧ ∀ c ∈ cellsOf a bs, c.1 < a + bs.length := by
  induction bs generalizing a with
  | nil => exact ⟨rfl, by simp [cellsOf]⟩
  | cons b r ih =>
    obtain ⟨h1, h2⟩ := ih (a + 1)
    unfold cellsOf
    split
    · exact ⟨memOrdered_mono h1 (by omega), fun c hc => by have := h2 c hc; simp only [List.length_cons]; omega⟩
    · next hb =>
      refine ⟨by simp [memOrdered, hb, h1], fun c hc => ?_⟩
      cases hc with
      | head => simp only [List.length_cons]; omega
      | tail _ hc => have := h2 c hc; simp only [List.length_cons]; omega

theorem memOrdered_below {lo b : Nat} {m : List Host.Cell} (h : memOrdered lo m = true) :
    memOrdered lo (m.filter fun c => c.1 < b) = true ∧ ∀ c ∈ m.filter fun c => c.1 < b, c.1 < b :=
  ⟨memOrdered_filter _ h, fun c hc => by simpa using (List.mem_filter.1 hc).2⟩

/-- Writing bytes keeps the form. -/
theorem writeCells_wf (m : List Host.Cell) (a : Nat) (bs : Bytes) (h : Memory.wf m = true) : Memory.wf (writeCells m a bs) = true := by
  unfold Memory.wf writeCells at *
  obtain ⟨c1, c2⟩ := cellsOf_ordered a bs
  obtain ⟨b1, b2⟩ := memOrdered_below (b := a) h
  refine memOrdered_append (mid := a + bs.length) ?_ (memOrdered_from h) (Nat.zero_le _) ?_
  · exact memOrdered_append b1 c1 (Nat.zero_le _) b2
  · intro c hc
    rcases List.mem_append.1 hc with hc | hc
    · have := b2 c hc; omega
    · exact c2 c hc

/-- Clearing a range keeps the form. -/
theorem clearCells_wf (m : List Host.Cell) (a n : Nat) (h : Memory.wf m = true) : Memory.wf (clearCells m a n) = true :=
  memOrdered_filter _ h

/-- The cells of a range moved to another place. -/
theorem memOrdered_move {lo src n dst : Nat} {m : List Host.Cell} (h : memOrdered lo m = true) :
    memOrdered dst ((m.filter fun c => src ≤ c.1 && c.1 < src + n).map fun c => (c.1 - src + dst, c.2)) = true := by
  have key : ∀ (l : List Host.Cell) (lo : Nat), src ≤ lo → memOrdered lo l = true →
      memOrdered (lo - src + dst) (l.map fun c => (c.1 - src + dst, c.2)) = true := by
    intro l
    induction l with
    | nil => intros; rfl
    | cons c r ih =>
      intro lo hs hl
      simp only [memOrdered, Bool.and_eq_true, decide_eq_true_eq, List.map_cons] at hl ⊢
      have := ih (c.1 + 1) (by omega) hl.2
      exact ⟨⟨by omega, hl.1.2⟩, memOrdered_mono this (by omega)⟩
  have e : (m.filter fun c => src ≤ c.1 && c.1 < src + n) = (m.filter fun c => src ≤ c.1).filter fun c => c.1 < src + n := by
    rw [List.filter_filter]
    exact List.filter_congr fun c _ => Bool.and_comm _ _
  rw [e]
  have := key _ src (Nat.le_refl _) (memOrdered_filter (fun c => decide (c.1 < src + n)) (memOrdered_from (mid := src) h))
  exact memOrdered_mono this (by omega)

/-- Copying a range keeps the form. -/
theorem copyCells_wf (m : List Host.Cell) (src n dst : Nat) (h : Memory.wf m = true) : Memory.wf (copyCells m src n dst) = true := by
  unfold Memory.wf copyCells at *
  obtain ⟨b1, b2⟩ := memOrdered_below (b := dst) h
  refine memOrdered_append (memOrdered_append b1 ?_ (Nat.zero_le _) b2) (memOrdered_from (mid := dst + n) h) (Nat.zero_le _) ?_
  · exact memOrdered_move h
  · intro c hc
    rcases List.mem_append.1 hc with hc | hc
    · have := b2 c hc; omega
    · obtain ⟨x, hx, rfl⟩ := List.mem_map.1 hc
      have := (List.mem_filter.1 hx).2
      simp only [Bool.and_eq_true, decide_eq_true_eq] at this
      show x.1 - src + dst < dst + n
      omega

/-! ### Reading after writing -/

theorem readByte_none {m : List Host.Cell} {a : Nat} (h : ∀ c ∈ m, c.1 ≠ a) : readByte m a = blankByte := by
  induction m with
  | nil => rfl
  | cons c r ih => simp [readByte, h c (by simp), ih fun x hx => h x (by simp [hx])]

theorem readByte_append (m r : List Host.Cell) (a : Nat) (h : ∀ c ∈ m, c.1 ≠ a) : readByte (m ++ r) a = readByte r a := by
  induction m with
  | nil => rfl
  | cons c m ih => simp [readByte, h c (by simp), ih fun x hx => h x (by simp [hx])]

theorem readByte_append_left (m r : List Host.Cell) (a : Nat) (h : ∀ c ∈ r, c.1 ≠ a) : readByte (m ++ r) a = readByte m a := by
  induction m with
  | nil => exact readByte_none h
  | cons c m ih => simp [readByte, ih]

/-- A filter that keeps every cell of an address keeps what the address reads as. -/
theorem readByte_filter (m : List Host.Cell) (p : Host.Cell → Bool) (a : Nat) (h : ∀ c, c.1 = a → p c = true) :
    readByte (m.filter p) a = readByte m a := by
  induction m with
  | nil => rfl
  | cons c m ih =>
    by_cases hc : c.1 = a
    · simp [List.filter_cons_of_pos (h c hc), readByte, hc]
    · by_cases hp : p c = true
      · simp [List.filter_cons_of_pos hp, readByte, hc, ih]
      · simp [List.filter_cons_of_neg hp, readByte, hc, ih]

theorem readByte_filter_none (m : List Host.Cell) (p : Host.Cell → Bool) (a : Nat) (h : ∀ c, c.1 = a → p c = false) :
    readByte (m.filter p) a = blankByte :=
  readByte_none fun c hc e => by simp [h c e] at hc

theorem readByte_cellsOf (a i : Nat) (bs : Bytes) : readByte (cellsOf a bs) (a + i) = (bs[i]?).getD blankByte := by
  induction bs generalizing a i with
  | nil => rfl
  | cons b r ih =>
    unfold cellsOf
    cases i with
    | zero =>
      split
      · next h =>
        rw [readByte_none fun c hc => ?_]
        · simp [h]
        · have : memOrdered (a + 1) (cellsOf (a + 1) r) = true := (cellsOf_ordered _ _).1
          have := memOrdered_from.memOrdered_lt this c hc
          omega
      · simp [readByte]
    | succ i =>
      have e : a + (i + 1) = a + 1 + i := by omega
      split
      · rw [e, ih]; simp
      · rw [e, readByte, if_neg (by simp only; omega), ih]; simp

/-- A byte inside what was written reads as written. -/
theorem readByte_writeCells_in (m : List Host.Cell) (a i : Nat) (bs : Bytes) (h : i < bs.length) :
    readByte (writeCells m a bs) (a + i) = (bs[i]?).getD blankByte := by
  unfold writeCells
  rw [readByte_append_left _ _ _ fun c hc => ?_, readByte_append _ _ _ fun c hc => ?_, readByte_cellsOf]
  · have := (List.mem_filter.1 hc).2; simp only [decide_eq_true_eq] at this; omega
  · have := (List.mem_filter.1 hc).2; simp only [decide_eq_true_eq] at this; omega

/-- A byte outside what was written reads as before. -/
theorem readByte_writeCells_out (m : List Host.Cell) (a b : Nat) (bs : Bytes) (h : b < a ∨ a + bs.length ≤ b) :
    readByte (writeCells m a bs) b = readByte m b := by
  have hc : ∀ c ∈ cellsOf a bs, c.1 ≠ b := fun c hc => by
    have h1 := (cellsOf_ordered a bs).2 c hc
    have h2 := memOrdered_from.memOrdered_lt (cellsOf_ordered a bs).1 c hc
    omega
  unfold writeCells
  rcases h with h | h
  · rw [readByte_append_left _ _ _ fun c hc => ?_, readByte_append_left _ _ _ hc, readByte_filter]
    · intro c e; simpa [e] using h
    · have := (List.mem_filter.1 hc).2; simp only [decide_eq_true_eq] at this; omega
  · rw [readByte_append _ _ _ fun c hc' => ?_, readByte_filter]
    · intro c e; simpa [e] using h
    · rcases List.mem_append.1 hc' with h' | h'
      · have := (List.mem_filter.1 h').2; simp only [decide_eq_true_eq] at this; omega
      · exact hc c h'

/-- A byte of a cleared range is blank. -/
theorem readByte_clearCells_in (m : List Host.Cell) (a n b : Nat) (h : a ≤ b ∧ b < a + n) : readByte (clearCells m a n) b = blankByte :=
  readByte_filter_none _ _ _ fun c e => by simp [e]; omega

/-- A byte outside a cleared range reads as before. -/
theorem readByte_clearCells_out (m : List Host.Cell) (a n b : Nat) (h : b < a ∨ a + n ≤ b) : readByte (clearCells m a n) b = readByte m b :=
  readByte_filter _ _ _ fun c e => by simpa [e] using h

end Sys2Proof.Machine
end

