-- ==== Sys2Proof/Laws/Does.lean ====
section
/-! SUPPORT. `Does T s t`: going from `s` to `t` changes no field of State outside `T`, keeps memory canonical, blows fuses only upwards
and leaves the queue of commands alone. Each shared operation has one lemma in these terms. -/

namespace Sys2Proof.Machine

/-- The fields of State but for the queue of commands. -/
inductive Part where
  | variant | clk | rul | ptp | pwr | boot | booted | sec | halted | blot | tickEvents | tests | excluded | exclusions | mboxes
  | links | taken | heldLoads | plans | actions | zeroing | fitReport | mem | pages | allocs | sched | queues | cells | regHeld
  | parked | queueWaits | remote | hostSigs | streams | tables | combiners | joins | stats | nibs | lists | matchUnits | batches
  | caches | dips | ports | deviceNumber | neighbours | tx | rx | windows | counters | sent | jtagBypass | tlmAck | jtagOut
  | ppsOut | lanesDown | linksDown | lines | poolCorr | freeCtr
  deriving DecidableEq

/-- A field has the same value in two states. -/
def Part.kept : Part → State → State → Prop
  | .variant, s, t => t.variant = s.variant
  | .clk, s, t => t.clk = s.clk
  | .rul, s, t => t.rul = s.rul
  | .ptp, s, t => t.ptp = s.ptp
  | .pwr, s, t => t.pwr = s.pwr
  | .boot, s, t => t.boot = s.boot
  | .booted, s, t => t.booted = s.booted
  | .sec, s, t => t.sec = s.sec
  | .halted, s, t => t.halted = s.halted
  | .blot, s, t => t.blot = s.blot
  | .tickEvents, s, t => t.tickEvents = s.tickEvents
  | .tests, s, t => t.tests = s.tests
  | .excluded, s, t => t.excluded = s.excluded
  | .exclusions, s, t => t.exclusions = s.exclusions
  | .mboxes, s, t => t.mboxes = s.mboxes
  | .links, s, t => t.links = s.links
  | .taken, s, t => t.taken = s.taken
  | .heldLoads, s, t => t.heldLoads = s.heldLoads
  | .plans, s, t => t.plans = s.plans
  | .actions, s, t => t.actions = s.actions
  | .zeroing, s, t => t.zeroing = s.zeroing
  | .fitReport, s, t => t.fitReport = s.fitReport
  | .mem, s, t => t.mem = s.mem
  | .pages, s, t => t.pages = s.pages
  | .allocs, s, t => t.allocs = s.allocs
  | .sched, s, t => t.sched = s.sched
  | .queues, s, t => t.queues = s.queues
  | .cells, s, t => t.cells = s.cells
  | .regHeld, s, t => t.regHeld = s.regHeld
  | .parked, s, t => t.parked = s.parked
  | .queueWaits, s, t => t.queueWaits = s.queueWaits
  | .remote, s, t => t.remote = s.remote
  | .hostSigs, s, t => t.hostSigs = s.hostSigs
  | .streams, s, t => t.streams = s.streams
  | .tables, s, t => t.tables = s.tables
  | .combiners, s, t => t.combiners = s.combiners
  | .joins, s, t => t.joins = s.joins
  | .stats, s, t => t.stats = s.stats
  | .nibs, s, t => t.nibs = s.nibs
  | .lists, s, t => t.lists = s.lists
  | .matchUnits, s, t => t.matchUnits = s.matchUnits
  | .batches, s, t => t.batches = s.batches
  | .caches, s, t => t.caches = s.caches
  | .dips, s, t => t.dips = s.dips
  | .ports, s, t => t.ports = s.ports
  | .deviceNumber, s, t => t.deviceNumber = s.deviceNumber
  | .neighbours, s, t => t.neighbours = s.neighbours
  | .tx, s, t => t.tx = s.tx
  | .rx, s, t => t.rx = s.rx
  | .windows, s, t => t.windows = s.windows
  | .counters, s, t => t.counters = s.counters
  | .sent, s, t => t.sent = s.sent
  | .jtagBypass, s, t => t.jtagBypass = s.jtagBypass
  | .tlmAck, s, t => t.tlmAck = s.tlmAck
  | .jtagOut, s, t => t.jtagOut = s.jtagOut
  | .ppsOut, s, t => t.ppsOut = s.ppsOut
  | .lanesDown, s, t => t.lanesDown = s.lanesDown
  | .linksDown, s, t => t.linksDown = s.linksDown
  | .lines, s, t => t.lines = s.lines
  | .poolCorr, s, t => t.poolCorr = s.poolCorr
  | .freeCtr, s, t => t.freeCtr = s.freeCtr

theorem Part.kept_refl (f : Part) (s : State) : f.kept s s := by cases f <;> rfl

theorem Part.kept_trans (f : Part) {s t u : State} (h : f.kept s t) (g : f.kept t u) : f.kept s u := by
  cases f <;> exact Eq.trans g h

/-- The fuses of a later state: only the revocation bits and the minimum security version differ, and they only rise. -/
def Fuses.rise (a b : Fuses) : Prop :=
  b.dus = a.dus ∧ b.vkh = a.vkh ∧ b.serial = a.serial ∧ b.macBase = a.macBase ∧ b.debugDisable = a.debugDisable ∧
    b.revoke ||| a.revoke = b.revoke ∧ b.minSvn ||| a.minSvn = b.minSvn

theorem Fuses.rise_refl (a : Fuses) : Fuses.rise a a := by simp [Fuses.rise]

theorem or_absorb_trans {n : Nat} {a b c : BitVec n} (h : b ||| a = b) (g : c ||| b = c) : c ||| a = c := by
  rw [← g, BitVec.or_assoc, h]

theorem Fuses.rise_trans {a b c : Fuses} (h : Fuses.rise a b) (g : Fuses.rise b c) : Fuses.rise a c := by
  obtain ⟨h1, h2, h3, h4, h5, h6, h7⟩ := h
  obtain ⟨g1, g2, g3, g4, g5, g6, g7⟩ := g
  exact ⟨g1.trans h1, g2.trans h2, g3.trans h3, g4.trans h4, g5.trans h5, or_absorb_trans h6 g6, or_absorb_trans h7 g7⟩

/-- What an operation that touches the fields `T` does to a state. -/
structure Does (T : List Part) (s t : State) : Prop where
  frame : ∀ f, f ∉ T → f.kept s t
  mem : memInv s → memInv t
  fuses : Fuses.rise s.sec.fuses t.sec.fuses
  pending : t.pending = s.pending

/-- Every field of a list is in another. -/
def subPart (A B : List Part) : Bool := A.all fun f => B.contains f

theorem subPart_mem {A B : List Part} (h : subPart A B = true) {f : Part} (hf : f ∈ A) : f ∈ B := by
  simp only [subPart, List.all_eq_true, List.contains_iff_mem] at h
  exact h f hf

theorem subPart_trans {A B C : List Part} (h : subPart A B = true) (g : subPart B C = true) : subPart A C = true := by
  simp only [subPart, List.all_eq_true, List.contains_iff_mem] at *
  exact fun f hf => g f (h f hf)

theorem Does.refl {T : List Part} (s : State) : Does T s s :=
  ⟨fun f _ => f.kept_refl s, id, Fuses.rise_refl _, rfl⟩

theorem Does.mono {A T : List Part} {s t : State} (h : Does A s t) (hA : subPart A T = true) : Does T s t :=
  ⟨fun f hf => h.frame f fun hf' => hf (subPart_mem hA hf'), h.mem, h.fuses, h.pending⟩

theorem Does.trans {T : List Part} {s t u : State} (h : Does T s t) (g : Does T t u) : Does T s u :=
  ⟨fun f hf => f.kept_trans (h.frame f hf) (g.frame f hf), fun m => g.mem (h.mem m), Fuses.rise_trans h.fuses g.fuses,
    g.pending.trans h.pending⟩

/-- An operation after others. -/
theorem Does.next {A T : List Part} {s t u : State} (g : Does A t u) (hA : subPart A T = true) (h : Does T s t) : Does T s u :=
  h.trans (g.mono hA)

/-- A record update of `t`: the queue, the memory and the fuses are its own, and it differs in fields of `T` only. -/
theorem Does.set {T : List Part} {s t : State}
    {a0 : Variant} {a1 : Clock} {a2 : Ruling} {a3 : Ptp} {a4 : Power} {a5 : Boot} {a6 : Booted} {a7 : Seal} {a8 : Bool} {a9 : Blotter}
    {a10 : List TickEvent} {a11 : List SelfTest} {a12 : List (BitVec 16)} {a13 : List (List (BitVec 16))} {a14 : List (Nat × Mailbox)}
    {a15 : List (Nat × MailboxLink)} {a16 : List (Nat × Bytes × Nat)} {a17 : List (Instr × Nat × Nat)} {a18 : List (Nat × Plan)}
    {a19 : List Pending} {a20 : List Zeroing} {a21 : Option Bytes} {a22 : List Host.Cell} {a23 : List (Nat × Page)} {a24 : List Alloc}
    {a25 : List (Nat × Cluster)} {a26 : List (Nat × Queue)} {a27 : List (Nat × SigCell)} {a28 : List (Nat × Waiter)}
    {a29 : List Parked} {a30 : List (Nat × Waiter)} {a31 : List RemoteSignal} {a32 : List HostSignal}
    {a33 : List ((Nat × Nat) × Stream)} {a34 : List ((Nat × Nat) × Table)} {a35 : List (Nat × Combiner)}
    {a36 : List ((Nat × Nat) × Join)} {a37 : List ((Nat × Nat) × StatObj)} {a38 : List (Nat × List Group)}
    {a39 : List ((Nat × Nat × Nat) × SelList)} {a40 : List (Nat × MatchUnit)} {a41 : List ((Nat × Nat) × Batch)}
    {a42 : List ((Nat × Nat) × SampleCache)} {a43 : List (Nat × DipPart)} {a44 : List (Nat × Port)} {a45 : BitVec 10}
    {a46 : List (Nat × Neighbour)} {a47 : List TxStream} {a48 : List RxStream} {a49 : List SeqWindow} {a50 : List SeqCounter}
    {a51 : List SentFrame} {a52 : Bool} {a53 : Bool} {a54 : BitVec 32} {a55 : Nat} {a56 : List (BitVec 16)} {a57 : List Nat}
    {a58 : List (Nat × List Nat)} {a59 : List (Nat × Nat)} {a60 : Nat} {a61 : List Instr}
    (hp : a61 = t.pending) (hm : a22 = t.mem) (hs : a7.fuses = t.sec.fuses)
    (hf : ∀ f, f ∉ T → f.kept t
      ⟨a0, a1, a2, a3, a4, a5, a6, a7, a8, a9, a10, a11, a12, a13, a14, a15, a16, a17, a18, a19, a20, a21, a22, a23, a24, a25,
        a26, a27, a28, a29, a30, a31, a32, a33, a34, a35, a36, a37, a38, a39, a40, a41, a42, a43, a44, a45, a46, a47, a48, a49,
        a50, a51, a52, a53, a54, a55, a56, a57, a58, a59, a60, a61⟩)
    (h : Does T s t) : Does T s
      ⟨a0, a1, a2, a3, a4, a5, a6, a7, a8, a9, a10, a11, a12, a13, a14, a15, a16, a17, a18, a19, a20, a21, a22, a23, a24, a25,
        a26, a27, a28, a29, a30, a31, a32, a33, a34, a35, a36, a37, a38, a39, a40, a41, a42, a43, a44, a45, a46, a47, a48, a49,
        a50, a51, a52, a53, a54, a55, a56, a57, a58, a59, a60, a61⟩ :=
  h.trans ⟨hf, fun m => by unfold memInv at *; exact hm ▸ m, hs.symm ▸ Fuses.rise_refl _, hp⟩

/-- A record update that writes memory too. -/
theorem Does.setMem {T : List Part} {s t : State}
    {a0 : Variant} {a1 : Clock} {a2 : Ruling} {a3 : Ptp} {a4 : Power} {a5 : Boot} {a6 : Booted} {a7 : Seal} {a8 : Bool} {a9 : Blotter}
    {a10 : List TickEvent} {a11 : List SelfTest} {a12 : List (BitVec 16)} {a13 : List (List (BitVec 16))} {a14 : List (Nat × Mailbox)}
    {a15 : List (Nat × MailboxLink)} {a16 : List (Nat × Bytes × Nat)} {a17 : List (Instr × Nat × Nat)} {a18 : List (Nat × Plan)}
    {a19 : List Pending} {a20 : List Zeroing} {a21 : Option Bytes} {a22 : List Host.Cell} {a23 : List (Nat × Page)} {a24 : List Alloc}
    {a25 : List (Nat × Cluster)} {a26 : List (Nat × Queue)} {a27 : List (Nat × SigCell)} {a28 : List (Nat × Waiter)}
    {a29 : List Parked} {a30 : List (Nat × Waiter)} {a31 : List RemoteSignal} {a32 : List HostSignal}
    {a33 : List ((Nat × Nat) × Stream)} {a34 : List ((Nat × Nat) × Table)} {a35 : List (Nat × Combiner)}
    {a36 : List ((Nat × Nat) × Join)} {a37 : List ((Nat × Nat) × StatObj)} {a38 : List (Nat × List Group)}
    {a39 : List ((Nat × Nat × Nat) × SelList)} {a40 : List (Nat × MatchUnit)} {a41 : List ((Nat × Nat) × Batch)}
    {a42 : List ((Nat × Nat) × SampleCache)} {a43 : List (Nat × DipPart)} {a44 : List (Nat × Port)} {a45 : BitVec 10}
    {a46 : List (Nat × Neighbour)} {a47 : List TxStream} {a48 : List RxStream} {a49 : List SeqWindow} {a50 : List SeqCounter}
    {a51 : List SentFrame} {a52 : Bool} {a53 : Bool} {a54 : BitVec 32} {a55 : Nat} {a56 : List (BitVec 16)} {a57 : List Nat}
    {a58 : List (Nat × List Nat)} {a59 : List (Nat × Nat)} {a60 : Nat} {a61 : List Instr}
    (hp : a61 = t.pending) (hm : Memory.wf t.mem = true → Memory.wf a22 = true) (hs : a7.fuses = t.sec.fuses)
    (hf : ∀ f, f ∉ T → f.kept t
      ⟨a0, a1, a2, a3, a4, a5, a6, a7, a8, a9, a10, a11, a12, a13, a14, a15, a16, a17, a18, a19, a20, a21, a22, a23, a24, a25,
        a26, a27, a28, a29, a30, a31, a32, a33, a34, a35, a36, a37, a38, a39, a40, a41, a42, a43, a44, a45, a46, a47, a48, a49,
        a50, a51, a52, a53, a54, a55, a56, a57, a58, a59, a60, a61⟩)
    (h : Does T s t) : Does T s
      ⟨a0, a1, a2, a3, a4, a5, a6, a7, a8, a9, a10, a11, a12, a13, a14, a15, a16, a17, a18, a19, a20, a21, a22, a23, a24, a25,
        a26, a27, a28, a29, a30, a31, a32, a33, a34, a35, a36, a37, a38, a39, a40, a41, a42, a43, a44, a45, a46, a47, a48, a49,
        a50, a51, a52, a53, a54, a55, a56, a57, a58, a59, a60, a61⟩ :=
  h.trans ⟨hf, hm, hs.symm ▸ Fuses.rise_refl _, hp⟩

/-- A choice between two operations. -/
theorem Does.ite {c : Prop} [Decidable c] {T : List Part} {s a b : State} (ha : c → Does T s a) (hb : ¬c → Does T s b) :
    Does T s (if c then a else b) := by
  split
  · exact ha ‹_›
  · exact hb ‹_›

/-- The state in a pair that an operation answers. -/
theorem Does.of_snd {α : Type} {T : List Part} {s b : State} {x : α × State} {a : α} (e : x = (a, b)) (h : Does T s x.2) : Does T s b := by
  subst e; exact h

/-- A fold of an operation. -/
theorem Does.foldl {α : Type} {T : List Part} {s t : State} {f : State → α → State} (l : List α)
    (hf : ∀ u a, Does T u (f u a)) (h : Does T s t) : Does T s (l.foldl f t) := by
  induction l generalizing t with
  | nil => exact h
  | cons a l ih => exact ih (h.trans (hf t a))

/-- A fold of an operation on something that holds a state. -/
theorem Does.foldlOn {α β : Type} {T : List Part} {s : State} (p : β → State) {f : β → α → β} {b : β} (l : List α)
    (hf : ∀ u a, Does T (p u) (p (f u a))) (h : Does T s (p b)) : Does T s (p (l.foldl f b)) := by
  induction l generalizing b with
  | nil => exact h
  | cons a l ih => exact ih (h.trans (hf b a))

/-- The state that takes the fields of `T` from `t` and the others from `s`. -/
def State.mix (T : List Part) (s t : State) : State where
  variant := if Part.variant ∈ T then t.variant else s.variant
  clk := if Part.clk ∈ T then t.clk else s.clk
  rul := if Part.rul ∈ T then t.rul else s.rul
  ptp := if Part.ptp ∈ T then t.ptp else s.ptp
  pwr := if Part.pwr ∈ T then t.pwr else s.pwr
  boot := if Part.boot ∈ T then t.boot else s.boot
  booted := if Part.booted ∈ T then t.booted else s.booted
  sec := if Part.sec ∈ T then t.sec else s.sec
  halted := if Part.halted ∈ T then t.halted else s.halted
  blot := if Part.blot ∈ T then t.blot else s.blot
  tickEvents := if Part.tickEvents ∈ T then t.tickEvents else s.tickEvents
  tests := if Part.tests ∈ T then t.tests else s.tests
  excluded := if Part.excluded ∈ T then t.excluded else s.excluded
  exclusions := if Part.exclusions ∈ T then t.exclusions else s.exclusions
  mboxes := if Part.mboxes ∈ T then t.mboxes else s.mboxes
  links := if Part.links ∈ T then t.links else s.links
  taken := if Part.taken ∈ T then t.taken else s.taken
  heldLoads := if Part.heldLoads ∈ T then t.heldLoads else s.heldLoads
  plans := if Part.plans ∈ T then t.plans else s.plans
  actions := if Part.actions ∈ T then t.actions else s.actions
  zeroing := if Part.zeroing ∈ T then t.zeroing else s.zeroing
  fitReport := if Part.fitReport ∈ T then t.fitReport else s.fitReport
  mem := if Part.mem ∈ T then t.mem else s.mem
  pages := if Part.pages ∈ T then t.pages else s.pages
  allocs := if Part.allocs ∈ T then t.allocs else s.allocs
  sched := if Part.sched ∈ T then t.sched else s.sched
  queues := if Part.queues ∈ T then t.queues else s.queues
  cells := if Part.cells ∈ T then t.cells else s.cells
  regHeld := if Part.regHeld ∈ T then t.regHeld else s.regHeld
  parked := if Part.parked ∈ T then t.parked else s.parked
  queueWaits := if Part.queueWaits ∈ T then t.queueWaits else s.queueWaits
  remote := if Part.remote ∈ T then t.remote else s.remote
  hostSigs := if Part.hostSigs ∈ T then t.hostSigs else s.hostSigs
  streams := if Part.streams ∈ T then t.streams else s.streams
  tables := if Part.tables ∈ T then t.tables else s.tables
  combiners := if Part.combiners ∈ T then t.combiners else s.combiners
  joins := if Part.joins ∈ T then t.joins else s.joins
  stats := if Part.stats ∈ T then t.stats else s.stats
  nibs := if Part.nibs ∈ T then t.nibs else s.nibs
  lists := if Part.lists ∈ T then t.lists else s.lists
  matchUnits := if Part.matchUnits ∈ T then t.matchUnits else s.matchUnits
  batches := if Part.batches ∈ T then t.batches else s.batches
  caches := if Part.caches ∈ T then t.caches else s.caches
  dips := if Part.dips ∈ T then t.dips else s.dips
  ports := if Part.ports ∈ T then t.ports else s.ports
  deviceNumber := if Part.deviceNumber ∈ T then t.deviceNumber else s.deviceNumber
  neighbours := if Part.neighbours ∈ T then t.neighbours else s.neighbours
  tx := if Part.tx ∈ T then t.tx else s.tx
  rx := if Part.rx ∈ T then t.rx else s.rx
  windows := if Part.windows ∈ T then t.windows else s.windows
  counters := if Part.counters ∈ T then t.counters else s.counters
  sent := if Part.sent ∈ T then t.sent else s.sent
  jtagBypass := if Part.jtagBypass ∈ T then t.jtagBypass else s.jtagBypass
  tlmAck := if Part.tlmAck ∈ T then t.tlmAck else s.tlmAck
  jtagOut := if Part.jtagOut ∈ T then t.jtagOut else s.jtagOut
  ppsOut := if Part.ppsOut ∈ T then t.ppsOut else s.ppsOut
  lanesDown := if Part.lanesDown ∈ T then t.lanesDown else s.lanesDown
  linksDown := if Part.linksDown ∈ T then t.linksDown else s.linksDown
  lines := if Part.lines ∈ T then t.lines else s.lines
  poolCorr := if Part.poolCorr ∈ T then t.poolCorr else s.poolCorr
  freeCtr := if Part.freeCtr ∈ T then t.freeCtr else s.freeCtr
  pending := s.pending

theorem kept_or {p : Prop} [Decidable p] {α : Type} {a b : α} (h : ¬p → a = b) : a = if p then a else b := by
  split
  · rfl
  · exact h ‹_›

/-- What an operation leaves, as an update of what it found: for a literal `T` the right side is `{ s with … }` by `rfl`. -/
theorem Does.eq_mix {T : List Part} {s t : State} (h : Does T s t) : t = State.mix T s t := by
  cases t
  have f := h.frame
  have p := h.pending
  simp only [State.mix]
  congr 1
  · exact kept_or fun n => f .variant n
  · exact kept_or fun n => f .clk n
  · exact kept_or fun n => f .rul n
  · exact kept_or fun n => f .ptp n
  · exact kept_or fun n => f .pwr n
  · exact kept_or fun n => f .boot n
  · exact kept_or fun n => f .booted n
  · exact kept_or fun n => f .sec n
  · exact kept_or fun n => f .halted n
  · exact kept_or fun n => f .blot n
  · exact kept_or fun n => f .tickEvents n
  · exact kept_or fun n => f .tests n
  · exact kept_or fun n => f .excluded n
  · exact kept_or fun n => f .exclusions n
  · exact kept_or fun n => f .mboxes n
  · exact kept_or fun n => f .links n
  · exact kept_or fun n => f .taken n
  · exact kept_or fun n => f .heldLoads n
  · exact kept_or fun n => f .plans n
  · exact kept_or fun n => f .actions n
  · exact kept_or fun n => f .zeroing n
  · exact kept_or fun n => f .fitReport n
  · exact kept_or fun n => f .mem n
  · exact kept_or fun n => f .pages n
  · exact kept_or fun n => f .allocs n
  · exact kept_or fun n => f .sched n
  · exact kept_or fun n => f .queues n
  · exact kept_or fun n => f .cells n
  · exact kept_or fun n => f .regHeld n
  · exact kept_or fun n => f .parked n
  · exact kept_or fun n => f .queueWaits n
  · exact kept_or fun n => f .remote n
  · exact kept_or fun n => f .hostSigs n
  · exact kept_or fun n => f .streams n
  · exact kept_or fun n => f .tables n
  · exact kept_or fun n => f .combiners n
  · exact kept_or fun n => f .joins n
  · exact kept_or fun n => f .stats n
  · exact kept_or fun n => f .nibs n
  · exact kept_or fun n => f .lists n
  · exact kept_or fun n => f .matchUnits n
  · exact kept_or fun n => f .batches n
  · exact kept_or fun n => f .caches n
  · exact kept_or fun n => f .dips n
  · exact kept_or fun n => f .ports n
  · exact kept_or fun n => f .deviceNumber n
  · exact kept_or fun n => f .neighbours n
  · exact kept_or fun n => f .tx n
  · exact kept_or fun n => f .rx n
  · exact kept_or fun n => f .windows n
  · exact kept_or fun n => f .counters n
  · exact kept_or fun n => f .sent n
  · exact kept_or fun n => f .jtagBypass n
  · exact kept_or fun n => f .tlmAck n
  · exact kept_or fun n => f .jtagOut n
  · exact kept_or fun n => f .ppsOut n
  · exact kept_or fun n => f .lanesDown n
  · exact kept_or fun n => f .linksDown n
  · exact kept_or fun n => f .lines n
  · exact kept_or fun n => f .poolCorr n
  · exact kept_or fun n => f .freeCtr n

/-- The state a command's result leaves before it is answered. -/
def CmdRes.state (s : State) : CmdRes → State
  | .ok t _ => t
  | .accept t _ _ => t
  | .hold t => t
  | .fail _ _ => s
  | .failWith t _ _ => t

/-- The state a stage's body leaves, the one it found where it must wait. -/
def stageState (s : State) : Option StageOut → State
  | some o => o.st
  | none => s

/-- The state that placing one row of a slice leaves. -/
def Placed.state : Placed → State
  | .held s => s
  | .absent _ _ s => s
  | .done s => s

end Sys2Proof.Machine
end

