-- ==== Sys2Proof/Laws/DoesCore.lean ====
section
/-! SUPPORT. What the shared operations over the clock, memory, the schedulers, signals, records, queues, mailboxes and the ruling do: the fields each touches. -/

namespace Sys2Proof.Machine

theorem setPort_does (p : Nat) (x : Port) (s : State) :
    Does [.ports] s (setPort p x s) := by
  unfold setPort
  with_reducible refine .set rfl rfl rfl (fun f hf => ?_) ?_
  · cases f <;> first | exact absurd (by decide) hf | exact Eq.refl _
  exact .refl _

theorem tickEvent_does (e : TickEvent) (s : State) :
    Does [.tickEvents] s (tickEvent e s) := by
  unfold tickEvent
  dsimp only
  refine .ite (fun _ => ?_) (fun _ => ?_)
  · with_reducible refine .set rfl rfl rfl (fun f hf => ?_) ?_
    · cases f <;> first | exact absurd (by decide) hf | exact Eq.refl _
    exact .refl _
  · with_reducible refine .set rfl rfl rfl (fun f hf => ?_) ?_
    · cases f <;> first | exact absurd (by decide) hf | exact Eq.refl _
    exact .refl _

theorem setMbox_does (m : Nat) (b : Mailbox) (s : State) :
    Does [.mboxes] s (setMbox m b s) := by
  unfold setMbox
  with_reducible refine .set rfl rfl rfl (fun f hf => ?_) ?_
  · cases f <;> first | exact absurd (by decide) hf | exact Eq.refl _
  exact .refl _

theorem keepDone_does (m : Nat) (k : Kept) (s : State) :
    Does [.mboxes] s (keepDone m k s) := by
  unfold keepDone
  dsimp only
  exact .next (setMbox_does ..) (by decide) (.refl _)

theorem setQueue_does (q : Nat) (x : Queue) (s : State) :
    Does [.queues] s (setQueue q x s) := by
  unfold setQueue
  with_reducible refine .set rfl rfl rfl (fun f hf => ?_) ?_
  · cases f <;> first | exact absurd (by decide) hf | exact Eq.refl _
  exact .refl _

theorem enqueue_does (q : Nat) (x : Queue) (tag : Nat) (bs : Bytes) (s : State) :
    Does [.queues, .freeCtr] s (enqueue q x tag bs s) := by
  unfold enqueue
  dsimp only
  refine .next (setQueue_does ..) (by decide) ?_
  with_reducible refine .set rfl rfl rfl (fun f hf => ?_) ?_
  · cases f <;> first | exact absurd (by decide) hf | exact Eq.refl _
  exact .refl _

theorem sendMessage_does (m : Nat) (msg : Bytes) (s : State) :
    Does [.mboxes, .queues, .freeCtr] s (sendMessage m msg s) := by
  unfold sendMessage
  dsimp only
  split
  · refine .ite (fun _ => ?_) (fun _ => ?_)
    · exact .next (enqueue_does ..) (by decide) (.refl _)
    · exact .next (setMbox_does ..) (by decide) (.refl _)
  · exact .next (setMbox_does ..) (by decide) (.refl _)

theorem finalAnswer_does (kind : PendKind → Bool) (status : Nat) (detail : Nat) (body : Bytes) (s : State) :
    Does [.mboxes, .queues, .freeCtr] s (finalAnswer kind status detail body s) := by
  unfold finalAnswer
  dsimp only
  refine .ite (fun _ => ?_) (fun _ => ?_)
  · exact .refl _
  · refine .foldl _ (fun u a => ?_) ?_
    · refine .foldl _ (fun u a => ?_) ?_
      · refine .ite (fun _ => ?_) (fun _ => ?_)
        · exact .next (setMbox_does ..) (by decide) (.next (keepDone_does ..) (by decide)
              (.next (sendMessage_does ..) (by decide) (.refl _)))
        · exact .refl _
      · exact .refl _
    · exact .refl _

theorem setCluster_does (k : Nat) (c : Cluster) (s : State) :
    Does [.sched] s (setCluster k c s) := by
  unfold setCluster
  with_reducible refine .set rfl rfl rfl (fun f hf => ?_) ?_
  · cases f <;> first | exact absurd (by decide) hf | exact Eq.refl _
  exact .refl _

theorem scribeAt_does (k : Nat) (at' : Nat) (r : ScrRec) (s : State) :
    Does [.sched] s (scribeAt k at' r s) := by
  unfold scribeAt
  dsimp only
  exact .next (setCluster_does ..) (by decide) (.refl _)

theorem listEvent_does (k : Nat) (t : Task) (reason : Nat) (arg : Nat) (s : State) :
    Does [.sched] s (listEvent k t reason arg s) := by
  unfold listEvent
  dsimp only
  exact .next (scribeAt_does ..) (by decide) (.next (setCluster_does ..) (by decide) (.refl _))

theorem acceptCmd_does (r : Req) (op : Nat) (kind : PendKind) (body : Bytes) (s : State) :
    Does [.mboxes, .queues, .freeCtr] s (acceptCmd r op kind body s) := by
  unfold acceptCmd
  dsimp only
  exact .next (setMbox_does ..) (by decide) (.next (sendMessage_does ..) (by decide) (.refl _))

theorem setPlan_does (slot : Nat) (p : Plan) (s : State) :
    Does [.plans] s (setPlan slot p s) := by
  unfold setPlan
  with_reducible refine .set rfl rfl rfl (fun f hf => ?_) ?_
  · cases f <;> first | exact absurd (by decide) hf | exact Eq.refl _
  exact .refl _

theorem setStatus_does (hi : Nat) (lo : Nat) (v : Nat) (s : State) :
    Does [.rul] s (setStatus hi lo v s) := by
  unfold setStatus
  dsimp only
  with_reducible refine .set rfl rfl rfl (fun f hf => ?_) ?_
  · cases f <;> first | exact absurd (by decide) hf | exact Eq.refl _
  exact .refl _

theorem ackStatus_does (value : BitVec 32) (s : State) :
    Does [.rul] s (ackStatus value s) := by
  unfold ackStatus
  dsimp only
  refine .ite (fun _ => ?_) (fun _ => ?_)
  · refine .next (setStatus_does ..) (by decide) ?_
    refine .ite (fun _ => ?_) (fun _ => ?_)
    · with_reducible refine .set rfl rfl rfl (fun f hf => ?_) ?_
      · cases f <;> first | exact absurd (by decide) hf | exact Eq.refl _
      exact .next (setStatus_does ..) (by decide) (.next (setStatus_does ..) (by decide) (.refl _))
    · exact .refl _
  · refine .ite (fun _ => ?_) (fun _ => ?_)
    · with_reducible refine .set rfl rfl rfl (fun f hf => ?_) ?_
      · cases f <;> first | exact absurd (by decide) hf | exact Eq.refl _
      exact .next (setStatus_does ..) (by decide) (.next (setStatus_does ..) (by decide) (.refl _))
    · exact .refl _

theorem dirtyPage_does (p : Nat) (s : State) :
    Does [.pages] s (dirtyPage p s) := by
  unfold dirtyPage
  split
  · refine .ite (fun _ => ?_) (fun _ => ?_)
    · exact .refl _
    · with_reducible refine .set rfl rfl rfl (fun f hf => ?_) ?_
      · cases f <;> first | exact absurd (by decide) hf | exact Eq.refl _
      exact .refl _
  · exact .refl _

theorem writePiece_does (s : State) (p : Nat × Bytes) :
    Does [.mem, .pages] s (writePiece s p) := by
  unfold writePiece
  dsimp only
  split
  · refine .ite (fun _ => ?_) (fun _ => ?_)
    · refine .next (dirtyPage_does ..) (by decide) ?_
      with_reducible refine .setMem rfl (fun m => ?_) rfl (fun f hf => ?_) ?_
      · first | exact writeCells_wf _ _ _ m | exact clearCells_wf _ _ _ m | exact copyCells_wf _ _ _ _ m
      · cases f <;> first | exact absurd (by decide) hf | exact Eq.refl _
      exact .refl _
    · with_reducible refine .setMem rfl (fun m => ?_) rfl (fun f hf => ?_) ?_
      · first | exact writeCells_wf _ _ _ m | exact clearCells_wf _ _ _ m | exact copyCells_wf _ _ _ _ m
      · cases f <;> first | exact absurd (by decide) hf | exact Eq.refl _
      exact .refl _
  · exact .refl _

theorem writeDva_does (s : State) (dva : Nat) (bs : Bytes) :
    Does [.mem, .pages] s (writeDva s dva bs) := by
  unfold writeDva
  refine .foldl _ (fun u a => ?_) ?_
  · exact .next (writePiece_does ..) (by decide) (.refl _)
  · exact .refl _

theorem setCell_does (n : Nat) (c : SigCell) (s : State) :
    Does [.cells] s (setCell n c s) := by
  unfold setCell
  with_reducible refine .set rfl rfl rfl (fun f hf => ?_) ?_
  · cases f <;> first | exact absurd (by decide) hf | exact Eq.refl _
  exact .refl _

theorem makeReady_does (t : Task) (s : State) :
    Does [.sched] s (makeReady t s) := by
  unfold makeReady
  dsimp only
  exact .next (scribeAt_does ..) (by decide) (.next (setCluster_does ..) (by decide) (.refl _))

theorem holdBack_does (source : Nat) (t : Task) (s : State) :
    Does [.sched] s (holdBack source t s) := by
  unfold holdBack
  dsimp only
  exact .next (listEvent_does ..) (by decide) (.next (setCluster_does ..) (by decide) (.refl _))

theorem offerMargin_does (source : Nat) (t : Task) (s : State) :
    Does [.sched] s (offerMargin source t s) := by
  unfold offerMargin
  refine .ite (fun _ => ?_) (fun _ => ?_)
  · exact .next (makeReady_does ..) (by decide) (.refl _)
  · exact .next (holdBack_does ..) (by decide) (.refl _)

theorem admitRuled_does (t : Task) (s : State) :
    Does [.sched] s (admitRuled t s) := by
  unfold admitRuled
  dsimp only
  refine .ite (fun _ => ?_) (fun _ => ?_)
  · exact .next (makeReady_does ..) (by decide) (.refl _)
  · exact .next (setCluster_does ..) (by decide) (.refl _)

theorem freeBuffer_does (k : Nat × Nat) (s : State) :
    Does [.batches] s (freeBuffer k s) := by
  unfold freeBuffer
  dsimp only
  split
  · exact .refl _
  · split
    · exact .refl _
    · split
      · exact .refl _
      · with_reducible refine .set rfl rfl rfl (fun f hf => ?_) ?_
        · cases f <;> first | exact absurd (by decide) hf | exact Eq.refl _
        exact .refl _

theorem wake_does (w : Waiter) (s : State) :
    Does [.sched, .batches] s (wake w s) := by
  unfold wake
  split
  · refine .ite (fun _ => ?_) (fun _ => ?_)
    · exact .next (admitRuled_does ..) (by decide) (.refl _)
    · exact .next (offerMargin_does ..) (by decide) (.refl _)
  · exact .next (freeBuffer_does ..) (by decide) (.refl _)
  · exact .refl _
  · exact .refl _

theorem registerWait_does (n : Nat) (w : Waiter) (s : State) :
    Does [.sched, .cells, .regHeld, .batches] s (registerWait n w s) := by
  unfold registerWait
  dsimp only
  refine .ite (fun _ => ?_) (fun _ => ?_)
  · exact .next (wake_does ..) (by decide) (.next (setCell_does ..) (by decide) (.refl _))
  · refine .ite (fun _ => ?_) (fun _ => ?_)
    · exact .next (setCell_does ..) (by decide) (.refl _)
    · with_reducible refine .set rfl rfl rfl (fun f hf => ?_) ?_
      · cases f <;> first | exact absurd (by decide) hf | exact Eq.refl _
      exact .refl _

theorem admitSome_does (die : Nat) (a1 : Nat) (a2 : State) :
    Does [.sched, .cells, .regHeld, .batches] a2 (admitSome die a1 a2) := by
  unfold admitSome
  dsimp only
  split
  · exact .refl _
  · refine .ite (fun _ => ?_) (fun _ => ?_)
    · split
      · refine .next (admitSome_does ..) (by decide) (.next (registerWait_does ..) (by decide) ?_)
        with_reducible refine .set rfl rfl rfl (fun f hf => ?_) ?_
        · cases f <;> first | exact absurd (by decide) hf | exact Eq.refl _
        exact .refl _
      · exact .refl _
    · exact .refl _

theorem admitHeld_does (die : Nat) (s : State) :
    Does [.sched, .cells, .regHeld, .batches] s (admitHeld die s) := by
  unfold admitHeld
  exact .next (admitSome_does ..) (by decide) (.refl _)

theorem releaseWaiters_does (n : Nat) (a1 : Nat) (a2 : State) :
    Does [.sched, .cells, .regHeld, .batches] a2 (releaseWaiters n a1 a2) := by
  unfold releaseWaiters
  dsimp only
  split
  · exact .refl _
  · split
    · exact .refl _
    · refine .ite (fun _ => ?_) (fun _ => ?_)
      · exact .next (releaseWaiters_does ..) (by decide) (.next (admitHeld_does ..) (by decide)
            (.next (wake_does ..) (by decide) (.next (setCell_does ..) (by decide) (.refl _))))
      · exact .refl _

theorem releaseAll_does (n : Nat) (s : State) :
    Does [.sched, .cells, .regHeld, .batches] s (releaseAll n s) := by
  unfold releaseAll
  exact .next (releaseWaiters_does ..) (by decide) (.refl _)

theorem mergeHostSignal_does (queue : Bool) (num : Nat) (net : BitVec 32) (value : BitVec 32) (count : Nat) (s : State) :
    Does [.hostSigs] s (mergeHostSignal queue num net value count s) := by
  unfold mergeHostSignal
  split
  · with_reducible refine .set rfl rfl rfl (fun f hf => ?_) ?_
    · cases f <;> first | exact absurd (by decide) hf | exact Eq.refl _
    exact .refl _
  · with_reducible refine .set rfl rfl rfl (fun f hf => ?_) ?_
    · cases f <;> first | exact absurd (by decide) hf | exact Eq.refl _
    exact .refl _

theorem addRaw_does (n : Nat) (d : Int) (s : State) :
    Does [.sched, .cells, .regHeld, .hostSigs, .batches] s (addRaw n d s) := by
  unfold addRaw
  dsimp only
  refine .next (releaseAll_does ..) (by decide) ?_
  refine .ite (fun _ => ?_) (fun _ => ?_)
  · exact .next (mergeHostSignal_does ..) (by decide) (.next (setCell_does ..) (by decide) (.refl _))
  · exact .next (setCell_does ..) (by decide) (.refl _)

theorem noticeAdd_does (s : State) :
    Does [.sched, .cells, .regHeld, .hostSigs, .batches] s (noticeAdd s) := by
  unfold noticeAdd
  split
  · refine .ite (fun _ => ?_) (fun _ => ?_)
    · exact .next (addRaw_does ..) (by decide) (.refl _)
    · exact .refl _
  · exact .refl _

theorem writeRec_does (r : BitVec 256) (s : State) :
    Does [.blot, .mem, .pages] s (writeRec r s) := by
  unfold writeRec
  dsimp only
  split
  · with_reducible refine .set rfl rfl rfl (fun f hf => ?_) ?_
    · cases f <;> first | exact absurd (by decide) hf | exact Eq.refl _
    exact .next (writeDva_does ..) (by decide) (.refl _)
  · with_reducible refine .set rfl rfl rfl (fun f hf => ?_) ?_
    · cases f <;> first | exact absurd (by decide) hf | exact Eq.refl _
    exact .refl _

theorem noteTest_does (index : Nat) (u : BitVec 16) (s : State) :
    Does [.tests] s (noteTest index u s) := by
  unfold noteTest
  dsimp only
  split
  · with_reducible refine .set rfl rfl rfl (fun f hf => ?_) ?_
    · cases f <;> first | exact absurd (by decide) hf | exact Eq.refl _
    exact .refl _
  · with_reducible refine .set rfl rfl rfl (fun f hf => ?_) ?_
    · cases f <;> first | exact absurd (by decide) hf | exact Eq.refl _
    exact .refl _

theorem emitOne_does (e : ErrRec) (s : State) :
    Does [.blot, .tests, .mem, .pages, .sched, .cells, .regHeld, .hostSigs, .batches] s (emitOne e s) := by
  unfold emitOne
  dsimp only
  refine .ite (fun _ => ?_) (fun _ => ?_)
  · exact .next (noteTest_does ..) (by decide) (.next (noticeAdd_does ..) (by decide) (.next (writeRec_does ..) (by decide)
        (.refl _)))
  · exact .next (noticeAdd_does ..) (by decide) (.next (writeRec_does ..) (by decide) (.refl _))

theorem noteReserve_does (a0 : Nat) (a1 : State) :
    Does [.blot, .tests, .mem, .pages, .sched, .cells, .regHeld, .hostSigs, .batches] a1 (noteReserve a0 a1) := by
  unfold noteReserve
  dsimp only
  split
  · exact .refl _
  · split
    · exact .refl _
    · exact .next (noteReserve_does ..) (by decide) (.next (emitOne_does ..) (by decide) (.next (setCluster_does ..) (by decide)
          (.refl _)))

theorem noteReserves_does (s : State) :
    Does [.blot, .tests, .mem, .pages, .sched, .cells, .regHeld, .hostSigs, .batches] s (noteReserves s) := by
  unfold noteReserves
  refine .ite (fun _ => ?_) (fun _ => ?_)
  · exact .refl _
  · exact .next (noteReserve_does ..) (by decide) (.refl _)

theorem emitErr_does (e : ErrRec) (s : State) :
    Does [.blot, .tests, .mem, .pages, .sched, .cells, .regHeld, .hostSigs, .batches] s (emitErr e s) := by
  unfold emitErr
  exact .next (noteReserves_does ..) (by decide) (.next (emitOne_does ..) (by decide) (.refl _))

theorem tooLong_does (q : Nat) (x : Queue) (n : Nat) (s : State) :
    Does [.blot, .tests, .mem, .pages, .sched, .cells, .regHeld, .hostSigs, .batches] s (tooLong q x n s) := by
  unfold tooLong
  exact .next (emitErr_does ..) (by decide) (.refl _)

theorem takeFrom_does {q : Nat} {x : Queue} {s t : State} {c : Bytes} (h : takeFrom q x s = some (c, t)) :
    Does [.queues] s t := by
  unfold takeFrom at h
  split at h
  · cases h
  · split at h
    · cases h
    · dsimp only at h
      split at h <;> (cases h; exact .next (setQueue_does ..) (by decide) (.refl _))

theorem signalAdd_does (n : Nat) (d : Int) (s : State) :
    Does [.blot, .tests, .mem, .pages, .sched, .cells, .regHeld, .hostSigs, .batches] s (signalAdd n d s) := by
  unfold signalAdd
  dsimp only
  refine .ite (fun _ => ?_) (fun _ => ?_)
  · exact .next (noteReserves_does ..) (by decide) (.next (addRaw_does ..) (by decide) (.refl _))
  · exact .next (emitErr_does ..) (by decide) (.next (noteReserves_does ..) (by decide) (.next (addRaw_does ..) (by decide)
        (.refl _)))

theorem notice_does (q : Nat) (x : Queue) (s : State) :
    Does [.blot, .tests, .mem, .pages, .sched, .cells, .regHeld, .hostSigs, .batches] s (notice q x s) := by
  unfold notice
  split
  · split
    · exact .next (signalAdd_does ..) (by decide) (.refl _)
    · exact .refl _
  · split
    · refine .ite (fun _ => ?_) (fun _ => ?_)
      · exact .refl _
      · split
        · exact .next (registerWait_does ..) (by decide) (.refl _)
        · exact .next (offerMargin_does ..) (by decide) (.refl _)
    · exact .refl _
  · exact .next (mergeHostSignal_does ..) (by decide) (.refl _)
  · exact .refl _

theorem linkPacket_does (q : Nat) (x : Queue) (tag : Nat) (bs : Bytes) (s : State) :
    Does [.blot, .tests, .mem, .pages, .sched, .queues, .cells, .regHeld, .hostSigs, .batches,
      .freeCtr] s (linkPacket q x tag bs s) := by
  unfold linkPacket
  exact .next (notice_does ..) (by decide) (.next (enqueue_does ..) (by decide) (.refl _))

theorem endWait_does (e : Nat × Waiter) (s : State) :
    Does [.blot, .tests, .mem, .pages, .sched, .queues, .cells, .regHeld, .hostSigs, .batches, .freeCtr] s (endWait e s) := by
  unfold endWait
  split
  · next x _ _ =>
    cases h : takeFrom e.1 x s with
    | none => exact .refl _
    | some r => exact .next (takeFrom_does (c := r.1) (t := r.2) h) (by decide) (.refl _)
  · exact .ite (fun _ => .next (tooLong_does ..) (by decide) (.refl _)) fun _ => .next (linkPacket_does ..) (by decide) (.refl _)
  · exact .refl _

theorem endWaits_does (pool : Nat) (a1 : Nat) (a2 : State) :
    Does [.blot, .tests, .mem, .pages, .sched, .queues, .cells, .regHeld, .queueWaits, .hostSigs, .batches,
      .freeCtr] a2 (endWaits pool a1 a2) := by
  unfold endWaits
  split
  · exact .refl _
  · split
    · exact .refl _
    · refine .next (endWaits_does ..) (by decide) (.next (endWait_does ..) (by decide) ?_)
      with_reducible refine .set rfl rfl rfl (fun f hf => ?_) ?_
      · cases f <;> first | exact absurd (by decide) hf | exact Eq.refl _
      exact .refl _

theorem wakeQueue_does (q : Nat) (s : State) :
    Does [.blot, .tests, .mem, .pages, .sched, .queues, .cells, .regHeld, .queueWaits, .hostSigs, .batches,
      .freeCtr] s (wakeQueue q s) := by
  unfold wakeQueue
  exact .next (endWaits_does ..) (by decide) (.refl _)

theorem admitWaiting_does (k : Nat) (a1 : Nat) (a2 : State) :
    Does [.sched] a2 (admitWaiting k a1 a2) := by
  unfold admitWaiting
  dsimp only
  split
  · exact .refl _
  · split
    · exact .refl _
    · refine .ite (fun _ => ?_) (fun _ => ?_)
      · exact .next (admitWaiting_does ..) (by decide) (.next (makeReady_does ..) (by decide)
            (.next (setCluster_does ..) (by decide) (.refl _)))
      · exact .refl _

theorem drawn_does (s : State) :
    Does [.freeCtr] s (drawn s) := by
  unfold drawn
  with_reducible refine .set rfl rfl rfl (fun f hf => ?_) ?_
  · cases f <;> first | exact absurd (by decide) hf | exact Eq.refl _
  exact .refl _

theorem advanceTick_does (s : State) :
    Does [.rul] s (advanceTick s) := by
  unfold advanceTick
  dsimp only
  with_reducible refine .set rfl rfl rfl (fun f hf => ?_) ?_
  · cases f <;> first | exact absurd (by decide) hf | exact Eq.refl _
  exact .refl _

theorem advanceTo_does (c : Nat) (s : State) :
    Does [.clk] s (advanceTo c s) := by
  unfold advanceTo
  dsimp only
  with_reducible refine .set rfl rfl rfl (fun f hf => ?_) ?_
  · cases f <;> first | exact absurd (by decide) hf | exact Eq.refl _
  exact .refl _

theorem answer_does (r : Req) (op : Nat) (status : Nat) (detail : Nat) (body : Bytes) (s : State) :
    Does [.mboxes, .queues, .freeCtr] s (answer r op status detail body s) := by
  unfold answer
  dsimp only
  exact .next (keepDone_does ..) (by decide) (.next (sendMessage_does ..) (by decide) (.refl _))

theorem answerRuling_does (s : State) :
    Does [.mboxes, .queues, .freeCtr] s (answerRuling s) := by
  unfold answerRuling
  refine .ite (fun _ => ?_) (fun _ => ?_)
  · exact .refl _
  · exact .next (finalAnswer_does ..) (by decide) (.refl _)

theorem applyPeriod_does (s : State) :
    Does [.clk, .rul] s (applyPeriod s) := by
  unfold applyPeriod
  dsimp only
  split
  · exact .refl _
  · with_reducible refine .set rfl rfl rfl (fun f hf => ?_) ?_
    · cases f <;> first | exact absurd (by decide) hf | exact Eq.refl _
    exact .refl _

theorem relist_does (t : Task) (s : State) :
    Does [.sched] s (relist t s) := by
  unfold relist
  dsimp only
  refine .ite (fun _ => ?_) (fun _ => ?_)
  · exact .next (setCluster_does ..) (by decide) (.refl _)
  · exact .next (holdBack_does ..) (by decide) (.refl _)

theorem settleBuckets_does (s : State) :
    Does [.ports] s (settleBuckets s) := by
  unfold settleBuckets
  dsimp only
  refine .foldl _ (fun u a => ?_) ?_
  · exact .next (setPort_does ..) (by decide) (.refl _)
  · exact .refl _

theorem refreshBound_does (s : State) :
    Does [.rul] s (refreshBound s) := by
  unfold refreshBound
  dsimp only
  with_reducible refine .set rfl rfl rfl (fun f hf => ?_) ?_
  · cases f <;> first | exact absurd (by decide) hf | exact Eq.refl _
  exact .refl _

theorem emitBlotPart_does (b : BlotRec) (s : State) :
    Does [.blot, .mem, .pages] s (emitBlotPart b s) := by
  unfold emitBlotPart
  dsimp only
  refine .ite (fun _ => ?_) (fun _ => ?_)
  · refine .next (writeRec_does ..) (by decide) ?_
    with_reducible refine .set rfl rfl rfl (fun f hf => ?_) ?_
    · cases f <;> first | exact absurd (by decide) hf | exact Eq.refl _
    exact .refl _
  · with_reducible refine .set rfl rfl rfl (fun f hf => ?_) ?_
    · cases f <;> first | exact absurd (by decide) hf | exact Eq.refl _
    exact .refl _

theorem emitBlot_does (b : BlotRec) (s : State) :
    Does [.blot, .mem, .pages] s (emitBlot b s) := by
  unfold emitBlot
  refine .foldl _ (fun u a => ?_) ?_
  · exact .next (emitBlotPart_does ..) (by decide) (.refl _)
  · exact .refl _

theorem breakQueue_does (q : Nat) (x : Queue) (p : Packet) (s : State) :
    Does [.blot, .tests, .mem, .pages, .sched, .queues, .cells, .regHeld, .hostSigs, .batches] s (breakQueue q x p s) := by
  unfold breakQueue
  exact .next (emitErr_does ..) (by decide) (.next (setQueue_does ..) (by decide) (.refl _))

theorem writeFree_does (s : State) (dva : Nat) (bs : Bytes) :
    Does [.mem, .pages] s (writeFree s dva bs) := by
  unfold writeFree
  dsimp only
  refine .ite (fun _ => ?_) (fun _ => ?_)
  · exact .next (writeDva_does ..) (by decide) (.refl _)
  · refine .foldl _ (fun u a => ?_) ?_
    · refine .ite (fun _ => ?_) (fun _ => ?_)
      · exact .refl _
      · exact .next (writeDva_does ..) (by decide) (.refl _)
    · exact .refl _

/-- A request by its tag does what a new one does, or sends an old response again. -/
theorem byTag_does {T : List Part} {s₀ s : State} {r : Req} {op : Nat} {fresh : State → State} (hT : subPart [.mboxes, .queues,
  .freeCtr] T = true)
    (hs : Does T s₀ s) (h : Does T s₀ (fresh s)) : Does T s₀ (byTag r op fresh s) := by
  unfold byTag
  split
  · exact hs
  · split
    · split
      · exact hs
      · exact .next (sendMessage_does ..) hT hs
    · split <;> exact .next (sendMessage_does ..) hT hs
    · exact h

theorem cancelEvent_does (k : Nat) (t : Task) (s : State) :
    Does [.sched] s (cancelEvent k t s) := by
  unfold cancelEvent
  refine .ite (fun _ => ?_) (fun _ => ?_)
  · exact .next (scribeAt_does ..) (by decide) (.refl _)
  · exact .next (listEvent_does ..) (by decide) (.refl _)

theorem scribe_does (k : Nat) (r : ScrRec) (s : State) :
    Does [.sched] s (scribe k r s) := by
  unfold scribe
  exact .next (scribeAt_does ..) (by decide) (.refl _)

theorem coreEvent_does (t : Task) (reason : Nat) (arg : Nat) (late : Bool) (s : State) :
    Does [.sched] s (coreEvent t reason arg late s) := by
  unfold coreEvent
  exact .next (scribe_does ..) (by decide) (.refl _)

theorem dropPacket_does (q : Nat) (x : Queue) (p : Packet) (s : State) :
    Does [.blot, .tests, .mem, .pages, .sched, .queues, .cells, .regHeld, .queueWaits, .hostSigs, .batches,
      .freeCtr] s (dropPacket q x p s) := by
  unfold dropPacket
  dsimp only
  exact .next (emitErr_does ..) (by decide) (.next (wakeQueue_does ..) (by decide) (.next (setQueue_does ..) (by decide)
      (.refl _)))

theorem corrected_does (q : Nat) (n : Nat) (s : State) :
    Does [.tickEvents, .queues, .poolCorr] s (corrected q n s) := by
  unfold corrected
  split
  · exact .refl _
  · refine .ite (fun _ => ?_) (fun _ => ?_)
    · exact .refl _
    · refine .next (tickEvent_does ..) (by decide) (.next (setQueue_does ..) (by decide) ?_)
      with_reducible refine .set rfl rfl rfl (fun f hf => ?_) ?_
      · cases f <;> first | exact absurd (by decide) hf | exact Eq.refl _
      exact .refl _

theorem checkHead_does (q : Nat) (badWord : Option (BitVec 17)) (words : Nat) (s : State) :
    Does [.blot, .tickEvents, .tests, .mem, .pages, .sched, .queues, .cells, .regHeld, .queueWaits, .hostSigs, .batches,
      .poolCorr, .freeCtr] s (checkHead q badWord words s) := by
  unfold checkHead
  dsimp only
  split
  · exact .refl _
  · refine .ite (fun _ => ?_) (fun _ => ?_)
    · exact .refl _
    · split
      · refine .ite (fun _ => ?_) (fun _ => ?_)
        · exact .next (corrected_does ..) (by decide) (.refl _)
        · refine .ite (fun _ => ?_) (fun _ => ?_)
          · exact .next (breakQueue_does ..) (by decide) (.next (corrected_does ..) (by decide) (.refl _))
          · exact .next (dropPacket_does ..) (by decide) (.next (corrected_does ..) (by decide) (.refl _))
      · exact .next (corrected_does ..) (by decide) (.refl _)

theorem lateStart_does (unit : BitVec 16) (slot : Nat) (id : Nat) (lateness : Nat) (s : State) :
    Does [.rul, .tickEvents] s (lateStart unit slot id lateness s) := by
  unfold lateStart
  exact .next (tickEvent_does ..) (by decide) (.next (setStatus_does ..) (by decide) (.refl _))

theorem sharedLate_does (x : SharedRun) (s : State) :
    Does [.rul, .tickEvents] s (sharedLate x s) := by
  unfold sharedLate
  refine .ite (fun _ => ?_) (fun _ => ?_)
  · exact .next (lateStart_does ..) (by decide) (.refl _)
  · exact .refl _

theorem endShared_does (x : SharedRun) (s : State) :
    Does [.rul, .blot, .tests, .mem, .pages, .sched, .cells, .regHeld, .hostSigs, .batches] s (endShared x s) := by
  unfold endShared
  dsimp only
  split
  · refine .next (emitErr_does ..) (by decide) ?_
    with_reducible refine .set rfl rfl rfl (fun f hf => ?_) ?_
    · cases f <;> first | exact absurd (by decide) hf | exact Eq.refl _
    exact .refl _
  · with_reducible refine .set rfl rfl rfl (fun f hf => ?_) ?_
    · cases f <;> first | exact absurd (by decide) hf | exact Eq.refl _
    exact .refl _

theorem queueWait_does (q : Nat) (w : Waiter) (s : State) :
    Does [.queueWaits] s (queueWait q w s) := by
  unfold queueWait
  refine .ite (fun _ => ?_) (fun _ => ?_)
  · exact .refl _
  · with_reducible refine .set rfl rfl rfl (fun f hf => ?_) ?_
    · cases f <;> first | exact absurd (by decide) hf | exact Eq.refl _
    exact .refl _

theorem commitPacket_does (q : Nat) (unit : BitVec 16) (tag : Nat) (bs : Bytes) (s : State) :
    Does [.blot, .tests, .mem, .pages, .sched, .queues, .cells, .regHeld, .queueWaits, .hostSigs, .batches,
      .freeCtr] s (commitPacket q unit tag bs s) := by
  unfold commitPacket
  split
  · exact .refl _
  · refine .ite (fun _ => ?_) (fun _ => ?_)
    · exact .next (tooLong_does ..) (by decide) (.refl _)
    · refine .ite (fun _ => ?_) (fun _ => ?_)
      · exact .next (wakeQueue_does ..) (by decide) (.next (linkPacket_does ..) (by decide) (.refl _))
      · exact .next (queueWait_does ..) (by decide) (.refl _)

theorem planAdd_does (slot : Nat) (absCell : Nat) (s : State) :
    Does [.blot, .tests, .mem, .pages, .sched, .cells, .regHeld, .hostSigs, .batches] s (planAdd slot absCell s) := by
  unfold planAdd
  split
  · exact .next (signalAdd_does ..) (by decide) (.refl _)
  · exact .refl _

theorem countAligned_does (s : State) :
    Does [.rul] s (countAligned s) := by
  unfold countAligned
  dsimp only
  refine .ite (fun _ => ?_) (fun _ => ?_)
  · with_reducible refine .set rfl rfl rfl (fun f hf => ?_) ?_
    · cases f <;> first | exact absurd (by decide) hf | exact Eq.refl _
    exact .refl _
  · with_reducible refine .set rfl rfl rfl (fun f hf => ?_) ?_
    · cases f <;> first | exact absurd (by decide) hf | exact Eq.refl _
    exact .refl _

theorem endShareds_does (xs : List SharedRun) (s : State) :
    Does [.rul, .blot, .tickEvents, .tests, .mem, .pages, .sched, .cells, .regHeld, .hostSigs, .batches] s (endShareds xs s) := by
  unfold endShareds
  dsimp only
  refine .foldl _ (fun u a => ?_) ?_
  · split
    · refine .ite (fun _ => ?_) (fun _ => ?_)
      · exact .next (endShared_does ..) (by decide) (.refl _)
      · exact .next (sharedLate_does ..) (by decide) (.next (endShared_does ..) (by decide) (.refl _))
    · exact .next (endShared_does ..) (by decide) (.refl _)
  · exact .refl _

theorem edgeRecords_does (s : State) :
    Does [.blot, .tickEvents, .tests, .mem, .pages, .sched, .cells, .regHeld, .hostSigs, .batches] s (edgeRecords s) := by
  unfold edgeRecords
  dsimp only
  with_reducible refine .set rfl rfl rfl (fun f hf => ?_) ?_
  · cases f <;> first | exact absurd (by decide) hf | exact Eq.refl _
  refine .foldl _ (fun u a => ?_) ?_
  · refine .ite (fun _ => ?_) (fun _ => ?_)
    · exact .refl _
    · exact .next (emitErr_does ..) (by decide) (.refl _)
  · refine .foldl _ (fun u a => ?_) ?_
    · exact .next (emitErr_does ..) (by decide) (.refl _)
    · with_reducible refine .set rfl rfl rfl (fun f hf => ?_) ?_
      · cases f <;> first | exact absurd (by decide) hf | exact Eq.refl _
      exact .refl _

theorem setLock_does (v : Nat) (s : State) :
    Does [.rul] s (setLock v s) := by
  unfold setLock
  exact .next (setStatus_does ..) (by decide) (.refl _)

theorem tickEdge_does (events : List TickReport) (s : State) :
    Does [.clk, .rul, .blot, .tickEvents, .tests, .mem, .pages, .sched, .cells, .regHeld, .hostSigs,
      .batches] s (tickEdge events s) := by
  unfold tickEdge
  dsimp only
  with_reducible refine .set rfl rfl rfl (fun f hf => ?_) ?_
  · cases f <;> first | exact absurd (by decide) hf | exact Eq.refl _
  refine .ite (fun _ => ?_) (fun _ => ?_)
  · refine .next (setStatus_does ..) (by decide) (.next (countAligned_does ..) (by decide)
        (.next (applyPeriod_does ..) (by decide) ?_))
    with_reducible refine .set rfl rfl rfl (fun f hf => ?_) ?_
    · cases f <;> first | exact absurd (by decide) hf | exact Eq.refl _
    refine .ite (fun _ => ?_) (fun _ => ?_)
    · refine .next (edgeRecords_does ..) (by decide) ?_
      refine .foldl _ (fun u a => ?_) ?_
      · exact .next (tickEvent_does ..) (by decide) (.refl _)
      · exact .next (advanceTo_does ..) (by decide) (.refl _)
    · refine .next (advanceTick_does ..) (by decide) (.next (edgeRecords_does ..) (by decide) ?_)
      refine .foldl _ (fun u a => ?_) ?_
      · exact .next (tickEvent_does ..) (by decide) (.refl _)
      · exact .next (advanceTo_does ..) (by decide) (.refl _)
  · refine .next (countAligned_does ..) (by decide) (.next (applyPeriod_does ..) (by decide) ?_)
    with_reducible refine .set rfl rfl rfl (fun f hf => ?_) ?_
    · cases f <;> first | exact absurd (by decide) hf | exact Eq.refl _
    refine .ite (fun _ => ?_) (fun _ => ?_)
    · refine .next (edgeRecords_does ..) (by decide) ?_
      refine .foldl _ (fun u a => ?_) ?_
      · exact .next (tickEvent_does ..) (by decide) (.refl _)
      · exact .next (advanceTo_does ..) (by decide) (.refl _)
    · refine .next (advanceTick_does ..) (by decide) (.next (edgeRecords_does ..) (by decide) ?_)
      refine .foldl _ (fun u a => ?_) ?_
      · exact .next (tickEvent_does ..) (by decide) (.refl _)
      · exact .next (advanceTo_does ..) (by decide) (.refl _)

/-- Carrying a command out does what its body does, and answers. -/
theorem runCmd_does {T : List Part} {s₀ s : State} {r : Req} {c : Cmd} (hT : subPart [.mboxes, .queues, .freeCtr] T = true)
    (h : Does T s₀ ((c.body s).state s)) : Does T s₀ (runCmd r c s) := by
  unfold runCmd
  generalize c.body s = x at *
  cases x with
  | ok t b => exact .next (answer_does ..) hT h
  | accept t k b => exact .next (acceptCmd_does ..) hT h
  | hold t => exact h
  | fail a b => exact .next (answer_does ..) hT h
  | failWith t a b => exact .next (answer_does ..) hT h

/-- A request does what its command's body does, if it is carried out, and answers. -/
theorem goust_does {T : List Part} {s₀ s : State} {r : Req} {c : Cmd} (hT : subPart [.mboxes, .queues,
  .freeCtr] T = true) (hs : Does T s₀ s)
    (h : Does T s₀ ((c.body s).state s)) : Does T s₀ (goust r c s) := by
  refine byTag_does hT hs ?_
  split
  · exact .next (answer_does ..) hT hs
  · exact runCmd_does hT h

theorem takeCell_does {q : Nat} {x : Queue} {s : State} {c : Bytes} {t : State} (h : takeCell q x s = some (c, t)) :
    Does [.blot, .tests, .mem, .pages, .sched, .queues, .cells, .regHeld, .queueWaits, .hostSigs, .batches, .freeCtr] s t := by
  unfold takeCell at h
  cases g : takeFrom q x s with
  | none => rw [g] at h; cases h
  | some r => rw [g] at h; cases h; exact .next (wakeQueue_does ..) (by decide) (.next (takeFrom_does (c := r.1) g) (by decide) (.refl _))

theorem takeChecked_does (q : Nat) (w : Option (BitVec 17)) (n : Nat) (s : State) :
    Does [.blot, .tickEvents, .tests, .mem, .pages, .sched, .queues, .cells, .regHeld, .queueWaits, .hostSigs, .batches,
      .poolCorr, .freeCtr] s (takeChecked q w n s).2 ∧
      ∀ c t, (takeChecked q w n s).1 = some (c, t) → Does [.blot, .tickEvents, .tests, .mem, .pages, .sched, .queues, .cells,
        .regHeld, .queueWaits, .hostSigs, .batches, .poolCorr, .freeCtr] s t := by
  have h : Does [.blot, .tickEvents, .tests, .mem, .pages, .sched, .queues, .cells, .regHeld, .queueWaits, .hostSigs, .batches,
    .poolCorr, .freeCtr] s (checkHead q w n s) := .next (checkHead_does ..) (by decide) (.refl _)
  refine ⟨h, fun c t e => ?_⟩
  obtain ⟨x, _, e⟩ := Option.bind_eq_some_iff.mp e
  exact .next (takeCell_does e) (by decide) h

theorem takePollOp_does (q : Nat) (w : Option (BitVec 17)) (n : Nat) (s : State) :
    Does [.blot, .tickEvents, .tests, .mem, .pages, .sched, .queues, .cells, .regHeld, .queueWaits, .hostSigs, .batches,
      .poolCorr, .freeCtr] s (takePollOp q w n s).2 := by
  have h := takeChecked_does q w n s
  unfold takePollOp
  split
  · next e => rw [e] at h; exact h.2 _ _ rfl
  · next e => rw [e] at h; exact h.1

theorem mapTasks_does (f : Task → Task) (s : State) :
    Does [.sched, .cells, .regHeld, .parked] s (mapTasks f s) := by
  unfold mapTasks
  dsimp only
  with_reducible refine .set rfl rfl rfl (fun f hf => ?_) ?_
  · cases f <;> first | exact absurd (by decide) hf | exact Eq.refl _
  exact .refl _

theorem releaseOp_does (q : Nat) (s : State) :
    Does [.blot, .tests, .mem, .pages, .sched, .queues, .cells, .regHeld, .queueWaits, .hostSigs, .batches,
      .freeCtr] s (releaseOp q s) := by
  unfold releaseOp
  dsimp only
  split
  · exact .refl _
  · exact .next (wakeQueue_does ..) (by decide) (.next (setQueue_does ..) (by decide) (.refl _))

theorem rewindOp_does {q : Nat} {s t : State} (h : rewindOp q s = some t) :
    Does [.queues] s t := by
  unfold rewindOp at h
  split at h
  · cases h
  · split at h
    · cases h
    · cases h
      exact .next (setQueue_does ..) (by decide) (.refl _)

theorem markOp_does (q : Nat) (s : State) :
    Does [.queues] s (markOp q s) := by
  unfold markOp
  split
  · exact .refl _
  · exact .next (setQueue_does ..) (by decide) (.refl _)

theorem takePacket_does {q : Nat} {s t : State} {bs : Bytes} (h : takePacket q s = some (bs, t)) :
    Does [.blot, .tests, .mem, .pages, .sched, .queues, .cells, .regHeld, .queueWaits, .hostSigs, .batches, .freeCtr] s t := by
  unfold takePacket at h
  split at h
  · cases h
  · split at h
    · cases h
    · split at h
      · cases h
      · cases h
        exact .next (wakeQueue_does ..) (by decide) (.next (setQueue_does ..) (by decide) (.refl _))

theorem takeWaitOp_does (q : Nat) (unit : BitVec 16) (badWord : Option (BitVec 17)) (words : Nat) (s : State) :
    Does [.blot, .tickEvents, .tests, .mem, .pages, .sched, .queues, .cells, .regHeld, .queueWaits, .hostSigs, .batches,
      .poolCorr, .freeCtr] s (takeWaitOp q unit badWord words s) := by
  have h := takeChecked_does q badWord words s
  unfold takeWaitOp
  split
  · next e => rw [e] at h; exact .next (h.2 _ _ rfl) (by decide) (.refl _)
  · next e => rw [e] at h; exact .next (queueWait_does ..) (by decide) (.next h.1 (by decide) (.refl _))

/-- The same where the final response leaves with the effect. -/
theorem goustNow_does {T : List Part} {s₀ s : State} {r : Req} {c : Cmd} {k : PendKind → Bool} (hT : subPart [.mboxes, .queues,
  .freeCtr] T = true)
    (hs : Does T s₀ s) (h : Does T s₀ ((c.body s).state s)) : Does T s₀ (goustNow r c k s) := by
  unfold goustNow
  split
  · exact .next (finalAnswer_does ..) hT (goust_does hT hs h)
  · exact goust_does hT hs h

theorem suspendRun_does (s : State) (r : Running) :
    Does [.sched] s (suspendRun s r) := by
  unfold suspendRun
  dsimp only
  exact .next (relist_does ..) (by decide) (.next (setCluster_does ..) (by decide) (.refl _))

theorem preempt_does (release : Nat) (s : State) (r : Running) :
    Does [.sched] s (preempt release s r) := by
  unfold preempt
  exact .next (coreEvent_does ..) (by decide) (.next (suspendRun_does ..) (by decide) (.refl _))

theorem listRuled_does (t : Task) (s : State) :
    Does [.blot, .tests, .mem, .pages, .sched, .cells, .regHeld, .hostSigs, .batches] s (listRuled t s) := by
  unfold listRuled
  exact .next (noteReserves_does ..) (by decide) (.next (admitRuled_does ..) (by decide) (.refl _))

theorem waitOn_does (n : Nat) (w : Waiter) (s : State) :
    Does [.blot, .tests, .mem, .pages, .sched, .cells, .regHeld, .hostSigs, .batches] s (waitOn n w s) := by
  unfold waitOn
  exact .next (noteReserves_does ..) (by decide) (.next (registerWait_does ..) (by decide) (.refl _))

theorem releaseLig_does (t : Task) (units : Nat) (s : State) :
    Does [.blot, .tests, .mem, .pages, .sched, .cells, .regHeld, .hostSigs, .batches] s (releaseLig t units s) := by
  unfold releaseLig
  dsimp only
  refine .foldl _ (fun u a => ?_) ?_
  · exact .next (preempt_does ..) (by decide) (.refl _)
  · split
    · exact .next (waitOn_does ..) (by decide) (.refl _)
    · exact .next (listRuled_does ..) (by decide) (.refl _)

theorem overrunEnd_does (t : Task) (s : State) :
    Does [.blot, .tests, .mem, .pages, .sched, .cells, .regHeld, .hostSigs, .batches] s (overrunEnd t s) := by
  unfold overrunEnd
  refine .ite (fun _ => ?_) (fun _ => ?_)
  · exact .next (emitErr_does ..) (by decide) (.refl _)
  · exact .refl _

theorem markOverrun_does (id : Nat) (unit : BitVec 16) (s : State) :
    Does [.sched, .cells, .regHeld, .parked] s (markOverrun id unit s) := by
  unfold markOverrun
  exact .next (mapTasks_does ..) (by decide) (.refl _)

theorem noteOverrun_does (unit : BitVec 16) (task : Nat) (slot : Nat) (s : State) :
    Does [.rul, .blot, .tests, .mem, .pages, .sched, .cells, .regHeld, .hostSigs, .batches] s (noteOverrun unit task slot s) := by
  unfold noteOverrun
  dsimp only
  refine .next (emitErr_does ..) (by decide) ?_
  with_reducible refine .set rfl rfl rfl (fun f hf => ?_) ?_
  · cases f <;> first | exact absurd (by decide) hf | exact Eq.refl _
  exact .next (setStatus_does ..) (by decide) (.next (setStatus_does ..) (by decide) (.refl _))

theorem startMargin_does (source : Nat) (t : Task) (s : State) :
    Does [.blot, .tests, .mem, .pages, .sched, .cells, .regHeld, .hostSigs, .batches] s (startMargin source t s) := by
  unfold startMargin
  split
  · exact .next (waitOn_does ..) (by decide) (.refl _)
  · exact .next (offerMargin_does ..) (by decide) (.refl _)

theorem goIdle_does (k : Nat) (core : Nat) (s : State) :
    Does [.sched] s (goIdle k core s) := by
  unfold goIdle
  dsimp only
  refine .ite (fun _ => ?_) (fun _ => ?_)
  · exact .refl _
  · exact .next (scribe_does ..) (by decide) (.next (setCluster_does ..) (by decide) (.refl _))

theorem noteLate_does (t : Task) (s : State) :
    Does [.rul, .tickEvents] s (noteLate t s) := by
  unfold noteLate
  refine .ite (fun _ => ?_) (fun _ => ?_)
  · exact .next (lateStart_does ..) (by decide) (.refl _)
  · exact .refl _

theorem grant_does (k : Nat) (t : Task) (s : State) :
    Does [.rul, .tickEvents, .sched] s (grant k t s) := by
  unfold grant
  dsimp only
  refine .ite (fun _ => ?_) (fun _ => ?_)
  · refine .next (admitWaiting_does ..) (by decide) (.next (noteLate_does ..) (by decide) ?_)
    split
    · exact .next (scribe_does ..) (by decide) (.next (setCluster_does ..) (by decide) (.refl _))
    · exact .next (scribe_does ..) (by decide) (.next (setCluster_does ..) (by decide) (.refl _))
  · refine .next (noteLate_does ..) (by decide) ?_
    split
    · exact .next (scribe_does ..) (by decide) (.next (setCluster_does ..) (by decide) (.refl _))
    · exact .next (scribe_does ..) (by decide) (.next (setCluster_does ..) (by decide) (.refl _))

end Sys2Proof.Machine
end

