-- ==== Sys2Proof/Laws/DoesEngines.lean ====
section
/-! SUPPORT. What the shared operations over groups, references, hash tables, shaping and tables do: the fields each touches. -/

namespace Sys2Proof.Machine

theorem setTable_does (slot : Nat) (ref : Nat) (t : Table) (s : State) :
    Does [.tables] s (setTable slot ref t s) := by
  unfold setTable
  with_reducible refine .set rfl rfl rfl (fun f hf => ?_) ?_
  · cases f <;> first | exact absurd (by decide) hf | exact Eq.refl _
  exact .refl _

theorem setOwner_does (c : TableCtx) (block : Nat) (f : Owner → Owner) (s : State) :
    Does [.tables] s (setOwner c block f s) := by
  unfold setOwner
  dsimp only
  exact .next (setTable_does ..) (by decide) (.refl _)

theorem abortCopy_does (c : TableCtx) (block : Nat) (s : State) :
    Does [.actions, .tables] s (abortCopy c block s) := by
  unfold abortCopy
  dsimp only
  with_reducible refine .set rfl rfl rfl (fun f hf => ?_) ?_
  · cases f <;> first | exact absurd (by decide) hf | exact Eq.refl _
  exact .next (setTable_does ..) (by decide) (.next (setOwner_does ..) (by decide) (.refl _))

theorem refWrite_does (p : Plan) (absId : Nat) (off : Nat) (bs : Bytes) (s : State) :
    Does [.mem, .pages] s (refWrite p absId off bs s) := by
  unfold refWrite
  split
  · exact .next (writeDva_does ..) (by decide) (.refl _)
  · exact .refl _

theorem setStat_does (slot : Nat) (ref : Nat) (x : StatObj) (s : State) :
    Does [.stats] s (setStat slot ref x s) := by
  unfold setStat
  with_reducible refine .set rfl rfl rfl (fun f hf => ?_) ?_
  · cases f <;> first | exact absurd (by decide) hf | exact Eq.refl _
  exact .refl _

theorem activateCopy_does (slot : Nat) (ref : Nat) (copy : Nat) (from' : Nat) (p : Plan) (s : State) :
    Does [.mem, .pages, .stats] s (activateCopy slot ref copy from' p s) := by
  unfold activateCopy
  dsimp only
  exact .next (setStat_does ..) (by decide) (.next (refWrite_does ..) (by decide) (.next (refWrite_does ..) (by decide)
      (.refl _)))

theorem addDip_does (c : TableCtx) (row : Nat) (adds : List Nat) (s : State) :
    Does [.dips] s (addDip c row adds s) := by
  unfold addDip
  dsimp only
  with_reducible refine .set rfl rfl rfl (fun f hf => ?_) ?_
  · cases f <;> first | exact absurd (by decide) hf | exact Eq.refl _
  exact .refl _

theorem copyRows_does (c : TableCtx) (block : Nat) (k : Nat) (n : Nat) (s : State) :
    Does [.mem, .pages] s (copyRows c block k n s) := by
  unfold copyRows
  dsimp only
  split
  · refine .ite (fun _ => ?_) (fun _ => ?_)
    · exact .next (writeDva_does ..) (by decide) (.refl _)
    · exact .next (writeDva_does ..) (by decide) (.refl _)
  · exact .refl _

theorem advanceCopy_does (c : TableCtx) (block : Nat) (s : State) :
    Does [.mem, .pages, .tables, .freeCtr] s (advanceCopy c block s) := by
  unfold advanceCopy
  dsimp only
  split
  · exact .refl _
  · exact .next (setTable_does ..) (by decide) (.next (copyRows_does ..) (by decide) (.next (drawn_does ..) (by decide)
        (.refl _)))

theorem restartReturn_does (c : TableCtx) (block : Nat) (s : State) :
    Does [.actions, .tables] s (restartReturn c block s) := by
  unfold restartReturn
  dsimp only
  with_reducible refine .set rfl rfl rfl (fun f hf => ?_) ?_
  · cases f <;> first | exact absurd (by decide) hf | exact Eq.refl _
  exact .next (setTable_does ..) (by decide) (.refl _)

theorem migrateAbort_does (c : TableCtx) (block : Nat) (s : State) :
    Does [.blot, .tests, .mem, .pages, .sched, .cells, .regHeld, .hostSigs, .batches] s (migrateAbort c block s) := by
  unfold migrateAbort
  dsimp only
  exact .next (emitErr_does ..) (by decide) (.refl _)

theorem logUpdate_does (c : TableCtx) (row : Nat) (s : State) :
    Does [.blot, .tests, .actions, .mem, .pages, .sched, .cells, .regHeld, .hostSigs, .tables, .batches] s (logUpdate c row s) := by
  unfold logUpdate
  dsimp only
  split
  · exact .refl _
  · refine .ite (fun _ => ?_) (fun _ => ?_)
    · refine .ite (fun _ => ?_) (fun _ => ?_)
      · exact .next (setTable_does ..) (by decide) (.refl _)
      · refine .ite (fun _ => ?_) (fun _ => ?_)
        · exact .next (abortCopy_does ..) (by decide) (.next (migrateAbort_does ..) (by decide)
              (.next (setTable_does ..) (by decide) (.refl _)))
        · exact .next (restartReturn_does ..) (by decide) (.next (migrateAbort_does ..) (by decide) (.refl _))
    · exact .refl _

theorem applyUpdate_does (c : TableCtx) (row : Nat) (adds : List Nat) (s : State) :
    Does [.blot, .tests, .actions, .mem, .pages, .sched, .cells, .regHeld, .hostSigs, .tables, .batches, .dips,
      .freeCtr] s (applyUpdate c row adds s) := by
  unfold applyUpdate
  dsimp only
  split
  · exact .next (logUpdate_does ..) (by decide) (.next (addDip_does ..) (by decide) (.next (writeDva_does ..) (by decide)
        (.next (advanceCopy_does ..) (by decide) (.refl _))))
  · exact .refl _

theorem blotOf_does (c : StageCtx) (reason : Nat) (source : Nat) (field : Nat) (offset : Nat) (record : Nat) (count : Nat) (s : State) :
    Does [.blot, .mem, .pages] s (blotOf c reason source field offset record count s) := by
  unfold blotOf
  exact .next (emitBlot_does ..) (by decide) (.refl _)

theorem bumpBin_does (dva : Nat) (bin : Nat) (s : State) :
    Does [.mem, .pages] s (bumpBin dva bin s) := by
  unfold bumpBin
  exact .next (writeFree_does ..) (by decide) (.refl _)

theorem setCombiner_does (die : Nat) (x : Combiner) (s : State) :
    Does [.combiners] s (setCombiner die x s) := by
  unfold setCombiner
  with_reducible refine .set rfl rfl rfl (fun f hf => ?_) ?_
  · cases f <;> first | exact absurd (by decide) hf | exact Eq.refl _
  exact .refl _

theorem dropStale_does (c : TableCtx) (n : Nat) (s : State) :
    Does [.blot, .mem, .pages] s (dropStale c n s) := by
  unfold dropStale
  refine .ite (fun _ => ?_) (fun _ => ?_)
  · exact .refl _
  · exact .next (emitBlot_does ..) (by decide) (.refl _)

theorem combine_does (die : Nat) (c : TableCtx) (gen : Nat) (row : Nat) (adds : List Nat) (s : State) :
    Does [.blot, .tests, .actions, .mem, .pages, .sched, .cells, .regHeld, .hostSigs, .tables, .combiners, .batches, .dips,
      .freeCtr] s (combine die c gen row adds s) := by
  unfold combine
  dsimp only
  refine .ite (fun _ => ?_) (fun _ => ?_)
  · exact .next (setCombiner_does ..) (by decide) (.refl _)
  · refine .ite (fun _ => ?_) (fun _ => ?_)
    · exact .next (setCombiner_does ..) (by decide) (.refl _)
    · exact .next (applyUpdate_does ..) (by decide) (.next (setCombiner_does ..) (by decide) (.refl _))

theorem exceedance_does (c : StageCtx) (code : Nat) (count : Nat) (s : State) :
    Does [.blot, .tests, .mem, .pages, .sched, .cells, .regHeld, .hostSigs, .batches] s (exceedance c code count s) := by
  unfold exceedance
  exact .next (emitErr_does ..) (by decide) (.refl _)

theorem putGroup_does (n : Nat) (g : Group) (s : State) :
    Does [.nibs] s (putGroup n g s) := by
  unfold putGroup
  dsimp only
  with_reducible refine .set rfl rfl rfl (fun f hf => ?_) ?_
  · cases f <;> first | exact absurd (by decide) hf | exact Eq.refl _
  exact .refl _

theorem rowsCheck_does (c : StageCtx) (g : Group) (s : State) :
    Does [.blot, .tests, .mem, .pages, .sched, .cells, .regHeld, .hostSigs, .batches] s (rowsCheck c g s) := by
  unfold rowsCheck
  dsimp only
  refine .ite (fun _ => ?_) (fun _ => ?_)
  · exact .next (emitErr_does ..) (by decide) (.refl _)
  · exact .refl _

theorem engineCheck_does (c : StageCtx) (sub : BitVec 4) (s : State) :
    Does [.blot, .tickEvents, .mem, .pages] s (engineCheck c sub s) := by
  unfold engineCheck
  dsimp only
  exact .next (emitBlot_does ..) (by decide) (.next (tickEvent_does ..) (by decide) (.refl _))

theorem endStage_does (c : StageCtx) (check : Option (BitVec 4)) (o : StageOut) :
    Does [.blot, .tickEvents, .tests, .mem, .pages, .sched, .cells, .regHeld, .hostSigs, .nibs,
      .batches] o.st (endStage c check o) := by
  unfold endStage
  dsimp only
  split
  · exact .next (putGroup_does ..) (by decide) (.next (engineCheck_does ..) (by decide) (.next (rowsCheck_does ..) (by decide)
        (.next (writeFree_does ..) (by decide) (.refl _))))
  · exact .next (putGroup_does ..) (by decide) (.next (rowsCheck_does ..) (by decide) (.next (writeFree_does ..) (by decide)
        (.refl _)))

theorem tableLimits_does (c : StageCtx) (jb : JoinBlock) (most : Nat) (spill : Nat) (j : Join) (s : State) :
    Does [.blot, .tests, .mem, .pages, .sched, .cells, .regHeld, .hostSigs, .batches] s (tableLimits c jb most spill j s).2 := by
  unfold tableLimits
  dsimp only
  split
  · dsimp only [CmdRes.state, stageState]
    refine .ite (fun _ => ?_) (fun _ => ?_)
    · exact .next (exceedance_does ..) (by decide) (.refl _)
    · exact .refl _
  · dsimp only [CmdRes.state, stageState]
    refine .next (emitErr_does ..) (by decide) ?_
    refine .ite (fun _ => ?_) (fun _ => ?_)
    · exact .next (exceedance_does ..) (by decide) (.refl _)
    · exact .refl _

theorem sumReports_does (c : StageCtx) (jb : JoinBlock) (old : List AggGroup) (new : List AggGroup) (s : State) :
    Does [.blot, .mem, .pages] s (sumReports c jb old new s) := by
  unfold sumReports
  dsimp only
  refine .foldl _ (fun u a => ?_) ?_
  · refine .foldl _ (fun u a => ?_) ?_
    · refine .ite (fun _ => ?_) (fun _ => ?_)
      · exact .next (blotOf_does ..) (by decide) (.refl _)
      · exact .refl _
    · exact .refl _
  · exact .refl _

theorem setJoin_does (slot : Nat) (table : Nat) (j : Join) (s : State) :
    Does [.joins] s (setJoin slot table j s) := by
  unfold setJoin
  with_reducible refine .set rfl rfl rfl (fun f hf => ?_) ?_
  · cases f <;> first | exact absurd (by decide) hf | exact Eq.refl _
  exact .refl _

theorem keyWidth_does (c : StageCtx) (field : Nat) (rows : List Nat) (s : State) :
    Does [.blot, .mem, .pages] s (keyWidth c field rows s) := by
  unfold keyWidth
  refine .foldl _ (fun u a => ?_) ?_
  · exact .next (blotOf_does ..) (by decide) (.refl _)
  · exact .refl _

theorem groupPartial_does (c : StageCtx) (s : State) :
    Does [.blot, .tests, .mem, .pages, .sched, .cells, .regHeld, .hostSigs, .joins,
      .batches] s (stageState s (groupPartial c s)) := by
  unfold groupPartial
  dsimp only
  dsimp only [CmdRes.state, stageState]
  exact .next (setJoin_does ..) (by decide) (.next (tableLimits_does ..) (by decide) (.next (sumReports_does ..) (by decide)
      (.next (keyWidth_does ..) (by decide) (.refl _))))

/-- A stage row does what its body leaves, and ends the stage. -/
theorem stage_does {T : List Part} {r : StageRef} {engine side op : Nat} {body : StageCtx → State → Option StageOut} {s : State}
    (hT : subPart [.blot, .tickEvents, .tests, .mem, .pages, .sched, .cells, .regHeld, .hostSigs, .nibs, .batches] T = true)
    (h : ∀ c, Does T s (stageState s (body c s))) : Does T s (stage r engine side op body s) := by
  unfold stage
  split
  · exact .refl _
  · split
    · split
      · next e => have hc := h ‹StageCtx›; rw [e] at hc; exact .next (endStage_does ..) hT hc
      · exact .refl _
    · exact .refl _

theorem pinCopy_does (p : Plan) (slot : Nat) (r : Running) (s : State) (ref : Nat) :
    Does [.stats] s (pinCopy p slot r s ref) := by
  unfold pinCopy
  dsimp only
  exact .next (setStat_does ..) (by decide) (.refl _)

theorem storeFracs_does (c : StageCtx) (s : State) (en : ShapeEntry) :
    Does [.stats] s (storeFracs c s en) := by
  unfold storeFracs
  dsimp only
  refine .ite (fun _ => ?_) (fun _ => ?_)
  · exact .next (setStat_does ..) (by decide) (.refl _)
  · exact .refl _

theorem joinProbe_does (c : StageCtx) (s : State) :
    Does [.blot, .tests, .mem, .pages, .sched, .cells, .regHeld, .hostSigs, .batches] s (stageState s (joinProbe c s)) := by
  unfold joinProbe
  dsimp only
  split
  · dsimp only [CmdRes.state, stageState]
    exact .refl _
  · split
    · dsimp only [CmdRes.state, stageState]
      exact .refl _
    · split
      · dsimp only [CmdRes.state, stageState]
        refine .ite (fun _ => ?_) (fun _ => ?_)
        · exact .next (exceedance_does ..) (by decide) (.next (keyWidth_does ..) (by decide) (.refl _))
        · exact .next (keyWidth_does ..) (by decide) (.refl _)
      · dsimp only [CmdRes.state, stageState]
        refine .ite (fun _ => ?_) (fun _ => ?_)
        · refine .next (blotOf_does ..) (by decide) ?_
          refine .ite (fun _ => ?_) (fun _ => ?_)
          · exact .next (exceedance_does ..) (by decide) (.next (keyWidth_does ..) (by decide) (.refl _))
          · exact .next (keyWidth_does ..) (by decide) (.refl _)
        · refine .ite (fun _ => ?_) (fun _ => ?_)
          · exact .next (exceedance_does ..) (by decide) (.next (keyWidth_does ..) (by decide) (.refl _))
          · exact .next (keyWidth_does ..) (by decide) (.refl _)

theorem statsEntry_does (c : StageCtx) (b : ShapeBlock) (s : State) (e : Nat × ShapeEntry) :
    Does [.mem, .pages, .stats] s (statsEntry c b s e) := by
  unfold statsEntry
  dsimp only
  split
  · refine .foldl _ (fun u a => ?_) ?_
    · exact .next (bumpBin_does ..) (by decide) (.refl _)
    · exact .next (setStat_does ..) (by decide) (.refl _)
  · exact .next (setStat_does ..) (by decide) (.refl _)

theorem joinBuild_does (c : StageCtx) (s : State) :
    Does [.blot, .tests, .mem, .pages, .sched, .cells, .regHeld, .hostSigs, .joins, .batches] s (stageState s (joinBuild c s)) := by
  unfold joinBuild
  dsimp only
  split
  · dsimp only [CmdRes.state, stageState]
    exact .refl _
  · dsimp only [CmdRes.state, stageState]
    exact .next (setJoin_does ..) (by decide) (.next (tableLimits_does ..) (by decide) (.next (keyWidth_does ..) (by decide)
        (.refl _)))

theorem mergeSketch_does (p : Plan) (q : Nat) (cols : Nat) (copy : Nat) (j : Nat) (ps : List Partial) (s : State) :
    Does [.mem, .pages] s (mergeSketch p q cols copy j ps s) := by
  unfold mergeSketch
  dsimp only
  refine .foldl _ (fun u a => ?_) ?_
  · exact .next (writeFree_does ..) (by decide) (.refl _)
  · exact .next (refWrite_does ..) (by decide) (.next (refWrite_does ..) (by decide) (.refl _))

theorem publish_does (slot : Nat) (ref : Nat) (e : Nat) (p : Plan) (s : State) :
    Does [.mem, .pages, .stats] s (publish slot ref e p s) := by
  unfold publish
  dsimp only
  refine .next (setStat_does ..) (by decide) (.next (refWrite_does ..) (by decide) ?_)
  refine .foldl _ (fun u a => ?_) ?_
  · split
    · exact .next (refWrite_does ..) (by decide) (.refl _)
    · split
      · refine .ite (fun _ => ?_) (fun _ => ?_)
        · exact .next (mergeSketch_does ..) (by decide) (.next (refWrite_does ..) (by decide) (.refl _))
        · exact .next (refWrite_does ..) (by decide) (.refl _)
      · exact .next (refWrite_does ..) (by decide) (.refl _)
  · exact .refl _

theorem writeRecords_does (p : Plan) (ref : Nat) (copy : Nat) (first : Nat) (rs : List Bytes) (s : State) :
    Does [.mem, .pages] s (writeRecords p ref copy first rs s) := by
  unfold writeRecords
  dsimp only
  refine .foldl _ (fun u a => ?_) ?_
  · exact .next (refWrite_does ..) (by decide) (.refl _)
  · exact .refl _

theorem flipOnce_does (slot : Nat) (ref : Nat) (p : Plan) (s : State) (e : Nat × Option (Nat × List Bytes)) :
    Does [.mem, .pages, .stats] s (flipOnce slot ref p s e) := by
  unfold flipOnce
  dsimp only
  refine .next (activateCopy_does ..) (by decide) ?_
  split
  · exact .next (setStat_does ..) (by decide) (.next (writeRecords_does ..) (by decide) (.refl _))
  · exact .refl _

theorem refreshAt_does (slot : Nat) (now : Nat) (at' : Nat) (p : Plan) (s : State) (ref : Nat) :
    Does [.mem, .pages, .stats] s (refreshAt slot now at' p s ref) := by
  unfold refreshAt
  dsimp only
  refine .ite (fun _ => ?_) (fun _ => ?_)
  · exact .refl _
  · split
    · refine .ite (fun _ => ?_) (fun _ => ?_)
      · exact .next (activateCopy_does ..) (by decide) (.next (refWrite_does ..) (by decide)
            (.next (setStat_does ..) (by decide) (.refl _)))
      · exact .next (setStat_does ..) (by decide) (.refl _)
    · exact .next (setStat_does ..) (by decide) (.refl _)

theorem groupMerge_does (c : StageCtx) (s : State) :
    Does [.blot, .tests, .mem, .pages, .sched, .cells, .regHeld, .hostSigs, .joins, .batches] s (stageState s (groupMerge c s)) := by
  unfold groupMerge
  dsimp only
  split
  · dsimp only [CmdRes.state, stageState]
    exact .refl _
  · split
    · dsimp only [CmdRes.state, stageState]
      exact .refl _
    · split
      · dsimp only [CmdRes.state, stageState]
        exact .next (setJoin_does ..) (by decide) (.next (tableLimits_does ..) (by decide)
            (.next (sumReports_does ..) (by decide) (.refl _)))
      · dsimp only [CmdRes.state, stageState]
        exact .next (setJoin_does ..) (by decide) (.next (tableLimits_does ..) (by decide)
            (.next (sumReports_does ..) (by decide) (.refl _)))

end Sys2Proof.Machine
end

