-- ==== Sys2Proof/Laws/DoesExchange.lean ====
section
/-! SUPPORT. What the shared operations over ports, lookups and the exchange do: the fields each touches. -/

namespace Sys2Proof.Machine

theorem enqueueKit_does (p : Nat) (c : OutClass) (exch : Bool) (dst : Addr) (h : KitHeader) (payload : Bytes) (s : State) :
    Does [.ports] s (enqueueKit p c exch dst h payload s) := by
  unfold enqueueKit
  dsimp only
  exact .next (setPort_does ..) (by decide) (.refl _)

theorem feedUpdates_does (c : TableCtx) (gen : Nat) (upds : List (Nat × List Nat)) (s : State) :
    Does [.blot, .tests, .actions, .mem, .pages, .sched, .cells, .regHeld, .hostSigs, .tables, .combiners, .batches, .dips,
      .freeCtr] s (feedUpdates c gen upds s) := by
  unfold feedUpdates
  refine .foldl _ (fun u a => ?_) ?_
  · split
    · exact .next (combine_does ..) (by decide) (.refl _)
    · exact .refl _
  · exact .refl _

theorem feedWindow_does (die : Nat) (slot : Nat) (s : State) :
    Does [.blot, .tests, .actions, .mem, .pages, .sched, .cells, .regHeld, .hostSigs, .tables, .combiners, .batches, .dips,
      .freeCtr] s (feedWindow die slot s) := by
  unfold feedWindow
  dsimp only
  refine .foldl _ (fun u a => ?_) ?_
  · refine .foldl _ (fun u a => ?_) ?_
    · exact .next (feedUpdates_does ..) (by decide) (.refl _)
    · exact .next (dropStale_does ..) (by decide) (.next (setTable_does ..) (by decide) (.refl _))
  · exact .refl _

theorem openWindow_does (die : Nat) (slot : Nat) (s : State) :
    Does [.blot, .tests, .actions, .mem, .pages, .sched, .cells, .regHeld, .hostSigs, .tables, .combiners, .batches, .dips,
      .freeCtr] s (openWindow die slot s) := by
  unfold openWindow
  dsimp only
  exact .next (feedWindow_does ..) (by decide) (.next (setCombiner_does ..) (by decide) (.refl _))

theorem closeWindow_does (die : Nat) (slot : Nat) (s : State) :
    Does [.rul, .blot, .tickEvents, .tests, .actions, .mem, .pages, .sched, .cells, .regHeld, .hostSigs, .tables, .combiners,
      .batches, .dips, .freeCtr] s (closeWindow die slot s) := by
  unfold closeWindow
  dsimp only
  split
  · refine .next (openWindow_does ..) (by decide) (.next (sharedLate_does ..) (by decide) ?_)
    split
    · exact .next (endShared_does ..) (by decide) (.refl _)
    · exact .refl _
  · split
    · exact .next (endShared_does ..) (by decide) (.refl _)
    · exact .refl _

theorem countRead_does (c : TableCtx) (row : Nat) (via : Nat) (s : State) :
    Does [.tables] s (countRead c row via s) := by
  unfold countRead
  exact .next (setOwner_does ..) (by decide) (.refl _)

theorem drop_does (p : Nat) (reason : Nat) (s : State) :
    Does [.ports] s (drop p reason s) := by
  unfold drop
  dsimp only
  exact .next (setPort_does ..) (by decide) (.refl _)

theorem shapeReports_does (c : StageCtx) (g : GatherBlock) (bags : List Bag) (s : State) :
    Does [.blot, .mem, .pages] s (shapeReports c g bags s) := by
  unfold shapeReports
  refine .foldl _ (fun u a => ?_) ?_
  · exact .next (blotOf_does ..) (by decide) (.refl _)
  · exact .refl _

theorem rangeReports_does (c : StageCtx) (g : GatherBlock) (reason : Nat) (bags : List Bag) (s : State) :
    Does [.blot, .mem, .pages, .tables] s (rangeReports c g reason bags s) := by
  unfold rangeReports
  dsimp only
  refine .foldl _ (fun u a => ?_) ?_
  · split
    · split
      · exact .next (setTable_does ..) (by decide) (.next (blotOf_does ..) (by decide) (.refl _))
      · exact .refl _
    · exact .refl _
  · exact .refl _

theorem poolOut_does (c : StageCtx) (d : TableDesc) (g : GatherBlock) (vals : List (Option (Option (List Nat)))) (s : State) :
    Does [] s (poolOut c d g vals s).st := by
  unfold poolOut
  dsimp only
  exact .refl _

theorem indexLimit_does (c : StageCtx) (n : Nat) (s : State) :
    Does [.blot, .tests, .mem, .pages, .sched, .cells, .regHeld, .hostSigs, .batches] s (indexLimit c n s) := by
  unfold indexLimit
  refine .ite (fun _ => ?_) (fun _ => ?_)
  · exact .next (exceedance_does ..) (by decide) (.refl _)
  · exact .refl _

theorem directStage_does (c : StageCtx) (s : State) :
    Does [.blot, .tests, .mem, .pages, .sched, .cells, .regHeld, .hostSigs, .tables,
      .batches] s (stageState s (directStage c s)) := by
  unfold directStage
  dsimp only
  split
  · dsimp only [CmdRes.state, stageState]
    exact .refl _
  · split
    · dsimp only [CmdRes.state, stageState]
      exact .refl _
    · dsimp only [CmdRes.state, stageState]
      exact .next (poolOut_does ..) (by decide) (.next (indexLimit_does ..) (by decide)
          (.next (rangeReports_does ..) (by decide) (.next (shapeReports_does ..) (by decide) (.refl _))))

theorem sendPfc_does (p : Nat) (f : OutFrame) (priority : Nat) (xoff : Bool) (s : State) :
    Does [.sent, .freeCtr] s (sendPfc p f priority xoff s) := by
  unfold sendPfc
  refine .next (drawn_does ..) (by decide) ?_
  with_reducible refine .set rfl rfl rfl (fun f hf => ?_) ?_
  · cases f <;> first | exact absurd (by decide) hf | exact Eq.refl _
  exact .refl _

theorem sendUdp_does (p : Nat) (f : OutFrame) (v6 : Bool) (bs : Bytes) (s : State) :
    Does [.sent, .freeCtr] s (sendUdp p f v6 bs s) := by
  unfold sendUdp
  refine .next (drawn_does ..) (by decide) ?_
  with_reducible refine .set rfl rfl rfl (fun f hf => ?_) ?_
  · cases f <;> first | exact absurd (by decide) hf | exact Eq.refl _
  exact .refl _

theorem setCounter_does (c : SeqCounter) (s : State) :
    Does [.counters] s (setCounter c s) := by
  unfold setCounter
  with_reducible refine .set rfl rfl rfl (fun f hf => ?_) ?_
  · cases f <;> first | exact absurd (by decide) hf | exact Eq.refl _
  exact .refl _

theorem sendPtp_does (p : Nat) (f : OutFrame) (bs : Bytes) (s : State) :
    Does [.sent, .freeCtr] s (sendPtp p f bs s) := by
  unfold sendPtp
  refine .ite (fun _ => ?_) (fun _ => ?_)
  · refine .next (drawn_does ..) (by decide) ?_
    with_reducible refine .set rfl rfl rfl (fun f hf => ?_) ?_
    · cases f <;> first | exact absurd (by decide) hf | exact Eq.refl _
    exact .refl _
  · exact .next (sendUdp_does ..) (by decide) (.refl _)

theorem emitFrame_does (p : Nat) (f : OutFrame) (s : State) :
    Does [.counters, .sent, .freeCtr] s (emitFrame p f s) := by
  unfold emitFrame
  dsimp only
  split
  · exact .next (sendPfc_does ..) (by decide) (.refl _)
  · exact .next (sendPtp_does ..) (by decide) (.refl _)
  · refine .ite (fun _ => ?_) (fun _ => ?_)
    · exact .next (sendUdp_does ..) (by decide) (.refl _)
    · split
      · exact .refl _
      · refine .ite (fun _ => ?_) (fun _ => ?_)
        · exact .refl _
        · exact .next (sendUdp_does ..) (by decide) (.next (setCounter_does ..) (by decide) (.refl _))

theorem enqueuePfc_does (p : Nat) (priority : Nat) (xoff : Bool) (s : State) :
    Does [.ports] s (enqueuePfc p priority xoff s) := by
  unfold enqueuePfc
  dsimp only
  exact .next (setPort_does ..) (by decide) (.refl _)

theorem reportMissing_does (s : State) :
    Does [.blot, .mem, .pages, .tables] s (reportMissing s) := by
  unfold reportMissing
  dsimp only
  refine .foldl _ (fun u a => ?_) ?_
  · refine .next (setTable_does ..) (by decide) ?_
    refine .foldl _ (fun u a => ?_) ?_
    · exact .next (emitBlot_does ..) (by decide) (.refl _)
    · exact .refl _
  · exact .refl _

theorem sendToDevice_does (dev : Nat) (c : OutClass) (exch : Bool) (kind : Nat) (key : Nat) (endpoint : Nat) (pos : Nat) (payload : Bytes) (s : State) :
    Does [.ports] s (sendToDevice dev c exch kind key endpoint pos payload s) := by
  unfold sendToDevice
  dsimp only
  exact .next (enqueueKit_does ..) (by decide) (.refl _)

theorem sendList_does (dev : Nat) (kind : Nat) (size : Nat) (h : ExHeader) (es : List Bytes) (s : State) :
    Does [.ports] s (sendList dev kind size h es s) := by
  unfold sendList
  dsimp only
  split
  · exact .refl _
  · refine .foldl _ (fun u a => ?_) ?_
    · exact .next (sendToDevice_does ..) (by decide) (.refl _)
    · exact .refl _

theorem sendLists_does (s : State) :
    Does [.tables, .ports] s (sendLists s) := by
  unfold sendLists
  dsimp only
  refine .foldl _ (fun u a => ?_) ?_
  · split
    · exact .refl _
    · refine .next (setTable_does ..) (by decide) ?_
      refine .foldl _ (fun u a => ?_) ?_
      · exact .next (sendList_does ..) (by decide) (.refl _)
      · refine .foldl _ (fun u a => ?_) ?_
        · exact .next (sendList_does ..) (by decide) (.refl _)
        · exact .refl _
  · exact .refl _

theorem flowOne_does (p : Nat) (s : State) (pr : Nat) :
    Does [.ports] s (flowOne p s pr) := by
  unfold flowOne
  dsimp only
  refine .ite (fun _ => ?_) (fun _ => ?_)
  · exact .next (enqueuePfc_does ..) (by decide) (.next (setPort_does ..) (by decide) (.refl _))
  · refine .ite (fun _ => ?_) (fun _ => ?_)
    · exact .next (enqueuePfc_does ..) (by decide) (.next (setPort_does ..) (by decide) (.refl _))
    · exact .refl _

theorem flowControl_does (s : State) :
    Does [.ports] s (flowControl s) := by
  unfold flowControl
  refine .foldl _ (fun u a => ?_) ?_
  · refine .ite (fun _ => ?_) (fun _ => ?_)
    · refine .foldl _ (fun u a => ?_) ?_
      · exact .next (flowOne_does ..) (by decide) (.refl _)
      · exact .refl _
    · exact .refl _
  · exact .refl _

theorem seqAccept_does (slot : Nat) (seq : Nat) (s : State) :
    Does [.windows] s (seqAccept slot seq s) := by
  unfold seqAccept
  dsimp only
  split
  · with_reducible refine .set rfl rfl rfl (fun f hf => ?_) ?_
    · cases f <;> first | exact absurd (by decide) hf | exact Eq.refl _
    exact .refl _
  · with_reducible refine .set rfl rfl rfl (fun f hf => ?_) ?_
    · cases f <;> first | exact absurd (by decide) hf | exact Eq.refl _
    exact .refl _

theorem takeNewKeys_does (s : State) :
    Does [.sec, .windows, .counters] s (takeNewKeys s) := by
  unfold takeNewKeys
  dsimp only
  with_reducible refine .set rfl rfl rfl (fun f hf => ?_) ?_
  · cases f <;> first | exact absurd (by decide) hf | exact Eq.refl _
  exact .refl _

theorem receiveKit_does (p : KitPacket) (kind : Nat) (s : State) :
    Does [.sec, .tickEvents, .mboxes, .queues, .ports, .windows, .counters, .freeCtr] s (receiveKit p kind s).2 := by
  unfold receiveKit
  dsimp only
  split
  · dsimp only [CmdRes.state, stageState]
    exact .refl _
  · split
    · dsimp only [CmdRes.state, stageState]
      exact .next (drop_does ..) (by decide) (.refl _)
    · split
      · dsimp only [CmdRes.state, stageState]
        exact .next (drop_does ..) (by decide) (.refl _)
      · split
        · dsimp only [CmdRes.state, stageState]
          exact .next (drop_does ..) (by decide) (.refl _)
        · split
          · dsimp only [CmdRes.state, stageState]
            exact .next (drop_does ..) (by decide) (.refl _)
          · split
            · dsimp only [CmdRes.state, stageState]
              exact .next (tickEvent_does ..) (by decide) (.next (drop_does ..) (by decide) (.refl _))
            · split
              · dsimp only [CmdRes.state, stageState]
                exact .next (finalAnswer_does ..) (by decide) (.next (seqAccept_does ..) (by decide)
                    (.next (takeNewKeys_does ..) (by decide) (.refl _)))
              · split
                · dsimp only [CmdRes.state, stageState]
                  exact .next (drop_does ..) (by decide) (.refl _)
                · dsimp only [CmdRes.state, stageState]
                  exact .next (seqAccept_does ..) (by decide) (.refl _)

theorem noteTry_does (r : StageRef) (s : State) :
    Does [.nibs] s (noteTry r s) := by
  unfold noteTry
  dsimp only
  split
  · refine .ite (fun _ => ?_) (fun _ => ?_)
    · exact .refl _
    · exact .next (putGroup_does ..) (by decide) (.refl _)
  · exact .refl _

theorem poolStage_does (c : StageCtx) (s : State) :
    Does [.blot, .tests, .mem, .pages, .sched, .cells, .regHeld, .hostSigs, .tables, .batches] s (stageState s (poolStage c s)) := by
  unfold poolStage
  dsimp only
  split
  · dsimp only [CmdRes.state, stageState]
    exact .refl _
  · split
    · split
      · dsimp only [CmdRes.state, stageState]
        exact .refl _
      · dsimp only [CmdRes.state, stageState]
        exact .next (poolOut_does ..) (by decide) (.next (indexLimit_does ..) (by decide) (.next (setTable_does ..) (by decide)
            (.refl _)))
    · split
      · dsimp only [CmdRes.state, stageState]
        exact .refl _
      · dsimp only [CmdRes.state, stageState]
        exact .next (poolOut_does ..) (by decide) (.next (indexLimit_does ..) (by decide) (.next (setTable_does ..) (by decide)
            (.refl _)))

theorem pollCells_does (q n : Nat) (found : Option (BitVec 17) × Nat) (s : State) :
    Does [.blot, .tickEvents, .tests, .mem, .pages, .sched, .queues, .cells, .regHeld, .queueWaits, .hostSigs, .batches,
      .poolCorr, .freeCtr] s (pollCells q n found s).2 := by
  induction n generalizing found s with
  | zero => exact .refl _
  | succ n ih =>
    have h := takeChecked_does q found.1 found.2 s
    unfold pollCells
    dsimp only
    split
    · next e => rw [e] at h; exact .next (ih _ _) (by decide) (h.2 _ _ rfl)
    · next e => rw [e] at h; exact h.1

theorem hostConsumes_does (q : Nat) (s : State) :
    Does [.queues] s (hostConsumes q s) := by
  unfold hostConsumes
  split
  · refine .ite (fun _ => ?_) (fun _ => ?_)
    · exact .refl _
    · exact .next (setQueue_does ..) (by decide) (.refl _)
  · exact .refl _

theorem releaseWindow_does (slot : Nat) (die : Nat) (p : Plan) (s : State) :
    Does [.rul, .blot, .tests, .actions, .mem, .pages, .sched, .cells, .regHeld, .hostSigs, .tables, .combiners, .batches, .dips,
      .freeCtr] s (releaseWindow slot die p s) := by
  unfold releaseWindow
  dsimp only
  refine .ite (fun _ => ?_) (fun _ => ?_)
  · refine .next (openWindow_does ..) (by decide) ?_
    split
    · with_reducible refine .set rfl rfl rfl (fun f hf => ?_) ?_
      · cases f <;> first | exact absurd (by decide) hf | exact Eq.refl _
      exact .next (setCombiner_does ..) (by decide) (.refl _)
    · exact .next (setCombiner_does ..) (by decide) (.refl _)
  · split
    · with_reducible refine .set rfl rfl rfl (fun f hf => ?_) ?_
      · cases f <;> first | exact absurd (by decide) hf | exact Eq.refl _
      exact .next (setCombiner_does ..) (by decide) (.refl _)
    · exact .next (setCombiner_does ..) (by decide) (.refl _)

theorem refillResponses_does (m : Nat) (s : State) :
    Does [.mboxes, .queues, .freeCtr] s (refillResponses m s) := by
  unfold refillResponses
  dsimp only
  split
  · refine .ite (fun _ => ?_) (fun _ => ?_)
    · exact .next (enqueue_does ..) (by decide) (.next (setMbox_does ..) (by decide) (.refl _))
    · exact .refl _
  · exact .refl _

theorem offerResponse_does (p : Nat) (s : State) (m : Nat) :
    Does [.mboxes, .queues, .ports, .freeCtr] s (offerResponse p s m) := by
  unfold offerResponse
  dsimp only
  split
  · refine .ite (fun _ => ?_) (fun _ => ?_)
    · split
      · exact .refl _
      · refine .foldl _ (fun u a => ?_) ?_
        · exact .next (enqueueKit_does ..) (by decide) (.refl _)
        · exact .next (refillResponses_does ..) (by decide) (.next (setQueue_does ..) (by decide) (.refl _))
    · exact .refl _
  · exact .refl _

theorem noteExhausted_does (p : Nat) (f : OutFrame) (s : State) :
    Does [.blot, .tests, .mem, .pages, .sched, .cells, .regHeld, .hostSigs, .batches, .counters] s (noteExhausted p f s) := by
  unfold noteExhausted
  dsimp only
  split
  · refine .ite (fun _ => ?_) (fun _ => ?_)
    · exact .refl _
    · exact .next (emitErr_does ..) (by decide) (.next (setCounter_does ..) (by decide) (.refl _))
  · exact .refl _

theorem offerHostSignal_does (p : Nat) (s : State) :
    Does [.hostSigs, .ports] s (offerHostSignal p s) := by
  unfold offerHostSignal
  split
  · exact .refl _
  · refine .ite (fun _ => ?_) (fun _ => ?_)
    · refine .next (enqueueKit_does ..) (by decide) ?_
      with_reducible refine .set rfl rfl rfl (fun f hf => ?_) ?_
      · cases f <;> first | exact absurd (by decide) hf | exact Eq.refl _
      exact .refl _
    · exact .refl _

theorem landRow_does (c : TableCtx) (die : Nat) (buf : Nat) (slot : Nat) (bs : Bytes) (s : State) :
    Does [.mem, .pages, .tables] s (landRow c die buf slot bs s) := by
  unfold landRow
  dsimp only
  split
  · exact .next (writeDva_does ..) (by decide) (.next (setTable_does ..) (by decide) (.refl _))
  · exact .next (setTable_does ..) (by decide) (.refl _)

/-- An exchange packet received does what its body does, and keeps the port's account. -/
theorem receiveEx_does {T : List Part} {p : KitPacket} {kind : Nat} {s : State} {body : TableCtx → ExHeader → Bytes → State → State}
    (hT : subPart [.sec, .tickEvents, .mboxes, .queues, .ports, .windows, .counters, .freeCtr] T = true)
    (h : ∀ c e bs u, Does T s u → Does T s (body c e bs u)) : Does T s (receiveEx p kind s body) := by
  have hr := (receiveKit_does p kind s).mono (T := T)
  unfold receiveEx
  split
  · next e => rw [e] at hr; exact hr hT
  · next e =>
    rw [e] at hr
    dsimp only
    split
    · exact .next (drop_does ..) (subPart_trans (by decide) hT) (hr hT)
    · exact h _ _ _ _ (hr hT)

theorem notePeer_does (c : TableCtx) (unit : BitVec 16) (tick : Nat) (s : State) (d : Nat) :
    Does [.blot, .tests, .mem, .pages, .sched, .cells, .regHeld, .hostSigs, .tables, .batches] s (notePeer c unit tick s d) := by
  unfold notePeer
  dsimp only
  refine .ite (fun _ => ?_) (fun _ => ?_)
  · exact .next (setTable_does ..) (by decide) (.refl _)
  · exact .next (emitErr_does ..) (by decide) (.next (setTable_does ..) (by decide) (.refl _))

theorem missPeers_does (c : TableCtx) (unit : BitVec 16) (s : State) :
    Does [.blot, .tests, .mem, .pages, .sched, .cells, .regHeld, .hostSigs, .tables, .batches] s (missPeers c unit s) := by
  unfold missPeers
  dsimp only
  refine .next (setTable_does ..) (by decide) ?_
  refine .foldl _ (fun u a => ?_) ?_
  · exact .next (notePeer_does ..) (by decide) (.refl _)
  · exact .refl _

theorem reportSpill_does (die : Nat) (slot : Nat) (spilled : Nat) (s : State) :
    Does [.blot, .tests, .mem, .pages, .sched, .cells, .regHeld, .hostSigs, .batches] s (reportSpill die slot spilled s) := by
  unfold reportSpill
  split
  · refine .ite (fun _ => ?_) (fun _ => ?_)
    · exact .refl _
    · exact .next (emitErr_does ..) (by decide) (.refl _)
  · exact .refl _

theorem sealExchange_does (slot : Nat) (s : State) :
    Does [.tables] s (sealExchange slot s) := by
  unfold sealExchange
  dsimp only
  refine .foldl _ (fun u a => ?_) ?_
  · exact .next (setTable_does ..) (by decide) (.refl _)
  · exact .refl _

theorem routeUpdate_does (tc : TableCtx) (die : Nat) (row : Nat) (adds : List Nat) (s : State) :
    Does [.blot, .tests, .actions, .mem, .pages, .sched, .cells, .regHeld, .hostSigs, .tables, .combiners, .batches, .dips,
      .freeCtr] s (routeUpdate tc die row adds s) := by
  unfold routeUpdate
  split
  · exact .next (combine_does ..) (by decide) (.refl _)
  · exact .next (setTable_does ..) (by decide) (.refl _)
  · exact .refl _

theorem updateStage_does (c : StageCtx) (s : State) :
    Does [.blot, .tests, .actions, .mem, .pages, .sched, .cells, .regHeld, .hostSigs, .tables, .combiners, .batches, .dips,
      .freeCtr] s (stageState s (updateStage c s)) := by
  unfold updateStage
  dsimp only
  split
  · dsimp only [CmdRes.state, stageState]
    exact .refl _
  · dsimp only [CmdRes.state, stageState]
    refine .foldl _ (fun u a => ?_) ?_
    · split
      · refine .foldl _ (fun u a => ?_) ?_
        · split
          · exact .next (routeUpdate_does ..) (by decide) (.refl _)
          · exact .refl _
        · exact .refl _
      · exact .refl _
    · exact .next (indexLimit_does ..) (by decide) (.next (rangeReports_does ..) (by decide)
          (.next (shapeReports_does ..) (by decide) (.refl _)))

theorem lateRows_does (c : TableCtx) (dev : Nat) (h : ExHeader) (s : State) :
    Does [.tables, .ports] s (lateRows c dev h s) := by
  unfold lateRows
  dsimp only
  split
  · exact .refl _
  · refine .ite (fun _ => ?_) (fun _ => ?_)
    · exact .refl _
    · refine .ite (fun _ => ?_) (fun _ => ?_)
      · exact .refl _
      · split
        · exact .next (setTable_does ..) (by decide) (.refl _)
        · exact .next (sendToDevice_does ..) (by decide) (.next (setTable_does ..) (by decide) (.refl _))

theorem landFull_does (c : StageCtx) (g : GatherBlock) (d : TableDesc) (tick : Nat) (bags : List Bag) (h : Handles) (s : State) :
    Does [.blot, .tests, .mem, .pages, .sched, .cells, .regHeld, .hostSigs, .batches] s (landFull c g d tick bags h s) := by
  unfold landFull
  dsimp only
  split
  · exact .refl _
  · refine .ite (fun _ => ?_) (fun _ => ?_)
    · exact .next (exceedance_does ..) (by decide) (.next (blotOf_does ..) (by decide) (.refl _))
    · exact .next (blotOf_does ..) (by decide) (.refl _)

theorem lookupStage_does (c : StageCtx) (s : State) :
    Does [.blot, .tests, .mem, .pages, .sched, .cells, .regHeld, .hostSigs, .tables,
      .batches] s (stageState s (lookupStage c s)) := by
  unfold lookupStage
  dsimp only
  split
  · dsimp only [CmdRes.state, stageState]
    exact .refl _
  · dsimp only [CmdRes.state, stageState]
    exact .next (landFull_does ..) (by decide) (.next (writeFree_does ..) (by decide) (.next (setTable_does ..) (by decide)
        (.next (indexLimit_does ..) (by decide) (.next (rangeReports_does ..) (by decide)
        (.next (shapeReports_does ..) (by decide) (.refl _))))))

theorem lateUpdates_does (c : TableCtx) (dev : Nat) (h : ExHeader) (s : State) :
    Does [.blot, .tests, .actions, .mem, .pages, .sched, .cells, .regHeld, .hostSigs, .tables, .batches, .dips,
      .freeCtr] s (lateUpdates c dev h s) := by
  unfold lateUpdates
  dsimp only
  split
  · exact .refl _
  · refine .ite (fun _ => ?_) (fun _ => ?_)
    · exact .refl _
    · refine .ite (fun _ => ?_) (fun _ => ?_)
      · exact .next (dropStale_does ..) (by decide) (.next (setTable_does ..) (by decide) (.refl _))
      · refine .ite (fun _ => ?_) (fun _ => ?_)
        · exact .refl _
        · refine .ite (fun _ => ?_) (fun _ => ?_)
          · refine .next (emitErr_does ..) (by decide) ?_
            refine .foldl _ (fun u a => ?_) ?_
            · exact .next (applyUpdate_does ..) (by decide) (.refl _)
            · exact .next (setTable_does ..) (by decide) (.refl _)
          · refine .foldl _ (fun u a => ?_) ?_
            · exact .next (applyUpdate_does ..) (by decide) (.refl _)
            · exact .next (setTable_does ..) (by decide) (.refl _)

theorem serveList_does (c : TableCtx) (die : Nat) (q : ReqList) (s : State) :
    Does [.mem, .pages, .tables, .ports] s (serveList c die q s).1 := by
  unfold serveList
  dsimp only
  refine .next (setTable_does ..) (by decide) ?_
  refine .ite (fun _ => ?_) (fun _ => ?_)
  · refine .ite (fun _ => ?_) (fun _ => ?_)
    · refine .foldl _ (fun u a => ?_) ?_
      · exact .next (countRead_does ..) (by decide) (.refl _)
      · exact .refl _
    · refine .next (sendList_does ..) (by decide) ?_
      refine .foldl _ (fun u a => ?_) ?_
      · exact .next (countRead_does ..) (by decide) (.refl _)
      · exact .refl _
  · refine .ite (fun _ => ?_) (fun _ => ?_)
    · refine .foldl _ (fun u a => ?_) ?_
      · exact .next (landRow_does ..) (by decide) (.refl _)
      · refine .foldl _ (fun u a => ?_) ?_
        · exact .next (countRead_does ..) (by decide) (.refl _)
        · exact .refl _
    · refine .foldl _ (fun u a => ?_) ?_
      · exact .next (countRead_does ..) (by decide) (.refl _)
      · exact .refl _

theorem serveLists_does (c : TableCtx) (die : Nat) (tick : Option Nat) (s : State) :
    Does [.mem, .pages, .tables, .ports] s (serveLists c die tick s).1 := by
  have h : ∀ (qs : List ReqList) (a : State × Nat), Does [.mem, .pages, .tables, .ports] s a.1 →
      Does [.mem, .pages, .tables, .ports] s (qs.foldl (fun (a : State × Nat) q => let x := serveList c die q a.1; (x.1,
        a.2 + x.2)) a).1 := by
    intro qs
    induction qs with
    | nil => exact fun _ h => h
    | cons q r ih => exact fun a h => ih _ (.next (serveList_does ..) (by decide) h)
  exact h _ _ (.refl _)

theorem serveRuled_does (c : TableCtx) (x : SharedRun) (s : State) :
    Does [.rul, .blot, .tickEvents, .tests, .mem, .pages, .sched, .cells, .regHeld, .hostSigs, .tables, .batches,
      .ports] s (serveRuled c x s) := by
  unfold serveRuled
  dsimp only
  refine .next (endShareds_does ..) (by decide) ?_
  refine .ite (fun _ => ?_) (fun _ => ?_)
  · exact .next (emitErr_does ..) (by decide) (.next (serveLists_does ..) (by decide) (.refl _))
  · exact .next (serveLists_does ..) (by decide) (.refl _)

end Sys2Proof.Machine
end

