-- ==== Sys2Proof/Laws/DoesStreams.lean ====
section
/-! SUPPORT. What the shared operations over binding, pages, streams, selection, match units, migration, ingest and batches do: the fields each touches. -/

namespace Sys2Proof.Machine

theorem dropStreamWaits_does (k : Nat × Nat) (s : State) :
    Does [.cells, .regHeld, .parked, .queueWaits] s (dropStreamWaits k s) := by
  unfold dropStreamWaits
  dsimp only
  with_reducible refine .set rfl rfl rfl (fun f hf => ?_) ?_
  · cases f <;> first | exact absurd (by decide) hf | exact Eq.refl _
  exact .refl _

theorem refreshFaulted_does (page : Nat) (s : State) :
    Does [.pages] s (refreshFaulted page s) := by
  unfold refreshFaulted
  dsimp only
  split
  · exact .refl _
  · with_reducible refine .set rfl rfl rfl (fun f hf => ?_) ?_
    · cases f <;> first | exact absurd (by decide) hf | exact Eq.refl _
    exact .refl _

theorem setStream_does (k : Nat × Nat) (x : Stream) (s : State) :
    Does [.streams] s (setStream k x s) := by
  unfold setStream
  with_reducible refine .set rfl rfl rfl (fun f hf => ?_) ?_
  · cases f <;> first | exact absurd (by decide) hf | exact Eq.refl _
  exact .refl _

theorem abortStream_does (k : Nat × Nat) (s : State) :
    Does [.pages, .cells, .regHeld, .parked, .queueWaits, .streams] s (abortStream k s) := by
  unfold abortStream
  dsimp only
  split
  · exact .refl _
  · split
    · exact .next (refreshFaulted_does ..) (by decide) (.next (setStream_does ..) (by decide)
          (.next (dropStreamWaits_does ..) (by decide) (.refl _)))
    · exact .next (setStream_does ..) (by decide) (.next (dropStreamWaits_does ..) (by decide) (.refl _))

theorem cancelStream_does (k : Nat × Nat) (s : State) :
    Does [.pages, .cells, .regHeld, .parked, .queueWaits, .streams] s (cancelStream k s) := by
  unfold cancelStream
  dsimp only
  split
  · exact .refl _
  · split
    · exact .next (refreshFaulted_does ..) (by decide) (.next (setStream_does ..) (by decide)
          (.next (dropStreamWaits_does ..) (by decide) (.refl _)))
    · exact .next (setStream_does ..) (by decide) (.next (dropStreamWaits_does ..) (by decide) (.refl _))

theorem clearSource_does (k : Nat × Nat) (s : State) :
    Does [.caches] s (clearSource k s) := by
  unfold clearSource
  with_reducible refine .set rfl rfl rfl (fun f hf => ?_) ?_
  · cases f <;> first | exact absurd (by decide) hf | exact Eq.refl _
  exact .refl _

theorem setBatch_does (k : Nat × Nat) (b : Batch) (s : State) :
    Does [.batches] s (setBatch k b s) := by
  unfold setBatch
  with_reducible refine .set rfl rfl rfl (fun f hf => ?_) ?_
  · cases f <;> first | exact absurd (by decide) hf | exact Eq.refl _
  exact .refl _

theorem addMigration_does (c : TableCtx) (block : Nat) (s : State) :
    Does [.tables] s (addMigration c block s) := by
  unfold addMigration
  dsimp only
  exact .next (setTable_does ..) (by decide) (.refl _)

theorem addShort_does (b : Binding) (es : List FitEntry) :
    Does [] b.s (addShort b es).s := by
  unfold addShort
  dsimp only
  exact .refl _

theorem addTaken_does (b : Binding) (bs : List Bound) :
    Does [] b.s (addTaken b bs).s := by
  unfold addTaken
  dsimp only
  exact .refl _

theorem replayLog_does (c : TableCtx) (block : Nat) (s : State) :
    Does [.mem, .pages, .tables] s (replayLog c block s) := by
  unfold replayLog
  dsimp only
  split
  · exact .refl _
  · refine .next (setTable_does ..) (by decide) ?_
    refine .foldl _ (fun u a => ?_) ?_
    · exact .next (copyRows_does ..) (by decide) (.refl _)
    · exact .refl _

theorem applyCutover_does (slot : Nat) (ref : Nat) (row : Nat) (s : State) :
    Does [.mem, .pages, .tables] s (applyCutover slot ref row s) := by
  unfold applyCutover
  dsimp only
  split
  · exact .refl _
  · exact .next (setTable_does ..) (by decide) (.next (setOwner_does ..) (by decide) (.next (replayLog_does ..) (by decide)
        (.refl _)))

theorem applyDip_does (slot : Nat) (ref : Nat) (row : Nat) (s : State) :
    Does [.tables, .dips] s (applyDip slot ref row s) := by
  unfold applyDip
  dsimp only
  split
  · exact .refl _
  · refine .ite (fun _ => ?_) (fun _ => ?_)
    · refine .next (setTable_does ..) (by decide) ?_
      with_reducible refine .set rfl rfl rfl (fun f hf => ?_) ?_
      · cases f <;> first | exact absurd (by decide) hf | exact Eq.refl _
      exact .refl _
    · with_reducible refine .set rfl rfl rfl (fun f hf => ?_) ?_
      · cases f <;> first | exact absurd (by decide) hf | exact Eq.refl _
      exact .refl _

theorem writeEntries_does (reg : Bound) (first : Nat) (imgs : List (BitVec 320)) (s : State) :
    Does [.matchUnits] s (writeEntries reg first imgs s) := by
  unfold writeEntries
  dsimp only
  with_reducible refine .set rfl rfl rfl (fun f hf => ?_) ?_
  · cases f <;> first | exact absurd (by decide) hf | exact Eq.refl _
  exact .refl _

theorem writeTags_does (reg : Bound) (first : Nat) (ts : List Byte) (s : State) :
    Does [.matchUnits] s (writeTags reg first ts s) := by
  unfold writeTags
  dsimp only
  with_reducible refine .set rfl rfl rfl (fun f hf => ?_) ?_
  · cases f <;> first | exact absurd (by decide) hf | exact Eq.refl _
  exact .refl _

theorem releaseFrames_does (frames : List Nat) (s : State) :
    Does [.zeroing] s (releaseFrames frames s) := by
  unfold releaseFrames
  refine .ite (fun _ => ?_) (fun _ => ?_)
  · exact .refl _
  · with_reducible refine .set rfl rfl rfl (fun f hf => ?_) ?_
    · cases f <;> first | exact absurd (by decide) hf | exact Eq.refl _
    exact .refl _

theorem setDip_does (die : Nat) (x : DipPart) (s : State) :
    Does [.dips] s (setDip die x s) := by
  unfold setDip
  with_reducible refine .set rfl rfl rfl (fun f hf => ?_) ?_
  · cases f <;> first | exact absurd (by decide) hf | exact Eq.refl _
  exact .refl _

theorem swapTables_does (slot : Nat) (live : Nat) (standby : Nat) (t : Nat) (s : State) :
    Does [.tables] s (swapTables slot live standby t s) := by
  unfold swapTables
  dsimp only
  exact .next (setTable_does ..) (by decide) (.next (setTable_does ..) (by decide) (.refl _))

theorem enterCopy_does (new : DipRow) (s : State) (e : Nat × Option DipRow) :
    Does [.dips] s (enterCopy new s e) := by
  unfold enterCopy
  dsimp only
  exact .next (setDip_does ..) (by decide) (.refl _)

theorem placeRow_does (c : TableCtx) (row : Nat) (misses : Nat) (s : State) :
    Does [.actions, .dips] s (placeRow c row misses s) := by
  unfold placeRow
  dsimp only
  split
  · exact .refl _
  · split
    · refine .ite (fun _ => ?_) (fun _ => ?_)
      · exact .refl _
      · with_reducible refine .set rfl rfl rfl (fun f hf => ?_) ?_
        · cases f <;> first | exact absurd (by decide) hf | exact Eq.refl _
        refine .foldl _ (fun u a => ?_) ?_
        · exact .next (enterCopy_does ..) (by decide) (.refl _)
        · exact .refl _
    · exact .refl _

theorem applySwap_does (slot : Nat) (live : Nat) (standby : Nat) (t : Nat) (s : State) :
    Does [.mboxes, .actions, .queues, .tables, .dips, .freeCtr] s (applySwap slot live standby t s) := by
  unfold applySwap
  dsimp only
  split
  · exact .refl _
  · refine .next (finalAnswer_does ..) (by decide) ?_
    with_reducible refine .set rfl rfl rfl (fun f hf => ?_) ?_
    · cases f <;> first | exact absurd (by decide) hf | exact Eq.refl _
    refine .foldl _ (fun u a => ?_) ?_
    · exact .next (placeRow_does ..) (by decide) (.refl _)
    · with_reducible refine .set rfl rfl rfl (fun f hf => ?_) ?_
      · cases f <;> first | exact absurd (by decide) hf | exact Eq.refl _
      exact .next (swapTables_does ..) (by decide) (.refl _)

theorem batchErr_does (key : Nat × Nat) (unit : BitVec 16) (code : Nat) (g : Nat) (count : Nat) (s : State) :
    Does [.blot, .tests, .mem, .pages, .sched, .cells, .regHeld, .hostSigs, .batches] s (batchErr key unit code g count s) := by
  unfold batchErr
  exact .next (emitErr_does ..) (by decide) (.refl _)

theorem bindCombiner_does (slot : Nat) (a : Avail) (near : Option Nat) (r : Request) (b : Binding) :
    Does [] b.s (bindCombiner slot a near r b).s := by
  unfold bindCombiner
  dsimp only
  split
  · exact .next (addTaken_does ..) (by decide) (.refl _)
  · exact .next (addShort_does ..) (by decide) (.refl _)

theorem bindCounted_does (slot : Nat) (code : Nat) (r : Request) (cands : List Nat) (mk : Nat → Nat → Bound) (free : Nat → List Bound → Nat → Bool) (b : Binding) :
    Does [] b.s (bindCounted slot code r cands mk free b).s := by
  unfold bindCounted
  dsimp only
  split
  · exact .next (addTaken_does ..) (by decide) (.refl _)
  · exact .next (addShort_does ..) (by decide) (.refl _)

theorem bindCores_does (slot : Nat) (a : Avail) (near : Option Nat) (r : Request) (b : Binding) :
    Does [] b.s (bindCores slot a near r b).s := by
  unfold bindCores
  exact .next (bindCounted_does ..) (by decide) (.refl _)

theorem bindCache_does (slot : Nat) (a : Avail) (near : Option Nat) (r : Request) (b : Binding) :
    Does [] b.s (bindCache slot a near r b).s := by
  unfold bindCache
  dsimp only
  split
  · split
    · exact .next (addTaken_does ..) (by decide) (.refl _)
    · exact .next (addShort_does ..) (by decide) (.refl _)
  · split
    · exact .next (addTaken_does ..) (by decide) (.refl _)
    · exact .next (addShort_does ..) (by decide) (.refl _)

theorem bindPort_does (slot : Nat) (a : Avail) (near : Option Nat) (r : Request) (b : Binding) :
    Does [] b.s (bindPort slot a near r b).s := by
  unfold bindPort
  dsimp only
  split
  · exact .next (addTaken_does ..) (by decide) (.refl _)
  · exact .next (addShort_does ..) (by decide) (.refl _)

theorem bindQueues_does (slot : Nat) (a : Avail) (near : Option Nat) (r : Request) (a4 : Nat) (a5 : Nat) (a6 : Binding) :
    Does [.queues] a6.s (bindQueues slot a near r a4 a5 a6).s := by
  unfold bindQueues
  dsimp only
  split
  · exact .refl _
  · split
    · refine .next (bindQueues_does ..) (by decide) ?_
      dsimp only [CmdRes.state, stageState]
      exact .next (setQueue_does ..) (by decide) (.refl _)
    · exact .next (addShort_does ..) (by decide) (.refl _)

theorem bindReservoir_does (slot : Nat) (a : Avail) (near : Option Nat) (r : Request) (b : Binding) :
    Does [] b.s (bindReservoir slot a near r b).s := by
  unfold bindReservoir
  dsimp only
  split
  · exact .next (addShort_does ..) (by decide) (.refl _)
  · split
    · exact .next (addShort_does ..) (by decide) (.refl _)
    · split
      · exact .next (addShort_does ..) (by decide) (.refl _)
      · exact .next (addTaken_does ..) (by decide) (.refl _)

theorem bindMatch_does (slot : Nat) (a : Avail) (near : Option Nat) (r : Request) (b : Binding) :
    Does [] b.s (bindMatch slot a near r b).s := by
  unfold bindMatch
  dsimp only
  split
  · exact .next (addTaken_does ..) (by decide) (.refl _)
  · exact .next (addShort_does ..) (by decide) (.refl _)

theorem bindStore_does (slot : Nat) (a : Avail) (near : Option Nat) (r : Request) (b : Binding) :
    Does [] b.s (bindStore slot a near r b).s := by
  unfold bindStore
  dsimp only
  split
  · exact .next (addTaken_does ..) (by decide) (.refl _)
  · exact .next (addShort_does ..) (by decide) (.refl _)

theorem bindShared_does (slot : Nat) (a : Avail) (near : Option Nat) (r : Request) (perDie : Nat) (sel : Nat) (b : Binding) :
    Does [] b.s (bindShared slot a near r perDie sel b).s := by
  unfold bindShared
  dsimp only
  exact .next (bindCounted_does ..) (by decide) (.refl _)

theorem bindCells_does (slot : Nat) (a : Avail) (near : Option Nat) (r : Request) (b : Binding) :
    Does [] b.s (bindCells slot a near r b).s := by
  unfold bindCells
  dsimp only
  split
  · exact .next (addTaken_does ..) (by decide) (.refl _)
  · exact .next (addShort_does ..) (by decide) (.refl _)

theorem mapPages_does (first : Nat) (frames : List Nat) (pinned : Bool) (s : State) :
    Does [.pages, .freeCtr] s (mapPages first frames pinned s) := by
  unfold mapPages
  dsimp only
  refine .foldl _ (fun u a => ?_) ?_
  · with_reducible refine .set rfl rfl rfl (fun f hf => ?_) ?_
    · cases f <;> first | exact absurd (by decide) hf | exact Eq.refl _
    exact .refl _
  · exact .next (drawn_does ..) (by decide) (.refl _)

theorem placeRegion_does (slot : Nat) (a : Avail) (r : Request) (b : Binding) (d : Nat) :
    Does [.pages, .freeCtr] b.s (placeRegion slot a r b d).s := by
  unfold placeRegion
  dsimp only
  split
  · exact .next (addShort_does ..) (by decide) (.refl _)
  · dsimp only [CmdRes.state, stageState]
    exact .next (mapPages_does ..) (by decide) (.refl _)

theorem bindHbm_does (slot : Nat) (a : Avail) (near : Option Nat) (r : Request) (b : Binding) :
    Does [.pages, .freeCtr] b.s (bindHbm slot a near r b).s := by
  unfold bindHbm
  dsimp only
  split
  · split
    · refine .foldlOn Binding.s _ (fun u a => ?_) ?_
      · exact .next (placeRegion_does ..) (by decide) (.refl _)
      · exact .next (placeRegion_does ..) (by decide) (.refl _)
    · exact .next (placeRegion_does ..) (by decide) (.refl _)
  · exact .next (addShort_does ..) (by decide) (.refl _)

theorem bindOwnNear_does (slot : Nat) (a : Avail) (r : Request) (b : Binding) :
    Does [] b.s (bindOwnNear slot a r b).s := by
  unfold bindOwnNear
  dsimp only
  split
  · exact .next (addShort_does ..) (by decide) (.refl _)
  · refine .foldlOn Binding.s _ (fun u a => ?_) ?_
    · exact .next (bindCores_does ..) (by decide) (.refl _)
    · exact .next (bindCores_does ..) (by decide) (.refl _)

theorem bindOne_does (slot : Nat) (a : Avail) (b : Binding) (r : Request) :
    Does [.pages, .queues, .freeCtr] b.s (bindOne slot a b r).s := by
  unfold bindOne
  split
  · split
    · exact .next (bindOwnNear_does ..) (by decide) (.refl _)
    · exact .next (addShort_does ..) (by decide) (.refl _)
  · exact .next (bindCores_does ..) (by decide) (.refl _)
  · exact .next (bindStore_does ..) (by decide) (.refl _)
  · exact .next (bindCache_does ..) (by decide) (.refl _)
  · exact .next (bindReservoir_does ..) (by decide) (.refl _)
  · exact .next (bindHbm_does ..) (by decide) (.refl _)
  · exact .next (bindQueues_does ..) (by decide) (.refl _)
  · exact .next (bindShared_does ..) (by decide) (.refl _)
  · exact .next (bindCells_does ..) (by decide) (.refl _)
  · exact .next (bindMatch_does ..) (by decide) (.refl _)
  · exact .next (bindPort_does ..) (by decide) (.refl _)
  · exact .next (bindShared_does ..) (by decide) (.refl _)
  · exact .next (bindShared_does ..) (by decide) (.refl _)
  · exact .next (bindCombiner_does ..) (by decide) (.refl _)

theorem bindAll_does (s : State) (slot : Nat) (a : Avail) (rs : List Request) :
    Does [.pages, .queues, .freeCtr] s (bindAll s slot a rs).s := by
  unfold bindAll
  refine .foldlOn Binding.s _ (fun u a => ?_) ?_
  · exact .next (bindOne_does ..) (by decide) (.refl _)
  · dsimp only [CmdRes.state, stageState]
    exact .refl _

theorem bindImage_does (s : State) (slot : Nat) (avoid : List (BitVec 16)) (m : Image) :
    Does [.pages, .queues, .freeCtr] s (bindImage s slot avoid m).s := by
  unfold bindImage
  dsimp only
  exact .next (addShort_does ..) (by decide) (.next (bindAll_does ..) (by decide) (.refl _))

theorem blockErr_does (unit : BitVec 16) (code : Nat) (k : Nat × Nat) (ruled : Bool) (s : State) :
    Does [.blot, .tests, .mem, .pages, .sched, .cells, .regHeld, .hostSigs, .batches, .freeCtr] s (blockErr unit code k ruled s) := by
  unfold blockErr
  exact .next (emitErr_does ..) (by decide) (.next (drawn_does ..) (by decide) (.refl _))

theorem chooseMaster_does (s : State) :
    Does [.ptp] s (chooseMaster s) := by
  unfold chooseMaster
  dsimp only
  refine .ite (fun _ => ?_) (fun _ => ?_)
  · with_reducible refine .set rfl rfl rfl (fun f hf => ?_) ?_
    · cases f <;> first | exact absurd (by decide) hf | exact Eq.refl _
    exact .refl _
  · with_reducible refine .set rfl rfl rfl (fun f hf => ?_) ?_
    · cases f <;> first | exact absurd (by decide) hf | exact Eq.refl _
    exact .refl _

theorem zeroRanges_does (rs : List (Nat × Nat)) (s : State) :
    Does [.mem] s (zeroRanges rs s) := by
  have key : ∀ (rs : List (Nat × Nat)) (m : List Host.Cell), Memory.wf m = true →
      Memory.wf (rs.foldl (fun m r => match translate s r.1 with | some a => clearCells m a r.2 | none => m) m) = true := by
    intro rs
    induction rs with
    | nil => exact fun m h => h
    | cons r rs ih =>
      intro m h
      refine ih _ ?_
      dsimp only
      split
      · exact clearCells_wf _ _ _ h
      · exact h
  unfold zeroRanges
  refine .setMem rfl (fun m => key _ _ m) rfl (fun f hf => ?_) (.refl _)
  cases f <;> first | exact absurd (by decide) hf | exact Eq.refl _

theorem startReturn_does (c : TableCtx) (block : Nat) (s : State) :
    Does [.tables] s (startReturn c block s) := by
  unfold startReturn
  exact .next (addMigration_does ..) (by decide) (.next (setOwner_does ..) (by decide) (.refl _))

theorem returnHot_does (c : TableCtx) (s : State) :
    Does [.tables] s (returnHot c s) := by
  unfold returnHot
  refine .foldl _ (fun u a => ?_) ?_
  · split
    · refine .ite (fun _ => ?_) (fun _ => ?_)
      · exact .next (startReturn_does ..) (by decide) (.refl _)
      · exact .refl _
    · exact .refl _
  · exact .refl _

theorem returnAll_does (s : State) :
    Does [.tables] s (returnAll s) := by
  unfold returnAll
  refine .foldl _ (fun u a => ?_) ?_
  · exact .next (returnHot_does ..) (by decide) (.refl _)
  · exact .refl _

theorem slotSignal_does (k : Nat × Nat) (x : Stream) (s : State) :
    Does [.blot, .tests, .mem, .pages, .sched, .cells, .regHeld, .hostSigs, .batches] s (slotSignal k x s) := by
  unfold slotSignal
  refine .ite (fun _ => ?_) (fun _ => ?_)
  · exact .refl _
  · exact .next (planAdd_does ..) (by decide) (.refl _)

theorem commitPiece_does (k : Nat × Nat) (i : Nat) (len : Nat) (s : State) :
    Does [.blot, .tests, .mem, .pages, .sched, .cells, .regHeld, .hostSigs, .streams, .batches] s (commitPiece k i len s) := by
  unfold commitPiece
  dsimp only
  split
  · exact .refl _
  · refine .ite (fun _ => ?_) (fun _ => ?_)
    · refine .ite (fun _ => ?_) (fun _ => ?_)
      · exact .next (setStream_does ..) (by decide) (.refl _)
      · exact .next (setStream_does ..) (by decide) (.refl _)
    · refine .ite (fun _ => ?_) (fun _ => ?_)
      · exact .next (setStream_does ..) (by decide) (.refl _)
      · refine .ite (fun _ => ?_) (fun _ => ?_)
        · exact .next (setStream_does ..) (by decide) (.refl _)
        · exact .next (slotSignal_does ..) (by decide) (.next (setStream_does ..) (by decide) (.refl _))

theorem writeHeld_does (s : State) (dva : Nat) (bs : Bytes) :
    Does [.mem, .pages] s (writeHeld s dva bs) := by
  unfold writeHeld
  refine .foldl _ (fun u a => ?_) ?_
  · refine .ite (fun _ => ?_) (fun _ => ?_)
    · exact .next (writeFree_does ..) (by decide) (.refl _)
    · exact .refl _
  · exact .refl _

theorem writeKeeping_does (slices : List SliceDesc) (mine : Nat) (lim : Nat) (base : Nat) (off : Nat) (bs : Bytes) (s : State) :
    Does [.mem, .pages] s (writeKeeping slices mine lim base off bs s) := by
  unfold writeKeeping
  dsimp only
  refine .foldl _ (fun u a => ?_) ?_
  · refine .ite (fun _ => ?_) (fun _ => ?_)
    · exact .refl _
    · exact .next (writeHeld_does ..) (by decide) (.refl _)
  · exact .refl _

theorem writeSlice_does (slices : List SliceDesc) (i : Nat) (lim : Nat) (base : Nat) (valid : Bytes) (s : State) :
    Does [.mem, .pages] s (writeSlice slices i lim base valid s) := by
  unfold writeSlice
  dsimp only
  split
  · exact .refl _
  · exact .next (writeKeeping_does ..) (by decide) (.next (writeKeeping_does ..) (by decide)
        (.next (writeKeeping_does ..) (by decide) (.refl _)))

theorem completeBatch_does (key : Nat × Nat) (base : Nat) (l : Layout) (slices : List SliceDesc) (b : OpenBatch) (closed : Bool) (s : State) :
    Does [.blot, .tests, .mem, .pages, .sched, .cells, .regHeld, .hostSigs,
      .batches] s (completeBatch key base l slices b closed s) := by
  unfold completeBatch
  dsimp only
  refine .next (planAdd_does ..) (by decide) (.next (setBatch_does ..) (by decide) (.next (writeHeld_does ..) (by decide)
      (.next (writeHeld_does ..) (by decide) (.next (writeHeld_does ..) (by decide) ?_))))
  refine .foldl _ (fun u a => ?_) ?_
  · refine .ite (fun _ => ?_) (fun _ => ?_)
    · refine .foldl _ (fun u a => ?_) ?_
      · exact .next (writeSlice_does ..) (by decide) (.refl _)
      · exact .refl _
    · exact .refl _
  · exact .refl _

theorem copyStore_does (dva : Nat) (bytes : Nat) (s : State) :
    Does [.mem, .pages] s (copyStore dva bytes s) := by
  unfold copyStore
  dsimp only
  refine .foldl _ (fun u a => ?_) ?_
  · exact .next (writeDva_does ..) (by decide) (.refl _)
  · exact .refl _

theorem countDip_does (c : TableCtx) (f : Table → Table) (s : State) :
    Does [.tables] s (countDip c f s) := by
  unfold countDip
  exact .next (setTable_does ..) (by decide) (.refl _)

theorem startCopy_does (c : TableCtx) (block : Nat) (slot : Nat) (die : Nat) (s : State) :
    Does [.tables] s (startCopy c block slot die s) := by
  unfold startCopy
  exact .next (addMigration_does ..) (by decide) (.next (setOwner_does ..) (by decide) (.refl _))

theorem dealHot_does (s : State) (h : Hot) :
    Does [.tables] s (dealHot s h) := by
  unfold dealHot
  refine .ite (fun _ => ?_) (fun _ => ?_)
  · exact .refl _
  · split
    · exact .next (startCopy_does ..) (by decide) (.refl _)
    · split
      · refine .ite (fun _ => ?_) (fun _ => ?_)
        · exact .next (startReturn_does ..) (by decide) (.refl _)
        · exact .refl _
      · exact .refl _

theorem streamBlot_does (k : Nat × Nat) (x : Stream) (reason : Nat) (offset : Nat) (tile : Nat) (count : Nat) (s : State) :
    Does [.blot, .mem, .pages] s (streamBlot k x reason offset tile count s) := by
  unfold streamBlot
  exact .next (emitBlot_does ..) (by decide) (.refl _)

theorem passTiles_does (k : Nat × Nat) (s : State) :
    Does [.blot, .tests, .mem, .pages, .sched, .cells, .regHeld, .hostSigs, .streams, .batches] s (passTiles k s) := by
  unfold passTiles
  dsimp only
  split
  · exact .refl _
  · refine .foldl _ (fun u a => ?_) ?_
    · split
      · exact .refl _
      · refine .ite (fun _ => ?_) (fun _ => ?_)
        · exact .next (streamBlot_does ..) (by decide) (.next (slotSignal_does ..) (by decide)
              (.next (setStream_does ..) (by decide) (.refl _)))
        · exact .next (slotSignal_does ..) (by decide) (.next (setStream_does ..) (by decide) (.refl _))
    · exact .refl _

theorem reportUnit_does (k : Nat × Nat) (rs : List Report) (s : State) :
    Does [.blot, .mem, .pages] s (reportUnit k rs s) := by
  unfold reportUnit
  refine .foldl _ (fun u a => ?_) ?_
  · exact .next (emitBlot_does ..) (by decide) (.refl _)
  · exact .refl _

theorem haltIngest_does (k : Nat × Nat) (x : Stream) (off : Nat) (dva : Nat) (s : State) :
    Does [.blot, .tests, .mem, .pages, .sched, .cells, .regHeld, .hostSigs, .streams, .batches] s (haltIngest k x off dva s) := by
  unfold haltIngest
  dsimp only
  exact .next (emitErr_does ..) (by decide) (.next (refreshFaulted_does ..) (by decide) (.next (setStream_does ..) (by decide)
      (.refl _)))

theorem walkEnd_does (k : Nat × Nat) (s : State) :
    Does [.rul, .blot, .tickEvents, .tests, .mem, .pages, .sched, .cells, .regHeld, .hostSigs, .streams,
      .batches] s (walkEnd k s) := by
  unfold walkEnd
  dsimp only
  split
  · exact .refl _
  · refine .ite (fun _ => ?_) (fun _ => ?_)
    · exact .refl _
    · refine .ite (fun _ => ?_) (fun _ => ?_)
      · refine .ite (fun _ => ?_) (fun _ => ?_)
        · split
          · refine .next (sharedLate_does ..) (by decide) (.next (setStream_does ..) (by decide) ?_)
            split
            · exact .next (emitErr_does ..) (by decide) (.refl _)
            · exact .refl _
          · refine .next (setStream_does ..) (by decide) ?_
            split
            · exact .next (emitErr_does ..) (by decide) (.refl _)
            · exact .refl _
        · refine .next (setStream_does ..) (by decide) ?_
          split
          · exact .next (emitErr_does ..) (by decide) (.refl _)
          · exact .refl _
      · split
        · refine .ite (fun _ => ?_) (fun _ => ?_)
          · refine .next (lateStart_does ..) (by decide) (.next (setStream_does ..) (by decide) ?_)
            split
            · exact .next (emitErr_does ..) (by decide) (.refl _)
            · exact .refl _
          · refine .next (setStream_does ..) (by decide) ?_
            split
            · exact .next (emitErr_does ..) (by decide) (.refl _)
            · exact .refl _
        · refine .next (setStream_does ..) (by decide) ?_
          split
          · exact .next (emitErr_does ..) (by decide) (.refl _)
          · exact .refl _

theorem settleShared_does (mine : Nat × Nat → Bool) (s : State) :
    Does [.rul, .blot, .tickEvents, .tests, .mem, .pages, .sched, .cells, .regHeld, .hostSigs, .batches] s (settleShared mine s) := by
  unfold settleShared
  exact .next (endShareds_does ..) (by decide) (.refl _)

theorem shareEnd_does (k : Nat × Nat) (s : State) :
    Does [.rul, .blot, .tickEvents, .tests, .mem, .pages, .sched, .cells, .regHeld, .hostSigs, .streams,
      .batches] s (shareEnd k s) := by
  unfold shareEnd
  exact .next (settleShared_does ..) (by decide) (.next (walkEnd_does ..) (by decide) (.refl _))

theorem settleIngest_does (k : Nat × Nat) (s : State) :
    Does [.rul, .blot, .tickEvents, .tests, .mem, .pages, .sched, .cells, .regHeld, .hostSigs, .streams,
      .batches] s (settleIngest k s) := by
  unfold settleIngest
  split
  · exact .refl _
  · refine .ite (fun _ => ?_) (fun _ => ?_)
    · exact .next (setStream_does ..) (by decide) (.refl _)
    · exact .next (shareEnd_does ..) (by decide) (.refl _)

theorem decodeUnit_does (k : Nat × Nat) (x : Stream) (s : State) :
    Does [.rul, .blot, .tickEvents, .tests, .mem, .pages, .sched, .cells, .regHeld, .hostSigs, .streams,
      .batches] s (decodeUnit k x s) := by
  unfold decodeUnit
  dsimp only
  split
  · exact .next (haltIngest_does ..) (by decide) (.refl _)
  · exact .next (settleIngest_does ..) (by decide) (.next (passTiles_does ..) (by decide)
        (.next (reportUnit_does ..) (by decide) (.next (setStream_does ..) (by decide) (.refl _))))

theorem logMiss_does (c : TableCtx) (port : Nat) (row : Nat) (s : State) :
    Does [.dips] s (logMiss c port row s) := by
  unfold logMiss
  dsimp only
  split
  · exact .next (setDip_does ..) (by decide) (.refl _)
  · refine .ite (fun _ => ?_) (fun _ => ?_)
    · exact .next (setDip_does ..) (by decide) (.refl _)
    · exact .refl _

theorem dipProbe_does (port : Nat) (q : Bytes) (s : State) :
    Does [.tables, .dips] s (dipProbe port q s).2 := by
  unfold dipProbe
  dsimp only
  split
  · dsimp only [CmdRes.state, stageState]
    exact .refl _
  · split
    · dsimp only [CmdRes.state, stageState]
      exact .next (countDip_does ..) (by decide) (.refl _)
    · split
      · split
        · dsimp only [CmdRes.state, stageState]
          exact .next (countDip_does ..) (by decide) (.next (setDip_does ..) (by decide) (.refl _))
        · dsimp only [CmdRes.state, stageState]
          exact .next (countDip_does ..) (by decide) (.next (logMiss_does ..) (by decide) (.refl _))
      · dsimp only [CmdRes.state, stageState]
        exact .refl _

theorem doneAction_does (a : Pending) (s : State) :
    Does [.actions] s (doneAction a s) := by
  unfold doneAction
  with_reducible refine .set rfl rfl rfl (fun f hf => ?_) ?_
  · cases f <;> first | exact absurd (by decide) hf | exact Eq.refl _
  exact .refl _

theorem packetOut_does {k : Nat × Nat} {x : Stream} {q : Nat} {bs : Bytes} {s t : State} (h : packetOut k x q bs s = some t) :
    Does [.blot, .tests, .mem, .pages, .sched, .queues, .cells, .regHeld, .queueWaits, .hostSigs, .batches, .freeCtr] s t := by
  unfold packetOut at h
  split at h
  · cases h; exact .next (streamBlot_does ..) (by decide) (.refl _)
  · split at h
    · cases h
    · split at h
      · cases h; exact .next (commitPacket_does ..) (by decide) (.refl _)
      · cases h

theorem drainPacket_does (k : Nat × Nat) (x : Stream) (q : Nat) (bs : Bytes) (s : State) :
    Does [.blot, .tests, .mem, .pages, .sched, .queues, .cells, .regHeld, .queueWaits, .hostSigs, .streams, .batches,
      .freeCtr] s (drainPacket k x q bs s) := by
  unfold drainPacket
  split
  · next e => exact .next (setStream_does ..) (by decide) (.next (packetOut_does e) (by decide) (.refl _))
  · exact .next (queueWait_does ..) (by decide) (.next (setStream_does ..) (by decide) (.refl _))

theorem slotReport_does (k : Nat × Nat) (x : Stream) (i : Nat) (n : Nat) (reason : Nat) (s : State) :
    Does [.blot, .mem, .pages] s (slotReport k x i n reason s) := by
  unfold slotReport
  refine .ite (fun _ => ?_) (fun _ => ?_)
  · exact .next (streamBlot_does ..) (by decide) (.refl _)
  · exact .refl _

theorem freeFor_does (r : RowDrain) (g : Nat) (a2 : Nat) (a3 : State) :
    Does [.sched, .cells, .regHeld, .batches] a3 (freeFor r g a2 a3) := by
  unfold freeFor
  dsimp only
  split
  · exact .refl _
  · split
    · exact .refl _
    · refine .ite (fun _ => ?_) (fun _ => ?_)
      · exact .refl _
      · refine .ite (fun _ => ?_) (fun _ => ?_)
        · exact .next (freeFor_does ..) (by decide) (.next (registerWait_does ..) (by decide) (.refl _))
        · exact .next (registerWait_does ..) (by decide) (.refl _)

theorem writeRow_does (r : RowDrain) (c : Nat) (g : Nat) (slot : Nat) (lim : Nat) (row : Bytes) (s : State) :
    Does [.blot, .mem, .pages] s (writeRow r c g slot lim row s) := by
  unfold writeRow
  dsimp only
  refine .ite (fun _ => ?_) (fun _ => ?_)
  · exact .next (emitBlot_does ..) (by decide) (.next (writeSlice_does ..) (by decide) (.refl _))
  · exact .next (writeSlice_does ..) (by decide) (.refl _)

theorem placeSliceRow_does (r : RowDrain) (c : Nat) (row : Bytes) (valid : Bool) (s : State) :
    Does [.blot, .tests, .mem, .pages, .sched, .cells, .regHeld, .hostSigs, .batches] s (placeSliceRow r c row valid s).state := by
  unfold placeSliceRow
  obtain ⟨g, slot⟩ := r.l.place c
  dsimp only
  have h : Does [.blot, .tests, .mem, .pages, .sched, .cells, .regHeld, .hostSigs,
    .batches] s (freeFor r g 17 s) := .next (freeFor_does ..) (by decide) (.refl _)
  have w : ∀ lim, Does [.blot, .tests, .mem, .pages, .sched, .cells, .regHeld, .hostSigs,
    .batches] s (writeRow r c g slot lim row (freeFor r g 17 s)) := fun _ => .next (writeRow_does ..) (by decide) h
  split
  · exact .next (batchErr_does ..) (by decide) (.refl _)
  · split
    · exact h
    · split
      · exact .next (batchErr_does ..) (by decide) h
      · split
        · exact w _
        · split
          · exact w _
          · exact .ite (fun _ => .next (completeBatch_does ..) (by decide) (.next (setBatch_does ..) (by decide) (w _)))
              fun _ => .next (setBatch_does ..) (by decide) (w _)

theorem placeSliceRows_does (r : RowDrain) (pkt : Bytes) (n i : Nat) (s : State) :
    Does [.blot, .tests, .mem, .pages, .sched, .cells, .regHeld, .hostSigs, .batches] s (placeSliceRows r pkt n i s).2.1 := by
  induction n generalizing i s with
  | zero => exact .refl _
  | succ n ih =>
    unfold placeSliceRows
    dsimp only
    have h := placeSliceRow_does r (leAt pkt 0 8 + i) (slice pkt (16 + i * leAt pkt 8 3) (leAt pkt 8 3))
      (bitmapAt (pkt.drop (alignUp (16 + leAt pkt 11 2 * leAt pkt 8 3) 8)) i) s
    split
    · next e => rw [e] at h; exact h
    · next e => rw [e] at h; exact h
    · next e => rw [e] at h; exact .next (ih _ _) (by decide) (.next h (by decide) (.refl _))

theorem haltWrite_does (k : Nat × Nat) (x : Stream) (w : Nat × Nat × Nat × Nat) (issued : Nat) (dva : Nat) (s : State) :
    Does [.blot, .tests, .mem, .pages, .sched, .cells, .regHeld, .hostSigs, .streams, .batches] s (haltWrite k x w issued dva s) := by
  unfold haltWrite
  dsimp only
  exact .next (emitErr_does ..) (by decide) (.next (refreshFaulted_does ..) (by decide) (.next (setStream_does ..) (by decide)
      (.refl _)))

theorem drainSlice_does (k : Nat × Nat) (p : Plan) (x : Stream) (i : Nat) (s : State) :
    Does [.blot, .tests, .mem, .pages, .sched, .cells, .regHeld, .hostSigs, .streams, .batches] s (drainSlice k p x i s) := by
  unfold drainSlice
  dsimp only
  split
  · exact .refl _
  · split
    · exact .refl _
    · split
      · refine .next (haltWrite_does ..) (by decide) (.next (placeSliceRows_does ..) (by decide) ?_)
        refine .ite (fun _ => ?_) (fun _ => ?_)
        · exact .next (slotReport_does ..) (by decide) (.refl _)
        · exact .refl _
      · refine .ite (fun _ => ?_) (fun _ => ?_)
        · refine .next (setStream_does ..) (by decide) ?_
          refine .ite (fun _ => ?_) (fun _ => ?_)
          · refine .next (batchErr_does ..) (by decide) (.next (placeSliceRows_does ..) (by decide) ?_)
            refine .ite (fun _ => ?_) (fun _ => ?_)
            · exact .next (slotReport_does ..) (by decide) (.refl _)
            · exact .refl _
          · refine .next (placeSliceRows_does ..) (by decide) ?_
            refine .ite (fun _ => ?_) (fun _ => ?_)
            · exact .next (slotReport_does ..) (by decide) (.refl _)
            · exact .refl _
        · refine .next (setStream_does ..) (by decide) (.next (placeSliceRows_does ..) (by decide) ?_)
          refine .ite (fun _ => ?_) (fun _ => ?_)
          · exact .next (slotReport_does ..) (by decide) (.refl _)
          · exact .refl _

theorem dropLines_does (dva : Nat) (n : Nat) (s : State) :
    Does [.lines] s (dropLines dva n s) := by
  unfold dropLines
  dsimp only
  with_reducible refine .set rfl rfl rfl (fun f hf => ?_) ?_
  · cases f <;> first | exact absurd (by decide) hf | exact Eq.refl _
  exact .refl _

theorem emitVerdict_does (t : SelfTest) (s : State) :
    Does [.blot, .tests, .mem, .pages, .sched, .cells, .regHeld, .hostSigs, .batches] s (emitVerdict t s) := by
  unfold emitVerdict
  dsimp only
  exact .next (noteReserves_does ..) (by decide) (.next (noticeAdd_does ..) (by decide) (.next (writeRec_does ..) (by decide)
      (.refl _)))

theorem endHoldover_does (s : State) :
    Does [.rul] s (endHoldover s) := by
  unfold endHoldover
  refine .ite (fun _ => ?_) (fun _ => ?_)
  · exact .next (setLock_does ..) (by decide) (.refl _)
  · exact .refl _

theorem unmapRun_does (first : Nat) (n : Nat) (s : State) :
    Does [.zeroing, .pages] s (unmapRun first n s) := by
  unfold unmapRun
  dsimp only
  refine .next (releaseFrames_does ..) (by decide) ?_
  with_reducible refine .set rfl rfl rfl (fun f hf => ?_) ?_
  · cases f <;> first | exact absurd (by decide) hf | exact Eq.refl _
  exact .refl _

theorem writeWalk_does (x : Stream) (base : Nat) (from' : Nat) (bs : Bytes) (s : State) :
    Does [.mem, .pages] s (writeWalk x base from' bs s) := by
  unfold writeWalk
  dsimp only
  refine .foldl _ (fun u a => ?_) ?_
  · refine .ite (fun _ => ?_) (fun _ => ?_)
    · exact .next (writeFree_does ..) (by decide) (.refl _)
    · exact .refl _
  · exact .refl _

theorem releaseOutput_does (k : Nat × Nat) (x : Stream) (s : State) :
    Does [.blot, .tests, .mem, .pages, .sched, .cells, .regHeld, .hostSigs, .streams, .batches] s (releaseOutput k x s) := by
  unfold releaseOutput
  dsimp only
  split
  · exact .next (setStream_does ..) (by decide) (.refl _)
  · split
    · refine .next (haltWrite_does ..) (by decide) ?_
      refine .ite (fun _ => ?_) (fun _ => ?_)
      · exact .next (streamBlot_does ..) (by decide) (.next (setStream_does ..) (by decide)
            (.next (writeWalk_does ..) (by decide) (.refl _)))
      · exact .next (setStream_does ..) (by decide) (.next (writeWalk_does ..) (by decide) (.refl _))
    · refine .ite (fun _ => ?_) (fun _ => ?_)
      · exact .next (streamBlot_does ..) (by decide) (.next (setStream_does ..) (by decide)
            (.next (writeWalk_does ..) (by decide) (.refl _)))
      · exact .next (setStream_does ..) (by decide) (.next (writeWalk_does ..) (by decide) (.refl _))
  · exact .next (setStream_does ..) (by decide) (.refl _)

theorem moveOutput_does (k : Nat × Nat) (x : Stream) (s : State) :
    Does [.blot, .tests, .mem, .pages, .sched, .queues, .cells, .regHeld, .queueWaits, .hostSigs, .streams, .batches,
      .freeCtr] s (moveOutput k x s) := by
  unfold moveOutput
  have h : Does [.blot, .tests, .mem, .pages, .sched, .queues, .cells, .regHeld, .queueWaits, .hostSigs, .streams, .batches,
    .freeCtr] s (releaseOutput k x s) := .next (releaseOutput_does ..) (by decide) (.refl _)
  dsimp only
  split
  · exact h
  · split
    · exact h
    · split
      · exact .next (setStream_does ..) (by decide) h
      · split
        · next e => exact .next (setStream_does ..) (by decide) (.next (packetOut_does e) (by decide) h)
        · exact .next (queueWait_does ..) (by decide) h

theorem endSlot_does (k : Nat × Nat) (codec : Nat) (x : Stream) (s : State) :
    Does [.blot, .tests, .mem, .pages, .sched, .queues, .cells, .regHeld, .queueWaits, .hostSigs, .streams, .batches,
      .freeCtr] s (endSlot k codec x s) := by
  unfold endSlot
  dsimp only
  exact .next (moveOutput_does ..) (by decide) (.refl _)

theorem endTest_does (t : SelfTest) (s : State) :
    Does [.blot, .tests, .mboxes, .mem, .pages, .sched, .queues, .cells, .regHeld, .hostSigs, .batches,
      .freeCtr] s (endTest t s) := by
  unfold endTest
  dsimp only
  refine .ite (fun _ => ?_) (fun _ => ?_)
  · refine .next (finalAnswer_does ..) (by decide) (.next (emitVerdict_does ..) (by decide) ?_)
    with_reducible refine .set rfl rfl rfl (fun f hf => ?_) ?_
    · cases f <;> first | exact absurd (by decide) hf | exact Eq.refl _
    exact .refl _
  · refine .next (emitVerdict_does ..) (by decide) ?_
    with_reducible refine .set rfl rfl rfl (fun f hf => ?_) ?_
    · cases f <;> first | exact absurd (by decide) hf | exact Eq.refl _
    exact .refl _

theorem fillLines_does (c : Option Nat) (ls : List Nat) (s : State) :
    Does [.lines] s (fillLines c ls s) := by
  unfold fillLines
  dsimp only
  split
  · exact .refl _
  · with_reducible refine .set rfl rfl rfl (fun f hf => ?_) ?_
    · cases f <;> first | exact absurd (by decide) hf | exact Eq.refl _
    exact .refl _

theorem placeBytes_does (d : StreamDesc) (slotDva : Nat) (off : Nat) (bs : Bytes) (s : State) :
    Does [.mem, .pages] s (placeBytes d slotDva off bs s) := by
  unfold placeBytes
  refine .ite (fun _ => ?_) (fun _ => ?_)
  · exact .next (writeHeld_does ..) (by decide) (.refl _)
  · refine .foldl _ (fun u a => ?_) ?_
    · exact .next (writeHeld_does ..) (by decide) (.refl _)
    · exact .refl _

theorem loseWord_does (k : Nat × Nat) (x : Stream) (t : Transfer) (tagFail : Bool) (s : State) :
    Does [.blot, .tests, .mem, .pages, .sched, .cells, .regHeld, .hostSigs, .streams, .batches] s (loseWord k x t tagFail s) := by
  unfold loseWord
  dsimp only
  refine .ite (fun _ => ?_) (fun _ => ?_)
  · refine .next (emitErr_does ..) (by decide) ?_
    refine .ite (fun _ => ?_) (fun _ => ?_)
    · exact .next (emitErr_does ..) (by decide) (.refl _)
    · exact .refl _
  · refine .next (emitBlot_does ..) (by decide) (.next (setStream_does ..) (by decide) (.next (emitErr_does ..) (by decide) ?_))
    refine .ite (fun _ => ?_) (fun _ => ?_)
    · exact .next (emitErr_does ..) (by decide) (.refl _)
    · exact .refl _

theorem slotDrain_does (k : Nat × Nat) (x : Stream) (s : State) :
    Does [.blot, .tests, .mem, .pages, .sched, .queues, .cells, .regHeld, .queueWaits, .hostSigs, .streams, .batches,
      .freeCtr] s (slotDrain k x s) := by
  unfold slotDrain
  dsimp only
  split
  · exact .next (drainSlice_does ..) (by decide) (.refl _)
  · refine .ite (fun _ => ?_) (fun _ => ?_)
    · refine .ite (fun _ => ?_) (fun _ => ?_)
      · exact .refl _
      · exact .next (moveOutput_does ..) (by decide) (.refl _)
    · refine .ite (fun _ => ?_) (fun _ => ?_)
      · refine .ite (fun _ => ?_) (fun _ => ?_)
        · exact .next (endSlot_does ..) (by decide) (.next (slotReport_does ..) (by decide) (.refl _))
        · exact .next (setStream_does ..) (by decide) (.next (slotReport_does ..) (by decide) (.refl _))
      · split
        · exact .next (drainPacket_does ..) (by decide) (.next (slotReport_does ..) (by decide) (.refl _))
        · refine .ite (fun _ => ?_) (fun _ => ?_)
          · exact .next (setStream_does ..) (by decide) (.refl _)
          · exact .next (setStream_does ..) (by decide) (.refl _)

theorem markDone_does (a : Pending) (s : State) :
    Does [.actions] s (markDone a s) := by
  unfold markDone
  with_reducible refine .set rfl rfl rfl (fun f hf => ?_) ?_
  · cases f <;> first | exact absurd (by decide) hf | exact Eq.refl _
  exact .refl _

theorem hostTest_does (unit : BitVec 16) (s : State) :
    Does [.tests] s (CmdRes.state s (hostTest unit s)) := by
  unfold hostTest
  dsimp only
  split
  · dsimp only [CmdRes.state, stageState]
    exact .refl _
  · dsimp only [CmdRes.state, stageState]
    with_reducible refine .set rfl rfl rfl (fun f hf => ?_) ?_
    · cases f <;> first | exact absurd (by decide) hf | exact Eq.refl _
    exact .refl _

theorem selLimit_does (c : StageCtx) (n : Nat) (s : State) :
    Does [.blot, .tests, .mem, .pages, .sched, .cells, .regHeld, .hostSigs, .batches] s (selLimit c n s) := by
  unfold selLimit
  refine .ite (fun _ => ?_) (fun _ => ?_)
  · exact .next (exceedance_does ..) (by decide) (.refl _)
  · exact .refl _

theorem parityErrs_does (c : StageCtx) (cluster : Nat) (bad : List Nat) (s : State) :
    Does [.blot, .tests, .mem, .pages, .sched, .cells, .regHeld, .hostSigs, .batches] s (parityErrs c cluster bad s) := by
  unfold parityErrs
  refine .foldl _ (fun u a => ?_) ?_
  · exact .next (emitErr_does ..) (by decide) (.refl _)
  · exact .refl _

theorem topkRelease_does (c : StageCtx) (b : SelBlock) (s : State) :
    Does [.blot, .tests, .mem, .pages, .sched, .cells, .regHeld, .hostSigs, .lists, .batches] s (topkRelease c b s).st := by
  unfold topkRelease
  dsimp only
  split
  · split
    · split
      · dsimp only [CmdRes.state, stageState]
        refine .next (writeFree_does ..) (by decide) ?_
        with_reducible refine .set rfl rfl rfl (fun f hf => ?_) ?_
        · cases f <;> first | exact absurd (by decide) hf | exact Eq.refl _
        exact .next (selLimit_does ..) (by decide) (.refl _)
      · dsimp only [CmdRes.state, stageState]
        with_reducible refine .set rfl rfl rfl (fun f hf => ?_) ?_
        · cases f <;> first | exact absurd (by decide) hf | exact Eq.refl _
        exact .refl _
    · split
      · dsimp only [CmdRes.state, stageState]
        refine .next (writeFree_does ..) (by decide) ?_
        with_reducible refine .set rfl rfl rfl (fun f hf => ?_) ?_
        · cases f <;> first | exact absurd (by decide) hf | exact Eq.refl _
        exact .next (selLimit_does ..) (by decide) (.refl _)
      · dsimp only [CmdRes.state, stageState]
        with_reducible refine .set rfl rfl rfl (fun f hf => ?_) ?_
        · cases f <;> first | exact absurd (by decide) hf | exact Eq.refl _
        exact .refl _
  · split
    · dsimp only [CmdRes.state, stageState]
      refine .next (writeFree_does ..) (by decide) ?_
      with_reducible refine .set rfl rfl rfl (fun f hf => ?_) ?_
      · cases f <;> first | exact absurd (by decide) hf | exact Eq.refl _
      exact .next (selLimit_does ..) (by decide) (.refl _)
    · dsimp only [CmdRes.state, stageState]
      with_reducible refine .set rfl rfl rfl (fun f hf => ?_) ?_
      · cases f <;> first | exact absurd (by decide) hf | exact Eq.refl _
      exact .refl _

theorem topkRows_does (c : StageCtx) (b : SelBlock) (s : State) :
    Does [.blot, .tests, .mem, .pages, .sched, .cells, .regHeld, .hostSigs, .batches] s (topkRows c b s).st := by
  unfold topkRows
  dsimp only
  refine .foldl _ (fun u a => ?_) ?_
  · exact .next (selLimit_does ..) (by decide) (.refl _)
  · exact .refl _

theorem restartIngest_does (k : Nat × Nat) (x : Stream) (s : State) :
    Does [.streams, .caches] s (restartIngest k x s) := by
  unfold restartIngest
  dsimp only
  refine .next (setStream_does ..) (by decide) ?_
  refine .ite (fun _ => ?_) (fun _ => ?_)
  · exact .next (clearSource_does ..) (by decide) (.refl _)
  · exact .refl _

theorem feedIngest_does (c : StageCtx) (k : Nat × Nat) (x : Stream) (s : State) :
    Does [.rul, .blot, .tickEvents, .tests, .mem, .pages, .sched, .cells, .regHeld, .hostSigs, .streams,
      .batches] s (stageState s (feedIngest c k x s)) := by
  unfold feedIngest
  dsimp only
  split
  · split
    · split
      · dsimp only [CmdRes.state, stageState]
        refine .ite (fun _ => ?_) (fun _ => ?_)
        · exact .refl _
        · exact .next (streamBlot_does ..) (by decide) (.next (setStream_does ..) (by decide) (.refl _))
      · dsimp only [CmdRes.state, stageState]
        exact .refl _
    · split
      · dsimp only [CmdRes.state, stageState]
        exact .refl _
      · dsimp only [CmdRes.state, stageState]
        refine .ite (fun _ => ?_) (fun _ => ?_)
        · split
          · refine .next (setStream_does ..) (by decide) ?_
            refine .foldl _ (fun u a => ?_) ?_
            · exact .next (setBatch_does ..) (by decide) (.refl _)
            · exact .next (setStream_does ..) (by decide) (.refl _)
          · refine .foldl _ (fun u a => ?_) ?_
            · exact .next (setBatch_does ..) (by decide) (.refl _)
            · exact .next (setStream_does ..) (by decide) (.refl _)
        · refine .next (settleIngest_does ..) (by decide) ?_
          refine .foldl _ (fun u a => ?_) ?_
          · exact .next (setBatch_does ..) (by decide) (.refl _)
          · exact .next (setStream_does ..) (by decide) (.refl _)
  · split
    · split
      · dsimp only [CmdRes.state, stageState]
        refine .ite (fun _ => ?_) (fun _ => ?_)
        · exact .refl _
        · exact .next (streamBlot_does ..) (by decide) (.next (setStream_does ..) (by decide) (.refl _))
      · dsimp only [CmdRes.state, stageState]
        exact .refl _
    · split
      · dsimp only [CmdRes.state, stageState]
        exact .refl _
      · dsimp only [CmdRes.state, stageState]
        refine .ite (fun _ => ?_) (fun _ => ?_)
        · split
          · refine .next (setStream_does ..) (by decide) ?_
            refine .foldl _ (fun u a => ?_) ?_
            · exact .next (setBatch_does ..) (by decide) (.refl _)
            · exact .next (setStream_does ..) (by decide) (.refl _)
          · refine .foldl _ (fun u a => ?_) ?_
            · exact .next (setBatch_does ..) (by decide) (.refl _)
            · exact .next (setStream_does ..) (by decide) (.refl _)
        · refine .next (settleIngest_does ..) (by decide) ?_
          refine .foldl _ (fun u a => ?_) ?_
          · exact .next (setBatch_does ..) (by decide) (.refl _)
          · exact .next (setStream_does ..) (by decide) (.refl _)

theorem feedCopy_does (c : StageCtx) (k : Nat × Nat) (x : Stream) (s : State) :
    Does [.blot, .mem, .pages, .streams] s (stageState s (feedCopy c k x s)) := by
  unfold feedCopy
  dsimp only
  split
  · split
    · dsimp only [CmdRes.state, stageState]
      refine .ite (fun _ => ?_) (fun _ => ?_)
      · exact .refl _
      · exact .next (streamBlot_does ..) (by decide) (.next (setStream_does ..) (by decide) (.refl _))
    · dsimp only [CmdRes.state, stageState]
      exact .refl _
  · dsimp only [CmdRes.state, stageState]
    exact .refl _
  · dsimp only [CmdRes.state, stageState]
    exact .refl _
  · dsimp only [CmdRes.state, stageState]
    refine .next (setStream_does ..) (by decide) ?_
    refine .ite (fun _ => ?_) (fun _ => ?_)
    · refine .next (streamBlot_does ..) (by decide) ?_
      refine .ite (fun _ => ?_) (fun _ => ?_)
      · exact .next (slotReport_does ..) (by decide) (.refl _)
      · exact .refl _
    · refine .ite (fun _ => ?_) (fun _ => ?_)
      · exact .next (slotReport_does ..) (by decide) (.refl _)
      · exact .refl _

theorem feedRead_does (c : StageCtx) (s : State) :
    Does [.rul, .blot, .tickEvents, .tests, .mem, .pages, .sched, .cells, .regHeld, .hostSigs, .streams,
      .batches] s (stageState s (feedRead c s)) := by
  unfold feedRead
  dsimp only
  split
  · dsimp only [CmdRes.state, stageState]
    exact .refl _
  · split
    · dsimp only [CmdRes.state, stageState]
      exact .refl _
    · split
      · exact .next (feedCopy_does ..) (by decide) (.refl _)
      · exact .next (feedIngest_does ..) (by decide) (.refl _)
      · dsimp only [CmdRes.state, stageState]
        exact .refl _

theorem treatItem_does (s : State) (k : Nat × Nat) (p : Plan) (x : Stream) (cap : Nat) (row : Nat) (off : Nat) (m : MediaBlock) (item : Bytes) :
    Does [.caches] s (treatItem s k p x cap row off m item).2 := by
  unfold treatItem
  dsimp only
  split
  · split
    · dsimp only [CmdRes.state, stageState]
      with_reducible refine .set rfl rfl rfl (fun f hf => ?_) ?_
      · cases f <;> first | exact absurd (by decide) hf | exact Eq.refl _
      exact .refl _
    · dsimp only [CmdRes.state, stageState]
      with_reducible refine .set rfl rfl rfl (fun f hf => ?_) ?_
      · cases f <;> first | exact absurd (by decide) hf | exact Eq.refl _
      exact .refl _
  · split
    · split
      · dsimp only [CmdRes.state, stageState]
        exact .refl _
      · dsimp only [CmdRes.state, stageState]
        refine .ite (fun _ => ?_) (fun _ => ?_)
        · exact .refl _
        · refine .ite (fun _ => ?_) (fun _ => ?_)
          · exact .refl _
          · with_reducible refine .set rfl rfl rfl (fun f hf => ?_) ?_
            · cases f <;> first | exact absurd (by decide) hf | exact Eq.refl _
            exact .refl _
    · split
      · dsimp only [CmdRes.state, stageState]
        exact .refl _
      · dsimp only [CmdRes.state, stageState]
        refine .ite (fun _ => ?_) (fun _ => ?_)
        · exact .refl _
        · refine .ite (fun _ => ?_) (fun _ => ?_)
          · exact .refl _
          · with_reducible refine .set rfl rfl rfl (fun f hf => ?_) ?_
            · cases f <;> first | exact absurd (by decide) hf | exact Eq.refl _
            exact .refl _

theorem mediaItem_does (kind : Nat) (k : Nat × Nat) (s : State) :
    Does [.blot, .mem, .pages, .streams, .caches] s (mediaItem kind k s) := by
  unfold mediaItem
  dsimp only
  split
  · refine .ite (fun _ => ?_) (fun _ => ?_)
    · exact .refl _
    · split
      · exact .refl _
      · split
        · exact .next (setStream_does ..) (by decide) (.next (treatItem_does ..) (by decide) (.refl _))
        · exact .next (reportUnit_does ..) (by decide) (.next (setStream_does ..) (by decide)
              (.next (treatItem_does ..) (by decide) (.refl _)))
  · exact .refl _

theorem ringReport_does (k : Nat × Nat) (x : Stream) (i : Nat) (s : State) :
    Does [.blot, .mem, .pages] s (ringReport k x i s) := by
  unfold ringReport
  refine .ite (fun _ => ?_) (fun _ => ?_)
  · exact .refl _
  · refine .ite (fun _ => ?_) (fun _ => ?_)
    · exact .next (slotReport_does ..) (by decide) (.refl _)
    · exact .next (slotReport_does ..) (by decide) (.refl _)

theorem packetTile_does (k : Nat × Nat) (x : Stream) (i : Nat) (q : Nat) (s : State) :
    Does [.blot, .tests, .mem, .pages, .sched, .queues, .cells, .regHeld, .queueWaits, .hostSigs, .streams, .batches,
      .freeCtr] s (packetTile k x i q s) := by
  unfold packetTile
  dsimp only
  split
  · exact .next (slotSignal_does ..) (by decide) (.next (streamBlot_does ..) (by decide) (.next (setStream_does ..) (by decide)
      (.next (placeBytes_does ..) (by decide) (.next (slotReport_does ..) (by decide) (.refl _)))))
  · split
    · exact .next (queueWait_does ..) (by decide) (.refl _)
    · next e =>
      have h := takePacket_does e
      refine .ite (fun _ => ?_) (fun _ => ?_)
      · exact .next (streamBlot_does ..) (by decide) (.next (setStream_does ..) (by decide) (.next (placeBytes_does ..) (by decide)
          (.next (slotReport_does ..) (by decide) (.next h (by decide) (.refl _)))))
      · exact .next (slotSignal_does ..) (by decide) (.next (setStream_does ..) (by decide) (.next (placeBytes_does ..) (by decide)
          (.next (slotReport_does ..) (by decide) (.next h (by decide) (.refl _)))))

theorem haltStream_does (k : Nat × Nat) (x : Stream) (i : Nat) (dva : Nat) (s : State) :
    Does [.blot, .tests, .mem, .pages, .sched, .cells, .regHeld, .hostSigs, .streams, .batches] s (haltStream k x i dva s) := by
  unfold haltStream
  dsimp only
  exact .next (emitErr_does ..) (by decide) (.next (refreshFaulted_does ..) (by decide) (.next (setStream_does ..) (by decide)
      (.refl _)))

theorem issueAt_does (k : Nat × Nat) (x : Stream) (i : Nat) (s : State) :
    Does [.blot, .tests, .mem, .pages, .sched, .cells, .regHeld, .hostSigs, .streams, .batches, .lines] s (issueAt k x i s) := by
  unfold issueAt
  dsimp only
  split
  · split
    · refine .ite (fun _ => ?_) (fun _ => ?_)
      · exact .refl _
      · exact .next (haltStream_does ..) (by decide) (.refl _)
    · refine .next (commitPiece_does ..) (by decide) ?_
      refine .ite (fun _ => ?_) (fun _ => ?_)
      · refine .next (streamBlot_does ..) (by decide) ?_
        refine .ite (fun _ => ?_) (fun _ => ?_)
        · exact .next (setStream_does ..) (by decide) (.refl _)
        · exact .next (placeBytes_does ..) (by decide) (.next (setStream_does ..) (by decide) (.refl _))
      · refine .ite (fun _ => ?_) (fun _ => ?_)
        · exact .next (setStream_does ..) (by decide) (.refl _)
        · exact .next (placeBytes_does ..) (by decide) (.next (setStream_does ..) (by decide) (.refl _))
    · refine .ite (fun _ => ?_) (fun _ => ?_)
      · exact .next (commitPiece_does ..) (by decide) (.next (fillLines_does ..) (by decide)
            (.next (placeBytes_does ..) (by decide) (.next (setStream_does ..) (by decide) (.refl _))))
      · exact .next (setStream_does ..) (by decide) (.refl _)
  · exact .refl _

theorem zeroingDone_does (s : State) :
    Does [.zeroing, .mem] s (zeroingDone s) := by
  unfold zeroingDone
  split
  · exact .refl _
  · refine .next (zeroRanges_does ..) (by decide) ?_
    with_reducible refine .set rfl rfl rfl (fun f hf => ?_) ?_
    · cases f <;> first | exact absurd (by decide) hf | exact Eq.refl _
    exact .refl _

theorem writePort_does (p : Nat) (cfg : BitVec 64) (ip : Bytes) (s : State) :
    Does [.ports] s (writePort p cfg ip s) := by
  unfold writePort
  dsimp only
  exact .next (setPort_does ..) (by decide) (.refl _)

theorem feedWrite_does (c : StageCtx) (s : State) :
    Does [.blot, .tests, .mem, .pages, .sched, .cells, .regHeld, .hostSigs, .streams, .batches] s (stageState s (feedWrite c s)) := by
  unfold feedWrite
  dsimp only
  split
  · dsimp only [CmdRes.state, stageState]
    exact .refl _
  · split
    · dsimp only [CmdRes.state, stageState]
      exact .refl _
    · dsimp only [CmdRes.state, stageState]
      exact .next (slotSignal_does ..) (by decide) (.next (setStream_does ..) (by decide)
          (.next (slotReport_does ..) (by decide) (.next (writeHeld_does ..) (by decide) (.refl _))))

theorem writeNeighbours_does (first : Nat) (es : List NeighbourEntry) (s : State) :
    Does [.neighbours] s (writeNeighbours first es s) := by
  unfold writeNeighbours
  dsimp only
  refine .foldl _ (fun u a => ?_) ?_
  · with_reducible refine .set rfl rfl rfl (fun f hf => ?_) ?_
    · cases f <;> first | exact absurd (by decide) hf | exact Eq.refl _
    exact .refl _
  · exact .refl _

theorem setPage_does (action : Nat) (page : Nat) (s : State) :
    Does [.zeroing, .pages] s (setPage action page s) := by
  unfold setPage
  split
  · exact .refl _
  · split
    · with_reducible refine .set rfl rfl rfl (fun f hf => ?_) ?_
      · cases f <;> first | exact absurd (by decide) hf | exact Eq.refl _
      exact .refl _
    · with_reducible refine .set rfl rfl rfl (fun f hf => ?_) ?_
      · cases f <;> first | exact absurd (by decide) hf | exact Eq.refl _
      exact .refl _
    · refine .next (releaseFrames_does ..) (by decide) ?_
      with_reducible refine .set rfl rfl rfl (fun f hf => ?_) ?_
      · cases f <;> first | exact absurd (by decide) hf | exact Eq.refl _
      exact .refl _
    · exact .next (unmapRun_does ..) (by decide) (.refl _)

theorem syncDone_does (seq : BitVec 16) (t1 : Int) (t2 : Int) (s : State) :
    Does [.rul, .ptp, .freeCtr] s (syncDone seq t1 t2 s) := by
  unfold syncDone
  dsimp only
  refine .ite (fun _ => ?_) (fun _ => ?_)
  · with_reducible refine .set rfl rfl rfl (fun f hf => ?_) ?_
    · cases f <;> first | exact absurd (by decide) hf | exact Eq.refl _
    exact .refl _
  · refine .next (endHoldover_does ..) (by decide) (.next (drawn_does ..) (by decide) ?_)
    with_reducible refine .set rfl rfl rfl (fun f hf => ?_) ?_
    · cases f <;> first | exact absurd (by decide) hf | exact Eq.refl _
    exact .refl _

theorem sendDelayReq_does (m : PtpMessage) (s : State) :
    Does [.ports] s (sendDelayReq m s) := by
  unfold sendDelayReq
  dsimp only
  exact .next (setPort_does ..) (by decide) (.refl _)

theorem surveyHot_does (s : State) :
    Does [.tables] s (surveyHot s) := by
  unfold surveyHot
  dsimp only
  with_reducible refine .set rfl rfl rfl (fun f hf => ?_) ?_
  · cases f <;> first | exact absurd (by decide) hf | exact Eq.refl _
  refine .foldl _ (fun u a => ?_) ?_
  · exact .next (dealHot_does ..) (by decide) (.refl _)
  · exact .next (returnAll_does ..) (by decide) (.refl _)

theorem placeMissed_does (s : State) :
    Does [.actions, .dips] s (placeMissed s) := by
  unfold placeMissed
  dsimp only
  with_reducible refine .set rfl rfl rfl (fun f hf => ?_) ?_
  · cases f <;> first | exact absurd (by decide) hf | exact Eq.refl _
  refine .foldl _ (fun u a => ?_) ?_
  · split
    · refine .ite (fun _ => ?_) (fun _ => ?_)
      · exact .next (placeRow_does ..) (by decide) (.refl _)
      · exact .refl _
    · exact .refl _
  · exact .refl _

end Sys2Proof.Machine
end

