-- ==== Sys2Proof/Laws/DoesPlans.lean ====
section
/-! SUPPORT. What the shared operations over loading, releasing, rebinding and retiring plans do: the fields each touches. -/

namespace Sys2Proof.Machine

theorem haltMigrations_does (slot : Nat) (olds : List Bound) (s : State) :
    Does [.actions, .tables] s (haltMigrations slot olds s) := by
  unfold haltMigrations
  refine .foldl _ (fun u a => ?_) ?_
  · refine .ite (fun _ => ?_) (fun _ => ?_)
    · refine .foldl _ (fun u a => ?_) ?_
      · exact .next (abortCopy_does ..) (by decide) (.refl _)
      · exact .refl _
    · exact .refl _
  · exact .refl _

theorem acceptRebind_does (slot : Nat) (x : RebindPlan) (exclusion : Bool) (s : State) :
    Does [.plans, .actions, .tables] s (acceptRebind slot x exclusion s) := by
  unfold acceptRebind
  split
  · exact .refl _
  · exact .next (haltMigrations_does ..) (by decide) (.next (setPlan_does ..) (by decide) (.refl _))

theorem startStream_does (slot : Nat) (p : Plan) (s : State) (i : Nat) :
    Does [.streams, .caches] s (startStream slot p s i) := by
  unfold startStream
  dsimp only
  split
  · exact .refl _
  · refine .ite (fun _ => ?_) (fun _ => ?_)
    · refine .next (setStream_does ..) (by decide) ?_
      refine .ite (fun _ => ?_) (fun _ => ?_)
      · exact .next (clearSource_does ..) (by decide) (.refl _)
      · exact .refl _
    · split
      · refine .next (setStream_does ..) (by decide) ?_
        refine .ite (fun _ => ?_) (fun _ => ?_)
        · exact .next (clearSource_does ..) (by decide) (.refl _)
        · exact .refl _
      · refine .next (setStream_does ..) (by decide) ?_
        refine .ite (fun _ => ?_) (fun _ => ?_)
        · exact .next (clearSource_does ..) (by decide) (.refl _)
        · exact .refl _

theorem activatePlan_does (slot : Nat) (s : State) :
    Does [.plans, .streams, .batches, .caches] s (activatePlan slot s) := by
  unfold activatePlan
  dsimp only
  split
  · exact .refl _
  · refine .foldl _ (fun u a => ?_) ?_
    · exact .next (startStream_does ..) (by decide) (.refl _)
    · refine .foldl _ (fun u a => ?_) ?_
      · exact .next (setBatch_does ..) (by decide) (.refl _)
      · exact .next (setPlan_does ..) (by decide) (.refl _)

theorem failSwap_does (s : State) (a : Pending) :
    Does [.mboxes, .actions, .queues, .freeCtr] s (failSwap s a) := by
  unfold failSwap
  dsimp only
  split
  · refine .ite (fun _ => ?_) (fun _ => ?_)
    · exact .refl _
    · refine .ite (fun _ => ?_) (fun _ => ?_)
      · refine .next (finalAnswer_does ..) (by decide) ?_
        with_reducible refine .set rfl rfl rfl (fun f hf => ?_) ?_
        · cases f <;> first | exact absurd (by decide) hf | exact Eq.refl _
        exact .refl _
      · exact .refl _
  · exact .refl _

theorem admitActions_does (s : State) :
    Does [.mboxes, .actions, .queues, .freeCtr] s (admitActions s) := by
  unfold admitActions
  dsimp only
  refine .ite (fun _ => ?_) (fun _ => ?_)
  · exact .refl _
  · with_reducible refine .set rfl rfl rfl (fun f hf => ?_) ?_
    · cases f <;> first | exact absurd (by decide) hf | exact Eq.refl _
    refine .foldl _ (fun u a => ?_) ?_
    · exact .next (failSwap_does ..) (by decide) (.refl _)
    · exact .refl _

theorem admitRemote_does (die : Nat) (s : State) :
    Does [.blot, .tests, .mem, .pages, .sched, .queues, .cells, .regHeld, .queueWaits, .remote, .hostSigs, .batches,
      .freeCtr] s (admitRemote die s) := by
  unfold admitRemote
  dsimp only
  split
  · split
    · refine .ite (fun _ => ?_) (fun _ => ?_)
      · refine .ite (fun _ => ?_) (fun _ => ?_)
        · with_reducible refine .set rfl rfl rfl (fun f hf => ?_) ?_
          · cases f <;> first | exact absurd (by decide) hf | exact Eq.refl _
          exact .next (wakeQueue_does ..) (by decide) (.next (setQueue_does ..) (by decide) (.refl _))
        · exact .next (wakeQueue_does ..) (by decide) (.next (setQueue_does ..) (by decide) (.refl _))
      · exact .refl _
    · exact .refl _
  · exact .refl _

theorem admitRemotes_does (s : State) :
    Does [.blot, .tests, .mem, .pages, .sched, .queues, .cells, .regHeld, .queueWaits, .remote, .hostSigs, .batches,
      .freeCtr] s (admitRemotes s) := by
  unfold admitRemotes
  dsimp only
  refine .foldl _ (fun u a => ?_) ?_
  · refine .foldl _ (fun u a => ?_) ?_
    · exact .next (admitRemote_does ..) (by decide) (.refl _)
    · exact .refl _
  · exact .refl _

theorem finishExclusions_does (s : State) :
    Does [.exclusions, .mboxes, .queues, .freeCtr] s (finishExclusions s) := by
  unfold finishExclusions
  dsimp only
  refine .ite (fun _ => ?_) (fun _ => ?_)
  · exact .refl _
  · refine .next (finalAnswer_does ..) (by decide) ?_
    with_reducible refine .set rfl rfl rfl (fun f hf => ?_) ?_
    · cases f <;> first | exact absurd (by decide) hf | exact Eq.refl _
    exact .refl _

theorem applyLoad_does (p : Plan) (s : State) (e : RawEntry) :
    Does [.matchUnits] s (applyLoad p s e) := by
  unfold applyLoad
  dsimp only
  split
  · exact .refl _
  · refine .ite (fun _ => ?_) (fun _ => ?_)
    · exact .next (writeEntries_does ..) (by decide) (.refl _)
    · exact .next (writeTags_does ..) (by decide) (.refl _)

theorem applyLoads_does (p : Plan) (s : State) :
    Does [.matchUnits] s (applyLoads p s) := by
  unfold applyLoads
  refine .foldl _ (fun u a => ?_) ?_
  · exact .next (applyLoad_does ..) (by decide) (.refl _)
  · exact .refl _

theorem moveTasks_does (slot : Nat) (old : Nat) (new : Nat) (s : State) :
    Does [.blot, .tests, .mem, .pages, .sched, .cells, .regHeld, .parked, .hostSigs, .batches] s (moveTasks slot old new s) := by
  unfold moveTasks
  dsimp only
  refine .next (noteReserves_does ..) (by decide) (.next (admitWaiting_does ..) (by decide)
      (.next (setCluster_does ..) (by decide) ?_))
  refine .foldl _ (fun u a => ?_) ?_
  · exact .next (relist_does ..) (by decide) (.refl _)
  · refine .ite (fun _ => ?_) (fun _ => ?_)
    · refine .next (setCluster_does ..) (by decide) ?_
      refine .foldl _ (fun u a => ?_) ?_
      · exact .next (listEvent_does ..) (by decide) (.refl _)
      · with_reducible refine .set rfl rfl rfl (fun f hf => ?_) ?_
        · cases f <;> first | exact absurd (by decide) hf | exact Eq.refl _
        exact .next (setCluster_does ..) (by decide) (.refl _)
    · refine .foldl _ (fun u a => ?_) ?_
      · refine .ite (fun _ => ?_) (fun _ => ?_)
        · exact .next (relist_does ..) (by decide) (.refl _)
        · exact .next (offerMargin_does ..) (by decide) (.refl _)
      · refine .foldl _ (fun u a => ?_) ?_
        · exact .next (listEvent_does ..) (by decide) (.refl _)
        · with_reducible refine .set rfl rfl rfl (fun f hf => ?_) ?_
          · cases f <;> first | exact absurd (by decide) hf | exact Eq.refl _
          exact .next (setCluster_does ..) (by decide) (.refl _)

theorem moveCore_does (slot : Nat) (s : State) (e : Bound × Bound) :
    Does [.blot, .tests, .mem, .pages, .sched, .cells, .regHeld, .parked, .hostSigs, .joins, .stats, .nibs,
      .batches] s (moveCore slot s e) := by
  unfold moveCore
  dsimp only
  with_reducible refine .set rfl rfl rfl (fun f hf => ?_) ?_
  · cases f <;> first | exact absurd (by decide) hf | exact Eq.refl _
  exact .next (moveTasks_does ..) (by decide) (.refl _)

theorem moveAbsent_does (s : State) (e : Bound × Bound) :
    Does [.zeroing, .pages] s (moveAbsent s e) := by
  unfold moveAbsent
  refine .ite (fun _ => ?_) (fun _ => ?_)
  · exact .refl _
  · refine .foldl _ (fun u a => ?_) ?_
    · split
      · refine .ite (fun _ => ?_) (fun _ => ?_)
        · refine .next (releaseFrames_does ..) (by decide) ?_
          with_reducible refine .set rfl rfl rfl (fun f hf => ?_) ?_
          · cases f <;> first | exact absurd (by decide) hf | exact Eq.refl _
          exact .refl _
        · with_reducible refine .set rfl rfl rfl (fun f hf => ?_) ?_
          · cases f <;> first | exact absurd (by decide) hf | exact Eq.refl _
          exact .refl _
      · exact .refl _
    · exact .refl _

theorem copyRegion_does (s : State) (e : Bound × Bound) :
    Does [.mem] s (copyRegion s e) := by
  unfold copyRegion
  split
  · with_reducible refine .setMem rfl (fun m => ?_) rfl (fun f hf => ?_) ?_
    · first | exact writeCells_wf _ _ _ m | exact clearCells_wf _ _ _ m | exact copyCells_wf _ _ _ _ m
    · cases f <;> first | exact absurd (by decide) hf | exact Eq.refl _
    exact .refl _
  · with_reducible refine .setMem rfl (fun m => ?_) rfl (fun f hf => ?_) ?_
    · first | exact writeCells_wf _ _ _ m | exact clearCells_wf _ _ _ m | exact copyCells_wf _ _ _ _ m
    · cases f <;> first | exact absurd (by decide) hf | exact Eq.refl _
    exact .refl _
  · with_reducible refine .setMem rfl (fun m => ?_) rfl (fun f hf => ?_) ?_
    · first | exact writeCells_wf _ _ _ m | exact clearCells_wf _ _ _ m | exact copyCells_wf _ _ _ _ m
    · cases f <;> first | exact absurd (by decide) hf | exact Eq.refl _
    exact .refl _
  · refine .foldl _ (fun u a => ?_) ?_
    · split
      · with_reducible refine .setMem rfl (fun m => ?_) rfl (fun f hf => ?_) ?_
        · first | exact writeCells_wf _ _ _ m | exact clearCells_wf _ _ _ m | exact copyCells_wf _ _ _ _ m
        · cases f <;> first | exact absurd (by decide) hf | exact Eq.refl _
        exact .refl _
      · exact .refl _
    · exact .refl _
  · exact .refl _

theorem moveOwners_does (x : Moving) (frames : List (Nat × Nat)) (s : State) :
    Does [.tables] s (moveOwners x frames s) := by
  unfold moveOwners
  dsimp only
  refine .foldl _ (fun u a => ?_) ?_
  · exact .next (setTable_does ..) (by decide) (.refl _)
  · exact .refl _

theorem dropQueues_does (qs : List Nat) (s : State) :
    Does [.queues, .parked, .queueWaits, .tx, .rx] s (dropQueues qs s) := by
  unfold dropQueues
  with_reducible refine .set rfl rfl rfl (fun f hf => ?_) ?_
  · cases f <;> first | exact absurd (by decide) hf | exact Eq.refl _
  exact .refl _

theorem dropWindows_does (bs : List Bound) (s : State) :
    Does [.rx] s (dropWindows bs s) := by
  unfold dropWindows
  with_reducible refine .set rfl rfl rfl (fun f hf => ?_) ?_
  · cases f <;> first | exact absurd (by decide) hf | exact Eq.refl _
  exact .refl _

theorem dropCells_does (cs : List Nat) (s : State) :
    Does [.blot, .tests, .mem, .pages, .sched, .queues, .cells, .regHeld, .parked, .queueWaits, .remote, .hostSigs, .batches,
      .freeCtr] s (dropCells cs s) := by
  unfold dropCells
  dsimp only
  refine .next (admitRemotes_does ..) (by decide) ?_
  with_reducible refine .set rfl rfl rfl (fun f hf => ?_) ?_
  · cases f <;> first | exact absurd (by decide) hf | exact Eq.refl _
  exact .refl _

theorem unmapBounds_does (bs : List Bound) (s : State) :
    Does [.pages] s (unmapBounds bs s) := by
  unfold unmapBounds
  refine .foldl _ (fun u a => ?_) ?_
  · refine .ite (fun _ => ?_) (fun _ => ?_)
    · with_reducible refine .set rfl rfl rfl (fun f hf => ?_) ?_
      · cases f <;> first | exact absurd (by decide) hf | exact Eq.refl _
      exact .refl _
    · exact .refl _
  · exact .refl _

theorem releaseBounds_does (slot : Nat) (bs : List Bound) (frames : List Nat) (s : State) :
    Does [.blot, .tests, .zeroing, .mem, .pages, .sched, .queues, .cells, .regHeld, .parked, .queueWaits, .remote, .hostSigs,
      .batches, .tx, .rx, .freeCtr] s (releaseBounds slot bs frames s) := by
  unfold releaseBounds
  dsimp only
  refine .ite (fun _ => ?_) (fun _ => ?_)
  · exact .next (dropCells_does ..) (by decide) (.next (dropQueues_does ..) (by decide) (.next (dropWindows_does ..) (by decide)
        (.next (unmapBounds_does ..) (by decide) (.refl _))))
  · with_reducible refine .set rfl rfl rfl (fun f hf => ?_) ?_
    · cases f <;> first | exact absurd (by decide) hf | exact Eq.refl _
    exact .next (dropCells_does ..) (by decide) (.next (dropQueues_does ..) (by decide) (.next (dropWindows_does ..) (by decide)
        (.next (unmapBounds_does ..) (by decide) (.refl _))))

theorem moveMatch_does (s : State) (e : Bound × Bound) :
    Does [.matchUnits] s (moveMatch s e) := by
  unfold moveMatch
  dsimp only
  with_reducible refine .set rfl rfl rfl (fun f hf => ?_) ?_
  · cases f <;> first | exact absurd (by decide) hf | exact Eq.refl _
  exact .refl _

theorem moveCell_does (s : State) (e : Bound × Bound) :
    Does [.blot, .cells, .regHeld, .parked, .remote, .hostSigs] s (moveCell s e) := by
  unfold moveCell
  dsimp only
  with_reducible refine .set rfl rfl rfl (fun f hf => ?_) ?_
  · cases f <;> first | exact absurd (by decide) hf | exact Eq.refl _
  exact .refl _

theorem moveStreams_does (x : Moving) (new : Plan) (s : State) :
    Does [.pages, .cells, .regHeld, .parked, .queueWaits, .streams] s (moveStreams x new s) := by
  unfold moveStreams
  dsimp only
  with_reducible refine .set rfl rfl rfl (fun f hf => ?_) ?_
  · cases f <;> first | exact absurd (by decide) hf | exact Eq.refl _
  refine .foldl _ (fun u a => ?_) ?_
  · split
    · refine .ite (fun _ => ?_) (fun _ => ?_)
      · exact .next (cancelStream_does ..) (by decide) (.refl _)
      · exact .refl _
    · exact .refl _
  · exact .refl _

theorem movePart_does (slot : Nat) (drops : List Bound) (s : State) (e : Bound × Bound) :
    Does [.caches, .dips] s (movePart slot drops s e) := by
  unfold movePart
  dsimp only
  refine .ite (fun _ => ?_) (fun _ => ?_)
  · exact .refl _
  · refine .ite (fun _ => ?_) (fun _ => ?_)
    · split
      · with_reducible refine .set rfl rfl rfl (fun f hf => ?_) ?_
        · cases f <;> first | exact absurd (by decide) hf | exact Eq.refl _
        exact .refl _
      · with_reducible refine .set rfl rfl rfl (fun f hf => ?_) ?_
        · cases f <;> first | exact absurd (by decide) hf | exact Eq.refl _
        exact .refl _
      · exact .refl _
    · refine .ite (fun _ => ?_) (fun _ => ?_)
      · exact .next (setDip_does ..) (by decide) (.next (setDip_does ..) (by decide) (.refl _))
      · exact .refl _

theorem moveQueue_does (s : State) (e : Bound × Bound) :
    Does [.queues, .parked, .queueWaits, .hostSigs, .tx, .rx] s (moveQueue s e) := by
  unfold moveQueue
  dsimp only
  split
  · exact .refl _
  · with_reducible refine .set rfl rfl rfl (fun f hf => ?_) ?_
    · cases f <;> first | exact absurd (by decide) hf | exact Eq.refl _
    exact .refl _

theorem commitRebind_does (slot : Nat) (p : Plan) (r : Rebind) (s : State) :
    Does [.blot, .tests, .plans, .zeroing, .mem, .pages, .sched, .queues, .cells, .regHeld, .parked, .queueWaits, .remote,
      .hostSigs, .streams, .tables, .joins, .stats, .nibs, .matchUnits, .batches, .caches, .dips, .ports, .tx, .rx, .lines,
        .freeCtr] s (commitRebind slot p r s) := by
  unfold commitRebind
  dsimp only
  refine .next (releaseBounds_does ..) (by decide) (.next (setPlan_does ..) (by decide) ?_)
  with_reducible refine .set rfl rfl rfl (fun f hf => ?_) ?_
  · cases f <;> first | exact absurd (by decide) hf | exact Eq.refl _
  refine .next (settleBuckets_does ..) (by decide) ?_
  with_reducible refine .set rfl rfl rfl (fun f hf => ?_) ?_
  · cases f <;> first | exact absurd (by decide) hf | exact Eq.refl _
  refine .foldl _ (fun u a => ?_) ?_
  · exact .next (moveAbsent_does ..) (by decide) (.refl _)
  · refine .foldl _ (fun u a => ?_) ?_
    · exact .next (moveCore_does ..) (by decide) (.refl _)
    · refine .foldl _ (fun u a => ?_) ?_
      · exact .next (moveMatch_does ..) (by decide) (.refl _)
      · refine .foldl _ (fun u a => ?_) ?_
        · exact .next (moveCell_does ..) (by decide) (.refl _)
        · refine .foldl _ (fun u a => ?_) ?_
          · exact .next (moveQueue_does ..) (by decide) (.refl _)
          · refine .foldl _ (fun u a => ?_) ?_
            · exact .next (movePart_does ..) (by decide) (.refl _)
            · refine .next (moveOwners_does ..) (by decide) (.next (moveStreams_does ..) (by decide) ?_)
              refine .foldl _ (fun u a => ?_) ?_
              · exact .next (copyRegion_does ..) (by decide) (.refl _)
              · exact .refl _

theorem applyRebind_does (slot : Nat) (s : State) :
    Does [.blot, .tests, .plans, .zeroing, .mem, .pages, .sched, .queues, .cells, .regHeld, .parked, .queueWaits, .remote,
      .hostSigs, .streams, .tables, .joins, .stats, .nibs, .matchUnits, .batches, .caches, .dips, .ports, .tx, .rx, .lines,
        .freeCtr] s (applyRebind slot s) := by
  unfold applyRebind
  split
  · exact .refl _
  · split
    · exact .next (commitRebind_does ..) (by decide) (.refl _)
    · exact .refl _

theorem request_does (a : Action) (s : State) :
    Does [.actions] s (request a s) := by
  unfold request
  with_reducible refine .set rfl rfl rfl (fun f hf => ?_) ?_
  · cases f <;> first | exact absurd (by decide) hf | exact Eq.refl _
  exact .refl _

theorem backToLoaded_does (slot : Nat) (s : State) :
    Does [.plans] s (backToLoaded slot s) := by
  unfold backToLoaded
  split
  · exact .next (setPlan_does ..) (by decide) (.refl _)
  · exact .refl _

theorem dropRebind_does (slot : Nat) (s : State) :
    Does [.blot, .tests, .plans, .actions, .zeroing, .mem, .pages, .sched, .queues, .cells, .regHeld, .parked, .queueWaits,
      .remote, .hostSigs, .batches, .tx, .rx, .freeCtr] s (dropRebind slot s) := by
  unfold dropRebind
  dsimp only
  split
  · exact .refl _
  · split
    · exact .refl _
    · refine .next (releaseBounds_does ..) (by decide) ?_
      with_reducible refine .set rfl rfl rfl (fun f hf => ?_) ?_
      · cases f <;> first | exact absurd (by decide) hf | exact Eq.refl _
      exact .next (setPlan_does ..) (by decide) (.refl _)

theorem cancelRebind_does (slot : Nat) (s : State) :
    Does [.blot, .tests, .exclusions, .mboxes, .plans, .actions, .zeroing, .mem, .pages, .sched, .queues, .cells, .regHeld,
      .parked, .queueWaits, .remote, .hostSigs, .batches, .tx, .rx, .freeCtr] s (cancelRebind slot s) := by
  unfold cancelRebind
  dsimp only
  refine .next (finalAnswer_does ..) (by decide) (.next (dropRebind_does ..) (by decide) ?_)
  with_reducible refine .set rfl rfl rfl (fun f hf => ?_) ?_
  · cases f <;> first | exact absurd (by decide) hf | exact Eq.refl _
  exact .refl _

theorem writeBack_does (s : State) (e : TableCtx × Nat) :
    Does [.actions, .mem, .tables] s (writeBack s e) := by
  unfold writeBack
  dsimp only
  split
  · refine .next (setTable_does ..) (by decide) ?_
    with_reducible refine .setMem rfl (fun m => ?_) rfl (fun f hf => ?_) ?_
    · first | exact writeCells_wf _ _ _ m | exact clearCells_wf _ _ _ m | exact copyCells_wf _ _ _ _ m
    · cases f <;> first | exact absurd (by decide) hf | exact Eq.refl _
    exact .refl _
  · exact .refl _

theorem bindCellValues_does (slot : Nat) (bs : List Bound) (s : State) :
    Does [.cells] s (bindCellValues slot bs s) := by
  unfold bindCellValues
  dsimp only
  refine .foldl _ (fun u a => ?_) ?_
  · exact .next (setCell_does ..) (by decide) (.refl _)
  · exact .refl _

theorem fillRef_does (p : Plan) (s : State) (r : Ref) :
    Does [.mem, .pages] s (fillRef p s r) := by
  unfold fillRef
  split
  · exact .next (refWrite_does ..) (by decide) (.refl _)
  · exact .next (refWrite_does ..) (by decide) (.refl _)
  · exact .next (refWrite_does ..) (by decide) (.refl _)
  · exact .refl _

theorem startStreams_does (slot : Nat) (p : Plan) (s : State) :
    Does [.streams] s (startStreams slot p s) := by
  unfold startStreams
  refine .foldl _ (fun u a => ?_) ?_
  · exact .next (setStream_does ..) (by decide) (.refl _)
  · exact .refl _

theorem startTables_does (slot : Nat) (p : Plan) (s : State) :
    Does [.tables] s (startTables slot p s) := by
  unfold startTables
  refine .foldl _ (fun u a => ?_) ?_
  · exact .next (setTable_does ..) (by decide) (.refl _)
  · exact .refl _

theorem placePlan_does (slot : Nat) (p : Plan) (s : State) :
    Does [.rul, .plans, .mem, .pages, .cells, .streams, .tables, .matchUnits, .ports] s (placePlan slot p s) := by
  unfold placePlan
  dsimp only
  refine .next (refreshBound_does ..) (by decide) (.next (startStreams_does ..) (by decide)
      (.next (applyLoads_does ..) (by decide) (.next (startTables_does ..) (by decide) ?_)))
  refine .foldl _ (fun u a => ?_) ?_
  · exact .next (fillRef_does ..) (by decide) (.refl _)
  · exact .next (bindCellValues_does ..) (by decide) (.next (setPlan_does ..) (by decide)
        (.next (settleBuckets_does ..) (by decide) (.refl _)))

theorem keepReport_does (planId : Nat) (p : Nat) (es : List FitEntry) (s : State) :
    Does [.fitReport] s (keepReport planId p es s).1 := by
  unfold keepReport
  dsimp only
  with_reducible refine .set rfl rfl rfl (fun f hf => ?_) ?_
  · cases f <;> first | exact absurd (by decide) hf | exact Eq.refl _
  exact .refl _

theorem refuseFit_does (planId : Nat) (p : Nat) (es : List FitEntry) (s : State) :
    Does [.fitReport] s (CmdRes.state s (refuseFit planId p es s)) := by
  unfold refuseFit
  dsimp only
  dsimp only [CmdRes.state, stageState]
  exact .next (keepReport_does ..) (by decide) (.refl _)

theorem bindPlan_does (m : Image) (avoid : List (BitVec 16)) (s : State) :
    Does [.rul, .plans, .fitReport, .mem, .pages, .queues, .cells, .streams, .tables, .matchUnits, .ports,
      .freeCtr] s (CmdRes.state s (bindPlan m avoid s)) := by
  unfold bindPlan
  dsimp only
  split
  · exact .next (refuseFit_does ..) (by decide) (.refl _)
  · split
    · dsimp only [CmdRes.state, stageState]
      exact .next (placePlan_does ..) (by decide) (.next (bindImage_does ..) (by decide) (.refl _))
    · exact .next (refuseFit_does ..) (by decide) (.refl _)
    · exact .next (refuseFit_does ..) (by decide) (.refl _)

theorem cancelOn_does (slot : Nat) (s : State) (k : Nat) :
    Does [.blot, .tests, .mem, .pages, .sched, .cells, .regHeld, .hostSigs, .batches] s (cancelOn slot s k) := by
  unfold cancelOn
  dsimp only
  refine .next (noteReserves_does ..) (by decide) (.next (admitWaiting_does ..) (by decide) ?_)
  refine .foldl _ (fun u a => ?_) ?_
  · exact .next (coreEvent_does ..) (by decide) (.refl _)
  · refine .foldl _ (fun u a => ?_) ?_
    · exact .next (listEvent_does ..) (by decide) (.refl _)
    · refine .foldl _ (fun u a => ?_) ?_
      · exact .next (cancelEvent_does ..) (by decide) (.refl _)
      · exact .next (setCluster_does ..) (by decide) (.refl _)

theorem cancelWaits_does (slot : Nat) (s : State) :
    Does [.sched, .cells, .regHeld, .parked, .queueWaits] s (cancelWaits slot s) := by
  unfold cancelWaits
  dsimp only
  refine .foldl _ (fun u a => ?_) ?_
  · exact .next (listEvent_does ..) (by decide) (.refl _)
  · with_reducible refine .set rfl rfl rfl (fun f hf => ?_) ?_
    · cases f <;> first | exact absurd (by decide) hf | exact Eq.refl _
    exact .refl _

theorem clearMatch_does (b : Bound) (s : State) :
    Does [.matchUnits] s (clearMatch b s) := by
  unfold clearMatch
  with_reducible refine .set rfl rfl rfl (fun f hf => ?_) ?_
  · cases f <;> first | exact absurd (by decide) hf | exact Eq.refl _
  exact .refl _

theorem dropContents_does (slot : Nat) (s : State) :
    Does [.streams, .tables, .combiners, .joins, .stats, .nibs, .lists, .batches, .caches, .dips] s (dropContents slot s) := by
  unfold dropContents
  dsimp only
  with_reducible refine .set rfl rfl rfl (fun f hf => ?_) ?_
  · cases f <;> first | exact absurd (by decide) hf | exact Eq.refl _
  exact .refl _

theorem dropWork_does (slot : Nat) (s : State) :
    Does [.rul, .blot, .nibs] s (dropWork slot s) := by
  unfold dropWork
  dsimp only
  with_reducible refine .set rfl rfl rfl (fun f hf => ?_) ?_
  · cases f <;> first | exact absurd (by decide) hf | exact Eq.refl _
  exact .refl _

theorem unloadPlan_does (slot : Nat) (s : State) :
    Does [.rul, .blot, .tests, .plans, .actions, .zeroing, .mem, .pages, .sched, .queues, .cells, .regHeld, .parked, .queueWaits,
      .remote, .hostSigs, .streams, .tables, .combiners, .joins, .stats, .nibs, .lists, .batches, .caches, .dips, .ports, .tx,
        .rx, .freeCtr] s (unloadPlan slot s) := by
  unfold unloadPlan
  dsimp only
  split
  · exact .refl _
  · refine .next (refreshBound_does ..) (by decide) ?_
    with_reducible refine .set rfl rfl rfl (fun f hf => ?_) ?_
    · cases f <;> first | exact absurd (by decide) hf | exact Eq.refl _
    refine .next (settleBuckets_does ..) (by decide) (.next (releaseBounds_does ..) (by decide) ?_)
    with_reducible refine .set rfl rfl rfl (fun f hf => ?_) ?_
    · cases f <;> first | exact absurd (by decide) hf | exact Eq.refl _
    exact .next (dropContents_does ..) (by decide) (.next (dropRebind_does ..) (by decide) (.refl _))

theorem moveIds_does (s : State) (slot : Nat) (p : Plan) (ids : List (Nat × Nat)) (avoid : List (BitVec 16)) :
    Does [.pages, .queues, .freeCtr] s (moveIds s slot p ids avoid).s := by
  unfold moveIds
  dsimp only
  refine .next (addShort_does ..) (by decide) ?_
  refine .foldlOn Binding.s _ (fun u a => ?_) ?_
  · exact .next (bindOne_does ..) (by decide) (.refl _)
  · dsimp only [CmdRes.state, stageState]
    exact .refl _

theorem rebindPlan_does (s : State) (slot : Nat) (p : Plan) (ids : List (Nat × Nat)) (action : Nat → Nat) (avoid : List (BitVec 16)) :
    Does [.pages, .queues, .freeCtr] s (rebindPlan s slot p ids action avoid).b.s := by
  unfold rebindPlan
  dsimp only
  split
  · dsimp only [CmdRes.state, stageState]
    exact .next (moveIds_does ..) (by decide) (.refl _)
  · split
    · dsimp only [CmdRes.state, stageState]
      exact .next (moveIds_does ..) (by decide) (.refl _)
    · dsimp only [CmdRes.state, stageState]
      exact .next (moveIds_does ..) (by decide) (.refl _)

theorem stopWork_does (slot : Nat) (s : State) :
    Does [.rul, .blot, .tests, .mem, .pages, .sched, .cells, .regHeld, .parked, .queueWaits, .hostSigs, .streams, .nibs,
      .batches] s (stopWork slot s) := by
  unfold stopWork
  dsimp only
  refine .next (dropWork_does ..) (by decide) ?_
  refine .foldl _ (fun u a => ?_) ?_
  · exact .next (cancelStream_does ..) (by decide) (.refl _)
  · refine .next (cancelWaits_does ..) (by decide) ?_
    refine .foldl _ (fun u a => ?_) ?_
    · exact .next (cancelOn_does ..) (by decide) (.refl _)
    · exact .refl _

theorem retireBand_does {T : List Part} {slot : Nat} {a : Pending} {p : Plan} {finish : State → State} {s : State}
    (hT : subPart [.rul, .blot, .tests, .mem, .plans, .actions, .pages, .sched, .cells, .regHeld, .parked, .queueWaits,
      .hostSigs, .streams, .nibs, .batches] T = true)
    (h : ∀ u, Does T s u → Does T s (finish u)) : Does T s (retireBand slot a p finish s) := by
  unfold retireBand
  split
  · have h1 : Does T s (setPlan slot { p with retireBands := 1 } s) := .next (setPlan_does ..) (subPart_trans (by decide) hT) (.refl _)
    refine h1.trans (Does.mono (A := [.actions]) ⟨fun f hf => ?_, fun m => m, Fuses.rise_refl _, rfl⟩ (subPart_trans (by decide) hT))
    cases f <;> first | exact absurd (by decide) hf | exact Eq.refl _
  · exact h _ (.next (stopWork_does ..) (subPart_trans (by decide) hT) (.refl _))

theorem flagRunning_does (unit : BitVec 16) (s : State) :
    Does [.rul, .tickEvents, .sched] s (flagRunning unit s) := by
  unfold flagRunning
  dsimp only
  refine .foldl _ (fun u a => ?_) ?_
  · exact .next (lateStart_does ..) (by decide) (.refl _)
  · refine .foldl _ (fun u a => ?_) ?_
    · exact .next (lateStart_does ..) (by decide) (.refl _)
    · with_reducible refine .set rfl rfl rfl (fun f hf => ?_) ?_
      · cases f <;> first | exact absurd (by decide) hf | exact Eq.refl _
      exact .refl _

theorem releaseStream_does (k : Nat × Nat) (s : State) :
    Does [.rul, .blot, .tickEvents, .tests, .mem, .pages, .sched, .cells, .regHeld, .hostSigs, .streams,
      .batches] s (releaseStream k s) := by
  unfold releaseStream
  dsimp only
  split
  · exact .refl _
  · refine .ite (fun _ => ?_) (fun _ => ?_)
    · exact .refl _
    · exact .next (shareEnd_does ..) (by decide) (.next (setStream_does ..) (by decide) (.refl _))

theorem releaseUnit_does (slot : Nat) (cert : Nat) (p : Plan) (c : Cert) (s : State) :
    Does [.rul, .blot, .tests, .actions, .mem, .pages, .sched, .cells, .regHeld, .hostSigs, .tables, .combiners, .batches, .dips,
      .freeCtr] s (releaseUnit slot cert p c s) := by
  unfold releaseUnit
  dsimp only
  split
  · exact .refl _
  · refine .ite (fun _ => ?_) (fun _ => ?_)
    · exact .next (releaseWindow_does ..) (by decide) (.refl _)
    · split
      · refine .next (missPeers_does ..) (by decide) ?_
        with_reducible refine .set rfl rfl rfl (fun f hf => ?_) ?_
        · cases f <;> first | exact absurd (by decide) hf | exact Eq.refl _
        exact .refl _
      · with_reducible refine .set rfl rfl rfl (fun f hf => ?_) ?_
        · cases f <;> first | exact absurd (by decide) hf | exact Eq.refl _
        exact .refl _

theorem tickRecords_does (g : Nat) (s : State) :
    Does [.sched, .freeCtr] s (tickRecords g s) := by
  unfold tickRecords
  dsimp only
  refine .ite (fun _ => ?_) (fun _ => ?_)
  · exact .refl _
  · refine .foldl _ (fun u a => ?_) ?_
    · refine .ite (fun _ => ?_) (fun _ => ?_)
      · exact .refl _
      · exact .next (scribeAt_does ..) (by decide) (.next (setCluster_does ..) (by decide) (.next (drawn_does ..) (by decide)
            (.refl _)))
    · exact .refl _

theorem ringSwap_does (s : State) (e : (Nat × Nat) × Stream) :
    Does [.streams, .caches] s (ringSwap s e) := by
  unfold ringSwap
  dsimp only
  refine .ite (fun _ => ?_) (fun _ => ?_)
  · exact .refl _
  · refine .ite (fun _ => ?_) (fun _ => ?_)
    · refine .ite (fun _ => ?_) (fun _ => ?_)
      · exact .next (restartIngest_does ..) (by decide) (.refl _)
      · exact .refl _
    · refine .ite (fun _ => ?_) (fun _ => ?_)
      · exact .next (setStream_does ..) (by decide) (.refl _)
      · exact .refl _

theorem suspendForActions_does (s : State) :
    Does [.sched] s (suspendForActions s) := by
  unfold suspendForActions
  dsimp only
  refine .foldl _ (fun u a => ?_) ?_
  · exact .next (suspendRun_does ..) (by decide) (.refl _)
  · exact .refl _

theorem openBand_does (s : State) :
    Does [.clk, .rul, .blot, .tickEvents, .tests, .mem, .pages, .sched, .cells, .regHeld, .hostSigs, .batches] s (openBand s) := by
  unfold openBand
  dsimp only
  refine .next (advanceTick_does ..) (by decide) (.next (settleShared_does ..) (by decide) ?_)
  with_reducible refine .set rfl rfl rfl (fun f hf => ?_) ?_
  · cases f <;> first | exact absurd (by decide) hf | exact Eq.refl _
  exact .next (advanceTo_does ..) (by decide) (.refl _)

theorem park_does (queue : Bool) (num : Nat) (w : Waiter) (s : State) :
    Does [.blot, .tests, .mem, .pages, .sched, .cells, .regHeld, .parked, .hostSigs, .batches] s (park queue num w s) := by
  unfold park
  refine .next (emitErr_does ..) (by decide) ?_
  with_reducible refine .set rfl rfl rfl (fun f hf => ?_) ?_
  · cases f <;> first | exact absurd (by decide) hf | exact Eq.refl _
  exact .refl _

theorem zeroingEnd_does (s : State) :
    Does [.heldLoads, .zeroing, .mem, .matchUnits] s (zeroingEnd s) := by
  unfold zeroingEnd
  dsimp only
  split
  · exact .refl _
  · with_reducible refine .set rfl rfl rfl (fun f hf => ?_) ?_
    · cases f <;> first | exact absurd (by decide) hf | exact Eq.refl _
    refine .foldl _ (fun u a => ?_) ?_
    · exact .next (clearMatch_does ..) (by decide) (.refl _)
    · exact .next (zeroingDone_does ..) (by decide) (.refl _)

theorem loadImage_does (image : Nat) (length : Nat) (avoid : List (BitVec 16)) (s : State) :
    Does [.rul, .plans, .fitReport, .mem, .pages, .queues, .cells, .streams, .tables, .matchUnits, .ports,
      .freeCtr] s (CmdRes.state s (loadImage image length avoid s)) := by
  unfold loadImage
  split
  · dsimp only [CmdRes.state, stageState]
    exact .refl _
  · exact .next (bindPlan_does ..) (by decide) (.refl _)

theorem loadBody_does (image : Nat) (length : Nat) (avoid : List (BitVec 16)) (s : State) :
    Does [.rul, .plans, .fitReport, .mem, .pages, .queues, .cells, .streams, .tables, .matchUnits, .ports,
      .freeCtr] s (CmdRes.state s (loadBody image length avoid s)) := by
  unfold loadBody
  split
  · exact .next (loadImage_does ..) (by decide) (.refl _)
  · dsimp only [CmdRes.state, stageState]
    exact .refl _

theorem retryLoad_does (s : State) (h : Instr × Nat × Nat) :
    Does [.rul, .mboxes, .heldLoads, .plans, .fitReport, .mem, .pages, .queues, .cells, .queueWaits, .streams, .tables,
      .matchUnits, .ports, .freeCtr] s (retryLoad s h) := by
  unfold retryLoad
  split
  · split
    · have h1 : Does [.rul, .mboxes, .heldLoads, .plans, .fitReport, .mem, .pages, .queues, .cells, .queueWaits, .streams,
      .tables, .matchUnits, .ports, .freeCtr] s { s with heldLoads := s.heldLoads.erase h } := by
        refine .set rfl rfl rfl (fun f hf => ?_) (.refl _)
        cases f <;> first | exact absurd (by decide) hf | exact Eq.refl _
      exact runCmd_does (by decide) (.next (loadBody_does ..) (by decide) h1)
    · exact .refl _
  · exact .refl _

theorem retryLoads_does (s : State) :
    Does [.rul, .mboxes, .heldLoads, .plans, .fitReport, .mem, .pages, .queues, .cells, .queueWaits, .streams, .tables,
      .matchUnits, .ports, .freeCtr] s (retryLoads s) := by
  unfold retryLoads
  refine .foldl _ (fun u a => ?_) ?_
  · exact .next (retryLoad_does ..) (by decide) (.refl _)
  · exact .refl _

end Sys2Proof.Machine
end

