-- ==== Sys2Proof/Laws/DoesDevice.lean ====
section
/-! SUPPORT. What the shared operations over the Seal, power, reception, tasks and resets do: the fields each touches. -/

namespace Sys2Proof.Machine

theorem sendHs_does (dest : HsTo) (id : BitVec 64) (slot : Nat) (type : Nat) (body : Bytes) (s : State) :
    Does [.ports] s (sendHs dest id slot type body s) := by
  unfold sendHs
  dsimp only
  refine .foldl _ (fun u a => ?_) ?_
  · exact .next (enqueueKit_does ..) (by decide) (.refl _)
  · exact .refl _

theorem noteAbort_does (reason : Nat) (slot : Nat) (s : State) :
    Does [.tickEvents] s (noteAbort reason slot s) := by
  unfold noteAbort
  refine .ite (fun _ => ?_) (fun _ => ?_)
  · exact .next (tickEvent_does ..) (by decide) (.refl _)
  · exact .refl _

theorem sendAbort_does (dest : HsTo) (id : BitVec 64) (slot : Nat) (reason : Nat) (s : State) :
    Does [.tickEvents, .ports] s (sendAbort dest id slot reason s) := by
  unfold sendAbort
  exact .next (noteAbort_does ..) (by decide) (.next (sendHs_does ..) (by decide) (.refl _))

theorem failOpen_does (slot : Nat) (detail : Nat) (s : State) :
    Does [.sec, .mboxes, .queues, .freeCtr] s (failOpen slot detail s) := by
  unfold failOpen
  dsimp only
  refine .next (finalAnswer_does ..) (by decide) ?_
  with_reducible refine .set rfl rfl rfl (fun f hf => ?_) ?_
  · cases f <;> first | exact absurd (by decide) hf | exact Eq.refl _
  exact .refl _

theorem dropHandshake_does (id : BitVec 64) (s : State) :
    Does [.sec] s (dropHandshake id s) := by
  unfold dropHandshake
  dsimp only
  with_reducible refine .set rfl rfl rfl (fun f hf => ?_) ?_
  · cases f <;> first | exact absurd (by decide) hf | exact Eq.refl _
  exact .refl _

theorem abortHandshake_does (h : Handshake) (reason : Nat) (detail : Nat) (s : State) :
    Does [.sec, .tickEvents, .mboxes, .queues, .ports, .freeCtr] s (abortHandshake h reason detail s) := by
  unfold abortHandshake
  exact .next (failOpen_does ..) (by decide) (.next (dropHandshake_does ..) (by decide) (.next (sendAbort_does ..) (by decide)
      (.refl _)))

theorem cancelStreams_does (t : Task) (s : State) :
    Does [.pages, .cells, .regHeld, .parked, .queueWaits, .streams] s (cancelStreams t s) := by
  unfold cancelStreams
  split
  · exact .refl _
  · refine .foldl _ (fun u a => ?_) ?_
    · split
      · refine .ite (fun _ => ?_) (fun _ => ?_)
        · exact .next (cancelStream_does ..) (by decide) (.refl _)
        · exact .refl _
      · exact .refl _
    · exact .refl _

theorem abortWait_does (p : Parked) (s : State) :
    Does [.pages, .sched, .cells, .regHeld, .parked, .queueWaits, .streams] s (abortWait p s) := by
  unfold abortWait
  split
  · split
    · exact .next (listEvent_does ..) (by decide) (.refl _)
    · exact .next (cancelStreams_does ..) (by decide) (.next (listEvent_does ..) (by decide) (.refl _))
  · split
    · exact .next (cancelStream_does ..) (by decide) (.refl _)
    · exact .refl _

theorem answerEdge_does (s : State) :
    Does [.exclusions, .mboxes, .queues, .freeCtr] s (answerEdge s) := by
  unfold answerEdge
  dsimp only
  exact .next (finishExclusions_does ..) (by decide) (.next (finalAnswer_does ..) (by decide)
      (.next (finalAnswer_does ..) (by decide) (.next (answerRuling_does ..) (by decide) (.refl _))))

theorem signReport_does (kind : Nat) (slot : Nat) (binding : Bytes) (s : State) :
    Does [.sec, .freeCtr] s (signReport kind slot binding s).2 := by
  unfold signReport
  dsimp only
  refine .next (drawn_does ..) (by decide) ?_
  with_reducible refine .set rfl rfl rfl (fun f hf => ?_) ?_
  · cases f <;> first | exact absurd (by decide) hf | exact Eq.refl _
  exact .refl _

theorem sendReply_does (dest : HsTo) (id : BitVec 64) (slot : Nat) (reply : Bytes) (s : State) :
    Does [.ports] s (sendReply dest id slot reply s) :=
  .next (sendHs_does ..) (by decide) (.next (setPort_does ..) (by decide) (.refl _))

theorem answerHello_does (p : KitPacket) (f : HsFragment) (b : Bytes) (s : State) :
    Does [.sec, .tickEvents, .mboxes, .queues, .ports, .freeCtr] s (answerHello p f b s) := by
  unfold answerHello
  dsimp only
  refine .ite (fun _ => ?_) (fun _ => ?_)
  · refine .ite (fun _ => ?_) (fun _ => ?_)
    · exact .next (sendAbort_does ..) (by decide) (.next (drawn_does ..) (by decide) (.next (drawn_does ..) (by decide)
          (.next (drawn_does ..) (by decide) (.refl _))))
    · exact .next (failOpen_does ..) (by decide) (.next (sendAbort_does ..) (by decide) (.next (drawn_does ..) (by decide)
          (.next (drawn_does ..) (by decide) (.next (drawn_does ..) (by decide) (.refl _)))))
  · refine .next (sendReply_does ..) (by decide) ?_
    with_reducible refine .set rfl rfl rfl (fun f hf => ?_) ?_
    · cases f <;> first | exact absurd (by decide) hf | exact Eq.refl _
    exact .next (signReport_does ..) (by decide) (.next (drawn_does ..) (by decide) (.next (drawn_does ..) (by decide)
        (.next (drawn_does ..) (by decide) (.refl _))))

theorem applyBringup_does (b : Bytes) (s : State) :
    Does [.boot, .ports] s (applyBringup b s) := by
  unfold applyBringup
  dsimp only
  refine .ite (fun _ => ?_) (fun _ => ?_)
  · with_reducible refine .set rfl rfl rfl (fun f hf => ?_) ?_
    · cases f <;> first | exact absurd (by decide) hf | exact Eq.refl _
    exact .next (setPort_does ..) (by decide) (.next (setPort_does ..) (by decide) (.refl _))
  · with_reducible refine .set rfl rfl rfl (fun f hf => ?_) ?_
    · cases f <;> first | exact absurd (by decide) hf | exact Eq.refl _
    exact .refl _

theorem askPeriod_does (p : Nat) (s : State) :
    Does [.rul, .actions] s (askPeriod p s) := by
  unfold askPeriod
  dsimp only
  refine .ite (fun _ => ?_) (fun _ => ?_)
  · exact .refl _
  · refine .next (setStatus_does ..) (by decide) ?_
    refine .ite (fun _ => ?_) (fun _ => ?_)
    · refine .next (request_does ..) (by decide) ?_
      with_reducible refine .set rfl rfl rfl (fun f hf => ?_) ?_
      · cases f <;> first | exact absurd (by decide) hf | exact Eq.refl _
      exact .refl _
    · with_reducible refine .set rfl rfl rfl (fun f hf => ?_) ?_
      · cases f <;> first | exact absurd (by decide) hf | exact Eq.refl _
      exact .refl _

theorem homeBlocks_does (slot : Nat) (s : State) :
    Does [.actions, .mem, .tables] s (homeBlocks slot s) := by
  unfold homeBlocks
  refine .foldl _ (fun u a => ?_) ?_
  · refine .foldl _ (fun u a => ?_) ?_
    · split
      · refine .ite (fun _ => ?_) (fun _ => ?_)
        · exact .next (abortCopy_does ..) (by decide) (.refl _)
        · refine .ite (fun _ => ?_) (fun _ => ?_)
          · exact .next (writeBack_does ..) (by decide) (.refl _)
          · exact .refl _
      · exact .refl _
    · exact .refl _
  · exact .refl _

theorem beginPlanReset_does (slot : Nat) (p : Plan) (s : State) :
    Does [.blot, .tests, .exclusions, .mboxes, .plans, .actions, .zeroing, .mem, .pages, .sched, .queues, .cells, .regHeld,
      .parked, .queueWaits, .remote, .hostSigs, .tables, .stats, .batches, .tx, .rx, .freeCtr] s (beginPlanReset slot p s) := by
  unfold beginPlanReset
  dsimp only
  refine .ite (fun _ => ?_) (fun _ => ?_)
  · refine .next (setPlan_does ..) (by decide) ?_
    with_reducible refine .set rfl rfl rfl (fun f hf => ?_) ?_
    · cases f <;> first | exact absurd (by decide) hf | exact Eq.refl _
    exact .next (homeBlocks_does ..) (by decide) (.next (cancelRebind_does ..) (by decide)
        (.next (finalAnswer_does ..) (by decide) (.refl _)))
  · refine .next (request_does ..) (by decide) (.next (setPlan_does ..) (by decide) ?_)
    with_reducible refine .set rfl rfl rfl (fun f hf => ?_) ?_
    · cases f <;> first | exact absurd (by decide) hf | exact Eq.refl _
    exact .next (homeBlocks_does ..) (by decide) (.next (cancelRebind_does ..) (by decide)
        (.next (finalAnswer_does ..) (by decide) (.refl _)))

/-- A power-on keeps the fuses, the queue of commands and what the pins last showed. -/
theorem blank_does (s : State) :
    Does [.variant, .clk, .rul, .ptp, .pwr, .boot, .booted, .sec, .halted, .blot, .tickEvents, .tests, .excluded, .exclusions,
      .mboxes, .links, .taken, .heldLoads, .plans, .actions, .zeroing, .fitReport, .mem, .pages, .allocs, .sched, .queues,
        .cells, .regHeld, .parked, .queueWaits, .remote, .hostSigs, .streams, .tables, .combiners, .joins, .stats, .nibs, .lists,
          .matchUnits, .batches, .caches, .dips, .ports, .deviceNumber, .neighbours, .tx, .rx, .windows, .counters, .sent,
            .jtagBypass, .tlmAck, .jtagOut, .ppsOut, .lanesDown, .linksDown, .lines, .poolCorr, .freeCtr] s (blank s) :=
  ⟨fun f hf => by cases f <;> exact absurd (by decide) hf, fun _ => rfl, Fuses.rise_refl _, rfl⟩

theorem bootStage_does (type : Nat) (primary : ImageCopy) (alternate : ImageCopy) (s : State) :
    Does [.boot, .sec, .halted, .blot, .tests, .mem, .pages, .sched, .cells, .regHeld, .hostSigs,
      .batches] s (bootStage type primary alternate s).2 := by
  unfold bootStage
  dsimp only
  split
  · dsimp only [CmdRes.state, stageState]
    exact .refl _
  · split
    · dsimp only [CmdRes.state, stageState]
      refine .next (emitErr_does ..) (by decide) ?_
      with_reducible refine .set rfl rfl rfl (fun f hf => ?_) ?_
      · cases f <;> first | exact absurd (by decide) hf | exact Eq.refl _
      exact .refl _
    · dsimp only [CmdRes.state, stageState]
      with_reducible refine .set rfl rfl rfl (fun f hf => ?_) ?_
      · cases f <;> first | exact absurd (by decide) hf | exact Eq.refl _
      exact .refl _

theorem cancelListed_does (k : Nat) (t : Task) (s : State) :
    Does [.sched] s (cancelListed k t s) := by
  unfold cancelListed
  dsimp only
  refine .ite (fun _ => ?_) (fun _ => ?_)
  · exact .next (cancelEvent_does ..) (by decide) (.next (setCluster_does ..) (by decide) (.refl _))
  · exact .next (listEvent_does ..) (by decide) (.next (setCluster_does ..) (by decide) (.refl _))

theorem cancelRunning_does (k : Nat) (r : Running) (s : State) :
    Does [.sched, .nibs] s (cancelRunning k r s) := by
  unfold cancelRunning
  dsimp only
  refine .next (coreEvent_does ..) (by decide) ?_
  with_reducible refine .set rfl rfl rfl (fun f hf => ?_) ?_
  · cases f <;> first | exact absurd (by decide) hf | exact Eq.refl _
  exact .next (setCluster_does ..) (by decide) (.refl _)

theorem clearClusters_does (s : State) :
    Does [.sched] s (clearClusters s) := by
  unfold clearClusters
  dsimp only
  with_reducible refine .set rfl rfl rfl (fun f hf => ?_) ?_
  · cases f <;> first | exact absurd (by decide) hf | exact Eq.refl _
  exact .refl _

theorem zeroSram_does (s : State) :
    Does [.mem] s (zeroSram s) := by
  unfold zeroSram
  refine .setMem rfl (fun m => memOrdered_filter _ m) rfl (fun f hf => ?_) (.refl _)
  cases f <;> first | exact absurd (by decide) hf | exact Eq.refl _

theorem clearEngines_does (s : State) :
    Does [.mem, .sched, .queues, .regHeld, .parked, .queueWaits, .streams, .tables, .combiners, .joins, .stats, .nibs, .lists,
      .matchUnits, .batches, .caches, .dips, .lines, .poolCorr] s (clearEngines s) := by
  unfold clearEngines
  dsimp only
  with_reducible refine .set rfl rfl rfl (fun f hf => ?_) ?_
  · cases f <;> first | exact absurd (by decide) hf | exact Eq.refl _
  exact .next (clearClusters_does ..) (by decide) (.next (zeroSram_does ..) (by decide) (.refl _))

theorem closeOpen_does (slot : Nat) (s : State) :
    Does [.sec, .tickEvents, .mboxes, .queues, .ports, .freeCtr] s (closeOpen slot s) := by
  unfold closeOpen
  dsimp only
  refine .next (finalAnswer_does ..) (by decide) ?_
  with_reducible refine .set rfl rfl rfl (fun f hf => ?_) ?_
  · cases f <;> first | exact absurd (by decide) hf | exact Eq.refl _
  split
  · exact .next (dropHandshake_does ..) (by decide) (.next (sendAbort_does ..) (by decide) (.refl _))
  · exact .refl _

theorem zeroCluster_does (k : Nat) (s : State) :
    Does [.mem] s (zeroCluster k s) := by
  unfold zeroCluster
  exact .next (zeroRanges_does ..) (by decide) (.refl _)

theorem resetCluster_does (k : Nat) (s : State) :
    Does [.mem, .sched, .nibs, .matchUnits, .lines, .poolCorr] s (resetCluster k s) := by
  unfold resetCluster
  dsimp only
  with_reducible refine .set rfl rfl rfl (fun f hf => ?_) ?_
  · cases f <;> first | exact absurd (by decide) hf | exact Eq.refl _
  exact .next (setCluster_does ..) (by decide) (.next (zeroCluster_does ..) (by decide) (.refl _))

theorem clusterOff_does (s : State) (k : Nat) :
    Does [.mem, .sched, .nibs, .matchUnits, .lines, .poolCorr] s (clusterOff s k) := by
  unfold clusterOff
  dsimp only
  exact .next (setCluster_does ..) (by decide) (.next (resetCluster_does ..) (by decide) (.refl _))

theorem clusterOn_does (s : State) (k : Nat) :
    Does [.mem, .sched] s (clusterOn s k) := by
  unfold clusterOn
  dsimp only
  refine .ite (fun _ => ?_) (fun _ => ?_)
  · exact .next (zeroCluster_does ..) (by decide) (.next (setCluster_does ..) (by decide) (.refl _))
  · exact .refl _

theorem resetContents_does (slot : Nat) (p : Plan) (s : State) :
    Does [.mem, .queues, .cells, .regHeld, .parked, .queueWaits, .streams, .tables, .combiners, .joins, .stats, .nibs, .lists,
      .matchUnits, .batches, .caches, .dips, .tx, .rx] s (resetContents slot p s) := by
  unfold resetContents
  dsimp only
  refine .next (applyLoads_does ..) (by decide) ?_
  refine .foldl _ (fun u a => ?_) ?_
  · exact .next (clearMatch_does ..) (by decide) (.refl _)
  · refine .next (bindCellValues_does ..) (by decide) ?_
    with_reducible refine .set rfl rfl rfl (fun f hf => ?_) ?_
    · cases f <;> first | exact absurd (by decide) hf | exact Eq.refl _
    refine .foldl _ (fun u a => ?_) ?_
    · exact .next (setQueue_does ..) (by decide) (.refl _)
    · refine .next (dropQueues_does ..) (by decide) (.next (dropWindows_does ..) (by decide)
          (.next (zeroRanges_does ..) (by decide) ?_))
      with_reducible refine .set rfl rfl rfl (fun f hf => ?_) ?_
      · cases f <;> first | exact absurd (by decide) hf | exact Eq.refl _
      exact .next (dropContents_does ..) (by decide) (.refl _)

theorem finishPlanReset_does (slot : Nat) (s : State) :
    Does [.plans, .mem, .queues, .cells, .regHeld, .parked, .queueWaits, .streams, .tables, .combiners, .joins, .stats, .nibs,
      .lists, .matchUnits, .batches, .caches, .dips, .tx, .rx] s (finishPlanReset slot s) := by
  unfold finishPlanReset
  split
  · exact .next (resetContents_does ..) (by decide) (.next (setPlan_does ..) (by decide) (.refl _))
  · exact .refl _

theorem commitAction_does (s : State) (a : Action) :
    Does [.blot, .tests, .mboxes, .plans, .actions, .zeroing, .mem, .pages, .sched, .queues, .cells, .regHeld, .parked,
      .queueWaits, .remote, .hostSigs, .streams, .tables, .combiners, .joins, .stats, .nibs, .lists, .matchUnits, .batches,
        .caches, .dips, .ports, .tx, .rx, .lines, .freeCtr] s (commitAction s a) := by
  unfold commitAction
  split
  · exact .next (applySwap_does ..) (by decide) (.refl _)
  · exact .next (applyCutover_does ..) (by decide) (.refl _)
  · exact .next (applyDip_does ..) (by decide) (.refl _)
  · exact .next (applyRebind_does ..) (by decide) (.refl _)
  · exact .next (activatePlan_does ..) (by decide) (.refl _)
  · exact .next (backToLoaded_does ..) (by decide) (.refl _)
  · exact .next (finishPlanReset_does ..) (by decide) (.refl _)
  · exact .refl _

theorem commitActions_does (s : State) :
    Does [.blot, .tests, .mboxes, .plans, .actions, .zeroing, .mem, .pages, .sched, .queues, .cells, .regHeld, .parked,
      .queueWaits, .remote, .hostSigs, .streams, .tables, .combiners, .joins, .stats, .nibs, .lists, .matchUnits, .batches,
        .caches, .dips, .ports, .tx, .rx, .lines, .freeCtr] s (commitActions s) := by
  unfold commitActions
  dsimp only
  refine .next (returnAll_does ..) (by decide) ?_
  refine .foldl _ (fun u a => ?_) ?_
  · exact .next (commitAction_does ..) (by decide) (.refl _)
  · with_reducible refine .set rfl rfl rfl (fun f hf => ?_) ?_
    · cases f <;> first | exact absurd (by decide) hf | exact Eq.refl _
    exact .refl _

theorem commitFuses_does (h : Bytes) (s : State) :
    Does [.sec] s (commitFuses h s) := by
  unfold commitFuses
  split
  · exact .refl _
  · refine ⟨fun f hf => ?_, fun m => m, ?_, rfl⟩
    · cases f <;> first | exact absurd (by decide) hf | exact Eq.refl _
    · refine ⟨rfl, rfl, rfl, rfl, rfl, ?_, ?_⟩
      · dsimp only
        split
        · rw [BitVec.or_assoc, BitVec.or_self]
        · exact BitVec.or_self
      · dsimp only
        split
        · rw [BitVec.or_assoc, BitVec.or_self]
        · exact BitVec.or_self

theorem setRx_does (e : RxStream) (s : State) :
    Does [.rx] s (setRx e s) := by
  unfold setRx
  with_reducible refine .set rfl rfl rfl (fun f hf => ?_) ?_
  · cases f <;> first | exact absurd (by decide) hf | exact Eq.refl _
  exact .refl _

theorem rxCommit_does (q : Nat) (run : List RxPart) (e : RxStream) (s : State) :
    Does [.blot, .tests, .mem, .pages, .sched, .queues, .cells, .regHeld, .queueWaits, .hostSigs, .batches, .ports,
      .freeCtr] s (rxCommit q run e s).2 := by
  unfold rxCommit
  dsimp only
  split
  · dsimp only [CmdRes.state, stageState]
    exact .refl _
  · split
    · dsimp only [CmdRes.state, stageState]
      exact .next (commitPacket_does ..) (by decide) (.refl _)
    · split
      · dsimp only [CmdRes.state, stageState]
        exact .next (commitPacket_does ..) (by decide) (.refl _)
      · dsimp only [CmdRes.state, stageState]
        exact .next (drop_does ..) (by decide) (.refl _)

theorem rxDrain_does (q : Nat) (a1 : Nat) (a2 : RxStream) (a3 : State) :
    Does [.blot, .tests, .mem, .pages, .sched, .queues, .cells, .regHeld, .queueWaits, .hostSigs, .batches, .ports, .rx,
      .freeCtr] a3 (rxDrain q a1 a2 a3).2 := by
  unfold rxDrain
  dsimp only
  split
  · dsimp only [CmdRes.state, stageState]
    exact .refl _
  · split
    · dsimp only [CmdRes.state, stageState]
      exact .refl _
    · exact .next (rxDrain_does ..) (by decide) (.next (rxCommit_does ..) (by decide) (.next (setRx_does ..) (by decide)
          (.refl _)))

theorem dataQueue_does (pt : Nat) (e : RxStream) (q : Nat) (p : KitPacket) (bs : Bytes) (s : State) :
    Does [.blot, .tests, .mem, .pages, .sched, .queues, .cells, .regHeld, .queueWaits, .hostSigs, .batches, .ports, .rx,
      .freeCtr] s (dataQueue pt e q p bs s) := by
  unfold dataQueue
  dsimp only
  refine .ite (fun _ => ?_) (fun _ => ?_)
  · exact .next (drop_does ..) (by decide) (.refl _)
  · refine .ite (fun _ => ?_) (fun _ => ?_)
    · exact .refl _
    · refine .ite (fun _ => ?_) (fun _ => ?_)
      · exact .next (drop_does ..) (by decide) (.refl _)
      · refine .ite (fun _ => ?_) (fun _ => ?_)
        · exact .next (drop_does ..) (by decide) (.refl _)
        · exact .next (setRx_does ..) (by decide) (.next (rxDrain_does ..) (by decide) (.refl _))

theorem dataWindow_does (pt : Nat) (e : RxStream) (base : Nat) (size : Nat) (pos : BitVec 48) (bs : Bytes) (s : State) :
    Does [.mem, .pages, .ports, .rx] s (dataWindow pt e base size pos bs s) := by
  unfold dataWindow
  dsimp only
  refine .ite (fun _ => ?_) (fun _ => ?_)
  · exact .next (drop_does ..) (by decide) (.refl _)
  · exact .next (setRx_does ..) (by decide) (.next (writeFree_does ..) (by decide) (.refl _))

theorem discardOutbound_does (slot : Nat) (s : State) :
    Does [.ports] s (discardOutbound slot s) := by
  unfold discardOutbound
  dsimp only
  with_reducible refine .set rfl rfl rfl (fun f hf => ?_) ?_
  · cases f <;> first | exact absurd (by decide) hf | exact Eq.refl _
  exact .refl _

theorem discardSealed_does (s : State) :
    Does [.ports] s (discardSealed s) := by
  unfold discardSealed
  dsimp only
  with_reducible refine .set rfl rfl rfl (fun f hf => ?_) ?_
  · cases f <;> first | exact absurd (by decide) hf | exact Eq.refl _
  exact .refl _

theorem takeIn_does (m : Nat) (msgs : List Bytes) (s : State) :
    Does [.taken] s (takeIn m msgs s) := by
  unfold takeIn
  dsimp only
  with_reducible refine .set rfl rfl rfl (fun f hf => ?_) ?_
  · cases f <;> first | exact absurd (by decide) hf | exact Eq.refl _
  exact .refl _

theorem doorbell_does (m : Nat) (s : State) :
    Does [.blot, .tests, .mboxes, .taken, .mem, .pages, .sched, .queues, .cells, .regHeld, .queueWaits, .hostSigs, .batches,
      .freeCtr] s (doorbell m s) := by
  unfold doorbell
  dsimp only
  split
  · exact .next (setMbox_does ..) (by decide) (.refl _)
  · refine .ite (fun _ => ?_) (fun _ => ?_)
    · exact .next (setMbox_does ..) (by decide) (.refl _)
    · refine .ite (fun _ => ?_) (fun _ => ?_)
      · exact .next (setMbox_does ..) (by decide) (.next (setMbox_does ..) (by decide) (.refl _))
      · exact .next (takeIn_does ..) (by decide) (.next (wakeQueue_does ..) (by decide) (.next (setQueue_does ..) (by decide)
            (.next (setMbox_does ..) (by decide) (.refl _))))

theorem drawSealKeys_does (s : State) :
    Does [.sec, .freeCtr] s (drawSealKeys s) := by
  unfold drawSealKeys
  dsimp only
  with_reducible refine .set rfl rfl rfl (fun f hf => ?_) ?_
  · cases f <;> first | exact absurd (by decide) hf | exact Eq.refl _
  exact .refl _

theorem dropWait_does (w : Waiter) (t : Task) (s : State) :
    Does [.sched, .cells, .regHeld, .parked] s (dropWait w t s) := by
  unfold dropWait
  dsimp only
  refine .next (listEvent_does ..) (by decide) ?_
  with_reducible refine .set rfl rfl rfl (fun f hf => ?_) ?_
  · cases f <;> first | exact absurd (by decide) hf | exact Eq.refl _
  exact .refl _

theorem emitMailbox_does (p : Nat) (s : State) :
    Does [.ports, .counters, .sent, .freeCtr] s (emitMailbox p s) := by
  unfold emitMailbox
  dsimp only
  refine .ite (fun _ => ?_) (fun _ => ?_)
  · refine .foldl _ (fun u a => ?_) ?_
    · exact .next (emitFrame_does ..) (by decide) (.refl _)
    · exact .next (setPort_does ..) (by decide) (.refl _)
  · exact .next (setPort_does ..) (by decide) (.refl _)

theorem idleMailboxes_does (s : State) :
    Does [.mboxes, .taken, .heldLoads] s (idleMailboxes s) := by
  unfold idleMailboxes
  dsimp only
  with_reducible refine .set rfl rfl rfl (fun f hf => ?_) ?_
  · cases f <;> first | exact absurd (by decide) hf | exact Eq.refl _
  exact .refl _

theorem freeSession_does (s : State) :
    Does [.blot, .zeroing, .pages, .allocs] s (freeSession s) := by
  unfold freeSession
  dsimp only
  with_reducible refine .set rfl rfl rfl (fun f hf => ?_) ?_
  · cases f <;> first | exact absurd (by decide) hf | exact Eq.refl _
  refine .foldl _ (fun u a => ?_) ?_
  · exact .next (unmapRun_does ..) (by decide) (.refl _)
  · exact .refl _

theorem redrawHbmKeys_does (s : State) :
    Does [.sec, .mem, .freeCtr] s (redrawHbmKeys s) := by
  unfold redrawHbmKeys
  dsimp only
  refine .setMem rfl (fun _ => rfl) rfl (fun f hf => ?_) (.refl _)
  cases f <;> first | exact absurd (by decide) hf | exact Eq.refl _

theorem unloadAll_does (s : State) :
    Does [.rul, .blot, .tests, .plans, .actions, .zeroing, .mem, .pages, .sched, .queues, .cells, .regHeld, .parked, .queueWaits,
      .remote, .hostSigs, .streams, .tables, .combiners, .joins, .stats, .nibs, .lists, .batches, .caches, .dips, .ports, .tx,
        .rx, .freeCtr] s (unloadAll s) := by
  unfold unloadAll
  refine .foldl _ (fun u a => ?_) ?_
  · exact .next (unloadPlan_does ..) (by decide) (.refl _)
  · exact .refl _

theorem zeroMr3_does (s : State) :
    Does [.sec] s (zeroMr3 s) := by
  unfold zeroMr3
  dsimp only
  with_reducible refine .set rfl rfl rfl (fun f hf => ?_) ?_
  · cases f <;> first | exact absurd (by decide) hf | exact Eq.refl _
  exact .refl _

theorem endSession_does (s : State) :
    Does [.rul, .sec, .blot, .tests, .exclusions, .mboxes, .links, .taken, .heldLoads, .plans, .actions, .zeroing, .mem, .pages,
      .allocs, .sched, .queues, .cells, .regHeld, .parked, .queueWaits, .remote, .hostSigs, .streams, .tables, .combiners,
        .joins, .stats, .nibs, .lists, .matchUnits, .batches, .caches, .dips, .ports, .deviceNumber, .neighbours, .tx, .rx,
          .windows, .counters, .lines, .poolCorr, .freeCtr] s (endSession s) := by
  unfold endSession
  dsimp only
  refine .next (zeroMr3_does ..) (by decide) ?_
  with_reducible refine .set rfl rfl rfl (fun f hf => ?_) ?_
  · cases f <;> first | exact absurd (by decide) hf | exact Eq.refl _
  exact .next (redrawHbmKeys_does ..) (by decide) (.next (discardSealed_does ..) (by decide)
      (.next (clearEngines_does ..) (by decide) (.next (freeSession_does ..) (by decide) (.next (unloadAll_does ..) (by decide)
      (.next (idleMailboxes_does ..) (by decide) (.refl _))))))

theorem excludeFrom_does (units : List (BitVec 16)) (x : State × List FitEntry × Nat) (slot : Nat) :
    Does [.plans, .actions, .pages, .queues, .tables, .freeCtr] x.1 (excludeFrom units x slot).1 := by
  unfold excludeFrom
  dsimp only
  split
  · exact .refl _
  · split
    · exact .refl _
    · split
      · dsimp only [CmdRes.state, stageState]
        exact .refl _
      · split
        · dsimp only [CmdRes.state, stageState]
          exact .next (acceptRebind_does ..) (by decide) (.next (rebindPlan_does ..) (by decide) (.refl _))
        · dsimp only [CmdRes.state, stageState]
          exact .refl _

theorem wipeSlot_does (slot : Nat) (s : State) :
    Does [.sec, .ports, .windows, .counters] s (wipeSlot slot s) := by
  unfold wipeSlot
  dsimp only
  refine .next (discardOutbound_does ..) (by decide) ?_
  with_reducible refine .set rfl rfl rfl (fun f hf => ?_) ?_
  · cases f <;> first | exact absurd (by decide) hf | exact Eq.refl _
  exact .refl _

theorem receiveHs_does (p : KitPacket) (type : Nat) (s : State) :
    Does [.ports] s (receiveHs p type s).2 := by
  unfold receiveHs
  dsimp only
  split
  · dsimp only [CmdRes.state, stageState]
    exact .refl _
  · split
    · dsimp only [CmdRes.state, stageState]
      exact .next (drop_does ..) (by decide) (.refl _)
    · split
      · dsimp only [CmdRes.state, stageState]
        exact .next (drop_does ..) (by decide) (.refl _)
      · split
        · dsimp only [CmdRes.state, stageState]
          exact .next (drop_does ..) (by decide) (.refl _)
        · split
          · dsimp only [CmdRes.state, stageState]
            exact .next (drop_does ..) (by decide) (.refl _)
          · split
            · dsimp only [CmdRes.state, stageState]
              exact .refl _
            · dsimp only [CmdRes.state, stageState]
              exact .refl _

theorem startHello_does (o : OpenSlot) (s : State) :
    Does [.sec, .ports, .freeCtr] s (startHello o s) := by
  unfold startHello
  dsimp only
  refine .ite (fun _ => ?_) (fun _ => ?_)
  · exact .refl _
  · refine .next (sendHs_does ..) (by decide) ?_
    with_reducible refine .set rfl rfl rfl (fun f hf => ?_) ?_
    · cases f <;> first | exact absurd (by decide) hf | exact Eq.refl _
    exact .next (drawn_does ..) (by decide) (.next (drawn_does ..) (by decide) (.next (drawn_does ..) (by decide)
        (.next (drawn_does ..) (by decide) (.refl _))))

theorem powerRecord_does (code : Nat) (sensor : Nat) (count : Nat) (s : State) :
    Does [.pwr, .blot, .tests, .mem, .pages, .sched, .cells, .regHeld, .hostSigs, .batches] s (powerRecord code sensor count s) := by
  unfold powerRecord
  dsimp only
  refine .ite (fun _ => ?_) (fun _ => ?_)
  · exact .refl _
  · refine .next (emitErr_does ..) (by decide) ?_
    with_reducible refine .set rfl rfl rfl (fun f hf => ?_) ?_
    · cases f <;> first | exact absurd (by decide) hf | exact Eq.refl _
    exact .refl _

theorem setTemp_does (sensor : Nat) (t : Int) (s : State) :
    Does [.pwr] s (setTemp sensor t s) := by
  unfold setTemp
  dsimp only
  with_reducible refine .set rfl rfl rfl (fun f hf => ?_) ?_
  · cases f <;> first | exact absurd (by decide) hf | exact Eq.refl _
  exact .refl _

theorem holdMargin_does (s : State) :
    Does [.pwr] s (holdMargin s) := by
  unfold holdMargin
  dsimp only
  with_reducible refine .set rfl rfl rfl (fun f hf => ?_) ?_
  · cases f <;> first | exact absurd (by decide) hf | exact Eq.refl _
  exact .refl _

theorem extendMr_does (k : Nat) (type : Nat) (data : Bytes) (s : State) :
    Does [.sec] s (extendMr k type data s) := by
  unfold extendMr
  dsimp only
  refine .ite (fun _ => ?_) (fun _ => ?_)
  · with_reducible refine .set rfl rfl rfl (fun f hf => ?_) ?_
    · cases f <;> first | exact absurd (by decide) hf | exact Eq.refl _
    exact .refl _
  · with_reducible refine .set rfl rfl rfl (fun f hf => ?_) ?_
    · cases f <;> first | exact absurd (by decide) hf | exact Eq.refl _
    exact .refl _

theorem measureFuses_does (s : State) :
    Does [.sec] s (measureFuses s) := by
  unfold measureFuses
  dsimp only
  exact .next (extendMr_does ..) (by decide) (.refl _)

theorem startRom_does (s : State) :
    Does [.pwr, .boot, .sec, .freeCtr] s (startRom s) := by
  unfold startRom
  dsimp only
  refine .next (drawSealKeys_does ..) (by decide) (.next (measureFuses_does ..) (by decide) ?_)
  with_reducible refine .set rfl rfl rfl (fun f hf => ?_) ?_
  · cases f <;> first | exact absurd (by decide) hf | exact Eq.refl _
  exact .refl _

theorem setLink_does (m : Nat) (l : MailboxLink) (s : State) :
    Does [.links] s (setLink m l s) := by
  unfold setLink
  with_reducible refine .set rfl rfl rfl (fun f hf => ?_) ?_
  · cases f <;> first | exact absurd (by decide) hf | exact Eq.refl _
  exact .refl _

theorem requestIn_does (m : Nat) (p : KitPacket) (bs : Bytes) (s : State) :
    Does [.blot, .tests, .mboxes, .links, .taken, .mem, .pages, .sched, .queues, .cells, .regHeld, .queueWaits, .hostSigs,
      .batches, .freeCtr] s (requestIn m p bs s) := by
  unfold requestIn
  dsimp only
  refine .ite (fun _ => ?_) (fun _ => ?_)
  · exact .next (setMbox_does ..) (by decide) (.next (commitPacket_does ..) (by decide) (.next (setLink_does ..) (by decide)
        (.refl _)))
  · refine .ite (fun _ => ?_) (fun _ => ?_)
    · exact .next (doorbell_does ..) (by decide) (.next (commitPacket_does ..) (by decide) (.next (setLink_does ..) (by decide)
          (.refl _)))
    · exact .next (commitPacket_does ..) (by decide) (.next (setLink_does ..) (by decide) (.refl _))

theorem resetPort_does (p : Nat) (s : State) :
    Does [.ports] s (resetPort p s) := by
  unfold resetPort
  dsimp only
  refine .foldl _ (fun u a => ?_) ?_
  · exact .next (setPort_does ..) (by decide) (.refl _)
  · exact .next (settleBuckets_does ..) (by decide) (.refl _)

theorem resetBody_does (kind : Nat) (target : Nat) (s : State) :
    Does [.pwr, .blot, .tests, .exclusions, .mboxes, .plans, .actions, .zeroing, .mem, .pages, .sched, .queues, .cells, .regHeld,
      .parked, .queueWaits, .remote, .hostSigs, .tables, .stats, .nibs, .matchUnits, .batches, .ports, .tx, .rx, .lines,
        .poolCorr, .freeCtr] s (CmdRes.state s (resetBody kind target s)) := by
  unfold resetBody
  dsimp only
  split
  · dsimp only [CmdRes.state, stageState]
    with_reducible refine .set rfl rfl rfl (fun f hf => ?_) ?_
    · cases f <;> first | exact absurd (by decide) hf | exact Eq.refl _
    exact .refl _
  · split
    · split
      · dsimp only [CmdRes.state, stageState]
        exact .refl _
      · split
        · dsimp only [CmdRes.state, stageState]
          exact .refl _
        · dsimp only [CmdRes.state, stageState]
          exact .next (beginPlanReset_does ..) (by decide) (.refl _)
    · split
      · split
        · dsimp only [CmdRes.state, stageState]
          exact .refl _
        · dsimp only [CmdRes.state, stageState]
          exact .next (resetCluster_does ..) (by decide) (.refl _)
      · split
        · dsimp only [CmdRes.state, stageState]
          exact .refl _
        · dsimp only [CmdRes.state, stageState]
          exact .next (resetPort_does ..) (by decide) (.refl _)

theorem reassemble_does (f : HsFragment) (s : State) :
    Does [.sec] s (reassemble f s).2 := by
  unfold reassemble
  dsimp only
  split
  · split
    · dsimp only [CmdRes.state, stageState]
      with_reducible refine .set rfl rfl rfl (fun f hf => ?_) ?_
      · cases f <;> first | exact absurd (by decide) hf | exact Eq.refl _
      exact .refl _
    · dsimp only [CmdRes.state, stageState]
      with_reducible refine .set rfl rfl rfl (fun f hf => ?_) ?_
      · cases f <;> first | exact absurd (by decide) hf | exact Eq.refl _
      exact .refl _
  · split
    · dsimp only [CmdRes.state, stageState]
      with_reducible refine .set rfl rfl rfl (fun f hf => ?_) ?_
      · cases f <;> first | exact absurd (by decide) hf | exact Eq.refl _
      exact .refl _
    · dsimp only [CmdRes.state, stageState]
      with_reducible refine .set rfl rfl rfl (fun f hf => ?_) ?_
      · cases f <;> first | exact absurd (by decide) hf | exact Eq.refl _
      exact .refl _

theorem loadSlot_does (h : Handshake) (s : State) :
    Does [.sec, .windows, .counters] s (loadSlot h s) := by
  unfold loadSlot
  dsimp only
  with_reducible refine .set rfl rfl rfl (fun f hf => ?_) ?_
  · cases f <;> first | exact absurd (by decide) hf | exact Eq.refl _
  exact .refl _

theorem flushOne_does (m : Nat) (s : State) :
    Does [.mboxes, .queues, .ports, .counters, .sent, .freeCtr] s (flushOne m s) := by
  unfold flushOne
  split
  · exact .next (emitMailbox_does ..) (by decide) (.next (offerResponse_does ..) (by decide)
        (.next (emitMailbox_does ..) (by decide) (.refl _)))
  · exact .refl _

theorem flushResponses_does (s : State) (m : Nat) :
    Does [.mboxes, .queues, .ports, .counters, .sent, .freeCtr] s (flushResponses s m) := by
  unfold flushResponses
  dsimp only
  refine .foldl _ (fun u a => ?_) ?_
  · exact .next (flushOne_does ..) (by decide) (.refl _)
  · exact .refl _

theorem unlockDebug_does (t : Bytes) (s : State) :
    Does [.rul, .boot, .sec, .blot, .tests, .exclusions, .mboxes, .links, .taken, .heldLoads, .plans, .actions, .zeroing, .mem,
      .pages, .allocs, .sched, .queues, .cells, .regHeld, .parked, .queueWaits, .remote, .hostSigs, .streams, .tables,
        .combiners, .joins, .stats, .nibs, .lists, .matchUnits, .batches, .caches, .dips, .ports, .deviceNumber, .neighbours,
          .tx, .rx, .windows, .counters, .lines, .poolCorr, .freeCtr] s (unlockDebug t s) := by
  unfold unlockDebug
  dsimp only
  with_reducible refine .set rfl rfl rfl (fun f hf => ?_) ?_
  · cases f <;> first | exact absurd (by decide) hf | exact Eq.refl _
  exact .next (extendMr_does ..) (by decide) (.next (endSession_does ..) (by decide) (.refl _))

theorem renewNonce_does (s : State) :
    Does [.sec, .freeCtr] s (renewNonce s) := by
  unfold renewNonce
  dsimp only
  with_reducible refine .set rfl rfl rfl (fun f hf => ?_) ?_
  · cases f <;> first | exact absurd (by decide) hf | exact Eq.refl _
  exact .next (drawn_does ..) (by decide) (.refl _)

theorem writeDiscipline_does (c : Nat) (s : State) :
    Does [.rul] s (writeDiscipline c s) := by
  unfold writeDiscipline
  dsimp only
  refine .ite (fun _ => ?_) (fun _ => ?_)
  · refine .next (setLock_does ..) (by decide) ?_
    with_reducible refine .set rfl rfl rfl (fun f hf => ?_) ?_
    · cases f <;> first | exact absurd (by decide) hf | exact Eq.refl _
    exact .refl _
  · refine .ite (fun _ => ?_) (fun _ => ?_)
    · refine .next (setLock_does ..) (by decide) ?_
      with_reducible refine .set rfl rfl rfl (fun f hf => ?_) ?_
      · cases f <;> first | exact absurd (by decide) hf | exact Eq.refl _
      exact .refl _
    · with_reducible refine .set rfl rfl rfl (fun f hf => ?_) ?_
      · cases f <;> first | exact absurd (by decide) hf | exact Eq.refl _
      exact .refl _

theorem setRing_does (k : Nat) (bytes : Nat) (stop : Bool) (rearm : Bool) (s : State) :
    Does [.blot, .tests, .mem, .pages, .sched, .cells, .regHeld, .hostSigs, .batches] s (setRing k bytes stop rearm s) := by
  unfold setRing
  dsimp only
  refine .ite (fun _ => ?_) (fun _ => ?_)
  · refine .ite (fun _ => ?_) (fun _ => ?_)
    · exact .next (setCluster_does ..) (by decide) (.refl _)
    · exact .next (emitErr_does ..) (by decide) (.next (setCluster_does ..) (by decide) (.refl _))
  · exact .next (setCluster_does ..) (by decide) (.refl _)

theorem restorePlan_does (s : State) (e : Nat × Plan) :
    Does [.plans, .queues, .cells, .matchUnits] s (restorePlan s e) := by
  unfold restorePlan
  dsimp only
  refine .next (setPlan_does ..) (by decide) (.next (applyLoads_does ..) (by decide)
      (.next (bindCellValues_does ..) (by decide) ?_))
  refine .foldl _ (fun u a => ?_) ?_
  · exact .next (setQueue_does ..) (by decide) (.refl _)
  · exact .refl _

theorem leaveDormant_does (s : State) :
    Does [.pwr, .plans, .mem, .sched, .queues, .cells, .regHeld, .parked, .queueWaits, .combiners, .joins, .nibs, .lists,
      .matchUnits, .caches, .dips, .lines] s (leaveDormant s) := by
  unfold leaveDormant
  dsimp only
  refine .foldl _ (fun u a => ?_) ?_
  · exact .next (restorePlan_does ..) (by decide) (.refl _)
  · with_reducible refine .set rfl rfl rfl (fun f hf => ?_) ?_
    · cases f <;> first | exact absurd (by decide) hf | exact Eq.refl _
    exact .next (clearClusters_does ..) (by decide) (.next (zeroSram_does ..) (by decide) (.refl _))

theorem powerBody_does (target : Nat) (mask : Nat) (s : State) :
    Does [.pwr, .plans, .mem, .sched, .queues, .cells, .regHeld, .parked, .queueWaits, .combiners, .joins, .nibs, .lists,
      .matchUnits, .caches, .dips, .lines, .poolCorr] s (CmdRes.state s (powerBody target mask s)) := by
  unfold powerBody
  dsimp only
  split
  · dsimp only [CmdRes.state, stageState]
    refine .ite (fun _ => ?_) (fun _ => ?_)
    · exact .next (leaveDormant_does ..) (by decide) (.refl _)
    · exact .refl _
  · split
    · split
      · dsimp only [CmdRes.state, stageState]
        exact .refl _
      · dsimp only [CmdRes.state, stageState]
        with_reducible refine .set rfl rfl rfl (fun f hf => ?_) ?_
        · cases f <;> first | exact absurd (by decide) hf | exact Eq.refl _
        exact .refl _
    · split
      · split
        · dsimp only [CmdRes.state, stageState]
          exact .refl _
        · dsimp only [CmdRes.state, stageState]
          refine .foldl _ (fun u a => ?_) ?_
          · exact .next (clusterOff_does ..) (by decide) (.refl _)
          · exact .refl _
      · dsimp only [CmdRes.state, stageState]
        refine .foldl _ (fun u a => ?_) ?_
        · exact .next (clusterOn_does ..) (by decide) (.refl _)
        · exact .refl _

theorem renumber_does (n : Nat) (s : State) :
    Does [.rul, .plans] s (renumber n s) := by
  unfold renumber
  dsimp only
  with_reducible refine .set rfl rfl rfl (fun f hf => ?_) ?_
  · cases f <;> first | exact absurd (by decide) hf | exact Eq.refl _
  exact .refl _

theorem resumeWait_does (p : Parked) (s : State) :
    Does [.blot, .tests, .mem, .pages, .sched, .queues, .cells, .regHeld, .queueWaits, .hostSigs, .batches,
      .freeCtr] s (resumeWait p s) := by
  unfold resumeWait
  dsimp only
  refine .ite (fun _ => ?_) (fun _ => ?_)
  · exact .next (wakeQueue_does ..) (by decide) (.next (queueWait_does ..) (by decide) (.refl _))
  · exact .next (waitOn_does ..) (by decide) (.refl _)

theorem restartRuling_does (s : State) :
    Does [.clk, .rul] s (restartRuling s) := by
  unfold restartRuling
  dsimp only
  refine .ite (fun _ => ?_) (fun _ => ?_)
  · refine .next (setLock_does ..) (by decide) ?_
    with_reducible refine .set rfl rfl rfl (fun f hf => ?_) ?_
    · cases f <;> first | exact absurd (by decide) hf | exact Eq.refl _
    exact .refl _
  · with_reducible refine .set rfl rfl rfl (fun f hf => ?_) ?_
    · cases f <;> first | exact absurd (by decide) hf | exact Eq.refl _
    exact .refl _

theorem warmReset_does (s : State) :
    Does [.clk, .rul, .pwr, .blot, .tickEvents, .tests, .exclusions, .mboxes, .taken, .heldLoads, .plans, .actions, .zeroing,
      .mem, .pages, .sched, .queues, .cells, .regHeld, .parked, .queueWaits, .remote, .hostSigs, .streams, .tables, .combiners,
        .joins, .stats, .nibs, .lists, .matchUnits, .batches, .caches, .dips, .ports, .tx, .rx, .lines, .poolCorr,
          .freeCtr] s (warmReset s) := by
  unfold warmReset
  dsimp only
  refine .next (refreshBound_does ..) (by decide) (.next (restartRuling_does ..) (by decide) ?_)
  with_reducible refine .set rfl rfl rfl (fun f hf => ?_) ?_
  · cases f <;> first | exact absurd (by decide) hf | exact Eq.refl _
  refine .next (clearEngines_does ..) (by decide) ?_
  with_reducible refine .set rfl rfl rfl (fun f hf => ?_) ?_
  · cases f <;> first | exact absurd (by decide) hf | exact Eq.refl _
  exact .next (unloadAll_does ..) (by decide) (.next (idleMailboxes_does ..) (by decide) (.refl _))

end Sys2Proof.Machine
end

