-- ==== Sys2Proof/Laws/Fields.lean ====
section
/-! SUPPORT. Reading a field of a packed word gives the value that was packed there. -/

namespace Sys2Proof.Machine

/-- The lowest field of a packed word. -/
theorem fld_pack_low (h w v : Nat) (r : List (Nat × Nat)) (hw : h + 1 = w) : fld h 0 (pack ((w, v) :: r)) = v % 2 ^ w := by
  subst hw
  simp only [fld, pack, Nat.shiftRight_zero, Nat.sub_zero]
  rw [Nat.add_mul_mod_self_left, Nat.mod_mod]

/-- A field above the lowest one is a field of the rest. -/
theorem fld_pack_high (h l w v : Nat) (r : List (Nat × Nat)) (hl : w ≤ l) (hh : l ≤ h) :
    fld h l (pack ((w, v) :: r)) = fld (h - w) (l - w) (pack r) := by
  simp only [fld, pack, Nat.shiftRight_eq_div_pow]
  have e : (v % 2 ^ w + 2 ^ w * pack r) / 2 ^ l = pack r / 2 ^ (l - w) := by
    have : 2 ^ l = 2 ^ w * 2 ^ (l - w) := by rw [← Nat.pow_add]; congr 1; omega
    rw [this, ← Nat.div_div_eq_div_mul, Nat.add_mul_div_left _ _ (Nat.two_pow_pos w),
      Nat.div_eq_of_lt (Nat.mod_lt _ (Nat.two_pow_pos w)), Nat.zero_add]
  have e2 : h - w + 1 - (l - w) = h + 1 - l := by omega
  rw [e, e2]

end Sys2Proof.Machine
end

