-- ==== Sys2Proof/Laws/State.lean ====
section
/-! SUPPORT. State: each field after each named update, and what an entry just set reads as. -/

namespace Sys2Proof.Machine

/-! ### advanceTo -/

section

variable (c : Nat) (s : State)

@[simp] theorem advanceTo_variant : (advanceTo c s).variant = s.variant := rfl
@[simp] theorem advanceTo_rul : (advanceTo c s).rul = s.rul := rfl
@[simp] theorem advanceTo_ptp : (advanceTo c s).ptp = s.ptp := rfl
@[simp] theorem advanceTo_pwr : (advanceTo c s).pwr = s.pwr := rfl
@[simp] theorem advanceTo_boot : (advanceTo c s).boot = s.boot := rfl
@[simp] theorem advanceTo_booted : (advanceTo c s).booted = s.booted := rfl
@[simp] theorem advanceTo_sec : (advanceTo c s).sec = s.sec := rfl
@[simp] theorem advanceTo_halted : (advanceTo c s).halted = s.halted := rfl
@[simp] theorem advanceTo_blot : (advanceTo c s).blot = s.blot := rfl
@[simp] theorem advanceTo_tickEvents : (advanceTo c s).tickEvents = s.tickEvents := rfl
@[simp] theorem advanceTo_tests : (advanceTo c s).tests = s.tests := rfl
@[simp] theorem advanceTo_excluded : (advanceTo c s).excluded = s.excluded := rfl
@[simp] theorem advanceTo_exclusions : (advanceTo c s).exclusions = s.exclusions := rfl
@[simp] theorem advanceTo_mboxes : (advanceTo c s).mboxes = s.mboxes := rfl
@[simp] theorem advanceTo_links : (advanceTo c s).links = s.links := rfl
@[simp] theorem advanceTo_taken : (advanceTo c s).taken = s.taken := rfl
@[simp] theorem advanceTo_heldLoads : (advanceTo c s).heldLoads = s.heldLoads := rfl
@[simp] theorem advanceTo_plans : (advanceTo c s).plans = s.plans := rfl
@[simp] theorem advanceTo_actions : (advanceTo c s).actions = s.actions := rfl
@[simp] theorem advanceTo_zeroing : (advanceTo c s).zeroing = s.zeroing := rfl
@[simp] theorem advanceTo_fitReport : (advanceTo c s).fitReport = s.fitReport := rfl
@[simp] theorem advanceTo_mem : (advanceTo c s).mem = s.mem := rfl
@[simp] theorem advanceTo_pages : (advanceTo c s).pages = s.pages := rfl
@[simp] theorem advanceTo_allocs : (advanceTo c s).allocs = s.allocs := rfl
@[simp] theorem advanceTo_sched : (advanceTo c s).sched = s.sched := rfl
@[simp] theorem advanceTo_queues : (advanceTo c s).queues = s.queues := rfl
@[simp] theorem advanceTo_cells : (advanceTo c s).cells = s.cells := rfl
@[simp] theorem advanceTo_regHeld : (advanceTo c s).regHeld = s.regHeld := rfl
@[simp] theorem advanceTo_parked : (advanceTo c s).parked = s.parked := rfl
@[simp] theorem advanceTo_queueWaits : (advanceTo c s).queueWaits = s.queueWaits := rfl
@[simp] theorem advanceTo_remote : (advanceTo c s).remote = s.remote := rfl
@[simp] theorem advanceTo_hostSigs : (advanceTo c s).hostSigs = s.hostSigs := rfl
@[simp] theorem advanceTo_streams : (advanceTo c s).streams = s.streams := rfl
@[simp] theorem advanceTo_tables : (advanceTo c s).tables = s.tables := rfl
@[simp] theorem advanceTo_combiners : (advanceTo c s).combiners = s.combiners := rfl
@[simp] theorem advanceTo_joins : (advanceTo c s).joins = s.joins := rfl
@[simp] theorem advanceTo_stats : (advanceTo c s).stats = s.stats := rfl
@[simp] theorem advanceTo_nibs : (advanceTo c s).nibs = s.nibs := rfl
@[simp] theorem advanceTo_lists : (advanceTo c s).lists = s.lists := rfl
@[simp] theorem advanceTo_matchUnits : (advanceTo c s).matchUnits = s.matchUnits := rfl
@[simp] theorem advanceTo_batches : (advanceTo c s).batches = s.batches := rfl
@[simp] theorem advanceTo_caches : (advanceTo c s).caches = s.caches := rfl
@[simp] theorem advanceTo_dips : (advanceTo c s).dips = s.dips := rfl
@[simp] theorem advanceTo_ports : (advanceTo c s).ports = s.ports := rfl
@[simp] theorem advanceTo_deviceNumber : (advanceTo c s).deviceNumber = s.deviceNumber := rfl
@[simp] theorem advanceTo_neighbours : (advanceTo c s).neighbours = s.neighbours := rfl
@[simp] theorem advanceTo_tx : (advanceTo c s).tx = s.tx := rfl
@[simp] theorem advanceTo_rx : (advanceTo c s).rx = s.rx := rfl
@[simp] theorem advanceTo_windows : (advanceTo c s).windows = s.windows := rfl
@[simp] theorem advanceTo_counters : (advanceTo c s).counters = s.counters := rfl
@[simp] theorem advanceTo_sent : (advanceTo c s).sent = s.sent := rfl
@[simp] theorem advanceTo_jtagBypass : (advanceTo c s).jtagBypass = s.jtagBypass := rfl
@[simp] theorem advanceTo_tlmAck : (advanceTo c s).tlmAck = s.tlmAck := rfl
@[simp] theorem advanceTo_jtagOut : (advanceTo c s).jtagOut = s.jtagOut := rfl
@[simp] theorem advanceTo_ppsOut : (advanceTo c s).ppsOut = s.ppsOut := rfl
@[simp] theorem advanceTo_lanesDown : (advanceTo c s).lanesDown = s.lanesDown := rfl
@[simp] theorem advanceTo_linksDown : (advanceTo c s).linksDown = s.linksDown := rfl
@[simp] theorem advanceTo_lines : (advanceTo c s).lines = s.lines := rfl
@[simp] theorem advanceTo_poolCorr : (advanceTo c s).poolCorr = s.poolCorr := rfl
@[simp] theorem advanceTo_freeCtr : (advanceTo c s).freeCtr = s.freeCtr := rfl
@[simp] theorem advanceTo_pending : (advanceTo c s).pending = s.pending := rfl

end

/-! ### drawn -/

section

variable (s : State)

@[simp] theorem drawn_variant : (drawn s).variant = s.variant := rfl
@[simp] theorem drawn_clk : (drawn s).clk = s.clk := rfl
@[simp] theorem drawn_rul : (drawn s).rul = s.rul := rfl
@[simp] theorem drawn_ptp : (drawn s).ptp = s.ptp := rfl
@[simp] theorem drawn_pwr : (drawn s).pwr = s.pwr := rfl
@[simp] theorem drawn_boot : (drawn s).boot = s.boot := rfl
@[simp] theorem drawn_booted : (drawn s).booted = s.booted := rfl
@[simp] theorem drawn_sec : (drawn s).sec = s.sec := rfl
@[simp] theorem drawn_halted : (drawn s).halted = s.halted := rfl
@[simp] theorem drawn_blot : (drawn s).blot = s.blot := rfl
@[simp] theorem drawn_tickEvents : (drawn s).tickEvents = s.tickEvents := rfl
@[simp] theorem drawn_tests : (drawn s).tests = s.tests := rfl
@[simp] theorem drawn_excluded : (drawn s).excluded = s.excluded := rfl
@[simp] theorem drawn_exclusions : (drawn s).exclusions = s.exclusions := rfl
@[simp] theorem drawn_mboxes : (drawn s).mboxes = s.mboxes := rfl
@[simp] theorem drawn_links : (drawn s).links = s.links := rfl
@[simp] theorem drawn_taken : (drawn s).taken = s.taken := rfl
@[simp] theorem drawn_heldLoads : (drawn s).heldLoads = s.heldLoads := rfl
@[simp] theorem drawn_plans : (drawn s).plans = s.plans := rfl
@[simp] theorem drawn_actions : (drawn s).actions = s.actions := rfl
@[simp] theorem drawn_zeroing : (drawn s).zeroing = s.zeroing := rfl
@[simp] theorem drawn_fitReport : (drawn s).fitReport = s.fitReport := rfl
@[simp] theorem drawn_mem : (drawn s).mem = s.mem := rfl
@[simp] theorem drawn_pages : (drawn s).pages = s.pages := rfl
@[simp] theorem drawn_allocs : (drawn s).allocs = s.allocs := rfl
@[simp] theorem drawn_sched : (drawn s).sched = s.sched := rfl
@[simp] theorem drawn_queues : (drawn s).queues = s.queues := rfl
@[simp] theorem drawn_cells : (drawn s).cells = s.cells := rfl
@[simp] theorem drawn_regHeld : (drawn s).regHeld = s.regHeld := rfl
@[simp] theorem drawn_parked : (drawn s).parked = s.parked := rfl
@[simp] theorem drawn_queueWaits : (drawn s).queueWaits = s.queueWaits := rfl
@[simp] theorem drawn_remote : (drawn s).remote = s.remote := rfl
@[simp] theorem drawn_hostSigs : (drawn s).hostSigs = s.hostSigs := rfl
@[simp] theorem drawn_streams : (drawn s).streams = s.streams := rfl
@[simp] theorem drawn_tables : (drawn s).tables = s.tables := rfl
@[simp] theorem drawn_combiners : (drawn s).combiners = s.combiners := rfl
@[simp] theorem drawn_joins : (drawn s).joins = s.joins := rfl
@[simp] theorem drawn_stats : (drawn s).stats = s.stats := rfl
@[simp] theorem drawn_nibs : (drawn s).nibs = s.nibs := rfl
@[simp] theorem drawn_lists : (drawn s).lists = s.lists := rfl
@[simp] theorem drawn_matchUnits : (drawn s).matchUnits = s.matchUnits := rfl
@[simp] theorem drawn_batches : (drawn s).batches = s.batches := rfl
@[simp] theorem drawn_caches : (drawn s).caches = s.caches := rfl
@[simp] theorem drawn_dips : (drawn s).dips = s.dips := rfl
@[simp] theorem drawn_ports : (drawn s).ports = s.ports := rfl
@[simp] theorem drawn_deviceNumber : (drawn s).deviceNumber = s.deviceNumber := rfl
@[simp] theorem drawn_neighbours : (drawn s).neighbours = s.neighbours := rfl
@[simp] theorem drawn_tx : (drawn s).tx = s.tx := rfl
@[simp] theorem drawn_rx : (drawn s).rx = s.rx := rfl
@[simp] theorem drawn_windows : (drawn s).windows = s.windows := rfl
@[simp] theorem drawn_counters : (drawn s).counters = s.counters := rfl
@[simp] theorem drawn_sent : (drawn s).sent = s.sent := rfl
@[simp] theorem drawn_jtagBypass : (drawn s).jtagBypass = s.jtagBypass := rfl
@[simp] theorem drawn_tlmAck : (drawn s).tlmAck = s.tlmAck := rfl
@[simp] theorem drawn_jtagOut : (drawn s).jtagOut = s.jtagOut := rfl
@[simp] theorem drawn_ppsOut : (drawn s).ppsOut = s.ppsOut := rfl
@[simp] theorem drawn_lanesDown : (drawn s).lanesDown = s.lanesDown := rfl
@[simp] theorem drawn_linksDown : (drawn s).linksDown = s.linksDown := rfl
@[simp] theorem drawn_lines : (drawn s).lines = s.lines := rfl
@[simp] theorem drawn_poolCorr : (drawn s).poolCorr = s.poolCorr := rfl
@[simp] theorem drawn_pending : (drawn s).pending = s.pending := rfl

end

/-! ### setPlan -/

section

variable (slot : Nat) (p : Plan) (s : State)

@[simp] theorem setPlan_variant : (setPlan slot p s).variant = s.variant := rfl
@[simp] theorem setPlan_clk : (setPlan slot p s).clk = s.clk := rfl
@[simp] theorem setPlan_rul : (setPlan slot p s).rul = s.rul := rfl
@[simp] theorem setPlan_ptp : (setPlan slot p s).ptp = s.ptp := rfl
@[simp] theorem setPlan_pwr : (setPlan slot p s).pwr = s.pwr := rfl
@[simp] theorem setPlan_boot : (setPlan slot p s).boot = s.boot := rfl
@[simp] theorem setPlan_booted : (setPlan slot p s).booted = s.booted := rfl
@[simp] theorem setPlan_sec : (setPlan slot p s).sec = s.sec := rfl
@[simp] theorem setPlan_halted : (setPlan slot p s).halted = s.halted := rfl
@[simp] theorem setPlan_blot : (setPlan slot p s).blot = s.blot := rfl
@[simp] theorem setPlan_tickEvents : (setPlan slot p s).tickEvents = s.tickEvents := rfl
@[simp] theorem setPlan_tests : (setPlan slot p s).tests = s.tests := rfl
@[simp] theorem setPlan_excluded : (setPlan slot p s).excluded = s.excluded := rfl
@[simp] theorem setPlan_exclusions : (setPlan slot p s).exclusions = s.exclusions := rfl
@[simp] theorem setPlan_mboxes : (setPlan slot p s).mboxes = s.mboxes := rfl
@[simp] theorem setPlan_links : (setPlan slot p s).links = s.links := rfl
@[simp] theorem setPlan_taken : (setPlan slot p s).taken = s.taken := rfl
@[simp] theorem setPlan_heldLoads : (setPlan slot p s).heldLoads = s.heldLoads := rfl
@[simp] theorem setPlan_actions : (setPlan slot p s).actions = s.actions := rfl
@[simp] theorem setPlan_zeroing : (setPlan slot p s).zeroing = s.zeroing := rfl
@[simp] theorem setPlan_fitReport : (setPlan slot p s).fitReport = s.fitReport := rfl
@[simp] theorem setPlan_mem : (setPlan slot p s).mem = s.mem := rfl
@[simp] theorem setPlan_pages : (setPlan slot p s).pages = s.pages := rfl
@[simp] theorem setPlan_allocs : (setPlan slot p s).allocs = s.allocs := rfl
@[simp] theorem setPlan_sched : (setPlan slot p s).sched = s.sched := rfl
@[simp] theorem setPlan_queues : (setPlan slot p s).queues = s.queues := rfl
@[simp] theorem setPlan_cells : (setPlan slot p s).cells = s.cells := rfl
@[simp] theorem setPlan_regHeld : (setPlan slot p s).regHeld = s.regHeld := rfl
@[simp] theorem setPlan_parked : (setPlan slot p s).parked = s.parked := rfl
@[simp] theorem setPlan_queueWaits : (setPlan slot p s).queueWaits = s.queueWaits := rfl
@[simp] theorem setPlan_remote : (setPlan slot p s).remote = s.remote := rfl
@[simp] theorem setPlan_hostSigs : (setPlan slot p s).hostSigs = s.hostSigs := rfl
@[simp] theorem setPlan_streams : (setPlan slot p s).streams = s.streams := rfl
@[simp] theorem setPlan_tables : (setPlan slot p s).tables = s.tables := rfl
@[simp] theorem setPlan_combiners : (setPlan slot p s).combiners = s.combiners := rfl
@[simp] theorem setPlan_joins : (setPlan slot p s).joins = s.joins := rfl
@[simp] theorem setPlan_stats : (setPlan slot p s).stats = s.stats := rfl
@[simp] theorem setPlan_nibs : (setPlan slot p s).nibs = s.nibs := rfl
@[simp] theorem setPlan_lists : (setPlan slot p s).lists = s.lists := rfl
@[simp] theorem setPlan_matchUnits : (setPlan slot p s).matchUnits = s.matchUnits := rfl
@[simp] theorem setPlan_batches : (setPlan slot p s).batches = s.batches := rfl
@[simp] theorem setPlan_caches : (setPlan slot p s).caches = s.caches := rfl
@[simp] theorem setPlan_dips : (setPlan slot p s).dips = s.dips := rfl
@[simp] theorem setPlan_ports : (setPlan slot p s).ports = s.ports := rfl
@[simp] theorem setPlan_deviceNumber : (setPlan slot p s).deviceNumber = s.deviceNumber := rfl
@[simp] theorem setPlan_neighbours : (setPlan slot p s).neighbours = s.neighbours := rfl
@[simp] theorem setPlan_tx : (setPlan slot p s).tx = s.tx := rfl
@[simp] theorem setPlan_rx : (setPlan slot p s).rx = s.rx := rfl
@[simp] theorem setPlan_windows : (setPlan slot p s).windows = s.windows := rfl
@[simp] theorem setPlan_counters : (setPlan slot p s).counters = s.counters := rfl
@[simp] theorem setPlan_sent : (setPlan slot p s).sent = s.sent := rfl
@[simp] theorem setPlan_jtagBypass : (setPlan slot p s).jtagBypass = s.jtagBypass := rfl
@[simp] theorem setPlan_tlmAck : (setPlan slot p s).tlmAck = s.tlmAck := rfl
@[simp] theorem setPlan_jtagOut : (setPlan slot p s).jtagOut = s.jtagOut := rfl
@[simp] theorem setPlan_ppsOut : (setPlan slot p s).ppsOut = s.ppsOut := rfl
@[simp] theorem setPlan_lanesDown : (setPlan slot p s).lanesDown = s.lanesDown := rfl
@[simp] theorem setPlan_linksDown : (setPlan slot p s).linksDown = s.linksDown := rfl
@[simp] theorem setPlan_lines : (setPlan slot p s).lines = s.lines := rfl
@[simp] theorem setPlan_poolCorr : (setPlan slot p s).poolCorr = s.poolCorr := rfl
@[simp] theorem setPlan_freeCtr : (setPlan slot p s).freeCtr = s.freeCtr := rfl
@[simp] theorem setPlan_pending : (setPlan slot p s).pending = s.pending := rfl

end

/-! ### setCluster -/

section

variable (k : Nat) (c : Cluster) (s : State)

@[simp] theorem setCluster_variant : (setCluster k c s).variant = s.variant := rfl
@[simp] theorem setCluster_clk : (setCluster k c s).clk = s.clk := rfl
@[simp] theorem setCluster_rul : (setCluster k c s).rul = s.rul := rfl
@[simp] theorem setCluster_ptp : (setCluster k c s).ptp = s.ptp := rfl
@[simp] theorem setCluster_pwr : (setCluster k c s).pwr = s.pwr := rfl
@[simp] theorem setCluster_boot : (setCluster k c s).boot = s.boot := rfl
@[simp] theorem setCluster_booted : (setCluster k c s).booted = s.booted := rfl
@[simp] theorem setCluster_sec : (setCluster k c s).sec = s.sec := rfl
@[simp] theorem setCluster_halted : (setCluster k c s).halted = s.halted := rfl
@[simp] theorem setCluster_blot : (setCluster k c s).blot = s.blot := rfl
@[simp] theorem setCluster_tickEvents : (setCluster k c s).tickEvents = s.tickEvents := rfl
@[simp] theorem setCluster_tests : (setCluster k c s).tests = s.tests := rfl
@[simp] theorem setCluster_excluded : (setCluster k c s).excluded = s.excluded := rfl
@[simp] theorem setCluster_exclusions : (setCluster k c s).exclusions = s.exclusions := rfl
@[simp] theorem setCluster_mboxes : (setCluster k c s).mboxes = s.mboxes := rfl
@[simp] theorem setCluster_links : (setCluster k c s).links = s.links := rfl
@[simp] theorem setCluster_taken : (setCluster k c s).taken = s.taken := rfl
@[simp] theorem setCluster_heldLoads : (setCluster k c s).heldLoads = s.heldLoads := rfl
@[simp] theorem setCluster_plans : (setCluster k c s).plans = s.plans := rfl
@[simp] theorem setCluster_actions : (setCluster k c s).actions = s.actions := rfl
@[simp] theorem setCluster_zeroing : (setCluster k c s).zeroing = s.zeroing := rfl
@[simp] theorem setCluster_fitReport : (setCluster k c s).fitReport = s.fitReport := rfl
@[simp] theorem setCluster_mem : (setCluster k c s).mem = s.mem := rfl
@[simp] theorem setCluster_pages : (setCluster k c s).pages = s.pages := rfl
@[simp] theorem setCluster_allocs : (setCluster k c s).allocs = s.allocs := rfl
@[simp] theorem setCluster_queues : (setCluster k c s).queues = s.queues := rfl
@[simp] theorem setCluster_cells : (setCluster k c s).cells = s.cells := rfl
@[simp] theorem setCluster_regHeld : (setCluster k c s).regHeld = s.regHeld := rfl
@[simp] theorem setCluster_parked : (setCluster k c s).parked = s.parked := rfl
@[simp] theorem setCluster_queueWaits : (setCluster k c s).queueWaits = s.queueWaits := rfl
@[simp] theorem setCluster_remote : (setCluster k c s).remote = s.remote := rfl
@[simp] theorem setCluster_hostSigs : (setCluster k c s).hostSigs = s.hostSigs := rfl
@[simp] theorem setCluster_streams : (setCluster k c s).streams = s.streams := rfl
@[simp] theorem setCluster_tables : (setCluster k c s).tables = s.tables := rfl
@[simp] theorem setCluster_combiners : (setCluster k c s).combiners = s.combiners := rfl
@[simp] theorem setCluster_joins : (setCluster k c s).joins = s.joins := rfl
@[simp] theorem setCluster_stats : (setCluster k c s).stats = s.stats := rfl
@[simp] theorem setCluster_nibs : (setCluster k c s).nibs = s.nibs := rfl
@[simp] theorem setCluster_lists : (setCluster k c s).lists = s.lists := rfl
@[simp] theorem setCluster_matchUnits : (setCluster k c s).matchUnits = s.matchUnits := rfl
@[simp] theorem setCluster_batches : (setCluster k c s).batches = s.batches := rfl
@[simp] theorem setCluster_caches : (setCluster k c s).caches = s.caches := rfl
@[simp] theorem setCluster_dips : (setCluster k c s).dips = s.dips := rfl
@[simp] theorem setCluster_ports : (setCluster k c s).ports = s.ports := rfl
@[simp] theorem setCluster_deviceNumber : (setCluster k c s).deviceNumber = s.deviceNumber := rfl
@[simp] theorem setCluster_neighbours : (setCluster k c s).neighbours = s.neighbours := rfl
@[simp] theorem setCluster_tx : (setCluster k c s).tx = s.tx := rfl
@[simp] theorem setCluster_rx : (setCluster k c s).rx = s.rx := rfl
@[simp] theorem setCluster_windows : (setCluster k c s).windows = s.windows := rfl
@[simp] theorem setCluster_counters : (setCluster k c s).counters = s.counters := rfl
@[simp] theorem setCluster_sent : (setCluster k c s).sent = s.sent := rfl
@[simp] theorem setCluster_jtagBypass : (setCluster k c s).jtagBypass = s.jtagBypass := rfl
@[simp] theorem setCluster_tlmAck : (setCluster k c s).tlmAck = s.tlmAck := rfl
@[simp] theorem setCluster_jtagOut : (setCluster k c s).jtagOut = s.jtagOut := rfl
@[simp] theorem setCluster_ppsOut : (setCluster k c s).ppsOut = s.ppsOut := rfl
@[simp] theorem setCluster_lanesDown : (setCluster k c s).lanesDown = s.lanesDown := rfl
@[simp] theorem setCluster_linksDown : (setCluster k c s).linksDown = s.linksDown := rfl
@[simp] theorem setCluster_lines : (setCluster k c s).lines = s.lines := rfl
@[simp] theorem setCluster_poolCorr : (setCluster k c s).poolCorr = s.poolCorr := rfl
@[simp] theorem setCluster_freeCtr : (setCluster k c s).freeCtr = s.freeCtr := rfl
@[simp] theorem setCluster_pending : (setCluster k c s).pending = s.pending := rfl

end

/-! ### setCell -/

section

variable (n : Nat) (c : SigCell) (s : State)

@[simp] theorem setCell_variant : (setCell n c s).variant = s.variant := rfl
@[simp] theorem setCell_clk : (setCell n c s).clk = s.clk := rfl
@[simp] theorem setCell_rul : (setCell n c s).rul = s.rul := rfl
@[simp] theorem setCell_ptp : (setCell n c s).ptp = s.ptp := rfl
@[simp] theorem setCell_pwr : (setCell n c s).pwr = s.pwr := rfl
@[simp] theorem setCell_boot : (setCell n c s).boot = s.boot := rfl
@[simp] theorem setCell_booted : (setCell n c s).booted = s.booted := rfl
@[simp] theorem setCell_sec : (setCell n c s).sec = s.sec := rfl
@[simp] theorem setCell_halted : (setCell n c s).halted = s.halted := rfl
@[simp] theorem setCell_blot : (setCell n c s).blot = s.blot := rfl
@[simp] theorem setCell_tickEvents : (setCell n c s).tickEvents = s.tickEvents := rfl
@[simp] theorem setCell_tests : (setCell n c s).tests = s.tests := rfl
@[simp] theorem setCell_excluded : (setCell n c s).excluded = s.excluded := rfl
@[simp] theorem setCell_exclusions : (setCell n c s).exclusions = s.exclusions := rfl
@[simp] theorem setCell_mboxes : (setCell n c s).mboxes = s.mboxes := rfl
@[simp] theorem setCell_links : (setCell n c s).links = s.links := rfl
@[simp] theorem setCell_taken : (setCell n c s).taken = s.taken := rfl
@[simp] theorem setCell_heldLoads : (setCell n c s).heldLoads = s.heldLoads := rfl
@[simp] theorem setCell_plans : (setCell n c s).plans = s.plans := rfl
@[simp] theorem setCell_actions : (setCell n c s).actions = s.actions := rfl
@[simp] theorem setCell_zeroing : (setCell n c s).zeroing = s.zeroing := rfl
@[simp] theorem setCell_fitReport : (setCell n c s).fitReport = s.fitReport := rfl
@[simp] theorem setCell_mem : (setCell n c s).mem = s.mem := rfl
@[simp] theorem setCell_pages : (setCell n c s).pages = s.pages := rfl
@[simp] theorem setCell_allocs : (setCell n c s).allocs = s.allocs := rfl
@[simp] theorem setCell_sched : (setCell n c s).sched = s.sched := rfl
@[simp] theorem setCell_queues : (setCell n c s).queues = s.queues := rfl
@[simp] theorem setCell_regHeld : (setCell n c s).regHeld = s.regHeld := rfl
@[simp] theorem setCell_parked : (setCell n c s).parked = s.parked := rfl
@[simp] theorem setCell_queueWaits : (setCell n c s).queueWaits = s.queueWaits := rfl
@[simp] theorem setCell_remote : (setCell n c s).remote = s.remote := rfl
@[simp] theorem setCell_hostSigs : (setCell n c s).hostSigs = s.hostSigs := rfl
@[simp] theorem setCell_streams : (setCell n c s).streams = s.streams := rfl
@[simp] theorem setCell_tables : (setCell n c s).tables = s.tables := rfl
@[simp] theorem setCell_combiners : (setCell n c s).combiners = s.combiners := rfl
@[simp] theorem setCell_joins : (setCell n c s).joins = s.joins := rfl
@[simp] theorem setCell_stats : (setCell n c s).stats = s.stats := rfl
@[simp] theorem setCell_nibs : (setCell n c s).nibs = s.nibs := rfl
@[simp] theorem setCell_lists : (setCell n c s).lists = s.lists := rfl
@[simp] theorem setCell_matchUnits : (setCell n c s).matchUnits = s.matchUnits := rfl
@[simp] theorem setCell_batches : (setCell n c s).batches = s.batches := rfl
@[simp] theorem setCell_caches : (setCell n c s).caches = s.caches := rfl
@[simp] theorem setCell_dips : (setCell n c s).dips = s.dips := rfl
@[simp] theorem setCell_ports : (setCell n c s).ports = s.ports := rfl
@[simp] theorem setCell_deviceNumber : (setCell n c s).deviceNumber = s.deviceNumber := rfl
@[simp] theorem setCell_neighbours : (setCell n c s).neighbours = s.neighbours := rfl
@[simp] theorem setCell_tx : (setCell n c s).tx = s.tx := rfl
@[simp] theorem setCell_rx : (setCell n c s).rx = s.rx := rfl
@[simp] theorem setCell_windows : (setCell n c s).windows = s.windows := rfl
@[simp] theorem setCell_counters : (setCell n c s).counters = s.counters := rfl
@[simp] theorem setCell_sent : (setCell n c s).sent = s.sent := rfl
@[simp] theorem setCell_jtagBypass : (setCell n c s).jtagBypass = s.jtagBypass := rfl
@[simp] theorem setCell_tlmAck : (setCell n c s).tlmAck = s.tlmAck := rfl
@[simp] theorem setCell_jtagOut : (setCell n c s).jtagOut = s.jtagOut := rfl
@[simp] theorem setCell_ppsOut : (setCell n c s).ppsOut = s.ppsOut := rfl
@[simp] theorem setCell_lanesDown : (setCell n c s).lanesDown = s.lanesDown := rfl
@[simp] theorem setCell_linksDown : (setCell n c s).linksDown = s.linksDown := rfl
@[simp] theorem setCell_lines : (setCell n c s).lines = s.lines := rfl
@[simp] theorem setCell_poolCorr : (setCell n c s).poolCorr = s.poolCorr := rfl
@[simp] theorem setCell_freeCtr : (setCell n c s).freeCtr = s.freeCtr := rfl
@[simp] theorem setCell_pending : (setCell n c s).pending = s.pending := rfl

end

/-! ### setQueue -/

section

variable (q : Nat) (x : Queue) (s : State)

@[simp] theorem setQueue_variant : (setQueue q x s).variant = s.variant := rfl
@[simp] theorem setQueue_clk : (setQueue q x s).clk = s.clk := rfl
@[simp] theorem setQueue_rul : (setQueue q x s).rul = s.rul := rfl
@[simp] theorem setQueue_ptp : (setQueue q x s).ptp = s.ptp := rfl
@[simp] theorem setQueue_pwr : (setQueue q x s).pwr = s.pwr := rfl
@[simp] theorem setQueue_boot : (setQueue q x s).boot = s.boot := rfl
@[simp] theorem setQueue_booted : (setQueue q x s).booted = s.booted := rfl
@[simp] theorem setQueue_sec : (setQueue q x s).sec = s.sec := rfl
@[simp] theorem setQueue_halted : (setQueue q x s).halted = s.halted := rfl
@[simp] theorem setQueue_blot : (setQueue q x s).blot = s.blot := rfl
@[simp] theorem setQueue_tickEvents : (setQueue q x s).tickEvents = s.tickEvents := rfl
@[simp] theorem setQueue_tests : (setQueue q x s).tests = s.tests := rfl
@[simp] theorem setQueue_excluded : (setQueue q x s).excluded = s.excluded := rfl
@[simp] theorem setQueue_exclusions : (setQueue q x s).exclusions = s.exclusions := rfl
@[simp] theorem setQueue_mboxes : (setQueue q x s).mboxes = s.mboxes := rfl
@[simp] theorem setQueue_links : (setQueue q x s).links = s.links := rfl
@[simp] theorem setQueue_taken : (setQueue q x s).taken = s.taken := rfl
@[simp] theorem setQueue_heldLoads : (setQueue q x s).heldLoads = s.heldLoads := rfl
@[simp] theorem setQueue_plans : (setQueue q x s).plans = s.plans := rfl
@[simp] theorem setQueue_actions : (setQueue q x s).actions = s.actions := rfl
@[simp] theorem setQueue_zeroing : (setQueue q x s).zeroing = s.zeroing := rfl
@[simp] theorem setQueue_fitReport : (setQueue q x s).fitReport = s.fitReport := rfl
@[simp] theorem setQueue_mem : (setQueue q x s).mem = s.mem := rfl
@[simp] theorem setQueue_pages : (setQueue q x s).pages = s.pages := rfl
@[simp] theorem setQueue_allocs : (setQueue q x s).allocs = s.allocs := rfl
@[simp] theorem setQueue_sched : (setQueue q x s).sched = s.sched := rfl
@[simp] theorem setQueue_cells : (setQueue q x s).cells = s.cells := rfl
@[simp] theorem setQueue_regHeld : (setQueue q x s).regHeld = s.regHeld := rfl
@[simp] theorem setQueue_parked : (setQueue q x s).parked = s.parked := rfl
@[simp] theorem setQueue_queueWaits : (setQueue q x s).queueWaits = s.queueWaits := rfl
@[simp] theorem setQueue_remote : (setQueue q x s).remote = s.remote := rfl
@[simp] theorem setQueue_hostSigs : (setQueue q x s).hostSigs = s.hostSigs := rfl
@[simp] theorem setQueue_streams : (setQueue q x s).streams = s.streams := rfl
@[simp] theorem setQueue_tables : (setQueue q x s).tables = s.tables := rfl
@[simp] theorem setQueue_combiners : (setQueue q x s).combiners = s.combiners := rfl
@[simp] theorem setQueue_joins : (setQueue q x s).joins = s.joins := rfl
@[simp] theorem setQueue_stats : (setQueue q x s).stats = s.stats := rfl
@[simp] theorem setQueue_nibs : (setQueue q x s).nibs = s.nibs := rfl
@[simp] theorem setQueue_lists : (setQueue q x s).lists = s.lists := rfl
@[simp] theorem setQueue_matchUnits : (setQueue q x s).matchUnits = s.matchUnits := rfl
@[simp] theorem setQueue_batches : (setQueue q x s).batches = s.batches := rfl
@[simp] theorem setQueue_caches : (setQueue q x s).caches = s.caches := rfl
@[simp] theorem setQueue_dips : (setQueue q x s).dips = s.dips := rfl
@[simp] theorem setQueue_ports : (setQueue q x s).ports = s.ports := rfl
@[simp] theorem setQueue_deviceNumber : (setQueue q x s).deviceNumber = s.deviceNumber := rfl
@[simp] theorem setQueue_neighbours : (setQueue q x s).neighbours = s.neighbours := rfl
@[simp] theorem setQueue_tx : (setQueue q x s).tx = s.tx := rfl
@[simp] theorem setQueue_rx : (setQueue q x s).rx = s.rx := rfl
@[simp] theorem setQueue_windows : (setQueue q x s).windows = s.windows := rfl
@[simp] theorem setQueue_counters : (setQueue q x s).counters = s.counters := rfl
@[simp] theorem setQueue_sent : (setQueue q x s).sent = s.sent := rfl
@[simp] theorem setQueue_jtagBypass : (setQueue q x s).jtagBypass = s.jtagBypass := rfl
@[simp] theorem setQueue_tlmAck : (setQueue q x s).tlmAck = s.tlmAck := rfl
@[simp] theorem setQueue_jtagOut : (setQueue q x s).jtagOut = s.jtagOut := rfl
@[simp] theorem setQueue_ppsOut : (setQueue q x s).ppsOut = s.ppsOut := rfl
@[simp] theorem setQueue_lanesDown : (setQueue q x s).lanesDown = s.lanesDown := rfl
@[simp] theorem setQueue_linksDown : (setQueue q x s).linksDown = s.linksDown := rfl
@[simp] theorem setQueue_lines : (setQueue q x s).lines = s.lines := rfl
@[simp] theorem setQueue_poolCorr : (setQueue q x s).poolCorr = s.poolCorr := rfl
@[simp] theorem setQueue_freeCtr : (setQueue q x s).freeCtr = s.freeCtr := rfl
@[simp] theorem setQueue_pending : (setQueue q x s).pending = s.pending := rfl

end

/-! ### setMbox -/

section

variable (m : Nat) (b : Mailbox) (s : State)

@[simp] theorem setMbox_variant : (setMbox m b s).variant = s.variant := rfl
@[simp] theorem setMbox_clk : (setMbox m b s).clk = s.clk := rfl
@[simp] theorem setMbox_rul : (setMbox m b s).rul = s.rul := rfl
@[simp] theorem setMbox_ptp : (setMbox m b s).ptp = s.ptp := rfl
@[simp] theorem setMbox_pwr : (setMbox m b s).pwr = s.pwr := rfl
@[simp] theorem setMbox_boot : (setMbox m b s).boot = s.boot := rfl
@[simp] theorem setMbox_booted : (setMbox m b s).booted = s.booted := rfl
@[simp] theorem setMbox_sec : (setMbox m b s).sec = s.sec := rfl
@[simp] theorem setMbox_halted : (setMbox m b s).halted = s.halted := rfl
@[simp] theorem setMbox_blot : (setMbox m b s).blot = s.blot := rfl
@[simp] theorem setMbox_tickEvents : (setMbox m b s).tickEvents = s.tickEvents := rfl
@[simp] theorem setMbox_tests : (setMbox m b s).tests = s.tests := rfl
@[simp] theorem setMbox_excluded : (setMbox m b s).excluded = s.excluded := rfl
@[simp] theorem setMbox_exclusions : (setMbox m b s).exclusions = s.exclusions := rfl
@[simp] theorem setMbox_links : (setMbox m b s).links = s.links := rfl
@[simp] theorem setMbox_taken : (setMbox m b s).taken = s.taken := rfl
@[simp] theorem setMbox_heldLoads : (setMbox m b s).heldLoads = s.heldLoads := rfl
@[simp] theorem setMbox_plans : (setMbox m b s).plans = s.plans := rfl
@[simp] theorem setMbox_actions : (setMbox m b s).actions = s.actions := rfl
@[simp] theorem setMbox_zeroing : (setMbox m b s).zeroing = s.zeroing := rfl
@[simp] theorem setMbox_fitReport : (setMbox m b s).fitReport = s.fitReport := rfl
@[simp] theorem setMbox_mem : (setMbox m b s).mem = s.mem := rfl
@[simp] theorem setMbox_pages : (setMbox m b s).pages = s.pages := rfl
@[simp] theorem setMbox_allocs : (setMbox m b s).allocs = s.allocs := rfl
@[simp] theorem setMbox_sched : (setMbox m b s).sched = s.sched := rfl
@[simp] theorem setMbox_queues : (setMbox m b s).queues = s.queues := rfl
@[simp] theorem setMbox_cells : (setMbox m b s).cells = s.cells := rfl
@[simp] theorem setMbox_regHeld : (setMbox m b s).regHeld = s.regHeld := rfl
@[simp] theorem setMbox_parked : (setMbox m b s).parked = s.parked := rfl
@[simp] theorem setMbox_queueWaits : (setMbox m b s).queueWaits = s.queueWaits := rfl
@[simp] theorem setMbox_remote : (setMbox m b s).remote = s.remote := rfl
@[simp] theorem setMbox_hostSigs : (setMbox m b s).hostSigs = s.hostSigs := rfl
@[simp] theorem setMbox_streams : (setMbox m b s).streams = s.streams := rfl
@[simp] theorem setMbox_tables : (setMbox m b s).tables = s.tables := rfl
@[simp] theorem setMbox_combiners : (setMbox m b s).combiners = s.combiners := rfl
@[simp] theorem setMbox_joins : (setMbox m b s).joins = s.joins := rfl
@[simp] theorem setMbox_stats : (setMbox m b s).stats = s.stats := rfl
@[simp] theorem setMbox_nibs : (setMbox m b s).nibs = s.nibs := rfl
@[simp] theorem setMbox_lists : (setMbox m b s).lists = s.lists := rfl
@[simp] theorem setMbox_matchUnits : (setMbox m b s).matchUnits = s.matchUnits := rfl
@[simp] theorem setMbox_batches : (setMbox m b s).batches = s.batches := rfl
@[simp] theorem setMbox_caches : (setMbox m b s).caches = s.caches := rfl
@[simp] theorem setMbox_dips : (setMbox m b s).dips = s.dips := rfl
@[simp] theorem setMbox_ports : (setMbox m b s).ports = s.ports := rfl
@[simp] theorem setMbox_deviceNumber : (setMbox m b s).deviceNumber = s.deviceNumber := rfl
@[simp] theorem setMbox_neighbours : (setMbox m b s).neighbours = s.neighbours := rfl
@[simp] theorem setMbox_tx : (setMbox m b s).tx = s.tx := rfl
@[simp] theorem setMbox_rx : (setMbox m b s).rx = s.rx := rfl
@[simp] theorem setMbox_windows : (setMbox m b s).windows = s.windows := rfl
@[simp] theorem setMbox_counters : (setMbox m b s).counters = s.counters := rfl
@[simp] theorem setMbox_sent : (setMbox m b s).sent = s.sent := rfl
@[simp] theorem setMbox_jtagBypass : (setMbox m b s).jtagBypass = s.jtagBypass := rfl
@[simp] theorem setMbox_tlmAck : (setMbox m b s).tlmAck = s.tlmAck := rfl
@[simp] theorem setMbox_jtagOut : (setMbox m b s).jtagOut = s.jtagOut := rfl
@[simp] theorem setMbox_ppsOut : (setMbox m b s).ppsOut = s.ppsOut := rfl
@[simp] theorem setMbox_lanesDown : (setMbox m b s).lanesDown = s.lanesDown := rfl
@[simp] theorem setMbox_linksDown : (setMbox m b s).linksDown = s.linksDown := rfl
@[simp] theorem setMbox_lines : (setMbox m b s).lines = s.lines := rfl
@[simp] theorem setMbox_poolCorr : (setMbox m b s).poolCorr = s.poolCorr := rfl
@[simp] theorem setMbox_freeCtr : (setMbox m b s).freeCtr = s.freeCtr := rfl
@[simp] theorem setMbox_pending : (setMbox m b s).pending = s.pending := rfl

end

/-! ### setJoin -/

section

variable (slot : Nat) (table : Nat) (j : Join) (s : State)

@[simp] theorem setJoin_variant : (setJoin slot table j s).variant = s.variant := rfl
@[simp] theorem setJoin_clk : (setJoin slot table j s).clk = s.clk := rfl
@[simp] theorem setJoin_rul : (setJoin slot table j s).rul = s.rul := rfl
@[simp] theorem setJoin_ptp : (setJoin slot table j s).ptp = s.ptp := rfl
@[simp] theorem setJoin_pwr : (setJoin slot table j s).pwr = s.pwr := rfl
@[simp] theorem setJoin_boot : (setJoin slot table j s).boot = s.boot := rfl
@[simp] theorem setJoin_booted : (setJoin slot table j s).booted = s.booted := rfl
@[simp] theorem setJoin_sec : (setJoin slot table j s).sec = s.sec := rfl
@[simp] theorem setJoin_halted : (setJoin slot table j s).halted = s.halted := rfl
@[simp] theorem setJoin_blot : (setJoin slot table j s).blot = s.blot := rfl
@[simp] theorem setJoin_tickEvents : (setJoin slot table j s).tickEvents = s.tickEvents := rfl
@[simp] theorem setJoin_tests : (setJoin slot table j s).tests = s.tests := rfl
@[simp] theorem setJoin_excluded : (setJoin slot table j s).excluded = s.excluded := rfl
@[simp] theorem setJoin_exclusions : (setJoin slot table j s).exclusions = s.exclusions := rfl
@[simp] theorem setJoin_mboxes : (setJoin slot table j s).mboxes = s.mboxes := rfl
@[simp] theorem setJoin_links : (setJoin slot table j s).links = s.links := rfl
@[simp] theorem setJoin_taken : (setJoin slot table j s).taken = s.taken := rfl
@[simp] theorem setJoin_heldLoads : (setJoin slot table j s).heldLoads = s.heldLoads := rfl
@[simp] theorem setJoin_plans : (setJoin slot table j s).plans = s.plans := rfl
@[simp] theorem setJoin_actions : (setJoin slot table j s).actions = s.actions := rfl
@[simp] theorem setJoin_zeroing : (setJoin slot table j s).zeroing = s.zeroing := rfl
@[simp] theorem setJoin_fitReport : (setJoin slot table j s).fitReport = s.fitReport := rfl
@[simp] theorem setJoin_mem : (setJoin slot table j s).mem = s.mem := rfl
@[simp] theorem setJoin_pages : (setJoin slot table j s).pages = s.pages := rfl
@[simp] theorem setJoin_allocs : (setJoin slot table j s).allocs = s.allocs := rfl
@[simp] theorem setJoin_sched : (setJoin slot table j s).sched = s.sched := rfl
@[simp] theorem setJoin_queues : (setJoin slot table j s).queues = s.queues := rfl
@[simp] theorem setJoin_cells : (setJoin slot table j s).cells = s.cells := rfl
@[simp] theorem setJoin_regHeld : (setJoin slot table j s).regHeld = s.regHeld := rfl
@[simp] theorem setJoin_parked : (setJoin slot table j s).parked = s.parked := rfl
@[simp] theorem setJoin_queueWaits : (setJoin slot table j s).queueWaits = s.queueWaits := rfl
@[simp] theorem setJoin_remote : (setJoin slot table j s).remote = s.remote := rfl
@[simp] theorem setJoin_hostSigs : (setJoin slot table j s).hostSigs = s.hostSigs := rfl
@[simp] theorem setJoin_streams : (setJoin slot table j s).streams = s.streams := rfl
@[simp] theorem setJoin_tables : (setJoin slot table j s).tables = s.tables := rfl
@[simp] theorem setJoin_combiners : (setJoin slot table j s).combiners = s.combiners := rfl
@[simp] theorem setJoin_stats : (setJoin slot table j s).stats = s.stats := rfl
@[simp] theorem setJoin_nibs : (setJoin slot table j s).nibs = s.nibs := rfl
@[simp] theorem setJoin_lists : (setJoin slot table j s).lists = s.lists := rfl
@[simp] theorem setJoin_matchUnits : (setJoin slot table j s).matchUnits = s.matchUnits := rfl
@[simp] theorem setJoin_batches : (setJoin slot table j s).batches = s.batches := rfl
@[simp] theorem setJoin_caches : (setJoin slot table j s).caches = s.caches := rfl
@[simp] theorem setJoin_dips : (setJoin slot table j s).dips = s.dips := rfl
@[simp] theorem setJoin_ports : (setJoin slot table j s).ports = s.ports := rfl
@[simp] theorem setJoin_deviceNumber : (setJoin slot table j s).deviceNumber = s.deviceNumber := rfl
@[simp] theorem setJoin_neighbours : (setJoin slot table j s).neighbours = s.neighbours := rfl
@[simp] theorem setJoin_tx : (setJoin slot table j s).tx = s.tx := rfl
@[simp] theorem setJoin_rx : (setJoin slot table j s).rx = s.rx := rfl
@[simp] theorem setJoin_windows : (setJoin slot table j s).windows = s.windows := rfl
@[simp] theorem setJoin_counters : (setJoin slot table j s).counters = s.counters := rfl
@[simp] theorem setJoin_sent : (setJoin slot table j s).sent = s.sent := rfl
@[simp] theorem setJoin_jtagBypass : (setJoin slot table j s).jtagBypass = s.jtagBypass := rfl
@[simp] theorem setJoin_tlmAck : (setJoin slot table j s).tlmAck = s.tlmAck := rfl
@[simp] theorem setJoin_jtagOut : (setJoin slot table j s).jtagOut = s.jtagOut := rfl
@[simp] theorem setJoin_ppsOut : (setJoin slot table j s).ppsOut = s.ppsOut := rfl
@[simp] theorem setJoin_lanesDown : (setJoin slot table j s).lanesDown = s.lanesDown := rfl
@[simp] theorem setJoin_linksDown : (setJoin slot table j s).linksDown = s.linksDown := rfl
@[simp] theorem setJoin_lines : (setJoin slot table j s).lines = s.lines := rfl
@[simp] theorem setJoin_poolCorr : (setJoin slot table j s).poolCorr = s.poolCorr := rfl
@[simp] theorem setJoin_freeCtr : (setJoin slot table j s).freeCtr = s.freeCtr := rfl
@[simp] theorem setJoin_pending : (setJoin slot table j s).pending = s.pending := rfl

end

/-! ### setStat -/

section

variable (slot : Nat) (ref : Nat) (x : StatObj) (s : State)

@[simp] theorem setStat_variant : (setStat slot ref x s).variant = s.variant := rfl
@[simp] theorem setStat_clk : (setStat slot ref x s).clk = s.clk := rfl
@[simp] theorem setStat_rul : (setStat slot ref x s).rul = s.rul := rfl
@[simp] theorem setStat_ptp : (setStat slot ref x s).ptp = s.ptp := rfl
@[simp] theorem setStat_pwr : (setStat slot ref x s).pwr = s.pwr := rfl
@[simp] theorem setStat_boot : (setStat slot ref x s).boot = s.boot := rfl
@[simp] theorem setStat_booted : (setStat slot ref x s).booted = s.booted := rfl
@[simp] theorem setStat_sec : (setStat slot ref x s).sec = s.sec := rfl
@[simp] theorem setStat_halted : (setStat slot ref x s).halted = s.halted := rfl
@[simp] theorem setStat_blot : (setStat slot ref x s).blot = s.blot := rfl
@[simp] theorem setStat_tickEvents : (setStat slot ref x s).tickEvents = s.tickEvents := rfl
@[simp] theorem setStat_tests : (setStat slot ref x s).tests = s.tests := rfl
@[simp] theorem setStat_excluded : (setStat slot ref x s).excluded = s.excluded := rfl
@[simp] theorem setStat_exclusions : (setStat slot ref x s).exclusions = s.exclusions := rfl
@[simp] theorem setStat_mboxes : (setStat slot ref x s).mboxes = s.mboxes := rfl
@[simp] theorem setStat_links : (setStat slot ref x s).links = s.links := rfl
@[simp] theorem setStat_taken : (setStat slot ref x s).taken = s.taken := rfl
@[simp] theorem setStat_heldLoads : (setStat slot ref x s).heldLoads = s.heldLoads := rfl
@[simp] theorem setStat_plans : (setStat slot ref x s).plans = s.plans := rfl
@[simp] theorem setStat_actions : (setStat slot ref x s).actions = s.actions := rfl
@[simp] theorem setStat_zeroing : (setStat slot ref x s).zeroing = s.zeroing := rfl
@[simp] theorem setStat_fitReport : (setStat slot ref x s).fitReport = s.fitReport := rfl
@[simp] theorem setStat_mem : (setStat slot ref x s).mem = s.mem := rfl
@[simp] theorem setStat_pages : (setStat slot ref x s).pages = s.pages := rfl
@[simp] theorem setStat_allocs : (setStat slot ref x s).allocs = s.allocs := rfl
@[simp] theorem setStat_sched : (setStat slot ref x s).sched = s.sched := rfl
@[simp] theorem setStat_queues : (setStat slot ref x s).queues = s.queues := rfl
@[simp] theorem setStat_cells : (setStat slot ref x s).cells = s.cells := rfl
@[simp] theorem setStat_regHeld : (setStat slot ref x s).regHeld = s.regHeld := rfl
@[simp] theorem setStat_parked : (setStat slot ref x s).parked = s.parked := rfl
@[simp] theorem setStat_queueWaits : (setStat slot ref x s).queueWaits = s.queueWaits := rfl
@[simp] theorem setStat_remote : (setStat slot ref x s).remote = s.remote := rfl
@[simp] theorem setStat_hostSigs : (setStat slot ref x s).hostSigs = s.hostSigs := rfl
@[simp] theorem setStat_streams : (setStat slot ref x s).streams = s.streams := rfl
@[simp] theorem setStat_tables : (setStat slot ref x s).tables = s.tables := rfl
@[simp] theorem setStat_combiners : (setStat slot ref x s).combiners = s.combiners := rfl
@[simp] theorem setStat_joins : (setStat slot ref x s).joins = s.joins := rfl
@[simp] theorem setStat_nibs : (setStat slot ref x s).nibs = s.nibs := rfl
@[simp] theorem setStat_lists : (setStat slot ref x s).lists = s.lists := rfl
@[simp] theorem setStat_matchUnits : (setStat slot ref x s).matchUnits = s.matchUnits := rfl
@[simp] theorem setStat_batches : (setStat slot ref x s).batches = s.batches := rfl
@[simp] theorem setStat_caches : (setStat slot ref x s).caches = s.caches := rfl
@[simp] theorem setStat_dips : (setStat slot ref x s).dips = s.dips := rfl
@[simp] theorem setStat_ports : (setStat slot ref x s).ports = s.ports := rfl
@[simp] theorem setStat_deviceNumber : (setStat slot ref x s).deviceNumber = s.deviceNumber := rfl
@[simp] theorem setStat_neighbours : (setStat slot ref x s).neighbours = s.neighbours := rfl
@[simp] theorem setStat_tx : (setStat slot ref x s).tx = s.tx := rfl
@[simp] theorem setStat_rx : (setStat slot ref x s).rx = s.rx := rfl
@[simp] theorem setStat_windows : (setStat slot ref x s).windows = s.windows := rfl
@[simp] theorem setStat_counters : (setStat slot ref x s).counters = s.counters := rfl
@[simp] theorem setStat_sent : (setStat slot ref x s).sent = s.sent := rfl
@[simp] theorem setStat_jtagBypass : (setStat slot ref x s).jtagBypass = s.jtagBypass := rfl
@[simp] theorem setStat_tlmAck : (setStat slot ref x s).tlmAck = s.tlmAck := rfl
@[simp] theorem setStat_jtagOut : (setStat slot ref x s).jtagOut = s.jtagOut := rfl
@[simp] theorem setStat_ppsOut : (setStat slot ref x s).ppsOut = s.ppsOut := rfl
@[simp] theorem setStat_lanesDown : (setStat slot ref x s).lanesDown = s.lanesDown := rfl
@[simp] theorem setStat_linksDown : (setStat slot ref x s).linksDown = s.linksDown := rfl
@[simp] theorem setStat_lines : (setStat slot ref x s).lines = s.lines := rfl
@[simp] theorem setStat_poolCorr : (setStat slot ref x s).poolCorr = s.poolCorr := rfl
@[simp] theorem setStat_freeCtr : (setStat slot ref x s).freeCtr = s.freeCtr := rfl
@[simp] theorem setStat_pending : (setStat slot ref x s).pending = s.pending := rfl

end

/-! ### setTable -/

section

variable (slot : Nat) (ref : Nat) (t : Table) (s : State)

@[simp] theorem setTable_variant : (setTable slot ref t s).variant = s.variant := rfl
@[simp] theorem setTable_clk : (setTable slot ref t s).clk = s.clk := rfl
@[simp] theorem setTable_rul : (setTable slot ref t s).rul = s.rul := rfl
@[simp] theorem setTable_ptp : (setTable slot ref t s).ptp = s.ptp := rfl
@[simp] theorem setTable_pwr : (setTable slot ref t s).pwr = s.pwr := rfl
@[simp] theorem setTable_boot : (setTable slot ref t s).boot = s.boot := rfl
@[simp] theorem setTable_booted : (setTable slot ref t s).booted = s.booted := rfl
@[simp] theorem setTable_sec : (setTable slot ref t s).sec = s.sec := rfl
@[simp] theorem setTable_halted : (setTable slot ref t s).halted = s.halted := rfl
@[simp] theorem setTable_blot : (setTable slot ref t s).blot = s.blot := rfl
@[simp] theorem setTable_tickEvents : (setTable slot ref t s).tickEvents = s.tickEvents := rfl
@[simp] theorem setTable_tests : (setTable slot ref t s).tests = s.tests := rfl
@[simp] theorem setTable_excluded : (setTable slot ref t s).excluded = s.excluded := rfl
@[simp] theorem setTable_exclusions : (setTable slot ref t s).exclusions = s.exclusions := rfl
@[simp] theorem setTable_mboxes : (setTable slot ref t s).mboxes = s.mboxes := rfl
@[simp] theorem setTable_links : (setTable slot ref t s).links = s.links := rfl
@[simp] theorem setTable_taken : (setTable slot ref t s).taken = s.taken := rfl
@[simp] theorem setTable_heldLoads : (setTable slot ref t s).heldLoads = s.heldLoads := rfl
@[simp] theorem setTable_plans : (setTable slot ref t s).plans = s.plans := rfl
@[simp] theorem setTable_actions : (setTable slot ref t s).actions = s.actions := rfl
@[simp] theorem setTable_zeroing : (setTable slot ref t s).zeroing = s.zeroing := rfl
@[simp] theorem setTable_fitReport : (setTable slot ref t s).fitReport = s.fitReport := rfl
@[simp] theorem setTable_mem : (setTable slot ref t s).mem = s.mem := rfl
@[simp] theorem setTable_pages : (setTable slot ref t s).pages = s.pages := rfl
@[simp] theorem setTable_allocs : (setTable slot ref t s).allocs = s.allocs := rfl
@[simp] theorem setTable_sched : (setTable slot ref t s).sched = s.sched := rfl
@[simp] theorem setTable_queues : (setTable slot ref t s).queues = s.queues := rfl
@[simp] theorem setTable_cells : (setTable slot ref t s).cells = s.cells := rfl
@[simp] theorem setTable_regHeld : (setTable slot ref t s).regHeld = s.regHeld := rfl
@[simp] theorem setTable_parked : (setTable slot ref t s).parked = s.parked := rfl
@[simp] theorem setTable_queueWaits : (setTable slot ref t s).queueWaits = s.queueWaits := rfl
@[simp] theorem setTable_remote : (setTable slot ref t s).remote = s.remote := rfl
@[simp] theorem setTable_hostSigs : (setTable slot ref t s).hostSigs = s.hostSigs := rfl
@[simp] theorem setTable_streams : (setTable slot ref t s).streams = s.streams := rfl
@[simp] theorem setTable_combiners : (setTable slot ref t s).combiners = s.combiners := rfl
@[simp] theorem setTable_joins : (setTable slot ref t s).joins = s.joins := rfl
@[simp] theorem setTable_stats : (setTable slot ref t s).stats = s.stats := rfl
@[simp] theorem setTable_nibs : (setTable slot ref t s).nibs = s.nibs := rfl
@[simp] theorem setTable_lists : (setTable slot ref t s).lists = s.lists := rfl
@[simp] theorem setTable_matchUnits : (setTable slot ref t s).matchUnits = s.matchUnits := rfl
@[simp] theorem setTable_batches : (setTable slot ref t s).batches = s.batches := rfl
@[simp] theorem setTable_caches : (setTable slot ref t s).caches = s.caches := rfl
@[simp] theorem setTable_dips : (setTable slot ref t s).dips = s.dips := rfl
@[simp] theorem setTable_ports : (setTable slot ref t s).ports = s.ports := rfl
@[simp] theorem setTable_deviceNumber : (setTable slot ref t s).deviceNumber = s.deviceNumber := rfl
@[simp] theorem setTable_neighbours : (setTable slot ref t s).neighbours = s.neighbours := rfl
@[simp] theorem setTable_tx : (setTable slot ref t s).tx = s.tx := rfl
@[simp] theorem setTable_rx : (setTable slot ref t s).rx = s.rx := rfl
@[simp] theorem setTable_windows : (setTable slot ref t s).windows = s.windows := rfl
@[simp] theorem setTable_counters : (setTable slot ref t s).counters = s.counters := rfl
@[simp] theorem setTable_sent : (setTable slot ref t s).sent = s.sent := rfl
@[simp] theorem setTable_jtagBypass : (setTable slot ref t s).jtagBypass = s.jtagBypass := rfl
@[simp] theorem setTable_tlmAck : (setTable slot ref t s).tlmAck = s.tlmAck := rfl
@[simp] theorem setTable_jtagOut : (setTable slot ref t s).jtagOut = s.jtagOut := rfl
@[simp] theorem setTable_ppsOut : (setTable slot ref t s).ppsOut = s.ppsOut := rfl
@[simp] theorem setTable_lanesDown : (setTable slot ref t s).lanesDown = s.lanesDown := rfl
@[simp] theorem setTable_linksDown : (setTable slot ref t s).linksDown = s.linksDown := rfl
@[simp] theorem setTable_lines : (setTable slot ref t s).lines = s.lines := rfl
@[simp] theorem setTable_poolCorr : (setTable slot ref t s).poolCorr = s.poolCorr := rfl
@[simp] theorem setTable_freeCtr : (setTable slot ref t s).freeCtr = s.freeCtr := rfl
@[simp] theorem setTable_pending : (setTable slot ref t s).pending = s.pending := rfl

end

/-! ### setCombiner -/

section

variable (die : Nat) (x : Combiner) (s : State)

@[simp] theorem setCombiner_variant : (setCombiner die x s).variant = s.variant := rfl
@[simp] theorem setCombiner_clk : (setCombiner die x s).clk = s.clk := rfl
@[simp] theorem setCombiner_rul : (setCombiner die x s).rul = s.rul := rfl
@[simp] theorem setCombiner_ptp : (setCombiner die x s).ptp = s.ptp := rfl
@[simp] theorem setCombiner_pwr : (setCombiner die x s).pwr = s.pwr := rfl
@[simp] theorem setCombiner_boot : (setCombiner die x s).boot = s.boot := rfl
@[simp] theorem setCombiner_booted : (setCombiner die x s).booted = s.booted := rfl
@[simp] theorem setCombiner_sec : (setCombiner die x s).sec = s.sec := rfl
@[simp] theorem setCombiner_halted : (setCombiner die x s).halted = s.halted := rfl
@[simp] theorem setCombiner_blot : (setCombiner die x s).blot = s.blot := rfl
@[simp] theorem setCombiner_tickEvents : (setCombiner die x s).tickEvents = s.tickEvents := rfl
@[simp] theorem setCombiner_tests : (setCombiner die x s).tests = s.tests := rfl
@[simp] theorem setCombiner_excluded : (setCombiner die x s).excluded = s.excluded := rfl
@[simp] theorem setCombiner_exclusions : (setCombiner die x s).exclusions = s.exclusions := rfl
@[simp] theorem setCombiner_mboxes : (setCombiner die x s).mboxes = s.mboxes := rfl
@[simp] theorem setCombiner_links : (setCombiner die x s).links = s.links := rfl
@[simp] theorem setCombiner_taken : (setCombiner die x s).taken = s.taken := rfl
@[simp] theorem setCombiner_heldLoads : (setCombiner die x s).heldLoads = s.heldLoads := rfl
@[simp] theorem setCombiner_plans : (setCombiner die x s).plans = s.plans := rfl
@[simp] theorem setCombiner_actions : (setCombiner die x s).actions = s.actions := rfl
@[simp] theorem setCombiner_zeroing : (setCombiner die x s).zeroing = s.zeroing := rfl
@[simp] theorem setCombiner_fitReport : (setCombiner die x s).fitReport = s.fitReport := rfl
@[simp] theorem setCombiner_mem : (setCombiner die x s).mem = s.mem := rfl
@[simp] theorem setCombiner_pages : (setCombiner die x s).pages = s.pages := rfl
@[simp] theorem setCombiner_allocs : (setCombiner die x s).allocs = s.allocs := rfl
@[simp] theorem setCombiner_sched : (setCombiner die x s).sched = s.sched := rfl
@[simp] theorem setCombiner_queues : (setCombiner die x s).queues = s.queues := rfl
@[simp] theorem setCombiner_cells : (setCombiner die x s).cells = s.cells := rfl
@[simp] theorem setCombiner_regHeld : (setCombiner die x s).regHeld = s.regHeld := rfl
@[simp] theorem setCombiner_parked : (setCombiner die x s).parked = s.parked := rfl
@[simp] theorem setCombiner_queueWaits : (setCombiner die x s).queueWaits = s.queueWaits := rfl
@[simp] theorem setCombiner_remote : (setCombiner die x s).remote = s.remote := rfl
@[simp] theorem setCombiner_hostSigs : (setCombiner die x s).hostSigs = s.hostSigs := rfl
@[simp] theorem setCombiner_streams : (setCombiner die x s).streams = s.streams := rfl
@[simp] theorem setCombiner_tables : (setCombiner die x s).tables = s.tables := rfl
@[simp] theorem setCombiner_joins : (setCombiner die x s).joins = s.joins := rfl
@[simp] theorem setCombiner_stats : (setCombiner die x s).stats = s.stats := rfl
@[simp] theorem setCombiner_nibs : (setCombiner die x s).nibs = s.nibs := rfl
@[simp] theorem setCombiner_lists : (setCombiner die x s).lists = s.lists := rfl
@[simp] theorem setCombiner_matchUnits : (setCombiner die x s).matchUnits = s.matchUnits := rfl
@[simp] theorem setCombiner_batches : (setCombiner die x s).batches = s.batches := rfl
@[simp] theorem setCombiner_caches : (setCombiner die x s).caches = s.caches := rfl
@[simp] theorem setCombiner_dips : (setCombiner die x s).dips = s.dips := rfl
@[simp] theorem setCombiner_ports : (setCombiner die x s).ports = s.ports := rfl
@[simp] theorem setCombiner_deviceNumber : (setCombiner die x s).deviceNumber = s.deviceNumber := rfl
@[simp] theorem setCombiner_neighbours : (setCombiner die x s).neighbours = s.neighbours := rfl
@[simp] theorem setCombiner_tx : (setCombiner die x s).tx = s.tx := rfl
@[simp] theorem setCombiner_rx : (setCombiner die x s).rx = s.rx := rfl
@[simp] theorem setCombiner_windows : (setCombiner die x s).windows = s.windows := rfl
@[simp] theorem setCombiner_counters : (setCombiner die x s).counters = s.counters := rfl
@[simp] theorem setCombiner_sent : (setCombiner die x s).sent = s.sent := rfl
@[simp] theorem setCombiner_jtagBypass : (setCombiner die x s).jtagBypass = s.jtagBypass := rfl
@[simp] theorem setCombiner_tlmAck : (setCombiner die x s).tlmAck = s.tlmAck := rfl
@[simp] theorem setCombiner_jtagOut : (setCombiner die x s).jtagOut = s.jtagOut := rfl
@[simp] theorem setCombiner_ppsOut : (setCombiner die x s).ppsOut = s.ppsOut := rfl
@[simp] theorem setCombiner_lanesDown : (setCombiner die x s).lanesDown = s.lanesDown := rfl
@[simp] theorem setCombiner_linksDown : (setCombiner die x s).linksDown = s.linksDown := rfl
@[simp] theorem setCombiner_lines : (setCombiner die x s).lines = s.lines := rfl
@[simp] theorem setCombiner_poolCorr : (setCombiner die x s).poolCorr = s.poolCorr := rfl
@[simp] theorem setCombiner_freeCtr : (setCombiner die x s).freeCtr = s.freeCtr := rfl
@[simp] theorem setCombiner_pending : (setCombiner die x s).pending = s.pending := rfl

end

/-! ### setPort -/

section

variable (p : Nat) (x : Port) (s : State)

@[simp] theorem setPort_variant : (setPort p x s).variant = s.variant := rfl
@[simp] theorem setPort_clk : (setPort p x s).clk = s.clk := rfl
@[simp] theorem setPort_rul : (setPort p x s).rul = s.rul := rfl
@[simp] theorem setPort_ptp : (setPort p x s).ptp = s.ptp := rfl
@[simp] theorem setPort_pwr : (setPort p x s).pwr = s.pwr := rfl
@[simp] theorem setPort_boot : (setPort p x s).boot = s.boot := rfl
@[simp] theorem setPort_booted : (setPort p x s).booted = s.booted := rfl
@[simp] theorem setPort_sec : (setPort p x s).sec = s.sec := rfl
@[simp] theorem setPort_halted : (setPort p x s).halted = s.halted := rfl
@[simp] theorem setPort_blot : (setPort p x s).blot = s.blot := rfl
@[simp] theorem setPort_tickEvents : (setPort p x s).tickEvents = s.tickEvents := rfl
@[simp] theorem setPort_tests : (setPort p x s).tests = s.tests := rfl
@[simp] theorem setPort_excluded : (setPort p x s).excluded = s.excluded := rfl
@[simp] theorem setPort_exclusions : (setPort p x s).exclusions = s.exclusions := rfl
@[simp] theorem setPort_mboxes : (setPort p x s).mboxes = s.mboxes := rfl
@[simp] theorem setPort_links : (setPort p x s).links = s.links := rfl
@[simp] theorem setPort_taken : (setPort p x s).taken = s.taken := rfl
@[simp] theorem setPort_heldLoads : (setPort p x s).heldLoads = s.heldLoads := rfl
@[simp] theorem setPort_plans : (setPort p x s).plans = s.plans := rfl
@[simp] theorem setPort_actions : (setPort p x s).actions = s.actions := rfl
@[simp] theorem setPort_zeroing : (setPort p x s).zeroing = s.zeroing := rfl
@[simp] theorem setPort_fitReport : (setPort p x s).fitReport = s.fitReport := rfl
@[simp] theorem setPort_mem : (setPort p x s).mem = s.mem := rfl
@[simp] theorem setPort_pages : (setPort p x s).pages = s.pages := rfl
@[simp] theorem setPort_allocs : (setPort p x s).allocs = s.allocs := rfl
@[simp] theorem setPort_sched : (setPort p x s).sched = s.sched := rfl
@[simp] theorem setPort_queues : (setPort p x s).queues = s.queues := rfl
@[simp] theorem setPort_cells : (setPort p x s).cells = s.cells := rfl
@[simp] theorem setPort_regHeld : (setPort p x s).regHeld = s.regHeld := rfl
@[simp] theorem setPort_parked : (setPort p x s).parked = s.parked := rfl
@[simp] theorem setPort_queueWaits : (setPort p x s).queueWaits = s.queueWaits := rfl
@[simp] theorem setPort_remote : (setPort p x s).remote = s.remote := rfl
@[simp] theorem setPort_hostSigs : (setPort p x s).hostSigs = s.hostSigs := rfl
@[simp] theorem setPort_streams : (setPort p x s).streams = s.streams := rfl
@[simp] theorem setPort_tables : (setPort p x s).tables = s.tables := rfl
@[simp] theorem setPort_combiners : (setPort p x s).combiners = s.combiners := rfl
@[simp] theorem setPort_joins : (setPort p x s).joins = s.joins := rfl
@[simp] theorem setPort_stats : (setPort p x s).stats = s.stats := rfl
@[simp] theorem setPort_nibs : (setPort p x s).nibs = s.nibs := rfl
@[simp] theorem setPort_lists : (setPort p x s).lists = s.lists := rfl
@[simp] theorem setPort_matchUnits : (setPort p x s).matchUnits = s.matchUnits := rfl
@[simp] theorem setPort_batches : (setPort p x s).batches = s.batches := rfl
@[simp] theorem setPort_caches : (setPort p x s).caches = s.caches := rfl
@[simp] theorem setPort_dips : (setPort p x s).dips = s.dips := rfl
@[simp] theorem setPort_deviceNumber : (setPort p x s).deviceNumber = s.deviceNumber := rfl
@[simp] theorem setPort_neighbours : (setPort p x s).neighbours = s.neighbours := rfl
@[simp] theorem setPort_tx : (setPort p x s).tx = s.tx := rfl
@[simp] theorem setPort_rx : (setPort p x s).rx = s.rx := rfl
@[simp] theorem setPort_windows : (setPort p x s).windows = s.windows := rfl
@[simp] theorem setPort_counters : (setPort p x s).counters = s.counters := rfl
@[simp] theorem setPort_sent : (setPort p x s).sent = s.sent := rfl
@[simp] theorem setPort_jtagBypass : (setPort p x s).jtagBypass = s.jtagBypass := rfl
@[simp] theorem setPort_tlmAck : (setPort p x s).tlmAck = s.tlmAck := rfl
@[simp] theorem setPort_jtagOut : (setPort p x s).jtagOut = s.jtagOut := rfl
@[simp] theorem setPort_ppsOut : (setPort p x s).ppsOut = s.ppsOut := rfl
@[simp] theorem setPort_lanesDown : (setPort p x s).lanesDown = s.lanesDown := rfl
@[simp] theorem setPort_linksDown : (setPort p x s).linksDown = s.linksDown := rfl
@[simp] theorem setPort_lines : (setPort p x s).lines = s.lines := rfl
@[simp] theorem setPort_poolCorr : (setPort p x s).poolCorr = s.poolCorr := rfl
@[simp] theorem setPort_freeCtr : (setPort p x s).freeCtr = s.freeCtr := rfl
@[simp] theorem setPort_pending : (setPort p x s).pending = s.pending := rfl

end

/-! ### setStream -/

section

variable (k : Nat × Nat) (x : Stream) (s : State)

@[simp] theorem setStream_variant : (setStream k x s).variant = s.variant := rfl
@[simp] theorem setStream_clk : (setStream k x s).clk = s.clk := rfl
@[simp] theorem setStream_rul : (setStream k x s).rul = s.rul := rfl
@[simp] theorem setStream_ptp : (setStream k x s).ptp = s.ptp := rfl
@[simp] theorem setStream_pwr : (setStream k x s).pwr = s.pwr := rfl
@[simp] theorem setStream_boot : (setStream k x s).boot = s.boot := rfl
@[simp] theorem setStream_booted : (setStream k x s).booted = s.booted := rfl
@[simp] theorem setStream_sec : (setStream k x s).sec = s.sec := rfl
@[simp] theorem setStream_halted : (setStream k x s).halted = s.halted := rfl
@[simp] theorem setStream_blot : (setStream k x s).blot = s.blot := rfl
@[simp] theorem setStream_tickEvents : (setStream k x s).tickEvents = s.tickEvents := rfl
@[simp] theorem setStream_tests : (setStream k x s).tests = s.tests := rfl
@[simp] theorem setStream_excluded : (setStream k x s).excluded = s.excluded := rfl
@[simp] theorem setStream_exclusions : (setStream k x s).exclusions = s.exclusions := rfl
@[simp] theorem setStream_mboxes : (setStream k x s).mboxes = s.mboxes := rfl
@[simp] theorem setStream_links : (setStream k x s).links = s.links := rfl
@[simp] theorem setStream_taken : (setStream k x s).taken = s.taken := rfl
@[simp] theorem setStream_heldLoads : (setStream k x s).heldLoads = s.heldLoads := rfl
@[simp] theorem setStream_plans : (setStream k x s).plans = s.plans := rfl
@[simp] theorem setStream_actions : (setStream k x s).actions = s.actions := rfl
@[simp] theorem setStream_zeroing : (setStream k x s).zeroing = s.zeroing := rfl
@[simp] theorem setStream_fitReport : (setStream k x s).fitReport = s.fitReport := rfl
@[simp] theorem setStream_mem : (setStream k x s).mem = s.mem := rfl
@[simp] theorem setStream_pages : (setStream k x s).pages = s.pages := rfl
@[simp] theorem setStream_allocs : (setStream k x s).allocs = s.allocs := rfl
@[simp] theorem setStream_sched : (setStream k x s).sched = s.sched := rfl
@[simp] theorem setStream_queues : (setStream k x s).queues = s.queues := rfl
@[simp] theorem setStream_cells : (setStream k x s).cells = s.cells := rfl
@[simp] theorem setStream_regHeld : (setStream k x s).regHeld = s.regHeld := rfl
@[simp] theorem setStream_parked : (setStream k x s).parked = s.parked := rfl
@[simp] theorem setStream_queueWaits : (setStream k x s).queueWaits = s.queueWaits := rfl
@[simp] theorem setStream_remote : (setStream k x s).remote = s.remote := rfl
@[simp] theorem setStream_hostSigs : (setStream k x s).hostSigs = s.hostSigs := rfl
@[simp] theorem setStream_tables : (setStream k x s).tables = s.tables := rfl
@[simp] theorem setStream_combiners : (setStream k x s).combiners = s.combiners := rfl
@[simp] theorem setStream_joins : (setStream k x s).joins = s.joins := rfl
@[simp] theorem setStream_stats : (setStream k x s).stats = s.stats := rfl
@[simp] theorem setStream_nibs : (setStream k x s).nibs = s.nibs := rfl
@[simp] theorem setStream_lists : (setStream k x s).lists = s.lists := rfl
@[simp] theorem setStream_matchUnits : (setStream k x s).matchUnits = s.matchUnits := rfl
@[simp] theorem setStream_batches : (setStream k x s).batches = s.batches := rfl
@[simp] theorem setStream_caches : (setStream k x s).caches = s.caches := rfl
@[simp] theorem setStream_dips : (setStream k x s).dips = s.dips := rfl
@[simp] theorem setStream_ports : (setStream k x s).ports = s.ports := rfl
@[simp] theorem setStream_deviceNumber : (setStream k x s).deviceNumber = s.deviceNumber := rfl
@[simp] theorem setStream_neighbours : (setStream k x s).neighbours = s.neighbours := rfl
@[simp] theorem setStream_tx : (setStream k x s).tx = s.tx := rfl
@[simp] theorem setStream_rx : (setStream k x s).rx = s.rx := rfl
@[simp] theorem setStream_windows : (setStream k x s).windows = s.windows := rfl
@[simp] theorem setStream_counters : (setStream k x s).counters = s.counters := rfl
@[simp] theorem setStream_sent : (setStream k x s).sent = s.sent := rfl
@[simp] theorem setStream_jtagBypass : (setStream k x s).jtagBypass = s.jtagBypass := rfl
@[simp] theorem setStream_tlmAck : (setStream k x s).tlmAck = s.tlmAck := rfl
@[simp] theorem setStream_jtagOut : (setStream k x s).jtagOut = s.jtagOut := rfl
@[simp] theorem setStream_ppsOut : (setStream k x s).ppsOut = s.ppsOut := rfl
@[simp] theorem setStream_lanesDown : (setStream k x s).lanesDown = s.lanesDown := rfl
@[simp] theorem setStream_linksDown : (setStream k x s).linksDown = s.linksDown := rfl
@[simp] theorem setStream_lines : (setStream k x s).lines = s.lines := rfl
@[simp] theorem setStream_poolCorr : (setStream k x s).poolCorr = s.poolCorr := rfl
@[simp] theorem setStream_freeCtr : (setStream k x s).freeCtr = s.freeCtr := rfl
@[simp] theorem setStream_pending : (setStream k x s).pending = s.pending := rfl

end

/-! ### setDip -/

section

variable (die : Nat) (x : DipPart) (s : State)

@[simp] theorem setDip_variant : (setDip die x s).variant = s.variant := rfl
@[simp] theorem setDip_clk : (setDip die x s).clk = s.clk := rfl
@[simp] theorem setDip_rul : (setDip die x s).rul = s.rul := rfl
@[simp] theorem setDip_ptp : (setDip die x s).ptp = s.ptp := rfl
@[simp] theorem setDip_pwr : (setDip die x s).pwr = s.pwr := rfl
@[simp] theorem setDip_boot : (setDip die x s).boot = s.boot := rfl
@[simp] theorem setDip_booted : (setDip die x s).booted = s.booted := rfl
@[simp] theorem setDip_sec : (setDip die x s).sec = s.sec := rfl
@[simp] theorem setDip_halted : (setDip die x s).halted = s.halted := rfl
@[simp] theorem setDip_blot : (setDip die x s).blot = s.blot := rfl
@[simp] theorem setDip_tickEvents : (setDip die x s).tickEvents = s.tickEvents := rfl
@[simp] theorem setDip_tests : (setDip die x s).tests = s.tests := rfl
@[simp] theorem setDip_excluded : (setDip die x s).excluded = s.excluded := rfl
@[simp] theorem setDip_exclusions : (setDip die x s).exclusions = s.exclusions := rfl
@[simp] theorem setDip_mboxes : (setDip die x s).mboxes = s.mboxes := rfl
@[simp] theorem setDip_links : (setDip die x s).links = s.links := rfl
@[simp] theorem setDip_taken : (setDip die x s).taken = s.taken := rfl
@[simp] theorem setDip_heldLoads : (setDip die x s).heldLoads = s.heldLoads := rfl
@[simp] theorem setDip_plans : (setDip die x s).plans = s.plans := rfl
@[simp] theorem setDip_actions : (setDip die x s).actions = s.actions := rfl
@[simp] theorem setDip_zeroing : (setDip die x s).zeroing = s.zeroing := rfl
@[simp] theorem setDip_fitReport : (setDip die x s).fitReport = s.fitReport := rfl
@[simp] theorem setDip_mem : (setDip die x s).mem = s.mem := rfl
@[simp] theorem setDip_pages : (setDip die x s).pages = s.pages := rfl
@[simp] theorem setDip_allocs : (setDip die x s).allocs = s.allocs := rfl
@[simp] theorem setDip_sched : (setDip die x s).sched = s.sched := rfl
@[simp] theorem setDip_queues : (setDip die x s).queues = s.queues := rfl
@[simp] theorem setDip_cells : (setDip die x s).cells = s.cells := rfl
@[simp] theorem setDip_regHeld : (setDip die x s).regHeld = s.regHeld := rfl
@[simp] theorem setDip_parked : (setDip die x s).parked = s.parked := rfl
@[simp] theorem setDip_queueWaits : (setDip die x s).queueWaits = s.queueWaits := rfl
@[simp] theorem setDip_remote : (setDip die x s).remote = s.remote := rfl
@[simp] theorem setDip_hostSigs : (setDip die x s).hostSigs = s.hostSigs := rfl
@[simp] theorem setDip_streams : (setDip die x s).streams = s.streams := rfl
@[simp] theorem setDip_tables : (setDip die x s).tables = s.tables := rfl
@[simp] theorem setDip_combiners : (setDip die x s).combiners = s.combiners := rfl
@[simp] theorem setDip_joins : (setDip die x s).joins = s.joins := rfl
@[simp] theorem setDip_stats : (setDip die x s).stats = s.stats := rfl
@[simp] theorem setDip_nibs : (setDip die x s).nibs = s.nibs := rfl
@[simp] theorem setDip_lists : (setDip die x s).lists = s.lists := rfl
@[simp] theorem setDip_matchUnits : (setDip die x s).matchUnits = s.matchUnits := rfl
@[simp] theorem setDip_batches : (setDip die x s).batches = s.batches := rfl
@[simp] theorem setDip_caches : (setDip die x s).caches = s.caches := rfl
@[simp] theorem setDip_ports : (setDip die x s).ports = s.ports := rfl
@[simp] theorem setDip_deviceNumber : (setDip die x s).deviceNumber = s.deviceNumber := rfl
@[simp] theorem setDip_neighbours : (setDip die x s).neighbours = s.neighbours := rfl
@[simp] theorem setDip_tx : (setDip die x s).tx = s.tx := rfl
@[simp] theorem setDip_rx : (setDip die x s).rx = s.rx := rfl
@[simp] theorem setDip_windows : (setDip die x s).windows = s.windows := rfl
@[simp] theorem setDip_counters : (setDip die x s).counters = s.counters := rfl
@[simp] theorem setDip_sent : (setDip die x s).sent = s.sent := rfl
@[simp] theorem setDip_jtagBypass : (setDip die x s).jtagBypass = s.jtagBypass := rfl
@[simp] theorem setDip_tlmAck : (setDip die x s).tlmAck = s.tlmAck := rfl
@[simp] theorem setDip_jtagOut : (setDip die x s).jtagOut = s.jtagOut := rfl
@[simp] theorem setDip_ppsOut : (setDip die x s).ppsOut = s.ppsOut := rfl
@[simp] theorem setDip_lanesDown : (setDip die x s).lanesDown = s.lanesDown := rfl
@[simp] theorem setDip_linksDown : (setDip die x s).linksDown = s.linksDown := rfl
@[simp] theorem setDip_lines : (setDip die x s).lines = s.lines := rfl
@[simp] theorem setDip_poolCorr : (setDip die x s).poolCorr = s.poolCorr := rfl
@[simp] theorem setDip_freeCtr : (setDip die x s).freeCtr = s.freeCtr := rfl
@[simp] theorem setDip_pending : (setDip die x s).pending = s.pending := rfl

end

/-! ### setBatch -/

section

variable (k : Nat × Nat) (b : Batch) (s : State)

@[simp] theorem setBatch_variant : (setBatch k b s).variant = s.variant := rfl
@[simp] theorem setBatch_clk : (setBatch k b s).clk = s.clk := rfl
@[simp] theorem setBatch_rul : (setBatch k b s).rul = s.rul := rfl
@[simp] theorem setBatch_ptp : (setBatch k b s).ptp = s.ptp := rfl
@[simp] theorem setBatch_pwr : (setBatch k b s).pwr = s.pwr := rfl
@[simp] theorem setBatch_boot : (setBatch k b s).boot = s.boot := rfl
@[simp] theorem setBatch_booted : (setBatch k b s).booted = s.booted := rfl
@[simp] theorem setBatch_sec : (setBatch k b s).sec = s.sec := rfl
@[simp] theorem setBatch_halted : (setBatch k b s).halted = s.halted := rfl
@[simp] theorem setBatch_blot : (setBatch k b s).blot = s.blot := rfl
@[simp] theorem setBatch_tickEvents : (setBatch k b s).tickEvents = s.tickEvents := rfl
@[simp] theorem setBatch_tests : (setBatch k b s).tests = s.tests := rfl
@[simp] theorem setBatch_excluded : (setBatch k b s).excluded = s.excluded := rfl
@[simp] theorem setBatch_exclusions : (setBatch k b s).exclusions = s.exclusions := rfl
@[simp] theorem setBatch_mboxes : (setBatch k b s).mboxes = s.mboxes := rfl
@[simp] theorem setBatch_links : (setBatch k b s).links = s.links := rfl
@[simp] theorem setBatch_taken : (setBatch k b s).taken = s.taken := rfl
@[simp] theorem setBatch_heldLoads : (setBatch k b s).heldLoads = s.heldLoads := rfl
@[simp] theorem setBatch_plans : (setBatch k b s).plans = s.plans := rfl
@[simp] theorem setBatch_actions : (setBatch k b s).actions = s.actions := rfl
@[simp] theorem setBatch_zeroing : (setBatch k b s).zeroing = s.zeroing := rfl
@[simp] theorem setBatch_fitReport : (setBatch k b s).fitReport = s.fitReport := rfl
@[simp] theorem setBatch_mem : (setBatch k b s).mem = s.mem := rfl
@[simp] theorem setBatch_pages : (setBatch k b s).pages = s.pages := rfl
@[simp] theorem setBatch_allocs : (setBatch k b s).allocs = s.allocs := rfl
@[simp] theorem setBatch_sched : (setBatch k b s).sched = s.sched := rfl
@[simp] theorem setBatch_queues : (setBatch k b s).queues = s.queues := rfl
@[simp] theorem setBatch_cells : (setBatch k b s).cells = s.cells := rfl
@[simp] theorem setBatch_regHeld : (setBatch k b s).regHeld = s.regHeld := rfl
@[simp] theorem setBatch_parked : (setBatch k b s).parked = s.parked := rfl
@[simp] theorem setBatch_queueWaits : (setBatch k b s).queueWaits = s.queueWaits := rfl
@[simp] theorem setBatch_remote : (setBatch k b s).remote = s.remote := rfl
@[simp] theorem setBatch_hostSigs : (setBatch k b s).hostSigs = s.hostSigs := rfl
@[simp] theorem setBatch_streams : (setBatch k b s).streams = s.streams := rfl
@[simp] theorem setBatch_tables : (setBatch k b s).tables = s.tables := rfl
@[simp] theorem setBatch_combiners : (setBatch k b s).combiners = s.combiners := rfl
@[simp] theorem setBatch_joins : (setBatch k b s).joins = s.joins := rfl
@[simp] theorem setBatch_stats : (setBatch k b s).stats = s.stats := rfl
@[simp] theorem setBatch_nibs : (setBatch k b s).nibs = s.nibs := rfl
@[simp] theorem setBatch_lists : (setBatch k b s).lists = s.lists := rfl
@[simp] theorem setBatch_matchUnits : (setBatch k b s).matchUnits = s.matchUnits := rfl
@[simp] theorem setBatch_caches : (setBatch k b s).caches = s.caches := rfl
@[simp] theorem setBatch_dips : (setBatch k b s).dips = s.dips := rfl
@[simp] theorem setBatch_ports : (setBatch k b s).ports = s.ports := rfl
@[simp] theorem setBatch_deviceNumber : (setBatch k b s).deviceNumber = s.deviceNumber := rfl
@[simp] theorem setBatch_neighbours : (setBatch k b s).neighbours = s.neighbours := rfl
@[simp] theorem setBatch_tx : (setBatch k b s).tx = s.tx := rfl
@[simp] theorem setBatch_rx : (setBatch k b s).rx = s.rx := rfl
@[simp] theorem setBatch_windows : (setBatch k b s).windows = s.windows := rfl
@[simp] theorem setBatch_counters : (setBatch k b s).counters = s.counters := rfl
@[simp] theorem setBatch_sent : (setBatch k b s).sent = s.sent := rfl
@[simp] theorem setBatch_jtagBypass : (setBatch k b s).jtagBypass = s.jtagBypass := rfl
@[simp] theorem setBatch_tlmAck : (setBatch k b s).tlmAck = s.tlmAck := rfl
@[simp] theorem setBatch_jtagOut : (setBatch k b s).jtagOut = s.jtagOut := rfl
@[simp] theorem setBatch_ppsOut : (setBatch k b s).ppsOut = s.ppsOut := rfl
@[simp] theorem setBatch_lanesDown : (setBatch k b s).lanesDown = s.lanesDown := rfl
@[simp] theorem setBatch_linksDown : (setBatch k b s).linksDown = s.linksDown := rfl
@[simp] theorem setBatch_lines : (setBatch k b s).lines = s.lines := rfl
@[simp] theorem setBatch_poolCorr : (setBatch k b s).poolCorr = s.poolCorr := rfl
@[simp] theorem setBatch_freeCtr : (setBatch k b s).freeCtr = s.freeCtr := rfl
@[simp] theorem setBatch_pending : (setBatch k b s).pending = s.pending := rfl

end

/-! ### setRx -/

section

variable (e : RxStream) (s : State)

@[simp] theorem setRx_variant : (setRx e s).variant = s.variant := rfl
@[simp] theorem setRx_clk : (setRx e s).clk = s.clk := rfl
@[simp] theorem setRx_rul : (setRx e s).rul = s.rul := rfl
@[simp] theorem setRx_ptp : (setRx e s).ptp = s.ptp := rfl
@[simp] theorem setRx_pwr : (setRx e s).pwr = s.pwr := rfl
@[simp] theorem setRx_boot : (setRx e s).boot = s.boot := rfl
@[simp] theorem setRx_booted : (setRx e s).booted = s.booted := rfl
@[simp] theorem setRx_sec : (setRx e s).sec = s.sec := rfl
@[simp] theorem setRx_halted : (setRx e s).halted = s.halted := rfl
@[simp] theorem setRx_blot : (setRx e s).blot = s.blot := rfl
@[simp] theorem setRx_tickEvents : (setRx e s).tickEvents = s.tickEvents := rfl
@[simp] theorem setRx_tests : (setRx e s).tests = s.tests := rfl
@[simp] theorem setRx_excluded : (setRx e s).excluded = s.excluded := rfl
@[simp] theorem setRx_exclusions : (setRx e s).exclusions = s.exclusions := rfl
@[simp] theorem setRx_mboxes : (setRx e s).mboxes = s.mboxes := rfl
@[simp] theorem setRx_links : (setRx e s).links = s.links := rfl
@[simp] theorem setRx_taken : (setRx e s).taken = s.taken := rfl
@[simp] theorem setRx_heldLoads : (setRx e s).heldLoads = s.heldLoads := rfl
@[simp] theorem setRx_plans : (setRx e s).plans = s.plans := rfl
@[simp] theorem setRx_actions : (setRx e s).actions = s.actions := rfl
@[simp] theorem setRx_zeroing : (setRx e s).zeroing = s.zeroing := rfl
@[simp] theorem setRx_fitReport : (setRx e s).fitReport = s.fitReport := rfl
@[simp] theorem setRx_mem : (setRx e s).mem = s.mem := rfl
@[simp] theorem setRx_pages : (setRx e s).pages = s.pages := rfl
@[simp] theorem setRx_allocs : (setRx e s).allocs = s.allocs := rfl
@[simp] theorem setRx_sched : (setRx e s).sched = s.sched := rfl
@[simp] theorem setRx_queues : (setRx e s).queues = s.queues := rfl
@[simp] theorem setRx_cells : (setRx e s).cells = s.cells := rfl
@[simp] theorem setRx_regHeld : (setRx e s).regHeld = s.regHeld := rfl
@[simp] theorem setRx_parked : (setRx e s).parked = s.parked := rfl
@[simp] theorem setRx_queueWaits : (setRx e s).queueWaits = s.queueWaits := rfl
@[simp] theorem setRx_remote : (setRx e s).remote = s.remote := rfl
@[simp] theorem setRx_hostSigs : (setRx e s).hostSigs = s.hostSigs := rfl
@[simp] theorem setRx_streams : (setRx e s).streams = s.streams := rfl
@[simp] theorem setRx_tables : (setRx e s).tables = s.tables := rfl
@[simp] theorem setRx_combiners : (setRx e s).combiners = s.combiners := rfl
@[simp] theorem setRx_joins : (setRx e s).joins = s.joins := rfl
@[simp] theorem setRx_stats : (setRx e s).stats = s.stats := rfl
@[simp] theorem setRx_nibs : (setRx e s).nibs = s.nibs := rfl
@[simp] theorem setRx_lists : (setRx e s).lists = s.lists := rfl
@[simp] theorem setRx_matchUnits : (setRx e s).matchUnits = s.matchUnits := rfl
@[simp] theorem setRx_batches : (setRx e s).batches = s.batches := rfl
@[simp] theorem setRx_caches : (setRx e s).caches = s.caches := rfl
@[simp] theorem setRx_dips : (setRx e s).dips = s.dips := rfl
@[simp] theorem setRx_ports : (setRx e s).ports = s.ports := rfl
@[simp] theorem setRx_deviceNumber : (setRx e s).deviceNumber = s.deviceNumber := rfl
@[simp] theorem setRx_neighbours : (setRx e s).neighbours = s.neighbours := rfl
@[simp] theorem setRx_tx : (setRx e s).tx = s.tx := rfl
@[simp] theorem setRx_windows : (setRx e s).windows = s.windows := rfl
@[simp] theorem setRx_counters : (setRx e s).counters = s.counters := rfl
@[simp] theorem setRx_sent : (setRx e s).sent = s.sent := rfl
@[simp] theorem setRx_jtagBypass : (setRx e s).jtagBypass = s.jtagBypass := rfl
@[simp] theorem setRx_tlmAck : (setRx e s).tlmAck = s.tlmAck := rfl
@[simp] theorem setRx_jtagOut : (setRx e s).jtagOut = s.jtagOut := rfl
@[simp] theorem setRx_ppsOut : (setRx e s).ppsOut = s.ppsOut := rfl
@[simp] theorem setRx_lanesDown : (setRx e s).lanesDown = s.lanesDown := rfl
@[simp] theorem setRx_linksDown : (setRx e s).linksDown = s.linksDown := rfl
@[simp] theorem setRx_lines : (setRx e s).lines = s.lines := rfl
@[simp] theorem setRx_poolCorr : (setRx e s).poolCorr = s.poolCorr := rfl
@[simp] theorem setRx_freeCtr : (setRx e s).freeCtr = s.freeCtr := rfl
@[simp] theorem setRx_pending : (setRx e s).pending = s.pending := rfl

end

/-! ### setLink -/

section

variable (m : Nat) (l : MailboxLink) (s : State)

@[simp] theorem setLink_variant : (setLink m l s).variant = s.variant := rfl
@[simp] theorem setLink_clk : (setLink m l s).clk = s.clk := rfl
@[simp] theorem setLink_rul : (setLink m l s).rul = s.rul := rfl
@[simp] theorem setLink_ptp : (setLink m l s).ptp = s.ptp := rfl
@[simp] theorem setLink_pwr : (setLink m l s).pwr = s.pwr := rfl
@[simp] theorem setLink_boot : (setLink m l s).boot = s.boot := rfl
@[simp] theorem setLink_booted : (setLink m l s).booted = s.booted := rfl
@[simp] theorem setLink_sec : (setLink m l s).sec = s.sec := rfl
@[simp] theorem setLink_halted : (setLink m l s).halted = s.halted := rfl
@[simp] theorem setLink_blot : (setLink m l s).blot = s.blot := rfl
@[simp] theorem setLink_tickEvents : (setLink m l s).tickEvents = s.tickEvents := rfl
@[simp] theorem setLink_tests : (setLink m l s).tests = s.tests := rfl
@[simp] theorem setLink_excluded : (setLink m l s).excluded = s.excluded := rfl
@[simp] theorem setLink_exclusions : (setLink m l s).exclusions = s.exclusions := rfl
@[simp] theorem setLink_mboxes : (setLink m l s).mboxes = s.mboxes := rfl
@[simp] theorem setLink_taken : (setLink m l s).taken = s.taken := rfl
@[simp] theorem setLink_heldLoads : (setLink m l s).heldLoads = s.heldLoads := rfl
@[simp] theorem setLink_plans : (setLink m l s).plans = s.plans := rfl
@[simp] theorem setLink_actions : (setLink m l s).actions = s.actions := rfl
@[simp] theorem setLink_zeroing : (setLink m l s).zeroing = s.zeroing := rfl
@[simp] theorem setLink_fitReport : (setLink m l s).fitReport = s.fitReport := rfl
@[simp] theorem setLink_mem : (setLink m l s).mem = s.mem := rfl
@[simp] theorem setLink_pages : (setLink m l s).pages = s.pages := rfl
@[simp] theorem setLink_allocs : (setLink m l s).allocs = s.allocs := rfl
@[simp] theorem setLink_sched : (setLink m l s).sched = s.sched := rfl
@[simp] theorem setLink_queues : (setLink m l s).queues = s.queues := rfl
@[simp] theorem setLink_cells : (setLink m l s).cells = s.cells := rfl
@[simp] theorem setLink_regHeld : (setLink m l s).regHeld = s.regHeld := rfl
@[simp] theorem setLink_parked : (setLink m l s).parked = s.parked := rfl
@[simp] theorem setLink_queueWaits : (setLink m l s).queueWaits = s.queueWaits := rfl
@[simp] theorem setLink_remote : (setLink m l s).remote = s.remote := rfl
@[simp] theorem setLink_hostSigs : (setLink m l s).hostSigs = s.hostSigs := rfl
@[simp] theorem setLink_streams : (setLink m l s).streams = s.streams := rfl
@[simp] theorem setLink_tables : (setLink m l s).tables = s.tables := rfl
@[simp] theorem setLink_combiners : (setLink m l s).combiners = s.combiners := rfl
@[simp] theorem setLink_joins : (setLink m l s).joins = s.joins := rfl
@[simp] theorem setLink_stats : (setLink m l s).stats = s.stats := rfl
@[simp] theorem setLink_nibs : (setLink m l s).nibs = s.nibs := rfl
@[simp] theorem setLink_lists : (setLink m l s).lists = s.lists := rfl
@[simp] theorem setLink_matchUnits : (setLink m l s).matchUnits = s.matchUnits := rfl
@[simp] theorem setLink_batches : (setLink m l s).batches = s.batches := rfl
@[simp] theorem setLink_caches : (setLink m l s).caches = s.caches := rfl
@[simp] theorem setLink_dips : (setLink m l s).dips = s.dips := rfl
@[simp] theorem setLink_ports : (setLink m l s).ports = s.ports := rfl
@[simp] theorem setLink_deviceNumber : (setLink m l s).deviceNumber = s.deviceNumber := rfl
@[simp] theorem setLink_neighbours : (setLink m l s).neighbours = s.neighbours := rfl
@[simp] theorem setLink_tx : (setLink m l s).tx = s.tx := rfl
@[simp] theorem setLink_rx : (setLink m l s).rx = s.rx := rfl
@[simp] theorem setLink_windows : (setLink m l s).windows = s.windows := rfl
@[simp] theorem setLink_counters : (setLink m l s).counters = s.counters := rfl
@[simp] theorem setLink_sent : (setLink m l s).sent = s.sent := rfl
@[simp] theorem setLink_jtagBypass : (setLink m l s).jtagBypass = s.jtagBypass := rfl
@[simp] theorem setLink_tlmAck : (setLink m l s).tlmAck = s.tlmAck := rfl
@[simp] theorem setLink_jtagOut : (setLink m l s).jtagOut = s.jtagOut := rfl
@[simp] theorem setLink_ppsOut : (setLink m l s).ppsOut = s.ppsOut := rfl
@[simp] theorem setLink_lanesDown : (setLink m l s).lanesDown = s.lanesDown := rfl
@[simp] theorem setLink_linksDown : (setLink m l s).linksDown = s.linksDown := rfl
@[simp] theorem setLink_lines : (setLink m l s).lines = s.lines := rfl
@[simp] theorem setLink_poolCorr : (setLink m l s).poolCorr = s.poolCorr := rfl
@[simp] theorem setLink_freeCtr : (setLink m l s).freeCtr = s.freeCtr := rfl
@[simp] theorem setLink_pending : (setLink m l s).pending = s.pending := rfl

end

/-! ### What an entry reads as -/

@[simp] theorem plan?_setPlan_same (k : Nat) (x : Plan) (s : State) : plan? (setPlan k x s) k = some x := by simp [plan?, setPlan]

@[simp] theorem plan?_setPlan_other (j k : Nat) (x : Plan) (s : State) (h : j ≠ k) : plan? (setPlan k x s) j = plan? s j := by simp [plan?, setPlan, h]

@[simp] theorem cluster_setCluster_same (k : Nat) (x : Cluster) (s : State) : cluster (setCluster k x s) k = x := by simp [cluster, setCluster]

@[simp] theorem cluster_setCluster_other (j k : Nat) (x : Cluster) (s : State) (h : j ≠ k) : cluster (setCluster k x s) j = cluster s j := by simp [cluster, setCluster, h]

@[simp] theorem cell_setCell_same (k : Nat) (x : SigCell) (s : State) : cell (setCell k x s) k = x := by simp [cell, setCell]

@[simp] theorem cell_setCell_other (j k : Nat) (x : SigCell) (s : State) (h : j ≠ k) : cell (setCell k x s) j = cell s j := by simp [cell, setCell, h]

@[simp] theorem port_setPort_same (k : Nat) (x : Port) (s : State) : port (setPort k x s) k = x := by simp [port, setPort]

@[simp] theorem port_setPort_other (j k : Nat) (x : Port) (s : State) (h : j ≠ k) : port (setPort k x s) j = port s j := by simp [port, setPort, h]

@[simp] theorem combiner_setCombiner_same (k : Nat) (x : Combiner) (s : State) : combiner (setCombiner k x s) k = x := by simp [combiner, setCombiner]

@[simp] theorem combiner_setCombiner_other (j k : Nat) (x : Combiner) (s : State) (h : j ≠ k) : combiner (setCombiner k x s) j = combiner s j := by simp [combiner, setCombiner, h]

@[simp] theorem dipPart_setDip_same (k : Nat) (x : DipPart) (s : State) : dipPart (setDip k x s) k = x := by simp [dipPart, setDip]

@[simp] theorem dipPart_setDip_other (j k : Nat) (x : DipPart) (s : State) (h : j ≠ k) : dipPart (setDip k x s) j = dipPart s j := by simp [dipPart, setDip, h]

@[simp] theorem mailboxLink_setLink_same (k : Nat) (x : MailboxLink) (s : State) : mailboxLink (setLink k x s) k = x := by simp [mailboxLink, setLink]

@[simp] theorem mailboxLink_setLink_other (j k : Nat) (x : MailboxLink) (s : State) (h : j ≠ k) : mailboxLink (setLink k x s) j = mailboxLink s j := by simp [mailboxLink, setLink, h]

@[simp] theorem stream?_setStream_same (k : Nat × Nat) (x : Stream) (s : State) : stream? (setStream k x s) k = some x := by simp [stream?, setStream]

@[simp] theorem stream?_setStream_other (j k : Nat × Nat) (x : Stream) (s : State) (h : j ≠ k) : stream? (setStream k x s) j = stream? s j := by simp [stream?, setStream, h]

@[simp] theorem batchOf_setBatch_same (k : Nat × Nat) (x : Batch) (s : State) : batchOf (setBatch k x s) k = x := by simp [batchOf, setBatch]

@[simp] theorem batchOf_setBatch_other (j k : Nat × Nat) (x : Batch) (s : State) (h : j ≠ k) : batchOf (setBatch k x s) j = batchOf s j := by simp [batchOf, setBatch, h]

@[simp] theorem tableOf_setTable_same (a b : Nat) (x : Table) (s : State) : tableOf (setTable a b x s) a b = x := by simp [tableOf, setTable]

@[simp] theorem tableOf_setTable_other (a b c d : Nat) (x : Table) (s : State) (h : (c, d) ≠ (a, b)) : tableOf (setTable a b x s) c d = tableOf s c d := by
  simp [tableOf, setTable, h]

@[simp] theorem joinOf_setJoin_same (a b : Nat) (x : Join) (s : State) : joinOf (setJoin a b x s) a b = x := by simp [joinOf, setJoin]

@[simp] theorem joinOf_setJoin_other (a b c d : Nat) (x : Join) (s : State) (h : (c, d) ≠ (a, b)) : joinOf (setJoin a b x s) c d = joinOf s c d := by
  simp [joinOf, setJoin, h]

@[simp] theorem statObj_setStat_same (a b : Nat) (x : StatObj) (s : State) : statObj (setStat a b x s) a b = x := by simp [statObj, setStat]

@[simp] theorem statObj_setStat_other (a b c d : Nat) (x : StatObj) (s : State) (h : (c, d) ≠ (a, b)) : statObj (setStat a b x s) c d = statObj s c d := by
  simp [statObj, setStat, h]

end Sys2Proof.Machine
end

