-- ==== Sys2Proof/WellFormed.lean ====
section
/-! DEFINITION. Which commands are well formed: the operands whose type is wider than what the spec lets the command carry. -/

namespace Sys2Proof

/-- A received packet: at most 1,400 bytes of payload, a 16-byte tag unless it travels unsealed, and a 16-byte source address (R393). -/
def KitPacket.wellFormed (p : KitPacket) : Bool :=
  decide (p.payload.length ≤ 1400) && (p.tag.length == 16 || (p.header.keyId == 0xffff#16 && p.tag.isEmpty)) && p.source.ip.length == 16

/-- A PTP message: a 16-byte source address (R391). -/
def PtpMessage.wellFormed (m : PtpMessage) : Bool := m.source.ip.length == 16

/-- A boot image copy as it was read: a header of 2,080 bytes, its signatures, and the digest of its body; nothing of a copy that could
not be read (R438). -/
def ImageCopy.wellFormed (c : ImageCopy) : Bool :=
  if c.readable then c.header.length == 2080 && c.edSig.length == 64 && c.mldsaSig.length == 3309 && c.bodyDigest.length == 48
  else c.header.isEmpty && c.edSig.isEmpty && c.mldsaSig.isEmpty && c.bodyDigest.isEmpty

/-- A request header: MSG_LENGTH and what the packet holds are at most 65,535, and a bad field lies inside the message (Table 13-2). -/
def Req.wellFormed (r : Req) : Bool := r.bad.all fun b => decide (b.toNat < 32 + max r.present.toNat r.length.toNat)

/-- A command is well formed (R420, Tables 13-6 to 13-15: a count of elements is a u16). -/
def Instr.wellFormed (i : Instr) : Bool :=
  match i with
  | .identify r => r.wellFormed
  | .inventory r _ => r.wellFormed
  | .mailboxRead r => r.wellFormed
  | .unknownOpcode r _ => r.wellFormed
  | .planLoad r _ _ _ _ avoid => r.wellFormed && (decide (avoid.length < 65536))
  | .planUnload r _ => r.wellFormed
  | .planActivate r _ => r.wellFormed
  | .planRetire r _ => r.wellFormed
  | .rebind r _ _ moves avoid => r.wellFormed && (decide (moves.length < 65536) && decide (avoid.length < 65536))
  | .rebindCancel r _ => r.wellFormed
  | .fitReportRead r _ => r.wellFormed
  | .planRead r _ => r.wellFormed
  | .bindingRead r _ _ _ => r.wellFormed
  | .memAlloc r _ _ _ => r.wellFormed
  | .memFree r _ => r.wellFormed
  | .pageBringIn r _ _ _ => r.wellFormed
  | .pageBringInComplete _ => true
  | .pageSet r _ _ _ => r.wellFormed
  | .pageSetComplete _ => true
  | .pageRead r _ _ => r.wellFormed
  | .streamStart r _ _ => r.wellFormed
  | .streamRead r _ => r.wellFormed
  | .streamRearm r _ _ _ => r.wellFormed
  | .streamFaultRead r _ => r.wellFormed
  | .streamResume r _ => r.wellFormed
  | .streamAbort r _ => r.wellFormed
  | .streamCancel r _ => r.wellFormed
  | .queueRead r _ => r.wellFormed
  | .queueSet r _ _ => r.wellFormed
  | .queueOp r _ _ _ => r.wellFormed
  | .queueReset r _ => r.wellFormed
  | .signalAlloc r _ _ => r.wellFormed
  | .signalSet r _ _ _ _ _ _ => r.wellFormed
  | .signalAdd r _ _ => r.wellFormed
  | .signalRead r _ => r.wellFormed
  | .remoteDiscard r _ _ _ _ => r.wellFormed
  | .ownerMap r _ _ _ words => r.wellFormed && (decide (words.length < 65536))
  | .ownerRead r _ _ _ _ => r.wellFormed
  | .tableReplace r _ _ _ _ => r.wellFormed
  | .statsSet r _ _ _ _ columns => r.wellFormed && (decide (columns.length < 65536) && columns.all fun c => c.length == 64)
  | .statsRead r _ _ _ _ _ => r.wellFormed
  | .tableCounters r _ _ => r.wellFormed
  | .rulingRead r => r.wellFormed
  | .rulingSet r _ => r.wellFormed
  | .rulingAck r _ => r.wellFormed
  | .taskSubmit r _ _ ligs => r.wellFormed && (decide (ligs.length < 65536))
  | .taskCancel r _ => r.wellFormed
  | .traceSet r _ _ _ _ _ => r.wellFormed
  | .traceRead r _ _ _ => r.wellFormed
  | .attest r nonce => r.wellFormed && nonce.length == 32
  | .measurementsRead r => r.wellFormed
  | .keyslotOpen r _ _ _ material => r.wellFormed && (decide (material.length ≤ 3544))
  | .keyslotOpenTimeout _ => true
  | .keyslotClose r _ => r.wellFormed
  | .sessionRekey r material => r.wellFormed && material.length == 1248
  | .rekeyTimeout => true
  | .sessionEnd r => r.wellFormed
  | .scrubComplete => true
  | .debugUnlock r token => r.wellFormed && token.length == 3437
  | .blotterSet r _ _ _ => r.wellFormed
  | .blotterRead r _ => r.wellFormed
  | .selftestRun r _ => r.wellFormed
  | .unitExclude r units => r.wellFormed && (decide (units.length < 65536))
  | .unitInclude r units => r.wellFormed && (decide (units.length < 65536))
  | .waitResume r _ _ _ => r.wellFormed
  | .waitAbort r _ _ _ => r.wellFormed
  | .powerRead r => r.wellFormed
  | .powerCapSet r _ => r.wellFormed
  | .powerStateSet r _ _ => r.wellFormed
  | .reset r _ _ => r.wellFormed
  | .warmReset => true
  | .planResetCommit _ => true
  | .portSet r _ _ ip => r.wellFormed && ip.length == 16
  | .portRead r _ => r.wellFormed
  | .deviceNumberSet r _ => r.wellFormed
  | .neighbourSet r _ entries => r.wellFormed && (decide (entries.length < 65536) && entries.all fun e => e.ip.length == 16)
  | .txStreamSet r _ _ _ _ _ _ => r.wellFormed
  | .rxStreamSet r _ _ _ _ _ _ _ => r.wellFormed
  | .rxStreamRead r _ _ _ => r.wellFormed
  | .ptpSet r _ _ _ _ => r.wellFormed
  | .ptpRead r => r.wellFormed
  | .matchWrite r _ _ _ images => r.wellFormed && (decide (images.length < 65536))
  | .matchTags r _ _ _ tags => r.wellFormed && (decide (tags.length < 65536))
  | .matchRead r _ _ _ _ => r.wellFormed
  | .tickEdge _ => true
  | .guardBandOpen => true
  | .tableSwap _ _ => true
  | .hotRowCutover _ _ _ => true
  | .dipPlacementChange _ _ _ => true
  | .rebindCommit _ => true
  | .planActivation _ => true
  | .planRetirement _ => true
  | .periodChange => true
  | .rulTickStep => true
  | .rulLockLocked => true
  | .ptpHoldover => true
  | .rulEdgeMiss _ => true
  | .ruledRelease _ _ => true
  | .dispatch _ _ => true
  | .heldEventOffered _ => true
  | .ligatureComplete _ => true
  | .rulOverrun _ _ => true
  | .feedRead _ => true
  | .feedWrite _ => true
  | .filter _ => true
  | .filterCompact _ => true
  | .hash _ => true
  | .joinBuild _ => true
  | .joinProbe _ => true
  | .groupPartial _ => true
  | .groupMerge _ => true
  | .shape _ => true
  | .stats _ => true
  | .spectral _ => true
  | .layers _ => true
  | .topk _ => true
  | .merge _ => true
  | .argmax _ => true
  | .match_ _ _ => true
  | .automaton _ _ => true
  | .lookup _ => true
  | .pool _ => true
  | .poolDirect _ => true
  | .update _ => true
  | .serveTask _ _ => true
  | .combinerWindow _ _ => true
  | .combinerDrain _ => true
  | .surveyInterval => true
  | .migrationCopyComplete _ _ _ => true
  | .rebindCopyComplete _ => true
  | .zeroingComplete => true
  | .replicaCopyComplete _ _ _ => true
  | .padCopyComplete _ _ _ => true
  | .epochBoundary _ => true
  | .statsMerge _ _ => true
  | .statsFlip _ _ => true
  | .tileBegin _ => true
  | .transferIssue _ => true
  | .transferComplete _ _ _ _ => true
  | .strTagLate _ _ => true
  | .slotDrain _ => true
  | .batchClose _ _ => true
  | .ingestUnitDecode _ => true
  | .frameDecode _ _ => true
  | .blockVerify _ block _ => (decide (block.length ≤ 65536))
  | .rasterItem _ _ => true
  | .pcmItem _ _ => true
  | .packetCommit _ _ packet => (decide (packet.length ≤ 3669960))
  | .takeWait _ _ _ _ => true
  | .takePoll _ => true
  | .mark _ => true
  | .rewind _ => true
  | .release _ => true
  | .addApplied _ _ _ => true
  | .waitTimeout _ _ _ => true
  | .remoteSignalApplied _ _ _ _ => true
  | .sigRemoteHeld _ _ _ _ => true
  | .data p => p.wellFormed
  | .signal p => p.wellFormed
  | .mbxReq p => p.wellFormed
  | .exReq p => p.wellFormed
  | .exUpd p => p.wellFormed
  | .exRows p => p.wellFormed
  | .exLate p => p.wellFormed
  | .dipReq p _ => p.wellFormed
  | .idReq p => p.wellFormed
  | .hello p => p.wellFormed
  | .finish p => p.wellFormed
  | .reply p => p.wellFormed
  | .confirm p => p.wellFormed
  | .abort p => p.wellFormed
  | .handshakeFragmentTimeout _ _ => true
  | .handshakeTimeout _ => true
  | .helloRepeat _ => true
  | .notForPort _ _ => true
  | .pfcFrame _ times => (decide (times.length ≤ 8))
  | .pauseFrame _ => true
  | .sync m => m.wellFormed
  | .followUp m => m.wellFormed
  | .delayResp m => m.wellFormed
  | .announce m _ => m.wellFormed
  | .frameBoundary _ => true
  | .transmitStreamPacket _ => true
  | .portLinkDown _ => true
  | .linkUp _ => true
  | .uncorrectedCodeword _ => true
  | .linkLaneDown _ _ _ => true
  | .linkDown _ _ => true
  | .ptpPpsIn _ _ => true
  | .ptpPpsOut => true
  | .selftestSegment _ _ => true
  | .selftestDeferred _ => true
  | .unitExcluded _ => true
  | .quillLockstep => true
  | .secTrngHealth _ => true
  | .powerOn _ => true
  | .pwrGood => true
  | .loaderAccepted primary alternate => (primary.wellFormed && alternate.wellFormed)
  | .goustReady primary alternate _ => (primary.wellFormed && alternate.wellFormed)
  | .modResetN => true
  | .modResetRelease => true
  | .standby => true
  | .supplyWarningBand _ _ => true
  | .thermalWarn _ _ => true
  | .protection _ _ => true
  | .shutdown _ => true
  | .powerComparison _ _ _ => true
  | .capUnheld => true
  | .telemetryWrite _ _ => true
  | .idcode => true
  | .bypass _ => true
  | .imageIncomplete => true
  | .pauseTimeExpired _ _ => true
  | .readingReturnedToRange _ _ => true

end Sys2Proof
end

