-- ==== Sys2Proof/Tests/Slice0.lean ====
section
/-! SUPPORT. Tests of the model: for every obligation, values that meet the hypotheses of each of its clauses (`wit_…`); an
ill-formed command for each check of well-formedness; and a few results whose expected values are written out from the spec. -/
namespace Sys2Proof.Tests
open Sys2Proof Sys2Proof.Machine
-- the theorems below are checked one after another: many at once ask for more threads than the check allows
set_option Elab.async false

/-- The device with Goust running. -/
def up : State := { State.reset with boot := { State.reset.boot with stage := 5 } }

/-- A request on mailbox 0 whose message length is `len`. -/
def rq (len : Nat) : Req := ⟨0, 1, 2, BitVec.ofNat 16 len, BitVec.ofNat 16 len, none⟩

/-- The device with a mailbox 0 that holds these pending and these completed commands. -/
def withBox (pend : List PendCmd) (done : List Kept) : State := { up with mboxes := [(0, ⟨0, 0, 0, pend, done, []⟩)] }
theorem all_of {α : Type} {l : List α} {p : α → Prop} [DecidablePred p] (h : l.all (fun x => decide (p x)) = true) : ∀ x ∈ l, p x := by
  simpa using h

/-- A completed command with tag 1. -/
def kept1 : Kept := ⟨1, 2, 0x101, []⟩

/-- An image with no requests, ligatures or streams. -/
def img0 : Image := ⟨7, 0, 4096, 3, false, false, false, [], [], [], [], [], [], [], [], [], []⟩

/-- A plan with that image in state `st`. -/
def pl0 (st : PlanState) : Plan :=
  { image := img0, state := st, bound := [], avoid := [], changed := 0, retireBands := 0, resetting := false, padCopies := [],
    replicas := [], imageFrames := [], filterbanks := [], rebind := none }

/-- The device with a plan in slot 0. -/
def withPlan (p : Plan) : State := { up with plans := [(0, p)] }

/-- The same in a guard band that has admitted an action. -/
def withAct (p : Plan) (a : Action) : State :=
  { withPlan p with actions := [⟨a, true, false⟩], clk := { up.clk with guard := true } }

/-- A reference of kind 1 in the embedding pool, abstract id 5. -/
def ref0 : Ref := ⟨4096, 0, 0, 0, 5, 0, 1, 1, false⟩

/-- A session that holds four resident pages from address 0. -/
def sess : State := { up with
  allocs := [⟨0, 4⟩], pages := [(0, ⟨0, false, false, 1, 0⟩), (1, ⟨1, false, false, 1, 0⟩), (2, ⟨2, false, false, 2, 0⟩), (3, ⟨0, false, false, 0, 0⟩)] }
theorem one_frame : 1 ≤ (openFrames up (sessionAvail up) 0).length :=
  List.length_pos_of_mem (a := 0) (by
    unfold openFrames
    simp only [List.mem_filter, List.mem_map, List.mem_range]
    exact ⟨⟨0, by decide +kernel, by decide +kernel⟩, by decide +kernel⟩)

/-- The same with a bring-in of page 3 pending. -/
def sessIn : State := { sess with mboxes := [(0, ⟨0, 0, 0, [⟨{ kept1 with tag := 9 }, .bringIn 3 0 2⟩], [], []⟩)] }
theorem sessIn_frames : pageFrames sessIn ⟨0, false, false, 0, 0⟩ ≠ [] :=
  List.ne_nil_of_mem (a := 5) (by
    unfold pageFrames openFrames
    simp only [List.mem_filter, List.mem_map, List.mem_range]
    exact ⟨⟨5, by decide +kernel, by decide +kernel⟩, by decide +kernel⟩)
theorem open_le (s : State) (a : Avail) (d : Nat) : (openFrames s a d).length ≤ dieFrames s.variant := by
  unfold openFrames
  refine Nat.le_trans (List.length_filter_le _ _) ?_
  simp

/-- A host stream descriptor: one tile of 256 bytes from address 0 into a ring of three slots at 4 MiB. -/
def descBytes : Bytes := zeros 5 ++ [0xff, 0xff, 0, 0, 0, 0x20, 1, 0, 0] ++ List.replicate 10 0xff ++
  [0, 1, 0, 0, 1, 0, 1, 0, 1, 0, 1, 0] ++ zeros 12 ++ [0, 0, 0x40, 0, 0, 0, 0, 0] ++ zeros 8

/-- The session with a plan whose Reservoir part holds the ring of the descriptor at address 0. -/
def sessRing (p : Plan) : State := { sess with
  plans := [(0, p)], mem := writeCells [] (hbmDva 0) (descBytes.take 48 ++ [0, 0, 0, 0, 0, 0, 0x40, 0] ++ zeros 8) }

/-- The host stream of that descriptor. -/
def str0 (st : StrState) : Stream := { Stream.fresh (streamAt descBytes 0) 0 false with state := st }

/-- The session with one host stream. -/
def withStr (x : Stream) : State := { sess with streams := [((255, 0), x)] }

/-- The fault record of a page that is not there. -/
def flt (dva : Nat) : FaultRec := ⟨dva, 0, 0, 0, 0, 0, 0, 0, 1⟩

/-- A plan whose image has a packet queue, a table, a statistics reference and a core; the blob begins with the table's descriptor. -/
def imgT : Image := { img0 with
  refs := [⟨2097152, 0, 0, 6, 5, 0, 0, 1, false⟩, ⟨2097152, 0, 0, 6, 6, 0, 0, 1, false⟩, ⟨64, 4194304, 0, 0xffff, 8, 0, 0, 6, false⟩]
  blob := le 4 0xb02e00 ++ le 2 16 ++ le 2 4 ++ zeros 5 ++ le 2 9 ++ le 4 4 ++ le 4 2 ++ le 4 77 ++ le 5 1000 ++ zeros 96 }

/-- The places of that plan: a core, a Reservoir part, a region of the embedding pool, a queue and a match region. -/
def boundT : List Bound :=
  [⟨1, 0, 0, 0, 0, 0, 0⟩, ⟨4, 0, 9, 0, 0, 2 * 2 ^ 53, 1048576⟩, ⟨5, 0, 6, 0, 0, 0, 2097152⟩, ⟨6, 0, 3, 0, 40, 5 * 2 ^ 53 + 40, 64⟩,
   ⟨9, 0, 2, 0, 0, 0, 64⟩]

/-- A plan with that image. -/
def plT (st : PlanState) : Plan := { pl0 st with image := imgT, bound := boundT }
theorem tableCtx_of {s : State} {slot ref : Nat} {p : Plan} {r : Ref} (h1 : plan? s slot = some p) (h2 : refOf p ref = some r)
    (h3 : r.kind = 1) : tableCtx s slot ref = some ⟨p, slot, ref, r, tableDesc p r⟩ := by
  simp [tableCtx, h1, h2, h3]

/-- The table of a plan under a reference. -/
def ctxT (p : Plan) (ref : Nat) : TableCtx :=
  ⟨p, 0, ref, ⟨2097152, 0, 0, 6, ref, 0, 0, 1, false⟩, tableDesc p ⟨2097152, 0, 0, 6, ref, 0, 0, 1, false⟩⟩

/-- An owner entry of row block 0 at home in frame 0 of this device. -/
def own0 : Owner := ⟨true, 0, [0, 0, 0, 0], 0, 0, 0⟩

/-- The device with that plan, its page resident, and a table. -/
def tblUp (p : Plan) (t : Table) : State := { withPlan p with pages := [(0, ⟨0, false, false, 1, 0⟩)], tables := [((0, 5), t)] }

/-- A table with one owner entry. -/
def tbl0 : Table := Table.fresh 5 [own0]

/-- The device with a table in a guard band that has admitted an action. -/
def tblAct (t : Table) (a : Action) : State :=
  { tblUp (plT .active) t with actions := [⟨a, true, false⟩], clk := { up.clk with guard := true } }
theorem ctx5 {s : State} {st : PlanState} (h : s.plans = [(0, plT st)]) : tableCtx s 0 5 = some (ctxT (plT st) 5) :=
  tableCtx_of (by simp [plan?, look, h]) rfl rfl

/-- A queue of the plan in slot 0 with these packets. -/
def que (pkts : List Packet) : Queue := { Queue.bind (.plan 0) 64 2 1 2 with pkts := pkts }

/-- The device with that plan and queue. -/
def queUp (p : Plan) (x : Queue) : State := { withPlan p with queues := [(40, x)] }

/-- A packet of one cell. -/
def pk1 : Packet := ⟨[1, 2, 3], [7], 0, 0⟩

/-- A ligature on abstract core 0 with these stages. -/
def ligS (sts : List Stage) : Ligature := ⟨8, 256, 0, 1, 0, 1, 3, 0xffff, 0xffff, false, sts⟩

/-- That plan with a statistics stage for reference 8, whose block stands at 64. -/
def plS : Plan := { plT .active with image := { imgT with
  blob := imgT.blob.take 64 ++ zeros 6 ++ [1, 0] ++ zeros 24 ++ zeros 22 ++ [8, 0] ++ zeros 8, ligatures := [ligS [⟨2, 0, 2, 0, 0, 0, 0, 0, 64, 8⟩]] } }

/-- The device with that plan and the statistics reference's first bytes in memory: two columns, host flips where `f` is 1. -/
def statUp (st : PlanState) (f : Byte) : State :=
  { withPlan (plT st) with mem := writeCells [] (hbmDva 4194304) ([2, 0, f]), stats := [((0, 8), { partials := [Partial.empty 0 5 1 none], cores := [], published := none })] }

/-- That plan with a batch layout of one epoch for each position, past which its counter has gone once. -/
def epUp (mode : Byte) (o : StatObj) : State :=
  { statUp .active mode with
    plans := [(0, { plT .active with image := { imgT with layouts := [zeros 56 ++ le 8 1] } })], batches := [((0, 0), ⟨1, 0, [], [], [], []⟩)],
    stats := [((0, 8), o)] }
def plEp : Plan := { plT .active with image := { imgT with layouts := [zeros 56 ++ le 8 1] } }

/-- The device disciplined and locked for 16 ticks. -/
def dis : State := { up with rul := { up.rul with cfg := BitVec.ofNat 64 (475000 + 2 ^ 63), status := 0x10, aligned := 16 } }

/-- A plan of one ligature on core 0 with one stage. -/
def plL (ruled : Bool) (st : Stage) : Plan :=
  { plT .active with image := { imgT with ligatures := [{ ligS [st] with ruled := ruled }], certs := if ruled then [⟨0, 1000, 500, 500, 0, 0, 0, 1, 1⟩] else [] } }

/-- The filter stage with its block at offset 64. -/
def st0 : Stage := ⟨0, 0, 1, 0, 0, 0, 0, 0, 64, 8⟩

/-- The task of that ligature. -/
def tsk (ruled : Bool) : Task := { id := 0, slot := 0, lig := 0, level := 3, ready := 0, release := 0, deadline := 500, core := 0, ruled := ruled, overrun := false, suspended := none }

/-- The device with that plan and cluster 0. -/
def clUp (p : Plan) (c : Cluster) : State := { withPlan p with sched := [(0, c)] }

/-- Keys of a slot, all zero. -/
def keys0 : Keys := ⟨zeros 32, zeros 4, zeros 32, zeros 4⟩

/-- A key slot with those keys. -/
def slotK (n : Nat) : KeySlot := ⟨n, false, 3, keys0, [], none⟩

/-- A port that carries frames. -/
def portOn : Port := { Port.reset with live := 1, linkUp := true }

/-- The device with port 0 up, the session's key slot and a peer's. -/
def net : State := { up with ports := [(0, portOn)], sec := { up.sec with slots := [slotK 0, slotK 1] } }

/-- The header of a packet from device 3, whole in one packet. -/
def hdr (kind : BitVec 4) (key len endpoint : BitVec 16) : KitHeader :=
  ⟨1, kind, false, false, true, true, true, 3, 0, key, endpoint, len, 0, 0, 1, 0⟩

/-- A sealed packet of that kind. -/
def pkt (h : KitHeader) (bs : Bytes) : KitPacket :=
  let e := gcmSeal (zeros 32) (zeros 4 ++ be 8 h.seq.toNat) (kitHeaderBytes h) bs
  ⟨0, ⟨0, zeros 16, 0⟩, BitVec.ofNat 16 (56 + bs.length), h, e.1, e.2⟩

/-- A debug token for this device but for its signatures. -/
def tok0 : Bytes := le 4 0x4742444b ++ [1] ++ zeros 3432
theorem aesBlock_len (rks : List (List Nat)) (b : List Nat) (h : (nth rks 14 []).length = 16) : (aesBlock rks b).length = 16 := by
  simp [aesBlock, xorN, aesSubShift, h]
theorem gcmStream_len (rks : List (List Nat)) (h : (nth rks 14 []).length = 16) : ∀ n c, (gcmStream rks n c).length = 16 * n
  | 0, _ => rfl
  | n + 1, c => by simp [gcmStream, aesBlock_len rks _ h, gcmStream_len rks h n]; omega
theorem xorB_xorB : ∀ (a b : Bytes), a.length ≤ b.length → xorB (xorB a b) b = a
  | [], _, _ => by simp [xorB]
  | x :: a, [], h => by simp at h
  | x :: a, y :: b, h => by
    have := xorB_xorB a b (by simpa using h)
    simp only [xorB, List.zip_cons_cons, List.map_cons, List.cons.injEq] at this ⊢
    exact ⟨by rw [BitVec.xor_assoc, BitVec.xor_self, BitVec.xor_zero], this⟩
theorem stream_len (n c : Nat) (bs : Bytes) (h : bs.length ≤ 16 * n) : bs.length ≤ (gcmStream (aesRoundKeys (zeros 32)) n c).length := by
  rw [gcmStream_len _ (by decide +kernel)]; exact h
theorem ceil16 (n : Nat) : n ≤ 16 * ceilDiv n 16 := by simp only [ceilDiv]; split <;> omega
theorem seal_len (iv aad bs : Bytes) : (gcmSeal (zeros 32) iv aad bs).1.length = bs.length := by
  have := stream_len (ceilDiv bs.length 16) (ofBe (fit 12 iv) * 2 ^ 32 + 2) bs (ceil16 _)
  simp only [gcmSeal, xorB, List.length_map, List.length_zip]
  exact Nat.min_eq_left this

/-- What was sealed under the zero key opens to what was sealed. -/
theorem open_seal (iv aad bs : Bytes) :
    gcmOpen (zeros 32) iv aad (gcmSeal (zeros 32) iv aad bs).1 (gcmSeal (zeros 32) iv aad bs).2 = some bs := by
  have hl := seal_len iv aad bs
  have := stream_len (ceilDiv bs.length 16) (ofBe (fit 12 iv) * 2 ^ 32 + 2) bs (ceil16 _)
  have ht : (gcmSeal (zeros 32) iv aad bs).2 = gcmTag (aesRoundKeys (zeros 32)) iv aad (gcmSeal (zeros 32) iv aad bs).1 := rfl
  have hx : (gcmSeal (zeros 32) iv aad bs).1 = xorB bs (gcmStream (aesRoundKeys (zeros 32)) (ceilDiv bs.length 16) (ofBe (fit 12 iv) * 2 ^ 32 + 2)) := rfl
  unfold gcmOpen
  simp only [ht, hl, if_true]
  rw [hx, xorB_xorB _ _ this]
theorem pkt_payload (h : KitHeader) (bs : Bytes) : (pkt h bs).payload = (gcmSeal (zeros 32) (zeros 4 ++ be 8 h.seq.toNat) (kitHeaderBytes h) bs).1 := rfl
theorem pkt_tag (h : KitHeader) (bs : Bytes) : (pkt h bs).tag = (gcmSeal (zeros 32) (zeros 4 ++ be 8 h.seq.toNat) (kitHeaderBytes h) bs).2 := rfl
theorem pkt_header (h : KitHeader) (bs : Bytes) : (pkt h bs).header = h := rfl
theorem pkt_port (h : KitHeader) (bs : Bytes) : (pkt h bs).port.toNat = 0 := rfl
theorem pkt_udpLen (h : KitHeader) (bs : Bytes) : (pkt h bs).udpLen = BitVec.ofNat 16 (56 + bs.length) := rfl
theorem took {h : KitHeader} {bs : Bytes} {s : State} (kind : Nat) (k : KeySlot)
    (hs : (keySlot s h.keyId.toNat) = some k) (hk : k.next = none ∧ k.keys = keys0)
    (hc : (portCarries s 0 && h.kind.toNat == kind && (1 ≤ kind && kind ≤ 12 && (BitVec.ofNat 16 (56 + bs.length)).toNat == (if kind = 12 then 40 else 56) + h.len.toNat && bs.length == h.len.toNat
      && h.ver == 1#4 && h.rsv == 0#31 && (kindLimits kind).1 ≤ h.len.toNat && h.len.toNat ≤ (kindLimits kind).2 && (kind == 1 || kind == 4 || kind == 5 || (h.first && h.last)))
      && h.dstDev == s.deviceNumber && !h.extDst && kindAllowed k kind && seqFresh s k.num h.seq.toNat) = true) :
    receiveKit (pkt h bs) kind s = (some bs, seqAccept k.num h.seq.toNat s) := by
  simp only [Bool.and_eq_true, beq_iff_eq, decide_eq_true_eq, Bool.not_eq_true'] at hc
  obtain ⟨⟨⟨⟨⟨⟨h1, h2⟩, h3⟩, h4⟩, h5⟩, h6⟩, h7⟩ := hc
  have ho : openKit k h (pkt h bs).payload (pkt h bs).tag = some (bs, false) := by
    unfold openKit
    simp only [hk, Option.bind_none, keys0, pkt_payload, pkt_tag, open_seal, Option.map_some]
  have hf : kitFormOk (pkt h bs) kind = true := by
    unfold kitFormOk
    simp only [pkt_payload, seal_len, pkt_header, pkt_udpLen, Bool.and_eq_true, beq_iff_eq]
    obtain ⟨⟨⟨⟨⟨⟨⟨⟨x, y⟩, a⟩, a2⟩, a3⟩, a4⟩, b⟩, c⟩, d⟩ := h3
    exact ⟨⟨⟨⟨⟨⟨⟨⟨decide_eq_true x, decide_eq_true y⟩, a⟩, a2⟩, a3⟩, a4⟩, decide_eq_true b⟩, decide_eq_true c⟩, d⟩
  have hk2 : checkedKind (pkt h bs) kind = some kind := by simp [checkedKind, pkt_header, h2]
  have hk3 : kindForRow k kind kind = true := by simp [kindForRow, h6]
  unfold receiveKit
  simp only [pkt_header, pkt_port, ho, h1, h4, h5, h7, hs, if_true, hk2, hk3, hf]
  simp
theorem recv {p : KitPacket} {k : Nat} {s : State} {o : Option Bytes} (h : (receiveKit p k s).1 = o) :
    receiveKit p k s = (o, (receiveKit p k s).2) := Prod.ext h rfl

/-- The device after a packet. -/
def got (k : Nat) (p : KitPacket) (s : State) : State := (receiveKit p k s).2

/-- The device with that plan, table and network. -/
def exNet (t : Table) : State := { tblUp (plT .active) t with ports := net.ports, sec := net.sec }

/-- The header of an exchange packet for table 77. -/
def exB (gen count parts tick : Nat) : Bytes := zeros 12 ++ le 2 gen ++ le 2 count ++ le 2 parts ++ le 2 0 ++ le 4 77 ++ le 8 tick
theorem tableById_of {u : State} {p : Plan} {r : Ref} {rs : List Ref} {id : Nat} (h : u.plans = [(0, p)]) (h2 : p.state ≠ .loaded)
    (h3 : (p.image.refs.filter fun r => r.kind == 1) = r :: rs) (h4 : (tableDesc p r).id = id) :
    tableById u id = some ⟨p, 0, r.absId, r, tableDesc p r⟩ := by
  subst h4
  simp [tableById, planTables, plan?, look, h, h2, h3]
theorem tableById_none {u : State} {id : Nat} (h : u.plans = []) : tableById u id = none := by simp [tableById, h]
theorem exNet_table {u : State} (h : u.plans = [(0, plT .active)]) : tableById u 77 = some (ctxT (plT .active) 5) :=
  tableById_of h (by decide) rfl (by decide +kernel)

/-- That plan with Dip rows. -/
def plD : Plan := { plT .active with image := { imgT with dip := true }, bound := boundT ++ [⟨4, 2, 10, 0, 0, 2 * 2 ^ 53 + 4194304, 1048576⟩] }

/-- The device with that plan and a row of the table on every Dip die. -/
def dipUp (t : Table) (rows : List DipRow) : State :=
  { tblUp plD t with dips := [(0, ⟨rows, []⟩), (1, ⟨rows, []⟩)] }
theorem dipTable_of {u : State} {p : Plan} {r : Ref} {rs : List Ref} {id : Nat} (h : u.plans = [(0, p)])
    (h3 : (p.image.refs.filter fun r => r.kind == 1) = r :: rs) (h4 : (tableDesc p r).id = id)
    (h5 : dipServed ⟨p, 0, r.absId, r, tableDesc p r⟩ = true) : dipTable u id = some ⟨p, 0, r.absId, r, tableDesc p r⟩ := by
  subst h4
  simp [dipTable, allTables, planTables, plan?, look, h, h3, h5]
theorem dipUp_table {u : State} (h : u.plans = [(0, plD)]) : dipTable u 77 = some (ctxT plD 5) :=
  dipTable_of h rfl (by decide +kernel) (by decide +kernel)

/-- A placed Dip row. -/
def row0 : DipRow := ⟨0, 5, 0, 3, zeros 16, 0, true, none⟩

/-- A service stream of the table. -/
def descV : StreamDesc := { streamAt descBytes 0 with kind := 2, srcKind := 0xf, srcAbs := 5 }

/-- That plan with the service stream. -/
def plV : Plan := { plT .active with image := { imgT with streams := [descV] } }

/-- A sealed local request for row 3 of the table. -/
def req0 : ReqList := ⟨0, 0, 0, 0, 0, 0, [(3, 0)], 0, [], true, false, false⟩

/-- The device with a transmit stream on a queue of one packet. -/
def txUp : State := { queUp (plT .active) (que [pk1]) with tx := [⟨40, 3, 9, 0, false, 1, 0⟩] }

/-- A PTP message of sequence number 5 from the selected master. -/
def ptpM : PtpMessage := ⟨0, 0, ⟨0, zeros 16, 0⟩, 0, 7, 5, 0, true⟩

/-- The device with the time base set on port 0. -/
def ptpUp (p : Ptp) : State := { net with ptp := { p with isSet := true, master := some (7, 0), masters := [(7, 0)], heard := [(7, 0)] } }

/-- A session that holds 128 KiB of pinned memory, and cell 9. -/
def pin : State := { up with allocs := [⟨0, 1⟩], pages := [(0, ⟨0, false, false, 2, 0⟩)], cells := [(9, { SigCell.reset with session := true })] }

/-- The start-up sequence at a stage. -/
def at_ (n : BitVec 4) : State := { State.reset with boot := { State.reset.boot with stage := n } }

/-- An image copy of a type with no body, and one that cannot be read. -/
def img (type : Byte) : ImageCopy := ⟨le 4 0x4d49474b ++ [type] ++ zeros 2075, zeros 64, zeros 3309, zeros 48, true⟩
def imgBad : ImageCopy := ⟨[], [], [], [], false⟩

/-- The start-up sequence at a stage with the fused hash of that image's keys. -/
def boot_ (n : BitVec 4) : State := { at_ n with sec := { up.sec with fuses := { up.sec.fuses with vkh := [sha384 (zeros 1984)] } } }

/-- Both signatures of that image are accepted. -/
def imgSigned (type : Byte) : Prop :=
  Config.ed25519Verify (slice (img type).header 96 32) (img type).header (img type).edSig = true ∧
    Config.mldsaVerify (slice (img type).header 128 1952) (ascii "KF384-image") (img type).header (img type).mldsaSig = true
theorem img_ok {n : BitVec 4} (type : Byte) (hn : n = 2 ∨ n = 3) (ht : type = 1 ∨ type = 2) (h : imgSigned type) :
    imageFail (boot_ n) (img type) type.toNat = 0 := by
  have hv : (boot_ n).sec.fuses.vkh[0]? = some (sha384 (slice (img type).header 96 1984)) := by
    rw [show slice (img type).header 96 1984 = zeros 1984 by rcases ht with rfl | rfl <;> decide +kernel]; rfl
  have hk : imgKeyIndex (img type).header = 0 := by rcases ht with rfl | rfl <;> decide +kernel
  have hl : ((img type).header.length ≠ 2080 ∨ leAt (img type).header 0 4 ≠ 0x4d49474b ∨ byteAt (img type).header 4 ≠ type.toNat) = False := by
    rcases ht with rfl | rfl <;> exact eq_false (by decide +kernel)
  unfold imageFail
  simp only [hl, hk, hv, ne_eq, not_true_eq_false, or_false]
  rw [h.1, h.2]
  rcases hn with rfl | rfl <;> rcases ht with rfl | rfl <;> decide +kernel

/-- A plan of one ligature with one stage, whose block stands at 64 in the blob. -/
def plG (st : Stage) (block : Bytes) : Plan :=
  { plT .active with image := { imgT with blob := imgT.blob.take 64 ++ block, ligatures := [ligS [st]] } }

/-- The running task of that ligature. -/
def run0 : Running := { task := tsk false, engines := 1, started := 0, late := false }

/-- The group of that task with these columns. -/
def grpC (rows : Nat) (cols : List Column) : Group :=
  { slot := 0, lig := 0, started := 0, num := 0, next := 0, rows := rows, source := 0, recs := List.range rows,
    valid := List.replicate rows true, sampled := false, epoch := 0, sample := 0, counter := 0, layout := 0, cols := cols, outBytes := 0 }

/-- The device in which that stage may start on that group. -/
def stUp (p : Plan) (rows : Nat) (cols : List Column) : State :=
  { tblUp p tbl0 with sched := [(0, { Cluster.reset with running := [run0] })], nibs := [(0, [grpC rows cols])] }

/-- The reference of that stage. -/
def r0 : StageRef := ⟨0, 0, 0, 0, none⟩

/-- What the stage works with. -/
def cx (p : Plan) (st : Stage) (rows : Nat) (cols : List Column) (more : List Stage := []) : StageCtx :=
  ⟨p, ligS (st :: more), st, 0, 0, 0, 0, 0, 0, run0, grpC rows cols, true⟩
theorem ready {s : State} {p : Plan} {st : Stage} {rows : Nat} {cols : List Column} {more : List Stage} {e sd op : Nat} (h1 : s.plans = [(0, p)])
    (h2 : s.sched = [(0, { Cluster.reset with running := [run0] })]) (h3 : s.nibs = [(0, [grpC rows cols])])
    (h4 : p.image.ligatures = [ligS (st :: more)]) (h5 : st.engine = e) (h6 : st.side = sd) (h7 : st.op = op) :
    stageReady r0 e sd op (cx p st rows cols more) s := by
  refine ⟨?_, h5, h6, h7⟩
  have n0 : nibsOf (ligS (st :: more)) = [0] := by
    show (List.range 8).filter (fun n => bitAt 1 n) = [0]
    decide
  have hp : plan? s (r0.slot.toNat) = some p := by simp [plan?, look, h1, r0]
  have hr : findRunning s (taskId r0.slot.toNat r0.lig.toNat) = some (0, run0) := by
    simp [findRunning, h2, taskId, r0, run0, tsk]
  have hl : ligOf p r0.lig.toNat = some (ligS (st :: more)) := by simp [ligOf, h4, r0]
  have hs : (ligS (st :: more)).stages[r0.stage.toNat]? = some st := rfl
  have hn : (nibsOf (ligS (st :: more)))[r0.group.toNat % (nibsOf (ligS (st :: more))).length]? = some 0 := by rw [n0]; rfl
  have hg : nibGroups s (run0.task.core * 8 + 0) = [grpC rows cols] := by simp [nibGroups, look, h3, run0, tsk]
  unfold stageCtx
  simp only [hp, hr, hl, hs, hn, hg]
  rw [n0]
  rfl

/-- The gather stage without landing on a table in the paged space, its block at 64. -/
def stP : Stage := ⟨4, 0, 3, 0, 0, 0, 0, 0, 64, 8⟩
def plP : Plan := { plG stP (zeros 18 ++ [0xff, 0xff, 0, 0, 5, 0] ++ zeros 40) with
  image := { (plG stP (zeros 18 ++ [0xff, 0xff, 0, 0, 5, 0] ++ zeros 40)).image with refs := [⟨2097152, 0, 0, 6, 5, 0, 3, 1, false⟩] } }

/-- The session with a host stream under key (255, 0). -/
def k0 : StreamRef := ⟨255, 0⟩

theorem no_shared {s : State} (h : s.rul.shared = []) (k : Nat × Nat) : noShared s k := by
  unfold noShared; rw [h]; exact fun _ h => nomatch h

/-- A running host stream, one that writes, and one of a plan whose walked side is queue 3. -/
def rd0 : Stream := str0 .running
def wr0 : Stream := { rd0 with desc := { rd0.desc with write := true } }

/-- A write slot being drained. -/
def drain0 : Slot := ⟨.draining, 256, 1, 0, 0, []⟩

/-- A transfer in flight. -/
def tf0 (drop : Bool) : Transfer := ⟨3, 0, 0, 256, 0, 0, drop⟩

/-- The device with a stream of plan slot 0. -/
def plStr (p : Plan) (x : Stream) (q : Queue) : State := { queUp p q with streams := [((0, 0), x)] }

/-- A read stream and a write stream whose walked side is the plan's queue. -/
def rq0 : Stream := { rd0 with desc := { rd0.desc with srcKind := 6, srcAbs := 3 } }
def wq0 (st : SlotState) (n : Nat) : Stream :=
  { wr0 with desc := { wr0.desc with dstKind := 6, dstAbs := 3, dst := 0 }, slots := [⟨st, n, 1, 0, 0, []⟩, Slot.free, Slot.free] }

/-- Its reference. -/
def k1 : StreamRef := ⟨0, 0⟩
theorem head_ok {c : Nat} {b : Bytes} (h : (match frameHead c b with | .ok x => !x.sum | .error _ => false) = true) :
    ∃ x, frameHead c b = .ok x ∧ x.sum = false := by
  split at h
  · exact ⟨_, ‹_›, by simpa using h⟩
  · cases h

/-- The header of an LZ4 frame with these flag and size bytes. -/
def lz4Hdr (f : Bytes) : Bytes := le 4 0x184d2204 ++ f ++ [BitVec.ofNat 8 (xxh32 0 f / 256)]

/-- That plan with an ingest block at 64 whose one field is a raster, and its stream with one item that waits. -/
def plM : Plan := { plT .active with image := { imgT with
  blob := imgT.blob.take 64 ++ [1] ++ zeros 35 ++ [1, 0] ++ zeros 26 ++ [1] ++ zeros 63 } }
def strM : Stream := { rd0 with desc := { rd0.desc with kind := 1, param := 64 }, ingest := { Ingest.fresh 0 [] with
  fields := [⟨⟨3, 0, 1, [⟨true, false, [1], []⟩]⟩, 0, 0, 0, 0, none, 0⟩] } }

/-- A persistent ingest stream of that plan, . -/
def strA : Stream := { str0 .idle with desc := { streamAt descBytes 0 with persist := true, kind := 1, param := 64 } }
theorem armed {e : Except Nat (List Chunk)} {c : List Chunk} (h : (match e with | .ok y => decide (y = c) | .error _ => false) = true) :
    e = .ok c := by
  split at h
  · rw [of_decide_eq_true h]
  · cases h
theorem unarmed {e : Except Nat (List Chunk)} {o : Nat} (h : (match e with | .ok _ => false | .error y => y == o) = true) : e = .error o := by
  split at h
  · cases h
  · rw [eq_of_beq h]

/-- That plan with a Parquet source. -/
def plA : Plan := { plM with image := { plM.image with blob := imgT.blob.take 64 ++ [2] ++ zeros 127 } }

/-- A write stream with a compressor and this input, whose destination is no region. -/
def strC (inp : Bytes) : Stream :=
  { wr0 with desc := { wr0.desc with codec := 1, dstAbs := 77 }, comp := { Compressor.empty with input := inp } }

/-- A plan with a SHARED_TASK for its stream 0, that stream owing a walk, and a SHARED_TASK of another unit. -/
def plV2 : Plan := { plT .active with image := { imgT with certs := [⟨0, 1000, 500, 500, 0, 0, 0, 7, 2⟩] } }
def strL : Stream := { rd0 with ruled := true, owed := 1, unit := 0 }
def shr0 : SharedRun := ⟨0, 0, 11, 0, 0, 0, 9, none⟩

/-- A batch layout entry that closes a tick late and writes at address 0. -/
def layB : Bytes := zeros 32 ++ [1] ++ zeros 9 ++ [0xff, 0xff] ++ zeros 4 ++ [1, 0, 2, 0] ++ zeros 4 ++ le 8 4

/-- That plan with the layout, and the device with a batch of it begun in tick 0. -/
def plB : Plan := { plT .active with image := { imgT with layouts := [layB] } }
def batUp (b : List (Nat × OpenBatch)) : State :=
  { withPlan plB with batches := [((0, 0), ⟨0, 0, b, [], [(0, 0)], []⟩)], rul := { up.rul with tick := 2 } }

/-- The same layout as data. -/
def lay0 : Layout := layoutAt layB

/-- A handshake packet of one fragment. -/
def hsP (type frags frag len slot : Nat) (body : Bytes) : KitPacket :=
  ⟨0, ⟨0, zeros 16, 0⟩, BitVec.ofNat 16 (56 + body.length), hdr 12 0xffff (BitVec.ofNat 16 (16 + body.length)) 0,
   le 1 type ++ [0] ++ le 2 len ++ le 1 frag ++ le 1 frags ++ le 2 slot ++ le 8 9 ++ body, []⟩

/-- Its fragment. -/
def hsF (type frags frag len slot : Nat) (body : Bytes) : HsFragment := ⟨9, slot, frags, frag, len, type, body⟩

/-- A handshake with number 9 on slot 1. -/
def hs0 (init : Bool) (state : Nat) : Handshake :=
  ⟨9, 1, init, true, 3, 0, ⟨0, zeros 16, 0⟩, false, [], [], zeros 96, zeros 48, zeros 48, [], 0, state⟩

/-- The network with these handshakes, opens and parts, and no key slot. -/
def hsUp (hs : List Handshake) (os : List OpenSlot) (ps : List HsParts) : State :=
  { net with sec := { up.sec with handshakes := hs, opens := os, parts := ps } }

/-- The state after a fragment. -/
def hsNext (f : HsFragment) (s : State) : State := (reassemble f s).2
theorem reas {f : HsFragment} {s : State} {b : Option Bytes} (h : (reassemble f s).1 = b) : reassemble f s = (b, hsNext f s) :=
  Prod.ext h rfl
theorem recvHs {p : KitPacket} {k : Nat} {s : State} {f : HsFragment} (h : portCarries s p.port.toNat = true ∧ p.header.kind = 12#4 ∧
    kitFormOk p 12 = true ∧ p.header.dstDev = s.deviceNumber ∧ p.header.extDst = false ∧ p.header.keyId = 0xffff#16 ∧
    fragmentOf p.payload = some f ∧ f.type = k ∧ s.halted = false) : receiveHs p k s = (some f, s) := by
  obtain ⟨h1, h2, h3, h4, h5, h6, h7, h8, h9⟩ := h
  simp [receiveHs, h1, h2, h3, h4, h5, h6, h7, h8, h9]

/-- A reply whose report binds the empty hello, but for its signatures. -/
def rep1 : Bytes := zeros 1240 ++ thB [] (zeros 1152) ++ zeros 96
def rep0 : Bytes := rep1 ++ (zeros 1384 ++ (zeros 1384 ++ (zeros 549 ++ [])))
def open0 : OpenSlot := ⟨1, true, 0, zeros 2032, [], true, 0, 0, 1⟩

/-- The parts of it that have arrived. -/
def parts0 : HsParts := ⟨9, 4, 4, 4701, 1, [(0, rep1), (1, zeros 1384), (2, zeros 1384)], 0⟩
theorem rep_whole : (reassemble (hsF 4 4 3 4701 1 (zeros 549)) (hsUp [hs0 true 0] [open0] [parts0])).1 = some rep0 := by
  have r4 : List.range 4 = [0, 1, 2, 3] := rfl
  simp [reassemble, hsF, hsUp, parts0, look, rep0, r4]

/-- Both signatures of that report are accepted. -/
def repSigned : Prop :=
  Config.ed25519Verify (open0.material.take 32) ((rep0.drop 1152).take 176) (slice (rep0.drop 1152) 176 64) = true ∧
    Config.mldsaVerify (slice open0.material 32 1952) (ascii "KF384-attest") ((rep0.drop 1152).take 176) (slice (rep0.drop 1152) 240 3309) = true
theorem rep_ok (h : repSigned) : reportOk open0 (rep0.drop 1152) (thB [] rep0) = true := by
  have e : thB [] rep0 = thB [] (zeros 1152) := by
    unfold thB; rw [show rep0.take 1152 = (zeros 1152).take 1152 by decide +kernel]
  rw [e]
  unfold reportOk
  simp only
  rw [h.1, h.2]
  decide +kernel

/-- A plan image written out from Tables 3-1 to 3-7 and 8-3: one core, one ligature of one ARGMAX stage. -/
def imgBytes : Bytes :=
  [75, 80, 76, 78, 0, 1, 64, 0, 64, 1, 0, 0, 170, 95, 111, 105, 7] ++ zeros 19 ++ [3, 0, 0, 0, 3] ++ zeros 23 ++ [1, 0, 0, 0, 1, 0,
  0, 0, 128, 0, 0, 0, 32, 0, 0, 0, 2, 0, 0, 0, 1, 0, 0, 0, 192, 0, 0, 0, 64, 0, 0, 0, 9, 0, 0, 0, 32] ++ zeros 4 ++ [1, 0, 0, 32] ++
  zeros 19 ++ [1] ++ zeros 7 ++ [1] ++ zeros 11 ++ [255, 255] ++ zeros 42 ++ [255, 255, 255, 255] ++ zeros 6 ++ [16, 1, 0, 0, 1] ++
  zeros 6 ++ [1] ++ zeros 10 ++ [3, 0, 3] ++ zeros 31 ++ [11] ++ zeros 13 ++ [1] ++ zeros 5 ++ [255, 255] ++ zeros 40

/-- The session with that image at address 0. -/
def imgUp : State := { sess with mem := writeCells [] (hbmDva 0) imgBytes }

/-- What the image says. -/
def imgM : Image := parseImage imgBytes (sha384 imgBytes)
theorem img_crc0 : (slice (imgBytes.take 12 ++ zeros 4 ++ imgBytes.drop 16) 0 64).foldl (crcByte 0x82f63b78) 4294967295 = 1814052300 := by decide +kernel
theorem img_crc1 : (slice (imgBytes.take 12 ++ zeros 4 ++ imgBytes.drop 16) 64 64).foldl (crcByte 0x82f63b78) 1814052300 = 2008088477 := by decide +kernel
theorem img_crc2 : (slice (imgBytes.take 12 ++ zeros 4 ++ imgBytes.drop 16) 128 64).foldl (crcByte 0x82f63b78) 2008088477 = 818417581 := by decide +kernel
theorem img_crc3 : (slice (imgBytes.take 12 ++ zeros 4 ++ imgBytes.drop 16) 192 64).foldl (crcByte 0x82f63b78) 818417581 = 2790061940 := by decide +kernel
theorem img_crc4 : (slice (imgBytes.take 12 ++ zeros 4 ++ imgBytes.drop 16) 256 64).foldl (crcByte 0x82f63b78) 2790061940 = 2526060629 := by decide +kernel
theorem crc_of {bs : Bytes} {c : Nat} (h : bs.foldl (crcByte 0x82f63b78) 0xffffffff = c) : crc32c bs = c ^^^ 0xffffffff := by
  unfold crc32c; rw [h]
theorem fold5 {f : Nat → Byte → Nat} {bs : Bytes} {i a b c d e : Nat} (h : bs.length = 320) (h0 : (slice bs 0 64).foldl f i = a)
    (h1 : (slice bs 64 64).foldl f a = b) (h2 : (slice bs 128 64).foldl f b = c) (h3 : (slice bs 192 64).foldl f c = d)
    (h4 : (slice bs 256 64).foldl f d = e) : bs.foldl f i = e := by
  have k : bs = slice bs 0 64 ++ (slice bs 64 64 ++ (slice bs 128 64 ++ (slice bs 192 64 ++ slice bs 256 64))) := by
    have t (o : Nat) : bs.drop o = slice bs o 64 ++ bs.drop (o + 64) := by
      rw [← List.drop_drop]; exact (List.take_append_drop 64 (bs.drop o)).symm
    have z : bs.drop 320 = [] := List.drop_eq_nil_of_le (by omega)
    have u := t 0
    rw [t (0 + 64), t (0 + 64 + 64), t (0 + 64 + 64 + 64), t (0 + 64 + 64 + 64 + 64), z, List.append_nil] at u
    exact u
  rw [k]
  simp only [List.foldl_append, h0, h1, h2, h3, h4]
theorem img_crc : crc32c (imgBytes.take 12 ++ zeros 4 ++ imgBytes.drop 16) = 1768906666 := by
  have h := @fold5 (crcByte 0x82f63b78) (imgBytes.take 12 ++ zeros 4 ++ imgBytes.drop 16) _ _ _ _ _ _ (by decide +kernel) img_crc0 img_crc1 img_crc2 img_crc3 img_crc4
  exact (crc_of h).trans (by decide)
theorem img_header : firstBad (headerChecks imgBytes 320) = none := by
  unfold headerChecks
  rw [img_crc]
  decide +kernel
theorem valid_of {b : Bytes} {n d : Nat} {m : Image} (h1 : firstBad (headerChecks b n) = none)
    (h2 : firstBad (directoryChecks b n) = none) (h3 : firstBad (reservedChecks b [(0, 128)] [(8, 168)]) = none)
    (h4 : parseImage b (sha384 b) = m) (h5 : firstBad (structureChecks ⟨b, m, ((sectionOf b 9).map fun e => e.offset).getD 0, d, []⟩ 0) = none)
    (h6 : firstBad (nameChecks ⟨b, m, ((sectionOf b 9).map fun e => e.offset).getD 0, d, []⟩ 0) = none) : validate b n 0 d [] = .inr m := by
  subst h4
  simp only [validate, h1, h2, h3, h5, h6]
theorem img_read : readDva imgUp 0 (min 320 67108864) = imgBytes := by decide +kernel
theorem img_valid : validate (readDva imgUp (0 : BitVec 64).toNat (min (320 : BitVec 32).toNat 67108864)) (320 : BitVec 32).toNat
    imgUp.deviceNumber.toNat (dieHbm imgUp.variant) (imgUp.plans.map fun e => e.2.image) = .inr imgM := by
  rw [show (0 : BitVec 64).toNat = 0 from rfl, show (320 : BitVec 32).toNat = 320 from rfl, show imgUp.deviceNumber.toNat = 0 from rfl,
    show (imgUp.plans.map fun e => e.2.image) = [] from rfl, img_read]
  exact valid_of img_header (by decide +kernel) (by decide +kernel) rfl (by decide +kernel) (by decide +kernel)
theorem img_frames : planFrames imgM.length ≤
    (openFrames (bindImage imgUp 0 [] imgM).s { held := [], avoid := [] } (coreDie (bindImage imgUp 0 [] imgM).taken)).length := by
  rw [show planFrames imgM.length = 1 by decide +kernel, show coreDie (bindImage imgUp 0 [] imgM).taken = 0 by decide +kernel]
  exact List.length_pos_of_mem (a := 9) (by
    unfold openFrames
    simp only [List.mem_filter, List.mem_map, List.mem_range]
    exact ⟨⟨9, by decide +kernel, by decide +kernel⟩, by decide +kernel⟩)

/-- A reference of 64 bytes with a pad copy. -/
def refP : Ref := ⟨64, 4194304, 0, 0xffff, 8, 0, 0, 6, true⟩

/-- A plan whose one stage works with that reference on core 0. -/
def plPad : Plan :=
  { plG ⟨4, 0, 3, 0, 0, 0, 0, 0, 64, 8⟩ (zeros 22 ++ [8, 0] ++ zeros 40) with
    image := { (plG ⟨4, 0, 3, 0, 0, 0, 0, 0, 64, 8⟩ (zeros 22 ++ [8, 0] ++ zeros 40)).image with refs := [refP] } }

/-- A plan of one ligature with that stage and block. -/
def plG1 : Plan := plG ⟨1, 0, 1, 0, 0, 0, 0, 0, 64, 8⟩ (zeros 64)

/-- A plan of one ligature with that stage and block. -/
def plG2 : Plan := plG ⟨1, 0, 2, 0, 0, 0, 0, 0, 64, 8⟩ (zeros 64)

/-- A plan of one ligature with that stage and block. -/
def plG3 : Plan := plG ⟨1, 0, 3, 0, 0, 0, 0, 0, 64, 8⟩ (zeros 64)

/-- A plan of one ligature with that stage and block. -/
def plG4 : Plan := plG ⟨1, 0, 4, 0, 0, 0, 0, 0, 64, 8⟩ (zeros 64)

/-- A plan of one ligature with that stage and block. -/
def plG5 : Plan := plG ⟨1, 0, 5, 0, 0, 0, 0, 0, 64, 8⟩ (zeros 64)

/-- A plan of one ligature with that stage and block. -/
def plG6 : Plan := plG ⟨2, 0, 1, 0, 0, 0, 0, 0, 64, 8⟩ (zeros 64)

/-- A plan of one ligature with that stage and block. -/
def plG7 : Plan := plG ⟨2, 0, 2, 0, 0, 0, 0, 0, 64, 8⟩ (zeros 6 ++ [1, 0] ++ zeros 24 ++ [1, 0, 0xb0, 0] ++ zeros 18 ++ [8, 0] ++ zeros 10)

/-- A plan of one ligature with that stage and block. -/
def plG8 : Plan := plG ⟨2, 0, 3, 0, 0, 0, 0, 0, 64, 8⟩ (zeros 64)

/-- A plan of one ligature with that stage and block. -/
def plG9 : Plan := plG ⟨5, 0, 1, 0, 0, 0, 0, 0, 64, 8⟩ (zeros 9 ++ [1] ++ zeros 22 ++ [1] ++ zeros 31)

/-- A plan of one ligature with that stage and block. -/
def plG10 : Plan := plG ⟨3, 0, 1, 0, 0, 0, 0, 0, 64, 8⟩ (zeros 64)

/-- A plan of one ligature with that stage and block. -/
def plG11 : Plan := plG ⟨3, 0, 1, 0, 0, 0, 0, 0, 64, 8⟩ ([8] ++ zeros 63)

/-- A plan of one ligature with that stage and block. -/
def plG12 : Plan := plG ⟨3, 0, 2, 0, 0, 0, 0, 0, 64, 8⟩ (zeros 16 ++ [0, 0, 1, 0] ++ zeros 44)

/-- A plan of one ligature with that stage and block. -/
def plG13 : Plan := plG ⟨3, 0, 3, 0, 0, 0, 0, 0, 64, 8⟩ (zeros 64)

/-- A plan of one ligature with that stage and block. -/
def plG14 : Plan := plG ⟨3, 0, 4, 0, 0, 0, 0, 0, 64, 8⟩ (zeros 64)

/-- A plan of one ligature with that stage and block. -/
def plG15 : Plan := plG ⟨3, 0, 4, 0, 0, 0, 0, 0, 64, 8⟩ (zeros 14 ++ [2, 0] ++ zeros 48)

/-- A plan of one ligature with that stage and block. -/
def plG16 : Plan := plG ⟨3, 0, 5, 0, 0, 0, 0, 0, 64, 8⟩ (zeros 6 ++ [2, 0] ++ zeros 56)

/-- A plan of one ligature with that stage and block. -/
def plG17 : Plan := plG ⟨3, 0, 5, 0, 0, 0, 0, 0, 64, 8⟩ (zeros 64)

/-- A plan of one ligature with that stage and block. -/
def plG18 : Plan := plG ⟨4, 0, 1, 0, 0, 0, 0, 0, 64, 8⟩ (zeros 18 ++ [0xff, 0xff, 0, 0, 99, 0] ++ le 4 64 ++ zeros 36)

/-- A plan of one ligature with that stage and block. -/
def plG19 : Plan := plG ⟨4, 0, 2, 0, 0, 0, 0, 0, 64, 8⟩ (zeros 18 ++ [0xff, 0xff, 0, 0, 99, 0] ++ le 4 64 ++ zeros 36)

/-- A plan of one ligature with that stage and block. -/
def plG20 : Plan := plG ⟨4, 0, 3, 0, 0, 0, 0, 0, 64, 8⟩ (zeros 18 ++ [0xff, 0xff, 0, 0, 99, 0] ++ le 4 64 ++ zeros 36)

/-- A plan of one ligature with that stage and block. -/
def plG21 : Plan := plG ⟨4, 0, 4, 0, 0, 0, 0, 0, 64, 8⟩ (zeros 18 ++ [0xff, 0xff, 0, 0, 99, 0] ++ le 4 64 ++ zeros 36)

/-- A plan of one ligature with that stage and block. -/
def plG22 : Plan := plG ⟨4, 0, 1, 0, 0, 0, 0, 0, 64, 8⟩ (zeros 18 ++ [0xff, 0xff, 0, 0, 5, 0] ++ le 4 64 ++ zeros 36)

/-- A plan of one ligature with that stage and block. -/
def plG23 : Plan := plG ⟨4, 0, 2, 0, 0, 0, 0, 0, 64, 8⟩ (zeros 18 ++ [0xff, 0xff, 0, 0, 5, 0] ++ le 4 64 ++ zeros 36)

/-- A plan of one ligature with that stage and block. -/
def plG24 : Plan := plG ⟨4, 0, 3, 0, 0, 0, 0, 0, 64, 8⟩ (zeros 18 ++ [0xff, 0xff, 0, 0, 5, 0] ++ le 4 64 ++ zeros 36)

/-- A plan of one ligature with that stage and block. -/
def plG25 : Plan := plG ⟨4, 0, 4, 0, 0, 0, 0, 0, 64, 8⟩ (zeros 18 ++ [0xff, 0xff, 0, 0, 5, 0] ++ le 4 64 ++ zeros 36)

/-- A plan of one ligature with that stage and block. -/
def plG26 : Plan := plG ⟨6, 0, 0, 0, 0, 0, 0, 0, 0, 8⟩ (zeros 64)

/-- A plan of one ligature with that stage and block. -/
def plG27 : Plan := plG ⟨6, 1, 0, 0, 0, 0, 0, 0, 0, 8⟩ (zeros 64)

/-- A request whose bad byte lies outside its message. -/
def reqBad : Req := ⟨0, 1, 2, 8, 8, some 40⟩

/-- A header of a packet. -/
def packetHdr (key : BitVec 16) : KitHeader := ⟨1, 1, false, false, true, true, true, 3, 0, key, 0, 0, 0, 0, 1, 0⟩

/-- An unsealed packet with this much payload, tag and address. -/
def packetOf (key : BitVec 16) (payload tag ip : Bytes) : KitPacket := ⟨0, ⟨0, ip, 0⟩, 56, packetHdr key, payload, tag⟩

/-- A PTP message from an address of these bytes. -/
def ptpFrom (ip : Bytes) : PtpMessage := ⟨0, 0, ⟨0, ip, 0⟩, 0, 0, 0, 0, false⟩

/-- A readable image copy whose parts have these lengths. -/
def copyOf (h e m d : Nat) : ImageCopy := ⟨zeros h, zeros e, zeros m, zeros d, true⟩

/-- The select block of chapter 8's example: the three largest of UINT32 values. -/
def sel3 : SelBlock := ⟨false, false, false, 7, 3, 1, 0, 0, 0⟩

theorem shared_nat : (BitVec.ofNat 32 (sharedId 0 0)).toNat = sharedId 0 0 := by
  simp only [BitVec.toNat_ofNat, sharedId]
  omega
def upQ : State := { queUp (plT .active) (que [pk1]) with rx := [⟨3, false, 4, .queue 40, 0, [], []⟩] }
def offQ : State := { queUp (plT .active) (que []) with sched := [(0, { Cluster.reset with off := true })] }

def rxW : State := { net with rx := [⟨3, false, 4, .window 0 4, 1, [], []⟩] }
def mbF : State := { net with queues := [(requestQueue 15, { que [pk1] with owner := .device, limit := 1 })] }
def mbP : State := { up with queues := [(requestQueue 0, { que [pk1] with owner := .device })] }
def exR : State := exNet { tbl0 with landing := [⟨0, 0, 0, 0, 3, 0, 0, false, false, []⟩] }
def plV3 : Plan := { plV with image := { plV.image with certs := [⟨0, 1000, 500, 500, 0, 0, 0, 7, 2⟩] } }

/-- The device, the plan and the stage of a ligature of two stages that share their block. -/
def plTwo (a b : Stage) : Plan := { plG a (zeros 64) with image := { (plG a (zeros 64)).image with ligatures := [ligS [a, b]] } }
def stJ (op : Nat) : Stage := ⟨1, 0, op, 0, 0, 0, 0, 0, 64, 8⟩

/-- A join in which a ligature has taken a group in another release, and one with a partial list of one group. -/
def joinOld : Join := { rows := [], done := [0], full := false, partials := [], excluded := [], keyTypes := [], aggTypes := [], taken := [(0, 5, 1)] }
def joinPart : Join := { rows := [], done := [0], full := false, partials := [(0, [⟨[], [], []⟩])], excluded := [], keyTypes := [], aggTypes := [] }

/-- The running task released later. -/
def runLate : Running := { run0 with task := { tsk false with release := 500 } }

/-- The same device and stage where the group bears the tick of a first try. -/
def stUpT (p : Plan) (t : Nat) : State := { stUp p 1 [] with nibs := [(0, [{ grpC 1 [] with tick := some t }])] }
def cxT (p : Plan) (st : Stage) (t : Nat) : StageCtx := { cx p st 1 [] with grp := { grpC 1 [] with tick := some t } }
def poolSt : Stage := ⟨4, 0, 2, 0, 0, 0, 0, 0, 64, 8⟩
def poolUp : State :=
  { stUpT plG23 1 with
    rul := { up.rul with tick := 1 }, mem := writeCells [] (padDva 0 0) (le 4 1 ++ le 4 1 ++ zeros 8 ++ le 8 (2 ^ 32) ++ le 8 2)
    tables := [((0, 5), { tbl0 with landing := [⟨0, 0, 2, 3, 5, 0, 0, false, false, []⟩] })] }
def gat5 : GatherBlock := gatherAt (imgT.blob.take 64 ++ (zeros 18 ++ [0xff, 0xff, 0, 0, 5, 0] ++ le 4 64 ++ zeros 36)) 64
def plOwn : Plan := plG (stJ 5) (zeros 12 ++ [1, 0] ++ zeros 50)

/-- A read stream with a tile under way, and one whose consumer's cluster caches what it reads. -/
def rdF : Stream := { rd0 with nextTile := 1, slots := [⟨.filling, 0, 1, 0, 0, []⟩, Slot.free, Slot.free] }
def rdC : Stream := { rdF with desc := { rd0.desc with cache := true, dst := dvaOf 4 0 } }

/-- A write stream of two bytes to compress, to memory and to a queue. -/
def cmp2 (x : Stream) : Stream := { x with desc := { x.desc with codec := 1 }, comp := { Compressor.empty with input := [1, 2] } }

/-- The drain of slice 0 of that layout, and the device with these batches of it open. -/
def row_ (ruled : Bool) (n sl : Nat) : RowDrain := ⟨(0, 0), (0, 1), 0, 0, ruled, { lay0 with slices := n }, [⟨0, 0, 0, 0, 8⟩], sl⟩
def openB (g : Nat) (got : List (Nat × Nat × Bool)) : State := { up with batches := [((0, 0), ⟨0, 0, [(lay0.bufferOf 1, ⟨g, 0, got, false⟩)], [], [], []⟩)] }
def paged2 (s : State) : State := { s with allocs := [⟨0, 4⟩], pages := [(0, ⟨0, false, false, 0, 0⟩), (1, ⟨1, false, false, 1, 0⟩)] }

/-- A plan of a raw source of one field, and a stream of it at its first unit. -/
def plR : Plan := { plM with image := { plM.image with blob := imgT.blob.take 64 ++ zeros 24 ++ le 4 4096 ++ zeros 8 ++ [1, 0] ++ zeros 90 } }
def strR : Stream :=
  { rd0 with desc := { rd0.desc with kind := 1, param := 64 }, ingest := { Ingest.fresh 0 [] with open_ := true, fields := [FieldQueue.of ⟨2, 0xf, 1, []⟩] } }
def paged (s : State) : State := { s with allocs := [⟨0, 4⟩], pages := [(0, ⟨0, false, false, 0, 0⟩)] }

theorem crc_zeros : ∀ n, (zeros n).foldl (crcByte 0xedb88320) 0 = 0
  | 0 => rfl
  | n + 1 => by
    show (zeros n).foldl (crcByte 0xedb88320) (crcByte 0xedb88320 0 0) = 0
    rw [show crcByte 0xedb88320 0 0 = 0 by decide +kernel]
    exact crc_zeros n
theorem crc_long (n : Nat) : crc32 ([0xff, 0xff, 0xff, 0xff] ++ zeros n) = 0xffffffff := by
  unfold crc32
  rw [List.foldl_append, show List.foldl (crcByte 0xedb88320) 0xffffffff [0xff, 0xff, 0xff, 0xff] = 0 by decide +kernel, crc_zeros]
  rfl

/-- A frame of that many bytes and eight more, whole. -/
def longFrame (n : Nat) : Bytes := ([0xff, 0xff, 0xff, 0xff] ++ zeros n) ++ [0xff, 0xff, 0xff, 0xff]
theorem longHead_len (n : Nat) : (([0xff, 0xff, 0xff, 0xff] : Bytes) ++ zeros n).length = n + 4 := by
  simp only [List.length_append, zeros, List.length_replicate, List.length_cons, List.length_nil]; omega
theorem longFrame_len (n : Nat) : (longFrame n).length = n + 8 := by
  simp only [longFrame, List.length_append, zeros, List.length_replicate, List.length_cons, List.length_nil]; omega
theorem longFrame_crc (n : Nat) :
    leAt (longFrame n) ((longFrame n).length - 4) 4 = crc32 ((longFrame n).take ((longFrame n).length - 4)) := by
  have h : (longFrame n).length - 4 = (([0xff, 0xff, 0xff, 0xff] : Bytes) ++ zeros n).length := by rw [longFrame_len, longHead_len]; omega
  rw [h, longFrame, List.take_left, crc_long]
  unfold leAt slice
  rw [List.drop_left]
  decide +kernel

/-- What meets the hypotheses of the clauses of EmptyQueueStep. -/
theorem wit_EmptyQueueStep :
    (∃ (s : State), s.pending = [] ∧ nextRequest s = none) ∧
    (∃ (s : State) (c : Instr) (u : State), s.pending = [] ∧ nextRequest s = some (c, u)) ∧
    (∃ (s : State), s.pending = [] ∧ goustUp s = false) ∧
    (∃ (s : State), s.pending = [] ∧ s.taken = []) :=
  ⟨⟨up, by decide +kernel⟩,
   ⟨{ up with taken := [(0, [], 0)] }, commandOf 0 [], up, rfl, rfl⟩,
   ⟨State.reset, by decide +kernel⟩,
   ⟨up, by decide +kernel⟩⟩

/-- What meets the hypotheses of the clauses of MemoryStaysCanonical. -/
theorem wit_MemoryStaysCanonical :
    ∃ (s : State) (t : State), memInv s ∧ step s = .next t :=
  ⟨up, up, by unfold memInv; decide, rfl⟩

/-- What meets the hypotheses of the clauses of ResetState. -/
theorem wit_ResetState :
    ∃ (m : Nat) (reader : Nat), m ≠ reader :=
  ⟨0, 1, by decide +kernel⟩

/-- What meets the hypotheses of the clauses of QueueIsUntouched. -/
theorem wit_QueueIsUntouched :
    ∃ (c : Instr) (s : State) (t : State), exec c s = .next t :=
  ⟨.identify (rq 0), State.reset, State.reset, rfl⟩

/-- What meets the hypotheses of the clauses of FusesOnlyRise. -/
theorem wit_FusesOnlyRise :
    ∃ (s : State) (t : State), step s = .next t :=
  ⟨up, up, rfl⟩

/-- What meets the hypotheses of the clauses of DuplicateRequests. -/
theorem wit_DuplicateRequests :
    (∃ (c : Instr) (r : Req) (op : Nat) (s : State) (resp : Bytes), hostCmd c = some (r, op) ∧ goustUp s = true ∧ tagMatch s r = .answered r.crc resp) ∧
    (∃ (c : Instr) (r : Req) (op : Nat) (s : State), hostCmd c = some (r, op) ∧ goustUp s = true ∧ tagMatch s r = .executing r.crc) ∧
    (∃ (c : Instr) (r : Req) (op : Nat) (s : State) (crc : BitVec 32) (resp : Bytes), hostCmd c = some (r, op) ∧ goustUp s = true ∧ crc ≠ r.crc ∧ tagMatch
     s r = .answered crc resp) ∧
    (∃ (c : Instr) (r : Req) (op : Nat) (s : State) (crc : BitVec 32), hostCmd c = some (r, op) ∧ goustUp s = true ∧ crc ≠ r.crc ∧ tagMatch s r =
     .executing crc) ∧
    (∃ (c : Instr) (r : Req) (op : Nat) (s : State) (k : Kept), hostCmd c = some (r, op) ∧ goustUp s = true ∧ k ∈ (mbox s r.mailbox.toNat).pend.map
     (·.kept) ++ (mbox s r.mailbox.toNat).done ∧ k.tag = r.tag) ∧
    (∃ (c : Instr) (r : Req) (op : Nat) (s : State), hostCmd c = some (r, op) ∧ goustUp s = true) ∧
    (∃ (c : Instr) (r : Req) (op : Nat) (s : State) (crc : BitVec 32) (resp : Bytes), hostCmd c = some (r, op) ∧ goustUp s = true ∧ tagMatch s r =
     TagMatch.answered crc resp) :=
  ⟨⟨.identify (rq 0), rq 0, 0x101, withBox [] [kept1], [], by decide +kernel⟩,
   ⟨.identify (rq 0), rq 0, 0x101, { up with heldLoads := [(.planLoad (rq 24) 0 0 0 0 [], 0, 0)] }, by decide +kernel⟩,
   ⟨.identify { rq 0 with crc := 3 }, { rq 0 with crc := 3 }, 0x101, withBox [] [kept1], 2, [], by decide +kernel⟩,
   ⟨.identify { rq 0 with crc := 3 }, { rq 0 with crc := 3 }, 0x101, { up with heldLoads := [(.planLoad (rq 24) 0 0 0 0 [], 0, 0)] },
    2, by decide +kernel⟩,
   ⟨.identify (rq 0), rq 0, 0x101, withBox [] [kept1], kept1, by decide +kernel⟩,
   ⟨.identify (rq 0), rq 0, 0x101, up, by decide +kernel⟩,
   ⟨.identify (rq 0), rq 0, 0x101, withBox [] [kept1], 2, [], by decide +kernel⟩⟩

/-- What meets the hypotheses of the clauses of RefusalsChangeNothing. -/
theorem wit_RefusalsChangeNothing :
    (∃ (c : Instr) (r : Req) (op : Nat) (s : State), hostCmd c = some (r, op) ∧ goustUp s = false) ∧
    (∃ (c : Instr) (r : Req) (op : Nat) (s : State), hostCmd c = some (r, op) ∧ goustUp s = true ∧ tagMatch s r = .fresh ∧ (∀ r' o, c ≠ .unknownOpcode r'
     o) ∧ r.length ≠ r.present) ∧
    (∃ (c : Instr) (r : Req) (op : Nat) (s : State) (o : BitVec 16), hostCmd c = some (r, op) ∧ goustUp s = true ∧ tagMatch s r = .fresh ∧ (∀ r' o', c ≠
     .unknownOpcode r' o') ∧ r.bad = some o) ∧
    (∃ (c : Instr) (r : Req) (op : Nat) (s : State), hostCmd c = some (r, op) ∧ goustUp s = true ∧ tagMatch s r = .fresh ∧ pends c = true ∧ 16 ≤ (mbox s
     r.mailbox.toNat).pend.length) ∧
    (∃ (c : Instr) (r : Req) (op : Nat) (s : State), hostCmd c = some (r, op) ∧ goustUp s = true ∧ tagMatch s r = TagMatch.fresh ∧ (∀ (r' : Req) (o :
     BitVec 16), c ≠ Instr.unknownOpcode r' o) ∧ powerFits s op = false) :=
  ⟨⟨.identify (rq 0), rq 0, 0x101, State.reset, by decide +kernel⟩,
   ⟨.identify { rq 8 with present := 0 }, { rq 8 with present := 0 }, 0x101, up,
    by refine ⟨?_, ?_, ?_, ?_, ?_⟩ <;> first | decide +kernel | with_reducible rfl | exact tableCtx_of (by decide +kernel) (by decide +kernel) rfl | simp⟩,
   ⟨.identify { rq 8 with bad := some 32 }, { rq 8 with bad := some 32 }, 0x101, up, 32,
    by refine ⟨?_, ?_, ?_, ?_, ?_⟩ <;> first | decide +kernel | with_reducible rfl | exact tableCtx_of (by decide +kernel) (by decide +kernel) rfl | simp⟩,
   ⟨.planActivate (rq 8) 0, rq 8, 0x203, withBox (List.replicate 16 ⟨{ kept1 with tag := 9 }, .ruling 0⟩) [], by decide +kernel⟩,
   ⟨.planRead (rq 8) 0, rq 8, 0x208, { up with pwr := { up.pwr with state := .dormant } }, by and_intros <;> first | rfl | decide +kernel | (intro; rfl) | (intros; contradiction) | (intros; simp_all)⟩⟩

/-- What meets the hypotheses of the clauses of IdentityAndRegisterReads. -/
theorem wit_IdentityAndRegisterReads :
    (∃ (s : State) (r : Req), heard s r 0x0101 0 = true) ∧
    (∃ (s : State) (r : Req), heard s r 0x0102 8 = true) ∧
    (∃ (s : State) (r : Req), heard s r 0x0103 0 = true) ∧
    (∃ (s : State) (r : Req), heard s r 0x0501 0 = true) ∧
    (∃ (s : State) (r : Req), heard s r 0x0602 0 = true) ∧
    (∃ (s : State) (r : Req), heard s r 0x0801 0 = true) ∧
    (∃ (s : State) (r : Req), heard s r 0x0909 0 = true) ∧
    (∃ (s : State) (r : Req), goustUp s = true ∧ tagMatch s r = TagMatch.fresh) :=
  ⟨⟨up, (rq 0), by decide +kernel⟩,
   ⟨up, (rq 8), by decide +kernel⟩,
   ⟨up, (rq 0), by decide +kernel⟩,
   ⟨up, (rq 0), by decide +kernel⟩,
   ⟨up, (rq 0), by decide +kernel⟩,
   ⟨up, (rq 0), by decide +kernel⟩,
   ⟨up, (rq 0), by decide +kernel⟩,
   ⟨up, rq 0, by and_intros <;> first | rfl | decide +kernel | (intro; rfl) | (intros; contradiction) | (intros; simp_all)⟩⟩

/-- What meets the hypotheses of the clauses of PlanReads. -/
theorem wit_PlanReads :
    (∃ (s : State) (r : Req) (offset : BitVec 32) (b : Bytes), 
     heard s r 0x0207 8 = true ∧ s.fitReport = some b ∧ offset.toNat ≤ b.length) ∧
    (∃ (s : State) (r : Req) (offset : BitVec 32), 
     heard s r 0x0207 8 = true ∧ ((∀ b, s.fitReport = some b → b.length < offset.toNat))) ∧
    (∃ (s : State) (r : Req) (slot : Byte) (p : Plan), heard s r 0x0208 8 = true ∧ slot.toNat < 64 ∧ plan? s slot.toNat = some p) ∧
    (∃ (s : State) (r : Req) (slot : Byte), heard s r 0x0208 8 = true ∧ slot.toNat < 64 ∧ plan? s slot.toNat = none) ∧
    (∃ (s : State) (r : Req) (slot : Byte) (kind : Byte) (p : Plan), 
     heard s r 0x0209 8 = true ∧ slot.toNat < 64 ∧ 1 ≤ kind.toNat ∧ kind.toNat ≤ 13 ∧ plan? s slot.toNat = some p) ∧
    (∃ (s : State) (r : Req) (slot : Byte) (kind : Byte), 
     heard s r 0x0209 8 = true ∧ slot.toNat < 64 ∧ 1 ≤ kind.toNat ∧ kind.toNat ≤ 13 ∧ plan? s slot.toNat = none) :=
  ⟨⟨{ up with fitReport := some [0] }, (rq 8), 1, [0], by decide +kernel⟩,
   ⟨up, (rq 8), 0, by decide, by simp [up, State.reset]⟩,
   ⟨withPlan (pl0 .loaded), (rq 8), 0, pl0 .loaded, by decide +kernel⟩,
   ⟨up, (rq 8), 0, by decide +kernel⟩,
   ⟨withPlan (pl0 .loaded), (rq 8), 0, 13, pl0 .loaded, by decide +kernel⟩,
   ⟨up, (rq 8), 0, 1, by decide +kernel⟩⟩

/-- What meets the hypotheses of the clauses of PlanLoading. -/
theorem wit_PlanLoading :
    (∃ (s : State) (r : Req) (image : BitVec 64) (length : BitVec 32) (stream : BitVec 16) (count : BitVec 64) (avoid : List (BitVec 16)), heard s r 0x0201
     (alignUp (24 + 2 * avoid.length) 8) = true ∧ avoid.length ≤ 64 ∧ ((∀ u ∈ avoid, unitOk u = true ∧ (uidCluster u < 12 && (cluster s (uidClusterIndex
     u)).off) = false)) ∧ sessionRange s image.toNat length.toNat 0 = true ∧ ((imagePresent s r stream.toNat count.toNat = false ∨ s.zeroing ≠ []))) ∧
    (∃ (s : State) (z : Zeroing) (zs : List Zeroing), s.zeroing = z :: zs ∧ s.heldLoads = []) ∧
    (∃ (s : State) (h : Instr × Nat × Nat) (r : Req) (image : BitVec 64) (length : BitVec 32) (stream : BitVec 16) (count : BitVec 64) (avoid : List
     (BitVec 16)), s.heldLoads.find? (waitsImage s) = some h ∧ h.1 = .planLoad r image length stream count avoid) ∧
    (∃ (s : State) (r : Req) (image : BitVec 64) (length : BitVec 32) (stream : BitVec 16) (count : BitVec 64) (avoid : List (BitVec 16)) (m : Image) (slot
     : Nat), heard s r 513 (alignUp (24 + 2 * avoid.length) 8) = true ∧ avoid.length ≤ 64 ∧ (∀ (u : BitVec 16), u ∈ avoid → unitOk u = true ∧ (decide
     (uidCluster u < 12) && (cluster s (uidClusterIndex u)).off) = false) ∧ sessionRange s image.toNat length.toNat 0 = true ∧ imagePresent s r
     stream.toNat count.toNat = true ∧ s.zeroing = [] ∧ validate (readDva s image.toNat (min length.toNat 67108864)) length.toNat s.deviceNumber.toNat
     (dieHbm s.variant) (List.map (fun e => e.snd.image) s.plans) = Sum.inr m ∧ List.find? (fun n => (plan? s n).isNone) (List.range 64) = some slot ∧
     (bindImage s slot avoid m).short = [] ∧ planFrames m.length ≤ (openFrames (bindImage s slot avoid m).s { held := [], avoid := avoid } (coreDie
     (bindImage s slot avoid m).taken)).length ∧ fitCheck (bindImage s slot avoid m).s [(slot, newPlan m (bindImage s slot avoid m).taken avoid (List.take
     (planFrames m.length) (openFrames (bindImage s slot avoid m).s { held := [], avoid := avoid } (coreDie (bindImage s slot avoid m).taken))) (nowTick
     s))] (checkPeriods s) = none) ∧
    (∃ (s : State) (r : Req) (image : BitVec 64) (length : BitVec 32) (stream : BitVec 16) (count : BitVec 64) (avoid : List (BitVec 16)) (o : Nat), heard
     s r 513 (alignUp (24 + 2 * avoid.length) 8) = true ∧ avoid.length ≤ 64 ∧ (∀ (u : BitVec 16), u ∈ avoid → unitOk u = true ∧ (decide (uidCluster u < 12)
     && (cluster s (uidClusterIndex u)).off) = false) ∧ sessionRange s image.toNat length.toNat 0 = true ∧ imagePresent s r stream.toNat count.toNat = true
     ∧ s.zeroing = [] ∧ validate (readDva s image.toNat (min length.toNat 67108864)) length.toNat s.deviceNumber.toNat (dieHbm s.variant) (List.map (fun e
     => e.snd.image) s.plans) = Sum.inl o) :=
  ⟨⟨sess, (rq (24)), 0, 320, 3, 320, [], by decide +kernel, by decide +kernel, by simp, by decide +kernel, .inl (by decide +kernel)⟩,
   ⟨{ up with zeroing := [⟨[(hbmDva 0, 2097152)], [], false⟩] }, ⟨[(hbmDva 0, 2097152)], [], false⟩, [], by decide +kernel⟩,
   ⟨{ sess with heldLoads := [(.planLoad (rq 24) 0 320 3 320 [], 0, 0)] }, (.planLoad (rq 24) 0 320 3 320 [], 0, 0), (rq 24), 0, 320,
    3, 320, [], by decide +kernel⟩,
   ⟨imgUp, (rq (24)), 0, 320, 0xffff#16, 0, [], imgM, 0, by decide +kernel, by decide +kernel, by simp, by decide +kernel,
    by decide +kernel, rfl, img_valid, by decide +kernel, by decide +kernel, img_frames, by decide +kernel⟩,
   ⟨sess, (rq (24)), 0, 320, 0xffff#16, 0, [], 0, by decide +kernel, by decide +kernel, by simp, by decide +kernel, by decide +kernel,
    rfl, by decide +kernel⟩⟩

/-- What meets the hypotheses of the clauses of PlanStateCommands. -/
theorem wit_PlanStateCommands :
    (∃ (s : State) (r : Req) (slot : Byte) (p : Plan), heard s r 0x0206 8 = true ∧ slot.toNat < 64 ∧ plan? s slot.toNat = some p ∧ p.rebind.isSome = true ∧
     (s.actions.any fun a => a.act == .rebindCommit slot.toNat && a.admitted) = false) ∧
    (∃ (s : State) (r : Req) (slot : Byte), slot.toNat < 64 ∧ plan? s slot.toNat = none ∧ heard s r 0x0202 8 = true) ∧
    (∃ (s : State) (r : Req) (slot : Byte), slot.toNat < 64 ∧ plan? s slot.toNat = none ∧ heardP s r 0x0203 8 = true) ∧
    (∃ (s : State) (r : Req) (slot : Byte), slot.toNat < 64 ∧ plan? s slot.toNat = none ∧ heardP s r 0x0204 8 = true) ∧
    (∃ (s : State) (r : Req) (slot : Byte), slot.toNat < 64 ∧ plan? s slot.toNat = none ∧ heard s r 0x0206 8 = true) ∧
    (∃ (s : State) (r : Req) (slot : Byte) (p : Plan), slot.toNat < 64 ∧ plan? s (slot.toNat) = some p ∧ heard s r 518 8 = true ∧ (p.rebind = none ∨
     (s.actions.any fun a => a.act == Action.rebindCommit (slot.toNat) && a.admitted) = true)) ∧
    (∃ (s : State) (r : Req) (slot : Byte) (p : Plan), heard s r 514 8 = true ∧ slot.toNat < 64 ∧ plan? s (slot.toNat) = some p ∧ p.state =
     PlanState.loaded) ∧
    (∃ (s : State) (r : Req) (slot : Byte) (p : Plan), heardP s r 515 8 = true ∧ slot.toNat < 64 ∧ plan? s (slot.toNat) = some p ∧ p.state =
     PlanState.loaded ∧ notReady s (slot.toNat) p = none ∧ requested s (Action.activation (slot.toNat)) = false) :=
  ⟨⟨withPlan { pl0 .active with rebind := some ⟨[], [], [], true, false⟩ }, (rq 8), 0,
    { pl0 .active with rebind := some ⟨[], [], [], true, false⟩ }, by decide +kernel⟩,
   ⟨up, (rq 8), 0, by decide +kernel⟩,
   ⟨up, (rq 8), 0, by decide +kernel⟩,
   ⟨up, (rq 8), 0, by decide +kernel⟩,
   ⟨up, (rq 8), 0, by decide +kernel⟩,
   ⟨withPlan (pl0 .active), rq 8, 0, pl0 .active, by decide +kernel⟩,
   ⟨withPlan (pl0 .loaded), (rq 8), 0, pl0 .loaded, by decide +kernel⟩,
   ⟨withPlan (pl0 .loaded), (rq 8), 0, pl0 .loaded, by decide +kernel⟩⟩

/-- What meets the hypotheses of the clauses of PlanStateCommands. -/
theorem wit_PlanStateCommands_2 :
    (∃ (s : State) (r : Req) (slot : Byte) (p : Plan), heardP s r 515 8 = true ∧ slot.toNat < 64 ∧ plan? s (slot.toNat) = some p ∧ p.state =
     PlanState.loaded ∧ notReady s (slot.toNat) p = none ∧ requested s (Action.activation (slot.toNat)) = true) ∧
    (∃ (s : State) (r : Req) (slot : Byte) (p : Plan) (d : Nat), heardP s r 515 8 = true ∧ slot.toNat < 64 ∧ plan? s (slot.toNat) = some p ∧ p.state =
     PlanState.loaded ∧ notReady s (slot.toNat) p = some d) ∧
    (∃ (s : State) (r : Req) (slot : Byte) (p : Plan), heardP s r 516 8 = true ∧ slot.toNat < 64 ∧ plan? s (slot.toNat) = some p ∧ p.state =
     PlanState.active) ∧
    (∃ (s : State) (r : Req) (slot : Byte) (p : Plan), slot.toNat < 64 ∧ plan? s (slot.toNat) = some p ∧ heard s r 514 8 = true ∧ p.state ≠
     PlanState.loaded) ∧
    (∃ (s : State) (r : Req) (slot : Byte) (p : Plan), slot.toNat < 64 ∧ plan? s (slot.toNat) = some p ∧ heardP s r 515 8 = true ∧ p.state ≠
     PlanState.loaded) ∧
    (∃ (s : State) (r : Req) (slot : Byte) (p : Plan), slot.toNat < 64 ∧ plan? s (slot.toNat) = some p ∧ heardP s r 516 8 = true ∧ p.state ≠
     PlanState.active) ∧
    (∃ (s : State) (r : Req) (slot : Byte) (flags : Byte) (moves : List RebindItem) (avoid : List (BitVec 16)) (p : Plan), heardP s r 517 (alignUp (alignUp
     (8 + 4 * moves.length) 8 + 2 * avoid.length) 8) = true ∧ (∀ (e : Nat × Bool), e ∈ rebindBad s slot flags moves avoid → e.snd = false) ∧ (∀ (u : BitVec
     16), u ∈ avoid → unitOk u = true ∧ (decide (uidCluster u < 12) && (cluster s (uidClusterIndex u)).off) = false) ∧ plan? s (slot.toNat) = some p ∧
     p.state = PlanState.retiring) ∧
    (∃ (s : State) (r : Req) (slot : Byte) (flags : Byte) (moves : List RebindItem) (avoid : List (BitVec 16)) (p : Plan), heardP s r 517 (alignUp (alignUp
     (8 + 4 * moves.length) 8 + 2 * avoid.length) 8) = true ∧ (∀ (e : Nat × Bool), e ∈ rebindBad s slot flags moves avoid → e.snd = false) ∧ (∀ (u : BitVec
     16), u ∈ avoid → unitOk u = true ∧ (decide (uidCluster u < 12) && (cluster s (uidClusterIndex u)).off) = false) ∧ plan? s (slot.toNat) = some p ∧
     p.state ≠ PlanState.retiring ∧ p.rebind ≠ none) :=
  ⟨⟨withAct (pl0 .loaded) (.activation 0), rq 8, 0, pl0 .loaded, by decide +kernel⟩,
   ⟨withPlan ({ pl0 .loaded with image := { img0 with refs := [{ ref0 with place := 1, hbm := 0 }], requests := [] }, bound := [⟨5, 0, 0, 0, 0, 0, 2097152⟩, ⟨5, 0, 0, 0, 1, 2097152, 2097152⟩] }),
    (rq 8), 0,
    { pl0 .loaded with image := { img0 with refs := [{ ref0 with place := 1, hbm := 0 }], requests := [] }, bound := [⟨5, 0, 0, 0, 0, 0, 2097152⟩, ⟨5, 0, 0, 0, 1, 2097152, 2097152⟩] },
    2, by decide +kernel⟩,
   ⟨withPlan (pl0 .active), (rq 8), 0, pl0 .active, by decide +kernel⟩,
   ⟨withPlan (pl0 .active), (rq 8), 0, pl0 .active, by decide +kernel⟩,
   ⟨withPlan (pl0 .active), (rq 8), 0, pl0 .active, by decide +kernel⟩,
   ⟨withPlan (pl0 .loaded), (rq 8), 0, pl0 .loaded, by decide +kernel⟩,
   ⟨withPlan (pl0 .retiring), rq 8, 0, 0, [], [], pl0 .retiring, by decide +kernel, all_of (by decide +kernel), by simp, by decide +kernel⟩,
   ⟨withPlan { pl0 .active with rebind := some ⟨[], [], [], true, false⟩ }, rq 8, 0, 0, [], [], { pl0 .active with rebind := some ⟨[], [], [], true, false⟩ },
    by decide +kernel, all_of (by decide +kernel), by simp, by decide +kernel⟩⟩

/-- What meets the hypotheses of the clauses of PlanStateCommands. -/
theorem wit_PlanStateCommands_3 :
    ∃ (s : State) (r : Req) (slot : Byte) (flags : Byte) (moves : List RebindItem) (avoid : List (BitVec 16)) (p : Plan) (x : RebindPlan), heardP s r 517
     (alignUp (alignUp (8 + 4 * moves.length) 8 + 2 * avoid.length) 8) = true ∧ (∀ (e : Nat × Bool), e ∈ rebindBad s slot flags moves avoid → e.snd =
     false) ∧ (∀ (u : BitVec 16), u ∈ avoid → unitOk u = true ∧ (decide (uidCluster u < 12) && (cluster s (uidClusterIndex u)).off) = false) ∧ plan? s
     (slot.toNat) = some p ∧ p.state ≠ PlanState.retiring ∧ p.rebind = none ∧ x = rebindPlan s (slot.toNat) p (List.map (fun m => (m.kind.toNat,
     m.absId.toNat)) moves) (fun id => (Option.map (fun x => x.action.toNat) (List.find? (fun m => m.kind == 4 && m.absId.toNat == id) moves)).getD 0)
     avoid ∧ x.short = [] ∧ x.b.short = [] ∧ (flags.toNat % 2 = 1 ∨ x.c + (rebindsAhead s (slot.toNat) + 1) * period s ≤ 9500000) :=
  ⟨withPlan (pl0 .active), (rq (8)), 0, 1, [], [], pl0 .active, rebindPlan (withPlan (pl0 .active)) 0 (pl0 .active) [] (fun id => (([].find? fun (m : RebindItem) => m.kind == 4 && m.absId.toNat == id).map (·.action.toNat)).getD 0) [], by decide +kernel, all_of (by decide +kernel), all_of (by decide +kernel), by decide +kernel, by decide +kernel, by decide +kernel, rfl, by decide +kernel, by decide +kernel, .inl (by decide)⟩

/-- What meets the hypotheses of the clauses of PlanBoundaryActions. -/
theorem wit_PlanBoundaryActions :
    (∃ (s : State) (slot : BitVec 6) (a : _) (p : Plan), admitted s (fun x => x == .activation slot.toNat) = some a ∧ plan? s slot.toNat = some p) ∧
    (∃ (s : State) (slot : BitVec 6) (a : _) (p : Plan), admitted s (fun x => x == .retirement slot.toNat false) = some a ∧ plan? s slot.toNat = some p ∧
     p.image.exchange = true ∧ p.state ≠ .loaded ∧ p.retireBands = 0) ∧
    (∃ (s : State) (slot : BitVec 6) (a : _) (p : Plan), admitted s (fun x => x == .retirement slot.toNat false) = some a ∧ plan? s slot.toNat = some p ∧
     (p.image.exchange && p.state != .loaded && p.retireBands == 0) = false) ∧
    (∃ (s : State) (slot : BitVec 6) (a : _) (p : Plan), admitted s (fun x => x == .retirement slot.toNat true) = some a ∧ plan? s slot.toNat = some p ∧
     (p.image.exchange && p.state != .loaded && p.retireBands == 0) = false) ∧
    (∃ (s : State) (slot : BitVec 6) (p : Plan) (r : Rebind), plan? s slot.toNat = some p ∧ p.rebind = some r ∧ r.copied = false ∧ r.drops = []) ∧
    (∃ (s : State) (slot : BitVec 6) (ref : BitVec 16) (die : BitVec 2) (p : Plan) (r : Ref) (a : Bound) (b : Bound), plan? s slot.toNat = some p ∧
     ((replicaRefs p).find? fun x => x.absId == ref.toNat) = some r ∧ boundOf p 5 r.hbm = some a ∧ (p.bound.find? fun x => x.kind == 5 && x.absId == r.hbm
     && x.index == die.toNat) = some b ∧ homeDie p r ≠ die.toNat ∧ p.state = .loaded) ∧
    (∃ (s : State) (slot : BitVec 6) (ref : BitVec 16) (core : BitVec 9) (p : Plan) (r : Ref), plan? s slot.toNat = some p ∧ (p.image.refs.find? fun x =>
     x.absId == ref.toNat && x.pad) = some r ∧ (padCores p r.absId).contains core.toNat = true) ∧
    (∃ (s : State), s.clk.guard = false) :=
  ⟨⟨withAct (pl0 .loaded) (.activation 0), 0, ⟨.activation 0, true, false⟩, pl0 .loaded, by decide +kernel⟩,
   ⟨withAct { pl0 .active with image := { img0 with exchange := true } } (.retirement 0 false), 0, ⟨.retirement 0 false, true, false⟩,
    { pl0 .active with image := { img0 with exchange := true } }, by decide +kernel⟩,
   ⟨withAct (pl0 .retiring) (.retirement 0 false), 0, ⟨.retirement 0 false, true, false⟩, pl0 .retiring, by decide +kernel⟩,
   ⟨withAct (pl0 .active) (.retirement 0 true), 0, ⟨.retirement 0 true, true, false⟩, pl0 .active, by decide +kernel⟩,
   ⟨withPlan { pl0 .active with rebind := some ⟨[], [], [], false, false⟩ }, 0,
    { pl0 .active with rebind := some ⟨[], [], [], false, false⟩ }, ⟨[], [], [], false, false⟩, by decide +kernel⟩,
   ⟨withPlan ({ pl0 .loaded with image := { img0 with refs := [{ ref0 with place := 1, hbm := 0 }], requests := [] }, bound := [⟨5, 0, 0, 0, 0, 0, 2097152⟩, ⟨5, 0, 0, 0, 1, 2097152, 2097152⟩] }),
    0, 5, 1,
    { pl0 .loaded with image := { img0 with refs := [{ ref0 with place := 1, hbm := 0 }], requests := [] }, bound := [⟨5, 0, 0, 0, 0, 0, 2097152⟩, ⟨5, 0, 0, 0, 1, 2097152, 2097152⟩] },
    { ref0 with place := 1, hbm := 0 }, ⟨5, 0, 0, 0, 0, 0, 2097152⟩, ⟨5, 0, 0, 0, 1, 2097152, 2097152⟩, by decide +kernel⟩,
   ⟨withPlan plPad, 0, 8, 0, plPad, refP, by decide +kernel⟩,
   ⟨up, by decide +kernel⟩⟩

/-- What meets the hypotheses of the clauses of PlanBoundaryActions. -/
theorem wit_PlanBoundaryActions_2 :
    (∃ (s : State) (slot : BitVec 6) (a : Pending) (p : Plan), (admitted s fun x => x == Action.rebindCommit slot.toNat) = some a ∧ plan? s slot.toNat =
     some p) ∧
    (∃ (s : State) (slot : Nat) (p : Plan), plan? s slot = some p) ∧
    (∃ (s : State) (slot : Nat) (p : Plan) (r : Rebind), plan? s slot = some p ∧ p.rebind = some r) ∧
    (∃ (s : State) (n : Nat) (p : Plan), s.actions = [{ act := Action.activation n, admitted := true, done := true }] ∧ plan? s n = some p) :=
  ⟨⟨withAct (pl0 .active) (.rebindCommit 0), 0, ⟨.rebindCommit 0, true, false⟩, pl0 .active, by decide +kernel⟩,
   ⟨withPlan (pl0 .active), 0, pl0 .active, by decide +kernel⟩,
   ⟨withPlan { pl0 .active with rebind := some ⟨[], [], [], true, false⟩ }, 0, { pl0 .active with rebind := some ⟨[], [], [], true, false⟩ },
    ⟨[], [], [], true, false⟩, by decide +kernel⟩,
   ⟨{ withPlan (pl0 .loaded) with actions := [⟨.activation 0, true, true⟩] }, 0, pl0 .loaded, by decide +kernel⟩⟩

/-- What meets the hypotheses of the clauses of SessionMemoryCommands. -/
theorem wit_SessionMemoryCommands :
    (∃ (s : State) (r : Req) (bytes : BitVec 64) (mask : Byte) (state : Byte) (free : List Nat) (n : Nat), 
     heard s r 0x0301 16 = true ∧ bytes.toNat ≠ 0 ∧ bytes.toNat % pageBytes = 0 ∧ mask.toNat ≤ 15 ∧
     ((state.toNat = 1 ∨ state.toNat = 2)) ∧ n = bytes.toNat / pageBytes ∧
     free = ((List.range 4).filter fun d => mask == 0 || bitAt mask.toNat d).flatMap (fun d => openFrames s (sessionAvail s) d) ∧
     n ≤ free.length ∧ pageRun s n + n ≤ 1048576) ∧
    (∃ (s : State) (r : Req) (bytes : BitVec 64) (mask : Byte) (state : Byte) (free : List Nat), 
     heard s r 0x0301 16 = true ∧ bytes.toNat ≠ 0 ∧ bytes.toNat % pageBytes = 0 ∧ mask.toNat ≤ 15 ∧
     ((state.toNat = 1 ∨ state.toNat = 2)) ∧
     free = ((List.range 4).filter fun d => mask == 0 || bitAt mask.toNat d).flatMap (fun d => openFrames s (sessionAvail s) d) ∧
     free.length < bytes.toNat / pageBytes) ∧
    (∃ (s : State) (r : Req) (base : BitVec 64) (a : Alloc), 
     heard s r 0x0302 8 = true ∧ (s.allocs.find? fun x => x.base == base.toNat) = some a ∧
     (s.blot.ring.any fun b => decide (a.base ≤ b.1) && decide (b.1 < a.base + a.pages * pageBytes)) = false ∧
     ((∀ i, i < a.pages → pageBusy s (a.base / pageBytes + i) = false))) ∧
    (∃ (s : State) (r : Req) (base : BitVec 64), heard s r 0x0302 8 = true ∧ (∀ a ∈ s.allocs, a.base ≠ base.toNat)) ∧
    (∃ (s : State) (r : Req) (first : BitVec 64) (n : BitVec 32), 
     heard s r 0x0305 16 = true ∧ first.toNat % pageBytes = 0 ∧ n.toNat ≤ 440) :=
  ⟨⟨up, (rq 16), 2097152, 1, 2, ((List.range 4).filter fun d => (1 : Byte) == 0 || bitAt (1 : Byte).toNat d).flatMap (fun d => openFrames up (sessionAvail up) d), 1, by
    have e : ((List.range 4).filter fun d => (1 : Byte) == 0 || bitAt (1 : Byte).toNat d) = [0] := by decide
    refine ⟨by decide +kernel, by decide, by decide, by decide, by decide, by decide, rfl, ?_, ?_⟩
    · rw [e]; simpa using one_frame
    · unfold pageRun
      simp only [up, State.reset, List.all_nil, Bool.and_true]
      split
      · simp_all
      · decide⟩,
   ⟨up, (rq 16), 0x2000000000000000#64, 1, 1, ((List.range 4).filter fun d => (1 : Byte) == 0 || bitAt (1 : Byte).toNat d).flatMap (fun d => openFrames up (sessionAvail up) d), by
    have e : ((List.range 4).filter fun d => (1 : Byte) == 0 || bitAt (1 : Byte).toNat d) = [0] := by decide
    refine ⟨by decide +kernel, by decide, by decide, by decide, by decide, rfl, ?_⟩
    rw [e]
    simp only [List.flatMap_cons, List.flatMap_nil, List.append_nil]
    exact Nat.lt_of_le_of_lt (open_le _ _ _) (by decide)⟩,
   ⟨sess, (rq 8), 0, ⟨0, 4⟩, by decide +kernel⟩,
   ⟨sess, (rq 8), 2097152, by decide +kernel⟩,
   ⟨up, (rq 16), 0, 440, by decide +kernel⟩⟩

/-- What meets the hypotheses of the clauses of PageStateCommands. -/
theorem wit_PageStateCommands :
    (∃ (s : State) (r : Req) (page : BitVec 64) (source : BitVec 64) (state : Byte) (p : Page), heardP s r 0x0303 24 = true ∧ page.toNat % pageBytes = 0 ∧
     page.toNat / 2 ^ 53 = 0 ∧ ((state.toNat = 1 ∨ state.toNat = 2)) ∧ look (page.toNat / pageBytes) s.pages = some p ∧ p.state = 0 ∧ ((source.toNat = 2 ^
     64 - 1 ∨ (source.toNat % pageBytes = 0 ∧ (planHolds s source.toNat = true ∨ sessionHolds s source.toNat = true) ∧ (translate s source.toNat).isSome =
     true))) ∧ pageFrames s p ≠ []) ∧
    (∃ (s : State) (r : Req) (first : BitVec 64) (pages : BitVec 32) (action : Byte), heardP s r 0x0304 16 = true ∧ first.toNat % pageBytes = 0 ∧
     first.toNat / 2 ^ 53 = 0 ∧ 1 ≤ action.toNat ∧ action.toNat ≤ 4 ∧ pages.toNat ≤ 1048576 ∧ ((∀ i, i < pages.toNat → pageActionOk s action.toNat
     (first.toNat / pageBytes + i) = true))) ∧
    (∃ (s : State) (page : BitVec 32) (src : Nat) (st : Nat) (ks : List PendKind) (p : Page) (f : Nat) (fs : List Nat), pendingBringIns s page.toNat =
     .bringIn page.toNat src st :: ks ∧ look page.toNat s.pages = some p ∧ p.state = 0 ∧ pageFrames s p = f :: fs) ∧
    (∃ (s : State) (first : BitVec 32) (n : Nat) (a : Nat) (rest : List (Nat × Nat × Nat)), List.flatMap (fun e => List.filterMap (fun c => match c.kind
     with | PendKind.pageSet f n a => if f = first.toNat then some (f, n, a) else none | x => none) e.snd.pend) s.mboxes = (first.toNat, n, a) :: rest ∧ (3
     ≤ a → ∀ (i : Nat), i < n → pageBusy s (first.toNat + i) = false) ∧ 1 ≤ a ∧ a ≤ 4 ∧ (∀ (i : Nat), i < n → pageActionOk s a (first.toNat + i) = true)) :=
  ⟨⟨sessIn, (rq 24), 0x600000#64, 0xffffffffffffffff#64, 2, ⟨0, false, false, 0, 0⟩, by decide +kernel, by decide, by decide,
    by decide, by decide +kernel, by decide, by decide, sessIn_frames⟩,
   ⟨sess, (rq 16), 0, 2, 4, by decide +kernel⟩,
   by
    obtain ⟨f, fs, e⟩ := List.exists_cons_of_ne_nil sessIn_frames
    exact ⟨sessIn, 3, 0, 2, [], ⟨0, false, false, 0, 0⟩, f, fs, by decide +kernel, by decide, by decide, e⟩,
   ⟨{ sess with mboxes := [(0, ⟨0, 0, 0, [⟨kept1, .pageSet 0 2 3⟩], [], []⟩)] }, 0, 2, 3, [], by decide +kernel⟩⟩

/-- What meets the hypotheses of the clauses of HostStreamCommands. -/
theorem wit_HostStreamCommands :
    (∃ (s : State) (q : Req) (r : StreamRef) (x : Stream), heard s q 0x0307 8 = true ∧ ((r.slot.toNat < 64 ∨ r.slot = 0xff)) ∧ stream? s (refKey r) = some
     x) ∧
    (∃ (s : State) (q : Req) (r : StreamRef) (x : Stream) (f : FaultRec), heard s q 0x0309 8 = true ∧ ((r.slot.toNat < 64 ∨ r.slot = 0xff)) ∧ stream? s
     (refKey r) = some x ∧ x.state = .halted ∧ x.fault = some f) ∧
    (∃ (s : State) (q : Req) (r : StreamRef) (x : Stream), heard s q 0x0309 8 = true ∧ ((r.slot.toNat < 64 ∨ r.slot = 0xff)) ∧ stream? s (refKey r) = some
     x ∧ x.state ≠ .halted) ∧
    (∃ (s : State) (q : Req) (r : StreamRef) (src : BitVec 64) (dst : BitVec 64) (x : Stream), heard s q 0x0308 24 = true ∧ ((r.slot.toNat < 64 ∨ r.slot =
     0xff)) ∧ stream? s (refKey r) = some x ∧ x.desc.persist = true ∧ rearmOk s (streamPlan s (refKey r)) x.ruled
     { x.desc with src := src.toNat, dst := dst.toNat } = true ∧ ((x.desc.kind ≠ 1 ∨ src.toNat = x.desc.src))) ∧
    (∃ (s : State) (q : Req) (r : StreamRef) (src : BitVec 64) (dst : BitVec 64) (x : Stream), heard s q 0x0308 24 = true ∧ ((r.slot.toNat < 64 ∨ r.slot =
     0xff)) ∧ stream? s (refKey r) = some x ∧ ((x.desc.persist = false ∨ rearmOk s (streamPlan s (refKey r)) x.ruled
     { x.desc with src := src.toNat, dst := dst.toNat } = false))) ∧
    (∃ (s : State) (r : Req) (dva : BitVec 64) (count : BitVec 32) (n : Nat) (first : Nat), heard s r 0x0306 16 = true ∧ n = count.toNat ∧ 1 ≤ n ∧ n ≤
     65536 ∧ rangeHeld s dva.toNat (64 * n) = true ∧ ((∀ i, i < n → hostDescOk (slice (readDva s dva.toNat (64 * n)) (64 * i) 64) = true)) ∧ hostRun s n =
     some first) ∧
    (∃ (s : State) (q : Req) (r : StreamRef) (src : BitVec 64) (dst : BitVec 64) (x : Stream) (chunks : List Chunk), heard s q 776 24 = true ∧
     (r.slot.toNat < 64 ∨ r.slot = 255) ∧ stream? s (refKey r) = some x ∧ x.desc.persist = true ∧ rearmOk s (streamPlan s (refKey r)) x.ruled
     { x.desc with src := src.toNat, dst := dst.toNat } = true ∧ x.desc.kind = 1 ∧ src.toNat ≠ x.desc.src ∧ armSource s (streamPlan s (refKey r))
     { x.desc with src := src.toNat, dst := dst.toNat } = Except.ok chunks) ∧
    (∃ (s : State) (q : Req) (r : StreamRef) (src : BitVec 64) (dst : BitVec 64) (x : Stream) (o : Nat), heard s q 776 24 = true ∧ (r.slot.toNat < 64 ∨
     r.slot = 255) ∧ stream? s (refKey r) = some x ∧ x.desc.persist = true ∧ rearmOk s (streamPlan s (refKey r)) x.ruled
     { x.desc with src := src.toNat, dst := dst.toNat } = true ∧ x.desc.kind = 1 ∧ src.toNat ≠ x.desc.src ∧ armSource s (streamPlan s (refKey r))
     { x.desc with src := src.toNat, dst := dst.toNat } = Except.error o) :=
  ⟨⟨withStr (str0 .idle), (rq 8), ⟨255, 0⟩, str0 .idle, by decide +kernel⟩,
   ⟨withStr { str0 .halted with fault := some (flt 0x600000) }, (rq 8), ⟨255, 0⟩, { str0 .halted with fault := some (flt 0x600000) },
    flt 0x600000, by decide +kernel⟩,
   ⟨withStr (str0 .idle), (rq 8), ⟨255, 0⟩, str0 .idle, by decide +kernel⟩,
   ⟨withStr { str0 .idle with desc := { (streamAt descBytes 0) with persist := true } }, (rq 24), ⟨255, 0⟩, 0, 4194304,
    { str0 .idle with desc := { (streamAt descBytes 0) with persist := true } }, by decide +kernel⟩,
   ⟨withStr (str0 .idle), (rq 24), ⟨255, 0⟩, 0, 0, str0 .idle, by decide +kernel⟩,
   ⟨sessRing (plT .active), (rq 16), 0, 1, 1, 0, by decide +kernel⟩,
   ⟨withStr strA, rq 24, ⟨255, 0⟩, 256, 4194304, strA, [],
    by decide +kernel, by decide +kernel, by decide +kernel, by decide +kernel, by decide +kernel, by decide +kernel, by decide +kernel, armed (by decide +kernel)⟩,
   ⟨{ sess with plans := [(0, plA)], streams := [((0, 0), strA)] }, rq 24, ⟨0, 0⟩, 256, 4194304, strA, 0,
    by decide +kernel, by decide +kernel, by decide +kernel, by decide +kernel, by decide +kernel, by decide +kernel, by decide +kernel, unarmed (by decide +kernel)⟩⟩

/-- What meets the hypotheses of the clauses of StreamControl. -/
theorem wit_StreamControl :
    (∃ (s : State) (q : Req) (r : StreamRef) (x : Stream) (f : FaultRec), 
     heard s q 0x030A 8 = true ∧ ((r.slot.toNat < 64 ∨ r.slot = 0xff)) ∧ stream? s (refKey r) = some x ∧ x.state = .halted ∧
     x.fault = some f ∧ (∀ p, access s f.dva 1 ≠ .absent p)) ∧
    (∃ (s : State) (q : Req) (r : StreamRef) (x : Stream) (f : FaultRec) (p : Nat), 
     heard s q 0x030A 8 = true ∧ ((r.slot.toNat < 64 ∨ r.slot = 0xff)) ∧ stream? s (refKey r) = some x ∧ x.state = .halted ∧
     x.fault = some f ∧ access s f.dva 1 = .absent p) ∧
    (∃ (s : State) (q : Req) (r : StreamRef) (x : Stream), 
     heard s q 0x030B 8 = true ∧ ((r.slot.toNat < 64 ∨ r.slot = 0xff)) ∧ stream? s (refKey r) = some x ∧
     ((x.state = .running ∨ x.state = .halted))) ∧
    (∃ (s : State) (q : Req) (r : StreamRef) (x : Stream), 
     heard s q 0x030C 8 = true ∧ ((r.slot.toNat < 64 ∨ r.slot = 0xff)) ∧ stream? s (refKey r) = some x ∧
     ((x.state = .running ∨ x.state = .halted ∨ x.state = .idle))) ∧
    (∃ (s : State) (q : Req) (r : StreamRef) (x : Stream), 
     ((r.slot.toNat < 64 ∨ r.slot = 0xff)) ∧ stream? s (refKey r) = some x ∧ heard s q 0x030A 8 = true ∧ x.state ≠ .halted) ∧
    (∃ (s : State) (q : Req) (r : StreamRef) (x : Stream), 
     ((r.slot.toNat < 64 ∨ r.slot = 0xff)) ∧ stream? s (refKey r) = some x ∧ heard s q 0x030B 8 = true ∧ x.state ≠ .running ∧
     x.state ≠ .halted) ∧
    (∃ (s : State) (q : Req) (r : StreamRef) (x : Stream), 
     ((r.slot.toNat < 64 ∨ r.slot = 0xff)) ∧ stream? s (refKey r) = some x ∧ heard s q 0x030C 8 = true ∧ x.state ≠ .running ∧
     x.state ≠ .halted ∧ x.state ≠ .idle) :=
  ⟨⟨withStr { str0 .halted with fault := some (flt 0) }, (rq 8), ⟨255, 0⟩, { str0 .halted with fault := some (flt 0) }, flt 0,
    by refine ⟨by decide +kernel, by decide, by decide +kernel, by decide, by decide, fun p => ?_⟩; rw [show access _ _ _ = Access.ok by decide +kernel]; simp⟩,
   ⟨withStr { str0 .halted with fault := some (flt 0x600000) }, (rq 8), ⟨255, 0⟩, { str0 .halted with fault := some (flt 0x600000) },
    flt 0x600000, 3, by decide +kernel⟩,
   ⟨withStr (str0 .running), (rq 8), ⟨255, 0⟩, str0 .running, by decide +kernel⟩,
   ⟨withStr (str0 .running), (rq 8), ⟨255, 0⟩, str0 .running, by decide +kernel⟩,
   ⟨withStr (str0 .idle), (rq 8), ⟨255, 0⟩, str0 .idle, by decide +kernel⟩,
   ⟨withStr (str0 .idle), (rq 8), ⟨255, 0⟩, str0 .idle, by decide +kernel⟩,
   ⟨withStr (str0 .done), (rq 8), ⟨255, 0⟩, str0 .done, by decide +kernel⟩⟩

/-- What meets the hypotheses of the clauses of RecordsAreWritten. -/
theorem wit_RecordsAreWritten :
    (∃ (e : ErrRec) (s : State), s.blot.ring = none ∧ s.blot.notice = none ∧ testFollows s e.test e.unit = false) ∧
    (∃ (b : BlotRec) (s : State), s.blot.ring = none ∧ b.count ≤ 16777215 ∧ (look b.plan s.blot.blots).getD 0 < 4096) ∧
    (∃ (b : BlotRec) (s : State), b.count ≤ 16777215 ∧ 4096 ≤ (look b.plan s.blot.blots).getD 0) ∧
    (∃ (s : State), s.blot.ring = none ∧ s.blot.notice = none) ∧
    (∃ (s : State), s.blot.ring = none ∧ s.blot.notice = none ∧ unnoted s = none) :=
  ⟨⟨⟨1, 2, 0, 0, 1, 0, false, false⟩, up, by decide +kernel⟩,
   ⟨⟨1, 0, 0, 0, 0, 0, 16777215⟩, up, by decide +kernel⟩,
   ⟨⟨1, 0, 0, 0, 0, 0, 1⟩, { up with blot := { up.blot with blots := [(0, 4096)] } }, by decide +kernel⟩,
   ⟨up, by decide +kernel⟩,
   ⟨up, by decide +kernel⟩⟩

/-- What meets the hypotheses of the clauses of QueueCommands. -/
theorem wit_QueueCommands :
    (∃ (s : State) (r : Req) (queue : BitVec 16) (x : Queue), heard s r 781 8 = true ∧ queueNumberOk queue.toNat = true ∧ queueOn s queue.toNat = true ∧
     queue? s queue.toNat = some x) ∧
    (∃ (s : State) (r : Req) (queue : BitVec 16) (desc : BitVec 256) (slot : Nat) (p : Plan) (a : Nat) (x : Queue), heard s r 782 40 = true ∧ queueOn s
     queue.toNat = true ∧ (∀ (e : Nat × Bool), e ∈ queueSetBad s queue.toNat desc.toNat → e.snd = false) ∧ queueOwner s queue.toNat = some (slot, p, a) ∧
     queue? s queue.toNat = some x ∧ p.state = PlanState.loaded) ∧
    (∃ (s : State) (r : Req) (queue : BitVec 16) (x : Queue) (slot : Nat) (p : Plan) (a : Nat), heard s r 784 8 = true ∧ queueNumberOk queue.toNat = true ∧
     queueOn s queue.toNat = true ∧ queue? s queue.toNat = some x ∧ queueOwner s queue.toNat = some (slot, p, a) ∧ p.state = PlanState.active ∧ queueRuled
     p a = true) ∧
    (∃ (s : State) (r : Req) (queue : BitVec 16) (desc : BitVec 256), heard s r 782 40 = true ∧ queueOn s queue.toNat = true ∧ (∀ (e : Nat × Bool), e ∈
     queueSetBad s queue.toNat desc.toNat → e.snd = false) ∧ (∀ (slot : Nat) (p : Plan) (a : Nat), queueOwner s queue.toNat = some (slot, p, a) → p.state ≠
     PlanState.loaded)) ∧
    (∃ (s : State) (r : Req) (queue : BitVec 16) (x : Queue), heard s r 784 8 = true ∧ queueNumberOk queue.toNat = true ∧ queueOn s queue.toNat = true ∧
     queue? s queue.toNat = some x ∧ (∀ (slot : Nat) (p : Plan) (a : Nat), queueOwner s queue.toNat = some (slot, p, a) → p.state ≠ PlanState.active ∨
     queueRuled p a = false)) ∧
    (∃ (s : State) (r : Req) (queue : BitVec 16), queueNumberOk queue.toNat = true ∧ queueOn s queue.toNat = false ∧ heard s r 781 8 = true) ∧
    (∃ (s : State) (r : Req) (queue : BitVec 16), queueNumberOk queue.toNat = true ∧ queueOn s queue.toNat = false ∧ heard s r 784 8 = true) :=
  ⟨⟨queUp (plT .loaded) (que []), (rq 8), 40, que [], by decide +kernel⟩,
   ⟨queUp (plT .loaded) (que []), (rq 40), 40, (2 ^ 88 + 64 * 2 ^ 158), 0, plT .loaded, 3, que [], by decide +kernel⟩,
   ⟨queUp ({ plT .active with image := { imgT with streams := [{ streamAt descBytes 0 with srcKind := 6, srcAbs := 3 }], certs := [⟨0, 0, 0, 0, 0, 0, 0, 7, 2⟩] } }) (que []),
    (rq 8), 40, que [], 0,
    ({ plT .active with image := { imgT with streams := [{ streamAt descBytes 0 with srcKind := 6, srcAbs := 3 }], certs := [⟨0, 0, 0, 0, 0, 0, 0, 7, 2⟩] } }),
    3, by decide +kernel⟩,
   ⟨queUp (plT .active) (que []), (rq 40), 40, (2 ^ 88 + 64 * 2 ^ 158), by
    refine ⟨by decide +kernel, by decide +kernel, by decide +kernel, fun slot p a h => ?_⟩
    have e : queueOwner (queUp (plT .active) (que [])) 40 = some (0, plT .active, 3) := by decide +kernel
    rw [show (BitVec.toNat (40 : BitVec 16)) = 40 from rfl, e] at h
    cases h; decide⟩,
   ⟨queUp (plT .active) (que []), (rq 8), 40, que [], by
    refine ⟨by decide +kernel, by decide +kernel, by decide +kernel, by decide +kernel, fun slot p a h => ?_⟩
    have e : queueOwner (queUp (plT .active) (que [])) 40 = some (0, plT .active, 3) := by decide +kernel
    rw [show (BitVec.toNat (40 : BitVec 16)) = 40 from rfl, e] at h
    cases h; decide⟩,
   ⟨offQ, (rq 8), 40, by decide +kernel⟩,
   ⟨offQ, (rq 8), 40, by decide +kernel⟩⟩

/-- What meets the hypotheses of the clauses of QueueOperations. -/
theorem wit_QueueOperations :
    (∃ (s : State) (q : BitVec 16) (x : Queue) (m : Nat × Nat), queue? s q.toNat = some x ∧ x.mark = some m) ∧
    (∃ (s : State) (q : BitVec 16) (x : Queue), queue? s q.toNat = some x ∧ x.mark = none) ∧
    (∃ (s : State) (q : BitVec 16) (x : Queue) (p : Packet), queue? s q.toNat = some x ∧ x.broken = false ∧ x.pkts[x.read.1]? = some p ∧ p.cells.length = 1
     ∧ x.read.2 = 0 ∧ x.mark = none ∧ x.autorel = true) ∧
    (∃ (s : State) (q : BitVec 16) (x : Queue), queue? s q.toNat = some x ∧ x.pkts.length ≤ x.read.1) ∧
    (∃ (s : State) (q : BitVec 16) (x : Queue) (bs : Bytes), queue? s q.toNat = some x ∧ x.broken = false ∧ cellsFor bs.length ≤ x.limit ∧ queueRoom s
     q.toNat bs.length = true) ∧
    (∃ (s : State) (q : BitVec 16) (x : Queue) (bs : Bytes), queue? s q.toNat = some x ∧ x.limit < cellsFor bs.length) ∧
    (∃ (s : State) (q : BitVec 16) (x : Queue), queue? s q.toNat = some x) ∧
    (∃ (s : State) (r : Req) (q : BitVec 16) (op : Byte) (cells : Byte) (x : Queue), heard s r 783 8 = true ∧ queueNumberOk q.toNat = true ∧ queueOn s
     q.toNat = true ∧ 1 ≤ op.toNat ∧ op.toNat ≤ 4 ∧ 1 ≤ cells.toNat ∧ cells.toNat ≤ 55 ∧ hostAttached s q.toNat = true ∧ queue? s q.toNat = some x ∧ op = 2) :=
  ⟨⟨queUp (plT .active) ({ que [pk1] with mark := some (0, 0) }), 40, { que [pk1] with mark := some (0, 0) }, (0, 0),
    by decide +kernel⟩,
   ⟨queUp (plT .active) (que [pk1]), 40, que [pk1], by decide +kernel⟩,
   ⟨queUp (plT .active) (que [pk1]), 40, que [pk1], pk1, by decide +kernel⟩,
   ⟨queUp (plT .active) (que []), 40, que [], by decide +kernel⟩,
   ⟨queUp (plT .active) (que [pk1]), 40, que [pk1], zeros 57, by decide +kernel⟩,
   ⟨queUp (plT .active) (que [pk1]), 40, que [pk1], zeros 3585, by decide +kernel⟩,
   ⟨queUp (plT .active) (que [pk1]), 40, que [pk1], by decide +kernel⟩,
   ⟨{ queUp (plT .active) (que [pk1]) with rx := [⟨3, false, 4, .queue 40, 0, [], []⟩] }, (rq 8), 40, 2, 55, que [pk1],
    by decide +kernel⟩⟩

/-- What meets the hypotheses of the clauses of QueueOperations. -/
theorem wit_QueueOperations_2 :
    (∃ (s : State) (r : Req) (q : BitVec 16) (op : Byte) (cells : Byte) (x : Queue), heard s r 783 8 = true ∧ queueNumberOk q.toNat = true ∧ queueOn s
     q.toNat = true ∧ 1 ≤ op.toNat ∧ op.toNat ≤ 4 ∧ 1 ≤ cells.toNat ∧ cells.toNat ≤ 55 ∧ hostAttached s q.toNat = true ∧ queue? s q.toNat = some x ∧ op = 3
     ∧ x.mark = none) ∧
    (∃ (s : State) (r : Req) (q : BitVec 16) (op : Byte) (cells : Byte) (x : Queue), heard s r 783 8 = true ∧ queueNumberOk q.toNat = true ∧ queueOn s
     q.toNat = true ∧ 1 ≤ op.toNat ∧ op.toNat ≤ 4 ∧ 1 ≤ cells.toNat ∧ cells.toNat ≤ 55 ∧ hostAttached s q.toNat = true ∧ queue? s q.toNat = some x ∧ op = 4) ∧
    (∃ (s : State) (r : Req) (q : BitVec 16) (op : Byte) (cells : Byte), heard s r 783 8 = true ∧ queueNumberOk q.toNat = true ∧ queueOn s q.toNat = true ∧
     1 ≤ op.toNat ∧ op.toNat ≤ 4 ∧ 1 ≤ cells.toNat ∧ cells.toNat ≤ 55 ∧ hostAttached s q.toNat = false) ∧
    (∃ (s : State) (r : Req) (q : BitVec 16) (op : Byte) (cells : Byte) (x : Queue), heard s r 783 8 = true ∧ queueNumberOk q.toNat = true ∧ queueOn s
     q.toNat = true ∧ 1 ≤ op.toNat ∧ op.toNat ≤ 4 ∧ 1 ≤ cells.toNat ∧ cells.toNat ≤ 55 ∧ hostAttached s q.toNat = true ∧ queue? s q.toNat = some x ∧ op = 1
     ∧ poolQuiet s q.toNat) ∧
    (∃ (s : State) (q : BitVec 16) (x : Queue) (bs : Bytes), queue? s q.toNat = some x ∧ cellsFor (List.length bs) ≤ x.limit ∧ queueRoom s q.toNat
     (List.length bs) = false) :=
  ⟨⟨{ queUp (plT .active) (que [pk1]) with rx := [⟨3, false, 4, .queue 40, 0, [], []⟩] }, (rq 8), 40, 3, 55, que [pk1],
    by decide +kernel⟩,
   ⟨{ queUp (plT .active) (que [pk1]) with rx := [⟨3, false, 4, .queue 40, 0, [], []⟩] }, (rq 8), 40, 4, 55, que [pk1],
    by decide +kernel⟩,
   ⟨queUp (plT .active) (que [pk1]), (rq 8), 40, 4, 1, by decide +kernel⟩,
   ⟨upQ, (rq 8), 40, 1, 55, que [pk1], by decide +kernel, by decide +kernel, by decide +kernel, by decide, by decide, by decide, by decide, by decide +kernel, by decide +kernel, rfl, fun e h => nomatch h⟩,
   ⟨queUp (plT .active) { que [pk1] with limit := 1 }, 40, { que [pk1] with limit := 1 }, [1], by decide +kernel⟩⟩

/-- What meets the hypotheses of the clauses of SignalCommands. -/
theorem wit_SignalCommands :
    (∃ (s : State) (r : Req) (n : BitVec 16) (die : Byte) (f : Nat), 
     heard s r 0x0311 8 = true ∧ die.toNat ≤ 3 ∧ isExcluded s (signalsUid die.toNat) = false ∧ n.toNat ≤ 4096 ∧
     freeRun s die.toNat n.toNat = some f) ∧
    (∃ (s : State) (r : Req) (c : BitVec 16) (value : BitVec 32) (min : BitVec 32) (max : BitVec 32) (toHost : Byte), 
     heard s r 0x0312 24 = true ∧ c.toNat < 16384 ∧ min.sle value = true ∧ value.sle max = true ∧ toHost.toNat ≤ 1 ∧
     cellHeld s c.toNat = true ∧ ((∀ p, cellPlan s c.toNat = some p → p.state = .loaded))) ∧
    (∃ (s : State) (r : Req) (c : BitVec 16) (value : BitVec 32) (min : BitVec 32) (max : BitVec 32) (toHost : Byte) (p : Plan), 
     heard s r 0x0312 24 = true ∧ c.toNat < 16384 ∧ min.sle value = true ∧ value.sle max = true ∧ toHost.toNat ≤ 1 ∧
     cellHeld s c.toNat = true ∧ cellPlan s c.toNat = some p ∧ p.state ≠ .loaded) ∧
    (∃ (s : State) (r : Req) (c : BitVec 16), heard s r 0x0313 8 = true ∧ c.toNat < 16384 ∧ cellHeld s c.toNat = true) ∧
    (∃ (s : State) (r : Req) (c : BitVec 16), heard s r 0x0313 8 = true ∧ c.toNat < 16384 ∧ cellHeld s c.toNat = false) ∧
    (∃ (s : State) (r : Req) (c : BitVec 16), heard s r 0x0314 8 = true ∧ c.toNat < 16384) ∧
    (∃ (s : State) (r : Req) (source : BitVec 16) (ext : Byte) (stream : BitVec 16) (pos : BitVec 64) (x : RemoteSignal), 
     heard s r 0x0315 16 = true ∧ source.toNat < 1024 ∧ ext.toNat ≤ 1 ∧ pos.toNat < 2 ^ 48 ∧
     s.remote.find? (remoteIs source.toNat (ext == 1) stream.toNat pos.toNat) = some x) ∧
    (∃ (s : State) (r : Req) (source : BitVec 16) (ext : Byte) (stream : BitVec 16) (pos : BitVec 64), 
     heard s r 0x0315 16 = true ∧ source.toNat < 1024 ∧ ext.toNat ≤ 1 ∧ pos.toNat < 2 ^ 48 ∧
     s.remote.find? (remoteIs source.toNat (ext == 1) stream.toNat pos.toNat) = none) :=
  ⟨⟨up, (rq 8), 4096, 3, 12288, by decide +kernel, by decide, by decide +kernel, by decide, by decide +kernel⟩,
   ⟨{ withPlan (plT .loaded) with cells := [(9, { SigCell.reset with bound := true, plan := 0 })] }, (rq 24), 9, 0x80000000#32, 0x80000000#32, 0x7fffffff#32, 1, by
    refine ⟨by decide +kernel, by decide, by decide, by decide, by decide, by decide, fun p h => ?_⟩
    rw [show cellPlan _ _ = some (plT .loaded) by decide +kernel] at h
    cases h; rfl⟩,
   ⟨{ withPlan (plT .active) with cells := [(9, { SigCell.reset with bound := true, plan := 0 })] }, (rq 24), 9, 0, 0, 0, 0,
    plT .active, by decide +kernel⟩,
   ⟨{ withPlan (plT .active) with cells := [(9, { SigCell.reset with bound := true, plan := 0 })] }, (rq 8), 9, by decide +kernel⟩,
   ⟨up, (rq 8), 0x3fff#16, by decide +kernel⟩,
   ⟨up, (rq 8), 0x3fff#16, by decide +kernel⟩,
   ⟨{ up with remote := [⟨9, 1, 3, true, 4, 100, 0, 0, false⟩] }, (rq 16), 3, 1, 4, 100, ⟨9, 1, 3, true, 4, 100, 0, 0, false⟩,
    by decide +kernel⟩,
   ⟨up, (rq 16), 1023, 1, 4, 0xffffffffffff#64, by decide +kernel⟩⟩

/-- What meets the hypotheses of the clauses of SignalEvents. -/
theorem wit_SignalEvents :
    (∃ (s : State) (c : BitVec 14), (cell s c.toNat).waiters = [] ∧ (cell s c.toNat).min.sle (cell s c.toNat).value = true ∧ (cell s c.toNat).value.sle
     (cell s c.toNat).max = true) ∧
    (∃ (s : State) (source : BitVec 10) (ext : Bool) (stream : BitVec 16) (pos : BitVec 48) (x : RemoteSignal), s.remote.find? (remoteIs source.toNat ext
     stream.toNat pos.toNat) = some x ∧ (committedOf s source.toNat ext stream.toNat - pos).toNat < 2 ^ 47) ∧
    (∃ (s : State) (source : BitVec 10) (ext : Bool) (stream : BitVec 16) (pos : BitVec 48), 2 ^ 47 ≤ (committedOf s source.toNat ext stream.toNat -
     pos).toNat) ∧
    (∃ (s : State) (num : BitVec 16) (unit : BitVec 16) (e : Nat × Waiter) (x : Queue), s.queueWaits.find? (fun e => e.1 == num.toNat && e.2.unit == unit)
     = some e ∧ queue? s num.toNat = some x ∧ x.wdog ≠ 0xffffffff#32) ∧
    (∃ (s : State) (num : BitVec 16) (unit : BitVec 16) (w : Waiter), (cell s num.toNat).waiters = [w] ∧ w.unit = unit ∧ (cell s num.toNat).wdog ≠
     0xffffffff#32 ∧ s.regHeld = []) ∧
    (∃ (s : State) (source : BitVec 10) (ext : Bool) (stream : BitVec 16) (pos : BitVec 48) (x : RemoteSignal), List.find? (fun x => remoteIs source.toNat
     ext stream.toNat pos.toNat x && !x.reported) s.remote = some x) :=
  ⟨⟨up, 0x3fff#14, by decide +kernel⟩,
   ⟨{ up with remote := [⟨9, 1, 3, true, 4, 100, 0, 0, false⟩], rx := [⟨3, true, 4, .queue 40, 100, [], []⟩] }, 3, true, 4, 100,
    ⟨9, 1, 3, true, 4, 100, 0, 0, false⟩, by decide +kernel⟩,
   ⟨up, 3, true, 4, 1, by decide +kernel⟩,
   ⟨{ queUp (plT .active) (que []) with queueWaits := [(40, ⟨5, 0, 0, .unit⟩)] }, 40, 5, (40, ⟨5, 0, 0, .unit⟩), que [],
    by decide +kernel⟩,
   ⟨{ up with cells := [(9, { SigCell.reset with bound := true, waiters := [⟨5, 1, 0, .unit⟩] })] }, 9, 5, ⟨5, 1, 0, .unit⟩,
    by decide +kernel⟩,
   ⟨{ up with remote := [⟨9, 1, 3, true, 4, 100, 0, 0, false⟩] }, 3, true, 4, 100, ⟨9, 1, 3, true, 4, 100, 0, 0, false⟩,
    by decide +kernel⟩⟩

/-- What meets the hypotheses of the clauses of TableCommands. -/
theorem wit_TableCommands :
    (∃ (s : State) (r : Req) (slot : Byte) (ref : BitVec 16) (first : BitVec 32) (words : List (BitVec 64)) (c : TableCtx) (os : List Owner), heard s r
     0x0401 (16 + 8 * words.length) = true ∧ slot.toNat < 64 ∧ words.length ≤ 440 ∧ tableCtx s slot.toNat ref.toNat = some c ∧ c.plan.state = .loaded ∧
     c.r.place = 0 ∧ words.map (fun w => ownerWord s c.plan c.r w.toNat) = os.map some ∧ first.toNat + words.length ≤ (tableOf s slot.toNat
     ref.toNat).owners.length ∧ ((c.d.lag = 1 → ∀ o ∈ os, o.isSet = true → o.home / 2 ^ 47 = s.deviceNumber.toNat))) ∧
    (∃ (s : State) (r : Req) (slot : Byte) (ref : BitVec 16) (words : List (BitVec 64)) (c : TableCtx) (p : Plan), heard s r 0x0401 (16 + 8 * words.length)
     = true ∧ slot.toNat < 64 ∧ words.length ≤ 440 ∧ tableCtx s slot.toNat ref.toNat = some c ∧ (∀ w ∈ words, (ownerWord s c.plan c.r w.toNat).isSome =
     true) ∧ plan? s slot.toNat = some p ∧ p.state ≠ .loaded) ∧
    (∃ (s : State) (r : Req) (slot : Byte) (ref : BitVec 16) (first : BitVec 32) (n : BitVec 16) (c : TableCtx), heard s r 0x0402 16 = true ∧ slot.toNat <
     64 ∧ n.toNat ≤ 220 ∧ tableCtx s slot.toNat ref.toNat = some c ∧ first.toNat + n.toNat ≤ (tableOf s slot.toNat ref.toNat).owners.length) ∧
    (∃ (s : State) (r : Req) (slot : Byte) (ref : BitVec 16) (c : TableCtx), heard s r 0x0406 8 = true ∧ slot.toNat < 64 ∧ tableCtx s slot.toNat ref.toNat
     = some c) ∧
    (∃ (s : State) (r : Req) (slot : Byte) (ref : BitVec 16), slot.toNat < 64 ∧ tableCtx s slot.toNat ref.toNat = none ∧ heard s r 0x0406 8 = true) ∧
    (∃ (s : State) (r : Req) (slot : Byte) (ref : BitVec 16) (n : BitVec 16), slot.toNat < 64 ∧ tableCtx s slot.toNat ref.toNat = none ∧ n.toNat ≤ 220 ∧
     heard s r 0x0402 16 = true) ∧
    (∃ (s : State) (r : Req) (slot : Byte) (live : BitVec 16) (standby : BitVec 16) (T : BitVec 64) (c : TableCtx) (x : TableCtx), heardP s r 0x0403 16 =
     true ∧ slot.toNat < 64 ∧ tableCtx s slot.toNat live.toNat = some c ∧ tableCtx s slot.toNat standby.toNat = some x ∧ replaceOk s c x T.toNat = true) ∧
    (∃ (s : State) (r : Req) (slot : Byte) (ref : BitVec 16) (first : BitVec 32) (words : List (BitVec 64)) (c : TableCtx) (p : Plan), heard s r 1025 (16 +
     8 * words.length) = true ∧ slot.toNat < 64 ∧ words.length ≤ 440 ∧ tableCtx s (slot.toNat) ref.toNat = some c ∧ (∀ (w : BitVec 64), w ∈ words →
     (ownerWord s c.plan c.r w.toNat).isSome = true) ∧ plan? s (slot.toNat) = some p ∧ p.state = PlanState.loaded ∧ (c.r.place ≠ 0 ∨ (tableOf s
     (slot.toNat) ref.toNat).owners.length < first.toNat + words.length)) :=
  ⟨⟨tblUp (plT .loaded) tbl0, (rq (24)), 0, 5, 0, [0x8000000000000000#64], ctxT (plT .loaded) 5, [own0],
    by refine ⟨?_, ?_, ?_, ?_, ?_, ?_, ?_, ?_, ?_⟩ <;> first | decide +kernel | with_reducible rfl | exact tableCtx_of (by decide +kernel) (by decide +kernel) rfl | simp⟩,
   ⟨tblUp (plT .active) tbl0, (rq (24)), 0, 5, [0x8000000000000000#64], ctxT (plT .active) 5, plT .active, by decide +kernel,
    by decide, by decide, tableCtx_of (by decide +kernel) (by decide +kernel) rfl, all_of (by decide +kernel), by decide +kernel,
    by decide⟩,
   ⟨tblUp (plT .active) tbl0, (rq 16), 0, 5, 0, 1, ctxT (plT .active) 5,
    by refine ⟨?_, ?_, ?_, ?_, ?_⟩ <;> first | decide +kernel | with_reducible rfl | exact tableCtx_of (by decide +kernel) (by decide +kernel) rfl | simp⟩,
   ⟨tblUp (plT .active) tbl0, (rq 8), 0, 5, ctxT (plT .active) 5,
    by refine ⟨?_, ?_, ?_⟩ <;> first | decide +kernel | with_reducible rfl | exact tableCtx_of (by decide +kernel) (by decide +kernel) rfl | simp⟩,
   ⟨up, (rq 8), 63, 5,
    by refine ⟨?_, ?_, ?_⟩ <;> first | decide +kernel | with_reducible rfl | exact tableCtx_of (by decide +kernel) (by decide +kernel) rfl | simp⟩,
   ⟨up, (rq 16), 63, 5, 220,
    by refine ⟨?_, ?_, ?_, ?_⟩ <;> first | decide +kernel | with_reducible rfl | exact tableCtx_of (by decide +kernel) (by decide +kernel) rfl | simp⟩,
   ⟨{ tblUp (plT .active) tbl0 with tables := [((0, 5), tbl0), ((0, 6), tbl0)] }, (rq 16), 0, 5, 6, 2, ctxT (plT .active) 5,
    ctxT (plT .active) 6,
    by refine ⟨?_, ?_, ?_, ?_, ?_⟩ <;> first | decide +kernel | with_reducible rfl | exact tableCtx_of (by decide +kernel) (by decide +kernel) rfl | simp⟩,
   ⟨tblUp (plT .loaded) tbl0, rq 24, 0, 5, 1, [0x8000000000000000#64], ctxT (plT .loaded) 5, plT .loaded,
    by decide +kernel, by decide, by decide, tableCtx_of (by decide +kernel) (by decide +kernel) rfl, all_of (by decide +kernel),
    by decide +kernel, by decide, .inr (by decide +kernel)⟩⟩

/-- What meets the hypotheses of the clauses of TableCommands. -/
theorem wit_TableCommands_2 :
    (∃ (s : State) (r : Req) (slot : Byte) (ref : BitVec 16) (first : BitVec 32) (words : List (BitVec 64)) (c : TableCtx) (p : Plan), heard s r 1025 (16 +
     8 * words.length) = true ∧ slot.toNat < 64 ∧ words.length ≤ 440 ∧ tableCtx s (slot.toNat) ref.toNat = some c ∧ (∀ (w : BitVec 64), w ∈ words →
     (ownerWord s c.plan c.r w.toNat).isSome = true) ∧ plan? s (slot.toNat) = some p ∧ p.state = PlanState.loaded ∧ c.r.place = 0 ∧ first.toNat +
     words.length ≤ (tableOf s (slot.toNat) ref.toNat).owners.length ∧ c.d.lag = 1 ∧ (∃ w, w ∈ words ∧ ∃ o, ownerWord s c.plan c.r w.toNat = some o ∧
     o.isSet = true ∧ o.home / 2 ^ 47 ≠ s.deviceNumber.toNat)) ∧
    (∃ (s : State) (r : Req) (slot : Byte) (ref : BitVec 16) (words : List (BitVec 64)), slot.toNat < 64 ∧ tableCtx s (slot.toNat) ref.toNat = none ∧
     words.length ≤ 440 ∧ heard s r 1025 (16 + 8 * words.length) = true) ∧
    (∃ (s : State) (r : Req) (slot : Byte) (ref : BitVec 16) (first : BitVec 32) (n : BitVec 16) (c : TableCtx), heard s r 1026 16 = true ∧ slot.toNat < 64
     ∧ n.toNat ≤ 220 ∧ tableCtx s (slot.toNat) ref.toNat = some c ∧ (tableOf s (slot.toNat) ref.toNat).owners.length < first.toNat + n.toNat) ∧
    (∃ (s : State) (r : Req) (slot : Byte) (live : BitVec 16) (standby : BitVec 16) (T : BitVec 64) (c : TableCtx) (x : TableCtx), heardP s r 1027 16 =
     true ∧ slot.toNat < 64 ∧ tableCtx s (slot.toNat) live.toNat = some c ∧ tableCtx s (slot.toNat) standby.toNat = some x ∧ (c.ref = x.ref ∨ c.d.rows ≠
     x.d.rows ∨ c.d.dim ≠ x.d.dim ∨ c.d.stride ≠ x.d.stride ∨ c.d.fmt ≠ x.d.fmt ∨ c.r.place ≠ x.r.place ∨ (∃ o, o ∈ (tableOf s (slot.toNat)
     standby.toNat).owners ∧ o.isSet = false) ∨ c.plan.state = PlanState.retiring ∨ T.toNat ≤ nowTick s + 1 ∨ 16 ≤ (List.filter (fun e => e.snd.snd.snd ==
     T.toNat) (replacements s)).length)) ∧
    (∃ (s : State) (r : Req) (slot : Byte) (live : BitVec 16) (standby : BitVec 16), heardP s r 1027 16 = true ∧ slot.toNat < 64 ∧ (tableCtx s (slot.toNat)
     live.toNat = none ∨ tableCtx s (slot.toNat) standby.toNat = none)) :=
  ⟨⟨tblUp (plT .loaded) tbl0, rq 24, 0, 5, 0, [0x800000000000#64], ctxT (plT .loaded) 5, plT .loaded,
    by decide +kernel, by decide, by decide, tableCtx_of (by decide +kernel) (by decide +kernel) rfl, all_of (by decide +kernel),
    by decide +kernel, by decide, by decide, by decide +kernel, by decide +kernel, 0x800000000000#64, by decide, { own0 with home := 2 ^ 47 }, by decide +kernel⟩,
   ⟨up, rq 24, 63, 5, [0], by refine ⟨?_, ?_, ?_, ?_⟩ <;>
      first | decide +kernel | with_reducible rfl | exact tableCtx_of (by decide +kernel) (by decide +kernel) rfl | simp⟩,
   ⟨tblUp (plT .active) tbl0, rq 16, 0, 5, 1, 1, ctxT (plT .active) 5, by refine ⟨?_, ?_, ?_, ?_, ?_⟩ <;>
      first | decide +kernel | with_reducible rfl | exact tableCtx_of (by decide +kernel) (by decide +kernel) rfl | simp⟩,
   ⟨{ tblUp (plT .active) tbl0 with tables := [((0, 5), tbl0), ((0, 6), tbl0)] }, rq 16, 0, 5, 6, 1, ctxT (plT .active) 5, ctxT (plT .active) 6,
    by decide +kernel, by decide, tableCtx_of (by decide +kernel) (by decide +kernel) rfl, tableCtx_of (by decide +kernel) (by decide +kernel) rfl,
    .inr (.inr (.inr (.inr (.inr (.inr (.inr (.inr (.inl (by decide))))))))) ⟩,
   ⟨up, rq 16, 63, 5, 6, by decide +kernel, by decide, .inl (by decide +kernel)⟩⟩

/-- What meets the hypotheses of the clauses of TableEvents. -/
theorem wit_TableEvents :
    (∃ (s : State), s.clk.guard = false) ∧
    (∃ (s : State) (slot : BitVec 6) (ref : BitVec 16) (row : BitVec 64) (c : TableCtx) (a : Pending), tableCtx s slot.toNat ref.toNat = some c ∧ admitted
     s (isCutover c (c.block row.toNat)) = some a) ∧
    (∃ (s : State) (slot : Nat) (ref : Nat) (row : Nat) (c : TableCtx) (o : Owner), tableCtx s slot ref = some c ∧ (tableOf s slot ref).owners[c.block
     row]? = some o) ∧
    (∃ (s : State) (slot : Nat) (ref : Nat) (row : Nat) (c : TableCtx) (o : Owner) (i : Nat), tableCtx s slot ref = some c ∧ (tableOf s slot
     ref).owners[c.block row]? = some o ∧ i ≠ c.block row) ∧
    (∃ (s : State) (slot : Nat) (ref : Nat) (row : Nat) (c : TableCtx) (o : Owner) (m : Migration), tableCtx s slot ref = some c ∧ (tableOf s slot
     ref).owners[c.block row]? = some o ∧ m ∈ (tableOf (commitAction s (Action.cutover slot ref row 0)) slot ref).migrations) ∧
    (∃ (s : State) (slot : Nat) (live : Nat) (standby : Nat) (c : TableCtx), tableCtx s slot live = some c ∧ standby ≠ live) ∧
    (∃ (s : State) (slot : BitVec 6) (ref : BitVec 16) (row : BitVec 64) (a : Pending), (admitted s fun a => a == Action.dipChange slot.toNat ref.toNat
     row.toNat) = some a) ∧
    (∃ (s : State) (slot : Nat) (ref : Nat) (row : Nat) (c : TableCtx), tableCtx s slot ref = some c ∧ row ≠ pauseEnd) :=
  ⟨⟨up, by decide +kernel⟩,
   ⟨tblAct { tbl0 with migrations := [⟨0, 0, [], true⟩] } (.cutover 0 5 0 0), 0, 5, 0, ctxT (plT .active) 5, ⟨.cutover 0 5 0 0, true, false⟩, ctx5 rfl,
    by decide +kernel⟩,
   ⟨tblUp (plT .active) tbl0, 0, 5, 0, ctxT (plT .active) 5, own0, ctx5 rfl, by decide +kernel⟩,
   ⟨tblUp (plT .active) tbl0, 0, 5, 0, ctxT (plT .active) 5, own0, 1, ctx5 rfl, by decide +kernel⟩,
   ⟨tblUp (plT .active) { Table.fresh 5 [own0, own0] with migrations := [⟨1, 0, [], true⟩] }, 0, 5, 0, ctxT (plT .active) 5, own0, ⟨1, 0, [], true⟩, ctx5 rfl,
    by decide +kernel⟩,
   ⟨tblUp (plT .active) tbl0, 0, 5, 6, ctxT (plT .active) 5, ctx5 rfl, by decide⟩,
   ⟨tblAct tbl0 (.dipChange 0 5 3), 0, 5, 3, ⟨.dipChange 0 5 3, true, false⟩, by decide +kernel⟩,
   ⟨tblUp (plT .active) tbl0, 0, 5, 3, ctxT (plT .active) 5, ctx5 rfl, by decide⟩⟩

/-- What meets the hypotheses of the clauses of TableEvents. -/
theorem wit_TableEvents_2 :
    (∃ (s : State) (slot : Nat) (ref : Nat) (row : Nat) (c : TableCtx) (d : Nat) (x : DipPart) (r : DipRow), tableCtx s slot ref = some c ∧ row ≠ pauseEnd
     ∧ (d, x) ∈ (commitAction s (Action.dipChange slot ref row)).dips ∧ r ∈ x.rows ∧ r.slot = slot ∧ r.ref = ref ∧ r.row = row ∧ r.gen = (tableOf s slot
     ref).gen) ∧
    (∃ (s : State) (slot : Nat) (ref : Nat) (c : TableCtx) (p : Nat), tableCtx s slot ref = some c ∧ (tableOf s slot ref).pause = some p) ∧
    (∃ (s : State), s.rul.surveyTicks < 64) ∧
    (∃ (s : State), 64 ≤ s.rul.surveyTicks) ∧
    (∃ (s : State) (slot : BitVec 6) (ref : BitVec 16) (row : BitVec 64) (c : TableCtx) (m : Migration) (pl : Nat × Nat), tableCtx s slot.toNat ref.toNat =
     some c ∧ List.find? (fun m => m.block == c.block row.toNat && !m.requested) (tableOf s slot.toNat ref.toNat).migrations = some m ∧ blockPlaces s c
     (c.block row.toNat) = some pl ∧ blockReach s c (c.block row.toNat) = true) ∧
    (∃ (s : State) (slot : BitVec 6) (live : BitVec 16) (a : Pending), (admitted s fun a =>
     match a with | Action.tableSwap sl l standby t => sl == slot.toNat && l == live.toNat && t == nowTick s + 1 | x => false) = some a) :=
  ⟨⟨{ tblUp (plT .active) tbl0 with dips := [(0, ⟨[⟨0, 5, 0, 3, zeros 16, 0, false, none⟩], []⟩)] }, 0, 5, 3, ctxT (plT .active) 5, 0, ⟨[⟨0, 5, 0, 3, zeros 16, 0, true, none⟩], []⟩,
    ⟨0, 5, 0, 3, zeros 16, 0, true, none⟩, ctx5 rfl, by decide +kernel⟩,
   ⟨tblUp (plT .active) { tbl0 with pause := some 1 }, 0, 5, ctxT (plT .active) 5, 1, ctx5 rfl, by decide +kernel⟩,
   ⟨up, by decide +kernel⟩,
   ⟨{ up with rul := { up.rul with surveyTicks := 64 } }, by decide +kernel⟩,
   ⟨tblUp (plT .active) { tbl0 with migrations := [⟨0, 0, [], false⟩] }, 0, 5, 0, ctxT (plT .active) 5, ⟨0, 0, [], false⟩, (hbmDva 0, 2 * 2 ^ 53 + 192), ctx5 rfl,
    by decide +kernel⟩,
   ⟨{ tblAct tbl0 (.tableSwap 0 5 6 1) with rul := { up.rul with tick := 1 } }, 0, 5, ⟨.tableSwap 0 5 6 1, true, false⟩, by decide +kernel⟩⟩

/-- What meets the hypotheses of the clauses of StatisticsCommands. -/
theorem wit_StatisticsCommands :
    (∃ (s : State) (r : Req) (slot : Byte) (ref : BitVec 16) (copy : Byte) (first : BitVec 16) (n : BitVec 16) (p : Plan) (cols : Nat) (k : Nat), heard s r
     0x0405 16 = true ∧ slot.toNat < 64 ∧ copy.toNat ≤ 1 ∧ n.toNat ≤ 55 ∧ statRef s slot.toNat ref.toNat = some (p, cols) ∧ first.toNat + n.toNat ≤ cols ∧
     k = (statActive s p ref.toNat + copy.toNat) % 2) ∧
    (∃ (s : State) (r : Req) (slot : Byte) (ref : BitVec 16) (action : Byte) (first : BitVec 16) (columns : List Bytes) (p : Plan) (cols : Nat), heardP s r
     1028 (16 + 64 * columns.length) = true ∧ slot.toNat < 64 ∧ (action = 1 ∨ action = 2) ∧ columns.length ≤ 55 ∧ statRef s (slot.toNat) ref.toNat = some
     (p, cols) ∧ first.toNat + columns.length ≤ cols ∧ statAuto s p ref.toNat = false) ∧
    (∃ (s : State) (r : Req) (slot : Byte) (ref : BitVec 16) (action : Byte) (first : BitVec 16) (columns : List Bytes) (p : Plan) (cols : Nat), heardP s r
     1028 (16 + 64 * columns.length) = true ∧ slot.toNat < 64 ∧ (action = 1 ∨ action = 2) ∧ columns.length ≤ 55 ∧ statRef s (slot.toNat) ref.toNat = some
     (p, cols) ∧ first.toNat + columns.length ≤ cols ∧ statAuto s p ref.toNat = true) ∧
    (∃ (s : State) (r : Req) (slot : Byte) (ref : BitVec 16) (first : BitVec 16) (n : BitVec 16) (copy : Byte), slot.toNat < 64 ∧ n.toNat ≤ 55 ∧ (∀ (p :
     Plan) (cols : Nat), statRef s (slot.toNat) ref.toNat = some (p, cols) → cols < first.toNat + n.toNat) ∧ copy.toNat ≤ 1 ∧ heard s r 1029 16 = true) ∧
    (∃ (s : State) (r : Req) (slot : Byte) (ref : BitVec 16) (first : BitVec 16) (n : BitVec 16) (action : Byte) (columns : List Bytes), slot.toNat < 64 ∧
     n.toNat ≤ 55 ∧ (∀ (p : Plan) (cols : Nat), statRef s (slot.toNat) ref.toNat = some (p, cols) → cols < first.toNat + n.toNat) ∧ (action = 1 ∨ action =
     2) ∧ columns.length = n.toNat ∧ heardP s r 1028 (16 + 64 * columns.length) = true) ∧
    (∃ (s : State) (slot : BitVec 6) (ref : BitVec 16) (p : Plan), plan? s slot.toNat = some p ∧ (∃ e, e ∈ (statObj s slot.toNat ref.toNat).flips ∧ e.fst <
     nowTick s)) ∧
    (∃ (s : State) (slot : BitVec 6) (ref : BitVec 16), (∀ (e : Nat × Option (Nat × List Bytes)), e ∈ (statObj s slot.toNat ref.toNat).flips → nowTick s ≤
     e.fst)) ∧
    (∃ (s : State) (slot : BitVec 6) (p : Plan), plan? s slot.toNat = some p ∧ (∀ (ref : Nat), ref ∈ statRefs p → planEpoch s slot.toNat p ≤ (statObj s
     slot.toNat ref).boundary)) :=
  ⟨⟨statUp .active 1, (rq 16), 0, 8, 1, 0, 2, plT .active, 2, 1, by decide +kernel⟩,
   ⟨statUp .active 0, rq 80, 0, 8, 2, 1, [[]], plT .active, 2, by decide +kernel⟩,
   ⟨statUp .active 1, rq 144, 0, 8, 1, 0, [[], []], plT .active, 2, by decide +kernel⟩,
   ⟨up, rq 16, 0, 8, 0, 1, 1, by decide, by decide, fun p c h => by simp [statRef, plan?, look, up, State.reset] at h, by decide, by decide +kernel⟩,
   ⟨up, rq 80, 0, 8, 0, 1, 1, [[]], by decide, by decide, fun p c h => by simp [statRef, plan?, look, up, State.reset] at h, by decide, by decide, by decide +kernel⟩,
   ⟨{ statUp .active 0 with stats := [((0, 8), { partials := [], cores := [], published := none, flips := [(0, none)] })], rul := { up.rul with tick := 1 } }, 0, 8, plT .active,
    by decide +kernel, (0, none), by decide +kernel⟩,
   ⟨statUp .active 0, 0, 8, by decide +kernel⟩,
   ⟨statUp .active 0, 0, plT .active, by decide +kernel⟩⟩

/-- What meets the hypotheses of the clauses of StatisticsCommands. -/
theorem wit_StatisticsCommands_2 :
    (∃ (s : State) (slot : BitVec 6) (ref : BitVec 16) (p : Plan) (e : Nat) (es : List Nat), plan? s slot.toNat = some p ∧ List.map (fun x => x.epoch)
     (statObj s slot.toNat ref.toNat).partials = e :: es ∧ (∀ (k : Nat), k ∈ statsCores p → ∃ f, f ∈ statRefs p ∧ ∃ x, look k (statObj s slot.toNat
     f).cores = some x ∧ List.foldl min e es < x)) ∧
    (∃ (s : State) (slot : BitVec 6) (ref : BitVec 16) (p : Plan) (e : Nat) (es : List Nat) (k : Nat), plan? s slot.toNat = some p ∧ List.map (fun x =>
     x.epoch) (statObj s slot.toNat ref.toNat).partials = e :: es ∧ k ∈ statsCores p ∧ (∀ (f : Nat), f ∈ statRefs p → ∀ (x : Nat), look k (statObj s
     slot.toNat f).cores = some x → x ≤ List.foldl min e es)) ∧
    (∃ (s : State) (slot : BitVec 6) (p : Plan), plan? s slot.toNat = some p ∧ epochStart s slot.toNat p = none) ∧
    (∃ (s : State) (slot : BitVec 6) (p : Plan) (ref : Nat) (e : Nat) (c : Nat), plan? s slot.toNat = some p ∧ statRefs p = [ref] ∧ epochStart s slot.toNat
     p = some (e, c) ∧ (statObj s slot.toNat ref).boundary < e ∧ ((statObj s slot.toNat ref).published = none ∨ statAuto s p ref = false ∨ c < (statObj s
     slot.toNat ref).publishedAt)) ∧
    (∃ (s : State) (slot : BitVec 6) (p : Plan) (ref : Nat) (x : Nat × Nat) (e : Nat) (c : Nat), plan? s slot.toNat = some p ∧ statRefs p = [ref] ∧
     epochStart s slot.toNat p = some (e, c) ∧ (statObj s slot.toNat ref).boundary < e ∧ (statObj s slot.toNat ref).published = some x ∧ statAuto s p ref =
     true ∧ (statObj s slot.toNat ref).publishedAt ≤ c) :=
  ⟨⟨statUp .active 0, 0, 8, plT .active, 5, [], by and_intros <;> first | rfl | decide +kernel | (intro; rfl) | (intros; contradiction) | (intros; simp_all)⟩,
   ⟨{ statUp .active 0 with plans := [(0, plS)] }, 0, 8, plS, 5, [], 0, by and_intros <;> first | rfl | decide +kernel | (intro; rfl) | (intros; contradiction) | (intros; simp_all)⟩,
   ⟨epUp 1 { partials := [], cores := [], published := none, boundary := 0 }, 0, plEp, by and_intros <;> first | rfl | decide +kernel | (intro; rfl) | (intros; contradiction) | (intros; simp_all)⟩,
   ⟨{ epUp 1 { partials := [], cores := [], published := none, boundary := 0 } with batches := [((0, 0), ⟨2, 0, [], [], [], [(1, 7, 7)]⟩)] }, 0, plEp, 8, 1, 7, by decide +kernel⟩,
   ⟨{ epUp 1 { partials := [], cores := [], published := some (1, 0) } with batches := [((0, 0), ⟨2, 0, [], [], [], [(1, 7, 7)]⟩)] }, 0, plEp, 8, (1, 0), 1, 7, by decide +kernel⟩⟩

/-- What meets the hypotheses of the clauses of DisciplineIsChecked. -/
theorem wit_DisciplineIsChecked :
    (∃ (s : State) (r : Req) (cfg : BitVec 64), 
     heardP s r 0x0502 8 = true ∧ 19000 ≤ fld 26 0 cfg.toNat ∧ fld 26 0 cfg.toNat ≤ 95000000 ∧ fld 62 57 cfg.toNat = 0 ∧
     bitAt cfg.toNat 63 = true ∧
     ((fld 26 0 cfg.toNat % 19 ≠ 0 ∨ 1000000000 % (fld 26 0 cfg.toNat * 10 / 19) ≠ 0 ∨ fld 26 0 cfg.toNat * 10 / 19 ≤ fld 56 27 cfg.toNat ∨ disciplined s = false ∧ ∃ e ∈ s.plans, e.2.state ≠ .loaded))) ∧
    (∃ (s : State) (r : Req) (cfg : BitVec 64), 
     heardP s r 0x0502 8 = true ∧ 19000 ≤ fld 26 0 cfg.toNat ∧ fld 26 0 cfg.toNat ≤ 95000000 ∧ fld 62 57 cfg.toNat = 0 ∧
     bitAt cfg.toNat 63 = true ∧ fld 26 0 cfg.toNat % 19 = 0 ∧ 1000000000 % (fld 26 0 cfg.toNat * 10 / 19) = 0 ∧
     fld 56 27 cfg.toNat < fld 26 0 cfg.toNat * 10 / 19 ∧ ((disciplined s = true ∨ ∀ e ∈ s.plans, e.2.state = .loaded)) ∧
     fld 26 0 cfg.toNat = askedPeriod s) :=
  ⟨⟨up, (rq 8), (BitVec.ofNat 64 (19001 + 0 * 2 ^ 27 + 1 * 2 ^ 63)), by decide +kernel⟩,
   ⟨up, (rq 8), (BitVec.ofNat 64 (475000 + 0 * 2 ^ 27 + 1 * 2 ^ 63)), by decide +kernel⟩⟩

/-- What meets the hypotheses of the clauses of RulingEvents. -/
theorem wit_RulingEvents :
    (∃ (s : State) (r : Req) (cfg : BitVec 64), heardP s r 0x0502 8 = true ∧ 19000 ≤ fld 26 0 cfg.toNat ∧ fld 26 0 cfg.toNat ≤ 95000000 ∧ fld 62 57
     cfg.toNat = 0 ∧ bitAt cfg.toNat 63 = false ∧ 19 * fld 56 27 cfg.toNat < 10 * fld 26 0 cfg.toNat ∧ fld 26 0 cfg.toNat ≠ askedPeriod s ∧ ruledBound s =
     false) ∧
    (∃ (s : State) (r : Req) (cfg : BitVec 64), heardP s r 0x0502 8 = true ∧ 19000 ≤ fld 26 0 cfg.toNat ∧ fld 26 0 cfg.toNat ≤ 95000000 ∧ fld 62 57
     cfg.toNat = 0 ∧ bitAt cfg.toNat 63 = false ∧ 19 * fld 56 27 cfg.toNat < 10 * fld 26 0 cfg.toNat ∧ fld 26 0 cfg.toNat ≠ askedPeriod s ∧ ruledBound s =
     true ∧ fitCheck s [] [fld 26 0 cfg.toNat] = none) ∧
    (∃ (s : State) (r : Req) (v : BitVec 32), heard s r 0x0503 8 = true ∧ fld 2 0 v.toNat = 0 ∧ fld 15 9 v.toNat = 0) ∧
    (∃ (s : State) (a : Pending) (p : Nat), admitted s (fun a => actionClass a == 6) = some a ∧ a.act = .periodChange p) ∧
    (∃ (s : State), s.clk.guard = false) ∧
    (∃ (s : State), disciplined s = true ∧ lockOf s = 1 ∧ 16 ≤ s.rul.aligned) ∧
    (∃ (s : State), ((disciplined s = false ∨ lockOf s ≠ 1 ∨ s.rul.aligned < 16))) ∧
    (∃ (s : State), disciplined s = true ∧ ((lockOf s = 1 ∨ lockOf s = 2))) :=
  ⟨⟨up, (rq 8), (BitVec.ofNat 64 (19000 + 9999 * 2 ^ 27 + 0 * 2 ^ 63)), by decide +kernel⟩,
   ⟨{ up with rul := { up.rul with status := 8 } }, (rq 8), (BitVec.ofNat 64 (95000000 + 0 * 2 ^ 27 + 0 * 2 ^ 63)), by decide +kernel⟩,
   ⟨up, (rq 8), 0x1f8#32, by decide +kernel⟩,
   ⟨withAct (pl0 .active) (.periodChange 19000), ⟨.periodChange 19000, true, false⟩, 19000, by decide +kernel⟩,
   ⟨up, by decide +kernel⟩,
   ⟨dis, by decide +kernel⟩,
   ⟨up, by decide +kernel⟩,
   ⟨dis, by decide +kernel⟩⟩

/-- What meets the hypotheses of the clauses of RulingEvents. -/
theorem wit_RulingEvents_2 :
    (∃ (unit : BitVec 16), unitOk unit = true) ∧
    (∃ (s : State), s.rul.stepPend = true ∧ s.rul.stepDue = true) ∧
    (∃ (s : State), (s.rul.stepPend = false ∨ s.rul.stepDue = false)) ∧
    (∃ (unit : BitVec 16), unitOk unit = false) :=
  ⟨⟨0, by decide +kernel⟩,
   ⟨{ up with rul := { up.rul with stepPend := true, stepDue := true } }, by decide +kernel⟩,
   ⟨up, .inl (by decide +kernel)⟩,
   ⟨0xffff#16, by decide +kernel⟩⟩

/-- What meets the hypotheses of the clauses of TickEdgeAndGuardBand. -/
theorem wit_TickEdgeAndGuardBand :
    (∃ (s : State), s.clk.guard = false) ∧
    (∃ (s : State), s.clk.guard = true) :=
  ⟨⟨up, by decide +kernel⟩,
   ⟨withAct (pl0 .loaded) (.activation 0), by decide +kernel⟩⟩

/-- What meets the hypotheses of the clauses of TaskCommands. -/
theorem wit_TaskCommands :
    (∃ (s : State) (r : Req) (slot : Byte) (level : Byte) (ligs : List (BitVec 32)) (p : Plan), heard s r 0x0504 (alignUp (8 + 4 * ligs.length) 8) = true ∧
     slot.toNat < 64 ∧ level.toNat ≤ 7 ∧ ligs.length ≤ 880 ∧ plan? s slot.toNat = some p ∧ p.state = .active ∧ p.resetting = false ∧ ((∀ l ∈ ligs, ∃ x,
     ligOf p l.toNat = some x ∧ x.ruled = false)) ∧ ((∀ k, k < 48 → marginUsed (cluster s k) + entriesFor (ligs.filterMap fun l => ligTask s slot.toNat
     l.toNat (some (if level = 0 then p.image.marginLevel else level.toNat))) k ≤ 3584))) ∧
    (∃ (s : State) (r : Req) (slot : Byte) (level : Byte) (ligs : List (BitVec 32)), heard s r 0x0504 (alignUp (8 + 4 * ligs.length) 8) = true ∧ slot.toNat
     < 64 ∧ level.toNat ≤ 7 ∧ ligs.length ≤ 880 ∧ ((∀ p, plan? s slot.toNat = some p → p.state ≠ .active ∨ p.resetting = true))) ∧
    (∃ (s : State) (r : Req) (slot : Byte) (level : Byte) (ligs : List (BitVec 32)) (p : Plan) (l : BitVec 32) (x : Ligature), heard s r 0x0504 (alignUp (8
     + 4 * ligs.length) 8) = true ∧ slot.toNat < 64 ∧ level.toNat ≤ 7 ∧ ligs.length ≤ 880 ∧ plan? s slot.toNat = some p ∧ p.state = .active ∧ p.resetting =
     false ∧ (∀ l ∈ ligs, (ligOf p l.toNat).isSome = true) ∧ l ∈ ligs ∧ ligOf p l.toNat = some x ∧ x.ruled = true) ∧
    (∃ (s : State) (r : Req) (task : BitVec 32) (k : Nat) (t : Task), heard s r 0x0505 8 = true ∧ findWaiting s task.toNat = some (k, t)) ∧
    (∃ (s : State) (r : Req) (task : BitVec 32) (w : Waiter) (t : Task), heard s r 0x0505 8 = true ∧ findWaiting s task.toNat = none ∧ findCellWait s
     task.toNat = some (w, t)) ∧
    (∃ (s : State) (r : Req) (task : BitVec 32) (k : Nat) (x : Running), heard s r 0x0505 8 = true ∧ findWaiting s task.toNat = none ∧ findCellWait s
     task.toNat = none ∧ findRunning s task.toNat = some (k, x) ∧ x.task.ruled = true) ∧
    (∃ (s : State) (r : Req) (task : BitVec 32) (k : Nat) (x : Running), heard s r 0x0505 8 = true ∧ findWaiting s task.toNat = none ∧ findCellWait s
     task.toNat = none ∧ findRunning s task.toNat = some (k, x) ∧ x.task.ruled = false) ∧
    (∃ (s : State) (r : Req) (task : BitVec 32), heard s r 0x0505 8 = true ∧ findWaiting s task.toNat = none ∧ findCellWait s task.toNat = none ∧
     findRunning s task.toNat = none) :=
  ⟨⟨withPlan (plL false st0), (rq (16)), 0, 7, [0], plL false st0, by
    refine ⟨by decide +kernel, by decide, by decide, by decide, by decide +kernel, by decide, by decide, ?_, by decide +kernel⟩
    intro l h
    cases List.mem_singleton.1 h
    exact ⟨_, rfl, rfl⟩⟩,
   ⟨up, (rq (8)), 0, 7, [], by decide +kernel, by decide, by decide, by decide, fun p h => by simp [plan?, look, up, State.reset] at h⟩,
   ⟨withPlan (plL true st0), (rq (16)), 0, 7, [0], plL true st0, 0, { ligS [st0] with ruled := true }, by decide +kernel,
    by decide +kernel, by decide +kernel, by decide +kernel, by decide +kernel, by decide +kernel, by decide +kernel,
    all_of (by decide +kernel), by decide +kernel, by decide +kernel, by decide +kernel⟩,
   ⟨clUp (plL false st0) { Cluster.reset with ready := [tsk false] }, (rq 8), 0, 0, tsk false, by decide +kernel⟩,
   ⟨{ up with regHeld := [(9, ⟨5, 1, 0, .task (tsk false)⟩)] }, (rq 8), 0, ⟨5, 1, 0, .task (tsk false)⟩, tsk false, by decide +kernel⟩,
   ⟨clUp (plL true st0) { Cluster.reset with running := [{ task := tsk true, engines := 1, started := 0, late := false }] }, (rq 8), 0, 0, { task := tsk true, engines := 1, started := 0, late := false },
    by decide +kernel⟩,
   ⟨clUp (plL false st0) { Cluster.reset with running := [{ task := tsk false, engines := 1, started := 0, late := false }] }, (rq 8), 0, 0, { task := tsk false, engines := 1, started := 0, late := false },
    by decide +kernel⟩,
   ⟨up, (rq 8), 0, by decide +kernel⟩⟩

/-- What meets the hypotheses of the clauses of TaskCommands. -/
theorem wit_TaskCommands_2 :
    ∃ (s : State) (t : Task) (p : Plan) (l : Ligature) (st : Stage) (x : Stream), plan? s t.slot = some p ∧ ligOf p t.lig = some l ∧ st ∈ l.stages ∧
     st.engine = 6 ∧ stream? s (t.slot, st.param) = some x ∧ x.ruled = false ∧ (x.state = StrState.running ∨ x.state = StrState.halted) :=
  ⟨{ withPlan (plL false ⟨6, 0, 0, 0, 0, 0, 0, 0, 0, 8⟩) with streams := [((0, 0), rd0)] }, tsk false, plL false ⟨6, 0, 0, 0, 0, 0, 0, 0, 0, 8⟩, ligS [⟨6, 0, 0, 0, 0, 0, 0, 0, 0, 8⟩], ⟨6, 0, 0, 0, 0, 0, 0, 0, 0, 8⟩, rd0, by decide +kernel⟩

/-- What meets the hypotheses of the clauses of Scheduling. -/
theorem wit_Scheduling :
    (∃ (s : State) (k : BitVec 6) (core : BitVec 3), k.toNat < 48 ∧ (cluster s k.toNat).off = false ∧ (∀ t ∈ (cluster s k.toNat).ready, eligible s (cluster
     s k.toNat) (k.toNat * 8 + core.toNat) t = false)) ∧
    (∃ (s : State) (k : BitVec 6) (h : Held), marginUsed (cluster s k.toNat) < 3584 ∧ h ∈ (cluster s k.toNat).held ∧ (∀ g ∈ (cluster s k.toNat).held,
     g.task.core / 8 = k.toNat)) ∧
    (∃ (s : State) (task : BitVec 32) (t : Task), (ruledOpen s).find? (fun t => t.id == task.toNat) = some t ∧ t.overrun = false) ∧
    (∃ (s : State) (slot : BitVec 6) (cert : BitVec 16) (p : Plan) (c : Cert) (t : Machine.Task) (l : Ligature), plan? s slot.toNat = some p ∧
     p.image.certs[cert.toNat]? = some c ∧ p.state ≠ PlanState.loaded ∧ c.kind = 1 ∧ p.retireBands = 0 ∧ ruledTask s slot.toNat c = some t ∧ ligOf p
     c.index = some l ∧ l.ruled = true ∧ taskWait s t = none ∧ holders (advanceTo t.release s) t.core (ligUnits l) = [] ∧ ruledUsed (cluster s (t.core /
     8)) < 512 ∧ (cluster s (t.core / 8)).releaseWait = []) ∧
    (∃ (s : State) (slot : BitVec 6) (cert : BitVec 16) (p : Plan) (c : Cert) (t : Machine.Task) (l : Ligature), plan? s slot.toNat = some p ∧
     p.image.certs[cert.toNat]? = some c ∧ p.state ≠ PlanState.loaded ∧ c.kind = 1 ∧ p.retireBands = 0 ∧ ruledTask s slot.toNat c = some t ∧ ligOf p
     c.index = some l ∧ l.ruled = true ∧ taskWait s t = none ∧ holders (advanceTo t.release s) t.core (ligUnits l) = [] ∧ (512 ≤ ruledUsed (cluster s
     (t.core / 8)) ∨ (cluster s (t.core / 8)).releaseWait ≠ [])) ∧
    (∃ (s : State) (slot : BitVec 6) (cert : BitVec 16), (∀ (p : Plan) (c : Cert), plan? s slot.toNat = some p → p.image.certs[cert.toNat]? = some c →
     p.state = PlanState.loaded ∨ c.kind = 3 ∨ c.kind ≠ 2 ∧ p.retireBands ≠ 0)) ∧
    (∃ (s : State) (k : BitVec 6) (core : BitVec 3), k.toNat < 48 ∧ (cluster s k.toNat).off = false ∧ (∃ t, t ∈ (cluster s k.toNat).ready ∧ eligible s
     (cluster s k.toNat) (k.toNat * 8 + core.toNat) t = true) ∧ (∀ (t : Machine.Task), t ∈ (cluster s k.toNat).ready → eligible s (cluster s k.toNat)
     (k.toNat * 8 + core.toNat) t = true → s.clk.cycle < t.ready)) ∧
    (∃ (s : State) (k : BitVec 6), (3584 ≤ marginUsed (cluster s k.toNat) ∨ (cluster s k.toNat).held = [])) :=
  ⟨⟨up, 47, 0, by decide +kernel⟩,
   ⟨clUp (plL false st0) { Cluster.reset with held := [⟨0, tsk false⟩] }, 0, ⟨0, tsk false⟩, by decide +kernel⟩,
   ⟨clUp (plL true st0) { Cluster.reset with ready := [tsk true] }, 0, tsk true, by decide +kernel⟩,
   ⟨withPlan (plL true st0), 0, 0, plL true st0, ⟨0, 1000, 500, 500, 0, 0, 0, 1, 1⟩, { tsk true with level := 0 }, { ligS [st0] with ruled := true }, by decide +kernel⟩,
   ⟨{ withPlan (plL true st0) with sched := [(0, { Cluster.reset with releaseWait := [{ tsk true with id := 1 }] })] }, 0, 0, plL true st0,
    ⟨0, 1000, 500, 500, 0, 0, 0, 1, 1⟩, { tsk true with level := 0 }, { ligS [st0] with ruled := true }, by decide +kernel⟩,
   ⟨up, 0, 0, fun p c h => by simp [plan?, look, up, State.reset] at h⟩,
   ⟨clUp (plL false st0) { Cluster.reset with ready := [{ tsk false with ready := 9 }] }, 0, 0, by decide +kernel, by decide +kernel, by decide +kernel, all_of (by decide +kernel)⟩,
   ⟨up, 0, .inr (by decide +kernel)⟩⟩

/-- What meets the hypotheses of the clauses of Scheduling. -/
theorem wit_Scheduling_2 :
    (∃ (s : State) (task : BitVec 32) (k : Nat) (g : Running) (p : Plan) (l : Ligature), findRunning s task.toNat = some (k, g) ∧ g.task.core / 8 = k ∧
     plan? s g.task.slot = some p ∧ ligOf p g.task.lig = some l ∧ ligatureDone s l g = true) ∧
    (∃ (s : State) (task : BitVec 32) (k : Nat) (g : Running) (p : Plan) (l : Ligature), findRunning s task.toNat = some (k, g) ∧ g.task.core / 8 = k ∧
     plan? s g.task.slot = some p ∧ ligOf p g.task.lig = some l ∧ ligatureDone s l g = false) ∧
    (∃ (s : State) (task : BitVec 32), findRunning s task.toNat = none) ∧
    (∃ (s : State) (task : BitVec 32) (t : Machine.Task), List.find? (fun t => t.id == task.toNat) (ruledOpen s) = some t ∧ t.overrun = true) ∧
    (∃ (s : State) (k : BitVec 6) (core : BitVec 3) (t : Machine.Task), k.toNat < 48 ∧ (cluster s k.toNat).off = false ∧ (cluster s k.toNat).releaseWait =
     [] ∧ t ∈ (cluster s k.toNat).ready ∧ eligible s (cluster s k.toNat) (k.toNat * 8 + core.toNat) t = true ∧ t.ready ≤ s.clk.cycle ∧ (cluster s
     k.toNat).nextGrant ≤ s.clk.cycle) ∧
    (∃ (s : State) (task : BitVec 32) (unit : BitVec 16) (x : SharedRun), List.find? (fun t => t.id == task.toNat) (ruledOpen s) = none ∧ lateStream s unit
     task.toNat = none ∧ lateShared s unit task.toNat = some x) ∧
    (∃ (s : State) (task : BitVec 32) (unit : BitVec 16), List.find? (fun t => t.id == task.toNat) (ruledOpen s) = none ∧ lateStream s unit task.toNat =
     none ∧ lateShared s unit task.toNat = none) ∧
    (∃ (s : State) (task : BitVec 32) (unit : BitVec 16) (k : Nat × Nat) (x : Stream) (due : Nat), List.find? (fun t => t.id == task.toNat) (ruledOpen s) =
     none ∧ lateStream s unit task.toNat = some (k, x, due)) :=
  ⟨⟨{ clUp (plL false st0) { Cluster.reset with running := [run0] } with nibs := [(0, [{ grpC 1 [] with next := 1 }])] }, 0, 0, run0, plL false st0, ligS [st0],
    by decide +kernel⟩,
   ⟨clUp (plL false st0) { Cluster.reset with running := [run0] }, 0, 0, run0, plL false st0, ligS [st0], by decide +kernel⟩,
   ⟨up, 0, by decide +kernel⟩,
   ⟨clUp (plL true st0) { Cluster.reset with ready := [{ tsk true with overrun := true }] }, 0, { tsk true with overrun := true }, by decide +kernel⟩,
   ⟨clUp (plL false st0) { Cluster.reset with ready := [tsk false] }, 0, 0, tsk false, by decide +kernel⟩,
   ⟨{ up with rul := { up.rul with shared := [shr0] } }, 0, 0, shr0, by decide +kernel⟩,
   ⟨up, 0, 0, by decide +kernel⟩,
   ⟨{ withPlan plV2 with streams := [((0, 0), strL)] }, BitVec.ofNat 32 (sharedId 0 0), 0, (0, 0), strL, 500, by rfl, by rw [shared_nat]; simp only [lateStream]; simp [withPlan, plV2, strL, rd0, str0, plan?, look]; decide +kernel⟩⟩

/-- What meets the hypotheses of the clauses of TraceCommands. -/
theorem wit_TraceCommands :
    (∃ (s : State) (r : Req) (die : Byte) (cl : Byte) (mode : Byte) (bytes : BitVec 32) (k : Nat) (b : Scribe), heard s r 1286 8 = true ∧ die.toNat ≤ 3 ∧
     cl.toNat ≤ 11 ∧ mode.toNat ≤ 1 ∧ k = die.toNat * 12 + cl.toNat ∧ (cluster s k).off = false ∧ bytes.toNat ∈ [65536, 131072, 262144, 524288, 1048576,
     2097152, 4194304] ∧ ↑bytes.toNat ≤ storeLeft s (heldBounds s 255) k + ↑(cluster s k).scribe.bytes ∧ b =
     { (cluster s k).scribe with bytes := bytes.toNat, stop := mode.toNat == 1 }) ∧
    (∃ (s : State) (r : Req) (die : Byte) (cl : Byte) (mode : Byte) (bytes : BitVec 32) (k : Nat) (b : Scribe), heard s r 1286 8 = true ∧ die.toNat ≤ 3 ∧
     cl.toNat ≤ 11 ∧ mode.toNat ≤ 1 ∧ k = die.toNat * 12 + cl.toNat ∧ (cluster s k).off = false ∧ bytes.toNat ∈ [65536, 131072, 262144, 524288, 1048576,
     2097152, 4194304] ∧ ↑bytes.toNat ≤ storeLeft s (heldBounds s 255) k + ↑(cluster s k).scribe.bytes ∧ b =
     { (cluster s k).scribe with bytes := bytes.toNat, stop := mode.toNat == 1 } ∧ b.unwritten = 0) ∧
    (∃ (s : State) (r : Req) (die : Byte) (cl : Byte) (mode : Byte) (rearm : Byte) (bytes : BitVec 32) (k : Nat) (left : Int), heard s r 1286 8 = true ∧
     die.toNat ≤ 3 ∧ cl.toNat ≤ 11 ∧ mode.toNat ≤ 1 ∧ rearm.toNat ≤ 1 ∧ k = die.toNat * 12 + cl.toNat ∧ (cluster s k).off = false ∧ bytes.toNat ∈ [65536,
     131072, 262144, 524288, 1048576, 2097152, 4194304] ∧ left = storeLeft s (heldBounds s 255) k + ↑(cluster s k).scribe.bytes ∧ left < ↑bytes.toNat) ∧
    (∃ (s : State) (r : Req) (die : Byte) (cl : Byte) (k : Nat) (b : Scribe) (now : List (BitVec 256)), heard s r 1287 8 = true ∧ die.toNat ≤ 3 ∧ cl.toNat
     ≤ 11 ∧ k = die.toNat * 12 + cl.toNat ∧ (cluster s k).off = false ∧ b = (cluster s k).scribe ∧ now = List.filter (fun x => decide (x.toNat % 2 ^ 64 ≤
     s.clk.cycle - s.clk.scrBase)) b.recs.reverse) ∧
    (∃ (s : State) (r : Req) (die : Byte) (cl : Byte) (mode : Byte) (bytes : BitVec 32) (k : Nat) (b : Scribe), heard s r 1286 8 = true ∧ die.toNat ≤ 3 ∧
     cl.toNat ≤ 11 ∧ mode.toNat ≤ 1 ∧ k = die.toNat * 12 + cl.toNat ∧ (cluster s k).off = false ∧ bytes.toNat ∈ [65536, 131072, 262144, 524288, 1048576,
     2097152, 4194304] ∧ ↑bytes.toNat ≤ storeLeft s (heldBounds s 255) k + ↑(cluster s k).scribe.bytes ∧ b =
     { (cluster s k).scribe with bytes := bytes.toNat, stop := mode.toNat == 1 } ∧ b.unwritten ≠ 0) ∧
    (∃ (k : Nat) (j : Nat), j ≠ k) :=
  ⟨⟨up, (rq 8), 3, 11, 1, 4194304, 47, _, by and_intros <;> first | rfl | decide +kernel | (intro; rfl) | (intros; contradiction) | (intros; simp_all)⟩,
   ⟨up, (rq 8), 3, 11, 1, 4194304, 47, _, by and_intros <;> first | rfl | decide +kernel | (intro; rfl) | (intros; contradiction) | (intros; simp_all)⟩,
   ⟨withPlan { plT .active with bound := [⟨2, 0, 0, 0, 47, 0, 67108864⟩] }, (rq 8), 3, 11, 0, 0, 4194304, 47, _, by and_intros <;> first | rfl | decide +kernel | (intro; rfl) | (intros; contradiction) | (intros; simp_all)⟩,
   ⟨up, (rq 8), 3, 11, 47, _, _, by and_intros <;> first | rfl | decide +kernel | (intro; rfl) | (intros; contradiction) | (intros; simp_all)⟩,
   ⟨{ up with sched := [(47, { Cluster.reset with scribe := { Cluster.reset.scribe with unwritten := 3 } })] }, (rq 8), 3, 11, 1, 4194304, 47, { Cluster.reset.scribe with unwritten := 3, bytes := 4194304, stop := true }, by decide +kernel⟩,
   ⟨0, 1, by decide⟩⟩

/-- What meets the hypotheses of the clauses of UnitAndWaitCommands. -/
theorem wit_UnitAndWaitCommands :
    (∃ (s : State) (r : Req) (us : List (BitVec 16)), heardP s r 0x0704 (alignUp (8 + 2 * us.length) 8) = true ∧ us.length ≤ 64 ∧ ((∀ u ∈ us, unitOk u =
     true ∧ deviceLevel u = false ∧ (uidCluster u < 12 && (cluster s (uidClusterIndex u)).off) = false)) ∧ ((∀ e ∈ s.plans, ∀ p, plan? s e.1 = some p →
     removedIds s us p = [])) ∧ fitCheck { s with excluded := s.excluded ++ us } [] (checkPeriods s) = none) ∧
    (∃ (s : State) (r : Req) (us : List (BitVec 16)), heard s r 0x0705 (alignUp (8 + 2 * us.length) 8) = true ∧ us.length ≤ 64 ∧ ((∀ u ∈ us, unitOk u =
     true ∧ deviceLevel u = false ∧ (uidCluster u < 12 && (cluster s (uidClusterIndex u)).off) = false))) ∧
    (∃ (s : State) (r : Req) (unit : BitVec 16) (object : Byte) (num : BitVec 16) (p : Parked), object.toNat ≤ 1 ∧ ((object = 0 → num.toNat < 16384)) ∧
     unitOk unit = true ∧ (uidCluster unit < 12 && (cluster s (uidClusterIndex unit)).off) = false ∧ s.parked.find? (fun p => p.waiter.unit == unit &&
     p.queue == (object.toNat == 1) && p.num == num.toNat) = some p ∧ heard s r 0x0706 8 = true ∧ p.queue = true) ∧
    (∃ (s : State) (r : Req) (unit : BitVec 16) (object : Byte) (num : BitVec 16) (p : Parked), object.toNat ≤ 1 ∧ ((object = 0 → num.toNat < 16384)) ∧
     unitOk unit = true ∧ (uidCluster unit < 12 && (cluster s (uidClusterIndex unit)).off) = false ∧ s.parked.find? (fun p => p.waiter.unit == unit &&
     p.queue == (object.toNat == 1) && p.num == num.toNat) = some p ∧ heard s r 0x0706 8 = true ∧ p.queue = false) ∧
    (∃ (s : State) (r : Req) (unit : BitVec 16) (object : Byte) (num : BitVec 16) (p : Parked) (t : Task), object.toNat ≤ 1 ∧ ((object = 0 → num.toNat <
     16384)) ∧ unitOk unit = true ∧ (uidCluster unit < 12 && (cluster s (uidClusterIndex unit)).off) = false ∧ s.parked.find? (fun p => p.waiter.unit ==
     unit && p.queue == (object.toNat == 1) && p.num == num.toNat) = some p ∧ heard s r 0x0707 8 = true ∧ p.waiter.what = .task t) ∧
    (∃ (s : State) (r : Req) (unit : BitVec 16) (object : Byte) (num : BitVec 16) (p : Parked) (slot : Nat) (i : Nat), object.toNat ≤ 1 ∧ ((object = 0 →
     num.toNat < 16384)) ∧ unitOk unit = true ∧ (uidCluster unit < 12 && (cluster s (uidClusterIndex unit)).off) = false ∧ s.parked.find? (fun p =>
     p.waiter.unit == unit && p.queue == (object.toNat == 1) && p.num == num.toNat) = some p ∧ heard s r 0x0707 8 = true ∧ p.waiter.what = .stream slot i) ∧
    (∃ (s : State) (r : Req) (unit : BitVec 16) (object : Byte) (num : BitVec 16), object.toNat ≤ 1 ∧ ((object = 0 → num.toNat < 16384)) ∧ unitOk unit =
     true ∧ (uidCluster unit < 12 && (cluster s (uidClusterIndex unit)).off) = false ∧ s.parked.find? (fun p => p.waiter.unit == unit && p.queue ==
     (object.toNat == 1) && p.num == num.toNat) = none ∧ heard s r 0x0706 8 = true) ∧
    (∃ (s : State) (r : Req) (unit : BitVec 16) (object : Byte) (num : BitVec 16), object.toNat ≤ 1 ∧ ((object = 0 → num.toNat < 16384)) ∧ unitOk unit =
     true ∧ (uidCluster unit < 12 && (cluster s (uidClusterIndex unit)).off) = false ∧ s.parked.find? (fun p => p.waiter.unit == unit && p.queue ==
     (object.toNat == 1) && p.num == num.toNat) = none ∧ heard s r 0x0707 8 = true) :=
  ⟨⟨up, (rq (8)), [], by decide +kernel, by decide +kernel, all_of (by decide +kernel), by simp [up, State.reset], by decide +kernel⟩,
   ⟨up, (rq (16)), [0], by decide +kernel, by decide +kernel, all_of (by decide +kernel)⟩,
   ⟨{ up with parked := [⟨⟨0, 1, 0, .unit⟩, true, 5⟩] }, (rq 8), 0, 1, 5, ⟨⟨0, 1, 0, .unit⟩, true, 5⟩, by decide +kernel⟩,
   ⟨{ up with parked := [⟨⟨0, 1, 0, .unit⟩, false, 5⟩] }, (rq 8), 0, 0, 5, ⟨⟨0, 1, 0, .unit⟩, false, 5⟩, by decide +kernel⟩,
   ⟨{ up with parked := [⟨⟨0, 1, 0, .task (tsk true)⟩, false, 5⟩] }, (rq 8), 0, 0, 5, ⟨⟨0, 1, 0, .task (tsk true)⟩, false, 5⟩,
    tsk true, by decide +kernel⟩,
   ⟨{ up with parked := [⟨⟨0, 1, 0, .stream 0 0⟩, true, 5⟩] }, (rq 8), 0, 1, 5, ⟨⟨0, 1, 0, .stream 0 0⟩, true, 5⟩, 0, 0,
    by decide +kernel⟩,
   ⟨up, (rq 8), 0, 1, 0xffff#16, by decide +kernel⟩,
   ⟨up, (rq 8), 0, 1, 0xffff#16, by decide +kernel⟩⟩

/-- What meets the hypotheses of the clauses of UnitAndWaitCommands. -/
theorem wit_UnitAndWaitCommands_2 :
    (∃ (s : State) (unit : BitVec 16) (us : List (BitVec 16)), s.clk.cycle = s.clk.edge ∧ s.rul.stepDue = false ∧ us ∈ s.exclusions ∧ unit ∈ us ∧ ¬unit ∈
     s.excluded ∧ (∀ (e : Nat × Plan), e ∈ s.plans → ∀ (b : Bound), b ∈ e.snd.bound → onUnit s [unit] b = false)) ∧
    (∃ (s : State) (unit : BitVec 16), (s.clk.cycle ≠ s.clk.edge ∨ s.rul.stepDue = true ∨ (∀ (us : List (BitVec 16)), us ∈ s.exclusions → ¬unit ∈ us) ∨
     unit ∈ s.excluded ∨ ∃ e, e ∈ s.plans ∧ ∃ b, b ∈ e.snd.bound ∧ onUnit s [unit] b = true)) :=
  ⟨⟨{ up with exclusions := [[0]] }, 0, [0], by decide +kernel⟩,
   ⟨up, 0, by decide +kernel⟩⟩

/-- What meets the hypotheses of the clauses of KeySlotCommands. -/
theorem wit_KeySlotCommands :
    (∃ (s : State) (r : Req) (nonce : Bytes), heard s r 0x0601 32 = true ∧ s.sec.latched = false ∧ nonce.length = 32) ∧
    (∃ (s : State) (r : Req), heard s r 0x0601 32 = true ∧ s.sec.latched = true) ∧
    (∃ (s : State) (r : Req) (slot : BitVec 16) (kind : Byte) (peer : BitVec 16) (material : Bytes), 
     heardP s r 0x0603 (if kind.toNat = 0 then 2040 else 40) = true ∧ kind.toNat ≤ 1 ∧ peer.toNat ≤ 1023 ∧ 1 ≤ slot.toNat ∧
     slot.toNat ≤ 4095 ∧ keySlot s slot.toNat = none ∧ openOf s slot.toNat = none ∧
     ((kind = 0 → peer.toNat ≠ s.deviceNumber.toNat ∧ Config.keysWellFormed (material.take 32) (slice material 32 1952) = true))) ∧
    (∃ (s : State) (r : Req) (slot : BitVec 16) (kind : Byte) (peer : BitVec 16), 
     heardP s r 0x0603 (if kind.toNat = 0 then 2040 else 40) = true ∧ kind.toNat ≤ 1 ∧ peer.toNat ≤ 1023 ∧
     ((slot = 0 ∨ 4095 < slot.toNat ∨ (keySlot s slot.toNat).isSome = true ∨ (openOf s slot.toNat).isSome = true))) ∧
    (∃ (s : State) (r : Req), heardP s r 0x0605 1248 = true ∧ keySlot s 0 = none) ∧
    (∃ (s : State) (slot : BitVec 16) (o : OpenSlot), openOf s slot.toNat = some o) ∧
    (∃ (s : State) (k : KeySlot) (n : Keys × Bytes × Nat), keySlot s 0 = some k ∧ k.next = some n) ∧
    (∃ (s : State), (keySlot s 0).bind (·.next) = none) :=
  ⟨⟨up, (rq 32), zeros 32, by decide +kernel⟩,
   ⟨{ up with sec := { up.sec with latched := true } }, (rq 32), by decide +kernel⟩,
   ⟨up, (rq (40)), 4095, 1, 1023, [], by decide +kernel, by decide, by decide, by decide, by decide, by decide +kernel,
    by decide +kernel, by decide⟩,
   ⟨net, (rq (40)), 1, 1, 0, by decide +kernel⟩,
   ⟨up, (rq 1248), by decide +kernel⟩,
   ⟨{ up with sec := { up.sec with opens := [⟨1, false, 3, [], [], true, 0, 0, 1⟩] } }, 1, ⟨1, false, 3, [], [], true, 0, 0, 1⟩,
    by decide +kernel⟩,
   ⟨{ up with sec := { up.sec with slots := [{ slotK 0 with next := some (keys0, [], 0) }] } },
    { slotK 0 with next := some (keys0, [], 0) }, (keys0, [], 0), by decide +kernel⟩,
   ⟨up, by decide +kernel⟩⟩

/-- What meets the hypotheses of the clause of KeySlotCommands on a slot whose open starts a HELLO, where the open functions answer so. -/
theorem wit_KeySlotCommands_given_3 (h : Config.keysWellFormed ((zeros 2032).take 32) (slice (zeros 2032) 32 1952) = true) :
    ∃ (s : State) (r : Req) (slot : BitVec 16) (peer : BitVec 16) (material : Bytes), heardP s r 0x0603 2040 = true ∧ peer.toNat ≤ 1023 ∧
      1 ≤ slot.toNat ∧ slot.toNat ≤ 4095 ∧ keySlot s slot.toNat = none ∧ openOf s slot.toNat = none ∧ s.deviceNumber.toNat < peer.toNat ∧
      Config.keysWellFormed (material.take 32) (slice material 32 1952) = true ∧ s.sec.trngOk = true ∧ s.sec.handshakes.length < 64 :=
  ⟨up, rq 2040, 4095, 1023, zeros 2032, by decide +kernel, by decide, by decide, by decide, by decide +kernel, by decide +kernel, by decide,
   h, by decide, by decide⟩

/-- What meets the hypotheses of a clause of KeySlotCommands, where the open functions answer so. -/
theorem wit_KeySlotCommands_given_4
    (h1 : Config.mlkemCheck (slice (zeros 1248) 64 1184) = true) (h2 : ∀ priv, fit 32 (Config.x25519 priv (slice (zeros 1248) 32 32)) ≠ zeros 32) :
    ∃ (s : State) (r : Req) (material : Bytes) (k : KeySlot), 
    heardP s r 0x0605 1248 = true ∧ keySlot s 0 = some k ∧ k.next = none ∧ s.sec.trngOk = true ∧
    Config.mlkemCheck (slice material 64 1184) = true ∧ (∀ priv, fit 32 (Config.x25519 priv (slice material 32 32)) ≠ zeros 32) :=
  ⟨net, (rq 1248), zeros 1248, slotK 0, by decide +kernel, by decide +kernel, by decide, by decide, h1, h2⟩

/-- What meets the hypotheses of the clauses of KeySlotsAndSessionEnd. -/
theorem wit_KeySlotsAndSessionEnd :
    (∃ (s : State) (r : Req) (slot : BitVec 16), heard s r 0x0604 8 = true ∧ ((slot = 0 ∨ 4095 < slot.toNat))) ∧
    (∃ (s : State) (r : Req) (slot : BitVec 16) (k : KeySlot), 
     heard s r 0x0604 8 = true ∧ 1 ≤ slot.toNat ∧ slot.toNat ≤ 4095 ∧ openOf s slot.toNat = none ∧ keySlot s slot.toNat = some k) ∧
    (∃ (s : State) (r : Req) (slot : BitVec 16) (o : OpenSlot), 
     heard s r 0x0604 8 = true ∧ 1 ≤ slot.toNat ∧ slot.toNat ≤ 4095 ∧ openOf s slot.toNat = some o) ∧
    (∃ (s : State) (p : KitPacket) (kind : Nat), 
     portCarries s p.port.toNat = true ∧ p.header.kind.toNat = kind ∧ kitFormOk p kind = true ∧ p.header.dstDev = s.deviceNumber ∧
     p.header.extDst = false ∧ keySlot s p.header.keyId.toNat = none) ∧
    (∃ (s : State) (f : OutFrame) (h : KitHeader) (pl : Bytes), 
     f.body = .kit h pl ∧ h.keyId ≠ 0xffff#16 ∧ keySlot s h.keyId.toNat = none) ∧
    (∃ (s : State) (r : Req), heard s r 0x0606 0 = true) ∧
    (∃ (s : State) (r : Req) (token : Bytes), heard s r 0x0607 3440 = true ∧ tokenOk s token = false) ∧
    (∃ (s : State), s.sec.trngOk = false) :=
  ⟨⟨up, (rq 8), 4096, by decide +kernel⟩,
   ⟨net, (rq 8), 1, slotK 1, by decide +kernel⟩,
   ⟨{ up with sec := { up.sec with opens := [⟨1, false, 3, [], [], true, 0, 0, 1⟩] } }, (rq 8), 1,
    ⟨1, false, 3, [], [], true, 0, 0, 1⟩, by decide +kernel⟩,
   ⟨net, pkt (hdr 1 4095 3 0) [1, 2, 3], 1, by decide +kernel⟩,
   ⟨up, ⟨.margin, 0, ⟨0, zeros 16, 0⟩, .kit (hdr 1 4095 3 0) []⟩, hdr 1 4095 3 0, [], by decide +kernel⟩,
   ⟨net, (rq 0), by decide +kernel⟩,
   ⟨up, (rq 3440), [], by decide +kernel⟩,
   ⟨{ up with sec := { up.sec with trngOk := false } }, by decide +kernel⟩⟩

/-- What meets the hypotheses of the clauses of KeySlotsAndSessionEnd. -/
theorem wit_KeySlotsAndSessionEnd_2 :
    ∃ (s : State), s.sec.trngOk = true :=
  ⟨up, by decide +kernel⟩

/-- What meets the hypotheses of a clause of KeySlotsAndSessionEnd, where the open functions answer so. -/
theorem wit_KeySlotsAndSessionEnd_given_6
    (h1 : Config.ed25519Verify (Config.debugKeys 0).1 (tok0.take 64) (slice tok0 64 64) = true) (h2 : Config.mldsaVerify (Config.debugKeys 0).2 (ascii "KF384-debug") (tok0.take 64) (slice tok0 128 3309) = true) :
    ∃ (s : State) (r : Req) (token : Bytes), heard s r 0x0607 3440 = true ∧ tokenOk s token = true :=
  ⟨up, (rq 3440), tok0, by decide +kernel, by
    unfold tokenOk
    simp only [show byteAt tok0 5 = 0 by decide +kernel]
    rw [h1, h2]; decide +kernel⟩

/-- What meets the hypotheses of the clauses of HandshakeAnswers. -/
theorem wit_HandshakeAnswers :
    (∃ (s : State) (u : State) (p : KitPacket) (f : HsFragment), 
     receiveHs p 1 s = (some f, u) ∧ ((∀ t, (port u p.port.toNat).idAt = some t → t + 1900000 ≤ u.clk.cycle))) ∧
    (∃ (s : State) (u : State) (p : KitPacket) (f : HsFragment) (t : Nat), 
     receiveHs p 1 s = (some f, u) ∧ (port u p.port.toNat).idAt = some t ∧ u.clk.cycle < t + 1900000) ∧
    (∃ (s : State) (u : State) (v : State) (p : KitPacket) (f : HsFragment) (b : Bytes) (h : Handshake), 
     receiveHs p 3 s = (some f, u) ∧ reassemble f u = (some b, v) ∧
     v.sec.handshakes.find? (fun h => h.id == f.id && !h.initiator) = some h) ∧
    (∃ (s : State) (u : State) (v : State) (p : KitPacket) (f : HsFragment) (b : Bytes) (reason : Nat), 
     receiveHs p 3 s = (some f, u) ∧ reassemble f u = (some b, v) ∧
     v.sec.handshakes.find? (fun h => h.id == f.id && !h.initiator) = none ∧ helloRefused v p f b = some reason) ∧
    (∃ (s : State) (u : State) (v : State) (p : KitPacket) (f : HsFragment) (b : Bytes) (h : Handshake), 
     receiveHs p 5 s = (some f, u) ∧ reassemble f u = (some b, v) ∧
     v.sec.handshakes.find? (fun h => h.id == f.id && !h.initiator) = some h ∧ b.length = (if h.client then 48 else 3597) ∧
     b.take 48 = finishMac h b ∧ ((h.client = false → ∃ o, openOf v h.slot = some o ∧ reportOk o (b.drop 48) h.thr = true))) ∧
    (∃ (s : State) (u : State) (v : State) (p : KitPacket) (f : HsFragment) (b : Bytes) (h : Handshake), 
     receiveHs p 5 s = (some f, u) ∧ reassemble f u = (some b, v) ∧
     v.sec.handshakes.find? (fun h => h.id == f.id && !h.initiator) = some h ∧ b.length = (if h.client then 48 else 3597) ∧
     b.take 48 ≠ finishMac h b) :=
  ⟨⟨net, net, hsP 1 1 0 (0) 0 ([]), hsF 1 1 0 (0) 0 ([]), recvHs (by decide +kernel),
    fun t h => by rw [show (port _ _).idAt = none by decide +kernel] at h; cases h⟩,
   ⟨{ net with ports := [(0, { portOn with idAt := some 0 })] }, { net with ports := [(0, { portOn with idAt := some 0 })] },
    hsP 1 1 0 (0) 0 ([]), hsF 1 1 0 (0) 0 ([]), 0, recvHs (by decide +kernel), by decide +kernel, by decide +kernel⟩,
   ⟨hsUp [hs0 false 0] [] [], hsUp [hs0 false 0] [] [], hsNext (hsF 3 1 0 (0) 1 ([])) (hsUp [hs0 false 0] [] []),
    hsP 3 1 0 (0) 1 ([]), hsF 3 1 0 (0) 1 ([]), [], hs0 false 0, recvHs (by decide +kernel), reas (by decide +kernel),
    by decide +kernel⟩,
   ⟨hsUp [] [] [], hsUp [] [] [], hsNext (hsF 3 1 0 (0) 1 ([])) (hsUp [] [] []), hsP 3 1 0 (0) 1 ([]), hsF 3 1 0 (0) 1 ([]), [], 4,
    recvHs (by decide +kernel), reas (by decide +kernel), by decide +kernel, by decide +kernel⟩,
   ⟨hsUp [hs0 false 1] [] [], hsUp [hs0 false 1] [] [],
    hsNext (hsF 5 1 0 ((finishMac (hs0 false 1) (zeros 48)).length) 1 (finishMac (hs0 false 1) (zeros 48))) (hsUp [hs0 false 1] [] []),
    hsP 5 1 0 ((finishMac (hs0 false 1) (zeros 48)).length) 1 (finishMac (hs0 false 1) (zeros 48)),
    hsF 5 1 0 ((finishMac (hs0 false 1) (zeros 48)).length) 1 (finishMac (hs0 false 1) (zeros 48)),
    finishMac (hs0 false 1) (zeros 48), hs0 false 1, recvHs (by decide +kernel), reas (by decide +kernel), by decide +kernel,
    by decide +kernel, by decide +kernel, fun h => by cases h⟩,
   ⟨hsUp [hs0 false 1] [] [], hsUp [hs0 false 1] [] [],
    hsNext (hsF 5 1 0 ((zeros 48).length) 1 (zeros 48)) (hsUp [hs0 false 1] [] []), hsP 5 1 0 ((zeros 48).length) 1 (zeros 48),
    hsF 5 1 0 ((zeros 48).length) 1 (zeros 48), zeros 48, hs0 false 1, recvHs (by decide +kernel), reas (by decide +kernel),
    by decide +kernel, by decide +kernel, by decide +kernel⟩⟩

/-- What meets the hypotheses of a clause of HandshakeAnswers, where the open functions answer so. -/
theorem wit_HandshakeAnswers_given_4
    (h1 : Config.mlkemCheck (slice (le 2 1 ++ le 2 0 ++ [1] ++ zeros 1283) 104 1184) = true) (h2 : ∀ priv, fit 32 (Config.x25519 priv (slice (le 2 1 ++ le 2 0 ++ [1] ++ zeros 1283) 72 32)) ≠ zeros 32) :
    ∃ (s : State) (u : State) (v : State) (p : KitPacket) (f : HsFragment) (b : Bytes), 
    receiveHs p 3 s = (some f, u) ∧ reassemble f u = (some b, v) ∧
    v.sec.handshakes.find? (fun h => h.id == f.id && !h.initiator) = none ∧ helloRefused v p f b = none ∧
    helloBusy v p (helloSlot b) = false ∧ Config.mlkemCheck (slice b 104 1184) = true ∧
    (∀ priv, fit 32 (Config.x25519 priv (slice b 72 32)) ≠ zeros 32) :=
  ⟨hsUp [] [] [], hsUp [] [] [],
   hsNext (hsF 3 1 0 ((le 2 1 ++ le 2 0 ++ [1] ++ zeros 1283).length) 0 (le 2 1 ++ le 2 0 ++ [1] ++ zeros 1283)) (hsUp [] [] []),
   hsP 3 1 0 ((le 2 1 ++ le 2 0 ++ [1] ++ zeros 1283).length) 0 (le 2 1 ++ le 2 0 ++ [1] ++ zeros 1283),
   hsF 3 1 0 ((le 2 1 ++ le 2 0 ++ [1] ++ zeros 1283).length) 0 (le 2 1 ++ le 2 0 ++ [1] ++ zeros 1283),
   (le 2 1 ++ le 2 0 ++ [1] ++ zeros 1283), recvHs (by decide +kernel), reas (by decide +kernel), by decide +kernel,
   by decide +kernel, by decide +kernel, h1, h2⟩

/-- What meets the hypotheses of the clauses of HandshakeInitiator. -/
theorem wit_HandshakeInitiator :
    (∃ (s : State) (u : State) (v : State) (p : KitPacket) (f : HsFragment) (b : Bytes) (h : Handshake), 
     receiveHs p 6 s = (some f, u) ∧ reassemble f u = (some b, v) ∧
     v.sec.handshakes.find? (fun h => h.id == f.id && h.initiator && h.state == 1) = some h ∧ b = confirmMac h h.finish) ∧
    (∃ (s : State) (u : State) (v : State) (p : KitPacket) (f : HsFragment) (b : Bytes) (h : Handshake), 
     receiveHs p 6 s = (some f, u) ∧ reassemble f u = (some b, v) ∧
     v.sec.handshakes.find? (fun h => h.id == f.id && h.initiator && h.state == 1) = some h ∧ b ≠ confirmMac h h.finish) ∧
    (∃ (s : State) (u : State) (v : State) (p : KitPacket) (f : HsFragment) (b : Bytes) (h : Handshake), 
     receiveHs p 7 s = (some f, u) ∧ reassemble f u = (some b, v) ∧ v.sec.handshakes.find? (fun h => h.id == f.id) = some h) ∧
    (∃ (s : State) (id : BitVec 64) (type : Byte) (e : HsParts), 
     s.sec.parts.find? (fun x => x.id == id && x.type == type.toNat) = some e) ∧
    (∃ (s : State) (slot : BitVec 12) (h : Handshake), 
     s.sec.handshakes.find? (fun h => h.slot == slot.toNat && !h.initiator) = some h) ∧
    (∃ (s : State) (slot : BitVec 12) (h : Handshake), 
     s.sec.handshakes.find? (fun h => h.slot == slot.toNat && h.initiator) = some h ∧ h.state = 0) ∧
    (∃ (s : State) (slot : BitVec 12) (h : Handshake), 
     s.sec.handshakes.find? (fun h => h.slot == slot.toNat && h.initiator) = some h ∧ h.state ≠ 0) :=
  ⟨⟨hsUp [hs0 true 1] [] [], hsUp [hs0 true 1] [] [],
    hsNext (hsF 6 1 0 ((confirmMac (hs0 true 1) []).length) 1 (confirmMac (hs0 true 1) [])) (hsUp [hs0 true 1] [] []),
    hsP 6 1 0 ((confirmMac (hs0 true 1) []).length) 1 (confirmMac (hs0 true 1) []),
    hsF 6 1 0 ((confirmMac (hs0 true 1) []).length) 1 (confirmMac (hs0 true 1) []), confirmMac (hs0 true 1) [], hs0 true 1,
    recvHs (by decide +kernel), reas (by decide +kernel), by decide +kernel, by decide +kernel⟩,
   ⟨hsUp [hs0 true 1] [] [], hsUp [hs0 true 1] [] [], hsNext (hsF 6 1 0 ((zeros 48).length) 1 (zeros 48)) (hsUp [hs0 true 1] [] []),
    hsP 6 1 0 ((zeros 48).length) 1 (zeros 48), hsF 6 1 0 ((zeros 48).length) 1 (zeros 48), zeros 48, hs0 true 1,
    recvHs (by decide +kernel), reas (by decide +kernel), by decide +kernel, by decide +kernel⟩,
   ⟨hsUp [hs0 true 1] [] [], hsUp [hs0 true 1] [] [], hsNext (hsF 7 1 0 (0) 1 ([])) (hsUp [hs0 true 1] [] []), hsP 7 1 0 (0) 1 ([]),
    hsF 7 1 0 (0) 1 ([]), [], hs0 true 1, recvHs (by decide +kernel), reas (by decide +kernel), by decide +kernel⟩,
   ⟨hsUp [] [] [⟨9, 3, 2, 1500, 1, [], 0⟩], 9, 3, ⟨9, 3, 2, 1500, 1, [], 0⟩, by decide +kernel⟩,
   ⟨hsUp [hs0 false 1] [] [], 1, hs0 false 1, by decide +kernel⟩,
   ⟨hsUp [hs0 true 0] [] [], 1, hs0 true 0, by decide +kernel⟩,
   ⟨hsUp [hs0 true 1] [] [], 1, hs0 true 1, by decide +kernel⟩⟩

/-- What meets the hypotheses of a clause of HandshakeInitiator, where the open functions answer so. -/
theorem wit_HandshakeInitiator_given_0
    (h1 : repSigned) (h2 : fit 32 (Config.x25519 ((hs0 true 0).priv.take 32) (slice rep0 32 32)) ≠ zeros 32) :
    ∃ (s : State) (u : State) (v : State) (p : KitPacket) (f : HsFragment) (b : Bytes) (h : Handshake) (o : OpenSlot), 
    receiveHs p 4 s = (some f, u) ∧ reassemble f u = (some b, v) ∧
    v.sec.handshakes.find? (fun h => h.id == f.id && h.initiator && h.state == 0) = some h ∧ b.length = 4701 ∧
    openOf v h.slot = some o ∧ reportOk o (b.drop 1152) (thB h.hello b) = true ∧
    fit 32 (Config.x25519 (h.priv.take 32) (slice b 32 32)) ≠ zeros 32 :=
  ⟨hsUp [hs0 true 0] [open0] [parts0], hsUp [hs0 true 0] [open0] [parts0],
   hsNext (hsF 4 4 3 (4701) 1 (zeros 549)) (hsUp [hs0 true 0] [open0] [parts0]), hsP 4 4 3 (4701) 1 (zeros 549),
   hsF 4 4 3 (4701) 1 (zeros 549), rep0, hs0 true 0, open0, recvHs (by decide +kernel), reas rep_whole, by decide +kernel,
   by decide +kernel, by decide +kernel, rep_ok h1, h2⟩

/-- What meets the hypotheses of the clauses of PacketsTaken. -/
theorem wit_PacketsTaken :
    (∃ (s : State) (u : State) (p : KitPacket), receiveKit p 1 s = (none, u)) ∧
    (∃ (s : State) (u : State) (p : KitPacket), receiveKit p 2 s = (none, u)) ∧
    (∃ (s : State) (u : State) (p : KitPacket), receiveKit p 4 s = (none, u)) ∧
    (∃ (s : State) (u : State) (p : KitPacket) (bs : Bytes), receiveKit p 1 s = (some bs, u) ∧ u.rx.find? (rxIs p.header.srcDev.toNat p.header.extSrc
     p.header.endpoint.toNat) = none) ∧
    (∃ (s : State) (u : State) (p : KitPacket) (bs : Bytes), receiveKit p 2 s = (some bs, u) ∧ cellHeld u (fld 159 146 (leAt bs 0 32)) = false) ∧
    (∃ (s : State) (u : State) (p : KitPacket) (bs : Bytes), receiveKit p 2 s = (some bs, u) ∧ cellHeld u (fld 159 146 (leAt bs 0 32)) = true ∧ bitAt (leAt
     bs 0 32) 145 = false) ∧
    (∃ (s : State) (u : State) (p : KitPacket) (bs : Bytes), receiveKit p 2 s = (some bs, u) ∧ cellHeld u (fld 159 146 (leAt bs 0 32)) = true ∧ bitAt (leAt
     bs 0 32) 145 = true ∧ queueRoom u (controlIngress p.port.toNat) 64 = true) ∧
    (∃ (s : State) (u : State) (p : KitPacket) (bs : Bytes) (e : RxStream) (q : Nat) (x : Queue), receiveKit p 1 s = (some bs, u) ∧ List.find? (rxIs
     p.header.srcDev.toNat p.header.extSrc p.header.endpoint.toNat) u.rx = some e ∧ e.dest = RxDest.queue q ∧ p.header.pos = e.committed ∧ e.later = [] ∧
     e.parts = [] ∧ p.header.first = true ∧ p.header.last = true ∧ queue? u q = some x ∧ cellsFor (List.length bs) ≤ x.limit ∧ queueRoom (setRx e u) q
     (List.length bs) = true) :=
  ⟨⟨net, got 1 (pkt (hdr 1 4095 3 0) [1, 2, 3]) net, pkt (hdr 1 4095 3 0) [1, 2, 3], recv (by decide +kernel)⟩,
   ⟨net, got 2 (pkt (hdr 1 0 3 0) [1, 2, 3]) net, pkt (hdr 1 0 3 0) [1, 2, 3], recv (by decide +kernel)⟩,
   ⟨net, got 4 (pkt (hdr 4 4095 3 0) [1, 2, 3]) net, pkt (hdr 4 4095 3 0) [1, 2, 3], recv (by decide +kernel)⟩,
   ⟨net, seqAccept 0 1 (net), pkt (hdr 1 0 3 4) ([1, 2, 3]), [1, 2, 3], took 1 (slotK 0) (by decide) (by decide) (by decide +kernel),
    by decide +kernel⟩,
   ⟨net, seqAccept 0 1 (net), pkt (hdr 2 0 32 0) (le 32 (16383 * 2 ^ 146 + 0 * 2 ^ 145)), le 32 (16383 * 2 ^ 146 + 0 * 2 ^ 145),
    took 2 (slotK 0) (by decide) (by decide) (by decide +kernel), by decide +kernel⟩,
   ⟨{ net with cells := [(9, { SigCell.reset with session := true })] },
    seqAccept 0 1 ({ net with cells := [(9, { SigCell.reset with session := true })] }),
    pkt (hdr 2 0 32 0) (le 32 (9 * 2 ^ 146 + 0 * 2 ^ 145)), le 32 (9 * 2 ^ 146 + 0 * 2 ^ 145),
    took 2 (slotK 0) (by decide) (by decide) (by decide +kernel), by decide +kernel, by decide +kernel⟩,
   ⟨{ net with cells := [(9, { SigCell.reset with session := true })] },
    seqAccept 0 1 ({ net with cells := [(9, { SigCell.reset with session := true })] }),
    pkt (hdr 2 0 32 0) (le 32 (9 * 2 ^ 146 + 1 * 2 ^ 145)), le 32 (9 * 2 ^ 146 + 1 * 2 ^ 145),
    took 2 (slotK 0) (by decide) (by decide) (by decide +kernel), by decide +kernel, by decide +kernel, by decide +kernel⟩,
   ⟨{ net with rx := [⟨3, false, 4, .queue 40, 0, [], []⟩], queues := [(40, que [])] },
    seqAccept 0 1 ({ net with rx := [⟨3, false, 4, .queue 40, 0, [], []⟩], queues := [(40, que [])] }),
    pkt (hdr 1 0 3 4) ([1, 2, 3]), [1, 2, 3], ⟨3, false, 4, .queue 40, 0, [], []⟩, 40, que [],
    took 1 (slotK 0) (by decide) (by decide) (by decide +kernel), by and_intros <;> decide +kernel⟩⟩

/-- What meets the hypotheses of the clauses of PacketsTaken. -/
theorem wit_PacketsTaken_2 :
    (∃ (s : State) (u : State) (p : KitPacket) (bs : Bytes) (e : RxStream) (base : Nat) (size : Nat), receiveKit p 1 s = (some bs, u) ∧ List.find? (rxIs
     p.header.srcDev.toNat p.header.extSrc p.header.endpoint.toNat) u.rx = some e ∧ e.dest = RxDest.window base size ∧ p.header.pos = e.committed ∧ e.later
     = [] ∧ e.parts = [] ∧ bs ≠ [] ∧ e.committed.toNat % size + List.length bs ≤ size) ∧
    (∃ (s : State) (u : State) (v : State) (p : KitPacket) (bs : Bytes) (m : Nat), receiveKit p 4 s = (some bs, u) ∧ m = p.header.endpoint.toNat ∧ m ≤ 15 ∧
     p.header.first = true ∧ p.header.last = true ∧ v = setLink m { mailboxLink u m with parts := none } u ∧ cellsFor (List.length bs) ≤ 64 ∧ queueRoom v
     (requestQueue m) (List.length bs) = true ∧ p.header.doorbell = true) ∧
    (∃ (s : State) (u : State) (v : State) (p : KitPacket) (bs : Bytes) (m : Nat), receiveKit p 4 s = (some bs, u) ∧ m = p.header.endpoint.toNat ∧ m ≤ 15 ∧
     p.header.first = true ∧ p.header.last = true ∧ v = setLink m { mailboxLink u m with parts := none } u ∧ cellsFor (List.length bs) ≤ 64 ∧ queueRoom v
     (requestQueue m) (List.length bs) = false) ∧
    (∃ (s : State) (m : Nat) (x : Queue), goustUp s = true ∧ queue? s (requestQueue m) = some x ∧ x.pkts ≠ [] ∧ poolQuiet s (requestQueue m)) ∧
    (∃ (s : State) (m : Nat) (x : Queue) (j : Nat), goustUp s = true ∧ queue? s (requestQueue m) = some x ∧ x.pkts ≠ [] ∧ poolQuiet s (requestQueue m) ∧ j
     ≠ m) :=
  ⟨⟨rxW, seqAccept 0 1 rxW, pkt ({ hdr 1 0 3 4 with pos := 1 }) ([1, 2, 3]), [1, 2, 3], ⟨3, false, 4, .window 0 4, 1, [], []⟩, 0, 4, took 1 (slotK 0) (by decide) (by decide) (by decide +kernel), by decide +kernel, by decide +kernel, by decide +kernel, by decide +kernel, by decide +kernel, by decide +kernel, by decide +kernel⟩,
   ⟨net, seqAccept 0 1 net, _, pkt (hdr 4 0 3 15) ([1, 2, 3]), [1, 2, 3], _, took 4 (slotK 0) (by decide) (by decide) (by decide +kernel), rfl, by decide +kernel, by decide +kernel, by decide +kernel, rfl, by decide +kernel, by decide +kernel, by decide +kernel⟩,
   ⟨mbF, seqAccept 0 1 mbF, _, pkt (hdr 4 0 3 15) ([1, 2, 3]), [1, 2, 3], _, took 4 (slotK 0) (by decide) (by decide) (by decide +kernel), rfl, by decide +kernel, by decide +kernel, by decide +kernel, rfl, by decide +kernel, by decide +kernel⟩,
   ⟨mbP, 0, { que [pk1] with owner := .device }, by decide +kernel, by decide +kernel, by decide +kernel, fun e h => nomatch h⟩,
   ⟨mbP, 0, { que [pk1] with owner := .device }, 1, by decide +kernel, by decide +kernel, by decide +kernel, (fun e h => nomatch h), by decide⟩⟩

/-- What meets the hypotheses of the clauses of ExchangePackets. -/
theorem wit_ExchangePackets :
    (∃ (s : State) (u : State) (p : KitPacket) (bs : Bytes), tableById u (leAt bs 20 4) = none ∧ receiveKit p 6 s = (some bs, u)) ∧
    (∃ (s : State) (u : State) (p : KitPacket) (bs : Bytes), tableById u (leAt bs 20 4) = none ∧ receiveKit p 7 s = (some bs, u)) ∧
    (∃ (s : State) (u : State) (p : KitPacket) (bs : Bytes), tableById u (leAt bs 20 4) = none ∧ receiveKit p 8 s = (some bs, u)) ∧
    (∃ (s : State) (u : State) (p : KitPacket) (bs : Bytes), tableById u (leAt bs 20 4) = none ∧ receiveKit p 9 s = (some bs, u)) ∧
    (∃ (s : State) (u : State) (p : KitPacket) (bs : Bytes) (c : TableCtx) (h : ExHeader), receiveKit p 6 s = (some bs, u) ∧ h = exHeader bs ∧ tableById u
     h.table = some c ∧ h.part < h.parts ∧ (bs.drop 32).length = 16 * h.count ∧ ((∀ q ∈ (tableOf u c.slot c.ref).reqs, ¬ (q.received = true ∧ q.device =
     p.header.srcDev.toNat ∧ q.die = h.reqDie ∧ q.ownDie = h.ownDie ∧ q.tick = h.tick))) ∧ ((1 < h.parts ∨ ∀ i, i < h.count → ∃ d a, rowHome u c none (leAt
     bs (32 + 16 * i) 8) = .here d a ∧ serveReleased u c d h.tick = false))) ∧
    (∃ (s : State) (u : State) (p : KitPacket) (bs : Bytes) (c : TableCtx) (h : ExHeader), receiveKit p 9 s = (some bs, u) ∧ h = exHeader bs ∧ tableById u
     h.table = some c) ∧
    (∃ (s : State) (u : State) (p : KitPacket) (bs : Bytes) (c : TableCtx) (h : ExHeader), receiveKit p 8 s = (some bs, u) ∧ h = exHeader bs ∧ tableById u
     h.table = some c ∧ h.count = 1 ∧ (List.drop 32 bs).length = 8 + alignUp c.rowBytes 8 ∧ 8 + alignUp c.rowBytes 8 ≤ 1368 ∧ (nowTick u = h.tick ∨ nowTick
     u = h.tick + 1 ∧ u.clk.guard = false) ∧ leAt bs 32 4 < c.d.landRows) ∧
    (∃ (s : State) (u : State) (p : KitPacket) (bs : Bytes) (c : TableCtx) (h : ExHeader), receiveKit p 8 s = (some bs, u) ∧ h = exHeader bs ∧ tableById u
     h.table = some c ∧ h.count = 1 ∧ (List.drop 32 bs).length = 8 + alignUp c.rowBytes 8 ∧ 8 + alignUp c.rowBytes 8 ≤ 1368 ∧ (h.tick + 1 < nowTick u ∨
     nowTick u = h.tick + 1 ∧ u.clk.guard = true)) :=
  ⟨⟨net, seqAccept 1 1 net, pkt (hdr 6 1 32 0) (exB 0 0 0 0), exB 0 0 0 0, tableById_none rfl,
    took 6 (slotK 1) (by decide) (by decide) (by decide +kernel)⟩,
   ⟨net, seqAccept 1 1 net, pkt (hdr 7 1 32 0) (exB 0 0 0 0), exB 0 0 0 0, tableById_none rfl,
    took 7 (slotK 1) (by decide) (by decide) (by decide +kernel)⟩,
   ⟨net, seqAccept 1 1 net, pkt (hdr 8 1 32 0) (exB 0 0 0 0), exB 0 0 0 0, tableById_none rfl,
    took 8 (slotK 1) (by decide) (by decide) (by decide +kernel)⟩,
   ⟨net, seqAccept 1 1 net, pkt (hdr 9 1 32 0) (exB 0 0 0 0), exB 0 0 0 0, tableById_none rfl,
    took 9 (slotK 1) (by decide) (by decide) (by decide +kernel)⟩,
   ⟨exNet tbl0, seqAccept 1 1 (exNet tbl0), pkt (hdr 6 1 48 0) (exB 0 1 1 0 ++ zeros 16), exB 0 1 1 0 ++ zeros 16,
    ctxT (plT .active) 5, exHeader (exB 0 1 1 0 ++ zeros 16), took 6 (slotK 1) (by decide) (by decide) (by decide +kernel), rfl,
    exNet_table rfl, by decide +kernel, by decide +kernel, by decide +kernel,
    .inr (fun i h => by obtain rfl : i = 0 := (by revert h; simp [show (exHeader (exB 0 1 1 0 ++ zeros 16)).count = 1 by decide +kernel]); exact ⟨0, hbmDva 0, by decide +kernel, by decide +kernel⟩)⟩,
   ⟨exNet tbl0, seqAccept 1 1 (exNet tbl0), pkt (hdr 9 1 32 0) (exB 0 1 1 0), exB 0 1 1 0, ctxT (plT .active) 5,
    exHeader (exB 0 1 1 0), took 9 (slotK 1) (by decide) (by decide) (by decide +kernel), rfl, exNet_table rfl⟩,
   ⟨exNet { tbl0 with landing := [⟨0, 0, 0, 0, 3, 0, 0, false, false, []⟩] },
    seqAccept 1 1 (exNet { tbl0 with landing := [⟨0, 0, 0, 0, 3, 0, 0, false, false, []⟩] }),
    pkt (hdr 8 1 56 0) (exB 0 1 1 0 ++ zeros 24), exB 0 1 1 0 ++ zeros 24, ctxT (plT .active) 5, exHeader (exB 0 1 1 0 ++ zeros 24),
    took 8 (slotK 1) (by decide) (by decide) (by decide +kernel), rfl, exNet_table rfl, by decide +kernel, by decide +kernel,
    by decide +kernel, by decide +kernel, by decide +kernel⟩,
   ⟨{ exNet tbl0 with rul := { up.rul with tick := 2 } }, seqAccept 1 1 ({ exNet tbl0 with rul := { up.rul with tick := 2 } }),
    pkt (hdr 8 1 56 0) (exB 0 1 1 0 ++ zeros 24), exB 0 1 1 0 ++ zeros 24, ctxT (plT .active) 5, exHeader (exB 0 1 1 0 ++ zeros 24),
    took 8 (slotK 1) (by decide) (by decide) (by decide +kernel), rfl, exNet_table rfl, by decide +kernel, by decide +kernel,
    by decide +kernel⟩⟩

/-- What meets the hypotheses of the clauses of ExchangePackets. -/
theorem wit_ExchangePackets_2 :
    (∃ (s : State) (u : State) (p : KitPacket) (bs : Bytes) (c : TableCtx) (h : ExHeader), receiveKit p 7 s = (some bs, u) ∧ h = exHeader bs ∧ tableById u
     h.table = some c ∧ h.part < h.parts ∧ (List.drop 32 bs).length = (8 + 4 * c.d.dim) * h.count ∧ 8 + 4 * c.d.dim ≤ 1368 ∧ (∀ (q : UpdList), q ∈ (tableOf
     u c.slot c.ref).upds → ¬(q.received = true ∧ q.device = p.header.srcDev.toNat ∧ q.die = h.reqDie ∧ q.ownDie = h.ownDie ∧ q.tick = h.tick)) ∧ 1 ≤
     ((tableOf u c.slot c.ref).gen + 65536 - h.gen) % 65536 ∧ ((tableOf u c.slot c.ref).gen + 65536 - h.gen) % 65536 < 32768 ∧ h.parts = 1 ∧ 1 ≤ h.count) ∧
    (∃ (s : State) (u : State) (p : KitPacket) (bs : Bytes) (c : TableCtx) (h : ExHeader), receiveKit p 8 s = (some bs, u) ∧ h = exHeader bs ∧ tableById u
     h.table = some c ∧ h.count = 1 ∧ (List.drop 32 bs).length = 8 + alignUp c.rowBytes 8 ∧ 8 + alignUp c.rowBytes 8 ≤ 1368 ∧ (nowTick u < h.tick ∨
     (nowTick u = h.tick ∨ nowTick u = h.tick + 1 ∧ u.clk.guard = false) ∧ c.d.landRows ≤ leAt bs 32 4)) ∧
    (∃ (s : State) (u : State) (p : KitPacket) (bs : Bytes) (c : TableCtx) (h : ExHeader), receiveKit p 7 s = (some bs, u) ∧ h = exHeader bs ∧ tableById u
     h.table = some c ∧ h.part < h.parts ∧ (List.drop 32 bs).length = (8 + 4 * c.d.dim) * h.count ∧ 8 + 4 * c.d.dim ≤ 1368 ∧ (∀ (q : UpdList), q ∈ (tableOf
     u c.slot c.ref).upds → ¬(q.received = true ∧ q.device = p.header.srcDev.toNat ∧ q.die = h.reqDie ∧ q.ownDie = h.ownDie ∧ q.tick = h.tick)) ∧ 1 <
     h.parts) :=
  ⟨⟨exNet { tbl0 with gen := 1 }, seqAccept 1 1 (exNet { tbl0 with gen := 1 }), pkt (hdr 7 1 56 0) (exB 0 1 1 0 ++ zeros 24),
    exB 0 1 1 0 ++ zeros 24, ctxT (plT .active) 5, exHeader (exB 0 1 1 0 ++ zeros 24),
    took 7 (slotK 1) (by decide) (by decide) (by decide +kernel), rfl, exNet_table rfl, by decide +kernel, by decide +kernel,
    by decide +kernel, by decide +kernel⟩,
   ⟨exNet tbl0, seqAccept 1 1 (exNet tbl0), pkt (hdr 8 1 56 0) (exB 0 1 1 0 ++ le 4 99 ++ zeros 20), exB 0 1 1 0 ++ le 4 99 ++ zeros 20, ctxT (plT .active) 5, exHeader (exB 0 1 1 0 ++ le 4 99 ++ zeros 20), took 8 (slotK 1) (by decide) (by decide) (by decide +kernel), rfl, exNet_table rfl, by and_intros <;> decide +kernel⟩,
   ⟨exNet tbl0, seqAccept 1 1 (exNet tbl0), pkt (hdr 7 1 56 0) (exB 0 1 2 0 ++ zeros 24), exB 0 1 2 0 ++ zeros 24, ctxT (plT .active) 5, exHeader (exB 0 1 2 0 ++ zeros 24), took 7 (slotK 1) (by decide) (by decide) (by decide +kernel), rfl, exNet_table rfl, by and_intros <;> decide +kernel⟩⟩

/-- What meets the hypotheses of the clauses of DipService. -/
theorem wit_DipService :
    (∃ (s : State) (u : State) (p : KitPacket) (bs : Bytes), receiveKit p 10 s = (some bs, u)) ∧
    (∃ (u : State) (q : Bytes), dipTable u (leAt q 4 4) = none) ∧
    (∃ (u : State) (pt : Nat) (q : Bytes) (c : TableCtx) (row : Nat) (r : DipRow), dipTable u (leAt q 4 4) = some c ∧ dipRow c.d (leAt q 8 8) = .row row ∧
     dipPaused u (tableOf u c.slot c.ref) = false ∧ dipCopy u c (portDie pt / 2) row = some r ∧ r.bytes.length = c.rowBytes) ∧
    (∃ (u : State) (pt : Nat) (q : Bytes) (c : TableCtx) (row : Nat), dipTable u (leAt q 4 4) = some c ∧ dipRow c.d (leAt q 8 8) = .row row ∧ dipPaused u
     (tableOf u c.slot c.ref) = false ∧ dipCopy u c (portDie pt / 2) row = none) ∧
    (∃ (u : State) (q : Bytes) (c : TableCtx), dipTable u (leAt q 4 4) = some c ∧ dipPaused u (tableOf u c.slot c.ref) = true) ∧
    (∃ (u : State) (q : Bytes) (c : TableCtx), dipTable u (leAt q 4 4) = some c ∧ dipPaused u (tableOf u c.slot c.ref) = false ∧ (∀ (row : Nat), dipRow c.d
     (leAt q 8 8) ≠ Entry.row row)) :=
  ⟨⟨net, seqAccept 1 1 net, pkt (hdr 10 1 32 0) (zeros 32), zeros 32, took 10 (slotK 1) (by decide) (by decide) (by decide +kernel)⟩,
   ⟨up, zeros 32, by simp [dipTable, allTables, up, State.reset]⟩,
   ⟨dipUp (tbl0) ([row0]), 0, (zeros 4 ++ le 4 77 ++ le 8 3), ctxT plD 5, 3, row0,
    (by rw [show leAt _ 4 4 = 77 by decide +kernel]; exact dipUp_table rfl), by decide +kernel, by decide +kernel, by decide +kernel,
    by decide +kernel⟩,
   ⟨dipUp (tbl0) ([]), 2, (zeros 4 ++ le 4 77 ++ le 8 3), ctxT plD 5, 3,
    (by rw [show leAt _ 4 4 = 77 by decide +kernel]; exact dipUp_table rfl), by decide +kernel, by decide +kernel, by decide +kernel⟩,
   ⟨dipUp ({ tbl0 with pause := some 0 }) ([]), (zeros 4 ++ le 4 77 ++ le 8 3), ctxT plD 5, by and_intros <;> first | rfl | decide +kernel | (intro; rfl) | (intros; contradiction) | (intros; simp_all)⟩,
   ⟨dipUp tbl0 [], (zeros 4 ++ le 4 77 ++ le 8 1000), ctxT plD 5, (by rw [show leAt _ 4 4 = 77 by decide +kernel]; exact dipUp_table rfl), by decide +kernel, fun row h => by rw [show dipRow (ctxT plD 5).d (leAt (zeros 4 ++ le 4 77 ++ le 8 1000) 8 8) = .out by decide +kernel] at h; cases h⟩⟩

/-- What meets the hypotheses of the clauses of ExchangeTasks. -/
theorem wit_ExchangeTasks :
    (∃ (s : State) (die : BitVec 2) (slot : BitVec 6) (p : Plan), plan? s slot.toNat = some p ∧ p.state ≠ PlanState.loaded ∧ look slot.toNat (combiner s
     die.toNat).opened ≠ some (nowTick s)) ∧
    (∃ (s : State) (die : BitVec 2) (slot : BitVec 6), ((∀ (p : Plan), plan? s slot.toNat = some p → p.state = PlanState.loaded) ∨ look slot.toNat
     (combiner s die.toNat).opened = some (nowTick s))) ∧
    (∃ (s : State) (slot : BitVec 6) (stream : BitVec 16) (c : TableCtx), serveTable s slot.toNat stream.toNat = some c ∧ streamRelease s c.plan
     stream.toNat = none ∧ (∀ (q : ReqList), q ∈ (tableOf s c.slot c.ref).reqs → toServe none q = false) ∧ tablePeers s c = []) ∧
    (∃ (s : State) (slot : BitVec 6) (stream : BitVec 16) (c : TableCtx) (q : ReqList) (row : Nat) (ls : Nat) (a : Nat), serveTable s slot.toNat
     stream.toNat = some c ∧ streamRelease s c.plan stream.toNat = none ∧ (tableOf s c.slot c.ref).reqs = [q] ∧ toServe none q = true ∧ q.received = false
     ∧ q.rows = [(row, ls)] ∧ tablePeers s c = [] ∧ rowHome s c none row = Home.here (uidDie (streamUnit c.plan stream.toNat)) a ∧ rowPlace s c none row =
     Home.here (uidDie (streamUnit c.plan stream.toNat)) a ∧ Machine.reaches s (uidDie (streamUnit c.plan stream.toNat)) q.die = true) ∧
    (∃ (s : State) (die : BitVec 2), (combiner s die.toNat).window = none ∧ (∀ (e : CombEntry), e ∈ (combiner s die.toNat).entries → ∀ (c : TableCtx),
     tableCtx s e.slot e.ref = some c → rowReach s c die.toNat e.row = true)) ∧
    (∃ (s : State) (die : BitVec 2) (slot : Nat) (n : Nat), (combiner s die.toNat).window = some (slot, n) ∧ (∀ (e : CombEntry), e ∈ (combiner s
     die.toNat).entries → ∀ (c : TableCtx), tableCtx s e.slot e.ref = some c → rowReach s c die.toNat e.row = true) ∧ (∀ (x : SharedRun), x ∈ s.rul.shared
     → x.unit = combinerUid die.toNat → x.slot = slot ∧ x.overrun = none ∧ s.rul.shared = [x])) ∧
    (∃ (s : State) (slot : BitVec 6) (stream : BitVec 16) (c : TableCtx), serveTable s slot.toNat stream.toNat = some c ∧ streamRelease s c.plan
     stream.toNat ≠ none ∧ (∀ (x : SharedRun), serveRun s slot.toNat stream.toNat = some x → serveFree s x = false)) ∧
    (∃ (s : State) (slot : BitVec 6) (stream : BitVec 16) (c : TableCtx) (x : SharedRun), serveTable s slot.toNat stream.toNat = some c ∧ streamRelease s
     c.plan stream.toNat ≠ none ∧ s.rul.shared = [x] ∧ serveRun s slot.toNat stream.toNat = some x ∧ serveFree s x = true ∧ x.overrun = none ∧ (∀ (q :
     ReqList), q ∈ (tableOf s c.slot c.ref).reqs → ∀ (n : Nat), toServe (some n) q = false)) :=
  ⟨⟨tblUp plV tbl0, 0, 0, plV, by decide +kernel⟩,
   ⟨up, 0, 0, .inl fun p h => by simp [plan?, look, up, State.reset] at h⟩,
   ⟨tblUp plV tbl0, 0, 0, ctxT plV 5, by and_intros <;> first | rfl | decide +kernel | (intro; rfl) | (intros; contradiction) | (intros; simp_all)⟩,
   ⟨tblUp plV { tbl0 with reqs := [req0] }, 0, 0, ctxT plV 5, req0, 3, 0, hbmDva 48, by and_intros <;> first | rfl | decide +kernel | (intro; rfl) | (intros; contradiction) | (intros; simp_all)⟩,
   ⟨up, 0, by decide +kernel⟩,
   ⟨{ up with combiners := [(0, ⟨[], some (0, 5), 0, []⟩)], rul := { up.rul with shared := [{ shr0 with unit := combinerUid 0 }] } }, 0, 0, 5, by and_intros <;> first | rfl | decide +kernel | (intro; rfl) | (intros; contradiction) | (intros; simp_all)⟩,
   ⟨tblUp plV3 tbl0, 0, 0, ctxT plV3 5, rfl, by decide +kernel, fun x h => by cases h⟩,
   ⟨{ tblUp plV3 tbl0 with rul := { up.rul with shared := [{ shr0 with kind := 7, stream := 0 }] } }, 0, 0, ctxT plV3 5, { shr0 with kind := 7, stream := 0 }, rfl, by decide +kernel, rfl, by decide +kernel, by decide +kernel, rfl, fun q h => by cases h⟩⟩

/-- What meets the hypotheses of the clauses of PortCommands. -/
theorem wit_PortCommands :
    (∃ (s : State) (r : Req) (p : Byte) (cfg : BitVec 64) (ip : Bytes), 
     heard s r 0x0901 32 = true ∧ p.toNat ≤ 3 ∧ fld 10 2 cfg.toNat = 0 ∧ fld 35 34 cfg.toNat = 0 ∧ fld 47 36 cfg.toNat ≠ 4095 ∧
     ((p.toNat % 2 = 1 → bitAt cfg.toNat 1 = false)) ∧ ip.length = 16 ∧ ((bitAt cfg.toNat 33 = true ∨ ∀ b ∈ ip.drop 4, b = 0)) ∧
     portExists s p.toNat = true ∧
     ((portHeld s p.toNat = false ∨ (bitAt cfg.toNat 0 = bitAt (port s p.toNat).live.toNat 0 ∧ bitAt cfg.toNat 1 = bitAt (port s p.toNat).live.toNat 1)))) ∧
    (∃ (s : State) (r : Req) (p : Byte) (cfg : BitVec 64) (ip : Bytes), 
     heard s r 0x0901 32 = true ∧ p.toNat ≤ 3 ∧ fld 10 2 cfg.toNat = 0 ∧ fld 35 34 cfg.toNat = 0 ∧ fld 47 36 cfg.toNat ≠ 4095 ∧
     ((p.toNat % 2 = 1 → bitAt cfg.toNat 1 = false)) ∧ ip.length = 16 ∧ ((bitAt cfg.toNat 33 = true ∨ ∀ b ∈ ip.drop 4, b = 0)) ∧
     ((portExists s p.toNat = false ∨ (portHeld s p.toNat = true ∧ (bitAt cfg.toNat 0 ≠ bitAt (port s p.toNat).live.toNat 0 ∨ bitAt cfg.toNat 1 ≠ bitAt (port s p.toNat).live.toNat 1))))) ∧
    (∃ (s : State) (r : Req) (p : Byte), heard s r 0x0902 8 = true ∧ p.toNat ≤ 3) ∧
    (∃ (s : State) (r : Req) (n : BitVec 16), heard s r 0x0903 8 = true ∧ n.toNat ≤ 1023 ∧ s.plans = []) ∧
    (∃ (s : State) (r : Req) (n : BitVec 16), heard s r 0x0903 8 = true ∧ n.toNat ≤ 1023 ∧ s.plans ≠ []) ∧
    (∃ (s : State) (r : Req) (first : BitVec 16) (es : List NeighbourEntry), 
     heard s r 0x0904 (8 + 32 * es.length) = true ∧ first.toNat + es.length ≤ 1025 ∧ es.length ≤ 110 ∧
     ((∀ e ∈ es, e.mac.toNat < 2 ^ 48 ∧ e.port.toNat ≤ 3))) :=
  ⟨⟨{ up with ports := [(2, { Port.reset with live := 2 })] }, (rq 32), 3, 0, zeros 16, by decide +kernel⟩,
   ⟨up, (rq 32), 1, 0, zeros 16, by decide +kernel⟩,
   ⟨up, (rq 8), 3, by decide +kernel⟩,
   ⟨up, (rq 8), 1023, by decide +kernel⟩,
   ⟨withPlan (pl0 .loaded), (rq 8), 0, by decide +kernel⟩,
   ⟨up, (rq (40)), 1024, [⟨0xffffffffffff#64, zeros 16, 3⟩], by decide +kernel⟩⟩

/-- What meets the hypotheses of the clauses of TransportStreams. -/
theorem wit_TransportStreams :
    (∃ (s : State) (r : Req) (src : BitVec 16) (ext : Byte) (stream : BitVec 16) (e : RxStream), heard s r 0x0907 8 = true ∧ src.toNat ≤ 1023 ∧ ext.toNat ≤
     1 ∧ s.rx.find? (rxIs src.toNat (ext.toNat == 1) stream.toNat) = some e) ∧
    (∃ (s : State) (r : Req) (src : BitVec 16) (ext : Byte) (stream : BitVec 16), heard s r 0x0907 8 = true ∧ src.toNat ≤ 1023 ∧ ext.toNat ≤ 1 ∧ s.rx.find?
     (rxIs src.toNat (ext.toNat == 1) stream.toNat) = none) ∧
    (∃ (s : State) (q : BitVec 16), ((s.tx.find? (fun t => t.queue == q.toNat) = none ∨ takePacket q.toNat s = none))) ∧
    (∃ (s : State) (u : State) (q : BitVec 16) (t : TxStream) (bs : Bytes), s.tx.find? (fun t => t.queue == q.toNat) = some t ∧ takePacket q.toNat s = some
     (bs, u)) ∧
    (∃ (s : State) (r : Req) (q : BitVec 16) (dest : BitVec 16) (p : Byte) (cls : Byte) (key : BitVec 16), heard s r 2309 16 = true ∧ planQueue? s q.toNat
     = true ∧ queueNumberOk q.toNat = true ∧ queueOn s q.toNat = true ∧ (dest.toNat ≤ 1023 ∨ dest = 65535#16) ∧ p.toNat ≤ 3 ∧ cls.toNat ≤ 1 ∧ key.toNat ≤
     4095 ∧ portExists s (p.toNat) = true ∧ (keySlot s key.toNat).isSome = true) ∧
    (∃ (s : State) (r : Req) (q : BitVec 16) (dest : BitVec 16) (p : Byte) (cls : Byte) (key : BitVec 16), heard s r 2309 16 = true ∧ planQueue? s q.toNat
     = true ∧ queueNumberOk q.toNat = true ∧ queueOn s q.toNat = true ∧ (dest.toNat ≤ 1023 ∨ dest = 65535#16) ∧ p.toNat ≤ 3 ∧ cls.toNat ≤ 1 ∧ key.toNat ≤
     4095 ∧ portExists s (p.toNat) = false) ∧
    (∃ (s : State) (r : Req) (q : BitVec 16) (dest : BitVec 16) (p : Byte) (cls : Byte) (key : BitVec 16), heard s r 2309 16 = true ∧ planQueue? s q.toNat
     = true ∧ queueNumberOk q.toNat = true ∧ queueOn s q.toNat = true ∧ (dest.toNat ≤ 1023 ∨ dest = 65535#16) ∧ p.toNat ≤ 3 ∧ cls.toNat ≤ 1 ∧ key.toNat ≤
     4095 ∧ portExists s (p.toNat) = true ∧ keySlot s key.toNat = none) ∧
    (∃ (s : State) (r : Req) (src : BitVec 16) (ext : Byte) (dest : Byte) (q : BitVec 16), heard s r 2310 24 = true ∧ src.toNat ≤ 1023 ∧ ext.toNat ≤ 1 ∧
     dest.toNat ≤ 2 ∧ (dest = 0 → planQueue? s q.toNat = true ∧ queueNumberOk q.toNat = true ∧ queueOn s q.toNat = true) ∧ dest = 2) :=
  ⟨⟨{ up with rx := [⟨3, false, 4, .queue 41, 0, [], []⟩] }, (rq 8), 3, 0, 4, ⟨3, false, 4, .queue 41, 0, [], []⟩,
    by decide +kernel⟩,
   ⟨up, (rq 8), 3, 1, 4, by decide +kernel⟩,
   ⟨up, 40, by decide +kernel⟩,
   ⟨txUp, ((takePacket 40 txUp).map (·.2)).getD txUp, 40, ⟨40, 3, 9, 0, false, 1, 0⟩, [1, 2, 3], by decide +kernel, by decide +kernel⟩,
   ⟨{ queUp (plT .active) (que []) with ports := net.ports, sec := net.sec }, (rq 16), 40, 0xffff#16, 0, 1, 1, by decide +kernel⟩,
   ⟨{ queUp (plT .active) (que []) with ports := net.ports, sec := net.sec }, (rq 16), 40, 0xffff#16, 3, 1, 1, by decide +kernel⟩,
   ⟨{ queUp (plT .active) (que []) with ports := net.ports, sec := net.sec }, (rq 16), 40, 0xffff#16, 0, 1, 4095, by decide +kernel⟩,
   ⟨up, (rq 24), 1023, 1, 2, 0, by decide +kernel⟩⟩

/-- What meets the hypotheses of the clauses of TransportStreams. -/
theorem wit_TransportStreams_2 :
    (∃ (s : State) (r : Req) (src : BitVec 16) (ext : Byte) (dest : Byte) (q : BitVec 16) (dva : BitVec 64) (n : BitVec 64), heard s r 2310 24 = true ∧
     src.toNat ≤ 1023 ∧ ext.toNat ≤ 1 ∧ dest.toNat ≤ 2 ∧ (dest = 0 → planQueue? s q.toNat = true ∧ queueNumberOk q.toNat = true ∧ queueOn s q.toNat = true)
     ∧ dest = 1 ∧ windowHeld s dva.toNat n.toNat = false) ∧
    (∃ (s : State) (r : Req) (src : BitVec 16) (ext : Byte) (dest : Byte) (stream : BitVec 16) (q : BitVec 16) (dva : BitVec 64) (n : BitVec 64) (d :
     RxDest) (e : RxStream), heard s r 2310 24 = true ∧ src.toNat ≤ 1023 ∧ ext.toNat ≤ 1 ∧ dest.toNat ≤ 2 ∧ (dest = 0 → planQueue? s q.toNat = true ∧
     queueNumberOk q.toNat = true ∧ queueOn s q.toNat = true) ∧ (dest = 0 ∧ d = RxDest.queue q.toNat ∨ dest = 1 ∧ windowHeld s dva.toNat n.toNat = true ∧ d
     = RxDest.window dva.toNat n.toNat) ∧ List.find? (rxIs src.toNat (ext.toNat == 1) stream.toNat) s.rx = some e) ∧
    (∃ (s : State) (r : Req) (src : BitVec 16) (ext : Byte) (dest : Byte) (stream : BitVec 16) (q : BitVec 16) (dva : BitVec 64) (n : BitVec 64) (d :
     RxDest), heard s r 2310 24 = true ∧ src.toNat ≤ 1023 ∧ ext.toNat ≤ 1 ∧ dest.toNat ≤ 2 ∧ (dest = 0 → planQueue? s q.toNat = true ∧ queueNumberOk
     q.toNat = true ∧ queueOn s q.toNat = true) ∧ (dest = 0 ∧ d = RxDest.queue q.toNat ∨ dest = 1 ∧ windowHeld s dva.toNat n.toNat = true ∧ d =
     RxDest.window dva.toNat n.toNat) ∧ List.find? (rxIs src.toNat (ext.toNat == 1) stream.toNat) s.rx = none ∧ s.rx.length < 4096) ∧
    (∃ (s : State) (r : Req) (src : BitVec 16) (ext : Byte) (dest : Byte) (stream : BitVec 16) (q : BitVec 16) (dva : BitVec 64) (n : BitVec 64) (d :
     RxDest), heard s r 2310 24 = true ∧ src.toNat ≤ 1023 ∧ ext.toNat ≤ 1 ∧ dest.toNat ≤ 2 ∧ (dest = 0 → planQueue? s q.toNat = true ∧ queueNumberOk
     q.toNat = true ∧ queueOn s q.toNat = true) ∧ (dest = 0 ∧ d = RxDest.queue q.toNat ∨ dest = 1 ∧ windowHeld s dva.toNat n.toNat = true ∧ d =
     RxDest.window dva.toNat n.toNat) ∧ List.find? (rxIs src.toNat (ext.toNat == 1) stream.toNat) s.rx = none ∧ 4096 ≤ s.rx.length) :=
  ⟨⟨up, (rq 24), 1023, 1, 1, 0, 0, 1, by decide +kernel⟩,
   ⟨{ { queUp (plT .active) (que []) with ports := net.ports, sec := net.sec } with rx := [⟨1023, true, 9, .queue 41, 0, [], []⟩] },
    (rq 24), 1023, 1, 0, 9, 40, 0, 0, .queue 40, ⟨1023, true, 9, .queue 41, 0, [], []⟩, by decide +kernel⟩,
   ⟨sess, (rq 24), 1023, 1, 1, 9, 0, 0, 8388608, .window 0 8388608, by decide +kernel⟩,
   ⟨{ sess with rx := List.replicate 4096 ⟨0, true, 9, .queue 41, 0, [], []⟩ }, (rq 24), 1023, 1, 1, 9, 0, 0, 8388608,
    .window 0 8388608, by decide +kernel⟩⟩

/-- What meets the hypotheses of the clauses of PtpTimeBase. -/
theorem wit_PtpTimeBase :
    (∃ (s : State) (r : Req) (p : Byte) (transport : Byte) (domain : Byte), heard s r 0x0908 8 = true ∧ p.toNat ≤ 3 ∧ transport.toNat ≤ 2 ∧ domain.toNat ≤
     127 ∧ portExists s p.toNat = true) ∧
    (∃ (s : State) (r : Req) (p : Byte) (transport : Byte) (domain : Byte), heard s r 0x0908 8 = true ∧ p.toNat ≤ 3 ∧ transport.toNat ≤ 2 ∧ domain.toNat ≤
     127 ∧ portExists s p.toNat = false) ∧
    (∃ (s : State) (m : PtpMessage), ptpFromMaster m s = false) ∧
    (∃ (s : State) (seq : BitVec 16) (d : Int × Nat) (n : BitVec 16), s.ptp.delayResp = some d ∧ 0 ≤ d.1 ∧ d.1 ≤ 100000 ∧ s.clk.cycle ≤ d.2 + 30400000000 ∧
     s.ptp.lastSeq = some n ∧ n + 1 = seq) ∧
    (∃ (s : State) (seq : BitVec 16), ((s.ptp.delayResp = none ∨ s.ptp.lastSeq = none ∨ (∃ n, s.ptp.lastSeq = some n ∧ n + 1 ≠ seq) ∨ ∃ d, s.ptp.delayResp
     = some d ∧ (d.1 < 0 ∨ 100000 < d.1 ∨ d.2 + 30400000000 < s.clk.cycle)))) ∧
    (∃ (s : State) (m : PtpMessage) (t3 : Int), ptpFromMaster m s = true ∧ s.ptp.delayReq = some (m.seq, t3)) ∧
    (∃ (s : State) (m : PtpMessage), ptpFromMaster m s = true ∧ (∀ t3, s.ptp.delayReq ≠ some (m.seq, t3))) ∧
    (∃ (s : State) (m : PtpMessage), ptpHeard m s = false) :=
  ⟨⟨up, (rq 8), 0, 2, 127, by decide +kernel⟩,
   ⟨up, (rq 8), 1, 2, 127, by decide +kernel⟩,
   ⟨up, ptpM, by decide +kernel⟩,
   ⟨ptpUp { State.reset.ptp with delayResp := some (100000, 0), lastSeq := some 0xffff#16 }, 0, (100000, 0), 0xffff#16,
    by decide +kernel, by decide, by decide, by decide +kernel, by decide +kernel, by decide⟩,
   ⟨up, 0, .inl (by decide +kernel)⟩,
   ⟨ptpUp { State.reset.ptp with delayReq := some (5, 9) }, ptpM, 9, by decide +kernel⟩,
   ⟨ptpUp State.reset.ptp, ptpM, by decide +kernel, fun t3 => by simp [ptpUp, State.reset]⟩,
   ⟨up, ptpM, by decide +kernel⟩⟩

/-- What meets the hypotheses of the clauses of PtpTimeBase. -/
theorem wit_PtpTimeBase_2 :
    (∃ (s : State) (m : PtpMessage), ptpHeard m s = true) ∧
    (∃ (w : BitVec 32), w.toNat < 100) ∧
    (∃ (w : BitVec 32), 100 ≤ w.toNat) ∧
    (∃ (s : State) (m : PtpMessage), ptpFromMaster m s = true) ∧
    (∃ (s : State) (m : PtpMessage) (t2 : Int), ptpFromMaster m s = true ∧ (chooseMaster s).ptp.waiting = some (m.seq, t2)) ∧
    (∃ (s : State) (b : Nat × Nat), (chooseMaster s).ptp.master = some b) ∧
    (∃ (s : State), Option.map (fun x => x.fst) (chooseMaster s).ptp.master = Option.map (fun x => x.fst) s.ptp.master) ∧
    (∃ (s : State) (m : PtpMessage), ptpFromMaster m s = true ∧ (∀ (t2 : Int), (chooseMaster s).ptp.waiting ≠ some (m.seq, t2))) :=
  ⟨⟨ptpUp State.reset.ptp, ptpM, by decide +kernel⟩,
   ⟨99, by decide +kernel⟩,
   ⟨100, by decide +kernel⟩,
   ⟨ptpUp State.reset.ptp, ptpM, by decide +kernel⟩,
   ⟨ptpUp { State.reset.ptp with waiting := some (5, -4) }, ptpM, -4, by decide +kernel⟩,
   ⟨ptpUp { State.reset.ptp with waiting := some (5, -4) }, _, by and_intros <;> first | rfl | decide +kernel | (intro; rfl) | (intros; contradiction) | (intros; simp_all)⟩,
   ⟨ptpUp { State.reset.ptp with waiting := some (5, -4) }, by and_intros <;> first | rfl | decide +kernel | (intro; rfl) | (intros; contradiction) | (intros; simp_all)⟩,
   ⟨ptpUp State.reset.ptp, ptpM, by decide +kernel, fun t2 => by rw [show (chooseMaster (ptpUp State.reset.ptp)).ptp.waiting = none by decide +kernel]; exact nofun⟩⟩

/-- What meets the hypotheses of the clauses of PtpTimeBase. -/
theorem wit_PtpTimeBase_3 :
    (∃ (s : State) (b : Nat × Nat) (e : Nat × Nat), (chooseMaster s).ptp.master = some b ∧ e ∈ liveMasters s) ∧
    (∃ (s : State), liveMasters s = []) ∧
    (∃ (s : State), Option.map (fun x => x.fst) (chooseMaster s).ptp.master ≠ Option.map (fun x => x.fst) s.ptp.master) :=
  ⟨⟨ptpUp State.reset.ptp, (7, 0), (7, 0), by decide +kernel, by decide +kernel⟩,
   ⟨up, by decide +kernel⟩,
   ⟨{ ptpUp State.reset.ptp with ptp := { (ptpUp State.reset.ptp).ptp with master := none } }, by decide +kernel⟩⟩

/-- What meets the hypotheses of the clauses on ANNOUNCE of PtpTimeBase. -/
theorem wit_PtpTimeBase_4 :
    (∃ (s : State) (m : PtpMessage) (c : Nat), ptpHeard m s = true ∧ look m.sender.toNat s.ptp.heard = some c ∧ s.clk.cycle ≤ c + 15200000000) ∧
    (∃ (s : State) (m : PtpMessage), ptpHeard m s = true ∧ look m.sender.toNat s.ptp.heard = none) ∧
    (∃ (s : State) (m : PtpMessage) (d : PtpDataSet) (t : State) (b : Nat × Nat), ptpHeard m s = true ∧ exec (.announce m d) s = .next t ∧
     t.ptp.master = some b ∧ t.ptp.master.map (·.1) = s.ptp.master.map (·.1)) ∧
    (∃ (s : State) (m : PtpMessage) (c : Nat), ptpHeard m s = true ∧ look m.sender.toNat s.ptp.heard = some c ∧ c + 15200000000 < s.clk.cycle) :=
  ⟨⟨ptpUp State.reset.ptp, ptpM, 0, by decide +kernel⟩,
   ⟨{ ptpUp State.reset.ptp with ptp := { (ptpUp State.reset.ptp).ptp with heard := [] } }, ptpM, by decide +kernel⟩,
   ⟨ptpUp State.reset.ptp, ptpM, ⟨128, 6, 0x21, 0x4e5d, 128, 7, 0⟩, _, _, by decide +kernel, rfl, rfl, by decide +kernel⟩,
   ⟨{ ptpUp State.reset.ptp with clk := { State.reset.clk with cycle := 15200000001 } }, ptpM, 0, by decide +kernel⟩⟩

/-- What meets the hypotheses of the clauses of FramesOfAPort. -/
theorem wit_FramesOfAPort :
    (∃ (s : State) (p : BitVec 2), portCarries s p.toNat = false) ∧
    (∃ (s : State) (p : BitVec 2), portCarries s p.toNat = true ∧ s.hostSigs = [] ∧ s.links = [] ∧ (∀ f ∈ (port s p.toNat).out, frameExhausted s p.toNat f
     = false) ∧ pickFrame s p.toNat = none) ∧
    (∃ (s : State) (p : BitVec 2) (f : OutFrame), portCarries s p.toNat = true ∧ s.hostSigs = [] ∧ s.links = [] ∧ (∀ f ∈ (port s p.toNat).out,
     frameExhausted s p.toNat f = false) ∧ pickFrame s p.toNat = some f) ∧
    (∃ (s : State) (p : Nat) (f : OutFrame), pickFrame s p = some f) ∧
    (∃ (s : State) (h : HostSignal) (hs : List HostSignal) (p : Nat), s.hostSigs = h :: hs ∧ (neighbour s hostReturn).port.toNat = p ∧ sessionOpen s = true
     ∧ (∀ f ∈ (port s p).out, f.cls ≠ .control)) ∧
    (∃ (s : State) (p : BitVec 2), (portCarries s p.toNat = false ∨ portPfc (port s p.toNat) = false)) ∧
    (∃ (s : State) (p : BitVec 2) (times : List (BitVec 3 × BitVec 16)), portCarries s p.toNat = true ∧ portPfc (port s p.toNat) = true ∧ (times.map
     (·.1)).Nodup) ∧
    (∃ (s : State) (p : Nat) (f : OutFrame), pickFrame s p = some f ∧ f.cls = OutClass.dip) :=
  ⟨⟨up, 0, by decide +kernel⟩,
   ⟨net, 0, by decide +kernel⟩,
   ⟨{ net with ports := [(0, { portOn with out := [⟨.margin, 0, ⟨0, zeros 16, 0⟩, .kit (hdr 1 1 3 0) [1, 2, 3]⟩] })] }, 0,
    ⟨.margin, 0, ⟨0, zeros 16, 0⟩, .kit (hdr 1 1 3 0) [1, 2, 3]⟩,
    by refine ⟨?_, ?_, ?_, ?_, ?_⟩ <;> first | decide +kernel | with_reducible rfl | exact tableCtx_of (by decide +kernel) (by decide +kernel) rfl | simp⟩,
   ⟨{ net with ports := [(0, { portOn with out := [⟨.margin, 0, ⟨0, zeros 16, 0⟩, .kit (hdr 1 1 3 0) [1, 2, 3]⟩] })] }, 0,
    ⟨.margin, 0, ⟨0, zeros 16, 0⟩, .kit (hdr 1 1 3 0) [1, 2, 3]⟩, by decide +kernel⟩,
   ⟨{ net with hostSigs := [⟨true, 3, 1, 0, 1⟩] }, ⟨true, 3, 1, 0, 1⟩, [], 0, by decide +kernel⟩,
   ⟨up, 0, by decide +kernel⟩,
   ⟨{ net with ports := [(0, { portOn with cfg := 0x100000000#64, paused := [(3, 9)] })] }, 0, [(0, 1), (7, 0xffff#16)],
    by decide +kernel⟩,
   ⟨{ net with ports := [(0, { portOn with bucket := 100000, out := [⟨.dip, 0, ⟨0, zeros 16, 0⟩, .kit (hdr 1 1 3 0) [1, 2, 3]⟩] })] }, 0, ⟨.dip, 0, ⟨0, zeros 16, 0⟩, .kit (hdr 1 1 3 0) [1, 2, 3]⟩, by decide +kernel⟩⟩

/-- What meets the hypotheses of the clauses of FramesOfAPort. -/
theorem wit_FramesOfAPort_2 :
    (∃ (s : State) (p : Nat) (f : OutFrame) (g : OutFrame), pickFrame s p = some f ∧ g ∈ (port s p).out ∧ isPaused s p g.pcp = false ∧ frameExhausted s p g
     = false ∧ g.cls ≠ OutClass.dip) ∧
    (∃ (s : State) (p : BitVec 2) (pr : BitVec 3), look pr.toNat (port s p.toNat).paused = none) ∧
    (∃ (s : State) (p : BitVec 2) (pr : BitVec 3) (n : Nat), look pr.toNat (port s p.toNat).paused = some n) ∧
    (∃ (s : State) (p : BitVec 2) (frame : Bytes), (portCarries s p.toNat = false ∨ frameReason (acceptsOf s p.toNat) frame = none)) ∧
    (∃ (frame : Bytes), List.length frame < 64) ∧
    (∃ (frame : Bytes), 64 ≤ List.length frame ∧ leAt frame (List.length frame - 4) 4 ≠ crc32 (List.take (List.length frame - 4) frame)) ∧
    (∃ (s : State) (p : BitVec 2) (frame : Bytes) (reason : Nat), portCarries s p.toNat = true ∧ frameReason (acceptsOf s p.toNat) frame = some reason) ∧
    (∃ (frame : Bytes), 64 ≤ List.length frame ∧ leAt frame (List.length frame - 4) 4 = crc32 (List.take (List.length frame - 4) frame) ∧ 1522 <
     List.length frame) :=
  ⟨⟨{ net with ports := [(0, { portOn with out := [⟨.margin, 0, ⟨0, zeros 16, 0⟩, .kit (hdr 1 1 3 0) [1, 2, 3]⟩] })] }, 0, ⟨.margin, 0, ⟨0, zeros 16, 0⟩, .kit (hdr 1 1 3 0) [1, 2, 3]⟩, ⟨.margin, 0, ⟨0, zeros 16, 0⟩, .kit (hdr 1 1 3 0) [1, 2, 3]⟩, by decide +kernel⟩,
   ⟨up, 0, 3, by decide +kernel⟩,
   ⟨{ net with ports := [(0, { portOn with cfg := 0x100000000#64, paused := [(3, 9)] })] }, 0, 3, 9, by decide +kernel⟩,
   ⟨up, 0, [], .inl (by decide +kernel)⟩,
   ⟨zeros 63, by decide⟩,
   ⟨zeros 60 ++ [1, 0, 0, 0], by decide +kernel⟩,
   ⟨net, 0, zeros 63, 1, by decide +kernel⟩,
   ⟨longFrame 1515, by rw [longFrame_len]; decide, longFrame_crc 1515, by rw [longFrame_len]; decide⟩⟩

/-- What meets the hypotheses of the clauses of LinksAndCodewords. -/
theorem wit_LinksAndCodewords :
    (∃ (s : State) (p : BitVec 2), portCarries s p.toNat = false) ∧
    (∃ (s : State) (p : BitVec 2), portCarries s p.toNat = true) ∧
    (∃ (s : State) (p : BitVec 2), portUp s p.toNat = true ∧ portUnderTest s p.toNat = false) ∧
    (∃ (s : State) (p : BitVec 2), ((portUp s p.toNat = false ∨ portUnderTest s p.toNat = true))) ∧
    (∃ (s : State) (die : BitVec 2) (peer : BitVec 2) (g : BitVec 4) (u : BitVec 16), 
     u = uid die.toNat 13 0 peer.toNat g.toNat ∧ die ≠ peer ∧ u ∉ s.lanesDown) ∧
    (∃ (s : State) (die : BitVec 2) (peer : BitVec 2) (g : BitVec 4) (u : BitVec 16), 
     u = uid die.toNat 13 0 peer.toNat g.toNat ∧ ((die = peer ∨ u ∈ s.lanesDown))) ∧
    (∃ (s : State) (die : BitVec 2) (peer : BitVec 2) (n : Nat), 
     n = linkNumber die.toNat peer.toNat ∧ die ≠ peer ∧ n ∉ s.linksDown) ∧
    (∃ (s : State) (die : BitVec 2) (peer : BitVec 2) (n : Nat), 
     n = linkNumber die.toNat peer.toNat ∧ ((die = peer ∨ n ∈ s.linksDown))) :=
  ⟨⟨up, 0, by decide +kernel⟩,
   ⟨net, 0, by decide +kernel⟩,
   ⟨net, 0, by decide +kernel⟩,
   ⟨up, 0, by decide +kernel⟩,
   ⟨up, 0, 3, 0, uid 0 13 0 3 0, by decide +kernel⟩,
   ⟨up, 0, 0, 0, uid 0 13 0 0 0, by decide +kernel⟩,
   ⟨up, 0, 3, 2, by decide +kernel⟩,
   ⟨up, 0, 0, 5, by decide +kernel⟩⟩

/-- What meets the hypotheses of the clauses of BlotterAndSelfTests. -/
theorem wit_BlotterAndSelfTests :
    (∃ (s : State) (r : Req) (dva : BitVec 64) (n : BitVec 32) (c : BitVec 16), 
     heard s r 0x0701 16 = true ∧ ((c = 0xffff#16 ∨ c.toNat < 16384)) ∧ ringSizeOk n.toNat = true ∧
     sessionRange s dva.toNat n.toNat 2 = true ∧ ((c = 0xffff#16 ∨ cellHeld s c.toNat = true))) ∧
    (∃ (s : State) (r : Req) (dva : BitVec 64) (n : BitVec 32) (c : BitVec 16), 
     heard s r 0x0701 16 = true ∧ ((c = 0xffff#16 ∨ c.toNat < 16384)) ∧
     ((ringSizeOk n.toNat = false ∨ sessionRange s dva.toNat n.toNat 2 = false))) ∧
    (∃ (s : State) (r : Req) (dva : BitVec 64) (n : BitVec 32) (c : BitVec 16), 
     heard s r 0x0701 16 = true ∧ ((c = 0xffff#16 ∨ c.toNat < 16384)) ∧ ringSizeOk n.toNat = true ∧
     sessionRange s dva.toNat n.toNat 2 = true ∧ c ≠ 0xffff#16 ∧ cellHeld s c.toNat = false) ∧
    (∃ (s : State) (r : Req), heard s r 0x0702 8 = true) ∧
    (∃ (s : State) (r : Req) (u : BitVec 16), 
     heardP s r 0x0703 8 = true ∧ unitOk u = true ∧ deviceLevel u = false ∧
     ((uidCluster u < 12 → (cluster s (uidClusterIndex u)).off = false)) ∧ (∀ t ∈ s.tests, t.unit ≠ u)) ∧
    (∃ (s : State) (r : Req) (u : BitVec 16), 
     heardP s r 0x0703 8 = true ∧ unitOk u = true ∧ deviceLevel u = false ∧
     ((uidCluster u < 12 → (cluster s (uidClusterIndex u)).off = false)) ∧ (∃ t ∈ s.tests, t.unit = u)) ∧
    (∃ (s : State) (u : BitVec 16), (∀ t ∈ s.tests, t.unit ≠ u)) ∧
    (∃ (s : State) (u : BitVec 16) (t : SelfTest), s.tests.find? (fun t => t.unit == u) = some t ∧ segmentMayRun s t = false) :=
  ⟨⟨pin, (rq 16), 0, 65536, 9, by decide +kernel⟩,
   ⟨pin, (rq 16), 0, 65535, 0xffff#16, by decide +kernel⟩,
   ⟨pin, (rq 16), 0, 131072, 0x3fff#16, by decide +kernel⟩,
   ⟨up, (rq 8), by decide +kernel⟩,
   ⟨up, (rq 8), 0, by decide +kernel⟩,
   ⟨{ up with tests := [⟨0, 0, 0, 0, 0, 0, false, true, 0, 0⟩] }, (rq 8), 0, by decide +kernel⟩,
   ⟨up, 0, by decide +kernel⟩,
   ⟨{ up with tests := [⟨0, 0, 0, 0, 0, 0, false, true, 0, 0⟩], pwr := { up.pwr with f := 0 } }, 0,
    ⟨0, 0, 0, 0, 0, 0, false, true, 0, 0⟩, by decide +kernel⟩⟩

/-- What meets the hypotheses of the clauses of BlotterAndSelfTests. -/
theorem wit_BlotterAndSelfTests_2 :
    (∃ (s : State) (u : BitVec 16) (t : SelfTest), 
     s.tests.find? (fun t => t.unit == u) = some t ∧ segmentMayRun s t = true ∧ t.done + 1 < testSegments u) ∧
    (∃ (s : State) (u : BitVec 16) (t : SelfTest), 
     s.tests.find? (fun t => t.unit == u) = some t ∧ segmentMayRun s t = true ∧ testSegments u ≤ t.done + 1) ∧
    (∃ (s : State) (u : BitVec 16) (t : SelfTest), s.tests.find? (fun t => t.unit == u) = some t ∧ t.deferred = true) ∧
    (∃ (s : State) (u : BitVec 16) (t : SelfTest), s.tests.find? (fun t => t.unit == u) = some t ∧ t.deferred = false) ∧
    (∃ (s : State), s.halted = true) ∧
    (∃ (s : State), s.halted = false) :=
  ⟨⟨{ up with tests := [⟨0, 0, 0, 62, 0, 0, false, true, 0, 0⟩] }, 0, ⟨0, 0, 0, 62, 0, 0, false, true, 0, 0⟩, by decide +kernel⟩,
   ⟨{ up with tests := [⟨0, 0, 0, 63, 0, 0, false, true, 0, 0⟩] }, 0, ⟨0, 0, 0, 63, 0, 0, false, true, 0, 0⟩, by decide +kernel⟩,
   ⟨{ up with tests := [⟨0, 0, 0, 0, 0, 0, true, true, 0, 0⟩] }, 0, ⟨0, 0, 0, 0, 0, 0, true, true, 0, 0⟩, by decide +kernel⟩,
   ⟨{ up with tests := [⟨0, 0, 0, 0, 0, 0, false, true, 0, 0⟩] }, 0, ⟨0, 0, 0, 0, 0, 0, false, true, 0, 0⟩, by decide +kernel⟩,
   ⟨{ up with halted := true }, by decide +kernel⟩,
   ⟨up, by decide +kernel⟩⟩

/-- What meets the hypotheses of the clauses of MatchCommands. -/
theorem wit_MatchCommands :
    (∃ (s : State) (r : Req) (slot : Byte) (ts : List Byte), heard s r 0x0A02 (alignUp (8 + ts.length) 8) = true ∧ slot.toNat ≤ 63 ∧ matchState s
     slot.toNat = false) ∧
    (∃ (s : State) (r : Req) (slot : Byte) (region : BitVec 16) (first : BitVec 16) (ts : List Byte), heard s r 0x0A02 (alignUp (8 + ts.length) 8) = true ∧
     slot.toNat ≤ 63 ∧ matchState s slot.toNat = true ∧ matchRegion s slot.toNat region.toNat (64 * first.toNat) (64 * ts.length) = none) ∧
    (∃ (s : State) (r : Req) (slot : Byte) (region : BitVec 16) (first : BitVec 16) (ts : List Byte) (b : Bound), heard s r 0x0A02 (alignUp (8 + ts.length)
     8) = true ∧ slot.toNat ≤ 63 ∧ matchState s slot.toNat = true ∧ matchRegion s slot.toNat region.toNat (64 * first.toNat) (64 * ts.length) = some b) ∧
    (∃ (s : State) (r : Req) (slot : Byte) (region : BitVec 16) (first : BitVec 16) (n : BitVec 16), heard s r 0x0A03 8 = true ∧ slot.toNat ≤ 63 ∧ n.toNat
     ≤ 88 ∧ matchRegion s slot.toNat region.toNat first.toNat n.toNat = none) ∧
    (∃ (s : State) (r : Req) (slot : Byte) (region : BitVec 16) (first : BitVec 16) (n : BitVec 16) (b : Bound), heard s r 0x0A03 8 = true ∧ slot.toNat ≤
     63 ∧ n.toNat ≤ 88 ∧ matchRegion s slot.toNat region.toNat first.toNat n.toNat = some b) ∧
    (∃ (s : State) (r : Req) (slot : Byte) (imgs : List (BitVec 320)), heard s r 2561 (8 + 40 * imgs.length) = true ∧ slot.toNat ≤ 63 ∧ imgs.length ≤ 88 ∧
     (∀ (i : BitVec 320), i ∈ imgs → ∀ (e : Nat × Bool), e ∈ badImage 0 i → e.snd = false) ∧ matchState s (slot.toNat) = false) ∧
    (∃ (s : State) (r : Req) (slot : Byte) (region : BitVec 16) (first : BitVec 16) (imgs : List (BitVec 320)), heard s r 2561 (8 + 40 * imgs.length) =
     true ∧ slot.toNat ≤ 63 ∧ imgs.length ≤ 88 ∧ (∀ (i : BitVec 320), i ∈ imgs → ∀ (e : Nat × Bool), e ∈ badImage 0 i → e.snd = false) ∧ matchState s
     (slot.toNat) = true ∧ matchRegion s (slot.toNat) region.toNat first.toNat imgs.length = none) ∧
    (∃ (s : State) (r : Req) (slot : Byte) (region : BitVec 16) (first : BitVec 16) (imgs : List (BitVec 320)) (b : Bound), heard s r 2561 (8 + 40 *
     imgs.length) = true ∧ slot.toNat ≤ 63 ∧ imgs.length ≤ 88 ∧ (∀ (i : BitVec 320), i ∈ imgs → ∀ (e : Nat × Bool), e ∈ badImage 0 i → e.snd = false) ∧
     matchState s (slot.toNat) = true ∧ matchRegion s (slot.toNat) region.toNat first.toNat imgs.length = some b) :=
  ⟨⟨up, (rq (16)), 63, [1], by decide +kernel⟩,
   ⟨withPlan (plT .active), (rq (16)), 0, 2, 1, [1], by decide +kernel⟩,
   ⟨withPlan (plT .active), (rq (16)), 0, 2, 0, [1], ⟨9, 0, 2, 0, 0, 0, 64⟩, by decide +kernel⟩,
   ⟨up, (rq 8), 63, 0, 0, 88, by decide +kernel⟩,
   ⟨withPlan (plT .active), (rq 8), 0, 2, 0, 64, ⟨9, 0, 2, 0, 0, 0, 64⟩, by decide +kernel⟩,
   ⟨up, (rq (48)), 63, [0], by decide +kernel, by decide +kernel, by decide +kernel, all_of (by decide +kernel), by decide +kernel⟩,
   ⟨withPlan (plT .active), (rq (48)), 0, 2, 64, [0], by decide +kernel, by decide +kernel, by decide +kernel,
    all_of (by decide +kernel), by decide +kernel, by decide +kernel⟩,
   ⟨withPlan (plT .active), (rq (48)), 0, 2, 63, [0], ⟨9, 0, 2, 0, 0, 0, 64⟩, by decide +kernel, by decide +kernel, by decide +kernel,
    all_of (by decide +kernel), by decide +kernel, by decide +kernel⟩⟩

/-- What meets the hypotheses of the clauses of PowerCap. -/
theorem wit_PowerCap :
    (∃ (s : State) (r : Req) (cap : BitVec 32), heard s r 0x0802 8 = true ∧ 1000000 ≤ cap.toNat ∧ cap.toNat ≤ 2400000) ∧
    (∃ (s : State) (r : Req) (cap : BitVec 32), heard s r 0x0802 8 = true ∧ ((cap.toNat < 1000000 ∨ 2400000 < cap.toNat))) ∧
    (∃ (s : State), powered s = true) :=
  ⟨⟨up, (rq 8), 2400000, by decide +kernel⟩,
   ⟨up, (rq 8), 999999, by decide +kernel⟩,
   ⟨up, by decide +kernel⟩⟩

/-- What meets the hypotheses of the clauses of PowerStatesAndResets. -/
theorem wit_PowerStatesAndResets :
    (∃ (s : State) (r : Req) (target : Byte) (mask : BitVec 64), 
     heardP s r 0x0803 16 = true ∧ target.toNat ≤ 3 ∧ ((2 ≤ target.toNat → mask.toNat < 2 ^ 48))) ∧
    (∃ (s : State) (r : Req), heardP s r 0x0804 8 = true) ∧
    (∃ (s : State), s.pwr.warm = false) ∧
    (∃ (s : State), s.pwr.warm = true) :=
  ⟨⟨up, (rq 16), 3, 0xffffffffffff#64, by decide +kernel⟩,
   ⟨up, (rq 8), by decide +kernel⟩,
   ⟨up, by decide +kernel⟩,
   ⟨{ up with pwr := { up.pwr with warm := true } }, by decide +kernel⟩⟩

/-- What meets the hypotheses of the clauses of PowerAndSensors. -/
theorem wit_PowerAndSensors :
    (∃ (s : State), powered s = false) ∧
    (∃ (s : State), powered s = true) ∧
    (∃ (s : State), ((s.pwr.overSince = none ∨ s.pwr.unheld = true ∨ powered s = false))) ∧
    (∃ (s : State) (n : Nat), s.pwr.overSince = some n ∧ s.pwr.unheld = false ∧ powered s = true) ∧
    (∃ (s : State) (code : Nat) (sensor : Nat), codeInForce s code sensor = true) ∧
    (∃ (s : State) (code : Nat) (sensor : Nat), codeInForce s code sensor = false) ∧
    (∃ (s : State) (c : BitVec 2) (mv : BitVec 32), powered s = true ∧ inWarningBand c.toNat mv.toNat = true) ∧
    (∃ (s : State) (c : BitVec 2) (mv : BitVec 32), ((powered s = false ∨ inWarningBand c.toNat mv.toNat = false))) :=
  ⟨⟨{ up with pwr := { up.pwr with state := .standby } }, by decide +kernel⟩,
   ⟨up, by decide +kernel⟩,
   ⟨up, by decide +kernel⟩,
   ⟨{ up with pwr := { up.pwr with overSince := some 5 } }, 5, by decide +kernel⟩,
   ⟨{ up with pwr := { up.pwr with inForce := [(1, 2)] } }, 1, 2, by decide +kernel⟩,
   ⟨up, 0, 0, by decide +kernel⟩,
   ⟨up, 1, 44000, by decide +kernel⟩,
   ⟨up, 1, 48000, by decide +kernel⟩⟩

/-- What meets the hypotheses of the clauses of PowerAndSensors. -/
theorem wit_PowerAndSensors_2 :
    (∃ (s : State) (c : Byte) (t : BitVec 16) (w : Int) (p : Option Int), 
     tempLimits c.toNat = some (w, p) ∧ powered s = true ∧ w < t.toInt) ∧
    (∃ (s : State) (c : Byte) (t : BitVec 16) (w : Int) (p : Option Int), 
     tempLimits c.toNat = some (w, p) ∧ ((powered s = false ∨ t.toInt ≤ w))) ∧
    (∃ (s : State) (c : Byte) (t : BitVec 32) (w : Int) (p : Int), 
     tempLimits c.toNat = some (w, some p) ∧ powered s = true ∧ p ≤ t.toInt) ∧
    (∃ (s : State) (c : Byte) (t : BitVec 32) (w : Int) (p : Int), 
     tempLimits c.toNat = some (w, some p) ∧ ((powered s = false ∨ t.toInt < p))) ∧
    (∃ (c : Byte) (w : Int) (p : Option Int), tempLimits c.toNat = some (w, p)) ∧
    (∃ (c : Byte) (t0 : Nat) (r0 : Nat) (r1 : Nat) (t1 : Nat), 
     tempLimits c.toNat = none ∧ supplyLimits c.toNat = some (t0, r0, r1, t1)) ∧
    (∃ (s : State) (c : Byte), sensorOk c.toNat = true ∧ c ≠ 0x30#8 ∧ s.pwr.state ≠ .shutdown) :=
  ⟨⟨up, 0x10, 951, 950, some 1050, by decide +kernel⟩,
   ⟨up, 0x13, 950, 950, some 1050, by decide +kernel⟩,
   ⟨up, 0x20, 1000, 900, 1000, by decide +kernel⟩,
   ⟨up, 0x23, 999, 900, 1000, by decide +kernel⟩,
   ⟨0x30, 450, none, by decide +kernel⟩,
   ⟨1, 44000, 48000, 60000, 63000, by decide +kernel⟩,
   ⟨up, 3, by decide +kernel⟩⟩

/-- What meets the hypotheses of the clauses of StartUp. -/
theorem wit_StartUp :
    (∃ (s : State) (fresh : Bool), ((fresh = true ∨ s.pwr.state = .standby ∨ (s.boot.stage = 0 ∧ s.pwr.state = .run)))) ∧
    (∃ (s : State), (¬ (s.pwr.state = .standby ∨ (s.boot.stage = 0 ∧ s.pwr.state = .run)))) ∧
    (∃ (s : State), s.boot.stage ≠ 1) ∧
    (∃ (s : State), s.boot.stage = 1) ∧
    (∃ (s : State), s.boot.stage ≠ 2) ∧
    (∃ (s : State), s.boot.stage ≠ 3) ∧
    (∃ (s : State) (p : ImageCopy) (a : ImageCopy), s.boot.stage = 2 ∧ imageFail s p 1 ≠ 0 ∧ imageFail s a 1 ≠ 0) ∧
    (∃ (s : State) (p : ImageCopy) (a : ImageCopy), s.boot.stage = 3 ∧ imageFail s p 2 ≠ 0 ∧ imageFail s a 2 ≠ 0) :=
  ⟨⟨State.reset, false, by decide +kernel⟩,
   ⟨up, by decide +kernel⟩,
   ⟨up, by decide +kernel⟩,
   ⟨at_ 1, by decide +kernel⟩,
   ⟨up, by decide +kernel⟩,
   ⟨up, by decide +kernel⟩,
   ⟨boot_ 2, imgBad, imgBad, by decide, by decide +kernel, by decide +kernel⟩,
   ⟨boot_ 3, imgBad, imgBad, by decide, by decide +kernel, by decide +kernel⟩⟩

/-- What meets the hypotheses of the clauses of StartUp. -/
theorem wit_StartUp_2 :
    (∃ (s : State), s.boot.stage = 0) ∧
    (∃ (s : State), s.boot.stage ≠ 0) ∧
    (∃ (s : State), s.boot.stage ≠ 0) ∧
    (∃ (s : State), s.pwr.state ≠ .held) ∧
    (∃ (s : State), s.pwr.state = .held) :=
  ⟨⟨State.reset, by decide +kernel⟩,
   ⟨up, by decide +kernel⟩,
   ⟨up, by decide +kernel⟩,
   ⟨up, by decide +kernel⟩,
   ⟨{ up with pwr := { up.pwr with state := .held } }, by decide +kernel⟩⟩

/-- What meets the hypotheses of a clause of StartUp, where the open functions answer so. -/
theorem wit_StartUp_given_6
    (h : imgSigned 1) :
    ∃ (s : State) (p : ImageCopy), s.boot.stage = 2 ∧ imageFail s p 1 = 0 :=
  ⟨boot_ 2, img 1, by decide, img_ok 1 (by decide) (by decide) h⟩

/-- What meets the hypotheses of a clause of StartUp, where the open functions answer so. -/
theorem wit_StartUp_given_7
    (h : imgSigned 1) :
    ∃ (s : State) (p : ImageCopy) (a : ImageCopy), s.boot.stage = 2 ∧ imageFail s p 1 ≠ 0 ∧ imageFail s a 1 = 0 :=
  ⟨boot_ 2, imgBad, img 1, by decide, by decide +kernel, img_ok 1 (by decide) (by decide) h⟩

/-- What meets the hypotheses of a clause of StartUp, where the open functions answer so. -/
theorem wit_StartUp_given_10
    (h : imgSigned 2) :
    ∃ (s : State) (p : ImageCopy), s.boot.stage = 3 ∧ imageFail s p 2 = 0 :=
  ⟨boot_ 3, img 2, by decide, img_ok 2 (by decide) (by decide) h⟩

/-- What meets the hypotheses of a clause of StartUp, where the open functions answer so. -/
theorem wit_StartUp_given_11
    (h : imgSigned 2) :
    ∃ (s : State) (p : ImageCopy) (a : ImageCopy), s.boot.stage = 3 ∧ imageFail s p 2 ≠ 0 ∧ imageFail s a 2 = 0 :=
  ⟨boot_ 3, imgBad, img 2, by decide, by decide +kernel, img_ok 2 (by decide) (by decide) h⟩

/-- What meets the hypotheses of the clauses of StagesEnd. -/
theorem wit_StagesEnd :
    (∃ (i : Instr) (r : StageRef) (e : Nat) (sd : Nat) (op : Nat) (s : State), stageOf i = some (r, e, sd, op) ∧ (∀ c, ¬ stageReady r e sd op c s)) ∧
    (∃ (r : StageRef) (s : State) (c : StageCtx), stageCtx r s = some c) ∧
    (∃ (c : StageCtx) (o : StageOut), (c.lig.ruled = false ∨ c.lig.maxRows = 0 ∨ o.grp.rows ≤ c.lig.maxRows ∨ c.k ≠ 0 ∧ c.lig.maxRows < c.grp.rows)) ∧
    (∃ (c : StageCtx) (o : StageOut), c.lig.ruled = true ∧ c.lig.maxRows ≠ 0 ∧ c.lig.maxRows < o.grp.rows ∧ (c.k = 0 ∨ c.grp.rows ≤ c.lig.maxRows)) ∧
    (∃ (s : State) (r : StageRef) (c : StageCtx), stageReady r 0 0 1 c s) ∧
    (∃ (s : State) (r : StageRef) (c : StageCtx), stageReady r 0 0 2 c s) ∧
    (∃ (s : State) (r : StageRef) (c : StageCtx), stageReady r 1 0 1 c s) ∧
    (∃ (s : State) (r : StageRef) (c : StageCtx), stageReady r 1 0 2 c s ∧ (newRelease c (joinOf s c.slot (joinAt c.plan.image.blob c.st.param).table) =
     false ∨ probing s c (joinAt c.plan.image.blob c.st.param).table = false)) :=
  ⟨⟨.filter r0, r0, 0, 0, 1, up, rfl, fun c h => by simp [stageReady, stageCtx, plan?, look, up, State.reset] at h⟩,
   ⟨r0, stUp (plG st0 (zeros 64)) 1 [], cx (plG st0 (zeros 64)) (st0) 1 [], (ready rfl rfl rfl rfl rfl rfl rfl).1⟩,
   ⟨cx (plG st0 (zeros 64)) st0 1 [], ⟨grpC 1 [], [], up⟩, .inl rfl⟩,
   ⟨{ cx (plG st0 (zeros 64)) st0 1 [] with lig := { ligS [st0] with ruled := true } }, ⟨grpC 9 [], [], up⟩, by decide⟩,
   ⟨stUp (plG st0 (zeros 64)) 1 [], r0, cx (plG st0 (zeros 64)) (st0) 1 [], by and_intros <;> first | rfl | decide +kernel | (intro; rfl) | (intros; contradiction) | (intros; simp_all)⟩,
   ⟨stUp (plG { st0 with op := 2 } (zeros 64)) 1 [], r0, cx (plG { st0 with op := 2 } (zeros 64)) ({ st0 with op := 2 }) 1 [], by and_intros <;> first | rfl | decide +kernel | (intro; rfl) | (intros; contradiction) | (intros; simp_all)⟩,
   ⟨stUp plG1 1 [], r0, cx plG1 ⟨1, 0, 1, 0, 0, 0, 0, 0, 64, 8⟩ 1 [], ready rfl rfl rfl rfl rfl rfl rfl⟩,
   ⟨stUp plG2 1 [], r0, cx plG2 ⟨1, 0, 2, 0, 0, 0, 0, 0, 64, 8⟩ 1 [], ready rfl rfl rfl rfl rfl rfl rfl, .inl (by decide +kernel)⟩⟩

/-- What meets the hypotheses of the clauses of StagesEnd. -/
theorem wit_StagesEnd_2 :
    (∃ (s : State) (r : StageRef) (c : StageCtx), stageReady r 1 0 3 c s ∧ probeReady s c (joinAt c.plan.image.blob c.st.param).table (joinOf s c.slot
     (joinAt c.plan.image.blob c.st.param).table) = true) ∧
    (∃ (s : State) (r : StageRef) (c : StageCtx), stageReady r 1 0 4 c s) ∧
    (∃ (s : State) (r : StageRef) (c : StageCtx), stageReady r 1 0 5 c s ∧ tableSealed c.plan 4 (joinAt c.plan.image.blob c.st.param).table (joinOf s
     c.slot (joinAt c.plan.image.blob c.st.param).table) = true) ∧
    (∃ (s : State) (r : StageRef) (c : StageCtx), stageReady r 2 0 1 c s) ∧
    (∃ (s : State) (r : StageRef) (c : StageCtx), stageReady r 2 0 2 c s ∧ earlierDone c s = true) ∧
    (∃ (s : State) (r : StageRef) (c : StageCtx), stageReady r 2 0 3 c s) ∧
    (∃ (s : State) (r : StageRef) (c : StageCtx), stageReady r 5 0 1 c s) ∧
    (∃ (s : State) (r : StageRef) (c : StageCtx), stageReady r 3 0 1 c s) :=
  ⟨⟨stUp plG3 1 [], r0, cx plG3 ⟨1, 0, 3, 0, 0, 0, 0, 0, 64, 8⟩ 1 [], ready rfl rfl rfl rfl rfl rfl rfl, by decide +kernel⟩,
   ⟨stUp plG4 1 [], r0, cx plG4 ⟨1, 0, 4, 0, 0, 0, 0, 0, 64, 8⟩ 1 [], ready rfl rfl rfl rfl rfl rfl rfl⟩,
   ⟨stUp plG5 1 [], r0, cx plG5 ⟨1, 0, 5, 0, 0, 0, 0, 0, 64, 8⟩ 1 [], ready rfl rfl rfl rfl rfl rfl rfl, by decide +kernel⟩,
   ⟨stUp plG6 1 [], r0, cx plG6 ⟨2, 0, 1, 0, 0, 0, 0, 0, 64, 8⟩ 1 [], ready rfl rfl rfl rfl rfl rfl rfl⟩,
   ⟨stUp plG7 1 [], r0, cx plG7 ⟨2, 0, 2, 0, 0, 0, 0, 0, 64, 8⟩ 1 [], ready rfl rfl rfl rfl rfl rfl rfl, by decide +kernel⟩,
   ⟨stUp plG8 1 [], r0, cx plG8 ⟨2, 0, 3, 0, 0, 0, 0, 0, 64, 8⟩ 1 [], ready rfl rfl rfl rfl rfl rfl rfl⟩,
   ⟨stUp plG9 1 [], r0, cx plG9 ⟨5, 0, 1, 0, 0, 0, 0, 0, 64, 8⟩ 1 [], ready rfl rfl rfl rfl rfl rfl rfl⟩,
   ⟨stUp plG11 1 [], r0, cx plG11 ⟨3, 0, 1, 0, 0, 0, 0, 0, 64, 8⟩ 1 [], ready rfl rfl rfl rfl rfl rfl rfl⟩⟩

/-- What meets the hypotheses of the clauses of StagesEnd. -/
theorem wit_StagesEnd_3 :
    (∃ (s : State) (r : StageRef) (c : StageCtx), stageReady r 3 0 2 c s) ∧
    (∃ (s : State) (r : StageRef) (c : StageCtx), stageReady r 3 0 3 c s) ∧
    (∃ (s : State) (r : StageRef) (c : StageCtx), stageReady r 3 0 4 c s ∧ boundOf c.plan 9 (matchAt c.plan.image.blob c.st.param).region ≠ none) ∧
    (∃ (s : State) (r : StageRef) (c : StageCtx), stageReady r 3 0 5 c s ∧ boundOf c.plan 9 (leAt (slice c.plan.image.blob c.st.param 8) 6 2) ≠ none) ∧
    (∃ (s : State) (r : StageRef) (c : StageCtx), stageReady r 4 0 1 c s) ∧
    (∃ (s : State) (r : StageRef) (c : StageCtx), stageReady r 4 0 4 c s) ∧
    (∃ (s : State) (r : StageRef) (c : StageCtx), stageReady r 4 0 3 c s ∧ (∀ (tc : TableCtx) (es : List (Entry × Nat)), tableCtx s c.slot (gatherAt
     c.plan.image.blob c.st.param).table = some tc → Bag.entries es ∈ bagsOf c (gatherAt c.plan.image.blob c.st.param) tc.d → ∀ (n w a od : Nat),
     (Entry.row n, w) ∈ es → rowPlace s tc (some (c.core / 96)) n = Home.here od a → (translate s a).isSome = true ∧ Machine.reaches s (c.core / 96) od =
     true)) ∧
    (∃ (s : State) (r : StageRef) (c : StageCtx), stageReady r 4 0 2 c (noteTry r s) ∧ (c.plan.image.ruled = true ∨ ∀ (tc : TableCtx), tableCtx (noteTry r
     s) c.slot (gatherAt c.plan.image.blob c.st.param).table = some tc → c.lig.groups = 1 ∧ poolWaits (tableOf (noteTry r s) c.slot (gatherAt
     c.plan.image.blob c.st.param).table) (c.core / 96) (c.grp.tick.getD (nowTick (noteTry r s)) - tc.d.lag) (areaBags (noteTry r s) (areaDva c (gatherAt
     c.plan.image.blob c.st.param) (c.grp.tick.getD (nowTick (noteTry r s)) - tc.d.lag)) (gatherAt c.plan.image.blob c.st.param).handleBytes) = false)) :=
  ⟨⟨stUp plG12 1 [], r0, cx plG12 ⟨3, 0, 2, 0, 0, 0, 0, 0, 64, 8⟩ 1 [], ready rfl rfl rfl rfl rfl rfl rfl⟩,
   ⟨stUp plG13 1 [], r0, cx plG13 ⟨3, 0, 3, 0, 0, 0, 0, 0, 64, 8⟩ 1 [], ready rfl rfl rfl rfl rfl rfl rfl⟩,
   ⟨stUp plG15 1 [], r0, cx plG15 ⟨3, 0, 4, 0, 0, 0, 0, 0, 64, 8⟩ 1 [], ready rfl rfl rfl rfl rfl rfl rfl, by decide +kernel⟩,
   ⟨stUp plG16 1 [], r0, cx plG16 ⟨3, 0, 5, 0, 0, 0, 0, 0, 64, 8⟩ 1 [], ready rfl rfl rfl rfl rfl rfl rfl, by decide +kernel⟩,
   ⟨stUp plG22 1 [], r0, cx plG22 ⟨4, 0, 1, 0, 0, 0, 0, 0, 64, 8⟩ 1 [], ready rfl rfl rfl rfl rfl rfl rfl⟩,
   ⟨stUp plG25 1 [], r0, cx plG25 ⟨4, 0, 4, 0, 0, 0, 0, 0, 64, 8⟩ 1 [], ready rfl rfl rfl rfl rfl rfl rfl⟩,
   ⟨stUp plG20 1 [], r0, cx plG20 (⟨4, 0, 3, 0, 0, 0, 0, 0, 64, 8⟩) 1 [], ready rfl rfl rfl rfl rfl rfl rfl, fun tc es h => by rw [show tableCtx _ _ _ = none by simp only [tableCtx]; decide +kernel] at h; cases h⟩,
   ⟨stUpT plG19 0, r0, cxT plG19 poolSt 0, by refine ⟨?_, ?_, ?_, ?_⟩ <;> rfl, .inr fun tc h => by rw [show tableCtx _ _ _ = none by simp only [tableCtx]; decide +kernel] at h; cases h⟩⟩

/-- What meets the hypotheses of the clauses of RelationalStages. -/
theorem wit_RelationalStages :
    (∃ (s : State) (r : StageRef) (c : StageCtx) (h : HashBlock), stageReady r 1 0 1 c s ∧ h = hashAt c.plan.image.blob c.st.param) ∧
    (∃ (rows : List JoinRow), rows.Pairwise (fun a b => a.row ≤ b.row)) ∧
    (∃ (s : State) (r : StageRef) (c : StageCtx) (jb : JoinBlock), stageReady r 1 0 5 c s ∧ jb = joinAt c.plan.image.blob c.st.param ∧ tableSealed c.plan 4
     jb.table (joinOf s c.slot jb.table) = false) ∧
    (∃ (s : State) (r : StageRef) (c : StageCtx) (jb : JoinBlock), stageReady r 1 0 5 c s ∧ jb = joinAt c.plan.image.blob c.st.param ∧ tableSealed c.plan 4
     jb.table (joinOf s c.slot jb.table) = true ∧ (joinOf s c.slot jb.table).full = true) ∧
    (∃ (s : State) (r : StageRef) (c : StageCtx) (jb : JoinBlock), stageReady r 1 0 2 c s ∧ jb = joinAt c.plan.image.blob c.st.param ∧ (newRelease c
     (joinOf s c.slot jb.table) = false ∨ probing s c jb.table = false)) ∧
    (∃ (s : State) (r : StageRef) (c : StageCtx) (jb : JoinBlock), stageReady r 1 0 3 c s ∧ jb = joinAt c.plan.image.blob c.st.param ∧ probeReady s c
     jb.table (joinOf s c.slot jb.table) = false) ∧
    (∃ (s : State) (r : StageRef) (c : StageCtx) (jb : JoinBlock), stageReady r 1 0 3 c s ∧ jb = joinAt c.plan.image.blob c.st.param ∧ probeReady s c
     jb.table (joinOf s c.slot jb.table) = true ∧ (joinOf s c.slot jb.table).full = true) ∧
    (∃ (s : State) (r : StageRef) (c : StageCtx) (jb : JoinBlock), stageReady r 1 0 3 c s ∧ jb = joinAt c.plan.image.blob c.st.param ∧ probeReady s c
     jb.table (joinOf s c.slot jb.table) = true ∧ (joinOf s c.slot jb.table).full = false) :=
  ⟨⟨stUp plG1 1 [], r0,
    cx plG1 (⟨1, 0, 1, 0, 0, 0, 0, 0, 64, 8⟩) 1 [], _, ready rfl rfl rfl rfl rfl rfl rfl,
    rfl⟩,
   ⟨[⟨1, [], []⟩, ⟨1, [], []⟩], by decide⟩,
   ⟨stUp ({ plG5 with image := { plG5.image with ligatures := [ligS [⟨1, 0, 5, 0, 0, 0, 0, 0, 64, 8⟩, ⟨1, 0, 4, 0, 0, 0, 0, 0, 64, 8⟩]] } }) 1 [], r0, cx ({ plG5 with image := { plG5.image with ligatures := [ligS [⟨1, 0, 5, 0, 0, 0, 0, 0, 64, 8⟩, ⟨1, 0, 4, 0, 0, 0, 0, 0, 64, 8⟩]] } }) ⟨1, 0, 5, 0, 0, 0, 0, 0, 64, 8⟩ 1 [] [⟨1, 0, 4, 0, 0, 0, 0, 0, 64, 8⟩], _, ready rfl rfl rfl rfl rfl rfl rfl, rfl,
    by decide +kernel⟩,
   ⟨{ stUp plG5 1 [] with joins := [((0, 0), { rows := [], done := [], full := true, partials := [], excluded := [], keyTypes := [], aggTypes := [] })] }, r0, cx plG5 ⟨1, 0, 5, 0, 0, 0, 0, 0, 64, 8⟩ 1 [], _, ready rfl rfl rfl rfl rfl rfl rfl, rfl,
    by decide +kernel, by decide +kernel⟩,
   ⟨{ stUp ({ plG2 with image := { plG2.image with ligatures := [ligS [⟨1, 0, 2, 0, 0, 0, 0, 0, 64, 8⟩, ⟨1, 0, 3, 0, 0, 0, 0, 0, 64, 8⟩]] } }) 1 [] with joins := [((0, 0), { rows := [], done := [0], full := false, partials := [], excluded := [], keyTypes := [], aggTypes := [] })] }, r0, cx ({ plG2 with image := { plG2.image with ligatures := [ligS [⟨1, 0, 2, 0, 0, 0, 0, 0, 64, 8⟩, ⟨1, 0, 3, 0, 0, 0, 0, 0, 64, 8⟩]] } }) ⟨1, 0, 2, 0, 0, 0, 0, 0, 64, 8⟩ 1 [] [⟨1, 0, 3, 0, 0, 0, 0, 0, 64, 8⟩], _, by and_intros <;> first | rfl | decide +kernel | (intro; rfl) | (intros; contradiction) | (intros; simp_all)⟩,
   ⟨stUp ({ plG3 with image := { plG3.image with ligatures := [ligS [⟨1, 0, 3, 0, 0, 0, 0, 0, 64, 8⟩, ⟨1, 0, 2, 0, 0, 0, 0, 0, 64, 8⟩]] } }) 1 [], r0, cx ({ plG3 with image := { plG3.image with ligatures := [ligS [⟨1, 0, 3, 0, 0, 0, 0, 0, 64, 8⟩, ⟨1, 0, 2, 0, 0, 0, 0, 0, 64, 8⟩]] } }) ⟨1, 0, 3, 0, 0, 0, 0, 0, 64, 8⟩ 1 [] [⟨1, 0, 2, 0, 0, 0, 0, 0, 64, 8⟩], _, ready rfl rfl rfl rfl rfl rfl rfl, rfl,
    by decide +kernel⟩,
   ⟨{ stUp plG3 1 [] with joins := [((0, 0), { rows := [], done := [], full := true, partials := [], excluded := [], keyTypes := [], aggTypes := [] })] }, r0, cx plG3 ⟨1, 0, 3, 0, 0, 0, 0, 0, 64, 8⟩ 1 [], _, ready rfl rfl rfl rfl rfl rfl rfl, rfl,
    by decide +kernel, by decide +kernel⟩,
   ⟨stUp plG3 1 [], r0,
    cx plG3 (⟨1, 0, 3, 0, 0, 0, 0, 0, 64, 8⟩) 1 [], _, ready rfl rfl rfl rfl rfl rfl rfl,
    rfl, by decide +kernel, by decide +kernel⟩⟩

/-- What meets the hypotheses of the clauses of RelationalStages. -/
theorem wit_RelationalStages_2 :
    (∃ (s : State) (r : StageRef) (c : StageCtx) (p : PredBlock), stageReady r 0 0 1 c s ∧ p = predAt c.plan.image.blob c.st.param) ∧
    (∃ (p : PredBlock) (n : PredNode), p.tree = [n] ∧ n.kind = 1 ∧ n.col2 = 65535) ∧
    (∃ (p : PredBlock) (n : PredNode), p.tree = [n] ∧ n.kind = 1 ∧ n.col2 ≠ 65535) ∧
    (∃ (p : PredBlock) (n : PredNode), p.tree = [n] ∧ n.kind = 3) ∧
    (∃ (p : PredBlock) (n : PredNode), p.tree = [n] ∧ n.kind = 4) ∧
    (∃ (s : State) (c : StageCtx) (p : PredBlock) (a : PredNode) (b : PredNode) (n : PredNode), p.tree = [a, b, n] ∧ a.kind < 16 ∧ b.kind < 16 ∧ n.children
     = 2 ∧ (leafTruth c s a).length = c.grp.rows ∧ (leafTruth c s b).length = c.grp.rows ∧ n.kind = 16) ∧
    (∃ (s : State) (c : StageCtx) (p : PredBlock) (a : PredNode) (b : PredNode) (n : PredNode), p.tree = [a, b, n] ∧ a.kind < 16 ∧ b.kind < 16 ∧ n.children
     = 2 ∧ (leafTruth c s a).length = c.grp.rows ∧ (leafTruth c s b).length = c.grp.rows ∧ n.kind = 17) ∧
    (∃ (s : State) (r : StageRef) (c : StageCtx) (p : PredBlock) (ts : List Truth) (kept : List Nat), stageReady r 0 0 2 c s ∧ p = predAt c.plan.image.blob
     c.st.param ∧ ts = predEval c s p ∧ kept = List.filter (fun i => Option.any (fun t => t.fst || p.keepUnknown && t.snd) ts[i]?) (List.range ts.length)) :=
  ⟨⟨stUp (plG st0 (zeros 64)) 1 [], r0, cx (plG st0 (zeros 64)) (st0) 1 [], _, ready rfl rfl rfl rfl rfl rfl rfl, rfl⟩,
   ⟨⟨false, 1, 1, 1, 0, [⟨1, 0, 0, 0, 0, 0xffff, 0⟩]⟩, ⟨1, 0, 0, 0, 0, 0xffff, 0⟩, rfl, by decide, by decide⟩,
   ⟨⟨false, 1, 1, 1, 0, [⟨1, 0, 0, 0, 0, 0, 0⟩]⟩, ⟨1, 0, 0, 0, 0, 0, 0⟩, rfl, by decide, by decide⟩,
   ⟨⟨false, 1, 1, 1, 0, [⟨3, 0, 0, 0, 0, 0xffff, 0⟩]⟩, ⟨3, 0, 0, 0, 0, 0xffff, 0⟩, rfl, by decide⟩,
   ⟨⟨false, 1, 1, 1, 0, [⟨4, 0, 0, 0, 0, 0xffff, 0⟩]⟩, ⟨4, 0, 0, 0, 0, 0xffff, 0⟩, rfl, by decide⟩,
   ⟨up, cx (plG st0 (zeros 64)) (st0) 2 [], ⟨false, 3, 1, 1, 0, [⟨3, 0, 0, 0, 0, 0xffff, 0⟩, ⟨4, 0, 0, 0, 0, 0xffff, 0⟩, ⟨0x10, 0, 0, 2, 0, 0, 0⟩]⟩, ⟨3, 0, 0, 0, 0, 0xffff, 0⟩, ⟨4, 0, 0, 0, 0, 0xffff, 0⟩, ⟨0x10, 0, 0, 2, 0, 0, 0⟩, rfl, by decide, by decide, by decide, by decide +kernel, by decide +kernel, by decide⟩,
   ⟨up, cx (plG st0 (zeros 64)) (st0) 2 [], ⟨false, 3, 1, 1, 0, [⟨3, 0, 0, 0, 0, 0xffff, 0⟩, ⟨4, 0, 0, 0, 0, 0xffff, 0⟩, ⟨0x11, 0, 0, 2, 0, 0, 0⟩]⟩, ⟨3, 0, 0, 0, 0, 0xffff, 0⟩, ⟨4, 0, 0, 0, 0, 0xffff, 0⟩, ⟨0x11, 0, 0, 2, 0, 0, 0⟩, rfl, by decide, by decide, by decide, by decide +kernel, by decide +kernel, by decide⟩,
   ⟨stUp (plG { st0 with op := 2 } (zeros 64)) 1 [], r0, cx (plG { st0 with op := 2 } (zeros 64)) ({ st0 with op := 2 }) 1 [], _, _, _, ready rfl rfl rfl rfl rfl rfl rfl, rfl, rfl, rfl⟩⟩

/-- What meets the hypotheses of the clauses of RelationalStages. -/
theorem wit_RelationalStages_3 :
    (∃ (s : State) (r : StageRef) (c : StageCtx) (jb : JoinBlock), stageReady r 1 0 2 c s ∧ jb = joinAt c.plan.image.blob c.st.param ∧ newRelease c (joinOf
     s c.slot jb.table) = true ∧ probing s c jb.table = true) ∧
    (∃ (s : State) (r : StageRef) (c : StageCtx) (jb : JoinBlock) (j : Join) (keys : List Column) (aggs : List (Nat × Column)), stageReady r 1 0 4 c s ∧ jb
     = joinAt c.plan.image.blob c.st.param ∧ j = (if newRelease c (joinOf s c.slot jb.table) = true then
     { joinOf s c.slot jb.table with done := [], full := false, partials := [], excluded := [] } else joinOf s c.slot jb.table) ∧ keys = List.map c.col
     (joinKeys c.plan.image.blob jb) ∧ aggs = aggColumns c jb) ∧
    (∃ (s : State) (r : StageRef) (c : StageCtx) (jb : JoinBlock) (codes : List (Nat × Nat)) (keys : List Column) (part : Nat) (gs : List AggGroup) (ex :
     Nat) (spill : Nat) (g : AggGroup), stageReady r 1 0 5 c s ∧ jb = joinAt c.plan.image.blob c.st.param ∧ tableSealed c.plan 4 jb.table (joinOf s c.slot
     jb.table) = true ∧ (joinOf s c.slot jb.table).full = false ∧ codes = (List.map (fun x => x.snd) (joinItems c.plan.image.blob jb)).zip (joinOf s c.slot
     jb.table).aggTypes ∧ keys = List.map (fun x => { kind := x.fst, fmt := x.snd.fst, lanes := x.snd.snd, rows := [] }) (joinOf s c.slot
     jb.table).keyTypes ∧ part = (List.takeWhile (fun x => x != c.core) (ownerCores c.plan jb)).length ∧ gs = mergeGroups jb codes part (joinOf s c.slot
     jb.table).partials ∧ ex = (if part = 0 then (List.map (fun x => x.snd) (joinOf s c.slot jb.table).excluded).sum else 0) ∧ spill = (List.map (fun i =>
     pastPad jb (groupTable jb (mergeGroups jb codes i (joinOf s c.slot jb.table).partials))) (List.range jb.ownerCount)).sum ∧ g ∈ gs) ∧
    (∃ (s : State) (r : StageRef) (c : StageCtx) (jb : JoinBlock) (codes : List (Nat × Nat)) (keys : List Column) (part : Nat) (gs : List AggGroup) (ex :
     Nat) (spill : Nat), stageReady r 1 0 5 c s ∧ jb = joinAt c.plan.image.blob c.st.param ∧ tableSealed c.plan 4 jb.table (joinOf s c.slot jb.table) =
     true ∧ (joinOf s c.slot jb.table).full = false ∧ codes = (List.map (fun x => x.snd) (joinItems c.plan.image.blob jb)).zip (joinOf s c.slot
     jb.table).aggTypes ∧ keys = List.map (fun x => { kind := x.fst, fmt := x.snd.fst, lanes := x.snd.snd, rows := [] }) (joinOf s c.slot
     jb.table).keyTypes ∧ part = (List.takeWhile (fun x => x != c.core) (ownerCores c.plan jb)).length ∧ gs = mergeGroups jb codes part (joinOf s c.slot
     jb.table).partials ∧ ex = (if part = 0 then (List.map (fun x => x.snd) (joinOf s c.slot jb.table).excluded).sum else 0) ∧ spill = (List.map (fun i =>
     pastPad jb (groupTable jb (mergeGroups jb codes i (joinOf s c.slot jb.table).partials))) (List.range jb.ownerCount)).sum) :=
  ⟨⟨{ stUp (plTwo (stJ 2) (stJ 3)) 1 [] with joins := [((0, 0), joinOld)], sched := [(0, { Cluster.reset with running := [runLate], ready := [tsk false] })] }, r0, { cx (plTwo (stJ 2) (stJ 3)) (stJ 2) 1 [] [stJ 3] with run := runLate }, _, ⟨by rfl, rfl, rfl, rfl⟩, rfl, by decide +kernel, by decide +kernel⟩,
   ⟨stUp plG4 1 [], r0, cx plG4 ⟨1, 0, 4, 0, 0, 0, 0, 0, 64, 8⟩ 1 [], _, _, _, _, ready rfl rfl rfl rfl rfl rfl rfl, rfl, rfl, rfl, rfl⟩,
   ⟨{ stUp plOwn 1 [] with joins := [((0, 0), joinPart)] }, r0, cx plOwn (stJ 5) 1 [], _, _, _, _, _, _, _, ⟨[], [], []⟩, ready rfl rfl rfl rfl rfl rfl rfl, rfl, by decide +kernel, by decide +kernel, rfl, rfl, rfl, rfl, rfl, rfl, by decide +kernel⟩,
   ⟨{ stUp plOwn 1 [] with joins := [((0, 0), joinPart)] }, r0, cx plOwn (stJ 5) 1 [], _, _, _, _, _, _, _, ready rfl rfl rfl rfl rfl rfl rfl, rfl, by decide +kernel, by decide +kernel, rfl, rfl, rfl, rfl, rfl, rfl⟩⟩

/-- What meets the hypotheses of the clauses of ShapeAndMatrixStages. -/
theorem wit_ShapeAndMatrixStages :
    (∃ (s : State) (r : StageRef) (c : StageCtx) (b : ShapeBlock), stageReady r 2 0 1 c s ∧ b = shapeAt c.plan.image.blob c.st.param) ∧
    (∃ (en : ShapeEntry), en.kind = 1) ∧
    (∃ (en : ShapeEntry), en.kind = 2 ∧ en.fn = 2) ∧
    (∃ (en : ShapeEntry), en.kind = 3 ∧ en.fn = 0) ∧
    (∃ (s : State) (r : StageRef) (c : StageCtx), stageReady r 2 0 3 c s) ∧
    (∃ (s : State) (r : StageRef) (c : StageCtx) (b : MatrixBlock) (l : Layer), stageReady r 5 0 1 c s ∧ b = matrixAt c.plan.image.blob c.st.param ∧
     b.layers = [l] ∧ l.kind = 1 ∧ c.k = 0) ∧
    (∃ (x : Nat), fp32.isNan x = true) ∧
    (∃ (l : Layer) (d : LayerData), d.w.length = l.n) :=
  ⟨⟨stUp plG6 1 [], r0,
    cx plG6 (⟨2, 0, 1, 0, 0, 0, 0, 0, 64, 8⟩) 1 [], _, ready rfl rfl rfl rfl rfl rfl rfl,
    rfl⟩,
   ⟨⟨1, 0, 0, 0, 0, 0, 1, 0, 0, 0, 0, false⟩, rfl⟩,
   ⟨⟨2, 2, 0, 0, 0, 0, 1, 0, 0, 0, 0, false⟩, by decide⟩,
   ⟨⟨3, 0, 0, 0, 0, 0, 1, 0, 0, 0, 0, false⟩, by decide⟩,
   ⟨stUp plG8 1 [], r0,
    cx plG8 (⟨2, 0, 3, 0, 0, 0, 0, 0, 64, 8⟩) 1 [], ready rfl rfl rfl rfl rfl rfl rfl⟩,
   ⟨stUp plG9 1 [], r0,
    cx plG9 (⟨5, 0, 1, 0, 0, 0, 0, 0, 64, 8⟩) 1 [],
    _, layerAt (imgT.blob.take 64 ++ (zeros 9 ++ [1] ++ zeros 22 ++ [1] ++ zeros 31)) 96, ready rfl rfl rfl rfl rfl rfl rfl, rfl,
    by decide +kernel, by decide +kernel, rfl⟩,
   ⟨0x7fc00000, by decide +kernel⟩,
   ⟨⟨1, 0, 0, 1, 0, 3, 0, 1, 1, 0, 0, 0, 0, false, false, false⟩, ⟨[[0]], none, none⟩, by decide⟩⟩

/-- What meets the hypotheses of the clauses of ShapeAndMatrixStages. -/
theorem wit_ShapeAndMatrixStages_2 :
    (∃ (l : Layer) (d : LayerData) (row : List Nat) (n : Nat) (w : List Nat), d.w.length = l.n ∧ l.k ≤ row.length ∧ d.w[n]? = some w ∧ l.inFmt = 1 ∧
     l.outFmt = 3) ∧
    (∃ (l : Layer) (d : LayerData) (row : List Nat) (n : Nat) (w : List Nat), d.w.length = l.n ∧ l.k ≤ row.length ∧ d.w[n]? = some w ∧ l.inFmt ≠ 1 ∧
     d.scale = none ∧ d.bias = none) ∧
    (∃ (s : State) (r : StageRef) (c : StageCtx) (b : ShapeBlock) (en : ShapeEntry) (p : Partial), stageReady r 2 0 2 c s ∧ earlierDone c s = true ∧ b =
     shapeAt c.plan.image.blob c.st.param ∧ b.entries = [en] ∧ sketchOf s c.plan en.ref = none ∧ p = (List.find? (fun x => x.core == c.core && x.epoch ==
     c.grp.epoch && x.col == en.statCol) (statObj s c.slot en.ref).partials).getD (Partial.empty c.core c.grp.epoch en.statCol none)) ∧
    (∃ (s : State) (r : StageRef) (c : StageCtx), stageReady r 2 0 2 c s ∧ earlierDone c s = false) :=
  ⟨⟨⟨1, 0, 0, 1, 0, 3, 0, 1, 1, 0, 0, 0, 0, false, false, false⟩, ⟨[[7]], none, none⟩, [5, 6], 0, [7], by decide⟩,
   ⟨⟨1, 0, 0, 3, 0, 3, 0, 1, 1, 0, 0, 0, 0, false, false, false⟩, ⟨[[7]], none, none⟩, [5, 6], 0, [7], rfl, by decide, rfl, by decide, rfl, rfl⟩,
   ⟨{ stUp plG7 1 [] with mem := writeCells [] (hbmDva 4194304) [2, 0, 0, 0, 0xff, 0xff] }, r0, cx plG7 (⟨2, 0, 2, 0, 0, 0, 0, 0, 64, 8⟩) 1 [], _, shapeEntryAt (imgT.blob.take 64 ++ (zeros 6 ++ [1, 0] ++ zeros 24 ++ [1, 0, 0xb0, 0] ++ zeros 18 ++ [8, 0] ++ zeros 10)) 96, _, by and_intros <;> first | rfl | decide +kernel | (intro; rfl) | (intros; contradiction) | (intros; simp_all)⟩,
   ⟨{ stUp plG7 1 [] with plans := [(0, { plG7 with image := { plG7.image with ligatures := [{ ligS [⟨2, 0, 2, 0, 0, 0, 0, 0, 64, 8⟩] with groups := 2, nibs := 3 }] } })], nibs := [(1, [{ grpC 1 [] with num := 1 }])] }, ⟨0, 0, 0, 1, none⟩, _, ⟨rfl, rfl, rfl, rfl⟩, by decide +kernel⟩⟩

/-- What meets the hypotheses of the clauses of SelectMatchAndGatherStages. -/
theorem wit_SelectMatchAndGatherStages :
    (∃ (s : State) (r : StageRef) (c : StageCtx) (b : SelBlock), stageReady r 3 0 1 c s ∧ b = selAt c.plan.image.blob c.st.param ∧ b.release = false) ∧
    (∃ (s : State) (r : StageRef) (c : StageCtx) (b : SelBlock) (ls : List InList), stageReady r 3 0 2 c s ∧ b = selAt c.plan.image.blob c.st.param ∧ ls =
     ((List.range b.lists).map fun i => inListAt b (c.inputBytes s) (i * listLen b)) ∧ (∀ l ∈ ls, l.matches_ = true)) ∧
    (∃ (s : State) (r : StageRef) (c : StageCtx) (b : SelBlock), stageReady r 3 0 3 c s ∧ b = selAt c.plan.image.blob c.st.param) ∧
    (∃ (s : State) (r : StageRef) (c : StageCtx) (b : MatchBlock), stageReady r 3 0 4 c s ∧ b = matchAt c.plan.image.blob c.st.param ∧ boundOf c.plan 9
     b.region = none) ∧
    (∃ (s : State) (r : StageRef) (c : StageCtx) (b : MatchBlock) (reg : Bound), stageReady r 3 0 4 c s ∧ b = matchAt c.plan.image.blob c.st.param ∧
     boundOf c.plan 9 b.region = some reg ∧ b.bitmap = false) ∧
    (∃ (s : State) (r : StageRef) (c : StageCtx) (reg : Bound), stageReady r 3 0 5 c s ∧ boundOf c.plan 9 (leAt (slice c.plan.image.blob c.st.param 8) 6 2)
     = some reg) ∧
    (∃ (s : State) (r : StageRef) (c : StageCtx), stageReady r 3 0 5 c s ∧ boundOf c.plan 9 (leAt (slice c.plan.image.blob c.st.param 8) 6 2) = none) ∧
    (∃ (s : State) (r : StageRef) (c : StageCtx) (g : GatherBlock), g = gatherAt c.plan.image.blob c.st.param ∧ tableCtx s c.slot g.table = none ∧
     stageReady r 4 0 1 c s) :=
  ⟨⟨stUp plG10 1 [], r0,
    cx plG10 (⟨3, 0, 1, 0, 0, 0, 0, 0, 64, 8⟩) 1 [], _, ready rfl rfl rfl rfl rfl rfl rfl,
    rfl, by decide +kernel⟩,
   ⟨stUp plG12 1 [], r0,
    cx plG12 (⟨3, 0, 2, 0, 0, 0, 0, 0, 64, 8⟩) 1 [], _, _,
    ready rfl rfl rfl rfl rfl rfl rfl, rfl, rfl, by decide +kernel⟩,
   ⟨stUp plG13 1 [], r0,
    cx plG13 (⟨3, 0, 3, 0, 0, 0, 0, 0, 64, 8⟩) 1 [], _, ready rfl rfl rfl rfl rfl rfl rfl,
    rfl⟩,
   ⟨stUp plG14 1 [], r0,
    cx plG14 (⟨3, 0, 4, 0, 0, 0, 0, 0, 64, 8⟩) 1 [], _, ready rfl rfl rfl rfl rfl rfl rfl,
    rfl, by decide +kernel⟩,
   ⟨stUp plG15 1 [], r0,
    cx plG15 (⟨3, 0, 4, 0, 0, 0, 0, 0, 64, 8⟩) 1 [], _,
    ⟨9, 0, 2, 0, 0, 0, 64⟩, ready rfl rfl rfl rfl rfl rfl rfl, rfl, by decide +kernel, by decide +kernel⟩,
   ⟨stUp plG16 1 [], r0,
    cx plG16 (⟨3, 0, 5, 0, 0, 0, 0, 0, 64, 8⟩) 1 [],
    ⟨9, 0, 2, 0, 0, 0, 64⟩, ready rfl rfl rfl rfl rfl rfl rfl, by decide +kernel⟩,
   ⟨stUp plG17 1 [], r0,
    cx plG17 (⟨3, 0, 5, 0, 0, 0, 0, 0, 64, 8⟩) 1 [], ready rfl rfl rfl rfl rfl rfl rfl,
    by decide +kernel⟩,
   ⟨stUp plG18 1 [], r0,
    cx plG18 (⟨4, 0, 1, 0, 0, 0, 0, 0, 64, 8⟩) 1 [],
    gatherAt (imgT.blob.take 64 ++ (zeros 18 ++ [0xff, 0xff, 0, 0, 99, 0] ++ le 4 64 ++ zeros 36)) 64, rfl,
    (by simp only [tableCtx]; decide +kernel), ready rfl rfl rfl rfl rfl rfl rfl⟩⟩

/-- What meets the hypotheses of the clauses of SelectMatchAndGatherStages. -/
theorem wit_SelectMatchAndGatherStages_2 :
    (∃ (s : State) (r : StageRef) (c : StageCtx) (g : GatherBlock), g = gatherAt c.plan.image.blob c.st.param ∧ tableCtx s c.slot g.table = none ∧
     stageReady r 4 0 2 c s) ∧
    (∃ (s : State) (r : StageRef) (c : StageCtx) (g : GatherBlock), g = gatherAt c.plan.image.blob c.st.param ∧ tableCtx s c.slot g.table = none ∧
     stageReady r 4 0 3 c s) ∧
    (∃ (s : State) (r : StageRef) (c : StageCtx) (g : GatherBlock), g = gatherAt c.plan.image.blob c.st.param ∧ tableCtx s c.slot g.table = none ∧
     stageReady r 4 0 4 c s) ∧
    (∃ (s : State) (r : StageRef) (c : StageCtx) (g : GatherBlock) (tc : TableCtx) (n : Nat) (w : Nat) (od : Nat) (a : Nat), stageReady r 4 0 1 c s ∧ g =
     gatherAt c.plan.image.blob c.st.param ∧ tableCtx s c.slot g.table = some tc ∧ bagsOf c g tc.d = [.entries [(.row n, w)]] ∧ c.grp.num = 0 ∧
     ((c.lig.ruled = false ∨ indexCount c g ≤ c.st.max)) ∧ (tableOf s c.slot g.table).landing = [] ∧ (tableOf s c.slot g.table).reqs = [] ∧ 0 <
     tc.d.landRows ∧ 32 ≤ g.handleBytes ∧ rowHome s tc none n = .here od a ∧ (translate s a).isSome = true) ∧
    (∃ (s : State) (r : StageRef) (c : StageCtx) (g : GatherBlock) (tc : TableCtx) (n : Nat) (w : Nat) (gv : Val) (od : Nat) (a : Nat), stageReady r 4 0 4
     c s ∧ g = gatherAt c.plan.image.blob c.st.param ∧ tableCtx s c.slot g.table = some tc ∧ bagsOf c g tc.d = [.entries [(.row n, w)]] ∧ ((c.lig.ruled =
     false ∨ indexCount c g ≤ c.st.max)) ∧ gv = rowOf c g.grad 0 ∧ gv.present = true ∧ gv.blot = false ∧ rowHome s tc none n = .here od a) ∧
    (∃ (s : State) (r : StageRef) (c : StageCtx) (g : GatherBlock) (tc : TableCtx) (n : Nat) (w : Nat) (gv : Val) (dev : Nat) (od : Nat), stageReady r 4 0
     4 c s ∧ g = gatherAt c.plan.image.blob c.st.param ∧ tableCtx s c.slot g.table = some tc ∧ bagsOf c g tc.d = [.entries [(.row n, w)]] ∧ ((c.lig.ruled =
     false ∨ indexCount c g ≤ c.st.max)) ∧ gv = rowOf c g.grad 0 ∧ gv.present = true ∧ gv.blot = false ∧ rowHome s tc none n = .remote dev od) ∧
    (∃ (b : SelBlock) (es : List (Nat × Nat)) (x : Nat × Nat), x ∈ (selectBest b es).fst) ∧
    (∃ (b : SelBlock) (es : List (Nat × Nat)) (y : Nat × Nat) (x : Nat × Nat), y ∈ es ∧ ¬y ∈ (selectBest b es).fst ∧ x ∈ (selectBest b es).fst) :=
  ⟨⟨stUp plG19 1 [], r0,
    cx plG19 (⟨4, 0, 2, 0, 0, 0, 0, 0, 64, 8⟩) 1 [],
    gatherAt (imgT.blob.take 64 ++ (zeros 18 ++ [0xff, 0xff, 0, 0, 99, 0] ++ le 4 64 ++ zeros 36)) 64, rfl,
    (by simp only [tableCtx]; decide +kernel), ready rfl rfl rfl rfl rfl rfl rfl⟩,
   ⟨stUp plG20 1 [], r0,
    cx plG20 (⟨4, 0, 3, 0, 0, 0, 0, 0, 64, 8⟩) 1 [],
    gatherAt (imgT.blob.take 64 ++ (zeros 18 ++ [0xff, 0xff, 0, 0, 99, 0] ++ le 4 64 ++ zeros 36)) 64, rfl,
    (by simp only [tableCtx]; decide +kernel), ready rfl rfl rfl rfl rfl rfl rfl⟩,
   ⟨stUp plG21 1 [], r0,
    cx plG21 (⟨4, 0, 4, 0, 0, 0, 0, 0, 64, 8⟩) 1 [],
    gatherAt (imgT.blob.take 64 ++ (zeros 18 ++ [0xff, 0xff, 0, 0, 99, 0] ++ le 4 64 ++ zeros 36)) 64, rfl,
    (by simp only [tableCtx]; decide +kernel), ready rfl rfl rfl rfl rfl rfl rfl⟩,
   ⟨stUp plG22 1 [⟨1, 4, 1, [⟨true, false, [], [⟨3, true, false⟩]⟩]⟩],
    r0,
    cx plG22 (⟨4, 0, 1, 0, 0, 0, 0, 0, 64, 8⟩) 1 [⟨1, 4, 1, [⟨true, false, [], [⟨3, true, false⟩]⟩]⟩],
    gatherAt (imgT.blob.take 64 ++ (zeros 18 ++ [0xff, 0xff, 0, 0, 5, 0] ++ le 4 64 ++ zeros 36)) 64,
    ctxT plG22 5, 3, 0x3f800000, 0,
    hbmDva 48, ready rfl rfl rfl rfl rfl rfl rfl, rfl, tableCtx_of (by decide +kernel) (by decide +kernel) rfl, by decide +kernel,
    by decide, by decide, by decide +kernel, by decide +kernel, by decide +kernel, by decide +kernel, by decide +kernel,
    by decide +kernel⟩,
   ⟨stUp plG25 1 [⟨1, 4, 1, [⟨true, false, [], [⟨3, true, false⟩]⟩]⟩],
    r0,
    cx plG25 (⟨4, 0, 4, 0, 0, 0, 0, 0, 64, 8⟩) 1 [⟨1, 4, 1, [⟨true, false, [], [⟨3, true, false⟩]⟩]⟩],
    gatherAt (imgT.blob.take 64 ++ (zeros 18 ++ [0xff, 0xff, 0, 0, 5, 0] ++ le 4 64 ++ zeros 36)) 64,
    ctxT plG25 5, 3, 0x3f800000, _, 0,
    hbmDva 48, ready rfl rfl rfl rfl rfl rfl rfl, rfl, tableCtx_of (by decide +kernel) (by decide +kernel) rfl, by decide +kernel,
    .inl rfl, rfl, by decide +kernel, by decide +kernel, by decide +kernel⟩,
   ⟨{ stUp plG25 1 [⟨1, 4, 1, [⟨true, false, [], [⟨3, true, false⟩]⟩]⟩] with tables := [((0, 5), Table.fresh 5 [{ own0 with home := 5 * 2 ^ 47 }])] },
    r0,
    cx plG25 (⟨4, 0, 4, 0, 0, 0, 0, 0, 64, 8⟩) 1 [⟨1, 4, 1, [⟨true, false, [], [⟨3, true, false⟩]⟩]⟩],
    gatherAt (imgT.blob.take 64 ++ (zeros 18 ++ [0xff, 0xff, 0, 0, 5, 0] ++ le 4 64 ++ zeros 36)) 64,
    ctxT plG25 5, 3, 0x3f800000, _, 5,
    0, ready rfl rfl rfl rfl rfl rfl rfl, rfl, tableCtx_of (by decide +kernel) (by decide +kernel) rfl, by decide +kernel, .inl rfl,
    rfl, by decide +kernel, by decide +kernel, by decide +kernel⟩,
   ⟨⟨false, false, false, 8, 1, 1, 0, 0, 0⟩, [(1, 0), (2, 1)], (2, 1), by decide +kernel⟩,
   ⟨⟨false, false, false, 8, 1, 1, 0, 0, 0⟩, [(1, 0), (2, 1)], (1, 0), (2, 1), by decide +kernel⟩⟩

/-- What meets the hypotheses of the clauses of SelectMatchAndGatherStages. -/
theorem wit_SelectMatchAndGatherStages_3 :
    (∃ (s : State) (r : StageRef) (c : StageCtx) (b : SelBlock) (es₀ : List (Nat × Nat)) (k₀ : Nat) (g₀ : Nat) (es : List (Nat × Nat)) (k : Nat),
     stageReady r 3 0 1 c s ∧ b = selAt c.plan.image.blob c.st.param ∧ b.release = true ∧ c.lig.ruled = false ∧ ((∃ l, look (c.slot, c.ligIx, c.k) s.lists
     = some l ∧ l.started = c.run.started ∧ es₀ = l.entries ∧ k₀ = l.skipped ∧ g₀ = l.groups) ∨ (∀ (l : SelList), look (c.slot, c.ligIx, c.k) s.lists =
     some l → l.started ≠ c.run.started) ∧ es₀ = [] ∧ k₀ = 0 ∧ g₀ = 0) ∧ es = es₀ ++ validEntries b (List.map (releaseOffer c b) (List.range c.grp.rows)) ∧
     k = k₀ + (List.filter (offerSkipped b) (List.map (releaseOffer c b) (List.range c.grp.rows))).length ∧ g₀ + 1 = c.lig.groups) ∧
    (∃ (s : State) (r : StageRef) (c : StageCtx) (b : SelBlock) (es₀ : List (Nat × Nat)) (k₀ : Nat) (g₀ : Nat) (es : List (Nat × Nat)) (k : Nat),
     stageReady r 3 0 1 c s ∧ b = selAt c.plan.image.blob c.st.param ∧ b.release = true ∧ c.lig.ruled = false ∧ ((∃ l, look (c.slot, c.ligIx, c.k) s.lists
     = some l ∧ l.started = c.run.started ∧ es₀ = l.entries ∧ k₀ = l.skipped ∧ g₀ = l.groups) ∨ (∀ (l : SelList), look (c.slot, c.ligIx, c.k) s.lists =
     some l → l.started ≠ c.run.started) ∧ es₀ = [] ∧ k₀ = 0 ∧ g₀ = 0) ∧ es = es₀ ++ validEntries b (List.map (releaseOffer c b) (List.range c.grp.rows)) ∧
     k = k₀ + (List.filter (offerSkipped b) (List.map (releaseOffer c b) (List.range c.grp.rows))).length ∧ g₀ + 1 ≠ c.lig.groups) ∧
    (∃ (g : Nat) (es : List LiveEntry) (w : LiveEntry), winner g es = some w) ∧
    (∃ (g : Nat) (es : List LiveEntry) (w : LiveEntry) (e : LiveEntry), winner g es = some w ∧ e ∈ es) ∧
    (∃ (s : State) (r : StageRef) (c : StageCtx), stageReady r 4 0 2 c s ∧ c.plan.image.ruled = false ∧ c.grp.tick = none) ∧
    (∃ (s : State) (r : StageRef) (c : StageCtx) (g : GatherBlock) (tc : TableCtx) (bs : List Bag), stageReady r 4 0 3 c s ∧ g = gatherAt c.plan.image.blob
     c.st.param ∧ tableCtx s c.slot g.table = some tc ∧ bs = bagsOf c g tc.d ∧ (∃ es e n a od, Bag.entries es ∈ bs ∧ (Entry.row n, e) ∈ es ∧ rowPlace s tc
     (some (c.core / 96)) n = Home.here od a ∧ (translate s a = none ∨ Machine.reaches s (c.core / 96) od = false))) ∧
    (∃ (s : State) (r : StageRef) (c : StageCtx) (g : GatherBlock) (tc : TableCtx) (bs : List Bag), stageReady r 4 0 3 c s ∧ g = gatherAt c.plan.image.blob
     c.st.param ∧ tableCtx s c.slot g.table = some tc ∧ bs = bagsOf c g tc.d ∧ (∀ (es : List (Entry × Nat)), Bag.entries es ∈ bs → ∀ (n e a od : Nat),
     (Entry.row n, e) ∈ es → rowPlace s tc (some (c.core / 96)) n = Home.here od a → (translate s a).isSome = true ∧ Machine.reaches s (c.core / 96) od =
     true)) ∧
    (∃ (s : State) (r : StageRef) (c : StageCtx), stageReady r 4 0 2 c s ∧ (c.plan.image.ruled = true ∨ c.grp.tick ≠ none)) :=
  ⟨⟨stUp plG11 1 [], r0, cx plG11 ⟨3, 0, 1, 0, 0, 0, 0, 0, 64, 8⟩ 1 [], _, [], 0, 0, _, _, ready rfl rfl rfl rfl rfl rfl rfl, rfl, by decide +kernel, by decide,
    .inr ⟨fun l h => by simp [look, stUp, tblUp, withPlan, up, State.reset] at h, rfl, rfl, rfl⟩, rfl, rfl, by decide⟩,
   ⟨{ stUp plG11 1 [] with lists := [((0, 0, 0), ⟨0, [], 0, 0, 1⟩)] }, r0, cx plG11 ⟨3, 0, 1, 0, 0, 0, 0, 0, 64, 8⟩ 1 [], _, [], 0, 1, _, _, ready rfl rfl rfl rfl rfl rfl rfl, rfl,
    by decide +kernel, by decide, .inl ⟨⟨0, [], 0, 0, 1⟩, by decide +kernel⟩, rfl, rfl, by decide⟩,
   ⟨3, [⟨3, 0, 1, 2⟩], ⟨3, 0, 1, 2⟩, by decide +kernel⟩,
   ⟨3, [⟨3, 0, 1, 2⟩], ⟨3, 0, 1, 2⟩, ⟨3, 0, 1, 2⟩, by decide +kernel⟩,
   ⟨{ stUp plG23 1 [] with rul := { up.rul with tick := 1 }, mem := writeCells [] (padDva 0 0) (le 4 1 ++ le 4 1 ++ zeros 8 ++ le 8 (2 ^ 32) ++ le 8 2), tables := [((0, 5), { tbl0 with landing := [⟨0, 0, 2, 3, 5, 0, 0, false, false, []⟩] })] }, r0, cx plG23 (⟨4, 0, 2, 0, 0, 0, 0, 0, 64, 8⟩) 1 [], by and_intros <;> first | rfl | decide +kernel | (intro; rfl) | (intros; contradiction) | (intros; simp_all)⟩,
   ⟨{ stUp plP 1 [⟨1, 4, 1, [⟨true, false, [], [⟨3, true, false⟩]⟩]⟩] with pages := [], tables := [] }, r0,
    cx plP stP 1 [⟨1, 4, 1, [⟨true, false, [], [⟨3, true, false⟩]⟩]⟩], gatherAt plP.image.blob 64,
    ⟨plP, 0, 5, ⟨2097152, 0, 0, 6, 5, 0, 3, 1, false⟩, tableDesc plP ⟨2097152, 0, 0, 6, 5, 0, 3, 1, false⟩⟩,
    [.entries [(.row 3, 0x3f800000)]], ready rfl rfl rfl rfl rfl rfl rfl, rfl,
    tableCtx_of (by decide +kernel) (by decide +kernel) rfl, by decide +kernel, [(.row 3, 0x3f800000)], 0x3f800000, 3, 48, 0,
    by decide, by decide, by decide +kernel, by decide +kernel⟩,
   ⟨stUp plG24 1 [⟨1, 4, 1, [⟨true, false, [], [⟨3, true, false⟩]⟩]⟩], r0, cx plG24 (⟨4, 0, 3, 0, 0, 0, 0, 0, 64, 8⟩) 1 [⟨1, 4, 1, [⟨true, false, [], [⟨3, true, false⟩]⟩]⟩], gatherAt (imgT.blob.take 64 ++ (zeros 18 ++ [0xff, 0xff, 0, 0, 5, 0] ++ le 4 64 ++ zeros 36)) 64, ctxT plG24 5, _, ready rfl rfl rfl rfl rfl rfl rfl, rfl, tableCtx_of (by decide +kernel) (by decide +kernel) rfl, rfl, fun es h n e a od hm hp => by
    rw [show bagsOf _ _ _ = [.entries [(.row 3, 0x3f800000)]] by decide +kernel] at h
    cases List.mem_singleton.1 h
    cases List.mem_singleton.1 hm
    rw [show rowPlace _ _ _ 3 = .here 0 (hbmDva 48) by decide +kernel] at hp
    cases hp
    decide +kernel⟩,
   ⟨stUpT plG23 1, r0, cxT plG23 poolSt 1, ⟨by rfl, rfl, rfl, rfl⟩, .inr (by decide)⟩⟩

/-- What meets the hypotheses of the clauses of SelectMatchAndGatherStages. -/
theorem wit_SelectMatchAndGatherStages_4 :
    (∃ (s : State) (v : State) (r : StageRef) (c : StageCtx) (g : GatherBlock) (tc : TableCtx) (bags : List (Nat × List (Nat × Nat))) (n : Nat), v =
     noteTry r s ∧ stageReady r 4 0 2 c v ∧ g = gatherAt c.plan.image.blob c.st.param ∧ tableCtx v c.slot g.table = some tc ∧ c.lig.groups = 1 ∧ n =
     c.grp.tick.getD (nowTick v) - tc.d.lag ∧ bags = areaBags v (areaDva c g n) g.handleBytes ∧ c.plan.image.ruled = false ∧ poolWaits (tableOf v c.slot
     g.table) (c.core / 96) n bags = true) ∧
    (∃ (s : State) (v : State) (r : StageRef) (c : StageCtx) (g : GatherBlock) (tc : TableCtx) (bags : List (Nat × List (Nat × Nat))) (n : Nat), v =
     noteTry r s ∧ stageReady r 4 0 2 c v ∧ g = gatherAt c.plan.image.blob c.st.param ∧ tableCtx v c.slot g.table = some tc ∧ c.lig.groups = 1 ∧ n =
     c.grp.tick.getD (nowTick v) - tc.d.lag ∧ bags = areaBags v (areaDva c g n) g.handleBytes ∧ (c.plan.image.ruled = true ∨ poolWaits (tableOf v c.slot
     g.table) (c.core / 96) n bags = false)) :=
  ⟨⟨poolUp, _, r0, cxT plG23 poolSt 1, gat5, ctxT plG23 5, _, _, rfl, ⟨by rfl, rfl, rfl, rfl⟩, rfl, tableCtx_of (by decide +kernel) (by decide +kernel) rfl, rfl, rfl, rfl, by decide, by decide +kernel⟩,
   ⟨stUpT plG23 1, _, r0, cxT plG23 poolSt 1, gat5, ctxT plG23 5, _, _, rfl, ⟨by rfl, rfl, rfl, rfl⟩, rfl, tableCtx_of (by decide +kernel) (by decide +kernel) rfl, rfl, rfl, rfl, .inr (by decide +kernel)⟩⟩

/-- What meets the hypotheses of the clauses of StreamTransfers. -/
theorem wit_StreamTransfers :
    (∃ (s : State) (r : StreamRef) (tag : BitVec 11), ((stream? s (refKey r) = none ∨ ∃ x, stream? s (refKey r) = some x ∧ ∀ t ∈ x.transfers, t.tag ≠
     tag.toNat))) ∧
    (∃ (s : State) (k : Nat × Nat) (x : Stream) (i : Nat), stream? s k = some x ∧ i < x.slots.length) ∧
    (∃ (s : State) (r : StreamRef) (tag : BitVec 11), ((stream? s (refKey r) = none ∨ ∃ x, stream? s (refKey r) = some x ∧ (x.ruled = false ∨ ∀ t ∈
     x.transfers, t.tag ≠ tag.toNat)))) ∧
    (∃ (s : State) (r : StreamRef) (tag : BitVec 11) (x : Stream) (t : Transfer) (b : Nat), stream? s (refKey r) = some x ∧ x.ruled = true ∧
     (x.transfers.find? fun t => t.tag == tag.toNat) = some t ∧ b = (if x.desc.priv then 2280 else max (tierLatency s (uidDie x.unit) t.dva) (tierLatency s
     (uidDie x.unit) (slotDva (streamPlan s (refKey r)) x.desc t.slot)))) ∧
    (∃ (s : State) (r : StreamRef), (stream? s (refKey r) = none ∨ ∃ x, stream? s (refKey r) = some x ∧ (x.desc.write = true ∨ x.state ≠ StrState.running ∧
     r.slot ≠ 255 ∨ x.desc.kind = 1 ∨ x.desc.kind = 2))) ∧
    (∃ (s : State) (k : Nat × Nat) (x : Stream) (i : Nat), ((x.slot i).issued ≠ 0 ∨ rangeOut s (slotDva (streamPlan s k) x.desc i) (if x.desc.write = true
     then (x.slot i).bytes else tileBytes x.desc) = false)) ∧
    (∃ (s : State) (k : Nat × Nat) (x : Stream), stream? s k = some x ∧ x.ruled = false ∧ noShared s k) ∧
    (∃ (s : State) (r : StreamRef) (x : Stream) (y : Stream) (n : Nat), stream? s (refKey r) = some x ∧ y = restartMargin (streamPlan s (refKey r)) x ∧ n =
     y.desc.ring + 1 ∧ y.slots.length = n ∧ y.desc.write = false ∧ y.state = StrState.running ∧ y.desc.kind = 0 ∧ r.slot ≠ 255 ∧ (tilesLeft (streamPlan s
     (refKey r)) y = false ∨ mayWork s (refKey r) y = false ∨ takenTiles y + lookAhead y.desc ≤ y.nextTile ∨ y.slot (y.nextTile % n) ≠ Slot.free)) :=
  ⟨⟨up, k0, 0, .inl (by decide +kernel)⟩,
   ⟨withStr rd0, (255, 0), rd0, 2, by decide +kernel⟩,
   ⟨up, k0, 0, .inl (by decide +kernel)⟩,
   ⟨withStr { rd0 with ruled := true, transfers := [tf0 false] }, k0, 3, { rd0 with ruled := true, transfers := [tf0 false] },
    tf0 false, 600, by decide +kernel⟩,
   ⟨up, k0, .inl (by decide +kernel)⟩,
   ⟨withStr { rd0 with slots := [⟨.filling, 0, 1, 1, 0, []⟩, Slot.free, Slot.free] }, (255, 0), { rd0 with slots := [⟨.filling, 0, 1, 1, 0, []⟩, Slot.free, Slot.free] }, 0, .inl (by decide +kernel)⟩,
   ⟨withStr rd0, (255, 0), rd0, by decide +kernel, by decide, no_shared rfl _⟩,
   ⟨plStr (plT .active) { rd0 with nextTile := 1 } (que []), k1, { rd0 with nextTile := 1 }, { rd0 with nextTile := 1 }, 3, by decide +kernel⟩⟩

/-- What meets the hypotheses of the clauses of StreamTransfers. -/
theorem wit_StreamTransfers_2 :
    (∃ (s : State) (r : StreamRef) (x : Stream) (y : Stream) (n : Nat), stream? s (refKey r) = some x ∧ y = restartMargin (streamPlan s (refKey r)) x ∧ n =
     y.desc.ring + 1 ∧ y.slots.length = n ∧ y.desc.write = false ∧ y.state = StrState.running ∧ y.desc.kind = 0 ∧ tilesLeft (streamPlan s (refKey r)) y =
     true ∧ mayWork s (refKey r) y = true ∧ y.nextTile < takenTiles y + lookAhead y.desc ∧ y.slot (y.nextTile % n) = Slot.free) ∧
    (∃ (s : State) (r : StreamRef) (x : Stream) (y : Stream), r.slot = 255 ∧ stream? s (refKey r) = some x ∧ y = restartMargin none x ∧ y.desc.write =
     false ∧ y.desc.kind = 0 ∧ y.ruled = false ∧ mayWork s (refKey r) y = true ∧ ((y.slot y.tail).state = SlotState.ready ∨ (y.slot y.tail).state =
     SlotState.truncated) ∧ (y.state ≠ StrState.running ∨ tilesLeft none y = false)) ∧
    (∃ (s : State) (r : StreamRef) (x : Stream) (y : Stream), r.slot = 255 ∧ stream? s (refKey r) = some x ∧ y = restartMargin none x ∧ y.desc.write =
     false ∧ y.desc.kind = 0 ∧ y.ruled = false ∧ mayWork s (refKey r) y = true ∧ (y.slot y.tail).state ≠ SlotState.ready ∧ (y.slot y.tail).state ≠
     SlotState.truncated ∧ (y.state ≠ StrState.running ∨ tilesLeft none y = false ∨ mayBegin y = false)) ∧
    (∃ (s : State) (r : StreamRef) (x : Stream) (y : Stream), r.slot = 255 ∧ stream? s (refKey r) = some x ∧ y = restartMargin none x ∧ y.desc.write =
     false ∧ y.desc.kind = 0 ∧ y.ruled = false ∧ mayWork s (refKey r) y = true ∧ ((y.slot y.tail).state = SlotState.ready ∨ (y.slot y.tail).state =
     SlotState.truncated) ∧ y.state = StrState.running ∧ tilesLeft none y = true ∧ mayBegin y = false ∧ mayBegin (freeSlot y y.tail) = true) ∧
    (∃ (s : State) (r : StreamRef) (x : Stream) (y : Stream) (base : Nat), stream? s (refKey r) = some x ∧ y = restartMargin (streamPlan s (refKey r)) x ∧
     y.desc.write = false ∧ y.state = StrState.running ∧ y.desc.kind = 3 ∧ tilesLeft (streamPlan s (refKey r)) y = true ∧ mayTransfer s (refKey r) y = true
     ∧ walkBaseDva (streamPlan s (refKey r)) y.desc = some base) ∧
    (∃ (s : State) (r : StreamRef), (stream? s (refKey r) = none ∨ ∃ x, stream? s (refKey r) = some x ∧ (issueSlot x = none ∨ x.state ≠ StrState.running ∨
     x.desc.kind ≠ 0 ∨ (∃ q, walkQueue (streamPlan s (refKey r)) x.desc = some q ∧ (x.desc.write = true ∨ mayTransfer s (refKey r) x = false)) ∨ walkQueue
     (streamPlan s (refKey r)) x.desc = none ∧ issuesNext s (refKey r) x = false))) ∧
    (∃ (s : State) (r : StreamRef) (x : Stream) (i : Nat) (q : Nat) (y : Queue) (pkt : Packet), stream? s (refKey r) = some x ∧ x.state = StrState.running
     ∧ x.desc.kind = 0 ∧ x.desc.write = false ∧ x.ruled = false ∧ noShared s (refKey r) ∧ issueSlot x = some i ∧ walkQueue (streamPlan s (refKey r)) x.desc
     = some q ∧ mayTransfer s (refKey r) x = true ∧ queueHeld s q = true ∧ queue? s q = some y ∧ y.pkts[y.read.fst]? = some pkt ∧ takeable y = false) ∧
    (∃ (s : State) (r : StreamRef) (x : Stream) (i : Nat) (q : Nat) (y : Queue) (pkt : Packet), stream? s (refKey r) = some x ∧ x.state = StrState.running
     ∧ x.desc.kind = 0 ∧ x.desc.write = false ∧ x.ruled = false ∧ noShared s (refKey r) ∧ issueSlot x = some i ∧ walkQueue (streamPlan s (refKey r)) x.desc
     = some q ∧ mayTransfer s (refKey r) x = true ∧ queueHeld s q = true ∧ queue? s q = some y ∧ y.pkts[y.read.fst]? = some pkt ∧ takeable y = true) :=
  ⟨⟨withStr rd0, k0, rd0, rd0, 3, by decide +kernel⟩,
   ⟨withStr { rd0 with state := .done, slots := [⟨.ready, 256, 1, 0, 0, []⟩, Slot.free, Slot.free] }, k0, { rd0 with state := .done, slots := [⟨.ready, 256, 1, 0, 0, []⟩, Slot.free, Slot.free] }, { rd0 with state := .done, slots := [⟨.ready, 256, 1, 0, 0, []⟩, Slot.free, Slot.free] }, by decide +kernel⟩,
   ⟨withStr { rd0 with state := .done }, k0, { rd0 with state := .done }, { rd0 with state := .done }, by decide +kernel⟩,
   ⟨withStr { rd0 with desc := { rd0.desc with n1 := 8 }, nextTile := 2, slots := [⟨.ready, 256, 1, 0, 0, []⟩, ⟨.filling, 0, 2, 0, 0, []⟩, Slot.free] }, k0, { rd0 with desc := { rd0.desc with n1 := 8 }, nextTile := 2, slots := [⟨.ready, 256, 1, 0, 0, []⟩, ⟨.filling, 0, 2, 0, 0, []⟩, Slot.free] }, { rd0 with desc := { rd0.desc with n1 := 8 }, nextTile := 2, slots := [⟨.ready, 256, 1, 0, 0, []⟩, ⟨.filling, 0, 2, 0, 0, []⟩, Slot.free] }, by decide +kernel⟩,
   ⟨withStr { rd0 with desc := { rd0.desc with kind := 3 } }, k0, { rd0 with desc := { rd0.desc with kind := 3 } },
    { rd0 with desc := { rd0.desc with kind := 3 } }, 0, by decide +kernel⟩,
   ⟨withStr rd0, k0, by and_intros <;> first | rfl | decide +kernel | (intro; rfl) | (intros; contradiction) | (intros; simp_all)⟩,
   ⟨plStr (plT .active) { rq0 with slots := [⟨.filling, 0, 1, 0, 0, []⟩, Slot.free, Slot.free] } { que [pk1] with broken := true }, k1, { rq0 with slots := [⟨.filling, 0, 1, 0, 0, []⟩, Slot.free, Slot.free] }, 0, 40, { que [pk1] with broken := true }, pk1,
    by decide +kernel, by decide, by decide, by decide, by decide, no_shared rfl _, by decide +kernel⟩,
   ⟨plStr (plT .active) { rq0 with slots := [⟨.filling, 0, 1, 0, 0, []⟩, Slot.free, Slot.free] } (que [pk1]), k1, { rq0 with slots := [⟨.filling, 0, 1, 0, 0, []⟩, Slot.free, Slot.free] }, 0, 40, que [pk1], pk1,
    by decide +kernel, by decide, by decide, by decide, by decide, no_shared rfl _, by decide +kernel⟩⟩

/-- What meets the hypotheses of the clauses of StreamTransfers. -/
theorem wit_StreamTransfers_3 :
    (∃ (s : State) (u : State) (r : StreamRef) (x : Stream) (y : Stream) (i : Nat) (base : Nat) (tag : Nat) (dva : Nat) (n : Nat), stream? s (refKey r) =
     some x ∧ x.state = StrState.running ∧ x.desc.kind = 0 ∧ issueSlot x = some i ∧ walkQueue (streamPlan s (refKey r)) x.desc = none ∧ issuesNext s
     (refKey r) x = true ∧ walkBaseDva (streamPlan s (refKey r)) x.desc = some base ∧ freeTag s x = some tag ∧ (noShared s (refKey r) ∨ x.ruled = true) ∧ u
     = ringReport (refKey r) x i s ∧ dva = walkDva base x.desc ((x.slot i).tile - 1 - x.walkBase) (readOf x.desc (x.slot i).issued) ∧ n = spanOf x.desc
     (x.slot i).issued dva (if x.desc.write = true then (x.slot i).bytes else tileBytes x.desc) ∧ y = x.slotMod i fun sl =>
     { sl with state := if x.desc.write = true then SlotState.draining else SlotState.filling, issued := sl.issued + n }) ∧
    (∃ (s : State) (u : State) (r : StreamRef) (x : Stream) (y : Stream) (i : Nat) (base : Nat) (tag : Nat) (dva : Nat) (n : Nat) (e : (Nat × Nat) ×
     Stream) (t : Transfer), stream? s (refKey r) = some x ∧ x.state = StrState.running ∧ x.desc.kind = 0 ∧ issueSlot x = some i ∧ walkQueue (streamPlan s
     (refKey r)) x.desc = none ∧ issuesNext s (refKey r) x = true ∧ walkBaseDva (streamPlan s (refKey r)) x.desc = some base ∧ freeTag s x = some tag ∧
     (noShared s (refKey r) ∨ x.ruled = true) ∧ u = ringReport (refKey r) x i s ∧ dva = walkDva base x.desc ((x.slot i).tile - 1 - x.walkBase) (readOf
     x.desc (x.slot i).issued) ∧ n = spanOf x.desc (x.slot i).issued dva (if x.desc.write = true then (x.slot i).bytes else tileBytes x.desc) ∧ y =
     (x.slotMod i fun sl => { sl with state := if x.desc.write = true then SlotState.draining else SlotState.filling, issued := sl.issued + n }) ∧ e ∈
     s.streams ∧ samePool e.snd x = true ∧ t ∈ e.snd.transfers) ∧
    (∃ (s : State) (u : State) (r : StreamRef) (x : Stream) (y : Stream) (i : Nat) (base : Nat) (tag : Nat) (dva : Nat) (n : Nat), stream? s (refKey r) =
     some x ∧ x.state = StrState.running ∧ x.desc.kind = 0 ∧ issueSlot x = some i ∧ walkQueue (streamPlan s (refKey r)) x.desc = none ∧ issuesNext s
     (refKey r) x = true ∧ walkBaseDva (streamPlan s (refKey r)) x.desc = some base ∧ freeTag s x = some tag ∧ (noShared s (refKey r) ∨ x.ruled = true) ∧ u
     = ringReport (refKey r) x i s ∧ dva = walkDva base x.desc ((x.slot i).tile - 1 - x.walkBase) (readOf x.desc (x.slot i).issued) ∧ n = spanOf x.desc
     (x.slot i).issued dva (if x.desc.write = true then (x.slot i).bytes else tileBytes x.desc) ∧ y = (x.slotMod i fun sl =>
     { sl with state := if x.desc.write = true then SlotState.draining else SlotState.filling, issued := sl.issued + n }) ∧ access u dva n = Access.ok ∧
     lineHit u (refKey r) x dva = false) ∧
    (∃ (s : State) (u : State) (r : StreamRef) (x : Stream) (y : Stream) (i : Nat) (base : Nat) (tag : Nat) (dva : Nat) (n : Nat) (page : Nat), stream? s
     (refKey r) = some x ∧ x.state = StrState.running ∧ x.desc.kind = 0 ∧ issueSlot x = some i ∧ walkQueue (streamPlan s (refKey r)) x.desc = none ∧
     issuesNext s (refKey r) x = true ∧ walkBaseDva (streamPlan s (refKey r)) x.desc = some base ∧ freeTag s x = some tag ∧ (noShared s (refKey r) ∨
     x.ruled = true) ∧ u = ringReport (refKey r) x i s ∧ dva = walkDva base x.desc ((x.slot i).tile - 1 - x.walkBase) (readOf x.desc (x.slot i).issued) ∧ n
     = spanOf x.desc (x.slot i).issued dva (if x.desc.write = true then (x.slot i).bytes else tileBytes x.desc) ∧ y = (x.slotMod i fun sl =>
     { sl with state := if x.desc.write = true then SlotState.draining else SlotState.filling, issued := sl.issued + n }) ∧ access u dva n = Access.absent
     page ∧ x.ruled = false) ∧
    (∃ (s : State) (u : State) (r : StreamRef) (x : Stream) (y : Stream) (i : Nat) (base : Nat) (tag : Nat) (dva : Nat) (n : Nat), stream? s (refKey r) =
     some x ∧ x.state = StrState.running ∧ x.desc.kind = 0 ∧ issueSlot x = some i ∧ walkQueue (streamPlan s (refKey r)) x.desc = none ∧ issuesNext s
     (refKey r) x = true ∧ walkBaseDva (streamPlan s (refKey r)) x.desc = some base ∧ freeTag s x = some tag ∧ (noShared s (refKey r) ∨ x.ruled = true) ∧ u
     = ringReport (refKey r) x i s ∧ dva = walkDva base x.desc ((x.slot i).tile - 1 - x.walkBase) (readOf x.desc (x.slot i).issued) ∧ n = spanOf x.desc
     (x.slot i).issued dva (if x.desc.write = true then (x.slot i).bytes else tileBytes x.desc) ∧ y = (x.slotMod i fun sl =>
     { sl with state := if x.desc.write = true then SlotState.draining else SlotState.filling, issued := sl.issued + n }) ∧ access u dva n = Access.out ∧
     x.ruled = false ∧ x.desc.write = false ∧ (x.slot i).committed + n < tileBytes x.desc) ∧
    (∃ (s : State) (r : StreamRef) (tag : BitVec 11) (lost : Bool) (tf : Bool) (x : Stream) (x' : Stream) (t : Transfer) (u : State) (bad : Bool) (ring :
     Nat) (read : Machine.State → State), stream? s (refKey r) = some x ∧ List.find? (fun t => t.tag == tag.toNat) x.transfers = some t ∧ x' =
     { x with transfers := x.transfers.erase t } ∧ u = setStream (refKey r) x' s ∧ bad = (lost || tf) ∧ ring = slotDva (streamPlan s (refKey r)) x.desc
     t.slot ∧ read = (fun v => if x.desc.cache = true then fillLines (consumerCluster (streamPlan s (refKey r)) x.desc) (lineOf v t.dva).toList v else v) ∧
     t.drop = true) ∧
    (∃ (s : State) (r : StreamRef) (tag : BitVec 11) (lost : Bool) (tf : Bool) (x : Stream) (x' : Stream) (t : Transfer) (u : State) (bad : Bool) (ring :
     Nat) (read : Machine.State → State), stream? s (refKey r) = some x ∧ List.find? (fun t => t.tag == tag.toNat) x.transfers = some t ∧ x' =
     { x with transfers := x.transfers.erase t } ∧ u = setStream (refKey r) x' s ∧ bad = (lost || tf) ∧ ring = slotDva (streamPlan s (refKey r)) x.desc
     t.slot ∧ read = (fun v => if x.desc.cache = true then fillLines (consumerCluster (streamPlan s (refKey r)) x.desc) (lineOf v t.dva).toList v else v) ∧
     t.drop = false ∧ bad = false ∧ x.desc.write = false) ∧
    (∃ (s : State) (r : StreamRef) (tag : BitVec 11) (lost : Bool) (tf : Bool) (x : Stream) (x' : Stream) (t : Transfer) (u : State) (bad : Bool) (ring :
     Nat) (read : Machine.State → State), stream? s (refKey r) = some x ∧ List.find? (fun t => t.tag == tag.toNat) x.transfers = some t ∧ x' =
     { x with transfers := x.transfers.erase t } ∧ u = setStream (refKey r) x' s ∧ bad = (lost || tf) ∧ ring = slotDva (streamPlan s (refKey r)) x.desc
     t.slot ∧ read = (fun v => if x.desc.cache = true then fillLines (consumerCluster (streamPlan s (refKey r)) x.desc) (lineOf v t.dva).toList v else v) ∧
     t.drop = false ∧ bad = false ∧ x.desc.write = true ∧ r.slot ≠ 255) :=
  ⟨⟨withStr (rdF), _, k0, rdF, _, 0, 0, 0, 0, 256, by decide +kernel, by decide, by decide, by decide +kernel, by decide +kernel, by decide +kernel, by decide +kernel, by decide +kernel, .inl (no_shared rfl _), rfl, by decide +kernel, by decide +kernel, rfl⟩,
   ⟨withStr ({ rdF with transfers := [tf0 false] }), _, k0, { rdF with transfers := [tf0 false] }, _, 0, 0, 0, 0, 256, ((255, 0), { rdF with transfers := [tf0 false] }), tf0 false, by decide +kernel, by decide, by decide, by decide +kernel, by decide +kernel, by decide +kernel, by decide +kernel, by decide +kernel, .inl (no_shared rfl _), rfl, by decide +kernel, by decide +kernel, rfl, by decide +kernel, by decide +kernel, by decide⟩,
   ⟨withStr (rdF), _, k0, rdF, _, 0, 0, 0, 0, 256, by decide +kernel, by decide, by decide, by decide +kernel, by decide +kernel, by decide +kernel, by decide +kernel, by decide +kernel, .inl (no_shared rfl _), rfl, by decide +kernel, by decide +kernel, rfl, by decide +kernel, by decide +kernel⟩,
   ⟨withStr ({ rdF with desc := { rd0.desc with src := 0x600000 } }), _, k0, { rdF with desc := { rd0.desc with src := 0x600000 } }, _, 0, 0x600000, 0, 0x600000, 256, 3, by decide +kernel, by decide, by decide, by decide +kernel, by decide +kernel, by decide +kernel, by decide +kernel, by decide +kernel, .inl (no_shared rfl _), rfl, by decide +kernel, by decide +kernel, rfl, by decide +kernel, by decide⟩,
   ⟨withStr ({ rdF with desc := { rd0.desc with src := 0x800000, d0 := 512 } }), _, k0, { rdF with desc := { rd0.desc with src := 0x800000, d0 := 512 } }, _, 0, 0x800000, 0, 0x800000, 256, by decide +kernel, by decide, by decide, by decide +kernel, by decide +kernel, by decide +kernel, by decide +kernel, by decide +kernel, .inl (no_shared rfl _), rfl, by decide +kernel, by decide +kernel, rfl, by decide +kernel⟩,
   ⟨withStr ({ rd0 with transfers := [tf0 true] }), k0, 3, false, false, { rd0 with transfers := [tf0 true] }, rd0, tf0 true, _, _, _, _, by decide +kernel, by decide +kernel, rfl, rfl, rfl, rfl, rfl, by decide +kernel⟩,
   ⟨withStr ({ rd0 with transfers := [tf0 false] }), k0, 3, false, false, { rd0 with transfers := [tf0 false] }, rd0, tf0 false, _, _, _, _, by decide +kernel, by decide +kernel, rfl, rfl, rfl, rfl, rfl, by decide +kernel⟩,
   ⟨plStr (plT .active) ({ wr0 with transfers := [tf0 false] }) (que []), k1, 3, false, false, { wr0 with transfers := [tf0 false] }, wr0, tf0 false, _, _, _, _, by decide +kernel, by decide +kernel, rfl, rfl, rfl, rfl, rfl, by decide +kernel⟩⟩

/-- What meets the hypotheses of the clauses of StreamTransfers. -/
theorem wit_StreamTransfers_4 :
    (∃ (s : State) (r : StreamRef) (tag : BitVec 11) (lost : Bool) (tf : Bool) (x : Stream) (x' : Stream) (t : Transfer) (u : State) (bad : Bool) (ring :
     Nat) (read : Machine.State → State), stream? s (refKey r) = some x ∧ List.find? (fun t => t.tag == tag.toNat) x.transfers = some t ∧ x' =
     { x with transfers := x.transfers.erase t } ∧ u = setStream (refKey r) x' s ∧ bad = (lost || tf) ∧ ring = slotDva (streamPlan s (refKey r)) x.desc
     t.slot ∧ read = (fun v => if x.desc.cache = true then fillLines (consumerCluster (streamPlan s (refKey r)) x.desc) (lineOf v t.dva).toList v else v) ∧
     t.drop = false ∧ bad = false ∧ x.desc.write = true ∧ r.slot = 255) ∧
    (∃ (s : State) (r : StreamRef) (tag : BitVec 11) (lost : Bool) (tf : Bool) (x : Stream) (x' : Stream) (t : Transfer) (u : State) (bad : Bool) (ring :
     Nat) (read : Machine.State → State), stream? s (refKey r) = some x ∧ List.find? (fun t => t.tag == tag.toNat) x.transfers = some t ∧ x' =
     { x with transfers := x.transfers.erase t } ∧ u = setStream (refKey r) x' s ∧ bad = (lost || tf) ∧ ring = slotDva (streamPlan s (refKey r)) x.desc
     t.slot ∧ read = (fun v => if x.desc.cache = true then fillLines (consumerCluster (streamPlan s (refKey r)) x.desc) (lineOf v t.dva).toList v else v) ∧
     t.drop = false ∧ bad = true ∧ x.desc.write = false) ∧
    (∃ (s : State) (r : StreamRef) (tag : BitVec 11) (lost : Bool) (tf : Bool) (x : Stream) (x' : Stream) (t : Transfer) (u : State) (bad : Bool) (ring :
     Nat) (read : Machine.State → State), stream? s (refKey r) = some x ∧ List.find? (fun t => t.tag == tag.toNat) x.transfers = some t ∧ x' =
     { x with transfers := x.transfers.erase t } ∧ u = setStream (refKey r) x' s ∧ bad = (lost || tf) ∧ ring = slotDva (streamPlan s (refKey r)) x.desc
     t.slot ∧ read = (fun v => if x.desc.cache = true then fillLines (consumerCluster (streamPlan s (refKey r)) x.desc) (lineOf v t.dva).toList v else v) ∧
     t.drop = false ∧ bad = true ∧ x.desc.write = true) ∧
    (∃ (s : State) (u : State) (r : StreamRef) (x : Stream) (y : Stream) (i : Nat) (base : Nat) (tag : Nat) (dva : Nat) (n : Nat), stream? s (refKey r) =
     some x ∧ x.state = StrState.running ∧ x.desc.kind = 0 ∧ issueSlot x = some i ∧ walkQueue (streamPlan s (refKey r)) x.desc = none ∧ issuesNext s
     (refKey r) x = true ∧ walkBaseDva (streamPlan s (refKey r)) x.desc = some base ∧ freeTag s x = some tag ∧ (noShared s (refKey r) ∨ x.ruled = true) ∧ u
     = ringReport (refKey r) x i s ∧ dva = walkDva base x.desc ((x.slot i).tile - 1 - x.walkBase) (readOf x.desc (x.slot i).issued) ∧ n = spanOf x.desc
     (x.slot i).issued dva (if x.desc.write = true then (x.slot i).bytes else tileBytes x.desc) ∧ y = (x.slotMod i fun sl =>
     { sl with state := if x.desc.write = true then SlotState.draining else SlotState.filling, issued := sl.issued + n }) ∧ access u dva n = Access.ok ∧
     lineHit u (refKey r) x dva = true) ∧
    (∃ (s : State) (r : StreamRef) (x : Stream) (i : Nat) (q : Nat), stream? s (refKey r) = some x ∧ x.state = StrState.running ∧ x.desc.kind = 0 ∧
     x.desc.write = false ∧ x.ruled = false ∧ noShared s (refKey r) ∧ issueSlot x = some i ∧ walkQueue (streamPlan s (refKey r)) x.desc = some q ∧
     mayTransfer s (refKey r) x = true ∧ queueHeld s q = false) :=
  ⟨⟨withStr ({ wr0 with transfers := [tf0 false] }), k0, 3, false, false, { wr0 with transfers := [tf0 false] }, wr0, tf0 false, _, _, _, _, by decide +kernel, by decide +kernel, rfl, rfl, rfl, rfl, rfl, by decide +kernel⟩,
   ⟨withStr ({ rd0 with transfers := [tf0 false] }), k0, 3, true, false, { rd0 with transfers := [tf0 false] }, rd0, tf0 false, _, _, _, _, by decide +kernel, by decide +kernel, rfl, rfl, rfl, rfl, rfl, by decide +kernel⟩,
   ⟨withStr ({ wr0 with transfers := [tf0 false] }), k0, 3, true, false, { wr0 with transfers := [tf0 false] }, wr0, tf0 false, _, _, _, _, by decide +kernel, by decide +kernel, rfl, rfl, rfl, rfl, rfl, by decide +kernel⟩,
   ⟨{ withStr rdC with lines := [(0, [35184372088832])] }, _, k0, rdC, _, 0, 0, 0, 0, 256, by decide +kernel, by decide, by decide, by decide +kernel, by decide +kernel, by decide +kernel, by decide +kernel, by decide +kernel, .inl (no_shared rfl _), rfl, by decide +kernel, by decide +kernel, rfl, by decide +kernel, by decide +kernel⟩,
   ⟨withStr { rdF with desc := { rd0.desc with src := dvaOf 5 41 } }, k0, { rdF with desc := { rd0.desc with src := dvaOf 5 41 } }, 0, 41, by decide +kernel, by decide, by decide, by decide, by decide, no_shared rfl _, by decide +kernel⟩⟩

/-- What meets the hypotheses of the clauses of FeedAndDrains. -/
theorem wit_FeedAndDrains :
    (∃ (s : State) (r : StageRef) (c : StageCtx), stageReady r 6 0 0 c s ∧ ((stream? s (feedStream c) = none ∨ ∃ x, stream? s (feedStream c) = some x ∧
     (x.desc.write = true ∨ 2 ≤ x.desc.kind ∨ (x.desc.kind = 0 ∧ ((x.slot x.tail).state = .filling ∨ (x.slot x.tail).state = .draining ∨ ((x.slot
     x.tail).state = .free ∧ x.state ≠ .aborted))))))) ∧
    (∃ (s : State) (r : StageRef) (c : StageCtx) (x : Stream), stageReady r 6 0 0 c s ∧ stream? s (feedStream c) = some x ∧ x.desc.write = false ∧
     x.desc.kind = 0 ∧ (x.slot x.tail).state = .free ∧ x.state = .aborted) ∧
    (∃ (s : State) (r : StageRef) (c : StageCtx) (x : Stream) (n : Nat), stageReady r 6 0 0 c s ∧ stream? s (feedStream c) = some x ∧ x.desc.write = false
     ∧ x.desc.kind = 1 ∧ sourceLayouts c.plan c.st.param = [] ∧ n = (if c.lig.maxRows = 0 then x.ingest.avail else min c.lig.maxRows x.ingest.avail) ∧ n =
     0 ∧ x.state ≠ .aborted) ∧
    (∃ (s : State) (r : StageRef) (c : StageCtx) (x : Stream) (n : Nat), stageReady r 6 0 0 c s ∧ stream? s (feedStream c) = some x ∧ x.desc.write = false
     ∧ x.desc.kind = 1 ∧ sourceLayouts c.plan c.st.param = [] ∧ n = (if c.lig.maxRows = 0 then x.ingest.avail else min c.lig.maxRows x.ingest.avail) ∧ n ≠
     0 ∧ ((itemsReady (streamMedia (some c.plan) x.desc) n x.ingest = false ∨ x.state = .cancelled))) ∧
    (∃ (s : State) (r : StageRef) (c : StageCtx) (x : Stream) (n : Nat), stageReady r 6 0 0 c s ∧ stream? s (feedStream c) = some x ∧ x.desc.write = false
     ∧ x.desc.kind = 1 ∧ sourceLayouts c.plan c.st.param = [] ∧ n = (if c.lig.maxRows = 0 then x.ingest.avail else min c.lig.maxRows x.ingest.avail) ∧ n ≠
     0 ∧ itemsReady (streamMedia (some c.plan) x.desc) n x.ingest = true ∧ x.state ≠ .cancelled) ∧
    (∃ (s : State) (r : StageRef) (c : StageCtx), stageReady r 6 1 0 c s ∧ ((stream? s (feedStream c) = none ∨ ∃ x y, stream? s (feedStream c) = some x ∧ y
     = restartMargin (some c.plan) x ∧ (y.desc.write = false ∨ y.state ≠ .running ∨ y.slot (y.nextTile % (y.desc.ring + 1)) ≠ Slot.free ∨ tilesLeft (some
     c.plan) y = false)))) ∧
    (∃ (s : State) (r : StageRef) (c : StageCtx) (x : Stream) (y : Stream) (n : Nat) (len : Nat) (bytes : Bytes), stageReady r 6 1 0 c s ∧ stream? s
     (feedStream c) = some x ∧ y = restartMargin (some c.plan) x ∧ n = y.desc.ring + 1 ∧ y.slots.length = n ∧ y.desc.write = true ∧ y.state = .running ∧
     y.slot (y.nextTile % n) = Slot.free ∧ tilesLeft (some c.plan) y = true ∧ bytes = (if y.desc.param = 0xffffffff then c.inputBytes s else slicePacket c
     s) ∧ len = min (if (walkQueue (some c.plan) y.desc).isSome then min bytes.length y.desc.d0 else bytes.length) y.desc.slotBytes) ∧
    (∃ (s : State) (r : StreamRef) (x : Stream) (y : Stream) (n : Nat), r.slot = 255 ∧ stream? s (refKey r) = some x ∧ x.desc.write = true ∧ x.state =
     StrState.running ∧ x.ruled = false ∧ (x.slot x.tail).state = SlotState.free ∧ y = restartMargin none x ∧ n = y.desc.ring + 1 ∧ y.slots.length = n ∧
     y.tail = y.nextTile % n ∧ tilesLeft none y = false) :=
  ⟨⟨stUp plG26 1 [], r0,
    cx plG26 (⟨6, 0, 0, 0, 0, 0, 0, 0, 0, 8⟩) 1 [], ready rfl rfl rfl rfl rfl rfl rfl,
    .inl (by decide +kernel)⟩,
   ⟨{ stUp plG26 1 [] with streams := [((0, 0), { rd0 with state := .aborted, slots := [Slot.free, Slot.free, Slot.free] })] },
    r0, cx plG26 (⟨6, 0, 0, 0, 0, 0, 0, 0, 0, 8⟩) 1 [],
    ({ rd0 with state := .aborted, slots := [Slot.free, Slot.free, Slot.free] }), ready rfl rfl rfl rfl rfl rfl rfl,
    by decide +kernel, by decide +kernel, by decide +kernel, by decide +kernel, by decide +kernel⟩,
   ⟨{ stUp plG26 1 [] with streams := [((0, 0), { rd0 with state := .running, desc := { rd0.desc with kind := 1, param := 64 }, ingest := { Ingest.fresh 0 [] with base := 0, fields := [] } })] },
    r0, cx plG26 (⟨6, 0, 0, 0, 0, 0, 0, 0, 0, 8⟩) 1 [],
    ({ rd0 with state := .running, desc := { rd0.desc with kind := 1, param := 64 }, ingest := { Ingest.fresh 0 [] with base := 0, fields := [] } }),
    0, ready rfl rfl rfl rfl rfl rfl rfl, by decide +kernel, by decide +kernel, by decide +kernel, by decide +kernel,
    by decide +kernel, by decide +kernel, by decide +kernel⟩,
   ⟨{ stUp plG26 1 [] with streams := [((0, 0), { rd0 with state := .cancelled, desc := { rd0.desc with kind := 1, param := 64 }, ingest := { Ingest.fresh 0 [] with base := 0, fields := [⟨⟨1, 0, 1, [⟨true, false, [], [⟨1, true, false⟩]⟩]⟩, 0, 0, 0, 0, none, 0⟩] } })] },
    r0, cx plG26 (⟨6, 0, 0, 0, 0, 0, 0, 0, 0, 8⟩) 1 [],
    ({ rd0 with state := .cancelled, desc := { rd0.desc with kind := 1, param := 64 }, ingest := { Ingest.fresh 0 [] with base := 0, fields := [⟨⟨1, 0, 1, [⟨true, false, [], [⟨1, true, false⟩]⟩]⟩, 0, 0, 0, 0, none, 0⟩] } }),
    1, ready rfl rfl rfl rfl rfl rfl rfl, by decide +kernel, by decide +kernel, by decide +kernel, by decide +kernel,
    by decide +kernel, by decide +kernel, .inr (by decide)⟩,
   ⟨{ stUp plG26 1 [] with streams := [((0, 0), { rd0 with state := .running, desc := { rd0.desc with kind := 1, param := 64 }, ingest := { Ingest.fresh 0 [] with base := 0, fields := [⟨⟨1, 0, 1, [⟨true, false, [], [⟨1, true, false⟩]⟩]⟩, 0, 0, 0, 0, none, 0⟩] } })] },
    r0, cx plG26 (⟨6, 0, 0, 0, 0, 0, 0, 0, 0, 8⟩) 1 [],
    ({ rd0 with state := .running, desc := { rd0.desc with kind := 1, param := 64 }, ingest := { Ingest.fresh 0 [] with base := 0, fields := [⟨⟨1, 0, 1, [⟨true, false, [], [⟨1, true, false⟩]⟩]⟩, 0, 0, 0, 0, none, 0⟩] } }),
    1, ready rfl rfl rfl rfl rfl rfl rfl, by and_intros <;> decide +kernel⟩,
   ⟨stUp plG27 1 [], r0,
    cx plG27 (⟨6, 1, 0, 0, 0, 0, 0, 0, 0, 8⟩) 1 [], ready rfl rfl rfl rfl rfl rfl rfl,
    .inl (by decide +kernel)⟩,
   ⟨{ stUp plG27 1 [] with streams := [((0, 0), wr0)] }, r0,
    cx plG27 (⟨6, 1, 0, 0, 0, 0, 0, 0, 0, 8⟩) 1 [], (wr0), wr0, 3, 0, [],
    ready rfl rfl rfl rfl rfl rfl rfl, by and_intros <;> decide +kernel⟩,
   ⟨withStr { wr0 with nextTile := 1, tail := 1 }, k0, { wr0 with nextTile := 1, tail := 1 }, { wr0 with nextTile := 1, tail := 1 }, 3, by decide +kernel⟩⟩

/-- What meets the hypotheses of the clauses of FeedAndDrains. -/
theorem wit_FeedAndDrains_2 :
    (∃ (i : Nat) (j : Nat), j ≠ i) ∧
    (∃ (s : State) (r : StreamRef), (stream? s (refKey r) = none ∨ ∃ x, stream? s (refKey r) = some x ∧ (x.desc.write = false ∨ x.state ≠ StrState.running
     ∨ r.slot ≠ 255 ∧ mayTransfer s (refKey r) x = false ∨ (r.slot ≠ 255 ∨ (x.slot x.tail).state ≠ SlotState.free) ∧ (x.slot x.tail).state ≠
     SlotState.ready ∧ ¬((x.slot x.tail).state = SlotState.draining ∧ (x.desc.param ≠ 4294967295 ∨ x.desc.codec ≠ 0 ∧ x.comp.input = []))))) ∧
    (∃ (s : State) (u : State) (r : StreamRef) (x : Stream) (p : Option Plan) (sl : Slot) (bs : Bytes) (pl : Plan), stream? s (refKey r) = some x ∧
     x.desc.write = true ∧ x.state = StrState.running ∧ mayTransfer s (refKey r) x = true ∧ sl = x.slot x.tail ∧ p = streamPlan s (refKey r) ∧ bs =
     readHeld s (slotDva p x.desc x.tail) sl.bytes ∧ u = slotReport (refKey r) x x.tail sl.bytes 113 s ∧ p = some pl ∧ x.desc.param ≠ 4294967295 ∧
     (sl.state = SlotState.ready ∨ sl.state = SlotState.draining)) ∧
    (∃ (s : State) (u : State) (r : StreamRef) (x : Stream) (p : Option Plan) (sl : Slot) (bs : Bytes), stream? s (refKey r) = some x ∧ x.desc.write = true
     ∧ x.state = StrState.running ∧ mayTransfer s (refKey r) x = true ∧ sl = x.slot x.tail ∧ p = streamPlan s (refKey r) ∧ bs = readHeld s (slotDva p
     x.desc x.tail) sl.bytes ∧ u = slotReport (refKey r) x x.tail sl.bytes 113 s ∧ (x.desc.param = 4294967295 ∨ p = none) ∧ sl.state = SlotState.ready ∧
     x.desc.codec = 0 ∧ walkQueue p x.desc = none ∧ sl.bytes ≠ 0) ∧
    (∃ (s : State) (u : State) (r : StreamRef) (x : Stream) (p : Option Plan) (sl : Slot) (bs : Bytes), stream? s (refKey r) = some x ∧ x.desc.write = true
     ∧ x.state = StrState.running ∧ mayTransfer s (refKey r) x = true ∧ sl = x.slot x.tail ∧ p = streamPlan s (refKey r) ∧ bs = readHeld s (slotDva p
     x.desc x.tail) sl.bytes ∧ u = slotReport (refKey r) x x.tail sl.bytes 113 s ∧ (x.desc.param = 4294967295 ∨ p = none) ∧ sl.state = SlotState.ready ∧
     x.desc.codec = 0 ∧ walkQueue p x.desc = none ∧ sl.bytes = 0) ∧
    (∃ (s : State) (u : State) (r : StreamRef) (x : Stream) (p : Option Plan) (sl : Slot) (bs : Bytes), stream? s (refKey r) = some x ∧ x.desc.write = true
     ∧ x.state = StrState.running ∧ mayTransfer s (refKey r) x = true ∧ sl = x.slot x.tail ∧ p = streamPlan s (refKey r) ∧ bs = readHeld s (slotDva p
     x.desc x.tail) sl.bytes ∧ u = slotReport (refKey r) x x.tail sl.bytes 113 s ∧ (x.desc.param = 4294967295 ∨ p = none) ∧ sl.state = SlotState.ready ∧
     x.desc.codec ≠ 0 ∧ sl.bytes ≠ 0 ∧ x.tail < x.slots.length) ∧
    (∃ (s : State) (r : StreamRef) (x : Stream) (y : Stream) (n : Nat), r.slot = 255 ∧ stream? s (refKey r) = some x ∧ x.desc.write = true ∧ x.state =
     StrState.running ∧ x.ruled = false ∧ (x.slot x.tail).state = SlotState.free ∧ y = restartMargin none x ∧ n = y.desc.ring + 1 ∧ y.slots.length = n ∧
     y.tail = y.nextTile % n ∧ tilesLeft none y = true ∧ y.slot y.tail = Slot.free ∧ y.desc.codec = 0 ∧ walkQueue none y.desc = none ∧ tileBytes y.desc ≠ 0
     ∧ mayTransfer s (refKey r) (hostFill none y) = true) ∧
    (∃ (s : State) (u : State) (r : StreamRef) (x : Stream) (p : Option Plan) (sl : Slot) (bs : Bytes), stream? s (refKey r) = some x ∧ x.desc.write = true
     ∧ x.state = StrState.running ∧ mayTransfer s (refKey r) x = true ∧ sl = x.slot x.tail ∧ p = streamPlan s (refKey r) ∧ bs = readHeld s (slotDva p
     x.desc x.tail) sl.bytes ∧ u = slotReport (refKey r) x x.tail sl.bytes 113 s ∧ (x.desc.param = 4294967295 ∨ p = none) ∧ sl.state = SlotState.draining ∧
     x.desc.codec ≠ 0 ∧ x.comp.input = []) :=
  ⟨⟨0, 1, by decide⟩,
   ⟨up, k1, .inl (by decide +kernel)⟩,
   ⟨plStr (plT .active) ({ wr0 with slots := [⟨.ready, 256, 1, 0, 0, []⟩, Slot.free, Slot.free], desc := { wr0.desc with param := 5 } }) (que []), _, k1, { wr0 with slots := [⟨.ready, 256, 1, 0, 0, []⟩, Slot.free, Slot.free], desc := { wr0.desc with param := 5 } }, some (plT .active), ⟨.ready, 256, 1, 0, 0, []⟩, _, (plT .active), by and_intros <;> first | rfl | decide +kernel | (intro; rfl) | (intros; contradiction) | (intros; simp_all)⟩,
   ⟨plStr (plT .active) ({ wr0 with slots := [⟨.ready, 256, 1, 0, 0, []⟩, Slot.free, Slot.free] }) (que []), _, k1, { wr0 with slots := [⟨.ready, 256, 1, 0, 0, []⟩, Slot.free, Slot.free] }, some (plT .active), ⟨.ready, 256, 1, 0, 0, []⟩, _, by and_intros <;> first | rfl | decide +kernel | (intro; rfl) | (intros; contradiction) | (intros; simp_all)⟩,
   ⟨plStr (plT .active) ({ wr0 with slots := [⟨.ready, 0, 1, 0, 0, []⟩, Slot.free, Slot.free] }) (que []), _, k1, { wr0 with slots := [⟨.ready, 0, 1, 0, 0, []⟩, Slot.free, Slot.free] }, some (plT .active), ⟨.ready, 0, 1, 0, 0, []⟩, _, by and_intros <;> first | rfl | decide +kernel | (intro; rfl) | (intros; contradiction) | (intros; simp_all)⟩,
   ⟨plStr (plT .active) ({ wr0 with slots := [⟨.ready, 256, 1, 0, 0, []⟩, Slot.free, Slot.free], desc := { wr0.desc with codec := 1 } }) (que []), _, k1, { wr0 with slots := [⟨.ready, 256, 1, 0, 0, []⟩, Slot.free, Slot.free], desc := { wr0.desc with codec := 1 } }, some (plT .active), ⟨.ready, 256, 1, 0, 0, []⟩, _, by and_intros <;> first | rfl | decide +kernel | (intro; rfl) | (intros; contradiction) | (intros; simp_all)⟩,
   ⟨withStr wr0, k0, wr0, wr0, 3, by decide +kernel⟩,
   ⟨plStr (plT .active) ({ wr0 with slots := [⟨.draining, 256, 1, 0, 0, []⟩, Slot.free, Slot.free], desc := { wr0.desc with codec := 1 } }) (que []), _, k1, ({ wr0 with slots := [⟨.draining, 256, 1, 0, 0, []⟩, Slot.free, Slot.free], desc := { wr0.desc with codec := 1 } }), some (plT .active), ⟨.draining, 256, 1, 0, 0, []⟩, _, by decide +kernel, by decide, by decide, by decide +kernel, by decide +kernel, by decide +kernel, rfl, rfl, by decide +kernel, by decide, by decide, by decide +kernel⟩⟩

/-- What meets the hypotheses of the clauses of FeedAndDrains. -/
theorem wit_FeedAndDrains_3 :
    (∃ (s : State) (q : Nat) (bs : Bytes) (y : Queue), queue? s q = some y ∧ queueHeld s q = true ∧ (y.limit < cellsFor (List.length bs) ∨ queueRoom s q
     (List.length bs) = true)) ∧
    (∃ (s : State) (q : Nat) (bs : Bytes) (y : Queue), queue? s q = some y ∧ queueHeld s q = true ∧ cellsFor (List.length bs) ≤ y.limit ∧ queueRoom s q
     (List.length bs) = false) ∧
    (∃ (s : State) (q : Nat) (y : Queue), queue? s q = some y ∧ queueHeld s q = false) ∧
    (∃ (s : State) (r : StageRef) (c : StageCtx) (x : Stream) (sl : Slot) (len : Nat) (bad : Bool), stageReady r 6 0 0 c s ∧ stream? s (feedStream c) =
     some x ∧ x.desc.write = false ∧ x.desc.kind = 0 ∧ sl = x.slot x.tail ∧ sl.state = SlotState.ready ∧ x.tailOff ≤ sl.bytes ∧ len = (if c.st.outLen = 0
     then sl.bytes - x.tailOff else min c.st.outLen (sl.bytes - x.tailOff)) ∧ bad = ((sl.badRanges.any fun r => decide (r.fst < x.tailOff + len) && decide
     (x.tailOff < r.fst + r.snd)) || rangeOut s (slotDva (some c.plan) x.desc x.tail + x.tailOff) len)) ∧
    (∃ (s : State) (u : State) (r : StreamRef) (x : Stream) (p : Option Plan) (sl : Slot) (bs : Bytes) (q : Nat) (v : State), stream? s (refKey r) = some x
     ∧ x.desc.write = true ∧ x.state = StrState.running ∧ mayTransfer s (refKey r) x = true ∧ sl = x.slot x.tail ∧ p = streamPlan s (refKey r) ∧ bs =
     readHeld s (slotDva p x.desc x.tail) sl.bytes ∧ u = slotReport (refKey r) x x.tail sl.bytes 113 s ∧ (x.desc.param = 4294967295 ∨ p = none) ∧ sl.state
     = SlotState.ready ∧ x.desc.codec = 0 ∧ walkQueue p x.desc = some q ∧ packetOut (refKey r) x q bs u = some v) ∧
    (∃ (s : State) (u : State) (r : StreamRef) (x : Stream) (p : Option Plan) (sl : Slot) (bs : Bytes) (q : Nat), stream? s (refKey r) = some x ∧
     x.desc.write = true ∧ x.state = StrState.running ∧ mayTransfer s (refKey r) x = true ∧ sl = x.slot x.tail ∧ p = streamPlan s (refKey r) ∧ bs =
     readHeld s (slotDva p x.desc x.tail) sl.bytes ∧ u = slotReport (refKey r) x x.tail sl.bytes 113 s ∧ (x.desc.param = 4294967295 ∨ p = none) ∧ sl.state
     = SlotState.ready ∧ x.desc.codec = 0 ∧ walkQueue p x.desc = some q ∧ packetOut (refKey r) x q bs u = none) :=
  ⟨⟨queUp (plT .active) (que []), 40, [], que [], by decide +kernel⟩,
   ⟨queUp (plT .active) { que [pk1] with limit := 1 }, 40, [1], { que [pk1] with limit := 1 }, by decide +kernel⟩,
   ⟨{ queUp (plT .active) (que []) with plans := [] }, 40, que [], by decide +kernel⟩,
   ⟨{ stUp plG26 1 [] with streams := [((0, 0), { rd0 with state := .running, slots := [⟨.ready, 256, 1, 0, 0, []⟩, Slot.free, Slot.free] })] }, r0, cx plG26 (⟨6, 0, 0, 0, 0, 0, 0, 0, 0, 8⟩) 1 [], ({ rd0 with state := .running, slots := [⟨.ready, 256, 1, 0, 0, []⟩, Slot.free, Slot.free] }), ⟨.ready, 256, 1, 0, 0, []⟩, 256, _, ready rfl rfl rfl rfl rfl rfl rfl, by decide +kernel, by decide, by decide, by decide +kernel, by decide, by decide, by decide, rfl⟩,
   ⟨plStr (plT .active) (wq0 .ready 3584) (que []), _, k1, wq0 .ready 3584, some (plT .active), ⟨.ready, 3584, 1, 0, 0, []⟩, _, 40, _, by decide +kernel, by decide, by decide, by decide +kernel, by decide +kernel, by decide +kernel, rfl, rfl, by decide +kernel, by decide, by decide, by decide +kernel, (by unfold packetOut; rw [if_neg (by decide +kernel)]; rw [show queue? _ 40 = some (que []) by decide +kernel]; exact if_pos (by decide +kernel))⟩,
   ⟨plStr (plT .active) (wq0 .ready 8) { que [pk1] with limit := 1 }, _, k1, wq0 .ready 8, some (plT .active), ⟨.ready, 8, 1, 0, 0, []⟩, _, 40, by decide +kernel, by decide, by decide, by decide +kernel, by decide +kernel, by decide +kernel, rfl, rfl, by decide +kernel, by decide, by decide, by decide +kernel, by decide +kernel⟩⟩

/-- What meets the hypotheses of the clauses of IngestAndMedia. -/
theorem wit_IngestAndMedia :
    (∃ (c : WalkCtx) (g : Ingest), c.ing.format ≠ 1 ∧ c.ing.format ≠ 2 ∧ c.ing.format ≠ 3 ∧ g.open_ = false) ∧
    (∃ (c : WalkCtx) (g : Ingest), c.ing.format ≠ 1 ∧ c.ing.format ≠ 2 ∧ c.ing.format ≠ 3 ∧ g.open_ = true ∧ c.ing.codec = 0 ∧ c.ing.first = 0 ∧ 0 <
     c.ing.records ∧ c.ing.recordCap < c.src.length) ∧
    (∃ (c : WalkCtx) (g : Ingest), max g.record c.ing.first < c.ing.first + c.ing.records) ∧
    (∃ (c : WalkCtx) (g : Ingest), c.ing.first + c.ing.records ≤ max g.record c.ing.first) ∧
    (∃ (s : State) (r : StreamRef), ((stream? s (refKey r) = none ∨ ∃ x, stream? s (refKey r) = some x ∧ x.ingest.jobs = []))) ∧
    (∃ (s : State) (r : StreamRef) (x : Stream) (j : FrameJob) (js : List FrameJob), stream? s (refKey r) = some x ∧ x.ingest.jobs = j :: js) ∧
    (∃ (j : FrameJob) (o : Bytes), decodeFrame j = .bytes o) ∧
    (∃ (s : State) (slot : BitVec 6) (st : BitVec 16), ((stream? s (slot.toNat, st.toNat) = none ∨ plan? s slot.toNat = none ∨ ∃ x, stream? s (slot.toNat,
     st.toNat) = some x ∧ (x.desc.kind ≠ 1 ∨ x.state ≠ .running)))) :=
  ⟨⟨⟨⟨0, 0, 0, 0xffff, 0, 0, 0, 1, 0, 1, false, false⟩, [], [], 0, []⟩, Ingest.fresh 0 [], by decide +kernel⟩,
   ⟨⟨⟨0, 0, 0, 0xffff, 0, 0, 0, 1, 0, 1, false, false⟩, [], [], 0, [1, 2]⟩, { Ingest.fresh 0 [] with open_ := true },
    by decide +kernel⟩,
   ⟨⟨⟨0, 0, 0, 0xffff, 0, 0, 0, 1, 5, 1, false, false⟩, [], [], 0, []⟩, Ingest.fresh 0 [], by decide +kernel⟩,
   ⟨⟨⟨0, 0, 0, 0xffff, 0, 0, 0, 1, 5, 0, false, false⟩, [], [], 0, []⟩, Ingest.fresh 0 [], by decide +kernel⟩,
   ⟨up, k0, .inl (by decide +kernel)⟩,
   ⟨withStr ({ rd0 with desc := { rd0.desc with kind := 1 }, ingest := { Ingest.fresh 0 [] with jobs := [⟨5, [], 0, none, false⟩] } }),
    k0, ({ rd0 with desc := { rd0.desc with kind := 1 }, ingest := { Ingest.fresh 0 [] with jobs := [⟨5, [], 0, none, false⟩] } }),
    ⟨5, [], 0, none, false⟩, [], by decide +kernel⟩,
   ⟨⟨5, [0x10, 0x41], 4, none, false⟩, [0x41], by decide +kernel⟩,
   ⟨up, 0, 0, .inl (by decide +kernel)⟩⟩

/-- What meets the hypotheses of the clauses of IngestAndMedia. -/
theorem wit_IngestAndMedia_2 :
    (∃ (s : State) (k : Nat × Nat) (x : Stream), stream? s k = some x) ∧
    (∃ (s : State) (k : Nat × Nat) (x : Stream), stream? s k = some x ∧ x.ruled = false ∧ noShared s k) ∧
    (∃ (c : WalkCtx) (g : Ingest), c.ing.format ≠ 1 ∧ c.ing.format ≠ 2 ∧ c.ing.format ≠ 3 ∧ g.open_ = true ∧ c.ing.codec = 0) ∧
    (∃ (s : State) (slot : BitVec 6) (st : BitVec 16) (x : Stream) (p : Plan) (kind : Nat) (i : Instr), stream? s (slot.toNat, st.toNat) = some x ∧ plan? s
     slot.toNat = some p ∧ x.desc.kind = 1 ∧ x.state = StrState.running ∧ x.ruled = false ∧ noShared s (slot.toNat, st.toNat) ∧ (kind = 1 ∧ i =
     Instr.rasterItem slot st ∨ kind = 2 ∧ i = Instr.pcmItem slot st) ∧ nextItem kind (streamMedia (some p) x.desc) x.ingest = none) ∧
    (∃ (s : State) (r : StreamRef), (stream? s (refKey r) = none ∨ ∃ x, stream? s (refKey r) = some x ∧ (x.desc.kind ≠ 1 ∨ x.state ≠ StrState.running ∨
     x.ingest.jobs ≠ [] ∨ mayTransfer s (refKey r) x = false ∨ x.ingest.ended = true ∧ (ingestOver x = false ∨ x.desc.persist = false ∨ x.ruled = true)))) ∧
    (∃ (s : State) (r : StreamRef) (x : Stream), stream? s (refKey r) = some x ∧ x.desc.kind = 1 ∧ x.state = StrState.running ∧ x.ingest.jobs = [] ∧
     x.ruled = false ∧ x.ingest.ended = true ∧ mayTransfer s (refKey r) x = true ∧ ingestOver x = true ∧ x.desc.persist = true) ∧
    (∃ (s : State) (p : Option Plan) (x : Stream), (x.ruled = true ∨ absentAt s p x.desc x.ingest.cursor = none ∧ absentAt s p x.desc 0 = none)) ∧
    (∃ (j : FrameJob) (h : FrameHead), frameHead j.codec (jobFrame j) = Except.ok h ∧ frameClaimOk j.codec j.cap (jobFrame j) = true ∧ j.needSum = true ∧
     h.sum = false) :=
  ⟨⟨withStr rd0, (255, 0), rd0, by decide +kernel⟩,
   ⟨withStr rd0, (255, 0), rd0, by decide +kernel, by decide, no_shared rfl _⟩,
   ⟨{ ing := { ingestAt [] 0 with format := 0 }, nums := [], fills := [], dictBytes := 0, src := [] }, { Ingest.fresh 0 [] with open_ := true }, by decide +kernel⟩,
   ⟨plStr (plT .active) ({ rd0 with desc := { rd0.desc with kind := 1 }, ingest := { Ingest.fresh 0 [] with cursor := 0 } }) (que []), 0, 0, ({ rd0 with desc := { rd0.desc with kind := 1 }, ingest := { Ingest.fresh 0 [] with cursor := 0 } }), (plT .active), 2, .pcmItem 0 0,
    by decide +kernel, by decide +kernel, by decide, by decide, by decide, no_shared rfl _, by decide +kernel⟩,
   ⟨up, k0, .inl (by decide +kernel)⟩,
   ⟨withStr ({ rd0 with desc := { rd0.desc with kind := 1, persist := true }, ingest := { Ingest.fresh 0 [] with ended := true } }),
    k0, ({ rd0 with desc := { rd0.desc with kind := 1, persist := true }, ingest := { Ingest.fresh 0 [] with ended := true } }),
    by decide +kernel⟩,
   ⟨plStr plM strM (que []), plM, strM, by and_intros <;> first | rfl | decide +kernel | (intro; rfl) | (intros; contradiction) | (intros; simp_all)⟩,
   (by obtain ⟨h, e, f⟩ := head_ok (c := 2) (b := lz4Hdr [0x60, 0x40]) (by decide +kernel); exact ⟨⟨2, lz4Hdr [0x60, 0x40], 4096, none, true⟩, h, e, by decide +kernel, rfl, f⟩)⟩

/-- What meets the hypotheses of the clauses of IngestAndMedia. -/
theorem wit_IngestAndMedia_3 :
    (∃ (s : State) (slot : BitVec 6) (st : BitVec 16) (x : Stream) (p : Plan) (kind : Nat) (i : Instr) (row : Nat) (off : Nat) (m : MediaBlock) (item :
     Bytes) (tr : Dec Val × State), stream? s (slot.toNat, st.toNat) = some x ∧ plan? s slot.toNat = some p ∧ x.desc.kind = 1 ∧ x.state = StrState.running
     ∧ x.ruled = false ∧ noShared s (slot.toNat, st.toNat) ∧ (kind = 1 ∧ i = Instr.rasterItem slot st ∨ kind = 2 ∧ i = Instr.pcmItem slot st) ∧ nextItem
     kind (streamMedia (some p) x.desc) x.ingest = some (row, off, m) ∧ item = ((x.ingest.queue m.field).col.rows[row]?.getD Val.null).bytes ∧ tr =
     treatItem s (slot.toNat, st.toNat) p x (ingestAt p.image.blob x.desc.param).recordCap row off m item) ∧
    (∃ (s : State) (r : StreamRef) (x : Stream) (c : WalkCtx) (o : UnitOut) (g : Ingest), stream? s (refKey r) = some x ∧ x.desc.kind = 1 ∧ x.state =
     StrState.running ∧ x.ingest.jobs = [] ∧ mayTransfer s (refKey r) x = true ∧ x.ingest.ended = false ∧ c = walkCtx s (streamPlan s (refKey r)) x.desc ∧
     o = ingestUnit c x.ingest ∧ neededAbsent s (streamPlan s (refKey r)) x c o = none ∧ (g = o.g ∨ (g =
     { o.g with bad := o.g.bad ++ [(o.g.base + x.ingest.avail, o.g.avail - x.ingest.avail)] }) ∧ unitOut s (streamPlan s (refKey r)) x c o.g = true ∧
     x.ingest.avail < o.g.avail) ∧ (g = o.g → unitOut s (streamPlan s (refKey r)) x c o.g = false ∨ o.g.avail ≤ x.ingest.avail)) ∧
    (∃ (j : FrameJob) (h : FrameHead), frameHead j.codec (jobFrame j) = Except.ok h ∧ frameClaimOk j.codec j.cap (jobFrame j) = false) ∧
    (∃ (s : State) (r : StreamRef) (x : Stream) (c : WalkCtx) (o : Nat) (a : Nat), stream? s (refKey r) = some x ∧ x.desc.kind = 1 ∧ x.state =
     StrState.running ∧ x.ingest.jobs = [] ∧ mayTransfer s (refKey r) x = true ∧ x.ingest.ended = false ∧ c = walkCtx s (streamPlan s (refKey r)) x.desc ∧
     neededAbsent s (streamPlan s (refKey r)) x c (ingestUnit c x.ingest) = some (o, a)) :=
  ⟨⟨plStr plM strM (que []), 0, 0, strM, plM, 1, .rasterItem 0 0, 0, 128, mediaAt plM.image.blob 128, _, _,
    by decide +kernel, by decide +kernel, by decide, by decide, by decide, no_shared rfl _, .inl ⟨rfl, rfl⟩, by decide +kernel, rfl, rfl⟩,
   ⟨withStr ({ rd0 with desc := { rd0.desc with kind := 1 }, ingest := { Ingest.fresh 0 [] with open_ := true } }), k0, ({ rd0 with desc := { rd0.desc with kind := 1 }, ingest := { Ingest.fresh 0 [] with open_ := true } }), _, _, _, by decide +kernel, by decide, by decide, by decide, by decide +kernel, by decide, rfl, rfl, by decide +kernel, .inl rfl, fun _ => .inr (by decide +kernel)⟩,
   (by obtain ⟨h, e, f⟩ := head_ok (c := 2) (b := lz4Hdr ([0x68, 0x40] ++ le 8 (2 ^ 40))) (by decide +kernel); exact ⟨⟨2, lz4Hdr ([0x68, 0x40] ++ le 8 (2 ^ 40)), 4096, none, false⟩, h, (by rw [show jobFrame _ = lz4Hdr ([0x68, 0x40] ++ le 8 (2 ^ 40)) by decide +kernel]; exact e), by decide +kernel⟩),
   ⟨paged (plStr plR strR (que [])), k1, strR, _, 0, 0, by decide +kernel, by decide, by decide, by decide, by decide +kernel, by decide, rfl, by decide +kernel⟩⟩

/-- What meets the hypotheses of the clauses of BlocksAndBatches. -/
theorem wit_BlocksAndBatches :
    (∃ (s : State) (slot : BitVec 6) (ly : BitVec 8), ((plan? s slot.toNat = none ∨ ∃ p, plan? s slot.toNat = some p ∧ (p.image.layouts[ly.toNat]? = none ∨
     ∃ d, p.image.layouts[ly.toNat]? = some d ∧ ((layoutAt d).closeLag = 0 ∨ ∀ e ∈ (batchOf s (slot.toNat, ly.toNat)).begun, nowTick s < e.2 + (layoutAt
     d).closeLag + 1 ∨ e.1 ∈ (batchOf s (slot.toNat, ly.toNat)).completed))))) ∧
    (∃ (s : State) (r : StreamRef), (stream? s (refKey r) = none ∨ ∃ x, stream? s (refKey r) = some x ∧ (x.desc.codec = 0 ∨ x.comp.input = [] ∨ x.state ≠
     StrState.running ∨ mayTransfer s (refKey r) x = false))) ∧
    (∃ (s : State) (slot : BitVec 6) (ly : BitVec 8) (p : Plan) (d : RawEntry) (l : Layout) (base : Nat) (g : Nat) (tick : Nat) (es : List (Nat × Nat))
     (key : Nat × Nat) (u : State), key = (slot.toNat, ly.toNat) ∧ plan? s slot.toNat = some p ∧ p.image.layouts[ly.toNat]? = some d ∧ l = layoutAt d ∧
     sideBase (some p) l.dstKind l.dstAbs 0 = some base ∧ List.filter (fun e => decide (0 < l.closeLag) && decide (e.snd + l.closeLag + 1 ≤ nowTick s) &&
     !(batchOf s key).completed.contains e.fst) (batchOf s key).begun = (g, tick) :: es ∧ u = freeFor (closeDrain p key base l) g 17 s ∧ openBatch key l g
     u = none) ∧
    (∃ (s : State) (slot : BitVec 6) (ly : BitVec 8) (p : Plan) (d : RawEntry) (l : Layout) (base : Nat) (g : Nat) (tick : Nat) (es : List (Nat × Nat))
     (key : Nat × Nat) (u : State) (b : OpenBatch), key = (slot.toNat, ly.toNat) ∧ plan? s slot.toNat = some p ∧ p.image.layouts[ly.toNat]? = some d ∧ l =
     layoutAt d ∧ sideBase (some p) l.dstKind l.dstAbs 0 = some base ∧ List.filter (fun e => decide (0 < l.closeLag) && decide (e.snd + l.closeLag + 1 ≤
     nowTick s) && !(batchOf s key).completed.contains e.fst) (batchOf s key).begun = (g, tick) :: es ∧ u = freeFor (closeDrain p key base l) g 17 s ∧
     openBatch key l g u = some b) ∧
    (∃ (s : State) (slot : BitVec 6) (ly : BitVec 8) (p : Plan) (d : RawEntry) (l : Layout) (base : Nat) (g : Nat) (tick : Nat) (es : List (Nat × Nat))
     (key : Nat × Nat) (u : State) (b : OpenBatch), key = (slot.toNat, ly.toNat) ∧ plan? s slot.toNat = some p ∧ p.image.layouts[ly.toNat]? = some d ∧ l =
     layoutAt d ∧ sideBase (some p) l.dstKind l.dstAbs 0 = some base ∧ List.filter (fun e => decide (0 < l.closeLag) && decide (e.snd + l.closeLag + 1 ≤
     nowTick s) && !(batchOf s key).completed.contains e.fst) (batchOf s key).begun = (g, tick) :: es ∧ u = freeFor (closeDrain p key base l) g 17 s ∧
     openBatch key l g u = some b ∧ p.image.ruled = false ∧ completionAbsent u base l (slicesOf p.image.blob l) b ≠ none) ∧
    (∃ (s : State) (slot : BitVec 6) (ly : BitVec 8) (p : Plan) (d : RawEntry) (l : Layout) (base : Nat) (g : Nat) (tick : Nat) (es : List (Nat × Nat))
     (key : Nat × Nat) (u : State) (b : OpenBatch), key = (slot.toNat, ly.toNat) ∧ plan? s slot.toNat = some p ∧ p.image.layouts[ly.toNat]? = some d ∧ l =
     layoutAt d ∧ sideBase (some p) l.dstKind l.dstAbs 0 = some base ∧ List.filter (fun e => decide (0 < l.closeLag) && decide (e.snd + l.closeLag + 1 ≤
     nowTick s) && !(batchOf s key).completed.contains e.fst) (batchOf s key).begun = (g, tick) :: es ∧ u = freeFor (closeDrain p key base l) g 17 s ∧
     openBatch key l g u = some b ∧ (p.image.ruled = true ∨ completionAbsent u base l (slicesOf p.image.blob l) b = none)) ∧
    (∃ (key : Nat × Nat) (l : Layout) (g : Nat) (s : State) (x : OpenBatch), look (l.bufferOf g) (batchOf s key).buffers = some x ∧ (x.g ≠ g ∨ x.ready =
     true)) ∧
    (∃ (s : State) (r : StreamRef) (b : Bytes) (lost : Bool) (x : Stream) (good : Option Compressor) (c : Compressor) (c' : Compressor) (u : State),
     stream? s (refKey r) = some x ∧ x.desc.codec ≠ 0 ∧ x.comp.input ≠ [] ∧ x.state = StrState.running ∧ mayTransfer s (refKey r) x = true ∧ good = (if
     lost = true then none else verifyBlock x.desc.codec (List.take compBlock x.comp.input) b x.comp) ∧ c = good.getD (storedBlocks x.desc.codec (List.take
     compBlock x.comp.input) x.comp) ∧ c' = { c with input := List.drop compBlock c.input, total := c.total ++ List.take compBlock x.comp.input } ∧ u = (if
     lost = true then emitErr ⟨4, 2, engineOf (streamPlan s (refKey r)) x s, 0, 0, (refKey r).1, x.ruled, true⟩ (drawn s) else if good.isNone = true then emitErr ⟨4, 1, engineOf (streamPlan s (refKey r)) x s, 0, 0, (refKey r).1, x.ruled, true⟩ (drawn s) else s) ∧ c'.input = []) :=
  ⟨⟨up, 0, 0, .inl (by decide +kernel)⟩,
   ⟨up, k0, .inl (by decide +kernel)⟩,
   ⟨batUp [(0, ⟨1, 0, [], false⟩)], 0, 0, plB, layB, lay0, 0, 0, 0, [], (0, 0), _, rfl, by decide +kernel, by decide +kernel, rfl,
    by decide +kernel, by decide +kernel, rfl, by decide +kernel⟩,
   ⟨{ batUp [(0, ⟨0, 0, [], false⟩)] with allocs := [⟨0, 4⟩], pages := [(0, ⟨0, false, false, 0, 0⟩)] }, 0, 0, plB, layB, lay0, 0, 0, 0, [], (0, 0), _, _, by and_intros <;> first | rfl | decide +kernel | (intro; rfl) | (intros; contradiction) | (intros; simp_all)⟩,
   ⟨{ batUp [(0, ⟨0, 0, [], false⟩)] with allocs := [⟨0, 4⟩], pages := [(0, ⟨0, false, false, 0, 0⟩)] }, 0, 0, plB, layB, lay0, 0, 0, 0, [], (0, 0), _, _, by and_intros <;> first | rfl | decide +kernel | (intro; rfl) | (intros; contradiction) | (intros; simp_all)⟩,
   ⟨batUp [(0, ⟨0, 0, [], false⟩)], 0, 0, plB, layB, lay0, 0, 0, 0, [], (0, 0), _, ⟨0, 0, [], false⟩,
    rfl, by decide +kernel,
    by decide +kernel, rfl, by decide +kernel, by decide +kernel, rfl, by decide +kernel, .inr (by decide +kernel)⟩,
   ⟨(0, 0), lay0, 0, batUp [(0, ⟨1, 0, [], false⟩)], _, by and_intros <;> first | rfl | decide +kernel | (intro; rfl) | (intros; contradiction) | (intros; simp_all)⟩,
   ⟨withStr (cmp2 wr0), k0, [], true, cmp2 wr0, none, _, _, _, by decide +kernel, by decide +kernel, by decide +kernel, by decide, by decide +kernel, rfl, rfl, rfl, rfl, by decide +kernel⟩⟩

/-- What meets the hypotheses of the clauses of BlocksAndBatches. -/
theorem wit_BlocksAndBatches_2 :
    (∃ (r : RowDrain) (g : Nat) (s : State), bufferTaken r.key r.l g s = false) ∧
    (∃ (key : Nat × Nat) (l : Layout) (g : Nat) (s : State), l.buffers < g ∧ ¬g - (l.buffers + 1) ∈ (batchOf s key).completed ∧ look (l.bufferOf g)
     (batchOf s key).buffers = none) ∧
    (∃ (key : Nat × Nat) (l : Layout) (g : Nat) (s : State), g ≤ l.buffers ∧ look (l.bufferOf g) (batchOf s key).buffers = none) ∧
    (∃ (r : RowDrain) (c : Nat) (row : Bytes) (s : State) (u : State) (v : State) (g : Nat) (slot : Nat) (len : Nat) (a : Nat), (g, slot) = r.l.place c ∧
     len = (r.slices[r.slice]?.elim 0 fun x => x.padLen) ∧ a = slotByte r.base r.l g slot (r.slices[r.slice]?.elim 0 fun x => x.padOff) ∧ u = freeFor r g
     17 s ∧ v = writeRow r c g slot noLimit row u ∧ g ∈ (batchOf s r.key).completed) ∧
    (∃ (r : RowDrain) (c : Nat) (row : Bytes) (s : State) (u : State) (v : State) (g : Nat) (slot : Nat) (len : Nat) (a : Nat), (g, slot) = r.l.place c ∧
     len = (r.slices[r.slice]?.elim 0 fun x => x.padLen) ∧ a = slotByte r.base r.l g slot (r.slices[r.slice]?.elim 0 fun x => x.padOff) ∧ u = freeFor r g
     17 s ∧ v = writeRow r c g slot noLimit row u ∧ ¬g ∈ (batchOf s r.key).completed ∧ openBatch r.key r.l g u = none) ∧
    (∃ (r : RowDrain) (c : Nat) (row : Bytes) (s : State) (u : State) (v : State) (g : Nat) (slot : Nat) (len : Nat) (a : Nat) (b : OpenBatch), (g, slot) =
     r.l.place c ∧ len = (r.slices[r.slice]?.elim 0 fun x => x.padLen) ∧ a = slotByte r.base r.l g slot (r.slices[r.slice]?.elim 0 fun x => x.padOff) ∧ u =
     freeFor r g 17 s ∧ v = writeRow r c g slot noLimit row u ∧ ¬g ∈ (batchOf s r.key).completed ∧ openBatch r.key r.l g u = some b ∧ (r.l.filled g ≤ slot
     ∨ ∃ e, e ∈ b.got ∧ e.fst = slot ∧ e.snd.fst = r.slice)) ∧
    (∃ (r : RowDrain) (c : Nat) (row : Bytes) (valid : Bool) (s : State) (u : State) (v : State) (g : Nat) (slot : Nat) (len : Nat) (a : Nat) (b :
     OpenBatch) (b' : OpenBatch) (t : State) (n : Nat), (g, slot) = r.l.place c ∧ len = (r.slices[r.slice]?.elim 0 fun x => x.padLen) ∧ a = slotByte r.base
     r.l g slot (r.slices[r.slice]?.elim 0 fun x => x.padOff) ∧ u = freeFor r g 17 s ∧ v = writeRow r c g slot noLimit row u ∧ ¬g ∈ (batchOf s
     r.key).completed ∧ openBatch r.key r.l g u = some b ∧ slot < r.l.filled g ∧ (∀ (e : Nat × Nat × Bool), e ∈ b.got → ¬(e.fst = slot ∧ e.snd.fst =
     r.slice)) ∧ b' = { b with got := b.got ++ [(slot, r.slice, valid)] } ∧ t = setBatch r.key
     { batchOf v r.key with buffers := put (r.l.bufferOf g) b' (batchOf v r.key).buffers } v ∧ r.ruled = false ∧ rangeAbsent u a len = some n) ∧
    (∃ (r : RowDrain) (c : Nat) (row : Bytes) (valid : Bool) (s : State) (u : State) (v : State) (g : Nat) (slot : Nat) (len : Nat) (a : Nat) (b :
     OpenBatch) (b' : OpenBatch) (t : State), (g, slot) = r.l.place c ∧ len = (r.slices[r.slice]?.elim 0 fun x => x.padLen) ∧ a = slotByte r.base r.l g
     slot (r.slices[r.slice]?.elim 0 fun x => x.padOff) ∧ u = freeFor r g 17 s ∧ v = writeRow r c g slot noLimit row u ∧ ¬g ∈ (batchOf s r.key).completed ∧
     openBatch r.key r.l g u = some b ∧ slot < r.l.filled g ∧ (∀ (e : Nat × Nat × Bool), e ∈ b.got → ¬(e.fst = slot ∧ e.snd.fst = r.slice)) ∧ b' =
     { b with got := b.got ++ [(slot, r.slice, valid)] } ∧ t = setBatch r.key
     { batchOf v r.key with buffers := put (r.l.bufferOf g) b' (batchOf v r.key).buffers } v ∧ (r.ruled = true ∨ rangeAbsent u a len = none) ∧ (∃ i, i <
     r.l.filled g ∧ slotFull r.l b' i = false)) :=
  ⟨⟨row_ false 1 0, 1, openB 1 [], by decide +kernel⟩,
   ⟨(0, 0), lay0, lay0.buffers + 1, up, by decide +kernel⟩,
   ⟨(0, 0), lay0, lay0.buffers, up, by decide +kernel⟩,
   ⟨row_ false 1 0, 3, [], { up with batches := [((0, 0), ⟨0, 0, [], [1], [], []⟩)] }, _, _, 1, 1, _, _, by decide +kernel, rfl, rfl, rfl, rfl, by decide +kernel⟩,
   ⟨row_ false 1 0, 3, [], openB 0 [], _, _, 1, 1, _, _, by decide +kernel, rfl, rfl, rfl, rfl, by decide +kernel⟩,
   ⟨row_ false 1 5, 3, [], openB 1 [(1, 5, true)], _, _, 1, 1, _, _, ⟨1, 0, [(1, 5, true)], false⟩, by decide +kernel, rfl, rfl, rfl, rfl, by decide +kernel, by decide +kernel, .inr ⟨(1, 5, true), by decide, rfl, rfl⟩⟩,
   ⟨row_ false 1 0, 3, [], true, paged (openB 1 []), _, _, 1, 1, 8, _, ⟨1, 0, [], false⟩, _, _, 192, by decide +kernel, rfl, rfl, rfl, rfl, by decide +kernel, by decide +kernel, by decide +kernel, (fun e h => nomatch h), rfl, rfl, rfl, by decide +kernel⟩,
   ⟨row_ true 1 0, 3, [], true, openB 1 [], _, _, 1, 1, 8, _, ⟨1, 0, [], false⟩, _, _, by decide +kernel, rfl, rfl, rfl, rfl, by decide +kernel, by decide +kernel, by decide +kernel, (fun e h => nomatch h), rfl, rfl, .inl rfl, 0, by decide +kernel, by decide +kernel⟩⟩

/-- What meets the hypotheses of the clauses of BlocksAndBatches. -/
theorem wit_BlocksAndBatches_3 :
    (∃ (r : RowDrain) (c : Nat) (row : Bytes) (valid : Bool) (s : State) (u : State) (v : State) (g : Nat) (slot : Nat) (len : Nat) (a : Nat) (b :
     OpenBatch) (b' : OpenBatch) (t : State), (g, slot) = r.l.place c ∧ len = (r.slices[r.slice]?.elim 0 fun x => x.padLen) ∧ a = slotByte r.base r.l g
     slot (r.slices[r.slice]?.elim 0 fun x => x.padOff) ∧ u = freeFor r g 17 s ∧ v = writeRow r c g slot noLimit row u ∧ ¬g ∈ (batchOf s r.key).completed ∧
     openBatch r.key r.l g u = some b ∧ slot < r.l.filled g ∧ (∀ (e : Nat × Nat × Bool), e ∈ b.got → ¬(e.fst = slot ∧ e.snd.fst = r.slice)) ∧ b' =
     { b with got := b.got ++ [(slot, r.slice, valid)] } ∧ t = setBatch r.key
     { batchOf v r.key with buffers := put (r.l.bufferOf g) b' (batchOf v r.key).buffers } v ∧ (r.ruled = true ∨ rangeAbsent u a len = none) ∧ (∀ (i :
     Nat), i < r.l.filled g → slotFull r.l b' i = true) ∧ (r.ruled = true ∨ completionAbsent v r.base r.l r.slices b' = none)) ∧
    (∃ (s : State) (r : StreamRef) (b : Bytes) (lost : Bool) (x : Stream) (good : Option Compressor) (c : Compressor) (c' : Compressor) (u : State),
     stream? s (refKey r) = some x ∧ x.desc.codec ≠ 0 ∧ x.comp.input ≠ [] ∧ x.state = StrState.running ∧ mayTransfer s (refKey r) x = true ∧ good = (if
     lost = true then none else verifyBlock x.desc.codec (List.take compBlock x.comp.input) b x.comp) ∧ c = good.getD (storedBlocks x.desc.codec (List.take
     compBlock x.comp.input) x.comp) ∧ c' = { c with input := List.drop compBlock c.input, total := c.total ++ List.take compBlock x.comp.input } ∧ u = (if
     lost = true then emitErr ⟨4, 2, engineOf (streamPlan s (refKey r)) x s, 0, 0, (refKey r).1, x.ruled, true⟩ (drawn s) else if good.isNone = true then emitErr ⟨4, 1, engineOf (streamPlan s (refKey r)) x s, 0, 0, (refKey r).1, x.ruled, true⟩ (drawn s) else s) ∧ c'.input ≠ []) ∧
    (∃ (r : RowDrain) (c : Nat) (row : Bytes) (valid : Bool) (s : State) (u : State) (v : State) (g : Nat) (slot : Nat) (len : Nat) (a : Nat) (b :
     OpenBatch) (b' : OpenBatch) (t : State) (n : Nat), (g, slot) = r.l.place c ∧ len = (r.slices[r.slice]?.elim 0 fun x => x.padLen) ∧ a = slotByte r.base
     r.l g slot (r.slices[r.slice]?.elim 0 fun x => x.padOff) ∧ u = freeFor r g 17 s ∧ v = writeRow r c g slot noLimit row u ∧ ¬g ∈ (batchOf s
     r.key).completed ∧ openBatch r.key r.l g u = some b ∧ slot < r.l.filled g ∧ (∀ (e : Nat × Nat × Bool), e ∈ b.got → ¬(e.fst = slot ∧ e.snd.fst =
     r.slice)) ∧ b' = { b with got := b.got ++ [(slot, r.slice, valid)] } ∧ t = setBatch r.key
     { batchOf v r.key with buffers := put (r.l.bufferOf g) b' (batchOf v r.key).buffers } v ∧ (r.ruled = true ∨ rangeAbsent u a len = none) ∧ (∀ (i :
     Nat), i < r.l.filled g → slotFull r.l b' i = true) ∧ r.ruled = false ∧ completionAbsent v r.base r.l r.slices b' = some n) :=
  ⟨⟨row_ true 1 0, 3, [], true, openB 1 [(0, 0, true)], _, _, 1, 1, 8, _, ⟨1, 0, [(0, 0, true)], false⟩, _, _, by decide +kernel, rfl, rfl, rfl, rfl, by decide +kernel, by decide +kernel, by decide +kernel, (fun e h => by cases List.mem_singleton.1 h; decide), rfl, rfl, .inl rfl, by decide +kernel, .inl rfl⟩,
   (by
    obtain ⟨inp, hl, hm⟩ : ∃ inp : Bytes, 65536 < inp.length ∧ mayTransfer (withStr (strC inp)) (refKey k0) (strC inp) = true :=
      ⟨List.replicate 65537 0, by rw [List.length_replicate]; decide, by decide +kernel⟩
    refine ⟨withStr (strC inp), k0, [], true, strC inp, none, _, _, _, rfl, (by show (1 : Nat) ≠ 0; decide), ?_, rfl, hm, rfl, rfl, rfl, rfl, ?_⟩
    · intro h; rw [show (strC inp).comp.input = inp from rfl] at h; rw [h] at hl; simp at hl
    · show inp.drop 65536 ≠ []
      intro h; have := congrArg List.length h; simp at this; omega),
   ⟨{ row_ false 1 0 with base := 2096960 }, 3, [], true, paged2 (openB 1 [(0, 0, true)]), _, _, 1, 1, 8, _, ⟨1, 0, [(0, 0, true)], false⟩, _, _, 2097024, by decide +kernel, rfl, rfl, rfl, rfl, by decide +kernel, by decide +kernel, by decide +kernel, (fun e h => by cases List.mem_singleton.1 h; decide), rfl, rfl, .inr (by decide +kernel), by decide +kernel, rfl, by decide +kernel⟩⟩

/-! ### Well-formedness: an ill-formed command for each check -/

/-- A request header with a bad byte outside the message is refused with every request (part 1). -/
theorem test_wf_request_header_1 :
    ([.identify reqBad, .inventory reqBad 0, .mailboxRead reqBad, .unknownOpcode reqBad 0, .planLoad reqBad 0 0 0 0 [],
     .planUnload reqBad 0, .planActivate reqBad 0, .planRetire reqBad 0, .rebind reqBad 0 0 [] [], .rebindCancel reqBad 0,
     .fitReportRead reqBad 0, .planRead reqBad 0, .bindingRead reqBad 0 0 0, .memAlloc reqBad 0 0 0, .memFree reqBad 0,
     .pageBringIn reqBad 0 0 0, .pageSet reqBad 0 0 0, .pageRead reqBad 0 0, .streamStart reqBad 0 0,
     .streamRead reqBad ⟨0, 0⟩, .streamRearm reqBad ⟨0, 0⟩ 0 0, .streamFaultRead reqBad ⟨0, 0⟩, .streamResume reqBad ⟨0, 0⟩,
     .streamAbort reqBad ⟨0, 0⟩, .streamCancel reqBad ⟨0, 0⟩, .queueRead reqBad 0, .queueSet reqBad 0 0,
     .queueOp reqBad ⟨0, none, 0⟩ 0 0, .queueReset reqBad 0, .signalAlloc reqBad 0 0, .signalSet reqBad 0 0 0 0 0 0,
     .signalAdd reqBad 0 0, .signalRead reqBad 0, .remoteDiscard reqBad 0 0 0 0, .ownerMap reqBad 0 0 0 [],
     .ownerRead reqBad 0 0 0 0, .tableReplace reqBad 0 0 0 0, .statsSet reqBad 0 0 0 0 [], .statsRead reqBad 0 0 0 0 0] : List Instr).all (fun i => !i.wellFormed) = true := by decide +kernel

/-- A request header with a bad byte outside the message is refused with every request (part 2). -/
theorem test_wf_request_header_2 :
    ([.tableCounters reqBad 0 0, .rulingRead reqBad, .rulingSet reqBad 0, .rulingAck reqBad 0, .taskSubmit reqBad 0 0 [],
     .taskCancel reqBad 0, .traceSet reqBad 0 0 0 0 0, .traceRead reqBad 0 0 0, .attest reqBad [], .measurementsRead reqBad,
     .keyslotOpen reqBad 0 0 0 [], .keyslotClose reqBad 0, .sessionRekey reqBad [], .sessionEnd reqBad,
     .debugUnlock reqBad [], .blotterSet reqBad 0 0 0, .blotterRead reqBad 0, .selftestRun reqBad 0, .unitExclude reqBad [],
     .unitInclude reqBad [], .waitResume reqBad 0 0 0, .waitAbort reqBad 0 0 0, .powerRead reqBad, .powerCapSet reqBad 0,
     .powerStateSet reqBad 0 0, .reset reqBad 0 0, .portSet reqBad 0 0 [], .portRead reqBad 0, .deviceNumberSet reqBad 0,
     .neighbourSet reqBad 0 [], .txStreamSet reqBad 0 0 0 0 0 0, .rxStreamSet reqBad 0 0 0 0 0 0 0,
     .rxStreamRead reqBad 0 0 0, .ptpSet reqBad 0 0 0 0, .ptpRead reqBad, .matchWrite reqBad 0 0 0 [],
     .matchTags reqBad 0 0 0 [], .matchRead reqBad 0 0 0 0] : List Instr).all (fun i => !i.wellFormed) = true := by decide +kernel

/-- The rows whose element counts pass 65,535 are refused (Tables 13-6 to 13-15). -/
theorem test_wf_counts (r : Req) (n : Nat) (h : 65536 ≤ n) :
    (Instr.planLoad r 0 0 0 0 (List.replicate n 0)).wellFormed = false ∧ (Instr.rebind r 0 0 (List.replicate n ⟨0, 0, 0⟩) []).wellFormed = false ∧
    (Instr.rebind r 0 0 [] (List.replicate n 0)).wellFormed = false ∧ (Instr.ownerMap r 0 0 0 (List.replicate n 0)).wellFormed = false ∧
    (Instr.statsSet r 0 0 0 0 (List.replicate n [])).wellFormed = false ∧ (Instr.taskSubmit r 0 0 (List.replicate n 0)).wellFormed = false ∧
    (Instr.unitExclude r (List.replicate n 0)).wellFormed = false ∧ (Instr.unitInclude r (List.replicate n 0)).wellFormed = false ∧
    (Instr.neighbourSet r 0 (List.replicate n ⟨0, [], 0⟩)).wellFormed = false ∧ (Instr.matchWrite r 0 0 0 (List.replicate n 0)).wellFormed = false ∧
    (Instr.matchTags r 0 0 0 (List.replicate n 0)).wellFormed = false := by
  have : ¬ n < 65536 := by omega
  simp [Instr.wellFormed, this]

/-- Byte fields of a fixed length are refused at another length, and long ones past their bound. -/
theorem test_wf_lengths (r : Req) :
    (Instr.statsSet r 0 0 0 0 [[]]).wellFormed = false ∧ (Instr.attest r (zeros 31)).wellFormed = false ∧
    (Instr.keyslotOpen r 0 0 0 (zeros 3545)).wellFormed = false ∧ (Instr.sessionRekey r (zeros 1247)).wellFormed = false ∧
    (Instr.debugUnlock r (zeros 3436)).wellFormed = false ∧ (Instr.portSet r 0 0 (zeros 4)).wellFormed = false ∧
    (Instr.neighbourSet r 0 [⟨0, zeros 15, 0⟩]).wellFormed = false ∧ (Instr.blockVerify ⟨0, 0⟩ (zeros 65537) false).wellFormed = false ∧
    (Instr.packetCommit 0 0 (zeros 3669961)).wellFormed = false ∧
    (Instr.pfcFrame 0 (List.replicate 9 (0, 0))).wellFormed = false := by
  simp [Instr.wellFormed, zeros, -List.reduceReplicate]

/-- A packet is refused for its payload, its tag or its address (R393), in each of the packet rows. -/
theorem test_wf_packets (i : Instr)
    (h : i ∈ [packetOf 0xffff (zeros 1401) [] (zeros 16), packetOf 0 [] (zeros 15) (zeros 16), packetOf 0xffff [] [] (zeros 4)].flatMap fun p =>
      ([.data p, .signal p, .mbxReq p, .exReq p, .exUpd p, .exRows p, .exLate p, .dipReq p false, .idReq p, .hello p, .finish p, .reply p,
        .confirm p, .abort p] : List Instr)) : i.wellFormed = false := by
  revert i h
  exact all_of (by decide +kernel)

/-- A PTP message without a 16-byte address is refused in each of its rows, and an image copy for each of its parts (R391, R438). -/
theorem test_wf_messages_and_copies (i : Instr)
    (h : i ∈ ([.sync (ptpFrom []), .followUp (ptpFrom []), .delayResp (ptpFrom []), .announce (ptpFrom []) ⟨0, 0, 0, 0, 0, 0, 0⟩,
        .loaderAccepted (copyOf 2079 64 3309 48) (copyOf 2080 64 3309 48), .loaderAccepted (copyOf 2080 64 3309 48) (copyOf 2080 63 3309 48),
        .goustReady (copyOf 2080 64 3308 48) (copyOf 2080 64 3309 48) [], .goustReady (copyOf 2080 64 3309 48) (copyOf 2080 64 3309 47) [],
        .loaderAccepted ⟨[1], [], [], [], false⟩ ⟨[], [], [], [], false⟩] : List Instr)) : i.wellFormed = false := by
  revert i h
  exact all_of (by decide +kernel)

/-- What the checks ask for is accepted. -/
theorem test_wf_accepted : ([.identify (rq 0), .attest (rq 32) (zeros 32), .data (packetOf 0xffff [1] [] (zeros 16)), .sync (ptpFrom (zeros 16)),
    .portSet (rq 32) 0 0 (zeros 16), .goustReady (copyOf 2080 64 3309 48) ⟨[], [], [], [], false⟩ []] : List Instr).all (·.wellFormed) = true := by
  decide +kernel

/-- The opcode table gives no row any bits: no word spells a command. -/
theorem test_decode_none (n w : Nat) : decodeTableWord n w = none := rfl

/-! ### Results the spec writes out -/

/-- Chapter 1's two conversions of unit ids. -/
theorem test_unit_ids : coreUid 200 5 = 0x8450#16 ∧ uidDie 0x6b27 = 1 ∧ uidCluster 0x6b27 = 10 ∧ uidCore 0x6b27 = 6 ∧ uidEngine 0x6b27 = 2 ∧
    uidSub 0x6b27 = 7 ∧ uidCoreNumber 0x6b27 = 182 := by decide +kernel

/-- Chapter 2's example: D is 29 and W is 471,171 at the default period. -/
theorem test_ruled_window : ditherOf 475000 = 29 ∧ windowOf 475000 = 471171 := by decide

/-- Chapter 6's example: 20,000 × 2⁻¹⁵ as BF16 is 0x3F1C under RNE and RTZ, and 0x3F1D under a draw below 16,384. -/
theorem test_shape_rounding :
    (convert 0xb 0xa 0 false 0 0x3f1c4000).bits = 0x3f1c ∧ (convert 0xb 0xa 1 false 0 0x3f1c4000).bits = 0x3f1c ∧
    (convert 0xb 0xa 2 false 16383 0x3f1c4000).bits = 0x3f1d ∧ (convert 0xb 0xa 2 false 16384 0x3f1c4000).bits = 0x3f1c := by decide +kernel

/-- Chapter 6's example: 200,000 goes to bin 1,586 of a sketch with QS_EMIN 0. -/
theorem test_sketch_bin : sketchBin 0 0x48435000 = 1586 := by decide +kernel

/-- Chapter 7's example: the mean of the bag, 0.875 ÷ 2.5, is 0x3EB3 in BF16. -/
theorem test_pool_mean : (convert 0xb 0xa 0 false 0 (fp32.div 0x3f600000 0x40200000)).bits = 0x3eb3 := by decide +kernel

/-- Chapter 8's example: core 40 of split one keeps 7002, 7021 and 7044 with a tie count of 1, and the merge counts 3. -/
theorem test_topk_split_one :
    selectBest sel3 [(3900, 7002), (3900, 7021), (3900, 7044), (3900, 7088)] = ([(3900, 7002), (3900, 7021), (3900, 7044)], 1) ∧
    (let all := [(3900, 7002), (3900, 7021), (3900, 7044), (4400, 7003), (4100, 7010), (3200, 7050)]
     (selectBest sel3 all).1 = [(4400, 7003), (4100, 7010), (3900, 7002)] ∧
     mergeTies sel3 (selectBest sel3 all).1 all [⟨[(3900, 7002), (3900, 7021), (3900, 7044)], 1, 0, true⟩,
       ⟨[(4400, 7003), (4100, 7010), (3200, 7050)], 0, 0, true⟩] = 3) := by decide +kernel

/-- Chapter 8's example: entry 1 wins at priority 96, and without it entry 0 wins by its lower index. -/
theorem test_match_winner :
    (let es : List LiveEntry := [⟨0, 2 ^ 32, 2 ^ 64 - 2 ^ 32, 5⟩, ⟨1, 44 * 2 ^ 64 + 0x100001b59, 2 ^ 96 - 1, 9⟩, ⟨2, 44 * 2 ^ 64, 2 ^ 96 - 2 ^ 64, 2⟩]
     let m := matching es (44 * 2 ^ 64 + 0x100001b59) (2 ^ 96 - 1)
     m.length = 3 ∧ (winner (2 ^ 96 - 1) m).map (·.result) = some 9 ∧ (winner (2 ^ 96 - 1) (m.eraseIdx 1)).map (·.result) = some 5) := by
  decide +kernel

/-- Chapter 10's example: sample 70,001 of 1,048,576 in batches of 256, in epochs 0 and 1. -/
theorem test_batch_place (l : Layout) (h : l.slots = 256 ∧ l.samples = 1048576) : l.place 70001 = (273, 113) ∧ l.place (1048576 + 70001) = (4369, 113) := by
  simp [Layout.place, Layout.perEpoch, ceilDiv, h.1, h.2]

/-- Chapter 10's example: output column 10 of a resize from 56 to 64 lies at input column 8 with weight 176. -/
theorem test_resize_column : bilinearAt 10 56 64 = (8, 9, 176) := by decide +kernel

/-- Chapter 10's example: a cache part of 3 GiB + 4 MiB holds 16,384 sets of items of 12,288 bytes. -/
theorem test_cache_sets : cacheSets 3225419776 12288 = 16384 := by decide +kernel

/-- The CRC-32C of the bytes of "123456789", the check value of the code. -/
theorem test_crc32c : crc32c (ascii "123456789") = 0xe3069283 := by decide +kernel

/-- The SHA-384 digest of the empty string, from the standard (FIPS 180-4's examples). -/
theorem test_sha384_empty : ofBe (sha384 []) = 0x38b060a751ac96384cd9327eb1b1e36a21fdb71114be07434c0cc7bf63f6e1da274edebfe76f65fbd51ad2f14898b95b := by
  decide +kernel

end Sys2Proof.Tests
end

section
/-! SUPPORT. Bit fields: what a field reads as after a field of the word has been replaced. -/

namespace Sys2Proof.Machine

/-- A word with bits [hi:lo] replaced by `v`. -/
def setField (hi lo v x : Nat) : Nat := x - fld hi lo x * 2 ^ lo + v * 2 ^ lo

theorem bitAt_eq_fld (v k : Nat) : bitAt v k = (fld k k v == 1) := by simp [bitAt, fld]

theorem fld_testBit (hi lo v i : Nat) : (fld hi lo v).testBit i = (decide (i < hi + 1 - lo) && v.testBit (lo + i)) := by
  simp [fld, Nat.testBit_mod_two_pow, Nat.testBit_shiftRight]

/-- A field fits its width. -/
theorem fld_lt (hi lo v : Nat) : fld hi lo v < 2 ^ (hi + 1 - lo) := Nat.mod_lt _ (Nat.two_pow_pos _)

theorem setField_testBit {hi lo v : Nat} (x i : Nat) (hl : lo ≤ hi) (hv : v < 2 ^ (hi + 1 - lo)) :
    (setField hi lo v x).testBit i = if lo ≤ i ∧ i ≤ hi then v.testBit (i - lo) else x.testBit i := by
  obtain ⟨w, rfl⟩ : ∃ w, hi = lo + w := ⟨hi - lo, by omega⟩
  have hw : lo + w + 1 - lo = w + 1 := by omega
  have split : ∀ m, m < 2 ^ (w + 1) → ∀ j, (2 ^ lo * (2 ^ (w + 1) * (x / 2 ^ lo / 2 ^ (w + 1)) + m) + x % 2 ^ lo).testBit j =
      if lo ≤ j ∧ j ≤ lo + w then m.testBit (j - lo) else x.testBit j := by
    intro m hm j
    rw [Nat.testBit_two_pow_mul_add _ (Nat.mod_lt _ (Nat.two_pow_pos _)), Nat.testBit_two_pow_mul_add _ hm]
    by_cases h1 : j < lo
    · simp [h1, show ¬ lo ≤ j by omega, Nat.testBit_mod_two_pow]
    · by_cases h2 : j - lo < w + 1
      · simp [h1, h2, show lo ≤ j ∧ j ≤ lo + w by omega]
      · rw [if_neg h1, if_neg h2, if_neg (by omega), Nat.testBit_div_two_pow, Nat.testBit_div_two_pow]
        congr 1; omega
  have e : setField (lo + w) lo v x = 2 ^ lo * (2 ^ (w + 1) * (x / 2 ^ lo / 2 ^ (w + 1)) + v) + x % 2 ^ lo := by
    have h1 := Nat.div_add_mod x (2 ^ lo)
    have h2 := Nat.div_add_mod (x / 2 ^ lo) (2 ^ (w + 1))
    simp only [setField, fld, Nat.shiftRight_eq_div_pow, hw]
    generalize x / 2 ^ lo % 2 ^ (w + 1) = m at *
    generalize 2 ^ (w + 1) * (x / 2 ^ lo / 2 ^ (w + 1)) = q at *
    rw [← h2] at h1
    rw [Nat.mul_add] at h1 ⊢
    rw [Nat.mul_comm m, Nat.mul_comm v]
    omega
  rw [e, split v (hw ▸ hv)]

theorem fld_setField_same {hi lo v : Nat} (x : Nat) (hl : lo ≤ hi) (hv : v < 2 ^ (hi + 1 - lo)) : fld hi lo (setField hi lo v x) = v := by
  apply Nat.eq_of_testBit_eq
  intro i
  rw [fld_testBit, setField_testBit x _ hl hv]
  by_cases h : i < hi + 1 - lo
  · rw [if_pos (by omega)]; simp [h]
  · simpa [h] using (Nat.testBit_lt_two_pow (Nat.lt_of_lt_of_le hv (Nat.pow_le_pow_right (by decide) (by omega)))).symm

theorem fld_setField_other {hi lo v a b : Nat} (x : Nat) (hl : lo ≤ hi) (hv : v < 2 ^ (hi + 1 - lo)) (h : a < lo ∨ hi < b) :
    fld a b (setField hi lo v x) = fld a b x := by
  apply Nat.eq_of_testBit_eq
  intro i
  rw [fld_testBit, fld_testBit, setField_testBit x _ hl hv]
  by_cases hi' : i < a + 1 - b
  · rw [if_neg (by omega)]
  · simp [hi']

theorem bitAt_setField_other {hi lo v k : Nat} (x : Nat) (hl : lo ≤ hi) (hv : v < 2 ^ (hi + 1 - lo)) (h : k < lo ∨ hi < k) :
    bitAt (setField hi lo v x) k = bitAt x k := by rw [bitAt_eq_fld, bitAt_eq_fld, fld_setField_other x hl hv h]

/-- A word keeps its width when a field inside it is replaced. -/
theorem setField_lt {hi lo v x w : Nat} (hx : x < 2 ^ w) (hl : lo ≤ hi) (hw : hi < w) (hv : v < 2 ^ (hi + 1 - lo)) :
    setField hi lo v x < 2 ^ w := by
  refine Nat.lt_pow_two_of_testBit _ fun i hi' => ?_
  rw [setField_testBit x _ hl hv, if_neg (by omega), Nat.testBit_lt_two_pow (Nat.lt_of_lt_of_le hx (Nat.pow_le_pow_right (by decide) hi'))]

/-! ### RUL_STATUS -/

theorem setStatus_status {hi lo v : Nat} (s : State) (hl : lo ≤ hi) (hw : hi < 32) (hv : v < 2 ^ (hi + 1 - lo)) :
    (setStatus hi lo v s).rul.status.toNat = setField hi lo v s.rul.status.toNat := by
  show (BitVec.ofNat 32 _).toNat = _
  rw [BitVec.toNat_ofNat]
  exact Nat.mod_eq_of_lt (setField_lt s.rul.status.isLt hl hw hv)

theorem fld_setStatus_same {hi lo v : Nat} (s : State) (hl : lo ≤ hi) (hw : hi < 32) (hv : v < 2 ^ (hi + 1 - lo)) :
    fld hi lo (setStatus hi lo v s).rul.status.toNat = v := by
  rw [setStatus_status s hl hw hv, fld_setField_same _ hl hv]

theorem fld_setStatus_other {hi lo v a b : Nat} (s : State) (hl : lo ≤ hi) (hw : hi < 32) (hv : v < 2 ^ (hi + 1 - lo)) (h : a < lo ∨ hi < b) :
    fld a b (setStatus hi lo v s).rul.status.toNat = fld a b s.rul.status.toNat := by
  rw [setStatus_status s hl hw hv, fld_setField_other _ hl hv h]

theorem bitAt_setStatus_other {hi lo v k : Nat} (s : State) (hl : lo ≤ hi) (hw : hi < 32) (hv : v < 2 ^ (hi + 1 - lo)) (h : k < lo ∨ hi < k) :
    bitAt (setStatus hi lo v s).rul.status.toNat k = bitAt s.rul.status.toNat k := by
  rw [setStatus_status s hl hw hv, bitAt_setField_other _ hl hv h]

theorem bitAt_setStatus_same {k v : Nat} (s : State) (hk : k < 32) (hv : v < 2) :
    bitAt (setStatus k k v s).rul.status.toNat k = (v == 1) := by
  rw [bitAt_eq_fld, fld_setStatus_same s (Nat.le_refl _) hk (by simpa using hv)]

end Sys2Proof.Machine
end

section
/-! SUPPORT. RULING_SET, clause by clause: when it is refused, what it accepts, and the fields of RUL_CFG and RUL_STATUS it
leaves (R46 to R48, R434). -/

namespace Sys2Proof.Machine

/-! ### Discipline and phase -/

/-- The period fits its field. -/
theorem period_lt (s : State) : period s < 2 ^ (26 + 1 - 0) := fld_lt 26 0 _

theorem writeDiscipline_cfg (cfg : BitVec 64) (s : State) :
    (writeDiscipline cfg.toNat s).rul.cfg.toNat = setField 26 0 (period s) cfg.toNat := by
  have h : (BitVec.ofNat 64 (cfg.toNat - fld 26 0 cfg.toNat + period s)).toNat = setField 26 0 (period s) cfg.toNat := by
    have hlt := setField_lt (v := period s) (lo := 0) (hi := 26) cfg.isLt (by decide) (by decide) (period_lt s)
    rw [BitVec.toNat_ofNat, Nat.mod_eq_of_lt (by simpa [setField] using hlt)]
    simp [setField]
  unfold writeDiscipline
  dsimp only
  split
  · exact h
  · split <;> exact h

@[simp] theorem period_writeDiscipline (cfg : BitVec 64) (s : State) : period (writeDiscipline cfg.toNat s) = period s := by
  rw [period, writeDiscipline_cfg, fld_setField_same _ (by decide) (period_lt s)]

@[simp] theorem disciplined_writeDiscipline (cfg : BitVec 64) (s : State) :
    disciplined (writeDiscipline cfg.toNat s) = bitAt cfg.toNat 63 := by
  rw [disciplined, writeDiscipline_cfg, bitAt_setField_other _ (by decide) (period_lt s) (by decide)]

@[simp] theorem phaseNs_writeDiscipline (cfg : BitVec 64) (s : State) :
    phaseNs (writeDiscipline cfg.toNat s) = fld 56 27 cfg.toNat := by
  rw [phaseNs, writeDiscipline_cfg, fld_setField_other _ (by decide) (period_lt s) (by decide)]

@[simp] theorem writeDiscipline_nextPeriod (c : Nat) (s : State) : (writeDiscipline c s).rul.nextPeriod = s.rul.nextPeriod := by
  unfold writeDiscipline
  dsimp only
  split
  · rfl
  · split <;> rfl

@[simp] theorem writeDiscipline_asked (c : Nat) (s : State) : (writeDiscipline c s).rul.asked = s.rul.asked := by
  unfold writeDiscipline
  dsimp only
  split
  · rfl
  · split <;> rfl

@[simp] theorem writeDiscipline_actions (c : Nat) (s : State) : (writeDiscipline c s).actions = s.actions :=
  (writeDiscipline_does c s).frame .actions (by decide)

@[simp] theorem askedPeriod_writeDiscipline (cfg : BitVec 64) (s : State) :
    askedPeriod (writeDiscipline cfg.toNat s) = askedPeriod s := by
  unfold askedPeriod; simp

/-- RUL_LOCK moves and nothing else of RUL_STATUS. -/
theorem fld_status_writeDiscipline {a b : Nat} (c : Nat) (s : State) (h : a < 4 ∨ 5 < b) :
    fld a b (writeDiscipline c s).rul.status.toNat = fld a b s.rul.status.toNat := by
  unfold writeDiscipline
  dsimp only
  split
  · exact fld_setStatus_other (hi := 5) (lo := 4) _ (by decide) (by decide) (by decide) h
  · split
    · exact fld_setStatus_other (hi := 5) (lo := 4) _ (by decide) (by decide) (by decide) h
    · rfl

@[simp] theorem ruledBound_writeDiscipline (c : Nat) (s : State) : ruledBound (writeDiscipline c s) = ruledBound s := by
  rw [ruledBound, bitAt_eq_fld, fld_status_writeDiscipline c s (by decide), ← bitAt_eq_fld, ruledBound]

/-- With discipline off the lock state is 0. -/
theorem lockOf_writeDiscipline_off {c : Nat} (s : State) (h : bitAt c 63 = false) : lockOf (writeDiscipline c s) = 0 := by
  unfold writeDiscipline
  simp only [h, Bool.false_and, Bool.false_eq_true, if_false, Bool.not_false, if_true]
  exact fld_setStatus_same (hi := 5) (lo := 4) _ (by decide) (by decide) (by decide)

/-! ### The period asked for -/

theorem askPeriod_same {p : Nat} {s : State} (h : p = askedPeriod s) : askPeriod p s = s := by simp [askPeriod, h]

/-- Another period with no ruled work bound waits for the next edge. -/
theorem askPeriod_free {p : Nat} {s : State} (h : p ≠ askedPeriod s) (hb : ruledBound s = false) :
    askPeriod p s = setStatus 8 8 1 { s with rul :=
      { s.rul with asked := s.rul.asked + b2n s.rul.nextPeriod.isNone, nextPeriod := some p } } := by
  have hb' : ∀ n, ruledBound { s with rul := { s.rul with asked := n } } = false := fun _ => hb
  simp [askPeriod, h, hb, hb']

/-- Another period while ruled work is bound is a boundary action. -/
theorem askPeriod_bound {p : Nat} {s : State} (h : p ≠ askedPeriod s) (hb : ruledBound s = true) :
    askPeriod p s = setStatus 8 8 1 (request (.periodChange p) { s with rul := { s.rul with asked := s.rul.asked + 1 } }) := by
  have hb' : ∀ n, ruledBound { s with rul := { s.rul with asked := n } } = true := fun _ => hb
  simp [askPeriod, h, hb, hb', b2n]

/-! ### The conditions of the command -/

/-- A configuration whose period and reserved bits are in their sets names no field as bad, if its phase is R48's matter or fits. -/
theorem rulingBad_none {c : Nat} (h1 : 19000 ≤ fld 26 0 c) (h2 : fld 26 0 c ≤ 95000000) (h3 : fld 62 57 c = 0)
    (h4 : bitAt c 63 = true ∨ phaseTooLong c = false) : ∀ e ∈ rulingBad c, e.2 = false := by
  have h4' : (!bitAt c 63 && phaseTooLong c) = false := by rcases h4 with h | h <;> simp [h]
  simp [rulingBad, h4', h3]
  omega

/-- R48's four conditions, as they fail. -/
theorem discRefused_of {s : State} {c : Nat} (hd : bitAt c 63 = true)
    (h : fld 26 0 c % 19 ≠ 0 ∨ 1000000000 % (fld 26 0 c * 10 / 19) ≠ 0 ∨ fld 26 0 c * 10 / 19 ≤ fld 56 27 c ∨
      disciplined s = false ∧ ∃ e ∈ s.plans, e.2.state ≠ .loaded) : discRefused s c = true := by
  simp only [discRefused, hd, Bool.true_and, Bool.or_eq_true, bne_iff_ne, ne_eq, Bool.and_eq_true, Bool.not_eq_true', List.any_eq_true,
    phaseTooLong, decide_eq_true_eq]
  rcases h with h | h | h | h
  · exact .inl (.inl (.inl h))
  · exact .inl (.inl (.inr h))
  · by_cases h19 : fld 26 0 c % 19 = 0
    · exact .inl (.inr (by omega))
    · exact .inl (.inl (.inl h19))
  · exact .inr h

/-- R48's four conditions, as they hold. -/
theorem discRefused_none {s : State} {c : Nat} (h1 : fld 26 0 c % 19 = 0) (h2 : 1000000000 % (fld 26 0 c * 10 / 19) = 0)
    (h3 : fld 56 27 c < fld 26 0 c * 10 / 19) (h4 : disciplined s = true ∨ ∀ e ∈ s.plans, e.2.state = .loaded) :
    discRefused s c = false := by
  have hp : phaseTooLong c = false := by simp only [phaseTooLong, decide_eq_false_iff_not]; omega
  have ha : (!disciplined s && s.plans.any fun e => e.2.state != .loaded) = false := by
    rcases h4 with h | h
    · simp [h]
    · rw [List.any_eq_false.2 fun e he => by simp [h e he], Bool.and_false]
  simp [discRefused, h1, h2, hp, ha]

theorem discRefused_off {s : State} {c : Nat} (h : bitAt c 63 = false) : discRefused s c = false := by simp [discRefused, h]

/-! ### The command -/

/-- RULING_SET refused under R48. -/
theorem exec_rulingSet_refused {s : State} {r : Req} {cfg : BitVec 64} (h : heardP s r 0x0502 8 = true)
    (hb : ∀ e ∈ rulingBad cfg.toNat, e.2 = false) (hd : discRefused s cfg.toNat = true) :
    exec (.rulingSet r cfg) s = .next (answer r 0x0502 St.discRefused 0 [] s) := by
  show execRulingSet r cfg s = _
  unfold execRulingSet
  dsimp only
  rw [goust_pcmd h hb]
  simp [runCmd, pcmd, hd]

/-- RULING_SET accepted: the discipline and the phase are written, and the period is asked for. -/
theorem exec_rulingSet_accepted {s : State} {r : Req} {cfg : BitVec 64} (h : heardP s r 0x0502 8 = true)
    (hb : ∀ e ∈ rulingBad cfg.toNat, e.2 = false) (hd : discRefused s cfg.toNat = false)
    (hf : fld 26 0 cfg.toNat ≠ askedPeriod s → ruledBound s = true → fitCheck s [] [fld 26 0 cfg.toNat] = none) :
    exec (.rulingSet r cfg) s = .next (acceptCmd r 0x0502
      (.ruling (askPeriod (fld 26 0 cfg.toNat) (writeDiscipline cfg.toNat s)).rul.asked) []
      (askPeriod (fld 26 0 cfg.toNat) (writeDiscipline cfg.toNat s))) := by
  have hfit : (if fld 26 0 cfg.toNat ≠ askedPeriod s ∧ ruledBound s = true then fitCheck s [] [fld 26 0 cfg.toNat] else none) = none := by
    split
    · next hc => exact hf hc.1 hc.2
    · rfl
  show execRulingSet r cfg s = _
  unfold execRulingSet
  dsimp only
  rw [goust_pcmd h hb]
  simp only [runCmd, pcmd, hd, hfit, Bool.false_eq_true, if_false]

/-! ### The statement about discipline (R48) -/

/-- An answer leaves the ruling registers. -/
theorem answer_rul (r : Req) (op status detail : Nat) (body : Bytes) (s : State) : (answer r op status detail body s).rul = s.rul :=
  (answer_does r op status detail body s).frame .rul (by decide)

/-- Settles O27: R48's conditions decide between a refusal and a write of discipline and phase alone. -/
theorem disciplineIsChecked : Obligations.DisciplineIsChecked := by
  unfold Obligations.DisciplineIsChecked
  refine ⟨?refused, ?accepted, answer_rul⟩
  case refused =>
    intro s r cfg hh h1 h2 h3 hd hc
    exact exec_rulingSet_refused hh (rulingBad_none h1 h2 h3 (.inl hd)) (discRefused_of hd hc)
  case accepted =>
    intro s r cfg hh h1 h2 h3 hd h19 hns hph hpl hask
    have hacc := exec_rulingSet_accepted hh (rulingBad_none h1 h2 h3 (.inl hd)) (discRefused_none h19 hns hph hpl)
      fun hne => absurd hask hne
    rw [askPeriod_same (by rw [askedPeriod_writeDiscipline]; exact hask)] at hacc
    exact ⟨_, hacc, by simp [hd], by simp, by simp, (writeDiscipline_does _ _).eq_mix⟩

end Sys2Proof.Machine
end

section
/-! SUPPORT. The ruling's own events and RULING_ACK: what each leaves in the ruling registers, the schedulers and the
waits (R46 to R52, Table 2-2, Table 2-10). -/

namespace Sys2Proof.Machine

@[simp] theorem setStatus_overrunUnits (hi lo v : Nat) (s : State) : (setStatus hi lo v s).rul.overrunUnits = s.rul.overrunUnits := rfl
@[simp] theorem setStatus_cfg (hi lo v : Nat) (s : State) : (setStatus hi lo v s).rul.cfg = s.rul.cfg := rfl
@[simp] theorem setStatus_tick (hi lo v : Nat) (s : State) : (setStatus hi lo v s).rul.tick = s.rul.tick := rfl

/-- An update of the ruling registers alone. -/
theorem setRul_does (x : Ruling) (s : State) : Does [.rul] s { s with rul := x } := by
  with_reducible refine .set rfl rfl rfl (fun f hf => ?_) (.refl s)
  cases f with
  | rul => exact absurd (by decide) hf
  | _ => exact Eq.refl _

/-! ### A period asked for -/

@[simp] theorem askPeriod_cfg (p : Nat) (s : State) : (askPeriod p s).rul.cfg = s.rul.cfg := by
  by_cases h : p = askedPeriod s
  · rw [askPeriod_same h]
  · cases hb : ruledBound s
    · rw [askPeriod_free h hb]; rfl
    · rw [askPeriod_bound h hb]; rfl

@[simp] theorem period_askPeriod (p : Nat) (s : State) : period (askPeriod p s) = period s := by rw [period, askPeriod_cfg, period]

@[simp] theorem disciplined_askPeriod (p : Nat) (s : State) : disciplined (askPeriod p s) = disciplined s := by
  rw [disciplined, askPeriod_cfg, disciplined]

@[simp] theorem phaseNs_askPeriod (p : Nat) (s : State) : phaseNs (askPeriod p s) = phaseNs s := by rw [phaseNs, askPeriod_cfg, phaseNs]

/-- RULING_SET's effect with no ruled work bound: another period waits for the edge, and RUL_STATUS says so. -/
theorem askPeriod_free_effect {p : Nat} {s : State} (h : p ≠ askedPeriod s) (hb : ruledBound s = false) :
    (askPeriod p s).rul.asked = s.rul.asked + (if s.rul.nextPeriod.isNone then 1 else 0) ∧ (askPeriod p s).rul.nextPeriod = some p ∧
      fld 8 8 (askPeriod p s).rul.status.toNat = 1 ∧ lockOf (askPeriod p s) = lockOf s ∧ Does [.rul] s (askPeriod p s) := by
  rw [askPeriod_free h hb]
  refine ⟨rfl, rfl, fld_setStatus_same _ (by decide) (by decide) (by decide), fld_setStatus_other _ (by decide) (by decide) (by decide) (by decide),
    .next (setStatus_does ..) (by decide) (setRul_does ..)⟩

/-- RULING_SET's effect while ruled work is bound: another period is a boundary action. -/
theorem askPeriod_bound_effect {p : Nat} {s : State} (h : p ≠ askedPeriod s) (hb : ruledBound s = true) :
    (askPeriod p s).rul.asked = s.rul.asked + 1 ∧ ⟨.periodChange p, false, false⟩ ∈ (askPeriod p s).actions := by
  rw [askPeriod_bound h hb]
  exact ⟨rfl, List.mem_append_right _ (List.mem_singleton.2 rfl)⟩

/-! ### RULING_ACK (Table 2-2) -/

/-- A field of RUL_STATUS that no acknowledged bit reaches is as before. -/
theorem fld_ackStatus {a b : Nat} {v : BitVec 32} (s : State) (h7 : bitAt v.toNat 7 = false ∨ (a < 7 ∨ 7 < b) ∧ (a < 16 ∨ 31 < b))
    (h6 : bitAt v.toNat 6 = false ∨ a < 6 ∨ 6 < b) :
    fld a b (ackStatus v s).rul.status.toNat = fld a b s.rul.status.toNat := by
  have six : ∀ u : State, fld a b (if bitAt v.toNat 6 then setStatus 6 6 0 u else u).rul.status.toNat = fld a b u.rul.status.toNat := by
    intro u
    rcases h6 with h | h
    · simp [h]
    · split
      · exact fld_setStatus_other u (by decide) (by decide) (by decide) h
      · rfl
  unfold ackStatus
  dsimp only
  rw [six]
  rcases h7 with h | ⟨h, g⟩
  · simp [h]
  · split
    · exact (fld_setStatus_other (hi := 31) (lo := 16) _ (by decide) (by decide) (by decide) g).trans
        (fld_setStatus_other (hi := 7) (lo := 7) _ (by decide) (by decide) (by decide) h)
    · rfl

/-- RUL_OVERRUN_PEND acknowledged goes with its count and its units. -/
theorem ackStatus_overrun {v : BitVec 32} (s : State) (h : bitAt v.toNat 7 = true) :
    bitAt (ackStatus v s).rul.status.toNat 7 = false ∧ fld 31 16 (ackStatus v s).rul.status.toNat = 0 ∧
      (ackStatus v s).rul.overrunUnits = [] := by
  by_cases h6 : bitAt v.toNat 6 = true <;>
    simp [ackStatus, h, h6, bitAt_eq_fld, fld_setStatus_other, fld_setStatus_same]

/-- Units kept for R75 stay until RUL_OVERRUN_PEND is acknowledged. -/
theorem ackStatus_overrunUnits {v : BitVec 32} (s : State) (h : bitAt v.toNat 7 = false) :
    (ackStatus v s).rul.overrunUnits = s.rul.overrunUnits := by
  by_cases h6 : bitAt v.toNat 6 = true <;> simp [ackStatus, h, h6]

theorem ackStatus_late {v : BitVec 32} (s : State) (h : bitAt v.toNat 6 = true) : bitAt (ackStatus v s).rul.status.toNat 6 = false := by
  simp [ackStatus, h, bitAt_eq_fld, fld_setStatus_same]

@[simp] theorem ackStatus_cfg (v : BitVec 32) (s : State) : (ackStatus v s).rul.cfg = s.rul.cfg := by
  by_cases h7 : bitAt v.toNat 7 = true <;> by_cases h6 : bitAt v.toNat 6 = true <;> simp [ackStatus, h7, h6]

@[simp] theorem ackStatus_tick (v : BitVec 32) (s : State) : (ackStatus v s).rul.tick = s.rul.tick := by
  by_cases h7 : bitAt v.toNat 7 = true <;> by_cases h6 : bitAt v.toNat 6 = true <;> simp [ackStatus, h7, h6]

/-- RULING_ACK with its reserved bits zero is carried out. -/
theorem exec_rulingAck {s : State} {r : Req} {v : BitVec 32} (h : heard s r 0x0503 8 = true) (h1 : fld 2 0 v.toNat = 0)
    (h2 : fld 15 9 v.toNat = 0) : exec (.rulingAck r v) s = .next (answer r 0x0503 St.ok 0 [] (ackStatus v s)) := by
  show execRulingAck r v s = _
  unfold execRulingAck
  rw [goust_icmd h (by simp [h1, h2])]
  rfl

/-! ### The boundary action and the lock state -/

theorem exec_periodChange {s : State} {a : Pending} {p : Nat} (h : admitted s (fun a => actionClass a == 6) = some a)
    (ha : a.act = .periodChange p) :
    exec .periodChange s = .next { s with rul := { s.rul with nextPeriod := some p }, actions := s.actions.erase a } := by
  show execPeriodChange s = _
  simp [execPeriodChange, h, ha, doneAction]

/-- Outside the guard band no action is admitted. -/
theorem admitted_none {s : State} (f : Action → Bool) (h : s.clk.guard = false) : admitted s f = none := by simp [admitted, h]

theorem lockOf_setLock {v : Nat} (s : State) (h : v < 4) : lockOf (setLock v s) = v :=
  fld_setStatus_same s (by decide) (by decide) h

theorem bitAt_setLock {v k : Nat} (s : State) (h : v < 4) (h4 : k ≠ 4) (h5 : k ≠ 5) :
    bitAt (setLock v s).rul.status.toNat k = bitAt s.rul.status.toNat k :=
  bitAt_setStatus_other s (by decide) (by decide) h (by omega)

/-! ### RUL_TICK_STEP (R50, R52) -/

/-- Reading an entry of a list whose values have all been changed. -/
theorem look_map {κ α β : Type} [BEq κ] (f : α → β) (k : κ) (l : List (κ × α)) :
    look k (l.map fun e => (e.1, f e.2)) = (look k l).map f := by
  induction l with
  | nil => rfl
  | cons e r ih =>
    simp only [look, List.map_cons, List.find?_cons] at ih ⊢
    cases e.1 == k with
    | true => rfl
    | false => exact ih

/-- The state that a step leaves before the commands that waited for the edge are answered. -/
def stepped (s : State) : State :=
  let a := nearestAligned s ((cyclesToNs s.clk.edge : Int) + s.ptp.offset).toNat
  let u := { renumber a.1 s with rul := { (renumber a.1 s).rul with anchor := some a } }
  { u with clk := { u.clk with len := nextLength u (!ruledBound u) } }

/-- The plans whose state changed in the tick that is renumbered carry its new number. -/
theorem plan?_renumber (k n : Nat) (s : State) :
    plan? (renumber k s) n = (plan? s n).map fun p => if p.changed = nowTick s then { p with changed := k } else p :=
  look_map (α := Plan) (β := Plan) (fun p => if p.changed = nowTick s then { p with changed := k } else p) n s.plans

theorem exec_rulTickStep {s : State} (hp : s.rul.stepPend = true) (hd : s.rul.stepDue = true) :
    exec .rulTickStep s = .next (answerEdge (stepped s)) := by
  show execRulTickStep s = _
  simp [execRulTickStep, hp, hd, stepped]

theorem exec_rulTickStep_idle {s : State} (h : s.rul.stepPend = false ∨ s.rul.stepDue = false) : exec .rulTickStep s = .next s := by
  show execRulTickStep s = _
  rcases h with h | h <;> simp [execRulTickStep, h]

/-! ### RUL_EDGE_MISS (Table 2-10) -/

/-- Flagging what runs on a unit marks its ruled tasks late, whatever records it raises. -/
theorem flagRunning_sched (unit : BitVec 16) (s : State) :
    (flagRunning unit s).sched = s.sched.map fun e =>
      (e.1, { e.2 with running := e.2.running.map fun r => if tasksUnit unit r.task then { r with late := true } else r }) := by
  have keep : ∀ {α : Type} (l : List α) (f : State → α → State) (u : State), (∀ t a, Does [.rul, .tickEvents] t (f t a)) →
      (l.foldl f u).sched = u.sched := fun l f u h => (Does.foldl l h (.refl u)).frame .sched (by decide)
  unfold flagRunning
  dsimp only
  rw [keep _ _ _ fun t a => lateStart_does .., keep _ _ _ fun t a => lateStart_does ..]

/-- The state that RUL_EDGE_MISS leaves before its record. -/
def edgeMissed (unit : BitVec 16) (s : State) : State :=
  mapTasks (fun t => if tasksUnit unit t then { t with missed := true } else t) (flagRunning unit s)

theorem exec_rulEdgeMiss {s : State} {unit : BitVec 16} (h : unitOk unit = true) :
    exec (.rulEdgeMiss unit) s = .next (emitErr ⟨1, 5, rulingUid, 0, 0, 0xff, true, true⟩ (edgeMissed unit s)) := by
  show execRulEdgeMiss unit s = _
  simp [execRulEdgeMiss, h, edgeMissed]

/-- A mark put on the ruled tasks of a unit leaves which tasks they are. -/
theorem tasksUnit_missed (unit : BitVec 16) (t : Task) (b : Bool) : tasksUnit unit { t with missed := b } = tasksUnit unit t := rfl

theorem edgeMissed_running {unit : BitVec 16} {s : State} :
    ∀ e ∈ (edgeMissed unit s).sched, ∀ r ∈ e.2.running, tasksUnit unit r.task = true → r.late = true ∧ r.task.missed = true := by
  simp only [edgeMissed, mapTasks, flagRunning_sched, List.map_map, List.mem_map, Function.comp]
  rintro _ ⟨e, -, rfl⟩ r hr ht
  obtain ⟨x, -, rfl⟩ := List.mem_map.1 hr
  dsimp only [Function.comp] at ht ⊢
  by_cases hx : tasksUnit unit x.task = true
  · simp [hx]
  · simp [hx] at ht

theorem edgeMissed_ready {unit : BitVec 16} {s : State} :
    ∀ e ∈ (edgeMissed unit s).sched, ∀ t ∈ e.2.ready, tasksUnit unit t = true → t.missed = true := by
  simp only [edgeMissed, mapTasks, flagRunning_sched, List.map_map, List.mem_map, Function.comp]
  rintro _ ⟨e, -, rfl⟩ t hr ht
  obtain ⟨x, -, rfl⟩ := List.mem_map.1 hr
  by_cases hx : tasksUnit unit x = true
  · simp [hx]
  · simp [hx] at ht

theorem edgeMissed_does (unit : BitVec 16) (s : State) :
    Does [.rul, .tickEvents, .sched, .cells, .regHeld, .parked] s (edgeMissed unit s) :=
  .next (mapTasks_does ..) (by decide) (.next (flagRunning_does ..) (by decide) (.refl _))

/-! ### The statement about the ruling's events -/

/-- Settles O28: RULING_SET and RULING_ACK field by field, then each of the ruling's own events. -/
theorem rulingEvents : Obligations.RulingEvents := by
  unfold Obligations.RulingEvents
  refine ⟨?set, ?ack, ?change, ?noGuard, ?step, fun s h => exec_rulTickStep_idle h, ?locked, ?notLocked, ?holdover, ?miss, ?noUnit⟩
  case set =>
    intro s r cfg hh h1 h2 h3 hd hph hne
    have hbad := rulingBad_none h1 h2 h3 (.inr (by simp only [phaseTooLong, decide_eq_false_iff_not]; omega))
    have hne' : fld 26 0 cfg.toNat ≠ askedPeriod (writeDiscipline cfg.toNat s) := by simpa using hne
    have hacc := fun hf => exec_rulingSet_accepted hh hbad (discRefused_off hd) hf
    refine ⟨fun hb => ?_, fun hb hf => ?_⟩
    · obtain ⟨hasked, hnext, hpend, hlock, hdoes⟩ := askPeriod_free_effect hne' ((ruledBound_writeDiscipline _ s).trans hb)
      exact ⟨_, hacc fun _ h => absurd h (by simp [hb]), by simpa using hasked, hnext, by simp, by simp [hd], by simp, hpend,
        hlock.trans (lockOf_writeDiscipline_off s hd), ((writeDiscipline_does _ s).trans hdoes).eq_mix⟩
    · obtain ⟨hasked, hact⟩ := askPeriod_bound_effect hne' ((ruledBound_writeDiscipline _ s).trans hb)
      have hdoes := Does.next (T := [.rul, .actions]) (askPeriod_does (fld 26 0 cfg.toNat) (writeDiscipline cfg.toNat s)) (by decide)
        (.mono (writeDiscipline_does _ s) (by decide))
      refine ⟨_, ?_, hact, by simp, hdoes.eq_mix⟩
      rw [hacc fun _ _ => hf, hasked, writeDiscipline_asked]
  case ack =>
    intro s r v hh h1 h2
    refine ⟨_, exec_rulingAck hh h1 h2, ackStatus_overrun s,
      fun h => ⟨?_, fld_ackStatus s (.inl h) (.inr (by decide)), ackStatus_overrunUnits s h⟩,
      ackStatus_late s, fun h => ?_, fld_ackStatus s (.inr (by decide)) (.inr (by decide)), fld_ackStatus s (.inr (by decide)) (.inr (by decide)),
      ackStatus_cfg v s, ackStatus_tick v s, (ackStatus_does v s).eq_mix⟩
    · rw [bitAt_eq_fld, bitAt_eq_fld, fld_ackStatus s (.inl h) (.inr (by decide))]
    · rw [bitAt_eq_fld, bitAt_eq_fld, fld_ackStatus s (.inr (by decide)) (.inl h)]
  case change => exact fun s a p => exec_periodChange
  case noGuard =>
    intro s h
    show execPeriodChange s = _
    simp [execPeriodChange, admitted_none _ h]
  case step =>
    intro s hp hd
    exact ⟨stepped s, _, exec_rulTickStep hp hd, rfl, rfl, rfl, rfl, rfl, fun n => plan?_renumber _ n s, rfl, rfl, rfl, rfl⟩
  case locked =>
    intro s hd hl ha
    refine ⟨setLock 2 s, ?_, lockOf_setLock s (by decide), rfl, fun k h4 h5 => bitAt_setLock s (by decide) h4 h5⟩
    show execRulLockLocked s = _
    simp [execRulLockLocked, hd, hl, ha]
  case notLocked =>
    intro s h
    show execRulLockLocked s = _
    have hc : (disciplined s && lockOf s == 1 && decide (16 ≤ s.rul.aligned)) = false := by
      rcases h with h | h | h
      · simp [h]
      · simp [h]
      · simp [Nat.not_le.2 h]
    simp only [execRulLockLocked, hc, Bool.false_eq_true, if_false]
  case holdover =>
    intro s hd hl
    refine ⟨setLock 3 (advanceTo (s.ptp.lastUpdate + 3800000000) s), ?_, lockOf_setLock _ (by decide), rfl, rfl⟩
    show execPtpHoldover s = _
    rcases hl with hl | hl <;> simp [execPtpHoldover, hd, hl]
  case miss =>
    intro s unit h
    exact ⟨_, exec_rulEdgeMiss h, edgeMissed_running, edgeMissed_ready, (edgeMissed_does unit s).eq_mix⟩
  case noUnit =>
    intro s unit h
    show execRulEdgeMiss unit s = _
    simp [execRulEdgeMiss, h]

end Sys2Proof.Machine
end

section
/-! SUPPORT. The schedulers: what a Scribe record, an insertion and a change of every task leave of each cluster (R76 to R83). -/

namespace Sys2Proof.Machine

/-! ### Scribe records -/

@[simp] theorem scrWrite_seq (tickLo cycle : Nat) (writes : Bool) (r : ScrRec) (b : Scribe) : (scrWrite tickLo cycle writes r b).seq = b.seq + 1 := by
  unfold scrWrite
  dsimp only
  split
  · rfl
  · split <;> rfl

/-- A Scribe record changes nothing of a cluster but its ring. -/
theorem cluster_scribeAt (k at' : Nat) (r : ScrRec) (s : State) (j : Nat) :
    cluster (scribeAt k at' r s) j = { cluster s j with scribe := (cluster (scribeAt k at' r s) j).scribe } := by
  by_cases h : j = k
  · subst h; simp [scribeAt]
  · simp [scribeAt, h]

section

variable (k at' : Nat) (r : ScrRec) (s : State) (j : Nat)

@[simp] theorem cluster_scribeAt_ready : (cluster (scribeAt k at' r s) j).ready = (cluster s j).ready := by rw [cluster_scribeAt]
@[simp] theorem cluster_scribeAt_running : (cluster (scribeAt k at' r s) j).running = (cluster s j).running := by rw [cluster_scribeAt]
@[simp] theorem cluster_scribeAt_releaseWait : (cluster (scribeAt k at' r s) j).releaseWait = (cluster s j).releaseWait := by rw [cluster_scribeAt]
@[simp] theorem cluster_scribeAt_held : (cluster (scribeAt k at' r s) j).held = (cluster s j).held := by rw [cluster_scribeAt]
@[simp] theorem cluster_scribeAt_idle : (cluster (scribeAt k at' r s) j).idle = (cluster s j).idle := by rw [cluster_scribeAt]
@[simp] theorem cluster_scribeAt_nextGrant : (cluster (scribeAt k at' r s) j).nextGrant = (cluster s j).nextGrant := by rw [cluster_scribeAt]

@[simp] theorem cluster_scribeAt_seq : (cluster (scribeAt k at' r s) k).scribe.seq = (cluster s k).scribe.seq + 1 := by
  simp [scribeAt]

end

@[simp] theorem cluster_scribeAt_other {j k : Nat} (at' : Nat) (r : ScrRec) (s : State) (h : j ≠ k) :
    cluster (scribeAt k at' r s) j = cluster s j := by simp [scribeAt, h]

/-! ### List events -/

section

variable (k : Nat) (t : Task) (reason arg : Nat) (s : State)

@[simp] theorem cluster_listEvent_ready : (cluster (listEvent k t reason arg s) k).ready = (cluster s k).ready := by simp [listEvent]
@[simp] theorem cluster_listEvent_running : (cluster (listEvent k t reason arg s) k).running = (cluster s k).running := by simp [listEvent]
@[simp] theorem cluster_listEvent_seq : (cluster (listEvent k t reason arg s) k).scribe.seq = (cluster s k).scribe.seq + 1 := by simp [listEvent]
@[simp] theorem cluster_listEvent_other {j : Nat} (h : j ≠ k) : cluster (listEvent k t reason arg s) j = cluster s j := by simp [listEvent, h]

@[simp] theorem cluster_cancelEvent_ready : (cluster (cancelEvent k t s) k).ready = (cluster s k).ready := by unfold cancelEvent; split <;> simp
@[simp] theorem cluster_cancelEvent_running : (cluster (cancelEvent k t s) k).running = (cluster s k).running := by
  unfold cancelEvent; split <;> simp
@[simp] theorem cluster_cancelEvent_seq : (cluster (cancelEvent k t s) k).scribe.seq = (cluster s k).scribe.seq + 1 := by
  unfold cancelEvent; split <;> simp
@[simp] theorem cluster_cancelEvent_other {j : Nat} (h : j ≠ k) : cluster (cancelEvent k t s) j = cluster s j := by
  unfold cancelEvent; split <;> simp [h]

end

/-! ### Core events -/

@[simp] theorem cluster_coreEvent_ready (t : Task) (reason arg : Nat) (late : Bool) (s : State) (j : Nat) :
    (cluster (coreEvent t reason arg late s) j).ready = (cluster s j).ready := by simp [coreEvent, scribe]
@[simp] theorem cluster_coreEvent_running (t : Task) (reason arg : Nat) (late : Bool) (s : State) (j : Nat) :
    (cluster (coreEvent t reason arg late s) j).running = (cluster s j).running := by simp [coreEvent, scribe]

/-! ### Insertions -/

/-- A task made ready stands last on its cluster's list, ready in the cycle of its insertion (R77). -/
theorem makeReady_ready {t : Task} {k : Nat} (s : State) (h : t.core / 8 = k) :
    (cluster (makeReady t s) k).ready = (cluster s k).ready ++ [{ t with ready := insertSlot (cluster s k) s.clk.cycle }] := by
  subst h; simp [makeReady]

@[simp] theorem cluster_makeReady_held (t : Task) (s : State) : (cluster (makeReady t s) (t.core / 8)).held = (cluster s (t.core / 8)).held := by
  simp [makeReady]

@[simp] theorem cluster_makeReady_other {t : Task} {j : Nat} (s : State) (h : j ≠ t.core / 8) : cluster (makeReady t s) j = cluster s j := by
  simp [makeReady, h]

/-- A suspended task that finds a margin entry goes back as it was (R79). -/
theorem relist_room {t : Task} {k : Nat} {s : State} (hk : t.core / 8 = k) (h : marginUsed (cluster s k) < 3584) :
    relist t s = setCluster k { cluster s k with ready := (cluster s k).ready ++ [t] } s := by
  subst hk; simp [relist, h]

/-- A release finds one of the 512 reserved entries (R76). -/
theorem admitRuled_room {t : Task} {s : State} (h : ruledUsed (cluster s (t.core / 8)) < 512) (hw : (cluster s (t.core / 8)).releaseWait = []) :
    admitRuled t s = makeReady t s := by simp [admitRuled, h, hw]

/-- A release waits while the reserved entries are full or others wait before it (R80). -/
theorem admitRuled_full {t : Task} {s : State}
    (h : 512 ≤ ruledUsed (cluster s (t.core / 8)) ∨ (cluster s (t.core / 8)).releaseWait ≠ []) :
    admitRuled t s = setCluster (t.core / 8) { cluster s (t.core / 8) with releaseWait := (cluster s (t.core / 8)).releaseWait ++ [t] } s := by
  have hc : (decide (ruledUsed (cluster s (t.core / 8)) < 512) && (cluster s (t.core / 8)).releaseWait.isEmpty) = false := by
    rcases h with h | h
    · simp [Nat.not_lt.2 h]
    · simp [h]
  simp only [admitRuled, hc, Bool.false_eq_true, if_false]

@[simp] theorem cluster_advanceTo (c : Nat) (s : State) (k : Nat) : cluster (advanceTo c s) k = cluster s k := rfl

/-- The clock stays where the cycle has passed. -/
theorem advanceTo_of_le {c : Nat} {s : State} (h : c ≤ s.clk.cycle) : advanceTo c s = s := by
  simp [advanceTo, Nat.max_eq_left h]

/-! ### A change of every task -/

/-- A cluster with every task changed. -/
def changedTasks (f : Task → Task) (c : Cluster) : Cluster :=
  { c with ready := c.ready.map f, releaseWait := c.releaseWait.map f, running := c.running.map fun r => { r with task := f r.task } }

theorem cluster_mapTasks (f : Task → Task) (s : State) (j : Nat) : cluster (mapTasks f s) j = changedTasks f (cluster s j) := by
  have h : look j (mapTasks f s).sched = (look j s.sched).map (changedTasks f) := look_map (changedTasks f) j s.sched
  rw [cluster, cluster, h]
  cases look j s.sched <;> rfl

/-- A wait after a change of every task. -/
def changedWait (f : Task → Task) (w : Waiter) : Waiter := match w.what with | .task t => { w with what := .task (f t) } | _ => w

theorem ruledWaiter_changedWait {f : Task → Task} {w : Waiter} {x : Task} (h : ruledWaiter (changedWait f w) = some x) :
    x.ruled = true ∧ ∃ y, x = f y := by
  cases hw : w.what with
  | task t =>
    simp only [ruledWaiter, changedWait, hw, Option.ite_none_right_eq_some, Option.some.injEq] at h
    exact ⟨h.2 ▸ h.1, t, h.2.symm⟩
  | _ => simp [ruledWaiter, changedWait, hw] at h

theorem mem_allWaiters_mapTasks {f : Task → Task} {s : State} {w : Waiter} (h : w ∈ allWaiters (mapTasks f s)) : ∃ v, w = changedWait f v := by
  simp only [allWaiters, List.mem_append, List.mem_flatMap, List.mem_map] at h
  rcases h with (⟨e, he, hw⟩ | ⟨e, he, rfl⟩) | ⟨e, he, rfl⟩ <;> obtain ⟨d, -, rfl⟩ := List.mem_map.1 he
  · obtain ⟨v, -, rfl⟩ := List.mem_map.1 hw
    exact ⟨v, rfl⟩
  · exact ⟨d.2, rfl⟩
  · exact ⟨d.waiter, rfl⟩

/-- A task that is open after a change of every task is ruled and was changed. -/
theorem mem_ruledOpen_mapTasks {f : Task → Task} {s : State} {x : Task} (h : x ∈ ruledOpen (mapTasks f s)) :
    x.ruled = true ∧ ∃ y, x = f y := by
  rcases List.mem_append.1 h with h | h
  · obtain ⟨e, he, hx⟩ := List.mem_flatMap.1 h
    obtain ⟨e, -, rfl⟩ := List.mem_map.1 he
    obtain ⟨hx, hr⟩ := List.mem_filter.1 hx
    refine ⟨hr, ?_⟩
    simp only [List.mem_append, List.map_map, List.mem_map] at hx
    rcases hx with (⟨y, -, rfl⟩ | ⟨y, -, rfl⟩) | ⟨y, -, rfl⟩
    · exact ⟨y, rfl⟩
    · exact ⟨y, rfl⟩
    · exact ⟨y.task, rfl⟩
  · obtain ⟨w, hw, hx⟩ := List.mem_filterMap.1 h
    obtain ⟨v, rfl⟩ := mem_allWaiters_mapTasks hw
    exact ruledWaiter_changedWait hx

/-! ### Tasks open after a Scribe record -/

theorem mem_put {κ α : Type} [BEq κ] {k : κ} {v : α} {l : List (κ × α)} {e : κ × α} (h : e ∈ put k v l) : e = (k, v) ∨ e ∈ l := by
  induction l with
  | nil => exact .inl (List.mem_singleton.1 h)
  | cons d r ih =>
    unfold put at h
    split at h
    · exact (List.mem_cons.1 h).imp id (List.mem_cons_of_mem _)
    · rcases List.mem_cons.1 h with h | h
      · exact .inr (h ▸ List.mem_cons_self)
      · exact (ih h).imp id (List.mem_cons_of_mem _)

/-- A scheduler is one that the state lists, or has nothing in it. -/
theorem cluster_listed (s : State) (k : Nat) : (∃ e ∈ s.sched, e.2 = cluster s k) ∨ cluster s k = Cluster.reset := by
  unfold cluster look
  cases h : s.sched.find? (fun e => e.1 == k) with
  | none => exact .inr rfl
  | some e => exact .inl ⟨e, List.mem_of_find?_eq_some h, rfl⟩

/-- A Scribe record opens no task. -/
theorem mem_ruledOpen_scribeAt {k at' : Nat} {r : ScrRec} {s : State} {x : Task} (h : x ∈ ruledOpen (scribeAt k at' r s)) : x ∈ ruledOpen s := by
  rcases List.mem_append.1 h with h | h
  · refine List.mem_append_left _ ?_
    obtain ⟨e, he, hx⟩ := List.mem_flatMap.1 h
    rcases mem_put he with rfl | he
    · rcases cluster_listed s k with ⟨d, hd, hc⟩ | hc
      · exact List.mem_flatMap.2 ⟨d, hd, by rw [hc]; exact hx⟩
      · simp [hc, Cluster.reset] at hx
    · exact List.mem_flatMap.2 ⟨e, he, hx⟩
  · exact List.mem_append_right _ h

end Sys2Proof.Machine
end

section
/-! SUPPORT. Releases, dispatch, held events and completion: what each does to the cluster it works on (R53, R66, R76 to R80, R96). -/

namespace Sys2Proof.Machine

/-! ### RULED_RELEASE (R53, R66) -/

/-- The task of a ruled ligature's certificate entry. -/
theorem ruledTask_eq {s : State} {slot : Nat} {c : Cert} {t : Task} {p : Plan} {l : Ligature} (hp : plan? s slot = some p)
    (hl : ligOf p c.index = some l) (hr : l.ruled = true) (h : ruledTask s slot c = some t) :
    t.id = slot * 2 ^ 24 + c.index ∧ t.ruled = true ∧ t.level = 0 ∧ t.release = s.clk.edge + c.release ∧
      t.deadline = s.clk.edge + c.release + c.claim := by
  unfold ruledTask ligTask at h
  simp only [hp, hl] at h
  cases hc : coreOf p l.core with
  | none => simp [hc] at h
  | some n =>
    simp only [hc, Option.map_some, Option.some.injEq] at h
    subst h
    exact ⟨rfl, hr, by simp [hr], rfl, rfl⟩

/-- RULED_RELEASE of a ligature without a wait whose units no margin task holds. -/
theorem exec_ruledRelease {s : State} {slot : BitVec 6} {cert : BitVec 16} {p : Plan} {c : Cert} {t : Task} {l : Ligature}
    (hp : plan? s slot.toNat = some p) (hc : p.image.certs[cert.toNat]? = some c) (hs : p.state ≠ .loaded) (hk : c.kind = 1)
    (hb : p.retireBands = 0) (ht : ruledTask s slot.toNat c = some t) (hl : ligOf p c.index = some l) (hw : taskWait s t = none)
    (hh : holders (advanceTo t.release s) t.core (ligUnits l) = []) :
    exec (.ruledRelease slot cert) s = .next (noteReserves (admitRuled t (advanceTo t.release s))) := by
  have hw' : taskWait (advanceTo t.release s) t = none := hw
  show execRuledRelease slot cert s = _
  simp [execRuledRelease, hp, hc, hs, hk, hb, ht, hl, releaseLig, hw', hh, listRuled]

/-- RULED_RELEASE of an entry that releases nothing. -/
theorem exec_ruledRelease_none {s : State} {slot : BitVec 6} {cert : BitVec 16}
    (h : ∀ p c, plan? s slot.toNat = some p → p.image.certs[cert.toNat]? = some c →
      p.state = .loaded ∨ c.kind = 3 ∨ c.kind ≠ 2 ∧ p.retireBands ≠ 0) : exec (.ruledRelease slot cert) s = .next s := by
  show execRuledRelease slot cert s = _
  unfold execRuledRelease
  cases hp : plan? s slot.toNat with
  | none => rfl
  | some p =>
    cases hc : p.image.certs[cert.toNat]? with
    | none => simp [hc]
    | some c =>
      rcases h p c hp hc with h | h | ⟨h2, hb⟩
      · simp [hc, h]
      · simp [hc, h]
      · simp [hc, h2, hb]

/-! ### The choice of a task (R78) -/

/-- The order of R78 in numbers. -/
theorem before_iff (a b : Task) : before a b = true ↔
    a.level < b.level ∨ a.level = b.level ∧ (a.ready < b.ready ∨ a.ready = b.ready ∧ a.id < b.id) := by
  simp [before]

theorem pickTask_isSome {l : List Task} {t : Task} (h : t ∈ l) : ∃ x, pickTask l = some x := by
  cases l with
  | nil => cases h
  | cons a r =>
    unfold pickTask
    cases pickTask r with
    | none => exact ⟨_, rfl⟩
    | some u => exact ⟨if before u a then u else a, by dsimp only; split <;> rfl⟩

/-- The task picked is on the list, and none of the list comes before it. -/
theorem pickTask_least {l : List Task} {x : Task} (h : pickTask l = some x) : x ∈ l ∧ ∀ t ∈ l, before t x = false := by
  simp only [Bool.eq_false_iff, ne_eq, before_iff]
  induction l generalizing x with
  | nil => cases h
  | cons a r ih =>
    unfold pickTask at h
    cases hr : pickTask r with
    | none =>
      have hn : r = [] := by
        cases r with
        | nil => rfl
        | cons b r =>
          obtain ⟨u, hu⟩ := pickTask_isSome (l := b :: r) List.mem_cons_self
          rw [hu] at hr
          cases hr
      simp only [hr, Option.some.injEq] at h
      subst h hn
      simp
    | some u =>
      obtain ⟨hu, hmin⟩ := ih hr
      by_cases hb : before u a = true
      · simp only [hr, hb, if_true, Option.some.injEq] at h
        subst h
        rw [before_iff] at hb
        refine ⟨List.mem_cons_of_mem _ hu, fun t ht => ?_⟩
        rcases List.mem_cons.1 ht with rfl | ht
        · omega
        · exact hmin t ht
      · simp only [hr, hb, Bool.false_eq_true, if_false, Option.some.injEq] at h
        subst h
        rw [before_iff] at hb
        refine ⟨List.mem_cons_self, fun t ht => ?_⟩
        rcases List.mem_cons.1 ht with rfl | ht
        · omega
        · have := hmin t ht; omega

/-- The earlier of a cycle found so far and a task's insertion. -/
def earlier (m : Option Nat) (t : Task) : Option Nat := some (match m with | some x => min x t.ready | none => t.ready)

/-- The earliest insertion of a list of tasks, and of a cycle found before it. -/
theorem foldl_earlier (l : List Task) (m : Option Nat) (h : m ≠ none ∨ l ≠ []) :
    ∃ n, l.foldl earlier m = some n ∧ (m = some n ∨ ∃ t ∈ l, t.ready = n) ∧ (∀ a, m = some a → n ≤ a) ∧ ∀ t ∈ l, n ≤ t.ready := by
  induction l generalizing m with
  | nil =>
    cases m with
    | none => simp at h
    | some a => exact ⟨a, rfl, .inl rfl, fun b hb => by cases hb; exact Nat.le_refl _, by simp⟩
  | cons t r ih =>
    obtain ⟨n, hn, hor, hle, hr⟩ := ih (earlier m t) (.inl (by simp [earlier]))
    refine ⟨n, hn, ?_, ?_, ?_⟩
    · rcases hor with h | ⟨x, hx, e⟩
      · cases m with
        | none => exact .inr ⟨t, List.mem_cons_self, by simpa [earlier] using h⟩
        | some a =>
          have h : min a t.ready = n := by simpa [earlier] using h
          rcases Nat.le_total a t.ready with g | g
          · exact .inl (by rw [← h, Nat.min_eq_left g])
          · exact .inr ⟨t, List.mem_cons_self, by rw [← h, Nat.min_eq_right g]⟩
      · exact .inr ⟨x, List.mem_cons_of_mem _ hx, e⟩
    · rintro a rfl
      exact Nat.le_trans (hle _ rfl) (Nat.min_le_left _ _)
    · intro x hx
      rcases List.mem_cons.1 hx with rfl | hx
      · cases m with
        | none => exact hle _ rfl
        | some a => exact Nat.le_trans (hle _ rfl) (Nat.min_le_right _ _)
      · exact hr x hx

/-- With a task that a core could run, the next insertion is the earliest of such tasks. -/
theorem nextInsertion_least {s : State} {c : Cluster} {core : Nat} {t : Task} (ht : t ∈ c.ready) (he : eligible s c core t = true) :
    ∃ x ∈ c.ready, eligible s c core x = true ∧ nextInsertion s c core = some x.ready ∧
      ∀ y ∈ c.ready, eligible s c core y = true → x.ready ≤ y.ready := by
  have hmem : t ∈ c.ready.filter (eligible s c core) := List.mem_filter.2 ⟨ht, he⟩
  obtain ⟨n, hn, hor, -, hle⟩ := foldl_earlier (c.ready.filter (eligible s c core)) none (.inr (List.ne_nil_of_mem hmem))
  obtain ⟨x, hx, rfl⟩ := hor.resolve_left (by simp)
  obtain ⟨hx, hxe⟩ := List.mem_filter.1 hx
  exact ⟨x, hx, hxe, hn, fun y hy hye => hle y (List.mem_filter.2 ⟨hy, hye⟩)⟩

theorem nextInsertion_none {s : State} {c : Cluster} {core : Nat} (h : ∀ t ∈ c.ready, eligible s c core t = false) :
    nextInsertion s c core = none := by
  have hn : c.ready.filter (eligible s c core) = [] := List.filter_eq_nil_iff.2 fun t ht => by simp [h t ht]
  simp [nextInsertion, hn]

/-! ### Grants (R78) -/

/-- What a grant makes of a task. -/
def granted (s : State) (t : Task) : Running :=
  { task := { t with suspended := none, begun := some (t.begun.getD s.clk.cycle) }, engines := taskUnits s t,
    started := t.begun.getD s.clk.cycle, late := startsLate s t, since := s.clk.cycle }

/-- A cluster with a task granted. -/
def grantedOn (s : State) (k : Nat) (t : Task) : Cluster :=
  { cluster s k with
    ready := (cluster s k).ready.erase t
    idle := (cluster s k).idle.filter (· != t.core)
    running := (cluster s k).running ++ [granted s t]
    nextGrant := s.clk.cycle + 1 }

/-- With no release waiting, a grant moves its task to the running ones with a Scribe record, and may note a late start. -/
theorem grant_sched {k : Nat} {t : Task} {s : State} (hw : (cluster s k).releaseWait = []) :
    ∃ r, (grant k t s).sched = (scribe k r (setCluster k (grantedOn s k t) s)).sched := by
  have hnote : ∀ u, (noteLate t u).sched = u.sched := fun u => (noteLate_does t u).frame .sched (by decide)
  have hwait : ∀ r, (cluster (noteLate t (scribe k r (setCluster k (grantedOn s k t) s))) k).releaseWait = [] := fun r => by
    rw [cluster, hnote, ← cluster]; simpa [scribe, grantedOn] using hw
  have hadmit : ∀ r, (if t.ruled then admitWaiting k (cluster (noteLate t (scribe k r (setCluster k (grantedOn s k t) s))) k).releaseWait.length
      (noteLate t (scribe k r (setCluster k (grantedOn s k t) s))) else noteLate t (scribe k r (setCluster k (grantedOn s k t) s))).sched =
      (scribe k r (setCluster k (grantedOn s k t) s)).sched := fun r => by
    rw [hwait r]
    split <;> exact hnote _
  unfold grant
  cases t.suspended with
  | none => exact ⟨_, hadmit _⟩
  | some c => exact ⟨_, hadmit _⟩

/-- The clusters after a grant with no release waiting: its own with the task granted, the others as before. -/
theorem cluster_grant {k : Nat} {t : Task} {s : State} (hw : (cluster s k).releaseWait = []) :
    (cluster (grant k t s) k).ready = (cluster s k).ready.erase t ∧
      (cluster (grant k t s) k).running = (cluster s k).running ++ [granted s t] ∧
      (cluster (grant k t s) k).nextGrant = s.clk.cycle + 1 ∧ ∀ j, j ≠ k → cluster (grant k t s) j = cluster s j := by
  obtain ⟨r, hr⟩ := grant_sched (t := t) hw
  have hc : ∀ j, cluster (grant k t s) j = cluster (scribe k r (setCluster k (grantedOn s k t) s)) j := fun j => by
    rw [cluster, hr, ← cluster]
  refine ⟨?_, ?_, ?_, fun j hj => ?_⟩ <;> rw [hc]
  · simp [scribe, grantedOn]
  · simp [scribe, grantedOn]
  · simp [scribe, grantedOn]
  · simp [scribe, hj]

/-! ### DISPATCH (R78) -/

section

variable {s : State} {k : BitVec 6} {core : BitVec 3} (hk : k.toNat < 48) (hon : (cluster s k.toNat).off = false)

include hk hon

theorem exec_dispatch_idle (h : nextInsertion s (cluster s k.toNat) (k.toNat * 8 + core.toNat) = none) :
    exec (.dispatch k core) s = .next (goIdle k.toNat (k.toNat * 8 + core.toNat) s) := by
  show execDispatch k core s = _
  simp [execDispatch, Nat.not_le.2 hk, hon, h]

/-- DISPATCH with a task to come moves the clock to its insertion and the free grant, and then grants a task or idles the core. -/
theorem exec_dispatch_at {a : Nat} (h : nextInsertion s (cluster s k.toNat) (k.toNat * 8 + core.toNat) = some a) :
    (∀ t, nextTask (advanceTo (max a (cluster s k.toNat).nextGrant) s) (cluster s k.toNat) (k.toNat * 8 + core.toNat) = some t →
      exec (.dispatch k core) s = .next (grant k.toNat t (advanceTo (max a (cluster s k.toNat).nextGrant) s))) ∧
    (nextTask (advanceTo (max a (cluster s k.toNat).nextGrant) s) (cluster s k.toNat) (k.toNat * 8 + core.toNat) = none →
      exec (.dispatch k core) s =
        .next (goIdle k.toNat (k.toNat * 8 + core.toNat) (advanceTo (max a (cluster s k.toNat).nextGrant) s))) := by
  refine ⟨fun t ht => ?_, fun ht => ?_⟩ <;> show execDispatch k core s = _
  · simp [execDispatch, Nat.not_le.2 hk, hon, h, ht]
  · simp [execDispatch, Nat.not_le.2 hk, hon, h, ht]

end

/-- A core without an eligible task is idle, and no list of its cluster changes. -/
theorem goIdle_effect (k core : Nat) (s : State) :
    core ∈ (cluster (goIdle k core s) k).idle ∧ (cluster (goIdle k core s) k).ready = (cluster s k).ready ∧
      (cluster (goIdle k core s) k).running = (cluster s k).running := by
  unfold goIdle
  dsimp only
  split
  · next h => exact ⟨by simpa using h, rfl, rfl⟩
  · simp [scribe]

/-! ### HELD_EVENT_OFFERED (R80) -/

/-- The held event taken first is of the lowest source. -/
theorem pickHeld_least {l : List Held} {h : Held} (hm : h ∈ l) :
    ∃ g ∈ l, pickHeld l = some g ∧ ∀ f ∈ l, g.source ≤ f.source := by
  induction l generalizing h with
  | nil => cases hm
  | cons a r ih =>
    cases r with
    | nil => exact ⟨a, List.mem_cons_self, rfl, by simp⟩
    | cons b r =>
      obtain ⟨g, hg, hp, hle⟩ := ih List.mem_cons_self
      unfold pickHeld
      rw [hp]
      by_cases hlt : g.source < a.source
      · refine ⟨g, List.mem_cons_of_mem _ hg, by simp [hlt], fun f hf => ?_⟩
        rcases List.mem_cons.1 hf with rfl | hf
        · exact Nat.le_of_lt hlt
        · exact hle f hf
      · refine ⟨a, List.mem_cons_self, by simp [hlt], fun f hf => ?_⟩
        rcases List.mem_cons.1 hf with rfl | hf
        · exact Nat.le_refl _
        · exact Nat.le_trans (Nat.not_lt.1 hlt) (hle f hf)

/-- The state that the held event taken back leaves. -/
def offered (k : Nat) (h : Held) (s : State) : State :=
  let u := setCluster k { cluster s k with held := (cluster s k).held.erase h } s
  if h.task.suspended.isSome then relist h.task u else makeReady h.task u

theorem exec_heldEventOffered {s : State} {k : BitVec 6} {h : Held} (hu : marginUsed (cluster s k.toNat) < 3584)
    (hp : pickHeld (cluster s k.toNat).held = some h) : exec (.heldEventOffered k) s = .next (offered k.toNat h s) := by
  show execHeldEventOffered k s = _
  simp [execHeldEventOffered, hu, hp, offered]

theorem exec_heldEventOffered_none {s : State} {k : BitVec 6} (h : 3584 ≤ marginUsed (cluster s k.toNat) ∨ (cluster s k.toNat).held = []) :
    exec (.heldEventOffered k) s = .next s := by
  show execHeldEventOffered k s = _
  rcases h with h | h
  · simp [execHeldEventOffered, Nat.not_lt.2 h]
  · simp [execHeldEventOffered, h, pickHeld]

/-- A held event of the cluster with a margin entry free goes on the list: a suspended task as it was, another with its insertion's cycle. -/
theorem offered_effect {k : Nat} {h : Held} {s : State} (hk : h.task.core / 8 = k) (hu : marginUsed (cluster s k) < 3584) :
    (cluster (offered k h s) k).held = (cluster s k).held.erase h ∧
      (cluster (offered k h s) k).ready = (cluster s k).ready ++
        [if h.task.suspended.isSome then h.task else { h.task with ready := insertSlot (cluster s k) s.clk.cycle }] := by
  unfold offered
  dsimp only
  split
  · rw [relist_room hk (by simpa [marginUsed] using hu)]
    simp
  · rw [makeReady_ready _ hk]
    subst hk
    simp [insertSlot]

theorem offered_does (k : Nat) (h : Held) (s : State) : Does [.sched] s (offered k h s) := by
  unfold offered
  refine .ite (fun _ => ?_) (fun _ => ?_)
  · exact .next (relist_does ..) (by decide) (setCluster_does ..)
  · exact .next (makeReady_does ..) (by decide) (setCluster_does ..)

/-! ### LIGATURE_COMPLETE (R96) -/

/-- The state that a completed task leaves before its records and its add. -/
def completed (k : Nat) (g : Running) (s : State) : State :=
  coreEvent g.task 6 (g.task.ran + (s.clk.cycle - g.since)) (g.late || g.task.overrun)
    (setCluster k { cluster s k with running := (cluster s k).running.erase g } s)

theorem exec_ligatureComplete {s : State} {task : BitVec 32} {k : Nat} {g : Running} {p : Plan} {l : Ligature}
    (hg : findRunning s task.toNat = some (k, g)) (hp : plan? s g.task.slot = some p) (hl : ligOf p g.task.lig = some l) :
    exec (.ligatureComplete task) s = .next (if ligatureDone s l g = true
      then planAdd g.task.slot l.sigDone (overrunEnd g.task (completed k g s)) else s) := by
  show execLigatureComplete task s = _
  cases hd : ligatureDone s l g <;> simp [execLigatureComplete, hg, hp, hl, hd, completed]

theorem completed_does (k : Nat) (g : Running) (s : State) : Does [.sched] s (completed k g s) :=
  .next (coreEvent_does ..) (by decide) (setCluster_does ..)

theorem completed_effect (k : Nat) (g : Running) (s : State) :
    (cluster (completed k g s) k).running = (cluster s k).running.erase g ∧ (cluster (completed k g s) k).ready = (cluster s k).ready := by
  simp [completed]

/-! ### RUL_OVERRUN (R72) -/

/-- The state that a RUL_OVERRUN leaves before its record. -/
def overrunNoted (unit : BitVec 16) (s : State) : State :=
  let u := setStatus 31 16 (satTo 16 (fld 31 16 s.rul.status.toNat + 1)) (setStatus 7 7 1 s)
  { u with rul := { u.rul with overrunUnits := u.rul.overrunUnits ++ [unit] } }

theorem noteOverrun_eq (unit : BitVec 16) (task slot : Nat) (s : State) :
    noteOverrun unit task slot s = emitErr ⟨1, 1, unit, task, 0, slot, false, false⟩ (overrunNoted unit s) := rfl

theorem overrunNoted_does (unit : BitVec 16) (s : State) : Does [.rul] s (overrunNoted unit s) :=
  .next (setRul_does ..) (by decide) (.next (setStatus_does ..) (by decide) (setStatus_does ..))

theorem overrunNoted_effect (unit : BitVec 16) (s : State) :
    bitAt (overrunNoted unit s).rul.status.toNat 7 = true ∧
      fld 31 16 (overrunNoted unit s).rul.status.toNat = min (fld 31 16 s.rul.status.toNat + 1) 65535 ∧
      (overrunNoted unit s).rul.overrunUnits = s.rul.overrunUnits ++ [unit] ∧ (overrunNoted unit s).rul.shared = s.rul.shared := by
  have he : satTo 16 (fld 31 16 s.rul.status.toNat + 1) = min (fld 31 16 s.rul.status.toNat + 1) 65535 := by simp [satTo]
  have hs : min (fld 31 16 s.rul.status.toNat + 1) 65535 < 2 ^ (31 + 1 - 16) := by omega
  have hst : (overrunNoted unit s).rul.status =
      (setStatus 31 16 (min (fld 31 16 s.rul.status.toNat + 1) 65535) (setStatus 7 7 1 s)).rul.status := by rw [← he]; rfl
  refine ⟨?_, ?_, rfl, rfl⟩
  · rw [hst, bitAt_setStatus_other _ (by decide) (by decide) hs (by decide), bitAt_setStatus_same s (by decide) (by decide)]
    rfl
  · rw [hst, fld_setStatus_same _ (by decide) (by decide) hs]

/-- A ruled task past its deadline, marked with the unit that still runs, and its Scribe record. -/
def overrunMarked (t : Task) (unit : BitVec 16) (s : State) : State :=
  coreEvent t 7 (t.deadline - t.release) true (markOverrun t.id unit (advanceTo t.deadline s))

theorem overrunMarked_does (t : Task) (unit : BitVec 16) (s : State) :
    Does [.clk, .sched, .cells, .regHeld, .parked] s (overrunMarked t unit s) :=
  .next (coreEvent_does ..) (by decide) (.next (markOverrun_does ..) (by decide) (.next (advanceTo_does ..) (by decide) (.refl _)))

/-- The clock stands at the deadline at the earliest. -/
theorem overrunMarked_clk (t : Task) (unit : BitVec 16) (s : State) :
    (overrunMarked t unit s).clk.cycle = max s.clk.cycle t.deadline :=
  congrArg Clock.cycle ((coreEvent_does t 7 (t.deadline - t.release) true (markOverrun t.id unit (advanceTo t.deadline s))).frame .clk (by decide))

/-- What has the id of a task marked in overrun is marked. -/
theorem overrunMarked_marks {t : Task} {unit : BitVec 16} {s : State} {x : Task} (h : x ∈ ruledOpen (overrunMarked t unit s)) (hid : x.id = t.id) :
    x.overrun = true ∧ x.lateUnit = unit := by
  obtain ⟨hr, y, rfl⟩ := mem_ruledOpen_mapTasks (mem_ruledOpen_scribeAt h)
  by_cases hy : (y.id == t.id && y.ruled) = true
  · simp [hy]
  · simp only [hy, Bool.false_eq_true, if_false] at hr hid
    simp [hr, hid] at hy

/-- A mark moves no task. -/
theorem overrunMarked_ids (t : Task) (unit : BitVec 16) (s : State) (j : Nat) :
    (cluster (overrunMarked t unit s) j).ready.map (·.id) = (cluster s j).ready.map (·.id) ∧
      (cluster (overrunMarked t unit s) j).running.map (·.task.id) = (cluster s j).running.map (·.task.id) := by
  have hid : ∀ x : Task, (if (x.id == t.id && x.ruled) = true then { x with overrun := true, lateUnit := unit } else x).id = x.id :=
    fun x => by split <;> rfl
  simp only [overrunMarked, cluster_coreEvent_ready, cluster_coreEvent_running, markOverrun, cluster_mapTasks, changedTasks, List.map_map,
    cluster_advanceTo]
  exact ⟨List.map_congr_left fun x _ => hid x, List.map_congr_left fun x _ => hid x.task⟩

theorem exec_rulOverrun_task {s : State} {task : BitVec 32} {unit : BitVec 16} {t : Task}
    (h : (ruledOpen s).find? (fun t => t.id == task.toNat) = some t) (ho : t.overrun = false) :
    exec (.rulOverrun task unit) s =
      .next (emitErr ⟨1, 1, unit, t.id, 0, t.slot, false, false⟩ (overrunNoted unit (overrunMarked t unit s))) := by
  show execRulOverrun task unit s = _
  simp [execRulOverrun, h, ho, noteOverrun_eq, overrunMarked]

end Sys2Proof.Machine
end

section
/-! SUPPORT. The statement about scheduling: releases, dispatch, held events, completion and overrun, clause by clause (02_ruling.md). -/

namespace Sys2Proof.Machine

/-! ### RULED_RELEASE -/

/-- A release that finds a reserved entry. -/
theorem ruledRelease_listed (s : State) (slot : BitVec 6) (cert : BitVec 16) (p : Plan) (c : Cert) (t : Task) (l : Ligature)
    (hp : plan? s slot.toNat = some p) (hc : p.image.certs[cert.toNat]? = some c) (hs : p.state ≠ .loaded) (hk : c.kind = 1)
    (hb : p.retireBands = 0) (ht : ruledTask s slot.toNat c = some t) (hl : ligOf p c.index = some l) (hr : l.ruled = true)
    (hw : taskWait s t = none) (hh : holders (advanceTo t.release s) t.core (ligUnits l) = [])
    (hu : ruledUsed (cluster s (t.core / 8)) < 512) (hrw : (cluster s (t.core / 8)).releaseWait = []) :
    ∃ u x, exec (.ruledRelease slot cert) s = .next (noteReserves u) ∧
      (cluster u (t.core / 8)).ready = (cluster s (t.core / 8)).ready ++ [x] ∧
      x.id = slot.toNat * 2 ^ 24 + c.index ∧ x.ruled = true ∧ x.level = 0 ∧ x.release = s.clk.edge + c.release ∧
      x.deadline = s.clk.edge + c.release + c.claim ∧
      x.ready = insertSlot (cluster s (t.core / 8)) u.clk.cycle ∧ u.clk.cycle = max s.clk.cycle (s.clk.edge + c.release) ∧
      u = { s with sched := u.sched, clk := u.clk } ∧ (∀ j, j ≠ t.core / 8 → cluster u j = cluster s j) := by
  obtain ⟨hid, hruled, hlevel, hrel, hdl⟩ := ruledTask_eq hp hl hr ht
  have hdoes := makeReady_does t (advanceTo t.release s)
  have hclk := hdoes.frame .clk (by decide)
  refine ⟨makeReady t (advanceTo t.release s), _, ?_, makeReady_ready _ rfl, hid, hruled, hlevel, hrel, hdl, ?_, ?_, ?_, fun j hj => ?_⟩
  · rw [exec_ruledRelease hp hc hs hk hb ht hl hw hh, admitRuled_room (s := advanceTo t.release s) hu hrw]
  · rw [hclk]; rfl
  · rw [hclk, ← hrel]; rfl
  · exact (Does.next (T := [.sched, .clk]) hdoes (by decide) (.mono (advanceTo_does ..) (by decide))).eq_mix
  · rw [cluster_makeReady_other _ hj, cluster_advanceTo]

/-- A release that waits for a reserved entry. -/
theorem ruledRelease_waits (s : State) (slot : BitVec 6) (cert : BitVec 16) (p : Plan) (c : Cert) (t : Task) (l : Ligature)
    (hp : plan? s slot.toNat = some p) (hc : p.image.certs[cert.toNat]? = some c) (hs : p.state ≠ .loaded) (hk : c.kind = 1)
    (hb : p.retireBands = 0) (ht : ruledTask s slot.toNat c = some t) (hl : ligOf p c.index = some l)
    (hw : taskWait s t = none) (hh : holders (advanceTo t.release s) t.core (ligUnits l) = [])
    (hu : 512 ≤ ruledUsed (cluster s (t.core / 8)) ∨ (cluster s (t.core / 8)).releaseWait ≠ []) :
    ∃ u, exec (.ruledRelease slot cert) s = .next (noteReserves u) ∧ (cluster u (t.core / 8)).ready = (cluster s (t.core / 8)).ready ∧
      (cluster u (t.core / 8)).releaseWait = (cluster s (t.core / 8)).releaseWait ++ [t] ∧ u = { s with sched := u.sched, clk := u.clk } := by
  refine ⟨admitRuled t (advanceTo t.release s), exec_ruledRelease hp hc hs hk hb ht hl hw hh, ?_, ?_, ?_⟩
  · rw [admitRuled_full (s := advanceTo t.release s) hu]; simp
  · rw [admitRuled_full (s := advanceTo t.release s) hu]; simp
  · exact (Does.next (T := [.sched, .clk]) (admitRuled_does ..) (by decide) (.mono (advanceTo_does ..) (by decide))).eq_mix

/-! ### DISPATCH -/

/-- DISPATCH with an eligible task already inserted and the grant free grants the first of them now. -/
theorem dispatch_grants (s : State) (k : BitVec 6) (core : BitVec 3) (t : Task) (hk : k.toNat < 48) (hon : (cluster s k.toNat).off = false)
    (ht : t ∈ (cluster s k.toNat).ready)
    (he : eligible s (cluster s k.toNat) (k.toNat * 8 + core.toNat) t = true) (hr : t.ready ≤ s.clk.cycle)
    (hg : (cluster s k.toNat).nextGrant ≤ s.clk.cycle) :
    ∃ x ∈ (cluster s k.toNat).ready, exec (.dispatch k core) s = .next (grant k.toNat x s) ∧
      eligible s (cluster s k.toNat) (k.toNat * 8 + core.toNat) x = true ∧ x.ready ≤ s.clk.cycle ∧ before t x = false := by
  obtain ⟨y, -, -, hy, hle⟩ := nextInsertion_least ht he
  have hnow := advanceTo_of_le (Nat.max_le.2 ⟨Nat.le_trans (hle t ht he) hr, hg⟩)
  have hin : t ∈ (cluster s k.toNat).ready.filter fun t =>
      eligible s (cluster s k.toNat) (k.toNat * 8 + core.toNat) t && decide (t.ready ≤ s.clk.cycle) :=
    List.mem_filter.2 ⟨ht, by simp [he, hr]⟩
  obtain ⟨x, hx⟩ := pickTask_isSome hin
  obtain ⟨hmem, hmin⟩ := pickTask_least hx
  obtain ⟨hmem, hprop⟩ := List.mem_filter.1 hmem
  simp only [Bool.and_eq_true, decide_eq_true_eq] at hprop
  refine ⟨x, hmem, ?_, hprop.1, hprop.2, hmin t hin⟩
  have hexec := (exec_dispatch_at hk hon hy).1 x (by rw [hnow]; exact hx)
  rwa [hnow] at hexec

/-- DISPATCH with every eligible task inserted later waits for the first of them and for the grant. -/
theorem dispatch_waits (s : State) (k : BitVec 6) (core : BitVec 3) (hk : k.toNat < 48) (hon : (cluster s k.toNat).off = false)
    (he : ∃ t ∈ (cluster s k.toNat).ready, eligible s (cluster s k.toNat) (k.toNat * 8 + core.toNat) t = true)
    (hl : ∀ t ∈ (cluster s k.toNat).ready, eligible s (cluster s k.toNat) (k.toNat * 8 + core.toNat) t = true → s.clk.cycle < t.ready) :
    ∃ u t, exec (.dispatch k core) s = .next u ∧ t ∈ (cluster s k.toNat).ready ∧
      eligible s (cluster s k.toNat) (k.toNat * 8 + core.toNat) t = true ∧ u.clk.cycle = max t.ready (cluster s k.toNat).nextGrant ∧
      ∀ x ∈ (cluster s k.toNat).ready, eligible s (cluster s k.toNat) (k.toNat * 8 + core.toNat) x = true → t.ready ≤ x.ready := by
  obtain ⟨t, ht, he⟩ := he
  obtain ⟨y, hy, hye, hn, hle⟩ := nextInsertion_least ht he
  obtain ⟨hsome, hnone⟩ := exec_dispatch_at hk hon hn
  have hcyc : (advanceTo (max y.ready (cluster s k.toNat).nextGrant) s).clk.cycle = max y.ready (cluster s k.toNat).nextGrant :=
    Nat.max_eq_right (Nat.le_trans (Nat.le_of_lt (hl y hy hye)) (Nat.le_max_left _ _))
  cases hx : nextTask (advanceTo (max y.ready (cluster s k.toNat).nextGrant) s) (cluster s k.toNat) (k.toNat * 8 + core.toNat) with
  | some x => exact ⟨_, y, hsome x hx, hy, hye, by rw [(grant_does ..).frame .clk (by decide), hcyc], hle⟩
  | none => exact ⟨_, y, hnone hx, hy, hye, by rw [(goIdle_does ..).frame .clk (by decide), hcyc], hle⟩

/-! ### RUL_OVERRUN of streams and shared units -/

/-- RUL_OVERRUN of a task already marked has no effect. -/
theorem exec_rulOverrun_marked {s : State} {task : BitVec 32} {unit : BitVec 16} {t : Task}
    (h : (ruledOpen s).find? (fun t => t.id == task.toNat) = some t) (ho : t.overrun = true) : exec (.rulOverrun task unit) s = .next s := by
  show execRulOverrun task unit s = _
  simp [execRulOverrun, h, ho]

theorem exec_rulOverrun_stream {s : State} {task : BitVec 32} {unit : BitVec 16} {k : Nat × Nat} {x : Stream} {due : Nat}
    (h : (ruledOpen s).find? (fun t => t.id == task.toNat) = none) (hs : lateStream s unit task.toNat = some (k, x, due)) :
    exec (.rulOverrun task unit) s = .next (emitErr ⟨1, 1, unit, task.toNat, 0, k.1, false, false⟩
      (overrunNoted unit (advanceTo due (setStream k { x with overrun := some (task.toNat, due) } s)))) := by
  show execRulOverrun task unit s = _
  simp [execRulOverrun, h, hs, noteOverrun_eq, setStream]

/-- A SHARED_TASK past its deadline marked with the id of its record. -/
def sharedMarked (x : SharedRun) (id : Nat) (s : State) : State :=
  { s with rul := { s.rul with shared := s.rul.shared.map fun y => if y = x then { y with overrun := some id } else y } }

theorem exec_rulOverrun_shared {s : State} {task : BitVec 32} {unit : BitVec 16} {x : SharedRun}
    (h : (ruledOpen s).find? (fun t => t.id == task.toNat) = none) (hs : lateStream s unit task.toNat = none)
    (hx : lateShared s unit task.toNat = some x) :
    exec (.rulOverrun task unit) s = .next (emitErr ⟨1, 1, unit, task.toNat, 0, x.slot, false, false⟩
      (overrunNoted unit (advanceTo x.deadline (sharedMarked x task.toNat s)))) := by
  show execRulOverrun task unit s = _
  simp [execRulOverrun, h, hs, hx, noteOverrun_eq, sharedMarked]

theorem exec_rulOverrun_none {s : State} {task : BitVec 32} {unit : BitVec 16}
    (h : (ruledOpen s).find? (fun t => t.id == task.toNat) = none) (hs : lateStream s unit task.toNat = none)
    (hx : lateShared s unit task.toNat = none) : exec (.rulOverrun task unit) s = .next s := by
  show execRulOverrun task unit s = _
  simp [execRulOverrun, h, hs, hx]

/-! ### The statement -/

/-- Settles O31: each clause is the rule of its operation, put together here. -/
theorem scheduling : Obligations.Scheduling := by
  unfold Obligations.Scheduling
  refine ⟨ruledRelease_listed, ?waits, fun s slot cert => exec_ruledRelease_none, ?grants, dispatch_waits, ?idle, ?offered,
    fun s k => exec_heldEventOffered_none, ?complete, ?absent, ?overrun, ?stream, ?shared, fun s task unit => exec_rulOverrun_none⟩
  case waits =>
    intro s slot cert p c t l hp hc hs hk hb ht hl _ hw hh hu
    exact ruledRelease_waits s slot cert p c t l hp hc hs hk hb ht hl hw hh hu
  case grants =>
    intro s k core t hk hon hw ht he hr hg
    obtain ⟨x, hx, hexec, hxe, hxr, hb⟩ := dispatch_grants s k core t hk hon ht he hr hg
    obtain ⟨hready, hrunning, hnext, hother⟩ := cluster_grant (t := x) hw
    have hdoes := grant_does k.toNat x s
    exact ⟨_, x, granted s x, hexec, hx, hxe, hxr, hb, hready, hrunning, rfl, rfl, rfl, rfl, hnext, hother,
      hdoes.frame .mem (by decide), hdoes.frame .cells (by decide), hdoes.frame .clk (by decide)⟩
  case idle =>
    intro s k core hk hon h
    obtain ⟨hidle, hready, hrunning⟩ := goIdle_effect k.toNat (k.toNat * 8 + core.toNat) s
    exact ⟨_, exec_dispatch_idle hk hon (nextInsertion_none h), hidle, hready, hrunning, (goIdle_does ..).eq_mix⟩
  case offered =>
    intro s k h hu hh hall
    obtain ⟨g, hg, hp, hle⟩ := pickHeld_least hh
    obtain ⟨hheld, hready⟩ := offered_effect (hall g hg) hu
    exact ⟨_, g, _, exec_heldEventOffered hu hp, hg, hle, hheld, hready, rfl, (offered_does ..).eq_mix⟩
  case complete =>
    intro s task k g p l hg _ hp hl
    have hexec := exec_ligatureComplete hg hp hl
    refine ⟨fun hd => ?_, fun hd => by rw [hexec]; simp [hd]⟩
    obtain ⟨hrunning, hready⟩ := completed_effect k g s
    refine ⟨completed k g s, by rw [hexec]; simp [hd], hrunning, hready, (completed_does ..).eq_mix,
      fun ho => by simp [overrunEnd, ho], fun ho => ?_⟩
    have hclk : (completed k g s).clk = s.clk := (completed_does k g s).frame .clk (by decide)
    simp [overrunEnd, ho, hclk]
  case absent =>
    intro s task h
    show execLigatureComplete task s = _
    simp [execLigatureComplete, h]
  case overrun =>
    intro s task unit t h
    refine ⟨fun ho => ?_, exec_rulOverrun_marked h⟩
    obtain ⟨hpend, hcount, hunits, -⟩ := overrunNoted_effect unit (overrunMarked t unit s)
    have hdoes := overrunMarked_does t unit s
    have hrul : (overrunMarked t unit s).rul = s.rul := hdoes.frame .rul (by decide)
    rw [hrul] at hcount hunits
    exact ⟨_, exec_rulOverrun_task h ho, hpend, hcount, hunits, overrunMarked_clk t unit s, fun x => overrunMarked_marks,
      overrunMarked_ids t unit s, hdoes.frame .mem (by decide), hdoes.frame .plans (by decide), hdoes.frame .streams (by decide)⟩
  case stream =>
    intro s task unit k x due h hs
    obtain ⟨hpend, -, hunits, -⟩ := overrunNoted_effect unit (advanceTo due (setStream k { x with overrun := some (task.toNat, due) } s))
    exact ⟨_, exec_rulOverrun_stream h hs, stream?_setStream_same k _ s, fun j => stream?_setStream_other j k _ s, hpend, hunits, rfl,
      (Does.next (T := [.clk, .rul, .streams]) (overrunNoted_does ..) (by decide)
        (.next (advanceTo_does ..) (by decide) (.mono (setStream_does ..) (by decide)))).eq_mix⟩
  case shared =>
    intro s task unit x h hs hx
    obtain ⟨hpend, -, hunits, hshared⟩ := overrunNoted_effect unit (advanceTo x.deadline (sharedMarked x task.toNat s))
    refine ⟨_, exec_rulOverrun_shared h hs hx, ?_, ?_, hpend, hunits, rfl,
      (Does.next (T := [.clk, .rul]) (overrunNoted_does ..) (by decide)
        (.next (advanceTo_does ..) (by decide) (.mono (setRul_does ..) (by decide)))).eq_mix⟩
    · rw [hshared]
      exact List.mem_map.2 ⟨x, List.mem_of_find?_eq_some hx, if_pos rfl⟩
    · rw [hshared]
      exact List.length_map ..

end Sys2Proof.Machine
end

section
/-! SUPPORT. TASK_SUBMIT and TASK_CANCEL: what each accepts and refuses, and what a cancelled task takes with it (R77, R80, R81, R319, R434). -/

namespace Sys2Proof.Machine

/-! ### TASK_SUBMIT (R434) -/

/-- The margin tasks that TASK_SUBMIT makes of ligatures of a plan at a level (the plan's own where 0). -/
def submitted (s : State) (slot level : Byte) (p : Plan) (ligs : List (BitVec 32)) : List Task :=
  ligs.filterMap fun l => ligTask s slot.toNat l.toNat (some (if level = 0 then p.image.marginLevel else level.toNat))

/-- A list of ligatures that the plan has names none it does not have. -/
theorem find?_missing_none {p : Plan} {ligs : List (BitVec 32)} (hl : ∀ l ∈ ligs, (ligOf p l.toNat).isSome = true) :
    ((List.range ligs.length).zip ligs).find? (fun e => (ligOf p e.2.toNat).isNone) = none := by
  refine List.find?_eq_none.2 fun e he => ?_
  simp [Option.isSome_iff_ne_none.1 (hl e.2 (List.of_mem_zip he).2)]

section

variable {s : State} {r : Req} {slot level : Byte} {ligs : List (BitVec 32)}
  (h : heard s r 0x0504 (alignUp (8 + 4 * ligs.length) 8) = true) (hs : slot.toNat < 64) (hv : level.toNat ≤ 7) (hn : ligs.length ≤ 880)

include h hs hv hn

/-- TASK_SUBMIT to a slot without an ACTIVE plan, or one being reset. -/
theorem exec_taskSubmit_planState (hp : ∀ p, plan? s slot.toNat = some p → p.state ≠ .active ∨ p.resetting = true) :
    exec (.taskSubmit r slot level ligs) s = .next (answer r 0x0504 St.planState 0 [] s) := by
  show execTaskSubmit r slot level ligs s = _
  unfold execTaskSubmit
  rw [goust_icmd h (by simp; omega)]
  cases hq : plan? s slot.toNat with
  | none => simp [runCmd, icmd, hq]
  | some p => rcases hp p hq with h | h <;> simp [runCmd, icmd, hq, h]

variable {p : Plan} (hp : plan? s slot.toNat = some p) (ha : p.state = .active) (hr : p.resetting = false)
  (hl : ∀ l ∈ ligs, (ligOf p l.toNat).isSome = true)

include hp ha hr hl

/-- TASK_SUBMIT of a ruled ligature. -/
theorem exec_taskSubmit_ruled {l : BitVec 32} {x : Ligature} (hm : l ∈ ligs) (hx : ligOf p l.toNat = some x) (hru : x.ruled = true) :
    exec (.taskSubmit r slot level ligs) s = .next (answer r 0x0504 St.taskState 0 [] s) := by
  have hany : (ligs.any fun l => (ligOf p l.toNat).any (·.ruled)) = true := List.any_eq_true.2 ⟨l, hm, by simp [hx, hru]⟩
  show execTaskSubmit r slot level ligs s = _
  unfold execTaskSubmit
  rw [goust_icmd h (by simp; omega)]
  simp only [runCmd, icmd, hp, ha, hr, find?_missing_none hl, hany]
  rfl

/-- TASK_SUBMIT of margin ligatures with room for each on its cluster. -/
theorem exec_taskSubmit_ok (hm : ∀ l ∈ ligs, ∀ x, ligOf p l.toNat = some x → x.ruled = false)
    (hroom : ∀ k, k < 48 → marginUsed (cluster s k) + entriesFor (submitted s slot level p ligs) k ≤ 3584) :
    exec (.taskSubmit r slot level ligs) s = .next (answer r 0x0504 St.ok 0 []
      ((submitted s slot level p ligs).foldl (fun s t => startMargin 11 t s) s)) := by
  have hany : (ligs.any fun l => (ligOf p l.toNat).any (·.ruled)) = false := by
    refine List.any_eq_false.2 fun l hl' => ?_
    cases hx : ligOf p l.toNat with
    | none => simp
    | some x => simp [hm l hl' x hx]
  have hfull : (List.range 48).find? (fun k => decide (3584 < marginUsed (cluster s k) + entriesFor (submitted s slot level p ligs) k) &&
      entriesFor (submitted s slot level p ligs) k != 0) = none := by
    refine List.find?_eq_none.2 fun k hk => ?_
    simp [Nat.not_lt.2 (hroom k (List.mem_range.1 hk))]
  unfold submitted at hfull ⊢
  show execTaskSubmit r slot level ligs s = _
  unfold execTaskSubmit
  rw [goust_icmd h (by simp; omega)]
  simp only [runCmd, icmd, hp, ha, hr, find?_missing_none hl, hany, hfull]
  rfl

end

/-! ### TASK_CANCEL (R81) -/

section

variable {s : State} {r : Req} {task : BitVec 32} (h : heard s r 0x0505 8 = true)

include h

theorem exec_taskCancel_listed {k : Nat} {t : Task} (hf : findWaiting s task.toNat = some (k, t)) :
    exec (.taskCancel r task) s = .next (answer r 0x0505 St.ok 0 (payload [.num 1 (if t.suspended.isSome then 1 else 0)])
      (cancelStreams t (cancelListed k t s))) := by
  show execTaskCancel r task s = _
  unfold execTaskCancel
  dsimp only
  rw [goust_icmd h (by simp)]
  simp [runCmd, icmd, hf, b2n]

variable (hf : findWaiting s task.toNat = none)

include hf

theorem exec_taskCancel_wait {w : Waiter} {t : Task} (hc : findCellWait s task.toNat = some (w, t)) :
    exec (.taskCancel r task) s = .next (answer r 0x0505 St.ok 0 (payload [.num 1 0]) (cancelStreams t (dropWait w t s))) := by
  show execTaskCancel r task s = _
  unfold execTaskCancel
  dsimp only
  rw [goust_icmd h (by simp)]
  simp [runCmd, icmd, hf, hc]

variable (hc : findCellWait s task.toNat = none)

include hc

theorem exec_taskCancel_running {k : Nat} {x : Running} (hx : findRunning s task.toNat = some (k, x)) :
    exec (.taskCancel r task) s = .next (if x.task.ruled = true then answer r 0x0505 St.taskState 0 [] s
      else answer r 0x0505 St.ok 0 (payload [.num 1 1]) (cancelStreams x.task (cancelRunning k x s))) := by
  show execTaskCancel r task s = _
  unfold execTaskCancel
  dsimp only
  rw [goust_icmd h (by simp)]
  cases hr : x.task.ruled <;> simp [runCmd, icmd, hf, hc, hx, hr]

theorem exec_taskCancel_none (hx : findRunning s task.toNat = none) :
    exec (.taskCancel r task) s = .next (if knownMargin s task.toNat then answer r 0x0505 St.ok 0 (payload [.num 1 2]) s
      else answer r 0x0505 St.taskState 0 [] s) := by
  show execTaskCancel r task s = _
  unfold execTaskCancel
  dsimp only
  rw [goust_icmd h (by simp)]
  cases hk : knownMargin s task.toNat <;> simp [runCmd, icmd, hf, hc, hx, hk]

end

/-! ### What a cancel takes off -/

/-- A task found on a list is a margin one. -/
theorem findWaiting_margin {s : State} {id k : Nat} {t : Task} (h : findWaiting s id = some (k, t)) : t.ruled = false := by
  obtain ⟨e, -, he⟩ := List.exists_of_findSome?_eq_some h
  obtain ⟨x, hx, hx'⟩ := Option.map_eq_some_iff.1 he
  have hp := List.find?_some hx
  cases hx'
  simp only [Bool.and_eq_true, Bool.not_eq_true'] at hp
  exact hp.2

/-- A task found waiting on a cell is a margin one. -/
theorem findCellWait_margin {s : State} {id : Nat} {w : Waiter} {t : Task} (h : findCellWait s id = some (w, t)) : t.ruled = false := by
  obtain ⟨v, -, hv⟩ := List.exists_of_findSome?_eq_some h
  cases hw : v.what with
  | task x =>
    simp only [hw, Option.ite_none_right_eq_some, Option.some.injEq, Prod.mk.injEq, Bool.and_eq_true, Bool.not_eq_true'] at hv
    exact hv.2.2 ▸ hv.1.2
  | _ => simp [hw] at hv

/-- A task taken off its cluster's lists: one CANCEL record there, the running ones and every other cluster as before. -/
theorem cancelListed_effect (k : Nat) (t : Task) (s : State) :
    (∀ j, j ≠ k → cluster (cancelListed k t s) j = cluster s j) ∧ (cluster (cancelListed k t s) k).running = (cluster s k).running ∧
      (cluster (cancelListed k t s) k).scribe.seq = (cluster s k).scribe.seq + 1 ∧
      (t ∈ (cluster s k).ready → (cluster (cancelListed k t s) k).ready = (cluster s k).ready.erase t) := by
  unfold cancelListed
  dsimp only
  split
  · exact ⟨fun j hj => by simp [hj], by simp, by simp, fun _ => by simp⟩
  · next h => exact ⟨fun j hj => by simp [hj], by simp, by simp, fun ht => absurd (List.contains_iff_mem.2 ht) h⟩

/-- A wait dropped is nowhere among the waits. -/
theorem dropWait_gone (w : Waiter) (t : Task) (s : State) :
    (∀ e ∈ (dropWait w t s).cells, w ∉ e.2.waiters) ∧ (∀ e ∈ (dropWait w t s).regHeld, e.2 ≠ w) ∧
      (∀ p ∈ (dropWait w t s).parked, p.waiter ≠ w) := by
  refine ⟨fun e he hw => ?_, fun e he hw => ?_, fun p hp hw => ?_⟩
  · obtain ⟨d, -, rfl⟩ := List.mem_map.1 he
    simpa using (List.mem_filter.1 hw).2
  · simpa [hw] using (List.mem_filter.1 he).2
  · simpa [hw] using (List.mem_filter.1 hp).2

theorem cancelRunning_running (k : Nat) (x : Running) (s : State) :
    (cluster (cancelRunning k x s) k).running = (cluster s k).running.erase x := by
  have h : ∀ ns, cluster { setCluster k { cluster s k with running := (cluster s k).running.erase x } s with nibs := ns } k =
      { cluster s k with running := (cluster s k).running.erase x } := fun _ => cluster_setCluster_same k _ s
  unfold cancelRunning
  dsimp only
  rw [cluster_coreEvent_running, h]

/-! ### The streams of a cancelled task (R319) -/

/-- A margin stream at work: running or halted. -/
def streamLive (x : Stream) : Prop := x.ruled = false ∧ (x.state = .running ∨ x.state = .halted)

/-- A stream cancelled reads as CANCELLED. -/
theorem stream?_cancelStream_same {k : Nat × Nat} {x : Stream} {s : State} (h : stream? s k = some x) :
    ∃ y, stream? (cancelStream k s) k = some y ∧ y.state = .cancelled := by
  have keep : ∀ p u, stream? (refreshFaulted p u) k = stream? u k := fun p u => by
    rw [stream?, (refreshFaulted_does p u).frame .streams (by decide), ← stream?]
  unfold cancelStream
  simp only [h]
  split
  · rw [keep]; exact ⟨_, stream?_setStream_same .., rfl⟩
  · exact ⟨_, stream?_setStream_same .., rfl⟩

/-- Cancelling a stream leaves every other stream. -/
theorem stream?_cancelStream_other {j k : Nat × Nat} (s : State) (h : j ≠ k) : stream? (cancelStream k s) j = stream? s j := by
  have keep : ∀ p u, stream? (refreshFaulted p u) j = stream? u j := fun p u => by
    rw [stream?, (refreshFaulted_does p u).frame .streams (by decide), ← stream?]
  unfold cancelStream
  dsimp only
  split
  · rfl
  · split
    · rw [keep, stream?_setStream_other _ _ _ _ h]; rfl
    · rw [stream?_setStream_other _ _ _ _ h]; rfl

/-- One Feed stage's stream cancelled where it is a margin one at work. -/
def cancelFeed (slot : Nat) (s : State) (st : Stage) : State :=
  match stream? s (slot, st.param) with
  | some x => if !x.ruled && (x.state == .running || x.state == .halted) then cancelStream (slot, st.param) s else s
  | none => s

/-- A Feed stage leaves a stream as it is, or cancels it. -/
theorem stream?_cancelFeed (slot : Nat) (s : State) (st : Stage) (k : Nat × Nat) :
    stream? (cancelFeed slot s st) k = stream? s k ∨ ∃ y, stream? (cancelFeed slot s st) k = some y ∧ y.state = .cancelled := by
  unfold cancelFeed
  split
  · next x hx =>
    split
    · by_cases hk : k = (slot, st.param)
      · subst hk; exact .inr (stream?_cancelStream_same hx)
      · exact .inl (stream?_cancelStream_other s hk)
    · exact .inl rfl
  · exact .inl rfl

/-- A Feed stage of a stream at work cancels it. -/
theorem stream?_cancelFeed_live {slot : Nat} {s : State} {st : Stage} {x : Stream} (hx : stream? s (slot, st.param) = some x) (hl : streamLive x) :
    ∃ y, stream? (cancelFeed slot s st) (slot, st.param) = some y ∧ y.state = .cancelled := by
  have hc : (!x.ruled && (x.state == .running || x.state == .halted)) = true := by rcases hl with ⟨hr, h | h⟩ <;> simp [hr, h]
  unfold cancelFeed
  simp only [hx, hc, if_true]
  exact stream?_cancelStream_same hx

/-- A stream already cancelled stays so. -/
theorem foldl_cancelFeed_cancelled (slot : Nat) (sts : List Stage) {s : State} {k : Nat × Nat}
    (h : ∃ y, stream? s k = some y ∧ y.state = .cancelled) :
    ∃ y, stream? (sts.foldl (cancelFeed slot) s) k = some y ∧ y.state = .cancelled := by
  induction sts generalizing s with
  | nil => exact h
  | cons st r ih => exact ih ((stream?_cancelFeed slot s st k).elim (fun e => by rwa [e]) id)

/-- The stream at work of any of a list of Feed stages ends up CANCELLED. -/
theorem foldl_cancelFeed_live {slot : Nat} {sts : List Stage} {s : State} {st : Stage} {x : Stream} (hm : st ∈ sts)
    (hx : stream? s (slot, st.param) = some x) (hl : streamLive x) :
    ∃ y, stream? (sts.foldl (cancelFeed slot) s) (slot, st.param) = some y ∧ y.state = .cancelled := by
  induction sts generalizing s with
  | nil => cases hm
  | cons a r ih =>
    rcases List.mem_cons.1 hm with rfl | hm
    · exact foldl_cancelFeed_cancelled slot r (stream?_cancelFeed_live hx hl)
    · rcases stream?_cancelFeed slot s a (slot, st.param) with e | e
      · exact ih hm (e.trans hx)
      · exact foldl_cancelFeed_cancelled slot r e

/-- A cancelled task's streams are those of its Feed stages. -/
theorem cancelStreams_eq {t : Task} {s : State} {p : Plan} {l : Ligature} (hp : plan? s t.slot = some p) (hl : ligOf p t.lig = some l) :
    cancelStreams t s = (l.stages.filter fun st => st.engine == 6).foldl (cancelFeed t.slot) s := by
  simp only [cancelStreams, hp, Option.bind_some, hl]
  rfl

/-! ### The statement -/

/-- Settles O30: the two commands by what they find, then the streams of a cancelled task. -/
theorem taskCommands : Obligations.TaskCommands := by
  unfold Obligations.TaskCommands
  refine ⟨?submit, fun s r slot level ligs => exec_taskSubmit_planState, ?ruled, ?listed, ?waits, ?running,
    fun s r task => exec_taskCancel_none, ?streams⟩
  case submit =>
    intro s r slot level ligs p h hs hv hn hp ha hr hl hroom
    refine exec_taskSubmit_ok h hs hv hn hp ha hr (fun l hl' => ?_) (fun l hl' x hx => ?_) hroom
    · obtain ⟨x, hx, -⟩ := hl l hl'
      simp [hx]
    · obtain ⟨y, hy, hm⟩ := hl l hl'
      rw [hy] at hx
      cases hx
      exact hm
  case ruled =>
    intro s r slot level ligs p l x h hs hv hn hp ha hr hl hm hx hru
    exact exec_taskSubmit_ruled h hs hv hn hp ha hr hl hm hx hru
  case listed =>
    intro s r task k t h hf
    obtain ⟨hother, hrunning, hseq, hready⟩ := cancelListed_effect k t s
    exact ⟨_, exec_taskCancel_listed h hf, findWaiting_margin hf, (cancelListed_does ..).eq_mix, hother, hrunning, hseq, hready⟩
  case waits =>
    intro s r task w t h hf hc
    exact ⟨_, exec_taskCancel_wait h hf hc, findCellWait_margin hc, dropWait_gone w t s⟩
  case running =>
    intro s r task k x h hf hc hx
    have hexec := exec_taskCancel_running h hf hc hx
    refine ⟨fun hr => by rw [hexec, if_pos hr], fun hr => ?_⟩
    exact ⟨cancelRunning k x s, by rw [hexec, if_neg (by simp [hr])], (cancelRunning_does ..).eq_mix, fun _ => cancelRunning_running k x s⟩
  case streams =>
    intro s t p l st x hp hl hst he hx hr hs
    rw [cancelStreams_eq hp hl]
    exact foldl_cancelFeed_live (List.mem_filter.2 ⟨hst, by simp [he]⟩) hx ⟨hr, hs⟩

end Sys2Proof.Machine
end

section
/-! SUPPORT. Plan slots: what hearing a command on a slot or with avoided units comes to, and what each plan operation leaves in the slots
(R92, R100, R106, R110). -/

namespace Sys2Proof.Machine

/-! ### Hearing -/

/-- A heard request of an immediate command, with unit ids that exist and are powered, is carried out. -/
theorem goust_iunits {s : State} {r : Req} {c : Cmd} (hc : c.pending = false) (h : heard s r c.op c.len = true)
    (hb : ∀ e ∈ c.bad, e.2 = false)
    (hu : ∀ u ∈ c.units, unitOk u.2 = true ∧ (uidCluster u.2 < 12 && (cluster s (uidClusterIndex u.2)).off) = false) :
    goust r c s = runCmd r c s := by
  simp only [heard, Bool.and_eq_true, beq_iff_eq, Option.isNone_iff_eq_none] at h
  obtain ⟨⟨⟨⟨⟨hup, hfresh⟩, hn⟩, hl⟩, hlen⟩, hp⟩ := h
  have hoff : badOffset r c = none := by
    have : c.bad.filter (·.2) = [] := List.filter_eq_nil_iff.2 fun e he => by simp [hb e he]
    simp [badOffset, this, hn]
  have hfind : c.units.find? (fun u => !unitOk u.2) = none := List.find?_eq_none.2 fun u hm => by simp [(hu u hm).1]
  have hpow : powerAllows s c = true := Bool.and_eq_true_iff.2 ⟨hp, List.all_eq_true.2 fun u hm => by simp [(hu u hm).2]⟩
  have href : refusal s r c = none := by simp [refusal, hoff, hfind, hpow, hc, ← hl, hlen]
  simp [goust, byTag, hup, hfresh, href]

/-- The units of a command's list, each with its payload offset, are those of the list. -/
theorem mem_of_mem_offsets {α : Type} {l : List α} {base : Nat} {e : Nat × α}
    (h : e ∈ ((List.range l.length).zip l).map fun x => (base + 2 * x.1, x.2)) : e.2 ∈ l := by
  obtain ⟨x, hx, rfl⟩ := List.mem_map.1 h
  exact (List.of_mem_zip hx).2

/-- A slot from 0 to 63 lies in its set. -/
theorem slotBad_none {slot : Byte} (h : slot.toNat < 64) : ∀ e ∈ slotBad slot, e.2 = false := by
  simp [slotBad]; omega

/-! ### The slots -/

/-- What does not touch the plans leaves every slot. -/
theorem plan?_of_does {T : List Part} {s t : State} (h : Does T s t) (hT : Part.plans ∉ T) (n : Nat) : plan? t n = plan? s n := by
  have : t.plans = s.plans := h.frame .plans hT
  rw [plan?, this, ← plan?]

@[simp] theorem plan?_releaseBounds (slot : Nat) (bs : List Bound) (frames : List Nat) (s : State) (n : Nat) :
    plan? (releaseBounds slot bs frames s) n = plan? s n := plan?_of_does (releaseBounds_does ..) (by decide) n

@[simp] theorem plan?_finalAnswer (kind : PendKind → Bool) (status detail : Nat) (body : Bytes) (s : State) (n : Nat) :
    plan? (finalAnswer kind status detail body s) n = plan? s n := plan?_of_does (finalAnswer_does ..) (by decide) n

@[simp] theorem plan?_haltMigrations (slot : Nat) (olds : List Bound) (s : State) (n : Nat) :
    plan? (haltMigrations slot olds s) n = plan? s n := plan?_of_does (haltMigrations_does ..) (by decide) n

/-! ### A rebind begun and dropped (R106, R110) -/

theorem plan?_dropRebind_same {slot : Nat} {s : State} {p : Plan} (hp : plan? s slot = some p) :
    plan? (dropRebind slot s) slot = some { p with rebind := none } := by
  unfold dropRebind
  simp only [hp]
  split
  · next h => rw [hp, ← h]
  · rw [plan?_releaseBounds]; exact plan?_setPlan_same ..

theorem plan?_dropRebind_other {slot n : Nat} (s : State) (h : n ≠ slot) : plan? (dropRebind slot s) n = plan? s n := by
  unfold dropRebind
  dsimp only
  split
  · rfl
  · split
    · rfl
    · rw [plan?_releaseBounds]; exact plan?_setPlan_other _ _ _ _ h

theorem plan?_cancelRebind_same {slot : Nat} {s : State} {p : Plan} (hp : plan? s slot = some p) :
    plan? (cancelRebind slot s) slot = some { p with rebind := none } := by
  unfold cancelRebind
  rw [plan?_finalAnswer]
  exact plan?_dropRebind_same hp

theorem plan?_cancelRebind_other {slot n : Nat} (s : State) (h : n ≠ slot) : plan? (cancelRebind slot s) n = plan? s n := by
  unfold cancelRebind
  rw [plan?_finalAnswer]
  exact plan?_dropRebind_other _ h

theorem plan?_acceptRebind_same {slot : Nat} {s : State} {p : Plan} (x : RebindPlan) (exclusion : Bool) (hp : plan? s slot = some p) :
    plan? (acceptRebind slot x exclusion s) slot = some { p with rebind := some ⟨x.olds, x.news, x.drops, false, exclusion⟩ } := by
  simp [acceptRebind, hp]

theorem plan?_acceptRebind_other {slot n : Nat} (x : RebindPlan) (exclusion : Bool) (s : State) (h : n ≠ slot) :
    plan? (acceptRebind slot x exclusion s) n = plan? s n := by
  unfold acceptRebind
  split
  · rfl
  · simp [h]

/-! ### A plan unloaded (R92, R103) -/

/-- The plans, streams and actions that an unload leaves. -/
theorem unloadPlan_leaves {slot : Nat} {s : State} {p : Plan} (hp : plan? s slot = some p) :
    (unloadPlan slot s).plans = del slot (dropRebind slot s).plans ∧
      (unloadPlan slot s).streams = (dropRebind slot s).streams.filter (fun e => e.1.1 != slot) ∧
      (unloadPlan slot s).actions = (dropRebind slot s).actions.filter (fun a => actionSlot a.act != some slot) := by
  unfold unloadPlan
  simp only [hp]
  refine ⟨congrArg (del slot) ((releaseBounds_does ..).frame .plans (by decide)), ?streams, ?actions⟩
  case streams => exact ((settleBuckets_does _).frame .streams (by decide)).trans ((releaseBounds_does ..).frame .streams (by decide))
  case actions => exact ((settleBuckets_does _).frame .actions (by decide)).trans ((releaseBounds_does ..).frame .actions (by decide))

theorem plan?_unloadPlan_same {slot : Nat} {s : State} {p : Plan} (hp : plan? s slot = some p) : plan? (unloadPlan slot s) slot = none := by
  rw [plan?, (unloadPlan_leaves hp).1, look_del_same]

theorem plan?_unloadPlan_other {slot n : Nat} {s : State} {p : Plan} (hp : plan? s slot = some p) (h : n ≠ slot) :
    plan? (unloadPlan slot s) n = plan? s n := by
  rw [plan?, (unloadPlan_leaves hp).1, look_del_other _ _ _ h]
  exact plan?_dropRebind_other s h

/-! ### A plan placed (R90, R100) -/

/-- Placing a plan fills its slot and leaves the others. -/
theorem plan?_placePlan (slot : Nat) (p : Plan) (s : State) (n : Nat) : plan? (placePlan slot p s) n = plan? (setPlan slot p s) n := by
  have hfill : ∀ v, Does [.mem, .pages] v (p.image.refs.foldl (fillRef p) v) := fun v => .foldl _ (fun u r => fillRef_does p u r) (.refl v)
  have hset : plan? (setPlan slot p (settleBuckets s)) n = plan? (setPlan slot p s) n := by
    have : (settleBuckets s).plans = s.plans := (settleBuckets_does s).frame .plans (by decide)
    simp only [plan?, setPlan, this]
  rw [← hset]
  refine plan?_of_does (T := [.rul, .mem, .pages, .cells, .streams, .tables, .matchUnits]) ?_ (by decide) n
  exact .next (refreshBound_does ..) (by decide) (.next (startStreams_does ..) (by decide) (.next (applyLoads_does ..) (by decide)
    (.next (startTables_does ..) (by decide) (.next (hfill _) (by decide) (.next (bindCellValues_does ..) (by decide) (.refl _))))))

end Sys2Proof.Machine
end

section
/-! SUPPORT. Loading a plan and reading it back: PLAN_LOAD by what it finds, the end of a zeroing, and the three reads of Table 13-7
(R87 to R92, R102, R111, R432). -/

namespace Sys2Proof.Machine

/-! ### The reads -/

section

variable {s : State} {r : Req}

theorem exec_fitReportRead_held {offset : BitVec 32} {b : Bytes} (h : heard s r 0x0207 8 = true) (hb : s.fitReport = some b)
    (ho : offset.toNat ≤ b.length) :
    exec (.fitReportRead r offset) s = .next (answer r 0x0207 St.ok 0 (padTo 8 (slice b offset.toNat 3520)) s) := by
  show execFitReportRead r offset s = _
  unfold execFitReportRead
  rw [goust_icmd h (by simp)]
  simp [runCmd, icmd, hb, Nat.not_lt.2 ho]

theorem exec_fitReportRead_none {offset : BitVec 32} (h : heard s r 0x0207 8 = true)
    (hb : ∀ b, s.fitReport = some b → b.length < offset.toNat) :
    exec (.fitReportRead r offset) s = .next (answer r 0x0207 St.noReport 0 [] s) := by
  show execFitReportRead r offset s = _
  unfold execFitReportRead
  rw [goust_icmd h (by simp)]
  cases hr : s.fitReport with
  | none => simp [runCmd, icmd, hr]
  | some b => simp [runCmd, icmd, hr, hb b hr]

theorem exec_planRead_empty {slot : Byte} (h : heard s r 0x0208 8 = true) (hs : slot.toNat < 64) (hp : plan? s slot.toNat = none) :
    exec (.planRead r slot) s =
      .next (answer r 0x0208 St.ok 0 (payload [.num 1 0, .num 1 0, .num 8 0, .num 8 0, .arr (zeros 48)]) s) := by
  show execPlanRead r slot s = _
  unfold execPlanRead
  rw [goust_icmd h (by simp; omega)]
  simp [runCmd, icmd, hp]

theorem exec_planRead_plan {slot : Byte} {p : Plan} (h : heard s r 0x0208 8 = true) (hs : slot.toNat < 64)
    (hp : plan? s slot.toNat = some p) :
    exec (.planRead r slot) s = .next (answer r 0x0208 St.ok 0 (payload [.num 1 (planStateCode p.state), .num 1 (b2n p.rebind.isSome),
      .num 8 p.image.id, .num 8 p.changed, .arr p.image.digest]) s) := by
  show execPlanRead r slot s = _
  unfold execPlanRead
  rw [goust_icmd h (by simp; omega)]
  simp [runCmd, icmd, hp]

/-- The bindings of a kind from an abstract id on that one BINDING_READ gives. -/
def bindingsRead (p : Plan) (kind first : Nat) : List Bound :=
  (sortBy (fun a b => decide (a.absId < b.absId)) (p.bound.filter fun b => b.kind == kind && decide (first ≤ b.absId))).take 220

variable {slot kind : Byte} {first : BitVec 16} (h : heard s r 0x0209 8 = true) (hs : slot.toNat < 64) (hlo : 1 ≤ kind.toNat)
  (hhi : kind.toNat ≤ 13)

include hs hlo hhi

/-- A slot from 0 to 63 and a kind from 1 to 13 lie in their sets. -/
theorem bindingReadBad_none : ∀ e ∈ [(0, decide (63 < slot.toNat)), (1, kind == 0 || decide (13 < kind.toNat))], e.2 = false := by
  have hk : ¬ kind = 0#8 := fun e => by simp [e] at hlo
  simp [hk]
  omega

include h

theorem exec_bindingRead_empty (hp : plan? s slot.toNat = none) :
    exec (.bindingRead r slot kind first) s = .next (answer r 0x0209 St.planState 0 [] s) := by
  show execBindingRead r slot kind first s = _
  unfold execBindingRead
  rw [goust_icmd h (bindingReadBad_none hs hlo hhi)]
  simp [runCmd, icmd, hp]

theorem exec_bindingRead_plan {p : Plan} (hp : plan? s slot.toNat = some p) :
    exec (.bindingRead r slot kind first) s = .next (answer r 0x0209 St.ok 0
      (payload [.num 2 (bindingsRead p kind.toNat first.toNat).length, .elems ((bindingsRead p kind.toNat first.toNat).map fun b =>
        element [.num 2 b.absId, .num 2 b.unit, .num 4 0, .num 8 (bindingBase b)])]) s) := by
  show execBindingRead r slot kind first s = _
  unfold execBindingRead
  rw [goust_icmd h (bindingReadBad_none hs hlo hhi)]
  simp only [runCmd, icmd, hp]
  rfl

end

/-- Settles O11: each read by what it finds in the report or the slot. -/
theorem planReads : Obligations.PlanReads := by
  unfold Obligations.PlanReads
  refine ⟨fun s r offset b => exec_fitReportRead_held, fun s r offset => exec_fitReportRead_none, ?plan,
    fun s r slot => exec_planRead_empty, ?bindings, fun s r slot kind first h hs hlo hhi hp => exec_bindingRead_empty h hs hlo hhi hp⟩
  case plan =>
    intro s r slot p h hs hp
    rw [exec_planRead_plan h hs hp]
    cases p.state <;> rfl
  case bindings =>
    intro s r slot kind first p h hs hlo hhi hp
    exact ⟨_, rfl, exec_bindingRead_plan h hs hlo hhi hp⟩

/-! ### PLAN_LOAD (R90, R102, R432) -/

/-- The plan that an image bound in a slot makes, with the frames of its plan region (R88, R90). -/
def boundPlan (s : State) (slot : Nat) (avoid : List (BitVec 16)) (m : Image) : Plan :=
  newPlan m (bindImage s slot avoid m).taken avoid ((openFrames (bindImage s slot avoid m).s { held := [], avoid := avoid }
    (coreDie (bindImage s slot avoid m).taken)).take (planFrames m.length)) (nowTick s)

/-- An image that binds without shortfall, has room for its plan region and passes the fit check is placed. -/
theorem bindPlan_placed {s : State} {slot : Nat} {avoid : List (BitVec 16)} {m : Image}
    (hslot : ((List.range 64).find? fun n => (plan? s n).isNone) = some slot) (hshort : (bindImage s slot avoid m).short = [])
    (hroom : planFrames m.length ≤ (openFrames (bindImage s slot avoid m).s { held := [], avoid := avoid }
      (coreDie (bindImage s slot avoid m).taken)).length)
    (hfit : fitCheck (bindImage s slot avoid m).s [(slot, boundPlan s slot avoid m)] (checkPeriods s) = none) :
    bindPlan m avoid s = .ok (placePlan slot (boundPlan s slot avoid m) (bindImage s slot avoid m).s) (payload [.num 1 slot, .arr m.digest]) := by
  unfold boundPlan at *
  simp only [bindPlan, hslot, hshort, hroom, hfit, if_true, List.append_nil]

section

variable {s : State} {r : Req} {image : BitVec 64} {length : BitVec 32} {stream : BitVec 16} {count : BitVec 64} {avoid : List (BitVec 16)}
  (h : heard s r 0x0201 (alignUp (24 + 2 * avoid.length) 8) = true) (hn : avoid.length ≤ 64)
  (hu : ∀ u ∈ avoid, unitOk u = true ∧ (uidCluster u < 12 && (cluster s (uidClusterIndex u)).off) = false)

include h hn hu

/-- A heard load with its fields in their sets is carried out. -/
theorem goust_loadCmd (body : State → CmdRes) : goust r (loadCmd avoid body) s = runCmd r (loadCmd avoid body) s :=
  goust_iunits rfl h (by simp [loadCmd]; omega) fun u hm => hu u.2 (mem_of_mem_offsets hm)

variable (hr : sessionRange s image.toNat length.toNat 0 = true)

include hr

/-- A load that need not wait is validated, bound and checked at once. -/
theorem exec_planLoad_now (hi : imagePresent s r stream.toNat count.toNat = true) (hz : s.zeroing = []) :
    exec (.planLoad r image length stream count avoid) s =
      .next (runCmd r (loadCmd avoid (loadImage image.toNat length.toNat avoid)) s) := by
  show execPlanLoad r image length stream count avoid s = _
  unfold execPlanLoad
  rw [goust_loadCmd h hn hu]
  simp [runCmd, loadCmd, loadBody, hr, hi, hz]

/-- A load waits for its image and for the zeroings pending when it starts. -/
theorem exec_planLoad_held (hw : imagePresent s r stream.toNat count.toNat = false ∨ s.zeroing ≠ []) :
    exec (.planLoad r image length stream count avoid) s = .next { s with heldLoads :=
      s.heldLoads ++ [(.planLoad r image length stream count avoid, s.clk.cycle, s.zeroing.length)] } := by
  have hwait : (imagePresent s r stream.toNat count.toNat && s.zeroing.isEmpty) = false := by
    rcases hw with hw | hw
    · simp [hw]
    · simp [hw]
  show execPlanLoad r image length stream count avoid s = _
  unfold execPlanLoad
  rw [goust_loadCmd h hn hu]
  simp only [runCmd, loadCmd, hr, hwait, Bool.not_true, Bool.false_eq_true, if_false]

end

/-! ### The end of a zeroing (R92) -/

/-- A byte of memory lies in one of some ranges of DVAs. -/
def inRanges (s : State) (rs : List (Nat × Nat)) (a : Nat) : Bool :=
  rs.any fun g => (translate s g.1).any fun b => decide (b ≤ a) && decide (a < b + g.2)

theorem inRanges_cons (s : State) (g : Nat × Nat) (rs : List (Nat × Nat)) (a : Nat) :
    inRanges s (g :: rs) a = (inRanges s [g] a || inRanges s rs a) := by simp [inRanges]

/-- Making ranges blank leaves the address map. -/
theorem inRanges_zeroRanges (qs : List (Nat × Nat)) (s : State) (rs : List (Nat × Nat)) (a : Nat) :
    inRanges (zeroRanges qs s) rs a = inRanges s rs a := rfl

theorem readByte_zeroRanges_one (g : Nat × Nat) (s : State) (a : Nat) :
    readByte (zeroRanges [g] s).mem a = if inRanges s [g] a then blankByte else readByte s.mem a := by
  simp only [zeroRanges, inRanges, List.foldl_cons, List.foldl_nil, List.any_cons, List.any_nil, Bool.or_false]
  cases translate s g.1 with
  | none => simp
  | some b =>
    by_cases hin : b ≤ a ∧ a < b + g.2
    · simp [hin, readByte_clearCells_in _ _ _ _ hin]
    · simp only [Option.any_some, Bool.and_eq_true, decide_eq_true_eq, if_neg hin]
      exact readByte_clearCells_out _ _ _ _ (by omega)

/-- A byte reads as blank where one of the ranges holds it, and as before elsewhere. -/
theorem readByte_zeroRanges (rs : List (Nat × Nat)) (s : State) (a : Nat) :
    readByte (zeroRanges rs s).mem a = if inRanges s rs a then blankByte else readByte s.mem a := by
  induction rs generalizing s with
  | nil => rfl
  | cons g rs ih =>
    have hstep : zeroRanges (g :: rs) s = zeroRanges rs (zeroRanges [g] s) := rfl
    rw [hstep, ih, inRanges_zeroRanges, readByte_zeroRanges_one, inRanges_cons s g rs]
    cases inRanges s rs a <;> cases inRanges s [g] a <;> rfl

/-- The oldest zeroing ends: it leaves the list, its ranges are blank, and no plan changes. -/
theorem zeroingEnd_leaves {s : State} {z : Zeroing} {zs : List Zeroing} (hz : s.zeroing = z :: zs) :
    (zeroingEnd s).zeroing = zs ∧ (zeroingEnd s).plans = s.plans ∧ (zeroingEnd s).mem = (zeroRanges z.ranges s).mem ∧
      (zeroingEnd s).heldLoads = s.heldLoads.map fun h => (h.1, h.2.1, h.2.2 - 1) := by
  have hclear : ∀ (bs : List Bound) v, Does [.matchUnits] v (bs.foldl (fun u b => clearMatch b u) v) :=
    fun bs v => .foldl _ (fun u b => clearMatch_does b u) (.refl v)
  have hdone : zeroingDone s = zeroRanges z.ranges { s with zeroing := zs } := by simp only [zeroingDone, hz]
  unfold zeroingEnd
  simp only [hz, hdone]
  exact ⟨(hclear ..).frame .zeroing (by decide), (hclear ..).frame .plans (by decide), (hclear ..).frame .mem (by decide),
    congrArg (List.map _) ((hclear ..).frame .heldLoads (by decide))⟩

/-- With no load held, ZEROING_COMPLETE only ends the zeroing. -/
theorem exec_zeroingComplete {s : State} {z : Zeroing} {zs : List Zeroing} (hz : s.zeroing = z :: zs) (hl : s.heldLoads = []) :
    exec .zeroingComplete s = .next (zeroingEnd s) := by
  obtain ⟨-, -, -, hheld⟩ := zeroingEnd_leaves hz
  show Host.Outcome.next (retryLoads (zeroingEnd s)) = _
  rw [retryLoads, hheld, hl]
  rfl

/-! ### IMAGE_INCOMPLETE (R432) -/

theorem exec_imageIncomplete {s : State} {h : Instr × Nat × Nat} {r : Req} {image : BitVec 64} {length : BitVec 32} {stream : BitVec 16}
    {count : BitVec 64} {avoid : List (BitVec 16)} (hf : s.heldLoads.find? (waitsImage s) = some h)
    (hi : h.1 = .planLoad r image length stream count avoid) :
    exec .imageIncomplete s = .next (answer r 0x0201 St.imageIncomplete (loadCommitted s r stream.toNat) []
      (advanceTo (h.2.1 + 190000000) { s with heldLoads := s.heldLoads.erase h })) := by
  show execImageIncomplete s = _
  simp only [execImageIncomplete, hf, hi]
  rfl

/-! ### The statement -/

/-- Settles O12: a load by what it finds, then the two events that end a wait. -/
theorem planLoading : Obligations.PlanLoading := by
  unfold Obligations.PlanLoading
  refine ⟨?placed, ?format, fun s r image length stream count avoid h hn hu hr hw => exec_planLoad_held h hn hu hr hw, ?zeroed, ?incomplete⟩
  case placed =>
    intro s r image length stream count avoid m slot h hn hu hr hi hz hv hslot hshort hroom hfit
    have hplan : ∀ n, plan? (bindImage s slot avoid m).s n = plan? s n := plan?_of_does (bindImage_does ..) (by decide)
    refine ⟨placePlan slot (boundPlan s slot avoid m) (bindImage s slot avoid m).s, boundPlan s slot avoid m, ?_, ?_, rfl, rfl, rfl, rfl,
      rfl, rfl, fun n hne => ?_⟩
    · rw [exec_planLoad_now h hn hu hr hi hz]
      simp only [runCmd, loadCmd, loadImage, hv, bindPlan_placed hslot hshort hroom hfit]
    · rw [plan?_placePlan, plan?_setPlan_same]
    · rw [plan?_placePlan, plan?_setPlan_other _ _ _ _ hne, hplan]
  case format =>
    intro s r image length stream count avoid o h hn hu hr hi hz hv
    rw [exec_planLoad_now h hn hu hr hi hz]
    simp only [runCmd, loadCmd, loadImage, hv]
  case zeroed =>
    intro s z zs hz hl
    obtain ⟨hzero, hplans, hmem, -⟩ := zeroingEnd_leaves hz
    exact ⟨_, exec_zeroingComplete hz hl, hzero, hplans, fun a => by rw [hmem, readByte_zeroRanges, inRanges]⟩
  case incomplete =>
    intro s h r image length stream count avoid hf hi
    exact ⟨_, exec_imageIncomplete hf hi, rfl, rfl⟩

end Sys2Proof.Machine
end

section
/-! SUPPORT. The commands on a plan's state: PLAN_UNLOAD, PLAN_ACTIVATE, PLAN_RETIRE, REBIND and REBIND_CANCEL by what they find in the
slot (Table 3-11, R103 to R110). -/

namespace Sys2Proof.Machine

section

variable {s : State} {r : Req} {slot : Byte} {p : Plan} (hs : slot.toNat < 64)

include hs

/-! ### PLAN_UNLOAD (R103) -/

/-- PLAN_UNLOAD of a slot without a LOADED plan. -/
theorem exec_planUnload_refused (h : heard s r 0x0202 8 = true) (hp : ∀ p, plan? s slot.toNat = some p → p.state ≠ .loaded) :
    exec (.planUnload r slot) s = .next (answer r 0x0202 St.planState 0 [] s) := by
  show execPlanUnload r slot s = _
  unfold execPlanUnload
  rw [goust_icmd h (slotBad_none hs)]
  cases hq : plan? s slot.toNat with
  | none => simp [runCmd, icmd, hq]
  | some p => simp [runCmd, icmd, hq, hp p hq]

theorem exec_planUnload_loaded (h : heard s r 0x0202 8 = true) (hp : plan? s slot.toNat = some p) (hl : p.state = .loaded) :
    exec (.planUnload r slot) s = .next (answer r 0x0202 St.ok 0 []
      (finalAnswer (slotPending slot.toNat) St.abandoned 0 [] (unloadPlan slot.toNat s))) := by
  show execPlanUnload r slot s = _
  unfold execPlanUnload
  rw [goust_icmd h (slotBad_none hs)]
  simp [runCmd, icmd, hp, hl]

/-! ### PLAN_ACTIVATE (R103, R104) -/

/-- PLAN_ACTIVATE of a slot without a LOADED plan. -/
theorem exec_planActivate_refused (h : heardP s r 0x0203 8 = true) (hp : ∀ p, plan? s slot.toNat = some p → p.state ≠ .loaded) :
    exec (.planActivate r slot) s = .next (answer r 0x0203 St.planState 0 [] s) := by
  show execPlanActivate r slot s = _
  unfold execPlanActivate
  rw [goust_pcmd h (slotBad_none hs)]
  cases hq : plan? s slot.toNat with
  | none => simp [runCmd, pcmd, hq]
  | some p => simp [runCmd, pcmd, hq, hp p hq]

/-- PLAN_ACTIVATE of a LOADED plan that something keeps back. -/
theorem exec_planActivate_notReady {d : Nat} (h : heardP s r 0x0203 8 = true) (hp : plan? s slot.toNat = some p) (hl : p.state = .loaded)
    (hn : notReady s slot.toNat p = some d) :
    exec (.planActivate r slot) s = .next (answer r 0x0203 St.notReady d [] s) := by
  show execPlanActivate r slot s = _
  unfold execPlanActivate
  rw [goust_pcmd h (slotBad_none hs)]
  simp [runCmd, pcmd, hp, hl, hn]

/-- PLAN_ACTIVATE of a LOADED plan that nothing keeps back. -/
theorem exec_planActivate_ready (h : heardP s r 0x0203 8 = true) (hp : plan? s slot.toNat = some p) (hl : p.state = .loaded)
    (hn : notReady s slot.toNat p = none) :
    exec (.planActivate r slot) s = .next (acceptCmd r 0x0203 (.activate slot.toNat) []
      (if requested s (.activation slot.toNat) then s else request (.activation slot.toNat) s)) := by
  show execPlanActivate r slot s = _
  unfold execPlanActivate
  rw [goust_pcmd h (slotBad_none hs)]
  simp [runCmd, pcmd, hp, hl, hn]

/-! ### PLAN_RETIRE (R103, R104) -/

/-- PLAN_RETIRE of a slot without an ACTIVE plan. -/
theorem exec_planRetire_refused (h : heardP s r 0x0204 8 = true) (hp : ∀ p, plan? s slot.toNat = some p → p.state ≠ .active) :
    exec (.planRetire r slot) s = .next (answer r 0x0204 St.planState 0 [] s) := by
  show execPlanRetire r slot s = _
  unfold execPlanRetire
  rw [goust_pcmd h (slotBad_none hs)]
  cases hq : plan? s slot.toNat with
  | none => simp [runCmd, pcmd, hq]
  | some p => simp [runCmd, pcmd, hq, hp p hq]

theorem exec_planRetire_active (h : heardP s r 0x0204 8 = true) (hp : plan? s slot.toNat = some p) (ha : p.state = .active) :
    exec (.planRetire r slot) s = .next (acceptCmd r 0x0204 (.retire slot.toNat) []
      (request (.retirement slot.toNat false) (setPlan slot.toNat { p with state := .retiring, changed := nowTick s } s))) := by
  show execPlanRetire r slot s = _
  unfold execPlanRetire
  rw [goust_pcmd h (slotBad_none hs)]
  simp [runCmd, pcmd, hp, ha]

/-! ### REBIND_CANCEL (R110) -/

/-- REBIND_CANCEL of a slot without a pending rebind, or after its commit has been admitted. -/
theorem exec_rebindCancel_refused (h : heard s r 0x0206 8 = true) (hp : ∀ p, plan? s slot.toNat = some p →
      p.rebind = none ∨ (s.actions.any fun a => a.act == .rebindCommit slot.toNat && a.admitted) = true) :
    exec (.rebindCancel r slot) s = .next (answer r 0x0206 St.planState 0 [] s) := by
  show execRebindCancel r slot s = _
  unfold execRebindCancel
  rw [goust_icmd h (slotBad_none hs)]
  cases hq : plan? s slot.toNat with
  | none => simp only [runCmd, icmd, hq]
  | some p => rcases hp p hq with hr | hr <;> simp only [runCmd, icmd, hq, hr, Option.isNone_none, Bool.true_or, Bool.or_true, if_true]

theorem exec_rebindCancel_pending (h : heard s r 0x0206 8 = true) (hp : plan? s slot.toNat = some p) (hr : p.rebind.isSome = true)
    (ha : (s.actions.any fun a => a.act == .rebindCommit slot.toNat && a.admitted) = false) :
    exec (.rebindCancel r slot) s = .next (answer r 0x0206 St.ok 0 [] (cancelRebind slot.toNat s)) := by
  have hpend : (p.rebind.isNone || s.actions.any fun a => a.act == .rebindCommit slot.toNat && a.admitted) = false := by
    rw [ha, Option.isNone_eq_false_iff.2 hr]; rfl
  show execRebindCancel r slot s = _
  unfold execRebindCancel
  rw [goust_icmd h (slotBad_none hs)]
  simp only [runCmd, icmd, hp, hpend, Bool.false_eq_true, if_false]

end

/-! ### REBIND (R105 to R109) -/

section

variable {s : State} {r : Req} {slot flags : Byte} {moves : List RebindItem} {avoid : List (BitVec 16)} {p : Plan}
  (h : heardP s r 0x0205 (alignUp (alignUp (8 + 4 * moves.length) 8 + 2 * avoid.length) 8) = true)
  (hb : ∀ e ∈ rebindBad s slot flags moves avoid, e.2 = false)
  (hu : ∀ u ∈ avoid, unitOk u = true ∧ (uidCluster u < 12 && (cluster s (uidClusterIndex u)).off) = false)
  (hp : plan? s slot.toNat = some p)

include h hb hu hp

theorem exec_rebind_retiring (hr : p.state = .retiring) :
    exec (.rebind r slot flags moves avoid) s = .next (answer r 0x0205 St.planState 0 [] s) := by
  show execRebind r slot flags moves avoid s = _
  unfold execRebind
  dsimp only
  rw [goust_units h hb fun u hm => hu u.2 (mem_of_mem_offsets hm)]
  simp [runCmd, hp, hr]

variable (hr : p.state ≠ .retiring)

include hr

theorem exec_rebind_pending (hn : p.rebind ≠ none) :
    exec (.rebind r slot flags moves avoid) s = .next (answer r 0x0205 St.rebindPending 0 [] s) := by
  show execRebind r slot flags moves avoid s = _
  unfold execRebind
  dsimp only
  rw [goust_units h hb fun u hm => hu u.2 (mem_of_mem_offsets hm)]
  simp [runCmd, hp, hr, Option.isSome_iff_ne_none.2 hn]

/-- REBIND that finds its places, leaves no shortfall and commits within 5 ms or has the time waived. -/
theorem exec_rebind_accepted {x : RebindPlan} (hn : p.rebind = none)
    (hx : x = rebindPlan s slot.toNat p (moves.map fun m => (m.kind.toNat, m.absId.toNat))
      (fun id => ((moves.find? fun m => m.kind == 4 && m.absId.toNat == id).map (·.action.toNat)).getD 0) avoid)
    (hshort : x.short = []) (ht : flags.toNat % 2 = 1 ∨ x.c + (rebindsAhead s slot.toNat + 1) * period s ≤ 9500000) :
    exec (.rebind r slot flags moves avoid) s = .next (acceptCmd r 0x0205 (.rebind slot.toNat)
      (payload [.num 8 x.c, .num 8 (tickAfter s (x.c + (rebindsAhead s slot.toNat + 1) * period s))]) (acceptRebind slot.toNat x false x.b.s)) := by
  have hlate : (flags.toNat % 2 = 1 || decide (x.c + (rebindsAhead s slot.toNat + 1) * period s ≤ 9500000) || !x.b.short.isEmpty) = true := by
    rcases ht with ht | ht <;> simp [ht]
  show execRebind r slot flags moves avoid s = _
  unfold execRebind
  dsimp only
  rw [goust_units h hb fun u hm => hu u.2 (mem_of_mem_offsets hm)]
  simp only [runCmd, hp, hn, ← hx, hshort, hlate, beq_eq_false_iff_ne.2 hr, Option.isSome_none, Bool.false_eq_true, if_false, if_true,
    List.append_nil]

end

/-! ### The statement -/

/-- Settles O13: each command by the state it finds, and what it leaves in the slots. -/
theorem planStateCommands : Obligations.PlanStateCommands := by
  unfold Obligations.PlanStateCommands
  refine ⟨?unload, ?activate, fun s r slot p d h hs hp hl hn => exec_planActivate_notReady hs h hp hl hn,
    fun s r slot p h hs hp ha => exec_planRetire_active hs h hp ha, ?rebind, ?cancel, ?wrongState, ?rebindRefused, ?empty⟩
  case unload =>
    intro s r slot p h hs hp hl
    obtain ⟨-, hstreams, hactions⟩ := unloadPlan_leaves hp
    refine ⟨_, exec_planUnload_loaded hs h hp hl, ?_, fun n hn => ?_, fun e he => ?_, fun a ha => ?_⟩
    · rw [plan?_finalAnswer, plan?_unloadPlan_same hp]
    · rw [plan?_finalAnswer, plan?_unloadPlan_other hp hn]
    · rw [show (finalAnswer ..).streams = _ from (finalAnswer_does ..).frame .streams (by decide), hstreams] at he
      simpa using (List.mem_filter.1 he).2
    · rw [show (finalAnswer ..).actions = _ from (finalAnswer_does ..).frame .actions (by decide), hactions] at ha
      simpa using (List.mem_filter.1 ha).2
  case activate =>
    intro s r slot p h hs hp hl hn
    have hacc := exec_planActivate_ready hs h hp hl hn
    exact ⟨fun hr => by rw [hacc, hr]; rfl, fun hr => by rw [hacc, hr]; rfl⟩
  case rebind =>
    intro s r slot flags moves avoid p x h hb hu hp hr hn hx hshort _ ht
    have hplan : ∀ n, plan? x.b.s n = plan? s n := by subst hx; exact plan?_of_does (rebindPlan_does ..) (by decide)
    refine ⟨_, exec_rebind_accepted h hb hu hp hr hn hx hshort ht, plan?_acceptRebind_same x false ((hplan _).trans hp), fun n hne => ?_⟩
    rw [plan?_acceptRebind_other x false _ hne, hplan]
  case cancel =>
    intro s r slot p h hs hp hr ha
    exact ⟨_, exec_rebindCancel_pending hs h hp hr ha, plan?_cancelRebind_same hp, fun n hn => plan?_cancelRebind_other s hn⟩
  case wrongState =>
    intro s r slot p hs hp
    have only : ∀ {P : Plan → Prop}, P p → ∀ q, plan? s slot.toNat = some q → P q := fun hP q hq => by
      rwa [← Option.some.inj (hp.symm.trans hq)]
    exact ⟨fun h hl => exec_planUnload_refused hs h (only hl), fun h hl => exec_planActivate_refused hs h (only hl),
      fun h ha => exec_planRetire_refused hs h (only ha), fun h hr => exec_rebindCancel_refused hs h (only hr)⟩
  case rebindRefused =>
    intro s r slot flags moves avoid p h hb hu hp
    exact ⟨exec_rebind_retiring h hb hu hp, exec_rebind_pending h hb hu hp⟩
  case empty =>
    intro s r slot hs hp
    exact ⟨fun h => exec_planUnload_refused hs h (by simp [hp]), fun h => exec_planActivate_refused hs h (by simp [hp]),
      fun h => exec_planRetire_refused hs h (by simp [hp]), fun h => exec_rebindCancel_refused hs h (by simp [hp])⟩

end Sys2Proof.Machine
end

section
/-! SUPPORT. Match memory: what writing entries and row tags leaves in the units, and MATCH_WRITE, MATCH_TAGS and MATCH_READ by what they
find (Table 8-5, Table 13-15, R281 to R283). -/

namespace Sys2Proof.Machine

/-! ### One write -/

/-- The value 0 is kept by leaving its place out of the list, and reads back like every other. -/
theorem look_keep_same {w : Nat} (i : Nat) (v : BitVec w) (l : List (Nat × BitVec w)) :
    (look i (if v = 0 then del i l else put i v l)).getD 0 = v := by
  split
  · next h => rw [look_del_same, h]; rfl
  · rw [look_put_same]; rfl

theorem look_keep_other {w : Nat} (i : Nat) (v : BitVec w) (l : List (Nat × BitVec w)) {j : Nat} (h : j ≠ i) :
    look j (if v = 0 then del i l else put i v l) = look j l := by
  split
  · exact look_del_other j i l h
  · exact look_put_other j i v l h

theorem matchEntry_writeEntry_same (i : Nat) (img : BitVec 320) (u : MatchUnit) : matchEntry (writeEntry i img u) i = img :=
  look_keep_same i img u.entries

theorem matchEntry_writeEntry_other (i : Nat) (img : BitVec 320) (u : MatchUnit) {j : Nat} (h : j ≠ i) :
    matchEntry (writeEntry i img u) j = matchEntry u j :=
  congrArg (·.getD 0) (look_keep_other i img u.entries h)

theorem writeEntry_tags (i : Nat) (img : BitVec 320) (u : MatchUnit) : (writeEntry i img u).tags = u.tags := rfl

theorem matchTag_writeTag_same (i : Nat) (t : Byte) (u : MatchUnit) : matchTag (writeTag i t u) i = t.toNat :=
  congrArg BitVec.toNat (look_keep_same i t u.tags)

theorem matchTag_writeTag_other (i : Nat) (t : Byte) (u : MatchUnit) {j : Nat} (h : j ≠ i) :
    matchTag (writeTag i t u) j = matchTag u j :=
  congrArg (fun v => (v.getD 0).toNat) (look_keep_other i t u.tags h)

theorem writeTag_entries (i : Nat) (t : Byte) (u : MatchUnit) : (writeTag i t u).entries = u.entries := rfl

/-! ### Writes one after another -/

/-- The values of a list written by `w` to the places from `base` on (R282). -/
def writeRun {α : Type} (w : Nat → α → MatchUnit → MatchUnit) : Nat → List α → MatchUnit → MatchUnit
  | _, [], u => u
  | base, x :: xs, u => writeRun w (base + 1) xs (w base x u)

section

variable {α β : Type} {w : Nat → α → MatchUnit → MatchUnit}

/-- A run as the model writes it: a fold over the values with their places. -/
theorem foldl_zip_range_eq_writeRun (xs : List α) (base : Nat) (u : MatchUnit) :
    ((List.range xs.length).zip xs).foldl (fun u e => w (base + e.1) e.2 u) u = writeRun w base xs u := by
  induction xs generalizing base u with
  | nil => rfl
  | cons x xs ih =>
    rw [writeRun, ← ih (base + 1)]
    simp only [List.length_cons, List.range_succ_eq_map, List.zip_cons_cons, List.foldl_cons, List.zip_map_left, List.foldl_map,
      Prod.map_fst, Prod.map_snd, id_eq, Nat.succ_eq_add_one, Nat.add_zero, ← Nat.add_assoc, Nat.add_right_comm base 1]

/-- What no write of the run touches is as before. -/
theorem writeRun_frame {read : MatchUnit → β} (h : ∀ i x u, read (w i x u) = read u) (xs : List α) (base : Nat) (u : MatchUnit) :
    read (writeRun w base xs u) = read u := by
  induction xs generalizing base u with
  | nil => rfl
  | cons x xs ih => rw [writeRun, ih, h]

variable {read : MatchUnit → Nat → β} (other : ∀ i x u {j}, j ≠ i → read (w i x u) j = read u j)

include other

/-- A place outside the run reads as before. -/
theorem read_writeRun_outside (xs : List α) (base : Nat) (u : MatchUnit) {j : Nat} (hj : j < base ∨ base + xs.length ≤ j) :
    read (writeRun w base xs u) j = read u j := by
  induction xs generalizing base u with
  | nil => rfl
  | cons x xs ih =>
    rw [List.length_cons] at hj
    rw [writeRun, ih (base + 1) _ (by omega), other base x u (by omega)]

/-- A place of the run reads as the value written there: the writes after it go to later places. -/
theorem read_writeRun_inside {val : α → β} (same : ∀ i x u, read (w i x u) i = val x) (xs : List α) (base : Nat) (u : MatchUnit)
    {i : Nat} {x : α} (hx : xs[i]? = some x) : read (writeRun w base xs u) (base + i) = val x := by
  induction xs generalizing base u i with
  | nil => rw [List.getElem?_nil] at hx; cases hx
  | cons y xs ih =>
    rw [writeRun]
    cases i with
    | zero =>
      rw [List.getElem?_cons_zero] at hx
      have hlt : base + 0 < base + 1 := Nat.lt_succ_self base
      rw [read_writeRun_outside other xs (base + 1) _ (.inl hlt), Nat.add_zero, same, Option.some.inj hx]
    | succ i =>
      rw [List.getElem?_cons_succ] at hx
      rw [show base + (i + 1) = base + 1 + i by omega]
      exact ih (base + 1) _ hx

end

/-! ### Runs in a state -/

theorem matchUnit_writeEntries_same (b : Bound) (first : Nat) (imgs : List (BitVec 320)) (s : State) :
    matchUnit (writeEntries b first imgs s) b.index = writeRun writeEntry (b.base + first) imgs (matchUnit s b.index) := by
  simp only [matchUnit, writeEntries, foldl_zip_range_eq_writeRun, look_put_same, Option.getD_some]

theorem matchUnit_writeEntries_other (b : Bound) (first : Nat) (imgs : List (BitVec 320)) (s : State) {k : Nat} (h : k ≠ b.index) :
    matchUnit (writeEntries b first imgs s) k = matchUnit s k := by
  rw [matchUnit, writeEntries, look_put_other _ _ _ _ h, ← matchUnit]

theorem matchUnit_writeTags_same (b : Bound) (first : Nat) (ts : List Byte) (s : State) :
    matchUnit (writeTags b first ts s) b.index = writeRun writeTag (b.base / 64 + first) ts (matchUnit s b.index) := by
  simp only [matchUnit, writeTags, foldl_zip_range_eq_writeRun, look_put_same, Option.getD_some]

theorem matchUnit_writeTags_other (b : Bound) (first : Nat) (ts : List Byte) (s : State) {k : Nat} (h : k ≠ b.index) :
    matchUnit (writeTags b first ts s) k = matchUnit s k := by
  rw [matchUnit, writeTags, look_put_other _ _ _ _ h, ← matchUnit]

/-! ### MATCH_WRITE (R281, R282) -/

/-- Whether an image lies in its sets does not depend on where in the payload it stands. -/
theorem badImage_none {img : BitVec 320} (h : ∀ e ∈ badImage 0 img, e.2 = false) (o : Nat) : ∀ e ∈ badImage o img, e.2 = false := by
  simpa [badImage] using h

section

variable {s : State} {r : Req} {slot : Byte} {region first : BitVec 16} {imgs : List (BitVec 320)}
  (h : heard s r 0x0A01 (8 + 40 * imgs.length) = true) (hs : slot.toNat ≤ 63) (hn : imgs.length ≤ 88)
  (hb : ∀ i ∈ imgs, ∀ e ∈ badImage 0 i, e.2 = false)

include hs hn hb in
/-- Slot, count and images in their sets leave MATCH_WRITE nothing to refuse. -/
theorem matchWriteBad_none : ∀ e ∈ [(0, decide (63 < slot.toNat)), (6, decide (88 < imgs.length))] ++
    ((List.range imgs.length).zip imgs).flatMap (fun e => badImage (8 + 40 * e.1) e.2), e.2 = false := by
  intro e he
  rcases List.mem_append.1 he with he | he
  · revert e
    simp [hs, hn]
  · obtain ⟨x, hx, hex⟩ := List.mem_flatMap.1 he
    exact badImage_none (hb _ (List.of_mem_zip hx).2) _ _ hex

include h hs hn hb

theorem exec_matchWrite_planState (hp : matchState s slot.toNat = false) :
    exec (.matchWrite r slot region first imgs) s = .next (answer r 0x0A01 St.planState 0 [] s) := by
  show execMatchWrite r slot region first imgs s = _
  unfold execMatchWrite
  rw [goust_icmd h (matchWriteBad_none hs hn hb)]
  simp [runCmd, icmd, hp]

variable (hp : matchState s slot.toNat = true)

include hp

theorem exec_matchWrite_region (hr : matchRegion s slot.toNat region.toNat first.toNat imgs.length = none) :
    exec (.matchWrite r slot region first imgs) s = .next (answer r 0x0A01 St.region 0 [] s) := by
  show execMatchWrite r slot region first imgs s = _
  unfold execMatchWrite
  rw [goust_icmd h (matchWriteBad_none hs hn hb)]
  simp [runCmd, icmd, hp, hr]

theorem exec_matchWrite_ok {b : Bound} (hr : matchRegion s slot.toNat region.toNat first.toNat imgs.length = some b) :
    exec (.matchWrite r slot region first imgs) s = .next (answer r 0x0A01 St.ok 0 [] (writeEntries b first.toNat imgs s)) := by
  show execMatchWrite r slot region first imgs s = _
  unfold execMatchWrite
  rw [goust_icmd h (matchWriteBad_none hs hn hb)]
  simp [runCmd, icmd, hp, hr]

end

/-! ### MATCH_TAGS (R283) -/

section

variable {s : State} {r : Req} {slot : Byte} {region first : BitVec 16} {ts : List Byte}
  (h : heard s r 0x0A02 (alignUp (8 + ts.length) 8) = true) (hs : slot.toNat ≤ 63)

include h hs

theorem exec_matchTags_planState (hp : matchState s slot.toNat = false) :
    exec (.matchTags r slot region first ts) s = .next (answer r 0x0A02 St.planState 0 [] s) := by
  show execMatchTags r slot region first ts s = _
  unfold execMatchTags
  rw [goust_icmd h (by simp [hs])]
  simp [runCmd, icmd, hp]

variable (hp : matchState s slot.toNat = true)

include hp

theorem exec_matchTags_region (hr : matchRegion s slot.toNat region.toNat (64 * first.toNat) (64 * ts.length) = none) :
    exec (.matchTags r slot region first ts) s = .next (answer r 0x0A02 St.region 0 [] s) := by
  show execMatchTags r slot region first ts s = _
  unfold execMatchTags
  rw [goust_icmd h (by simp [hs])]
  simp [runCmd, icmd, hp, hr]

theorem exec_matchTags_ok {b : Bound} (hr : matchRegion s slot.toNat region.toNat (64 * first.toNat) (64 * ts.length) = some b) :
    exec (.matchTags r slot region first ts) s = .next (answer r 0x0A02 St.ok 0 [] (writeTags b first.toNat ts s)) := by
  show execMatchTags r slot region first ts s = _
  unfold execMatchTags
  rw [goust_icmd h (by simp [hs])]
  simp [runCmd, icmd, hp, hr]

end

/-! ### MATCH_READ -/

section

variable {s : State} {r : Req} {slot : Byte} {region first n : BitVec 16} (h : heard s r 0x0A03 8 = true) (hs : slot.toNat ≤ 63)
  (hn : n.toNat ≤ 88)

include h hs hn

theorem exec_matchRead_region (hr : matchRegion s slot.toNat region.toNat first.toNat n.toNat = none) :
    exec (.matchRead r slot region first n) s = .next (answer r 0x0A03 St.region 0 [] s) := by
  show execMatchRead r slot region first n s = _
  unfold execMatchRead
  rw [goust_icmd h (by simp [hs, hn])]
  simp [runCmd, icmd, hr]

theorem exec_matchRead_ok {b : Bound} (hr : matchRegion s slot.toNat region.toNat first.toNat n.toNat = some b) :
    exec (.matchRead r slot region first n) s = .next (answer r 0x0A03 St.ok 0 ((List.range n.toNat).flatMap fun i =>
      le 40 (matchEntry (matchUnit s b.index) (b.base + first.toNat + i)).toNat) s) := by
  show execMatchRead r slot region first n s = _
  unfold execMatchRead
  rw [goust_icmd h (by simp [hs, hn])]
  simp [runCmd, icmd, hr]

end

/-! ### The statement -/

/-- Settles O48: each command by what it finds, and what a run of writes leaves inside its range, outside it and in the other units. -/
theorem matchCommands : Obligations.MatchCommands := by
  unfold Obligations.MatchCommands
  refine ⟨?write, ?tags, ?read⟩
  case write =>
    intro s r slot region first imgs h hs hn hb
    refine ⟨exec_matchWrite_planState h hs hn hb, exec_matchWrite_region h hs hn hb, fun b hp hr =>
      ⟨_, exec_matchWrite_ok h hs hn hb hp hr, rfl, ?_⟩⟩
    rw [matchUnit_writeEntries_same]
    exact ⟨fun i x hx => read_writeRun_inside (val := id) matchEntry_writeEntry_other matchEntry_writeEntry_same imgs _ _ hx,
      fun j hj => read_writeRun_outside matchEntry_writeEntry_other imgs _ _ hj,
      writeRun_frame writeEntry_tags imgs _ _,
      fun k hk => matchUnit_writeEntries_other b first.toNat imgs s hk⟩
  case tags =>
    intro s r slot region first ts h hs
    refine ⟨exec_matchTags_planState h hs, exec_matchTags_region h hs, fun b hp hr =>
      ⟨_, exec_matchTags_ok h hs hp hr, rfl, ?_⟩⟩
    rw [matchUnit_writeTags_same]
    exact ⟨fun i x hx => read_writeRun_inside (val := BitVec.toNat) matchTag_writeTag_other matchTag_writeTag_same ts _ _ hx,
      fun j hj => read_writeRun_outside matchTag_writeTag_other ts _ _ hj,
      writeRun_frame writeTag_entries ts _ _,
      fun k hk => matchUnit_writeTags_other b first.toNat ts s hk⟩
  case read =>
    intro s r slot region first n h hs hn
    exact ⟨exec_matchRead_region h hs hn, fun b hr => exec_matchRead_ok h hs hn hr⟩

end Sys2Proof.Machine
end

section
/-! SUPPORT. The page map and session memory: what mapping, unmapping and clearing leave, and MEM_ALLOC, MEM_FREE and PAGE_READ by what they
find (R292 to R297, R433, Table 9-2). -/

namespace Sys2Proof.Machine

/-! ### Pages mapped and unmapped -/

/-- Keeping some of the keys of a list keeps their entries. -/
theorem look_filter_key {κ α : Type} [BEq κ] [LawfulBEq κ] (keep : κ → Bool) (k : κ) (l : List (κ × α)) :
    look k (l.filter fun e => keep e.1) = if keep k then look k l else none := by
  induction l with
  | nil => simp [look]
  | cons e r ih =>
    by_cases he : e.1 = k
    · subst he
      by_cases hk : keep e.1 = true
      · simp [look, hk]
      · simpa [hk] using ih
    · have hne : (e.1 == k) = false := by simpa using he
      by_cases hk : keep e.1 = true
      · simpa [look, List.filter_cons_of_pos hk, hne] using ih
      · simpa [look, List.filter_cons_of_neg hk, hne] using ih

/-- The entry of a page newly mapped on a frame (R295). -/
def mappedPage (v : Variant) (pinned : Bool) (frame : Nat) : Page :=
  { frame := BitVec.ofNat 26 frame, dirty := false, faulted := false, state := if pinned then 2 else 1, die := frame / dieFrames v }

/-- One more frame mapped is one more page after the others. -/
theorem mapPages_concat (first : Nat) (fs : List Nat) (f : Nat) (pinned : Bool) (s : State) :
    (mapPages first (fs ++ [f]) pinned s).pages =
      put (first + fs.length) (mappedPage s.variant pinned f) (mapPages first fs pinned s).pages := by
  have hv : (mapPages first fs pinned s).variant = s.variant := (mapPages_does first fs pinned s).frame .variant (by decide)
  have hzip : (List.range (fs ++ [f]).length).zip (fs ++ [f]) = (List.range fs.length).zip fs ++ [(fs.length, f)] := by
    rw [List.length_append, List.length_singleton, List.range_succ, List.zip_append (by simp)]
    rfl
  rw [← hv]
  unfold mapPages
  rw [hzip, List.foldl_append]
  rfl

theorem look_mapPages_same {first : Nat} {fs : List Nat} {i f : Nat} (pinned : Bool) (s : State) (h : fs[i]? = some f) :
    look (first + i) (mapPages first fs pinned s).pages = some (mappedPage s.variant pinned f) := by
  obtain ⟨gs, rfl⟩ : ∃ gs, fs = gs.reverse := ⟨fs.reverse, (List.reverse_reverse fs).symm⟩
  induction gs with
  | nil => simp at h
  | cons g gs ih =>
    rw [List.reverse_cons] at h ⊢
    rw [mapPages_concat]
    by_cases hi : i = gs.reverse.length
    · subst hi
      obtain rfl : g = f := by simpa using h
      exact look_put_same ..
    · have hlt : i < gs.reverse.length := by
        have := (List.getElem?_eq_some_iff.1 h).1
        simp only [List.length_append, List.length_singleton] at this
        omega
      rw [look_put_other _ _ _ _ (by omega)]
      exact ih (by rwa [List.getElem?_append_left hlt] at h)

theorem look_mapPages_other {first : Nat} {fs : List Nat} {p : Nat} (pinned : Bool) (s : State)
    (h : p < first ∨ first + fs.length ≤ p) : look p (mapPages first fs pinned s).pages = look p s.pages := by
  obtain ⟨gs, rfl⟩ : ∃ gs, fs = gs.reverse := ⟨fs.reverse, (List.reverse_reverse fs).symm⟩
  induction gs with
  | nil => rfl
  | cons g gs ih =>
    rw [List.reverse_cons] at h ⊢
    rw [List.length_append, List.length_singleton] at h
    rw [mapPages_concat, look_put_other _ _ _ _ (by omega)]
    exact ih (by omega)

@[simp] theorem releaseFrames_pages (fs : List Nat) (s : State) : (releaseFrames fs s).pages = s.pages :=
  (releaseFrames_does fs s).frame .pages (by decide)

/-- A run of pages unmapped is gone from the page map, and the other pages stand. -/
theorem look_unmapRun (first n p : Nat) (s : State) :
    look p (unmapRun first n s).pages = if first ≤ p ∧ p < first + n then none else look p s.pages := by
  unfold unmapRun
  rw [releaseFrames_pages]
  dsimp only
  rw [look_filter_key fun k => !(decide (first ≤ k) && decide (k < first + n))]
  by_cases h : first ≤ p ∧ p < first + n
  · simp [h]
  · rw [if_neg h, if_pos (by simp; omega)]

/-! ### Frames -/

/-- A free frame of a die lies in the HBM of the device. -/
theorem frame_lt_hbm {s : State} {a : Avail} {d f : Nat} (hd : d < 4) (h : f ∈ openFrames s a d) :
    f * pageBytes < hbmBytes s.variant := by
  unfold openFrames at h
  obtain ⟨i, hi, rfl⟩ := List.mem_map.1 (List.mem_filter.1 h).1
  have hi := List.mem_range.1 hi
  have hdie : dieHbm s.variant = dieFrames s.variant * pageBytes := by cases s.variant <;> rfl
  rw [hbmBytes, hdie, ← Nat.mul_assoc]
  refine Nat.mul_lt_mul_of_pos_right ?_ (by decide)
  have : d * dieFrames s.variant ≤ 3 * dieFrames s.variant := Nat.mul_le_mul_right _ (by omega)
  omega

/-- A frame-space address inside the HBM of the device names its own cell (R291). -/
theorem translate_hbm {s : State} {o : Nat} (h : o < hbmBytes s.variant) : translate s (hbmDva o) = some (hbmDva o) := by
  have hb : hbmBytes s.variant ≤ 824633720832 := by cases s.variant <;> decide
  have hq : hbmDva o / 2 ^ 53 = 1 := by simp only [hbmDva, dvaOf]; omega
  have hr : hbmDva o % 2 ^ 53 = o := by simp only [hbmDva, dvaOf]; omega
  simp only [translate, hq, hr, if_pos h]

/-- A byte of one of a list's ranges lies in the ranges. -/
theorem inRanges_of_mem {s : State} {rs : List (Nat × Nat)} {dva n a b : Nat} (hm : (dva, n) ∈ rs) (ht : translate s dva = some b)
    (hlo : b ≤ a) (hhi : a < b + n) : inRanges s rs a = true :=
  List.any_eq_true.2 ⟨_, hm, by simp [ht, hlo, hhi]⟩

/-- The ranges of some frames. -/
def frameRanges (fs : List Nat) : List (Nat × Nat) := fs.map fun f => (hbmDva (f * pageBytes), pageBytes)

/-- A byte of a frame that has been cleared reads as blank. -/
theorem readByte_frames_cleared {fs : List Nat} {s : State} {f o : Nat} (hf : f ∈ fs) (hh : f * pageBytes < hbmBytes s.variant)
    (ho : o < pageBytes) : readByte (zeroRanges (frameRanges fs) s).mem (hbmDva (f * pageBytes) + o) = blankByte := by
  have hin : inRanges s (frameRanges fs) (hbmDva (f * pageBytes) + o) = true :=
    inRanges_of_mem (List.mem_map_of_mem hf) (translate_hbm hh) (Nat.le_add_right ..) (Nat.add_lt_add_left ho _)
  rw [readByte_zeroRanges, hin, if_pos rfl]

/-! ### MEM_ALLOC (R292, R433) -/

/-- The free frames of the dies that a mask allows, none of it all of them. -/
def maskFrames (s : State) (mask : Byte) : List Nat :=
  ((List.range 4).filter fun d => mask == 0 || bitAt mask.toNat d).flatMap fun d => openFrames s (sessionAvail s) d

theorem maskFrames_lt_hbm {s : State} {mask : Byte} {f : Nat} (h : f ∈ maskFrames s mask) : f * pageBytes < hbmBytes s.variant := by
  obtain ⟨d, hd, hf⟩ := List.mem_flatMap.1 h
  exact frame_lt_hbm (List.mem_range.1 (List.mem_filter.1 hd).1) hf

/-- A state whose session has been given `n` pages on some frames. -/
def allocated (n : Nat) (fs : List Nat) (pinned : Bool) (s : State) : State :=
  let u := zeroRanges (frameRanges fs) (mapPages (pageRun s n) fs pinned s)
  { u with allocs := u.allocs ++ [⟨pageRun s n * pageBytes, n⟩] }

theorem allocated_allocs (n : Nat) (fs : List Nat) (pinned : Bool) (s : State) :
    (allocated n fs pinned s).allocs = s.allocs ++ [⟨pageRun s n * pageBytes, n⟩] := by
  have hkept : (zeroRanges (frameRanges fs) (mapPages (pageRun s n) fs pinned s)).allocs = s.allocs :=
    (mapPages_does ..).frame .allocs (by decide)
  rw [← hkept]
  rfl

section

variable {s : State} {r : Req} {bytes : BitVec 64} {mask state : Byte} (h : heard s r 0x0301 16 = true) (h0 : bytes.toNat ≠ 0)
  (hp : bytes.toNat % pageBytes = 0) (hm : mask.toNat ≤ 15) (hs : state.toNat = 1 ∨ state.toNat = 2)

include h0 hp hm hs in
theorem memAllocBad_none : ∀ e ∈ [(0, bytes.toNat == 0 || bytes.toNat % pageBytes != 0), (8, decide (15 < mask.toNat)),
    (9, state.toNat != 1 && state.toNat != 2)], e.2 = false := by
  rcases hs with hs | hs <;> simp [h0, hp, hs, Nat.not_lt.2 hm]

include h h0 hp hm hs

theorem exec_memAlloc_ok (hn : bytes.toNat / pageBytes ≤ (maskFrames s mask).length)
    (hr : pageRun s (bytes.toNat / pageBytes) + bytes.toNat / pageBytes ≤ 1048576) :
    exec (.memAlloc r bytes mask state) s = .next (answer r 0x0301 St.ok 0
      (payload [.num 8 (pageRun s (bytes.toNat / pageBytes) * pageBytes)])
      (allocated (bytes.toNat / pageBytes) ((maskFrames s mask).take (bytes.toNat / pageBytes)) (state.toNat == 2) s)) := by
  have hroom : ¬ ((maskFrames s mask).length < bytes.toNat / pageBytes ∨
      1048576 < pageRun s (bytes.toNat / pageBytes) + bytes.toNat / pageBytes) := by omega
  show execMemAlloc r bytes mask state s = _
  unfold execMemAlloc
  rw [goust_icmd h (memAllocBad_none h0 hp hm hs)]
  unfold maskFrames at hroom
  simp only [runCmd, icmd, if_neg hroom]
  rfl

theorem exec_memAlloc_noMemory (hn : (maskFrames s mask).length < bytes.toNat / pageBytes) :
    exec (.memAlloc r bytes mask state) s = .next (answer r 0x0301 St.noMemory (maskFrames s mask).length [] s) := by
  show execMemAlloc r bytes mask state s = _
  unfold execMemAlloc
  rw [goust_icmd h (memAllocBad_none h0 hp hm hs)]
  unfold maskFrames at hn
  simp only [runCmd, icmd, if_pos (Or.inl hn)]
  rfl

end

/-! ### MEM_FREE (R433) -/

section

variable {s : State} {r : Req} {base : BitVec 64} (h : heard s r 0x0302 8 = true)

include h

theorem exec_memFree_held {a : Alloc} (ha : (s.allocs.find? fun x => x.base == base.toNat) = some a)
    (hring : (s.blot.ring.any fun b => decide (a.base ≤ b.1) && decide (b.1 < a.base + a.pages * pageBytes)) = false)
    (hbusy : ∀ i, i < a.pages → pageBusy s (a.base / pageBytes + i) = false) :
    exec (.memFree r base) s = .next (answer r 0x0302 St.ok 0 []
      (unmapRun (a.base / pageBytes) a.pages { s with allocs := s.allocs.erase a })) := by
  have hnone : ((List.range a.pages).any fun i => pageBusy s (a.base / pageBytes + i)) = false :=
    List.any_eq_false.2 fun i hi => by simp [hbusy i (List.mem_range.1 hi)]
  show execMemFree r base s = _
  unfold execMemFree
  rw [goust_icmd h (by simp)]
  simp only [runCmd, icmd, ha, hring, hnone, Bool.or_false, Bool.false_eq_true, if_false]

theorem exec_memFree_unknown (ha : ∀ a ∈ s.allocs, a.base ≠ base.toNat) :
    exec (.memFree r base) s = .next (answer r 0x0302 St.memoryRefused base.toNat [] s) := by
  have hnone : (s.allocs.find? fun x => x.base == base.toNat) = none := List.find?_eq_none.2 fun a hm => by simp [ha a hm]
  show execMemFree r base s = _
  unfold execMemFree
  rw [goust_icmd h (by simp)]
  simp only [runCmd, icmd, hnone]

end

/-! ### PAGE_READ (Table 9-2) -/

theorem exec_pageRead {s : State} {r : Req} {first : BitVec 64} {n : BitVec 32} (h : heard s r 0x0305 16 = true)
    (hf : first.toNat % pageBytes = 0) (hn : n.toNat ≤ 440) :
    exec (.pageRead r first n) s = .next (answer r 0x0305 St.ok 0 ((List.range n.toNat).flatMap fun i =>
      match look (first.toNat / pageBytes + i) s.pages with
      | some p => pageEntry p
      | none => zeros 8) s) := by
  show execPageRead r first n s = _
  unfold execPageRead
  rw [goust_icmd h (by simp [hf, hn])]
  rfl

/-! ### The statement -/

/-- Settles O15: each command by what it finds, and what an allocation and a release leave in the page map and in memory. -/
theorem sessionMemoryCommands : Obligations.SessionMemoryCommands := by
  unfold Obligations.SessionMemoryCommands
  refine ⟨?alloc, ?full, ?free, ?unknown, ?read⟩
  case alloc =>
    intro s r bytes mask state free n h h0 hp hm hs hn hfree hlen hrun
    obtain rfl : free = maskFrames s mask := hfree
    subst hn
    have hpin : ∀ v f, mappedPage v (state.toNat == 2) f =
        { frame := BitVec.ofNat 26 f, dirty := false, faulted := false, state := BitVec.ofNat 2 state.toNat, die := f / dieFrames v } :=
      fun v f => by rcases hs with hs | hs <;> simp [mappedPage, hs]
    refine ⟨_, exec_memAlloc_ok h h0 hp hm hs hlen hrun, allocated_allocs .., fun i f hi hf => ⟨?_, fun o ho => ?_⟩, fun p hout => ?_, ?_⟩
    · rw [← hpin]
      exact look_mapPages_same _ s (by rwa [List.getElem?_take_of_lt hi])
    · have hv : (mapPages (pageRun s (bytes.toNat / pageBytes)) ((maskFrames s mask).take (bytes.toNat / pageBytes))
          (state.toNat == 2) s).variant = s.variant := (mapPages_does ..).frame .variant (by decide)
      exact readByte_frames_cleared (List.mem_of_getElem? (by rwa [List.getElem?_take_of_lt hi]))
        (hv ▸ maskFrames_lt_hbm (List.mem_of_getElem? hf)) ho
    · exact look_mapPages_other _ s (by rwa [List.length_take_of_le hlen])
    · exact (mapPages_does ..).frame .plans (by decide)
  case full =>
    intro s r bytes mask state free h h0 hp hm hs hfree hlen
    obtain rfl : free = maskFrames s mask := hfree
    exact exec_memAlloc_noMemory h h0 hp hm hs hlen
  case free =>
    intro s r base a h ha hring hbusy
    have hdoes := unmapRun_does (a.base / pageBytes) a.pages { s with allocs := s.allocs.erase a }
    exact ⟨_, exec_memFree_held h ha hring hbusy, hdoes.frame .allocs (by decide), hdoes.frame .mem (by decide),
      fun p => look_unmapRun ..⟩
  case unknown => exact fun s r base h ha => exec_memFree_unknown h ha
  case read => exact fun s r first n h hf hn => exec_pageRead h hf hn

end Sys2Proof.Machine
end

section
/-! SUPPORT. The page commands: PAGE_BRING_IN and PAGE_SET as they are accepted, and what their completions leave in the page map and in
memory (R296, R297, Table 9-3). -/

namespace Sys2Proof.Machine

/-! ### PAGE_BRING_IN (R297) -/

theorem exec_pageBringIn {s : State} {r : Req} {page source : BitVec 64} {state : Byte} {p : Page} (h : heardP s r 0x0303 24 = true)
    (ha : page.toNat % pageBytes = 0) (hz : page.toNat / 2 ^ 53 = 0) (hs : state.toNat = 1 ∨ state.toNat = 2)
    (hp : look (page.toNat / pageBytes) s.pages = some p) (h0 : p.state = 0)
    (hsrc : source.toNat = 2 ^ 64 - 1 ∨ (source.toNat % pageBytes = 0 ∧
      (planHolds s source.toNat = true ∨ sessionHolds s source.toNat = true) ∧ (translate s source.toNat).isSome = true))
    (hf : pageFrames s p ≠ []) :
    exec (.pageBringIn r page source state) s =
      .next (acceptCmd r 0x0303 (.bringIn (page.toNat / pageBytes) source.toNat state.toNat) [] s) := by
  have hbad : ∀ e ∈ [(0, page.toNat % pageBytes != 0), (8, source.toNat != 2 ^ 64 - 1 && source.toNat % pageBytes != 0),
      (16, state.toNat != 1 && state.toNat != 2)], e.2 = false := by
    rcases hs with hs | hs <;> rcases hsrc with hsrc | ⟨hsrc, -⟩ <;> simp [ha, hs, hsrc]
  have hheld : ¬ (source.toNat ≠ 2 ^ 64 - 1 ∧
      (!((planHolds s source.toNat || sessionHolds s source.toNat) && (translate s source.toNat).isSome)) = true) := by
    rcases hsrc with hsrc | ⟨-, hsrc, ht⟩
    · exact fun hc => hc.1 hsrc
    · rcases hsrc with hsrc | hsrc <;> simp [hsrc, ht]
  have hpage : ¬ (page.toNat / 2 ^ 53 ≠ 0 ∨ p.state ≠ 0) := by
    rintro (hc | hc)
    · exact hc hz
    · exact hc h0
  show execPageBringIn r page source state s = _
  unfold execPageBringIn
  rw [goust_pcmd h hbad]
  simp only [runCmd, pcmd, hp]
  rw [if_neg hpage, if_neg hheld, if_neg (by simpa using hf)]

/-- A byte of a frame cleared and filled is that of the filling, and blank past its end. -/
theorem readByte_refilled (m : List Host.Cell) (a n : Nat) (bs : Bytes) {o : Nat} (h : o < n) :
    readByte (writeCells (clearCells m a n) a bs) (a + o) = bs.getD o blankByte := by
  rw [List.getD_eq_getElem?_getD]
  by_cases hb : o < bs.length
  · exact readByte_writeCells_in _ _ _ _ hb
  · rw [readByte_writeCells_out _ _ _ _ (by omega), readByte_clearCells_in _ _ _ _ (by omega),
      List.getElem?_eq_none (Nat.not_lt.1 hb), Option.getD_none]

/-- PAGE_BRING_IN_COMPLETE: the page stands on a free frame of its die, which holds what it is brought in from. -/
theorem exec_pageBringInComplete {s : State} {page : BitVec 32} {src st f : Nat} {ks : List PendKind} {p : Page} {fs : List Nat}
    (hk : pendingBringIns s page.toNat = .bringIn page.toNat src st :: ks) (hp : look page.toNat s.pages = some p) (h0 : p.state = 0)
    (hf : pageFrames s p = f :: fs) :
    ∃ u fr, fr ∈ pageFrames s p ∧ exec (.pageBringInComplete page) s =
        .next (finalAnswer (fun x => x == .bringIn page.toNat src st) St.ok 0 [] u) ∧
      u.pages = put page.toNat { p with frame := BitVec.ofNat 26 fr, state := BitVec.ofNat 2 st, dirty := false } s.pages ∧
      u.mem = writeCells (clearCells s.mem (hbmDva (fr * pageBytes)) pageBytes) (hbmDva (fr * pageBytes))
        (if src = 2 ^ 64 - 1 then [] else readDva s src pageBytes) := by
  have hpick : (f :: fs).getD (Config.frame s.freeCtr % (fs.length + 1)) f ∈ pageFrames s p := by
    have hlt : Config.frame s.freeCtr % (fs.length + 1) < (f :: fs).length := Nat.mod_lt _ (Nat.succ_pos _)
    rw [hf, List.getD_eq_getElem?_getD, List.getElem?_eq_getElem hlt, Option.getD_some]
    exact List.getElem_mem hlt
  have hexec : exec (.pageBringInComplete page) s = execPageBringInComplete page s := rfl
  rw [hexec]
  unfold execPageBringInComplete
  simp only [hk, hp, hf, h0, ne_eq, not_true_eq_false, if_false]
  exact ⟨_, _, hf ▸ hpick, rfl, rfl, rfl⟩

/-! ### PAGE_SET (R296, R297) -/

/-- No page of a run fails a test that all of them pass. -/
theorem firstOf_none {ok : Nat → Bool} (n : Nat) {p : Nat} (h : ∀ i, i < n → ok (p + i) = true) : execPageSet.firstOf p n ok = none := by
  induction n generalizing p with
  | zero => rfl
  | succ n ih =>
    have hfirst : ok p = true := h 0 (Nat.succ_pos n)
    unfold execPageSet.firstOf
    rw [if_pos hfirst]
    exact ih fun i hi => by rw [Nat.add_assoc, Nat.add_comm 1 i]; exact h (i + 1) (by omega)

theorem exec_pageSet {s : State} {r : Req} {first : BitVec 64} {pages : BitVec 32} {action : Byte} (h : heardP s r 0x0304 16 = true)
    (ha : first.toNat % pageBytes = 0) (hz : first.toNat / 2 ^ 53 = 0) (hlo : 1 ≤ action.toNat) (hhi : action.toNat ≤ 4)
    (hn : pages.toNat ≤ 1048576) (hok : ∀ i, i < pages.toNat → pageActionOk s action.toNat (first.toNat / pageBytes + i) = true) :
    exec (.pageSet r first pages action) s =
      .next (acceptCmd r 0x0304 (.pageSet (first.toNat / pageBytes) pages.toNat action.toNat) [] s) := by
  have h0 : ¬ action = 0#8 := by
    rintro rfl
    exact absurd hlo (by decide)
  have hfirst : execPageSet.firstOf (first.toNat / pageBytes) (min pages.toNat 1048577) (pageActionOk s action.toNat) = none := by
    rw [Nat.min_eq_left (by omega)]
    exact firstOf_none _ hok
  show execPageSet r first pages action s = _
  unfold execPageSet
  rw [goust_pcmd h (by simp [ha, h0, hhi])]
  simp only [runCmd, pcmd, hz, if_true, hfirst]

/-- What an action of PAGE_SET makes of a page's entry: 1 pins, 2 unpins, 3 evicts, any other unmaps (R297). -/
def pageActed : Nat → Page → Option Page
  | 1, p => some { p with state := 2, dirty := false }
  | 2, p => some { p with state := 1, dirty := false }
  | 3, p => some { p with state := 0, frame := 0, dirty := false }
  | _, _ => none

theorem pageActed_other {action : Nat} (p : Page) (h1 : action ≠ 1) (h2 : action ≠ 2) (h3 : action ≠ 3) : pageActed action p = none := by
  unfold pageActed
  split
  · exact absurd rfl h1
  · exact absurd rfl h2
  · exact absurd rfl h3
  · rfl

/-- An action on one page changes its entry and no other. -/
theorem look_setPage (action page q : Nat) (s : State) :
    look q (setPage action page s).pages = if q = page then (look page s.pages).bind (pageActed action) else look q s.pages := by
  have keep : ∀ v, look q (put page v s.pages) = if q = page then some v else look q s.pages := by
    intro v
    by_cases hq : q = page
    · subst hq; simp
    · simp [hq]
  unfold setPage
  split
  · next hp =>
    by_cases hq : q = page
    · subst hq; simp [hp]
    · simp [hq]
  · next p hp =>
    rw [hp, Option.bind_some]
    split
    · exact keep _
    · exact keep _
    · rw [releaseFrames_pages]; exact keep _
    · next h1 h2 h3 =>
      rw [look_unmapRun, pageActed_other p h1 h2 h3]
      by_cases hq : q = page
      · rw [if_pos hq, if_pos (by omega)]
      · rw [if_neg hq, if_neg (by omega)]

/-- An action carried out on a run of pages. -/
def setPages (action first n : Nat) (s : State) : State := (List.range n).foldl (fun s i => setPage action (first + i) s) s

theorem setPages_does (action first n : Nat) (s : State) : Does [.zeroing, .pages] s (setPages action first n s) :=
  .foldl _ (fun u i => setPage_does action (first + i) u) (.refl s)

theorem look_setPages (action first n q : Nat) (s : State) :
    look q (setPages action first n s).pages =
      if first ≤ q ∧ q < first + n then (look q s.pages).bind (pageActed action) else look q s.pages := by
  induction n with
  | zero => rw [if_neg (by omega)]; rfl
  | succ n ih =>
    have hstep : setPages action first (n + 1) s = setPage action (first + n) (setPages action first n s) := by
      simp [setPages, List.range_succ]
    rw [hstep, look_setPage]
    by_cases hq : q = first + n
    · subst hq
      rw [if_pos rfl, if_pos (by omega), ih, if_neg (by omega)]
    · rw [if_neg hq, ih]
      by_cases hr : first ≤ q ∧ q < first + n
      · rw [if_pos hr, if_pos (by omega)]
      · rw [if_neg hr, if_neg (by omega)]

/-- The state of a page that an action has been carried out on. -/
theorem pageActed_state (action : Nat) (p : Page) :
    (pageActed action p).map (·.state) = if action = 1 then some 2 else if action = 2 then some 1 else if action = 3 then some 0 else none := by
  unfold pageActed
  split
  · rfl
  · rfl
  · rfl
  · next h1 h2 h3 => rw [if_neg h1, if_neg h2, if_neg h3]; rfl

/-- A page that allows an action is mapped. -/
theorem look_of_pageActionOk {s : State} {action page : Nat} (h : pageActionOk s action page = true) : ∃ p, look page s.pages = some p := by
  unfold pageActionOk at h
  cases hp : look page s.pages with
  | none => simp [hp] at h
  | some p => exact ⟨p, rfl⟩

/-- The pending PAGE_SETs of a run that begins at a page: its beginning, its length and its action. -/
def pendingPageSets (s : State) (first : Nat) : List (Nat × Nat × Nat) :=
  s.mboxes.flatMap fun e => e.2.pend.filterMap fun c => match c.kind with
    | .pageSet f n a => if f = first then some (f, n, a) else none
    | _ => none

theorem exec_pageSetComplete {s : State} {first : BitVec 32} {n a : Nat} {rest : List (Nat × Nat × Nat)}
    (hk : pendingPageSets s first.toNat = (first.toNat, n, a) :: rest)
    (hbusy : 3 ≤ a → ∀ i, i < n → pageBusy s (first.toNat + i) = false)
    (hok : ∀ i, i < n → pageActionOk s a (first.toNat + i) = true) :
    exec (.pageSetComplete first) s =
      .next (finalAnswer (fun x => x == .pageSet first.toNat n a) St.ok 0 [] (setPages a first.toNat n s)) := by
  have hfree : ¬ (3 ≤ a ∧ ((List.range n).any fun i => pageBusy s (first.toNat + i)) = true) := by
    rintro ⟨h3, hb⟩
    obtain ⟨i, hi, hb⟩ := List.any_eq_true.1 hb
    simp [hbusy h3 i (List.mem_range.1 hi)] at hb
  have hnone : ((List.range n).find? fun i => !pageActionOk s a (first.toNat + i)) = none :=
    List.find?_eq_none.2 fun i hi => by simp [hok i (List.mem_range.1 hi)]
  show execPageSetComplete first s = _
  unfold execPageSetComplete
  dsimp only
  generalize hks : s.mboxes.flatMap _ = ks
  obtain rfl : ks = (first.toNat, n, a) :: rest := hks.symm.trans hk
  simp only [if_neg hfree, hnone]
  rfl

/-! ### The statement -/

/-- Settles O16: the two commands as they are accepted, and each completion by the frame it fills or the run of pages it changes. -/
theorem pageStateCommands : Obligations.PageStateCommands := by
  unfold Obligations.PageStateCommands
  refine ⟨?bringIn, ?set, ?brought, ?done⟩
  case bringIn => exact fun s r page source state p h ha hz hs hp h0 hsrc hf => exec_pageBringIn h ha hz hs hp h0 hsrc hf
  case set => exact fun s r first pages action h ha hz hlo hhi hn hok => exec_pageSet h ha hz hlo hhi hn hok
  case brought =>
    intro s page src st ks p f fs hk hp h0 hf
    obtain ⟨u, fr, hfr, hexec, hpages, hmem⟩ := exec_pageBringInComplete hk hp h0 hf
    refine ⟨u, fr, hfr, hexec, ?_, fun n hn => ?_, fun hsrc o ho => ?_, fun hsrc o ho => ?_⟩
    · rw [hpages, look_put_same]
    · rw [hpages, look_put_other _ _ _ _ hn]
    · rw [hmem, readByte_refilled _ _ _ _ ho, if_pos hsrc]; rfl
    · rw [hmem, readByte_refilled _ _ _ _ ho, if_neg hsrc]
  case done =>
    intro s first n a rest hk hbusy _ _ hok
    refine ⟨_, exec_pageSetComplete hk hbusy hok, (setPages_does ..).frame .mem (by decide), fun i hi => ?_, fun p hp => ?_⟩
    · obtain ⟨p, hp⟩ := look_of_pageActionOk (hok i hi)
      rw [look_setPages, if_pos (by omega), hp, Option.bind_some, pageActed_state]
    · rw [look_setPages, if_neg (by omega)]

end Sys2Proof.Machine
end

section
/-! SUPPORT. The commands on streams: what naming a stream comes to, STREAM_READ, STREAM_FAULT_READ, STREAM_REARM and STREAM_START (R305, R306,
R308, R317, Tables 9-5, 9-6 and 9-9). -/

namespace Sys2Proof.Machine

/-! ### A command on a stream -/

/-- A reference to a stream that is there, in a plan slot or of the host, lies in its set. -/
theorem streamBad_none {s : State} {r : StreamRef} {x : Stream} (hr : r.slot.toNat < 64 ∨ r.slot = 0xff)
    (hx : stream? s (refKey r) = some x) : ∀ e ∈ streamBad s r, e.2 = false := by
  have hslot : 63 < r.slot.toNat → r.slot = 0xff := fun hlt => hr.resolve_left (by omega)
  simpa [streamBad, hx] using hslot

section

variable {s : State} {q : Req} {r : StreamRef} {x : Stream}

section

variable (hr : r.slot.toNat < 64 ∨ r.slot = 0xff) (hx : stream? s (refKey r) = some x)

include hr hx

/-- A heard command on a stream that is there is carried out. -/
theorem goust_stream {op len : Nat} {body : State → CmdRes} (h : heard s q op len = true) :
    goust q (icmd op len (streamBad s r) body) s = runCmd q (icmd op len (streamBad s r) body) s :=
  goust_icmd h (streamBad_none hr hx)

/-! ### The reads (R305, R317) -/

theorem exec_streamRead (h : heard s q 0x0307 8 = true) :
    exec (.streamRead q r) s = .next (answer q 0x0307 St.ok 0 (le 8 (strStatus x) ++ (List.range 16).flatMap fun i =>
      le 4 (pack [(24, (x.slot i).bytes), (3, slotState (x.slot i).state), (5, 0)])) s) := by
  show execStreamRead q r s = _
  unfold execStreamRead
  rw [goust_stream hr hx h]
  simp only [runCmd, icmd, hx]

theorem exec_streamFaultRead_halted {f : FaultRec} (h : heard s q 0x0309 8 = true) (hs : x.state = .halted) (hf : x.fault = some f) :
    exec (.streamFaultRead q r) s = .next (answer q 0x0309 St.ok 0 (faultBytes (refKey r) x f) s) := by
  show execStreamFaultRead q r s = _
  unfold execStreamFaultRead
  rw [goust_stream hr hx h]
  simp only [runCmd, icmd, hx, hs, hf]

theorem exec_streamFaultRead_refused (h : heard s q 0x0309 8 = true) (hs : x.state ≠ .halted) :
    exec (.streamFaultRead q r) s = .next (answer q 0x0309 St.streamState (strState x.state) [] s) := by
  show execStreamFaultRead q r s = _
  unfold execStreamFaultRead
  rw [goust_stream hr hx h]
  cases hst : x.state with
  | halted => exact absurd hst hs
  | _ => simp only [runCmd, icmd, hx, hst]

/-! ### STREAM_REARM (R306) -/

variable {src dst : BitVec 64} (h : heard s q 0x0308 24 = true)

include h

theorem exec_streamRearm_refused (hd : x.desc.persist = false ∨
      rearmOk s (streamPlan s (refKey r)) x.ruled { x.desc with src := src.toNat, dst := dst.toNat } = false) :
    exec (.streamRearm q r src dst) s = .next (answer q 0x0308 St.rearmRefused 0 [] s) := by
  show execStreamRearm q r src dst s = _
  unfold execStreamRearm
  rw [goust_stream hr hx h]
  rcases hd with hd | hd <;> simp [runCmd, icmd, hx, hd]

variable (hp : x.desc.persist = true)
  (hok : rearmOk s (streamPlan s (refKey r)) x.ruled { x.desc with src := src.toNat, dst := dst.toNat } = true)

include hp hok

omit hr hx h in
theorem rearm_admitted : (!x.desc.persist ||
    !rearmOk s (streamPlan s (refKey r)) x.ruled { x.desc with src := src.toNat, dst := dst.toNat }) = false := by
  rw [Bool.or_eq_false_iff, hp, hok]
  exact ⟨rfl, rfl⟩

/-- A re-arm that leaves an ingest stream's source keeps what its arming read of it. -/
theorem exec_streamRearm_kept (hk : x.desc.kind ≠ 1 ∨ src.toNat = x.desc.src) :
    exec (.streamRearm q r src dst) s = .next (answer q 0x0308 St.ok 0 []
      (setStream (refKey r) { x with rearm := some (src.toNat, dst.toNat), rearmChunks := x.ingest.chunks } s)) := by
  have hc : (decide (x.desc.kind = 1) && src.toNat != x.desc.src) = false := by rcases hk with hk | hk <;> simp [hk]
  show execStreamRearm q r src dst s = _
  unfold execStreamRearm
  rw [goust_stream hr hx h]
  simp only [runCmd, icmd, hx]
  rw [if_neg (ne_true_of_eq_false (rearm_admitted hp hok)), if_neg (ne_true_of_eq_false hc)]

variable (hk : x.desc.kind = 1) (hsrc : src.toNat ≠ x.desc.src)

include hk hsrc

theorem exec_streamRearm_armed {chunks : List Chunk}
    (ha : armSource s (streamPlan s (refKey r)) { x.desc with src := src.toNat, dst := dst.toNat } = .ok chunks) :
    exec (.streamRearm q r src dst) s = .next (answer q 0x0308 St.ok 0 []
      (setStream (refKey r) { x with rearm := some (src.toNat, dst.toNat), rearmChunks := chunks } s)) := by
  show execStreamRearm q r src dst s = _
  unfold execStreamRearm
  rw [goust_stream hr hx h]
  simp only [runCmd, icmd, hx]
  rw [if_neg (ne_true_of_eq_false (rearm_admitted hp hok)), if_pos (by simp [hk, hsrc]), ha]

theorem exec_streamRearm_sourceRefused {o : Nat}
    (ha : armSource s (streamPlan s (refKey r)) { x.desc with src := src.toNat, dst := dst.toNat } = .error o) :
    exec (.streamRearm q r src dst) s = .next (answer q 0x0308 St.sourceRefused o [] s) := by
  show execStreamRearm q r src dst s = _
  unfold execStreamRearm
  rw [goust_stream hr hx h]
  simp only [runCmd, icmd, hx]
  rw [if_neg (ne_true_of_eq_false (rearm_admitted hp hok)), if_pos (by simp [hk, hsrc]), ha]

end

end

/-! ### STREAM_START (R308) -/

/-- The streams of a batch's first `n` descriptors started on the host stream numbers from `first` on. -/
def started (all : Bytes) (first n : Nat) (s : State) : State :=
  (List.range n).foldl (fun s i =>
    drawn (setStream (255, first + i) { Stream.fresh (streamAt all (64 * i)) (hostEngine s) false with state := .running } s)) s

theorem started_succ (all : Bytes) (first n : Nat) (s : State) :
    started all first (n + 1) s = drawn (setStream (255, first + n)
      { Stream.fresh (streamAt all (64 * n)) (hostEngine (started all first n s)) false with state := .running } (started all first n s)) := by
  simp [started, List.range_succ]

theorem started_does (all : Bytes) (first n : Nat) (s : State) : Does [.streams, .freeCtr] s (started all first n s) :=
  .foldl _ (fun u i => .next (drawn_does _) (by decide) (.mono (setStream_does ..) (by decide))) (.refl s)

@[simp] theorem stream?_drawn (s : State) (k : Nat × Nat) : stream? (drawn s) k = stream? s k := rfl

theorem stream?_started_other {all : Bytes} {first n : Nat} {k : Nat × Nat} (s : State) (h : ∀ i, i < n → k ≠ (255, first + i)) :
    stream? (started all first n s) k = stream? s k := by
  induction n with
  | zero => rfl
  | succ n ih =>
    rw [started_succ, stream?_drawn, stream?_setStream_other _ _ _ _ (h n (Nat.lt_succ_self n))]
    exact ih fun i hi => h i (Nat.lt_succ_of_lt hi)

/-- Each stream of a batch runs its own descriptor, as a margin stream. -/
theorem stream?_started_same {all : Bytes} {first n i : Nat} (s : State) (h : i < n) :
    ∃ x, stream? (started all first n s) (255, first + i) = some x ∧ x.state = .running ∧ x.ruled = false ∧
      x.desc = streamAt all (64 * i) := by
  induction n with
  | zero => exact absurd h (Nat.not_lt_zero _)
  | succ n ih =>
    rw [started_succ, stream?_drawn]
    by_cases hi : i = n
    · subst hi
      exact ⟨_, stream?_setStream_same .., rfl, rfl, rfl⟩
    · rw [stream?_setStream_other _ _ _ _ (by simp [hi])]
      exact ih (by omega)

theorem exec_streamStart {s : State} {r : Req} {dva : BitVec 64} {count : BitVec 32} {first : Nat} (h : heard s r 0x0306 16 = true)
    (hlo : 1 ≤ count.toNat) (hhi : count.toNat ≤ 65536) (hheld : rangeHeld s dva.toNat (64 * count.toNat) = true)
    (hdesc : ∀ i, i < count.toNat → hostDescOk (slice (readDva s dva.toNat (64 * count.toNat)) (64 * i) 64) = true)
    (hrun : hostRun s count.toNat = some first) :
    exec (.streamStart r dva count) s = .next (answer r 0x0306 St.ok 0 (payload [.num 2 first])
      (started (readDva s dva.toNat (64 * count.toNat)) first count.toNat s)) := by
  have hall : ((List.range count.toNat).all fun i => hostDescOk (slice (readDva s dva.toNat (64 * count.toNat)) (64 * i) 64)) = true :=
    List.all_eq_true.2 fun i hi => hdesc i (List.mem_range.1 hi)
  show execStreamStart r dva count s = _
  unfold execStreamStart
  dsimp only
  rw [goust_icmd h (by simp; omega)]
  simp only [runCmd, icmd, hheld, hall, hrun, Bool.not_true, Bool.or_false, Bool.false_eq_true, if_false]
  rfl

/-! ### The statement -/

/-- Settles O17: the reads and the re-arm by what they find, and the streams that a batch starts. -/
theorem hostStreamCommands : Obligations.HostStreamCommands := by
  unfold Obligations.HostStreamCommands
  refine ⟨?read, ?fault, ?noFault, ?kept, ?source, ?refused, ?start⟩
  case read => exact fun s q r x h hr hx => exec_streamRead hr hx h
  case fault => exact fun s q r x f h hr hx hs hf => exec_streamFaultRead_halted hr hx h hs hf
  case noFault => exact fun s q r x h hr hx hs => exec_streamFaultRead_refused hr hx h hs
  case kept => exact fun s q r src dst x h hr hx hp hok hk => exec_streamRearm_kept hr hx h hp hok hk
  case source =>
    intro s q r src dst x h hr hx hp hok hk hsrc
    exact ⟨fun chunks ha => exec_streamRearm_armed hr hx h hp hok hk hsrc ha,
      fun o ha => exec_streamRearm_sourceRefused hr hx h hp hok hk hsrc ha⟩
  case refused => exact fun s q r src dst x h hr hx hd => exec_streamRearm_refused hr hx h hd
  case start =>
    intro s r dva count n first h hn hlo hhi hheld hdesc hrun
    subst hn
    exact ⟨_, exec_streamStart h hlo hhi hheld hdesc hrun, (started_does ..).eq_mix, fun i hi => stream?_started_same s hi,
      fun k hk => stream?_started_other s hk⟩

end Sys2Proof.Machine
end

section
/-! SUPPORT. STREAM_RESUME, STREAM_ABORT and STREAM_CANCEL: what a stream's end leaves of it, its waits and the pages (R317 to R319). -/

namespace Sys2Proof.Machine

/-! ### PG_FAULTED (R316) -/

@[simp] theorem stream?_refreshFaulted (page : Nat) (s : State) (k : Nat × Nat) : stream? (refreshFaulted page s) k = stream? s k := by
  rw [stream?, (refreshFaulted_does page s).frame .streams (by decide), ← stream?]

/-- Only PG_FAULTED of the page moves. -/
theorem look_refreshFaulted (page : Nat) (s : State) (n : Nat) :
    (look n (refreshFaulted page s).pages).map (fun p => (p.frame, p.state, p.dirty)) =
      (look n s.pages).map fun p => (p.frame, p.state, p.dirty) := by
  unfold refreshFaulted
  split
  · rfl
  · next p hp =>
    by_cases hn : n = page
    · subst hn
      rw [look_put_same, hp]
      rfl
    · rw [look_put_other _ _ _ _ hn]

/-! ### STREAM_RESUME (R317) -/

section

variable {s : State} {q : Req} {r : StreamRef} {x : Stream} (hr : r.slot.toNat < 64 ∨ r.slot = 0xff)
  (hx : stream? s (refKey r) = some x)

include hr hx

section

variable {f : FaultRec} (h : heard s q 0x030A 8 = true) (hs : x.state = .halted) (hf : x.fault = some f)

include h hs hf

theorem exec_streamResume_runs (ha : ∀ p, access s f.dva 1 ≠ .absent p) :
    exec (.streamResume q r) s = .next (answer q 0x030A St.ok 0 []
      (refreshFaulted (f.dva / pageBytes) (setStream (refKey r) { x with state := .running, fault := none } s))) := by
  show execStreamResume q r s = _
  unfold execStreamResume
  rw [goust_stream hr hx h]
  cases hacc : access s f.dva 1 with
  | absent p => exact absurd hacc (ha p)
  | _ => simp only [runCmd, icmd, hx, hs, hf, hacc]

theorem exec_streamResume_absent {p : Nat} (ha : access s f.dva 1 = .absent p) :
    exec (.streamResume q r) s = .next (answer q 0x030A St.ok 0 []
      (emitErr { cls := 3, code := 1, unit := x.unit, pos := f.dva, count := 0, plan := r.slot.toNat, named := false, test := false } s)) := by
  show execStreamResume q r s = _
  unfold execStreamResume
  rw [goust_stream hr hx h]
  simp only [runCmd, icmd, hx, hs, hf, ha]
  rfl

end

theorem exec_streamResume_refused (h : heard s q 0x030A 8 = true) (hs : x.state ≠ .halted) :
    exec (.streamResume q r) s = .next (answer q 0x030A St.streamState (strState x.state) [] s) := by
  show execStreamResume q r s = _
  unfold execStreamResume
  rw [goust_stream hr hx h]
  cases hst : x.state with
  | halted => exact absurd hst hs
  | _ => simp only [runCmd, icmd, hx, hst]

/-! ### STREAM_ABORT and STREAM_CANCEL as commands -/

theorem exec_streamAbort_live (h : heard s q 0x030B 8 = true) (hs : x.state = .running ∨ x.state = .halted) :
    exec (.streamAbort q r) s = .next (answer q 0x030B St.ok 0 [] (abortStream (refKey r) s)) := by
  show execStreamAbort q r s = _
  unfold execStreamAbort
  rw [goust_stream hr hx h]
  rcases hs with hs | hs <;> simp [runCmd, icmd, hx, hs]

theorem exec_streamAbort_refused (h : heard s q 0x030B 8 = true) (h1 : x.state ≠ .running) (h2 : x.state ≠ .halted) :
    exec (.streamAbort q r) s = .next (answer q 0x030B St.streamState (strState x.state) [] s) := by
  show execStreamAbort q r s = _
  unfold execStreamAbort
  rw [goust_stream hr hx h]
  simp [runCmd, icmd, hx, h1, h2]

theorem exec_streamCancel_live (h : heard s q 0x030C 8 = true) (hs : x.state = .running ∨ x.state = .halted ∨ x.state = .idle) :
    exec (.streamCancel q r) s = .next (answer q 0x030C St.ok 0 [] (cancelStream (refKey r) s)) := by
  show execStreamCancel q r s = _
  unfold execStreamCancel
  rw [goust_stream hr hx h]
  rcases hs with hs | hs | hs <;> simp [runCmd, icmd, hx, hs]

theorem exec_streamCancel_refused (h : heard s q 0x030C 8 = true) (h1 : x.state ≠ .running) (h2 : x.state ≠ .halted) (h3 : x.state ≠ .idle) :
    exec (.streamCancel q r) s = .next (answer q 0x030C St.streamState (strState x.state) [] s) := by
  show execStreamCancel q r s = _
  unfold execStreamCancel
  rw [goust_stream hr hx h]
  simp [runCmd, icmd, hx, h1, h2, h3]

end

/-! ### A stream ended (R318, R319) -/

/-- A stream that stood at fault `f` ended as `y`: its waits dropped, and PG_FAULTED of the page it waited for kept. -/
def endedAs (k : Nat × Nat) (f : Option FaultRec) (y : Stream) (s : State) : State :=
  let u := setStream k y (dropStreamWaits k s)
  match f with
  | some f => refreshFaulted (f.dva / pageBytes) u
  | none => u

section

variable (k : Nat × Nat) (f : Option FaultRec) (y : Stream) (s : State)

theorem stream?_endedAs_same : stream? (endedAs k f y s) k = some y := by
  cases f with
  | none => exact stream?_setStream_same ..
  | some f => exact (stream?_refreshFaulted ..).trans (stream?_setStream_same ..)

theorem stream?_endedAs_other {j : Nat × Nat} (h : j ≠ k) : stream? (endedAs k f y s) j = stream? s j := by
  cases f with
  | none => exact stream?_setStream_other _ _ _ _ h
  | some f => exact (stream?_refreshFaulted ..).trans (stream?_setStream_other _ _ _ _ h)

/-- Ending a stream touches the streams, PG_FAULTED and the stream's waits. -/
theorem endedAs_eq : endedAs k f y s = { s with
    streams := (endedAs k f y s).streams, pages := (endedAs k f y s).pages, cells := (endedAs k f y s).cells
    regHeld := s.regHeld.filter fun e => !streamWaits k e.2
    parked := s.parked.filter fun w => !streamWaits k w.waiter
    queueWaits := s.queueWaits.filter fun e => !streamWaits k e.2 } := by
  cases f with
  | none => rfl
  | some f =>
    show refreshFaulted (f.dva / pageBytes) (setStream k y (dropStreamWaits k s)) = _
    exact (Does.mono (T := [.streams, .pages, .cells]) (refreshFaulted_does ..) (by decide)).eq_mix

theorem cell_endedAs (c : Nat) :
    cell (endedAs k f y s) c = { cell s c with waiters := (cell s c).waiters.filter fun w => !streamWaits k w } := by
  have hcells : (endedAs k f y s).cells = (dropStreamWaits k s).cells := by
    cases f with
    | none => rfl
    | some f => exact (refreshFaulted_does ..).frame .cells (by decide)
  have hmap := look_map (fun x : SigCell => { x with waiters := x.waiters.filter fun w => !streamWaits k w }) c s.cells
  rw [cell, hcells]
  refine (congrArg (·.getD SigCell.reset) hmap).trans ?_
  unfold cell
  cases look c s.cells <;> rfl

theorem look_endedAs (n : Nat) :
    (look n (endedAs k f y s).pages).map (fun p => (p.frame, p.state, p.dirty)) =
      (look n s.pages).map fun p => (p.frame, p.state, p.dirty) := by
  cases f with
  | none => rfl
  | some f => exact look_refreshFaulted ..

end

/-- A stream aborted keeps its descriptor, its transfers and its count of tiles (R318). -/
theorem abortStream_ends {k : Nat × Nat} {s : State} {x : Stream} (hx : stream? s k = some x) :
    ∃ y, abortStream k s = endedAs k x.fault y s ∧ y.state = .aborted ∧ y.desc = x.desc ∧ y.transfers = x.transfers ∧ y.tiles = x.tiles := by
  unfold abortStream
  simp only [hx]
  exact ⟨_, rfl, rfl, rfl, rfl, rfl⟩

/-- A stream cancelled owes nothing; of a read stream every slot is FREE and every read in flight drops its data (R319). -/
theorem cancelStream_ends {k : Nat × Nat} {s : State} {x : Stream} (hx : stream? s k = some x) :
    ∃ y, cancelStream k s = endedAs k x.fault y s ∧ y.state = .cancelled ∧ y.owed = 0 ∧ y.tiles = x.tiles ∧
      (x.desc.write = false → (∀ sl ∈ y.slots, sl = Slot.free) ∧ ∀ t ∈ y.transfers, t.drop = true) := by
  unfold cancelStream
  simp only [hx]
  refine ⟨_, rfl, rfl, rfl, rfl, fun hw => ⟨fun sl hsl => ?_, fun t ht => ?_⟩⟩
  · obtain ⟨e, -, rfl⟩ := List.mem_map.1 hsl
    simp [hw]
  · obtain ⟨e, -, rfl⟩ := List.mem_map.1 ht
    simp [hw]

/-! ### The statement -/

/-- Settles O18: each command by the state it finds the stream in, the two ends of a stream through what any end leaves. -/
theorem streamControl : Obligations.StreamControl := by
  unfold Obligations.StreamControl
  refine ⟨?resume, ?absent, ?abort, ?cancel, ?refused⟩
  case resume =>
    intro s q r x f h hr hx hs hf ha
    refine ⟨_, exec_streamResume_runs hr hx h hs hf ha, ?_, fun k hk => ?_, ?_⟩
    · rw [stream?_refreshFaulted, stream?_setStream_same]
    · rw [stream?_refreshFaulted, stream?_setStream_other _ _ _ _ hk]
    · exact (Does.next (T := [.streams, .pages]) (refreshFaulted_does ..) (by decide) (.mono (setStream_does ..) (by decide))).eq_mix
  case absent => exact fun s q r x f p h hr hx hs hf ha => exec_streamResume_absent hr hx h hs hf ha
  case abort =>
    intro s q r x h hr hx hs
    obtain ⟨y, hy, hstate, hdesc, htr, htiles⟩ := abortStream_ends hx
    exact ⟨_, y, hy ▸ exec_streamAbort_live hr hx h hs, stream?_endedAs_same .., hstate, hdesc, htr, htiles,
      fun k hk => stream?_endedAs_other _ _ _ _ hk, endedAs_eq .., fun c => cell_endedAs .., fun n => look_endedAs ..⟩
  case cancel =>
    intro s q r x h hr hx hs
    obtain ⟨y, hy, hstate, howed, htiles, hread⟩ := cancelStream_ends hx
    exact ⟨_, y, hy ▸ exec_streamCancel_live hr hx h hs, stream?_endedAs_same .., hstate, howed, htiles, hread,
      fun k hk => stream?_endedAs_other _ _ _ _ hk, endedAs_eq .., fun c => cell_endedAs .., fun n => look_endedAs ..⟩
  case refused =>
    intro s q r x hr hx
    exact ⟨fun h => exec_streamResume_refused hr hx h, fun h => exec_streamAbort_refused hr hx h,
      fun h => exec_streamCancel_refused hr hx h⟩

end Sys2Proof.Machine
end

section
/-! SUPPORT. Descriptor words: a word packed from fields that fill it reads back field by field (R7, Tables 11-3 and 11-7). -/

namespace Sys2Proof.Machine

/-- A field inside a word reads as it does before the word is cut to its width. -/
theorem fld_toNat_ofNat {hi lo w : Nat} (v : Nat) (h : hi < w) : fld hi lo (BitVec.ofNat w v).toNat = fld hi lo v := by
  apply Nat.eq_of_testBit_eq
  intro i
  rw [BitVec.toNat_ofNat, fld_testBit, fld_testBit, Nat.testBit_mod_two_pow]
  by_cases hi' : i < hi + 1 - lo
  · simp [show lo + i < w by omega]
  · simp [hi']

/-- A flag packed into one bit. -/
@[simp] theorem b2n_mod_two (b : Bool) : b2n b % 2 ^ 1 = b2n b := by cases b <;> rfl

/-- A saturated count packed into the width it saturates at. -/
@[simp] theorem satTo_mod (w n : Nat) : satTo w n % 2 ^ w = satTo w n := by
  have := Nat.two_pow_pos w
  exact Nat.mod_eq_of_lt (by unfold satTo; omega)

end Sys2Proof.Machine
end

section
/-! SUPPORT. The commands on a queue: when one is carried out, QUEUE_READ, QUEUE_SET and QUEUE_RESET by what they find, and the queue that
each leaves (R364, R373, R429, Table 11-3). -/

namespace Sys2Proof.Machine

/-! ### A command on a queue (R357, R429) -/

/-- A command that names a cluster which is off is answered POWER_STATE. -/
theorem goust_unitOff {s : State} {r : Req} {c : Cmd} (h : heard s r c.op c.len = true) (hb : ∀ e ∈ c.bad, e.2 = false)
    (hu : ∀ u ∈ c.units, unitOk u.2 = true)
    (hoff : ∃ u ∈ c.units, (uidCluster u.2 < 12 && (cluster s (uidClusterIndex u.2)).off) = true) :
    goust r c s = answer r c.op St.powerState 0 [] s := by
  simp only [heard, Bool.and_eq_true, beq_iff_eq, Option.isNone_iff_eq_none] at h
  obtain ⟨⟨⟨⟨⟨hup, hfresh⟩, hn⟩, hl⟩, hlen⟩, hp⟩ := h
  have hfields : badOffset r c = none := by
    have : c.bad.filter (·.2) = [] := List.filter_eq_nil_iff.2 fun e he => by simp [hb e he]
    simp [badOffset, this, hn]
  have hknown : c.units.find? (fun u => !unitOk u.2) = none := List.find?_eq_none.2 fun u hm => by simp [hu u hm]
  have hpow : powerAllows s c = false := by
    obtain ⟨u, hm, hx⟩ := hoff
    exact Bool.and_eq_false_iff.2 (.inr (List.all_eq_false.2 ⟨u, hm, by simp [hx]⟩))
  have href : refusal s r c = some (St.powerState, 0) := by simp [refusal, hfields, hknown, hpow, ← hl, hlen]
  simp [goust, byTag, hup, hfresh, href]

/-- The pool of a queue whose number names a cluster that exists is a unit that exists. -/
theorem unitOk_queuePool {q : BitVec 16} (h : queueNumberOk q.toNat = true) : unitOk (queuePool q.toNat) = true := by
  have hpools : ∀ k < 48, unitOk (clusterUid k 11) = true := by decide
  have hq := q.isLt
  simp only [queueNumberOk, decide_eq_true_eq] at h
  exact hpools _ (by omega)

/-- A queue is on unless its number names a cluster that is off. -/
theorem queueOn_iff {s : State} {q : Nat} : queueOn s q = true ↔
    (uidCluster (queuePool q) < 12 && (cluster s (uidClusterIndex (queuePool q))).off) = false := by
  rw [queueOn, Bool.not_eq_true']

theorem queueOn_eq_false_iff {s : State} {q : Nat} : queueOn s q = false ↔
    (uidCluster (queuePool q) < 12 && (cluster s (uidClusterIndex (queuePool q))).off) = true := by
  rw [queueOn, Bool.not_eq_false']

section

variable {s : State} {r : Req} {q : BitVec 16} {op len : Nat} {bad : List (Nat × Bool)} {body : State → CmdRes}
  (h : heard s r op len = true) (hb : ∀ e ∈ bad, e.2 = false) (hq : queueNumberOk q.toNat = true)

include h hb hq

/-- A heard command on a queue of a cluster that is on is carried out. -/
theorem goust_qcmd (hon : queueOn s q.toNat = true) :
    goust r (qcmd op len q.toNat bad body) s = runCmd r (qcmd op len q.toNat bad body) s :=
  goust_iunits rfl h hb (List.forall_mem_singleton.2 ⟨unitOk_queuePool hq, queueOn_iff.1 hon⟩)

/-- A heard command on a queue of a cluster that is off is answered POWER_STATE. -/
theorem goust_qcmd_off (hoff : queueOn s q.toNat = false) :
    goust r (qcmd op len q.toNat bad body) s = answer r op St.powerState 0 [] s :=
  goust_unitOff h hb (List.forall_mem_singleton.2 (unitOk_queuePool hq)) ⟨_, List.mem_singleton_self _, queueOn_eq_false_iff.1 hoff⟩

end

section

variable {s : State} {r : Req} {queue : BitVec 16}

/-! ### QUEUE_READ (Table 11-3) -/

theorem queueNumberBad_none (hq : queueNumberOk queue.toNat = true) : ∀ e ∈ [(0, !queueNumberOk queue.toNat)], e.2 = false := by simp [hq]

theorem exec_queueRead {x : Queue} (h : heard s r 0x030d 8 = true) (hq : queueNumberOk queue.toNat = true)
    (hon : queueOn s queue.toNat = true) (hx : queue? s queue.toNat = some x) :
    exec (.queueRead r queue) s = .next (answer r 0x030d St.ok 0 (le 32 (queueDesc s queue.toNat x).toNat) (drawn s)) := by
  show execQueueRead r queue s = _
  unfold execQueueRead
  rw [goust_qcmd h (queueNumberBad_none hq) hq hon]
  simp only [runCmd, qcmd, icmd, hx]

theorem exec_queueRead_off (h : heard s r 0x030d 8 = true) (hq : queueNumberOk queue.toNat = true) (hoff : queueOn s queue.toNat = false) :
    exec (.queueRead r queue) s = .next (answer r 0x030d St.powerState 0 [] s) :=
  congrArg Host.Outcome.next (goust_qcmd_off h (queueNumberBad_none hq) hq hoff)

/-- Each stated field of the descriptor reads as the queue's own (Table 11-3). -/
theorem queueDesc_fields (s : State) (q : Nat) (x : Queue) :
    fld 87 56 (queueDesc s q x).toNat = x.wdog.toNat ∧ fld 91 88 (queueDesc s q x).toNat = x.kind.toNat ∧
    fld 92 92 (queueDesc s q x).toNat = b2n x.broken ∧ fld 93 93 (queueDesc s q x).toNat = b2n x.autorel ∧
    fld 94 94 (queueDesc s q x).toNat = b2n x.mark.isSome ∧ fld 96 95 (queueDesc s q x).toNat = (consumerDomain s q x).toNat ∧
    fld 98 97 (queueDesc s q x).toNat = (producerDomain s q x).toNat ∧ fld 100 99 (queueDesc s q x).toNat = x.noticeKind.toNat ∧
    fld 116 101 (queueDesc s q x).toNat = x.noticeTgt.toNat ∧ fld 124 117 (queueDesc s q x).toNat = x.corr.toNat ∧
    fld 140 125 (queueDesc s q x).toNat = satTo 16 (x.pkts.length - x.read.1 + (controlEgress s q).length) ∧
    fld 157 141 (queueDesc s q x).toNat = x.reserve % 2 ^ 17 ∧ fld 174 158 (queueDesc s q x).toNat = x.limit % 2 ^ 17 ∧
    fld 191 175 (queueDesc s q x).toNat = allCells s q x % 2 ^ 17 := by
  unfold queueDesc
  simp (disch := decide) only [fld_toNat_ofNat, fld_pack_high, fld_pack_low, Nat.reduceSub, BitVec.toNat_mod_cancel, b2n_mod_two, satTo_mod, and_self]

/-- QD_PDOM is TCLK while a receive stream delivers to the queue (R364, Table 11-5). -/
theorem producerDomain_fed {q : Nat} (x : Queue) (h : ∃ e ∈ s.rx, e.dest = .queue q) : producerDomain s q x = 1 :=
  if_pos (List.any_eq_true.2 (by simpa using h))

theorem producerDomain_unfed {q : Nat} (x : Queue) (h : ∀ e ∈ s.rx, e.dest ≠ .queue q) : producerDomain s q x = x.pdom :=
  if_neg (by simpa using h)

/-- QD_CDOM is TCLK while a transmit stream takes from the queue (R364, Table 11-5). -/
theorem consumerDomain_drained {q : Nat} (x : Queue) (h : ∃ t ∈ s.tx, t.queue = q) : consumerDomain s q x = 1 :=
  if_pos (List.any_eq_true.2 (by simpa using h))

theorem consumerDomain_undrained {q : Nat} (x : Queue) (h : ∀ t ∈ s.tx, t.queue ≠ q) : consumerDomain s q x = x.cdom :=
  if_neg (by simpa using h)

/-! ### QUEUE_SET (R364) -/

/-- A queue with the RW fields of a QUEUE_SET image. -/
def setFields (d : Nat) (x : Queue) : Queue :=
  { x with limit := fld 174 158 d, noticeTgt := BitVec.ofNat 16 (fld 116 101 d), noticeKind := BitVec.ofNat 2 (fld 100 99 d),
           autorel := bitAt d 93, kind := BitVec.ofNat 4 (fld 91 88 d), wdog := BitVec.ofNat 32 (fld 87 56 d) }

/-- A field put into a register of its own width. -/
theorem toNat_ofNat_fld {hi lo w : Nat} (v : Nat) (h : hi + 1 - lo = w) : (BitVec.ofNat w (fld hi lo v)).toNat = fld hi lo v := by
  rw [BitVec.toNat_ofNat]
  exact Nat.mod_eq_of_lt (h ▸ fld_lt hi lo v)

/-- A good QUEUE_SET image names a queue of a cluster that exists. -/
theorem queueNumberOk_of_queueSetBad {q d : Nat} (hb : ∀ e ∈ queueSetBad s q d, e.2 = false) : queueNumberOk q = true := by
  simpa using hb (0, !queueNumberOk q) (by simp [queueSetBad])

section

variable {desc : BitVec 256} (h : heard s r 0x030e 40 = true) (hon : queueOn s queue.toNat = true)
  (hb : ∀ e ∈ queueSetBad s queue.toNat desc.toNat, e.2 = false)

include h hon hb

theorem exec_queueSet_loaded {slot a : Nat} {p : Plan} {x : Queue} (ho : queueOwner s queue.toNat = some (slot, p, a))
    (hx : queue? s queue.toNat = some x) (hp : p.state = .loaded) :
    exec (.queueSet r queue desc) s =
      .next (answer r 0x030e St.ok 0 [] (setQueue queue.toNat (setFields desc.toNat x) s)) := by
  show execQueueSet r queue desc s = _
  unfold execQueueSet
  dsimp only
  rw [goust_qcmd h hb (queueNumberOk_of_queueSetBad hb) hon]
  simp only [runCmd, qcmd, icmd, ho, hx, hp, ne_eq, not_true_eq_false, if_false]
  rfl

theorem exec_queueSet_refused (hp : ∀ slot p a, queueOwner s queue.toNat = some (slot, p, a) → p.state ≠ .loaded) :
    exec (.queueSet r queue desc) s = .next (answer r 0x030e St.planState 0 [] s) := by
  show execQueueSet r queue desc s = _
  unfold execQueueSet
  dsimp only
  rw [goust_qcmd h hb (queueNumberOk_of_queueSetBad hb) hon]
  cases ho : queueOwner s queue.toNat with
  | none => simp only [runCmd, qcmd, icmd, ho]
  | some o =>
    obtain ⟨slot, p, a⟩ := o
    have hstate := hp slot p a ho
    cases hx : queue? s queue.toNat <;> simp [runCmd, qcmd, icmd, ho, hx, hstate]

end

/-! ### QUEUE_RESET (R373) -/

/-- A ruled unit is attached to a queue of an ACTIVE plan. -/
def resetHeld (s : State) (q : Nat) : Bool :=
  match queueOwner s q with
  | some (_, p, a) => p.state == .active && queueRuled p a
  | none => false

theorem resetHeld_none {q : Nat} (h : ∀ slot p a, queueOwner s q = some (slot, p, a) → p.state ≠ .active ∨ queueRuled p a = false) :
    resetHeld s q = false := by
  unfold resetHeld
  split
  · next ho => rcases h _ _ _ ho with h | h <;> simp [h]
  · rfl

section

variable {x : Queue} (h : heard s r 0x0310 8 = true) (hq : queueNumberOk queue.toNat = true)
  (hon : queueOn s queue.toNat = true) (hx : queue? s queue.toNat = some x)

include h hq hon hx

theorem exec_queueReset : exec (.queueReset r queue) s =
    .next (if resetHeld s queue.toNat then answer r 0x0310 St.queueRefused 0 [] s
      else answer r 0x0310 St.ok 0 [] (flowControl (wakeQueue queue.toNat (setQueue queue.toNat (emptyQueue x) s)))) := by
  show execQueueReset r queue s = _
  unfold execQueueReset
  dsimp only
  rw [goust_qcmd h (queueNumberBad_none hq) hq hon]
  cases ho : queueOwner s queue.toNat with
  | none => simp only [runCmd, qcmd, icmd, hx, resetHeld, ho, Bool.false_eq_true, if_false]
  | some o => cases hr : (o.2.1.state == .active && queueRuled o.2.1 o.2.2) <;>
      simp only [runCmd, qcmd, icmd, hx, resetHeld, ho, hr, Bool.false_eq_true, if_false, if_true]

end

theorem exec_queueReset_off (h : heard s r 0x0310 8 = true) (hq : queueNumberOk queue.toNat = true) (hoff : queueOn s queue.toNat = false) :
    exec (.queueReset r queue) s = .next (answer r 0x0310 St.powerState 0 [] s) :=
  congrArg Host.Outcome.next (goust_qcmd_off h (queueNumberBad_none hq) hq hoff)

end

/-! ### What wakes in a pool (R359, R370) -/

/-- With no unit waiting on the queues of a pool, nothing wakes there. -/
theorem wakeQueue_quiet {q : Nat} {s : State} (h : poolQuiet s q) : wakeQueue q s = s := by
  have hnone : s.queueWaits.find? (fun e => e.1 / 1024 == q / 1024 && waitReady s e) = none :=
    List.find?_eq_none.2 fun e he => by simp [h e he]
  unfold wakeQueue
  cases s.queueWaits.length with
  | zero => rfl
  | succ n => simp only [endWaits, hnone]

/-- A pool stays quiet while no wait is registered. -/
theorem poolQuiet_of_queueWaits {q : Nat} {s t : State} (h : poolQuiet s q) (ht : t.queueWaits = s.queueWaits) : poolQuiet t q :=
  fun e he => h e (ht ▸ he)

/-! ### The statement -/

/-- Settles O20: each command by what it finds, the descriptor field by field. -/
theorem queueCommands : Obligations.QueueCommands := by
  unfold Obligations.QueueCommands
  refine ⟨?read, ?set, ?setRefused, ?reset, ?resetRefused, ?off⟩
  case read =>
    intro s r queue x h hq hon hx
    obtain ⟨wdog, kind, broken, autorel, mark, cdom, pdom, nkind, ntgt, corr, pkts, reserve, limit, held⟩ := queueDesc_fields s queue.toNat x
    refine ⟨_, exec_queueRead h hq hon hx, wdog, kind, broken, autorel, mark, nkind, ntgt, corr, pkts, reserve, limit, held, ?_⟩
    rw [cdom, pdom]
    exact ⟨fun hf => by rw [producerDomain_fed x hf]; rfl, fun hf => by rw [producerDomain_unfed x hf],
      fun hf => by rw [consumerDomain_drained x hf]; rfl, fun hf => by rw [consumerDomain_undrained x hf]⟩
  case set =>
    intro s r queue desc slot p a x h hon hb ho hx hp
    exact ⟨_, _, exec_queueSet_loaded h hon hb ho hx hp, queue?_setQueue_same .., rfl, toNat_ofNat_fld _ rfl, toNat_ofNat_fld _ rfl, rfl,
      toNat_ofNat_fld _ rfl, toNat_ofNat_fld _ rfl, rfl, rfl, rfl, rfl, rfl, rfl, fun k hk => queue?_setQueue_other _ _ _ _ hk, rfl⟩
  case setRefused => exact fun s r queue desc h hon hb hp => exec_queueSet_refused h hon hb hp
  case reset =>
    intro s r queue x h hq hon hx hfree
    have hexec := exec_queueReset h hq hon hx
    rw [resetHeld_none hfree] at hexec
    exact ⟨_, _, hexec, queue?_setQueue_same .., rfl, rfl, rfl, rfl, rfl, rfl, rfl, rfl, rfl, rfl,
      fun k hk => queue?_setQueue_other _ _ _ _ hk, rfl, fun hquiet => wakeQueue_quiet hquiet⟩
  case resetRefused =>
    intro s r queue x slot p a h hq hon hx ho hp hr
    have hheld : resetHeld s queue.toNat = true := by simp [resetHeld, ho, hp, hr]
    rw [exec_queueReset h hq hon hx, hheld]
    rfl
  case off => exact fun s r queue hq hoff => ⟨fun h => exec_queueRead_off h hq hoff, fun h => exec_queueReset_off h hq hoff⟩

end Sys2Proof.Machine
end

section
/-! SUPPORT. What moves a queue: takes, MARK, REWIND, RELEASE and commits by what they find, and QUEUE_OP for the host (R359 to R373, R433,
Table 11-4). -/

namespace Sys2Proof.Machine

/-! ### What a take finds (R365, R371 to R373) -/

section

variable {q : Nat} {x : Queue} {s : State}

theorem takeable_of_head {p : Packet} (hb : x.broken = false) (hp : x.pkts[x.read.1]? = some p) : takeable x = true := by
  obtain ⟨hlt, -⟩ := List.getElem?_eq_some_iff.1 hp
  simpa [takeable, hb] using hlt

theorem takeable_past_end (h : x.pkts.length ≤ x.read.1) : takeable x = false := by
  simp only [takeable, decide_eq_false_iff_not]
  split <;> omega

/-- A queue whose cell at QD_READ, of packet `p`, has been taken (R365, R366). -/
def pastCell (p : Packet) (x : Queue) : Queue :=
  if x.read.2 + 1 < p.cells.length then { x with read := (x.read.1, x.read.2 + 1) }
  else if x.autorel && x.mark.isNone then freePackets (x.read.1 + 1) { x with read := (x.read.1 + 1, 0) }
  else { x with read := (x.read.1 + 1, 0) }

theorem takeFrom_none (h : takeable x = false) : takeFrom q x s = none := by simp [takeFrom, h]

theorem takeFrom_head {p : Packet} (ht : takeable x = true) (hp : x.pkts[x.read.1]? = some p) :
    takeFrom q x s = some (cellBytes x.kind.toNat p x.read.2 (nextCell s x x.read.1 x.read.2), setQueue q (pastCell p x) s) := by
  simp only [takeFrom, ht, hp, pastCell, Bool.not_true, Bool.false_eq_true, if_false]
  split <;> rfl

/-- A take changes its own queue only. -/
theorem takeFrom_leaves {c : Bytes} {t : State} (h : takeFrom q x s = some (c, t)) : ∃ y, t = setQueue q y s := by
  cases ht : takeable x with
  | false => rw [takeFrom_none ht] at h; cases h
  | true =>
    cases hp : x.pkts[x.read.1]? with
    | none => simp [takeFrom, ht, hp] at h
    | some p =>
      rw [takeFrom_head ht hp] at h
      cases h
      exact ⟨_, rfl⟩

/-- A packet with no bad word and no corrected one is presented with nothing counted. -/
theorem checkHead_clean (q : Nat) (s : State) : checkHead q none 0 s = s := by
  have hcount : corrected q 0 s = s := by unfold corrected; split <;> simp
  unfold checkHead
  split
  · rfl
  · next x hx =>
    simp only [hcount, hx]
    split
    · rfl
    · cases x.pkts[x.read.1]? <;> rfl

theorem takeChecked_clean (q : Nat) (s : State) :
    takeChecked q none 0 s = (((queue? s q).bind fun x => takeCell q x s), s) := by
  simp only [takeChecked, checkHead_clean]

/-- With nothing takeable, no cell is taken. -/
theorem takeChecked_none (hx : queue? s q = some x) (ht : takeable x = false) : takeChecked q none 0 s = (none, s) := by
  simp [takeChecked_clean, hx, takeCell, takeFrom_none ht]

/-- The cell at QD_READ is taken, and what its release lets go on goes on. -/
theorem takeChecked_head {p : Packet} (hx : queue? s q = some x) (ht : takeable x = true) (hp : x.pkts[x.read.1]? = some p) :
    takeChecked q none 0 s = (some (cellBytes x.kind.toNat p x.read.2 (nextCell s x x.read.1 x.read.2),
      wakeQueue q (setQueue q (pastCell p x) s)), s) := by
  simp [takeChecked_clean, hx, takeCell, takeFrom_head ht hp]

end

/-! ### Waits registered (R362, R378) -/

/-- A unit waits after its wait is registered. -/
theorem queueWait_registers (q : Nat) (w : Waiter) (s : State) :
    ∃ e ∈ (queueWait q w s).queueWaits, e.1 = q ∧ e.2.unit = w.unit ∧ e.2.what = w.what := by
  unfold queueWait
  split
  · next hany => simpa [and_assoc] using List.any_eq_true.1 hany
  · exact ⟨_, List.mem_append_right _ (List.mem_singleton_self _), rfl, rfl, rfl⟩

/-! ### MARK, REWIND and RELEASE (R365, R366) -/

section

variable {s : State} {q : BitVec 16} {x : Queue} (hx : queue? s q.toNat = some x)

include hx

theorem exec_mark : exec (.mark q) s =
    .next (setQueue q.toNat { x with mark := some x.read, markCell := BitVec.ofNat 16 (cellAt s x x.read) } s) := by
  show Host.Outcome.next (markOp q.toNat s) = _
  simp only [markOp, hx]

theorem exec_rewind_mark {m : Nat × Nat} (hm : x.mark = some m) : exec (.rewind q) s = .next (setQueue q.toNat { x with read := m } s) := by
  show Host.Outcome.next ((rewindOp q.toNat s).getD s) = _
  simp only [rewindOp, hx, hm, Option.getD_some]

theorem rewindOp_noMark (hm : x.mark = none) : rewindOp q.toNat s = none := by
  simp only [rewindOp, hx, hm]

theorem exec_release : exec (.release q) s =
    .next (flowControl (wakeQueue q.toNat (setQueue q.toNat { freePackets x.read.1 x with mark := none } s))) := by
  show Host.Outcome.next (flowControl (releaseOp q.toNat s)) = _
  simp only [releaseOp, hx]

/-! ### TAKE_POLL and TAKE_WAIT (R365) -/

theorem exec_takePoll_empty (ht : takeable x = false) : exec (.takePoll ⟨q, none, 0⟩) s = .next (flowControl s) := by
  show Host.Outcome.next (flowControl (takePollOp q.toNat none 0 s).2) = _
  simp only [takePollOp, takeChecked_none hx ht]

theorem exec_takeWait_empty (unit : BitVec 16) (ht : takeable x = false) :
    exec (.takeWait q unit none 0) s = .next (flowControl (queueWait q.toNat ⟨unit, 0, 0, .unit⟩ s)) := by
  show Host.Outcome.next (flowControl (takeWaitOp q.toNat unit none 0 s)) = _
  simp only [takeWaitOp, takeChecked_none hx ht]

section

variable {p : Packet} (ht : takeable x = true) (hp : x.pkts[x.read.1]? = some p)

include ht hp

theorem exec_takePoll_head : exec (.takePoll ⟨q, none, 0⟩) s =
    .next (flowControl (wakeQueue q.toNat (setQueue q.toNat (pastCell p x) s))) := by
  show Host.Outcome.next (flowControl (takePollOp q.toNat none 0 s).2) = _
  simp only [takePollOp, takeChecked_head hx ht hp]

theorem exec_takeWait_head (unit : BitVec 16) : exec (.takeWait q unit none 0) s =
    .next (flowControl (wakeQueue q.toNat (setQueue q.toNat (pastCell p x) s))) := by
  show Host.Outcome.next (flowControl (takeWaitOp q.toNat unit none 0 s)) = _
  simp only [takeWaitOp, takeChecked_head hx ht hp]

end

/-! ### PACKET_COMMIT (R361, R362) -/

variable (unit : BitVec 16) {bs : Bytes}

theorem exec_packetCommit_tooLong (hlong : x.limit < cellsFor bs.length) :
    exec (.packetCommit q unit bs) s = .next (flowControl (tooLong q.toNat x bs.length s)) := by
  show Host.Outcome.next (flowControl (commitPacket q.toNat unit 0 bs s)) = _
  simp only [commitPacket, hx, gt_iff_lt, hlong, if_true]

variable (hfit : cellsFor bs.length ≤ x.limit)

include hfit

theorem exec_packetCommit_room (hroom : queueRoom s q.toNat bs.length = true) : exec (.packetCommit q unit bs) s =
    .next (flowControl (wakeQueue q.toNat (notice q.toNat x (enqueue q.toNat x 0 bs s)))) := by
  show Host.Outcome.next (flowControl (commitPacket q.toNat unit 0 bs s)) = _
  simp only [commitPacket, hx, gt_iff_lt, Nat.not_lt.2 hfit, hroom, if_false, if_true]
  rfl

theorem exec_packetCommit_full (hroom : queueRoom s q.toNat bs.length = false) : exec (.packetCommit q unit bs) s =
    .next (flowControl (queueWait q.toNat ⟨unit, bs.length + 1, 0, .commit 0 bs⟩ s)) := by
  show Host.Outcome.next (flowControl (commitPacket q.toNat unit 0 bs s)) = _
  simp only [commitPacket, hx, gt_iff_lt, Nat.not_lt.2 hfit, hroom, Bool.false_eq_true, if_false]

end

theorem pickCells_length (n : Nat) (used : List Nat) (ctr : Nat) : (pickCells n used ctr).length = n := by
  induction n generalizing used ctr with
  | zero => rfl
  | succ n ih => simp only [pickCells, List.length_cons, ih]

/-! ### QUEUE_OP (R433) -/

/-- The cells a TAKE_POLL run of the host takes come from its own queue only, and are no more than asked for. -/
theorem pollCells_quiet {q : Nat} (n : Nat) {s : State} (h : poolQuiet s q) :
    (pollCells q n (none, 0) s).1.length ≤ n ∧ ∀ k, k ≠ q → queue? (pollCells q n (none, 0) s).2 k = queue? s k := by
  induction n generalizing s with
  | zero => exact ⟨Nat.le_refl _, fun k _ => rfl⟩
  | succ n ih =>
    simp only [pollCells, takeChecked_clean, ite_self]
    cases hc : (queue? s q).bind fun x => takeCell q x s with
    | none => exact ⟨Nat.zero_le _, fun k _ => rfl⟩
    | some ct =>
      obtain ⟨x, -, htake⟩ := Option.bind_eq_some_iff.1 hc
      obtain ⟨⟨c, t⟩, hfrom, rfl⟩ := Option.map_eq_some_iff.1 htake
      obtain ⟨y, rfl⟩ := takeFrom_leaves hfrom
      have hy : poolQuiet (setQueue q y s) q := poolQuiet_of_queueWaits h rfl
      obtain ⟨hlen, hother⟩ := ih hy
      rw [wakeQueue_quiet hy]
      exact ⟨Nat.succ_le_succ hlen, fun k hk => (hother k hk).trans (queue?_setQueue_other _ _ _ _ hk)⟩

theorem pollCells_empty {q : Nat} {x : Queue} {s : State} (n : Nat) (hx : queue? s q = some x) (ht : takeable x = false) :
    pollCells q n (none, 0) s = ([], s) := by
  cases n with
  | zero => rfl
  | succ n => simp only [pollCells, takeChecked_none hx ht]

/-- The first cell taken is the one at QD_READ. -/
theorem pollCells_head {q n : Nat} {x : Queue} {p : Packet} {s : State} (hn : 1 ≤ n) (hx : queue? s q = some x) (ht : takeable x = true)
    (hp : x.pkts[x.read.1]? = some p) : (pollCells q n (none, 0) s).1.head? =
      some (cellBytes x.kind.toNat p x.read.2 (nextCell s x x.read.1 x.read.2)) := by
  obtain ⟨m, rfl⟩ : ∃ m, n = m + 1 := ⟨n - 1, by omega⟩
  simp only [pollCells, takeChecked_head hx ht hp, List.head?_cons]

theorem le_length (n v : Nat) : (le n v).length = n := by
  induction n generalizing v with
  | zero => rfl
  | succ n ih => simp only [le, List.length_cons, ih]

/-- After its 8 bytes of header the first cell of a packet holds the packet's first 56 bytes (R360). -/
theorem cellBytes_payload (kind next : Nat) (p : Packet) : (cellBytes kind p 0 next).drop 8 = fit 56 (p.bytes.take 56) := by
  have hdr := le_length 8
  unfold cellBytes
  dsimp only
  rw [List.drop_append_of_le_length (Nat.le_of_eq (hdr _).symm), List.drop_of_length_le (Nat.le_of_eq (hdr _))]
  rfl

/-- The host's take leaves at most another consumer's domain on the queue (R364). -/
theorem hostConsumes_leaves {q : Nat} {x : Queue} {s : State} (hx : queue? s q = some x) :
    (∃ d, queue? (hostConsumes q s) q = some { x with cdom := d }) ∧ (hostConsumes q s).queueWaits = s.queueWaits ∧
      ∀ k, k ≠ q → queue? (hostConsumes q s) k = queue? s k := by
  have hsame : ∃ d, queue? s q = some { x with cdom := d } := ⟨x.cdom, hx⟩
  unfold hostConsumes
  split
  · next y slot p a hy ho =>
    obtain rfl : x = y := Option.some.inj (hx.symm.trans hy)
    split
    · exact ⟨hsame, rfl, fun k _ => rfl⟩
    · exact ⟨⟨2, queue?_setQueue_same ..⟩, rfl, fun k hk => queue?_setQueue_other _ _ _ _ hk⟩
  · exact ⟨hsame, rfl, fun k _ => rfl⟩

/-- What QUEUE_OP takes of a queue for the host: the cells and the state they leave (R364, R433). -/
def cellsForHost (q n : Nat) (s : State) : List Bytes × State := pollCells q n (none, 0) (hostConsumes q s)

section

variable {s : State} {q : Nat} {x : Queue} (hx : queue? s q = some x)

include hx

theorem cellsForHost_quiet (n : Nat) (h : poolQuiet s q) :
    (cellsForHost q n s).1.length ≤ n ∧ ∀ k, k ≠ q → queue? (cellsForHost q n s).2 k = queue? s k := by
  obtain ⟨-, hwaits, hother⟩ := hostConsumes_leaves hx
  obtain ⟨hlen, hkeeps⟩ := pollCells_quiet n (poolQuiet_of_queueWaits h hwaits)
  exact ⟨hlen, fun k hk => (hkeeps k hk).trans (hother k hk)⟩

theorem cellsForHost_empty (n : Nat) (h : x.pkts.length ≤ x.read.1) : (cellsForHost q n s).1 = [] := by
  obtain ⟨⟨d, hd⟩, -⟩ := hostConsumes_leaves hx
  rw [cellsForHost, pollCells_empty n hd (takeable_past_end (x := { x with cdom := d }) h)]

theorem cellsForHost_head {n : Nat} {p : Packet} (hn : 1 ≤ n) (hb : x.broken = false) (hp : x.pkts[x.read.1]? = some p)
    (hread : x.read.2 = 0) : ∃ c, (cellsForHost q n s).1.head? = some c ∧ c.drop 8 = fit 56 (p.bytes.take 56) := by
  obtain ⟨⟨d, hd⟩, -⟩ := hostConsumes_leaves hx
  refine ⟨_, pollCells_head hn hd (takeable_of_head (x := { x with cdom := d }) hb hp) hp, ?_⟩
  simp only [hread]
  exact cellBytes_payload ..

end

section

variable {s : State} {r : Req} {q : BitVec 16} {op cells : Byte} (h : heard s r 0x030f 8 = true) (hq : queueNumberOk q.toNat = true)
  (hon : queueOn s q.toNat = true) (hc1 : 1 ≤ cells.toNat) (hc55 : cells.toNat ≤ 55)

include h hq hon hc1 hc55

theorem exec_queueOp_unattached (ho1 : 1 ≤ op.toNat) (ho4 : op.toNat ≤ 4) (hatt : hostAttached s q.toNat = false) :
    exec (.queueOp r ⟨q, none, 0⟩ op cells) s = .next (answer r 0x030f St.queueRefused 0 [] s) := by
  show execQueueOp r ⟨q, none, 0⟩ op cells s = _
  unfold execQueueOp
  dsimp only
  rw [goust_qcmd h (by simp [hq]; omega) hq hon]
  simp [runCmd, qcmd, icmd, hatt]

variable {x : Queue} (hatt : hostAttached s q.toNat = true) (hx : queue? s q.toNat = some x)

include hatt hx

/-- QUEUE_OP of an attached queue carries out its operation. -/
theorem exec_queueOp (ho1 : 1 ≤ op.toNat) (ho4 : op.toNat ≤ 4) : exec (.queueOp r ⟨q, none, 0⟩ op cells) s =
    .next (match op.toNat with
      | 1 => answer r 0x030f St.ok 0 (queueOpBody (cellsForHost q.toNat cells.toNat s).1) (flowControl (cellsForHost q.toNat cells.toNat s).2)
      | 2 => answer r 0x030f St.ok 0 (queueOpBody []) (markOp q.toNat s)
      | 3 => (rewindOp q.toNat s).elim (answer r 0x030f St.queueRefused 0 [] s) (answer r 0x030f St.ok 0 (queueOpBody []))
      | _ => answer r 0x030f St.ok 0 (queueOpBody []) (flowControl (releaseOp q.toNat s))) := by
  have hrun : (!hostAttached s q.toNat || (queue? s q.toNat).isNone) = false := by simp [hatt, hx]
  show execQueueOp r ⟨q, none, 0⟩ op cells s = _
  unfold execQueueOp
  dsimp only
  rw [goust_qcmd h (by simp [hq]; omega) hq hon]
  simp only [runCmd, qcmd, icmd, hrun, Bool.false_eq_true, if_false]
  obtain ho | ho | ho | ho : op.toNat = 1 ∨ op.toNat = 2 ∨ op.toNat = 3 ∨ op.toNat = 4 := by omega
  case inr.inr.inl =>
    rw [ho]
    cases rewindOp q.toNat s <;> rfl
  all_goals rw [ho]; rfl

end

/-! ### The statement -/

/-- Settles O21: each operation by what it finds at QD_READ, and QUEUE_OP through the same operations. -/
theorem queueOperations : Obligations.QueueOperations := by
  unfold Obligations.QueueOperations
  refine ⟨?mark, ?rewind, ?rewindNoMark, ?release, ?take, ?empty, ?commit, ?wait, ?tooLong, ?host, ?unattached⟩
  case mark =>
    intro s q x hx
    exact ⟨_, _, exec_mark hx, queue?_setQueue_same .., rfl, fun k hk => queue?_setQueue_other _ _ _ _ hk⟩
  case rewind =>
    intro s q x m hx hm
    exact ⟨_, exec_rewind_mark hx hm, queue?_setQueue_same .., rfl, fun k hk => queue?_setQueue_other _ _ _ _ hk⟩
  case rewindNoMark =>
    intro s q x hx hm
    show Host.Outcome.next ((rewindOp q.toNat s).getD s) = _
    rw [rewindOp_noMark hx hm, Option.getD_none]
  case release =>
    intro s q x hx
    exact ⟨_, _, exec_release hx, queue?_setQueue_same .., rfl, by simp [freePackets], rfl, rfl, rfl,
      fun hquiet => wakeQueue_quiet hquiet, fun k hk => queue?_setQueue_other _ _ _ _ hk⟩
  case take =>
    intro s q x p unit hx hb hp hcells hread hm ha
    have ht := takeable_of_head hb hp
    have hpast : pastCell p x = freePackets (x.read.1 + 1) { x with read := (x.read.1 + 1, 0) } := by simp [pastCell, hcells, hm, ha]
    refine ⟨_, exec_takePoll_head hx ht hp, exec_takeWait_head hx ht hp unit, fun hquiet => wakeQueue_quiet hquiet, rfl,
      ⟨_, queue?_setQueue_same .., ?_⟩, fun k hk => queue?_setQueue_other _ _ _ _ hk⟩
    simp [hpast, freePackets]
  case empty =>
    intro s q x unit hx hempty
    have ht := takeable_past_end hempty
    obtain ⟨e, he, hnum, hunit, -⟩ := queueWait_registers q.toNat ⟨unit, 0, 0, .unit⟩ s
    exact ⟨exec_takePoll_empty hx ht, _, exec_takeWait_empty hx unit ht, ⟨e, he, hnum, hunit⟩, (queueWait_does ..).eq_mix⟩
  case commit =>
    intro s q x unit bs hx hb hfit hroom
    exact ⟨_, _, _, exec_packetCommit_room hx unit hfit hroom, pickCells_length _ _ _, ⟨_, queue?_setQueue_same .., rfl, rfl, rfl⟩,
      fun k hk => queue?_setQueue_other _ _ _ _ hk⟩
  case wait =>
    intro s q x unit bs hx hfit hroom
    exact ⟨_, exec_packetCommit_full hx unit hfit hroom, queueWait_registers .., (queueWait_does ..).eq_mix⟩
  case tooLong => exact fun s q x unit bs hx hlong => exec_packetCommit_tooLong hx unit hlong
  case host =>
    intro s r q op cells x h hq hon ho1 ho4 hc1 hc55 hatt hx
    have hexec := exec_queueOp h hq hon hc1 hc55 hatt hx ho1 ho4
    refine ⟨?mark, ?rewind, ?release, ?take⟩
    case mark => rintro rfl; exact hexec
    case rewind =>
      rintro rfl hm
      exact hexec.trans (by rw [rewindOp_noMark hx hm]; rfl)
    case release => rintro rfl; exact hexec
    case take =>
      rintro rfl hquiet
      obtain ⟨hlen, hother⟩ := cellsForHost_quiet hx cells.toNat hquiet
      refine ⟨_, _, hexec, hlen, hother, cellsForHost_empty hx _, fun p hb hp hread => ?_⟩
      obtain ⟨c, hc, hbytes⟩ := cellsForHost_head hx hc1 hb hp hread
      refine ⟨fun hnil => by simp [hnil] at hc, fun c' hc' => ?_⟩
      obtain rfl := Option.some.inj (hc'.symm.trans hc)
      exact hbytes
  case unattached => exact fun s r q op cells h hq hon ho1 ho4 hc1 hc55 hatt => exec_queueOp_unattached h hq hon hc1 hc55 ho1 ho4 hatt

end Sys2Proof.Machine
end

section
/-! SUPPORT. The signal commands by what they find, and the cells that SIGNAL_ALLOC hands to the session (R374, R380, R383, Table 11-7). -/

namespace Sys2Proof.Machine

/-- A flag of a byte, read as a number or as the byte. -/
theorem toNat_beq_one (b : Byte) : (b.toNat == 1) = (b == 1) := by
  rw [Bool.eq_iff_iff, beq_iff_eq, beq_iff_eq, ← BitVec.toNat_inj]
  rfl

/-! ### SIGNAL_ALLOC (R374) -/

/-- A run found lies on its die, and nothing holds its cells. -/
theorem freeRun_spec {s : State} {die n f : Nat} (hn : n ≤ 4096) (h : freeRun s die n = some f) :
    die * 4096 ≤ f ∧ f + n ≤ (die + 1) * 4096 ∧ ∀ k, k < n → cellHeld s (f + k) = false := by
  obtain ⟨i, hi, hrun⟩ := List.exists_of_findSome?_eq_some h
  obtain ⟨hfree, hat⟩ := Option.ite_none_right_eq_some.1 hrun
  obtain rfl := Option.some.inj hat
  have hi' := List.mem_range.1 hi
  exact ⟨by omega, by omega, fun k hk => by simpa using List.all_eq_true.1 hfree k (List.mem_range.2 hk)⟩

/-- The `n` cells from `f` on at their binding values, held by the session. -/
def sessionCells (f n : Nat) (s : State) : State := (List.range n).foldl (fun s k => setCell (f + k) sessionCell s) s

theorem sessionCells_succ (f n : Nat) (s : State) : sessionCells f (n + 1) s = setCell (f + n) sessionCell (sessionCells f n s) := by
  simp [sessionCells, List.range_succ]

theorem sessionCells_does (f n : Nat) (s : State) : Does [.cells] s (sessionCells f n s) :=
  .foldl _ (fun _ _ => setCell_does ..) (.refl s)

theorem cell_sessionCells_inside {f n k : Nat} (s : State) (h : k < n) : cell (sessionCells f n s) (f + k) = sessionCell := by
  induction n with
  | zero => exact absurd h (Nat.not_lt_zero _)
  | succ n ih =>
    rw [sessionCells_succ]
    by_cases hk : k = n
    · rw [hk, cell_setCell_same]
    · rw [cell_setCell_other _ _ _ _ (by omega)]
      exact ih (by omega)

theorem cell_sessionCells_outside {f n c : Nat} (s : State) (h : c < f ∨ f + n ≤ c) : cell (sessionCells f n s) c = cell s c := by
  induction n with
  | zero => rfl
  | succ n ih =>
    rw [sessionCells_succ, cell_setCell_other _ _ _ _ (by omega)]
    exact ih (by omega)

theorem exec_signalAlloc {s : State} {r : Req} {n : BitVec 16} {die : Byte} {f : Nat} (h : heard s r 0x0311 8 = true)
    (hd : die.toNat ≤ 3) (hx : isExcluded s (signalsUid die.toNat) = false) (hn : n.toNat ≤ 4096)
    (hf : freeRun s die.toNat n.toNat = some f) :
    exec (.signalAlloc r n die) s = .next (answer r 0x0311 St.ok 0 (payload [.num 2 f]) (sessionCells f n.toNat s)) := by
  show execSignalAlloc r n die s = _
  unfold execSignalAlloc
  rw [goust_icmd h (by simpa using hd)]
  simp only [runCmd, icmd, hx, hn, hf, Bool.false_eq_true, if_false, if_true]
  rfl

/-! ### SIGNAL_SET, SIGNAL_ADD and SIGNAL_READ (R374, R380) -/

section

variable {s : State} {r : Req} {c : BitVec 16} (hc : c.toNat < 16384)

include hc

theorem cellNumberBad_none : ∀ e ∈ [(0, decide (16384 ≤ c.toNat))], e.2 = false := by simpa using hc

section

variable {value min max wdog : BitVec 32} {toHost : Byte} (h : heard s r 0x0312 24 = true) (hmin : min.sle value = true)
  (hmax : value.sle max = true) (hhost : toHost.toNat ≤ 1) (hheld : cellHeld s c.toNat = true)

include h hmin hmax hhost hheld

theorem exec_signalSet : exec (.signalSet r c value min max wdog toHost) s =
    .next (if (cellPlan s c.toNat).any fun p => p.state != .loaded then answer r 0x0312 St.planState 0 [] s
      else answer r 0x0312 St.ok 0 [] (noteReserves (releaseAll c.toNat (setCell c.toNat
        { cell s c.toNat with value := value, min := min, max := max, wdog := wdog, toHost := toHost == 1 } s)))) := by
  show execSignalSet r c value min max wdog toHost s = _
  unfold execSignalSet
  rw [goust_icmd h (by simp [hmin, hmax]; omega)]
  simp only [runCmd, icmd, hheld, toNat_beq_one, Bool.not_true, Bool.false_eq_true, if_false]
  cases (cellPlan s c.toNat).any fun p => p.state != .loaded <;> rfl

end

theorem exec_signalAdd {n : BitVec 32} (h : heard s r 0x0313 8 = true) : exec (.signalAdd r c n) s =
    .next (if cellHeld s c.toNat then answer r 0x0313 St.ok 0 [] (signalAdd c.toNat n.toInt s)
      else answer r 0x0313 St.cellRefused 0 [] s) := by
  show execSignalAdd r c n s = _
  unfold execSignalAdd
  rw [goust_icmd h (cellNumberBad_none hc)]
  cases hheld : cellHeld s c.toNat <;> simp [runCmd, icmd, hheld]

theorem exec_signalRead (h : heard s r 0x0314 8 = true) :
    exec (.signalRead r c) s = .next (answer r 0x0314 St.ok 0 (le 32 (cellImage (cell s c.toNat)).toNat) s) := by
  show execSignalRead r c s = _
  unfold execSignalRead
  rw [goust_icmd h (cellNumberBad_none hc)]
  simp only [runCmd, icmd]

end

/-- Each field of Table 11-7 reads as the cell's own. -/
theorem cellImage_fields (x : SigCell) :
    fld 9 9 (cellImage x).toNat = b2n x.overflow ∧ fld 10 10 (cellImage x).toNat = b2n x.underflow ∧
    fld 11 11 (cellImage x).toNat = b2n x.toHost ∧ fld 47 40 (cellImage x).toNat = x.plan.toNat ∧
    fld 63 48 (cellImage x).toNat = x.waiters.length % 2 ^ 16 ∧ fld 95 64 (cellImage x).toNat = x.min.toNat ∧
    fld 127 96 (cellImage x).toNat = x.max.toNat ∧ fld 159 128 (cellImage x).toNat = x.value.toNat ∧
    fld 191 160 (cellImage x).toNat = x.wdog.toNat ∧ fld 255 192 (cellImage x).toNat = x.adds.toNat := by
  unfold cellImage
  simp (disch := decide) only [fld_toNat_ofNat, fld_pack_high, fld_pack_low, Nat.reduceSub, BitVec.toNat_mod_cancel, b2n_mod_two, and_self]

/-! ### REMOTE_DISCARD (R383) -/

section

variable {s : State} {r : Req} {source : BitVec 16} {ext : Byte} {stream : BitVec 16} {pos : BitVec 64} (h : heard s r 0x0315 16 = true)
  (hsource : source.toNat < 1024) (hext : ext.toNat ≤ 1) (hpos : pos.toNat < 2 ^ 48)

include h hsource hext hpos

/-- REMOTE_DISCARD drops the oldest signal held under its source, stream and position. -/
theorem exec_remoteDiscard {o : Option RemoteSignal}
    (ho : s.remote.find? (remoteIs source.toNat (ext == 1) stream.toNat pos.toNat) = o) : exec (.remoteDiscard r source ext stream pos) s =
      .next (o.elim (answer r 0x0315 St.notHeld 0 [] s)
        fun x => answer r 0x0315 St.ok 0 [] (admitRemotes { s with remote := s.remote.erase x })) := by
  show execRemoteDiscard r source ext stream pos s = _
  unfold execRemoteDiscard
  rw [goust_icmd h (by simp; omega)]
  simp only [runCmd, icmd, toNat_beq_one, ho]
  cases o <;> rfl

end

/-! ### The statement -/

/-- Settles O22: each command by whether the cell it names is held, and by whom. -/
theorem signalCommands : Obligations.SignalCommands := by
  unfold Obligations.SignalCommands
  refine ⟨?alloc, ?set, ?setBound, ?add, ?addFree, ?read, ?discard, ?notHeld⟩
  case alloc =>
    intro s r n die f h hd hx hn hf
    obtain ⟨hlo, hhi, hfree⟩ := freeRun_spec hn hf
    exact ⟨_, exec_signalAlloc h hd hx hn hf, fun k hk => ⟨hfree k hk, cell_sessionCells_inside s hk⟩,
      fun c hc => cell_sessionCells_outside s hc, hlo, hhi, (sessionCells_does ..).eq_mix⟩
  case set =>
    intro s r c value min max wdog toHost h hc hmin hmax hhost hheld hp
    have hstate : ((cellPlan s c.toNat).any fun p => p.state != .loaded) = false := by
      cases hcp : cellPlan s c.toNat with
      | none => rfl
      | some p => simp [hp p hcp]
    have hexec := exec_signalSet (wdog := wdog) hc h hmin hmax hhost hheld
    rw [hstate] at hexec
    exact ⟨_, hexec, cell_setCell_same .., fun k hk => cell_setCell_other _ _ _ _ hk, rfl⟩
  case setBound =>
    intro s r c value min max wdog toHost p h hc hmin hmax hhost hheld hcp hp
    rw [exec_signalSet hc h hmin hmax hhost hheld, if_pos (by simp [hcp, hp])]
  case add => exact fun s r c n h hc hheld => (exec_signalAdd hc h).trans (by rw [hheld]; rfl)
  case addFree => exact fun s r c n h hc hheld => (exec_signalAdd hc h).trans (by rw [hheld]; rfl)
  case read => exact fun s r c h hc => ⟨_, exec_signalRead hc h, cellImage_fields _⟩
  case discard => exact fun s r source ext stream pos x h hs he hp hx => exec_remoteDiscard h hs he hp hx
  case notHeld => exact fun s r source ext stream pos h hs he hp hx => exec_remoteDiscard h hs he hp hx

end Sys2Proof.Machine
end

section
/-! SUPPORT. Records with no notice cell set: they leave every signal cell and scheduler as it was, and RUL_RESERVE_FULL records with them
(R467, R472, Table 2-10). -/

namespace Sys2Proof.Machine

theorem cell_of_cells {s t : State} (h : t.cells = s.cells) (n : Nat) : cell t n = cell s n := by rw [cell, h, ← cell]

/-- What does not touch the cells leaves each as it was. -/
theorem cell_of_does {T : List Part} {s t : State} (h : Does T s t) (hT : Part.cells ∉ T) (n : Nat) : cell t n = cell s n :=
  cell_of_cells (h.frame .cells hT) n

/-! ### One record (R465 to R472) -/

@[simp] theorem writeDva_blot (s : State) (dva : Nat) (bs : Bytes) : (writeDva s dva bs).blot = s.blot :=
  (writeDva_does ..).frame .blot (by decide)

@[simp] theorem writeRec_notice (r : BitVec 256) (s : State) : (writeRec r s).blot.notice = s.blot.notice := by
  unfold writeRec
  split
  · simp only [writeDva_blot]
  · rfl

@[simp] theorem writeRec_written (r : BitVec 256) (s : State) : (writeRec r s).blot.written = s.blot.written + 1 := by
  unfold writeRec
  split
  · simp only [writeDva_blot]
  · rfl

/-- Of the Blotter, an error record changes what writing it changes. -/
theorem emitOne_blot (e : ErrRec) (s : State) : ∃ r, (emitOne e s).blot = (writeRec r s).blot := by
  have hadd : ∀ r, (noticeAdd (writeRec r s)).blot = (writeRec r s).blot := fun r => (noticeAdd_does ..).frame .blot (by decide)
  unfold emitOne
  dsimp only
  split
  · exact ⟨_, ((noteTest_does ..).frame .blot (by decide)).trans (hadd _)⟩
  · exact ⟨_, hadd _⟩

@[simp] theorem emitOne_notice (e : ErrRec) (s : State) : (emitOne e s).blot.notice = s.blot.notice := by
  obtain ⟨r, hr⟩ := emitOne_blot e s
  rw [hr, writeRec_notice]

@[simp] theorem emitOne_written (e : ErrRec) (s : State) : (emitOne e s).blot.written = s.blot.written + 1 := by
  obtain ⟨r, hr⟩ := emitOne_blot e s
  rw [hr, writeRec_written]

theorem noticeAdd_unset {s : State} (h : s.blot.notice = none) : noticeAdd s = s := by
  unfold noticeAdd
  simp only [h]

/-- With no notice cell set, an error record touches records, self-tests and the ring's memory only. -/
theorem emitOne_unnoticed (e : ErrRec) {s : State} (h : s.blot.notice = none) : Does [.blot, .tests, .mem, .pages] s (emitOne e s) := by
  unfold emitOne
  dsimp only
  rw [noticeAdd_unset ((writeRec_notice ..).trans h)]
  exact .ite (fun _ => .next (noteTest_does ..) (by decide) (.mono (writeRec_does ..) (by decide)))
    (fun _ => .mono (writeRec_does ..) (by decide))

/-! ### The releases that wait unreported (Table 2-10) -/

theorem unnoted_of_sched {s t : State} (h : t.sched = s.sched) : unnoted t = unnoted s := by rw [unnoted, h, ← unnoted]

theorem noteReserves_noted {s : State} (h : unnoted s = none) : noteReserves s = s := by simp [noteReserves, h]

@[simp] theorem noteReserve_notice (n : Nat) (s : State) : (noteReserve n s).blot.notice = s.blot.notice := by
  induction n generalizing s with
  | zero => rfl
  | succ n ih =>
    unfold noteReserve
    split
    · rfl
    · exact (ih _).trans (emitOne_notice ..)

@[simp] theorem noteReserves_notice (s : State) : (noteReserves s).blot.notice = s.blot.notice := by
  unfold noteReserves
  split
  · rfl
  · exact noteReserve_notice ..

@[simp] theorem emitErr_notice (e : ErrRec) (s : State) : (emitErr e s).blot.notice = s.blot.notice :=
  (noteReserves_notice _).trans (emitOne_notice ..)

theorem noteReserve_unnoticed (n : Nat) {s : State} (h : s.blot.notice = none) :
    Does [.blot, .tests, .mem, .pages, .sched] s (noteReserve n s) := by
  induction n generalizing s with
  | zero => exact .refl s
  | succ n ih =>
    unfold noteReserve
    split
    · exact .refl s
    · refine .trans ?_ (ih ((emitOne_notice ..).trans h))
      exact .next (emitOne_unnoticed _ h) (by decide) (.mono (setCluster_does ..) (by decide))

theorem noteReserves_unnoticed {s : State} (h : s.blot.notice = none) : Does [.blot, .tests, .mem, .pages, .sched] s (noteReserves s) :=
  .ite (fun _ => .refl s) (fun _ => noteReserve_unnoticed _ h)

theorem emitErr_unnoticed (e : ErrRec) {s : State} (h : s.blot.notice = none) :
    Does [.blot, .tests, .mem, .pages, .sched] s (emitErr e s) :=
  ((emitOne_unnoticed e h).mono (by decide)).trans (noteReserves_unnoticed ((emitOne_notice ..).trans h))

/-- With no notice cell set and no release that waits unreported, a record gives rise to no other. -/
theorem emitErr_eq_emitOne (e : ErrRec) {s : State} (h : s.blot.notice = none) (hu : unnoted s = none) : emitErr e s = emitOne e s :=
  noteReserves_noted ((unnoted_of_sched ((emitOne_unnoticed e h).frame .sched (by decide))).trans hu)

end Sys2Proof.Machine
end

section
/-! SUPPORT. The signal events: adds on a cell no unit waits on, held remote signals, and waits that run out (R375, R376, R378, R382, R383). -/

namespace Sys2Proof.Machine

/-! ### Adds (R375, R376) -/

/-- The value an add leaves is the saturated sum, as it stands within the cell's bounds. -/
theorem addCell_value {c : SigCell} (n : Int) (h : c.min.toInt ≤ c.max.toInt) :
    (addCell c n).value.toInt = max c.min.toInt (min c.max.toInt (c.value.toInt + n)) := by
  have hlo : -2 ^ 31 ≤ c.min.toInt := c.min.le_toInt
  have hhi : c.max.toInt < 2 ^ 31 := c.max.toInt_lt
  exact BitVec.toInt_ofInt_eq_self (by decide) (by unfold addedValue; omega) (by unfold addedValue; omega)

theorem addCell_overflow (c : SigCell) (n : Int) :
    (addCell c n).overflow = true ↔ c.overflow = true ∨ c.max.toInt < c.value.toInt + n := by
  have hpos : addExcess c n > 0 ↔ c.max.toInt < c.value.toInt + n := by
    unfold addExcess
    dsimp only
    split
    · omega
    · split <;> omega
  simp [addCell, hpos]

theorem addCell_underflow {c : SigCell} (n : Int) (h : c.min.toInt ≤ c.max.toInt) :
    (addCell c n).underflow = true ↔ c.underflow = true ∨ c.value.toInt + n < c.min.toInt := by
  have hneg : addExcess c n < 0 ↔ c.value.toInt + n < c.min.toInt := by
    unfold addExcess
    dsimp only
    split
    · omega
    · split <;> omega
  simp [addCell, hneg]

/-- With no unit waiting on a cell, none is released. -/
theorem releaseAll_unwaited {n : Nat} {s : State} (h : (cell s n).waiters = []) : releaseAll n s = s := by
  unfold releaseAll
  cases (cell s n).waiters.length + s.regHeld.length with
  | zero => rfl
  | succ f => simp only [releaseWaiters, h]

section

variable {n : Nat} {d : Int} {s : State} (hw : (cell s n).waiters = [])

include hw

/-- An add on a cell no unit waits on is the add and, where the cell reports to the host, its host signal. -/
theorem addRaw_unwaited : addRaw n d s =
    if (cell s n).toHost then
      mergeHostSignal false n ((addCell (cell s n) d).value - (cell s n).value) (addCell (cell s n) d).value 0
        (setCell n (addCell (cell s n) d) s)
    else setCell n (addCell (cell s n) d) s := by
  refine releaseAll_unwaited ?_
  split
  · rw [cell_of_does (mergeHostSignal_does ..) (by decide), cell_setCell_same]; exact hw
  · rw [cell_setCell_same]; exact hw

theorem cell_addRaw_unwaited : cell (addRaw n d s) n = addCell (cell s n) d := by
  rw [addRaw_unwaited hw]
  split
  · rw [cell_of_does (mergeHostSignal_does ..) (by decide), cell_setCell_same]
  · rw [cell_setCell_same]

/-- With no notice cell set, the records of an add leave the cell as the add did. -/
theorem cell_signalAdd_unwaited (hn : s.blot.notice = none) : cell (signalAdd n d s) n = addCell (cell s n) d := by
  have hraw : (addRaw n d s).blot.notice = none := (congrArg Blotter.notice ((addRaw_does ..).frame .blot (by decide))).trans hn
  have hnote := noteReserves_unnoticed hraw
  have hnoted : cell (noteReserves (addRaw n d s)) n = addCell (cell s n) d :=
    (cell_of_does hnote (by decide) n).trans (cell_addRaw_unwaited hw)
  have hquiet : (noteReserves (addRaw n d s)).blot.notice = none := (noteReserves_notice _).trans hraw
  unfold signalAdd
  dsimp only
  split
  · exact hnoted
  · exact (cell_of_does (emitErr_unnoticed _ hquiet) (by decide) n).trans hnoted

/-- An add within the bounds of a cell that does not report to the host changes the cell alone, but for what it finds unreported. -/
theorem signalAdd_within (hin : addExcess (cell s n) d = 0) (hhost : (cell s n).toHost = false) :
    signalAdd n d s = noteReserves (setCell n (addCell (cell s n) d) s) := by
  simp [signalAdd, hin, addRaw_unwaited hw, hhost]

end

/-! ### Held remote signals (R382, R383) -/

/-- Whether a signal held under a source, stream and position is due is a matter of those. -/
theorem remoteDue_of_find {source : BitVec 10} {ext : Bool} {stream : BitVec 16} {pos : BitVec 48} {s : State} {x : RemoteSignal}
    (h : s.remote.find? (remoteIs source.toNat ext stream.toNat pos.toNat) = some x) :
    remoteDue s x = serialReached (committedOf s source.toNat ext stream.toNat) pos := by
  have his := List.find?_some h
  simp only [remoteIs, Bool.and_eq_true, beq_iff_eq] at his
  obtain ⟨⟨⟨hsource, hext⟩, hstream⟩, hpos⟩ := his
  rw [remoteDue, hsource, hext, hstream, hpos, BitVec.ofNat_toNat, BitVec.setWidth_eq]

theorem exec_remoteSignalApplied_due {source : BitVec 10} {ext : Bool} {stream : BitVec 16} {pos : BitVec 48} {s : State} {x : RemoteSignal}
    (hx : s.remote.find? (remoteIs source.toNat ext stream.toNat pos.toNat) = some x)
    (hdue : serialReached (committedOf s source.toNat ext stream.toNat) pos = true) :
    exec (.remoteSignalApplied source ext stream pos) s =
      .next (signalAdd x.cell x.n.toInt (admitRemotes { s with remote := s.remote.erase x })) := by
  show execRemoteSignalApplied source ext stream pos s = _
  simp only [execRemoteSignalApplied, hx, remoteDue_of_find hx, hdue, if_true]

theorem exec_remoteSignalApplied_early {source : BitVec 10} {ext : Bool} {stream : BitVec 16} {pos : BitVec 48} {s : State}
    (hearly : serialReached (committedOf s source.toNat ext stream.toNat) pos = false) :
    exec (.remoteSignalApplied source ext stream pos) s = .next s := by
  show execRemoteSignalApplied source ext stream pos s = _
  unfold execRemoteSignalApplied
  split
  · rfl
  · next x hx => rw [remoteDue_of_find hx, hearly]; rfl

/-! ### Waits that run out (R378) -/

theorem watchdog_some {w : BitVec 32} (h : w ≠ 0xffffffff#32) : watchdog w = some (if w = 0 then 19000000 else w.toNat) := by
  simp only [watchdog, if_neg h]
  split <;> rfl

/-- A wait on a queue that runs out is taken off and parked with its record. -/
theorem exec_waitTimeout_queue {num unit : BitVec 16} {s : State} {e : Nat × Waiter} {x : Queue}
    (he : s.queueWaits.find? (fun e => e.1 == num.toNat && e.2.unit == unit) = some e) (hx : queue? s num.toNat = some x)
    (hd : x.wdog ≠ 0xffffffff#32) : exec (.waitTimeout true num unit) s = .next (park true num.toNat e.2
      (advanceTo (e.2.since + if x.wdog = 0 then 19000000 else x.wdog.toNat) { s with queueWaits := s.queueWaits.erase e })) := by
  show execWaitTimeout true num unit s = _
  unfold execWaitTimeout
  simp only [he, hx, Option.bind_some, watchdog_some hd, if_true]

/-- With no notice cell set, parking a wait leaves the cells. -/
theorem park_cells (queue : Bool) (num : Nat) (w : Waiter) {s : State} (h : s.blot.notice = none) :
    (park queue num w s).cells = s.cells :=
  (emitErr_unnoticed _ (s := { s with parked := s.parked ++ [{ waiter := w, queue := queue, num := num }] }) h).frame .cells (by decide)

/-- A cell whose one wait ran out, with the wait parked. -/
def cellParked (n : Nat) (w : Waiter) (at' : Nat) (s : State) : State :=
  park false n w (advanceTo at' (setCell n { cell s n with waiters := [] } s))

/-- The one wait on a cell that runs out is taken off and parked with its record, where no registration is held. -/
theorem exec_waitTimeout_cell {num unit : BitVec 16} {s : State} {w : Waiter} (hw : (cell s num.toNat).waiters = [w]) (hu : w.unit = unit)
    (hd : (cell s num.toNat).wdog ≠ 0xffffffff#32) (hheld : s.regHeld = []) : exec (.waitTimeout false num unit) s =
      .next (noteReserves (releaseAll num.toNat (cellParked num.toNat w
        (w.since + if (cell s num.toNat).wdog = 0 then 19000000 else (cell s num.toNat).wdog.toNat) s))) := by
  have hfind : (cell s num.toNat).waiters.find? (fun w => w.unit == unit) = some w := by simp [hw, hu]
  have herase : (cell s num.toNat).waiters.erase w = [] := by simp [hw]
  have hadmit : ∀ c, admitHeld (num.toNat / 4096) (setCell num.toNat c s) = setCell num.toNat c s := fun c => by
    simp only [admitHeld, setCell_regHeld, hheld, List.length_nil, admitSome]
  show execWaitTimeout false num unit s = _
  unfold execWaitTimeout
  simp only [hfind, watchdog_some hd, herase, hadmit, Bool.false_eq_true, if_false]
  rfl

section

variable (n : Nat) (w : Waiter) (at' : Nat) (s : State)

theorem mem_parked_cellParked : { waiter := w, queue := false, num := n } ∈ (cellParked n w at' s).parked := by
  have hkept : (cellParked n w at' s).parked = s.parked ++ [{ waiter := w, queue := false, num := n }] :=
    (emitErr_does ..).frame .parked (by decide)
  rw [hkept]
  exact List.mem_append_right _ (List.mem_singleton_self _)

variable {s} (hn : s.blot.notice = none)

include hn

theorem cell_cellParked : cell (cellParked n w at' s) n = { cell s n with waiters := [] } := by
  rw [cellParked, cell_of_cells (park_cells _ _ _ (s := advanceTo at' (setCell n { cell s n with waiters := [] } s)) hn)]
  exact cell_setCell_same n _ s

theorem releaseAll_cellParked : releaseAll n (cellParked n w at' s) = cellParked n w at' s :=
  releaseAll_unwaited (by rw [cell_cellParked _ _ _ hn])

theorem notice_cellParked : (cellParked n w at' s).blot.notice = none := (emitErr_notice ..).trans hn

/-- With no release that waits unreported, the parked wait's record is the only one. -/
theorem cellParked_records (hu : unnoted s = none) :
    (cellParked n w at' s).blot.written = s.blot.written + 1 ∧ unnoted (cellParked n w at' s) = none := by
  have hone : ∃ e u, cellParked n w at' s = emitOne e u ∧ u.blot = s.blot ∧ u.sched = s.sched :=
    ⟨_, _, emitErr_eq_emitOne _ hn hu, rfl, rfl⟩
  obtain ⟨e, u, heq, hblot, hsched⟩ := hone
  have hkept : (emitOne e u).sched = u.sched := (emitOne_unnoticed e (hblot ▸ hn)).frame .sched (by decide)
  exact ⟨by rw [heq, emitOne_written, hblot], by rw [heq, unnoted_of_sched (hkept.trans hsched), hu]⟩

end

/-! ### The statement -/

/-- Settles O23: adds through what they leave of the cell, remote signals by whether they are due, and waits that run out through the parked wait. -/
theorem signalEvents : Obligations.SignalEvents := by
  unfold Obligations.SignalEvents
  refine ⟨?add, ?due, ?early, ?held, ?queue, ?cell⟩
  case add =>
    intro s c n unit hw hmin hmax
    have hb : (cell s c.toNat).min.toInt ≤ (cell s c.toNat).max.toInt :=
      Int.le_trans (BitVec.sle_iff_toInt_le.1 hmin) (BitVec.sle_iff_toInt_le.1 hmax)
    refine ⟨_, rfl, fun hn => ?_, fun hin hhost => ?_⟩
    · rw [cell_signalAdd_unwaited hw hn]
      exact ⟨addCell_value _ hb, rfl, rfl, rfl, addCell_overflow .., addCell_underflow _ hb⟩
    · exact ⟨_, signalAdd_within hw hin hhost, rfl, fun k hk => cell_setCell_other _ _ _ _ hk⟩
  case due => exact fun s source ext stream pos x hx hr => exec_remoteSignalApplied_due hx (decide_eq_true hr)
  case early => exact fun s source ext stream pos hr => exec_remoteSignalApplied_early (decide_eq_false (Nat.not_lt.2 hr))
  case held =>
    intro s source ext stream pos x hx
    refine ⟨advanceTo (x.since + 1900001) { s with remote := s.remote.map fun y => if y = x then { x with reported := true } else y },
      ?_, rfl, rfl, List.length_map _, List.mem_map.2 ⟨x, List.mem_of_find?_eq_some hx, if_pos rfl⟩⟩
    show execSigRemoteHeld source ext stream pos s = _
    simp only [execSigRemoteHeld, hx]
  case queue =>
    intro s num unit e x he hx hd
    exact ⟨{ advanceTo (e.2.since + if x.wdog = 0 then 19000000 else x.wdog.toNat) { s with queueWaits := s.queueWaits.erase e } with
      parked := s.parked ++ [{ waiter := e.2, queue := true, num := num.toNat }] }, exec_waitTimeout_queue he hx hd, rfl, rfl⟩
  case cell =>
    intro s num unit w hw hu hd hheld
    refine ⟨_, exec_waitTimeout_cell hw hu hd hheld, ?_, fun hnoted hn => ?_, fun hn => ?_⟩
    · have hkept : ∀ u : State, (noteReserves (releaseAll num.toNat u)).parked = u.parked := fun u =>
        ((noteReserves_does ..).frame .parked (by decide)).trans ((releaseAll_does ..).frame .parked (by decide))
      rw [hkept]
      exact mem_parked_cellParked ..
    · obtain ⟨hwritten, hunnoted⟩ := cellParked_records num.toNat w _ hn hnoted
      rw [releaseAll_cellParked _ _ _ hn, noteReserves_noted hunnoted, hwritten]
    · rw [releaseAll_cellParked _ _ _ hn, cell_of_does (noteReserves_unnoticed (notice_cellParked _ _ _ hn)) (by decide), cell_cellParked _ _ _ hn]
      exact ⟨rfl, rfl⟩

end Sys2Proof.Machine
end

section
/-! SUPPORT. UNIT_EXCLUDE, UNIT_EXCLUDED and UNIT_INCLUDE, and the parked waits that WAIT_RESUME registers again and WAIT_ABORT ends (R378,
R482 to R484). -/

namespace Sys2Proof.Machine

/-! ### UNIT_EXCLUDE (R483) -/

/-- A plan that is there stands in a slot of the list. -/
theorem mem_plans_of_plan? {s : State} {slot : Nat} {p : Plan} (h : plan? s slot = some p) : ∃ e ∈ s.plans, e.1 = slot := by
  obtain ⟨e, hfind, -⟩ := Option.map_eq_some_iff.1 h
  exact ⟨e, List.mem_of_find?_eq_some hfind, by simpa using List.find?_some hfind⟩

/-- An exclusion rebinds no plan that uses none of its units. -/
theorem excludeFrom_unused {s : State} {us : List (BitVec 16)} (h : ∀ e ∈ s.plans, ∀ p, plan? s e.1 = some p → removedIds s us p = [])
    (es : List FitEntry) (per slot : Nat) : excludeFrom us (s, es, per) slot = (s, es, per) := by
  unfold excludeFrom
  split
  · rfl
  · next p hp =>
    obtain ⟨e, he, rfl⟩ := mem_plans_of_plan? hp
    simp only [h e he p hp]

theorem foldl_excludeFrom_unused {s : State} {us : List (BitVec 16)}
    (h : ∀ e ∈ s.plans, ∀ p, plan? s e.1 = some p → removedIds s us p = []) (es : List FitEntry) (per : Nat) (slots : List Nat) :
    slots.foldl (excludeFrom us) (s, es, per) = (s, es, per) := by
  induction slots with
  | nil => rfl
  | cons slot slots ih => rw [List.foldl_cons, excludeFrom_unused h, ih]

section

variable {s : State} {r : Req} {us : List (BitVec 16)} (hlen : us.length ≤ 64)
  (hus : ∀ u ∈ us, unitOk u = true ∧ deviceLevel u = false ∧ (uidCluster u < 12 && (cluster s (uidClusterIndex u)).off) = false)

include hlen hus

theorem unitsBad_none : ∀ e ∈ unitsBad us, e.2 = false := by
  refine List.forall_mem_cons.2 ⟨by simpa using hlen, fun e he => ?_⟩
  obtain ⟨u, hu, rfl⟩ := List.mem_map.1 he
  obtain ⟨-, hdev, -⟩ := hus u.2 (mem_of_mem_offsets hu)
  simp [hdev]

omit hlen in
theorem unitList_powered : ∀ u ∈ unitList us, unitOk u.2 = true ∧ (uidCluster u.2 < 12 && (cluster s (uidClusterIndex u.2)).off) = false := by
  intro u hu
  obtain ⟨hok, -, hon⟩ := hus u.2 (mem_of_mem_offsets hu)
  exact ⟨hok, hon⟩

theorem exec_unitExclude (h : heardP s r 0x0704 (alignUp (8 + 2 * us.length) 8) = true)
    (hunused : ∀ e ∈ s.plans, ∀ p, plan? s e.1 = some p → removedIds s us p = [])
    (hfit : fitCheck { s with excluded := s.excluded ++ us } [] (checkPeriods s) = none) :
    exec (.unitExclude r us) s = .next (acceptCmd r 0x0704 (.exclude us) [] { s with exclusions := s.exclusions ++ [us] }) := by
  have hstay := foldl_excludeFrom_unused hunused [] (period s)
  refine congrArg Host.Outcome.next (Eq.trans (goust_units h (unitsBad_none hlen hus) (unitList_powered hus)) ?_)
  simp [runCmd, hstay, hfit]

/-! ### UNIT_INCLUDE (R484) -/

theorem exec_unitInclude (h : heard s r 0x0705 (alignUp (8 + 2 * us.length) 8) = true) : exec (.unitInclude r us) s =
    .next (answer r 0x0705 St.ok 0 []
      { s with excluded := s.excluded.filter fun x => us.all fun u => !(covers x u || covers u x) }) :=
  congrArg Host.Outcome.next (goust_iunits rfl h (unitsBad_none hlen hus) (unitList_powered hus))

end

/-! ### UNIT_EXCLUDED (R483, R484) -/

/-- A unit out of service, with the device's own self-tests of it gone. -/
def outOfService (unit : BitVec 16) (s : State) : State :=
  { s with excluded := s.excluded ++ [unit], tests := s.tests.filter fun t => t.host || !covers unit t.unit }

/-- A plan holds a unit through one of its bound resources. -/
def unitBound (unit : BitVec 16) (s : State) : Bool := s.plans.any fun e => e.2.bound.any (onUnit s [unit])

/-- What puts UNIT_EXCLUDED off: no tick edge, a tick whose number is not settled, no exclusion that names the unit, the unit out already, or a
plan that holds it. -/
def exclusionOff (unit : BitVec 16) (s : State) : Bool :=
  (s.clk.cycle != s.clk.edge || s.rul.stepDue || !s.exclusions.any (·.contains unit) || s.excluded.contains unit) || unitBound unit s

theorem exclusionOff_iff (unit : BitVec 16) (s : State) : exclusionOff unit s = true ↔
    s.clk.cycle ≠ s.clk.edge ∨ s.rul.stepDue = true ∨ (∀ us ∈ s.exclusions, unit ∉ us) ∨ unit ∈ s.excluded ∨
      ∃ e ∈ s.plans, ∃ b ∈ e.2.bound, onUnit s [unit] b = true := by
  simp only [exclusionOff, unitBound, Bool.or_eq_true, bne_iff_ne, Bool.not_eq_true', List.any_eq_false, List.any_eq_true,
    List.contains_iff_mem, or_assoc]

theorem exec_unitExcluded (unit : BitVec 16) (s : State) : exec (.unitExcluded unit) s =
    .next (if exclusionOff unit s then s
      else finishExclusions (emitErr ⟨10, 5, unit, nowTick s, 0, 0xff, false, false⟩ (outOfService unit s))) := by
  show (if _ then _ else if unitBound unit s = true then _ else _) = _
  unfold exclusionOff
  split
  · next hoff => rw [hoff]; rfl
  · next hoff =>
    rw [Bool.eq_false_iff.2 hoff]
    cases unitBound unit s <;> rfl

/-! ### Parked waits (R378) -/

section

variable {s : State} {r : Req} {unit : BitVec 16} {object : Byte} {num : BitVec 16} (hobj : object.toNat ≤ 1)
  (hnum : object = 0 → num.toNat < 16384) (hunit : unitOk unit = true)
  (hon : (uidCluster unit < 12 && (cluster s (uidClusterIndex unit)).off) = false)

include hobj hnum hunit hon

/-- A heard WAIT_RESUME or WAIT_ABORT works on the first parked wait of its unit on its object, and finds WAIT_STATE where there is none. -/
theorem goust_waitCmd {op : Nat} {body : Parked → State → State} {o : Option Parked} (h : heard s r op 8 = true)
    (ho : s.parked.find? (fun p => p.waiter.unit == unit && p.queue == (object.toNat == 1) && p.num == num.toNat) = o) :
    goust r (waitCmd op unit object num body) s = o.elim (answer r op St.waitState 0 [] s)
      fun p => answer r op St.ok 0 [] (body p { s with parked := s.parked.erase p }) := by
  have hbad : ∀ e ∈ (waitCmd op unit object num body).bad, e.2 = false := by
    simpa [waitCmd, hobj] using hnum
  refine (goust_iunits rfl h hbad (List.forall_mem_singleton.2 ⟨hunit, hon⟩)).trans ?_
  simp only [runCmd, waitCmd, ho]
  cases o <;> rfl

theorem exec_waitResume {o : Option Parked} (h : heard s r 0x0706 8 = true)
    (ho : s.parked.find? (fun p => p.waiter.unit == unit && p.queue == (object.toNat == 1) && p.num == num.toNat) = o) :
    exec (.waitResume r unit object num) s = .next (o.elim (answer r 0x0706 St.waitState 0 [] s)
      fun p => answer r 0x0706 St.ok 0 [] (resumeWait p { s with parked := s.parked.erase p })) :=
  congrArg Host.Outcome.next (goust_waitCmd hobj hnum hunit hon h ho)

theorem exec_waitAbort {o : Option Parked} (h : heard s r 0x0707 8 = true)
    (ho : s.parked.find? (fun p => p.waiter.unit == unit && p.queue == (object.toNat == 1) && p.num == num.toNat) = o) :
    exec (.waitAbort r unit object num) s = .next (o.elim (answer r 0x0707 St.waitState 0 [] s)
      fun p => answer r 0x0707 St.ok 0 [] (abortWait p { s with parked := s.parked.erase p })) :=
  congrArg Host.Outcome.next (goust_waitCmd hobj hnum hunit hon h ho)

end

/-- The wait found is of the unit on the object that the command names. -/
theorem parked_of_find {s : State} {unit : BitVec 16} {queue : Bool} {num : Nat} {p : Parked}
    (h : s.parked.find? (fun p => p.waiter.unit == unit && p.queue == queue && p.num == num) = some p) :
    p.waiter.unit = unit ∧ p.num = num := by
  have his := List.find?_some h
  simp only [Bool.and_eq_true, beq_iff_eq] at his
  exact ⟨his.1.1, his.2⟩

theorem resumeWait_queue {p : Parked} (h : p.queue = true) (s : State) :
    resumeWait p s = wakeQueue p.num (queueWait p.num { p.waiter with since := s.clk.cycle } s) := if_pos h

theorem resumeWait_cell {p : Parked} (h : p.queue = false) (s : State) :
    resumeWait p s = waitOn p.num { p.waiter with since := s.clk.cycle } s := by simp [resumeWait, h]

/-- Where no unit waits on a queue, a new wait stands at the end. -/
theorem queueWait_first {q : Nat} (w : Waiter) {s : State} (h : ∀ e ∈ s.queueWaits, e.1 ≠ q) :
    (queueWait q w s).queueWaits = s.queueWaits ++ [(q, { w with since := s.clk.cycle })] := by
  have hnone : (s.queueWaits.any fun e => e.1 == q && e.2.unit == w.unit && e.2.what == w.what) = false :=
    List.any_eq_false.2 fun e he => by simp [h e he]
  rw [queueWait, hnone]
  rfl

theorem abortWait_ruledTask {p : Parked} {t : Task} (h : p.waiter.what = .task t) (hr : t.ruled = true) (s : State) :
    abortWait p s = listEvent (t.core / 8) t 3 0 s := by
  simp [abortWait, h, hr]

theorem abortWait_marginTask {p : Parked} {t : Task} (h : p.waiter.what = .task t) (hr : t.ruled = false) (s : State) :
    abortWait p s = cancelStreams t (listEvent (t.core / 8) t 3 0 s) := by
  simp [abortWait, h, hr]

theorem abortWait_stream {p : Parked} {slot i : Nat} (h : p.waiter.what = .stream slot i) (s : State) :
    abortWait p s = cancelStream (slot, i) s := by
  simp only [abortWait, waitingStream, h]

/-- Cancelling a stream parks no wait. -/
theorem mem_parked_of_cancelStream {k : Nat × Nat} {s : State} {w : Parked} (h : w ∈ (cancelStream k s).parked) : w ∈ s.parked := by
  cases hx : stream? s k with
  | none => simpa only [cancelStream, hx] using h
  | some x =>
    obtain ⟨y, hy, -⟩ := cancelStream_ends hx
    rw [hy, endedAs_eq] at h
    exact (List.mem_filter.1 h).1

theorem cancelStream_cancels {k : Nat × Nat} {s : State} {x : Stream} (hx : stream? s k = some x) :
    ∃ y, stream? (cancelStream k s) k = some y ∧ y.state = .cancelled := by
  obtain ⟨y, hy, hstate, -⟩ := cancelStream_ends hx
  exact ⟨y, by rw [hy, stream?_endedAs_same], hstate⟩

/-! ### The statement -/

/-- Settles O33: exclusions by the plans that hold their units, parked waits by what waited. -/
theorem unitAndWaitCommands : Obligations.UnitAndWaitCommands := by
  unfold Obligations.UnitAndWaitCommands
  refine ⟨?exclude, ?excluded, ?off, ?included, ?parked, ?absent⟩
  case exclude => exact fun s r us h hlen hus hunused hfit => exec_unitExclude hlen hus h hunused hfit
  case excluded =>
    intro s unit us hedge hdue hus hu hin hfree
    have hdoes : ¬ exclusionOff unit s = true := by
      rw [exclusionOff_iff]
      rintro (h | h | h | h | ⟨e, he, b, hb, h⟩)
      · exact h hedge
      · simp [hdue] at h
      · exact h us hus hu
      · exact hin h
      · simp [hfree e he b hb] at h
    refine ⟨outOfService unit s, by rw [exec_unitExcluded, if_neg hdoes], rfl, rfl, fun t ht => ?_⟩
    obtain ⟨hmem, hkept⟩ := List.mem_filter.1 ht
    exact ⟨hmem, by simpa using hkept⟩
  case off =>
    intro s unit h
    rw [exec_unitExcluded, if_pos ((exclusionOff_iff ..).2 h)]
  case included =>
    intro s r us h hlen hus
    exact ⟨_, exec_unitInclude hlen hus h, rfl, fun x => by simp [List.mem_filter]⟩
  case parked =>
    intro s r unit object num p hobj hnum hunit hon hp
    obtain ⟨hpu, hpn⟩ := parked_of_find hp
    refine ⟨?queue, ?cell, ?task, ?stream⟩
    case queue =>
      intro h hq
      have hexec := exec_waitResume hobj hnum hunit hon h hp
      rw [Option.elim_some, resumeWait_queue hq, hpn] at hexec
      obtain ⟨e, he, hnum', hunit', hwhat⟩ := queueWait_registers num.toNat { p.waiter with since := s.clk.cycle }
        { s with parked := s.parked.erase p }
      exact ⟨_, hexec, (queueWait_does ..).eq_mix, ⟨e, he, hnum', hunit'.trans hpu, hwhat⟩, fun hfirst => queueWait_first _ hfirst⟩
    case cell =>
      intro h hq
      rw [exec_waitResume hobj hnum hunit hon h hp, Option.elim_some, resumeWait_cell hq, hpn]
    case task =>
      intro h t ht
      have hexec := exec_waitAbort hobj hnum hunit hon h hp
      rw [Option.elim_some] at hexec
      exact ⟨listEvent (t.core / 8) t 3 0 { s with parked := s.parked.erase p }, fun hr => by rw [hexec, abortWait_ruledTask ht hr],
        fun hr => by rw [hexec, abortWait_marginTask ht hr], (listEvent_does ..).eq_mix, cluster_listEvent_seq .., cluster_listEvent_ready ..⟩
    case stream =>
      intro h slot i hw
      have hexec := exec_waitAbort hobj hnum hunit hon h hp
      rw [Option.elim_some, abortWait_stream hw] at hexec
      exact ⟨_, hexec, fun w hm => mem_parked_of_cancelStream hm, (cancelStream_does ..).frame .plans (by decide),
        (cancelStream_does ..).frame .mem (by decide), fun x hx => cancelStream_cancels hx⟩
  case absent =>
    intro s r unit object num hobj hnum hunit hon hp
    exact ⟨fun h => exec_waitResume hobj hnum hunit hon h hp, fun h => exec_waitAbort hobj hnum hunit hon h hp⟩

end Sys2Proof.Machine
end

section
/-! SUPPORT. PORT_SET, PORT_READ, DEVICE_NUMBER_SET and NEIGHBOUR_SET by what they find, and the neighbour table that a run of entries
leaves (R386 to R388, R414, Table 12-2). -/

namespace Sys2Proof.Machine

/-! ### PORT_SET (R414, Table 12-2) -/

/-- PORT_SET is refused for a port that does not exist, and for a change of PORT_EN or PORT_SPLIT of a port that a plan holds a share of. -/
theorem portRefuses_iff {s : State} {p v : Nat} : portRefuses s p v = true ↔
    portExists s p = false ∨ portHeld s p = true ∧
      (bitAt v 0 ≠ bitAt (port s p).live.toNat 0 ∨ bitAt v 1 ≠ bitAt (port s p).live.toNat 1) := by
  simp only [portRefuses, Bool.or_eq_true, Bool.and_eq_true, Bool.not_eq_true', bne_iff_ne]
  rw [and_comm]

section

variable {s : State} {r : Req} {p : Byte}

section

variable {cfg : BitVec 64} {ip : Bytes} (h : heard s r 0x0901 32 = true) (hp : p.toNat ≤ 3) (hlow : fld 10 2 cfg.toNat = 0)
  (hmid : fld 35 34 cfg.toNat = 0) (hvlan : fld 47 36 cfg.toNat ≠ 4095) (hsplit : p.toNat % 2 = 1 → bitAt cfg.toNat 1 = false)
  (hip : ip.length = 16) (hfamily : bitAt cfg.toNat 33 = true ∨ ∀ b ∈ ip.drop 4, b = 0)

include hp hlow hmid hvlan hsplit hip hfamily

/-- A configuration with its reserved bits 0 and the address of its family names no field as bad. -/
theorem portSetBad_none : ∀ e ∈ portSetBad p.toNat cfg.toNat ip, e.2 = false := by
  have hport : (p.toNat % 2 == 1 && bitAt cfg.toNat 1) = false := by
    rw [Bool.and_eq_false_imp]
    exact fun hodd => hsplit (by simpa using hodd)
  have haddr : bitAt cfg.toNat 33 = false → ∀ b ∈ ip.drop 4, b = 0 := fun h4 => hfamily.resolve_left (by simp [h4])
  simpa [portSetBad, hlow, hmid, hvlan, hip, hport, hp] using haddr

include h

theorem exec_portSet : exec (.portSet r p cfg ip) s = .next (if portRefuses s p.toNat cfg.toNat then answer r 0x0901 St.portRefused 0 [] s
    else answer r 0x0901 St.ok 0 [] (flowControl (setPort p.toNat { port s p.toNat with cfg := cfg, ip := ip } s))) := by
  show execPortSet r p cfg ip s = _
  unfold execPortSet
  rw [goust_icmd h (portSetBad_none hp hlow hmid hvlan hsplit hip hfamily)]
  cases hno : portRefuses s p.toNat cfg.toNat <;> simp [runCmd, icmd, hno, writePort]

end

/-! ### PORT_READ and DEVICE_NUMBER_SET (R388, R414) -/

theorem exec_portRead (h : heard s r 0x0902 8 = true) (hp : p.toNat ≤ 3) : exec (.portRead r p) s =
    .next (answer r 0x0902 St.ok 0 (payload [.num 8 (port s p.toNat).cfg.toNat, .num 1 (b2n (portCarries s p.toNat)),
      .elems ((port s p.toNat).drops.map fun d => le 8 d.toNat)]) s) := by
  show execPortRead r p s = _
  unfold execPortRead
  rw [goust_icmd h (by simpa using hp)]
  rfl

end

/-- DEVICE_NUMBER_SET is carried out while the slots hold no plan. -/
theorem exec_deviceNumberSet {s : State} {r : Req} {n : BitVec 16} (h : heard s r 0x0903 8 = true) (hn : n.toNat ≤ 1023) :
    exec (.deviceNumberSet r n) s = .next (if s.plans = [] then answer r 0x0903 St.ok 0 [] { s with deviceNumber := BitVec.ofNat 10 n.toNat }
      else answer r 0x0903 St.portRefused 0 [] s) := by
  show execDeviceNumberSet r n s = _
  unfold execDeviceNumberSet
  rw [goust_icmd h (by simpa using hn)]
  by_cases hs : s.plans = [] <;> simp [runCmd, icmd, hs]

/-! ### NEIGHBOUR_SET (R387, R414) -/

/-- An entry as the table keeps it. -/
def keptNeighbour (e : NeighbourEntry) : Neighbour := ⟨BitVec.ofNat 48 e.mac.toNat, fit 16 e.ip, e.port⟩

/-- One more entry written is one more neighbour after the others. -/
theorem writeNeighbours_concat (first : Nat) (es : List NeighbourEntry) (e : NeighbourEntry) (s : State) :
    (writeNeighbours first (es ++ [e]) s).neighbours = put (first + es.length) (keptNeighbour e) (writeNeighbours first es s).neighbours := by
  have hzip : (List.range (es ++ [e]).length).zip (es ++ [e]) = (List.range es.length).zip es ++ [(es.length, e)] := by
    rw [List.length_append, List.length_singleton, List.range_succ, List.zip_append (by simp)]
    rfl
  unfold writeNeighbours
  rw [hzip, List.foldl_append]
  rfl

theorem neighbour_writeNeighbours_same {first i : Nat} {es : List NeighbourEntry} {e : NeighbourEntry} (s : State) (h : es[i]? = some e) :
    neighbour (writeNeighbours first es s) (first + i) = keptNeighbour e := by
  obtain ⟨rs, rfl⟩ : ∃ rs, es = rs.reverse := ⟨es.reverse, (List.reverse_reverse es).symm⟩
  induction rs with
  | nil => simp at h
  | cons x rs ih =>
    rw [List.reverse_cons] at h ⊢
    rw [neighbour, writeNeighbours_concat]
    by_cases hi : i = rs.reverse.length
    · subst hi
      obtain rfl : x = e := by simpa using h
      rw [look_put_same, Option.getD_some]
    · have hlt : i < rs.reverse.length := by
        have := (List.getElem?_eq_some_iff.1 h).1
        rw [List.length_append, List.length_singleton] at this
        omega
      rw [look_put_other _ _ _ _ (by omega)]
      exact ih (by rwa [List.getElem?_append_left hlt] at h)

theorem neighbour_writeNeighbours_other {first n : Nat} {es : List NeighbourEntry} (s : State) (h : n < first ∨ first + es.length ≤ n) :
    neighbour (writeNeighbours first es s) n = neighbour s n := by
  obtain ⟨rs, rfl⟩ : ∃ rs, es = rs.reverse := ⟨es.reverse, (List.reverse_reverse es).symm⟩
  induction rs with
  | nil => rfl
  | cons x rs ih =>
    rw [List.reverse_cons] at h ⊢
    rw [List.length_append, List.length_singleton] at h
    rw [neighbour, writeNeighbours_concat, look_put_other _ _ _ _ (by omega)]
    exact ih (by omega)

section

variable {s : State} {r : Req} {first : BitVec 16} {es : List NeighbourEntry} (h : heard s r 0x0904 (8 + 32 * es.length) = true)
  (hlast : first.toNat + es.length ≤ 1025) (hlen : es.length ≤ 110) (hes : ∀ e ∈ es, e.mac.toNat < 2 ^ 48 ∧ e.port.toNat ≤ 3)

include hlast hlen hes

theorem neighbourBad_none : ∀ e ∈ neighbourBad first.toNat es, e.2 = false := by
  intro e he
  simp only [neighbourBad, List.mem_append, List.mem_cons, List.not_mem_nil, or_false, List.mem_flatMap] at he
  rcases he with (rfl | rfl) | ⟨x, hx, rfl | rfl⟩
  · simpa using hlast
  · simpa using hlen
  · simpa using (hes _ (List.of_mem_zip hx).2).1
  · simpa using (hes _ (List.of_mem_zip hx).2).2

include h

theorem exec_neighbourSet : exec (.neighbourSet r first es) s =
    .next (answer r 0x0904 St.ok 0 [] (writeNeighbours first.toNat es s)) := by
  show execNeighbourSet r first es s = _
  unfold execNeighbourSet
  rw [goust_icmd h (neighbourBad_none hlast hlen hes)]
  rfl

end

/-! ### The statement -/

/-- Settles O42: PORT_SET by its refusals, NEIGHBOUR_SET by the run of entries it writes. -/
theorem portCommands : Obligations.PortCommands := by
  unfold Obligations.PortCommands
  refine ⟨?set, ?read, ?number, ?neighbours⟩
  case set =>
    intro s r p cfg ip h hp hlow hmid hvlan hsplit hip hfamily
    rw [exec_portSet h hp hlow hmid hvlan hsplit hip hfamily]
    refine ⟨fun hex hkeep => ?_, fun hno => by rw [if_pos (portRefuses_iff.2 hno)]⟩
    rw [if_neg]
    rw [portRefuses_iff, hex]
    rintro (hex' | ⟨hheld, hchange⟩)
    · cases hex'
    · rcases hkeep with hfree | ⟨h0, h1⟩
      · simp [hheld] at hfree
      · simp [h0, h1] at hchange
  case read => exact fun s r p => exec_portRead
  case number =>
    intro s r n h hn
    rw [exec_deviceNumberSet h hn]
    exact ⟨fun hs => by rw [if_pos hs], fun hs => by rw [if_neg hs]⟩
  case neighbours =>
    intro s r first es h hlast hlen hes
    exact ⟨_, exec_neighbourSet h hlast hlen hes, (writeNeighbours_does ..).eq_mix, fun i e he => neighbour_writeNeighbours_same s he,
      fun n hn => neighbour_writeNeighbours_other s hn⟩

end Sys2Proof.Machine
end

section
/-! SUPPORT. The transport streams: TX_STREAM_SET, RX_STREAM_SET and RX_STREAM_READ by what they find, and the DATA parts that a packet
of a transmit stream leaves as (R398 to R400, R414). -/

namespace Sys2Proof.Machine

/-! ### The parts of a packet (R398) -/

theorem piecesAux_cons (k f : Nat) (b : Byte) (bs : Bytes) :
    piecesAux k (f + 1) (b :: bs) = (b :: bs).take k :: piecesAux k f ((b :: bs).drop k) := rfl

theorem piecesAux_length {k : Nat} (hk : 0 < k) {f : Nat} {bs : Bytes} (hf : bs.length ≤ f) :
    (piecesAux k f bs).length = (bs.length + (k - 1)) / k := by
  induction f generalizing bs with
  | zero =>
    obtain rfl : bs = [] := List.eq_nil_of_length_eq_zero (by omega)
    exact (Nat.div_eq_of_lt (by simpa using by omega)).symm
  | succ f ih =>
    cases bs with
    | nil => exact (Nat.div_eq_of_lt (by simpa using by omega)).symm
    | cons b bs =>
      rw [piecesAux_cons, List.length_cons, ih (by simp at hf ⊢; omega), List.length_drop, ← Nat.add_div_right _ hk]
      by_cases h : k ≤ (b :: bs).length
      · congr 1; omega
      · rw [Nat.div_eq_of_lt_le (k := 1), Nat.div_eq_of_lt_le (k := 1)] <;> simp at h ⊢ <;> omega

theorem piecesAux_getElem? {k f i : Nat} {bs b : Bytes} (h : (piecesAux k f bs)[i]? = some b) :
    b = (bs.drop (k * i)).take k := by
  induction f generalizing bs i with
  | zero => simp [piecesAux] at h
  | succ f ih =>
    cases bs with
    | nil => simp [piecesAux] at h
    | cons x bs =>
      cases i with
      | zero => simpa [piecesAux] using h.symm
      | succ i =>
        rw [piecesAux_cons, List.getElem?_cons_succ] at h
        rw [ih h, List.drop_drop, Nat.mul_succ, Nat.add_comm]

theorem kitParts_length (bs : Bytes) : (kitParts bs).length = max 1 ((bs.length + 1399) / 1400) := by
  cases bs with
  | nil => rfl
  | cons b bs =>
    refine (piecesAux_length (by decide) (Nat.le_refl _)).trans (Nat.max_eq_right ?_).symm
    rw [List.length_cons]; omega

theorem kitParts_getElem? {bs b : Bytes} {i : Nat} (h : (kitParts bs)[i]? = some b) : b = (bs.drop (1400 * i)).take 1400 := by
  cases bs with
  | nil =>
    have := (List.getElem?_eq_some_iff.1 h).2
    simp_all [kitParts]
  | cons x bs => exact piecesAux_getElem? h

theorem numberedParts_length (bs : Bytes) : (numberedParts bs).length = max 1 ((bs.length + 1399) / 1400) := by
  simp [numberedParts, kitParts_length]

/-- Each part with its number, its place and its bytes. -/
theorem numberedParts_getElem? {bs : Bytes} {i : Nat} {e : Bool × Bool × Nat × Bytes} (h : (numberedParts bs)[i]? = some e) :
    e = (i == 0, i + 1 == (numberedParts bs).length, 1400 * i, (bs.drop (1400 * i)).take 1400) := by
  rw [numberedParts_length, ← kitParts_length]
  simp only [numberedParts, List.getElem?_map, Option.map_eq_some_iff, List.getElem?_zip_eq_some] at h
  obtain ⟨⟨j, b⟩, ⟨hj, hb⟩, rfl⟩ := h
  obtain rfl : i = j := by simpa using (List.getElem?_eq_some_iff.1 hj).2
  rw [kitParts_getElem? hb]

/-! ### Frames put at a port -/

section

variable {p k : Nat} {c : OutClass} {exch : Bool} {dst : Addr}

theorem port_enqueueKit_same (h : KitHeader) (payload : Bytes) (s : State) : port (enqueueKit p c exch dst h payload s) p =
    { port s p with out := (port s p).out ++ [⟨c, pcpOf (port s p) c exch, dst, .kit h payload⟩] } := port_setPort_same ..

theorem port_enqueueKit_other (h : KitHeader) (payload : Bytes) (s : State) (hk : k ≠ p) :
    port (enqueueKit p c exch dst h payload s) k = port s k := port_setPort_other _ _ _ _ hk

/-- The priority of a class does not hang on the frames that wait. -/
theorem pcpOf_out (x : Port) (o : List OutFrame) : pcpOf { x with out := o } c exch = pcpOf x c exch := rfl

variable {α : Type} {hd : State → α → KitHeader} {pl : α → Bytes}

/-- Frames put one after another at a port stand behind those that wait there. -/
theorem foldl_enqueueKit_out (hkept : ∀ x s a, hd (setPort p x s) a = hd s a) (l : List α) (s : State) :
    (port (l.foldl (fun s a => enqueueKit p c exch dst (hd s a) (pl a) s) s) p).out =
      (port s p).out ++ l.map fun a => ⟨c, pcpOf (port s p) c exch, dst, .kit (hd s a) (pl a)⟩ := by
  induction l generalizing s with
  | nil => exact (List.append_nil _).symm
  | cons a l ih =>
    have hnext : ∀ b, hd (enqueueKit p c exch dst (hd s a) (pl a) s) b = hd s b := fun b => hkept ..
    rw [List.foldl_cons, ih]
    simp only [hnext, port_enqueueKit_same, pcpOf_out, List.map_cons, List.append_assoc, List.singleton_append]

theorem foldl_enqueueKit_other (hk : k ≠ p) (l : List α) (s : State) :
    port (l.foldl (fun s a => enqueueKit p c exch dst (hd s a) (pl a) s) s) k = port s k := by
  induction l generalizing s with
  | nil => rfl
  | cons a l ih => rw [List.foldl_cons, ih, port_enqueueKit_other _ _ _ hk]

end

/-! ### TRANSMIT_STREAM_PACKET (R398) -/

/-- The header of a part of a packet of a transmit stream. -/
def dataHeader (t : TxStream) (s : State) (e : Bool × Bool × Nat × Bytes) : KitHeader :=
  { kitHeader s 1 t.key (if t.dest == 0xffff then sessionClient s else t.dest) (t.dest == 0xffff) t.stream e.2.2.2.length
      ((t.pos.toNat + e.2.2.1) % 2 ^ 48) with first := e.1, last := e.2.1 }

/-- A packet put at its stream's port for the address `dst`, part after part. -/
def partsQueued (t : TxStream) (dst : Addr) (bs : Bytes) (s : State) : State :=
  (numberedParts bs).foldl (fun s e => enqueueKit t.port (if t.ruled then .ruledExch else .margin) false dst (dataHeader t s e) e.2.2.2 s) s

theorem partsQueued_does (t : TxStream) (dst : Addr) (bs : Bytes) (s : State) : Does [.ports] s (partsQueued t dst bs s) :=
  .foldl _ (fun _ _ => enqueueKit_does ..) (.refl _)

/-- The frame of a part of a packet. -/
def partFrame (t : TxStream) (dst : Addr) (s : State) (e : Bool × Bool × Nat × Bytes) : OutFrame :=
  ⟨if t.ruled then .ruledExch else .margin, pcpOf (port s t.port) (if t.ruled then .ruledExch else .margin) false, dst,
    .kit (dataHeader t s e) e.2.2.2⟩

theorem partsQueued_out (t : TxStream) (dst : Addr) (bs : Bytes) (s : State) :
    (port (partsQueued t dst bs s) t.port).out = (port s t.port).out ++ (numberedParts bs).map (partFrame t dst s) :=
  foldl_enqueueKit_out (fun _ _ _ => rfl) ..

/-- Part `i` of a packet of `n` parts carries its 1,400 bytes from 1,400 i on, their position in the stream, and whether it is the
first and the last (R398). -/
theorem dataHeader_fields {t : TxStream} {s : State} {e : Bool × Bool × Nat × Bytes} {i n : Nat} {bs : Bytes}
    (he : e = (i == 0, i + 1 == n, 1400 * i, (bs.drop (1400 * i)).take 1400)) :
    e.2.2.2 = (bs.drop (1400 * i)).take 1400 ∧ (dataHeader t s e).kind = 1#4 ∧ (dataHeader t s e).endpoint.toNat = t.stream % 2 ^ 16 ∧
      (dataHeader t s e).keyId.toNat = t.key % 2 ^ 16 ∧ (dataHeader t s e).len.toNat = e.2.2.2.length ∧
      (dataHeader t s e).pos.toNat = (t.pos.toNat + 1400 * i) % 2 ^ 48 ∧ (dataHeader t s e).srcDev = s.deviceNumber ∧
      ((dataHeader t s e).first = true ↔ i = 0) ∧ ((dataHeader t s e).last = true ↔ i + 1 = n) := by
  subst he
  have hlen : ((bs.drop (1400 * i)).take 1400).length < 2 ^ 16 := by rw [List.length_take]; omega
  refine ⟨rfl, rfl, BitVec.toNat_ofNat .., BitVec.toNat_ofNat .., (BitVec.toNat_ofNat ..).trans (Nat.mod_eq_of_lt hlen), ?_, rfl,
    beq_iff_eq, beq_iff_eq⟩
  exact (BitVec.toNat_ofNat ..).trans (Nat.mod_mod _ _)

/-- A packet of a transmit stream queued, and the count of its queue's streams moved by its bytes. -/
def transmitted (t : TxStream) (dst : Addr) (bs : Bytes) (s : State) : State :=
  { partsQueued t dst bs s with tx := (partsQueued t dst bs s).tx.map fun x =>
      if x.queue == t.queue then { x with pos := x.pos + BitVec.ofNat 48 bs.length } else x }

theorem exec_transmitStreamPacket (s : State) (q : BitVec 16) : exec (.transmitStreamPacket ⟨q, none, 0⟩) s =
    .next ((s.tx.find? fun t => t.queue == q.toNat).elim s fun t => (takePacket q.toNat s).elim s fun e =>
      transmitted t (neighbourAddr s (if t.dest == 0xffff then hostReturn else t.dest) t.port) e.1 e.2) := by
  have hclean : checkHead q.toNat none (0 : BitVec 8).toNat s = s := checkHead_clean ..
  show execTransmitStreamPacket _ s = _
  unfold execTransmitStreamPacket
  cases s.tx.find? fun t => t.queue == q.toNat with
  | none => rfl
  | some t =>
    dsimp -zeta only
    rw [hclean]
    dsimp only
    cases takePacket q.toNat s <;> rfl

/-! ### TX_STREAM_SET (R399, R414) -/

section

variable {s : State} {r : Req} {q dest stream : BitVec 16} {p cls : Byte} {key : BitVec 16}

/-- The transmit stream that TX_STREAM_SET binds: it keeps the count of the stream it takes the place of. -/
def boundTx (s : State) (q dest stream : BitVec 16) (p cls : Byte) (key : BitVec 16) : TxStream :=
  ⟨q.toNat, dest.toNat, stream.toNat, p.toNat, cls.toNat == 1, key.toNat,
    ((s.tx.find? fun t => t.queue == q.toNat && t.dest == dest.toNat && t.stream == stream.toNat).map (·.pos)).getD 0⟩

theorem boundTx_pos_kept {o : TxStream}
    (h : s.tx.find? (fun t => t.queue == q.toNat && t.dest == dest.toNat && t.stream == stream.toNat) = some o) :
    (boundTx s q dest stream p cls key).pos = o.pos := by simp [boundTx, h]

theorem boundTx_pos_new (h : ∀ o ∈ s.tx, ¬ (o.queue = q.toNat ∧ o.dest = dest.toNat ∧ o.stream = stream.toNat)) :
    (boundTx s q dest stream p cls key).pos = 0 := by
  have hnone : s.tx.find? (fun t => t.queue == q.toNat && t.dest == dest.toNat && t.stream == stream.toNat) = none :=
    List.find?_eq_none.2 fun o ho => by simpa [and_assoc] using h o ho
  simp [boundTx, hnone]

theorem exec_txStreamSet (h : heard s r 0x0905 16 = true) (hplan : planQueue? s q.toNat = true) (hq : queueNumberOk q.toNat = true)
    (hon : queueOn s q.toNat = true) (hd : dest.toNat ≤ 1023 ∨ dest = 0xffff#16) (hp : p.toNat ≤ 3) (hc : cls.toNat ≤ 1)
    (hk : key.toNat ≤ 4095) : exec (.txStreamSet r q dest stream p cls key) s = .next (if portExists s p.toNat then
      if (keySlot s key.toNat).isSome then answer r 0x0905 St.ok 0 []
        { s with tx := (s.tx.filter fun x => x.queue != q.toNat) ++ [boundTx s q dest stream p cls key] }
      else answer r 0x0905 St.keyAbsent 0 [] s
    else answer r 0x0905 St.portRefused 0 [] s) := by
  have hbad : ∀ e ∈ [(0, !planQueue? s q.toNat), (2, decide (1023 < dest.toNat) && dest != 0xffff#16), (6, decide (3 < p.toNat)),
      (7, decide (1 < cls.toNat)), (8, decide (4095 < key.toNat))], e.2 = false := by
    have hdest : 1023 < dest.toNat → dest = 0xffff#16 := fun hlt => hd.resolve_left (by omega)
    simpa [hplan, hp, hc, hk] using hdest
  show execTxStreamSet r q dest stream p cls key s = _
  unfold execTxStreamSet
  rw [goust_qcmd h hbad hq hon]
  cases hport : portExists s p.toNat with
  | false => simp [runCmd, qcmd, icmd, hport]
  | true => cases hkey : keySlot s key.toNat <;> simp [runCmd, qcmd, icmd, hport, hkey, boundTx]

end

/-! ### RX_STREAM_SET (R399, R414) -/

/-- A list with the entries that `f` picks replaced by one it picks finds that one. -/
theorem find?_map_replace {α : Type} {f : α → Bool} {y e : α} {l : List α} (hy : f y = true) (h : l.find? f = some e) :
    (l.map fun x => if f x then y else x).find? f = some y := by
  induction l with
  | nil => simp at h
  | cons x l ih => cases hx : f x <;> simp_all

section

variable {s : State} {r : Req} {src : BitVec 16} {ext dest : Byte} {stream q : BitVec 16} {dva n : BitVec 64}
  (h : heard s r 0x0906 24 = true) (hsrc : src.toNat ≤ 1023) (hext : ext.toNat ≤ 1) (hdest : dest.toNat ≤ 2)
  (hqueue : dest = 0 → planQueue? s q.toNat = true ∧ queueNumberOk q.toNat = true ∧ queueOn s q.toNat = true)

include h hsrc hext hdest hqueue

/-- What RX_STREAM_SET carries out, once heard. -/
theorem goust_rxStreamSet (body : State → CmdRes) :
    goust r { icmd 0x0906 24 [(0, decide (1023 < src.toNat)), (2, decide (1 < ext.toNat)), (3, decide (2 < dest.toNat)),
      (6, dest.toNat == 0 && !planQueue? s q.toNat)] body with units := if dest.toNat = 0 then [(6, queuePool q.toNat)] else [] } s =
      runCmd r (icmd 0x0906 24 [] body) s := by
  have hzero : dest.toNat = 0 → dest = 0 := fun h0 => BitVec.eq_of_toNat_eq h0
  refine (goust_iunits rfl h ?_ ?_).trans rfl
  · have hplan : dest.toNat = 0 → planQueue? s q.toNat = true := fun h0 => (hqueue (hzero h0)).1
    simpa [icmd, hsrc, hext, hdest] using hplan
  · intro u hu
    dsimp only at hu
    split at hu
    · next h0 =>
      obtain ⟨-, hnum, hon⟩ := hqueue (hzero h0)
      obtain rfl := List.mem_singleton.1 hu
      exact ⟨unitOk_queuePool hnum, queueOn_iff.1 hon⟩
    · cases hu

theorem exec_rxStreamSet_remove (hd : dest = 2) : exec (.rxStreamSet r src ext dest stream q dva n) s =
    .next (answer r 0x0906 St.ok 0 [] { s with rx := s.rx.filter fun e => !rxIs src.toNat (ext.toNat == 1) stream.toNat e }) := by
  refine (congrArg Host.Outcome.next (goust_rxStreamSet h hsrc hext hdest hqueue _)).trans ?_
  subst hd
  rfl

theorem exec_rxStreamSet_unheld (hd : dest = 1) (hw : windowHeld s dva.toNat n.toNat = false) :
    exec (.rxStreamSet r src ext dest stream q dva n) s = .next (answer r 0x0906 St.memoryRefused dva.toNat [] s) := by
  refine (congrArg Host.Outcome.next (goust_rxStreamSet h hsrc hext hdest hqueue _)).trans ?_
  subst hd
  simp [runCmd, icmd, hw]

/-- A stream bound to a queue or a held window: one that is set keeps its count, a new one starts at 0 while there is room for it. -/
theorem exec_rxStreamSet_bind {d : RxDest}
    (hd : dest = 0 ∧ d = RxDest.queue q.toNat ∨ dest = 1 ∧ windowHeld s dva.toNat n.toNat = true ∧ d = RxDest.window dva.toNat n.toNat) :
    exec (.rxStreamSet r src ext dest stream q dva n) s =
      .next ((s.rx.find? (rxIs src.toNat (ext.toNat == 1) stream.toNat)).elim
        (if 4096 ≤ s.rx.length then answer r 0x0906 St.noStreamSlot 0 [] s
          else answer r 0x0906 St.ok 0 [] { s with rx := s.rx ++ [⟨src.toNat, ext.toNat == 1, stream.toNat, d, 0, [], []⟩] })
        fun e => answer r 0x0906 St.ok 0 [] { s with
          rx := s.rx.map fun x => if rxIs src.toNat (ext.toNat == 1) stream.toNat x then { e with dest := d, parts := [] } else x }) := by
  refine (congrArg Host.Outcome.next (goust_rxStreamSet h hsrc hext hdest hqueue _)).trans ?_
  obtain ⟨h2, hw, hd⟩ : dest.toNat ≠ 2 ∧ ¬ (dest.toNat = 1 ∧ (!windowHeld s dva.toNat n.toNat) = true) ∧
      (if dest.toNat = 0 then RxDest.queue q.toNat else RxDest.window dva.toNat n.toNat) = d := by
    rcases hd with ⟨rfl, rfl⟩ | ⟨rfl, hw, rfl⟩ <;> simp [*]
  simp only [runCmd, icmd, h2, hw, hd, if_false]
  cases s.rx.find? (rxIs src.toNat (ext.toNat == 1) stream.toNat) with
  | none => by_cases hfull : 4096 ≤ s.rx.length <;> simp [hfull]
  | some e => rfl

end

/-! ### RX_STREAM_READ (R400, R414) -/

theorem exec_rxStreamRead {s : State} {r : Req} {src : BitVec 16} {ext : Byte} (stream : BitVec 16) (h : heard s r 0x0907 8 = true)
    (hsrc : src.toNat ≤ 1023) (hext : ext.toNat ≤ 1) : exec (.rxStreamRead r src ext stream) s =
      .next (answer r 0x0907 St.ok 0 ((s.rx.find? (rxIs src.toNat (ext.toNat == 1) stream.toNat)).elim (payload [.num 8 0, .num 1 0])
        fun e => payload [.num 8 e.committed.toNat, .num 1 (rxGaps e)]) s) := by
  show execRxStreamRead r src ext stream s = _
  unfold execRxStreamRead
  rw [goust_icmd h (by simp [hsrc, hext])]
  cases hf : s.rx.find? (rxIs src.toNat (ext.toNat == 1) stream.toNat) <;> simp [runCmd, icmd, hf]

/-! ### The statement -/

/-- Settles O43: the commands by what they find, a packet by its parts. -/
theorem transportStreams : Obligations.TransportStreams := by
  unfold Obligations.TransportStreams
  refine ⟨?txSet, ?rxSet, ?rxRead, ?nothing, ?packet⟩
  case txSet =>
    intro s r q dest stream p cls key h hplan hq hon hd hp hc hk
    rw [exec_txStreamSet h hplan hq hon hd hp hc hk]
    refine ⟨fun hport hkey => ⟨boundTx s q dest stream p cls key, by rw [if_pos hport, if_pos hkey], rfl, rfl, rfl, rfl, rfl, rfl,
      fun o => boundTx_pos_kept, boundTx_pos_new⟩, fun hport => by rw [hport]; rfl, fun hport hkey => by rw [hport, hkey]; rfl⟩
  case rxSet =>
    intro s r src ext dest stream q dva n h hsrc hext hdest hqueue
    refine ⟨exec_rxStreamSet_remove h hsrc hext hdest hqueue, exec_rxStreamSet_unheld h hsrc hext hdest hqueue, fun d hd => ?_⟩
    rw [exec_rxStreamSet_bind h hsrc hext hdest hqueue hd]
    refine ⟨fun e he => ?_, fun hnone hroom => ?_, fun hnone hfull => ?_⟩
    · have his : rxIs src.toNat (ext.toNat == 1) stream.toNat { e with dest := d, parts := [] } = true := (List.find?_some he :)
      rw [he, Option.elim_some]
      exact ⟨_, rfl, rfl, find?_map_replace his he, List.length_map ..⟩
    · rw [hnone, Option.elim_none, if_neg (by omega)]
    · rw [hnone, Option.elim_none, if_pos hfull]
  case rxRead =>
    intro s r src ext stream h hsrc hext
    rw [exec_rxStreamRead stream h hsrc hext]
    exact ⟨fun e he => by rw [he]; rfl, fun hnone => by rw [hnone]; rfl⟩
  case nothing =>
    intro s q hnone
    rw [exec_transmitStreamPacket]
    cases ht : s.tx.find? (fun t => t.queue == q.toNat) with
    | none => rfl
    | some t => rw [hnone.resolve_left (by simp [ht])]; rfl
  case packet =>
    intro s u q t bs ht hp
    have hq : t.queue = q.toNat := by simpa using List.find?_some ht
    obtain ⟨dst, hexec⟩ : ∃ dst, exec (.transmitStreamPacket ⟨q, none, 0⟩) s = .next (transmitted t dst bs u) :=
      ⟨_, by rw [exec_transmitStreamPacket, ht, hp]; rfl⟩
    have hdev : u.deviceNumber = s.deviceNumber := (takePacket_does hp).frame .deviceNumber (by decide)
    have htx : (partsQueued t dst bs u).tx = u.tx := (partsQueued_does ..).frame .tx (by decide)
    refine ⟨_, (numberedParts bs).map (partFrame t dst u), hexec, partsQueued_out .., ?_, fun i f hf => ?_, ?_,
      fun k hk => foldl_enqueueKit_other hk .., ?_⟩
    · rw [List.length_map, numberedParts_length]
    · rw [List.getElem?_map, Option.map_eq_some_iff] at hf
      obtain ⟨e, he, rfl⟩ := hf
      obtain ⟨hpl, hkind, hend, hkey, hlen, hpos, hsrc, hfirst, hlast⟩ := dataHeader_fields (t := t) (s := u) (numberedParts_getElem? he)
      exact ⟨_, _, rfl, hpl, hkind, hend, hkey, hlen, hpos, hsrc.trans hdev, hfirst, by rw [hlast, List.length_map], rfl⟩
    · simp only [transmitted, htx, hq, beq_iff_eq]
    · have hmix := (partsQueued_does t dst bs u).eq_mix
      exact congrArg (fun v : State => { v with tx := (transmitted t dst bs u).tx }) hmix

end Sys2Proof.Machine
end

section
/-! SUPPORT. The Dip service: the answer word of Table 12-10 field by field, and DIP_REQ by the table, the pause, the index and the row
it finds (R405, R408, R411, R412). -/

namespace Sys2Proof.Machine

/-! ### Little-endian words -/

theorem ofLe_take_le {w n : Nat} (h : n ≤ w) (v : Nat) (r : Bytes) : ofLe ((le w v ++ r).take n) = v % 256 ^ n := by
  induction n generalizing w v with
  | zero => exact (Nat.mod_one v).symm
  | succ n ih =>
    obtain ⟨w, rfl⟩ : ∃ u, w = u + 1 := ⟨w - 1, by omega⟩
    rw [le, List.cons_append, List.take_succ_cons, ofLe, ih (by omega), BitVec.toNat_ofNat, Nat.pow_succ 256, Nat.mul_comm (256 ^ n)]
    exact (Nat.mod_mul (x := v) (a := 256)).symm

/-- Bytes inside a little-endian word read as the bits of the word. -/
theorem leAt_le_append {w off n : Nat} (h : off + n ≤ w) (v : Nat) (r : Bytes) :
    leAt (le w v ++ r) off n = v / 2 ^ (8 * off) % 2 ^ (8 * n) := by
  induction off generalizing w v with
  | zero =>
    rw [Nat.mul_zero, Nat.pow_zero, Nat.div_one, Nat.pow_mul]
    exact ofLe_take_le (by omega) v r
  | succ off ih =>
    obtain ⟨w, rfl⟩ : ∃ u, w = u + 1 := ⟨w - 1, by omega⟩
    have hstep : leAt (le (w + 1) v ++ r) (off + 1) n = leAt (le w (v / 256) ++ r) off n := rfl
    rw [hstep, ih (by omega), Nat.div_div_eq_div_mul, Nat.mul_succ, Nat.add_comm, Nat.pow_add]

theorem ofLe_lt (bs : Bytes) : ofLe bs < 2 ^ (8 * bs.length) := by
  induction bs with
  | nil => exact Nat.one_pos
  | cons b bs ih =>
    have hb := b.isLt
    rw [ofLe, List.length_cons, Nat.mul_succ, Nat.pow_add]
    omega

theorem leAt_lt (bs : Bytes) (off n : Nat) : leAt bs off n < 2 ^ (8 * n) :=
  Nat.lt_of_lt_of_le (ofLe_lt _) (Nat.pow_le_pow_right (by decide) (Nat.mul_le_mul_left 8 (by rw [slice, List.length_take]; exact Nat.min_le_left ..)))

/-! ### The answer (R411, Table 12-10) -/

/-- The stated fields of an answer: its tag, its status and the bytes of its row, behind which the row stands. -/
theorem dipAnswer_fields (tag table index status rowBytes gen hint : Nat) (row : Bytes) :
    leAt (dipAnswer tag table index status rowBytes gen hint row) 0 4 = tag % 2 ^ 32 ∧
    leAt (dipAnswer tag table index status rowBytes gen hint row) 16 1 = status % 2 ^ 8 ∧
    leAt (dipAnswer tag table index status rowBytes gen hint row) 20 2 = rowBytes % 2 ^ 16 ∧
    (dipAnswer tag table index status rowBytes gen hint row).length = 32 + row.length ∧
    (dipAnswer tag table index status rowBytes gen hint row).drop 32 = row := by
  unfold dipAnswer
  rw [leAt_le_append (by decide), leAt_le_append (by decide), leAt_le_append (by decide)]
  refine ⟨?_, ?_, ?_, by rw [List.length_append, le_length], List.drop_left' (le_length ..)⟩ <;> simp only [pack] <;> omega

/-! ### A probe of the Dip (R405, R408, R411) -/

/-- The Dip part with one more hit of a row. -/
def dipHitNoted (c : TableCtx) (half row : Nat) (r : DipRow) (s : State) : State :=
  setDip (dipDie c half row) { dipPart s (dipDie c half row) with
    rows := (dipPart s (dipDie c half row)).rows.map fun y => if y = r then { y with hits := y.hits + 1 } else y } s

section

variable {u : State} {q : Bytes} (pt : Nat)

theorem dipProbe_unserved (h : dipTable u (leAt q 4 4) = none) :
    dipProbe pt q u = (dipAnswer (leAt q 0 4) (leAt q 4 4) (leAt q 8 8) 4 0 0 0 [], u) := by
  simp only [dipProbe, h]

variable {c : TableCtx} (hc : dipTable u (leAt q 4 4) = some c)

include hc

theorem dipProbe_paused (hp : dipPaused u (tableOf u c.slot c.ref) = true) : dipProbe pt q u =
    (dipAnswer (leAt q 0 4) (leAt q 4 4) (leAt q 8 8) 2 0 (tableOf u c.slot c.ref).gen 0 [],
      countDip c (fun t => { t with dipBusy := t.dipBusy + 1 }) u) := by
  simp only [dipProbe, hc, hp, if_true]

variable (hp : dipPaused u (tableOf u c.slot c.ref) = false)

include hp

theorem dipProbe_outside (hrow : ∀ row, dipRow c.d (leAt q 8 8) ≠ .row row) : dipProbe pt q u =
    (dipAnswer (leAt q 0 4) (leAt q 4 4) (leAt q 8 8) 3 0 (tableOf u c.slot c.ref).gen 0 [], u) := by
  simp only [dipProbe, hc, hp, Bool.false_eq_true, if_false]

variable {row : Nat} (hrow : dipRow c.d (leAt q 8 8) = .row row)

include hrow

theorem dipProbe_hit {r : DipRow} (hr : dipCopy u c (portDie pt / 2) row = some r) : dipProbe pt q u =
    (dipAnswer (leAt q 0 4) (leAt q 4 4) (leAt q 8 8) 0 c.rowBytes r.gen 0 (fit c.rowBytes r.bytes),
      countDip c (fun t => { t with dipHits := t.dipHits + 1 }) (dipHitNoted c (portDie pt / 2) row r u)) := by
  simp only [dipProbe, hc, hp, hrow, hr, Bool.false_eq_true, if_false]
  rfl

theorem dipProbe_miss (hr : dipCopy u c (portDie pt / 2) row = none) : dipProbe pt q u =
    (dipAnswer (leAt q 0 4) (leAt q 4 4) (leAt q 8 8) 1 0 (tableOf u c.slot c.ref).gen (dipHint u c row) [],
      countDip c (fun t => { t with dipMisses := t.dipMisses + 1 }) (logMiss c (portDie pt) row u)) := by
  simp only [dipProbe, hc, hp, hrow, hr, Bool.false_eq_true, if_false]

end

/-! ### What a probe counts -/

/-- What moves a Dip part only leaves every table. -/
theorem tableOf_of_does {T : List Part} {s t : State} (h : Does T s t) (hT : Part.tables ∉ T) (slot ref : Nat) :
    tableOf t slot ref = tableOf s slot ref := by
  have htables : t.tables = s.tables := h.frame .tables hT
  rw [tableOf, htables, ← tableOf]

theorem tableOf_countDip (c : TableCtx) (f : Table → Table) (s : State) :
    tableOf (countDip c f s) c.slot c.ref = f (tableOf s c.slot c.ref) := tableOf_setTable_same ..

theorem tableOf_dipHitNoted (c : TableCtx) (half row : Nat) (r : DipRow) (s : State) :
    tableOf (dipHitNoted c half row r s) c.slot c.ref = tableOf s c.slot c.ref := tableOf_of_does (setDip_does ..) (by decide) ..

theorem tableOf_logMiss (c : TableCtx) (port row : Nat) (s : State) :
    tableOf (logMiss c port row s) c.slot c.ref = tableOf s c.slot c.ref := tableOf_of_does (logMiss_does ..) (by decide) ..

theorem fit_of_length {n : Nat} {bs : Bytes} (h : bs.length = n) : fit n bs = bs := by
  rw [fit, List.take_of_length_le (by omega), h, Nat.sub_self, zeros, List.replicate_zero, List.append_nil]

/-! ### DIP_REQ (R408, R412) -/

/-- The header of an answer to `p`: to its source, under its key slot and its endpoint. -/
def dipHeader (p : KitPacket) (a : Bytes) (s : State) : KitHeader :=
  kitHeader s 11 p.header.keyId.toNat p.header.srcDev.toNat p.header.extSrc p.header.endpoint.toNat a.length 0

/-- The answer to `p` put at the Dip class of its port. -/
def dipAnswered (p : KitPacket) (bs : Bytes) (u : State) : State :=
  let a := dipProbe p.port.toNat bs u
  enqueueKit p.port.toNat .dip false p.source (dipHeader p a.1 u) a.1 a.2

theorem exec_dipReq {s u : State} {p : KitPacket} {bs : Bytes} (late : Bool) (h : receiveKit p 10 s = (some bs, u)) :
    exec (.dipReq p late) s = .next (bif late then tickEvent ⟨6, 5, (portUid p.port.toNat 3).toNat, 0xff, p.port.toNat, 0, 1⟩
      (dipAnswered p bs u) else dipAnswered p bs u) := by
  show execDipReq p late s = _
  rw [execDipReq, h]
  cases late <;> rfl

/-! ### The statement -/

/-- Settles O40: the answer's word field by field, and the probe by what it finds. -/
theorem dipService : Obligations.DipService := by
  unfold Obligations.DipService
  refine ⟨?answered, ?unserved, ?outside, ?paused, ?hit, ?miss⟩
  case answered =>
    intro s u p bs h
    have hself : ∀ x : BitVec 16, BitVec.ofNat 16 x.toNat = x := fun x => by simp
    refine ⟨(dipProbe p.port.toNat bs u).1, (dipProbe p.port.toNat bs u).2, dipHeader p (dipProbe p.port.toNat bs u).1 u, rfl, rfl, ?_, rfl,
      hself _, hself _, BitVec.toNat_ofNat .., exec_dipReq false h, exec_dipReq true h⟩
    exact (BitVec.toNat_ofNat ..).trans (Nat.mod_eq_of_lt p.header.srcDev.isLt)
  case unserved =>
    intro u pt q h
    obtain ⟨htag, hstatus, -, hlen, -⟩ := dipAnswer_fields (leAt q 0 4) (leAt q 4 4) (leAt q 8 8) 4 0 0 0 []
    exact ⟨_, dipProbe_unserved pt h, htag.trans (Nat.mod_eq_of_lt (leAt_lt ..)), hstatus, hlen⟩
  case outside =>
    intro u pt q c hc hp hrow
    obtain ⟨-, hstatus, -, hlen, -⟩ := dipAnswer_fields (leAt q 0 4) (leAt q 4 4) (leAt q 8 8) 3 0 (tableOf u c.slot c.ref).gen 0 []
    exact ⟨_, dipProbe_outside pt hc hp hrow, hstatus, hlen⟩
  case paused =>
    intro u pt q c hc hp
    obtain ⟨-, hstatus, -⟩ := dipAnswer_fields (leAt q 0 4) (leAt q 4 4) (leAt q 8 8) 2 0 (tableOf u c.slot c.ref).gen 0 []
    exact ⟨_, _, dipProbe_paused pt hc hp, hstatus, by rw [tableOf_countDip], rfl⟩
  case hit =>
    intro u pt q c row r hc hrow hp hr hlen
    rw [dipProbe_hit pt hc hp hrow hr, fit_of_length hlen]
    obtain ⟨-, hstatus, hbytes, -, hdrop⟩ := dipAnswer_fields (leAt q 0 4) (leAt q 4 4) (leAt q 8 8) 0 c.rowBytes r.gen 0 r.bytes
    exact ⟨_, _, rfl, hstatus, hdrop, hbytes, by rw [tableOf_countDip, tableOf_dipHitNoted], by rw [tableOf_countDip, tableOf_dipHitNoted], rfl⟩
  case miss =>
    intro u pt q c row hc hrow hp hr
    obtain ⟨-, hstatus, -, hlen, -⟩ :=
      dipAnswer_fields (leAt q 0 4) (leAt q 4 4) (leAt q 8 8) 1 0 (tableOf u c.slot c.ref).gen (dipHint u c row) []
    refine ⟨_, _, dipProbe_miss pt hc hp hrow hr, hstatus, hlen, by rw [tableOf_countDip, tableOf_logMiss],
      by rw [tableOf_countDip, tableOf_logMiss], ?_⟩
    exact (Does.next (T := [.tables, .dips]) (countDip_does ..) (by decide) ((logMiss_does ..).mono (by decide))).eq_mix

end Sys2Proof.Machine
end

section
/-! SUPPORT. The PTP receiver: the choice of a time transmitter, the servo update that a Sync or its Follow_Up ends in, the path delay
and the pulses of the time base (R391, R392, R492). -/

namespace Sys2Proof.Machine

/-! ### PTP_SET (R391) -/

/-- What PTP_SET leaves of the receiver: its configuration, and nothing heard (R391). -/
def ptpConfigured (p transport domain : Byte) (a : BitVec 32) (x : Ptp) : Ptp :=
  { x with port := p.toNat, transport := transport, domain := domain, asymmetry := a, isSet := true, master := none, masters := [],
           heard := [], lastSeq := none, waiting := none, delayReq := none, delayResp := none }

theorem exec_ptpSet {s : State} {r : Req} {p transport domain : Byte} (a : BitVec 32) (h : heard s r 0x0908 8 = true) (hp : p.toNat ≤ 3)
    (ht : transport.toNat ≤ 2) (hd : domain.toNat ≤ 127) : exec (.ptpSet r p transport domain a) s = .next (if portExists s p.toNat then
      answer r 0x0908 St.ok 0 [] { s with ptp := ptpConfigured p transport domain a s.ptp } else answer r 0x0908 St.portRefused 0 [] s) := by
  show execPtpSet r p transport domain a s = _
  unfold execPtpSet
  rw [goust_icmd h (by simp [hp, ht, hd])]
  cases hport : portExists s p.toNat <;> simp [runCmd, icmd, hport, ptpConfigured]

/-! ### The time transmitter (assumption 214) -/

theorem bestMaster_isSome {l : List (Nat × Nat)} {e : Nat × Nat} (h : e ∈ l) : ∃ b, bestMaster l = some b := by
  cases l with
  | nil => cases h
  | cons a l =>
    cases hl : bestMaster l with
    | none => exact ⟨a, by simp [bestMaster, hl]⟩
    | some c => by_cases hlt : c.2 < a.2 <;> simp [bestMaster, hl, hlt]

/-- The time transmitter chosen is one of the list with the lowest rank. -/
theorem bestMaster_least {l : List (Nat × Nat)} {b : Nat × Nat} (h : bestMaster l = some b) : b ∈ l ∧ ∀ e ∈ l, b.2 ≤ e.2 := by
  induction l generalizing b with
  | nil => cases h
  | cons a l ih =>
    cases hl : bestMaster l with
    | none =>
      have hnil : l = [] := List.eq_nil_iff_forall_not_mem.2 fun e he => by
        obtain ⟨c, hc⟩ := bestMaster_isSome he
        cases hl.symm.trans hc
      simp_all [bestMaster]
    | some c =>
      obtain ⟨hmem, hleast⟩ := ih hl
      simp only [bestMaster, hl] at h
      split at h <;> cases h
      · next hlt => exact ⟨List.mem_cons_of_mem _ hmem, List.forall_mem_cons.2 ⟨by omega, hleast⟩⟩
      · next hge => exact ⟨List.mem_cons_self, List.forall_mem_cons.2 ⟨Nat.le_refl _, fun e he => Nat.le_trans (by omega) (hleast e he)⟩⟩

section

variable (s : State)

theorem chooseMaster_master : (chooseMaster s).ptp.master = bestMaster (liveMasters s) := by
  unfold chooseMaster; dsimp only; split <;> rfl

/-- The choice writes the time transmitter, and forgets what a former one gave: nothing else of the receiver moves. -/
theorem chooseMaster_ptp : (chooseMaster s).ptp = { s.ptp with
    master := bestMaster (liveMasters s), lastSeq := (chooseMaster s).ptp.lastSeq, waiting := (chooseMaster s).ptp.waiting,
    delayResp := (chooseMaster s).ptp.delayResp } := by
  unfold chooseMaster; dsimp only; split <;> rfl

variable {s}

theorem chooseMaster_same (h : (chooseMaster s).ptp.master.map (·.1) = s.ptp.master.map (·.1)) :
    (chooseMaster s).ptp = { s.ptp with master := (chooseMaster s).ptp.master } := by
  rw [chooseMaster_master] at h ⊢
  unfold chooseMaster
  rw [if_pos h]

theorem chooseMaster_changed (h : (chooseMaster s).ptp.master.map (·.1) ≠ s.ptp.master.map (·.1)) :
    (chooseMaster s).ptp.lastSeq = none ∧ (chooseMaster s).ptp.waiting = none ∧ (chooseMaster s).ptp.delayResp = none := by
  rw [chooseMaster_master] at h
  unfold chooseMaster
  rw [if_neg h]
  exact ⟨rfl, rfl, rfl⟩

end

/-! ### The servo (R392) -/

/-- What a servo update takes off the time base: all of the offset beyond 1 ms, else the part that the servo steers by (assumption 29). -/
def servoStep (s : State) (off : Int) : Int := if 1000000 < off.natAbs then off else steer s off

theorem servoStep_beyond {off : Int} (s : State) (h : 1000000 < off ∨ off < -1000000) : servoStep s off = off := if_pos (by omega)

theorem servoStep_within {off : Int} (s : State) (h1 : -1000000 ≤ off) (h2 : off ≤ 1000000) :
    ∃ k : Nat, k ≤ 65536 ∧ servoStep s off = off * (k : Int) / 65536 :=
  ⟨_, Nat.lt_succ_iff.1 (Nat.mod_lt _ (by decide)), if_neg (by omega)⟩

/-- A numbered Sync noted. -/
def syncNoted (seq : BitVec 16) (t1 t2 : Int) (x : Ptp) : Ptp := { x with lastSeq := some seq, waiting := none, t1t2 := (t1, t2) }

/-- A valid servo update for the offset `off`. -/
def servoUpdated (seq : BitVec 16) (t1 t2 off : Int) (s : State) : State :=
  endHoldover { s with
    freeCtr := s.freeCtr + 1
    ptp := { syncNoted seq t1 t2 s.ptp with
      offset := s.ptp.offset - servoStep s off, lastOffset := BitVec.ofInt 64 off, lastUpdate := s.clk.cycle } }

/-- A servo update is valid where its number follows the last one and a Delay_Resp of the last 16 s gives a delay of 0 to 100 µs. -/
def syncValid (seq : BitVec 16) (s : State) : Bool :=
  s.ptp.lastSeq.any (fun n => n + 1 == seq) && s.ptp.delayResp.any fun d => 0 ≤ d.1 && d.1 ≤ 100000 && s.clk.cycle ≤ d.2 + 30400000000

theorem syncDone_eq (seq : BitVec 16) (t1 t2 : Int) (s : State) : syncDone seq t1 t2 s =
    if syncValid seq s then servoUpdated seq t1 t2 (syncOffset s t1 t2) s else { s with ptp := syncNoted seq t1 t2 s.ptp } := by
  show (if !syncValid seq s then _ else _) = _
  cases syncValid seq s <;> rfl

theorem syncDone_valid {s : State} {seq n : BitVec 16} {d : Int × Nat} (t1 t2 : Int) (hd : s.ptp.delayResp = some d) (h0 : 0 ≤ d.1)
    (hmax : d.1 ≤ 100000) (hage : s.clk.cycle ≤ d.2 + 30400000000) (hlast : s.ptp.lastSeq = some n) (hn : n + 1 = seq) :
    syncDone seq t1 t2 s = servoUpdated seq t1 t2 (t2 - t1 - d.1 - s.ptp.asymmetry.toInt) s := by
  have hvalid : syncValid seq s = true := by simp [syncValid, hlast, ← hn, hd, h0, hmax, hage]
  have hoff : syncOffset s t1 t2 = t2 - t1 - d.1 - s.ptp.asymmetry.toInt := by simp [syncOffset, pathDelay, hd]
  rw [syncDone_eq, hvalid, hoff, if_pos rfl]

theorem syncDone_invalid {s : State} {seq : BitVec 16} (t1 t2 : Int) (h : s.ptp.delayResp = none ∨ s.ptp.lastSeq = none ∨
      (∃ n, s.ptp.lastSeq = some n ∧ n + 1 ≠ seq) ∨
      ∃ d, s.ptp.delayResp = some d ∧ (d.1 < 0 ∨ 100000 < d.1 ∨ d.2 + 30400000000 < s.clk.cycle)) :
    syncDone seq t1 t2 s = { s with ptp := syncNoted seq t1 t2 s.ptp } := by
  have hvalid : syncValid seq s = false := by
    rw [syncValid, Bool.and_eq_false_iff]
    rcases h with hd | hl | ⟨n, hl, hn⟩ | ⟨d, hd, hbad⟩
    · exact .inr (by rw [hd]; rfl)
    · exact .inl (by rw [hl]; rfl)
    · exact .inl (by rw [hl, Option.any_some]; exact beq_false_of_ne hn)
    · refine .inr ?_
      rw [hd, Option.any_some, Bool.eq_false_iff]
      simp only [ne_eq, Bool.and_eq_true, decide_eq_true_eq]
      omega
  rw [syncDone_eq, hvalid]
  rfl

section

variable (s : State)

@[simp] theorem endHoldover_ptp : (endHoldover s).ptp = s.ptp := (endHoldover_does s).frame .ptp (by decide)

theorem endHoldover_eq : endHoldover s = { s with rul := { s.rul with status := (endHoldover s).rul.status } } := by
  unfold endHoldover
  split <;> rfl

theorem lockOf_endHoldover (h : disciplined s = true ∧ lockOf s = 3) : lockOf (endHoldover s) = 1 := by
  rw [endHoldover, if_pos (by simp [h]), lockOf_setLock _ (by decide)]

theorem endHoldover_rul (h : ¬ (disciplined s = true ∧ lockOf s = 3)) : (endHoldover s).rul = s.rul := by
  rw [endHoldover, if_neg (by simpa using h)]

end

theorem servoUpdated_ptp (seq : BitVec 16) (t1 t2 off : Int) (s : State) : (servoUpdated seq t1 t2 off s).ptp =
    { syncNoted seq t1 t2 s.ptp with
      offset := s.ptp.offset - servoStep s off, lastOffset := BitVec.ofInt 64 off, lastUpdate := s.clk.cycle } := endHoldover_ptp _

/-- Without a holdover a servo update leaves the ruling. -/
theorem servoUpdated_rul {s : State} (seq : BitVec 16) (t1 t2 off : Int) (h : ¬ (disciplined s = true ∧ lockOf s = 3)) :
    (servoUpdated seq t1 t2 off s).rul = s.rul := by
  rw [servoUpdated, endHoldover_rul]
  exact h

/-- A servo update moves the receiver and the lock state, and draws one free value. -/
theorem servoUpdated_eq (seq : BitVec 16) (t1 t2 off : Int) (s : State) : servoUpdated seq t1 t2 off s = { s with
    ptp := (servoUpdated seq t1 t2 off s).ptp, rul := { s.rul with status := (servoUpdated seq t1 t2 off s).rul.status },
    freeCtr := s.freeCtr + 1 } := by
  rw [servoUpdated_ptp]
  exact endHoldover_eq _

/-! ### The messages (R391, R392) -/

theorem exec_sync_none {s : State} {m : PtpMessage} (h : ptpFromMaster m s = false) : exec (.sync m) s = .next s := if_pos (by simp [h])

theorem exec_followUp_none {s : State} {m : PtpMessage} (h : ptpFromMaster m s = false) : exec (.followUp m) s = .next s :=
  if_pos (by simp [h])

theorem exec_delayResp_none {s : State} {m : PtpMessage} (h : ptpFromMaster m s = false) : exec (.delayResp m) s = .next s :=
  if_pos (by simp [h])

section

variable {s : State} {m : PtpMessage} (h : ptpFromMaster m s = true)

include h

theorem exec_sync : exec (.sync m) s = .next (if m.twoStep then
      { sendDelayReq m (chooseMaster s) with ptp := { (sendDelayReq m (chooseMaster s)).ptp with waiting := some (m.seq, (ptpNs s : Int)) } }
    else syncDone m.seq m.stamp.toNat (ptpNs s) (sendDelayReq m (chooseMaster s))) :=
  if_neg (by simp [h])

/-- A Follow_Up ends the Sync of its number that waits for it. -/
theorem exec_followUp_waiting {t2 : Int} (hw : (chooseMaster s).ptp.waiting = some (m.seq, t2)) :
    exec (.followUp m) s = .next (syncDone m.seq m.stamp.toNat t2 (chooseMaster s)) := by
  show execFollowUp m s = _
  simp [execFollowUp, h, hw]

theorem exec_followUp_unawaited (hw : ∀ t2, (chooseMaster s).ptp.waiting ≠ some (m.seq, t2)) :
    exec (.followUp m) s = .next (chooseMaster s) := by
  show execFollowUp m s = _
  cases hx : (chooseMaster s).ptp.waiting with
  | none => simp [execFollowUp, h, hx]
  | some x =>
    have hne : x.1 ≠ m.seq := fun he => hw x.2 (by rw [hx, ← he])
    simp [execFollowUp, h, hx, hne]

/-- A Delay_Resp to the Delay_Req sent gives the mean path delay. -/
theorem exec_delayResp {t3 : Int} (hr : s.ptp.delayReq = some (m.seq, t3)) : exec (.delayResp m) s = .next { s with
    ptp := { (chooseMaster s).ptp with
      delayResp := some (((s.ptp.t1t2.2 - s.ptp.t1t2.1) + ((m.stamp.toNat : Int) - t3)) / 2, s.clk.cycle), delayReq := none } } := by
  have hreq : (chooseMaster s).ptp.delayReq = some (m.seq, t3) := by rw [chooseMaster_ptp]; exact hr
  have ht : (chooseMaster s).ptp.t1t2 = s.ptp.t1t2 := by rw [chooseMaster_ptp]
  have hmix : chooseMaster s = { s with ptp := (chooseMaster s).ptp } := (chooseMaster_does s).eq_mix
  show execDelayResp m s = _
  simp only [execDelayResp, h, Bool.not_true, Bool.false_eq_true, if_false, hreq, if_true, ht]
  rw [hmix]

theorem exec_delayResp_unasked (hr : ∀ t3, s.ptp.delayReq ≠ some (m.seq, t3)) : exec (.delayResp m) s = .next (chooseMaster s) := by
  have hreq : (chooseMaster s).ptp.delayReq = s.ptp.delayReq := by rw [chooseMaster_ptp]
  show execDelayResp m s = _
  cases hx : s.ptp.delayReq with
  | none => simp [execDelayResp, h, hreq, hx]
  | some x =>
    have hne : x.1 ≠ m.seq := fun he => hr x.2 (by rw [hx, ← he])
    simp [execDelayResp, h, hreq, hx, hne]

end

/-! ### The Delay_Req (R392) -/

theorem ofBe_be {n v : Nat} (h : v < 256 ^ n) : ofBe (be n v) = v := by
  have htake := ofLe_take_le (Nat.le_refl n) v []
  rw [List.append_nil, List.take_of_length_le (Nat.le_of_eq (le_length ..)), Nat.mod_eq_of_lt h] at htake
  rw [ofBe, be, List.reverse_reverse, htake]

theorem delayReqBytes_seq (s : State) (seq : BitVec 16) : beAt (delayReqBytes s seq.toNat) 30 2 = seq.toNat := by
  have hslice : slice (delayReqBytes s seq.toNat) 30 2 = be 2 seq.toNat := rfl
  rw [beAt, hslice, ofBe_be (by simpa using seq.isLt)]

/-- The Delay_Req that answers a Sync (R392). -/
def delayReqFrame (m : PtpMessage) (s : State) : OutFrame :=
  ⟨.pfcPtp, pcpOf (port s m.port.toNat) .pfcPtp false, { m.source with udp := 319 }, .ptp (delayReqBytes s m.seq.toNat)⟩

theorem sendDelayReq_out (m : PtpMessage) (s : State) :
    (port (sendDelayReq m s) m.port.toNat).out = (port s m.port.toNat).out ++ [delayReqFrame m s] := by
  rw [sendDelayReq, port_setPort_same, delayReqFrame]

/-! ### ANNOUNCE (R391, assumption 214) -/

section

variable {s : State} {m : PtpMessage} (d : PtpDataSet)

theorem exec_announce_none (h : ptpHeard m s = false) : exec (.announce m d) s = .next s := if_pos (by simp [h])

/-- The receiver with a sender's Announce noted: its rank, where it was heard within the 15,200,000,000 cycles before. -/
def announceNoted (m : PtpMessage) (d : PtpDataSet) (s : State) : State := { s with ptp := { s.ptp with
  masters := if announcedBefore m s then put m.sender.toNat (announceRank m d) s.ptp.masters else del m.sender.toNat s.ptp.masters
  heard := put m.sender.toNat s.clk.cycle s.ptp.heard } }

theorem exec_announce (h : ptpHeard m s = true) : exec (.announce m d) s = .next (chooseMaster (announceNoted m d s)) :=
  if_neg (by simp [h])

theorem announcedBefore_heard {c : Nat} (h : look m.sender.toNat s.ptp.heard = some c) :
    announcedBefore m s = decide (s.clk.cycle ≤ c + 15200000000) := by rw [announcedBefore, h]; rfl

theorem masters_announceNoted_again (h : announcedBefore m s = true) :
    look m.sender.toNat (announceNoted m d s).ptp.masters = some (announceRank m d) := by simp [announceNoted, h]

theorem masters_announceNoted_first (h : announcedBefore m s = false) :
    look m.sender.toNat (announceNoted m d s).ptp.masters = none := by simp [announceNoted, h]

theorem masters_announceNoted_other (s : State) {j : Nat} (h : j ≠ m.sender.toNat) :
    look j (announceNoted m d s).ptp.masters = look j s.ptp.masters := by
  rw [announceNoted]
  split <;> simp [h]

/-- The sender of an Announce is heard now, so it lives. -/
theorem announceNoted_live {r : Nat} (h : look m.sender.toNat (announceNoted m d s).ptp.masters = some r) :
    ∃ e, e ∈ liveMasters (announceNoted m d s) := by
  obtain ⟨e, he, rfl⟩ := Option.map_eq_some_iff.1 h
  have hsender : e.1 = m.sender.toNat := by simpa using List.find?_some he
  have hnow : look e.1 (announceNoted m d s).ptp.heard = some s.clk.cycle := by rw [hsender]; exact look_put_same ..
  refine ⟨e, List.mem_filter.2 ⟨List.mem_of_find?_eq_some he, ?_⟩⟩
  rw [hnow, Option.any_some]
  exact decide_eq_true (Nat.lt_add_of_pos_right (by decide))

end

theorem liveMasters_chooseMaster (s : State) : liveMasters (chooseMaster s) = liveMasters s := by
  have hclk : (chooseMaster s).clk = s.clk := (chooseMaster_does s).frame .clk (by decide)
  rw [liveMasters, chooseMaster_ptp, hclk]
  rfl

/-! ### The pulses (R492) -/

theorem exec_ptpPpsIn (s : State) (ago : BitVec 64) (w : BitVec 32) : exec (.ptpPpsIn ago w) s = .next (if w.toNat < 100 then s else
    { s with ptp := { s.ptp with
      pps := (BitVec.ofNat 64 ((ptpNs s - ago.toNat) / 1000000000), BitVec.ofNat 32 ((ptpNs s - ago.toNat) % 1000000000)) } }) := by
  show execPtpPpsIn ago w s = _
  unfold execPtpPpsIn
  split <;> rfl

/-- The cycle at which the free-running nanoseconds reach `n`. -/
theorem cyclesToNs_ceilDiv (n : Nat) : cyclesToNs (ceilDiv (n * 19) 10) = n := by
  rw [cyclesToNs, ceilDiv, if_neg (by decide)]; omega

/-- PTP_PPS_OUT comes at the cycle at which the time base reaches the next whole second. -/
theorem ptpNs_nextSecond {s : State} {n : Nat} (h : ptpNs s < n) (c : Clock) :
    ptpNs { s with clk := { c with cycle := max s.clk.cycle (ceilDiv (((n : Int) - s.ptp.offset).toNat * 19) 10) } } = n := by
  have hfree : freeNs s < ((n : Int) - s.ptp.offset).toNat := by rw [ptpNs] at h; omega
  have hcycle : s.clk.cycle ≤ ceilDiv (((n : Int) - s.ptp.offset).toNat * 19) 10 := by
    rw [freeNs, cyclesToNs] at hfree
    rw [ceilDiv, if_neg (by decide)]
    omega
  rw [Nat.max_eq_right hcycle, ptpNs, freeNs, cyclesToNs_ceilDiv]
  dsimp only
  omega

/-- The state at the next pulse, where the time base stands at `n` nanoseconds. -/
def pulsed (n : Nat) (s : State) : State :=
  let s := advanceTo (ceilDiv (((n : Int) - s.ptp.offset).toNat * 19) 10) s
  { s with ppsOut := s.clk.cycle + 190000000 }

theorem exec_ptpPpsOut (s : State) : exec .ptpPpsOut s = .next (pulsed ((ptpNs s / 1000000000 + 1) * 1000000000) s) := rfl

/-! ### The statement -/

/-- Settles O44: the choice of a time transmitter, then each message by whether it comes from it, then the servo and the pulses. -/
theorem ptpTimeBase : Obligations.PtpTimeBase := by
  unfold Obligations.PtpTimeBase
  refine ⟨?set, ?others, ?sync, ?followUp, ?unawaited, ?choice, ?valid, ?invalid, ?delayResp, ?unasked, ?unheard, ?announce, ?ppsIn, ?ppsOut⟩
  case set =>
    intro s r p transport domain a h hp ht hd
    rw [exec_ptpSet a h hp ht hd]
    exact ⟨fun hport => ⟨{ s with ptp := ptpConfigured p transport domain a s.ptp }, by rw [if_pos hport], rfl, rfl, rfl, rfl, rfl, rfl, rfl, rfl,
      rfl, rfl, rfl, rfl, rfl, rfl⟩,
      fun hport => by rw [hport]; rfl⟩
  case others => exact fun s m h => ⟨exec_sync_none h, exec_followUp_none h, exec_delayResp_none h⟩
  case sync =>
    intro s m h
    have hmix : chooseMaster s = { s with ptp := (chooseMaster s).ptp } := (chooseMaster_does s).eq_mix
    have hports : ∀ k, port (chooseMaster s) k = port s k := fun k => by rw [hmix]; rfl
    refine ⟨sendDelayReq m (chooseMaster s), delayReqFrame m (chooseMaster s), ?_, rfl, rfl, ⟨_, rfl, delayReqBytes_seq _ m.seq⟩, ?_,
      fun k hk => ?_, exec_sync h⟩
    · rw [sendDelayReq_out, hports]
    · exact congrArg (fun v : State => { v with ports := (sendDelayReq m (chooseMaster s)).ports }) hmix
    · rw [sendDelayReq, port_setPort_other _ _ _ _ hk, hports]
  case followUp => exact fun s m t2 h => exec_followUp_waiting h
  case unawaited => exact fun s m h => exec_followUp_unawaited h
  case choice =>
    intro s
    refine ⟨(chooseMaster_does s).eq_mix, by rw [chooseMaster_ptp], fun b hb => ?_, fun hnil => ?_, chooseMaster_same, chooseMaster_changed⟩
    · exact bestMaster_least ((chooseMaster_master s).symm.trans hb)
    · rw [chooseMaster_master, hnil]; rfl
  case valid =>
    intro s seq t1 t2 d n hd h0 hmax hage hlast hn
    obtain ⟨off, hoff⟩ : ∃ off, off = t2 - t1 - d.1 - s.ptp.asymmetry.toInt := ⟨_, rfl⟩
    have hptp := servoUpdated_ptp seq t1 t2 off s
    refine ⟨servoUpdated seq t1 t2 off s, off, by rw [syncDone_valid t1 t2 hd h0 hmax hage hlast hn, hoff], hoff, ?_⟩
    rw [hptp]
    refine ⟨rfl, rfl, rfl, rfl, rfl, fun hbig => ?_, fun h1 h2 => ?_, fun hdisc hlock => lockOf_endHoldover _ ⟨hdisc, hlock⟩,
      servoUpdated_rul seq t1 t2 off, ?_⟩
    · exact congrArg (s.ptp.offset - ·) (servoStep_beyond s hbig)
    · obtain ⟨k, hk, hstep⟩ := servoStep_within s h1 h2
      exact ⟨k, hk, congrArg (s.ptp.offset - ·) hstep⟩
    · rw [← hptp]
      exact servoUpdated_eq ..
  case invalid => exact fun s seq t1 t2 => syncDone_invalid t1 t2
  case delayResp => exact fun s m t3 h => exec_delayResp h
  case unasked => exact fun s m h => exec_delayResp_unasked h
  case unheard => exact fun s m d h => exec_announce_none d h
  case announce =>
    intro s m d h
    have hmix : chooseMaster (announceNoted m d s) = { s with ptp := (chooseMaster (announceNoted m d s)).ptp } :=
      (chooseMaster_does _).eq_mix
    have hmasters : (chooseMaster (announceNoted m d s)).ptp.masters = (announceNoted m d s).ptp.masters := by rw [chooseMaster_ptp]
    have hheard : (chooseMaster (announceNoted m d s)).ptp.heard = (announceNoted m d s).ptp.heard := by rw [chooseMaster_ptp]
    have hoffset : (chooseMaster (announceNoted m d s)).ptp.offset = s.ptp.offset := by rw [chooseMaster_ptp]; rfl
    refine ⟨_, exec_announce d h, ?heard, ?again, ?first, ?other, ?least, fun hsame => ?same, hmix, hoffset⟩
    case heard => rw [hheard]; exact look_put_same ..
    case again =>
      intro c hc hage
      have hbefore : announcedBefore m s = true := by rw [announcedBefore_heard hc, decide_eq_true hage]
      have hrank := masters_announceNoted_again d hbefore
      obtain ⟨e, he⟩ := announceNoted_live d hrank
      exact ⟨by rw [hmasters, hrank], by rw [chooseMaster_master]; exact bestMaster_isSome he⟩
    case first =>
      intro hlate
      rw [hmasters]
      apply masters_announceNoted_first
      rcases hlate with hnone | ⟨c, hc, hage⟩
      · rw [announcedBefore, hnone]; rfl
      · rw [announcedBefore_heard hc, decide_eq_false (by omega)]
    case other => intro j hj; rw [hmasters, masters_announceNoted_other d s hj]
    case least =>
      intro b hb
      rw [liveMasters_chooseMaster]
      rw [chooseMaster_master] at hb
      exact bestMaster_least hb
    case same =>
      rw [chooseMaster_same hsame]
      exact ⟨rfl, rfl⟩
  case ppsIn =>
    intro s ago w
    rw [exec_ptpPpsIn]
    exact ⟨fun hw => by rw [if_pos hw], fun hw => by rw [if_neg (by omega)]⟩
  case ppsOut =>
    intro s
    have hlt : ptpNs s < (ptpNs s / 1000000000 + 1) * 1000000000 := by omega
    exact ⟨_, exec_ptpPpsOut s, ptpNs_nextSecond hlt s.clk, rfl, rfl⟩

end Sys2Proof.Machine
end

section
/-! SUPPORT. The links of the ports and between the dies: what a loss takes out, and when LINK_UP brings a port back (R415, R485). -/

namespace Sys2Proof.Machine

/-! ### A port written with its live configuration -/

section

variable {p : Nat} {x : Port} {s : State} (hx : x.live = (port s p).live)

include hx

/-- A port written with its live configuration leaves the live configuration of every port. -/
theorem live_setPort (j : Nat) : (port (setPort p x s) j).live = (port s j).live := by
  by_cases hj : j = p
  · rw [hj, port_setPort_same, hx]
  · rw [port_setPort_other _ _ _ _ hj]

theorem portUp_setPort (j : Nat) : portUp (setPort p x s) j = portUp s j := by
  simp only [portUp, portExists, portSplit, live_setPort hx, setPort_boot, setPort_pwr]

theorem portCarries_setPort : portCarries (setPort p x s) p = (portUp s p && x.linkUp) := by
  rw [portCarries, portUp_setPort hx, port_setPort_same]

end

/-- A port whose link is written passes frames where it is up and its link is. -/
theorem portCarries_setPortLink (s : State) (p : Nat) (up retraining : Bool) :
    portCarries (setPort p { port s p with linkUp := up, retraining := retraining } s) p = (portUp s p && up) :=
  portCarries_setPort (x := { port s p with linkUp := up, retraining := retraining }) rfl

/-! ### PORT_LINK_DOWN, LINK_UP and UNCORRECTED_CODEWORD -/

section

variable {p : BitVec 2} {s : State}

theorem exec_portLinkDown_silent (h : portCarries s p.toNat = false) : exec (.portLinkDown p) s = .next s :=
  if_pos (by simp [h])

theorem exec_portLinkDown (h : portCarries s p.toNat = true) :
    exec (.portLinkDown p) s = .next (emitErr ⟨6, 1, laneUid s p.toNat, 0, 0, 0xff, false, true⟩
      (setPort p.toNat { port s p.toNat with linkUp := false, retraining := true } s)) :=
  if_neg (by simp [h])

theorem exec_uncorrectedCodeword_silent (h : portCarries s p.toNat = false) : exec (.uncorrectedCodeword p) s = .next s :=
  if_pos (by simp [h])

/-- The frames dropped are a free number of the configuration. -/
theorem exec_uncorrectedCodeword (h : portCarries s p.toNat = true) :
    exec (.uncorrectedCodeword p) s = .next (tickEvent ⟨6, 2, (laneUid s p.toNat).toNat, 0xff, p.toNat, 0, 1⟩
      (drawn (setPort p.toNat { port s p.toNat with
        drops := modifyAt (· + BitVec.ofNat 64 (freeNumber 4 s)) 1 (port s p.toNat).drops } s))) :=
  if_neg (by simp [h])

theorem exec_linkUp (h : portUp s p.toNat = true) (ht : portUnderTest s p.toNat = false) :
    exec (.linkUp p) s = .next (setPort p.toNat { port s p.toNat with linkUp := true, retraining := false } s) :=
  if_neg (by simp [h, ht])

theorem exec_linkUp_none (h : portUp s p.toNat = false ∨ portUnderTest s p.toNat = true) : exec (.linkUp p) s = .next s :=
  if_pos (by simpa using h)

end

/-! ### LINK_LANE_DOWN and LINK_DOWN -/

section

variable {die peer : BitVec 2} {s : State}

theorem exec_linkLaneDown {g : BitVec 4} (hd : die ≠ peer) (hu : uid die.toNat 13 0 peer.toNat g.toNat ∉ s.lanesDown) :
    exec (.linkLaneDown die peer g) s = .next (emitErr ⟨8, 2, uid die.toNat 13 0 peer.toNat g.toNat, 0, 0, 0xff, true, true⟩
      { s with lanesDown := s.lanesDown ++ [uid die.toNat 13 0 peer.toNat g.toNat] }) :=
  if_neg (by simp [hd, hu])

theorem exec_linkLaneDown_none {g : BitVec 4} (h : die = peer ∨ uid die.toNat 13 0 peer.toNat g.toNat ∈ s.lanesDown) :
    exec (.linkLaneDown die peer g) s = .next s :=
  if_pos (by simpa using h)

theorem exec_linkDown (hd : die ≠ peer) (hn : linkNumber die.toNat peer.toNat ∉ s.linksDown) :
    exec (.linkDown die peer) s = .next (emitErr ⟨8, 3, linkUid die.toNat peer.toNat, 0, 0, 0xff, true, false⟩
      { s with linksDown := s.linksDown ++ [linkNumber die.toNat peer.toNat] }) :=
  if_neg (by simp [hd, hn])

theorem exec_linkDown_none (h : die = peer ∨ linkNumber die.toNat peer.toNat ∈ s.linksDown) :
    exec (.linkDown die peer) s = .next s :=
  if_pos (by simpa using h)

end

/-! ### The statement -/

/-- Settles O46: each event by whether its port, lane group or link was up before it. -/
theorem linksAndCodewords : Obligations.LinksAndCodewords := by
  unfold Obligations.LinksAndCodewords
  refine ⟨?ports, ?lanes, ?links⟩
  case ports =>
    intro s p
    refine ⟨fun h => ⟨exec_portLinkDown_silent h, exec_uncorrectedCodeword_silent h⟩, fun h => ⟨exec_portLinkDown h, ?down, ?codeword⟩,
      fun h ht => ⟨exec_linkUp h ht, ?up⟩, exec_linkUp_none⟩
    case down => exact (portCarries_setPortLink ..).trans (Bool.and_false _)
    case codeword => exact ⟨freeNumber 4 s, exec_uncorrectedCodeword h⟩
    case up => exact (portCarries_setPortLink ..).trans (by rw [h, Bool.and_true])
  case lanes =>
    rintro s die peer g u rfl
    exact ⟨exec_linkLaneDown, exec_linkLaneDown_none⟩
  case links =>
    rintro s die peer n rfl
    exact ⟨exec_linkDown, exec_linkDown_none⟩

end Sys2Proof.Machine
end

section
/-! SUPPORT. Received DATA, SIGNAL and MBX_REQ packets by what they find: the count of a receive stream, the queue that a packet reaches,
and what Goust takes at a doorbell (R380, R383, R399, R400, R402, R417). -/

namespace Sys2Proof.Machine

/-! ### The count of a receive stream (R400) -/

section

variable {e : RxStream} (hlater : e.later = [])

/-- Bytes at the committed count lie at the place 0. -/
theorem rxPlace_committed (e : RxStream) (n : Nat) : rxPlace e e.committed n = some 0 := by simp [rxPlace]

theorem rxSpan_committed (e : RxStream) (n : Nat) : rxSpan e e.committed n = (0, n) := by simp [rxSpan]

include hlater

/-- Bytes in order move the count by their number and open no gap. -/
theorem rxCount_committed (n : Nat) : rxCount e.committed n e = { e with committed := e.committed + BitVec.ofNat 48 n } := by
  obtain ⟨source, ext, stream, dest, committed, later, parts⟩ := e
  obtain rfl : later = [] := hlater
  rw [rxCount, rxSpan_committed]
  by_cases hn : n = 0 <;> simp [rxShift, addRange, hn]

theorem rxGaps_inOrder (hparts : e.parts = []) : rxGaps e = 0 := by simp [rxGaps, rxRanges, hlater, hparts]

/-- One part in order is no gap, but the range of its bytes. -/
theorem rxGaps_onePart (part : RxPart) : rxGaps { e with parts := [part] } ≤ 1 := by
  have hone : ∀ r : Nat × Nat, (([r].filter fun r => r.2 != 0).foldl (fun rs r => addRange r rs) []).length ≤ 1 := fun r => by
    cases hr : r.2 != 0 <;> simp [hr, addRange]
  unfold rxGaps rxRanges
  refine Nat.le_trans (List.length_filter_le ..) ?_
  dsimp only
  rw [hlater]
  exact hone _

/-- With no part held and no range past the count, no part has been seen. -/
theorem rxSeen_none (hparts : e.parts = []) (part : RxPart) : rxSeen e part = false := by simp [rxSeen, hlater, hparts]

/-! ### DATA in order (R399) -/

/-- A payload in order lands in the window at its position. -/
theorem dataWindow_inOrder (pt base : Nat) {size : Nat} {bs : Bytes} (s : State) (hparts : e.parts = []) (hbs : bs ≠ [])
    (hfit : e.committed.toNat % size + bs.length ≤ size) : dataWindow pt e base size e.committed bs s =
      setRx { e with committed := e.committed + BitVec.ofNat 48 bs.length } (writeFree s (base + e.committed.toNat % size) bs) := by
  have hlen : 0 < bs.length := List.length_pos_iff.2 hbs
  have hsize : max 1 size = size := by omega
  have hgaps : rxGaps { e with committed := e.committed + BitVec.ofNat 48 bs.length } = 0 := rxGaps_inOrder hlater hparts
  rw [dataWindow, hsize, rxCount_committed hlater, rxPlace_committed, hgaps, if_neg (by simpa using hfit)]

/-- A packet in one part, in order, for a queue with room is committed there. -/
theorem dataQueue_onePart {q : Nat} {p : KitPacket} {bs : Bytes} {x : Queue} (s : State) (hparts : e.parts = [])
    (hpos : p.header.pos = e.committed) (hfirst : p.header.first = true) (hlast : p.header.last = true) (hx : queue? s q = some x)
    (hfit : cellsFor bs.length ≤ x.limit) (hroom : queueRoom (setRx e s) q bs.length = true) : dataQueue p.port.toNat e q p bs s =
      setRx { e with committed := e.committed + BitVec.ofNat 48 bs.length }
        (commitPacket q (portUid p.port.toNat 2) p.port.toNat bs (setRx e s)) := by
  have hsame : { e with parts := [] } = e := by rw [← hparts]
  have hgaps : ∀ part, ¬ (rxGaps e < rxGaps { e with parts := [part] } ∧ 8 < rxGaps { e with parts := [part] }) := fun part => by
    have := rxGaps_onePart hlater part
    omega
  have hshort : ¬ x.limit < cellsFor bs.length := by omega
  have hfind : queue? (setRx e s) q = some x := hx
  unfold dataQueue
  -- no check drops the part, so the packet it makes is drained
  simp only [hparts, List.nil_append, List.map_singleton, List.foldl_cons, List.foldl_nil, Nat.zero_add, hpos, rxPlace_committed,
    rxSeen_none hlater hparts, hgaps, hx, Option.any_some, hshort, hsame, hroom, hfirst, hlast]
  simp [rxDrain, rxWhole, rxCommit, hsame, hfind, hshort, hroom, rxCount_committed hlater, hparts]

end

/-! ### DATA, SIGNAL and MBX_REQ as they are opened (R395, R400, R380, R402) -/

section

variable {s u : State} {p : KitPacket}

theorem exec_data_closed (h : receiveKit p 1 s = (none, u)) : exec (.data p) s = .next u := by
  show execData p s = _
  rw [execData, h]

theorem exec_signal_closed (h : receiveKit p 2 s = (none, u)) : exec (.signal p) s = .next u := by
  show execSignal p s = _
  rw [execSignal, h]

theorem exec_mbxReq_closed (h : receiveKit p 4 s = (none, u)) : exec (.mbxReq p) s = .next u := by
  show execMbxReq p s = _
  rw [execMbxReq, h]

variable {bs : Bytes}

section

variable (h : receiveKit p 1 s = (some bs, u))

include h

theorem exec_data_unset (he : u.rx.find? (rxIs p.header.srcDev.toNat p.header.extSrc p.header.endpoint.toNat) = none) :
    exec (.data p) s = .next (drop p.port.toNat 0xd u) := by
  show execData p s = _
  simp only [execData, h, he]

variable {e : RxStream} (he : u.rx.find? (rxIs p.header.srcDev.toNat p.header.extSrc p.header.endpoint.toNat) = some e)

include he

theorem exec_data_window {base size : Nat} (hd : e.dest = .window base size) :
    exec (.data p) s = .next (retryLoads (dataWindow p.port.toNat e base size p.header.pos bs u)) := by
  show execData p s = _
  simp only [execData, h, he, hd]

theorem exec_data_queue {q : Nat} (hd : e.dest = .queue q) :
    exec (.data p) s = .next (retryLoads (flowControl (dataQueue p.port.toNat e q p bs u))) := by
  show execData p s = _
  simp only [execData, h, he, hd]

end

/-- A SIGNAL to a cell nothing holds is dropped; one without a position is added at once; one with a position is taken through the control
ingress queue, where it has room (R380, R383). -/
theorem exec_signal (h : receiveKit p 2 s = (some bs, u)) : exec (.signal p) s = .next (
    if cellHeld u (fld 159 146 (leAt bs 0 32)) = false then drop p.port.toNat 0xd u
    else if bitAt (leAt bs 0 32) 145 = false then
      signalAdd (fld 159 146 (leAt bs 0 32)) (BitVec.ofNat 32 (fld 191 160 (leAt bs 0 32))).toInt u
    else if queueRoom u (controlIngress p.port.toNat) 64 = false then drop p.port.toNat 8 u
    else flowControl (admitRemotes
      (commitPacket (controlIngress p.port.toNat) (portUid p.port.toNat 2) p.port.toNat (kitHeaderBytes p.header ++ bs) u))) := by
  show execSignal p s = _
  simp only [execSignal, h, remoteOf, Bool.not_eq_true', apply_ite Host.Outcome.next]

section

variable {m : Nat} (h : receiveKit p 4 s = (some bs, u)) (hm : m = p.header.endpoint.toNat) (hlast : m ≤ 15)
  (hfirst : p.header.first = true) (hwhole : p.header.last = true) (hfit : cellsFor bs.length ≤ 64)

include h hm hlast hfirst hwhole hfit

/-- A whole request goes to its mailbox's request queue where that has room. -/
theorem exec_mbxReq_whole : exec (.mbxReq p) s = .next (
    if queueRoom (setLink m { mailboxLink u m with parts := none } u) (requestQueue m) bs.length = false then
      drop p.port.toNat 8 (setLink m { mailboxLink u m with parts := none } u)
    else flowControl (requestIn m p bs (setLink m { mailboxLink u m with parts := none } u))) := by
  subst hm
  have hmbox : ¬ 15 < p.header.endpoint.toNat := by omega
  show execMbxReq p s = _
  cases hroom : queueRoom (setLink p.header.endpoint.toNat { mailboxLink u p.header.endpoint.toNat with parts := none } u)
    (requestQueue p.header.endpoint.toNat) bs.length <;> simp [execMbxReq, h, hmbox, hfirst, hwhole, hfit, hroom]

end

/-- A request that its queue can hold is committed there, and a doorbell rings. -/
theorem requestIn_doorbell {m : Nat} (s : State) (hfit : cellsFor bs.length ≤ 64) (hbell : p.header.doorbell = true) :
    requestIn m p bs s = doorbell m (commitPacket (requestQueue m) (portUid p.port.toNat 2) m bs
      (setLink m ⟨none, p.source, p.header.srcDev, p.header.extSrc, p.port.toNat⟩ s)) := by
  rw [requestIn, if_neg (by omega), if_pos hbell]

end

/-! ### A doorbell (R417) -/

section

variable {s : State} {m : Nat} {x : Queue} (hup : goustUp s = true) (hx : queue? s (requestQueue m) = some x) (hp : x.pkts ≠ [])
  (hq : poolQuiet s (requestQueue m))

/-- Mailbox `m` with one more doorbell, and its request queue read to the end. -/
def doorbellRung (m : Nat) (x : Queue) (s : State) : State :=
  setQueue (requestQueue m) (freePackets x.pkts.length { x with read := (x.pkts.length, 0) })
    (setMbox m { mbox s m with doorbells := (mbox s m).doorbells + 1 } s)

include hup hx hp hq

/-- Goust takes what stands in the request queue, but for the repeats of commands it holds. -/
theorem doorbell_takes : doorbell m s =
    takeIn m ((x.pkts.map (·.bytes)).filter fun b => !repeatsHeld s m b) (doorbellRung m x s) := by
  have hfind : queue? (setMbox m { mbox s m with doorbells := (mbox s m).doorbells + 1 } s) (requestQueue m) = some x := hx
  have hrun : goustUp (setMbox m { mbox s m with doorbells := (mbox s m).doorbells + 1 } s) = true := hup
  have hquiet : poolQuiet (doorbellRung m x s) (requestQueue m) := poolQuiet_of_queueWaits hq rfl
  have hfull : x.pkts.isEmpty = false := by simpa using hp
  have hwake : wakeQueue (requestQueue m) (doorbellRung m x s) = doorbellRung m x s := wakeQueue_quiet hquiet
  unfold doorbell
  simp only [hfind, hrun, hfull, Bool.not_true, Bool.false_eq_true, if_false]
  rw [← doorbellRung, hwake]
  rfl

end

theorem queue?_doorbellRung (m : Nat) (x : Queue) (s : State) :
    ∃ y, queue? (doorbellRung m x s) (requestQueue m) = some y ∧ y.pkts = [] :=
  ⟨_, queue?_setQueue_same .., List.drop_length⟩

/-! ### The statement -/

/-- Settles O38: each packet by what it finds, and a doorbell by the request queue it empties. -/
theorem packetsTaken : Obligations.PacketsTaken := by
  unfold Obligations.PacketsTaken
  refine ⟨?closed, ?unset, ?window, ?queue, ?signal, ?request, ?doorbell⟩
  case closed => exact fun s u p => ⟨exec_data_closed, exec_signal_closed, exec_mbxReq_closed⟩
  case unset => exact fun s u p bs h => exec_data_unset h
  case window =>
    intro s u p bs e base size h he hd hpos hlater hparts hbs hfit
    rw [exec_data_window h he hd, hpos, dataWindow_inOrder hlater _ _ _ hparts hbs hfit]
  case queue =>
    intro s u p bs e q x h he hd hpos hlater hparts hfirst hlast hx hfit hroom
    rw [exec_data_queue h he hd, dataQueue_onePart hlater u hparts hpos hfirst hlast hx hfit hroom]
  case signal =>
    intro s u p bs h
    rw [exec_signal h]
    exact ⟨fun hcell => by rw [if_pos hcell], fun hcell hpos => by rw [if_neg (by simp [hcell]), if_pos hpos],
      fun hcell hpos hroom => by rw [if_neg (by simp [hcell]), if_neg (by simp [hpos]), if_neg (by simp [hroom])]⟩
  case request =>
    rintro s u v p bs m h hm hlast hfirst hwhole rfl hfit
    rw [exec_mbxReq_whole h hm hlast hfirst hwhole hfit]
    exact ⟨fun hroom hbell => by rw [if_neg (by simp [hroom]), requestIn_doorbell _ hfit hbell], fun hroom => by rw [if_pos hroom]⟩
  case doorbell =>
    intro s m x hup hx hp hq
    rw [doorbell_takes hup hx hp hq]
    have hbox : mbox (doorbellRung m x s) m = { mbox s m with doorbells := (mbox s m).doorbells + 1 } := mbox_setMbox_same ..
    refine ⟨rfl, queue?_doorbellRung .., congrArg (·.doorbells) hbox, congrArg (·.spurious) hbox, fun j hj => ?_⟩
    exact mbox_setMbox_other j m _ s hj

end Sys2Proof.Machine
end

section
/-! SUPPORT. How Goust takes a host command: what it does with a request before the command's body runs, and what an answer and an
acceptance leave of the mailbox and its response queue (R417 to R429). -/

namespace Sys2Proof.Machine

/-! ### A host command is a request of its opcode (R417) -/

theorem goustNow_of_not_starts {r : Req} {c : Cmd} {s : State} (kind : PendKind → Bool) (h : starts s r c = false) :
    goustNow r c kind s = goust r c s := by simp [goustNow, h]

/-- Every host command whose opcode is defined, while it does not start, is handled as one request of its opcode and its Done form.
SESSION_END, DEBUG_UNLOCK and the commands with a final response at once do more only where they start. -/
theorem exec_hostCmd {c : Instr} {r : Req} {op : Nat} (s : State) (h : hostCmd c = some (r, op))
    (hknown : ∀ r' o, c ≠ .unknownOpcode r' o) :
    ∃ cmd : Cmd, (starts s r cmd = false → exec c s = .next (goust r cmd s)) ∧ cmd.op = op ∧ cmd.pending = pends c := by
  cases c
  all_goals simp only [hostCmd, Option.some.injEq, Prod.mk.injEq, reduceCtorEq] at h
  all_goals obtain ⟨rfl, rfl⟩ := h
  case unknownOpcode => exact absurd rfl (hknown _ _)
  case powerStateSet => exact ⟨_, fun hs => congrArg _ (goustNow_of_not_starts _ hs), rfl, rfl⟩
  case reset => exact ⟨_, fun hs => congrArg _ (goustNow_of_not_starts _ hs), rfl, rfl⟩
  case sessionEnd => exact ⟨_, fun hs => congrArg _ (if_neg (by simp [hs])), rfl, rfl⟩
  case debugUnlock => exact ⟨_, fun hs => congrArg _ (if_neg (by simp [hs])), rfl, rfl⟩
  all_goals exact ⟨_, fun _ => rfl, rfl, rfl⟩

/-- A host command that Goust does not take as new is handled by its tag alone. -/
theorem exec_hostCmd_byTag {c : Instr} {r : Req} {op : Nat} {s : State} (h : hostCmd c = some (r, op))
    (hnew : (goustUp s && tagMatch s r == .fresh) = false) : ∃ fresh, exec c s = .next (byTag r op fresh s) := by
  by_cases hunknown : ∃ r' o, c = .unknownOpcode r' o
  · obtain ⟨r', o, rfl⟩ := hunknown
    simp only [hostCmd, Option.some.injEq, Prod.mk.injEq] at h
    obtain ⟨rfl, rfl⟩ := h
    exact ⟨_, rfl⟩
  · obtain ⟨cmd, hexec, rfl, -⟩ := exec_hostCmd s h fun r' o he => hunknown ⟨r', o, he⟩
    exact ⟨_, hexec (by rw [starts, hnew, Bool.false_and])⟩

/-- A host command that is taken as new and refused is answered, and nothing else happens. -/
theorem exec_hostCmd_refused {c : Instr} {r : Req} {op : Nat} {s : State} (h : hostCmd c = some (r, op))
    (hknown : ∀ r' o, c ≠ .unknownOpcode r' o) (hup : goustUp s = true) (hfresh : tagMatch s r = .fresh) :
    ∃ cmd : Cmd, cmd.op = op ∧ cmd.pending = pends c ∧
      ∀ st d, refusal s r cmd = some (st, d) → exec c s = .next (answer r op st d [] s) := by
  obtain ⟨cmd, hexec, rfl, hpend⟩ := exec_hostCmd s h hknown
  refine ⟨cmd, rfl, hpend, fun st d href => ?_⟩
  rw [hexec (by simp [starts, href])]
  simp [goust, byTag, hup, hfresh, href]

/-! ### A request by its tag (R427) -/

section

variable {r : Req} {op : Nat} {fresh : State → State} {s : State} {crc : BitVec 32} {resp : Bytes}

theorem byTag_down (h : goustUp s = false) : byTag r op fresh s = s := by simp [byTag, h]

theorem byTag_answered_same (hup : goustUp s = true) (h : tagMatch s r = .answered r.crc resp) :
    byTag r op fresh s = sendMessage r.mailbox.toNat (withReplay resp) s := by simp [byTag, hup, h]

theorem byTag_executing_same (hup : goustUp s = true) (h : tagMatch s r = .executing r.crc) : byTag r op fresh s = s := by
  simp [byTag, hup, h]

/-- Another message under a tag that is kept is a conflict. -/
theorem byTag_conflict (hup : goustUp s = true) (hcrc : crc ≠ r.crc)
    (h : tagMatch s r = .answered crc resp ∨ tagMatch s r = .executing crc) :
    byTag r op fresh s = sendMessage r.mailbox.toNat (message op St.tagConflict r.tag.toNat 0 true false []) s := by
  rcases h with h | h <;> simp [byTag, hup, h, hcrc]

/-- A pending or completed command with the tag is found. -/
theorem tagMatch_kept {k : Kept} (hk : k ∈ (mbox s r.mailbox.toNat).pend.map (·.kept) ++ (mbox s r.mailbox.toNat).done)
    (ht : k.tag = r.tag) : tagMatch s r ≠ .fresh := by
  cases hf : ((mbox s r.mailbox.toNat).pend.map (·.kept) ++ (mbox s r.mailbox.toNat).done).find? fun k => k.tag == r.tag with
  | none => exact absurd (List.find?_eq_none.1 hf k hk) (by simp [ht])
  | some x => simp [tagMatch, hf]

/-- What answers again is a kept command with the tag. -/
theorem kept_of_tagMatch (h : tagMatch s r = .answered crc resp) :
    ∃ k ∈ (mbox s r.mailbox.toNat).pend.map (·.kept) ++ (mbox s r.mailbox.toNat).done, k.tag = r.tag ∧ k.crc = crc ∧
      k.resp = resp := by
  cases hf : ((mbox s r.mailbox.toNat).pend.map (·.kept) ++ (mbox s r.mailbox.toNat).done).find? fun k => k.tag == r.tag with
  | none =>
    simp only [tagMatch, hf] at h
    split at h <;> cases h
  | some x =>
    simp only [tagMatch, hf, TagMatch.answered.injEq] at h
    exact ⟨x, List.mem_of_find?_eq_some hf, by simpa using List.find?_some hf, h⟩

end

/-! ### What refuses a command (Table 13-3, assumption log 11) -/

section

variable {s : State} {r : Req} {c : Cmd}

theorem refusal_length (h : r.length ≠ r.present) : refusal s r c = some (St.length, c.len) :=
  if_pos (.inl fun he => h (BitVec.eq_of_toNat_eq he))

theorem foldl_min_le (l : List Nat) (b : Nat) : l.foldl min b ≤ b := by
  induction l generalizing b with
  | nil => exact Nat.le_refl b
  | cons a l ih => exact Nat.le_trans (ih _) (Nat.min_le_left b a)

/-- A damaged field of the message is named, or one before it. -/
theorem badOffset_le {o : BitVec 16} (h : r.bad = some o) : ∃ d, badOffset r c = some d ∧ d ≤ o.toNat := by
  unfold badOffset
  rw [h]
  cases (c.bad.filter (·.2)).map fun e => e.1 + 32 with
  | nil => exact ⟨_, rfl, Nat.le_refl _⟩
  | cons f fs => exact ⟨_, rfl, foldl_min_le _ _⟩

/-- The checks of `refusal` in their order, each with what its failing or passing says. -/
theorem refusal_cases (s : State) (r : Req) (c : Cmd) :
    (∃ d, refusal s r c = some (St.length, d)) ∨ (∃ d, badOffset r c = some d ∧ refusal s r c = some (St.malformed, d)) ∨
    badOffset r c = none ∧ ((∃ d, refusal s r c = some (St.invalidUnit, d)) ∨ refusal s r c = some (St.powerState, 0) ∨
      powerAllows s c = true ∧ (refusal s r c = some (St.pendingFull, 0) ∨
        (c.pending && 16 ≤ (mbox s r.mailbox.toNat).pend.length) = false)) := by
  unfold refusal
  split
  · exact .inl ⟨_, rfl⟩
  · refine .inr ?_
    cases badOffset r c with
    | some o => exact .inl ⟨o, rfl, rfl⟩
    | none =>
      refine .inr ⟨rfl, ?_⟩
      cases c.units.find? fun u => !unitOk u.2 with
      | some u => exact .inl ⟨_, rfl⟩
      | none =>
        refine .inr ?_
        cases powerAllows s c with
        | false => exact .inl rfl
        | true =>
          refine .inr ⟨rfl, ?_⟩
          cases c.pending && 16 ≤ (mbox s r.mailbox.toNat).pend.length with
          | true => exact .inl rfl
          | false => exact .inr rfl

/-- A message with a damaged field is refused for its length or for a field no later than that one. -/
theorem refusal_damaged {o : BitVec 16} (h : r.bad = some o) :
    ∃ st d, (st = St.length ∨ st = St.malformed ∧ d ≤ o.toNat) ∧ refusal s r c = some (st, d) := by
  obtain ⟨d, hd, hle⟩ := badOffset_le (c := c) h
  rcases refusal_cases s r c with ⟨d', href⟩ | ⟨d', hd', href⟩ | ⟨hnone, -⟩
  · exact ⟨_, _, .inl rfl, href⟩
  · rw [hd, Option.some.injEq] at hd'
    exact ⟨_, _, .inr ⟨rfl, hd' ▸ hle⟩, href⟩
  · exact absurd (hd.symm.trans hnone) (by simp)

/-- The power state refuses a command unless an earlier check does. -/
theorem refusal_power (h : powerFits s c.op = false) :
    ∃ st d, [St.length, St.malformed, St.invalidUnit, St.powerState].contains st = true ∧ refusal s r c = some (st, d) := by
  have hpow : powerAllows s c = false := Bool.and_eq_false_iff.2 (.inl h)
  rcases refusal_cases s r c with ⟨d, href⟩ | ⟨d, -, href⟩ | ⟨-, ⟨d, href⟩ | href | ⟨hallow, -⟩⟩
  · exact ⟨_, _, rfl, href⟩
  · exact ⟨_, _, rfl, href⟩
  · exact ⟨_, _, rfl, href⟩
  · exact ⟨_, _, rfl, href⟩
  · exact absurd (hpow.symm.trans hallow) (by simp)

/-- A mailbox with 16 pending commands refuses one more unless an earlier check does. -/
theorem refusal_full (hc : c.pending = true) (h : 16 ≤ (mbox s r.mailbox.toNat).pend.length) :
    ∃ st d, [St.length, St.malformed, St.invalidUnit, St.powerState, St.pendingFull].contains st = true ∧
      refusal s r c = some (st, d) := by
  rcases refusal_cases s r c with ⟨d, href⟩ | ⟨d, -, href⟩ | ⟨-, ⟨d, href⟩ | href | ⟨-, href | hroom⟩⟩
  · exact ⟨_, _, rfl, href⟩
  · exact ⟨_, _, rfl, href⟩
  · exact ⟨_, _, rfl, href⟩
  · exact ⟨_, _, rfl, href⟩
  · exact ⟨_, _, rfl, href⟩
  · simp [hc, h] at hroom

end

/-! ### What a message, an answer and an acceptance leave (R419, R423, R427) -/

section

variable (m : Nat) (msg : Bytes) (s : State)

/-- A message goes to the tail of the response queue or behind those that wait for room there. -/
theorem sendMessage_cases :
    (∃ q, queue? s (responseQueue m) = some q ∧ sendMessage m msg s = enqueue (responseQueue m) q m msg s) ∨
    sendMessage m msg s = setMbox m { mbox s m with outbox := (mbox s m).outbox ++ [msg] } s := by
  unfold sendMessage
  cases queue? s (responseQueue m) with
  | none => exact .inr rfl
  | some q =>
    dsimp only
    split
    · exact .inl ⟨q, rfl, rfl⟩
    · exact .inr rfl

theorem mbox_sendMessage_other {k : Nat} (hk : k ≠ m) : mbox (sendMessage m msg s) k = mbox s k := by
  rcases sendMessage_cases m msg s with ⟨q, -, hsend⟩ | hsend <;> rw [hsend]
  · rfl
  · exact mbox_setMbox_other k m _ s hk

theorem mbox_sendMessage_pend : (mbox (sendMessage m msg s) m).pend = (mbox s m).pend := by
  rcases sendMessage_cases m msg s with ⟨q, -, hsend⟩ | hsend <;> rw [hsend]
  · rfl
  · rw [mbox_setMbox_same]

theorem mbox_sendMessage_done : (mbox (sendMessage m msg s) m).done = (mbox s m).done := by
  rcases sendMessage_cases m msg s with ⟨q, -, hsend⟩ | hsend <;> rw [hsend]
  · rfl
  · rw [mbox_setMbox_same]

theorem queue?_sendMessage_other {q : Nat} (hq : q ≠ responseQueue m) : queue? (sendMessage m msg s) q = queue? s q := by
  rcases sendMessage_cases m msg s with ⟨x, -, hsend⟩ | hsend <;> rw [hsend]
  · exact queue?_setQueue_other q _ _ _ hq
  · rfl

/-- The message is the last of those that wait or the last packet of the queue. -/
theorem sendMessage_last : (mbox (sendMessage m msg s) m).outbox.getLast? = some msg ∨
    ∃ x p, queue? (sendMessage m msg s) (responseQueue m) = some x ∧ x.pkts.getLast? = some p ∧ p.bytes = msg := by
  rcases sendMessage_cases m msg s with ⟨q, -, hsend⟩ | hsend <;> rw [hsend]
  · exact .inr ⟨_, _, queue?_setQueue_same .., List.getLast?_concat .., rfl⟩
  · exact .inl (by simp)

end

section

variable (r : Req) (op : Nat) (s : State)

/-- An answer is kept as the newest of at most 16 completed commands. -/
theorem mbox_answer_done (status detail : Nat) (body : Bytes) : (mbox (answer r op status detail body s) r.mailbox.toNat).done =
    ({ tag := r.tag, crc := r.crc, op := op, resp := message op status r.tag.toNat detail true false body } ::
      (mbox s r.mailbox.toNat).done).take 16 := by
  simp only [answer, keepDone, mbox_setMbox_same, mbox_sendMessage_done]

theorem answer_answered (status detail : Nat) (body : Bytes) :
    answered (answer r op status detail body s) r op status detail body := by
  rw [answered, mbox_answer_done, List.take_succ_cons, List.head?_cons]

theorem mbox_answer_pend (status detail : Nat) (body : Bytes) :
    (mbox (answer r op status detail body s) r.mailbox.toNat).pend = (mbox s r.mailbox.toNat).pend := by
  simp only [answer, keepDone, mbox_setMbox_same, mbox_sendMessage_pend]

/-- The response is the last message on its way to the client. -/
theorem answer_last (status detail : Nat) (body : Bytes) :
    (mbox (answer r op status detail body s) r.mailbox.toNat).outbox.getLast? =
        some (message op status r.tag.toNat detail true false body) ∨
      ∃ x p, queue? (answer r op status detail body s) (responseQueue r.mailbox.toNat) = some x ∧ x.pkts.getLast? = some p ∧
        p.bytes = message op status r.tag.toNat detail true false body := by
  simp only [answer, keepDone, mbox_setMbox_same]
  exact sendMessage_last ..

/-- What only sends on a mailbox and rewrites that mailbox touches no more than an answer does. -/
theorem onlyAnswered_of_setMbox (m : Nat) (msg : Bytes) (b : Mailbox) : onlyAnswered s (setMbox m b (sendMessage m msg s)) m :=
  ⟨(Does.next (T := [.mboxes, .queues, .queueWaits, .freeCtr]) (setMbox_does ..) (by decide)
      (.mono (sendMessage_does ..) (by decide))).eq_mix,
    fun k hk => (mbox_setMbox_other k m b _ hk).trans (mbox_sendMessage_other m msg s hk),
    fun _ hq => queue?_sendMessage_other m msg s hq⟩

theorem answer_onlyAnswered (status detail : Nat) (body : Bytes) :
    onlyAnswered s (answer r op status detail body s) r.mailbox.toNat := onlyAnswered_of_setMbox ..

theorem acceptCmd_onlyAnswered (kind : PendKind) (body : Bytes) :
    onlyAnswered s (acceptCmd r op kind body s) r.mailbox.toNat := onlyAnswered_of_setMbox ..

theorem mbox_acceptCmd_done (kind : PendKind) (body : Bytes) :
    (mbox (acceptCmd r op kind body s) r.mailbox.toNat).done = (mbox s r.mailbox.toNat).done := by
  simp only [acceptCmd, mbox_setMbox_same, mbox_sendMessage_done]

/-- An accepted command is the last of those pending, with its first response. -/
theorem mbox_acceptCmd_pend (kind : PendKind) (body : Bytes) :
    (mbox (acceptCmd r op kind body s) r.mailbox.toNat).pend = (mbox s r.mailbox.toNat).pend ++
      [{ kept := { tag := r.tag, crc := r.crc, op := op, resp := message op St.ok r.tag.toNat 0 false false body }, kind := kind }] := by
  simp only [acceptCmd, mbox_setMbox_same, mbox_sendMessage_pend]

end

/-! ### The statements -/

/-- Settles O7: an answer and an acceptance are a message sent and one mailbox rewritten. -/
theorem answersKeepTheRest : Obligations.AnswersKeepTheRest := by
  unfold Obligations.AnswersKeepTheRest
  exact ⟨fun r op status detail body s => ⟨answer_answered .., answer_onlyAnswered .., mbox_answer_pend .., answer_last ..⟩,
    fun r op kind body s => ⟨acceptCmd_onlyAnswered .., mbox_acceptCmd_done .., mbox_acceptCmd_pend ..⟩⟩

/-- Settles O8: a request whose tag is kept goes by its tag alone, which finds a kept command. -/
theorem duplicateRequests : Obligations.DuplicateRequests := by
  unfold Obligations.DuplicateRequests
  intro c r op s hc hup
  have hknown : tagMatch s r ≠ .fresh → ∃ fresh, exec c s = .next (byTag r op fresh s) := fun h =>
    exec_hostCmd_byTag hc (by simp [h])
  refine ⟨?again, ?executing, ?conflict, ?conflictExecuting, fun k => tagMatch_kept, fun crc resp => kept_of_tagMatch,
    fun status detail body => mbox_answer_done ..⟩
  case again =>
    intro resp h
    obtain ⟨fresh, hexec⟩ := hknown (by simp [h])
    rw [hexec, byTag_answered_same hup h]
  case executing =>
    intro h
    obtain ⟨fresh, hexec⟩ := hknown (by simp [h])
    rw [hexec, byTag_executing_same hup h]
  case conflict =>
    intro crc resp hcrc h
    obtain ⟨fresh, hexec⟩ := hknown (by simp [h])
    rw [hexec, byTag_conflict hup hcrc (.inl h)]
  case conflictExecuting =>
    intro crc hcrc h
    obtain ⟨fresh, hexec⟩ := hknown (by simp [h])
    rw [hexec, byTag_conflict (resp := []) hup hcrc (.inr h)]

/-- Settles O9: while Goust runs, what a new command is refused for is the first check that fails. -/
theorem refusalsChangeNothing : Obligations.RefusalsChangeNothing := by
  unfold Obligations.RefusalsChangeNothing
  intro c r op s hc
  refine ⟨fun hdown => ?down, fun hup hfresh => ⟨fun hknown hlen => ?length, fun o hknown hbad => ?damaged, fun hknown hpow => ?power,
    fun hpend hfull => ?full⟩⟩
  case down =>
    obtain ⟨fresh, hexec⟩ := exec_hostCmd_byTag (s := s) hc (by simp [hdown])
    rw [hexec, byTag_down hdown]
  case length =>
    obtain ⟨cmd, -, -, hexec⟩ := exec_hostCmd_refused hc hknown hup hfresh
    exact ⟨_, hexec _ _ (refusal_length hlen)⟩
  case damaged =>
    obtain ⟨cmd, -, -, hexec⟩ := exec_hostCmd_refused hc hknown hup hfresh
    obtain ⟨st, d, hst, href⟩ := refusal_damaged hbad
    exact ⟨st, d, hst, hexec _ _ href⟩
  case power =>
    obtain ⟨cmd, hop, -, hexec⟩ := exec_hostCmd_refused hc hknown hup hfresh
    obtain ⟨st, d, hst, href⟩ := refusal_power (hop ▸ hpow)
    exact ⟨st, d, hst, hexec _ _ href⟩
  case full =>
    have hknown : ∀ r' o, c ≠ .unknownOpcode r' o := fun r' o he => by simp [he, pends] at hpend
    obtain ⟨cmd, -, hform, hexec⟩ := exec_hostCmd_refused hc hknown hup hfresh
    obtain ⟨st, d, hst, href⟩ := refusal_full (hform.trans hpend) hfull
    exact ⟨st, d, hst, hexec _ _ href⟩

/-- Settles O2: with nothing waiting a step is `idleStep`, and Goust picks only from what it has taken while it runs. -/
theorem emptyQueueStep : Obligations.EmptyQueueStep := by
  unfold Obligations.EmptyQueueStep
  intro s hempty
  have hstep : step s = idleStep s := by simp only [step, hempty]
  have hidle : nextRequest s = none → step s = .next s := fun h => by simp only [hstep, idleStep, h]
  refine ⟨hidle, fun c u h => ?_, fun hdown => hidle ?_, fun htaken => hidle ?_⟩
  · simp only [hstep, idleStep, h]
  · simp [nextRequest, hdown]
  · simp [nextRequest, htaken, pickTaken]

end Sys2Proof.Machine
end

section
/-! SUPPORT. The Seal: digests and signed reports, key slots, opens and handshakes, and the messages a handshake sends (R441 to R457). -/

namespace Sys2Proof.Machine

/-! ### Byte strings of a known length -/

@[simp] theorem fit_length (n : Nat) (bs : Bytes) : (fit n bs).length = n := by
  simp only [fit, zeros, List.length_append, List.length_take, List.length_replicate]; omega

theorem be_length (n v : Nat) : (be n v).length = n := by rw [be, List.length_reverse, le_length]

/-- A block keeps the eight chaining words of SHA-384. -/
theorem sha384Block_length {ws : List Nat} (blk : Bytes) (h : ws.length = 8) : (sha384Block ws blk).length = 8 := by
  simp [sha384Block, h]

theorem flatMap_be_length (n : Nat) (l : List Nat) : (l.flatMap (be n)).length = n * l.length := by
  induction l with
  | nil => rfl
  | cons v l ih => rw [List.flatMap_cons, List.length_append, be_length, ih, List.length_cons, Nat.mul_succ, Nat.add_comm]

theorem sha384_length (m : Bytes) : (sha384 m).length = 48 := by
  have hwords : ∀ (l : List Bytes) (ws : List Nat), ws.length = 8 → (l.foldl sha384Block ws).length = 8 := by
    intro l
    induction l with
    | nil => exact fun ws h => h
    | cons b l ih => exact fun ws h => ih _ (sha384Block_length b h)
  rw [sha384, List.length_take, flatMap_be_length, hwords _ _ rfl]
  rfl

theorem finishMac_length (h : Handshake) (finish : Bytes) : (finishMac h finish).length = 48 := sha384_length _

/-! ### A signed report (R445, Table 14-5) -/

/-- The stated fields of a report's body: magic, serial number, counter, measurement digest and binding. -/
theorem reportBody_fields (kind slot : Nat) (binding : Bytes) (s : State) : ∃ w, reportBody kind slot binding s = le 176 w ∧
    fld 31 0 w = 0x5254414b ∧ fld 127 64 w = s.sec.fuses.serial.toNat ∧ fld 319 256 w = s.sec.arCounter.toNat ∧
    fld 703 320 w = ofLe (mrDigest s) % 2 ^ 384 ∧ fld 1087 704 w = ofLe binding % 2 ^ 384 := by
  refine ⟨_, rfl, (fld_pack_low _ _ _ _ rfl).trans rfl, ?_⟩
  simp (disch := decide) only [fld_pack_high, fld_pack_low, Nat.reduceSub, BitVec.toNat_mod_cancel, and_self]

/-- The report of the next number counted. -/
def reportCounted (s : State) : State := { s with sec := { s.sec with arCounter := s.sec.arCounter + 1 } }

/-- A signed report is its body, which counts it, and the two signatures. -/
theorem signReport_fields (kind slot : Nat) (binding : Bytes) (s : State) : ∃ w ed ml,
    (signReport kind slot binding s).1 = le 176 w ++ ed ++ ml ∧ fld 31 0 w = 0x5254414b ∧ fld 127 64 w = s.sec.fuses.serial.toNat ∧
    fld 319 256 w = (s.sec.arCounter + 1).toNat ∧ fld 703 320 w = ofLe (mrDigest s) % 2 ^ 384 ∧ fld 1087 704 w = ofLe binding % 2 ^ 384 ∧
    List.length ed = 64 ∧ List.length ml = 3309 := by
  obtain ⟨w, hbody, hmagic, hserial, hctr, hdigest, hbinding⟩ := reportBody_fields kind slot binding (reportCounted s)
  refine ⟨w, fit 64 (Config.ed25519Sign (identityEd s) (reportBody kind slot binding (reportCounted s))),
    fit 3309 (Config.mldsaSign (identityMldsa s) (ascii "KF384-attest") (reportBody kind slot binding (reportCounted s)) s.freeCtr),
    ?_, hmagic, hserial, hctr, hdigest, hbinding, fit_length .., fit_length ..⟩
  rw [← hbody]
  rfl

/-! ### Key slots -/

section

variable {α : Type} (f : α → Nat) (n : Nat) (l : List α)

/-- Without the entries of one number a list has none of it. -/
theorem find?_filter_number_same : (l.filter fun x => f x != n).find? (fun x => f x == n) = none := by
  simp [List.find?_eq_none]

/-- The entries of another number are still found. -/
theorem find?_filter_number_other {j : Nat} (h : j ≠ n) :
    (l.filter fun x => f x != n).find? (fun x => f x == j) = l.find? (fun x => f x == j) := by
  rw [List.find?_filter]
  congr 1
  funext x
  by_cases hx : f x = j <;> simp [hx, h]

end

@[simp] theorem keySlot_freeCtr (c : Nat) (s : State) (n : Nat) : keySlot { s with freeCtr := c } n = keySlot s n := by simp only [keySlot]

/-- A slot loaded after a handshake holds its keys and nothing of a rekey (R455). -/
theorem keySlot_loadSlot_same (h : Handshake) (s : State) : keySlot (loadSlot h s) h.slot =
    some { num := h.slot, client := h.client, peer := h.peer, keys := slotKeys h.prk h.thr h.initiator,
           rPrev := slotKey h.prk "KIT v1 rekey" h.thr 48, next := none } := by
  refine (List.find?_append ..).trans ?_
  rw [find?_filter_number_same KeySlot.num]
  simp

/-- The keys of slot 0 changed by `f`. -/
def mapSession (f : KeySlot → KeySlot) (s : State) : State :=
  { s with sec := { s.sec with slots := s.sec.slots.map fun x => if x.num = 0 then f x else x } }

section

variable {f : KeySlot → KeySlot} (hf : ∀ x, x.num = 0 → (f x).num = 0) (s : State)

include hf

theorem keySlot_mapSession_same : keySlot (mapSession f s) 0 = (keySlot s 0).map f := by
  unfold keySlot mapSession
  dsimp only
  induction s.sec.slots with
  | nil => rfl
  | cons x l ih =>
    by_cases hx : x.num = 0
    · simp [hx, hf]
    · simpa [hx] using ih

theorem keySlot_mapSession_other {j : Nat} (hj : j ≠ 0) : keySlot (mapSession f s) j = keySlot s j := by
  unfold keySlot mapSession
  dsimp only
  induction s.sec.slots with
  | nil => rfl
  | cons x l ih =>
    by_cases hx : x.num = 0
    · simpa [hx, hf, hj.symm] using ih
    · cases hxj : x.num == j <;> simp [hx, hxj, ih]

end

/-! ### Opens and handshakes -/

/-- The open of a slot gone. -/
def openEnded (slot : Nat) (s : State) : State :=
  { s with sec := { s.sec with opens := s.sec.opens.filter fun o => o.num != slot } }

theorem openOf_openEnded (slot : Nat) (s : State) : openOf (openEnded slot s) slot = none := find?_filter_number_same OpenSlot.num ..

theorem failOpen_eq (slot detail : Nat) (s : State) :
    failOpen slot detail s = finalAnswer (fun k => k == .keyslot slot) St.keySlot detail [] (openEnded slot s) := rfl

theorem openOf_loadSlot (h : Handshake) (s : State) : openOf (loadSlot h s) h.slot = none := find?_filter_number_same OpenSlot.num ..

theorem id_ne_of_mem_loadSlot {h x : Handshake} {s : State} (hx : x ∈ (loadSlot h s).sec.handshakes) : x.id ≠ h.id := by
  simpa using (List.mem_filter.1 hx).2

theorem id_ne_of_mem_dropHandshake {id : BitVec 64} {x : Handshake} {s : State} (hx : x ∈ (dropHandshake id s).sec.handshakes) :
    x.id ≠ id := by simpa using (List.mem_filter.1 hx).2

@[simp] theorem sendAbort_sec (dest : HsTo) (id : BitVec 64) (slot reason : Nat) (s : State) : (sendAbort dest id slot reason s).sec = s.sec :=
  (sendAbort_does ..).frame .sec (by decide)

@[simp] theorem sendAbort_clk (dest : HsTo) (id : BitVec 64) (slot reason : Nat) (s : State) : (sendAbort dest id slot reason s).clk = s.clk :=
  (sendAbort_does ..).frame .clk (by decide)

@[simp] theorem noteAbort_sec (reason slot : Nat) (s : State) : (noteAbort reason slot s).sec = s.sec :=
  (noteAbort_does ..).frame .sec (by decide)

/-- A handshake ended by an ABORT of this device, and its open with it. -/
def handshakeAborted (h : Handshake) (reason : Nat) (s : State) : State :=
  openEnded h.slot (dropHandshake h.id (sendAbort (hsTo h) h.id h.slot reason s))

theorem abortHandshake_eq (h : Handshake) (reason detail : Nat) (s : State) : abortHandshake h reason detail s =
    finalAnswer (fun k => k == .keyslot h.slot) St.keySlot detail [] (handshakeAborted h reason s) := rfl

/-- An aborted handshake leaves neither itself nor its open, the key slots and the clock as they were. -/
theorem handshakeAborted_leaves (h : Handshake) (reason : Nat) (s : State) :
    openOf (handshakeAborted h reason s) h.slot = none ∧ (∀ x ∈ (handshakeAborted h reason s).sec.handshakes, x.id ≠ h.id) ∧
      (handshakeAborted h reason s).sec.slots = s.sec.slots ∧ (handshakeAborted h reason s).clk = s.clk :=
  ⟨openOf_openEnded .., fun _ hx => id_ne_of_mem_dropHandshake hx, by
    simp only [handshakeAborted, openEnded, dropHandshake, sendAbort_sec], sendAbort_clk ..⟩

/-! ### A message sent (R446) -/

/-- The fragments of a message, each with its number and its bytes. -/
def hsFragments (body : Bytes) : List (Nat × Bytes) :=
  let ps := if body.isEmpty then [[]] else pieces hsChunk body
  (List.range ps.length).zip ps

/-- The payload of a fragment (Table 14-6). -/
def hsPayload (id : BitVec 64) (slot type : Nat) (body : Bytes) (n : Nat) (e : Nat × Bytes) : Bytes :=
  le 16 (pack [(8, type), (8, 0), (16, body.length), (8, e.1), (8, n), (16, slot), (64, id.toNat)]) ++ e.2

theorem hsFragments_ne_nil (body : Bytes) : hsFragments body ≠ [] := by
  cases body with
  | nil => exact List.cons_ne_nil _ _
  | cons b bs => simp [hsFragments, pieces, piecesAux_cons]

theorem sendHs_out_length (dest : HsTo) (id : BitVec 64) (slot type : Nat) (body : Bytes) (s : State) :
    (port s dest.port).out.length < (port (sendHs dest id slot type body s) dest.port).out.length := by
  have hout := foldl_enqueueKit_out (p := dest.port) (c := .control) (exch := false) (dst := dest.addr)
    (hd := fun s e => kitHeader s 12 0xffff dest.num dest.ext 0
      (hsPayload id slot type body (if body.isEmpty then [[]] else pieces hsChunk body).length e).length 0)
    (pl := hsPayload id slot type body (if body.isEmpty then [[]] else pieces hsChunk body).length)
    (fun _ _ _ => rfl) (hsFragments body) s
  have hgrown : (port (sendHs dest id slot type body s) dest.port).out.length = (port s dest.port).out.length + (hsFragments body).length :=
    (congrArg List.length hout).trans (by rw [List.length_append, List.length_map])
  have := List.length_pos_iff.2 (hsFragments_ne_nil body)
  omega

/-- A message sent moves nothing but the ports. -/
theorem sendHs_ports (dest : HsTo) (id : BitVec 64) (slot type : Nat) (body : Bytes) (s : State) :
    ∃ ps, sendHs dest id slot type body s = { s with ports := ps } := ⟨_, (sendHs_does ..).eq_mix⟩

end Sys2Proof.Machine
end

section
/-! SUPPORT. The initiator's handshake: REPLY, CONFIRM and ABORT by the handshake they meet, the two timeouts and the repeated HELLO (R446 to
R455). -/

namespace Sys2Proof.Machine

/-! ### Messages received whole -/

section

variable {s u v : State} {p : KitPacket} {f : HsFragment} {b : Bytes} {h : Handshake} {type : Nat}

/-- A handshake whose FINISH carries its MAC over a report (R448). -/
def withFinish (x : Handshake) (report : Bytes) : Handshake := { x with finish := finishMac x (zeros 48 ++ report) ++ report }

theorem finishMac_withFinish (x : Handshake) (report finish : Bytes) : finishMac (withFinish x report) finish = finishMac x finish := by
  simp only [finishMac, withFinish]

theorem withFinish_finish (x : Handshake) (report : Bytes) : (withFinish x report).finish.take 48 =
    finishMac (withFinish x report) (zeros 48 ++ (withFinish x report).finish.drop 48) := by
  have hlen := finishMac_length x (zeros 48 ++ report)
  rw [finishMac_withFinish]
  simp only [withFinish, List.take_left' hlen, List.drop_left' hlen]

/-- The PRK an initiator derives from a REPLY (R448, R455). -/
def replyPrk (h : Handshake) (b : Bytes) : Bytes :=
  hkdfExtract (slice h.hello 8 32 ++ b.take 32) (fit 32 (Config.mlkemDecap (h.priv.drop 32) (slice b 64 1088)) ++
    fit 32 (Config.x25519 (h.priv.take 32) (slice b 32 32)) ++ zeros 32)

/-- The handshake after a REPLY that passes: its keys derived, its ephemeral values erased and its FINISH made (R448, R450, R453). -/
def repliedHs (h : Handshake) (b : Bytes) (s : State) : Handshake :=
  withFinish { h with reply := b, prk := replyPrk h b, thr := thR h.hello b, priv := [], state := 1 }
    (signReport 2 h.slot (thR h.hello b) s).1

/-- A REPLY that passes taken: a report signed and the handshake gone on, the FINISH not yet sent. -/
def replyTaken (h : Handshake) (b : Bytes) (s : State) : State :=
  let t := (signReport 2 h.slot (thR h.hello b) s).2
  { t with sec := { t.sec with handshakes := t.sec.handshakes.map fun x => if x.id = h.id then repliedHs h b s else x } }

theorem exec_reply {o : OpenSlot} (hp : receiveHs p 4 s = (some f, u)) (hb : reassemble f u = (some b, v))
    (hh : v.sec.handshakes.find? (fun h => h.id == f.id && h.initiator && h.state == 0) = some h) (hlen : b.length = 4701)
    (ho : openOf v h.slot = some o) (hreport : reportOk o (b.drop 1152) (thB h.hello b) = true)
    (hshare : fit 32 (Config.x25519 (h.priv.take 32) (slice b 32 32)) ≠ zeros 32) :
    exec (.reply p) s = .next (sendHs (hsTo h) h.id h.slot 5 (repliedHs h b v).finish (replyTaken h b v)) := by
  show execReply p s = _
  simp only [execReply, hp, hb, hh, hlen, ho, hreport, hshare, Option.any_some, Bool.not_true, ne_eq, not_true_eq_false, Bool.false_eq_true,
    if_false, repliedHs, withFinish, replyPrk, replyTaken, hsTo]

theorem exec_confirm (hp : receiveHs p 6 s = (some f, u)) (hb : reassemble f u = (some b, v))
    (hh : v.sec.handshakes.find? (fun h => h.id == f.id && h.initiator && h.state == 1) = some h) :
    exec (.confirm p) s = .next (if b = confirmMac h h.finish
      then finalAnswer (fun k => k == .keyslot h.slot) St.ok 0 [] (loadSlot h v) else abortHandshake h 5 2 v) := by
  show execConfirm p s = _
  simp only [execConfirm, hp, hb, hh, ne_eq, ite_not]
  split <;> rfl

theorem exec_abort (hp : receiveHs p 7 s = (some f, u)) (hb : reassemble f u = (some b, v))
    (hh : v.sec.handshakes.find? (fun h => h.id == f.id) = some h) :
    exec (.abort p) s = .next (failOpen h.slot 3 (dropHandshake h.id (noteAbort (leAt b 0 2) h.slot v))) := by
  show execAbort p s = _
  simp only [execAbort, hp, hb, hh]

end

/-! ### Timeouts and repeats -/

theorem exec_handshakeFragmentTimeout {s : State} {id : BitVec 64} {type : Byte} {e : HsParts}
    (h : s.sec.parts.find? (fun x => x.id == id && x.type == type.toNat) = some e) :
    exec (.handshakeFragmentTimeout id type) s = .next (advanceTo (e.since + 190000000)
      { s with sec := { s.sec with parts := s.sec.parts.filter fun x => !(x.id == id && x.type == type.toNat) } }) := by
  show execHandshakeFragmentTimeout id type s = _
  simp only [execHandshakeFragmentTimeout, h]

theorem exec_handshakeTimeout {s : State} {slot : BitVec 12} {h : Handshake}
    (hh : s.sec.handshakes.find? (fun h => h.slot == slot.toNat && !h.initiator) = some h) :
    exec (.handshakeTimeout slot) s = .next (abortHandshake h 6 1 (advanceTo (h.since + 1900000000) s)) := by
  show execHandshakeTimeout slot s = _
  simp only [execHandshakeTimeout, hh]

/-- A handshake whose last HELLO left in the present cycle. -/
def helloAgain (h : Handshake) (s : State) : State :=
  { s with sec := { s.sec with handshakes := s.sec.handshakes.map fun x => if x.id = h.id then { x with since := s.clk.cycle } else x } }

theorem helloAgain_ids (h : Handshake) (s : State) : (helloAgain h s).sec.handshakes.map (·.id) = s.sec.handshakes.map (·.id) := by
  simp only [helloAgain, List.map_map]
  refine List.map_congr_left fun x _ => ?_
  by_cases hx : x.id = h.id <;> simp [hx]

theorem exec_helloRepeat {s : State} {slot : BitVec 12} {h : Handshake}
    (hh : s.sec.handshakes.find? (fun h => h.slot == slot.toNat && h.initiator) = some h) :
    exec (.helloRepeat slot) s = .next (if h.state = 0 then sendHs (hsTo h) h.id h.slot 3 h.hello
      (helloAgain h (advanceTo (h.since + 190000000) s)) else s) := by
  show execHelloRepeat slot s = _
  simp only [execHelloRepeat, hh, ne_eq, ite_not]
  split <;> rfl

/-! ### The statement -/

/-- Settles O37: each message by the handshake it meets, then the timeouts and the repeat. -/
theorem handshakeInitiator : Obligations.HandshakeInitiator := by
  unfold Obligations.HandshakeInitiator
  refine ⟨?reply, ?confirm, ?abort, ?fragment, ?timeout, ?again, ?answered⟩
  case reply =>
    intro s u v p f b h o hp hb hh hlen ho hreport hshare
    have hout := sendHs_out_length (hsTo h) h.id h.slot 5 (repliedHs h b v).finish (replyTaken h b v)
    obtain ⟨ps, hsent⟩ := sendHs_ports (hsTo h) h.id h.slot 5 (repliedHs h b v).finish (replyTaken h b v)
    rw [exec_reply hp hb hh hlen ho hreport hshare, hsent]
    rw [hsent] at hout
    exact ⟨_, repliedHs h b v, rfl, List.mem_map.2 ⟨h, List.mem_of_find?_eq_some hh, if_pos rfl⟩, rfl, rfl, rfl, rfl, rfl,
      withFinish_finish .., List.length_map .., rfl, hout⟩
  case confirm =>
    intro s u v p f b h hp hb hh
    have hinit : h.initiator = true := by
      have := List.find?_some hh
      simp only [Bool.and_eq_true] at this
      exact this.1.2
    rw [exec_confirm hp hb hh]
    refine ⟨fun hmac => ?_, fun hmac => ?_⟩
    · rw [if_pos hmac]
      refine ⟨_, _, rfl, keySlot_loadSlot_same .., rfl, ?_, ?_, openOf_loadSlot .., fun x hx => id_ne_of_mem_loadSlot hx⟩ <;>
        simp only [slotKeys, hinit, if_true]
    · rw [if_neg hmac, abortHandshake_eq]
      obtain ⟨hopen, -, hslots, -⟩ := handshakeAborted_leaves h 5 v
      exact ⟨_, rfl, hslots, hopen⟩
  case abort =>
    intro s u v p f b h hp hb hh
    rw [exec_abort hp hb hh, failOpen_eq]
    exact ⟨_, rfl, openOf_openEnded .., fun x hx => id_ne_of_mem_dropHandshake hx,
      by simp only [openEnded, dropHandshake, noteAbort_sec]⟩
  case fragment =>
    intro s id type e he
    have hkept : ∀ x : HsParts, (!(x.id == id && x.type == type.toNat)) = true ↔ ¬ (x.id = id ∧ x.type = type.toNat) := fun x => by
      rw [Bool.not_eq_true', Bool.eq_false_iff, ne_eq, Bool.and_eq_true, beq_iff_eq, beq_iff_eq]
    exact ⟨_, exec_handshakeFragmentTimeout he, fun x hx => (hkept x).1 (List.mem_filter.1 hx).2,
      fun x hx hne => List.mem_filter.2 ⟨hx, (hkept x).2 hne⟩, rfl, rfl⟩
  case timeout =>
    intro s slot h hh
    have hslot : h.slot = slot.toNat := by
      have := List.find?_some hh
      simp only [Bool.and_eq_true, beq_iff_eq] at this
      exact this.1
    rw [exec_handshakeTimeout hh, abortHandshake_eq, ← hslot]
    obtain ⟨hopen, hgone, -, hclk⟩ := handshakeAborted_leaves h 6 (advanceTo (h.since + 1900000000) s)
    exact ⟨_, rfl, hgone, hopen, congrArg Clock.cycle hclk⟩
  case again =>
    intro s slot h hh h0
    have hout := sendHs_out_length (hsTo h) h.id h.slot 3 h.hello (helloAgain h (advanceTo (h.since + 190000000) s))
    obtain ⟨ps, hsent⟩ := sendHs_ports (hsTo h) h.id h.slot 3 h.hello (helloAgain h (advanceTo (h.since + 190000000) s))
    rw [exec_helloRepeat hh, if_pos h0, hsent]
    rw [hsent] at hout
    exact ⟨_, rfl, rfl, hout, helloAgain_ids .., rfl⟩
  case answered =>
    intro s slot h hh h1
    rw [exec_helloRepeat hh, if_neg h1]

end Sys2Proof.Machine
end

section
/-! SUPPORT. ATTEST, KEYSLOT_OPEN and SESSION_REKEY by what they find, and the two timeouts that end an open and a rekey (R445, R454, R456). -/

namespace Sys2Proof.Machine

/-! ### ATTEST (R445, R463, assumption log 38) -/

theorem exec_attest {s : State} {r : Req} {nonce : Bytes} (h : heard s r 0x0601 32 = true) : exec (.attest r nonce) s =
    .next (if s.sec.latched then answer r 0x0601 St.powerState 0 [] s else answer r 0x0601 St.ok 0
      (payload [.arr (signReport 0 0 (fit 32 nonce ++ zeros 16) s).1]) (signReport 0 0 (fit 32 nonce ++ zeros 16) s).2) := by
  show execAttest r nonce s = _
  unfold execAttest
  rw [goust_icmd h (by simp)]
  cases hl : s.sec.latched <;> simp only [runCmd, icmd, hl, Bool.false_eq_true, if_true, if_false]

/-! ### KEYSLOT_OPEN (R454) -/

/-- A HELLO waits for the random number generator and for one of the 64 handshakes to end (R449, R464). -/
theorem startHello_waits {o : OpenSlot} {s : State} (h : s.sec.trngOk = false ∨ 64 ≤ s.sec.handshakes.length) : startHello o s = s :=
  if_pos (by simpa using h)

/-- A HELLO sent adds its handshake to those in progress and changes nothing else of the Seal (R453). -/
theorem startHello_sec {o : OpenSlot} {s : State} (ht : s.sec.trngOk = true) (hn : s.sec.handshakes.length < 64) :
    ∃ h : Handshake, (startHello o s).sec = { s.sec with handshakes := s.sec.handshakes ++ [h] } ∧ h.slot = o.num ∧ h.initiator = true ∧
      h.peer = o.peer ∧ h.state = 0 := by
  unfold startHello
  rw [if_neg (by simp [ht, hn])]
  refine ⟨_, (sendHs_does ..).frame .sec (by decide), rfl, rfl, rfl, rfl⟩

/-- Sent or waiting, a HELLO leaves the key slots and the opens. -/
theorem startHello_slots (o : OpenSlot) (s : State) :
    (startHello o s).sec.slots = s.sec.slots ∧ (startHello o s).sec.opens = s.sec.opens := by
  by_cases h : s.sec.trngOk = false ∨ 64 ≤ s.sec.handshakes.length
  · rw [startHello_waits h]; exact ⟨rfl, rfl⟩
  · obtain ⟨ht, hn⟩ : s.sec.trngOk = true ∧ s.sec.handshakes.length < 64 := by simpa using h
    obtain ⟨x, hsec, -⟩ := startHello_sec (o := o) ht hn
    rw [hsec]; exact ⟨rfl, rfl⟩

section

variable {s : State} {r : Req} {slot : BitVec 16} {kind : Byte} {peer : BitVec 16} {material : Bytes}

/-- The open that an accepted KEYSLOT_OPEN keeps. -/
def newOpen (r : Req) (slot : BitVec 16) (kind : Byte) (peer : BitVec 16) (material : Bytes) (s : State) : OpenSlot :=
  { num := slot.toNat, client := !(kind.toNat == 0), peer := peer.toNat, material := material,
    ticket := if kind.toNat == 0 then zeros 32 else randomBytes 32 s,
    initiator := kind.toNat == 0 && s.deviceNumber.toNat < peer.toNat, since := s.clk.cycle, mailbox := r.mailbox.toNat, tag := r.tag }

/-- An open kept pending. -/
def openKept (o : OpenSlot) (s : State) : State := drawn { s with sec := { s.sec with opens := s.sec.opens ++ [o] } }

/-- An open kept pending, its HELLO started where this device is its initiator. -/
def openBegun (o : OpenSlot) (s : State) : State := if o.initiator then startHello o (openKept o s) else openKept o s

theorem openBegun_sec (o : OpenSlot) (s : State) :
    (openBegun o s).sec.slots = s.sec.slots ∧ (openBegun o s).sec.opens = s.sec.opens ++ [o] := by
  unfold openBegun
  split
  · exact startHello_slots o (openKept o s)
  · exact ⟨rfl, rfl⟩

/-- An open whose HELLO is not sent moves no handshake and no port. -/
theorem openBegun_quiet {o : OpenSlot} (h : o.initiator = false ∨ s.sec.trngOk = false ∨ 64 ≤ s.sec.handshakes.length) :
    openBegun o s = openKept o s := by
  unfold openBegun
  split
  · next hi => exact startHello_waits (s := openKept o s) (h.resolve_left (by simp [hi]))
  · rfl

variable (hk : kind.toNat ≤ 1) (hpeer : peer.toNat ≤ 1023)

section

variable (h : heardP s r 0x0603 (if kind.toNat = 0 then 2040 else 40) = true)

include hk hpeer h

theorem exec_keyslotOpen (h1 : 1 ≤ slot.toNat) (h2 : slot.toNat ≤ 4095) (hslot : keySlot s slot.toNat = none)
    (hopen : openOf s slot.toNat = none)
    (hdev : kind.toNat = 0 → peer.toNat ≠ s.deviceNumber.toNat ∧ Config.keysWellFormed (material.take 32) (slice material 32 1952) = true) :
    exec (.keyslotOpen r slot kind peer material) s = .next (acceptCmd r 0x0603 (.keyslot slot.toNat)
      (payload [.arr (newOpen r slot kind peer material s).ticket, .num 1 (b2n (!(newOpen r slot kind peer material s).initiator))])
      (openBegun (newOpen r slot kind peer material s) s)) := by
  have hfree : ¬ (slot.toNat = 0 ∨ 4095 < slot.toNat ∨ (keySlot s slot.toNat).isSome = true ∨ (openOf s slot.toNat).isSome = true) := by
    simp [hslot, hopen]; omega
  have hself : ¬ (kind.toNat == 0 && peer.toNat == s.deviceNumber.toNat) = true := by
    simpa using fun h0 => (hdev h0).1
  have hkeys : ¬ (kind.toNat == 0 && !Config.keysWellFormed (material.take 32) (slice material 32 1952)) = true := by
    simpa using fun h0 => (hdev h0).2
  show execKeyslotOpen r slot kind peer material s = _
  unfold execKeyslotOpen
  rw [goust_pcmd h (by simp; omega)]
  simp only [runCmd, pcmd, if_neg hfree, if_neg hself, if_neg hkeys]
  rfl

theorem exec_keyslotOpen_refused
    (hbad : slot = 0 ∨ 4095 < slot.toNat ∨ (keySlot s slot.toNat).isSome = true ∨ (openOf s slot.toNat).isSome = true) :
    exec (.keyslotOpen r slot kind peer material) s = .next (answer r 0x0603 St.keySlot 0 [] s) := by
  have hbad' : slot.toNat = 0 ∨ 4095 < slot.toNat ∨ (keySlot s slot.toNat).isSome = true ∨ (openOf s slot.toNat).isSome = true :=
    hbad.imp_left fun h0 => by rw [h0]; rfl
  show execKeyslotOpen r slot kind peer material s = _
  unfold execKeyslotOpen
  rw [goust_pcmd h (by simp; omega)]
  simp only [runCmd, pcmd, if_pos hbad']

end

end

/-- KEYSLOT_OPEN_TIMEOUT ends the open and every handshake on its slot (R454). -/
theorem exec_keyslotOpenTimeout {s : State} {slot : BitVec 16} {o : OpenSlot} (h : openOf s slot.toNat = some o) :
    exec (.keyslotOpenTimeout slot) s = .next (finalAnswer (fun k => k == .keyslot slot.toNat) St.keySlot 1 [] (openEnded slot.toNat
      { advanceTo (o.since + 19000000000) s with
        sec := { s.sec with handshakes := s.sec.handshakes.filter fun h => h.slot != slot.toNat } })) := by
  show execKeyslotOpenTimeout slot s = _
  simp only [execKeyslotOpenTimeout, h]
  rfl

/-! ### SESSION_REKEY (R456) -/

/-- The answer of an accepted SESSION_REKEY: a nonce, an X25519 public value and an ML-KEM ciphertext (Table 13-11). -/
def rekeyBody (material : Bytes) (s : State) : Bytes :=
  payload [.arr (randomBytes 32 s), .arr (fit 32 (Config.x25519Public (randomBytes 32 (drawn s)))),
    .arr (fit 1088 (Config.mlkemCipher (slice material 64 1184) (randomBytes 32 (drawn (drawn s)))))]

/-- The keys that an accepted SESSION_REKEY stands beside the old ones, with the R of the next rekey and the cycle. -/
def rekeyKeys (material : Bytes) (k : KeySlot) (s : State) : Keys × Bytes × Nat :=
  let prk := hkdfExtract (material.take 32 ++ randomBytes 32 s)
    (fit 32 (Config.mlkemSecret (slice material 64 1184) (randomBytes 32 (drawn (drawn s)))) ++
      fit 32 (Config.x25519 (randomBytes 32 (drawn s)) (slice material 32 32)) ++ k.rPrev)
  let th := sha384 (material ++ rekeyBody material s)
  (slotKeys prk th false, slotKey prk "KIT v1 rekey" th 48, s.clk.cycle)

/-- A key slot with a rekey pending. -/
def rekeyedSlot (material : Bytes) (k : KeySlot) (s : State) : KeySlot := { k with next := some (rekeyKeys material k s) }

section

variable {s : State} {r : Req} {material : Bytes} (h : heardP s r 0x0605 1248 = true)

include h

theorem exec_sessionRekey {k : KeySlot} (hk : keySlot s 0 = some k) (hnext : k.next = none) (ht : s.sec.trngOk = true)
    (hek : Config.mlkemCheck (slice material 64 1184) = true)
    (hshare : ∀ priv, fit 32 (Config.x25519 priv (slice material 32 32)) ≠ zeros 32) :
    exec (.sessionRekey r material) s = .next (acceptCmd r 0x0605 .rekey (rekeyBody material s)
      { mapSession (fun _ => rekeyedSlot material k s) s with freeCtr := s.freeCtr + 3 }) := by
  have hok : ¬ (k.next.isSome || !s.sec.trngOk || !Config.mlkemCheck (slice material 64 1184) ||
      fit 32 (Config.x25519 (randomBytes 32 (drawn s)) (slice material 32 32)) == zeros 32) = true := by
    simp [hnext, ht, hek, hshare]
  show execSessionRekey r material s = _
  unfold execSessionRekey
  rw [goust_pcmd h (by simp)]
  simp only [runCmd, pcmd, hk, if_neg hok]
  rfl

theorem exec_sessionRekey_closed (hk : keySlot s 0 = none) : exec (.sessionRekey r material) s = .next (answer r 0x0605 St.keySlot 0 [] s) := by
  show execSessionRekey r material s = _
  unfold execSessionRekey
  rw [goust_pcmd h (by simp)]
  simp only [runCmd, pcmd, hk]

end

theorem exec_rekeyTimeout (s : State) : exec .rekeyTimeout s = .next (((keySlot s 0).bind (·.next)).elim s fun n =>
    finalAnswer (fun k => k == .rekey) St.keySlot 1 [] (mapSession (fun x => { x with next := none }) (advanceTo (n.2.2 + 19000000000) s))) := by
  show execRekeyTimeout s = _
  unfold execRekeyTimeout
  cases (keySlot s 0).bind (·.next) <;> rfl

/-! ### The statement -/

/-- Settles O34: each command by what it finds, then the two timeouts. -/
theorem keySlotCommands : Obligations.KeySlotCommands := by
  unfold Obligations.KeySlotCommands
  refine ⟨?attest, ?latched, ?opens, ?used, ?rekey, ?closed, ?timeout, ?late, ?none⟩
  case attest =>
    intro s r nonce h hl hlen
    obtain ⟨w, ed, ml, hreport, hfields⟩ := signReport_fields 0 0 (nonce ++ zeros 16) s
    rw [exec_attest h, hl, fit_of_length hlen, hreport]
    exact ⟨w, ed, ml, rfl, hfields⟩
  case latched =>
    intro s r nonce h hl
    rw [exec_attest h, hl, if_pos rfl]
  case opens =>
    intro s r slot kind peer material h hk hpeer h1 h2 hslot hopen hdev
    have hkind : kind.toNat = 0 ↔ kind = 0#8 := BitVec.toNat_inj (y := 0#8)
    have hfirst : (newOpen r slot kind peer material s).initiator = true ↔ kind = 0 ∧ s.deviceNumber.toNat < peer.toNat := by
      simp [newOpen, hkind]
    obtain ⟨hslots, hopens⟩ := openBegun_sec (newOpen r slot kind peer material s) s
    refine ⟨openBegun (newOpen r slot kind peer material s) s, newOpen r slot kind peer material s, _, ?accepted, hopens, rfl, ?client, rfl, rfl,
      rfl, ?ticket, ?device, hslots, ?started, ?quiet⟩
    case accepted =>
      rw [exec_keyslotOpen hk hpeer h h1 h2 hslot hopen fun h0 => hdev (hkind.1 h0)]
      simp only [← hfirst]
      cases (newOpen r slot kind peer material s).initiator <;> rfl
    case client =>
      show (!(kind.toNat == 0)) = (kind != 0)
      rw [Bool.eq_iff_iff]; simp [hkind]
    case ticket =>
      show (if kind.toNat == 0 then zeros 32 else randomBytes 32 s).length = 32
      split
      · exact List.length_replicate ..
      · exact fit_length ..
    case device =>
      exact fun h0 => if_pos (beq_iff_eq.2 (hkind.2 h0))
    case started =>
      rintro ⟨h0, hlt, ht, hn⟩
      rw [openBegun, if_pos (hfirst.2 ⟨h0, hlt⟩)]
      obtain ⟨x, hsec, hx⟩ := startHello_sec (o := newOpen r slot kind peer material s)
        (s := openKept (newOpen r slot kind peer material s) s) ht hn
      exact ⟨x, by rw [hsec]; rfl, hx⟩
    case quiet =>
      intro hno
      rw [openBegun_quiet ?_]
      · exact ⟨rfl, rfl⟩
      · rcases hno with h0 | hlt | hwait
        · exact .inl (Bool.eq_false_iff.2 fun hi => absurd ((hfirst.1 hi).1.symm.trans h0) (by decide))
        · exact .inl (Bool.eq_false_iff.2 fun hi => Nat.lt_asymm hlt (hfirst.1 hi).2)
        · exact .inr hwait
  case used => exact fun s r slot kind peer material h hk hpeer hbad => exec_keyslotOpen_refused hk hpeer h hbad
  case rekey =>
    intro s r material k h hk hnext ht hek hshare
    have hnum : k.num = 0 := by simpa using List.find?_some hk
    have hkept : ∀ x : KeySlot, x.num = 0 → (rekeyedSlot material k s).num = 0 := fun _ _ => hnum
    refine ⟨_, _, rekeyKeys material k s, exec_sessionRekey h hk hnext ht hek hshare, ?_, rfl, fun j hj => ?_, rfl⟩
    · rw [keySlot_freeCtr, keySlot_mapSession_same hkept, hk]
      rfl
    · rw [keySlot_freeCtr, keySlot_mapSession_other hkept _ hj]
  case closed => exact fun s r material h hk => exec_sessionRekey_closed h hk
  case timeout =>
    intro s slot o h
    exact ⟨_, exec_keyslotOpenTimeout h, openOf_openEnded .., fun x hx => by simpa using (List.mem_filter.1 hx).2, rfl, rfl⟩
  case late =>
    intro s k n hk hn
    rw [exec_rekeyTimeout, hk, Option.bind_some, hn]
    refine ⟨_, rfl, ?_, rfl⟩
    rw [keySlot_mapSession_same (f := fun x => { x with next := none }) fun _ h => h]
    show (keySlot s 0).map _ = _
    rw [hk]; rfl
  case none =>
    intro s h
    rw [exec_rekeyTimeout, h]; rfl

end Sys2Proof.Machine
end

section
/-! SUPPORT. KEYSLOT_CLOSE, SESSION_END and DEBUG_UNLOCK: what a slot wiped, an open closed and a session ended leave, and packets under a
slot that holds no keys (R396, R457, R458, R462, R463). -/

namespace Sys2Proof.Machine

/-! ### KEYSLOT_CLOSE (R457) -/

section

variable {s : State} {r : Req} {slot : BitVec 16} (h : heard s r 0x0604 8 = true)

include h

theorem exec_keyslotClose : exec (.keyslotClose r slot) s = .next (
    if slot.toNat = 0 ∨ 4095 < slot.toNat then answer r 0x0604 St.keySlot 0 [] s
    else if (openOf s slot.toNat).isSome then answer r 0x0604 St.ok 0 [] (closeOpen slot.toNat s)
    else if (keySlot s slot.toNat).isSome then answer r 0x0604 St.ok 0 [] (wipeSlot slot.toNat s)
    else answer r 0x0604 St.keySlot 0 [] s) := by
  show execKeyslotClose r slot s = _
  unfold execKeyslotClose
  dsimp only
  rw [goust_icmd h (by simp)]
  by_cases hbad : slot.toNat = 0 ∨ 4095 < slot.toNat
  · simp only [runCmd, icmd, if_pos hbad]
  · by_cases hopen : (openOf s slot.toNat).isSome = true
    · simp only [runCmd, icmd, if_neg hbad, if_pos hopen]
    · by_cases hslot : (keySlot s slot.toNat).isSome = true
      · simp only [runCmd, icmd, if_neg hbad, if_neg hopen, if_pos hslot]
      · simp only [runCmd, icmd, if_neg hbad, if_neg hopen, if_neg hslot]

end

/-- The keys of one slot, its counters and windows, and the packets under it that wait at the ports, all gone. -/
theorem wipeSlot_leaves (slot : Nat) (s : State) : keySlot (wipeSlot slot s) slot = none ∧
    (∀ j, j ≠ slot → keySlot (wipeSlot slot s) j = keySlot s j) ∧ (∀ c ∈ (wipeSlot slot s).counters, c.slot ≠ slot) ∧
    (∀ w ∈ (wipeSlot slot s).windows, w.slot ≠ slot) ∧
    (∀ e ∈ (wipeSlot slot s).ports, ∀ f ∈ e.2.out, ∀ h pl, f.body = .kit h pl → h.keyId.toNat ≠ slot) := by
  refine ⟨find?_filter_number_same KeySlot.num .., fun j hj => find?_filter_number_other KeySlot.num _ _ hj,
    fun c hc => by simpa using (List.mem_filter.1 hc).2, fun w hw => by simpa using (List.mem_filter.1 hw).2, fun e he f hf h pl hbody => ?_⟩
  obtain ⟨e', -, rfl⟩ := List.mem_map.1 he
  have hkept := (List.mem_filter.1 hf).2
  rw [hbody] at hkept
  simpa using hkept

/-- The handshake that runs on an open's slot, if there is one, ended with ABORT TIMEOUT. -/
def closeHandshake (slot : Nat) (s : State) : State :=
  match s.sec.handshakes.find? fun h => h.slot == slot with
  | some h => dropHandshake h.id (sendAbort (hsTo h) h.id h.slot 6 s)
  | none => s

theorem closeOpen_eq (slot : Nat) (s : State) : closeOpen slot s =
    finalAnswer (fun k => k == .keyslot slot) St.abandoned 0 [] (openEnded slot (closeHandshake slot s)) := by
  unfold closeOpen closeHandshake
  cases hh : s.sec.handshakes.find? fun h => h.slot == slot with
  | none => rfl
  | some h =>
    obtain rfl : h.slot = slot := by simpa using List.find?_some hh
    rfl

theorem closeHandshake_sec (slot : Nat) (s : State) : (closeHandshake slot s).sec.slots = s.sec.slots ∧
    ∀ h, s.sec.handshakes.find? (fun h => h.slot == slot) = some h →
      (closeHandshake slot s).sec.handshakes = s.sec.handshakes.filter fun x => x.id != h.id := by
  unfold closeHandshake
  cases s.sec.handshakes.find? fun h => h.slot == slot with
  | none => exact ⟨rfl, fun h hh => by cases hh⟩
  | some h =>
    simp only [dropHandshake, sendAbort_sec, Option.some.injEq, true_and]
    rintro _ rfl
    rfl

/-! ### Packets under a slot without keys (R396, R457) -/

/-- A packet of right form for this device is dropped where its slot holds no keys. -/
theorem receiveKit_keyless {s : State} {p : KitPacket} {kind : Nat} (hport : portCarries s p.port.toNat = true)
    (hkind : p.header.kind.toNat = kind) (hform : kitFormOk p kind = true) (hdst : p.header.dstDev = s.deviceNumber)
    (hext : p.header.extDst = false) (hslot : keySlot s p.header.keyId.toNat = none) :
    receiveKit p kind s = (none, drop p.port.toNat 9 s) := by
  subst hkind
  simp [receiveKit, checkedKind, hport, hform, hdst, hext, hslot]

/-- A frame under a slot that holds no keys is discarded as it is picked. -/
theorem emitFrame_keyless {s : State} {p : Nat} {f : OutFrame} {h : KitHeader} {pl : Bytes} (hbody : f.body = .kit h pl)
    (hkey : h.keyId ≠ 0xffff#16) (hslot : keySlot s h.keyId.toNat = none) : emitFrame p f s = s := by
  simp only [emitFrame, hbody, if_neg hkey, hslot]

/-! ### What a session end leaves (R458, Table 14-9) -/

/-- Unloading a plan empties its slot and no other. -/
theorem plan?_unloadPlan (slot : Nat) (s : State) (n : Nat) : plan? (unloadPlan slot s) n = if n = slot then none else plan? s n := by
  cases hp : plan? s slot with
  | none =>
    have hself : unloadPlan slot s = s := by simp only [unloadPlan, hp]
    rw [hself]
    split
    · next h => rw [h, hp]
    · rfl
  | some p =>
    split
    · next h => rw [h]; exact plan?_unloadPlan_same hp
    · next h => exact plan?_unloadPlan_other hp h

theorem plan?_foldl_unloadPlan (l : List Nat) (s : State) (n : Nat) :
    plan? (l.foldl (fun s k => unloadPlan k s) s) n = if n ∈ l then none else plan? s n := by
  induction l generalizing s with
  | nil => simp
  | cons k l ih =>
    rw [List.foldl_cons, ih, plan?_unloadPlan]
    by_cases hk : n = k <;> simp [hk]

/-- No slot holds a plan after every plan is unloaded. -/
theorem unloadAll_plans (s : State) : (unloadAll s).plans = [] := by
  have hnone : ∀ n, plan? (unloadAll s) n = none := by
    intro n
    refine (plan?_foldl_unloadPlan ..).trans ?_
    split
    · rfl
    · next hn =>
      simp only [plan?, look, Option.map_eq_none_iff, List.find?_eq_none, beq_iff_eq]
      exact fun e he hen => hn (List.mem_map.2 ⟨e, he, hen⟩)
  refine List.eq_nil_iff_forall_not_mem.2 fun e he => ?_
  have := hnone e.1
  simp only [plan?, look, Option.map_eq_none_iff, List.find?_eq_none] at this
  simpa using this e he

/-- The session's plans, memory and engine state released, before the keys go. -/
def sessionReleased (s : State) : State := clearEngines (freeSession (unloadAll (idleMailboxes s)))

theorem sessionReleased_sec (s : State) : (sessionReleased s).sec = s.sec :=
  ((clearEngines_does _).frame .sec (by decide)).trans (((freeSession_does _).frame .sec (by decide)).trans
    (((unloadAll_does _).frame .sec (by decide)).trans ((idleMailboxes_does s).frame .sec (by decide))))

theorem sessionReleased_plans (s : State) : (sessionReleased s).plans = [] :=
  ((clearEngines_does _).frame .plans (by decide)).trans (((freeSession_does _).frame .plans (by decide)).trans (unloadAll_plans _))

theorem sessionReleased_mboxes (s : State) : ∀ e ∈ (sessionReleased s).mboxes, e.2.pend = [] ∧ e.2.outbox = [] := by
  have hidle : (sessionReleased s).mboxes = (idleMailboxes s).mboxes :=
    ((clearEngines_does _).frame .mboxes (by decide)).trans (((freeSession_does _).frame .mboxes (by decide)).trans
      ((unloadAll_does _).frame .mboxes (by decide)))
  rw [hidle]
  rintro e he
  obtain ⟨e', -, rfl⟩ := List.mem_map.1 he
  exact ⟨rfl, rfl⟩

/-- The Seal after a session end: no key slot, open or handshake, MR3 and its log zero, new memory keys and epoch, the scrub begun. -/
theorem endSession_sec (s : State) : ∃ mr keys begun, (endSession s).sec =
    { s.sec with mr := mr, mr3Events := 0, mr3Log := [], keyEpoch := s.sec.keyEpoch + 1, scrub := some begun, hbmKeys := keys, slots := [],
                 opens := [], handshakes := [], parts := [] } := by
  refine ⟨(endSession s).sec.mr, (endSession s).sec.hbmKeys, (endSession s).clk.cycle, ?_⟩
  rw [← sessionReleased_sec s]
  rfl

theorem endSession_plans (s : State) : (endSession s).plans = [] := by
  refine ((zeroMr3_does _).frame .plans (by decide)).trans ?_
  refine ((redrawHbmKeys_does _).frame .plans (by decide)).trans ?_
  exact ((discardSealed_does _).frame .plans (by decide)).trans (sessionReleased_plans s)

theorem endSession_mboxes (s : State) : ∀ e ∈ (endSession s).mboxes, e.2.pend = [] ∧ e.2.outbox = [] := by
  have hkept : (endSession s).mboxes = (sessionReleased s).mboxes := by
    refine ((zeroMr3_does _).frame .mboxes (by decide)).trans ?_
    refine ((redrawHbmKeys_does _).frame .mboxes (by decide)).trans ?_
    exact (discardSealed_does _).frame .mboxes (by decide)
  rw [hkept]
  exact sessionReleased_mboxes s

/-- A session end leaves no memory, stream, neighbour, cell or ring. -/
theorem endSession_empty (s : State) : (endSession s).allocs = [] ∧ (endSession s).streams = [] ∧ (endSession s).tx = [] ∧
    (endSession s).rx = [] ∧ (endSession s).neighbours = [] ∧ (endSession s).deviceNumber = 0 ∧ (endSession s).cells = [] ∧
    (endSession s).mem = [] ∧ (endSession s).blot.ring = none ∧ (endSession s).blot.notice = none :=
  ⟨rfl, rfl, rfl, rfl, rfl, rfl, rfl, rfl, rfl, rfl⟩

/-! ### SESSION_END and DEBUG_UNLOCK (R430, R458, R462, R463) -/

/-- A heard request of a command without unit ids starts. -/
theorem starts_icmd {s : State} {r : Req} {op len : Nat} {body : State → CmdRes} (h : heard s r op len = true) :
    starts s r (icmd op len [] body) = true := by
  simp only [heard, Bool.and_eq_true, beq_iff_eq, Option.isNone_iff_eq_none] at h
  obtain ⟨⟨⟨⟨⟨hup, hfresh⟩, hn⟩, hl⟩, hlen⟩, hp⟩ := h
  have hpow : powerAllows s (icmd op len [] body) = true := Bool.and_eq_true_iff.2 ⟨hp, rfl⟩
  have href : refusal s r (icmd op len [] body) = none := by
    simp only [refusal, badOffset, hn, ← hl, hlen, hpow]
    simp [icmd]
  simp [starts, hup, hfresh, href]

/-- Answering a request and sending its mailbox's responses leaves the Seal. -/
theorem flushed_answer_sec (r : Req) (op status detail m : Nat) (body : Bytes) (s : State) :
    (flushResponses (answer r op status detail body s) m).sec = s.sec :=
  ((flushResponses_does ..).frame .sec (by decide)).trans ((answer_does ..).frame .sec (by decide))

section

variable {s : State} {r : Req} {token : Bytes}

/-- SESSION_END is answered, its response sent, and then carried out. -/
theorem exec_sessionEnd (h : heard s r 0x0606 0 = true) :
    exec (.sessionEnd r) s = .next (endSession (flushResponses (answer r 0x0606 St.ok 0 [] s) r.mailbox.toNat)) := by
  show execSessionEnd r s = _
  unfold execSessionEnd
  rw [starts_icmd h, goust_icmd h (by simp)]
  simp only [runCmd, icmd, if_true]

variable (h : heard s r 0x0607 3440 = true)

include h

/-- An accepted token is answered with its nonce renewed, the response sent, and then the device unlocked. -/
theorem exec_debugUnlock (ht : tokenOk s token = true) : exec (.debugUnlock r token) s =
    .next (unlockDebug token (flushResponses (answer r 0x0607 St.ok 0 [] (renewNonce s)) r.mailbox.toNat)) := by
  show execDebugUnlock r token s = _
  unfold execDebugUnlock debugCmd
  rw [starts_icmd h, goust_icmd h (by simp)]
  simp only [runCmd, icmd, ht, if_true, Bool.and_self]

theorem exec_debugUnlock_refused (ht : tokenOk s token = false) :
    exec (.debugUnlock r token) s = .next (answer r 0x0607 St.tokenInvalid 0 [] (renewNonce s)) := by
  show execDebugUnlock r token s = _
  unfold execDebugUnlock debugCmd
  rw [starts_icmd h, goust_icmd h (by simp)]
  simp only [runCmd, icmd, ht, Bool.false_eq_true, if_false, Bool.and_false]

end

/-! ### The statement -/

/-- Settles O35: KEYSLOT_CLOSE by what the slot holds, then packets without keys, then what a session end leaves. -/
theorem keySlotsAndSessionEnd : Obligations.KeySlotsAndSessionEnd := by
  unfold Obligations.KeySlotsAndSessionEnd
  refine ⟨?zero, ?loaded, ?pending, ?received, ?picked, ?ends, ?unlock, ?refused, fun s => rfl, ?health⟩
  case zero =>
    intro s r slot h hbad
    rw [exec_keyslotClose h, if_pos (hbad.imp_left fun h0 => by rw [h0]; rfl)]
  case loaded =>
    intro s r slot k h h1 h2 hopen hk
    obtain ⟨hgone, hother, hcounters, hwindows, hports⟩ := wipeSlot_leaves slot.toNat s
    rw [exec_keyslotClose h, if_neg (by omega), if_neg (by simp [hopen]), if_pos (by simp [hk])]
    exact ⟨_, rfl, hgone, hother, hcounters, hwindows, hports, rfl⟩
  case pending =>
    intro s r slot o h h1 h2 hopen
    obtain ⟨hslots, hended⟩ := closeHandshake_sec slot.toNat s
    rw [exec_keyslotClose h, if_neg (by omega), if_pos (by simp [hopen]), closeOpen_eq]
    exact ⟨_, rfl, openOf_openEnded .., hslots, hended⟩
  case received => exact fun s p kind => receiveKit_keyless
  case picked => exact fun s p f h pl => emitFrame_keyless
  case ends =>
    intro s r h
    rw [exec_sessionEnd h]
    have hsec := flushed_answer_sec r 0x0606 St.ok 0 r.mailbox.toNat [] s
    generalize flushResponses (answer r 0x0606 St.ok 0 [] s) r.mailbox.toNat = u at hsec ⊢
    obtain ⟨mr, keys, begun, hend⟩ := endSession_sec u
    rw [hsec] at hend
    obtain ⟨hallocs, hstreams, htx, hrx, hneighbours, hnumber, hcells, hmem, hring, hnotice⟩ := endSession_empty u
    refine ⟨_, rfl, endSession_plans u, ?_, ?_, ?_, hallocs, hstreams, htx, hrx, hneighbours, hnumber, hcells, ?_, ?_, ?_, ?_, hmem, hring,
      hnotice, ?_, ?_, endSession_mboxes u⟩ <;> rw [hend]
    rfl
  case unlock =>
    intro s r token h ht
    rw [exec_debugUnlock h ht]
    have hsec := flushed_answer_sec r 0x0607 St.ok 0 r.mailbox.toNat [] (renewNonce s)
    generalize flushResponses (answer r 0x0607 St.ok 0 [] (renewNonce s)) r.mailbox.toNat = u at hsec ⊢
    obtain ⟨mr, keys, begun, hend⟩ := endSession_sec u
    rw [hsec] at hend
    obtain ⟨hallocs, hstreams, -⟩ := endSession_empty u
    refine ⟨_, rfl, endSession_plans u, ?_, ?_, hallocs, hstreams, ?_, rfl, rfl, ?_, ?_, rfl, ?_⟩ <;>
      simp only [unlockDebug, extendMr, if_true, hend] <;> rfl
  case refused =>
    intro s r token h ht
    exact ⟨_, exec_debugUnlock_refused h ht, rfl, rfl⟩
  case health =>
    intro s
    refine ⟨rfl, fun hbad => ?_, fun hok => ?_⟩ <;> show execSecTrngHealth false s = _ <;> simp only [execSecTrngHealth]
    · simp [hbad]
    · simp [hok]

end Sys2Proof.Machine
end

section
/-! SUPPORT. Error and blot records written: the word of an error record, the store while no ring is set, and the limit of 4,096 blot records
a plan and tick (R465 to R474). -/

namespace Sys2Proof.Machine

/-! ### Error records (R465 to R467, R470, R474) -/

/-- The word that an error record is written as (Table 15-2). -/
def errWord (e : ErrRec) (s : State) : BitVec 256 :=
  errPack (ptpNs s % 2 ^ 64) e.pos e.count e.unit.toNat e.plan (b2n (testFollows s e.test e.unit)) (e.named || ruledUses s e.unit) e.cls e.code

theorem emitOne_eq (e : ErrRec) (s : State) : emitOne e s =
    if testFollows s e.test e.unit then noteTest (s.blot.written % 2 ^ 32) e.unit (noticeAdd (writeRec (errWord e s) s))
    else noticeAdd (writeRec (errWord e s) s) := rfl

theorem emitOne_blot_eq (e : ErrRec) (s : State) : (emitOne e s).blot = (writeRec (errWord e s) s).blot := by
  have hadd : (noticeAdd (writeRec (errWord e s) s)).blot = (writeRec (errWord e s) s).blot := (noticeAdd_does ..).frame .blot (by decide)
  rw [emitOne_eq]
  split
  · exact ((noteTest_does ..).frame .blot (by decide)).trans hadd
  · exact hadd

/-- An error record that no self-test follows leaves the tests under way. -/
theorem emitOne_tests {e : ErrRec} {s : State} (h : testFollows s e.test e.unit = false) : (emitOne e s).tests = s.tests := by
  rw [emitOne_eq, h]
  exact ((noticeAdd_does ..).frame .tests (by decide)).trans ((writeRec_does ..).frame .tests (by decide))

/-- An update of the Blotter. -/
theorem setBlot_does (b : Blotter) (s : State) : Does [.blot] s { s with blot := b } := by
  with_reducible refine .set rfl rfl rfl (fun f hf => ?_) (.refl s)
  cases f <;> first | exact absurd (by decide) hf | exact Eq.refl _

theorem writeRec_unset (r : BitVec 256) {s : State} (h : s.blot.ring = none) : writeRec r s =
    { s with blot := { s.blot with written := s.blot.written + 1, store := (r :: s.blot.store).take 4096 } } := by
  simp only [writeRec, h]

section

variable (e : ErrRec) {s : State} (hring : s.blot.ring = none)

include hring

theorem emitOne_store : (emitOne e s).blot.store = (errWord e s :: s.blot.store).take 4096 := by
  rw [emitOne_blot_eq, writeRec_unset _ hring]

/-- With neither ring nor notice cell set, an error record changes the Blotter and the self-tests only. -/
theorem emitOne_stored (hnotice : s.blot.notice = none) : Does [.blot, .tests] s (emitOne e s) := by
  have hwrite : Does [.blot, .tests] s (writeRec (errWord e s) s) := by
    rw [writeRec_unset _ hring]
    exact .mono (setBlot_does ..) (by decide)
  rw [emitOne_eq, noticeAdd_unset ((writeRec_notice ..).trans hnotice)]
  exact .ite (fun _ => .next (noteTest_does ..) (by decide) hwrite) (fun _ => hwrite)

end

/-! ### Blot records (R468, R473) -/

section

variable {b : BlotRec} {s : State}

theorem blotParts_one (h : b.count ≤ 16777215) (f : Nat) : blotParts f b = [b] := by
  cases f with
  | zero => rfl
  | succ f => exact if_pos h

/-- A run that fits in the count of one record is one record. -/
theorem emitBlot_one (h : b.count ≤ 16777215) : emitBlot b s = emitBlotPart b s := by
  rw [emitBlot, blotParts_one h, List.foldl_cons, List.foldl_nil]

theorem emitBlotPart_stored (hring : s.blot.ring = none) (h : (look b.plan s.blot.blots).getD 0 < 4096) :
    emitBlotPart b s = { s with blot :=
      { s.blot with
        written := s.blot.written + 1
        store := (blotPack (ptpNs s % 2 ^ 64) b :: s.blot.store).take 4096
        blots := put b.plan ((look b.plan s.blot.blots).getD 0 + 1) s.blot.blots } } :=
  (if_pos h).trans (writeRec_unset _ hring)

theorem emitBlotPart_counted (h : 4096 ≤ (look b.plan s.blot.blots).getD 0) :
    emitBlotPart b s = { s with blot := { s.blot with blots := put b.plan ((look b.plan s.blot.blots).getD 0 + 1) s.blot.blots } } :=
  if_neg (Nat.not_lt.2 h)

end

/-! ### The statement -/

/-- Settles O19: error records by the word they are written as, blot records by how many of their plan the tick has seen. -/
theorem recordsAreWritten : Obligations.RecordsAreWritten := by
  unfold Obligations.RecordsAreWritten
  refine ⟨?counted, ?stored, ?blotStored, ?blotCounted⟩
  case counted =>
    exact fun e s => ⟨emitOne_written e s, (emitErr_does e s).frame .plans (by decide), (emitErr_does e s).frame .streams (by decide)⟩
  case stored =>
    exact fun e s hring hnotice =>
      ⟨emitOne_store e hring, (emitOne_stored e hring hnotice).eq_mix, emitOne_tests, emitErr_eq_emitOne e hnotice⟩
  case blotStored => exact fun b s hring hone hroom => (emitBlot_one hone).trans (emitBlotPart_stored hring hroom)
  case blotCounted => exact fun b s hone hfull => (emitBlot_one hone).trans (emitBlotPart_counted hfull)

end Sys2Proof.Machine
end

section
/-! SUPPORT. The Blotter commands, self-tests and the Quill's lockstep error: BLOTTER_SET, BLOTTER_READ and SELFTEST_RUN by what they find, and
what a segment, the end of a test and a deferred test leave (R470 to R480, Table 15-4). -/

namespace Sys2Proof.Machine

/-! ### BLOTTER_SET (R470, R472) -/

/-- The state with the ring and the notice cell that the host gives, the stored records copied into the ring (R470). -/
def withRing (dva bytes : Nat) (c : BitVec 16) (s : State) : State :=
  { copyStore dva bytes s with
    blot := { (copyStore dva bytes s).blot with
      store := []
      ring := some (dva, bytes, s.blot.written - s.blot.store.length)
      notice := if c = 0xffff#16 then none else some c.toNat } }

theorem withRing_blot (dva bytes : Nat) (c : BitVec 16) (s : State) : (withRing dva bytes c s).blot =
    { s.blot with
      store := []
      ring := some (dva, bytes, s.blot.written - s.blot.store.length)
      notice := if c = 0xffff#16 then none else some c.toNat } := by
  have hcopy : (copyStore dva bytes s).blot = s.blot := (copyStore_does ..).frame .blot (by decide)
  rw [withRing, hcopy]

theorem copyStore_empty (dva bytes : Nat) {s : State} (h : s.blot.store = []) : copyStore dva bytes s = s := by simp [copyStore, h]

theorem withRing_does (dva bytes : Nat) (c : BitVec 16) (s : State) : Does [.blot, .mem, .pages] s (withRing dva bytes c s) :=
  .next (setBlot_does ..) (by decide) (.mono (copyStore_does dva bytes s) (by decide))

theorem exec_blotterSet {s : State} {r : Req} {dva : BitVec 64} {n : BitVec 32} {c : BitVec 16} (h : heard s r 0x0701 16 = true)
    (hc : c = 0xffff#16 ∨ c.toNat < 16384) : exec (.blotterSet r dva n c) s =
      .next (if !ringSizeOk n.toNat || !sessionRange s dva.toNat n.toNat 2 then answer r 0x0701 St.memoryRefused dva.toNat [] s
        else if c ≠ 0xffff#16 ∧ !cellHeld s c.toNat then answer r 0x0701 St.cellRefused 0 [] s
        else answer r 0x0701 St.ok 0 [] (withRing dva.toNat n.toNat c s)) := by
  have hbad : ∀ e ∈ [(12, c != 0xffff#16 && decide (16384 ≤ c.toNat))], e.2 = false := by
    simpa [or_iff_not_imp_left] using hc
  refine congrArg Host.Outcome.next ((goust_icmd h hbad).trans ?_)
  show runCmd r (icmd 0x0701 16 _ fun s =>
    if !ringSizeOk n.toNat || !sessionRange s dva.toNat n.toNat 2 then .fail St.memoryRefused dva.toNat
    else if c ≠ 0xffff#16 ∧ !cellHeld s c.toNat then .fail St.cellRefused 0
    else .ok (withRing dva.toNat n.toNat c s) []) s = _
  unfold runCmd icmd
  dsimp only
  split_ifs <;> rfl

/-! ### BLOTTER_READ (R471) -/

theorem exec_blotterRead {s : State} {r : Req} {first : BitVec 32} (h : heard s r 0x0702 8 = true) {start n : Nat}
    (hstart : start = readStart s first.toNat) (hn : n = min 110 (s.blot.written - start)) : exec (.blotterRead r first) s =
      .next (answer r 0x0702 St.ok 0
        (payload [.num 4 (start + n), .num 4 n, .elems ((List.range n).map fun i => recordAt s (start + i))]) s) := by
  subst hstart hn
  exact congrArg Host.Outcome.next (goust_icmd h (by simp))

/-- While fewer than 2^31 records have been written, reading starts at the index asked for or at the oldest record held. -/
theorem readStart_eq {s : State} {first : Nat} (hw : s.blot.written < 2 ^ 31) (hfirst : first ≤ s.blot.written) :
    readStart s first = max (oldestRecord s) first := by
  have hback : (s.blot.written + 2 ^ 32 - first % 2 ^ 32) % 2 ^ 32 = s.blot.written - first := by omega
  have hnear : ¬ 2 ^ 31 ≤ s.blot.written - first := by omega
  simp only [readStart, hback, if_neg hnear, Nat.sub_sub_self hfirst]

/-! ### SELFTEST_RUN (R480) -/

/-- A test that the host starts at a cycle. -/
def runTest (unit : BitVec 16) (now : Nat) : SelfTest :=
  { unit := unit, first := 0, answered := 0, done := 0, failing := 0, since := now, deferred := false, host := true, nextFirst := 0,
    nextCount := 0 }

theorem exec_selftestRun {s : State} {r : Req} {u : BitVec 16} (h : heardP s r 0x0703 8 = true) (hu : unitOk u = true)
    (hdev : deviceLevel u = false) (hon : uidCluster u < 12 → (cluster s (uidClusterIndex u)).off = false) :
    exec (.selftestRun r u) s = .next (if s.tests.any fun t => t.unit == u then answer r 0x0703 St.selftestBusy 0 [] s
      else acceptCmd r 0x0703 (.selftest u) [] { s with tests := s.tests ++ [runTest u s.clk.cycle] }) := by
  have hbad : ∀ e ∈ [(0, unitOk u && deviceLevel u)], e.2 = false := by simp [hdev]
  have hunits : ∀ x ∈ [(0, u)], unitOk x.2 = true ∧ (uidCluster x.2 < 12 && (cluster s (uidClusterIndex x.2)).off) = false := by
    simpa [hu] using hon
  refine congrArg Host.Outcome.next (Eq.trans (goust_units h hbad hunits) ?_)
  cases htest : s.tests.any fun t => t.unit == u <;> simp [runCmd, hostTest, htest, runTest]

/-! ### SELFTEST_SEGMENT (R475 to R479) -/

/-- The test of a unit, replaced, is the one found. -/
theorem find?_setTest {tests : List SelfTest} {u : BitVec 16} {t t' : SelfTest} (h : tests.find? (fun t => t.unit == u) = some t)
    (ht : t'.unit = u) : (tests.map fun x => if x.unit == u then t' else x).find? (fun t => t.unit == u) = some t' := by
  induction tests with
  | nil => simp at h
  | cons x tests ih => cases hx : x.unit == u <;> simp_all

theorem advanceTo_add (k : Nat) (s : State) :
    advanceTo (s.clk.cycle + k) s = { s with clk := { s.clk with cycle := s.clk.cycle + k } } := by simp [advanceTo]

theorem ptpNs_of_does {T : List Part} {s t : State} (h : Does T s t) (hclk : Part.clk ∉ T) (hptp : Part.ptp ∉ T) : ptpNs t = ptpNs s := by
  have hc : t.clk = s.clk := h.frame .clk hclk
  have hp : t.ptp = s.ptp := h.frame .ptp hptp
  rw [ptpNs, freeNs, hc, hp, ← freeNs, ← ptpNs]

/-- A verdict takes no time: the time it bears is that of the state it leaves. -/
theorem emitVerdict_eq (t : SelfTest) (s : State) : emitVerdict t s = noteReserves (noticeAdd (writeRec
    (errPack (ptpNs (emitVerdict t s) % 2 ^ 64) (if t.answered = 0 then 0 else t.first + 2 ^ 32 * t.answered) t.failing t.unit.toNat 0xff
      (if 0 < t.failing then 3 else 2) (ruledUses s t.unit) 10 1) s)) := by
  rw [ptpNs_of_does (emitVerdict_does t s) (by decide) (by decide)]
  simp [emitVerdict]

/-- The test that follows one, where records wait for it (R474). -/
def nextTest (t : SelfTest) (now : Nat) : List SelfTest :=
  if t.nextCount = 0 then []
  else [{ unit := t.unit, first := t.nextFirst, answered := t.nextCount, done := 0, failing := 0, since := now, deferred := false,
          host := false, nextFirst := 0, nextCount := 0 }]

theorem nextTest_length (t : SelfTest) (now : Nat) : (nextTest t now).length = if t.nextCount = 0 then 0 else 1 := by
  unfold nextTest
  split <;> rfl

theorem of_mem_nextTest {t x : SelfTest} {now : Nat} (h : x ∈ nextTest t now) :
    x.unit = t.unit ∧ x.host = false ∧ x.answered = t.nextCount := by
  unfold nextTest at h
  split at h
  · cases h
  · obtain rfl := List.mem_singleton.1 h
    exact ⟨rfl, rfl, rfl⟩

/-- The state with a test ended and its verdict written. -/
def verdictGiven (t : SelfTest) (s : State) : State :=
  emitVerdict t { s with tests := (s.tests.filter fun x => x.unit != t.unit) ++ nextTest t s.clk.cycle }

theorem endTest_eq (t : SelfTest) (s : State) : endTest t s = if t.host then finalAnswer (fun k => k == .selftest t.unit) St.ok 0
    (payload [.num 1 (b2n (decide (0 < t.failing)))]) (verdictGiven t s) else verdictGiven t s := by
  by_cases hn : t.nextCount = 0 <;> simp only [endTest, verdictGiven, nextTest, hn, if_true, if_false, List.append_nil]

section

variable {s : State} {u : BitVec 16} {n : BitVec 32} {t : SelfTest}

theorem find?_tests_none (h : ∀ t ∈ s.tests, t.unit ≠ u) : s.tests.find? (fun t => t.unit == u) = none :=
  List.find?_eq_none.2 fun t ht => by simpa using h t ht

theorem exec_selftestSegment_untested (h : ∀ t ∈ s.tests, t.unit ≠ u) : exec (.selftestSegment u n) s = .next s := by
  show execSelftestSegment u n s = _
  simp only [execSelftestSegment, find?_tests_none h]

/-- A test with one more segment done and the faults it found. -/
def segmentDone (t : SelfTest) (n : Nat) : SelfTest := { t with done := t.done + 1, failing := t.failing + n }

/-- The state at the end of a segment. -/
def segmentOver (u : BitVec 16) (s : State) : State := { s with clk := { s.clk with cycle := s.clk.cycle + segmentCycles u } }

theorem exec_selftestSegment (h : s.tests.find? (fun t => t.unit == u) = some t) : exec (.selftestSegment u n) s =
    .next (if segmentMayRun s t then
      if testSegments u ≤ t.done + 1 then endTest (segmentDone t n.toNat) (segmentOver u s)
      else { segmentOver u s with tests := s.tests.map fun x => if x.unit == u then segmentDone t n.toNat else x }
    else s) := by
  show execSelftestSegment u n s = _
  unfold execSelftestSegment
  rw [h, advanceTo_add]
  dsimp only
  cases segmentMayRun s t with
  | false => rfl
  | true => exact (apply_ite Host.Outcome.next _ _ _).symm

/-! ### SELFTEST_DEFERRED (R478) -/

theorem exec_selftestDeferred_untested (h : ∀ t ∈ s.tests, t.unit ≠ u) : exec (.selftestDeferred u) s = .next s := by
  show execSelftestDeferred u s = _
  simp only [execSelftestDeferred, find?_tests_none h]

theorem exec_selftestDeferred (h : s.tests.find? (fun t => t.unit == u) = some t) : exec (.selftestDeferred u) s =
    .next (if t.deferred then s else emitErr ⟨10, 2, u, 0, t.done, 0xff, false, false⟩
      { s with tests := s.tests.map (fun x => if x.unit == u then { t with deferred := true } else x),
               clk := { s.clk with cycle := max s.clk.cycle (t.since + 1900000000) } }) := by
  show execSelftestDeferred u s = _
  unfold execSelftestDeferred
  rw [h]
  exact (apply_ite Host.Outcome.next _ _ _).symm

end

/-! ### QUILL_LOCKSTEP (Table 15-4) -/

theorem exec_quillLockstep (s : State) : exec .quillLockstep s = .next (if s.halted then s
    else emitErr ⟨10, 4, quillUid, 0, 0, 0xff, false, false⟩ { s with halted := true }) := (apply_ite Host.Outcome.next _ _ _).symm

theorem goustUp_halted {s : State} (h : s.halted = true) : goustUp s = false := by simp [goustUp, h]

/-! ### The statement -/

/-- Settles O47: each command by what it finds, each event by the unit's test. -/
theorem blotterAndSelfTests : Obligations.BlotterAndSelfTests := by
  unfold Obligations.BlotterAndSelfTests
  refine ⟨?set, ?read, ?run, fun s u n h => ⟨exec_selftestSegment_untested h, exec_selftestDeferred_untested h⟩, ?test, ?lockstep⟩
  case set =>
    intro s r dva n c h hc
    rw [exec_blotterSet h hc]
    refine ⟨fun hsize hrange hcell => ?_, fun hmem => ?_, fun hsize hrange hset hcell => ?_⟩
    · refine ⟨withRing dva.toNat n.toNat c s, ?_, withRing_blot .., rfl, fun hempty => ?_, (withRing_does ..).eq_mix⟩
      · rw [if_neg (by simp [hsize, hrange]), if_neg (by simpa [or_iff_not_imp_left] using hcell)]
      · rw [withRing, copyStore_empty _ _ hempty]
    · rw [if_pos (by simpa using hmem)]
    · rw [if_neg (by simp [hsize, hrange]), if_pos (by simp [hset, hcell])]
  case read =>
    intro s r first h
    refine ⟨_, _, rfl, exec_blotterRead h rfl rfl, fun hw hfirst hheld => ?_, fun hw hfirst hheld => ?_⟩
    · rw [readStart_eq hw hfirst.le, Nat.max_eq_right hheld]
    · rw [readStart_eq hw (hfirst.le.trans hheld), Nat.max_eq_left hfirst.le]
  case run =>
    intro s r u h hu hdev hon
    rw [exec_selftestRun h hu hdev hon]
    refine ⟨fun hfree => ⟨runTest u s.clk.cycle, by rw [if_neg (by simpa using hfree)], rfl, rfl, rfl, rfl, rfl⟩, fun hbusy => ?_⟩
    rw [if_pos (by simpa using hbusy)]
  case test =>
    intro s u n t h
    have hunit : t.unit = u := by simpa using List.find?_some h
    rw [exec_selftestSegment h, exec_selftestDeferred h]
    refine ⟨fun hshut => ?shut, fun hopen hmore => ?more, fun hopen hlast => ?last, fun hdone => ?again, fun hnew => ?deferred⟩
    case shut => rw [hshut, if_neg (by decide)]
    case more =>
      rw [if_pos hopen, if_neg (by omega)]
      exact ⟨_, rfl, rfl, find?_setTest h hunit⟩
    case last =>
      subst hunit
      rw [if_pos hopen, if_pos hlast, endTest_eq]
      exact ⟨verdictGiven (segmentDone t n.toNat) (segmentOver t.unit s), nextTest (segmentDone t n.toNat) (segmentOver t.unit s).clk.cycle,
        fun _ hx => of_mem_nextTest hx, nextTest_length .., emitVerdict_eq .., rfl⟩
    case again => rw [hdone, if_pos rfl]
    case deferred => rw [hnew, if_neg (by decide)]
  case lockstep =>
    intro s
    rw [exec_quillLockstep]
    refine ⟨fun hh => by rw [hh, if_pos rfl], fun hh => ⟨by rw [hh, if_neg (by decide)], goustUp_halted ?_⟩⟩
    exact (emitErr_does ..).frame .halted (by decide)

end Sys2Proof.Machine
end

section
/-! SUPPORT. The power cap, its comparison and the sensors: POWER_CAP_SET, POWER_COMPARISON, CAP_UNHELD, the warning and protection events, a
reading's return and SHUTDOWN by what they find (R486, R504 to R510). -/

namespace Sys2Proof.Machine

/-! ### POWER_CAP_SET (R504) -/

theorem exec_powerCapSet {s : State} {r : Req} (cap : BitVec 32) (h : heard s r 0x0802 8 = true) : exec (.powerCapSet r cap) s = .next (
    if 1000000 ≤ cap.toNat ∧ cap.toNat ≤ 2400000 then answer r 0x0802 St.ok 0 [] { s with pwr := { s.pwr with cap := cap } }
    else answer r 0x0802 St.capRange 0 [] s) := by
  show execPowerCapSet r cap s = _
  unfold execPowerCapSet
  rw [goust_icmd h (by simp)]
  by_cases hc : 1000000 ≤ cap.toNat ∧ cap.toNat ≤ 2400000
  · simp only [runCmd, icmd, if_pos hc]
  · simp only [runCmd, icmd, if_neg hc]

/-! ### POWER_COMPARISON (R504, R505) -/

/-- The cycle of the comparison that follows a cycle. -/
def nextComparison (now : Nat) : Nat := (now / 190000 + 1) * 190000

theorem nextComparison_mod (now : Nat) : nextComparison now % 190000 = 0 := Nat.mul_mod_left ..

theorem lt_nextComparison (now : Nat) : now < nextComparison now := by unfold nextComparison; omega

theorem nextComparison_le (now : Nat) : nextComparison now ≤ now + 190000 := by unfold nextComparison; omega

/-- The state after a comparison with the readings `m`, `h` and `c`. -/
def compared (m h c : BitVec 32) (s : State) : State :=
  { s with clk := { s.clk with cycle := nextComparison s.clk.cycle },
           pwr := compareStep { s.pwr with moduleMw := m, hbmMw := h, computeMw := c } m.toNat (nextComparison s.clk.cycle) }

theorem exec_powerComparison {s : State} (m h c : BitVec 32) (hp : powered s = true) :
    exec (.powerComparison m h c) s = .next (compared m h c s) := by
  have hadv : advanceTo (nextComparison s.clk.cycle) s = { s with clk := { s.clk with cycle := nextComparison s.clk.cycle } } := by
    rw [advanceTo, Nat.max_eq_right (lt_nextComparison _).le]
  show execPowerComparison m h c s = _
  unfold execPowerComparison
  rw [if_neg (by simp [hp]), ← nextComparison, hadv]
  rfl

theorem exec_powerComparison_unpowered {s : State} (m h c : BitVec 32) (hp : powered s = false) :
    exec (.powerComparison m h c) s = .next s := if_pos (by simp [hp])

theorem stepFraction_within {f mw cap : Nat} (h : mw ≤ cap) :
    stepFraction f mw cap = if 100 * mw < 97 * cap then min 256 (f + 4) else f := if_neg (by omega)

section

variable {p : Power} {mw : Nat} (now : Nat)

theorem compareStep_f_held (h : p.thermHold = true) : (compareStep p mw now).f = 0 := by simp [compareStep, h]

theorem compareStep_f_above (h : p.thermHold = false) (ha : p.cap.toNat < mw) : (compareStep p mw now).f = p.f - 16 := by
  simp [compareStep, h, stepFraction, ha]

theorem compareStep_f_within (h : p.thermHold = false) (hw : mw ≤ p.cap.toNat) :
    (compareStep p mw now).f = if 100 * mw < 97 * p.cap.toNat then min 256 (p.f + 4) else p.f := by
  rw [← stepFraction_within hw]
  simp [compareStep, h]

theorem compareStep_f2_above (h : p.cap.toNat < mw) : (compareStep p mw now).f2 = if p.f = 0 then p.f2 - 16 else p.f2 := if_pos h

theorem compareStep_f2_within (h : mw ≤ p.cap.toNat) : (compareStep p mw now).f2 =
    if 100 * mw < 97 * p.cap.toNat then min 256 (p.f2 + 4) else p.f2 := (if_neg (by omega)).trans (stepFraction_within h)

theorem compareStep_overSince : (compareStep p mw now).overSince.isSome = true ↔
    (compareStep p mw now).f = 0 ∧ (compareStep p mw now).f2 = 0 ∧ p.cap.toNat < mw := by
  simp only [compareStep, Option.isSome_ite]

end

/-! ### CAP_UNHELD (R506) -/

theorem exec_capUnheld {s : State} {n : Nat} (ho : s.pwr.overSince = some n) (hu : s.pwr.unheld = false) (hp : powered s = true) :
    exec .capUnheld s = .next (emitErr ⟨9, 1, quillUid, 0, (s.pwr.moduleMw.toNat - s.pwr.cap.toNat) / 1000, 0xff, false, false⟩
      { s with pwr := { s.pwr with unheld := true }, clk := { s.clk with cycle := max s.clk.cycle (n + 19000000) } }) := by
  show execCapUnheld s = _
  unfold execCapUnheld
  rw [ho]
  exact if_neg (by simp [hu, hp])

theorem exec_capUnheld_none {s : State} (h : s.pwr.overSince = none ∨ s.pwr.unheld = true ∨ powered s = false) :
    exec .capUnheld s = .next s := by
  show execCapUnheld s = _
  unfold execCapUnheld
  split
  · rfl
  · next n hn => exact if_pos (by simpa [hn] using h)

/-! ### Records of the sensors (R510) -/

theorem codeInForce_iff {s : State} {code sensor : Nat} : codeInForce s code sensor = true ↔ (code, sensor) ∈ s.pwr.inForce :=
  List.contains_iff_mem

theorem codeInForce_eq_false {s : State} {code sensor : Nat} : codeInForce s code sensor = false ↔ (code, sensor) ∉ s.pwr.inForce := by
  rw [← codeInForce_iff, Bool.not_eq_true]

section

variable {s : State} {code sensor : Nat} (n : Nat)

theorem powerRecord_inForce (h : codeInForce s code sensor = true) : powerRecord code sensor n s = s := if_pos h

theorem powerRecord_raised (h : codeInForce s code sensor = false) : powerRecord code sensor n s =
    emitErr ⟨9, code, quillUid, sensor, n, 0xff, code == 3, false⟩
      { s with pwr := { s.pwr with inForce := s.pwr.inForce ++ [(code, sensor)] } } := if_neg (by simp [h])

/-- Of the power state, a record changes the codes in force, and its own is one of them. -/
theorem powerRecord_pwr (code sensor : Nat) (s : State) :
    ∃ codes, (powerRecord code sensor n s).pwr = { s.pwr with inForce := codes } ∧ (code, sensor) ∈ codes := by
  cases h : codeInForce s code sensor with
  | true => exact ⟨s.pwr.inForce, by rw [powerRecord_inForce n h], codeInForce_iff.1 h⟩
  | false =>
    refine ⟨s.pwr.inForce ++ [(code, sensor)], ?_, by simp⟩
    rw [powerRecord_raised n h]
    exact (emitErr_does ..).frame .pwr (by decide)

theorem codeInForce_powerRecord (code sensor : Nat) (s : State) : codeInForce (powerRecord code sensor n s) code sensor = true := by
  obtain ⟨codes, hp, hm⟩ := powerRecord_pwr n code sensor s
  rw [codeInForce_iff, hp]
  exact hm

/-- The reading that a record was raised for is the sensor's. -/
theorem temp_powerRecord (code sensor : Nat) (t : Int) (s : State) :
    look sensor (powerRecord code sensor n (setTemp sensor t s)).pwr.temps = some t := by
  obtain ⟨codes, hp, -⟩ := powerRecord_pwr n code sensor (setTemp sensor t s)
  rw [hp]
  exact look_put_same ..

end

/-! ### The events of the sensors (R486, R508) -/

theorem exec_supplyWarningBand (c : BitVec 2) (mv : BitVec 32) (s : State) : exec (.supplyWarningBand c mv) s = .next (
    if powered s && inWarningBand c.toNat mv.toNat then
      powerRecord 3 c.toNat mv.toNat { s with pwr := { s.pwr with volts := put c.toNat mv.toNat s.pwr.volts } } else s) :=
  (apply_ite Host.Outcome.next _ _ _).symm

section

variable {c : Byte} {w : Int}

theorem exec_thermalWarn {p : Option Int} (t : BitVec 16) (s : State) (hl : tempLimits c.toNat = some (w, p)) : exec (.thermalWarn c t) s = .next (
    if powered s && decide (w < t.toInt) then
      if p.isSome then holdMargin (powerRecord 2 c.toNat t.toInt.toNat (setTemp c.toNat t.toInt s))
      else powerRecord 2 c.toNat t.toInt.toNat (setTemp c.toNat t.toInt s)
    else s) := by
  show execThermalWarn c t s = _
  unfold execThermalWarn
  simp only [hl]
  exact (apply_ite Host.Outcome.next _ _ _).symm

theorem exec_protection {p : Int} (t : BitVec 32) (s : State) (hl : tempLimits c.toNat = some (w, some p)) : exec (.protection c t) s = .next (
    if powered s && decide (p ≤ t.toInt) then holdMargin (powerRecord 3 c.toNat t.toInt.toNat (setTemp c.toNat t.toInt s)) else s) := by
  show execProtection c t s = _
  unfold execProtection
  simp only [hl]
  exact (apply_ite Host.Outcome.next _ _ _).symm

end

/-! ### READING_RETURNED_TO_RANGE (R508, R510) -/

/-- A code that the temperature `t` of sensor `c`, with its limits, leaves in force. -/
def stillCalledFor (c : Nat) (t warn : Int) (prot : Option Int) (e : Nat × Nat) : Bool :=
  !(e.2 == c && ((e.1 == 2 && decide (t ≤ warn)) || (e.1 == 3 && prot.any fun p => decide (t < p))))

/-- The state with the temperature read and the codes it does not call for ended. -/
def codesEnded (c : Nat) (t warn : Int) (prot : Option Int) (s : State) : State :=
  { s with pwr := { s.pwr with temps := put c t s.pwr.temps, inForce := s.pwr.inForce.filter (stillCalledFor c t warn prot) } }

/-- The hold of margin work ended where every die and stack is cool (R508). -/
def holdEnded (s : State) : State := if allCool s then { s with pwr := { s.pwr with thermHold := false } } else s

theorem exec_readingReturned_temp {c : Byte} {w : Int} {p : Option Int} (t : BitVec 32) (s : State) (hl : tempLimits c.toNat = some (w, p)) :
    exec (.readingReturnedToRange c t) s = .next (holdEnded (codesEnded c.toNat t.toInt w p s)) := by
  show execReadingReturnedToRange c t s = _
  unfold execReadingReturnedToRange
  simp only [hl]
  rfl

/-- The end of the hold changes that hold only. -/
theorem holdEnded_eq (s : State) : holdEnded s = { s with pwr := { s.pwr with thermHold := !allCool s && s.pwr.thermHold } } := by
  unfold holdEnded
  cases allCool s <;> rfl

theorem mem_codesEnded {c : Nat} {t w : Int} {p : Option Int} {s : State} {e : Nat × Nat} :
    e ∈ (codesEnded c t w p s).pwr.inForce ↔ e ∈ s.pwr.inForce ∧ stillCalledFor c t w p e = true := List.mem_filter

/-- The state with the voltage read and the codes it does not call for ended. -/
def voltageRead (c mv r0 r1 : Nat) (s : State) : State :=
  { s with pwr := { s.pwr with volts := put c mv s.pwr.volts,
                               inForce := if r0 ≤ mv ∧ mv ≤ r1 then s.pwr.inForce.filter fun e => e.2 != c else s.pwr.inForce } }

theorem exec_readingReturned_volt {c : Byte} {t0 r0 r1 t1 : Nat} (v : BitVec 32) (s : State) (ht : tempLimits c.toNat = none)
    (hv : supplyLimits c.toNat = some (t0, r0, r1, t1)) :
    exec (.readingReturnedToRange c v) s = .next (voltageRead c.toNat v.toNat r0 r1 s) := by
  show execReadingReturnedToRange c v s = _
  unfold execReadingReturnedToRange voltageRead
  simp only [ht, hv]
  split <;> rfl

/-! ### SHUTDOWN (R509) -/

theorem exec_shutdown {c : Byte} {s : State} (hc : sensorOk c.toNat = true) (hi : c ≠ 0x30#8) (hs : s.pwr.state ≠ .shutdown) :
    exec (.shutdown c) s = .next { blank s with pwr := { (blank s).pwr with state := .shutdown, cause := BitVec.ofNat 16 c.toNat },
                                                boot := { (blank s).boot with stage := 7 } } := by
  have hi' : c.toNat ≠ 48 := fun h => hi (BitVec.eq_of_toNat_eq h)
  exact if_neg (by simp [hc, hi', hs])

theorem goustUp_stage {s : State} (h : s.boot.stage = 7#4) : goustUp s = false := by simp [goustUp, h]

theorem portUp_stage {s : State} (p : Nat) (h : s.boot.stage = 7#4) : portUp s p = false := by simp [portUp, h]

/-! ### BYPASS (R491) -/

theorem ofNat_b2n (b : Bool) : BitVec.ofNat 32 (b2n b) = if b then 1 else 0 := by cases b <;> rfl

/-! ### The statements -/

/-- Settles O49: the command by the cap it asks for, the comparison by `compareStep`. -/
theorem powerCap : Obligations.PowerCap := by
  unfold Obligations.PowerCap
  refine ⟨fun s r cap h hlo hhi => ?_, fun s r cap h hout => ?_, fun s m h c hp => ?_⟩
  · rw [exec_powerCapSet cap h, if_pos ⟨hlo, hhi⟩]
  · rw [exec_powerCapSet cap h, if_neg (by omega)]
  · refine ⟨_, exec_powerComparison m h c hp, nextComparison_mod _, lt_nextComparison _, nextComparison_le _, rfl, rfl, fun habove => ?_⟩
    cases hh : s.pwr.thermHold with
    | true => exact .inr ⟨compareStep_f_held _ hh, rfl⟩
    | false => exact .inl (compareStep_f_above _ hh habove)

/-- Settles O51: the comparison, then the record of each sensor event, a reading's return, the shutdown, and the registers outside. -/
theorem powerAndSensors : Obligations.PowerAndSensors := by
  unfold Obligations.PowerAndSensors
  refine ⟨fun s m h c hp => exec_powerComparison_unpowered m h c hp, ?comparison, fun s h => exec_capUnheld_none h,
    fun s n ho hu hp => exec_capUnheld ho hu hp, ?record, ?supply, ?warn, ?protection, ?temp, ?volt, ?shutdown,
    fun _ _ _ => rfl, fun _ => rfl, fun s b => ?bypass⟩
  case comparison =>
    intro s m h c hp
    exact ⟨_, exec_powerComparison m h c hp, rfl, rfl, rfl, fun hh => compareStep_f_held _ hh, fun hh ha => compareStep_f_above _ hh ha,
      fun hh hw => compareStep_f_within _ hh hw, fun ha => compareStep_f2_above _ ha, fun hw => compareStep_f2_within _ hw,
      compareStep_overSince _, rfl, rfl⟩
  case record =>
    exact fun s code sensor n => ⟨powerRecord_inForce n, fun h => ⟨powerRecord_raised n h, codeInForce_powerRecord n code sensor s⟩⟩
  case supply =>
    intro s c mv
    rw [exec_supplyWarningBand]
    refine ⟨fun hp hb => by rw [hp, hb]; rfl, fun hno => ?_⟩
    rw [if_neg (by rcases hno with h | h <;> simp [h])]
  case warn =>
    intro s c t w p hl
    rw [exec_thermalWarn t s hl]
    refine ⟨fun hp hw => ?_, fun hno => ?_⟩
    · rw [if_pos (by simp [hp, hw])]
      have hforce := codeInForce_powerRecord t.toInt.toNat 2 c.toNat (setTemp c.toNat t.toInt s)
      have htemp := temp_powerRecord t.toInt.toNat 2 c.toNat t.toInt s
      cases p with
      | none => exact ⟨_, rfl, htemp, hforce, fun h => absurd h (by decide), fun _ => rfl⟩
      | some q => exact ⟨_, rfl, htemp, hforce, fun _ => ⟨rfl, rfl, rfl⟩, fun h => absurd h (by simp)⟩
    · rw [if_neg (by rcases hno with h | h <;> simp [h])]
  case protection =>
    intro s c t w p hl
    rw [exec_protection t s hl]
    refine ⟨fun hp hw => ?_, fun hno => ?_⟩
    · rw [if_pos (by simp [hp, hw])]
      exact ⟨_, rfl, rfl, rfl, codeInForce_powerRecord t.toInt.toNat 3 c.toNat (setTemp c.toNat t.toInt s), rfl⟩
    · rw [if_neg (by rcases hno with h | h <;> simp [h])]
  case temp =>
    intro s c t w p hl
    refine ⟨_, exec_readingReturned_temp t s hl, ?_⟩
    rw [holdEnded_eq]
    refine ⟨rfl, look_put_same .., fun hw => ?_, fun q hq hlt => ?_, fun e he hne => ?_, fun hcool => ?_, fun hwarm => ?_⟩
    · exact codeInForce_eq_false.2 fun hm => by simpa [stillCalledFor, hw] using (mem_codesEnded.1 hm).2
    · exact codeInForce_eq_false.2 fun hm => by simpa [stillCalledFor, hq, hlt] using (mem_codesEnded.1 hm).2
    · exact mem_codesEnded.2 ⟨he, by simp [stillCalledFor, hne]⟩
    · exact congrArg (fun cool => !cool && s.pwr.thermHold) hcool
    · exact congrArg (fun cool => !cool && s.pwr.thermHold) hwarm
  case volt =>
    intro s c v t0 r0 r1 t1 ht hv
    refine ⟨_, exec_readingReturned_volt v s ht hv, rfl, look_put_same .., fun h0 h1 e he => ?_, fun hout => if_neg (by omega)⟩
    simp only [voltageRead, if_pos (And.intro h0 h1), List.mem_filter, bne_iff_ne] at he
    exact he.2
  case shutdown =>
    intro s c hc hi hs
    refine ⟨_, exec_shutdown hc hi hs, rfl, rfl, ?_, rfl, rfl, rfl, rfl, rfl, goustUp_stage rfl, fun p => portUp_stage p rfl⟩
    exact (BitVec.toNat_ofNat ..).trans (Nat.mod_eq_of_lt (by omega))
  case bypass =>
    rw [← ofNat_b2n]
    rfl

end Sys2Proof.Machine
end

section
/-! SUPPORT. Which clusters are off: the releases, signals and records that an unload gives rise to leave it as it was (R76 to R83, R92, R376,
R500). -/

namespace Sys2Proof.Machine

theorem cluster_of_sched {s t : State} (h : t.sched = s.sched) (k : Nat) : cluster t k = cluster s k := by rw [cluster, h, ← cluster]

/-- Every cluster is off in the later state exactly where it was. -/
structure OffKept (s t : State) : Prop where
  off : ∀ k, (cluster t k).off = (cluster s k).off

theorem OffKept.refl (s : State) : OffKept s s := ⟨fun _ => rfl⟩

/-- An operation after others. -/
theorem OffKept.next {s t u : State} (g : OffKept t u) (h : OffKept s t) : OffKept s u := ⟨fun k => (g.off k).trans (h.off k)⟩

/-- A record update that writes no scheduler, after others. -/
theorem OffKept.set {s t u : State} (h : OffKept s t) (hu : u.sched = t.sched) : OffKept s u :=
  ⟨fun k => (congrArg Cluster.off (cluster_of_sched hu k)).trans (h.off k)⟩

theorem OffKept.of_sched {s t : State} (h : t.sched = s.sched) : OffKept s t := .set (.refl s) h

theorem OffKept.of_does {T : List Part} {s t : State} (h : Does T s t) (hT : Part.sched ∉ T) : OffKept s t := .of_sched (h.frame .sched hT)

theorem OffKept.ite {p : Prop} [Decidable p] {s a b : State} (ha : OffKept s a) (hb : OffKept s b) : OffKept s (if p then a else b) := by
  split
  · exact ha
  · exact hb

theorem OffKept.foldl {α : Type} {f : State → α → State} (l : List α) (hf : ∀ u a, OffKept u (f u a)) (s : State) :
    OffKept s (l.foldl f s) := by
  induction l generalizing s with
  | nil => exact .refl s
  | cons a l ih => exact .next (ih _) (hf s a)

/-! ### The schedulers -/

theorem setCluster_offKept {k : Nat} {c : Cluster} {s : State} (h : c.off = (cluster s k).off) : OffKept s (setCluster k c s) := by
  refine ⟨fun j => ?_⟩
  by_cases hj : j = k
  · rw [hj, cluster_setCluster_same, h]
  · rw [cluster_setCluster_other _ _ _ _ hj]

theorem scribeAt_offKept (k at' : Nat) (r : ScrRec) (s : State) : OffKept s (scribeAt k at' r s) := setCluster_offKept rfl

theorem listEvent_offKept (k : Nat) (t : Task) (reason arg : Nat) (s : State) : OffKept s (listEvent k t reason arg s) :=
  .next (scribeAt_offKept ..) (setCluster_offKept rfl)

theorem makeReady_offKept (t : Task) (s : State) : OffKept s (makeReady t s) := .next (scribeAt_offKept ..) (setCluster_offKept rfl)

theorem offerMargin_offKept (source : Nat) (t : Task) (s : State) : OffKept s (offerMargin source t s) :=
  .ite (makeReady_offKept t s) (.next (listEvent_offKept ..) (setCluster_offKept rfl))

theorem admitRuled_offKept (t : Task) (s : State) : OffKept s (admitRuled t s) :=
  .ite (makeReady_offKept t s) (setCluster_offKept rfl)

/-! ### Waits and adds (R376) -/

theorem wake_offKept (w : Waiter) (s : State) : OffKept s (wake w s) := by
  unfold wake
  split
  · exact .ite (admitRuled_offKept ..) (offerMargin_offKept ..)
  · exact .of_does (freeBuffer_does ..) (by decide)
  · exact .refl s
  · exact .refl s

theorem registerWait_offKept (n : Nat) (w : Waiter) (s : State) : OffKept s (registerWait n w s) :=
  .ite (.next (wake_offKept ..) (.of_sched rfl)) (.ite (.of_sched rfl) (.of_sched rfl))

theorem admitSome_offKept (die n : Nat) (s : State) : OffKept s (admitSome die n s) := by
  induction n generalizing s with
  | zero => exact .refl s
  | succ n ih =>
    unfold admitSome
    split
    · split
      · exact .next (ih _) (.next (registerWait_offKept ..) (.of_sched rfl))
      · exact .refl s
    · exact .refl s

theorem releaseWaiters_offKept (m n : Nat) (s : State) : OffKept s (releaseWaiters m n s) := by
  induction n generalizing s with
  | zero => exact .refl s
  | succ n ih =>
    unfold releaseWaiters
    dsimp only
    split
    · exact .refl s
    · exact .ite (.next (ih _) (.next (admitSome_offKept ..) (.next (wake_offKept ..) (.of_sched rfl)))) (.refl s)

theorem addRaw_offKept (n : Nat) (d : Int) (s : State) : OffKept s (addRaw n d s) :=
  .next (releaseWaiters_offKept ..) (.ite (.next (.of_does (mergeHostSignal_does ..) (by decide)) (.of_sched rfl)) (.of_sched rfl))

/-! ### Records (R465, R472) -/

theorem noticeAdd_offKept (s : State) : OffKept s (noticeAdd s) := by
  unfold noticeAdd
  split
  · exact .ite (addRaw_offKept ..) (.refl s)
  · exact .refl s

theorem emitOne_offKept (e : ErrRec) (s : State) : OffKept s (emitOne e s) := by
  have hadd : ∀ r, OffKept s (noticeAdd (writeRec r s)) := fun r => .next (noticeAdd_offKept _) (.of_does (writeRec_does ..) (by decide))
  exact .ite (.next (.of_does (noteTest_does ..) (by decide)) (hadd _)) (hadd _)

theorem noteReserve_offKept (n : Nat) (s : State) : OffKept s (noteReserve n s) := by
  induction n generalizing s with
  | zero => exact .refl s
  | succ n ih =>
    unfold noteReserve
    split
    · exact .refl s
    · exact .next (ih _) (.next (emitOne_offKept ..) (setCluster_offKept rfl))

theorem noteReserves_offKept (s : State) : OffKept s (noteReserves s) := .ite (.refl s) (noteReserve_offKept ..)

theorem emitErr_offKept (e : ErrRec) (s : State) : OffKept s (emitErr e s) := .next (noteReserves_offKept _) (emitOne_offKept e s)

theorem signalAdd_offKept (n : Nat) (d : Int) (s : State) : OffKept s (signalAdd n d s) := by
  have hadd : OffKept s (noteReserves (addRaw n d s)) := .next (noteReserves_offKept _) (addRaw_offKept ..)
  exact .ite hadd (.next (emitErr_offKept ..) hadd)

/-! ### Queues (R361, R367, R370) -/

theorem notice_offKept (q : Nat) (x : Queue) (s : State) : OffKept s (notice q x s) := by
  unfold notice
  split
  · split
    · exact signalAdd_offKept ..
    · exact .refl s
  · split
    · refine .ite (.refl s) ?_
      split
      · exact registerWait_offKept ..
      · exact offerMargin_offKept ..
    · exact .refl s
  · exact .of_does (mergeHostSignal_does ..) (by decide)
  · exact .refl s

theorem endWait_offKept (e : Nat × Waiter) (s : State) : OffKept s (endWait e s) := by
  unfold endWait
  split
  · next x _ _ =>
    cases h : takeFrom e.1 x s with
    | none => exact .refl s
    | some r => exact .of_does (takeFrom_does h) (by decide)
  · exact .ite (emitErr_offKept ..) (.next (notice_offKept ..) (.of_does (enqueue_does ..) (by decide)))
  · exact .refl s

theorem endWaits_offKept (pool n : Nat) (s : State) : OffKept s (endWaits pool n s) := by
  induction n generalizing s with
  | zero => exact .refl s
  | succ n ih =>
    unfold endWaits
    split
    · exact .refl s
    · exact .next (ih _) (.next (endWait_offKept ..) (.of_sched rfl))

theorem admitRemote_offKept (die : Nat) (s : State) : OffKept s (admitRemote die s) := by
  unfold admitRemote
  dsimp only
  split
  · split
    · have hwake : ∀ q x, OffKept s (wakeQueue q (setQueue q x s)) := fun q x => .next (endWaits_offKept ..) (.of_sched rfl)
      exact .ite (.ite (.set (hwake _ _) rfl) (hwake _ _)) (.refl s)
    · exact .refl s
  · exact .refl s

theorem admitRemotes_offKept (s : State) : OffKept s (admitRemotes s) :=
  .foldl _ (fun u die => .foldl _ (fun v _ => admitRemote_offKept die v) u) s

/-! ### Unloading (R92) -/

theorem releaseBounds_offKept (slot : Nat) (bs : List Bound) (frames : List Nat) (s : State) : OffKept s (releaseBounds slot bs frames s) := by
  have hpages : OffKept s (unmapBounds bs s) := .of_does (unmapBounds_does ..) (by decide)
  have hdrop : ∀ ws qs cs, OffKept s (dropCells cs (dropQueues qs (dropWindows ws (unmapBounds bs s)))) := fun _ _ _ =>
    .next (admitRemotes_offKept _) (.set hpages rfl)
  exact .ite (hdrop ..) (.set (hdrop ..) rfl)

theorem dropRebind_offKept (slot : Nat) (s : State) : OffKept s (dropRebind slot s) := by
  unfold dropRebind
  dsimp only
  split
  · exact .refl s
  · split
    · exact .refl s
    · exact .next (releaseBounds_offKept ..) (.of_sched rfl)

theorem unloadPlan_offKept (slot : Nat) (s : State) : OffKept s (unloadPlan slot s) := by
  unfold unloadPlan
  dsimp only
  split
  · exact .refl s
  · have hdrop : OffKept s (dropContents slot (dropRebind slot s)) :=
      .next (.of_does (dropContents_does ..) (by decide)) (dropRebind_offKept ..)
    have hend : ∀ u, OffKept u (refreshBound { settleBuckets u with plans := del slot u.plans }) := fun u =>
      .next (.of_does (refreshBound_does _) (by decide)) (.set (.of_does (settleBuckets_does u) (by decide)) rfl)
    exact .next (hend _) (.next (releaseBounds_offKept ..) (.set hdrop rfl))

theorem unloadAll_offKept (s : State) : OffKept s (unloadAll s) := .foldl _ (fun u n => unloadPlan_offKept n u) s

end Sys2Proof.Machine
end

section
/-! SUPPORT. POWER_STATE_SET, RESET and WARM_RESET: what each power state and each kind of reset leaves of clusters, match units, ports and
plans, and the commands by what they find (R430, R496 to R502). -/

namespace Sys2Proof.Machine

/-! ### Commands whose effect is whole at once (R419) -/

/-- A heard request of a pending command, with unit ids that exist and are powered, starts. -/
theorem starts_heardP {s : State} {r : Req} {c : Cmd} (h : heardP s r c.op c.len = true) (hb : ∀ e ∈ c.bad, e.2 = false)
    (hu : ∀ u ∈ c.units, unitOk u.2 = true ∧ (uidCluster u.2 < 12 && (cluster s (uidClusterIndex u.2)).off) = false) : starts s r c = true := by
  simp only [heardP, heard, Bool.and_eq_true, beq_iff_eq, Option.isNone_iff_eq_none, decide_eq_true_eq] at h
  obtain ⟨⟨⟨⟨⟨⟨hup, hfresh⟩, hn⟩, hl⟩, hlen⟩, hp⟩, h16⟩ := h
  have hoff : badOffset r c = none := by
    have : c.bad.filter (·.2) = [] := List.filter_eq_nil_iff.2 fun e he => by simp [hb e he]
    simp [badOffset, this, hn]
  have hfind : c.units.find? (fun u => !unitOk u.2) = none := List.find?_eq_none.2 fun u hm => by simp [(hu u hm).1]
  have hpow : powerAllows s c = true := Bool.and_eq_true_iff.2 ⟨hp, List.all_eq_true.2 fun u hm => by simp [(hu u hm).2]⟩
  have href : refusal s r c = none := by simp [refusal, hoff, hfind, hpow, Nat.not_le.2 h16, ← hl, hlen]
  simp [starts, hup, hfresh, href]

/-- A heard request of such a command has its final response behind its first. -/
theorem goustNow_heard {s : State} {r : Req} {c : Cmd} (K : PendKind → Bool) (h : heardP s r c.op c.len = true) (hb : ∀ e ∈ c.bad, e.2 = false)
    (hu : ∀ u ∈ c.units, unitOk u.2 = true ∧ (uidCluster u.2 < 12 && (cluster s (uidClusterIndex u.2)).off) = false) :
    goustNow r c K s = finalAnswer K St.ok 0 [] (runCmd r c s) := by rw [goustNow, if_pos (starts_heardP h hb hu), goust_units h hb hu]

theorem runCmd_accept {r : Req} {c : Cmd} {s t : State} {kind : PendKind} {body : Bytes} (h : c.body s = .accept t kind body) :
    runCmd r c s = acceptCmd r c.op kind body t := by simp [runCmd, h]

theorem runCmd_fail {r : Req} {c : Cmd} {s : State} {status detail : Nat} (h : c.body s = .fail status detail) :
    runCmd r c s = answer r c.op status detail [] s := by simp [runCmd, h]

/-! ### One entry after another -/

/-- A fold of an operation on what a state holds under a key, where doing it twice is doing it once. -/
theorem foldl_keyed {β : Type} {get : State → Nat → β} {f : State → Nat → State} {g : β → β} (hg : ∀ x, g (g x) = g x)
    (hsame : ∀ s k, get (f s k) k = g (get s k)) (hother : ∀ s k j, j ≠ k → get (f s k) j = get s j) (l : List Nat) (s : State) (j : Nat) :
    get (l.foldl f s) j = if j ∈ l then g (get s j) else get s j := by
  induction l generalizing s with
  | nil => rfl
  | cons k l ih =>
    rw [List.foldl_cons, ih]
    by_cases hj : j = k
    · subst hj
      simp [hsame, hg]
    · simp [hother _ _ _ hj, hj]

/-! ### Clusters (R499, R500) -/

theorem cluster_of_does {T : List Part} {s t : State} (h : Does T s t) (hT : Part.sched ∉ T) (k : Nat) : cluster t k = cluster s k :=
  cluster_of_sched (h.frame .sched hT) k

theorem matchUnit_of_does {T : List Part} {s t : State} (h : Does T s t) (hT : Part.matchUnits ∉ T) (k : Nat) : matchUnit t k = matchUnit s k := by
  have : t.matchUnits = s.matchUnits := h.frame .matchUnits hT
  rw [matchUnit, this, ← matchUnit]

section

variable (k : Nat) (s : State)

theorem resetCluster_sched : (resetCluster k s).sched = put k { Cluster.reset with off := (cluster s k).off } s.sched := by
  have hzero : (zeroCluster k s).sched = s.sched := (zeroCluster_does k s).frame .sched (by decide)
  unfold resetCluster setCluster
  dsimp only
  rw [hzero]

theorem resetCluster_matchUnits : (resetCluster k s).matchUnits = del k s.matchUnits := by
  have hzero : (zeroCluster k s).matchUnits = s.matchUnits := (zeroCluster_does k s).frame .matchUnits (by decide)
  unfold resetCluster setCluster
  dsimp only
  rw [hzero]

theorem cluster_resetCluster_same : cluster (resetCluster k s) k = { Cluster.reset with off := (cluster s k).off } := by
  rw [cluster, resetCluster_sched, look_put_same, Option.getD_some]

theorem cluster_resetCluster_other {j : Nat} (h : j ≠ k) : cluster (resetCluster k s) j = cluster s j := by
  rw [cluster, resetCluster_sched, look_put_other _ _ _ _ h, ← cluster]

theorem matchUnit_resetCluster_same : matchUnit (resetCluster k s) k = ⟨[], []⟩ := by
  rw [matchUnit, resetCluster_matchUnits, look_del_same, Option.getD_none]

theorem matchUnit_resetCluster_other {j : Nat} (h : j ≠ k) : matchUnit (resetCluster k s) j = matchUnit s j := by
  rw [matchUnit, resetCluster_matchUnits, look_del_other _ _ _ h, ← matchUnit]

theorem matchUnit_clusterOff (j : Nat) : matchUnit (clusterOff s k) j = matchUnit (resetCluster k s) j :=
  matchUnit_of_does (setCluster_does ..) (by decide) j

theorem cluster_zeroCluster (j : Nat) : cluster (zeroCluster k s) j = cluster s j := cluster_of_does (zeroCluster_does ..) (by decide) j

theorem cluster_clusterOff_same : cluster (clusterOff s k) k = { Cluster.reset with off := true } := cluster_setCluster_same ..

theorem cluster_clusterOff_other {j : Nat} (h : j ≠ k) : cluster (clusterOff s k) j = cluster s j :=
  (cluster_setCluster_other _ _ _ _ h).trans (cluster_resetCluster_other k s h)

theorem cluster_clusterOn_same : cluster (clusterOn s k) k = { cluster s k with off := false } := by
  unfold clusterOn
  split
  · exact (cluster_zeroCluster ..).trans (cluster_setCluster_same ..)
  · next h => rw [← Bool.eq_false_of_not_eq_true h]

theorem cluster_clusterOn_other {j : Nat} (h : j ≠ k) : cluster (clusterOn s k) j = cluster s j := by
  unfold clusterOn
  split
  · exact (cluster_zeroCluster ..).trans (cluster_setCluster_other _ _ _ _ h)
  · rfl

end

section

variable (l : List Nat) (s : State) (k : Nat)

theorem cluster_foldl_clusterOff : cluster (l.foldl clusterOff s) k = if k ∈ l then { Cluster.reset with off := true } else cluster s k :=
  foldl_keyed (g := fun _ => { Cluster.reset with off := true }) (fun _ => rfl) (fun s k => cluster_clusterOff_same k s)
    (fun s k _ => cluster_clusterOff_other k s) l s k

theorem matchUnit_foldl_clusterOff : matchUnit (l.foldl clusterOff s) k = if k ∈ l then ⟨[], []⟩ else matchUnit s k :=
  foldl_keyed (g := fun _ => ⟨[], []⟩) (fun _ => rfl) (fun s k => (matchUnit_clusterOff k s k).trans (matchUnit_resetCluster_same k s))
    (fun s k j hj => (matchUnit_clusterOff k s j).trans (matchUnit_resetCluster_other k s hj)) l s k

theorem cluster_foldl_clusterOn : cluster (l.foldl clusterOn s) k = if k ∈ l then { cluster s k with off := false } else cluster s k :=
  foldl_keyed (g := fun c => { c with off := false }) (fun _ => rfl) (fun s k => cluster_clusterOn_same k s)
    (fun s k _ => cluster_clusterOn_other k s) l s k

end

theorem cluster_clearClusters (s : State) (k : Nat) : cluster (clearClusters s) k = { Cluster.reset with off := (cluster s k).off } := by
  have h : look k (clearClusters s).sched = (look k s.sched).map fun c => { Cluster.reset with off := c.off } :=
    look_map (fun c : Cluster => ({ Cluster.reset with off := c.off } : Cluster)) k s.sched
  rw [cluster, h, cluster]
  cases look k s.sched <;> rfl

theorem mem_maskClusters {mask k : Nat} : k ∈ maskClusters mask ↔ k < 48 ∧ bitAt mask k = true := by simp [maskClusters]

theorem not_mem_maskClusters {mask k : Nat} (h : 48 ≤ k ∨ bitAt mask k = false) : k ∉ maskClusters mask := by
  rw [mem_maskClusters]
  rintro ⟨hlt, hbit⟩
  exact h.elim (by omega) (by simp [hbit])

/-- The clusters of a mask are off, with their match units clear; the others are as they were. -/
theorem clustersOff_leave (mask : Nat) (s : State) :
    (∀ k, k < 48 → bitAt mask k = true → cluster ((maskClusters mask).foldl clusterOff s) k = { Cluster.reset with off := true } ∧
      matchUnit ((maskClusters mask).foldl clusterOff s) k = ⟨[], []⟩) ∧
    ∀ k, (48 ≤ k ∨ bitAt mask k = false) → cluster ((maskClusters mask).foldl clusterOff s) k = cluster s k ∧
      matchUnit ((maskClusters mask).foldl clusterOff s) k = matchUnit s k := by
  refine ⟨fun k hk hbit => ?_, fun k hk => ?_⟩
  · have hin := mem_maskClusters.2 ⟨hk, hbit⟩
    rw [cluster_foldl_clusterOff, matchUnit_foldl_clusterOff, if_pos hin, if_pos hin]
    exact ⟨rfl, rfl⟩
  · have hout := not_mem_maskClusters hk
    rw [cluster_foldl_clusterOff, matchUnit_foldl_clusterOff, if_neg hout, if_neg hout]
    exact ⟨rfl, rfl⟩

/-- The clusters of a mask are on; nothing else of any cluster changes. -/
theorem clustersOn_leave (mask : Nat) (s : State) :
    (∀ k, k < 48 → bitAt mask k = true → cluster ((maskClusters mask).foldl clusterOn s) k = { cluster s k with off := false }) ∧
    ∀ k, (48 ≤ k ∨ bitAt mask k = false) → cluster ((maskClusters mask).foldl clusterOn s) k = cluster s k := by
  refine ⟨fun k hk hbit => ?_, fun k hk => ?_⟩
  · rw [cluster_foldl_clusterOn, if_pos (mem_maskClusters.2 ⟨hk, hbit⟩)]
  · rw [cluster_foldl_clusterOn, if_neg (not_mem_maskClusters hk)]

/-! ### The exit from Dormant (R502) -/

/-- An entry put over one of its key leaves the keys. -/
theorem keys_put {κ α : Type} [BEq κ] [LawfulBEq κ] {k : κ} {l : List (κ × α)} (v : α) (h : k ∈ l.map (·.1)) :
    (put k v l).map (·.1) = l.map (·.1) := by
  induction l with
  | nil => cases h
  | cons e r ih =>
    unfold put
    split
    · next he => simp [beq_iff_eq.1 he]
    · next he =>
      have hr : k ∈ r.map (·.1) := (List.mem_cons.1 h).resolve_left fun hk => he (by simp [hk])
      simp [ih hr]

theorem restorePlan_keys {s : State} {e : Nat × Plan} (h : e.1 ∈ s.plans.map (·.1)) :
    (restorePlan s e).plans.map (·.1) = s.plans.map (·.1) := by
  have hqueues : ∀ l : List Bound, Does [.queues] s (l.foldl (fun s b => setQueue b.index (planQueue e.1 b.size) s) s) :=
    fun l => .foldl l (fun u b => setQueue_does ..) (.refl s)
  have hrest : Does [.queues, .cells, .matchUnits] s (applyLoads e.2 (bindCellValues e.1 e.2.bound
      ((e.2.bound.filter fun b => b.kind == 6).foldl (fun s b => setQueue b.index (planQueue e.1 b.size) s) s))) :=
    .next (applyLoads_does ..) (by decide) (.next (bindCellValues_does ..) (by decide) ((hqueues _).mono (by decide)))
  have hplans := hrest.frame .plans (by decide)
  unfold restorePlan setPlan
  dsimp only
  rw [hplans]
  exact keys_put _ h

theorem foldl_restorePlan_keys (l : List (Nat × Plan)) {s : State} (h : ∀ e ∈ l, e.1 ∈ s.plans.map (·.1)) :
    (l.foldl restorePlan s).plans.map (·.1) = s.plans.map (·.1) := by
  induction l generalizing s with
  | nil => rfl
  | cons e l ih =>
    have hkeys := restorePlan_keys (h e (List.mem_cons_self ..))
    exact (ih fun d hd => hkeys ▸ h d (List.mem_cons_of_mem _ hd)).trans hkeys

theorem foldl_restorePlan_does (l : List (Nat × Plan)) (s : State) : Does [.plans, .queues, .cells, .matchUnits] s (l.foldl restorePlan s) :=
  .foldl l restorePlan_does (.refl s)

theorem mem_zeroSram {s : State} {c : Host.Cell} (h : c ∈ (zeroSram s).mem) : c.1 / 2 ^ 53 = 1 := by
  simpa [zeroSram] using (List.mem_filter.1 h).2

/-- The exit from Dormant restores the plans over a cleared state. -/
theorem leaveDormant_eq (s : State) : ∃ u : State, leaveDormant s = u.plans.foldl restorePlan u ∧ u.pwr.state = .run ∧ u.plans = s.plans ∧
    u.mem = (zeroSram s).mem := ⟨_, rfl, rfl, rfl, rfl⟩

/-- The exit from Dormant leaves the module running, every slot as full as it was, and only HBM contents. -/
theorem leaveDormant_leaves (s : State) : (leaveDormant s).pwr.state = .run ∧ (leaveDormant s).plans.length = s.plans.length ∧
    ∀ c ∈ (leaveDormant s).mem, c.1 / 2 ^ 53 = 1 := by
  obtain ⟨u, hu, hrun, hplans, hmem⟩ := leaveDormant_eq s
  have f := (foldl_restorePlan_does u.plans u).frame
  have hpwr : (u.plans.foldl restorePlan u).pwr = u.pwr := f .pwr (by decide)
  have hkept : (u.plans.foldl restorePlan u).mem = u.mem := f .mem (by decide)
  have hkeys := congrArg List.length (foldl_restorePlan_keys u.plans fun e he => List.mem_map_of_mem he)
  rw [List.length_map, List.length_map] at hkeys
  rw [hu, hpwr, hkept, hmem, ← hplans]
  exact ⟨hrun, hkeys, fun c => mem_zeroSram⟩

/-! ### POWER_STATE_SET (R500) -/

/-- The final response of the pending POWER_STATE_SETs. -/
def isPower : PendKind → Bool
  | .power _ _ => true
  | _ => false

theorem isPower_iff (k : PendKind) : isPower k = true ↔ ∃ a b, k = PendKind.power a b := by cases k <;> simp [isPower]

section

variable {s : State} {r : Req} {target : Byte} {mask : BitVec 64} (h : heardP s r 0x0803 16 = true) (ht : target.toNat ≤ 3)
  (hm : 2 ≤ target.toNat → mask.toNat < 2 ^ 48)

include h ht hm

theorem exec_powerStateSet : exec (.powerStateSet r target mask) s = .next (finalAnswer isPower St.ok 0 []
    (runCmd r (pcmd 0x0803 16 [(0, decide (3 < target.toNat)), (8, decide (2 ≤ target.toNat) && decide (2 ^ 48 ≤ mask.toNat))]
      (powerBody target.toNat mask.toNat)) s)) := by
  have hbad : ∀ e ∈ [(0, decide (3 < target.toNat)), (8, decide (2 ≤ target.toNat) && decide (2 ^ 48 ≤ mask.toNat))], e.2 = false := by
    simpa [ht] using hm
  exact congrArg Host.Outcome.next (goustNow_heard isPower h hbad (by simp [pcmd]))

theorem exec_powerStateSet_accept {t : State} (hb : powerBody target.toNat mask.toNat s = .accept t (.power target.toNat mask.toNat) []) :
    exec (.powerStateSet r target mask) s =
      .next (finalAnswer isPower St.ok 0 [] (acceptCmd r 0x0803 (.power target.toNat mask.toNat) [] t)) := by
  rw [exec_powerStateSet h ht hm, runCmd_accept hb]
  rfl

theorem exec_powerStateSet_refused (hb : powerBody target.toNat mask.toNat s = .fail St.stateRefused 0) :
    exec (.powerStateSet r target mask) s = .next (finalAnswer isPower St.ok 0 [] (answer r 0x0803 St.stateRefused 0 [] s)) := by
  rw [exec_powerStateSet h ht hm, runCmd_fail hb]
  rfl

end

section

variable {s : State} {mask : Nat}

theorem dormantRefused_eq_false (h : ∀ e ∈ s.plans, e.2.state = .loaded ∧ e.2.rebind = none) : dormantRefused s = false := by
  simpa [dormantRefused] using fun a b hab => h (a, b) hab

theorem dormantRefused_eq_true (h : ∃ e ∈ s.plans, e.2.state ≠ .loaded ∨ e.2.rebind.isSome = true) : dormantRefused s = true := by
  simpa [dormantRefused] using h

theorem powerBody_dormant (h : dormantRefused s = false) :
    powerBody 1 mask s = .accept { s with pwr := { s.pwr with state := .dormant } } (.power 1 mask) [] := by simp [powerBody, h]

theorem powerBody_dormant_refused (h : dormantRefused s = true) : powerBody 1 mask s = .fail St.stateRefused 0 := by simp [powerBody, h]

theorem keepsOn_iff {k : Nat} : keepsOn s k = true ↔ k = 11 ∨ k = 0 ∨ k = 24 ∨ clusterHeld s k = true := by
  simp [keepsOn, or_assoc]

theorem powerBody_off (h : ∀ k, k < 48 → bitAt mask k = true → k ≠ 11 ∧ k ≠ 0 ∧ k ≠ 24 ∧ clusterHeld s k = false) :
    powerBody 2 mask s = .accept ((maskClusters mask).foldl clusterOff s) (.power 2 mask) [] := by
  refine if_neg (?_ : ¬ (maskClusters mask).any (keepsOn s) = true)
  simp only [List.any_eq_true, not_exists, not_and, mem_maskClusters, keepsOn_iff]
  rintro k ⟨hk, hbit⟩
  simpa using h k hk hbit

theorem powerBody_off_refused (h : ∃ k, k < 48 ∧ bitAt mask k = true ∧ (k = 11 ∨ k = 0 ∨ k = 24 ∨ clusterHeld s k = true)) :
    powerBody 2 mask s = .fail St.stateRefused 0 := by
  obtain ⟨k, hk, hbit, hkeep⟩ := h
  exact if_pos (List.any_eq_true.2 ⟨k, mem_maskClusters.2 ⟨hk, hbit⟩, keepsOn_iff.2 hkeep⟩)

end

/-! ### Ports (R499) -/

/-- Settling the Dip buckets leaves every port but its bucket. -/
theorem port_settleBuckets (s : State) (h : Nat) :
    port (settleBuckets s) h = { port s h with bucket := (port (settleBuckets s) h).bucket, bucketAt := (port (settleBuckets s) h).bucketAt } := by
  suffices hfold : ∀ (l : List Nat) (u : State), (∃ a b, port u h = { port s h with bucket := a, bucketAt := b }) →
      ∃ a b, port (l.foldl (fun s p => setPort p { port s p with bucket := bucketNow s p, bucketAt := s.clk.cycle } s) u) h =
        { port s h with bucket := a, bucketAt := b } by
    obtain ⟨a, b, hab⟩ := hfold (List.range 4) s ⟨_, _, rfl⟩
    have hset : port (settleBuckets s) h = { port s h with bucket := a, bucketAt := b } := hab
    rw [hset]
  intro l
  induction l with
  | nil => exact fun _ hu => hu
  | cons p l ih =>
    rintro u ⟨a, b, hu⟩
    refine ih _ ?_
    by_cases hp : h = p
    · subst hp
      exact ⟨bucketNow u h, u.clk.cycle, by rw [port_setPort_same, hu]⟩
    · exact ⟨a, b, by rw [port_setPort_other _ _ _ _ hp, hu]⟩

/-- A half of a port after its reset: its configuration in force, its drop counts 0 and its link to be trained again. -/
def portReset (x : Port) : Port := { x with live := x.cfg, linkUp := false, retraining := true, drops := List.replicate 17 0 }

theorem port_resetPort (p : Nat) (s : State) (h : Nat) : port (resetPort p s) h =
    if h / 2 = p / 2 then portReset (port (settleBuckets s) h) else port (settleBuckets s) h := by
  have hfold : port (resetPort p s) h =
      if h ∈ [p / 2 * 2, p / 2 * 2 + 1] then portReset (port (settleBuckets s) h) else port (settleBuckets s) h :=
    foldl_keyed (g := portReset) (fun _ => rfl) (fun _ _ => port_setPort_same ..) (fun _ _ _ hj => port_setPort_other _ _ _ _ hj) _ _ h
  have hhalf : h ∈ [p / 2 * 2, p / 2 * 2 + 1] ↔ h / 2 = p / 2 := by simp; omega
  simpa only [hhalf] using hfold

/-- Both halves of a port at their configuration, with drop counts 0 and the link down; the other ports but for their buckets as they were. -/
theorem resetPort_leaves (p : Nat) (s : State) :
    (∀ h, h / 2 = p / 2 → (port (resetPort p s) h).live = (port s h).cfg ∧ (port (resetPort p s) h).cfg = (port s h).cfg ∧
      (port (resetPort p s) h).linkUp = false ∧ (port (resetPort p s) h).drops = List.replicate 17 0) ∧
    ∀ h, h / 2 ≠ p / 2 → port (resetPort p s) h =
      { port s h with bucket := (port (resetPort p s) h).bucket, bucketAt := (port (resetPort p s) h).bucketAt } := by
  refine ⟨fun h hh => ?_, fun h hh => ?_⟩
  · rw [port_resetPort, if_pos hh, port_settleBuckets]
    exact ⟨rfl, rfl, rfl, rfl⟩
  · rw [port_resetPort, if_neg hh]
    exact port_settleBuckets s h

/-! ### A plan reset begun (R498) -/

/-- A plan reset accepted marks the plan, drops its rebind and requests its commit. -/
theorem beginPlanReset_leaves {slot : Nat} {p : Plan} {s : State} (hp : plan? s slot = some p) (hr : p.resetting = false) :
    plan? (beginPlanReset slot p s) slot = some { p with rebind := none, resetting := true } ∧
      ∃ a ∈ (beginPlanReset slot p s).actions, a.act = .retirement slot true := by
  have hcancel : plan? (cancelRebind slot (finalAnswer (slotPending slot) St.abandoned 0 [] s)) slot = some { p with rebind := none } :=
    plan?_cancelRebind_same ((plan?_finalAnswer ..).trans hp)
  have hhome : plan? (homeBlocks slot (cancelRebind slot (finalAnswer (slotPending slot) St.abandoned 0 [] s))) slot =
      some { p with rebind := none } := (plan?_of_does (homeBlocks_does ..) (by decide) slot).trans hcancel
  unfold beginPlanReset
  dsimp only
  rw [if_neg (by simp [hr])]
  refine ⟨(plan?_setPlan_same slot _ _).trans ?_, _, List.mem_append_right _ (List.mem_singleton_self _), rfl⟩
  exact congrArg (fun x : Option Plan => some { x.getD p with resetting := true }) hhome

/-! ### RESET (R496) -/

/-- The final response of the pending RESETs but the plan resets. -/
def isQuickReset : PendKind → Bool
  | .reset n _ => n != 2
  | _ => false

theorem isQuickReset_iff (k : PendKind) : isQuickReset k = true ↔ ∃ a b, k = PendKind.reset a b ∧ a ≠ 2 := by
  cases k <;> simp [isQuickReset]

section

variable {s : State} {r : Req} {kind : Byte} {target : BitVec 16} (h : heardP s r 0x0804 8 = true)
  (hb : ∀ e ∈ resetBad kind.toNat target.toNat, e.2 = false)
  (hu : kind = 3 → unitOk target = true ∧ (cluster s (uidClusterIndex target)).off = false)

include h hb hu

theorem exec_reset : exec (.reset r kind target) s = .next (finalAnswer isQuickReset St.ok 0 [] (runCmd r
    { op := 0x0804, pending := true, len := 8, bad := resetBad kind.toNat target.toNat,
      units := if kind = 3 then [(2, target)] else [], body := resetBody kind.toNat target.toNat } s)) := by
  have hunits : ∀ u ∈ (if kind = 3 then [((2 : Nat), target)] else []),
      unitOk u.2 = true ∧ (uidCluster u.2 < 12 && (cluster s (uidClusterIndex u.2)).off) = false := by
    intro u hm
    split at hm
    · next h3 =>
      obtain ⟨hok, hon⟩ := hu h3
      rw [List.mem_singleton.1 hm]
      exact ⟨hok, by simp [hon]⟩
    · cases hm
  exact congrArg Host.Outcome.next (goustNow_heard isQuickReset h hb hunits)

theorem exec_reset_accept {t : State} {k : PendKind} (hbody : resetBody kind.toNat target.toNat s = .accept t k []) :
    exec (.reset r kind target) s = .next (finalAnswer isQuickReset St.ok 0 [] (acceptCmd r 0x0804 k [] t)) := by
  rw [exec_reset h hb hu, runCmd_accept hbody]

theorem exec_reset_refused (hbody : resetBody kind.toNat target.toNat s = .fail St.stateRefused 0) :
    exec (.reset r kind target) s = .next (finalAnswer isQuickReset St.ok 0 [] (answer r 0x0804 St.stateRefused 0 [] s)) := by
  rw [exec_reset h hb hu, runCmd_fail hbody]

end

/-! ### WARM_RESET (R430, R497) -/

/-- The plans of a warm reset unloaded, its mailboxes idle. -/
def warmUnloaded (s : State) : State := unloadAll (idleMailboxes s)

/-- What a warm reset clears once the plans are gone, before the ruling restarts (Table 16-8, assumption log 93). -/
def warmCleared (s : State) : State :=
  let u := clearEngines { s with rx := s.rx.filter fun e => match e.dest with | .queue _ => false | .window _ _ => true, tx := [], hostSigs := [] }
  { u with cells := (u.cells.filter fun e => e.2.session).map fun e => (e.1, { e.2 with waiters := [] }),
           actions := [], exclusions := [], tests := [], tickEvents := [], blot := { u.blot with blots := [] }, pwr := { u.pwr with warm := false } }

theorem warmReset_eq (s : State) : warmReset s = refreshBound (restartRuling (warmCleared (warmUnloaded s))) := rfl

/-- The ruling begins again; nothing else changes with it. -/
theorem warmReset_restarts (s : State) : Does [.clk, .rul] (warmCleared (warmUnloaded s)) (warmReset s) :=
  .next (refreshBound_does _) (by decide) (restartRuling_does _)

theorem warmCleared_keeps (s : State) : (warmCleared s).rul = s.rul ∧ (warmCleared s).clk = s.clk ∧ (warmCleared s).plans = s.plans ∧
    (warmCleared s).mboxes = s.mboxes := by simp only [warmCleared, clearEngines, clearClusters, zeroSram, and_self]

theorem warmCleared_clears (s : State) : (warmCleared s).streams = [] ∧ (warmCleared s).tables = [] ∧ (warmCleared s).tx = [] ∧
    (warmCleared s).matchUnits = [] ∧ (warmCleared s).pwr.warm = false ∧ (warmCleared s).mem = (zeroSram s).mem ∧
    (warmCleared s).sched = (clearClusters s).sched := ⟨rfl, rfl, rfl, rfl, rfl, rfl, rfl⟩

theorem restartRuling_leaves (s : State) : (restartRuling s).rul.tick = 0 ∧ (restartRuling s).rul.cfg = s.rul.cfg ∧
    (restartRuling s).clk.scrBase = s.clk.cycle ∧ (restartRuling s).clk.cycle = s.clk.cycle := by
  unfold restartRuling
  dsimp only
  split <;> exact ⟨rfl, rfl, rfl, rfl⟩

theorem refreshBound_leaves (s : State) : (refreshBound s).rul.tick = s.rul.tick ∧ (refreshBound s).rul.cfg = s.rul.cfg ∧
    (refreshBound s).clk = s.clk := ⟨rfl, rfl, rfl⟩

theorem unloadPlan_cfg (slot : Nat) (s : State) : (unloadPlan slot s).rul.cfg = s.rul.cfg := by
  unfold unloadPlan
  dsimp only
  split
  · rfl
  · have hdrop : (dropContents slot (dropRebind slot s)).rul = s.rul :=
      ((dropContents_does ..).frame .rul (by decide)).trans ((dropRebind_does ..).frame .rul (by decide))
    have hrelease : ∀ bs fs u, (releaseBounds slot bs fs u).rul = u.rul := fun bs fs u => (releaseBounds_does ..).frame .rul (by decide)
    have hsettle : ∀ u, (settleBuckets u).rul = u.rul := fun u => (settleBuckets_does u).frame .rul (by decide)
    rw [(refreshBound_leaves _).2.1, hsettle, hrelease, hdrop]

theorem unloadAll_cfg (s : State) : (unloadAll s).rul.cfg = s.rul.cfg := by
  suffices hfold : ∀ (l : List Nat) (u : State), (l.foldl (fun s n => unloadPlan n s) u).rul.cfg = u.rul.cfg from hfold _ s
  intro l
  induction l with
  | nil => exact fun _ => rfl
  | cons n l ih => exact fun u => (ih _).trans (unloadPlan_cfg n u)

theorem warmUnloaded_cfg (s : State) : (warmUnloaded s).rul.cfg = s.rul.cfg := by
  have hidle : (idleMailboxes s).rul = s.rul := (idleMailboxes_does s).frame .rul (by decide)
  rw [warmUnloaded, unloadAll_cfg, hidle]

theorem warmReset_ruling (s : State) : (warmReset s).rul.tick = 0 ∧ (warmReset s).rul.cfg = s.rul.cfg ∧
    (warmReset s).clk.scrBase = s.clk.cycle ∧ (warmReset s).clk.cycle = s.clk.cycle := by
  obtain ⟨hrul, hclk, -, -⟩ := warmCleared_keeps (warmUnloaded s)
  have hunload : (warmUnloaded s).clk = s.clk :=
    ((unloadAll_does (idleMailboxes s)).frame .clk (by decide)).trans ((idleMailboxes_does s).frame .clk (by decide))
  obtain ⟨htick, hcfg, hbase, hcycle⟩ := restartRuling_leaves (warmCleared (warmUnloaded s))
  obtain ⟨htick', hcfg', hclk'⟩ := refreshBound_leaves (restartRuling (warmCleared (warmUnloaded s)))
  rw [warmReset_eq, htick', hcfg', hclk', htick, hcfg, hbase, hcycle, hrul, hclk, hunload]
  exact ⟨rfl, warmUnloaded_cfg s, rfl, rfl⟩

theorem warmReset_empty (s : State) : (warmReset s).plans = [] ∧ (warmReset s).streams = [] ∧ (warmReset s).tables = [] ∧
    (warmReset s).tx = [] ∧ (warmReset s).matchUnits = [] ∧ (warmReset s).pwr.warm = false := by
  have f := (warmReset_restarts s).frame
  obtain ⟨-, -, hplans, -⟩ := warmCleared_keeps (warmUnloaded s)
  obtain ⟨hstreams, htables, htx, hmatch, hwarm, -, -⟩ := warmCleared_clears (warmUnloaded s)
  have hpwr : (warmReset s).pwr = (warmCleared (warmUnloaded s)).pwr := f .pwr (by decide)
  refine ⟨(f .plans (by decide)).trans ?_, (f .streams (by decide)).trans hstreams, (f .tables (by decide)).trans htables,
    (f .tx (by decide)).trans htx, (f .matchUnits (by decide)).trans hmatch, by rw [hpwr, hwarm]⟩
  rw [hplans, warmUnloaded, unloadAll_plans]

theorem warmReset_mem (s : State) : ∀ c ∈ (warmReset s).mem, c.1 / 2 ^ 53 = 1 := by
  have hmem : (warmReset s).mem = (warmCleared (warmUnloaded s)).mem := (warmReset_restarts s).frame .mem (by decide)
  obtain ⟨-, -, -, -, -, hzero, -⟩ := warmCleared_clears (warmUnloaded s)
  rw [hmem, hzero]
  exact fun c => mem_zeroSram

theorem window_of_mem_warmCleared {s : State} {e : RxStream} (h : e ∈ (warmCleared s).rx) : ∃ d n, e.dest = .window d n := by
  have hsession := (List.mem_filter.1 h).2
  cases hd : e.dest with
  | queue q => simp [hd] at hsession
  | window d n => exact ⟨d, n, rfl⟩

theorem warmReset_rx (s : State) : ∀ e ∈ (warmReset s).rx, ∃ d n, e.dest = .window d n := by
  have hrx : (warmReset s).rx = (warmCleared (warmUnloaded s)).rx := (warmReset_restarts s).frame .rx (by decide)
  exact fun e he => window_of_mem_warmCleared (hrx ▸ he)

theorem warmReset_mboxes (s : State) : ∀ e ∈ (warmReset s).mboxes, e.2.pend = [] ∧ e.2.outbox = [] := by
  have hrestarts : (warmReset s).mboxes = (warmCleared (warmUnloaded s)).mboxes := (warmReset_restarts s).frame .mboxes (by decide)
  obtain ⟨-, -, -, hkept⟩ := warmCleared_keeps (warmUnloaded s)
  have hidle : (warmUnloaded s).mboxes = (idleMailboxes s).mboxes := (unloadAll_does (idleMailboxes s)).frame .mboxes (by decide)
  rw [hrestarts, hkept, hidle]
  intro e he
  obtain ⟨e', -, rfl⟩ := List.mem_map.1 he
  exact ⟨rfl, rfl⟩

theorem cluster_warmReset (s : State) (k : Nat) : cluster (warmReset s) k = { Cluster.reset with off := (cluster s k).off } := by
  have hrestarts : (warmReset s).sched = (warmCleared (warmUnloaded s)).sched := (warmReset_restarts s).frame .sched (by decide)
  obtain ⟨-, -, -, -, -, -, hclear⟩ := warmCleared_clears (warmUnloaded s)
  have hidle : OffKept s (idleMailboxes s) := .of_does (idleMailboxes_does s) (by decide)
  have hoff : (cluster (warmUnloaded s) k).off = (cluster s k).off := (OffKept.next (unloadAll_offKept _) hidle).off k
  rw [cluster_of_sched (hrestarts.trans hclear), cluster_clearClusters, hoff]

/-- The responses sent and the 10 µs waited that come before a warm reset. -/
def warmWaited (s : State) : State :=
  let u := (List.range 16).foldl flushResponses s
  advanceTo (u.clk.cycle + 19000) u

theorem warmWaited_does (s : State) : Does [.clk, .mboxes, .queues, .ports, .counters, .sent, .freeCtr] s (warmWaited s) :=
  .next (advanceTo_does ..) (by decide) (.foldl _ (fun u m => (flushResponses_does u m).mono (by decide)) (.refl s))

theorem warmReset_warmWaited_does (s : State) : Does [.clk, .rul, .pwr, .blot, .tickEvents, .tests, .exclusions, .mboxes, .taken, .heldLoads,
    .plans, .actions, .zeroing, .mem, .pages, .sched, .queues, .cells, .regHeld, .parked, .queueWaits, .remote, .hostSigs, .streams, .tables,
    .combiners, .joins, .stats, .nibs, .lists, .matchUnits, .batches, .caches, .dips, .ports, .tx, .rx, .lines, .poolCorr, .freeCtr, .counters,
    .sent] s (warmReset (warmWaited s)) :=
  .next (warmReset_does _) (by decide) ((warmWaited_does s).mono (by decide))

theorem warmWaited_cycle (s : State) : s.clk.cycle + 19000 ≤ (warmWaited s).clk.cycle := by
  have hflush : Does [.mboxes, .queues, .ports, .counters, .sent, .freeCtr] s ((List.range 16).foldl flushResponses s) :=
    .foldl _ flushResponses_does (.refl s)
  have hclk : ((List.range 16).foldl flushResponses s).clk = s.clk := hflush.frame .clk (by decide)
  have hle : ((List.range 16).foldl flushResponses s).clk.cycle + 19000 ≤ (warmWaited s).clk.cycle := Nat.le_max_right ..
  rwa [hclk] at hle

theorem exec_warmReset {s : State} (h : s.pwr.warm = true) : exec .warmReset s = .next (warmReset (warmWaited s)) := if_neg (by simp [h])

theorem exec_warmReset_idle {s : State} (h : s.pwr.warm = false) : exec .warmReset s = .next s := if_pos (by simp [h])

/-! ### The statement -/

/-- Settles O50: POWER_STATE_SET by its target, RESET by its kind, and WARM_RESET by whether one was asked for. -/
theorem powerStatesAndResets : Obligations.PowerStatesAndResets := by
  unfold Obligations.PowerStatesAndResets
  refine ⟨?power, ?reset, fun s h => exec_warmReset_idle h, ?warm⟩
  case power =>
    intro s r target mask h ht hm
    have accept := @exec_powerStateSet_accept s r target mask h ht hm
    have refused := exec_powerStateSet_refused h ht hm
    refine ⟨isPower, isPower_iff, ?run, ?dormant, ?busy, ?off, ?held, ?on⟩
    case run =>
      rintro rfl
      refine ⟨_, accept rfl, fun hs => if_neg (by simpa using hs), fun hs => ?_⟩
      obtain ⟨hrun, hlen, hmem⟩ := leaveDormant_leaves s
      have f := (leaveDormant_does s).frame
      rw [if_pos (by simp [hs])]
      exact ⟨hrun, hlen, f .ports (by decide), f .sec (by decide), f .allocs (by decide), hmem⟩
    case dormant =>
      rintro rfl hl
      exact accept (powerBody_dormant (dormantRefused_eq_false hl))
    case busy =>
      rintro rfl hl
      exact refused (powerBody_dormant_refused (dormantRefused_eq_true hl))
    case off =>
      rintro rfl hfree
      obtain ⟨hoff, hrest⟩ := clustersOff_leave mask.toNat s
      have hdoes : Does [.mem, .sched, .nibs, .matchUnits, .lines, .poolCorr] s ((maskClusters mask.toNat).foldl clusterOff s) :=
        .foldl _ clusterOff_does (.refl s)
      exact ⟨_, accept (powerBody_off hfree), hoff, hrest, hdoes.eq_mix⟩
    case held =>
      rintro rfl hkeep
      exact refused (powerBody_off_refused hkeep)
    case on =>
      rintro rfl
      obtain ⟨hon, hrest⟩ := clustersOn_leave mask.toNat s
      have hdoes : Does [.mem, .sched] s ((maskClusters mask.toNat).foldl clusterOn s) := .foldl _ clusterOn_does (.refl s)
      exact ⟨_, accept rfl, hon, hrest, hdoes.eq_mix⟩
  case reset =>
    intro s r kind target h
    refine ⟨isQuickReset, isQuickReset_iff, ?asked, ?refused, ?plan, ?cluster, ?port⟩
    case asked =>
      rintro rfl rfl
      exact exec_reset_accept h (by decide) (fun h3 => absurd h3 (by decide)) rfl
    case refused =>
      rintro rfl ht hp
      refine exec_reset_refused h (by simp [resetBad]; omega) (fun h3 => absurd h3 (by decide)) ?_
      obtain hp | ⟨p, hp, hs⟩ := hp
      · simp [resetBody, hp]
      · simp [resetBody, hp, hs]
    case plan =>
      rintro p rfl ht hp hs hr
      obtain ⟨hq, hact⟩ := beginPlanReset_leaves hp hr
      refine ⟨_, _, exec_reset_accept h (by simp [resetBad]; omega) (fun h3 => absurd h3 (by decide)) ?_, hq, rfl, rfl, rfl, rfl, hact⟩
      simp [resetBody, hp, hs]
    case cluster =>
      rintro k rfl hok hc he hsub rfl hon
      have hbad : ∀ e ∈ resetBad 3 target.toNat, e.2 = false := by simp [resetBad, hok, hc, he, hsub]
      refine ⟨fun hfree => ?_, fun hheld => ?_⟩
      · refine ⟨_, exec_reset_accept (kind := 3) h hbad (fun _ => ⟨hok, hon⟩) (t := resetCluster (uidClusterIndex target) s) ?_, ?_,
          matchUnit_resetCluster_same .., fun j hj => ⟨cluster_resetCluster_other _ s hj, matchUnit_resetCluster_other _ s hj⟩,
          (resetCluster_does ..).eq_mix⟩
        · simp [resetBody, hfree]
        · rw [cluster_resetCluster_same, hon]
          rfl
      · exact exec_reset_refused (kind := 3) h hbad (fun _ => ⟨hok, hon⟩) (by simp [resetBody, hheld])
    case port =>
      rintro rfl ht
      have hbad : ∀ e ∈ resetBad 4 target.toNat, e.2 = false := by simp [resetBad]; omega
      refine ⟨fun hfree => ?_, fun hheld => ?_⟩
      · obtain ⟨hhalves, hothers⟩ := resetPort_leaves target.toNat s
        exact ⟨_, exec_reset_accept (kind := 4) h hbad (fun h3 => absurd h3 (by decide)) (by simp [resetBody, hfree]), hhalves, hothers,
          (resetPort_does ..).eq_mix⟩
      · exact exec_reset_refused (kind := 4) h hbad (fun h3 => absurd h3 (by decide)) (by simp [resetBody, hheld])
  case warm =>
    intro s h
    obtain ⟨htick, hcfg, hbase, hcycle⟩ := warmReset_ruling (warmWaited s)
    obtain ⟨hplans, hstreams, htables, htx, hmatch, hwarm⟩ := warmReset_empty (warmWaited s)
    have hrul : (warmWaited s).rul = s.rul := (warmWaited_does s).frame .rul (by decide)
    have f := (warmReset_warmWaited_does s).frame
    refine ⟨_, exec_warmReset h, hplans, hstreams, htables, htx, hmatch, htick, hcfg.trans (by rw [hrul]),
      hbase.trans hcycle.symm, (warmWaited_cycle s).trans_eq hcycle.symm, hwarm, f .allocs (by decide), f .sec (by decide),
      f .neighbours (by decide), f .deviceNumber (by decide), f .excluded (by decide),
      warmReset_mem _, warmReset_rx _, warmReset_mboxes _, fun k => ?_⟩
    have hoff : (cluster (warmWaited s) k).off = (cluster s k).off := (OffKept.of_does (warmWaited_does s) (by decide)).off k
    rw [cluster_warmReset, hoff]
    exact ⟨rfl, rfl, rfl⟩

end Sys2Proof.Machine
end

section
/-! SUPPORT. What every command keeps, whatever it does: memory's canonical form, fuses that only rise, and the queue of commands. -/

namespace Sys2Proof.Machine

/-- All the fields of State but for the queue of commands. -/
def everyPart : List Part := [.variant, .clk, .rul, .ptp, .pwr, .boot, .booted, .sec, .halted, .blot, .tickEvents, .tests, .excluded,
  .exclusions, .mboxes, .links, .taken, .heldLoads, .plans, .actions, .zeroing, .fitReport, .mem, .pages, .allocs, .sched, .queues,
  .cells, .regHeld, .parked, .queueWaits, .remote, .hostSigs, .streams, .tables, .combiners, .joins, .stats, .nibs, .lists,
  .matchUnits, .batches, .caches, .dips, .ports, .deviceNumber, .neighbours, .tx, .rx, .windows, .counters, .sent, .jtagBypass,
  .tlmAck, .jtagOut, .ppsOut, .lanesDown, .linksDown, .lines, .poolCorr, .freeCtr]

/-- What every step keeps: memory's canonical form, fuses that only rise, and the queue of waiting commands; any other field may change. -/
abbrev Keeps (s t : State) : Prop := Does everyPart s t

theorem mem_everyPart (f : Part) : f ∈ everyPart := by cases f <;> decide

/-- No field lies outside all of them. -/
theorem outside_everyPart {s t : State} (f : Part) (h : f ∉ everyPart) : f.kept s t := absurd (mem_everyPart f) h

/-- An operation of which it is known what it does, after others. -/
theorem Does.keeps {T : List Part} {s t u : State} (h : Does T t u) (g : Keeps s t) : Keeps s u :=
  .next ⟨outside_everyPart, h.mem, h.fuses, h.pending⟩ (by decide) g

/-- A next state that an outcome answers keeps what every step keeps. -/
def Leaves (s : State) (o : Host.Outcome State Fault Refusal) : Prop := ∀ t, o = .next t → Keeps s t

theorem Leaves.next {s u : State} (h : Keeps s u) : Leaves s (.next u) := by
  rintro t ⟨⟩
  exact h

theorem Leaves.ite {c : Prop} [Decidable c] {s : State} {a b : Host.Outcome State Fault Refusal} (ha : c → Leaves s a)
    (hb : ¬c → Leaves s b) : Leaves s (if c then a else b) := by
  split
  · exact ha ‹_›
  · exact hb ‹_›

/-- A request keeps what its command's body keeps. -/
theorem Leaves.goust {s : State} {r : Req} {c : Cmd} (h : Keeps s ((c.body s).state s)) : Leaves s (.next (goust r c s)) :=
  .next (goust_does (by decide) (.refl s) h)

/-- The same where the final response leaves with the effect. -/
theorem Leaves.goustNow {s : State} {r : Req} {c : Cmd} {k : PendKind → Bool} (h : Keeps s ((c.body s).state s)) :
    Leaves s (.next (goustNow r c k s)) :=
  .next (goustNow_does (by decide) (.refl s) h)

/-- A stage's row keeps what its body keeps. -/
theorem Leaves.stage {r : StageRef} {engine side op : Nat} {body : StageCtx → State → Option StageOut} {s : State}
    (h : ∀ c, Keeps s (stageState s (body c s))) : Leaves s (.next (stage r engine side op body s)) :=
  .next (stage_does (by decide) h)

end Sys2Proof.Machine
end

section
/-! SUPPORT. Each command keeps what every step keeps: its arm is made of operations of which it is known what they do. -/

namespace Sys2Proof.Machine

/-! ### The ruling -/

@[simp] theorem execRulingRead_leaves (r : Req) (s : State) : Leaves s (execRulingRead r s) := .goust (.refl _)

@[simp] theorem execRulingAck_leaves (r : Req) (value : BitVec 32) (s : State) : Leaves s (execRulingAck r value s) :=
  .goust ((ackStatus_does ..).keeps (.refl _))

@[simp] theorem execRulLockLocked_leaves (s : State) : Leaves s (execRulLockLocked s) :=
  .next (.ite (fun _ => (setLock_does ..).keeps (.refl _)) (fun _ => .refl _))

@[simp] theorem execPtpHoldover_leaves (s : State) : Leaves s (execPtpHoldover s) :=
  .ite (fun _ => .next ((emitErr_does ..).keeps ((setLock_does ..).keeps ((advanceTo_does ..).keeps (.refl _))))) (fun _ => .next
    (.refl _))

@[simp] theorem execDispatch_leaves (k : BitVec 6) (core : BitVec 3) (s : State) : Leaves s (execDispatch k core s) := by
  unfold execDispatch
  dsimp only
  refine .ite (fun _ => .next (.refl _)) (fun _ => ?_)
  split
  · exact .next ((goIdle_does ..).keeps (.refl _))
  · split
    · exact .next ((grant_does ..).keeps ((advanceTo_does ..).keeps (.refl _)))
    · exact .next ((goIdle_does ..).keeps ((advanceTo_does ..).keeps (.refl _)))

@[simp] theorem execHeldEventOffered_leaves (k : BitVec 6) (s : State) : Leaves s (execHeldEventOffered k s) := by
  unfold execHeldEventOffered
  refine .ite (fun _ => ?_) (fun _ => .next (.refl _))
  split
  · exact .next (.ite (fun _ => (relist_does ..).keeps ((setCluster_does ..).keeps (.refl _))) (fun _ =>
      (makeReady_does ..).keeps ((setCluster_does ..).keeps (.refl _))))
  · exact .next (.refl _)

@[simp] theorem execLigatureComplete_leaves (task : BitVec 32) (s : State) : Leaves s (execLigatureComplete task s) := by
  unfold execLigatureComplete
  split
  · exact .next (.refl _)
  · split
    · exact .next (.refl _)
    · refine .ite (fun _ => .next (.refl _)) (fun _ => ?_)
      exact .next ((planAdd_does ..).keeps ((overrunEnd_does ..).keeps ((coreEvent_does ..).keeps ((setCluster_does ..).keeps
        (.refl _)))))

@[simp] theorem execRulOverrun_leaves (task : BitVec 32) (unit : BitVec 16) (s : State) :
    Leaves s (execRulOverrun task unit s) := by
  unfold execRulOverrun
  split
  · refine .ite (fun _ => .next (.refl _)) (fun _ => ?_)
    exact .next ((noteOverrun_does ..).keeps ((coreEvent_does ..).keeps ((markOverrun_does ..).keeps ((advanceTo_does ..).keeps
      (.refl _)))))
  · split
    · exact .next ((noteOverrun_does ..).keeps ((advanceTo_does ..).keeps (.set rfl rfl rfl outside_everyPart (.refl _))))
    · exact .next ((noteOverrun_does ..).keeps ((advanceTo_does ..).keeps (.set rfl rfl rfl outside_everyPart (.refl _))))
    · exact .next (.refl _)

/-! ### Frames of a port -/

@[simp] theorem execFrameBoundary_leaves (pt : BitVec 2) (s : State) : Leaves s (execFrameBoundary pt s) := by
  unfold execFrameBoundary
  dsimp only
  refine .ite (fun _ => .next (.refl _)) (fun _ => ?_)
  split
  · exact .next (.foldl _ (fun _ _ => (noteExhausted_does ..).keeps (.refl _)) (.foldl _ (fun _ _ =>
      (offerResponse_does ..).keeps (.refl _)) (.refl _)))
  · refine .next ?_
    refine (emitFrame_does ..).keeps ?_
    split
    · exact .set rfl rfl rfl outside_everyPart ((setPort_does ..).keeps (.ite (fun _ => .foldl _ (fun _ _ =>
        (noteExhausted_does ..).keeps (.refl _)) (.foldl _ (fun _ _ => (offerResponse_does ..).keeps (.refl _)) (.refl _)))
          (fun _ => (offerHostSignal_does ..).keeps (.foldl _ (fun _ _ => (noteExhausted_does ..).keeps (.refl _)) (.foldl _
            (fun _ _ => (offerResponse_does ..).keeps (.refl _)) (.refl _))))))
    · exact (setPort_does ..).keeps (.ite (fun _ => .foldl _ (fun _ _ => (noteExhausted_does ..).keeps (.refl _)) (.foldl _
        (fun _ _ => (offerResponse_does ..).keeps (.refl _)) (.refl _))) (fun _ => (offerHostSignal_does ..).keeps (.foldl _
          (fun _ _ => (noteExhausted_does ..).keeps (.refl _)) (.foldl _ (fun _ _ => (offerResponse_does ..).keeps (.refl _))
            (.refl _)))))

/-! ### Queues -/

@[simp] theorem execQueueRead_leaves (r : Req) (queue : BitVec 16) (s : State) : Leaves s (execQueueRead r queue s) := by
  unfold execQueueRead
  refine .goust ?_
  dsimp only [icmd, pcmd, qcmd]
  split
  · exact (drawn_does ..).keeps (.refl _)
  · exact (drawn_does ..).keeps (.refl _)

@[simp] theorem execQueueSet_leaves (r : Req) (queue : BitVec 16) (desc : BitVec 256) (s : State) :
    Leaves s (execQueueSet r queue desc s) := by
  unfold execQueueSet
  dsimp only [icmd, pcmd, qcmd, CmdRes.state, stageState]
  refine .goust ?_
  dsimp only [icmd, pcmd, qcmd]
  split
  · split
    · exact .refl _
    · exact (setQueue_does ..).keeps (.refl _)
  · exact .refl _

@[simp] theorem execQueueOp_leaves (r : Req) (t : QueueTake) (op cells : Byte) (s : State) :
    Leaves s (execQueueOp r t op cells s) := by
  unfold execQueueOp
  split <;> refine .goust ?_ <;> dsimp only [qcmd, icmd] <;> split
  · exact .refl _
  · exact (flowControl_does ..).keeps ((pollCells_does ..).keeps ((hostConsumes_does ..).keeps (.refl _)))
  · exact .refl _
  · exact (markOp_does ..).keeps (.refl _)
  · exact .refl _
  · split
    · exact (rewindOp_does ‹_›).keeps (.refl _)
    · exact .refl _
  · exact .refl _
  · exact (flowControl_does ..).keeps ((releaseOp_does ..).keeps (.refl _))

@[simp] theorem execQueueReset_leaves (r : Req) (queue : BitVec 16) (s : State) : Leaves s (execQueueReset r queue s) := by
  unfold execQueueReset
  dsimp only [icmd, pcmd, qcmd, CmdRes.state, stageState]
  refine .goust ?_
  dsimp only [icmd, pcmd, qcmd]
  split
  · exact .refl _
  · split
    · split
      · exact .refl _
      · exact (flowControl_does ..).keeps ((wakeQueue_does ..).keeps ((setQueue_does ..).keeps (.refl _)))
    · split
      · exact .refl _
      · exact (flowControl_does ..).keeps ((wakeQueue_does ..).keeps ((setQueue_does ..).keeps (.refl _)))

@[simp] theorem execPacketCommit_leaves (queue unit : BitVec 16) (packet : Bytes) (s : State) :
    Leaves s (execPacketCommit queue unit packet s) :=
  .next ((flowControl_does ..).keeps ((commitPacket_does ..).keeps (.refl _)))

@[simp] theorem execTakeWait_leaves (queue unit : BitVec 16) (badWord : Option (BitVec 17)) (words : Byte) (s : State) :
    Leaves s (execTakeWait queue unit badWord words s) :=
  .next ((flowControl_does ..).keeps ((takeWaitOp_does ..).keeps (.refl _)))

@[simp] theorem execTakePoll_leaves (t : QueueTake) (s : State) : Leaves s (execTakePoll t s) :=
  .next ((flowControl_does ..).keeps ((takePollOp_does ..).keeps (.refl _)))

@[simp] theorem execMark_leaves (queue : BitVec 16) (s : State) : Leaves s (execMark queue s) :=
  .next ((markOp_does ..).keeps (.refl _))

@[simp] theorem execRewind_leaves (queue : BitVec 16) (s : State) : Leaves s (execRewind queue s) := by
  unfold execRewind
  refine .next ?_
  cases h : rewindOp queue.toNat s with
  | none => exact .refl _
  | some t => exact (rewindOp_does h).keeps (.refl _)

@[simp] theorem execRelease_leaves (queue : BitVec 16) (s : State) : Leaves s (execRelease queue s) :=
  .next ((flowControl_does ..).keeps ((releaseOp_does ..).keeps (.refl _)))

/-! ### Gather stages -/

@[simp] theorem execLookup_leaves (r : StageRef) (s : State) : Leaves s (execLookup r s) := by
  unfold execLookup
  refine .stage ?_
  intro c
  exact (lookupStage_does ..).keeps (.refl _)

@[simp] theorem execPool_leaves (r : StageRef) (s : State) : Leaves s (execPool r s) :=
  .next ((noteTry_does r s).keeps (.refl _) |>.trans (stage_does (by decide) fun c => (poolStage_does ..).keeps (.refl _)))

@[simp] theorem execPoolDirect_leaves (r : StageRef) (s : State) : Leaves s (execPoolDirect r s) := by
  unfold execPoolDirect
  refine .stage ?_
  intro c
  exact (directStage_does ..).keeps (.refl _)

@[simp] theorem execUpdate_leaves (r : StageRef) (s : State) : Leaves s (execUpdate r s) := by
  unfold execUpdate
  refine .stage ?_
  intro c
  exact (updateStage_does ..).keeps (.refl _)

/-! ### Scan stages -/

@[simp] theorem execFilter_leaves (r : StageRef) (s : State) : Leaves s (execFilter r s) := by
  unfold execFilter
  refine .stage fun c => ?_
  dsimp only [pureStage, stageState]
  exact .refl _

@[simp] theorem execFilterCompact_leaves (r : StageRef) (s : State) : Leaves s (execFilterCompact r s) := by
  unfold execFilterCompact
  refine .stage fun c => ?_
  dsimp only [pureStage, stageState]
  exact .refl _

/-! ### Hash engine stages -/

@[simp] theorem execHash_leaves (r : StageRef) (s : State) : Leaves s (execHash r s) := by
  unfold execHash
  refine .stage fun c => ?_
  dsimp only [pureStage, stageState]
  exact .refl _

@[simp] theorem execJoinBuild_leaves (r : StageRef) (s : State) : Leaves s (execJoinBuild r s) := by
  unfold execJoinBuild
  refine .stage ?_
  intro c
  exact (joinBuild_does ..).keeps (.refl _)

@[simp] theorem execJoinProbe_leaves (r : StageRef) (s : State) : Leaves s (execJoinProbe r s) := by
  unfold execJoinProbe
  refine .stage ?_
  intro c
  exact (joinProbe_does ..).keeps (.refl _)

@[simp] theorem execGroupPartial_leaves (r : StageRef) (s : State) : Leaves s (execGroupPartial r s) := by
  unfold execGroupPartial
  refine .stage ?_
  intro c
  exact (groupPartial_does ..).keeps (.refl _)

@[simp] theorem execGroupMerge_leaves (r : StageRef) (s : State) : Leaves s (execGroupMerge r s) := by
  unfold execGroupMerge
  refine .stage ?_
  intro c
  exact (groupMerge_does ..).keeps (.refl _)

/-! ### Shape stages and statistics -/

@[simp] theorem execShape_leaves (r : StageRef) (s : State) : Leaves s (execShape r s) := by
  unfold execShape
  refine .stage ?_
  intro c
  exact .foldl _ (fun _ _ => (pinCopy_does ..).keeps (.refl _)) (.foldl _ (fun _ _ => (storeFracs_does ..).keeps (.refl _))
    (.refl _))

@[simp] theorem execSpectral_leaves (r : StageRef) (s : State) : Leaves s (execSpectral r s) := by
  unfold execSpectral
  refine .stage fun c => ?_
  dsimp only [pureStage, stageState]
  exact .refl _

@[simp] theorem execStats_leaves (r : StageRef) (s : State) : Leaves s (execStats r s) := by
  unfold execStats
  refine .stage ?_
  intro c
  split
  · exact .refl _
  · exact .foldl _ (fun _ _ => (statsEntry_does ..).keeps (.refl _)) (.refl _)

@[simp] theorem execStatsMerge_leaves (slot : BitVec 6) (ref : BitVec 16) (s : State) : Leaves s (execStatsMerge slot ref s) := by
  unfold execStatsMerge
  split
  · exact .next (.refl _)
  · dsimp only
    split
    · exact .next (.refl _)
    · exact .ite (fun _ => .next ((publish_does ..).keeps (.refl _))) (fun _ => .next (.refl _))

@[simp] theorem execEpochBoundary_leaves (slot : BitVec 6) (s : State) : Leaves s (execEpochBoundary slot s) := by
  unfold execEpochBoundary
  split
  · exact .next (.refl _)
  · split
    · exact .next (.refl _)
    · exact .next (.foldl _ (fun _ _ => (refreshAt_does ..).keeps (.refl _)) (.refl _))

@[simp] theorem execStatsFlip_leaves (slot : BitVec 6) (ref : BitVec 16) (s : State) : Leaves s (execStatsFlip slot ref s) := by
  unfold execStatsFlip
  split
  · exact .next (.refl _)
  · exact .ite (fun _ => .next (.refl _)) (fun _ => .next ((finalAnswer_does ..).keeps ((setStat_does ..).keeps (.foldl _
      (fun _ _ => (flipOnce_does ..).keeps (.refl _)) (.refl _)))))

/-! ### Matrix stages -/

@[simp] theorem execLayers_leaves (r : StageRef) (s : State) : Leaves s (execLayers r s) := by
  unfold execLayers
  refine .stage fun c => ?_
  dsimp only [pureStage, stageState]
  exact .refl _

/-! ### Select stages -/

@[simp] theorem execTopk_leaves (r : StageRef) (s : State) : Leaves s (execTopk r s) := by
  unfold execTopk
  refine .stage ?_
  intro c
  dsimp only
  split
  · exact (topkRelease_does ..).keeps (.refl _)
  · exact (topkRows_does ..).keeps (.refl _)

@[simp] theorem execMerge_leaves (r : StageRef) (s : State) : Leaves s (execMerge r s) := by
  unfold execMerge
  refine .stage ?_
  intro c
  exact .foldl _ (fun _ _ => .ite (fun _ => .refl _) (fun _ => (emitErr_does ..).keeps (.refl _))) (.refl _)

@[simp] theorem execArgmax_leaves (r : StageRef) (s : State) : Leaves s (execArgmax r s) := by
  unfold execArgmax
  refine .stage ?_
  intro c
  exact .foldl _ (fun _ _ => (selLimit_does ..).keeps (.refl _)) (.refl _)

/-! ### Match units -/

@[simp] theorem execMatch_leaves (r : StageRef) (parity : List ParityFail) (s : State) : Leaves s (execMatch r parity s) := by
  unfold execMatch
  refine .stage fun c => ?_
  dsimp only
  cases boundOf c.plan 9 (matchAt c.plan.image.blob c.st.param).region with
  | none => exact .refl _
  | some reg => exact (parityErrs_does ..).keeps (.refl _)

@[simp] theorem execAutomaton_leaves (r : StageRef) (parity : List ParityFail) (s : State) :
    Leaves s (execAutomaton r parity s) := by
  unfold execAutomaton
  refine .stage fun c => ?_
  dsimp only
  cases boundOf c.plan 9 (leAt (c.param 8) 6 2) with
  | none => exact .refl _
  | some reg =>
    exact (parityErrs_does ..).keeps (.foldl _ (fun _ _ => .ite (fun _ => (selLimit_does ..).keeps (.refl _)) (fun _ => .refl _))
      (.refl s))

@[simp] theorem execMatchWrite_leaves (r : Req) (slot : Byte) (region first : BitVec 16) (images : List (BitVec 320)) (s : State) :
    Leaves s (execMatchWrite r slot region first images s) := by
  unfold execMatchWrite
  refine .goust ?_
  dsimp only [icmd]
  split
  · exact .refl _
  · split
    · exact .refl _
    · exact (writeEntries_does ..).keeps (.refl _)

@[simp] theorem execMatchTags_leaves (r : Req) (slot : Byte) (region first : BitVec 16) (tags : List Byte) (s : State) :
    Leaves s (execMatchTags r slot region first tags s) := by
  unfold execMatchTags
  refine .goust ?_
  dsimp only [icmd]
  split
  · exact .refl _
  · split
    · exact .refl _
    · exact (writeTags_does ..).keeps (.refl _)

@[simp] theorem execMatchRead_leaves (r : Req) (slot : Byte) (region first n : BitVec 16) (s : State) :
    Leaves s (execMatchRead r slot region first n s) := by
  unfold execMatchRead
  refine .goust ?_
  dsimp only [icmd]
  split
  · exact .refl _
  · exact .refl _

/-! ### Exchange -/

@[simp] theorem execServeTask_leaves (slot : BitVec 6) (stream : BitVec 16) (s : State) :
    Leaves s (execServeTask slot stream s) := by
  unfold execServeTask
  split
  · exact .next (.refl _)
  · refine .ite (fun _ => ?_) (fun _ => ?_)
    · split
      · exact .next (.ite (fun _ => (serveRuled_does ..).keeps (.refl _)) (fun _ => .refl _))
      · exact .next (.refl _)
    · exact .next ((missPeers_does ..).keeps ((serveLists_does ..).keeps (.refl _)))

@[simp] theorem execExReq_leaves (p : KitPacket) (s : State) : Leaves s (execExReq p s) := by
  unfold execExReq
  exact .next (receiveEx_does (by decide) fun c h es u hu =>
    .ite (fun _ => (lateRows_does ..).keeps ((setTable_does ..).keeps hu)) (fun _ => (drop_does ..).keeps hu))

@[simp] theorem execExRows_leaves (p : KitPacket) (s : State) : Leaves s (execExRows p s) := by
  unfold execExRows
  refine .next (receiveEx_does (by decide) fun c h es u hu => ?_)
  split
  · exact (drop_does ..).keeps hu
  · exact .foldl _ (fun _ _ => .ite (fun _ => (drop_does ..).keeps (.refl _)) (fun _ => .ite (fun _ => (drop_does ..).keeps
      (.refl _))
      (fun _ => (landRow_does ..).keeps (.refl _)))) ((setTable_does ..).keeps hu)

@[simp] theorem execExLate_leaves (p : KitPacket) (s : State) : Leaves s (execExLate p s) :=
  .next (receiveEx_does (by decide) fun c h es u hu => (setTable_does ..).keeps hu)

@[simp] theorem execExUpd_leaves (p : KitPacket) (s : State) : Leaves s (execExUpd p s) := by
  unfold execExUpd
  refine .next (receiveEx_does (by decide) fun c h es u hu => ?_)
  dsimp only
  split
  · exact (lateUpdates_does ..).keeps ((setTable_does ..).keeps hu)
  · exact (drop_does ..).keeps hu

@[simp] theorem execCombinerWindow_leaves (die : BitVec 2) (slot : BitVec 6) (s : State) :
    Leaves s (execCombinerWindow die slot s) := by
  unfold execCombinerWindow
  split
  · exact .next (.refl _)
  · exact .ite (fun _ => .next (.refl _)) (fun _ => .next ((releaseWindow_does ..).keeps (.refl _)))

@[simp] theorem execCombinerDrain_leaves (die : BitVec 2) (s : State) : Leaves s (execCombinerDrain die s) := by
  unfold execCombinerDrain
  dsimp only
  split
  · refine .next ?_
    refine (closeWindow_does ..).keeps ?_
    refine (reportSpill_does ..).keeps ?_
    refine .foldl _ (fun u a => ?_) ((setCombiner_does ..).keeps (.refl _))
    split
    · exact .ite (fun _ => (dropStale_does ..).keeps (.refl _)) (fun _ => (applyUpdate_does ..).keeps (.refl _))
    · exact .refl _
  · refine .next ?_
    refine .foldl _ (fun u a => ?_) ((setCombiner_does ..).keeps (.refl _))
    split
    · exact .ite (fun _ => (dropStale_does ..).keeps (.refl _)) (fun _ => (applyUpdate_does ..).keeps (.refl _))
    · exact .refl _

/-! ### Pages and session memory -/

@[simp] theorem execMemAlloc_leaves (r : Req) (bytes : BitVec 64) (mask : Byte) (state : Byte) (s : State) :
    Leaves s (execMemAlloc r bytes mask state s) := by
  unfold execMemAlloc
  refine .goust ?_
  dsimp only [icmd]
  split
  · exact .refl _
  · exact .set rfl rfl rfl outside_everyPart ((zeroRanges_does ..).keeps ((mapPages_does ..).keeps (.refl _)))

@[simp] theorem execMemFree_leaves (r : Req) (base : BitVec 64) (s : State) : Leaves s (execMemFree r base s) := by
  unfold execMemFree
  refine .goust ?_
  dsimp only [icmd]
  split
  · exact .refl _
  · split
    · exact .refl _
    · exact (unmapRun_does ..).keeps (.set rfl rfl rfl outside_everyPart (.refl _))

@[simp] theorem execPageBringIn_leaves (r : Req) (page source : BitVec 64) (state : Byte) (s : State) :
    Leaves s (execPageBringIn r page source state s) := by
  unfold execPageBringIn
  refine .goust ?_
  dsimp only [pcmd]
  split
  · exact .refl _
  · split
    · exact .refl _
    · split
      · exact .refl _
      · split
        · exact .refl _
        · exact .refl _

@[simp] theorem execPageBringInComplete_leaves (page : BitVec 32) (s : State) : Leaves s (execPageBringInComplete page s) := by
  unfold execPageBringInComplete
  split
  · split
    · refine .ite (fun _ => .next ((finalAnswer_does ..).keeps (.refl _))) (fun _ => .next ((finalAnswer_does ..).keeps ?_))
      exact .setMem rfl (fun h => writeCells_wf _ _ _ (clearCells_wf _ _ _ h)) rfl outside_everyPart
        ((drawn_does ..).keeps (.set rfl rfl rfl outside_everyPart (.refl _)))
    · exact .next ((finalAnswer_does ..).keeps (.refl _))
  · exact .next (.refl _)

@[simp] theorem execPageSet_leaves (r : Req) (first : BitVec 64) (pages : BitVec 32) (action : Byte) (s : State) :
    Leaves s (execPageSet r first pages action s) := by
  unfold execPageSet
  refine .goust ?_
  dsimp only [pcmd]
  split
  · exact .refl _
  · exact .refl _

@[simp] theorem execPageSetComplete_leaves (first : BitVec 32) (s : State) : Leaves s (execPageSetComplete first s) := by
  unfold execPageSetComplete
  dsimp only
  split
  · exact .next (.refl _)
  · refine .ite (fun _ => .next (.refl _)) (fun _ => ?_)
    split
    · exact .next ((finalAnswer_does ..).keeps (.refl _))
    · exact .next ((finalAnswer_does ..).keeps (.foldl _ (fun _ _ => (setPage_does ..).keeps (.refl _)) (.refl _)))

@[simp] theorem execPageRead_leaves (r : Req) (first : BitVec 64) (n : BitVec 32) (s : State) :
    Leaves s (execPageRead r first n s) :=
  .goust (.refl _)

/-! ### Streams -/

@[simp] theorem execTileBegin_leaves (r : StreamRef) (s : State) : Leaves s (execTileBegin r s) := by
  unfold execTileBegin
  dsimp only
  split
  · exact .next (.refl _)
  · refine .ite (fun _ => .next (.refl _)) (fun _ => ?_)
    refine .ite (fun _ => ?_) (fun _ => .ite (fun _ => .next (.ite (fun _ => (setStream_does ..).keeps (.refl _))
      (fun _ => .refl _))) (fun _ => .next ((setStream_does ..).keeps (.refl _))))
    split
    · exact .next (.refl _)
    · exact .ite (fun _ => .next (.refl _)) (fun _ => .next ((setStream_does ..).keeps ((fillLines_does ..).keeps (.refl _))))

@[simp] theorem execTransferIssue_leaves (t : StreamTake) (s : State) : Leaves s (execTransferIssue t s) := by
  unfold execTransferIssue
  dsimp only
  split
  · exact .next (.refl _)
  · split
    · exact .next (.refl _)
    · refine .ite (fun _ => .next (.refl _)) (fun _ => ?_)
      split
      · exact .next (.ite (fun _ => .refl _) (fun _ => (shareEnd_does ..).keeps ((packetTile_does ..).keeps
          ((checkHead_does ..).keeps (.refl _)))))
      · exact .next (.ite (fun _ => (shareEnd_does ..).keeps ((issueAt_does ..).keeps ((ringReport_does ..).keeps (.refl _))))
          (fun _ => .refl _))

@[simp] theorem execTransferComplete_leaves (r : StreamRef) (tag : BitVec 11) (lost tagFail : Bool) (s : State) :
    Leaves s (execTransferComplete r tag lost tagFail s) := by
  unfold execTransferComplete
  dsimp only
  split
  · exact .next (.refl _)
  · split
    · exact .next (.refl _)
    · exact .ite (fun _ => .next ((setStream_does ..).keeps (.refl _))) (fun _ => .next ((shareEnd_does ..).keeps
        ((commitPiece_does ..).keeps (.ite (fun _ => (fillLines_does ..).keeps (.ite (fun _ => .ite (fun _ => .ite (fun _ =>
          (loseWord_does ..).keeps ((setStream_does ..).keeps (.refl _))) (fun _ => (setStream_does ..).keeps (.refl _)))
            (fun _ => .ite (fun _ => (dropLines_does ..).keeps ((writeFree_does ..).keeps (.ite (fun _ =>
              (loseWord_does ..).keeps ((setStream_does ..).keeps (.refl _))) (fun _ => (setStream_does ..).keeps (.refl _)))))
                (fun _ => (writeFree_does ..).keeps (.ite (fun _ => (loseWord_does ..).keeps ((setStream_does ..).keeps
                  (.refl _))) (fun _ => (setStream_does ..).keeps (.refl _)))))) (fun _ => (placeBytes_does ..).keeps (.ite
                    (fun _ => (loseWord_does ..).keeps ((setStream_does ..).keeps (.refl _))) (fun _ => (setStream_does ..).keeps
                      (.refl _)))))) (fun _ => .ite (fun _ => .ite (fun _ => .ite (fun _ => (loseWord_does ..).keeps
                        ((setStream_does ..).keeps (.refl _))) (fun _ => (setStream_does ..).keeps (.refl _))) (fun _ => .ite
                          (fun _ => (dropLines_does ..).keeps ((writeFree_does ..).keeps (.ite (fun _ => (loseWord_does ..).keeps
                            ((setStream_does ..).keeps (.refl _))) (fun _ => (setStream_does ..).keeps (.refl _))))) (fun _ =>
                              (writeFree_does ..).keeps (.ite (fun _ => (loseWord_does ..).keeps ((setStream_does ..).keeps
                                (.refl _))) (fun _ => (setStream_does ..).keeps (.refl _)))))) (fun _ =>
                                  (placeBytes_does ..).keeps (.ite (fun _ => (loseWord_does ..).keeps ((setStream_does ..).keeps
                                    (.refl _))) (fun _ => (setStream_does ..).keeps (.refl _)))))))))

@[simp] theorem execStrTagLate_leaves (r : StreamRef) (tag : BitVec 11) (s : State) : Leaves s (execStrTagLate r tag s) := by
  unfold execStrTagLate
  dsimp only
  split
  · exact .next (.refl _)
  · split
    · exact .next (.refl _)
    · exact .ite (fun _ => .next (.refl _)) (fun _ => .next ((emitErr_does ..).keeps ((advanceTo_does ..).keeps (.refl _))))

@[simp] theorem execStreamRead_leaves (q : Req) (r : StreamRef) (s : State) : Leaves s (execStreamRead q r s) := by
  unfold execStreamRead
  refine .goust ?_
  dsimp only [icmd]
  split
  · exact .refl _
  · exact .refl _

@[simp] theorem execStreamFaultRead_leaves (q : Req) (r : StreamRef) (s : State) : Leaves s (execStreamFaultRead q r s) := by
  unfold execStreamFaultRead
  refine .goust ?_
  dsimp only [icmd]
  split
  · exact .refl _
  · split
    · exact .refl _
    · exact .refl _

@[simp] theorem execStreamResume_leaves (q : Req) (r : StreamRef) (s : State) : Leaves s (execStreamResume q r s) := by
  unfold execStreamResume
  refine .goust ?_
  dsimp only [icmd]
  split
  · exact .refl _
  · split
    · split
      · exact (emitErr_does ..).keeps (.refl _)
      · exact (refreshFaulted_does ..).keeps ((setStream_does ..).keeps (.refl _))
    · exact .refl _

@[simp] theorem execStreamAbort_leaves (q : Req) (r : StreamRef) (s : State) : Leaves s (execStreamAbort q r s) := by
  unfold execStreamAbort
  refine .goust ?_
  dsimp only [icmd]
  split
  · exact .refl _
  · split
    · exact (abortStream_does ..).keeps (.refl _)
    · exact .refl _

@[simp] theorem execStreamCancel_leaves (q : Req) (r : StreamRef) (s : State) : Leaves s (execStreamCancel q r s) := by
  unfold execStreamCancel
  refine .goust ?_
  dsimp only [icmd]
  split
  · exact .refl _
  · split
    · exact (cancelStream_does ..).keeps (.refl _)
    · exact .refl _

/-! ### Hot rows, swaps and the Dip -/

@[simp] theorem execSurveyInterval_leaves (s : State) : Leaves s (execSurveyInterval s) :=
  .ite (fun _ => .next (.refl _)) (fun _ => .next ((placeMissed_does ..).keeps ((surveyHot_does ..).keeps
    (.set rfl rfl rfl outside_everyPart (.refl _)))))

@[simp] theorem execMigrationCopyComplete_leaves (slot : BitVec 6) (ref : BitVec 16) (row : BitVec 64) (s : State) :
    Leaves s (execMigrationCopyComplete slot ref row s) := by
  unfold execMigrationCopyComplete
  split
  · exact .next (.refl _)
  · dsimp only
    split
    · exact .ite (fun _ => .next (.refl _)) (fun _ => .next (.set rfl rfl rfl outside_everyPart ((setTable_does ..).keeps
        ((copyRows_does ..).keeps (.refl _)))))
    · exact .next (.refl _)

@[simp] theorem execHotRowCutover_leaves (slot : BitVec 6) (ref : BitVec 16) (row : BitVec 64) (s : State) :
    Leaves s (execHotRowCutover slot ref row s) := by
  unfold execHotRowCutover
  split
  · exact .next (.refl _)
  · split
    · exact .next ((markDone_does ..).keeps ((replayLog_does ..).keeps (.refl _)))
    · exact .next (.refl _)

@[simp] theorem execTableSwap_leaves (slot : BitVec 6) (live : BitVec 16) (s : State) : Leaves s (execTableSwap slot live s) := by
  unfold execTableSwap
  split
  · exact .next ((markDone_does ..).keeps (.refl _))
  · exact .next (.refl _)

@[simp] theorem execDipPlacementChange_leaves (slot : BitVec 6) (ref : BitVec 16) (row : BitVec 64) (s : State) :
    Leaves s (execDipPlacementChange slot ref row s) := by
  unfold execDipPlacementChange
  split
  · exact .next ((markDone_does ..).keeps (.refl _))
  · exact .next (.refl _)

@[simp] theorem execDipReq_leaves (p : KitPacket) (late : Bool) (s : State) : Leaves s (execDipReq p late s) := by
  unfold execDipReq
  split
  · exact .next ((Does.of_snd ‹receiveKit _ _ _ = _› (receiveKit_does ..)).keeps (.refl _))
  · split
    · exact .next ((tickEvent_does ..).keeps ((enqueueKit_does ..).keeps ((dipProbe_does ..).keeps
        ((Does.of_snd ‹receiveKit _ _ _ = _› (receiveKit_does ..)).keeps (.refl _)))))
    · exact .next ((enqueueKit_does ..).keeps ((dipProbe_does ..).keeps ((Does.of_snd ‹receiveKit _ _ _ = _›
        (receiveKit_does ..)).keeps (.refl _))))

@[simp] theorem execOwnerMap_leaves (r : Req) (slot : Byte) (ref : BitVec 16) (first : BitVec 32) (words : List (BitVec 64))
    (s : State) :
    Leaves s (execOwnerMap r slot ref first words s) := by
  unfold execOwnerMap
  refine .goust ?_
  dsimp only [icmd]
  split
  · exact .refl _
  · split
    · exact .refl _
    · split
      · exact .refl _
      · split
        · exact .refl _
        · split
          · exact .refl _
          · exact (setTable_does ..).keeps (.refl _)

@[simp] theorem execOwnerRead_leaves (r : Req) (slot : Byte) (ref : BitVec 16) (first : BitVec 32) (n : BitVec 16) (s : State) :
    Leaves s (execOwnerRead r slot ref first n s) := by
  unfold execOwnerRead
  refine .goust ?_
  dsimp only [icmd]
  split
  · exact .refl _
  · split
    · exact .refl _
    · exact .refl _

@[simp] theorem execTableReplace_leaves (r : Req) (slot : Byte) (live standby : BitVec 16) (t : BitVec 64) (s : State) :
    Leaves s (execTableReplace r slot live standby t s) := by
  unfold execTableReplace
  refine .goust ?_
  dsimp only [pcmd]
  split
  · split
    · exact (returnAll_does ..).keeps (.foldl _ (fun _ _ => (abortCopy_does ..).keeps (.refl _))
        (.set rfl rfl rfl outside_everyPart (.refl _)))
    · exact .refl _
  · exact .refl _

@[simp] theorem execTableCounters_leaves (r : Req) (slot : Byte) (ref : BitVec 16) (s : State) :
    Leaves s (execTableCounters r slot ref s) := by
  unfold execTableCounters
  refine .goust ?_
  dsimp only [icmd]
  split
  · exact .refl _
  · exact .refl _

/-! ### Ingest and media -/

@[simp] theorem execIngestUnitDecode_leaves (r : StreamRef) (s : State) : Leaves s (execIngestUnitDecode r s) := by
  unfold execIngestUnitDecode
  dsimp only
  split
  · exact .next (.refl _)
  · exact .ite (fun _ => .next (.refl _)) (fun _ => .ite (fun _ => .next (.ite (fun _ => (restartIngest_does ..).keeps (.refl _))
      (fun _ => .refl _))) (fun _ => .next ((decodeUnit_does ..).keeps (.refl _))))

@[simp] theorem execFrameDecode_leaves (r : StreamRef) (historyLost : Bool) (s : State) :
    Leaves s (execFrameDecode r historyLost s) := by
  unfold execFrameDecode
  split
  · dsimp only
    split
    · exact .next (.refl _)
    · split
      · exact .next (.refl _)
      · exact .next (.ite (fun _ => (emitErr_does ..).keeps ((drawn_does ..).keeps ((emitErr_does ..).keeps
          ((shareEnd_does ..).keeps ((setStream_does ..).keeps ((drawn_does ..).keeps (.refl _))))))) (fun _ =>
            (emitErr_does ..).keeps ((shareEnd_does ..).keeps ((setStream_does ..).keeps ((drawn_does ..).keeps (.refl _))))))
  · dsimp only
    split
    · exact .next (.refl _)
    · split
      · exact .next (.refl _)
      · exact .next (.ite (fun _ => (emitErr_does ..).keeps ((drawn_does ..).keeps ((shareEnd_does ..).keeps
          ((setStream_does ..).keeps ((drawn_does ..).keeps (.refl _)))))) (fun _ => (shareEnd_does ..).keeps
            ((setStream_does ..).keeps ((drawn_does ..).keeps (.refl _)))))

@[simp] theorem execRasterItem_leaves (slot : BitVec 6) (stream : BitVec 16) (s : State) :
    Leaves s (execRasterItem slot stream s) :=
  .next ((shareEnd_does ..).keeps ((mediaItem_does ..).keeps (.refl _)))

@[simp] theorem execPcmItem_leaves (slot : BitVec 6) (stream : BitVec 16) (s : State) : Leaves s (execPcmItem slot stream s) :=
  .next ((shareEnd_does ..).keeps ((mediaItem_does ..).keeps (.refl _)))

/-! ### Batches -/

@[simp] theorem execBatchClose_leaves (slot : BitVec 6) (layout : BitVec 8) (s : State) :
    Leaves s (execBatchClose slot layout s) := by
  unfold execBatchClose
  split
  · exact .next (.refl _)
  · split
    · exact .next (.refl _)
    · dsimp only
      split
      · split
        · exact .next ((freeFor_does ..).keeps (.refl _))
        · exact .ite (fun _ => .next ((freeFor_does ..).keeps (.refl _))) (fun _ => .next ((completeBatch_does ..).keeps
            ((emitBlot_does ..).keeps ((freeFor_does ..).keeps (.refl _)))))
      · exact .next (.refl _)

/-! ### Ports, streams of packets and PTP -/

@[simp] theorem execPortSet_leaves (r : Req) (p : Byte) (cfg : BitVec 64) (ip : Bytes) (s : State) :
    Leaves s (execPortSet r p cfg ip s) := by
  unfold execPortSet
  refine .goust ?_
  dsimp only [icmd]
  split
  · exact .refl _
  · exact (flowControl_does ..).keeps ((writePort_does ..).keeps (.refl _))

@[simp] theorem execPortRead_leaves (r : Req) (p : Byte) (s : State) : Leaves s (execPortRead r p s) := .goust (.refl _)

@[simp] theorem execDeviceNumberSet_leaves (r : Req) (number : BitVec 16) (s : State) :
    Leaves s (execDeviceNumberSet r number s) := by
  unfold execDeviceNumberSet
  refine .goust ?_
  dsimp only [icmd]
  split
  · exact .refl _
  · exact .set rfl rfl rfl outside_everyPart (.refl _)

@[simp] theorem execNeighbourSet_leaves (r : Req) (first : BitVec 16) (es : List NeighbourEntry) (s : State) :
    Leaves s (execNeighbourSet r first es s) :=
  .goust ((writeNeighbours_does ..).keeps (.refl _))

@[simp] theorem execTxStreamSet_leaves (r : Req) (queue dest stream : BitVec 16) (p cls : Byte) (key : BitVec 16) (s : State) :
    Leaves s (execTxStreamSet r queue dest stream p cls key s) := by
  unfold execTxStreamSet
  refine .goust ?_
  dsimp only [icmd, pcmd, qcmd]
  split
  · exact .refl _
  · split
    · exact .refl _
    · exact .set rfl rfl rfl outside_everyPart (.refl _)

@[simp] theorem execRxStreamSet_leaves (r : Req) (source : BitVec 16) (ext dest : Byte) (stream queue : BitVec 16)
    (dva bytes : BitVec 64) (s : State) :
    Leaves s (execRxStreamSet r source ext dest stream queue dva bytes s) := by
  unfold execRxStreamSet
  split
  · split
    · dsimp only [icmd]
      exact .goust (.set rfl rfl rfl outside_everyPart (.refl _))
    · dsimp only [icmd]
      exact .goust (.set rfl rfl rfl outside_everyPart (.refl _))
  · split
    · dsimp only [icmd]
      refine .goust ?_
      dsimp only [icmd]
      split
      · exact .refl _
      · split
        · exact .set rfl rfl rfl outside_everyPart (.refl _)
        · split
          · exact .refl _
          · exact .set rfl rfl rfl outside_everyPart (.refl _)
    · dsimp only [icmd]
      refine .goust ?_
      dsimp only [icmd]
      split
      · exact .refl _
      · split
        · exact .set rfl rfl rfl outside_everyPart (.refl _)
        · split
          · exact .refl _
          · exact .set rfl rfl rfl outside_everyPart (.refl _)

@[simp] theorem execRxStreamRead_leaves (r : Req) (source : BitVec 16) (ext : Byte) (stream : BitVec 16) (s : State) :
    Leaves s (execRxStreamRead r source ext stream s) := by
  unfold execRxStreamRead
  refine .goust ?_
  dsimp only [icmd]
  split
  · exact .refl _
  · exact .refl _

@[simp] theorem execTransmitStreamPacket_leaves (k : QueueTake) (s : State) : Leaves s (execTransmitStreamPacket k s) := by
  unfold execTransmitStreamPacket
  split
  · exact .next (.refl _)
  · dsimp only
    split
    · exact .next (.set rfl rfl rfl outside_everyPart (.foldl _ (fun _ _ => (enqueueKit_does ..).keeps (.refl _))
        ((takePacket_does ‹_›).keeps ((checkHead_does ..).keeps (.refl _)))))
    · exact .next ((checkHead_does ..).keeps (.refl _))

@[simp] theorem execPtpSet_leaves (r : Req) (p transport domain : Byte) (asymmetry : BitVec 32) (s : State) :
    Leaves s (execPtpSet r p transport domain asymmetry s) := by
  unfold execPtpSet
  refine .goust ?_
  dsimp only [icmd]
  split
  · exact .refl _
  · exact .set rfl rfl rfl outside_everyPart (.refl _)

@[simp] theorem execPtpRead_leaves (r : Req) (s : State) : Leaves s (execPtpRead r s) := .goust (.refl _)

@[simp] theorem execSync_leaves (m : PtpMessage) (s : State) : Leaves s (execSync m s) := by
  unfold execSync
  refine .ite (fun _ => .next (.refl _)) (fun _ => ?_)
  split
  · exact .next (.set rfl rfl rfl outside_everyPart ((sendDelayReq_does ..).keeps ((chooseMaster_does ..).keeps (.refl _))))
  · exact .next ((syncDone_does ..).keeps ((sendDelayReq_does ..).keeps ((chooseMaster_does ..).keeps (.refl _))))

@[simp] theorem execFollowUp_leaves (m : PtpMessage) (s : State) : Leaves s (execFollowUp m s) := by
  unfold execFollowUp
  refine .ite (fun _ => .next (.refl _)) (fun _ => ?_)
  dsimp only
  split
  · exact .next (.ite (fun _ => (syncDone_does ..).keeps ((chooseMaster_does ..).keeps (.refl _))) (fun _ =>
      (chooseMaster_does ..).keeps (.refl _)))
  · exact .next ((chooseMaster_does ..).keeps (.refl _))

@[simp] theorem execDelayResp_leaves (m : PtpMessage) (s : State) : Leaves s (execDelayResp m s) := by
  unfold execDelayResp
  refine .ite (fun _ => .next (.refl _)) (fun _ => ?_)
  dsimp only
  split
  · exact .ite (fun _ => .next (.set rfl rfl rfl outside_everyPart ((chooseMaster_does ..).keeps (.refl _)))) (fun _ => .next
      ((chooseMaster_does ..).keeps (.refl _)))
  · exact .next ((chooseMaster_does ..).keeps (.refl _))

@[simp] theorem execAnnounce_leaves (m : PtpMessage) (d : PtpDataSet) (s : State) : Leaves s (execAnnounce m d s) :=
  .ite (fun _ => .next (.refl _)) (fun _ => .next ((chooseMaster_does ..).keeps (.set rfl rfl rfl outside_everyPart (.refl _))))

@[simp] theorem execPtpPpsIn_leaves (ago : BitVec 64) (width : BitVec 32) (s : State) : Leaves s (execPtpPpsIn ago width s) := by
  unfold execPtpPpsIn
  split
  · exact .next (.refl _)
  · exact .next (.set rfl rfl rfl outside_everyPart (.refl _))

@[simp] theorem execPtpPpsOut_leaves (s : State) : Leaves s (execPtpPpsOut s) :=
  .next (.set rfl rfl rfl outside_everyPart ((advanceTo_does ..).keeps (.refl _)))

@[simp] theorem execNotForPort_leaves (p : BitVec 2) (frame : Bytes) (s : State) : Leaves s (execNotForPort p frame s) := by
  unfold execNotForPort
  split
  · exact .next ((drop_does ..).keeps (.refl _))
  · exact .next (.refl _)

@[simp] theorem execPfcFrame_leaves (p : BitVec 2) (times : List (BitVec 3 × BitVec 16)) (s : State) :
    Leaves s (execPfcFrame p times s) :=
  .ite (fun _ => .next (.refl _)) (fun _ => .next ((setPort_does ..).keeps (.refl _)))

@[simp] theorem execPauseFrame_leaves (_p : BitVec 2) (s : State) : Leaves s (execPauseFrame _p s) := .next (.refl _)

@[simp] theorem execPauseTimeExpired_leaves (p : BitVec 2) (pr : BitVec 3) (s : State) :
    Leaves s (execPauseTimeExpired p pr s) := by
  unfold execPauseTimeExpired
  dsimp only
  split
  · exact .next (.refl _)
  · exact .next ((setPort_does ..).keeps ((advanceTo_does ..).keeps (.refl _)))

@[simp] theorem execPortLinkDown_leaves (p : BitVec 2) (s : State) : Leaves s (execPortLinkDown p s) :=
  .ite (fun _ => .next (.refl _)) (fun _ => .next ((emitErr_does ..).keeps ((setPort_does ..).keeps (.refl _))))

@[simp] theorem execLinkUp_leaves (p : BitVec 2) (s : State) : Leaves s (execLinkUp p s) :=
  .ite (fun _ => .next (.refl _)) (fun _ => .next ((setPort_does ..).keeps (.refl _)))

@[simp] theorem execUncorrectedCodeword_leaves (p : BitVec 2) (s : State) : Leaves s (execUncorrectedCodeword p s) :=
  .ite (fun _ => .next (.refl _)) (fun _ => .next ((tickEvent_does ..).keeps ((drawn_does ..).keeps ((setPort_does ..).keeps
    (.refl _)))))

@[simp] theorem execLinkLaneDown_leaves (die peer : BitVec 2) (group : BitVec 4) (s : State) :
    Leaves s (execLinkLaneDown die peer group s) :=
  .ite (fun _ => .next (.refl _)) (fun _ => .next ((emitErr_does ..).keeps (.set rfl rfl rfl outside_everyPart (.refl _))))

@[simp] theorem execLinkDown_leaves (die peer : BitVec 2) (s : State) : Leaves s (execLinkDown die peer s) :=
  .ite (fun _ => .next (.refl _)) (fun _ => .next ((emitErr_does ..).keeps (.set rfl rfl rfl outside_everyPart (.refl _))))

/-! ### Identity -/

@[simp] theorem execIdentify_leaves (r : Req) (s : State) : Leaves s (execIdentify r s) := .goust (.refl _)

@[simp] theorem execInventory_leaves (r : Req) (first : BitVec 32) (s : State) : Leaves s (execInventory r first s) :=
  .goust (.refl _)

@[simp] theorem execMailboxRead_leaves (r : Req) (s : State) : Leaves s (execMailboxRead r s) := .goust (.refl _)

@[simp] theorem execUnknownOpcode_leaves (r : Req) (opcode : BitVec 16) (s : State) : Leaves s (execUnknownOpcode r opcode s) :=
  .next (byTag_does (by decide) (.refl _) ((answer_does ..).keeps (.refl _)))

/-! ### The Seal and handshakes -/

@[simp] theorem execMeasurementsRead_leaves (r : Req) (s : State) : Leaves s (execMeasurementsRead r s) := .goust (.refl _)

@[simp] theorem execAttest_leaves (r : Req) (nonce : Bytes) (s : State) : Leaves s (execAttest r nonce s) := by
  unfold execAttest
  refine .goust ?_
  dsimp only [icmd]
  split
  · exact .refl _
  · exact (signReport_does ..).keeps (.refl _)

@[simp] theorem execHandshakeFragmentTimeout_leaves (id : BitVec 64) (type : Byte) (s : State) :
    Leaves s (execHandshakeFragmentTimeout id type s) := by
  unfold execHandshakeFragmentTimeout
  dsimp only
  split
  · exact .next (.refl _)
  · exact .next ((advanceTo_does ..).keeps (.set rfl rfl rfl outside_everyPart (.refl _)))

@[simp] theorem execHello_leaves (p : KitPacket) (s : State) : Leaves s (execHello p s) := by
  unfold execHello
  split
  · exact .next ((Does.of_snd ‹receiveHs _ _ _ = _› (receiveHs_does ..)).keeps (.refl _))
  · split
    · exact .next ((Does.of_snd ‹reassemble _ _ = _› (reassemble_does ..)).keeps ((Does.of_snd ‹receiveHs _ _ _ = _›
        (receiveHs_does ..)).keeps (.refl _)))
    · split
      · exact .next (.ite (fun _ => (sendAbort_does ..).keeps ((Does.of_snd ‹reassemble _ _ = _› (reassemble_does ..)).keeps
          ((Does.of_snd ‹receiveHs _ _ _ = _› (receiveHs_does ..)).keeps (.refl _)))) (fun _ => (sendReply_does ..).keeps
            ((Does.of_snd ‹reassemble _ _ = _› (reassemble_does ..)).keeps ((Does.of_snd ‹receiveHs _ _ _ = _›
              (receiveHs_does ..)).keeps (.refl _)))))
      · split
        · exact .next ((sendAbort_does ..).keeps ((Does.of_snd ‹reassemble _ _ = _› (reassemble_does ..)).keeps
            ((Does.of_snd ‹receiveHs _ _ _ = _› (receiveHs_does ..)).keeps (.refl _))))
        · exact .ite (fun _ => .next ((sendAbort_does ..).keeps ((Does.of_snd ‹reassemble _ _ = _› (reassemble_does ..)).keeps
            ((Does.of_snd ‹receiveHs _ _ _ = _› (receiveHs_does ..)).keeps (.refl _))))) (fun _ => .next
              ((answerHello_does ..).keeps ((Does.of_snd ‹reassemble _ _ = _› (reassemble_does ..)).keeps
                ((Does.of_snd ‹receiveHs _ _ _ = _› (receiveHs_does ..)).keeps (.refl _)))))

@[simp] theorem execIdReq_leaves (p : KitPacket) (s : State) : Leaves s (execIdReq p s) := by
  unfold execIdReq
  split
  · exact .next ((Does.of_snd ‹receiveHs _ _ _ = _› (receiveHs_does ..)).keeps (.refl _))
  · exact .ite (fun _ => .next ((Does.of_snd ‹receiveHs _ _ _ = _› (receiveHs_does ..)).keeps (.refl _))) (fun _ => .next
      ((sendHs_does ..).keeps ((setPort_does ..).keeps ((Does.of_snd ‹receiveHs _ _ _ = _› (receiveHs_does ..)).keeps (.refl _)))))

@[simp] theorem execFinish_leaves (p : KitPacket) (s : State) : Leaves s (execFinish p s) := by
  unfold execFinish
  split
  · exact .next ((Does.of_snd ‹receiveHs _ _ _ = _› (receiveHs_does ..)).keeps (.refl _))
  · split
    · exact .next ((Does.of_snd ‹reassemble _ _ = _› (reassemble_does ..)).keeps ((Does.of_snd ‹receiveHs _ _ _ = _›
        (receiveHs_does ..)).keeps (.refl _)))
    · split
      · exact .next ((Does.of_snd ‹reassemble _ _ = _› (reassemble_does ..)).keeps ((Does.of_snd ‹receiveHs _ _ _ = _›
          (receiveHs_does ..)).keeps (.refl _)))
      · split
        · exact .ite (fun _ => .next ((abortHandshake_does ..).keeps ((Does.of_snd ‹reassemble _ _ = _›
            (reassemble_does ..)).keeps ((Does.of_snd ‹receiveHs _ _ _ = _› (receiveHs_does ..)).keeps (.refl _)))))
              (fun _ => .next ((abortHandshake_does ..).keeps ((Does.of_snd ‹reassemble _ _ = _› (reassemble_does ..)).keeps
                ((Does.of_snd ‹receiveHs _ _ _ = _› (receiveHs_does ..)).keeps (.refl _)))))
        · exact .ite (fun _ => .next ((abortHandshake_does ..).keeps ((Does.of_snd ‹reassemble _ _ = _›
            (reassemble_does ..)).keeps ((Does.of_snd ‹receiveHs _ _ _ = _› (receiveHs_does ..)).keeps (.refl _)))))
              (fun _ => .ite (fun _ => .next ((abortHandshake_does ..).keeps ((Does.of_snd ‹reassemble _ _ = _›
                (reassemble_does ..)).keeps ((Does.of_snd ‹receiveHs _ _ _ = _› (receiveHs_does ..)).keeps (.refl _)))))
                  (fun _ => .next ((finalAnswer_does ..).keeps ((sendHs_does ..).keeps ((loadSlot_does ..).keeps
                    ((Does.of_snd ‹reassemble _ _ = _› (reassemble_does ..)).keeps ((Does.of_snd ‹receiveHs _ _ _ = _›
                      (receiveHs_does ..)).keeps (.refl _))))))))

@[simp] theorem execHelloRepeat_leaves (slot : BitVec 12) (s : State) : Leaves s (execHelloRepeat slot s) := by
  unfold execHelloRepeat
  split
  · refine .ite (fun _ => .next (.refl _)) (fun _ => ?_)
    exact .next ((sendHs_does ..).keeps (.set rfl rfl rfl outside_everyPart ((advanceTo_does ..).keeps (.refl _))))
  · split
    · exact .next (.ite (fun _ => (startHello_does ..).keeps (.refl _)) (fun _ => .refl _))
    · exact .next (.refl _)

@[simp] theorem execReply_leaves (p : KitPacket) (s : State) : Leaves s (execReply p s) := by
  unfold execReply
  split
  · exact .next ((Does.of_snd ‹receiveHs _ _ _ = _› (receiveHs_does ..)).keeps (.refl _))
  · split
    · exact .next ((Does.of_snd ‹reassemble _ _ = _› (reassemble_does ..)).keeps ((Does.of_snd ‹receiveHs _ _ _ = _›
        (receiveHs_does ..)).keeps (.refl _)))
    · split
      · exact .next ((Does.of_snd ‹reassemble _ _ = _› (reassemble_does ..)).keeps ((Does.of_snd ‹receiveHs _ _ _ = _›
          (receiveHs_does ..)).keeps (.refl _)))
      · refine .ite (fun _ => .next ((abortHandshake_does ..).keeps ((Does.of_snd ‹reassemble _ _ = _›
          (reassemble_does ..)).keeps ((Does.of_snd ‹receiveHs _ _ _ = _› (receiveHs_does ..)).keeps (.refl _))))) (fun _ => ?_)
        refine .ite (fun _ => .next ((abortHandshake_does ..).keeps ((Does.of_snd ‹reassemble _ _ = _›
          (reassemble_does ..)).keeps ((Does.of_snd ‹receiveHs _ _ _ = _› (receiveHs_does ..)).keeps (.refl _))))) (fun _ => ?_)
        exact .ite (fun _ => .next ((abortHandshake_does ..).keeps ((Does.of_snd ‹reassemble _ _ = _› (reassemble_does ..)).keeps
          ((Does.of_snd ‹receiveHs _ _ _ = _› (receiveHs_does ..)).keeps (.refl _))))) (fun _ => .next ((sendHs_does ..).keeps
            (.set rfl rfl rfl outside_everyPart ((signReport_does ..).keeps ((Does.of_snd ‹reassemble _ _ = _›
              (reassemble_does ..)).keeps ((Does.of_snd ‹receiveHs _ _ _ = _› (receiveHs_does ..)).keeps (.refl _)))))))

@[simp] theorem execConfirm_leaves (p : KitPacket) (s : State) : Leaves s (execConfirm p s) := by
  unfold execConfirm
  split
  · exact .next ((Does.of_snd ‹receiveHs _ _ _ = _› (receiveHs_does ..)).keeps (.refl _))
  · split
    · exact .next ((Does.of_snd ‹reassemble _ _ = _› (reassemble_does ..)).keeps ((Does.of_snd ‹receiveHs _ _ _ = _›
        (receiveHs_does ..)).keeps (.refl _)))
    · split
      · exact .next ((Does.of_snd ‹reassemble _ _ = _› (reassemble_does ..)).keeps ((Does.of_snd ‹receiveHs _ _ _ = _›
          (receiveHs_does ..)).keeps (.refl _)))
      · exact .ite (fun _ => .next ((abortHandshake_does ..).keeps ((Does.of_snd ‹reassemble _ _ = _› (reassemble_does ..)).keeps
          ((Does.of_snd ‹receiveHs _ _ _ = _› (receiveHs_does ..)).keeps (.refl _))))) (fun _ => .next
            ((finalAnswer_does ..).keeps ((loadSlot_does ..).keeps ((Does.of_snd ‹reassemble _ _ = _› (reassemble_does ..)).keeps
              ((Does.of_snd ‹receiveHs _ _ _ = _› (receiveHs_does ..)).keeps (.refl _))))))

@[simp] theorem execAbort_leaves (p : KitPacket) (s : State) : Leaves s (execAbort p s) := by
  unfold execAbort
  split
  · exact .next ((Does.of_snd ‹receiveHs _ _ _ = _› (receiveHs_does ..)).keeps (.refl _))
  · split
    · exact .next ((Does.of_snd ‹reassemble _ _ = _› (reassemble_does ..)).keeps ((Does.of_snd ‹receiveHs _ _ _ = _›
        (receiveHs_does ..)).keeps (.refl _)))
    · split
      · exact .next ((Does.of_snd ‹reassemble _ _ = _› (reassemble_does ..)).keeps ((Does.of_snd ‹receiveHs _ _ _ = _›
          (receiveHs_does ..)).keeps (.refl _)))
      · exact .next ((failOpen_does ..).keeps ((dropHandshake_does ..).keeps ((noteAbort_does ..).keeps
          ((Does.of_snd ‹reassemble _ _ = _› (reassemble_does ..)).keeps ((Does.of_snd ‹receiveHs _ _ _ = _›
            (receiveHs_does ..)).keeps (.refl _))))))

@[simp] theorem execHandshakeTimeout_leaves (slot : BitVec 12) (s : State) : Leaves s (execHandshakeTimeout slot s) := by
  unfold execHandshakeTimeout
  split
  · exact .next (.refl _)
  · exact .next ((abortHandshake_does ..).keeps ((advanceTo_does ..).keeps (.refl _)))

@[simp] theorem execKeyslotOpen_leaves (r : Req) (slot : BitVec 16) (kind : Byte) (peer : BitVec 16) (material : Bytes)
    (s : State) :
    Leaves s (execKeyslotOpen r slot kind peer material s) := by
  unfold execKeyslotOpen
  refine .goust ?_
  dsimp only [pcmd]
  split
  · exact .refl _
  · split
    · exact .refl _
    · split
      · exact .refl _
      · split
        · split
          · exact (startHello_does ..).keeps ((drawn_does ..).keeps (.set rfl rfl rfl outside_everyPart (.refl _)))
          · exact (startHello_does ..).keeps ((drawn_does ..).keeps (.set rfl rfl rfl outside_everyPart (.refl _)))
        · split
          · exact (drawn_does ..).keeps (.set rfl rfl rfl outside_everyPart (.refl _))
          · exact (drawn_does ..).keeps (.set rfl rfl rfl outside_everyPart (.refl _))

@[simp] theorem execKeyslotOpenTimeout_leaves (slot : BitVec 16) (s : State) : Leaves s (execKeyslotOpenTimeout slot s) := by
  unfold execKeyslotOpenTimeout
  split
  · exact .next (.refl _)
  · exact .next ((failOpen_does ..).keeps (.set rfl rfl rfl outside_everyPart ((advanceTo_does ..).keeps (.refl _))))

@[simp] theorem execKeyslotClose_leaves (r : Req) (slot : BitVec 16) (s : State) : Leaves s (execKeyslotClose r slot s) := by
  unfold execKeyslotClose
  dsimp only [icmd]
  refine .goust ?_
  dsimp only [icmd]
  split
  · exact .refl _
  · split
    · exact (closeOpen_does ..).keeps (.refl _)
    · split
      · exact (wipeSlot_does ..).keeps (.refl _)
      · exact .refl _

@[simp] theorem execSessionRekey_leaves (r : Req) (material : Bytes) (s : State) : Leaves s (execSessionRekey r material s) := by
  unfold execSessionRekey
  refine .goust ?_
  dsimp only [pcmd]
  split
  · exact .refl _
  · split
    · exact .refl _
    · exact .set rfl rfl rfl outside_everyPart ((drawn_does ..).keeps ((drawn_does ..).keeps ((drawn_does ..).keeps (.refl _))))

@[simp] theorem execRekeyTimeout_leaves (s : State) : Leaves s (execRekeyTimeout s) := by
  unfold execRekeyTimeout
  split
  · exact .next (.refl _)
  · exact .next ((finalAnswer_does ..).keeps (.set rfl rfl rfl outside_everyPart ((advanceTo_does ..).keeps (.refl _))))

@[simp] theorem execSecTrngHealth_leaves (ok : Bool) (s : State) : Leaves s (execSecTrngHealth ok s) :=
  .ite (fun _ => .next (.set rfl rfl rfl outside_everyPart (.refl _))) (fun _ => .ite (fun _ => .next (.refl _)) (fun _ => .next
    ((emitErr_does ..).keeps (.set rfl rfl rfl outside_everyPart (.refl _)))))

/-! ### Power, start-up and sensors -/

@[simp] theorem execPowerOn_leaves (fresh : Bool) (s : State) : Leaves s (execPowerOn fresh s) :=
  .ite (fun _ => .next (.set rfl rfl rfl outside_everyPart ((blank_does ..).keeps (.refl _)))) (fun _ => .next (.refl _))

@[simp] theorem execPwrGood_leaves (s : State) : Leaves s (execPwrGood s) :=
  .next (.ite (fun _ => (startRom_does ..).keeps (.refl _)) (fun _ => .refl _))

@[simp] theorem execLoaderAccepted_leaves (primary alternate : ImageCopy) (s : State) :
    Leaves s (execLoaderAccepted primary alternate s) := by
  unfold execLoaderAccepted
  refine .ite (fun _ => .next (.refl _)) (fun _ => ?_)
  split
  · exact .next ((Does.of_snd ‹bootStage _ _ _ _ = _› (bootStage_does ..)).keeps (.refl _))
  · exact .next ((extendMr_does ..).keeps (.set rfl rfl rfl outside_everyPart ((Does.of_snd ‹bootStage _ _ _ _ = _›
      (bootStage_does ..)).keeps (.refl _))))

@[simp] theorem execGoustReady_leaves (primary alternate : ImageCopy) (bringup : Bytes) (s : State) :
    Leaves s (execGoustReady primary alternate bringup s) := by
  unfold execGoustReady
  refine .ite (fun _ => .next (.refl _)) (fun _ => ?_)
  split
  · exact .next ((Does.of_snd ‹bootStage _ _ _ _ = _› (bootStage_does ..)).keeps (.refl _))
  · exact .next ((applyBringup_does ..).keeps ((commitFuses_does ..).keeps ((extendMr_does ..).keeps
      (.set rfl rfl rfl outside_everyPart ((Does.of_snd ‹bootStage _ _ _ _ = _› (bootStage_does ..)).keeps (.refl _))))))

@[simp] theorem execModResetN_leaves (s : State) : Leaves s (execModResetN s) :=
  .ite (fun _ => .next (.refl _)) (fun _ => .next (.set rfl rfl rfl outside_everyPart (.refl _)))

@[simp] theorem execModResetRelease_leaves (s : State) : Leaves s (execModResetRelease s) := by
  unfold execModResetRelease
  refine .ite (fun _ => .next (.refl _)) (fun _ => ?_)
  refine .ite (fun _ => .next ((startRom_does ..).keeps ((blank_does ..).keeps (.refl _)))) (fun _ => ?_)
  exact .next (.set rfl rfl rfl outside_everyPart ((blank_does ..).keeps (.refl _)))

@[simp] theorem execStandby_leaves (s : State) : Leaves s (execStandby s) :=
  .next (.set rfl rfl rfl outside_everyPart ((blank_does ..).keeps (.refl _)))

@[simp] theorem execShutdown_leaves (sensor : Byte) (s : State) : Leaves s (execShutdown sensor s) := by
  unfold execShutdown
  refine .ite (fun _ => .next (.refl _)) (fun _ => ?_)
  exact .next (.set rfl rfl rfl outside_everyPart ((blank_does ..).keeps (.refl _)))

@[simp] theorem execSupplyWarningBand_leaves (supply : BitVec 2) (mv : BitVec 32) (s : State) :
    Leaves s (execSupplyWarningBand supply mv s) :=
  .ite (fun _ => .next ((powerRecord_does ..).keeps (.set rfl rfl rfl outside_everyPart (.refl _)))) (fun _ => .next (.refl _))

@[simp] theorem execThermalWarn_leaves (sensor : Byte) (temp : BitVec 16) (s : State) :
    Leaves s (execThermalWarn sensor temp s) := by
  unfold execThermalWarn
  dsimp only
  split
  · exact .ite (fun _ => .next (.ite (fun _ => (holdMargin_does ..).keeps ((powerRecord_does ..).keeps ((setTemp_does ..).keeps
      (.refl _)))) (fun _ => (powerRecord_does ..).keeps ((setTemp_does ..).keeps (.refl _))))) (fun _ => .next (.refl _))
  · exact .next (.refl _)

@[simp] theorem execProtection_leaves (sensor : Byte) (reading : BitVec 32) (s : State) :
    Leaves s (execProtection sensor reading s) := by
  unfold execProtection
  dsimp only
  split
  · exact .ite (fun _ => .next ((holdMargin_does ..).keeps ((powerRecord_does ..).keeps ((setTemp_does ..).keeps (.refl _)))))
      (fun _ => .next (.refl _))
  · exact .next (.refl _)

@[simp] theorem execReadingReturnedToRange_leaves (sensor : Byte) (reading : BitVec 32) (s : State) :
    Leaves s (execReadingReturnedToRange sensor reading s) := by
  unfold execReadingReturnedToRange
  dsimp only
  split
  · exact .next (.ite (fun _ => .set rfl rfl rfl outside_everyPart ((setTemp_does ..).keeps (.refl _)))
      (fun _ => .set rfl rfl rfl outside_everyPart ((setTemp_does ..).keeps (.refl _))))
  · exact .next (.ite (fun _ => .set rfl rfl rfl outside_everyPart (.refl _)) (fun _ => .set rfl rfl rfl outside_everyPart
      (.refl _)))
  · exact .next (.refl _)

@[simp] theorem execPowerRead_leaves (r : Req) (s : State) : Leaves s (execPowerRead r s) := .goust (.refl _)

@[simp] theorem execPowerCapSet_leaves (r : Req) (cap : BitVec 32) (s : State) : Leaves s (execPowerCapSet r cap s) := by
  unfold execPowerCapSet
  refine .goust ?_
  split
  · exact .set rfl rfl rfl outside_everyPart (.refl _)
  · exact .refl _

@[simp] theorem execPowerComparison_leaves (m h c : BitVec 32) (s : State) : Leaves s (execPowerComparison m h c s) := by
  unfold execPowerComparison
  refine .ite (fun _ => .next (.refl _)) (fun _ => ?_)
  exact .next (.set rfl rfl rfl outside_everyPart ((advanceTo_does ..).keeps (.refl _)))

@[simp] theorem execCapUnheld_leaves (s : State) : Leaves s (execCapUnheld s) := by
  unfold execCapUnheld
  split
  · exact .next (.refl _)
  · refine .ite (fun _ => .next (.refl _)) (fun _ => ?_)
    exact .next ((emitErr_does ..).keeps (.set rfl rfl rfl outside_everyPart ((advanceTo_does ..).keeps (.refl _))))

@[simp] theorem execTelemetryWrite_leaves (_address : Byte) (data : List Byte) (s : State) :
    Leaves s (execTelemetryWrite _address data s) :=
  .next (.set rfl rfl rfl outside_everyPart (.refl _))

@[simp] theorem execIdcode_leaves (s : State) : Leaves s (execIdcode s) := .next (.set rfl rfl rfl outside_everyPart (.refl _))

@[simp] theorem execBypass_leaves (bit : Bool) (s : State) : Leaves s (execBypass bit s) :=
  .next (.set rfl rfl rfl outside_everyPart (.refl _))

@[simp] theorem execQuillLockstep_leaves (s : State) : Leaves s (execQuillLockstep s) :=
  .ite (fun _ => .next (.refl _)) (fun _ => .next ((emitErr_does ..).keeps (.set rfl rfl rfl outside_everyPart (.refl _))))

/-! ### Feed stages and drains -/

@[simp] theorem execFeedRead_leaves (r : StageRef) (s : State) : Leaves s (execFeedRead r s) := by
  unfold execFeedRead
  refine .stage ?_
  intro c
  exact (feedRead_does ..).keeps (.refl _)

@[simp] theorem execFeedWrite_leaves (r : StageRef) (s : State) : Leaves s (execFeedWrite r s) := by
  unfold execFeedWrite
  refine .stage ?_
  intro c
  exact (feedWrite_does ..).keeps (.refl _)

@[simp] theorem execSlotDrain_leaves (r : StreamRef) (s : State) : Leaves s (execSlotDrain r s) := by
  unfold execSlotDrain
  dsimp only
  split
  · exact .next (.refl _)
  · exact .ite (fun _ => .next (.refl _)) (fun _ => .next ((shareEnd_does ..).keeps ((slotDrain_does ..).keeps (.refl _))))

@[simp] theorem execBlockVerify_leaves (r : StreamRef) (block : Bytes) (historyLost : Bool) (s : State) :
    Leaves s (execBlockVerify r block historyLost s) := by
  unfold execBlockVerify
  split
  · dsimp only
    split
    · exact .next (.refl _)
    · exact .ite (fun _ => .next (.refl _)) (fun _ => .next (.ite (fun _ => (shareEnd_does ..).keeps ((endSlot_does ..).keeps
        ((blockErr_does ..).keeps (.refl _)))) (fun _ => (releaseOutput_does ..).keeps ((blockErr_does ..).keeps (.refl _)))))
  · dsimp only
    split
    · exact .next (.refl _)
    · exact .ite (fun _ => .next (.refl _)) (fun _ => .next (.ite (fun _ => (shareEnd_does ..).keeps ((endSlot_does ..).keeps
        (.ite (fun _ => (blockErr_does ..).keeps (.refl _)) (fun _ => .refl _)))) (fun _ => (releaseOutput_does ..).keeps (.ite
          (fun _ => (blockErr_does ..).keeps (.refl _)) (fun _ => .refl _)))))

/-! ### The Blotter and self-tests -/

@[simp] theorem execBlotterSet_leaves (r : Req) (dva : BitVec 64) (bytes : BitVec 32) (c : BitVec 16) (s : State) :
    Leaves s (execBlotterSet r dva bytes c s) := by
  unfold execBlotterSet
  refine .goust ?_
  dsimp only [icmd]
  split
  · exact .refl _
  · split
    · exact .refl _
    · split
      · exact .set rfl rfl rfl outside_everyPart ((copyStore_does ..).keeps (.refl _))
      · exact .set rfl rfl rfl outside_everyPart ((copyStore_does ..).keeps (.refl _))

@[simp] theorem execBlotterRead_leaves (r : Req) (first : BitVec 32) (s : State) : Leaves s (execBlotterRead r first s) :=
  .goust (.refl _)

@[simp] theorem execSelftestRun_leaves (r : Req) (unit : BitVec 16) (s : State) : Leaves s (execSelftestRun r unit s) :=
  .goust ((hostTest_does ..).keeps (.refl _))

@[simp] theorem execSelftestSegment_leaves (unit : BitVec 16) (failing : BitVec 32) (s : State) :
    Leaves s (execSelftestSegment unit failing s) := by
  unfold execSelftestSegment
  split
  · exact .next (.refl _)
  · refine .ite (fun _ => .next (.refl _)) (fun _ => ?_)
    exact .ite (fun _ => .next ((endTest_does ..).keeps ((advanceTo_does ..).keeps (.refl _)))) (fun _ => .next
      (.set rfl rfl rfl outside_everyPart ((advanceTo_does ..).keeps (.refl _))))

@[simp] theorem execSelftestDeferred_leaves (unit : BitVec 16) (s : State) : Leaves s (execSelftestDeferred unit s) := by
  unfold execSelftestDeferred
  split
  · exact .next (.refl _)
  · refine .ite (fun _ => .next (.refl _)) (fun _ => ?_)
    exact .next ((emitErr_does ..).keeps (.set rfl rfl rfl outside_everyPart ((advanceTo_does ..).keeps (.refl _))))

/-! ### Signals -/

@[simp] theorem execSignalAlloc_leaves (r : Req) (n : BitVec 16) (die : Byte) (s : State) :
    Leaves s (execSignalAlloc r n die s) := by
  unfold execSignalAlloc
  refine .goust ?_
  dsimp only [icmd]
  split
  · exact .refl _
  · split
    · exact .refl _
    · exact .foldl _ (fun _ _ => (setCell_does ..).keeps (.refl _)) (.refl _)

@[simp] theorem execSignalSet_leaves (r : Req) (c : BitVec 16) (value min max wdog : BitVec 32) (toHost : Byte) (s : State) :
    Leaves s (execSignalSet r c value min max wdog toHost s) := by
  unfold execSignalSet
  refine .goust ?_
  dsimp only [icmd]
  split
  · exact .refl _
  · split
    · exact .refl _
    · exact (noteReserves_does ..).keeps ((releaseAll_does ..).keeps ((setCell_does ..).keeps (.refl _)))

@[simp] theorem execSignalAdd_leaves (r : Req) (c : BitVec 16) (n : BitVec 32) (s : State) : Leaves s (execSignalAdd r c n s) := by
  unfold execSignalAdd
  refine .goust ?_
  dsimp only [icmd]
  split
  · exact .refl _
  · exact (signalAdd_does ..).keeps (.refl _)

@[simp] theorem execSignalRead_leaves (r : Req) (c : BitVec 16) (s : State) : Leaves s (execSignalRead r c s) := .goust (.refl _)

@[simp] theorem execRemoteDiscard_leaves (r : Req) (source : BitVec 16) (ext : Byte) (stream : BitVec 16) (pos : BitVec 64)
    (s : State) :
    Leaves s (execRemoteDiscard r source ext stream pos s) := by
  unfold execRemoteDiscard
  refine .goust ?_
  dsimp only [icmd]
  split
  · exact .refl _
  · exact (admitRemotes_does ..).keeps (.set rfl rfl rfl outside_everyPart (.refl _))

@[simp] theorem execAddApplied_leaves (c : BitVec 14) (n : BitVec 32) (_unit : BitVec 16) (s : State) :
    Leaves s (execAddApplied c n _unit s) :=
  .next ((signalAdd_does ..).keeps (.refl _))

@[simp] theorem execWaitTimeout_leaves (queue : Bool) (num unit : BitVec 16) (s : State) :
    Leaves s (execWaitTimeout queue num unit s) := by
  unfold execWaitTimeout
  split
  · dsimp only
    split
    · exact .next ((park_does ..).keeps ((advanceTo_does ..).keeps (.set rfl rfl rfl outside_everyPart (.refl _))))
    · exact .next (.refl _)
  · dsimp only
    split
    · exact .next ((noteReserves_does ..).keeps ((releaseAll_does ..).keeps ((park_does ..).keeps ((advanceTo_does ..).keeps
        ((admitHeld_does ..).keeps ((setCell_does ..).keeps (.refl _)))))))
    · exact .next (.refl _)

@[simp] theorem execRemoteSignalApplied_leaves (source : BitVec 10) (ext : Bool) (stream : BitVec 16) (pos : BitVec 48)
    (s : State) :
    Leaves s (execRemoteSignalApplied source ext stream pos s) := by
  unfold execRemoteSignalApplied
  split
  · exact .next (.refl _)
  · exact .ite (fun _ => .next ((signalAdd_does ..).keeps ((admitRemotes_does ..).keeps (.set rfl rfl rfl outside_everyPart
      (.refl _))))) (fun _ => .next (.refl _))

@[simp] theorem execSigRemoteHeld_leaves (source : BitVec 10) (ext : Bool) (stream : BitVec 16) (pos : BitVec 48) (s : State) :
    Leaves s (execSigRemoteHeld source ext stream pos s) := by
  unfold execSigRemoteHeld
  split
  · exact .next (.refl _)
  · exact .next ((emitErr_does ..).keeps ((advanceTo_does ..).keeps (.set rfl rfl rfl outside_everyPart (.refl _))))

/-! ### Plan loads -/

@[simp] theorem execPlanLoad_leaves (r : Req) (image : BitVec 64) (length : BitVec 32) (stream : BitVec 16)
    (count : BitVec 64) (avoid : List (BitVec 16)) (s : State) :
    Leaves s (execPlanLoad r image length stream count avoid s) := by
  unfold execPlanLoad
  refine .goust ?_
  dsimp only [loadCmd]
  split
  · exact .refl _
  · split
    · exact (loadBody_does ..).keeps (.refl _)
    · exact .set rfl rfl rfl outside_everyPart (.refl _)

@[simp] theorem execZeroingComplete_leaves (s : State) : Leaves s (execZeroingComplete s) :=
  .next ((retryLoads_does ..).keeps ((zeroingEnd_does ..).keeps (.refl _)))

@[simp] theorem execImageIncomplete_leaves (s : State) : Leaves s (execImageIncomplete s) := by
  unfold execImageIncomplete
  split
  · exact .next (.refl _)
  · split
    · exact .next ((answer_does ..).keeps ((advanceTo_does ..).keeps (.set rfl rfl rfl outside_everyPart (.refl _))))
    · exact .next (.refl _)

@[simp] theorem execFitReportRead_leaves (r : Req) (offset : BitVec 32) (s : State) : Leaves s (execFitReportRead r offset s) := by
  unfold execFitReportRead
  refine .goust ?_
  dsimp only [icmd]
  split
  · exact .refl _
  · split
    · exact .refl _
    · exact .refl _

@[simp] theorem execPlanRead_leaves (r : Req) (slot : Byte) (s : State) : Leaves s (execPlanRead r slot s) := by
  unfold execPlanRead
  refine .goust ?_
  dsimp only [icmd]
  split
  · exact .refl _
  · exact .refl _

@[simp] theorem execBindingRead_leaves (r : Req) (slot kind : Byte) (first : BitVec 16) (s : State) :
    Leaves s (execBindingRead r slot kind first s) := by
  unfold execBindingRead
  refine .goust ?_
  dsimp only [icmd]
  split
  · exact .refl _
  · exact .refl _

/-! ### Plan commands -/

@[simp] theorem execPlanUnload_leaves (r : Req) (slot : Byte) (s : State) : Leaves s (execPlanUnload r slot s) := by
  unfold execPlanUnload
  refine .goust ?_
  dsimp only [icmd]
  split
  · exact .refl _
  · split
    · exact .refl _
    · exact (finalAnswer_does ..).keeps ((unloadPlan_does ..).keeps (.refl _))

@[simp] theorem execReplicaCopyComplete_leaves (slot : BitVec 6) (ref : BitVec 16) (die : BitVec 2) (s : State) :
    Leaves s (execReplicaCopyComplete slot ref die s) := by
  unfold execReplicaCopyComplete
  split
  · exact .next (.refl _)
  · split
    · exact .next (.refl _)
    · split
      · refine .ite (fun _ => .next (.refl _)) (fun _ => ?_)
        split
        · exact .next ((setPlan_does ..).keeps ((writeDva_does ..).keeps (.refl _)))
        · exact .next ((setPlan_does ..).keeps ((writeDva_does ..).keeps (.refl _)))
      · exact .next (.refl _)

@[simp] theorem execPadCopyComplete_leaves (slot : BitVec 6) (ref : BitVec 16) (core : BitVec 9) (s : State) :
    Leaves s (execPadCopyComplete slot ref core s) := by
  unfold execPadCopyComplete
  split
  · exact .next (.refl _)
  · split
    · exact .next (.refl _)
    · refine .ite (fun _ => .next (.refl _)) (fun _ => ?_)
      split
      · exact .next ((setPlan_does ..).keeps ((writeDva_does ..).keeps (.refl _)))
      · exact .next ((setPlan_does ..).keeps ((writeDva_does ..).keeps (.refl _)))

@[simp] theorem execPlanActivate_leaves (r : Req) (slot : Byte) (s : State) : Leaves s (execPlanActivate r slot s) := by
  unfold execPlanActivate
  refine .goust ?_
  dsimp only [pcmd]
  split
  · exact .refl _
  · split
    · exact .refl _
    · split
      · exact .refl _
      · split
        · exact .refl _
        · exact (request_does ..).keeps (.refl _)

@[simp] theorem execPlanRetire_leaves (r : Req) (slot : Byte) (s : State) : Leaves s (execPlanRetire r slot s) := by
  unfold execPlanRetire
  refine .goust ?_
  dsimp only [pcmd]
  split
  · exact .refl _
  · split
    · exact .refl _
    · exact (request_does ..).keeps ((setPlan_does ..).keeps (.refl _))

@[simp] theorem execRebindCancel_leaves (r : Req) (slot : Byte) (s : State) : Leaves s (execRebindCancel r slot s) := by
  unfold execRebindCancel
  refine .goust ?_
  dsimp only [icmd]
  split
  · exact .refl _
  · split
    · exact .refl _
    · exact (cancelRebind_does ..).keeps (.refl _)

/-! ### Rebinds -/

@[simp] theorem execRebind_leaves (r : Req) (slot flags : Byte) (moves : List RebindItem) (avoid : List (BitVec 16)) (s : State) :
    Leaves s (execRebind r slot flags moves avoid s) := by
  unfold execRebind
  refine .goust ?_
  dsimp only
  split
  · exact .refl _
  · split
    · exact .refl _
    · split
      · exact .refl _
      · split
        · dsimp only [CmdRes.state]
          exact (acceptRebind_does ..).keeps ((rebindPlan_does ..).keeps (.refl _))
        · exact (refuseFit_does ..).keeps (.refl _)

@[simp] theorem execRebindCopyComplete_leaves (slot : BitVec 6) (s : State) : Leaves s (execRebindCopyComplete slot s) := by
  unfold execRebindCopyComplete
  split
  · exact .next (.refl _)
  · split
    · exact .next (.refl _)
    · refine .ite (fun _ => .next (.refl _)) (fun _ => ?_)
      exact .next ((request_does ..).keeps (.foldl _ (fun _ _ => (writeBack_does ..).keeps (.refl _)) ((setPlan_does ..).keeps
        (.refl _))))

@[simp] theorem execRebindCommit_leaves (slot : BitVec 6) (s : State) : Leaves s (execRebindCommit slot s) := by
  unfold execRebindCommit
  split
  · exact .next ((markDone_does ..).keeps (.refl _))
  · exact .next (.refl _)

/-! ### The guard band and its actions -/

@[simp] theorem execGuardBandOpen_leaves (s : State) : Leaves s (execGuardBandOpen s) := by
  unfold execGuardBandOpen
  refine .ite (fun _ => .next (.refl _)) (fun _ => ?_)
  exact .next (.foldl _ (fun _ _ => (sealExchange_does ..).keeps (.refl _)) ((tickRecords_does ..).keeps (.foldl _ (fun _ _ =>
    (ringSwap_does ..).keeps (.refl _)) ((suspendForActions_does ..).keeps ((admitActions_does ..).keeps
      ((openBand_does ..).keeps (.refl _)))))))

@[simp] theorem execPlanActivation_leaves (slot : BitVec 6) (s : State) : Leaves s (execPlanActivation slot s) := by
  unfold execPlanActivation
  split
  · exact .next ((markDone_does ..).keeps (.refl _))
  · exact .next (.refl _)

@[simp] theorem execPlanRetirement_leaves (slot : BitVec 6) (s : State) : Leaves s (execPlanRetirement slot s) := by
  unfold execPlanRetirement
  split
  · exact .next (retireBand_does (by decide) fun u hu => (markDone_does ..).keeps hu)
  · exact .next (.refl _)

@[simp] theorem execPeriodChange_leaves (s : State) : Leaves s (execPeriodChange s) := by
  unfold execPeriodChange
  split
  · split
    · exact .next ((doneAction_does ..).keeps (.set rfl rfl rfl outside_everyPart (.refl _)))
    · exact .next (.refl _)
  · exact .next (.refl _)

@[simp] theorem execRuledRelease_leaves (slot : BitVec 6) (cert : BitVec 16) (s : State) :
    Leaves s (execRuledRelease slot cert s) := by
  unfold execRuledRelease
  split
  · exact .next (.refl _)
  · split
    · exact .next (.refl _)
    · refine .ite (fun _ => .next (.refl _)) (fun _ => ?_)
      refine .ite (fun _ => ?_) (fun _ => ?_)
      · split
        · exact .next ((releaseStream_does ..).keeps ((advanceTo_does ..).keeps (.refl _)))
        · exact .next ((releaseUnit_does ..).keeps ((advanceTo_does ..).keeps (.refl _)))
      · refine .ite (fun _ => .next (.refl _)) (fun _ => ?_)
        split
        · exact .next ((releaseLig_does ..).keeps ((advanceTo_does ..).keeps (.refl _)))
        · exact .next (.refl _)

@[simp] theorem execRulEdgeMiss_leaves (unit : BitVec 16) (s : State) : Leaves s (execRulEdgeMiss unit s) := by
  unfold execRulEdgeMiss
  refine .ite (fun _ => ?_) (fun _ => .next (.refl _))
  exact .next ((emitErr_does ..).keeps ((mapTasks_does ..).keeps ((flagRunning_does ..).keeps (.refl _))))

/-! ### Tasks, trace rings, exclusions and waits -/

@[simp] theorem execRulingSet_leaves (r : Req) (cfg : BitVec 64) (s : State) : Leaves s (execRulingSet r cfg s) := by
  unfold execRulingSet
  dsimp only [pcmd]
  refine .goust ?_
  dsimp only [pcmd]
  split
  · exact .refl _
  · split
    · exact (refuseFit_does ..).keeps (.refl _)
    · exact (askPeriod_does ..).keeps ((writeDiscipline_does ..).keeps (.refl _))

@[simp] theorem execTaskSubmit_leaves (r : Req) (slot level : Byte) (ligs : List (BitVec 32)) (s : State) :
    Leaves s (execTaskSubmit r slot level ligs s) := by
  unfold execTaskSubmit
  refine .goust ?_
  dsimp only [icmd]
  split
  · exact .refl _
  · split
    · exact .refl _
    · split
      · exact .refl _
      · split
        · exact .refl _
        · split
          · exact .refl _
          · split
            · exact .foldl _ (fun _ _ => (startMargin_does ..).keeps (.refl _)) (.refl _)
            · exact .foldl _ (fun _ _ => (startMargin_does ..).keeps (.refl _)) (.refl _)

@[simp] theorem execTaskCancel_leaves (r : Req) (task : BitVec 32) (s : State) : Leaves s (execTaskCancel r task s) := by
  unfold execTaskCancel
  dsimp only [icmd]
  refine .goust ?_
  dsimp only [icmd]
  split
  · exact (cancelStreams_does ..).keeps ((cancelListed_does ..).keeps (.refl _))
  · exact (cancelStreams_does ..).keeps ((dropWait_does ..).keeps (.refl _))
  · split
    · exact .refl _
    · exact (cancelStreams_does ..).keeps ((cancelRunning_does ..).keeps (.refl _))
  · split
    · exact .refl _
    · exact .refl _

@[simp] theorem execTraceSet_leaves (r : Req) (die cl mode rearm : Byte) (bytes : BitVec 32) (s : State) :
    Leaves s (execTraceSet r die cl mode rearm bytes s) := by
  unfold execTraceSet
  dsimp only
  refine .goust ?_
  dsimp only
  split
  · exact (refuseFit_does ..).keeps (.refl _)
  · exact (setRing_does ..).keeps (.refl _)

@[simp] theorem execTraceRead_leaves (r : Req) (die cl : Byte) (first : BitVec 32) (s : State) :
    Leaves s (execTraceRead r die cl first s) := by
  unfold execTraceRead
  dsimp only
  refine .goust ?_
  dsimp only
  split
  · exact .refl _
  · exact .refl _

@[simp] theorem execUnitExclude_leaves (r : Req) (us : List (BitVec 16)) (s : State) : Leaves s (execUnitExclude r us s) := by
  unfold execUnitExclude
  have h : ∀ l : List Nat, Keeps s (l.foldl (excludeFrom us) (s, [], period s)).1 := fun l =>
    .foldlOn (·.1) l (fun x i => (excludeFrom_does us x i).keeps (.refl _)) (.refl s)
  refine .goust ?_
  dsimp only
  rw [apply_ite (CmdRes.state s)]
  refine .ite (fun _ => ?_) (fun _ => (refuseFit_does ..).keeps (.refl _))
  dsimp only [CmdRes.state]
  with_reducible exact .set rfl rfl rfl outside_everyPart (h _)

@[simp] theorem execUnitExcluded_leaves (unit : BitVec 16) (s : State) : Leaves s (execUnitExcluded unit s) := by
  unfold execUnitExcluded
  refine .ite (fun _ => .next (.refl _)) (fun _ => ?_)
  refine .ite (fun _ => .next (.refl _)) (fun _ => ?_)
  exact .next ((finishExclusions_does ..).keeps ((emitErr_does ..).keeps (.set rfl rfl rfl outside_everyPart (.refl _))))

@[simp] theorem execUnitInclude_leaves (r : Req) (us : List (BitVec 16)) (s : State) : Leaves s (execUnitInclude r us s) :=
  .goust (.set rfl rfl rfl outside_everyPart (.refl _))

@[simp] theorem execWaitResume_leaves (r : Req) (unit : BitVec 16) (object : Byte) (num : BitVec 16) (s : State) :
    Leaves s (execWaitResume r unit object num s) := by
  unfold execWaitResume
  refine .goust ?_
  dsimp only [waitCmd]
  split
  · exact .refl _
  · exact (resumeWait_does ..).keeps (.set rfl rfl rfl outside_everyPart (.refl _))

@[simp] theorem execWaitAbort_leaves (r : Req) (unit : BitVec 16) (object : Byte) (num : BitVec 16) (s : State) :
    Leaves s (execWaitAbort r unit object num s) := by
  unfold execWaitAbort
  refine .goust ?_
  dsimp only [waitCmd]
  split
  · exact .refl _
  · exact (abortWait_does ..).keeps (.set rfl rfl rfl outside_everyPart (.refl _))

/-! ### Session end, unlock and resets -/

@[simp] theorem execSessionEnd_leaves (r : Req) (s : State) : Leaves s (execSessionEnd r s) := by
  unfold execSessionEnd
  have h : Keeps s (goust r (icmd 0x0606 0 [] fun s => .ok s []) s) := goust_does (by decide) (.refl _) (.refl _)
  exact .next (.ite (fun _ => (endSession_does ..).keeps ((flushResponses_does ..).keeps h)) (fun _ => h))

@[simp] theorem execScrubComplete_leaves (s : State) : Leaves s (execScrubComplete s) :=
  .next (.set rfl rfl rfl outside_everyPart (.refl _))

@[simp] theorem execDebugUnlock_leaves (r : Req) (token : Bytes) (s : State) : Leaves s (execDebugUnlock r token s) := by
  unfold execDebugUnlock
  have hbody : Keeps s (((debugCmd token).body s).state s) := by
    dsimp only [debugCmd, icmd]
    split <;> exact (renewNonce_does ..).keeps (.refl _)
  have h : Keeps s (goust r (debugCmd token) s) := goust_does (by decide) (.refl _) hbody
  exact .next (.ite (fun _ => (unlockDebug_does ..).keeps ((flushResponses_does ..).keeps h)) (fun _ => h))

@[simp] theorem execWarmReset_leaves (s : State) : Leaves s (execWarmReset s) := by
  unfold execWarmReset
  refine .ite (fun _ => .next (.refl _)) (fun _ => ?_)
  exact .next ((warmReset_does ..).keeps ((advanceTo_does ..).keeps (.foldl _ (fun _ _ => (flushResponses_does ..).keeps
    (.refl _)) (.refl _))))

@[simp] theorem execPlanResetCommit_leaves (slot : BitVec 6) (s : State) : Leaves s (execPlanResetCommit slot s) := by
  unfold execPlanResetCommit
  split
  · exact .next (retireBand_does (by decide) fun u hu => (markDone_does ..).keeps hu)
  · exact .next (.refl _)

@[simp] theorem execReset_leaves (r : Req) (kind : Byte) (target : BitVec 16) (s : State) : Leaves s (execReset r kind target s) :=
  .goustNow ((resetBody_does ..).keeps (.refl _))

@[simp] theorem execPowerStateSet_leaves (r : Req) (target : Byte) (mask : BitVec 64) (s : State) :
    Leaves s (execPowerStateSet r target mask s) :=
  .goustNow ((powerBody_does ..).keeps (.refl _))

/-! ### Tick edges -/

@[simp] theorem execTickEdge_leaves (events : List TickReport) (s : State) : Leaves s (execTickEdge events s) :=
  .next (.ite (fun _ => (sendLists_does ..).keeps ((commitActions_does ..).keeps ((tickEdge_does ..).keeps
    ((reportMissing_does ..).keeps (.refl _))))) (fun _ => (answerEdge_does ..).keeps ((sendLists_does ..).keeps
      ((commitActions_does ..).keeps ((tickEdge_does ..).keeps ((reportMissing_does ..).keeps (.refl _)))))))

@[simp] theorem execRulTickStep_leaves (s : State) : Leaves s (execRulTickStep s) := by
  unfold execRulTickStep
  refine .ite (fun _ => .next (.refl _)) (fun _ => .next ((answerEdge_does ..).keeps ?_))
  dsimp only
  with_reducible exact .set rfl rfl rfl outside_everyPart ((renumber_does ..).keeps (.refl _))

/-! ### Host streams -/

@[simp] theorem execStreamStart_leaves (r : Req) (dva : BitVec 64) (count : BitVec 32) (s : State) :
    Leaves s (execStreamStart r dva count s) := by
  unfold execStreamStart
  dsimp only [icmd]
  refine .goust ?_
  dsimp only [icmd]
  split
  · exact .refl _
  · split
    · exact .refl _
    · exact .foldl _ (fun _ _ => (drawn_does ..).keeps ((setStream_does ..).keeps (.refl _))) (.refl _)

@[simp] theorem execStreamRearm_leaves (q : Req) (r : StreamRef) (src dst : BitVec 64) (s : State) :
    Leaves s (execStreamRearm q r src dst s) := by
  unfold execStreamRearm
  refine .goust ?_
  dsimp only [icmd]
  split
  · exact .refl _
  · split
    · exact .refl _
    · split
      · split
        · exact (setStream_does ..).keeps (.refl _)
        · exact .refl _
      · exact (setStream_does ..).keeps (.refl _)

/-! ### Packets taken -/

@[simp] theorem execData_leaves (p : KitPacket) (s : State) : Leaves s (execData p s) := by
  unfold execData
  split
  · exact .next ((Does.of_snd ‹receiveKit _ _ _ = _› (receiveKit_does ..)).keeps (.refl _))
  · split
    · exact .next ((drop_does ..).keeps ((Does.of_snd ‹receiveKit _ _ _ = _› (receiveKit_does ..)).keeps (.refl _)))
    · split
      · exact .next ((retryLoads_does ..).keeps ((dataWindow_does ..).keeps ((Does.of_snd ‹receiveKit _ _ _ = _›
          (receiveKit_does ..)).keeps (.refl _))))
      · exact .next ((retryLoads_does ..).keeps ((flowControl_does ..).keeps ((dataQueue_does ..).keeps
          ((Does.of_snd ‹receiveKit _ _ _ = _› (receiveKit_does ..)).keeps (.refl _)))))

@[simp] theorem execSignal_leaves (p : KitPacket) (s : State) : Leaves s (execSignal p s) := by
  unfold execSignal
  split
  · exact .next ((Does.of_snd ‹receiveKit _ _ _ = _› (receiveKit_does ..)).keeps (.refl _))
  · split
    · exact .ite (fun _ => .next ((drop_does ..).keeps ((Does.of_snd ‹receiveKit _ _ _ = _› (receiveKit_does ..)).keeps
        (.refl _)))) (fun _ => .next ((signalAdd_does ..).keeps ((Does.of_snd ‹receiveKit _ _ _ = _› (receiveKit_does ..)).keeps
          (.refl _))))
    · exact .ite (fun _ => .next ((drop_does ..).keeps ((Does.of_snd ‹receiveKit _ _ _ = _› (receiveKit_does ..)).keeps
        (.refl _)))) (fun _ => .ite (fun _ => .next ((drop_does ..).keeps ((Does.of_snd ‹receiveKit _ _ _ = _›
          (receiveKit_does ..)).keeps (.refl _)))) (fun _ => .next ((flowControl_does ..).keeps ((admitRemotes_does ..).keeps
            ((commitPacket_does ..).keeps ((Does.of_snd ‹receiveKit _ _ _ = _› (receiveKit_does ..)).keeps (.refl _)))))))

@[simp] theorem execMbxReq_leaves (p : KitPacket) (s : State) : Leaves s (execMbxReq p s) := by
  unfold execMbxReq
  split
  · exact .next ((Does.of_snd ‹receiveKit _ _ _ = _› (receiveKit_does ..)).keeps (.refl _))
  · split
    · split
      · exact .ite (fun _ => .next ((drop_does ..).keeps ((Does.of_snd ‹receiveKit _ _ _ = _› (receiveKit_does ..)).keeps
          (.refl _)))) (fun _ => .next ((Does.of_snd ‹receiveKit _ _ _ = _› (receiveKit_does ..)).keeps (.refl _)))
      · split
        · exact .ite (fun _ => .next ((drop_does ..).keeps ((Does.of_snd ‹receiveKit _ _ _ = _› (receiveKit_does ..)).keeps
            (.refl _)))) (fun _ => .ite (fun _ => .next ((drop_does ..).keeps ((setLink_does ..).keeps
              ((Does.of_snd ‹receiveKit _ _ _ = _› (receiveKit_does ..)).keeps (.refl _))))) (fun _ => .next
                ((flowControl_does ..).keeps ((requestIn_does ..).keeps ((setLink_does ..).keeps
                  ((Does.of_snd ‹receiveKit _ _ _ = _› (receiveKit_does ..)).keeps (.refl _)))))))
        · exact .ite (fun _ => .next ((drop_does ..).keeps ((Does.of_snd ‹receiveKit _ _ _ = _› (receiveKit_does ..)).keeps
            (.refl _)))) (fun _ => .ite (fun _ => .next ((drop_does ..).keeps ((setLink_does ..).keeps
              ((Does.of_snd ‹receiveKit _ _ _ = _› (receiveKit_does ..)).keeps (.refl _))))) (fun _ => .next
                ((flowControl_does ..).keeps ((setLink_does ..).keeps ((Does.of_snd ‹receiveKit _ _ _ = _›
                  (receiveKit_does ..)).keeps (.refl _))))))
    · split
      · dsimp only
        refine .ite (fun _ => .next ((drop_does ..).keeps ((Does.of_snd ‹receiveKit _ _ _ = _› (receiveKit_does ..)).keeps
          (.refl _)))) (fun _ => ?_)
        split
        · exact .next ((Does.of_snd ‹receiveKit _ _ _ = _› (receiveKit_does ..)).keeps (.refl _))
        · exact .ite (fun _ => .next ((drop_does ..).keeps ((setLink_does ..).keeps ((Does.of_snd ‹receiveKit _ _ _ = _›
            (receiveKit_does ..)).keeps (.refl _))))) (fun _ => .next ((flowControl_does ..).keeps ((requestIn_does ..).keeps
              ((setLink_does ..).keeps ((Does.of_snd ‹receiveKit _ _ _ = _› (receiveKit_does ..)).keeps (.refl _))))))
      · dsimp only
        refine .ite (fun _ => .next ((drop_does ..).keeps ((Does.of_snd ‹receiveKit _ _ _ = _› (receiveKit_does ..)).keeps
          (.refl _)))) (fun _ => ?_)
        split
        · exact .next ((Does.of_snd ‹receiveKit _ _ _ = _› (receiveKit_does ..)).keeps (.refl _))
        · exact .ite (fun _ => .next ((drop_does ..).keeps ((setLink_does ..).keeps ((Does.of_snd ‹receiveKit _ _ _ = _›
            (receiveKit_does ..)).keeps (.refl _))))) (fun _ => .next ((flowControl_does ..).keeps ((setLink_does ..).keeps
              ((Does.of_snd ‹receiveKit _ _ _ = _› (receiveKit_does ..)).keeps (.refl _)))))

/-! ### Statistics commands -/

@[simp] theorem execStatsSet_leaves (r : Req) (slot : Byte) (ref : BitVec 16) (action : Byte) (first : BitVec 16)
    (columns : List Bytes) (s : State) :
    Leaves s (execStatsSet r slot ref action first columns s) := by
  unfold execStatsSet
  refine .goust ?_
  dsimp only [pcmd]
  split
  · exact .refl _
  · split
    · exact .refl _
    · split
      · exact .refl _
      · split
        · exact (setStat_does ..).keeps (.refl _)
        · exact (setStat_does ..).keeps (.refl _)

@[simp] theorem execStatsRead_leaves (r : Req) (slot : Byte) (ref : BitVec 16) (copy : Byte) (first n : BitVec 16) (s : State) :
    Leaves s (execStatsRead r slot ref copy first n s) := by
  unfold execStatsRead
  refine .goust ?_
  dsimp only [icmd]
  split
  · exact .refl _
  · split
    · exact .refl _
    · split
      · exact .refl _
      · exact .refl _

end Sys2Proof.Machine
end

section
/-! SUPPORT. A step keeps what its command keeps: memory, the fuses and the queue (O3, O5, O6), and the front of the queue (O1). -/

namespace Sys2Proof.Machine

/-- Every arm of `exec` keeps what every step keeps. -/
theorem exec_leaves (c : Instr) (s : State) : Leaves s (exec c s) := by
  cases c <;> simp [exec]

/-- The state in which Goust starts a request differs in the messages taken only. -/
theorem nextRequest_keeps {s u : State} {c : Instr} (h : nextRequest s = some (c, u)) : Keeps s u := by
  unfold nextRequest at h
  split at h
  · cases h
  · obtain ⟨e, _, he⟩ := Option.map_eq_some_iff.1 h
    cases he
    exact .set rfl rfl rfl outside_everyPart (.refl _)

/-- What a step leaves of memory and of the fuses, whichever command it carries out. -/
theorem step_keeps {s t : State} (h : step s = .next t) : (memInv s → memInv t) ∧ Fuses.rise s.sec.fuses t.sec.fuses := by
  unfold step at h
  split at h
  · unfold idleStep at h
    split at h
    · next c u hu =>
      have k := (nextRequest_keeps hu).trans (exec_leaves c u t h)
      exact ⟨k.mem, k.fuses⟩
    · cases h
      exact ⟨id, Fuses.rise_refl _⟩
  · next c rest _ =>
    have k := exec_leaves c { s with pending := rest } t h
    exact ⟨k.mem, k.fuses⟩

/-- Settles O3: no arm of `exec` takes memory out of its canonical form. -/
theorem memoryStaysCanonical : Obligations.MemoryStaysCanonical :=
  fun _ _ hs h => (step_keeps h).1 hs

/-- Settles O5: no arm of `exec` touches the queue. -/
theorem queueIsUntouched : Obligations.QueueIsUntouched :=
  fun c s t h => (exec_leaves c s t h).pending

/-- Settles O6: the only writes of the fuses are those of R440, which set bits. -/
theorem fusesOnlyRise : Obligations.FusesOnlyRise :=
  fun _ _ h => (step_keeps h).2

/-- Settles O1: with a command waiting, that is what a step does. -/
theorem stepRunsTheFrontCommand : Obligations.StepRunsTheFrontCommand := fun _ _ _ => rfl

end Sys2Proof.Machine
end

section
/-! SUPPORT. The state after reset (O4). -/

namespace Sys2Proof.Machine

/-- What the reset state holds outside its lists. -/
theorem reset_registers : period State.reset = 475000 ∧ disciplined State.reset = false ∧ phaseNs State.reset = 0 ∧
    State.reset.rul.status = 0 ∧ State.reset.rul.tick = 0 ∧ State.reset.pwr.cap.toNat = 2400000 ∧ State.reset.pwr.f = 256 ∧
    State.reset.pwr.f2 = 256 ∧ State.reset.deviceNumber = 0 := by decide

/-- Of an empty list of cells a reader other than the mailbox's own sees zeros (Table 13-1). -/
theorem mbxState_reset {m reader : Nat} (h : m ≠ reader) : mbxState State.reset reader m = 0 := by
  have hbusy : (reader == m) = false := beq_false_of_ne h.symm
  have hbox : mbox State.reset m = mbox State.reset 0 := rfl
  have hheld : State.reset.heldLoads = [] := rfl
  simp only [mbxState, hbusy, hheld, hbox, List.any_nil, Bool.or_false]
  decide

/-- Settles O4: registers, queues and lists as they stand in `State.reset`. -/
theorem resetState : Obligations.ResetState := by
  unfold Obligations.ResetState
  obtain ⟨hperiod, hdisc, hphase, hstatus, htick, hcap, hf, hf2, hdev⟩ := reset_registers
  refine ⟨rfl, rfl, rfl, hperiod, hdisc, hphase, hstatus, htick, hcap, hf, hf2, hdev, fun _ => ⟨rfl, rfl⟩,
    fun m reader h => mbxState_reset h, fun _ => ⟨rfl, rfl, rfl, rfl, rfl⟩, ?queues, ?held⟩
  case queues => decide
  case held => decide

end Sys2Proof.Machine
end

section
/-! SUPPORT. The register reads: each is heard and answers from the state (O10). -/

namespace Sys2Proof.Machine

/-- A heard read without operands to check answers with its body, and changes nothing but its answer. -/
theorem goust_read {s : State} {r : Req} {op len : Nat} {body : State → Bytes} (h : heard s r op len = true) :
    goust r (icmd op len [] fun s => .ok s (body s)) s = answer r op St.ok 0 (body s) s :=
  goust_icmd h (by simp)

/-- A request whose tag is new goes on while Goust runs. -/
theorem byTag_fresh {s : State} {r : Req} {op : Nat} {fresh : State → State} (hup : goustUp s = true) (h : tagMatch s r = .fresh) :
    byTag r op fresh s = fresh s := by simp [byTag, hup, h]

/-- A heard POWER_READ finds the device in run or dormant (R423), which POWER_READ tells apart. -/
theorem powerCode_heard {s : State} {r : Req} {op len : Nat} (h : heard s r op len = true) :
    powerCode s.pwr.state = if s.pwr.state = .dormant then 1 else 0 := by
  simp only [heard, goustUp, Bool.and_eq_true, Bool.or_eq_true, beq_iff_eq] at h
  obtain ⟨⟨⟨⟨⟨⟨-, hrun | hdormant⟩, -⟩, -⟩, -⟩, -⟩, -⟩ := h
  · simp [hrun, powerCode]
  · simp [hdormant, powerCode]

/-- The fields of a mailbox's state word (Table 13-1). -/
theorem mbxState_fields (s : State) (reader m : Nat) :
    fld 63 48 (mbxState s reader m) = (mbox s m).pend.length % 2 ^ 16 ∧ fld 47 32 (mbxState s reader m) = (mbox s m).doorbells.toNat ∧
    fld 31 16 (mbxState s reader m) = (mbox s m).spurious.toNat ∧ fld 15 8 (mbxState s reader m) = (mbox s m).discarded.toNat ∧
    fld 7 1 (mbxState s reader m) = 0 := by
  unfold mbxState
  refine ⟨?_, ?_, ?_, ?_, ?_⟩ <;>
    simp [fld_pack_high, fld_pack_low, Nat.mod_eq_of_lt (BitVec.isLt _)]

/-- A mailbox is busy to its own reader (R417). -/
theorem mbxState_busy (s : State) (m : Nat) : bitAt (mbxState s m m) 0 = true := by
  have h : fld 0 0 (mbxState s m m) = 1 := by
    unfold mbxState
    rw [fld_pack_low _ _ _ _ rfl]
    simp [b2n]
  rw [bitAt_eq_fld, h]
  rfl

/-- Settles O10: every read is a body over the state, and an opcode that is not defined is looked at no further. -/
theorem identityAndRegisterReads : Obligations.IdentityAndRegisterReads := by
  unfold Obligations.IdentityAndRegisterReads
  refine ⟨?identify, ?inventory, ?mailbox, ?unknown, ?ruling, ?measurements, ?power, ?ptp⟩
  case identify => exact fun s r h => congrArg Host.Outcome.next (goust_read h)
  case inventory => exact fun s r first h => congrArg Host.Outcome.next (goust_read h)
  case mailbox =>
    intro s r h
    refine ⟨mbxState s r.mailbox.toNat, fun m _ => ?_, congrArg Host.Outcome.next (goust_read h)⟩
    obtain ⟨hpend, hbells, hspur, hdisc, hzero⟩ := mbxState_fields s r.mailbox.toNat m
    exact ⟨hpend, hbells, hspur, hdisc, hzero, fun hm => hm ▸ mbxState_busy s m⟩
  case unknown => exact fun s r op hup hfresh => congrArg Host.Outcome.next (byTag_fresh hup hfresh)
  case ruling => exact fun s r h => congrArg Host.Outcome.next (goust_read h)
  case measurements => exact fun s r h => ⟨_, rfl, congrArg Host.Outcome.next (goust_read h)⟩
  case power =>
    intro s r h
    have hcode : powerCode s.pwr.state = if s.pwr.state = .dormant then 1 else 0 := powerCode_heard h
    exact (congrArg Host.Outcome.next (goust_read h)).trans (by rw [hcode]; rfl)
  case ptp => exact fun s r h => congrArg Host.Outcome.next (goust_read h)

end Sys2Proof.Machine
end

section
/-! SUPPORT. The trace rings: TRACE_SET and TRACE_READ of a cluster that is on (R82, R83, O32). -/

namespace Sys2Proof.Machine

/-! ### A command on a cluster's Scribe writer -/

/-- The Scribe writer of a cluster that is on exists and is powered. -/
theorem scribeWriter_on {s : State} {k : Nat} (hk : k < 48) (hon : (cluster s k).off = false) :
    unitOk (clusterUid k 13) = true ∧
      (uidCluster (clusterUid k 13) < 12 && (cluster s (uidClusterIndex (clusterUid k 13))).off) = false := by
  have hu : ∀ k < 48, unitOk (clusterUid k 13) = true ∧ uidClusterIndex (clusterUid k 13) = k := by decide
  obtain ⟨hok, hindex⟩ := hu k hk
  rw [hindex, hon, Bool.and_false]
  exact ⟨hok, rfl⟩

/-- The unit a trace command names, when its cluster is on. -/
theorem scribeUnits_on {s : State} {k : Nat} (hk : k < 48) (hon : (cluster s k).off = false) : ∀ u ∈ [(0, clusterUid k 13)],
    unitOk u.2 = true ∧ (uidCluster u.2 < 12 && (cluster s (uidClusterIndex u.2)).off) = false := by
  rintro u hu
  rw [List.mem_singleton.1 hu]
  exact scribeWriter_on hk hon

theorem clusterBad_none {die cl : Byte} (hd : die.toNat ≤ 3) (hc : cl.toNat ≤ 11) : ∀ e ∈ clusterBad die cl, e.2 = false := by
  simp [clusterBad]; omega

/-- The seven sizes of R83, written out. -/
theorem ringSizes_eq : ringSizes = [65536, 131072, 262144, 524288, 1048576, 2097152, 4194304] := by decide

/-- The sequence number TRACE_READ answers: the one after the last record it gives, or after the newest of the ring up to a cycle (R83). -/
def numberAfter (b : Scribe) (now : Nat) (xs : List (BitVec 256)) : Nat :=
  match xs.getLast? with
  | some x => (recSeq x + 1) % 2 ^ 32
  | none => (b.seq.toNat + 2 ^ 32 - (b.recs.length - (ringNow b now).length)) % 2 ^ 32

theorem numberAfter_nil {b : Scribe} {now : Nat} {xs : List (BitVec 256)} (h : xs = []) :
    numberAfter b now xs = (b.seq.toNat + 2 ^ 32 - (b.recs.length - (ringNow b now).length)) % 2 ^ 32 := by subst h; rfl

theorem numberAfter_last {b : Scribe} {now : Nat} {xs : List (BitVec 256)} {x : BitVec 256} (h : xs.getLast? = some x) :
    numberAfter b now xs = (recSeq x + 1) % 2 ^ 32 := by simp only [numberAfter, h]

section

variable {s : State} {r : Req} {die cl mode rearm : Byte} {bytes first : BitVec 32} (hd : die.toNat ≤ 3) (hc : cl.toNat ≤ 11)
  (hon : (cluster s (clusterIndex die cl)).off = false)

include hd hc

theorem clusterIndex_lt : clusterIndex die cl < 48 := by unfold clusterIndex; omega

/-! ### TRACE_SET -/

section

variable (h : heard s r 0x0506 8 = true) (hm : mode.toNat ≤ 1) (hr : rearm.toNat ≤ 1)
  (hb : bytes.toNat ∈ [65536, 131072, 262144, 524288, 1048576, 2097152, 4194304])

include hm hr hb

/-- The fields of a TRACE_SET that names a cluster and a size of R83 lie in their sets. -/
theorem traceSetBad_none : ∀ e ∈ clusterBad die cl ++
    [(2, decide (1 < mode.toNat)), (3, decide (1 < rearm.toNat)), (4, !ringSizes.contains bytes.toNat)], e.2 = false := by
  refine List.forall_mem_append.2 ⟨clusterBad_none hd hc, ?_⟩
  rw [← ringSizes_eq] at hb
  simp [hb, hm, hr]

include hon h

/-- A size that fits sets the ring. -/
theorem exec_traceSet_fits (hfit : (bytes.toNat : Int) ≤ storeLeft s (heldBounds s 0xff) (clusterIndex die cl) +
    (cluster s (clusterIndex die cl)).scribe.bytes) :
    exec (.traceSet r die cl mode rearm bytes) s = .next (answer r 0x0506 St.ok 0 []
      (setRing (clusterIndex die cl) bytes.toNat (mode.toNat == 1) (rearm.toNat == 1) s)) := by
  refine (congrArg Host.Outcome.next (goust_iunits rfl h (traceSetBad_none hd hc hm hr hb)
    (scribeUnits_on (clusterIndex_lt hd hc) hon))).trans ?_
  simp only [runCmd, if_neg (Int.not_lt.2 hfit)]

/-- A size that does not fit is refused with a report of what is left. -/
theorem exec_traceSet_refused {left : Int} (hleft : left = storeLeft s (heldBounds s 0xff) (clusterIndex die cl) +
    (cluster s (clusterIndex die cl)).scribe.bytes) (hfit : left < bytes.toNat) :
    exec (.traceSet r die cl mode rearm bytes) s = .next (answer r 0x0506 St.fit (1 + 2 ^ 32) []
      { s with fitReport := some (fitReport 0 (period s)
        [shortfall 0xff 3 1 left.toNat bytes.toNat (clusterUid (clusterIndex die cl) 10).toNat 0xffff]) }) := by
  subst hleft
  refine (congrArg Host.Outcome.next (goust_iunits rfl h (traceSetBad_none hd hc hm hr hb)
    (scribeUnits_on (clusterIndex_lt hd hc) hon))).trans ?_
  simp only [runCmd, if_pos hfit, refuseFit, keepReport, List.length_singleton, Nat.min_eq_right (show 1 ≤ 4096 by decide), Nat.one_mul]

end

/-! ### TRACE_READ -/

include hon

/-- TRACE_READ of a cluster that is on answers the oldest 110 records from the sequence number on. -/
theorem exec_traceRead (h : heard s r 0x0507 8 = true) {b : Scribe} {xs : List (BitVec 256)} (hb : b = (cluster s (clusterIndex die cl)).scribe)
    (hxs : xs = (ringFrom b (scrCycle s s.clk.cycle) first.toNat).take 110) :
    exec (.traceRead r die cl first) s = .next (answer r 0x0507 St.ok 0 (payload [.num 4 (numberAfter b (scrCycle s s.clk.cycle) xs),
      .num 4 xs.length, .elems (xs.map fun x => le 32 x.toNat)]) s) := by
  subst hb hxs
  exact congrArg Host.Outcome.next (goust_iunits rfl h (clusterBad_none hd hc) (scribeUnits_on (clusterIndex_lt hd hc) hon))

end

/-- Settles O32: TRACE_SET by whether the size fits and whether the ring is re-armed, TRACE_READ by the records it finds. -/
theorem traceCommands : Obligations.TraceCommands := by
  unfold Obligations.TraceCommands
  refine ⟨?set, ?refused, ?cluster, ?read⟩
  case set =>
    rintro s r die cl mode bytes k b h hd hc hm rfl hon hbytes hfit rfl
    refine ⟨?_, fun h0 => ?_, fun h0 => ?_⟩
    · exact exec_traceSet_fits (rearm := 0) hd hc hon h hm (by decide) hbytes hfit
    · rw [exec_traceSet_fits (rearm := 1) hd hc hon h hm (by decide) hbytes hfit]
      simp_all [setRing, clusterIndex]
    · rw [exec_traceSet_fits (rearm := 1) hd hc hon h hm (by decide) hbytes hfit]
      simp_all [setRing, clusterIndex]
  case refused =>
    rintro s r die cl mode rearm bytes k left h hd hc hm hr rfl hon hbytes hleft hlt
    exact exec_traceSet_refused hd hc hon h hm hr hbytes hleft hlt
  case cluster =>
    exact fun s k c => ⟨cluster_setCluster_same .., fun j hj => cluster_setCluster_other _ _ _ _ hj, rfl⟩
  case read =>
    rintro s r die cl first k b now h hd hc rfl hon rfl rfl
    exact ⟨_, _, rfl, numberAfter_nil, fun x => numberAfter_last, exec_traceRead hd hc hon h rfl rfl⟩

end Sys2Proof.Machine
end

section
/-! SUPPORT. The tick edge and the guard band: the clock and RUL_TICK they leave, the actions an edge leaves, and the admission of actions
within the limits of Table 2-6 (O29). -/

namespace Sys2Proof.Machine

/-! ### The parts of the tick edge -/

/-- The end of the closing tick: the clock at its edge, its events and blot counts written as records. -/
def tickClosed (events : List TickReport) (s : State) : State :=
  edgeRecords (events.foldl (fun s e => tickEvent (tickReport e) s) (advanceTo (s.clk.edge + s.clk.len) s))

theorem tickClosed_does (events : List TickReport) (s : State) : Does [.clk, .blot, .tickEvents, .tests, .mem, .pages, .sched, .cells,
    .regHeld, .hostSigs, .batches] s (tickClosed events s) :=
  .next (edgeRecords_does ..) (by decide) (.foldl _ (fun _ _ => .next (tickEvent_does ..) (by decide) (.refl _))
    (.next (advanceTo_does ..) (by decide) (.refl _)))

theorem tickClosed_clk (events : List TickReport) (s : State) :
    (tickClosed events s).clk = { s.clk with cycle := max s.clk.cycle (s.clk.edge + s.clk.len) } := by
  have hev : Does [.tickEvents] (advanceTo (s.clk.edge + s.clk.len) s)
      (events.foldl (fun s e => tickEvent (tickReport e) s) (advanceTo (s.clk.edge + s.clk.len) s)) :=
    .foldl _ (fun _ _ => tickEvent_does ..) (.refl _)
  exact ((edgeRecords_does _).frame .clk (by decide)).trans (hev.frame .clk (by decide))

theorem edgeRecords_blots (s : State) : (edgeRecords s).blot.blots = [] := rfl

/-- The records of a list of events leave the events of the tick as they are. -/
theorem foldl_emitErr_tickEvents {α : Type} (f : α → ErrRec) (l : List α) (s : State) :
    (l.foldl (fun s e => emitErr (f e) s) s).tickEvents = s.tickEvents :=
  (Does.foldl (T := [.blot, .tests, .mem, .pages, .sched, .cells, .regHeld, .hostSigs, .batches]) l
    (fun _ _ => emitErr_does ..) (.refl s)).frame .tickEvents (by decide)

theorem edgeRecords_tickEvents (s : State) : (edgeRecords s).tickEvents = [] := by
  unfold edgeRecords
  dsimp only
  have hblots : ∀ (l : List (Nat × Nat)) (u : State), (l.foldl (fun s b => if b.2 ≤ 4096 then s else
      emitErr { cls := 10, code := 3, unit := blotterUid, pos := 0, count := b.2 - 4096, plan := b.1, named := false, test := false } s) u).tickEvents =
      u.tickEvents := fun l u =>
    (Does.foldl (T := [.blot, .tests, .mem, .pages, .sched, .cells, .regHeld, .hostSigs, .batches]) l
      (fun _ _ => .ite (fun _ => .refl _) (fun _ => emitErr_does ..)) (.refl u)).frame .tickEvents (by decide)
  rw [hblots, foldl_emitErr_tickEvents]

/-- The edge numbered, at the present cycle (R42, R44). -/
def edgeSet (s : State) : State :=
  let s := if s.clk.guard then s else advanceTick s
  { s with clk := { s.clk with edge := s.clk.cycle, guard := false },
           rul := { s.rul with stepDue := s.rul.stepPend, surveyTicks := s.rul.surveyTicks + 1 } }

/-- RUL_STATUS without a period change to come, where there is none. -/
def changeSettled (s : State) : State := if periodSettled s then setStatus 8 8 0 s else s

/-- The ruling of an opened tick: its number and what waited for the edge (R46, R47). -/
def tickRuled (s : State) : State := changeSettled (countAligned (applyPeriod (edgeSet s)))

theorem tickEdge_eq (events : List TickReport) (s : State) : tickEdge events s =
    { tickRuled (tickClosed events s) with clk :=
      { (tickRuled (tickClosed events s)).clk with len := nextLength (tickRuled (tickClosed events s)) false } } := rfl

theorem edgeSet_rul (s : State) : (edgeSet s).rul = { s.rul with
    tick := if s.clk.guard then s.rul.tick else s.rul.tick + 1, stepDue := s.rul.stepPend, surveyTicks := s.rul.surveyTicks + 1 } := by
  unfold edgeSet
  cases s.clk.guard <;> rfl

theorem edgeSet_clk (s : State) : (edgeSet s).clk = { s.clk with edge := s.clk.cycle, guard := false } := by
  unfold edgeSet
  cases s.clk.guard <;> rfl

/-- What `applyPeriod` leaves of the clock and the ruling besides the period, the tick's length and the anchor. -/
theorem applyPeriod_keeps (s : State) : (applyPeriod s).rul.tick = s.rul.tick ∧ (applyPeriod s).rul.nextPeriod = none ∧
    (applyPeriod s).rul.stepDue = s.rul.stepDue ∧ (applyPeriod s).rul.surveyTicks = s.rul.surveyTicks ∧
    (applyPeriod s).clk.guard = s.clk.guard ∧ (applyPeriod s).clk.edge = s.clk.edge ∧ (applyPeriod s).clk.cycle = s.clk.cycle := by
  unfold applyPeriod
  cases h : s.rul.nextPeriod with
  | none => exact ⟨rfl, h, rfl, rfl, rfl, rfl, rfl⟩
  | some p => exact ⟨rfl, rfl, rfl, rfl, rfl, rfl, rfl⟩

theorem applyPeriod_none {s : State} (h : s.rul.nextPeriod = none) : applyPeriod s = s := by simp only [applyPeriod, h]

/-- A period that waited is in force. -/
theorem period_applyPeriod {s : State} {p : Nat} (h : s.rul.nextPeriod = some p) (hp : p < 2 ^ 27) : period (applyPeriod s) = p := by
  have hcfg : (applyPeriod s).rul.cfg = BitVec.ofNat 64 (setField 26 0 p s.rul.cfg.toNat) := by
    simp only [applyPeriod, h, setField, Nat.pow_zero, Nat.mul_one]
  rw [period, hcfg, fld_toNat_ofNat _ (by decide), fld_setField_same _ (by decide) hp]

/-- `countAligned` touches its own count only. -/
theorem countAligned_eq (s : State) : countAligned s = { s with rul := { s.rul with aligned := (countAligned s).rul.aligned } } := by
  unfold countAligned
  split <;> rfl

/-- `changeSettled` touches RUL_STATUS only. -/
theorem changeSettled_eq (s : State) : changeSettled s = { s with rul := { s.rul with status := (changeSettled s).rul.status } } := by
  unfold changeSettled
  split <;> rfl

/-- After the period, nothing but the aligned ticks and RUL_STATUS changes. -/
theorem tickRuled_eq (s : State) : tickRuled s = { applyPeriod (edgeSet s) with rul := { (applyPeriod (edgeSet s)).rul with
    aligned := (tickRuled s).rul.aligned, status := (tickRuled s).rul.status } } := by
  unfold tickRuled
  rw [changeSettled_eq, countAligned_eq]

/-- The opened tick: its number, its edge, and what waited for the edge. -/
theorem tickRuled_opens (s : State) : (tickRuled s).rul.tick = (if s.clk.guard then s.rul.tick else s.rul.tick + 1) ∧
    (tickRuled s).clk.guard = false ∧ (tickRuled s).clk.edge = s.clk.cycle ∧ (tickRuled s).clk.cycle = s.clk.cycle ∧
    (tickRuled s).rul.nextPeriod = none ∧ (tickRuled s).rul.surveyTicks = s.rul.surveyTicks + 1 ∧
    (tickRuled s).rul.stepDue = s.rul.stepPend := by
  obtain ⟨htick, hnext, hdue, hsurvey, hguard, hedge, hcycle⟩ := applyPeriod_keeps (edgeSet s)
  rw [edgeSet_rul] at htick hdue hsurvey
  rw [edgeSet_clk] at hguard hedge hcycle
  rw [tickRuled_eq]
  exact ⟨htick, hguard, hedge, hcycle, hnext, hsurvey, hdue⟩

/-- The period of the opened tick (R46, R47). -/
theorem tickRuled_period (s : State) : (∀ p, s.rul.nextPeriod = some p → p < 2 ^ 27 → period (tickRuled s) = p) ∧
    (s.rul.nextPeriod = none → (tickRuled s).rul.cfg = s.rul.cfg) := by
  have hcfg : (tickRuled s).rul.cfg = (applyPeriod (edgeSet s)).rul.cfg := by rw [tickRuled_eq]
  have hnext : (edgeSet s).rul.nextPeriod = s.rul.nextPeriod := by rw [edgeSet_rul]
  refine ⟨fun p h hp => ?_, fun h => ?_⟩
  · rw [period, hcfg]
    exact period_applyPeriod (hnext.trans h) hp
  · rw [hcfg, applyPeriod_none (hnext.trans h), edgeSet_rul]

/-- Without discipline a tick is as long as the period. -/
theorem nextLength_undisciplined {s : State} (h : disciplined s = false) (step : Bool) : nextLength s step = period s := by
  simp [nextLength, h]

/-! ### The whole edge -/

/-- The state an edge leaves before the commands are answered. -/
theorem exec_tickEdge (events : List TickReport) (s : State) : ∃ t, exec (.tickEdge events) s = .next t ∧
    Does [.exclusions, .mboxes, .queues, .freeCtr] (sendLists (commitActions (tickEdge events (reportMissing s)))) t := by
  refine ⟨_, rfl, ?_⟩
  split
  · exact .refl _
  · exact answerEdge_does _

/-- No action of a list of pending ones has been carried out. -/
def NoneDone (s : State) : Prop := ∀ a ∈ s.actions, a.done = false

theorem NoneDone.of_actions {s t : State} (h : NoneDone s) (he : t.actions = s.actions) : NoneDone t := by
  unfold NoneDone
  rwa [he]

theorem NoneDone.append {s : State} (h : NoneDone s) (a : Action) :
    NoneDone { s with actions := s.actions ++ [⟨a, false, false⟩] } := by
  intro x hx
  rcases List.mem_append.1 hx with hx | hx
  · exact h x hx
  · rw [List.mem_singleton.1 hx]

theorem NoneDone.placeRow {s : State} (h : NoneDone s) (c : TableCtx) (row misses : Nat) : NoneDone (placeRow c row misses s) := by
  unfold Machine.placeRow
  split
  · exact h
  · dsimp only
    split
    · split
      · exact h
      · exact NoneDone.append (h.of_actions ((Does.foldl (T := [.dips]) _ (fun u a => enterCopy_does _ u a) (.refl s)).frame .actions (by decide))) _
    · exact h

theorem NoneDone.foldl {α : Type} {f : State → α → State} {l : List α} (hf : ∀ u a, NoneDone u → NoneDone (f u a)) {s : State}
    (h : NoneDone s) : NoneDone (l.foldl f s) := by
  induction l generalizing s with
  | nil => exact h
  | cons a l ih => exact ih (hf _ _ h)

theorem NoneDone.applySwap {s : State} (h : NoneDone s) (slot live standby t : Nat) : NoneDone (applySwap slot live standby t s) := by
  unfold Machine.applySwap
  split
  · exact h
  · refine NoneDone.of_actions (NoneDone.append (.foldl (fun u a hu => hu.placeRow _ _ _) ?_) _) ((finalAnswer_does ..).frame .actions (by decide))
    exact h.of_actions ((swapTables_does slot live standby t s).frame .actions (by decide))

/-- An action put in force asks for others, and carries none out. -/
theorem NoneDone.commitAction {s : State} (h : NoneDone s) (a : Action) : NoneDone (commitAction s a) := by
  cases a with
  | tableSwap slot live standby t => exact h.applySwap slot live standby t
  | cutover slot ref row t => exact h.of_actions ((applyCutover_does ..).frame .actions (by decide))
  | dipChange slot ref row => exact h.of_actions ((applyDip_does ..).frame .actions (by decide))
  | rebindCommit slot => exact h.of_actions ((applyRebind_does ..).frame .actions (by decide))
  | activation slot => exact h.of_actions ((activatePlan_does ..).frame .actions (by decide))
  | retirement slot reset =>
    cases reset with
    | false => exact h.of_actions ((backToLoaded_does ..).frame .actions (by decide))
    | true => exact h.of_actions ((finishPlanReset_does ..).frame .actions (by decide))
  | periodChange p => exact h

/-- An edge leaves no action done. -/
theorem NoneDone.commitActions (s : State) : NoneDone (commitActions s) := by
  refine NoneDone.of_actions (NoneDone.foldl (fun u a hu => hu.commitAction a) fun a ha => ?_) ((returnAll_does _).frame .actions (by decide))
  simpa using (List.mem_filter.1 ha).2

/-- With nothing carried out in the guard band an edge commits nothing. -/
theorem commitActions_does_of_noneDone {s : State} (h : NoneDone s) : Does [.tables] s (commitActions s) := by
  have hdone : s.actions.filter (·.done) = [] := List.filter_eq_nil_iff.2 fun a ha => by simp [h a ha]
  have hkept : s.actions.filter (fun a => !a.done) = s.actions := List.filter_eq_self.2 fun a ha => by simp [h a ha]
  unfold Machine.commitActions
  rw [hdone, hkept]
  exact returnAll_does _

/-- A field that neither the commitment nor the lists sent touch is that of the edge. -/
theorem edgeFrame {events : List TickReport} {s t : State} (h : Does [.exclusions, .mboxes, .queues, .freeCtr]
    (sendLists (commitActions (tickEdge events (reportMissing s)))) t) :
    t.clk = (tickEdge events (reportMissing s)).clk ∧ t.rul = (tickEdge events (reportMissing s)).rul ∧
      t.tickEvents = (tickEdge events (reportMissing s)).tickEvents ∧ t.actions = (commitActions (tickEdge events (reportMissing s))).actions := by
  have hsend := sendLists_does (commitActions (tickEdge events (reportMissing s)))
  have hcommit := commitActions_does (tickEdge events (reportMissing s))
  exact ⟨((h.frame .clk (by decide)).trans (hsend.frame .clk (by decide))).trans (hcommit.frame .clk (by decide)),
    ((h.frame .rul (by decide)).trans (hsend.frame .rul (by decide))).trans (hcommit.frame .rul (by decide)),
    ((h.frame .tickEvents (by decide)).trans (hsend.frame .tickEvents (by decide))).trans (hcommit.frame .tickEvents (by decide)),
    (h.frame .actions (by decide)).trans (hsend.frame .actions (by decide))⟩

/-! ### The guard band -/

theorem emitErr_rul (e : ErrRec) (s : State) : (emitErr e s).rul = s.rul := (emitErr_does e s).frame .rul (by decide)

theorem endShared_tick (x : SharedRun) (s : State) : (endShared x s).rul.tick = s.rul.tick := by
  unfold endShared
  split
  · simp only [emitErr_rul]
  · rfl

theorem sharedLate_tick (x : SharedRun) (s : State) : (sharedLate x s).rul.tick = s.rul.tick := by
  unfold sharedLate lateStart
  split
  · rw [((tickEvent_does ..).frame .rul (by decide) : (tickEvent _ _).rul = _)]
    rfl
  · rfl

/-- The end of SHARED_TASKs leaves RUL_TICK. -/
theorem endShareds_tick (xs : List SharedRun) (s : State) : (endShareds xs s).rul.tick = s.rul.tick := by
  unfold endShareds
  refine List.foldlRecOn xs _ (motive := fun u : State => u.rul.tick = s.rul.tick) rfl fun u hu x _ => ?_
  dsimp only
  split
  · split
    · exact (endShared_tick x u).trans hu
    · exact (sharedLate_tick ..).trans ((endShared_tick x u).trans hu)
  · exact (endShared_tick x u).trans hu

/-- The guard band open: its place in the tick, and RUL_TICK as the edge to come carries it (R44, R67). -/
theorem openBand_opens (s : State) : (openBand s).clk.guard = true ∧ (openBand s).clk.cycle = max s.clk.cycle (s.clk.edge + s.clk.len - 3800) ∧
    (openBand s).clk.edge = s.clk.edge ∧ (openBand s).clk.len = s.clk.len ∧ (openBand s).rul.tick = s.rul.tick + 1 := by
  have hclk : (openBand s).clk = { s.clk with cycle := max s.clk.cycle (s.clk.edge + s.clk.len - 3800), guard := true } :=
    ((advanceTick_does _).frame .clk (by decide)).trans ((settleShared_does _ _).frame .clk (by decide))
  have htick : (openBand s).rul.tick = s.rul.tick + 1 := congrArg (· + 1) (endShareds_tick _ _)
  rw [hclk]
  exact ⟨rfl, rfl, rfl, rfl, htick⟩

/-! ### Admission (R68, Table 2-6) -/

/-- A class admits entries of its own, no more than its limit. -/
theorem admitClass_admits (s : State) (avail lim : Nat) (l : List (Nat × Action)) :
    (∀ i ∈ (admitClass s avail lim l).2, ∃ e ∈ l, e.1 = i) ∧ (admitClass s avail lim l).2.length ≤ lim := by
  induction l generalizing avail lim with
  | nil => simp [admitClass]
  | cons e r ih =>
    unfold admitClass
    split
    · split
      · simp
      · exact ⟨fun i hi => (ih avail lim).1 i hi |>.imp fun x hx => ⟨List.mem_cons_of_mem _ hx.1, hx.2⟩, (ih avail lim).2⟩
    · split
      · simp
      · next hlim =>
        obtain ⟨hmem, hlen⟩ := ih (avail - actionCost s e.2) (lim - 1)
        have hpos : lim ≠ 0 := fun h => hlim (by simp [h])
        refine ⟨fun i hi => ?_, by simp only [List.length_cons]; omega⟩
        rcases List.mem_cons.1 hi with rfl | hi
        · exact ⟨e, List.mem_cons_self, rfl⟩
        · exact (hmem i hi).imp fun x hx => ⟨List.mem_cons_of_mem _ hx.1, hx.2⟩

/-- The places admitted in class `c` out of a list of requests, when `avail` cycles remain. -/
def admittedIn (s : State) (all : List (Nat × Action)) (avail c : Nat) : List Nat :=
  (admitClass s avail (classLimit c) (all.filter fun e => actionClass e.2 == c)).2

/-- The admission of several classes in turn is that of each with the cycles left to it. -/
theorem admitFold_eq (s : State) (all : List (Nat × Action)) (cs : List Nat) (hcs : cs.Nodup) (x : Nat × List Nat) :
    ∃ avail : Nat → Nat, (cs.foldl (fun (x : Nat × List Nat) c =>
      let y := admitClass s x.1 (classLimit c) (all.filter fun e => actionClass e.2 == c)
      (y.1, x.2 ++ y.2)) x).2 = x.2 ++ cs.flatMap fun c => admittedIn s all (avail c) c := by
  induction cs generalizing x with
  | nil => exact ⟨id, by simp⟩
  | cons c cs ih =>
    obtain ⟨hc, hcs⟩ := List.nodup_cons.1 hcs
    obtain ⟨avail, h⟩ := ih hcs ((admitClass s x.1 (classLimit c) (all.filter fun e => actionClass e.2 == c)).1,
      x.2 ++ (admitClass s x.1 (classLimit c) (all.filter fun e => actionClass e.2 == c)).2)
    refine ⟨fun d => if d = c then x.1 else avail d, ?_⟩
    have hrest : (cs.flatMap fun d => admittedIn s all (if d = c then x.1 else avail d) d) = cs.flatMap fun d => admittedIn s all (avail d) d :=
      List.flatMap_congr fun d hd => by
        have hne : d ≠ c := fun he => hc (he ▸ hd)
        rw [if_neg hne]
    rw [List.foldl_cons, h, List.flatMap_cons, hrest]
    simp only [if_pos, List.append_assoc]
    rfl

/-- Two entries of a numbered list with one number are one entry. -/
theorem zip_range_unique {α : Type} {l : List α} {i : Nat} {a b : α} (ha : (i, a) ∈ (List.range l.length).zip l)
    (hb : (i, b) ∈ (List.range l.length).zip l) : a = b := by
  have key : ∀ x, (i, x) ∈ (List.range l.length).zip l → l[i]? = some x := by
    intro x hx
    obtain ⟨n, hn, he⟩ := List.mem_iff_getElem.1 hx
    have hn' : n < l.length := by simpa using hn
    simp only [List.getElem_zip, List.getElem_range, Prod.mk.injEq] at he
    rw [← he.1, List.getElem?_eq_getElem hn', he.2]
  exact Option.some.inj ((key a ha).symm.trans (key b hb))

/-- The pending actions numbered in request order. -/
def numbered (s : State) : List (Nat × Pending) := (List.range s.actions.length).zip s.actions

theorem numbered_acts (s : State) : (List.range s.actions.length).zip (s.actions.map (·.act)) = (numbered s).map fun e => (e.1, e.2.act) := by
  rw [List.zip_map_right]
  rfl

/-- Of the actions numbered, those of one class at an admitted place are no more than the class's limit. -/
theorem numbered_admitted_le (s : State) {places : List Nat} {avail : Nat → Nat} {cs : List Nat} (c : Nat)
    (h : places = cs.flatMap fun d => admittedIn s ((numbered s).map fun e => (e.1, e.2.act)) (avail d) d) :
    ((numbered s).filter fun e => places.contains e.1 && actionClass e.2.act == c).length ≤ classLimit c := by
  have hnodup : (((numbered s).filter fun e => places.contains e.1 && actionClass e.2.act == c).map Prod.fst).Nodup := by
    refine List.Nodup.sublist (List.filter_sublist.map _) ?_
    have hfst : (numbered s).map Prod.fst = List.range s.actions.length := List.map_fst_zip (by simp)
    exact hfst ▸ List.nodup_range
  have hsub : (((numbered s).filter fun e => places.contains e.1 && actionClass e.2.act == c).map Prod.fst) ⊆
      admittedIn s ((numbered s).map fun e => (e.1, e.2.act)) (avail c) c := by
    intro i hi
    obtain ⟨⟨j, p⟩, he, rfl⟩ := List.mem_map.1 hi
    obtain ⟨hp, hx⟩ := List.mem_filter.1 he
    simp only [Bool.and_eq_true, List.contains_iff_mem, beq_iff_eq] at hx
    obtain ⟨hplace, hclass⟩ := hx
    rw [h] at hplace
    obtain ⟨d, -, hd⟩ := List.mem_flatMap.1 hplace
    obtain ⟨⟨j', a⟩, ha, hj⟩ := (admitClass_admits s _ _ _).1 j hd
    obtain ⟨ha, hclass'⟩ := List.mem_filter.1 ha
    obtain ⟨⟨j'', q⟩, hq, he'⟩ := List.mem_map.1 ha
    obtain ⟨rfl, rfl⟩ := Prod.mk.inj he'
    subst hj
    have hpq : q = p := zip_range_unique hq hp
    subst hpq
    have hcd : actionClass q.act = d := by simpa using hclass'
    rwa [← hclass, hcd]
  have hle := (List.subperm_of_subset hnodup hsub).length_le
  rw [List.length_map] at hle
  exact hle.trans (admitClass_admits s _ _ _).2

/-- A replacement that fails withdraws its action only. -/
theorem failSwap_actions (s : State) (a : Pending) : (failSwap s a).actions.Sublist s.actions := by
  unfold failSwap
  dsimp only
  split
  · split
    · exact .refl _
    · split
      · rw [((finalAnswer_does ..).frame .actions (by decide) : (finalAnswer _ _ _ _ _).actions = _)]
        exact List.erase_sublist
      · exact .refl _
  · exact .refl _

/-- What a guard band leaves of the actions: of those requested, admitted within the limits of their classes. -/
theorem admitActions_admits {s : State} (h : s.halted = false) : (∀ a ∈ (admitActions s).actions, ∃ b ∈ s.actions, b.act = a.act) ∧
    ∀ c, ((admitActions s).actions.filter fun a => a.admitted && actionClass a.act == c).length ≤ classLimit c := by
  have hsub : (s.actions.foldl failSwap s).actions.Sublist s.actions :=
    List.foldlRecOn s.actions _ (motive := fun u : State => u.actions.Sublist s.actions) (.refl _)
      fun u hu a _ => (failSwap_actions u a).trans hu
  generalize hu : s.actions.foldl failSwap s = u at hsub
  obtain ⟨avail, hplaces⟩ := admitFold_eq u ((List.range u.actions.length).zip (u.actions.map (·.act))) [1, 2, 3, 4, 5, 6] (by decide)
    (settleAt - (158 + 40 * (exchanging u).length), [])
  generalize hr : (List.foldl _ _ _ : Nat × List Nat).2 = places at hplaces
  have hact : (admitActions s).actions = (numbered u).map fun e => { e.2 with admitted := places.contains e.1 } := by
    unfold admitActions
    rw [h, hu, ← hr]
    rfl
  rw [numbered_acts, List.nil_append] at hplaces
  rw [hact]
  refine ⟨fun a ha => ?_, fun c => ?_⟩
  · obtain ⟨e, he, rfl⟩ := List.mem_map.1 ha
    exact ⟨e.2, hsub.subset (List.of_mem_zip he).2, rfl⟩
  · rw [List.filter_map, List.length_map]
    exact numbered_admitted_le u c hplaces

/-- What an edge leaves as it was before its commitments: streams and plans; its blot counts are spent. -/
theorem tickEdge_keeps (events : List TickReport) (s : State) : (tickEdge events s).streams = s.streams ∧
    (tickEdge events s).plans = s.plans ∧ (tickEdge events s).actions = s.actions ∧ (tickEdge events s).blot.blots = [] := by
  have hruled : tickEdge events s = { tickClosed events s with clk := (tickEdge events s).clk, rul := (tickEdge events s).rul } := by
    rw [tickEdge_eq, tickRuled_eq]
    unfold applyPeriod edgeSet
    cases (tickClosed events s).clk.guard <;> split <;> rfl
  have hclosed := tickClosed_does events s
  rw [hruled]
  exact ⟨hclosed.frame .streams (by decide), hclosed.frame .plans (by decide), hclosed.frame .actions (by decide), rfl⟩

/-- The tick an edge opens (R42 to R47). -/
theorem tickEdge_opens (events : List TickReport) (s : State) :
    (tickEdge events s).rul.tick = (if s.clk.guard then s.rul.tick else s.rul.tick + 1) ∧ (tickEdge events s).clk.guard = false ∧
    (tickEdge events s).clk.edge = max s.clk.cycle (s.clk.edge + s.clk.len) ∧ (tickEdge events s).clk.cycle = (tickEdge events s).clk.edge ∧
    (tickEdge events s).rul.nextPeriod = none ∧ (tickEdge events s).rul.surveyTicks = s.rul.surveyTicks + 1 ∧
    (tickEdge events s).rul.stepDue = s.rul.stepPend ∧ (∀ p, s.rul.nextPeriod = some p → p < 2 ^ 27 → period (tickEdge events s) = p) ∧
    (s.rul.nextPeriod = none → (tickEdge events s).rul.cfg = s.rul.cfg) ∧
    (disciplined (tickEdge events s) = false → (tickEdge events s).clk.len = period (tickEdge events s)) ∧
    (tickEdge events s).tickEvents = [] := by
  obtain ⟨htick, hguard, hedge, hcycle, hnext, hsurvey, hdue⟩ := tickRuled_opens (tickClosed events s)
  obtain ⟨hperiod, hcfg⟩ := tickRuled_period (tickClosed events s)
  have hrul : (tickClosed events s).rul = s.rul := (tickClosed_does events s).frame .rul (by decide)
  rw [hrul] at htick hperiod hsurvey hdue hcfg
  rw [tickClosed_clk] at htick hedge hcycle
  have hevents : (tickRuled (tickClosed events s)).tickEvents = [] := by
    rw [tickRuled_eq]
    unfold applyPeriod edgeSet
    cases (tickClosed events s).clk.guard <;> split <;> exact edgeRecords_tickEvents _
  rw [tickEdge_eq]
  exact ⟨htick, hguard, hedge, hcycle.trans hedge.symm, hnext, hsurvey, hdue, hperiod, hcfg, fun h => nextLength_undisciplined (s := tickRuled (tickClosed events s)) h _, hevents⟩

/-- What the guard band leaves besides the actions: the clock, the ruling and the plans are those of the band opened. -/
theorem exec_guardBandOpen {s : State} (h : s.clk.guard = false) : ∃ t, exec .guardBandOpen s = .next t ∧ t.clk = (openBand s).clk ∧
    t.rul = (openBand s).rul ∧ t.plans = s.plans ∧ t.actions = (admitActions (openBand s)).actions := by
  obtain ⟨t, ht⟩ : ∃ t, exec .guardBandOpen s = .next t := ⟨_, if_neg (by simp [h])⟩
  have hnext : exec .guardBandOpen s = .next ((exchangeReleases (openBand s)).foldl (fun s n => sealExchange n s)
      (tickRecords (suspendForActions (admitActions (openBand s))).clk.cycle
        ((suspendForActions (admitActions (openBand s))).streams.foldl ringSwap (suspendForActions (admitActions (openBand s)))))) :=
    if_neg (by simp [h])
  have hlate : Does [.sched, .freeCtr, .streams, .caches, .tables] (admitActions (openBand s))
      ((exchangeReleases (openBand s)).foldl (fun s n => sealExchange n s)
      (tickRecords (suspendForActions (admitActions (openBand s))).clk.cycle
        ((suspendForActions (admitActions (openBand s))).streams.foldl ringSwap (suspendForActions (admitActions (openBand s)))))) :=
    .foldl _ (fun _ _ => .next (sealExchange_does ..) (by decide) (.refl _)) (.next (tickRecords_does ..) (by decide)
      (.foldl _ (fun _ _ => .next (ringSwap_does ..) (by decide) (.refl _)) (.next (suspendForActions_does ..) (by decide) (.refl _))))
  have hadmit := admitActions_does (openBand s)
  have hopen := openBand_does s
  exact ⟨_, hnext, (hlate.frame .clk (by decide)).trans (hadmit.frame .clk (by decide)),
    (hlate.frame .rul (by decide)).trans (hadmit.frame .rul (by decide)),
    ((hlate.frame .plans (by decide)).trans (hadmit.frame .plans (by decide))).trans (hopen.frame .plans (by decide)),
    hlate.frame .actions (by decide)⟩

/-- Settles O29: the edge through its parts, the guard band through its admission. -/
theorem tickEdgeAndGuardBand : Obligations.TickEdgeAndGuardBand := by
  unfold Obligations.TickEdgeAndGuardBand
  refine ⟨fun s events => ?_, fun s h => ?_, fun s h => if_pos h⟩
  · obtain ⟨t, ht, hdoes⟩ := exec_tickEdge events s
    obtain ⟨hclk, hrul, hevents, hactions⟩ := edgeFrame hdoes
    have hmissing := reportMissing_does s
    obtain ⟨htick, hguard, hedge, hcycle, hnext, hsurvey, hdue, hperiod, hcfg, hlen, hev⟩ := tickEdge_opens events (reportMissing s)
    obtain ⟨hstreams, hplans, hacts, hblots⟩ := tickEdge_keeps events (reportMissing s)
    have hclk0 : (reportMissing s).clk = s.clk := hmissing.frame .clk (by decide)
    have hrul0 : (reportMissing s).rul = s.rul := hmissing.frame .rul (by decide)
    have hacts0 : (reportMissing s).actions = s.actions := hmissing.frame .actions (by decide)
    have hperiodT : period t = period (tickEdge events (reportMissing s)) := congrArg (fun r : Ruling => fld 26 0 r.cfg.toNat) hrul
    have hdisc : disciplined t = disciplined (tickEdge events (reportMissing s)) := congrArg (fun r : Ruling => disciplined { s with rul := r }) hrul
    rw [hrul0] at htick hsurvey hdue hperiod hcfg
    rw [hclk0] at htick hedge
    refine ⟨t, ht, ?_⟩
    rw [hclk, hrul, hevents, hperiodT, hdisc]
    refine ⟨htick, hguard, hedge, hcycle, hnext, hsurvey, hdue, hperiod, hcfg, hlen, hev, ?_, fun hnone => ?_⟩
    · rw [hactions]
      exact NoneDone.commitActions _
    · have hcommit := commitActions_does_of_noneDone (NoneDone.of_actions (s := s) hnone (hacts.trans hacts0))
      have hlater : Does [.exclusions, .mboxes, .queues, .freeCtr, .tables, .ports] (tickEdge events (reportMissing s)) t :=
        .trans (.next (sendLists_does _) (by decide) (.mono hcommit (by decide))) (.mono hdoes (by decide))
      exact ⟨(congrArg (·.blots) (hlater.frame .blot (by decide))).trans hblots,
        (hlater.frame .actions (by decide)).trans (hacts.trans hacts0),
        (hlater.frame .streams (by decide)).trans (hstreams.trans (hmissing.frame .streams (by decide))),
        (hlater.frame .plans (by decide)).trans (hplans.trans (hmissing.frame .plans (by decide)))⟩
  · obtain ⟨t, ht, hclk, hrul, hplans, hactions⟩ := exec_guardBandOpen h
    obtain ⟨hguard, hcycle, hedge, hlen, htick⟩ := openBand_opens s
    have hopen := openBand_does s
    have hacts : (openBand s).actions = s.actions := hopen.frame .actions (by decide)
    have hhalt : (openBand s).halted = s.halted := hopen.frame .halted (by decide)
    have hnow : nowTick t = s.rul.tick.toNat := by
      rw [nowTick, hclk, hrul, hguard, htick]
      simp
    rw [← hclk] at hguard hcycle hedge hlen
    rw [← hrul] at htick
    refine ⟨t, ht, hguard, hcycle, hedge, hlen, htick, hnow, hplans, fun hs => ?_, fun hs => ?_⟩
    · have hnone : admitActions (openBand s) = openBand s := if_pos (hhalt.trans hs)
      rw [hactions, hnone, hacts]
    · obtain ⟨hfrom, hlimit⟩ := admitActions_admits (hhalt.trans hs)
      rw [hactions]
      rw [hacts] at hfrom
      exact ⟨hfrom, hlimit 6, hlimit 4, hlimit 1⟩

end Sys2Proof.Machine
end

section
/-! SUPPORT. When a stage begins, and what one that ends leaves (O53). -/

namespace Sys2Proof.Machine

/-! ### Groups in their nibs -/

/-- A group stands where it was put. -/
theorem mem_nibGroups_putGroup (n : Nat) (g : Group) (s : State) : g ∈ nibGroups (putGroup n g s) n := by
  unfold nibGroups putGroup
  rw [look_put_same, Option.getD_some]
  split
  · next h =>
    obtain ⟨x, hx, hsame⟩ := List.any_eq_true.1 h
    exact List.mem_map.2 ⟨x, hx, if_pos hsame⟩
  · exact List.mem_cons_self

theorem nibGroups_putGroup_other {m n : Nat} (h : m ≠ n) (g : Group) (s : State) : nibGroups (putGroup n g s) m = nibGroups s m :=
  congrArg (fun x : Option (List Group) => x.getD []) (look_put_other _ _ _ _ h)

theorem nibGroups_of_does {T : List Part} {s t : State} (h : Does T s t) (hT : Part.nibs ∉ T) (n : Nat) : nibGroups t n = nibGroups s n :=
  congrArg (fun l => (look n l).getD []) (h.frame .nibs hT)

/-! ### A stage that begins (R96) -/

/-- The group is the same work: of the same release, with the same number. -/
def SameWork (g x : Group) : Prop := g.slot = x.slot ∧ g.lig = x.lig ∧ g.started = x.started ∧ g.num = x.num

/-- What the stage found is: where the stage stands, its running task, its group, and the group before it on the nib. -/
theorem stageCtx_found {r : StageRef} {s : State} {c : StageCtx} (h : stageCtx r s = some c) :
    plan? s r.slot.toNat = some c.plan ∧ ligOf c.plan r.lig.toNat = some c.lig ∧ c.lig.stages[r.stage.toNat]? = some c.st ∧
    c.k = r.stage.toNat ∧ c.slot = r.slot.toNat ∧ (∃ k, findRunning s c.task = some (k, c.run)) ∧ r.group.toNat < c.lig.groups ∧
    (c.grp.slot = c.slot ∧ c.grp.lig = c.ligIx ∧ c.grp.started = c.run.started ∧ c.grp.num = r.group.toNat ∧ c.grp.next = c.k) ∧
    (nibsOf c.lig)[r.group.toNat % (nibsOf c.lig).length]? = some c.nib ∧
    (r.group.toNat < (nibsOf c.lig).length ∨ ∃ x ∈ nibGroups s (c.core * 8 + c.nib), x.started = c.run.started ∧
      x.num + (nibsOf c.lig).length = r.group.toNat ∧ c.lig.stages.length ≤ x.next) ∧
    c.task = taskId r.slot.toNat r.lig.toNat ∧ c.core = c.run.task.core := by
  unfold stageCtx at h
  dsimp only at h
  split at h
  case h_2 => cases h
  next p k run hp hrun =>
  split at h
  · cases h
  next l hl =>
  split at h
  case h_2 => cases h
  next st nib hst hnib =>
  split at h
  case h_2 => cases h
  next x hx =>
  split at h
  case isFalse => cases h
  next hmay =>
  obtain ⟨hgroups, hbefore⟩ := Bool.and_eq_true_iff.1 hmay
  have hgrp : x.slot = r.slot.toNat ∧ x.lig = r.lig.toNat ∧ x.started = run.started ∧ x.num = r.group.toNat ∧ x.next = r.stage.toNat := by
    split at hx
    · next y hy =>
      split at hx
      · next hnext =>
        obtain rfl := Option.some.inj hx
        have hin := List.mem_of_find?_eq_some hy
        have hnum := List.find?_some hy
        simp only [List.mem_filter, Bool.and_eq_true, beq_iff_eq] at hin hnum
        obtain ⟨-, ⟨hslot, hlig⟩, hstarted⟩ := hin
        exact ⟨hslot, hlig, hstarted, hnum, hnext⟩
      · cases hx
    · split at hx
      · next hzero =>
        obtain rfl := Option.some.inj hx
        have hk : r.stage.toNat = 0 := by simpa using (Bool.and_eq_true_iff.1 hzero).1
        unfold freshGroup
        dsimp only
        split <;> exact ⟨rfl, rfl, rfl, rfl, hk.symm⟩
      · cases hx
  obtain ⟨hslot, hlig, hstarted, hnum, hnext⟩ := hgrp
  obtain rfl := Option.some.inj h
  refine ⟨hp, hl, hst, rfl, rfl, ⟨k, hrun⟩, of_decide_eq_true hgroups, ⟨hslot, hlig, hstarted, hnum, hnext⟩, hnib, ?_, rfl, rfl⟩
  rcases Bool.or_eq_true_iff.1 hbefore with hfirst | hlater
  · exact .inl (of_decide_eq_true hfirst)
  · obtain ⟨y, hy, hdone⟩ := List.any_eq_true.1 hlater
    simp only [List.mem_filter, Bool.and_eq_true, beq_iff_eq, decide_eq_true_eq] at hy hdone
    obtain ⟨hin, -, hstartedY⟩ := hy
    exact .inr ⟨y, hin, hstartedY, hdone.1, hdone.2⟩

/-! ### A stage that does not begin -/

theorem stage_idle {r : StageRef} {e sd op : Nat} {body : StageCtx → State → Option StageOut} {s : State}
    (h : ∀ c, ¬ stageReady r e sd op c s) : stage r e sd op body s = s := by
  unfold stage
  cases hc : stageCtx r s with
  | none => rfl
  | some c =>
    refine if_neg fun hm => h c ?_
    simp only [Bool.and_eq_true, beq_iff_eq] at hm
    obtain ⟨⟨he, hsd⟩, hop⟩ := hm
    exact ⟨hc, he, hsd, hop⟩

theorem noteTry_idle {r : StageRef} {s : State} (h : ∀ c, ¬ stageReady r 4 0 2 c s) : noteTry r s = s := by
  unfold noteTry
  cases hc : stageCtx r s with
  | none => rfl
  | some c =>
    refine if_pos ?_
    have hm : (c.st.engine == 4 && c.st.side == 0 && c.st.op == 2) = false := by
      refine Bool.eq_false_iff.2 fun hm => h c ?_
      simp only [Bool.and_eq_true, beq_iff_eq] at hm
      obtain ⟨⟨he, hsd⟩, hop⟩ := hm
      exact ⟨hc, he, hsd, hop⟩
    simp [hm]

/-- Each stage command runs one body as the stage it names; POOL notes its first try before (R94, R241). -/
theorem exec_stageOf {i : Instr} {r : StageRef} {e sd op : Nat} (h : stageOf i = some (r, e, sd, op)) :
    ∃ (pre : State → State) (body : StageCtx → State → Option StageOut), (∀ s, exec i s = .next (stage r e sd op body (pre s))) ∧
      ∀ s, (∀ c, ¬ stageReady r e sd op c s) → pre s = s := by
  unfold stageOf at h
  split at h
  case h_17 =>
    obtain ⟨⟩ := h
    exact ⟨noteTry r, _, fun _ => rfl, fun _ => noteTry_idle⟩
  case h_23 => cases h
  all_goals
    obtain ⟨⟩ := h
    exact ⟨id, _, fun _ => rfl, fun _ _ => rfl⟩

/-! ### A stage that ends -/

/-- What a stage's body may touch: all but the nibs, the clock, the ruling, the plans and the streams. -/
def bodyParts : List Part := everyPart.filter fun p => !([.nibs, .clk, .rul, .plans, .streams] : List Part).contains p

/-- A body hands its group's work on. -/
def HandsOn (c : StageCtx) (s : State) (o : StageOut) : Prop := SameWork o.grp c.grp ∧ Does bodyParts s o.st

theorem stage_of_ready {r : StageRef} {e sd op : Nat} {c : StageCtx} {s : State} {body : StageCtx → State → Option StageOut} {o : StageOut}
    (h : stageReady r e sd op c s) (hb : body c s = some o) : stage r e sd op body s = endStage c r.check o := by
  obtain ⟨hc, rfl, rfl, rfl⟩ := h
  unfold stage
  simp only [hc, hb, beq_self_eq_true, Bool.and_self, if_true]

/-- An ended stage is a group put into its nib. -/
theorem endStage_puts (c : StageCtx) (check : Option (BitVec 4)) (o : StageOut) : ∃ g u, endStage c check o = putGroup (c.core * 8 + c.nib) g u ∧
    SameWork g o.grp ∧ g.next = c.k + 1 ∧ Does [.blot, .tickEvents, .tests, .mem, .pages, .sched, .cells, .regHeld, .hostSigs, .batches] o.st u := by
  have hrows : ∀ g, Does [.blot, .tickEvents, .tests, .mem, .pages, .sched, .cells, .regHeld, .hostSigs, .batches] o.st
      (rowsCheck c g (writeFree o.st (c.dva c.st.outOff) (o.out.take c.st.outLen))) := fun g =>
    .next (rowsCheck_does ..) (by decide) (.next (writeFree_does ..) (by decide) (.refl _))
  cases check with
  | none => exact ⟨_, _, rfl, ⟨rfl, rfl, rfl, rfl⟩, rfl, hrows _⟩
  | some sub => exact ⟨_, _, rfl, ⟨rfl, rfl, rfl, rfl⟩, rfl, .next (engineCheck_does ..) (by decide) (hrows _)⟩

/-- A body that hands its group on leaves its stage done. -/
theorem endStage_done {r : StageRef} {s : State} {c : StageCtx} {o : StageOut} (hc : stageCtx r s = some c) (ho : HandsOn c s o) (check : Option (BitVec 4)) :
    stageDone c s (endStage c check o) := by
  obtain ⟨-, -, -, -, -, -, -, ⟨hslot, hlig, hstarted, hnum, -⟩, -⟩ := stageCtx_found hc
  obtain ⟨⟨oslot, olig, ostarted, onum⟩, hdoes⟩ := ho
  obtain ⟨g, u, he, ⟨gslot, glig, gstarted, gnum⟩, hnext, hu⟩ := endStage_puts c check o
  have hbody : Does bodyParts s u := hdoes.trans (hu.mono (by decide))
  have hall : Does (.nibs :: bodyParts) s (endStage c check o) := he ▸ .next (putGroup_does ..) (by decide) (hbody.mono (by decide))
  refine ⟨⟨g, he ▸ mem_nibGroups_putGroup _ _ _, ?_⟩, fun n hn => ?_, hall.frame .clk (by decide), hall.frame .rul (by decide),
    hall.frame .plans (by decide), hall.frame .streams (by decide)⟩
  · exact ⟨by rw [gslot, oslot, hslot], by rw [glig, olig, hlig], by rw [gstarted, ostarted, hstarted], by rw [gnum, onum], hnext⟩
  · rw [he, nibGroups_putGroup_other hn, nibGroups_of_does hbody (by decide)]

/-- A stage that may begin, and whose body hands its group on, ends. -/
theorem stage_ends {r : StageRef} {e sd op : Nat} {c : StageCtx} {s : State} {body : StageCtx → State → Option StageOut}
    (h : stageReady r e sd op c s) (hb : ∃ o, body c s = some o ∧ HandsOn c s o) :
    ∃ o, (Host.Outcome.next (stage r e sd op body s) : Host.Outcome State Fault Refusal) = .next (endStage c r.check o) ∧ stageDone c s (endStage c r.check o) := by
  obtain ⟨o, hb, ho⟩ := hb
  exact ⟨o, congrArg _ (stage_of_ready h hb), endStage_done h.1 ho _⟩

/-! ### The bodies hand their groups on -/

theorem SameWork.refl (g : Group) : SameWork g g := ⟨rfl, rfl, rfl, rfl⟩

/-- A body of which it is known what it may do, and which answers, hands on the work of its group. -/
theorem handsOn_of_does {T : List Part} {c : StageCtx} {s : State} {b : Option StageOut} {o : StageOut} (hb : b = some o)
    (h : Does T s (stageState s b)) (hT : subPart T bodyParts = true) (hg : SameWork o.grp c.grp) : ∃ o, b = some o ∧ HandsOn c s o := by
  subst hb
  exact ⟨o, rfl, hg, h.mono hT⟩

theorem pureStage_handsOn {f : StageCtx → State → Group × Bytes} (c : StageCtx) (s : State) (h : SameWork (f c s).1 c.grp) :
    ∃ o, pureStage f c s = some o ∧ HandsOn c s o := ⟨_, rfl, h, .refl s⟩

theorem joinBuild_handsOn {c : StageCtx} {s : State} (h : newRelease c (joinOf s c.slot (joinAt c.plan.image.blob c.st.param).table) = false ∨
    probing s c (joinAt c.plan.image.blob c.st.param).table = false) : ∃ o, joinBuild c s = some o ∧ HandsOn c s o := by
  have hgo : (newRelease c (joinOf s c.slot (joinAt c.plan.image.blob c.st.param).table) &&
      probing s c (joinAt c.plan.image.blob c.st.param).table) = false := Bool.and_eq_false_iff.2 h
  exact handsOn_of_does (if_neg (by simp [hgo])) (joinBuild_does c s) (by decide) (.refl _)

theorem joinProbe_handsOn {c : StageCtx} {s : State} (h : probeReady s c (joinAt c.plan.image.blob c.st.param).table
    (joinOf s c.slot (joinAt c.plan.image.blob c.st.param).table) = true) : ∃ o, joinProbe c s = some o ∧ HandsOn c s o := by
  have hdoes := joinProbe_does c s
  unfold joinProbe at hdoes ⊢
  simp only [h, Bool.not_true, Bool.false_eq_true, if_false] at hdoes ⊢
  split
  · exact ⟨_, rfl, .refl _, .refl s⟩
  · next hfull =>
    rw [if_neg hfull] at hdoes
    split
    · next hkind =>
      rw [if_pos hkind] at hdoes
      exact handsOn_of_does rfl hdoes (by decide) (.refl _)
    · next hkind =>
      rw [if_neg hkind] at hdoes
      exact handsOn_of_does rfl hdoes (by decide) (.refl _)

theorem groupPartial_handsOn (c : StageCtx) (s : State) : ∃ o, groupPartial c s = some o ∧ HandsOn c s o :=
  handsOn_of_does rfl (groupPartial_does c s) (by decide) (.refl _)

theorem groupMerge_handsOn {c : StageCtx} {s : State} (h : tableSealed c.plan 4 (joinAt c.plan.image.blob c.st.param).table
    (joinOf s c.slot (joinAt c.plan.image.blob c.st.param).table) = true) : ∃ o, groupMerge c s = some o ∧ HandsOn c s o := by
  have hdoes := groupMerge_does c s
  unfold groupMerge at hdoes ⊢
  simp only [h, Bool.not_true, Bool.false_eq_true, if_false] at hdoes ⊢
  split
  · exact ⟨_, rfl, .refl _, .refl s⟩
  · next hfull =>
    rw [if_neg hfull] at hdoes
    split
    · next hkind =>
      rw [if_pos hkind] at hdoes
      exact handsOn_of_does rfl hdoes (by decide) (.refl _)
    · next hkind =>
      rw [if_neg hkind] at hdoes
      exact handsOn_of_does rfl hdoes (by decide) (.refl _)

theorem topkRelease_grp (c : StageCtx) (b : SelBlock) (s : State) : (topkRelease c b s).grp = c.grp := by
  unfold topkRelease
  simp only [apply_ite StageOut.grp, ite_self]

theorem topk_handsOn (c : StageCtx) (b : SelBlock) (s : State) : HandsOn c s (if b.release then topkRelease c b s else topkRows c b s) := by
  split
  · refine ⟨?_, (topkRelease_does c b s).mono (by decide)⟩
    rw [topkRelease_grp]
    exact .refl _
  · exact ⟨.refl _, (topkRows_does c b s).mono (by decide)⟩

theorem poolOut_sameWork (c : StageCtx) (d : TableDesc) (g : GatherBlock) (vals : List (Option (Option (List Nat)))) (s : State) :
    SameWork (poolOut c d g vals s).grp c.grp := by
  unfold poolOut
  dsimp only
  split <;> exact .refl _

theorem lookupStage_handsOn (c : StageCtx) (s : State) : ∃ o, lookupStage c s = some o ∧ HandsOn c s o := by
  have hdoes := lookupStage_does c s
  unfold lookupStage at hdoes ⊢
  dsimp only at hdoes ⊢
  split
  · exact ⟨_, rfl, .refl _, .refl s⟩
  · next tc htc =>
    rw [htc] at hdoes
    exact handsOn_of_does rfl hdoes (by decide) (.refl _)

theorem updateStage_handsOn (c : StageCtx) (s : State) : ∃ o, updateStage c s = some o ∧ HandsOn c s o := by
  have hdoes := updateStage_does c s
  unfold updateStage at hdoes ⊢
  dsimp only at hdoes ⊢
  split
  · exact ⟨_, rfl, .refl _, .refl s⟩
  · next tc htc =>
    rw [htc] at hdoes
    exact handsOn_of_does rfl hdoes (by decide) (.refl _)

/-- The bags POOL works on: those of the handle area, of a release of several groups LIG_MAX_ROWS in each. -/
def poolBags (c : StageCtx) (s : State) (lag : Nat) : List (Nat × List (Nat × Nat)) :=
  let g := gatherAt c.plan.image.blob c.st.param
  let all := areaBags s (areaDva c g (c.grp.tick.getD (nowTick s) - lag)) g.handleBytes
  if c.lig.groups = 1 then all else (all.drop (c.grp.num * c.lig.maxRows)).take c.lig.maxRows

/-- POOL answers in a ruled plan, and in a margin one where nothing is missing (R239, R241). -/
theorem poolStage_handsOn {c : StageCtx} {s : State} (h : c.plan.image.ruled = true ∨ ∀ tc, tableCtx s c.slot (gatherAt c.plan.image.blob c.st.param).table = some tc →
      c.lig.groups = 1 ∧ poolWaits (tableOf s c.slot (gatherAt c.plan.image.blob c.st.param).table) (c.core / 96)
        (c.grp.tick.getD (nowTick s) - tc.d.lag) (areaBags s (areaDva c (gatherAt c.plan.image.blob c.st.param)
          (c.grp.tick.getD (nowTick s) - tc.d.lag)) (gatherAt c.plan.image.blob c.st.param).handleBytes) = false) :
    ∃ o, poolStage c s = some o ∧ HandsOn c s o := by
  have hb : ∃ o, poolStage c s = some o ∧ SameWork o.grp c.grp := by
    unfold poolStage
    dsimp only
    split
    · exact ⟨_, rfl, .refl _⟩
    · next tc htc =>
      have hgo : (!c.plan.image.ruled && poolWaits (tableOf s c.slot (gatherAt c.plan.image.blob c.st.param).table) (c.core / 96)
          (c.grp.tick.getD (nowTick s) - tc.d.lag) (poolBags c s tc.d.lag)) = false := by
        rcases h with h | h
        · rw [h]
          rfl
        · obtain ⟨hgroups, hno⟩ := h tc htc
          rw [poolBags, if_pos hgroups, hno, Bool.and_false]
      exact ⟨_, if_neg (Bool.eq_false_iff.1 hgo), poolOut_sameWork ..⟩
  obtain ⟨o, hb, hg⟩ := hb
  exact handsOn_of_does hb (poolStage_does c s) (by decide) hg

/-- POOL_DIRECT answers where every row of its bags can be read (R241, Table 15-4). -/
theorem directStage_handsOn {c : StageCtx} {s : State} (h : ∀ tc es, tableCtx s c.slot (gatherAt c.plan.image.blob c.st.param).table = some tc →
      Bag.entries es ∈ bagsOf c (gatherAt c.plan.image.blob c.st.param) tc.d → ∀ n w a od, (Entry.row n, w) ∈ es →
        rowPlace s tc (some (c.core / 96)) n = .here od a → (translate s a).isSome = true ∧ Machine.reaches s (c.core / 96) od = true) :
    ∃ o, directStage c s = some o ∧ HandsOn c s o := by
  have hdoes := directStage_does c s
  unfold directStage at hdoes ⊢
  dsimp only at hdoes ⊢
  split
  · exact ⟨_, rfl, .refl _, .refl s⟩
  · next tc htc =>
    rw [htc] at hdoes
    dsimp only at hdoes
    split
    · next habsent =>
      obtain ⟨b, hb, hb'⟩ := List.any_eq_true.1 habsent
      cases b with
      | absent => cases hb'
      | blotted f => cases hb'
      | entries es =>
        obtain ⟨⟨e, w⟩, he, he'⟩ := List.any_eq_true.1 hb'
        cases e with
        | skip => cases he'
        | out => cases he'
        | row n =>
          dsimp only at he'
          split at he'
          · next od a hplace =>
            obtain ⟨hpage, hlink⟩ := h tc es htc hb n w a od he hplace
            simp [hlink, Option.isSome_iff_ne_none.1 hpage] at he'
          · cases he'
    · next habsent =>
      rw [if_neg habsent] at hdoes
      exact handsOn_of_does rfl hdoes (by decide) (poolOut_sameWork ..)

/-- The nib a stage works in hangs on the plan and the running tasks only. -/
theorem stageCtx_sameNib {r : StageRef} {s t : State} {c d : StageCtx} (hs : stageCtx r s = some c) (ht : stageCtx r t = some d)
    (hplans : t.plans = s.plans) (hsched : t.sched = s.sched) : d.core * 8 + d.nib = c.core * 8 + c.nib := by
  obtain ⟨hp, hl, -, -, -, ⟨k, hrun⟩, -, -, hnib, -, htask, hcore⟩ := stageCtx_found hs
  obtain ⟨hp', hl', -, -, -, ⟨k', hrun'⟩, -, -, hnib', -, htask', hcore'⟩ := stageCtx_found ht
  have hplan : d.plan = c.plan := by
    rw [plan?, hplans] at hp'
    exact Option.some.inj (hp'.symm.trans hp)
  have hlig : d.lig = c.lig := by
    rw [hplan] at hl'
    exact Option.some.inj (hl'.symm.trans hl)
  have hsame : d.run = c.run := by
    rw [htask', findRunning, hsched] at hrun'
    rw [htask] at hrun
    exact congrArg Prod.snd (Option.some.inj (hrun'.symm.trans hrun))
  rw [hlig] at hnib'
  rw [hcore, hcore', hsame, Option.some.inj (hnib'.symm.trans hnib)]

/-- What POOL notes of its first try stands in the nib it works in. -/
theorem noteTry_nibs {r : StageRef} {s : State} {c : StageCtx} (h : stageCtx r (noteTry r s) = some c) {n : Nat} (hn : n ≠ c.core * 8 + c.nib) :
    nibGroups (noteTry r s) n = nibGroups s n := by
  have hnote := noteTry_does r s
  cases hs : stageCtx r s with
  | none =>
    unfold noteTry
    rw [hs]
  | some d =>
    rw [stageCtx_sameNib hs h (hnote.frame .plans (by decide)) (hnote.frame .sched (by decide))] at hn
    unfold noteTry
    rw [hs]
    dsimp only
    split
    · rfl
    · exact nibGroups_putGroup_other hn _ _

/-- A stage done after the first try was noted is done. -/
theorem stageDone_noteTry {r : StageRef} {s t : State} {c : StageCtx} (hc : stageCtx r (noteTry r s) = some c) (h : stageDone c (noteTry r s) t) :
    stageDone c s t := by
  obtain ⟨hg, hother, hclk, hrul, hplans, hstreams⟩ := h
  have hnote := noteTry_does r s
  exact ⟨hg, fun n hn => (hother n hn).trans (noteTry_nibs hc hn), hclk.trans (hnote.frame .clk (by decide)), hrul.trans (hnote.frame .rul (by decide)),
    hplans.trans (hnote.frame .plans (by decide)), hstreams.trans (hnote.frame .streams (by decide))⟩

theorem shape_does (c : StageCtx) (s : State) (b : ShapeBlock) : Does [.stats] s
    (((b.entries.map (·.ref)).filter (· != 0xffff)).foldl (pinCopy c.plan c.slot c.run) (b.entries.foldl (storeFracs c) s)) :=
  .foldl _ (fun _ _ => pinCopy_does ..) (.foldl _ (fun _ _ => storeFracs_does ..) (.refl _))

/-- The exceedances of the lists a stage presents. -/
theorem selLimits_does {α : Type} (c : StageCtx) (n : α → Nat) (l : List α) (s : State) : Does [.blot, .tests, .mem, .pages, .sched, .cells, .regHeld,
    .hostSigs, .batches] s (l.foldl (fun s o => selLimit c (n o) s) s) := .foldl _ (fun _ _ => selLimit_does ..) (.refl _)

/-- Rows past a declared LIG_MAX_ROWS are reported at the stage that first leaves them (R512). -/
theorem rowsCheck_within {c : StageCtx} {g : Group} (s : State) (h : c.lig.ruled = false ∨ c.lig.maxRows = 0 ∨ g.rows ≤ c.lig.maxRows ∨
    c.k ≠ 0 ∧ c.lig.maxRows < c.grp.rows) : rowsCheck c g s = s := by
  refine if_neg fun hpast => ?_
  simp only [Bool.and_eq_true, bne_iff_ne, decide_eq_true_eq, Bool.or_eq_true, beq_iff_eq] at hpast
  obtain ⟨⟨⟨hruled, hmax⟩, hrows⟩, hfirst⟩ := hpast
  rcases h with h | h | h | ⟨hk, h⟩
  · exact absurd (hruled.symm.trans h) (by decide)
  · exact hmax h
  · omega
  · omega

theorem rowsCheck_past {c : StageCtx} {g : Group} (s : State) (hruled : c.lig.ruled = true) (hmax : c.lig.maxRows ≠ 0)
    (hrows : c.lig.maxRows < g.rows) (hfirst : c.k = 0 ∨ c.grp.rows ≤ c.lig.maxRows) :
    rowsCheck c g s = emitErr ⟨2, 14, coreUid c.core c.st.engine, c.task, g.rows - c.lig.maxRows, c.slot, true, false⟩ s := by
  refine if_pos ?_
  simp only [Bool.and_eq_true, bne_iff_ne, decide_eq_true_eq, Bool.or_eq_true, beq_iff_eq]
  exact ⟨⟨⟨hruled, hmax⟩, hrows⟩, hfirst⟩

/-- A failed check blots the group (R485). -/
theorem endStage_check (c : StageCtx) (o : StageOut) (sub : BitVec 4) : ∃ g ∈ nibGroups (endStage c (some sub) o) (c.core * 8 + c.nib), g.next = c.k + 1 ∧
    (∀ b ∈ g.valid, b = false) ∧ ∀ x ∈ g.cols, ∀ v ∈ x.rows, v.present = false ∧ v.blot = true := by
  refine ⟨_, mem_nibGroups_putGroup _ _ _, rfl, fun b hb => ?_, fun x hx v hv => ?_⟩
  · obtain ⟨_, -, rfl⟩ := List.mem_map.1 hb
    rfl
  · obtain ⟨_, -, rfl⟩ := List.mem_map.1 hx
    obtain ⟨_, -, rfl⟩ := List.mem_map.1 hv
    exact ⟨rfl, rfl⟩

/-- Settles O53: R96 through `stageCtx_found`, each command through its body. -/
theorem stagesEnd : Obligations.StagesEnd := by
  unfold Obligations.StagesEnd
  refine ⟨fun i r e sd op s hi hno => ?_, fun r s c hc => ?_, fun c o h => ?_, fun c o hruled hmax hrows hfirst => ?_, fun c o sub => ?_,
    fun s r c h => stage_ends h (pureStage_handsOn c s (.refl _)), fun s r c h => stage_ends h (pureStage_handsOn c s (.refl _)),
    fun s r c h => stage_ends h (pureStage_handsOn c s (.refl _)), fun s r c h hgo => stage_ends h (joinBuild_handsOn hgo),
    fun s r c h hgo => stage_ends h (joinProbe_handsOn hgo), fun s r c h => stage_ends h (groupPartial_handsOn c s),
    fun s r c h hgo => stage_ends h (groupMerge_handsOn hgo),
    fun s r c h => stage_ends h ⟨_, rfl, .refl _, (shape_does c s _).mono (by decide)⟩, fun s r c h hgo => stage_ends h ?_,
    fun s r c h => stage_ends h (pureStage_handsOn c s (.refl _)), fun s r c h => stage_ends h (pureStage_handsOn c s (.refl _)),
    fun s r c h => stage_ends h ⟨_, rfl, topk_handsOn c _ s⟩, fun s r c h => stage_ends h ⟨_, rfl, .refl _, ?_⟩,
    fun s r c h => stage_ends h ⟨_, rfl, .refl _, (selLimits_does c _ _ s).mono (by decide)⟩, fun s r c par h hgo => stage_ends h ?_,
    fun s r c par h hgo => stage_ends h ?_, fun s r c h => stage_ends h (lookupStage_handsOn c s), fun s r c h hgo => ?_,
    fun s r c h hgo => stage_ends h (directStage_handsOn hgo), fun s r c h => stage_ends h (updateStage_handsOn c s)⟩
  · obtain ⟨pre, body, hexec, hpre⟩ := exec_stageOf hi
    rw [hexec, hpre s hno, stage_idle hno]
  · obtain ⟨hp, hl, hst, hk, hslot, hrun, hgroups, ⟨-, -, -, hnum, hnext⟩, hnib, hbefore, -, -⟩ := stageCtx_found hc
    exact ⟨hp, hl, hst, hk, hslot, hrun, hgroups, hnum, hnext, hnib, hbefore⟩
  · exact congrArg (putGroup _ _) (rowsCheck_within _ h)
  · exact congrArg (putGroup _ _) (rowsCheck_past _ hruled hmax hrows hfirst)
  · exact endStage_check c o sub
  · have hwait : (!earlierDone c s) = false := by rw [hgo]; rfl
    exact ⟨_, if_neg (Bool.eq_false_iff.1 hwait), .refl _,
      .foldl _ (fun _ _ => .next (statsEntry_does ..) (by decide) (.refl _)) (.refl _)⟩
  · exact .foldl _ (fun _ _ => .ite (fun _ => .refl _) (fun _ => .next (emitErr_does ..) (by decide) (.refl _))) (.refl _)
  · obtain ⟨reg, hreg⟩ := Option.ne_none_iff_exists'.1 hgo
    exact ⟨_, congrArg (Option.map _) hreg, .refl _, .next (parityErrs_does ..) (by decide) (.refl _)⟩
  · obtain ⟨reg, hreg⟩ := Option.ne_none_iff_exists'.1 hgo
    exact ⟨_, congrArg (Option.map _) hreg, .refl _, .next (parityErrs_does ..) (by decide)
      (.foldl _ (fun _ _ => .ite (fun _ => .next (selLimit_does ..) (by decide) (.refl _)) (fun _ => .refl _)) (.refl _))⟩
  · obtain ⟨o, hexec, hdone⟩ := stage_ends h (poolStage_handsOn hgo)
    exact ⟨o, hexec, stageDone_noteTry h.1 hdone⟩

end Sys2Proof.Machine
end

section
/-! SUPPORT. What the Scan and Hash stages leave: predicates, hashes, and the tables of joins and groups (O54). -/

namespace Sys2Proof.Machine

/-- A stage that may begin and whose body must wait changes nothing. -/
theorem stage_waits {r : StageRef} {e sd op : Nat} {c : StageCtx} {s : State} {body : StageCtx → State → Option StageOut}
    (h : stageReady r e sd op c s) (hb : body c s = none) : stage r e sd op body s = s := by
  obtain ⟨hc, rfl, rfl, rfl⟩ := h
  unfold stage
  simp only [hc, hb, beq_self_eq_true, Bool.and_self, if_true]

/-! ### Predicates (R153 to R161) -/

/-- A node that is no connective pushes its leaf's truth values. -/
theorem predStep_leaf {c : StageCtx} {s : State} {n : PredNode} (stack : List (List Truth)) (h : n.kind < 16) :
    predStep c s stack n = leafTruth c s n :: stack := by
  unfold predStep
  dsimp only
  split
  iterate 3 omega
  rfl

theorem predEval_leaf {c : StageCtx} {s : State} {p : PredBlock} {n : PredNode} (hp : p.tree = [n]) (h : n.kind < 16) :
    predEval c s p = leafTruth c s n := by
  rw [predEval, hp, List.foldl_cons, predStep_leaf _ h]
  rfl

/-- The truth values of two leaves under a connective of two children. -/
theorem predEval_pair {c : StageCtx} {s : State} {p : PredBlock} {a b n : PredNode} (hp : p.tree = [a, b, n]) (ha : a.kind < 16) (hb : b.kind < 16) :
    predEval c s p = (predStep c s [leafTruth c s b, leafTruth c s a] n).head?.getD [] := by
  rw [predEval, hp, List.foldl_cons, List.foldl_cons, predStep_leaf _ ha, predStep_leaf _ hb]
  rfl

/-- Two lists of the rows' values read row by row. -/
theorem map_range_pair {α β : Type} (f : List α → β) (d : α) (n : Nat) (x y : List α) (hx : x.length = n) (hy : y.length = n) :
    ((List.range n).map fun i => f ([x, y].map fun l => (l[i]?).getD d)) = (x.zip y).map fun e => f [e.1, e.2] := by
  refine List.ext_getElem (by simp [hx, hy]) fun i h₁ h₂ => ?_
  have hi : i < n := by simpa using h₁
  simp [hx, hy, hi]

theorem predStep_and {c : StageCtx} {s : State} {x y : List Truth} {n : PredNode} (hn : n.children = 2) (hk : n.kind = 0x10)
    (hx : x.length = c.grp.rows) (hy : y.length = c.grp.rows) :
    predStep c s [y, x] n = [(x.zip y).map fun e => (e.1.1 && e.2.1, (e.1.2 || e.2.2) && (e.1.1 || e.1.2) && (e.2.1 || e.2.2))] := by
  have hall := map_range_pair tAnd tFalse c.grp.rows x y hx hy
  unfold predStep
  rw [hk, hn]
  refine congrArg (fun l => [l]) (hall.trans (List.map_congr_left fun e _ => ?_))
  simp [tAnd, Bool.and_assoc]

theorem predStep_or {c : StageCtx} {s : State} {x y : List Truth} {n : PredNode} (hn : n.children = 2) (hk : n.kind = 0x11)
    (hx : x.length = c.grp.rows) (hy : y.length = c.grp.rows) :
    predStep c s [y, x] n = [(x.zip y).map fun e => (e.1.1 || e.2.1, (e.1.2 || e.2.2) && !(e.1.1 || e.2.1))] := by
  have hall := map_range_pair tOr tFalse c.grp.rows x y hx hy
  unfold predStep
  rw [hk, hn]
  refine congrArg (fun l => [l]) (hall.trans (List.map_congr_left fun e _ => ?_))
  simp [tOr]

/-- The rows FILTER_COMPACT keeps are those TRUE, and under PRD_KEEP_UNKNOWN those UNKNOWN. -/
theorem keptRows_eq (keep : Bool) (ts : List Truth) :
    keptRows keep ts = (List.range ts.length).filter fun i => (ts[i]?).any fun t => t.1 || (keep && t.2) := by
  refine List.filter_congr fun i _ => ?_
  cases ts[i]? <;> rfl

/-! ### HASH (R162 to R168) -/

theorem keyVals_eq (c : StageCtx) (cols : List Nat) (i : Nat) : keyVals (cols.map c.col) i = cols.map fun y => (c.col y, rowOf c y i) := by
  rw [keyVals, List.map_map]
  rfl

theorem keyAbsent_iff (c : StageCtx) (cols : List Nat) (i : Nat) :
    keyAbsent (keyVals (cols.map c.col) i) = true ↔ ∃ y ∈ cols, (rowOf c y i).present = false := by
  simp [keyVals_eq, keyAbsent]

theorem keyBlot_iff (c : StageCtx) (cols : List Nat) (i : Nat) :
    keyBlot (keyVals (cols.map c.col) i) = true ↔ ∃ y ∈ cols, (rowOf c y i).blot = true := by
  simp [keyVals_eq, keyBlot]

theorem hashColumn_row (h : HashBlock) (table : Nat × List Nat) (cols : List Column) {rows i : Nat} (hi : i < rows) :
    (hashColumn h table cols rows).rows[i]? = some (if keyAbsent (keyVals cols i) then ⟨false, keyBlot (keyVals cols i), [], []⟩
      else { Val.one (hashRow h table (keyVals cols i)) with blot := keyBlot (keyVals cols i) }) := by
  simp [hashColumn, hi]

/-- Function 2 is XXH64; the split keeps the kernel from evaluating it. -/
theorem hashOf_xxh {f : Nat} (hf : f = 2) (out seed : Nat) (bs : Bytes) : hashOf f out seed bs = xxh64 seed bs := by
  unfold hashOf
  split
  case h_2 => exact Eq.refl _
  case h_5 => exact absurd hf ‹f = 2 → False›
  all_goals omega

theorem hashRow_unreduced {h : HashBlock} (hr : h.reduce = 0) (table : Nat × List Nat) (kv : List (Column × Val)) :
    hashRow h table kv = hashOf h.func h.out h.seed (keyBytes h.canon kv) := by
  unfold hashRow
  split
  · omega
  · omega
  · dsimp only
    rw [if_neg (by omega), if_neg (by omega)]

theorem hashRow_modulo {h : HashBlock} (hr : h.reduce = 2) (table : Nat × List Nat) (kv : List (Column × Val)) :
    hashRow h table kv = hashOf h.func h.out h.seed (keyBytes h.canon kv) % bucketCount h.n := by
  unfold hashRow
  split
  · omega
  · omega
  · dsimp only
    rw [if_neg (by omega), if_pos (by omega)]

theorem hashRow_crc {h : HashBlock} (hf : h.func = 1) (hr : h.reduce = 0) (table : Nat × List Nat) (kv : List (Column × Val)) :
    hashRow h table kv = crc32c (keyBytes h.canon kv) := by
  rw [hashRow_unreduced hr, hf]
  rfl

theorem hashRow_xxh {h : HashBlock} (hf : h.func = 2) (hr : h.reduce = 2) (table : Nat × List Nat) (kv : List (Column × Val)) :
    hashRow h table kv = xxh64 h.seed (keyBytes h.canon kv) % bucketCount h.n := by
  rw [hashRow_modulo hr, hashOf_xxh hf]

/-! ### The table of a join or group operation -/

theorem look_setJoin_other {slot table : Nat} {k : Nat × Nat} (h : k ≠ (slot, table)) (j : Join) (s : State) :
    look k (setJoin slot table j s).joins = look k s.joins := look_put_other _ _ _ _ h

theorem tableLimits_joins (c : StageCtx) (jb : JoinBlock) (most spill : Nat) (j : Join) (s : State) :
    (tableLimits c jb most spill j s).2.joins = s.joins := (tableLimits_does c jb most spill j s).frame .joins (by decide)

/-- Outgrowing a table marks it full and changes nothing else of it (R173). -/
theorem tableLimits_fst (c : StageCtx) (jb : JoinBlock) (most spill : Nat) (j : Join) (s : State) : (tableLimits c jb most spill j s).1 =
    if spill ≤ sizeOf' c.plan 4 jb.spill + sizeOf' c.plan 5 jb.hbm || j.full then j else { j with full := true } := by
  unfold tableLimits
  exact apply_ite Prod.fst _ _ _

theorem tableLimits_keeps (c : StageCtx) (jb : JoinBlock) (most spill : Nat) (j : Join) (s : State) :
    (tableLimits c jb most spill j s).1 = { j with full := (tableLimits c jb most spill j s).1.full } := by
  rw [tableLimits_fst]
  split <;> rfl

theorem keyWidth_joins (c : StageCtx) (field : Nat) (rows : List Nat) (s : State) : (keyWidth c field rows s).joins = s.joins :=
  (keyWidth_does c field rows s).frame .joins (by decide)

theorem sumReports_joins (c : StageCtx) (jb : JoinBlock) (old new : List AggGroup) (s : State) : (sumReports c jb old new s).joins = s.joins :=
  (sumReports_does c jb old new s).frame .joins (by decide)

/-- A ligature's last group on a table completes its release there (R172). -/
theorem countGroup_done {c : StageCtx} {j : Join} (h : groupsTaken c j = c.lig.groups) : c.ligIx ∈ (countGroup c j).done := by
  unfold countGroup
  dsimp only
  rw [if_pos h]
  split
  · next hc => simpa using hc
  · exact List.mem_cons_self

/-- The groups taken hang on the list of releases only. -/
theorem groupsTaken_congr (c : StageCtx) {j k : Join} (h : j.taken = k.taken) : groupsTaken c j = groupsTaken c k := by
  rw [groupsTaken, groupsTaken, h]

/-! ### JOIN_BUILD (R170 to R172) -/

theorem insertBy_perm {α : Type} (lt : α → α → Bool) (x : α) (l : List α) : (insertBy lt x l).Perm (x :: l) := by
  induction l with
  | nil => exact .refl _
  | cons y ys ih =>
    unfold insertBy
    split
    · exact .refl _
    · exact (ih.cons y).trans (.swap ..)

/-- Rows inserted in row order stay in row order. -/
theorem insertBy_row_pairwise {l : List JoinRow} (x : JoinRow) (h : l.Pairwise fun a b => a.row ≤ b.row) :
    (insertBy (fun a b => a.row < b.row) x l).Pairwise fun a b => a.row ≤ b.row := by
  induction l with
  | nil => exact List.pairwise_singleton _ _
  | cons y ys ih =>
    obtain ⟨hy, hys⟩ := List.pairwise_cons.1 h
    unfold insertBy
    split
    · next hlt =>
      have hxy : x.row < y.row := of_decide_eq_true hlt
      refine List.pairwise_cons.2 ⟨fun b hb => ?_, h⟩
      rcases List.mem_cons.1 hb with rfl | hb
      · exact hxy.le
      · exact hxy.le.trans (hy b hb)
    · next hlt =>
      refine List.pairwise_cons.2 ⟨fun b hb => ?_, ih hys⟩
      rcases List.mem_cons.1 ((insertBy_perm _ x ys).mem_iff.1 hb) with rfl | hb
      · exact Nat.le_of_not_lt fun hn => hlt (decide_eq_true hn)
      · exact hy b hb

theorem insertRows_pairwise (rows new : List JoinRow) (h : rows.Pairwise fun a b => a.row ≤ b.row) :
    (insertRows rows new).Pairwise fun a b => a.row ≤ b.row := by
  induction new generalizing rows with
  | nil => exact h
  | cons x new ih => exact ih _ (insertBy_row_pairwise x h)

theorem insertRows_perm (rows new : List JoinRow) : (insertRows rows new).Perm (rows ++ new) := by
  induction new generalizing rows with
  | nil => rw [List.append_nil]; exact .refl _
  | cons x new ih =>
    exact (ih _).trans (((insertBy_perm _ x rows).append_right new).trans List.perm_middle.symm)

/-- The table a builder inserts into: empty where its release is new (R172). -/
def builtOn (c : StageCtx) (j : Join) : Join := if newRelease c j then { j with rows := [], done := [], taken := [], full := false } else j

/-- The table JOIN_BUILD leaves. -/
def builtTable (c : StageCtx) (jb : JoinBlock) (j : Join) : Join :=
  countGroup c { builtOn c j with rows := insertRows (builtOn c j).rows (buildRows c jb).1, payload := max (builtOn c j).payload (payloadWidth (payloadColumns c jb)) }

theorem builtTable_rows (c : StageCtx) (jb : JoinBlock) (j : Join) :
    (builtTable c jb j).rows = insertRows (if newRelease c j then [] else j.rows) (buildRows c jb).1 := by
  unfold builtTable countGroup builtOn
  split <;> rfl

theorem builtTable_done {c : StageCtx} {jb : JoinBlock} {j : Join}
    (h : groupsTaken c { j with taken := if newRelease c j then [] else j.taken } = c.lig.groups) : c.ligIx ∈ (builtTable c jb j).done := by
  refine countGroup_done ((groupsTaken_congr c ?_).trans h)
  unfold builtOn
  split <;> rfl

/-- JOIN_BUILD's answer, where it need not wait: the table built, and no other table touched. -/
theorem joinBuild_builds {c : StageCtx} {s : State} {jb : JoinBlock} (hjb : jb = joinAt c.plan.image.blob c.st.param)
    (h : newRelease c (joinOf s c.slot jb.table) = false ∨ probing s c jb.table = false) :
    ∃ u, joinBuild c s = some ⟨c.grp, [], u⟩ ∧ (∃ full, joinOf u c.slot jb.table = { builtTable c jb (joinOf s c.slot jb.table) with full := full }) ∧
      ∀ k, k ≠ (c.slot, jb.table) → look k u.joins = look k s.joins := by
  subst hjb
  refine ⟨_, if_neg (Bool.eq_false_iff.1 (Bool.and_eq_false_iff.2 h)), ⟨_, (joinOf_setJoin_same ..).trans (tableLimits_keeps ..)⟩, fun k hk => ?_⟩
  rw [look_setJoin_other hk, tableLimits_joins, keyWidth_joins]

theorem joinBuild_waits {c : StageCtx} {s : State} (h : newRelease c (joinOf s c.slot (joinAt c.plan.image.blob c.st.param).table) = true)
    (hp : probing s c (joinAt c.plan.image.blob c.st.param).table = true) : joinBuild c s = none := if_pos (Bool.and_eq_true_iff.2 ⟨h, hp⟩)

/-! ### JOIN_PROBE (R174 to R176) -/

theorem foldl_add_eq_sum {α : Type} (f : α → Nat) (l : List α) (a : Nat) : l.foldl (fun a x => a + f x) a = a + (l.map f).sum := by
  induction l generalizing a with
  | nil => rfl
  | cons x l ih => rw [List.foldl_cons, ih, List.map_cons, List.sum_cons, Nat.add_assoc]

/-- The records written are those of whole probe rows from the first on, and find room (R176). -/
theorem takeRecords_whole (room : Nat) (rows : List (List Bytes)) : (takeRecords room rows).2 ≤ rows.length ∧
    (takeRecords room rows).1 = (rows.take (takeRecords room rows).2).flatMap id ∧ ((takeRecords room rows).1.flatMap id).length ≤ room := by
  induction rows generalizing room with
  | nil => simp [takeRecords]
  | cons x rows ih =>
    unfold takeRecords
    dsimp only
    split
    · next hroom =>
      obtain ⟨hlen, hrecs, hfit⟩ := ih (room - x.foldl (fun a b => a + b.length) 0)
      have hsize : (x.flatMap id).length = x.foldl (fun a b => a + b.length) 0 := by
        rw [foldl_add_eq_sum, List.length_flatMap, Nat.zero_add]
        rfl
      refine ⟨Nat.succ_le_succ hlen, ?_, ?_⟩
      · rw [List.take_succ_cons, List.flatMap_cons, ← hrecs]
        rfl
      · rw [List.flatMap_append, List.length_append, hsize]
        omega
    · exact ⟨Nat.zero_le _, rfl, Nat.zero_le _⟩

theorem joinProbe_waits {c : StageCtx} {s : State} (h : probeReady s c (joinAt c.plan.image.blob c.st.param).table
    (joinOf s c.slot (joinAt c.plan.image.blob c.st.param).table) = false) : joinProbe c s = none := if_pos (by rw [h]; rfl)

theorem joinProbe_full {c : StageCtx} {s : State} (h : probeReady s c (joinAt c.plan.image.blob c.st.param).table
    (joinOf s c.slot (joinAt c.plan.image.blob c.st.param).table) = true)
    (hfull : (joinOf s c.slot (joinAt c.plan.image.blob c.st.param).table).full = true) : joinProbe c s = some ⟨c.grp, [], s⟩ :=
  (if_neg (by simp [h])).trans (if_pos hfull)

/-- What the probe rows of a group find. -/
def probesOf (c : StageCtx) (jb : JoinBlock) (j : Join) : List Probe :=
  (List.range c.grp.rows).map (probeRow ((joinKeys c.plan.image.blob jb).map c.col) j)

/-- JOIN_PROBE of a semi or anti join. -/
theorem joinProbe_truth {c : StageCtx} {s : State} {jb : JoinBlock} (hjb : jb = joinAt c.plan.image.blob c.st.param)
    (h : probeReady s c jb.table (joinOf s c.slot jb.table) = true) (hfull : (joinOf s c.slot jb.table).full = false) (hk : jb.kind = 2 ∨ jb.kind = 3) :
    ∃ u, joinProbe c s = some ⟨c.grp, bitmapPair ((probesOf c jb (joinOf s c.slot jb.table)).map (semiTruth (jb.kind == 3))), u⟩ := by
  subst hjb
  exact ⟨_, ((if_neg (by simp [h])).trans (if_neg (by simp [hfull]))).trans (if_pos hk)⟩

/-- JOIN_PROBE of an inner or outer join: the records of the first probe rows, as many as fit. -/
theorem joinProbe_records {c : StageCtx} {s : State} {jb : JoinBlock} (hjb : jb = joinAt c.plan.image.blob c.st.param)
    (h : probeReady s c jb.table (joinOf s c.slot jb.table) = true) (hfull : (joinOf s c.slot jb.table).full = false) (hk : ¬ (jb.kind = 2 ∨ jb.kind = 3)) :
    ∃ u t, joinProbe c s = some ⟨c.grp, le 4 (List.length t.1) ++ le 4 t.2 ++ zeros 8 ++ t.1.flatMap id, u⟩ ∧
      t = takeRecords (c.st.outLen - 16) (((probesOf c jb (joinOf s c.slot jb.table)).zip (List.range c.grp.rows)).map fun e =>
        probeRecords jb.kind (joinOf s c.slot jb.table).payload e.2 e.1) := by
  subst hjb
  exact ⟨_, _, ((if_neg (by simp [h])).trans (if_neg (by simp [hfull]))).trans (if_neg hk), rfl⟩

/-! ### GROUP_PARTIAL and GROUP_MERGE (R177 to R180) -/

/-- The table a source's group goes into: emptied where the release is new (R177). -/
def partialOn (c : StageCtx) (j : Join) : Join :=
  if newRelease c j then { j with partials := [], excluded := [], inputs := [], taken := [], done := [], full := false } else j

/-- The rows of a group a source takes in: those whose key is neither blotted nor too wide. -/
theorem partial_rows (jb : JoinBlock) (keys : List Column) (n : Nat) : ((List.range n).filter fun i =>
      !((List.range n).filter fun i => keyBlot (keyVals keys i)).contains i && !((List.range n).filter fun i => !keyBlot (keyVals keys i) &&
        decide (64 < (groupHashKey jb (groupKey (keyVals keys i))).length)).contains i) =
    (List.range n).filter fun i => !keyBlot (keyVals keys i) && !(!keyBlot (keyVals keys i) && decide (64 < (groupHashKey jb (groupKey (keyVals keys i))).length)) := by
  refine List.filter_congr fun i hi => ?_
  have hmem : ∀ p : Nat → Bool, ((List.range n).filter p).contains i = p i := fun p => by
    rw [Bool.eq_iff_iff, List.contains_iff_mem, List.mem_filter]
    exact and_iff_right hi
  rw [hmem, hmem]

/-- GROUP_PARTIAL's answer: its source's list folded anew, the excluded rows counted, the group counted. -/
theorem groupPartial_folds (c : StageCtx) (s : State) {jb : JoinBlock} {j : Join} {keys : List Column} {aggs : List (Nat × Column)}
    (hjb : jb = joinAt c.plan.image.blob c.st.param) (hj : j = partialOn c (joinOf s c.slot jb.table))
    (hkeys : keys = (joinKeys c.plan.image.blob jb).map c.col) (haggs : aggs = aggColumns c jb) :
    ∃ t, groupPartial c s = some ⟨c.grp, [], t⟩ ∧
      look (sourceKey c) (joinOf t c.slot jb.table).partials = some (partialList (aggs.map fun e => (e.1, e.2.fmt))
        ((c.grp.num, partRows keys aggs ((List.range c.grp.rows).filter fun i => !keyBlot (keyVals keys i) &&
            !(!keyBlot (keyVals keys i) && decide (64 < (groupHashKey jb (groupKey (keyVals keys i))).length)))) ::
          (if groupsTaken c j = 1 then [] else (look (sourceKey c) j.inputs).getD []))) ∧
      (∀ k, k ≠ sourceKey c → look k (joinOf t c.slot jb.table).partials = look k j.partials) ∧
      look (sourceKey c) (joinOf t c.slot jb.table).excluded = some ((if groupsTaken c j = 1 then 0 else (look (sourceKey c) j.excluded).getD 0) +
        ((List.range c.grp.rows).filter fun i => keyBlot (keyVals keys i)).length) ∧
      (groupsTaken c j = c.lig.groups → c.ligIx ∈ (joinOf t c.slot jb.table).done) := by
  subst hjb hkeys haggs
  refine ⟨_, rfl, ?_, fun k hk => ?_, ?_, fun hlast => ?_⟩
  · rw [joinOf_setJoin_same, tableLimits_keeps, ← partial_rows]
    subst hj
    exact look_put_same ..
  · rw [joinOf_setJoin_same, tableLimits_keeps]
    subst hj
    exact look_put_other _ _ _ _ hk
  · rw [joinOf_setJoin_same, tableLimits_keeps]
    subst hj
    exact look_put_same ..
  · rw [joinOf_setJoin_same, tableLimits_keeps]
    subst hj
    exact countGroup_done ((groupsTaken_congr c rfl).trans hlast)

/-- One entry merged into the groups so far (R178). -/
def mergeInto (codes : List (Nat × Nat)) (l : List AggGroup) (g : AggGroup) : List AggGroup :=
  if l.any fun x => x.key == g.key then
    l.map fun x => if x.key == g.key then { x with aggs := ((x.aggs.zip g.aggs).zip codes).map fun e => aggMerge e.2.1 e.2.2 e.1.1 e.1.2 } else x
  else l ++ [g]

/-- The keys after an entry is merged: those before, and its own where it is new. -/
theorem mergeInto_keys (codes : List (Nat × Nat)) (l : List AggGroup) (g : AggGroup) : (mergeInto codes l g).map (·.key) =
    if (l.map (·.key)).contains g.key then l.map (·.key) else l.map (·.key) ++ [g.key] := by
  have hany : (l.any fun x => x.key == g.key) = (l.map (·.key)).contains g.key := by
    rw [Bool.eq_iff_iff]
    simp
  unfold mergeInto
  rw [hany]
  split
  · rw [List.map_map]
    refine List.map_congr_left fun x _ => ?_
    simp only [Function.comp_apply]
    split <;> rfl
  · rw [List.map_append]
    rfl

/-- The groups of merged entries: one to a key, each with a key of the entries. -/
theorem mergeFold_keys (codes : List (Nat × Nat)) (p : Bytes → Prop) (es : List AggGroup) (hes : ∀ g ∈ es, p g.key) (l : List AggGroup)
    (hl : ∀ k ∈ l.map (·.key), p k) (hd : (l.map (·.key)).Nodup) :
    (∀ k ∈ (es.foldl (mergeInto codes) l).map (·.key), p k) ∧ ((es.foldl (mergeInto codes) l).map (·.key)).Nodup := by
  induction es generalizing l with
  | nil => exact ⟨hl, hd⟩
  | cons g es ih =>
    have hg : p g.key := hes g List.mem_cons_self
    refine ih (fun x hx => hes x (List.mem_cons_of_mem _ hx)) _ ?_ ?_
    · rw [mergeInto_keys]
      split
      · exact hl
      · exact fun k hk => (List.mem_append.1 hk).elim (hl k) fun hk => List.mem_singleton.1 hk ▸ hg
    · rw [mergeInto_keys]
      split
      · exact hd
      · next hnew =>
        refine List.nodup_append.2 ⟨hd, List.nodup_singleton _, fun k hk k' hk' he => hnew ?_⟩
        rw [← List.mem_singleton.1 hk', ← he]
        simpa using hk

theorem mergeGroups_keys (jb : JoinBlock) (codes : List (Nat × Nat)) (part : Nat) (lists : List (Nat × List AggGroup)) :
    (∀ g ∈ mergeGroups jb codes part lists, partitionOf jb (groupHashKey jb g.key) = part) ∧
      ((mergeGroups jb codes part lists).map fun (g : AggGroup) => g.key).Nodup := by
  obtain ⟨hpart, hnodup⟩ := mergeFold_keys codes (fun k => partitionOf jb (groupHashKey jb k) = part)
    (((sortBy (fun a b => a.1 < b.1) lists).flatMap (·.2)).filter fun g => partitionOf jb (groupHashKey jb g.key) == part)
    (fun g hg => by simpa using (List.mem_filter.1 hg).2) [] (by simp) (by simp)
  exact ⟨fun g hg => hpart _ (List.mem_map_of_mem hg), hnodup⟩

theorem groupMerge_waits {c : StageCtx} {s : State} (h : tableSealed c.plan 4 (joinAt c.plan.image.blob c.st.param).table
    (joinOf s c.slot (joinAt c.plan.image.blob c.st.param).table) = false) : groupMerge c s = none := if_pos (by rw [h]; rfl)

theorem groupMerge_full {c : StageCtx} {s : State} (h : tableSealed c.plan 4 (joinAt c.plan.image.blob c.st.param).table
    (joinOf s c.slot (joinAt c.plan.image.blob c.st.param).table) = true)
    (hfull : (joinOf s c.slot (joinAt c.plan.image.blob c.st.param).table).full = true) : groupMerge c s = some ⟨c.grp, [], s⟩ :=
  (if_neg (by simp [h])).trans (if_pos hfull)

/-- GROUP_MERGE's answer for a table that is sealed and not full: the partition's groups where the partitions fit, else a full table. -/
theorem groupMerge_merges {c : StageCtx} {s : State} {jb : JoinBlock} {codes : List (Nat × Nat)} {part spill : Nat} (hjb : jb = joinAt c.plan.image.blob c.st.param)
    (h : tableSealed c.plan 4 jb.table (joinOf s c.slot jb.table) = true) (hfull : (joinOf s c.slot jb.table).full = false)
    (hcodes : codes = ((joinItems c.plan.image.blob jb).map (·.2)).zip (joinOf s c.slot jb.table).aggTypes)
    (hpart : part = ((ownerCores c.plan jb).takeWhile (· != c.core)).length)
    (hspill : spill = ((List.range jb.ownerCount).map fun i => pastPad jb (groupTable jb (mergeGroups jb codes i (joinOf s c.slot jb.table).partials))).sum) :
    ∃ u, joinOf u c.slot jb.table = { joinOf s c.slot jb.table with full := decide (sizeOf' c.plan 4 jb.spill + sizeOf' c.plan 5 jb.hbm < spill) } ∧
      (∀ k, k ≠ (c.slot, jb.table) → look k u.joins = look k s.joins) ∧
      groupMerge c s = (if sizeOf' c.plan 4 jb.spill + sizeOf' c.plan 5 jb.hbm < spill then some ⟨c.grp, [], u⟩ else some ⟨c.grp,
        le 4 (mergeGroups jb codes part (joinOf s c.slot jb.table).partials).length ++
        le 4 (if part = 0 then ((joinOf s c.slot jb.table).excluded.map (·.2)).sum else 0) ++ zeros 8 ++
        (mergeGroups jb codes part (joinOf s c.slot jb.table).partials).flatMap (groupRecord
          ((joinOf s c.slot jb.table).keyTypes.map fun x => (⟨x.1, x.2.1, x.2.2, []⟩ : Column)) codes), u⟩) := by
  subst hjb hcodes hpart
  have hfold : (List.range (joinAt c.plan.image.blob c.st.param).ownerCount).foldl (fun a i => a + pastPad (joinAt c.plan.image.blob c.st.param)
      (groupTable (joinAt c.plan.image.blob c.st.param) (mergeGroups (joinAt c.plan.image.blob c.st.param)
        (((joinItems c.plan.image.blob (joinAt c.plan.image.blob c.st.param)).map (·.2)).zip
          (joinOf s c.slot (joinAt c.plan.image.blob c.st.param).table).aggTypes) i (joinOf s c.slot (joinAt c.plan.image.blob c.st.param).table).partials))) 0 = spill := by
    rw [foldl_add_eq_sum, Nat.zero_add, hspill]
  have hex : ((joinOf s c.slot (joinAt c.plan.image.blob c.st.param).table).excluded.map (·.2)).sum =
      (joinOf s c.slot (joinAt c.plan.image.blob c.st.param).table).excluded.foldl (fun a e => a + e.2) 0 := by
    rw [foldl_add_eq_sum, Nat.zero_add]
  obtain ⟨u, full, hu, hlook, hdec, hmerge⟩ : ∃ u full, joinOf u c.slot (joinAt c.plan.image.blob c.st.param).table =
      { joinOf s c.slot (joinAt c.plan.image.blob c.st.param).table with full := full } ∧
      (∀ k, k ≠ (c.slot, (joinAt c.plan.image.blob c.st.param).table) → look k u.joins = look k s.joins) ∧
      full = decide (sizeOf' c.plan 4 (joinAt c.plan.image.blob c.st.param).spill + sizeOf' c.plan 5 (joinAt c.plan.image.blob c.st.param).hbm < spill) ∧
      groupMerge c s = if full then some ⟨c.grp, [], u⟩ else some ⟨c.grp, _, u⟩ := by
    refine ⟨_, _, (joinOf_setJoin_same ..).trans (tableLimits_keeps ..), fun k hk => ?_, ?_, (if_neg (by simp [h])).trans (if_neg (by simp [hfull]))⟩
    · rw [look_setJoin_other hk, tableLimits_joins, sumReports_joins]
    · rw [tableLimits_fst, hfull, hfold]
      split
      · next hfits => simpa [hfull] using hfits
      · next hpast => simpa [hfull] using hpast
  refine ⟨u, hdec ▸ hu, hlook, hmerge.trans ?_⟩
  rw [hex, hdec]
  simp only [decide_eq_true_eq]

/-! ### The statement -/

/-- Settles O54, stage by stage. -/
theorem relationalStages : Obligations.RelationalStages := by
  unfold Obligations.RelationalStages
  refine ⟨fun s r c p h hp => ?_, fun s c p n hp => ⟨fun hk hcol => ?_, fun hk hcol => ?_, fun hk => ?_, fun hk => ?_⟩,
    fun s c p a b n hp ha hb hn hla hlb => ⟨fun hk => ?_, fun hk => ?_⟩, fun s r c p ts kept h hp hts hkept => ?_, fun s r c hb h he => ?_,
    fun s r c jb h hjb => ⟨fun hnew hprobe => ?_, fun hgo => ?_⟩, fun rows new h => ⟨insertRows_pairwise rows new h, insertRows_perm rows new⟩,
    fun s r c jb h hjb => ⟨fun hno => ?_, fun hgo hfull => ?_, fun hgo hfull => ?_⟩, fun kind n i m => ⟨?_, rfl, rfl⟩,
    fun s r c jb j keys aggs h hjb hj hkeys haggs => ?_,
    fun s r c jb h hjb => ⟨fun hno => ?_, fun hgo hfull => ?_, fun codes keys part gs ex spill hgo hfull hcodes hkeys hpart hgs hex hspill => ?_⟩⟩
  · subst hp
    exact congrArg _ (stage_of_ready h rfl)
  · rw [predEval_leaf hp (by omega), leafTruth]
    simp only [hk, hcol, if_true, List.map_map]
    rfl
  · rw [predEval_leaf hp (by omega), leafTruth]
    simp only [hk, hcol, if_false, List.zip_map', List.map_map]
    rfl
  · rw [predEval_leaf hp (by omega), leafTruth]
    simp only [hk, List.map_map]
    rfl
  · rw [predEval_leaf hp (by omega), leafTruth]
    simp only [hk, List.map_map]
    rfl
  · rw [predEval_pair hp ha hb, predStep_and hn hk hla hlb]
    rfl
  · rw [predEval_pair hp ha hb, predStep_or hn hk hla hlb]
    rfl
  · subst hp hts
    rw [← keptRows_eq] at hkept
    subst hkept
    refine ⟨_, congrArg _ (stage_of_ready h rfl), ?_⟩
    refine ⟨rfl, rfl, List.length_map _, ?_, fun j hj => ?_, rfl, rfl⟩
    · exact (List.length_map _).trans List.length_range
    · refine ⟨_, ((List.getElem?_map ..).trans (congrArg _ (List.getElem?_range hj))).trans rfl, rfl, rfl⟩
  · subst he
    refine ⟨_, _, rfl, congrArg _ (stage_of_ready h rfl), rfl, by simp [hashColumn], fun i hi => ⟨_, hashColumn_row _ _ _ hi, fun habsent => ?_, fun hall => ?_⟩⟩
    · rw [if_pos ((keyAbsent_iff c _ i).2 habsent)]
      exact ⟨rfl, rfl⟩
    · have hpresent : keyAbsent (keyVals ((hashAt c.plan.image.blob c.st.param).cols.map c.col) i) = false := by
        refine Bool.eq_false_iff.2 fun ha => ?_
        obtain ⟨y, hy, hno⟩ := (keyAbsent_iff c _ i).1 ha
        exact absurd ((hall y hy).symm.trans hno) (by decide)
      rw [hpresent]
      refine ⟨rfl, keyBlot_iff c _ i, fun hf hr => ?_, fun hf hr => ?_⟩
      · exact (hashRow_crc hf hr _ _).trans (by rw [keyVals_eq])
      · exact (hashRow_xxh hf hr _ _).trans (by rw [keyVals_eq])
  · subst hjb
    exact congrArg _ (stage_waits h (joinBuild_waits hnew hprobe))
  · obtain ⟨u, hbuild, ⟨full, hu⟩, hother⟩ := joinBuild_builds hjb hgo
    refine ⟨u, congrArg _ (stage_of_ready h hbuild), ?_, fun hlast => ?_, hother⟩
    · rw [hu]
      exact builtTable_rows ..
    · rw [hu]
      exact builtTable_done hlast
  · subst hjb
    exact congrArg _ (stage_waits h (joinProbe_waits hno))
  · subst hjb
    exact congrArg _ (stage_of_ready h (joinProbe_full hgo hfull))
  · by_cases hk : jb.kind = 2 ∨ jb.kind = 3
    · obtain ⟨u, hu⟩ := joinProbe_truth hjb hgo hfull hk
      have hdoes := joinProbe_does c s
      rw [hu] at hdoes
      exact ⟨u, _, rfl, hdoes.frame .joins (by decide), hdoes.frame .nibs (by decide), fun _ => congrArg _ (stage_of_ready h hu),
        fun h2 h3 => absurd hk (by omega)⟩
    · obtain ⟨u, t, hu, ht⟩ := joinProbe_records hjb hgo hfull hk
      have hdoes := joinProbe_does c s
      rw [hu] at hdoes
      refine ⟨u, _, rfl, hdoes.frame .joins (by decide), hdoes.frame .nibs (by decide), fun hk' => absurd hk' hk, fun _ _ => ?_⟩
      obtain ⟨hlen, hrecs, hfit⟩ := takeRecords_whole (c.st.outLen - 16) (((probesOf c jb (joinOf s c.slot jb.table)).zip (List.range c.grp.rows)).map fun e =>
        probeRecords jb.kind (joinOf s c.slot jb.table).payload e.2 e.1)
      rw [← ht] at hlen hrecs hfit
      refine ⟨t.1, t.2, congrArg _ (stage_of_ready h hu), by simpa [probesOf] using hlen, hrecs.trans ?_, hfit⟩
      rw [← List.map_take, List.flatMap_map]
      rfl
  · cases m <;> simp [probeRecords]
  · obtain ⟨t, hpartial, hfacts⟩ := groupPartial_folds c s hjb hj hkeys haggs
    exact ⟨t, congrArg _ (stage_of_ready h hpartial), hfacts⟩
  · subst hjb
    exact congrArg _ (stage_waits h (groupMerge_waits hno))
  · subst hjb
    exact congrArg _ (stage_of_ready h (groupMerge_full hgo hfull))
  · obtain ⟨u, hu, hother, hmerge⟩ := groupMerge_merges hjb hgo hfull hcodes hpart hspill
    obtain ⟨hkeysIn, hnodup⟩ := mergeGroups_keys jb codes part (joinOf s c.slot jb.table).partials
    subst hgs hkeys hex
    refine ⟨hkeysIn, hnodup, u, by rw [hu], hother, fun hfits => ?_, fun hpast => ⟨by rw [hu]; exact decide_eq_true hpast, ?_⟩⟩
    · rw [if_neg (by omega)] at hmerge
      exact congrArg _ (stage_of_ready h hmerge)
    · rw [if_pos hpast] at hmerge
      exact congrArg _ (stage_of_ready h hmerge)

end Sys2Proof.Machine
end

section
/-! SUPPORT. What the Shape and Matrix stages leave (O55). -/

namespace Sys2Proof.Machine

/-! ### SHAPE (R193 to R195, R202) -/

theorem look_setStat_other {slot ref : Nat} {k : Nat × Nat} (h : k ≠ (slot, ref)) (o : StatObj) (s : State) :
    look k (setStat slot ref o s).stats = look k s.stats := look_put_other _ _ _ _ h

/-- Replacing a gathering state without touching its partials leaves every reference's partials. -/
theorem setStat_partials {slot ref : Nat} {o : StatObj} {s : State} (h : o.partials = (statObj s slot ref).partials) (q : Nat) :
    (statObj (setStat slot ref o s) slot q).partials = (statObj s slot q).partials := by
  by_cases hq : q = ref
  · rw [hq, statObj_setStat_same, h]
  · rw [statObj_setStat_other _ _ _ _ _ _ fun he => hq (Prod.mk.inj he).2]

/-- Keeping fractions leaves the partials. -/
theorem storeFracs_partials (c : StageCtx) (s : State) (en : ShapeEntry) (q : Nat) :
    (statObj (storeFracs c s en) c.slot q).partials = (statObj s c.slot q).partials := by
  unfold storeFracs
  split
  · exact setStat_partials (by rfl) q
  · rfl

/-- Pinning a copy leaves the partials. -/
theorem pinCopy_partials (p : Plan) (slot : Nat) (run : Running) (s : State) (ref q : Nat) :
    (statObj (pinCopy p slot run s ref) slot q).partials = (statObj s slot q).partials := setStat_partials (by rfl) q

/-- A reference of the list is pinned to the release. -/
theorem pinCopies_pins (p : Plan) (slot : Nat) (run : Running) (refs : List Nat) (s : State) {q : Nat} (hq : q ∈ refs) :
    ∃ copy, look run.task.id (statObj (refs.foldl (pinCopy p slot run) s) slot q).pins = some (run.started, copy) := by
  induction refs using List.reverseRecOn with
  | nil => cases hq
  | append_singleton refs ref ih =>
    rw [List.foldl_append, List.foldl_cons, List.foldl_nil]
    unfold pinCopy
    by_cases he : q = ref
    · subst he
      rw [statObj_setStat_same]
      exact ⟨_, look_put_same ..⟩
    · rw [statObj_setStat_other _ _ _ _ _ _ fun hk => he (Prod.mk.inj hk).2]
      exact ih ((List.mem_append.1 hq).resolve_right fun hm => he (List.mem_singleton.1 hm))

/-- The state SHAPE leaves. -/
def shapeState (c : StageCtx) (b : ShapeBlock) (s : State) : State :=
  ((b.entries.map (·.ref)).filter (· != 0xffff)).foldl (pinCopy c.plan c.slot c.run) (b.entries.foldl (storeFracs c) s)

theorem shapeState_partials (c : StageCtx) (b : ShapeBlock) (s : State) (q : Nat) :
    (statObj (shapeState c b s) c.slot q).partials = (statObj s c.slot q).partials :=
  List.foldlRecOn _ _ (motive := fun u => (statObj u c.slot q).partials = (statObj s c.slot q).partials)
    (List.foldlRecOn _ _ (motive := fun u => (statObj u c.slot q).partials = (statObj s c.slot q).partials) rfl
      fun u hu en _ => (storeFracs_partials c u en q).trans hu) fun u hu ref _ => (pinCopy_partials _ _ _ u ref q).trans hu

/-- A block that reads no statistics leaves the state as it is. -/
theorem shapeState_idle {c : StageCtx} {b : ShapeBlock} (s : State) (h : ∀ en ∈ b.entries, en.ref = 0xffff ∧ en.kind ≠ 3) : shapeState c b s = s := by
  have hrefs : (b.entries.map (·.ref)).filter (· != 0xffff) = [] := List.filter_eq_nil_iff.2 fun q hq => by
    obtain ⟨en, hen, rfl⟩ := List.mem_map.1 hq
    simp [(h en hen).1]
  unfold shapeState
  rw [hrefs]
  refine List.foldlRecOn b.entries (storeFracs c) (motive := fun u => u = s) rfl fun u hu en hen => ?_
  exact (if_neg fun hk => (h en hen).2 hk.1).trans hu

/-- A row of an output column of SHAPE: absent or blotted as its source, else element by element. -/
theorem shapeColumn_row (c : StageCtx) (s : State) (en : ShapeEntry) {i : Nat} (hi : i < c.grp.rows) : ∃ v, (shapeColumn c s en).1.rows[i]? = some v ∧
    v.present = (rowOf c en.col i).present ∧ v.blot = (rowOf c en.col i).blot ∧
    ((rowOf c en.col i).present = true → (rowOf c en.col i).blot = false → v.elems.map (·.bits) =
      ((List.range (rowOf c en.col i).elems.length).zip (rowOf c en.col i).elems).map fun e => (shapeValue (statView c s en) en (c.col en.col).fmt
        (stippleDraw (c.stipple en.opi) (i * en.lanes + e.1)) e.2.bits).bits) := by
  unfold shapeColumn
  dsimp only
  rw [List.map_map, List.getElem?_map, List.getElem?_range hi]
  refine ⟨_, rfl, ?_⟩
  simp only [Function.comp_apply]
  rw [show (c.col en.col).rows[i]?.getD Val.null = rowOf c en.col i from rfl]
  split
  · next hno =>
    refine ⟨rfl, rfl, fun hp hb => ?_⟩
    simp [hp, hb] at hno
  · next hyes =>
    simp only [Bool.or_eq_true, Bool.not_eq_true', not_or, Bool.not_eq_false, Bool.not_eq_true] at hyes
    obtain ⟨hp, hb⟩ := hyes
    refine ⟨hp.symm, hb.symm, fun _ _ => ?_⟩
    rw [List.map_map, List.map_map]
    rfl

theorem shapeColumn_length (c : StageCtx) (s : State) (en : ShapeEntry) : (shapeColumn c s en).1.rows.length = c.grp.rows := by
  simp [shapeColumn]

/-! ### STATS (R197) -/

/-- STATS of one entry without a sketch: its partial folded on, in place of what it was. -/
theorem statsEntry_folds {c : StageCtx} {b : ShapeBlock} {s : State} {en : ShapeEntry} {p : Partial} (i : Nat) (hsketch : sketchOf s c.plan en.ref = none)
    (hp : p = (((statObj s c.slot en.ref).partials.find? fun x => x.core == c.core && x.epoch == c.grp.epoch && x.col == en.statCol).getD
      (Partial.empty c.core c.grp.epoch en.statCol none))) :
    statsEntry c b s (i, en) = setStat c.slot en.ref { statObj s c.slot en.ref with
      partials := ((statObj s c.slot en.ref).partials.filter fun q => !(q.core == c.core && q.epoch == c.grp.epoch && q.col == en.statCol)) ++
        [((c.col en.col).rows.map fun v => if v.present && !v.blot then some (toFp32 (c.col en.col).fmt v.bits) else none).foldl foldValue p],
      cores := put c.core c.grp.epoch (statObj s c.slot en.ref).cores } s := by
  subst hp
  unfold statsEntry sketchPlace
  simp only [hsketch]

/-! ### SPECTRAL (R351 to R353) -/

theorem fft_length (tw : Nat → Cx) (l : Nat) (xs : List Cx) (h : xs.length = 2 ^ l) : (fft tw l xs).length = 2 ^ l := by
  induction l generalizing tw xs with
  | zero => exact h
  | succ l ih =>
    have hhalf : 2 ^ (l + 1) = 2 ^ l + 2 ^ l := by omega
    have ha := ih (fun k => tw (2 * k)) (xs.take (2 ^ l)) (by rw [List.length_take]; omega)
    have hb := ih (fun k => tw (2 * k)) (xs.drop (2 ^ l)) (by rw [List.length_drop]; omega)
    unfold fft
    simp [ha, hb, hhalf]

theorem magnitudes_length (l : Nat) (window : Bool) (frame : List Nat) : (magnitudes l window frame).length = 2 ^ l / 2 + 1 := by
  unfold magnitudes
  dsimp only
  rw [List.length_map, List.length_take, fft_length _ _ _ (by simp)]
  have : 0 < 2 ^ l := Nat.two_pow_pos l
  omega

/-- A row of SPECTRAL's column. -/
def spectralVal (l : Nat) (window : Bool) (v : Val) : Val :=
  if v.present && !v.blot then ⟨true, false, [], (magnitudes l window (v.elems.map (·.bits))).map Elem.of⟩ else ⟨v.present, v.blot, [], []⟩

theorem spectralVal_spec (l : Nat) (window : Bool) (v : Val) : (spectralVal l window v).present = v.present ∧ (spectralVal l window v).blot = v.blot ∧
    (v.present = true → v.blot = false → (spectralVal l window v).elems.map (·.bits) = magnitudes l window (v.elems.map (·.bits)) ∧
      (spectralVal l window v).elems.length = 2 ^ l / 2 + 1) := by
  unfold spectralVal
  split
  · next hyes =>
    obtain ⟨hp, hb⟩ := Bool.and_eq_true_iff.1 hyes
    refine ⟨hp.symm, by simpa using hb, fun _ _ => ⟨?_, ?_⟩⟩
    · rw [List.map_map]
      exact List.map_id _
    · rw [List.length_map, magnitudes_length]
  · next hno =>
    exact ⟨rfl, rfl, fun hp hb => absurd (by simp [hp, hb]) hno⟩

/-- SPECTRAL's column. -/
def spectralColumn (c : StageCtx) : Column :=
  ⟨1, 0xb, 2 ^ (byteAt (slice c.plan.image.blob c.st.param 4) 2 % 16) / 2 + 1, (c.col (leAt (slice c.plan.image.blob c.st.param 4) 0 2)).rows.map
    (spectralVal (byteAt (slice c.plan.image.blob c.st.param 4) 2 % 16) (bitAt (byteAt (slice c.plan.image.blob c.st.param 4) 2) 4))⟩

theorem spectralHeader (rows : Nat) : shapeHeader rows 0 0 = le 4 rows ++ zeros 60 := by
  rw [shapeHeader, List.append_assoc, List.append_assoc]
  rfl

/-! ### LAYERS (R208 to R216) -/

/-- The row of a stack of one dense layer. -/
theorem runRow_dense (c : StageCtx) {l : Layer} (h : l.kind = 1) (d : LayerData) (input : Bytes) (i : Nat) :
    runRow c [(l, d)] input i = (denseRow l d (c.stipple l.opi) i (elemsOf l.inFmt l.k input), l.outFmt) := by
  unfold runRow
  rw [List.foldl_cons, List.foldl_nil, if_pos h]
  rfl

theorem denseRow_length {l : Layer} {d : LayerData} (h : d.w.length = l.n) (key i : Nat) (row : List Nat) : (denseRow l d key i row).length = l.n := by
  simp [denseRow, h]

/-- A layer reads no more than its inputs of a row that has as many. -/
theorem denseInput_long {l : Layer} {row : List Nat} (h : l.k ≤ row.length) : denseInput l row = row.take l.k := by
  rw [denseInput, Nat.sub_eq_zero_of_le h]
  exact List.append_nil _

theorem denseRow_getElem {l : Layer} {d : LayerData} {n : Nat} {w row : List Nat} (key i : Nat) (hd : d.w.length = l.n) (hk : l.k ≤ row.length)
    (hw : d.w[n]? = some w) : (denseRow l d key i row)[n]? = some (denseOut l d key (i * l.n + n) n (row.take l.k) w) := by
  obtain ⟨hn, rfl⟩ := List.getElem?_eq_some_iff.1 hw
  rw [denseRow, denseInput_long hk, List.getElem?_map, List.getElem?_eq_getElem (by simp [hd, hd ▸ hn]), Option.map_some]
  simp

theorem denseOut_int8 {l : Layer} (hin : l.inFmt = 1) (hout : l.outFmt = 3) (d : LayerData) (key e n : Nat) (row w : List Nat) :
    denseOut l d key e n row w = ofInt 32 ((row.zip w).foldl (fun a e => a + intOf 1 e.1 * intOf 1 e.2) 0) := if_pos ⟨hin, hout⟩

theorem denseOut_plain {l : Layer} {d : LayerData} (hin : l.inFmt ≠ 1) (hs : d.scale = none) (hb : d.bias = none) (key e n : Nat) (row w : List Nat) :
    denseOut l d key e n row w = (convert 0xb l.outFmt l.rnd l.sat (stippleDraw key e) (activate l.act (dotFp l.inFmt l.wFmt row w))).bits := by
  unfold denseOut
  rw [if_neg fun h => hin h.1]
  simp only [hin, hs, hb, if_false]

/-- The rows of a stage of one dense layer. -/
def denseRows (c : StageCtx) (s : State) (b : MatrixBlock) (l : Layer) : List (List Nat × Nat) :=
  (List.range b.rows).map fun i => (denseRow l (layerData s c l) (c.stipple l.opi) i
    (elemsOf l.inFmt l.k (slice (c.inputBytes s) (i * b.inStride) b.inStride)), l.outFmt)

/-- Their column. -/
def denseColumn (c : StageCtx) (s : State) (b : MatrixBlock) (l : Layer) : Column :=
  ⟨1, ((denseRows c s b l).head?.map (·.2)).getD 0, ((denseRows c s b l).head?.map (·.1.length)).getD 0,
    ((denseRows c s b l).zip (List.range b.rows)).map fun e => ⟨true, false, [], e.1.1.map Elem.of⟩⟩

/-- LAYERS of one dense layer as stage 0. -/
theorem exec_layers_dense {s : State} {r : StageRef} {c : StageCtx} {b : MatrixBlock} {l : Layer} (h : stageReady r 5 0 1 c s)
    (hb : b = matrixAt c.plan.image.blob c.st.param) (hl : b.layers = [l]) (hkind : l.kind = 1) (hk : c.k = 0) :
    exec (.layers r) s = .next (endStage c r.check ⟨{ c.grp with cols := [denseColumn c s b l], fields := [] },
      padTo 8 ((denseRows c s b l).flatMap fun x => fit b.outStride (x.1.flatMap (le (typeBytes x.2)))) ++
        rowBitmap ((List.range b.rows).map fun i => (c.grp.valid[i]?).getD false), s⟩) := by
  subst hb
  refine congrArg _ (stage_of_ready h ?_)
  simp only [pureStage, hl, hk, hkind, if_true, List.map_cons, List.map_nil, runRow_dense c hkind]
  rfl

/-- A row of the column, and its bytes. -/
theorem denseColumn_row (c : StageCtx) (s : State) (b : MatrixBlock) (l : Layer) {i : Nat} (hi : i < b.rows) :
    ∃ y, (denseColumn c s b l).rows[i]? = some y ∧
      ((denseRows c s b l).map fun x => x.1.flatMap (le (typeBytes x.2)))[i]? = some ((y.elems.map (·.bits)).flatMap (le (typeBytes l.outFmt))) ∧
      y.elems.map (·.bits) = denseRow l (layerData s c l) (c.stipple l.opi) i
        (elemsOf l.inFmt l.k (slice (c.inputBytes s) (i * b.inStride) b.inStride)) := by
  refine ⟨⟨true, false, [], (denseRow l (layerData s c l) (c.stipple l.opi) i
    (elemsOf l.inFmt l.k (slice (c.inputBytes s) (i * b.inStride) b.inStride))).map Elem.of⟩, ?_, ?_, ?_⟩
  · simp [denseColumn, denseRows, hi]
  · simp [denseRows, hi, List.map_map, Function.comp_def, Elem.of]
  · simp [List.map_map, Function.comp_def, Elem.of]

/-! ### The statement -/

/-- Settles O55, stage by stage. -/
theorem shapeAndMatrixStages : Obligations.ShapeAndMatrixStages := by
  unfold Obligations.ShapeAndMatrixStages
  refine ⟨fun s r c b h hb => ?_, fun v en f d x => ⟨fun hk => if_pos hk, fun hk hf => ?_, fun hk hf => ?_⟩, fun s r c b en p h hgo hb hen hsketch hp => ?_,
    fun s r c h hno => congrArg _ (stage_waits h ?_), fun p => ⟨rfl, fun x hx => if_pos hx⟩, fun s r c h => ?_, fun s r c b l h hb hl hkind hk => ?_,
    fun l d key i row hd => ⟨denseRow_length hd key i row, fun n w hlen hw => ⟨fun hin hout => ?_, fun hin hs hb => ?_⟩⟩⟩
  · subst hb
    refine ⟨_, _, _, shapeState c (shapeAt c.plan.image.blob c.st.param) s, congrArg _ (stage_of_ready h rfl), ?_⟩
    refine ⟨(shape_does c s _).eq_mix, shapeState_idle s, fun en hen href => ⟨shapeState_partials c _ s en.ref, ?_⟩, rfl, ?_, fun j en hen => ?_⟩
    · exact pinCopies_pins _ _ _ _ _ (List.mem_filter.2 ⟨List.mem_map_of_mem hen, by simpa using href⟩)
    · exact (List.length_map _).trans (List.length_map _)
    · refine ⟨(shapeColumn c s en).1, ?_, rfl, rfl, shapeColumn_length c s en, fun i hi => shapeColumn_row c s en hi⟩
      rw [List.map_map, List.getElem?_map, hen]
      rfl
  · rw [shapeValue, if_neg (by omega), hk, hf]
    rfl
  · rw [shapeValue, if_neg (by omega), hk, hf]
    rfl
  · subst hb
    refine ⟨_, congrArg _ (stage_of_ready h (if_neg (by simp [hgo]))), ?_⟩
    rw [hen]
    have hstats := statsEntry_folds (b := shapeAt c.plan.image.blob c.st.param) 0 hsketch hp
    generalize hx : List.foldl foldValue p _ = x at hstats
    have hone : (List.range [en].length).zip [en] = [(0, en)] := rfl
    rw [hone, List.foldl_cons, List.foldl_nil, hstats]
    refine ⟨fun y => ?_, ?_, fun k hk => look_setStat_other hk _ _⟩
    · rw [statObj_setStat_same, List.mem_append, List.mem_filter, List.mem_singleton]
      simp only [Bool.not_eq_true', Bool.and_eq_false_iff, beq_eq_false_iff_ne]
      tauto
    · rw [statObj_setStat_same]
      exact look_put_same ..
  · exact if_pos (by rw [hno]; rfl)
  · refine ⟨_, spectralColumn c, _, ?_, rfl, rfl, rfl, rfl, List.length_map _, fun i v hv => ⟨_, ?_, spectralVal_spec _ _ v⟩⟩
    · rw [← spectralHeader]
      exact congrArg _ (stage_of_ready h rfl)
    · exact (List.getElem?_map ..).trans (congrArg _ hv)
  · refine ⟨_, (denseRows c s b l).map fun x => x.1.flatMap (le (typeBytes x.2)), ?_, ?_, denseColumn c s b l, rfl, fun hrows => ?_, ?_, fun i hi => ?_⟩
    · rw [List.flatMap_map]
      exact exec_layers_dense h hb hl hkind hk
    · simp [denseRows]
    · obtain ⟨n, hn⟩ := Nat.exists_eq_succ_of_ne_zero hrows
      rw [denseColumn, denseRows, hn, List.range_succ_eq_map]
      rfl
    · simp [denseColumn, denseRows]
    · exact denseColumn_row c s b l hi
  · rw [denseRow_getElem key i hd hlen hw, denseOut_int8 hin hout]
  · rw [denseRow_getElem key i hd hlen hw, denseOut_plain hin hs hb]

end Sys2Proof.Machine
end

section
/-! SUPPORT. A device in which POOL may begin on a table that its plan lacks (O56). -/

namespace Sys2Proof.Machine

/-- POOL as the one stage of a margin ligature on core 0 and its nib 0, with a plan that has no reference at all. -/
def barePlan : Plan :=
  { image := { id := 7, seed := 0, length := 4096, marginLevel := 3, ruled := false, exchange := false, dip := false, requests := [],
               ligatures := [{ maxRows := 8, winSize := 256, winBase := 0, groups := 1, core := 0, nibs := 1, level := 3, sigDone := 0xffff,
                               sigWait := 0xffff, ruled := false, stages := [⟨4, 0, 2, 0, 0, 0, 0, 0, 0, 8⟩] }],
               streams := [], refs := [], deps := [], certs := [], layouts := [], loads := [], blob := [], digest := [] }
    state := .active, bound := [], avoid := [], changed := 0, retireBands := 0, resetting := false, padCopies := [], replicas := [],
    imageFrames := [], filterbanks := [], rebind := none }

/-- The ligature's task, running since cycle 0. -/
def bareRun : Running :=
  { task := { id := 0, slot := 0, lig := 0, level := 3, ready := 0, release := 0, deadline := 500, core := 0, ruled := false, overrun := false,
              suspended := none }, engines := 1, started := 0, late := false }

/-- Its group of one row, on which no POOL has been tried. -/
def bareGroup : Group :=
  { slot := 0, lig := 0, started := 0, num := 0, next := 0, rows := 1, source := 0, recs := [0], valid := [true], sampled := false, epoch := 0,
    sample := 0, counter := 0, layout := 0, cols := [], outBytes := 0 }

/-- The device with that plan in slot 0, the task running and the group in its nib. -/
def barePool : State :=
  { State.reset with plans := [(0, barePlan)], sched := [(0, { Cluster.reset with running := [bareRun] })], nibs := [(0, [bareGroup])] }

/-- The POOL stage of that group. -/
def bareRef : StageRef := ⟨0, 0, 0, 0, none⟩

theorem barePool_isSome : (stageCtx bareRef barePool).isSome = true := by decide +kernel

/-- What that stage works with. -/
def bareCtx : StageCtx := (stageCtx bareRef barePool).get barePool_isSome

theorem barePool_ready : stageReady bareRef 4 0 2 bareCtx barePool :=
  ⟨(Option.some_get barePool_isSome).symm, by decide +kernel, by decide +kernel, by decide +kernel⟩

/-- The ticks of first tries that the groups of nib 0 carry. -/
def ticksNoted : Host.Outcome State Fault Refusal → List (Option Nat)
  | .next t => (nibGroups t 0).map (·.tick)
  | _ => []

/-- Refutes O56: on a table that its plan lacks, POOL of a margin plan hands its group on with the tick of its first try, which it notes before
it looks the table up; the statement has it hand the group on as it found it, without one. -/
theorem not_selectMatchAndGatherStages : ¬ Obligations.SelectMatchAndGatherStages := by
  unfold Obligations.SelectMatchAndGatherStages
  intro h
  obtain ⟨-, -, -, -, -, -, -, -, -, hlacking, -⟩ := h
  have hnone : tableCtx barePool bareCtx.slot (gatherAt bareCtx.plan.image.blob bareCtx.st.param).table = none := by
    simp only [tableCtx]
    decide +kernel
  obtain ⟨-, hpool, -, -⟩ := hlacking barePool bareRef bareCtx _ rfl hnone
  have hnoted : ticksNoted (exec (.pool bareRef) barePool) = [some 0] := by decide +kernel
  rw [hpool barePool_ready] at hnoted
  exact absurd hnoted (by decide +kernel)

end Sys2Proof.Machine
end

section
/-! SUPPORT. A ruled ingest stream whose last frame's decode ends its walk and begins the next (O59). -/

namespace Sys2Proof.Machine

/-- A frame job without a byte. -/
def emptyJob : FrameJob := { codec := 0, bytes := [], cap := 0, claim := none, needSum := false }

/-- A ruled ingest stream that owes two walks, of which the first ends once its one frame left is decoded. -/
def rewalking : Stream :=
  { Stream.fresh { streamAt (zeros 128) 0 with kind := 1 } 0 true with
    state := .running, owed := 2, ingest := { Ingest.fresh 0 [] with ended := true, jobs := [emptyJob] } }

/-- The device with that host stream alone. -/
def rewalkingState : State := { State.reset with streams := [((255, 0), rewalking)] }

/-- The stream once its frame is decoded, before its walk is seen to be over. -/
def decodedLast : Stream := { rewalking with ingest := { rewalking.ingest with jobs := [], outs := [.bad badStream] } }

/-- A frame of a format without a window, whose history was lost, hands on a blot and one record. -/
theorem frameDecode_lost {s : State} {r : StreamRef} {x : Stream} {j : FrameJob} {js : List FrameJob} (hx : stream? s (refKey r) = some x)
    (hj : x.ingest.jobs = j :: js) (hc : j.codec = 0) : ∃ e, exec (.frameDecode r true) s = .next (emitErr e
      (shareEnd (refKey r) (setStream (refKey r) { x with ingest := { x.ingest with jobs := js, outs := x.ingest.outs ++ [.bad badStream] } } (drawn s)))) := by
  refine ⟨⟨4, 2, engineOf (streamPlan s (refKey r)) x s, 0, 0, (refKey r).1, x.ruled, true⟩, ?_⟩
  show execFrameDecode r true s = _
  simp [execFrameDecode, hx, hj, hc, frameHead, b2n]

/-- The device at that moment: the frame was its stream's last work. -/
def decodedState : State := setStream (255, 0) decodedLast (drawn rewalkingState)

/-- The walk ends there and the next one begins without any output. -/
theorem shareEnd_decodedState : (stream? (shareEnd (255, 0) decodedState) (255, 0)).map (·.ingest.outs) = some [] := by decide +kernel

/-- Refutes O59: FRAME_DECODE of the last frame of a ruled ingest stream that owes a further walk ends the walk and begins the next one, which
empties the list of outputs; the statement has the frame's output stand at its end. -/
theorem not_ingestAndMedia : ¬ Obligations.IngestAndMedia := by
  unfold Obligations.IngestAndMedia
  intro h
  obtain ⟨-, -, -, -, -, -, -, -, -, -, hdecode, -⟩ := h
  have hx : stream? rewalkingState (refKey ⟨0xff, 0⟩) = some rewalking := rfl
  obtain ⟨t, z, ht, hz, -, houts, -⟩ := hdecode rewalkingState ⟨0xff, 0⟩ true rewalking emptyJob [] hx rfl
  obtain ⟨e, he⟩ := frameDecode_lost hx rfl rfl
  obtain rfl : emitErr e (shareEnd (255, 0) decodedState) = t := Host.Outcome.next.inj (he.symm.trans ht)
  have hkept : stream? (shareEnd (255, 0) decodedState) (255, 0) = some z :=
    (congrArg (look (255, 0)) ((emitErr_does e _).frame .streams (by decide))).symm.trans hz
  have hgone := shareEnd_decodedState
  rw [hkept, Option.map_some, houts] at hgone
  simp at hgone

end Sys2Proof.Machine
end

section
/-! SUPPORT. Compressed blocks verified, batches closed and completed, rows of slice packets placed (O60). -/

namespace Sys2Proof.Machine

/-! ### BLOCK_VERIFY -/

theorem blockVerify_idle {s : State} {r : StreamRef} (b : Bytes) (lost : Bool)
    (h : stream? s (refKey r) = none ∨ ∃ x, stream? s (refKey r) = some x ∧ (x.desc.codec = 0 ∨ x.comp.input = [] ∨ x.state ≠ .running ∨
      mayTransfer s (refKey r) x = false)) : exec (.blockVerify r b lost) s = .next s := by
  show execBlockVerify r b lost s = _
  unfold execBlockVerify
  obtain hx | ⟨x, hx, hidle⟩ := h
  · simp [hx]
  · have hstop : (decide (x.desc.codec = 0) || x.comp.input.isEmpty || x.state != .running || !mayTransfer s (refKey r) x) = true := by
      obtain h | h | h | h := hidle <;> simp [h]
    simp [hx, hstop]

/-- What BLOCK_VERIFY raises: CMP_HISTORY where the history was lost, CMP_VERIFY where the block does not decode to its input. -/
def verifyErr (k : Nat × Nat) (x : Stream) (lost good : Bool) (s : State) : State :=
  if lost then blockErr (engineOf (streamPlan s k) x s) 2 k x.ruled s
  else if good then s else blockErr (engineOf (streamPlan s k) x s) 1 k x.ruled s

/-- The compressor with the first block of its input behind it. -/
def Compressor.blockDone (c : Compressor) (inp : Bytes) : Compressor := { c with total := c.total ++ inp, input := c.input.drop compBlock }

theorem blockVerify_eq {s : State} {r : StreamRef} {x : Stream} {b : Bytes} {lost : Bool} {good : Option Compressor} {c : Compressor}
    (hx : stream? s (refKey r) = some x) (hcodec : x.desc.codec ≠ 0) (hin : x.comp.input ≠ []) (hrun : x.state = .running)
    (hmay : mayTransfer s (refKey r) x = true)
    (hgood : good = if lost then none else verifyBlock x.desc.codec (x.comp.input.take compBlock) b x.comp)
    (hc : c = (good.getD (storedBlocks x.desc.codec (x.comp.input.take compBlock) x.comp)).blockDone (x.comp.input.take compBlock)) :
    exec (.blockVerify r b lost) s = .next (if c.input.isEmpty
      then shareEnd (refKey r) (endSlot (refKey r) x.desc.codec { x with comp := c } (verifyErr (refKey r) x lost good.isSome s))
      else releaseOutput (refKey r) { x with comp := c } (verifyErr (refKey r) x lost good.isSome s)) := by
  show execBlockVerify r b lost s = _
  have hstep : (decide (x.desc.codec = 0) || x.comp.input.isEmpty || x.state != .running || !mayTransfer s (refKey r) x) = false := by
    simp [hcodec, hin, hrun, hmay]
  unfold execBlockVerify
  simp only [hx, hstep]
  subst hc hgood
  unfold verifyErr
  generalize verifyBlock x.desc.codec (x.comp.input.take compBlock) b x.comp = verified
  generalize storedBlocks x.desc.codec (x.comp.input.take compBlock) x.comp = stored
  cases lost with
  | true => rfl
  | false => cases verified <;> rfl

theorem verifyErr_eq (k : Nat × Nat) (x : Stream) (lost : Bool) (good : Option Compressor) (s : State) :
    verifyErr k x lost good.isSome s =
      if lost then emitErr ⟨4, 2, engineOf (streamPlan s k) x s, 0, 0, k.1, x.ruled, true⟩ (drawn s)
      else if good.isNone then emitErr ⟨4, 1, engineOf (streamPlan s k) x s, 0, 0, k.1, x.ruled, true⟩ (drawn s) else s := by
  cases lost <;> cases good <;> rfl

/-! ### BATCH_CLOSE -/

/-- The batches of a layout whose close has come and that are not complete (R337). -/
def closesDue (key : Nat × Nat) (l : Layout) (s : State) : List (Nat × Nat) :=
  (batchOf s key).begun.filter fun e => decide (0 < l.closeLag) && decide (closeTick l e.2 ≤ nowTick s) && !(batchOf s key).completed.contains e.1

theorem closesDue_nil {key : Nat × Nat} {l : Layout} {s : State} (h : l.closeLag = 0 ∨ ∀ e ∈ (batchOf s key).begun,
    nowTick s < e.2 + l.closeLag + 1 ∨ e.1 ∈ (batchOf s key).completed) : closesDue key l s = [] := by
  unfold closesDue
  rw [List.filter_eq_nil_iff]
  intro e he
  obtain hlag | hall := h
  · simp [hlag]
  · obtain h | h := hall e he
    · have hlater : ¬ closeTick l e.2 ≤ nowTick s := by unfold closeTick; omega
      simp [hlater]
    · simp [h]

theorem batchClose_idle {s : State} {slot : BitVec 6} {ly : BitVec 8}
    (h : plan? s slot.toNat = none ∨ ∃ p, plan? s slot.toNat = some p ∧ (p.image.layouts[ly.toNat]? = none ∨
      ∃ d, p.image.layouts[ly.toNat]? = some d ∧ closesDue (slot.toNat, ly.toNat) (layoutAt d) s = [])) :
    exec (.batchClose slot ly) s = .next s := by
  show execBatchClose slot ly s = _
  unfold execBatchClose
  obtain hp | ⟨p, hp, hd | ⟨d, hd, hdue⟩⟩ := h
  · simp [hp]
  · simp [hp, hd]
  · unfold closesDue at hdue
    simp only [hp, hd, Option.map_some, hdue]

theorem openBatch_none {key : Nat × Nat} {l : Layout} {g : Nat} {s : State} (h : look (l.bufferOf g) (batchOf s key).buffers = none) :
    openBatch key l g s = if g < l.buffers + 1 || (batchOf s key).completed.contains (g - (l.buffers + 1))
      then some ⟨g, (look g (batchOf s key).begun).getD (nowTick s), [], false⟩ else none := by
  simp only [openBatch, h]

theorem openBatch_some {key : Nat × Nat} {l : Layout} {g : Nat} {s : State} {x : OpenBatch}
    (h : look (l.bufferOf g) (batchOf s key).buffers = some x) : openBatch key l g s = if x.g = g && !x.ready then some x else none := by
  simp only [openBatch, h]

theorem openBatch_g {key : Nat × Nat} {l : Layout} {g : Nat} {s : State} {b : OpenBatch} (h : openBatch key l g s = some b) : b.g = g := by
  cases hl : look (l.bufferOf g) (batchOf s key).buffers with
  | none =>
    obtain ⟨-, he⟩ := Option.ite_none_right_eq_some.1 (openBatch_none hl ▸ h)
    exact congrArg OpenBatch.g (Option.some.inj he).symm
  | some x =>
    obtain ⟨hx, he⟩ := Option.ite_none_right_eq_some.1 (openBatch_some hl ▸ h)
    simp only [Bool.and_eq_true, decide_eq_true_eq] at hx
    exact Option.some.inj he ▸ hx.1

/-- What a close of batch `g` does: nothing while another batch holds the buffer or while it would write on an ABSENT page, else its missing
slots are reported and it completes. -/
theorem batchClose_due {s u : State} {slot : BitVec 6} {ly : BitVec 8} {p : Plan} {d : RawEntry} {l : Layout} {base g tick : Nat}
    {es : List (Nat × Nat)} {key : Nat × Nat} (hkey : key = (slot.toNat, ly.toNat)) (hp : plan? s slot.toNat = some p)
    (hd : p.image.layouts[ly.toNat]? = some d) (hl : l = layoutAt d) (hbase : sideBase (some p) l.dstKind l.dstAbs 0 = some base)
    (hdue : closesDue key l s = (g, tick) :: es) (hu : u = freeFor (closeDrain p key base l) g 17 s) :
    exec (.batchClose slot ly) s = .next (match openBatch key l g u with
      | none => u
      | some b =>
        if !p.image.ruled && (completionAbsent u base l (slicesOf p.image.blob l) b).isSome then u
        else completeBatch key base l (slicesOf p.image.blob l) b true
          (emitBlot ⟨0x68, slot.toNat, ly.toNat, 0xffff, 0, g, ((List.range (l.filled g)).filter fun i => !slotFull l b i).length⟩ u)) := by
  show execBatchClose slot ly s = _
  subst hkey hl hu
  unfold closesDue at hdue
  unfold execBatchClose
  simp only [hp, hd, Option.map_some, hdue, hbase]
  cases openBatch (slot.toNat, ly.toNat) (layoutAt d) g (freeFor (closeDrain p (slot.toNat, ly.toNat) base (layoutAt d)) g 17 s) with
  | none => rfl
  | some b => exact (apply_ite Host.Outcome.next _ _ _).symm

/-! ### A batch completed -/

/-- Completing a batch: its bytes are written, it is READY in its buffer and complete, and the layout's signal is raised. -/
theorem completeBatch_eq (key : Nat × Nat) (base : Nat) (l : Layout) (slices : List SliceDesc) (b : OpenBatch) (closed : Bool) (s : State) :
    ∃ w : State, Does [.mem, .pages] s w ∧ completeBatch key base l slices b closed s = planAdd key.1 l.sigReady
      (setBatch key { batchOf w key with
        buffers := put (l.bufferOf b.g) { b with ready := true } (batchOf w key).buffers
        completed := (batchOf w key).completed ++ [b.g]
        begun := (batchOf w key).begun.filter (fun y => y.1 != b.g) } w) := by
  refine ⟨_, ?_, rfl⟩
  refine .next (writeHeld_does ..) (by decide) (.next (writeHeld_does ..) (by decide) (.next (writeHeld_does ..) (by decide) ?_))
  refine .foldl _ (fun u a => .ite (fun _ => ?_) fun _ => .refl _) (.refl _)
  exact .foldl _ (fun u a => writeSlice_does ..) (.refl _)

theorem completeBatch_done (key : Nat × Nat) (base : Nat) (l : Layout) (slices : List SliceDesc) (b : OpenBatch) (closed : Bool) (s : State) :
    ∃ v : State, completeBatch key base l slices b closed s = planAdd key.1 l.sigReady v ∧
      (batchOf v key).completed = (batchOf s key).completed ++ [b.g] ∧
      look (l.bufferOf b.g) (batchOf v key).buffers = some { b with ready := true } ∧
      (∀ e ∈ (batchOf v key).begun, e.1 ≠ b.g) ∧ ∀ k, k ≠ key → batchOf v k = batchOf s k := by
  obtain ⟨w, hw, he⟩ := completeBatch_eq key base l slices b closed s
  have hbatch : ∀ k, batchOf w k = batchOf s k := fun k => congrArg (fun bs => (look k bs).getD Batch.empty) (hw.frame .batches (by decide))
  refine ⟨_, he, ?_, ?_, ?_, fun k hk => ?_⟩
  · simp [hbatch]
  · simp
  · simp
  · rw [batchOf_setBatch_other _ _ _ _ hk, hbatch]

/-! ### Rows placed -/

theorem freeFor_of_free {r : RowDrain} {g : Nat} {s : State} (f : Nat) (h : bufferTaken r.key r.l g s = false) : freeFor r g f s = s := by
  cases f with
  | zero => rfl
  | succ f =>
    unfold freeFor
    cases (plan? s r.key.1).bind fun p => boundOf p 8 r.l.sigFree with
    | none => rfl
    | some c => simp [h]

section
variable {r : RowDrain} {c : Nat} {row : Bytes} {valid : Bool} {s u : State} {g slot : Nat} {b : OpenBatch}

theorem placeSliceRow_completed (hp : (g, slot) = r.l.place c) (hdone : g ∈ (batchOf s r.key).completed) :
    placeSliceRow r c row valid s = .done (batchErr r.key r.unit 11 g slot s) := by
  simp [placeSliceRow, ← hp, hdone]

theorem placeSliceRow_held (hp : (g, slot) = r.l.place c) (hdone : g ∉ (batchOf s r.key).completed) (hu : u = freeFor r g 17 s)
    (ho : openBatch r.key r.l g u = none) : placeSliceRow r c row valid s = .held u := by
  subst hu
  simp [placeSliceRow, ← hp, hdone, ho]

theorem placeSliceRow_refused (hp : (g, slot) = r.l.place c) (hdone : g ∉ (batchOf s r.key).completed) (hu : u = freeFor r g 17 s)
    (ho : openBatch r.key r.l g u = some b) (hno : r.l.filled g ≤ slot ∨ ∃ e ∈ b.got, e.1 = slot ∧ e.2.1 = r.slice) :
    placeSliceRow r c row valid s = .done (batchErr r.key r.unit 10 g slot u) := by
  subst hu
  have hno' : (decide (r.l.filled g ≤ slot) || b.got.any fun x => x.1 == slot && x.2.1 == r.slice) = true := by simpa using hno
  simp only [placeSliceRow, ← hp, ho, hno', if_true]
  simp [hdone]

/-- The address and the length of what a row of the drain's slice fills (R333). -/
def RowDrain.rowAt (r : RowDrain) (g slot : Nat) : Nat × Nat :=
  (slotByte r.base r.l g slot ((r.slices[r.slice]?).elim 0 (·.padOff)), (r.slices[r.slice]?).elim 0 (·.padLen))

/-- A row that its open batch takes: written up to the first ABSENT page, entered in the batch, which completes with its last row. -/
theorem placeSliceRow_taken {b' : OpenBatch} (hp : (g, slot) = r.l.place c) (hdone : g ∉ (batchOf s r.key).completed) (hu : u = freeFor r g 17 s)
    (ho : openBatch r.key r.l g u = some b) (hslot : slot < r.l.filled g) (hnew : ∀ e ∈ b.got, ¬ (e.1 = slot ∧ e.2.1 = r.slice))
    (hb' : b' = { b with got := b.got ++ [(slot, r.slice, valid)] }) :
    placeSliceRow r c row valid s =
      match if r.ruled then none else rangeAbsent u (r.rowAt g slot).1 (r.rowAt g slot).2 with
      | some a => .absent a (a - (r.rowAt g slot).1) (writeRow r c g slot a row u)
      | none =>
        let v := writeRow r c g slot noLimit row u
        match if r.ruled || !(List.range (r.l.filled g)).all (slotFull r.l b') then none else completionAbsent v r.base r.l r.slices b' with
        | some a => .absent a (r.rowAt g slot).2 v
        | none =>
          let t := setBatch r.key { batchOf v r.key with buffers := put (r.l.bufferOf g) b' (batchOf v r.key).buffers } v
          .done (if (List.range (r.l.filled g)).all (slotFull r.l b') then completeBatch r.key r.base r.l r.slices b' false t else t) := by
  subst hu hb'
  have htake : (decide (r.l.filled g ≤ slot) || b.got.any fun x => x.1 == slot && x.2.1 == r.slice) = false := by
    simpa [hslot] using hnew
  have hopen : (batchOf s r.key).completed.contains g = false := by simpa using hdone
  simp only [placeSliceRow, ← hp, ho, htake, hopen, Bool.false_eq_true, if_false]
  rfl

end

/-- Settles O60: BLOCK_VERIFY and BATCH_CLOSE by the one equation each has where it does something, a completed batch by what its writes leave
alone, a row of a slice packet by the ways it can end. -/
theorem blocksAndBatches : Obligations.BlocksAndBatches := by
  unfold Obligations.BlocksAndBatches
  refine ⟨fun s r b lost => blockVerify_idle b lost, ?_, fun _ _ => ⟨rfl, rfl⟩, ?_, ?_, completeBatch_done, fun r g f s => freeFor_of_free f, ?_, ?_⟩
  · intro s r b lost x good c c' u hx hcodec hin hrun hmay hgood hc hc' hu
    subst hc
    have he := blockVerify_eq hx hcodec hin hrun hmay hgood hc'
    rw [verifyErr_eq, ← hu] at he
    refine ⟨fun hmore => ?_, fun hlast => ?_⟩
    · rw [he, if_neg (by simpa using hmore)]
    · rw [he, if_pos (by simpa using hlast)]
  · rintro s slot ly (hp | ⟨p, hp, hd | ⟨d, hd, hnone⟩⟩)
    · exact batchClose_idle (.inl hp)
    · exact batchClose_idle (.inr ⟨p, hp, .inl hd⟩)
    · exact batchClose_idle (.inr ⟨p, hp, .inr ⟨d, hd, closesDue_nil hnone⟩⟩)
  · intro s slot ly p d l base g tick es key u hkey hp hd hl hbase hdue hu
    have he := batchClose_due hkey hp hd hl hbase hdue hu
    refine ⟨fun ho => ?_, fun b ho => ⟨openBatch_g ho, fun hmargin habsent => ?_, fun hgo => ?_⟩⟩
    · rw [he, ho]
    · have hwait : (!p.image.ruled && (completionAbsent u base l (slicesOf p.image.blob l) b).isSome) = true := by
        simp [hmargin, Option.isSome_iff_ne_none.2 habsent]
      simp only [he, ho, hwait, if_true]
    · have hnowait : (!p.image.ruled && (completionAbsent u base l (slicesOf p.image.blob l) b).isSome) = false := by
        obtain h | h := hgo <;> simp [h]
      simp only [he, ho, hnowait, Bool.false_eq_true, if_false]
  · intro key l g s
    refine ⟨fun x hx hno => ?_, fun hg hprev hfree => ?_, fun hg hfree => ?_⟩
    · rw [openBatch_some hx, if_neg]
      obtain h | h := hno <;> simp [h]
    · have hlate : ¬ g < l.buffers + 1 := by omega
      rw [openBatch_none hfree, if_neg]
      simp [hlate, hprev]
    · have hearly : g < l.buffers + 1 := by omega
      exact ⟨_, by rw [openBatch_none hfree, if_pos (by simp [hearly])], rfl, rfl, rfl⟩
  · intro r c row valid s u v g slot len a hp hlen ha hu hv
    subst hlen ha hv
    refine ⟨placeSliceRow_completed hp, fun hdone => placeSliceRow_held hp hdone hu, fun b hdone => placeSliceRow_refused hp hdone hu, ?_⟩
    intro b b' t hdone ho hslot hnew hb' ht
    have he := placeSliceRow_taken (row := row) hp hdone hu ho hslot hnew hb'
    refine ⟨fun n hmargin habsent => ?_, fun hgo => ?_⟩
    · have hstop : (if r.ruled then none else rangeAbsent u (r.rowAt g slot).1 (r.rowAt g slot).2) = some n := by simp [hmargin, ← habsent, RowDrain.rowAt]
      rw [he, hstop]
      rfl
    · have hrow : (if r.ruled then none else rangeAbsent u (r.rowAt g slot).1 (r.rowAt g slot).2) = none := by
        obtain h | h := hgo
        · simp [h]
        · simp [RowDrain.rowAt, h]
      rw [hrow] at he
      refine ⟨fun hopen => ?_, fun hfull hdoes => ?_, fun n hfull hmargin habsent => ?_⟩
      · have hpart : (List.range (r.l.filled g)).all (slotFull r.l b') = false := by
          obtain ⟨i, hi, hf⟩ := hopen
          simp only [List.all_eq_false, List.mem_range]
          exact ⟨i, hi, by simp [hf]⟩
        simp only [he, hpart, Bool.not_false, Bool.or_true, if_true, Bool.false_eq_true, if_false, ht]
      · have hwhole : (List.range (r.l.filled g)).all (slotFull r.l b') = true := by simpa using hfull
        have hpass : (if r.ruled || !true then none else completionAbsent (writeRow r c g slot noLimit row u) r.base r.l r.slices b') = none := by
          obtain h | h := hdoes <;> simp [h]
        simp only [he, hwhole, hpass, if_true, ht]
      · have hwhole : (List.range (r.l.filled g)).all (slotFull r.l b') = true := by simpa using hfull
        simp only [he, hwhole, hmargin, Bool.not_true, Bool.or_false, Bool.false_eq_true, if_false, habsent]
        rfl

end Sys2Proof.Machine
end

section
/-! SUPPORT. Streams: their slots, the walk begun again, and what a step of a margin stream ends with (O57, O58). -/

namespace Sys2Proof.Machine

/-! ### Slots of a ring -/

theorem getElem?_modifyAt {α : Type} (f : α → α) (i j : Nat) (l : List α) : (modifyAt f i l)[j]? = if j = i then l[j]?.map f else l[j]? := by
  induction l generalizing i j with
  | nil => cases i <;> simp [modifyAt]
  | cons x xs ih => cases i <;> cases j <;> simp [modifyAt, ih]

theorem length_modifyAt {α : Type} (f : α → α) (i : Nat) (l : List α) : (modifyAt f i l).length = l.length := by
  induction l generalizing i with
  | nil => cases i <;> rfl
  | cons x xs ih => cases i <;> simp [modifyAt, ih]

theorem slot_congr {x y : Stream} (h : y.slots = x.slots) (i : Nat) : y.slot i = x.slot i := by
  unfold Stream.slot
  rw [h]

@[simp] theorem slot_slotMod_other (x : Stream) (f : Slot → Slot) {i j : Nat} (h : j ≠ i) : (x.slotMod i f).slot j = x.slot j := by
  simp [Stream.slot, Stream.slotMod, getElem?_modifyAt, h]

theorem slot_slotMod_same (x : Stream) (f : Slot → Slot) {i : Nat} (h : i < x.slots.length) : (x.slotMod i f).slot i = f (x.slot i) := by
  simp [Stream.slot, Stream.slotMod, getElem?_modifyAt, h]

/-- Freeing a slot that is not there leaves it reading as a free one. -/
@[simp] theorem slot_slotMod_free (x : Stream) (i : Nat) : (x.slotMod i fun _ => Slot.free).slot i = Slot.free := by
  simp only [Stream.slot, Stream.slotMod, getElem?_modifyAt, if_true]
  cases x.slots[i]? <;> rfl

/-! ### Streams in a state -/

theorem stream?_of_does {T : List Part} {s t : State} (h : Does T s t) (hT : Part.streams ∉ T) (k : Nat × Nat) : stream? t k = stream? s k :=
  congrArg (look k) (h.frame .streams hT)

theorem streamPlan_of_does {T : List Part} {s t : State} (h : Does T s t) (hT : Part.plans ∉ T) (k : Nat × Nat) : streamPlan t k = streamPlan s k := by
  have hp : plan? t k.1 = plan? s k.1 := congrArg (look k.1) (h.frame .plans hT)
  unfold streamPlan
  rw [hp]

theorem noShared_of_does {T : List Part} {s t : State} {k : Nat × Nat} (h : Does T s t) (hT : Part.rul ∉ T) (hn : noShared s k) : noShared t k := by
  have hr : t.rul = s.rul := h.frame .rul hT
  unfold noShared
  rw [hr]
  exact hn

theorem refKey_ne_host {r : StreamRef} (h : r.slot ≠ 0xff) : (refKey r).1 ≠ 255 := fun he => h (BitVec.eq_of_toNat_eq he)

theorem refKey_host {r : StreamRef} (h : r.slot = 0xff) : (refKey r).1 = 255 := by simp [refKey, h]

theorem streamPlan_host {s : State} {k : Nat × Nat} (h : k.1 = 255) : streamPlan s k = none := by simp [streamPlan, h]

/-- A margin stream's step ends nothing besides: it has no release, and no SHARED_TASK of it runs. -/
theorem shareEnd_margin {s : State} {k : Nat × Nat} {x : Stream} (hx : stream? s k = some x) (hm : x.ruled = false) (hn : noShared s k) :
    shareEnd k s = s := by
  have hwalk : walkEnd k s = s := by simp [walkEnd, hx, hm]
  unfold shareEnd settleShared
  rw [hwalk, List.filter_eq_nil_iff.2]
  · rfl
  · intro e he hmine
    simp only [Bool.and_eq_true, beq_iff_eq] at hmine
    exact hn e he hmine.1.2

/-! ### A walk begun again -/

theorem restartMargin_cases (p : Option Plan) (x : Stream) : restartMargin p x = x ∨ restartMargin p x = restart x := by
  unfold restartMargin
  split
  · exact .inr rfl
  · exact .inl rfl

/-- A restart leaves the ring, the state and the unit of a stream, and the fields of its descriptor besides its two addresses. -/
theorem restart_keeps (x : Stream) : (restart x).slots = x.slots ∧ (restart x).tail = x.tail ∧ (restart x).state = x.state ∧ (restart x).ruled = x.ruled ∧
    (restart x).desc.write = x.desc.write ∧ (restart x).desc.kind = x.desc.kind := by
  unfold restart
  cases x.rearm <;> simp

theorem restartMargin_keeps (p : Option Plan) (x : Stream) : (restartMargin p x).slots = x.slots ∧ (restartMargin p x).tail = x.tail ∧
    (restartMargin p x).state = x.state ∧ (restartMargin p x).ruled = x.ruled ∧ (restartMargin p x).desc.write = x.desc.write ∧
    (restartMargin p x).desc.kind = x.desc.kind := by
  obtain h | h := restartMargin_cases p x
  · rw [h]; simp
  · rw [h]; exact restart_keeps x

/-! ### Slots taken and drained -/

/-- The stream DONE, or as it is: what closing a walk may leave. -/
theorem settleWrite_cases (x : Stream) : x.settleWrite = x ∨ x.settleWrite = { x with state := .done } := by
  unfold Stream.settleWrite
  split
  · exact .inr rfl
  · exact .inl rfl

theorem settleWrite_keeps (x : Stream) : x.settleWrite.slots = x.slots ∧ x.settleWrite.tail = x.tail ∧ x.settleWrite.done = x.done ∧
    x.settleWrite.tiles = x.tiles ∧ x.settleWrite.transfers = x.transfers ∧ (x.state ≠ .running → x.settleWrite.state = x.state) := by
  unfold Stream.settleWrite
  split
  · next h => simp_all
  · simp

theorem drained_slots (x : Stream) (i : Nat) : (drained x i).slots = (x.slotMod i fun _ => Slot.free).slots := (settleWrite_keeps _).1

theorem freeSlot_keeps (x : Stream) (i : Nat) : (freeSlot x i).slots = (x.slotMod i fun _ => Slot.free).slots ∧ (freeSlot x i).taken = x.taken + 1 ∧
    (freeSlot x i).tail = (i + 1) % (x.desc.ring + 1) ∧ (freeSlot x i).tailOff = 0 ∧ (freeSlot x i).nextTile = x.nextTile ∧ (freeSlot x i).desc = x.desc := by
  unfold freeSlot
  dsimp only
  split <;> exact ⟨rfl, rfl, rfl, rfl, rfl, rfl⟩

end Sys2Proof.Machine
end

section
/-! SUPPORT. The Feed stages and the drains of write streams (O58). -/

namespace Sys2Proof.Machine

/-! ### SLOT_DRAIN -/

/-- The slot at the tail holds something back that can go on: rows of a slice packet, or compressed output. -/
def heldBack (x : Stream) : Bool :=
  (x.slot x.tail).state == .draining && (x.desc.param != 0xffffffff || (x.desc.codec != 0 && x.comp.input.isEmpty))

theorem slotDrain_stops {s : State} {r : StreamRef} {x : Stream} (hx : stream? s (refKey r) = some x)
    (hfill : r.slot ≠ 0xff ∨ x.desc.write = false ∨ x.state ≠ .running ∨ (x.slot x.tail).state ≠ .free)
    (hno : x.desc.write = false ∨ x.state ≠ .running ∨ mayTransfer s (refKey r) x = false ∨ ((x.slot x.tail).state ≠ .ready ∧ heldBack x = false)) :
    exec (.slotDrain r) s = .next s := by
  show execSlotDrain r s = _
  have hown : (decide ((refKey r).1 = 255) && x.desc.write && x.state == .running && (x.slot x.tail).state == .free) = false := by
    obtain h | h | h | h := hfill
    · simp [refKey_ne_host h]
    all_goals simp [h]
  have hstop : (!x.desc.write || x.state != .running || !((x.slot x.tail).state == .ready || heldBack x) || !mayTransfer s (refKey r) x) = true := by
    obtain h | h | h | ⟨h, h'⟩ := hno
    all_goals simp [*]
  unfold heldBack at hstop
  simp only [execSlotDrain, hx, hown, Bool.false_eq_true, if_false, hstop, if_true]

theorem slotDrain_goes {s : State} {r : StreamRef} {x : Stream} (hx : stream? s (refKey r) = some x) (hw : x.desc.write = true)
    (hrun : x.state = .running) (hmay : mayTransfer s (refKey r) x = true) (hsl : (x.slot x.tail).state = .ready ∨ heldBack x = true) :
    exec (.slotDrain r) s = .next (shareEnd (refKey r) (slotDrain (refKey r) x s)) := by
  show execSlotDrain r s = _
  have hfull : ((x.slot x.tail).state == .free) = false := by
    obtain h | h := hsl
    · simp [h]
    · simp only [heldBack, Bool.and_eq_true, beq_iff_eq] at h
      simp [h.1]
  have hgo : (!x.desc.write || x.state != .running || !((x.slot x.tail).state == .ready || heldBack x) || !mayTransfer s (refKey r) x) = false := by
    obtain h | h := hsl <;> simp [hw, hrun, hmay, h]
  unfold heldBack at hgo
  simp only [execSlotDrain, hx, hfull, Bool.and_false, Bool.false_eq_true, if_false, hgo]

/-- A host stream whose tail slot is FREE is filled by the host first. -/
theorem slotDrain_host {s : State} {r : StreamRef} {x : Stream} (hr : r.slot = 0xff) (hx : stream? s (refKey r) = some x) (hw : x.desc.write = true)
    (hrun : x.state = .running) (hfree : (x.slot x.tail).state = .free) (y : Stream) (hy : y = hostFill none (restartMargin none x)) :
    exec (.slotDrain r) s =
      .next (if !y.desc.write || y.state != .running || !((y.slot y.tail).state == .ready || heldBack y) || !mayTransfer s (refKey r) y then s
        else shareEnd (refKey r) (slotDrain (refKey r) y s)) := by
  show execSlotDrain r s = _
  have hfill : (decide ((refKey r).1 = 255) && x.desc.write && x.state == .running && (x.slot x.tail).state == .free) = true := by
    simp [refKey_host hr, hw, hrun, hfree]
  subst hy
  simp only [execSlotDrain, hx, hfill, if_true]
  exact (apply_ite Host.Outcome.next _ _ _).symm

/-- The stream with its tail slot's bytes in its compressor, a new frame begun where none is. -/
def compressing (k : Nat × Nat) (x : Stream) (s : State) : Stream :=
  { (x.slotMod x.tail fun sl => { sl with state := .draining }) with
    comp := { (if x.comp.frame.isEmpty then { x.comp with frame := frameStart x.desc.codec } else x.comp) with
      input := readHeld s (slotDva (streamPlan s k) x.desc x.tail) (x.slot x.tail).bytes } }

section
variable {k : Nat × Nat} {x : Stream} {s : State}

theorem slotDrain_slices {pl : Plan} (hp : streamPlan s k = some pl) (hparam : x.desc.param ≠ 0xffffffff) :
    slotDrain k x s = drainSlice k pl x x.tail s := by
  simp only [slotDrain, hp, hparam, if_false]

theorem slotDrain_ready (hp : x.desc.param = 0xffffffff ∨ streamPlan s k = none) (hsl : (x.slot x.tail).state = .ready) :
    slotDrain k x s =
      if x.desc.codec ≠ 0 then
        if (x.slot x.tail).bytes = 0 then endSlot k x.desc.codec (compressing k x s) (slotReport k x x.tail (x.slot x.tail).bytes 0x71 s)
        else setStream k (compressing k x s) (slotReport k x x.tail (x.slot x.tail).bytes 0x71 s)
      else match walkQueue (streamPlan s k) x.desc with
        | some q => drainPacket k x q (readHeld s (slotDva (streamPlan s k) x.desc x.tail) (x.slot x.tail).bytes)
            (slotReport k x x.tail (x.slot x.tail).bytes 0x71 s)
        | none =>
          if (x.slot x.tail).bytes = 0 then setStream k (drained x x.tail) s
          else setStream k (x.slotMod x.tail fun sl => { sl with state := .draining }) s := by
  have hpl : (if x.desc.param = 0xffffffff then none else streamPlan s k) = none := by
    obtain h | h := hp <;> simp [h]
  simp only [slotDrain, hpl, hsl, bne_self_eq_false, Bool.false_eq_true, if_false]
  rfl

theorem slotDrain_held (hp : x.desc.param = 0xffffffff ∨ streamPlan s k = none) (hsl : (x.slot x.tail).state = .draining) (hc : x.desc.codec ≠ 0) :
    slotDrain k x s = moveOutput k x s := by
  have hpl : (if x.desc.param = 0xffffffff then none else streamPlan s k) = none := by
    obtain h | h := hp <;> simp [h]
  have hnr : (SlotState.draining != SlotState.ready) = true := rfl
  simp only [slotDrain, hpl, hsl, hnr, if_true, hc, if_false]

end

/-! ### Packets -/

theorem packetOut_held {k : Nat × Nat} {x : Stream} {q : Nat} {bs : Bytes} {s : State} {y : Queue} (hq : queue? s q = some y) (hh : queueHeld s q = true) :
    packetOut k x q bs s = if y.limit < cellsFor bs.length || queueRoom s q bs.length then some (commitPacket q x.unit 0 bs s) else none := by
  simp only [packetOut, hh, hq, Bool.not_true, Bool.false_eq_true, if_false]

theorem packetOut_unheld {k : Nat × Nat} {x : Stream} {q : Nat} {bs : Bytes} {s : State} (hh : queueHeld s q = false) :
    packetOut k x q bs s = some (streamBlot k x 0x72 0 ((x.slot x.tail).tile - 1) 1 s) := by
  simp only [packetOut, hh, Bool.not_false, if_true]

/-! ### A slot filled by the host -/

theorem hostFill_full {p : Option Plan} {x : Stream} (h : x.slot (x.nextTile % (x.desc.ring + 1)) ≠ Slot.free ∨ tilesLeft p x = false) : hostFill p x = x := by
  obtain h | h := h <;> simp [hostFill, h]

theorem hostFill_tile {p : Option Plan} {x : Stream} {n : Nat} (hn : n = x.desc.ring + 1) (hfree : x.slot (x.nextTile % n) = Slot.free)
    (hleft : tilesLeft p x = true) (hq : walkQueue p x.desc = none) :
    hostFill p x = { (x.slotMod (x.nextTile % n) fun _ => ⟨.ready, tileBytes x.desc, x.nextTile + 1, 0, 0, []⟩) with
      nextTile := x.nextTile + 1, head := (x.nextTile % n + 1) % n } := by
  subst hn
  simp [hostFill, hfree, hleft, hq]

/-- The host fills the FREE slot at the tail with a tile, which then drains in transfers. -/
theorem slotDrain_host_fills {s : State} {r : StreamRef} {x y : Stream} {n : Nat} (hr : r.slot = 0xff) (hx : stream? s (refKey r) = some x)
    (hw : x.desc.write = true) (hrun : x.state = .running) (hfree : (x.slot x.tail).state = .free) (hy : y = restartMargin none x)
    (hn : n = y.desc.ring + 1) (hlen : y.slots.length = n) (htail : y.tail = y.nextTile % n) (hleft : tilesLeft none y = true)
    (hyfree : y.slot y.tail = Slot.free) (hc : y.desc.codec = 0) (hq : walkQueue none y.desc = none) (hb : tileBytes y.desc ≠ 0)
    (hmay : mayTransfer s (refKey r) (hostFill none y) = true) : ∃ z : Stream,
      exec (.slotDrain r) s = .next (shareEnd (refKey r) (setStream (refKey r) z s)) ∧
      z.slot y.tail = ⟨.draining, tileBytes y.desc, y.nextTile + 1, 0, 0, []⟩ ∧ z.nextTile = y.nextTile + 1 ∧ z.tail = y.tail ∧ z.done = y.done := by
  obtain ⟨-, -, hstate, -, hwrite, -⟩ := restartMargin_keeps none x
  rw [← hy] at hstate hwrite
  rw [htail] at hyfree ⊢
  have hfill := hostFill_tile hn hyfree hleft hq
  have hin : y.nextTile % n < y.slots.length := hlen ▸ Nat.mod_lt _ (by omega)
  generalize hz : hostFill none y = z at hfill hmay
  have hztail : z.tail = y.nextTile % n := by rw [hfill]; exact htail
  have hzslot : z.slot z.tail = ⟨.ready, tileBytes y.desc, y.nextTile + 1, 0, 0, []⟩ := by
    rw [hztail, hfill]
    exact slot_slotMod_same y _ hin
  have hzdesc : z.desc = y.desc := by rw [hfill]; rfl
  have hzin : z.tail < z.slots.length := by
    have hl : z.slots.length = y.slots.length := by rw [hfill]; simp [Stream.slotMod, length_modifyAt]
    omega
  refine ⟨z.slotMod z.tail fun sl => { sl with state := .draining }, ?_, ?_, ?_, ?_, ?_⟩
  · have hzstate : z.state = .running := by rw [hfill]; exact hstate.trans hrun
    rw [slotDrain_host hr hx hw hrun hfree z (by rw [← hy, hz]), if_neg (by simp [hzdesc, hwrite, hw, hzstate, hzslot, hmay]),
      slotDrain_ready (.inr (streamPlan_host (refKey_host hr))) (by rw [hzslot]), if_neg (by simp [hzdesc, hc]), streamPlan_host (refKey_host hr), hzdesc, hq]
    exact congrArg (fun v => Host.Outcome.next (shareEnd (refKey r) v)) (if_neg (by rw [hzslot]; exact hb))
  · rw [← hztail, slot_slotMod_same _ _ hzin, hzslot]
  · rw [hfill]; rfl
  · exact hztail
  · rw [hfill]; rfl

/-! ### FEED_READ -/

theorem feedRead_waits {c : StageCtx} {s : State} (h : stream? s (feedStream c) = none ∨ ∃ x, stream? s (feedStream c) = some x ∧
    (x.desc.write = true ∨ 2 ≤ x.desc.kind ∨ (x.desc.kind = 0 ∧ ((x.slot x.tail).state = .filling ∨ (x.slot x.tail).state = .draining ∨
      ((x.slot x.tail).state = .free ∧ x.state ≠ .aborted))))) : feedRead c s = none := by
  unfold feedRead
  obtain hx | ⟨x, hx, h⟩ := h
  · simp [hx]
  · simp only [hx]
    obtain hw | hk | ⟨hk, h⟩ := h
    · simp [hw]
    · obtain ⟨n, hn⟩ := Nat.exists_eq_add_of_le' hk
      simp [hn]
    · simp only [hk, feedCopy]
      obtain h | h | ⟨h, hl⟩ := h <;> simp [h]
      simp [hl]

theorem feedRead_copies {c : StageCtx} {s : State} {x : Stream} (hx : stream? s (feedStream c) = some x) (hw : x.desc.write = false)
    (hk : x.desc.kind = 0) : feedRead c s = feedCopy c (feedStream c) x s := by
  simp [feedRead, hx, hw, hk]

theorem feedRead_ingests {c : StageCtx} {s : State} {x : Stream} (hx : stream? s (feedStream c) = some x) (hw : x.desc.write = false)
    (hk : x.desc.kind = 1) : feedRead c s = feedIngest c (feedStream c) x s := by
  simp [feedRead, hx, hw, hk]

/-- The bytes a Feed stage takes of a READY slot. -/
theorem feedCopy_ready {c : StageCtx} {k : Nat × Nat} {x : Stream} {s : State} {sl : Slot} {len : Nat} (hsl : sl = x.slot x.tail) (hr : sl.state = .ready)
    (hoff : x.tailOff ≤ sl.bytes) (hlen : len = if c.st.outLen = 0 then sl.bytes - x.tailOff else min c.st.outLen (sl.bytes - x.tailOff)) :
    feedCopy c k x s = some ⟨if (sl.badRanges.any fun r => decide (r.1 < x.tailOff + len) && decide (x.tailOff < r.1 + r.2)) ||
        rangeOut s (slotDva (some c.plan) x.desc x.tail + x.tailOff) len then blotGroup { c.grp with source := k.2 } else { c.grp with source := k.2 },
      readHeld s (slotDva (some c.plan) x.desc x.tail + x.tailOff) len,
      setStream k (if x.tailOff + len < sl.bytes then { x with tailOff := x.tailOff + len } else freeSlot x x.tail)
        (if x.tailOff = 0 then slotReport k x x.tail sl.bytes 0x71 s else s)⟩ := by
  have hfits : len ≤ sl.bytes - x.tailOff := by rw [hlen]; split <;> omega
  have hshort : ¬ sl.bytes < x.tailOff + len := by omega
  subst hsl
  have hcut : (SlotState.ready == SlotState.truncated) = false := rfl
  simp only [feedCopy, hr, hcut, Bool.false_and, Bool.false_eq_true, if_false, ← hlen, hshort, decide_false, Bool.false_or, Nat.min_eq_left hfits,
    Nat.sub_eq_zero_of_le hfits]
  simp [zeros]

theorem feedCopy_aborted {c : StageCtx} {k : Nat × Nat} {x : Stream} {s : State} (hf : (x.slot x.tail).state = .free) (ha : x.state = .aborted) :
    ∃ u, feedCopy c k x s = some ⟨{ c.grp with rows := 0, recs := [], valid := [], cols := [] }, [], u⟩ ∧
      Does [.blot, .mem, .pages, .streams] s u := by
  refine ⟨if x.closed then s else streamBlot k x 0x70 0 x.nextTile (tileCount x.desc - (x.nextTile - x.walkBase)) (setStream k { x with closed := true } s),
    ?_, .ite (fun _ => .refl _) fun _ => .next (streamBlot_does ..) (by decide) (.next (setStream_does ..) (by decide) (.refl _))⟩
  simp only [feedCopy, hf, if_pos ha]

/-! ### FEED_READ of an ingest stream -/

/-- The records an ingest stream has for a group, without an epoch that ends. -/
def recordsWanted (c : StageCtx) (x : Stream) : Nat := if c.lig.maxRows = 0 then x.ingest.avail else min c.lig.maxRows x.ingest.avail

section
variable {c : StageCtx} {x : Stream} {s : State} {n : Nat}

theorem feedIngest_waits (hl : sourceLayouts c.plan c.st.param = []) (hn : n = recordsWanted c x)
    (h : (n = 0 ∧ x.state ≠ .aborted) ∨ (n ≠ 0 ∧ (itemsReady (streamMedia (some c.plan) x.desc) n x.ingest = false ∨ x.state = .cancelled))) :
    feedIngest c (feedStream c) x s = none := by
  have hl' : sourceLayouts c.plan (feedStream c).2 = [] := hl
  unfold recordsWanted at hn
  unfold feedIngest
  simp only [hl', List.foldl_nil, ← hn]
  obtain ⟨h0, ha⟩ | ⟨h0, hi | hc⟩ := h
  · simp [h0, ha]
  · simp [h0, hi]
  · simp [h0, hc]

/-- The group of the first `n` records of an ingest stream. -/
def ingestGroup (c : StageCtx) (x : Stream) (s : State) (n : Nat) : Group :=
  let r := takeIngest c.plan (sampleOf s (feedStream c) x c.grp) (walkCtx s (some c.plan) x.desc) (streamMedia (some c.plan) x.desc) n x.ingest
  { c.grp with rows := n, source := (feedStream c).2, recs := r.1, valid := r.2.1, cols := r.2.2.1, fields := [] }

/-- The stream without those records. -/
def ingestAfter (c : StageCtx) (x : Stream) (s : State) (n : Nat) : Stream :=
  { x with ingest := (takeIngest c.plan (sampleOf s (feedStream c) x c.grp) (walkCtx s (some c.plan) x.desc) (streamMedia (some c.plan) x.desc) n
    x.ingest).2.2.2 }

theorem feedIngest_takes (hl : sourceLayouts c.plan c.st.param = []) (hn : n = recordsWanted c x) (h0 : n ≠ 0)
    (hi : itemsReady (streamMedia (some c.plan) x.desc) n x.ingest = true) (hc : x.state ≠ .cancelled) :
    feedIngest c (feedStream c) x s = some ⟨ingestGroup c x s n, (ingestGroup c x s n).cols.flatMap columnBytes,
      settleIngest (feedStream c) (setStream (feedStream c) (ingestAfter c x s n) s)⟩ := by
  have hl' : sourceLayouts c.plan (feedStream c).2 = [] := hl
  unfold recordsWanted at hn
  unfold feedIngest
  have hgo : (!itemsReady (streamMedia (some c.plan) x.desc) n x.ingest || x.state == .cancelled) = false := by simp [hi, hc]
  simp only [hl', List.foldl_nil, ← hn, h0, if_false, hgo, Bool.false_eq_true, epochsOver, List.any_nil, groupSample]
  rfl

end

/-- A margin ingest stream settled: it alone changes, and only its state. -/
theorem settleIngest_margin {s : State} {k : Nat × Nat} {x : Stream} (hx : stream? s k = some x) (hm : x.ruled = false) (hn : noShared s k) :
    ∃ z, stream? (settleIngest k s) k = some z ∧ settleIngest k s = { s with streams := (settleIngest k s).streams } ∧ z.ingest = x.ingest := by
  have hsplit : settleIngest k s = if x.state == .running && ingestOver x && !x.desc.persist && !x.ruled
      then setStream k { x with state := .done } s else shareEnd k s := by simp only [settleIngest, hx]
  rw [hsplit]
  split
  · exact ⟨_, stream?_setStream_same _ _ _, rfl, rfl⟩
  · rw [shareEnd_margin hx hm hn]
    exact ⟨x, hx, rfl, rfl⟩

/-! ### FEED_WRITE -/

theorem feedWrite_waits {c : StageCtx} {s : State} (h : stream? s (feedStream c) = none ∨ ∃ x y, stream? s (feedStream c) = some x ∧
    y = restartMargin (some c.plan) x ∧ (y.desc.write = false ∨ y.state ≠ .running ∨ y.slot (y.nextTile % (y.desc.ring + 1)) ≠ Slot.free ∨
      tilesLeft (some c.plan) y = false)) : feedWrite c s = none := by
  unfold feedWrite
  obtain hx | ⟨x, y, hx, rfl, h⟩ := h
  · simp [hx]
  · simp only [hx]
    refine if_pos ?_
    obtain h | h | h | h := h <;> simp [h]

/-- The stream with a group's bytes in its head slot. -/
def fedSlot (y : Stream) (len : Nat) : Stream :=
  { (y.slotMod (y.nextTile % (y.desc.ring + 1)) fun _ => ⟨.ready, len, y.nextTile + 1, 0, 0, []⟩) with
    nextTile := y.nextTile + 1, head := (y.nextTile % (y.desc.ring + 1) + 1) % (y.desc.ring + 1) }

theorem feedWrite_fills {c : StageCtx} {s : State} {x y : Stream} {len : Nat} {bytes : Bytes} (hx : stream? s (feedStream c) = some x)
    (hy : y = restartMargin (some c.plan) x) (hw : y.desc.write = true) (hrun : y.state = .running)
    (hfree : y.slot (y.nextTile % (y.desc.ring + 1)) = Slot.free) (hleft : tilesLeft (some c.plan) y = true)
    (hb : bytes = if y.desc.param = 0xffffffff then c.inputBytes s else slicePacket c s)
    (hlen : len = min (if (walkQueue (some c.plan) y.desc).isSome then min bytes.length y.desc.d0 else bytes.length) y.desc.slotBytes) :
    feedWrite c s = some ⟨c.grp, [], slotSignal (feedStream c) (fedSlot y len) (setStream (feedStream c) (fedSlot y len)
      (slotReport (feedStream c) y (y.nextTile % (y.desc.ring + 1)) len 0x72
        (writeHeld s (slotDva (some c.plan) y.desc (y.nextTile % (y.desc.ring + 1))) (bytes.take len))))⟩ := by
  have hgo : (!y.desc.write || y.state != .running || y.slot (y.nextTile % (y.desc.ring + 1)) != Slot.free || !tilesLeft (some c.plan) y) = false := by
    simp [hw, hrun, hfree, hleft]
  unfold feedWrite
  simp only [hx, ← hy, hgo, Bool.false_eq_true, if_false, ← hb, ← hlen]
  rfl

/-- Settles O58, a lemma for each way a drain or a Feed stage can go. -/
theorem feedAndDrains : Obligations.FeedAndDrains := by
  unfold Obligations.FeedAndDrains
  refine ⟨?_, ?_, ?_, ?_, ?_, ?_, ?_, ?_, ?_, ?_, ?_⟩
  · rintro s r (hx | ⟨x, hx, h⟩)
    · show execSlotDrain r s = _
      simp only [execSlotDrain, hx]
    · obtain h | h | ⟨hr, h⟩ | ⟨hown, hnr, hheld⟩ := h
      · exact slotDrain_stops hx (.inr (.inl h)) (.inl h)
      · exact slotDrain_stops hx (.inr (.inr (.inl h))) (.inr (.inl h))
      · exact slotDrain_stops hx (.inl hr) (.inr (.inr (.inl h)))
      · refine slotDrain_stops hx (hown.imp id fun h => .inr (.inr h)) (.inr (.inr (.inr ⟨hnr, ?_⟩)))
        simpa [heldBack, List.isEmpty_iff] using hheld
  · intro s u r x p sl bs hx hw hrun hmay hsl hp hbs hu
    subst hsl hp hbs
    have hgo := slotDrain_goes hx hw hrun hmay
    refine ⟨fun pl hpl hparam h => ?_, fun hp hr hc hq hb => ?_, fun hp hr hc hq hb => ?_, fun q hp hr hc hq => ?_, fun hp hr hc hb htail => ?_,
      fun hp hd hc hin => ?_⟩
    · rw [hgo (h.imp id fun hd => by simp [heldBack, hd, hparam]), slotDrain_slices hpl hparam]
    · rw [hgo (.inl hr), slotDrain_ready hp hr, if_neg (by simp [hc]), hq]
      exact congrArg (fun v => Host.Outcome.next (shareEnd (refKey r) v)) (if_neg hb)
    · rw [hgo (.inl hr), slotDrain_ready hp hr, if_neg (by simp [hc]), hq]
      exact congrArg (fun v => Host.Outcome.next (shareEnd (refKey r) v)) (if_pos hb)
    · have he := hgo (.inl hr)
      rw [slotDrain_ready hp hr, if_neg (by simp [hc]), hq, ← hu] at he
      simp only [drainPacket] at he
      exact ⟨fun v hv => by rw [he, hv], fun hv => by rw [he, hv]⟩
    · refine ⟨compressing (refKey r) x s, ?_, rfl, ?_, ?_⟩
      · rw [hgo (.inl hr), slotDrain_ready hp hr, if_pos hc, if_neg hb, hu]
      · exact congrArg Slot.state (slot_slotMod_same x _ htail)
      · simp only [compressing]
        split <;> rfl
    · rw [hgo (.inr (by simp [heldBack, hd, hc, hin])), slotDrain_held hp hd hc]
  · intro s k x q bs y hq
    refine ⟨fun hh h => ?_, fun hh hl hroom => ?_, packetOut_unheld⟩
    · rw [packetOut_held hq hh, if_pos (by simpa using h)]
    · rw [packetOut_held hq hh, if_neg (by simp [hroom, hl])]
  · intro s r x y n hr hx hw hrun hm hfree hy hn hlen htail
    obtain ⟨hslots, hytail, -⟩ := restartMargin_keeps none x
    rw [← hy] at hslots hytail
    refine ⟨fun hleft => ?_, fun hleft hyfree hc hq hb hmay => ?_⟩
    · rw [slotDrain_host hr hx hw hrun hfree y (by rw [← hy, hostFill_full (.inr hleft)]), if_pos]
      have hf : (y.slot y.tail).state = .free := by rw [slot_congr hslots, hytail, hfree]
      simp [heldBack, hf]
    · exact slotDrain_host_fills hr hx hw hrun hfree hy hn hlen htail hleft hyfree hc hq hb hmay
  · intro x i
    obtain ⟨hslots, htaken, htail, hoff, -⟩ := freeSlot_keeps x i
    obtain ⟨-, hdtail, hddone, -⟩ := settleWrite_keeps { (x.slotMod i fun _ => Slot.free).tileDone with tail := (i + 1) % (x.desc.ring + 1), taken := x.taken + 1 }
    refine ⟨?_, hddone, hdtail, ?_, htaken, htail, hoff, fun j hj => ⟨?_, ?_⟩⟩
    · rw [slot_congr (drained_slots x i), slot_slotMod_free]
    · rw [slot_congr hslots, slot_slotMod_free]
    · rw [slot_congr (drained_slots x i), slot_slotMod_other x _ hj]
    · rw [slot_congr hslots, slot_slotMod_other x _ hj]
  · intro s r c hr h
    exact congrArg Host.Outcome.next (stage_waits hr (feedRead_waits h))
  · intro s r c x sl len bad hr hx hw hk hsl hready hoff hlen hbad
    subst hbad
    exact congrArg Host.Outcome.next (stage_of_ready hr ((feedRead_copies hx hw hk).trans (feedCopy_ready hsl hready hoff hlen)))
  · intro s r c x hr hx hw hk hf ha
    obtain ⟨u, hcopy, hu⟩ := feedCopy_aborted (k := feedStream c) (s := s) (c := c) hf ha
    exact ⟨u, _, congrArg Host.Outcome.next (stage_of_ready hr ((feedRead_copies hx hw hk).trans hcopy)), rfl, rfl, rfl, hu.frame .nibs (by decide)⟩
  · intro s r c x n hr hx hw hk hl hn
    refine ⟨fun h0 ha => ?_, fun h0 h => ?_, fun h0 hi hc => ?_⟩
    · exact congrArg Host.Outcome.next (stage_waits hr ((feedRead_ingests hx hw hk).trans (feedIngest_waits hl hn (.inl ⟨h0, ha⟩))))
    · exact congrArg Host.Outcome.next (stage_waits hr ((feedRead_ingests hx hw hk).trans (feedIngest_waits hl hn (.inr ⟨h0, h⟩))))
    · refine ⟨ingestGroup c x s n, _, congrArg Host.Outcome.next (stage_of_ready hr ((feedRead_ingests hx hw hk).trans (feedIngest_takes hl hn h0 hi hc))),
        ?_, rfl, rfl, rfl, ?_, rfl, fun hm hns => ?_⟩
      · exact (settleIngest_does ..).frame .nibs (by decide)
      · simp [ingestGroup, takeIngest]
      · obtain ⟨z, hz, hu, hzi⟩ := settleIngest_margin (stream?_setStream_same (feedStream c) (ingestAfter c x s n) s) hm
          (noShared_of_does (setStream_does (feedStream c) (ingestAfter c x s n) s) (by decide) hns)
        exact ⟨z, hz, hu, by rw [hzi]; rfl⟩
  · intro s r c hr h
    exact congrArg Host.Outcome.next (stage_waits hr (feedWrite_waits h))
  · intro s r c x y n len bytes hr hx hy hn hlen hw hrun hfree hleft hb hl
    subst hn
    have hin : y.nextTile % (y.desc.ring + 1) < y.slots.length := hlen ▸ Nat.mod_lt _ (by omega)
    refine ⟨fedSlot y len, congrArg Host.Outcome.next (stage_of_ready hr (feedWrite_fills hx hy hw hrun hfree hleft hb hl)), ?_, rfl, rfl, ?_, rfl, hrun, rfl⟩
    · exact slot_slotMod_same y _ hin
    · exact fun j hj => slot_slotMod_other y _ hj

end Sys2Proof.Machine
end

section
/-! SUPPORT. Tiles begun, transfers issued, completed and late (O57). -/

namespace Sys2Proof.Machine

/-! ### TILE_BEGIN -/

/-- The stream with its next tile begun in the slot that is to take it. -/
def begunTile (y : Stream) : Stream :=
  { (y.slotMod (y.nextTile % (y.desc.ring + 1)) fun _ => { Slot.free with tile := y.nextTile + 1 }) with
    nextTile := y.nextTile + 1, head := (y.nextTile + 1) % (y.desc.ring + 1) }

section
variable {s : State} {r : StreamRef} {x y : Stream}

theorem tileBegin_stops (hx : stream? s (refKey r) = some x) (hy : y = restartMargin (streamPlan s (refKey r)) x)
    (h : y.desc.write = true ∨ y.desc.kind = 1 ∨ y.desc.kind = 2 ∨ mayWork s (refKey r) y = false) : exec (.tileBegin r) s = .next s := by
  show execTileBegin r s = _
  have hstop : (y.desc.write || !mayWork s (refKey r) y || y.desc.kind == 1 || y.desc.kind == 2) = true := by
    obtain h | h | h | h := h <;> simp [h]
  simp only [execTileBegin, hx, ← hy, hstop, if_true]

/-- TILE_BEGIN of a stream that walks memory and may work; the host takes the slot at its stream's tail first where no tile may begin. -/
theorem tileBegin_tiles (hx : stream? s (refKey r) = some x) (hy : y = restartMargin (streamPlan s (refKey r)) x) (hw : y.desc.write = false)
    (hk : y.desc.kind = 0) (hmay : mayWork s (refKey r) y = true) : exec (.tileBegin r) s = .next
      (let opens := y.state == .running && tilesLeft (streamPlan s (refKey r)) y
       let z := if (refKey r).1 == 255 && !(opens && mayBegin y) then hostTake y else y
       if !opens || !mayBegin z then (if (refKey r).1 == 255 then setStream (refKey r) z s else s)
       else setStream (refKey r) (begunTile z) s) := by
  show execTileBegin r s = _
  have hgo : (y.desc.write || !mayWork s (refKey r) y || y.desc.kind == 1 || y.desc.kind == 2) = false := by simp [hw, hk, hmay]
  have hk3 : ¬ y.desc.kind = 3 := by omega
  have hring : ∀ c : Bool, (if c then hostTake y else y).desc = y.desc := fun c => by
    cases c
    · rfl
    · unfold hostTake
      simp only [if_true]
      split
      · exact (freeSlot_keeps y y.tail).2.2.2.2.2
      · rfl
  simp only [execTileBegin, hx, ← hy, hgo, Bool.false_eq_true, if_false, hk3, begunTile, hring]
  exact (apply_ite Host.Outcome.next _ _ _).symm

theorem tileBegin_own (hr : r.slot ≠ 0xff) (hx : stream? s (refKey r) = some x) (hy : y = restartMargin (streamPlan s (refKey r)) x)
    (hw : y.desc.write = false) (hk : y.desc.kind = 0) (h : y.state ≠ .running ∨ tilesLeft (streamPlan s (refKey r)) y = false ∨ mayWork s (refKey r) y = false ∨
      mayBegin y = false) : exec (.tileBegin r) s = .next s := by
  cases hmay : mayWork s (refKey r) y with
  | false => exact tileBegin_stops hx hy (.inr (.inr (.inr hmay)))
  | true =>
    have hown : ((refKey r).1 == 255) = false := by simpa using refKey_ne_host hr
    have hno : (!(y.state == .running && tilesLeft (streamPlan s (refKey r)) y) || !mayBegin y) = true := by
      obtain h | h | h | h := h
      · simp [h]
      · simp [h]
      · simp [hmay] at h
      · simp [h]
    rw [tileBegin_tiles hx hy hw hk hmay]
    simp only [hown, Bool.false_and, Bool.false_eq_true, if_false, hno, if_true]

theorem tileBegin_begins (hx : stream? s (refKey r) = some x) (hy : y = restartMargin (streamPlan s (refKey r)) x) (hw : y.desc.write = false)
    (hk : y.desc.kind = 0) (hrun : y.state = .running) (hleft : tilesLeft (streamPlan s (refKey r)) y = true) (hmay : mayWork s (refKey r) y = true)
    (hb : mayBegin y = true) : exec (.tileBegin r) s = .next (setStream (refKey r) (begunTile y) s) := by
  rw [tileBegin_tiles hx hy hw hk hmay]
  simp [hrun, hleft, hb]

theorem hostTake_full (h : (y.slot y.tail).state = .ready ∨ (y.slot y.tail).state = .truncated) : hostTake y = freeSlot y y.tail := by
  obtain h | h := h <;> simp [hostTake, h]

theorem hostTake_other (h : (y.slot y.tail).state ≠ .ready) (h' : (y.slot y.tail).state ≠ .truncated) : hostTake y = y := by
  simp [hostTake, h, h']

/-- Where no tile may begin before the host has taken the slot at the tail. -/
theorem tileBegin_takes (hr : r.slot = 0xff) (hx : stream? s (refKey r) = some x) (hy : y = restartMargin none x) (hw : y.desc.write = false)
    (hk : y.desc.kind = 0) (hmay : mayWork s (refKey r) y = true) (hno : y.state ≠ .running ∨ tilesLeft none y = false ∨ mayBegin y = false) :
    exec (.tileBegin r) s = .next (setStream (refKey r)
      (if !(y.state == .running && tilesLeft none y) || !mayBegin (hostTake y) then hostTake y else begunTile (hostTake y)) s) := by
  have hp := streamPlan_host (s := s) (refKey_host hr)
  have hhost : ((refKey r).1 == 255) = true := by simp [refKey_host hr]
  have hstop : (!((y.state == .running && tilesLeft none y) && mayBegin y)) = true := by
    obtain h | h | h := hno <;> simp [h]
  rw [tileBegin_tiles hx (hp ▸ hy) hw hk hmay, hp]
  simp only [hhost, hstop, Bool.and_true, if_true]
  exact congrArg Host.Outcome.next (apply_ite (fun z => setStream (refKey r) z s) _ _ _).symm

/-- The stream with a PREFETCH tile read at once, the ABSENT pages under it counted. -/
def prefetched (s : State) (base : Nat) (y : Stream) : Stream :=
  let skip := (absentPages s base y.desc (y.nextTile - y.walkBase)).filter fun n => !y.skipPages.contains n
  { y.tileDone with nextTile := y.nextTile + 1, taken := y.taken + 1, skipped := y.skipped + skip.length, skipPages := y.skipPages ++ skip }

theorem tileBegin_prefetches {base : Nat} (hx : stream? s (refKey r) = some x) (hy : y = restartMargin (streamPlan s (refKey r)) x)
    (hw : y.desc.write = false) (hrun : y.state = .running) (hk : y.desc.kind = 3) (hleft : tilesLeft (streamPlan s (refKey r)) y = true)
    (hmay : mayTransfer s (refKey r) y = true) (hb : walkBaseDva (streamPlan s (refKey r)) y.desc = some base) :
    ∃ cluster lines, exec (.tileBegin r) s = .next (setStream (refKey r)
      (if !y.desc.persist && walkEnded (prefetched s base y) then { prefetched s base y with state := .done } else prefetched s base y)
      (fillLines cluster lines s)) := by
  have hwork : mayWork s (refKey r) y = true := by
    simp only [mayTransfer, Bool.and_eq_true] at hmay
    exact hmay.1.1
  have hgo : (y.desc.write || !mayWork s (refKey r) y || y.desc.kind == 1 || y.desc.kind == 2) = false := by simp [hw, hk, hwork]
  have hgo' : (y.state != .running || !tilesLeft (streamPlan s (refKey r)) y || !mayTransfer s (refKey r) y) = false := by simp [hrun, hleft, hmay]
  refine ⟨consumerCluster (streamPlan s (refKey r)) y.desc, (List.range (tileBytes y.desc / 256 + 2)).flatMap fun i =>
    (lineOf s (walkDva base y.desc (y.nextTile - y.walkBase) (min (tileBytes y.desc - 1) (i * 256)))).toList, ?_⟩
  show execTileBegin r s = _
  simp only [execTileBegin, hx, ← hy, hgo, if_pos hk, hb, hgo', Bool.false_eq_true, if_false]
  rfl

end

/-! ### TRANSFER_ISSUE -/

/-- A slot whose bytes are issued next is one of the ring's. -/
theorem issueSlot_lt {x : Stream} {i : Nat} (h : issueSlot x = some i) : i < x.slots.length := by
  unfold issueSlot at h
  refine List.foldlRecOn (motive := fun m => ∀ i, m = some i → i < x.slots.length) (List.range x.slots.length) _ (by simp) (fun m hm j hj i hi => ?_) i h
  have hj' : j < x.slots.length := List.mem_range.1 hj
  obtain ⟨-, hi⟩ | ⟨-, hi⟩ := ite_eq_iff.1 hi
  · cases m with
    | none => exact Option.some.inj hi ▸ hj'
    | some l =>
      obtain ⟨-, hi⟩ | ⟨-, hi⟩ := ite_eq_iff.1 hi
      · exact Option.some.inj hi ▸ hj'
      · exact hm i hi
  · exact hm i hi

section
variable {s : State} {r : StreamRef} {x : Stream} {b : Option (BitVec 17)} {w : Byte}

theorem transferIssue_stops (h : stream? s (refKey r) = none ∨ ∃ x, stream? s (refKey r) = some x ∧ (issueSlot x = none ∨ x.state ≠ .running ∨
      x.desc.kind ≠ 0 ∨ (∃ q, walkQueue (streamPlan s (refKey r)) x.desc = some q ∧ (x.desc.write = true ∨ mayTransfer s (refKey r) x = false)) ∨
      (walkQueue (streamPlan s (refKey r)) x.desc = none ∧ issuesNext s (refKey r) x = false))) : exec (.transferIssue ⟨r, b, w⟩) s = .next s := by
  show execTransferIssue ⟨r, b, w⟩ s = _
  obtain hx | ⟨x, hx, h⟩ := h
  · simp only [execTransferIssue, hx]
  · cases hi : issueSlot x with
    | none => simp only [execTransferIssue, hx, hi]
    | some i =>
      simp only [execTransferIssue, hx, hi]
      obtain h | h | h | ⟨q, hq, h⟩ | ⟨hq, h⟩ := h
      · simp [hi] at h
      · simp [h]
      · simp [h]
      · obtain h | h := h <;> simp [hq, h]
      · simp [hq, h]

theorem transferIssue_walks {i : Nat} (hx : stream? s (refKey r) = some x) (hrun : x.state = .running) (hk : x.desc.kind = 0) (hi : issueSlot x = some i)
    (hq : walkQueue (streamPlan s (refKey r)) x.desc = none) (hn : issuesNext s (refKey r) x = true) :
    exec (.transferIssue ⟨r, b, w⟩) s = .next (shareEnd (refKey r) (issueAt (refKey r) x i (ringReport (refKey r) x i s))) := by
  show execTransferIssue ⟨r, b, w⟩ s = _
  simp [execTransferIssue, hx, hi, hrun, hk, hq, hn]

theorem transferIssue_takes {i q : Nat} (hx : stream? s (refKey r) = some x) (hrun : x.state = .running) (hk : x.desc.kind = 0) (hi : issueSlot x = some i)
    (hw : x.desc.write = false) (hq : walkQueue (streamPlan s (refKey r)) x.desc = some q) (hmay : mayTransfer s (refKey r) x = true) :
    exec (.transferIssue ⟨r, none, 0⟩) s = .next (shareEnd (refKey r) (packetTile (refKey r) x i q s)) := by
  show execTransferIssue ⟨r, none, 0⟩ s = _
  simp [execTransferIssue, hx, hi, hrun, hk, hq, hw, hmay, checkHead_clean]

end

theorem ringReport_silent {s : State} {k : Nat × Nat} {x : Stream} {i : Nat} (h : (x.slot i).issued ≠ 0 ∨
    rangeOut s (slotDva (streamPlan s k) x.desc i) (if x.desc.write then (x.slot i).bytes else tileBytes x.desc) = false) : ringReport k x i s = s := by
  unfold ringReport slotReport
  obtain h | h := h
  · rw [if_pos h]
  · cases hw : x.desc.write <;> simp only [hw, Bool.false_eq_true, if_false, if_true] at h ⊢ <;> simp [h]

/-- A free tag is one of the pool's that no transfer of the pool holds. -/
theorem freeTag_free {s : State} {x : Stream} {tag : Nat} (h : freeTag s x = some tag) :
    tag < poolTags x ∧ ∀ e ∈ s.streams, samePool e.2 x = true → ∀ t ∈ e.2.transfers, t.tag ≠ tag := by
  refine ⟨List.mem_range.1 (List.mem_of_find?_eq_some h), fun e he hp t ht htag => ?_⟩
  have hunused := List.find?_some h
  simp only [Bool.not_eq_true', List.contains_eq_mem, decide_eq_false_iff_not, List.mem_flatMap, List.mem_filter, List.mem_map, not_exists, not_and] at hunused
  exact hunused e ⟨he, hp⟩ t ht htag

/-- A transfer stays within one aligned block of 256 bytes. -/
theorem spanOf_block (d : StreamDesc) (b dva limit : Nat) : dva % 256 + spanOf d b dva limit ≤ 256 := by
  have hmod : dva % 256 < 256 := Nat.mod_lt _ (by decide)
  unfold spanOf
  dsimp only
  split <;> omega

/-- The slot's next piece taken up, with the state its transfers give it. -/
def issued (x : Stream) (i n : Nat) : Stream :=
  x.slotMod i fun sl => { sl with state := if x.desc.write then .draining else .filling, issued := sl.issued + n }

section
variable {s : State} {k : Nat × Nat} {x : Stream} {i base tag dva n : Nat} (hb : walkBaseDva (streamPlan s k) x.desc = some base) (ht : freeTag s x = some tag)
  (hd : dva = walkDva base x.desc ((x.slot i).tile - 1 - x.walkBase) (readOf x.desc (x.slot i).issued))
  (hn : n = spanOf x.desc (x.slot i).issued dva (if x.desc.write then (x.slot i).bytes else tileBytes x.desc))
include hb ht hd hn

theorem issueAt_sends (ha : access s dva n = .ok) (hl : lineHit s k x dva = false) : issueAt k x i s =
    setStream k { issued x i n with transfers := x.transfers ++ [⟨tag, i, (x.slot i).issued, n, dva, s.clk.cycle, false⟩] } s := by
  have hl' : lineHit s k (issued x i n) dva = false := hl
  unfold issued at hl'
  simp only [issueAt, hb, ht, ← hd, ← hn, ha, hl', Bool.false_eq_true, if_false]
  rfl

theorem issueAt_hits (ha : access s dva n = .ok) (hl : lineHit s k x dva = true) : issueAt k x i s =
    commitPiece k i n (fillLines (consumerCluster (streamPlan s k) x.desc) (lineOf s dva).toList
      (placeBytes x.desc (slotDva (streamPlan s k) x.desc i) (x.slot i).issued (readDva s dva n) (setStream k (issued x i n) s))) := by
  have hl' : lineHit s k (issued x i n) dva = true := hl
  unfold issued at hl'
  simp only [issueAt, hb, ht, ← hd, ← hn, ha, hl', if_true]
  rfl

theorem issueAt_halts {page : Nat} (ha : access s dva n = .absent page) (hm : x.ruled = false) : issueAt k x i s = haltStream k x i dva s := by
  simp only [issueAt, hb, ht, ← hd, ← hn, ha, hm, Bool.false_eq_true, if_false]

/-- The slot's next piece noted as out of range. -/
def issuedZeros (x : Stream) (i n : Nat) : Stream :=
  x.slotMod i fun sl => { sl with state := .filling, issued := sl.issued + n, badRanges := sl.badRanges ++ placeRanges x.desc sl.issued n }

theorem issueAt_zeros (ha : access s dva n = .out) (hw : x.desc.write = false) : issueAt k x i s =
    commitPiece k i n
      (let v := placeBytes x.desc (slotDva (streamPlan s k) x.desc i) (x.slot i).issued (zeros n) (setStream k (issuedZeros x i n) s)
       if (x.slot i).badRanges.isEmpty then streamBlot k (issuedZeros x i n) 0x71 (x.slot i).issued ((x.slot i).tile - 1) 1 v else v) := by
  have hw' : ∀ f, (x.slotMod i f).desc.write = false := fun _ => hw
  simp only [issueAt, hb, ht, ← hd, ← hn, ha, hw']
  simp only [hw, Bool.false_eq_true, if_false]
  rfl

end

/-! ### A finished piece -/

/-- The stream with a slot's committed bytes grown by a finished piece: a read slot with all its bytes READY, a drained write slot FREE. -/
def pieceDone (x : Stream) (i len : Nat) : Stream :=
  let sl := { x.slot i with committed := (x.slot i).committed + len }
  if x.desc.write then
    if sl.committed < sl.bytes then x.slotMod i fun _ => sl
    else
      let y := if x.state == .cancelled || x.state == .aborted then { x with done := x.done + b2n (x.state == .aborted) } else x.tileDone
      let y := y.slotMod i fun _ => Slot.free
      (if x.state == .cancelled then y else { y with tail := (i + 1) % (x.desc.ring + 1), taken := x.taken + 1 }).settleWrite
  else if sl.state == .truncated then x.slotMod i fun _ => { sl with bytes := sl.committed }
  else if sl.committed < tileBytes x.desc then x.slotMod i fun _ => sl
  else (x.slotMod i fun _ => { sl with state := .ready, bytes := tileBytes x.desc }).tileDone

theorem stream?_commitPiece {s : State} {k : Nat × Nat} {x : Stream} (hx : stream? s k = some x) (i len : Nat) :
    stream? (commitPiece k i len s) k = some (pieceDone x i len) := by
  unfold commitPiece pieceDone
  simp only [hx]
  split
  · split <;> exact stream?_setStream_same _ _ _
  · split
    · exact stream?_setStream_same _ _ _
    · split
      · exact stream?_setStream_same _ _ _
      · rw [stream?_of_does (slotSignal_does ..) (by decide), stream?_setStream_same]

section
variable {x : Stream} {i len : Nat}

theorem pieceDone_transfers : (pieceDone x i len).transfers = x.transfers := by
  unfold pieceDone
  dsimp only
  split
  · split
    · rfl
    · rw [(settleWrite_keeps _).2.2.2.2.1]
      cases x.state <;> rfl
  · split
    · rfl
    · split <;> rfl

/-- What a piece leaves of a read slot that it does not fill. -/
theorem pieceDone_part (hi : i < x.slots.length) (hw : x.desc.write = false) (hpart : (x.slot i).committed + len < tileBytes x.desc) :
    ((pieceDone x i len).slot i).state = (x.slot i).state ∧ ((pieceDone x i len).slot i).committed = (x.slot i).committed + len ∧
    (pieceDone x i len).done = x.done := by
  unfold pieceDone
  simp only [hw, Bool.false_eq_true, if_false, hpart, if_true]
  split
  · exact ⟨by rw [slot_slotMod_same x _ hi], by rw [slot_slotMod_same x _ hi], rfl⟩
  · exact ⟨by rw [slot_slotMod_same x _ hi], by rw [slot_slotMod_same x _ hi], rfl⟩

theorem pieceDone_filling (hw : x.desc.write = false) (ht : (x.slot i).state = .filling) (hpart : (x.slot i).committed + len < tileBytes x.desc) :
    pieceDone x i len = x.slotMod i fun _ => { x.slot i with committed := (x.slot i).committed + len } := by
  have hnt : (SlotState.filling == SlotState.truncated) = false := rfl
  simp only [pieceDone, hw, ht, hnt, hpart, Bool.false_eq_true, if_false, if_true]

theorem pieceDone_full (hw : x.desc.write = false) (ht : (x.slot i).state ≠ .truncated) (hfull : tileBytes x.desc ≤ (x.slot i).committed + len) :
    pieceDone x i len =
      (x.slotMod i fun _ => { x.slot i with committed := (x.slot i).committed + len, state := .ready, bytes := tileBytes x.desc }).tileDone := by
  have hnt : ((x.slot i).state == .truncated) = false := by simpa using ht
  simp only [pieceDone, hw, hnt, Nat.not_lt.2 hfull, Bool.false_eq_true, if_false]

/-- What the last piece leaves of a write slot. -/
theorem pieceDone_drained (hw : x.desc.write = true) (hfull : (x.slot i).bytes ≤ (x.slot i).committed + len) :
    (pieceDone x i len).slot i = Slot.free ∧ (pieceDone x i len).tiles = x.tiles + b2n (x.state ≠ .cancelled && x.state ≠ .aborted) ∧
    (x.state ≠ .cancelled → (pieceDone x i len).done = x.done + 1 ∧ (pieceDone x i len).tail = (i + 1) % (x.desc.ring + 1)) ∧
    (x.state = .cancelled → (pieceDone x i len).done = x.done ∧ (pieceDone x i len).tail = x.tail ∧ (pieceDone x i len).state = .cancelled) := by
  unfold pieceDone
  simp only [hw, if_true, Nat.not_lt.2 hfull, if_false]
  generalize hy : (if x.state == .cancelled || x.state == .aborted then { x with done := x.done + b2n (x.state == .aborted) } else x.tileDone) = y
  generalize hz : (if x.state == .cancelled then y.slotMod i fun _ => Slot.free
    else { (y.slotMod i fun _ => Slot.free) with tail := (i + 1) % (x.desc.ring + 1), taken := x.taken + 1 }) = z
  obtain ⟨hslots, htail, hdone, htiles, -, hstate⟩ := settleWrite_keeps z
  have hfree : z.slot i = Slot.free := by
    rw [← hz]
    split
    · exact slot_slotMod_free y i
    · exact slot_slotMod_free y i
  rw [slot_congr hslots, htail, hdone, htiles, hfree]
  cases hst : x.state
  case cancelled =>
    have hzs : z.state = .cancelled := by subst hz hy; simp [hst, Stream.slotMod]
    rw [hstate (by simp [hzs])]
    subst hz hy
    simp [hst, Stream.slotMod, b2n]
  all_goals
    subst hz hy
    simp [hst, Stream.slotMod, Stream.tileDone, b2n]

end

/-! ### A packet taken into a slot -/

theorem takePacket_waits {s : State} {q : Nat} {y : Queue} (hq : queue? s q = some y) (ht : takeable y = false) : takePacket q s = none := by
  simp only [takePacket, hq, ht, Bool.not_false, if_true]

theorem takePacket_takes {s : State} {q : Nat} {y : Queue} {pkt : Packet} (hq : queue? s q = some y) (ht : takeable y = true)
    (hp : y.pkts[y.read.1]? = some pkt) : ∃ u, takePacket q s = some (pkt.bytes, u) := by
  simp only [takePacket, hq, ht, hp, Bool.not_true, Bool.false_eq_true, if_false]
  exact ⟨_, rfl⟩

section
variable {s : State} {k : Nat × Nat} {x : Stream} {i q : Nat}

/-- A queue that the stream may not reach fills the slot with zeros. -/
theorem packetTile_unheld (hh : queueHeld s q = false) : stream? (packetTile k x i q s) k =
    some ((x.slotMod i fun sl => { sl with state := .ready, bytes := min x.desc.d0 x.desc.slotBytes, badRanges := [(0, min x.desc.d0 x.desc.slotBytes)] }).tileDone) := by
  simp only [packetTile, hh, Bool.not_false, if_true]
  rw [stream?_of_does (slotSignal_does ..) (by decide), stream?_of_does (streamBlot_does ..) (by decide), stream?_setStream_same]

theorem packetTile_waits (hh : queueHeld s q = true) (ht : takePacket q s = none) :
    packetTile k x i q s = queueWait q ⟨x.unit, 0, 0, .stream k.1 k.2⟩ s := by
  simp only [packetTile, hh, ht, Bool.not_true, Bool.false_eq_true, if_false]

theorem packetTile_takes {bytes : Bytes} {u : State} (hh : queueHeld s q = true) (ht : takePacket q s = some (bytes, u)) :
    stream? (packetTile k x i q s) k = some ((x.slotMod i fun _ => { x.slot i with
      state := if x.desc.slotBytes < bytes.length then .truncated else .ready, bytes := min bytes.length x.desc.slotBytes }).tileDone) := by
  simp only [packetTile, hh, ht, Bool.not_true, Bool.false_eq_true, if_false, decide_eq_true_eq]
  by_cases hl : x.desc.slotBytes < bytes.length
  · simp only [hl, if_true]
    rw [stream?_of_does (streamBlot_does ..) (by decide), stream?_setStream_same]
  · simp only [hl, if_false]
    rw [stream?_of_does (slotSignal_does ..) (by decide), stream?_setStream_same]

end

/-! ### TRANSFER_COMPLETE -/

/-- What an intact transfer of a cached stream leaves in the cache of its consumer's cluster. -/
def cacheRead (s : State) (k : Nat × Nat) (x : Stream) (t : Transfer) (v : State) : State :=
  if x.desc.cache then fillLines (consumerCluster (streamPlan s k) x.desc) (lineOf v t.dva).toList v else v

section
variable {s : State} {r : StreamRef} {tag : BitVec 11} {lost tf : Bool} {x : Stream} {t : Transfer}

theorem transferComplete_unknown (h : stream? s (refKey r) = none ∨ ∃ x, stream? s (refKey r) = some x ∧ ∀ t ∈ x.transfers, t.tag ≠ tag.toNat) :
    exec (.transferComplete r tag lost tf) s = .next s := by
  show execTransferComplete r tag lost tf s = _
  obtain hx | ⟨x, hx, h⟩ := h
  · simp only [execTransferComplete, hx]
  · have hnone : (x.transfers.find? fun t => t.tag == tag.toNat) = none := by simpa using h
    simp only [execTransferComplete, hx, hnone]

theorem transferComplete_dropped (hx : stream? s (refKey r) = some x) (ht : (x.transfers.find? fun t => t.tag == tag.toNat) = some t) (hd : t.drop = true) :
    exec (.transferComplete r tag lost tf) s = .next (setStream (refKey r) { x with transfers := x.transfers.erase t } s) := by
  show execTransferComplete r tag lost tf s = _
  simp only [execTransferComplete, hx, ht, hd, if_true]

/-- The bytes of an intact transfer moved: read into the ring, or written from it, of which the host's caches are told. -/
theorem transferComplete_intact (hx : stream? s (refKey r) = some x) (ht : (x.transfers.find? fun t => t.tag == tag.toNat) = some t) (hd : t.drop = false)
    (hb : (lost || tf) = false) {u : State} (hu : u = setStream (refKey r) { x with transfers := x.transfers.erase t } s) :
    exec (.transferComplete r tag lost tf) s = .next (shareEnd (refKey r) (commitPiece (refKey r) t.slot t.len (cacheRead s (refKey r) x t
      (if x.desc.write then
        if (refKey r).1 = 255 then dropLines t.dva t.len (writeFree u t.dva (readHeld u (slotDva (streamPlan s (refKey r)) x.desc t.slot + t.off) t.len))
        else writeFree u t.dva (readHeld u (slotDva (streamPlan s (refKey r)) x.desc t.slot + t.off) t.len)
      else placeBytes x.desc (slotDva (streamPlan s (refKey r)) x.desc t.slot) t.off (readDva u t.dva t.len) u)))) := by
  show execTransferComplete r tag lost tf s = _
  subst hu
  simp only [execTransferComplete, hx, ht, hd, hb, Bool.false_eq_true, if_false, Bool.not_false, Bool.and_true]
  rfl

/-- The bytes of a transfer that lost a word: zeros in the ring, none written. -/
theorem transferComplete_lost (hx : stream? s (refKey r) = some x) (ht : (x.transfers.find? fun t => t.tag == tag.toNat) = some t) (hd : t.drop = false)
    (hb : (lost || tf) = true) {x' : Stream} {v : State} (hx' : x' = { x with transfers := x.transfers.erase t })
    (hv : v = loseWord (refKey r) x' t tf (setStream (refKey r) x' s)) :
    exec (.transferComplete r tag lost tf) s = .next (shareEnd (refKey r) (commitPiece (refKey r) t.slot t.len
      (if x.desc.write then v else placeBytes x.desc (slotDva (streamPlan s (refKey r)) x.desc t.slot) t.off (zeros t.len) v))) := by
  show execTransferComplete r tag lost tf s = _
  subst hx' hv
  simp only [execTransferComplete, hx, ht, hd, hb, Bool.false_eq_true, if_false, if_true, Bool.not_true, Bool.and_false]
  rfl

/-! ### STR_TAG_LATE -/

theorem strTagLate_stops (h : stream? s (refKey r) = none ∨ ∃ x, stream? s (refKey r) = some x ∧ (x.ruled = false ∨ ∀ t ∈ x.transfers, t.tag ≠ tag.toNat)) :
    exec (.strTagLate r tag) s = .next s := by
  show execStrTagLate r tag s = _
  obtain hx | ⟨x, hx, h | h⟩ := h
  · simp only [execStrTagLate, hx]
  · cases ht : x.transfers.find? fun t => t.tag == tag.toNat with
    | none => simp only [execStrTagLate, hx, ht]
    | some t => simp only [execStrTagLate, hx, ht, h, Bool.not_false, if_true]
  · have hnone : (x.transfers.find? fun t => t.tag == tag.toNat) = none := by simpa using h
    simp only [execStrTagLate, hx, hnone]

theorem strTagLate_records (hx : stream? s (refKey r) = some x) (hr : x.ruled = true) (ht : (x.transfers.find? fun t => t.tag == tag.toNat) = some t) {b : Nat}
    (hb : b = if x.desc.priv then 2280
      else max (tierLatency s (uidDie x.unit) t.dva) (tierLatency s (uidDie x.unit) (slotDva (streamPlan s (refKey r)) x.desc t.slot))) :
    exec (.strTagLate r tag) s = .next (emitErr ⟨3, 2, x.unit, 0, max s.clk.cycle (t.issuedAt + b + 1) - (t.issuedAt + b), (refKey r).1, true, true⟩
      (advanceTo (t.issuedAt + b + 1) s)) := by
  show execStrTagLate r tag s = _
  subst hb
  simp only [execStrTagLate, hx, hr, ht, Bool.not_true, Bool.false_eq_true, if_false]
  rfl

end

/-! ### A stream halted -/

/-- A margin stream halted before a transfer: it alone changes among the streams, and holds the fault record (R316). -/
theorem haltStream_streams (k : Nat × Nat) (x : Stream) (i dva : Nat) (s : State) : ∃ f : FaultRec,
    stream? (haltStream k x i dva s) k = some { x with state := .halted, fault := some f } ∧ f.dva = dva ∧ f.committed = (x.slot i).issued ∧
    f.tile = (x.slot i).tile - 1 ∧ f.slot = i ∧ f.cause = (if x.desc.write then 2 else 1) ∧ ∀ j, j ≠ k → stream? (haltStream k x i dva s) j = stream? s j := by
  have hset : ∃ f : FaultRec, haltStream k x i dva s = emitErr ⟨3, 1, x.unit, dva, 0, k.1, false, false⟩
      (refreshFaulted (dva / pageBytes) (setStream k { x with state := .halted, fault := some f } s)) ∧ f.dva = dva ∧ f.committed = (x.slot i).issued ∧
      f.tile = (x.slot i).tile - 1 ∧ f.slot = i ∧ f.cause = if x.desc.write then 2 else 1 := ⟨⟨_, _, _, _, _, _, _, _, _⟩, rfl, rfl, rfl, rfl, rfl, rfl⟩
  obtain ⟨f, hset, hdva, hcommitted, htile, hslot, hcause⟩ := hset
  rw [hset]
  refine ⟨f, ?_, hdva, hcommitted, htile, hslot, hcause, fun j hj => ?_⟩
  · rw [stream?_of_does (emitErr_does ..) (by decide), stream?_of_does (refreshFaulted_does ..) (by decide), stream?_setStream_same]
  · rw [stream?_of_does (emitErr_does ..) (by decide), stream?_of_does (refreshFaulted_does ..) (by decide), stream?_setStream_other _ _ _ _ hj]

/-! ### A transfer of a walk -/

/-- It is the turn of stream `r`, in state `x`, which issues `n` bytes of slot `i` from `dva` on under a tag; `u` is the state once the slot has reported
what of it is out of range. -/
structure Issuing (s u : State) (r : StreamRef) (x : Stream) (i base tag dva n : Nat) : Prop where
  found : stream? s (refKey r) = some x
  running : x.state = .running
  kind : x.desc.kind = 0
  slot : issueSlot x = some i
  walks : walkQueue (streamPlan s (refKey r)) x.desc = none
  turn : issuesNext s (refKey r) x = true
  baseFound : walkBaseDva (streamPlan s (refKey r)) x.desc = some base
  tagFree : freeTag s x = some tag
  reported : u = ringReport (refKey r) x i s
  start : dva = walkDva base x.desc ((x.slot i).tile - 1 - x.walkBase) (readOf x.desc (x.slot i).issued)
  len : n = spanOf x.desc (x.slot i).issued dva (if x.desc.write then (x.slot i).bytes else tileBytes x.desc)

theorem freeTag_of_does {T : List Part} {s t : State} (h : Does T s t) (hT : Part.streams ∉ T) (x : Stream) : freeTag t x = freeTag s x := by
  have hs : t.streams = s.streams := h.frame .streams hT
  unfold freeTag
  rw [hs]

namespace Issuing
variable {s u : State} {r : StreamRef} {x : Stream} {i base tag dva n : Nat} {b : Option (BitVec 17)} {w : Byte}

theorem does (h : Issuing s u r x i base tag dva n) : Does [.blot, .mem, .pages] s u := h.reported ▸ ringReport_does ..

theorem baseKept (h : Issuing s u r x i base tag dva n) : walkBaseDva (streamPlan u (refKey r)) x.desc = some base := by
  rw [streamPlan_of_does h.does (by decide), h.baseFound]

theorem tagKept (h : Issuing s u r x i base tag dva n) : freeTag u x = some tag := by rw [freeTag_of_does h.does (by decide), h.tagFree]

theorem issues (h : Issuing s u r x i base tag dva n) : exec (.transferIssue ⟨r, b, w⟩) s = .next (shareEnd (refKey r) (issueAt (refKey r) x i u)) := by
  rw [transferIssue_walks h.found h.running h.kind h.slot h.walks h.turn, h.reported]

theorem sends (h : Issuing s u r x i base tag dva n) (ha : access u dva n = .ok) (hl : lineHit u (refKey r) x dva = false) :
    exec (.transferIssue ⟨r, b, w⟩) s = .next (shareEnd (refKey r) (setStream (refKey r)
      { issued x i n with transfers := x.transfers ++ [⟨tag, i, (x.slot i).issued, n, dva, s.clk.cycle, false⟩] } u)) := by
  have hclk : u.clk = s.clk := h.does.frame .clk (by decide)
  rw [h.issues, issueAt_sends h.baseKept h.tagKept h.start h.len ha hl, hclk]

theorem hits (h : Issuing s u r x i base tag dva n) (ha : access u dva n = .ok) (hl : lineHit u (refKey r) x dva = true) :
    exec (.transferIssue ⟨r, b, w⟩) s = .next (shareEnd (refKey r) (commitPiece (refKey r) i n
      (fillLines (consumerCluster (streamPlan s (refKey r)) x.desc) (lineOf u dva).toList
        (placeBytes x.desc (slotDva (streamPlan s (refKey r)) x.desc i) (x.slot i).issued (readDva u dva n) (setStream (refKey r) (issued x i n) u))))) := by
  rw [h.issues, issueAt_hits h.baseKept h.tagKept h.start h.len ha hl, streamPlan_of_does h.does (by decide)]

theorem halts {page : Nat} (h : Issuing s u r x i base tag dva n) (ha : access u dva n = .absent page) (hm : x.ruled = false)
    (hns : noShared s (refKey r)) : exec (.transferIssue ⟨r, b, w⟩) s = .next (haltStream (refKey r) x i dva u) := by
  obtain ⟨f, hf, -⟩ := haltStream_streams (refKey r) x i dva u
  rw [h.issues, issueAt_halts h.baseKept h.tagKept h.start h.len ha hm,
    shareEnd_margin hf hm (noShared_of_does (haltStream_does ..) (by decide) (noShared_of_does h.does (by decide) hns))]

theorem zeros (h : Issuing s u r x i base tag dva n) (ha : access u dva n = .out) (hm : x.ruled = false) (hns : noShared s (refKey r))
    (hw : x.desc.write = false) (hpart : (x.slot i).committed + n < tileBytes x.desc) : ∃ (t : State) (z : Stream),
      exec (.transferIssue ⟨r, b, w⟩) s = .next t ∧ stream? t (refKey r) = some z ∧ z.transfers = x.transfers ∧
      z.slot i = { x.slot i with state := .filling, issued := (x.slot i).issued + n, committed := (x.slot i).committed + n,
                                 badRanges := (x.slot i).badRanges ++ placeRanges x.desc (x.slot i).issued n } := by
  have hin := issueSlot_lt h.slot
  have hzslot : (issuedZeros x i n).slot i = { x.slot i with
      state := .filling, issued := (x.slot i).issued + n, badRanges := (x.slot i).badRanges ++ placeRanges x.desc (x.slot i).issued n } :=
    slot_slotMod_same x _ hin
  have hzin : i < (issuedZeros x i n).slots.length := by simpa [issuedZeros, Stream.slotMod, length_modifyAt] using hin
  have hfill := issueAt_zeros h.baseKept h.tagKept h.start h.len ha hw
  generalize hv : ite ((x.slot i).badRanges.isEmpty = true) _ _ = v at hfill
  have hvx : stream? v (refKey r) = some (issuedZeros x i n) := by
    rw [← hv]
    split
    · rw [stream?_of_does (streamBlot_does ..) (by decide), stream?_of_does (placeBytes_does ..) (by decide), stream?_setStream_same]
    · rw [stream?_of_does (placeBytes_does ..) (by decide), stream?_setStream_same]
  have hz := stream?_commitPiece hvx i n
  rw [← hfill, pieceDone_filling (x := issuedZeros x i n) hw (by rw [hzslot]) (by rw [hzslot]; exact hpart)] at hz
  have he := h.issues (b := b) (w := w)
  rw [shareEnd_margin hz hm (noShared_of_does (issueAt_does ..) (by decide) (noShared_of_does h.does (by decide) hns))] at he
  refine ⟨_, _, he, hz, rfl, ?_⟩
  rw [slot_slotMod_same _ _ hzin, hzslot]

end Issuing

/-! ### A packet taken by a margin stream -/

section
variable {s : State} {r : StreamRef} {x : Stream} {i q : Nat} (hx : stream? s (refKey r) = some x) (hrun : x.state = .running) (hk : x.desc.kind = 0)
  (hi : issueSlot x = some i) (hw : x.desc.write = false) (hq : walkQueue (streamPlan s (refKey r)) x.desc = some q)
  (hmay : mayTransfer s (refKey r) x = true) (hm : x.ruled = false) (hns : noShared s (refKey r))
include hx hrun hk hi hw hq hmay hm hns

theorem transferIssue_unheld (hh : queueHeld s q = false) : ∃ (t : State) (z : Stream), exec (.transferIssue ⟨r, none, 0⟩) s = .next t ∧
    stream? t (refKey r) = some z ∧ (z.slot i).state = .ready ∧ (z.slot i).badRanges = [(0, min x.desc.d0 x.desc.slotBytes)] ∧ z.done = x.done + 1 := by
  have hin := issueSlot_lt hi
  have he := transferIssue_takes hx hrun hk hi hw hq hmay
  have hz := packetTile_unheld (k := refKey r) (x := x) (i := i) hh
  rw [shareEnd_margin hz hm (noShared_of_does (packetTile_does ..) (by decide) hns)] at he
  exact ⟨_, _, he, hz, congrArg Slot.state (slot_slotMod_same x _ hin), congrArg Slot.badRanges (slot_slotMod_same x _ hin), rfl⟩

theorem transferIssue_waits {y : Queue} (hh : queueHeld s q = true) (hy : queue? s q = some y) (ht : takeable y = false) :
    exec (.transferIssue ⟨r, none, 0⟩) s = .next (queueWait q ⟨x.unit, 0, 0, .stream (refKey r).1 (refKey r).2⟩ s) := by
  have hx' : stream? (queueWait q ⟨x.unit, 0, 0, .stream (refKey r).1 (refKey r).2⟩ s) (refKey r) = some x := by
    rw [stream?_of_does (queueWait_does ..) (by decide), hx]
  rw [transferIssue_takes hx hrun hk hi hw hq hmay, packetTile_waits hh (takePacket_waits hy ht),
    shareEnd_margin hx' hm (noShared_of_does (queueWait_does ..) (by decide) hns)]

theorem transferIssue_packet {y : Queue} {pkt : Packet} (hh : queueHeld s q = true) (hy : queue? s q = some y) (hp : y.pkts[y.read.1]? = some pkt)
    (ht : takeable y = true) : ∃ (t : State) (z : Stream), exec (.transferIssue ⟨r, none, 0⟩) s = .next t ∧ stream? t (refKey r) = some z ∧
      z.done = x.done + 1 ∧ z.tiles = x.tiles + 1 ∧ (z.slot i).bytes = min pkt.bytes.length x.desc.slotBytes ∧
      (z.slot i).state = if x.desc.slotBytes < pkt.bytes.length then .truncated else .ready := by
  have hin := issueSlot_lt hi
  have he := transferIssue_takes hx hrun hk hi hw hq hmay
  obtain ⟨u, hu⟩ := takePacket_takes hy ht hp
  have hz := packetTile_takes (k := refKey r) (x := x) (i := i) hh hu
  rw [shareEnd_margin hz hm (noShared_of_does (packetTile_does ..) (by decide) hns)] at he
  exact ⟨_, _, he, hz, rfl, rfl, congrArg Slot.bytes (slot_slotMod_same x _ hin), congrArg Slot.state (slot_slotMod_same x _ hin)⟩

end

/-! ### The obligation -/

theorem mayBegin_of {y : Stream} {n : Nat} (hn : n = y.desc.ring + 1) (h : y.nextTile < takenTiles y + lookAhead y.desc)
    (hf : y.slot (y.nextTile % n) = Slot.free) : mayBegin y = true := by
  subst hn
  simp [mayBegin, h, hf]

theorem not_mayBegin_of {y : Stream} {n : Nat} (hn : n = y.desc.ring + 1) (h : takenTiles y + lookAhead y.desc ≤ y.nextTile ∨
    y.slot (y.nextTile % n) ≠ Slot.free) : mayBegin y = false := by
  subst hn
  obtain h | h := h
  · simp [mayBegin, Nat.not_lt.2 h]
  · simp [mayBegin, h]

/-- TILE_BEGIN does nothing where the stream is none that begins tiles. -/
theorem tileBegin_idle {s : State} {r : StreamRef} (h : stream? s (refKey r) = none ∨ ∃ x, stream? s (refKey r) = some x ∧ (x.desc.write = true ∨
    (x.state ≠ .running ∧ r.slot ≠ 0xff) ∨ x.desc.kind = 1 ∨ x.desc.kind = 2)) : exec (.tileBegin r) s = .next s := by
  obtain hx | ⟨x, hx, h⟩ := h
  · show execTileBegin r s = _
    simp only [execTileBegin, hx]
  · obtain ⟨-, -, hstate, -, hwrite, hkind⟩ := restartMargin_keeps (streamPlan s (refKey r)) x
    generalize hy : restartMargin (streamPlan s (refKey r)) x = y at hstate hwrite hkind
    obtain h | ⟨h, hr⟩ | h | h := h
    · exact tileBegin_stops hx hy.symm (.inl (hwrite.trans h))
    · show execTileBegin r s = _
      have hown : ((refKey r).1 == 255) = false := by simpa using refKey_ne_host hr
      simp only [execTileBegin, hx, hy, hstate, hown]
      cases walkBaseDva (streamPlan s (refKey r)) y.desc <;> simp [h]
    · exact tileBegin_stops hx hy.symm (.inr (.inl (hkind.trans h)))
    · exact tileBegin_stops hx hy.symm (.inr (.inr (.inl (hkind.trans h))))

/-- Settles O57, a lemma for each way a tile or a transfer can go. -/
theorem streamTransfers : Obligations.StreamTransfers := by
  unfold Obligations.StreamTransfers
  refine ⟨fun s r => tileBegin_idle, ?_, ?_, ?_, fun s r b w => transferIssue_stops, fun s k x i => ringReport_silent, ?_, ?_,
    fun s r tag lost tf => transferComplete_unknown, ?_, fun s k x => shareEnd_margin, ?_, fun s r tag => strTagLate_stops,
    fun s r tag x t b hx hr ht => strTagLate_records hx hr ht⟩
  · intro s r x y n hx hy hn hlen hw hrun hk
    refine ⟨fun hr h => tileBegin_own hr hx hy hw hk ?_, fun hleft hmay hroom hfree => ?_⟩
    · obtain h | h | h | h := h
      · exact .inr (.inl h)
      · exact .inr (.inr (.inl h))
      · exact .inr (.inr (.inr (not_mayBegin_of hn (.inl h))))
      · exact .inr (.inr (.inr (not_mayBegin_of hn (.inr h))))
    · refine ⟨begunTile y, tileBegin_begins hx hy hw hk hrun hleft hmay (mayBegin_of hn hroom hfree), ?_, fun j hj => ?_, rfl, ?_, hrun, rfl, rfl, rfl⟩
      all_goals subst hn
      · exact slot_slotMod_same y _ (hlen ▸ Nat.mod_lt _ (by omega))
      · exact slot_slotMod_other y _ hj
      · rfl
  · intro s r x y hr hx hy hw hk hm hmay
    refine ⟨fun hfull hno => ?_, fun hnr hnt hno => ?_, fun hfull hrun hleft hb hb' => ?_⟩
    · have hstop : (!(y.state == .running && tilesLeft none y) || !mayBegin (hostTake y)) = true := by
        obtain h | h := hno <;> simp [h]
      rw [tileBegin_takes hr hx hy hw hk hmay (hno.imp id .inl), if_pos hstop, hostTake_full hfull]
    · have hstop : (!(y.state == .running && tilesLeft none y) || !mayBegin (hostTake y)) = true := by
        rw [hostTake_other hnr hnt]
        obtain h | h | h := hno <;> simp [h]
      rw [tileBegin_takes hr hx hy hw hk hmay hno, if_pos hstop, hostTake_other hnr hnt]
    · have hgo : ¬ (!(y.state == .running && tilesLeft none y) || !mayBegin (hostTake y)) = true := by
        simp [hrun, hleft, hostTake_full hfull, hb']
      obtain ⟨-, htaken, htail, -, hnext, -⟩ := freeSlot_keeps y y.tail
      refine ⟨begunTile (freeSlot y y.tail), ?_, htaken, congrArg (· + 1) hnext, htail⟩
      rw [tileBegin_takes hr hx hy hw hk hmay (.inr (.inr hb)), if_neg hgo, hostTake_full hfull]
  · intro s r x y base hx hy hw hrun hk hleft hmay hbase
    obtain ⟨cluster, lines, he⟩ := tileBegin_prefetches hx hy hw hrun hk hleft hmay hbase
    refine ⟨_, _, he, (fillLines_does ..).eq_mix, ?_⟩
    by_cases hend : (!y.desc.persist && walkEnded (prefetched s base y)) = true
    · rw [if_pos hend]
      refine ⟨rfl, rfl, rfl, rfl, rfl, rfl, iff_of_true rfl ?_⟩
      simpa [walkEnded, prefetched, Stream.tileDone, and_assoc] using hend
    · rw [if_neg hend]
      refine ⟨rfl, rfl, rfl, rfl, rfl, rfl, iff_of_false ?_ ?_⟩
      · rw [show (prefetched s base y).state = y.state from rfl, hrun]
        decide
      · simpa [walkEnded, prefetched, Stream.tileDone, and_assoc] using hend
  · intro s u r bw w x y i base tag dva n hx hrun hk hi hq hnext hbase htag hns hu hd hn hy
    have h : Issuing s u r x i base tag dva n := ⟨hx, hrun, hk, hi, hq, hnext, hbase, htag, hu, hd, hn⟩
    have hmargin : x.ruled = false → noShared s (refKey r) := fun hm => hns.resolve_right (by simp [hm])
    refine ⟨⟨hn ▸ spanOf_block .., freeTag_free htag⟩, fun ha hl => ?_, fun ha hl => hy ▸ h.hits ha hl, fun page ha hm => ?_, fun ha hm hw hpart => ?_⟩
    · have he := h.sends (b := bw) (w := w) ha hl
      rw [show issued x i n = y from hy.symm] at he
      refine ⟨_, rfl, he, fun hm => he.trans (congrArg Host.Outcome.next (shareEnd_margin (stream?_setStream_same ..) ?_ ?_))⟩
      · rw [hy]
        exact hm
      · exact noShared_of_does (setStream_does ..) (by decide) (noShared_of_does h.does (by decide) (hmargin hm))
    · obtain ⟨f, hf, hdva, hcommitted, htile, hslot, hcause, hother⟩ := haltStream_streams (refKey r) x i dva u
      exact ⟨_, _, f, h.halts ha hm (hmargin hm), hf, rfl, hdva, hcommitted, htile, hslot, hcause,
        fun j hj => (hother j hj).trans (stream?_of_does h.does (by decide) j)⟩
    · exact h.zeros ha hm (hmargin hm) hw hpart
  · intro s r x i q hx hrun hk hw hm hns hi hq hmay
    exact ⟨transferIssue_unheld hx hrun hk hi hw hq hmay hm hns,
      fun y pkt hh hy hpkt => ⟨transferIssue_waits hx hrun hk hi hw hq hmay hm hns hh hy, transferIssue_packet hx hrun hk hi hw hq hmay hm hns hh hy hpkt⟩⟩
  · intro s r tag lost tf x x' t u bad ring read hx ht hx' hu hbad hring hread
    subst hx' hring hread
    refine ⟨fun hd => by rw [transferComplete_dropped hx ht hd, hu], fun hd hb hw => ?_, fun hd hb hw hr => ?_, fun hd hb hw hr => ?_, fun hd hb hw => ?_,
      fun hd hb hw => ?_⟩
    · rw [transferComplete_intact hx ht hd (hbad ▸ hb) hu, if_neg (by simp [hw])]
      rfl
    · rw [transferComplete_intact hx ht hd (hbad ▸ hb) hu, if_pos hw, if_neg (refKey_ne_host hr)]
      rfl
    · rw [transferComplete_intact hx ht hd (hbad ▸ hb) hu, if_pos hw, if_pos (refKey_host hr)]
      rfl
    · rw [transferComplete_lost hx ht hd (hbad ▸ hb) rfl rfl, if_neg (by simp [hw]), hu]
    · rw [transferComplete_lost hx ht hd (hbad ▸ hb) rfl rfl, if_pos hw, hu]
  · intro s k x i len hx hi
    refine ⟨_, stream?_commitPiece hx i len, pieceDone_transfers, fun hw ht hfull => ?_, fun hw hpart => pieceDone_part hi hw hpart,
      fun hw hfull => pieceDone_drained hw hfull⟩
    rw [pieceDone_full hw ht hfull]
    refine ⟨?_, ?_, rfl, rfl⟩
    · exact congrArg Slot.state (slot_slotMod_same x _ hi)
    · exact congrArg Slot.bytes (slot_slotMod_same x _ hi)

end Sys2Proof.Machine
end
